-- ==== Sys2Proof/Word.lean ====
section
/-! DEFINITION. The words of the machine: 32-bit register values and bytes, and their plainest arithmetic. -/
namespace Sys2Proof

/-- A 32-bit register value (R258, Table 0-3). -/
abbrev Word := BitVec 32

/-- One byte. -/
abbrev Byte := BitVec 8

end Sys2Proof
end

