-- ==== Sys2Proof/Syntax.lean ====
section
/-! DEFINITION. The commands of the block: one constructor per row of the manual's table of operations and events, with
the operands each row carries. A descriptor row carries its header and payload (Tables 9-4, 9-8); a register row the value
written; an event row what the outside world or a unit shows at that moment. Times are ticks of 1/(2.376 × 10^12) s of the
device time base since the SMPTE epoch, so that every period of the manual is a whole number. -/
namespace Sys2Proof

/-- A signature blob as read from host memory (Table 9-11): its bytes 0 to 23, and of its XMSS signature the public key object it was made
under and the digest it signs (assumption 205). -/
structure Blob where
  head   : List Byte
  key    : List Nat
  digest : BitVec 512
deriving DecidableEq, Repr

/-- What every descriptor carries (Table 9-4): the ring it lies in, its TAG, the FLAGS bits, EPOCH, RFN, the signature blob address of its
POINTER and that blob (none where it could not be read), and the instant at which the management core judges it (E3 of Table 1-3). A SALVO's
POINTER and blob address are its list's. -/
structure Hdr where
  ring       : Fin 64
  tag        : Nat
  ordered    : Bool
  dropIfLate : Bool
  signed     : Bool
  chain      : Bool
  irq        : Bool
  epoch      : Nat
  rfn        : Nat
  blobAddr   : Nat
  blob       : Option Blob
  t          : Nat
deriving DecidableEq, Repr

/-- One pixel: components 0, 1 and 2 (Y', Cb, Cr, or R', G', B'; R113) and its key code. In a 4:2:2 picture the colour difference of a
pair stands on its even pixel. -/
structure Px where
  c0  : Nat := 0
  c1  : Nat := 0
  c2  : Nat := 0
  key : Nat := 3
deriving DecidableEq, Repr

/-- An active picture: its lines in stored order, top to bottom, field 1 before field 2 when interlaced (R101, R110). -/
abbrev Pic := List (List Px)

/-- An ancillary packet: its line, whether it lies in VANC, DID, SDID and user words (R35). -/
structure AncPkt where
  line  : Nat
  vanc  : Bool
  did   : Nat
  sdid  : Nat
  words : List Nat
deriving DecidableEq, Repr

/-- How a host stream is set up by its other end (R59): format index, sampling (0 4:2:2) and depth. -/
structure HostFmt where
  fmt      : Nat
  sampling : Nat
  tenBit   : Bool
deriving DecidableEq, Repr

/-- What a source shows over one complete frame: its active picture, or the pictures of a group's links in lane order (R39), its
samples as the source carries them (8 or 10 bits); the ST 352 payload received in it and the format that payload names, its ATC time
address, level B-DL, its ancillary packets, the start of the next frame's line 1, and for a host ingress stream how the host has set it
up. -/
structure SrcFrame where
  pic    : Pic
  links  : List Pic
  pid    : Option Word
  pidFmt : Nat
  levelB : Bool
  atc    : Option Word
  anc    : List AncPkt
  phase  : Nat
  host   : Option HostFmt
deriving DecidableEq, Repr

/-- What a receive lane shows over a first complete frame: the format its timing detects (0xFF none), level B-DL, the ST 352
payload and the format that payload names, the ATC time address, the frame period, the lines of a frame and the start of line 1 of the next frame,
and its clock's offset from the nominal rate in 0.001 ppm. -/
structure LaneMeas where
  fmt    : Nat
  levelB : Bool
  pid    : Option Word
  pidFmt : Nat
  atc    : Option Word
  period : Nat
  lines  : Nat
  phase  : Nat
  mppm   : Int
deriving DecidableEq, Repr

/-- Kind of an ST 2110 flow (Table 9-8, byte 17). -/
inductive FlowKind where
  | video | audio | anc
deriving DecidableEq, Repr

/-- A flow record (Table 9-9). -/
structure FlowRec where
  ipv6      : Bool
  srcFilter : Bool
  prot      : Bool
  st31      : Bool
  lossBlack : Bool
  port      : Nat
  sub       : Nat
  pt        : Nat
  dscp      : Nat
  vlan      : Nat
  pcp       : Nat
  sampling  : Nat
  tenBit    : Bool
  block     : Bool
  sender    : Nat
  fmt       : Nat
  space     : Nat
  tcs       : Nat
  channels  : Nat
  l24       : Bool
  us125     : Bool
  pathDiff  : Nat
  udpPort   : Nat
  ssrc      : Nat
  mac       : Nat
  dstAddr   : Nat
  srcAddr   : Nat
deriving DecidableEq, Repr

/-- A received RTP packet: its addressing, its sequence number, the media time of its first sample (ticks since the SMPTE epoch), the
flow content it starts (a frame start and the frame's timing, for video), and an audio packet's samples, channel by channel for each
sample period. -/
structure RtpPkt where
  ipv6       : Bool
  dstAddr    : Nat
  srcAddr    : Nat
  udpPort    : Nat
  vlan       : Nat
  pt         : Nat
  ssrc       : Nat
  seq        : Nat
  media      : Nat
  frameStart : Bool
  period     : Nat
  phase      : Nat
  audio      : List (List Int) := []
deriving DecidableEq, Repr

/-- A frame that arrives at a QE sub-port (R49); an ARP request or a neighbour solicitation names the address it asks for. -/
inductive EthFrame where
  | badFcs
  | rtp (p : RtpPkt)
  | ptp
  | igmp
  | mld
  | arp (addr : Nat)
  | nd (addr : Nat)
  | other
deriving DecidableEq, Repr

/-- An entry of a salvo list (R277): destination, source, whether a SYNC chain is requested, bytes 4–7 clean otherwise. -/
structure SalvoEntry where
  dst   : Nat
  src   : Nat
  sync  : Bool
  clean : Bool
deriving DecidableEq, Repr

/-- A salvo list (R277): the count field, the POINTER, and the bytes read from host memory, none where the read failed: count × 8 bytes and
the word behind them, or with CHAIN the pages in order. -/
structure SalvoList where
  count    : Nat
  pointer  : Nat
  data     : Option (List Byte)
deriving DecidableEq, Repr

/-- The payload of ROUTE_SYNC and bytes 16–27 of ROUTE_CONVERT (Tables 3-4, 9-8). -/
structure ChainReq where
  src     : Nat
  dst     : Nat
  depth   : Nat
  pix     : Nat
  quad    : Nat
  persist : Bool
  offset  : Nat
deriving DecidableEq, Repr

/-- An item of a parameter block (Table 4-12, R280): its header's type and target, whether bytes 2 and 3 are zero, its length, and its content:
16-bit values, or one of 32 bits for a fill colour. -/
structure ParItem where
  typ    : Nat
  target : Nat
  zero   : Bool
  len    : Nat
  data   : List Nat
deriving DecidableEq, Repr

/-- A parameter block: its address, and its bytes as read from host memory, none where the read failed. -/
structure ParBlock where
  addr : Nat
  data : Option (List Byte)
deriving DecidableEq, Repr

/-- The conversion set of CTX_ADMIT (bytes 18, 24–43) and ROUTE_CONVERT (bytes 28–43). -/
structure ConvSet where
  outFmt   : Nat
  outPix   : Nat
  outDepth : Nat
  deint    : Nat
  cadOff   : Bool
  frc      : Nat
  park     : Bool
  kernel   : Nat
  preset   : Nat
  bank     : Nat
  block    : ParBlock
deriving DecidableEq, Repr

/-- The TIMING, OUTPUT and LAYER groups of a scan-out record (R278), as the SOU registers of one set lay them out. -/
structure SouLayer where
  en      : Bool := false
  key     : Nat := 0
  fixed   : Bool := false
  buf     : Nat := 0
  opacity : Nat := 0xFF
  ring    : Nat := 0x7FF
  x       : Nat := 0
  y       : Nat := 0
  hi      : Nat := 0x3AC
  lo      : Nat := 0x40
deriving DecidableEq, Repr

/-- One set of a scan-out unit (Table 5-8, offsets 0x040 to 0x08F); the field defaults are the reset values. -/
structure SouSet where
  fmt       : Nat := 0xFF
  syn       : Nat := 0
  out444    : Bool := false
  offLines  : Nat := 0
  offSamps  : Nat := 0
  frameOnly : Bool := false
  cl1       : Nat := 0
  cl2       : Nat := 0
  bg        : Nat := 0x04080200
  cdesc     : Nat := 1
  l1        : SouLayer := {}
  l2        : SouLayer := {}
  l3        : SouLayer := {}
deriving DecidableEq, Repr

/-- The payload of SOU_CFG: unit (0xFF any), preferred quadrant, byte 18 and byte 19, the record's address, and its 80 bytes (R278), none where
they could not be read. -/
structure SouReq where
  unit    : Nat
  quad    : Nat
  free    : Bool
  commit  : Bool
  retune  : Bool
  synAuto : Bool
  gTiming : Bool
  gOutput : Bool
  gL1     : Bool
  gL2     : Bool
  gL3     : Bool
  addr    : Nat
  data    : Option (List Byte)
deriving DecidableEq, Repr

/-- The payload of BUF_WRITE and BUF_READ (Table 9-8). -/
structure BufReq where
  handle    : Nat
  firstLine : Nat
  count     : Nat
  pitch     : Nat
  host      : Nat
deriving DecidableEq, Repr

/-- What a reference input shows as it is measured (R220): its rate over the 100 ms window against the XO, as an offset from its nominal
rate in 0.001 ppb; and where it gives phase, the time base's reading (ticks) as its frame start or second reaches the ball, or for PTP
the offset from the master, T_ref − T_obs, in ns; and of a PTP input the Sync messages its master advertises per 1,000 s (R231). -/
structure RefMeas where
  freq : Int
  obs  : Option Int
  sync : Nat := 0
deriving DecidableEq, Repr

/-- How an input breaks its qualification (R223): its frequency, or its phase, beyond the limits at some moment, or its frequency beyond
them for 100 ms. -/
inductive RefBreak where
  | freq | phase | steady
deriving DecidableEq, Repr

/-- Which unit of an audio clock a tracked port is (R207): a SAP slave port, an AES3 input, an SDI de-embedder lane, an IP audio flow, or
the embedder of a lane that follows a DIRECT source. -/
inductive AudPort where
  | sap (n : Fin 16) | aesi (n : Fin 16) | sdi (n : Fin 72) | ip (f : Fin 1024) | sdiTx (n : Fin 72)
deriving DecidableEq, Repr

/-- The payload of AUD_MAP (Table 6-5); gain is the signed 16-bit field. -/
structure AudMapReq where
  dst     : Nat
  count   : Nat
  src     : Nat
  unmap   : Bool
  invert  : Bool
  lsOff   : Bool
  transp  : Bool
  law     : Bool
  gain    : Int
  delay   : Nat
  fade    : Nat
deriving DecidableEq, Repr

/-- The payload of AUD_FADE (R200). -/
structure AudFadeReq where
  dst    : Nat
  count  : Nat
  target : Int
  linDb  : Bool
  dur    : Nat
deriving DecidableEq, Repr

/-- The payload of SAP_CFG (Tables 6-8, 9-8). -/
structure SapReq where
  port     : Nat
  en       : Bool
  master   : Bool
  rate96   : Bool
  mode     : Nat
  slots    : Nat
  slotBits : Nat
  dataBits : Nat
  bitDelay : Bool
  fsWidth  : Nat
  bclkEdge : Bool
  syn      : Nat
deriving DecidableEq, Repr

/-- The payload of FLOW_RX_CFG and FLOW_TX_CFG with the flow record's address and its 128 bytes (Table 9-9), none where they could not be
read. -/
structure FlowReq where
  en     : Bool
  kind   : Nat
  index  : Nat
  addr   : Nat
  data   : Option (List Byte)
deriving DecidableEq, Repr

/-- The payload of QUERY_STATUS and STATS (R281), and whether host memory takes the records. -/
structure QueryReq where
  cls     : Nat
  first   : Nat
  count   : Nat
  host    : Nat
  writeOk : Bool
deriving DecidableEq, Repr

/-- What the ring engine finds in a submission slot: its 64 bytes, or a PCIe error. -/
inductive FetchRes where
  | slot (raw : List Byte)
  | err
deriving DecidableEq, Repr

/-- The events of R260 that act on every ring. -/
inductive LinkEvent where
  | flr | hotReset | linkDown | d3hot
deriving DecidableEq, Repr


/-- The word a ribbon discards at a handshake time-out (R329): one written to, or read from, byte `off` of a buffer, for a context or, with
none, for the host's DMA; one a scan-out unit fetches for a sample of a line; one on its way to a destination's transmit tile; or one that
carries no essence. -/
inductive LostWord where
  | other
  | write (handle off : Nat)
  | read (c : Option (Fin 192)) (handle off : Nat)
  | fetch (u : Fin 160) (line samp : Nat)
  | essence (d : Fin 512) (line samp : Nat)
deriving DecidableEq, Repr

/-- What the count crossings of a crossing group have brought since the last reading (R334): events that merged with a toggle still being
acknowledged (R333), and words that a branch of a fan-out could not accept in time (R335). -/
structure Cross where
  group   : Fin 250
  merged  : Nat
  dropped : Nat
deriving DecidableEq, Repr

/-- A reading of the slack monitors: the five ribbon rates in M transfers/s (R322); with it, what the count crossings have brought. -/
structure Slack where
  rates : List Nat
  cross : List Cross := []
deriving DecidableEq, Repr

/-- The three clock monitors of R356. -/
inductive ClkMon where
  | xo | control | dram
deriving DecidableEq, Repr

/-- What a complete option load reads (R361): fuses the device does not write, the engines' trims among them (R322; in thousandths, assumption
201), and the straps. -/
structure OptSet where
  gradeE     : Bool
  personaSet : Bool
  personaVal : Nat
  straps     : Nat
  winFuse    : Nat
  devId      : Nat
  pinFuse    : Nat
  xo20       : Bool
  i2cAddr    : Nat
  cheTrim    : List Nat := []
deriving DecidableEq, Repr

/-- A firmware image as the boot ROM finds it (R417): each check of R417 in turn, and the header's fields, the body's
digest among them. -/
structure Img where
  header   : Bool
  keyOk    : Bool
  verifies : Bool
  bodyOk   : Bool
  svn      : Nat
  version  : Nat
  slot     : Nat
  revoke0  : Bool
  digest   : Nat
deriving DecidableEq, Repr

/-- What a MATE partner answers to, or asks with, a pairing (Table 16-1). -/
structure Partner where
  solo     : Bool
  pairEn   : Bool
  version  : Nat
  persona  : Nat
  lifecycle : Nat
  digest   : List Nat
  epoch    : Nat
  devnum   : Nat
deriving DecidableEq, Repr

/-- The partner on the returning MATE link (R403): role, epoch, device number. -/
structure PeerRole where
  role   : Nat
  epoch  : Nat
  devnum : Nat
deriving DecidableEq, Repr

/-- A descriptor inside a domain message: its 64 bytes (Table 9-4). -/
structure DomDesc where
  raw : List Byte
deriving DecidableEq, Repr

/-- A domain packet that carries descriptors, as it arrives (Table 16-5). -/
structure DomPkt where
  tagOk : Bool
  src   : Nat
  tdev  : Nat
  tunit : Nat
  epoch : Nat
  rate  : Nat
  id    : Nat
  time  : Nat
  descs : List DomDesc
deriving DecidableEq, Repr

/-- A lifecycle token as read (Table 17-2): its bytes 0 to 63, the digest its signature signs and whether that was made with a vendor key that
has not been revoked (assumption 205), its certificate and whether that verifies, and the consent blob. -/
structure Token where
  head     : List Byte
  digest   : BitVec 512
  vendor   : Bool
  certOk   : Bool
  cert     : List Nat
  consent  : Option Blob
deriving DecidableEq, Repr

/-- What a block finds as it acts on a register write: whether a store is confirmed (R379) or a block's clock qualifies (R372), and the
token a lifecycle request names (R414). -/
structure Found where
  ok  : Bool
  tok : Option Token
deriving DecidableEq, Repr

/-- A request a master makes of the control matrix (R340 to R346): master, transaction ID, matrix address, direction, whether it is an
instruction fetch, data written, its bytes, the beats it has still to carry while it is not answered, a number by which what becomes of a
request at its target (its beats, its answer) is told of the same request later (none for one that is never told of again), whether the
target answers it, when it comes, and, for a register write, what the block finds. -/
structure MtxReq where
  master : Fin 16
  txid   : Nat
  addr   : Nat
  write  : Bool
  fetch  : Bool
  data   : Nat
  bytes  : Nat
  left   : Nat
  num    : Option Nat
  answered : Bool
  t      : Nat
  found  : Found
deriving DecidableEq, Repr

/-- How a targeted self-test ends (R433): a pass; a fail, with the number of failing rows for an SRAM bank; or abandoned by a
hang of master 12. -/
inductive TestRes where
  | pass
  | fail (rows : Nat)
  | abandoned
deriving DecidableEq, Repr

/-- The boundary-scan instructions of Table 19-10, and any other instruction. -/
inductive Jtag where
  | bypass | idcode | sample | extest | clamp | highz | extestPulse | extestTrain | debug
deriving DecidableEq, Repr

/-- An operation the PRIMARY forwards to its STANDBY (R401), or an item of its state transfer (R399), with the operands of its
descriptor (the RFN of the header it comes with is, for an immediate take, that in which the PRIMARY's switch point falls, R98; 0 where
that destination has no running timing); an LV take comes with the outputs it covers, each with its LV switch point on the PRIMARY (none
where that output switches at once), and the image; `primaryOnly` is an operation whose effect lies on the PRIMARY alone. -/
inductive FwdOp where
  | routeSet (dst src : Nat)
  | takeAt (dst src : Nat)
  | salvo (l : SalvoList)
  | salvoCancel (ring tag : Nat)
  | routeSync (c : ChainReq)
  | routeConvert (c : ChainReq) (v : ConvSet)
  | bufAlloc (depth fmt pix cdesc cw : Nat)
  | bufFree (ring : Nat)
  | bufWrite (b : BufReq) (data : Option (List Byte))
  | ctxAdmit (ring engine offset : Nat) (v : ConvSet)
  | ctxParam (c mask offset : Nat) (v : ConvSet)
  | ctxRelease (unit : Bool) (n : Nat)
  | souCfg (r : SouReq)
  | souCommit (u : Nat)
  | audMap (a : AudMapReq)
  | audFade (a : AudFadeReq)
  | sapCfg (r : SapReq)
  | flowRxCfg (f : FlowReq)
  | flowTxCfg (f : FlowReq)
  | persistPut (first count : Nat) (data : Option (List Byte))
  | keyPin (slot : Nat) (key : Option (List Nat))
  | keyUnpin (slot : Nat)
  | signing (on : Bool)
  | domainKey (key : Option (List Nat))
  | lvTake (outs : List (Nat × Option Nat)) (sel ctl : List Nat)
  | persistStore (fail : List Nat)
  | logCheckpoint
  | primaryOnly
deriving DecidableEq, Repr

/-- The commands, in the order of the table. -/
inductive Instr where
  | registerWrite (m : Fin 16) (a v : Nat) (t : Nat) (f : Found)
  | imaskWrite (a v : Nat)
  | sdiCarrierDetect (n : Fin 72)
  | cdrLock (n : Fin 72) (rate : Nat)
  | trsLock (n : Fin 72)
  | startBoundary (n : Fin 72) (m : LaneMeas) (t : Nat)
  | rateForceWrite (n : Fin 72) (v : Nat) (t : Nat)
  | lineCrcError (n : Fin 72)
  | ancChecksumError (n : Fin 72) (did : Nat)
  | multiWrite (tx : Bool) (n : Fin 72) (v : Nat)
  | groupForm (tx : Bool) (n : Fin 72) (fmt : Nat) (t : Nat)
  | groupSkew (n : Fin 72) (skewNs : Nat) (t : Nat)
  | sdiLoss (n : Fin 72) (t : Nat)
  | acquisitionAbort (n : Fin 72)
  | txEnWrite (n : Fin 72) (en pd : Bool) (t : Nat)
  | txLeaveIdle (n : Fin 72) (t : Nat)
  | followRangeIdle (n : Fin 72) (mppm : Int)
  | qeModeWrite (q : Fin 4) (mode : Bool)
  | qeRxFrame (q : Fin 4) (sub : Fin 4) (f : EthFrame) (len corr : Nat) (t : Nat)
  | qeLinkUp (q : Fin 4) (sub : Fin 4)
  | qeLinkDown (q : Fin 4) (sub : Fin 4)
  | fecUncorrectable (q : Fin 4) (sub : Fin 4)
  | igmpQuery (q : Fin 4) (sub : Fin 4) (v6 : Bool)
  | flowLoss (k : FlowKind) (f : Fin 1024) (t : Nat)
  | legLost (k : FlowKind) (f : Fin 1024) (legB : Bool)
  | ptpTimestamp (q : Fin 4) (sub : Fin 4) (ns : Nat) (taken : Nat)
  | routeSet (h : Hdr) (dst src : Nat)
  | takeAt (h : Hdr) (dst src : Nat)
  | salvo (h : Hdr) (l : SalvoList)
  | salvoCancel (h : Hdr) (ring tag : Nat)
  | routeSync (h : Hdr) (c : ChainReq)
  | routeConvert (h : Hdr) (c : ChainReq) (v : ConvSet)
  | takeExecute (d : Fin 512) (t : Nat)
  | untimedChangeover (d : Fin 512) (t : Nat)
  | followLoopRetuneEnd (n : Fin 72) (t : Nat)
  | leapArm (d : Fin 512) (rfn : Nat) (t : Nat)
  | leapExecute (d : Fin 512) (rfn : Nat) (t : Nat)
  | leapNoTimingExecute (d : Fin 512) (rfn : Nat) (t : Nat)
  | pgCfgWrite (p : Fin 8) (v : Nat)
  | pgFrameBoundary (p : Fin 8) (t : Nat)
  | sourceFrameSigned (src : Fin 512) (f : SrcFrame) (t : Nat)
  | destFrameSent (d : Fin 512) (seen : Option Pic) (host : Option HostFmt) (t : Nat)
  | bufAlloc (h : Hdr) (depth fmt pix cdesc cw : Nat)
  | bufFree (h : Hdr) (ring : Nat)
  | bufWrite (h : Hdr) (b : BufReq) (data : Option (List Byte))
  | bufRead (h : Hdr) (b : BufReq) (newest info : Bool) (writeOk : Bool)
  | bufferRefRelease (hnd : Nat)
  | cwFrameStart (k : Fin 168) (coming : Pic) (t : Nat)
  | cwFrameComplete (k : Fin 168) (seen : Option Pic) (t : Nat)
  | cwResume (k : Fin 168) (coming : Pic) (t : Nat)
  | eccCorrected (g : Fin 16384) (t : Nat)
  | eccUncorrectable (g : Fin 16384) (off : Nat) (t : Nat)
  | patrolScrub (corrected : List Nat) (t : Nat)
  | granuleListSwitch (hnd : Nat)
  | ctxAdmit (h : Hdr) (ring engine offset : Nat) (v : ConvSet)
  | ctxParam (h : Hdr) (c mask offset : Nat) (v : ConvSet)
  | ctxRelease (h : Hdr) (unit : Bool) (n : Nat)
  | ctxParamApply (c : Fin 192) (t : Nat)
  | ctxRunStart (c : Fin 192) (t : Nat)
  | ctxParkStop (c : Fin 192) (t : Nat)
  | ctxReleaseStop (c : Fin 192) (t : Nat)
  | ctxMoveComplete (c : Fin 192) (t : Nat)
  | orphanReadmit (t : Nat)
  | sliceStart (e : Fin 12) (t : Nat)
  | sliceEnd (e : Fin 12) (t : Nat)
  | sliceDeadlineMiss (c : Fin 192) (t : Nat)
  | souCfg (h : Hdr) (r : SouReq)
  | souCommit (h : Hdr) (u : Nat)
  | ufmtModeWrite (m : Fin 16) (v : Nat)
  | commitLatch (u : Fin 160) (t : Nat)
  | commitExecute (u : Fin 160) (t : Nat)
  | newTimingStart (u : Fin 160) (t : Nat)
  | souFrameStart (u : Fin 160) (t : Nat)
  | lineUnderrun (u : Fin 160) (line samp : Nat)
  | fetchUrgencyChange (u : Fin 160) (fill1 fill2 fill3 : Nat)
  | souResume (u : Fin 160) (t : Nat)
  | audMap (h : Hdr) (a : AudMapReq)
  | audFade (h : Hdr) (a : AudFadeReq)
  | sapCfg (h : Hdr) (r : SapReq)
  | mapExecute (t : Nat)
  | matrixSample (n : Nat) (inputs : List (Nat × Int)) (idle : List Nat) (ns : Nat)
  | lipsyncMeasure (u : Fin 160) (t : Nat)
  | clockAcquire (p : AudPort) (off : Int)
  | clockSteered (p : AudPort) (off : Int) (fifo : Nat)
  | clockWide (p : AudPort) (off : Int)
  | clockWideReturn (p : AudPort) (off : Int)
  | clockLocked (p : AudPort) (off : Int) (fifo : Nat)
  | clockUnlock (p : AudPort) (fifo : Nat)
  | fifoSlip (p : AudPort) (full : Bool)
  | audioClockLost (p : AudPort)
  | sapMaskApply (n : Fin 16)
  | sapFrameErr (n : Fin 16)
  | aesCsBlock (n : Fin 16) (bytes : List Nat)
  | aesParityError (n : Fin 16) (subB : Bool) (k : Nat)
  | aesoEnWrite (n : Fin 16) (v : Nat)
  | refInEnWrite (i : Fin 8) (en : Bool) (t : Nat)
  | refInSrcWrite (i : Fin 8) (src dom : Nat) (term : Bool) (t : Nat)
  | refActivity (i : Fin 8) (fmt : Nat) (m : RefMeas) (t : Nat)
  | refQualified (i : Fin 8) (m : RefMeas) (sec : Option Nat) (t : Nat)
  | wtrExpired (i : Fin 8) (t : Nat)
  | refSuspect (i : Fin 8) (rate temp : Int) (t : Nat)
  | refSuspectClear (i : Fin 8) (t : Nat)
  | refDeclaredLost (i : Fin 8) (t : Nat)
  | refDisqualified (i : Fin 8) (m : RefMeas) (brk : RefBreak) (t : Nat)
  | refQualWrite (ppm time : Nat) (t : Nat)
  | refPrioWrite (i : Fin 8) (prio : Nat) (revert : Bool) (t : Nat)
  | refForceWrite (mode : Bool) (forceIn : Nat) (t : Nat)
  | refSwitchExecute (m : RefMeas) (t : Nat)
  | loopLock (t : Nat)
  | loopUnlock (cal : Int) (t : Nat)
  | trackBwApply (t : Nat)
  | holdoverUpdate (temp : Int) (t : Nat)
  | ageingDaily (rate temp cal : Int) (stored : Bool) (t : Nat)
  | todWrite (hi : Nat) (t : Nat)
  | todApply (t : Nat)
  | fpPulse (k : Fin 8) (t : Nat)
  | synCtlWrite (n : Fin 16) (v : Nat) (t : Nat)
  | synLock (n : Fin 16) (coarse fine : Nat) (clamp : Bool) (t : Nat)
  | synSearchTimeout (n : Fin 16) (t : Nat)
  | synLockLoss (n : Fin 16) (errs : List Int) (t : Nat)
  | synRelockStart (n : Fin 16) (t : Nat)
  | synRefLoss (n : Fin 16) (t : Nat)
  | synRefReturn (n : Fin 16) (t : Nat)
  | bandStore (n : Fin 16) (coarse fine : Nat)
  | synStepPass (n : Fin 16) (t : Nat)
  | absorbDone (n : Fin 16) (t : Nat)
  | rampGo (n : Fin 16) (last : Nat) (t : Nat)
  | rampAbort (n : Fin 16) (t : Nat)
  | rampSegmentEnd (n : Fin 16) (t : Nat)
  | hostLinkReset (e : LinkEvent)
  | perstAssert
  | ringEnable (n : Fin 64)
  | ringDisable (n : Fin 64)
  | ringAbandon (n : Fin 64)
  | ringDrained (n : Fin 64)
  | croak (n : Fin 64) (v : Nat)
  | cqHeadWrite (n : Fin 64) (v : Nat)
  | descriptorFetch (n : Fin 64) (r : FetchRes) (t : Nat)
  | completionPost (n : Fin 64) (ok : Bool) (t : Nat)
  | coalTimerExpiry (n : Fin 64) (t : Nat)
  | nop (h : Hdr)
  | queryStatus (h : Hdr) (q : QueryReq)
  | stats (h : Hdr) (q : QueryReq)
  | flowRxCfg (h : Hdr) (f : FlowReq)
  | flowTxCfg (h : Hdr) (f : FlowReq)
  | persistPut (h : Hdr) (first count host : Nat) (data : Option (List Byte))
  | persistGet (h : Hdr) (first count host : Nat) (writeOk : Bool)
  | persistStore (h : Hdr) (fail : List Nat)
  | attest (h : Hdr) (nonce : List Nat) (addr : Nat) (writeOk : Bool)
  | logCheckpoint (h : Hdr) (addr : Nat) (writeOk : Bool)
  | keyPin (h : Hdr) (slot addr : Nat) (key : Option (List Nat))
  | keyUnpin (h : Hdr) (slot : Nat)
  | signingEnter (h : Hdr)
  | signingLeave (h : Hdr)
  | domainKeyInstall (h : Hdr) (addr : Nat) (key : Option (List Nat))
  | domainKeyErase (h : Hdr)
  | domainMsg (h : Hdr) (target unit len addr : Nat) (readOk : Bool) (descs : List DomDesc)
  | matePair (h : Hdr) (p : Option Partner)
  | mateDetach (h : Hdr)
  | mateHandover (h : Hdr) (ready refBad : Bool)
  | mateResetPartner (h : Hdr) (taken : Bool)
  | lvSpiRead (addr : Nat)
  | irqStatRead
  | lvRegisterWrite (addr v : Nat)
  | lvTakeWrite (v : Nat) (t : Nat)
  | outSelWrite (o : Fin 32) (v : Nat) (t : Nat)
  | outCtlWrite (o : Fin 32) (v : Nat) (t : Nat)
  | lvFrameError (cycles : Nat)
  | lvTakeNEdge (lowNs : Nat) (t : Nat)
  | lvTakeArm (t : Nat)
  | lvOutputSwitch (o : Fin 32) (t : Nat)
  | lvMuteResume (o : Fin 32) (t : Nat)
  | lvStatusFollow
  | lvpWinWrite (v : Nat) (t : Nat)
  | slackMeasure (m : Slack) (t : Nat)
  | voltageLowerStep (m : Slack) (t : Nat)
  | voltageRaiseStep (m : Slack) (t : Nat)
  | admitRaiseStep (m : Slack) (t : Nat)
  | vctlWrite (v : Nat)
  | avsFault
  | avsRetry (ok : Bool)
  | handshakeTimeout (b : Fin 96) (w : LostWord) (t : Nat)
  | crossingRelease (d : Fin 250) (dropped : Nat)
  | matrixRequest (r : MtxReq)
  | matrixHang (m : Fin 16) (t : Nat)
  | hungMasterReset (m : Fin 16)
  | powerOn
  | brownOut
  | pinReset
  | resetNRelease
  | clockMonitorFail (c : ClkMon)
  | cclkRelockTimeout
  | watchdogExpiry
  | softwareResetRequest (v : Nat)
  | debugResetRequest
  | mcLockup
  | remoteResetReceive
  | optionLoad (r : Option OptSet)
  | recallRecords (bad : List (Nat × Bool))
  | bootImageVerify (a b : Img)
  | controlPlaneUp (t : Nat)
  | dataPlaneStart (m : Slack) (t : Nat)
  | warmReset
  | warmReady (t : Nat)
  | blockResetAssert (v : Nat)
  | blockResetRelease (v : Nat) (clk : Bool)
  | blockClockQualified (c i : Nat)
  | recordStore (k : Nat) (first second : Bool)
  | powerFailTrip (t : Nat)
  | autostoreEnd (fail : List Nat) (us : Nat)
  | vholdCollapse (k : Nat)
  | pfailClear
  | vholdOkSet
  | vholdOkClear
  | axlCtlWrite (v : Nat) (ok : Bool)
  | presetCapture (v : Nat) (ok : Bool)
  | marginRead (weak : List (Nat × Bool))
  | heartbeatSend
  | heartbeatReceive (link : Bool) (restarting : Bool) (missed : Nat)
  | pathLost (link : Bool) (t : Nat)
  | partnerRestartTimeout (t : Nat)
  | stateTransferDone (items : List (Hdr × FwdOp)) (t : Nat)
  | forwardReceive (num : Nat) (h : Hdr) (seq : Option (Nat × Nat)) (op : FwdOp)
  | forwardAck (id : Nat)
  | forwardAckTimeout (id : Nat)
  | timeExchange (skew : Int) (bothTrack : Bool)
  | mateLinkDown
  | mateLinkUp (p : PeerRole)
  | sidebandLost
  | handoverSwap (t : Nat)
  | pairingTimeout
  | domainPacketReceive (p : DomPkt) (t : Nat)
  | domainRetransmit (id : Nat)
  | domainAckReceive (tagOk : Bool) (id status epoch : Nat)
  | lcProvision (tok : Option Token)
  | lcField
  | lcRma (tok : Option Token) (cut : Bool)
  | lcEnd (tok : Option Token)
  | vendorDebugSession (tok : Option Token)
  | identityKeyGenerated
  | routeLogKeyGenerated
  | entropyFail
  | checkpointPeriod (t : Nat)
  | logTailWrite (v : Nat)
  | logSetupWrite (a v : Nat)
  | errorDetected (u src : Nat) (t : Nat)
  | selfTestStart (t : Nat)
  | selfTestEnd (r : TestRes) (t : Nat)
  | fltAckWrite (v : Nat)
  | fltUnfenceWrite (v : Nat) (t : Nat)
  | i2cRead (cmd : Nat)
  | i2cWrite (cmd v : Nat)
  | extTempRead (v : Option Int) (t : Nat)
  | boundaryScanInstruction (op : Jtag)
  | powerGoodReturn
  | perstNRelease
  | pairRequestReceive (p : Partner)
  | detachReceive
  | snapshotRead (a : Nat)
  | retentionVoltageLoss
  | entropyHealthPass
  | overTemperature (temp : Int)
deriving DecidableEq, Repr

end Sys2Proof
end

