-- ==== Sys2Proof/WellFormed.lean ====
section
/-! DEFINITION. Which commands can be given at all: every operand fits the field the manual gives it (Tables 9-4 to 9-9, 10-3 to 10-6 and the
 register tables). A measurement, a time or what a unit finds has no field, and any value will do. -/
namespace Sys2Proof

/-- `v` fits in `b` bits. -/
def fits (b v : Nat) : Bool := decide (v < 2 ^ b)

/-- A register offset: a word in the 64 MiB of BAR0, or in the 256 KiB of BAR2 behind it (R258; assumption 204). -/
def barOffset (a : Nat) : Bool := decide (a < 2 ^ 26 + 2 ^ 18) && a % 4 == 0

/-- A block read from host memory has `n` bytes. -/
def dataWf (n : Nat) (d : Option (List Byte)) : Bool := d.all fun l => l.length == n

/-- A signature blob has 24 bytes before its signature (Table 9-11). -/
def blobWf (b : Blob) : Bool := b.head.length == 24 && b.key.all (fits 8)

/-- A lifecycle token has 64 bytes before its signature (Table 17-2). -/
def tokenWf (k : Token) : Bool := k.head.length == 64 && k.consent.all blobWf

/-- A descriptor's header (Table 9-4). -/
def hdrWf (h : Hdr) : Bool := fits 16 h.tag && fits 32 h.epoch && fits 48 h.rfn && fits 64 h.blobAddr && h.blob.all blobWf

/-- FLOW_RX_CFG and FLOW_TX_CFG: the record has 128 bytes. -/
def flowReqWf (r : FlowReq) : Bool := fits 8 r.kind && fits 16 r.index && fits 64 r.addr && dataWf 128 r.data

/-- SOU_CFG: the record has 80 bytes. -/
def souReqWf (r : SouReq) : Bool := fits 8 r.unit && fits 8 r.quad && fits 64 r.addr && dataWf 80 r.data

/-- BUF_WRITE and BUF_READ. -/
def bufReqWf (b : BufReq) : Bool := fits 16 b.handle && fits 16 b.firstLine && fits 16 b.count && fits 32 b.pitch && fits 64 b.host

/-- AUD_MAP. -/
def audMapWf (a : AudMapReq) : Bool :=
  fits 20 a.dst && fits 8 a.count && fits 20 a.src && decide (-32768 ≤ a.gain ∧ a.gain < 32768) && fits 32 a.delay && fits 16 a.fade

/-- AUD_FADE. -/
def audFadeWf (a : AudFadeReq) : Bool :=
  fits 20 a.dst && fits 8 a.count && decide (-32768 ≤ a.target ∧ a.target < 32768) && fits 32 a.dur

/-- ROUTE_SYNC and ROUTE_CONVERT. -/
def chainReqWf (c : ChainReq) : Bool :=
  fits 16 c.src && fits 16 c.dst && fits 8 c.depth && fits 8 c.pix && fits 8 c.quad && fits 32 c.offset

/-- A conversion set. -/
def convWf (v : ConvSet) : Bool :=
  fits 8 v.outFmt && fits 8 v.outPix && fits 8 v.outDepth && fits 2 v.deint && fits 2 v.frc && fits 8 v.kernel && fits 8 v.preset && fits 8 v.bank
    && fits 64 v.block.addr

/-- QUERY_STATUS and STATS. -/
def queryWf (q : QueryReq) : Bool := fits 8 q.cls && fits 16 q.first && fits 16 q.count && fits 64 q.host

/-- SAP_CFG. -/
def sapWf (r : SapReq) : Bool :=
  fits 8 r.port && fits 2 r.mode && fits 8 r.slots && fits 8 r.slotBits && fits 8 r.dataBits && fits 2 r.fsWidth && fits 8 r.syn

/-- A salvo list (R277): the bytes read are the block and the word behind it, or the pages. -/
def salvoWf (chain : Bool) (l : SalvoList) : Bool :=
  fits 16 l.count && fits 64 l.pointer && dataWf (if chain then 4096 * ((l.count + 510) / 511) else 8 * l.count + 8) l.data

/-- A request at the matrix: a 40-bit address, a 4-bit ID, 1 to 16 beats that do not cross a 4 KiB boundary, data of its size (R339,
R343). -/
def mtxReqWf (r : MtxReq) : Bool :=
  fits 40 r.addr && fits 4 r.txid && decide (1 ≤ r.bytes ∧ r.bytes ≤ 256) && decide (r.addr % 4096 + r.bytes ≤ 4096)
    && fits (8 * r.bytes) r.data && r.found.tok.all tokenWf

/-- A picture has components of 10 bits and key codes of 2 (R110). -/
def picWf (p : Pic) : Bool := p.all fun l => l.all fun x => fits 10 x.c0 && fits 10 x.c1 && fits 10 x.c2 && fits 2 x.key

/-- An ancillary packet has 10-bit words (R35). -/
def ancWf (a : AncPkt) : Bool := fits 8 a.did && fits 8 a.sdid && a.words.all (fits 10)

/-- What a source shows over a frame. -/
def srcFrameWf (f : SrcFrame) : Bool := picWf f.pic && f.links.all picWf && fits 8 f.pidFmt && f.anc.all ancWf

/-- What a lane shows has a running frame (R32). -/
def laneMeasWf (m : LaneMeas) : Bool := fits 8 m.fmt && decide (0 < m.period) && decide (0 < m.lines)

/-- Every operand of a command fits its field. -/
def wellFormed : Instr → Bool
  | .registerWrite _ a v _ f => barOffset a && fits 32 v && f.tok.all tokenWf
  | .imaskWrite a v => barOffset a && fits 32 v
  | .sdiCarrierDetect _ => true
  | .cdrLock _ rate => fits 4 rate
  | .trsLock _ => true
  | .startBoundary _ m _ => laneMeasWf m
  | .rateForceWrite _ v _ => fits 32 v
  | .lineCrcError _ => true
  | .ancChecksumError _ did => fits 8 did
  | .multiWrite _ _ v => fits 32 v
  | .groupForm _ _ fmt _ => fits 8 fmt
  | .groupSkew _ _ _ => true
  | .sdiLoss _ _ => true
  | .acquisitionAbort _ => true
  | .txEnWrite _ _ _ _ => true
  | .txLeaveIdle _ _ => true
  | .followRangeIdle _ _ => true
  | .qeModeWrite _ _ => true
  | .qeRxFrame _ _ _ _ _ _ => true
  | .qeLinkUp _ _ => true
  | .qeLinkDown _ _ => true
  | .fecUncorrectable _ _ => true
  | .igmpQuery _ _ _ => true
  | .flowLoss _ _ _ => true
  | .legLost _ _ _ => true
  | .ptpTimestamp _ _ _ _ => true
  | .routeSet h dst src => hdrWf h && fits 16 dst && fits 16 src
  | .takeAt h dst src => hdrWf h && fits 16 dst && fits 16 src
  | .salvo h l => hdrWf h && salvoWf h.chain l
  | .salvoCancel h ring tag => hdrWf h && fits 8 ring && fits 16 tag
  | .routeSync h c => hdrWf h && chainReqWf c
  | .routeConvert h c v => hdrWf h && chainReqWf c && convWf v
  | .takeExecute _ _ => true
  | .untimedChangeover _ _ => true
  | .followLoopRetuneEnd _ _ => true
  | .leapArm _ rfn _ => fits 48 rfn
  | .leapExecute _ rfn _ => fits 48 rfn
  | .leapNoTimingExecute _ rfn _ => fits 48 rfn
  | .pgCfgWrite _ v => fits 32 v
  | .pgFrameBoundary _ _ => true
  | .sourceFrameSigned _ f _ => srcFrameWf f
  | .destFrameSent _ seen _ _ => seen.all picWf
  | .bufAlloc h depth fmt pix cdesc cw => hdrWf h && fits 8 depth && fits 8 fmt && fits 8 pix && fits 8 cdesc && fits 8 cw
  | .bufFree h ring => hdrWf h && fits 16 ring
  | .bufWrite h b _ => hdrWf h && bufReqWf b
  | .bufRead h b _ _ _ => hdrWf h && bufReqWf b
  | .bufferRefRelease hnd => fits 13 hnd
  | .cwFrameStart _ _ _ => true
  | .cwFrameComplete _ seen _ => seen.all picWf
  | .cwResume _ _ _ => true
  | .eccCorrected _ _ => true
  | .eccUncorrectable _ off _ => fits 21 off
  | .patrolScrub _ _ => true
  | .granuleListSwitch hnd => fits 13 hnd
  | .ctxAdmit h ring engine offset v => hdrWf h && fits 16 ring && fits 8 engine && fits 32 offset && convWf v
  | .ctxParam h c mask offset v => hdrWf h && fits 8 c && fits 7 mask && fits 32 offset && convWf v
  | .ctxRelease h _ n => hdrWf h && fits 16 n
  | .ctxParamApply _ _ => true
  | .ctxRunStart _ _ => true
  | .ctxParkStop _ _ => true
  | .ctxReleaseStop _ _ => true
  | .ctxMoveComplete _ _ => true
  | .orphanReadmit _ => true
  | .sliceStart _ _ => true
  | .sliceEnd _ _ => true
  | .sliceDeadlineMiss _ _ => true
  | .souCfg h r => hdrWf h && souReqWf r
  | .souCommit h u => hdrWf h && fits 8 u
  | .ufmtModeWrite _ v => fits 32 v
  | .commitLatch _ _ => true
  | .commitExecute _ _ => true
  | .newTimingStart _ _ => true
  | .souFrameStart _ _ => true
  | .lineUnderrun _ _ _ => true
  | .fetchUrgencyChange _ _ _ _ => true
  | .souResume _ _ => true
  | .audMap h a => hdrWf h && audMapWf a
  | .audFade h a => hdrWf h && audFadeWf a
  | .sapCfg h r => hdrWf h && sapWf r
  | .mapExecute _ => true
  | .matrixSample _ _ _ _ => true
  | .lipsyncMeasure _ _ => true
  | .clockAcquire _ _ => true
  | .clockSteered _ _ _ => true
  | .clockWide _ _ => true
  | .clockWideReturn _ _ => true
  | .clockLocked _ _ _ => true
  | .clockUnlock _ _ => true
  | .fifoSlip _ _ => true
  | .audioClockLost _ => true
  | .sapMaskApply _ => true
  | .sapFrameErr _ => true
  | .aesCsBlock _ _ => true
  | .aesParityError _ _ _ => true
  | .aesoEnWrite _ v => fits 32 v
  | .refInEnWrite _ _ _ => true
  | .refInSrcWrite _ src dom _ _ => fits 7 src && fits 7 dom
  | .refActivity _ fmt _ _ => fits 8 fmt
  | .refQualified _ _ _ _ => true
  | .wtrExpired _ _ => true
  | .refSuspect _ _ _ _ => true
  | .refSuspectClear _ _ => true
  | .refDeclaredLost _ _ => true
  | .refDisqualified _ _ _ _ => true
  | .refQualWrite ppm time _ => fits 8 ppm && fits 16 time
  | .refPrioWrite _ prio _ _ => fits 4 prio
  | .refForceWrite _ forceIn _ => fits 4 forceIn
  | .refSwitchExecute _ _ => true
  | .loopLock _ => true
  | .loopUnlock _ _ => true
  | .trackBwApply _ => true
  | .holdoverUpdate _ _ => true
  | .ageingDaily _ _ _ _ _ => true
  | .todWrite hi _ => fits 32 hi
  | .todApply _ => true
  | .fpPulse _ _ => true
  | .synCtlWrite _ v _ => fits 32 v
  | .synLock _ coarse fine _ _ => fits 6 coarse && fits 10 fine
  | .synSearchTimeout _ _ => true
  | .synLockLoss _ _ _ => true
  | .synRelockStart _ _ => true
  | .synRefLoss _ _ => true
  | .synRefReturn _ _ => true
  | .bandStore _ coarse fine => fits 6 coarse && fits 10 fine
  | .synStepPass _ _ => true
  | .absorbDone _ _ => true
  | .rampGo _ last _ => fits 3 last
  | .rampAbort _ _ => true
  | .rampSegmentEnd _ _ => true
  | .hostLinkReset _ => true
  | .perstAssert => true
  | .ringEnable _ => true
  | .ringDisable _ => true
  | .ringAbandon _ => true
  | .ringDrained _ => true
  | .croak _ v => fits 32 v
  | .cqHeadWrite _ v => fits 32 v
  | .descriptorFetch _ r _ => match r with
    | .slot raw => raw.length == 64
    | .err => true
  | .completionPost _ _ _ => true
  | .coalTimerExpiry _ _ => true
  | .nop h => hdrWf h
  | .queryStatus h q => hdrWf h && queryWf q
  | .stats h q => hdrWf h && queryWf q
  | .flowRxCfg h f => hdrWf h && flowReqWf f
  | .flowTxCfg h f => hdrWf h && flowReqWf f
  | .persistPut h first count host _ => hdrWf h && fits 16 first && fits 16 count && fits 64 host
  | .persistGet h first count host _ => hdrWf h && fits 16 first && fits 16 count && fits 64 host
  | .persistStore h _ => hdrWf h
  | .attest h nonce addr _ => hdrWf h && nonce.length == 32 && nonce.all (fits 8) && fits 64 addr
  | .logCheckpoint h addr _ => hdrWf h && fits 64 addr
  | .keyPin h slot addr key => hdrWf h && fits 8 slot && fits 64 addr && key.all (·.all (fits 8))
  | .keyUnpin h slot => hdrWf h && fits 8 slot
  | .signingEnter h => hdrWf h
  | .signingLeave h => hdrWf h
  | .domainKeyInstall h addr key => hdrWf h && fits 64 addr && key.all (·.all (fits 8))
  | .domainKeyErase h => hdrWf h
  | .domainMsg h target unit len addr _ descs => hdrWf h && fits 16 target && fits 16 unit && fits 16 len && fits 64 addr && descs.all (·.raw.length == 64)
  | .matePair h _ => hdrWf h
  | .mateDetach h => hdrWf h
  | .mateHandover h _ _ => hdrWf h
  | .mateResetPartner h _ => hdrWf h
  | .lvSpiRead addr => fits 7 addr
  | .irqStatRead => true
  | .lvRegisterWrite addr v => fits 7 addr && fits 16 v
  | .lvTakeWrite v _ => fits 16 v
  | .outSelWrite _ v _ => fits 16 v
  | .outCtlWrite _ v _ => fits 16 v
  | .lvFrameError _ => true
  | .lvTakeNEdge _ _ => true
  | .lvTakeArm _ => true
  | .lvOutputSwitch _ _ => true
  | .lvMuteResume _ _ => true
  | .lvStatusFollow => true
  | .lvpWinWrite v _ => fits 32 v
  | .slackMeasure _ _ => true
  | .voltageLowerStep _ _ => true
  | .voltageRaiseStep _ _ => true
  | .admitRaiseStep _ _ => true
  | .vctlWrite v => fits 32 v
  | .avsFault => true
  | .avsRetry _ => true
  | .handshakeTimeout _ _ _ => true
  | .crossingRelease _ _ => true
  | .matrixRequest r => mtxReqWf r
  | .matrixHang _ _ => true
  | .hungMasterReset _ => true
  | .powerOn => true
  | .brownOut => true
  | .pinReset => true
  | .resetNRelease => true
  | .clockMonitorFail _ => true
  | .cclkRelockTimeout => true
  | .watchdogExpiry => true
  | .softwareResetRequest v => fits 32 v
  | .debugResetRequest => true
  | .mcLockup => true
  | .remoteResetReceive => true
  | .optionLoad _ => true
  | .recallRecords _ => true
  | .bootImageVerify _ _ => true
  | .controlPlaneUp _ => true
  | .dataPlaneStart _ _ => true
  | .warmReset => true
  | .warmReady _ => true
  | .blockResetAssert v => fits 32 v
  | .blockResetRelease v _ => fits 32 v
  | .blockClockQualified c i => fits 4 c && fits 8 i
  | .recordStore k _ _ => fits 7 k
  | .powerFailTrip _ => true
  | .autostoreEnd _ _ => true
  | .vholdCollapse k => fits 7 k
  | .pfailClear => true
  | .vholdOkSet => true
  | .vholdOkClear => true
  | .axlCtlWrite v _ => fits 32 v
  | .presetCapture v _ => fits 32 v
  | .marginRead _ => true
  | .heartbeatSend => true
  | .heartbeatReceive _ _ _ => true
  | .pathLost _ _ => true
  | .partnerRestartTimeout _ => true
  | .stateTransferDone _ _ => true
  | .forwardReceive num h _ _ => fits 64 num && hdrWf h
  | .forwardAck id => fits 64 id
  | .forwardAckTimeout id => fits 64 id
  | .timeExchange _ _ => true
  | .mateLinkDown => true
  | .mateLinkUp _ => true
  | .sidebandLost => true
  | .handoverSwap _ => true
  | .pairingTimeout => true
  | .domainPacketReceive p _ => p.descs.all (·.raw.length == 64)
  | .domainRetransmit id => fits 64 id
  | .domainAckReceive _ id _ epoch => fits 64 id && fits 32 epoch
  | .lcProvision tok => tok.all tokenWf
  | .lcField => true
  | .lcRma tok _ => tok.all tokenWf
  | .lcEnd tok => tok.all tokenWf
  | .vendorDebugSession tok => tok.all tokenWf
  | .identityKeyGenerated => true
  | .routeLogKeyGenerated => true
  | .entropyFail => true
  | .checkpointPeriod _ => true
  | .logTailWrite v => fits 32 v
  | .logSetupWrite a v => barOffset a && fits 32 v
  | .errorDetected u src _ => fits 20 u && fits 8 src
  | .selfTestStart _ => true
  | .selfTestEnd _ _ => true
  | .fltAckWrite v => fits 32 v
  | .fltUnfenceWrite v _ => fits 32 v
  | .i2cRead cmd => fits 8 cmd
  | .i2cWrite cmd v => fits 8 cmd && fits 16 v
  | .extTempRead _ _ => true
  | .boundaryScanInstruction _ => true
  | .powerGoodReturn => true
  | .perstNRelease => true
  | .pairRequestReceive _ => true
  | .detachReceive => true
  | .snapshotRead a => barOffset a
  | .retentionVoltageLoss => true
  | .entropyHealthPass => true
  | .overTemperature _ => true

end Sys2Proof
end

