-- ==== Sys2Proof/Decode.lean ====
section
/-! DEFINITION. Words and commands: the table of operations and events gives no row any bits, so that no word spells a command. -/
namespace Sys2Proof

/-- The command that a word spells by the bits of the table: every row's list of fields is empty, so none. -/
def decodeTableWord (nbits w : Nat) : Option Instr :=
  match nbits, w with
  | _, _ => none

end Sys2Proof
end

