-- ==== Sys2Proof/Config.lean ====
section
/-! DEFINITION. The free values: what the manual leaves open and the machine goes on with. Each is an opaque constant, so no
proof can see its value. -/
namespace Sys2Proof.Config

/-- The `n`-th fresh value the manual does not state, as bits of width `w` (assumption 2). -/
opaque fresh (w n : Nat) : BitVec w

/-- Tap `tap` of phase `phase` of Gecko's 32-tap, 1,024-phase filter (R192) in units of 2^−24, which the manual does not tabulate
(assumption 39). -/
opaque gridTap (phase tap : Nat) : Int

/-- The SHAKE256 digest of a message, as bits of width `w`, whose algorithm the manual takes from FIPS 202 (assumption 4). -/
opaque shake (w : Nat) (msg : List Nat) : BitVec w

/-- The shortfall code of a flow that the wire rate of its port does not take, to which R51 gives none (assumption 21). -/
opaque flowCode : BitVec 8

/-- The security code in byte 3 of a route-log entry for each kind of change, and the bit that LOG_GAP takes there: Table 17-6 gives no
numbers (assumption 23). -/
opaque secCode (change : Nat) : BitVec 8

/-- A measurement of kind `k` over what it covers, whose byte layout the manual does not give (R422; assumption 23). -/
opaque measure (k : Nat) (covered : List Nat) : BitVec 256

/-- Byte `i` of the signature that leaf `leaf` of signing key `key` makes over a digest (R418; assumption 23). -/
opaque sigByte (key leaf i : Nat) (digest : BitVec 256) : BitVec 8

/-- The KMAC256 tag of NIST SP 800-185 over a domain packet under a key, with the customisation string of R409 (assumption 4). -/
opaque kmac (key msg : List Nat) : BitVec 256

/-- Byte `i` of the certification request that provisioning shows, whose contents the manual does not lay out (assumption 23). -/
opaque csrByte (draw i : Nat) : BitVec 8

/-- Whether a register that shows the ratio `num / den` in whole units counts the part of a unit (assumption 24). -/
opaque roundUp (num den : Nat) : Bool

/-- Whether a coefficient whose exact value lies between two units of 2^−24 takes the upper one (R100, R192; assumption 3). -/
opaque coefUp (key : List Nat) : Bool

/-- Tap `i` of the 8-tap half-band filter (Table 4-8, R160) in units of 2^−14, which the manual names and does not tabulate (assumption
147). -/
opaque halfBandTap (i : Nat) : Int

/-- Tap `tap` of phase `phase` of a built-in windowed-sinc kernel (R142) in units of 2^−14 (assumption 147). -/
opaque kernelTap (kernel phase tap : Nat) : Int

/-- Entry `i` of component `c` of the pre-LUT (post-LUT) that a colour preset loads (R143; assumption 147). -/
opaque presetLut (preset : Nat) (post : Bool) (c i : Nat) : Nat

/-- Number `i` of the matrix item that a colour preset loads, in the order of Table 4-12 (assumption 147). -/
opaque presetMatrix (preset i : Nat) : Int

/-- The least delay code (coarse × 1024 + fine) that the frequency clamp lets through at ceiling `fmax`, from the codes at a lock: R253 names
neither the codes' scale nor the margin (assumption 191). -/
opaque clampCode (fmax coarse fine : Nat) : Nat

/-- Which of several equally good vectors the estimator takes at a level for block (`bx`, `by_`) from luma picture `a` to `b` (R140;
assumption 148). -/
opaque vecPick (a b : List (List Nat)) (level bx by_ : Nat) : Nat

/-- Two samples of same-parity fields agree (R141 gives no tolerance; assumption 148). -/
opaque fieldsAgree (a b : Nat) : Bool

/-- The direction of the edge through pixel `x` between two lines of a field, as a shift in pixels (R141; assumption 148). -/
opaque edgeDir (above below : List Nat) (x : Nat) : Int

/-- Luma fields, newest first, continue a 3:2 (`k` = 0) or 2:2 (`k` = 1) sequence (R141 gives no tolerance; assumption 148). -/
opaque cadenceMatch (k : Nat) (fields : List (List (List Nat))) : Bool

/-- Under a locked cadence the newest of these luma fields is the second field of its original pair (assumption 148). -/
opaque cadenceSecond (k : Nat) (fields : List (List (List Nat))) : Bool

/-- Component `c` of pixel (`x`, `y`) of the zone plate of size `w` × `l` after `step` steps (R105 gives no formula; assumption 147). -/
opaque zonePlate (w l x y step c : Nat) : Nat

/-- The ST 352 payload that names a format, sampling and link count, whose bytes ST 352 lays down (assumption 149). -/
opaque pidWord (fmt links : Nat) (s444 : Bool) : BitVec 32

/-- The time base's rate relative to the XO, in 0.001 ppb, when it reads `now`, while the loop follows an input (R232): the manual does not say how the
loop comes to its input (assumption 196). -/
opaque loopRate (n now : Nat) : Int

end Sys2Proof.Config
end

