-- ==== Sys2Proof/Machine/Tab.lean ====
section
/-! DEFINITION. Sparse tables: what the block holds by number (registers by offset, rings, contexts, flows …) as a list
of (key, value) pairs with strictly rising keys. A table with a default value lists no entry equal to its default, so
equal contents are equal data. -/
namespace Sys2Proof.Machine

/-- A sparse table from numbers to `α`. -/
abbrev Tab (α : Type) := List (Nat × α)

/-- The entry of `t` at `k`, when there is one. -/
def tabFind {α : Type} : Tab α → Nat → Option α
  | [], _ => none
  | (k', v) :: t, k => if k' = k then some v else tabFind t k

/-- The value of `t` at `k`, with `d` where no entry is listed. -/
def tabGet {α : Type} (d : α) (t : Tab α) (k : Nat) : α := (tabFind t k).getD d

/-- `t` without its entry at `k`. -/
def tabDel {α : Type} (t : Tab α) (k : Nat) : Tab α := t.filter fun p => p.1 != k

/-- Insert at the sorted place; the key is not listed yet. -/
def tabIns {α : Type} : Tab α → Nat → α → Tab α
  | [], k, v => [(k, v)]
  | (k', v') :: t, k, v => if k < k' then (k, v) :: (k', v') :: t else (k', v') :: tabIns t k v

/-- `t` with the entry `v` at `k`. -/
def tabPut {α : Type} (t : Tab α) (k : Nat) (v : α) : Tab α := tabIns (tabDel t k) k v

/-- `t` holding `v` at `k`, where an unlisted entry reads as `d`. -/
def tabSet {α : Type} [DecidableEq α] (d : α) (t : Tab α) (k : Nat) (v : α) : Tab α :=
  if v = d then tabDel t k else tabPut t k v

/-- The keys listed. -/
def tabKeys {α : Type} (t : Tab α) : List Nat := t.map (·.1)

/-- The keys rise strictly. -/
def tabSorted {α : Type} : Tab α → Bool
  | [] => true
  | [_] => true
  | (k, _) :: (k', v') :: t => decide (k < k') && tabSorted ((k', v') :: t)

/-- Canonical form of a table whose unlisted entries read as `d k`. -/
def tabWf {α : Type} [DecidableEq α] (d : Nat → α) (t : Tab α) : Bool :=
  tabSorted t && t.all fun p => decide (p.2 ≠ d p.1)

/-- The lowest number below `n`, from `k` on, that satisfies `p`. -/
def firstFrom (p : Nat → Bool) : Nat → Nat → Option Nat
  | _, 0 => none
  | k, n + 1 => if p k then some k else firstFrom p (k + 1) n

/-- The lowest number below `n` that satisfies `p`. -/
def lowest (n : Nat) (p : Nat → Bool) : Option Nat := firstFrom p 0 n

end Sys2Proof.Machine
end

