-- ==== Sys2Proof/Machine/Regs.lean ====
section
/-! DEFINITION. The register map: the BAR0 byte offset of every register of the manual's register tables
(`R.<REGISTER> …`), the bit position and width of every field (`F.<REGISTER>_<FIELD>`), and, per block, one row per
register with its access masks (R5, Table 0-3) and its reset value. The names are the manual's. -/
namespace Sys2Proof.Machine

/-- Start of quadrant window `q` in BAR0 (R30). -/
def quadWin (q : Nat) : Nat := 0x1000000 + q * 0x400000

/-- A bit field of a register: lowest bit and width. -/
structure Bits where
  lo    : Nat
  width : Nat
deriving DecidableEq, Repr

/-- The value of field `b` in register value `w`. -/
def getF (b : Bits) (w : Word) : Nat := w.toNat / 2 ^ b.lo % 2 ^ b.width

/-- Register value `w` with field `b` holding `v` (cut to the field's width). -/
def setF (b : Bits) (v : Nat) (w : Word) : Word :=
  BitVec.ofNat 32 (w.toNat % 2 ^ b.lo + v % 2 ^ b.width * 2 ^ b.lo
    + w.toNat / 2 ^ (b.lo + b.width) * 2 ^ (b.lo + b.width))

/-- A one-bit field at bit `i`. -/
def bit (i : Nat) : Bits := ⟨i, 1⟩

namespace R
def GLB_ID : Nat := 0x0
def GLB_STEPPING : Nat := 0x4
def GLB_GRADE : Nat := 0x8
def SDI_RX_CTL (n : Nat) : Nat := quadWin (n / 18) + n % 18 * 0x40 + 0x0
def SDI_RX_STAT (n : Nat) : Nat := quadWin (n / 18) + n % 18 * 0x40 + 0x4
def SDI_RX_PID (n : Nat) : Nat := quadWin (n / 18) + n % 18 * 0x40 + 0x8
def SDI_RX_HIST (n : Nat) : Nat := quadWin (n / 18) + n % 18 * 0x40 + 0xC
def SDI_RX_IMASK (n : Nat) : Nat := quadWin (n / 18) + n % 18 * 0x40 + 0x10
def SDI_RX_ATC (n : Nat) : Nat := quadWin (n / 18) + n % 18 * 0x40 + 0x14
def SDI_RX_CRC_CNT (n : Nat) : Nat := quadWin (n / 18) + n % 18 * 0x40 + 0x20
def SDI_RX_LOS_CNT (n : Nat) : Nat := quadWin (n / 18) + n % 18 * 0x40 + 0x24
def SDI_RX_ANC_DROP (n : Nat) : Nat := quadWin (n / 18) + n % 18 * 0x40 + 0x28
def SDI_TX_CTL (n : Nat) : Nat := quadWin (n / 18) + 0x1000 + n % 18 * 0x40 + 0x0
def SDI_TX_STAT (n : Nat) : Nat := quadWin (n / 18) + 0x1000 + n % 18 * 0x40 + 0x4
def SDI_TX_PID (n : Nat) : Nat := quadWin (n / 18) + 0x1000 + n % 18 * 0x40 + 0x8
def QE_CTL (n : Nat) : Nat := quadWin n + 0x100000 + 0x0
def QE_STAT (n : Nat) : Nat := quadWin n + 0x100000 + 0x4
def QE_HIST (n : Nat) : Nat := quadWin n + 0x100000 + 0x8
def QE_IMASK (n : Nat) : Nat := quadWin n + 0x100000 + 0xC
def QE_FEC_CORR (n : Nat) (s : Nat) : Nat := quadWin n + 0x100000 + 0x100 + s * 0x20
def QE_FEC_UNCORR (n : Nat) (s : Nat) : Nat := quadWin n + 0x100000 + 0x104 + s * 0x20
def QE_RX_NOMATCH (n : Nat) (s : Nat) : Nat := quadWin n + 0x100000 + 0x108 + s * 0x20
def QE_RX_BADFCS (n : Nat) (s : Nat) : Nat := quadWin n + 0x100000 + 0x10C + s * 0x20
def QE_MAC_LO (n : Nat) (s : Nat) : Nat := quadWin n + 0x100000 + 0x200 + s * 0x40
def QE_MAC_HI (n : Nat) (s : Nat) : Nat := quadWin n + 0x100000 + 0x204 + s * 0x40
def QE_IP4 (n : Nat) (s : Nat) : Nat := quadWin n + 0x100000 + 0x208 + s * 0x40
def QE_IP6 (n : Nat) (s : Nat) (w : Nat) : Nat := quadWin n + 0x100000 + 0x210 + s * 0x40 + w * 0x4
def QE_PTP_ASYM (n : Nat) (s : Nat) : Nat := quadWin n + 0x100000 + 0x220 + s * 0x40
def XPT_CTL : Nat := 0x2000000
def XPT_STAT : Nat := 0x2000004
def XPT_RFN_LO : Nat := 0x2000008
def XPT_RFN_HI : Nat := 0x200000C
def XPT_IMASK : Nat := 0x2000010
def XPT_HIST_SUM (w : Nat) : Nat := 0x2000100 + w * 0x4
def XPT_PG_CFG (p : Nat) : Nat := 0x2000200 + p * 0x8
def XPT_PG_COLOUR (p : Nat) : Nat := 0x2000204 + p * 0x8
def XPT_SRC_CFG (s : Nat) : Nat := 0x2001000 + s * 0x4
def XPT_DST_ROUTE (d : Nat) : Nat := 0x2002000 + d * 0x10
def XPT_DST_CFG (d : Nat) : Nat := 0x2002004 + d * 0x10
def XPT_DST_STAT (d : Nat) : Nat := 0x2002008 + d * 0x10
def XPT_DST_HIST (d : Nat) : Nat := 0x200200C + d * 0x10
def XPT_SRC_SIG_LO (s : Nat) : Nat := 0x2006000 + s * 0x8
def XPT_SRC_SIG_HI (s : Nat) : Nat := 0x2006004 + s * 0x8
def XPT_DST_SIG_LO (d : Nat) : Nat := 0x2007000 + d * 0x8
def XPT_DST_SIG_HI (d : Nat) : Nat := 0x2007004 + d * 0x8
def XPT_DST_MISMATCH (d : Nat) : Nat := 0x2008000 + d * 0x4
def FST_CTL : Nat := 0x2200000
def FST_GRAN : Nat := 0x2200004
def FST_HANDLES : Nat := 0x2200008
def FST_RINGS : Nat := 0x220000C
def FST_PENDFREE : Nat := 0x2200010
def FST_BW : Nat := 0x2200014
def FST_HIST : Nat := 0x2200018
def FST_IMASK : Nat := 0x220001C
def FST_ECC_CORR : Nat := 0x2200020
def FST_ECC_UNCORR : Nat := 0x2200024
def FST_SPARES : Nat := 0x2200028
def FST_PC_STAT (p : Nat) : Nat := 0x2200100 + p * 0x4
def FST_CW_STAT (k : Nat) : Nat := 0x2201000 + k * 0x10
def FST_CW_FRAMES (k : Nat) : Nat := 0x2201004 + k * 0x10
def FST_CW_SKIP (k : Nat) : Nat := 0x2201008 + k * 0x10
def FST_CW_OVERWRITE (k : Nat) : Nat := 0x220100C + k * 0x10
def FST_RING_LO (r : Nat) : Nat := 0x2204000 + r * 0x8
def FST_RING_HI (r : Nat) : Nat := 0x2204004 + r * 0x8
def FST_BUF_REF (h : Nat) : Nat := 0x2208000 + h * 0x4
def CHE_CTL (e : Nat) : Nat := quadWin (e / 3) + 0x200000 + e % 3 * 0x1000 + 0x0
def CHE_STAT (e : Nat) : Nat := quadWin (e / 3) + 0x200000 + e % 3 * 0x1000 + 0x4
def CHE_LOAD (e : Nat) : Nat := quadWin (e / 3) + 0x200000 + e % 3 * 0x1000 + 0x8
def CHE_RATE (e : Nat) : Nat := quadWin (e / 3) + 0x200000 + e % 3 * 0x1000 + 0xC
def CHE_HIST (e : Nat) : Nat := quadWin (e / 3) + 0x200000 + e % 3 * 0x1000 + 0x10
def CHE_IMASK (e : Nat) : Nat := quadWin (e / 3) + 0x200000 + e % 3 * 0x1000 + 0x14
def CHE_MISS_CNT (e : Nat) : Nat := quadWin (e / 3) + 0x200000 + e % 3 * 0x1000 + 0x18
def CHE_LUT (e : Nat) : Nat := quadWin (e / 3) + 0x200000 + e % 3 * 0x1000 + 0x1C
def CHE_CTX_STAT (e : Nat) (s : Nat) : Nat := quadWin (e / 3) + 0x200000 + e % 3 * 0x1000 + 0x100 + s * 0x10
def CHE_CTX_LOAD (e : Nat) (s : Nat) : Nat := quadWin (e / 3) + 0x200000 + e % 3 * 0x1000 + 0x104 + s * 0x10
def CHE_CTX_MISS (e : Nat) (s : Nat) : Nat := quadWin (e / 3) + 0x200000 + e % 3 * 0x1000 + 0x108 + s * 0x10
def CHE_CTX_LAT (e : Nat) (s : Nat) : Nat := quadWin (e / 3) + 0x200000 + e % 3 * 0x1000 + 0x10C + s * 0x10
def XPT_UFMT_SIZE (m : Nat) : Nat := 0x200A000 + m * 0x20
def XPT_UFMT_LINES (m : Nat) : Nat := 0x200A004 + m * 0x20
def XPT_UFMT_FIRST (m : Nat) : Nat := 0x200A008 + m * 0x20
def XPT_UFMT_MODE (m : Nat) : Nat := 0x200A00C + m * 0x20
def XPT_UFMT_STAT (m : Nat) : Nat := 0x200A010 + m * 0x20
def XPT_FRZ_CFG (d : Nat) : Nat := 0x200B000 + d * 0x4
def XPT_FRZ_SUM (w : Nat) : Nat := 0x200B800 + w * 0x4
def XPT_FRZ_IMASK : Nat := 0x200B840
def XPT_FRZ_STAT (d : Nat) : Nat := 0x200C000 + d * 0x4
def SOU_CTL (u : Nat) : Nat := quadWin (u / 40) + 0x300000 + u % 40 * 0x200 + 0x0
def SOU_STAT (u : Nat) : Nat := quadWin (u / 40) + 0x300000 + u % 40 * 0x200 + 0x4
def SOU_POS (u : Nat) : Nat := quadWin (u / 40) + 0x300000 + u % 40 * 0x200 + 0x8
def SOU_HIST (u : Nat) : Nat := quadWin (u / 40) + 0x300000 + u % 40 * 0x200 + 0xC
def SOU_IMASK (u : Nat) : Nat := quadWin (u / 40) + 0x300000 + u % 40 * 0x200 + 0x10
def SOU_UNDERRUN_LINES (u : Nat) : Nat := quadWin (u / 40) + 0x300000 + u % 40 * 0x200 + 0x14
def SOU_REPEAT_CNT (u : Nat) : Nat := quadWin (u / 40) + 0x300000 + u % 40 * 0x200 + 0x18
def SOU_DROP_CNT (u : Nat) : Nat := quadWin (u / 40) + 0x300000 + u % 40 * 0x200 + 0x1C
def SOU_COMMIT_CNT (u : Nat) : Nat := quadWin (u / 40) + 0x300000 + u % 40 * 0x200 + 0x20
def SOU_LATE_COMMIT_CNT (u : Nat) : Nat := quadWin (u / 40) + 0x300000 + u % 40 * 0x200 + 0x24
def SOU_FMT (u : Nat) : Nat := quadWin (u / 40) + 0x300000 + u % 40 * 0x200 + 0x40
def SOU_OFFSET (u : Nat) : Nat := quadWin (u / 40) + 0x300000 + u % 40 * 0x200 + 0x44
def SOU_CMT (u : Nat) : Nat := quadWin (u / 40) + 0x300000 + u % 40 * 0x200 + 0x48
def SOU_BG (u : Nat) : Nat := quadWin (u / 40) + 0x300000 + u % 40 * 0x200 + 0x4C
def SOU_CDESC (u : Nat) : Nat := quadWin (u / 40) + 0x300000 + u % 40 * 0x200 + 0x50
def SOU_L_CTL (u : Nat) (l : Nat) : Nat := quadWin (u / 40) + 0x300000 + u % 40 * 0x200 + 0x60 + l * 0x10
def SOU_L_POS (u : Nat) (l : Nat) : Nat := quadWin (u / 40) + 0x300000 + u % 40 * 0x200 + 0x64 + l * 0x10
def SOU_L_KEY (u : Nat) (l : Nat) : Nat := quadWin (u / 40) + 0x300000 + u % 40 * 0x200 + 0x68 + l * 0x10
def SOU_L_SEL (u : Nat) (l : Nat) : Nat := quadWin (u / 40) + 0x300000 + u % 40 * 0x200 + 0x6C + l * 0x10
def AUD_CTL : Nat := 0x2100000
def AUD_STAT : Nat := 0x2100004
def AUD_DELAY : Nat := 0x2100008
def AUD_HIST : Nat := 0x210000C
def AUD_IMASK : Nat := 0x2100010
def AUD_GECKO : Nat := 0x2100014
def AUD_CLIP_CNT : Nat := 0x2100020
def AUD_LS_JUMP_CNT : Nat := 0x2100024
def AUD_FADE_CUT_CNT : Nat := 0x2100028
def AUD_AFV_SHORT_CNT : Nat := 0x210002C
def AUD_ASSOC (s : Nat) (e : Nat) : Nat := 0x2101000 + s * 0x10 + e * 0x4
def AUD_PATH (u : Nat) : Nat := 0x2103000 + u * 0x4
def AUD_SLOT_DST (o : Nat) : Nat := 0x2110000 + o * 0x10
def AUD_SLOT_SRC (o : Nat) : Nat := 0x2110004 + o * 0x10
def AUD_SLOT_DLY (o : Nat) : Nat := 0x2110008 + o * 0x10
def AUD_SLOT_GAIN (o : Nat) : Nat := 0x211000C + o * 0x10
def SAP_CTL (n : Nat) : Nat := quadWin (n / 4) + 0x340000 + n % 4 * 0x100 + 0x0
def SAP_DIV_INT (n : Nat) : Nat := quadWin (n / 4) + 0x340000 + n % 4 * 0x100 + 0x8
def SAP_DIV_FRAC (n : Nat) : Nat := quadWin (n / 4) + 0x340000 + n % 4 * 0x100 + 0xC
def SAP_RX_MASK (n : Nat) : Nat := quadWin (n / 4) + 0x340000 + n % 4 * 0x100 + 0x10
def SAP_TX_MASK (n : Nat) : Nat := quadWin (n / 4) + 0x340000 + n % 4 * 0x100 + 0x14
def SAP_STAT (n : Nat) : Nat := quadWin (n / 4) + 0x340000 + n % 4 * 0x100 + 0x18
def SAP_OFFSET (n : Nat) : Nat := quadWin (n / 4) + 0x340000 + n % 4 * 0x100 + 0x1C
def SAP_HIST (n : Nat) : Nat := quadWin (n / 4) + 0x340000 + n % 4 * 0x100 + 0x20
def SAP_IMASK (n : Nat) : Nat := quadWin (n / 4) + 0x340000 + n % 4 * 0x100 + 0x24
def SAP_SLIP_CNT (n : Nat) : Nat := quadWin (n / 4) + 0x340000 + n % 4 * 0x100 + 0x28
def AESI_CTL (n : Nat) : Nat := quadWin (n / 4) + 0x350000 + n % 4 * 0x100 + 0x0
def AESI_STAT (n : Nat) : Nat := quadWin (n / 4) + 0x350000 + n % 4 * 0x100 + 0x4
def AESI_CS (n : Nat) (w : Nat) : Nat := quadWin (n / 4) + 0x350000 + n % 4 * 0x100 + 0x8 + w * 0x4
def AESI_OFFSET (n : Nat) : Nat := quadWin (n / 4) + 0x350000 + n % 4 * 0x100 + 0x20
def AESI_HIST (n : Nat) : Nat := quadWin (n / 4) + 0x350000 + n % 4 * 0x100 + 0x24
def AESI_IMASK (n : Nat) : Nat := quadWin (n / 4) + 0x350000 + n % 4 * 0x100 + 0x28
def AESI_PARITY_CNT (n : Nat) : Nat := quadWin (n / 4) + 0x350000 + n % 4 * 0x100 + 0x2C
def AESO_CTL (n : Nat) : Nat := quadWin (n / 4) + 0x350000 + n % 4 * 0x100 + 0x80
def AESO_STAT (n : Nat) : Nat := quadWin (n / 4) + 0x350000 + n % 4 * 0x100 + 0x84
def AESO_DIV_INT (n : Nat) : Nat := quadWin (n / 4) + 0x350000 + n % 4 * 0x100 + 0x88
def AESO_DIV_FRAC (n : Nat) : Nat := quadWin (n / 4) + 0x350000 + n % 4 * 0x100 + 0x8C
def REF_CTL : Nat := 0x40000
def REF_STAT : Nat := 0x40004
def REF_HIST : Nat := 0x40008
def REF_IMASK : Nat := 0x4000C
def REF_LOOP : Nat := 0x40010
def REF_QUAL : Nat := 0x40014
def REF_WTR : Nat := 0x40018
def REF_HOLD_AVG : Nat := 0x4001C
def REF_HOLD_C1 : Nat := 0x40020
def REF_HOLD_C2 : Nat := 0x40024
def REF_AGE_PROG : Nat := 0x40028
def REF_AGE_LEARNED : Nat := 0x4002C
def REF_AGE_DAYS : Nat := 0x40030
def REF_HOLD_UNC : Nat := 0x40034
def REF_HOLD_LIMIT : Nat := 0x40038
def REF_HOLD_EST : Nat := 0x4003C
def REF_XO_CAL : Nat := 0x40040
def REF_RATE : Nat := 0x40044
def REF_TEMP : Nat := 0x40048
def REF_STEP : Nat := 0x4004C
def REF_TIME_NS : Nat := 0x40050
def REF_TIME_SEC_LO : Nat := 0x40054
def REF_TIME_SEC_HI : Nat := 0x40058
def REF_TOD_SEC_LO : Nat := 0x40060
def REF_TOD_SEC_HI : Nat := 0x40064
def REF_IN_CFG (i : Nat) : Nat := 0x40100 + i * 0x20
def REF_IN_OFS (i : Nat) : Nat := 0x40104 + i * 0x20
def REF_IN_STAT (i : Nat) : Nat := 0x40108 + i * 0x20
def REF_IN_FREQ (i : Nat) : Nat := 0x4010C + i * 0x20
def REF_IN_PHASE (i : Nat) : Nat := 0x40110 + i * 0x20
def REF_IN_HIST (i : Nat) : Nat := 0x40114 + i * 0x20
def REF_IN_IMASK (i : Nat) : Nat := 0x40118 + i * 0x20
def REF_FP_CFG (k : Nat) : Nat := 0x40400 + k * 0x8
def REF_FP_OFS (k : Nat) : Nat := 0x40404 + k * 0x8
def SYN_SUM : Nat := 0x50000
def SYN_TS_CTL (t : Nat) : Nat := 0x50100 + t * 0x100
def SYN_TS_STAT (t : Nat) : Nat := 0x50104 + t * 0x100
def SYN_TS_HIST (t : Nat) : Nat := 0x50108 + t * 0x100
def SYN_TS_IMASK (t : Nat) : Nat := 0x5010C + t * 0x100
def SYN_TS_OFFSET (t : Nat) : Nat := 0x50110 + t * 0x100
def SYN_TS_RESIDUAL (t : Nat) : Nat := 0x50114 + t * 0x100
def SYN_TS_FMAX (t : Nat) : Nat := 0x50118 + t * 0x100
def SYN_TS_RELOCK_CNT (t : Nat) : Nat := 0x5011C + t * 0x100
def SYN_TS_ABS (t : Nat) : Nat := 0x50120 + t * 0x100
def SYN_TS_RAMP (t : Nat) : Nat := 0x50124 + t * 0x100
def SYN_TS_SEG_TGT (t : Nat) (k : Nat) : Nat := 0x50140 + t * 0x100 + k * 0x8
def SYN_TS_SEG_SLOPE (t : Nat) (k : Nat) : Nat := 0x50144 + t * 0x100 + k * 0x8
def SYN_TS_BAND (t : Nat) (e : Nat) : Nat := 0x50180 + t * 0x100 + e * 0x4
def RNG_GLB_STAT : Nat := 0x3000000
def RNG_GLB_WARM : Nat := 0x3000004
def RNG_GLB_HIST : Nat := 0x3000008
def RNG_GLB_IMASK : Nat := 0x300000C
def RNG_GLB_DISCARD_CNT : Nat := 0x3000010
def RNG_SQ_BASE_LO (n : Nat) : Nat := 0x3001000 + n * 0x40
def RNG_SQ_BASE_HI (n : Nat) : Nat := 0x3001004 + n * 0x40
def RNG_CQ_BASE_LO (n : Nat) : Nat := 0x3001008 + n * 0x40
def RNG_CQ_BASE_HI (n : Nat) : Nat := 0x300100C + n * 0x40
def RNG_SIZE (n : Nat) : Nat := 0x3001010 + n * 0x40
def RNG_CTL (n : Nat) : Nat := 0x3001014 + n * 0x40
def RNG_CQ_VEC (n : Nat) : Nat := 0x3001018 + n * 0x40
def RNG_STAT (n : Nat) : Nat := 0x300101C + n * 0x40
def RNG_CQ_POS (n : Nat) : Nat := 0x3001020 + n * 0x40
def RNG_OUTSTANDING (n : Nat) : Nat := 0x3001024 + n * 0x40
def RNG_HIST (n : Nat) : Nat := 0x3001028 + n * 0x40
def RNG_IMASK (n : Nat) : Nat := 0x300102C + n * 0x40
def RNG_DONE_CNT (n : Nat) : Nat := 0x3001030 + n * 0x40
def LVP_STAT : Nat := 0xA0000
def LVP_WIN : Nat := 0xA0004
def LVP_HIST : Nat := 0xA0008
def LVP_IMASK : Nat := 0xA000C
def LVP_TAKE_CNT : Nat := 0xA0010
def LVP_FRAME_ERR_CNT : Nat := 0xA0014
def GLB_MODE : Nat := 0x10
def GLB_MODE_HIST : Nat := 0x14
def GLB_MODE_IMASK : Nat := 0x18
def GLB_MODE_REFUSE : Nat := 0x1C
def HSF_CTL : Nat := 0x90000
def HSF_VCTL : Nat := 0x90004
def HSF_VSTAT : Nat := 0x90008
def HSF_SLACK (m : Nat) : Nat := 0x90010 + m * 0x4
def HSF_FLOOR : Nat := 0x90024
def HSF_LOAD : Nat := 0x90028
def HSF_HIST : Nat := 0x9002C
def HSF_IMASK : Nat := 0x90030
def HSF_SPARES : Nat := 0x90034
def HSF_TO_CNT : Nat := 0x90038
def HSF_RIB_STAT (b : Nat) : Nat := 0x90100 + b * 0x4
def HSF_XSTAT (d : Nat) : Nat := 0x91000 + d * 0x4
def HSF_XOVR_CNT (d : Nat) : Nat := 0x92000 + d * 0x8
def HSF_XDROP_CNT (d : Nat) : Nat := 0x92004 + d * 0x8
def MTX_CTL : Nat := 0x20000
def MTX_STAT : Nat := 0x20004
def MTX_HIST : Nat := 0x20008
def MTX_IMASK : Nat := 0x2000C
def MTX_DECERR_LOG_LO : Nat := 0x20010
def MTX_DECERR_LOG_HI : Nat := 0x20014
def MTX_DECERR_CNT : Nat := 0x20018
def MTX_HANG_LOG_LO : Nat := 0x20020
def MTX_HANG_LOG_HI : Nat := 0x20024
def MTX_HANG_CNT : Nat := 0x20028
def MTX_ABORT_LOG : Nat := 0x20030
def MTX_ABORT_CNT : Nat := 0x20038
def MTX_PERM_LOG_LO : Nat := 0x20040
def MTX_PERM_LOG_HI : Nat := 0x20044
def MTX_PERM_CNT : Nat := 0x20048
def MTX_HOLD_CNT : Nat := 0x20050
def MTX_MST_STAT (m : Nat) : Nat := 0x20100 + m * 0x4
def MTX_TGT_PRIO_LO (t : Nat) : Nat := 0x21000 + t * 0x100
def MTX_TGT_PRIO_HI (t : Nat) : Nat := 0x21004 + t * 0x100
def MTX_RGN_BASE (t : Nat) (r : Nat) : Nat := 0x21020 + t * 0x100 + r * 0x10
def MTX_RGN_LIMIT (t : Nat) (r : Nat) : Nat := 0x21024 + t * 0x100 + r * 0x10
def MTX_RGN_PERM_LO (t : Nat) (r : Nat) : Nat := 0x21028 + t * 0x100 + r * 0x10
def MTX_RGN_PERM_HI (t : Nat) (r : Nat) : Nat := 0x2102C + t * 0x100 + r * 0x10
def RST_LAST_CAUSE : Nat := 0x10100
def RST_OPTLOAD_RESTARTS : Nat := 0x10104
def RST_COLD_CNT : Nat := 0x10108
def RST_BOOT_REC : Nat := 0x1010C
def RST_BKP4_7 (w : Nat) : Nat := 0x10110 + w * 0x4
def RST_USER (w : Nat) : Nat := 0x10120 + w * 0x4
def RST_STAT : Nat := 0x10000
def RST_CAUSE : Nat := 0x10004
def RST_CFG : Nat := 0x10008
def RST_SWREQ : Nat := 0x1000C
def RST_HIST : Nat := 0x10010
def RST_IMASK : Nat := 0x10014
def RST_BLK_CTL : Nat := 0x10020
def RST_BLK_RES : Nat := 0x10024
def RST_BLK_STAT (c : Nat) (i : Nat) : Nat := 0x11000 + c * 0x400 + i * 0x4
def AXL_CTL : Nat := 0x70000
def AXL_PRESET : Nat := 0x70004
def AXL_STAT : Nat := 0x70008
def AXL_HIST : Nat := 0x7000C
def AXL_IMASK : Nat := 0x70010
def AXL_STORE_CNT : Nat := 0x70014
def AXL_WEAK_CNT : Nat := 0x70018
def AXL_AUTO_TIME : Nat := 0x7001C
def AXL_RESTORE : Nat := 0x70020
def AXL_REC_STAT (k : Nat) : Nat := 0x70100 + k * 0x8
def AXL_REC_SEQ (k : Nat) : Nat := 0x70104 + k * 0x8
def MATE_CTL : Nat := 0x80000
def MATE_STAT : Nat := 0x80004
def MATE_EPOCH : Nat := 0x80008
def MATE_PARTNER : Nat := 0x8000C
def MATE_SKEW : Nat := 0x80010
def MATE_HIST : Nat := 0x80014
def MATE_IMASK : Nat := 0x80018
def MATE_FWD_CNT : Nat := 0x8001C
def MATE_HB_MISS_CNT : Nat := 0x80020
def MATE_DOM_CFG : Nat := 0x80100
def MATE_DOM_UNIT : Nat := 0x80104
def MATE_DOM_UDP : Nat := 0x80108
def MATE_DOM_GRP (w : Nat) : Nat := 0x80110 + w * 0x4
def MATE_DOM_TO : Nat := 0x80120
def MATE_DOM_HIST : Nat := 0x80124
def MATE_DOM_RX_CNT : Nat := 0x80128
def MATE_DOM_AUTH_CNT : Nat := 0x8012C
def MATE_DOM_STALE_CNT : Nat := 0x80130
def MATE_DOM_IMASK : Nat := 0x80134
def SEC_STAT : Nat := 0x60000
def SEC_HIST : Nat := 0x60004
def SEC_IMASK : Nat := 0x60008
def SEC_CTL : Nat := 0x6000C
def SEC_LC_REQ : Nat := 0x60010
def SEC_LC_TOKEN_LO : Nat := 0x60014
def SEC_LC_TOKEN_HI : Nat := 0x60018
def SEC_LC_RES : Nat := 0x6001C
def SEC_DEVID_LO : Nat := 0x60020
def SEC_DEVID_HI : Nat := 0x60024
def SEC_FW : Nat := 0x60028
def SEC_FW_VER : Nat := 0x6002C
def SEC_ID_LEFT : Nat := 0x60030
def SEC_LOG_BASE_LO : Nat := 0x60040
def SEC_LOG_BASE_HI : Nat := 0x60044
def SEC_LOG_CFG : Nat := 0x60048
def SEC_LOG_HEAD : Nat := 0x6004C
def SEC_LOG_TAIL : Nat := 0x60050
def SEC_CKPT_BASE_LO : Nat := 0x60054
def SEC_CKPT_BASE_HI : Nat := 0x60058
def SEC_CKPT_NUM_LO : Nat := 0x6005C
def SEC_CKPT_NUM_HI : Nat := 0x60060
def SEC_SIG_FAIL_CNT : Nat := 0x60064
def SEC_LOG_DROP_CNT : Nat := 0x60068
def SEC_SEQ_LO (s : Nat) : Nat := 0x60100 + s * 0x8
def SEC_SEQ_HI (s : Nat) : Nat := 0x60104 + s * 0x8
def SEC_LC_NONCE (w : Nat) : Nat := 0x60200 + w * 0x4
def SEC_CERT (w : Nat) : Nat := 0x61000 + w * 0x4
def FLT_CTL : Nat := 0x30000
def FLT_STAT : Nat := 0x30004
def FLT_HIST : Nat := 0x30008
def FLT_IMASK : Nat := 0x3000C
def FLT_SEL : Nat := 0x30010
def FLT_REC (w : Nat) : Nat := 0x30014 + w * 0x4
def FLT_ACK : Nat := 0x30024
def FLT_UNFENCE : Nat := 0x30028
def FLT_UNIT_SEL : Nat := 0x30030
def FLT_UNIT_CNT : Nat := 0x30034
def FLT_LASTING_CNT : Nat := 0x30040
def FLT_TRANSIENT_CNT : Nat := 0x30044
def FLT_MERGED_CNT : Nat := 0x30048
end R

namespace F
def GLB_STEPPING_STEPPING : Bits := ⟨0, 8⟩
def GLB_GRADE_GRADE : Bits := ⟨0, 8⟩
def SDI_RX_CTL_LOS_ACT : Bits := ⟨11, 1⟩
def SDI_RX_CTL_DIV : Bits := ⟨10, 1⟩
def SDI_RX_CTL_MULTI : Bits := ⟨8, 2⟩
def SDI_RX_CTL_RATE_FORCE : Bits := ⟨4, 4⟩
def SDI_RX_CTL_PD : Bits := ⟨1, 1⟩
def SDI_RX_CTL_EN : Bits := ⟨0, 1⟩
def SDI_RX_STAT_FORMAT : Bits := ⟨16, 8⟩
def SDI_RX_STAT_RATE : Bits := ⟨12, 4⟩
def SDI_RX_STAT_GROUP_OK : Bits := ⟨6, 1⟩
def SDI_RX_STAT_LEVEL_B : Bits := ⟨5, 1⟩
def SDI_RX_STAT_PID_MISMATCH : Bits := ⟨4, 1⟩
def SDI_RX_STAT_PID_VALID : Bits := ⟨3, 1⟩
def SDI_RX_STAT_TRS_LOCK : Bits := ⟨2, 1⟩
def SDI_RX_STAT_CDR_LOCK : Bits := ⟨1, 1⟩
def SDI_RX_STAT_CARRIER : Bits := ⟨0, 1⟩
def SDI_RX_HIST_MULTI_ERR : Bits := ⟨7, 1⟩
def SDI_RX_HIST_ANC_CS_ERR : Bits := ⟨6, 1⟩
def SDI_RX_HIST_GROUP_SKEW : Bits := ⟨5, 1⟩
def SDI_RX_HIST_FMT_CHANGE : Bits := ⟨4, 1⟩
def SDI_RX_HIST_PID_CHANGE : Bits := ⟨3, 1⟩
def SDI_RX_HIST_CRC_ERR : Bits := ⟨2, 1⟩
def SDI_RX_HIST_RELOCK : Bits := ⟨1, 1⟩
def SDI_RX_HIST_LOS : Bits := ⟨0, 1⟩
def SDI_RX_IMASK_MASK : Bits := ⟨0, 8⟩
def SDI_TX_CTL_PID_MODE : Bits := ⟨11, 2⟩
def SDI_TX_CTL_DIV : Bits := ⟨10, 1⟩
def SDI_TX_CTL_MULTI : Bits := ⟨8, 2⟩
def SDI_TX_CTL_ATC_INS : Bits := ⟨3, 1⟩
def SDI_TX_CTL_PD : Bits := ⟨1, 1⟩
def SDI_TX_CTL_EN : Bits := ⟨0, 1⟩
def SDI_TX_STAT_RATE : Bits := ⟨12, 4⟩
def SDI_TX_STAT_IDLE_WHY : Bits := ⟨4, 4⟩
def SDI_TX_STAT_ACTIVE : Bits := ⟨0, 1⟩
def QE_CTL_SUB_EN : Bits := ⟨4, 4⟩
def QE_CTL_EXT_UDP : Bits := ⟨3, 1⟩
def QE_CTL_MODE : Bits := ⟨2, 1⟩
def QE_CTL_PD : Bits := ⟨1, 1⟩
def QE_CTL_EN : Bits := ⟨0, 1⟩
def QE_STAT_MODE : Bits := ⟨12, 1⟩
def QE_STAT_FEC_LOCK : Bits := ⟨8, 4⟩
def QE_STAT_LINK_UP : Bits := ⟨0, 4⟩
def QE_HIST_MODE_ERR : Bits := ⟨6, 1⟩
def QE_HIST_PTP_TS_OVF : Bits := ⟨5, 1⟩
def QE_HIST_FEC_UNCORR : Bits := ⟨4, 1⟩
def QE_HIST_LINK_DOWN : Bits := ⟨0, 4⟩
def QE_IMASK_MASK : Bits := ⟨0, 7⟩
def QE_MAC_HI_MAC : Bits := ⟨0, 16⟩
def XPT_CTL_MARGIN : Bits := ⟨16, 8⟩
def XPT_CTL_LEAP_RATE : Bits := ⟨8, 4⟩
def XPT_CTL_PROOF_EN : Bits := ⟨0, 1⟩
def XPT_STAT_PG_ERR : Bits := ⟨20, 1⟩
def XPT_STAT_LEAP_RATE : Bits := ⟨16, 4⟩
def XPT_STAT_TIME_VALID : Bits := ⟨15, 1⟩
def XPT_STAT_LEAPS : Bits := ⟨0, 15⟩
def XPT_RFN_HI_RFN : Bits := ⟨0, 16⟩
def XPT_IMASK_PG_MASK : Bits := ⟨4, 1⟩
def XPT_IMASK_MASK : Bits := ⟨0, 4⟩
def XPT_PG_CFG_FORMAT : Bits := ⟨16, 8⟩
def XPT_PG_CFG_PATTERN : Bits := ⟨0, 2⟩
def XPT_SRC_CFG_STILL_OK : Bits := ⟨0, 1⟩
def XPT_DST_ROUTE_VALID : Bits := ⟨31, 1⟩
def XPT_DST_ROUTE_KIND : Bits := ⟨28, 3⟩
def XPT_DST_ROUTE_OWNER_LV : Bits := ⟨27, 1⟩
def XPT_DST_ROUTE_SOURCE : Bits := ⟨0, 9⟩
def XPT_DST_CFG_AFV : Bits := ⟨31, 1⟩
def XPT_DST_CFG_REFUSE_UNTIMED : Bits := ⟨30, 1⟩
def XPT_DST_CFG_FADE_LAW : Bits := ⟨29, 1⟩
def XPT_DST_CFG_FADE : Bits := ⟨12, 15⟩
def XPT_DST_CFG_SWLINE : Bits := ⟨0, 12⟩
def XPT_DST_STAT_REF_TIMED : Bits := ⟨2, 1⟩
def XPT_DST_STAT_PENDING : Bits := ⟨1, 1⟩
def XPT_DST_STAT_ACTIVE : Bits := ⟨0, 1⟩
def XPT_DST_HIST_PATH_MISMATCH : Bits := ⟨3, 1⟩
def XPT_DST_HIST_UNTIMED : Bits := ⟨2, 1⟩
def XPT_DST_HIST_LATE : Bits := ⟨1, 1⟩
def XPT_DST_HIST_TAKE : Bits := ⟨0, 1⟩
def FST_CTL_CORR_THRESH : Bits := ⟨8, 8⟩
def FST_CTL_SCRUB_PERIOD : Bits := ⟨0, 2⟩
def FST_GRAN_FREE : Bits := ⟨0, 15⟩
def FST_HANDLES_FREE : Bits := ⟨0, 14⟩
def FST_RINGS_FREE : Bits := ⟨0, 12⟩
def FST_PENDFREE_COUNT : Bits := ⟨0, 14⟩
def FST_BW_ADMITTED : Bits := ⟨16, 16⟩
def FST_BW_LIMIT : Bits := ⟨0, 16⟩
def FST_HIST_PC_FENCED : Bits := ⟨4, 1⟩
def FST_HIST_SPARE_EXHAUSTED : Bits := ⟨3, 1⟩
def FST_HIST_GRANULE_FENCED : Bits := ⟨2, 1⟩
def FST_HIST_ECC_CORR_THRESH : Bits := ⟨1, 1⟩
def FST_HIST_ECC_UNCORR : Bits := ⟨0, 1⟩
def FST_IMASK_MASK : Bits := ⟨0, 5⟩
def FST_SPARES_LEFT : Bits := ⟨0, 8⟩
def FST_PC_STAT_FENCED : Bits := ⟨31, 1⟩
def FST_PC_STAT_SPARES : Bits := ⟨16, 2⟩
def FST_PC_STAT_FREE : Bits := ⟨0, 9⟩
def FST_CW_STAT_ATTACHED : Bits := ⟨31, 1⟩
def FST_CW_STAT_STATE : Bits := ⟨28, 3⟩
def FST_CW_STAT_RING : Bits := ⟨0, 11⟩
def FST_RING_LO_VALID : Bits := ⟨31, 1⟩
def FST_RING_LO_FREEING : Bits := ⟨30, 1⟩
def FST_RING_LO_CHAIN : Bits := ⟨29, 1⟩
def FST_RING_LO_DEPTH : Bits := ⟨24, 5⟩
def FST_RING_LO_FIRST : Bits := ⟨0, 13⟩
def FST_RING_HI_PIXFMT : Bits := ⟨8, 2⟩
def FST_RING_HI_FORMAT : Bits := ⟨0, 8⟩
def FST_BUF_REF_ALLOCATED : Bits := ⟨31, 1⟩
def FST_BUF_REF_FREEING : Bits := ⟨30, 1⟩
def FST_BUF_REF_COUNT : Bits := ⟨0, 10⟩
def CHE_CTL_CUT_FRAC : Bits := ⟨8, 8⟩
def CHE_CTL_EN : Bits := ⟨0, 1⟩
def CHE_STAT_ACTIVE : Bits := ⟨31, 1⟩
def CHE_STAT_ADMITTED : Bits := ⟨26, 5⟩
def CHE_STAT_RUNNING : Bits := ⟨21, 5⟩
def CHE_LOAD_LOAD : Bits := ⟨16, 16⟩
def CHE_LOAD_LIMIT : Bits := ⟨0, 16⟩
def CHE_RATE_MEASURED : Bits := ⟨0, 16⟩
def CHE_HIST_MARGIN_LOW : Bits := ⟨3, 1⟩
def CHE_HIST_CUT : Bits := ⟨2, 1⟩
def CHE_HIST_ORPHAN : Bits := ⟨1, 1⟩
def CHE_HIST_DEADLINE_MISS : Bits := ⟨0, 1⟩
def CHE_IMASK_MASK : Bits := ⟨0, 4⟩
def CHE_LUT_INUSE : Bits := ⟨4, 4⟩
def CHE_LUT_LOADED : Bits := ⟨0, 4⟩
def CHE_CTX_STAT_STATE : Bits := ⟨29, 3⟩
def CHE_CTX_STAT_CHAIN : Bits := ⟨28, 1⟩
def CHE_CTX_STAT_CADENCE : Bits := ⟨26, 2⟩
def CHE_CTX_STAT_IN_RING : Bits := ⟨11, 11⟩
def CHE_CTX_STAT_OUT_RING : Bits := ⟨0, 11⟩
def CHE_CTX_LOAD_LOAD : Bits := ⟨0, 16⟩
def CHE_CTX_LAT_LAT : Bits := ⟨0, 24⟩
def XPT_UFMT_SIZE_TOTAL_SAMPLES : Bits := ⟨16, 16⟩
def XPT_UFMT_SIZE_ACTIVE_WIDTH : Bits := ⟨0, 16⟩
def XPT_UFMT_LINES_TOTAL_LINES : Bits := ⟨16, 16⟩
def XPT_UFMT_LINES_ACTIVE_LINES : Bits := ⟨0, 16⟩
def XPT_UFMT_FIRST_FIRST_F2 : Bits := ⟨16, 16⟩
def XPT_UFMT_FIRST_FIRST_F1 : Bits := ⟨0, 16⟩
def XPT_UFMT_MODE_INTERLACED : Bits := ⟨31, 1⟩
def XPT_UFMT_MODE_RATE : Bits := ⟨24, 4⟩
def XPT_UFMT_MODE_SWLINE : Bits := ⟨12, 12⟩
def XPT_UFMT_STAT_VALID : Bits := ⟨31, 1⟩
def XPT_UFMT_STAT_IN_USE : Bits := ⟨30, 1⟩
def XPT_UFMT_STAT_ERR : Bits := ⟨29, 1⟩
def XPT_FRZ_CFG_EN : Bits := ⟨31, 1⟩
def XPT_FRZ_CFG_K : Bits := ⟨0, 16⟩
def XPT_FRZ_IMASK_MASK : Bits := ⟨0, 1⟩
def XPT_FRZ_STAT_FROZEN : Bits := ⟨31, 1⟩
def XPT_FRZ_STAT_FREEZE : Bits := ⟨30, 1⟩
def XPT_FRZ_STAT_RUN : Bits := ⟨0, 16⟩
def SOU_CTL_LOW_WM : Bits := ⟨16, 8⟩
def SOU_CTL_CRIT_WM : Bits := ⟨8, 8⟩
def SOU_CTL_EN : Bits := ⟨0, 1⟩
def SOU_STAT_ALLOCATED : Bits := ⟨31, 1⟩
def SOU_STAT_CHAIN : Bits := ⟨30, 1⟩
def SOU_STAT_RUNNING : Bits := ⟨29, 1⟩
def SOU_STAT_GATED : Bits := ⟨28, 1⟩
def SOU_STAT_PENDING : Bits := ⟨27, 1⟩
def SOU_STAT_URGENCY : Bits := ⟨25, 2⟩
def SOU_POS_LINE : Bits := ⟨16, 13⟩
def SOU_POS_SAMPLE : Bits := ⟨0, 16⟩
def SOU_HIST_CRITICAL : Bits := ⟨5, 1⟩
def SOU_HIST_URGENT : Bits := ⟨4, 1⟩
def SOU_HIST_TIMING_CHANGE : Bits := ⟨3, 1⟩
def SOU_HIST_SYN_GATED : Bits := ⟨2, 1⟩
def SOU_HIST_LATE_COMMIT : Bits := ⟨1, 1⟩
def SOU_HIST_UNDERRUN : Bits := ⟨0, 1⟩
def SOU_IMASK_MASK : Bits := ⟨0, 6⟩
def SOU_FMT_FORMAT : Bits := ⟨16, 8⟩
def SOU_FMT_SYN : Bits := ⟨12, 2⟩
def SOU_FMT_OUT_444 : Bits := ⟨11, 1⟩
def SOU_OFFSET_LINES : Bits := ⟨16, 13⟩
def SOU_OFFSET_SAMPLES : Bits := ⟨0, 14⟩
def SOU_CMT_FRAME_ONLY : Bits := ⟨31, 1⟩
def SOU_CMT_CL2 : Bits := ⟨16, 13⟩
def SOU_CMT_CL1 : Bits := ⟨0, 13⟩
def SOU_CDESC_FULL : Bits := ⟨7, 1⟩
def SOU_CDESC_RGB : Bits := ⟨6, 1⟩
def SOU_CDESC_TRANSFER : Bits := ⟨4, 2⟩
def SOU_CDESC_SPACE : Bits := ⟨0, 2⟩
def SOU_L_CTL_EN : Bits := ⟨31, 1⟩
def SOU_L_CTL_KEY : Bits := ⟨29, 2⟩
def SOU_L_CTL_FIXED : Bits := ⟨28, 1⟩
def SOU_L_CTL_BUF : Bits := ⟨24, 4⟩
def SOU_L_CTL_OPACITY : Bits := ⟨16, 8⟩
def SOU_L_CTL_RING : Bits := ⟨0, 11⟩
def SOU_L_POS_Y : Bits := ⟨16, 13⟩
def SOU_L_POS_X : Bits := ⟨0, 13⟩
def SOU_L_KEY_HI : Bits := ⟨16, 10⟩
def SOU_L_KEY_LO : Bits := ⟨0, 10⟩
def SOU_L_SEL_HELD : Bits := ⟨4, 1⟩
def SOU_L_SEL_BUF : Bits := ⟨0, 4⟩
def AUD_CTL_LS_JUMP_MS : Bits := ⟨16, 8⟩
def AUD_CTL_LS_AVG : Bits := ⟨8, 8⟩
def AUD_CTL_LINK_OFS : Bits := ⟨0, 8⟩
def AUD_STAT_OUT_SLOTS : Bits := ⟨16, 13⟩
def AUD_STAT_IN_SLOTS : Bits := ⟨0, 13⟩
def AUD_DELAY_BLOCKS : Bits := ⟨10, 17⟩
def AUD_DELAY_GRANULES : Bits := ⟨0, 10⟩
def AUD_HIST_TRANSP_MUTE : Bits := ⟨5, 1⟩
def AUD_HIST_AFV_SHORT : Bits := ⟨4, 1⟩
def AUD_HIST_DELAY_CLAMP : Bits := ⟨3, 1⟩
def AUD_HIST_LS_JUMP : Bits := ⟨2, 1⟩
def AUD_HIST_FADE_CUT : Bits := ⟨1, 1⟩
def AUD_HIST_CLIP : Bits := ⟨0, 1⟩
def AUD_IMASK_MASK : Bits := ⟨0, 6⟩
def AUD_GECKO_PEAK_NS : Bits := ⟨0, 16⟩
def AUD_ASSOC_CLASS : Bits := ⟨28, 4⟩
def AUD_ASSOC_INDEX : Bits := ⟨18, 10⟩
def AUD_ASSOC_FIRST : Bits := ⟨12, 6⟩
def AUD_ASSOC_COUNT : Bits := ⟨5, 7⟩
def AUD_PATH_VALID : Bits := ⟨31, 1⟩
def AUD_PATH_SHORT : Bits := ⟨30, 1⟩
def AUD_PATH_DELAY : Bits := ⟨0, 17⟩
def AUD_SLOT_DST_VALID : Bits := ⟨31, 1⟩
def AUD_SLOT_DST_RATE96 : Bits := ⟨30, 1⟩
def AUD_SLOT_DST_ENDPOINT : Bits := ⟨0, 20⟩
def AUD_SLOT_SRC_FADING : Bits := ⟨31, 1⟩
def AUD_SLOT_SRC_FOLLOW : Bits := ⟨30, 1⟩
def AUD_SLOT_SRC_ENDPOINT : Bits := ⟨0, 20⟩
def AUD_SLOT_DLY_PATH : Bits := ⟨17, 15⟩
def AUD_SLOT_DLY_DELAY : Bits := ⟨0, 17⟩
def AUD_SLOT_GAIN_GAIN : Bits := ⟨0, 16⟩
def SAP_CTL_SYN : Bits := ⟨26, 2⟩
def SAP_CTL_BCLK_EDGE : Bits := ⟨25, 1⟩
def SAP_CTL_FS_WIDTH : Bits := ⟨23, 2⟩
def SAP_CTL_BIT_DELAY : Bits := ⟨22, 1⟩
def SAP_CTL_DATA_BITS : Bits := ⟨20, 2⟩
def SAP_CTL_SLOT_BITS : Bits := ⟨18, 2⟩
def SAP_CTL_SLOTS_M1 : Bits := ⟨13, 5⟩
def SAP_CTL_MODE : Bits := ⟨11, 2⟩
def SAP_CTL_RATE96 : Bits := ⟨10, 1⟩
def SAP_CTL_MASTER : Bits := ⟨9, 1⟩
def SAP_CTL_EN : Bits := ⟨0, 1⟩
def SAP_DIV_INT_INT : Bits := ⟨0, 24⟩
def SAP_DIV_FRAC_FRAC : Bits := ⟨0, 24⟩
def SAP_STAT_CLK : Bits := ⟨29, 3⟩
def SAP_STAT_FIFO : Bits := ⟨0, 7⟩
def SAP_HIST_FRAME_ERR : Bits := ⟨4, 1⟩
def SAP_HIST_MASK_APPLIED : Bits := ⟨3, 1⟩
def SAP_HIST_FIFO_SLIP : Bits := ⟨2, 1⟩
def SAP_HIST_STEER_LIMIT : Bits := ⟨1, 1⟩
def SAP_HIST_CLOCK_LOST : Bits := ⟨0, 1⟩
def SAP_IMASK_MASK : Bits := ⟨0, 5⟩
def AESI_CTL_RATE96 : Bits := ⟨1, 1⟩
def AESI_CTL_EN : Bits := ⟨0, 1⟩
def AESI_STAT_CLK : Bits := ⟨29, 3⟩
def AESI_STAT_NONAUDIO : Bits := ⟨28, 1⟩
def AESI_STAT_FIFO : Bits := ⟨0, 7⟩
def AESI_HIST_NONAUDIO_CHANGE : Bits := ⟨4, 1⟩
def AESI_HIST_CS_CRC_ERR : Bits := ⟨3, 1⟩
def AESI_HIST_PARITY_ERR : Bits := ⟨2, 1⟩
def AESI_HIST_STEER_LIMIT : Bits := ⟨1, 1⟩
def AESI_HIST_CLOCK_LOST : Bits := ⟨0, 1⟩
def AESI_IMASK_MASK : Bits := ⟨0, 5⟩
def AESO_CTL_RATE96 : Bits := ⟨4, 1⟩
def AESO_CTL_SYN : Bits := ⟨2, 2⟩
def AESO_CTL_CS_PASS : Bits := ⟨1, 1⟩
def AESO_CTL_EN : Bits := ⟨0, 1⟩
def AESO_STAT_ACTIVE : Bits := ⟨31, 1⟩
def AESO_STAT_PASSING : Bits := ⟨30, 1⟩
def AESO_STAT_RATE96 : Bits := ⟨29, 1⟩
def AESO_DIV_INT_INT : Bits := ⟨0, 24⟩
def AESO_DIV_FRAC_FRAC : Bits := ⟨0, 24⟩
def REF_CTL_FORCE_IN : Bits := ⟨20, 4⟩
def REF_CTL_HOLD_SKIP_WTR : Bits := ⟨19, 1⟩
def REF_CTL_TEMP_SRC : Bits := ⟨18, 1⟩
def REF_CTL_AGE_MODE : Bits := ⟨16, 2⟩
def REF_CTL_XO_20M : Bits := ⟨1, 1⟩
def REF_CTL_MODE : Bits := ⟨0, 1⟩
def REF_STAT_STATE : Bits := ⟨30, 2⟩
def REF_STAT_PENDING : Bits := ⟨29, 1⟩
def REF_STAT_TIME_VALID : Bits := ⟨28, 1⟩
def REF_STAT_SELECTED : Bits := ⟨24, 4⟩
def REF_STAT_TARGET : Bits := ⟨20, 4⟩
def REF_HIST_HOLD_LIMIT : Bits := ⟨6, 1⟩
def REF_HIST_TIME_SET : Bits := ⟨5, 1⟩
def REF_HIST_CANCEL : Bits := ⟨4, 1⟩
def REF_HIST_LOCK : Bits := ⟨3, 1⟩
def REF_HIST_HOLD_EXIT : Bits := ⟨2, 1⟩
def REF_HIST_HOLD_ENTER : Bits := ⟨1, 1⟩
def REF_HIST_SWITCH : Bits := ⟨0, 1⟩
def REF_IMASK_MASK : Bits := ⟨0, 7⟩
def REF_LOOP_TRACK_BW : Bits := ⟨0, 14⟩
def REF_QUAL_QUAL_PPM : Bits := ⟨24, 8⟩
def REF_QUAL_QUAL_TIME : Bits := ⟨0, 16⟩
def REF_WTR_WTR : Bits := ⟨0, 12⟩
def REF_HOLD_AVG_HOLD_AVG : Bits := ⟨0, 12⟩
def REF_AGE_DAYS_AGE_DAYS : Bits := ⟨16, 9⟩
def REF_AGE_DAYS_HELD : Bits := ⟨0, 9⟩
def REF_HOLD_UNC_Y_U : Bits := ⟨16, 16⟩
def REF_HOLD_UNC_A_U : Bits := ⟨0, 16⟩
def REF_TEMP_TEMP : Bits := ⟨0, 16⟩
def REF_TIME_NS_NS : Bits := ⟨0, 30⟩
def REF_TIME_SEC_HI_SEC : Bits := ⟨0, 16⟩
def REF_TOD_SEC_HI_SEC : Bits := ⟨0, 16⟩
def REF_IN_CFG_PRIO : Bits := ⟨28, 4⟩
def REF_IN_CFG_REVERT : Bits := ⟨27, 1⟩
def REF_IN_CFG_TERM : Bits := ⟨26, 1⟩
def REF_IN_CFG_SRC : Bits := ⟨16, 7⟩
def REF_IN_CFG_PTP_DOMAIN : Bits := ⟨8, 7⟩
def REF_IN_CFG_EN : Bits := ⟨0, 1⟩
def REF_IN_STAT_STATE : Bits := ⟨29, 3⟩
def REF_IN_STAT_SUSPECT : Bits := ⟨28, 1⟩
def REF_IN_STAT_FORMAT : Bits := ⟨16, 8⟩
def REF_IN_STAT_WTR_LEFT : Bits := ⟨0, 12⟩
def REF_IN_HIST_SWITCHED_AWAY : Bits := ⟨3, 1⟩
def REF_IN_HIST_RESTORED : Bits := ⟨2, 1⟩
def REF_IN_HIST_DISQ : Bits := ⟨1, 1⟩
def REF_IN_HIST_LOST : Bits := ⟨0, 1⟩
def REF_IN_IMASK_MASK : Bits := ⟨0, 4⟩
def REF_FP_CFG_EN : Bits := ⟨31, 1⟩
def REF_FP_CFG_POL : Bits := ⟨30, 1⟩
def REF_FP_CFG_RATE : Bits := ⟨24, 4⟩
def REF_FP_CFG_WIDTH : Bits := ⟨0, 14⟩
def SYN_SUM_GATED : Bits := ⟨16, 16⟩
def SYN_SUM_LOCKED : Bits := ⟨0, 16⟩
def SYN_TS_CTL_MULT : Bits := ⟨8, 4⟩
def SYN_TS_CTL_FAMILY : Bits := ⟨4, 2⟩
def SYN_TS_CTL_PRELOAD : Bits := ⟨3, 1⟩
def SYN_TS_CTL_ABSORB : Bits := ⟨2, 1⟩
def SYN_TS_CTL_EN : Bits := ⟨0, 1⟩
def SYN_TS_STAT_STATE : Bits := ⟨29, 3⟩
def SYN_TS_STAT_RAMPING : Bits := ⟨28, 1⟩
def SYN_TS_STAT_ABSORBING : Bits := ⟨27, 1⟩
def SYN_TS_STAT_DLL : Bits := ⟨26, 1⟩
def SYN_TS_STAT_FAMILY : Bits := ⟨24, 2⟩
def SYN_TS_STAT_MULT : Bits := ⟨20, 4⟩
def SYN_TS_STAT_ENTRY : Bits := ⟨16, 4⟩
def SYN_TS_STAT_USERS : Bits := ⟨8, 8⟩
def SYN_TS_HIST_CFG_ERR : Bits := ⟨5, 1⟩
def SYN_TS_HIST_RAMP_ERR : Bits := ⟨4, 1⟩
def SYN_TS_HIST_RAMP_DONE : Bits := ⟨3, 1⟩
def SYN_TS_HIST_FMAX_CLAMP : Bits := ⟨2, 1⟩
def SYN_TS_HIST_REF_LOST : Bits := ⟨1, 1⟩
def SYN_TS_HIST_LOCK_LOST : Bits := ⟨0, 1⟩
def SYN_TS_IMASK_MASK : Bits := ⟨0, 6⟩
def SYN_TS_FMAX_TS_FMAX : Bits := ⟨0, 16⟩
def SYN_TS_ABS_ABS_OFS : Bits := ⟨16, 16⟩
def SYN_TS_ABS_ABS_SLOPE : Bits := ⟨0, 16⟩
def SYN_TS_RAMP_GO : Bits := ⟨31, 1⟩
def SYN_TS_RAMP_ABORT : Bits := ⟨30, 1⟩
def SYN_TS_RAMP_LAST : Bits := ⟨0, 3⟩
def SYN_TS_SEG_SLOPE_SLOPE : Bits := ⟨0, 14⟩
def SYN_TS_BAND_VALID : Bits := ⟨31, 1⟩
def SYN_TS_BAND_FAMILY : Bits := ⟨30, 1⟩
def SYN_TS_BAND_MULT : Bits := ⟨27, 3⟩
def SYN_TS_BAND_COARSE : Bits := ⟨21, 6⟩
def SYN_TS_BAND_FINE : Bits := ⟨11, 10⟩
def SYN_TS_BAND_TEMP : Bits := ⟨0, 10⟩
def RNG_GLB_STAT_READY : Bits := ⟨31, 1⟩
def RNG_GLB_STAT_INFLIGHT : Bits := ⟨0, 15⟩
def RNG_GLB_HIST_RING_STOPPED : Bits := ⟨1, 1⟩
def RNG_GLB_HIST_FLR_DISCARD : Bits := ⟨0, 1⟩
def RNG_GLB_IMASK_MASK : Bits := ⟨0, 2⟩
def RNG_SQ_BASE_LO_BASE : Bits := ⟨12, 20⟩
def RNG_CQ_BASE_LO_BASE : Bits := ⟨12, 20⟩
def RNG_SIZE_CQ_LOG2 : Bits := ⟨16, 5⟩
def RNG_SIZE_SQ_LOG2 : Bits := ⟨0, 5⟩
def RNG_CTL_ABANDON : Bits := ⟨1, 1⟩
def RNG_CTL_EN : Bits := ⟨0, 1⟩
def RNG_CQ_VEC_COAL_US : Bits := ⟨16, 16⟩
def RNG_CQ_VEC_COAL_CNT : Bits := ⟨8, 8⟩
def RNG_CQ_VEC_VEC : Bits := ⟨0, 6⟩
def RNG_STAT_STATE : Bits := ⟨29, 3⟩
def RNG_STAT_SQ_HEAD : Bits := ⟨0, 16⟩
def RNG_CQ_POS_PHASE : Bits := ⟨16, 1⟩
def RNG_CQ_POS_TAIL : Bits := ⟨0, 16⟩
def RNG_OUTSTANDING_COUNT : Bits := ⟨0, 17⟩
def RNG_HIST_CFG_ERR : Bits := ⟨4, 1⟩
def RNG_HIST_CQ_STALL : Bits := ⟨3, 1⟩
def RNG_HIST_POST_ERR : Bits := ⟨2, 1⟩
def RNG_HIST_FETCH_ERR : Bits := ⟨1, 1⟩
def RNG_HIST_CROAK_ERR : Bits := ⟨0, 1⟩
def RNG_IMASK_MASK : Bits := ⟨0, 5⟩
def LVP_STAT_PERSONA : Bits := ⟨30, 2⟩
def LVP_STAT_FUSED : Bits := ⟨29, 1⟩
def LVP_STAT_TAKE_PEND : Bits := ⟨28, 1⟩
def LVP_STAT_PENDING : Bits := ⟨0, 6⟩
def LVP_WIN_AES_Q : Bits := ⟨16, 2⟩
def LVP_WIN_TX_BASE : Bits := ⟨8, 7⟩
def LVP_WIN_RX_BASE : Bits := ⟨0, 7⟩
def LVP_HIST_WIN_ERR : Bits := ⟨3, 1⟩
def LVP_HIST_FRAME_ERR : Bits := ⟨2, 1⟩
def LVP_HIST_TAKE_ERR : Bits := ⟨1, 1⟩
def LVP_HIST_TAKE : Bits := ⟨0, 1⟩
def LVP_IMASK_MASK : Bits := ⟨0, 4⟩
def GLB_MODE_PERSONA : Bits := ⟨30, 2⟩
def GLB_MODE_ROLE : Bits := ⟨28, 2⟩
def GLB_MODE_ISOLATED : Bits := ⟨27, 1⟩
def GLB_MODE_SIGN_REQ : Bits := ⟨26, 1⟩
def GLB_MODE_REF_STATE : Bits := ⟨24, 2⟩
def GLB_MODE_LIFECYCLE : Bits := ⟨21, 3⟩
def GLB_MODE_ADAPTIVE : Bits := ⟨20, 1⟩
def GLB_MODE_AUTOSTORE : Bits := ⟨19, 1⟩
def GLB_MODE_TIME_VALID : Bits := ⟨18, 1⟩
def GLB_MODE_HIST_MODE_REFUSED : Bits := ⟨4, 1⟩
def GLB_MODE_HIST_LIFECYCLE_CHG : Bits := ⟨3, 1⟩
def GLB_MODE_HIST_SIGN_CHG : Bits := ⟨2, 1⟩
def GLB_MODE_HIST_AUTOSTORE_CHG : Bits := ⟨1, 1⟩
def GLB_MODE_HIST_ROLE_CHG : Bits := ⟨0, 1⟩
def GLB_MODE_IMASK_MASK : Bits := ⟨0, 5⟩
def GLB_MODE_REFUSE_CODE : Bits := ⟨0, 8⟩
def HSF_CTL_HS_TO : Bits := ⟨8, 8⟩
def HSF_CTL_LOWER_S : Bits := ⟨0, 6⟩
def HSF_VCTL_MODE : Bits := ⟨31, 1⟩
def HSF_VCTL_VSTEP : Bits := ⟨20, 5⟩
def HSF_VCTL_VMIN : Bits := ⟨10, 10⟩
def HSF_VCTL_VPROG : Bits := ⟨0, 10⟩
def HSF_VSTAT_STATE : Bits := ⟨29, 3⟩
def HSF_VSTAT_VDD : Bits := ⟨0, 10⟩
def HSF_SLACK_RATE : Bits := ⟨0, 16⟩
def HSF_FLOOR_FLOOR : Bits := ⟨0, 16⟩
def HSF_LOAD_ADMITTED : Bits := ⟨16, 16⟩
def HSF_LOAD_LIMIT : Bits := ⟨0, 16⟩
def HSF_HIST_AVS_ERR : Bits := ⟨6, 1⟩
def HSF_HIST_MARGIN_LOW : Bits := ⟨5, 1⟩
def HSF_HIST_SPARE_EXHAUSTED : Bits := ⟨4, 1⟩
def HSF_HIST_RIBBON_FENCED : Bits := ⟨3, 1⟩
def HSF_HIST_HS_TIMEOUT : Bits := ⟨2, 1⟩
def HSF_HIST_XDROP : Bits := ⟨1, 1⟩
def HSF_HIST_XOVERRUN : Bits := ⟨0, 1⟩
def HSF_IMASK_MASK : Bits := ⟨0, 7⟩
def HSF_SPARES_LEFT : Bits := ⟨0, 8⟩
def HSF_RIB_STAT_FENCED : Bits := ⟨31, 1⟩
def HSF_RIB_STAT_TESTING : Bits := ⟨30, 1⟩
def HSF_RIB_STAT_REPLACED : Bits := ⟨29, 1⟩
def HSF_RIB_STAT_SPARE : Bits := ⟨28, 1⟩
def HSF_XSTAT_STATE : Bits := ⟨30, 2⟩
def HSF_XSTAT_DROP : Bits := ⟨1, 1⟩
def HSF_XSTAT_OVERRUN : Bits := ⟨0, 1⟩
def MTX_CTL_HANG_TIME : Bits := ⟨0, 16⟩
def MTX_STAT_PARK : Bits := ⟨30, 2⟩
def MTX_HIST_PERM_ERR : Bits := ⟨3, 1⟩
def MTX_HIST_ABORT : Bits := ⟨2, 1⟩
def MTX_HIST_HANG : Bits := ⟨1, 1⟩
def MTX_HIST_DECERR : Bits := ⟨0, 1⟩
def MTX_IMASK_MASK : Bits := ⟨0, 4⟩
def MTX_DECERR_LOG_HI_WRITE : Bits := ⟨12, 1⟩
def MTX_DECERR_LOG_HI_MASTER : Bits := ⟨8, 4⟩
def MTX_DECERR_LOG_HI_ADDR : Bits := ⟨0, 8⟩
def MTX_HANG_LOG_HI_REPLIED : Bits := ⟨13, 1⟩
def MTX_ABORT_LOG_BEATS : Bits := ⟨8, 5⟩
def MTX_ABORT_LOG_TARGET : Bits := ⟨4, 4⟩
def MTX_ABORT_LOG_MASTER : Bits := ⟨0, 4⟩
def MTX_PERM_LOG_HI_FETCH : Bits := ⟨13, 1⟩
def MTX_MST_STAT_HUNG : Bits := ⟨31, 1⟩
def MTX_MST_STAT_IN_RESET : Bits := ⟨30, 1⟩
def MTX_MST_STAT_OUTSTANDING : Bits := ⟨0, 5⟩
def MTX_RGN_BASE_EN : Bits := ⟨31, 1⟩
def MTX_RGN_BASE_BASE : Bits := ⟨0, 28⟩
def MTX_RGN_LIMIT_LIMIT : Bits := ⟨0, 28⟩
def MTX_RGN_PERM_LO_PERM : Bits := ⟨0, 30⟩
def MTX_RGN_PERM_HI_PERM : Bits := ⟨0, 9⟩
def RST_BOOT_REC_LAST : Bits := ⟨2, 1⟩
def RST_BOOT_REC_TRIAL : Bits := ⟨1, 1⟩
def RST_BOOT_REC_PREF : Bits := ⟨0, 1⟩
def RST_STAT_PHASE : Bits := ⟨29, 3⟩
def RST_STAT_BOOT_FAIL : Bits := ⟨28, 1⟩
def RST_STAT_RET_LOST : Bits := ⟨27, 1⟩
def RST_STAT_IMAGE : Bits := ⟨25, 2⟩
def RST_STAT_FALLBACK : Bits := ⟨24, 1⟩
def RST_STAT_WARM_STREAK : Bits := ⟨16, 8⟩
def RST_CAUSE_COLD : Bits := ⟨31, 1⟩
def RST_CAUSE_SOURCES : Bits := ⟨0, 11⟩
def RST_CFG_COLD : Bits := ⟨0, 6⟩
def RST_SWREQ_KEY : Bits := ⟨24, 8⟩
def RST_SWREQ_GO : Bits := ⟨0, 1⟩
def RST_HIST_SWREQ_ERR : Bits := ⟨4, 1⟩
def RST_HIST_BLK_ERR : Bits := ⟨3, 1⟩
def RST_HIST_BOOT_FALLBACK : Bits := ⟨2, 1⟩
def RST_HIST_OPTLOAD_RESTART : Bits := ⟨1, 1⟩
def RST_HIST_WARM_DONE : Bits := ⟨0, 1⟩
def RST_IMASK_MASK : Bits := ⟨0, 5⟩
def RST_BLK_CTL_OP : Bits := ⟨30, 2⟩
def RST_BLK_CTL_CLASS : Bits := ⟨24, 4⟩
def RST_BLK_CTL_INDEX : Bits := ⟨0, 8⟩
def RST_BLK_RES_RESULT : Bits := ⟨29, 3⟩
def RST_BLK_RES_CLASS : Bits := ⟨24, 4⟩
def RST_BLK_RES_INDEX : Bits := ⟨0, 8⟩
def RST_BLK_STAT_IN_RESET : Bits := ⟨31, 1⟩
def RST_BLK_STAT_RELEASE_PENDING_CLOCK : Bits := ⟨30, 1⟩
def RST_BLK_STAT_CLK_OK : Bits := ⟨29, 1⟩
def RST_BLK_STAT_IDLE : Bits := ⟨28, 1⟩
def AXL_CTL_RESTORE : Bits := ⟨5, 3⟩
def AXL_CTL_MARGIN_EN : Bits := ⟨3, 1⟩
def AXL_CTL_ARM : Bits := ⟨0, 1⟩
def AXL_PRESET_CAPTURE : Bits := ⟨31, 1⟩
def AXL_PRESET_PRESET : Bits := ⟨0, 2⟩
def AXL_STAT_STATE : Bits := ⟨29, 3⟩
def AXL_STAT_ARMED : Bits := ⟨28, 1⟩
def AXL_STAT_VHOLD_OK : Bits := ⟨27, 1⟩
def AXL_STAT_PFAIL : Bits := ⟨26, 1⟩
def AXL_STAT_SRAM_VALID : Bits := ⟨25, 1⟩
def AXL_STAT_DIRTY : Bits := ⟨0, 8⟩
def AXL_HIST_DISARMED : Bits := ⟨8, 1⟩
def AXL_HIST_CAPTURED : Bits := ⟨7, 1⟩
def AXL_HIST_AUTOSTORE_MISSED : Bits := ⟨6, 1⟩
def AXL_HIST_REC_LOST : Bits := ⟨5, 1⟩
def AXL_HIST_AXL_SEQ_TIE : Bits := ⟨4, 1⟩
def AXL_HIST_WEAK_FIXED : Bits := ⟨3, 1⟩
def AXL_HIST_STORE_ERR : Bits := ⟨2, 1⟩
def AXL_HIST_AUTOSTORE : Bits := ⟨0, 1⟩
def AXL_IMASK_MASK : Bits := ⟨0, 9⟩
def AXL_AUTO_TIME_TIME : Bits := ⟨0, 16⟩
def AXL_RESTORE_SKIPPED : Bits := ⟨16, 16⟩
def AXL_RESTORE_RESTORED : Bits := ⟨0, 16⟩
def AXL_REC_STAT_VALID : Bits := ⟨31, 1⟩
def AXL_REC_STAT_DIRTY : Bits := ⟨30, 1⟩
def AXL_REC_STAT_LOST : Bits := ⟨29, 1⟩
def AXL_REC_STAT_WEAK : Bits := ⟨28, 1⟩
def AXL_REC_STAT_CLASS : Bits := ⟨26, 2⟩
def AXL_REC_STAT_HALF : Bits := ⟨25, 1⟩
def AXL_REC_STAT_POS : Bits := ⟨21, 4⟩
def AXL_REC_STAT_ID : Bits := ⟨0, 16⟩
def MATE_CTL_ALIGN_LIMIT : Bits := ⟨8, 8⟩
def MATE_CTL_RESET_ACCEPT : Bits := ⟨1, 1⟩
def MATE_CTL_PAIR_EN : Bits := ⟨0, 1⟩
def MATE_STAT_ROLE : Bits := ⟨30, 2⟩
def MATE_STAT_ISOLATED : Bits := ⟨29, 1⟩
def MATE_STAT_PARTNER_LOST : Bits := ⟨28, 1⟩
def MATE_STAT_SYNC : Bits := ⟨26, 2⟩
def MATE_STAT_CHANGEOVER_READY : Bits := ⟨25, 1⟩
def MATE_STAT_LINK_UP : Bits := ⟨24, 1⟩
def MATE_STAT_SB_ALIVE : Bits := ⟨23, 1⟩
def MATE_STAT_PARTNER_RESTARTING : Bits := ⟨22, 1⟩
def MATE_STAT_FAIL_WHY : Bits := ⟨0, 8⟩
def MATE_PARTNER_DEVNUM : Bits := ⟨0, 10⟩
def MATE_HIST_REMOTE_RESET : Bits := ⟨10, 1⟩
def MATE_HIST_FWD_LATE : Bits := ⟨9, 1⟩
def MATE_HIST_NOT_READY : Bits := ⟨8, 1⟩
def MATE_HIST_SB_LOST : Bits := ⟨7, 1⟩
def MATE_HIST_ISOLATED : Bits := ⟨6, 1⟩
def MATE_HIST_PARTNER_LOST : Bits := ⟨5, 1⟩
def MATE_HIST_DEMOTED : Bits := ⟨4, 1⟩
def MATE_HIST_PROMOTED : Bits := ⟨3, 1⟩
def MATE_HIST_DETACHED : Bits := ⟨2, 1⟩
def MATE_HIST_PAIR_FAIL : Bits := ⟨1, 1⟩
def MATE_HIST_PAIR_OK : Bits := ⟨0, 1⟩
def MATE_IMASK_MASK : Bits := ⟨0, 11⟩
def MATE_DOM_CFG_EN : Bits := ⟨31, 1⟩
def MATE_DOM_CFG_IPV6 : Bits := ⟨30, 1⟩
def MATE_DOM_CFG_PORT : Bits := ⟨28, 2⟩
def MATE_DOM_CFG_SUB : Bits := ⟨26, 2⟩
def MATE_DOM_CFG_DEVNUM : Bits := ⟨0, 10⟩
def MATE_DOM_UNIT_UNIT : Bits := ⟨0, 16⟩
def MATE_DOM_UDP_DOM_RING : Bits := ⟨16, 6⟩
def MATE_DOM_UDP_PORT : Bits := ⟨0, 16⟩
def MATE_DOM_TO_RETRY : Bits := ⟨8, 8⟩
def MATE_DOM_TO_TO : Bits := ⟨0, 8⟩
def MATE_DOM_HIST_STALE : Bits := ⟨2, 1⟩
def MATE_DOM_HIST_REPLAY : Bits := ⟨1, 1⟩
def MATE_DOM_HIST_AUTH_FAIL : Bits := ⟨0, 1⟩
def MATE_DOM_IMASK_MASK : Bits := ⟨0, 3⟩
def SEC_STAT_LIFECYCLE : Bits := ⟨29, 3⟩
def SEC_STAT_SIGN_REQ : Bits := ⟨28, 1⟩
def SEC_STAT_DEBUG : Bits := ⟨26, 2⟩
def SEC_STAT_DOMAIN_KEY : Bits := ⟨25, 1⟩
def SEC_STAT_ENTROPY_OK : Bits := ⟨24, 1⟩
def SEC_STAT_KEYS : Bits := ⟨16, 8⟩
def SEC_STAT_ID_KEY : Bits := ⟨14, 2⟩
def SEC_STAT_LOG_KEY : Bits := ⟨12, 2⟩
def SEC_HIST_DEBUG_UNLOCK : Bits := ⟨9, 1⟩
def SEC_HIST_ENTROPY_FAIL : Bits := ⟨8, 1⟩
def SEC_HIST_KEY_RETIRED : Bits := ⟨7, 1⟩
def SEC_HIST_LOG_GAP : Bits := ⟨6, 1⟩
def SEC_HIST_LOG_DROP : Bits := ⟨5, 1⟩
def SEC_HIST_ROLLBACK : Bits := ⟨4, 1⟩
def SEC_HIST_TOKEN_ERR : Bits := ⟨3, 1⟩
def SEC_HIST_LC_REFUSED : Bits := ⟨2, 1⟩
def SEC_HIST_REPLAY : Bits := ⟨1, 1⟩
def SEC_HIST_SIG_FAIL : Bits := ⟨0, 1⟩
def SEC_IMASK_MASK : Bits := ⟨0, 10⟩
def SEC_CTL_PERIOD : Bits := ⟨0, 12⟩
def SEC_LC_REQ_KEY : Bits := ⟨24, 8⟩
def SEC_LC_REQ_TARGET : Bits := ⟨0, 3⟩
def SEC_LC_RES_RESULT : Bits := ⟨29, 3⟩
def SEC_FW_SVN_FUSE : Bits := ⟨8, 8⟩
def SEC_FW_SVN : Bits := ⟨0, 8⟩
def SEC_ID_LEFT_LEFT : Bits := ⟨0, 21⟩
def SEC_LOG_CFG_CKPT_LOG2 : Bits := ⟨8, 8⟩
def SEC_LOG_CFG_LOG_LOG2 : Bits := ⟨0, 8⟩
def SEC_LOG_HEAD_HEAD : Bits := ⟨0, 24⟩
def SEC_LOG_TAIL_TAIL : Bits := ⟨0, 24⟩
def FLT_CTL_ALARM_EN : Bits := ⟨0, 5⟩
def FLT_STAT_TESTING : Bits := ⟨31, 1⟩
def FLT_STAT_ALARM : Bits := ⟨30, 1⟩
def FLT_STAT_LASTING : Bits := ⟨20, 7⟩
def FLT_STAT_COUNT : Bits := ⟨0, 7⟩
def FLT_HIST_UNFENCE_ERR : Bits := ⟨4, 1⟩
def FLT_HIST_FLT_QUEUE_OVF : Bits := ⟨3, 1⟩
def FLT_HIST_LASTING : Bits := ⟨2, 1⟩
def FLT_HIST_TRANSIENT : Bits := ⟨1, 1⟩
def FLT_HIST_NEW : Bits := ⟨0, 1⟩
def FLT_IMASK_MASK : Bits := ⟨0, 5⟩
def FLT_SEL_SLOT : Bits := ⟨0, 6⟩
def FLT_ACK_SEQ : Bits := ⟨16, 16⟩
def FLT_ACK_SLOT : Bits := ⟨0, 6⟩
def FLT_UNFENCE_GO : Bits := ⟨31, 1⟩
def FLT_UNFENCE_UNIT : Bits := ⟨0, 20⟩
def FLT_UNIT_SEL_UNIT : Bits := ⟨0, 20⟩
def FLT_UNIT_CNT_FENCED : Bits := ⟨31, 1⟩
def FLT_UNIT_CNT_RETEST : Bits := ⟨30, 1⟩
def FLT_UNIT_CNT_ERRORS : Bits := ⟨12, 12⟩
def FLT_UNIT_CNT_TRANSIENT : Bits := ⟨0, 12⟩
end F

/-- One register, or one array of registers, of a block: offset in the block, strides and counts of its two
indices, the masks of its RW, RWS, RW1C and WO bits (Table 0-3) and its reset value. -/
structure RegRow where
  off   : Nat
  s1    : Nat
  n1    : Nat
  s2    : Nat
  n2    : Nat
  rw    : Nat
  rws   : Nat
  w1c   : Nat
  wo    : Nat
  reset : Nat
deriving DecidableEq, Repr

/-- Offset `o` of the block lies on this register. -/
def rowHas (o : Nat) (r : RegRow) : Bool :=
  decide (r.off ≤ o) && decide ((o - r.off) / r.s1 < r.n1) && decide ((o - r.off) % r.s1 / r.s2 < r.n2)
    && decide ((o - r.off) % r.s1 % r.s2 = 0)

/-- GLB registers (Tables 0-2, 11-2). -/
def glbRows : List RegRow := [
  ⟨0x0, 0x4, 1, 0x4, 1, 0x0, 0x0, 0x0, 0x0, 0x4B597272⟩,
  ⟨0x4, 0x4, 1, 0x4, 1, 0x0, 0x0, 0x0, 0x0, 0xB0⟩,
  ⟨0x8, 0x4, 1, 0x4, 1, 0x0, 0x0, 0x0, 0x0, 0x0⟩,
  ⟨0x10, 0x4, 1, 0x4, 1, 0x0, 0x0, 0x0, 0x0, 0x0⟩,
  ⟨0x14, 0x4, 1, 0x4, 1, 0x0, 0x0, 0x1F, 0x0, 0x0⟩,
  ⟨0x18, 0x4, 1, 0x4, 1, 0x1F, 0x0, 0x0, 0x0, 0x0⟩,
  ⟨0x1C, 0x4, 1, 0x4, 1, 0x0, 0x0, 0x0, 0x0, 0x0⟩]

/-- SDI receive lane registers (Table 2-3). -/
def srxRows : List RegRow := [
  ⟨0x0, 0x4, 1, 0x4, 1, 0x0, 0xFF3, 0x0, 0x0, 0x801⟩,
  ⟨0x4, 0x4, 1, 0x4, 1, 0x0, 0x0, 0x0, 0x0, 0xFF0000⟩,
  ⟨0x8, 0x4, 1, 0x4, 1, 0x0, 0x0, 0x0, 0x0, 0x0⟩,
  ⟨0xC, 0x4, 1, 0x4, 1, 0x0, 0x0, 0xFF, 0x0, 0x0⟩,
  ⟨0x10, 0x4, 1, 0x4, 1, 0xFF, 0x0, 0x0, 0x0, 0x0⟩,
  ⟨0x14, 0x4, 1, 0x4, 1, 0x0, 0x0, 0x0, 0x0, 0x0⟩,
  ⟨0x20, 0x4, 1, 0x4, 1, 0x0, 0x0, 0x0, 0x0, 0x0⟩,
  ⟨0x24, 0x4, 1, 0x4, 1, 0x0, 0x0, 0x0, 0x0, 0x0⟩,
  ⟨0x28, 0x4, 1, 0x4, 1, 0x0, 0x0, 0x0, 0x0, 0x0⟩]

/-- SDI transmit lane registers (Table 2-6). -/
def stxRows : List RegRow := [
  ⟨0x0, 0x4, 1, 0x4, 1, 0x0, 0x1F0B, 0x0, 0x0, 0x9⟩,
  ⟨0x4, 0x4, 1, 0x4, 1, 0x0, 0x0, 0x0, 0x0, 0x50⟩,
  ⟨0x8, 0x4, 1, 0x4, 1, 0x0, 0xFFFFFFFF, 0x0, 0x0, 0x0⟩]

/-- QE port registers (Table 2-10). -/
def qeRows : List RegRow := [
  ⟨0x0, 0x4, 1, 0x4, 1, 0x0, 0xFF, 0x0, 0x0, 0xF1⟩,
  ⟨0x4, 0x4, 1, 0x4, 1, 0x0, 0x0, 0x0, 0x0, 0x0⟩,
  ⟨0x8, 0x4, 1, 0x4, 1, 0x0, 0x0, 0x7F, 0x0, 0x0⟩,
  ⟨0xC, 0x4, 1, 0x4, 1, 0x7F, 0x0, 0x0, 0x0, 0x0⟩,
  ⟨0x100, 0x20, 4, 0x20, 1, 0x0, 0x0, 0x0, 0x0, 0x0⟩,
  ⟨0x104, 0x20, 4, 0x20, 1, 0x0, 0x0, 0x0, 0x0, 0x0⟩,
  ⟨0x108, 0x20, 4, 0x20, 1, 0x0, 0x0, 0x0, 0x0, 0x0⟩,
  ⟨0x10C, 0x20, 4, 0x20, 1, 0x0, 0x0, 0x0, 0x0, 0x0⟩,
  ⟨0x200, 0x40, 4, 0x40, 1, 0x0, 0xFFFFFFFF, 0x0, 0x0, 0x0⟩,
  ⟨0x204, 0x40, 4, 0x40, 1, 0x0, 0xFFFF, 0x0, 0x0, 0x0⟩,
  ⟨0x208, 0x40, 4, 0x40, 1, 0x0, 0xFFFFFFFF, 0x0, 0x0, 0x0⟩,
  ⟨0x210, 0x40, 4, 0x4, 4, 0x0, 0xFFFFFFFF, 0x0, 0x0, 0x0⟩,
  ⟨0x220, 0x40, 4, 0x40, 1, 0x0, 0xFFFFFFFF, 0x0, 0x0, 0x0⟩]

/-- XPT registers (Tables 3-8, 5-2, 5-7). -/
def xptRows : List RegRow := [
  ⟨0x0, 0x4, 1, 0x4, 1, 0x0, 0xFF0F01, 0x0, 0x0, 0x20601⟩,
  ⟨0x4, 0x4, 1, 0x4, 1, 0x0, 0x0, 0x100000, 0x0, 0x60000⟩,
  ⟨0x8, 0x4, 1, 0x4, 1, 0x0, 0x0, 0x0, 0x0, 0x0⟩,
  ⟨0xC, 0x4, 1, 0x4, 1, 0x0, 0x0, 0x0, 0x0, 0x0⟩,
  ⟨0x10, 0x4, 1, 0x4, 1, 0x1F, 0x0, 0x0, 0x0, 0x0⟩,
  ⟨0x100, 0x4, 16, 0x4, 1, 0x0, 0x0, 0x0, 0x0, 0x0⟩,
  ⟨0x200, 0x8, 8, 0x8, 1, 0x0, 0xFF0003, 0x0, 0x0, 0x1⟩,
  ⟨0x204, 0x8, 8, 0x8, 1, 0x0, 0xFFFFFFFF, 0x0, 0x0, 0x0⟩,
  ⟨0x1000, 0x4, 512, 0x4, 1, 0x0, 0x1, 0x0, 0x0, 0x0⟩,
  ⟨0x2000, 0x10, 512, 0x10, 1, 0x0, 0xF00001FF, 0x0, 0x0, 0x0⟩,
  ⟨0x2004, 0x10, 512, 0x10, 1, 0x0, 0xE7FFFFFF, 0x0, 0x0, 0x801E0000⟩,
  ⟨0x2008, 0x10, 512, 0x10, 1, 0x0, 0x0, 0x0, 0x0, 0x0⟩,
  ⟨0x200C, 0x10, 512, 0x10, 1, 0x0, 0x0, 0xF, 0x0, 0x0⟩,
  ⟨0x6000, 0x8, 512, 0x8, 1, 0x0, 0x0, 0x0, 0x0, 0x0⟩,
  ⟨0x6004, 0x8, 512, 0x8, 1, 0x0, 0x0, 0x0, 0x0, 0x0⟩,
  ⟨0x7000, 0x8, 512, 0x8, 1, 0x0, 0x0, 0x0, 0x0, 0x0⟩,
  ⟨0x7004, 0x8, 512, 0x8, 1, 0x0, 0x0, 0x0, 0x0, 0x0⟩,
  ⟨0x8000, 0x4, 512, 0x4, 1, 0x0, 0x0, 0x0, 0x0, 0x0⟩,
  ⟨0xA000, 0x20, 16, 0x20, 1, 0x0, 0xFFFFFFFF, 0x0, 0x0, 0x0⟩,
  ⟨0xA004, 0x20, 16, 0x20, 1, 0x0, 0xFFFFFFFF, 0x0, 0x0, 0x0⟩,
  ⟨0xA008, 0x20, 16, 0x20, 1, 0x0, 0xFFFFFFFF, 0x0, 0x0, 0x0⟩,
  ⟨0xA00C, 0x20, 16, 0x20, 1, 0x0, 0x8FFFF000, 0x0, 0x0, 0x0⟩,
  ⟨0xA010, 0x20, 16, 0x20, 1, 0x0, 0x0, 0x20000000, 0x0, 0x0⟩,
  ⟨0xB000, 0x4, 512, 0x4, 1, 0x0, 0x8000FFFF, 0x0, 0x0, 0x80000032⟩,
  ⟨0xB800, 0x4, 16, 0x4, 1, 0x0, 0x0, 0x0, 0x0, 0x0⟩,
  ⟨0xB840, 0x4, 1, 0x4, 1, 0x1, 0x0, 0x0, 0x0, 0x0⟩,
  ⟨0xC000, 0x4, 512, 0x4, 1, 0x0, 0x0, 0x40000000, 0x0, 0x0⟩]

/-- FST registers (Table 4-14). -/
def fstRows : List RegRow := [
  ⟨0x0, 0x4, 1, 0x4, 1, 0x0, 0xFF03, 0x0, 0x0, 0x1001⟩,
  ⟨0x4, 0x4, 1, 0x4, 1, 0x0, 0x0, 0x0, 0x0, 0x3F80⟩,
  ⟨0x8, 0x4, 1, 0x4, 1, 0x0, 0x0, 0x0, 0x0, 0x2000⟩,
  ⟨0xC, 0x4, 1, 0x4, 1, 0x0, 0x0, 0x0, 0x0, 0x800⟩,
  ⟨0x10, 0x4, 1, 0x4, 1, 0x0, 0x0, 0x0, 0x0, 0x0⟩,
  ⟨0x14, 0x4, 1, 0x4, 1, 0x0, 0x0, 0x0, 0x0, 0x28F5⟩,
  ⟨0x18, 0x4, 1, 0x4, 1, 0x0, 0x0, 0x1F, 0x0, 0x0⟩,
  ⟨0x1C, 0x4, 1, 0x4, 1, 0x1F, 0x0, 0x0, 0x0, 0x0⟩,
  ⟨0x20, 0x4, 1, 0x4, 1, 0x0, 0x0, 0x0, 0x0, 0x0⟩,
  ⟨0x24, 0x4, 1, 0x4, 1, 0x0, 0x0, 0x0, 0x0, 0x0⟩,
  ⟨0x28, 0x4, 1, 0x4, 1, 0x0, 0x0, 0x0, 0x0, 0x80⟩,
  ⟨0x100, 0x4, 64, 0x4, 1, 0x0, 0x0, 0x0, 0x0, 0x200FE⟩,
  ⟨0x1000, 0x10, 168, 0x10, 1, 0x0, 0x0, 0x0, 0x0, 0x7FF⟩,
  ⟨0x1004, 0x10, 168, 0x10, 1, 0x0, 0x0, 0x0, 0x0, 0x0⟩,
  ⟨0x1008, 0x10, 168, 0x10, 1, 0x0, 0x0, 0x0, 0x0, 0x0⟩,
  ⟨0x100C, 0x10, 168, 0x10, 1, 0x0, 0x0, 0x0, 0x0, 0x0⟩,
  ⟨0x4000, 0x8, 2048, 0x8, 1, 0x0, 0x0, 0x0, 0x0, 0x0⟩,
  ⟨0x4004, 0x8, 2048, 0x8, 1, 0x0, 0x0, 0x0, 0x0, 0x0⟩,
  ⟨0x8000, 0x4, 8192, 0x4, 1, 0x0, 0x0, 0x0, 0x0, 0x0⟩]

/-- CHE registers (Table 4-15). -/
def cheRows : List RegRow := [
  ⟨0x0, 0x4, 1, 0x4, 1, 0x0, 0xFF01, 0x0, 0x0, 0x8001⟩,
  ⟨0x4, 0x4, 1, 0x4, 1, 0x0, 0x0, 0x0, 0x0, 0x80000000⟩,
  ⟨0x8, 0x4, 1, 0x4, 1, 0x0, 0x0, 0x0, 0x0, 0x7D0⟩,
  ⟨0xC, 0x4, 1, 0x4, 1, 0x0, 0x0, 0x0, 0x0, 0x0⟩,
  ⟨0x10, 0x4, 1, 0x4, 1, 0x0, 0x0, 0xF, 0x0, 0x0⟩,
  ⟨0x14, 0x4, 1, 0x4, 1, 0xF, 0x0, 0x0, 0x0, 0x0⟩,
  ⟨0x18, 0x4, 1, 0x4, 1, 0x0, 0x0, 0x0, 0x0, 0x0⟩,
  ⟨0x1C, 0x4, 1, 0x4, 1, 0x0, 0x0, 0x0, 0x0, 0x0⟩,
  ⟨0x100, 0x10, 16, 0x10, 1, 0x0, 0x0, 0x0, 0x0, 0x3FFFFF⟩,
  ⟨0x104, 0x10, 16, 0x10, 1, 0x0, 0x0, 0x0, 0x0, 0x0⟩,
  ⟨0x108, 0x10, 16, 0x10, 1, 0x0, 0x0, 0x0, 0x0, 0x0⟩,
  ⟨0x10C, 0x10, 16, 0x10, 1, 0x0, 0x0, 0x0, 0x0, 0x0⟩]

/-- SOU registers (Table 5-8): offsets of one set. -/
def souRows : List RegRow := [
  ⟨0x0, 0x4, 1, 0x4, 1, 0x0, 0xFFFF01, 0x0, 0x0, 0x190A01⟩,
  ⟨0x4, 0x4, 1, 0x4, 1, 0x0, 0x0, 0x0, 0x0, 0x0⟩,
  ⟨0x8, 0x4, 1, 0x4, 1, 0x0, 0x0, 0x0, 0x0, 0x0⟩,
  ⟨0xC, 0x4, 1, 0x4, 1, 0x0, 0x0, 0x3F, 0x0, 0x0⟩,
  ⟨0x10, 0x4, 1, 0x4, 1, 0x3F, 0x0, 0x0, 0x0, 0x0⟩,
  ⟨0x14, 0x4, 1, 0x4, 1, 0x0, 0x0, 0x0, 0x0, 0x0⟩,
  ⟨0x18, 0x4, 1, 0x4, 1, 0x0, 0x0, 0x0, 0x0, 0x0⟩,
  ⟨0x1C, 0x4, 1, 0x4, 1, 0x0, 0x0, 0x0, 0x0, 0x0⟩,
  ⟨0x20, 0x4, 1, 0x4, 1, 0x0, 0x0, 0x0, 0x0, 0x0⟩,
  ⟨0x24, 0x4, 1, 0x4, 1, 0x0, 0x0, 0x0, 0x0, 0x0⟩,
  ⟨0x40, 0x4, 1, 0x4, 1, 0x0, 0xFF3800, 0x0, 0x0, 0xFF0000⟩,
  ⟨0x44, 0x4, 1, 0x4, 1, 0x0, 0x1FFF3FFF, 0x0, 0x0, 0x0⟩,
  ⟨0x48, 0x4, 1, 0x4, 1, 0x0, 0x9FFF1FFF, 0x0, 0x0, 0x0⟩,
  ⟨0x4C, 0x4, 1, 0x4, 1, 0x0, 0xFFFFFFFF, 0x0, 0x0, 0x4080200⟩,
  ⟨0x50, 0x4, 1, 0x4, 1, 0x0, 0xF3, 0x0, 0x0, 0x1⟩,
  ⟨0x60, 0x10, 3, 0x10, 1, 0x0, 0xFFFF07FF, 0x0, 0x0, 0xFF07FF⟩,
  ⟨0x64, 0x10, 3, 0x10, 1, 0x0, 0x1FFF1FFF, 0x0, 0x0, 0x0⟩,
  ⟨0x68, 0x10, 3, 0x10, 1, 0x0, 0x3FF03FF, 0x0, 0x0, 0x3AC0040⟩,
  ⟨0x6C, 0x10, 3, 0x10, 1, 0x0, 0x0, 0x0, 0x0, 0x0⟩]

/-- AUD registers (Table 6-9). -/
def audRows : List RegRow := [
  ⟨0x0, 0x4, 1, 0x4, 1, 0x0, 0xFFFFFF, 0x0, 0x0, 0x280808⟩,
  ⟨0x4, 0x4, 1, 0x4, 1, 0x0, 0x0, 0x0, 0x0, 0x0⟩,
  ⟨0x8, 0x4, 1, 0x4, 1, 0x0, 0x0, 0x0, 0x0, 0x0⟩,
  ⟨0xC, 0x4, 1, 0x4, 1, 0x0, 0x0, 0x3F, 0x0, 0x0⟩,
  ⟨0x10, 0x4, 1, 0x4, 1, 0x3F, 0x0, 0x0, 0x0, 0x0⟩,
  ⟨0x14, 0x4, 1, 0x4, 1, 0x0, 0x0, 0x0, 0x0, 0x0⟩,
  ⟨0x20, 0x4, 1, 0x4, 1, 0x0, 0x0, 0x0, 0x0, 0x0⟩,
  ⟨0x24, 0x4, 1, 0x4, 1, 0x0, 0x0, 0x0, 0x0, 0x0⟩,
  ⟨0x28, 0x4, 1, 0x4, 1, 0x0, 0x0, 0x0, 0x0, 0x0⟩,
  ⟨0x2C, 0x4, 1, 0x4, 1, 0x0, 0x0, 0x0, 0x0, 0x0⟩,
  ⟨0x1000, 0x10, 512, 0x4, 4, 0x0, 0xFFFFFFE0, 0x0, 0x0, 0x0⟩,
  ⟨0x3000, 0x4, 160, 0x4, 1, 0x0, 0x0, 0x0, 0x0, 0x0⟩,
  ⟨0x10000, 0x10, 4096, 0x10, 1, 0x0, 0x0, 0x0, 0x0, 0x0⟩,
  ⟨0x10004, 0x10, 4096, 0x10, 1, 0x0, 0x0, 0x0, 0x0, 0x0⟩,
  ⟨0x10008, 0x10, 4096, 0x10, 1, 0x0, 0x0, 0x0, 0x0, 0x0⟩,
  ⟨0x1000C, 0x10, 4096, 0x10, 1, 0x0, 0x0, 0x0, 0x0, 0x0⟩]

/-- SAP registers (Table 6-10). -/
def sapRows : List RegRow := [
  ⟨0x0, 0x4, 1, 0x4, 1, 0x0, 0xFFFFE01, 0x0, 0x0, 0x1682000⟩,
  ⟨0x8, 0x4, 1, 0x4, 1, 0x0, 0xFFFFFF, 0x0, 0x0, 0x0⟩,
  ⟨0xC, 0x4, 1, 0x4, 1, 0x0, 0xFFFFFF, 0x0, 0x0, 0x0⟩,
  ⟨0x10, 0x4, 1, 0x4, 1, 0x0, 0xFFFFFFFF, 0x0, 0x0, 0xFFFFFFFF⟩,
  ⟨0x14, 0x4, 1, 0x4, 1, 0x0, 0xFFFFFFFF, 0x0, 0x0, 0xFFFFFFFF⟩,
  ⟨0x18, 0x4, 1, 0x4, 1, 0x0, 0x0, 0x0, 0x0, 0x0⟩,
  ⟨0x1C, 0x4, 1, 0x4, 1, 0x0, 0x0, 0x0, 0x0, 0x0⟩,
  ⟨0x20, 0x4, 1, 0x4, 1, 0x0, 0x0, 0x1F, 0x0, 0x0⟩,
  ⟨0x24, 0x4, 1, 0x4, 1, 0x1F, 0x0, 0x0, 0x0, 0x0⟩,
  ⟨0x28, 0x4, 1, 0x4, 1, 0x0, 0x0, 0x0, 0x0, 0x0⟩]

/-- AESI and AESO registers (Table 6-11). -/
def aesRows : List RegRow := [
  ⟨0x0, 0x4, 1, 0x4, 1, 0x0, 0x3, 0x0, 0x0, 0x0⟩,
  ⟨0x4, 0x4, 1, 0x4, 1, 0x0, 0x0, 0x0, 0x0, 0x0⟩,
  ⟨0x8, 0x4, 6, 0x4, 1, 0x0, 0x0, 0x0, 0x0, 0x0⟩,
  ⟨0x20, 0x4, 1, 0x4, 1, 0x0, 0x0, 0x0, 0x0, 0x0⟩,
  ⟨0x24, 0x4, 1, 0x4, 1, 0x0, 0x0, 0x1F, 0x0, 0x0⟩,
  ⟨0x28, 0x4, 1, 0x4, 1, 0x1F, 0x0, 0x0, 0x0, 0x0⟩,
  ⟨0x2C, 0x4, 1, 0x4, 1, 0x0, 0x0, 0x0, 0x0, 0x0⟩,
  ⟨0x80, 0x4, 1, 0x4, 1, 0x0, 0x1F, 0x0, 0x0, 0x0⟩,
  ⟨0x84, 0x4, 1, 0x4, 1, 0x0, 0x0, 0x0, 0x0, 0x0⟩,
  ⟨0x88, 0x4, 1, 0x4, 1, 0x0, 0x0, 0x0, 0x0, 0x0⟩,
  ⟨0x8C, 0x4, 1, 0x4, 1, 0x0, 0x0, 0x0, 0x0, 0x0⟩]

/-- REF registers (Table 7-6). -/
def refRows : List RegRow := [
  ⟨0x0, 0x4, 1, 0x4, 1, 0x0, 0xFF0003, 0x0, 0x0, 0x90000⟩,
  ⟨0x4, 0x4, 1, 0x4, 1, 0x0, 0x0, 0x0, 0x0, 0xFF00000⟩,
  ⟨0x8, 0x4, 1, 0x4, 1, 0x0, 0x0, 0x7F, 0x0, 0x0⟩,
  ⟨0xC, 0x4, 1, 0x4, 1, 0x7F, 0x0, 0x0, 0x0, 0x0⟩,
  ⟨0x10, 0x4, 1, 0x4, 1, 0x0, 0x3FFF, 0x0, 0x0, 0x64⟩,
  ⟨0x14, 0x4, 1, 0x4, 1, 0x0, 0xFF00FFFF, 0x0, 0x0, 0xA000014⟩,
  ⟨0x18, 0x4, 1, 0x4, 1, 0x0, 0xFFF, 0x0, 0x0, 0xA⟩,
  ⟨0x1C, 0x4, 1, 0x4, 1, 0x0, 0xFFF, 0x0, 0x0, 0x258⟩,
  ⟨0x20, 0x4, 1, 0x4, 1, 0x0, 0xFFFFFFFF, 0x0, 0x0, 0x0⟩,
  ⟨0x24, 0x4, 1, 0x4, 1, 0x0, 0xFFFFFFFF, 0x0, 0x0, 0x0⟩,
  ⟨0x28, 0x4, 1, 0x4, 1, 0x0, 0xFFFFFFFF, 0x0, 0x0, 0x0⟩,
  ⟨0x2C, 0x4, 1, 0x4, 1, 0x0, 0x0, 0x0, 0x0, 0x0⟩,
  ⟨0x30, 0x4, 1, 0x4, 1, 0x0, 0x1FF0000, 0x0, 0x0, 0x1E0000⟩,
  ⟨0x34, 0x4, 1, 0x4, 1, 0x0, 0xFFFFFFFF, 0x0, 0x0, 0x640014⟩,
  ⟨0x38, 0x4, 1, 0x4, 1, 0x0, 0xFFFFFFFF, 0x0, 0x0, 0x3E8⟩,
  ⟨0x3C, 0x4, 1, 0x4, 1, 0x0, 0x0, 0x0, 0x0, 0x0⟩,
  ⟨0x40, 0x4, 1, 0x4, 1, 0x0, 0x0, 0x0, 0x0, 0x0⟩,
  ⟨0x44, 0x4, 1, 0x4, 1, 0x0, 0x0, 0x0, 0x0, 0x0⟩,
  ⟨0x48, 0x4, 1, 0x4, 1, 0x0, 0x0, 0x0, 0x0, 0x0⟩,
  ⟨0x4C, 0x4, 1, 0x4, 1, 0x0, 0x0, 0x0, 0x0, 0x0⟩,
  ⟨0x50, 0x4, 1, 0x4, 1, 0x0, 0x0, 0x0, 0x0, 0x0⟩,
  ⟨0x54, 0x4, 1, 0x4, 1, 0x0, 0x0, 0x0, 0x0, 0x0⟩,
  ⟨0x58, 0x4, 1, 0x4, 1, 0x0, 0x0, 0x0, 0x0, 0x0⟩,
  ⟨0x60, 0x4, 1, 0x4, 1, 0x0, 0x0, 0x0, 0xFFFFFFFF, 0x0⟩,
  ⟨0x64, 0x4, 1, 0x4, 1, 0x0, 0x0, 0x0, 0xFFFF, 0x0⟩,
  ⟨0x100, 0x20, 8, 0x20, 1, 0x0, 0xFC7F7F01, 0x0, 0x0, 0xC007F00⟩,
  ⟨0x104, 0x20, 8, 0x20, 1, 0x0, 0xFFFFFFFF, 0x0, 0x0, 0x0⟩,
  ⟨0x108, 0x20, 8, 0x20, 1, 0x0, 0x0, 0x0, 0x0, 0x20FF0000⟩,
  ⟨0x10C, 0x20, 8, 0x20, 1, 0x0, 0x0, 0x0, 0x0, 0x0⟩,
  ⟨0x110, 0x20, 8, 0x20, 1, 0x0, 0x0, 0x0, 0x0, 0x80000000⟩,
  ⟨0x114, 0x20, 8, 0x20, 1, 0x0, 0x0, 0xF, 0x0, 0x0⟩,
  ⟨0x118, 0x20, 8, 0x20, 1, 0xF, 0x0, 0x0, 0x0, 0x0⟩,
  ⟨0x400, 0x8, 8, 0x8, 1, 0x0, 0xCF003FFF, 0x0, 0x0, 0x6000064⟩,
  ⟨0x404, 0x8, 8, 0x8, 1, 0x0, 0xFFFFFFFF, 0x0, 0x0, 0x0⟩]

/-- SYN registers (Table 8-4). -/
def synRows : List RegRow := [
  ⟨0x0, 0x4, 1, 0x4, 1, 0x0, 0x0, 0x0, 0x0, 0x0⟩,
  ⟨0x100, 0x100, 16, 0x100, 1, 0x0, 0xF3D, 0x0, 0x0, 0x309⟩,
  ⟨0x104, 0x100, 16, 0x100, 1, 0x0, 0x0, 0x0, 0x0, 0x300000⟩,
  ⟨0x108, 0x100, 16, 0x100, 1, 0x0, 0x0, 0x3F, 0x0, 0x0⟩,
  ⟨0x10C, 0x100, 16, 0x100, 1, 0x3F, 0x0, 0x0, 0x0, 0x0⟩,
  ⟨0x110, 0x100, 16, 0x100, 1, 0x0, 0x0, 0x0, 0x0, 0x0⟩,
  ⟨0x114, 0x100, 16, 0x100, 1, 0x0, 0x0, 0x0, 0x0, 0x0⟩,
  ⟨0x118, 0x100, 16, 0x100, 1, 0x0, 0xFFFF, 0x0, 0x0, 0x44C⟩,
  ⟨0x11C, 0x100, 16, 0x100, 1, 0x0, 0x0, 0x0, 0x0, 0x0⟩,
  ⟨0x120, 0x100, 16, 0x100, 1, 0x0, 0xFFFFFFFF, 0x0, 0x0, 0x3E803E8⟩,
  ⟨0x124, 0x100, 16, 0x100, 1, 0x0, 0x7, 0x0, 0xC0000000, 0x0⟩,
  ⟨0x140, 0x100, 16, 0x8, 8, 0x0, 0xFFFFFFFF, 0x0, 0x0, 0x0⟩,
  ⟨0x144, 0x100, 16, 0x8, 8, 0x0, 0x3FFF, 0x0, 0x0, 0x3E8⟩,
  ⟨0x180, 0x100, 16, 0x4, 16, 0x0, 0x0, 0x0, 0x0, 0x0⟩]

/-- RNG registers (Table 9-12). -/
def rngRows : List RegRow := [
  ⟨0x0, 0x4, 1, 0x4, 1, 0x0, 0x0, 0x0, 0x0, 0x0⟩,
  ⟨0x4, 0x4, 1, 0x4, 1, 0x0, 0x0, 0x0, 0x0, 0x0⟩,
  ⟨0x8, 0x4, 1, 0x4, 1, 0x0, 0x0, 0x3, 0x0, 0x0⟩,
  ⟨0xC, 0x4, 1, 0x4, 1, 0x3, 0x0, 0x0, 0x0, 0x0⟩,
  ⟨0x10, 0x4, 1, 0x4, 1, 0x0, 0x0, 0x0, 0x0, 0x0⟩,
  ⟨0x1000, 0x40, 64, 0x40, 1, 0xFFFFF000, 0x0, 0x0, 0x0, 0x0⟩,
  ⟨0x1004, 0x40, 64, 0x40, 1, 0xFFFFFFFF, 0x0, 0x0, 0x0, 0x0⟩,
  ⟨0x1008, 0x40, 64, 0x40, 1, 0xFFFFF000, 0x0, 0x0, 0x0, 0x0⟩,
  ⟨0x100C, 0x40, 64, 0x40, 1, 0xFFFFFFFF, 0x0, 0x0, 0x0, 0x0⟩,
  ⟨0x1010, 0x40, 64, 0x40, 1, 0x1F001F, 0x0, 0x0, 0x0, 0x40004⟩,
  ⟨0x1014, 0x40, 64, 0x40, 1, 0x1, 0x0, 0x0, 0x2, 0x0⟩,
  ⟨0x1018, 0x40, 64, 0x40, 1, 0xFFFFFF3F, 0x0, 0x0, 0x0, 0x4⟩,
  ⟨0x101C, 0x40, 64, 0x40, 1, 0x0, 0x0, 0x0, 0x0, 0x0⟩,
  ⟨0x1020, 0x40, 64, 0x40, 1, 0x0, 0x0, 0x0, 0x0, 0x10000⟩,
  ⟨0x1024, 0x40, 64, 0x40, 1, 0x0, 0x0, 0x0, 0x0, 0x0⟩,
  ⟨0x1028, 0x40, 64, 0x40, 1, 0x0, 0x0, 0x1F, 0x0, 0x0⟩,
  ⟨0x102C, 0x40, 64, 0x40, 1, 0x1F, 0x0, 0x0, 0x0, 0x0⟩,
  ⟨0x1030, 0x40, 64, 0x40, 1, 0x0, 0x0, 0x0, 0x0, 0x0⟩]

/-- LVP registers (Table 10-9). -/
def lvpRows : List RegRow := [
  ⟨0x0, 0x4, 1, 0x4, 1, 0x0, 0x0, 0x0, 0x0, 0x0⟩,
  ⟨0x4, 0x4, 1, 0x4, 1, 0x0, 0x37F7F, 0x0, 0x0, 0x0⟩,
  ⟨0x8, 0x4, 1, 0x4, 1, 0x0, 0x0, 0xF, 0x0, 0x0⟩,
  ⟨0xC, 0x4, 1, 0x4, 1, 0xF, 0x0, 0x0, 0x0, 0x0⟩,
  ⟨0x10, 0x4, 1, 0x4, 1, 0x0, 0x0, 0x0, 0x0, 0x0⟩,
  ⟨0x14, 0x4, 1, 0x4, 1, 0x0, 0x0, 0x0, 0x0, 0x0⟩]

/-- HSF registers (Table 12-4). -/
def hsfRows : List RegRow := [
  ⟨0x0, 0x4, 1, 0x4, 1, 0x0, 0xFF3F, 0x0, 0x0, 0xA02⟩,
  ⟨0x4, 0x4, 1, 0x4, 1, 0x0, 0x81FFFFFF, 0x0, 0x0, 0x8059B320⟩,
  ⟨0x8, 0x4, 1, 0x4, 1, 0x0, 0x0, 0x0, 0x0, 0x0⟩,
  ⟨0x10, 0x4, 5, 0x4, 1, 0x0, 0x0, 0x0, 0x0, 0x0⟩,
  ⟨0x24, 0x4, 1, 0x4, 1, 0x0, 0x0, 0x0, 0x0, 0x0⟩,
  ⟨0x28, 0x4, 1, 0x4, 1, 0x0, 0x0, 0x0, 0x0, 0x0⟩,
  ⟨0x2C, 0x4, 1, 0x4, 1, 0x0, 0x0, 0x7F, 0x0, 0x0⟩,
  ⟨0x30, 0x4, 1, 0x4, 1, 0x7F, 0x0, 0x0, 0x0, 0x0⟩,
  ⟨0x34, 0x4, 1, 0x4, 1, 0x0, 0x0, 0x0, 0x0, 0xAA⟩,
  ⟨0x38, 0x4, 1, 0x4, 1, 0x0, 0x0, 0x0, 0x0, 0x0⟩,
  ⟨0x100, 0x4, 96, 0x4, 1, 0x0, 0x0, 0x0, 0x0, 0x0⟩,
  ⟨0x1000, 0x4, 250, 0x4, 1, 0x0, 0x0, 0x3, 0x0, 0x0⟩,
  ⟨0x2000, 0x8, 250, 0x8, 1, 0x0, 0x0, 0x0, 0x0, 0x0⟩,
  ⟨0x2004, 0x8, 250, 0x8, 1, 0x0, 0x0, 0x0, 0x0, 0x0⟩]

/-- MTX registers (Table 13-5). -/
def mtxRows : List RegRow := [
  ⟨0x0, 0x4, 1, 0x4, 1, 0x0, 0xFFFF, 0x0, 0x0, 0x3E8⟩,
  ⟨0x4, 0x4, 1, 0x4, 1, 0x0, 0x0, 0x0, 0x0, 0x40000000⟩,
  ⟨0x8, 0x4, 1, 0x4, 1, 0x0, 0x0, 0xF, 0x0, 0x0⟩,
  ⟨0xC, 0x4, 1, 0x4, 1, 0xF, 0x0, 0x0, 0x0, 0x0⟩,
  ⟨0x10, 0x4, 1, 0x4, 1, 0x0, 0x0, 0x0, 0x0, 0x0⟩,
  ⟨0x14, 0x4, 1, 0x4, 1, 0x0, 0x0, 0x0, 0x0, 0x0⟩,
  ⟨0x18, 0x4, 1, 0x4, 1, 0x0, 0x0, 0x0, 0x0, 0x0⟩,
  ⟨0x20, 0x4, 1, 0x4, 1, 0x0, 0x0, 0x0, 0x0, 0x0⟩,
  ⟨0x24, 0x4, 1, 0x4, 1, 0x0, 0x0, 0x0, 0x0, 0x0⟩,
  ⟨0x28, 0x4, 1, 0x4, 1, 0x0, 0x0, 0x0, 0x0, 0x0⟩,
  ⟨0x30, 0x4, 1, 0x4, 1, 0x0, 0x0, 0x0, 0x0, 0x0⟩,
  ⟨0x38, 0x4, 1, 0x4, 1, 0x0, 0x0, 0x0, 0x0, 0x0⟩,
  ⟨0x40, 0x4, 1, 0x4, 1, 0x0, 0x0, 0x0, 0x0, 0x0⟩,
  ⟨0x44, 0x4, 1, 0x4, 1, 0x0, 0x0, 0x0, 0x0, 0x0⟩,
  ⟨0x48, 0x4, 1, 0x4, 1, 0x0, 0x0, 0x0, 0x0, 0x0⟩,
  ⟨0x50, 0x4, 1, 0x4, 1, 0x0, 0x0, 0x0, 0x0, 0x0⟩,
  ⟨0x100, 0x4, 13, 0x4, 1, 0x0, 0x0, 0x0, 0x0, 0x0⟩,
  ⟨0x1000, 0x100, 14, 0x100, 1, 0x0, 0x77777777, 0x0, 0x0, 0x0⟩,
  ⟨0x1004, 0x100, 14, 0x100, 1, 0x0, 0x77777, 0x0, 0x0, 0x0⟩,
  ⟨0x1020, 0x100, 14, 0x10, 8, 0x0, 0x8FFFFFFF, 0x0, 0x0, 0x0⟩,
  ⟨0x1024, 0x100, 14, 0x10, 8, 0x0, 0xFFFFFFF, 0x0, 0x0, 0x0⟩,
  ⟨0x1028, 0x100, 14, 0x10, 8, 0x0, 0x3FFFFFFF, 0x0, 0x0, 0x0⟩,
  ⟨0x102C, 0x100, 14, 0x10, 8, 0x0, 0x1FF, 0x0, 0x0, 0x0⟩]

/-- RST registers (Tables 14-6, 14-7). -/
def rstRows : List RegRow := [
  ⟨0x100, 0x4, 1, 0x4, 1, 0x0, 0x0, 0x0, 0x0, 0x0⟩,
  ⟨0x104, 0x4, 1, 0x4, 1, 0x0, 0x0, 0x0, 0x0, 0x0⟩,
  ⟨0x108, 0x4, 1, 0x4, 1, 0x0, 0x0, 0x0, 0x0, 0x0⟩,
  ⟨0x10C, 0x4, 1, 0x4, 1, 0x0, 0x0, 0x0, 0x0, 0x0⟩,
  ⟨0x110, 0x4, 4, 0x4, 1, 0x0, 0x0, 0x0, 0x0, 0x0⟩,
  ⟨0x120, 0x4, 8, 0x4, 1, 0x0, 0xFFFFFFFF, 0x0, 0x0, 0x0⟩,
  ⟨0x0, 0x4, 1, 0x4, 1, 0x0, 0x0, 0x0, 0x0, 0x0⟩,
  ⟨0x4, 0x4, 1, 0x4, 1, 0x0, 0x0, 0x0, 0x0, 0x0⟩,
  ⟨0x8, 0x4, 1, 0x4, 1, 0x0, 0x3F, 0x0, 0x0, 0x0⟩,
  ⟨0xC, 0x4, 1, 0x4, 1, 0x0, 0x0, 0x0, 0xFF000001, 0x0⟩,
  ⟨0x10, 0x4, 1, 0x4, 1, 0x0, 0x0, 0x1F, 0x0, 0x0⟩,
  ⟨0x14, 0x4, 1, 0x4, 1, 0x1F, 0x0, 0x0, 0x0, 0x0⟩,
  ⟨0x20, 0x4, 1, 0x4, 1, 0x0, 0x0, 0x0, 0xCF0000FF, 0x0⟩,
  ⟨0x24, 0x4, 1, 0x4, 1, 0x0, 0x0, 0x0, 0x0, 0x0⟩,
  ⟨0x1000, 0x400, 10, 0x4, 168, 0x0, 0x0, 0x0, 0x0, 0x0⟩]

/-- AXL registers (Table 15-5). -/
def axlRows : List RegRow := [
  ⟨0x0, 0x4, 1, 0x4, 1, 0x0, 0xE9, 0x0, 0x0, 0x8⟩,
  ⟨0x4, 0x4, 1, 0x4, 1, 0x0, 0x0, 0x0, 0x80000003, 0x0⟩,
  ⟨0x8, 0x4, 1, 0x4, 1, 0x0, 0x0, 0x0, 0x0, 0x80000000⟩,
  ⟨0xC, 0x4, 1, 0x4, 1, 0x0, 0x0, 0x1FD, 0x0, 0x0⟩,
  ⟨0x10, 0x4, 1, 0x4, 1, 0x1FF, 0x0, 0x0, 0x0, 0x0⟩,
  ⟨0x14, 0x4, 1, 0x4, 1, 0x0, 0x0, 0x0, 0x0, 0x0⟩,
  ⟨0x18, 0x4, 1, 0x4, 1, 0x0, 0x0, 0x0, 0x0, 0x0⟩,
  ⟨0x1C, 0x4, 1, 0x4, 1, 0x0, 0x0, 0x0, 0x0, 0x0⟩,
  ⟨0x20, 0x4, 1, 0x4, 1, 0x0, 0x0, 0x0, 0x0, 0x0⟩,
  ⟨0x100, 0x8, 81, 0x8, 1, 0x0, 0x0, 0x0, 0x0, 0x0⟩,
  ⟨0x104, 0x8, 81, 0x8, 1, 0x0, 0x0, 0x0, 0x0, 0x0⟩]

/-- MATE registers (Table 16-6). -/
def mateRows : List RegRow := [
  ⟨0x0, 0x4, 1, 0x4, 1, 0x0, 0xFF03, 0x0, 0x0, 0x600⟩,
  ⟨0x4, 0x4, 1, 0x4, 1, 0x0, 0x0, 0x0, 0x0, 0x0⟩,
  ⟨0x8, 0x4, 1, 0x4, 1, 0x0, 0x0, 0x0, 0x0, 0x0⟩,
  ⟨0xC, 0x4, 1, 0x4, 1, 0x0, 0x0, 0x0, 0x0, 0x0⟩,
  ⟨0x10, 0x4, 1, 0x4, 1, 0x0, 0x0, 0x0, 0x0, 0x0⟩,
  ⟨0x14, 0x4, 1, 0x4, 1, 0x0, 0x0, 0x7FF, 0x0, 0x0⟩,
  ⟨0x18, 0x4, 1, 0x4, 1, 0x7FF, 0x0, 0x0, 0x0, 0x0⟩,
  ⟨0x1C, 0x4, 1, 0x4, 1, 0x0, 0x0, 0x0, 0x0, 0x0⟩,
  ⟨0x20, 0x4, 1, 0x4, 1, 0x0, 0x0, 0x0, 0x0, 0x0⟩,
  ⟨0x100, 0x4, 1, 0x4, 1, 0x0, 0xFC0003FF, 0x0, 0x0, 0x0⟩,
  ⟨0x104, 0x4, 1, 0x4, 1, 0x0, 0xFFFF, 0x0, 0x0, 0x0⟩,
  ⟨0x108, 0x4, 1, 0x4, 1, 0x0, 0x3FFFFF, 0x0, 0x0, 0x3FC848⟩,
  ⟨0x110, 0x4, 4, 0x4, 1, 0x0, 0xFFFFFFFF, 0x0, 0x0, 0x0⟩,
  ⟨0x120, 0x4, 1, 0x4, 1, 0x0, 0xFFFF, 0x0, 0x0, 0x30A⟩,
  ⟨0x124, 0x4, 1, 0x4, 1, 0x0, 0x0, 0x7, 0x0, 0x0⟩,
  ⟨0x128, 0x4, 1, 0x4, 1, 0x0, 0x0, 0x0, 0x0, 0x0⟩,
  ⟨0x12C, 0x4, 1, 0x4, 1, 0x0, 0x0, 0x0, 0x0, 0x0⟩,
  ⟨0x130, 0x4, 1, 0x4, 1, 0x0, 0x0, 0x0, 0x0, 0x0⟩,
  ⟨0x134, 0x4, 1, 0x4, 1, 0x7, 0x0, 0x0, 0x0, 0x0⟩]

/-- SEC registers (Table 17-8). -/
def secRows : List RegRow := [
  ⟨0x0, 0x4, 1, 0x4, 1, 0x0, 0x0, 0x0, 0x0, 0x0⟩,
  ⟨0x4, 0x4, 1, 0x4, 1, 0x0, 0x0, 0x3FF, 0x0, 0x0⟩,
  ⟨0x8, 0x4, 1, 0x4, 1, 0x3FF, 0x0, 0x0, 0x0, 0x0⟩,
  ⟨0xC, 0x4, 1, 0x4, 1, 0x0, 0xFFF, 0x0, 0x0, 0x1⟩,
  ⟨0x10, 0x4, 1, 0x4, 1, 0x0, 0x0, 0x0, 0xFF000007, 0x0⟩,
  ⟨0x14, 0x4, 1, 0x4, 1, 0xFFFFFFFF, 0x0, 0x0, 0x0, 0x0⟩,
  ⟨0x18, 0x4, 1, 0x4, 1, 0xFFFFFFFF, 0x0, 0x0, 0x0, 0x0⟩,
  ⟨0x1C, 0x4, 1, 0x4, 1, 0x0, 0x0, 0x0, 0x0, 0x0⟩,
  ⟨0x20, 0x4, 1, 0x4, 1, 0x0, 0x0, 0x0, 0x0, 0x0⟩,
  ⟨0x24, 0x4, 1, 0x4, 1, 0x0, 0x0, 0x0, 0x0, 0x0⟩,
  ⟨0x28, 0x4, 1, 0x4, 1, 0x0, 0x0, 0x0, 0x0, 0x0⟩,
  ⟨0x2C, 0x4, 1, 0x4, 1, 0x0, 0x0, 0x0, 0x0, 0x0⟩,
  ⟨0x30, 0x4, 1, 0x4, 1, 0x0, 0x0, 0x0, 0x0, 0x0⟩,
  ⟨0x40, 0x4, 1, 0x4, 1, 0xFFFFFFFF, 0x0, 0x0, 0x0, 0x0⟩,
  ⟨0x44, 0x4, 1, 0x4, 1, 0xFFFFFFFF, 0x0, 0x0, 0x0, 0x0⟩,
  ⟨0x48, 0x4, 1, 0x4, 1, 0xFFFF, 0x0, 0x0, 0x0, 0x40C⟩,
  ⟨0x4C, 0x4, 1, 0x4, 1, 0x0, 0x0, 0x0, 0x0, 0x0⟩,
  ⟨0x50, 0x4, 1, 0x4, 1, 0xFFFFFF, 0x0, 0x0, 0x0, 0x0⟩,
  ⟨0x54, 0x4, 1, 0x4, 1, 0xFFFFFFFF, 0x0, 0x0, 0x0, 0x0⟩,
  ⟨0x58, 0x4, 1, 0x4, 1, 0xFFFFFFFF, 0x0, 0x0, 0x0, 0x0⟩,
  ⟨0x5C, 0x4, 1, 0x4, 1, 0x0, 0x0, 0x0, 0x0, 0x0⟩,
  ⟨0x60, 0x4, 1, 0x4, 1, 0x0, 0x0, 0x0, 0x0, 0x0⟩,
  ⟨0x64, 0x4, 1, 0x4, 1, 0x0, 0x0, 0x0, 0x0, 0x0⟩,
  ⟨0x68, 0x4, 1, 0x4, 1, 0x0, 0x0, 0x0, 0x0, 0x0⟩,
  ⟨0x100, 0x8, 8, 0x8, 1, 0x0, 0x0, 0x0, 0x0, 0x0⟩,
  ⟨0x104, 0x8, 8, 0x8, 1, 0x0, 0x0, 0x0, 0x0, 0x0⟩,
  ⟨0x200, 0x4, 8, 0x4, 1, 0x0, 0x0, 0x0, 0x0, 0x0⟩,
  ⟨0x1000, 0x4, 1024, 0x4, 1, 0x0, 0x0, 0x0, 0x0, 0x0⟩]

/-- FLT registers (Table 18-7). -/
def fltRows : List RegRow := [
  ⟨0x0, 0x4, 1, 0x4, 1, 0x0, 0x1F, 0x0, 0x0, 0x1F⟩,
  ⟨0x4, 0x4, 1, 0x4, 1, 0x0, 0x0, 0x0, 0x0, 0x0⟩,
  ⟨0x8, 0x4, 1, 0x4, 1, 0x0, 0x0, 0x1F, 0x0, 0x0⟩,
  ⟨0xC, 0x4, 1, 0x4, 1, 0x1F, 0x0, 0x0, 0x0, 0x0⟩,
  ⟨0x10, 0x4, 1, 0x4, 1, 0x3F, 0x0, 0x0, 0x0, 0x0⟩,
  ⟨0x14, 0x4, 4, 0x4, 1, 0x0, 0x0, 0x0, 0x0, 0x0⟩,
  ⟨0x24, 0x4, 1, 0x4, 1, 0x0, 0x0, 0x0, 0xFFFF003F, 0x0⟩,
  ⟨0x28, 0x4, 1, 0x4, 1, 0x0, 0x0, 0x0, 0x800FFFFF, 0x0⟩,
  ⟨0x30, 0x4, 1, 0x4, 1, 0xFFFFF, 0x0, 0x0, 0x0, 0x0⟩,
  ⟨0x34, 0x4, 1, 0x4, 1, 0x0, 0x0, 0x0, 0x0, 0x0⟩,
  ⟨0x40, 0x4, 1, 0x4, 1, 0x0, 0x0, 0x0, 0x0, 0x0⟩,
  ⟨0x44, 0x4, 1, 0x4, 1, 0x0, 0x0, 0x0, 0x0, 0x0⟩,
  ⟨0x48, 0x4, 1, 0x4, 1, 0x0, 0x0, 0x0, 0x0, 0x0⟩]

/-- The row of the register at BAR0 offset `a`, with the offset in its block; none where no register table names
the offset (R459). SOU offsets fold the pending set onto the active set's rows (R182). -/
def regRow (a : Nat) : Option RegRow :=
  if a < 0x10000 then glbRows.find? (rowHas a)
  else if a < 0x20000 then rstRows.find? (rowHas (a - 0x10000))
  else if a < 0x30000 then mtxRows.find? (rowHas (a - 0x20000))
  else if a < 0x40000 then fltRows.find? (rowHas (a - 0x30000))
  else if a < 0x50000 then refRows.find? (rowHas (a - 0x40000))
  else if a < 0x60000 then synRows.find? (rowHas (a - 0x50000))
  else if a < 0x70000 then secRows.find? (rowHas (a - 0x60000))
  else if a < 0x80000 then axlRows.find? (rowHas (a - 0x70000))
  else if a < 0x90000 then mateRows.find? (rowHas (a - 0x80000))
  else if a < 0xA0000 then hsfRows.find? (rowHas (a - 0x90000))
  else if a < 0xB0000 then lvpRows.find? (rowHas (a - 0xA0000))
  else if a < 0x1000000 then none
  else if a < 0x2000000 then
    let w := (a - 0x1000000) % 0x400000
    if w < 0x1000 then (if w < 18 * 0x40 then srxRows.find? (rowHas (w % 0x40)) else none)
    else if w < 0x2000 then (if w - 0x1000 < 18 * 0x40 then stxRows.find? (rowHas (w % 0x40)) else none)
    else if w < 0x100000 then none
    else if w < 0x101000 then qeRows.find? (rowHas (w - 0x100000))
    else if w < 0x200000 then none
    else if w < 0x203000 then cheRows.find? (rowHas ((w - 0x200000) % 0x1000))
    else if w < 0x300000 then none
    else if w < 0x305000 then
      let o := (w - 0x300000) % 0x200
      if o < 0x100 then souRows.find? (rowHas o)
      else if 0x140 ≤ o then souRows.find? (rowHas (o - 0x100)) else none
    else if w < 0x340000 then none
    else if w < 0x340400 then sapRows.find? (rowHas ((w - 0x340000) % 0x100))
    else if w < 0x350000 then none
    else if w < 0x350400 then aesRows.find? (rowHas ((w - 0x350000) % 0x100))
    else none
  else if a < 0x2100000 then xptRows.find? (rowHas (a - 0x2000000))
  else if a < 0x2200000 then audRows.find? (rowHas (a - 0x2100000))
  else if a < 0x2300000 then fstRows.find? (rowHas (a - 0x2200000))
  else if a < 0x3000000 then none
  else if a < 0x3010000 then rngRows.find? (rowHas (a - 0x3000000))
  else none
/-- Reset value of AUD_ASSOC entry `e` of video source `s` (R201): SDI source n lists channels 0–31 of lane n (class 1), host
ingress source h (sources 328 to 343) channels 0–63 of host stream h (class 5), every other source has an empty list. -/
def assocReset (s e : Nat) : Nat :=
  if e ≠ 0 then 0
  else if s < 72 then 0x10000000 + s * 0x40000 + 32 * 0x20
  else if 328 ≤ s ∧ s < 344 then 0x50000000 + (s - 328) * 0x40000 + 64 * 0x20
  else 0

/-- Reset value of REF_IN_CFG of input `i`: EN and PRIO per Table 7-1, REVERT and TERM 1, PTP_DOMAIN 0x7F (Table 7-6). -/
def refInCfgReset (i : Nat) : Nat :=
  0x0C007F00 + (if i = 0 then 0x10000001 else if i = 1 then 0x20000001 else 0)

/-- The default MTX_TGT_PRIO_LO and _HI of every target: the priorities of masters 0–7 and 8–12 (Table 13-2). -/
def mtxPrioReset (hi : Bool) : Nat := if hi then 0x00027416 else 0x53564444

/-- First matrix page (address bits [39:12]) of target `t` (Table 13-1). -/
def tgtPage (t : Nat) : Nat :=
  match t with
  | 0 => 0x0 | 1 => 0x10000 | 2 => 0x11000 | 3 => 0x12000 | 4 => 0x13000 | 5 => 0x20000 | 6 => 0x30000
  | 7 => 0x40000 | 8 => 0x41000 | 9 => 0x41400 | 10 => 0x41800 | 11 => 0x41C00 | 12 => 0x50000 | _ => 0x8000000

/-- Last matrix page of target `t` (Table 13-1); the PBC bridge's range reaches to BAR0 offset 0x03FF_FFFF, RET's last page
holds the backup registers. -/
def tgtLastPage (t : Nat) : Nat :=
  match t with
  | 0 => 0x3F | 1 => 0x103FF | 2 => 0x117FF | 3 => 0x1207F | 4 => 0x13010 | 5 => 0x200FF | 6 => 0x33FFF
  | 7 => 0x43FFF | 8 => 0x413FF | 9 => 0x417FF | 10 => 0x41BFF | 11 => 0x41FFF | 12 => 0x500FF | _ => 0xFFFFFFF

/-- The masters a default region lets read, write and execute (Table 13-3), as lists of master IDs. -/
def rgnDefault (t r : Nat) : List Nat × List Nat × List Nat :=
  match t, r with
  | 0, 7 => ([0, 1, 2, 3, 4, 10, 12], [], [0, 1, 2, 3, 4, 10])
  | 1, 7 => ([0, 1, 2, 3, 4, 10, 12], [10, 12], [0, 1, 2, 3])
  | 2, 7 => ([0, 1, 2, 3, 4, 5, 7, 8, 11, 12], [0, 1, 2, 3, 4, 5, 7, 8, 11, 12], [])
  | 3, 0 => ([4, 11], [4, 11], [])
  | 3, 7 => ([0, 1, 2, 3, 4, 11, 12], [0, 1, 2, 3, 4, 11, 12], [])
  | 4, 7 => ([0, 1, 2, 3, 4, 10], [0, 1, 2, 3, 4, 10], [])
  | 5, 7 => ([4, 11], [4, 11], [])
  | 6, 7 => ([0, 1, 2, 3, 4, 10], [0, 1, 2, 3, 10], [])
  | 7, 0 => ([0, 1, 2, 3, 4, 5, 6, 7, 8, 9, 12], [4], [])
  | 12, 7 => ([0, 1, 2, 3, 4], [0, 1, 2, 3, 4], [])
  | 13, 7 => ([0, 1, 2, 3], [0, 1, 2, 3], [])
  | 7, 7 => ([0, 1, 2, 3, 4, 5, 6, 7, 8, 9, 12], [0, 1, 2, 3, 4, 5, 6, 7, 8, 9, 12], [])
  | 8, 7 => ([0, 1, 2, 3, 4, 5, 6, 7, 8, 9, 12], [0, 1, 2, 3, 4, 5, 6, 7, 8, 9, 12], [])
  | 9, 7 => ([0, 1, 2, 3, 4, 5, 6, 7, 8, 9, 12], [0, 1, 2, 3, 4, 5, 6, 7, 8, 9, 12], [])
  | 10, 7 => ([0, 1, 2, 3, 4, 5, 6, 7, 8, 9, 12], [0, 1, 2, 3, 4, 5, 6, 7, 8, 9, 12], [])
  | 11, 7 => ([0, 1, 2, 3, 4, 5, 6, 7, 8, 9, 12], [0, 1, 2, 3, 4, 5, 6, 7, 8, 9, 12], [])
  | _, _ => ([], [], [])

/-- A default region is enabled where Table 13-3 lists it. -/
def rgnEnabled (t r : Nat) : Bool :=
  (r == 7 && decide (t < 14)) || (r == 0 && (t == 3 || t == 7))

/-- First and last page of a default region: region 0 of AXL holds records 1 to 6, region 0 of PBC the MTX tables, region 7
the whole target. -/
def rgnPages (t r : Nat) : Nat × Nat :=
  if r = 0 ∧ t = 3 then (0x12000, 0x12011)
  else if r = 0 ∧ t = 7 then (0x40021, 0x4002F)
  else (tgtPage t, tgtLastPage t)

/-- PERM bits of masters `lo` to `lo + n - 1` of a default region. -/
def rgnPermBits (t r lo n : Nat) : Nat :=
  let (rd, wr, ex) := rgnDefault t r
  (List.range n).foldl (fun acc k =>
    acc + ((if rd.contains (lo + k) then 1 else 0) + (if wr.contains (lo + k) then 2 else 0)
      + (if ex.contains (lo + k) then 4 else 0)) * 8 ^ k) 0

/-- Reset value of the MTX target register at offset `o` of target `t` (Tables 13-2, 13-3). -/
def mtxTgtReset (t o : Nat) : Nat :=
  if o = 0 then mtxPrioReset false
  else if o = 4 then mtxPrioReset true
  else if o < 0x20 ∨ 0xA0 ≤ o then 0
  else
    let r := (o - 0x20) / 0x10
    if rgnEnabled t r then
      match (o - 0x20) % 0x10 with
      | 0 => 0x80000000 + (rgnPages t r).1
      | 4 => (rgnPages t r).2
      | 8 => rgnPermBits t r 0 10
      | 12 => rgnPermBits t r 10 3
      | _ => 0
    else 0

/-- ID of persistent record `k` (Table 15-2). -/
def recId (k : Nat) : Nat :=
  match k with
  | 0 => 0x10 | 1 => 0x20 | 2 => 0x21 | 3 => 0x22 | 4 => 0x23 | 5 => 0x30 | 6 => 0x31 | 7 => 0x40 | 8 => 0x50
  | 9 => 0x51 | 10 => 0x52 | 11 => 0x53 | 12 => 0x54 | 13 => 0x60 | 14 => 0x70 | 15 => 0x80 | 16 => 0x90
  | k => 0x100 + (k - 17)

/-- Class of persistent record `k` (Table 15-2): 0 power-down, 1 write-through, 2 safety. -/
def recClass (k : Nat) : Nat :=
  if k = 0 ∨ k = 3 ∨ k = 4 ∨ k = 5 ∨ (9 ≤ k ∧ k ≤ 12) ∨ k = 14 then 1
  else if k = 6 ∨ k = 7 then 2 else 0

/-- Reset value of the register at BAR0 offset `a`, as the register tables give it. What a table takes from a fuse, from a
recalled record or from the reset itself is 0 here and is written by the operations that load it. -/
def resetNat (a : Nat) : Nat :=
  if 0x21000 ≤ a ∧ a < 0x21E00 then mtxTgtReset ((a - 0x21000) / 0x100) ((a - 0x21000) % 0x100)
  else if 0x40100 ≤ a ∧ a < 0x40200 ∧ a % 0x20 = 0 then refInCfgReset ((a - 0x40100) / 0x20)
  else if 0x40100 ≤ a ∧ a < 0x40200 ∧ a % 0x20 = 8 then
    0x00FF0000 + (if a < 0x40140 then 0x20000000 else 0)
  else if 0x50100 ≤ a ∧ a < 0x51100 ∧ a % 0x100 = 0 then
    0x309 + (if (a - 0x50100) / 0x100 % 2 = 1 then 0x10 else 0)
  else if 0x70100 ≤ a ∧ a < 0x70388 ∧ a % 8 = 0 then
    recClass ((a - 0x70100) / 8) * 0x4000000 + recId ((a - 0x70100) / 8)
  else if 0x2101000 ≤ a ∧ a < 0x2103000 then assocReset ((a - 0x2101000) / 0x10) (a % 0x10 / 4)
  else if 0x3001000 ≤ a ∧ a < 0x3002000 ∧ a % 0x40 = 0x18 then 4 + (a - 0x3001000) / 0x40 % 60
  else match regRow a with
    | some r => r.reset
    | none => 0

/-- `resetNat` as a register value. -/
def resetVal (a : Nat) : Word := BitVec.ofNat 32 (resetNat a)

end Sys2Proof.Machine
end

