-- ==== Sys2Proof/Machine/State.lean ====
section
/-! DEFINITION. The state of the block as plain data: the register store, the structured state of each unit, the in-flight
table, what the model itself needs (the time last seen and the counter of free values) and the queue of waiting commands.
Registers that a unit's structured state determines are not stored twice: `regRead` derives them. -/
namespace Sys2Proof.Machine

/-! ### Shared -/

/-- A frame grid: format index, frame period in ticks, lines in a frame, the start of line 1 of some frame as it is
(`phase`) and as R73 computes it (`nom`), the time by which the frames lag the computed grid (RESIDUAL of R251, in ticks), whether
the grid is on reference timing (R73), and whether it runs at reference timing's rate, whatever its phase (R80). -/
structure Grid where
  fmt    : Nat
  period : Nat
  lines  : Nat
  phase  : Nat
  nom    : Nat
  shift  : Int
  ref    : Bool
  timed  : Bool
deriving DecidableEq, Repr

/-! ### Media ports -/

/-- A receive lane beyond its registers: the signal it carries since its start boundary, whether a loss or a forced relock
awaits its start boundary and the format before it (none before a first lock), the lanes of a requested group (0 for none) and of the
group in force (0, 2 or 4). -/
structure RxLane where
  meas     : Option LaneMeas := none
  relock   : Bool := false
  lastFmt  : Option Nat := none
  groupReq : Nat := 0
  group    : Nat := 0
deriving DecidableEq, Repr

/-- What a transmit lane inserts in a frame beside the picture (R43, R45, R187): the lines whose TRS, line numbers and CRC it makes, the
ST 352 payload, the ATC time address where it inserts one, the ancillary packets, the square division of a quad link, and the audio:
the source's own packets passed, or the groups it writes, each with the source endpoints of its four channels (none for silence). -/
structure TxFrame where
  lines  : Nat
  pid    : Word
  atc    : Option Word
  anc    : List AncPkt
  square : Bool
  passed : Bool
  groups : List (Nat × List (Option Nat))
deriving DecidableEq, Repr

/-- A transmit lane beyond its registers: the lanes of a requested group (0 for none) and of the group in force, the earliest instant it
may leave idle (R46), the end of a follow-loop retune (R81), whether its source is out of follow range, and what its last frame
carried. -/
structure TxLane where
  groupReq : Nat := 0
  group    : Nat := 0
  sent     : Option TxFrame := none
  wakeAt   : Option Nat := none
  retune   : Option Nat := none
  outRange : Bool := false
deriving DecidableEq, Repr

/-- One RTP sequence number a flow delivered, the leg it came on and when. -/
structure Arrival where
  seq : Nat
  leg : Bool
  at_ : Nat
deriving DecidableEq, Repr

/-- A sequence number a leg of a protected flow missed (R54): which leg, when its gap showed, and whether it counts as missing on both. -/
structure Miss where
  seq  : Nat
  legB : Bool
  at_  : Nat
  lost : Bool
deriving DecidableEq, Repr

/-- The packets a transmit flow sent for one frame or packet time (R54): first sequence number, how many, the RTP timestamp, the
ports they left by, the protection partner's included: the same packets on each, and the ancillary packets an ANC flow's carry. -/
structure Burst where
  seq   : Nat
  count : Nat
  stamp : Nat
  ports : List Nat
  anc   : List AncPkt := []
deriving DecidableEq, Repr

/-- An enabled ST 2110 flow and its counters (R53, R54, Table 9-10). `nextA` and `nextB` are the sequence numbers each leg
expects, `missing` the numbers that have not been delivered, `play` an audio flow's samples that wait for their playout time, by the matrix
sample of their media time (R188). A transmit flow has the sequence number it sends next, what
it sent last, and whether it waits for a lost source to resume (R53). -/
structure Flow where
  rcd     : FlowRec
  lost    : Bool := false
  lostA   : Bool := false
  lostB   : Bool := false
  packets : Nat := 0
  missA   : Nat := 0
  missB   : Nat := 0
  unrec   : Nat := 0
  late    : Nat := 0
  nextA   : Option Nat := none
  nextB   : Option Nat := none
  missing : List Miss := []
  recent  : List Arrival := []
  play    : Tab (List Int) := []
  grid    : Option Grid := none
  seq     : Nat := 0
  sent    : Option Burst := none
  stopped : Bool := false
deriving DecidableEq, Repr

/-- Flow counters that outlive a flow: cleared only by a cold reset (R281). -/
structure FlowCnt where
  packets : Nat := 0
  missA   : Nat := 0
  missB   : Nat := 0
  unrec   : Nat := 0
  late    : Nat := 0
deriving DecidableEq, Repr

/-- What firmware sends on a sub-port of a QE port. -/
inductive NetMsg where
  | join (port sub group src : Nat) (v6 : Bool)
  | leave (port sub group src : Nat) (v6 : Bool)
  | arpReply (port sub : Nat)
  | ndReply (port sub : Nat)
  | domain (port sub : Nat) (bytes : List Byte)
deriving DecidableEq, Repr

/-- A host stream that is set up (R59): its format, sampling and depth, and its grid while it runs. -/
structure HostStream where
  fmt      : Nat
  sampling : Nat
  tenBit   : Bool
  grid     : Option Grid
deriving DecidableEq, Repr

/-- State of the media ports. Flows are keyed 1024 × kind + index (kind 0 video, 1 audio, 2 ANC). -/
structure MediaSt where
  rx      : Tab RxLane := []
  tx      : Tab TxLane := []
  rxFlow  : Tab Flow := []
  txFlow  : Tab Flow := []
  rxCnt   : Tab FlowCnt := []
  txCnt   : Tab FlowCnt := []
  hostIn  : Tab HostStream := []
  hostOut : Tab HostStream := []
  ptpQ    : List (Nat × Nat) := []
  net     : List NetMsg := []
deriving DecidableEq, Repr

/-! ### Crosspoint -/

/-- A route of one destination: its kind (Table 3-3) and source. -/
structure Route where
  kind : Nat
  src  : Nat
deriving DecidableEq, Repr

/-- A user format in force (Table 5-2). -/
structure UFmt where
  totalSamples : Nat
  activeWidth  : Nat
  totalLines   : Nat
  activeLines  : Nat
  firstF1      : Nat
  firstF2      : Nat
  interlaced   : Bool
  rate         : Nat
  swLine       : Nat
deriving DecidableEq, Repr

/-- A pattern generator's settings in force (R105). -/
structure PgSt where
  fmt     : Nat := 0
  pattern : Nat := 1
  colour  : Nat := 0
  step    : Nat := 0
  refused : Bool := false
deriving DecidableEq, Repr

/-- State of the crosspoint: routes, user formats in force, pattern generators, per destination whether its next frame goes unchecked
(R102), the last complete frame of each source (R101), the KIND and SOURCE fields last written with VALID = 0 (R5), and the lines that a
destination's frame in progress has lost words of, with the first sample lost (R329). -/
structure XptSt where
  frames : Tab SrcFrame := []
  raw    : Tab Nat := []
  routes : Tab Route := []
  ufmt   : Tab UFmt := []
  pg     : Tab PgSt := []
  skip   : Tab Bool := []
  cut    : Tab (List (Nat × Nat)) := []
deriving DecidableEq, Repr

/-! ### Frame store -/

/-- The metadata record of a buffer (Table 4-2). -/
structure Meta where
  ptpNs   : Nat := 0
  rfn     : Nat := 0
  fmt     : Nat := 0
  pix     : Nat := 0
  inter   : Bool := false
  sig     : Nat := 0
  atc     : Nat := 0
  black   : Bool := false
  byHost  : Bool := false
deriving DecidableEq, Repr

/-- A reader of a buffer (R114). -/
inductive Reader where
  | layer (u l : Nat)
  | ctxIn (c : Nat)
  | ctxStore (c : Nat)
  | dma (op : Nat)
deriving DecidableEq, Repr

/-- A buffer handle in use: its ring (none for a working store), its granules in order, a replacement list waiting for its
switch (R129), its stored bytes, whether its free is deferred, its readers, the order number of its completion (0: never written) and its time, its
metadata and which lines a context left absent (R137). -/
structure Buf where
  ring     : Option Nat
  grans    : List Nat
  moved    : Option (List Nat) := none
  size     : Nat := 0
  freeing  : Bool := false
  readers  : List Reader := []
  done     : Nat := 0
  doneAt   : Nat := 0
  info     : Meta := {}
  absent   : List (Nat × Nat) := []
deriving DecidableEq, Repr

/-- A ring (Table 4-14): first handle, depth, format, pixel format (0 P16, 1 P20, 2 P24, 3 P32), colour description, chain
ownership, deferred free, the newest complete buffer and the black mark of R123. -/
structure Ring where
  first   : Nat
  depth   : Nat
  fmt     : Nat
  pix     : Nat
  cdesc   : Nat
  chain   : Bool := false
  freeing : Bool := false
  newest  : Option Nat := none
  black   : Bool := false
deriving DecidableEq, Repr

/-- A capture writer: attached ring, state (0 idle, 1 writing, 2 last frame, 3 black, 4 format mismatch), the buffer being
filled and when its frame started, the picture of that frame as its lines come, and how many of them the buffer has (R122). -/
structure Cw where
  ring    : Option Nat := none
  st      : Nat := 0
  filling : Option Nat := none
  start   : Nat := 0
  coming  : Pic := []
  got     : Nat := 0
deriving DecidableEq, Repr

/-- A composite chain, keyed by its scan-out unit. -/
structure Chain where
  src     : Nat
  cw      : Nat
  ctx     : Option Nat
  capRing : Nat
  outRing : Option Nat
  persist : Bool
  fed     : Bool := false
  dueFree : Bool := false
deriving DecidableEq, Repr

/-- A host DMA into a buffer that has not posted (R119): the number of its descriptor, the buffer, and what each line held before, by
byte offset. -/
structure DmaWr where
  key  : Nat
  buf  : Nat
  old  : List (Nat × List Byte)
deriving DecidableEq, Repr

/-- State of the frame store. `mem` holds its bytes by physical address (granule × 2 MiB + offset). `badW` lists the 64-bit words that
fail (R128), by physical address over 8; `lostW` and `lostR` the 256-bit words, by physical address over 32, that a handshake time-out kept
from being written, or from the reader named, a context or the host's DMA (R329); `pathGr` the granules of each protected flow's path buffer (R54), by flow key. -/
structure FstSt where
  rings   : Tab Ring := []
  bufs    : Tab Buf := []
  cw      : Tab Cw := []
  chains  : Tab Chain := []
  mem     : List Host.Cell := []
  doneSeq : Nat := 0
  fencedG : List Nat := []
  fencedP : List Nat := []
  corr    : Tab (List Nat) := []
  sparesU : List Nat := []
  audioGr : List Nat := []
  badW    : List Nat := []
  lostW   : List Nat := []
  lostR   : List (Option Nat × Nat) := []
  pathGr  : Tab (List Nat) := []
  dmas    : List DmaWr := []
deriving DecidableEq, Repr

/-! ### Chameleon -/

/-- The processing parameters of a context (Table 4-13). Windows are (x, y, width, height). -/
structure CtxPar where
  srcWin  : Option (Nat × Nat × Nat × Nat) := none
  outWin  : Option (Nat × Nat × Nat × Nat) := none
  fill    : Nat := 0xC4080200
  deint   : Nat := 0
  cadOff  : Bool := false
  frc     : Nat := 0
  kernel  : Nat := 1
  preset  : Nat := 0
  bank    : Option Nat := none
  offset  : Nat := 0
  kernelH : List Nat := []
  kernelV : List Nat := []
  preLut  : List Nat := []
  matrix  : List Nat := []
  postLut : List Nat := []
deriving DecidableEq, Repr

/-- State of an admitted context (Table 4-7); FREE contexts have no entry. -/
inductive CtxState where
  | parked | running | orphan | moving
deriving DecidableEq, Repr

/-- A picture in a context's working store (Table 4-9): its buffer, the order number and the instant of its completion, and its time in
ns. -/
structure HistFrame where
  buf    : Nat
  seq    : Nat
  doneAt : Nat
  time   : Nat
deriving DecidableEq, Repr

/-- One block of a vector field (R140): horizontal and vertical motion in quarter pixels, and the match error. -/
structure Vec where
  dx  : Int
  dy  : Int
  err : Nat
deriving DecidableEq, Repr

/-- An admitted context, keyed 16 × engine + slot: rings, working store with the history frames in it (newest first), the luma pyramid
(half and quarter resolution) and the vector fields forward and backward, parameters in force and waiting, the output frame in progress,
whether the slice that runs is of a frame given up before it, and how many consecutive fields have matched each cadence. -/
structure Ctx where
  hist     : List HistFrame := []
  pyramid  : List (List (List Nat)) := []
  fwdVec   : List Vec := []
  bwdVec   : List Vec := []
  st       : CtxState
  inRing   : Nat
  outRing  : Nat
  outFmt   : Nat
  outPix   : Nat
  chain    : Bool
  work     : List Nat
  par      : CtxPar
  next     : Option CtxPar := none
  nextSt   : Option CtxState := none
  starting : Bool := false
  release  : Bool := false
  moveTo   : Option Nat := none
  slice    : Nat := 0
  frameAt  : Nat := 0
  active   : Bool := false
  abandon  : Bool := false
  stale    : Bool := false
  absent   : List (Nat × Nat) := []
  inBuf    : Option Nat := none
  outBuf   : Option Nat := none
  cad32    : Nat := 0
  cad22    : Nat := 0
  cadence  : Nat := 0
deriving DecidableEq, Repr

/-- An engine: the slice it runs (context and slice number) and the contents of its 3D LUT banks. -/
structure Engine where
  run    : Option (Nat × Nat) := none
  luts   : Tab (List Nat) := []
deriving DecidableEq, Repr

/-- State of the Chameleon engines. -/
structure CheSt where
  ctx : Tab Ctx := []
  eng : Tab Engine := []
deriving DecidableEq, Repr

/-! ### Scan-out -/

/-- A scan-out unit beyond its registers: allocation, whether its raster runs and is gated, its two sets, whether the pending set is
committed, RETUNE asked with it, a retune that holds the output, a timing change in progress (its set, whether it retunes, and the
end of the frame in progress), what each layer shows and how urgently it fetches, the newest buffer known to layer 1, the lines of the
frame in progress that underran with the sample at which each did (R164), the ATC time address it hands on (R158), and the lines of the
frame in progress, by their place in the stored order, that it sent before a commit replaced its set (R171). -/
structure Unit where
  alloc     : Bool := false
  run       : Bool := false
  gated     : Bool := false
  active    : SouSet := {}
  pending   : SouSet := {}
  committed : Bool := false
  tune      : Bool := false
  retune    : Bool := false
  newTiming : Option (SouSet × Bool) := none
  frameEnd  : Nat := 0
  sel1      : Option Nat := none
  sel2      : Option Nat := none
  sel3      : Option Nat := none
  urg1      : Nat := 0
  urg2      : Nat := 0
  urg3      : Nat := 0
  lastSeq   : Nat := 0
  under     : List (Nat × Nat) := []
  atc       : Nat := 0
  sent      : List (Nat × List Px) := []
deriving DecidableEq, Repr

/-- State of the scan-out units. -/
structure SouSt where
  unit : Tab Unit := []
deriving DecidableEq, Repr

/-! ### Audio -/

/-- A source a slot reads: endpoint (R183) and the chain unit whose path delay line it reads it through. -/
structure SrcRef where
  ep   : Nat
  path : Option Nat := none
deriving DecidableEq, Repr

/-- A crossfade: outgoing source, samples done, length, law, the weight the outgoing source starts from (2^−24 units), and the halves of a
sample period by which it began after its period did (a 96 kHz channel's sample period begins there, R185). -/
structure Fade where
  out   : SrcRef
  pos   : Nat
  len   : Nat
  law   : Bool
  start : Nat
  lag   : Nat := 0
deriving DecidableEq, Repr

/-- A gain ramp (R200): start gain as a fraction `from_ / den` of 0.01 dB (−32768 over 1 for mute) and target gain in 0.01 dB, samples done,
length, law 0 (linear in dB), the operation that completes at its end, and the amplitude it starts from in units of 2^−24. -/
structure Ramp where
  from_ : Int
  goal  : Int
  pos   : Nat
  len   : Nat
  linDb : Bool
  op    : Option Nat
  amp   : Nat := 0
  den   : Nat := 1
deriving DecidableEq, Repr

/-- An output slot in use: a mapped destination channel. Gains are in 0.01 dB, −32768 mute. `live` is false while a map in flight has
claimed the slot and none has executed; `hiZ`: the serial port does not drive the slot (R212). `tail` are the newest samples, before
rounding, that a tracked port takes at its own clock, and `sent` those the port sent in the last period, oldest first (R207, R211). -/
structure Slot where
  dst     : Nat
  rate96  : Bool := false
  src     : SrcRef := ⟨0, none⟩
  follow  : Option (Nat × Nat) := none
  nextSrc : Option Nat := none
  nextAt  : Option Nat := none
  nextLen : Nat := 0
  nextLaw : Bool := false
  fade    : Option Fade := none
  gain    : Int := 0
  ramp    : Option Ramp := none
  invert  : Bool := false
  transp  : Bool := false
  lsOff   : Bool := false
  delay   : Nat := 0
  line    : List Int := []
  blocks  : Nat := 0
  unmap   : Bool := false
  out     : Int := 0
  live    : Bool := false
  hiZ     : Bool := false
  tail    : List Int := []
  sent    : List Int := []
deriving DecidableEq, Repr

/-- A chain's path delay lines (R203 to R205): the channels that have a line, whether some are missing, target and present
delay in samples, the latencies averaged, a jump in progress (samples done), the 2,000ths of a sample by which the read point has slewed
from the present delay, for how many sample periods the lines have run, and per channel the samples held, newest first. -/
structure PathLine where
  eps    : List Nat
  short  : Bool
  target : Option Nat := none
  delay  : Nat := 0
  vHist  : List Nat := []
  jump   : Option Nat := none
  blocks : Nat := 0
  slew   : Int := 0
  ran    : Nat := 0
  hold   : Tab (List Int) := []
deriving DecidableEq, Repr

/-- Clock tracking states (Table 6-6); `master` for a port on the matrix grid. -/
inductive ClkState where
  | lost | acquire | steered | wide | locked | master
deriving DecidableEq, Repr

/-- An audio port's clock: its state, NCO offset in 0.01 ppm, FIFO fill and the part of a sample, in 10^−8, by which the NCO is past the
sample it last read; the ramp its channels run (samples done of a 1 ms ramp in, or of the 32-sample ramp out); the loop's integral in
10^−12, what the resampler adds to a NCO held at its limit (0.01 ppm), and the part of a sample by which the NCO is past the sample that a
tracked output last sent. -/
structure Clk where
  st      : ClkState := .lost
  off     : Int := 0
  fifo    : Nat := 0
  pos     : Nat := 0
  rampIn  : Option Nat := none
  rampOut : Option Nat := none
  slips   : Nat := 0
  integ   : Int := 0
  rest    : Int := 0
  txPos   : Nat := 0
deriving DecidableEq, Repr

/-- What a receive lane's audio packets show (R186): 96 kHz by the audio control packets, 24 bits by extended data packets. -/
structure LaneAudio where
  rate96 : Bool := false
  wide   : Bool := false
deriving DecidableEq, Repr

/-- The last take of a video destination that switched followed audio (R100): source before and after, the switch point, fade length and
law. -/
structure Turn where
  old : Option Nat
  src : Nat
  at_ : Nat
  len : Nat
  law : Bool
deriving DecidableEq, Repr

/-- What an AES3 output sends beside its samples (R214): the channel status bytes of its block, and the validity and user bits. -/
structure AesBlock where
  cs       : List Nat
  validity : Nat := 0
  user     : Nat := 0
deriving DecidableEq, Repr

/-- State of the audio matrix and ports. Port clocks are keyed: SAP n, 16 + AESI n, 32 + SRX n, 128 + IP audio flow, 2048 + STX n for an
embedder. Then come the slot masks in force, each source channel's last samples (FIFO and filter, newest first), the channels of which a
sample of the coming period, by its number in it, repeats the one before, the ramps of newly enabled SAP slots (samples done, keyed 32 × port + slot, transmit 512 higher), the
lanes' audio packets, the last switch of each video destination, and the AES3 blocks sent. -/
structure AudSt where
  slots  : Tab Slot := []
  paths  : Tab PathLine := []
  clk    : Tab Clk := []
  rxMask : Tab Word := []
  txMask : Tab Word := []
  hist   : Tab (List Int) := []
  hold   : List (Nat × Nat) := []
  maskRamp : Tab Nat := []
  lanes  : Tab LaneAudio := []
  turn   : Tab Turn := []
  aesOut : Tab AesBlock := []
  sample : Nat := 0
deriving DecidableEq, Repr

/-! ### Host rings and the in-flight table -/

/-- Where a completion goes: a ring; nowhere, because the link event of R260 discards it; nowhere, because the operation is one that the
PRIMARY forwarded from its ring `n`; nowhere, because the operation outlives the in-flight table that a warm reset cleared, or is a
restored route (R91, R392), with the origin and ring of its route-log entry; or nowhere at all. -/
inductive CplDest where
  | ring (n : Nat)
  | discard
  | fwd (n : Nat)
  | gone (org ring : Nat)
  | none
deriving DecidableEq, Repr

/-- A take in flight: destination, source, leap RFN (0 for an immediate take), the computed time before which it does not execute,
and how it stands. A take with `waiting` set is an untimed take past S (R81); `after` is then the instant S. `unit` is the chain it is the
take of. -/
structure Take where
  dst     : Nat
  src     : Nat
  rfn     : Nat
  after   : Nat
  late    : Bool := false
  armed   : Bool := false
  waiting : Bool := false
  drop    : Bool := false
  salvo   : Option Nat := none
  unit    : Option Nat := none
  execRfn : Nat := 0
deriving DecidableEq, Repr

/-- A salvo in flight: its entries, those left, and its three counts (R95). -/
structure SalvoSt where
  size    : Nat
  left    : Nat
  late    : Nat := 0
  untimed : Nat := 0
  refused : Nat := 0
  lastT   : Nat := 0
deriving DecidableEq, Repr

/-- A commit in flight (R172): unit, RFN (0 immediate), its commit line's computed time, whether it missed its window, and the set (with
RETUNE) latched for it as its window closed. -/
structure CommitOp where
  unit   : Nat
  rfn    : Nat
  due    : Nat
  late   : Bool
  drop   : Bool
  latched : Option (SouSet × Bool) := none
deriving DecidableEq, Repr

/-- An AUD_MAP waiting for its execution sample (R197), with the output slots its admission claimed for channels that had none and the
source channels it claimed input slots for. -/
structure MapOp where
  req   : AudMapReq
  rfn   : Nat
  exec  : Nat
  late  : Bool
  drop  : Bool
  slots : List Nat
  srcs  : List Nat := []
deriving DecidableEq, Repr

/-- An AUD_FADE waiting for its start or running: the slots whose ramps have not ended. -/
structure FadeOp where
  req     : AudFadeReq
  rfn     : Nat
  exec    : Nat
  late    : Bool
  drop    : Bool
  started : Bool
  slots   : List Nat
deriving DecidableEq, Repr

/-- A DOMAIN_MSG waiting for its acknowledgement (R410): its message identifier, the packet sent and the retransmissions so far. -/
structure DomOp where
  seq    : Nat
  packet : List Byte
  tries  : Nat := 0
deriving DecidableEq, Repr

/-- What an operation in flight is. -/
inductive OpBody where
  | take (t : Take)
  | salvo (s : SalvoSt)
  | commit (c : CommitOp)
  | map (m : MapOp)
  | fade (f : FadeOp)
  | dom (d : DomOp)
  | ckpt (addr : Nat) (writeOk : Bool)
  | pair
  | handover (after : Nat)
deriving DecidableEq, Repr

/-- An entry of the in-flight table (R284). `fwd` says the operation is one the PRIMARY forwarded to this STANDBY (it posts
no completion here). -/
structure Op where
  id      : Nat
  dest    : CplDest
  tag     : Nat
  irq     : Bool
  result  : Nat
  fwd     : Bool
  body    : OpBody
deriving DecidableEq, Repr

/-- A completion that waits to be posted (Table 9-5): `rfn` none is the RFN current when it is posted; `held` counts the
in-flight entries it releases; `await` is the forwarded operation whose acknowledgement it waits for (R23); `leap` says it is a leap's
(R84). -/
structure Cpl where
  ring    : Nat
  tag     : Nat
  status  : Nat
  early   : Bool
  untimed : Bool
  lateCmt : Bool
  rfn     : Option Nat
  result  : Nat
  irq     : Bool
  held    : Nat
  await   : Option Nat
  leap    : Bool := false
deriving DecidableEq, Repr

/-- A descriptor a ring has fetched, or a domain message has brought, and the management cores have not yet judged: its 64 bytes. -/
structure Fetched where
  raw : List Byte
  dom : Bool := false
deriving DecidableEq, Repr

/-- A ring beyond its registers: SQ tail, CQ head, completions posted and not consumed, descriptors fetched and not judged (those
judged and not posted are counted from the in-flight table and the waiting completions), descriptors that came by domain message and wait
for the slots croaked before them and for room (R264, R411), each with the SQ tail as it came; interrupt arming. -/
structure RingSt where
  sqTail  : Nat := 0
  cqHead  : Nat := 0
  unread  : Nat := 0
  fetched : List Fetched := []
  domQ    : List (Nat × Fetched) := []
  armed   : Bool := false
  armedAt : Nat := 0
  since   : Nat := 0
deriving DecidableEq, Repr

/-- One MSI-X table entry (PCI Express form): address, data and vector control. -/
structure MsixEntry where
  addrLo : Word := 0
  addrHi : Word := 0
  data   : Word := 0
  ctl    : Word := 1
deriving DecidableEq, Repr

/-- The PCI Express function beyond its MSI-X table (R257, R364): Memory Space Enable, and D3hot entered. -/
structure PciSt where
  mse : Bool := false
  d3  : Bool := false
deriving DecidableEq, Repr

/-- State of the host interface: rings, in-flight table, completions waiting, MSI-X table, pending bits, messages sent per
vector, host memory as the device has written it, whether link training has begun and PERST_N is low, whether the operation
being admitted is a forwarded one or a route restored at power-on, the ring and tag of each outstanding descriptor that came by
domain message, the ring the ring engine serves with the descriptors taken from it in this turn (R283), and whether a warm reset has
stopped all DMA to host memory (R285). -/
structure HostSt where
  rings  : Tab RingSt := []
  ops    : List Op := []
  nextOp : Nat := 0
  cpls   : List Cpl := []
  msix   : Tab MsixEntry := []
  pba    : Tab Bool := []
  sent   : Tab Nat := []
  mem    : List Host.Cell := []
  linkUp : Bool := false
  perst  : Bool := true
  fwdNow : Bool := false
  restoring : Bool := false
  dom    : List (Nat × Nat) := []
  pci    : PciSt := {}
  turn   : Nat := 0
  took   : Nat := 0
  dmaOff : Bool := false
deriving DecidableEq, Repr

/-! ### LV agent -/

/-- What is in force on an LV output: ENABLE, INPUT, and whether R292 holds it idle. -/
structure LvOut where
  en    : Bool := false
  input : Nat := 0
  held  : Bool := false
deriving DecidableEq, Repr

/-- A latched switch of one LV output (R299, R304): the values copied at the latch, the take it belongs to, and its switch point once
armed. -/
structure LvSwitch where
  en    : Bool
  input : Nat
  take  : Nat
  due   : Option Nat := none
deriving DecidableEq, Repr

/-- State of the LV agent: register image (page × 128 + address; PAGE at 127), IRQ_STAT, last input status shown, outputs in
force, pending switches, the takes not complete and the forwards that takes wait for (R312), the window in force, whether LV SPI
answers, STATUS.READY, the level LV_IRQ_N keeps through a warm reset (R314; low for true), and what LVSPI_MISO last returned (none: high
impedance). -/
structure LvSt where
  regs    : Tab (BitVec 16) := []
  irq     : Nat := 0
  inStat  : Tab Nat := []
  refLock : Bool := false
  outs    : Tab LvOut := []
  pend    : Tab LvSwitch := []
  takes   : List Nat := []
  nextTk  : Nat := 0
  acks    : Tab Nat := []
  rxBase  : Nat := 0
  txBase  : Nat := 0
  aesQ    : Nat := 0
  answers : Bool := false
  ready   : Bool := false
  irqHold : Option Bool := none
  miso    : Option (BitVec 16) := none
deriving DecidableEq, Repr

/-! ### References and synthesizers -/

/-- A reference input beyond its registers: whether it has failed since the last cold reset (R224), when its qualification count or
its wait-to-restore time started (or resumed), and how far its PTP master's whole seconds are ahead of the time base. -/
structure RefIn where
  failed : Bool := false
  since  : Nat := 0
  sec    : Option Int := none
  sync   : Nat := 0
deriving DecidableEq, Repr

/-- A frame pulse sent (R237): when it began, its own width in ticks, and its own POL. -/
structure Pulse where
  at_   : Nat
  width : Nat
  low   : Bool
deriving DecidableEq, Repr

/-- State of the reference selector beyond its registers: the pending switch's boundary, whether the loop is frozen and the rate it was frozen
at, holdover data (t_s, r_avg, T_avg, t_m, whether TRACK held at t_s, whether the bound lies above the limit), the time spent in TRACK
and since when it runs, the daily values with the tick each was taken at and how many are of this power-up, written
seconds waiting, TRACK_BW in force and the bandwidth of the loop (mHz), and the last pulse and the number of pulses of each frame pulse
output. -/
structure RefSt where
  ins     : Tab RefIn := []
  bAt     : Option Nat := none
  frozen  : Bool := false
  held    : Int := 0
  ts      : Option Nat := none
  rAvg    : Int := 0
  tAvg    : Int := 2500
  tm      : Nat := 0
  wasTrk  : Bool := false
  limHit  : Bool := false
  trkAcc  : Nat := 0
  trkAt   : Option Nat := none
  daily   : List (Nat × Int) := []
  newDays : Nat := 0
  todPend : Option Nat := none
  track   : Nat := 100
  bw      : Nat := 100
  fpLast  : Tab Pulse := []
  fpCount : Tab Nat := []
deriving DecidableEq, Repr

/-- A synthesizer beyond its registers: the running segment, the slope, offset and RESIDUAL a segment started from and when,
ABSORB in force, a step waiting for its next reference edge and that edge, when the last step was passed, the segments of the profile that
still wait, a preload search in progress, whether the relock follows GATED, whether an ABORT
runs, the band entries by use (most recent first), the delay code at which the frequency clamp holds (none before a lock), and what the
last step passed did: by how many whole cycles it moved the raster counters and by how many ticks it lengthened one cycle (R249). -/
structure Syn where
  seg     : Option Nat := none
  segAt   : Nat := 0
  segOfs  : Int := 0
  segRes  : Int := 0
  segSlope : Nat := 0
  segTgt  : Int := 0
  absAt   : Nat := 0
  absOfs  : Int := 0
  absorb  : Bool := false
  step    : Int := 0
  stepAt  : Option Nat := none
  passed  : Option Nat := none
  todo    : List (Int × Nat) := []
  preload : Bool := false
  gatedBy : Nat := 0
  fromGate : Bool := false
  aborting : Bool := false
  lru     : List Nat := []
  clamp   : Option Nat := none
  jump    : Int := 0
  stretch : Nat := 0
deriving DecidableEq, Repr

/-- State of the synthesizers. -/
structure SynSt where
  ts : Tab Syn := []
deriving DecidableEq, Repr

/-! ### Security -/

/-- A pinned operator key (R425): its XMSS parameter set and bytes. -/
structure PinKey where
  oid : Nat
  key : List Nat
deriving DecidableEq, Repr

/-- A route-log entry (Table 17-6). -/
structure LogEntry where
  typ    : Nat
  origin : Nat
  status : Nat
  kind   : Nat
  dst    : Nat
  src    : Nat
  rfn    : Nat
  ring   : Nat
  time   : Nat
  num    : Nat
deriving DecidableEq, Repr

/-- A signing key's leaves (R420): the next leaf to use and the first leaf after the reserved block. -/
structure Leaves where
  next : Nat := 0
  stop : Nat := 0
deriving DecidableEq, Repr

/-- State of the security core: pinned keys, the domain key, the route-log chain head, entries made, entries held undelivered,
whether the log and checkpoint setup is taken, the next checkpoint slot, when the last periodic checkpoint was made, leaves of the
identity and route-log keys, whether step 1 of provisioning runs, how many route-log keys were generated, the stored certificate, the
draw that stands for a certification request shown, the revocation of VK0, the RMA-pending flag of record 0, the chain head and number
of entries as record 7 holds them in the working SRAM, the entries made while a warm reset runs (R91), and whether power-down data of
the log was missing at the last recall. -/
structure SecSt where
  keys    : Tab PinKey := []
  domKey  : Option (List Nat) := none
  head    : BitVec 256 := 0
  entries : Nat := 0
  hold    : List LogEntry := []
  logUp   : Bool := false
  ckUp    : Bool := false
  ckSlot  : Nat := 0
  lastCk  : Nat := 0
  idLeaf  : Leaves := {}
  logLeaf : Leaves := {}
  genId   : Bool := false
  logGen  : Nat := 0
  cert    : List Nat := []
  csr     : Option Nat := none
  vk0Gone : Bool := false
  rmaPend : Bool := false
  sramHead : BitVec 256 := 0
  sramEnt : Nat := 0
  later   : List LogEntry := []
  logGap  : Bool := false
deriving DecidableEq, Repr

/-! ### Faults -/

/-- An error record (Table 18-3) with the slot it lies in; records stand in the order they were made. -/
structure FltRec where
  slot   : Nat
  st     : Nat
  source : Nat
  unit   : Nat
  seq    : Nat
  rep    : Nat := 0
  detail : Nat := 0
  time   : Nat := 0
  tus    : Nat := 0
deriving DecidableEq, Repr

/-- Counters and marks of one unit (FLT_UNIT_CNT), and the source of the error whose test is owed. -/
structure FltUnit where
  errors : Nat := 0
  trans  : Nat := 0
  fenced : Bool := false
  retest : Bool := false
  src    : Nat := 0
deriving DecidableEq, Repr

/-- State of fault handling: the queue, the next record sequence number, per-unit counters, when the running test started, the
units the error log (record 13) shows as fenced, and units queued for retest after READY. -/
structure FltSt where
  recs   : List FltRec := []
  seq    : Nat := 0
  units  : Tab FltUnit := []
  since  : Nat := 0
  logged : List Nat := []
deriving DecidableEq, Repr

/-! ### Axolotl store -/

/-- A composite chain as record 8 keeps it: its unit then, source, capture depth and pixel format, PERSIST, offset and, for CONVERT,
output format, pixel format, depth and parameters. -/
structure SavedChain where
  unit    : Nat
  src     : Nat
  depth   : Nat
  pix     : Nat
  persist : Bool
  offset  : Nat
  conv    : Option (Nat × Nat × Nat × CtxPar)
deriving DecidableEq, Repr

/-- A route as record 8 and the presets keep it: destination, kind, source and, for a composite route, its chain. -/
structure SavedRoute where
  dst   : Nat
  kind  : Nat
  src   : Nat
  chain : Option SavedChain
deriving DecidableEq, Repr

/-- What a record's body holds, for the records whose contents act on the block (Table 15-2). -/
inductive RecBody where
  | settings (arm : Bool) (restore epoch : Nat) (rmaPend : Bool)
  | leaves (l : Leaves) (retired : Bool)
  | keys (k : Tab PinKey) (dom : Option (List Nat)) (signReq : Bool)
  | seqs (s : List Nat)
  | logHead (head : BitVec 256) (num entries : Nat)
  | routes (r : List SavedRoute) (cfg : Tab Word)
  | errors (units : List Nat)
  | ageing (xoCal learned : Nat) (daily : List (Nat × Int))
  | meters (open_ : Bool) (us : Nat)
  | user (bytes : List Host.Cell)
  | cert (bytes : List Nat)
  | plain
deriving DecidableEq, Repr

/-- One copy of a record in a half of the shadow array. -/
structure Copy where
  seq   : Nat
  valid : Bool
  body  : RecBody
deriving DecidableEq, Repr

/-- State of the Axolotl store beyond its registers: copies keyed (2 × record + half) × 16 + position, user slots in the working SRAM by
byte, the routing presets and record 8 (routes and XPT_DST_CFG values) in the working SRAM, meters, whether the power-fail detector's
autostore runs and what it stores, the causes of a cold reset deferred until it ends, and the dirty records that a cold reset stores before it
leaves P0. -/
structure AxlSt where
  copies   : Tab Copy := []
  user     : List Host.Cell := []
  presets  : Tab (List SavedRoute) := []
  routes   : List SavedRoute := []
  cfgs     : Tab Word := []
  session  : Bool := false
  autoUs   : Nat := 0
  running  : Bool := false
  frozen   : List (Nat × RecBody) := []
  deferred : Option Nat := none
  inP0     : List (Nat × RecBody) := []
deriving DecidableEq, Repr

/-! ### Reset, voltage, matrix, twin, package -/

/-- State of reset control beyond its registers: whether power has risen once, power good, RESET_N held by the board, whether a cold reset runs and has
not ended its P4, whether its data plane has still to be started, when it was triggered, whether firmware has configured the balls of R363,
whether a warm reset runs, options loaded once, a warm reset awaiting its E1, the retention loss the monitor recorded, the control PLL
failed, the boot image in force was a trial and carries the revocation of VK0, the image being loaded counts as failed (Table 13-4), the image in
force, P1 to be counted as a restart, and the options of the
last complete load. -/
structure RstSt where
  on       : Bool := false
  pwrGood  : Bool := false
  pinLow   : Bool := false
  cold     : Bool := true
  plane    : Bool := true
  trig     : Option Nat := none
  pads     : Bool := false
  loaded   : Bool := false
  warmDue  : Bool := false
  warmRun  : Bool := false
  retMon   : Bool := true
  cclkFail : Bool := false
  trialRun : Bool := false
  revoke0  : Bool := false
  imgBad   : Bool := false
  image    : Option Img := none
  p1Again  : Bool := false
  opt      : Option OptSet := none
deriving DecidableEq, Repr

/-- State of the voltage controller beyond its registers: since when the floor has been met with 5 % to spare, when it last lowered
and last raised, the ring and tag of a descriptor whose admission waits for a raise, the voltage of the command that failed, and the
ribbon each spare carries. -/
structure HsfSt where
  okSince  : Option Nat := none
  lowered  : Option Nat := none
  raised   : Option Nat := none
  raising  : Option (Nat × Nat) := none
  failed   : Nat := 0
  spares   : Tab Nat := []
deriving DecidableEq, Repr

/-- A request at the control matrix: itself, its target (15 for none that will answer it), its beats not yet carried, whether it is granted,
whether it has been held back under R344, when it came and when it was granted. -/
structure MtxOut where
  req     : MtxReq
  target  : Nat
  left    : Nat
  granted : Bool := false
  cyc     : Bool := false
  since   : Nat
  gAt     : Nat := 0
deriving DecidableEq, Repr

/-- State of the control matrix: the target ports whose reset is asserted (R353), the requests of each master, oldest first, those that a
reset master left granted at their targets (R352), the master last granted per target, what the last request read, the host reads answered
with Completer Abort (R351), when and for which master each log was last written, and the bytes of the memories behind it by matrix
address. -/
structure MtxSt where
  ports   : List Nat := []
  out     : Tab (List MtxOut) := []
  late    : List MtxOut := []
  granted : Tab Nat := []
  data    : Option Nat := none
  aborts  : Nat := 0
  logged  : Tab (Nat × Nat) := []
  mem     : List Host.Cell := []
deriving DecidableEq, Repr

/-- What a domain receiver remembers of one source device: the send time last accepted and its last 16 identifiers with send
time and the acknowledgement that went out. -/
structure DomSrc where
  last : Nat
  ids  : List (Nat × Nat × List Byte)
deriving DecidableEq, Repr

/-- State of the MATE agent: forwarded operations not yet acknowledged, the RFN that each forwarded immediate take goes with (R98), forward numbers taken, operations that arrived during a
state transfer, pending operations that a warm reset leaves to the partner's copy (R407), paths lost, whether the
partner's restart has lasted 500 ms, the level of MATE_ALIVE_OUT, whether a promotion waits for the selector, the
last send time in the domain, what is remembered of each source, and the last message identifier used. -/
structure MateSt where
  await    : List Nat := []
  fwdRfn   : List (Nat × Nat) := []
  fwdSeen  : List Nat := []
  fwdHold  : List (Hdr × FwdOp) := []
  recover  : List Op := []
  linkLost : Bool := false
  sbLost   : Bool := false
  restart  : Bool := false
  alive    : Bool := false
  promote  : Bool := false
  lastSend : Nat := 0
  domSrc   : Tab DomSrc := []
  msgId    : Nat := 0
deriving DecidableEq, Repr

/-- State of the management interfaces (Table 19-9): hottest sensor, TLM_HIST, the last word read over I2C, the external sensor's
value and when it was read, the boundary-scan instruction, and IDCODE where that instruction shifts it out. -/
structure PkgSt where
  temp   : Int := 0
  hist   : Nat := 1
  ot     : Bool := false
  last   : Option (BitVec 16) := none
  ext    : Option Int := none
  extAt  : Nat := 0
  jtag   : Jtag := .idcode
  tdo    : Option Word := none
deriving DecidableEq, Repr

/-! ### The whole -/

/-- The reasons for which a step of this model can stop. No meaning raises one: where the manual lets the block ignore a
command or an event, the meaning leaves the state as it is and answers it. -/
inductive Fault where
  /-- Raised by nothing. Kept so that the type is inhabited; safe. -/
  | none
deriving DecidableEq, Repr

/-- The reasons for which a command has no meaning here. -/
inductive Refusal where
  /-- Answered by the dispatch for a command whose meaning is not written; safe. -/
  | notModelled (mnemonic : String)
deriving DecidableEq, Repr

/-- The state of the block. `regs` holds every register value that differs from its reset value, by BAR0 offset; `taken` the
values of multi-word settings the data side has taken (R18); `snap` the snapshots of R19; `now` the last time seen. -/
structure State where
  regs    : Tab Word := []
  taken   : Tab Word := []
  snap    : Tab Word := []
  now     : Nat := 0
  free    : Nat := 0
  media   : MediaSt := {}
  xpt     : XptSt := {}
  fst     : FstSt := {}
  che     : CheSt := {}
  sou     : SouSt := {}
  aud     : AudSt := {}
  host    : HostSt := {}
  lv      : LvSt := {}
  ref     : RefSt := {}
  syn     : SynSt := {}
  sec     : SecSt := {}
  flt     : FltSt := {}
  axl     : AxlSt := {}
  rst     : RstSt := {}
  hsf     : HsfSt := {}
  mtx     : MtxSt := {}
  mate    : MateSt := {}
  pkg     : PkgSt := {}
  pending : List Instr := []
deriving DecidableEq, Repr

/-- The machine right after reset (R359 phase P0, R5): no register differs from its reset value, memories list nothing, the
queue is empty. -/
def State.reset : State := {}

end Sys2Proof.Machine
end

