-- ==== Sys2Proof/Machine/Ops.lean ====
section
/-! DEFINITION. The named operations every meaning is built from: registers and fields, saturating counters, history bits and
MSI-X vectors, multi-word settings, memories, the in-flight table and completions. -/
namespace Sys2Proof.Machine

/-! ### Registers -/

/-- The value of the register at BAR0 offset `a`. -/
def State.rd (s : State) (a : Nat) : Word := tabGet (resetVal a) s.regs a

/-- `s` with register `a` holding `v`. -/
def State.wr (s : State) (a : Nat) (v : Word) : State := { s with regs := tabSet (resetVal a) s.regs a v }

/-- Field `f` of register `a`. -/
def State.get (s : State) (a : Nat) (f : Bits) : Nat := getF f (s.rd a)

/-- `s` with field `f` of register `a` holding `v`. -/
def State.set (s : State) (a : Nat) (f : Bits) (v : Nat) : State := s.wr a (setF f v (s.rd a))

/-- A one-bit field as a truth value. -/
def State.flag (s : State) (a : Nat) (f : Bits) : Bool := s.get a f != 0

/-- `s` with a one-bit field set to a truth value. -/
def State.setB (s : State) (a : Nat) (f : Bits) (b : Bool) : State := s.set a f (if b then 1 else 0)

/-- Two's complement reading of a 32-bit register. -/
def State.rdInt (s : State) (a : Nat) : Int := (s.rd a).toInt

/-- Store an integer, cut to 32 bits, in register `a`. -/
def State.wrInt (s : State) (a : Nat) (v : Int) : State := s.wr a (BitVec.ofInt 32 v)

/-- A 32-bit counter adds `n` and saturates at 0xFFFF_FFFF (R36, R150). -/
def State.count (s : State) (a n : Nat) : State :=
  s.wr a (BitVec.ofNat 32 (min 0xFFFFFFFF ((s.rd a).toNat + n)))

/-- A counter adds one. -/
def State.inc (s : State) (a : Nat) : State := s.count a 1

/-- A value of at most 64 bits in a register pair. -/
def State.wr2 (s : State) (lo hi v : Nat) : State := (s.wr lo (BitVec.ofNat 32 v)).wr hi (BitVec.ofNat 32 (v / 0x100000000))

/-- The value a register pair holds. -/
def State.rd2 (s : State) (lo hi : Nat) : Nat := (s.rd lo).toNat + (s.rd hi).toNat * 0x100000000

/-- The value of a word of a multi-word setting as the data side has taken it (R18). -/
def State.inForce (s : State) (a : Nat) : Word := tabGet (resetVal a) s.taken a

/-- The data side takes the setting whose words lie at `l`: the highest-addressed word has been written (R18). -/
def State.takeSetting (s : State) (l : List Nat) : State :=
  { s with taken := l.foldl (fun t a => tabSet (resetVal a) t a (s.rd a)) s.taken }

/-- Advance to time `t`. -/
def State.at_ (s : State) (t : Nat) : State := { s with now := t }

/-- Draw the next value the manual does not state; returns the draw's number. -/
def State.draw (s : State) : Nat × State := (s.free, { s with free := s.free + 1 })

/-! ### Interrupts -/

/-- A history register: its offset, its mask register's offset, the mask bit that enables its lowest history bit, that
history bit, and the vector (Table 18-6). -/
structure Hist where
  reg  : Nat
  mask : Nat
  mlo  : Nat
  lo   : Nat
  vec  : Nat
deriving DecidableEq, Repr

namespace Hist
def glbMode (b : Nat) : Hist := ⟨R.GLB_MODE_HIST, R.GLB_MODE_IMASK, 0, 0, if b = 0 then 2 else if b = 2 ∨ b = 3 then 3 else 0⟩
def srx (n : Nat) : Hist := ⟨R.SDI_RX_HIST n, R.SDI_RX_IMASK n, 0, 0, 0⟩
def qe (q : Nat) : Hist := ⟨R.QE_HIST q, R.QE_IMASK q, 0, 0, 0⟩
def dst (d : Nat) : Hist := ⟨R.XPT_DST_HIST d, R.XPT_IMASK, 0, 0, 0⟩
def pgErr : Hist := ⟨R.XPT_STAT, R.XPT_IMASK, 4, 20, 0⟩
def frz (d : Nat) : Hist := ⟨R.XPT_FRZ_STAT d, R.XPT_FRZ_IMASK, 0, 30, 0⟩
def fst : Hist := ⟨R.FST_HIST, R.FST_IMASK, 0, 0, 0⟩
def che (e : Nat) : Hist := ⟨R.CHE_HIST e, R.CHE_IMASK e, 0, 0, 0⟩
def sou (u : Nat) : Hist := ⟨R.SOU_HIST u, R.SOU_IMASK u, 0, 0, 0⟩
def aud : Hist := ⟨R.AUD_HIST, R.AUD_IMASK, 0, 0, 0⟩
def sap (n : Nat) : Hist := ⟨R.SAP_HIST n, R.SAP_IMASK n, 0, 0, 0⟩
def aesi (n : Nat) : Hist := ⟨R.AESI_HIST n, R.AESI_IMASK n, 0, 0, 0⟩
def ref : Hist := ⟨R.REF_HIST, R.REF_IMASK, 0, 0, 1⟩
def refIn (i : Nat) : Hist := ⟨R.REF_IN_HIST i, R.REF_IN_IMASK i, 0, 0, 1⟩
def syn (t : Nat) : Hist := ⟨R.SYN_TS_HIST t, R.SYN_TS_IMASK t, 0, 0, 1⟩
def rngGlb : Hist := ⟨R.RNG_GLB_HIST, R.RNG_GLB_IMASK, 0, 0, 0⟩
def rng (n : Nat) : Hist := ⟨R.RNG_HIST n, R.RNG_IMASK n, 0, 0, 0⟩
def lvp : Hist := ⟨R.LVP_HIST, R.LVP_IMASK, 0, 0, 0⟩
def hsf : Hist := ⟨R.HSF_HIST, R.HSF_IMASK, 0, 0, 0⟩
def mtx : Hist := ⟨R.MTX_HIST, R.MTX_IMASK, 0, 0, 0⟩
def rst : Hist := ⟨R.RST_HIST, R.RST_IMASK, 0, 0, 0⟩
def axl : Hist := ⟨R.AXL_HIST, R.AXL_IMASK, 0, 0, 0⟩
def mate : Hist := ⟨R.MATE_HIST, R.MATE_IMASK, 0, 0, 2⟩
def mateDom : Hist := ⟨R.MATE_DOM_HIST, R.MATE_DOM_IMASK, 0, 0, 2⟩
def sec : Hist := ⟨R.SEC_HIST, R.SEC_IMASK, 0, 0, 3⟩
def flt : Hist := ⟨R.FLT_HIST, R.FLT_IMASK, 0, 0, 0⟩
end Hist

/-- Vector `v` is raised: its MSI-X message is sent, or its pending bit is set while the vector is masked (R458). -/
def State.raiseVec (s : State) (v : Nat) : State :=
  if (tabGet {} s.host.msix v).ctl.getLsbD 0 then
    { s with host := { s.host with pba := tabSet false s.host.pba v true } }
  else { s with host := { s.host with sent := tabSet 0 s.host.sent v (tabGet 0 s.host.sent v + 1) } }

/-- Hardware sets history bit `b` (its position in the register): the vector is raised when the bit was 0 and its mask bit is 1
(R458). -/
def State.raiseBit (s : State) (h : Hist) (b : Nat) : State :=
  if s.flag h.reg (bit b) then s
  else
    let s' := s.set h.reg (bit b) 1
    if s.flag h.mask (bit (b - h.lo + h.mlo)) then s'.raiseVec h.vec else s'

/-- Hardware sets the one-bit history field `f`. -/
def State.raise (s : State) (h : Hist) (f : Bits) : State := s.raiseBit h f.lo

/-- A history bit of GLB_MODE_HIST, whose vector depends on the bit (R309). -/
def State.raiseMode (s : State) (f : Bits) : State := s.raiseBit (Hist.glbMode f.lo) f.lo

/-- 1 for true. -/
def one (b : Bool) : Nat := if b then 1 else 0

/-! ### Memories -/

/-- The byte at address `a`; a byte nothing has written reads 0 (assumption 5). -/
def memRead (m : List Host.Cell) (a : Nat) : Byte := tabGet 0 m a

/-- `m` with byte `b` at address `a`. -/
def memWrite (m : List Host.Cell) (a : Nat) (b : Byte) : List Host.Cell := tabSet 0 m a b

/-- `m` with the bytes `l` from address `a` on. -/
def memWrites (m : List Host.Cell) (a : Nat) : List Byte → List Host.Cell
  | [] => m
  | b :: l => memWrites (memWrite m a b) (a + 1) l

/-- `n` bytes from address `a` on. -/
def memReads (m : List Host.Cell) (a n : Nat) : List Byte := (List.range n).map fun k => memRead m (a + k)

/-- The canonical form of a memory: addresses rise strictly and no entry equals what an unlisted address reads as. -/
def Memory.wf (m : List Host.Cell) : Bool := tabWf (fun _ => (0 : Byte)) m

/-- `v` as `n` bytes, least significant first. -/
def le (n v : Nat) : List Byte := (List.range n).map fun k => BitVec.ofNat 8 (v / 256 ^ k)

/-- The number that little-endian bytes spell. -/
def unle : List Byte → Nat
  | [] => 0
  | b :: l => b.toNat + 256 * unle l

/-- DMA into host memory. -/
def State.hostWrite (s : State) (a : Nat) (l : List Byte) : State :=
  { s with host := { s.host with mem := memWrites s.host.mem a l } }

/-! ### Accessors of the structured state -/

def State.rx (s : State) (n : Nat) : RxLane := tabGet {} s.media.rx n
def State.setRx (s : State) (n : Nat) (l : RxLane) : State := { s with media := { s.media with rx := tabSet {} s.media.rx n l } }
def State.tx (s : State) (n : Nat) : TxLane := tabGet {} s.media.tx n
def State.setTx (s : State) (n : Nat) (l : TxLane) : State := { s with media := { s.media with tx := tabSet {} s.media.tx n l } }
def State.route (s : State) (d : Nat) : Option Route := tabFind s.xpt.routes d
/-- A change to record `k` marks it dirty (R379). -/
def State.dirty (s : State) (k : Nat) : State := s.set (R.AXL_REC_STAT k) F.AXL_REC_STAT_DIRTY 1
/-- Set or remove a destination's route; record 8 holds the routes (Table 15-2). -/
def State.setRoute (s : State) (d : Nat) (r : Option Route) : State :=
  ({ s with xpt := { s.xpt with routes := match r with
    | some r => tabPut s.xpt.routes d r
    | none => tabDel s.xpt.routes d } } : State).dirty 8
def State.pg (s : State) (p : Nat) : PgSt := tabGet {} s.xpt.pg p
def State.setPg (s : State) (p : Nat) (g : PgSt) : State := { s with xpt := { s.xpt with pg := tabSet {} s.xpt.pg p g } }
def State.ring (s : State) (r : Nat) : Option Ring := tabFind s.fst.rings r
def State.setRing (s : State) (r : Nat) (g : Ring) : State := { s with fst := { s.fst with rings := tabPut s.fst.rings r g } }
def State.buf (s : State) (h : Nat) : Option Buf := tabFind s.fst.bufs h
def State.setBuf (s : State) (h : Nat) (b : Buf) : State := { s with fst := { s.fst with bufs := tabPut s.fst.bufs h b } }
def State.cw (s : State) (k : Nat) : Cw := tabGet {} s.fst.cw k
def State.setCw (s : State) (k : Nat) (c : Cw) : State := { s with fst := { s.fst with cw := tabSet {} s.fst.cw k c } }
def State.chainOf (s : State) (u : Nat) : Option Chain := tabFind s.fst.chains u
def State.setChain (s : State) (u : Nat) (c : Chain) : State := { s with fst := { s.fst with chains := tabPut s.fst.chains u c } }
def State.ctx (s : State) (c : Nat) : Option Ctx := tabFind s.che.ctx c
def State.setCtx (s : State) (c : Nat) (x : Ctx) : State := { s with che := { s.che with ctx := tabPut s.che.ctx c x } }
def State.eng (s : State) (e : Nat) : Engine := tabGet {} s.che.eng e
def State.setEng (s : State) (e : Nat) (g : Engine) : State := { s with che := { s.che with eng := tabSet {} s.che.eng e g } }
def State.unit (s : State) (u : Nat) : Unit := tabGet {} s.sou.unit u
def State.setUnit (s : State) (u : Nat) (x : Unit) : State := { s with sou := { s.sou with unit := tabSet {} s.sou.unit u x } }
def State.syn_ (s : State) (t : Nat) : Syn := tabGet {} s.syn.ts t
def State.setSyn (s : State) (t : Nat) (x : Syn) : State := { s with syn := { s.syn with ts := tabSet {} s.syn.ts t x } }
def State.refIn (s : State) (i : Nat) : RefIn := tabGet {} s.ref.ins i
def State.setRefIn (s : State) (i : Nat) (x : RefIn) : State := { s with ref := { s.ref with ins := tabSet {} s.ref.ins i x } }
def State.rst_ (s : State) (n : Nat) : RingSt := tabGet {} s.host.rings n
def State.setRst (s : State) (n : Nat) (x : RingSt) : State := { s with host := { s.host with rings := tabSet {} s.host.rings n x } }

/-! ### The seven dimensions (R308) -/

/-- Personality: 0 native, 1 LV, 2 mixed (R288). -/
def State.persona (s : State) : Nat := s.get R.LVP_STAT F.LVP_STAT_PERSONA
/-- Twin role: 0 SOLO, 1 PRIMARY, 2 STANDBY. -/
def State.role (s : State) : Nat := s.get R.MATE_STAT F.MATE_STAT_ROLE
/-- Role epoch (R397). -/
def State.epoch (s : State) : Nat := (s.rd R.MATE_EPOCH).toNat
/-- Signing-required mode in force. -/
def State.signReq (s : State) : Bool := s.flag R.SEC_STAT F.SEC_STAT_SIGN_REQ
/-- Lifecycle: 0 BLANK, 1 PROVISIONED, 2 FIELD, 3 RMA, 4 END. -/
def State.lifecycle (s : State) : Nat := s.get R.SEC_STAT F.SEC_STAT_LIFECYCLE
/-- TIME_VALID (R236). -/
def State.timeValid (s : State) : Bool := s.flag R.REF_STAT F.REF_STAT_TIME_VALID
/-- READY: descriptors are admitted (R285). -/
def State.isReady (s : State) : Bool := s.flag R.RNG_GLB_STAT F.RNG_GLB_STAT_READY
/-- RST_STAT.PHASE. -/
def State.phase (s : State) : Nat := s.get R.RST_STAT F.RST_STAT_PHASE
/-- The host reaches BAR0 and BAR2: from the end of P4 on, with the function enumerated (R364, R365), and not while the control clock has
failed, which stops the peripheral buses (R16). -/
def State.hostUp (s : State) : Bool := s.phase == 5 && s.host.pci.mse && !s.rst.cclkFail
/-- A register write that software makes arrives: the host reaches the block, and not in END, where only identification registers answer
(Table 11-3). -/
def State.ifUp (s : State) (k : State → State) : State := if s.hostUp && s.lifecycle != 4 then k s else s
/-- Adaptive voltage mode in force (R24). HSF_VCTL.MODE: 1 adaptive. -/
def State.adaptive (s : State) : Bool := s.flag R.HSF_VCTL F.HSF_VCTL_MODE
/-- The LV agent drives a window (R290). -/
def State.lvOn (s : State) : Bool := s.persona == 1 || s.persona == 2
/-- Transmit lane `n` lies in the LV window in force. -/
def State.lvTx (s : State) (n : Nat) : Bool := s.lvOn && decide (s.lv.txBase ≤ n) && decide (n < s.lv.txBase + 32)
/-- Receive lane `n` lies in the LV window in force. -/
def State.lvRx (s : State) (n : Nat) : Bool := s.lvOn && decide (s.lv.rxBase ≤ n) && decide (n < s.lv.rxBase + 32)
/-- Reset value of an LV register (Tables 10-3 to 10-6): CONFIG alone is not 0. -/
def lvReset (k : Nat) : BitVec 16 := if k = 2 then 3 else 0
/-- The LV register at page × 128 + address, as stored. -/
def State.lvReg (s : State) (k : Nat) : BitVec 16 := tabGet (lvReset k) s.lv.regs k
/-- Store an LV register. -/
def State.setLvReg (s : State) (k : Nat) (v : BitVec 16) : State :=
  { s with lv := { s.lv with regs := tabSet (lvReset k) s.lv.regs k v } }
/-- OUT_CTL of LV output `o`. -/
def State.outCtl (s : State) (o : Nat) : Nat := (s.lvReg (384 + o)).toNat
/-- AES3 output `n` is an LV AES output. -/
def State.lvAes (s : State) (n : Nat) : Bool := s.lvOn && decide (n / 4 = s.lv.aesQ)

/-! ### In-flight table and completions -/

/-- Entries an operation in flight holds beyond the operations it still has in the table: a salvo of N keeps N + 1 until its completion
is posted (R284). -/
def OpBody.entries : OpBody → Nat
  | .salvo v => 1 + (v.size - v.left)
  | _ => 1

/-- Entries the completion of an operation goes on holding until it is posted. -/
def OpBody.heldBy : OpBody → Nat
  | .salvo v => 1 + v.size
  | _ => 1

/-- An operation with this destination holds its entries; one that outlived the table holds none. -/
def CplDest.held : CplDest → Bool
  | .gone _ _ => false
  | _ => true

/-- Entries of the in-flight table in use (R284): operations in flight and completed descriptors not yet posted. -/
def State.inflight (s : State) : Nat :=
  (s.host.ops.map fun o => if o.dest.held then o.body.entries else 0).sum + (s.host.cpls.map (·.held)).sum

/-- `n` in-flight entries are free. -/
def State.entriesFree (s : State) (n : Nat) : Bool := decide (s.inflight + n ≤ 16384)

/-- A PRIMARY whose partner is in reach forwards each accepted descriptor (R23, R401). While its partner restarts it does not: what the
partner needs then reaches it by the state transfer (DESIGN CHOICE, assumption 153). -/
def State.forwards (s : State) : Bool :=
  s.role == 1 && !s.flag R.MATE_STAT F.MATE_STAT_ISOLATED && !s.flag R.MATE_STAT F.MATE_STAT_PARTNER_LOST
    && s.flag R.MATE_STAT F.MATE_STAT_LINK_UP && !s.flag R.MATE_STAT F.MATE_STAT_PARTNER_RESTARTING

/-- A number for an operation. -/
def State.freshId (s : State) : Nat × State :=
  (s.host.nextOp, { s with host := { s.host with nextOp := s.host.nextOp + 1 } })

/-- A number for a newly accepted descriptor; in the PRIMARY role it is also the number under which it is forwarded (R401). -/
def State.newId (s : State) : Nat × State :=
  let (id, s) := s.freshId
  (id, if s.forwards then { s with mate := { s.mate with await := s.mate.await ++ [id] } }.inc R.MATE_FWD_CNT else s)

/-- The RFN with which a forwarded immediate take goes to the STANDBY (R98). -/
def State.fwdNote (s : State) (id rfn : Nat) : State :=
  if s.mate.await.contains id then { s with mate := { s.mate with fwdRfn := s.mate.fwdRfn ++ [(id, rfn)] } } else s

/-- The ring of a completion that R260 has discarded and that still waits for the STANDBY's acknowledgement. -/
def noRing : Nat := 64

/-- A completion joins those waiting to be posted. -/
def State.pushCpl (s : State) (c : Cpl) : State := { s with host := { s.host with cpls := s.host.cpls ++ [c] } }

/-- A descriptor is refused before E3: it holds no in-flight entry (R284). -/
def State.refuse (s : State) (h : Hdr) (status result : Nat) : State :=
  s.pushCpl ⟨h.ring.val, h.tag, status, false, false, false, none, result, h.irq, 0, none, false⟩

/-- A descriptor dropped under DROP_IF_LATE (R88, R173, R273). -/
def State.refuseLate (s : State) (h : Hdr) (lateCmt : Bool) (result : Nat) : State :=
  s.pushCpl ⟨h.ring.val, h.tag, 0x01, false, false, lateCmt, some 0xFFFFFFFFFFFF, result, h.irq, 0, none, false⟩

/-- An accepted descriptor that completes at E5 with OK (R22): it holds its in-flight entry until it is posted, and waits for
the STANDBY's acknowledgement in the PRIMARY role (R23). A forwarded operation posts nothing (R286). -/
def State.done (s : State) (h : Hdr) (early : Bool) (status result : Nat) : State :=
  let fwd := s.forwards
  let (id, s) := s.newId
  if s.host.fwdNow then s else
  s.pushCpl ⟨h.ring.val, h.tag, status, early, false, false, none, result, h.irq, 1, if fwd then some id else none, false⟩

/-- Complete with OK and a result. -/
def State.ok (s : State) (h : Hdr) (result : Nat) : State := s.done h false 0x00 result

/-- The operation in flight with number `id`. -/
def State.op? (s : State) (id : Nat) : Option Op := s.host.ops.find? fun o => o.id == id

/-- What operation `id` is. -/
def State.opBody? (s : State) (id : Nat) : Option OpBody := (s.op? id).map (·.body)

/-- An operation enters the in-flight table at E3; answers its number. -/
def State.addOp (s : State) (h : Hdr) (result : Nat) (body : OpBody) : Nat × State :=
  let (id, s) := s.newId
  (id, { s with host := { s.host with
    ops := s.host.ops ++ [⟨id, if s.host.restoring then .gone 3 0xFF else if s.host.fwdNow then .fwd h.ring.val else .ring h.ring.val, h.tag, h.irq, result, s.host.fwdNow, body⟩] } })

/-- An entry of the in-flight table that belongs to a salvo in flight (R284). -/
def State.addEntry (s : State) (h : Hdr) (body : OpBody) : State :=
  let (id, s) := s.freshId
  { s with host := { s.host with ops := s.host.ops ++ [⟨id, .none, h.tag, false, 0, s.host.fwdNow, body⟩] } }

/-- Operation `id` with another body. -/
def State.setOp (s : State) (id : Nat) (body : OpBody) : State :=
  { s with host := { s.host with ops := s.host.ops.map fun o => if o.id = id then { o with body := body } else o } }

/-- Operation `id` leaves the table without a completion. -/
def State.dropOp (s : State) (id : Nat) : State :=
  { s with host := { s.host with ops := s.host.ops.filter fun o => o.id != id } }

/-- What an operation's completion carries. -/
structure CplInfo where
  status  : Nat
  untimed : Bool := false
  lateCmt : Bool := false
  rfn     : Option Nat := none
  result  : Option Nat := none
deriving DecidableEq, Repr

/-- An operation belongs to the leap table (R84, R87): a leap, or a salvo. -/
def OpBody.isLeap : OpBody → Bool
  | .take t => t.rfn != 0
  | .salvo _ => true
  | _ => false

/-- Operation `id` ends: its entry becomes a completion that waits to be posted; a completion that R260 discards counts in
RNG_GLB_DISCARD_CNT and sets FLR_DISCARD, and a forwarded operation posts none (R286). -/
def State.finish (s : State) (id : Nat) (c : CplInfo) : State :=
  match s.op? id with
  | none => s
  | some o =>
    let s := s.dropOp id
    match o.dest with
    | .ring n =>
      s.pushCpl ⟨n, o.tag, c.status, false, c.untimed, c.lateCmt, c.rfn, c.result.getD o.result, o.irq, o.body.heldBy,
        if s.mate.await.contains id then some id else none, o.body.isLeap⟩
    | .discard =>
      let s := if s.mate.await.contains id then
          s.pushCpl ⟨noRing, o.tag, c.status, false, false, false, none, 0, false, o.body.heldBy, some id, o.body.isLeap⟩
        else s
      (s.inc R.RNG_GLB_DISCARD_CNT).raise Hist.rngGlb F.RNG_GLB_HIST_FLR_DISCARD
    | .fwd _ => s
    | .gone _ _ => s
    | .none => s

/-- The takes in flight. -/
def State.takes (s : State) : List (Nat × Take) :=
  s.host.ops.filterMap fun o => match o.body with
    | .take t => some (o.id, t)
    | _ => none

end Sys2Proof.Machine
end

