-- ==== Sys2Proof/Machine/HostData.lean ====
section
/-! DEFINITION. What host memory holds for a descriptor, read from its bytes: signature blobs, salvo lists, parameter blocks, scan-out and flow
records, and lifecycle tokens (R277 to R282, R414). All are little-endian. -/
namespace Sys2Proof.Machine

/-- The little-endian number in `n` bytes from offset `o` on; a byte that is not there counts as zero. -/
def bytesAt (b : List Byte) (o n : Nat) : Nat := unle ((b.drop o).take n)

/-- Bit `i` of the byte at offset `o`. -/
def bitAt (b : List Byte) (o i : Nat) : Bool := bytesAt b o 1 / 2 ^ i % 2 == 1

/-- `n` bits from bit `i` on of the byte at offset `o`. -/
def bitsAt (b : List Byte) (o i n : Nat) : Nat := bytesAt b o 1 / 2 ^ i % 2 ^ n

/-- The lowest offset from `o` on, of `n` bytes, whose byte has a bit outside `mask` (a mask of these bytes). -/
def strayAt (b : List Byte) (o n mask : Nat) : Option Nat :=
  (List.range n).map (o + ·) |>.find? fun i => bytesAt b i 1 &&& (255 - mask / 256 ^ (i - o) % 256) != 0

/-- The bits of register fields, as a mask. -/
def fieldsMask (l : List Bits) : Nat := l.foldl (fun m b => m ||| (2 ^ b.width - 1) * 2 ^ b.lo) 0

/-- Bytes as numbers, for a digest. -/
def nums (b : List Byte) : List Nat := b.map BitVec.toNat

/-- The layer group at offset `o` of a scan-out record (Table 5-8). -/
def recLayer (b : List Byte) (o : Nat) : SouLayer :=
  let w := fun (i : Nat) => BitVec.ofNat 32 (bytesAt b (o + i) 4)
  { en := getF F.SOU_L_CTL_EN (w 0) == 1, key := getF F.SOU_L_CTL_KEY (w 0), fixed := getF F.SOU_L_CTL_FIXED (w 0) == 1,
    buf := getF F.SOU_L_CTL_BUF (w 0), opacity := getF F.SOU_L_CTL_OPACITY (w 0), ring := getF F.SOU_L_CTL_RING (w 0),
    x := getF F.SOU_L_POS_X (w 4), y := getF F.SOU_L_POS_Y (w 4), hi := getF F.SOU_L_KEY_HI (w 8), lo := getF F.SOU_L_KEY_LO (w 8) }

/-- The reserved bits of the layer group at offset `o` that are not zero, by their lowest byte. -/
def layerStray (b : List Byte) (o : Nat) : Option Nat :=
  (strayAt b o 4 (fieldsMask [F.SOU_L_CTL_EN, F.SOU_L_CTL_KEY, F.SOU_L_CTL_FIXED, F.SOU_L_CTL_BUF, F.SOU_L_CTL_OPACITY, F.SOU_L_CTL_RING])).or
    ((strayAt b (o + 4) 4 (fieldsMask [F.SOU_L_POS_X, F.SOU_L_POS_Y])).or (strayAt b (o + 8) 4 (fieldsMask [F.SOU_L_KEY_HI, F.SOU_L_KEY_LO])))

/-- The entry of a salvo list at offset `o` (R277). -/
def entryAt (b : List Byte) (o : Nat) : SalvoEntry :=
  { dst := bytesAt b o 2, src := bytesAt b (o + 2) 2, sync := bitAt b (o + 4) 0, clean := bytesAt b (o + 4) 4 / 2 == 0 }

/-- The items of a parameter block's bytes in order (R145), at most `k`: each on an 8-byte boundary, the last the one of type 0. -/
def parItems : Nat → List Byte → List ParItem
  | 0, _ => []
  | k + 1, b =>
    if b.isEmpty then []
    else
      let typ := bytesAt b 0 1
      let len := bytesAt b 4 4
      let d := (b.drop 8).take len
      let i : ParItem := ⟨typ, bytesAt b 1 1, bytesAt b 2 2 == 0, len,
        if typ = 8 then [bytesAt d 0 4] else (List.range ((d.length + 1) / 2)).map fun j => bytesAt d (2 * j) 2⟩
      if typ = 0 then [i] else i :: parItems k (b.drop (8 + (len + 7) / 8 * 8))

end Sys2Proof.Machine

namespace Sys2Proof

/-! ### Signature blobs (Table 9-11) -/

/-- The version. -/
def Blob.version (b : Blob) : Nat := Machine.bytesAt b.head 0 1
/-- The operator key slot. -/
def Blob.slot (b : Blob) : Nat := Machine.bytesAt b.head 1 1
/-- The signature length. -/
def Blob.sigLen (b : Blob) : Nat := Machine.bytesAt b.head 2 2
/-- The parameter set. -/
def Blob.oid (b : Blob) : Nat := Machine.bytesAt b.head 4 4
/-- The sequence number. -/
def Blob.seq (b : Blob) : Nat := Machine.bytesAt b.head 8 8
/-- The target device. -/
def Blob.target (b : Blob) : Nat := Machine.bytesAt b.head 16 2
/-- Bytes 18 to 23 are zero. -/
def Blob.zero (b : Blob) : Bool := Machine.bytesAt b.head 18 6 == 0

/-! ### Salvo lists (R277) -/

/-- The list can be found: its count lies in range and its address is aligned. -/
def SalvoList.located (l : SalvoList) (chain : Bool) : Bool :=
  decide (1 ≤ l.count ∧ l.count ≤ 4096) && l.pointer % (if chain then 4096 else 8) == 0

/-- The bytes read. -/
def SalvoList.bytes (l : SalvoList) : List Byte := l.data.getD []

/-- Offset of entry `i` in the bytes read: 511 to a page. -/
def SalvoList.entryOff (chain : Bool) (i : Nat) : Nat := if chain then i / 511 * 4096 + i % 511 * 8 else 8 * i

/-- The entries. -/
def SalvoList.entries (l : SalvoList) (chain : Bool) : List SalvoEntry :=
  if l.located chain then (List.range l.count).map fun i => Machine.entryAt l.bytes (SalvoList.entryOff chain i) else []

/-- The index of the first entry of the page that a misaligned next-page address would name. -/
def SalvoList.badPage (l : SalvoList) (chain : Bool) : Option Nat :=
  if chain then
    ((List.range ((l.count - 1) / 511)).find? fun p => Machine.bytesAt l.bytes (4096 * p + 4088) 8 % 4096 != 0).map fun p => 511 * (p + 1)
  else none

/-- The word behind the entries: the signature blob address of a signed list. -/
def SalvoList.last (l : SalvoList) (chain : Bool) : Nat :=
  Machine.bytesAt l.bytes (if chain then (l.count - 1) / 511 * 4096 + 4088 else 8 * l.count) 8

/-- The bytes of the entries in list order, without page pointers (R282). -/
def SalvoList.entryBytes (l : SalvoList) (chain : Bool) : List Byte :=
  if l.located chain then ((List.range l.count).map fun i => (l.bytes.drop (SalvoList.entryOff chain i)).take 8).flatten else []

/-! ### Parameter blocks (R145, R280) -/

/-- The size. -/
def ParBlock.size (b : ParBlock) : Nat := (b.data.getD []).length
/-- The items. -/
def ParBlock.items (b : ParBlock) : List ParItem := Machine.parItems (b.size / 8 + 1) (b.data.getD [])

/-! ### Scan-out records (R278) -/

/-- The SOU_CFG names a group, so it reads its record; with FREE it reads none. -/
def SouReq.reads (r : SouReq) : Bool := (r.gTiming || r.gOutput || r.gL1 || r.gL2 || r.gL3) && !r.free

/-- The set a record lays out, at record offset = register offset − 0x040. -/
def SouReq.set (r : SouReq) : SouSet :=
  let b := r.data.getD []
  let w := fun (i : Nat) => BitVec.ofNat 32 (Machine.bytesAt b i 4)
  { fmt := Machine.getF Machine.F.SOU_FMT_FORMAT (w 0), syn := Machine.getF Machine.F.SOU_FMT_SYN (w 0)
    out444 := Machine.getF Machine.F.SOU_FMT_OUT_444 (w 0) == 1
    offLines := Machine.getF Machine.F.SOU_OFFSET_LINES (w 4), offSamps := Machine.getF Machine.F.SOU_OFFSET_SAMPLES (w 4)
    frameOnly := Machine.getF Machine.F.SOU_CMT_FRAME_ONLY (w 8) == 1
    cl1 := Machine.getF Machine.F.SOU_CMT_CL1 (w 8), cl2 := Machine.getF Machine.F.SOU_CMT_CL2 (w 8)
    bg := (w 0xC).toNat, cdesc := Machine.bytesAt b 0x10 1
    l1 := Machine.recLayer b 0x20, l2 := Machine.recLayer b 0x30, l3 := Machine.recLayer b 0x40 }

/-- The lowest record offset at which a reserved bit of a group named is not zero (assumption 206). SYN and FORMAT are TIMING's, OUT_444 is
OUTPUT's. -/
def SouReq.zero (r : SouReq) : Option Nat :=
  let b := r.data.getD []
  let stray := fun (on : Bool) (o n : Nat) (l : List Machine.Bits) => if on then Machine.strayAt b o n (Machine.fieldsMask l) else none
  let f := [Machine.F.SOU_FMT_FORMAT, Machine.F.SOU_FMT_SYN, Machine.F.SOU_FMT_OUT_444]
  (stray (r.gTiming || r.gOutput) 0 4 f).or
    ((stray r.gTiming 4 4 [Machine.F.SOU_OFFSET_LINES, Machine.F.SOU_OFFSET_SAMPLES]).or
      ((stray r.gOutput 8 4 [Machine.F.SOU_CMT_FRAME_ONLY, Machine.F.SOU_CMT_CL2, Machine.F.SOU_CMT_CL1]).or
        ((stray r.gOutput 0x10 4 [Machine.F.SOU_CDESC_FULL, Machine.F.SOU_CDESC_RGB, Machine.F.SOU_CDESC_TRANSFER, Machine.F.SOU_CDESC_SPACE]).or
          ((if r.gL1 then Machine.layerStray b 0x20 else none).or
            ((if r.gL2 then Machine.layerStray b 0x30 else none).or (if r.gL3 then Machine.layerStray b 0x40 else none))))))

/-! ### Flow records (R279) -/

/-- The flow a record describes (Table 9-9). -/
def FlowReq.flow (r : FlowReq) : FlowRec :=
  let b := r.data.getD []
  let bit := Machine.bitAt b
  let num := Machine.bytesAt b
  let v6 := bit 0 0
  { ipv6 := v6, srcFilter := bit 0 1, prot := bit 0 2, st31 := bit 0 3, lossBlack := bit 0 4
    port := Machine.bitsAt b 1 0 2, sub := Machine.bitsAt b 1 2 2, pt := num 2 1, dscp := num 3 1, vlan := num 4 2 % 4096, pcp := Machine.bitsAt b 5 4 3
    sampling := Machine.bitsAt b 6 0 2, tenBit := bit 6 2, block := bit 6 3, sender := Machine.bitsAt b 6 4 2, fmt := num 7 1
    space := Machine.bitsAt b 8 0 2, tcs := Machine.bitsAt b 8 2 2, channels := num 9 1, l24 := bit 10 0, us125 := bit 10 1
    pathDiff := num 12 2, udpPort := num 14 2, ssrc := num 16 4, mac := num 20 6
    dstAddr := num 32 (if v6 then 16 else 4), srcAddr := num 48 (if v6 then 16 else 4) }

/-- The lowest record offset at which a field that does not apply to the flow's kind or direction, or a byte or bit that Table 9-9 gives no
meaning, is not zero (assumption 206). -/
def FlowReq.zero (r : FlowReq) (rx : Bool) : Option Nat :=
  let b := r.data.getD []
  let num := Machine.bytesAt b
  let video := r.kind == 0
  let audio := r.kind == 1
  let v6 := Machine.bitAt b 0 0
  let l : List (Nat × Bool) :=
    [(0, 31 < num 0 1 || (Machine.bitAt b 0 1 && !rx) || (Machine.bitAt b 0 3 && !audio) || (Machine.bitAt b 0 4 && !(rx && video))),
      (1, 15 < num 1 1), (5, 127 < num 5 1), (3, rx && num 3 1 != 0),
      (6, 63 < num 6 1 || (!video && num 6 1 != 0) || (rx && num 6 1 / 8 != 0)), (7, !video && num 7 1 != 0),
      (8, 15 < num 8 1 || (!video && num 8 1 != 0)), (9, !audio && num 9 1 != 0), (10, 3 < num 10 1 || (!audio && num 10 1 != 0)),
      (11, num 11 1 != 0), (12, !(rx && Machine.bitAt b 0 2) && num 12 1 != 0), (13, !(rx && Machine.bitAt b 0 2) && num 13 1 != 0)]
    ++ (List.range 4).map (fun i => (16 + i, !rx && num (16 + i) 1 != 0))
    ++ (List.range 6).map (fun i => (20 + i, rx && num (20 + i) 1 != 0))
    ++ (List.range 6).map (fun i => (26 + i, num (26 + i) 1 != 0))
    ++ (List.range 12).map (fun i => (36 + i, !v6 && num (36 + i) 1 != 0))
    ++ (List.range 16).map (fun i => (48 + i, (!rx || (!v6 && decide (4 ≤ i))) && num (48 + i) 1 != 0))
    ++ (List.range 64).map (fun i => (64 + i, num (64 + i) 1 != 0))
  ((l.filter (·.2)).map (·.1)).min?

/-! ### Lifecycle tokens (Table 17-2) -/

/-- The target. -/
def Token.target (k : Token) : Nat := Machine.bytesAt k.head 16 1

/-- Magic, zero bytes and certificate length are as laid down. -/
def Token.form (k : Token) : Bool :=
  k.head.length == 64 && Machine.bytesAt k.head 0 8 == 0x313054434C565844 && Machine.bytesAt k.head 17 7 == 0
    && Machine.bytesAt k.head 56 8 == (if k.target = 1 then k.cert.length else 0)

/-- The signature is a vendor key's over the SHAKE256 digest of bytes 0 to 63. -/
def Token.verifies (k : Token) : Bool := k.vendor && k.digest == Config.shake 512 (Machine.nums k.head)

end Sys2Proof
end

