-- ==== Sys2Proof/Machine/MtxOps.lean ====
section
/-! DEFINITION. Shared operations of the control matrix: targets and extents (R338, R459), access tables and locks (R345 to R349), refusals and
decode errors (R346, R350), what its masters have outstanding, its logs, the reset of a master (R342, R351 to R354), and a register write of the
host's. -/
namespace Sys2Proof.Machine

/-- The requests of master `m`, oldest first. -/
def State.mtxOut (s : State) (m : Nat) : List MtxOut := tabGet [] s.mtx.out m
/-- `s` with the requests of master `m`. -/
def State.setMtxOut (s : State) (m : Nat) (l : List MtxOut) : State :=
  { s with mtx := { s.mtx with out := tabSet [] s.mtx.out m l } }

/-- Master `m` hangs. -/
def State.hung (s : State) (m : Nat) : Bool := s.flag (R.MTX_MST_STAT m) F.MTX_MST_STAT_HUNG

/-- Master `m` is in reset: masters 5 and 6 with PERST_N, every one in P0. -/
def State.masterInReset (s : State) (m : Nat) : Bool :=
  (s.host.perst && (m == 5 || m == 6)) || s.get R.RST_STAT F.RST_STAT_PHASE == 0

/-- Beats of a request (R339). -/
def reqBeats (r : MtxReq) : Nat := max 1 ((r.bytes + 15) / 16)

/-- The host's direct path issues every request with transaction ID 0 (R343). -/
def reqId (r : MtxReq) : Nat := if r.master.val = 6 then 0 else r.txid % 16

/-- Target number of a request that no target will answer. -/
def noTarget : Nat := 15

/-- The burst of a request holds its target port: granted, with beats to carry (R340). -/
def MtxOut.going (o : MtxOut) : Bool := o.granted && o.left != 0

/-- A burst is in progress at target port `t`. -/
def State.portBusy (s : State) (t : Nat) : Bool := s.mtx.out.any fun p => p.2.any fun o => o.target == t && o.going

/-- Target port `t` is in reset: its reset is asserted and its burst in progress has ended (R353). -/
def State.portInReset (s : State) (t : Nat) : Bool := s.mtx.ports.contains t && !s.portBusy t

/-- The reset of target port `t` is asserted or let go. -/
def State.portReset (s : State) (t : Nat) (on : Bool) : State :=
  let l := s.mtx.ports.filter (· != t)
  { s with mtx := { s.mtx with ports := if on then l ++ [t] else l } }

/-- A request waits for an earlier one of its ID, in `before`, at another target (R343). -/
def MtxOut.heldBy (before : List MtxOut) (o : MtxOut) : Bool :=
  !o.granted && before.any fun b => reqId b.req == reqId o.req && b.target != o.target

/-- Requests of a list that count as outstanding, those of `before` standing ahead of them: granted, or held back under R343 or R344. -/
def countOut : List MtxOut → List MtxOut → Nat
  | _, [] => 0
  | before, o :: l => (if o.granted || o.cyc || o.heldBy before then 1 else 0) + countOut (before ++ [o]) l

/-- The requests of master `m` outstanding, at most 16 (R342). -/
def State.outCount (s : State) (m : Nat) : Nat := min 16 (countOut [] (s.mtxOut m))

/-- An event of master `m` reaches log `k`: of two in one control cycle the lower master is recorded (R354). -/
def State.logMtx (s : State) (k m : Nat) (write : State → State) : State :=
  let s' := write { s with mtx := { s.mtx with logged := tabPut s.mtx.logged k (s.now, m) } }
  match tabFind s.mtx.logged k with
  | some p => if p.1 / 2970 = s.now / 2970 ∧ p.2 < m then s else s'
  | none => s'

/-- A burst of a reset master is completed toward its target, its remaining beats without effect (R352). -/
def State.abortBurst (s : State) (m : Nat) (o : MtxOut) : State :=
  if o.granted && decide (0 < o.left ∧ o.left < reqBeats o.req) then
    let a := R.MTX_ABORT_LOG
    let s := s.logMtx 2 m fun s => ((s.set a F.MTX_ABORT_LOG_BEATS o.left).set a F.MTX_ABORT_LOG_TARGET o.target).set a F.MTX_ABORT_LOG_MASTER m
    (s.inc R.MTX_ABORT_CNT).raise Hist.mtx F.MTX_HIST_ABORT
  else s

/-- What a reset leaves of a request at its target: one granted there completes, with the beats carried where its burst was cut (R352). -/
def MtxOut.leave (o : MtxOut) : List MtxOut :=
  if !o.granted || o.target == noTarget then []
  else if 0 < o.left ∧ o.left < reqBeats o.req then
    [{ o with left := 0, req := { o.req with bytes := 16 * (reqBeats o.req - o.left) } }]
  else [{ o with left := 0 }]

/-- Master `m` is reset: its bursts are completed, its granted requests complete at their targets with their responses discarded, its other
requests are dropped, and it hangs no more. Host reads among them end with Completer Abort (Table 13-4). -/
def State.resetMaster (s : State) (m : Nat) : State :=
  let l := s.mtxOut m
  let s := l.foldl (fun (s : State) (o : MtxOut) => s.abortBurst m o) s
  let n := if m = 6 then (l.filter fun o => !o.req.write).length else 0
  let s := { s with mtx := { s.mtx with late := s.mtx.late ++ l.flatMap MtxOut.leave, aborts := s.mtx.aborts + n } }
  (s.setMtxOut m []).set (R.MTX_MST_STAT m) F.MTX_MST_STAT_HUNG 0

/-! ### Targets -/

/-- The target of a matrix address (Table 13-1); none is a decode error. -/
def mtxTarget (a : Nat) : Option Nat :=
  if a < 0x40000 then some 0
  else if 0x10000000 ≤ a ∧ a < 0x10400000 then some 1
  else if 0x11000000 ≤ a ∧ a < 0x11800000 then some 2
  else if 0x12000000 ≤ a ∧ a < 0x12080000 then some 3
  else if 0x13000000 ≤ a ∧ a < 0x13010040 then some 4
  else if 0x20000000 ≤ a ∧ a < 0x20100000 then some 5
  else if 0x30000000 ≤ a ∧ a < 0x34000000 then some 6
  else if 0x40000000 ≤ a ∧ a < 0x41000000 then some 7
  else if 0x41000000 ≤ a ∧ a < 0x42000000 then some (8 + (a - 0x41000000) / 0x400000)
  else if 0x42000000 ≤ a ∧ a < 0x44000000 then some 7
  else if 0x50000000 ≤ a ∧ a < 0x50100000 then some 12
  else if 0x8000000000 ≤ a ∧ a < 0x10000000000 then some 13
  else none

/-- The target is a bridge to registers. -/
def isBridge (t : Nat) : Bool := decide (7 ≤ t ∧ t ≤ 11)

/-- BAR0 offset `o` lies in a block's extent (Table 13-6). -/
def inExtent (o : Nat) : Bool :=
  decide (o < 0xB0000) || decide (0x2000000 ≤ o ∧ o < 0x2300000) || decide (0x3000000 ≤ o ∧ o < 0x3020000) ||
    (decide (0x1000000 ≤ o ∧ o < 0x2000000) &&
      (let w := (o - 0x1000000) % 0x400000
       decide (w < 0x2000) || decide (0x100000 ≤ w ∧ w < 0x101000) || decide (0x200000 ≤ w ∧ w < 0x203000)
        || decide (0x300000 ≤ w ∧ w < 0x305000) || decide (0x340000 ≤ w ∧ w < 0x340400) || decide (0x350000 ≤ w ∧ w < 0x350400)))

/-! ### Tables and locks -/

/-- Permission bit `k` (0 read, 1 write, 2 execute) of master `m` in region `r` of target `t` (Table 13-5). -/
def State.permBit (s : State) (t r m k : Nat) : Bool :=
  if m < 10 then (s.rd (R.MTX_RGN_PERM_LO t r)).getLsbD (3 * m + k)
  else if m < 13 then (s.rd (R.MTX_RGN_PERM_HI t r)).getLsbD (3 * (m - 10) + k)
  else false

/-- The region that decides: the lowest enabled one that contains the address (R345). -/
def State.regionOf (s : State) (t a : Nat) : Option Nat :=
  lowest 8 fun r =>
    s.flag (R.MTX_RGN_BASE t r) F.MTX_RGN_BASE_EN && decide (s.get (R.MTX_RGN_BASE t r) F.MTX_RGN_BASE_BASE ≤ a / 4096)
      && decide (a / 4096 ≤ s.get (R.MTX_RGN_LIMIT t r) F.MTX_RGN_LIMIT_LIMIT)

/-- The debug port's way to an address: open only while debug is, and never to SEC or region 0 of AXL (R349, R416). -/
def State.debugPath (s : State) (t a : Nat) : Bool :=
  s.get R.SEC_STAT F.SEC_STAT_DEBUG != 0 && t != 5 && !(t == 3 && decide (a < 0x12012000))

/-- The access tables let master `m` make the access of kind `k` at address `a` of target `t`. -/
def State.tablesAllow (s : State) (m t a k : Nat) : Bool :=
  (m != 9 || s.debugPath t a) &&
    (match s.regionOf t a with
      | some r => s.permBit t r m k
      | none => false)

/-- The master fetches instructions under execute permission (R345). -/
def fetches (m : Nat) : Bool := decide (m < 5) || m == 10

/-- A register that an earlier chapter names stands at BAR0 offset `o`. -/
def named (o : Nat) : Bool := (regRow o).isSome

/-- A register that an earlier chapter names as driven by the management cores: routes, scan-out sets, SAP_CTL and its divider, and the RO
registers of FST, AUD and HSF (R347; R21, R106, R150, R182, R216, R217, R337). -/
def lockedReg (o : Nat) : Bool :=
  let ro := match regRow o with
    | some r => r.rw == 0 && r.rws == 0 && r.w1c == 0 && r.wo == 0
    | none => false
  if o < 0x1000000 then decide (0x90000 ≤ o ∧ o < 0xA0000) && ro
  else if o < 0x2000000 then
    let w := (o - 0x1000000) % 0x400000
    let q := (w - 0x300000) % 0x200
    named o && ((decide (0x300000 ≤ w ∧ w < 0x305000) && (decide (0x40 ≤ q ∧ q < 0x90) || decide (0x140 ≤ q ∧ q < 0x190)))
      || (decide (0x340000 ≤ w ∧ w < 0x340400) && decide (w % 0x100 < 0x10)))
  else if o < 0x2100000 then decide (0x2002000 ≤ o ∧ o < 0x2004000) && o % 0x10 == 0
  else decide (o < 0x2300000) && ro

/-- SDI_RX_CTL or SDI_TX_CTL of a lane of the LV window in force, which the window lock holds against masters 5, 6, 8 and 9 (R348), and R347 against
master 7, since the management cores drive it (R291). -/
def State.windowLocked (s : State) (o : Nat) : Bool :=
  if o < 0x1000000 ∨ 0x2000000 ≤ o then false
  else
    let q := (o - 0x1000000) / 0x400000
    let w := (o - 0x1000000) % 0x400000
    w % 0x40 == 0 && ((decide (w < 0x480) && s.lvRx (18 * q + w / 0x40))
      || (decide (0x1000 ≤ w ∧ w < 0x1480) && s.lvTx (18 * q + (w - 0x1000) / 0x40)))

/-- The MTX registers that only the SC writes (R349). -/
def scOnly (o : Nat) : Bool := decide (0x21000 ≤ o ∧ o < 0x21E00)

/-- No lock stands against a write of the register at BAR0 offset `o` by master `m`. -/
def State.unlocked (s : State) (m o : Nat) : Bool :=
  !(decide (5 ≤ m ∧ m ≤ 9) && lockedReg o) && !(decide (5 ≤ m ∧ m ≤ 9) && s.windowLocked o) && !(m != 4 && scOnly o)

/-- Words of an access of `n` bytes. -/
def wordsOf (n : Nat) : Nat := max 1 ((n + 3) / 4)

/-- The matrix takes a request to target `t`: the tables allow it and, for a write of registers, no lock stands in its way (R345 to
R348). -/
def State.mayAccess (s : State) (r : MtxReq) (t : Nat) : Bool :=
  let k := if r.write then 1 else if r.fetch && fetches r.master then 2 else 0
  s.tablesAllow r.master t r.addr k &&
    (!r.write || !isBridge t || (List.range (wordsOf r.bytes)).all fun i => s.unlocked r.master (r.addr - 0x40000000 + 4 * i))

/-! ### Refusals and decode errors -/

/-- The high word of a log (Table 13-5). -/
def logHi (r : MtxReq) (b13 : Bool) : Nat :=
  r.addr / 2 ^ 32 % 256 + r.master.val * 2 ^ 8 + one r.write * 2 ^ 12 + one b13 * 2 ^ 13

/-- `s` with what the last request read. -/
def State.setData (s : State) (d : Option Nat) : State := { s with mtx := { s.mtx with data := d } }

/-- A refused access is acknowledged: a read returns zero, a write is dropped, a fetch faults; it is logged once (R346). -/
def State.refuseAccess (s : State) (r : MtxReq) : State :=
  let s := s.logMtx 3 r.master fun s =>
    s.wr2 R.MTX_PERM_LOG_LO R.MTX_PERM_LOG_HI (r.addr % 2 ^ 32 + 2 ^ 32 * logHi r (r.fetch && fetches r.master))
  let s := s.inc R.MTX_PERM_CNT
  (s.raise Hist.mtx F.MTX_HIST_PERM_ERR).setData (if r.write || r.fetch then none else some 0)

/-- Masters whose decode errors and unanswered requests the matrix answers (R350). -/
def answersFor (m : Nat) : Bool := m == 4 || m == 8 || m == 9

/-- A decode error that is answered (R350). -/
def State.decodeAnswer (s : State) (r : MtxReq) : State :=
  let s := s.logMtx 0 r.master fun s => s.wr2 R.MTX_DECERR_LOG_LO R.MTX_DECERR_LOG_HI (r.addr % 2 ^ 32 + 2 ^ 32 * logHi r false)
  let s := s.inc R.MTX_DECERR_CNT
  (s.raise Hist.mtx F.MTX_HIST_DECERR).setData (if r.write then none else some 0)

/-! ### A write of the host's -/

/-- A 32-bit write of BAR0 offset `a` by the host. -/
def hostReq (a t : Nat) : MtxReq := ⟨6, 0, 0x40000000 + a, true, false, 0, 4, 0, none, true, t, ⟨false, none⟩⟩

/-- The tables and locks let the host write the register at BAR0 offset `a`. -/
def State.hostMay (s : State) (a : Nat) : Bool :=
  match mtxTarget (0x40000000 + a) with
  | some t => s.mayAccess (hostReq a s.now) t
  | none => false

/-- A write of the register at BAR0 offset `a` by the host's direct path, as a command of its own: refused where the tables or a lock refuse it
(R345 to R348), lost while its port hangs (R351). -/
def State.byHost (s : State) (a : Nat) (k : State → State) : State :=
  s.ifUp fun s => if s.hung 6 then s else if s.hostMay a then k s else s.refuseAccess (hostReq a s.now)

end Sys2Proof.Machine
end

