-- ==== Sys2Proof/Machine/SynMath.lean ====
section
/-! DEFINITION. What a synthesizer's offset and RESIDUAL are at a given time: the piecewise motion of user profiles and of absorption
(R249 to R252), in whole numbers. -/
namespace Sys2Proof.Machine

/-- Integer square root by bits: the greatest `r` below `2 ^ k` plus `r0` whose square is at most `n`. -/
def isqrtBits (n : Nat) : Nat → Nat → Nat
  | 0, r => r
  | k + 1, r => if (r + 2 ^ k) * (r + 2 ^ k) ≤ n then isqrtBits n k (r + 2 ^ k) else isqrtBits n k r

/-- Integer square root of numbers below 2^128. -/
def isqrt (n : Nat) : Nat := isqrtBits n 64 0

/-- The sign of a number: 1, 0 or −1. -/
def sgn (x : Int) : Int := if x < 0 then -1 else if x = 0 then 0 else 1

/-- The legs of an absorption of RESIDUAL `r` ns from offset `o` ppb at slope `s` ppb/s toward at most `m` ppb (R250): peak offset in
10⁻⁹ ppb, and the lengths of the rise, the hold and the fall in ns. -/
def absorbLegs (r o : Int) (m s : Nat) : Int × Nat × Nat × Nat :=
  let x0 : Int := (r.natAbs : Int) * 10 ^ 18
  let v0 : Int := sgn r * o * 10 ^ 9
  let vp : Int := isqrt ((2 * (s : Int) * x0 + v0 * v0) / 2).toNat
  let vt : Int := min ((m : Int) * 10 ^ 9) vp
  let s' : Int := max 1 (s : Int)
  let t1 : Int := (vt - v0).natAbs / s'
  let d1 : Int := (vt + v0) * t1 / 2
  let d3 : Int := vt * vt / (2 * s')
  let t2 : Int := if vt < vp ∧ 0 < vt then (x0 - d1 - d3) / vt else 0
  (vt, t1.toNat, t2.toNat, (vt / s').toNat)

/-- RESIDUAL (ns) and offset (ppb) `dt` ns into such an absorption. With a ceiling of 0 the offset returns to 0 and RESIDUAL stays. -/
def absorbAt (r o : Int) (m s dt : Nat) : Int × Int :=
  let (vt, t1, t2, t3) := absorbLegs r o m s
  let v0 : Int := sgn r * o * 10 ^ 9
  let up : Int := if vt < v0 then -(s : Int) else s
  let d1 : Int := (vt + v0) * t1 / 2
  if dt < t1 then
    let v := v0 + up * dt
    (r - sgn r * ((v0 + v) * dt / 2 / 10 ^ 18), sgn r * v / 10 ^ 9)
  else if m = 0 then (r - sgn r * (d1 / 10 ^ 18), 0)
  else if dt < t1 + t2 then
    (r - sgn r * ((d1 + vt * ((dt - t1 : Nat) : Int)) / 10 ^ 18), sgn r * vt / 10 ^ 9)
  else if dt < t1 + t2 + t3 then
    let u : Int := ((dt - t1 - t2 : Nat) : Int)
    let v := vt - s * u
    (r - sgn r * ((d1 + vt * t2 + (vt + v) * u / 2) / 10 ^ 18), sgn r * v / 10 ^ 9)
  else (0, 0)

/-- Length of an absorption in ns. -/
def absorbLen (r o : Int) (m s : Nat) : Nat :=
  let (_, t1, t2, t3) := absorbLegs r o m s
  t1 + t2 + t3

/-- Length in ns of a segment that moves the offset from `a` to `b` ppb at `s` ppb/s. -/
def segLen (a b : Int) (s : Nat) : Nat := (b - a).natAbs * 10 ^ 9 / max 1 s

/-- Phase in ns a segment moves: the mean of its offsets times its duration (R252). -/
def segPhase (a b : Int) (s : Nat) : Int := (a + b) * ((b - a).natAbs : Int) / (2 * (max 1 s : Nat))

/-- Offset and phase moved `dt` ns into a segment. -/
def segAt (a b : Int) (s dt : Nat) : Int × Int :=
  if segLen a b s ≤ dt then (b, segPhase a b s)
  else
    let v : Int := a + sgn (b - a) * ((s * dt : Nat) : Int) / 10 ^ 9
    (v, (a + v) * (dt : Int) / (2 * 10 ^ 9))

/-- The ceiling of an absorption's offset toward the sign of RESIDUAL `r`, in ppb (R250, R253). -/
def State.absMax (s : State) (t : Nat) (r : Int) : Nat :=
  let m := 10 * max 1 (min 10000 (s.get (R.SYN_TS_ABS t) F.SYN_TS_ABS_ABS_OFS))
  if 0 < r then min m (100 * s.get (R.SYN_TS_FMAX t) F.SYN_TS_FMAX_TS_FMAX - 500) else m

/-- The slope of absorption in ppb/s. -/
def State.absSlope (s : State) (t : Nat) : Nat := max 1 (min 10000 (s.get (R.SYN_TS_ABS t) F.SYN_TS_ABS_ABS_SLOPE))

/-- RESIDUAL as it stood at the last event of synthesizer `t`. -/
def State.synBase (s : State) (t : Nat) : Int := s.rdInt (R.SYN_TS_RESIDUAL t)

/-- A user profile runs (its return to 0 after ABORT included). -/
def State.ramping (s : State) (t : Nat) : Bool := (s.syn_ t).seg.isSome

/-- An absorption runs: ABSORB in force, no user profile, and RESIDUAL not yet 0 (R250). -/
def State.absorbing (s : State) (t : Nat) : Bool := (s.syn_ t).absorb && !s.ramping t && s.synBase t != 0

/-- RESIDUAL and offset of synthesizer `t` now. -/
def State.synNow (s : State) (t : Nat) : Int × Int :=
  let x := s.syn_ t
  if s.ramping t then
    let (o, p) := segAt x.segOfs x.segTgt x.segSlope ((s.now - x.segAt) / 2376)
    (x.segRes - p, o)
  else if s.absorbing t then
    absorbAt (s.synBase t) x.absOfs (s.absMax t (s.synBase t)) (s.absSlope t) ((s.now - x.absAt) / 2376)
  else (s.synBase t, x.absOfs)

/-! ### States and the reference edge stream (R240, R241, R244) -/

/-- Family and MULT code in force. -/
def State.synFam (s : State) (t : Nat) : Nat := s.get (R.SYN_TS_STAT t) F.SYN_TS_STAT_FAMILY
def State.synMult (s : State) (t : Nat) : Nat := s.get (R.SYN_TS_STAT t) F.SYN_TS_STAT_MULT
/-- State of Table 8-2: 0 OFF, 1 SEARCH, 2 HOP, 3 LOCKED, 4 GATED. -/
def State.synState (s : State) (t : Nat) : Nat := s.get (R.SYN_TS_STAT t) F.SYN_TS_STAT_STATE

/-- A CLK_HI cycle in ticks (Table 8-1): 1/2,376 MHz in family I, 1.001 times that in family F. -/
def cycleTicks (fam : Nat) : Nat := if fam = 1 then 1001 else 1000

/-- A reference period in ticks: f_REF = f_TS / MULT and f_TS = CLK_HI / 16 (R240, Table 8-1). -/
def edgeTicks (fam mult : Nat) : Nat := 16 * cycleTicks fam * 2 ^ mult

/-- Ticks by which the synthesizer's edges, frames and cycles lag the time base's: RESIDUAL, and a step not yet passed. -/
def State.synLag (s : State) (t : Nat) : Int := ((s.synNow t).1 + (s.syn_ t).step) * 2376

/-- A synthesizer that may clock an audio master: family I with no absorption, profile or RESIDUAL (R255). -/
def State.synForAudio (s : State) (t : Nat) : Bool :=
  s.synFam t == 0 && !s.flag (R.SYN_TS_CTL t) F.SYN_TS_CTL_ABSORB && !s.ramping t && (s.synNow t).1 == 0

/-- A profile and absorption end with the gating of a LOCKED synthesizer (R254). -/
def State.synEnd (s : State) (t : Nat) : State :=
  let x := s.syn_ t
  let s := if s.ramping t then s.raise (Hist.syn t) F.SYN_TS_HIST_RAMP_ERR else s
  (s.wrInt (R.SYN_TS_RESIDUAL t) 0).setSyn t { x with
    seg := none, todo := [], aborting := false, absOfs := 0, step := 0, stepAt := none, passed := none }

end Sys2Proof.Machine
end

