-- ==== Sys2Proof/Machine/Format.lean ====
section
/-! DEFINITION. Formats (Tables 3-5, 3-7, 5-1), frame grids, switch points and reference frame numbers (R70 to R73, R83, R157). -/
namespace Sys2Proof.Machine

/-! ### Rates and formats -/

/-- Ticks in one second of the device time base. -/
def ticksPerSec : Nat := 2376000000000
/-- Ticks in one nanosecond. -/
def ticksPerNs : Nat := 2376
/-- Ticks in one microsecond. -/
def ticksPerUs : Nat := 2376000

/-- The frame period D of a leap or frame rate code, in ticks (Table 3-7); codes 0xB to 0xF count as 0x6. -/
def rateD : Nat → Nat
  | 0 => 99099000000 | 1 => 99000000000 | 2 => 95040000000 | 3 => 79279200000 | 4 => 79200000000
  | 5 => 47520000000 | 7 => 39600000000 | 8 => 23760000000 | 9 => 19819800000 | 10 => 19800000000
  | _ => 39639600000

/-- Frames of a rate code in 1001 s, a whole number. -/
def rateF : Nat → Nat
  | 0 => 24000 | 1 => 24024 | 2 => 25025 | 3 => 30000 | 4 => 30030 | 5 => 50050
  | 7 => 60060 | 8 => 100100 | 9 => 120000 | 10 => 120120 | _ => 60000

/-- A format of the scan-out format table: active size, raster, scan, rate code, first active lines, switch line and clock
family F. -/
structure Fmt where
  w      : Nat
  lines  : Nat
  totS   : Nat
  totL   : Nat
  inter  : Bool
  rate   : Nat
  f1     : Nat
  f2     : Nat
  sw     : Nat
  famF   : Bool
deriving DecidableEq, Repr

/-- A fractional rate code. -/
def rateFrac (r : Nat) : Bool := r == 0 || r == 3 || r == 6 || r == 9

/-- A progressive built-in format. -/
def progFmt (w l tl f1 rate totS : Nat) : Fmt := ⟨w, l, totS, tl, false, rate, f1, 0, 7, rateFrac rate⟩

/-- The built-in formats of stepping B0 (Table 5-1). -/
def builtinFmt (i : Nat) : Option Fmt :=
  if i = 0 then some ⟨720, 486, 858, 525, true, 3, 21, 283, 10, false⟩
  else if i = 1 then some ⟨720, 576, 864, 625, true, 2, 23, 336, 6, false⟩
  else if i ≤ 4 then some (progFmt 1280 720 750 26 (i + 3) (if i = 2 then 1980 else 1650))
  else if i ≤ 7 then
    some ⟨1920, 1080, (if i = 5 then 2640 else 2200), 1125, true, i - 3, 21, 584, 7, rateFrac (i - 3)⟩
  else if i ≤ 0x12 then
    some (progFmt 1920 1080 1125 42 (i - 8) (([2750, 2750, 2640, 2200, 2200, 2640, 2200, 2200, 2640, 2200, 2200])[i - 8]?.getD 0))
  else if i ≤ 0x1A then
    some (progFmt 3840 2160 2250 84 (i - 0x13) (([5500, 5500, 5280, 4400, 4400, 5280, 4400, 4400])[i - 0x13]?.getD 0))
  else if i ≤ 0x22 then
    some (progFmt 7680 4320 4500 168 (i - 0x1B) (([11000, 11000, 10560, 8800, 8800, 10560, 8800, 8800])[i - 0x1B]?.getD 0))
  else none

/-- A user format entry in force as a format (R155). -/
def UFmt.fmt (u : UFmt) : Fmt :=
  ⟨u.activeWidth, u.activeLines, u.totalSamples, u.totalLines, u.interlaced, u.rate, u.firstF1, u.firstF2, u.swLine, rateFrac u.rate⟩

/-- The format of an index (R152); none for a reserved index or a user format with no valid entry. -/
def State.fmt? (s : State) (i : Nat) : Option Fmt :=
  if i < 0x40 then builtinFmt i
  else if i < 0x50 then (tabFind s.xpt.ufmt (i - 0x40)).map UFmt.fmt
  else none

/-- The default commit lines: the first line after each field's last active line (R171). -/
def Fmt.cl1 (f : Fmt) : Nat := if f.inter then f.f1 + f.lines / 2 else f.f1 + f.lines
/-- The default commit line of field 2, which may lie on line 1 of the next frame (Table 5-1, index 0). -/
def Fmt.cl2 (f : Fmt) : Nat :=
  let l := f.f2 + f.lines / 2
  if l > f.totL then l - f.totL else l

/-- Frame period in ticks. -/
def Fmt.period (f : Fmt) : Nat := rateD f.rate

/-- Fields per frame. -/
def Fmt.fields (f : Fmt) : Nat := if f.inter then 2 else 1

/-- The sample clock × 1001, in Hz. -/
def Fmt.clock (f : Fmt) : Nat := f.totS * f.totL * rateF f.rate

/-- The rate code of the links of a `k`-link SDI signal that carries format `f` (R31, R39, R156); none when no SDI rate does. -/
def Fmt.sdiCode (f : Fmt) (k : Nat) : Option Nat :=
  let fam := if f.famF then 1 else 0
  let unit := if f.famF then 74250000 * 1000 else 74250000 * 1001
  if f.clock = 13500000 * 1001 then (if k = 1 then some 1 else none)
  else if k = 1 then
    if f.clock = unit then some (2 + fam)
    else if f.clock = 2 * unit then some (4 + fam)
    else if f.clock = 4 * unit then some (6 + fam)
    else if f.clock = 8 * unit then some (8 + fam)
    else none
  else if k = 2 then if f.clock = 4 * unit then some (4 + fam) else none
  else if k = 4 then
    if f.lines = 4320 then some (8 + fam)
    else if f.clock = 8 * unit then some (4 + fam)
    else none
  else none

/-- The rate code of the links of a `k`-link SDI signal in the format of index `i`: a user format travels only on a single link and only
at a clock of exactly 74.25, 148.5, 297 or 594 MHz, or these over 1.001 (R156). -/
def Fmt.idxCode (f : Fmt) (i k : Nat) : Option Nat :=
  (f.sdiCode k).bind fun c => if 0x40 ≤ i ∧ (c = 1 ∨ k ≠ 1) then none else some c

/-! ### Instants -/

/-- The first instant congruent to `off` modulo `period` that is at or after `bound`. -/
def firstAt (off period bound : Nat) : Nat :=
  let o := off % period
  o + period * ((bound - o + period - 1) / period)

/-- An integer instant, not before the epoch. -/
def clampT (x : Int) : Nat := x.toNat

/-- The leap rate code in force (R84). -/
def State.leapRate (s : State) : Nat := s.get R.XPT_STAT F.XPT_STAT_LEAP_RATE

/-- Start time of RFN `n` (R83). -/
def State.rfnTime (s : State) (n : Nat) : Nat := n * rateD s.leapRate

/-- The RFN at time `t` (R83), a 48-bit count. -/
def State.rfnAt (s : State) (t : Nat) : Nat := t / rateD s.leapRate % 2 ^ 48

/-- The RFN current now, 0 while TIME_VALID is 0 (R273). -/
def State.rfnNow (s : State) : Nat := if s.timeValid then s.rfnAt s.now else 0

/-- PTP time in ns since the SMPTE epoch. -/
def State.nsNow (s : State) : Nat := s.now / ticksPerNs

/-- The setup margin in lines (R74). -/
def State.marginLines (s : State) : Nat :=
  let m := s.get R.XPT_CTL F.XPT_CTL_MARGIN
  if m = 0 then 1 else min m 16

/-- A grid of a format on reference timing with an offset in ticks and a lag. -/
def Fmt.refGrid (f : Fmt) (idx off : Nat) (shift : Int) : Grid :=
  ⟨idx, f.period, f.totL, ((off + shift) % (f.period : Int)).toNat, off, shift, true, true⟩

/-- A measured grid: its times are computed from reference timing when its frames start within ±0.5 line of the alignment instants of
its format (R73); it is timed to the reference when its frames recur at exactly the format's rate, or start there: R80 does not say how a
source's timing to the same reference shows (DESIGN CHOICE, assumption 186). -/
def State.measGrid (s : State) (fmtIdx period lines phase : Nat) : Grid :=
  match s.fmt? fmtIdx with
  | some f =>
    let d := phase % f.period
    if 2 * f.totL * d ≤ f.period ∨ 2 * f.totL * (f.period - d) ≤ f.period then
      ⟨fmtIdx, f.period, f.totL, d, 0, 0, true, true⟩
    else ⟨fmtIdx, max period 1, max lines 1, phase, phase, 0, false, period == f.period⟩
  | none => ⟨fmtIdx, max period 1, max lines 1, phase, phase, 0, false, false⟩

/-- The offset of a unit in ticks (R157). -/
def Fmt.offsetTicks (f : Fmt) (lines samps : Nat) : Nat :=
  (lines * f.totS + samps) * f.period / (f.totL * f.totS)

/-- Line periods of a grid in ticks: `n` lines. -/
def Grid.lineTicks (g : Grid) (n : Nat) : Nat := n * g.period / g.lines

/-- The setup margin of a destination's grid in ticks (R74). -/
def State.marginTicks (s : State) (g : Grid) : Nat := g.lineTicks s.marginLines

/-- The switch line of a format index (Table 3-5); a source of unknown format takes 7 (assumption 6). -/
def State.fmtSw (s : State) (i : Nat) : Nat := ((s.fmt? i).map Fmt.sw).getD 7

/-- The first frame start of a grid at or after `bound`, as it is. -/
def Grid.frameAt (g : Grid) (bound : Nat) : Nat := firstAt g.phase g.period bound

/-- The instant at which what a grid computes for `x` happens (R251). -/
def Grid.actual (g : Grid) (x : Nat) : Nat := clampT (x + g.shift)
/-- The computed time of what happens at instant `x`. -/
def Grid.nominal (g : Grid) (x : Nat) : Nat := clampT (x - g.shift)

/-- The first passage of line `l` of a grid whose time as R73 computes it is at or after `bound`. -/
def Grid.lineAt (g : Grid) (l bound : Nat) : Nat := firstAt (g.nom + g.lineTicks (l - 1)) g.period bound

/-! ### Sources and destinations -/

/-- Kind and flow key of a destination or source number (Tables 3-1, 3-2). -/
inductive Port where
  | sdi (n : Nat)
  | ip (f : Nat)
  | host (h : Nat)
  | pg (p : Nat)
  | sou (u : Nat)
  | cw (k : Nat)
  | none
deriving DecidableEq, Repr

/-- What source number `n` names (Table 3-1). -/
def srcPort (n : Nat) : Port :=
  if n < 72 then .sdi n else if n < 328 then .ip (n - 72) else if n < 344 then .host (n - 328)
  else if n < 352 then .pg (n - 344) else if n < 512 then .sou (n - 352) else .none

/-- What destination number `n` names (Table 3-2). -/
def dstPort (n : Nat) : Port :=
  if n < 72 then .sdi n else if n < 328 then .ip (n - 72) else if n < 344 then .host (n - 328)
  else if n < 512 then .cw (n - 344) else .none

/-- A member of a multi-link receive group other than its leader. -/
def State.rxMember (s : State) (n : Nat) : Bool :=
  (s.rx (n / 2 * 2)).group != 0 && n % 2 != 0 || (s.rx (n / 4 * 4)).group == 4 && n % 4 != 0

/-- A member of a multi-link transmit group other than its leader. -/
def State.txMember (s : State) (n : Nat) : Bool :=
  (s.tx (n / 2 * 2)).group != 0 && n % 2 != 0 || (s.tx (n / 4 * 4)).group == 4 && n % 4 != 0

/-- Links of the receive signal led by lane `n`. -/
def State.rxLinks (s : State) (n : Nat) : Nat := max 1 (s.rx n).group
/-- Links of the transmit signal led by lane `n`. -/
def State.txLinks (s : State) (n : Nat) : Nat := max 1 (s.tx n).group

/-- The grid that set `x` gives unit `u`: its synthesizer's frames lag the time base's grid by RESIDUAL (R157, R251). -/
def State.setGrid (s : State) (u : Nat) (x : SouSet) : Option Grid :=
  (s.fmt? x.fmt).map fun f => f.refGrid x.fmt (f.offsetTicks x.offLines x.offSamps) (s.synLag (u / 40 * 4 + x.syn))

/-- The grid of a unit's raster (R157): none while it does not run, is gated (R178) or is held for a retune (R177). -/
def State.souGrid (s : State) (u : Nat) : Option Grid :=
  let x := s.unit u
  if x.run && !x.gated && !x.retune then s.setGrid u x.active else none

/-- The timing of a source: none while it is lost, unlocked, not yet running or gated. -/
def State.srcGrid (s : State) (n : Nat) : Option Grid :=
  match srcPort n with
  | .sdi l => (s.rx l).meas.map fun m => s.measGrid m.fmt m.period m.lines m.phase
  | .ip f => (tabFind s.media.rxFlow f).bind fun fl => if fl.lost then none else fl.grid
  | .host h => (tabFind s.media.hostIn h).bind (·.grid)
  | .pg p => (s.fmt? (s.pg p).fmt).map fun f => f.refGrid (s.pg p).fmt 0 0
  | .sou u => s.souGrid u
  | _ => none

/-- The format index of a source's picture; 0xFF when unknown. -/
def State.srcFmt (s : State) (n : Nat) : Nat :=
  match srcPort n with
  | .sdi l => s.get (R.SDI_RX_STAT l) F.SDI_RX_STAT_FORMAT
  | .ip f => match tabFind s.media.rxFlow f with
    | some fl => fl.rcd.fmt
    | none => 0xFF
  | .host h => match tabFind s.media.hostIn h with
    | some x => x.fmt
    | none => 0xFF
  | .pg p => (s.pg p).fmt
  | .sou u => (s.unit u).active.fmt
  | _ => 0xFF

/-- Sampling of a source: true for 4:4:4. -/
def State.src444 (s : State) (n : Nat) : Bool :=
  match srcPort n with
  | .ip f => match tabFind s.media.rxFlow f with
    | some fl => fl.rcd.sampling != 0
    | none => false
  | .host h => match tabFind s.media.hostIn h with
    | some x => x.sampling != 0
    | none => false
  | .sou u => (s.unit u).active.out444
  | _ => false

/-- Depth of a source: true for 10 bits. -/
def State.src10 (s : State) (n : Nat) : Bool :=
  match srcPort n with
  | .ip f => match tabFind s.media.rxFlow f with
    | some fl => fl.rcd.tenBit
    | none => true
  | .host h => match tabFind s.media.hostIn h with
    | some x => x.tenBit
    | none => true
  | _ => true

/-- The timing of a destination that sends or takes pictures now: an SDI lane that is ACTIVE, or any other destination whose source has
timing. R77 names a gated synthesizer, an idle lane and a missing route; a destination of another kind whose source has lost its timing
counts as having no running timing too (DESIGN CHOICE, assumption 152). -/
def State.dstGrid (s : State) (d : Nat) : Option Grid :=
  match s.route d with
  | none => none
  | some r =>
    match dstPort d with
    | .sdi n => if s.flag (R.SDI_TX_STAT n) F.SDI_TX_STAT_ACTIVE then s.srcGrid r.src else none
    | _ => s.srcGrid r.src

/-- The switch line of a destination (R70, R72). -/
def State.dstSw (s : State) (d : Nat) (g : Grid) : Nat :=
  let l := s.get (R.XPT_DST_CFG d) F.XPT_DST_CFG_SWLINE
  if l = 0 ∨ l > g.lines then s.fmtSw g.fmt else l

/-- The first switch point of a destination's grid at or after `bound`, computed for reference timing (R70, R73). -/
def State.switchAt (s : State) (d : Nat) (g : Grid) (bound : Nat) : Nat := g.lineAt (s.dstSw d g) bound

/-- The kind of a route a take sets up, derived from its source (R62). -/
def State.kindOf (s : State) (src : Nat) : Nat :=
  match srcPort src with
  | .pg _ => 5
  | .sou u => match s.chainOf u with
    | some c => if c.ctx.isSome then 3 else 2
    | none => 4
  | _ => 1

/-- Destinations whose route names source `n`, in ascending order. -/
def State.dstsOf (s : State) (n : Nat) : List Nat := (s.xpt.routes.filter fun p => p.2.src == n).map (·.1)

/-- A destination fed by source `n` exists. -/
def State.feeds (s : State) (n : Nat) : Bool := s.xpt.routes.any fun p => p.2.src == n

/-- XPT_DST_STAT.REF_TIMED (R73). -/
def State.refTimed (s : State) (d : Nat) : Bool :=
  match s.dstGrid d with
  | some g => g.ref
  | none => false

end Sys2Proof.Machine
end

