-- ==== Sys2Proof/Machine/StoreOps.lean ====
section
/-! DEFINITION. Records of the Axolotl store: the record map (Table 15-2), what each record's body holds, a store of a record (R380), and
what a change of a record leads to (R379). -/
namespace Sys2Proof.Machine

/-- SRAM offset of record `k`. -/
def recOffset (k : Nat) : Nat :=
  ([0x12000, 0x0, 0x4000, 0x10000, 0x10800, 0x11000, 0x11800, 0x12400, 0x12500, 0x22500, 0x26500, 0x2A500, 0x2E500, 0x32500,
    0x36500, 0x37500, 0x37900])[k]?.getD (0x3F000 + (k - 17) * 0x1040)

/-- Autostore is armed (R388). -/
def State.armed (s : State) : Bool :=
  s.flag R.AXL_CTL F.AXL_CTL_ARM && s.flag R.AXL_STAT F.AXL_STAT_VHOLD_OK && s.lifecycle != 4

/-- The composite chain of unit `u` as record 8 keeps it. -/
def State.saveChain (s : State) (u : Nat) (c : Chain) : SavedChain :=
  let g := s.ring c.capRing
  let a := (s.unit u).active
  { unit := u, src := c.src, depth := (g.map (·.depth)).getD 3, pix := (g.map (·.pix)).getD 1, persist := c.persist,
    offset := a.offLines * 65536 + a.offSamps,
    conv := (c.ctx.bind s.ctx).map fun x => (x.outFmt, x.outPix, ((s.ring x.outRing).map (·.depth)).getD 3, x.par) }

/-- The present routes of every destination that is no chain's writer, as record 8 keeps them. -/
def State.saveRoutes (s : State) : List SavedRoute :=
  (s.xpt.routes.filter fun p => !(s.fst.chains.any fun q => 344 + q.2.cw == p.1)).map fun p =>
    { dst := p.1, kind := p.2.kind, src := p.2.src,
      chain := match srcPort p.2.src with
        | .sou u => (s.chainOf u).map (s.saveChain u)
        | _ => none }

/-- The XPT_DST_CFG values that differ from reset, by destination. -/
def State.saveCfgs (s : State) : Tab Word :=
  ((List.range 512).map fun d => (d, s.rd (R.XPT_DST_CFG d))).filter fun p => p.2 != resetVal (R.XPT_DST_CFG p.1)

/-- Record `k` is marked dirty. -/
def State.isDirty (s : State) (k : Nat) : Bool := s.flag (R.AXL_REC_STAT k) F.AXL_REC_STAT_DIRTY

/-- Record 8 in the working SRAM: as recalled or stored last, or the present routes once one has changed. -/
def State.routeRec (s : State) : RecBody :=
  if s.isDirty 8 then .routes s.saveRoutes s.saveCfgs else .routes s.axl.routes s.axl.cfgs

/-- The user slots of user record `u`. -/
def State.userCells (s : State) (u : Nat) : List Host.Cell := s.axl.user.filter fun c => c.1 / 4096 == u

/-- The last sequence number accepted for key slot `k`. -/
def State.lastSeq (s : State) (k : Nat) : Nat := s.rd2 (R.SEC_SEQ_LO k) (R.SEC_SEQ_HI k)

/-- The body of record `k` in the working SRAM. -/
def State.recBody (s : State) (k : Nat) : RecBody :=
  if k = 0 then .settings (s.flag R.AXL_CTL F.AXL_CTL_ARM) (s.get R.AXL_CTL F.AXL_CTL_RESTORE) s.epoch s.sec.rmaPend
  else if k = 1 ∨ k = 3 then .leaves s.sec.idLeaf (s.get R.SEC_STAT F.SEC_STAT_ID_KEY == 2)
  else if k = 2 ∨ k = 4 then .leaves s.sec.logLeaf (s.get R.SEC_STAT F.SEC_STAT_LOG_KEY == 2)
  else if k = 5 then .keys s.sec.keys s.sec.domKey s.signReq
  else if k = 6 then .seqs ((List.range 8).map s.lastSeq)
  else if k = 7 then .logHead s.sec.sramHead (s.rd2 R.SEC_CKPT_NUM_LO R.SEC_CKPT_NUM_HI) s.sec.sramEnt
  else if k = 8 then s.routeRec
  else if k ≤ 12 then .routes (tabGet [] s.axl.presets (k - 9)) []
  else if k = 13 then .errors s.flt.logged
  else if k = 14 then .ageing (s.rd R.REF_XO_CAL).toNat (s.rd R.REF_AGE_LEARNED).toNat s.ref.daily
  else if k = 15 then .meters s.axl.session s.axl.autoUs
  else if k = 16 then .cert s.sec.cert
  else .user (s.userCells (k - 17))

/-- Sequence `a` is newer than `b` (R380). -/
def newer (a b : Nat) : Bool :=
  let d := (a + 2 ^ 32 - b) % 2 ^ 32
  decide (1 ≤ d ∧ d ≤ 2 ^ 31 - 1)

/-- Records 3 and 4 are wear-levelled over 16 positions in each half (R380). -/
def wearLevelled (k : Nat) : Bool := k == 3 || k == 4

/-- The position in its half of a store of record `k` with sequence number `q` (R380). -/
def wearPos (k q : Nat) : Nat := if wearLevelled k then q / 2 % 16 else 0

/-- Copy of record `k` at position `p` of half `h`. -/
def State.copyAt (s : State) (k h p : Nat) : Option Copy := tabFind s.axl.copies ((2 * k + h) * 16 + p)

/-- The newer of a copy found so far and another. -/
def newerCopy (b : Option Copy) (c : Copy) : Option Copy :=
  match b with
  | some d => if newer c.seq d.seq then some c else some d
  | none => some c

/-- The newest valid copy of record `k` in half `h` (R385). -/
def State.copy? (s : State) (k h : Nat) : Option Copy :=
  (((List.range (if wearLevelled k then 16 else 1)).filterMap fun p => s.copyAt k h p).filter (·.valid)).foldl newerCopy none

/-- The half and sequence of the newest valid copy of record `k`. -/
def State.newestCopy (s : State) (k : Nat) : Option (Nat × Nat) :=
  let v := fun (h : Nat) => (s.copy? k h).map (·.seq)
  match v 0, v 1 with
  | some a, some b => if newer b a then some (1, b) else some (0, a)
  | some a, none => some (0, a)
  | none, some b => some (1, b)
  | none, none => none

/-- `s` with copy `c` of record `k` in half `h`, at the position its sequence number gives. -/
def State.setCopy (s : State) (k h : Nat) (c : Copy) : State :=
  { s with axl := { s.axl with copies := tabPut s.axl.copies ((2 * k + h) * 16 + wearPos k c.seq) c } }

/-- The newest copy of record `k` in half `h` fails its check from now on. -/
def State.spoil (s : State) (k h : Nat) : State :=
  match s.copy? k h with
  | some c => s.setCopy k h { c with valid := false }
  | none => s

/-- Record `k` with body `b` is written under R380 into the half that does not hold the newest valid copy; `ok` says whether the store is
confirmed. In END the array is not written (R393). -/
def State.writeRec (s : State) (k : Nat) (b : RecBody) (ok : Bool) : State :=
  if s.lifecycle = 4 then s
  else
    let (h, seq) := match s.newestCopy k with
      | some (h, q) => (1 - h, (q + 1) % 2 ^ 32)
      | none => (0, 1)
    let s := (s.setCopy k h ⟨seq, ok, b⟩).inc R.AXL_STORE_CNT
    let a := R.AXL_REC_STAT k
    if ok then
      let s := ((s.set a F.AXL_REC_STAT_VALID 1).set a F.AXL_REC_STAT_DIRTY 0).set a F.AXL_REC_STAT_HALF h
      let s := match b with
        | .routes r c => if k = 8 then { s with axl := { s.axl with routes := r, cfgs := c } } else s
        | _ => s
      let s := if wearLevelled k then s.set a F.AXL_REC_STAT_POS (wearPos k seq) else s
      s.wr (R.AXL_REC_SEQ k) (BitVec.ofNat 32 seq)
    else s

/-- The dirty records. -/
def State.dirtyRecs (s : State) : List Nat := (List.range 81).filter s.isDirty

/-- Record `k` changed: a write-through record, or a safety record while autostore is not armed, is stored at once (R379); the store
made inside a command is confirmed (assumption 20). -/
def State.change (s : State) (k : Nat) : State :=
  let s := s.dirty k
  if recClass k = 1 || (recClass k == 2 && !s.armed) then s.writeRec k (s.recBody k) true else s

end Sys2Proof.Machine
end

