-- ==== Sys2Proof/Machine/Ledger.lean ====
section
/-! DEFINITION. Picture geometry and the three admission ledgers: frame-store traffic (R124, R125), engine load (R133, R134) and
the fabric (R320), all computed from the state, in bits or pixels per 1001 s so that every figure is a whole number. -/
namespace Sys2Proof.Machine

/-! ### Geometry (R110, R113) -/

/-- Bytes of one line of `w` pixels: P16, P20, P24, P32. -/
def lineBytes (pix w : Nat) : Nat :=
  let e := (w + 1) / 2 * 2
  match pix with
  | 0 => 2 * e
  | 1 => e / 2 * 5
  | 2 => 3 * w
  | _ => 4 * w

/-- Line pitch: the line's bytes rounded up to 128. -/
def pitchOf (pix w : Nat) : Nat := (lineBytes pix w + 127) / 128 * 128

/-- Stored bytes per frame, B of R125. -/
def frameBytes (f : Fmt) (pix : Nat) : Nat := pitchOf pix f.w * f.lines

/-- Bytes in a granule. -/
def granBytes : Nat := 2097152

/-- Granules per buffer (R110). -/
def granulesOf (f : Fmt) (pix : Nat) : Nat := (frameBytes f pix + granBytes - 1) / granBytes

/-- A pixel format that holds 4:4:4 pictures. -/
def pix444 (pix : Nat) : Bool := pix ≥ 2

/-- The pixel format of a source's sampling and depth (R50). -/
def pixOf (s444 ten : Bool) : Nat := if s444 then (if ten then 3 else 2) else (if ten then 1 else 0)

/-- Buffers of ring `r` in index order. -/
def State.ringBufs (s : State) (r : Nat) : List Nat :=
  match s.ring r with
  | some g => (List.range g.depth).map (g.first + ·)
  | none => []

/-- Geometry of a ring's buffers. -/
def State.ringBytes (s : State) (r : Nat) : Nat :=
  match s.ring r with
  | some g => ((s.fmt? g.fmt).map fun f => frameBytes f g.pix).getD 0
  | none => 0

/-- Frame rate of a ring's format: frames per 1001 s. -/
def State.ringRate (s : State) (r : Nat) : Nat :=
  match s.ring r with
  | some g => ((s.fmt? g.fmt).map fun f => rateF f.rate).getD 0
  | none => 0

/-! ### A context's chain (R132, R133, R139, R141) -/

/-- What the figures of a context follow from: input and output format and pixel format, deinterlacing in force (1 off, 2
motion-adaptive, 3 motion-compensated) and the frame-rate conversion that runs (none when the rates are equal). -/
structure ChainFig where
  fi    : Fmt
  pi    : Nat
  fo    : Fmt
  po    : Nat
  deint : Nat
  frc   : Option Nat
  inW   : Nat
  inH   : Nat
deriving DecidableEq, Repr

/-- The figures of a chain from its formats and parameters. -/
def chainFig (fi : Fmt) (pi : Nat) (fo : Fmt) (po : Nat) (p : CtxPar) : ChainFig :=
  let d := if fi.inter then p.deint else 1
  let rin := rateF fi.rate * (if fi.inter && d != 1 then 2 else 1)
  let rout := rateF fo.rate * (if fo.inter && d != 1 then 2 else 1)
  let win := p.srcWin.getD (0, 0, fi.w, fi.lines)
  ⟨fi, pi, fo, po, d, if rin = rout then none else some p.frc, win.2.2.1, win.2.2.2⟩

/-- Motion compensation runs. -/
def ChainFig.mc (c : ChainFig) : Bool := c.deint == 3 || c.frc == some 2

/-- Working-store buffers (Table 4-9). -/
def ChainFig.store (c : ChainFig) : Nat :=
  if c.mc then 3 else (if c.deint = 2 then 1 else 0) + (if c.frc = some 1 then 1 else 0)

/-- Traffic of a running context (Table 4-5): input read, work on the store, output write, in bits per 1001 s. -/
def ChainFig.traffic (c : ChainFig) : Nat × Nat × Nat :=
  let bi := frameBytes c.fi c.pi
  let fi := rateF c.fi.rate
  let fo := rateF c.fo.rate
  let li := if pix444 c.pi then bi / 3 else bi / 2
  let v := (c.fi.w + 7) / 8 * ((c.fi.lines + 7) / 8) * 8
  (8 * bi * fi,
   (if c.store > 0 then 8 * bi * fi else 0) + (if c.deint = 2 then 8 * bi * fi else 0)
     + (if c.frc = some 1 then 16 * bi * fo else 0)
     + (if c.mc then 13 * li * fi + 8 * v * (fi + fo) + 16 * bi * fo else 0),
   8 * frameBytes c.fo c.po * fo)

/-- Slices of one field or frame. -/
def Fmt.fieldSlices (f : Fmt) : Nat := (f.lines / f.fields + 31) / 32

/-- Slices of an output frame. -/
def Fmt.frameSlices (f : Fmt) : Nat := f.fieldSlices * f.fields

/-- The raster line at which slice `k` begins. -/
def Fmt.sliceLine (f : Fmt) (k : Nat) : Nat := (if k < f.fieldSlices then f.f1 else f.f2) + 32 * (k % f.fieldSlices)

/-- The first stored line of slice `k`, and the line after its last. -/
def Fmt.sliceSpan (f : Fmt) (k : Nat) : Nat × Nat :=
  let half := f.lines / f.fields
  let o := k / f.fieldSlices * half
  let j := 32 * (k % f.fieldSlices)
  (o + j, o + min half (j + 32))

/-- Active lines that are complete once `n` raster lines of a frame have passed. -/
def Fmt.linesBy (f : Fmt) (n : Nat) : Nat :=
  let half := f.lines / f.fields
  min half (n - (f.f1 - 1)) + (if f.inter then min half (n - (f.f2 - 1)) else 0)

/-- Slices of one field or frame (R133). -/
def ChainFig.slices (c : ChainFig) : Nat := (c.fo.lines / c.fo.fields + 31) / 32

/-- Four times the load of R133, in pixels per 1001 s. -/
def ChainFig.load4 (c : ChainFig) : Nat :=
  let fo := rateF c.fo.rate
  max (4 * (c.fo.w * c.fo.lines * fo)) (c.inW * c.inH * rateF c.fi.rate) + 1024 * (c.slices * c.fo.fields * fo)

/-- Added latency in ticks (Table 4-10). -/
def ChainFig.latency (c : ChainFig) : Nat :=
  let fr := c.fo.period
  let slice := 32 * c.fo.period / c.fo.totL
  if c.frc = some 2 then 2 * fr + slice
  else if c.deint = 3 ∧ c.frc = none then fr + slice
  else if c.frc.isSome then fr
  else slice

/-- The figures of an admitted context with given parameters. -/
def State.ctxFigWith (s : State) (x : Ctx) (p : CtxPar) : Option ChainFig := do
  let g ← s.ring x.inRing
  let fi ← s.fmt? g.fmt
  let fo ← s.fmt? x.outFmt
  pure (chainFig fi g.pix fo x.outPix p)

/-- The figures of a context as it runs. -/
def State.ctxFig (s : State) (x : Ctx) : Option ChainFig := s.ctxFigWith x x.par

/-- A context holds rate and bandwidth: it runs, or moves, or is to run from its next boundary. -/
def Ctx.loads (x : Ctx) : Bool := x.st == .running || x.st == .moving || x.nextSt == some .running

/-- The parameters a context is charged for: those in force and a change that waits; of a context that has yet to start, those it starts
with, and of one that is to park, those it runs with until then (R147). -/
def Ctx.charged (x : Ctx) : List CtxPar :=
  if x.starting then [x.next.getD x.par] else if x.nextSt = some .parked then [x.par] else x.par :: x.next.toList

/-- The figures a context is charged for. -/
def State.ctxFigs (s : State) (x : Ctx) : List ChainFig := x.charged.filterMap (s.ctxFigWith x)

/-- Load of a context in quarter pixels per 1001 s: 0 unless it runs; with a change waiting, the larger of the two. -/
def State.ctxLoad4 (s : State) (x : Ctx) : Nat :=
  if x.loads then ((s.ctxFigs x).map ChainFig.load4).foldl max 0 else 0

/-- Contexts admitted on engine `e`. -/
def State.engCtxs (s : State) (e : Nat) : List (Nat × Ctx) := s.che.ctx.filter fun p => p.1 / 16 == e

/-- Admitted load of an engine, a context that moves counted on its new engine. -/
def State.engLoad4 (s : State) (e : Nat) : Nat :=
  (s.che.ctx.map fun p => if (p.2.moveTo.getD p.1) / 16 = e then s.ctxLoad4 p.2 else 0).sum

/-! ### Voltage (R134, R319, R327) -/

/-- The controller follows the monitors: adaptive mode and no AVSBus fault. -/
def State.byMonitor (s : State) : Bool := s.adaptive && s.get R.HSF_VSTAT F.HSF_VSTAT_STATE != 4

/-- The voltage whose guaranteed figures bound admission when the monitors do not: VPROG in fixed mode, the last confirmed
voltage in an AVSBus fault (R326, R327). -/
def State.figVdd (s : State) : Nat :=
  if s.get R.HSF_VSTAT F.HSF_VSTAT_STATE = 4 then s.get R.HSF_VSTAT F.HSF_VSTAT_VDD else s.get R.HSF_VCTL F.HSF_VCTL_VPROG

/-- Guaranteed ribbon rate in M transfers/s (Table 12-2). -/
def ribbonRate (mv : Nat) : Nat := if mv ≥ 700 then 1000 else if mv ≥ 660 then 800 else 600

/-- LIMIT of an engine in 1/115 Mpixel/s (R134). In adaptive mode before the monitor's first reading it is the figure of the programmed
voltage, as its reset value is (DESIGN CHOICE, assumption 187). -/
def State.cheLimit115 (s : State) (e : Nat) : Nat :=
  let m := s.get (R.CHE_RATE e) F.CHE_RATE_MEASURED
  if s.byMonitor && m != 0 then m * 100 else 2 * ribbonRate s.figVdd * 115

/-- An engine's load lies within its LIMIT. -/
def State.engFits (s : State) (e : Nat) : Bool := decide (s.engLoad4 e * 115 ≤ s.cheLimit115 e * 4004000000)

/-- A block held in block-level reset (R372). -/
def State.inReset (s : State) (c i : Nat) : Bool := s.flag (R.RST_BLK_STAT c i) F.RST_BLK_STAT_IN_RESET

/-- An engine admits contexts: EN = 1, not in reset, not fenced (R134, R372, R434). EN written 0 stops admission at once. -/
def State.engOpen (s : State) (e : Nat) : Bool :=
  s.flag (R.CHE_CTL e) F.CHE_CTL_EN && !s.inReset 7 e && !(tabGet {} s.flt.units (0x90000 + e)).fenced

/-! ### Frame-store ledger -/

/-- A consumer of frame-store bandwidth: its traffic and the buffers it goes to. -/
abbrev Consumer := Nat × List Nat

/-- Traffic of one layer setting at a unit's output rate. -/
def State.layerBits (s : State) (fmtIdx : Nat) (l : SouLayer) : Nat :=
  if l.en then 8 * s.ringBytes l.ring * (((s.fmt? fmtIdx).map fun f => rateF f.rate).getD 0) else 0

/-- The layers of a set. -/
def souLayers (x : SouSet) : List SouLayer := [x.l1, x.l2, x.l3]

/-- Traffic of a unit: per layer the larger of active and pending (R168). -/
def State.unitConsumers (s : State) (x : Unit) : List Consumer :=
  ((souLayers x.active).zip (souLayers x.pending)).map fun p =>
    let a := s.layerBits x.active.fmt p.1
    let b := if x.committed then 0 else s.layerBits x.pending.fmt p.2
    (max a b, s.ringBufs (if a < b then p.2.ring else p.1.ring))

/-- Destination and source of every route and of every take in flight: a take holds its share of rate and bandwidth from its
admission on (R126; assumption 11). -/
def State.carried (s : State) : List (Nat × Nat) :=
  (s.xpt.routes.map fun p => (p.1, p.2.src)) ++ (s.takes.map fun p => (p.2.dst, p.2.src))

/-- Every picture consumer of Table 4-5. -/
def State.consumers (s : State) : List Consumer :=
  (s.fst.cw.filterMap fun p => p.2.ring.bind fun r =>
      if s.carried.any (fun q => q.1 == 344 + p.1) then some (8 * s.ringBytes r * s.ringRate r, s.ringBufs r) else none)
  ++ (s.sou.unit.flatMap fun p => if p.2.alloc then s.unitConsumers p.2 else [])
  ++ (s.che.ctx.flatMap fun p =>
      if p.2.loads then
        let t := (s.ctxFigs p.2).map ChainFig.traffic
        [((t.map (·.1)).foldl max 0, s.ringBufs p.2.inRing), ((t.map (·.2.1)).foldl max 0, p.2.work),
         ((t.map (·.2.2)).foldl max 0, s.ringBufs p.2.outRing)]
      else [])

/-- A source endpoint (R183) runs at 96 kHz: an SDI lane by its audio control packets, a serial port or AES3 input by its setting. -/
def State.rate96In (s : State) (e : Nat) : Bool :=
  match e / 65536 with
  | 1 => (tabGet {} s.aud.lanes (e / 64 % 1024)).rate96
  | 3 => s.flag (R.SAP_CTL (e / 64 % 1024)) F.SAP_CTL_RATE96
  | 4 => s.flag (R.AESI_CTL (e / 64 % 1024)) F.AESI_CTL_RATE96
  | _ => false

/-- Delayed audio channels in 48 kHz units (R203). -/
def State.audioUnits (s : State) : Nat :=
  (s.aud.slots.map fun p => if p.2.blocks = 0 then 0 else if p.2.rate96 then 2 else 1).sum
    + (s.aud.paths.map fun p => (p.2.eps.map fun e => if s.rate96In e then 2 else 1).sum).sum

/-- Wire rate of a flow in bits per 1001 s (R51): RTP, UDP, IP and Ethernet headers, preamble and gap on every packet of at
most 1,200 bytes of pixel data (assumption 7). -/
def State.flowBits (s : State) (kind : Nat) (r : FlowRec) : Nat :=
  let hdr := 78 + (if r.ipv6 then 20 else 0) + (if r.vlan = 0 then 0 else 4)
  if kind = 0 then
    match s.fmt? r.fmt with
    | some f =>
      let bytes := f.w * f.lines * (if r.sampling = 0 then (if r.tenBit then 10 else 8) else (if r.tenBit then 15 else 12)) / 4
      (bytes + 1199) / 1200 * (1200 + 8 + hdr) * 8 * rateF f.rate
    | none => 0
  else if kind = 1 then
    let smp := r.channels * (if r.st31 then 4 else if r.l24 then 3 else 2)
    if r.us125 then (6 * smp + hdr) * 8 * 8008000 else (48 * smp + hdr) * 8 * 1001000
  else (1200 + 8 + hdr) * 8 * (((s.fmt? r.fmt).map fun f => rateF f.rate * f.fields).getD 60000)

/-- Bytes a protected flow buffers for its path differential (R54). -/
def State.pathBytes (s : State) (kind : Nat) (r : FlowRec) : Nat :=
  if r.prot then s.flowBits kind r * r.pathDiff / 8008000 else 0

/-- The frame-store ledger in bits per 1001 s (R124). -/
def State.fstBits (s : State) : Nat :=
  (s.consumers.map (·.1)).sum + s.audioUnits * 3072000 * 1001
    + (s.media.rxFlow.map fun p => if p.2.rcd.prot then 2 * s.flowBits (p.1 / 1024) p.2.rcd else 0).sum

/-- Usable bandwidth in bits per 1001 s (R124). -/
def State.fstLimit (s : State) : Nat := (64 - s.fst.fencedP.length) * 163840000000 * 1001

/-! ### Fabric ledger (R320) -/

/-- Nominal bit rate of an SDI rate code, in bits per 1001 s; code 0 is no rate (Table 2-2). -/
def codeBits (c : Nat) : Nat :=
  if c = 0 then 0 else
  let unit := if c < 2 then 270000000 else 1485000000 * 2 ^ (c / 2 - 1)
  if c ≥ 3 ∧ c % 2 = 1 then unit * 1000 else unit * 1001

/-- Bit rate of an SDI signal that carries a format: of the fewest links that carry it, else its stored picture's. -/
def State.fmtBits (s : State) (i : Nat) : Nat :=
  match s.fmt? i with
  | some f =>
    match ([1, 2, 4].filterMap fun k => (f.idxCode i k).map fun c => k * codeBits c).head? with
    | some b => b
    | none => 8 * frameBytes f 1 * rateF f.rate
  | none => 0

/-- Stream rate of a source. -/
def State.srcBits (s : State) (n : Nat) : Nat :=
  match srcPort n with
  | .sdi l => s.rxLinks l * codeBits (s.get (R.SDI_RX_STAT l) F.SDI_RX_STAT_RATE)
  | .ip f => match tabFind s.media.rxFlow f with
    | some fl => s.flowBits 0 fl.rcd
    | none => 0
  | .host h => match tabFind s.media.hostIn h with
    | some x => match s.fmt? x.fmt with
      | some f => 8 * frameBytes f (pixOf (x.sampling != 0) x.tenBit) * rateF f.rate
      | none => 0
    | none => 0
  | _ => s.fmtBits (s.srcFmt n)

/-- Rate of the stream a destination receives, which is its source's (DEDUCED, assumption 201); a capture writer counts nothing. -/
def State.dstBits (s : State) (d src : Nat) : Nat :=
  match dstPort d with
  | .cw _ => 0
  | .none => 0
  | _ => s.srcBits src

/-- The fabric ledger in bits per 1001 s: a destination with a take in flight counts the larger of its streams. -/
def State.hsfBits (s : State) : Nat :=
  let l := s.carried
  s.fstBits + (((l.map (·.2)).eraseDups).map s.srcBits).sum
    + (((l.map (·.1)).eraseDups).map fun d =>
        (l.filter fun q => q.1 == d).foldl (fun b q => max b (s.dstBits d q.2)) 0).sum

/-- Working ribbons: 96 less those fenced without replacement (R330). -/
def State.ribbons (s : State) : Nat :=
  96 - ((List.range 96).filter fun b =>
    s.flag (R.HSF_RIB_STAT b) F.HSF_RIB_STAT_FENCED && !s.flag (R.HSF_RIB_STAT b) F.HSF_RIB_STAT_REPLACED).length

/-- The lowest slack-monitor reading. -/
def State.minSlack (s : State) : Nat :=
  ((List.range 5).map fun m => s.get (R.HSF_SLACK m) F.HSF_SLACK_RATE).foldl min 0xFFFF

/-- The fabric ledger lies within its LIMIT. -/
def State.hsfFits (s : State) : Bool :=
  if s.byMonitor then decide (s.hsfBits * 115 ≤ s.ribbons * 256 * s.minSlack * 100 * 1001000000)
  else decide (s.hsfBits * 100 ≤ s.ribbons * 256 * ribbonRate s.figVdd * 85 * 1001000000)

/-! ### Admission against the ledgers -/

/-- What admitting a request that turns `s` into `s'` meets: nothing short, a shortfall code, or a code that a higher VDD_CORE
may cure (R25, R325). -/
inductive Fit where
  | fits
  | short (code : Nat)
  | raise (code : Nat)
deriving DecidableEq, Repr

/-- A raise is possible: adaptive mode, no AVSBus fault, no power failure, not END, below 850 mV (R325, R327, R328). -/
def State.canRaise (s : State) : Bool :=
  s.byMonitor && s.lifecycle != 4 && !s.flag R.AXL_STAT F.AXL_STAT_PFAIL && decide (s.get R.HSF_VSTAT F.HSF_VSTAT_VDD < 850)

/-- The admitted frame-store traffic exceeds the limit, as after a fence: every new admission is refused (R129). -/
def State.fstOver (s : State) : Bool := decide (s.fstLimit < s.fstBits)

/-- Check the ledgers of `s'`: an engine only where the request adds to it (R135); the frame store and the fabric also when the request
adds nothing to a sum that is over its limit already (R129, R326, R330). Codes rank as Table 4-6 does: 0x02, 0x06, 0x0C. -/
def State.fitOf (s s' : State) : Fit :=
  let eng := (List.range 12).all fun e => s'.engLoad4 e ≤ s.engLoad4 e || s'.engFits e
  let bw := !s.fstOver && (decide (s'.fstBits ≤ s.fstBits) || !s'.fstOver)
  let fab := s'.hsfFits
  if !bw then (if !eng && !s.canRaise then .short 0x02 else .short 0x06)
  else if !eng then (if s.canRaise then .raise 0x02 else .short 0x02)
  else if !fab then (if s.canRaise then .raise 0x0C else .short 0x0C)
  else .fits

end Sys2Proof.Machine
end

