-- ==== Sys2Proof/Machine/Picture.lean ====
section
/-! DEFINITION. Pictures: pixel formats (Table 4-3), chroma resampling, deinterlacing, frame-rate conversion, scaling and colour
conversion (Table 4-8, R139 to R143), composition of layers (R160) and the generators' patterns (R105). A filter or table that the
manual names without its numbers is a free value (assumptions 147, 148). -/
namespace Sys2Proof.Machine

/-! ### Samples and pixels -/

/-- A sample of `d` bits at `b` bits: shifted left, or rounded to nearest with halves up and clipped (R63, R143). -/
def toBits (d b x : Nat) : Nat :=
  if d ≤ b then x * 2 ^ (b - d) else min (2 ^ b - 1) ((x + 2 ^ (d - b - 1)) / 2 ^ (d - b))

/-- Clip to 16 bits. -/
def clip16 (x : Int) : Nat := min 65535 x.toNat

/-- `a / b` rounded to nearest with halves up, for a positive `b`. -/
def roundDiv (a : Int) (b : Nat) : Int := (2 * a + b) / (2 * b : Nat)

/-- The index nearest to `i` in a list of length `n`. -/
def clampIx (n : Nat) (i : Int) : Nat := min (n - 1) i.toNat

/-- A pixel with each component changed. -/
def pxMap (f : Nat → Nat) (p : Px) : Px := { p with c0 := f p.c0, c1 := f p.c1, c2 := f p.c2 }

/-- Component `c` of a pixel. -/
def pxGet (c : Nat) (p : Px) : Nat := if c = 0 then p.c0 else if c = 1 then p.c1 else p.c2

/-- A pixel made of a value for each component. -/
def pxOf (f : Nat → Nat) (key : Nat) : Px := ⟨f 0, f 1, f 2, key⟩

/-- A picture with each sample changed. -/
def picMap (f : Nat → Nat) (p : Pic) : Pic := p.map fun l => l.map (pxMap f)

/-- Pixel `x` of a line, the edge pixels repeated beyond it. -/
def pxAt (l : List Px) (x : Int) : Px := (l[clampIx l.length x]?).getD {}

/-- Line `y` of a picture, the edge lines repeated beyond it. -/
def lineAt (p : Pic) (y : Int) : List Px := (p[clampIx p.length y]?).getD []

/-- Pixel (`x`, `y`) of a picture. -/
def picAt (p : Pic) (x y : Int) : Px := pxAt (lineAt p y) x

/-- Luma of a picture. -/
def lumaOf (p : Pic) : List (List Nat) := p.map fun l => l.map (·.c0)

/-- A P32 word (Table 4-3) as a pixel at 10 bits. -/
def p32Px (w : Nat) : Px := ⟨w / 2 ^ 20 % 1024, w / 2 ^ 10 % 1024, w % 1024, w / 2 ^ 30 % 4⟩

/-- Black of a colour description in the P32 layout without its key (R128: 64 and 512 at 10 bits; 0 for full range, Table 5-3). -/
def blackWord (d : Nat) : Nat :=
  if d / 64 % 2 = 1 then (if d / 128 % 2 = 1 then 0 else 0x04010040)
  else if d / 128 % 2 = 1 then 0x00080200 else 0x04080200

/-- Black of a ring's format, key opaque (R123, R128). -/
def blackPx (rgb : Bool) : Px := if rgb then ⟨64, 64, 64, 3⟩ else ⟨64, 512, 512, 3⟩

/-- A picture of one pixel throughout. -/
def flatPic (w h : Nat) (p : Px) : Pic := List.replicate h (List.replicate w p)

/-! ### Pixel formats (R113) -/

/-- Bytes of a unit of a pixel format, and the pixels it holds. -/
def unitOf (pix : Nat) : Nat × Nat :=
  match pix with
  | 0 => (4, 2)
  | 1 => (5, 2)
  | 2 => (3, 1)
  | _ => (4, 1)

/-- One unit's bytes as pixels at 10 bits; 8-bit samples are shifted left by 2. -/
def unpackUnit (pix : Nat) (b : List Byte) : List Px :=
  let v := unle b
  match pix with
  | 0 => [⟨v / 2 ^ 8 % 256 * 4, v % 256 * 4, v / 2 ^ 16 % 256 * 4, 3⟩, ⟨v / 2 ^ 24 % 256 * 4, 0, 0, 3⟩]
  | 1 => [⟨v / 2 ^ 10 % 1024, v % 1024, v / 2 ^ 20 % 1024, 3⟩, ⟨v / 2 ^ 30 % 1024, 0, 0, 3⟩]
  | 2 => [⟨v % 256 * 4, v / 2 ^ 8 % 256 * 4, v / 2 ^ 16 % 256 * 4, 3⟩]
  | _ => [p32Px v]

/-- One pixel, or a pair in P16 and P20, as the bytes of a unit; the samples have `d` bits. -/
def packUnit (pix d : Nat) (a b : Px) : List Byte :=
  let e := toBits d 8
  let t := toBits d 10
  match pix with
  | 0 => le 4 (e a.c1 + e a.c0 * 2 ^ 8 + e a.c2 * 2 ^ 16 + e b.c0 * 2 ^ 24)
  | 1 => le 5 (t a.c1 + t a.c0 * 2 ^ 10 + t a.c2 * 2 ^ 20 + t b.c0 * 2 ^ 30)
  | 2 => le 3 (e a.c0 + e a.c1 * 2 ^ 8 + e a.c2 * 2 ^ 16)
  | _ => le 4 (t a.c2 + t a.c1 * 2 ^ 10 + t a.c0 * 2 ^ 20 + a.key * 2 ^ 30)

/-- A line in pairs; an odd last pixel is repeated (R113). -/
def packPairs (pix d : Nat) : List Px → List Byte
  | a :: b :: l => packUnit pix d a b ++ packPairs pix d l
  | [a] => packUnit pix d a a
  | [] => []

/-- A line of samples of `d` bits as bytes of a pixel format (R113, R63). -/
def packLine (pix d : Nat) (l : List Px) : List Byte :=
  if pix < 2 then packPairs pix d l else l.flatMap fun p => packUnit pix d p p

/-- The samples of a line in the order of R101: Cb, Y, Cr, Y, or components 0, 1 and 2. -/
def lineSamples (s444 : Bool) : List Px → List Nat
  | a :: b :: l =>
    (if s444 then [a.c0, a.c1, a.c2, b.c0, b.c1, b.c2] else [a.c1, a.c0, a.c2, b.c0]) ++ lineSamples s444 l
  | [a] => if s444 then [a.c0, a.c1, a.c2] else [a.c1, a.c0, a.c2]
  | [] => []

/-! ### Chroma resampling (Table 4-8) -/

/-- The half-band filter over 8 samples (assumption 147). -/
def halfBandSum (x : List Nat) : Int := (x.zipIdx).foldl (fun (a : Int) p => a + Config.halfBandTap p.2 * (p.1 : Int)) 0

/-- Colour-difference sample `k` of a 4:2:2 line, the last repeated beyond the edges. -/
def chromaAt (c : Nat) (l : List Px) (k : Int) : Nat := pxGet c (pxAt l (2 * clampIx ((l.length + 1) / 2) k : Nat))

/-- A 4:2:2 line of 16-bit samples at 4:4:4: co-sited samples stay, those between come from the filter. -/
def up422 (l : List Px) : List Px :=
  (l.zipIdx).map fun p =>
    if p.2 % 2 = 0 then p.1
    else
      let f := fun c => clip16 (roundDiv (halfBandSum ((List.range 8).map fun i => chromaAt c l ((p.2 / 2 : Nat) - 3 + i))) 16384)
      { p.1 with c1 := f 1, c2 := f 2 }

/-- A 4:4:4 line of 16-bit samples at 4:2:2: the same filter about each even pixel. -/
def down422 (l : List Px) : List Px :=
  (l.zipIdx).map fun p =>
    if p.2 % 2 = 1 then { p.1 with c1 := 0, c2 := 0 }
    else
      let f := fun c => clip16 (roundDiv (16384 * (pxGet c p.1 : Int)
        + halfBandSum ((List.range 8).map fun i => pxGet c (pxAt l ((p.2 : Int) - 7 + 2 * i)))) 32768)
      { p.1 with c1 := f 1, c2 := f 2 }

/-- Stage 1 of Table 4-8: a picture of 10-bit samples at 4:4:4 with 16 bits. -/
def toInternal (s444 : Bool) (p : Pic) : Pic :=
  let q := picMap (toBits 10 16) p
  if s444 then q else q.map up422

/-! ### Fields (R110, R141) -/

/-- The part of a picture within a window. -/
def cropPic (w : Nat × Nat × Nat × Nat) (p : Pic) : Pic :=
  ((p.drop w.2.1).take w.2.2.2).map fun l => (l.drop w.1).take w.2.2.1

/-- Lines taken in turn from two fields, the first field's on top. -/
def weave : Pic → Pic → Pic
  | a :: p, b :: q => a :: b :: weave p q
  | p, [] => p
  | [], q => q

/-- Every second line of a picture, from the first on. -/
def evenLines : Pic → Pic
  | a :: _ :: p => a :: evenLines p
  | p => p

/-- Field 1 of a format lies above field 2: its first active line is reached earlier in its field than field 2's in its own. -/
def Fmt.f1Top (f : Fmt) : Bool := decide (2 * f.f1 + f.totL < 2 * f.f2)

/-- A field of a picture in display order: the top field's lines or the other's. -/
def fieldOf (top : Bool) (p : Pic) : Pic := if top then evenLines p else evenLines (p.drop 1)

/-- A pixel between the lines above and below it, along the detected edge. -/
def edgePx (a b : List Px) (x : Nat) : Px :=
  let d := Config.edgeDir (a.map (·.c0)) (b.map (·.c0)) x
  let p := pxAt a (x + d)
  let q := pxAt b (x - d)
  pxOf (fun c => (pxGet c p + pxGet c q + 1) / 2) p.key

/-- Pixel at quarter-pixel position (`x4`, `y4`), bilinear. -/
def quarterPx (p : Pic) (x4 y4 : Int) : Px :=
  let x := x4 / 4
  let y := y4 / 4
  let u := (x4 % 4).toNat
  let v := (y4 % 4).toNat
  let g := fun c => ((4 - u) * (4 - v) * pxGet c (picAt p x y) + u * (4 - v) * pxGet c (picAt p (x + 1) y)
    + (4 - u) * v * pxGet c (picAt p x (y + 1)) + u * v * pxGet c (picAt p (x + 1) (y + 1)) + 8) / 16
  pxOf g (picAt p x y).key

/-! ### Motion (R140) -/

/-- The sum of absolute luma differences of block (`bx`, `by_`) of `a` against `b` moved by (`dx`, `dy`) quarter pixels. -/
def matchError (a b : Pic) (bx by_ : Nat) (dx dy : Int) : Nat :=
  ((List.range 64).map fun k =>
    let x := 8 * bx + k % 8
    let y := 8 * by_ + k / 8
    let p : Int := (picAt a x y).c0
    let q : Int := (quarterPx b (4 * x + dx) (4 * y + dy)).c0
    (p - q).natAbs).sum

/-- Blocks of a picture, across and down. -/
def blocksOfPic (p : Pic) : Nat × Nat := (((p.head?).map fun l => (l.length + 7) / 8).getD 0, (p.length + 7) / 8)

/-- One level of a luma pyramid: each 2 × 2 group's mean. -/
def halfLuma (p : List (List Nat)) : List (List Nat) :=
  (List.range (p.length / 2)).map fun y =>
    let a := (p[2 * y]?).getD []
    let b := (p[2 * y + 1]?).getD []
    (List.range (a.length / 2)).map fun x =>
      ((a[2 * x]?).getD 0 + (a[2 * x + 1]?).getD 0 + (b[2 * x]?).getD 0 + (b[2 * x + 1]?).getD 0 + 2) / 4

/-- Sample (`x`, `y`) of a luma picture, the edges repeated beyond it. -/
def lumaAt (p : List (List Nat)) (x y : Int) : Nat :=
  let l := (p[clampIx p.length y]?).getD []
  (l[clampIx l.length x]?).getD 0

/-- The sum of absolute differences of 8 × 8 block (`bx`, `by_`) of a luma picture against another moved by whole samples. -/
def blockError (a b : List (List Nat)) (bx by_ : Nat) (v : Int × Int) : Nat :=
  ((List.range 64).map fun k =>
    let x : Int := (8 * bx + k % 8 : Nat)
    let y : Int := (8 * by_ + k / 8 : Nat)
    ((lumaAt a x y : Int) - lumaAt b (x + v.1) (y + v.2)).natAbs).sum

/-- The vectors within `r` of `c` across and `q` down that the range ±`limX`, ±`limY` admits. -/
def vecsAround (c : Int × Int) (r q limX limY : Nat) : List (Int × Int) :=
  ((List.range (2 * q + 1)).flatMap fun j => (List.range (2 * r + 1)).map fun i => (c.1 + i - r, c.2 + j - q)).filter
    fun v => decide (v.1.natAbs ≤ limX) && decide (v.2.natAbs ≤ limY)

/-- A vector of least error, `pick` choosing among equals. -/
def bestVec (err : Int × Int → Nat) (pick : Nat) (l : List (Int × Int)) : Int × Int :=
  let m := l.foldl (fun m v => min m (err v)) (err (l.headD (0, 0)))
  let t := l.filter fun v => err v == m
  (t[pick % max 1 t.length]?).getD (0, 0)

/-- The motion of block (`bx`, `by_`) from `a` to `b` in quarter pixels (R140): found over ±128 across and ±64 down at quarter resolution,
refined by a sample at half and at full resolution, then to quarter pixels (the refinement's reach DESIGN CHOICE, assumption 148). -/
def searchVec (a b : Pic) (bx by_ : Nat) : Int × Int :=
  let a1 := lumaOf a
  let b1 := lumaOf b
  let a2 := halfLuma a1
  let b2 := halfLuma b1
  let pick := fun l => Config.vecPick a1 b1 l bx by_
  let v4 := bestVec (blockError (halfLuma a2) (halfLuma b2) (bx / 4) (by_ / 4)) (pick 4) (vecsAround (0, 0) 32 16 32 16)
  let v2 := bestVec (blockError a2 b2 (bx / 2) (by_ / 2)) (pick 2) (vecsAround (2 * v4.1, 2 * v4.2) 1 1 64 32)
  let v1 := bestVec (blockError a1 b1 bx by_) (pick 1) (vecsAround (2 * v2.1, 2 * v2.2) 1 1 128 64)
  bestVec (fun v => matchError a b bx by_ v.1 v.2) (pick 0) (vecsAround (4 * v1.1, 4 * v1.2) 3 3 512 256)

/-- The vector field from `a` to `b`: ±128 pixels across and ±64 down, in quarter pixels. -/
def vectorField (a b : Pic) : List Vec :=
  let n := blocksOfPic a
  (List.range (n.1 * n.2)).map fun k =>
    let v := searchVec a b (k % n.1) (k / n.1)
    ⟨v.1, v.2, matchError a b (k % n.1) (k / n.1) v.1 v.2⟩

/-- Insert in rising order. -/
def insertNat (x : Nat) : List Nat → List Nat
  | [] => [x]
  | y :: l => if x ≤ y then x :: y :: l else y :: insertNat x l

/-- Four times the median match error of a field. -/
def errLimit (v : List Vec) : Nat :=
  let l := (v.map (·.err)).foldr insertNat []
  4 * (l[l.length / 2]?).getD 0

/-- Blocks of a pair of frames whose match error exceeds the limit, and all its blocks. -/
def cutBlocks (v : List Vec) : Nat × Nat := ((v.filter fun x => decide (errLimit v < x.err)).length, v.length)

/-! ### Frame-rate conversion (R139, R140) -/

/-- The mix of two pixels at `n / d` of the way from the first to the second. -/
def mixPx (n d : Nat) (a b : Px) : Px :=
  pxOf (fun c => (pxGet c a * (d - n) + pxGet c b * n + d / 2) / max d 1) (if 2 * n ≤ d then a.key else b.key)

/-- The mix of two pictures. -/
def blendPic (n d : Nat) (a b : Pic) : Pic := (a.zip b).map fun l => (l.1.zip l.2).map fun p => mixPx n d p.1 p.2

/-- The picture `n / d` of the way from `a` to `b`, along the vectors forward and backward. -/
def motionPic (n d : Nat) (a b : Pic) (fwd bwd : List Vec) : Pic :=
  let across := (blocksOfPic a).1
  let lim := errLimit fwd
  let part := fun (v : Int) (k : Nat) => v * k / (max d 1 : Nat)
  (a.zipIdx).map fun l => (l.1.zipIdx).map fun p =>
    let x := p.2
    let y := l.2
    let k := y / 8 * across + x / 8
    let f := (fwd[k]?).getD ⟨0, 0, 0⟩
    let w := (bwd[k]?).getD ⟨0, 0, 0⟩
    let fromA := quarterPx a (4 * x - part f.dx n) (4 * y - part f.dy n)
    let fromB := quarterPx b (4 * x + part f.dx (d - n)) (4 * y + part f.dy (d - n))
    let backB := quarterPx b (4 * x - part w.dx (d - n)) (4 * y - part w.dy (d - n))
    if lim < f.err then mixPx n d p.1 (picAt b x y)
    else if 4 < (f.dx + w.dx).natAbs ∨ 4 < (f.dy + w.dy).natAbs then (if f.err ≤ w.err then fromA else backB)
    else mixPx n d fromA fromB

/-! ### Deinterlacing (R141) -/

/-- The missing line `j` of field `i` of a list of fields (top or not, lines), oldest first: the lines above and below it in the field. -/
def missingEnds (top : Bool) (p : Pic) (j : Nat) : List Px × List Px :=
  if top then (lineAt p j, lineAt p (j + 1)) else (lineAt p ((j : Int) - 1), lineAt p j)

/-- The missing line `j` of field `i`: woven pixel by pixel where the same-parity fields either side agree, else along the edge. -/
def adaptiveLine (fs : List (Bool × Pic)) (i j : Nat) (top : Bool) (p : Pic) : List Px :=
  let e := missingEnds top p j
  let prev := (if i = 0 then none else fs[i - 1]?).map (·.2)
  let other := ((fs[i + 1]?).or (if i < 3 then none else fs[i - 3]?)).map (·.2)
  ((lineAt p j).zipIdx).map fun q =>
    match prev, other with
    | some a, some b =>
      let x := picAt a q.2 j
      if Config.fieldsAgree x.c0 (picAt b q.2 j).c0 then x else edgePx e.1 e.2 q.2
    | _, _ => edgePx e.1 e.2 q.2

/-- Line `j` of field `p` as an adjacent field `a` shows it, along the estimator's vectors. -/
def alongVectors (a p : Pic) (j : Nat) : List Px :=
  let v := vectorField a p
  let across := (blocksOfPic a).1
  ((lineAt p j).zipIdx).map fun q =>
    let f := (v[j / 8 * across + q.2 / 8]?).getD ⟨0, 0, 0⟩
    quarterPx a (4 * q.2 - f.dx) (4 * j - f.dy)

/-- The missing line `j` of field `i` from the adjacent fields along the estimator's vectors: the mean of the two, or the one there is, or
along the edge when there is none (the mean DESIGN CHOICE, assumption 148). -/
def vectorLine (fs : List (Bool × Pic)) (i j : Nat) (top : Bool) (p : Pic) : List Px :=
  let e := missingEnds top p j
  match (if i = 0 then none else fs[i - 1]?).map (·.2), (fs[i + 1]?).map (·.2) with
  | some a, some b => ((alongVectors a p j).zip (alongVectors b p j)).map fun q => mixPx 1 2 q.1 q.2
  | some a, none => alongVectors a p j
  | none, some b => alongVectors b p j
  | none, none => ((lineAt p j).zipIdx).map fun q => edgePx e.1 e.2 q.2

/-- Under a locked cadence, field `i` of a list is the second of its original pair. -/
def secondOfPair (cadence : Nat) (fs : List (Bool × Pic)) (i : Nat) : Bool :=
  Config.cadenceSecond (cadence - 1) (((fs.take (i + 1)).map fun f => lumaOf f.2).reverse)

/-- Field `i` of a list of fields as a progressive frame: woven in its original pair under a locked cadence (1 3:2, 2 2:2), else by the
mode (2 motion-adaptive, 3 motion-compensated). -/
def deintField (mode cadence : Nat) (fs : List (Bool × Pic)) (i : Nat) : Pic :=
  match fs[i]? with
  | none => []
  | some (top, p) =>
    let second := secondOfPair cadence fs i
    let mate := if cadence = 0 then none
      else (if second then (if i = 0 then none else fs[i - 1]?) else (fs[i + 1]?).or (if i = 0 then none else fs[i - 1]?)).map (·.2)
    let other := match mate with
      | some q => q
      | none => (List.range p.length).map fun j => if mode = 3 then vectorLine fs i j top p else adaptiveLine fs i j top p
    if top then weave p other else weave other p

/-! ### Scaling (R142) -/

/-- Tap `t` of a kernel at a phase: built-in (bilinear computed), or the user's (assumption 147). -/
def kernelTap (kernel : Nat) (user : List Nat) (phase t : Nat) : Int :=
  if kernel = 3 then (if t = 3 then 256 * (64 - phase) else if t = 4 then 256 * phase else 0)
  else if kernel = 4 then (BitVec.ofNat 16 ((user[8 * phase + t]?).getD 0)).toInt
  else Config.kernelTap kernel phase t

/-- Where output sample `x` of `o` lies among `i` input samples, in 1/64 sample, centres aligned. -/
def scalePos (i o x : Nat) : Int := ((2 * x + 1) * i * 64 - 64 * o : Int) / (2 * o : Nat)

/-- A line scaled to `o` pixels. At ratio 1 it stays as it is, whatever kernel is named, the user kernel included: R142 does not say what a
kernel does there (DESIGN CHOICE, assumption 188). -/
def scaleLine (kernel : Nat) (user : List Nat) (o : Nat) (l : List Px) : List Px :=
  if o = l.length then l
  else (List.range o).map fun x =>
    let p := scalePos l.length o x
    let k := p / 64
    let ph := (p % 64).toNat
    let g := fun c => clip16 (roundDiv ((List.range 8).foldl
      (fun (a : Int) t => a + kernelTap kernel user ph t * (pxGet c (pxAt l (k - 3 + t)) : Int)) 0) 16384)
    pxOf g (pxAt l (if ph < 32 then k else k + 1)).key

/-- Rows and columns exchanged, for lines of `w` pixels. -/
def transposePic (w : Nat) (p : Pic) : Pic := (List.range w).map fun x => p.map fun l => (l[x]?).getD {}

/-- A picture scaled to `w` × `h`: across, then down (assumption 147). -/
def scalePic (kernel : Nat) (userH userV : List Nat) (w h : Nat) (p : Pic) : Pic :=
  let q := p.map (scaleLine kernel userH w)
  if h = q.length then q else transposePic h ((transposePic w q).map (scaleLine kernel userV h))

/-! ### Colour and transfer conversion (R143) -/

/-- A table entry, 1.0 beyond its end. -/
def lutAt (l : List Nat) (i : Nat) : Nat := (l[i]?).getD 65535

/-- The pre-LUT: indexed by the 10-bit sample. -/
def preLut (lut : Nat → Nat → Nat) (p : Px) : Px := pxOf (fun c => lut c (min 1023 (pxGet c p / 64))) p.key

/-- The matrix with its input and output offsets, 13 fraction bits. -/
def matrixPx (m : Nat → Int) (p : Px) : Px :=
  pxOf (fun r => clip16 (roundDiv (((List.range 3).map fun c => m (3 * r + c) * ((pxGet c p : Int) + m (9 + c))).sum) 8192 + m (12 + r)))
    p.key

/-- The 3D LUT with tetrahedral interpolation over 32 intervals per axis. -/
def lut3dPx (lut : List Nat) (p : Px) : Px :=
  let at_ := fun (c : Nat) => min 31 (pxGet c p * 32 / 65535)
  let fr := fun (c : Nat) => pxGet c p * 32 - at_ c * 65535
  let node := fun (c i j k : Nat) => lutAt lut (3 * (((at_ 0 + i) * 33 + (at_ 1 + j)) * 33 + (at_ 2 + k)) + c)
  let x := fr 0
  let y := fr 1
  let z := fr 2
  let g := fun c =>
    let v0 := node c 0 0 0
    let v1 := node c 1 1 1
    let mix := fun (a b : Nat) (u v w : Nat) => (v0 * (65535 - u) + a * (u - v) + b * (v - w) + v1 * w + 32767) / 65535
    if y ≤ x then
      if z ≤ y then mix (node c 1 0 0) (node c 1 1 0) x y z
      else if z ≤ x then mix (node c 1 0 0) (node c 1 0 1) x z y
      else mix (node c 0 0 1) (node c 1 0 1) z x y
    else if z ≤ x then mix (node c 0 1 0) (node c 1 1 0) y x z
    else if z ≤ y then mix (node c 0 1 0) (node c 0 1 1) y z x
    else mix (node c 0 0 1) (node c 0 1 1) z y x
  pxOf g p.key

/-- The post-LUT: linear interpolation at x × 1,023 / 65,535. -/
def postLut (lut : Nat → Nat → Nat) (p : Px) : Px :=
  pxOf (fun c =>
    let n := pxGet c p * 1023
    let i := n / 65535
    let f := n % 65535
    (lut c i * (65535 - f) + lut c (min 1023 (i + 1)) * f + 32767) / 65535) p.key

/-- Entry `i` of component `c` of a LUT item. -/
def itemLut (l : List Nat) (c i : Nat) : Nat := lutAt l (1024 * c + i)

/-- Number `i` of a matrix item, signed 16 bits. -/
def itemMatrix (l : List Nat) (i : Nat) : Int := (BitVec.ofNat 16 ((l[i]?).getD 0)).toInt

/-- The colour stage on one pixel; `lut` is the contents of the bank selected. Preset 15 with a table that was never loaded passes that step
unchanged: R143 does not say (DESIGN CHOICE, assumption 188). -/
def colourPx (x : CtxPar) (lut : Option (List Nat)) (p : Px) : Px :=
  if 1 ≤ x.preset ∧ x.preset ≤ 8 then
    postLut (Config.presetLut x.preset true) (matrixPx (Config.presetMatrix x.preset) (preLut (Config.presetLut x.preset false) p))
  else
    let p := if x.preset = 15 ∧ x.preLut ≠ [] then preLut (itemLut x.preLut) p else p
    let p := if x.preset = 15 ∧ x.matrix ≠ [] then matrixPx (itemMatrix x.matrix) p else p
    let p := match lut with
      | some l => lut3dPx l p
      | none => p
    if x.preset = 15 ∧ x.postLut ≠ [] then postLut (itemLut x.postLut) p else p

/-! ### Output window (R142) -/

/-- A picture placed at (`x`, `y`) of a raster of `w` × `h` over a fill; in 4:2:2 a pair takes the colour difference of the picture's pair
that its even pixel shows. -/
def placePic (s444 : Bool) (x y w h : Nat) (fill : Px) (p : Pic) : Pic :=
  (List.range h).map fun r => (List.range w).map fun c =>
    match if x ≤ c ∧ y ≤ r then (p[r - y]?).bind fun l => (l[c - x]?).map fun q => (l, q) else none with
    | some (l, q) =>
      if s444 then q
      else if c % 2 = 1 then { q with c1 := 0, c2 := 0 }
      else let k := (l[(c - x) / 2 * 2]?).getD q; { q with c1 := k.c1, c2 := k.c2 }
    | none => if s444 ∨ c % 2 = 0 then fill else { fill with c1 := 0, c2 := 0 }

/-! ### Composition of layers (R160) -/

/-- The weight of a layer of a key mode as a fraction: its key weight times OPACITY/255. `px` is at 10 bits. -/
def layerWeight (l : SouLayer) (px : Px) : Nat × Nat :=
  let k : Nat × Nat :=
    if l.key = 1 then (px.key, 3)
    else if l.key = 2 then
      if l.hi ≤ l.lo then (if l.lo < px.c0 then (1, 1) else (0, 1))
      else if px.c0 ≤ l.lo then (0, 1) else if l.hi ≤ px.c0 then (1, 1) else (px.c0 - l.lo, l.hi - l.lo)
    else (1, 1)
  (k.1 * l.opacity, k.2 * 255)

/-- A layer over what lies below it. `px` is at 10 bits for the key, `q` its 16-bit 4:4:4 pixel. -/
def overPx (l : SouLayer) (px q below : Px) : Px :=
  let a := layerWeight l px
  mixPx a.1 a.2 below q

/-- A layer as the compositor takes it: its setting, whether it is layer 1, its picture at 10 bits and at 16 bits 4:4:4, and the lines that
are absent. -/
structure LayerPic where
  set    : SouLayer
  first  : Bool
  raw    : Pic
  full   : Pic
deriving DecidableEq, Repr

/-- A layer's pixel at raster position (`c`, `r`), clipped to its picture. -/
def LayerPic.at_ (l : LayerPic) (c r : Nat) : Option (Px × Px) :=
  if l.set.x ≤ c ∧ l.set.y ≤ r then
    ((l.raw[r - l.set.y]?).bind (·[c - l.set.x]?)).bind fun a =>
      ((l.full[r - l.set.y]?).bind (·[c - l.set.x]?)).map fun b => (a, b)
  else none

/-- One sample of a composed frame: the background, layer 1 opaque, then layers 2 and 3; background alone from the sample at which the
line underran (R164). -/
def composePx (bg : Px) (ls : List LayerPic) (under : Option Nat) (c r : Nat) : Px :=
  if (under.map fun k => decide (k ≤ c)).getD false then bg
  else ls.foldl (fun p l =>
    match l.at_ c r with
    | none => p
    | some (a, b) => if l.first then { b with key := 3 } else overPx l.set a b p) bg

/-- The composed frame at 10 bits, 4:4:4 or downsampled to 4:2:2. -/
def composePic (w h : Nat) (out444 : Bool) (bg : Px) (ls : List LayerPic) (under : Nat → Option Nat) : Pic :=
  let b := pxMap (toBits 10 16) { bg with key := 3 }
  (List.range h).map fun r =>
    let l := (List.range w).map fun c => composePx b ls (under r) c r
    (if out444 then l else down422 l).map (pxMap (toBits 16 10))

/-! ### Patterns (R105) -/

/-- Luma weights × 10,000 of R' and B' of a format's default colorimetry: BT.601 for the 525- and 625-line formats, BT.709 for the others
(assumption 150). -/
def lumaWeights (fmt : Nat) : Nat × Nat := if fmt < 2 then (2990, 1140) else (2126, 722)

/-- A colour of R', G', B' in quarters of full scale as narrow-range Y'CbCr at 10 bits. -/
def barPx (fmt r g b : Nat) : Px :=
  let w := lumaWeights fmt
  let y := r * w.1 + g * (10000 - w.1 - w.2) + b * w.2
  let diff := fun (c k : Nat) => clip16 (512 + roundDiv (448 * ((c * 10000 : Nat) - (y : Nat) : Int)) (4 * (10000 - k)))
  ⟨64 + (876 * y + 20000) / 40000, diff b w.2, diff r w.1, 3⟩

/-- The 75 % colour bars in their order: white, yellow, cyan, green, magenta, red, blue, black. -/
def bars : List (Nat × Nat × Nat) := [(3, 3, 3), (3, 3, 0), (0, 3, 3), (0, 3, 0), (3, 0, 3), (3, 0, 0), (0, 0, 3), (0, 0, 0)]

/-- A line of a picture as 4:2:2, each pair with the colour difference of its even pixel. -/
def pairLine (l : List Px) : List Px := (l.zipIdx).map fun p => if p.2 % 2 = 0 then p.1 else { p.1 with c1 := 0, c2 := 0 }

/-- A picture in display order in the order it is stored (R110). -/
def storedOrder (f : Fmt) (p : Pic) : Pic := if f.inter then fieldOf f.f1Top p ++ fieldOf (!f.f1Top) p else p

/-- A stored picture in display order. -/
def displayOrder (f : Fmt) (p : Pic) : Pic :=
  let a := p.take (f.lines / 2)
  let b := p.drop (f.lines / 2)
  if !f.inter then p else if f.f1Top then weave a b else weave b a

/-- A generator's picture: 0 bars, 1 black, 2 flat colour, 3 zone plate. -/
def patternPic (fmt : Nat) (f : Fmt) (g : PgSt) : Pic :=
  let px := fun (x y : Nat) =>
    match g.pattern with
    | 0 => let b := (bars[x * 8 / f.w]?).getD (0, 0, 0); barPx fmt b.1 b.2.1 b.2.2
    | 1 => blackPx false
    | 2 => { p32Px g.colour with key := 3 }
    | _ => pxOf (fun c => Config.zonePlate f.w f.lines x y g.step c % 1024) 3
  storedOrder f ((List.range f.lines).map fun y => pairLine ((List.range f.w).map fun x => px x y))

/-! ### Multi-link images (R39) -/

/-- Pixels of two lines in turns of two. -/
def pairs2 : List Px → List Px → List Px
  | a :: b :: l, c :: d :: m => a :: b :: c :: d :: pairs2 l m
  | l, [] => l
  | [], m => m
  | l, m => l ++ m

/-- The image of a group's links (assumption 151): two links carry alternate lines, four links the quadrants of the image (`square`) or
alternate pairs of samples of alternate lines. -/
def joinLinks (square : Bool) : List Pic → Pic
  | [a, b] => weave a b
  | [a, b, c, d] =>
    if square then (a.zip b).map (fun l => l.1 ++ l.2) ++ (c.zip d).map fun l => l.1 ++ l.2
    else weave ((a.zip b).map fun l => pairs2 l.1 l.2) ((c.zip d).map fun l => pairs2 l.1 l.2)
  | l => l.flatten

end Sys2Proof.Machine
end

