-- ==== Sys2Proof/Machine/FstOps.lean ====
section
/-! DEFINITION. Shared operations of the frame store: granule placement, rings and handles, reference counts and freeing, capture
writers' targets and readers' selection (R107 to R123). -/
namespace Sys2Proof.Machine

/-! ### Granules -/

/-- Granules that buffers, moves, delay lines and path buffers hold. -/
def State.usedGrans (s : State) : List Nat :=
  (s.fst.bufs.flatMap fun p => p.2.grans ++ (p.2.moved.getD [])) ++ s.fst.audioGr ++ s.fst.pathGr.flatMap (·.2)

/-- Pseudo-channel `p` is fenced. -/
def State.pcFenced (s : State) (p : Nat) : Bool := s.fst.fencedP.contains p

/-- Granule `g` belongs to the allocatable pool: not fenced, and no spare unless a fenced granule's place was given to it (R107,
R129). -/
def State.inPool (s : State) (g : Nat) : Bool :=
  !s.fst.fencedG.contains g && (decide (g % 256 < 254) || s.fst.sparesU.contains g)

/-- The lowest free allocatable granule of pseudo-channel `p`, given those in use. -/
def State.freeIn (s : State) (used : List Nat) (p : Nat) : Option Nat :=
  if s.pcFenced p then none
  else (lowest 256 fun i => s.inPool (256 * p + i) && !used.contains (256 * p + i)).map (256 * p + ·)

/-- Free allocatable granules of pseudo-channel `p`. -/
def State.freeCount (s : State) (used : List Nat) (p : Nat) : Nat :=
  if s.pcFenced p then 0
  else 254 + (s.fst.sparesU.filter fun g => g / 256 == p).length
    - ((used.filter fun g => g / 256 == p) ++ (s.fst.fencedG.filter fun g =>
        g / 256 == p && (decide (g % 256 < 254) || s.fst.sparesU.contains g))).eraseDups.length

/-- FST_GRAN.FREE: granules left for allocation. -/
def State.freeGrans (s : State) : Nat :=
  let u := s.usedGrans
  ((List.range 64).map (s.freeCount u)).sum

/-- The granules of a list that holds `n` bytes, each with the bytes it holds. -/
def spread : List Nat → Nat → List (Nat × Nat)
  | [], _ => []
  | g :: l, n => (g, min granBytes n) :: spread l (n - granBytes)

/-- Every admitted consumer of R108 with its traffic and where its bytes lie: those of Table 4-5, the audio delay lines (in whole
granules) and the path buffers. -/
def State.loads (s : State) : List (Nat × List (Nat × Nat)) :=
  (s.consumers.map fun c => (c.1, c.2.flatMap fun h => ((s.buf h).map fun b => spread b.grans b.size).getD []))
  ++ [(s.audioUnits * 3072000 * 1001, s.fst.audioGr.map fun g => (g, granBytes))]
  ++ (s.media.rxFlow.map fun p =>
    (2 * s.flowBits (p.1 / 1024) p.2.rcd, spread (tabGet [] s.fst.pathGr p.1) (s.pathBytes (p.1 / 1024) p.2.rcd)))

/-- Admitted traffic of pseudo-channel `p`: each consumer's figure times the share of its buffers' bytes there (R108). -/
def State.pcTraffic (s : State) (p : Nat) : Rat :=
  (s.loads.map fun c =>
    (c.1 * ((c.2.filter fun g => g.1 / 256 == p).map (·.2)).sum : Nat) / ((max 1 (c.2.map (·.2)).sum : Nat) : Rat)).sum

/-- The pseudo-channel with the least admitted traffic among those that have a free granule, lowest number first. -/
def State.startPc (s : State) (used : List Nat) : Option Nat :=
  ((List.range 64).filter fun p => (s.freeIn used p).isSome).foldl (fun b p =>
    match b with
    | none => some p
    | some q => if s.pcTraffic p < s.pcTraffic q then some p else some q) none

/-- Take granules on consecutive pseudo-channels from `p` on, skipping those with none free; `n` more granules. -/
def State.takeGrans (s : State) : Nat → Nat → List Nat → List Nat → Option (List Nat)
  | 0, _, _, acc => some acc
  | n + 1, p, used, acc =>
    match firstFrom (fun q => (s.freeIn used (q % 64)).isSome) p 64 with
    | none => none
    | some q => match s.freeIn used (q % 64) with
      | none => none
      | some g => s.takeGrans n (q + 1) (g :: used) (acc ++ [g])

/-- Granules for one buffer (R108), with those already taken by the same request. -/
def State.placeBuf (s : State) (n : Nat) (used : List Nat) : Option (List Nat) :=
  (s.startPc used).bind fun p => s.takeGrans n p used []

/-- Granules for `k` buffers of `n` granules each, or none. -/
def State.placeBufs (s : State) (n : Nat) : Nat → List Nat → Option (List (List Nat))
  | 0, _ => some []
  | k + 1, used =>
    match s.placeBuf n used with
    | none => none
    | some g => (s.placeBufs n k (g ++ used)).map (g :: ·)

/-! ### Handles and rings -/

/-- The lowest run of `n` free handles (R109). -/
def State.freeRun (s : State) (n : Nat) : Option Nat :=
  lowest (8193 - n) fun h => (List.range n).all fun i => (s.buf (h + i)).isNone

/-- A ring as a request describes it. -/
structure RingReq where
  depth : Nat
  fmt   : Nat
  pix   : Nat
  cdesc : Nat
  chain : Bool
deriving DecidableEq, Repr

/-- Allocate a ring: its number, or the shortfall code of the first resource short (Table 4-6). -/
def State.allocRing (s : State) (q : RingReq) : Except Nat (Nat × State) :=
  match lowest 2048 fun r => (s.ring r).isNone with
  | none => .error 0x03
  | some r =>
    match s.freeRun q.depth with
    | none => .error 0x04
    | some h =>
      let n := ((s.fmt? q.fmt).map fun f => granulesOf f q.pix).getD 1
      let z := ((s.fmt? q.fmt).map fun f => frameBytes f q.pix).getD 0
      if s.freeGrans < q.depth * n then .error 0x05
      else match s.placeBufs n q.depth s.usedGrans with
        | none => .error 0x05
        | some gs =>
          let s := s.setRing r ⟨h, q.depth, q.fmt, q.pix, q.cdesc, q.chain, false, none, false⟩
          .ok (r, (gs.zipIdx).foldl (fun s p => s.setBuf (h + p.2) { ring := some r, grans := p.1, size := z }) s)

/-- Allocate a working store of `k` buffers in the geometry of ring `r` (R132): the handles, or a shortfall code. -/
def State.allocStore (s : State) (k r : Nat) : Except Nat (List Nat × State) :=
  if k = 0 then .ok ([], s)
  else match s.freeRun k, s.ring r with
    | none, _ => .error 0x04
    | _, none => .error 0x04
    | some h, some g =>
      let n := ((s.fmt? g.fmt).map fun f => granulesOf f g.pix).getD 1
      if s.freeGrans < k * n then .error 0x05
      else match s.placeBufs n k s.usedGrans with
        | none => .error 0x05
        | some gs => .ok ((List.range k).map (h + ·),
            (gs.zipIdx).foldl (fun s p => s.setBuf (h + p.2) { ring := none, grans := p.1, size := s.ringBytes r }) s)

/-! ### Reference counts and freeing (R114, R115) -/

/-- A handle and its granules return to the pool; a freeing ring goes with its last buffer. -/
def State.dropBuf (s : State) (h : Nat) : State :=
  let r := (s.buf h).bind (·.ring)
  let s := { s with fst := { s.fst with bufs := tabDel s.fst.bufs h } }
  match r with
  | none => s
  | some r =>
    if !s.fst.bufs.any (fun p => p.2.ring == some r) then { s with fst := { s.fst with rings := tabDel s.fst.rings r } } else s

/-- Free one handle: at once when it has no reader, else deferred. -/
def State.freeBuf (s : State) (h : Nat) : State :=
  match s.buf h with
  | none => s
  | some b => if b.readers.isEmpty then s.dropBuf h else s.setBuf h { b with freeing := true }

/-- Free ring `r` (R115): whether the free was deferred, and the state. -/
def State.freeRing (s : State) (r : Nat) : Bool × State :=
  match s.ring r with
  | none => (false, s)
  | some g =>
    let hs := s.ringBufs r
    let s := s.setRing r { g with freeing := true }
    let cw := (s.fst.cw.filter fun p => p.2.ring == some r).map (·.1)
    let s := cw.foldl (fun s k => s.setCw k {}) s
    let s := hs.foldl State.freeBuf s
    ((s.ring r).isSome, s)

/-- A reader takes buffer `h`. -/
def State.addReader (s : State) (h : Nat) (r : Reader) : State :=
  match s.buf h with
  | some b => if b.readers.contains r then s else s.setBuf h { b with readers := b.readers ++ [r] }
  | none => s

/-- A reader has finished with buffer `h`; a freeing buffer whose count reaches zero returns to the pool. -/
def State.dropReader (s : State) (h : Nat) (r : Reader) : State :=
  match s.buf h with
  | some b =>
    let b := { b with readers := b.readers.filter fun x => decide (x ≠ r) }
    if b.freeing && b.readers.isEmpty then (s.setBuf h b).dropBuf h else s.setBuf h b
  | none => s

/-- A reader leaves whatever buffers it holds. -/
def State.dropReaderAll (s : State) (r : Reader) : State :=
  (s.fst.bufs.filter fun p => p.2.readers.contains r).foldl (fun s p => s.dropReader p.1 r) s

/-- Handles awaiting release (FST_PENDFREE). -/
def State.pendFree (s : State) : Nat := (s.fst.bufs.filter fun p => p.2.freeing).length

/-! ### Capture writers and selection (R121, R122) -/

/-- The newest complete buffer of a ring. -/
def State.newest (s : State) (r : Nat) : Option Nat := (s.ring r).bind (·.newest)

/-- The capture writer filling buffer `h`. -/
def State.filler (s : State) (h : Nat) : Option Nat :=
  (s.fst.cw.find? fun p => p.2.filling == some h).map (·.1)

/-- A context is writing buffer `h`. -/
def State.ctxFills (s : State) (h : Nat) : Bool := s.che.ctx.any fun p => p.2.outBuf == some h

/-- The reader-free buffer of ring `r`, other than the newest, completed longest ago; never written counts as longest ago. -/
def State.oldestFree (s : State) (r : Nat) : Option Nat :=
  ((s.ringBufs r).filter fun h => s.newest r != some h && match s.buf h with
      | some b => b.readers.isEmpty && !b.freeing
      | none => false).foldl (fun acc h =>
    match acc with
    | none => some h
    | some k => if ((s.buf h).map (·.done)).getD 0 < ((s.buf k).map (·.done)).getD 0 then some h else some k) none

/-- The target of a writer at a frame start (R121): the buffer and whether a complete frame is overwritten unread; none skips. -/
def State.writeTarget (s : State) (r : Nat) : Option (Nat × Bool) :=
  match s.oldestFree r with
  | some h => some (h, false)
  | none => (s.newest r).bind fun h => (s.buf h).bind fun b => if b.readers.isEmpty then some (h, true) else none

/-- Buffer `h` becomes the newest complete buffer of its ring, with metadata `m` (R112, R121). A ring marked black stays black until then:
R123 says only that the writer resumes (DESIGN CHOICE, assumption 189). -/
def State.completeBuf (s : State) (h : Nat) (m : Meta) (absent : List (Nat × Nat)) : State :=
  match s.buf h with
  | none => s
  | some b =>
    let n := s.fst.doneSeq + 1
    let s := { s with fst := { s.fst with doneSeq := n } }
    let s := s.setBuf h { b with done := n, doneAt := s.now, info := m, absent := absent }
    let us := s.sou.unit.map fun p => (p.1, if p.2.sel1 = some h then { p.2 with lastSeq := n } else p.2)
    let s := { s with sou := { s.sou with unit := us } }
    match b.ring.bind fun r => (s.ring r).map fun g => (r, g) with
    | some (r, g) => s.setRing r { g with newest := some h, black := false }
    | none => s

/-- The complete buffer of ring `r` other than `h` that was completed last. -/
def State.newestBut (s : State) (r h : Nat) : Option Nat :=
  ((s.ringBufs r).filter fun k => k != h && decide (0 < ((s.buf k).map (·.done)).getD 0)).foldl (fun acc k =>
    match acc with
    | none => some k
    | some j => if ((s.buf j).map (·.done)).getD 0 < ((s.buf k).map (·.done)).getD 0 then some k else some j) none

/-- A writer begins to write buffer `h` of ring `r`: the frame it held is gone. Every unit whose layer 1 follows the ring and had not
selected that frame counts it as dropped (R165). -/
def State.beginWrite (s : State) (r h : Nat) : State :=
  match s.buf h with
  | none => s
  | some b =>
    let s := if b.done = 0 then s else
      (s.sou.unit.filter fun p => p.2.alloc && p.2.active.l1.en && !p.2.active.l1.fixed && p.2.active.l1.ring == r
        && decide (p.2.lastSeq < b.done)).foldl (fun s p => s.inc (R.SOU_DROP_CNT p.1)) s
    let s := s.setBuf h { b with done := 0, absent := [] }
    match s.ring r with
    | some g => if g.newest = some h then s.setRing r { g with newest := s.newestBut r h } else s
    | none => s

/-- Lines a writer needs to have done before a reader may follow it (R122): `tw` and `tr` are line periods, `n` the active lines. -/
def aheadLines (n tw tr : Nat) : Nat := 2 + (if tr = 0 then 0 else (n * (tw - tr) + tr - 1) / tr)

/-- The buffer the capture writer of ring `r` is filling, the format and line period of what it writes, and the lines it has done at
`t`. -/
def State.cwFilling (s : State) (r t : Nat) : Option (Nat × Nat × Nat × Nat) := do
  let p ← s.fst.cw.find? fun p => p.2.ring == some r && p.2.filling.isSome
  let h ← p.2.filling
  let rt ← s.route (344 + p.1)
  let g ← s.srcGrid rt.src
  let f ← s.fmt? g.fmt
  let tw := g.period / g.lines
  pure (h, g.fmt, tw, f.linesBy ((t - p.2.start) / max tw 1))

/-- The same of the context that writes ring `r`: its slices so far. -/
def State.ctxFilling (s : State) (r : Nat) : Option (Nat × Nat × Nat × Nat) := do
  let p ← s.che.ctx.find? fun p => p.2.outRing == r && p.2.outBuf.isSome
  let h ← p.2.outBuf
  let f ← s.fmt? p.2.outFmt
  pure (h, p.2.outFmt, f.period / f.totL, (f.sliceSpan p.2.slice).1)

/-- The buffer a reader of format `fmt` with line period `tr` (ticks) selects at time `t` (R122). -/
def State.selectBuf (s : State) (r fmt tr t : Nat) : Option Nat :=
  let early := ((s.cwFilling r t).or (s.ctxFilling r)).bind fun w =>
    let n := ((s.fmt? fmt).map (·.lines)).getD 0
    if w.2.1 = fmt ∧ aheadLines n w.2.2.1 tr ≤ w.2.2.2 then some w.1 else none
  early.or (s.newest r)

/-! ### Bytes of a buffer -/

/-- The physical address of byte `off` of a granule list. -/
def granAddr (gs : List Nat) (off : Nat) : Nat := (gs[off / granBytes]?.getD 0) * granBytes + off % granBytes

/-- `n` bytes of buffer `h` from offset `off` on, as they are stored. -/
def State.bufBytes (s : State) (h off n : Nat) : List Byte :=
  match s.buf h with
  | some b => (List.range n).map fun k => memRead s.fst.mem (granAddr b.grans (off + k))
  | none => []

/-- Write bytes into buffer `h` from offset `off` on; a word written no longer fails (assumption 154), and one that a handshake time-out
discards is not written (R329). -/
def State.bufStore (s : State) (h off : Nat) (l : List Byte) : State :=
  match s.buf h with
  | some b =>
    let ps := (l.zipIdx).map fun p => (granAddr b.grans (off + p.2), p.1)
    let m := ps.foldl (fun m p => if s.fst.lostW.contains (p.1 / 32) then m else memWrite m p.1 p.2) s.fst.mem
    let hit := ps.map (·.1)
    { s with fst := { s.fst with
      mem := m
      badW := s.fst.badW.filter fun w => !hit.any fun a => a / 8 == w && !s.fst.lostW.contains (a / 32)
      lostW := s.fst.lostW.filter fun w => !hit.any fun a => a / 32 == w } }
  | none => s

/-- The frame store as reader `c`, a context or the host's DMA, sees it: words lost on the way to others are there. -/
def State.asReader (s : State) (c : Option Nat) : State :=
  { s with fst := { s.fst with lostR := s.fst.lostR.filter fun p => p.1 == c } }

/-- Reader `c` has done its read: words lost on the way to it were lost from that read only. -/
def State.readDone (s : State) (c : Option Nat) : State :=
  { s with fst := { s.fst with lostR := s.fst.lostR.filter fun p => p.1 != c } }

/-- The frame store as a scan-out unit sees it: a word lost on the way to it underruns its line instead (R329). -/
def State.asUnit (s : State) : State := { s with fst := { s.fst with lostR := [] } }

/-- The 256-bit word that holds byte `off` of buffer `h`. -/
def State.wordAt (s : State) (h off : Nat) : Option Nat := (s.buf h).map fun b => granAddr b.grans off / 32

/-- A ring's pictures are R'G'B'. -/
def Ring.rgb (g : Ring) : Bool := g.cdesc / 64 % 2 == 1

/-- The bytes of the unit at offset `off` of buffer `h` as a reader gets them: black where a word of it fails (R128), or was lost
on the way (R329). -/
def State.readUnit (s : State) (h pix : Nat) (rgb : Bool) (off : Nat) : List Byte :=
  let n := (unitOf pix).1
  match s.buf h with
  | none => []
  | some b =>
    if (List.range n).any fun k => s.fst.badW.contains (granAddr b.grans (off + k) / 8)
        || s.fst.lostR.any fun p => p.2 == granAddr b.grans (off + k) / 32 then
      packUnit pix 10 (blackPx rgb) (blackPx rgb)
    else s.bufBytes h off n

/-- Units of a line of `w` pixels. -/
def lineUnits (pix w : Nat) : Nat := if pix < 2 then (w + 1) / 2 else w

/-- The bytes of a line of `w` pixels at offset `off` as a reader gets them. -/
def State.readLine (s : State) (h pix : Nat) (rgb : Bool) (w off : Nat) : List Byte :=
  (List.range (lineUnits pix w)).flatMap fun i => s.readUnit h pix rgb (off + i * (unitOf pix).1)

/-- The picture buffer `h` holds, at 10 bits, in stored order. -/
def State.readPic (s : State) (h pix : Nat) (rgb : Bool) (f : Fmt) : Pic :=
  (List.range f.lines).map fun k =>
    ((List.range (lineUnits pix f.w)).flatMap fun i =>
      unpackUnit pix (s.readUnit h pix rgb (k * pitchOf pix f.w + i * (unitOf pix).1))).take f.w

/-- The picture a reader of ring `r` gets from its buffer `h`: black, without reading the store, where the ring is black (R123). -/
def State.ringPic (s : State) (r h : Nat) : Pic :=
  match s.ring r with
  | none => []
  | some g => match s.fmt? g.fmt with
    | none => []
    | some f => if g.black then (flatPic f.w f.lines (blackPx g.rgb)).map pairLine' else s.readPic h g.pix g.rgb f
where
  /-- In 4:2:2 the colour difference stands on even pixels. -/
  pairLine' (l : List Px) : List Px := if (s.ring r).any (fun g => pix444 g.pix) then l else pairLine l

/-- The DMA of descriptor key `k` is over: it holds no buffer, and what it wrote stays. -/
def State.dmaEnd (s : State) (k : Nat) : State :=
  ({ s with fst := { s.fst with dmas := s.fst.dmas.filter fun d => d.key != k } } : State).dropReaderAll (.dma k)

/-- A DMA write is abandoned (R119): of its lines a number the manual leaves open have reached the buffer, the others still hold what they
held, and the buffer holds no complete frame (assumption 15). -/
def State.dmaBreak (s : State) (d : DmaWr) : State :=
  let (n, s) := s.draw
  let s := (d.old.drop ((Config.fresh 13 n).toNat % (d.old.length + 1))).foldl (fun s p => s.bufStore d.buf p.1 p.2) s
  match s.buf d.buf with
  | none => s
  | some b =>
    let s := s.setBuf d.buf { b with done := 0 }
    match b.ring.bind fun r => (s.ring r).map fun g => (r, g) with
    | some (r, g) => if g.newest = some d.buf then s.setRing r { g with newest := s.newestBut r d.buf } else s
    | none => s

/-- A warm reset abandons the DMA of descriptor key `k` (R119). -/
def State.dmaAbandon (s : State) (k : Nat) : State :=
  ((s.fst.dmas.filter fun d => d.key == k).foldl State.dmaBreak s).dmaEnd k

/-- Write lines of samples of `d` bits into buffer `h` from line `at_` on (R110, R113). -/
def State.storeFrom (s : State) (h pix w d at_ : Nat) (p : Pic) : State :=
  (p.zipIdx).foldl (fun s l => s.bufStore h ((at_ + l.2) * pitchOf pix w) (packLine pix d l.1)) s

/-- Write the lines of a picture into buffer `h`. -/
def State.storeLines (s : State) (h pix w d : Nat) (p : Pic) : State := s.storeFrom h pix w d 0 p

/-- A source's picture as a capture writer takes it: opaque where the source has no key (R113). -/
def keyedPic (src : Nat) (p : Pic) : Pic :=
  match srcPort src with
  | .host _ => p
  | _ => p.map fun l => l.map fun x => { x with key := 3 }

/-- The lines that the capture writer of ring `r` has done by `t` are in the buffer it fills (R122). -/
def State.catchUp (s : State) (r t : Nat) : State :=
  match s.fst.cw.find? (fun p => p.2.ring == some r && p.2.filling.isSome), s.cwFilling r t, s.ring r with
  | some (k, c), some (h, _, _, n), some g => match s.fmt? g.fmt, s.route (344 + k) with
    | some f, some q =>
      let d := if s.src10 q.src then 10 else 8
      (s.storeFrom h g.pix f.w d c.got (keyedPic q.src ((c.coming.take n).drop c.got))).setCw k { c with got := max c.got n }
    | _, _ => s
  | _, _, _ => s

end Sys2Proof.Machine
end

