-- ==== Sys2Proof/Machine/MediaOps.lean ====
section
/-! DEFINITION. Shared operations of the media ports: why a transmit lane is idle (R44, Table 2-6), what a lost source does to
what it feeds (Table 2-5), and the route log (R99, R423). -/
namespace Sys2Proof.Machine

/-! ### Route log -/

/-- The bytes of a route-log entry (Table 17-6). -/
def LogEntry.bytes (e : LogEntry) : List Byte :=
  le 1 e.typ ++ le 1 e.origin ++ le 1 e.status ++ le 1 e.kind ++ le 2 e.dst ++ le 2 e.src ++ le 6 e.rfn ++ le 1 e.ring ++ [0]
    ++ le 8 e.time ++ le 8 e.num

/-- Entries of the host log ring: 2^LOG_LOG2, 12 to 24. -/
def State.logSize (s : State) : Nat := 2 ^ (max 12 (min 24 (s.get R.SEC_LOG_CFG F.SEC_LOG_CFG_LOG_LOG2)))

/-- The host log ring is taken, has a free slot, and host memory may be written (R285). -/
def State.logRoom (s : State) : Bool :=
  s.sec.logUp && !s.host.dmaOff && (s.get R.SEC_LOG_HEAD F.SEC_LOG_HEAD_HEAD + 1) % s.logSize != s.get R.SEC_LOG_TAIL F.SEC_LOG_TAIL_TAIL

/-- Write one entry to the host log ring and advance SEC_LOG_HEAD. -/
def State.deliver (s : State) (e : LogEntry) : State :=
  let hd := s.get R.SEC_LOG_HEAD F.SEC_LOG_HEAD_HEAD
  (s.hostWrite ((s.inForce R.SEC_LOG_BASE_LO).toNat + (s.inForce R.SEC_LOG_BASE_HI).toNat * 2 ^ 32 + 32 * hd) e.bytes).set R.SEC_LOG_HEAD F.SEC_LOG_HEAD_HEAD
    ((hd + 1) % s.logSize)

/-- Deliver held entries while the ring has room. -/
def State.deliverHeld (s : State) : State :=
  s.sec.hold.foldl (fun s e =>
    if s.logRoom then (s.deliver e) |> fun s => { s with sec := { s.sec with hold := s.sec.hold.tail } } else s) s

/-- Append an entry to the route log (R423) at once: it extends the chain and is delivered, held, or counted as dropped. A BLANK device
keeps no log, since entries count from PROVISIONED. -/
def State.logNow (s : State) (time typ origin status kind dst src rfn ring : Nat) : State :=
  if s.lifecycle = 0 then s
  else
    let e : LogEntry := ⟨typ, origin, status, kind, dst, src, rfn, ring, time, s.sec.entries⟩
    let s := { s with sec := { s.sec with
      entries := s.sec.entries + 1
      head := Config.shake 256 (s.sec.head.toNat :: e.bytes.map BitVec.toNat) } }
    if s.sec.hold.isEmpty && s.logRoom then s.deliver e
    else if s.sec.hold.length < 2048 then { s with sec := { s.sec with hold := s.sec.hold ++ [e] } }
    else (s.inc R.SEC_LOG_DROP_CNT).raise Hist.sec F.SEC_HIST_LOG_DROP

/-- Append an entry to the route log; while the control side is in warm reset it waits for the end of P4 (R91). -/
def State.logWith (s : State) (time typ origin status kind dst src rfn ring : Nat) : State :=
  if s.rst.warmRun && s.get R.RST_STAT F.RST_STAT_PHASE != 5 then
    { s with sec := { s.sec with later := s.sec.later ++ [⟨typ, origin, status, kind, dst, src, rfn, ring, time, 0⟩] } }
  else s.logNow time typ origin status kind dst src rfn ring

/-- Append an entry that carries the PTP time. -/
def State.log (s : State) (typ origin status kind dst src rfn ring : Nat) : State :=
  s.logWith s.nsNow typ origin status kind dst src rfn ring

/-- A security change enters the log (type 9): `k` is the model's name for it, 1 lifecycle, 2 signing mode, 3 pinned keys, 4 domain key. -/
def State.logSec (s : State) (k : Nat) (by_ : Nat × Nat) : State := s.log 9 by_.1 0 (Config.secCode k).toNat 0 0 s.rfnNow by_.2

/-! ### Signatures -/

/-- One bit step of CRC-64 ECMA-182, reflected (R101). -/
def crcBit (c : BitVec 64) : BitVec 64 := if c.getLsbD 0 then (c >>> 1) ^^^ 0xC96C5795D7870F42#64 else c >>> 1

/-- One byte of the CRC. -/
def crcByte (c : BitVec 64) (b : Nat) : BitVec 64 :=
  let c := c ^^^ BitVec.ofNat 64 (b % 256)
  crcBit (crcBit (crcBit (crcBit (crcBit (crcBit (crcBit (crcBit c)))))))

/-- The signature of a frame's active samples: each 10-bit sample a 16-bit word, low byte first (R101). -/
def signature (l : List Nat) : BitVec 64 :=
  (l.foldl (fun c x => crcByte (crcByte c (x % 1024)) (x % 1024 / 256)) (BitVec.allOnes 64)) ^^^ BitVec.allOnes 64

/-- The samples a signature covers: in the order of R101, 8-bit samples shifted left by 2. -/
def picSamples (s444 ten : Bool) (p : Pic) : List Nat :=
  (p.flatMap (lineSamples s444)).map fun x => if ten then x else 4 * x

/-- The signature of an active picture (R101). -/
def picSig (s444 ten : Bool) (p : Pic) : Nat := (signature (picSamples s444 ten p)).toNat

/-- The last complete frame of source `n`. -/
def State.srcFrame? (s : State) (n : Nat) : Option SrcFrame := tabFind s.xpt.frames n

/-! ### Transmit lanes -/

/-- Links a MULTI value asks for (Table 2-3). -/
def multiLinks (v : Nat) : Nat := if v % 4 = 1 then 2 else if v % 4 = 2 then 4 else 1

/-- A self-test of unit `u` runs (R433). -/
def State.underTest (s : State) (u : Nat) : Bool := s.flt.recs.any fun r => r.st == 1 && r.unit == u

/-- The synthesizer of quadrant `q` that SYN auto picks for a clock family: the lowest-numbered one that is LOCKED in MDLL mode
and runs it (R166, R241, R242). -/
def State.synAuto (s : State) (q : Nat) (famF : Bool) : Option Nat :=
  lowest 4 fun j =>
    let a := R.SYN_TS_STAT (4 * q + j)
    s.get a F.SYN_TS_STAT_STATE == 3 && !s.flag a F.SYN_TS_STAT_DLL
      && s.get a F.SYN_TS_STAT_FAMILY == (if famF then 1 else 0)

/-- MULTI asks for a group led by this lane that has not formed, or the lane is a member (IDLE_WHY 6): it sends nothing while the group
it is to lead does not stand, a refused value that is kept included (DESIGN CHOICE, assumption 155). -/
def State.txUngrouped (s : State) (n : Nat) : Bool :=
  let k := multiLinks (s.get (R.SDI_TX_CTL n) F.SDI_TX_CTL_MULTI)
  s.txMember n || (k != 1 && n % k == 0 && (s.tx n).group == 0)

/-- RATE of the LV output on lane `n` names another rate family than its source's (R303). -/
def State.lvRateBad (s : State) (n : Nat) : Bool :=
  let r := s.outCtl (n - s.lv.txBase) / 4096 % 4
  s.lvTx n && r != 0 && match s.route n with
    | some q => match srcPort q.src with
      | .sdi l => s.get (R.SDI_RX_STAT l) F.SDI_RX_STAT_RATE / 2 + 1 != r
      | _ => false
    | none => false

/-- The IDLE_WHY code of lane `n`: the lowest condition that holds (R44), 0 when none does. A lane whose unit has no raster yet
shows 4 (assumption 8). -/
def State.idleWhy (s : State) (n : Nat) : Nat :=
  let c := R.SDI_TX_CTL n
  if !s.flag c F.SDI_TX_CTL_EN || s.flag c F.SDI_TX_CTL_PD then 1
  else if s.inReset 1 n || s.underTest (0x30000 + n) || s.lifecycle == 4 then 2
  else match s.route n with
    | none => 5
    | some r =>
      let gated := match srcPort r.src with
        | .sou u => (s.unit u).gated || (s.unit u).retune
        | .pg p => match s.fmt? (s.pg p).fmt with
          | some f => (s.synAuto (n / 18) f.famF).isNone
          | none => false
        | _ => false
      if gated then 3
      else if (s.srcGrid r.src).isNone then 4
      else if s.txUngrouped n then 6
      else if (s.tx n).outRange || s.lvRateBad n then 7
      else if (s.tx n).retune.isSome then 8
      else 0

/-- The rate code lane `n` sends for source `src` (R31). -/
def State.txCode (s : State) (n src : Nat) : Nat :=
  match srcPort src with
  | .sdi l => s.get (R.SDI_RX_STAT l) F.SDI_RX_STAT_RATE
  | _ => ((s.fmt? (s.srcFmt src)).bind fun f => f.idxCode (s.srcFmt src) (s.txLinks n)).getD 0

/-- Bring SDI_TX_STAT of lane `n` up to date: a lane for which an idle condition holds is idle at once; a lane that is idle stays
so until it leaves idle at a frame boundary (R44). -/
def State.txRefresh (s : State) (n : Nat) : State :=
  let a := R.SDI_TX_STAT n
  let why := s.idleWhy n
  if why = 0 then
    if s.flag a F.SDI_TX_STAT_ACTIVE then s.set a F.SDI_TX_STAT_RATE (s.txCode n (((s.route n).map (·.src)).getD 0)) else s
  else ((s.set a F.SDI_TX_STAT_ACTIVE 0).set a F.SDI_TX_STAT_RATE 0).set a F.SDI_TX_STAT_IDLE_WHY why

/-- Destination `d` sends nothing until it begins with a whole frame: its freeze count starts afresh (R180), and no frame of a take is
left for the path proof to pass over (R102). -/
def State.sendsAfresh (s : State) (d : Nat) : State :=
  let s := s.set (R.XPT_FRZ_STAT d) F.XPT_FRZ_STAT_RUN 0
  { s with xpt := { s.xpt with skip := tabSet false s.xpt.skip d false } }

/-- Destinations of a source without timing send nothing. -/
def State.freezeReset (s : State) (src : Nat) : State :=
  if (s.srcGrid src).isSome then s else (s.dstsOf src).foldl State.sendsAfresh s

/-- A video transmit flow on a DIRECT route from a source that has lost its timing stops sending (R53). -/
def State.flowStop (s : State) (src : Nat) : State :=
  if (s.srcGrid src).isSome then s
  else ((s.dstsOf src).filter fun d => decide (72 ≤ d) && decide (d < 328)).foldl (fun s d =>
    match tabFind s.media.txFlow (d - 72) with
    | some x => { s with media := { s.media with txFlow := tabPut s.media.txFlow (d - 72) { x with stopped := true } } }
    | none => s) s

/-- Bring every destination that source `src` feeds up to date. -/
def State.refreshSrc (s : State) (src : Nat) : State :=
  (((s.dstsOf src).filter (· < 72)).foldl State.txRefresh s).freezeReset src |>.flowStop src

/-! ### Loss (Table 2-5) -/

/-- Loss leaves black in the ring (LOS_ACT = 0, or the flow's loss action; R123). -/
def State.lossBlack (s : State) (src : Nat) : Bool :=
  match srcPort src with
  | .sdi n => !s.flag (R.SDI_RX_CTL n) F.SDI_RX_CTL_LOS_ACT
  | .ip f => match tabFind s.media.rxFlow f with
    | some fl => fl.rcd.lossBlack
    | none => false
  | _ => false

/-- A capture writer fed by a lost source discards its incomplete frame and holds the last frame or black (R123). -/
def State.cwLoss (s : State) (black : Bool) (k : Nat) : State :=
  let c := s.cw k
  match c.ring with
  | none => s
  | some r =>
    let s := s.setCw k { c with filling := none, st := if c.st = 4 then 4 else if black then 3 else 2 }
    match s.ring r with
    | some g => if black then s.setRing r { g with black := true } else s
    | none => s

/-- A port's clock tracking state. -/
def State.clk (s : State) (k : Nat) : Clk := tabGet {} s.aud.clk k
/-- `s` with a port's clock tracking state. -/
def State.setClk (s : State) (k : Nat) (c : Clk) : State := { s with aud := { s.aud with clk := tabSet {} s.aud.clk k c } }

/-- A tracked port enters LOST: its channels hold their last sample and ramp to zero over 32 samples (Table 6-6). -/
def State.clkLost (s : State) (k : Nat) : State :=
  if (s.clk k).st == .lost || (s.clk k).st == .master then s
  else s.setClk k { s.clk k with st := .lost, rampIn := none, rampOut := some 0 }

/-- What the loss of source `src` does to what it feeds: E2 and E3 of Table 2-5. -/
def State.sourceLost (s : State) (src : Nat) : State :=
  let b := s.lossBlack src
  let s := ((s.dstsOf src).filter (344 ≤ ·)).foldl (fun s d => s.cwLoss b (d - 344)) s
  let s := ((s.dstsOf src).filter (· < 72)).foldl (fun s d => s.clkLost (2048 + d)) s
  s.refreshSrc src

/-- The leader of the receive group that lane `n` belongs to, if any. -/
def State.rxLeader (s : State) (n : Nat) : Option Nat :=
  if (s.rx (n / 4 * 4)).group = 4 then some (n / 4 * 4)
  else if (s.rx (n / 2 * 2)).group = 2 then some (n / 2 * 2)
  else none

/-- Two instants lie at most 10 µs apart, modulo a frame period (R40). -/
def nearPhase (period a b : Nat) : Bool :=
  let p := max period 1
  decide ((a + p - b % p) % p ≤ 10 * ticksPerUs) || decide ((b + p - a % p) % p ≤ 10 * ticksPerUs)

/-- Every one of the `k` lanes from leader `n` on is locked, at the leader's rate (R39, R40). -/
def State.groupLocks (s : State) (n k : Nat) : Bool :=
  (List.range k).all fun i => s.flag (R.SDI_RX_STAT (n + i)) F.SDI_RX_STAT_TRS_LOCK &&
    s.get (R.SDI_RX_STAT (n + i)) F.SDI_RX_STAT_RATE == s.get (R.SDI_RX_STAT n) F.SDI_RX_STAT_RATE

/-- Any two of the `k` lanes whose phases are known lie within the skew limit (R40). -/
def State.groupNear (s : State) (n k : Nat) : Bool :=
  (List.range k).all fun i => (List.range k).all fun j => match (s.rx (n + i)).meas, (s.rx (n + j)).meas with
    | some a, some b => nearPhase a.period a.phase b.phase
    | _, _ => true

/-- Every lane of a group is locked and within the skew limit (GROUP_OK). -/
def State.groupLocked (s : State) (n k : Nat) : Bool := s.groupLocks n k && s.groupNear n k

/-- GROUP_OK on the leader of the group that lane `n` belongs to follows its members. -/
def State.groupShow (s : State) (n : Nat) : State :=
  match s.rxLeader n with
  | some m => s.setB (R.SDI_RX_STAT m) F.SDI_RX_STAT_GROUP_OK (s.groupLocked m (s.rx m).group)
  | none => s

/-- The status bits of a receive lane clear and its signal is gone. -/
def State.rxClear (s : State) (n : Nat) (loss : Bool) : State :=
  let a := R.SDI_RX_STAT n
  let l := s.rx n
  let last := if l.meas.isSome then some (s.get a F.SDI_RX_STAT_FORMAT) else l.lastFmt
  let s := (s.wr a (resetVal a)).setRx n { l with meas := none, relock := loss || l.relock, lastFmt := last }
  { s with aud := { s.aud with lanes := tabDel s.aud.lanes n } }

/-- A receive lane goes down; what it feeds loses its source. -/
def State.rxDown (s : State) (n : Nat) (loss : Bool) : State :=
  (((s.rxClear n loss).groupShow n).clkLost (32 + n)).sourceLost n

/-- A member of a receive group drops lock to acquire again (R37): the group's picture ends without a loss until its leader's next start
boundary, while the leader keeps its own lock (DESIGN CHOICE, assumption 181). -/
def State.groupRelock (s : State) (m : Nat) : State :=
  let a := R.SDI_RX_STAT m
  let o := s.rd a
  ((((s.rxDown m true).set a F.SDI_RX_STAT_CARRIER (getF F.SDI_RX_STAT_CARRIER o)).set a F.SDI_RX_STAT_CDR_LOCK
    (getF F.SDI_RX_STAT_CDR_LOCK o)).set a F.SDI_RX_STAT_TRS_LOCK (getF F.SDI_RX_STAT_TRS_LOCK o)).set a F.SDI_RX_STAT_RATE
    (getF F.SDI_RX_STAT_RATE o)

/-- Loss declared on lane `n` (E1): LOS, the counter, and the group it belongs to (R40, R41). -/
def State.rxLoss (s : State) (n : Nat) : State :=
  let lead := s.rxLeader n
  let s := ((s.rxDown n true).inc (R.SDI_RX_LOS_CNT n)).raise (Hist.srx n) F.SDI_RX_HIST_LOS
  match lead with
  | some m => if m = n then s else (s.rxDown m true).raise (Hist.srx m) F.SDI_RX_HIST_LOS
  | none => s

/-- A sub-port exists and runs: port enabled and powered, the sub-port's enable, sub-port 0 alone in 400 GbE mode. -/
def State.subOn (s : State) (q sub : Nat) : Bool :=
  let c := R.QE_CTL q
  s.flag c F.QE_CTL_EN && !s.flag c F.QE_CTL_PD && !s.inReset 2 q && s.lifecycle != 4
    && s.flag c (bit (4 + sub)) && (s.flag (R.QE_STAT q) F.QE_STAT_MODE || sub == 0)

/-- A transmit flow sends `n` packets, the first with RTP timestamp `stamp`, by its port and its protection partner's, the same on each
(R54). -/
def State.burst (s : State) (x : Flow) (n stamp : Nat) : Flow :=
  let ports := if x.rcd.prot then [x.rcd.port, x.rcd.port / 2 * 2 + (1 - x.rcd.port % 2)] else [x.rcd.port]
  { x with packets := min 0xFFFFFFFF (x.packets + n), seq := (x.seq + n) % 65536,
           sent := some ⟨x.seq, n, stamp, ports.filter fun q => s.subOn q x.rcd.sub, []⟩ }

/-- A sub-port's link goes down (Table 2-10). -/
def State.qeDown (s : State) (q sub : Nat) : State :=
  if s.flag (R.QE_STAT q) (bit sub) then
    ((s.set (R.QE_STAT q) (bit sub) 0).set (R.QE_STAT q) (bit (8 + sub)) 0).raiseBit (Hist.qe q) sub
  else s

end Sys2Proof.Machine
end

