-- ==== Sys2Proof/Machine/AudOps.lean ====
section
/-! DEFINITION. Shared operations of the audio matrix: endpoints and slots (R183, R184, R186), gains, delay blocks (R203), association
lists and following video (R100, R201, R202), crossfades (R192, R198) and path delay lines of chains. -/
namespace Sys2Proof.Machine

/-- Ticks of one 48 kHz sample period (R185). -/
def audT : Nat := 49500000

/-! ### Endpoints (R183) -/

/-- The endpoint of a class, index and channel. -/
def audEp (c i ch : Nat) : Nat := c * 65536 + i * 64 + ch
/-- Class, index and channel of an endpoint. -/
def epClass (e : Nat) : Nat := e / 65536
def epIndex (e : Nat) : Nat := e / 64 % 1024
def epChan (e : Nat) : Nat := e % 64

/-- What the audio packets of receive lane `n` show (R186). -/
def State.laneAudio (s : State) (n : Nat) : LaneAudio := tabGet {} s.aud.lanes n

/-- SDI audio channels a lane or group carries in format `f` (Table 6-2). -/
def sdiChans (f : Nat) (r96 : Bool) : Nat := if f < 2 ∨ r96 then 16 else 32

/-- Channels of an audio group on receive lane `n`: four, at 96 kHz two (Table 6-2). -/
def State.groupChans (s : State) (n : Nat) : Nat := if (s.laneAudio n).rate96 then 2 else 4

/-- The embedder of lane `n` runs at 96 kHz: its DIRECT source's audio does (DESIGN CHOICE, assumption 36). -/
def State.embed96 (s : State) (n : Nat) : Bool :=
  match s.route n with
  | some r => match srcPort r.src with
    | .sdi l => r.kind == 1 && (s.laneAudio l).rate96
    | _ => false
  | none => false

/-- The format transmit lane `n` carries. -/
def State.txFmt (s : State) (n : Nat) : Nat := ((s.route n).map fun r => s.srcFmt r.src).getD 0xFF

/-- Channels of the source port an endpoint names; 0 when it is not enabled or set up. -/
def State.srcChans (s : State) (e : Nat) : Nat :=
  let i := epIndex e
  match epClass e with
  | 0 => if i = 0 then 1 else 0
  | 1 => if i < 72 ∧ s.flag (R.SDI_RX_CTL i) F.SDI_RX_CTL_EN ∧ !s.rxMember i then sdiChans (s.srcFmt i) (s.laneAudio i).rate96 else 0
  | 2 => ((tabFind s.media.rxFlow (1024 + i)).map (·.rcd.channels)).getD 0
  | 3 => if i < 16 ∧ s.flag (R.SAP_CTL i) F.SAP_CTL_EN then s.get (R.SAP_CTL i) F.SAP_CTL_SLOTS_M1 + 1 else 0
  | 4 => if i < 16 ∧ s.flag (R.AESI_CTL i) F.AESI_CTL_EN then 2 else 0
  | 5 => if (tabFind s.media.hostIn i).isSome then 64 else 0
  | 6 => if i < 512 then 64 else 0
  | _ => 0

/-- Channels of the destination port an endpoint names; 0 when it is not enabled or set up. -/
def State.dstChans (s : State) (e : Nat) : Nat :=
  let i := epIndex e
  match epClass e with
  | 1 => if i < 72 ∧ s.flag (R.SDI_TX_CTL i) F.SDI_TX_CTL_EN ∧ !s.txMember i then sdiChans (s.txFmt i) (s.embed96 i) else 0
  | 2 => ((tabFind s.media.txFlow (1024 + i)).map (·.rcd.channels)).getD 0
  | 3 => if i < 16 ∧ s.flag (R.SAP_CTL i) F.SAP_CTL_EN then s.get (R.SAP_CTL i) F.SAP_CTL_SLOTS_M1 + 1 else 0
  | 4 => if i < 16 ∧ s.flag (R.AESO_CTL i) F.AESO_CTL_EN then 2 else 0
  | 5 => if (tabFind s.media.hostOut i).isSome then 64 else 0
  | _ => 0

/-- A run of `n` channels from an endpoint lies within its port. -/
def State.srcRunOk (s : State) (e n : Nat) : Bool := decide (e < 0x100000) && decide (epChan e + n ≤ s.srcChans e)
def State.dstRunOk (s : State) (e n : Nat) : Bool := decide (e < 0x100000) && decide (epChan e + n ≤ s.dstChans e)

/-- A source channel runs at 96 kHz. -/
def State.src96 (s : State) (e : Nat) : Bool := s.rate96In e

/-- A destination channel runs at 96 kHz. -/
def State.dst96 (s : State) (e : Nat) : Bool :=
  match epClass e with
  | 1 => s.embed96 (epIndex e)
  | 3 => s.flag (R.SAP_CTL (epIndex e)) F.SAP_CTL_RATE96
  | 4 => s.flag (R.AESO_STAT (epIndex e)) F.AESO_STAT_RATE96
  | _ => false

/-! ### Slots (R184) -/

/-- Maps in flight. -/
def State.maps (s : State) : List (Nat × MapOp) :=
  s.host.ops.filterMap fun o => match o.body with
    | .map m => some (o.id, m)
    | _ => none

/-- Fades in flight. -/
def State.fades (s : State) : List (Nat × FadeOp) :=
  s.host.ops.filterMap fun o => match o.body with
    | .fade f => some (o.id, f)
    | _ => none

/-- Source channels that hold an input slot: read by a slot, by a fading slot or by a path delay line, or claimed by a map in
flight. -/
def State.inSources (s : State) : List Nat :=
  (((s.aud.slots.flatMap fun p => p.2.src.ep :: (match p.2.fade with
      | some f => [f.out.ep]
      | none => []))
    ++ (s.aud.paths.flatMap fun p => p.2.eps) ++ s.maps.flatMap fun p => p.2.srcs).filter (· != 0)).eraseDups

/-- Input slots in use. -/
def State.inSlots (s : State) : Nat := (s.inSources.map fun e => if s.src96 e then 2 else 1).sum

/-- Output slots in use. -/
def State.outSlots (s : State) : Nat := (s.aud.slots.map fun p => if p.2.rate96 then 2 else 1).sum

/-- Output slot `o` is free. -/
def State.slotFree (s : State) (o : Nat) : Bool :=
  (tabFind s.aud.slots o).isNone && !(o != 0 && ((tabFind s.aud.slots (o - 1)).map (·.rate96)).getD false)

/-- The lowest free output slot, or pair of slots for a 96 kHz channel. -/
def State.pickSlot (s : State) (r96 : Bool) : Option Nat :=
  if r96 then lowest 4095 fun o => s.slotFree o && s.slotFree (o + 1) else lowest 4096 s.slotFree

/-- The slot a destination channel is mapped in. -/
def State.slotOf (s : State) (dst : Nat) : Option (Nat × Slot) := s.aud.slots.find? fun p => p.2.dst == dst

/-- `s` with output slot `o` holding `x`. -/
def State.setSlot (s : State) (o : Nat) (x : Slot) : State := { s with aud := { s.aud with slots := tabPut s.aud.slots o x } }
/-- `s` with output slot `o` freed. -/
def State.dropSlot (s : State) (o : Nat) : State := { s with aud := { s.aud with slots := tabDel s.aud.slots o } }

/-! ### Audio packets (R186, R187) -/

/-- The audio group (from 0) of an audio data packet by its DID, as ST 299 and ST 272 give them (PRESUMED, assumption 149). -/
def dataGroup (did : Nat) : Option Nat :=
  let d := did % 256
  if 0xE4 ≤ d ∧ d ≤ 0xE7 then some (0xE7 - d)
  else if 0xA4 ≤ d ∧ d ≤ 0xA7 then some (4 + (0xA7 - d))
  else if 0xF8 ≤ d then some ((0xFF - d) / 2)
  else none

/-- The audio group of an audio data or audio control packet (assumption 149). -/
def audioGroup (did : Nat) : Option Nat :=
  let d := did % 256
  if 0xE0 ≤ d ∧ d ≤ 0xE3 then some (0xE3 - d)
  else if 0xA0 ≤ d ∧ d ≤ 0xA3 then some (4 + (0xA3 - d))
  else if 0xEC ≤ d ∧ d ≤ 0xEF then some (0xEF - d)
  else dataGroup d

/-- An audio control packet of ST 299 that gives 96 kHz: code 4 in bits 3 to 1 of its second word (PRESUMED from ST 299, assumption
149). -/
def AncPkt.says96 (p : AncPkt) : Bool :=
  let d := p.did % 256
  (decide (0xE0 ≤ d ∧ d ≤ 0xE3) || decide (0xA0 ≤ d ∧ d ≤ 0xA3)) && (p.words[1]?).getD 0 / 2 % 8 == 4

/-- What a frame's packets show of its audio: the rate of the audio control packets, extended data packets of ST 272. -/
def audioOf (fmt : Nat) (anc : List AncPkt) : LaneAudio where
  rate96 := decide (2 ≤ fmt) && anc.any AncPkt.says96
  wide := anc.any fun p => decide (0xF8 ≤ p.did % 256) && p.did % 2 == 0

/-- The source of a mapped destination channel: a channel that a map in flight has only claimed is not mapped yet. -/
def State.mappedSrc (s : State) (e : Nat) : Option Nat := (s.slotOf e).bind fun p => if p.2.live then some p.2.src.ep else none

/-- The groups lane `n`'s embedder writes: those with a mapped channel, each with the source of its channels, silence where none is mapped:
four to a group, at 96 kHz two (R187, Table 6-2). -/
def State.embedGroups (s : State) (n : Nat) : List (Nat × List (Option Nat)) :=
  let k := if s.embed96 n then 2 else 4
  ((List.range 8).map fun g => (g, (List.range k).map fun c => s.mappedSrc (audEp 1 n (k * g + c)))).filter fun p => p.2.any (·.isSome)

/-! ### Delay blocks (R203) -/

/-- Blocks of a line of `d` samples at 48 kHz. -/
def blocksOf (d : Nat) (r96 : Bool) : Nat := ((if r96 then 2 * d else d) + 4095) / 4096

/-- Delay blocks in use. -/
def State.audBlocks (s : State) : Nat :=
  (s.aud.slots.map fun p => p.2.blocks).sum
    + (s.aud.paths.map fun p => (p.2.eps.map fun e => if s.src96 e then blocksOf p.2.delay true else p.2.blocks).sum).sum

/-- Claim `n` more granules for delay lines. -/
def State.growAudio (s : State) : Nat → Option State
  | 0 => some s
  | n + 1 =>
    match (s.startPc s.usedGrans).bind fun p => s.freeIn s.usedGrans p with
    | none => none
    | some g =>
      if s.freeGrans = 0 then none
      else ({ s with fst := { s.fst with audioGr := s.fst.audioGr ++ [g] } } : State).growAudio n

/-- Gecko holds as many granules as its blocks fill, 128 to a granule (assumption 18); none when no granule is free. -/
def State.fixAudio (s : State) : Option State :=
  let need := (s.audBlocks + 127) / 128
  let have_ := s.fst.audioGr.length
  if need ≤ have_ then some { s with fst := { s.fst with audioGr := s.fst.audioGr.take need } } else s.growAudio (need - have_)

/-- Return granules whose last block is freed. -/
def State.trimAudio (s : State) : State := s.fixAudio.getD s

/-! ### Association lists and following (R201, R202) -/

/-- The channels one AUD_ASSOC entry names; a channel above 63 lies outside Table 6-1 and is silence. -/
def State.assocEntry (s : State) (src e : Nat) : List Nat :=
  let a := R.AUD_ASSOC src e
  (List.range (min 64 (s.get a F.AUD_ASSOC_COUNT))).map fun k =>
    let c := s.get a F.AUD_ASSOC_FIRST + k
    if 63 < c then 0 else audEp (s.get a F.AUD_ASSOC_CLASS) (s.get a F.AUD_ASSOC_INDEX) c

/-- The video source whose association list source `src` uses: a chain output takes that of the chain's input source. -/
def State.assocSrc (s : State) (src : Nat) : Nat :=
  match srcPort src with
  | .sou u => ((s.chainOf u).map (·.src)).getD src
  | _ => src

/-- The association list of a video source. -/
def State.assocList (s : State) (src : Nat) : List Nat :=
  (([0, 1, 2, 3] : List Nat).flatMap fun e => s.assocEntry (s.assocSrc src) e).take 64

/-- What follow channel `k` of video source `src` is read from. -/
def State.followRef (s : State) (src k : Nat) (direct : Bool) : SrcRef :=
  let e := ((s.assocList src)[k]?).getD 0
  let e := if epClass e = 6 ∨ s.srcChans e ≤ epChan e then 0 else e
  match srcPort src with
  | .sou u => match tabFind s.aud.paths u with
    | some p => ⟨e, if !direct && p.eps.contains e then some u else none⟩
    | none => ⟨e, none⟩
  | _ => ⟨e, none⟩

/-- Slots bound to follow destination `d` (R100, R202) crossfade to the same channel of the new source at the first matrix sample whose
period begins at or after `t`, from source `old`. -/
def State.afvSwitch (s : State) (d : Nat) (old : Option Nat) (src t : Nat) : State :=
  if !s.flag (R.XPT_DST_CFG d) F.XPT_DST_CFG_AFV then s
  else
    let cfg := R.XPT_DST_CFG d
    let len := min (s.get cfg F.XPT_DST_CFG_FADE) 24000
    let law := s.flag cfg F.XPT_DST_CFG_FADE_LAW
    { s with aud := { s.aud with
      turn := tabPut s.aud.turn d ⟨old, src, t, len, law⟩
      slots := s.aud.slots.map fun p =>
        match p.2.follow with
        | some (fd, _) =>
          if fd = d then (p.1, { p.2 with nextSrc := some src, nextAt := some t, nextLen := len, nextLaw := law }) else p
        | none => p } }

/-! ### Weights and gains (R100, R192, R200)

Each is the exact real number the manual gives, in units of 2^−24; only which of its two neighbours it becomes is open (assumption 3). -/

/-- A value between `a` and `a + 1` units, in one of the two. -/
def coefAt (a : Nat) (key : List Nat) : Nat := a + (if Config.coefUp key then 1 else 0)

/-- 2^64 · sin of the angle `x` / 2^64, by its series: `t` is the term 2i + 1, alternately added and taken away. -/
def sinSeries (x : Nat) : Nat → Nat → Nat → Bool → Nat → Nat
  | 0, _, _, _, acc => acc
  | k + 1, i, t, plus, acc =>
    sinSeries x k (i + 1) (t * x / 2 ^ 64 * x / 2 ^ 64 / ((2 * i + 2) * (2 * i + 3))) (!plus) (if plus then acc + t else acc - t)

/-- sin(π/2 · k/n) in units of 2^−24: 0, 1/2 and 1 exactly, no other ratio of whole numbers gives a whole number of units. -/
def sinCoef (k n : Nat) : Nat :=
  if k = 0 then 0
  else if n ≤ k then 2 ^ 24
  else if 3 * k = n then 2 ^ 23
  else
    let x := 28976077832308491370 * k / n
    coefAt (sinSeries x 14 0 x true 0 / 2 ^ 40) [0, k, n]

/-- k/n in units of 2^−24. -/
def linCoef (k n : Nat) : Nat := if 2 ^ 24 * k % n = 0 then 2 ^ 24 * k / n else coefAt (2 ^ 24 * k / n) [3, k, n]

/-- An amplitude of `a` units is at least that of a gain of `g` × 0.01 dB: a ≥ 2^24 · 10^(g/2000). -/
def ampGe (a : Nat) (g : Int) : Bool := decide (2 ^ 48000 * 10 ^ g.toNat ≤ a ^ 2000 * 10 ^ (-g).toNat)

/-- An amplitude of `a` units is exactly that of a gain of `g` × 0.01 dB. -/
def ampIs (a : Nat) (g : Int) : Bool := decide (2 ^ 48000 * 10 ^ g.toNat = a ^ 2000 * 10 ^ (-g).toNat)

/-- The most significant bit first: the largest number below 2^`n` that satisfies `p`, which holds of all smaller ones. -/
def largest (p : Nat → Bool) : Nat → Nat → Nat
  | 0, a => a
  | n + 1, a => largest p n (if p (a + 2 ^ n) then a + 2 ^ n else a)

/-- The amplitude of a gain in units of 2^−24. -/
def gainAmp (g : Int) : Nat :=
  if g = -32768 then 0
  else if g = 0 then 2 ^ 24
  else
    let a := largest (fun a => !ampGe a g) 30 0
    if ampIs (a + 1) g then a + 1 else coefAt a [1, g.natAbs, if g < 0 then 1 else 0]

/-- 2^96 · 10^(y / 2^96) for `y` below 2^96, by the series of e^x: `t` is the term of order `i`. -/
def pow10Series (x : Nat) : Nat → Nat → Nat → Nat → Nat
  | 0, _, _, acc => acc
  | k + 1, i, t, acc => pow10Series x k (i + 1) (t * x / 2 ^ 96 / (i + 1)) (acc + t)

/-- The amplitude, in units of 2^−24, of a gain of `num / den` × 0.01 dB: 2^24 · 10^(num / (2000 · den)). -/
def gainAmpAt (num : Int) (den : Nat) : Nat :=
  if num % (den : Int) = 0 then gainAmp (num / den)
  else
    let q : Int := 2000 * den
    let e := pow10Series ((num % q).toNat * 182429585950654714090129938606 / q.toNat) 60 0 (2 ^ 96) 0
    let i := num / q
    coefAt (e * 10 ^ i.toNat / (2 ^ 72 * 10 ^ (-i).toNat)) [4, num.natAbs, if num < 0 then 1 else 0, den]

/-- The gain in 0.01 dB of an amplitude, −100 dB at least; none below it (AUD_SLOT_GAIN's present gain). -/
def ampGain (a : Nat) : Int :=
  let k := largest (fun k => ampGe a ((k : Int) - 10000)) 14 0
  if !ampGe a (-10000) then -32768
  else if ampIs a ((k : Int) - 10000) then (k : Int) - 10000
  else (coefAt k [2, a] : Nat) - 10000

/-! ### Crossfades (R100, R192, R198) -/

/-- The weights, in units of 2^−24, of the outgoing and incoming sources `k` samples into a fade of `n`: equal-power or linear. -/
def fadeWeights (law : Bool) (k n : Nat) : Nat × Nat :=
  if n ≤ k then (0, 2 ^ 24)
  else if law then (linCoef (n - k) n, linCoef k n)
  else (sinCoef (n - k) n, sinCoef k n)

/-- The weights at half `sub` of a sample period: a 96 kHz channel fades in twice as many steps (R100). -/
def Fade.weights (f : Fade) (sub : Nat) : Nat × Nat := fadeWeights f.law (2 * f.pos + sub - f.lag) (2 * f.len)

/-- A slot's fade is cut (R198). -/
def State.fadeCut (s : State) : State := (s.inc R.AUD_FADE_CUT_CNT).raise Hist.aud F.AUD_HIST_FADE_CUT

/-- A destination channel is transparent (R199). -/
def State.transparent (s : State) (x : Slot) : Bool :=
  let e := x.src.ep
  x.transp
    || (epClass e == 2 && ((tabFind s.media.rxFlow (1024 + epIndex e)).map (·.rcd.st31)).getD false)
    || (epClass e == 4 && s.flag (R.AESI_STAT (epIndex e)) F.AESI_STAT_NONAUDIO)

/-- Slot `o` changes to source `r` over `len` samples; a running fade is cut, and its incoming source goes out from its present
weight. -/
def State.fadeTo (s : State) (o : Nat) (r : SrcRef) (len : Nat) (law : Bool) : State :=
  match tabFind s.aud.slots o with
  | none => s
  | some x =>
    if x.src = r then s
    else
      let s := if x.fade.isSome then s.fadeCut else s
      let y : Slot := { x with src := r }
      if len = 0 || s.transparent x || s.transparent y then s.setSlot o { y with fade := none }
      else
        let w := match x.fade with
          | some f => (f.weights 0).2
          | none => 2 ^ 24
        s.setSlot o { y with fade := some { out := x.src, pos := 0, len := len, law := law, start := w } }

/-- A needed input slot is not free: the channel takes silence (R202). -/
def State.afvShort (s : State) : State := (s.inc R.AUD_AFV_SHORT_CNT).raise Hist.aud F.AUD_HIST_AFV_SHORT

/-- A slot bound to a video destination takes follow channel `k` of `src`. -/
def State.followTo (s : State) (o k src len : Nat) (law direct : Bool) : State :=
  let s' := s.fadeTo o (s.followRef src k direct) len law
  if s'.inSlots ≤ 4096 || s'.inSlots ≤ s.inSlots then s' else (s.fadeTo o ⟨0, none⟩ len law).afvShort

/-! ### Path delay lines (R203) -/

/-- One more channel gets a path delay line when an input slot, a block and the ledgers allow it; with no delay yet it holds no block. Its
port's tracking FIFO is behind it from the first (R202). -/
def State.addPath (s : State) (u e : Nat) : State :=
  match tabFind s.aud.paths u with
  | none => s
  | some p =>
    let n : PathLine := { p with eps := p.eps ++ [e], hold := tabPut p.hold e (tabGet [] s.aud.hist e) }
    let s' := { s with aud := { s.aud with paths := tabPut s.aud.paths u n } }
    let block := s'.audBlocks < 128 * s'.fst.audioGr.length ∨ 0 < s'.freeGrans
    let short := ({ s with aud := { s.aud with paths := tabPut s.aud.paths u { p with short := true } } } : State).raise Hist.aud
      F.AUD_HIST_AFV_SHORT
    if e = 0 ∨ p.eps.contains e then s
    else if s'.inSlots ≤ 4096 ∧ s'.fstBits ≤ s'.fstLimit ∧ s'.hsfFits ∧ block then s' else short

/-- A chain's path delay lines open with its admission: one for every channel of its association list. -/
def State.openPath (s : State) (u src : Nat) : State :=
  let p : PathLine := { eps := [], short := false }
  let s := { s with aud := { s.aud with paths := tabPut s.aud.paths u p } }
  (s.assocList src).foldl (fun s e => s.addPath u e) s

/-- A chain's path delay lines close; slots that read through them read directly. -/
def State.closePath (s : State) (u : Nat) : State :=
  let direct := fun (r : SrcRef) => if r.path = some u then { r with path := none } else r
  let slots := s.aud.slots.map fun p => (p.1, { p.2 with
    src := direct p.2.src, fade := p.2.fade.map fun f => { f with out := direct f.out } })
  ({ s with aud := { s.aud with paths := tabDel s.aud.paths u, slots := slots } } : State).trimAudio

end Sys2Proof.Machine
end

