-- ==== Sys2Proof/Machine/TakeOps.lean ====
section
/-! DEFINITION. Shared operations of the crosspoint: parameter tests of a route, clean takes, chains and their release, and the
execution of a take (R59 to R103). -/
namespace Sys2Proof.Machine

/-! ### Parameter tests -/

/-- A source that exists (R39, R59, R167). -/
def State.srcExists (s : State) (n : Nat) : Bool :=
  match srcPort n with
  | .sdi l => !s.rxMember l
  | .ip f => (tabFind s.media.rxFlow f).isSome
  | .host h => (tabFind s.media.hostIn h).isSome
  | .pg _ => true
  | .sou u => (s.unit u).alloc
  | _ => false

/-- A destination that exists (R39, R59). -/
def State.dstExists (s : State) (n : Nat) : Bool :=
  match dstPort n with
  | .sdi l => !s.txMember l
  | .ip f => (tabFind s.media.txFlow f).isSome
  | .host h => (tabFind s.media.hostOut h).isSome
  | .cw k => (s.cw k).ring.isSome
  | _ => false

/-- A destination carries pictures of a format, sampling, depth and colour space (R63). `links` is the link count of an SDI
source, none for a source that has no links of its own; an unknown format passes only the SDI and host tests (R33). -/
def State.carries (s : State) (d fmt : Nat) (s444 ten rgb : Bool) (links : Option Nat) : Bool :=
  match dstPort d with
  | .sdi n => match links with
    | some k => k == s.txLinks n
    | none => match s.fmt? fmt with
      | some f => (f.idxCode fmt (s.txLinks n)).isSome
      | none => true
  | .ip f => match tabFind s.media.txFlow f with
    | some fl => fmt != 0xFF && fl.rcd.fmt == fmt && fl.rcd.tenBit == ten
        && fl.rcd.sampling == (if s444 then (if rgb then 2 else 1) else 0)
    | none => false
  | .host _ => true
  | .cw k => match (s.cw k).ring.bind s.ring with
    | some g => fmt != 0xFF && g.fmt == fmt && pix444 g.pix == s444
    | none => false
  | _ => false

/-- A source is R'G'B'. -/
def State.srcRgb (s : State) (n : Nat) : Bool :=
  match srcPort n with
  | .ip f => match tabFind s.media.rxFlow f with
    | some fl => fl.rcd.sampling == 2
    | none => false
  | .host h => match tabFind s.media.hostIn h with
    | some x => x.sampling == 2
    | none => false
  | .sou u => (s.unit u).active.cdesc / 64 % 2 == 1
  | _ => false

/-- Destination `d` can carry source `src` (R63); a unit that has not committed is admitted (R167). -/
def State.canCarry (s : State) (d src : Nat) : Bool :=
  match srcPort src with
  | .sdi l => s.carries d (s.srcFmt src) false true false (some (s.rxLinks l))
  | .sou u => (s.unit u).active.fmt == 0xFF || s.carries d (s.srcFmt src) (s.src444 src) (s.src10 src) (s.srcRgb src) none
  | _ => s.carries d (s.srcFmt src) (s.src444 src) (s.src10 src) (s.srcRgb src) none

/-- A take for `rfn` pends on destination `d` (R90), one that waits for its untimed changeover included (R76). -/
def State.leapPending (s : State) (d rfn : Nat) : Bool :=
  s.takes.any fun p => p.2.dst == d && p.2.rfn == rfn

/-- RFN out of range: more than 16,777,216 frames ahead (R86). -/
def State.rfnFar (s : State) (rfn : Nat) : Bool := decide (rfn > s.rfnAt s.now + 16777216)

/-- The lowest failing byte offset of a route's parameters (R59, R63, R86, R90). In the STANDBY a forwarded immediate take runs as a leap
(R98) and meets R90 as one: where its RFN already pends on the destination it is refused (DESIGN CHOICE, assumption 185). -/
def State.routeBad (s : State) (d src rfn : Nat) : Option Nat :=
  if rfn ≠ 0 ∧ (s.rfnFar rfn ∨ s.leapPending d rfn) then some 8
  else if !s.dstExists d then some 16
  else if !s.srcExists src then some 18
  else if !s.canCarry d src then some 16
  else none

/-- A destination is owned by the LV agent (R306). -/
def State.lvOwned (s : State) (d : Nat) : Bool := decide (d < 72) && s.lvTx d

/-- A destination is the capture writer of a chain (R66). -/
def State.chainCw (s : State) (d : Nat) : Bool := s.fst.chains.any fun p => 344 + p.2.cw == d

/-! ### Clean takes (R80) -/

/-- Two grids have the same format and their lines lie within ±0.5 line of each other. -/
def Grid.near (g g' : Grid) : Bool :=
  let d := (g.phase + g.period - g'.phase % g.period) % g.period
  g.fmt == g'.fmt && (decide (2 * g.lines * d ≤ g.period) || decide (2 * g.lines * (g.period - d) ≤ g.period))

/-- A take of `src`, which sets up a route of kind `kind`, to `d` would be clean. -/
def State.cleanAs (s : State) (d src kind : Nat) (g' : Option Grid) : Bool :=
  match s.route d, s.dstGrid d with
  | none, _ => true
  | some _, none => true
  | some r, some g =>
    r.src == src
      || (g.ref && (kind == 2 || kind == 3 || kind == 4))
      || (match g' with
        | some g' => g.ref && g'.timed && g.near g'
        | none => false)

/-- A take of `src` to `d` would be clean. -/
def State.clean (s : State) (d src : Nat) : Bool := s.cleanAs d src (s.kindOf src) (s.srcGrid src)

/-- A destination refuses untimed takes (R82). -/
def State.refuses (s : State) (d : Nat) : Bool := s.flag (R.XPT_DST_CFG d) F.XPT_DST_CFG_REFUSE_UNTIMED

/-! ### Chains (R66 to R68) -/

/-- A context leaves the machine (R148): its readers let go, its output ring and working store are freed under R115. -/
def State.freeCtx (s : State) (c : Nat) : State :=
  match s.ctx c with
  | none => s
  | some x =>
    let s := (s.dropReaderAll (.ctxIn c)).dropReaderAll (.ctxStore c)
    let g := s.eng (c / 16)
    let s := s.setEng (c / 16) { g with run := match g.run with
      | some (c', k) => if c' = c then none else some (c', k)
      | none => none }
    let s := { s with che := { s.che with ctx := tabDel s.che.ctx c } }
    let s := x.work.foldl State.freeBuf s
    (s.freeRing x.outRing).2

/-- A context is to be released: at once, or after the slice it runs (Table 4-7). -/
def State.releaseCtx (s : State) (c : Nat) : State :=
  match s.ctx c with
  | none => s
  | some x =>
    if ((s.eng (c / 16)).run.map (·.1)) == some c then s.setCtx c { x with release := true } else s.freeCtx c

/-- A unit returns to the free units: its layers let their buffers go and its settings return to their reset values. -/
def State.freeUnit (s : State) (u : Nat) : State :=
  let s := [1, 2, 3].foldl (fun s l => s.dropReaderAll (.layer u l)) s
  { s with sou := { s.sou with unit := tabDel s.sou.unit u } }

/-- A chain is released: its writer, context, rings, unit and path delay lines (R68). -/
def State.releaseChain (s : State) (u : Nat) : State :=
  match s.chainOf u with
  | none => s
  | some c =>
    let s := { s with fst := { s.fst with chains := tabDel s.fst.chains u } }
    let s := (s.setRoute (344 + c.cw) none).setCw c.cw {}
    let s := s.freeUnit u
    let s := match c.ctx with
      | some x => match s.ctx x with
        | some k => (s.setCtx x { k with chain := false }).releaseCtx x
        | none => s
      | none => s
    let s := (s.freeRing c.capRing).2
    s.closePath u

/-- A chain with PERSIST = 0 whose last destination has left, or whose take never executes, is released (R68). -/
def State.reapChain (s : State) (u : Nat) : State :=
  match s.chainOf u with
  | some c => if !c.persist && (c.fed || c.dueFree) && !s.feeds (352 + u) then s.releaseChain u else s
  | none => s

/-- The take of chain `u` never executes (R68). -/
def State.chainLost (s : State) (u : Option Nat) : State :=
  match u with
  | none => s
  | some u => match s.chainOf u with
    | some c => (s.setChain u { c with dueFree := true }).reapChain u
    | none => s

/-! ### Changing a destination's source -/

/-- The rate family and code of a lane before and after differ, so its follow loop retunes (R81; assumption 9). -/
def State.mustRetune (s : State) (d src : Nat) : Bool :=
  match s.route d with
  | some r => decide (d < 72) && s.kindOf src == 1 && s.txCode d r.src != s.txCode d src && s.txCode d r.src != 0
  | none => false

/-- Destination `d` takes source `src` with route kind `kind` at `t`: XPT_DST_ROUTE, the capture writer's state, the freeze
count (R180), the frame the path proof skips (R102), followed audio (R100) and a chain left behind (R68). -/
def State.changeover (s : State) (d src kind t : Nat) : State :=
  let old := s.route d
  let same := (old.map (·.src)) == some src
  let sends := (s.dstGrid d).isSome && (s.srcGrid src).isSome
  let s := s.setRoute d (some ⟨kind, src⟩)
  let s := match srcPort src with
    | .sou u => match s.chainOf u with
      | some c => s.setChain u { c with fed := true }
      | none => s
    | _ => s
  let s := match dstPort d with
    | .cw k => if same && (s.cw k).st != 4 then s else s.setCw k { s.cw k with filling := none, st := 0 }
    | .sdi n =>
      let x := s.tx n
      (if same then s else s.setTx n { x with outRange := false }).txRefresh n
    | _ => s
  let fz := R.XPT_FRZ_STAT d
  let s := s.set fz F.XPT_FRZ_STAT_RUN 0
  let s := if same then s else s.set fz F.XPT_FRZ_STAT_FROZEN 0
  let s := { s with xpt := { s.xpt with skip := tabSet false s.xpt.skip d sends } }
  let s := s.afvSwitch d (old.map (·.src)) src t
  match old with
  | some r => match srcPort r.src with
    | .sou u => s.reapChain u
    | _ => s
  | none => s

/-- The leap table is empty: no leap or salvo is in flight, and none's completion waits to be posted (R84, R87). -/
def State.leapTableEmpty (s : State) : Bool := !s.host.ops.any (·.body.isLeap) && !s.host.cpls.any (·.leap)

/-- A written LEAP_RATE comes into force once the leap table is empty (R84). -/
def State.leapRateCheck (s : State) : State :=
  if !s.leapTableEmpty then s
  else
    let w := s.get R.XPT_CTL F.XPT_CTL_LEAP_RATE
    s.set R.XPT_STAT F.XPT_STAT_LEAP_RATE (if w > 10 then 6 else w)

/-- How a take ended. -/
structure TakeEnd where
  status  : Nat
  untimed : Bool
  rfn     : Nat
deriving DecidableEq, Repr

/-- The origin and ring a route-log entry of operation `id` carries (Table 17-6). -/
def State.opOrigin (s : State) (id : Nat) : Nat × Nat :=
  match s.op? id with
  | none => (0, 0xFF)
  | some o => match o.dest with
    | .ring n => (if s.host.dom.contains (n, o.tag) then 2 else 0, n)
    | .fwd _ => (4, 0xFF)
    | .gone org ring => (org, ring)
    | .none => (4, 0xFF)
    | .discard => (0, 0xFF)

/-- A salvo completes once its last entry is done (R95). -/
def State.salvoDone (s : State) (sid : Nat) : State :=
  match s.opBody? sid with
  | some (.salvo v) =>
    if v.left = 0 then
      s.finish sid { status := if v.refused > 0 then 0x09 else if v.late > 0 then 0x01 else 0x00
                     untimed := decide (v.untimed > 0)
                     rfn := some (s.rfnAt v.lastT)
                     result := some (v.late + v.untimed * 2 ^ 16 + v.refused * 2 ^ 32) }
    else s
  | _ => s

/-- Take `t` of operation `id` ends at instant `at_`: its route-log entry (R99), then its completion, or its share of its salvo's
(R95). -/
def State.endTake (s : State) (id : Nat) (t : Take) (e : TakeEnd) (at_ : Nat) : State :=
  let (org, ring) := s.opOrigin (t.salvo.getD id)
  let s := s.log (if t.salvo.isSome then 2 else 1) org e.status (s.kindOf t.src) t.dst t.src e.rfn ring
  let s := match t.salvo with
    | none => s.finish id { status := e.status, untimed := e.untimed, rfn := if e.status = 0x06 then none else some e.rfn }
    | some sid =>
      let s := s.dropOp id
      match s.opBody? sid with
      | some (.salvo v) =>
        (s.setOp sid (.salvo { v with
          left := v.left - 1
          late := v.late + (if t.late && e.status != 0x09 && e.status != 0x06 then 1 else 0)
          untimed := v.untimed + (if e.untimed then 1 else 0)
          refused := v.refused + (if e.status = 0x09 then 1 else 0)
          lastT := if e.status = 0x06 then v.lastT else max v.lastT at_ })).salvoDone sid
      | _ => s
  s.leapRateCheck

/-- The status of a take that executed. -/
def Take.okStatus (t : Take) : Nat := if t.late then 0x01 else 0x00

/-- An untimed take that waits on `d` is superseded by a take that executes there (R76). -/
def State.supersede (s : State) (d except : Nat) (at_ : Nat) : State :=
  (s.takes.filter fun p => p.2.dst == d && p.2.waiting && p.1 != except).foldl (fun s p =>
    (s.endTake p.1 p.2 ⟨0x06, false, s.rfnAt at_⟩ at_).chainLost p.2.unit) s

/-- Take `t` executes on a destination with no running timing: the source changes at once (R77, R86). -/
def State.runIdle (s : State) (id : Nat) (t : Take) (rfn at_ : Nat) : State :=
  let s := s.supersede t.dst id at_
  let s := s.changeover t.dst t.src (s.kindOf t.src) at_
  let s := s.raise (Hist.dst t.dst) F.XPT_DST_HIST_TAKE
  s.endTake id t ⟨t.okStatus, false, rfn⟩ at_

/-- The instant of destination `d`'s switch point whose computed time is `p` (R251). -/
def State.dstActual (s : State) (d p : Nat) : Nat := ((s.dstGrid d).map (·.actual p)).getD p

/-- Take `t` executes at the switch point whose computed time is `p` (R75 to R82, R251): refused when the destination takes clean takes only; carried over at
once when clean or when the new source has no timing; else it waits for the new source's switch point. A take that is refused here does not
execute, and so supersedes none that waits (R76). -/
def State.runTake (s : State) (id : Nat) (t : Take) (p : Nat) : State :=
  let rfn := s.rfnAt p
  let at_ := s.dstActual t.dst p
  if s.clean t.dst t.src then
    let s := s.supersede t.dst id at_
    let s := s.changeover t.dst t.src (s.kindOf t.src) at_
    let s := s.raise (Hist.dst t.dst) F.XPT_DST_HIST_TAKE
    s.endTake id t ⟨t.okStatus, false, rfn⟩ p
  else if s.refuses t.dst then
    let s := s.raise (Hist.dst t.dst) F.XPT_DST_HIST_UNTIMED
    (s.endTake id t ⟨0x09, false, rfn⟩ p).chainLost t.unit
  else if (s.srcGrid t.src).isNone then
    let s := s.supersede t.dst id at_
    let s := s.changeover t.dst t.src (s.kindOf t.src) at_
    let s := (s.raise (Hist.dst t.dst) F.XPT_DST_HIST_UNTIMED).raise (Hist.dst t.dst) F.XPT_DST_HIST_TAKE
    s.endTake id t ⟨t.okStatus, true, rfn⟩ p
  else (s.supersede t.dst id at_).setOp id (.take { t with waiting := true, after := at_, execRfn := rfn })

/-- The instant at which a take that waits carries its new source: that source's first switch point at or after S (R81), on the
destination's own SWLINE where it has one set (DESIGN CHOICE, assumption 163). -/
def State.waitPoint (s : State) (t : Take) : Option Nat :=
  (s.srcGrid t.src).map fun g => g.actual (s.switchAt t.dst g (g.nominal t.after))

/-- An untimed take carries its new source over (R81). -/
def State.runUntimed (s : State) (id : Nat) (t : Take) (at_ : Nat) : State :=
  let re := s.mustRetune t.dst t.src
  let s := s.changeover t.dst t.src (s.kindOf t.src) at_
  let s := if re then
      (s.setTx t.dst { s.tx t.dst with retune := some (at_ + 2000 * ticksPerUs) }).txRefresh t.dst
    else s
  let s := (s.raise (Hist.dst t.dst) F.XPT_DST_HIST_UNTIMED).raise (Hist.dst t.dst) F.XPT_DST_HIST_TAKE
  s.endTake id t ⟨t.okStatus, true, t.execRfn⟩ (s.rfnTime t.execRfn)

/-- The computed time of the switch point at which a take executes: its destination's first at or after `after`; none when the destination has
no running timing. -/
def State.takePoint (s : State) (t : Take) : Option Nat :=
  (s.dstGrid t.dst).map fun g => s.switchAt t.dst g t.after

/-- The take waiting to execute on `d` that satisfies `p` and stands first. -/
def State.findTake (s : State) (d : Nat) (p : Take → Bool) : Option (Nat × Take) :=
  s.takes.find? fun q => q.2.dst == d && p q.2

end Sys2Proof.Machine
end

