-- ==== Sys2Proof/Machine/Desc.lean ====
section
/-! DEFINITION. The path of a descriptor through the management cores: ring order (R283), form checks (R270), NOT_READY, epoch,
signature, time, ownership and twin role (R79, R271, R282, R286), then the opcode's own checks and effect. -/
namespace Sys2Proof.Machine

/-- What an opcode's own checks decide: refused with a status and result; dropped as late (R88, R173); waiting for VDD_CORE to be
raised (R25, R325); denied with an effect of the refusal itself; or accepted, with its effect. -/
inductive Adm where
  | no (status result : Nat)
  | late (commit : Bool) (result : Nat) (s : State)
  | wait
  | deny (why : Nat) (s : State)
  | yes (s : State)
deriving DecidableEq, Repr

/-- What a command says a field of its descriptor holds: one value, any, or none of some. -/
inductive Spell where
  | is (v : Nat)
  | any
  | not (l : List Nat)
deriving DecidableEq, Repr

/-- A field of a descriptor: its lowest bit, counted from bit 0 of byte 0, its width, and what it holds. -/
structure Field where
  lo    : Nat
  width : Nat
  spell : Spell
deriving DecidableEq, Repr

/-- `n` bytes from byte `o` on hold `v`. -/
def fld (o n v : Nat) : Field := ⟨8 * o, 8 * n, .is v⟩
/-- `n` bits from bit `i` of byte `o` on hold `v`. -/
def fldBits (o i n v : Nat) : Field := ⟨8 * o + i, n, .is v⟩
/-- Bit `i` of byte `o` is `b`. -/
def fldBit (o i : Nat) (b : Bool) : Field := ⟨8 * o + i, 1, .is (if b then 1 else 0)⟩

/-- A field of the number `d` that a descriptor's bytes make, little-endian, reads as the command says (R268). -/
def Field.holds (f : Field) (d : Nat) : Bool :=
  let v := d / 2 ^ f.lo % 2 ^ f.width
  match f.spell with
  | .is x => v == x
  | .any => true
  | .not l => !l.contains v

/-- An opcode's row of Table 9-8 with its payload fields, and the exemptions of R271, R285 and R286: the opcode, RFN use (0 must be 0, 1
nonzero, 2 either), the payload, its list for a SALVO, whether it runs before READY, whether its epoch is not checked, whether a STANDBY runs
it, and whether signing-required mode demands a signature, `need` whether one is always demanded, `never` whether the lifecycle forbids the
operation (Table 17-7); then whether a target is the LV agent's, what kept its host data from being read, and the host data that a signature
covers (R282). -/
structure DescRule where
  op      : Nat
  rfn     : Nat
  pay     : List Field := []
  salvo   : Option SalvoList := none
  early   : Bool := false
  noEpoch : Bool := false
  standby : Bool := false
  sig     : Bool := false
  need    : Bool := false
  never   : Bool := false
  lv      : Bool := false
  fault   : Option (Nat × Nat) := none
  host    : List Byte := []

/-- The POINTER of a descriptor: a SALVO's list address, the signature blob address of a SIGNED one, else no field (Table 9-4). -/
def DescRule.pointer (r : DescRule) (h : Hdr) : List Field :=
  match r.salvo with
  | some l => [fld 56 8 l.pointer]
  | none => if h.signed then [fld 56 8 h.blobAddr] else []

/-- The fields of a descriptor (Tables 9-4, 9-8). -/
def DescRule.fields (r : DescRule) (h : Hdr) : List Field :=
  [fld 0 1 r.op, fldBit 1 0 h.ordered, fldBit 1 1 h.dropIfLate, fldBit 1 2 h.signed, fldBit 1 3 h.chain, fldBit 1 4 h.irq, fld 2 2 h.tag,
    fld 4 4 h.epoch, fld 8 6 h.rfn] ++ r.pay ++ r.pointer h

/-- The 64 bytes are the descriptor that a command names. -/
def DescRule.spells (r : DescRule) (h : Hdr) (raw : List Byte) : Bool :=
  raw.length == 64 && (r.fields h).all fun f => f.holds (unle raw)

/-- The bits of the fields, as a mask over the descriptor. -/
def DescRule.mask (r : DescRule) (h : Hdr) : Nat := (r.fields h).foldl (fun m f => m ||| (2 ^ f.width - 1) * 2 ^ f.lo) 0

/-- The lowest byte offset at which a byte or bit of a descriptor that no field covers is not zero (R270; bits that Table 9-8 gives no meaning
among them, assumption 206). -/
def DescRule.zeroByte (r : DescRule) (h : Hdr) (raw : List Byte) : Option Nat :=
  let d := unle raw
  let rest := d ^^^ (d &&& r.mask h)
  (List.range 64).find? fun i => rest / 256 ^ i % 256 != 0

/-- The TAG of a fetched descriptor. -/
def Fetched.tag (f : Fetched) : Nat := bytesAt f.raw 2 2

/-- The opcodes of Table 9-8. -/
def opcodes : List Nat :=
  [0x01, 0x02, 0x03, 0x04, 0x05, 0x06, 0x07, 0x10, 0x11, 0x20, 0x21, 0x22, 0x30, 0x31, 0x32, 0x33, 0x40, 0x41, 0x50, 0x51, 0x52, 0x60, 0x61, 0x62,
    0x70, 0x71, 0x72, 0x80, 0x81, 0x90, 0x91]

/-- The descriptor the management cores take next from ring `h.ring`. -/
def State.headRaw (s : State) (n : Nat) : List Byte := ((s.rst_ n).fetched.head?.map (·.raw)).getD []

/-- The descriptor the ring engine has handed over and the management cores take next from ring `h.ring` is this one; an ORDERED
one only once every earlier descriptor of its ring has posted (R283). -/
def State.atHead (s : State) (r : DescRule) (h : Hdr) : Bool :=
  r.spells h (s.headRaw h.ring) && (!h.ordered ||
    (!s.host.ops.any (fun o => o.dest == .ring h.ring.val) && !s.host.cpls.any (fun c => c.ring == h.ring.val)))

/-- A descriptor of ring `n` with this tag is outstanding: fetched, or accepted, and not yet posted (R270). -/
def State.outTag (s : State) (n tag : Nat) : Bool :=
  (s.rst_ n).fetched.any (fun f => f.tag == tag) || s.host.ops.any (fun o => o.dest == .ring n && o.tag == tag)
    || s.host.cpls.any fun c => c.ring == n && c.tag == tag

/-- The descriptor at the head of ring `n` leaves the ring engine's queue. -/
def State.popFetched (s : State) (n : Nat) : State :=
  let x := s.rst_ n
  let s' := s.setRst n { x with fetched := x.fetched.tail }
  let new := (x.fetched.take 1).filter fun f => f.dom && !s'.outTag n f.tag
  { s' with host := { s'.host with dom := s'.host.dom ++ new.map fun (f : Fetched) => (n, f.tag) } }

/-- The lowest failing byte offset of the form checks of a descriptor whose bytes are `raw` (R270). -/
def State.formBad (s : State) (r : DescRule) (h : Hdr) (raw : List Byte) : Option Nat :=
  let c1 := if h.chain && r.salvo.isNone then [1] else []
  let c2 := if s.outTag h.ring.val h.tag then [2] else []
  let c3 := if (r.rfn = 0 ∧ h.rfn ≠ 0) ∨ (r.rfn = 1 ∧ h.rfn = 0) then [8] else []
  let c4 := (r.zeroByte h raw).toList
  let c5 := if h.signed && r.salvo.isNone && h.blobAddr % 8 != 0 then [56] else []
  (c1 ++ c2 ++ c3 ++ c4 ++ c5).min?

/-- Signature length of an XMSS parameter set (Table 9-11). -/
def sigLenOf (oid : Nat) : Option Nat :=
  if oid = 0x10 then some 2500 else if oid = 0x11 then some 2692 else if oid = 0x12 then some 2820 else none

/-- Record an accepted sequence number (R282); record 6 changes, a safety record. -/
def State.recordSeq (s : State) (k v : Nat) : State :=
  (s.wr2 (R.SEC_SEQ_LO k) (R.SEC_SEQ_HI k) v).change 6

/-- A signature is refused (R426). -/
def State.sigFail (s : State) : State := (s.inc R.SEC_SIG_FAIL_CNT).raise Hist.sec F.SEC_HIST_SIG_FAIL

/-- Text as bytes. -/
def ascii (t : String) : List Byte := t.toList.map fun c => BitVec.ofNat 8 c.toNat

/-- The message that a command's signature covers (R282): descriptor bytes 0 to 55 with the TAG and the IRQ flag taken as zero, between the
blob's head and the host data. -/
def signedMsg (b : Blob) (raw host : List Byte) : List Byte :=
  ascii "DXVCMD01" ++ b.head ++ raw.take 1 ++ ((raw.drop 1).take 1).map (· &&& 0xEF#8) ++ [0, 0] ++ (raw.take 56).drop 4 ++ host

/-- Check a signature blob over a message by R282: the state with its sequence number recorded, or the DENIED reason. -/
def State.checkBlob (s : State) (b : Blob) (msg : List Byte) : Nat × State :=
  let keyOk := match tabFind s.sec.keys b.slot with
    | some k => decide (b.slot < 8) && k.oid == b.oid && sigLenOf b.oid == some b.sigLen && k.key == b.key
    | none => false
  if !(b.version == 1 && b.zero && keyOk && b.digest == Config.shake 512 (nums msg)) then (0x02, s.sigFail)
  else if b.target ≠ 0xFFFF ∧ b.target ≠ s.get R.MATE_DOM_CFG F.MATE_DOM_CFG_DEVNUM then (0x03, s.sigFail)
  else if b.seq ≤ s.lastSeq b.slot then (0x03, s.sigFail.raise Hist.sec F.SEC_HIST_REPLAY)
  else (0, s.recordSeq b.slot b.seq)

/-- An admission waits for a raise on behalf of another descriptor (R325). -/
def State.heldByRaise (s : State) (h : Hdr) : Bool :=
  match s.hsf.raising with
  | some p => p != (h.ring.val, h.tag)
  | none => false

/-- An admission that waited for a raise is over. -/
def State.raiseOver (s : State) : State :=
  if s.hsf.raising.isNone then s
  else
    let s := { s with hsf := { s.hsf with raising := none } }
    if s.get R.HSF_VSTAT F.HSF_VSTAT_STATE = 3 then s.set R.HSF_VSTAT F.HSF_VSTAT_STATE 0 else s

/-- A request that turns `s` into `s'` adds load to a ledger (R25). -/
def State.adds (s s' : State) : Bool := decide (s.hsfBits < s'.hsfBits) || (List.range 12).any fun e => decide (s.engLoad4 e < s'.engLoad4 e)

/-- A lowering in progress stops at its present step (R25); the time for which the floor has been met to spare is counted anew from there
(DESIGN CHOICE, assumption 172). -/
def State.lowerStop (s : State) : State :=
  if s.get R.HSF_VSTAT F.HSF_VSTAT_STATE = 1 then
    { s with hsf := { s.hsf with okSince := none } }.set R.HSF_VSTAT F.HSF_VSTAT_STATE 0
  else s

/-- The state `s'` that an accepted request leads to from `s`: load it adds has stopped a lowering (R25), and what waited for a raise on its
behalf is over. -/
def State.accept (s s' : State) : State := (if s.adds s' then s'.lowerStop else s').raiseOver

/-- The outcome of an opcode's own checks becomes the descriptor's outcome: `s0` is the state before the descriptor was taken up,
`s` after the checks common to all. -/
def settle (h : Hdr) (s0 s : State) : Adm → State
  | .no st res =>
    let res := if st = 3 ∧ res > 9 ∧ !s.entriesFree 1 then 9 else res
    ((if st = 3 then s.lowerStop else s).raiseOver).refuse h st res
  | .late cmt res s => (s.raiseOver).refuseLate h cmt res
  | .wait => { s0 with hsf := { s0.hsf with raising := some (h.ring.val, h.tag) } }.set R.HSF_VSTAT F.HSF_VSTAT_STATE 3
  | .deny why s => (s.raiseOver).refuse h 5 why
  | .yes s' => if s'.inflight ≤ 16384 then s.accept s' else (s.raiseOver).refuse h 3 9

/-- The result of a BAD_PARAM at a byte offset of the descriptor. -/
def badRes (off : Nat) : Nat := off + 0xFFFFFFFF * 2 ^ 16

/-- The result of a BAD_PARAM in host data: byte offset 0xFE with an index, or none. -/
def dataRes (idx : Option Nat) : Nat := 0xFE + (idx.getD 0xFFFFFFFF) * 2 ^ 16

/-- A SIGNED descriptor's blob cannot be found: its salvo list cannot be read to its last word, and fails its own checks later (DESIGN CHOICE,
assumption 205). -/
def DescRule.noBlob (r : DescRule) (h : Hdr) : Bool :=
  match r.salvo with
  | some l => !l.located h.chain || (l.badPage h.chain).isSome
  | none => false

/-- The signature blob address in a salvo list is misaligned: the result of that BAD_PARAM (R282). -/
def DescRule.blobBad (r : DescRule) (h : Hdr) : Option Nat :=
  match r.salvo with
  | some l => if l.last h.chain % 8 ≠ 0 then some (dataRes (some l.count)) else none
  | none => none

/-- Signing (R79, R282, R426): a status of 0, and the state with the sequence number recorded; or the status and result of a refusal. -/
def State.signCheck (s : State) (r : DescRule) (h : Hdr) (raw : List Byte) : Nat × Nat × State :=
  if r.never then (5, 7, s)
  else if h.signed then
    if r.noBlob h then (0, 0, s)
    else match r.blobBad h, h.blob with
      | some k, _ => (4, k, s)
      | none, none => (7, 1, s)
      | none, some b =>
        let (why, s') := s.checkBlob b (signedMsg b raw r.host)
        if why = 0 then (0, 0, s') else (5, why, s')
  else if r.need || (s.signReq && r.sig) then (5, 1, s)
  else (0, 0, s)

/-- What the checks common to all opcodes make of a descriptor: it stays in its ring; it is refused; or it goes on to its opcode's own
checks. -/
inductive Vet where
  | left
  | out (s : State)
  | pass (s : State)
deriving DecidableEq, Repr

/-- The checks that follow the form checks, in order (R79, R271, R285, R286). A failed read of host data is found after the epoch and before
the signature, which covers that data; R79 gives it no place (DESIGN CHOICE, assumption 166). -/
def State.vetRest (s : State) (r : DescRule) (h : Hdr) (raw : List Byte) : Vet :=
  if !s.isReady && !r.early then .out (s.refuse h 8 0)
  else if h.epoch ≠ s.epoch ∧ !r.noEpoch then .out (s.refuse h 2 s.epoch)
  else match r.fault with
    | some p => .out (s.refuse h p.1 p.2)
    | none =>
      let sg := s.signCheck r h raw
      if sg.1 ≠ 0 then .out (sg.2.2.refuse h sg.1 sg.2.1)
      else if h.rfn ≠ 0 ∧ !sg.2.2.timeValid then .out (sg.2.2.refuse h 8 0)
      else if r.lv then .out (sg.2.2.refuse h 5 4)
      else if sg.2.2.role = 2 ∧ !r.standby then .out (sg.2.2.refuse h 5 5)
      else .pass sg.2.2

/-- The checks common to all opcodes: ring order (R283), form (R270), then the rest. -/
def State.vet (s : State) (r : DescRule) (h : Hdr) : Vet :=
  if !s.atHead r h || s.heldByRaise h then .left
  else
    let raw := s.headRaw h.ring
    let s := (s.at_ h.t).popFetched h.ring.val
    match s.formBad r h raw with
    | some k => .out (s.refuse h 4 (badRes k))
    | none => s.vetRest r h raw

/-- What becomes of a descriptor of state `s0` after the common checks; one they refuse waits for no raise any more. -/
def Vet.run (h : Hdr) (s0 : State) (body : State → Adm) : Vet → State
  | .left => s0
  | .out s => s.raiseOver
  | .pass s => settle h s0 s (body s)

/-- Take up a descriptor: the common checks, then the opcode's own. -/
def State.desc (s0 : State) (r : DescRule) (h : Hdr) (body : State → Adm) : State := (s0.vet r h).run h s0 body

/-- BAD_PARAM at a byte offset of the descriptor. -/
def bad (off : Nat) : Adm := .no 4 (badRes off)

/-- BAD_PARAM in host data: byte offset 0xFE with an index, or none. -/
def badData (idx : Option Nat) : Adm := .no 4 (dataRes idx)

/-- NO_CAPACITY with a shortfall code. -/
def short (code : Nat) : Adm := .no 3 code

/-- DENIED with a reason. -/
def denied (why : Nat) : Adm := .no 5 why

/-- What the ledgers' answer makes of a request whose outcome is otherwise `a`. -/
def Fit.adm (a : Adm) : Fit → Adm
  | .fits => a
  | .short c => .no 3 c
  | .raise _ => .wait

/-- Accept the state `s'` that a request leads to from `s` when the ledgers take it (R25, R124, R134, R320). -/
def admitFit (s s' : State) (k : State → Adm) : Adm := (s.fitOf s').adm (k s')

end Sys2Proof.Machine
end

