-- ==== Sys2Proof/Machine/CheOps.lean ====
section
/-! DEFINITION. Shared operations of Chameleon contexts and composite chains: the conversion set (Tables 4-12, 4-13, R280), the
choice of an engine, a capture writer and a scan-out unit (R65), the build of a context and of a chain (R66, R67), and moving
or orphaning the contexts of a fenced engine (R130). -/
namespace Sys2Proof.Machine

/-! ### The conversion set -/

/-- A conversion set resolved against its input picture. -/
structure CtxSpec where
  outFmt : Nat
  outPix : Nat
  depth  : Nat
  par    : CtxPar
  run    : Bool
  luts   : List (Nat × List Nat) := []
deriving DecidableEq, Repr

/-- A window `(x, y, w, h)` lies within a picture. -/
def winOk (f : Fmt) (w : Nat × Nat × Nat × Nat) : Bool :=
  decide (0 < w.2.2.1 ∧ 0 < w.2.2.2 ∧ w.1 + w.2.2.1 ≤ f.w ∧ w.2.1 + w.2.2.2 ≤ f.lines)

/-- A source window lies within the input picture and, for 4:2:2, has an even width (Table 4-13). -/
def srcWinOk (f : Fmt) (pix : Nat) (w : Nat × Nat × Nat × Nat) : Bool := winOk f w && (pix444 pix || w.2.2.1 % 2 == 0)

/-- Scaling from `i` to `o` lies within 1/8 to 8 (R142). -/
def ratioOk (i o : Nat) : Bool := decide (0 < i ∧ o ≤ 8 * i ∧ i ≤ 8 * o)

/-- Length and last target of a parameter item type (Table 4-12, R280). -/
def itemRule (typ : Nat) : Option (Nat × Nat) :=
  if typ = 1 then some (1024, 1) else if typ = 2 then some (6144, 0) else if typ = 3 then some (32, 0)
  else if typ = 4 then some (215622, 3) else if typ = 5 then some (6144, 0) else if typ = 6 then some (8, 0)
  else if typ = 7 then some (8, 0) else if typ = 8 then some (4, 0) else none

/-- A window item's content. -/
def itemWin (d : List Nat) : Nat × Nat × Nat × Nat := (d[0]?.getD 0, d[1]?.getD 0, d[2]?.getD 0, d[3]?.getD 0)

/-- Parameters with the item applied, the 3D LUTs loaded so far and the offsets of the window items read. -/
def applyItem (p : CtxPar × List (Nat × List Nat)) (i : ParItem) : CtxPar × List (Nat × List Nat) :=
  if i.typ = 1 then (if i.target = 0 then ({ p.1 with kernelH := i.data }, p.2) else ({ p.1 with kernelV := i.data }, p.2))
  else if i.typ = 2 then ({ p.1 with preLut := i.data }, p.2)
  else if i.typ = 3 then ({ p.1 with matrix := i.data }, p.2)
  else if i.typ = 4 then (p.1, p.2 ++ [(i.target, i.data)])
  else if i.typ = 5 then ({ p.1 with postLut := i.data }, p.2)
  else if i.typ = 6 then ({ p.1 with srcWin := some (itemWin i.data) }, p.2)
  else if i.typ = 7 then ({ p.1 with outWin := some (itemWin i.data) }, p.2)
  else ({ p.1 with fill := (i.data[0]?).getD 0 }, p.2)

/-- Read a parameter block: the byte offset of the first item that fails, or what the items make of `p`. Item type 0 ends it. -/
def readItems (fi fo : Fmt) (pi : Nat) : List ParItem → Nat → CtxPar × List (Nat × List Nat) →
    Except Nat (CtxPar × List (Nat × List Nat))
  | [], _, p => .ok p
  | i :: l, off, p =>
    if i.typ = 0 then .ok p
    else match itemRule i.typ with
      | none => .error off
      | some (len, tgt) =>
        if !i.zero || i.len != len || decide (tgt < i.target) then .error off
        else if (i.typ == 6 && !srcWinOk fi pi (itemWin i.data)) || (i.typ == 7 && !winOk fo (itemWin i.data)) then .error off
        else readItems fi fo pi l (off + 8 + (len + 7) / 8 * 8) (applyItem p i)

/-- The offset of the last window item of a parameter block, when it has one. -/
def windowOff : List ParItem → Nat → Option Nat → Option Nat
  | [], _, r => r
  | i :: l, off, r =>
    if i.typ = 0 then r
    else windowOff l (off + 8 + (i.len + 7) / 8 * 8) (if i.typ = 6 ∨ i.typ = 7 then some off else r)

/-- The parameter block of a conversion set could not be read: FAULTED, before admission (R274). -/
def blockFault (b : ParBlock) : Option (Nat × Nat) :=
  if b.addr ≠ 0 ∧ b.addr % 8 = 0 ∧ b.data.isNone then some (7, 1) else none

/-- The payload of a conversion set, from byte 24 on (Table 9-8): with the output's format, pixel format and depth unless a CTX_PARAM keeps them
zero. -/
def convPay (offset : Nat) (v : ConvSet) (out : Bool) : List Field :=
  (if out then [fld 28 1 v.outFmt, fld 29 1 v.outPix, fld 30 1 v.outDepth] else [])
    ++ [fld 24 4 offset, fldBits 31 0 2 v.deint, fldBit 31 2 v.cadOff, fldBits 31 3 2 v.frc, fldBit 31 5 v.park, fld 32 1 v.kernel,
      fld 33 1 v.preset, fld 34 1 v.bank, fld 36 8 v.block.addr]

/-- The parameter block that a signature covers: the one that is read. -/
def blockHost (b : ParBlock) : List Byte := if b.addr ≠ 0 ∧ b.addr % 8 = 0 then b.data.getD [] else []

/-- A parameter block's checks and what it makes of `p`; `base` is the byte offset of its address. -/
def readBlock (fi fo : Fmt) (pi : Nat) (b : ParBlock) (p : CtxPar) : Except Nat (CtxPar × List (Nat × List Nat)) :=
  if b.addr % 8 ≠ 0 then .error (badRes 36)
  else if b.addr = 0 then .ok (p, [])
  else if b.size > 262144 then .error (dataRes none)
  else match readItems fi fo pi b.items 0 (p, []) with
    | .error k => .error (dataRes (some k))
    | .ok r => .ok r

/-- The scaling ratios of parameters lie in range. -/
def scaleOk (fi fo : Fmt) (p : CtxPar) : Bool :=
  let i := p.srcWin.getD (0, 0, fi.w, fi.lines)
  let o := p.outWin.getD (0, 0, fo.w, fo.lines)
  ratioOk i.2.2.1 o.2.2.1 && ratioOk i.2.2.2 o.2.2.2

/-- A timing offset word laid out as SOU_OFFSET lies within a format's raster (R157). -/
def offsetOk (f : Fmt) (w : Nat) : Bool :=
  let l := w / 65536 % 8192
  let m := w % 16384
  decide (w = l * 65536 + m) && decide (l < f.totL) && decide (m < f.totS)

/-- DEINT's default (Table 4-13). -/
def deintOf (fi fo : Fmt) (code : Nat) : Nat := if code = 0 then (if fi.inter && !fo.inter then 2 else 1) else code

/-- The colour description a preset leaves (R143); a 4:2:2 ring never holds R'G'B' (assumption 10). -/
def presetDesc (preset inDesc pix : Nat) : Nat :=
  let d := match preset with
    | 1 => 1 | 2 => 0 | 3 => 2 | 4 => 1 | 5 => 0x23 | 6 => 1 | 7 => 0x23 | 8 => 0x13 | _ => inDesc
  if pix444 pix then d else d % 64 + d / 128 * 128

/-- Resolve and check a conversion set for an input picture of format `fi` (index `fiIdx`), pixel format `pi` and colour description
`cd`. The fill colour's default is opaque black of the output's description. -/
def State.convSpec (s : State) (fiIdx pi cd : Nat) (v : ConvSet) (offset : Nat) : Except Nat CtxSpec :=
  match s.fmt? fiIdx with
  | none => .error (badRes 16)
  | some fi =>
    let foIdx := if v.outFmt = 0xFF then fiIdx else v.outFmt
    match s.fmt? foIdx with
    | none => .error (badRes 28)
    | some fo =>
      let po := if v.outPix = 0 then (if pix444 pi then 3 else 1) else v.outPix - 1
      let dep := if v.outDepth = 0 then 3 else v.outDepth
      if !offsetOk fo offset then .error (badRes 24)
      else if v.outPix > 4 then .error (badRes 29)
      else if dep < 2 ∨ dep > 16 then .error (badRes 30)
      else if v.deint > 3 ∨ v.frc > 2 then .error (badRes 31)
      else if v.kernel > 4 ∧ v.kernel ≠ 0xFF then .error (badRes 32)
      else if v.preset > 8 ∧ v.preset ≠ 15 then .error (badRes 33)
      else if v.bank > 3 ∧ v.bank ≠ 0xFF then .error (badRes 34)
      else
        let p : CtxPar := { deint := deintOf fi fo v.deint, cadOff := v.cadOff, frc := v.frc,
                            kernel := if v.kernel = 0xFF then 1 else v.kernel, preset := v.preset,
                            bank := if v.bank = 0xFF then none else some v.bank, offset := offset,
                            fill := 0xC0000000 + blackWord (presetDesc v.preset cd po) }
        match readBlock fi fo pi v.block p with
        | .error e => .error e
        | .ok (p, luts) =>
          if scaleOk fi fo p then .ok ⟨foIdx, po, dep, p, !v.park, luts⟩
          else .error (match windowOff v.block.items 0 none with
            | some k => if v.block.addr = 0 then badRes 28 else dataRes (some k)
            | none => badRes 28)

/-! ### Choosing parts (R65) -/

/-- An engine's spare rate under its LIMIT, scaled to compare across engines. -/
def State.engSpare (s : State) (e : Nat) : Int := (s.cheLimit115 e * 4004000000 : Nat) - (s.engLoad4 e * 115 : Nat)

/-- A free slot of engine `e`, lowest first. -/
def State.freeSlot (s : State) (e : Nat) : Option Nat :=
  lowest 16 fun k => (s.ctx (16 * e + k)).isNone && !s.che.ctx.any (fun p => p.2.moveTo == some (16 * e + k))

/-- Among engines that satisfy `p`, the one with the most spare rate, the lowest number on a tie. -/
def State.bestEngine (s : State) (p : Nat → Bool) : Option Nat :=
  ((List.range 12).filter p).foldl (fun b e =>
    match b with
    | none => some e
    | some k => if s.engSpare k < s.engSpare e then some e else some k) none

/-- Step 3 of R65: the engine for a context of load `load4`, with every quadrant treated as preferred when none is named. -/
def State.pickEngine (s : State) (quad : Option Nat) (load4 : Nat) : Option Nat :=
  let free := fun e => s.engOpen e && (s.freeSlot e).isSome
  let can := fun e => free e && decide ((load4 * 115 : Nat) ≤ s.engSpare e)
  let inQ := fun e => match quad with
    | some q => e / 3 == q
    | none => true
  (s.bestEngine fun e => can e && inQ e).or
    ((s.bestEngine can).or
      ((s.bestEngine fun e => free e && inQ e).or (s.bestEngine free)))

/-- A capture writer is free: no ring, no route, and not the writer of a chain. -/
def State.cwFree (s : State) (k : Nat) : Bool :=
  (s.cw k).ring.isNone && (s.route (344 + k)).isNone && !s.chainCw (344 + k) && !s.inReset 9 k

/-- Quadrant of a capture writer: 42 in each (R8). -/
def cwQuad (k : Nat) : Nat := k / 42

/-- Step 1 of R65. -/
def State.pickCw (s : State) (quad : Option Nat) : Option Nat :=
  let inQ := quad.bind fun q => lowest 168 fun k => s.cwFree k && cwQuad k == q
  inQ.or (lowest 168 s.cwFree)

/-- A unit may be allocated: free, EN = 1, not in block-level reset (R167, R372). -/
def State.unitFree (s : State) (u : Nat) : Bool :=
  !(s.unit u).alloc && s.flag (R.SOU_CTL u) F.SOU_CTL_EN && !s.inReset 8 u

/-- Step 4 of R65: the unit and its synthesizer; quadrants in which no synthesizer qualifies are passed over. -/
def State.pickUnit (s : State) (dstQuad prefQuad : Option Nat) (famF : Bool) : Option (Nat × Nat) :=
  let at_ := fun (q : Nat) => (s.synAuto q famF).bind fun j =>
    (lowest 40 fun i => s.unitFree (40 * q + i)).map fun i => (40 * q + i, j)
  ((dstQuad.bind at_).or (prefQuad.bind at_)).or ((at_ 0).or ((at_ 1).or ((at_ 2).or (at_ 3))))

/-- Quadrant of a source or destination port: its lane's, or its flow's port's; none for host. -/
def State.portQuad (s : State) (p : Port) (tx : Bool) : Option Nat :=
  match p with
  | .sdi n => some (n / 18)
  | .ip f => (tabFind (if tx then s.media.txFlow else s.media.rxFlow) f).map fun x => x.rcd.port
  | _ => none

/-! ### Contexts -/

/-- A request for a context. -/
structure CtxReq where
  inRing : Nat
  spec   : CtxSpec
  chain  : Bool
  engine : Option Nat
  quad   : Option Nat
deriving DecidableEq, Repr

/-- A context as a request describes it, before it has rings. -/
def CtxReq.ctx (q : CtxReq) : Ctx :=
  { st := if q.spec.run then .running else .parked, inRing := q.inRing, outRing := 0, outFmt := q.spec.outFmt,
    outPix := q.spec.outPix, chain := q.chain, work := [], par := q.spec.par, starting := q.spec.run }

/-- What building parts of a request gave: the state so far, and the shortfall codes met. -/
structure Build where
  s     : State
  codes : List Nat := []
deriving DecidableEq, Repr

/-- A ring for a request: its number (2048 when none), with the shortfall noted. -/
def Build.ring (b : Build) (q : RingReq) : Nat × Build :=
  match b.s.allocRing q with
  | .ok (r, s) => (r, { b with s := s })
  | .error c => (2048, { b with codes := b.codes ++ [c] })

/-- The engine of context `c`: the one it moves to while it moves (Table 4-7). -/
def Ctx.engine (x : Ctx) (c : Nat) : Nat := x.moveTo.getD c / 16

/-- A 3D LUT bank of an engine is selected by a running context (R144). -/
def State.bankInUse (s : State) (e b : Nat) : Bool :=
  s.che.ctx.any fun p => p.2.engine p.1 == e && p.2.loads && (p.2.par.bank == some b || (p.2.next.bind (·.bank)) == some b)

/-- Load 3D LUTs into an engine's banks. -/
def State.loadLuts (s : State) (e : Nat) (l : List (Nat × List Nat)) : State :=
  l.foldl (fun s p => let g := s.eng e; s.setEng e { g with luts := tabPut g.luts p.1 p.2 }) s

/-- Build a context: its number, its output ring and the state; a context with no slot is built at number 192 so that the other
resources are still judged. The load's own shortfall is judged by the ledger. -/
def Build.ctx (b : Build) (q : CtxReq) : Nat × Nat × Build :=
  let x := q.ctx
  let s := b.s
  let load := ((s.ctxFig x).map ChainFig.load4).getD 0
  let e := match q.engine with
    | some e => if s.engOpen e then some e else none
    | none => s.pickEngine q.quad (if q.spec.run then load else 0)
  let slot := e.bind fun e => (s.freeSlot e).map fun k => 16 * e + k
  let b := if slot.isNone then
      { b with codes := b.codes ++ [match q.engine with
        | some e => if s.engOpen e then 1 else 2
        | none => 1] }
    else b
  let c := slot.getD 192
  let (r, b) := b.ring ⟨q.spec.depth, q.spec.outFmt, q.spec.outPix, 0, q.chain⟩
  let k := ((s.ctxFig x).map ChainFig.store).getD 0
  match b.s.allocStore k q.inRing with
  | .error code => (c, r, { b with codes := b.codes ++ [code] })
  | .ok (w, s) =>
    let s := w.foldl (fun s k => s.addReader k (.ctxStore c)) s
    (c, r, { b with s := (s.setCtx c { x with outRing := r, work := w }).loadLuts (c / 16) q.spec.luts })

/-- The outcome of a build against the ledgers: `s` before, `b` after. -/
def Build.settle (s : State) (b : Build) (k : State → Adm) : Adm :=
  match b.codes.min? with
  | some c =>
    let eng := (List.range 12).all fun e => b.s.engLoad4 e ≤ s.engLoad4 e || b.s.engFits e
    let bw := decide (b.s.fstBits ≤ s.fstLimit)
    if !eng && !s.canRaise && decide (2 < c) then short 2
    else if !bw && decide (6 < c) then short 6
    else short c
  | none => admitFit s b.s k

/-- The colour description of a source (R110, R113): BT.709, SDR, narrow, Y'CbCr where the source names none. -/
def State.srcDesc (s : State) (n : Nat) : Nat :=
  match srcPort n with
  | .ip f => match tabFind s.media.rxFlow f with
    | some fl => fl.rcd.space % 4 + fl.rcd.tcs % 4 * 16 + (if fl.rcd.sampling = 2 then 64 else 0)
    | none => 1
  | .host h => match tabFind s.media.hostIn h with
    | some x => if x.sampling = 2 then 65 else 1
    | none => 1
  | .sou u => (s.unit u).active.cdesc
  | _ => 1

/-! ### Composite chains -/

/-- A chain request resolved: source, destination (none for none), capture ring, preferred quadrant, persistence, offset and, for
CONVERT, the conversion. -/
structure ChainSpec where
  src     : Nat
  dst     : Option Nat
  depth   : Nat
  pix     : Nat
  quad    : Option Nat
  persist : Bool
  offset  : Nat
  conv    : Option CtxSpec
deriving DecidableEq, Repr

/-- What an admitted chain uses (R67). -/
structure ChainOut where
  unit : Nat
  cw   : Nat
  ctx  : Option Nat
  cap  : Nat
  out  : Option Nat
deriving DecidableEq, Repr

/-- The result field of a composite route (Table 9-8). -/
def ChainOut.result (c : ChainOut) : Nat :=
  c.cw + (c.ctx.getD 0xFF) * 2 ^ 8 + c.unit * 2 ^ 16 + c.cap * 2 ^ 24
    + (match c.out with
      | some r => r * 2 ^ 35 + 2 ^ 46
      | none => 0)

/-- Give a ring a colour description. -/
def State.setDesc (s : State) (r d : Nat) : State :=
  match s.ring r with
  | some g => s.setRing r { g with cdesc := d }
  | none => s

/-- Build a whole chain (R65, R66): its parts and the state in which it stands, with the shortfalls met. Parts that are short are
built at a number beyond their range so that every ledger is still judged. -/
def Build.chain (b : Build) (q : ChainSpec) : ChainOut × Build :=
  let s := b.s
  let fmt := s.srcFmt q.src
  let cd := s.srcDesc q.src
  let cw := s.pickCw (s.portQuad (srcPort q.src) false)
  let (cap, b) := b.ring ⟨q.depth, fmt, q.pix, cd, true⟩
  let (c, out, b) : Option Nat × Option Nat × Build := match q.conv with
    | none => (none, none, b)
    | some v =>
      let (c, r, b) := b.ctx ⟨cap, v, true, none, q.quad⟩
      (some c, some r, { b with s := b.s.setDesc r (presetDesc v.par.preset cd v.outPix) })
  let last := out.getD cap
  let of := ((q.conv.map (·.outFmt)).getD fmt)
  let op := ((q.conv.map (·.outPix)).getD q.pix)
  let od := match q.conv with
    | some v => presetDesc v.par.preset cd v.outPix
    | none => cd
  let fam := ((s.fmt? of).map (·.famF)).getD false
  let dq := (q.dst.bind fun d => s.portQuad (dstPort d) true).or q.quad
  let un := s.pickUnit dq q.quad fam
  let b := { b with codes := b.codes ++ (if cw.isNone then [7] else []) ++ (if un.isNone then [8] else []) }
  let k := cw.getD 168
  let (u, j) := un.getD (160, 0)
  let set : SouSet := { fmt := of, syn := j, out444 := pix444 op, offLines := q.offset / 65536 % 8192, offSamps := q.offset % 16384,
                        cdesc := od, bg := blackWord od, l1 := { en := true, ring := last } }
  let s := b.s
  let s := s.setCw k { ring := some cap, st := 0, filling := none, start := 0 }
  let s := s.setRoute (344 + k) (some ⟨1, q.src⟩)
  let s := s.setUnit u { alloc := true, run := true, active := set, pending := set, committed := true }
  let s := s.setChain u ⟨q.src, k, c, cap, out, q.persist, false, false⟩
  let s := s.openPath u q.src
  (⟨u, k, c, cap, out⟩, { b with s := s })

/-- The refusals of a composite route's parameters, lowest byte offset first (R64, R59, R63, Table 3-4). -/
def State.chainSpec (s : State) (h : Hdr) (c : ChainReq) (v : Option ConvSet) : Except Nat ChainSpec :=
  let fmt := s.srcFmt c.src
  let s444 := s.src444 c.src
  let noDst := c.dst == 0xFFFF
  let pix := if c.pix = 0 then (if s444 then 3 else if s.src10 c.src then 1 else 0) else c.pix - 1
  let dep := if c.depth = 0 then 3 else c.depth
  if h.rfn ≠ 0 ∧ (noDst ∨ s.rfnFar h.rfn ∨ s.leapPending c.dst h.rfn) then .error (badRes 8)
  else if c.src ≥ 344 ∨ !s.srcExists c.src ∨ (s.fmt? fmt).isNone then .error (badRes 16)
  else if !noDst ∧ (c.dst ≥ 344 ∨ !s.dstExists c.dst) then .error (badRes 18)
  else
    let conv : Except Nat (Option CtxSpec) := match v with
      | none => .ok none
      | some v => match s.convSpec fmt pix (s.srcDesc c.src) v c.offset with
        | .ok x => .ok (some { x with run := true })
        | .error e => .error e
    let of := match conv with
      | .ok (some x) => x.outFmt
      | _ => fmt
    let op := match conv with
      | .ok (some x) => x.outPix
      | _ => pix
    let rgb := match conv with
      | .ok (some x) => presetDesc x.par.preset (s.srcDesc c.src) x.outPix / 64 % 2 == 1
      | _ => s.srcDesc c.src / 64 % 2 == 1
    let carried := match conv with
      | .error _ => true
      | .ok _ => noDst || s.carries c.dst of (pix444 op) true rgb none
    if !carried then .error (badRes 18)
    else if dep < 2 ∨ dep > 16 then .error (badRes 20)
    else if c.pix > 4 ∨ pix444 pix ≠ s444 then .error (badRes 21)
    else if c.quad > 3 ∧ c.quad ≠ 0xFF then .error (badRes 22)
    else if noDst ∧ !c.persist then .error (badRes 23)
    else if !(match s.fmt? of with
        | some f => offsetOk f c.offset
        | none => false) then .error (badRes 24)
    else match conv with
      | .error e => .error e
      | .ok x => .ok ⟨c.src, if noDst then none else some c.dst, dep, pix, if c.quad = 0xFF then none else some c.quad, c.persist,
          c.offset, x⟩

/-! ### Engines that are fenced (R130, R434) -/

/-- A context whose frame in progress is given up: it reads and writes no buffer. -/
def Ctx.idle (x : Ctx) : Ctx := { x with active := false, slice := 0, inBuf := none, outBuf := none, absent := [], abandon := false, stale := false }

/-- A context's input stage lets go of the buffer it reads (R114). -/
def State.letGo (s : State) (c : Nat) : State :=
  match (s.ctx c).bind (·.inBuf) with
  | some h => s.dropReader h (.ctxIn c)
  | none => s

/-- A running context leaves engine `e` for another that can take it, or is orphaned; answers whether it was orphaned. -/
def State.evict (s : State) (c : Nat) : Bool × State :=
  match s.ctx c with
  | none => (false, s)
  | some x =>
    let load := s.ctxLoad4 x
    let e := s.bestEngine fun e => e != c / 16 && s.engOpen e && (s.freeSlot e).isSome && decide ((load * 115 : Nat) ≤ s.engSpare e)
    match e.bind fun e => (s.freeSlot e).map fun k => 16 * e + k with
    | some c' => (false, (s.letGo c).setCtx c { x.idle with st := .moving, moveTo := some c' })
    | none => (true, ((s.letGo c).setCtx c { x.idle with st := .orphan }).raise (Hist.che (c / 16)) F.CHE_HIST_ORPHAN)

/-- Every running context of engine `e` moves or is orphaned, in ascending order. -/
def State.evictAll (s : State) (e : Nat) : Bool × State :=
  let g := s.eng e
  let s := s.setEng e { g with run := none }
  ((s.engCtxs e).filter fun p => p.2.st == .running).foldl (fun a p =>
    let (o, s) := a.2.evict p.1
    (a.1 || o, s)) (false, s)

/-- A context whose number changes keeps its rings and takes its readers with it. -/
def State.renumber (s : State) (c c' : Nat) : State :=
  match s.ctx c with
  | none => s
  | some x =>
    let mv : Reader → Reader := fun r =>
      match r with
      | .ctxIn k => if k = c then .ctxIn c' else .ctxIn k
      | .ctxStore k => if k = c then .ctxStore c' else .ctxStore k
      | .layer u l => .layer u l
      | .dma o => .dma o
    let bufs := s.fst.bufs.map fun p => (p.1, { p.2 with readers := p.2.readers.map mv })
    let chains := s.fst.chains.map fun p => (p.1, { p.2 with ctx := if p.2.ctx = some c then some c' else p.2.ctx })
    let s := { s with fst := { s.fst with bufs := bufs, chains := chains } }
    { s with che := { s.che with ctx := tabPut (tabDel s.che.ctx c) c' { x with moveTo := none } } }

end Sys2Proof.Machine
end

