-- ==== Sys2Proof/Machine/FaultOps.lean ====
section
/-! DEFINITION. Shared operations of fault handling: error records (R428 to R432), what fencing a unit does (R129, R330, R434), and
holding a block in reset (R372). -/
namespace Sys2Proof.Machine

/-! ### Gating -/

/-- Unit `u` stops because its synthesizer gates its output or it is held in reset (E1 of Table 5-6); one whose retune holds its output sends
nothing already (Table 5-5). -/
def State.gateUnit (s : State) (u : Nat) : State :=
  let x := s.unit u
  if x.run && !x.gated && !x.retune then
    ((s.setUnit u { x with gated := true }).raise (Hist.sou u) F.SOU_HIST_SYN_GATED).refreshSrc (352 + u)
  else s

/-- Units whose active set names synthesizer `t`. -/
def State.synUnits (s : State) (t : Nat) : List Nat :=
  (s.sou.unit.filter fun p => p.2.alloc && p.2.run && p.1 / 40 * 4 + p.2.active.syn == t).map (·.1)

/-- The four serial ports, or AES3 outputs, of a synthesizer's quadrant. -/
def quadPorts (t : Nat) : List Nat := (List.range 4).map (t / 4 * 4 + ·)

/-- Serial port `n` is a master that takes its clock from synthesizer `t` (R210). -/
def State.sapMasterOf (s : State) (t n : Nat) : Bool :=
  n / 4 == t / 4 && s.flag (R.SAP_CTL n) F.SAP_CTL_EN && s.flag (R.SAP_CTL n) F.SAP_CTL_MASTER
    && s.get (R.SAP_CTL n) F.SAP_CTL_SYN == t % 4

/-- AES3 output `n` is enabled on synthesizer `t` (R214). -/
def State.aesoOf (s : State) (t n : Nat) : Bool :=
  n / 4 == t / 4 && s.flag (R.AESO_CTL n) F.AESO_CTL_EN && s.get (R.AESO_CTL n) F.AESO_CTL_SYN == t % 4

/-- Master audio ports lose their clock with their synthesizer (R208). -/
def State.audStop (s : State) (t : Nat) : State :=
  (quadPorts t).foldl (fun s n =>
    let s := if s.sapMasterOf t n && (s.clk n).st == .master then
        (s.setClk n {}).raise (Hist.sap n) F.SAP_HIST_CLOCK_LOST
      else s
    if s.aesoOf t n then s.set (R.AESO_STAT n) F.AESO_STAT_ACTIVE 0 else s) s

/-- Master audio ports run again once their synthesizer has locked (R208, R214), an AES3 output only where it may clock audio (R255). -/
def State.audStart (s : State) (t : Nat) : State :=
  (quadPorts t).foldl (fun s n =>
    let s := if s.sapMasterOf t n then s.setClk n { s.clk n with st := .master, fifo := 32, pos := 0 } else s
    if s.aesoOf t n && s.synForAudio t then s.set (R.AESO_STAT n) F.AESO_STAT_ACTIVE 1 else s) s

/-- The lanes of a synthesizer's quadrant that a pattern generator feeds look for their clock (R242). -/
def State.synLanes (s : State) (t : Nat) : State := ((List.range 18).map (t / 4 * 18 + ·)).foldl State.txRefresh s

/-- Synthesizer `t` stops its output: every unit it clocks is gated, the audio masters on it stop, and pattern-fed lanes look for
another clock (R178, R208, R242). -/
def State.synStop (s : State) (t st : Nat) : State :=
  let s := s.set (R.SYN_TS_STAT t) F.SYN_TS_STAT_STATE st
  (((s.synUnits t).foldl State.gateUnit s).audStop t).synLanes t

/-! ### Voltage controller -/

/-- VDD_CORE as the regulator confirmed it, mV. -/
def State.vdd (s : State) : Nat := s.get R.HSF_VSTAT F.HSF_VSTAT_VDD
/-- State of the voltage controller: 0 HOLD, 1 LOWERING, 2 RAISING, 3 ADMIT_RAISE, 4 AVS_FAULT, 5 POWERFAIL, 6 END. -/
def State.vState (s : State) : Nat := s.get R.HSF_VSTAT F.HSF_VSTAT_STATE
def State.setVState (s : State) (v : Nat) : State := s.set R.HSF_VSTAT F.HSF_VSTAT_STATE v
/-! ### Block-level reset (R372) -/

/-- The crossing group of a block (Table 12-3); none for a clockless one. -/
def blockGroups (c i : Nat) : List Nat :=
  match c with
  | 0 => [i]
  | 1 => [72 + i]
  | 2 => (List.range 4).flatMap fun l => [144 + 2 * (4 * i + l), 145 + 2 * (4 * i + l)]
  | 3 => [179 + i]
  | 4 => [195 + i]
  | 5 => [211 + i]
  | 6 => [227 + i]
  | _ => []

/-- What holding block `i` of class `c` in reset does: its status and history bits clear and it carries nothing; fields of its setup
window and counters stay. A profile that a synthesizer's gating ends shows in RAMP_ERR even so (R254). -/
def State.holdBlock (s : State) (c i : Nat) : State :=
  let s := s.set (R.RST_BLK_STAT c i) F.RST_BLK_STAT_IN_RESET 1
  let s := s.set (R.RST_BLK_STAT c i) F.RST_BLK_STAT_RELEASE_PENDING_CLOCK 0
  let s := (blockGroups c i).foldl (fun (s : State) d => s.set (R.HSF_XSTAT d) F.HSF_XSTAT_STATE 1) s
  match c with
  | 0 => (s.rxDown i true).wr (R.SDI_RX_HIST i) 0
  | 1 => s.txRefresh i
  | 2 => ((List.range 4).foldl (fun s k => s.qeDown i k) s).wr (R.QE_HIST i) 0
  | 3 => (s.setClk i {}).wr (R.SAP_HIST i) 0
  | 4 => (s.setClk (16 + i) {}).wr (R.AESI_HIST i) 0
  | 6 =>
    let s := s.wr (R.SYN_TS_HIST i) 0
    let s := (if s.synState i = 3 then s.synEnd i else s).synStop i 0
    s.setSyn i { s.syn_ i with gatedBy := 0, fromGate := false, preload := false, clamp := none }
  | 7 => s.wr (R.CHE_HIST i) 0
  | 8 => (s.gateUnit i).wr (R.SOU_HIST i) 0
  | 9 => s.setCw i { s.cw i with filling := none, st := 0 }
  | _ => s

/-! ### Frame-store relocation (R129) -/

/-- A replacement for granule `g`: a spare of its pseudo-channel, which joins the pool, else a free granule elsewhere; answers the
replacement and whether a spare was used. -/
def State.replacement (s : State) (g : Nat) : Option (Nat × Bool) :=
  let p := g / 256
  let sp := if s.pcFenced p then none
    else ([256 * p + 254, 256 * p + 255].find? fun k => !s.fst.sparesU.contains k && !s.fst.fencedG.contains k)
  match sp with
  | some k => some (k, true)
  | none => ((s.startPc s.usedGrans).bind fun q => s.freeIn s.usedGrans q).map fun k => (k, false)

/-- Copy a granule's bytes, with correction, to another; a word that fails goes on reading black (R128; assumption 154). -/
def State.copyGran (s : State) (g k : Nat) : State :=
  let cells := s.fst.mem.filter fun c => c.1 / granBytes == g
  let m := cells.foldl (fun m c => memWrite m (k * granBytes + c.1 % granBytes) c.2)
    (s.fst.mem.filter fun c => c.1 / granBytes != k)
  let n := granBytes / 8
  let bad := (s.fst.badW.filter fun w => w / n == g).map fun w => k * n + w % n
  { s with fst := { s.fst with mem := m, badW := (s.fst.badW.filter fun w => w / n != k) ++ bad } }

/-- An allocated granule that is fenced moves to its replacement: at the next frame boundary for a buffer, at once for an audio
delay line or a path buffer. A replacement that is itself fenced before the switch is replaced in turn. Answers the DETAIL bits. -/
def State.moveGran (s : State) (g : Nat) : Nat × State :=
  let holder := s.fst.bufs.find? fun b => b.2.grans.contains g || (b.2.moved.getD []).contains g
  match s.replacement g with
  | none => (2, s.raise Hist.fst F.FST_HIST_SPARE_EXHAUSTED)
  | some (k, spare) =>
    let s := if spare then
        ({ s with fst := { s.fst with sparesU := s.fst.sparesU ++ [k] } }).set R.FST_SPARES F.FST_SPARES_LEFT
          (s.get R.FST_SPARES F.FST_SPARES_LEFT - 1)
      else s
    let sub := fun x => if x = g then k else x
    let s := match holder with
      | some (h, b) => (s.copyGran g k).setBuf h { b with moved := some ((b.moved.getD b.grans).map sub) }
      | none => s
    let s := { s with fst := { s.fst with
      audioGr := s.fst.audioGr.map sub, pathGr := s.fst.pathGr.map fun p => (p.1, p.2.map sub) } }
    (if spare then 1 else 0, s)

/-- A granule is fenced (R129). -/
def State.fenceGran (s : State) (g : Nat) : Nat × State :=
  let s := { s with fst := { s.fst with fencedG := s.fst.fencedG ++ [g] } }
  let (d, s) := s.moveGran g
  (d, s.raise Hist.fst F.FST_HIST_GRANULE_FENCED)

/-- A whole pseudo-channel is fenced (R129). -/
def State.fencePc (s : State) (p : Nat) : Nat × State :=
  let s := { s with fst := { s.fst with fencedP := s.fst.fencedP ++ [p] } }
  let gs := (s.usedGrans.filter fun g => g / 256 == p).eraseDups
  let (d, s) := gs.foldl (fun a g =>
    let (d, s) := a.2.moveGran g
    (max a.1 d, s)) (0, s)
  (d, s.raise Hist.fst F.FST_HIST_PC_FENCED)

/-! ### Ribbons (R330) -/

/-- Quadrant of a ribbon: 24 working ribbons each; spare `s` of quadrant q is 96 + 2q + s. -/
def ribQuad (b : Nat) : Nat := if b < 96 then b / 24 else (b - 96) / 2

/-- A free spare of a quadrant. -/
def State.freeSpare (s : State) (q : Nat) : Option Nat :=
  lowest 2 fun k => (tabFind s.hsf.spares (2 * q + k)).isNone

/-- Spare `k` carries ribbon `b` (a spare that has failed, itself). -/
def State.spareFor (s : State) (k b : Nat) : State := { s with hsf := { s.hsf with spares := tabPut s.hsf.spares k b } }

/-- Quadrant `q` has one free spare less. -/
def State.lessSpare (s : State) (q : Nat) : State := s.set R.HSF_SPARES ⟨2 * q, 2⟩ (s.get R.HSF_SPARES ⟨2 * q, 2⟩ - 1)

/-- A spare takes ribbon `b`'s place: FENCED is not touched. Answers whether one was free. -/
def State.useSpare (s : State) (b : Nat) : Bool × State :=
  let q := ribQuad b
  if s.flag (R.HSF_RIB_STAT b) F.HSF_RIB_STAT_REPLACED then (true, s)
  else match s.freeSpare q with
    | none => (false, s)
    | some k =>
      let s := s.spareFor (2 * q + k) b
      let s := (s.set (R.HSF_RIB_STAT b) F.HSF_RIB_STAT_REPLACED 1).set (R.HSF_RIB_STAT b) F.HSF_RIB_STAT_SPARE k
      (true, s.lessSpare q)

/-- The spare that carries ribbon `b` is free again. -/
def State.returnSpare (s : State) (b : Nat) : State :=
  if b < 96 ∧ s.flag (R.HSF_RIB_STAT b) F.HSF_RIB_STAT_REPLACED then
    let q := ribQuad b
    let k := s.get (R.HSF_RIB_STAT b) F.HSF_RIB_STAT_SPARE
    let s := { s with hsf := { s.hsf with spares := tabDel s.hsf.spares (2 * q + k) } }
    let s := (s.set (R.HSF_RIB_STAT b) F.HSF_RIB_STAT_REPLACED 0).set (R.HSF_RIB_STAT b) F.HSF_RIB_STAT_SPARE 0
    s.set R.HSF_SPARES ⟨2 * q, 2⟩ (s.get R.HSF_SPARES ⟨2 * q, 2⟩ + 1)
  else s

/-- A ribbon that cannot carry its load any more moves to a spare: the record's detail, and the state. -/
def State.moveRib (s : State) (b : Nat) : Nat × State :=
  let (got, s) := s.useSpare b
  let s := s.raise Hist.hsf F.HSF_HIST_RIBBON_FENCED
  if got then (1, s) else (2, s.raise Hist.hsf F.HSF_HIST_SPARE_EXHAUSTED)

/-- A ribbon is fenced. A spare that fails is lost to its quadrant, and the ribbon it carried looks for the other one. -/
def State.fenceRib (s : State) (b : Nat) : Nat × State :=
  if b < 96 then ((s.set (R.HSF_RIB_STAT b) F.HSF_RIB_STAT_FENCED 1).set (R.HSF_RIB_STAT b) F.HSF_RIB_STAT_TESTING 0).moveRib b
  else
    match tabFind s.hsf.spares (b - 96) with
    | none => (0, ((s.spareFor (b - 96) b).lessSpare (ribQuad b)).raise Hist.hsf F.HSF_HIST_RIBBON_FENCED)
    | some r => ((s.spareFor (b - 96) b).set (R.HSF_RIB_STAT r) F.HSF_RIB_STAT_REPLACED 0).moveRib r

/-! ### Units and records -/

/-- Counters and marks of unit `u`. -/
def State.fltUnit (s : State) (u : Nat) : FltUnit := tabGet {} s.flt.units u
/-- `s` with the counters and marks of unit `u`. -/
def State.setFltUnit (s : State) (u : Nat) (x : FltUnit) : State :=
  { s with flt := { s.flt with units := tabSet {} s.flt.units u x } }

/-- A unit that gets a targeted self-test (Table 18-1). -/
def testable (u : Nat) : Bool := decide (1 ≤ u / 65536) && decide (u / 65536 ≤ 9)

/-- The mirror of a bank of Gecko, the spine or a memory controller: banks pair with their neighbour (assumption 12). -/
def mirrorOf (u : Nat) : Nat := if u % 2 = 0 then u + 1 else u - 1

/-- A fenced engine's contexts leave it: the record's detail (4 when one found no other place), and the state. -/
def State.fenceEng (s : State) (e : Nat) : Nat × State := (if (s.evictAll e).1 then 4 else 0, (s.evictAll e).2)

/-- Fence unit `u` (Table 18-5); `rows` is how many rows of an SRAM bank fail. Answers the DETAIL bits. -/
def State.fence (s : State) (u rows : Nat) : Nat × State :=
  let ty := u / 65536
  let i := u % 65536
  let mark := fun (s : State) => s.setFltUnit u { s.fltUnit u with fenced := true, retest := false }
  if ty = 1 then
    if rows ≤ 4 then (1, s)
    else
      let c := i / 4096
      if c = 7 then
        (((mark s).fenceEng (i / 16 % 256)).1, ((mark s).fenceEng (i / 16 % 256)).2.holdBlock 7 (i / 16 % 256))
      else if c ≤ 9 then (0, (mark s).holdBlock c (i / 16 % 256))
      else if (s.fltUnit (mirrorOf u)).fenced then (10, mark s)
      else (1, mark s)
  else if ty = 2 then (0, (mark s).holdBlock 0 i)
  else if ty = 3 then (0, (mark s).holdBlock 1 i)
  else if ty = 4 then (0, (mark s).holdBlock 2 (i / 4))
  else if ty = 6 then (mark s).fenceGran i
  else if ty = 7 then (mark s).fencePc i
  else if ty = 8 then (mark s).fenceRib i
  else if ty = 9 then (mark s).fenceEng i
  else (0, mark s)

/-- The record of unit `u` in a given state. -/
def State.recOf (s : State) (u st : Nat) : Option FltRec := s.flt.recs.find? fun r => r.unit == u && r.st == st

/-- Replace the record that lies in a slot. -/
def State.setRec (s : State) (r : FltRec) : State :=
  { s with flt := { s.flt with recs := s.flt.recs.map fun x => if x.slot = r.slot then r else x } }

/-- The error log (record 13) names unit `u` once it is fenced. -/
def State.logFenced (s : State) (u : Nat) : State :=
  if (s.fltUnit u).fenced && !s.flt.logged.contains u then { s with flt := { s.flt with logged := s.flt.logged ++ [u] } } else s

/-- The record in hand becomes LASTING and its unit is fenced (R433, R434, R437). -/
def State.lasting (s : State) (r : FltRec) (bits rows : Nat) : State :=
  let tus := if r.st = 1 then min 65535 ((s.now - s.flt.since) / ticksPerUs) else r.tus
  let (d, s) := s.fence r.unit rows
  let s := s.setRec { r with st := 3, detail := (r.detail ||| bits) ||| d, tus := tus }
  let s := (s.inc R.FLT_LASTING_CNT).raise Hist.flt F.FLT_HIST_LASTING
  (s.logFenced r.unit).dirty 13

/-- The oldest record in a state. -/
def State.oldestRec (s : State) (st : Nat) : Option FltRec := s.flt.recs.find? fun r => r.st == st

/-- Make room for a record: none when no record may be removed (R432). -/
def State.roomRec (s : State) : Option State :=
  if s.flt.recs.length < 64 then some s
  else
    let s := s.raise Hist.flt F.FLT_HIST_FLT_QUEUE_OVF
    match (s.oldestRec 2).or (s.oldestRec 4) with
    | some r => some ({ s with flt := { s.flt with recs := s.flt.recs.filter fun x => x.slot != r.slot } }.inc R.FLT_MERGED_CNT)
    | none => none

/-- Make a record of unit `u` (R431). -/
def State.makeRec (s : State) (u src st : Nat) : State :=
  let slot := (lowest 64 fun k => !s.flt.recs.any fun r => r.slot == k).getD 0
  let r : FltRec := { slot := slot, st := st, source := src, unit := u, seq := s.flt.seq, time := s.nsNow }
  let s := { s with flt := { s.flt with recs := s.flt.recs ++ [r], seq := (s.flt.seq + 1) % 65536 } }
  (s.setFltUnit u { s.fltUnit u with retest := false }).raise Hist.flt F.FLT_HIST_NEW

/-- Queue a record, or owe the unit a test when the queue is full of records that stay (R432). -/
def State.queueRec (s : State) (u src : Nat) : State :=
  match s.roomRec with
  | some s => s.makeRec u src (if testable u then 0 else 4)
  | none =>
    let s := s.raise Hist.flt F.FLT_HIST_FLT_QUEUE_OVF
    s.setFltUnit u { s.fltUnit u with retest := testable u, src := src }

/-- An error naming unit `u` from source `src` (R431, R435). -/
def State.reportError (s : State) (u src : Nat) : State :=
  let x := s.fltUnit u
  let s := s.setFltUnit u { x with errors := min 4095 (x.errors + 1) }
  if x.fenced then s
  else match s.recOf u 0 with
    | some r => s.setRec { r with rep := min 255 (r.rep + 1) }
    | none => match s.recOf u 1 with
      | some r => s.lasting r 16 5
      | none => s.queueRec u src

end Sys2Proof.Machine
end

