-- ==== Sys2Proof/Machine/RouteOps.lean ====
section
/-! DEFINITION. Shared operations of route-changing descriptors: scheduling immediate takes and leaps, salvos, cancelling, and
composite routes (R64 to R96). -/
namespace Sys2Proof.Machine

/-- A pending operation that is a take, leap or salvo is removed and completes ABORTED; the chains its takes were of are released
under R68 (R76, R96). -/
def State.abortTake (s : State) (id : Nat) (t : Take) : State :=
  (s.endTake id t ⟨0x06, false, s.rfnNow⟩ s.now).chainLost t.unit

/-- The entries of salvo `sid` still pending. -/
def State.salvoEntries (s : State) (sid : Nat) : List (Nat × Take) := s.takes.filter fun p => p.2.salvo == some sid

/-- Remove every pending entry of operation `id`, which completes ABORTED. -/
def State.abortOp (s : State) (id : Nat) : State :=
  match s.opBody? id with
  | some (.take t) => s.abortTake id t
  | some (.salvo _) =>
    let es := s.salvoEntries id
    let s := es.foldl (fun s p =>
      let (org, ring) := s.opOrigin id
      let s := s.log 2 org 0x06 (s.kindOf p.2.src) p.2.dst p.2.src s.rfnNow ring
      s.dropOp p.1) s
    let s := es.foldl (fun s p => s.chainLost p.2.unit) s
    (s.finish id { status := 0x06, result := some 0 }).leapRateCheck
  | _ => s

/-- An earlier immediate take still pending on `d` is replaced (R76). One that waits for its untimed changeover is not: it ends when the
later take executes (DESIGN CHOICE, assumption 183). -/
def State.abortImmediate (s : State) (d : Nat) : State :=
  (s.takes.filter fun p => p.2.dst == d && p.2.rfn == 0 && !p.2.waiting && p.2.salvo.isNone).foldl
    (fun s p => s.abortTake p.1 p.2) s

/-- Accept an immediate take (R74, R77): it waits for the first switch point at least the margin after acceptance, or executes at
once where the destination has no running timing. It counts as armed from its acceptance (E3): the model has no separate E4 for it
(DESIGN CHOICE, assumption 164). In the PRIMARY role it goes to the STANDBY with the RFN in which its switch point falls (R98). -/
def State.startImmediate (s : State) (h : Hdr) (d src : Nat) (unit : Option Nat) (result : Nat) : State :=
  let s := s.abortImmediate d
  let t : Take := { dst := d, src := src, rfn := 0, after := s.now, armed := true, unit := unit }
  match s.dstGrid d with
  | none =>
    let (id, s) := s.addOp h result (.take t)
    s.runIdle id t s.rfnNow s.now
  | some g =>
    let t := { t with after := g.nominal (s.now + s.marginTicks g) }
    let (id, s) := s.addOp h result (.take t)
    s.fwdNote id (if s.timeValid then s.rfnAt (s.switchAt d g t.after) else 0)

/-- A leap for `rfn` on `d` accepted now is late (R88). -/
def State.leapLate (s : State) (d rfn : Nat) : Bool :=
  match s.dstGrid d with
  | some g => decide (g.actual (s.switchAt d g (s.rfnTime rfn)) < s.now + s.marginTicks g)
  | none => decide (s.rfnTime rfn < s.now)

/-- The take of an accepted leap: on time for its RFN, or late and bound for the next switch point (R86, R88). -/
def State.leapTake (s : State) (d src rfn : Nat) (drop : Bool) (salvo unit : Option Nat) : Take :=
  let late := s.leapLate d rfn
  let after := if late then ((s.dstGrid d).map fun g => g.nominal (s.now + s.marginTicks g)).getD s.now else s.rfnTime rfn
  { dst := d, src := src, rfn := rfn, after := after, late := late, drop := drop, salvo := salvo, unit := unit }

/-- LATE sets in the history of a destination whose leap is late, whether executed or dropped (R88). -/
def State.raiseLate (s : State) (d : Nat) (late : Bool) : State :=
  if late then s.raise (Hist.dst d) F.XPT_DST_HIST_LATE else s

/-- Accept a leap. -/
def State.startLeap (s : State) (h : Hdr) (d src rfn : Nat) (unit : Option Nat) (result : Nat) : State :=
  let t := s.leapTake d src rfn h.dropIfLate none unit
  ((s.raiseLate d t.late).addOp h result (.take t)).2

/-- Accept an immediate take or a leap, as RFN says. -/
def State.startTake (s : State) (h : Hdr) (d src : Nat) (unit : Option Nat) (result : Nat) : State :=
  if h.rfn = 0 then s.startImmediate h d src unit result else s.startLeap h d src h.rfn unit result

/-- Whether DROP_IF_LATE drops a leap on `d` at its acceptance (R88). -/
def State.dropsLate (s : State) (h : Hdr) (d : Nat) : Bool := h.rfn != 0 && h.dropIfLate && s.leapLate d h.rfn

/-- ROUTE_SET and TAKE_AT after the checks common to all (R79 steps 5 to 7). -/
def routeBody (h : Hdr) (d src : Nat) (s : State) : Adm :=
  if s.chainCw d then denied 6
  else match s.routeBad d src h.rfn with
    | some k => bad k
    | none =>
      if s.refuses d && !s.clean d src then .no 9 0
      else if !s.entriesFree 1 then short 9
      else
        let t := s.leapTake d src h.rfn h.dropIfLate none none
        let s1 := ((if h.rfn = 0 then s.abortImmediate d else s).addOp h 0 (.take t)).2
        admitFit s s1 fun _ =>
          if s.dropsLate h d then .late false 0 (s.raiseLate d true)
          else .yes (s.startTake h d src none 0)

/-- The rule row of route-changing descriptors. -/
def routeRule (s : State) (op rfn d : Nat) (pay : List Field) : DescRule :=
  { op := op, rfn := rfn, pay := pay, sig := true, lv := s.lvOwned d }

/-- The payload of ROUTE_SET and TAKE_AT. -/
def routePay (dst src : Nat) : List Field := [fld 16 2 dst, fld 18 2 src]

/-- The payload of ROUTE_SYNC, and bytes 16 to 27 of ROUTE_CONVERT. -/
def chainPay (c : ChainReq) : List Field :=
  [fld 16 2 c.src, fld 18 2 c.dst, fld 20 1 c.depth, fld 21 1 c.pix, fld 22 1 c.quad, fldBit 23 0 c.persist, fld 24 4 c.offset]

/-- The rule row of ROUTE_CONVERT. -/
def convertRule (s : State) (c : ChainReq) (v : ConvSet) : DescRule :=
  { routeRule s 0x07 2 c.dst (chainPay c ++ convPay c.offset v true) with fault := blockFault v.block, host := blockHost v.block }

/-! ### Composite routes -/

/-- The origin and ring a route-log entry of the descriptor being admitted carries (Table 17-6). -/
def State.hdrOrigin (s : State) (h : Hdr) : Nat × Nat :=
  if s.host.restoring then (3, 0xFF) else if s.host.fwdNow then (4, 0xFF) else (if s.host.dom.contains (h.ring.val, h.tag) then 2 else 0, h.ring.val)


/-- The chain stands in `s`: it enters the route log, and its take is in flight (or it feeds no destination yet). -/
def chainStart (h : Hdr) (q : ChainSpec) (o : ChainOut) (s : State) : Adm :=
  let s := s.log 3 (s.hdrOrigin h).1 0 (if q.conv.isSome then 3 else 2) (q.dst.getD 0xFFFF) q.src s.rfnNow (s.hdrOrigin h).2
  match q.dst with
  | none => .yes (s.ok h o.result)
  | some d => .yes (s.startTake h d (352 + o.unit) (some o.unit) o.result)

/-- The state by which the ledgers judge a chain: the chain stands and its take is in flight. -/
def chainHyp (h : Hdr) (q : ChainSpec) (o : ChainOut) (s b : State) : State :=
  match q.dst with
  | some d => (b.addOp h 0 (.take (s.leapTake d (352 + o.unit) h.rfn h.dropIfLate none none))).2
  | none => b

/-- A chain that is built, against what the request still asks: free LUT banks, the ledgers, and lateness (R88). A composite route dropped
as late reports the parts it would have used, though it claims none (DESIGN CHOICE, assumption 184). -/
def chainSettle (h : Hdr) (q : ChainSpec) (s : State) (o : ChainOut) (b : Build) : Adm :=
  let inUse := match o.ctx, q.conv with
    | some x, some cv => cv.luts.any fun l => s.bankInUse (x / 16) l.1
    | _, _ => false
  let drop := match q.dst with
    | some d => s.dropsLate h d
    | none => false
  if inUse then denied 6
  else Build.settle s { b with s := chainHyp h q o s b.s } fun _ =>
    if drop then .late false o.result (s.raiseLate (q.dst.getD 0xFFFF) true) else chainStart h q o b.s

/-- Admit a resolved chain and its take (R65 to R67). Refused as untimed (R82), it reports result 0: its parts are not chosen yet (DESIGN
CHOICE, assumption 184). -/
def chainAdmit (h : Hdr) (q : ChainSpec) (s : State) : Adm :=
  let unclean := match q.dst with
    | some d => s.refuses d && !s.cleanAs d 0xFFFF (if q.conv.isSome then 3 else 2) none
    | none => false
  if unclean then .no 9 0
  else
    let p := Build.chain { s := s, codes := if s.entriesFree 1 then [] else [9] } q
    chainSettle h q s p.1 p.2

/-- Admit a chain and its take after the request's own checks. -/
def chainBody (h : Hdr) (c : ChainReq) (v : Option ConvSet) (s : State) : Adm :=
  if c.dst ≠ 0xFFFF ∧ s.chainCw c.dst then denied 6
  else match s.chainSpec h c v with
    | .error e => .no 4 e
    | .ok q => chainAdmit h q s

/-! ### Salvos -/

/-- What an entry's SYNC chain request stands for: a chain with the defaults of Table 3-4. -/
def entryChain (e : SalvoEntry) : ChainReq := ⟨e.src, e.dst, 0, 0, 0xFF, false, 0⟩

/-- The parameters of entry `i`, given the destinations before it. -/
def State.entryBad (s : State) (h : Hdr) (e : SalvoEntry) (before : List Nat) : Bool :=
  !e.clean || before.contains e.dst ||
    (if e.sync then match s.chainSpec h (entryChain e) none with
      | .ok _ => e.dst == 0xFFFF
      | .error _ => true
    else (s.routeBad e.dst e.src h.rfn).isSome)

/-- The index of the first entry whose parameters fail. -/
def State.firstBad (s : State) (h : Hdr) : List SalvoEntry → Nat → List Nat → Option Nat
  | [], _, _ => none
  | e :: l, i, before => if s.entryBad h e before then some i else s.firstBad h l (i + 1) (before ++ [e.dst])

/-- An entry's take would be clean, or its destination takes untimed takes (R82). -/
def State.entryClean (s : State) (e : SalvoEntry) : Bool :=
  !s.refuses e.dst || (if e.sync then s.cleanAs e.dst 0xFFFF 2 none else s.clean e.dst e.src)

/-- Build the chains the entries request, in entry order: per entry its destination, its source and its chain's unit. -/
def buildSalvo (h : Hdr) : List SalvoEntry → Build → List (Nat × Nat × Option ChainOut) × Build
  | [], b => ([], b)
  | e :: l, b =>
    match (if e.sync then (b.s.chainSpec h (entryChain e) none).toOption else none) with
    | some q =>
      let (o, b) := b.chain q
      let (r, b) := buildSalvo h l b
      ((e.dst, 352 + o.unit, some o) :: r, b)
    | none =>
      let (r, b) := buildSalvo h l b
      ((e.dst, e.src, none) :: r, b)

/-- The salvo and its entries enter the in-flight table; lateness is judged per destination in `s0`, the state at acceptance. -/
def State.startSalvo (s s0 : State) (h : Hdr) (l : List (Nat × Nat × Option ChainOut)) : State :=
  let (sid, s) := s.addOp h 0 (.salvo { size := l.length, left := l.length })
  l.foldl (fun s e =>
    let t := s0.leapTake e.1 e.2.1 h.rfn false (some sid) (e.2.2.map (·.unit))
    ((s.raiseLate e.1 t.late).addEntry h (.take t))) s

/-- The chains of a salvo enter the route log. -/
def State.logChains (s s0 : State) (h : Hdr) (l : List (Nat × Nat × Option ChainOut)) : State :=
  l.foldl (fun s1 e => match e.2.2 with
    | some o => match s1.chainOf o.unit with
      | some c => s1.log 3 (s0.hdrOrigin h).1 0 2 e.1 c.src s0.rfnNow (s0.hdrOrigin h).2
      | none => s1
    | none => s1) s

/-- A salvo whose chains are built, against the ledgers and lateness (R94). -/
def salvoSettle (h : Hdr) (es : List SalvoEntry) (s : State) (l : List (Nat × Nat × Option ChainOut)) (b : Build) : Adm :=
  Build.settle s { b with s := b.s.startSalvo s h l } fun _ =>
    let lates := es.filter fun e => s.leapLate e.dst h.rfn
    if h.dropIfLate && !lates.isEmpty then .late false lates.length (lates.foldl (fun s e => s.raiseLate e.dst true) s)
    else .yes ((b.s.logChains s h l).startSalvo s h l)

/-- What is wrong with a list as a whole: its count, its address, a misaligned next page, or an unsigned chained list whose last page does not
end in zero (R277). -/
def listBad (v : SalvoList) (h : Hdr) : Option Nat :=
  if v.count = 0 ∨ v.count > 4096 then some (badRes 16)
  else if !v.located h.chain then some (badRes 56)
  else match v.badPage h.chain with
    | some i => some (dataRes (some i))
    | none => if h.chain && !h.signed && v.last h.chain != 0 then some (dataRes none) else none

/-- SALVO after the checks common to all (R93 steps 4 and on, R94). -/
def salvoBody (h : Hdr) (v : SalvoList) (s : State) : Adm :=
  let l := v.entries h.chain
  match listBad v h with
  | some k => .no 4 k
  | none =>
    if l.any fun e => s.chainCw e.dst then denied 6
    else match s.firstBad h l 0 [] with
      | some i => badData (some i)
      | none =>
        if !(l.all s.entryClean) then .no 9 0
        else
          let p := buildSalvo h l { s := s, codes := if s.entriesFree (l.length + 1) then [] else [9] }
          salvoSettle h l s p.1 p.2

/-- A salvo list that can be found could not be read (R274). -/
def salvoFault (h : Hdr) (v : SalvoList) : Option (Nat × Nat) := if v.located h.chain && v.data.isNone then some (7, 1) else none

/-- The rule row of SALVO. -/
def salvoRule (s : State) (h : Hdr) (v : SalvoList) : DescRule :=
  { op := 0x04, rfn := 1, pay := [fld 16 2 v.count], salvo := some v, sig := true, lv := (v.entries h.chain).any fun e => s.lvOwned e.dst
    fault := salvoFault h v, host := v.entryBytes h.chain }

/-! ### Cancelling (R96) -/

/-- The pending operation a cancel names: a salvo or a leap, by ring and tag. -/
def State.cancelTarget (s : State) (ring tag : Nat) : Option Op :=
  s.host.ops.find? fun o => o.dest == (if s.host.fwdNow then .fwd ring else .ring ring) && o.tag == tag &&
    (match o.body with
      | .salvo _ => true
      | .take t => t.rfn != 0
      | _ => false)

/-- The instant a pending take is judged by: its switch point, or t(RFN) where the destination has no timing. -/
def State.cancelOk (s : State) (t : Take) : Bool :=
  !t.waiting && match s.dstGrid t.dst with
    | some g => decide (s.now + s.marginTicks g < g.actual (s.switchAt t.dst g t.after))
    | none => decide (s.now < t.after)

/-- SALVO_CANCEL after the checks common to all. -/
def cancelBody (h : Hdr) (ring tag : Nat) (s : State) : Adm :=
  if ring > 63 then bad 16
  else match s.cancelTarget ring tag with
    | none => bad 18
    | some o =>
      let ts := match o.body with
        | .take t => [(o.id, t)]
        | _ => s.salvoEntries o.id
      if !s.entriesFree 1 then short 9
      else if ts.all fun p => s.cancelOk p.2 then .yes ((s.abortOp o.id).ok h 0)
      else .yes (s.done h false 0x01 0)

end Sys2Proof.Machine
end

