-- ==== Sys2Proof/Machine/SynOps.lean ====
section
/-! DEFINITION. Shared operations of the timing synthesizers: users, band memory, hop and search, gating and locking, and the base
values their motion starts from (R240 to R255). -/
namespace Sys2Proof.Machine

/-- The family a SYN_TS_CTL value asks for: 1 is F, every other code I. -/
def famCode (v : Nat) : Nat := if v = 1 then 1 else 0
/-- The MULT code in a SYN_TS_CTL value: 5 to 15 count as 3. -/
def multCode (v : Nat) : Nat := if v > 4 then 3 else v

/-! ### Users (R242) -/

/-- Allocated units whose active or pending set names synthesizer `t`. -/
def State.synSous (s : State) (t : Nat) : List Nat :=
  (s.sou.unit.filter fun p => p.2.alloc && p.1 / 40 == t / 4 && (p.2.active.syn == t % 4 || p.2.pending.syn == t % 4)).map (·.1)

/-- Lane `n` takes its clock from synthesizer `t` (R42, R242). -/
def State.laneOf (s : State) (t n : Nat) : Bool :=
  match (s.route n).map (·.src) with
  | none => false
  | some src => match srcPort src with
    | .sou u => u / 40 * 4 + (s.unit u).active.syn == t
    | .pg p => n / 18 == t / 4 && (match s.fmt? (s.pg p).fmt with
      | some f => s.synAuto (n / 18) f.famF == some (t % 4)
      | none => false)
    | _ => false

/-- Audio masters on synthesizer `t`. -/
def State.synAudio (s : State) (t : Nat) : Nat :=
  ((quadPorts t).filter (s.sapMasterOf t)).length + ((quadPorts t).filter (s.aesoOf t)).length

/-- SYN_TS_STAT.USERS. -/
def State.synUsers (s : State) (t : Nat) : Nat :=
  (s.synSous t).length + ((List.range 72).filter (s.laneOf t)).length + s.synAudio t

/-- Users other than unit `u` and the lanes it feeds (R177). -/
def State.synOthers (s : State) (t u : Nat) : Bool :=
  (s.synSous t).any (· != u) || (List.range 72).any (fun n => s.laneOf t n && (s.route n).map (·.src) != some (352 + u))
    || s.synAudio t != 0

/-! ### Band memory (R247) -/

/-- A band entry's capture temperature, in 0.25 °C units. -/
def State.bandTemp (s : State) (t e : Nat) : Int :=
  let v := s.get (R.SYN_TS_BAND t e) F.SYN_TS_BAND_TEMP
  if v < 512 then v else (v : Int) - 1024

/-- Distance of an entry's capture temperature from the present die temperature, in 0.01 K. -/
def State.bandDist (s : State) (t e : Nat) : Nat := (s.pkg.temp - 25 * s.bandTemp t e).natAbs

/-- Entry `e` is valid and holds family and MULT. -/
def State.bandFor (s : State) (t e fam mult : Nat) : Bool :=
  let a := R.SYN_TS_BAND t e
  s.flag a F.SYN_TS_BAND_VALID && s.get a F.SYN_TS_BAND_FAMILY == fam && s.get a F.SYN_TS_BAND_MULT == mult

/-- The usable entry nearest in temperature. -/
def State.bandUsable (s : State) (t fam mult : Nat) : Option Nat :=
  ((List.range 16).filter fun e => s.bandFor t e fam mult && decide (s.bandDist t e ≤ 3000)).foldl (fun b e =>
    match b with
    | none => some e
    | some k => if s.bandDist t e < s.bandDist t k then some e else some k) none

/-- Entry `e` is the one used last. -/
def State.bandTouch (s : State) (t e : Nat) : State :=
  let x := s.syn_ t
  (s.setSyn t { x with lru := e :: x.lru.filter (· != e) }).set (R.SYN_TS_STAT t) F.SYN_TS_STAT_ENTRY e

/-- Store codes for a family and MULT. -/
def State.bandPut (s : State) (t fam mult coarse fine : Nat) : State :=
  let near := (List.range 16).find? fun e => s.bandFor t e fam mult && decide (s.bandDist t e ≤ 1000)
  let invalid := (List.range 16).find? fun e => !s.flag (R.SYN_TS_BAND t e) F.SYN_TS_BAND_VALID
  let e := (near.or invalid).getD (((s.syn_ t).lru.getLast?).getD 0)
  let a := R.SYN_TS_BAND t e
  let tmp := (s.pkg.temp / 25) % 1024
  let s := ((s.set a F.SYN_TS_BAND_VALID 1).set a F.SYN_TS_BAND_FAMILY fam).set a F.SYN_TS_BAND_MULT mult
  let s := ((s.set a F.SYN_TS_BAND_COARSE coarse).set a F.SYN_TS_BAND_FINE fine).set a F.SYN_TS_BAND_TEMP tmp.toNat
  s.bandTouch t e

/-! ### Lock states (Table 8-2) -/

/-- Fix RESIDUAL and offset at their present values as the base of what follows. -/
def State.synFreeze (s : State) (t : Nat) : State :=
  let (r, o) := s.synNow t
  let x := s.syn_ t
  (s.wrInt (R.SYN_TS_RESIDUAL t) r).setSyn t { x with absAt := s.now, absOfs := o }

/-- The first reference edge of the new edge stream at or after `x`: edges stand at whole multiples of 1/f_REF on the time base's own
scale, displaced by RESIDUAL (R240). -/
def State.edgeAt (s : State) (t x : Nat) : Nat :=
  let p := edgeTicks (s.synFam t) (s.synMult t)
  firstAt ((s.synNow t).1 * 2376 % (p : Int)).toNat p x

/-- Start toward lock for the values in force: a hop when band memory holds a usable entry, else a search; a preload search still running is
given up. -/
def State.synSeek (s : State) (t : Nat) : State :=
  let s := s.setSyn t { s.syn_ t with preload := false, gatedBy := 0 }
  match s.bandUsable t (s.synFam t) (s.synMult t) with
  | some e => (s.bandTouch t e).set (R.SYN_TS_STAT t) F.SYN_TS_STAT_STATE 2
  | none => s.set (R.SYN_TS_STAT t) F.SYN_TS_STAT_STATE 1

/-- Values in force follow SYN_TS_CTL. -/
def State.synTarget (s : State) (t fam mult : Nat) : State :=
  let a := R.SYN_TS_STAT t
  ((s.set a F.SYN_TS_STAT_FAMILY fam).set a F.SYN_TS_STAT_MULT mult).setB a F.SYN_TS_STAT_DLL (mult == 0)

/-- A LOCKED synthesizer is gated: by a failing lock criterion (`why` 1) or missing edges (`why` 2). -/
def State.synGate (s : State) (t why : Nat) : State :=
  let s := if s.synState t = 3 then s.synEnd t else s
  let x := s.syn_ t
  (s.synStop t 4).setSyn t { x with gatedBy := why, fromGate := true }

/-- Lock is reached: the output is ungated, the clamp takes its limit from the codes (R253), and its audio masters and pattern-fed lanes
run again. Units resume at their next frame start (R178). -/
def State.synLocked (s : State) (t coarse fine : Nat) : State :=
  let x := s.syn_ t
  let lim := Config.clampCode (s.get (R.SYN_TS_FMAX t) F.SYN_TS_FMAX_TS_FMAX) coarse fine
  let s := s.set (R.SYN_TS_STAT t) F.SYN_TS_STAT_STATE 3
  let s := if x.fromGate then s.inc (R.SYN_TS_RELOCK_CNT t) else s
  let s := s.setSyn t { x with gatedBy := 0, fromGate := false, clamp := some lim }
  (s.audStart t).synLanes t

/-- The clamp holds a loop whose delay code has come down to its limit (R253). -/
def State.clampHolds (s : State) (t coarse fine : Nat) : Bool :=
  match (s.syn_ t).clamp with
  | some k => decide (coarse * 1024 + fine ≤ k)
  | none => false

/-- Synthesizer `t` is OFF: what it remembers of a gating and of a preload search is gone. -/
def State.synOff (s : State) (t : Nat) : State :=
  let s := if s.synState t = 3 then s.synEnd t else s
  let s := s.synStop t 0
  s.setSyn t { s.syn_ t with gatedBy := 0, fromGate := false, preload := false, clamp := none }

/-- A retune by commit changes the family in force and updates the field to match (R177, R243): a LOCKED synthesizer stops and seeks the new
target, one that hops or searches seeks it, a GATED one relocks to it when its gating ends and one that is OFF stays so (Table 8-2). -/
def State.synRetune (s : State) (t fam : Nat) : State :=
  let st := s.synState t
  let s := if st = 3 then (s.synEnd t).synStop t 1 else s
  let s := (s.synTarget t fam (s.synMult t)).set (R.SYN_TS_CTL t) F.SYN_TS_CTL_FAMILY fam
  if st = 0 ∨ st = 4 then s else s.synSeek t

/-- Start a synthesizer from OFF at its written values (R248): with PRELOAD it first searches the other family. -/
def State.synStart (s : State) (t : Nat) (preload : Bool) : State :=
  let c := R.SYN_TS_CTL t
  let s := s.synTarget t (famCode (s.get c F.SYN_TS_CTL_FAMILY)) (multCode (s.get c F.SYN_TS_CTL_MULT))
  let x := s.syn_ t
  let s := s.setSyn t { x with absorb := s.flag c F.SYN_TS_CTL_ABSORB, preload := preload && s.flag c F.SYN_TS_CTL_PRELOAD }
  if (s.syn_ t).preload then s.set (R.SYN_TS_STAT t) F.SYN_TS_STAT_STATE 1 else s.synSeek t

end Sys2Proof.Machine
end

