-- ==== Sys2Proof/Machine/Audio.lean ====
section
/-! DEFINITION. Audio: the meaning of the audio descriptors, of Gecko's sample period and of the port clocks (chapter 6, R183 to
R218). -/
namespace Sys2Proof.Machine

/-! ### AUD_MAP (R195 to R199) -/

/-- A gain in range: −100 dB to +24 dB, or mute. -/
def gainOk (g : Int) : Bool := decide (-10000 ≤ g ∧ g ≤ 2400) || g == -32768

/-- The instant of the first matrix sample at least one sample period after now, and of the first one at or after t(RFN); the
operation is late when the second comes before the first (R197). -/
def State.audExec (s : State) (rfn : Nat) : Nat × Bool :=
  let soon := firstAt 0 audT (s.now + audT)
  let want := firstAt 0 audT (s.rfnTime rfn)
  if rfn = 0 then (soon, false) else if want < soon then (soon, true) else (want, false)

/-- A scheduled map of a channel of the run waits for the same RFN (R198). -/
def State.mapClash (s : State) (a : AudMapReq) (rfn : Nat) : Bool :=
  rfn != 0 && s.maps.any fun p => p.2.rfn == rfn &&
    decide (p.2.req.dst < a.dst + a.count ∧ a.dst < p.2.req.dst + p.2.req.count)

/-- The lowest failing byte offset of an AUD_MAP. -/
def State.mapBad (s : State) (a : AudMapReq) (rfn : Nat) : Option Nat :=
  if rfn ≠ 0 ∧ (s.rfnFar rfn ∨ s.mapClash a rfn) then some 8
  else if !s.dstRunOk a.dst 1 then some 16
  else if a.count = 0 ∨ a.count > 64 ∨ !s.dstRunOk a.dst a.count ∨ (!a.unmap ∧ s.srcRunOk a.src 1 ∧ !s.srcRunOk a.src a.count) then
    some 19
  else if !a.unmap ∧ !s.srcRunOk a.src 1 then some 20
  else if !gainOk a.gain then some 24
  else if a.delay > 96000 then some 28
  else if a.fade > 24000 then some 32
  else none

/-- The destination channels of a run. -/
def runOf (dst count : Nat) : List Nat := (List.range count).map (dst + ·)

/-- Claim an output slot for channel `e` unless it has one, and blocks for its user delay line; answers the slots newly claimed and
the shortfalls. -/
def State.claimSlot (s : State) (e delay : Nat) (acc : List Nat × List Nat) : (List Nat × List Nat) × State :=
  let r96 := s.dst96 e
  let b := blocksOf delay r96
  match s.slotOf e with
  | some (o, x) => (acc, s.setSlot o { x with blocks := max x.blocks b })
  | none => match s.pickSlot r96 with
    | some o => ((acc.1 ++ [o], acc.2), s.setSlot o { dst := e, rate96 := r96, blocks := b })
    | none => ((acc.1, acc.2 ++ [0x0B]), s)

/-- Claim for a run of channels. -/
def State.claimRun (s : State) (delay : Nat) : List Nat → List Nat × List Nat → (List Nat × List Nat) × State
  | [], acc => (acc, s)
  | e :: l, acc =>
    let (acc, s) := s.claimSlot e delay acc
    s.claimRun delay l acc

/-- The maps in flight that have claimed destination channel `e`. -/
def State.claims (s : State) (e : Nat) : List AudMapReq :=
  (s.maps.map (·.2.req)).filter fun a => !a.unmap && decide (a.dst ≤ e ∧ e < a.dst + a.count)

/-- The blocks a slot keeps: those of the delay in force, and those that maps in flight have claimed for it. -/
def State.keptBlocks (s : State) (x : Slot) : Nat :=
  (s.claims x.dst).foldl (fun m a => max m (blocksOf a.delay x.rate96)) (blocksOf x.delay x.rate96)

/-- Free the output slots that only maps no longer in flight had claimed, and the blocks no delay in force or map in flight needs. -/
def State.reapSlots (s : State) : State :=
  let slots := (s.aud.slots.filter fun p => p.2.live || !(s.claims p.2.dst).isEmpty).map fun p =>
    (p.1, { p.2 with blocks := s.keptBlocks p.2 })
  ({ s with aud := { s.aud with slots := slots } } : State).trimAudio

/-- The codes of what a claimed map lacks: granules, in-flight entry, input slots, output slots. -/
def State.mapShort (s s' : State) (codes : List Nat) : List Nat :=
  (if s'.fixAudio.isNone then [5] else []) ++ (if s.entriesFree 1 then [] else [9])
    ++ (if s'.inSlots > 4096 ∧ s.inSlots < s'.inSlots then [0x0A] else []) ++ codes

/-- Source channels a map claims input slots for: a FOLLOW map those its destination's present source gives its channels. -/
def State.mapSources (s : State) (a : AudMapReq) : List Nat :=
  if a.unmap || a.src == 0 then []
  else if epClass a.src == 6 then match s.route (epIndex a.src) with
    | some r => (List.range a.count).map fun k => (s.followRef r.src (epChan a.src + k) a.lsOff).ep
    | none => []
  else runOf a.src a.count

/-- A map whose output slots are claimed in `s1` (`new` of them, with the codes of what it lacks), against the ledgers and lateness. -/
def mapSettle (h : Hdr) (a : AudMapReq) (s : State) (exec : Nat × Bool) (new codes : List Nat) (s1 : State) : Adm :=
  let first := (((runOf a.dst a.count).head?.bind s1.slotOf).map (·.1)).getD 0
  let s' := (s1.addOp h first (.map
    { req := a, rfn := h.rfn, exec := exec.1, late := exec.2, drop := h.dropIfLate, slots := new, srcs := s.mapSources a })).2
  match (s.mapShort s' codes).min? with
  | some c =>
    if decide (6 < c) && decide (s.fstBits < s'.fstBits) && decide (s'.fstLimit < s'.fstBits) then short 6 else short c
  | none => admitFit s s' fun _ => if exec.2 && h.dropIfLate then .late false first s else .yes s'.trimAudio

/-- AUD_MAP after the checks common to all. -/
def audMapBody (h : Hdr) (a : AudMapReq) (s : State) : Adm :=
  match s.mapBad a h.rfn with
  | some k => bad k
  | none =>
    let p := if a.unmap then (([], []), s) else s.claimRun a.delay (runOf a.dst a.count) ([], [])
    mapSettle h a s (s.audExec h.rfn) p.1.1 p.1.2 p.2

/-- An embedder of a lane the LV agent owns, or an LV AES output (R196, R306). -/
def State.lvEndpoint (s : State) (dst : Nat) : Bool :=
  (epClass dst == 1 && s.lvTx (epIndex dst)) || (epClass dst == 4 && s.lvAes (epIndex dst))

/-- A signed 16-bit field as the descriptor holds it. -/
def s16 (v : Int) : Nat := (v % 65536).toNat

/-- The payload of AUD_MAP. -/
def audMapPay (a : AudMapReq) : List Field :=
  [fldBits 16 0 20 a.dst, fld 19 1 a.count, fldBits 20 0 20 a.src, fldBit 23 0 a.unmap, fldBit 23 1 a.invert, fldBit 23 2 a.lsOff,
    fldBit 23 3 a.transp, fldBit 23 4 a.law, fld 24 2 (s16 a.gain), fld 28 4 a.delay, fld 32 2 a.fade]

/-- AUD_MAP. -/
def execAudMap (h : Hdr) (a : AudMapReq) (s : State) : Host.Outcome State Fault Refusal :=
  .next (s.desc { op := 0x50, rfn := 2, pay := audMapPay a, sig := true, lv := s.lvEndpoint a.dst } h (audMapBody h a))

/-- A fade loses slot `o`: its descriptor completes ABORTED when a later fade takes the channel (R200). -/
def State.fadeTaken (s : State) (o : Nat) : State :=
  match ((tabFind s.aud.slots o).bind (·.ramp)).bind (·.op) with
  | some id => s.finish id { status := 0x06 }
  | none => s

/-- A fade's last ramp has ended: its descriptor completes. -/
def State.fadeDone (s : State) (id o : Nat) : State :=
  match s.opBody? id with
  | some (.fade f) =>
    let left := f.slots.filter (· != o)
    if left.isEmpty then s.finish id { status := if f.late then 0x01 else 0x00, rfn := some (s.rfnAt f.exec) }
    else s.setOp id (.fade { f with slots := left })
  | _ => s

/-- An output slot goes free, or back to the maps in flight that have claimed it; a ramp that ran on it is over. -/
def State.endSlot (s : State) (o : Nat) : State :=
  let rop := ((tabFind s.aud.slots o).bind (·.ramp)).bind (·.op)
  let s := match tabFind s.aud.slots o with
    | some x =>
      let bare : Slot := { dst := x.dst, rate96 := x.rate96 }
      if (s.claims x.dst).isEmpty then s.dropSlot o else s.setSlot o { bare with blocks := s.keptBlocks bare }
    | none => s
  let s := s.trimAudio
  match rop with
  | some id => s.fadeDone id o
  | none => s

/-- The switch a take on video destination `d` makes at the sample that begins at `t` (R202). -/
def State.turnAt (s : State) (d t : Nat) : Option Turn :=
  (tabFind s.aud.turn d).bind fun k => if k.at_ ≤ t ∧ t < k.at_ + audT then some k else none

/-- One channel of an AUD_MAP at its execution sample, which begins at `t`; a ramp that runs on it ends with the gain the map gives. A
channel bound to a video destination whose take acts at the same sample takes the source before it, and the take then acts (R198). -/
def State.mapChannel (s : State) (a : AudMapReq) (k t : Nat) : State :=
  match s.slotOf (a.dst + k) with
  | none => s
  | some (o, x) =>
    if a.unmap then
      let s := s.setSlot o { x with unmap := true, follow := none, nextSrc := none, nextAt := none }
      let s := s.fadeTo o ⟨0, none⟩ a.fade a.law
      match tabFind s.aud.slots o with
      | some y => if y.fade.isNone then s.endSlot o else s
      | none => s
    else
      let rop := x.ramp.bind (·.op)
      let bound := epClass a.src == 6
      let d := epIndex a.src
      let turn := if bound then s.turnAt d t else none
      let y : Slot := { x with
        live := true, unmap := false, gain := a.gain, ramp := none, invert := a.invert, transp := a.transp, lsOff := a.lsOff,
        delay := a.delay, nextSrc := turn.map (·.src), nextAt := turn.map (·.at_), nextLen := (turn.map (·.len)).getD 0,
        nextLaw := (turn.map (·.law)).getD false, follow := if bound then some (d, epChan a.src + k) else none }
      let s := s.setSlot o { y with blocks := s.keptBlocks y }
      let s := match rop with
        | some id => s.fadeDone id o
        | none => s
      if bound then match (match turn with | some q => q.old | none => (s.route d).map (·.src)) with
        | some src => s.followTo o (epChan a.src + k) src a.fade a.law a.lsOff
        | none => s.fadeTo o ⟨0, none⟩ a.fade a.law
      else s.fadeTo o ⟨if a.src = 0 then 0 else a.src + k, none⟩ a.fade a.law

/-- A map executes: every channel of its run changes, its route-log entry is made and it completes (R197). -/
def State.runMap (s : State) (p : Nat × MapOp) : State :=
  let m := p.2
  let s := (List.range m.req.count).foldl (fun s k => s.mapChannel m.req k m.exec) s
  let s := s.trimAudio
  let rfn := s.rfnAt m.exec
  let st := if m.late then 0x01 else 0x00
  let (org, ring) := s.opOrigin p.1
  let first := ((s.slotOf m.req.dst).map (·.1)).getD 0
  let input := (s.inSources.findIdx? (· == m.req.src)).getD 0xFFFF
  let s := s.log 5 org st 0 first input rfn ring
  s.finish p.1 { status := st, rfn := some rfn }

/-- MAP_EXECUTE. -/
def execMapExecute (t : Nat) (s : State) : Host.Outcome State Fault Refusal :=
  .next (
    let s := s.at_ t
    (s.maps.filter fun p => decide (p.2.exec ≤ t)).foldl State.runMap s)

/-! ### AUD_FADE (R200) -/

/-- A destination channel is mapped. -/
def State.mapped (s : State) (e : Nat) : Bool := ((s.slotOf e).map (·.2.live)).getD false

/-- AUD_FADE after the checks common to all; every channel of the run must be mapped. -/
def audFadeBody (h : Hdr) (a : AudFadeReq) (s : State) : Adm :=
  let (exec, late) := s.audExec h.rfn
  if h.rfn ≠ 0 ∧ s.rfnFar h.rfn then bad 8
  else if !s.dstRunOk a.dst 1 ∨ !s.mapped a.dst then bad 16
  else if a.count = 0 ∨ a.count > 64 ∨ !s.dstRunOk a.dst a.count ∨ (runOf a.dst a.count).any (fun e => !s.mapped e) then bad 19
  else if !gainOk a.target then bad 20
  else if a.dur > 480000 then bad 24
  else if !s.entriesFree 1 then short 9
  else if late && h.dropIfLate then .late false 0 s
  else .yes (s.addOp h 0 (.fade { req := a, rfn := h.rfn, exec := exec, late := late, drop := h.dropIfLate, started := false, slots := [] })).2

/-- The payload of AUD_FADE: byte 22 [0] names the law, 0 linear in dB. -/
def audFadePay (a : AudFadeReq) : List Field :=
  [fldBits 16 0 20 a.dst, fld 19 1 a.count, fld 20 2 (s16 a.target), fldBit 22 0 (!a.linDb), fld 24 4 a.dur]

/-- AUD_FADE. -/
def execAudFade (h : Hdr) (a : AudFadeReq) (s : State) : Host.Outcome State Fault Refusal :=
  .next (s.desc { op := 0x51, rfn := 2, pay := audFadePay a, sig := true, lv := s.lvEndpoint a.dst } h (audFadeBody h a))

/-- The amplitude of a ramp `k` of `n` steps on, in units of 2^−24: linear in dB (a ramp to or from mute runs to or from −100 dB), or in
amplitude; any ramp to mute runs to −100 dB and then mutes (R200). From mute a ramp linear in amplitude starts at zero (DESIGN CHOICE,
assumption 3). -/
def rampAmp (r : Ramp) (k n : Nat) : Nat :=
  let lo : Int := -10000
  let b := if r.goal = -32768 then lo else r.goal
  if n ≤ k then gainAmp r.goal
  else if r.linDb then
    let a := if r.from_ = -32768 then lo else r.from_
    gainAmpAt (a * ((n - k : Nat) : Int) + b * r.den * k) (n * r.den)
  else (r.amp * (n - k) + gainAmp b * k) / n

/-- The gain a ramp stands at, as a fraction of 0.01 dB. -/
def rampAt (r : Ramp) : Int × Nat :=
  let a := if r.from_ = -32768 then (-10000 : Int) else r.from_
  let b := if r.goal = -32768 then (-10000 : Int) else r.goal
  if r.len ≤ r.pos then (r.goal, 1)
  else if r.linDb then (a * ((r.len - r.pos : Nat) : Int) + b * r.den * r.pos, r.len * r.den)
  else (ampGain (rampAmp r r.pos r.len), 1)

/-- The gain a ramp stands at, in whole 0.01 dB. -/
def rampGain (r : Ramp) : Int := (rampAt r).1 / ((rampAt r).2 : Int)

/-- The amplitude a slot applies, at half-sample `sub` of a sample period (a 96 kHz channel has two). -/
def Slot.amp (x : Slot) (sub : Nat) : Nat :=
  match x.ramp with
  | some r => rampAmp r (2 * r.pos + sub) (2 * r.len)
  | none => gainAmp x.gain

/-- A fade starts on the channels of its run that are mapped. -/
def State.startFade (s : State) (p : Nat × FadeOp) : State :=
  let f := p.2
  let os := (runOf f.req.dst f.req.count).filterMap fun e => if s.mapped e then (s.slotOf e).map (·.1) else none
  let s := os.foldl (fun s o => s.fadeTaken o) s
  let s := s.setOp p.1 (.fade { f with started := true, slots := os })
  let s := os.foldl (fun s o =>
    match tabFind s.aud.slots o with
    | some x =>
      let g := match x.ramp with
        | some r => rampAt r
        | none => (x.gain, 1)
      s.setSlot o { x with
        gain := g.1 / (g.2 : Int), ramp := some ⟨g.1, f.req.target, 0, f.req.dur, f.req.linDb, some p.1, x.amp 0, g.2⟩ }
    | none => s) s
  if os.isEmpty then s.finish p.1 { status := if f.late then 0x01 else 0x00, rfn := some (s.rfnAt f.exec) } else s

/-- Every pending scheduled AUD_MAP and AUD_FADE of a set of operations is removed and completes ABORTED (Table 9-3). -/
def State.abortAudio (s : State) (id : Nat) : State :=
  match s.opBody? id with
  | some (.map _) => (s.finish id { status := 0x06 }).reapSlots
  | some (.fade f) => if f.started then s else s.finish id { status := 0x06 }
  | _ => s

/-! ### SAP_CFG (R209, R210) -/

/-- The divider from f_TS to a clock of `f` Hz, in 2^−24 (R210). -/
def divider (f : Nat) : Nat := (148500000 * 2 ^ 24 + f / 2) / f

/-- A slot or data width's code in SAP_CTL. -/
def slotCode (b : Nat) : Nat := if b = 16 then 0 else if b = 24 then 1 else 2
def dataCode (b : Nat) : Nat := if b = 16 then 0 else if b = 20 then 1 else 2

/-- A port's bit clock in Hz. -/
def sapBclk (r : SapReq) : Nat := r.slots * r.slotBits * (if r.rate96 then 96000 else 48000)

/-- An AUD_MAP in force or in flight names port `n`. -/
def State.portMapped (s : State) (n : Nat) : Bool :=
  let at_ := fun (e : Nat) => epClass e == 3 && epIndex e == n
  s.aud.slots.any (fun p => at_ p.2.dst || (p.2.follow.isNone && at_ p.2.src.ep)) || s.maps.any fun p =>
    at_ p.2.req.dst || (!p.2.req.unmap && at_ p.2.req.src)

/-- SAP_CFG changes a setting that a mapped port holds fast (R209). -/
def State.sapHeld (s : State) (r : SapReq) : Bool :=
  let a := R.SAP_CTL r.port
  s.portMapped r.port &&
    (s.get a F.SAP_CTL_MODE != r.mode || s.flag a F.SAP_CTL_MASTER != r.master || s.flag a F.SAP_CTL_RATE96 != r.rate96
      || s.get a F.SAP_CTL_SLOTS_M1 + 1 != r.slots || s.get a F.SAP_CTL_SLOT_BITS != slotCode r.slotBits
      || s.get a F.SAP_CTL_DATA_BITS != dataCode r.dataBits)

/-- The synthesizer a master port takes (R209). -/
def State.sapSyn (s : State) (r : SapReq) : Option Nat :=
  if r.syn = 0xFF then lowest 4 fun j => s.synState (r.port / 4 * 4 + j) == 3 && s.synForAudio (r.port / 4 * 4 + j)
  else if r.syn ≤ 3 ∧ s.synForAudio (r.port / 4 * 4 + r.syn) then some r.syn else none

/-- The lowest failing byte offset of a SAP_CFG. -/
def State.sapBad (s : State) (r : SapReq) : Option Nat :=
  if r.port > 15 then some 16
  else if r.mode > 2 then some 17
  else if (r.mode < 2 ∧ r.slots ≠ 2) ∨ r.slots < 2 ∨ r.slots > 32 then some 18
  else if (r.slotBits ≠ 16 ∧ r.slotBits ≠ 24 ∧ r.slotBits ≠ 32) ∨ sapBclk r > 49152000 then some 19
  else if (r.dataBits ≠ 16 ∧ r.dataBits ≠ 20 ∧ r.dataBits ≠ 24) ∨ r.slotBits < r.dataBits then some 20
  else if r.fsWidth > 2 then some 21
  else if r.master ∧ (s.sapSyn r).isNone then some 22
  else none

/-- Store a port's settings; a master's divider follows them, and a port whose clocking changes starts afresh. -/
def State.sapStore (s : State) (r : SapReq) : State :=
  let n := r.port
  let a := R.SAP_CTL n
  let j := (s.sapSyn r).getD 0
  let d := divider (sapBclk r)
  let s := ((s.setB a F.SAP_CTL_EN r.en).setB a F.SAP_CTL_MASTER r.master).setB a F.SAP_CTL_RATE96 r.rate96
  let s := ((s.set a F.SAP_CTL_MODE r.mode).set a F.SAP_CTL_SLOTS_M1 (r.slots - 1)).set a F.SAP_CTL_SLOT_BITS (slotCode r.slotBits)
  let s := ((s.set a F.SAP_CTL_DATA_BITS (dataCode r.dataBits)).setB a F.SAP_CTL_BIT_DELAY r.bitDelay).set a F.SAP_CTL_FS_WIDTH r.fsWidth
  let s := s.setB a F.SAP_CTL_BCLK_EDGE r.bclkEdge
  let s := if r.master then
      let s := (s.set a F.SAP_CTL_SYN j).set (R.SAP_DIV_INT n) F.SAP_DIV_INT_INT (d / 2 ^ 24)
      (s.set (R.SAP_DIV_FRAC n) F.SAP_DIV_FRAC_FRAC d).takeSetting [R.SAP_DIV_INT n, R.SAP_DIV_FRAC n]
    else s
  let c := s.clk n
  if !r.en then s.setClk n {}
  else if r.master then s.setClk n { c with st := if s.synState (n / 4 * 4 + j) = 3 then .master else .lost, fifo := 32, pos := 0 }
  else if c.st == .master then s.setClk n {} else s

/-- SAP_CFG after the checks common to all. -/
def sapCfgBody (h : Hdr) (r : SapReq) (s : State) : Adm :=
  if r.port ≤ 15 ∧ s.sapHeld r then denied 6
  else match s.sapBad r with
    | some k => bad k
    | none => if !s.entriesFree 1 then short 9 else .yes ((s.sapStore r).ok h 0)

/-- The payload of SAP_CFG. -/
def sapPay (r : SapReq) : List Field :=
  [fld 16 1 r.port, fldBit 17 0 r.en, fldBit 17 1 r.master, fldBit 17 2 r.rate96, fldBits 17 3 2 r.mode, fld 18 1 r.slots, fld 19 1 r.slotBits,
    fld 20 1 r.dataBits, fldBit 21 0 r.bitDelay, fldBits 21 1 2 r.fsWidth, fldBit 21 3 r.bclkEdge, fld 22 1 r.syn]

/-- SAP_CFG. -/
def execSapCfg (h : Hdr) (r : SapReq) (s : State) : Host.Outcome State Fault Refusal :=
  .next (s.desc { op := 0x52, rfn := 0, pay := sapPay r } h (sapCfgBody h r))

/-! ### Port clocks (R207, Table 6-6) -/

/-- The embedder of lane `n` is tracked: the lane follows a DIRECT source off the reference (R42, R207). -/
def State.embedTracked (s : State) (n : Nat) : Bool :=
  match s.route n, s.dstGrid n with
  | some r, some g => r.kind == 1 && !g.ref
  | _, _ => false

/-- The key of a tracked port in the clock table. -/
def audKey : AudPort → Nat
  | .sap n => n
  | .aesi n => 16 + n
  | .sdi n => 32 + n
  | .ip f => 128 + f
  | .sdiTx n => 2048 + n

/-- A tracked port is enabled and its signal is there. -/
def State.audUp (s : State) : AudPort → Bool
  | .sap n => s.flag (R.SAP_CTL n) F.SAP_CTL_EN && !s.flag (R.SAP_CTL n) F.SAP_CTL_MASTER && !s.inReset 3 n
  | .aesi n => s.flag (R.AESI_CTL n) F.AESI_CTL_EN && !s.inReset 4 n
  | .sdi n => (s.rx n).meas.isSome
  | .ip f => match tabFind s.media.rxFlow (1024 + f) with
    | some x => !x.lost
    | none => false
  | .sdiTx n => s.embedTracked n

/-- A history bit of an audio port, where it has registers. -/
def State.audRaise (s : State) (p : AudPort) (sap aesi : Bits) : State :=
  match p with
  | .sap n => s.raise (Hist.sap n) sap
  | .aesi n => s.raise (Hist.aesi n) aesi
  | _ => s

/-- CLOCK_ACQUIRE. -/
def execClockAcquire (p : AudPort) (off : Int) (s : State) : Host.Outcome State Fault Refusal :=
  .next (
    let k := audKey p
    if s.audUp p && (s.clk k).st == .lost && decide (off.natAbs ≤ 1000000) then
      s.setClk k { s.clk k with st := .acquire, off := off, fifo := 32, pos := 0, rampIn := none, rampOut := none }
    else s)

/-- CLOCK_STEERED: offset within ±200 ppm and FIFO within 32 ± 8. -/
def execClockSteered (p : AudPort) (off : Int) (fifo : Nat) (s : State) : Host.Outcome State Fault Refusal :=
  .next (
    let k := audKey p
    let c := s.clk k
    if c.st == .acquire && decide (off.natAbs ≤ 20000 ∧ 24 ≤ fifo ∧ fifo ≤ 40) then
      s.setClk k { c with st := .steered, off := off, fifo := fifo, integ := off * 10000, rest := 0, rampIn := some 0 }
    else s)

/-- CLOCK_WIDE: from ACQUIRE the channels ramp in; from STEERED there is no gap. The NCO is held at ±200 ppm, and the resampler takes up the
rest. -/
def execClockWide (p : AudPort) (off : Int) (s : State) : Host.Outcome State Fault Refusal :=
  .next (
    let k := audKey p
    let c := s.clk k
    if (c.st == .acquire || c.st == .steered) && decide (20000 < off.natAbs) then
      let lim : Int := if off < 0 then -20000 else 20000
      (s.setClk k { c with st := .wide, off := lim, rest := off - lim, integ := off * 10000, rampIn := if c.st == .acquire then some 0 else c.rampIn }).audRaise p
        F.SAP_HIST_STEER_LIMIT F.AESI_HIST_STEER_LIMIT
    else s)

/-- CLOCK_WIDE_RETURN: within ±150 ppm. -/
def execClockWideReturn (p : AudPort) (off : Int) (s : State) : Host.Outcome State Fault Refusal :=
  .next (
    let k := audKey p
    let c := s.clk k
    if c.st == .wide && decide (off.natAbs ≤ 15000) then
      s.setClk k { c with st := .steered, off := off, integ := off * 10000, rest := 0 } else s)

/-- CLOCK_LOCKED: within ±0.1 ppm and 32 ± 2. -/
def execClockLocked (p : AudPort) (off : Int) (fifo : Nat) (s : State) : Host.Outcome State Fault Refusal :=
  .next (
    let k := audKey p
    let c := s.clk k
    if c.st == .steered && decide (off.natAbs ≤ 10 ∧ 30 ≤ fifo ∧ fifo ≤ 34) then
      s.setClk k { c with st := .locked, off := off, fifo := fifo, rest := 0 }
    else s)

/-- CLOCK_UNLOCK: FIFO outside 32 ± 16. -/
def execClockUnlock (p : AudPort) (fifo : Nat) (s : State) : Host.Outcome State Fault Refusal :=
  .next (
    let k := audKey p
    let c := s.clk k
    if c.st == .locked && decide (fifo < 16 ∨ 48 < fifo) then
      s.setClk k { c with st := .steered, fifo := fifo, integ := c.off * 10000 } else s)

/-- FIFO_SLIP: one sample is repeated (`full` false) or dropped: the read point falls back or moves on by one in every channel's FIFO. -/
def execFifoSlip (p : AudPort) (full : Bool) (s : State) : Host.Outcome State Fault Refusal :=
  .next (
    let k := audKey p
    let c := s.clk k
    if c.st == .steered || c.st == .wide then
      let s := s.setClk k { c with slips := min 0xFFFFFFFF (c.slips + 1), fifo := if full then 63 else 1 }
      match p with
      | .sap n => (s.inc (R.SAP_SLIP_CNT n)).raise (Hist.sap n) F.SAP_HIST_FIFO_SLIP
      | _ => s
    else s)

/-- AUDIO_CLOCK_LOST (Table 6-7). -/
def execAudioClockLost (p : AudPort) (s : State) : Host.Outcome State Fault Refusal :=
  .next (
    let k := audKey p
    let c := s.clk k
    if c.st == .lost || c.st == .master then s
    else (s.clkLost k).audRaise p F.SAP_HIST_CLOCK_LOST F.AESI_HIST_CLOCK_LOST)

/-! ### Port settings and frames -/

/-- The slot masks in force. -/
def State.rxMask (s : State) (n : Nat) : Word := tabGet 0xFFFFFFFF s.aud.rxMask n
def State.txMask (s : State) (n : Nat) : Word := tabGet 0xFFFFFFFF s.aud.txMask n

/-- SAP_MASK_APPLY: written masks apply from the next TDM frame; newly enabled slots ramp in over 1 ms (R212). -/
def execSapMaskApply (n : Fin 16) (s : State) : Host.Outcome State Fault Refusal :=
  .next (
    let w := s.rd (R.SAP_RX_MASK n)
    let v := s.rd (R.SAP_TX_MASK n)
    if w = s.rxMask n ∧ v = s.txMask n then s
    else
      let new := fun (t : Tab Nat) (k : Nat) (bits : Word) =>
        (List.range 32).foldl (fun t i => if bits.getLsbD i then tabPut t (32 * k + i) 0 else t) t
      let a := s.aud
      let mr := new (new a.maskRamp n (w &&& ~~~(s.rxMask n))) (16 + n) (v &&& ~~~(s.txMask n))
      let s := { s with aud := { a with
        rxMask := tabSet 0xFFFFFFFF a.rxMask n w, txMask := tabSet 0xFFFFFFFF a.txMask n v, maskRamp := mr } }
      s.raise (Hist.sap n) F.SAP_HIST_MASK_APPLIED)

/-- SAP_FRAME_ERR. -/
def execSapFrameErr (n : Fin 16) (s : State) : Host.Outcome State Fault Refusal :=
  .next (if s.flag (R.SAP_CTL n) F.SAP_CTL_EN then s.raise (Hist.sap n) F.SAP_HIST_FRAME_ERR else s)

/-- One bit of the AES3 channel-status CRC: x^8 + x^4 + x^3 + x^2 + 1, least significant bit first (assumption 19). -/
def aesBit (c : Nat) : Nat := if c % 2 = 1 then Nat.xor (c / 2) 0xB8 else c / 2

/-- The CRC of channel-status bytes 0–22. -/
def aesCrc (l : List Nat) : Nat :=
  l.foldl (fun c b => let c := Nat.xor c (b % 256); aesBit (aesBit (aesBit (aesBit (aesBit (aesBit (aesBit (aesBit c)))))))) 0xFF

/-- AES_CS_BLOCK: a block whose CRC fails keeps the previous bytes (R213). -/
def execAesCsBlock (n : Fin 16) (bytes : List Nat) (s : State) : Host.Outcome State Fault Refusal :=
  .next (
    if !s.flag (R.AESI_CTL n) F.AESI_CTL_EN || (s.clk (16 + n)).st == .lost then s
    else if bytes.length ≠ 24 ∨ aesCrc (bytes.take 23) ≠ (bytes[23]?).getD 0 then s.raise (Hist.aesi n) F.AESI_HIST_CS_CRC_ERR
    else
      let s := (List.range 6).foldl (fun s w =>
        s.wr (R.AESI_CS n w) (BitVec.ofNat 32 (unle (((bytes.drop (4 * w)).take 4).map (BitVec.ofNat 8))))) s
      let na := (bytes.head?.getD 0) / 2 % 2
      if s.get (R.AESI_STAT n) F.AESI_STAT_NONAUDIO = na then s
      else (s.set (R.AESI_STAT n) F.AESI_STAT_NONAUDIO na).raise (Hist.aesi n) F.AESI_HIST_NONAUDIO_CHANGE)

/-- AES_PARITY_ERROR: the subframe's sample, the `k`-th of its channel in the coming period, repeats the previous one. -/
def execAesParityError (n : Fin 16) (subB : Bool) (k : Nat) (s : State) : Host.Outcome State Fault Refusal :=
  .next (
    if s.flag (R.AESI_CTL n) F.AESI_CTL_EN then
      let s := { s with aud := { s.aud with hold := (audEp 4 n (if subB then 1 else 0), k) :: s.aud.hold } }
      (s.inc (R.AESI_PARITY_CNT n)).raise (Hist.aesi n) F.AESI_HIST_PARITY_ERR
    else s)

/-- A write of AESO_CTL (R214, R218, R255). -/
def State.aesoWrite (s : State) (n v : Nat) : State :=
  let a := R.AESO_CTL n
  let s := ((s.set a F.AESO_CTL_RATE96 (v / 16)).set a F.AESO_CTL_SYN (v / 4)).set a F.AESO_CTL_CS_PASS (v / 2)
  let s := s.set a F.AESO_CTL_EN v
  let t := n / 4 * 4 + v / 4 % 4
  if v % 2 = 0 then s.set (R.AESO_STAT n) F.AESO_STAT_ACTIVE 0
  else if !s.synForAudio t then
    (s.set (R.AESO_STAT n) F.AESO_STAT_ACTIVE 0).raise (Hist.syn t) F.SYN_TS_HIST_CFG_ERR
  else
    let r := v / 16 % 2
    let d := divider (128 * (if r = 1 then 96000 else 48000))
    let s := (s.set (R.AESO_STAT n) F.AESO_STAT_RATE96 r).set (R.AESO_DIV_INT n) F.AESO_DIV_INT_INT (d / 2 ^ 24)
    let s := s.set (R.AESO_DIV_FRAC n) F.AESO_DIV_FRAC_FRAC d
    s.setB (R.AESO_STAT n) F.AESO_STAT_ACTIVE (s.synState t == 3)

/-- AESO_EN_WRITE. -/
def execAesoEnWrite (n : Fin 16) (v : Nat) (s : State) : Host.Outcome State Fault Refusal := .next (s.byHost (R.AESO_CTL n) fun s => s.aesoWrite n v)

/-! ### Lip-sync (R204, R205) -/

/-- Latency from a chain's source port to the matrix (Table 6-4), in ns. -/
def State.audIn (s : State) (src : Nat) : Nat :=
  let fifo := 666667
  match srcPort src with
  | .sdi _ => ((s.fmt? (s.srcFmt src)).map fun f => f.period / f.totL / ticksPerNs).getD 0 + fifo
  | .ip _ => max 2 (min 80 (s.get R.AUD_CTL F.AUD_CTL_LINK_OFS)) * 125000 + fifo
  | _ => 0

/-- LS_JUMP_MS in samples and LS_AVG, clamped. -/
def State.lsJump (s : State) : Nat := 48 * max 5 (min 200 (s.get R.AUD_CTL F.AUD_CTL_LS_JUMP_MS))
def State.lsAvg (s : State) : Nat := max 1 (min 64 (s.get R.AUD_CTL F.AUD_CTL_LS_AVG))

/-- A path line's length changes: the blocks it needs are claimed, or it keeps its present length and DELAY_CLAMP sets (R206). -/
def State.pathLen (s : State) (u d : Nat) (p : PathLine) : State :=
  let b := blocksOf d false
  let s' := { s with aud := { s.aud with paths := tabPut s.aud.paths u { p with delay := d, blocks := b } } }
  match s'.fixAudio with
  | some s' => s'
  | none => ({ s with aud := { s.aud with paths := tabPut s.aud.paths u p } } : State).raise Hist.aud F.AUD_HIST_DELAY_CLAMP

/-- LIPSYNC_MEASURE: at `t` the first active line of the unit's frame leaves the crosspoint. -/
def execLipsyncMeasure (u : Fin 160) (t : Nat) (s : State) : Host.Outcome State Fault Refusal :=
  .next (
    let s := s.at_ t
    match s.chainOf u, tabFind s.aud.paths u, (s.unit u).sel1.bind s.buf with
    | some c, some p, some b =>
      if b.done = 0 then s
      else
        let v := s.nsNow - b.info.ptpNs
        let h := (v :: p.vHist).take s.lsAvg
        let mean := h.sum / h.length
        let d := min 96000 (((mean - s.audIn c.src) * 48000 + 500000000) / 1000000000)
        let p := { p with vHist := h, target := some d }
        if (tabFind s.aud.paths u).bind (·.target) = none then s.pathLen u d p
        else
          let s' := { s with aud := { s.aud with paths := tabPut s.aud.paths u p } }
          let diff := if d < p.delay then p.delay - d else d - p.delay
          if s.lsJump < diff ∧ p.jump.isNone then
            let s' := { s with aud := { s.aud with paths := tabPut s.aud.paths u { p with jump := some 0 } } }
            (s'.inc R.AUD_LS_JUMP_CNT).raise Hist.aud F.AUD_HIST_LS_JUMP
          else s'
    | _, _, _ => s)

/-! ### Gecko's sample period (R192) -/

/-- Samples per period of an input port's clock key: two at 96 kHz. -/
def State.keyRate (s : State) (k : Nat) : Nat :=
  if s.src96 (if k < 16 then audEp 3 k 0 else if k < 32 then audEp 4 (k - 16) 0 else if k < 128 then audEp 1 (k - 32) 0 else 0) then 2 else 1

/-- PTP is the selected reference: REF_STAT.SELECTED is 4 or 5. -/
def State.onPtp (s : State) : Bool := s.get R.REF_STAT F.REF_STAT_SELECTED == 4 || s.get R.REF_STAT F.REF_STAT_SELECTED == 5

/-- A port's clock in force: an IP flow that is received is LOCKED whenever PTP is the selected reference (R207). -/
def State.clkNow (s : State) (k : Nat) : Clk :=
  let c := s.clk k
  if decide (128 ≤ k ∧ k < 2048) && s.onPtp && c.st != .locked &&
      ((tabFind s.media.rxFlow (1024 + (k - 128))).map fun x => !x.lost).getD false then
    { c with st := .locked, fifo := 32, pos := 0, rampIn := none, rampOut := none }
  else c

/-- The tracking state a port shows and acts by. -/
def State.clkSt (s : State) (k : Nat) : ClkState := (s.clkNow k).st

/-- The clock key of an endpoint's source port, where it is tracked or may be a master. -/
def srcKey (e : Nat) : Option Nat :=
  match epClass e with
  | 1 => some (32 + epIndex e)
  | 2 => some (128 + epIndex e)
  | 3 => some (epIndex e)
  | 4 => some (16 + epIndex e)
  | _ => none

/-- A source's clock is LOCKED. -/
def State.srcLocked (s : State) (e : Nat) : Bool :=
  match srcKey e with
  | some k => s.clkSt k == .locked || s.clkSt k == .master
  | none => true

/-- A destination's clock is LOCKED: on the matrix grid by definition, a tracked embedder or a serial port by its own state. -/
def State.dstLocked (s : State) (e : Nat) : Bool :=
  match epClass e with
  | 1 => !s.embedTracked (epIndex e) || s.clkSt (2048 + epIndex e) == .locked
  | 3 => s.clkSt (epIndex e) == .locked || s.clkSt (epIndex e) == .master
  | _ => true

/-! Each source port's channels enter a FIFO, whose fill the port's clock holds (R192, R207). A channel's history begins with the newest
sample; the FIFO's newest `fifo` samples are those not yet read, and the filter reads around the next. -/

/-- The bits a source port carries (Tables 6-2, 6-3, 6-8). -/
def State.portBits (s : State) (e : Nat) : Nat :=
  match epClass e with
  | 1 => if s.srcFmt (epIndex e) < 2 ∧ !(s.laneAudio (epIndex e)).wide then 20 else 24
  | 2 => if ((tabFind s.media.rxFlow (1024 + epIndex e)).map fun x => x.rcd.l24 || x.rcd.st31).getD true then 24 else 16
  | 3 => match s.get (R.SAP_CTL (epIndex e)) F.SAP_CTL_DATA_BITS with
    | 0 => 16
    | 1 => 20
    | _ => 24
  | _ => 24

/-- A port's sample of `bits` bits in two's complement, left-aligned in 24 (R185). -/
def leftAlign (bits : Nat) (x : Int) : Int := ((x + 2 ^ (bits - 1)) % 2 ^ bits - 2 ^ (bits - 1)) * 2 ^ (24 - bits)

/-- The values delivered for an endpoint in this period, in order. -/
def delivered (inputs : List (Nat × Int)) (e : Nat) : List Int := (inputs.filter fun p => p.1 == e).map (·.2)

/-- How many samples port key `k` brings in this period: as many as the channel with the most; where no channel brings one, as many of silence
as the port's rate has, unless its clock brings none in the period (`idle`). -/
def State.portCount (s : State) (inputs : List (Nat × Int)) (idle : List Nat) (k : Nat) : Nat :=
  let m := ((inputs.filter fun p => srcKey p.1 == some k).map fun p => (delivered inputs p.1).length).foldl max 0
  if m ≠ 0 then m else if idle.contains k then 0 else s.keyRate k

/-- The samples of received audio flows whose playout time, media time plus LINK_OFS, is matrix sample `n`, and their queues after it
(R188). -/
def State.playout (s : State) (n : Nat) : List (Nat × Int) × State :=
  let ofs := 6 * max 2 (min 80 (s.get R.AUD_CTL F.AUD_CTL_LINK_OFS))
  let due := s.media.rxFlow.flatMap fun p =>
    if p.1 / 1024 ≠ 1 ∨ n < ofs then []
    else ((tabFind p.2.play (n - ofs)).getD []).zipIdx.map fun x => (audEp 2 (p.1 % 1024) x.2, x.1)
  (due, { s with media := { s.media with rxFlow := s.media.rxFlow.map fun p =>
    (p.1, { p.2 with play := p.2.play.filter fun q => decide (n < q.1 + ofs) }) } })

/-- The weight, in 48ths, of a serial port's slot mask: silent when disabled, ramping when newly enabled (R212). -/
def State.maskW (s : State) (tx : Bool) (n ch : Nat) : Int :=
  let m := if tx then s.txMask n else s.rxMask n
  if !m.getLsbD ch then 0
  else match tabFind s.aud.maskRamp (32 * (if tx then 16 + n else n) + ch) with
    | some k => (min k 48 : Nat)
    | none => 48

/-- The history of a source channel. -/
def State.histOf (s : State) (e : Nat) : List Int := tabGet [] s.aud.hist e

/-- The `i`-th sample that enters a source channel's FIFO in this period, after `prev`: what the port delivers, silence where it delivers none; the
previous sample after an error; a ramp from the last sample to zero once its clock is lost, silence until it is steered, and a ramp
in. -/
def State.sampleIn (s : State) (inputs : List (Nat × Int)) (e i : Nat) (prev : Int) : Int :=
  let h := s.histOf e
  let raw := leftAlign (s.portBits e) (((delivered inputs e)[i]?).getD 0)
  let raw := if epClass e = 3 then raw * s.maskW false (epIndex e) (epChan e) / 48 else raw
  let raw := if s.aud.hold.contains (e, i) then prev else raw
  if s.srcChans e ≤ epChan e ∨ e = 0 then 0
  else match srcKey e with
    | none => raw
    | some k =>
      let c := s.clkNow k
      match c.st with
      | .lost => match c.rampOut with
        | some j => h.getD (s.keyRate k * j) 0 * (32 - (min j 32 : Nat) : Int) / 32
        | none => 0
      | .acquire => 0
      | _ => match c.rampIn with
        | some j => raw * (min j 48 : Nat) / 48
        | none => raw

/-- The samples that enter a source channel's FIFO in this period, newest first. -/
def State.pushes (s : State) (inputs : List (Nat × Int)) (idle : List Nat) (e : Nat) : List Int :=
  let n := match srcKey e with
    | none => 1
    | some k => if s.clkSt k == .lost || s.clkSt k == .master then s.keyRate k else s.portCount inputs idle k
  (List.range n).foldl (fun l i => s.sampleIn inputs e i (l.headD ((s.histOf e).headD 0)) :: l) []

/-- The ratio, in 10^−8, at which a clock's samples are read: the NCO's, and in WIDE what the resampler takes up beside it (Table 6-6). -/
def Clk.ratio (c : Clk) : Nat :=
  match c.st with
  | .steered => (100000000 + c.off).toNat
  | .wide => (100000000 + c.off + c.rest).toNat
  | _ => 100000000

/-- The loop steers the NCO, in WIDE the resampler beside it, to hold the FIFO at 32 samples, with the bandwidth 1 Hz of STEERED and 10 Hz of
WIDE: a critically damped loop of second order that does nothing within a sample of 32 (DESIGN CHOICE, assumption 194). -/
def Clk.steer (c : Clk) : Clk :=
  let e : Int := (c.fifo * 100000000 : Nat) - (c.pos : Int) - 3200000000
  let e : Int := if 100000000 < e then e - 100000000 else if e < -100000000 then e + 100000000 else 0
  match c.st with
  | .steered =>
    let i := c.integ + 17135 * e / 100000000
    { c with integ := i, off := max (-20000) (min 20000 ((i + 261799388 * e / 100000000) / 10000)) }
  | .wide =>
    let i := c.integ + 1713474 * e / 100000000
    { c with integ := i, rest := (i + 2617993878 * e / 100000000) / 10000 - c.off }
  | _ => c

/-- A clock's FIFO and read point after a period in which `d` samples came, at `r` per period: STEERED and WIDE read at the loop's ratio;
LOCKED reads one for one, its phase slewing to a whole sample at 50 ppm (Table 6-6). -/
def Clk.advance (c : Clk) (r d : Nat) : Clk :=
  match c.st with
  | .steered | .wide =>
    let x := c.pos + r * c.ratio
    ({ c with fifo := min 64 (c.fifo + d) - x / 100000000, pos := x % 100000000 } : Clk).steer
  | .locked =>
    let on := decide (50000000 ≤ c.pos)
    let done := on && decide (100000000 ≤ c.pos + 5000 * r)
    { c with fifo := min 64 (c.fifo + d) - (if done then r + 1 else r)
             pos := if done then 0 else if on then c.pos + 5000 * r else c.pos - 5000 * r }
  | _ => c

/-- The samples of a period enter the FIFOs and the path delay lines, and the read points move on. -/
def State.intake (s : State) (inputs : List (Nat × Int)) (idle : List Nat) : State :=
  let es := (tabKeys s.aud.hist ++ inputs.map (·.1) ++ s.aud.paths.flatMap fun p => p.2.eps).eraseDups
  let new := es.map fun e => (e, s.pushes inputs idle e)
  let trim := fun (l : List Int) => if l.all (· == 0) then [] else l
  let hist := new.foldl (fun h p => tabSet [] h p.1 (trim ((p.2 ++ tabGet [] h p.1).take 97))) s.aud.hist
  let paths := s.aud.paths.map fun p => (p.1, { p.2 with
    ran := min 96001 (p.2.ran + 1)
    hold := p.2.eps.foldl (fun h e => tabPut h e ((s.pushes inputs idle e ++ tabGet [] h e).take
      (98 + 4096 * if s.src96 e then blocksOf p.2.delay true else p.2.blocks))) p.2.hold })
  let ks := (tabKeys s.aud.clk ++ es.filterMap srcKey).eraseDups
  let clk := ks.foldl (fun t k => tabSet {} t k ((s.clkNow k).advance (s.keyRate k) (s.portCount inputs idle k))) s.aud.clk
  { s with aud := { s.aud with hist := hist, paths := paths, clk := clk } }

/-- The value, in units of 2^−24, that lies `d` hundred-millionths of a sample behind the newest: one sample as it is at the filter's
unit-impulse phase, else the sum of the taps of the phase (R192, assumption 39). -/
def filterAt (l : List Int) (d : Nat) : Int :=
  let i := (d + 99999999) / 100000000
  let ph := (i * 100000000 - d) * 1024 / 100000000
  if ph = 0 then l.getD i 0 * 2 ^ 24
  else ((List.range 32).map fun k => Config.gridTap ph k * l.getD (i + k - 16) 0).sum

/-- How far behind its newest sample a source is read at half `sub` of a period, in hundred-millionths: the FIFO's fill, none for the
host and silence. -/
def State.readDepth (s : State) (e sub : Nat) : Nat :=
  match srcKey e with
  | none => 0
  | some k =>
    let c := s.clkNow k
    let step := c.ratio
    let r := s.keyRate k
    c.fifo * 100000000 + (r - 1) * step - c.pos - sub * (r * step) / 2

/-- What a slot reads, resampled to the matrix grid in units of 2^−24: the port's FIFO, or the chain's path delay line, which reads zeros
for the part it does not hold. -/
def State.readRef (s : State) (r : SrcRef) (sub : Nat) : Int :=
  let d := s.readDepth r.ep sub
  match r.path.bind (tabFind s.aud.paths) with
  | none => filterAt (s.histOf r.ep) d
  | some p =>
    let back := (p.delay * 100000000 + p.slew * 50000).toNat * (if s.src96 r.ep then 2 else 1)
    let x := if p.ran < p.delay then 0 else filterAt (tabGet [] p.hold r.ep) (d + back)
    match p.jump with
    | none => x
    | some j => if j < 120 then x * (120 - j : Nat) / 120 else x * (min (j - 120) 120 : Nat) / 120

/-- The bits a destination port carries (R185, Table 6-2). -/
def State.dstBitsOf (s : State) (e : Nat) : Nat :=
  match epClass e with
  | 1 => if ((s.route (epIndex e)).map fun r => s.srcFmt r.src).getD 0xFF < 2 then 20 else 24
  | 2 => if ((tabFind s.media.txFlow (1024 + epIndex e)).map fun x => x.rcd.l24 || x.rcd.st31).getD true then 24 else 16
  | 3 => match s.get (R.SAP_CTL (epIndex e)) F.SAP_CTL_DATA_BITS with
    | 0 => 16
    | 1 => 20
    | _ => 24
  | _ => 24

/-- Round `x` × 2^−k to nearest at `bits` bits, saturating, as a left-aligned 24-bit number; and whether it clipped. -/
def roundOut (k bits : Nat) (x : Int) : Int × Bool :=
  let u : Int := 2 ^ (k + 24 - bits)
  let r := (x + u / 2) / u
  let hi : Int := 2 ^ (bits - 1) - 1
  let lo : Int := -(2 ^ (bits - 1) : Int)
  let c := if hi < r then hi else if r < lo then lo else r
  (c * 2 ^ (24 - bits), c != r)

/-- User delay in force: with the path delay at most 96,000 samples (R206). -/
def State.userDelay (s : State) (x : Slot) : Nat :=
  let p := match x.src.path with
    | some u => ((tabFind s.aud.paths u).map (·.delay)).getD 0
    | none => 0
  min x.delay (96000 - p)

/-- A slot's source, or its two weighted by their crossfade, in units of 2^−48; a 96 kHz channel fades in twice as many steps (R100). -/
def State.slotMix (s : State) (x : Slot) (sub : Nat) : Int :=
  let xin := s.readRef x.src sub
  match x.fade with
  | none => xin * 2 ^ 24
  | some f =>
    let (wo, wi) := f.weights sub
    xin * wi + s.readRef f.out sub * (wo * f.start / 2 ^ 24 : Nat)

/-- The slot's sample in units of 2^−72, before rounding (R192): crossfade, gain and polarity, user delay. A transparent channel has no gain,
polarity or fade (R199). A disabled slot of a serial port is not driven (R212). -/
def State.gecko (s : State) (x : Slot) (sub : Nat) : Slot × Int :=
  let mix := s.slotMix x sub
  let y := if s.transparent x then mix * 2 ^ 24 else (if x.invert then -mix else mix) * x.amp sub
  let d := s.userDelay x
  let d := if x.rate96 then 2 * d else d
  let line := if x.blocks = 0 then [] else (y :: x.line).take (4096 * x.blocks + 1)
  let z := if d = 0 then y else line.getD d 0
  let sap := epClass x.dst == 3
  let z := if sap then z * s.maskW true (epIndex x.dst) (epChan x.dst) / 48 else z
  ({ x with line := line, hiZ := sap && !(s.txMask (epIndex x.dst)).getLsbD (epChan x.dst) }, z)

/-- The clock at which a destination takes its samples from the matrix: none for a port on the matrix grid (R207, R211). -/
def State.outClk (s : State) (e : Nat) : Option Clk :=
  match epClass e with
  | 1 => if s.embedTracked (epIndex e) then some (s.clkNow (2048 + epIndex e)) else none
  | 3 => if (s.clkNow (epIndex e)).st == .master then none else some (s.clkNow (epIndex e))
  | _ => none

/-- What a tracked port sends in a period of `r` matrix samples, the newest of `l` among them (units of 2^−96): its NCO reads the 32-sample FIFO
behind the matrix at its own ratio (R207, R211). A clock that is not steered yet sends silence. -/
def Clk.sends (c : Clk) (l : List Int) (r : Nat) : List Int :=
  match c.st with
  | .lost | .acquire => List.replicate r 0
  | _ =>
    (List.range ((c.txPos + r * c.ratio) / 100000000)).map fun j =>
      filterAt l (3200000000 + r * 100000000 - ((j + 1) * 100000000 - c.txPos) * 100000000 / c.ratio)

/-- The NCO's place after a period of `r` matrix samples; in LOCKED it slews to a whole sample at 50 ppm (Table 6-6). -/
def Clk.txStep (c : Clk) (r : Nat) : Clk :=
  match c.st with
  | .locked => { c with txPos :=
      if c.txPos < 50000000 then c.txPos - 5000 * r else if 100000000 ≤ c.txPos + 5000 * r then 0 else c.txPos + 5000 * r }
  | .steered | .wide => { c with txPos := (c.txPos + r * c.ratio) % 100000000 }
  | _ => { c with txPos := 0 }

/-- What a slot sends in a sample period whose samples, oldest first, are `zs` (units of 2^−72), with which of them clipped: on the matrix grid
those, rounded; at a tracked port what its NCO reads (R207, R211). -/
def State.slotSend (s : State) (x : Slot) (zs : List Int) : Slot × List Bool :=
  let bits := s.dstBitsOf x.dst
  match s.outClk x.dst with
  | none =>
    let o := zs.map (roundOut 72 bits)
    ({ x with out := ((o.getLast?).map (·.1)).getD x.out, sent := o.map (·.1), tail := [] }, o.map (·.2))
  | some c =>
    let l := (zs.reverse ++ x.tail).take 97
    let o := (c.sends l zs.length).map (roundOut 96 bits)
    ({ x with out := ((o.getLast?).map (·.1)).getD x.out, sent := o.map (·.1), tail := l }, o.map (·.2))

/-- A slot whose followed source changes at or before this sample starts its crossfade (R202). -/
def State.slotFollow (s : State) (o t : Nat) : State :=
  match tabFind s.aud.slots o with
  | none => s
  | some x => match x.nextSrc, x.nextAt, x.follow with
    | some src, some at_, some (_, k) =>
      if at_ ≤ t then
        (s.setSlot o { x with nextSrc := none, nextAt := none }).followTo o k src x.nextLen x.nextLaw x.lsOff
      else s
    | _, _, _ => s

/-- A followed source whose switch falls in the second half of the period starts there on a 96 kHz channel, whose sample period begins there
(R100, R185). -/
def State.slotHalf (s : State) (o t : Nat) : State :=
  match (tabFind s.aud.slots o).bind (·.nextAt) with
  | none => s
  | some _ =>
    let old := (tabFind s.aud.slots o).bind (·.nextAt)
    let s := s.slotFollow o (t + audT / 2)
    match tabFind s.aud.slots o with
    | some x => if x.nextAt = old then s else s.setSlot o { x with fade := x.fade.map fun f => { f with lag := 1 } }
    | none => s

/-- One half of a 96 kHz slot's period, or the whole of a 48 kHz slot's: the slot's samples so far, oldest first. -/
def State.geckoHalf (s : State) (o : Nat) (zs : List Int) (sub : Nat) : List Int × State :=
  match tabFind s.aud.slots o with
  | none => (zs, s)
  | some x =>
    let (y, z) := s.gecko x sub
    (zs ++ [z], s.setSlot o y)

/-- One output slot's sample period, which begins at `t`: a channel that has become transparent cuts its fade (R199), and carries zeros while a
clock is not LOCKED. -/
def State.geckoSlot (s : State) (o t : Nat) : State :=
  match tabFind s.aud.slots o with
  | none => s
  | some x =>
    let s := if s.transparent x && x.fade.isSome then s.setSlot o { x with fade := none } else s
    let (zs, s) := s.geckoHalf o [] 0
    let (zs, s) := if x.rate96 then (s.slotHalf o t).geckoHalf o zs 1 else (zs, s)
    match tabFind s.aud.slots o with
    | none => s
    | some y =>
      let mute := s.transparent y && !(s.srcLocked y.src.ep && s.dstLocked y.dst)
      let (z, clips) := s.slotSend y (if mute then zs.map fun _ => 0 else zs)
      let s := s.setSlot o z
      let s := clips.foldl (fun (s : State) c => if c then (s.inc R.AUD_CLIP_CNT).raise Hist.aud F.AUD_HIST_CLIP else s) s
      let s := if mute then s.raise Hist.aud F.AUD_HIST_TRANSP_MUTE else s
      if s.userDelay z < z.delay then s.raise Hist.aud F.AUD_HIST_DELAY_CLAMP else s

/-- Fades and ramps of a slot move on by one sample of 48 kHz and end. -/
def State.slotEnd (s : State) (o : Nat) : State :=
  match tabFind s.aud.slots o with
  | none => s
  | some x =>
    let fade := x.fade.bind fun f => if f.len + f.lag ≤ f.pos + 1 then none else some { f with pos := f.pos + 1 }
    if x.unmap && fade.isNone then s.endSlot o
    else match x.ramp with
      | none => s.setSlot o { x with fade := fade }
      | some r =>
        if r.len ≤ r.pos + 1 then
          let s := s.setSlot o { x with fade := fade, ramp := none, gain := r.goal }
          match r.op with
          | some id => s.fadeDone id o
          | none => s
        else
          let r := { r with pos := r.pos + 1 }
          s.setSlot o { x with fade := fade, ramp := some r, gain := rampGain r }

/-- A path line's read point slews toward its target by a 2,000th of a sample each period, 24 samples per second, or the line runs its
jump (R205). -/
def State.pathStep (s : State) (u : Nat) : State :=
  match tabFind s.aud.paths u with
  | none => s
  | some p =>
    let put := fun (p : PathLine) => ({ s with aud := { s.aud with paths := tabPut s.aud.paths u p } } : State)
    match p.jump, p.target with
    | some j, some d =>
      if j + 1 = 120 then s.pathLen u d { p with jump := some 120, slew := 0 }
      else put { p with jump := if 239 ≤ j then none else some (j + 1) }
    | none, some d =>
      if d = p.delay ∧ p.slew = 0 then s
      else
        let w : Int := if d = p.delay then (if p.slew < 0 then p.slew + 1 else p.slew - 1) else if d < p.delay then p.slew - 1 else p.slew + 1
        if w = 2000 then s.pathLen u (p.delay + 1) { p with slew := 0 }
        else if w = -2000 then s.pathLen u (p.delay - 1) { p with slew := 0 }
        else put { p with slew := w }
    | _, _ => s

/-- A fade in flight that runs on output slot `o` runs on slot `p`. -/
def State.renameSlot (s : State) (o p : Nat) : State :=
  s.fades.foldl (fun (s : State) (q : Nat × FadeOp) =>
    if q.2.slots.contains o then s.setOp q.1 (.fade { q.2 with slots := q.2.slots.map fun k => if k = o then p else k }) else s) s

/-- A mapped channel whose port's rate has changed holds one slot at 48 kHz and two at 96 kHz (R184): the next slot where it is free, else the
lowest free pair; with no pair free it stays a 48 kHz channel until there is one (DESIGN CHOICE, assumption 195). -/
def State.slotRate (s : State) (o : Nat) : State :=
  match tabFind s.aud.slots o with
  | none => s
  | some x =>
    let y : Slot := { x with rate96 := !x.rate96 }
    let y := { y with blocks := s.keptBlocks y }
    if s.dst96 x.dst = x.rate96 then s
    else if x.rate96 || (decide (o + 1 < 4096) && s.slotFree (o + 1)) then (s.setSlot o y).trimAudio
    else match (s.dropSlot o).pickSlot true with
      | some p => (((s.dropSlot o).setSlot p y).renameSlot o p).trimAudio
      | none => s

/-- The ramps of port clocks and slot masks move on by one sample. -/
def State.rampStep (s : State) : State :=
  let out96 := fun (k : Nat) => if k < 16 then s.dst96 (audEp 3 k 0) else decide (2048 ≤ k) && s.embed96 (k - 2048)
  let clk := s.aud.clk.map fun p => (p.1, { p.2.txStep (if out96 p.1 then 2 else 1) with
    rampIn := p.2.rampIn.bind fun j => if 47 ≤ j then none else some (j + 1)
    rampOut := p.2.rampOut.bind fun j => if 31 ≤ j then none else some (j + 1) })
  let mr := (s.aud.maskRamp.map fun p => (p.1, p.2 + 1)).filter fun p => decide (p.2 < 48)
  { s with aud := { s.aud with clk := clk.filter (fun p => p.2 != {}), maskRamp := mr, hold := [] } }

/-- IP audio flows send the packet that sample `n` completes: 6 or 48 samples, stamped with the media time of its first (R188). -/
def State.audioSend (s : State) (n : Nat) : State :=
  let tx := s.media.txFlow.map fun p =>
    let k := if p.2.rcd.us125 then 6 else 48
    if p.1 / 1024 = 1 ∧ (n + 1) % k = 0 then (p.1, s.burst p.2 1 ((n + 1 - k) % 2 ^ 32)) else p
  { s with media := { s.media with txFlow := tx } }

/-- The AES3 input whose channel status output `n` passes: CS_PASS, and both subframes from one input that is LOCKED (R214). -/
def State.aesPass (s : State) (n : Nat) : Bool :=
  let src := fun (c : Nat) => (s.slotOf (audEp 4 n c)).map (·.2.src.ep)
  s.flag (R.AESO_CTL n) F.AESO_CTL_CS_PASS && s.flag (R.AESO_STAT n) F.AESO_STAT_ACTIVE &&
    (match src 0, src 1 with
      | some a, some b => epClass a == 4 && epClass b == 4 && epIndex a == epIndex b && s.clkSt (16 + epIndex a) == .locked
      | _, _ => false)

/-- The channel status AES3 output `n` sends (R214): passed, or professional with the non-audio bit, the rate and its CRC (the places of
the bits and the rate codes PRESUMED from AES3, assumption 19). -/
def State.aesStatus (s : State) (n : Nat) : List Nat :=
  if s.aesPass n then
    let i := ((s.slotOf (audEp 4 n 0)).map fun p => epIndex p.2.src.ep).getD 0
    (List.range 6).flatMap fun w => (le 4 (s.rd (R.AESI_CS i w)).toNat).map (·.toNat)
  else
    let tr := fun (c : Nat) => ((s.slotOf (audEp 4 n c)).map fun p => s.transparent p.2).getD false
    let r96 := s.flag (R.AESO_STAT n) F.AESO_STAT_RATE96
    let l := [1 + (if tr 0 || tr 1 then 2 else 0) + (if r96 then 0 else 0x80), 0, 0, 0, if r96 then 0x10 else 0] ++ List.replicate 18 0
    l ++ [aesCrc l]

/-- AES3 outputs begin a block, of 192 frames: every 192nd sample of the grid from the epoch, every 96th at 96 kHz (DESIGN CHOICE,
assumption 19). -/
def State.aesBlocks (s : State) (n : Nat) : State :=
  let out := (List.range 16).foldl (fun t i =>
    if !s.flag (R.AESO_STAT i) F.AESO_STAT_ACTIVE then tabDel t i
    else if n % (if s.flag (R.AESO_STAT i) F.AESO_STAT_RATE96 then 96 else 192) = 0 then tabPut t i { cs := s.aesStatus i } else t) s.aud.aesOut
  { s with aud := { s.aud with aesOut := out } }

/-- MATRIX_SAMPLE: sample period `n` of 48 kHz; `inputs` are the samples the ports other than IP flows deliver in it, in order, as their bits
stand (a dropped or absent packet delivers none), `idle` the ports whose clock brings no sample in it, and `ns` the time it took. -/
def execMatrixSample (n : Nat) (inputs : List (Nat × Int)) (idle : List Nat) (ns : Nat) (s : State) :
    Host.Outcome State Fault Refusal :=
  .next (
    let t := n * audT
    let s := s.at_ t
    let s := { s with aud := { s.aud with sample := n } }
    let s := s.set R.AUD_GECKO F.AUD_GECKO_PEAK_NS (max (s.get R.AUD_GECKO F.AUD_GECKO_PEAK_NS) (min ns 65535))
    let s := (s.fades.filter fun p => !p.2.started && decide (p.2.exec ≤ t)).foldl State.startFade s
    let s := (tabKeys s.aud.slots).foldl State.slotRate s
    let os := tabKeys s.aud.slots
    let s := os.foldl (fun s o => s.slotFollow o t) s
    let (ip, s) := s.playout n
    let s := (tabKeys s.aud.paths).foldl State.pathStep (s.intake (ip ++ inputs.filter fun p => epClass p.1 != 2) idle)
    let s := os.foldl (fun s o => s.geckoSlot o t) s
    let s := os.foldl State.slotEnd s
    (((s.audioSend n).aesBlocks n).rampStep).trimAudio)

end Sys2Proof.Machine
end

