-- ==== Sys2Proof/Machine/AxlOps.lean ====
section
/-! DEFINITION. Shared operations of the Axolotl store: a store that may fail (R382). -/
namespace Sys2Proof.Machine

/-- One store of record `k` with body `b`: `first` and `second` say whether the two attempts are confirmed (R382). -/
def State.storeBody (s : State) (k : Nat) (b : RecBody) (first second : Bool) : State :=
  let ok := first || second
  let s := s.writeRec k b ok
  if ok || s.lifecycle == 4 then s
  else ((s.raise Hist.axl F.AXL_HIST_STORE_ERR).dirty k).reportError (0xC0000 + k) 0x0B

/-- One store of record `k` as the working SRAM holds it. -/
def State.storeRec (s : State) (k : Nat) (first second : Bool) : State := s.storeBody k (s.recBody k) first second

/-- An autostore's store of a record as it stood at E2; what was written since stalled until E4, so that the record is dirty again when it
holds something else by then (R389). A record stored meanwhile is not stored again. -/
def State.storeFrozen (s : State) (p : Nat × RecBody) (ok : Bool) : State :=
  if !s.isDirty p.1 then s
  else
    let fresh := s.recBody p.1 == p.2
    let s := s.storeBody p.1 p.2 ok ok
    if fresh then s else s.dirty p.1

end Sys2Proof.Machine
end

