-- ==== Sys2Proof/Machine/HostOps.lean ====
section
/-! DEFINITION. Shared operations of the host interface: ring states, the queues' room, and what every event that takes the host link
away does to the rings (R260 to R266). -/
namespace Sys2Proof.Machine

/-- State of ring `n`: 0 DISABLED, 1 RUNNING, 2 STOPPED, 3 DRAINING. -/
def State.ringSt (s : State) (n : Nat) : Nat := s.get (R.RNG_STAT n) F.RNG_STAT_STATE
/-- `s` with ring `n` in a state. -/
def State.setRingSt (s : State) (n st : Nat) : State := s.set (R.RNG_STAT n) F.RNG_STAT_STATE st
/-- Entries of the submission ring. -/
def State.sqSize (s : State) (n : Nat) : Nat := 2 ^ s.get (R.RNG_SIZE n) F.RNG_SIZE_SQ_LOG2
/-- Entries of the completion ring. -/
def State.cqSize (s : State) (n : Nat) : Nat := 2 ^ s.get (R.RNG_SIZE n) F.RNG_SIZE_CQ_LOG2

/-- Descriptors of ring `n` fetched and not yet posted. -/
def State.outstanding (s : State) (n : Nat) : Nat :=
  (s.rst_ n).fetched.length + (s.host.ops.filter fun o => o.dest == .ring n).length
    + (s.host.cpls.filter fun c => c.ring == n).length

/-- Ring `n` enters STOPPED (Table 9-3). -/
def State.stopRing (s : State) (n : Nat) : State :=
  (s.setRingSt n 2).raise Hist.rngGlb F.RNG_GLB_HIST_RING_STOPPED

/-- An invalid croak or CQ head. -/
def State.croakErr (s : State) (n : Nat) : State := s.raise (Hist.rng n) F.RNG_HIST_CROAK_ERR

/-- A write that is not taken (R261, R262). -/
def State.cfgErr (s : State) (n : Nat) : State := s.raise (Hist.rng n) F.RNG_HIST_CFG_ERR

/-- Ring `n` in RUNNING as R262 starts it; from here on host memory is written again after a warm reset (R285). -/
def State.startRing (s : State) (n : Nat) : State :=
  let s := (s.wr (R.RNG_STAT n) 0).setRingSt n 1
  let s := (s.wr (R.RNG_CQ_POS n) 0).set (R.RNG_CQ_POS n) F.RNG_CQ_POS_PHASE 1
  let s := s.setRst n {}
  if s.host.dmaOff then ({ s with host := { s.host with dmaOff := false } } : State).deliverHeld else s

/-- The completion ring of ring `n` has room for one more descriptor (R264). -/
def State.cqRoom (s : State) (n : Nat) : Bool := decide (s.outstanding n + (s.rst_ n).unread < s.cqSize n)

/-- The descriptors that came to ring `n` by domain message enter it, each after the slots croaked before it and while there is room
(R264, R411). -/
def State.domEnter (s : State) (n : Nat) : State :=
  (s.rst_ n).domQ.foldl (fun (s : State) e =>
    let x := s.rst_ n
    if s.ringSt n = 1 ∧ e.1 = s.get (R.RNG_STAT n) F.RNG_STAT_SQ_HEAD ∧ s.cqRoom n ∧ x.domQ.head? = some e then
      s.setRst n { x with fetched := x.fetched ++ [e.2], domQ := x.domQ.tail }
    else s) s

/-! ### Croak pages (R258, R263, R264) -/

/-- A new SQ tail. -/
def State.croak (s : State) (n v : Nat) : State :=
  if s.ringSt n ≠ 1 then s.croakErr n
  else if s.sqSize n ≤ v then (s.croakErr n).stopRing n
  else s.setRst n { s.rst_ n with sqTail := v }

/-- A new CQ head: completions up to it are consumed; on a full ring, whose head equals its tail, a write of that value consumes every
one (R264). -/
def State.cqHead (s : State) (n v : Nat) : State :=
  let x := s.rst_ n
  let adv := (v + s.cqSize n - x.cqHead) % s.cqSize n
  let used := if adv = 0 ∧ x.unread = s.cqSize n then x.unread else adv
  if s.ringSt n = 0 then s.croakErr n
  else if s.cqSize n ≤ v ∨ x.unread < used then
    let s := s.croakErr n
    if s.ringSt n = 1 then s.stopRing n else s
  else (s.setRst n { x with cqHead := v, unread := x.unread - used }).domEnter n

/-- A 32-bit aligned write of BAR2 offset `o` (R258). -/
def State.bar2Write (s : State) (o v : Nat) : State :=
  if o % 0x1000 = 0 then s.croak (o / 0x1000) v
  else if o % 0x1000 = 4 then s.cqHead (o / 0x1000) v
  else s

/-- What an event of R260 does to the rings: every ring DISABLED, descriptors not accepted discarded, completions of accepted
operations discarded, the MSI-X table at its reset. A discarded completion that waits for the STANDBY's acknowledgement keeps its
in-flight entries until that comes, when it would have posted (R23, R260). -/
def State.dropHost (s : State) : State :=
  let s := (List.range 64).foldl (fun (s : State) n => (s.setRingSt n 0).setRst n { s.rst_ n with fetched := [], domQ := [] }) s.raiseOver
  let n := (s.host.cpls.filter fun c => c.held != 0 && c.ring != noRing).length
  let keys := s.host.cpls.map fun c => c.ring * 65536 + c.tag
  let s := keys.foldl State.dmaEnd s
  let ops := s.host.ops.map fun o => match o.dest with
    | .ring _ => { o with dest := .discard }
    | _ => o
  let kept := (s.host.cpls.filter fun c => match c.await with
    | some id => s.mate.await.contains id
    | none => false).map fun c => { c with ring := noRing }
  let s := ({ s with host := { s.host with ops := ops, cpls := kept, msix := [], pba := [], dom := [] } } : State).leapRateCheck
  if n = 0 then s else (s.count R.RNG_GLB_DISCARD_CNT n).raise Hist.rngGlb F.RNG_GLB_HIST_FLR_DISCARD

/-- Ring `n`'s interrupt: a completion with IRQ arms it; it raises its vector once COAL_CNT completions or COAL_US µs have passed
(R265). -/
def State.coalesce (s : State) (n : Nat) (irq : Bool) : State :=
  let x := s.rst_ n
  let x := { x with since := x.since + 1 }
  let x := if irq && !x.armed then { x with armed := true, armedAt := s.now } else x
  let c := R.RNG_CQ_VEC n
  let due := decide (s.get c F.RNG_CQ_VEC_COAL_CNT ≤ x.since) || decide (x.armedAt + s.get c F.RNG_CQ_VEC_COAL_US * ticksPerUs ≤ s.now)
  if x.armed && due then (s.setRst n { x with armed := false, since := 0 }).raiseVec (s.get c F.RNG_CQ_VEC_VEC)
  else s.setRst n x

/-- The completion of ring `n` that is posted next: the oldest that waits for no acknowledgement of the STANDBY (R23). -/
def State.nextCpl (s : State) (n : Nat) : Option Cpl :=
  s.host.cpls.find? fun c => c.ring == n && match c.await with
    | some id => !s.mate.await.contains id
    | none => true

/-- The 16 bytes of a completion (Table 9-5). -/
def State.cplBytes (s : State) (n : Nat) (c : Cpl) : List Byte :=
  let fl := s.get (R.RNG_CQ_POS n) F.RNG_CQ_POS_PHASE + (if c.early then 2 else 0) + (if c.untimed then 4 else 0)
    + (if c.lateCmt then 8 else 0)
  le 2 c.tag ++ le 1 c.status ++ le 1 fl ++ le 6 (c.rfn.getD s.rfnNow) ++ le 6 c.result

/-- The completion `c` leaves those waiting; the DMA of its descriptor is over, and the leap table may be empty now (R84). -/
def State.dropCpl (s : State) (c : Cpl) : State :=
  let s := { s with host := { s.host with cpls := s.host.cpls.erase c, dom := s.host.dom.erase (c.ring, c.tag) } }
  (s.dmaEnd (c.ring * 65536 + c.tag)).leapRateCheck

/-- The completion of ring `n` is written at the CQ tail. -/
def State.postCpl (s : State) (n : Nat) (c : Cpl) : State :=
  let p := R.RNG_CQ_POS n
  let tail := s.get p F.RNG_CQ_POS_TAIL
  let s := s.hostWrite (s.rd2 (R.RNG_CQ_BASE_LO n) (R.RNG_CQ_BASE_HI n) + 16 * tail) (s.cplBytes n c)
  let tail' := (tail + 1) % s.cqSize n
  let s := s.set p F.RNG_CQ_POS_TAIL tail'
  let s := if tail' = 0 then s.set p F.RNG_CQ_POS_PHASE (1 - s.get p F.RNG_CQ_POS_PHASE) else s
  let s := s.setRst n { s.rst_ n with unread := (s.rst_ n).unread + 1 }
  ((s.inc (R.RNG_DONE_CNT n)).dropCpl c).coalesce n c.irq

/-- The write of a completion failed: it is lost (R264). -/
def State.loseCpl (s : State) (n : Nat) (c : Cpl) : State :=
  let s := (s.dropCpl c).raise (Hist.rng n) F.RNG_HIST_POST_ERR
  if s.ringSt n = 1 ∨ s.ringSt n = 2 then s.stopRing n else s

/-! ### The ring engine's turns (R283) -/

/-- Ring `n` has a croaked descriptor that could be fetched. -/
def State.hasWork (s : State) (n : Nat) : Bool :=
  s.ringSt n == 1 && s.get (R.RNG_STAT n) F.RNG_STAT_SQ_HEAD != (s.rst_ n).sqTail && s.cqRoom n

/-- The ring the ring engine fetches from next: the one it serves, up to 8 descriptors, then the next with work in ring order. -/
def State.nextFetch (s : State) : Option Nat :=
  if s.hasWork s.host.turn ∧ s.host.took < 8 then some s.host.turn
  else ((List.range 64).map fun i => (s.host.turn + 1 + i) % 64).find? s.hasWork

/-- A descriptor of ring `n` counts in its turn. -/
def State.takeTurn (s : State) (n : Nat) : State :=
  { s with host := { s.host with turn := n, took := if n = s.host.turn ∧ s.host.took < 8 then s.host.took + 1 else 1 } }

/-- A scheduled commit that never executes completes ABORTED. -/
def State.abortCommit (s : State) (id : Nat) : State := s.finish id { status := 0x06 }

/-- ABANDON (Table 9-3): every pending leap, salvo, scheduled commit and scheduled map or fade of the ring completes ABORTED. -/
def State.abandon (s : State) (n : Nat) : State :=
  (s.host.ops.filter fun o => o.dest == .ring n).foldl (fun (s : State) (o : Op) =>
    match o.body with
    | .take t => if t.rfn ≠ 0 then s.abortOp o.id else s
    | .salvo _ => s.abortOp o.id
    | .commit c => if c.rfn ≠ 0 then s.abortCommit o.id else s
    | .map m => if m.rfn ≠ 0 then s.abortAudio o.id else s
    | .fade f => if f.rfn ≠ 0 ∧ !f.started then s.abortAudio o.id else s
    | _ => s) s

end Sys2Proof.Machine
end

