-- ==== Sys2Proof/Machine/Media.lean ====
section
/-! DEFINITION. SDI lanes and 400 GbE ports: the meaning of each event and write of chapter 2 (R30 to R57). -/
namespace Sys2Proof.Machine

/-- A receive lane runs: EN = 1, PD = 0, not in block-level reset or under test, lifecycle not END. -/
def State.rxOn (s : State) (n : Nat) : Bool :=
  s.flag (R.SDI_RX_CTL n) F.SDI_RX_CTL_EN && !s.flag (R.SDI_RX_CTL n) F.SDI_RX_CTL_PD && !s.inReset 0 n
    && !s.underTest (0x20000 + n) && s.lifecycle != 4

/-- A written rate code: the reserved codes are treated as 0 (Table 2-2). -/
def rateCode (v : Nat) : Nat := if v % 16 > 9 then 0 else v % 16

/-- The forced rate code in force. -/
def State.rateForce (s : State) (n : Nat) : Nat := rateCode (s.get (R.SDI_RX_CTL n) F.SDI_RX_CTL_RATE_FORCE)

/-- CARRIER sets on a lane that runs (R32). -/
def State.carrierDetect (s : State) (n : Nat) : State :=
  if s.rxOn n then s.set (R.SDI_RX_STAT n) F.SDI_RX_STAT_CARRIER 1 else s

/-- CDR_LOCK sets at a rate; a forced rate that does not match never locks (R32). -/
def State.cdrLocked (s : State) (n rate : Nat) : State :=
  let a := R.SDI_RX_STAT n
  let f := s.rateForce n
  if s.flag a F.SDI_RX_STAT_CARRIER && !s.flag a F.SDI_RX_STAT_CDR_LOCK && decide (1 ≤ rate) && decide (rate ≤ 9)
      && (f == 0 || f == rate) then
    (s.set a F.SDI_RX_STAT_CDR_LOCK 1).set a F.SDI_RX_STAT_RATE rate
  else s

/-- Capture writers fed by lane `n` that carry on, or stop on a format that is not their ring's (R120, R41). -/
def State.cwFormat (s : State) (src fmt : Nat) : State :=
  ((s.dstsOf src).filter (344 ≤ ·)).foldl (fun s d =>
    let c := s.cw (d - 344)
    match c.ring.bind s.ring with
    | some g => if g.fmt = fmt then s else s.setCw (d - 344) { c with filling := none, st := 4 }
    | none => s) s

/-- SDI_RX_STAT shows what timing and the payload identifier say (R32, R33). -/
def State.rxShow (s : State) (n : Nat) (m : LaneMeas) : State :=
  let a := R.SDI_RX_STAT n
  (((s.set a F.SDI_RX_STAT_FORMAT m.fmt).setB a F.SDI_RX_STAT_LEVEL_B m.levelB).setB a F.SDI_RX_STAT_PID_VALID m.pid.isSome).setB a
    F.SDI_RX_STAT_PID_MISMATCH (m.pid.isSome && m.pidFmt != m.fmt)

/-- A payload identifier of the signal enters SDI_RX_PID; another than before sets PID_CHANGE (R33). The manual does not say whether the
first payload after reset counts as a change: here it sets no PID_CHANGE (DESIGN CHOICE, assumption 180). -/
def State.rxPid (s : State) (n : Nat) (pid : Option Word) : State :=
  match pid with
  | some p =>
    let o := s.rd (R.SDI_RX_PID n)
    let s := s.wr (R.SDI_RX_PID n) p
    if o ≠ 0 ∧ o ≠ p then s.raise (Hist.srx n) F.SDI_RX_HIST_PID_CHANGE else s
  | none => s

/-- An ancillary time code of the signal enters SDI_RX_ATC. -/
def State.rxAtc (s : State) (n : Nat) (atc : Option Word) : State :=
  match atc with
  | some v => s.wr (R.SDI_RX_ATC n) v
  | none => s

/-- Lock regained after a loss sets RELOCK, and FMT_CHANGE when the format differs from the one before (R41). -/
def State.rxRegained (s : State) (n fmt : Nat) : State :=
  let l := s.rx n
  let s := if l.relock && l.lastFmt.any (· != fmt) then s.raise (Hist.srx n) F.SDI_RX_HIST_FMT_CHANGE else s
  if l.relock then s.raise (Hist.srx n) F.SDI_RX_HIST_RELOCK else s

/-- A lane recognises a format its timing shows: a built-in one, or a user format that travels on SDI (R33, R156). -/
def State.rxKnown (s : State) (fmt : Nat) : Bool :=
  match s.fmt? fmt with
  | some f => decide (fmt < 0x40) || (f.idxCode fmt 1).isSome
  | none => false

/-- FORMAT becomes valid at the start boundary (R32, R33, R41); the leader of a group starts once every member is locked
and within the skew limit of every other (R40). -/
def State.startAt (s : State) (n : Nat) (m : LaneMeas) : State :=
  let a := R.SDI_RX_STAT n
  let l := s.rx n
  let fmt := if s.rxKnown m.fmt then m.fmt else 0xFF
  let m := { m with fmt := fmt }
  let l' := { l with meas := some m, relock := false, lastFmt := some fmt }
  if !s.flag a F.SDI_RX_STAT_TRS_LOCK || l.meas.isSome || (l.group != 0 && !s.groupLocks n l.group) then s
  else if l.group != 0 && !(s.setRx n l').groupNear n l.group then s.raise (Hist.srx n) F.SDI_RX_HIST_GROUP_SKEW
  else
    let s := (((s.rxShow n m).rxPid n m.pid).rxAtc n m.atc).rxRegained n fmt
    (((s.setRx n l').groupShow n).cwFormat n fmt).refreshSrc n

/-- SDI_CARRIER_DETECT. -/
def execSdiCarrierDetect (n : Fin 72) (s : State) : Host.Outcome State Fault Refusal := .next (s.carrierDetect n)

/-- CDR_LOCK. -/
def execCdrLock (n : Fin 72) (rate : Nat) (s : State) : Host.Outcome State Fault Refusal := .next (s.cdrLocked n rate)

/-- TRS_LOCK sets within 2 lines after CDR_LOCK (R32). -/
def execTrsLock (n : Fin 72) (s : State) : Host.Outcome State Fault Refusal :=
  .next (if s.flag (R.SDI_RX_STAT n) F.SDI_RX_STAT_CDR_LOCK then (s.set (R.SDI_RX_STAT n) F.SDI_RX_STAT_TRS_LOCK 1).groupShow n else s)

/-- START_BOUNDARY. -/
def execStartBoundary (n : Fin 72) (m : LaneMeas) (t : Nat) (s : State) : Host.Outcome State Fault Refusal :=
  .next ((s.at_ t).startAt n m)

/-- RATE_FORCE_WRITE: a new value on a locked lane drops lock, which counts as a relock and not as a loss (R37). -/
def State.rateForceWrite (s : State) (n : Fin 72) (v : Nat) (t : Nat) : State :=
    let s := s.at_ t
    let c := R.SDI_RX_CTL n
    let a := R.SDI_RX_STAT n
    if s.lvRx n || s.get c F.SDI_RX_CTL_RATE_FORCE == rateCode v then s
    else
      let was := s.flag a F.SDI_RX_STAT_CDR_LOCK
      let car := s.get a F.SDI_RX_STAT_CARRIER
      let lead := s.rxLeader n
      let s := s.set c F.SDI_RX_CTL_RATE_FORCE (rateCode v)
      if was then
        let s := (s.rxDown n true).set a F.SDI_RX_STAT_CARRIER car
        match lead with
        | some m => if m = n then s else s.groupRelock m
        | none => s
      else s

/-- `rateForceWrite` as a write of the host. -/
def execRateForceWrite (n : Fin 72) (v : Nat) (t : Nat) (s : State) : Host.Outcome State Fault Refusal := .next (s.byHost (R.SDI_RX_CTL n) fun s => s.rateForceWrite n v t)

/-- LINE_CRC_ERROR: counted at rates 0x2 to 0x9 while line alignment is held (R34). -/
def execLineCrcError (n : Fin 72) (s : State) : Host.Outcome State Fault Refusal :=
  .next (
    let a := R.SDI_RX_STAT n
    if s.flag a F.SDI_RX_STAT_TRS_LOCK && decide (2 ≤ s.get a F.SDI_RX_STAT_RATE) then
      (s.inc (R.SDI_RX_CRC_CNT n)).raise (Hist.srx n) F.SDI_RX_HIST_CRC_ERR
    else s)

/-- ANC_CHECKSUM_ERROR: the packet is dropped and counted (R35); the samples of an audio packet are replaced by the previous ones of its
group's channels (R186). -/
def execAncChecksumError (n : Fin 72) (did : Nat) (s : State) : Host.Outcome State Fault Refusal :=
  .next (
    if s.flag (R.SDI_RX_STAT n) F.SDI_RX_STAT_TRS_LOCK then
      let k := s.groupChans n
      let held := match dataGroup did with
        | some g => if s.rxMember n then [] else
            (List.range k).flatMap fun c => (List.range (4 / k)).map fun i => (audEp 1 n (k * g + c), i)
        | none => []
      let s := { s with aud := { s.aud with hold := held ++ s.aud.hold } }
      (s.inc (R.SDI_RX_ANC_DROP n)).raise (Hist.srx n) F.SDI_RX_HIST_ANC_CS_ERR
    else s)

/-- Lanes `n` to `n + k − 1` may form a group: the leader divides by k and all lie in one quadrant (R38, Table 2-4). -/
def groupValid (n k : Nat) : Bool := n % k == 0 && n / 18 == (n + k - 1) / 18

/-- A lane of the would-be receive group is a route source or belongs to another group (R39). -/
def State.rxGroupBusy (s : State) (n k : Nat) : Bool :=
  (List.range k).any fun i => s.feeds (n + i) ||
    (match s.rxLeader (n + i) with
      | some m => m != n
      | none => false)

/-- The leader of the transmit group that lane `n` belongs to. -/
def State.txLeader (s : State) (n : Nat) : Option Nat :=
  if (s.tx (n / 4 * 4)).group = 4 then some (n / 4 * 4)
  else if (s.tx (n / 2 * 2)).group = 2 then some (n / 2 * 2)
  else none

/-- A lane of the would-be transmit group is a route destination or belongs to another group. -/
def State.txGroupBusy (s : State) (n k : Nat) : Bool :=
  (List.range k).any fun i => (s.route (n + i)).isSome ||
    (match s.txLeader (n + i) with
      | some m => m != n
      | none => false)

/-- Bring SDI_TX_STAT of `k` lanes from `n` on up to date, within the lanes there are. -/
def State.txLanes (s : State) (n k : Nat) : State :=
  ((List.range k).filter fun i => decide (n + i < 72)).foldl (fun s i => s.txRefresh (n + i)) s

/-- A transmit lane's MULTI value: 00 ends its group, another value waits for the next frame boundary as a request, and one that cannot
form a group is kept unused. Either way an earlier request is gone (DESIGN CHOICE, assumption 156). -/
def State.multiTx (s : State) (n v : Nat) : State :=
  let k := multiLinks v
  let s := s.set (R.SDI_TX_CTL n) F.SDI_TX_CTL_MULTI v
  let x := s.tx n
  let s := if k = 1 then
      s.setTx n { x with groupReq := 0, group := if s.txGroupBusy n (s.txLinks n) then x.group else 0 }
    else s.setTx n { x with groupReq := if groupValid n k && !s.txGroupBusy n k then k else 0 }
  s.txLanes n 4

/-- A receive lane's MULTI value: as on a transmit lane, with MULTI_ERR where it cannot form a group (R39). A leader whose group ends shows
an unknown format until its own signal's next start boundary (DESIGN CHOICE, assumption 181). -/
def State.multiRx (s : State) (n v : Nat) : State :=
  let k := multiLinks v
  let s := s.set (R.SDI_RX_CTL n) F.SDI_RX_CTL_MULTI v
  let l := s.rx n
  if k = 1 then
    if s.rxGroupBusy n (s.rxLinks n) then (s.setRx n { l with groupReq := 0 }).raise (Hist.srx n) F.SDI_RX_HIST_MULTI_ERR
    else if l.group = 0 ∨ l.meas.isNone then
      (s.setRx n { l with groupReq := 0, group := 0 }).set (R.SDI_RX_STAT n) F.SDI_RX_STAT_GROUP_OK 0
    else (((s.setRx n { l with groupReq := 0, group := 0, meas := none }).set (R.SDI_RX_STAT n) F.SDI_RX_STAT_GROUP_OK 0).set
      (R.SDI_RX_STAT n) F.SDI_RX_STAT_FORMAT 0xFF).raise (Hist.srx n) F.SDI_RX_HIST_FMT_CHANGE
  else if groupValid n k && !s.rxGroupBusy n k then s.setRx n { l with groupReq := k }
  else (s.setRx n { l with groupReq := 0 }).raise (Hist.srx n) F.SDI_RX_HIST_MULTI_ERR

/-- MULTI_WRITE: a write on a member lane, or on a lane the LV agent drives, has no effect (R39, R296). -/
def State.multiWrite (s : State) (tx : Bool) (n : Fin 72) (v : Nat) : State :=
  if tx then (if s.lvTx n || s.txMember n then s else s.multiTx n v)
  else (if s.lvRx n || s.rxMember n then s else s.multiRx n v)

/-- `multiWrite` as a write of the host. -/
def execMultiWrite (tx : Bool) (n : Fin 72) (v : Nat) (s : State) : Host.Outcome State Fault Refusal := .next (s.byHost (if tx then R.SDI_TX_CTL n else R.SDI_RX_CTL n) fun s => s.multiWrite tx n v)

/-- The link rates and link counts of the table of R39, `lines` being the active lines of the whole image: 3G by two or four links, 12G by
four with 4320 lines. -/
def groupRate (code k lines : Nat) : Bool :=
  ((code == 4 || code == 5) && (k == 2 || k == 4)) || ((code == 8 || code == 9) && k == 4 && lines == 4320)

/-- A requested receive group forms at a frame boundary of its leader's signal: FORMAT becomes that of the whole image. Lanes that have
meanwhile been routed, a link rate that no mapping carries, or a member locked at another rate cancel it and set MULTI_ERR. -/
def State.groupRx (s : State) (n fmt : Nat) : State :=
  let l := s.rx n
  let k := l.groupReq
  let a := R.SDI_RX_STAT n
  if k = 0 || !s.flag a F.SDI_RX_STAT_TRS_LOCK then s
  else if !groupValid n k || s.rxGroupBusy n k
      || !groupRate (s.get a F.SDI_RX_STAT_RATE) k (((s.fmt? fmt).map (·.lines)).getD 0)
      || ((List.range k).any fun i => s.flag (R.SDI_RX_STAT (n + i)) F.SDI_RX_STAT_CDR_LOCK &&
        s.get (R.SDI_RX_STAT (n + i)) F.SDI_RX_STAT_RATE != s.get a F.SDI_RX_STAT_RATE) then
    (s.setRx n { l with groupReq := 0 }).raise (Hist.srx n) F.SDI_RX_HIST_MULTI_ERR
  else
    let i := if (s.fmt? fmt).isSome then fmt else 0xFF
    let s := if l.meas.isSome ∧ s.get a F.SDI_RX_STAT_FORMAT ≠ i then s.raise (Hist.srx n) F.SDI_RX_HIST_FMT_CHANGE else s
    let s := s.setRx n { l with groupReq := 0, group := k, meas := l.meas.map fun m => { m with fmt := i } }
    (s.set a F.SDI_RX_STAT_FORMAT i).groupShow n

/-- A requested transmit group forms. -/
def State.groupTx (s : State) (n : Nat) : State :=
  let x := s.tx n
  let k := x.groupReq
  if k = 0 then s
  else if !groupValid n k || s.txGroupBusy n k then s.setTx n { x with groupReq := 0 }
  else (s.setTx n { x with groupReq := 0, group := k }).txLanes n k

/-- GROUP_FORM: the group forms at the first frame boundary after the request (R39). `fmt` is the format of the whole image. -/
def execGroupForm (tx : Bool) (n : Fin 72) (fmt : Nat) (t : Nat) (s : State) : Host.Outcome State Fault Refusal :=
  .next (if tx then (s.at_ t).groupTx n else (s.at_ t).groupRx n fmt)

/-- ACQUISITION_ABORT: a lane that has not reached TRS_LOCK ends its acquisition; no loss is declared (R41). -/
def execAcquisitionAbort (n : Fin 72) (s : State) : Host.Outcome State Fault Refusal :=
  .next (
    let a := R.SDI_RX_STAT n
    if s.flag a F.SDI_RX_STAT_TRS_LOCK then s
    else ((s.set a F.SDI_RX_STAT_CARRIER 0).set a F.SDI_RX_STAT_CDR_LOCK 0).set a F.SDI_RX_STAT_RATE 0)

/-- EN and PD of a transmit lane take new values: idle at once when off; on, it may leave idle at a frame boundary at least
100 µs later (R46). -/
def State.txPower (s : State) (n : Nat) (en pd : Bool) (t : Nat) : State :=
  let c := R.SDI_TX_CTL n
  let was := s.flag c F.SDI_TX_CTL_EN && !s.flag c F.SDI_TX_CTL_PD
  let s := (s.setB c F.SDI_TX_CTL_EN en).setB c F.SDI_TX_CTL_PD pd
  let s := if en && !pd && !was then s.setTx n { s.tx n with wakeAt := some (t + 100 * ticksPerUs) } else s
  s.txRefresh n

/-- TX_EN_WRITE. -/
def execTxEnWrite (n : Fin 72) (en pd : Bool) (t : Nat) (s : State) : Host.Outcome State Fault Refusal :=
  .next (s.byHost (R.SDI_TX_CTL n) fun s => if s.lvTx n then s else (s.at_ t).txPower n en pd t)

/-- A lane leaves electrical idle at a frame boundary of its source's timing, once no idle condition holds (R44, R46). -/
def State.txWake (s : State) (n t : Nat) : State :=
  let a := R.SDI_TX_STAT n
  let due := match (s.tx n).wakeAt with
    | some w => decide (w ≤ t)
    | none => true
  if s.idleWhy n = 0 && !s.flag a F.SDI_TX_STAT_ACTIVE && due then
    let s := s.setTx n { s.tx n with wakeAt := none }
    let s := ((s.set a F.SDI_TX_STAT_ACTIVE 1).set a F.SDI_TX_STAT_IDLE_WHY 0)
    (s.set a F.SDI_TX_STAT_RATE (s.txCode n (((s.route n).map (·.src)).getD 0))).sendsAfresh n
  else s

/-! ### QE ports -/

/-- A flow uses port `q`, its protection partner counted. -/
def flowOnPort (q : Nat) (r : FlowRec) : Bool := r.port == q || (r.prot && r.port / 2 == q / 2)

/-- Any flow is enabled on port `q`. -/
def State.qeFlows (s : State) (q : Nat) : Bool :=
  s.media.rxFlow.any (fun p => flowOnPort q p.2.rcd) || s.media.txFlow.any (fun p => flowOnPort q p.2.rcd)

/-- QE_MODE_WRITE: the mode changes only while the port has no enabled flow (R48); a value other than the mode in force is else kept and
sets MODE_ERR. A kept value never comes into force by itself when the last flow is disabled: it takes another write (DESIGN CHOICE,
assumption 157). In 400 GbE mode sub-ports 1 to 3 do not exist: their links end. -/
def State.qeModeWrite (s : State) (q : Fin 4) (mode : Bool) : State :=
  let s := s.setB (R.QE_CTL q) F.QE_CTL_MODE mode
  if s.flag (R.QE_STAT q) F.QE_STAT_MODE = mode then s
  else if s.qeFlows q then s.raise (Hist.qe q) F.QE_HIST_MODE_ERR
  else
    let s := if mode then s else [1, 2, 3].foldl (fun s k => s.qeDown q k) s
    s.setB (R.QE_STAT q) F.QE_STAT_MODE mode

/-- `qeModeWrite` as a write of the host. -/
def execQeModeWrite (q : Fin 4) (mode : Bool) (s : State) : Host.Outcome State Fault Refusal := .next (s.byHost (R.QE_CTL q) fun s => s.qeModeWrite q mode)

/-- The receive flow a packet matches on a sub-port, with its leg (true for B). R49 does not list what must match: the model asks for the
flow's address and port, its VLAN ID and its payload type, and its filters where they are set (DESIGN CHOICE, assumption 158). -/
def State.matchFlow (s : State) (q sub : Nat) (p : RtpPkt) : Option (Nat × Bool) :=
  (s.media.rxFlow.find? fun e =>
    let r := e.2.rcd
    r.sub == sub && flowOnPort q r && r.ipv6 == p.ipv6 && r.dstAddr == p.dstAddr && r.udpPort == p.udpPort && r.vlan == p.vlan
      && r.pt == p.pt && (r.ssrc == 0 || r.ssrc == p.ssrc) && (!r.srcFilter || r.srcAddr == p.srcAddr)).map
    fun e => (e.1, e.2.rcd.port != q)

/-- A saturating 32-bit flow counter (R281). -/
def satAdd (a b : Nat) : Nat := min 0xFFFFFFFF (a + b)

/-- The path differential of a flow in ticks. -/
def Flow.window (f : Flow) : Nat := f.rcd.pathDiff * 1000 * ticksPerUs

/-- Numbers a leg missed that the other has not brought within the path differential are missing on both (R54). -/
def Flow.settle (f : Flow) (t : Nat) : Flow :=
  let due := fun (m : Miss) => !m.lost && decide (m.at_ + f.window < t)
  { f with unrec := satAdd f.unrec (f.missing.countP due), missing := f.missing.map fun m => if due m then { m with lost := true } else m }

/-- A leg misses `n` packets more. -/
def Flow.missOn (f : Flow) (legB : Bool) (n : Nat) : Flow :=
  if legB then { f with missB := satAdd f.missB n } else { f with missA := satAdd f.missA n }

/-- Number `n` falls in a gap of a leg at instant `t`: missing on both legs when the other missed it too. -/
def Flow.gapAt (legB : Bool) (t : Nat) (f : Flow) (n : Nat) : Flow :=
  if f.recent.any (·.seq == n) then f
  else match f.missing.find? (·.seq == n) with
    | none => { f with missing := f.missing ++ [⟨n, legB, t, false⟩] }
    | some m =>
      if m.lost || m.legB == legB then f
      else { f with unrec := satAdd f.unrec 1, missing := f.missing.map fun k => if k.seq = n then { k with lost := true } else k }

/-- A packet that came too late is discarded and counts as missing on its leg, unless its gap counted there already (R54). -/
def Flow.discard (f : Flow) (legB counted : Bool) : Flow :=
  let f := { f with late := satAdd f.late 1 }
  if counted then f else f.missOn legB 1

/-- A packet of a protected flow arrives on a leg (R54): gaps count on the leg, numbers missing on both legs are unrecovered, a
packet later than the path differential is discarded and counts as missing, one already delivered is merged. -/
def Flow.arrive (f : Flow) (seq : Nat) (legB : Bool) (t : Nat) : Flow :=
  let f := f.settle t
  let nxt := if legB then f.nextB else f.nextA
  let ahead := fun (n : Nat) => (seq + 65536 - n) % 65536
  let gap := match nxt with
    | some n => if ahead n < 32768 then ahead n else 0
    | none => 0
  let old := match nxt with
    | some n => decide (ahead n ≥ 32768)
    | none => false
  let top := f.recent.foldl (fun m a => if (a.seq + 65536 - m) % 65536 < 32768 then a.seq else m) (seq % 65536)
  let near := fun (n : Nat) => decide ((top + 65536 - n) % 65536 < 32768)
  let f := { f with recent := f.recent.filter fun a => near a.seq, missing := f.missing.filter fun m => near m.seq }
  let f := ((List.range gap).map fun k => (seq + 65536 - gap + k) % 65536).foldl (Flow.gapAt legB t) (f.missOn legB gap)
  let f := if old then f else if legB then { f with nextB := some ((seq + 1) % 65536) } else { f with nextA := some ((seq + 1) % 65536) }
  match f.recent.find? (fun a => a.seq == seq), f.missing.find? (fun m => m.seq == seq) with
  | some a, _ => if t > a.at_ + f.window then f.discard legB false else f
  | none, some m =>
    if m.lost then f.discard legB (m.legB == legB)
    else { f with packets := satAdd f.packets 1, recent := f.recent ++ [⟨seq, legB, t⟩], missing := f.missing.filter fun k => k.seq != seq }
  | none, none => { f with packets := satAdd f.packets 1, recent := f.recent ++ [⟨seq, legB, t⟩] }

/-- The samples of an audio packet wait for their playout, by the matrix sample in which their media time lies (R188). -/
def Flow.queue (f : Flow) (p : RtpPkt) : Flow :=
  { f with play := p.audio.zipIdx.foldl (fun t x => tabPut t ((p.media + audT / 2) / audT + x.2) x.1) f.play }

/-- What a packet makes of the receive flow at `key`: an audio packet that arrives after its samples' playout time, media time plus LINK_OFS, is
late, and its samples are silence (R188). -/
def State.flowTakes (s : State) (key : Nat) (legB : Bool) (p : RtpPkt) (t : Nat) (f : Flow) : Flow :=
  let f := if f.rcd.prot then f.arrive p.seq legB t else { f with packets := satAdd f.packets 1 }
  let ofs := max 2 (min 80 (s.get R.AUD_CTL F.AUD_CTL_LINK_OFS)) * 125 * ticksPerUs
  let taken := !f.rcd.prot || f.recent.any fun a => a.seq == p.seq && a.leg == legB && a.at_ == t
  let f := if key / 1024 ≠ 1 then f
    else if p.media + ofs < t then { f with late := satAdd f.late 1 }
    else if taken then f.queue p else f
  let f := if legB then { f with lostB := false } else { f with lostA := false }
  if key / 1024 = 0 then
    if p.frameStart then { f with lost := false, grid := some (s.measGrid f.rcd.fmt p.period
      (((s.fmt? f.rcd.fmt).map (·.totL)).getD 1) p.phase) } else f
  else { f with lost := false }

/-- A packet reaches the flow it matches. -/
def State.flowPacket (s : State) (key : Nat) (legB : Bool) (p : RtpPkt) (t : Nat) : State :=
  match tabFind s.media.rxFlow key with
  | none => s
  | some f =>
    let s := { s with media := { s.media with rxFlow := tabPut s.media.rxFlow key (s.flowTakes key legB p t f) } }
    if key / 1024 = 0 ∧ p.frameStart then s.refreshSrc (72 + key) else s

/-- The longest frame a port takes (Table 2-7). -/
def State.maxFrame (s : State) (q : Nat) : Nat := if s.flag (R.QE_CTL q) F.QE_CTL_EXT_UDP then 9022 else 1522

/-- The IPv6 address of a sub-port in force (R56). -/
def State.qeIp6 (s : State) (q sub : Nat) : Nat :=
  (List.range 4).foldl (fun v w => v + (s.inForce (R.QE_IP6 q sub w)).toNat * 2 ^ (32 * w)) 0

/-- A request for the sub-port's own address is answered; one for another is dropped and counted (R49). A sub-port with no address has
none to answer for. -/
def State.askedFor (s : State) (q sub own addr : Nat) (m : NetMsg) : State :=
  if own ≠ 0 ∧ addr = own then { s with media := { s.media with net := s.media.net ++ [m] } } else s.inc (R.QE_RX_NOMATCH q sub)

/-- QE_RX_FRAME: an arriving frame goes to its flow, to firmware, or is dropped and counted (R49); one above the maximum length (Table
2-7) goes to no flow. `corr` codewords of it were corrected (Table 2-10). -/
def execQeRxFrame (q : Fin 4) (sub : Fin 4) (f : EthFrame) (len corr : Nat) (t : Nat) (s : State) :
    Host.Outcome State Fault Refusal :=
  .next (
    let s := s.at_ t
    if !s.subOn q sub then s
    else
      let s := s.count (R.QE_FEC_CORR q sub) corr
      if f != .badFcs && decide (s.maxFrame q < len) then s.inc (R.QE_RX_NOMATCH q sub)
      else match f with
      | .badFcs => s.inc (R.QE_RX_BADFCS q sub)
      | .rtp p => match s.matchFlow q sub p with
        | some m => s.flowPacket m.1 m.2 p t
        | none => s.inc (R.QE_RX_NOMATCH q sub)
      | .ptp => s
      | .igmp => s
      | .mld => s
      | .arp a => s.askedFor q sub (s.rd (R.QE_IP4 q sub)).toNat a (.arpReply q sub)
      | .nd a => s.askedFor q sub (s.qeIp6 q sub) a (.ndReply q sub)
      | .other => s.inc (R.QE_RX_NOMATCH q sub))

/-- A multicast destination address: IPv4 224/4, IPv6 ff00::/8. -/
def isMulticast (v6 : Bool) (a : Nat) : Bool := if v6 then a % 256 == 0xFF else decide (224 ≤ a % 256 ∧ a % 256 < 240)

/-- The groups joined on a sub-port: enabled multicast receive flows (R52) and the domain's group (R408). -/
def State.joined (s : State) (q sub : Nat) : List NetMsg :=
  (s.media.rxFlow.filterMap fun e =>
    let r := e.2.rcd
    if r.sub == sub && flowOnPort q r && isMulticast r.ipv6 r.dstAddr then
      some (.join q sub r.dstAddr (if r.srcFilter then r.srcAddr else 0) r.ipv6) else none)
  ++ (let c := R.MATE_DOM_CFG
      if s.flag c F.MATE_DOM_CFG_EN && s.get c F.MATE_DOM_CFG_PORT == q && s.get c F.MATE_DOM_CFG_SUB == sub then
        [.join q sub ((List.range 4).foldl (fun v w => v + (s.inForce (R.MATE_DOM_GRP w)).toNat * 2 ^ (32 * w)) 0) 0
          (s.flag c F.MATE_DOM_CFG_IPV6)] else [])

/-- A lane of the sub-port is under test (Table 18-4): in 400 GbE mode every lane carries sub-port 0. -/
def State.qeTesting (s : State) (q sub : Nat) : Bool :=
  (List.range 4).any fun l => (!s.flag (R.QE_STAT q) F.QE_STAT_MODE || l == sub) && s.underTest (0x40000 + 4 * q + l)

/-- QE_LINK_UP: LINK_UP and FEC_LOCK set, and every joined group is reported (R52). -/
def execQeLinkUp (q : Fin 4) (sub : Fin 4) (s : State) : Host.Outcome State Fault Refusal :=
  .next (
    if !s.subOn q sub || s.qeTesting q sub || s.flag (R.QE_STAT q) (bit sub) then s
    else
      let s := (s.set (R.QE_STAT q) (bit sub) 1).set (R.QE_STAT q) (bit (8 + sub)) 1
      { s with media := { s.media with net := s.media.net ++ s.joined q sub } })

/-- QE_LINK_DOWN. -/
def execQeLinkDown (q : Fin 4) (sub : Fin 4) (s : State) : Host.Outcome State Fault Refusal := .next (s.qeDown q sub)

/-- FEC_UNCORRECTABLE: an uncorrectable codeword is counted and flagged (Table 2-10). -/
def execFecUncorrectable (q : Fin 4) (sub : Fin 4) (s : State) : Host.Outcome State Fault Refusal :=
  .next (if s.subOn q sub then (s.inc (R.QE_FEC_UNCORR q sub)).raise (Hist.qe q) F.QE_HIST_FEC_UNCORR else s)

/-- IGMP_QUERY: the firmware answers with every group joined on the sub-port (R52). -/
def execIgmpQuery (q : Fin 4) (sub : Fin 4) (v6 : Bool) (s : State) : Host.Outcome State Fault Refusal :=
  .next (
    if s.subOn q sub && s.flag (R.QE_STAT q) (bit sub) then
      { s with media := { s.media with net := s.media.net ++ (s.joined q sub).filter fun m =>
        match m with
        | .join _ _ _ _ six => six == v6
        | _ => false } }
    else s)

/-- The number of a flow kind in flow keys (Table 9-8). -/
def kindNum : FlowKind → Nat
  | .video => 0 | .audio => 1 | .anc => 2

/-- FLOW_LOSS: an enabled receive flow declares loss (R53, Table 2-5 from E2 on). R53 counts it in STATS without naming the count: the
unrecovered count adds one (DESIGN CHOICE, assumption 159). -/
def execFlowLoss (k : FlowKind) (f : Fin 1024) (t : Nat) (s : State) : Host.Outcome State Fault Refusal :=
  .next (
    let s := s.at_ t
    let key := 1024 * kindNum k + f
    match tabFind s.media.rxFlow key with
    | none => s
    | some x =>
      let x := { x with lost := true, grid := none, unrec := satAdd x.unrec 1 }
      let s := { s with media := { s.media with rxFlow := tabPut s.media.rxFlow key x } }
      if kindNum k = 0 then s.sourceLost (72 + f) else if kindNum k = 1 then s.clkLost (128 + f) else s)

/-- LEG_LOST: a leg of a protected flow carries no packet for the loss time; the output is not affected (R54). -/
def execLegLost (k : FlowKind) (f : Fin 1024) (legB : Bool) (s : State) : Host.Outcome State Fault Refusal :=
  .next (
    let key := 1024 * kindNum k + f
    match tabFind s.media.rxFlow key with
    | none => s
    | some x =>
      let x' := if legB then { x with lostB := true } else { x with lostA := true }
      if x.rcd.prot then { s with media := { s.media with rxFlow := tabPut s.media.rxFlow key x' } } else s)

/-- PTP_TIMESTAMP: a sub-port that runs timestamps an event message, corrected by QE_PTP_ASYM; a full queue loses it (R55). `taken`
entries have been read out of the queue since. The manual gives no sign convention for the correction: the model adds it, to ingress and
egress alike (DESIGN CHOICE, assumption 160). -/
def execPtpTimestamp (q : Fin 4) (sub : Fin 4) (ns : Nat) (taken : Nat) (s : State) : Host.Outcome State Fault Refusal :=
  .next (
    let s := { s with media := { s.media with ptpQ := s.media.ptpQ.drop taken } }
    if !s.subOn q sub then s
    else if s.media.ptpQ.length ≥ 64 then s.raise (Hist.qe q) F.QE_HIST_PTP_TS_OVF
    else { s with media := { s.media with ptpQ := s.media.ptpQ ++
      [(q.val * 4 + sub.val, ((ns : Int) + s.rdInt (R.QE_PTP_ASYM q sub)).toNat)] } })

end Sys2Proof.Machine
end

