-- ==== Sys2Proof/Machine/LvOps.lean ====
section
/-! DEFINITION. Shared operations of the LV agent: the register image, takes and their switch points, the AES outputs, and the settings
held on the window's lanes (chapter 10, R291 to R305; R312 to R314). -/
namespace Sys2Proof.Machine

/-- The agent answers LV SPI (R296, R314; Table 11-3 for END). -/
def State.lvAnswers (s : State) : Bool := s.lvOn && s.lv.answers && s.lifecycle != 4

/-- The agent takes LV writes and takes: not in the STANDBY role (R312). -/
def State.lvWrites (s : State) : Bool := s.lvAnswers && s.role != 2

/-- LV SPI is refused under signing-required mode (R313). -/
def State.lvSigned (s : State) : Bool := s.persona == 2 && s.signReq

/-- IRQ_STAT bits: 0 TAKE_DONE, 1 TAKE_BUSY, 2 TAKE_ERR, 3 IN_CHANGE, 4 REF_CHANGE. -/
def State.lvIrq (s : State) (b : Nat) : State := { s with lv := { s.lv with irq := s.lv.irq ||| 2 ^ b } }

/-- LV_IRQ_N is driven low (R298); through a warm reset it keeps its level (R314). -/
def State.lvIrqLow (s : State) : Bool :=
  match s.lv.irqHold with
  | some b => b
  | none => s.lvOn && s.role != 2 && s.lifecycle != 4 && (s.lvReg 2).getLsbD 0 && (s.lv.irq &&& (s.lvReg 7).toNat) != 0

/-- What is in force on LV output `o`. -/
def State.lvOut (s : State) (o : Nat) : LvOut := tabGet {} s.lv.outs o
/-- `s` with other values in force on LV output `o`. -/
def State.setLvOut (s : State) (o : Nat) (x : LvOut) : State := { s with lv := { s.lv with outs := tabSet {} s.lv.outs o x } }

/-- LV format code (Table 10-7). -/
def lvFormat (f : Nat) : Nat := if f ≤ 0xE then f else if f = 0xF then 0xE else 0xF

/-! ### Reads (Tables 10-3 to 10-6) -/

/-- The value of the LV register at `addr` of the page selected. -/
def State.lvRead (s : State) (addr : Nat) : BitVec 16 :=
  let page := (s.lvReg 127).toNat
  let pend := !s.lv.takes.isEmpty
  let b := fun (x : Bool) (n : Nat) => if x then n else 0
  if addr = 0x7F then s.lvReg 127
  else if page = 0 then
    if addr = 0 then 0x3232
    else if addr = 1 then 0x0103
    else if addr = 2 ∨ addr = 3 ∨ addr = 4 ∨ addr = 7 then s.lvReg addr
    else if addr = 5 then BitVec.ofNat 16 (b pend 1)
    else if addr = 6 then BitVec.ofNat 16 (b pend 1 + b s.lv.refLock 2 + b s.lv.ready 4)
    else if addr = 8 then BitVec.ofNat 16 s.lv.irq
    else 0
  else if 32 ≤ addr then 0
  else if page = 2 then BitVec.ofNat 16 (tabGet 0xF s.lv.inStat addr)
  else s.lvReg (128 * page + addr)

/-! ### Timing of a switch (R302, R303) -/

/-- REFA's timing: its format's frames, displaced by the phase last measured; with no phase measured where its frames start is not
stated (assumption 2). -/
def State.refaGrid (s : State) : Option Grid :=
  let i := s.get (R.REF_IN_STAT 0) F.REF_IN_STAT_FORMAT
  (s.fmt? i).map fun f =>
    if s.rd (R.REF_IN_PHASE 0) = 0x80000000 then
      let p := (Config.fresh 64 s.free).toNat % f.period
      ⟨i, f.period, f.totL, p, p, 0, false, false⟩
    else f.refGrid i 0 (s.rdInt (R.REF_IN_PHASE 0) * 2376)

/-- The switch line on a chosen timing: SWLINE.LINE when OVR = 1 and the format has it, else Table 3-5's. -/
def State.lvLine (s : State) (g : Grid) : Nat :=
  let w := (s.lvReg 4).toNat
  let l := w % 2048
  if w / 32768 = 1 ∧ l ≠ 0 ∧ l ≤ g.lines then l else s.fmtSw g.fmt

/-- The first switch line of a chosen timing at least MARGIN lines after `t`. -/
def State.lvPoint (s : State) (g : Grid) (t : Nat) : Nat := g.actual (g.lineAt (s.lvLine g) (g.nominal (t + s.marginTicks g)))

/-- The first line start of a grid after `q`. -/
def Grid.nextLine (g : Grid) (q : Nat) : Nat :=
  let f := g.frameAt (q + 1)
  let base := f - g.period
  ((List.range g.lines).map fun k => base + g.lineTicks k).foldl (fun b x => if q < x ∧ x < b then x else b) f

/-- The source lane of LV input `i`. -/
def State.lvSrc (s : State) (i : Nat) : Nat := s.lv.rxBase + i
/-- The destination of LV output `o`. -/
def State.lvDst (s : State) (o : Nat) : Nat := s.lv.txBase + o

/-- REFA's timing is chosen: REFSRC = 1 and REF_LOCK = 1. -/
def State.lvByRefa (s : State) : Option Grid := if (s.lvReg 3).getLsbD 0 && s.lv.refLock then s.refaGrid else none

/-- The switch point of a latched switch armed at `t`; none when its chosen timing does not run, so that it switches at once. -/
def State.lvDue (s : State) (o : Nat) (w : LvSwitch) (t : Nat) : Option Nat :=
  let own := if w.en then (if w.input < 32 then s.srcGrid (s.lvSrc w.input) else none) else s.dstGrid (s.lvDst o)
  match s.lvByRefa with
  | some g =>
    let q := s.lvPoint g t
    if w.en then match own with
      | some g' => if g.near g' then some q else some (g'.nextLine q)
      | none => some q
    else some q
  | none => own.map fun g => s.lvPoint g t

/-! ### AES outputs (R305) -/

/-- The source of LV AES output `k`: lane and pair of the lowest-numbered output that names it; none for silence. -/
def State.lvAesSrc (s : State) (k : Nat) : Option (Nat × Nat) :=
  match lowest 32 (fun o => s.outCtl o / 8 ^ k % 8 != 0) with
  | none => none
  | some o =>
    let x := s.lvOut o
    if x.en && !x.held && s.flag (R.SDI_TX_STAT (s.lvDst o)) F.SDI_TX_STAT_ACTIVE then some (s.lvSrc x.input, s.outCtl o / 8 ^ k % 8)
    else none

/-- Channel `c` of AES3 output `n` takes a source, at once. -/
def State.lvAesChan (s : State) (n c : Nat) (src : Option Nat) : State :=
  let e := audEp 4 n c
  match src, s.slotOf e with
  | some r, some (o, x) => s.setSlot o { x with src := ⟨r, none⟩, live := true }
  | some r, none => match s.pickSlot false with
    | some o => s.setSlot o { dst := e, src := ⟨r, none⟩, live := true }
    | none => s
  | none, some (o, _) => s.dropSlot o
  | none, none => s

/-- AES3 output `n` runs as a master on the lowest-numbered synthesizer of its quadrant that runs family I. -/
def State.lvAesOn (s : State) (n : Nat) : State :=
  match lowest 4 fun j => s.get (R.SYN_TS_STAT (n / 4 * 4 + j)) F.SYN_TS_STAT_STATE == 3
      && s.get (R.SYN_TS_STAT (n / 4 * 4 + j)) F.SYN_TS_STAT_FAMILY == 0 with
  | some j => if s.get (R.AESO_CTL n) ⟨0, 5⟩ = 4 * j + 1 then s else s.aesoWrite n (4 * j + 1)
  | none => s

/-- The management cores make the LV AES connections on the agent's behalf. -/
def State.lvAes_ (s : State) : State :=
  if !s.lvOn then s
  else ([0, 1, 2, 3] : List Nat).foldl (fun (s : State) (k : Nat) =>
    let n := 4 * s.lv.aesQ + k
    let s := s.lvAesOn n
    match s.lvAesSrc k with
    | some (l, p) => (s.lvAesChan n 0 (some (audEp 1 l (2 * p - 2)))).lvAesChan n 1 (some (audEp 1 l (2 * p - 1)))
    | none => (s.lvAesChan n 0 none).lvAesChan n 1 none) s

/-! ### The window (R290, R291) -/

/-- The settings of Table 10-1 on receive lane `n`. -/
def State.lvHoldRx (s : State) (n : Nat) : State :=
  let c := R.SDI_RX_CTL n
  let s := s.setRx n { s.rx n with groupReq := 0 }
  let s := ((s.set c F.SDI_RX_CTL_EN 1).set c F.SDI_RX_CTL_PD 0).set c F.SDI_RX_CTL_MULTI 0
  (s.set c F.SDI_RX_CTL_RATE_FORCE 0).set c F.SDI_RX_CTL_LOS_ACT 1

/-- The settings of Table 10-1 on the transmit lane of LV output `o`. -/
def State.lvHoldTx (s : State) (o : Nat) (t : Nat) : State :=
  let n := s.lvDst o
  let c := R.SDI_TX_CTL n
  let s := s.setTx n { s.tx n with groupReq := 0 }
  let s := ((s.set c F.SDI_TX_CTL_MULTI 0).set c F.SDI_TX_CTL_DIV 0).set c F.SDI_TX_CTL_ATC_INS 1
  let s := s.set c F.SDI_TX_CTL_PID_MODE 1
  let d := R.XPT_DST_CFG n
  let s := ((s.set d F.XPT_DST_CFG_AFV 0).set d F.XPT_DST_CFG_REFUSE_UNTIMED 0).set d F.XPT_DST_CFG_SWLINE 0
  s.txPower n (decide (s.outCtl o < 32768)) false t

/-- The agent drives the lanes of its window (Table 10-1). -/
def State.lvHold (s : State) (t : Nat) : State :=
  if !s.lvOn then s
  else
    let s := (List.range 32).foldl (fun (s : State) i => s.lvHoldRx (s.lvSrc i)) s
    ((List.range 32).foldl (fun (s : State) o => s.lvHoldTx o t) s).lvAes_

/-! ### Status (R298) -/

/-- IN_STAT of LV input `i` as the lane stands. -/
def State.lvInStat (s : State) (i : Nat) : Nat :=
  let a := R.SDI_RX_STAT (s.lvSrc i)
  let r := s.get a F.SDI_RX_STAT_RATE
  let lock := s.flag a F.SDI_RX_STAT_TRS_LOCK && decide (1 ≤ r ∧ r ≤ 5)
  (if s.flag a F.SDI_RX_STAT_CARRIER then 32 else 0) + (if lock then 16 else 0)
    + (if lock then lvFormat (s.get a F.SDI_RX_STAT_FORMAT) else 0xF)

/-- REF_LOCK as REFA stands. -/
def State.refaLock (s : State) : Bool :=
  s.flag (R.REF_IN_CFG 0) F.REF_IN_CFG_EN && decide (2 ≤ s.get (R.REF_IN_STAT 0) F.REF_IN_STAT_STATE)
    && s.get (R.REF_IN_STAT 0) F.REF_IN_STAT_FORMAT != 0xFF

/-- IN_STAT and REF_LOCK follow the lanes and REFA, and their change bits set. -/
def State.lvFollow (s : State) : State :=
  let s := (List.range 32).foldl (fun (s : State) i =>
    let v := s.lvInStat i
    if v = tabGet 0xF s.lv.inStat i then s
    else ({ s with lv := { s.lv with inStat := tabSet 0xF s.lv.inStat i v } }).lvIrq 3) s
  let l := s.refaLock
  if l == s.lv.refLock then s else ({ s with lv := { s.lv with refLock := l } }).lvIrq 4

/-! ### Takes (R299 to R304) -/

/-- Takes that have no pending switch and wait for no acknowledgement are complete (R300, R312). -/
def State.lvTakesDone (s : State) : State :=
  let ended := fun (k : Nat) => !s.lv.pend.any (fun p => p.2.take == k) && match tabFind s.lv.acks k with
    | some id => !s.mate.await.contains id
    | none => true
  let done := s.lv.takes.filter ended
  if done.isEmpty then s
  else
    let left := s.lv.takes.filter fun k => !ended k
    let s := { s with lv := { s.lv with takes := left, acks := s.lv.acks.filter fun p => left.contains p.1 } }
    let s := (s.count R.LVP_TAKE_CNT done.length).raise Hist.lvp F.LVP_HIST_TAKE
    if left.isEmpty then s.lvIrq 0 else s

/-- A take is ignored (R300). -/
def State.lvBusy (s : State) : State := s.lvIrq 1

/-- What OUT_SEL of output `o` asks for. -/
def State.lvAsked (s : State) (o : Nat) : Bool × Nat :=
  let v := (s.lvReg (128 + o)).toNat
  (v / 32768 == 1, v % 256)

/-- One output is latched into take `k`: dropped, complete at the latch, or pending. -/
def State.lvLatchOut (s : State) (k o : Nat) : State :=
  let (en, input) := s.lvAsked o
  let x := s.lvOut o
  if en && decide (31 < input) then (s.lvIrq 2).raise Hist.lvp F.LVP_HIST_TAKE_ERR
  else if x.en == en && x.input == input then s
  else { s with lv := { s.lv with pend := tabPut s.lv.pend o { en := en, input := input, take := k } } }

/-- A take of outputs `l` latches (R299 to R301, R313, R314). -/
def State.lvLatch (s : State) (l : List Nat) : State :=
  if !s.lvWrites then s
  else if s.lvSigned then s.lvBusy.log 6 1 5 1 0xFFFF 0xFFFF s.rfnNow 0xFF
  else if !s.lv.ready || l.any fun o => (tabFind s.lv.pend o).isSome then s.lvBusy
  else
    let k := s.lv.nextTk
    let s := { s with lv := { s.lv with nextTk := k + 1, takes := s.lv.takes ++ [k] } }
    (l.foldl (fun (s : State) o => s.lvLatchOut k o) s).lvTakesDone

/-- The route of LV output `o` and its history change as its switch asks (R292, R302, R303). -/
def State.lvCarry (s : State) (o : Nat) (w : LvSwitch) (org t : Nat) : State :=
  let d := s.lvDst o
  let src := s.lvSrc w.input
  let a := R.SDI_RX_STAT src
  let fast := s.flag a F.SDI_RX_STAT_TRS_LOCK && decide (5 < s.get a F.SDI_RX_STAT_RATE)
  let rfn := if s.timeValid then s.rfnAt t else 0
  if w.en && !fast then
    let clean := s.clean d src
    let s := s.changeover d src 1 t
    let s := if clean then s else s.raise (Hist.dst d) F.XPT_DST_HIST_UNTIMED
    ((s.raise (Hist.dst d) F.XPT_DST_HIST_TAKE).setLvOut o ⟨true, w.input, false⟩).log 1 org 0 1 d src rfn 0xFF
  else
    let s := (s.setRoute d none).txRefresh d
    ((s.raise (Hist.dst d) F.XPT_DST_HIST_TAKE).setLvOut o ⟨w.en, w.input, w.en⟩).log 1 org 0 0 d
      (if w.en then src else 0xFFFF) rfn 0xFF

/-- The switch of LV output `o` executes at `t`. -/
def State.lvSwitch (s : State) (o t : Nat) : State :=
  match tabFind s.lv.pend o with
  | none => s
  | some w =>
    let s := s.lvCarry o w (if s.role = 2 then 4 else 1) t
    ({ s with lv := { s.lv with pend := tabDel s.lv.pend o } }).lvAes_.lvTakesDone

/-- A latched switch takes the switch point `q`, where it has one. -/
def State.lvSetDue (s : State) (o : Nat) (q : Option Nat) : State :=
  match tabFind s.lv.pend o, q with
  | some w, some q => { s with lv := { s.lv with pend := tabPut s.lv.pend o { w with due := some q } } }
  | _, _ => s

/-- The switches latched are armed at `t`; one whose chosen timing does not run switches at once (R302, R304). -/
def State.lvArm (s : State) (t : Nat) : State :=
  let l := s.lv.pend.filter fun p => p.2.due.isNone
  let ks := (l.map (·.2.take)).eraseDups.filter fun k => (tabFind s.lv.acks k).isNone
  let s := l.foldl (fun (s : State) (p : Nat × LvSwitch) =>
    match s.lvDue p.1 p.2 t with
    | some q => { s with lv := { s.lv with pend := tabPut s.lv.pend p.1 { p.2 with due := some q } } }
    | none => s) s
  let s := if s.forwards then ks.foldl (fun (s : State) k =>
      let (id, s) := s.newId
      { s with lv := { s.lv with acks := tabPut s.lv.acks k id } }) s
    else s
  let s := { s with free := s.free + 1 }
  (s.lv.pend.filter fun p => p.2.due.isNone).foldl (fun (s : State) (p : Nat × LvSwitch) => s.lvSwitch p.1 t) s

end Sys2Proof.Machine
end

