-- ==== Sys2Proof/Machine/MateOps.lean ====
section
/-! DEFINITION. Shared operations of the twin: role and epoch (R397), synchronisation, the conditions of Table 16-3, promotion (R404)
and the configuration digest (Table 16-1, R400). -/
namespace Sys2Proof.Machine

/-- The role epoch after a change: never 0 (R397). -/
def nextEpoch (e : Nat) : Nat := if 0xFFFFFFFF ≤ e then 1 else e + 1

/-- A new epoch, stored write-through in record 0 before the role takes effect (R397). -/
def State.setEpoch (s : State) (e : Nat) : State := (s.wr R.MATE_EPOCH (BitVec.ofNat 32 e)).change 0

/-- Twin role `r`; a change sets ROLE_CHG (R309). -/
def State.setRole (s : State) (r : Nat) : State :=
  if s.role = r then s else (s.set R.MATE_STAT F.MATE_STAT_ROLE r).raiseMode F.GLB_MODE_HIST_ROLE_CHG

/-- A refused change of a mode dimension (R310). -/
def State.modeRefused (s : State) (code : Nat) : State :=
  (s.set R.GLB_MODE_REFUSE F.GLB_MODE_REFUSE_CODE code).raiseMode F.GLB_MODE_HIST_MODE_REFUSED

/-- SYNC: 0 none, 1 SYNCING, 2 SYNCED, 3 NOT_READY. -/
def State.sync (s : State) : Nat := s.get R.MATE_STAT F.MATE_STAT_SYNC

/-- CHANGEOVER_READY falls (R402). -/
def State.readyFall (s : State) : State :=
  if s.flag R.MATE_STAT F.MATE_STAT_CHANGEOVER_READY then
    (s.set R.MATE_STAT F.MATE_STAT_CHANGEOVER_READY 0).raise Hist.mate F.MATE_HIST_NOT_READY
  else s

/-- SYNC reads `v`; away from SYNCED the STANDBY is not ready for a changeover. -/
def State.setSync (s : State) (v : Nat) : State :=
  let s := s.set R.MATE_STAT F.MATE_STAT_SYNC v
  if v = 2 then s else s.readyFall

/-- An item could not be admitted: NOT_READY, and vector 2 is raised (R312, R399). -/
def State.syncFail (s : State) : State := (s.setSync 3).raiseVec 2

/-- Discarded completions that wait for no acknowledgement any more release their in-flight entries (R260). -/
def State.dropDiscarded (s : State) : State :=
  if s.host.cpls.any (·.ring == noRing) then
    ({ s with host := { s.host with cpls := s.host.cpls.filter fun c => c.ring != noRing || match c.await with
      | some id => s.mate.await.contains id
      | none => false } } : State).leapRateCheck
  else s

/-- The PRIMARY waits for no acknowledgement any more (R403). -/
def State.clearAwait (s : State) : State :=
  ({ s with mate := { s.mate with await := [], fwdRfn := [], fwdHold := [] } }).dropDiscarded.lvTakesDone

/-- A fenced MATE lane, LV personality or END keeps the link down (R311, R396, R434). -/
def State.mateOff (s : State) : Bool :=
  s.persona == 1 || s.lifecycle == 4
    || (List.range 4).any fun l => (s.fltUnit (0x50000 + l)).fenced || s.flt.recs.any fun r => r.st == 1 && r.unit == 0x50000 + l

/-- Both paths are lost, or the partner's restart has lasted too long (R403). -/
def State.partnerGone (s : State) : Bool := (s.mate.linkLost && s.mate.sbLost) || s.mate.restart

/-- Promotion (Table 16-4): the epoch, then the role. -/
def State.promote (s : State) : State :=
  let s := { s with mate := { s.mate with promote := false } }
  let s := (s.setEpoch (nextEpoch s.epoch)).setRole 1
  (s.setSync 0).raise Hist.mate F.MATE_HIST_PROMOTED

/-- The selector of a STANDBY that both paths have left is in ACQUIRE or TRACK. -/
def State.mayPromote (s : State) : Bool :=
  s.get R.REF_STAT F.REF_STAT_STATE == 1 || s.get R.REF_STAT F.REF_STAT_STATE == 2

/-- The selector has entered ACQUIRE (R403). -/
def State.acquirePromote (s : State) : State :=
  if s.mate.promote && s.role == 2 && s.partnerGone then s.promote else s

/-- What SYNC reads once a STANDBY has left SYNCED by isolation: the manual names no value but SYNCED (assumption 22). -/
def notSynced (n : Nat) : Nat := if (Config.fresh 4 n).getLsbD 0 then 1 else if (Config.fresh 4 n).getLsbD 1 then 0 else 3

/-- Both paths are found lost. -/
def State.losePartner (s : State) : State :=
  let s := (s.set R.MATE_STAT F.MATE_STAT_PARTNER_LOST 1).raise Hist.mate F.MATE_HIST_PARTNER_LOST
  let s := s.clearAwait
  if s.role = 2 then
    if s.mayPromote then s.promote else { s with mate := { s.mate with promote := true } }
  else s

/-- The device becomes ISOLATED. -/
def State.isolate (s : State) : State :=
  let s := (s.set R.MATE_STAT F.MATE_STAT_ISOLATED 1).raise Hist.mate F.MATE_HIST_ISOLATED
  let s := s.clearAwait
  if s.role = 2 ∧ s.sync = 2 then
    let (n, s) := s.draw
    s.setSync (notSynced n)
  else s

/-- ISOLATED and PARTNER_LOST of a paired device follow its paths (Table 16-3). -/
def State.mateCond (s : State) : State :=
  if s.role = 0 then s
  else
    let lost := s.partnerGone
    let iso := s.mate.linkLost && !lost
    let s := if !iso then s.set R.MATE_STAT F.MATE_STAT_ISOLATED 0
      else if s.flag R.MATE_STAT F.MATE_STAT_ISOLATED then s else s.isolate
    if lost then (if s.flag R.MATE_STAT F.MATE_STAT_PARTNER_LOST then s else s.losePartner)
    else ({ s with mate := { s.mate with promote := false } }).set R.MATE_STAT F.MATE_STAT_PARTNER_LOST 0

/-- The MATE link is down: a lane is no longer aligned (R395, R403). -/
def State.mateDown (s : State) : State :=
  (({ s with mate := { s.mate with linkLost := true } }).set R.MATE_STAT F.MATE_STAT_LINK_UP 0).mateCond

/-- The device leaves its pair: SOLO with a new epoch (R400). -/
def State.detach (s : State) : State :=
  if s.role = 0 then s
  else
    let s := (s.setEpoch (nextEpoch s.epoch)).setRole 0
    let s := ((s.set R.MATE_STAT F.MATE_STAT_ISOLATED 0).set R.MATE_STAT F.MATE_STAT_PARTNER_LOST 0).setSync 0
    let s := { s with mate := { s.mate with promote := false, restart := false } }
    s.clearAwait.raise Hist.mate F.MATE_HIST_DETACHED

/-- The configuration digest's items that a register write changes (Table 16-1). -/
def State.digest (s : State) : List Nat :=
  [s.leapRate, if s.persona = 2 then (s.rd R.LVP_WIN).toNat else 0,
    s.get R.HSF_VCTL F.HSF_VCTL_MODE, if s.adaptive then 0 else s.get R.HSF_VCTL F.HSF_VCTL_VPROG,
    s.get R.AXL_CTL F.AXL_CTL_ARM, s.get R.MATE_DOM_UNIT F.MATE_DOM_UNIT_UNIT, s.get R.MATE_DOM_CFG F.MATE_DOM_CFG_EN]

/-- What the configuration digest of a pairing covers (Table 16-1): those items, the lifecycle state, the signing mode and the pinned
operator keys. Two digests are equal when the items are (DESIGN CHOICE, assumption 175). -/
def State.pairDigest (s : State) : List Nat :=
  s.digest ++ [s.lifecycle, if s.signReq then 1 else 0] ++ (s.sec.keys.map fun p => p.1 :: p.2.oid :: p.2.key).flatten

/-- A host write that led from `s0` to `s`: a changed digest detaches the pair (R400); so does a write that asks for another leap rate, which
comes into force later (DEDUCED, assumption 175). -/
def State.afterWrite (s s0 : State) : State :=
  if s.digest = s0.digest ∧ s.get R.XPT_CTL F.XPT_CTL_LEAP_RATE = s0.get R.XPT_CTL F.XPT_CTL_LEAP_RATE then s else s.detach

/-- Selector state: 0 FREERUN, 1 ACQUIRE, 2 TRACK, 3 HOLDOVER. -/
def State.selSt (s : State) : Nat := s.get R.REF_STAT F.REF_STAT_STATE

/-- REF_XO_CAL takes the mean of a TRACK, and its record is stored (R220, R233). -/
def State.calibrate (s : State) (rate : Int) : State := (s.wrInt R.REF_XO_CAL rate).change 14

/-- TRACK ends at an event that brings no means with it and that no suspicion came before: REF_XO_CAL takes the mean over its last HOLD_AVG
seconds, and T_avg with it, both free values (R220, R232; assumption 196). -/
def State.trkMean (s : State) : State :=
  if s.selSt ≠ 2 ∨ s.ref.ts.isSome then s
  else
    let (n, s) := s.draw
    let s := { s with ref := { s.ref with tAvg := (Config.fresh 16 n).toInt } }
    s.calibrate (Config.fresh 32 n).toInt

end Sys2Proof.Machine
end

