-- ==== Sys2Proof/Machine/SouOps.lean ====
section
/-! DEFINITION. Shared operations of the scan-out units: the checks of a set (R159, R162, R166, R168), commit lines (R171 to R175),
and the layers' buffers. -/
namespace Sys2Proof.Machine

/-! ### Urgency (R317, R318) -/

/-- A requester of the fabric with what its urgency follows from (Table 12-1): a layer's bytes in its share, with the watermarks in per cent; a
buffer's fill; a running slice's deadline and its slice-time, at an instant. -/
inductive Requester where
  | layer (fill share low crit : Nat)
  | writer (fill size : Nat)
  | receive (fill size : Nat)
  | transmit (fill size : Nat)
  | slice (deadline sliceTime t : Nat)
  | gecko
  | hostDma
  | other
deriving DecidableEq, Repr

/-- The urgency of a requester: 2 critical, 1 urgent, 0 normal. -/
def Requester.level : Requester → Nat
  | .layer f n low crit => if 100 * f < crit * n then 2 else if 100 * f < low * n then 1 else 0
  | .writer f n => if 7 * n < 8 * f then 2 else if n < 2 * f then 1 else 0
  | .receive f n => if 3 * n < 4 * f then 2 else if n < 2 * f then 1 else 0
  | .transmit f n => if 4 * f < n then 2 else if 2 * f < n then 1 else 0
  | .slice d k t => if d < t then 2 else if d < t + k then 1 else 0
  | .gecko => 1
  | .hostDma => 0
  | .other => 0

/-- Requester `a` is granted before `b`, which reached the arbiter earlier: by urgency, host DMA last of all (R317, R318). -/
def Requester.over_ (a b : Requester) : Bool :=
  decide (b.level < a.level) || (a.level == b.level && b == .hostDma && a != .hostDma)

/-! ### Sets -/

/-- The pending set a SOU_CFG makes: the groups it names replace their values (R166). -/
def mergeSet (p : SouSet) (r : SouReq) (syn : Nat) : SouSet :=
  let x := r.set
  let p := if r.gTiming then { p with fmt := x.fmt, syn := syn, offLines := x.offLines, offSamps := x.offSamps } else p
  let p := if r.gOutput then { p with out444 := x.out444, cdesc := x.cdesc, bg := x.bg, cl1 := x.cl1, cl2 := x.cl2,
                                      frameOnly := x.frameOnly } else p
  let p := if r.gL1 then { p with l1 := x.l1 } else p
  let p := if r.gL2 then { p with l2 := x.l2 } else p
  if r.gL3 then { p with l3 := x.l3 } else p

/-- The TIMING group differs. -/
def timingDiffers (a b : SouSet) : Bool :=
  a.fmt != b.fmt || a.syn != b.syn || a.offLines != b.offLines || a.offSamps != b.offSamps

/-- A ring's rate, scan and colour description are the unit's (R159). -/
def State.ringMatches (s : State) (g : Ring) (x : SouSet) : Bool :=
  match s.fmt? x.fmt, s.fmt? g.fmt with
  | some f, some rf => rf.rate == f.rate && rf.inter == f.inter && g.cdesc == x.cdesc
  | _, _ => false

/-- The record offset at which layer `n` of a set fails, if it does; `named` says whether the descriptor names its group. -/
def State.layerBad (s : State) (x : SouSet) (l : SouLayer) (n : Nat) (named : Bool) : Option Nat :=
  let base := 0x20 + 0x10 * (n - 1)
  let keyBad := named && n != 1 && decide (2 < l.key)
  let posBad := named && ((s.fmt? x.fmt).map fun f => decide (f.w ≤ l.x) || decide (f.lines ≤ l.y)).getD false
  if !l.en then (if keyBad then some (base + 3) else if posBad then some (base + 4) else none)
  else match s.ring l.ring with
    | none => some base
    | some g =>
      if named && g.freeing then some base
      else if !s.ringMatches g x then some base
      else if named && l.fixed && decide (g.depth ≤ l.buf) then some (base + 3)
      else if keyBad || (named && n != 1 && l.key == 2 && g.rgb) then some (base + 3)
      else if posBad then some (base + 4)
      else none

/-- The line pitch of a layer's ring; 0 for a layer that is not enabled. -/
def State.layerPitch (s : State) (l : SouLayer) : Nat :=
  if l.en then match s.ring l.ring with
    | some g => ((s.fmt? g.fmt).map fun f => pitchOf g.pix f.w).getD 0
    | none => 0
  else 0

/-- The pitches of a set's enabled layers. -/
def State.pitchSum (s : State) (x : SouSet) : Nat := ((souLayers x).map s.layerPitch).sum

/-- A layer's share of the line buffer, in bytes (R162). -/
def State.layerShare (s : State) (x : SouSet) (l : SouLayer) : Nat := 131072 * s.layerPitch l / max 1 (s.pitchSum x)

/-- The record offset at which the TIMING and OUTPUT groups named fail. `q` is the unit's quadrant. -/
def State.groupsBad (s : State) (q : Nat) (x : SouSet) (r : SouReq) : Option Nat :=
  let f := s.fmt? x.fmt
  let t := if r.gTiming then match f with
      | none => some 2
      | some f =>
        let ts := 4 * q + x.syn
        if s.flag (R.SYN_TS_STAT ts) F.SYN_TS_STAT_DLL then some 1
        else if !r.retune && s.get (R.SYN_TS_STAT ts) F.SYN_TS_STAT_FAMILY != (if f.famF then 1 else 0) then some 1
        else if x.offLines ≥ f.totL ∨ x.offSamps ≥ f.totS then some 4
        else none
    else none
  let o := if r.gOutput then
      let tot := (f.map (·.totL)).getD 8191
      if x.cl1 > tot then some 8
      else if x.cl2 > tot then some 10
      else if x.cdesc / 4 % 4 ≠ 0 ∨ x.cdesc / 16 % 4 = 3 then some 0x10
      else none
    else none
  t.or o

/-- The record offset at which a merged set fails, lowest first. -/
def State.setBad (s : State) (q : Nat) (x : SouSet) (r : SouReq) : Option Nat :=
  (((s.groupsBad q x r).or (s.layerBad x x.l1 1 r.gL1)).or (s.layerBad x x.l2 2 r.gL2)).or
    ((s.layerBad x x.l3 3 r.gL3).or (if s.pitchSum x > 65536 then some 0x20 else none))

/-- Every destination the unit feeds can carry the set's picture (R168). -/
def State.fedCarry (s : State) (u : Nat) (x : SouSet) : Bool :=
  x.fmt == 0xFF || (s.dstsOf (352 + u)).all fun d => s.carries d x.fmt x.out444 true (x.cdesc / 64 % 2 == 1) none

/-- A pending set takes its place on a unit, with RETUNE where the descriptor names TIMING (R166); the ledger holds the larger of active and
pending until the commit (R168). -/
def State.setPending (s : State) (u : Nat) (x : SouSet) (r : SouReq) : State :=
  let y := s.unit u
  s.setUnit u { y with alloc := true, pending := x, committed := false, tune := if r.gTiming then r.retune else y.tune }

/-! ### Commit lines -/

/-- The timing a unit's commits follow: its running raster, or the pending set's grid before its first commit. -/
def State.commitGrid (s : State) (u : Nat) : Option (Grid × SouSet) :=
  let x := s.unit u
  let set := if x.run then x.active else x.pending
  (s.setGrid u set).map fun g => (g, set)

/-- The commit lines in force: the last field's alone with FRAME_ONLY, or when the TIMING group changes (R171, R176). -/
def commitLines (f : Fmt) (set : SouSet) (lastOnly : Bool) : List Nat :=
  let c1 := if set.cl1 = 0 then f.cl1 else set.cl1
  let c2 := if set.cl2 = 0 then f.cl2 else set.cl2
  if !f.inter then [c1] else if lastOnly || set.frameOnly then [c2] else [c1, c2]

/-- The commits of a unit go to the last field's line: FRAME_ONLY aside, because its pending set changes the timing it runs (R176). -/
def Unit.lastField (x : Unit) : Bool := x.run && (timingDiffers x.active x.pending || x.tune)

/-- The latest arming of a descriptor after its E3: E4 less the earliest E3 of Table 1-3, in ticks. -/
def armBound (signed : Bool) : Nat := if signed then 55300 * ticksPerNs else 5300 * ticksPerNs

/-- The computed time of the commit line of a commit accepted now whose arming write reaches the unit at `arm`, and whether it has missed its window. An
immediate commit aims at the first line whose window closes after its acceptance, a scheduled one at the last line before the first
active line of the frame of its RFN (R172); a miss moves to the same line one frame later, or to its next passage that is still
open (R173). -/
def State.commitPoint (s : State) (u rfn arm : Nat) : Nat × Bool :=
  let x := s.unit u
  match (s.commitGrid u).bind fun p => (s.fmt? p.2.fmt).map fun f => (p.1, p.2, f) with
  | none => (s.now, false)
  | some (g, set, f) =>
    let lines := commitLines f set x.lastField
    let win := g.lineTicks 4
    let c : Nat × Nat :=
      if rfn = 0 then
        (lines.map fun l => (g.lineAt l (g.nominal (s.now + win + 1)), l)).foldl (fun b p => if b.1 = 0 ∨ p.1 < b.1 then p else b) (0, 1)
      else
        let act := firstAt g.nom g.period (s.rfnTime rfn) + g.lineTicks (f.f1 - 1)
        (lines.map fun l => (g.lineAt l (act - g.period), l)).foldl (fun b p => if b.1 < p.1 then p else b) (0, 1)
    if arm + win < g.actual c.1 then (c.1, false) else (g.lineAt c.2 (max (c.1 + g.period) (g.nominal (arm + win + 1))), true)

/-- Line `k` of a format is active. -/
def Fmt.isActive (f : Fmt) (k : Nat) : Bool :=
  let n := f.lines / f.fields
  (decide (f.f1 ≤ k) && decide (k < f.f1 + n)) || (f.inter && decide (f.f2 ≤ k) && decide (k < f.f2 + n))

/-- The first active line after the commit line at `c` (E4 of Table 5-4). -/
def Fmt.nextActive (f : Fmt) (g : Grid) (c : Nat) : Nat :=
  let l := (((c + g.period - g.nom % g.period) % g.period) * g.lines + g.period - 1) / g.period + 1
  if f.isActive (l + 1) then c + g.lineTicks 1
  else min (g.lineAt f.f1 (c + 1)) (if f.inter then g.lineAt f.f2 (c + 1) else g.lineAt f.f1 (c + 1))

/-- The set `x` changes the timing that unit `u` runs (R176). -/
def State.retimes (s : State) (u : Nat) (x : SouSet) (tune : Bool) : Bool :=
  (s.unit u).run && (timingDiffers (s.unit u).active x || tune)

/-- F of R176: the end of the frame in progress when the old timing stops. -/
def State.timingEnd (s : State) (u : Nat) : Nat :=
  let y := s.unit u
  if y.newTiming.isSome then y.frameEnd else ((s.commitGrid u).map fun p => p.1.frameAt (s.now + 1)).getD s.now

/-- Executed RFN of the commit of set `x` whose line's computed time is `c`: that of the frame holding the first active line after it (R174); for
a change of the timing that is the frame at G on the new grid (R176). A retune's G is taken as the first frame start at or after F, since the
completion is due before the synthesizer need have relocked (DESIGN CHOICE, assumption 193). -/
def State.commitRfn (s : State) (u c : Nat) (x : SouSet) (tune : Bool) : Nat :=
  match (s.commitGrid u).bind fun p => (s.fmt? p.2.fmt).map fun f => (p.1, f) with
  | none => s.rfnAt c
  | some (g, f) =>
    match if s.retimes u x tune then s.setGrid u x else none with
    | some n => s.rfnAt (n.nominal (n.frameAt (s.timingEnd u)))
    | none => s.rfnAt (firstAt g.nom g.period (f.nextActive g c + 1 - g.period))

/-- A commit takes its place in line order, after those of the same line. -/
def insertCommit (p : Nat × CommitOp) : List (Nat × CommitOp) → List (Nat × CommitOp)
  | [] => [p]
  | q :: l => if p.2.due < q.2.due then p :: q :: l else q :: insertCommit p l

/-- Commits in flight of unit `u`, in line order (R175). -/
def State.commits (s : State) (u : Nat) : List (Nat × CommitOp) :=
  (s.host.ops.filterMap fun o => match o.body with
    | .commit c => if c.unit = u then some (o.id, c) else none
    | _ => none).foldl (fun l p => insertCommit p l) []

/-- Accept a commit (R172, R173); `result` is its completion's result. When after E3 the arming write reaches the unit is a free value
within the bounds of Table 1-3 (assumption 17). -/
def commitAdm (h : Hdr) (u result : Nat) (s : State) : Adm :=
  let (n, s) := s.draw
  let (due, late) := s.commitPoint u h.rfn (s.now + (Config.fresh 64 n).toNat % (armBound h.signed + 1))
  let s := if late then (s.raise (Hist.sou u) F.SOU_HIST_LATE_COMMIT).inc (R.SOU_LATE_COMMIT_CNT u) else s
  if late && h.rfn != 0 && h.dropIfLate then .late true result s
  else .yes (s.addOp h result (.commit { unit := u, rfn := h.rfn, due := due, late := late, drop := h.dropIfLate })).2

/-! ### Layers -/

/-- The buffer layer `l` shows. -/
def Unit.sel (x : Unit) (l : Nat) : Option Nat := if l = 1 then x.sel1 else if l = 2 then x.sel2 else x.sel3
/-- A unit with another buffer shown on layer `l`. -/
def Unit.setSel (x : Unit) (l : Nat) (h : Option Nat) : Unit :=
  if l = 1 then { x with sel1 := h } else if l = 2 then { x with sel2 := h } else { x with sel3 := h }

/-- Layer `l` of a set. -/
def setLayer (x : SouSet) (l : Nat) : SouLayer := if l = 1 then x.l1 else if l = 2 then x.l2 else x.l3

/-- A layer lets its buffer go and takes another. -/
def State.showBuf (s : State) (u l : Nat) (h : Option Nat) : State :=
  let old := (s.unit u).sel l
  if old = h then s
  else
    let s := match h with
      | some k => s.addReader k (.layer u l)
      | none => s
    let s := s.setUnit u ((s.unit u).setSel l h)
    match old with
    | some k => s.dropReader k (.layer u l)
    | none => s

/-- A layer that a commit disables or gives another ring lets its buffer go (R170). -/
def State.layerLeave (s : State) (u l : Nat) (a b : SouLayer) : State :=
  if a.en && (!b.en || a.ring != b.ring) then s.showBuf u l none else s

/-- The active set becomes `x` (E3 of Table 5-4). -/
def State.activate (s : State) (u : Nat) (x : SouSet) : State :=
  let a := (s.unit u).active
  let s := [1, 2, 3].foldl (fun s l => s.layerLeave u l (setLayer a l) (setLayer x l)) s
  let y := s.unit u
  let locked := s.synState (u / 40 * 4 + x.syn) == 3 && !s.inReset 8 u
  let urg := fun (l : SouLayer) (n : Nat) => if l.en then n else 0
  (s.dirty 8).setUnit u { y with active := x, run := x.fmt != 0xFF, gated := !locked, committed := decide (y.pending = x),
                                 urg1 := urg x.l1 y.urg1, urg2 := urg x.l2 y.urg2, urg3 := urg x.l3 y.urg3 }

/-! ### Underrun and time code of a frame -/

/-- The display line of stored line `k` of a format. -/
def Fmt.displayLine (f : Fmt) (k : Nat) : Nat :=
  let half := f.lines / 2
  if !f.inter then k
  else if k < half then 2 * k + (if f.f1Top then 0 else 1)
  else 2 * (k - half) + (if f.f1Top then 1 else 0)

/-- Active lines of a unit's raster that a context left absent in the buffer layer `l` shows (R137). -/
def State.absentLines (s : State) (u l : Nat) : List Nat :=
  let y := setLayer (s.unit u).active l
  match (s.unit u).sel l, s.ring y.ring with
  | some h, some g => match s.buf h, s.fmt? g.fmt, s.fmt? (s.unit u).active.fmt with
    | some b, some f, some out =>
      ((b.absent.flatMap fun r => (List.range (r.2 - r.1)).map fun i => y.y + f.displayLine (r.1 + i)).filter
        fun k => decide (k < out.lines)).eraseDups
    | _, _, _ => []
  | _, _ => []

/-- Line `line` of the frame in progress underruns from sample `samp` on: it counts once (R164). -/
def State.underrun (s : State) (u line samp : Nat) : State :=
  let y := s.unit u
  match y.under.find? fun p => p.1 == line with
  | some p => s.setUnit u { y with under := (line, min samp p.2) :: y.under.filter fun q => q.1 != line }
  | none => ((s.setUnit u { y with under := (line, samp) :: y.under }).inc (R.SOU_UNDERRUN_LINES u)).raise (Hist.sou u)
      F.SOU_HIST_UNDERRUN

/-- The raster of a unit that sends reaches sample `samp` of active line `line`, counted from 0, of an enabled layer whose data is not there:
background from there to the end of the line (R164). -/
def State.unitUnderrun (s : State) (u line samp : Nat) : State :=
  if (s.souGrid u).isSome && (souLayers (s.unit u).active).any (·.en) then s.underrun u line samp else s

/-- Destination `d`'s frame in progress loses the rest of a line from sample `samp` on. -/
def State.cutLine (s : State) (d line samp : Nat) : State :=
  let l := tabGet [] s.xpt.cut d
  let at_ := ((l.find? fun p => p.1 == line).map fun p => min p.2 samp).getD samp
  { s with xpt := { s.xpt with cut := tabPut s.xpt.cut d ((line, at_) :: l.filter fun p => p.1 != line) } }

/-- What the word that a handshake time-out discards does to its traffic (R329): a write that is not made, a read that gets black, a fetch
that underruns its line, a line that goes on black. -/
def State.wordLost (s : State) (w : LostWord) : State :=
  match w with
  | .other => s
  | .write h off => match s.wordAt h off with
    | some k => { s with fst := { s.fst with lostW := s.fst.lostW ++ [k] } }
    | none => s
  | .read c h off => match s.wordAt h off with
    | some k => { s with fst := { s.fst with lostR := s.fst.lostR ++ [(c.map (·.val), k)] } }
    | none => s
  | .fetch u line samp => s.unitUnderrun u line samp
  | .essence d line samp => if (s.route d).isSome then s.cutLine d line samp else s

/-- A frame starts with the lines underrun that its layers' buffers lack; they count as it starts (DESIGN CHOICE, assumption 169). -/
def State.frameLines (s : State) (u : Nat) : State :=
  let ls := (([1, 2, 3] : List Nat).flatMap fun l => if (setLayer (s.unit u).active l).en then s.absentLines u l else []).eraseDups
  ls.foldl (fun s k => s.underrun u k 0) (s.setUnit u { s.unit u with under := [] })

/-- `n` below 100 in BCD. -/
def bcd (n : Nat) : Nat := n / 10 % 10 * 16 + n % 10

/-- The ATC time address of the PTP time of day at `t` for a frame rate: hours, minutes, seconds and frames in BCD, frames counted from the
second's start, in pairs above 30 a second and in fours above 60 (DESIGN CHOICE, assumption 170). -/
def todAtc (rate t : Nat) : Nat :=
  let sec := t / ticksPerSec
  let d := rateD rate
  let fr := t % ticksPerSec / d / (if 60 * d < ticksPerSec then 4 else if 30 * d < ticksPerSec then 2 else 1)
  bcd (sec / 3600 % 24) * 2 ^ 24 + bcd (sec / 60 % 60) * 2 ^ 16 + bcd (sec % 60) * 2 ^ 8 + bcd fr

/-- The ATC a unit hands on with the frame that starts (R158): its layer 1 buffer's, else the PTP time of day's. -/
def State.frameAtc (s : State) (u : Nat) : Nat :=
  let a := (((s.unit u).sel1.bind s.buf).map (·.info.atc)).getD 0
  if a ≠ 0 then a else todAtc (((s.fmt? (s.unit u).active.fmt).map (·.rate)).getD 0) s.now

end Sys2Proof.Machine
end

