-- ==== Sys2Proof/Machine/Ref.lean ====
section
/-! DEFINITION. References: input states, the selector, the phase loop, holdover, the time of day and the frame pulses (chapter 7,
R219 to R239). -/
namespace Sys2Proof.Machine

/-! ### Inputs -/

/-- State of input `i`: 0 OFF, 1 LOST, 2 QUALIFYING, 3 WTR, 4 AVAILABLE, 5 SELECTED. -/
def State.inSt (s : State) (i : Nat) : Nat := s.get (R.REF_IN_STAT i) F.REF_IN_STAT_STATE
/-- `s` with input `i` in a state. -/
def State.setIn (s : State) (i st : Nat) : State := s.set (R.REF_IN_STAT i) F.REF_IN_STAT_STATE st
/-- Input `i` is suspect. -/
def State.suspect (s : State) (i : Nat) : Bool := s.flag (R.REF_IN_STAT i) F.REF_IN_STAT_SUSPECT
/-- PRIO of input `i`. -/
def State.prio (s : State) (i : Nat) : Nat := min 8 (s.get (R.REF_IN_CFG i) F.REF_IN_CFG_PRIO)
/-- The selected input; 15 none. -/
def State.selected (s : State) : Nat := s.get R.REF_STAT F.REF_STAT_SELECTED
/-- A switch is pending. -/
def State.pendingSw (s : State) : Bool := s.flag R.REF_STAT F.REF_STAT_PENDING
/-- The target of the pending switch. -/
def State.swTarget (s : State) : Nat := s.get R.REF_STAT F.REF_STAT_TARGET
/-- Forced mode. -/
def State.forced (s : State) : Bool := s.flag R.REF_CTL F.REF_CTL_MODE
/-- FORCE_IN. -/
def State.forceIn (s : State) : Nat := s.get R.REF_CTL F.REF_CTL_FORCE_IN

/-- WTR_LEFT: it counts down while the input is not suspect (R224). -/
def State.wtrLeft (s : State) (i : Nat) : Nat :=
  let l := s.get (R.REF_IN_STAT i) F.REF_IN_STAT_WTR_LEFT
  if s.inSt i = 3 ∧ !s.suspect i then l - (s.now - (s.refIn i).since) / ticksPerSec else l

/-- The best input (R225). -/
def State.bestIn (s : State) : Option Nat :=
  ((List.range 8).filter fun i => s.inSt i == 4 && s.prio i != 0).foldl (fun b i =>
    match b with
    | none => some i
    | some k => if s.prio i < s.prio k then some i else some k) none

/-- Input `b`, with REVERT = 1, ranks above input `c`. -/
def State.ranksAbove (s : State) (b c : Nat) : Bool :=
  s.flag (R.REF_IN_CFG b) F.REF_IN_CFG_REVERT && (s.prio c == 0 || decide (s.prio b < s.prio c))

/-! ### Decisions (R225 to R229) -/

/-- A switch decision: it stays pending until B, the first t(n) at least 1 µs on; a further decision keeps its B. With `freeze` the loop
stops correcting. -/
def State.swDecide (s : State) (tgt : Nat) (freeze : Bool) : State :=
  let b := if s.pendingSw then s.ref.bAt else some (firstAt 0 (rateD s.leapRate) (s.now + ticksPerUs))
  let s := { s with ref := { s.ref with
    bAt := b, frozen := s.ref.frozen || freeze, held := if s.ref.frozen then s.ref.held else Config.loopRate s.free s.now } }
  (s.set R.REF_STAT F.REF_STAT_PENDING 1).set R.REF_STAT F.REF_STAT_TARGET tgt

/-- No switch is pending. -/
def State.undecide (s : State) : State :=
  let s := { s with ref := { s.ref with bAt := none, frozen := false } }
  (s.set R.REF_STAT F.REF_STAT_PENDING 0).set R.REF_STAT F.REF_STAT_TARGET 15

/-- The time in TRACK so far. -/
def State.trkTime (s : State) : Nat := s.ref.trkAcc + ((s.ref.trkAt.map fun a => s.now - a).getD 0)

/-- TRACK is left or the averages are taken: the time in TRACK is added up. -/
def State.trkStop (s : State) : State := { s with ref := { s.ref with trkAcc := s.trkTime, trkAt := none } }

/-- t_s: the averages that end now (R232). -/
def State.holdFrom (s : State) (rate temp : Int) : State :=
  let w := min s.trkTime (max 10 (min 3600 (s.get R.REF_HOLD_AVG F.REF_HOLD_AVG_HOLD_AVG)) * ticksPerSec)
  { s with ref := { s.ref with
    ts := some s.now, rAvg := rate, tAvg := temp, tm := s.now - w / 2, wasTrk := s.selSt == 2 } }

/-- One ns of E(t) in the unit that makes each of its terms whole. -/
def boundUnit : Nat := 17280000 * ticksPerSec ^ 2

/-- E(t) in that unit (R234). -/
def State.holdExact (s : State) : Nat :=
  let x := s.now - s.ref.ts.getD s.now
  (if s.ref.wasTrk then 100 else 1000) * boundUnit + s.get R.REF_HOLD_UNC F.REF_HOLD_UNC_Y_U * 172800 * ticksPerSec * x
    + s.get R.REF_HOLD_UNC F.REF_HOLD_UNC_A_U * x * x

/-- E(t) in ns, saturating, to the nearest as the worked example of R234 has it (assumption 197). -/
def State.holdBound (s : State) : Nat := min 0xFFFFFFFF ((2 * s.holdExact + boundUnit) / (2 * boundUnit))

/-- E(t) exceeds HOLD_LIMIT. -/
def State.pastLimit (s : State) : Bool := decide ((s.rd R.REF_HOLD_LIMIT).toNat * boundUnit < s.holdExact)

/-- REF_HOLD_EST takes the bound in force; HOLD_LIMIT sets when it first exceeds the limit (R234). -/
def State.publishBound (s : State) : State :=
  let was := s.ref.limHit
  let hit := s.pastLimit
  let s := { s.wr R.REF_HOLD_EST (BitVec.ofNat 32 s.holdBound) with ref := { s.ref with limHit := hit } }
  if hit && !was then s.raise Hist.ref F.REF_HIST_HOLD_LIMIT else s

/-- 100,000 × y(T) in 0.001 ppb, T in 0.01 °C. -/
def State.xoTemp (s : State) (temp : Int) : Int :=
  let d := temp - 2500
  s.rdInt R.REF_HOLD_C1 * d * 1000 + s.rdInt R.REF_HOLD_C2 * d * d

/-- The ageing rate in force, 0.0001 ppb/day: with fewer than 7 daily values the learned mode uses the programmed rate (R233). -/
def State.ageRate (s : State) : Int :=
  let m := s.get R.REF_CTL F.REF_CTL_AGE_MODE
  if m = 0 then 0
  else if m = 2 ∨ s.ref.daily.length < 7 then s.rdInt R.REF_AGE_PROG
  else s.rdInt R.REF_AGE_LEARNED

/-- T(t) of R232: the on-die sensor, or the external one while TEMP_SRC = 1 and its reads succeed (R454). -/
def State.holdTemp (s : State) : Int :=
  match s.flag R.REF_CTL F.REF_CTL_TEMP_SRC, s.pkg.ext with
  | true, some x => roundDiv (x * 100) 256
  | _, _ => s.pkg.temp

/-- r(t) in 0.001 ppb (R232). -/
def State.holdRate (s : State) (temp : Int) : Int :=
  let dt : Int := (s.now : Int) - s.ref.tm
  let tps : Int := ticksPerSec
  roundDiv (s.ref.rAvg * 86400000000 * tps - (s.xoTemp temp - s.xoTemp s.ref.tAvg) * 864000 * tps - s.ageRate * dt * 100000)
    (86400000000 * ticksPerSec)

/-- t_s is now, where no suspicion has set it (R232). -/
def State.holdStart (s : State) : State :=
  if s.ref.ts.isSome then s
  else
    let s := s.trkMean
    s.holdFrom (s.rdInt R.REF_XO_CAL) s.ref.tAvg

/-- The selector enters HOLDOVER; r(t) and the bound show at once. -/
def State.enterHoldover (s : State) : State :=
  let s := s.holdStart.trkStop
  let s := (s.readyFall.set R.REF_STAT F.REF_STAT_STATE 3).set R.REF_STAT F.REF_STAT_SELECTED 15
  let s := if s.forced then s else s.undecide
  let s := { s with ref := { s.ref with frozen := false, limHit := false } }
  ((s.wrInt R.REF_RATE (s.holdRate s.holdTemp)).publishBound).raise Hist.ref F.REF_HIST_HOLD_ENTER

/-- The selected input fails (R225, R229, R230): a further decision while a switch is pending retargets it (R226). -/
def State.selFail (s : State) : State :=
  if s.selSt ≠ 1 ∧ s.selSt ≠ 2 then s
  else if s.forced then s.enterHoldover
  else match s.bestIn with
    | some b => s.swDecide b false
    | none => s.enterHoldover

/-- The target of a pending switch has failed, or may no longer be selected. In forced mode the selector enters holdover, and the decision still
waits for the forced input (R229). -/
def State.targetFail (s : State) : State :=
  if s.forced then (if s.selSt = 1 ∨ s.selSt = 2 then s.enterHoldover else s)
  else
    let c := s.selected
    match s.bestIn with
    | some b => if c = 15 || s.inSt c != 5 || s.suspect c || s.ranksAbove b c then s.swDecide b false else s.undecide
    | none => if c ≠ 15 ∧ s.inSt c ≠ 5 then s.enterHoldover else s.undecide

/-- The decision of forced mode (R229). -/
def State.forceDecide (s : State) : State :=
  let f := s.forceIn
  if s.lifecycle = 4 then s
  else if f < 8 ∧ s.selected = f then s.undecide
  else if s.pendingSw && s.swTarget == f then s else s.swDecide f false

/-- The AVAILABLE inputs with REVERT = 1 that rank above the selected one. -/
def State.revertive (s : State) : List Nat :=
  (List.range 8).filter fun i => s.inSt i == 4 && s.prio i != 0 && s.ranksAbove i s.selected

/-- The selector looks at the inputs again: an input has become AVAILABLE, or PRIO, REVERT or MODE has changed. In forced mode it makes no switch
of its own (R229). -/
def State.reselect (s : State) : State :=
  if s.lifecycle = 4 ∨ s.forced then s
  else if s.pendingSw && decide (s.swTarget < 8) && s.prio s.swTarget == 0 then s.targetFail
  else match s.bestIn with
    | none => s
    | some b =>
      let c := s.selected
      if c = 15 then s.swDecide b false
      else if s.ranksAbove b c || s.inSt c != 5 then s.swDecide b false
      else if s.suspect c && !s.pendingSw then s.swDecide b true
      else s

/-! ### Steps of the time base (R228) -/

/-- A synthesizer meets a step of `ns`: with ABSORB = 1 what REF_STEP records of it joins RESIDUAL (R250); else the step is passed at the first
reference edge after it (R249); a synthesizer that is not LOCKED takes up the new edge phase as it relocks (R254). -/
def State.synStep (s : State) (ns : Int) (t : Nat) : State :=
  let x := s.syn_ t
  if s.synState t ≠ 3 then s
  else if x.absorb then
    let r := s.rdInt R.REF_STEP
    if s.ramping t then s.setSyn t { x with segRes := x.segRes + r }
    else
      let s := s.synFreeze t
      s.wrInt (R.SYN_TS_RESIDUAL t) (s.synBase t + r)
  else s.setSyn t { x with step := x.step + ns, stepAt := some (s.edgeAt t (s.now + 1)) }

/-- A take the time base has carried past its switch point: dropped, or late and bound for the next (R228). -/
def State.retimeTake (s : State) (old : Nat) (p : Nat × Take) : State :=
  let k := p.2
  match s.takePoint k with
  | none => s
  | some q =>
    let a := s.dstActual k.dst q
    let next := ((s.dstGrid k.dst).map (·.nominal s.now)).getD s.now
    if k.waiting || decide (a < old) || decide (s.now ≤ a) then s
    else if k.rfn = 0 then s.setOp p.1 (.take { k with after := next })
    else if k.drop && k.salvo.isNone then
      ((s.raiseLate k.dst true).endTake p.1 k ⟨0x01, false, 0xFFFFFFFFFFFF⟩ s.now).chainLost k.unit
    else (s.raiseLate k.dst true).setOp p.1 (.take { k with late := true, after := next })

/-- A commit the time base has carried past its line. -/
def State.retimeCommit (s : State) (p : Nat × CommitOp) : State :=
  let c := p.2
  let now := ((s.commitGrid c.unit).map (·.1.nominal s.now)).getD s.now
  if now ≤ c.due then s
  else
    let per := ((s.commitGrid c.unit).map (·.1.period)).getD 1
    let due := firstAt c.due per now
    if c.rfn = 0 then s.setOp p.1 (.commit { c with due := due })
    else
      let s := (s.raise (Hist.sou c.unit) F.SOU_HIST_LATE_COMMIT).inc (R.SOU_LATE_COMMIT_CNT c.unit)
      if c.drop then s.finish p.1 { status := 0x01, lateCmt := true, rfn := some 0xFFFFFFFFFFFF }
      else s.setOp p.1 (.commit { c with due := due, late := true })

/-- A map or fade the time base has carried past its execution sample. -/
def State.retimeAudio (s : State) : State :=
  let next := firstAt 0 audT s.now
  let s := s.maps.foldl (fun (s : State) (p : Nat × MapOp) =>
    if s.now ≤ p.2.exec then s
    else if p.2.rfn ≠ 0 ∧ p.2.drop then
      (s.finish p.1 { status := 0x01, rfn := some 0xFFFFFFFFFFFF }).reapSlots
    else s.setOp p.1 (.map { p.2 with exec := next, late := p.2.late || p.2.rfn != 0 })) s
  s.fades.foldl (fun (s : State) (p : Nat × FadeOp) =>
    if p.2.started || decide (s.now ≤ p.2.exec) then s
    else if p.2.rfn ≠ 0 ∧ p.2.drop then s.finish p.1 { status := 0x01, rfn := some 0xFFFFFFFFFFFF }
    else s.setOp p.1 (.fade { p.2 with exec := next, late := p.2.late || p.2.rfn != 0 })) s

/-- Every commit in flight. -/
def State.allCommits (s : State) : List (Nat × CommitOp) :=
  s.host.ops.filterMap fun o => match o.body with
    | .commit c => some (o.id, c)
    | _ => none

/-- An instant the device holds, on a time base that has moved by `d` ticks. -/
def movedBy (d : Int) (x : Nat) : Nat := (x + d).toNat

/-- The time base moves by `d` ticks: what marks a real instant or a signal's own timing reads `d` later, and a pending switch waits for
the first boundary of the moved time base (R226, R228). -/
def State.moveBase (s : State) (d : Int) : State :=
  let m := movedBy d
  let grid := fun (g : Grid) => if g.ref then g else { g with phase := m g.phase, nom := m g.nom }
  let flow := fun (x : Flow) => { x with
    grid := x.grid.map grid, recent := x.recent.map fun a => { a with at_ := m a.at_ }
    missing := x.missing.map fun a => { a with at_ := m a.at_ } }
  let md := s.media
  let media : MediaSt := { md with
    rx := md.rx.map fun p => (p.1, { p.2 with meas := p.2.meas.map fun x => { x with phase := m x.phase } })
    tx := md.tx.map fun p => (p.1, { p.2 with wakeAt := p.2.wakeAt.map m, retune := p.2.retune.map m })
    rxFlow := md.rxFlow.map fun p => (p.1, flow p.2)
    hostIn := md.hostIn.map fun p => (p.1, { p.2 with grid := p.2.grid.map grid }) }
  let r := s.ref
  let ref : RefSt := { r with
    ins := r.ins.map fun p => (p.1, { p.2 with since := m p.2.since })
    ts := r.ts.map m, tm := m r.tm, trkAt := r.trkAt.map m, fpLast := r.fpLast.map fun p => (p.1, { p.2 with at_ := m p.2.at_ })
    daily := r.daily.take (r.daily.length - r.newDays) ++ (r.daily.drop (r.daily.length - r.newDays)).map fun p => (m p.1, p.2) }
  let syn : SynSt := { s.syn with ts := s.syn.ts.map fun p => (p.1, { p.2 with
    segAt := m p.2.segAt, absAt := m p.2.absAt, stepAt := p.2.stepAt.map m, passed := p.2.passed.map m }) }
  let s := ({ s with media := media, ref := ref, syn := syn } : State).at_ (m s.now)
  if s.pendingSw then { s with ref := { s.ref with bAt := some (firstAt 0 (rateD s.leapRate) (s.now + ticksPerUs)) } } else s

/-- The time base steps by `ns`: REF_STEP records it, the synthesizers pass or absorb it, and what a forward step carries past its
instant is late. -/
def State.timeStep (s : State) (ns : Int) : State :=
  let old := s.now
  let lim : Int := max (-2147483648) (min 2147483647 ns)
  let s := s.wrInt R.REF_STEP lim
  let s := s.moveBase (ns * 2376)
  let s := (List.range 16).foldl (fun s t => s.synStep ns t) s
  if old < s.now then
    let s := s.takes.foldl (fun (s : State) (p : Nat × Take) => if (s.op? p.1).isSome then s.retimeTake old p else s) s
    let s := s.allCommits.foldl (fun (s : State) (p : Nat × CommitOp) => s.retimeCommit p) s
    s.retimeAudio
  else s

/-! ### Whole seconds (R236) -/

/-- The PTP input that gives the whole seconds. -/
def State.giver (s : State) : Option Nat :=
  let q := fun (i : Nat) => decide (3 ≤ s.inSt i)
  if q 4 && q 5 then
    if s.selected = 4 ∨ s.selected = 5 then some s.selected
    else
      let r := fun (i : Nat) => if s.prio i = 0 then 9 else s.prio i
      if r 5 < r 4 then some 5 else some 4
  else if q 4 then some 4 else if q 5 then some 5 else none

/-- A PTP input is qualified. -/
def State.ptpQualified (s : State) : Bool := s.giver.isSome

/-- The time base moves by `d` whole seconds: what each PTP input gives lies as much nearer. -/
def State.shiftSec (s : State) (d : Int) : State :=
  let shift := fun (x : RefIn) => { x with sec := x.sec.map (· - d) }
  { s with ref := { s.ref with ins := s.ref.ins.map fun p => (p.1, shift p.2) } }

/-- Seconds are applied: `d` whole seconds ahead of the time base. The first time TIME_VALID sets; later a change is a phase step. -/
def State.applySec (s : State) (d : Int) : State :=
  let moved := s.shiftSec d
  if s.timeValid then (if d = 0 then s else moved.timeStep (d * 1000000000))
  else
    let s := moved.moveBase (d * ticksPerSec)
    (s.set R.REF_STAT F.REF_STAT_TIME_VALID 1).raise Hist.ref F.REF_HIST_TIME_SET

/-- The seconds follow the PTP input that gives them. -/
def State.secCheck (s : State) : State :=
  match s.giver with
  | none => s
  | some g => match (s.refIn g).sec with
    | some d => if s.timeValid && d == 0 then s else s.applySec d
    | none => s

/-! ### Input events (Table 7-3) -/

/-- Input `i` leaves for LOST, QUALIFYING or OFF; what it was selected or pending for follows. One that goes OFF has not failed unless it
was selected (R224). -/
def State.leaveIn (s : State) (i st : Nat) : State :=
  let sel := s.selected == i
  let s := (s.setIn i st).set (R.REF_IN_STAT i) F.REF_IN_STAT_SUSPECT 0
  let s := s.set (R.REF_IN_STAT i) F.REF_IN_STAT_WTR_LEFT 0
  let s := s.setRefIn i { s.refIn i with failed := (s.refIn i).failed || sel || st != 0, since := s.now }
  let s := if sel then s.selFail else if s.pendingSw && s.swTarget == i then s.targetFail else s
  s.secCheck

/-- A lost or disabled input shows no format and no phase. -/
def State.clearIn (s : State) (i : Nat) : State :=
  (s.set (R.REF_IN_STAT i) F.REF_IN_STAT_FORMAT 0xFF).wr (R.REF_IN_PHASE i) 0x80000000

/-- REF_IN_EN_WRITE. In END every input stays OFF (R230). -/
def State.refInEnWrite (s : State) (i : Fin 8) (en : Bool) (t : Nat) : State :=
    let s := (s.at_ t).setB (R.REF_IN_CFG i) F.REF_IN_CFG_EN en
    if en then (if s.inSt i = 0 ∧ s.lifecycle ≠ 4 then s.setIn i 1 else s)
    else if s.inSt i = 0 then s
    else (s.leaveIn i 0).clearIn i

/-- `refInEnWrite` as a write of the host. -/
def execRefInEnWrite (i : Fin 8) (en : Bool) (t : Nat) (s : State) : Host.Outcome State Fault Refusal := .next (s.byHost (R.REF_IN_CFG i) fun s => s.refInEnWrite i en t)

/-- REF_IN_SRC_WRITE: the input starts afresh (R221). -/
def State.refInSrcWrite (s : State) (i : Fin 8) (src dom : Nat) (term : Bool) (t : Nat) : State :=
    let c := R.REF_IN_CFG i
    let s := (s.at_ t).set c F.REF_IN_CFG_SRC src
    let s := (s.set c F.REF_IN_CFG_PTP_DOMAIN dom).setB c F.REF_IN_CFG_TERM term
    let s := if s.inSt i = 0 then s
      else ((s.leaveIn i 1).clearIn i).raise (Hist.refIn i) F.REF_IN_HIST_LOST
    s.setRefIn i { s.refIn i with failed := false, sec := none }

/-- `refInSrcWrite` as a write of the host. -/
def execRefInSrcWrite (i : Fin 8) (src dom : Nat) (term : Bool) (t : Nat) (s : State) : Host.Outcome State Fault Refusal := .next (s.byHost (R.REF_IN_CFG i) fun s => s.refInSrcWrite i src dom term t)

/-- The input's source can give activity: a bi-level or tri-level format for REFA and REFB, an enabled SDI lane that is no group member
with a known format for SDIA and SDIB (Table 7-1, R221). -/
def State.actOk (s : State) (i fmt : Nat) : Bool :=
  if i < 2 then decide (fmt ≤ 0x12)
  else if 6 ≤ i then
    let l := s.get (R.REF_IN_CFG i) F.REF_IN_CFG_SRC
    decide (l < 72) && !s.rxMember l && (s.rx l).meas.isSome && s.get (R.SDI_RX_STAT l) F.SDI_RX_STAT_FORMAT != 0xFF
  else true

/-- Round a number to the nearest 32-bit one: a difference above its range saturates (DESIGN CHOICE, assumption 171). -/
def sat32 (x : Int) : Int := max (-2147483648) (min 2147483647 x)

/-- REF_IN_FREQ of a measurement, in 0.001 ppm: the rate against the XO corrected by REF_XO_CAL (R220). -/
def State.freqOf (s : State) (m : RefMeas) : Int := roundDiv (m.freq - s.rdInt R.REF_XO_CAL) 1000

/-- REF_IN_PHASE of a measurement in ns (R220): T_ref − (T_obs − REF_IN_OFS), T_ref the nearest frame start of the input's format or whole
second; none for REF10M. -/
def State.phaseOf (s : State) (i : Nat) (m : RefMeas) : Option Int :=
  let ofs := s.rdInt (R.REF_IN_OFS i)
  let toward := fun (x : Int) (p : Nat) => roundDiv ((x + p / 2) / p * p - x) ticksPerNs + ofs
  match m.obs with
  | none => none
  | some x =>
    if i = 2 then none
    else if i = 3 then some (toward x ticksPerSec)
    else if i = 4 ∨ i = 5 then some (x + ofs)
    else (s.fmt? (s.get (R.REF_IN_STAT i) F.REF_IN_STAT_FORMAT)).map fun f => toward x f.period

/-- REF_IN_FREQ and REF_IN_PHASE take a measurement; of a PTP input also how far its seconds lie ahead and how often its Sync comes. -/
def State.measure (s : State) (i : Nat) (m : RefMeas) : State :=
  let s := s.wrInt (R.REF_IN_FREQ i) (s.freqOf m)
  let s := if i = 4 ∨ i = 5 then s.setRefIn i { s.refIn i with sec := m.obs.map fun x => roundDiv x 1000000000, sync := m.sync } else s
  match s.phaseOf i m with
  | some p => s.wrInt (R.REF_IN_PHASE i) (sat32 p)
  | none => s.wr (R.REF_IN_PHASE i) 0x80000000

/-- REF_ACTIVITY. -/
def execRefActivity (i : Fin 8) (fmt : Nat) (m : RefMeas) (t : Nat) (s : State) : Host.Outcome State Fault Refusal :=
  .next (
    let s := s.at_ t
    if s.inSt i = 1 ∧ s.actOk i fmt then
      let f := if 6 ≤ i.val then s.get (R.SDI_RX_STAT (s.get (R.REF_IN_CFG i) F.REF_IN_CFG_SRC)) F.SDI_RX_STAT_FORMAT
        else if i.val < 2 then fmt else 0xFF
      (((s.setIn i 2).set (R.REF_IN_STAT i) F.REF_IN_STAT_FORMAT f).setRefIn i { s.refIn i with since := t }).measure i m
    else s)

/-- Input `i` becomes AVAILABLE. -/
def State.makeAvail (s : State) (i : Nat) : State :=
  (((s.setIn i 4).set (R.REF_IN_STAT i) F.REF_IN_STAT_WTR_LEFT 0).raise (Hist.refIn i) F.REF_IN_HIST_RESTORED).reselect

/-- Input `i` has met its qualification (R223, R224, R235). -/
def State.qualify (s : State) (i : Nat) : State :=
  let w := s.get R.REF_WTR F.REF_WTR_WTR
  let skip := s.selSt == 3 && s.flag R.REF_CTL F.REF_CTL_HOLD_SKIP_WTR
  let s := if (s.refIn i).failed && !skip && w != 0 then
      ((s.setIn i 3).set (R.REF_IN_STAT i) F.REF_IN_STAT_WTR_LEFT w).setRefIn i { s.refIn i with since := s.now }
    else s.makeAvail i
  s.secCheck

/-- QUAL_PPM in 0.001 ppm. -/
def State.qualPpm (s : State) : Nat := 1000 * s.get R.REF_QUAL F.REF_QUAL_QUAL_PPM
/-- QUAL_TIME in ticks. -/
def State.qualTime (s : State) : Nat := s.get R.REF_QUAL F.REF_QUAL_QUAL_TIME * (ticksPerSec / 10)

/-- REF_QUALIFIED: with what the input shows then, and the whole seconds `sec` a PTP master gives. -/
def execRefQualified (i : Fin 8) (m : RefMeas) (sec : Option Nat) (t : Nat) (s : State) : Host.Outcome State Fault Refusal :=
  .next (
    let s := s.at_ t
    if s.inSt i = 2 ∧ (s.freqOf m).natAbs ≤ s.qualPpm ∧ (s.refIn i).since + s.qualTime ≤ t then
      let s := s.measure i m
      let s := match sec with
        | some x => if i.val = 4 ∨ i.val = 5 then s.setRefIn i { s.refIn i with sec := some ((x : Int) - (t / ticksPerSec : Nat)) } else s
        | none => s
      s.qualify i
    else s)

/-- WTR_EXPIRED. -/
def execWtrExpired (i : Fin 8) (t : Nat) (s : State) : Host.Outcome State Fault Refusal :=
  .next (
    let s := s.at_ t
    if s.inSt i = 3 ∧ !s.suspect i ∧ s.wtrLeft i = 0 then (s.makeAvail i).secCheck else s)

/-- REF_SUSPECT: `rate` (0.001 ppb) and `temp` (0.01 °C) are the means over the HOLD_AVG seconds of TRACK that end now (R232); with no
TRACK so far the rate is REF_XO_CAL. -/
def execRefSuspect (i : Fin 8) (rate temp : Int) (t : Nat) (s : State) : Host.Outcome State Fault Refusal :=
  .next (
    let s := s.at_ t
    if s.inSt i < 2 ∨ s.suspect i then s
    else
      let left := s.wtrLeft i
      let s := (s.set (R.REF_IN_STAT i) F.REF_IN_STAT_SUSPECT 1).set (R.REF_IN_STAT i) F.REF_IN_STAT_WTR_LEFT left
      if s.selected ≠ i.val then s
      else
        let r := if s.trkTime = 0 then s.rdInt R.REF_XO_CAL else rate
        let s := (s.holdFrom r temp).calibrate r
        if s.forced then s
        else match s.bestIn with
          | some b => s.swDecide b true
          | none => s)

/-- REF_SUSPECT_CLEAR: nothing is recorded, and a pending switch to a worse input is cancelled (R222, R227). -/
def execRefSuspectClear (i : Fin 8) (t : Nat) (s : State) : Host.Outcome State Fault Refusal :=
  .next (
    let s := s.at_ t
    if !s.suspect i then s
    else
      let s := (s.set (R.REF_IN_STAT i) F.REF_IN_STAT_SUSPECT 0).setRefIn i
        { s.refIn i with since := if s.inSt i = 3 then t else (s.refIn i).since }
      if s.selected ≠ i.val then s
      else
        let s := { s with ref := { s.ref with ts := none, frozen := false } }
        if s.pendingSw && !s.forced && s.inSt i == 5 && !s.ranksAbove s.swTarget i then
          s.undecide.raise Hist.ref F.REF_HIST_CANCEL
        else s)

/-- Input `i` is declared lost. -/
def State.lostIn (s : State) (i : Nat) : State :=
  if s.inSt i < 2 then s else ((s.leaveIn i 1).clearIn i).raise (Hist.refIn i) F.REF_IN_HIST_LOST

/-- REF_DECLARED_LOST. -/
def execRefDeclaredLost (i : Fin 8) (t : Nat) (s : State) : Host.Outcome State Fault Refusal := .next ((s.at_ t).lostIn i)

/-- SDIA and SDIB are declared lost with the loss their lane declares (Table 7-2). -/
def State.sdiInputs (s : State) : State :=
  [6, 7].foldl (fun s i => if (s.rx (s.get (R.REF_IN_CFG i) F.REF_IN_CFG_SRC)).meas.isNone then s.lostIn i else s) s

/-- The input's count starts again, in QUALIFYING (R223, Table 7-3). -/
def State.restart (s : State) (i : Nat) : State :=
  let s := if s.inSt i = 3 then (s.setIn i 2).set (R.REF_IN_STAT i) F.REF_IN_STAT_WTR_LEFT 0 else s
  (s.setRefIn i { s.refIn i with since := s.now }).secCheck

/-- REF_DISQUALIFIED: a frequency beyond ±QUAL_PPM for 100 ms disqualifies; at any moment it, or a phase off the predicted position, is a
break for an input still qualifying or serving WTR (R223). -/
def execRefDisqualified (i : Fin 8) (m : RefMeas) (brk : RefBreak) (t : Nat) (s : State) : Host.Outcome State Fault Refusal :=
  .next (
    let s := s.at_ t
    if s.inSt i < 2 ∨ (if brk = .phase then i.val = 2 else (s.freqOf m).natAbs ≤ s.qualPpm) then s
    else
      let s := s.measure i m
      if 3 ≤ s.inSt i ∧ brk = .steady then (s.leaveIn i 2).raise (Hist.refIn i) F.REF_IN_HIST_DISQ
      else if s.inSt i ≤ 3 then s.restart i
      else s)

/-- The new values judge one input's count (R223). -/
def State.requalify (s : State) (i : Nat) : State :=
  if s.inSt i ≠ 2 ∧ s.inSt i ≠ 3 then s
  else if s.qualPpm < (s.rdInt (R.REF_IN_FREQ i)).natAbs then s.restart i
  else if s.inSt i = 2 ∧ (s.refIn i).since + s.qualTime ≤ s.now then s.qualify i
  else s

/-- REF_QUAL_WRITE: values are clamped (R239) and judge every running count. -/
def State.refQualWrite (s : State) (ppm time : Nat) (t : Nat) : State :=
    let s := (s.at_ t).set R.REF_QUAL F.REF_QUAL_QUAL_PPM (max 1 (min 100 (ppm % 256)))
    let s := s.set R.REF_QUAL F.REF_QUAL_QUAL_TIME (max 1 (min 6000 (time % 65536)))
    (List.range 8).foldl State.requalify s

/-- `refQualWrite` as a write of the host. -/
def execRefQualWrite (ppm time : Nat) (t : Nat) (s : State) : Host.Outcome State Fault Refusal := .next (s.byHost R.REF_QUAL fun s => s.refQualWrite ppm time t)

/-- The decision of a PRIO or REVERT write (R225): beside what the selector looks at anyway, an AVAILABLE input with REVERT = 1 that the write
made rank above the selected one, though a better one has REVERT = 0; `old` is the list before (DEDUCED, assumption 198). -/
def State.prioDecide (s : State) (old : List Nat) : State :=
  let c := s.selected
  let new := s.revertive
  let r := s.reselect
  if s.forced || s.lifecycle == 4 || c == 15 || r.pendingSw || new.all old.contains then r
  else match new.foldl (fun b i => match b with
      | none => some i
      | some k => if s.prio i < s.prio k then some i else some k) (none : Option Nat) with
    | some b => s.swDecide b false
    | none => r

/-- REF_PRIO_WRITE. -/
def State.refPrioWrite (s : State) (i : Fin 8) (prio : Nat) (revert : Bool) (t : Nat) : State :=
    let old := s.revertive
    let s := (s.at_ t).set (R.REF_IN_CFG i) F.REF_IN_CFG_PRIO (min 8 (prio % 16))
    let s := s.setB (R.REF_IN_CFG i) F.REF_IN_CFG_REVERT revert
    (s.prioDecide old).secCheck

/-- `refPrioWrite` as a write of the host. -/
def execRefPrioWrite (i : Fin 8) (prio : Nat) (revert : Bool) (t : Nat) (s : State) : Host.Outcome State Fault Refusal := .next (s.byHost (R.REF_IN_CFG i) fun s => s.refPrioWrite i prio revert t)

/-- REF_FORCE_WRITE: a decision (R229); on a return to automatic mode a forced switch still pending is given up. -/
def State.refForceWrite (s : State) (mode : Bool) (forceIn : Nat) (t : Nat) : State :=
    let s := ((s.at_ t).setB R.REF_CTL F.REF_CTL_MODE mode).set R.REF_CTL F.REF_CTL_FORCE_IN forceIn
    if mode then s.forceDecide else s.undecide.reselect

/-- `refForceWrite` as a write of the host. -/
def execRefForceWrite (mode : Bool) (forceIn : Nat) (t : Nat) (s : State) : Host.Outcome State Fault Refusal := .next (s.byHost R.REF_CTL fun s => s.refForceWrite mode forceIn t)

/-! ### The switch (R226, R228) -/

/-- Reduce a step by whole periods into [−p/2, p/2). -/
def reduceStep (x p : Int) : Int := (x + p / 2) % p - p / 2

/-- The step of a switch to input `i` whose phase is `phase` ns (R228). -/
def State.switchStep (s : State) (i : Nat) (phase : Option Int) : Int :=
  match phase with
  | none => 0
  | some p =>
    if i = 2 then 0
    else if i = 3 then reduceStep p 1000000000
    else if i = 4 ∨ i = 5 then p
    else match s.fmt? (s.get (R.REF_IN_STAT i) F.REF_IN_STAT_FORMAT) with
      | some f => reduceStep (p * 2376) f.period / 2376
      | none => p

/-- One tenth of the selected input's phase-update rate, in mHz (R231): a second, a Sync, or a frame. -/
def State.bwCap (s : State) : Nat :=
  let i := s.selected
  if i = 3 then 100
  else if i = 4 ∨ i = 5 then (s.refIn i).sync / 10
  else match s.fmt? (s.get (R.REF_IN_STAT i) F.REF_IN_STAT_FORMAT) with
    | some f => if i < 2 ∨ 6 ≤ i then rateF f.rate * 100 / 1001 else 100000
    | none => 100000

/-- The input selected until now is switched away from (R226). -/
def State.leaveInput (s : State) (c : Nat) : State :=
  if c = 15 then s
  else
    let s := s.raise (Hist.refIn c) F.REF_IN_HIST_SWITCHED_AWAY
    if s.inSt c ≠ 5 then s
    else if s.suspect c then
      ((s.setIn c 3).set (R.REF_IN_STAT c) F.REF_IN_STAT_WTR_LEFT (s.get R.REF_WTR F.REF_WTR_WTR)).setRefIn c
        { s.refIn c with failed := true, since := s.now }
    else s.setIn c 4

/-- A switch to a PTP input by a step carries its seconds along, and the time is valid (R236). -/
def State.ptpTime (s : State) (tgt : Nat) (step : Int) : State :=
  let s := s.shiftSec (roundDiv step 1000000000)
  let s := s.setRefIn tgt { s.refIn tgt with sec := some 0 }
  if s.timeValid then s else (s.set R.REF_STAT F.REF_STAT_TIME_VALID 1).raise Hist.ref F.REF_HIST_TIME_SET

/-- A pending switch executes; a TRACK that ends with it leaves its mean. A PTP input's step carries the seconds with it, and the first sets TIME_VALID (R228, R236). -/
def State.doSwitch (s : State) (tgt : Nat) (m : RefMeas) : State :=
  let hold := s.selSt == 3
  let s := ((((s.trkMean).leaveInput s.selected).trkStop.readyFall).undecide).setIn tgt 5
  let s := (s.set R.REF_STAT F.REF_STAT_SELECTED tgt).set R.REF_STAT F.REF_STAT_STATE 1
  let s := { s with ref := { s.ref with ts := none, limHit := false } }
  let s := s.raise Hist.ref F.REF_HIST_SWITCH
  let s := if hold then (s.raise Hist.ref F.REF_HIST_HOLD_EXIT).wr R.REF_HOLD_EST 0 else s
  let step := s.switchStep tgt (s.phaseOf tgt m)
  let s := s.measure tgt m
  let s := ({ s with ref := { s.ref with bw := min s.bwCap 100000 } } : State).timeStep step
  if tgt = 4 ∨ tgt = 5 then s.ptpTime tgt step else s

/-- REF_SWITCH_EXECUTE: at the reference frame boundary B, with the target AVAILABLE; in forced mode at the first boundary from B on at
which the forced input is AVAILABLE or in WTR. A STANDBY that both paths have left promotes as its selector enters ACQUIRE (R403). -/
def execRefSwitchExecute (m : RefMeas) (t : Nat) (s : State) : Host.Outcome State Fault Refusal :=
  .next (
    let s := s.at_ t
    let tgt := s.swTarget
    let st := s.inSt tgt
    let due := match s.ref.bAt with
      | some b => if s.forced then decide (b ≤ t) && firstAt 0 (rateD s.leapRate) t == t else b == t
      | none => false
    if s.pendingSw && due && decide (tgt < 8) && ((st == 4 && (s.forced || s.prio tgt != 0)) || (s.forced && st == 3)) then
      (s.doSwitch tgt m).acquirePromote
    else s)

/-! ### The loop (R230, R231) -/

/-- The bandwidth in TRACK: TRACK_BW as it is in force, under the cap. -/
def State.trackBw (s : State) : Nat := min s.bwCap s.ref.track

/-- LOOP_LOCK. -/
def execLoopLock (t : Nat) (s : State) : Host.Outcome State Fault Refusal :=
  .next (
    let s := s.at_ t
    if s.selSt = 1 ∧ s.selected ≠ 15 then
      let s := (s.set R.REF_STAT F.REF_STAT_STATE 2).raise Hist.ref F.REF_HIST_LOCK
      { s with ref := { s.ref with bw := s.trackBw, trkAt := some t } }
    else s)

/-- LOOP_UNLOCK: not while the selected input is suspect; `cal` (0.001 ppb) is the rate over the HOLD_AVG seconds of TRACK that end, T_avg over them a
free value. -/
def execLoopUnlock (cal : Int) (t : Nat) (s : State) : Host.Outcome State Fault Refusal :=
  .next (
    let s := s.at_ t
    if s.selSt = 2 ∧ !s.suspect s.selected then
      let (n, s) := s.draw
      let s := ((s.trkStop.readyFall).set R.REF_STAT F.REF_STAT_STATE 1).calibrate cal
      { s with ref := { s.ref with bw := min s.bwCap 100000, tAvg := (Config.fresh 16 n).toInt } }
    else s)

/-- TRACK_BW_APPLY: at a reference frame boundary TRACK_BW comes into force. -/
def execTrackBwApply (t : Nat) (s : State) : Host.Outcome State Fault Refusal :=
  .next (
    let s := s.at_ t
    if firstAt 0 (rateD s.leapRate) t ≠ t then s
    else
      let s := { s with ref := { s.ref with track := max 1 (min 10000 (s.get R.REF_LOOP F.REF_LOOP_TRACK_BW)) } }
      if s.selSt = 2 then { s with ref := { s.ref with bw := s.trackBw } } else s)

/-! ### Holdover (R232 to R234) -/

/-- The grade's maximum junction temperature (Table 0-1), in 0.01 °C. -/
def State.tempMax (s : State) : Int := if s.get R.GLB_GRADE F.GLB_GRADE_GRADE = 0x45 then 11000 else 10000

/-- The hottest on-die sensor reads `temp`, in 0.01 °C: OT shows whether it lies above the grade's maximum, and OT_SEEN keeps it (R454). -/
def State.senseTemp (s : State) (temp : Int) : State :=
  let hot := decide (s.tempMax < temp)
  { s with pkg := { s.pkg with temp := temp, ot := hot, hist := if hot then s.pkg.hist ||| 2 else s.pkg.hist } }

/-- HOLDOVER_UPDATE: once per second, with what the on-die sensor reads. -/
def execHoldoverUpdate (temp : Int) (t : Nat) (s : State) : Host.Outcome State Fault Refusal :=
  .next (
    let s := (s.at_ t).senseTemp temp
    if s.selSt ≠ 3 then s
    else
      let s := (s.set R.REF_TEMP F.REF_TEMP_TEMP (s.holdTemp % 65536).toNat).wrInt R.REF_RATE (s.holdRate s.holdTemp)
      s.publishBound)

/-- The ageing rate that fits daily values, each with the tick it was taken at, in 0.0001 ppb/day: the rate falls by it each day. -/
def ageFit (l : List (Nat × Int)) : Int :=
  let n : Int := l.length
  let t0 := (l.head?.map (·.1)).getD 0
  let xs := l.map fun p => (p.1 : Int) - t0
  let sx := xs.sum
  let sy := (l.map (·.2)).sum
  let sxy := ((xs.zip l).map fun p => p.1 * p.2.2).sum
  let sxx := (xs.map fun x => x * x).sum
  let den := n * sxx - sx * sx
  if den ≤ 0 then 0 else -roundDiv ((n * sxy - sx * sy) * 864000 * ticksPerSec) den.toNat

/-- AGEING_DAILY: the day's mean rate (0.001 ppb) and temperature; the fit covers the last AGE_DAYS values, and record 14 is stored. `cal` is the rate over the
last HOLD_AVG seconds (R220). -/
def execAgeingDaily (rate temp cal : Int) (stored : Bool) (t : Nat) (s : State) : Host.Outcome State Fault Refusal :=
  .next (
    let s := s.at_ t
    if s.selSt ≠ 2 then s
    else
      let v := rate + roundDiv (s.xoTemp temp) 100000
      let n := max 7 (min 365 (s.get R.REF_AGE_DAYS F.REF_AGE_DAYS_AGE_DAYS))
      let l := s.ref.daily ++ [(t, v)]
      let l := l.drop (l.length - n)
      let s := { s with ref := { s.ref with daily := l, newDays := min l.length (s.ref.newDays + 1) } }
      let s := ((s.wrInt R.REF_XO_CAL cal).wrInt R.REF_AGE_LEARNED (ageFit l)).set R.REF_AGE_DAYS F.REF_AGE_DAYS_HELD l.length
      (s.dirty 14).storeRec 14 stored stored)

/-! ### Time of day (R236) -/

/-- TOD_WRITE: the seconds written wait for the next second boundary; ignored while a PTP input is qualified. -/
def State.todWrite (s : State) (hi : Nat) (t : Nat) : State :=
    let s := s.at_ t
    if s.ptpQualified then s
    else
      let s := s.set R.REF_TOD_SEC_HI F.REF_TOD_SEC_HI_SEC hi
      let s := s.takeSetting [R.REF_TOD_SEC_LO, R.REF_TOD_SEC_HI]
      { s with ref := { s.ref with todPend := some ((s.rd R.REF_TOD_SEC_LO).toNat + hi % 65536 * 2 ^ 32) } }

/-- `todWrite` as a write of the host. -/
def execTodWrite (hi : Nat) (t : Nat) (s : State) : Host.Outcome State Fault Refusal := .next (s.byHost R.REF_TOD_SEC_HI fun s => s.todWrite hi t)

/-- TOD_APPLY. -/
def execTodApply (t : Nat) (s : State) : Host.Outcome State Fault Refusal :=
  .next (
    let s := s.at_ t
    match s.ref.todPend with
    | none => s
    | some v =>
      if t % ticksPerSec ≠ 0 then s
      else
        let s := { s with ref := { s.ref with todPend := none } }
        if s.ptpQualified then s else s.applySec ((v : Int) - (t / ticksPerSec : Nat)))

/-! ### Frame pulses (R237) -/

/-- OFFSET of pulse output `k` in ticks, clamped to ±D. -/
def State.fpOfs (s : State) (k : Nat) : Int :=
  let d : Int := rateD (s.get (R.REF_FP_CFG k) F.REF_FP_CFG_RATE)
  max (-d) (min d (s.rdInt (R.REF_FP_OFS k) * 2376))

/-- WIDTH of pulse output `k` in ticks. -/
def State.fpWidth (s : State) (k : Nat) : Nat := max 1 (min 10000 (s.get (R.REF_FP_CFG k) F.REF_FP_CFG_WIDTH)) * 237600

/-- The level of ball FP_OUTk: a pulse keeps the width and polarity it began with, and a change shows from the next one; with EN = 0, and in END, the
ball holds its inactive level (R237, Table 11-3). -/
def State.fpBall (s : State) (k : Nat) : Bool :=
  let c := R.REF_FP_CFG k
  let idle := s.flag c F.REF_FP_CFG_POL
  match tabFind s.ref.fpLast k with
  | some p =>
    if s.lifecycle = 4 then idle
    else if s.now < p.at_ + p.width then !p.low
    else if s.flag c F.REF_FP_CFG_EN then p.low else idle
  | none => idle

/-- FP_PULSE: at t(n) plus OFFSET, but in END; omitted when it would begin less than one WIDTH after the previous pulse ends. -/
def execFpPulse (k : Fin 8) (t : Nat) (s : State) : Host.Outcome State Fault Refusal :=
  .next (
    let s := s.at_ t
    let c := R.REF_FP_CFG k
    let d : Int := rateD (s.get c F.REF_FP_CFG_RATE)
    let near := match tabFind s.ref.fpLast k with
      | some p => decide (t < p.at_ + p.width + s.fpWidth k)
      | none => false
    if s.lifecycle ≠ 4 ∧ s.flag c F.REF_FP_CFG_EN && ((t : Int) - s.fpOfs k) % d == 0 && !near then
      { s with ref := { s.ref with
        fpLast := tabPut s.ref.fpLast k ⟨t, s.fpWidth k, s.flag c F.REF_FP_CFG_POL⟩
        fpCount := tabSet 0 s.ref.fpCount k (tabGet 0 s.ref.fpCount k + 1) } }
    else s)

end Sys2Proof.Machine
end

