-- ==== Sys2Proof/Machine/SecOps.lean ====
section
/-! DEFINITION. Shared operations of the security core: signing keys and their leaves (R418 to R421), checkpoints (R424), pinned keys and
modes (R425, R426), tokens and lifecycle transitions (R413 to R415). -/
namespace Sys2Proof.Machine

/-! ### Signing keys -/

/-- A signing key: 0 identity, 1 route log. Its status field, state record, reservation record and number of leaves. -/
def keyField (k : Nat) : Bits := if k = 0 then F.SEC_STAT_ID_KEY else F.SEC_STAT_LOG_KEY
/-- The status of signing key `k`: 0 none, 1 ready, 2 retired. -/
def State.keySt (s : State) (k : Nat) : Nat := s.get R.SEC_STAT (keyField k)
/-- Leaves of signing key `k`. -/
def keyLeaves (k : Nat) : Nat := if k = 0 then 2 ^ 20 else 2 ^ 40
/-- The leaves of signing key `k` as they stand. -/
def State.leaves (s : State) (k : Nat) : Leaves := if k = 0 then s.sec.idLeaf else s.sec.logLeaf
/-- `s` with leaves of key `k` and what SEC_ID_LEFT shows. -/
def State.setLeaves (s : State) (k : Nat) (l : Leaves) : State :=
  if k = 0 then ({ s with sec := { s.sec with idLeaf := l } }).set R.SEC_ID_LEFT F.SEC_ID_LEFT_LEFT (2 ^ 20 - l.stop)
  else { s with sec := { s.sec with logLeaf := l } }

/-- Key `k` is retired (R421). -/
def State.retireKey (s : State) (k : Nat) : State :=
  ((s.set R.SEC_STAT (keyField k) 2).raise Hist.sec F.SEC_HIST_KEY_RETIRED).dirty (1 + k)

/-- Reserve the block of 64 leaves after the one reserved, confirmed before it is used (R420). -/
def State.reserve (s : State) (k : Nat) : State :=
  let l := s.leaves k
  (s.setLeaves k ⟨l.stop, l.stop + 64⟩).change (3 + k)

/-- Take a leaf of key `k`; none when it is not ready. The last leaf retires the key. -/
def State.takeLeaf (s : State) (k : Nat) : Option Nat × State :=
  if s.keySt k ≠ 1 then (none, s)
  else
    let s := if (s.leaves k).next = (s.leaves k).stop then s.reserve k else s
    let l := s.leaves k
    let s := (s.setLeaves k { l with next := l.next + 1 }).dirty (1 + k)
    (some l.next, if l.next + 1 = keyLeaves k then s.retireKey k else s)

/-- A new key `k`: its leaves start at 0. -/
def State.newKey (s : State) (k : Nat) : State :=
  ((s.set R.SEC_STAT (keyField k) 1).setLeaves k {}).change (1 + k) |>.change (3 + k)

/-- `n` bytes of a signature. -/
def sigBytes (k leaf n : Nat) (d : BitVec 256) : List Byte := (List.range n).map fun i => Config.sigByte k leaf i d

/-- 32 bytes of a digest, as SHAKE256 delivers them. -/
def digestBytes (d : BitVec 256) : List Byte := le 32 d.toNat

/-- A message signed with leaf `leaf` of key `k`: its bytes and the signature over their SHAKE256 digest. -/
def signed (k leaf n : Nat) (msg : List Byte) : List Byte := msg ++ sigBytes k leaf n (Config.shake 256 (msg.map BitVec.toNat))

/-- The device ID. -/
def State.devId (s : State) : Nat := s.rd2 R.SEC_DEVID_LO R.SEC_DEVID_HI

/-! ### Checkpoints (R424) -/

/-- The checkpoint number last used. -/
def State.ckNum (s : State) : Nat := s.rd2 R.SEC_CKPT_NUM_LO R.SEC_CKPT_NUM_HI

/-- The bytes of a checkpoint. -/
def State.ckBytes (s : State) (num leaf : Nat) : List Byte :=
  signed 1 leaf 9893 (ascii "DXVCKP01" ++ le 8 num ++ le 8 (s.sec.entries - 1) ++ digestBytes s.sec.head ++ le 8 s.nsNow ++ le 8 s.rfnNow
    ++ le 8 s.devId ++ le 8 leaf ++ le 8 0)

/-- Slots of the host checkpoint ring. -/
def State.ckSlots (s : State) : Nat := 2 ^ max 1 (min 8 (s.get R.SEC_LOG_CFG F.SEC_LOG_CFG_CKPT_LOG2))

/-- Sign the head, when the route-log key can; the checkpoint goes to the host ring and to `addr` when that is not 0. -/
def State.checkpoint (s : State) (addr : Nat) (by_ : Nat × Nat) : State :=
  match s.takeLeaf 1 with
  | (none, s) => s
  | (some leaf, s) =>
    let num := (s.ckNum + 1) % 2 ^ 48
    let b := s.ckBytes num leaf
    let s := s.wr2 R.SEC_CKPT_NUM_LO R.SEC_CKPT_NUM_HI num
    let s := if s.sec.ckUp && !s.host.dmaOff then
        let s := s.hostWrite ((s.inForce R.SEC_CKPT_BASE_LO).toNat + (s.inForce R.SEC_CKPT_BASE_HI).toNat * 2 ^ 32 + 10240 * s.sec.ckSlot) b
        { s with sec := { s.sec with ckSlot := (s.sec.ckSlot + 1) % s.ckSlots } }
      else s
    let s := if addr = 0 then s else s.hostWrite addr b
    let s := { s with sec := { s.sec with lastCk := s.now, sramHead := s.sec.head, sramEnt := s.sec.entries } }
    (s.change 7).log 7 by_.1 0 0 0 0 s.rfnNow by_.2

/-! ### Pinned keys and modes (R425, R426) -/

/-- KEYS and DOMAIN_KEY follow what the key store holds. -/
def State.showKeys (s : State) : State :=
  let m := (List.range 8).foldl (fun n k => n + (if (tabFind s.sec.keys k).isSome then 2 ^ k else 0)) 0
  (s.set R.SEC_STAT F.SEC_STAT_KEYS m).setB R.SEC_STAT F.SEC_STAT_DOMAIN_KEY s.sec.domKey.isSome

/-- The pinned keys or the domain key change: record 5 is stored and the change enters the route log. -/
def State.keysChanged (s : State) (k : Nat) (by_ : Nat × Nat) : State := (s.showKeys.change 5).logSec k by_

/-- Signing-required mode comes into force or leaves it. -/
def State.setSigning (s : State) (on : Bool) (by_ : Nat × Nat) : State :=
  if s.signReq == on then s
  else (((s.setB R.SEC_STAT F.SEC_STAT_SIGN_REQ on).raiseMode F.GLB_MODE_HIST_SIGN_CHG).change 5).logSec 2 by_

/-! ### Lifecycle (R413 to R415) -/

/-- A fresh token nonce (R414). -/
def State.newNonce (s : State) : State :=
  let (n, s) := s.draw
  (List.range 8).foldl (fun (s : State) w => s.wr (R.SEC_LC_NONCE w) (BitVec.ofNat 32 ((Config.fresh 256 n).toNat / 2 ^ (32 * w)))) s

/-- A lifecycle request completes with a result; a fresh nonce is drawn. -/
def State.lcDone (s : State) (r : Nat) : State := (s.set R.SEC_LC_RES F.SEC_LC_RES_RESULT r).newNonce

/-- A request that Table 17-1 does not allow. -/
def State.lcRefused (s : State) : State := (s.raise Hist.sec F.SEC_HIST_LC_REFUSED).lcDone 2

/-- A request with a bad token. -/
def State.lcBadToken (s : State) : State := (s.raise Hist.sec F.SEC_HIST_TOKEN_ERR).lcDone 4

/-- A token is accepted for a target: its device ID and nonce are the device's, and its signature verifies (R414). -/
def State.tokenOk (s : State) (tok : Option Token) (target : Nat) : Bool :=
  match tok with
  | some k =>
    k.form && bytesAt k.head 8 8 == s.devId
      && (List.range 8).all (fun w => bytesAt k.head (24 + 4 * w) 4 == (s.rd (R.SEC_LC_NONCE w)).toNat) && k.verifies && k.target == target
  | none => false

/-- The consent that leaving FIELD needs while an operator key is pinned: the state with its sequence number recorded, and whether it
stands. -/
def State.consent (s : State) (tok : Option Token) : Bool × State :=
  if s.lifecycle ≠ 2 ∨ s.sec.keys.isEmpty then (true, s)
  else match tok.bind fun k => k.consent.map fun b => (k, b) with
    | some (k, b) =>
      let (why, s) := s.checkBlob b (ascii "DXVCNS01" ++ k.head)
      (why == 0, s)
    | none => (false, s)

/-- A fuse is blown: the lifecycle becomes `l`; LIFECYCLE_CHG sets and the change enters the route log. -/
def State.setLifecycle (s : State) (l : Nat) : State :=
  let s := (s.set R.SEC_STAT F.SEC_STAT_LIFECYCLE l).set R.SEC_STAT F.SEC_STAT_DEBUG (if l ≤ 1 then 1 else 0)
  (s.raiseMode F.GLB_MODE_HIST_LIFECYCLE_CHG).logSec 1 (0, 0xFF)

/-- The records R415 names are erased and stored at once (R393). -/
def State.eraseSecrets (s : State) : State :=
  let on := s.signReq
  let pins := !s.sec.keys.isEmpty
  let dom := s.sec.domKey.isSome
  let s := { s with
    sec := { s.sec with keys := [], domKey := none }
    axl := { s.axl with user := [], presets := [], routes := [], cfgs := [] } }
  let s := (List.range 8).foldl (fun (s : State) k => s.wr2 (R.SEC_SEQ_LO k) (R.SEC_SEQ_HI k) 0) s.showKeys
  let s := (s.setB R.SEC_STAT F.SEC_STAT_SIGN_REQ false).raiseMode F.GLB_MODE_HIST_SIGN_CHG
  let s := ([5, 6] ++ [9, 10, 11, 12] ++ (List.range 64).map (17 + ·)).foldl (fun (s : State) k => s.writeRec k (s.recBody k) true) s
  let s := s.writeRec 8 (.routes [] []) true
  let s := if on then s.logSec 2 (0, 0xFF) else s
  let s := if pins then s.logSec 3 (0, 0xFF) else s
  if dom then s.logSec 4 (0, 0xFF) else s

/-- An entry to RMA is pending in record 0, so that a power loss cannot leave erased secrets behind (R413). -/
def State.beginRma (s : State) : State := ({ s with sec := { s.sec with rmaPend := true } }).change 0

/-- A pending entry to RMA is completed: the route-log key is retired and the fuse blown; P4 does so after a power loss between the erasure
and the fuse (R413). -/
def State.endRma (s : State) : State :=
  if s.sec.rmaPend then ((({ s with sec := { s.sec with rmaPend := false } }).retireKey 1).setLifecycle 3).change 0 else s

/-- Every input goes OFF, the selector to FREERUN, the time base on the XO corrected by REF_XO_CAL (R230, Table 11-3). -/
def State.refsOff (s : State) : State :=
  let s := s.trkMean.wr R.REF_HOLD_EST 0
  let s := (List.range 8).foldl (fun (s : State) i => s.set (R.REF_IN_STAT i) F.REF_IN_STAT_STATE 0) s
  let s := ((s.set R.REF_STAT F.REF_STAT_STATE 0).set R.REF_STAT F.REF_STAT_SELECTED 15).set R.REF_STAT F.REF_STAT_PENDING 0
  { s.set R.REF_STAT F.REF_STAT_TARGET 15 with ref := { s.ref with bAt := none, frozen := false } }

/-- What entry to END does (Table 11-3, R393, R396): every lane and port is powered down, references and heartbeats stop, the voltage is
held and the store is sealed. -/
def State.enterEnd (s : State) : State :=
  let s := (List.range 72).foldl (fun (s : State) n => (s.rxDown n true).txRefresh n) s
  let s := (List.range 4).foldl (fun (s : State) q => (List.range 4).foldl (fun (s : State) k => s.qeDown q k) s) s
  let s := (s.set R.MATE_STAT F.MATE_STAT_LINK_UP 0).set R.MATE_STAT F.MATE_STAT_SB_ALIVE 0
  let s := if s.vState = 4 ∨ s.vState = 5 then s else s.setVState 6
  (s.refsOff).set R.AXL_STAT F.AXL_STAT_STATE 5

end Sys2Proof.Machine
end

