-- ==== Sys2Proof/Machine/RstOps.lean ====
section
/-! DEFINITION. Shared operations of block-level reset (R370 to R372) and of targeted self-tests (R433, R434, R437): how a block leaves reset,
what a test does to its unit, and how a fenced unit returns to service. -/
namespace Sys2Proof.Machine

/-! ### Leaving block-level reset -/

/-- Block `i` of class `c` leaves reset: its crossing groups exchange tokens (R336), and it starts from the settings it kept (R372). -/
def State.releaseBlock (s : State) (c i : Nat) : State :=
  let a := R.RST_BLK_STAT c i
  let s := (s.set a F.RST_BLK_STAT_IN_RESET 0).set a F.RST_BLK_STAT_RELEASE_PENDING_CLOCK 0
  let s := (blockGroups c i).foldl (fun (s : State) d => s.set (R.HSF_XSTAT d) F.HSF_XSTAT_STATE 3) s
  match c with
  | 1 => s.txRefresh i
  | 6 => if s.flag (R.SYN_TS_CTL i) F.SYN_TS_CTL_EN then s.synStart i false else s
  | _ => s

/-- The block, as class and index, whose reset a fenced unit holds (R434). -/
def fencedBlock (u : Nat) : Option (Nat × Nat) :=
  let i := u % 65536
  match u / 65536 with
  | 1 => if i / 4096 ≤ 9 then some (i / 4096, i / 16 % 256) else none
  | 2 => some (0, i)
  | 3 => some (1, i)
  | 4 => some (2, i / 4)
  | _ => none

/-- A fenced unit holds block `i` of class `c` in reset. -/
def State.blockFenced (s : State) (c i : Nat) : Bool :=
  s.flt.units.any fun p => p.2.fenced && fencedBlock p.1 == some (c, i)

/-! ### Targeted self-tests -/

/-- What the unit does while its test runs (Table 18-4). -/
def State.testBegin (s : State) (u : Nat) : State :=
  let i := u % 65536
  match u / 65536 with
  | 2 => if s.flag (R.SDI_RX_STAT i) F.SDI_RX_STAT_CARRIER then s.rxLoss i else s.rxDown i true
  | 3 => s.txRefresh i
  | 4 => if s.flag (R.QE_STAT (i / 4)) F.QE_STAT_MODE then s.qeDown (i / 4) (i % 4) else s.qeDown (i / 4) 0
  | 5 => s.mateDown
  | 8 => if i < 96 then (s.set (R.HSF_RIB_STAT i) F.HSF_RIB_STAT_TESTING 1).useSpare i |>.2 else s
  | 9 => s.setEng i { s.eng i with run := none }
  | _ => s

/-- A test ends without fencing its unit: a ribbon that is not fenced carries its own traffic again, a transmit lane looks whether it
may run. -/
def State.testOver (s : State) (u : Nat) : State :=
  let i := u % 65536
  match u / 65536 with
  | 3 => s.txRefresh i
  | 8 =>
    if i < 96 then
      let s := s.set (R.HSF_RIB_STAT i) F.HSF_RIB_STAT_TESTING 0
      if s.flag (R.HSF_RIB_STAT i) F.HSF_RIB_STAT_FENCED then s else s.returnSpare i
    else s
  | _ => s

/-- A fenced unit that passed its test returns to service (R436, R437); a granule returns to the free pool and its spare is not given
back. -/
def State.unfence (s : State) (u : Nat) : State :=
  let i := u % 65536
  let s := s.setFltUnit u { s.fltUnit u with fenced := false }
  let s := ({ s with flt := { s.flt with logged := s.flt.logged.filter (· != u) } }).dirty 13
  match u / 65536 with
  | 6 => { s with fst := { s.fst with fencedG := s.fst.fencedG.filter (· != i) } }
  | 7 => { s with fst := { s.fst with fencedP := s.fst.fencedP.filter (· != i) } }
  | 8 =>
    if i < 96 then (s.set (R.HSF_RIB_STAT i) F.HSF_RIB_STAT_FENCED 0).returnSpare i
    else
      let q := ribQuad i
      let s := { s with hsf := { s.hsf with spares := tabDel s.hsf.spares (i - 96) } }
      s.set R.HSF_SPARES ⟨2 * q, 2⟩ (s.get R.HSF_SPARES ⟨2 * q, 2⟩ + 1)
  | _ => match fencedBlock u with
    | some (c, k) => if s.blockFenced c k then s else s.releaseBlock c k
    | none => s

/-- A test passes: the unit is TRANSIENT and returns to service. -/
def State.testPass (s : State) (r : FltRec) : State :=
  let x := s.fltUnit r.unit
  let tus := min 65535 ((s.now - s.flt.since) / ticksPerUs)
  let s := s.setRec { r with st := 2, tus := tus }
  let s := s.setFltUnit r.unit { x with trans := min 4095 (x.trans + 1) }
  let s := (s.inc R.FLT_TRANSIENT_CNT).raise Hist.flt F.FLT_HIST_TRANSIENT
  (if x.fenced then s.unfence r.unit else s).testOver r.unit

/-- A test fails: a unit already fenced stays so, any other is fenced. -/
def State.testFail (s : State) (r : FltRec) (rows : Nat) : State :=
  if (s.fltUnit r.unit).fenced then
    let tus := min 65535 ((s.now - s.flt.since) / ticksPerUs)
    let s := s.setRec { r with st := 3, tus := tus }
    (((s.inc R.FLT_LASTING_CNT).raise Hist.flt F.FLT_HIST_LASTING).dirty 13).testOver r.unit
  else (s.lasting r 0 rows).testOver r.unit

/-- A test is abandoned: its record returns to PENDING, with DETAIL bit 5 when master 12 hung; a second such abandonment makes it
LASTING (R433, R437). -/
def State.testAbandon (s : State) (r : FltRec) (hung : Bool) : State :=
  if hung ∧ r.detail / 32 % 2 = 1 then s.testFail r 5
  else (s.setRec { r with st := 0, detail := if hung then r.detail + 32 else r.detail, tus := 0 }).testOver r.unit

/-- The record of the test that runs. -/
def State.testing (s : State) : Option FltRec := s.flt.recs.find? fun r => r.st == 1

end Sys2Proof.Machine
end

