-- ==== Sys2Proof/Machine/ResetOps.lean ====
section
/-! DEFINITION. Shared operations of reset control: causes and phases (R355 to R361), what a cold reset leaves (R5, R359, R373), what a
warm reset clears and keeps (R368, R91, R407), the load of recalled records (R385), and the restore of stored routes (R392). -/
namespace Sys2Proof.Machine

/-! ### Phases and causes -/

/-- `s` in phase `p`. -/
def State.setPhase (s : State) (p : Nat) : State := s.set R.RST_STAT F.RST_STAT_PHASE p
/-- The source bits of RST_CAUSE. -/
def State.causes (s : State) : Nat := s.get R.RST_CAUSE F.RST_CAUSE_SOURCES
/-- More sources in RST_CAUSE. -/
def State.addCause (s : State) (m : Nat) : State := s.set R.RST_CAUSE F.RST_CAUSE_SOURCES (s.causes ||| m)

/-- RST_CAUSE of a new reset; that of the one before goes to RST_LAST_CAUSE (R374). -/
def State.newCause (s : State) (cold : Bool) (m : Nat) : State :=
  let s := s.wr R.RST_LAST_CAUSE (s.rd R.RST_CAUSE)
  (s.setB R.RST_CAUSE F.RST_CAUSE_COLD cold).set R.RST_CAUSE F.RST_CAUSE_SOURCES m

/-! ### Cold reset -/

/-- Registers a cold reset leaves: the backup registers (R373), the fuses, and what the last complete option load gave (R361). -/
def coldKept : List Nat :=
  (List.range 16).map (R.RST_LAST_CAUSE + 4 * ·) ++ [R.RST_CAUSE, R.SEC_DEVID_LO, R.SEC_DEVID_HI, R.GLB_GRADE, R.LVP_WIN]

/-- The dirty records a cold reset stores in P0 (R389): what they hold when it begins. -/
def State.p0Stores (s : State) : List (Nat × RecBody) :=
  if s.flag R.AXL_STAT F.AXL_STAT_SRAM_VALID then s.dirtyRecs.map fun k => (k, s.recBody k) else s.axl.inP0

/-- The block as a cold reset leaves it, in P0: every field at reset but what survives, and host memory and what has been sent, which lie
outside. -/
def State.coldState (s : State) : State :=
  let r : State := {
    now := s.now, free := s.free, pending := s.pending
    host := { mem := s.host.mem, sent := s.host.sent, perst := s.host.perst }
    sec := { vk0Gone := s.sec.vk0Gone }
    axl := { copies := s.axl.copies, inP0 := s.p0Stores }
    rst := { on := s.rst.on, pwrGood := s.rst.pwrGood, pinLow := s.rst.pinLow, cold := true, trig := some s.now, loaded := s.rst.loaded, retMon := s.rst.retMon
             trialRun := s.rst.trialRun, opt := s.rst.opt }
    lv := { rxBase := s.lv.rxBase, txBase := s.lv.txBase, aesQ := s.lv.aesQ }
    mtx := { ports := if s.host.perst then [13] else [], mem := s.mtx.mem.filter fun c => decide (0x13000000 ≤ c.1 ∧ c.1 < 0x13010000) }
    pkg := { temp := s.pkg.temp, ot := s.pkg.ot, jtag := s.pkg.jtag } }
  let r := coldKept.foldl (fun (r : State) a => r.wr a (s.rd a)) r
  let r := (r.set R.SEC_STAT F.SEC_STAT_LIFECYCLE s.lifecycle).set R.SEC_STAT F.SEC_STAT_DEBUG (if s.lifecycle ≤ 1 then 1 else 0)
  let r := (r.set R.SEC_FW F.SEC_FW_SVN_FUSE (s.get R.SEC_FW F.SEC_FW_SVN_FUSE)).set R.LVP_STAT F.LVP_STAT_PERSONA s.persona
  let r := r.set R.LVP_STAT F.LVP_STAT_FUSED (s.get R.LVP_STAT F.LVP_STAT_FUSED)
  let r := r.set R.AXL_STAT F.AXL_STAT_VHOLD_OK (s.get R.AXL_STAT F.AXL_STAT_VHOLD_OK)
  r.set R.AXL_STAT F.AXL_STAT_PFAIL (s.get R.AXL_STAT F.AXL_STAT_PFAIL)

/-- P1 restarts (R361). -/
def State.restartP1 (s : State) : State := (s.inc R.RST_OPTLOAD_RESTARTS).raise Hist.rst F.RST_HIST_OPTLOAD_RESTART

/-- P0 ends once power is good and the board has let RESET_N go (R359, R362): the dirty records are stored (R389), and P1 begins. -/
def State.leaveP0 (s : State) : State :=
  if s.rst.cold && s.phase == 0 && s.rst.pwrGood && !s.rst.pinLow then
    let s := s.axl.inP0.foldl (fun (s : State) p => s.writeRec p.1 p.2 true) s
    let again := s.rst.p1Again
    let s := { s with axl := { s.axl with inP0 := [] }, rst := { s.rst with p1Again := false } }
    let s := s.setPhase 1
    if again then s.restartP1 else s
  else s

/-- A cold reset begins (R355, R358): a warm reset it strikes adds its causes. -/
def State.coldBegin (s : State) (m : Nat) : State :=
  let m := if s.rst.warmDue || s.rst.warmRun then m ||| s.causes else m
  ((s.newCause true m).coldState).leaveP0

/-- A cold source fires (R355, R358, R361, R389); one that fires during an autostore waits for its end. -/
def State.coldSource (s : State) (m : Nat) : State :=
  if s.axl.running then { s with axl := { s.axl with deferred := some ((s.axl.deferred.getD 0) ||| m) } }
  else if s.rst.cold && s.phase == 0 then (s.addCause m).leaveP0
  else if s.rst.cold && s.phase == 1 then
    if s.rst.pwrGood then (s.addCause m).restartP1
    else ({ s with rst := { s.rst with p1Again := true } }.addCause m).setPhase 0
  else s.coldBegin m

/-! ### Warm reset -/

/-- A warm source fires: bit `b` of RST_CAUSE, made cold by bit `b` − 4 of RST_CFG (R355, R358). -/
def State.warmSource (s : State) (b : Nat) : State :=
  if s.get R.RST_CFG F.RST_CFG_COLD / 2 ^ (b - 4) % 2 = 1 then s.coldSource (2 ^ b)
  else if s.rst.cold && s.phase == 1 then (s.addCause (2 ^ b)).restartP1
  else if s.rst.warmDue || ((s.rst.cold || s.rst.warmRun) && decide (s.phase < 5)) then s.addCause (2 ^ b)
  else if s.get R.RST_STAT F.RST_STAT_WARM_STREAK = 3 then s.coldSource (2 ^ b + 2 ^ 10)
  else
    let s := s.newCause false (2 ^ b)
    let s := if s.isReady then s
      else s.set R.RST_STAT F.RST_STAT_WARM_STREAK (s.get R.RST_STAT F.RST_STAT_WARM_STREAK + 1)
    { s with rst := { s.rst with warmDue := true } }

/-- The RW and RW1C bits of a register return to its reset value; RWS and RO bits stay (R5). -/
def warmVal (a : Nat) (v : Word) : Word :=
  match regRow a with
  | some r =>
    let m := BitVec.ofNat 32 (r.rw ||| r.w1c)
    (v &&& ~~~m) ||| (resetVal a &&& m)
  | none => v

/-- Every register after a warm reset. -/
def warmTab (t : Tab Word) : Tab Word :=
  (t.map fun p => (p.1, warmVal p.1 p.2)).filter fun p => p.2 != resetVal p.1

/-- An operation was armed before the reset and executes although its entry is gone (R91, R179, R215). -/
def OpBody.armed : OpBody → Bool
  | .take t => t.armed || t.waiting
  | .commit _ => true
  | .map m => m.rfn == 0
  | .fade f => f.started || f.rfn == 0
  | _ => false

/-- An operation that the twin's copy can give back (R407). -/
def OpBody.copied : OpBody → Bool
  | .take _ => true
  | .salvo _ => true
  | .map _ => true
  | .fade _ => true
  | _ => false

/-- An armed entry of salvo `id` is among the operations. -/
def salvoLives (l : List Op) (id : Nat) : Bool :=
  l.any fun o => match o.body with
    | .take t => t.salvo == some id && o.body.armed
    | _ => false

/-- An operation outlives the in-flight table: armed, or a salvo with an armed entry. -/
def outlives (l : List Op) (o : Op) : Bool :=
  match o.body with
  | .salvo _ => salvoLives l o.id
  | b => b.armed

/-- An operation without its entry in the table. -/
def State.orphanOp (s : State) (o : Op) : Op :=
  let p := s.opOrigin o.id
  { o with dest := .gone p.1 p.2, irq := false }

/-- An operation is lost with the in-flight table (R91, R215): a salvo counts one entry less, a chain whose take it was is due to be
released, and slots claimed for it are free. -/
def State.loseOp (s : State) (o : Op) : State :=
  match o.body with
  | .take t =>
    let s := match t.salvo with
      | some sid => match s.opBody? sid with
        | some (.salvo v) => if v.left ≤ 1 then s.dropOp sid else s.setOp sid (.salvo { v with left := v.left - 1 })
        | _ => s
      | none => s
    match t.unit.bind fun u => (s.chainOf u).map fun c => (u, c) with
    | some (u, c) => s.setChain u { c with dueFree := true }
    | none => s
  | .map _ => s.reapSlots
  | _ => s

/-- The twin holds a copy of the leap table and can be reached. -/
def State.pairInReach (s : State) : Bool :=
  s.role != 0 && !s.flag R.MATE_STAT F.MATE_STAT_ISOLATED && !s.flag R.MATE_STAT F.MATE_STAT_PARTNER_LOST
    && s.flag R.MATE_STAT F.MATE_STAT_LINK_UP && !s.flag R.MATE_STAT F.MATE_STAT_PARTNER_RESTARTING

/-- The in-flight table is cleared (R91, R285). -/
def State.clearOps (s : State) : State :=
  let l := s.host.ops
  let keep := (l.filter (outlives l)).map s.orphanOp
  let rest := (l.filter fun o => !outlives l o && o.body.copied).map s.orphanOp
  let s := { s with host := { s.host with ops := keep } }
  let s := if s.pairInReach then { s with mate := { s.mate with recover := rest } }
    else rest.foldl (fun (s : State) (o : Op) => s.loseOp o) s
  s.leapRateCheck

/-- Recovered operations stand again, or are lost when the partner cannot supply them (R407). -/
def State.recoverOps (s : State) : State :=
  let l := s.mate.recover
  let s := { s with mate := { s.mate with recover := [] } }
  if s.pairInReach then { s with host := { s.host with ops := s.host.ops ++ l } }
  else l.foldl (fun (s : State) (o : Op) => s.loseOp o) s

/-- Chains whose take was lost and that feed no destination are released (R91, R68). -/
def State.reapAll (s : State) : State :=
  (s.fst.chains.map (·.1)).foldl (fun (s : State) u => s.reapChain u) s

/-- E1 of Table 14-4: masters and rings are reset, READY clears, PHASE reads P3. The matrix ports are reset with the masters, so nothing is
left waiting at one (R353, R368), and they serve the boot ROM again at once (assumption 173). -/
def State.warmE1 (s : State) : State :=
  let s := match s.testing with
    | some r => s.testAbandon r false
    | none => s
  let s := s.raiseOver.clearOps
  let dma := s.host.cpls.map fun c => c.ring * 65536 + c.tag
  let s := dma.foldl State.dmaAbandon s
  let s := if s.sec.genId then
      let (n, s) := s.draw
      s.set R.SEC_LC_RES F.SEC_LC_RES_RESULT (Config.fresh 3 n).toNat
    else s
  let s := { s with
    regs := warmTab s.regs
    taken := warmTab s.taken
    host := { s.host with rings := [], cpls := [], dom := [], dmaOff := true }
    sec := { s.sec with genId := false, logUp := false, ckUp := false }
    lv := { s.lv with answers := false, ready := false, irqHold := some s.lvIrqLow }
    rst := { s.rst with warmDue := false, warmRun := true, imgBad := false }
    pkg := { s.pkg with hist := 0 } }
  let s := s.leapRateCheck
  let s := (List.range 64).foldl (fun (s : State) n => s.setRingSt n 0) s
  let s := (List.range 13).foldl (fun (s : State) m => s.resetMaster m) s
  let s := (List.range 250).foldl (fun (s : State) d =>
    if s.get (R.HSF_XSTAT d) F.HSF_XSTAT_STATE = 1 then s else s.set (R.HSF_XSTAT d) F.HSF_XSTAT_STATE 2) s
  let s := (s.inc R.RNG_GLB_WARM).set R.RNG_GLB_STAT F.RNG_GLB_STAT_READY 0
  s.clearAwait.setPhase 3

/-! ### Recall (R385, R386, R420, R421) -/

/-- What the body of a record loads. -/
def State.loadBody (s : State) (k : Nat) (b : RecBody) : State :=
  match b with
  | .settings arm restore epoch pend =>
    let s := ((s.setB R.AXL_CTL F.AXL_CTL_ARM arm).set R.AXL_CTL F.AXL_CTL_RESTORE restore).wr R.MATE_EPOCH (BitVec.ofNat 32 epoch)
    { s with sec := { s.sec with rmaPend := pend } }
  | .leaves l _ => if k = 3 then s.setLeaves 0 ⟨l.stop, l.stop⟩ else if k = 4 then s.setLeaves 1 ⟨l.stop, l.stop⟩ else s
  | .keys ks dom on =>
    let s := ({ s with sec := { s.sec with keys := ks, domKey := dom } }).showKeys
    s.setB R.SEC_STAT F.SEC_STAT_SIGN_REQ (on && (s.lifecycle == 1 || s.lifecycle == 2) && s.persona != 1)
  | .seqs l => ((List.range 8).zip l).foldl (fun (s : State) p => s.wr2 (R.SEC_SEQ_LO p.1) (R.SEC_SEQ_HI p.1) p.2) s
  | .logHead head num n =>
    ({ s with sec := { s.sec with head := head, entries := n, sramHead := head, sramEnt := n } }).wr2 R.SEC_CKPT_NUM_LO R.SEC_CKPT_NUM_HI num
  | .routes r c =>
    if k = 8 then { s with axl := { s.axl with routes := r, cfgs := c } }
    else { s with axl := { s.axl with presets := tabSet [] s.axl.presets (k - 9) r } }
  | .errors us => { s with flt := { s.flt with logged := us } }
  | .ageing xo a l =>
    let s := ({ s with ref := { s.ref with daily := l, newDays := 0 } }).wr R.REF_XO_CAL (BitVec.ofNat 32 xo)
    (s.wr R.REF_AGE_LEARNED (BitVec.ofNat 32 a)).set R.REF_AGE_DAYS F.REF_AGE_DAYS_HELD l.length
  | .meters open_ us =>
    let s := s.set R.AXL_AUTO_TIME F.AXL_AUTO_TIME_TIME us
    let s := { s with axl := { s.axl with autoUs := us, session := open_ } }
    if open_ then
      let s := s.raise Hist.axl F.AXL_HIST_AUTOSTORE_MISSED
      if s.lifecycle = 0 then s else ({ s with sec := { s.sec with logGap := true } }).raise Hist.sec F.SEC_HIST_LOG_GAP
    else s
  | .user cells =>
    let m := cells.foldl (fun (m : List Host.Cell) c => memWrite m c.1 c.2) s.axl.user
    { s with axl := { s.axl with user := m } }
  | .cert l => { s with sec := { s.sec with cert := l } }
  | .plain => s

/-- A tie of different bodies is rewritten in half 1 (Table 15-3); END takes no store. -/
def State.tieRewrite (s : State) (k : Nat) (c : Copy) : State :=
  let s := s.raise Hist.axl F.AXL_HIST_AXL_SEQ_TIE
  if s.lifecycle = 4 then s else (s.setCopy k 1 ⟨(c.seq + 1) % 2 ^ 32, true, c.body⟩).inc R.AXL_STORE_CNT

/-- The registers of record `k` show its newest copy: half `h`, sequence number `q`. -/
def State.showRec (s : State) (k h q : Nat) : State :=
  let a := R.AXL_REC_STAT k
  let s := ((s.set a F.AXL_REC_STAT_VALID 1).set a F.AXL_REC_STAT_HALF h).wr (R.AXL_REC_SEQ k) (BitVec.ofNat 32 q)
  if wearLevelled k then s.set a F.AXL_REC_STAT_POS (wearPos k q) else s

/-- Record `k` is recalled: Table 15-3 chooses the winner, a tie of different bodies is rewritten, and the winner is loaded. -/
def State.recallRec (s : State) (k : Nat) : State :=
  let a := R.AXL_REC_STAT k
  let win : Option (Nat × Copy) × Bool := match s.copy? k 0, s.copy? k 1 with
    | some x, some y =>
      if x.seq = y.seq then (some (0, x), x.body != y.body) else (some (if newer y.seq x.seq then (1, y) else (0, x)), false)
    | some x, none => (some (0, x), false)
    | none, some y => (some (1, y), false)
    | none, none => (none, false)
  match win.1 with
  | none => (s.set a F.AXL_REC_STAT_LOST 1).raise Hist.axl F.AXL_HIST_REC_LOST
  | some (h, c) =>
    let s := if win.2 then s.tieRewrite k c else s
    let p := (s.newestCopy k).getD (h, c.seq)
    (s.showRec k p.1 p.2).loadBody k c.body

/-- The body of record `k` as recalled says that its key was retired. -/
def State.recRetired (s : State) (k : Nat) : Bool :=
  match (s.newestCopy k).bind fun p => s.copy? k p.1 with
  | some c => match c.body with
    | .leaves _ r => r
    | _ => false
  | none => false

/-- The status of signing key `k` after recall (R421): a key is retired when its state or its reservation was lost or its leaves are
used up; a BLANK device that has lost both has none, and in RMA the route-log key stays retired (R415). -/
def State.recallKey (s : State) (k : Nat) : State :=
  let lost := fun (r : Nat) => s.flag (R.AXL_REC_STAT r) F.AXL_REC_STAT_LOST
  if s.lifecycle = 0 ∧ lost (1 + k) ∧ lost (3 + k) then s
  else if lost (1 + k) || lost (3 + k) || s.recRetired (1 + k) || decide (keyLeaves k ≤ (s.leaves k).next) || (k == 1 && s.lifecycle == 3) then
    s.retireKey k
  else s.set R.SEC_STAT (keyField k) 1

/-- A retention loss the monitor recorded: the backup registers and the retained SRAM read zero and the boot record takes its defaults
(R373). -/
def State.retention (s : State) : State :=
  if s.rst.retMon then
    let s := (List.range 16).foldl (fun (s : State) k => s.wr (R.RST_LAST_CAUSE + 4 * k) 0) s
    let s := { s with rst := { s.rst with retMon := false, trialRun := false }, mtx := { s.mtx with mem := [] } }
    s.set R.RST_STAT F.RST_STAT_RET_LOST 1
  else s

/-! ### Restore at power-on (R392) -/

/-- The header a restored route is admitted under: an immediate take. -/
def restoreHdr (t : Nat) : Hdr :=
  { ring := 0, tag := 0, ordered := false, dropIfLate := false, signed := false, chain := false, irq := false, epoch := 0, rfn := 0,
    blobAddr := 0, blob := none, t := t }

/-- The chain request a stored chain stands for. -/
def savedSpec (r : SavedRoute) (c : SavedChain) : ChainSpec :=
  { src := c.src, dst := some r.dst, depth := c.depth, pix := c.pix, quad := none, persist := c.persist, offset := c.offset
    conv := c.conv.map fun v => { outFmt := v.1, outPix := v.2.1, depth := v.2.2.1, par := v.2.2.2, run := true } }

/-- The checks of R79 from step 3 on, and the admission, of one stored route. `units` maps the units of restored chains to the units
they have now. -/
def State.restoreOne (s : State) (units : Tab Nat) (r : SavedRoute) : Adm :=
  if s.lvOwned r.dst then denied 4
  else match r.chain with
    | none => routeBody (restoreHdr s.now) r.dst r.src s
    | some c => match tabFind units c.unit with
      | some u => routeBody (restoreHdr s.now) r.dst (352 + u) s
      | none =>
        let q := savedSpec r c
        let of := ((q.conv.map (·.outFmt)).getD (s.srcFmt q.src))
        let op := ((q.conv.map (·.outPix)).getD q.pix)
        if s.chainCw r.dst then denied 6
        else if !s.srcExists q.src || (s.fmt? (s.srcFmt q.src)).isNone then bad 16
        else if !s.dstExists r.dst || !s.carries r.dst of (pix444 op) true (s.srcRgb q.src) none then bad 18
        else if pix444 q.pix != s.src444 q.src then bad 21
        else chainAdmit (restoreHdr s.now) q s

/-- The unit a chain restored to destination `d` has: that of the newest chain whose take it is. -/
def State.unitFor (s s0 : State) : Option Nat :=
  (s.fst.chains.find? fun p => (s0.chainOf p.1).isNone).map (·.1)

/-- Stored routes are admitted one by one in ascending destination number: routes restored and skipped. None when an admission waits for
VDD_CORE to be raised (R25). -/
def State.restoreAll (s : State) : List SavedRoute → Tab Nat → Nat → Nat → Option (State × Nat × Nat)
  | [], _, ok, no => some (s, ok, no)
  | r :: l, units, ok, no =>
    match s.restoreOne units r with
    | .yes s' =>
      let units := match r.chain, s'.unitFor s with
        | some c, some u => tabPut units c.unit u
        | _, _ => units
      s'.restoreAll l units (ok + 1) no
    | .wait => none
    | _ => s.restoreAll l units ok (no + 1)

/-- The routes that RESTORE selects. -/
def State.restoreList (s : State) : List SavedRoute :=
  let n := s.get R.AXL_CTL F.AXL_CTL_RESTORE
  if s.persona = 1 then [] else if n = 1 then s.axl.routes else if 2 ≤ n ∧ n ≤ 5 then tabGet [] s.axl.presets (n - 2) else []

/-- The stored routes are applied (R392): with record 8 the XPT_DST_CFG values too. None when an admission waits for a raise. -/
def State.restoreRoutes (s : State) : Option State :=
  let s := if s.get R.AXL_CTL F.AXL_CTL_RESTORE = 1 ∧ s.persona ≠ 1 then
      s.axl.cfgs.foldl (fun (s : State) p => if s.lvOwned p.1 then s else s.wr (R.XPT_DST_CFG p.1) p.2) s
    else s
  let s := { s with host := { s.host with restoring := true } }
  (s.restoreAll s.restoreList [] 0 0).map fun r =>
    let s := { r.1 with host := { r.1.host with restoring := false } }
    (s.set R.AXL_RESTORE F.AXL_RESTORE_RESTORED r.2.1).set R.AXL_RESTORE F.AXL_RESTORE_SKIPPED r.2.2

end Sys2Proof.Machine
end

