-- ==== Sys2Proof/Machine/Axolotl.lean ====
section
/-! DEFINITION. The Axolotl store: stores, the autostore, arming, presets and the margin read (chapter 15, R376 to R394). -/
namespace Sys2Proof.Machine

/-- RECORD_STORE: the owner's or the engine's store of one record (R382); nothing is stored before the recall. -/
def execRecordStore (k : Nat) (first second : Bool) (s : State) : Host.Outcome State Fault Refusal :=
  .next (if k ≤ 80 ∧ s.flag R.AXL_STAT F.AXL_STAT_SRAM_VALID then s.storeRec k first second else s)

/-! ### Autostore (R389, Table 15-4) -/

/-- The order of an autostore: safety records, then the power-down records by ascending offset, record 15 last. -/
def State.autoOrder (s : State) : List Nat :=
  let l := s.dirtyRecs
  let byOff := fun (l : List Nat) => l.foldr (fun k r => r.takeWhile (fun j => recOffset j < recOffset k) ++ [k]
    ++ r.dropWhile fun j => recOffset j < recOffset k) []
  byOff (l.filter fun k => recClass k == 2) ++ byOff (l.filter fun k => recClass k == 0 && k != 15) ++ [15]

/-- POWER_FAIL_TRIP: E1 and E2 of Table 15-4. Record 7 takes the head (R424), the voltage controller commands nothing more (R328), and the
autostore stores what the working SRAM holds now: later writes stall until E4. -/
def execPowerFailTrip (t : Nat) (s : State) : Host.Outcome State Fault Refusal :=
  .next (
    if s.flag R.AXL_STAT F.AXL_STAT_PFAIL then s
    else
      let s := (s.at_ t).set R.AXL_STAT F.AXL_STAT_PFAIL 1
      let s := s.setVState 5
      if s.armed && s.flag R.AXL_STAT F.AXL_STAT_SRAM_VALID then
        let s := { s with sec := { s.sec with sramHead := s.sec.head, sramEnt := s.sec.entries } }.dirty 7
        { s with axl := { s.axl with running := true, frozen := s.autoOrder.dropLast.map fun k => (k, s.recBody k) } }.set R.AXL_STAT F.AXL_STAT_STATE 2
      else s)

/-- The autostore is over: a cold reset that waited for it begins. -/
def State.autoOver (s : State) : State :=
  let d := s.axl.deferred
  let s := { s with axl := { s.axl with running := false, deferred := none, frozen := [] } }.set R.AXL_STAT F.AXL_STAT_STATE 0
  match d with
  | some m => s.coldSource m
  | none => s

/-- AUTOSTORE_END: every dirty record stored, the meters last with the session closed and the duration; `fail` lists the records not
confirmed. -/
def execAutostoreEnd (fail : List Nat) (us : Nat) (s : State) : Host.Outcome State Fault Refusal :=
  .next (
    if !s.axl.running then s
    else
      let s := s.axl.frozen.foldl (fun (s : State) p => s.storeFrozen p (!fail.contains p.1)) s
      let s := { s with axl := { s.axl with session := false, autoUs := min 65535 us } }
      let s := (s.set R.AXL_AUTO_TIME F.AXL_AUTO_TIME_TIME s.axl.autoUs).storeRec 15 (!fail.contains 15) (!fail.contains 15)
      (s.raise Hist.axl F.AXL_HIST_AUTOSTORE).autoOver)

/-- VHOLD_COLLAPSE: the store stops at a row boundary; the first `k` records are stored, and the next one keeps its previous copy. -/
def execVholdCollapse (k : Nat) (s : State) : Host.Outcome State Fault Refusal :=
  .next (
    if !s.axl.running then s
    else
      let l := s.axl.frozen
      let s := (l.take k).foldl (fun (s : State) p => s.storeFrozen p true) s
      let s := match l[k]? with
        | some p => s.writeRec p.1 p.2 false
        | none => s
      s.autoOver)

/-- PFAIL_CLEAR: the controller resumes from the voltage it holds. -/
def execPfailClear (s : State) : Host.Outcome State Fault Refusal :=
  .next (
    if s.flag R.AXL_STAT F.AXL_STAT_PFAIL then
      let s := s.set R.AXL_STAT F.AXL_STAT_PFAIL 0
      if s.vState = 5 then s.setVState (if s.lifecycle = 4 then 6 else if s.adaptive && s.hsf.raising.isSome then 3 else 0) else s
    else s)

/-! ### Arming (R388) -/

/-- A change of the armed state shows in GLB_MODE_HIST (R309). -/
def State.armChange (s s0 : State) : State :=
  if s.armed == s0.armed then s else s.raiseMode F.GLB_MODE_HIST_AUTOSTORE_CHG

/-- Safety records that are dirty are stored at once while autostore is not armed (R379). -/
def State.storeSafety (s : State) : State :=
  if s.armed then s
  else [6, 7].foldl (fun (s : State) k => if s.isDirty k then s.storeRec k true true else s) s

/-- VHOLD_OK_SET. -/
def execVholdOkSet (s : State) : Host.Outcome State Fault Refusal :=
  .next ((s.set R.AXL_STAT F.AXL_STAT_VHOLD_OK 1).armChange s)

/-- VHOLD_OK_CLEAR: while ARM is 1 it disarms autostore; DISARMED sets, and safety records are stored at once. -/
def execVholdOkClear (s : State) : Host.Outcome State Fault Refusal :=
  .next (
    if !s.flag R.AXL_STAT F.AXL_STAT_VHOLD_OK then s
    else
      let s1 := (s.set R.AXL_STAT F.AXL_STAT_VHOLD_OK 0).armChange s
      let s1 := if s.flag R.AXL_CTL F.AXL_CTL_ARM && s.lifecycle != 4 then s1.raise Hist.axl F.AXL_HIST_DISARMED else s1
      if s1.flag R.AXL_STAT F.AXL_STAT_SRAM_VALID then s1.storeSafety else s1)

/-- What a write of AXL_CTL does; `ok` says whether the store of record 0 is confirmed, and the new value is used only then (R379). -/
def State.axlCtl (s : State) (v : Nat) (ok : Bool) : State :=
  let s := s.set R.AXL_CTL F.AXL_CTL_MARGIN_EN (v / 8 % 2)
  let arm := v % 2
  let refused := arm == 0 && s.flag R.AXL_CTL F.AXL_CTL_ARM && s.signReq
  let want := s.set R.AXL_CTL F.AXL_CTL_RESTORE (v / 32 % 8)
  let want := if refused then want.modeRefused 2 else want.set R.AXL_CTL F.AXL_CTL_ARM arm
  let done := want.storeRec 0 ok ok
  if ok then (done.armChange s).storeSafety
  else ((done.set R.AXL_CTL F.AXL_CTL_RESTORE (s.get R.AXL_CTL F.AXL_CTL_RESTORE)).set R.AXL_CTL F.AXL_CTL_ARM
    (s.get R.AXL_CTL F.AXL_CTL_ARM))

/-- AXL_CTL_WRITE; a write of ARM = 0 while signing-required mode is in force is refused with code 0x02. -/
def execAxlCtlWrite (v : Nat) (ok : Bool) (s : State) : Host.Outcome State Fault Refusal :=
  .next (s.byHost R.AXL_CTL fun s => (s.axlCtl v ok).afterWrite s)

/-! ### Presets and margin read (R392, R387) -/

/-- PRESET_CAPTURE: a write of AXL_PRESET with CAPTURE = 1; `ok` says whether the store is confirmed, and the new preset is used only
then. -/
def State.presetCapture (s : State) (v : Nat) (ok : Bool) : State :=
    if v / 2 ^ 31 % 2 = 0 then s
    else
      let p := v % 4
      let old := s.axl.presets
      let s := ({ s with axl := { s.axl with presets := tabSet [] old p s.saveRoutes } }.dirty (9 + p)).storeRec (9 + p) ok ok
      if ok then s.raise Hist.axl F.AXL_HIST_CAPTURED else { s with axl := { s.axl with presets := old } }

/-- `presetCapture` as a write of the host. -/
def execPresetCapture (v : Nat) (ok : Bool) (s : State) : Host.Outcome State Fault Refusal := .next (s.byHost R.AXL_PRESET fun s => s.presetCapture v ok)

/-- MARGIN_READ: `weak` lists the weak copies by record and half; each record with one is stored once. -/
def execMarginRead (weak : List (Nat × Bool)) (s : State) : Host.Outcome State Fault Refusal :=
  .next (
    if !s.flag R.AXL_CTL F.AXL_CTL_MARGIN_EN || !s.isReady || s.axl.running || s.lifecycle == 4 then s
    else
      let l := weak.eraseDups.filter fun w => (s.copy? w.1 (if w.2 then 1 else 0)).isSome
      let has := fun (k : Nat) => l.any fun w => w.1 == k
      let s := (List.range 81).foldl (fun (s : State) k => s.setB (R.AXL_REC_STAT k) F.AXL_REC_STAT_WEAK (has k)) s
      let s := s.count R.AXL_WEAK_CNT l.length
      (List.range 81).foldl (fun (s : State) k =>
        if has k then (s.storeRec k true true).raise Hist.axl F.AXL_HIST_WEAK_FIXED else s) s)

end Sys2Proof.Machine
end

