-- ==== Sys2Proof/Machine/CtxOps.lean ====
section
/-! DEFINITION. What a Chameleon context computes: its output frame grid and the readiness of its slices (R136), the input frames it
works on and its history (R132, R139), and its output picture by the stages of Table 4-8 (R131, R139 to R143). What the manual leaves
open of this is in assumptions 147, 148 and 168. -/
namespace Sys2Proof.Machine

/-! ### Grid and readiness (R136) -/

/-- The output frame grid of context `c`: its chain's unit's, or reference timing plus its own offset. -/
def State.ctxGrid (s : State) (c : Nat) (x : Ctx) : Option Grid :=
  (((s.fst.chains.find? fun p => p.2.ctx == some c).bind fun p => s.souGrid p.1).or
    ((s.fmt? x.outFmt).map fun f =>
      f.refGrid x.outFmt (f.offsetTicks (x.par.offset / 65536 % 8192) (x.par.offset % 16384)) 0))

/-- The first frame start of a context's grid at or after `t`. -/
def State.ctxFrameAt (s : State) (c : Nat) (x : Ctx) (t : Nat) : Nat := ((s.ctxGrid c x).map fun g => g.frameAt t).getD t

/-- The input buffer a context selects at the start of an output frame (R122, R139): with drop/repeat the newest that was complete one output
frame before; a conversion in time works on complete frames (assumption 168). -/
def State.ctxSelect (s : State) (x : Ctx) (t : Nat) : Option Nat :=
  let per := ((s.fmt? x.outFmt).map Fmt.period).getD 0
  let tr := ((s.fmt? x.outFmt).map fun f => f.period / f.totL).getD 0
  let inTime := ((s.ctxFig x).map fun c => c.deint != 1 || c.frc.isSome).getD false
  let early := ((s.ringBufs x.inRing).filterMap fun h => (s.buf h).map fun b => (h, b)).foldl (fun (a : Option (Nat × Buf)) p =>
    if p.2.done = 0 || decide (x.frameAt < p.2.doneAt + per) || decide (p.2.done ≤ (a.map (·.2.done)).getD 0) then a else some p) none
  let h := if (s.ctxFig x).bind (·.frc) = some 0 then (early.map (·.1)).or (s.newest x.inRing)
    else if inTime then s.newest x.inRing
    else s.selectBuf x.inRing x.outFmt tr t
  h.bind fun h => if ((s.buf h).map (·.freeing)).getD true then none else some h

/-- Active input lines a context's slice `k` needs: those its output lines and the scaler's taps reach, or the whole picture when fields or
frames are converted. -/
def ChainFig.needs (c : ChainFig) (p : CtxPar) (k : Nat) : Nat :=
  let win := p.srcWin.getD (0, 0, c.fi.w, c.fi.lines)
  let out := p.outWin.getD (0, 0, c.fo.w, c.fo.lines)
  let e := (c.fo.sliceSpan k).2
  let h := win.2.2.2
  let o := out.2.2.2
  if c.deint ≠ 1 ∨ c.frc ≠ none ∨ c.fi.inter ∨ c.fo.inter then c.fi.lines
  else if e ≤ out.2.1 then 0
  else
    let y := min (e - out.2.1) o
    win.2.1 + min h (if h = o then y else (scalePos h o (y - 1) / 64 + 5).toNat)

/-- The next slice of a context is ready: its frame has begun and the input lines it needs are there. -/
def State.sliceReady (s : State) (x : Ctx) (t : Nat) : Bool :=
  decide (x.frameAt ≤ t) &&
  match (if x.active then x.inBuf else s.ctxSelect x t), s.ctxFig x with
  | some h, some c => match (s.cwFilling x.inRing t).or (s.ctxFilling x.inRing) with
    | some w => w.1 != h || decide (c.needs x.par x.slice ≤ w.2.2.2)
    | none => true
  | _, _ => false

/-! ### Input frames and history -/

/-- An input frame at hand: order number, time in ticks, completion, and picture as stored. -/
structure InFrame where
  seq  : Nat
  time : Nat
  done : Nat
  pic  : Pic
deriving DecidableEq, Repr

/-- A progressive picture the later stages work on, at 16 bits 4:4:4. -/
structure CtxPic where
  time : Nat
  done : Nat
  pic  : Pic
deriving DecidableEq, Repr

/-- The input frames a context has, oldest first: its history, and the buffer given. -/
def State.framesWith (s : State) (x : Ctx) (h : Option Nat) (g : Ring) (f : Fmt) : List InFrame :=
  let cur := h.bind fun h => (s.buf h).map fun b => (⟨b.done, b.info.ptpNs * ticksPerNs, b.doneAt, s.ringPic x.inRing h⟩ : InFrame)
  ((x.hist.filter fun h => some h.seq != cur.map (·.seq)).reverse.map fun h =>
    (⟨h.seq, h.time * ticksPerNs, h.doneAt, s.readPic h.buf g.pix g.rgb f⟩ : InFrame)) ++ cur.toList

/-- The input frames a context has, with the buffer it reads. -/
def State.ctxFrames (s : State) (x : Ctx) (g : Ring) (f : Fmt) : List InFrame := s.framesWith x x.inBuf g f

/-- Stages 1 and 2: unpacked, upsampled and cropped, in display order. -/
def croppedPic (c : ChainFig) (p : CtxPar) (x : InFrame) : Pic :=
  cropPic (p.srcWin.getD (0, 0, c.fi.w, c.fi.lines)) (toInternal (pix444 c.pi) (displayOrder c.fi x.pic))

/-- The fields of an input frame in time order: whether each is the upper of the cropped picture, its time, completion and lines. -/
def inFields (c : ChainFig) (p : CtxPar) (x : InFrame) : List (Bool × CtxPic) :=
  let half := c.fi.period / 2
  let top := c.fi.f1Top != ((p.srcWin.map (·.2.1)).getD 0 % 2 == 1)
  let q := croppedPic c p x
  [(top, ⟨x.time, x.done - half, fieldOf top q⟩), (!top, ⟨x.time + half, x.done, fieldOf (!top) q⟩)]

/-- Stage 3: the progressive pictures of the input frames, one per frame, or one per field when a deinterlacer runs (R141); under a locked
cadence a frame-rate conversion takes each original frame once (R139). -/
def ctxInputs (c : ChainFig) (p : CtxPar) (cadence : Nat) (l : List InFrame) : List CtxPic :=
  if c.deint = 1 then l.map fun x => ⟨x.time, x.done, croppedPic c p x⟩
  else
    let fs := l.flatMap (inFields c p)
    let ps := fs.map fun g => (g.1, g.2.pic)
    ((fs.zipIdx).filter fun f => cadence == 0 || c.frc.isNone || secondOfPair cadence ps f.2).map fun f =>
      ⟨f.1.2.time, f.1.2.done, deintField c.deint cadence ps f.2⟩

/-! ### Frame-rate conversion (R139, R140) -/

/-- The last picture of a list whose key is at most `t`, else its first: its index. -/
def pickBy (key : CtxPic → Nat) (t : Nat) (l : List CtxPic) : Nat := (l.filter fun x => decide (key x ≤ t)).length - 1

/-- The two pictures whose completions lie either side of instant `t`, with how far `t` lies between them. -/
def eitherSide (l : List CtxPic) (t : Nat) : Option (CtxPic × CtxPic × Nat × Nat) :=
  let i := pickBy (·.done) t l
  match l[i]?, l[i + 1]? with
  | some a, some b => if a.done ≤ t ∧ a.done < b.done then some (a, b, t - a.done, b.done - a.done) else none
  | _, _ => none

/-- The instant of the input an output frame that starts at `t` shows when frames are blended or interpolated, by their completions: earlier
by the frames of Table 4-10, and by so many input frames that two lie either side of it (assumption 168). -/
def ChainFig.showTime (c : ChainFig) (t : Nat) : Nat :=
  let k := if c.frc = some 2 then 2 else 1
  t - min (k * c.fi.period) (max c.fi.period (k * c.fo.period))

/-- The pair of pictures the motion estimator works on for an output frame at `t`. -/
def ChainFig.motionPair (c : ChainFig) (l : List CtxPic) (t : Nat) : Option (Pic × Pic) :=
  if !c.mc then none
  else if c.frc = some 2 then (eitherSide l (c.showTime t)).map fun p => (p.1.pic, p.2.1.pic)
  else
    let i := pickBy (·.time) (t - c.fi.period) l
    match (if i = 0 then none else l[i - 1]?), l[i]? with
    | some a, some b => some (a.pic, b.pic)
    | _, _ => none

/-- More than `cut`/256 of the pair's blocks exceed the limit: a scene cut. -/
def isCut (cut : Nat) (v : List Vec) : Bool := let n := cutBlocks v; decide (max 1 cut * n.2 < 256 * n.1)

/-- Stage 4: the picture for the output frame that starts at `t`; `cut` is CUT_FRAC. -/
def ChainFig.picAt (c : ChainFig) (cut : Nat) (l : List CtxPic) (t : Nat) : Pic :=
  let last := ((l.getLast?).map (·.pic)).getD []
  let pick := fun (k : CtxPic → Nat) (t : Nat) => ((l[pickBy k t l]?).map (·.pic)).getD last
  match c.frc with
  | none => if c.deint = 1 then last else pick (·.time) (t - c.fi.period)
  | some 0 => pick (·.done) (t - c.fo.period)
  | some m => match eitherSide l (c.showTime t) with
    | none => pick (·.done) (c.showTime t)
    | some (a, b, n, d) =>
      if m = 1 then blendPic n d a.pic b.pic
      else
        let v := vectorField a.pic b.pic
        if isCut cut v then (if 2 * n ≤ d then a.pic else b.pic)
        else motionPic n d a.pic b.pic v (vectorField b.pic a.pic)

/-! ### The output picture -/

/-- Stages 5 to 8 on one progressive picture: scaled to the output window, converted, downsampled and placed over the fill colour. -/
def ChainFig.finish (c : ChainFig) (p : CtxPar) (lut : Option (List Nat)) (q : Pic) : Pic :=
  let w := p.outWin.getD (0, 0, c.fo.w, c.fo.lines)
  let q := (scalePic p.kernel p.kernelH p.kernelV w.2.2.1 w.2.2.2 q).map fun l => l.map (colourPx p lut)
  let q := if pix444 c.po then q else q.map down422
  placePic (pix444 c.po) w.1 w.2.1 c.fo.w c.fo.lines (pxMap (toBits 10 16) (p32Px p.fill)) q

/-- CUT_FRAC of engine `e`. -/
def State.cutFrac (s : State) (e : Nat) : Nat := s.get (R.CHE_CTL e) F.CHE_CTL_CUT_FRAC

/-- The progressive pictures a context works on. -/
def State.ctxList (s : State) (x : Ctx) (c : ChainFig) : List CtxPic :=
  match s.ring x.inRing with
  | none => []
  | some g => ctxInputs c x.par x.cadence (s.ctxFrames x g c.fi)

/-- The output picture of context `c` for the frame in progress, as stored, at 16 bits: interlaced output takes each field from the
progressive picture at the field's time when a deinterlacer runs (R141). -/
def State.ctxPic (s : State) (c : Nat) (x : Ctx) : Pic :=
  match s.ctxFig x with
  | none => []
  | some k =>
    let l := s.ctxList x k
    let lut := x.par.bank.bind fun b => tabFind (s.eng (c / 16)).luts b
    let out := fun (t : Nat) => k.finish x.par lut (k.picAt (s.cutFrac (c / 16)) l t)
    if k.fo.inter && k.deint != 1 then
      fieldOf k.fo.f1Top (out x.frameAt) ++ fieldOf (!k.fo.f1Top) (out (x.frameAt + k.fo.period / 2))
    else storedOrder k.fo (out x.frameAt)

/-! ### History, vectors and cadence -/

/-- History frames a chain's working store holds (Table 4-9). -/
def ChainFig.histBufs (c : ChainFig) : Nat := if c.mc then 2 else c.store

/-- A complete buffer takes its place in the order of completion. -/
def State.insertDone (s : State) (h : Nat) : List Nat → List Nat
  | [] => [h]
  | k :: l => if ((s.buf h).map (·.done)).getD 0 ≤ ((s.buf k).map (·.done)).getD 0 then h :: k :: l else k :: s.insertDone h l

/-- The input frames the context has not copied yet, oldest first: those of its ring completed after the newest it has, up to the one it
reads (R132). -/
def State.newInputs (s : State) (x : Ctx) : List Nat :=
  match x.inBuf.bind fun h => (s.buf h).map fun b => (h, b.done) with
  | none => []
  | some (h, n) =>
    if n = 0 ∨ x.hist.any (fun e => e.seq == n) then []
    else match (x.hist.head?).map (·.seq) with
      | none => [h]
      | some last => ((s.ringBufs x.inRing).filter fun k => match s.buf k with
          | some b => decide (last < b.done) && decide (b.done ≤ n)
          | none => false).foldr s.insertDone []

/-- The input stage copies input frame `h` into the history, over the oldest one there. -/
def State.copyHist (s : State) (c : Nat) (h : Nat) : State :=
  match s.ctx c with
  | none => s
  | some x => match s.buf h, s.ctxFig x, s.ring x.inRing with
    | some b, some k, some g =>
      let slots := x.work.take k.histBufs
      let old := x.hist.filter fun e => slots.contains e.buf
      match (slots.find? fun w => !old.any fun e => e.buf == w).or (old.getLast?.map (·.buf)) with
      | none => s
      | some w =>
        let s := s.storeLines w g.pix k.fi.w 10 ((s.asReader (some c)).ringPic x.inRing h)
        s.setCtx c { x with hist := ⟨w, b.done, b.doneAt, b.info.ptpNs⟩ :: old.filter fun e => e.buf != w }
    | _, _, _ => s

/-- The estimator's work for the frame that begins: the luma pyramid of the newest picture, the vector fields, and CUT at a scene cut. -/
def State.estimate (s : State) (c : Nat) : State :=
  match s.ctx c with
  | none => s
  | some x => match s.ctxFig x with
    | none => s
    | some k =>
      match k.motionPair ((s.asReader (some c)).ctxList x k) x.frameAt with
      | none => s
      | some (a, b) =>
        let v := vectorField a b
        let half := halfLuma (lumaOf b)
        let s := s.setCtx c { x with pyramid := [half, halfLuma half], fwdVec := v, bwdVec := vectorField b a }
        if isCut (s.cutFrac (c / 16)) v then s.raise (Hist.che (c / 16)) F.CHE_HIST_CUT else s

/-- The cadence counts after one more field (R141): lock after 10 consecutive fields that match, broken by one that does not. -/
def Ctx.cadenceStep (x : Ctx) (m32 m22 : Bool) : Ctx :=
  let a := if m32 then x.cad32 + 1 else 0
  let b := if m22 then x.cad22 + 1 else 0
  { x with cad32 := a, cad22 := b, cadence := if a ≥ 10 then 1 else if b ≥ 10 then 2 else 0 }

/-- A new interlaced input frame's two fields are judged against the sequences of cadence detection; without detection no lock holds. -/
def State.cadence (s : State) (c : Nat) (h : Nat) : State :=
  match s.ctx c with
  | none => s
  | some x => match s.ctxFig x, s.ring x.inRing with
    | some k, some g =>
      if k.deint = 1 ∨ x.par.cadOff then s.setCtx c { x with cad32 := 0, cad22 := 0, cadence := 0 }
      else
        let l := (s.asReader (some c)).framesWith x (some h) g k.fi
        let fs := ((l.flatMap (inFields k x.par)).map fun f => lumaOf f.2.pic).reverse
        let step := fun (x : Ctx) (fs : List (List (List Nat))) => x.cadenceStep (Config.cadenceMatch 0 fs) (Config.cadenceMatch 1 fs)
        s.setCtx c (step (step x (fs.drop 1)) fs)
    | _, _ => s

/-- The input frames since the last output frame are judged for cadence and enter the history, in turn. -/
def State.keepHist (s : State) (c : Nat) : State :=
  match s.ctx c with
  | none => s
  | some x => (s.newInputs x).foldl (fun s h => (s.cadence c h).copyHist c h) s

end Sys2Proof.Machine
end

