-- ==== Sys2Proof/Machine/Crosspoint.lean ====
section
/-! DEFINITION. The crosspoint: the meaning of each descriptor and event of chapter 3 (R58 to R106) and of the freeze detector
(R180, R181). -/
namespace Sys2Proof.Machine

/-- ROUTE_SET: an immediate take (R74, R79). -/
def execRouteSet (h : Hdr) (dst src : Nat) (s : State) : Host.Outcome State Fault Refusal :=
  .next (s.desc (routeRule s 0x02 0 dst (routePay dst src)) h (routeBody h dst src))

/-- TAKE_AT: a leap (R86, R88). -/
def execTakeAt (h : Hdr) (dst src : Nat) (s : State) : Host.Outcome State Fault Refusal :=
  .next (s.desc (routeRule s 0x03 1 dst (routePay dst src)) h (routeBody h dst src))

/-- SALVO (R92 to R95). -/
def execSalvo (h : Hdr) (l : SalvoList) (s : State) : Host.Outcome State Fault Refusal :=
  .next (s.desc (salvoRule s h l) h (salvoBody h l))

/-- SALVO_CANCEL (R96). -/
def execSalvoCancel (h : Hdr) (ring tag : Nat) (s : State) : Host.Outcome State Fault Refusal :=
  .next (s.desc { op := 0x05, rfn := 0, pay := [fld 16 1 ring, fld 18 2 tag], sig := true } h (cancelBody h ring tag))

/-- ROUTE_SYNC (R64 to R68). -/
def execRouteSync (h : Hdr) (c : ChainReq) (s : State) : Host.Outcome State Fault Refusal :=
  .next (s.desc (routeRule s 0x06 2 c.dst (chainPay c)) h (chainBody h c none))

/-- ROUTE_CONVERT. -/
def execRouteConvert (h : Hdr) (c : ChainReq) (v : ConvSet) (s : State) : Host.Outcome State Fault Refusal :=
  .next (s.desc (convertRule s c v) h (chainBody h c (some v)))

/-! ### Takes -/

/-- An immediate take of destination `d` that waits for its switch point. -/
def Take.isImmediate (t : Take) : Bool := t.rfn == 0 && !t.waiting

/-- A leap falls due on `d` at instant `p`. -/
def State.leapAt (s : State) (d p : Nat) : Bool :=
  s.takes.any fun q => q.2.dst == d && q.2.rfn != 0 && !q.2.waiting && s.takePoint q.2 == some p

/-- An immediate take reaches its switch point (R75, R76): a leap due at the same point executes in its place. R76 does not say what
becomes of the immediate take where that leap is itself refused there under R82: it is aborted all the same (DESIGN CHOICE, assumption
183). -/
def State.takeExecute (s : State) (d t : Nat) : State :=
  match s.findTake d Take.isImmediate with
  | none => s
  | some (id, k) =>
    match s.takePoint k with
    | none => s.runIdle id k s.rfnNow t
    | some p =>
      if t < s.dstActual d p then s
      else if s.leapAt d p then s.abortTake id k
      else s.runTake id k p

/-- TAKE_EXECUTE. -/
def execTakeExecute (d : Fin 512) (t : Nat) (s : State) : Host.Outcome State Fault Refusal :=
  .next ((s.at_ t).takeExecute d t)

/-- UNTIMED_CHANGEOVER: a waiting take carries its source over at that source's first switch point at or after S (R81). R81 does not say
what a waiting take does whose new source loses its timing after S: it goes on waiting (DESIGN CHOICE, assumption 165). -/
def execUntimedChangeover (d : Fin 512) (t : Nat) (s : State) : Host.Outcome State Fault Refusal :=
  .next (
    let s := s.at_ t
    match s.findTake d (·.waiting) with
    | none => s
    | some (id, k) => match s.waitPoint k with
      | some p => if p ≤ t then s.runUntimed id k p else s
      | none => s)

/-- FOLLOW_LOOP_RETUNE_END: the lane resumes at the new source's next frame boundary (R81). -/
def execFollowLoopRetuneEnd (n : Fin 72) (t : Nat) (s : State) : Host.Outcome State Fault Refusal :=
  .next (
    let s := s.at_ t
    if (s.tx n).retune.isSome then (s.setTx n { s.tx n with retune := none }).txWake n t else s)

/-- The leap for `rfn` pending on `d`. -/
def State.findLeap (s : State) (d rfn : Nat) : Option (Nat × Take) :=
  s.findTake d fun k => k.rfn == rfn && k.rfn != 0 && !k.waiting

/-- LEAP_ARM: armed no earlier than one frame before its switch point and no later than the setup margin before it (R91). -/
def execLeapArm (d : Fin 512) (rfn : Nat) (t : Nat) (s : State) : Host.Outcome State Fault Refusal :=
  .next (
    let s := s.at_ t
    match s.findLeap d rfn with
    | none => s
    | some (id, k) =>
      let due := match s.dstGrid d with
        | some g =>
          let p := g.actual (s.switchAt d g k.after)
          decide (p ≤ t + g.period) && decide (t + s.marginTicks g ≤ p)
        | none => true
      if due then s.setOp id (.take { k with armed := true }) else s)

/-- LEAP_EXECUTE: leaps at different RFNs on one destination execute in RFN order (R90), and an immediate take due at the same
switch point is aborted (R76). -/
def execLeapExecute (d : Fin 512) (rfn : Nat) (t : Nat) (s : State) : Host.Outcome State Fault Refusal :=
  .next (
    let s := s.at_ t
    match s.findLeap d rfn with
    | none => s
    | some (id, k) => match s.takePoint k with
      | none => s
      | some p =>
        let earlier := s.takes.any fun q => q.2.dst == d.val && q.2.rfn != 0 && decide (q.2.rfn < rfn) && !q.2.waiting
          && (match s.takePoint q.2 with
            | some p' => decide (p' ≤ p)
            | none => false)
        if t < s.dstActual d p ∨ earlier then s
        else
          let s := match s.findTake d Take.isImmediate with
            | some (i, im) => if s.takePoint im = some p then s.abortTake i im else s
            | none => s
          s.runTake id k p)

/-- LEAP_NO_TIMING_EXECUTE: on a destination with no running timing the leap executes at t(RFN), and its executed RFN is its own
(R86). -/
def execLeapNoTimingExecute (d : Fin 512) (rfn : Nat) (t : Nat) (s : State) : Host.Outcome State Fault Refusal :=
  .next (
    let s := s.at_ t
    match s.findLeap d rfn with
    | none => s
    | some (id, k) => if (s.dstGrid d).isNone && decide (k.after ≤ t) then s.runIdle id k rfn t else s)

/-! ### Pattern generators (R105) -/

/-- A generator feeds an IP flow destination. -/
def State.pgFeedsIp (s : State) (p : Nat) : Bool := (s.dstsOf (344 + p)).any fun d => decide (72 ≤ d) && decide (d < 328)

/-- A write of XPT_PG_CFG: a format change on a generator that feeds an IP flow is kept unused and sets PG_ERR. -/
def State.pgWrite (s : State) (p v : Nat) : State :=
  let a := R.XPT_PG_CFG p
  let s := (s.set a F.XPT_PG_CFG_FORMAT (v / 65536)).set a F.XPT_PG_CFG_PATTERN v
  let g := s.pg p
  if s.get a F.XPT_PG_CFG_FORMAT ≠ g.fmt ∧ s.pgFeedsIp p then
    (s.setPg p { g with refused := true }).raise Hist.pgErr F.XPT_STAT_PG_ERR
  else s.setPg p { g with refused := false }

/-- PG_CFG_WRITE. -/
def execPgCfgWrite (p : Fin 8) (v : Nat) (s : State) : Host.Outcome State Fault Refusal := .next (s.byHost (R.XPT_PG_CFG p) fun s => s.pgWrite p v)

/-- PG_FRAME_BOUNDARY: settings take effect (R17), the zone plate moves one step, and capture writers of another format stop. -/
def execPgFrameBoundary (p : Fin 8) (t : Nat) (s : State) : Host.Outcome State Fault Refusal :=
  .next (
    let s := s.at_ t
    let a := R.XPT_PG_CFG p
    let g := s.pg p
    let g' : PgSt := { g with colour := (s.rd (R.XPT_PG_COLOUR p)).toNat, step := g.step + 1 }
    if g.refused then s.setPg p g'
    else
      let f := s.get a F.XPT_PG_CFG_FORMAT
      let s := s.setPg p { g' with fmt := f, pattern := s.get a F.XPT_PG_CFG_PATTERN }
      if f = g.fmt then s else (s.cwFormat (344 + p) f).refreshSrc (344 + p))

/-! ### Pictures the device makes -/

/-- A generator's picture (R105). -/
def State.pgPic (s : State) (p : Nat) : Pic := ((s.fmt? (s.pg p).fmt).map fun f => patternPic (s.pg p).fmt f (s.pg p)).getD []

/-- Layer `l` of a unit as its compositor takes it, in display order: none when it contributes nothing (R159). -/
def State.layerPic (s : State) (u l : Nat) : Option LayerPic := do
  let y := setLayer (s.unit u).active l
  let h ← if y.en then (s.unit u).sel l else none
  let g ← s.ring y.ring
  let f ← s.fmt? g.fmt
  let p := displayOrder f (s.asUnit.ringPic y.ring h)
  pure ⟨y, l == 1, p, toInternal (pix444 g.pix) p⟩

/-- The picture a unit sends: its layers over the background, with the lines that underran (R160, R164); lines sent before a commit are those
of the set it replaced (R171). -/
def State.souPic (s : State) (u : Nat) : Pic :=
  let x := (s.unit u).active
  match s.fmt? x.fmt with
  | none => []
  | some f => (storedOrder f (composePic f.w f.lines x.out444 (p32Px x.bg) ([1, 2, 3].filterMap (s.layerPic u))
      fun r => ((s.unit u).under.find? fun p => p.1 == r).map (·.2))).zipIdx.map fun p => (tabFind (s.unit u).sent p.2).getD p.1

/-! ### Signatures, path proof and freeze -/

/-- A host ingress stream as its other end has set it up with this frame (R59): a new format stops writers of another (R120), and a
stream that is taken down leaves what it feeds without a source (assumption 145). -/
def State.hostFrame (s : State) (h : Nat) (f : SrcFrame) : State :=
  let src := 328 + h
  match f.host, tabFind s.media.hostIn h with
  | none, none => s
  | none, some _ => ({ s with media := { s.media with hostIn := tabDel s.media.hostIn h } } : State).sourceLost src
  | some k, old => match s.fmt? k.fmt with
    | none => s
    | some x =>
      let g := s.measGrid k.fmt x.period x.totL f.phase
      let s := { s with media := { s.media with hostIn := tabPut s.media.hostIn h ⟨k.fmt, k.sampling, k.tenBit, some g⟩ } }
      if old.map (·.fmt) = some k.fmt then s else (s.cwFormat src k.fmt).refreshSrc src

/-- What each further frame of a receive lane shows: its next frame start, payload identifier, level, ATC and audio packets (R33, R36, R73,
R186). -/
def State.rxFrame (s : State) (n : Nat) (f : SrcFrame) : State :=
  let l := s.rx n
  match l.meas with
  | none => s
  | some m =>
    let m := { m with levelB := f.levelB, pid := f.pid, pidFmt := f.pidFmt, atc := f.atc, phase := f.phase }
    let s := { s with aud := { s.aud with lanes := tabSet {} s.aud.lanes n (audioOf m.fmt f.anc) } }
    ((((s.setRx n { l with meas := some m }).groupShow n).rxShow n m).rxPid n f.pid).rxAtc n f.atc

/-- The frame a source shows: a group's links joined (R39), a generator's pattern (R105), a unit's composition with its ATC (R158,
R160); any other source shows what it brings. -/
def State.shownFrame (s : State) (src : Nat) (f : SrcFrame) : SrcFrame :=
  match srcPort src with
  | .sdi n => if (s.rx n).group = 0 then f else { f with pic := joinLinks (s.flag (R.SDI_RX_CTL n) F.SDI_RX_CTL_DIV) f.links }
  | .pg p => { f with pic := s.pgPic p, pid := none, atc := none, anc := [] }
  | .sou u => { f with pic := s.souPic u, pid := none, atc := some (BitVec.ofNat 32 (s.unit u).atc), anc := [] }
  | _ => f

/-- SOURCE_FRAME_SIGNED: a source's frame is complete, and with it its signature (R101). -/
def execSourceFrameSigned (src : Fin 512) (f : SrcFrame) (t : Nat) (s : State) : Host.Outcome State Fault Refusal :=
  .next (
    let s := s.at_ t
    let s := match srcPort src with
      | .host h => s.hostFrame h f
      | .sdi n => s.rxFrame n f
      | .sou u => (souLayers (s.unit u).active).foldl (fun (s : State) (l : SouLayer) => s.catchUp l.ring t) s
      | _ => s
    if (s.srcGrid src).isSome then
      let f := s.shownFrame src f
      ({ s with xpt := { s.xpt with frames := tabPut s.xpt.frames src f } } : State).wr2 (R.XPT_SRC_SIG_LO src) (R.XPT_SRC_SIG_HI src)
        (picSig (s.src444 src) (s.src10 src) f.pic)
    else s)

/-- A unit shows layer 1 alone (R161). -/
def State.layer1Alone (s : State) (u : Nat) : Bool :=
  let a := (s.unit u).active
  a.l1.en && !a.l2.en && !a.l3.en && a.l1.x == 0 && a.l1.y == 0 &&
    (match s.ring a.l1.ring, s.fmt? a.fmt with
      | some g, some f => match s.fmt? g.fmt with
        | some rf => rf.w == f.w && rf.lines == f.lines
        | none => false
      | _, _ => false)

/-- The signature stored with the frame a unit's layer 1 shows. -/
def State.shownSig (s : State) (u : Nat) : Option Nat :=
  ((s.unit u).sel1.bind s.buf).bind fun b => if b.done = 0 then none else some b.info.sig

/-- The signature the frame destination `d` sends must have; none where no check is made (R102). -/
def State.proofSig (s : State) (d : Nat) : Option Nat :=
  match s.route d with
  | some r =>
    if r.kind = 1 then some (s.rd2 (R.XPT_SRC_SIG_LO r.src) (R.XPT_SRC_SIG_HI r.src))
    else if r.kind = 2 then match srcPort r.src with
      | .sou u =>
        let held := match s.chainOf u with
          | some c => (s.cw c.cw).st == 2 || (s.cw c.cw).st == 3 || ((s.ring c.capRing).map (·.black)).getD false
          | none => false
        if s.layer1Alone u && !held then s.shownSig u else none
      | _ => none
    else none
  | none => none

/-- The path proof of one sent frame (R102, R103). -/
def State.pathProof (s : State) (d sig : Nat) (underrun : Bool) : State :=
  let skip := tabGet false s.xpt.skip d
  let s := { s with xpt := { s.xpt with skip := tabSet false s.xpt.skip d false } }
  if !s.flag R.XPT_CTL F.XPT_CTL_PROOF_EN || skip || underrun then s
  else match s.proofSig d with
    | none => s
    | some x =>
      if x = sig then s
      else ((s.raise (Hist.dst d) F.XPT_DST_HIST_PATH_MISMATCH).inc (R.XPT_DST_MISMATCH d)).reportError (0xD0000 + d) 0x0C

/-- The freeze detector at one sent frame (R180; assumption 13). -/
def State.freezeCheck (s : State) (d : Nat) (same : Bool) : State :=
  let a := R.XPT_FRZ_STAT d
  let run := s.get a F.XPT_FRZ_STAT_RUN
  let run' := if run = 0 ∨ !same then 1 else min 65535 (run + 1)
  let s := s.set a F.XPT_FRZ_STAT_RUN run'
  let s := if same then s else s.set a F.XPT_FRZ_STAT_FROZEN 0
  let k := max 2 (s.get (R.XPT_FRZ_CFG d) F.XPT_FRZ_CFG_K)
  let still := match s.route d with
    | some r => s.flag (R.XPT_SRC_CFG r.src) F.XPT_SRC_CFG_STILL_OK
    | none => true
  if s.flag (R.XPT_FRZ_CFG d) F.XPT_FRZ_CFG_EN && decide (k ≤ run') && !still && !s.flag a F.XPT_FRZ_STAT_FROZEN then
    (s.set a F.XPT_FRZ_STAT_FROZEN 1).raise (Hist.frz d) F.XPT_FRZ_STAT_FREEZE
  else s

/-- The ST 352 payload lane `n` sends for source `src` (Table 2-6): its own register's, the source's on a DIRECT route where the source
has one, or one made from the format (assumption 149). -/
def State.txPid (s : State) (n src : Nat) (direct : Bool) (f : SrcFrame) : Word :=
  let mode := s.get (R.SDI_TX_CTL n) F.SDI_TX_CTL_PID_MODE
  let own := Config.pidWord (s.srcFmt src) (s.txLinks n) (s.src444 src)
  if mode = 2 then s.rd (R.SDI_TX_PID n) else if mode = 1 ∧ direct then f.pid.getD own else own

/-- Ancillary packets lane `n` passes from its source: on a DIRECT route all but payload identifiers and the audio groups it writes
itself (R43, R187). -/
def State.txAnc (s : State) (n : Nat) (direct : Bool) (f : SrcFrame) : List AncPkt :=
  let written := (s.embedGroups n).map (·.1)
  if direct then f.anc.filter fun p => !(p.did == 0x41 && p.sdid == 0x01) && !(match audioGroup p.did with
    | some g => written.contains g
    | none => false)
  else []

/-- The lines of source `src`'s frame: its format's, or those its timing shows where the format is unknown (R33). -/
def State.srcLines (s : State) (src : Nat) : Nat :=
  match s.fmt? (s.srcFmt src), srcPort src with
  | some f, _ => f.totL
  | none, .sdi l => ((s.rx l).meas.map (·.lines)).getD 0
  | none, _ => 0

/-- What lane `n` sends in a frame of source `src` beside the picture. -/
def State.txFrame (s : State) (n src : Nat) (direct : Bool) (f : SrcFrame) : TxFrame where
  lines := s.srcLines src
  pid := s.txPid n src direct f
  atc := if s.flag (R.SDI_TX_CTL n) F.SDI_TX_CTL_ATC_INS then f.atc else none
  anc := s.txAnc n direct f
  square := (s.tx n).group == 4 && s.flag (R.SDI_TX_CTL n) F.SDI_TX_CTL_DIV
  passed := direct && (s.embedGroups n).isEmpty
  groups := s.embedGroups n

/-- The RTP timestamp of instant `t` on a clock of `rate` Hz (90 kHz for video: PRESUMED from RTP, assumption 149). -/
def rtpStamp (rate t : Nat) : Nat := t * rate / ticksPerSec % 2 ^ 32

/-- A frame's packets leave (R54); the flow sends again if its source had been lost (R53). -/
def State.sendBurst (s : State) (x : Flow) (bytes t : Nat) : Flow :=
  { s.burst x ((bytes + 1199) / 1200) (rtpStamp 90000 t) with stopped := false }

/-- An ANC transmit flow sends, with each frame of the video transmit flow of its index, one packet with that frame's ancillary packets:
R57 has it send and does not say what feeds it (DESIGN CHOICE, assumption 182). -/
def State.sendAnc (s : State) (k : Nat) (l : List AncPkt) (t : Nat) : State :=
  match tabFind s.media.txFlow (2048 + k) with
  | some x =>
    let y := s.burst x 1 (rtpStamp 90000 t)
    { s with media := { s.media with txFlow := tabPut s.media.txFlow (2048 + k) { y with sent := y.sent.map fun b => { b with anc := l } } } }
  | none => s

/-- A destination sends a frame of its source by its port. -/
def State.sendFrame (s : State) (d : Nat) (r : Route) (t : Nat) : State :=
  let f := (s.srcFrame? r.src).getD ⟨[], [], none, 0, false, none, [], 0, none⟩
  match dstPort d with
  | .sdi n => s.setTx n { s.tx n with sent := some (s.txFrame n r.src (r.kind == 1) f) }
  | .ip k => match tabFind s.media.txFlow k with
    | some x =>
      let bytes := ((s.fmt? x.rcd.fmt).map fun f =>
        f.w * f.lines * (if x.rcd.sampling = 0 then (if x.rcd.tenBit then 10 else 8) else (if x.rcd.tenBit then 15 else 12)) / 4).getD 0
      ({ s with media := { s.media with txFlow := tabPut s.media.txFlow k (s.sendBurst x bytes t) } } : State).sendAnc k f.anc t
    | none => s
  | .host h => match tabFind s.media.hostOut h with
    | some x => { s with media := { s.media with hostOut := tabPut s.media.hostOut h { x with grid := s.srcGrid r.src } } }
    | none => s
  | _ => s

/-- A host egress stream as its other end has set it up (R59; assumption 145). -/
def State.hostDest (s : State) (d : Nat) (host : Option HostFmt) : State :=
  match dstPort d with
  | .host h => { s with media := { s.media with hostOut := match host with
      | some k => tabPut s.media.hostOut h ⟨k.fmt, k.sampling, k.tenBit, none⟩
      | none => tabDel s.media.hostOut h } }
  | _ => s

/-- The frame a destination sends underran (R102, R164). -/
def State.underran (s : State) (r : Route) : Bool :=
  match srcPort r.src with
  | .sou u => !(s.unit u).under.isEmpty
  | _ => false

/-- A picture whose lines listed are black from a sample on, as a transmit tile sends them that has lost a word of the line (R329). -/
def cutPic (s444 rgb : Bool) (p : Pic) (l : List (Nat × Nat)) : Pic :=
  (p.zipIdx).map fun r => match l.find? fun q => q.1 == r.2 with
    | some q =>
      let black := List.replicate r.1.length (blackPx rgb)
      r.1.take q.2 ++ (if s444 then black else pairLine black).drop q.2
    | none => r.1

/-- The frame destination `d` sends, but for what is seen at its exit. -/
def State.sentPic (s : State) (d : Nat) (r : Route) : Pic :=
  cutPic (s.src444 r.src) (s.srcRgb r.src) (((s.srcFrame? r.src).map (·.pic)).getD []) (tabGet [] s.xpt.cut d)

/-- DEST_FRAME_SENT: a destination has sent a frame: the picture its route carries, or the one seen at its exit. -/
def execDestFrameSent (d : Fin 512) (seen : Option Pic) (host : Option HostFmt) (t : Nat) (s : State) :
    Host.Outcome State Fault Refusal :=
  .next (
    let s := (s.at_ t).hostDest d host
    match s.dstGrid d, s.route d with
    | some _, some r =>
      let p := seen.getD (s.sentPic d r)
      let sig := picSig (s.src444 r.src) (s.src10 r.src) p
      let same := sig == s.rd2 (R.XPT_DST_SIG_LO d) (R.XPT_DST_SIG_HI d)
      let s := { s with xpt := { s.xpt with cut := tabDel s.xpt.cut d } }
      let s := (s.sendFrame d r t).wr2 (R.XPT_DST_SIG_LO d) (R.XPT_DST_SIG_HI d) sig
      (s.pathProof d sig (s.underran r)).freezeCheck d same
    | _, _ => s)

end Sys2Proof.Machine
end

