-- ==== Sys2Proof/Machine/FrameStore.lean ====
section
/-! DEFINITION. The frame store: the meaning of the buffer descriptors, of capture writers and of memory errors (R107 to R129). -/
namespace Sys2Proof.Machine

/-! ### Buffer descriptors (Table 4-4) -/

/-- A colour description byte whose reserved bits are clear and whose TRANSFER is not 0b11 (R117). -/
def cdescOk (d : Nat) : Bool := d / 4 % 4 == 0 && d / 16 % 4 != 3

/-- BUF_ALLOC after the checks common to all. -/
def bufAllocBody (h : Hdr) (depth fmt pix cdesc cw : Nat) (s : State) : Adm :=
  let p := if pix = 0 then 1 else pix - 1
  if cw < 168 ∧ (s.cw cw).ring.isSome then denied 6
  else if depth = 0 ∨ depth > 16 then bad 16
  else if (s.fmt? fmt).isNone then bad 17
  else if pix > 4 ∨ (cdesc / 64 % 2 = 1 ∧ !pix444 p) then bad 18
  else if !cdescOk cdesc then bad 19
  else if cw ≥ 168 ∧ cw ≠ 0xFF then bad 20
  else match s.allocRing ⟨depth, fmt, p, cdesc, false⟩ with
    | .error c => short c
    | .ok (r, s') =>
      if s.fstOver then short 6
      else if cw ≠ 0xFF ∧ s.inReset 9 cw then short 7
      else if !s.entriesFree 1 then short 9
      else
        let first := ((s'.ring r).map (·.first)).getD 0
        let s' := if cw = 0xFF then s' else s'.setCw cw { ring := some r }
        .yes (s'.ok h (r + first * 2 ^ 16))

/-- BUF_ALLOC (R117). -/
def execBufAlloc (h : Hdr) (depth fmt pix cdesc cw : Nat) (s : State) : Host.Outcome State Fault Refusal :=
  .next (s.desc { op := 0x30, rfn := 0, pay := [fld 16 1 depth, fld 17 1 fmt, fld 18 1 pix, fld 19 1 cdesc, fld 20 1 cw] } h
    (bufAllocBody h depth fmt pix cdesc cw))

/-- BUF_FREE after the checks common to all (R115, R116). -/
def bufFreeBody (h : Hdr) (ring : Nat) (s : State) : Adm :=
  match s.ring ring with
  | none => bad 16
  | some g =>
    if g.chain then denied 6
    else if s.fst.cw.any fun p => p.2.ring == some ring && (s.route (344 + p.1)).isSome then denied 6
    else if !s.entriesFree 1 then short 9
    else if g.freeing then .yes (s.done h true 0 0)
    else
      let (early, s) := s.freeRing ring
      .yes (s.done h early 0 0)

/-- BUF_FREE. -/
def execBufFree (h : Hdr) (ring : Nat) (s : State) : Host.Outcome State Fault Refusal :=
  .next (s.desc { op := 0x31, rfn := 0, pay := [fld 16 2 ring] } h (bufFreeBody h ring))

/-- Ring and format of a buffer. -/
def State.bufRing (s : State) (hnd : Nat) : Option (Nat × Ring) :=
  ((s.buf hnd).bind (·.ring)).bind fun r => (s.ring r).map fun g => (r, g)

/-- The lowest failing byte of a DMA's geometry for a picture of `lines` lines. -/
def dmaBad (b : BufReq) (lines : Nat) : Option Nat :=
  if b.firstLine ≥ lines then some 18
  else if b.firstLine + b.count > lines then some 20
  else if b.pitch % 4 ≠ 0 then some 24
  else if b.host % 8 ≠ 0 then some 32
  else none

/-- Lines a DMA moves: 0 means to the end. -/
def dmaLines (b : BufReq) (lines : Nat) : Nat := if b.count = 0 then lines - b.firstLine else b.count

/-- Software may not write the buffer (R118): its ring is a capture writer's or a chain's, or a unit or context reads it; a
working-store buffer is its context's. -/
def State.writeDenied (s : State) (hnd : Nat) : Bool :=
  match s.buf hnd, s.bufRing hnd with
  | some b, some (r, g) =>
    g.chain || s.fst.cw.any (fun p => p.2.ring == some r) || b.readers.any fun x => match x with
      | .dma _ => false
      | _ => true
  | _, _ => true

/-- The number by which a descriptor's DMA holds its reference until its completion is posted. -/
def dmaKey (h : Hdr) : Nat := h.ring.val * 65536 + h.tag

/-- The DMA of a BUF_WRITE: the frame the buffer held is gone (R165), its lines are written, and the buffer becomes the newest complete one
(assumption 14). Until the completion is posted a warm reset may abandon it (R119). -/
def State.dmaWrite (s : State) (h : Hdr) (b : BufReq) (r : Nat) (g : Ring) (f : Fmt) (d : List Byte) : State :=
  let n := lineBytes g.pix f.w
  let ks := List.range (dmaLines b f.lines)
  let at_ := fun k => (b.firstLine + k) * pitchOf g.pix f.w
  let old := ks.map fun k => (at_ k, s.bufBytes b.handle (at_ k) n)
  let s := s.beginWrite r b.handle
  let s := ks.foldl (fun s k => s.bufStore b.handle (at_ k) ((d.drop (k * b.pitch)).take n)) s
  let m : Meta := { ptpNs := s.nsNow, rfn := s.rfnNow, fmt := g.fmt, pix := g.pix, inter := f.inter, byHost := true }
  let s := s.completeBuf b.handle m []
  { s with fst := { s.fst with dmas := s.fst.dmas ++ [⟨dmaKey h, b.handle, old⟩] } }

/-- BUF_WRITE after the checks common to all. -/
def bufWriteBody (h : Hdr) (b : BufReq) (data : Option (List Byte)) (s : State) : Adm :=
  match s.buf b.handle with
  | none => bad 16
  | some _ =>
    if s.writeDenied b.handle then denied 6
    else match s.bufRing b.handle with
      | none => denied 6
      | some (r, g) => match s.fmt? g.fmt with
        | none => bad 16
        | some f => match dmaBad b f.lines with
          | some k => bad k
          | none =>
            if !s.entriesFree 1 then short 9
            else match data with
              | none => .yes (s.done h false 7 1)
              | some d => .yes ((s.dmaWrite h b r g f d).ok h 0)

/-- The payload of BUF_WRITE, and of BUF_READ but for byte 22. -/
def bufPay (b : BufReq) : List Field := [fld 16 2 b.handle, fld 18 2 b.firstLine, fld 20 2 b.count, fld 24 4 b.pitch, fld 32 8 b.host]

/-- BUF_WRITE (R118). -/
def execBufWrite (h : Hdr) (b : BufReq) (data : Option (List Byte)) (s : State) : Host.Outcome State Fault Refusal :=
  .next (s.desc { op := 0x32, rfn := 0, pay := bufPay b } h (bufWriteBody h b data))

/-- A metadata record as bytes (Table 4-2). -/
def Meta.bytes (m : Meta) (black : Bool) : List Byte :=
  le 8 m.ptpNs ++ le 6 m.rfn ++ le 1 m.fmt ++ le 1 (m.pix + (if m.inter then 4 else 0)) ++ le 8 m.sig ++ le 4 m.atc
    ++ le 1 ((if black || m.black then 1 else 0) + (if m.byHost then 2 else 0)) ++ List.replicate 35 0

/-- A line of `w` pixels of black (R123, R128). -/
def blackLine (pix cdesc w : Nat) : List Byte := packLine pix 10 (List.replicate w (blackPx (cdesc / 64 % 2 == 1)))

/-- The buffer a BUF_READ reads: the handle named, or the newest complete buffer of the ring named (R117, R118, R115). The manual gives no
refusal for a working-store buffer's handle: it is refused as an invalid handle (DESIGN CHOICE, assumption 190). -/
def State.readTarget (s : State) (n : Nat) (newest : Bool) : Option Nat :=
  let hnd := if newest then s.newest n else some n
  match hnd with
  | none => none
  | some k => match s.buf k with
    | some b => if b.freeing || (s.filler k).isSome || s.ctxFills k || b.ring.isNone then none else some k
    | none => none

/-- BUF_READ after the checks common to all. -/
def bufReadBody (h : Hdr) (b : BufReq) (newest info writeOk : Bool) (s : State) : Adm :=
  match s.readTarget b.handle newest with
  | none => bad 16
  | some k => match s.buf k, s.bufRing k with
    | some bf, some (_, g) => match s.fmt? g.fmt with
      | none => bad 16
      | some f => match dmaBad b f.lines with
        | some e => bad e
        | none =>
          if !s.entriesFree 1 then short 9
          else if !writeOk then .yes (s.done h false 7 2)
          else
            let base := b.host + (if info then 64 else 0)
            let s := if info then s.hostWrite b.host (bf.info.bytes g.black) else s
            let s := (List.range (dmaLines b f.lines)).foldl (fun s i =>
              s.hostWrite (base + i * b.pitch)
                (if g.black then blackLine g.pix g.cdesc f.w
                  else (s.asReader none).readLine k g.pix g.rgb f.w ((b.firstLine + i) * pitchOf g.pix f.w))) s
            .yes (((s.readDone none).addReader k (.dma (dmaKey h))).ok h k)
    | _, _ => bad 16

/-- BUF_READ (R118). -/
def execBufRead (h : Hdr) (b : BufReq) (newest info : Bool) (writeOk : Bool) (s : State) : Host.Outcome State Fault Refusal :=
  .next (s.desc { op := 0x33, rfn := 0, pay := bufPay b ++ [fldBit 22 0 newest, fldBit 22 1 info] } h (bufReadBody h b newest info writeOk))

/-- A reader still holds buffer `hnd`: a layer that shows it, a context that reads it or works in it. -/
def State.stillHolds (s : State) (hnd : Nat) (r : Reader) : Bool :=
  match r with
  | .layer u l => (if l = 1 then (s.unit u).sel1 else if l = 2 then (s.unit u).sel2 else (s.unit u).sel3) == some hnd
  | .ctxIn c => match s.ctx c with
    | some x => x.inBuf == some hnd
    | none => false
  | .ctxStore c => match s.ctx c with
    | some x => x.work.contains hnd
    | none => false
  | .dma _ => false

/-- BUFFER_REF_RELEASE: the last reader of a freeing buffer has finished with it (a DMA whose transfer has ended among them), and
the buffer's granules and handle return to the pool (R115). -/
def execBufferRefRelease (hnd : Nat) (s : State) : Host.Outcome State Fault Refusal :=
  .next (match s.buf hnd with
    | some b =>
      if b.freeing && b.readers.all (fun r => !s.stillHolds hnd r) then (s.setBuf hnd { b with readers := [] }).dropBuf hnd
      else s
    | none => s)

/-! ### Capture writers (R120 to R123) -/

/-- A capture writer begins a frame, whose picture comes line by line: target by R121, or the frame is skipped. -/
def State.cwBegin (s : State) (k : Nat) (coming : Pic) (t : Nat) : State :=
  match (s.cw k).ring with
  | none => s
  | some r => match s.writeTarget r with
    | some (h, lost) =>
      let s := if lost then s.inc (R.FST_CW_OVERWRITE k) else s
      (s.beginWrite r h).setCw k { s.cw k with st := 1, filling := some h, start := t, coming := coming, got := 0 }
    | none => (s.inc (R.FST_CW_SKIP k)).setCw k { s.cw k with st := 1, filling := none, start := t, coming := [], got := 0 }

/-- Capture writer `k` accepts its source's picture now: a ring, a route, timing, and the ring's format (R120). -/
def State.cwReady (s : State) (k : Nat) : Bool :=
  !s.inReset 9 k &&
  match (s.cw k).ring.bind s.ring, s.route (344 + k) with
  | some g, some r => (s.srcGrid r.src).isSome && s.srcFmt r.src == g.fmt
  | _, _ => false

/-- CW_FRAME_START: a writer that holds after a loss or a format change waits for its resume. -/
def execCwFrameStart (k : Fin 168) (coming : Pic) (t : Nat) (s : State) : Host.Outcome State Fault Refusal :=
  .next (
    let s := s.at_ t
    if s.cwReady k && decide ((s.cw k).st ≤ 1) then s.cwBegin k coming t else s)

/-- What capture writer `k` writes of a frame: the picture its route carries, or the one seen at its input, opaque where its source has no
key (R113), with the depth of its samples; the frame's source signature and its ATC. -/
structure CwFrame where
  pic : Pic
  d   : Nat
  sig : Nat
  atc : Nat
deriving DecidableEq, Repr

/-- The frame capture writer `k` has received from source `src`. -/
def State.cwFrame (s : State) (src : Nat) (seen : Option Pic) : CwFrame :=
  let f := s.srcFrame? src
  let p := seen.getD ((f.map (·.pic)).getD [])
  { pic := keyedPic src p
    d := if s.src10 src then 10 else 8
    sig := picSig (s.src444 src) (s.src10 src) ((f.map (·.pic)).getD p)
    atc := match srcPort src with
      | .sdi n => (s.rd (R.SDI_RX_ATC n)).toNat
      | _ => ((f.bind (·.atc)).map BitVec.toNat).getD 0 }

/-- CW_FRAME_COMPLETE: the last active line is written, and with it the metadata record (R112, R121). -/
def execCwFrameComplete (k : Fin 168) (seen : Option Pic) (t : Nat) (s : State) : Host.Outcome State Fault Refusal :=
  .next (
    let s := s.at_ t
    let c := s.cw k
    match c.filling, c.ring.bind s.ring, s.route (344 + k) with
    | some h, some g, some r => match s.fmt? g.fmt with
      | none => s
      | some f =>
        let w := s.cwFrame r.src seen
        let first := c.start + (f.f1 - 1) * f.period / f.totL
        let m : Meta := { ptpNs := first / ticksPerNs, rfn := if s.timeValid then s.rfnAt first else 0, fmt := g.fmt, pix := g.pix,
                          inter := f.inter, sig := w.sig, atc := w.atc }
        let s := s.storeLines h g.pix f.w w.d w.pic
        ((s.completeBuf h m []).setCw k { c with filling := none, coming := [], got := 0 }).inc (R.FST_CW_FRAMES k)
    | _, _, _ => s)

/-- CW_RESUME: the writer resumes under R121 at the first input frame boundary after the signal returns (R123). -/
def execCwResume (k : Fin 168) (coming : Pic) (t : Nat) (s : State) : Host.Outcome State Fault Refusal :=
  .next (
    let s := s.at_ t
    if s.cwReady k && ((s.cw k).st == 2 || (s.cw k).st == 3) then s.cwBegin k coming t else s)

/-! ### Memory errors (R127, R128) -/

/-- One hour in ticks. -/
def hour : Nat := 3600 * ticksPerSec

/-- A corrected word of granule `g` at time `t`; CORR_THRESH corrections within one hour queue an error, and the count starts
afresh. -/
def State.corrected (s : State) (g t : Nat) : State :=
  let s := s.inc R.FST_ECC_CORR
  let l := (tabGet [] s.fst.corr g).filter (fun x => decide (t < x + hour)) ++ [t]
  let full := decide (max 1 (s.get R.FST_CTL F.FST_CTL_CORR_THRESH) ≤ l.length)
  let s := { s with fst := { s.fst with corr := tabSet [] s.fst.corr g (if full then [] else l) } }
  if full then (s.raise Hist.fst F.FST_HIST_ECC_CORR_THRESH).reportError (0x60000 + g) 0x01 else s

/-- ECC_CORRECTED. -/
def execEccCorrected (g : Fin 16384) (t : Nat) (s : State) : Host.Outcome State Fault Refusal := .next ((s.at_ t).corrected g t)

/-- ECC_UNCORRECTABLE: from now on the word at byte `off` of the granule reads black to its readers; it is counted and an error names the
granule (R128). -/
def execEccUncorrectable (g : Fin 16384) (off : Nat) (t : Nat) (s : State) : Host.Outcome State Fault Refusal :=
  .next (
    let s := s.at_ t
    let w := (g.val * granBytes + off % granBytes) / 8
    let s := if s.fst.badW.contains w then s else { s with fst := { s.fst with badW := s.fst.badW ++ [w] } }
    ((s.inc R.FST_ECC_UNCORR).raise Hist.fst F.FST_HIST_ECC_UNCORR).reportError (0x60000 + g.val) 0x02)

/-- PATROL_SCRUB: a pass over every allocated granule corrects words in the granules listed; off with SCRUB_PERIOD = 0. -/
def execPatrolScrub (corrected : List Nat) (t : Nat) (s : State) : Host.Outcome State Fault Refusal :=
  .next (
    let s := s.at_ t
    if s.get R.FST_CTL F.FST_CTL_SCRUB_PERIOD = 0 then s
    else (corrected.filter fun g => s.usedGrans.contains g).foldl (fun s g => s.corrected g t) s)

/-- GRANULE_LIST_SWITCH: the buffer's granule list becomes its replacement, contents copied (R129). -/
def execGranuleListSwitch (hnd : Nat) (s : State) : Host.Outcome State Fault Refusal :=
  .next (match s.buf hnd with
    | some b => match b.moved with
      | some l =>
        let s := ((b.grans.zip l).filter fun p => p.1 != p.2).foldl (fun s p => s.copyGran p.1 p.2) s
        s.setBuf hnd { b with grans := l, moved := none }
      | none => s
    | none => s)

end Sys2Proof.Machine
end

