-- ==== Sys2Proof/Machine/Chameleon.lean ====
section
/-! DEFINITION. Chameleon engines: the meaning of the context descriptors and of slice events (R130 to R148). -/
namespace Sys2Proof.Machine

/-! ### Context descriptors -/

/-- The result of a CTX_ADMIT (Table 9-8): context, output ring, its first handle and the working store's. -/
def ctxResult (s : State) (c r : Nat) : Nat :=
  c + r * 2 ^ 8 + ((s.ring r).map (·.first)).getD 0 * 2 ^ 19
    + (match (s.ctx c).bind (·.work.head?) with
      | some k => k * 2 ^ 32 + 2 ^ 45
      | none => 0)

/-- A context that is built, against free LUT banks and the ledgers. -/
def ctxSettle (h : Hdr) (spec : CtxSpec) (cdesc : Nat) (s : State) (c r : Nat) (b : Build) : Adm :=
  if spec.luts.any fun l => s.bankInUse (c / 16) l.1 then denied 6
  else Build.settle s { b with s := b.s.setDesc r (presetDesc spec.par.preset cdesc spec.outPix) } fun s1 => .yes (s1.ok h (ctxResult s1 c r))

/-- CTX_ADMIT after the checks common to all. -/
def ctxAdmitBody (h : Hdr) (ring engine offset : Nat) (v : ConvSet) (s : State) : Adm :=
  match s.ring ring with
  | none => bad 16
  | some g =>
    if g.depth < 2 ∨ g.freeing then bad 16
    else if engine ≥ 12 ∧ engine ≠ 0xFF then bad 18
    else match s.convSpec g.fmt g.pix g.cdesc v offset with
      | .error e => .no 4 e
      | .ok spec =>
        let p := Build.ctx { s := s, codes := if s.entriesFree 1 then [] else [9] }
          ⟨ring, spec, false, if engine = 0xFF then none else some engine, none⟩
        ctxSettle h spec g.cdesc s p.1 p.2.1 p.2.2

/-- The rule row of CTX_ADMIT. -/
def admitRule (ring engine offset : Nat) (v : ConvSet) : DescRule :=
  { op := 0x20, rfn := 0, pay := [fld 16 2 ring, fld 18 1 engine] ++ convPay offset v true, fault := blockFault v.block, host := blockHost v.block }

/-- CTX_ADMIT (R146). -/
def execCtxAdmit (h : Hdr) (ring engine offset : Nat) (v : ConvSet) (s : State) : Host.Outcome State Fault Refusal :=
  .next (s.desc (admitRule ring engine offset v) h (ctxAdmitBody h ring engine offset v))

/-- Bit `i` of a change mask. -/
def maskBit (m i : Nat) : Bool := m / 2 ^ i % 2 == 1

/-- The parameters a CTX_PARAM makes of those waiting or in force, with its 3D LUTs. -/
def State.paramSpec (s : State) (x : Ctx) (mask offset : Nat) (v : ConvSet) : Except Nat (CtxPar × List (Nat × List Nat)) :=
  match (s.ring x.inRing).bind fun g => (s.fmt? g.fmt).map fun f => (g, f), s.fmt? x.outFmt with
  | some (g, fi), some fo =>
    let p := x.next.getD x.par
    if maskBit mask 0 && !offsetOk fo offset then .error (badRes 24)
    else if maskBit mask 1 && (decide (v.deint > 3) || decide (v.frc > 2)) then .error (badRes 31)
    else if maskBit mask 2 && decide (v.kernel > 4) && v.kernel != 0xFF then .error (badRes 32)
    else if maskBit mask 3 && decide (v.preset > 8) && v.preset != 15 then .error (badRes 33)
    else if maskBit mask 4 && decide (v.bank > 3) && v.bank != 0xFF then .error (badRes 34)
    else
      let p := if maskBit mask 0 then { p with offset := offset } else p
      let p := if maskBit mask 1 then { p with deint := deintOf fi fo v.deint, cadOff := v.cadOff, frc := v.frc } else p
      let p := if maskBit mask 2 then { p with kernel := if v.kernel = 0xFF then 1 else v.kernel } else p
      let p := if maskBit mask 3 then { p with preset := v.preset } else p
      let p := if maskBit mask 4 then { p with bank := if v.bank = 0xFF then none else some v.bank } else p
      if maskBit mask 6 then
        match readBlock fi fo g.pix v.block p with
        | .error e => .error e
        | .ok (p, l) =>
          if scaleOk fi fo p then .ok (p, l) else .error (dataRes (windowOff v.block.items 0 none))
      else .ok (p, [])
  | _, _ => .error (badRes 16)

/-- What context `c` becomes by a change of parameters to `p` (R147): the parameters wait; with the RUN bit of the mask it is to park, to start
or to go on running. -/
def Ctx.change (x : Ctx) (p : CtxPar) (w : List Nat) (run park : Bool) : Ctx :=
  let x := { x with next := some p, work := x.work ++ w }
  if !run then x
  else if park then (if x.st = .running then { x with nextSt := some .parked } else x)
  else if x.st = .parked then { x with st := .running, starting := true }
  else { x with nextSt := none }

/-- Build what a change of context `c` from `x` to parameters `p` needs: an open engine where it adds load, working store, and 3D LUTs. -/
def State.paramBuild (s : State) (c : Nat) (x : Ctx) (p : CtxPar) (luts : List (Nat × List Nat)) (run park : Bool) : Build :=
  let e := x.engine c
  let start := run && !park && x.st == .parked
  let need := ((s.ctxFigWith x p).map ChainFig.store).getD 0
  let after := { x with next := some p, st := if start then .running else x.st, starting := x.starting || start }
  let more := decide (s.ctxLoad4 x < s.ctxLoad4 after)
  let codes := (if s.entriesFree 1 then [] else [9]) ++ (if more && !s.engOpen e then [2] else [])
  match s.allocStore (need - x.work.length) x.inRing with
  | .error code => { s := s, codes := codes ++ [code] }
  | .ok (w, s) =>
    let s := w.foldl (fun s k => s.addReader k (.ctxStore c)) s
    { s := (s.setCtx c (x.change p w run park)).loadLuts e luts, codes := codes }

/-- A change that needs no more than the context has is no new admission: the ledgers do not judge it (R147, R129). -/
def Build.settleMore (s : State) (b : Build) (k : State → Adm) : Adm :=
  let same := (List.range 12).all (fun e => decide (b.s.engLoad4 e ≤ s.engLoad4 e)) && decide (b.s.fstBits ≤ s.fstBits)
    && decide (b.s.hsfBits ≤ s.hsfBits) && b.s.fst.bufs.length == s.fst.bufs.length
  if b.codes.isEmpty && same then k b.s else b.settle s k

/-- CTX_PARAM after the checks common to all (R147). -/
def ctxParamBody (h : Hdr) (c mask offset : Nat) (v : ConvSet) (s : State) : Adm :=
  match s.ctx c with
  | none => bad 16
  | some x => match s.paramSpec x mask offset v with
    | .error e => .no 4 e
    | .ok (p, luts) =>
      if luts.any fun l => s.bankInUse (x.engine c) l.1 then denied 6
      else Build.settleMore s (s.paramBuild c x p luts (maskBit mask 5) v.park) fun s1 => .yes (s1.ok h 0)

/-- The rule row of CTX_PARAM: bytes 28 to 30 are zero, and the block is read when bit 6 of the mask asks for it. -/
def paramRule (c mask offset : Nat) (v : ConvSet) : DescRule :=
  let b := maskBit mask 6
  { op := 0x22, rfn := 0, pay := [fld 16 1 c, fldBits 17 0 7 mask] ++ convPay offset v false, sig := true,
    fault := if b then blockFault v.block else none, host := if b then blockHost v.block else [] }

/-- CTX_PARAM. -/
def execCtxParam (h : Hdr) (c mask offset : Nat) (v : ConvSet) (s : State) : Host.Outcome State Fault Refusal :=
  .next (s.desc (paramRule c mask offset v) h (ctxParamBody h c mask offset v))

/-- CTX_RELEASE after the checks common to all (R68, R148). -/
def ctxReleaseBody (h : Hdr) (unit : Bool) (n : Nat) (s : State) : Adm :=
  if unit then
    match s.chainOf n with
    | none => bad 18
    | some _ =>
      if s.feeds (352 + n) then denied 6
      else if !s.entriesFree 1 then short 9
      else .yes ((s.releaseChain n).ok h 0)
  else match s.ctx n with
    | none => bad 18
    | some x =>
      if x.chain then denied 6
      else if !s.entriesFree 1 then short 9
      else .yes ((s.releaseCtx n).ok h 0)

/-- CTX_RELEASE. -/
def execCtxRelease (h : Hdr) (unit : Bool) (n : Nat) (s : State) : Host.Outcome State Fault Refusal :=
  .next (s.desc { op := 0x21, rfn := 0, pay := [fldBit 16 0 unit, fld 18 2 n], sig := true } h (ctxReleaseBody h unit n))

/-! ### Frame boundaries -/

/-- The engine runs a slice of context `c` now. -/
def State.inSlice (s : State) (c : Nat) : Bool := ((s.eng (c / 16)).run.map (·.1)) == some c

/-- Waiting parameters come into force; working-store buffers no longer needed are freed. -/
def State.applyParam (s : State) (c : Nat) : State :=
  match s.ctx c with
  | none => s
  | some x => match x.next with
    | none => s
    | some p =>
      let k := ((s.ctxFigWith x p).map ChainFig.store).getD 0
      let work := x.work.take k
      let s := s.setCtx c { x with par := p, next := none, work := work, hist := x.hist.filter fun e => work.contains e.buf }
      (x.work.drop k).foldl (fun s h => (s.dropReader h (.ctxStore c)).freeBuf h) s

/-- CTX_PARAM_APPLY: admitted changes apply together at an output frame boundary of a running context; one that is to
park there takes them when it runs again (R147). -/
def execCtxParamApply (c : Fin 192) (t : Nat) (s : State) : Host.Outcome State Fault Refusal :=
  .next (
    let s := s.at_ t
    match s.ctx c with
    | some x => if x.st = .running ∧ x.nextSt ≠ some .parked ∧ !x.active ∧ !s.inSlice c then s.applyParam c else s
    | none => s)

/-- CTX_RUN_START: the context starts at its output frame boundary, with any change that waited for it to run. -/
def execCtxRunStart (c : Fin 192) (t : Nat) (s : State) : Host.Outcome State Fault Refusal :=
  .next (
    let s := s.at_ t
    match s.ctx c with
    | some x =>
      if x.st = .running ∧ x.starting then
        let s := (s.letGo c).setCtx c { x.idle with starting := false }
        let s := s.applyParam c
        match s.ctx c with
        | some x => s.setCtx c { x with frameAt := s.ctxFrameAt c x t }
        | none => s
      else s
    | none => s)

/-- The frame in progress ends: what was written is the ring's newest frame, with the absent lines noted (R137), the input frame enters
the history, and the next frame starts with the grid's next (R136). Its metadata is that of the input frame it was made from
(assumption 16). -/
def State.endFrame (s : State) (c : Nat) : State :=
  let s := (s.keepHist c).readDone (some c)
  match s.ctx c with
  | none => s
  | some x =>
    let per := ((s.fmt? x.outFmt).map Fmt.period).getD 0
    let src := (x.inBuf.bind s.buf).map (·.info)
    let m : Meta := { src.getD {} with
      fmt := x.outFmt, pix := x.outPix, inter := ((s.fmt? x.outFmt).map (·.inter)).getD false, byHost := false }
    let s := s.letGo c
    let s := match x.outBuf with
      | some h => s.completeBuf h m x.absent
      | none => s
    s.setCtx c { x.idle with frameAt := s.ctxFrameAt c x (x.frameAt + per - per / 2), stale := s.inSlice c }

/-- CTX_PARK_STOP: a context told to park has finished its output frame (Table 4-7). -/
def execCtxParkStop (c : Fin 192) (t : Nat) (s : State) : Host.Outcome State Fault Refusal :=
  .next (
    let s := s.at_ t
    match s.ctx c with
    | some x =>
      if x.nextSt = some .parked ∧ !x.active ∧ !s.inSlice c then s.setCtx c { x with st := .parked, nextSt := none, starting := false }
      else s
    | none => s)

/-- CTX_RELEASE_STOP: a released context becomes FREE after its current slice (Table 4-7). -/
def execCtxReleaseStop (c : Fin 192) (t : Nat) (s : State) : Host.Outcome State Fault Refusal :=
  .next (
    let s := s.at_ t
    match s.ctx c with
    | some x => if x.release ∧ !s.inSlice c then s.freeCtx c else s
    | none => s)

/-- CTX_MOVE_COMPLETE: a moving context runs on its new engine (Table 4-7). -/
def execCtxMoveComplete (c : Fin 192) (t : Nat) (s : State) : Host.Outcome State Fault Refusal :=
  .next (
    let s := s.at_ t
    match s.ctx c with
    | some x => match x.moveTo with
      | some c' =>
        if x.st = .moving then
          ((s.letGo c).setCtx c { x.idle with st := .running, frameAt := s.ctxFrameAt c x t }).renumber c c'
        else s
      | none => s
    | none => s)

/-- ORPHAN_READMIT: the lowest-numbered orphan runs again on an engine that can take it, when the ledgers take it. -/
def execOrphanReadmit (t : Nat) (s : State) : Host.Outcome State Fault Refusal :=
  .next (
    let s := s.at_ t
    match s.che.ctx.find? fun p => p.2.st == .orphan with
    | none => s
    | some (c, x) =>
      let load := ((s.ctxFig x).map ChainFig.load4).getD 0
      let own := fun e => e == c / 16
      match s.bestEngine fun e => s.engOpen e && (own e || (s.freeSlot e).isSome) && decide ((load * 115 : Nat) ≤ s.engSpare e) with
      | none => s
      | some e =>
        let c' := if own e then c else ((s.freeSlot e).map (16 * e + ·)).getD c
        let s1 := s.setCtx c { x with st := .running, starting := true }
        let s1 := if c' = c then s1 else s1.renumber c c'
        if s.fitOf s1 = .fits then s1 else s)

/-! ### Slices (R133, R136, R137) -/

/-- The deadline of slice `k` of a frame that starts at `at_`: the first line of the next slice, or the end of the active picture. -/
def Fmt.deadline (f : Fmt) (at_ k : Nat) : Nat :=
  let line := if k + 1 < f.frameSlices then f.sliceLine (k + 1) else (if f.inter then f.f2 + f.lines / 2 else f.f1 + f.lines)
  at_ + (line - 1) * f.period / f.totL

/-- The deadline of a context's next slice. -/
def State.ctxDeadline (s : State) (x : Ctx) : Nat := ((s.fmt? x.outFmt).map fun f => f.deadline x.frameAt x.slice).getD 0

/-- The running slice of context `x` as a requester at `t` (Table 12-1): its slice-time is 32 lines of the output raster. -/
def State.ctxRequester (s : State) (x : Ctx) (t : Nat) : Requester :=
  .slice (s.ctxDeadline x) (((s.fmt? x.outFmt).map fun f => 32 * f.period / f.totL).getD 0) t

/-- A context begins an output frame: it selects its input buffer (R122, R139) and its target under R121, and the estimator works. -/
def State.beginFrame (s : State) (c t : Nat) : State :=
  match s.ctx c with
  | none => s
  | some x =>
    let inb := s.ctxSelect x t
    let tgt := s.writeTarget x.outRing
    let s := match inb with
      | some h => s.addReader h (.ctxIn c)
      | none => s
    let s := match tgt with
      | some (h, _) => s.beginWrite x.outRing h
      | none => s
    (s.setCtx c { x with active := true, slice := 0, absent := [], inBuf := inb, outBuf := tgt.map (·.1) }).estimate c

/-- An engine may run slices: not in reset, not under test, not fenced. -/
def State.engRuns (s : State) (e : Nat) : Bool :=
  !s.inReset 7 e && !s.underTest (0x90000 + e) && !(s.fltUnit (0x90000 + e)).fenced

/-- Frames abandoned while their engine was under test end with their period. -/
def State.endAbandoned (s : State) (e t : Nat) : State :=
  (s.engCtxs e).foldl (fun (s : State) (p : Nat × Ctx) =>
    let per := ((s.fmt? p.2.outFmt).map Fmt.period).getD 0
    if p.2.abandon && p.2.active && decide (p.2.frameAt + per ≤ t) then s.endFrame p.1 else s) s

/-- SLICE_START: the ready slice with the earliest deadline, the lowest context number on a tie (R136). -/
def execSliceStart (e : Fin 12) (t : Nat) (s : State) : Host.Outcome State Fault Refusal :=
  .next (
    let s := (s.at_ t).endAbandoned e t
    if !s.engRuns e || (s.eng e).run.isSome then s
    else
      let cs := (s.engCtxs e).filter fun p =>
        p.2.st == .running && !p.2.starting && !p.2.release && !(p.2.abandon && p.2.active) && s.sliceReady p.2 t
      let best := cs.foldl (fun (b : Option (Nat × Ctx)) p =>
        match b with
        | none => some p
        | some q => if s.ctxDeadline p.2 < s.ctxDeadline q.2 then some p else some q) none
      match best with
      | none => s
      | some (c, x) =>
        let s := if x.active then s else s.beginFrame c t
        s.setEng e { s.eng e with run := some (c, x.slice) })

/-- A slice's lines of the output picture (R131) are written and the context goes on to its next slice, or ends its frame. -/
def State.sliceDone (s : State) (c k : Nat) (x : Ctx) (f : Fmt) : State :=
  let span := f.sliceSpan k
  let lines := (((s.asReader (some c)).ctxPic c x).drop span.1).take (span.2 - span.1)
  let s := match x.outBuf with
    | some h => (lines.zipIdx).foldl (fun (s : State) (p : List Px × Nat) =>
        s.bufStore h ((span.1 + p.2) * pitchOf x.outPix f.w) (packLine x.outPix 16 p.1)) s
    | none => s
  let s := s.setCtx c { x with slice := k + 1 }
  if k + 1 < f.frameSlices then s else s.endFrame c

/-- SLICE_END: the running slice's output lines are written, unless its frame was abandoned meanwhile. -/
def execSliceEnd (e : Fin 12) (t : Nat) (s : State) : Host.Outcome State Fault Refusal :=
  .next (
    let s := s.at_ t
    match (s.eng e).run with
    | none => s
    | some (c, k) =>
      let s := s.setEng e { s.eng e with run := none }
      match s.ctx c with
      | none => s
      | some x =>
        if x.stale || x.abandon then s.setCtx c { x with stale := false }
        else match s.fmt? x.outFmt with
          | some f => if x.active && x.slice == k then (s.catchUp x.inRing t).sliceDone c k x f else s
          | none => s)

/-- Lines `gone` of the buffer context `c` writes will not come: a unit that shows the buffer already underruns on them (R137). -/
def State.linesGone (s : State) (c : Nat) (gone : Nat × Nat) : State :=
  match (s.ctx c).bind (·.outBuf) |>.bind fun h => (s.buf h).map fun b => (h, b) with
  | none => s
  | some (h, b) =>
    let s := s.setBuf h { b with absent := gone :: b.absent }
    (s.sou.unit.flatMap fun p => ([1, 2, 3].filter fun l => p.2.sel l == some h && (setLayer p.2.active l).en).map fun l => (p.1, l)).foldl
      (fun s p => (s.absentLines p.1 p.2).foldl (fun s k => s.unitUnderrun p.1 k 0) s) s

/-- SLICE_DEADLINE_MISS: the miss is counted and the rest of the frame is abandoned; while the engine is under test every slice due
counts (R137). -/
def execSliceDeadlineMiss (c : Fin 192) (t : Nat) (s : State) : Host.Outcome State Fault Refusal :=
  .next (
    let s := s.at_ t
    let e := c.val / 16
    match s.ctx c with
    | none => s
    | some x => match s.fmt? x.outFmt with
      | none => s
      | some f =>
        if x.st ≠ .running ∨ x.starting ∨ t < f.deadline x.frameAt x.slice ∨ (x.abandon ∧ x.active ∧ s.engRuns e) then s
        else
          let s := ((s.inc (R.CHE_CTX_MISS e (c.val % 16))).inc (R.CHE_MISS_CNT e)).raise (Hist.che e) F.CHE_HIST_DEADLINE_MISS
          let gone := ((f.sliceSpan x.slice).1, f.lines)
          let s := if x.active then s else s.beginFrame c t
          let s := match s.ctx c with
            | some x => if x.abandon then s else s.linesGone c gone
            | none => s
          match s.ctx c with
          | none => s
          | some x =>
            let x := { x with absent := if x.abandon then x.absent else gone :: x.absent, abandon := true }
            if s.engRuns e then (s.setCtx c x).endFrame c
            else if x.slice + 1 < f.frameSlices then s.setCtx c { x with slice := x.slice + 1 }
            else (s.setCtx c x).endFrame c)

end Sys2Proof.Machine
end

