-- ==== Sys2Proof/Machine/Fabric.lean ====
section
/-! DEFINITION. The handshake fabric: slack monitors, the voltage controller, handshake time-outs and crossings (chapter 12, R315 to
R337). -/
namespace Sys2Proof.Machine

/-- VSTEP, VMIN and VPROG as clamped (R337). -/
def State.vStep (s : State) : Nat := max 1 (min 20 (s.get R.HSF_VCTL F.HSF_VCTL_VSTEP))
def State.vMin (s : State) : Nat := max 620 (min 850 (s.get R.HSF_VCTL F.HSF_VCTL_VMIN))
def State.vProg (s : State) : Nat := max 620 (min 850 (s.get R.HSF_VCTL F.HSF_VCTL_VPROG))

/-- Events of crossing group `d` that merged set OVERRUN and XOVERRUN and are counted (R333). -/
def State.xMerge (s : State) (d n : Nat) : State :=
  if n = 0 then s
  else (((s.set (R.HSF_XSTAT d) F.HSF_XSTAT_OVERRUN 1).count (R.HSF_XOVR_CNT d) n).raise Hist.hsf F.HSF_HIST_XOVERRUN)

/-- Words dropped at crossing group `d` set DROP and XDROP and are counted; nothing else of the fan-out changes (R335, R336). -/
def State.xDrop (s : State) (d n : Nat) : State :=
  if n = 0 then s
  else (((s.set (R.HSF_XSTAT d) F.HSF_XSTAT_DROP 1).count (R.HSF_XDROP_CNT d) n).raise Hist.hsf F.HSF_HIST_XDROP)

/-- The fused trim of engine `e`, in thousandths of its quadrant monitor's reading (R322); before an option load the ratio of Table 12-2's
figures (DESIGN CHOICE, assumption 201). -/
def State.cheTrim (s : State) (e : Nat) : Nat := ((s.rst.opt.bind fun o => o.cheTrim[e]?)).getD 2000

/-- The monitors' reading: the five ribbon rates, and every engine's rate as its quadrant monitor's reading scaled by its trim (R322); and what
the count crossings bring with it (R333 to R335; assumption 62). -/
def State.readSlack (s : State) (m : Slack) : State :=
  let s := m.cross.foldl (fun (s : State) (c : Cross) => (s.xMerge c.group c.merged).xDrop c.group c.dropped) s
  let s := (List.range 5).foldl (fun (s : State) i => s.set (R.HSF_SLACK i) F.HSF_SLACK_RATE ((m.rates[i]?).getD 0)) s
  (List.range 12).foldl (fun (s : State) e =>
    s.set (R.CHE_RATE e) F.CHE_RATE_MEASURED (min 0xFFFF (s.get (R.HSF_SLACK (e / 3)) F.HSF_SLACK_RATE * s.cheTrim e / 1000))) s

/-- The voltage controller runs: not before firmware's command in P4, not while a warm reset holds the regulator, and not after the
power-fail detector has tripped (R328). -/
def State.vRuns (s : State) : Bool := s.phase == 5 && !s.rst.warmDue && !s.flag R.AXL_STAT F.AXL_STAT_PFAIL

/-- The fabric term of the headroom floor holds with `p` per cent of it (R323). -/
def State.fabricFloor (s : State) (p : Nat) : Bool :=
  decide (s.hsfBits * 115 * p ≤ s.ribbons * 256 * s.minSlack * 10000 * 1001000000)

/-- An engine's term of the floor holds with `p` per cent of it. -/
def State.engFloor (s : State) (p e : Nat) : Bool :=
  decide (s.engLoad4 e * 115 * p ≤ s.get (R.CHE_RATE e) F.CHE_RATE_MEASURED * 10000 * 4004000000)

/-- Every term of the floor holds with `p` per cent of it. -/
def State.floorMet (s : State) (p : Nat) : Bool := s.fabricFloor p && (List.range 12).all (s.engFloor p)

/-- MARGIN_LOW sets in HSF_HIST, and in CHE_HIST of every engine whose load does not fit (R135, R324, R326). -/
def State.marginLow (s : State) (bad : Nat → Bool) : State :=
  (List.range 12).foldl (fun (s : State) e => if bad e then s.raise (Hist.che e) F.CHE_HIST_MARGIN_LOW else s)
    (s.raise Hist.hsf F.HSF_HIST_MARGIN_LOW)

/-- What a reading leads to in adaptive mode: the time the floor has been met with 5 % to spare, and whether the controller raises. -/
def State.afterReading (s : State) : State :=
  let spare := s.floorMet 105
  let s := { s with hsf := { s.hsf with okSince := if spare then s.hsf.okSince.or (some s.now) else none } }
  if !s.byMonitor || decide (2 < s.vState) then s
  else if s.floorMet 100 then (if s.vState = 2 then s.setVState 0 else s)
  else if s.vdd < 850 then s.setVState 2
  else (s.setVState 0).marginLow fun e => !s.engFloor 100 e

/-- SLACK_MEASURE. -/
def execSlackMeasure (m : Slack) (t : Nat) (s : State) : Host.Outcome State Fault Refusal :=
  .next ((s.at_ t).readSlack m).afterReading

/-- One step of the regulator to `v` mV, confirmed, with a reading at the new voltage. -/
def State.vTo (s : State) (v : Nat) (m : Slack) : State := (s.set R.HSF_VSTAT F.HSF_VSTAT_VDD v).readSlack m

/-- `n` ticks have passed since an instant. -/
def State.passed (s : State) (since : Option Nat) (n : Nat) : Bool :=
  match since with
  | some a => decide (a + n ≤ s.now)
  | none => true

/-- LOWER_S in ticks. -/
def State.lowerS (s : State) : Nat := max 1 (min 60 (s.get R.HSF_CTL F.HSF_CTL_LOWER_S)) * ticksPerSec

/-- VOLTAGE_LOWER_STEP: in adaptive mode after LOWER_S with 5 % to spare, once P5 has ended; in fixed mode, and in END, towards the
voltage held (R324, R326, R328). -/
def execVoltageLowerStep (m : Slack) (t : Nat) (s : State) : Host.Outcome State Fault Refusal :=
  .next (
    let s := s.at_ t
    let v := s.vdd
    if !s.vRuns || s.vState == 4 || s.vState == 5 || s.vState == 3 then s
    else if !s.adaptive || s.lifecycle == 4 then
      let goal := if s.adaptive then 620 else s.vProg
      if goal < v ∧ s.passed s.hsf.lowered (1000 * ticksPerUs) then
        let s := s.vTo (max goal (v - s.vStep)) m
        { s with hsf := { s.hsf with lowered := some t } }
      else s
    else
      let ready := match s.hsf.okSince with
        | some a => decide (a + s.lowerS ≤ t)
        | none => false
      if ready && s.passed s.hsf.lowered s.lowerS && s.floorMet 105 && decide (s.vMin < v) && s.isReady then
        let s := s.vTo (max s.vMin (v - s.vStep)) m
        let s := ({ s with hsf := { s.hsf with lowered := some t } }).afterReading
        if s.vState = 2 then s else s.setVState (if s.floorMet 105 ∧ s.vMin < s.vdd then 1 else 0)
      else s)

/-- VOLTAGE_RAISE_STEP: in adaptive mode while a term of the floor fails, in fixed mode towards VPROG; one step every 1 ms. -/
def execVoltageRaiseStep (m : Slack) (t : Nat) (s : State) : Host.Outcome State Fault Refusal :=
  .next (
    let s := s.at_ t
    let v := s.vdd
    if !s.vRuns || s.vState == 4 || s.vState == 5 || s.vState == 3 || !s.passed s.hsf.raised (1000 * ticksPerUs) then s
    else if !s.adaptive then
      if v < s.vProg then
        let s := s.vTo (min s.vProg (v + s.vStep)) m
        { s with hsf := { s.hsf with raised := some t } }
      else s
    else if s.lifecycle ≠ 4 ∧ !s.floorMet 100 ∧ v < 850 then
      let s := s.vTo (min 850 (v + s.vStep)) m
      ({ s with hsf := { s.hsf with raised := some t } }).afterReading
    else s)

/-- ADMIT_RAISE_STEP: a step made for the admission that waits; its descriptor is judged again at the new reading (R25, R325). -/
def execAdmitRaiseStep (m : Slack) (t : Nat) (s : State) : Host.Outcome State Fault Refusal :=
  .next (
    let s := s.at_ t
    if s.vRuns ∧ s.vState = 3 ∧ s.adaptive ∧ s.hsf.raising.isSome ∧ s.vdd < 850 then s.vTo (min 850 (s.vdd + s.vStep)) m else s)

/-- A load does not fit its LIMIT. -/
def State.overLimit (s : State) : Bool := !s.hsfFits || (List.range 12).any fun e => !s.engFits e

/-- HSF_VCTL stores its fields, clamped to their ranges. -/
def State.vctlStore (s : State) (v : Nat) : State :=
  let a := R.HSF_VCTL
  (((s.set a F.HSF_VCTL_MODE (v / 2 ^ 31)).set a F.HSF_VCTL_VSTEP (max 1 (min 20 (v / 2 ^ 20 % 32)))).set a F.HSF_VCTL_VMIN
    (max 620 (min 850 (v / 2 ^ 10 % 1024)))).set a F.HSF_VCTL_VPROG (max 620 (min 850 (v % 1024)))

/-- A change of voltage mode starts the count of the spared floor anew. -/
def State.modeFresh (s : State) (was : Bool) : State :=
  { s with hsf := { s.hsf with okSince := if was == s.adaptive then s.hsf.okSince else none } }

/-- What the controller was about is given up; in fixed mode a raise for an admission too, whose request is judged again at the limits of
the programmed voltage (R24, R326). -/
def State.stepStop (s : State) : State :=
  if s.vState = 1 ∨ s.vState = 2 ∨ (s.vState = 3 ∧ !s.adaptive) then s.setVState 0 else s

/-- Engines whose admitted load passes their limit show it (R25). -/
def State.limitCheck (s : State) : State := if s.overLimit then s.marginLow fun e => !s.engFits e else s

/-- A write of HSF_VCTL (R326, R337). -/
def State.vctlWrite (s : State) (v : Nat) : State := ((s.vctlStore v).modeFresh s.adaptive).stepStop.limitCheck

/-- VCTL_WRITE. -/
def execVctlWrite (v : Nat) (s : State) : Host.Outcome State Fault Refusal := .next (s.byHost R.HSF_VCTL fun s => (s.vctlWrite v).afterWrite s)

/-- The voltage the controller commanded last, from the state it was in. -/
def State.commanded (s : State) : Nat :=
  if s.vState = 1 then max s.vMin (s.vdd - s.vStep)
  else if s.vState = 2 ∨ s.vState = 3 then min 850 (s.vdd + s.vStep)
  else if s.adaptive then (if s.lifecycle = 4 then max 620 (s.vdd - s.vStep) else s.vdd)
  else if s.vdd < s.vProg then min s.vProg (s.vdd + s.vStep)
  else max s.vProg (s.vdd - s.vStep)

/-- An AVSBus fault shows, and an error names the regulator (R327). -/
def State.avsErr (s : State) : State := (s.raise Hist.hsf F.HSF_HIST_AVS_ERR).reportError 0xE0000 0x0A

/-- AVS_FAULT (R327); while the fault lasts the only command is the retry, and its failure is a fault again. -/
def execAvsFault (s : State) : Host.Outcome State Fault Refusal :=
  .next (
    if s.vState = 5 then s
    else if s.vState = 4 then s.avsErr
    else (({ s with hsf := { s.hsf with failed := s.commanded } }).setVState 4).avsErr)

/-- AVS_RETRY: a retry that succeeds ends the fault with the commanded voltage confirmed; one without acknowledge is a fault itself. -/
def execAvsRetry (ok : Bool) (s : State) : Host.Outcome State Fault Refusal :=
  .next (
    if s.vState ≠ 4 ∨ !s.vRuns then s
    else if ok then
      ((s.set R.HSF_VSTAT F.HSF_VSTAT_VDD s.hsf.failed).setVState (if s.lifecycle = 4 then 6 else if s.adaptive && s.hsf.raising.isSome then 3 else 0))
    else s.avsErr)

/-- HANDSHAKE_TIMEOUT: the ribbon's word is discarded, with what that does to its traffic, and an error names the ribbon (R329). -/
def execHandshakeTimeout (b : Fin 96) (w : LostWord) (t : Nat) (s : State) : Host.Outcome State Fault Refusal :=
  .next (
    let s := (s.at_ t).wordLost w
    ((s.inc R.HSF_TO_CNT).raise Hist.hsf F.HSF_HIST_HS_TIMEOUT).reportError (0x80000 + b) 0x05)

/-- CROSSING_RELEASE: the two sides of a group exchange a token and its crossings run; words in flight when one side went into reset were
discarded, `dropped` of them (R336). -/
def execCrossingRelease (d : Fin 250) (dropped : Nat) (s : State) : Host.Outcome State Fault Refusal :=
  .next (if s.get (R.HSF_XSTAT d) F.HSF_XSTAT_STATE = 3 then (s.set (R.HSF_XSTAT d) F.HSF_XSTAT_STATE 0).xDrop d dropped else s)

end Sys2Proof.Machine
end

