-- ==== Sys2Proof/Machine/Faults.lean ====
section
/-! DEFINITION. Faults: detected errors, targeted self-tests, acknowledgement and unfencing (chapter 18, R428 to R440). -/
namespace Sys2Proof.Machine

/-- ERROR_DETECTED: unit IDs have a type of 1 to 15 (Table 18-1). -/
def execErrorDetected (u src : Nat) (t : Nat) (s : State) : Host.Outcome State Fault Refusal :=
  .next (if 65536 ≤ u ∧ u < 1048576 then (s.at_ t).reportError u (src % 256) else s)

/-- The unit whose test is due: the oldest PENDING record, else the lowest unit that is owed one. -/
def State.nextTest (s : State) : Option (FltRec × State) :=
  match s.oldestRec 0 with
  | some r => some (r, s)
  | none => match s.flt.units.find? fun p => p.2.retest with
    | none => none
    | some (u, x) =>
      if 64 ≤ s.flt.recs.length then none
      else
        let s := s.makeRec u x.src 1
        (s.recOf u 1).map fun r => (r, s)

/-- SELF_TEST_START: one test at a time, once READY has set (R433, R437). -/
def execSelfTestStart (t : Nat) (s : State) : Host.Outcome State Fault Refusal :=
  .next (
    let s := s.at_ t
    if s.testing.isSome || !s.isReady then s
    else match s.nextTest with
      | none => s
      | some (r, s) => (({ s with flt := { s.flt with since := t } }).setRec { r with st := 1 }).testBegin r.unit |>.sdiInputs)

/-- SELF_TEST_END. -/
def execSelfTestEnd (r : TestRes) (t : Nat) (s : State) : Host.Outcome State Fault Refusal :=
  .next (
    let s := s.at_ t
    match s.testing with
    | none => s
    | some c => match r with
      | .pass => s.testPass c
      | .fail rows => s.testFail c rows
      | .abandoned => s.testAbandon c true)

/-- FLT_ACK_WRITE: a classified record whose SEQ matches is freed (R432). -/
def State.fltAckWrite (s : State) (v : Nat) : State :=
    let hit := fun (r : FltRec) => r.slot == v % 64 && r.seq == v / 65536 % 65536 && decide (2 ≤ r.st)
    { s with flt := { s.flt with recs := s.flt.recs.filter fun r => !hit r } }

/-- `fltAckWrite` as a write of the host. -/
def execFltAckWrite (v : Nat) (s : State) : Host.Outcome State Fault Refusal := .next (s.byHost R.FLT_ACK fun s => s.fltAckWrite v)

/-- A fenced lane, engine or SRAM-fenced block may be retested (R436). -/
def State.mayUnfence (s : State) (u : Nat) : Bool :=
  let ty := u / 65536
  (s.fltUnit u).fenced && ((decide (2 ≤ ty) && decide (ty ≤ 5)) || ty == 9 || (ty == 1 && decide (u % 65536 / 4096 ≤ 9)))

/-- FLT_UNFENCE_WRITE: the unit is queued for a test with a source the manual does not name (assumption 2). -/
def State.fltUnfenceWrite (s : State) (v : Nat) (t : Nat) : State :=
    let s := s.at_ t
    let u := v % 2 ^ 20
    if v / 2 ^ 31 % 2 = 0 then s
    else if s.mayUnfence u && (s.recOf u 0).isNone && (s.recOf u 1).isNone then
      let (n, s) := s.draw
      s.queueRec u (Config.fresh 8 n).toNat
    else s.raise Hist.flt F.FLT_HIST_UNFENCE_ERR

/-- `fltUnfenceWrite` as a write of the host. -/
def execFltUnfenceWrite (v : Nat) (t : Nat) (s : State) : Host.Outcome State Fault Refusal := .next (s.byHost R.FLT_UNFENCE fun s => s.fltUnfenceWrite v t)

end Sys2Proof.Machine
end

