-- ==== Sys2Proof/Machine/Host.lean ====
section
/-! DEFINITION. The host rings and the descriptors that act on no media unit: link events, ring control, fetch and completion, queries
(chapter 9, R257 to R287). -/
namespace Sys2Proof.Machine

/-! ### The PCI Express function (R257, R364) -/

/-- A dword of the function's configuration space header: vendor and device ID, command and status (Memory Space Enable, capabilities
list), revision and class code; none for a dword whose value the manual does not give. -/
def State.pciHeader (s : State) (i : Nat) : Option Word :=
  match i with
  | 0 => some 0x72721F2A
  | 1 => some (0x00100000#32 ||| (if s.host.pci.mse then 2 else 0))
  | 2 => some 0x048000B0
  | _ => none

/-- A configuration request is answered from the end of P4 of a cold reset on, or once that has failed to boot; before, and while PERST_N is
low, there is no answer but Request Retry Status (R364, R367). -/
def State.pciAnswers (s : State) : Bool :=
  s.host.linkUp && (!s.rst.cold || s.flag R.RST_STAT F.RST_STAT_BOOT_FAIL)

/-! ### Link events -/

/-- HOST_LINK_RESET: Function Level Reset, hot reset, link down and D3hot act on the rings in the same way (R260); all but the last
release a hung host BAR0 master (R351). What the host then does in configuration space to reach the function again it does at once (DESIGN
CHOICE, assumption 202). -/
def execHostLinkReset (e : LinkEvent) (s : State) : Host.Outcome State Fault Refusal :=
  .next (
    let s := s.dropHost
    let s := { s with host := { s.host with pci := { s.host.pci with d3 := e == .d3hot } } }
    if e ≠ .d3hot ∧ s.hung 6 then s.resetMaster 6 else s)

/-- PERST_ASSERT: a conventional reset of the PCIe island; the data plane runs on (R260, R364). Masters 5 and 6 and target port 13 are the
island's (R344), and the port stays in reset while PERST_N is low (R353; DEDUCED, assumption 173), as the island's side of crossing group 176
does (R336). -/
def execPerstAssert (s : State) : Host.Outcome State Fault Refusal :=
  .next (
    let s := (((s.dropHost).resetMaster 5).resetMaster 6).portReset 13 true
    let s := { s with host := { s.host with perst := true, linkUp := false, pci := {} } }
    if s.rst.cold then s else s.set (R.HSF_XSTAT 176) F.HSF_XSTAT_STATE 1)

/-! ### Ring control (R261, R262, Table 9-3) -/

/-- EN written 1. -/
def State.ringEnable (s : State) (n : Fin 64) : State :=
    let z := R.RNG_SIZE n
    let ok := fun (f : Bits) => decide (4 ≤ s.get z f ∧ s.get z f ≤ 16)
    if s.persona = 1 ∨ s.lifecycle = 4 then s.cfgErr n
    else if s.ringSt n ≠ 0 then s.set (R.RNG_CTL n) F.RNG_CTL_EN 1
    else if ok F.RNG_SIZE_SQ_LOG2 && ok F.RNG_SIZE_CQ_LOG2 then (s.set (R.RNG_CTL n) F.RNG_CTL_EN 1).startRing n
    else s.cfgErr n

/-- RING_ENABLE: EN written 1, which END too answers with CFG_ERR. -/
def execRingEnable (n : Fin 64) (s : State) : Host.Outcome State Fault Refusal :=
  .next (if s.hostUp then s.ringEnable n else s)

/-- RING_DISABLE: EN written 0. -/
def State.ringDisable (s : State) (n : Fin 64) : State :=
    let s := s.set (R.RNG_CTL n) F.RNG_CTL_EN 0
    if s.ringSt n = 1 ∨ s.ringSt n = 2 then s.setRingSt n 3 else s

/-- `ringDisable` as a write of the host. -/
def execRingDisable (n : Fin 64) (s : State) : Host.Outcome State Fault Refusal := .next (s.byHost (R.RNG_CTL n) fun s => s.ringDisable n)

/-- RING_ABANDON: ABANDON written 1 in DRAINING or STOPPED. -/
def State.ringAbandon (s : State) (n : Fin 64) : State :=
  if 2 ≤ s.ringSt n then s.abandon n else s

/-- `ringAbandon` as a write of the host. -/
def execRingAbandon (n : Fin 64) (s : State) : Host.Outcome State Fault Refusal := .next (s.byHost (R.RNG_CTL n) fun s => s.ringAbandon n)

/-- RING_DRAINED: the outstanding count has reached 0. -/
def execRingDrained (n : Fin 64) (s : State) : Host.Outcome State Fault Refusal :=
  .next (if s.ringSt n = 3 ∧ s.outstanding n = 0 then s.setRingSt n 0 else s)

/-- CROAK: the new SQ tail (R263). -/
def execCroak (n : Fin 64) (v : Nat) (s : State) : Host.Outcome State Fault Refusal := .next (s.ifUp fun s => s.croak n v)

/-- CQ_HEAD_WRITE. -/
def execCqHeadWrite (n : Fin 64) (v : Nat) (s : State) : Host.Outcome State Fault Refusal := .next (s.ifUp fun s => s.cqHead n v)

/-! ### Fetch and completion (R263 to R265, R283) -/

/-- DESCRIPTOR_FETCH: the slot at SQ_HEAD of the ring whose turn it is is fetched while its completion ring has room; an unknown opcode is
refused (R270). -/
def execDescriptorFetch (n : Fin 64) (r : FetchRes) (t : Nat) (s : State) : Host.Outcome State Fault Refusal :=
  .next (
    let s := s.at_ t
    let x := s.rst_ n
    let hd := s.get (R.RNG_STAT n) F.RNG_STAT_SQ_HEAD
    if s.ringSt n ≠ 1 ∨ hd = x.sqTail then s
    else if !s.cqRoom n then s.raise (Hist.rng n) F.RNG_HIST_CQ_STALL
    else if s.nextFetch ≠ some n.val then s
    else
      let s := s.takeTurn n
      let s' := s.set (R.RNG_STAT n) F.RNG_STAT_SQ_HEAD ((hd + 1) % s.sqSize n)
      match r with
      | .err => (s.raise (Hist.rng n) F.RNG_HIST_FETCH_ERR).stopRing n
      | .slot raw =>
        let f : Fetched := { raw := raw }
        if opcodes.contains (bytesAt raw 0 1) then (s'.setRst n { x with fetched := x.fetched ++ [f] }).domEnter n
        else (s'.pushCpl ⟨n, f.tag, 4, false, false, false, none, badRes 0, bitAt raw 1 4, 0, none, false⟩).domEnter n)

/-- COMPLETION_POST. -/
def execCompletionPost (n : Fin 64) (ok : Bool) (t : Nat) (s : State) : Host.Outcome State Fault Refusal :=
  .next (
    let s := s.at_ t
    if s.ringSt n = 0 then s
    else match s.nextCpl n with
      | none => s
      | some c => if ok then s.postCpl n c else (s.loseCpl n c).domEnter n)

/-- COAL_TIMER_EXPIRY: COAL_US after arming the vector is raised, which disarms the interrupt (R265). -/
def execCoalTimerExpiry (n : Fin 64) (t : Nat) (s : State) : Host.Outcome State Fault Refusal :=
  .next (
    let s := s.at_ t
    let x := s.rst_ n
    let c := R.RNG_CQ_VEC n
    if x.armed && decide (x.armedAt + s.get c F.RNG_CQ_VEC_COAL_US * ticksPerUs ≤ t) then
      (s.setRst n { x with armed := false, since := 0 }).raiseVec (s.get c F.RNG_CQ_VEC_VEC)
    else s)

/-! ### Queries (R281) -/

/-- The rule row of NOP, QUERY_STATUS and STATS. -/
def queryRule (op : Nat) (pay : List Field) : DescRule :=
  { op := op, rfn := 0, pay := pay, early := true, noEpoch := true, standby := true }

/-- The payload of QUERY_STATUS and STATS. -/
def queryPay (q : QueryReq) : List Field := [fld 16 1 q.cls, fld 18 2 q.first, fld 20 2 q.count, fld 24 8 q.host]

/-- NOP. -/
def execNop (h : Hdr) (s : State) : Host.Outcome State Fault Refusal :=
  .next (s.desc (queryRule 0x01 []) h fun s => if s.entriesFree 1 then .yes (s.ok h 0) else short 9)

/-- Flow kind and direction of a query class: receive for true. -/
def flowClass (c : Nat) : Nat × Bool := ((c - 1) % 3, decide (c ≤ 3))

/-- Indices of a query class. -/
def queryRange (c : Nat) : Nat :=
  if c = 0 then 1 else if c = 7 then 512 else if c = 8 then 160 else if (flowClass c).1 = 1 then 1024 else 256

/-- The flow a class and an index name, when it is enabled. -/
def State.flowAt (s : State) (c i : Nat) : Option Flow :=
  let (k, rx) := flowClass c
  tabFind (if rx then s.media.rxFlow else s.media.txFlow) (1024 * k + i)

/-- A status byte made of bits. -/
def bits (l : List Bool) : Nat := l.foldr (fun b n => (if b then 1 else 0) + 2 * n) 0

/-- Record of the device: the query itself holds an in-flight entry as it is read. -/
def State.deviceRec (s : State) : List Byte :=
  le 4 s.epoch ++ le 1 s.role ++ le 1 s.persona ++ le 1 s.lifecycle
    ++ le 1 (bits [s.signReq, s.timeValid, s.isReady, s.flag R.MATE_STAT F.MATE_STAT_ISOLATED, s.adaptive])
    ++ le 6 s.rfnNow ++ le 2 (s.inflight + 1)

/-- Record of a flow. -/
def State.flowStatRec (s : State) (c i : Nat) : List Byte :=
  match s.flowAt c i with
  | some f => le 2 i ++ le 1 (bits [true, f.lost, f.lostA, f.lostB]) ++ le 1 (f.rcd.port + 4 * f.rcd.sub) ++ List.replicate 12 0
  | none => le 2 i ++ List.replicate 14 0

/-- Record of a destination's pending leaps, one that waits for its untimed changeover included (R76). -/
def State.leapRec (s : State) (d : Nat) : List Byte :=
  let l := s.takes.filter fun p => p.2.dst == d && p.2.rfn != 0
  le 2 d ++ le 2 l.length ++ le 6 (((l.map (·.2.rfn)).min?).getD 0) ++ List.replicate 6 0

/-- Record of a unit's chain. -/
def State.chainRec (s : State) (u : Nat) : List Byte :=
  match s.chainOf u with
  | none => [0xFF, 0xFF, 0xFF, 0, 0xFF, 0xFF, 0xFF, 0xFF] ++ List.replicate 8 0
  | some c => le 1 c.cw ++ le 1 (c.ctx.getD 0xFF) ++ le 1 u ++ le 1 (bits [true, c.persist]) ++ le 2 c.capRing
      ++ le 2 (c.outRing.getD 0xFFFF) ++ List.replicate 8 0

/-- One QUERY_STATUS record. -/
def State.statusRec (s : State) (c i : Nat) : List Byte :=
  if c = 0 then s.deviceRec else if c = 7 then s.leapRec i else if c = 8 then s.chainRec i else s.flowStatRec c i

/-- The counters of a flow as they stand. -/
def Flow.cnt (f : Flow) : FlowCnt := ⟨f.packets, f.missA, f.missB, f.unrec, f.late⟩

/-- One STATS record: the counters outlive the flow. -/
def State.statsRec (s : State) (c i : Nat) : List Byte :=
  let (k, rx) := flowClass c
  let n := match s.flowAt c i with
    | some f => f.cnt
    | none => tabGet {} (if rx then s.media.rxCnt else s.media.txCnt) (1024 * k + i)
  le 2 i ++ List.replicate 6 0 ++ le 8 n.packets ++ le 4 n.missA ++ le 4 n.missB ++ le 4 n.unrec ++ le 4 n.late

/-- A query after the checks common to all: `count` records of the class are written. -/
def queryBody (h : Hdr) (q : QueryReq) (lo hi : Nat) (rcd : State → Nat → Nat → List Byte) (s : State) : Adm :=
  if q.cls < lo ∨ hi < q.cls then bad 16
  else if queryRange q.cls ≤ q.first then bad 18
  else if queryRange q.cls < q.first + q.count then bad 20
  else if q.host % 8 ≠ 0 then bad 24
  else if !s.entriesFree 1 then short 9
  else
    let l := ((List.range q.count).map fun i => rcd s q.cls (q.first + i)).flatten
    if !q.writeOk && q.count != 0 then .yes (s.done h false 7 2)
    else .yes ((s.hostWrite q.host l).ok h l.length)

/-- QUERY_STATUS. -/
def execQueryStatus (h : Hdr) (q : QueryReq) (s : State) : Host.Outcome State Fault Refusal :=
  .next (s.desc (queryRule 0x90 (queryPay q)) h (queryBody h q 0 8 State.statusRec))

/-- STATS. -/
def execStats (h : Hdr) (q : QueryReq) (s : State) : Host.Outcome State Fault Refusal :=
  .next (s.desc (queryRule 0x91 (queryPay q)) h (queryBody h q 1 6 State.statsRec))

/-! ### Flow set-up (R50 to R54, R188, R279) -/

/-- A record's destination is a unicast address. -/
def isUnicast (r : FlowRec) : Bool := !isMulticast r.ipv6 r.dstAddr

/-- The lowest record offset at which a value lies outside its range (Table 2-8, R188). -/
def State.flowBad (s : State) (rx : Bool) (kind : Nat) (r : FlowRec) : Option Nat :=
  let c1 := r.sub != 0 && (List.range 4).any fun q => flowOnPort q r && !s.flag (R.QE_STAT q) F.QE_STAT_MODE
  let c2 := decide (r.pt < 96 ∨ 127 < r.pt)
  let c3 := decide (63 < r.dscp)
  let c4 := decide (4094 < r.vlan)
  let c6 := kind == 0 && (r.sampling == 3 || (!rx && r.sender == 3))
  let c7 := kind == 0 && (s.fmt? r.fmt).isNone
  let c8 := kind == 0 && r.tcs == 3
  let c9 := kind == 1 && (r.channels == 0 || decide (64 < r.channels) || (!r.us125 && decide (8 < r.channels))
    || (r.st31 && r.channels % 2 != 0))
  let c12 := rx && r.prot && decide (50 < r.pathDiff)
  let c20 := !rx && isUnicast r && r.mac % 2 == 1
  ([(c1, 1), (c2, 2), (c3, 3), (c4, 4), (c6, 6), (c7, 7), (c8, 8), (c9, 9), (c12, 12), (c20, 20)].find? (·.1)).map (·.2)

/-- The record of a FLOW_RX_CFG or FLOW_TX_CFG that enables a flow could not be read. -/
def flowFault (r : FlowReq) : Option (Nat × Nat) := if r.en && r.addr % 8 == 0 && r.data.isNone then some (7, 1) else none

/-- The wire rate of one direction of port `q` after a flow is added lies within its admission limit (R51). -/
def State.wireFits (s : State) (rx : Bool) (kind : Nat) (r : FlowRec) (q : Nat) : Bool :=
  let l := (if rx then s.media.rxFlow else s.media.txFlow).filter fun p => flowOnPort q p.2.rcd && p.2.rcd.sub == r.sub
  let used := (l.map fun p => s.flowBits (p.1 / 1024) p.2.rcd).sum
  let lim := if s.flag (R.QE_STAT q) F.QE_STAT_MODE then 97 else 388
  decide (used + s.flowBits kind r ≤ lim * 1000000000 * 1001)

/-- Every port a flow uses takes its wire rate. -/
def State.wireOk (s : State) (rx : Bool) (kind : Nat) (r : FlowRec) : Bool :=
  (List.range 4).all fun q => !flowOnPort q r || s.wireFits rx kind r q

/-- The ports whose link is up on which a flow's group is joined or left (R52). -/
def State.groupPorts (s : State) (r : FlowRec) : List Nat :=
  if isUnicast r then []
  else (List.range 4).filter fun q => flowOnPort q r && s.subOn q r.sub && s.flag (R.QE_STAT q) (bit r.sub)

/-- Granules of a protected flow's path buffer (R54; in whole granules, assumption 18). -/
def State.pathNeed (s : State) (kind : Nat) (r : FlowRec) : Nat := (s.pathBytes kind r + granBytes - 1) / granBytes

/-- A flow is enabled: its counters go on from where they stood, its group is joined, and a receive flow has its path buffer. -/
def State.openFlow (s : State) (rx : Bool) (key : Nat) (r : FlowRec) (path : List Nat) : State :=
  let n := tabGet {} (if rx then s.media.rxCnt else s.media.txCnt) key
  let f : Flow := { rcd := r, packets := n.packets, missA := n.missA, missB := n.missB, unrec := n.unrec, late := n.late }
  if rx then
    let net := (s.groupPorts r).map fun q => NetMsg.join q r.sub r.dstAddr (if r.srcFilter then r.srcAddr else 0) r.ipv6
    { s with
      media := { s.media with rxFlow := tabPut s.media.rxFlow key f, net := s.media.net ++ net }
      fst := { s.fst with pathGr := tabSet [] s.fst.pathGr key path } }
  else { s with media := { s.media with txFlow := tabPut s.media.txFlow key f } }

/-- A flow is disabled: its counters stay, its group is left, and what a receive flow feeds loses its source. Where another enabled flow
of the port still names the group the leave is reported all the same (DESIGN CHOICE, assumption 167): R52 does not say. -/
def State.closeFlow (s : State) (rx : Bool) (key : Nat) (f : Flow) : State :=
  if rx then
    let r := f.rcd
    let net := (s.groupPorts r).map fun q => NetMsg.leave q r.sub r.dstAddr (if r.srcFilter then r.srcAddr else 0) r.ipv6
    let s := { s with media := { s.media with
      rxFlow := tabPut s.media.rxFlow key { f with lost := true, grid := none }, net := s.media.net ++ net } }
    let s := if key < 1024 then s.sourceLost (72 + key) else if key < 2048 then s.clkLost (128 + (key - 1024)) else s
    { s with
      media := { s.media with rxFlow := tabDel s.media.rxFlow key, rxCnt := tabSet {} s.media.rxCnt key f.cnt }
      fst := { s.fst with pathGr := tabDel s.fst.pathGr key } }
  else
    { s with media := { s.media with txFlow := tabDel s.media.txFlow key, txCnt := tabSet {} s.media.txCnt key f.cnt } }

/-- FLOW_RX_CFG and FLOW_TX_CFG after the checks common to all. -/
def flowBody (rx : Bool) (h : Hdr) (r : FlowReq) (s : State) : Adm :=
  let key := 1024 * r.kind + r.index
  let cur := tabFind (if rx then s.media.rxFlow else s.media.txFlow) key
  if 2 < r.kind then bad 17
  else if (if r.kind = 1 then 1024 else 256) ≤ r.index then bad 18
  else if !r.en then
    if !s.entriesFree 1 then short 9
    else match cur with
      | some f => .yes ((s.closeFlow rx key f).ok h 0)
      | none => .yes (s.ok h 0)
  else if cur.isSome then bad 18
  else if r.addr % 8 ≠ 0 then bad 24
  else match (([s.flowBad rx r.kind r.flow, r.zero rx].filterMap id).min?) with
    | some k => badData (some k)
    | none =>
      let need := if rx then s.pathNeed r.kind r.flow else 0
      let path := if need = 0 then some [] else s.placeBuf need s.usedGrans
      let s' := s.openFlow rx key r.flow (path.getD [])
      if !s.wireOk rx r.kind r.flow then short Config.flowCode.toNat
      else if path.isNone then short 5
      else if !s.entriesFree 1 then
        match s.fitOf s' with
        | .short 6 => short 6
        | _ => short 9
      else admitFit s s' fun s' => .yes (s'.ok h 0)

/-- The rule row of FLOW_RX_CFG and FLOW_TX_CFG. -/
def flowRule (op : Nat) (f : FlowReq) : DescRule :=
  { op := op, rfn := 0, pay := [fldBit 16 0 f.en, fld 17 1 f.kind, fld 18 2 f.index, fld 24 8 f.addr], fault := flowFault f }

/-- FLOW_RX_CFG. -/
def execFlowRxCfg (h : Hdr) (f : FlowReq) (s : State) : Host.Outcome State Fault Refusal :=
  .next (s.desc (flowRule 0x10 f) h (flowBody true h f))

/-- FLOW_TX_CFG. -/
def execFlowTxCfg (h : Hdr) (f : FlowReq) (s : State) : Host.Outcome State Fault Refusal :=
  .next (s.desc (flowRule 0x11 f) h (flowBody false h f))

/-! ### User slots (R384) -/

/-- The payload of PERSIST_PUT and PERSIST_GET. -/
def slotPay (first count host : Nat) : List Field := [fld 16 2 first, fld 18 2 count, fld 24 8 host]

/-- The lowest failing byte offset of PERSIST_PUT or PERSIST_GET. -/
def slotsBad (first count host : Nat) : Option Nat :=
  if 4096 ≤ first then some 16
  else if count = 0 ∨ 4096 < count ∨ 4096 < first + count then some 18
  else if host % 8 ≠ 0 then some 24
  else none

/-- The user slots from `first` on take `data`; the records they lie in are dirty. -/
def State.putSlots (s : State) (first count : Nat) (data : List Byte) : State :=
  let s := { s with axl := { s.axl with user := memWrites s.axl.user (64 * first) (data.take (64 * count)) } }
  ((List.range ((first + count - 1) / 64 + 1 - first / 64)).map (17 + first / 64 + ·)).foldl State.dirty s

/-- PERSIST_PUT after the checks common to all. -/
def persistPutBody (h : Hdr) (first count host : Nat) (data : Option (List Byte)) (s : State) : Adm :=
  match slotsBad first count host with
  | some k => bad k
  | none =>
    if !s.entriesFree 1 then short 9
    else match data with
      | none => .yes (s.done h false 7 1)
      | some d => .yes ((s.putSlots first count d).ok h 0)

/-- PERSIST_PUT. -/
def execPersistPut (h : Hdr) (first count host : Nat) (data : Option (List Byte)) (s : State) : Host.Outcome State Fault Refusal :=
  .next (s.desc { op := 0x60, rfn := 0, pay := slotPay first count host } h (persistPutBody h first count host data))

/-- PERSIST_GET. -/
def execPersistGet (h : Hdr) (first count host : Nat) (writeOk : Bool) (s : State) : Host.Outcome State Fault Refusal :=
  .next (s.desc { op := 0x61, rfn := 0, pay := slotPay first count host, standby := true } h fun s =>
    match slotsBad first count host with
    | some k => bad k
    | none =>
      if !s.entriesFree 1 then short 9
      else if !writeOk then .yes (s.done h false 7 2)
      else .yes ((s.hostWrite host (memReads s.axl.user (64 * first) (64 * count))).ok h 0))

/-- PERSIST_STORE after the checks common to all: every dirty record is stored; `fail` lists those not confirmed in either attempt. -/
def persistStoreBody (h : Hdr) (fail : List Nat) (s : State) : Adm :=
  if !s.entriesFree 1 then short 9
  else
    let l := s.dirtyRecs
    let s := l.foldl (fun (s : State) (k : Nat) => s.storeRec k (!fail.contains k) (!fail.contains k)) s
    if l.any fail.contains then .yes (s.done h false 7 3) else .yes (s.ok h 0)

/-- PERSIST_STORE. -/
def execPersistStore (h : Hdr) (fail : List Nat) (s : State) : Host.Outcome State Fault Refusal :=
  .next (s.desc { op := 0x62, rfn := 0 } h (persistStoreBody h fail))

end Sys2Proof.Machine
end

