-- ==== Sys2Proof/Machine/Lanes.lean ====
section
/-! DEFINITION. What a lane's losses and returns reach beyond the lane: the reference inputs that name a receive lane (R40, R41, Table 7-2), and the LV
agent's AES outputs (R305). -/
namespace Sys2Proof.Machine

/-- GROUP_SKEW: a member more than 10 µs from another sets GROUP_SKEW on the leader, and the group is lost (R40). -/
def execGroupSkew (n : Fin 72) (skewNs : Nat) (t : Nat) (s : State) : Host.Outcome State Fault Refusal :=
  .next (
    let s := s.at_ t
    if (s.rx n).group = 0 ∨ skewNs ≤ 10000 then s
    else ((s.raise (Hist.srx n) F.SDI_RX_HIST_GROUP_SKEW).rxLoss n).sdiInputs)

/-- SDI_LOSS: loss is declared on a lane that has reached TRS_LOCK (R41). -/
def execSdiLoss (n : Fin 72) (t : Nat) (s : State) : Host.Outcome State Fault Refusal :=
  .next (
    let s := s.at_ t
    if s.flag (R.SDI_RX_STAT n) F.SDI_RX_STAT_TRS_LOCK then (s.rxLoss n).sdiInputs else s)

/-- TX_LEAVE_IDLE; an LV output that sends again gives its AES pair its audio (R305). -/
def execTxLeaveIdle (n : Fin 72) (t : Nat) (s : State) : Host.Outcome State Fault Refusal := .next ((s.at_ t).txWake n t).lvAes_

/-- FOLLOW_RANGE_IDLE: a DIRECT source outside ±100 ppm of its rate code's nominal puts the lane in idle (R42), and silences the AES pair of an
LV output (R305). -/
def execFollowRangeIdle (n : Fin 72) (mppm : Int) (s : State) : Host.Outcome State Fault Refusal :=
  .next (
    if (s.route n).map (·.kind) = some 1 then
      ((s.setTx n { s.tx n with outRange := decide (mppm.natAbs > 100000) }).txRefresh n).lvAes_
    else s)

end Sys2Proof.Machine
end

