-- ==== Sys2Proof/Machine/Lv.lean ====
section
/-! DEFINITION. The LV personality: the meaning of LV SPI frames, takes, output control and the window (chapter 10, R288 to R307; R312
to R314). -/
namespace Sys2Proof.Machine

/-! ### LV SPI (R294 to R298) -/

/-- IRQ_STAT is read whole: its bits are returned and clear. -/
def State.lvReadIrq (s : State) : State :=
  { s with lv := { s.lv with miso := some (BitVec.ofNat 16 s.lv.irq), irq := 0 } }

/-- LV_SPI_READ: a frame reads one register of the page selected; MISO stays at high impedance while the agent does not answer. -/
def execLvSpiRead (addr : Nat) (s : State) : Host.Outcome State Fault Refusal :=
  .next (
    if !s.lvAnswers then { s with lv := { s.lv with miso := none } }
    else if addr = 8 ∧ s.lvReg 127 = 0 then s.lvReadIrq
    else { s with lv := { s.lv with miso := some (s.lvRead addr) } })

/-- IRQ_STAT_READ. -/
def execIrqStatRead (s : State) : Host.Outcome State Fault Refusal :=
  .next (if s.lvAnswers then s.lvReadIrq else { s with lv := { s.lv with miso := none } })

/-- The bits of an LV register without behaviour of its own that a write takes. -/
def lvMask (k : Nat) : Nat :=
  if k = 2 then 0x7 else if k = 3 then 0x1 else if k = 4 then 0x87FF else if k = 7 then 0x1F else if k = 127 then 0x3 else 0

/-- LV_REGISTER_WRITE: CONFIG, REF_SEL, SWLINE, IRQ_MASK and PAGE store the value; writes elsewhere are ignored (R297). -/
def execLvRegisterWrite (addr v : Nat) (s : State) : Host.Outcome State Fault Refusal :=
  .next (
    let k := if addr = 0x7F then 127 else 128 * (s.lvReg 127).toNat + addr
    if s.lvWrites && lvMask k != 0 then s.setLvReg k (BitVec.ofNat 16 (v &&& lvMask k)) else s)

/-- LV_FRAME_ERROR: a frame of other than 24 cycles (R294). -/
def execLvFrameError (cycles : Nat) (s : State) : Host.Outcome State Fault Refusal :=
  .next (
    if s.lvAnswers && cycles != 24 then (s.inc R.LVP_FRAME_ERR_CNT).raise Hist.lvp F.LVP_HIST_FRAME_ERR else s)

/-- LV_STATUS_FOLLOW. -/
def execLvStatusFollow (s : State) : Host.Outcome State Fault Refusal :=
  .next (if s.lvAnswers then s.lvFollow.lvAes_ else s)

/-! ### Takes (R299 to R304) -/

/-- LV_TAKE_WRITE: writing 0 has no effect. -/
def execLvTakeWrite (v : Nat) (t : Nat) (s : State) : Host.Outcome State Fault Refusal :=
  .next (
    let s := s.at_ t
    if v % 2 = 1 then s.lvLatch (List.range 32) else s)

/-- OUT_SEL_WRITE: the value is stored, and with AUTO_TAKE = 1 a take of the output latches. -/
def execOutSelWrite (o : Fin 32) (v : Nat) (t : Nat) (s : State) : Host.Outcome State Fault Refusal :=
  .next (
    let s := s.at_ t
    if !s.lvWrites then s
    else
      let s := s.setLvReg (128 + o) (BitVec.ofNat 16 (v &&& 0x80FF))
      if (s.lvReg 2).getLsbD 2 then s.lvLatch [o.val] else s)

/-- OUT_CTL_WRITE: MUTE, RATE and the AES pairs act at once; not taken under signing-required mode (R303, R305, R313). -/
def execOutCtlWrite (o : Fin 32) (v : Nat) (t : Nat) (s : State) : Host.Outcome State Fault Refusal :=
  .next (
    let s := s.at_ t
    if !s.lvWrites || s.lvSigned then s
    else
      let s := s.setLvReg (384 + o) (BitVec.ofNat 16 v)
      (s.txPower (s.lvDst o) (decide (s.outCtl o < 32768)) false t).lvAes_)

/-- LV_TAKE_N_EDGE: with HWTAKE_EN = 1 a low pulse of 100 ns or more latches a take of every output, one below 50 ns never; between
the two the manual leaves it open (assumption 2). While a reset runs an edge sets nothing (R314). -/
def execLvTakeNEdge (lowNs : Nat) (t : Nat) (s : State) : Host.Outcome State Fault Refusal :=
  .next (
    let s := s.at_ t
    if !(s.lvReg 2).getLsbD 1 || s.rst.warmRun then s
    else if lowNs < 50 then s
    else if 100 ≤ lowNs then s.lvLatch (List.range 32)
    else
      let (n, s) := s.draw
      if (Config.fresh 1 n).getLsbD 0 then s.lvLatch (List.range 32) else s)

/-- LV_TAKE_ARM: E2 of Table 10-8, once firmware runs. -/
def execLvTakeArm (t : Nat) (s : State) : Host.Outcome State Fault Refusal :=
  .next (if s.lvAnswers then (s.at_ t).lvArm t else s)

/-- LV_OUTPUT_SWITCH: E3 of Table 10-8; an armed switch executes even through a warm reset (R314). -/
def execLvOutputSwitch (o : Fin 32) (t : Nat) (s : State) : Host.Outcome State Fault Refusal :=
  .next (
    let s := s.at_ t
    match (tabFind s.lv.pend o).bind (·.due) with
    | some q => if q ≤ t then s.lvSwitch o t else s
    | none => s)

/-- LV_MUTE_RESUME: an output whose MUTE went to 0 resumes (R303). -/
def execLvMuteResume (o : Fin 32) (t : Nat) (s : State) : Host.Outcome State Fault Refusal :=
  .next (if s.lvOn then ((s.at_ t).txWake (s.lvDst o) t).lvAes_ else s)

/-! ### The window (R293, R307) -/

/-- No lane of a 32-lane window belongs to a multi-link group. -/
def State.winUngrouped (s : State) (rx tx : Nat) : Bool :=
  (List.range 32).all fun i =>
    (s.rx (rx + i)).group == 0 && !s.rxMember (rx + i) && (s.tx (tx + i)).group == 0 && !s.txMember (tx + i)

/-- The conditions of R293 for a window. -/
def State.winOk (s : State) (rx tx q : Nat) : Bool :=
  decide (rx ≤ 40) && decide (tx ≤ 40) && s.lv.takes.isEmpty && !(s.lv.outs.any fun p => p.2.en) && s.winUngrouped rx tx
    && (List.range 32).all (fun i => (s.route (tx + i)).isNone)
    && (List.range 4).all fun k => (s.slotOf (audEp 4 (4 * q + k) 0)).isNone && (s.slotOf (audEp 4 (4 * q + k) 1)).isNone

/-- The window moves. -/
def State.moveWin (s : State) (rx tx q t : Nat) : State :=
  (({ s with lv := { s.lv with rxBase := rx, txBase := tx, aesQ := q } } : State).lvHold t).lvFollow

/-- LVP_WIN_WRITE: the written value is kept, and belongs to the digest of a pair whether it is taken or not (R312); the window in force moves
when every condition holds, in mixed personality only. -/
def State.lvpWinWrite (s : State) (v : Nat) (t : Nat) : State :=
    let s := s.at_ t
    if s.persona ≠ 2 ∨ s.lifecycle = 4 then s
    else
      let rx := v % 128
      let tx := v / 256 % 128
      let q := v / 65536 % 4
      let s' := ((s.set R.LVP_WIN F.LVP_WIN_RX_BASE rx).set R.LVP_WIN F.LVP_WIN_TX_BASE tx).set R.LVP_WIN F.LVP_WIN_AES_Q q
      (if s'.winOk rx tx q then s'.moveWin rx tx q t else s'.raise Hist.lvp F.LVP_HIST_WIN_ERR).afterWrite s

/-- `lvpWinWrite` as a write of the host. -/
def execLvpWinWrite (v : Nat) (t : Nat) (s : State) : Host.Outcome State Fault Refusal := .next (s.byHost R.LVP_WIN fun s => s.lvpWinWrite v t)

end Sys2Proof.Machine
end

