-- ==== Sys2Proof/Machine/ScanOut.lean ====
section
/-! DEFINITION. Scan-out units: the meaning of each descriptor, write and event of chapter 5 (R152 to R179). -/
namespace Sys2Proof.Machine

/-! ### SOU_CFG (R166 to R169) -/

/-- SOU_CFG with FREE: the unit returns to the free units, and commits still pending on it complete ABORTED. -/
def freeUnitBody (h : Hdr) (u : Nat) (s : State) : Adm :=
  if 160 ≤ u ∨ !(s.unit u).alloc then bad 16
  else if (s.chainOf u).isSome ∨ s.feeds (352 + u) then denied 6
  else if !s.entriesFree 1 then short 9
  else
    let s := (s.commits u).foldl (fun s p => s.finish p.1 { status := 0x06 }) s
    .yes ((s.freeUnit u).ok h u)

/-- The unit a SOU_CFG names or claims (R167). -/
def State.souTarget (s : State) (r : SouReq) : Option Nat :=
  if r.unit < 160 then (if (s.unit r.unit).alloc || s.unitFree r.unit then some r.unit else none)
  else (if r.quad ≤ 3 then (lowest 40 fun i => s.unitFree (40 * r.quad + i)).map (40 * r.quad + ·) else none).or
    (lowest 160 s.unitFree)

/-- A SOU_CFG on a chain's unit changes what the chain owns: the format, or layer 1's ring or mode (R169). -/
def State.chainChange (s : State) (r : SouReq) : Bool :=
  let a := (s.unit r.unit).pending
  decide (r.unit < 160) && (s.chainOf r.unit).isSome &&
    ((r.gTiming && r.set.fmt != a.fmt)
      || (r.gL1 && (r.set.l1.en != a.l1.en || r.set.l1.ring != a.l1.ring || r.set.l1.fixed != a.l1.fixed
        || (r.set.l1.fixed && r.set.l1.buf != a.l1.buf))))

/-- SYN auto for the record's format; none when no synthesizer qualifies (R166). -/
def State.souSyn (s : State) (u : Nat) (r : SouReq) : Option Nat :=
  if r.gTiming && r.synAuto then (s.fmt? r.set.fmt).bind fun f => s.synAuto (u / 40) f.famF else some r.set.syn

/-- The set a SOU_CFG makes of the pending set `p` of unit `u`, or the result of what fails of its parameters. -/
def State.souCheck (s : State) (u : Nat) (p : SouSet) (r : SouReq) : Except Nat SouSet :=
  match s.fmt? r.set.fmt, s.souSyn u r with
  | some _, none => .error (badRes 18)
  | _, syn =>
    let x := mergeSet p r (syn.getD 0)
    if r.gTiming ∧ r.retune ∧ s.synOthers (u / 40 * 4 + x.syn) u then .error (badRes 18)
    else match (match r.zero, s.setBad (u / 40) x r with
        | some a, some b => some (min a b)
        | a, b => a.or b) with
      | some k => .error (dataRes (some k))
      | none => .ok x

/-- A SOU_CFG for which no unit is free: its parameters are judged first (R271), for the unit named, else for one that would suit: they
fail when they fail in every quadrant. -/
def State.souNone (s : State) (r : SouReq) : Adm :=
  let us := if r.unit < 160 then [r.unit] else [0, 40, 80, 120]
  match us.map fun u => s.souCheck u {} r with
  | .error e :: l => if l.all fun x => match x with
      | .error _ => true
      | .ok _ => false then .no 4 e else short 8
  | _ => short 8

/-- The record and groups of a SOU_CFG for unit `u`, after the unit is settled. -/
def souSetBody (h : Hdr) (u : Nat) (r : SouReq) (s : State) : Adm :=
  match s.souCheck u (s.unit u).pending r with
  | .error e => .no 4 e
  | .ok x =>
    if !s.fedCarry u x then badData (some 2)
    else if r.commit ∧ h.rfn ≠ 0 ∧ s.rfnFar h.rfn then bad 8
    else if !s.entriesFree 1 then short 9
    else admitFit s (s.setPending u x r) fun s' => if r.commit then commitAdm h u u s' else .yes (s'.ok h u)

/-- SOU_CFG after the checks common to all. -/
def souCfgBody (h : Hdr) (r : SouReq) (s : State) : Adm :=
  let groups := r.gTiming || r.gOutput || r.gL1 || r.gL2 || r.gL3
  if r.unit ≥ 160 ∧ r.unit ≠ 0xFF then bad 16
  else if r.free then freeUnitBody h r.unit s
  else if s.chainChange r then denied 6
  else if r.quad > 3 ∧ r.quad ≠ 0xFF then bad 17
  else if groups ∧ r.addr % 8 ≠ 0 then bad 24
  else match s.souTarget r with
    | none => s.souNone r
    | some u => souSetBody h u r s

/-- The record of a SOU_CFG that names groups could not be read (R274). -/
def souFault (r : SouReq) : Option (Nat × Nat) :=
  if r.reads && r.addr % 8 == 0 && r.data.isNone then some (7, 1) else none

/-- The rule row of SOU_CFG. -/
def souRule (r : SouReq) : DescRule :=
  { op := 0x40, rfn := 2, sig := true, fault := souFault r, host := if r.reads && r.addr % 8 == 0 then r.data.getD [] else []
    pay := [fld 16 1 r.unit, fld 17 1 r.quad, fldBit 18 0 r.free, fldBit 18 1 r.commit, fldBit 18 2 r.retune, fldBit 18 3 r.synAuto,
      fldBit 19 0 r.gTiming, fldBit 19 1 r.gOutput, fldBit 19 2 r.gL1, fldBit 19 3 r.gL2, fldBit 19 4 r.gL3, fld 24 8 r.addr] }

/-- SOU_CFG. -/
def execSouCfg (h : Hdr) (r : SouReq) (s : State) : Host.Outcome State Fault Refusal :=
  .next (s.desc (souRule r) h (souCfgBody h r))

/-- SOU_COMMIT after the checks common to all (R172, R173). -/
def souCommitBody (h : Hdr) (u : Nat) (s : State) : Adm :=
  if h.rfn ≠ 0 ∧ s.rfnFar h.rfn then bad 8
  else if 160 ≤ u ∨ !(s.unit u).alloc then bad 16
  else if !s.entriesFree 1 then short 9
  else commitAdm h u 0 s

/-- SOU_COMMIT. -/
def execSouCommit (h : Hdr) (u : Nat) (s : State) : Host.Outcome State Fault Refusal :=
  .next (s.desc { op := 0x41, rfn := 2, pay := [fld 16 1 u], sig := true } h (souCommitBody h u))

/-! ### User formats (R154, R155) -/

/-- XPT_UFMT_STAT.IN_USE of format index `i` (R155). -/
def State.ufmtInUse (s : State) (i : Nat) : Bool :=
  s.sou.unit.any (fun p => p.2.alloc && (p.2.active.fmt == i || p.2.pending.fmt == i))
    || s.fst.rings.any (fun p => p.2.fmt == i)
    || s.che.ctx.any (fun p => p.2.outFmt == i)
    || s.media.rxFlow.any (fun p => p.1 / 1024 == 0 && p.2.rcd.fmt == i)
    || s.media.txFlow.any (fun p => p.1 / 1024 == 0 && p.2.rcd.fmt == i)
    || (List.range 8).any (fun p => (s.pg p).fmt == i || s.get (R.XPT_PG_CFG p) F.XPT_PG_CFG_FORMAT == i)
    || (List.range 72).any (fun n => s.get (R.SDI_RX_STAT n) F.SDI_RX_STAT_FORMAT == i)

/-- The user format the written registers of entry `m` spell. -/
def State.ufmtWritten (s : State) (m : Nat) : UFmt :=
  { totalSamples := s.get (R.XPT_UFMT_SIZE m) F.XPT_UFMT_SIZE_TOTAL_SAMPLES
    activeWidth := s.get (R.XPT_UFMT_SIZE m) F.XPT_UFMT_SIZE_ACTIVE_WIDTH
    totalLines := s.get (R.XPT_UFMT_LINES m) F.XPT_UFMT_LINES_TOTAL_LINES
    activeLines := s.get (R.XPT_UFMT_LINES m) F.XPT_UFMT_LINES_ACTIVE_LINES
    firstF1 := s.get (R.XPT_UFMT_FIRST m) F.XPT_UFMT_FIRST_FIRST_F1
    firstF2 := s.get (R.XPT_UFMT_FIRST m) F.XPT_UFMT_FIRST_FIRST_F2
    interlaced := s.flag (R.XPT_UFMT_MODE m) F.XPT_UFMT_MODE_INTERLACED
    rate := s.get (R.XPT_UFMT_MODE m) F.XPT_UFMT_MODE_RATE
    swLine := s.get (R.XPT_UFMT_MODE m) F.XPT_UFMT_MODE_SWLINE }

/-- The conditions of R155 on the values themselves. -/
def UFmt.ok (u : UFmt) : Bool :=
  decide (u.activeWidth % 2 = 0 ∧ 64 ≤ u.activeWidth ∧ u.activeWidth ≤ 7680)
    && decide (u.activeWidth + 32 ≤ u.totalSamples ∧ u.totalSamples ≤ 16383)
    && decide (16 ≤ u.activeLines ∧ u.activeLines ≤ 4320) && (!u.interlaced || u.activeLines % 2 == 0)
    && decide (u.totalLines ≤ 8191)
    && (if u.interlaced then
          decide (u.firstF1 + u.activeLines / 2 < u.firstF2 + 1 ∧ u.firstF2 + u.activeLines / 2 ≤ u.totalLines + 1)
        else decide (2 ≤ u.firstF1 ∧ u.firstF1 + u.activeLines ≤ u.totalLines + 1))
    && decide (1 ≤ u.swLine ∧ u.swLine + 1 ≤ u.firstF1) && decide (u.rate ≤ 10)
    && decide (u.totalSamples * u.totalLines * rateF u.rate ≤ 2376000000 * 1001)

/-- A write of XPT_UFMT_MODE. -/
def State.ufmtWrite (s : State) (m v : Nat) : State :=
  let a := R.XPT_UFMT_MODE m
  let s := ((s.set a F.XPT_UFMT_MODE_INTERLACED (v / 2 ^ 31)).set a F.XPT_UFMT_MODE_RATE (v / 2 ^ 24)).set a
    F.XPT_UFMT_MODE_SWLINE (v / 2 ^ 12)
  let u := s.ufmtWritten m
  if u.ok && !s.ufmtInUse (0x40 + m) then { s with xpt := { s.xpt with ufmt := tabPut s.xpt.ufmt m u } }
  else s.set (R.XPT_UFMT_STAT m) F.XPT_UFMT_STAT_ERR 1

/-- UFMT_MODE_WRITE. -/
def execUfmtModeWrite (m : Fin 16) (v : Nat) (s : State) : Host.Outcome State Fault Refusal := .next (s.byHost (R.XPT_UFMT_MODE m) fun s => s.ufmtWrite m v)

/-! ### Commits (Table 5-4) -/

/-- A layer's ring has been freed or is freeing (R175). -/
def State.ringLost (s : State) (x : SouSet) : Bool :=
  (souLayers x).any fun l => l.en && (match s.ring l.ring with
    | some g => g.freeing
    | none => true)

/-- The window of a commit line has closed at `t`: 4 line periods before it. -/
def State.windowClosed (s : State) (u : Nat) (c : CommitOp) : Bool :=
  match s.commitGrid u with
  | some (g, _) => decide (g.actual c.due ≤ s.now + g.lineTicks 4)
  | none => true

/-- A commit's line as its pending set now asks: once it changes the timing, the last field's line (R176). -/
def State.latchDue (s : State) (u : Nat) (c : CommitOp) : Nat :=
  let x := s.unit u
  match (s.commitGrid u).bind fun p => (s.fmt? p.2.fmt).map fun f => (p.1, p.2, f) with
  | some (g, set, f) => if x.lastField then
      ((commitLines f set true).map fun l => g.lineAt l c.due).foldl (fun b p => if b = 0 then p else min b p) 0 else c.due
  | none => c.due

/-- COMMIT_LATCH: the pending set is latched for each commit whose window closes; a commit whose layer has lost its ring fails
whole (R174, R175). -/
def execCommitLatch (u : Fin 160) (t : Nat) (s : State) : Host.Outcome State Fault Refusal :=
  .next (
    let s := s.at_ t
    ((s.commits u).filter fun p => p.2.latched.isNone && s.windowClosed u p.2).foldl (fun (s : State) (p : Nat × CommitOp) =>
      let x := s.unit u
      let c := { p.2 with due := s.latchDue u p.2 }
      if !s.windowClosed u c then s.setOp p.1 (.commit c)
      else if s.ringLost x.pending then s.finish p.1 { status := 0x04, lateCmt := p.2.late, result := some (16 + 0xFFFFFFFF * 2 ^ 16) }
      else s.setOp p.1 (.commit { c with latched := some (x.pending, x.tune) })) s)

/-- A timing offset as a word laid out as SOU_OFFSET. -/
def offsetWord (x : SouSet) : Nat := x.offLines * 65536 + x.offSamps

/-- The active set of a unit becomes `x` at a frame boundary or commit line: its layers, its destinations, the deadline grid of its
chain's context (R169) and the writers it feeds (R120). -/
def State.adopt (s : State) (u : Nat) (x : SouSet) : State :=
  let f := (s.unit u).active.fmt
  let s := s.activate u x
  let s := match (s.chainOf u).bind (·.ctx) with
    | some c => match s.ctx c with
      | some k => s.setCtx c { k with par := { k.par with offset := offsetWord x } }
      | none => s
    | none => s
  let s := if f = x.fmt then s else s.cwFormat (352 + u) x.fmt
  s.refreshSrc (352 + u)

/-- A unit's output is held while its synthesizer retunes to the family of set `x` (R177). -/
def State.holdRetune (s : State) (u : Nat) (x : SouSet) : State :=
  let fam := ((s.fmt? x.fmt).map fun f => if f.famF then 1 else 0).getD 0
  ((s.setUnit u { s.unit u with retune := true }).synRetune (u / 40 * 4 + x.syn) fam).refreshSrc (352 + u)

/-- The latched set of a commit takes effect at its line: at once, or, when it changes the timing of a running unit, from the end of
the frame in progress (R176); a first commit that retunes waits for its synthesizer (R177). -/
def State.applyCommit (s : State) (u : Nat) (x : SouSet) (tune : Bool) : State :=
  let y := s.unit u
  if s.retimes u x tune then
    let s := s.setUnit u { y with newTiming := some (x, tune), frameEnd := s.timingEnd u }
    s.raise (Hist.sou u) F.SOU_HIST_TIMING_CHANGE
  else if tune then (s.setUnit u { y with newTiming := some (x, true), frameEnd := s.now }).holdRetune u x
  else s.adopt u x

/-- Commit `c` of unit `u` executes (E3 and E5 of Table 5-4). -/
def State.runCommit (s : State) (u : Nat) (p : Nat × CommitOp) : State :=
  let c := p.2
  let (x, tune) := c.latched.getD ((s.unit u).pending, (s.unit u).tune)
  let rfn := s.commitRfn u c.due x tune
  let s := s.inc (R.SOU_COMMIT_CNT u)
  let s := s.applyCommit u x tune
  let s := s.setUnit u { s.unit u with tune := (s.unit u).tune && (s.unit u).pending != x }
  let st := if c.late ∧ c.rfn ≠ 0 then 0x01 else 0x00
  let (org, ring) := s.opOrigin p.1
  let s := s.log 4 org st 0 u 0 rfn ring
  s.finish p.1 { status := st, lateCmt := c.late, rfn := some rfn }

/-- The raster line that carries stored line `k`. -/
def Fmt.rasterLine (f : Fmt) (k : Nat) : Nat := if f.inter && decide (f.lines / 2 ≤ k) then f.f2 + (k - f.lines / 2) else f.f1 + k

/-- The lines a unit has sent by the commit line whose computed time is `c` stay those of the set it runs (R171). -/
def State.keepSent (s : State) (u c : Nat) : State :=
  let y := s.unit u
  match s.souGrid u, s.fmt? y.active.fmt with
  | some g, some f =>
    let l := ((c + g.period - g.nom % g.period) % g.period) * g.lines / g.period + 1
    s.setUnit u { y with sent := ((s.souPic u).zipIdx.filter fun p => decide (f.rasterLine p.2 ≤ l)).map fun p => (p.2, p.1) }
  | _, _ => s

/-- The computed time has come, by the grid whose commits a unit follows. -/
def State.commitCome (s : State) (u due : Nat) : Bool :=
  decide (((s.commitGrid u).map fun p => p.1.actual due).getD due ≤ s.now)

/-- COMMIT_EXECUTE: the latched commits whose line has come execute in line order; a gated unit holds them for its resume (R178). -/
def execCommitExecute (u : Fin 160) (t : Nat) (s : State) : Host.Outcome State Fault Refusal :=
  .next (
    let s := s.at_ t
    if (s.unit u).gated then s
    else ((s.commits u).filter fun p => p.2.latched.isSome && s.commitCome u p.2.due).foldl
      (fun (s : State) (p : Nat × CommitOp) => (s.keepSent u p.2.due).runCommit u p) s)

/-- Instant `t` lies in line 1 of a frame of the grid that set `x` gives unit `u`. -/
def State.atFrame (s : State) (u : Nat) (x : SouSet) (t : Nat) : Bool :=
  match s.setGrid u x with
  | some g =>
    decide ((t + g.period - g.phase % g.period) % g.period < g.lineTicks 1)
  | none => true

/-- NEW_TIMING_START: G of R176: a frame start of the new grid at or after F, or after the relock of a retune. -/
def execNewTimingStart (u : Fin 160) (t : Nat) (s : State) : Host.Outcome State Fault Refusal :=
  .next (
    let s := s.at_ t
    let y := s.unit u
    match y.newTiming with
    | none => s
    | some (x, tune) =>
      let locked := s.synState (u / 40 * 4 + x.syn) == 3
      if t < y.frameEnd || !s.atFrame u x t || (tune && !(y.retune && locked)) then s
      else (s.setUnit u { y with newTiming := none, frameEnd := 0, retune := false, sent := [] }).adopt u x)

/-! ### Frame starts (R159, R165, R170) -/

/-- The buffer a layer shows next: a freeing ring's layer keeps what it holds, a fixed layer shows its buffer once written, and a
following layer selects under R122. -/
def State.layerNext (s : State) (u : Nat) (x : SouSet) (l : Nat) : Option Nat :=
  let y := setLayer x l
  if !y.en then none
  else match s.ring y.ring, s.fmt? x.fmt with
    | some g, some f =>
      if g.freeing then (s.unit u).sel l
      else if y.fixed then
        let h := g.first + y.buf
        if ((s.buf h).map (·.done)).getD 0 = 0 then none else some h
      else s.selectBuf y.ring x.fmt (f.period / f.totL) s.now
    | _, _ => (s.unit u).sel l

/-- Each layer selects its buffer; layer 1 counts a repeat in follow mode. The frame takes its ATC and its absent lines. -/
def State.selectLayers (s : State) (u : Nat) : State :=
  let x := (s.unit u).active
  let old := (s.unit u).sel1
  let s := [1, 2, 3].foldl (fun s l => s.showBuf u l (s.layerNext u x l)) s
  let new := (s.unit u).sel1
  let s := if x.l1.en && !x.l1.fixed && new.isSome && old == new then s.inc (R.SOU_REPEAT_CNT u) else s
  (s.setUnit u { s.unit u with lastSeq := s.fst.doneSeq, atc := s.frameAtc u, sent := [] }).frameLines u

/-- SOU_FRAME_START; at the end of the last frame of the old timing a retune takes the synthesizer (E1 of Table 5-5), and with a
timing change waiting no frame starts. -/
def execSouFrameStart (u : Fin 160) (t : Nat) (s : State) : Host.Outcome State Fault Refusal :=
  .next (
    let s := s.at_ t
    let y := s.unit u
    if !y.run || y.gated || y.retune then s
    else match y.newTiming with
      | some (x, tune) =>
        if t < y.frameEnd then s.selectLayers u
        else if tune then s.holdRetune u x
        else s
      | none => s.selectLayers u)

/-! ### Line buffer (R163, R164) -/

/-- LINE_UNDERRUN: the raster of a unit that sends reaches sample `samp` of active line `line`, counted from 0, of an enabled layer
whose data is not there: background from there to the end of the line. -/
def execLineUnderrun (u : Fin 160) (line samp : Nat) (s : State) : Host.Outcome State Fault Refusal :=
  .next (s.unitUnderrun u line samp)

/-- LOW_WM and CRIT_WM in force (R163). -/
def State.watermarks (s : State) (u : Nat) : Nat × Nat :=
  let c := fun v => max 1 (min 99 v)
  let low := c (s.get (R.SOU_CTL u) F.SOU_CTL_LOW_WM)
  (low, min (c (s.get (R.SOU_CTL u) F.SOU_CTL_CRIT_WM)) (low - 1))

/-- The urgency of a layer of a set with `fill` bytes in its share: 0 normal, 1 urgent, 2 critical. -/
def State.urgency (s : State) (u : Nat) (x : SouSet) (l : SouLayer) (fill : Nat) : Nat :=
  let (low, crit) := s.watermarks u
  if l.en then (Requester.layer fill (s.layerShare x l) low crit).level else 0

/-- FETCH_URGENCY_CHANGE: each layer has so many bytes in its share of the line buffer. -/
def execFetchUrgencyChange (u : Fin 160) (fill1 fill2 fill3 : Nat) (s : State) : Host.Outcome State Fault Refusal :=
  .next (
    let y := s.unit u
    let lv := fun (l : SouLayer) (f : Nat) => s.urgency u y.active l f
    let a := lv y.active.l1 fill1
    let b := lv y.active.l2 fill2
    let c := lv y.active.l3 fill3
    let into := fun (n : Nat) => (a == n && y.urg1 != n) || (b == n && y.urg2 != n) || (c == n && y.urg3 != n)
    let s := s.setUnit u { y with urg1 := a, urg2 := b, urg3 := c }
    let s := if into 1 then s.raise (Hist.sou u) F.SOU_HIST_URGENT else s
    if into 2 then s.raise (Hist.sou u) F.SOU_HIST_CRITICAL else s)

/-! ### Gating (R178) -/

/-- SOU_RESUME: the commits whose line fell in the gap execute first, and the layers select afresh. -/
def execSouResume (u : Fin 160) (t : Nat) (s : State) : Host.Outcome State Fault Refusal :=
  .next (
    let s := s.at_ t
    let y := s.unit u
    if !y.gated || s.inReset 8 u || s.synState (u / 40 * 4 + y.active.syn) != 3 then s
    else
      let s := s.setUnit u { y with gated := false }
      let s := ((s.commits u).filter fun p => s.commitCome u p.2.due).foldl (fun s p => s.runCommit u p) s
      (s.selectLayers u).refreshSrc (352 + u))

end Sys2Proof.Machine
end

