-- ==== Sys2Proof/Machine/Security.lean ====
section
/-! DEFINITION. Security and lifecycle: attestation, checkpoints, pinned keys, signing-required mode, the domain key and the lifecycle
requests (chapter 17, R413 to R427). -/
namespace Sys2Proof.Machine

/-! ### Attestation (R422) -/

/-- A priority or region register of a matrix target (Table 13-5). -/
def mtxMeasured (a : Nat) : Bool :=
  decide (0x21000 ≤ a ∧ a < 0x21000 + 14 * 0x100) && (decide (a % 0x100 < 8) || decide (0x20 ≤ a % 0x100 ∧ a % 0x100 < 0xA0))

/-- What the firmware measurement covers: the header and the body's digest of the image in force. -/
def State.imageMeasured (s : State) : List Nat :=
  match s.rst.image with
  | some i => [i.svn, i.version, i.slot, if i.revoke0 then 1 else 0, i.digest]
  | none => []

/-- The bytes of an attestation report. -/
def State.report (s : State) (nonce : List Nat) (leaf : Nat) : List Byte :=
  signed 0 leaf 2820 (ascii "DXVATT01" ++ le 4 3076 ++ le 4 0x12 ++ le 8 s.devId ++ (nonce.take 32).map (BitVec.ofNat 8)
    ++ digestBytes (Config.measure 0 s.imageMeasured)
    ++ digestBytes (Config.measure 1 (s.pairDigest ++ ((s.regs.filter fun p => mtxMeasured p.1).map fun p => [p.1, p.2.toNat]).flatten
        ++ [(s.rd R.SEC_CTL).toNat]))
    ++ digestBytes (Config.measure 2 [s.devId, s.lifecycle, s.get R.SEC_FW F.SEC_FW_SVN_FUSE])
    ++ le 1 s.lifecycle ++ le 1 s.persona ++ le 1 s.role
    ++ le 1 ((if s.signReq then 1 else 0) + (if s.get R.SEC_STAT F.SEC_STAT_DEBUG ≠ 0 then 2 else 0)
        + (if s.flag R.RST_STAT F.RST_STAT_FALLBACK then 4 else 0) + (if s.armed then 8 else 0))
    ++ le 4 s.epoch ++ le 6 s.rfnNow ++ le 2 0 ++ le 4 leaf ++ le 4 0
    ++ digestBytes (Config.measure 3 [s.sec.logGen]) ++ digestBytes s.sec.head ++ le 8 s.ckNum ++ le 8 0)

/-- The rule row of ATTEST: a nonce of 32 bytes and the report's address. -/
def attestRule (nonce : List Nat) (addr : Nat) : DescRule :=
  { op := 0x70, rfn := 0, noEpoch := true, standby := true
    pay := (List.range 32).map (fun i => fld (16 + i) 1 (nonce[i]?.getD 0)) ++ [fld 48 8 addr] }

/-- ATTEST: with no identity key ready it answers the shortfall of signing leaves (R421). -/
def execAttest (h : Hdr) (nonce : List Nat) (addr : Nat) (writeOk : Bool) (s : State) : Host.Outcome State Fault Refusal :=
  .next (s.desc (attestRule nonce addr) h fun s =>
    if addr % 8 ≠ 0 then bad 48
    else if !s.entriesFree 1 then short 9
    else match s.takeLeaf 0 with
      | (none, _) => short 0x0D
      | (some leaf, s') =>
        if writeOk then .yes ((s'.hostWrite addr (s.report nonce leaf)).ok h 3076) else .yes (s'.done h false 7 2))

/-! ### Checkpoints (R424) -/

/-- LOG_CHECKPOINT after the checks common to all: while the route-log key is retired the checkpoint waits for its successor (R421). -/
def checkpointBody (h : Hdr) (addr : Nat) (writeOk : Bool) (s : State) : Adm :=
  if addr % 8 ≠ 0 then bad 16
  else if s.lifecycle = 0 then denied 7
  else if !s.entriesFree 1 then short 9
  else if s.keySt 1 ≠ 1 then .yes (s.addOp h 0 (.ckpt addr writeOk)).2
  else
    let s := s.checkpoint (if writeOk then addr else 0) (s.hdrOrigin h)
    if !writeOk && addr != 0 then .yes (s.done h false 7 2) else .yes (s.ok h s.ckNum)

/-- LOG_CHECKPOINT. -/
def execLogCheckpoint (h : Hdr) (addr : Nat) (writeOk : Bool) (s : State) : Host.Outcome State Fault Refusal :=
  .next (s.desc { op := 0x71, rfn := 0, pay := [fld 16 8 addr] } h (checkpointBody h addr writeOk))

/-- PERIOD in force: at least an hour while autostore is disarmed. -/
def State.ckPeriod (s : State) : Nat :=
  let p := max 1 (min 3600 (s.get R.SEC_CTL F.SEC_CTL_PERIOD))
  (if s.armed then p else max 3600 p) * ticksPerSec

/-- CHECKPOINT_PERIOD. -/
def execCheckpointPeriod (t : Nat) (s : State) : Host.Outcome State Fault Refusal :=
  .next (
    let s := s.at_ t
    if s.sec.lastCk + s.ckPeriod ≤ t ∧ s.keySt 1 = 1 ∧ s.lifecycle ≠ 4 then s.checkpoint 0 (0, 0xFF) else s)

/-! ### Operator keys and modes (R425, R426) -/

/-- A public key object (R425): its OID, and the lowest byte that is not as laid down. -/
def keyObj (b : List Nat) : Nat × Option Nat :=
  let oid := unle ((b.take 4).map (BitVec.ofNat 8))
  (oid, if (sigLenOf oid).isNone then some 0 else (([68, 69, 70, 71].find? fun i => (b[i]?).getD 0 != 0)))

/-- The key object that a signature covers: the one that is read. -/
def keyHost (addr : Nat) (key : Option (List Nat)) : List Byte := if addr % 8 = 0 then (key.getD []).map (BitVec.ofNat 8) else []

/-- The payload of KEY_PIN operations 1 to 5: the slot for operation 1 alone, and an address that only operation 4 reads. -/
def keyPay (op : Nat) (slot : List Field) (addr : Spell) : List Field := slot ++ [fld 17 1 op, ⟨192, 64, addr⟩]

/-- Pinning a key needs a signature but for the first key in PROVISIONED; in FIELD the first key is never taken (Table 17-7). -/
def pinRule (s : State) (slot addr : Nat) (key : Option (List Nat)) : DescRule :=
  { op := 0x72, rfn := 0, need := !(s.lifecycle == 1 && s.sec.keys.isEmpty), never := s.lifecycle == 2 && s.sec.keys.isEmpty
    pay := [fld 16 1 slot, ⟨136, 8, .not [1, 2, 3, 4, 5]⟩, fld 24 8 addr], host := keyHost addr key }

/-- KEY_PIN operation 0 after the checks common to all, and with `op` not 0 one that Table 17-7 does not list. -/
def keyPinBody (h : Hdr) (slot addr : Nat) (key : Option (List Nat)) (op : Nat) (s : State) : Adm :=
  if 7 < slot then bad 16
  else if op ≠ 0 then bad 17
  else if addr % 8 ≠ 0 then bad 24
  else if !s.entriesFree 1 then short 9
  else match key with
    | none => .yes (s.done h false 7 1)
    | some b => match keyObj b with
      | (_, some k) => badData (some k)
      | (oid, none) =>
        let s := { s with sec := { s.sec with keys := tabPut s.sec.keys slot ⟨oid, b⟩ } }
        .yes ((s.keysChanged 3 (s.hdrOrigin h)).ok h 0)

/-- KEY_PIN. -/
def execKeyPin (h : Hdr) (slot addr : Nat) (key : Option (List Nat)) (s : State) : Host.Outcome State Fault Refusal :=
  .next (s.desc (pinRule s slot addr key) h (keyPinBody h slot addr key (bytesAt (s.headRaw h.ring) 17 1)))

/-- KEY_PIN operation 1 after the checks common to all: the last pinned key stays while the mode is in force. -/
def keyUnpinBody (h : Hdr) (slot : Nat) (s : State) : Adm :=
  if 7 < slot then bad 16
  else if s.signReq && (tabFind s.sec.keys slot).isSome && decide (s.sec.keys.length = 1) then denied 6
  else if !s.entriesFree 1 then short 9
  else if (tabFind s.sec.keys slot).isNone then .yes (s.ok h 0)
  else
    let s := { s with sec := { s.sec with keys := tabDel s.sec.keys slot } }
    .yes ((s.keysChanged 3 (s.hdrOrigin h)).ok h 0)

/-- KEY_UNPIN. -/
def execKeyUnpin (h : Hdr) (slot : Nat) (s : State) : Host.Outcome State Fault Refusal :=
  .next (s.desc { op := 0x72, rfn := 0, need := true, pay := keyPay 1 [fld 16 1 slot] .any } h (keyUnpinBody h slot))

/-- KEY_PIN operations 2 and 3 after the checks common to all: the mode is entered only while autostore is armed and in PROVISIONED or
FIELD (Table 11-4). -/
def signingBody (h : Hdr) (on : Bool) (s : State) : Adm :=
  if on && !s.armed then .deny 6 (s.modeRefused 1)
  else if on && s.lifecycle != 1 && s.lifecycle != 2 then .deny 7 (s.modeRefused 3)
  else if !s.entriesFree 1 then short 9
  else .yes ((s.setSigning on (s.hdrOrigin h)).ok h 0)

/-- SIGNING_ENTER. -/
def execSigningEnter (h : Hdr) (s : State) : Host.Outcome State Fault Refusal :=
  .next (s.desc { op := 0x72, rfn := 0, need := true, pay := keyPay 2 [] .any } h (signingBody h true))

/-- SIGNING_LEAVE. -/
def execSigningLeave (h : Hdr) (s : State) : Host.Outcome State Fault Refusal :=
  .next (s.desc { op := 0x72, rfn := 0, need := true, pay := keyPay 3 [] .any } h (signingBody h false))

/-- The rule of KEY_PIN operations 4 and 5. -/
def domKeyRule (s : State) (op : Nat) (addr : Spell) (host : List Byte) : DescRule :=
  { op := 0x72, rfn := 0, need := !s.sec.keys.isEmpty, sig := true, pay := keyPay op [] addr, host := host }

/-- KEY_PIN operations 4 and 5 after the checks common to all; `key` is the host data of an installation, none where it was not
read. -/
def domKeyBody (h : Hdr) (install : Bool) (addr : Nat) (key : Option (List Nat)) (s : State) : Adm :=
  if install && addr % 8 != 0 then bad 24
  else if !s.entriesFree 1 then short 9
  else if install && key.isNone then .yes (s.done h false 7 1)
  else
    let k := if install then key.map (·.take 32) else none
    let s := { s with sec := { s.sec with domKey := k } }
    .yes ((s.keysChanged 4 (s.hdrOrigin h)).ok h 0)

/-- DOMAIN_KEY_INSTALL. -/
def execDomainKeyInstall (h : Hdr) (addr : Nat) (key : Option (List Nat)) (s : State) : Host.Outcome State Fault Refusal :=
  .next (s.desc (domKeyRule s 4 (.is addr) (keyHost addr key)) h (domKeyBody h true addr key))

/-- DOMAIN_KEY_ERASE. -/
def execDomainKeyErase (h : Hdr) (s : State) : Host.Outcome State Fault Refusal :=
  .next (s.desc (domKeyRule s 5 .any []) h (domKeyBody h false 0 none))

/-! ### Lifecycle (R413 to R416) -/

/-- A lifecycle request: in END, and while step 1 of provisioning runs, it is not taken; one whose role is not SOLO is refused (code 0x05), and
so is one that Table 17-1 does not allow. -/
def State.lcTry (s : State) (allowed : Bool) (k : State → State) : State :=
  if s.lifecycle = 4 || s.sec.genId then s
  else if s.role ≠ 0 then (s.modeRefused 5).lcRefused
  else if !allowed then s.lcRefused
  else k s

/-- Entropy that passes its health tests. -/
def State.entropyOk (s : State) : Bool := s.flag R.SEC_STAT F.SEC_STAT_ENTROPY_OK

/-- A new route-log key: its entry carries the first bytes of the key's digest (Table 17-6). -/
def State.newLogKey (s : State) : State :=
  let s := { s with sec := { s.sec with logGen := s.sec.logGen + 1 } }
  (s.newKey 1).logWith ((Config.measure 3 [s.sec.logGen]).toNat % 2 ^ 64) 10 0 0 0 0 0 s.rfnNow 0xFF

/-- LC_PROVISION: step 1 without a token, step 2 with one. -/
def State.lcProvision (s : State) (tok : Option Token) : State :=
  s.lcTry (s.lifecycle == 0) fun s =>
    match tok with
    | none =>
      if s.entropyOk then ({ s with sec := { s.sec with genId := true } }).set R.SEC_LC_RES F.SEC_LC_RES_RESULT 1 else s.lcDone 6
    | some k =>
      if !s.tokenOk tok 1 then s.lcBadToken
      else if s.keySt 0 ≠ 1 then s.lcDone 3
      else if !k.certOk || decide (4096 < k.cert.length) then s.lcBadToken
      else if !s.entropyOk then s.lcDone 6
      else
        let s := { s with sec := { s.sec with cert := k.cert, csr := none } }
        let s := s.writeRec 16 (s.recBody 16) true
        ((s.setLifecycle 1).newLogKey).lcDone 0

/-- `lcProvision` as a write of the host. -/
def execLcProvision (tok : Option Token) (s : State) : Host.Outcome State Fault Refusal := .next (s.byHost R.SEC_LC_REQ fun s => s.lcProvision tok)

/-- LC_FIELD. -/
def State.lcField (s : State) : State :=
  s.lcTry (s.lifecycle == 1) fun s =>
    if s.keySt 0 = 0 then s.lcDone 3
    else ((s.checkpoint 0 (0, 0xFF)).setLifecycle 2).lcDone 0

/-- `lcField` as a write of the host. -/
def execLcField (s : State) : Host.Outcome State Fault Refusal := .next (s.byHost R.SEC_LC_REQ fun s => s.lcField)

/-- LC_RMA: final checkpoint, secrets erased and stored, route-log key retired, fuse blown; `cut` says that power is lost before the fuse
is. -/
def State.lcRma (s : State) (tok : Option Token) (cut : Bool) : State :=
  s.lcTry (s.lifecycle == 1 || s.lifecycle == 2) fun s =>
    if !s.tokenOk tok 3 then s.lcBadToken
    else
      let (ok, s) := s.consent tok
      if !ok then s.lcBadToken
      else
        let s := (s.checkpoint 0 (0, 0xFF)).beginRma.eraseSecrets
        if cut then s else s.endRma.lcDone 0

/-- `lcRma` as a write of the host. -/
def execLcRma (tok : Option Token) (cut : Bool) (s : State) : Host.Outcome State Fault Refusal :=
  .next (s.byHost R.SEC_LC_REQ fun s => s.lcRma tok cut)

/-- LC_END: checkpoint, autostore disarmed, fuse blown. -/
def State.lcEnd (s : State) (tok : Option Token) : State :=
  s.lcTry true fun s =>
    if !s.tokenOk tok 4 then s.lcBadToken
    else
      let (ok, s) := s.consent tok
      if !ok then s.lcBadToken
      else
        let s := s.checkpoint 0 (0, 0xFF)
        let s := if s.armed then s.raiseMode F.GLB_MODE_HIST_AUTOSTORE_CHG else s
        let s := (s.set R.AXL_CTL F.AXL_CTL_ARM 0).change 0
        ((s.setSigning false (0, 0xFF)).setLifecycle 4).enterEnd.lcDone 0

/-- `lcEnd` as a write of the host. -/
def execLcEnd (tok : Option Token) (s : State) : Host.Outcome State Fault Refusal := .next (s.byHost R.SEC_LC_REQ fun s => s.lcEnd tok)

/-- VENDOR_DEBUG_SESSION: a token with target 7 opens debug in RMA (R416). -/
def State.vendorDebugSession (s : State) (tok : Option Token) : State :=
  if s.lifecycle = 4 || s.sec.genId then s
  else if s.lifecycle ≠ 3 then s.lcRefused
  else if s.tokenOk tok 7 then ((s.set R.SEC_STAT F.SEC_STAT_DEBUG 2).raise Hist.sec F.SEC_HIST_DEBUG_UNLOCK).lcDone 0
  else s.lcBadToken

/-- `vendorDebugSession` as a write of the host. -/
def execVendorDebugSession (tok : Option Token) (s : State) : Host.Outcome State Fault Refusal := .next (s.byHost R.SEC_LC_REQ fun s => s.vendorDebugSession tok)

/-- IDENTITY_KEY_GENERATED: SEC_CERT shows the certification request. -/
def execIdentityKeyGenerated (s : State) : Host.Outcome State Fault Refusal :=
  .next (
    if !s.sec.genId then s
    else
      let (n, s) := s.draw
      (({ s with sec := { s.sec with genId := false, csr := some n } }).newKey 0).lcDone 5)

/-- The checkpoints that waited for a route-log key are made (R421). -/
def State.waitingCks (s : State) : State :=
  s.host.ops.foldl (fun (s : State) (o : Op) =>
    match o.body with
    | .ckpt addr writeOk =>
      let s := s.checkpoint (if writeOk then addr else 0) (s.opOrigin o.id)
      if !writeOk && addr != 0 then s.finish o.id { status := 7, result := some 2 }
      else s.finish o.id { status := 0, result := some s.ckNum }
    | _ => s) s

/-- ROUTE_LOG_KEY_GENERATED: after the previous key retired. -/
def execRouteLogKeyGenerated (s : State) : Host.Outcome State Fault Refusal :=
  .next (if s.keySt 1 = 2 ∧ s.entropyOk ∧ s.lifecycle ≠ 4 then s.newLogKey.waitingCks else s)

/-- ENTROPY_FAIL: key generation stops and the request that needed it completes (R418). -/
def execEntropyFail (s : State) : Host.Outcome State Fault Refusal :=
  .next (
    let s := (s.set R.SEC_STAT F.SEC_STAT_ENTROPY_OK 0).raise Hist.sec F.SEC_HIST_ENTROPY_FAIL
    if s.sec.genId then ({ s with sec := { s.sec with genId := false } }).lcDone 6 else s)

/-- ENTROPY_HEALTH_PASS. -/
def execEntropyHealthPass (s : State) : Host.Outcome State Fault Refusal := .next (s.set R.SEC_STAT F.SEC_STAT_ENTROPY_OK 1)

/-! ### Route-log set-up (R423, R427) -/

/-- LOG_TAIL_WRITE. -/
def State.logTailWrite (s : State) (v : Nat) : State :=
  if s.lifecycle = 4 then s else (s.set R.SEC_LOG_TAIL F.SEC_LOG_TAIL_TAIL v).deliverHeld

/-- `logTailWrite` as a write of the host. -/
def execLogTailWrite (v : Nat) (s : State) : Host.Outcome State Fault Refusal := .next (s.byHost R.SEC_LOG_TAIL fun s => s.logTailWrite v)

/-- A register of the log or checkpoint setup. -/
def logSetupReg (a : Nat) : Bool :=
  [R.SEC_LOG_BASE_LO, R.SEC_LOG_BASE_HI, R.SEC_LOG_CFG, R.SEC_CKPT_BASE_LO, R.SEC_CKPT_BASE_HI].contains a

/-- A write of the log or checkpoint setup, taken only while SEC_LOG_HEAD equals SEC_LOG_TAIL; a base comes into force with its higher word
(R18), and entries held are then delivered. -/
def State.logSetup (s : State) (a v : Nat) : State :=
  if !logSetupReg a || s.lifecycle == 4
      || s.get R.SEC_LOG_HEAD F.SEC_LOG_HEAD_HEAD != s.get R.SEC_LOG_TAIL F.SEC_LOG_TAIL_TAIL then s
  else
    let s := s.wr a (BitVec.ofNat 32 (if a = R.SEC_LOG_CFG then v % 2 ^ 16 else v))
    let s := if a = R.SEC_LOG_BASE_HI then
        ({ s with sec := { s.sec with logUp := true } }).takeSetting [R.SEC_LOG_BASE_LO, R.SEC_LOG_BASE_HI]
      else if a = R.SEC_CKPT_BASE_HI then
        ({ s with sec := { s.sec with ckUp := true } }).takeSetting [R.SEC_CKPT_BASE_LO, R.SEC_CKPT_BASE_HI]
      else s
    s.deliverHeld

/-- LOG_SETUP_WRITE. -/
def execLogSetupWrite (a v : Nat) (s : State) : Host.Outcome State Fault Refusal := .next (s.byHost a fun s => s.logSetup a v)

end Sys2Proof.Machine
end

