-- ==== Sys2Proof/Machine/Mate.lean ====
section
/-! DEFINITION. Twin operation and the system domain: pairing, heartbeats, forwarding, role changes, domain packets (chapter 16, R395 to
R412). -/
namespace Sys2Proof.Machine

/-- The rule row of MATE_CTL. -/
def mateRule (op : Spell) : DescRule := { op := 0x81, rfn := 0, pay := [⟨128, 8, op⟩], standby := true, sig := true }

/-! ### Pairing (R398) -/

/-- A pairing fails. -/
def State.pairFail (s : State) (why : Nat) : State :=
  (s.set R.MATE_STAT F.MATE_STAT_FAIL_WHY why).raise Hist.mate F.MATE_HIST_PAIR_FAIL

/-- A lifecycle state in which no device pairs (Table 11-4, code 0x04). -/
def noPair (l : Nat) : Bool := l == 0 || decide (3 ≤ l)

/-- Table 11-3 lets neither device of a personality and lifecycle state pair (Table 11-4, code 0x04). -/
def noPairing (persona lifecycle : Nat) : Bool := persona == 1 || noPair lifecycle

/-- The code of Table 16-2 by which the items exchanged with a partner refuse the pairing, 0 when they match; what Table 11-3 forbids comes
first (R310, R311). `open_` says the answering side is SOLO with PAIR_EN = 1. -/
def State.pairWhy (s : State) (p : Partner) (open_ : Bool) : Nat :=
  if noPairing s.persona s.lifecycle || noPairing p.persona p.lifecycle then 6
  else if !open_ then 2
  else if s.rd R.SEC_FW_VER ≠ BitVec.ofNat 32 p.version then 3
  else if s.persona ≠ p.persona then 4
  else if p.digest ≠ s.pairDigest then 5
  else 0

/-- A pairing refused with a code: FAIL_WHY 6 is refusal code 0x04 under R310. -/
def State.pairRefused (s : State) (why : Nat) : State := (if why = 6 then s.modeRefused 4 else s).pairFail why

/-- The pair forms: the epoch, then the role (R397, R399). -/
def State.pairUp (s : State) (p : Partner) (role : Nat) : State :=
  let s := (s.setEpoch (nextEpoch (max s.epoch p.epoch))).setRole role
  let s := (s.set R.MATE_PARTNER F.MATE_PARTNER_DEVNUM p.devnum).setSync 1
  let s := { s with mate := { s.mate with
    linkLost := false, restart := false, promote := false, fwdSeen := [], fwdHold := []
    sbLost := !s.flag R.MATE_STAT F.MATE_STAT_SB_ALIVE } }
  s.raise Hist.mate F.MATE_HIST_PAIR_OK

/-- MATE_PAIR after the checks common to all: refused at once where Table 11-3 lets either device not pair, though its link stays idle (R311), or by
a link that is down; with the partner's
answer, decided by it; with none, in flight until the answer is overdue. -/
def pairBody (h : Hdr) (p : Option Partner) (s : State) : Adm :=
  if s.role ≠ 0 then denied 5
  else if noPairing s.persona s.lifecycle || (p.any fun p => noPairing p.persona p.lifecycle) then .deny 7 (s.pairRefused 6)
  else if !s.flag R.MATE_STAT F.MATE_STAT_LINK_UP then .deny 6 (s.pairRefused 1)
  else match p with
    | none => if s.entriesFree 1 then .yes (s.addOp h 0 .pair).2 else short 9
    | some p =>
      let why := s.pairWhy p (p.solo && p.pairEn)
      if why ≠ 0 then .deny (if why = 6 then 7 else 6) (s.pairRefused why)
      else if !s.entriesFree 1 then short 9
      else .yes ((s.ok h 0).pairUp p 1)

/-- MATE_PAIR. -/
def execMatePair (h : Hdr) (p : Option Partner) (s : State) : Host.Outcome State Fault Refusal :=
  .next (s.desc (mateRule (.not [1, 2, 3])) h fun s1 =>
    if bytesAt (s.headRaw h.ring) 16 1 = 0 then pairBody h p s1 else bad 16)

/-- PAIRING_TIMEOUT. -/
def execPairingTimeout (s : State) : Host.Outcome State Fault Refusal :=
  .next (
    match s.host.ops.find? fun o => o.body == .pair with
    | some o => (s.pairRefused 7).finish o.id { status := 5, result := some 6 }
    | none => s)

/-- PAIR_REQUEST_RECEIVE: the answering side of a pairing. -/
def execPairRequestReceive (p : Partner) (s : State) : Host.Outcome State Fault Refusal :=
  .next (
    if s.mateOff || !s.flag R.MATE_STAT F.MATE_STAT_LINK_UP || s.role != 0 then s
    else
      let why := s.pairWhy p (s.flag R.MATE_CTL F.MATE_CTL_PAIR_EN)
      if why ≠ 0 then s.pairRefused why else s.pairUp p 2)

/-! ### Detach, hand-over, partner reset (R400, R405, R406) -/

/-- MATE_DETACH. -/
def execMateDetach (h : Hdr) (s : State) : Host.Outcome State Fault Refusal :=
  .next (s.desc (mateRule (.is 1)) h fun s =>
    if s.role = 0 then denied 5 else if s.entriesFree 1 then .yes ((s.ok h 0).detach) else short 9)

/-- DETACH_RECEIVE. -/
def execDetachReceive (s : State) : Host.Outcome State Fault Refusal := .next s.detach

/-- A condition of Table 16-3 keeps the partner out of reach. -/
def State.apart (s : State) : Bool :=
  s.flag R.MATE_STAT F.MATE_STAT_ISOLATED || s.flag R.MATE_STAT F.MATE_STAT_PARTNER_LOST

/-- MATE_HANDOVER: `ready` is the STANDBY's CHANGEOVER_READY, `refBad` says its selector is in FREERUN or HOLDOVER. -/
def execMateHandover (h : Hdr) (ready refBad : Bool) (s : State) : Host.Outcome State Fault Refusal :=
  .next (s.desc (mateRule (.is 2)) h fun s =>
    if s.role != 1 || s.apart then denied 5
    else if refBad then .deny 5 (s.modeRefused 6)
    else if !ready then denied 5
    else if !s.entriesFree 1 then short 9
    else .yes (s.addOp h 0 (.handover (s.now + 1000 * ticksPerUs))).2)

/-- The instant a hand-over swaps the roles: the first reference frame boundary at least 1 ms after acceptance. -/
def State.swapAt (s : State) (after : Nat) : Nat := firstAt 0 (rateD s.leapRate) after

/-- HANDOVER_SWAP: on the PRIMARY it ends the hand-over in flight, which completes ABORTED where the pair has come apart since; on the
STANDBY it is the swap the PRIMARY announced. -/
def execHandoverSwap (t : Nat) (s : State) : Host.Outcome State Fault Refusal :=
  .next (
    let s := s.at_ t
    let op := s.host.ops.findSome? fun o => match o.body with
      | .handover a => some (o.id, a)
      | _ => none
    match op with
    | some (id, a) =>
      if t < s.swapAt a then s
      else if s.role != 1 || s.apart then s.finish id { status := 6 }
      else
        let s := (s.setEpoch (nextEpoch s.epoch)).setRole 2
        (s.clearAwait).finish id { status := 0 }
    | none =>
      if s.role != 2 || s.apart then s
      else (((s.setEpoch (nextEpoch s.epoch)).setRole 1).readyFall))

/-- MATE_RESET_PARTNER: `taken` says the partner's RESET_ACCEPT is 1 and its reset has begun. -/
def execMateResetPartner (h : Hdr) (taken : Bool) (s : State) : Host.Outcome State Fault Refusal :=
  .next (s.desc (mateRule (.is 3)) h fun s =>
    if s.role == 0 || !s.flag R.MATE_STAT F.MATE_STAT_LINK_UP || !taken then denied 5
    else if s.entriesFree 1 then .yes (s.ok h 0) else short 9)

/-! ### Paths (R395, R396, R403) -/

/-- HEARTBEAT_SEND: a frame goes out and MATE_ALIVE_OUT toggles; none in LV personality, in END, or while a cold reset runs. -/
def execHeartbeatSend (s : State) : Host.Outcome State Fault Refusal :=
  .next (if s.persona = 1 ∨ s.lifecycle = 4 ∨ s.rst.cold ∨ (s.rst.plane ∧ !s.rst.warmRun) then s else { s with mate := { s.mate with alive := !s.mate.alive } })

/-- HEARTBEAT_RECEIVE: on the link with its RESTARTING flag, or an edge on the sideband; `missed` heartbeats before it on its path have not
been counted yet. A path that was lost is back with the sideband's edge here, with MATE_LINK_UP for the link. -/
def execHeartbeatReceive (link : Bool) (restarting : Bool) (missed : Nat) (s : State) : Host.Outcome State Fault Refusal :=
  .next (
    if s.persona = 1 ∨ s.lifecycle = 4 then s
    else if link then
      if !s.flag R.MATE_STAT F.MATE_STAT_LINK_UP then s
      else
        let was := s.flag R.MATE_STAT F.MATE_STAT_PARTNER_RESTARTING
        let s := (s.count R.MATE_HB_MISS_CNT missed).setB R.MATE_STAT F.MATE_STAT_PARTNER_RESTARTING restarting
        if restarting then (if !was && s.role == 1 then s.clearAwait.setSync 1 else s)
        else ({ s with mate := { s.mate with restart := false } }).mateCond
    else ((({ s with mate := { s.mate with sbLost := false } }).count R.MATE_HB_MISS_CNT missed).set R.MATE_STAT F.MATE_STAT_SB_ALIVE 1).mateCond)

/-- The sideband is lost: eight heartbeats have been missed on it. -/
def State.sbDown (s : State) : State :=
  let s := ({ s.count R.MATE_HB_MISS_CNT 8 with mate := { s.mate with sbLost := true } }).set R.MATE_STAT F.MATE_STAT_SB_ALIVE 0
  (s.raise Hist.mate F.MATE_HIST_SB_LOST).mateCond

/-- PATH_LOST: eight heartbeats missed on a path (R396). -/
def execPathLost (link : Bool) (t : Nat) (s : State) : Host.Outcome State Fault Refusal :=
  .next (
    let s := s.at_ t
    if s.persona = 1 ∨ s.lifecycle = 4 ∨ (if link then s.mate.linkLost else s.mate.sbLost) then s
    else
      if link then ({ s.count R.MATE_HB_MISS_CNT 8 with mate := { s.mate with linkLost := true } }).mateCond else s.sbDown)

/-- PARTNER_RESTART_TIMEOUT: a STANDBY takes a restart of more than 500 ms as both paths lost. -/
def execPartnerRestartTimeout (t : Nat) (s : State) : Host.Outcome State Fault Refusal :=
  .next (
    let s := s.at_ t
    if s.role = 2 ∧ s.flag R.MATE_STAT F.MATE_STAT_PARTNER_RESTARTING then
      ({ s with mate := { s.mate with restart := true } }).mateCond
    else s)

/-- MATE_LINK_DOWN. -/
def execMateLinkDown (s : State) : Host.Outcome State Fault Refusal :=
  .next (if s.flag R.MATE_STAT F.MATE_STAT_LINK_UP then s.mateDown else s)

/-- This device steps down for a partner that is also PRIMARY (Table 16-3). -/
def State.outranked (s : State) (p : PeerRole) : Bool :=
  s.role == 1 && p.role == 1 && (decide (s.epoch < p.epoch)
    || (s.epoch == p.epoch && decide (p.devnum < s.get R.MATE_DOM_CFG F.MATE_DOM_CFG_DEVNUM)))

/-- MATE_LINK_UP: the roles are reconciled and the STANDBY resynchronises. -/
def execMateLinkUp (p : PeerRole) (s : State) : Host.Outcome State Fault Refusal :=
  .next (
    if s.mateOff || (s.flag R.MATE_STAT F.MATE_STAT_LINK_UP && !s.mate.linkLost) then s
    else
      let s := (({ s with mate := { s.mate with linkLost := false } }).set R.MATE_STAT F.MATE_STAT_LINK_UP 1).mateCond
      if s.role = 0 then s
      else
        let s := s.set R.MATE_PARTNER F.MATE_PARTNER_DEVNUM p.devnum
        let s := if s.outranked p then
            ((s.setEpoch p.epoch).setRole 2).raise Hist.mate F.MATE_HIST_DEMOTED
          else s
        s.setSync 1)

/-- SIDEBAND_LOST. -/
def execSidebandLost (s : State) : Host.Outcome State Fault Refusal :=
  .next (if s.persona = 1 ∨ s.lifecycle = 4 ∨ s.mate.sbLost then s else s.sbDown)

/-- TIME_EXCHANGE: the STANDBY's offset from the PRIMARY, and whether both selectors are in TRACK on inputs fed from one reference
(R402). -/
def execTimeExchange (skew : Int) (bothTrack : Bool) (s : State) : Host.Outcome State Fault Refusal :=
  .next (
    if s.role ≠ 2 ∨ s.mate.linkLost ∨ !s.flag R.MATE_STAT F.MATE_STAT_LINK_UP then s
    else
      let s := s.wrInt R.MATE_SKEW skew
      let lim := max 1 (s.get R.MATE_CTL F.MATE_CTL_ALIGN_LIMIT)
      let track := s.get R.REF_STAT F.REF_STAT_STATE = 2
      if s.sync = 2 ∧ bothTrack ∧ track ∧ skew.natAbs ≤ lim then s.set R.MATE_STAT F.MATE_STAT_CHANGEOVER_READY 1 else s.readyFall)

/-! ### Forwarding and state transfer (R399, R401, R312) -/

/-- A forwarded LV take: the image is mirrored, and the outputs the take covers latch and switch at the PRIMARY's switch points (R312). -/
def State.lvMirror (s : State) (outs : List (Nat × Option Nat)) (sel ctl : List Nat) (t : Nat) : State :=
  let s := (List.range 32).foldl (fun (s : State) o =>
    let s := s.setLvReg (128 + o) (BitVec.ofNat 16 ((sel[o]?).getD 0))
    let s := s.setLvReg (384 + o) (BitVec.ofNat 16 ((ctl[o]?).getD 0))
    s.txPower (s.lvDst o) (decide (s.outCtl o < 32768)) false t) s
  let k := s.lv.nextTk
  let s := { s with lv := { s.lv with nextTk := k + 1, takes := s.lv.takes ++ [k] } }
  let l := outs.filter fun p => decide (p.1 < 32)
  let s := l.foldl (fun (s : State) p => (s.lvLatchOut k p.1).lvSetDue p.1 p.2) s
  (l.filter fun p => p.2.isNone).foldl (fun (s : State) p => s.lvSwitch p.1 t) s.lvTakesDone

/-- The checks and effect of a forwarded operation on the STANDBY: those of its opcode from the parameters on. -/
def fwdAdm (h : Hdr) (op : FwdOp) (s : State) : Adm :=
  match op with
  | .routeSet d x => routeBody h d x s
  | .takeAt d x => routeBody h d x s
  | .salvo l => salvoBody h l s
  | .salvoCancel r tag => cancelBody h r tag s
  | .routeSync c => chainBody h c none s
  | .routeConvert c v => chainBody h c (some v) s
  | .bufAlloc depth fmt pix cdesc cw => bufAllocBody h depth fmt pix cdesc cw s
  | .bufFree r => bufFreeBody h r s
  | .bufWrite b data => bufWriteBody h b data s
  | .ctxAdmit r e off v => ctxAdmitBody h r e off v s
  | .ctxParam c mask off v => ctxParamBody h c mask off v s
  | .ctxRelease u n => ctxReleaseBody h u n s
  | .souCfg r => souCfgBody h r s
  | .souCommit u => souCommitBody h u s
  | .audMap a => audMapBody h a s
  | .audFade a => audFadeBody h a s
  | .sapCfg r => sapCfgBody h r s
  | .flowRxCfg f => flowBody true h f s
  | .flowTxCfg f => flowBody false h f s
  | .persistPut first count data => persistPutBody h first count 0 data s
  | .keyPin slot key => keyPinBody h slot 0 key 0 s
  | .keyUnpin slot => keyUnpinBody h slot s
  | .signing on => signingBody h on s
  | .domainKey key => domKeyBody h key.isSome 0 key s
  | .lvTake outs sel ctl => .yes (s.lvMirror outs sel ctl s.now)
  | .persistStore fail => persistStoreBody h fail s
  | .logCheckpoint => checkpointBody h 0 true s
  | .primaryOnly => .yes s

/-- Run a forwarded operation: whether it was admitted; none when its admission waits for VDD_CORE to be raised. -/
def State.runFwd (s : State) (h : Hdr) (op : FwdOp) : Option (Bool × State) :=
  let back := fun (s : State) => { s with host := { s.host with fwdNow := false } }
  match fwdAdm h op { s with host := { s.host with fwdNow := true } } with
  | .yes s' => if s.isReady ∧ s'.inflight ≤ 16384 then some (true, back s') else some (false, s)
  | .wait => none
  | _ => some (false, s)

/-- The key under which an admission of a forwarded operation waits for a raise. -/
def fwdKey (num : Nat) : Nat × Nat := (64, num)

/-- An admission of a forwarded operation waits: it is presented again after the next step of the regulator (R325). -/
def State.fwdWait (s : State) (num : Nat) : State :=
  { s with hsf := { s.hsf with raising := some (fwdKey num) } }.set R.HSF_VSTAT F.HSF_VSTAT_STATE 3

/-- No other admission waits for a raise. -/
def State.fwdFree (s : State) (num : Nat) : Bool := s.hsf.raising.isNone || s.hsf.raising == some (fwdKey num)

/-- A forward number is taken. -/
def State.fwdSee (s : State) (num : Nat) : State := { s with mate := { s.mate with fwdSeen := s.mate.fwdSeen ++ [num] } }

/-- An operation that arrives during a state transfer is kept for later. -/
def State.fwdKeep (s : State) (h : Hdr) (op : FwdOp) : State := { s with mate := { s.mate with fwdHold := s.mate.fwdHold ++ [(h, op)] } }

/-- The operator sequence number that comes with a forwarded operation is recorded. -/
def State.fwdSeq (s : State) (seq : Option (Nat × Nat)) : State :=
  match seq with
  | some q => if s.lastSeq q.1 < q.2 then s.recordSeq q.1 q.2 else s
  | none => s

/-- What running forwarded operation `num` made of the state: `s0` is the state before it arrived. -/
def State.fwdEnd (s0 : State) (num : Nat) : Option (Bool × State) → State
  | none => s0.fwdWait num
  | some (ok, s) => if ok then (s0.accept s).fwdSee num else s.raiseOver.syncFail.fwdSee num

/-- A forwarded operation is not taken: the device is no STANDBY with its link up, or the number was seen before, or another admission
waits for a raise. -/
def State.fwdRefuses (s : State) (num : Nat) : Bool :=
  s.role != 2 || s.apart || !s.flag R.MATE_STAT F.MATE_STAT_LINK_UP || s.mate.fwdSeen.contains num || !s.fwdFree num

/-- FORWARD_RECEIVE: each forward number is executed once; during a state transfer it is kept for later. -/
def execForwardReceive (num : Nat) (h : Hdr) (seq : Option (Nat × Nat)) (op : FwdOp) (s : State) : Host.Outcome State Fault Refusal :=
  .next (
    if s.fwdRefuses num then s
    else if ((s.at_ h.t).fwdSeq seq).sync = 1 then (((s.at_ h.t).fwdSeq seq).fwdSee num).fwdKeep h op
    else s.fwdEnd num (((s.at_ h.t).fwdSeq seq).runFwd h op))

/-- Apply a list of forwarded operations in order: whether every one was admitted. -/
def State.runFwds (s : State) : List (Hdr × FwdOp) → Option (Bool × State)
  | [] => some (true, s)
  | (h, op) :: l =>
    match s.runFwd { h with t := s.now } op with
    | none => none
    | some (ok, s) => (s.runFwds l).map fun r => (ok && r.1, r.2)

/-- STATE_TRANSFER_DONE: the STANDBY admits each item, then the operations forwarded meanwhile in their order, and SYNC reads SYNCED or
NOT_READY; on the PRIMARY SYNC follows. -/
def execStateTransferDone (items : List (Hdr × FwdOp)) (t : Nat) (s : State) : Host.Outcome State Fault Refusal :=
  .next (
    if s.sync ≠ 1 ∨ s.apart then s
    else if s.role = 1 then s.setSync 2
    else if s.role ≠ 2 ∨ !s.fwdFree 0 then s
    else match (s.at_ t).runFwds (items ++ s.mate.fwdHold) with
      | none => s.fwdWait 0
      | some (ok, s') =>
        let s := { s.accept s' with mate := { s'.mate with fwdHold := [] } }
        if ok then s.setSync 2 else s.syncFail)

/-- The PRIMARY waits no more for the acknowledgement of forwarded operation `id`. -/
def State.fwdAnswered (s : State) (id : Nat) : State :=
  ({ s with mate := { s.mate with await := s.mate.await.erase id, fwdRfn := s.mate.fwdRfn.filter fun p => p.1 != id } } : State).dropDiscarded

/-- FORWARD_ACK. -/
def execForwardAck (id : Nat) (s : State) : Host.Outcome State Fault Refusal :=
  .next ((s.fwdAnswered id).lvTakesDone)

/-- FORWARD_ACK_TIMEOUT: the PRIMARY posts anyway, and the STANDBY returns to SYNCING. -/
def execForwardAckTimeout (id : Nat) (s : State) : Host.Outcome State Fault Refusal :=
  .next (
    if s.role = 1 ∧ s.mate.await.contains id then
      let s := (s.fwdAnswered id).lvTakesDone
      (s.raise Hist.mate F.MATE_HIST_FWD_LATE).setSync 1
    else s)

/-! ### The system domain (R408 to R411) -/

/-- The device has joined the domain: EN = 1 and a domain key. -/
def State.inDomain (s : State) : Bool := s.flag R.MATE_DOM_CFG F.MATE_DOM_CFG_EN && s.sec.domKey.isSome

/-- A byte of a domain message's descriptor. -/
def domByte (d : DomDesc) (i : Nat) : Nat := ((d.raw[i]?).getD 0).toNat
/-- A little-endian field of a domain message's descriptor. -/
def domField (d : DomDesc) (i n : Nat) : Nat := unle ((d.raw.drop i).take n)

/-- Opcodes that a domain message may carry: NOP, ROUTE_SET, TAKE_AT, SALVO_CANCEL, SOU_COMMIT, AUD_FADE and CTX_RELEASE. -/
def domOpcodes : List Nat := [0x01, 0x02, 0x03, 0x05, 0x41, 0x51, 0x21]

/-- The lowest byte offset of the message's descriptors that R410 refuses; `e` is the EPOCH of the first. -/
def domBad (e : Nat) : List DomDesc → Nat → Option Nat
  | [], _ => none
  | d :: l, i =>
    if !domOpcodes.contains (domByte d 0) then some (64 * i)
    else if domByte d 1 / 4 % 4 ≠ 0 then some (64 * i + 1)
    else if domField d 4 4 ≠ e then some (64 * i + 4)
    else if domField d 56 8 ≠ 0 then some (64 * i + 56)
    else domBad e l (i + 1)

/-- A domain packet with its tag (Table 16-5). -/
def State.domPacket (s : State) (typ tdev tunit epoch b13 id time : Nat) (body : List Byte) : List Byte :=
  let m := le 1 1 ++ le 1 typ ++ le 2 (s.get R.MATE_DOM_CFG F.MATE_DOM_CFG_DEVNUM) ++ le 2 tdev ++ le 2 tunit ++ le 4 epoch
    ++ le 1 s.leapRate ++ le 1 b13 ++ le 2 id ++ le 8 time ++ body
  m ++ digestBytes (Config.kmac (s.sec.domKey.getD []) (m.map BitVec.toNat))

/-- The next send time: greater than the last by at least 1 ns. -/
def State.sendTime (s : State) : Nat := max (s.mate.lastSend + 1) s.nsNow

/-- A packet leaves on the domain's port. -/
def State.domSend (s : State) (b : List Byte) : State :=
  let c := R.MATE_DOM_CFG
  { s with media := { s.media with net := s.media.net
      ++ [.domain (s.get c F.MATE_DOM_CFG_PORT) (s.get c F.MATE_DOM_CFG_SUB) b] } }

/-- DOMAIN_MSG after the checks common to all. -/
def domMsgBody (h : Hdr) (target unit len addr : Nat) (readOk : Bool) (descs : List DomDesc) (s : State) : Adm :=
  if !s.timeValid || !s.inDomain then .no 8 0
  else if len = 0 ∨ 1024 < len ∨ len % 64 ≠ 0 then bad 20
  else if addr % 8 ≠ 0 then bad 24
  else if !readOk then .no 7 1
  else
    let l := descs.take (len / 64)
    let e := ((l.head?).map fun d => domField d 4 4).getD 0
    match domBad e l 0 with
    | some k => badData (some k)
    | none =>
      if !s.entriesFree 1 then short 9
      else
        let id := (s.mate.msgId + 1) % 2 ^ 16
        let time := s.sendTime
        let p := s.domPacket 1 target unit e l.length id time ((l.map (·.raw)).flatten)
        let s := { s with mate := { s.mate with msgId := id, lastSend := time } }
        .yes ((s.domSend p).addOp h 0 (.dom { seq := id, packet := p })).2

/-- DOMAIN_MSG. -/
def execDomainMsg (h : Hdr) (target unit len addr : Nat) (readOk : Bool) (descs : List DomDesc) (s : State) :
    Host.Outcome State Fault Refusal :=
  .next (s.desc { op := 0x80, rfn := 0, pay := [fld 16 2 target, fld 18 2 unit, fld 20 2 len, fld 24 8 addr] } h
    (domMsgBody h target unit len addr readOk descs))

/-- The DOMAIN_MSG in flight with a message identifier. -/
def State.domOp (s : State) (id : Nat) : Option (Nat × DomOp) :=
  s.host.ops.findSome? fun o => match o.body with
    | .dom d => if d.seq = id then some (o.id, d) else none
    | _ => none

/-- DOMAIN_RETRANSMIT: the identical packet again, up to RETRY times; after that no acknowledgement has arrived. -/
def execDomainRetransmit (id : Nat) (s : State) : Host.Outcome State Fault Refusal :=
  .next (
    match s.domOp id with
    | none => s
    | some (o, d) =>
      if d.tries < s.get R.MATE_DOM_TO F.MATE_DOM_TO_RETRY then (s.domSend d.packet).setOp o (.dom { d with tries := d.tries + 1 })
      else s.finish o { status := 6 })

/-- A domain packet with a bad tag is dropped. -/
def State.authFail (s : State) : State := (s.inc R.MATE_DOM_AUTH_CNT).raise Hist.mateDom F.MATE_DOM_HIST_AUTH_FAIL

/-- The result that goes with an acknowledged status (Table 9-6, R411). -/
def ackResult (status epoch : Nat) : Nat :=
  if status = 2 then epoch else if status = 4 then 0xFE + 0xFFFFFFFF * 2 ^ 16 else if status = 5 then 5 else 0

/-- DOMAIN_ACK_RECEIVE. -/
def execDomainAckReceive (tagOk : Bool) (id status epoch : Nat) (s : State) : Host.Outcome State Fault Refusal :=
  .next (
    if !s.inDomain then s
    else if !tagOk then s.authFail
    else match s.domOp id with
      | none => s
      | some (o, _) => s.finish o { status := status, result := some (ackResult status epoch) })

/-- What is remembered of a source device. -/
def State.domSrc (s : State) (n : Nat) : DomSrc := tabGet ⟨0, []⟩ s.mate.domSrc n

/-- The acknowledgement of packet `p` with a status; it carries the present epoch. -/
def State.ackPacket (s : State) (p : DomPkt) (status : Nat) : List Byte :=
  s.domPacket 2 p.src p.tunit s.epoch status p.id s.sendTime []

/-- Acknowledge packet `p` with a status. -/
def State.domAck (s : State) (p : DomPkt) (status : Nat) : State :=
  ({ s with mate := { s.mate with lastSend := s.sendTime } }).domSend (s.ackPacket p status)

/-- Packet `p` lies within ±100 ms of the time base and is later than the last accepted from its source. -/
def State.domFresh (s : State) (p : DomPkt) : Bool :=
  decide (p.time ≤ s.nsNow + 100000000) && decide (s.nsNow ≤ p.time + 100000000) && decide ((s.domSrc p.src).last < p.time)

/-- A packet that passes every check: its descriptors enter DOM_RING, after those croaked there and as there is room. -/
def State.domAccept (s : State) (p : DomPkt) : State :=
  let n := s.get R.MATE_DOM_UDP F.MATE_DOM_UDP_DOM_RING
  let x := s.rst_ n
  let f := p.descs.map fun d => (x.sqTail, (⟨d.raw, true⟩ : Fetched))
  let src := s.domSrc p.src
  let s := ((s.setRst n { x with domQ := x.domQ ++ f }).domEnter n).inc R.MATE_DOM_RX_CNT
  let ids := ((p.id, p.time, s.ackPacket p 0) :: src.ids).take 16
  let s := { s with mate := { s.mate with domSrc := tabPut s.mate.domSrc p.src ⟨p.time, ids⟩ } }
  s.domAck p 0

/-- DOMAIN_PACKET_RECEIVE: the checks of R411 in order. -/
def execDomainPacketReceive (p : DomPkt) (t : Nat) (s : State) : Host.Outcome State Fault Refusal :=
  .next (
    let s := s.at_ t
    let own := p.tdev == s.get R.MATE_DOM_CFG F.MATE_DOM_CFG_DEVNUM
    let unit := p.tdev == 0xFFFF && p.tunit == s.get R.MATE_DOM_UNIT F.MATE_DOM_UNIT_UNIT && s.role != 2
    let n := s.get R.MATE_DOM_UDP F.MATE_DOM_UDP_DOM_RING
    if !s.inDomain then s
    else if !p.tagOk then s.authFail
    else if !own && !unit then s
    else if s.role = 2 then s.domAck p 5
    else if !s.domFresh p then
      match (s.domSrc p.src).ids.find? fun q => q.1 == p.id && q.2.1 == p.time with
      | some q => s.domSend q.2.2
      | none => s.raise Hist.mateDom F.MATE_DOM_HIST_REPLAY
    else if p.rate ≠ s.leapRate then s.domAck p 4
    else if p.epoch ≠ s.epoch then ((s.inc R.MATE_DOM_STALE_CNT).raise Hist.mateDom F.MATE_DOM_HIST_STALE).domAck p 2
    else if s.ringSt n ≠ 1 ∨ !s.timeValid then s.domAck p 8
    else s.domAccept p)

end Sys2Proof.Machine
end

