-- ==== Sys2Proof/Machine/Package.lean ====
section
/-! DEFINITION. Board management and test: telemetry over I2C, the external temperature sensor, boundary scan and the over-temperature
mark (chapter 19, R454 and R455). -/
namespace Sys2Proof.Machine

/-- The I2C target answers from the end of P1. -/
def State.i2cUp (s : State) : Bool := !s.rst.cold || decide (2 ≤ s.phase)

/-- ALARM_N is driven low, once firmware has configured it in P4, while any condition enabled in FLT_CTL holds (R438). -/
def State.alarm (s : State) : Bool :=
  let en := fun (b : Nat) => s.get R.FLT_CTL F.FLT_CTL_ALARM_EN / 2 ^ b % 2 == 1
  s.rst.pads &&
  ((en 0 && s.flt.recs.any fun r => r.st == 3)
    || (en 1 && s.flag R.FLT_HIST F.FLT_HIST_FLT_QUEUE_OVF)
    || (en 2 && (s.flag R.FST_HIST F.FST_HIST_SPARE_EXHAUSTED || s.flag R.HSF_HIST F.HSF_HIST_SPARE_EXHAUSTED))
    || (en 3 && s.flt.recs.any fun r => r.detail / 4 % 4 != 0)
    || (en 4 && (s.flag R.RST_STAT F.RST_STAT_BOOT_FAIL
        || (List.range 13).any fun m => s.flag (R.MTX_MST_STAT m) F.MTX_MST_STAT_HUNG)))

/-! ### Balls through reset (R359 to R363) -/

/-- The device drives RESET_N low: from the trigger of a cold reset until P2 ends, and for at least 1 ms (R362). -/
def State.resetNLow (s : State) : Bool :=
  s.rst.on && ((s.rst.cold && decide (s.phase < 3)) || match s.rst.trig with
    | some t => decide (s.now < t + 1000 * ticksPerUs)
    | none => false)

/-- The boot quad-SPI balls are at high impedance: from the trigger until P3 begins, and while the board holds RESET_N low (R360). -/
def State.bootHighZ (s : State) : Bool := (s.rst.cold && decide (s.phase < 3)) || s.rst.pinLow

/-- The state of a ball: high impedance, a weak pull, driven low or high, or an I/O that firmware has configured. -/
inductive Ball where
  | highZ | pullUp | pullDown | low | high | configured
deriving DecidableEq, Repr

/-- The state PIN_FUSE gives configurable ball `k`; high impedance before the first complete option load (R363). -/
def State.fuseBall (s : State) (k : Nat) : Ball :=
  match s.rst.opt with
  | none => .highZ
  | some o => match o.pinFuse / 4 ^ k % 4 with
    | 0 => .highZ
    | 1 => .pullUp
    | 2 => .pullDown
    | _ => .low

/-- A driven ball's level. -/
def driven (high : Bool) : Ball := if high then .high else .low

/-- The state of configurable ball `k` (R363): GPIO0 to GPIO15, FP_OUT0 to FP_OUT7, MATE_ALIVE_OUT, and ALARM_N, which is open-drain. -/
def State.ball (s : State) (k : Nat) : Ball :=
  if !s.rst.pads then s.fuseBall k
  else if k < 16 then .configured
  else if k < 24 then driven (s.fpBall (k - 16))
  else if k = 24 then driven s.mate.alive
  else if s.alarm then .low else .highZ

/-! ### Telemetry -/

/-- A telemetry register (Table 19-9). -/
def State.tlm (s : State) (cmd : Nat) : BitVec 16 :=
  match cmd with
  | 0 => 0x7272
  | 1 => BitVec.ofInt 16 s.pkg.temp
  | 2 => BitVec.ofNat 16 (s.get R.HSF_VSTAT F.HSF_VSTAT_VDD)
  | 3 => BitVec.ofNat 16 ((if s.pkg.ot then 2 ^ 15 else 0) + (if s.alarm then 2 ^ 14 else 0) + (if s.isReady then 2 ^ 13 else 0)
      + s.phase * 2 ^ 10)
  | 4 => BitVec.ofNat 16 s.pkg.hist
  | _ => 0

/-- I2C_READ. -/
def execI2cRead (cmd : Nat) (s : State) : Host.Outcome State Fault Refusal :=
  .next { s with pkg := { s.pkg with last := if s.i2cUp then some (s.tlm cmd) else none } }

/-- I2C_WRITE: TLM_HIST alone takes a write, its bits cleared by ones. -/
def execI2cWrite (cmd v : Nat) (s : State) : Host.Outcome State Fault Refusal :=
  .next (if s.i2cUp ∧ cmd = 4 then { s with pkg := { s.pkg with hist := s.pkg.hist &&& (3 - v % 4) } } else s)

/-- EXT_TEMP_READ: a value in 1/256 °C, or no acknowledge; the last value stands for 10 s, then holdover falls back to the on-die
sensor. -/
def execExtTempRead (v : Option Int) (t : Nat) (s : State) : Host.Outcome State Fault Refusal :=
  .next (
    let s := s.at_ t
    if !s.flag R.REF_CTL F.REF_CTL_TEMP_SRC then s
    else match v with
      | some x => { s with pkg := { s.pkg with ext := some x, extAt := t } }
      | none => if s.pkg.extAt + 10 * ticksPerSec < t then { s with pkg := { s.pkg with ext := none } } else s)

/-- BOUNDARY_SCAN_INSTRUCTION: boundary scan works in every lifecycle state; a debug instruction only while debug is open (Table 17-3). -/
def execBoundaryScanInstruction (op : Jtag) (s : State) : Host.Outcome State Fault Refusal :=
  .next (
    if op = .debug ∧ s.get R.SEC_STAT F.SEC_STAT_DEBUG = 0 then s
    else { s with pkg := { s.pkg with jtag := op, tdo := if op = .idcode then some 0xB72720F3 else none } })

/-- OVER_TEMPERATURE: above the grade's maximum OT and OT_SEEN set; nothing throttles. -/
def execOverTemperature (temp : Int) (s : State) : Host.Outcome State Fault Refusal := .next (s.senseTemp temp)

end Sys2Proof.Machine
end

