-- ==== Sys2Proof/Machine/Reset.lean ====
section
/-! DEFINITION. Reset and bring-up: the sources, the phases, the warm reset and block-level reset (chapter 14, R355 to R375). -/
namespace Sys2Proof.Machine

/-! ### Sources (R355 to R358, R361, R362) -/

/-- POWER_ON: power good rises for the first time since power was applied. Nothing volatile survives but what the backup registers
hold. -/
def execPowerOn (s : State) : Host.Outcome State Fault Refusal :=
  .next (
    if s.rst.pwrGood then s
    else
      let r := (s.newCause true 1).coldState
      let r := { r with axl := { r.axl with inP0 := [] }, rst := { r.rst with on := true, pwrGood := true, trig := some s.now, loaded := false, opt := none } }
      let r := [R.LVP_WIN, R.SEC_DEVID_LO, R.SEC_DEVID_HI, R.LVP_STAT].foldl
        (fun (r : State) a => r.wr a (resetVal a)) r
      let r := (r.set R.AXL_STAT F.AXL_STAT_VHOLD_OK 0).set R.AXL_STAT F.AXL_STAT_PFAIL 0
      { r with lv := {} }.leaveP0)

/-- BROWN_OUT. -/
def execBrownOut (s : State) : Host.Outcome State Fault Refusal :=
  .next (if s.rst.pwrGood then { s with rst := { s.rst with pwrGood := false } }.coldSource 2 else s)

/-- POWER_GOOD_RETURN: power good rises again after a brown-out. -/
def execPowerGoodReturn (s : State) : Host.Outcome State Fault Refusal :=
  .next (if s.rst.on && !s.rst.pwrGood then { s with rst := { s.rst with pwrGood := true } }.leaveP0 else s)

/-- PIN_RESET. -/
def execPinReset (s : State) : Host.Outcome State Fault Refusal :=
  .next (if s.rst.pinLow then s else { s with rst := { s.rst with pinLow := true } }.coldSource 4)

/-- RESET_N_RELEASE. -/
def execResetNRelease (s : State) : Host.Outcome State Fault Refusal :=
  .next { s with rst := { s.rst with pinLow := false } }.leaveP0

/-- CLOCK_MONITOR_FAIL: the XO and the DRAM and fabric PLL reach cold, the control PLL warm, and then relocks (R356). -/
def execClockMonitorFail (c : ClkMon) (s : State) : Host.Outcome State Fault Refusal :=
  .next (match c with
    | .control =>
      let s := s.warmSource 7
      if s.rst.warmDue || s.rst.warmRun then { s with rst := { s.rst with cclkFail := true } } else s
    | _ => s.coldSource 8)

/-- CCLK_RELOCK_TIMEOUT. -/
def execCclkRelockTimeout (s : State) : Host.Outcome State Fault Refusal :=
  .next (if s.rst.cclkFail then s.coldSource 8 else s)

/-- WATCHDOG_EXPIRY. -/
def execWatchdogExpiry (s : State) : Host.Outcome State Fault Refusal := .next (s.warmSource 4)

/-- SOFTWARE_RESET_REQUEST: a write of RST_SWREQ. -/
def State.softwareResetRequest (s : State) (v : Nat) : State :=
    if v % 2 = 0 then s
    else if v / 2 ^ 24 % 256 = 0xD7 then s.warmSource 5
    else s.raise Hist.rst F.RST_HIST_SWREQ_ERR

/-- `softwareResetRequest` as a write of the host. -/
def execSoftwareResetRequest (v : Nat) (s : State) : Host.Outcome State Fault Refusal := .next (s.byHost R.RST_SWREQ fun s => s.softwareResetRequest v)

/-- DEBUG_RESET_REQUEST: taken while debug is open (Table 17-3). -/
def execDebugResetRequest (s : State) : Host.Outcome State Fault Refusal :=
  .next (if s.get R.SEC_STAT F.SEC_STAT_DEBUG = 0 then s else s.warmSource 6)

/-- MC_LOCKUP. -/
def execMcLockup (s : State) : Host.Outcome State Fault Refusal := .next (s.warmSource 8)

/-- REMOTE_RESET_RECEIVE: taken while the link is up, the pair is formed and RESET_ACCEPT is 1 (R406). -/
def execRemoteResetReceive (s : State) : Host.Outcome State Fault Refusal :=
  .next (
    if s.role ≠ 0 ∧ s.flag R.MATE_STAT F.MATE_STAT_LINK_UP ∧ s.flag R.MATE_CTL F.MATE_CTL_RESET_ACCEPT then
      (s.raise Hist.mate F.MATE_HIST_REMOTE_RESET).warmSource 9
    else s)

/-- RETENTION_VOLTAGE_LOSS: the monitor records the fall for the next P2 (R373). -/
def execRetentionVoltageLoss (s : State) : Host.Outcome State Fault Refusal :=
  .next { s with rst := { s.rst with retMon := true } }

/-! ### P1 to P4 -/

/-- The personality an option set gives (R288). -/
def personaOf (o : OptSet) : Nat :=
  let v := (if o.personaSet then o.personaVal else o.straps) % 4
  if v = 3 then 0 else v

/-- GLB_GRADE as the option load gives it: the fuse is blown once, so a grade once loaded never changes (R3). -/
def State.gradeFuse (s : State) (o : OptSet) : Nat :=
  let g := s.get R.GLB_GRADE F.GLB_GRADE_GRADE
  if g = 0x43 ∨ g = 0x45 then g else if o.gradeE then 0x45 else 0x43

/-- OPTION_LOAD: a P1 attempt that fails, or a complete option set. -/
def execOptionLoad (r : Option OptSet) (s : State) : Host.Outcome State Fault Refusal :=
  .next (
    if !s.rst.cold || s.phase != 1 then s
    else match r with
      | none => s.restartP1
      | some o =>
        let s := (s.set R.LVP_STAT F.LVP_STAT_PERSONA (personaOf o)).setB R.LVP_STAT F.LVP_STAT_FUSED o.personaSet
        let rx := min 40 (o.winFuse % 128)
        let tx := min 40 (o.winFuse / 256 % 128)
        let q := o.winFuse / 65536 % 4
        let s := ((s.set R.LVP_WIN F.LVP_WIN_RX_BASE rx).set R.LVP_WIN F.LVP_WIN_TX_BASE tx).set R.LVP_WIN F.LVP_WIN_AES_Q q
        let s := (s.set R.GLB_GRADE F.GLB_GRADE_GRADE (s.gradeFuse o)).wr2 R.SEC_DEVID_LO R.SEC_DEVID_HI o.devId
        let s := s.setB R.REF_CTL F.REF_CTL_XO_20M o.xo20
        let s := s.wr R.REF_HOLD_UNC (if o.xo20 then 0x138803E8 else 0x00640014)
        { s with
          lv := { s.lv with rxBase := rx, txBase := tx, aesQ := q }
          rst := { s.rst with opt := some o, loaded := true } }.setPhase 2)

/-- RECALL: P2 checks retention, counts the cold reset and loads each record's winning copy; `bad` lists by record and half the newest copies
that fail their check. -/
def execRecallRecords (bad : List (Nat × Bool)) (s : State) : Host.Outcome State Fault Refusal :=
  .next (
    if !s.rst.cold || s.phase != 2 then s
    else
      let s := s.retention.inc R.RST_COLD_CNT
      let s := bad.foldl (fun (s : State) b => s.spoil b.1 (if b.2 then 1 else 0)) s
      let s := (List.range 81).foldl State.recallRec s
      let s := (s.recallKey 0).recallKey 1
      let s := (s.set R.AXL_STAT F.AXL_STAT_SRAM_VALID 1).set R.AXL_STAT F.AXL_STAT_STATE (if s.lifecycle = 4 then 5 else 0)
      let s := { s with host := { s.host with linkUp := !s.host.perst } }
      s.newNonce.setPhase 3)

/-- The island answers configuration requests: the host enables Memory Space at once where the link is up (R364; DESIGN CHOICE, assumption 202). A
function whose PERST_N is still low has its crossing group not ready (R336). -/
def State.enumerate (s : State) : State :=
  if s.host.perst then s.set (R.HSF_XSTAT 176) F.HSF_XSTAT_STATE 1
  else { s with host := { s.host with pci := { s.host.pci with mse := true } } }

/-- An image passes up to its anti-rollback check, and whole (R417). -/
def State.imgKey (s : State) (i : Img) : Bool := i.header && i.keyOk && !(i.slot == 0 && s.sec.vk0Gone)
def State.imgSvn (s : State) (i : Img) : Bool := decide (s.get R.SEC_FW F.SEC_FW_SVN_FUSE ≤ i.svn)
def State.imgOk (s : State) (i : Img) : Bool := s.imgKey i && s.imgSvn i && i.verifies && i.bodyOk

/-- ROLLBACK sets for an image tried that fails at the anti-rollback count. -/
def State.rollback (s : State) (i : Img) : State :=
  if s.imgKey i && !s.imgSvn i then s.raise Hist.sec F.SEC_HIST_ROLLBACK else s

/-- Image `n` (0 A, 1 B) boots. -/
def State.bootImg (s : State) (n : Nat) (i : Img) (fallback : Bool) : State :=
  let b := R.RST_BOOT_REC
  let s := (s.set R.RST_STAT F.RST_STAT_IMAGE (n + 1)).setB R.RST_STAT F.RST_STAT_FALLBACK fallback
  let s := if fallback then s.raise Hist.rst F.RST_HIST_BOOT_FALLBACK else s
  let s := (s.set b F.RST_BOOT_REC_LAST n).set R.SEC_FW F.SEC_FW_SVN i.svn
  let s := s.wr R.SEC_FW_VER (BitVec.ofNat 32 i.version)
  let trial := s.flag b F.RST_BOOT_REC_TRIAL && s.get b F.RST_BOOT_REC_PREF == n
  { s with rst := { s.rst with trialRun := trial, revoke0 := i.revoke0 && i.slot == 1, imgBad := false, image := some i } }.setPhase 4

/-- BOOT_IMAGE_VERIFY: P3 tries the images by R366 and R417; when neither passes the device stays in P3, and after a cold reset the PCIe
island completes the enumeration duties of P4 alone (R367). -/
def execBootImageVerify (a b : Img) (s : State) : Host.Outcome State Fault Refusal :=
  .next (
    if !(s.rst.cold || s.rst.warmRun) || s.phase != 3 || s.flag R.RST_STAT F.RST_STAT_BOOT_FAIL then s
    else
      let r := R.RST_BOOT_REC
      let s := if s.rst.trialRun then
          ({ s with rst := { s.rst with trialRun := false } }.set r F.RST_BOOT_REC_TRIAL 0).set r F.RST_BOOT_REC_PREF
            (1 - s.get r F.RST_BOOT_REC_PREF)
        else s
      let first := if s.causes / 2 ^ 10 % 2 = 1 then 1 - s.get r F.RST_BOOT_REC_LAST else s.get r F.RST_BOOT_REC_PREF
      let img := fun (n : Nat) => if n = 0 then a else b
      let s := s.rollback (img first)
      if s.imgOk (img first) && !s.rst.imgBad then s.bootImg first (img first) false
      else
        let s := s.rollback (img (1 - first))
        if s.imgOk (img (1 - first)) then s.bootImg (1 - first) (img (1 - first)) true
        else
          let s := s.set R.RST_STAT F.RST_STAT_BOOT_FAIL 1
          if s.rst.cold then s.enumerate else s)

/-- A region of the access tables: enabled, with its pages and permissions. -/
def State.setRegion (s : State) (t r base limit lo hi : Nat) : State :=
  let s := (s.set (R.MTX_RGN_BASE t r) F.MTX_RGN_BASE_EN 1).set (R.MTX_RGN_BASE t r) F.MTX_RGN_BASE_BASE base
  let s := s.set (R.MTX_RGN_LIMIT t r) F.MTX_RGN_LIMIT_LIMIT limit
  (s.set (R.MTX_RGN_PERM_LO t r) F.MTX_RGN_PERM_LO_PERM lo).set (R.MTX_RGN_PERM_HI t r) F.MTX_RGN_PERM_HI_PERM hi

/-- The permissions of masters 0 to 9 with master `m` given `p`. -/
def withPerm (lo m p : Nat) : Nat := lo - lo / 8 ^ m % 8 * 8 ^ m + p * 8 ^ m

/-- P4 narrows the host's access in LV personality (R348): regions 1 to 3 of PBC are the GLB page, the LVP block, read-only, and the RNG
block with the MSI-X table and pending bits; elsewhere on PBC, the matrix tables of region 0 included, and on PB0 to PB3 the host has none. -/
def State.narrow (s : State) : State :=
  if s.persona ≠ 1 then s
  else
    let lo := s.get (R.MTX_RGN_PERM_LO 7 7) F.MTX_RGN_PERM_LO_PERM
    let hi := s.get (R.MTX_RGN_PERM_HI 7 7) F.MTX_RGN_PERM_HI_PERM
    let s := s.setRegion 7 1 0x40000 0x40000 lo hi
    let s := s.setRegion 7 2 0x400A0 0x400AF (withPerm lo 6 1) hi
    let s := s.setRegion 7 3 0x43000 0x4301F lo hi
    let z := R.MTX_RGN_PERM_LO 7 0
    let s := s.set z F.MTX_RGN_PERM_LO_PERM (withPerm (s.get z F.MTX_RGN_PERM_LO_PERM) 6 0)
    [7, 8, 9, 10, 11].foldl (fun (s : State) t =>
      let a := R.MTX_RGN_PERM_LO t 7
      s.set a F.MTX_RGN_PERM_LO_PERM (withPerm (s.get a F.MTX_RGN_PERM_LO_PERM) 6 0)) s

/-- What firmware commands of the regulator in P4 (R328): VPROG, or in END the voltage held there; nothing while the power-fail detector
has tripped. -/
def State.p4Voltage (s : State) : State :=
  if s.flag R.AXL_STAT F.AXL_STAT_PFAIL then s.setVState 5
  else if s.lifecycle = 4 then (s.set R.HSF_VSTAT F.HSF_VSTAT_VDD (if s.adaptive then 620 else s.vProg)).setVState 6
  else (s.set R.HSF_VSTAT F.HSF_VSTAT_VDD s.vProg).setVState 0

/-- P4 of a cold reset ends: firmware configures the balls of R363 (DESIGN CHOICE, assumption 203), and the function is enumerated. -/
def State.coldUp (s : State) (t : Nat) : State :=
  let s := s.p4Voltage.narrow.enumerate
  let s := { s with rst := { s.rst with cold := false, pads := true } }
  let s := s.logWith (s.rd R.RST_CAUSE).toNat 8 0 0 (if s.sec.logGap then (Config.secCode 5).toNat else 0) 0 0 s.rfnNow 0xFF
  let s : State := { s.endRma with lv := { s.lv with answers := s.lvOn } }
  if s.lifecycle = 4 then s else s.lvHold t

/-- Entries made while the control side was in reset enter the route log (R91). -/
def State.flushLog (s : State) : State :=
  let l := s.sec.later
  l.foldl (fun (s : State) (e : LogEntry) => s.logNow e.time e.typ e.origin e.status e.kind e.dst e.src e.rfn e.ring)
    { s with sec := { s.sec with later := [] } }

/-- Deferred block releases whose clock qualified meanwhile take place once the control side is back (R369). -/
def State.lateReleases (s : State) : State :=
  (List.range 10).foldl (fun (s : State) c => (List.range 168).foldl (fun (s : State) i =>
    let a := R.RST_BLK_STAT c i
    if s.flag a F.RST_BLK_STAT_RELEASE_PENDING_CLOCK && s.flag a F.RST_BLK_STAT_CLK_OK then s.releaseBlock c i else s) s) s

/-- P4 of a warm reset ends (E4 of Table 14-4): the crossings run again, the ledger is rebuilt and chains left without take or
destination go (R91, R149). -/
def State.warmUp (s : State) : State :=
  let s := (List.range 250).foldl (fun (s : State) d =>
    if s.get (R.HSF_XSTAT d) F.HSF_XSTAT_STATE = 2 then s.set (R.HSF_XSTAT d) F.HSF_XSTAT_STATE 0 else s) s
  let s := { s with rst := { s.rst with cclkFail := false }, lv := { s.lv with answers := s.lvOn && s.lifecycle != 4 } }
  s.reapAll.flushLog.lateReleases

/-- CONTROL_PLANE_UP. -/
def execControlPlaneUp (t : Nat) (s : State) : Host.Outcome State Fault Refusal :=
  .next (
    if s.phase != 4 then s
    else
      let s := s.at_ t
      if s.rst.cold then (s.coldUp t).setPhase 5
      else if s.rst.warmRun then (s.setPhase 5).warmUp
      else s)

/-! ### P5 -/

/-- Every enabled reference input is LOST and the selector in FREERUN (R230, R238). -/
def State.startRefs (s : State) : State :=
  (List.range 8).foldl (fun (s : State) i => if s.flag (R.REF_IN_CFG i) F.REF_IN_CFG_EN then s.setIn i 1 else s) s

/-- Every synthesizer with EN = 1 starts (R248). -/
def State.startSyns (s : State) : State :=
  (List.range 16).foldl (fun (s : State) n =>
    if s.flag (R.SYN_TS_CTL n) F.SYN_TS_CTL_EN && !s.inReset 6 n then s.synStart n true else s) s

/-- The meters' session is open and stored (R386). -/
def State.openSession (s : State) : State :=
  let s := { s with axl := { s.axl with session := true } }
  s.writeRec 15 (s.recBody 15) true

/-- READY sets: the image's anti-rollback count and revocation take effect unless it is a trial or a fallback (R417). -/
def State.setReady (s : State) : State :=
  let s := (s.set R.RNG_GLB_STAT F.RNG_GLB_STAT_READY 1).set R.RST_STAT F.RST_STAT_WARM_STREAK 0
  let s := { s with lv := { s.lv with ready := true } }
  let firm := !s.flag R.RST_BOOT_REC F.RST_BOOT_REC_TRIAL && !s.flag R.RST_STAT F.RST_STAT_FALLBACK
  let s := if firm then
      let n := max (s.get R.SEC_FW F.SEC_FW_SVN_FUSE) (s.get R.SEC_FW F.SEC_FW_SVN)
      { s with sec := { s.sec with vk0Gone := s.sec.vk0Gone || s.rst.revoke0 } }.set R.SEC_FW F.SEC_FW_SVN_FUSE n
    else s
  { s with rst := { s.rst with trialRun := false } }

/-- The data plane starts, apart from the restore: fenced units stay fenced, references, synthesizers and lanes start, the epoch moves on
(R397). -/
def State.startPlane (s : State) (m : Slack) : State :=
  let s := (s.readSlack m).openSession
  let s := (s.setEpoch (nextEpoch s.epoch)).setRole 0
  let s := s.flt.logged.foldl (fun (s : State) u => (s.fence u 5).2) s
  if s.lifecycle = 4 then s.startSyns.enterEnd
  else (List.range 72).foldl State.txRefresh s.startRefs.startSyns

/-- The data plane stands: READY sets, in a warm reset only with its E5, and what bring-up found is queued as fault records. -/
def State.planeUp (s : State) : State :=
  let s := if s.rst.warmRun then s.raiseOver else s.raiseOver.setReady
  let s := { s with rst := { s.rst with plane := false } }
  s.flt.logged.foldl (fun (s : State) u => s.queueRec u 0x0E) s

/-- The end of the data plane's start from state `s`: it waits for a raise of VDD_CORE, or the plane stands. -/
def State.planeEnd (s : State) : Option State → State
  | none => { s with hsf := { s.hsf with raising := some (65, 0) } }.setVState 3
  | some s => s.planeUp

/-- DATA_PLANE_START: P5 of a cold reset, up to READY, or of the warm reset that struck before then (R358; DEDUCED, assumption 203); it waits while the admission of a stored route waits for VDD_CORE to be raised. -/
def execDataPlaneStart (m : Slack) (t : Nat) (s : State) : Host.Outcome State Fault Refusal :=
  .next (
    if !s.rst.plane || s.phase != 5 || s.rst.warmDue then s
    else s.planeEnd ((s.at_ t).startPlane m).restoreRoutes)

/-! ### Warm reset -/

/-- WARM_RESET: E1 of Table 14-4. -/
def execWarmReset (s : State) : Host.Outcome State Fault Refusal := .next (if s.rst.warmDue then s.warmE1 else s)

/-- A warm reset is over; LV_IRQ_N follows its sources again (R314). -/
def State.warmOver (s : State) : State :=
  { s with rst := { s.rst with warmRun := false }, lv := { s.lv with irqHold := none } }.raise Hist.rst F.RST_HIST_WARM_DONE

/-- WARM_READY: E5 of Table 14-4. -/
def execWarmReady (t : Nat) (s : State) : Host.Outcome State Fault Refusal :=
  .next (
    if !s.rst.warmRun || s.rst.warmDue || s.rst.plane || s.phase != 5 then s
    else
      let s := (s.at_ t).recoverOps.reapAll.setReady.warmOver
      if s.role = 2 then s.setSync 1 else s)

/-! ### Block-level reset (R370 to R372) -/

/-- Blocks of each class. -/
def blockCount (c : Nat) : Nat := ([72, 72, 4, 16, 16, 16, 16, 12, 160, 168])[c]?.getD 0

/-- No AUD_MAP names audio port `n` of endpoint class `k` as a destination (`tx`) or as a source. -/
def State.audUnnamed (s : State) (k n : Nat) (tx rx : Bool) : Bool :=
  let at_ := fun (e : Nat) => epClass e == k && epIndex e == n
  !(s.aud.slots.any (fun p => (tx && at_ p.2.dst) || (rx && at_ p.2.src.ep)) || (rx && s.inSources.any at_)
    || s.maps.any fun p => (tx && at_ p.2.req.dst) || (rx && at_ p.2.req.src))

/-- A block is idle (Table 14-5). -/
def State.blockIdle (s : State) (c i : Nat) : Bool :=
  match c with
  | 0 => !s.flag (R.SDI_RX_CTL i) F.SDI_RX_CTL_EN && !s.feeds i && (s.rx i).group == 0 && !s.rxMember i
      && !(List.range 2).any fun k => s.get (R.REF_IN_CFG (6 + k)) F.REF_IN_CFG_SRC == i && s.flag (R.REF_IN_CFG (6 + k)) F.REF_IN_CFG_EN
  | 1 => !s.flag (R.SDI_TX_CTL i) F.SDI_TX_CTL_EN && (s.route i).isNone
  | 2 => !s.flag (R.QE_CTL i) F.QE_CTL_EN && !(s.media.rxFlow.any fun p => flowOnPort i p.2.rcd) && !s.media.txFlow.any fun p => flowOnPort i p.2.rcd
  | 3 => !s.flag (R.SAP_CTL i) F.SAP_CTL_EN && s.audUnnamed 3 i true true
  | 4 => !s.flag (R.AESI_CTL i) F.AESI_CTL_EN && s.audUnnamed 4 i false true
  | 5 => !s.flag (R.AESO_CTL i) F.AESO_CTL_EN && s.audUnnamed 4 i true false
  | 6 => s.synUsers i == 0
  | 7 => (s.engCtxs i).isEmpty && !s.che.ctx.any fun p => (p.2.moveTo.map (· / 16)) == some i
  | 8 => !(s.unit i).alloc
  | 9 => (s.cw i).ring.isNone
  | _ => false

/-- A block the LV agent drives (R370). -/
def State.blockLv (s : State) (c i : Nat) : Bool := (c == 0 && s.lvRx i) || (c == 1 && s.lvTx i) || (c == 5 && s.lvAes i)

/-- The clock a release waits for is qualified (Table 14-5, R371): `clk` says so of a PLL or of the XO. -/
def State.clockOk (s : State) (c i : Nat) (clk : Bool) : Bool :=
  match c with
  | 3 => if s.flag (R.SAP_CTL i) F.SAP_CTL_MASTER then clk && s.synState (i / 4 * 4 + s.get (R.SAP_CTL i) F.SAP_CTL_SYN) == 3 else clk
  | 5 => clk && s.synState (i / 4 * 4 + s.get (R.AESO_CTL i) F.AESO_CTL_SYN) == 3
  | 7 => true
  | 8 => (s.unit i).active.fmt == 0xFF || (clk && s.synState (i / 40 * 4 + (s.unit i).active.syn) == 3)
  | 9 => true
  | _ => clk

/-- RST_BLK_RES of a write. -/
def State.blkRes (s : State) (c i res : Nat) : State :=
  let a := R.RST_BLK_RES
  ((s.set a F.RST_BLK_RES_RESULT res).set a F.RST_BLK_RES_CLASS c).set a F.RST_BLK_RES_INDEX i

/-- An assert not taken. -/
def State.blkErr (s : State) (c i res : Nat) : State := (s.blkRes c i res).raise Hist.rst F.RST_HIST_BLK_ERR

/-- BLOCK_RESET_ASSERT: a write of RST_BLK_CTL with OP = 01. -/
def State.blockResetAssert (s : State) (v : Nat) : State :=
    let c := v / 2 ^ 24 % 16
    let i := v % 256
    let a := R.RST_BLK_STAT c i
    if v / 2 ^ 30 ≠ 1 then s
    else if blockCount c ≤ i then s.blkErr c i 3
    else if s.blockLv c i then s.blkErr c i 2
    else if s.flag a F.RST_BLK_STAT_RELEASE_PENDING_CLOCK then (s.set a F.RST_BLK_STAT_RELEASE_PENDING_CLOCK 0).blkRes c i 0
    else if !s.blockIdle c i then s.blkErr c i 1
    else (s.holdBlock c i).sdiInputs.blkRes c i 0

/-- `blockResetAssert` as a write of the host. -/
def execBlockResetAssert (v : Nat) (s : State) : Host.Outcome State Fault Refusal := .next (s.byHost R.RST_BLK_CTL fun s => s.blockResetAssert v)

/-- BLOCK_RESET_RELEASE: a write of RST_BLK_CTL with OP = 10; a block that a fence holds stays (R434). -/
def State.blockResetRelease (s : State) (v : Nat) (clk : Bool) : State :=
    let c := v / 2 ^ 24 % 16
    let i := v % 256
    let a := R.RST_BLK_STAT c i
    if v / 2 ^ 30 ≠ 2 then s
    else if blockCount c ≤ i then s.blkRes c i 3
    else if s.blockFenced c i then s.blkRes c i 1
    else if !s.inReset c i then s.blkRes c i 0
    else if s.flag a F.RST_BLK_STAT_RELEASE_PENDING_CLOCK then s.blkRes c i 4
    else if s.clockOk c i clk then ((s.set a F.RST_BLK_STAT_CLK_OK 1).releaseBlock c i).blkRes c i 0
    else ((s.set a F.RST_BLK_STAT_CLK_OK 0).set a F.RST_BLK_STAT_RELEASE_PENDING_CLOCK 1).blkRes c i 4

/-- `blockResetRelease` as a write of the host. -/
def execBlockResetRelease (v : Nat) (clk : Bool) (s : State) : Host.Outcome State Fault Refusal := .next (s.byHost R.RST_BLK_CTL fun s => s.blockResetRelease v clk)

/-- BLOCK_CLOCK_QUALIFIED: the deferred release takes place, or waits for the control side in a warm reset. -/
def execBlockClockQualified (c i : Nat) (s : State) : Host.Outcome State Fault Refusal :=
  .next (
    let a := R.RST_BLK_STAT c i
    if blockCount c ≤ i ∨ !s.flag a F.RST_BLK_STAT_RELEASE_PENDING_CLOCK then s
    else
      let s := s.set a F.RST_BLK_STAT_CLK_OK 1
      if s.phase = 5 then s.releaseBlock c i else s)

end Sys2Proof.Machine
end

