-- ==== Sys2Proof/Machine/RegRead.lean ====
section
/-! DEFINITION. What a read of a register returns (R4, R5): the stored value, with write-only bits zero, or what the units' state
says for the registers that show it; and the snapshots of wide status values (R19). -/
namespace Sys2Proof.Machine

/-- A register value made of fields. -/
def word (l : List (Bits × Nat)) : Word := l.foldl (fun w p => setF p.1 p.2 w) 0

/-- A ratio shown as an integer: whether a part of a unit counts is not stated (assumption 24). -/
def shown (num den : Nat) : Nat := num / den + one (num % den != 0 && Config.roundUp num den)

/-- A register value as bits of a list of truth values, bit 0 first. -/
def bitWord (l : List Bool) : Word := BitVec.ofNat 32 (bits l)

/-! ### Global (Table 11-2) -/

/-- GLB_MODE. -/
def State.rdGlb (s : State) (a : Nat) : Option Word :=
  if a = R.GLB_MODE then some (word [
    (F.GLB_MODE_PERSONA, s.persona), (F.GLB_MODE_ROLE, s.role), (F.GLB_MODE_ISOLATED, s.get R.MATE_STAT F.MATE_STAT_ISOLATED),
    (F.GLB_MODE_SIGN_REQ, one s.signReq), (F.GLB_MODE_REF_STATE, s.get R.REF_STAT F.REF_STAT_STATE),
    (F.GLB_MODE_LIFECYCLE, s.lifecycle), (F.GLB_MODE_ADAPTIVE, one s.adaptive), (F.GLB_MODE_AUTOSTORE, one s.armed),
    (F.GLB_MODE_TIME_VALID, one s.timeValid)])
  else none

/-! ### Reset, matrix and faults -/

/-- RST_BLK_STAT: IDLE is what the block is now (R372). -/
def State.rdRst (s : State) (a : Nat) : Option Word :=
  if R.RST_BLK_STAT 0 0 ≤ a ∧ a < R.RST_BLK_STAT 11 0 then
    let o := a - R.RST_BLK_STAT 0 0
    let c := o / 0x400
    let i := o % 0x400 / 4
    if i < blockCount c then some (setF F.RST_BLK_STAT_IDLE (one (s.blockIdle c i)) (s.rd a)) else none
  else none

/-- MTX_STAT and MTX_MST_STAT (R341, R342). -/
def State.rdMtx (s : State) (a : Nat) : Option Word :=
  if a = R.MTX_STAT then
    some (word [(F.MTX_STAT_PARK, one (s.phase != 5 || s.testing.isSome || s.rst.warmRun))])
  else if R.MTX_MST_STAT 0 ≤ a ∧ a < R.MTX_MST_STAT 16 then
    let m := (a - R.MTX_MST_STAT 0) / 4
    some (setF F.MTX_MST_STAT_IN_RESET (one (s.masterInReset m)) (setF F.MTX_MST_STAT_OUTSTANDING (s.outCount m) (s.rd a)))
  else none

/-- Word `w` of an error record (Table 18-3). -/
def FltRec.word (r : FltRec) (w : Nat) : Nat :=
  let ns := r.time / ticksPerNs
  match w with
  | 0 => r.st * 2 ^ 28 + r.source % 256 * 2 ^ 20 + r.unit % 2 ^ 20
  | 1 => r.seq % 65536 * 65536 + min 255 r.rep * 256 + r.detail % 256
  | 2 => ns % 2 ^ 32
  | _ => min 65535 r.tus * 65536 + ns / 2 ^ 32 % 65536

/-- FLT_STAT, FLT_REC and FLT_UNIT_CNT (Table 18-7). -/
def State.rdFlt (s : State) (a : Nat) : Option Word :=
  if a = R.FLT_STAT then some (word [
    (F.FLT_STAT_TESTING, one s.testing.isSome), (F.FLT_STAT_ALARM, one s.alarm),
    (F.FLT_STAT_LASTING, (s.flt.recs.filter fun r => r.st == 3).length), (F.FLT_STAT_COUNT, s.flt.recs.length)])
  else if R.FLT_REC 0 ≤ a ∧ a ≤ R.FLT_REC 3 then
    let w := (a - R.FLT_REC 0) / 4
    some (match s.flt.recs.find? fun r => r.slot == s.get R.FLT_SEL F.FLT_SEL_SLOT with
      | some r => BitVec.ofNat 32 (r.word w)
      | none => if w = 0 then 0xF0000000 else 0)
  else if a = R.FLT_UNIT_CNT then
    let x := s.fltUnit (s.get R.FLT_UNIT_SEL F.FLT_UNIT_SEL_UNIT)
    some (word [(F.FLT_UNIT_CNT_FENCED, one x.fenced), (F.FLT_UNIT_CNT_RETEST, one x.retest),
      (F.FLT_UNIT_CNT_ERRORS, min 4095 x.errors), (F.FLT_UNIT_CNT_TRANSIENT, min 4095 x.trans)])
  else none

/-! ### References and synthesizers -/

/-- The rate in force relative to the XO (R232): in FREERUN that of REF_XO_CAL, in holdover r(t); while the loop follows an input what it is then,
and while it is frozen what it was (R226). -/
def State.rateNow (s : State) : Word :=
  let st := s.get R.REF_STAT F.REF_STAT_STATE
  if st = 0 then s.rd R.REF_XO_CAL
  else if st = 3 then s.rd R.REF_RATE
  else BitVec.ofInt 32 (if s.ref.frozen then s.ref.held else Config.loopRate s.free s.now)

/-- The time base, the rate in force, and WTR_LEFT of an input (R236, R232, R224). -/
def State.rdRef (s : State) (a : Nat) : Option Word :=
  let sec := s.now / ticksPerSec
  if a = R.REF_TIME_NS then some (BitVec.ofNat 32 (s.now % ticksPerSec / ticksPerNs))
  else if a = R.REF_TIME_SEC_LO then some (BitVec.ofNat 32 sec)
  else if a = R.REF_TIME_SEC_HI then some (BitVec.ofNat 32 (sec / 2 ^ 32 % 65536))
  else if a = R.REF_RATE then some s.rateNow
  else if R.REF_IN_STAT 0 ≤ a ∧ a ≤ R.REF_IN_STAT 7 ∧ (a - R.REF_IN_STAT 0) % 0x20 = 0 then
    some (setF F.REF_IN_STAT_WTR_LEFT (s.wtrLeft ((a - R.REF_IN_STAT 0) / 0x20)) (s.rd a))
  else none

/-- SYN_SUM, and STAT, OFFSET and RESIDUAL of a synthesizer (R256). -/
def State.rdSyn (s : State) (a : Nat) : Option Word :=
  if a = R.SYN_SUM then
    some (bitWord (((List.range 16).map fun t => s.synState t == 3) ++ (List.range 16).map fun t => s.synState t == 4))
  else if R.SYN_TS_CTL 0 ≤ a ∧ a < R.SYN_TS_CTL 16 then
    let t := (a - R.SYN_TS_CTL 0) / 0x100
    if a = R.SYN_TS_STAT t then
      let w := setF F.SYN_TS_STAT_RAMPING (one (s.ramping t)) (s.rd a)
      some (setF F.SYN_TS_STAT_USERS (s.synUsers t) (setF F.SYN_TS_STAT_ABSORBING (one (s.absorbing t)) w))
    else if a = R.SYN_TS_OFFSET t then some (BitVec.ofInt 32 (s.synNow t).2)
    else if a = R.SYN_TS_RESIDUAL t then some (BitVec.ofInt 32 (s.synNow t).1)
    else none
  else none

/-! ### Security, store and fabric -/

/-- The certificate window: the certificate, or the certification request while step 2 of provisioning is awaited (assumption 23). -/
def State.certByte (s : State) (i : Nat) : Nat :=
  match s.sec.csr with
  | some d => (Config.csrByte d i).toNat
  | none => s.sec.cert[i]?.getD 0

/-- SEC_CERT. -/
def State.rdSec (s : State) (a : Nat) : Option Word :=
  if 0x61000 ≤ a ∧ a < 0x62000 then
    some (BitVec.ofNat 32 ((List.range 4).foldl (fun v k => v + s.certByte (a - 0x61000 + k) % 256 * 256 ^ k) 0))
  else none

/-- AXL_STAT: ARMED and the count of dirty records (R381, R379). -/
def State.rdAxl (s : State) (a : Nat) : Option Word :=
  if a = R.AXL_STAT then
    some (setF F.AXL_STAT_DIRTY s.dirtyRecs.length (setF F.AXL_STAT_ARMED (one s.armed) (s.rd a)))
  else none

/-- HSF_FLOOR, rounded up so that a reading meets FLOOR just when it is at least the value shown, and HSF_LOAD in Gb/s, rounded down as
FST_BW is (R320, R323). -/
def State.rdHsf (s : State) (a : Nat) : Option Word :=
  if a = R.HSF_FLOOR then
    let den := 100 * s.ribbons * 256 * 1001000000
    some (BitVec.ofNat 32 (min 65535 ((s.hsfBits * 115 + den - 1) / max 1 den)))
  else if a = R.HSF_LOAD then
    let lim := if s.rst.plane then 0 else if s.byMonitor then s.ribbons * 256 * s.minSlack * 100 * 1000000 / 115
      else s.ribbons * 256 * ribbonRate s.figVdd * 85 * 10000
    some (word [(F.HSF_LOAD_ADMITTED, s.hsfBits / 1001000000000), (F.HSF_LOAD_LIMIT, lim / 1000000000)])
  else none

/-- LVP_STAT: takes and outputs pending (R307). -/
def State.rdLvp (s : State) (a : Nat) : Option Word :=
  if a = R.LVP_STAT then
    some (setF F.LVP_STAT_PENDING s.lv.pend.length (setF F.LVP_STAT_TAKE_PEND (one (!s.lv.takes.isEmpty)) (s.rd a)))
  else none

/-! ### Quadrants -/

/-- Load of a context in Mpixel/s, and its added latency in µs: the worked example of chapter 4 shows the latter to the nearest. -/
def State.ctxWords (s : State) (x : Ctx) : Word × Word :=
  (BitVec.ofNat 32 (shown (s.ctxLoad4 x) 4004000000),
    BitVec.ofNat 32 (((s.ctxFig x).map fun c => (c.latency + ticksPerUs / 2) / ticksPerUs).getD 0))

/-- Code of a context's state (Table 4-7). -/
def CtxState.code : CtxState → Nat
  | .parked => 1
  | .running => 2
  | .orphan => 3
  | .moving => 4

/-- The context slot `k` shows: its own, or the one that moves to it (Table 4-7). -/
def State.slotCtx (s : State) (k : Nat) : Option Ctx :=
  (s.ctx k).or ((s.che.ctx.find? fun p => p.2.moveTo == some k).map (·.2))

/-- Engine registers (Table 4-15); a context that changes format keeps its slot. -/
def State.rdChe (s : State) (e o : Nat) : Option Word :=
  let l := s.engCtxs e
  let n := l.length + (s.che.ctx.filter fun p => (p.2.moveTo.map (· / 16)) == some e).length
  if o = 4 then some (word [
    (F.CHE_STAT_ACTIVE, one (s.flag (R.CHE_CTL e) F.CHE_CTL_EN || n != 0)), (F.CHE_STAT_ADMITTED, n),
    (F.CHE_STAT_RUNNING, (l.filter fun p => p.2.st == .running).length)])
  else if o = 8 then some (word [
    (F.CHE_LOAD_LOAD, shown (s.engLoad4 e) 4004000000), (F.CHE_LOAD_LIMIT, shown (s.cheLimit115 e) 115)])
  else if o = 0x1C then
    let used := fun (b : Nat) => l.any fun p => p.2.st == .running && p.2.par.bank == some b
    some (bitWord (((List.range 4).map fun b => (tabFind (s.eng e).luts b).isSome) ++ (List.range 4).map used))
  else if 0x100 ≤ o ∧ o < 0x200 then
    match s.slotCtx (16 * e + (o - 0x100) / 0x10) with
    | none => none
    | some x =>
      if o % 0x10 = 0 then some (word [
        (F.CHE_CTX_STAT_STATE, x.st.code), (F.CHE_CTX_STAT_CHAIN, one x.chain), (F.CHE_CTX_STAT_CADENCE, x.cadence),
        (F.CHE_CTX_STAT_IN_RING, x.inRing), (F.CHE_CTX_STAT_OUT_RING, x.outRing)])
      else if o % 0x10 = 4 then some (s.ctxWords x).1
      else if o % 0x10 = 0xC then some (s.ctxWords x).2
      else none
  else none

/-- The registers of a layer of a set (Table 5-8). -/
def souLayerWord (l : SouLayer) (o : Nat) : Word :=
  if o = 0 then word [(F.SOU_L_CTL_EN, one l.en), (F.SOU_L_CTL_KEY, l.key), (F.SOU_L_CTL_FIXED, one l.fixed),
    (F.SOU_L_CTL_BUF, l.buf), (F.SOU_L_CTL_OPACITY, l.opacity), (F.SOU_L_CTL_RING, l.ring)]
  else if o = 4 then word [(F.SOU_L_POS_Y, l.y), (F.SOU_L_POS_X, l.x)]
  else if o = 8 then word [(F.SOU_L_KEY_HI, l.hi), (F.SOU_L_KEY_LO, l.lo)]
  else 0

/-- The register of a set at offset `o` from 0x040 (Table 5-8). -/
def souSetWord (x : SouSet) (o : Nat) : Word :=
  if o = 0 then word [(F.SOU_FMT_FORMAT, x.fmt), (F.SOU_FMT_SYN, x.syn), (F.SOU_FMT_OUT_444, one x.out444)]
  else if o = 4 then word [(F.SOU_OFFSET_LINES, x.offLines), (F.SOU_OFFSET_SAMPLES, x.offSamps)]
  else if o = 8 then word [(F.SOU_CMT_FRAME_ONLY, one x.frameOnly), (F.SOU_CMT_CL2, x.cl2), (F.SOU_CMT_CL1, x.cl1)]
  else if o = 0xC then BitVec.ofNat 32 x.bg
  else if o = 0x10 then BitVec.ofNat 32 x.cdesc
  else if 0x20 ≤ o ∧ o < 0x30 then souLayerWord x.l1 (o - 0x20)
  else if 0x30 ≤ o ∧ o < 0x40 then souLayerWord x.l2 (o - 0x30)
  else if 0x40 ≤ o ∧ o < 0x50 then souLayerWord x.l3 (o - 0x40)
  else 0

/-- Index in ring `r` of buffer `h`. -/
def State.bufIndex (s : State) (h : Nat) : Nat :=
  match (s.buf h).bind (·.ring) with
  | some r => h - ((s.ring r).map (·.first)).getD h
  | none => 0

/-- Scan-out registers (Table 5-8). -/
def State.rdSou (s : State) (u o : Nat) : Option Word :=
  let x := s.unit u
  if o = 4 then some (word [
    (F.SOU_STAT_ALLOCATED, one x.alloc), (F.SOU_STAT_CHAIN, one (s.chainOf u).isSome), (F.SOU_STAT_RUNNING, one x.run),
    (F.SOU_STAT_GATED, one x.gated), (F.SOU_STAT_PENDING, one (!(s.commits u).isEmpty)),
    (F.SOU_STAT_URGENCY, max x.urg1 (max x.urg2 x.urg3))])
  else if o = 8 then
    match s.souGrid u, s.fmt? x.active.fmt with
    | some g, some f =>
      let d := (((s.now : Int) - (g.phase : Int)) % (max 1 g.period : Nat)).toNat * (g.lines * f.totS) / max 1 g.period
      some (word [(F.SOU_POS_LINE, d / max 1 f.totS + 1), (F.SOU_POS_SAMPLE, d % max 1 f.totS)])
    | _, _ => some 0
  else if 0x40 ≤ o ∧ o < 0x90 then
    if o = 0x6C ∨ o = 0x7C ∨ o = 0x8C then
      some (match x.sel ((o - 0x5C) / 0x10) with
        | some h => word [(F.SOU_L_SEL_HELD, 1), (F.SOU_L_SEL_BUF, s.bufIndex h)]
        | none => 0)
    else some (souSetWord x.active (o - 0x40))
  else if 0x140 ≤ o ∧ o < 0x190 then some (souSetWord x.pending (o - 0x140))
  else none

/-- Code of a clock tracking state (Table 6-6). -/
def ClkState.code : ClkState → Nat
  | .lost => 0
  | .acquire => 1
  | .steered => 2
  | .wide => 3
  | .locked => 4
  | .master => 5

/-- Tracking state, FIFO fill and offset of a port whose registers lie at `st` and `ofs`. -/
def State.rdClk (s : State) (k : Nat) (keep : Word) (offset : Bool) : Word :=
  let c := s.clkNow k
  if offset then BitVec.ofInt 32 c.off else setF F.SAP_STAT_CLK c.st.code (setF F.SAP_STAT_FIFO c.fifo keep)

/-- Registers of quadrant `q` at offset `w` of its window (R30). -/
def State.rdQuad (s : State) (q w : Nat) : Option Word :=
  let a := quadWin q + w
  if 0x200000 ≤ w ∧ w < 0x203000 then s.rdChe (3 * q + (w - 0x200000) / 0x1000) ((w - 0x200000) % 0x1000)
  else if 0x300000 ≤ w ∧ w < 0x305000 then s.rdSou (40 * q + (w - 0x300000) / 0x200) ((w - 0x300000) % 0x200)
  else if 0x340000 ≤ w ∧ w < 0x340400 then
    let n := 4 * q + (w - 0x340000) / 0x100
    if w % 0x100 = 0x18 then some (s.rdClk n (s.rd a) false) else if w % 0x100 = 0x1C then some (s.rdClk n 0 true) else none
  else if 0x350000 ≤ w ∧ w < 0x350400 then
    let n := 4 * q + (w - 0x350000) / 0x100
    if w % 0x100 = 4 then some (s.rdClk (16 + n) (s.rd a) false)
    else if w % 0x100 = 0x20 then some (s.rdClk (16 + n) 0 true)
    else if w % 0x100 = 0x84 then some (setF F.AESO_STAT_PASSING (one (s.aesPass n)) (s.rd a))
    else none
  else none

/-! ### Crosspoint, audio and frame store -/

/-- Leaps pending: takes that wait for a reference frame number, and those that wait for their untimed changeover (R76, R87). -/
def State.leaps (s : State) : Nat := (s.takes.filter fun p => p.2.rfn != 0).length

/-- Crosspoint registers at offset `o` (Tables 3-8, 5-2, 5-7). -/
def State.rdXpt (s : State) (a o : Nat) : Option Word :=
  if o = 4 then some (setF F.XPT_STAT_LEAPS s.leaps (setF F.XPT_STAT_TIME_VALID (one s.timeValid) (s.rd a)))
  else if o = 8 then some (BitVec.ofNat 32 s.rfnNow)
  else if o = 0xC then some (BitVec.ofNat 32 (s.rfnNow / 2 ^ 32))
  else if 0x100 ≤ o ∧ o < 0x140 then
    let w := (o - 0x100) / 4
    some (bitWord ((List.range 32).map fun b => s.rd (R.XPT_DST_HIST (32 * w + b)) != 0))
  else if 0xB800 ≤ o ∧ o < 0xB840 then
    let w := (o - 0xB800) / 4
    some (bitWord ((List.range 32).map fun b => s.flag (R.XPT_FRZ_STAT (32 * w + b)) F.XPT_FRZ_STAT_FREEZE))
  else if 0x2000 ≤ o ∧ o < 0x4000 then
    let d := (o - 0x2000) / 0x10
    if o % 0x10 = 0 then
      let r := s.route d
      let raw := tabGet 0 s.xpt.raw d
      some (word [(F.XPT_DST_ROUTE_VALID, one r.isSome), (F.XPT_DST_ROUTE_KIND, (r.map (·.kind)).getD (raw / 2 ^ 28)),
        (F.XPT_DST_ROUTE_OWNER_LV, one (s.lvOwned d)), (F.XPT_DST_ROUTE_SOURCE, (r.map (·.src)).getD (raw % 2 ^ 28))])
    else if o % 0x10 = 8 then
      some (word [(F.XPT_DST_STAT_REF_TIMED, one (s.refTimed d)),
        (F.XPT_DST_STAT_PENDING, one (s.takes.any fun p => p.2.dst == d && p.2.rfn == 0)),
        (F.XPT_DST_STAT_ACTIVE, one (s.dstGrid d).isSome)])
    else none
  else if 0xA000 ≤ o ∧ o < 0xA200 ∧ o % 0x20 = 0x10 then
    let m := (o - 0xA000) / 0x20
    some (setF F.XPT_UFMT_STAT_VALID (one (tabFind s.xpt.ufmt m).isSome)
      (setF F.XPT_UFMT_STAT_IN_USE (one (s.ufmtInUse (0x40 + m))) (s.rd a)))
  else none

/-- Audio path latency of Table 6-4 from an endpoint to an endpoint, in ticks. -/
def State.audPathTicks (s : State) (src dst : Nat) : Nat :=
  let line := fun (f : Nat) => ((s.fmt? f).map fun f => f.period / f.totL).getD 0
  let fifo := if epClass src = 0 ∨ epClass src = 5 ∨ epClass src = 6 then 0 else 32 * audT
  let inp := if epClass src = 1 then line (s.srcFmt (epIndex src))
    else if epClass src = 2 then max 2 (min 80 (s.get R.AUD_CTL F.AUD_CTL_LINK_OFS)) * 125 * ticksPerUs
    else 0
  let out := if epClass dst = 1 then 2 * line (((s.route (epIndex dst)).map fun r => s.srcFmt r.src).getD 0xFF)
    else if epClass dst = 2 then
      match tabFind s.media.txFlow (1024 + epIndex dst) with
      | some f => if f.rcd.us125 then 125 * ticksPerUs else 1000 * ticksPerUs
      | none => 0
    else if epClass dst = 3 then (if s.flag (R.SAP_CTL (epIndex dst)) F.SAP_CTL_MASTER then 2 else 32) * audT
    else if epClass dst = 4 then 2 * audT
    else 0
  fifo + inp + 2 * audT + out

/-- The output slot that slot number `o` shows: a channel at 96 kHz shows in two. -/
def State.slotAt (s : State) (o : Nat) : Option Slot :=
  match tabFind s.aud.slots o with
  | some x => some x
  | none => if o = 0 then none else (tabFind s.aud.slots (o - 1)).bind fun x => if x.rate96 then some x else none

/-- Audio registers at offset `o` (Table 6-9). -/
def State.rdAud (s : State) (o : Nat) : Option Word :=
  if o = 4 then some (word [(F.AUD_STAT_OUT_SLOTS, s.outSlots), (F.AUD_STAT_IN_SLOTS, s.inSlots)])
  else if o = 8 then some (word [(F.AUD_DELAY_BLOCKS, s.audBlocks), (F.AUD_DELAY_GRANULES, s.fst.audioGr.length)])
  else if 0x3000 ≤ o ∧ o < 0x3280 then
    some (match tabFind s.aud.paths ((o - 0x3000) / 4) with
      | some p => word [(F.AUD_PATH_VALID, one (!p.eps.isEmpty)), (F.AUD_PATH_SHORT, one p.short), (F.AUD_PATH_DELAY, p.delay)]
      | none => 0)
  else if 0x10000 ≤ o ∧ o < 0x20000 then
    match s.slotAt ((o - 0x10000) / 0x10) with
    | none => some 0
    | some x =>
      if o % 0x10 = 0 then some (word [
        (F.AUD_SLOT_DST_VALID, 1), (F.AUD_SLOT_DST_RATE96, one x.rate96), (F.AUD_SLOT_DST_ENDPOINT, x.dst)])
      else if o % 0x10 = 4 then some (word [
        (F.AUD_SLOT_SRC_FADING, one (x.fade.isSome || x.ramp.isSome)), (F.AUD_SLOT_SRC_FOLLOW, one x.follow.isSome),
        (F.AUD_SLOT_SRC_ENDPOINT, x.src.ep)])
      else if o % 0x10 = 8 then
        let p := ((x.src.path.bind (tabFind s.aud.paths)).map (·.delay)).getD 0
        some (word [(F.AUD_SLOT_DLY_PATH, shown (s.audPathTicks x.src.ep x.dst) audT), (F.AUD_SLOT_DLY_DELAY, p + s.userDelay x)])
      else
        let g := match x.ramp with
          | some r => rampGain r
          | none => x.gain
        some (word [(F.AUD_SLOT_GAIN_GAIN, (g % 65536).toNat)])
  else none

/-- Frame-store registers at offset `o` (Table 4-14). -/
def State.rdFst (s : State) (o : Nat) : Option Word :=
  if o = 4 then some (BitVec.ofNat 32 s.freeGrans)
  else if o = 8 then some (BitVec.ofNat 32 (8192 - s.fst.bufs.length))
  else if o = 0xC then some (BitVec.ofNat 32 (2048 - s.fst.rings.length))
  else if o = 0x10 then some (BitVec.ofNat 32 s.pendFree)
  else if o = 0x14 then
    some (word [(F.FST_BW_ADMITTED, s.fstBits / 1001000000000), (F.FST_BW_LIMIT, s.fstLimit / 1001000000000)])
  else if 0x100 ≤ o ∧ o < 0x200 then
    let p := (o - 0x100) / 4
    some (word [(F.FST_PC_STAT_FENCED, one (s.pcFenced p)),
      (F.FST_PC_STAT_SPARES, 2 - (s.fst.sparesU.filter fun g => g / 256 == p).length),
      (F.FST_PC_STAT_FREE, s.freeCount s.usedGrans p)])
  else if 0x1000 ≤ o ∧ o < 0x1A80 ∧ o % 0x10 = 0 then
    let c := s.cw ((o - 0x1000) / 0x10)
    some (word [(F.FST_CW_STAT_ATTACHED, one c.ring.isSome), (F.FST_CW_STAT_STATE, c.st), (F.FST_CW_STAT_RING, c.ring.getD 0x7FF)])
  else if 0x4000 ≤ o ∧ o < 0x8000 then
    match s.ring ((o - 0x4000) / 8) with
    | none => some 0
    | some g =>
      some (if o % 8 = 0 then word [
          (F.FST_RING_LO_VALID, 1), (F.FST_RING_LO_FREEING, one g.freeing), (F.FST_RING_LO_CHAIN, one g.chain),
          (F.FST_RING_LO_DEPTH, g.depth), (F.FST_RING_LO_FIRST, g.first)]
        else word [(F.FST_RING_HI_PIXFMT, g.pix), (F.FST_RING_HI_FORMAT, g.fmt)])
  else if 0x8000 ≤ o ∧ o < 0x10000 then
    some (match s.buf ((o - 0x8000) / 4) with
      | some b => word [(F.FST_BUF_REF_ALLOCATED, 1), (F.FST_BUF_REF_FREEING, one b.freeing), (F.FST_BUF_REF_COUNT, b.readers.length)]
      | none => 0)
  else none

/-! ### Rings and MSI-X -/

/-- The MSI-X table and its pending-bit array (R259). -/
def State.rdMsix (s : State) (o : Nat) : Word :=
  if o < 0x400 then
    let e := tabGet {} s.host.msix (o / 16)
    match o % 16 / 4 with
    | 0 => e.addrLo
    | 1 => e.addrHi
    | 2 => e.data
    | _ => e.ctl
  else if 0x1000 ≤ o ∧ o < 0x1008 then bitWord ((List.range 32).map fun b => tabGet false s.host.pba ((o - 0x1000) * 8 + b))
  else 0

/-- INFLIGHT and OUTSTANDING (R284, R287). -/
def State.rdRng (s : State) (a : Nat) : Option Word :=
  if a = R.RNG_GLB_STAT then some (setF F.RNG_GLB_STAT_INFLIGHT s.inflight (s.rd a))
  else if R.RNG_SQ_BASE_LO 0 ≤ a ∧ a < R.RNG_SQ_BASE_LO 64 ∧ a % 0x40 = 0x24 then
    some (BitVec.ofNat 32 (s.outstanding ((a - R.RNG_SQ_BASE_LO 0) / 0x40)))
  else none

/-! ### The register space -/

/-- What the units' state says of the register at offset `a`, where it is not stored. -/
def State.live (s : State) (a : Nat) : Option Word :=
  if a < 0x10000 then s.rdGlb a
  else if a < 0x20000 then s.rdRst a
  else if a < 0x30000 then s.rdMtx a
  else if a < 0x40000 then s.rdFlt a
  else if a < 0x50000 then s.rdRef a
  else if a < 0x60000 then s.rdSyn a
  else if a < 0x70000 then s.rdSec a
  else if a < 0x80000 then s.rdAxl a
  else if a < 0x90000 then none
  else if a < 0xA0000 then s.rdHsf a
  else if a < 0xB0000 then s.rdLvp a
  else if a < 0x1000000 then none
  else if a < 0x2000000 then s.rdQuad ((a - 0x1000000) / 0x400000) ((a - 0x1000000) % 0x400000)
  else if a < 0x2100000 then s.rdXpt a (a - 0x2000000)
  else if a < 0x2200000 then s.rdAud (a - 0x2100000)
  else if a < 0x2300000 then s.rdFst (a - 0x2200000)
  else if a < 0x3000000 then none
  else if a < 0x3010000 then s.rdRng a
  else if a < 0x3020000 then some (s.rdMsix (a - 0x3010000))
  else none

/-- A firmware backup register, which reads zero to any but the management cores (R374). -/
def fwBackup (a : Nat) : Bool := decide (0x10110 ≤ a ∧ a < 0x10120)

/-- What register `a` shows to master `m`: an offset no table names reads zero (R459), and so do write-only bits. -/
def State.regValue (s : State) (m a : Nat) : Word :=
  if fwBackup a && decide (4 < m) then 0
  else match s.live a with
    | some w => w
    | none => match regRow a with
      | some r => s.rd a &&& ~~~(BitVec.ofNat 32 r.wo)
      | none => 0

/-- The lowest word, and the number of words, of the wide status value that register `a` is part of (R19). -/
def wideOf (a : Nat) : Option (Nat × Nat) :=
  let pair := fun (base lo hi : Nat) => if lo ≤ a ∧ a < hi then some (base + (a - base) / 8 * 8, 2) else none
  let at_ := fun (l n : Nat) => if l ≤ a ∧ a < l + 4 * n then some (l, n) else none
  let aes := (a - 0x1000000) % 0x400000
  [at_ R.XPT_RFN_LO 2, pair (R.XPT_SRC_SIG_LO 0) (R.XPT_SRC_SIG_LO 0) (R.XPT_SRC_SIG_LO 512),
    pair (R.XPT_DST_SIG_LO 0) (R.XPT_DST_SIG_LO 0) (R.XPT_DST_SIG_LO 512), at_ R.REF_TIME_NS 3, at_ R.MTX_DECERR_LOG_LO 2,
    at_ R.MTX_HANG_LOG_LO 2, at_ R.MTX_PERM_LOG_LO 2, at_ R.SEC_DEVID_LO 2, at_ R.SEC_CKPT_NUM_LO 2,
    pair (R.SEC_SEQ_LO 0) (R.SEC_SEQ_LO 0) (R.SEC_SEQ_LO 16), at_ (R.SEC_LC_NONCE 0) 8, at_ (R.FLT_REC 0) 4,
    pair (R.FST_RING_LO 0) (R.FST_RING_LO 0) (R.FST_RING_LO 2048),
    (if 0x1000000 ≤ a ∧ a < 0x2000000 ∧ 0x350000 ≤ aes ∧ aes < 0x350400 ∧ 0x88 ≤ aes % 0x100 ∧ aes % 0x100 < 0x90
      then some (a - aes % 0x100 + 0x88, 2) else none),
    (if 0x1000000 ≤ a ∧ a < 0x2000000 ∧ 0x350000 ≤ aes ∧ aes < 0x350400 ∧ 8 ≤ aes % 0x100 ∧ aes % 0x100 < 0x20
      then some (a - aes % 0x100 + 8, 6) else none)].findSome? id

/-- A read of register `a` by master `m`: the lowest word of a wide status value captures the whole as one snapshot, which the higher
words return (R19). R19 does not say whether each master has its own: the model keeps one snapshot per value, shared by all masters (DESIGN
CHOICE, assumption 162). -/
def State.regRead (s : State) (m a : Nat) : Word × State :=
  match wideOf a with
  | none => (s.regValue m a, s)
  | some (lo, n) =>
    if a = lo then
      let snap := (List.range n).foldl (fun t k => tabPut t (lo + 4 * k) (s.regValue m (lo + 4 * k))) s.snap
      (s.regValue m a, { s with snap := snap })
    else ((tabFind s.snap a).getD (s.regValue m a), s)

/-- A read of `n` words from register `a` on, lowest first (R339), as one number. -/
def State.regReads (s : State) (m a : Nat) : Nat → Nat × State
  | 0 => (0, s)
  | n + 1 =>
    let (w, s) := s.regRead m a
    let (r, s) := s.regReads m (a + 4) n
    (w.toNat + 2 ^ 32 * r, s)

/-- The registers the PCIe island answers itself during a warm reset (R365). -/
def warmReg (a : Nat) : Bool := [R.GLB_ID, R.GLB_STEPPING, R.GLB_GRADE, R.RST_STAT, R.RST_CAUSE].contains a

/-- The identification registers that answer in END (Table 11-3). -/
def endReg (a : Nat) : Bool := [R.GLB_ID, R.GLB_STEPPING, R.GLB_GRADE, R.GLB_MODE, R.GLB_MODE_REFUSE].contains a

end Sys2Proof.Machine
end

