-- ==== Sys2Proof/Machine/Synth.lean ====
section
/-! DEFINITION. Timing synthesizers: the meaning of each write and event of chapter 8 (R240 to R256). -/
namespace Sys2Proof.Machine

/-- A write of SYN_TS_CTL (R243, R255): the value is kept; what it changes is taken unless users hold the synthesizer or an audio
master forbids absorption. -/
def State.synWrite (s : State) (n v t : Nat) : State :=
  let s := s.at_ t
  let c := R.SYN_TS_CTL n
  let s := ((s.set c F.SYN_TS_CTL_MULT (v / 256)).set c F.SYN_TS_CTL_FAMILY (v / 16)).set c F.SYN_TS_CTL_PRELOAD (v / 8)
  let s := (s.set c F.SYN_TS_CTL_ABSORB (v / 4)).set c F.SYN_TS_CTL_EN v
  if s.inReset 6 n then s
  else
    let fam := famCode (v / 16 % 4)
    let mult := multCode (v / 256 % 16)
    let en := v % 2 == 1
    let abs := v / 4 % 2 == 1
    let off := s.synState n == 0
    let change := fam != s.synFam n || mult != s.synMult n
    let held := s.synUsers n != 0 && (change || (!en && !off))
    if held || (abs && s.synAudio n != 0) then s.raise (Hist.syn n) F.SYN_TS_HIST_CFG_ERR
    else
      let s := if s.ramping n then s else s.synFreeze n
      let x := s.syn_ n
      let s := s.setSyn n { x with absorb := abs, absOfs := if abs then x.absOfs else 0 }
      if !en then
        if off then s.synTarget n fam mult else (s.synOff n).synTarget n fam mult
      else if off then s.synStart n false
      else if change then
        if s.synState n = 4 then s.synTarget n fam mult
        else
          let s := if s.synState n = 3 then (s.synEnd n).synStop n 1 else s
          (s.synTarget n fam mult).synSeek n
      else s

/-- SYN_CTL_WRITE. -/
def execSynCtlWrite (n : Fin 16) (v : Nat) (t : Nat) (s : State) : Host.Outcome State Fault Refusal := .next (s.byHost (R.SYN_TS_CTL n) fun s => s.synWrite n v t)

/-- SYN_LOCK: a hop or a search reaches lock; a search's codes are stored, and a preload search goes on to its own family. `clamp`: the clamp
held the code on the way (R253). -/
def execSynLock (n : Fin 16) (coarse fine : Nat) (clamp : Bool) (t : Nat) (s : State) : Host.Outcome State Fault Refusal :=
  .next (
    let s := s.at_ t
    let st := s.synState n
    if st ≠ 1 ∧ st ≠ 2 then s
    else
      let s := if clamp || s.clampHolds n coarse fine then s.raise (Hist.syn n) F.SYN_TS_HIST_FMAX_CLAMP else s
      let x := s.syn_ n
      if st = 1 ∧ x.preload then
        let s := s.bandPut n (1 - s.synFam n) (s.synMult n) coarse fine
        s.setSyn n { s.syn_ n with preload := false }
      else
        if st = 1 then (s.bandPut n (s.synFam n) (s.synMult n) coarse fine).synLocked n coarse fine
        else
          let b := R.SYN_TS_BAND n (s.get (R.SYN_TS_STAT n) F.SYN_TS_STAT_ENTRY)
          s.synLocked n (s.get b F.SYN_TS_BAND_COARSE) (s.get b F.SYN_TS_BAND_FINE))

/-- SYN_SEARCH_TIMEOUT: the search restarts and an error names the synthesizer (R244). -/
def execSynSearchTimeout (n : Fin 16) (t : Nat) (s : State) : Host.Outcome State Fault Refusal :=
  .next (if s.synState n = 1 then (s.at_ t).reportError (0xA0000 + n.val) 0x09 else s.at_ t)

/-- The phase errors `errs`, in ticks, at 4 consecutive reference edges, the last of them now, mean a lost lock: each lies beyond a quarter of a
CLK_HI cycle, of an f_TS period in DLL mode, and none of the edges is one of the 4 after a passed step (R245). -/
def State.lockFails (s : State) (n : Nat) (errs : List Int) : Bool :=
  let fam := s.synFam n
  let p := edgeTicks fam (s.synMult n)
  let lim := if s.flag (R.SYN_TS_STAT n) F.SYN_TS_STAT_DLL then 16 * cycleTicks fam else cycleTicks fam
  errs.length == 4 && errs.all (fun e => decide (lim < 4 * e.natAbs)) &&
    (match (s.syn_ n).passed with
      | some b => decide (2 * b + 15 * p < 2 * s.now)
      | none => true)

/-- SYN_LOCK_LOSS (R245): the phase errors at the last 4 reference edges. -/
def execSynLockLoss (n : Fin 16) (errs : List Int) (t : Nat) (s : State) : Host.Outcome State Fault Refusal :=
  .next (
    let s := s.at_ t
    if s.synState n = 3 ∧ s.lockFails n errs then (s.synGate n 1).raise (Hist.syn n) F.SYN_TS_HIST_LOCK_LOST else s)

/-- SYN_RELOCK_START: after a lost lock the relock begins (E3 of Table 8-3). -/
def execSynRelockStart (n : Fin 16) (t : Nat) (s : State) : Host.Outcome State Fault Refusal :=
  .next (
    let s := s.at_ t
    if s.synState n = 4 ∧ (s.syn_ n).gatedBy = 1 then s.synSeek n else s)

/-- SYN_REF_LOSS (R246). -/
def execSynRefLoss (n : Fin 16) (t : Nat) (s : State) : Host.Outcome State Fault Refusal :=
  .next (
    let s := s.at_ t
    if s.synState n = 1 ∨ s.synState n = 2 ∨ s.synState n = 3 then
      (s.synGate n 2).raise (Hist.syn n) F.SYN_TS_HIST_REF_LOST
    else s)

/-- SYN_REF_RETURN: edges present for 2 consecutive expected edges (Table 8-2). -/
def execSynRefReturn (n : Fin 16) (t : Nat) (s : State) : Host.Outcome State Fault Refusal :=
  .next (
    let s := s.at_ t
    if s.synState n = 4 ∧ (s.syn_ n).gatedBy = 2 then s.synSeek n else s)

/-- BAND_STORE: the codes of the loop in force, while LOCKED (R247), which show whether the clamp holds it (R253). -/
def execBandStore (n : Fin 16) (coarse fine : Nat) (s : State) : Host.Outcome State Fault Refusal :=
  .next (
    if s.synState n = 3 then
      let s := if s.clampHolds n coarse fine then s.raise (Hist.syn n) F.SYN_TS_HIST_FMAX_CLAMP else s
      s.bandPut n (s.synFam n) (s.synMult n) coarse fine
    else s)

/-- A step of `d` ticks is made of whole cycles of `c` ticks by which the raster counters move, and of the lengthening of one cycle: no cycle
is shortened (R249). -/
def stepCycles (d : Int) (c : Nat) : Int × Nat := (-((-d) / (c : Int)), (-d % (c : Int)).toNat)

/-- SYN_STEP_PASS: at the first reference edge after the step a synthesizer with ABSORB = 0 moves its phase to the new edge stream; RESIDUAL
is unchanged (R249). -/
def execSynStepPass (n : Fin 16) (t : Nat) (s : State) : Host.Outcome State Fault Refusal :=
  .next (
    let s := s.at_ t
    let x := s.syn_ n
    match x.stepAt with
    | none => s
    | some e =>
      if t < e then s
      else
        let m := stepCycles (x.step * 2376) (cycleTicks (s.synFam n))
        s.setSyn n { x with step := 0, stepAt := none, passed := some e, jump := m.1, stretch := m.2 })

/-- ABSORB_DONE: the offset is 0 and RESIDUAL, within ±1 ns, is set to 0 (R250). A ceiling of 0 never ends an absorption. -/
def execAbsorbDone (n : Fin 16) (t : Nat) (s : State) : Host.Outcome State Fault Refusal :=
  .next (
    let s := s.at_ t
    let x := s.syn_ n
    let r := s.synBase n
    if s.absorbing n && s.absMax n r != 0 && decide (absorbLen r x.absOfs (s.absMax n r) (s.absSlope n) ≤ (s.now - x.absAt) / 2376) then
      ((s.wrInt (R.SYN_TS_RESIDUAL n) 0).setSyn n { x with absOfs := 0, absAt := s.now }).raise (Hist.syn n)
        F.SYN_TS_HIST_RAMP_DONE
    else s)

/-- Target and slope of segment `k` of a user profile. -/
def State.segment (s : State) (n k : Nat) : Int × Nat :=
  (s.rdInt (R.SYN_TS_SEG_TGT n k), max 1 (min 10000 (s.get (R.SYN_TS_SEG_SLOPE n k) F.SYN_TS_SEG_SLOPE_SLOPE)))

/-- Phase that segments `k` on, `m` of them, move from offset `a`. -/
def State.profilePhase (s : State) (n : Nat) : Nat → Nat → Int → Int
  | 0, _, _ => 0
  | m + 1, k, a =>
    let (b, sl) := s.segment n k
    segPhase a b sl + s.profilePhase n m (k + 1) b

/-- GO is refused (R252, R255). -/
def State.goRefused (s : State) (n last : Nat) : Bool :=
  let ts := (List.range (last + 1)).map fun k => (s.segment n k).1
  let (r, o) := s.synNow n
  let lim : Int := 100 * (s.get (R.SYN_TS_FMAX n) F.SYN_TS_FMAX_TS_FMAX : Nat) - 500
  (s.syn_ n).absorb || s.flag (R.SYN_TS_CTL n) F.SYN_TS_CTL_ABSORB || s.synState n != 3 || s.ramping n
    || ts.any (fun b => decide (100000 < b.natAbs) || decide (lim < b)) || ts.getLast? != some 0
    || decide (1000000 < (r - s.profilePhase n (last + 1) 0 o).natAbs) || s.synAudio n != 0

/-- Segment `k` of a user profile, toward `b` at slope `sl`, starts from offset `o` with RESIDUAL `r`; `l` are the segments after it. -/
def State.startSeg (s : State) (n k : Nat) (b : Int) (sl : Nat) (l : List (Int × Nat)) (r o : Int) : State :=
  s.setSyn n { s.syn_ n with
    seg := some k, segAt := s.now, segOfs := o, segRes := r, segSlope := sl, segTgt := b, todo := l, aborting := false }

/-- RAMP_GO: the profile runs its segments as they stand now (DESIGN CHOICE, assumption 192). -/
def State.rampGo (s : State) (n : Fin 16) (last : Nat) (t : Nat) : State :=
    let l := last % 8
    let s := (s.at_ t).set (R.SYN_TS_RAMP n) F.SYN_TS_RAMP_LAST l
    if s.goRefused n l then s.raise (Hist.syn n) F.SYN_TS_HIST_RAMP_ERR
    else
      let (r, o) := s.synNow n
      let (b, sl) := s.segment n 0
      s.startSeg n 0 b sl ((List.range l).map fun k => s.segment n (k + 1)) r o

/-- `rampGo` as a write of the host. -/
def execRampGo (n : Fin 16) (last : Nat) (t : Nat) (s : State) : Host.Outcome State Fault Refusal := .next (s.byHost (R.SYN_TS_RAMP n) fun s => s.rampGo n last t)

/-- RAMP_ABORT: the offset returns to 0 at the running segment's slope; the phase moved so far stays in RESIDUAL (R252). -/
def State.rampAbort (s : State) (n : Fin 16) (t : Nat) : State :=
    let s := s.at_ t
    if s.ramping n then
      let (r, o) := s.synNow n
      s.setSyn n { s.syn_ n with segAt := s.now, segOfs := o, segRes := r, segTgt := 0, todo := [], aborting := true }
    else s

/-- `rampAbort` as a write of the host. -/
def execRampAbort (n : Fin 16) (t : Nat) (s : State) : Host.Outcome State Fault Refusal := .next (s.byHost (R.SYN_TS_RAMP n) fun s => s.rampAbort n t)

/-- RAMP_SEGMENT_END: the next segment starts, or the profile ends and its net phase stays in RESIDUAL. -/
def execRampSegmentEnd (n : Fin 16) (t : Nat) (s : State) : Host.Outcome State Fault Refusal :=
  .next (
    let s := s.at_ t
    let x := s.syn_ n
    match x.seg with
    | none => s
    | some k =>
      if (s.now - x.segAt) / 2376 < segLen x.segOfs x.segTgt x.segSlope then s
      else
        let r := x.segRes - segPhase x.segOfs x.segTgt x.segSlope
        match x.todo with
        | (b, sl) :: l => s.startSeg n (k + 1) b sl l r x.segTgt
        | [] =>
          let s := (s.wrInt (R.SYN_TS_RESIDUAL n) r).setSyn n { x with seg := none, aborting := false, absAt := s.now, absOfs := 0 }
          s.raise (Hist.syn n) F.SYN_TS_HIST_RAMP_DONE)

end Sys2Proof.Machine
end

