-- ==== Sys2Proof/Machine/RegWrite.lean ====
section
/-! DEFINITION. What a write that reaches a register does: each field by its access code (R4, R5), and what the manual gives a field
beyond that: history vectors (R458), clamped ranges, settings taken whole (R18), and the writes that have commands of their own. -/
namespace Sys2Proof.Machine

/-! ### Access codes and masks -/

/-- Store `v` in the fields of register `a` that `mask` covers: RW and RWS store, ones clear RW1C, the rest ignore the value (Table 0-3). -/
def State.storeReg (s : State) (a : Nat) (v mask : Word) : State :=
  match regRow a with
  | none => s
  | some r =>
    let st := BitVec.ofNat 32 (r.rw ||| r.rws) &&& mask
    let clr := BitVec.ofNat 32 r.w1c &&& mask &&& v
    s.wr a (((s.rd a &&& ~~~st) ||| (v &&& st)) &&& ~~~clr)

/-- The lanes, ports, units … below `n` whose mask register is `a`, with their history register of `k` bits. -/
def histAt (a n : Nat) (h : Nat → Hist) (k : Nat) : List (Hist × Nat) :=
  ((List.range n).filter fun i => (h i).mask == a).map fun i => (h i, k)

/-- The history registers that mask register `a` enables, with the number of their bits (Table 18-6). -/
def maskHists (a : Nat) : List (Hist × Nat) :=
  if a < 0x1000000 then
    if a = R.GLB_MODE_IMASK then (List.range 5).map fun b => ({ Hist.glbMode b with mlo := b, lo := b }, 1)
    else ([(Hist.mtx, 4), (Hist.rst, 5), (Hist.flt, 5), (Hist.ref, 7), (Hist.sec, 10), (Hist.axl, 9), (Hist.mate, 11), (Hist.mateDom, 3),
      (Hist.hsf, 7), (Hist.lvp, 4)].filter fun p => p.1.mask == a) ++ histAt a 8 Hist.refIn 4 ++ histAt a 16 Hist.syn 6
  else if a < 0x2000000 then
    histAt a 72 Hist.srx 8 ++ histAt a 4 Hist.qe 7 ++ histAt a 12 Hist.che 4 ++ histAt a 160 Hist.sou 6 ++ histAt a 16 Hist.sap 5
      ++ histAt a 16 Hist.aesi 5
  else if a = R.XPT_IMASK then (Hist.pgErr, 1) :: (List.range 512).map fun d => (Hist.dst d, 4)
  else if a = R.XPT_FRZ_IMASK then (List.range 512).map fun d => (Hist.frz d, 1)
  else if a = R.AUD_IMASK then [(Hist.aud, 6)]
  else if a = R.FST_IMASK then [(Hist.fst, 5)]
  else if a = R.RNG_GLB_IMASK then [(Hist.rngGlb, 2)]
  else histAt a 64 Hist.rng 5

/-- Vectors that mask bits which have just become 1 enable: a history bit behind one of them is set (R458). -/
def State.enabledVecs (s : State) (a : Nat) (new : Word) : List Nat :=
  ((maskHists a).filterMap fun p =>
    if (List.range p.2).any fun i => new.getLsbD (p.1.mlo + i) && s.flag p.1.reg (bit (p.1.lo + i)) then some p.1.vec else none).eraseDups

/-- Each vector that a write of mask register `a`, which held `old`, enables is raised at that write. -/
def State.maskRaise (s : State) (a : Nat) (old : Word) : State :=
  (s.enabledVecs a (s.rd a &&& ~~~old)).foldl State.raiseVec s

/-- A write of a register whose fields have no behaviour but their access codes and, for a mask register, its vectors. -/
def State.plainWrite (s : State) (a : Nat) (v : Word) : State := (s.storeReg a v (~~~0)).maskRaise a (s.rd a)

/-- `w` with the unsigned field `f` clamped to a range. -/
def clampF (f : Bits) (lo hi : Nat) (w : Word) : Word := setF f (max lo (min hi (getF f w))) w

/-- `w` read as a signed number and clamped to ±`m`. -/
def clampInt (m : Int) (w : Word) : Word := BitVec.ofInt 32 (max (-m) (min m w.toInt))

/-! ### Blocks of the control plane -/

/-- RST (Table 14-7). -/
def State.wrRst (s : State) (a : Nat) (v : Word) (f : Found) : State :=
  if a = R.RST_SWREQ then s.softwareResetRequest v.toNat
  else if a = R.RST_BLK_CTL then
    if getF ⟨30, 2⟩ v = 1 then s.blockResetAssert v.toNat else s.blockResetRelease v.toNat f.ok
  else s.plainWrite a v

/-- FLT (Table 18-7). -/
def State.wrFlt (s : State) (a : Nat) (v : Word) (t : Nat) : State :=
  if a = R.FLT_ACK then s.fltAckWrite v.toNat
  else if a = R.FLT_UNFENCE then s.fltUnfenceWrite v.toNat t
  else s.plainWrite a v

/-- REF_IN_CFG of input `i`: a new source starts the input afresh, a new priority is a decision, EN turns it on or off. -/
def State.wrRefIn (s : State) (i : Nat) (v : Word) (t : Nat) : State :=
  let k := Fin.ofNat 8 i
  let c := R.REF_IN_CFG i
  let new := fun (s : State) (f : Bits) => getF f v != s.get c f
  let s := if new s F.REF_IN_CFG_SRC || new s F.REF_IN_CFG_PTP_DOMAIN || new s F.REF_IN_CFG_TERM then
      s.refInSrcWrite k (getF F.REF_IN_CFG_SRC v) (getF F.REF_IN_CFG_PTP_DOMAIN v) (getF F.REF_IN_CFG_TERM v == 1) t else s
  let s := if new s F.REF_IN_CFG_PRIO || new s F.REF_IN_CFG_REVERT then
      s.refPrioWrite k (getF F.REF_IN_CFG_PRIO v) (getF F.REF_IN_CFG_REVERT v == 1) t else s
  if new s F.REF_IN_CFG_EN then s.refInEnWrite k (getF F.REF_IN_CFG_EN v == 1) t else s

/-- REF (Table 7-6, R239). -/
def State.wrRef (s : State) (a : Nat) (v : Word) (t : Nat) : State :=
  if a = R.REF_CTL then
    let s' := s.storeReg a v 0x000F0002
    if getF F.REF_CTL_MODE v = s.get a F.REF_CTL_MODE ∧ getF F.REF_CTL_FORCE_IN v = s.get a F.REF_CTL_FORCE_IN then s'
    else s'.refForceWrite (getF F.REF_CTL_MODE v == 1) (getF F.REF_CTL_FORCE_IN v) t
  else if a = R.REF_QUAL then s.refQualWrite (getF F.REF_QUAL_QUAL_PPM v) (getF F.REF_QUAL_QUAL_TIME v) t
  else if a = R.REF_TOD_SEC_LO then if s.ptpQualified then s else s.wr a v
  else if a = R.REF_TOD_SEC_HI then s.todWrite (getF F.REF_TOD_SEC_HI_SEC v) t
  else if a = R.REF_LOOP then s.plainWrite a (clampF F.REF_LOOP_TRACK_BW 1 10000 v)
  else if a = R.REF_WTR then s.plainWrite a (clampF F.REF_WTR_WTR 0 3600 v)
  else if a = R.REF_HOLD_AVG then s.plainWrite a (clampF F.REF_HOLD_AVG_HOLD_AVG 10 3600 v)
  else if a = R.REF_AGE_DAYS then s.plainWrite a (clampF F.REF_AGE_DAYS_AGE_DAYS 7 365 v)
  else if R.REF_IN_CFG 0 ≤ a ∧ a < R.REF_IN_CFG 8 then
    let i := (a - R.REF_IN_CFG 0) / 0x20
    if a = R.REF_IN_CFG i then s.wrRefIn i v t
    else if a = R.REF_IN_OFS i then s.plainWrite a (clampInt 500000000 v)
    else s.plainWrite a v
  else if R.REF_FP_CFG 0 ≤ a ∧ a < R.REF_FP_CFG 8 then
    let k := (a - R.REF_FP_CFG 0) / 8
    if a = R.REF_FP_CFG k then s.plainWrite a (clampF F.REF_FP_CFG_WIDTH 1 10000 v)
    else s.plainWrite a (clampInt (rateD (s.get (R.REF_FP_CFG k) F.REF_FP_CFG_RATE) / 2376 : Nat) v)
  else s.plainWrite a v

/-- SYN (Table 8-4, R256): an absorption in progress goes on from where it stands under the new values. A write of SYN_TS_RAMP with GO and
ABORT both 1 does both, ABORT first: the manual gives no order (DESIGN CHOICE, assumption 161). -/
def State.wrSyn (s : State) (a : Nat) (v : Word) (t : Nat) : State :=
  if R.SYN_TS_CTL 0 ≤ a ∧ a < R.SYN_TS_CTL 16 then
    let n := (a - R.SYN_TS_CTL 0) / 0x100
    let k := Fin.ofNat 16 n
    let o := (a - R.SYN_TS_CTL 0) % 0x100
    let frozen := if (s.at_ t).ramping n then s.at_ t else (s.at_ t).synFreeze n
    if a = R.SYN_TS_CTL n then s.synWrite n v.toNat t
    else if a = R.SYN_TS_FMAX n then frozen.plainWrite a (clampF F.SYN_TS_FMAX_TS_FMAX 1 10000 v)
    else if a = R.SYN_TS_ABS n then
      frozen.plainWrite a (clampF F.SYN_TS_ABS_ABS_OFS 1 10000 (clampF F.SYN_TS_ABS_ABS_SLOPE 1 10000 v))
    else if a = R.SYN_TS_RAMP n then
      let s := s.plainWrite a v
      let s := if v.getLsbD 30 then s.rampAbort k t else s
      if v.getLsbD 31 then s.rampGo k (getF F.SYN_TS_RAMP_LAST v) t else s
    else if 0x40 ≤ o ∧ o < 0x80 ∧ o % 8 = 4 then s.plainWrite a (clampF F.SYN_TS_SEG_SLOPE_SLOPE 1 10000 v)
    else s.plainWrite a v
  else s.plainWrite a v

/-- A lifecycle request (R413): with its key, for its target. -/
def State.lcRequest (s : State) (v : Word) (tok : Option Token) : State :=
  if getF F.SEC_LC_REQ_KEY v ≠ 0x4C then s
  else match getF F.SEC_LC_REQ_TARGET v with
    | 1 => s.lcProvision tok
    | 2 => s.lcField
    | 3 => s.lcRma tok false
    | 4 => s.lcEnd tok
    | 7 => s.vendorDebugSession tok
    | _ => s.lcTry false fun s => s

/-- SEC (Table 17-8). -/
def State.wrSec (s : State) (a : Nat) (v : Word) (f : Found) : State :=
  if a = R.SEC_LC_REQ then s.lcRequest v f.tok
  else if a = R.SEC_LOG_TAIL then s.logTailWrite v.toNat
  else if logSetupReg a then s.logSetup a v.toNat
  else s.plainWrite a v

/-- AXL (Table 15-5). -/
def State.wrAxl (s : State) (a : Nat) (v : Word) (f : Found) : State :=
  if a = R.AXL_CTL then s.axlCtl v.toNat f.ok
  else if a = R.AXL_PRESET then s.presetCapture v.toNat f.ok
  else s.plainWrite a v

/-- The report that joins, or leaves, the domain's group on its sub-port; none while the device is not in a domain (R408, R52). -/
def State.domGroup (s : State) (join : Bool) : List NetMsg :=
  let c := R.MATE_DOM_CFG
  let p := s.get c F.MATE_DOM_CFG_PORT
  let q := s.get c F.MATE_DOM_CFG_SUB
  let g := (List.range 4).foldl (fun v w => v + (s.inForce (R.MATE_DOM_GRP w)).toNat * 2 ^ (32 * w)) 0
  let v6 := s.flag c F.MATE_DOM_CFG_IPV6
  if s.flag c F.MATE_DOM_CFG_EN then [if join then .join p q g 0 v6 else .leave p q g 0 v6] else []

/-- What leads from one domain membership to another is reported. -/
def State.domMoved (s s0 : State) : State :=
  if s.domGroup true = s0.domGroup true then s
  else { s with media := { s.media with net := s.media.net ++ s0.domGroup false ++ s.domGroup true } }

/-- MATE (Table 16-6). -/
def State.wrMate (s : State) (a : Nat) (v : Word) : State :=
  let s' := s.plainWrite a v
  if a = R.MATE_DOM_CFG then s'.domMoved s
  else if a = R.MATE_DOM_GRP 3 then (s'.takeSetting ((List.range 4).map R.MATE_DOM_GRP)).domMoved s
  else s'

/-- HSF (Table 12-4, R337). -/
def State.wrHsf (s : State) (a : Nat) (v : Word) : State :=
  if a = R.HSF_VCTL then s.vctlWrite v.toNat
  else if a = R.HSF_CTL then s.plainWrite a (clampF F.HSF_CTL_HS_TO 1 255 (clampF F.HSF_CTL_LOWER_S 1 60 v))
  else s.plainWrite a v

/-- LVP (Table 10-9). -/
def State.wrLvp (s : State) (a : Nat) (v : Word) (t : Nat) : State :=
  if a = R.LVP_WIN then s.lvpWinWrite v.toNat t else s.plainWrite a v

/-! ### Quadrants -/

/-- EN = 1 and PD = 0 of a receive lane. -/
def State.rxEnabled (s : State) (n : Nat) : Bool :=
  s.flag (R.SDI_RX_CTL n) F.SDI_RX_CTL_EN && !s.flag (R.SDI_RX_CTL n) F.SDI_RX_CTL_PD

/-- SDI_RX_CTL: a lane turned off loses its signal (R46). A MULTI value that asks for what already stands, or already waits, changes
nothing; the same value written again after a refusal is tried again (R39). -/
def State.wrRxCtl (s : State) (n : Nat) (v : Word) (t : Nat) : State :=
  let k := Fin.ofNat 72 n
  let c := R.SDI_RX_CTL n
  let a := R.SDI_RX_STAT n
  let was := s.rxEnabled n
  let m := getF F.SDI_RX_CTL_MULTI v
  let idle := m = s.get c F.SDI_RX_CTL_MULTI ∧ (multiLinks m = s.rxLinks n ∨ multiLinks m = (s.rx n).groupReq)
  let s := if idle then s else s.multiWrite false k m
  let s := s.rateForceWrite k (getF F.SDI_RX_CTL_RATE_FORCE v) t
  let s := s.storeReg c v 0xC03
  if !was || s.rxEnabled n then s
  else if s.flag a F.SDI_RX_STAT_TRS_LOCK then ((s.rxLoss n).set a F.SDI_RX_STAT_CARRIER 0).sdiInputs
  else ((s.set a F.SDI_RX_STAT_CARRIER 0).set a F.SDI_RX_STAT_CDR_LOCK 0).set a F.SDI_RX_STAT_RATE 0

/-- SDI_TX_CTL. -/
def State.wrTxCtl (s : State) (n : Nat) (v : Word) (t : Nat) : State :=
  let k := Fin.ofNat 72 n
  let c := R.SDI_TX_CTL n
  let m := getF F.SDI_TX_CTL_MULTI v
  let idle := m = s.get c F.SDI_TX_CTL_MULTI ∧ (multiLinks m = s.txLinks n ∨ multiLinks m = (s.tx n).groupReq)
  let s := if idle then s else s.multiWrite true k m
  let s := s.storeReg c v 0x1C08
  if getF F.SDI_TX_CTL_EN v = s.get c F.SDI_TX_CTL_EN ∧ getF F.SDI_TX_CTL_PD v = s.get c F.SDI_TX_CTL_PD then s
  else (s.at_ t).txPower n (getF F.SDI_TX_CTL_EN v == 1) (getF F.SDI_TX_CTL_PD v == 1) t

/-- QE registers of port `q` at offset `o` (Table 2-10): a sub-port turned off loses its link; addresses are taken whole (R56). -/
def State.wrQe (s : State) (q o : Nat) (v : Word) : State :=
  let a := R.QE_CTL q + o
  if o = 0 then
    let s' := (s.qeModeWrite (Fin.ofNat 4 q) (getF F.QE_CTL_MODE v == 1)).storeReg a v 0xFB
    (List.range 4).foldl (fun (x : State) sub => if s.subOn q sub && !x.subOn q sub then x.qeDown q sub else x) s'
  else if 0x200 ≤ o ∧ o < 0x300 ∧ o % 0x40 = 4 then (s.plainWrite a v).takeSetting [a - 4, a]
  else if 0x200 ≤ o ∧ o < 0x300 ∧ o % 0x40 = 0x1C then (s.plainWrite a v).takeSetting [a - 12, a - 8, a - 4, a]
  else s.plainWrite a v

/-- A layer whose register at offset `o` is written. -/
def souLayerPut (l : SouLayer) (o : Nat) (v : Word) : SouLayer :=
  if o = 0 then { l with
    en := getF F.SOU_L_CTL_EN v == 1, key := getF F.SOU_L_CTL_KEY v, fixed := getF F.SOU_L_CTL_FIXED v == 1,
    buf := getF F.SOU_L_CTL_BUF v, opacity := getF F.SOU_L_CTL_OPACITY v, ring := getF F.SOU_L_CTL_RING v }
  else if o = 4 then { l with y := getF F.SOU_L_POS_Y v, x := getF F.SOU_L_POS_X v }
  else if o = 8 then { l with hi := getF F.SOU_L_KEY_HI v, lo := getF F.SOU_L_KEY_LO v }
  else l

/-- A set whose register at offset `o` from 0x040 is written. -/
def souSetPut (x : SouSet) (o : Nat) (v : Word) : SouSet :=
  if o = 0 then { x with fmt := getF F.SOU_FMT_FORMAT v, syn := getF F.SOU_FMT_SYN v, out444 := getF F.SOU_FMT_OUT_444 v == 1 }
  else if o = 4 then { x with offLines := getF F.SOU_OFFSET_LINES v, offSamps := getF F.SOU_OFFSET_SAMPLES v }
  else if o = 8 then { x with
    frameOnly := getF F.SOU_CMT_FRAME_ONLY v == 1, cl1 := getF F.SOU_CMT_CL1 v, cl2 := getF F.SOU_CMT_CL2 v }
  else if o = 0xC then { x with bg := v.toNat }
  else if o = 0x10 then { x with cdesc := (v &&& 0xF3).toNat }
  else if 0x20 ≤ o ∧ o < 0x30 then { x with l1 := souLayerPut x.l1 (o - 0x20) v }
  else if 0x30 ≤ o ∧ o < 0x40 then { x with l2 := souLayerPut x.l2 (o - 0x30) v }
  else if 0x40 ≤ o ∧ o < 0x50 then { x with l3 := souLayerPut x.l3 (o - 0x40) v }
  else x

/-- Registers of quadrant `q` at offset `w` of its window (R30). -/
def State.wrQuad (s : State) (q w : Nat) (v : Word) (t : Nat) : State :=
  let a := quadWin q + w
  if w < 0x480 then (if w % 0x40 = 0 then s.wrRxCtl (18 * q + w / 0x40) v t else s.plainWrite a v)
  else if 0x1000 ≤ w ∧ w < 0x1480 then
    (if w % 0x40 = 0 then s.wrTxCtl (18 * q + (w - 0x1000) / 0x40) v t else s.plainWrite a v)
  else if 0x100000 ≤ w ∧ w < 0x101000 then s.wrQe q (w - 0x100000) v
  else if 0x300000 ≤ w ∧ w < 0x305000 then
    let u := 40 * q + (w - 0x300000) / 0x200
    let o := (w - 0x300000) % 0x200
    let x := s.unit u
    if 0x40 ≤ o ∧ o < 0x90 then s.setUnit u { x with active := souSetPut x.active (o - 0x40) v }
    else if 0x140 ≤ o ∧ o < 0x190 then s.setUnit u { x with pending := souSetPut x.pending (o - 0x140) v }
    else s.plainWrite a v
  else if 0x340000 ≤ w ∧ w < 0x340400 ∧ w % 0x100 = 0xC then (s.plainWrite a v).takeSetting [a - 4, a]
  else if 0x350000 ≤ w ∧ w < 0x350400 ∧ w % 0x100 = 0 then
    let s' := s.plainWrite a v
    if v.getLsbD 0 then s' else s'.clkLost (16 + (4 * q + (w - 0x350000) / 0x100))
  else if 0x350000 ≤ w ∧ w < 0x350400 ∧ w % 0x100 = 0x80 then s.aesoWrite (4 * q + (w - 0x350000) / 0x100) v.toNat
  else s.plainWrite a v

/-! ### Crosspoint, audio and rings -/

/-- STILL_OK set on source `n` clears FROZEN of every destination it feeds (R180). -/
def State.stillOk (s : State) (n : Nat) : State :=
  (s.dstsOf n).foldl (fun (s : State) d => s.set (R.XPT_FRZ_STAT d) F.XPT_FRZ_STAT_FROZEN 0) s

/-- XPT_DST_CFG of a window destination: the LV agent holds AFV, REFUSE_UNTIMED and SWLINE at 0 (R291). -/
def State.windowCfg (s : State) (a : Nat) (v : Word) : State :=
  let v := ([F.XPT_DST_CFG_AFV, F.XPT_DST_CFG_REFUSE_UNTIMED, F.XPT_DST_CFG_SWLINE] : List Bits).foldl (fun (v : Word) f => setF f 0 v) v
  (s.plainWrite a v).dirty 8

/-- XPT (Tables 3-8, 5-2, 5-7). -/
def State.wrXpt (s : State) (a o : Nat) (v : Word) : State :=
  if o = 0 then (s.plainWrite a v).leapRateCheck
  else if 0x200 ≤ o ∧ o < 0x240 ∧ o % 8 = 0 then s.pgWrite ((o - 0x200) / 8) v.toNat
  else if 0x1000 ≤ o ∧ o < 0x1800 then
    let s' := s.plainWrite a v
    if v.getLsbD 0 then s'.stillOk ((o - 0x1000) / 4) else s'
  else if 0x2000 ≤ o ∧ o < 0x4000 ∧ o % 0x10 = 0 then
    let d := (o - 0x2000) / 0x10
    let k := getF F.XPT_DST_ROUTE_KIND v
    let n := getF F.XPT_DST_ROUTE_SOURCE v
    let raw := if v.getLsbD 31 then 0 else k * 2 ^ 28 + n
    ({ s with xpt := { s.xpt with raw := tabSet 0 s.xpt.raw d raw } } : State).setRoute d
      (if v.getLsbD 31 then some ⟨k, n⟩ else none)
  else if 0x2000 ≤ o ∧ o < 0x4000 ∧ o % 0x10 = 4 then
    if s.lvTx ((o - 0x2000) / 0x10) then s.windowCfg a v else (s.plainWrite a v).dirty 8
  else if 0xA000 ≤ o ∧ o < 0xA200 ∧ o % 0x20 = 0xC then s.ufmtWrite ((o - 0xA000) / 0x20) v.toNat
  else s.plainWrite a v

/-- AUD (Table 6-9): writes to the list of a chain's scan-out unit are ignored (R201). -/
def State.wrAud (s : State) (a o : Nat) (v : Word) : State :=
  if o = 0 then
    s.plainWrite a (clampF F.AUD_CTL_LS_JUMP_MS 5 200 (clampF F.AUD_CTL_LS_AVG 1 64 (clampF F.AUD_CTL_LINK_OFS 2 80 v)))
  else if 0x1000 ≤ o ∧ o < 0x3000 ∧ 352 ≤ (o - 0x1000) / 0x10 ∧ (s.chainOf ((o - 0x1000) / 0x10 - 352)).isSome then s
  else s.plainWrite a v

/-- RNG (Table 9-12): base and size are taken only in DISABLED (R262). -/
def State.wrRng (s : State) (a : Nat) (v : Word) : State :=
  if R.RNG_SQ_BASE_LO 0 ≤ a ∧ a < R.RNG_SQ_BASE_LO 64 then
    let n := (a - R.RNG_SQ_BASE_LO 0) / 0x40
    let k := Fin.ofNat 64 n
    if a ≤ R.RNG_SIZE n then (if s.ringSt n = 0 then s.plainWrite a v else s.cfgErr n)
    else if a = R.RNG_CTL n then
      let s := if v.getLsbD 0 then s.ringEnable k else s.ringDisable k
      if v.getLsbD 1 then s.ringAbandon k else s
    else s.plainWrite a v
  else s.plainWrite a v

/-- The MSI-X table (R259): an entry whose mask is cleared sends the message that waits behind it. -/
def State.wrMsix (s : State) (o : Nat) (v : Word) : State :=
  if o < 0x400 then
    let n := o / 16
    let e := tabGet {} s.host.msix n
    let e' : MsixEntry := match o % 16 / 4 with
      | 0 => { e with addrLo := v &&& ~~~3 }
      | 1 => { e with addrHi := v }
      | 2 => { e with data := v }
      | _ => { e with ctl := v &&& 1 }
    let s : State := { s with host := { s.host with msix := tabSet {} s.host.msix n e' } }
    if !e'.ctl.getLsbD 0 && tabGet false s.host.pba n then
      ({ s with host := { s.host with pba := tabDel s.host.pba n } } : State).raiseVec n
    else s
  else s

/-! ### The register space -/

/-- A write of `v` to the register at offset `a` at time `t`; an offset no table names ignores it (R459). A changed item of the
configuration digest detaches a pair (R400). -/
def State.regWrite (s : State) (a : Nat) (v : Word) (t : Nat) (f : Found) : State :=
  (if 0x3010000 ≤ a ∧ a < 0x3020000 then s.wrMsix (a - 0x3010000) v
    else if (regRow a).isNone then s
    else if a < 0x10000 then s.plainWrite a v
    else if a < 0x20000 then s.wrRst a v f
    else if a < 0x30000 then s.plainWrite a v
    else if a < 0x40000 then s.wrFlt a v t
    else if a < 0x50000 then s.wrRef a v t
    else if a < 0x60000 then s.wrSyn a v t
    else if a < 0x70000 then s.wrSec a v f
    else if a < 0x80000 then s.wrAxl a v f
    else if a < 0x90000 then s.wrMate a v
    else if a < 0xA0000 then s.wrHsf a v
    else if a < 0xB0000 then s.wrLvp a v t
    else if a < 0x2000000 then s.wrQuad ((a - 0x1000000) / 0x400000) ((a - 0x1000000) % 0x400000) v t
    else if a < 0x2100000 then s.wrXpt a (a - 0x2000000) v
    else if a < 0x2200000 then s.wrAud a (a - 0x2100000) v
    else if a < 0x2300000 then s.plainWrite a v
    else s.wrRng a v).afterWrite s

/-- A write of `n` words from register `a` on, lowest first, so that the highest word of a setting is written last (R339, R18). -/
def State.regWrites (s : State) (a data t : Nat) (f : Found) : Nat → State
  | 0 => s
  | n + 1 => (s.regWrite a (BitVec.ofNat 32 data) t f).regWrites (a + 4) (data / 2 ^ 32) t f n

end Sys2Proof.Machine
end

