-- ==== Sys2Proof/Machine/Access.lean ====
section
/-! DEFINITION. Requests at the control matrix: what a granted access does at its target, the arbiter (R340, R342), holdbacks (R343, R344), and the
host's path. -/
namespace Sys2Proof.Machine

/-! ### What a granted access does -/

/-- The key of the user-slot byte that lies at offset `o` of the Axolotl working SRAM (R378). -/
def userByte (o : Nat) : Option Nat :=
  if 0x3F000 ≤ o ∧ o < 0x80000 ∧ 0x40 ≤ (o - 0x3F000) % 0x1040 then
    some ((o - 0x3F000) / 0x1040 * 4096 + (o - 0x3F000) % 0x1040 - 0x40)
  else none

/-- A byte written to a memory target. -/
def State.memPut (s : State) (t a : Nat) (b : Byte) : State :=
  if t = 4 ∧ 0x13010000 ≤ a then
    let reg := 0x10100 + (a - 0x13010000) / 4 * 4
    s.set reg ⟨8 * (a % 4), 8⟩ b.toNat
  else if t = 13 then { s with host := { s.host with mem := memWrite s.host.mem (a - 0x8000000000) b } }
  else if t = 3 then
    match userByte (a - 0x12000000) with
    | some k => ({ s with axl := { s.axl with user := memWrite s.axl.user k b } } : State).dirty (17 + k / 4096)
    | none => { s with mtx := { s.mtx with mem := memWrite s.mtx.mem a b } }
  else if t = 1 ∨ t = 2 ∨ t = 4 ∨ t = 5 ∨ t = 6 then { s with mtx := { s.mtx with mem := memWrite s.mtx.mem a b } }
  else s

/-- The byte a memory target holds at an address, where the manual says what lies there (assumption 5). -/
def State.memByte (s : State) (t a : Nat) : Option Nat :=
  if t = 4 ∧ 0x13010000 ≤ a then some (s.get (0x10100 + (a - 0x13010000) / 4 * 4) ⟨8 * (a % 4), 8⟩)
  else if t = 3 then (userByte (a - 0x12000000)).map fun k => (memRead s.axl.user k).toNat
  else if t = 1 ∨ t = 4 ∨ t = 6 then some (memRead s.mtx.mem a).toNat
  else none

/-- A read of a memory target; bytes whose contents the manual does not lay out are free values (assumption 2). -/
def State.memRd (s : State) (t a n : Nat) : State :=
  let (d, s) := s.draw
  let open_ := (Config.fresh (8 * n) d).toNat
  s.setData (some ((List.range n).foldl (fun v i => v + ((s.memByte t (a + i)).getD (open_ / 256 ^ i)) % 256 * 256 ^ i) 0))

/-- A granted and answered access at target `t`. -/
def State.carry (s : State) (r : MtxReq) (t : Nat) : State :=
  let o := r.addr - 0x40000000
  if isBridge t then
    if r.write then (s.regWrites o r.data s.now r.found (wordsOf r.bytes)).setData none
    else
      let (d, s) := s.regReads r.master o (wordsOf r.bytes)
      s.setData (some d)
  else if r.write then
    ((List.range r.bytes).foldl (fun (s : State) i => s.memPut t (r.addr + i) (BitVec.ofNat 8 (r.data / 256 ^ i))) s).setData none
  else s.memRd t r.addr r.bytes

/-! ### The arbiter -/

/-- The target of a whole access: one that runs past the end of its target is a decode error (R338). -/
def reqTarget (r : MtxReq) : Option Nat :=
  let t := mtxTarget r.addr
  if mtxTarget (r.addr + r.bytes - 1) = t then t else none

/-- Every word of an access at a bridge lies in a block's extent (R338, R459). -/
def reqInBlocks (r : MtxReq) : Bool := (List.range (wordsOf r.bytes)).all fun i => inExtent (r.addr - 0x40000000 + 4 * i)

/-- The entry a request makes as it comes. -/
def State.mtxEntry (s : State) (r : MtxReq) : MtxOut :=
  { req := r, target := (reqTarget r).getD noTarget, left := min r.left (reqBeats r), since := s.now }

/-- Target port `t` stops: its reset is asserted (R353), or it is a bridge and the control clock, and with it the peripheral bus, has failed
(R16). -/
def State.portStops (s : State) (t : Nat) : Bool := s.mtx.ports.contains t || (isBridge t && s.rst.cclkFail)

/-- What a node of the wait graph waits on: a master (below 16) on the targets of its requests, a target (16 on) on the masters whose bursts hold
its port, and the target that is an island on the masters that are the same island (R344). -/
def State.waitsOn (s : State) (n : Nat) : List Nat :=
  if n < 16 then (s.mtxOut n).map fun o => 16 + o.target
  else
    let t := n - 16
    (s.mtx.out.filter fun p => p.2.any fun o => o.target == t && o.going).map (·.1)
      ++ (if t = 13 then [5, 6] else if t = 12 then [8] else [])

/-- A node from which waits lead to `goal` within `k` steps. -/
def State.waitsReach (s : State) (goal : Nat) : Nat → List Nat → Bool
  | 0, l => l.contains goal
  | k + 1, l => l.contains goal || s.waitsReach goal k (l.flatMap s.waitsOn).eraseDups

/-- A grant of target `t` to master `m` would close a cycle of waits through an island (R344). -/
def State.closesCycle (s : State) (m t : Nat) : Bool := s.waitsReach m 30 [16 + t]

/-- Nothing of its own master stands in the way of request `o` of master `m`, whose earlier requests are `before`: the master does not hang, 16
requests are not outstanding, and no request with its ID is ahead of it at another target or ungranted (R342, R343). -/
def State.inTurn (s : State) (m : Nat) (before : List MtxOut) (o : MtxOut) : Bool :=
  !o.granted && !s.hung m && !before.any (fun b => reqId b.req == reqId o.req && (b.target != o.target || !b.granted))
    && (o.cyc || decide (((s.mtxOut m).filter (·.granted)).length + countOut [] (before.filter fun b => !b.granted) < 16))

/-- Request `o` needs no port: no target takes it, or the tables refuse it. -/
def State.needsNoPort (s : State) (o : MtxOut) : Bool := o.target == noTarget || !s.mayAccess o.req o.target

/-- The port of a request is free for it. -/
def State.portFree (s : State) (m : Nat) (o : MtxOut) : Bool :=
  s.needsNoPort o || (!s.portBusy o.target && !s.portStops o.target && !s.closesCycle m o.target)

/-- Each request of a list with those ahead of it. -/
def withBefore : List MtxOut → List MtxOut → List (List MtxOut × MtxOut)
  | _, [] => []
  | before, o :: l => (before, o) :: withBefore (before ++ [o]) l

/-- The requests that could be granted now, by master. -/
def State.grantable (s : State) : List (Nat × MtxOut) :=
  s.mtx.out.flatMap fun p => ((withBefore [] p.2).filter fun q => s.inTurn p.1 q.1 q.2 && s.portFree p.1 q.2).map fun q => (p.1, q.2)

/-- Priority of master `m` at target `t` (Table 13-2). -/
def State.mtxPrio (s : State) (t m : Nat) : Nat :=
  if m < 8 then getF ⟨4 * m, 3⟩ (s.rd (R.MTX_TGT_PRIO_LO t)) else getF ⟨4 * (m - 8), 3⟩ (s.rd (R.MTX_TGT_PRIO_HI t))

/-- How far master `m` stands behind the master last granted at target `t`. -/
def State.mtxTurn (s : State) (t m : Nat) : Nat := (m + 15 - (tabFind s.mtx.granted t).getD 15) % 16

/-- A request has waited 512 control cycles, 640 ns (R340). -/
def State.aged (s : State) (o : MtxOut) : Bool := decide (o.since + 640 * ticksPerNs ≤ s.now)

/-- Request `b` goes before request `a` at one target: the oldest that has waited 512 cycles, else the higher priority, else round-robin. -/
def State.goesBefore (s : State) (b a : Nat × MtxOut) : Bool :=
  let t := a.2.target
  if s.aged a.2 || s.aged b.2 then s.aged b.2 && (!s.aged a.2 || decide (b.2.since < a.2.since))
  else
    let pa := s.mtxPrio t a.1
    let pb := s.mtxPrio t b.1
    decide (pa < pb) || (pa == pb && decide (s.mtxTurn t b.1 < s.mtxTurn t a.1))

/-- The request that is granted next. -/
def State.nextGrant (s : State) : Option (Nat × MtxOut) :=
  s.grantable.foldl (fun (w : Option (Nat × MtxOut)) b =>
    match w with
    | none => some b
    | some a => if a.2.target = b.2.target ∧ s.goesBefore b a then some b else some a) none

/-- The first entry of a list that equals `o` becomes what `f` makes of it. -/
def editOut (o : MtxOut) (f : MtxOut → List MtxOut) : List MtxOut → List MtxOut
  | [] => []
  | a :: l => if a = o then f a ++ l else a :: editOut o f l

/-- Entry `o` of master `m` becomes what `f` makes of it. -/
def State.editMtx (s : State) (m : Nat) (o : MtxOut) (f : MtxOut → List MtxOut) : State := s.setMtxOut m (editOut o f (s.mtxOut m))

/-- Request `o` of master `m` is granted: refused by the tables, a decode error, or on its way to its target (R346, R350). -/
def State.grant (s : State) (m : Nat) (o : MtxOut) : State :=
  let dead := fun (s : State) => if answersFor m then (s.editMtx m o fun _ => []).decodeAnswer o.req
    else s.editMtx m o fun o => [{ o with granted := true, gAt := s.now, target := noTarget, left := 0 }]
  if o.target = noTarget then dead s
  else
    let s : State := { s with mtx := { s.mtx with granted := tabPut s.mtx.granted o.target m } }
    if !s.mayAccess o.req o.target then (s.editMtx m o fun _ => []).refuseAccess o.req
    else if isBridge o.target && !reqInBlocks o.req then dead s
    else s.editMtx m o fun o => [{ o with granted := true, gAt := s.now }]

/-- A granted request whose target answers it and whose response is next of its ID (R343). -/
def State.nextDone (s : State) : Option (Nat × MtxOut) :=
  (s.mtx.out.flatMap fun p => ((withBefore [] p.2).filter fun q => q.2.granted && q.2.req.answered && q.2.target != noTarget
    && !q.1.any fun b => reqId b.req == reqId q.2.req).map fun q => (p.1, q.2)).head?

/-- One move of the matrix: what a reset master left at a target completes, a response returns, or a request is granted. -/
def State.mtxMove (s : State) : Option State :=
  match s.mtx.late.find? (·.req.answered) with
  | some o => some ((({ s with mtx := { s.mtx with late := s.mtx.late.erase o } } : State).carry o.req o.target).setData s.mtx.data)
  | none =>
    match s.nextDone with
    | some (m, o) => some ((s.editMtx m o fun _ => []).carry o.req o.target)
    | none => s.nextGrant.map fun p => s.grant p.1 p.2

/-- The matrix moves until nothing more can be granted or answered, at most `k` times. -/
def State.mtxSettle : Nat → State → State
  | 0, s => s
  | k + 1, s => match s.mtxMove with
    | some s' => s'.mtxSettle k
    | none => s

/-- The requests held back under R344 for the first time are counted. -/
def State.countHolds (s : State) : State :=
  let l := s.mtx.out.flatMap fun p => ((withBefore [] p.2).filter fun q =>
    !q.2.cyc && s.inTurn p.1 q.1 q.2 && !s.needsNoPort q.2 && s.closesCycle p.1 q.2.target).map fun q => (p.1, q.2)
  l.foldl (fun (s : State) p => (s.inc R.MTX_HOLD_CNT).editMtx p.1 p.2 fun o => [{ o with cyc := true }]) s

/-- Requests at the matrix, and what reset masters left there. -/
def State.mtxLoad (s : State) : Nat := (s.mtx.out.map fun p => p.2.length).sum + s.mtx.late.length

/-- The matrix comes to rest. -/
def State.mtxRest (s : State) : State := (s.mtxSettle (2 * s.mtxLoad + 2)).countHolds

/-! ### The request -/

/-- An entry is the request that `r` tells of. -/
def reqIs (r : MtxReq) (o : MtxOut) : Bool := r.num.isSome && o.req.num == r.num && o.req.master == r.master

/-- What `r` tells of a request at the matrix: the beats it has still to carry, and whether its target answers it. -/
def MtxOut.told (r : MtxReq) (o : MtxOut) : MtxOut :=
  { o with left := min o.left r.left, req := { o.req with answered := r.answered, found := r.found } }

/-- A request at the matrix, or word of one that is there: then the matrix moves as far as it can. A further request beyond 16 waits in its
port (R342). -/
def State.mtxRequest (s : State) (r : MtxReq) : State :=
  let m := r.master.val
  if 13 ≤ m then s
  else if s.mtx.late.any (reqIs r) then
    ({ s with mtx := { s.mtx with late := s.mtx.late.map fun o => if reqIs r o then o.told r else o } } : State).mtxRest
  else if (s.mtxOut m).any (reqIs r) then
    (s.setMtxOut m ((s.mtxOut m).map fun o => if reqIs r o then o.told r else o)).mtxRest
  else (s.setMtxOut m (s.mtxOut m ++ [s.mtxEntry r])).mtxRest

/-! ### The host's path -/

/-- What a host access finds before it reaches the matrix: with Memory Space Enable 0 a read brings no data and a write is dropped (R364); BAR2,
which stands behind BAR0 here (assumption 204), reads zero and takes the croak pages' writes (R258); before P4 ends the PCIe island answers it (R365), as it does when no image passed (R367), and in END only identification registers answer (Table
11-3); EN written 1 to a ring still sets CFG_ERR there. -/
def State.hostGate (s : State) (r : MtxReq) : Option State :=
  let o := r.addr - 0x40000000
  if r.master.val ≠ 6 then none
  else if !s.host.pci.mse then some (if r.write then s else s.setData none)
  else if 0x4000000 ≤ o ∧ o < 0x4040000 then
    some (if !r.write then s.setData (some 0)
      else if r.bytes = 4 ∧ o % 4 = 0 then s.ifUp fun s => s.bar2Write (o - 0x4000000) r.data
      else s)
  else if s.phase ≠ 5 then
    some (if r.write then s
      else s.setData (some (if warmReg o then (s.regValue 6 o).toNat else 0)))
  else if s.lifecycle = 4 then
    some (if r.write then
        (if R.RNG_SQ_BASE_LO 0 ≤ o ∧ o < R.RNG_SQ_BASE_LO 64 ∧ o % 0x40 = 0x14 ∧ r.data % 2 = 1 then s.cfgErr ((o - R.RNG_SQ_BASE_LO 0) / 0x40)
          else s)
      else s.setData (if endReg o then some (s.regValue 6 o).toNat else none))
  else none

/-- A request of any master: the host's is gated by the PCIe island. -/
def State.request (s : State) (r : MtxReq) : State :=
  match s.hostGate r with
  | some s' => s'
  | none => s.mtxRequest r

end Sys2Proof.Machine
end

