-- ==== Sys2Proof/Machine/Matrix.lean ====
section
/-! DEFINITION. The control matrix: requests, hangs and the release of a hung master (chapter 13). -/
namespace Sys2Proof.Machine

/-- MATRIX_REQUEST. -/
def execMatrixRequest (r : MtxReq) (s : State) : Host.Outcome State Fault Refusal := .next ((s.at_ r.t).request r)

/-- HANG_TIME in ticks (Table 13-5). -/
def State.hangTime (s : State) : Nat := max 10 (s.get R.MTX_CTL F.MTX_CTL_HANG_TIME) * ticksPerUs

/-- Since when request `o` is unanswered: its grant, or, at a port that stops, its coming (R350, R353). -/
def State.openSince (s : State) (o : MtxOut) : Option Nat :=
  if o.granted then some o.gAt else if s.portStops o.target then some o.since else none

/-- The oldest request of master `m` that has been unanswered for HANG_TIME. -/
def State.unanswered (s : State) (m : Nat) : Option MtxOut :=
  (s.mtxOut m).find? fun o => match s.openSince o with
    | some a => decide (a + s.hangTime ≤ s.now)
    | none => false

/-- MATRIX_HANG: HANG_TIME has passed on the oldest unanswered request of master `m`. It is logged and an error names the master; the matrix
answers for masters 4, 8 and 9, and every other master hangs (R350). -/
def execMatrixHang (m : Fin 16) (t : Nat) (s : State) : Host.Outcome State Fault Refusal :=
  .next (
    let s := s.at_ t
    match s.unanswered m with
    | none => s
    | some o =>
      if s.hung m then s
      else
        let ans := answersFor m
        let r := o.req
        let hi := r.addr / 2 ^ 32 % 256 + m.val * 2 ^ 8 + one r.write * 2 ^ 12 + one ans * 2 ^ 13
        let s := (s.logMtx 1 m fun s => s.wr2 R.MTX_HANG_LOG_LO R.MTX_HANG_LOG_HI (r.addr % 2 ^ 32 + 2 ^ 32 * hi)).inc R.MTX_HANG_CNT
        let s := (s.raise Hist.mtx F.MTX_HIST_HANG).reportError (0xB0000 + m) 0x08
        if ans then ((s.setMtxOut m ((s.mtxOut m).erase o)).setData (if r.write then none else some 0)).mtxRest
        else s.set (R.MTX_MST_STAT m) F.MTX_MST_STAT_HUNG 1)

/-- The LV agent's port is reset: an LV SPI read in progress returns 0x0000 (Table 13-4). -/
def State.resetLvPort (s : State) : State :=
  let read := (s.mtxOut 7).any fun o => !o.req.write
  let s := s.resetMaster 7
  if read then { s with lv := { s.lv with miso := some 0 } } else s

/-- HUNG_MASTER_RESET: a hung master is reset as Table 13-4 gives. -/
def execHungMasterReset (m : Fin 16) (s : State) : Host.Outcome State Fault Refusal :=
  .next (
    if !s.hung m then s
    else match m.val with
      | 5 => (s.resetMaster 5).dropHost.mtxRest
      | 7 => s.resetLvPort.mtxRest
      | 10 =>
        let s := s.resetMaster 10
        ({ s with rst := { s.rst with imgBad := true } }).mtxRest
      | 12 =>
        let s := (s.resetMaster 12).mtxRest
        match s.testing with
        | some c => s.testAbandon c true
        | none => s
      | k => if k < 4 then s.warmSource 8 else (s.resetMaster k).mtxRest)

/-- PERST_N_RELEASE: link training begins once P2 has ended (R364); target port 13 runs again with what waits at it, and crossing group 176
exchanges its token (R336). -/
def execPerstNRelease (s : State) : Host.Outcome State Fault Refusal :=
  .next (
    if !s.host.perst then s
    else
      let s := { s with host := { s.host with perst := false, linkUp := s.host.linkUp || decide (3 ≤ s.phase) } }
      let s := if s.get (R.HSF_XSTAT 176) F.HSF_XSTAT_STATE = 1 then s.set (R.HSF_XSTAT 176) F.HSF_XSTAT_STATE 3 else s
      let s := if s.pciAnswers then s.enumerate else s
      (s.portReset 13 false).mtxRest)

end Sys2Proof.Machine
end

