-- ==== Sys2Proof/Machine/Registers.lean ====
section
/-! DEFINITION. Register accesses as commands of their own: REGISTER_WRITE, IMASK_WRITE and SNAPSHOT_READ (R5, R458, R19). -/
namespace Sys2Proof.Machine

/-- A 32-bit write of BAR0 offset `a` by master `m`. -/
def writeReq (m : Fin 16) (a v t : Nat) (f : Found) : MtxReq :=
  ⟨m, 0, 0x40000000 + a, true, false, v, 4, 0, none, true, t, f⟩

/-- A 32-bit read of BAR0 offset `a` by the host. -/
def readReq (a t : Nat) : MtxReq := ⟨6, 0, 0x40000000 + a, false, false, 0, 4, 0, none, true, t, ⟨false, none⟩⟩

/-- REGISTER_WRITE: it passes the tables and locks of the matrix, and each field stores, clears or ignores the value by its access code,
or does what the manual gives it. -/
def execRegisterWrite (m : Fin 16) (a v : Nat) (t : Nat) (f : Found) (s : State) : Host.Outcome State Fault Refusal :=
  .next ((s.at_ t).request (writeReq m a v t f))

/-- IMASK_WRITE: a write of a mask register by the host raises the vector of every history bit it enables. -/
def execImaskWrite (a v : Nat) (s : State) : Host.Outcome State Fault Refusal :=
  .next (if (maskHists a).isEmpty then s else s.request (writeReq 6 a v s.now ⟨false, none⟩))

/-- SNAPSHOT_READ: the host reads the lowest word of a wide status value. -/
def execSnapshotRead (a : Nat) (s : State) : Host.Outcome State Fault Refusal :=
  .next (if (wideOf a).map (·.1) = some a then s.request (readReq a s.now) else s)

end Sys2Proof.Machine
end

