-- ==== Sys2Proof/Machine/Dispatch.lean ====
section
/-! DEFINITION. The dispatch of commands: one arm per command of the table, each one direct call of its meaning. -/
namespace Sys2Proof.Machine

/-- The effect of a command on everything but the queue. -/
def exec (i : Instr) (s : State) : Host.Outcome State Fault Refusal :=
  match i with
  | .registerWrite a b c d e => Sys2Proof.Machine.execRegisterWrite a b c d e s
  | .imaskWrite a b => Sys2Proof.Machine.execImaskWrite a b s
  | .sdiCarrierDetect a => Sys2Proof.Machine.execSdiCarrierDetect a s
  | .cdrLock a b => Sys2Proof.Machine.execCdrLock a b s
  | .trsLock a => Sys2Proof.Machine.execTrsLock a s
  | .startBoundary a b c => Sys2Proof.Machine.execStartBoundary a b c s
  | .rateForceWrite a b c => Sys2Proof.Machine.execRateForceWrite a b c s
  | .lineCrcError a => Sys2Proof.Machine.execLineCrcError a s
  | .ancChecksumError a b => Sys2Proof.Machine.execAncChecksumError a b s
  | .multiWrite a b c => Sys2Proof.Machine.execMultiWrite a b c s
  | .groupForm a b c d => Sys2Proof.Machine.execGroupForm a b c d s
  | .groupSkew a b c => Sys2Proof.Machine.execGroupSkew a b c s
  | .sdiLoss a b => Sys2Proof.Machine.execSdiLoss a b s
  | .acquisitionAbort a => Sys2Proof.Machine.execAcquisitionAbort a s
  | .txEnWrite a b c d => Sys2Proof.Machine.execTxEnWrite a b c d s
  | .txLeaveIdle a b => Sys2Proof.Machine.execTxLeaveIdle a b s
  | .followRangeIdle a b => Sys2Proof.Machine.execFollowRangeIdle a b s
  | .qeModeWrite a b => Sys2Proof.Machine.execQeModeWrite a b s
  | .qeRxFrame a b c d e f => Sys2Proof.Machine.execQeRxFrame a b c d e f s
  | .qeLinkUp a b => Sys2Proof.Machine.execQeLinkUp a b s
  | .qeLinkDown a b => Sys2Proof.Machine.execQeLinkDown a b s
  | .fecUncorrectable a b => Sys2Proof.Machine.execFecUncorrectable a b s
  | .igmpQuery a b c => Sys2Proof.Machine.execIgmpQuery a b c s
  | .flowLoss a b c => Sys2Proof.Machine.execFlowLoss a b c s
  | .legLost a b c => Sys2Proof.Machine.execLegLost a b c s
  | .ptpTimestamp a b c d => Sys2Proof.Machine.execPtpTimestamp a b c d s
  | .routeSet a b c => Sys2Proof.Machine.execRouteSet a b c s
  | .takeAt a b c => Sys2Proof.Machine.execTakeAt a b c s
  | .salvo a b => Sys2Proof.Machine.execSalvo a b s
  | .salvoCancel a b c => Sys2Proof.Machine.execSalvoCancel a b c s
  | .routeSync a b => Sys2Proof.Machine.execRouteSync a b s
  | .routeConvert a b c => Sys2Proof.Machine.execRouteConvert a b c s
  | .takeExecute a b => Sys2Proof.Machine.execTakeExecute a b s
  | .untimedChangeover a b => Sys2Proof.Machine.execUntimedChangeover a b s
  | .followLoopRetuneEnd a b => Sys2Proof.Machine.execFollowLoopRetuneEnd a b s
  | .leapArm a b c => Sys2Proof.Machine.execLeapArm a b c s
  | .leapExecute a b c => Sys2Proof.Machine.execLeapExecute a b c s
  | .leapNoTimingExecute a b c => Sys2Proof.Machine.execLeapNoTimingExecute a b c s
  | .pgCfgWrite a b => Sys2Proof.Machine.execPgCfgWrite a b s
  | .pgFrameBoundary a b => Sys2Proof.Machine.execPgFrameBoundary a b s
  | .sourceFrameSigned a b c => Sys2Proof.Machine.execSourceFrameSigned a b c s
  | .destFrameSent a b c d => Sys2Proof.Machine.execDestFrameSent a b c d s
  | .bufAlloc a b c d e f => Sys2Proof.Machine.execBufAlloc a b c d e f s
  | .bufFree a b => Sys2Proof.Machine.execBufFree a b s
  | .bufWrite a b c => Sys2Proof.Machine.execBufWrite a b c s
  | .bufRead a b c d e => Sys2Proof.Machine.execBufRead a b c d e s
  | .bufferRefRelease a => Sys2Proof.Machine.execBufferRefRelease a s
  | .cwFrameStart a b c => Sys2Proof.Machine.execCwFrameStart a b c s
  | .cwFrameComplete a b c => Sys2Proof.Machine.execCwFrameComplete a b c s
  | .cwResume a b c => Sys2Proof.Machine.execCwResume a b c s
  | .eccCorrected a b => Sys2Proof.Machine.execEccCorrected a b s
  | .eccUncorrectable a b c => Sys2Proof.Machine.execEccUncorrectable a b c s
  | .patrolScrub a b => Sys2Proof.Machine.execPatrolScrub a b s
  | .granuleListSwitch a => Sys2Proof.Machine.execGranuleListSwitch a s
  | .ctxAdmit a b c d e => Sys2Proof.Machine.execCtxAdmit a b c d e s
  | .ctxParam a b c d e => Sys2Proof.Machine.execCtxParam a b c d e s
  | .ctxRelease a b c => Sys2Proof.Machine.execCtxRelease a b c s
  | .ctxParamApply a b => Sys2Proof.Machine.execCtxParamApply a b s
  | .ctxRunStart a b => Sys2Proof.Machine.execCtxRunStart a b s
  | .ctxParkStop a b => Sys2Proof.Machine.execCtxParkStop a b s
  | .ctxReleaseStop a b => Sys2Proof.Machine.execCtxReleaseStop a b s
  | .ctxMoveComplete a b => Sys2Proof.Machine.execCtxMoveComplete a b s
  | .orphanReadmit a => Sys2Proof.Machine.execOrphanReadmit a s
  | .sliceStart a b => Sys2Proof.Machine.execSliceStart a b s
  | .sliceEnd a b => Sys2Proof.Machine.execSliceEnd a b s
  | .sliceDeadlineMiss a b => Sys2Proof.Machine.execSliceDeadlineMiss a b s
  | .souCfg a b => Sys2Proof.Machine.execSouCfg a b s
  | .souCommit a b => Sys2Proof.Machine.execSouCommit a b s
  | .ufmtModeWrite a b => Sys2Proof.Machine.execUfmtModeWrite a b s
  | .commitLatch a b => Sys2Proof.Machine.execCommitLatch a b s
  | .commitExecute a b => Sys2Proof.Machine.execCommitExecute a b s
  | .newTimingStart a b => Sys2Proof.Machine.execNewTimingStart a b s
  | .souFrameStart a b => Sys2Proof.Machine.execSouFrameStart a b s
  | .lineUnderrun a b c => Sys2Proof.Machine.execLineUnderrun a b c s
  | .fetchUrgencyChange a b c d => Sys2Proof.Machine.execFetchUrgencyChange a b c d s
  | .souResume a b => Sys2Proof.Machine.execSouResume a b s
  | .audMap a b => Sys2Proof.Machine.execAudMap a b s
  | .audFade a b => Sys2Proof.Machine.execAudFade a b s
  | .sapCfg a b => Sys2Proof.Machine.execSapCfg a b s
  | .mapExecute a => Sys2Proof.Machine.execMapExecute a s
  | .matrixSample a b c d => Sys2Proof.Machine.execMatrixSample a b c d s
  | .lipsyncMeasure a b => Sys2Proof.Machine.execLipsyncMeasure a b s
  | .clockAcquire a b => Sys2Proof.Machine.execClockAcquire a b s
  | .clockSteered a b c => Sys2Proof.Machine.execClockSteered a b c s
  | .clockWide a b => Sys2Proof.Machine.execClockWide a b s
  | .clockWideReturn a b => Sys2Proof.Machine.execClockWideReturn a b s
  | .clockLocked a b c => Sys2Proof.Machine.execClockLocked a b c s
  | .clockUnlock a b => Sys2Proof.Machine.execClockUnlock a b s
  | .fifoSlip a b => Sys2Proof.Machine.execFifoSlip a b s
  | .audioClockLost a => Sys2Proof.Machine.execAudioClockLost a s
  | .sapMaskApply a => Sys2Proof.Machine.execSapMaskApply a s
  | .sapFrameErr a => Sys2Proof.Machine.execSapFrameErr a s
  | .aesCsBlock a b => Sys2Proof.Machine.execAesCsBlock a b s
  | .aesParityError a b c => Sys2Proof.Machine.execAesParityError a b c s
  | .aesoEnWrite a b => Sys2Proof.Machine.execAesoEnWrite a b s
  | .refInEnWrite a b c => Sys2Proof.Machine.execRefInEnWrite a b c s
  | .refInSrcWrite a b c d e => Sys2Proof.Machine.execRefInSrcWrite a b c d e s
  | .refActivity a b c d => Sys2Proof.Machine.execRefActivity a b c d s
  | .refQualified a b c d => Sys2Proof.Machine.execRefQualified a b c d s
  | .wtrExpired a b => Sys2Proof.Machine.execWtrExpired a b s
  | .refSuspect a b c d => Sys2Proof.Machine.execRefSuspect a b c d s
  | .refSuspectClear a b => Sys2Proof.Machine.execRefSuspectClear a b s
  | .refDeclaredLost a b => Sys2Proof.Machine.execRefDeclaredLost a b s
  | .refDisqualified a b c d => Sys2Proof.Machine.execRefDisqualified a b c d s
  | .refQualWrite a b c => Sys2Proof.Machine.execRefQualWrite a b c s
  | .refPrioWrite a b c d => Sys2Proof.Machine.execRefPrioWrite a b c d s
  | .refForceWrite a b c => Sys2Proof.Machine.execRefForceWrite a b c s
  | .refSwitchExecute a b => Sys2Proof.Machine.execRefSwitchExecute a b s
  | .loopLock a => Sys2Proof.Machine.execLoopLock a s
  | .loopUnlock a b => Sys2Proof.Machine.execLoopUnlock a b s
  | .trackBwApply a => Sys2Proof.Machine.execTrackBwApply a s
  | .holdoverUpdate a b => Sys2Proof.Machine.execHoldoverUpdate a b s
  | .ageingDaily a b c d e => Sys2Proof.Machine.execAgeingDaily a b c d e s
  | .todWrite a b => Sys2Proof.Machine.execTodWrite a b s
  | .todApply a => Sys2Proof.Machine.execTodApply a s
  | .fpPulse a b => Sys2Proof.Machine.execFpPulse a b s
  | .synCtlWrite a b c => Sys2Proof.Machine.execSynCtlWrite a b c s
  | .synLock a b c d e => Sys2Proof.Machine.execSynLock a b c d e s
  | .synSearchTimeout a b => Sys2Proof.Machine.execSynSearchTimeout a b s
  | .synLockLoss a b c => Sys2Proof.Machine.execSynLockLoss a b c s
  | .synRelockStart a b => Sys2Proof.Machine.execSynRelockStart a b s
  | .synRefLoss a b => Sys2Proof.Machine.execSynRefLoss a b s
  | .synRefReturn a b => Sys2Proof.Machine.execSynRefReturn a b s
  | .bandStore a b c => Sys2Proof.Machine.execBandStore a b c s
  | .synStepPass a b => Sys2Proof.Machine.execSynStepPass a b s
  | .absorbDone a b => Sys2Proof.Machine.execAbsorbDone a b s
  | .rampGo a b c => Sys2Proof.Machine.execRampGo a b c s
  | .rampAbort a b => Sys2Proof.Machine.execRampAbort a b s
  | .rampSegmentEnd a b => Sys2Proof.Machine.execRampSegmentEnd a b s
  | .hostLinkReset a => Sys2Proof.Machine.execHostLinkReset a s
  | .perstAssert => Sys2Proof.Machine.execPerstAssert s
  | .ringEnable a => Sys2Proof.Machine.execRingEnable a s
  | .ringDisable a => Sys2Proof.Machine.execRingDisable a s
  | .ringAbandon a => Sys2Proof.Machine.execRingAbandon a s
  | .ringDrained a => Sys2Proof.Machine.execRingDrained a s
  | .croak a b => Sys2Proof.Machine.execCroak a b s
  | .cqHeadWrite a b => Sys2Proof.Machine.execCqHeadWrite a b s
  | .descriptorFetch a b c => Sys2Proof.Machine.execDescriptorFetch a b c s
  | .completionPost a b c => Sys2Proof.Machine.execCompletionPost a b c s
  | .coalTimerExpiry a b => Sys2Proof.Machine.execCoalTimerExpiry a b s
  | .nop a => Sys2Proof.Machine.execNop a s
  | .queryStatus a b => Sys2Proof.Machine.execQueryStatus a b s
  | .stats a b => Sys2Proof.Machine.execStats a b s
  | .flowRxCfg a b => Sys2Proof.Machine.execFlowRxCfg a b s
  | .flowTxCfg a b => Sys2Proof.Machine.execFlowTxCfg a b s
  | .persistPut a b c d e => Sys2Proof.Machine.execPersistPut a b c d e s
  | .persistGet a b c d e => Sys2Proof.Machine.execPersistGet a b c d e s
  | .persistStore a b => Sys2Proof.Machine.execPersistStore a b s
  | .attest a b c d => Sys2Proof.Machine.execAttest a b c d s
  | .logCheckpoint a b c => Sys2Proof.Machine.execLogCheckpoint a b c s
  | .keyPin a b c d => Sys2Proof.Machine.execKeyPin a b c d s
  | .keyUnpin a b => Sys2Proof.Machine.execKeyUnpin a b s
  | .signingEnter a => Sys2Proof.Machine.execSigningEnter a s
  | .signingLeave a => Sys2Proof.Machine.execSigningLeave a s
  | .domainKeyInstall a b c => Sys2Proof.Machine.execDomainKeyInstall a b c s
  | .domainKeyErase a => Sys2Proof.Machine.execDomainKeyErase a s
  | .domainMsg a b c d e f g => Sys2Proof.Machine.execDomainMsg a b c d e f g s
  | .matePair a b => Sys2Proof.Machine.execMatePair a b s
  | .mateDetach a => Sys2Proof.Machine.execMateDetach a s
  | .mateHandover a b c => Sys2Proof.Machine.execMateHandover a b c s
  | .mateResetPartner a b => Sys2Proof.Machine.execMateResetPartner a b s
  | .lvSpiRead a => Sys2Proof.Machine.execLvSpiRead a s
  | .irqStatRead => Sys2Proof.Machine.execIrqStatRead s
  | .lvRegisterWrite a b => Sys2Proof.Machine.execLvRegisterWrite a b s
  | .lvTakeWrite a b => Sys2Proof.Machine.execLvTakeWrite a b s
  | .outSelWrite a b c => Sys2Proof.Machine.execOutSelWrite a b c s
  | .outCtlWrite a b c => Sys2Proof.Machine.execOutCtlWrite a b c s
  | .lvFrameError a => Sys2Proof.Machine.execLvFrameError a s
  | .lvTakeNEdge a b => Sys2Proof.Machine.execLvTakeNEdge a b s
  | .lvTakeArm a => Sys2Proof.Machine.execLvTakeArm a s
  | .lvOutputSwitch a b => Sys2Proof.Machine.execLvOutputSwitch a b s
  | .lvMuteResume a b => Sys2Proof.Machine.execLvMuteResume a b s
  | .lvStatusFollow => Sys2Proof.Machine.execLvStatusFollow s
  | .lvpWinWrite a b => Sys2Proof.Machine.execLvpWinWrite a b s
  | .slackMeasure a b => Sys2Proof.Machine.execSlackMeasure a b s
  | .voltageLowerStep a b => Sys2Proof.Machine.execVoltageLowerStep a b s
  | .voltageRaiseStep a b => Sys2Proof.Machine.execVoltageRaiseStep a b s
  | .admitRaiseStep a b => Sys2Proof.Machine.execAdmitRaiseStep a b s
  | .vctlWrite a => Sys2Proof.Machine.execVctlWrite a s
  | .avsFault => Sys2Proof.Machine.execAvsFault s
  | .avsRetry a => Sys2Proof.Machine.execAvsRetry a s
  | .handshakeTimeout a b c => Sys2Proof.Machine.execHandshakeTimeout a b c s
  | .crossingRelease a b => Sys2Proof.Machine.execCrossingRelease a b s
  | .matrixRequest a => Sys2Proof.Machine.execMatrixRequest a s
  | .matrixHang a b => Sys2Proof.Machine.execMatrixHang a b s
  | .hungMasterReset a => Sys2Proof.Machine.execHungMasterReset a s
  | .powerOn => Sys2Proof.Machine.execPowerOn s
  | .brownOut => Sys2Proof.Machine.execBrownOut s
  | .pinReset => Sys2Proof.Machine.execPinReset s
  | .resetNRelease => Sys2Proof.Machine.execResetNRelease s
  | .clockMonitorFail a => Sys2Proof.Machine.execClockMonitorFail a s
  | .cclkRelockTimeout => Sys2Proof.Machine.execCclkRelockTimeout s
  | .watchdogExpiry => Sys2Proof.Machine.execWatchdogExpiry s
  | .softwareResetRequest a => Sys2Proof.Machine.execSoftwareResetRequest a s
  | .debugResetRequest => Sys2Proof.Machine.execDebugResetRequest s
  | .mcLockup => Sys2Proof.Machine.execMcLockup s
  | .remoteResetReceive => Sys2Proof.Machine.execRemoteResetReceive s
  | .optionLoad a => Sys2Proof.Machine.execOptionLoad a s
  | .recallRecords a => Sys2Proof.Machine.execRecallRecords a s
  | .bootImageVerify a b => Sys2Proof.Machine.execBootImageVerify a b s
  | .controlPlaneUp a => Sys2Proof.Machine.execControlPlaneUp a s
  | .dataPlaneStart a b => Sys2Proof.Machine.execDataPlaneStart a b s
  | .warmReset => Sys2Proof.Machine.execWarmReset s
  | .warmReady a => Sys2Proof.Machine.execWarmReady a s
  | .blockResetAssert a => Sys2Proof.Machine.execBlockResetAssert a s
  | .blockResetRelease a b => Sys2Proof.Machine.execBlockResetRelease a b s
  | .blockClockQualified a b => Sys2Proof.Machine.execBlockClockQualified a b s
  | .recordStore a b c => Sys2Proof.Machine.execRecordStore a b c s
  | .powerFailTrip a => Sys2Proof.Machine.execPowerFailTrip a s
  | .autostoreEnd a b => Sys2Proof.Machine.execAutostoreEnd a b s
  | .vholdCollapse a => Sys2Proof.Machine.execVholdCollapse a s
  | .pfailClear => Sys2Proof.Machine.execPfailClear s
  | .vholdOkSet => Sys2Proof.Machine.execVholdOkSet s
  | .vholdOkClear => Sys2Proof.Machine.execVholdOkClear s
  | .axlCtlWrite a b => Sys2Proof.Machine.execAxlCtlWrite a b s
  | .presetCapture a b => Sys2Proof.Machine.execPresetCapture a b s
  | .marginRead a => Sys2Proof.Machine.execMarginRead a s
  | .heartbeatSend => Sys2Proof.Machine.execHeartbeatSend s
  | .heartbeatReceive a b c => Sys2Proof.Machine.execHeartbeatReceive a b c s
  | .pathLost a b => Sys2Proof.Machine.execPathLost a b s
  | .partnerRestartTimeout a => Sys2Proof.Machine.execPartnerRestartTimeout a s
  | .stateTransferDone a b => Sys2Proof.Machine.execStateTransferDone a b s
  | .forwardReceive a b c d => Sys2Proof.Machine.execForwardReceive a b c d s
  | .forwardAck a => Sys2Proof.Machine.execForwardAck a s
  | .forwardAckTimeout a => Sys2Proof.Machine.execForwardAckTimeout a s
  | .timeExchange a b => Sys2Proof.Machine.execTimeExchange a b s
  | .mateLinkDown => Sys2Proof.Machine.execMateLinkDown s
  | .mateLinkUp a => Sys2Proof.Machine.execMateLinkUp a s
  | .sidebandLost => Sys2Proof.Machine.execSidebandLost s
  | .handoverSwap a => Sys2Proof.Machine.execHandoverSwap a s
  | .pairingTimeout => Sys2Proof.Machine.execPairingTimeout s
  | .domainPacketReceive a b => Sys2Proof.Machine.execDomainPacketReceive a b s
  | .domainRetransmit a => Sys2Proof.Machine.execDomainRetransmit a s
  | .domainAckReceive a b c d => Sys2Proof.Machine.execDomainAckReceive a b c d s
  | .lcProvision a => Sys2Proof.Machine.execLcProvision a s
  | .lcField => Sys2Proof.Machine.execLcField s
  | .lcRma a b => Sys2Proof.Machine.execLcRma a b s
  | .lcEnd a => Sys2Proof.Machine.execLcEnd a s
  | .vendorDebugSession a => Sys2Proof.Machine.execVendorDebugSession a s
  | .identityKeyGenerated => Sys2Proof.Machine.execIdentityKeyGenerated s
  | .routeLogKeyGenerated => Sys2Proof.Machine.execRouteLogKeyGenerated s
  | .entropyFail => Sys2Proof.Machine.execEntropyFail s
  | .checkpointPeriod a => Sys2Proof.Machine.execCheckpointPeriod a s
  | .logTailWrite a => Sys2Proof.Machine.execLogTailWrite a s
  | .logSetupWrite a b => Sys2Proof.Machine.execLogSetupWrite a b s
  | .errorDetected a b c => Sys2Proof.Machine.execErrorDetected a b c s
  | .selfTestStart a => Sys2Proof.Machine.execSelfTestStart a s
  | .selfTestEnd a b => Sys2Proof.Machine.execSelfTestEnd a b s
  | .fltAckWrite a => Sys2Proof.Machine.execFltAckWrite a s
  | .fltUnfenceWrite a b => Sys2Proof.Machine.execFltUnfenceWrite a b s
  | .i2cRead a => Sys2Proof.Machine.execI2cRead a s
  | .i2cWrite a b => Sys2Proof.Machine.execI2cWrite a b s
  | .extTempRead a b => Sys2Proof.Machine.execExtTempRead a b s
  | .boundaryScanInstruction a => Sys2Proof.Machine.execBoundaryScanInstruction a s
  | .powerGoodReturn => Sys2Proof.Machine.execPowerGoodReturn s
  | .perstNRelease => Sys2Proof.Machine.execPerstNRelease s
  | .pairRequestReceive a => Sys2Proof.Machine.execPairRequestReceive a s
  | .detachReceive => Sys2Proof.Machine.execDetachReceive s
  | .snapshotRead a => Sys2Proof.Machine.execSnapshotRead a s
  | .retentionVoltageLoss => Sys2Proof.Machine.execRetentionVoltageLoss s
  | .entropyHealthPass => Sys2Proof.Machine.execEntropyHealthPass s
  | .overTemperature a => Sys2Proof.Machine.execOverTemperature a s

end Sys2Proof.Machine
end

