-- ==== Sys2Proof/Safety.lean ====
section
/-! DEFINITION. What counts as a safe run, in the terms claims use: a step that answers a next state, the canonical form that every
step keeps, and what a command may leave untouched. -/
namespace Sys2Proof.Machine

/-- The outcome is a next state. -/
def completes (o : Host.Outcome State Fault Refusal) : Bool :=
  match o with
  | .next _ => true
  | _ => false

/-- The memories of the block are in canonical form: host memory as the device wrote it, the frame store, the working SRAM's user slots and
the memories behind the matrix. -/
def State.memWf (s : State) : Prop :=
  Memory.wf s.host.mem = true ∧ Memory.wf s.fst.mem = true ∧ Memory.wf s.axl.user = true ∧ Memory.wf s.mtx.mem = true

/-- The registers are in canonical form: offsets rise strictly, and no entry equals the register's reset value. -/
def State.regsWf (s : State) : Prop := tabWf resetVal s.regs = true ∧ tabWf resetVal s.taken = true

/-- Registers and memories are in canonical form. -/
def State.wf (s : State) : Prop := s.regsWf ∧ s.memWf

/-- The parts of the state that a frame speaks of: the registers, the words taken in force, the snapshot values, the draw counter, the groups of
`State`, with the bytes of the frame store (`fstMem`), host memory (`hostMem`) and what vectors leave (`vec`) apart from their groups. -/
inductive Part where
  | regs | taken | snap | free | media | xpt | fst | fstMem | che | sou | aud | host | vec | hostMem | lv | ref | syn | sec | flt | axl | rst | hsf | mtx | mate | pkg
deriving DecidableEq, Repr

/-- A part is the same in two states. -/
def Part.same (p : Part) (s t : State) : Prop :=
  match p with
  | .regs => t.regs = s.regs
  | .taken => t.taken = s.taken
  | .snap => t.snap = s.snap
  | .free => t.free = s.free
  | .media => t.media = s.media
  | .xpt => t.xpt = s.xpt
  | .fst => { t.fst with mem := s.fst.mem } = s.fst
  | .fstMem => t.fst.mem = s.fst.mem
  | .che => t.che = s.che
  | .sou => t.sou = s.sou
  | .aud => t.aud = s.aud
  | .host => { t.host with mem := s.host.mem, pba := s.host.pba, sent := s.host.sent } = s.host
  | .vec => t.host.pba = s.host.pba ∧ t.host.sent = s.host.sent
  | .hostMem => t.host.mem = s.host.mem
  | .lv => t.lv = s.lv
  | .ref => t.ref = s.ref
  | .syn => t.syn = s.syn
  | .sec => t.sec = s.sec
  | .flt => t.flt = s.flt
  | .axl => t.axl = s.axl
  | .rst => t.rst = s.rst
  | .hsf => t.hsf = s.hsf
  | .mtx => t.mtx = s.mtx
  | .mate => t.mate = s.mate
  | .pkg => t.pkg = s.pkg

/-- From `s` to `t` nothing changes but the parts of the list and the time last seen: every register, every byte of memory and all else outside
them stays. -/
def State.within (s t : State) (l : List Part) : Prop := t.pending = s.pending ∧ ∀ p, p ∉ l → p.same s t

/-- Every part of the state. -/
def everyPart : List Part :=
  [.regs, .taken, .snap, .free, .media, .xpt, .fst, .fstMem, .che, .sou, .aud, .host, .vec, .hostMem, .lv, .ref, .syn, .sec, .flt, .axl, .rst, .hsf, .mtx, .mate, .pkg]

/-- The parts of the state that a command may change: its frame. A part that is not listed stays as it is. -/
def partsOf (c : Instr) : List Part :=
  match c with
  | .registerWrite _ _ _ _ _ | .imaskWrite _ _ | .matrixRequest _ | .matrixHang _ _ | .hungMasterReset _ | .perstNRelease | .snapshotRead _ =>
    everyPart
  | .sdiCarrierDetect _ | .cdrLock _ _ | .trsLock _ | .acquisitionAbort _ | .ringDrained _ | .pfailClear | .entropyHealthPass =>
    [.regs]
  | .startBoundary _ _ _ =>
    [.regs, .media, .xpt, .fst, .vec]
  | .rateForceWrite _ _ _ =>
    [.regs, .media, .xpt, .fst, .aud, .vec, .mtx]
  | .lineCrcError _ | .qeLinkDown _ _ | .fecUncorrectable _ _ | .sapFrameErr _ | .aesCsBlock _ _ | .lvFrameError _ | .admitRaiseStep _ _ |
    .crossingRelease _ _ | .vholdOkSet | .timeExchange _ _ =>
    [.regs, .vec]
  | .ancChecksumError _ _ | .clockWide _ _ | .fifoSlip _ _ | .audioClockLost _ | .sapMaskApply _ | .aesParityError _ _ _ =>
    [.regs, .aud, .vec]
  | .multiWrite _ _ _ | .txEnWrite _ _ _ _ =>
    [.regs, .media, .vec, .mtx]
  | .groupForm _ _ _ _ | .ptpTimestamp _ _ _ _ =>
    [.regs, .media, .vec]
  | .groupSkew _ _ _ | .sdiLoss _ _ | .refQualified _ _ _ _ | .wtrExpired _ _ | .refDeclaredLost _ _ | .refDisqualified _ _ _ _ =>
    [.regs, .free, .media, .xpt, .fst, .che, .sou, .aud, .host, .vec, .hostMem, .ref, .syn, .sec, .axl]
  | .txLeaveIdle _ _ | .lvMuteResume _ _ =>
    [.regs, .media, .xpt, .aud, .vec]
  | .followRangeIdle _ _ =>
    [.regs, .media, .aud, .vec]
  | .qeModeWrite _ _ | .aesoEnWrite _ _ | .ringDisable _ =>
    [.regs, .vec, .mtx]
  | .qeRxFrame _ _ _ _ _ _ | .followLoopRetuneEnd _ _ =>
    [.regs, .media, .xpt]
  | .qeLinkUp _ _ =>
    [.regs, .media]
  | .igmpQuery _ _ _ | .legLost _ _ _ =>
    [.media]
  | .flowLoss _ _ _ =>
    [.regs, .media, .xpt, .fst, .aud]
  | .routeSet _ _ _ | .takeAt _ _ _ | .routeSync _ _ | .routeConvert _ _ _ =>
    [.regs, .media, .xpt, .fst, .che, .sou, .aud, .host, .vec, .hostMem, .sec, .axl, .hsf, .mate]
  | .salvo _ _ | .salvoCancel _ _ _ =>
    [.regs, .xpt, .fst, .che, .sou, .aud, .host, .vec, .hostMem, .sec, .axl, .hsf, .mate]
  | .takeExecute _ _ | .untimedChangeover _ _ | .leapExecute _ _ _ | .leapNoTimingExecute _ _ _ =>
    [.regs, .media, .xpt, .fst, .che, .sou, .aud, .host, .vec, .hostMem, .sec]
  | .leapArm _ _ _ =>
    [.host]
  | .pgCfgWrite _ _ | .ufmtModeWrite _ _ =>
    [.regs, .xpt, .vec, .mtx]
  | .pgFrameBoundary _ _ =>
    [.regs, .media, .xpt, .fst]
  | .sourceFrameSigned _ _ _ =>
    [.regs, .media, .xpt, .fst, .fstMem, .aud, .vec]
  | .destFrameSent _ _ _ _ | .eccCorrected _ _ | .eccUncorrectable _ _ _ | .patrolScrub _ _ | .synSearchTimeout _ _ | .avsFault | .avsRetry _ |
    .handshakeTimeout _ _ _ | .errorDetected _ _ _ | .selfTestEnd _ _ =>
    [.regs, .media, .xpt, .fst, .fstMem, .che, .sou, .aud, .vec, .syn, .flt, .hsf]
  | .bufAlloc _ _ _ _ _ _ | .bufFree _ _ =>
    [.regs, .fst, .host, .vec, .axl, .hsf, .mate]
  | .bufWrite _ _ _ =>
    [.regs, .fst, .fstMem, .sou, .host, .vec, .axl, .hsf, .mate]
  | .bufRead _ _ _ _ _ =>
    [.regs, .fst, .host, .vec, .hostMem, .axl, .hsf, .mate]
  | .bufferRefRelease _ =>
    [.fst]
  | .cwFrameStart _ _ _ | .cwResume _ _ _ =>
    [.regs, .fst]
  | .cwFrameComplete _ _ _ =>
    [.regs, .fst, .fstMem, .sou]
  | .granuleListSwitch _ =>
    [.fst, .fstMem]
  | .ctxAdmit _ _ _ _ _ | .ctxParam _ _ _ _ _ =>
    [.regs, .fst, .che, .host, .vec, .axl, .hsf, .mate]
  | .ctxRelease _ _ _ =>
    [.regs, .xpt, .fst, .che, .sou, .aud, .host, .vec, .axl, .hsf, .mate]
  | .ctxParamApply _ _ | .ctxRunStart _ _ | .ctxReleaseStop _ _ | .ctxMoveComplete _ _ | .orphanReadmit _ =>
    [.fst, .che]
  | .ctxParkStop _ _ =>
    [.che]
  | .sliceStart _ _ | .sliceDeadlineMiss _ _ =>
    [.regs, .fst, .fstMem, .che, .sou, .vec]
  | .sliceEnd _ _ =>
    [.fst, .fstMem, .che, .sou]
  | .souCfg _ _ =>
    [.regs, .free, .fst, .sou, .host, .vec, .axl, .hsf, .mate]
  | .souCommit _ _ =>
    [.regs, .free, .host, .vec, .axl, .hsf, .mate]
  | .commitLatch _ _ | .croak _ _ | .cqHeadWrite _ _ | .descriptorFetch _ _ _ | .pairingTimeout | .domainAckReceive _ _ _ _ =>
    [.regs, .host, .vec]
  | .commitExecute _ _ | .souResume _ _ =>
    [.regs, .media, .xpt, .fst, .che, .sou, .aud, .host, .vec, .hostMem, .syn, .sec]
  | .newTimingStart _ _ =>
    [.regs, .media, .xpt, .fst, .che, .sou]
  | .souFrameStart _ _ =>
    [.regs, .media, .xpt, .fst, .sou, .aud, .vec, .syn]
  | .lineUnderrun _ _ _ | .fetchUrgencyChange _ _ _ _ =>
    [.regs, .sou, .vec]
  | .audMap _ _ =>
    [.regs, .fst, .aud, .host, .vec, .axl, .hsf, .mate]
  | .audFade _ _ | .nop _ | .persistPut _ _ _ _ _ | .matePair _ _ | .mateHandover _ _ _ | .mateResetPartner _ _ =>
    [.regs, .host, .vec, .axl, .hsf, .mate]
  | .sapCfg _ _ =>
    [.regs, .taken, .aud, .host, .vec, .axl, .hsf, .mate]
  | .mapExecute _ =>
    [.regs, .fst, .aud, .host, .vec, .hostMem, .sec]
  | .matrixSample _ _ _ _ =>
    [.regs, .media, .fst, .aud, .host, .vec]
  | .lipsyncMeasure _ _ =>
    [.regs, .fst, .aud, .vec]
  | .clockAcquire _ _ | .clockSteered _ _ _ | .clockWideReturn _ _ | .clockLocked _ _ _ | .clockUnlock _ _ =>
    [.aud]
  | .refInEnWrite _ _ _ | .refInSrcWrite _ _ _ _ _ | .refQualWrite _ _ _ | .refPrioWrite _ _ _ _ | .blockResetAssert _ =>
    [.regs, .free, .media, .xpt, .fst, .che, .sou, .aud, .host, .vec, .hostMem, .ref, .syn, .sec, .axl, .mtx]
  | .refActivity _ _ _ _ =>
    [.regs, .ref]
  | .refSuspect _ _ _ _ =>
    [.regs, .ref, .axl]
  | .refSuspectClear _ _ | .loopLock _ =>
    [.regs, .vec, .ref]
  | .refForceWrite _ _ _ =>
    [.regs, .free, .vec, .ref, .axl, .mtx]
  | .refSwitchExecute _ _ =>
    [.regs, .free, .media, .xpt, .fst, .che, .sou, .aud, .host, .vec, .hostMem, .ref, .syn, .sec, .axl, .mate]
  | .loopUnlock _ _ =>
    [.regs, .free, .vec, .ref, .axl]
  | .trackBwApply _ | .fpPulse _ _ =>
    [.ref]
  | .holdoverUpdate _ _ =>
    [.regs, .vec, .ref, .pkg]
  | .ageingDaily _ _ _ _ _ =>
    [.regs, .media, .xpt, .fst, .fstMem, .che, .sou, .aud, .vec, .ref, .syn, .flt, .axl, .hsf]
  | .todWrite _ _ =>
    [.regs, .taken, .vec, .ref, .mtx]
  | .todApply _ =>
    [.regs, .media, .xpt, .fst, .che, .sou, .aud, .host, .vec, .hostMem, .ref, .syn, .sec]
  | .synCtlWrite _ _ _ =>
    [.regs, .media, .xpt, .sou, .aud, .vec, .syn, .mtx]
  | .synLock _ _ _ _ _ =>
    [.regs, .aud, .vec, .syn]
  | .synLockLoss _ _ _ | .synRefLoss _ _ =>
    [.regs, .media, .xpt, .sou, .aud, .vec, .syn]
  | .synRelockStart _ _ | .synRefReturn _ _ | .blockClockQualified _ _ =>
    [.regs, .syn]
  | .bandStore _ _ _ | .absorbDone _ _ | .rampSegmentEnd _ _ =>
    [.regs, .vec, .syn]
  | .synStepPass _ _ =>
    [.syn]
  | .rampGo _ _ _ | .rampAbort _ _ | .blockResetRelease _ _ =>
    [.regs, .vec, .syn, .mtx]
  | .hostLinkReset _ | .perstAssert =>
    [.regs, .fst, .host, .vec, .hsf, .mtx]
  | .ringEnable _ =>
    [.regs, .host, .vec, .hostMem, .sec]
  | .ringAbandon _ =>
    [.regs, .xpt, .fst, .che, .sou, .aud, .host, .vec, .hostMem, .sec, .mtx]
  | .completionPost _ _ _ =>
    [.regs, .fst, .host, .vec, .hostMem]
  | .coalTimerExpiry _ _ =>
    [.host, .vec]
  | .queryStatus _ _ | .stats _ _ | .persistGet _ _ _ _ _ =>
    [.regs, .host, .vec, .hostMem, .axl, .hsf, .mate]
  | .flowRxCfg _ _ | .flowTxCfg _ _ =>
    [.regs, .media, .xpt, .fst, .aud, .host, .vec, .axl, .hsf, .mate]
  | .persistStore _ _ =>
    [.regs, .media, .xpt, .fst, .fstMem, .che, .sou, .aud, .host, .vec, .syn, .flt, .axl, .hsf, .mate]
  | .attest _ _ _ _ | .logCheckpoint _ _ _ | .keyPin _ _ _ _ | .keyUnpin _ _ | .signingEnter _ | .signingLeave _ | .domainKeyInstall _ _ _ |
    .domainKeyErase _ =>
    [.regs, .host, .vec, .hostMem, .sec, .axl, .hsf, .mate]
  | .domainMsg _ _ _ _ _ _ _ =>
    [.regs, .media, .host, .vec, .axl, .hsf, .mate]
  | .mateDetach _ =>
    [.regs, .host, .vec, .lv, .axl, .hsf, .mate]
  | .lvSpiRead _ | .irqStatRead | .lvRegisterWrite _ _ =>
    [.lv]
  | .lvTakeWrite _ _ | .outSelWrite _ _ _ =>
    [.regs, .vec, .hostMem, .lv, .sec]
  | .outCtlWrite _ _ _ =>
    [.regs, .media, .aud, .vec, .lv]
  | .lvTakeNEdge _ _ =>
    [.regs, .free, .vec, .hostMem, .lv, .sec]
  | .lvTakeArm _ =>
    [.regs, .free, .media, .xpt, .fst, .che, .sou, .aud, .host, .vec, .hostMem, .lv, .sec, .mate]
  | .lvOutputSwitch _ _ =>
    [.regs, .media, .xpt, .fst, .che, .sou, .aud, .vec, .hostMem, .lv, .sec]
  | .lvStatusFollow =>
    [.regs, .aud, .vec, .lv]
  | .lvpWinWrite _ _ =>
    [.regs, .media, .aud, .host, .vec, .lv, .axl, .mtx, .mate]
  | .slackMeasure _ _ | .voltageLowerStep _ _ | .voltageRaiseStep _ _ =>
    [.regs, .vec, .hsf]
  | .vctlWrite _ =>
    [.regs, .host, .vec, .lv, .axl, .hsf, .mtx, .mate]
  | .powerOn | .brownOut | .pinReset | .clockMonitorFail _ | .cclkRelockTimeout | .watchdogExpiry | .softwareResetRequest _ | .debugResetRequest |
    .mcLockup | .remoteResetReceive | .autostoreEnd _ _ | .vholdCollapse _ =>
    [.regs, .taken, .snap, .media, .xpt, .fst, .fstMem, .che, .sou, .aud, .host, .vec, .lv, .ref, .syn, .sec, .flt, .axl, .rst, .hsf, .mtx, .mate, .pkg]
  | .resetNRelease | .powerGoodReturn =>
    [.regs, .vec, .axl, .rst]
  | .optionLoad _ =>
    [.regs, .vec, .lv, .rst]
  | .recallRecords _ =>
    [.regs, .free, .host, .vec, .ref, .sec, .flt, .axl, .rst, .mtx]
  | .bootImageVerify _ _ =>
    [.regs, .host, .vec, .rst]
  | .controlPlaneUp _ =>
    [.regs, .media, .xpt, .fst, .che, .sou, .aud, .host, .vec, .hostMem, .lv, .syn, .sec, .axl, .rst]
  | .dataPlaneStart _ _ =>
    [.regs, .free, .media, .xpt, .fst, .fstMem, .che, .sou, .aud, .host, .vec, .hostMem, .lv, .ref, .syn, .sec, .flt, .axl, .rst, .hsf, .mate]
  | .warmReset =>
    [.regs, .taken, .free, .media, .xpt, .fst, .fstMem, .che, .sou, .aud, .host, .vec, .lv, .syn, .sec, .flt, .rst, .hsf, .mtx, .mate, .pkg]
  | .warmReady _ =>
    [.regs, .xpt, .fst, .che, .sou, .aud, .host, .vec, .lv, .sec, .rst, .mate]
  | .recordStore _ _ _ | .vholdOkClear | .marginRead _ =>
    [.regs, .media, .xpt, .fst, .fstMem, .che, .sou, .aud, .vec, .syn, .flt, .axl, .hsf]
  | .powerFailTrip _ =>
    [.regs, .sec, .axl]
  | .axlCtlWrite _ _ =>
    [.regs, .media, .xpt, .fst, .fstMem, .che, .sou, .aud, .host, .vec, .lv, .syn, .flt, .axl, .hsf, .mtx, .mate]
  | .presetCapture _ _ =>
    [.regs, .media, .xpt, .fst, .fstMem, .che, .sou, .aud, .vec, .syn, .flt, .axl, .hsf, .mtx]
  | .heartbeatSend =>
    [.mate]
  | .heartbeatReceive _ _ _ | .pathLost _ _ | .partnerRestartTimeout _ | .mateLinkDown | .mateLinkUp _ | .sidebandLost =>
    [.regs, .free, .host, .vec, .lv, .axl, .mate]
  | .stateTransferDone _ _ | .forwardReceive _ _ _ _ =>
    [.regs, .taken, .free, .media, .xpt, .fst, .fstMem, .che, .sou, .aud, .host, .vec, .hostMem, .lv, .syn, .sec, .flt, .axl, .hsf, .mate]
  | .forwardAck _ | .forwardAckTimeout _ =>
    [.regs, .host, .vec, .lv, .mate]
  | .handoverSwap _ | .detachReceive =>
    [.regs, .host, .vec, .lv, .axl, .mate]
  | .domainPacketReceive _ _ =>
    [.regs, .media, .host, .vec, .mate]
  | .domainRetransmit _ =>
    [.regs, .media, .host, .vec]
  | .lcProvision _ | .lcField | .lcRma _ _ =>
    [.regs, .free, .vec, .hostMem, .sec, .axl, .mtx]
  | .lcEnd _ =>
    [.regs, .free, .media, .xpt, .fst, .aud, .vec, .hostMem, .ref, .sec, .axl, .mtx]
  | .vendorDebugSession _ =>
    [.regs, .free, .vec, .mtx]
  | .identityKeyGenerated =>
    [.regs, .free, .sec, .axl]
  | .routeLogKeyGenerated =>
    [.regs, .host, .vec, .hostMem, .sec, .axl]
  | .entropyFail =>
    [.regs, .free, .vec, .sec]
  | .checkpointPeriod _ =>
    [.regs, .vec, .hostMem, .sec, .axl]
  | .logTailWrite _ =>
    [.regs, .vec, .hostMem, .sec, .mtx]
  | .logSetupWrite _ _ =>
    [.regs, .taken, .vec, .hostMem, .sec, .mtx]
  | .selfTestStart _ =>
    [.regs, .free, .media, .xpt, .fst, .che, .sou, .aud, .host, .vec, .hostMem, .lv, .ref, .syn, .sec, .flt, .axl, .hsf, .mate]
  | .fltAckWrite _ =>
    [.regs, .vec, .flt, .mtx]
  | .fltUnfenceWrite _ _ =>
    [.regs, .free, .vec, .flt, .mtx]
  | .i2cRead _ | .i2cWrite _ _ | .extTempRead _ _ | .boundaryScanInstruction _ | .overTemperature _ =>
    [.pkg]
  | .pairRequestReceive _ =>
    [.regs, .vec, .axl, .mate]
  | .retentionVoltageLoss =>
    [.rst]

/-- From `s` to `t` nothing changes but registers of the list, the time last seen, and what raised vectors leave (pending bits and
messages sent). -/
def State.onlyRegs (s t : State) (l : List Nat) : Prop :=
  t = { s with regs := t.regs, now := t.now, host := { s.host with pba := t.host.pba, sent := t.host.sent } } ∧
    ∀ a, a ∉ l → t.rd a = s.rd a

/-- Register writes that software makes arrive: bring-up has ended, the host has enumerated the function, the control clock runs, and the
lifecycle is not END. -/
def State.up (s : State) : Prop := s.hostUp = true ∧ s.lifecycle ≠ 4

/-- A write of the register at BAR0 offset `a` by the host's direct path is taken: the host's port does not hang, and tables and locks let it
through (R345 to R348). -/
def State.upFor (s : State) (a : Nat) : Prop := s.up ∧ s.hung 6 = false ∧ s.hostMay a = true

/-- The common checks pass a descriptor of ring `h.ring` on to its opcode's own, in state `v`; it is not a forwarded or restored one, and
an in-flight entry is free for it. -/
def State.admits (s : State) (r : DescRule) (h : Hdr) (v : State) : Prop :=
  s.vet r h = .pass v ∧ v.host.fwdNow = false ∧ v.host.restoring = false ∧ v.entriesFree 1 = true

/-- From `v` to `t` one completion joins those that wait to be posted: the descriptor's, with this status and result. -/
def State.posts (v t : State) (h : Hdr) (status result : Nat) : Prop :=
  ∃ c, t.host.cpls = v.host.cpls ++ [c] ∧ c.ring = h.ring.val ∧ c.tag = h.tag ∧ c.status = status ∧ c.result = result

/-- From `v` to `t` one operation joins those in flight: the descriptor's. -/
def State.flies (v t : State) (h : Hdr) (body : OpBody) : Prop :=
  ∃ o, t.host.ops = v.host.ops ++ [o] ∧ o.dest = .ring h.ring.val ∧ o.tag = h.tag ∧ o.body = body

/-- From `s` to `t` nothing changes but registers, the host side, the time last seen, and what the twin and the fabric keep of
descriptors. -/
def State.hostOnly (s t : State) : Prop :=
  t = { s with regs := t.regs, host := t.host, mate := t.mate, hsf := t.hsf, now := t.now }

end Sys2Proof.Machine
end

