-- ==== Sys2Proof/Certificates/Slice0/Obligations.lean ====
section
/-! DEFINITION. What is claimed of the model: the statements for the provers, chapter by chapter of the specification. -/
open Sys2Proof Sys2Proof.Machine

/-! ### The block -/

/-- A step takes the command at the front of the queue and carries it out with the rest of the queue. -/
def Obligations.StepRunsFrontCommand : Prop :=
  ∀ (s : State) (c : Instr), step (s.give c) = exec c s

/-- On an empty queue the block idles. This is the model's own choice (assumption log, entry 1): the specification has no queue of commands. -/
def Obligations.EmptyQueueIdles : Prop :=
  ∀ s : State, s.pending = [] → step s = .next s

/-- Every step keeps registers and memories in canonical form: offsets and addresses rise strictly, and no entry equals what an unlisted one
reads as. It holds in every state, not only in those a run from reset reaches. -/
def Obligations.StepKeepsCanonicalForm : Prop :=
  ∀ s t : State, s.wf → step s = .next t → t.wf

/-- After reset registers and memories are in canonical form, no command waits, and every register reads its reset value. Where the
specification gives a register no reset value, the value is the model's choice (log entry 25), and the empty queue is the model's own (log entry 1). -/
def Obligations.ResetState : Prop := State.reset.wf ∧ State.reset.pending = [] ∧ ∀ a, State.reset.rd a = resetVal a

/-- No command is refused and none ends in a fault: each answers a next state, in every state and for every operand, and leaves the queue to the
step. -/
def Obligations.EveryCommandAnswersNext : Prop :=
  ∀ (c : Instr) (s : State), ∃ t, exec c s = .next t ∧ t.pending = s.pending

/-- The frame of every command: `partsOf c` lists the parts of the state that command `c` may change; every other part stays as it is,
registers, memories, FIFOs and tables alike. -/
def Obligations.FrameOfEveryCommand : Prop :=
  ∀ (c : Instr) (s t : State), exec c s = .next t → s.within t (partsOf c)

/-! ### SDI lanes and 400 GbE ports (02_media_ports.md) -/

/-- Acquisition on a receive lane (from R32, R37, R41). On a lane that runs CARRIER sets; CDR_LOCK sets with the rate found when no rate is forced or
the forced one matches; a forced rate that does not match never sets CDR_LOCK; TRS_LOCK follows CDR_LOCK; an acquisition that ends before TRS_LOCK
clears CARRIER, CDR_LOCK and RATE and declares no loss. Each changes the named fields of SDI_RX_STAT and nothing else, but that GROUP_OK of the leader
of the lane's group follows TRS_LOCK (from R40): set where every lane of the group is locked at the leader's rate and within the skew limit, else
clear. That an event whose condition does not hold changes nothing is the model's choice (log entry 146). Each of these commands is shown to complete,
under conditions on the state and its operands alone: sdiCarrierDetect, cdrLock, trsLock, acquisitionAbort. -/
def Obligations.SdiAcquisition : Prop :=
  (∀ (s : State) (n : Fin 72), s.rxOn n = true →
    exec (.sdiCarrierDetect n) s = .next (s.set (R.SDI_RX_STAT n) F.SDI_RX_STAT_CARRIER 1)) ∧
  (∀ (s : State) (n : Fin 72) (rate : Nat), s.flag (R.SDI_RX_STAT n) F.SDI_RX_STAT_CARRIER = true →
    s.flag (R.SDI_RX_STAT n) F.SDI_RX_STAT_CDR_LOCK = false → 1 ≤ rate → rate ≤ 9 → (s.rateForce n = 0 ∨ s.rateForce n = rate) →
    exec (.cdrLock n rate) s =
      .next ((s.set (R.SDI_RX_STAT n) F.SDI_RX_STAT_CDR_LOCK 1).set (R.SDI_RX_STAT n) F.SDI_RX_STAT_RATE rate)) ∧
  (∀ (s : State) (n : Fin 72) (rate : Nat), s.rateForce n ≠ 0 → s.rateForce n ≠ rate → exec (.cdrLock n rate) s = .next s) ∧
  (∀ (s : State) (n : Fin 72), s.flag (R.SDI_RX_STAT n) F.SDI_RX_STAT_CDR_LOCK = true →
    exec (.trsLock n) s = .next ((s.set (R.SDI_RX_STAT n) F.SDI_RX_STAT_TRS_LOCK 1).groupShow n) ∧
    (s.rxLeader n = none → exec (.trsLock n) s = .next (s.set (R.SDI_RX_STAT n) F.SDI_RX_STAT_TRS_LOCK 1)) ∧
    (∀ m, s.rxLeader n = some m → ∃ t, exec (.trsLock n) s = .next t ∧
      t.get (R.SDI_RX_STAT m) F.SDI_RX_STAT_GROUP_OK = (if t.groupLocked m (t.rx m).group then 1 else 0) ∧
      s.onlyRegs t [R.SDI_RX_STAT n, R.SDI_RX_STAT m])) ∧
  (∀ (s : State) (n : Fin 72), s.flag (R.SDI_RX_STAT n) F.SDI_RX_STAT_TRS_LOCK = false →
    exec (.acquisitionAbort n) s =
      .next (((s.set (R.SDI_RX_STAT n) F.SDI_RX_STAT_CARRIER 0).set (R.SDI_RX_STAT n) F.SDI_RX_STAT_CDR_LOCK 0).set (R.SDI_RX_STAT n)
        F.SDI_RX_STAT_RATE 0))

/-- The start boundary (from R32, R33, R41): on a lane in TRS_LOCK that has no format yet, FORMAT shows the format that timing found, 0xFF for one the
format table does not hold, and a user format that no SDI rate carries; PID_VALID, PID_MISMATCH and LEVEL_B follow the signal, and SDI_RX_PID and
SDI_RX_ATC report what was received; after a loss RELOCK sets, and FMT_CHANGE where the format is another than before; the leader of a group starts
once every member is locked at its rate, and GROUP_OK sets where all are within the skew limit; where they are not it does not start and GROUP_SKEW
sets. No other register changes but GROUP_OK of the group's leader, SDI_TX_STAT of the lanes the signal feeds and the freeze counts. Clauses on a
point the specification leaves open follow the model's own reading (log entry 180). Each of these commands is shown to complete, under conditions on
the state and its operands alone: startBoundary. -/
def Obligations.SdiStartBoundary : Prop :=
  (∀ (s : State) (n : Fin 72) (m : LaneMeas) (t g : Nat) (l : RxLane), g = (s.rx n).group →
    s.flag (R.SDI_RX_STAT n) F.SDI_RX_STAT_TRS_LOCK = true → (s.rx n).meas = none → g ≠ 0 → s.groupLocks n g = true →
    (∀ f, f = (if s.rxKnown m.fmt then m.fmt else 0xFF) →
      l = { s.rx n with meas := some { m with fmt := f }, relock := false, lastFmt := some f }) →
    (s.setRx n l).groupNear n g = false →
    exec (.startBoundary n m t) s = .next ((s.at_ t).raise (Hist.srx n) F.SDI_RX_HIST_GROUP_SKEW)) ∧
  ∀ (s : State) (n : Fin 72) (m : LaneMeas) (t g : Nat) (l : RxLane), g = (s.rx n).group →
    s.flag (R.SDI_RX_STAT n) F.SDI_RX_STAT_TRS_LOCK = true → (s.rx n).meas = none →
    (∀ f, f = (if s.rxKnown m.fmt then m.fmt else 0xFF) →
      l = { s.rx n with meas := some { m with fmt := f }, relock := false, lastFmt := some f }) →
    (g = 0 ∨ (s.groupLocks n g = true ∧ (s.setRx n l).groupNear n g = true)) → m.fmt < 256 →
    ∃ u, exec (.startBoundary n m t) s = .next u ∧
      (g ≠ 0 → s.rxLeader n = some n.val → u.get (R.SDI_RX_STAT n) F.SDI_RX_STAT_GROUP_OK = 1) ∧
      (∀ f, f = (if s.rxKnown m.fmt then m.fmt else 0xFF) →
        u.get (R.SDI_RX_STAT n) F.SDI_RX_STAT_FORMAT = f ∧
        u.flag (R.SDI_RX_STAT n) F.SDI_RX_STAT_PID_MISMATCH = (m.pid.isSome && m.pidFmt != f) ∧
        (u.rx n).meas = some { m with fmt := f } ∧
        ((s.rx n).relock = true → (∃ g, (s.rx n).lastFmt = some g ∧ g ≠ f) →
          u.get (R.SDI_RX_HIST n) F.SDI_RX_HIST_FMT_CHANGE = 1)) ∧
      u.flag (R.SDI_RX_STAT n) F.SDI_RX_STAT_PID_VALID = m.pid.isSome ∧
      u.flag (R.SDI_RX_STAT n) F.SDI_RX_STAT_LEVEL_B = m.levelB ∧
      (∀ p, m.pid = some p → u.rd (R.SDI_RX_PID n) = p) ∧
      (∀ a, m.atc = some a → u.rd (R.SDI_RX_ATC n) = a) ∧
      ((s.rx n).relock = true → u.get (R.SDI_RX_HIST n) F.SDI_RX_HIST_RELOCK = 1) ∧
      (∀ a, a ∉ [R.SDI_RX_STAT n, R.SDI_RX_PID n, R.SDI_RX_ATC n, R.SDI_RX_HIST n] →
        (∀ k, s.rxLeader n = some k → a ≠ R.SDI_RX_STAT k) → (∀ k < 72, a ≠ R.SDI_TX_STAT k) →
        (∀ d, a ≠ R.XPT_FRZ_STAT d) → u.rd a = s.rd a)

/-- Line CRC errors (R34): at rates 0x2 to 0x9, with line alignment held, a line with an error adds one to SDI_RX_CRC_CNT and sets CRC_ERR, and
touches neither the picture nor lock state nor any other register, so that no loss is raised; at 270 Mb/s (rate 0x1) nothing is checked. -/
def Obligations.SdiLineCrc : Prop :=
  ∀ (s : State) (n : Fin 72),
    (s.flag (R.SDI_RX_STAT n) F.SDI_RX_STAT_TRS_LOCK = true → 2 ≤ s.get (R.SDI_RX_STAT n) F.SDI_RX_STAT_RATE →
      ∃ t, exec (.lineCrcError n) s = .next t ∧
        (t.rd (R.SDI_RX_CRC_CNT n)).toNat = min 0xFFFFFFFF ((s.rd (R.SDI_RX_CRC_CNT n)).toNat + 1) ∧
        t.get (R.SDI_RX_HIST n) F.SDI_RX_HIST_CRC_ERR = 1 ∧
        (∀ g : Bits, g.lo + g.width ≤ 2 ∨ 3 ≤ g.lo → t.get (R.SDI_RX_HIST n) g = s.get (R.SDI_RX_HIST n) g) ∧
        s.onlyRegs t [R.SDI_RX_CRC_CNT n, R.SDI_RX_HIST n]) ∧
    (s.get (R.SDI_RX_STAT n) F.SDI_RX_STAT_RATE = 1 → exec (.lineCrcError n) s = .next s)

/-- Ancillary checksum errors (from R35, R186) and the loss of an input (from R41): with line alignment held, a packet with a bad checksum adds one to
SDI_RX_ANC_DROP and sets ANC_CS_ERR, and the samples of an audio packet's channels are held; a loss brings the lane down (and, for a group, its
leader) and then reaches SDIA and SDIB where they take the lane; it adds one to SDI_RX_LOS_CNT, sets LOS and clears the lane's status. A lane without
TRS_LOCK has no signal to lose. Each of these commands is shown to complete, under conditions on the state and its operands alone: ancChecksumError,
sdiLoss. -/
def Obligations.SdiErrorsAndLoss : Prop :=
  (∀ (s : State) (n : Fin 72) (did : Nat), s.flag (R.SDI_RX_STAT n) F.SDI_RX_STAT_TRS_LOCK = true →
    ∃ t, exec (.ancChecksumError n did) s = .next t ∧
      (t.rd (R.SDI_RX_ANC_DROP n)).toNat = min 0xFFFFFFFF ((s.rd (R.SDI_RX_ANC_DROP n)).toNat + 1) ∧
      t.get (R.SDI_RX_HIST n) F.SDI_RX_HIST_ANC_CS_ERR = 1 ∧
      (∀ g k, dataGroup did = some g → k = s.groupChans n → s.rxMember n = false →
        t.aud.hold = ((List.range k).flatMap fun c => (List.range (4 / k)).map fun i => (audEp 1 n (k * g + c), i)) ++ s.aud.hold) ∧
      (dataGroup did = none → t.aud.hold = s.aud.hold) ∧
      { s with aud := { s.aud with hold := t.aud.hold } }.onlyRegs t [R.SDI_RX_ANC_DROP n, R.SDI_RX_HIST n]) ∧
  (∀ (s : State) (n : Fin 72) (at_ : Nat), s.flag (R.SDI_RX_STAT n) F.SDI_RX_STAT_TRS_LOCK = true →
    exec (.sdiLoss n at_) s = .next (((s.at_ at_).rxLoss n).sdiInputs)) ∧
  (∀ (s : State) (n : Fin 72) (at_ : Nat), s.flag (R.SDI_RX_STAT n) F.SDI_RX_STAT_TRS_LOCK = true → s.rxLeader n = none →
    s.inSt 6 < 2 → s.inSt 7 < 2 →
    ∃ t, exec (.sdiLoss n at_) s = .next t ∧ t.rd (R.SDI_RX_STAT n) = 0x00FF0000 ∧
      (t.rd (R.SDI_RX_LOS_CNT n)).toNat = min 0xFFFFFFFF ((s.rd (R.SDI_RX_LOS_CNT n)).toNat + 1) ∧
      t.get (R.SDI_RX_HIST n) F.SDI_RX_HIST_LOS = 1 ∧ (t.rx n).meas = none ∧ (t.rx n).relock = true ∧
      ∀ a, a ∉ [R.SDI_RX_STAT n, R.SDI_RX_LOS_CNT n, R.SDI_RX_HIST n] → (∀ k < 72, a ≠ R.SDI_TX_STAT k) →
        (∀ d, a ≠ R.XPT_FRZ_STAT d) → t.rd a = s.rd a) ∧
  (∀ (s : State) (n : Fin 72) (at_ : Nat), s.flag (R.SDI_RX_STAT n) F.SDI_RX_STAT_TRS_LOCK = false →
    exec (.sdiLoss n at_) s = .next (s.at_ at_))

/-- A forced rate (from R37, Table 2-2): writing another RATE_FORCE on a locked lane outside the LV window drops lock and keeps CARRIER, without LOS
and without a count, and the leader of the lane's group, where there is one, ends its picture; on a lane that is not locked it is stored alone;
writing the setting held, the reserved codes counting as 0, changes nothing but the time. Clauses on a point the specification leaves open follow the
model's own reading (log entry 181). Each of these commands is shown to complete, under conditions on the state and its operands alone:
rateForceWrite. -/
def Obligations.SdiRateForce : Prop :=
  (∀ (s : State) (n : Fin 72) (v at_ m : Nat), s.upFor (R.SDI_RX_CTL n) → s.lvRx n = false →
    s.get (R.SDI_RX_CTL n) F.SDI_RX_CTL_RATE_FORCE ≠ rateCode v → s.flag (R.SDI_RX_STAT n) F.SDI_RX_STAT_CDR_LOCK = true →
    s.rxLeader n = some m → m ≠ n →
    ∃ t : State, exec (.rateForceWrite n v at_) s = .next (t.groupRelock m) ∧ t.get (R.SDI_RX_CTL n) F.SDI_RX_CTL_RATE_FORCE = rateCode v ∧
      t.get (R.SDI_RX_STAT n) F.SDI_RX_STAT_CARRIER = s.get (R.SDI_RX_STAT n) F.SDI_RX_STAT_CARRIER ∧
      t.flag (R.SDI_RX_STAT n) F.SDI_RX_STAT_CDR_LOCK = false ∧ (t.rx n).relock = true) ∧
  (∀ (s : State) (n : Fin 72) (v at_ : Nat), s.upFor (R.SDI_RX_CTL n) → s.lvRx n = false →
    s.get (R.SDI_RX_CTL n) F.SDI_RX_CTL_RATE_FORCE ≠ rateCode v → s.flag (R.SDI_RX_STAT n) F.SDI_RX_STAT_CDR_LOCK = true →
    (∀ m, s.rxLeader n = some m → m = n) →
    ∃ t, exec (.rateForceWrite n v at_) s = .next t ∧ t.get (R.SDI_RX_CTL n) F.SDI_RX_CTL_RATE_FORCE = rateCode v ∧
      t.get (R.SDI_RX_STAT n) F.SDI_RX_STAT_CARRIER = s.get (R.SDI_RX_STAT n) F.SDI_RX_STAT_CARRIER ∧
      t.flag (R.SDI_RX_STAT n) F.SDI_RX_STAT_CDR_LOCK = false ∧ t.flag (R.SDI_RX_STAT n) F.SDI_RX_STAT_TRS_LOCK = false ∧
      (t.rx n).relock = true ∧
      ∀ a, a ∉ [R.SDI_RX_CTL n, R.SDI_RX_STAT n] → (∀ k < 72, a ≠ R.SDI_TX_STAT k) → (∀ d, a ≠ R.XPT_FRZ_STAT d) → t.rd a = s.rd a) ∧
  (∀ (s : State) (n : Fin 72) (v at_ : Nat), s.upFor (R.SDI_RX_CTL n) → s.lvRx n = false → s.get (R.SDI_RX_CTL n) F.SDI_RX_CTL_RATE_FORCE ≠ rateCode v →
    s.flag (R.SDI_RX_STAT n) F.SDI_RX_STAT_CDR_LOCK = false →
    exec (.rateForceWrite n v at_) s = .next ((s.at_ at_).set (R.SDI_RX_CTL n) F.SDI_RX_CTL_RATE_FORCE (rateCode v))) ∧
  (∀ (s : State) (n : Fin 72) (v at_ : Nat), s.upFor (R.SDI_RX_CTL n) → s.get (R.SDI_RX_CTL n) F.SDI_RX_CTL_RATE_FORCE = rateCode v →
    exec (.rateForceWrite n v at_) s = .next (s.at_ at_))

/-- Multi-link groups (from R38 to R40). On a receive lane a MULTI value that names a valid group on a leader none of whose lanes is a route source
asks for the group; one that cannot form a group is kept, drops the request and sets MULTI_ERR; 00 ends the group. On a transmit lane the same without
MULTI_ERR. A requested group forms at the next frame boundary, with the format of the whole image, FMT_CHANGE where that is another than shown, and
with GROUP_OK when every member is locked at the leader's rate and any two are within the skew limit; one that no mapping carries any more, or with a
member locked at another rate, is dropped with MULTI_ERR. A skew beyond 10 µs sets GROUP_SKEW on the leader, and the group is lost. Clauses on points
the specification leaves open follow the model's own reading (log entries 151, 155, 156, 181). Each of these commands is shown to complete, under
conditions on the state and its operands alone: multiWrite, groupForm, groupSkew. -/
def Obligations.SdiGroups : Prop :=
  (∀ (s : State) (n : Fin 72) (v : Nat), s.upFor (R.SDI_RX_CTL n) → s.lvRx n = false → s.rxMember n = false → multiLinks v ≠ 1 →
    groupValid n (multiLinks v) = true → s.rxGroupBusy n (multiLinks v) = false →
    ∃ t, exec (.multiWrite false n v) s = .next t ∧ t.get (R.SDI_RX_CTL n) F.SDI_RX_CTL_MULTI = v % 4 ∧
      t.rx n = { s.rx n with groupReq := multiLinks v } ∧ ∀ a, a ≠ R.SDI_RX_CTL n → t.rd a = s.rd a) ∧
  (∀ (s : State) (n : Fin 72) (v : Nat), s.upFor (R.SDI_RX_CTL n) → s.lvRx n = false → s.rxMember n = false → multiLinks v ≠ 1 →
    (groupValid n (multiLinks v) = false ∨ s.rxGroupBusy n (multiLinks v) = true) →
    ∃ t, exec (.multiWrite false n v) s = .next t ∧ t.get (R.SDI_RX_CTL n) F.SDI_RX_CTL_MULTI = v % 4 ∧
      t.get (R.SDI_RX_HIST n) F.SDI_RX_HIST_MULTI_ERR = 1 ∧ t.rx n = { s.rx n with groupReq := 0 } ∧
      ∀ a, a ∉ [R.SDI_RX_CTL n, R.SDI_RX_HIST n] → t.rd a = s.rd a) ∧
  (∀ (s : State) (n : Fin 72) (v : Nat), s.upFor (R.SDI_RX_CTL n) → s.lvRx n = false → s.rxMember n = false → multiLinks v = 1 →
    s.rxGroupBusy n (s.rxLinks n) = false →
    ∃ t, exec (.multiWrite false n v) s = .next t ∧ t.get (R.SDI_RX_CTL n) F.SDI_RX_CTL_MULTI = v % 4 ∧
      t.get (R.SDI_RX_STAT n) F.SDI_RX_STAT_GROUP_OK = 0 ∧
      ((s.rx n).group = 0 ∨ (s.rx n).meas = none → t.rx n = { s.rx n with groupReq := 0, group := 0 } ∧
        ∀ a, a ∉ [R.SDI_RX_CTL n, R.SDI_RX_STAT n] → t.rd a = s.rd a) ∧
      ((s.rx n).group ≠ 0 → (s.rx n).meas ≠ none → t.rx n = { s.rx n with groupReq := 0, group := 0, meas := none } ∧
        t.get (R.SDI_RX_STAT n) F.SDI_RX_STAT_FORMAT = 0xFF ∧ t.get (R.SDI_RX_HIST n) F.SDI_RX_HIST_FMT_CHANGE = 1) ∧
      ∀ a, a ∉ [R.SDI_RX_CTL n, R.SDI_RX_STAT n, R.SDI_RX_HIST n] → t.rd a = s.rd a) ∧
  (∀ (s : State) (n : Fin 72) (v : Nat), s.upFor (R.SDI_RX_CTL n) → s.lvRx n = false → s.rxMember n = false → multiLinks v = 1 →
    s.rxGroupBusy n (s.rxLinks n) = true →
    ∃ t, exec (.multiWrite false n v) s = .next t ∧ t.get (R.SDI_RX_CTL n) F.SDI_RX_CTL_MULTI = v % 4 ∧
      t.get (R.SDI_RX_HIST n) F.SDI_RX_HIST_MULTI_ERR = 1 ∧ t.rx n = { s.rx n with groupReq := 0 } ∧
      ∀ a, a ∉ [R.SDI_RX_CTL n, R.SDI_RX_HIST n] → t.rd a = s.rd a) ∧
  (∀ (s : State) (n : Fin 72) (v : Nat), s.upFor (R.SDI_TX_CTL n) → s.lvTx n = false → s.txMember n = false →
    ∃ t, exec (.multiWrite true n v) s = .next t ∧ t.get (R.SDI_TX_CTL n) F.SDI_TX_CTL_MULTI = v % 4 ∧
      (multiLinks v ≠ 1 → groupValid n (multiLinks v) = true → s.txGroupBusy n (multiLinks v) = false →
        t.tx n = { s.tx n with groupReq := multiLinks v }) ∧
      (multiLinks v ≠ 1 → (groupValid n (multiLinks v) = false ∨ s.txGroupBusy n (multiLinks v) = true) →
        t.tx n = { s.tx n with groupReq := 0 }) ∧
      (multiLinks v = 1 → s.txGroupBusy n (s.txLinks n) = false → t.tx n = { s.tx n with groupReq := 0, group := 0 }) ∧
      t.xpt = s.xpt ∧ ∀ a, a ≠ R.SDI_TX_CTL n → (∀ k < 72, a ≠ R.SDI_TX_STAT k) → t.rd a = s.rd a) ∧
  (∀ (s : State) (n : Fin 72) (fmt at_ k : Nat), k = (s.rx n).groupReq → k ≠ 0 → fmt < 256 →
    s.flag (R.SDI_RX_STAT n) F.SDI_RX_STAT_TRS_LOCK = true → groupValid n k = true → s.rxGroupBusy n k = false →
    groupRate (s.get (R.SDI_RX_STAT n) F.SDI_RX_STAT_RATE) k (((s.fmt? fmt).map (·.lines)).getD 0) = true →
    (∀ i < k, s.flag (R.SDI_RX_STAT (n + i)) F.SDI_RX_STAT_CDR_LOCK = true →
      s.get (R.SDI_RX_STAT (n + i)) F.SDI_RX_STAT_RATE = s.get (R.SDI_RX_STAT n) F.SDI_RX_STAT_RATE) →
    ∃ t, exec (.groupForm false n fmt at_) s = .next t ∧
      (∀ i, i = (if (s.fmt? fmt).isSome then fmt else 0xFF) →
        t.rx n = { s.rx n with groupReq := 0, group := k, meas := (s.rx n).meas.map fun m => { m with fmt := i } } ∧
        t.get (R.SDI_RX_STAT n) F.SDI_RX_STAT_FORMAT = i ∧
        ((s.rx n).meas ≠ none → s.get (R.SDI_RX_STAT n) F.SDI_RX_STAT_FORMAT ≠ i →
          t.get (R.SDI_RX_HIST n) F.SDI_RX_HIST_FMT_CHANGE = 1)) ∧
      (t.rxLeader n = some n.val →
        t.get (R.SDI_RX_STAT n) F.SDI_RX_STAT_GROUP_OK = (if t.groupLocked n k then 1 else 0)) ∧
      ∀ a, a ∉ [R.SDI_RX_STAT n, R.SDI_RX_HIST n] → (∀ m, t.rxLeader n = some m → a ≠ R.SDI_RX_STAT m) → t.rd a = s.rd a) ∧
  (∀ (s : State) (n : Fin 72) (fmt at_ k : Nat), k = (s.rx n).groupReq → k ≠ 0 →
    s.flag (R.SDI_RX_STAT n) F.SDI_RX_STAT_TRS_LOCK = true →
    (groupValid n k = false ∨ s.rxGroupBusy n k = true ∨
      groupRate (s.get (R.SDI_RX_STAT n) F.SDI_RX_STAT_RATE) k (((s.fmt? fmt).map (·.lines)).getD 0) = false ∨
      (∃ i, i < k ∧ s.flag (R.SDI_RX_STAT (n + i)) F.SDI_RX_STAT_CDR_LOCK = true ∧
        s.get (R.SDI_RX_STAT (n + i)) F.SDI_RX_STAT_RATE ≠ s.get (R.SDI_RX_STAT n) F.SDI_RX_STAT_RATE)) →
    ∃ t, exec (.groupForm false n fmt at_) s = .next t ∧ t.rx n = { s.rx n with groupReq := 0 } ∧
      t.get (R.SDI_RX_HIST n) F.SDI_RX_HIST_MULTI_ERR = 1 ∧ ∀ a, a ≠ R.SDI_RX_HIST n → t.rd a = s.rd a) ∧
  (∀ (s : State) (n : Fin 72) (fmt at_ k : Nat), k = (s.tx n).groupReq → k ≠ 0 → groupValid n k = true → s.txGroupBusy n k = false →
    ∃ t, exec (.groupForm true n fmt at_) s = .next t ∧ t.tx n = { s.tx n with groupReq := 0, group := k } ∧ t.xpt = s.xpt ∧
      ∀ a, (∀ k < 72, a ≠ R.SDI_TX_STAT k) → t.rd a = s.rd a) ∧
  (∀ (s : State) (n : Fin 72) (skew at_ : Nat), (s.rx n).group ≠ 0 → 10000 < skew →
    exec (.groupSkew n skew at_) s = .next ((((s.at_ at_).raise (Hist.srx n) F.SDI_RX_HIST_GROUP_SKEW).rxLoss n).sdiInputs)) ∧
  (∀ (s : State) (n : Fin 72) (skew at_ : Nat), (s.rx n).group ≠ 0 → 10000 < skew → s.rxLeader n = some n.val → s.inSt 6 < 2 → s.inSt 7 < 2 →
    ∃ t, exec (.groupSkew n skew at_) s = .next t ∧ t.get (R.SDI_RX_HIST n) F.SDI_RX_HIST_GROUP_SKEW = 1 ∧
      t.get (R.SDI_RX_HIST n) F.SDI_RX_HIST_LOS = 1 ∧ t.rd (R.SDI_RX_STAT n) = 0x00FF0000 ∧ (t.rx n).meas = none ∧
      (t.rx n).group = (s.rx n).group) ∧
  (∀ (s : State) (n : Fin 72) (skew at_ : Nat), skew ≤ 10000 → exec (.groupSkew n skew at_) s = .next (s.at_ at_))

/-- Transmit lanes (from R42, R44, R46): turning a lane off keeps its route and idles it at once with IDLE_WHY 1 and RATE 0; one turned on leaves idle
no sooner than 100 µs later; an idle lane with no idle condition that is due leaves idle at a frame boundary, ACTIVE with the rate code of its source;
a DIRECT source outside ±100 ppm of its nominal rate idles the lane with an IDLE_WHY of 7 or a lower condition that holds too. In LV personality the
AES outputs then follow (from R305, `lvAes_`); else nothing else happens. Clauses on a point the specification leaves open follow the model's own
reading (log entry 8). Each of these commands is shown to complete, under conditions on the state and its operands alone: txEnWrite, txLeaveIdle,
followRangeIdle. -/
def Obligations.SdiTransmit : Prop :=
  (∀ (s : State) (n : Fin 72) (en pd : Bool) (at_ : Nat), s.upFor (R.SDI_TX_CTL n) → s.lvTx n = false → (en = false ∨ pd = true) →
    ∃ t, exec (.txEnWrite n en pd at_) s = .next t ∧ t.get (R.SDI_TX_STAT n) F.SDI_TX_STAT_ACTIVE = 0 ∧
      t.get (R.SDI_TX_STAT n) F.SDI_TX_STAT_IDLE_WHY = 1 ∧ t.get (R.SDI_TX_STAT n) F.SDI_TX_STAT_RATE = 0 ∧
      t.flag (R.SDI_TX_CTL n) F.SDI_TX_CTL_EN = en ∧ t.flag (R.SDI_TX_CTL n) F.SDI_TX_CTL_PD = pd ∧
      t.xpt = s.xpt ∧ s.onlyRegs t [R.SDI_TX_CTL n, R.SDI_TX_STAT n]) ∧
  (∀ (s : State) (n : Fin 72) (at_ : Nat), s.upFor (R.SDI_TX_CTL n) → s.lvTx n = false →
    (s.flag (R.SDI_TX_CTL n) F.SDI_TX_CTL_EN && !s.flag (R.SDI_TX_CTL n) F.SDI_TX_CTL_PD) = false →
    ∃ t, exec (.txEnWrite n true false at_) s = .next t ∧ t.flag (R.SDI_TX_CTL n) F.SDI_TX_CTL_EN = true ∧
      t.flag (R.SDI_TX_CTL n) F.SDI_TX_CTL_PD = false ∧ (t.tx n).wakeAt = some (at_ + 100 * ticksPerUs) ∧ t.xpt = s.xpt ∧
      ∀ a, a ∉ [R.SDI_TX_CTL n, R.SDI_TX_STAT n] → t.rd a = s.rd a) ∧
  (∀ (s : State) (n : Fin 72) (at_ : Nat), (s.at_ at_).idleWhy n = 0 → s.flag (R.SDI_TX_STAT n) F.SDI_TX_STAT_ACTIVE = false →
    (∀ w, (s.tx n).wakeAt = some w → w ≤ at_) →
    ∃ t : State, exec (.txLeaveIdle n at_) s = .next t.lvAes_ ∧ (t.lvOn = false → t.lvAes_ = t) ∧
      t.get (R.SDI_TX_STAT n) F.SDI_TX_STAT_ACTIVE = 1 ∧
      t.get (R.SDI_TX_STAT n) F.SDI_TX_STAT_IDLE_WHY = 0 ∧ (t.tx n).wakeAt = none ∧
      t.xpt = { s.xpt with skip := tabSet false s.xpt.skip n false } ∧
      (∀ r, s.route n = some r → s.txCode n r.src < 16 → t.get (R.SDI_TX_STAT n) F.SDI_TX_STAT_RATE = s.txCode n r.src) ∧
      ∀ a, a ∉ [R.SDI_TX_STAT n, R.XPT_FRZ_STAT n] → t.rd a = s.rd a) ∧
  (∀ (s : State) (n : Fin 72) (mppm : Int), (s.route n).map (·.kind) = some 1 →
    ∃ t : State, exec (.followRangeIdle n mppm) s = .next t.lvAes_ ∧ (t.lvOn = false → t.lvAes_ = t) ∧ (t.tx n).outRange = decide (100000 < mppm.natAbs) ∧
      (100000 < mppm.natAbs → t.get (R.SDI_TX_STAT n) F.SDI_TX_STAT_ACTIVE = 0 ∧ t.get (R.SDI_TX_STAT n) F.SDI_TX_STAT_RATE = 0 ∧
        1 ≤ t.get (R.SDI_TX_STAT n) F.SDI_TX_STAT_IDLE_WHY ∧ t.get (R.SDI_TX_STAT n) F.SDI_TX_STAT_IDLE_WHY ≤ 7) ∧
      ∀ a, a ≠ R.SDI_TX_STAT n → t.rd a = s.rd a)

/-- The mode of a QE port (from R48) and its links (from R49, R52, Table 2-10): MODE written with flows enabled is kept, leaves the mode in force and
sets MODE_ERR; without flows it comes into force, and where that leaves one sub-port the links of the other three end. A link that comes up sets
LINK_UP and FEC_LOCK and reports every joined group; one that goes down clears both and sets LINK_DOWN; an uncorrectable codeword is counted and
flagged; a query on a sub-port whose link is up is answered with the joined groups of its protocol, each of them. Clauses on a point the specification
leaves open follow the model's own reading (log entry 157). Each of these commands is shown to complete, under conditions on the state and its
operands alone: qeModeWrite, qeLinkUp, qeLinkDown, fecUncorrectable, igmpQuery. -/
def Obligations.QePorts : Prop :=
  (∀ (s : State) (q : Fin 4) (mode : Bool), s.upFor (R.QE_CTL q) → s.flag (R.QE_STAT q) F.QE_STAT_MODE = mode →
    exec (.qeModeWrite q mode) s = .next (s.setB (R.QE_CTL q) F.QE_CTL_MODE mode)) ∧
  (∀ (s : State) (q : Fin 4) (mode : Bool), s.upFor (R.QE_CTL q) → s.flag (R.QE_STAT q) F.QE_STAT_MODE ≠ mode → s.qeFlows q = false →
    ∃ t, exec (.qeModeWrite q mode) s = .next t ∧ t.flag (R.QE_CTL q) F.QE_CTL_MODE = mode ∧
      t.flag (R.QE_STAT q) F.QE_STAT_MODE = mode ∧
      (mode = true → ∀ k < 4, t.get (R.QE_STAT q) (bit k) = s.get (R.QE_STAT q) (bit k)) ∧
      (mode = false → ∀ k, 1 ≤ k → k < 4 → t.get (R.QE_STAT q) (bit k) = 0) ∧
      s.onlyRegs t [R.QE_CTL q, R.QE_STAT q, R.QE_HIST q]) ∧
  (∀ (s : State) (q : Fin 4) (mode : Bool), s.upFor (R.QE_CTL q) → s.flag (R.QE_STAT q) F.QE_STAT_MODE ≠ mode → s.qeFlows q = true →
    ∃ t, exec (.qeModeWrite q mode) s = .next t ∧ t.flag (R.QE_CTL q) F.QE_CTL_MODE = mode ∧
      t.get (R.QE_HIST q) F.QE_HIST_MODE_ERR = 1 ∧ s.onlyRegs t [R.QE_CTL q, R.QE_HIST q]) ∧
  (∀ (s : State) (q sub : Fin 4), s.subOn q sub = true → s.qeTesting q sub = false → s.flag (R.QE_STAT q) (bit sub) = false →
    ∃ t, exec (.qeLinkUp q sub) s = .next t ∧ t.get (R.QE_STAT q) (bit sub) = 1 ∧ t.get (R.QE_STAT q) (bit (8 + sub)) = 1 ∧
      t.media.net = s.media.net ++ s.joined q sub ∧ ∀ a, a ≠ R.QE_STAT q → t.rd a = s.rd a) ∧
  (∀ (s : State) (q sub : Fin 4), s.flag (R.QE_STAT q) (bit sub) = true →
    ∃ t, exec (.qeLinkDown q sub) s = .next t ∧ t.get (R.QE_STAT q) (bit sub) = 0 ∧ t.get (R.QE_STAT q) (bit (8 + sub)) = 0 ∧
      t.get (R.QE_HIST q) (bit sub) = 1 ∧ s.onlyRegs t [R.QE_STAT q, R.QE_HIST q]) ∧
  (∀ (s : State) (q sub : Fin 4), s.subOn q sub = true →
    ∃ t, exec (.fecUncorrectable q sub) s = .next t ∧
      (t.rd (R.QE_FEC_UNCORR q sub)).toNat = min 0xFFFFFFFF ((s.rd (R.QE_FEC_UNCORR q sub)).toNat + 1) ∧
      t.get (R.QE_HIST q) F.QE_HIST_FEC_UNCORR = 1 ∧ s.onlyRegs t [R.QE_FEC_UNCORR q sub, R.QE_HIST q]) ∧
  (∀ (s : State) (q sub : Fin 4) (v6 : Bool), s.subOn q sub = true → s.flag (R.QE_STAT q) (bit sub) = true →
    ∃ l, exec (.igmpQuery q sub v6) s = .next { s with media := { s.media with net := s.media.net ++ l } } ∧
      ∀ a b c d six, NetMsg.join a b c d six ∈ l ↔ six = v6 ∧ NetMsg.join a b c d six ∈ s.joined q sub)

/-- Frames and flows (from R49, R53 to R55): the corrected codewords of a frame join QE_FEC_CORR; a frame with a wrong FCS is counted in QE_RX_BADFCS,
one above the port's maximum length, an RTP packet no flow matches and any other frame in QE_RX_NOMATCH; PTP, IGMP and MLD frames go to firmware;
requests for an address of the sub-port are answered, others dropped and counted; an RTP packet that a flow matches goes to that flow, and an
unprotected audio or ancillary flow counts it and is no longer lost; a receive flow that declares loss is marked lost and counts it; a lost leg of a
protected flow is marked, and its output is not affected; an unprotected flow has no legs; a timestamp joins the queue with the board's correction,
and a queue of 64 entries loses it and sets PTP_TS_OVF. Clauses on points the specification leaves open follow the model's own reading (log entries
46, 149, 158, 159, 160, 167, 206). That an event whose condition does not hold changes nothing is the model's choice (log entry 146). Each of these
commands is shown to complete, under conditions on the state and its operands alone: qeRxFrame, flowLoss, legLost, ptpTimestamp. -/
def Obligations.QeFramesAndFlows : Prop :=
  (∀ (s w : State) (q sub : Fin 4) (f : EthFrame) (len corr at_ : Nat), s.subOn q sub = true →
    w = (s.at_ at_).count (R.QE_FEC_CORR q sub) corr →
    (f = .badFcs → exec (.qeRxFrame q sub f len corr at_) s = .next (w.inc (R.QE_RX_BADFCS q sub))) ∧
    (f ≠ .badFcs → s.maxFrame q < len → exec (.qeRxFrame q sub f len corr at_) s = .next (w.inc (R.QE_RX_NOMATCH q sub))) ∧
    (len ≤ s.maxFrame q →
      (f = .other → exec (.qeRxFrame q sub f len corr at_) s = .next (w.inc (R.QE_RX_NOMATCH q sub))) ∧
      (f = .ptp ∨ f = .igmp ∨ f = .mld → exec (.qeRxFrame q sub f len corr at_) s = .next w) ∧
      (∀ a, f = .arp a → (s.rd (R.QE_IP4 q sub)).toNat ≠ 0 → a = (s.rd (R.QE_IP4 q sub)).toNat →
        exec (.qeRxFrame q sub f len corr at_) s = .next { w with media := { w.media with net := w.media.net ++ [.arpReply q sub] } }) ∧
      (∀ a, f = .nd a → s.qeIp6 q sub ≠ 0 → a = s.qeIp6 q sub →
        exec (.qeRxFrame q sub f len corr at_) s = .next { w with media := { w.media with net := w.media.net ++ [.ndReply q sub] } }) ∧
      (∀ a, (f = .arp a ∧ (a ≠ (s.rd (R.QE_IP4 q sub)).toNat ∨ a = 0)) ∨ (f = .nd a ∧ (a ≠ s.qeIp6 q sub ∨ a = 0)) →
        exec (.qeRxFrame q sub f len corr at_) s = .next (w.inc (R.QE_RX_NOMATCH q sub))) ∧
      (∀ p, f = .rtp p → s.matchFlow q sub p = none →
        exec (.qeRxFrame q sub f len corr at_) s = .next (w.inc (R.QE_RX_NOMATCH q sub))) ∧
      (∀ p k b, f = .rtp p → s.matchFlow q sub p = some (k, b) →
        exec (.qeRxFrame q sub f len corr at_) s = .next (w.flowPacket k b p at_)) ∧
      (∀ p k b x, f = .rtp p → s.matchFlow q sub p = some (k, b) → tabFind s.media.rxFlow k = some x → x.rcd.prot = false →
        1024 ≤ k → ∃ t, exec (.qeRxFrame q sub f len corr at_) s = .next t ∧
          (tabFind t.media.rxFlow k).map (·.packets) = some (min 0xFFFFFFFF (x.packets + 1)) ∧
          (tabFind t.media.rxFlow k).map (·.lost) = some false ∧ t.regs = w.regs))) ∧
  (∀ (s : State) (f : Fin 1024) (at_ : Nat) (x : Flow), tabFind s.media.rxFlow (2048 + f) = some x →
    ∃ t, exec (.flowLoss .anc f at_) s = .next t ∧
      tabFind t.media.rxFlow (2048 + f) = some { x with lost := true, grid := none, unrec := satAdd x.unrec 1 } ∧ t.regs = s.regs) ∧
  (∀ (s : State) (f : Fin 1024) (at_ : Nat) (x : Flow), tabFind s.media.rxFlow (1024 + f) = some x →
    ∃ t, exec (.flowLoss .audio f at_) s = .next t ∧
      tabFind t.media.rxFlow (1024 + f) = some { x with lost := true, grid := none, unrec := satAdd x.unrec 1 } ∧ t.regs = s.regs) ∧
  (∀ (s : State) (f : Fin 1024) (at_ : Nat) (x : Flow), tabFind s.media.rxFlow f = some x →
    ∃ t, exec (.flowLoss .video f at_) s = .next t ∧
      tabFind t.media.rxFlow f = some { x with lost := true, grid := none, unrec := satAdd x.unrec 1 } ∧
      ∀ a, (∀ k < 72, a ≠ R.SDI_TX_STAT k) → (∀ d, a ≠ R.XPT_FRZ_STAT d) → t.rd a = s.rd a) ∧
  (∀ (s : State) (k : FlowKind) (f : Fin 1024) (b : Bool) (x : Flow), tabFind s.media.rxFlow (1024 * kindNum k + f) = some x →
    x.rcd.prot = true →
    ∃ t, exec (.legLost k f b) s = .next t ∧
      tabFind t.media.rxFlow (1024 * kindNum k + f) = some (if b then { x with lostB := true } else { x with lostA := true }) ∧
      t = { s with media := { s.media with rxFlow := t.media.rxFlow } }) ∧
  (∀ (s : State) (k : FlowKind) (f : Fin 1024) (b : Bool) (x : Flow), tabFind s.media.rxFlow (1024 * kindNum k + f) = some x →
    x.rcd.prot = false → exec (.legLost k f b) s = .next s) ∧
  (∀ (s : State) (q sub : Fin 4) (ns n : Nat), s.subOn q sub = true → (s.media.ptpQ.drop n).length < 64 →
    exec (.ptpTimestamp q sub ns n) s = .next { s with media := { s.media with
      ptpQ := s.media.ptpQ.drop n ++ [(q.val * 4 + sub.val, ((ns : Int) + s.rdInt (R.QE_PTP_ASYM q sub)).toNat)] } }) ∧
  (∀ (s : State) (q sub : Fin 4) (ns n : Nat), s.subOn q sub = true → 64 ≤ (s.media.ptpQ.drop n).length →
    ∃ t, exec (.ptpTimestamp q sub ns n) s = .next t ∧ t.get (R.QE_HIST q) F.QE_HIST_PTP_TS_OVF = 1 ∧
      { s with media := { s.media with ptpQ := s.media.ptpQ.drop n } }.onlyRegs t [R.QE_HIST q])

/-! ### Crosspoint, routes and takes (03_crosspoint_and_takes.md) -/

/-- ROUTE_SET (from R59, R63, R66, R74, R75, R82): past the checks common to all descriptors, a route to a capture writer of a chain is DENIED with
reason 6, a bad parameter is BAD_PARAM naming its byte, an untimed take to a destination that refuses them ends with status 9; otherwise, where the
destination runs and no earlier immediate take pends on it, the take joins those in flight and waits for the first switch point at least the margin
after acceptance; in every other case too, an idle destination or an earlier take to replace, the accepted take starts as the state at acceptance
says. A refusal or a take that joins changes nothing else but registers, the host side, and what twin and fabric keep of descriptors. Clauses on
points the specification leaves open follow the model's own reading (log entries 133, 137, 138, 142, 152, 153, 164, 185). Each of these commands is
shown to complete, under conditions on the state and its operands alone: routeSet. -/
def Obligations.RouteSetAdmission : Prop :=
  ∀ (s v : State) (h : Hdr) (d src : Nat), s.admits (routeRule s 0x02 0 d (routePay d src)) h v →
    (v.chainCw d = true → ∃ t, exec (.routeSet h d src) s = .next t ∧ v.posts t h 5 6 ∧ v.hostOnly t) ∧
    (∀ k, v.chainCw d = false → v.routeBad d src h.rfn = some k →
      ∃ t, exec (.routeSet h d src) s = .next t ∧ v.posts t h 4 (badRes k) ∧ v.hostOnly t) ∧
    (v.chainCw d = false → v.routeBad d src h.rfn = none → v.refuses d = true → v.clean d src = false →
      ∃ t, exec (.routeSet h d src) s = .next t ∧ v.posts t h 9 0 ∧ v.hostOnly t) ∧
    (∀ g, h.rfn = 0 → v.chainCw d = false → v.routeBad d src 0 = none → (v.refuses d = true → v.clean d src = true) →
      v.dstGrid d = some g → (∀ p ∈ v.takes, p.2.dst = d → p.2.rfn = 0 → p.2.waiting = false → p.2.salvo = none → False) →
      v.fitOf (v.addOp h 0 (.take (v.leapTake d src 0 h.dropIfLate none none))).2 = .fits →
      ∃ t, exec (.routeSet h d src) s = .next t ∧
        v.flies t h (.take { dst := d, src := src, rfn := 0, after := g.nominal (v.now + v.marginTicks g), armed := true }) ∧ v.hostOnly t) ∧
    (h.rfn = 0 → v.chainCw d = false → v.routeBad d src 0 = none → (v.refuses d = true → v.clean d src = true) →
      v.fitOf ((v.abortImmediate d).addOp h 0 (.take (v.leapTake d src 0 h.dropIfLate none none))).2 = .fits →
      (v.startImmediate h d src none 0).inflight ≤ 16384 →
      exec (.routeSet h d src) s = .next (v.accept (v.startImmediate h d src none 0)))

/-- TAKE_AT (from R86, R88, R90): a leap whose RFN is out of range, or pends already on its destination, is BAD_PARAM at byte 8; a leap that is in
time joins those in flight for its RFN; a late one that is not to be dropped joins them too, bound for the first switch point past the margin, and
LATE sets; one to be dropped when late is not taken up, and LATE sets. Clauses on points the specification leaves open follow the model's own reading
(log entries 137, 138, 139, 152, 185). Each of these commands is shown to complete, under conditions on the state and its operands alone: takeAt. -/
def Obligations.TakeAtAdmission : Prop :=
  ∀ (s v : State) (h : Hdr) (d src : Nat), s.admits (routeRule s 0x03 1 d (routePay d src)) h v → v.chainCw d = false →
    ((v.rfnFar h.rfn = true ∨ v.leapPending d h.rfn = true) → h.rfn ≠ 0 →
      ∃ t, exec (.takeAt h d src) s = .next t ∧ v.posts t h 4 (badRes 8) ∧ v.hostOnly t) ∧
    (h.rfn ≠ 0 → v.routeBad d src h.rfn = none → (v.refuses d = true → v.clean d src = true) → v.leapLate d h.rfn = false →
      v.fitOf (v.addOp h 0 (.take (v.leapTake d src h.rfn h.dropIfLate none none))).2 = .fits →
      ∃ t, exec (.takeAt h d src) s = .next t ∧
        v.flies t h (.take { dst := d, src := src, rfn := h.rfn, after := v.rfnTime h.rfn, drop := h.dropIfLate }) ∧ v.hostOnly t) ∧
    (h.rfn ≠ 0 → h.dropIfLate = false → v.routeBad d src h.rfn = none → (v.refuses d = true → v.clean d src = true) →
      v.leapLate d h.rfn = true → v.fitOf (v.addOp h 0 (.take (v.leapTake d src h.rfn false none none))).2 = .fits →
      ∃ t b, exec (.takeAt h d src) s = .next t ∧ v.flies t h (.take b) ∧ b.dst = d ∧ b.src = src ∧ b.rfn = h.rfn ∧ b.late = true ∧
        b.after = ((v.dstGrid d).map fun g => g.nominal (v.now + v.marginTicks g)).getD v.now ∧ t.get (R.XPT_DST_HIST d) F.XPT_DST_HIST_LATE = 1 ∧ v.hostOnly t) ∧
    (h.rfn ≠ 0 → h.dropIfLate = true → v.routeBad d src h.rfn = none → (v.refuses d = true → v.clean d src = true) →
      v.leapLate d h.rfn = true → v.fitOf (v.addOp h 0 (.take (v.leapTake d src h.rfn true none none))).2 = .fits →
      ∃ t, exec (.takeAt h d src) s = .next t ∧ t.get (R.XPT_DST_HIST d) F.XPT_DST_HIST_LATE = 1 ∧ v.hostOnly t ∧ t.host.ops = v.host.ops)

/-- Salvos and their cancelling, and composite routes (from R64 to R68, R92 to R96): a destination that is the capture writer of a chain is DENIED
with reason 6; a list whose count, address, next page or last word fails is named, then the first entry whose parameters fail; one with an untimed
take to a destination that refuses them ends with status 9; a chain request that does not resolve is BAD_PARAM; otherwise, with the chains built
without a shortfall, the ledgers met and no lateness that drops it, the salvo and its entries are in flight, and the chain stands with its take in
flight. A cancel of nothing pending is BAD_PARAM at byte 18; one that comes in time ends the salvo or leap ABORTED and completes OK; one that comes
too late completes with status 1. Clauses on points the specification leaves open follow the model's own reading (log entries 133, 136, 138, 139, 166,
184, 205, 206). Each of these commands is shown to complete, under conditions on the state and its operands alone: salvo, salvoCancel, routeSync,
routeConvert. -/
def Obligations.SalvosAndChains : Prop :=
  (∀ (s v : State) (h : Hdr) (l : SalvoList) (k : Nat), s.admits (salvoRule s h l) h v → listBad l h = some k →
    ∃ t, exec (.salvo h l) s = .next t ∧ v.posts t h 4 k ∧ v.hostOnly t) ∧
  (∀ (s v : State) (h : Hdr) (l : SalvoList) (ls : List SalvoEntry), s.admits (salvoRule s h l) h v → listBad l h = none →
    ls = l.entries h.chain →
    ((∃ e ∈ ls, v.chainCw e.dst = true) → ∃ t, exec (.salvo h l) s = .next t ∧ v.posts t h 5 6 ∧ v.hostOnly t) ∧
    (∀ i, (∀ e ∈ ls, v.chainCw e.dst = false) → v.firstBad h ls 0 [] = some i →
      ∃ t, exec (.salvo h l) s = .next t ∧ v.posts t h 4 (dataRes (some i)) ∧ v.hostOnly t) ∧
    ((∀ e ∈ ls, v.chainCw e.dst = false) → v.firstBad h ls 0 [] = none → (∃ e ∈ ls, v.entryClean e = false) →
      ∃ t, exec (.salvo h l) s = .next t ∧ v.posts t h 9 0 ∧ v.hostOnly t) ∧
    (∀ es b, (∀ e ∈ ls, v.chainCw e.dst = false) → v.firstBad h ls 0 [] = none → (∀ e ∈ ls, v.entryClean e = true) →
      v.entriesFree (ls.length + 1) = true → buildSalvo h ls { s := v } = (es, b) → b.codes = [] →
      v.fitOf (b.s.startSalvo v h es) = .fits → (h.dropIfLate = true → ∀ e ∈ ls, v.leapLate e.dst h.rfn = false) →
      ((b.s.logChains v h es).startSalvo v h es).inflight ≤ 16384 →
      exec (.salvo h l) s = .next (v.accept ((b.s.logChains v h es).startSalvo v h es)))) ∧
  (∀ (s v : State) (h : Hdr) (ring tag : Nat), s.admits { op := 0x05, rfn := 0, pay := [fld 16 1 ring, fld 18 2 tag], sig := true } h v →
    (63 < ring → ∃ t, exec (.salvoCancel h ring tag) s = .next t ∧ v.posts t h 4 (badRes 16) ∧ v.hostOnly t) ∧
    (ring ≤ 63 → v.cancelTarget ring tag = none →
      ∃ t, exec (.salvoCancel h ring tag) s = .next t ∧ v.posts t h 4 (badRes 18) ∧ v.hostOnly t) ∧
    (∀ o k, ring ≤ 63 → v.cancelTarget ring tag = some o → o.body = .take k → v.cancelOk k = true →
      ((v.abortOp o.id).ok h 0).inflight ≤ 16384 →
      exec (.salvoCancel h ring tag) s = .next (v.accept ((v.abortOp o.id).ok h 0))) ∧
    (∀ o k, ring ≤ 63 → v.cancelTarget ring tag = some o → o.body = .salvo k → (∀ p ∈ v.salvoEntries o.id, v.cancelOk p.2 = true) →
      ((v.abortOp o.id).ok h 0).inflight ≤ 16384 →
      exec (.salvoCancel h ring tag) s = .next (v.accept ((v.abortOp o.id).ok h 0))) ∧
    (∀ o k, ring ≤ 63 → v.cancelTarget ring tag = some o → o.body = .take k → v.cancelOk k = false →
      ∃ t, exec (.salvoCancel h ring tag) s = .next t ∧ v.posts t h 1 0 ∧ v.hostOnly t)) ∧
  (∀ (s v : State) (h : Hdr) (c : ChainReq), s.admits (routeRule s 0x06 2 c.dst (chainPay c)) h v →
    (c.dst ≠ 0xFFFF → v.chainCw c.dst = true → ∃ t, exec (.routeSync h c) s = .next t ∧ v.posts t h 5 6 ∧ v.hostOnly t) ∧
    (∀ e, (c.dst = 0xFFFF ∨ v.chainCw c.dst = false) → v.chainSpec h c none = .error e →
      ∃ t, exec (.routeSync h c) s = .next t ∧ v.posts t h 4 e ∧ v.hostOnly t) ∧
    (∀ q o b w, (c.dst = 0xFFFF ∨ v.chainCw c.dst = false) → v.chainSpec h c none = .ok q →
      (∀ d, q.dst = some d → (v.refuses d = true → v.cleanAs d 0xFFFF 2 none = true) ∧ v.dropsLate h d = false) →
      Build.chain { s := v } q = (o, b) → b.codes = [] → v.fitOf (chainHyp h q o v b.s) = .fits → chainStart h q o b.s = .yes w →
      w.inflight ≤ 16384 → exec (.routeSync h c) s = .next (v.accept w))) ∧
  (∀ (s v : State) (h : Hdr) (c : ChainReq) (x : ConvSet), s.admits (convertRule s c x) h v →
    (c.dst ≠ 0xFFFF → v.chainCw c.dst = true → ∃ t, exec (.routeConvert h c x) s = .next t ∧ v.posts t h 5 6 ∧ v.hostOnly t) ∧
    (∀ e, (c.dst = 0xFFFF ∨ v.chainCw c.dst = false) → v.chainSpec h c (some x) = .error e →
      ∃ t, exec (.routeConvert h c x) s = .next t ∧ v.posts t h 4 e ∧ v.hostOnly t) ∧
    (∀ q o b w, (c.dst = 0xFFFF ∨ v.chainCw c.dst = false) → v.chainSpec h c (some x) = .ok q →
      (∀ d, q.dst = some d → (v.refuses d = true → v.cleanAs d 0xFFFF 3 none = true) ∧ v.dropsLate h d = false) →
      (∀ k cv, o.ctx = some k → q.conv = some cv → ∀ b ∈ cv.luts, v.bankInUse (k / 16) b.1 = false) →
      Build.chain { s := v } q = (o, b) → b.codes = [] → v.fitOf (chainHyp h q o v b.s) = .fits → chainStart h q o b.s = .yes w →
      w.inflight ≤ 16384 → exec (.routeConvert h c x) s = .next (v.accept w)))

/-- Takes that fall due (from R75 to R77, R81, R86, R90, R91): an immediate take executes at its switch point, at once on a destination with no
running timing, and gives way to a leap due at the same point; a leap is armed within a frame of its switch point and outside the margin, executes in
RFN order, in place of an immediate take due at its switch point, and at t(RFN) on a destination without timing, where its executed RFN is its own; a
take that waits for its new source carries it over at that source's switch point; a follow loop that has retuned resumes. Clauses on points the
specification leaves open follow the model's own reading (log entries 134, 135, 163, 165, 183, 186). Each of these commands is shown to complete,
under conditions on the state and its operands alone: takeExecute, leapArm, leapExecute, leapNoTimingExecute, untimedChangeover, followLoopRetuneEnd. -/
def Obligations.TakesExecute : Prop :=
  (∀ (s : State) (d : Fin 512) (t id p : Nat) (k : Take), (s.at_ t).findTake d Take.isImmediate = some (id, k) →
    (s.at_ t).takePoint k = some p → (s.at_ t).dstActual d p ≤ t →
    exec (.takeExecute d t) s = .next (if (s.at_ t).leapAt d p then (s.at_ t).abortTake id k else (s.at_ t).runTake id k p)) ∧
  (∀ (s : State) (d : Fin 512) (t id : Nat) (k : Take), (s.at_ t).findTake d Take.isImmediate = some (id, k) →
    (s.at_ t).takePoint k = none → exec (.takeExecute d t) s = .next ((s.at_ t).runIdle id k (s.at_ t).rfnNow t)) ∧
  (∀ (s : State) (d : Fin 512) (rfn t id : Nat) (k : Take) (g : Grid), (s.at_ t).findLeap d rfn = some (id, k) →
    (s.at_ t).dstGrid d = some g → g.actual ((s.at_ t).switchAt d g k.after) ≤ t + g.period →
    t + (s.at_ t).marginTicks g ≤ g.actual ((s.at_ t).switchAt d g k.after) →
    exec (.leapArm d rfn t) s = .next ((s.at_ t).setOp id (.take { k with armed := true }))) ∧
  (∀ (s : State) (d : Fin 512) (rfn t id : Nat) (k : Take), (s.at_ t).findLeap d rfn = some (id, k) → (s.at_ t).dstGrid d = none →
    exec (.leapArm d rfn t) s = .next ((s.at_ t).setOp id (.take { k with armed := true }))) ∧
  (∀ (s : State) (d : Fin 512) (rfn t id p : Nat) (k : Take), (s.at_ t).findLeap d rfn = some (id, k) → (s.at_ t).takePoint k = some p →
    (s.at_ t).dstActual d p ≤ t →
    (∀ q ∈ (s.at_ t).takes, q.2.dst = d.val → q.2.rfn ≠ 0 → q.2.rfn < rfn → q.2.waiting = false → ∀ p', (s.at_ t).takePoint q.2 = some p' → p < p') →
    ((∀ i im, (s.at_ t).findTake d Take.isImmediate = some (i, im) → (s.at_ t).takePoint im ≠ some p) →
      exec (.leapExecute d rfn t) s = .next ((s.at_ t).runTake id k p)) ∧
    (∀ i im, (s.at_ t).findTake d Take.isImmediate = some (i, im) → (s.at_ t).takePoint im = some p →
      exec (.leapExecute d rfn t) s = .next (((s.at_ t).abortTake i im).runTake id k p))) ∧
  (∀ (s : State) (d : Fin 512) (rfn t id : Nat) (k : Take), (s.at_ t).findLeap d rfn = some (id, k) → (s.at_ t).dstGrid d = none → k.after ≤ t →
    exec (.leapNoTimingExecute d rfn t) s = .next ((s.at_ t).runIdle id k rfn t)) ∧
  (∀ (s : State) (d : Fin 512) (t id p : Nat) (k : Take), (s.at_ t).findTake d (·.waiting) = some (id, k) → (s.at_ t).waitPoint k = some p → p ≤ t →
    exec (.untimedChangeover d t) s = .next ((s.at_ t).runUntimed id k p)) ∧
  (∀ (s : State) (n : Fin 72) (t : Nat), (s.tx n).retune.isSome = true →
    exec (.followLoopRetuneEnd n t) s = .next (((s.at_ t).setTx n { s.tx n with retune := none }).txWake n t))

/-- What a take does to its destination (from R75, R77): with no other take waiting there, and no chain left behind, a clean take and a take on a
destination without timing leave the destination routed from the new source with that source's kind of route, and no other destination's route
changes. -/
def Obligations.TakeChangesRoute : Prop :=
  ∀ (s : State) (id at_ rfn : Nat) (k : Take), (∀ p ∈ s.takes, p.2.dst = k.dst → p.2.waiting = true → p.1 = id) →
    (∀ r u, s.route k.dst = some r → srcPort r.src = .sou u → s.chainOf u = none) →
    (s.clean k.dst k.src = true →
      (s.runTake id k at_).route k.dst = some ⟨s.kindOf k.src, k.src⟩ ∧ ∀ d, d ≠ k.dst → (s.runTake id k at_).route d = s.route d) ∧
    (s.runIdle id k rfn at_).route k.dst = some ⟨s.kindOf k.src, k.src⟩ ∧ ∀ d, d ≠ k.dst → (s.runIdle id k rfn at_).route d = s.route d

/-- Pattern generators (from R105): a write of XPT_PG_CFG is stored; a new format on a generator that feeds an IP flow is kept unused and sets PG_ERR;
settings take effect at the generator's frame boundary, where the zone plate moves one step; while a format is refused, the colour alone does. Clauses
on a point the specification leaves open follow the model's own reading (log entry 150). Each of these commands is shown to complete, under conditions
on the state and its operands alone: pgCfgWrite, pgFrameBoundary. -/
def Obligations.PatternGenerators : Prop :=
  (∀ (s : State) (p : Fin 8) (v : Nat), s.upFor (R.XPT_PG_CFG p) → s.pgFeedsIp p = false →
    exec (.pgCfgWrite p v) s = .next ((((s.set (R.XPT_PG_CFG p) F.XPT_PG_CFG_FORMAT (v / 65536)).set (R.XPT_PG_CFG p) F.XPT_PG_CFG_PATTERN v)).setPg p
      { s.pg p with refused := false })) ∧
  (∀ (s : State) (p : Fin 8) (v : Nat), s.upFor (R.XPT_PG_CFG p) → s.pgFeedsIp p = true → v / 65536 % 256 ≠ (s.pg p).fmt →
    ∃ t, exec (.pgCfgWrite p v) s = .next t ∧ t.get (R.XPT_PG_CFG p) F.XPT_PG_CFG_FORMAT = v / 65536 % 256 ∧ (t.pg p).refused = true ∧
      (t.pg p).fmt = (s.pg p).fmt ∧ t.get R.XPT_STAT F.XPT_STAT_PG_ERR = 1 ∧ ∀ a, a ∉ [R.XPT_PG_CFG p, R.XPT_STAT] → t.rd a = s.rd a) ∧
  (∀ (s : State) (p : Fin 8) (t : Nat), (s.pg p).refused = false →
    ∃ u, exec (.pgFrameBoundary p t) s = .next u ∧ 
      u.pg p = ⟨s.get (R.XPT_PG_CFG p) F.XPT_PG_CFG_FORMAT, s.get (R.XPT_PG_CFG p) F.XPT_PG_CFG_PATTERN, (s.rd (R.XPT_PG_COLOUR p)).toNat,
        (s.pg p).step + 1, false⟩ ∧
      ∀ a, (∀ k < 72, a ≠ R.SDI_TX_STAT k) → (∀ d, a ≠ R.XPT_FRZ_STAT d) → u.rd a = s.rd a) ∧
  (∀ (s : State) (p : Fin 8) (t : Nat), (s.pg p).refused = true →
    exec (.pgFrameBoundary p t) s = .next ((s.at_ t).setPg p
      { s.pg p with colour := (s.rd (R.XPT_PG_COLOUR p)).toNat, step := (s.pg p).step + 1 }))

/-- Signatures, the path proof and the freeze detector (from R101 to R104, R180): the complete frame of a source that has timing is signed, as its own
samples in the order of R101; a frame a destination sends, the picture its route carries or the one seen at its exit, is signed, goes through the path
proof and the freeze detector; one whose signature is not the one it must have, with the proof enabled, no skip and no underrun, sets PATH_MISMATCH,
counts and reports an error that names the destination; one that has it changes nothing. Clauses on a point the specification leaves open follow the
model's own reading (log entry 13). Each of these commands is shown to complete, under conditions on the state and its operands alone:
sourceFrameSigned, destFrameSent. -/
def Obligations.SignaturesAndProof : Prop :=
  (∀ (s : State) (src : Nat) (f : SrcFrame) (t : Nat) (h : src < 512), (∀ k, srcPort src ≠ .host k) → (∀ n, srcPort src ≠ .sdi n) →
    (∀ u, srcPort src ≠ .sou u) →
    ((s.at_ t).srcGrid src).isSome = true →
    ∃ u, exec (.sourceFrameSigned ⟨src, h⟩ f t) s = .next u ∧
      u.rd2 (R.XPT_SRC_SIG_LO src) (R.XPT_SRC_SIG_HI src) = picSig (s.src444 src) (s.src10 src) ((s.at_ t).shownFrame src f).pic ∧
      u.srcFrame? src = some ((s.at_ t).shownFrame src f) ∧
      { s with xpt := { s.xpt with frames := u.xpt.frames } }.onlyRegs u [R.XPT_SRC_SIG_LO src, R.XPT_SRC_SIG_HI src]) ∧
  (∀ (s w : State) (src : Fin 512) (f : SrcFrame) (t u : Nat), srcPort src = .sou u →
    w = (souLayers (s.unit u).active).foldl (fun (v : State) (l : SouLayer) => v.catchUp l.ring t) (s.at_ t) → (w.srcGrid src).isSome = true →
    ∃ v, exec (.sourceFrameSigned src f t) s = .next v ∧
      v.rd2 (R.XPT_SRC_SIG_LO src) (R.XPT_SRC_SIG_HI src) = picSig (w.src444 src) (w.src10 src) (w.souPic u) ∧
      v.srcFrame? src = some (w.shownFrame src f) ∧
      { w with xpt := { w.xpt with frames := v.xpt.frames } }.onlyRegs v [R.XPT_SRC_SIG_LO src, R.XPT_SRC_SIG_HI src]) ∧
  (∀ (s w : State) (src : Fin 512) (f : SrcFrame) (t k : Nat), srcPort src = .host k → w = (s.at_ t).hostFrame k f →
    (w.srcGrid src).isSome = true →
    ∃ v, exec (.sourceFrameSigned src f t) s = .next v ∧
      v.rd2 (R.XPT_SRC_SIG_LO src) (R.XPT_SRC_SIG_HI src) = picSig (w.src444 src) (w.src10 src) f.pic ∧ v.srcFrame? src = some f ∧
      { w with xpt := { w.xpt with frames := v.xpt.frames } }.onlyRegs v [R.XPT_SRC_SIG_LO src, R.XPT_SRC_SIG_HI src]) ∧
  (∀ (s : State) (n : Fin 72) (f : SrcFrame) (t : Nat) (h : n.val < 512), (s.rx n).meas.isSome = true →
    (((s.at_ t).rxFrame n f).srcGrid n).isSome = true →
    ∃ u, exec (.sourceFrameSigned ⟨n, h⟩ f t) s = .next u ∧
      u.rd2 (R.XPT_SRC_SIG_LO n) (R.XPT_SRC_SIG_HI n) = picSig (((s.at_ t).rxFrame n f).src444 n) (((s.at_ t).rxFrame n f).src10 n)
        (((s.at_ t).rxFrame n f).shownFrame n f).pic ∧
      u.flag (R.SDI_RX_STAT n) F.SDI_RX_STAT_PID_VALID = f.pid.isSome ∧ u.flag (R.SDI_RX_STAT n) F.SDI_RX_STAT_LEVEL_B = f.levelB ∧
      (∀ p, f.pid = some p → u.rd (R.SDI_RX_PID n) = p) ∧ (∀ a, f.atc = some a → u.rd (R.SDI_RX_ATC n) = a)) ∧
  (∀ (s : State) (d : Fin 512) (seen : Option Pic) (t : Nat) (r : Route) (p : Pic) (sig : Nat) (v : State), (∀ k, dstPort d ≠ .host k) →
    ((s.at_ t).dstGrid d).isSome = true → s.route d = some r → p = seen.getD ((s.at_ t).sentPic d r) →
    sig = picSig (s.src444 r.src) (s.src10 r.src) p → v = { s.at_ t with xpt := { s.xpt with cut := tabDel s.xpt.cut d } } →
    exec (.destFrameSent d seen none t) s = .next ((((v.sendFrame d r t).wr2 (R.XPT_DST_SIG_LO d) (R.XPT_DST_SIG_HI d) sig).pathProof d sig
      (s.underran r)).freezeCheck d (sig == s.rd2 (R.XPT_DST_SIG_LO d) (R.XPT_DST_SIG_HI d)))) ∧
  (∀ (s : State) (d sig x : Nat), s.flag R.XPT_CTL F.XPT_CTL_PROOF_EN = true → tabGet false s.xpt.skip d = false → s.proofSig d = some x → x ≠ sig →
    ∃ u, u = ((({ s with xpt := { s.xpt with skip := tabSet false s.xpt.skip d false } } : State).raise (Hist.dst d)
        F.XPT_DST_HIST_PATH_MISMATCH).inc (R.XPT_DST_MISMATCH d)) ∧ s.pathProof d sig false = u.reportError (0xD0000 + d) 0x0C ∧
      u.get (R.XPT_DST_HIST d) F.XPT_DST_HIST_PATH_MISMATCH = 1 ∧
      (u.rd (R.XPT_DST_MISMATCH d)).toNat = min 0xFFFFFFFF ((s.rd (R.XPT_DST_MISMATCH d)).toNat + 1)) ∧
  (∀ (s : State) (d sig x : Nat), s.proofSig d = some x → x = sig →
    s.pathProof d sig false = { s with xpt := { s.xpt with skip := tabSet false s.xpt.skip d false } }) ∧
  (∀ (s : State) (d sig : Nat), s.pathProof d sig true = { s with xpt := { s.xpt with skip := tabSet false s.xpt.skip d false } })

/-! ### Frame store and Chameleon engines (04_frame_store_and_chameleon.md) -/

/-- Buffer descriptors (from R115 to R118, Table 4-4): past the common checks BUF_ALLOC with a ring that can be had completes OK with the ring and its
first handle and attaches the writer it names; a writer that has a ring is DENIED, reason 6; BUF_FREE of a ring frees it, of a ring that is being
freed completes OK, of a ring of a chain or of a routed capture writer is DENIED, of an unknown ring is BAD_PARAM at byte 16; BUF_WRITE writes its
lines as a new complete frame; to a buffer software may not write it is DENIED, and one whose host data cannot be read ends with status 7; BUF_READ
completes OK with the buffer it read, of nothing readable it is BAD_PARAM at byte 16, and one that host memory does not take ends with status 7.
Clauses on points the specification leaves open follow the model's own reading (log entries 14, 15, 190). Each of these commands is shown to complete,
under conditions on the state and its operands alone: bufAlloc, bufFree, bufWrite, bufRead. -/
def Obligations.BufferDescriptors : Prop :=
  (∀ (s v : State) (h : Hdr) (depth fmt pix cdesc cw : Nat),
    s.admits { op := 0x30, rfn := 0, pay := [fld 16 1 depth, fld 17 1 fmt, fld 18 1 pix, fld 19 1 cdesc, fld 20 1 cw] } h v →
    (cw < 168 → (v.cw cw).ring.isSome = true →
      ∃ t, exec (.bufAlloc h depth fmt pix cdesc cw) s = .next t ∧ v.posts t h 5 6 ∧ v.hostOnly t) ∧
    (∀ p r w u, p = (if pix = 0 then 1 else pix - 1) → (cw = 0xFF ∨ (cw < 168 ∧ (v.cw cw).ring = none ∧ v.inReset 9 cw = false)) →
      1 ≤ depth → depth ≤ 16 → (v.fmt? fmt).isSome = true → pix ≤ 4 → cdescOk cdesc = true → (cdesc / 64 % 2 = 0 ∨ pix444 p = true) →
      v.allocRing ⟨depth, fmt, p, cdesc, false⟩ = .ok (r, w) → v.fstOver = false → u = (if cw = 0xFF then w else w.setCw cw { ring := some r }) →
      (u.ok h (r + ((w.ring r).map (·.first)).getD 0 * 2 ^ 16)).inflight ≤ 16384 →
      exec (.bufAlloc h depth fmt pix cdesc cw) s = .next (v.accept (u.ok h (r + ((w.ring r).map (·.first)).getD 0 * 2 ^ 16))))) ∧
  (∀ (s v : State) (h : Hdr) (r : Nat), s.admits { op := 0x31, rfn := 0, pay := [fld 16 2 r] } h v →
    (v.ring r = none → ∃ t, exec (.bufFree h r) s = .next t ∧ v.posts t h 4 (badRes 16) ∧ v.hostOnly t) ∧
    (∀ g, v.ring r = some g → g.chain = true → ∃ t, exec (.bufFree h r) s = .next t ∧ v.posts t h 5 6 ∧ v.hostOnly t) ∧
    (∀ g p, v.ring r = some g → g.chain = false → p ∈ v.fst.cw → p.2.ring = some r → (v.route (344 + p.1)).isSome = true →
      ∃ t, exec (.bufFree h r) s = .next t ∧ v.posts t h 5 6 ∧ v.hostOnly t) ∧
    (∀ g, v.ring r = some g → g.chain = false → (∀ p ∈ v.fst.cw, p.2.ring = some r → v.route (344 + p.1) = none) →
      (g.freeing = true → ∃ t, exec (.bufFree h r) s = .next t ∧ v.posts t h 0 0 ∧ v.hostOnly t) ∧
      (g.freeing = false → ((v.freeRing r).2.done h (v.freeRing r).1 0 0).inflight ≤ 16384 →
        exec (.bufFree h r) s = .next (v.accept ((v.freeRing r).2.done h (v.freeRing r).1 0 0))))) ∧
  (∀ (s v : State) (h : Hdr) (b : BufReq) (data : Option (List Byte)), s.admits { op := 0x32, rfn := 0, pay := bufPay b } h v →
    (v.buf b.handle = none → ∃ t, exec (.bufWrite h b data) s = .next t ∧ v.posts t h 4 (badRes 16) ∧ v.hostOnly t) ∧
    ((v.buf b.handle).isSome = true → v.writeDenied b.handle = true →
      ∃ t, exec (.bufWrite h b data) s = .next t ∧ v.posts t h 5 6 ∧ v.hostOnly t) ∧
    (∀ r g f, (v.buf b.handle).isSome = true → v.writeDenied b.handle = false → v.bufRing b.handle = some (r, g) → v.fmt? g.fmt = some f →
      (∀ k, dmaBad b f.lines = some k → ∃ t, exec (.bufWrite h b data) s = .next t ∧ v.posts t h 4 (badRes k) ∧ v.hostOnly t) ∧
      (dmaBad b f.lines = none → data = none → ∃ t, exec (.bufWrite h b data) s = .next t ∧ v.posts t h 7 1 ∧ v.hostOnly t) ∧
      (∀ d, dmaBad b f.lines = none → data = some d → ((v.dmaWrite h b r g f d).ok h 0).inflight ≤ 16384 →
        exec (.bufWrite h b data) s = .next (v.accept ((v.dmaWrite h b r g f d).ok h 0))))) ∧
  (∀ (s v : State) (h : Hdr) (b : BufReq) (newest info writeOk : Bool),
    s.admits { op := 0x33, rfn := 0, pay := bufPay b ++ [fldBit 22 0 newest, fldBit 22 1 info] } h v →
    (v.readTarget b.handle newest = none → ∃ t, exec (.bufRead h b newest info writeOk) s = .next t ∧ v.posts t h 4 (badRes 16) ∧ v.hostOnly t) ∧
    (∀ k x r g f, v.readTarget b.handle newest = some k → v.buf k = some x → v.bufRing k = some (r, g) → v.fmt? g.fmt = some f →
      dmaBad b f.lines = none →
      (writeOk = false → ∃ t, exec (.bufRead h b newest info writeOk) s = .next t ∧ v.posts t h 7 2 ∧ v.hostOnly t) ∧
      (writeOk = true → ∃ t, exec (.bufRead h b newest info writeOk) s = .next t ∧ v.posts t h 0 k ∧
        (t.buf k).map (·.readers.contains (.dma (dmaKey h))) = some true ∧ t.fst.mem = v.fst.mem ∧ t.xpt = v.xpt ∧ t.che = v.che ∧ t.sou = v.sou)))

/-- Capture writers and buffers (from R112, R115, R120 to R123, R129): a writer that accepts its source's picture begins its frame in the buffer R121
picks, a lost one counting as overwritten, or counts a skipped frame; one that waits after a loss resumes the same way at a frame boundary; a frame
that is complete is written with its metadata record, counts, and its buffer is the newest complete one; the last reader's release returns a buffer
that is being freed; a granule list switches to its replacement. Clauses on a point the specification leaves open follow the model's own reading (log
entry 189). Each of these commands is shown to complete, under conditions on the state and its operands alone: cwFrameStart, cwResume,
cwFrameComplete, bufferRefRelease, granuleListSwitch. -/
def Obligations.CaptureWriters : Prop :=
  (∀ (s : State) (k : Fin 168) (p : Pic) (t : Nat), (s.at_ t).cwReady k = true → (s.cw k).st ≤ 1 →
    exec (.cwFrameStart k p t) s = .next ((s.at_ t).cwBegin k p t)) ∧
  (∀ (s : State) (k : Fin 168) (p : Pic) (t r : Nat), (s.at_ t).cwReady k = true → (s.cw k).st ≤ 1 → (s.cw k).ring = some r → (s.at_ t).writeTarget r = none →
    exec (.cwFrameStart k p t) s =
      .next (((s.at_ t).inc (R.FST_CW_SKIP k)).setCw k { s.cw k with st := 1, filling := none, start := t, coming := [], got := 0 })) ∧
  (∀ (s : State) (k : Fin 168) (p : Pic) (t r b : Nat) (lost : Bool), (s.at_ t).cwReady k = true → (s.cw k).st ≤ 1 → (s.cw k).ring = some r →
    (s.at_ t).writeTarget r = some (b, lost) →
    ∃ u, exec (.cwFrameStart k p t) s = .next u ∧ (u.cw k).filling = some b ∧ (u.cw k).st = 1 ∧ (u.cw k).start = t ∧
      (u.cw k).coming = p ∧ (u.cw k).got = 0 ∧ u.fst.mem = s.fst.mem ∧
      (u.rd (R.FST_CW_OVERWRITE k)).toNat = min 0xFFFFFFFF ((s.rd (R.FST_CW_OVERWRITE k)).toNat + (if lost then 1 else 0))) ∧
  (∀ (s : State) (k : Fin 168) (p : Pic) (t : Nat), (s.at_ t).cwReady k = true → ((s.cw k).st = 2 ∨ (s.cw k).st = 3) →
    exec (.cwResume k p t) s = .next ((s.at_ t).cwBegin k p t)) ∧
  (∀ (s : State) (k : Fin 168) (seen : Option Pic) (t b first : Nat) (g : Ring) (f : Fmt) (r : Route) (w : CwFrame) (m : Meta), (s.cw k).filling = some b →
    (s.cw k).ring.bind s.ring = some g → s.route (344 + k) = some r → s.fmt? g.fmt = some f → w = (s.at_ t).cwFrame r.src seen →
    first = (s.cw k).start + (f.f1 - 1) * f.period / f.totL →
    m = { ptpNs := first / ticksPerNs, rfn := if (s.at_ t).timeValid then (s.at_ t).rfnAt first else 0, fmt := g.fmt, pix := g.pix, inter := f.inter,
          sig := w.sig, atc := w.atc } →
    exec (.cwFrameComplete k seen t) s =
      .next (((((s.at_ t).storeLines b g.pix f.w w.d w.pic).completeBuf b m []).setCw k
        { s.cw k with filling := none, coming := [], got := 0 }).inc (R.FST_CW_FRAMES k))) ∧
  (∀ (s : State) (hnd : Nat) (b : Buf) (m : Meta) (l : List (Nat × Nat)) (r : Nat) (g : Ring), s.buf hnd = some b → b.ring = some r → s.ring r = some g →
    (s.completeBuf hnd m l).buf hnd = some { b with done := s.fst.doneSeq + 1, doneAt := s.now, info := m, absent := l } ∧
    (s.completeBuf hnd m l).ring r = some { g with newest := some hnd, black := false } ∧ (s.completeBuf hnd m l).regs = s.regs) ∧
  (∀ (s : State) (hnd : Nat) (b : Buf), s.buf hnd = some b → b.freeing = true → (∀ r ∈ b.readers, s.stillHolds hnd r = false) →
    exec (.bufferRefRelease hnd) s = .next ((s.setBuf hnd { b with readers := [] }).dropBuf hnd)) ∧
  (∀ (s : State) (hnd : Nat) (b : Buf) (l : List Nat), s.buf hnd = some b → b.moved = some l →
    ∃ u, exec (.granuleListSwitch hnd) s = .next u ∧ u.buf hnd = some { b with grans := l, moved := none } ∧ u.regs = s.regs)

/-- Memory errors (from R127, R128): a corrected word adds one to FST_ECC_CORR; the CORR_THRESH-th of one granule within an hour sets ECC_CORR_THRESH
and queues an error that names the granule, and its count starts afresh; a pass corrects words in allocated granules, and is off with SCRUB_PERIOD 0;
an uncorrectable word reads black from then on, adds one to FST_ECC_UNCORR, sets ECC_UNCORR and queues an error that names the granule. Clauses on a
point the specification leaves open follow the model's own reading (log entry 154). That an event whose condition does not hold changes nothing is the
model's choice (log entry 146). Each of these commands is shown to complete, under conditions on the state and its operands alone: eccCorrected,
eccUncorrectable, patrolScrub. -/
def Obligations.MemoryErrors : Prop :=
  (∀ (s : State) (g : Fin 16384) (t : Nat),
    ((tabGet [] s.fst.corr g).filter (fun x => decide (t < x + hour))).length + 1 < max 1 (s.get R.FST_CTL F.FST_CTL_CORR_THRESH) →
    ∃ u, exec (.eccCorrected g t) s = .next u ∧ (u.rd R.FST_ECC_CORR).toNat = min 0xFFFFFFFF ((s.rd R.FST_ECC_CORR).toNat + 1) ∧
      tabGet [] u.fst.corr g = (tabGet [] s.fst.corr g).filter (fun x => decide (t < x + hour)) ++ [t] ∧
      (∀ a, a ≠ R.FST_ECC_CORR → u.rd a = s.rd a) ∧ u.fst.mem = s.fst.mem) ∧
  (∀ (s : State) (g : Fin 16384) (t : Nat),
    max 1 (s.get R.FST_CTL F.FST_CTL_CORR_THRESH) ≤ ((tabGet [] s.fst.corr g).filter (fun x => decide (t < x + hour))).length + 1 →
    exec (.eccCorrected g t) s = .next ((({ (s.at_ t).inc R.FST_ECC_CORR with fst := { s.fst with corr := tabSet [] s.fst.corr g [] } } : State).raise
      Hist.fst F.FST_HIST_ECC_CORR_THRESH).reportError (0x60000 + g.val) 0x01)) ∧
  (∀ (s : State) (g : Fin 16384) (off t w : Nat), w = (g.val * granBytes + off % granBytes) / 8 →
    exec (.eccUncorrectable g off t) s =
      .next (((({ s.at_ t with fst := { s.fst with badW := if s.fst.badW.contains w then s.fst.badW else s.fst.badW ++ [w] } } : State).inc
        R.FST_ECC_UNCORR).raise Hist.fst F.FST_HIST_ECC_UNCORR).reportError (0x60000 + g.val) 0x02)) ∧
  (∀ (s : State) (l : List Nat) (t : Nat), s.get R.FST_CTL F.FST_CTL_SCRUB_PERIOD = 0 → exec (.patrolScrub l t) s = .next (s.at_ t)) ∧
  (∀ (s : State) (l : List Nat) (t : Nat), s.get R.FST_CTL F.FST_CTL_SCRUB_PERIOD ≠ 0 →
    exec (.patrolScrub l t) s = .next ((l.filter fun g => s.usedGrans.contains g).foldl (fun s g => s.corrected g t) (s.at_ t)))

/-- Context descriptors (from R146 to R148): past the common checks an input ring that is none is BAD_PARAM at byte 16, an engine that does not exist
BAD_PARAM at byte 18; otherwise, built without a shortfall and with the ledgers met, the context stands and the descriptor completes OK naming it.
CTX_PARAM of a context that is not admitted is BAD_PARAM at byte 16; otherwise, built without a shortfall and with the ledgers met or nothing more
needed than before, the new parameters wait with those in force unchanged. CTX_RELEASE of a context of a chain or of a chain that feeds a destination
is DENIED, of a FREE context or a unit that heads no chain BAD_PARAM at byte 18; else the context or chain is released and the descriptor completes
OK. Clauses on points the specification leaves open follow the model's own reading (log entries 187, 206). Each of these commands is shown to
complete, under conditions on the state and its operands alone: ctxAdmit, ctxParam, ctxRelease. -/
def Obligations.ContextDescriptors : Prop :=
  (∀ (s v : State) (h : Hdr) (ring engine offset : Nat) (x : ConvSet), s.admits (admitRule ring engine offset x) h v →
    (v.ring ring = none → ∃ t, exec (.ctxAdmit h ring engine offset x) s = .next t ∧ v.posts t h 4 (badRes 16) ∧ v.hostOnly t) ∧
    (∀ g, v.ring ring = some g → 2 ≤ g.depth → g.freeing = false → 12 ≤ engine → engine ≠ 0xFF →
      ∃ t, exec (.ctxAdmit h ring engine offset x) s = .next t ∧ v.posts t h 4 (badRes 18) ∧ v.hostOnly t) ∧
    (∀ g spec c r b w, v.ring ring = some g → 2 ≤ g.depth → g.freeing = false → (engine < 12 ∨ engine = 0xFF) →
      v.convSpec g.fmt g.pix g.cdesc x offset = .ok spec →
      Build.ctx { s := v } ⟨ring, spec, false, if engine = 0xFF then none else some engine, none⟩ = (c, r, b) → b.codes = [] →
      (∀ l ∈ spec.luts, v.bankInUse (c / 16) l.1 = false) → w = b.s.setDesc r (presetDesc spec.par.preset g.cdesc spec.outPix) → v.fitOf w = .fits →
      (w.ok h (ctxResult w c r)).inflight ≤ 16384 →
      exec (.ctxAdmit h ring engine offset x) s = .next (v.accept (w.ok h (ctxResult w c r))))) ∧
  (∀ (s v : State) (h : Hdr) (c mask offset : Nat) (x : ConvSet),
    s.admits (paramRule c mask offset x) h v →
    (v.ctx c = none → ∃ t, exec (.ctxParam h c mask offset x) s = .next t ∧ v.posts t h 4 (badRes 16) ∧ v.hostOnly t) ∧
    (∀ y p luts b, v.ctx c = some y → v.paramSpec y mask offset x = .ok (p, luts) → (∀ l ∈ luts, v.bankInUse (y.engine c) l.1 = false) →
      b = v.paramBuild c y p luts (maskBit mask 5) x.park → b.codes = [] →
      (v.fitOf b.s = .fits ∨ ((∀ e < 12, b.s.engLoad4 e ≤ v.engLoad4 e) ∧ b.s.fstBits ≤ v.fstBits ∧ b.s.hsfBits ≤ v.hsfBits ∧
        b.s.fst.bufs.length = v.fst.bufs.length)) → (b.s.ok h 0).inflight ≤ 16384 →
      exec (.ctxParam h c mask offset x) s = .next (v.accept (b.s.ok h 0)) ∧ ∃ z, b.s.ctx c = some z ∧ z.next = some p ∧ z.par = y.par)) ∧
  (∀ (s v : State) (h : Hdr) (n : Nat), s.admits { op := 0x21, rfn := 0, pay := [fldBit 16 0 false, fld 18 2 n], sig := true } h v →
    (∀ x, v.ctx n = some x → x.chain = true → ∃ t, exec (.ctxRelease h false n) s = .next t ∧ v.posts t h 5 6 ∧ v.hostOnly t) ∧
    (v.ctx n = none → ∃ t, exec (.ctxRelease h false n) s = .next t ∧ v.posts t h 4 (badRes 18) ∧ v.hostOnly t) ∧
    (∀ x, v.ctx n = some x → x.chain = false → ((v.releaseCtx n).ok h 0).inflight ≤ 16384 →
      exec (.ctxRelease h false n) s = .next (v.accept ((v.releaseCtx n).ok h 0)))) ∧
  (∀ (s v : State) (h : Hdr) (n : Nat), s.admits { op := 0x21, rfn := 0, pay := [fldBit 16 0 true, fld 18 2 n], sig := true } h v →
    (v.chainOf n = none → ∃ t, exec (.ctxRelease h true n) s = .next t ∧ v.posts t h 4 (badRes 18) ∧ v.hostOnly t) ∧
    ((v.chainOf n).isSome = true → v.feeds (352 + n) = true →
      ∃ t, exec (.ctxRelease h true n) s = .next t ∧ v.posts t h 5 6 ∧ v.hostOnly t) ∧
    ((v.chainOf n).isSome = true → v.feeds (352 + n) = false → ((v.releaseChain n).ok h 0).inflight ≤ 16384 →
      exec (.ctxRelease h true n) s = .next (v.accept ((v.releaseChain n).ok h 0))))

/-- Contexts at their frame boundaries (from R147, R148, Table 4-7): waiting parameters apply between frames of a running context; a context that
starts runs from this boundary; one told to park is parked after its frame; a released one becomes FREE after its slice; a moving one runs on its new
engine; with no orphan nothing is admitted again, and an orphan that an engine and the ledgers take runs again, on its own engine or another's slot.
Clauses on a point the specification leaves open follow the model's own reading (log entry 168). That an event whose condition does not hold changes
nothing is the model's choice (log entry 146). Each of these commands is shown to complete, under conditions on the state and its operands alone:
ctxParamApply, ctxRunStart, ctxParkStop, ctxReleaseStop, ctxMoveComplete, orphanReadmit. -/
def Obligations.ContextBoundaries : Prop :=
  (∀ (s : State) (c : Fin 192) (t : Nat) (x : Ctx), s.ctx c = some x → x.st = .running → x.nextSt ≠ some .parked → x.active = false →
    s.inSlice c = false → exec (.ctxParamApply c t) s = .next ((s.at_ t).applyParam c)) ∧
  (∀ (s : State) (c : Fin 192) (t : Nat) (x : Ctx), s.ctx c = some x → x.st = .running → x.starting = true →
    ∃ u y, exec (.ctxRunStart c t) s = .next u ∧ u.ctx c = some y ∧ y.starting = false ∧ y.st = .running ∧ y.active = false ∧ y.inBuf = none ∧
      y.outBuf = none ∧ y.next = none ∧ y.par = x.next.getD x.par ∧ u.regs = s.regs) ∧
  (∀ (s : State) (c : Fin 192) (t : Nat) (x : Ctx), s.ctx c = some x → x.nextSt = some .parked → x.active = false → s.inSlice c = false →
    ∃ u, exec (.ctxParkStop c t) s = .next u ∧ u.ctx c = some { x with st := .parked, nextSt := none, starting := false } ∧ u.regs = s.regs) ∧
  (∀ (s : State) (c : Fin 192) (t : Nat) (x : Ctx), s.ctx c = some x → x.release = true → s.inSlice c = false →
    exec (.ctxReleaseStop c t) s = .next ((s.at_ t).freeCtx c)) ∧
  (∀ (s : State) (c : Fin 192) (t c' : Nat) (x : Ctx), s.ctx c = some x → x.st = .moving → x.moveTo = some c' →
    exec (.ctxMoveComplete c t) s =
      .next ((((s.at_ t).letGo c).setCtx c { x.idle with st := .running, frameAt := (s.at_ t).ctxFrameAt c x t }).renumber c c')) ∧
  (∀ (s : State) (t : Nat), (∀ p ∈ s.che.ctx, p.2.st ≠ .orphan) → exec (.orphanReadmit t) s = .next (s.at_ t)) ∧
  (∀ (s : State) (t c e : Nat) (x : Ctx), (s.at_ t).che.ctx.find? (fun p => p.2.st == .orphan) = some (c, x) →
    ((s.at_ t).bestEngine fun k => (s.at_ t).engOpen k && (k == c / 16 || ((s.at_ t).freeSlot k).isSome) &&
      decide (((((s.at_ t).ctxFig x).map ChainFig.load4).getD 0 * 115 : Nat) ≤ (s.at_ t).engSpare k)) = some e → e = c / 16 →
    (s.at_ t).fitOf ((s.at_ t).setCtx c { x with st := .running, starting := true }) = .fits →
    exec (.orphanReadmit t) s = .next ((s.at_ t).setCtx c { x with st := .running, starting := true })) ∧
  (∀ (s w : State) (t c e k : Nat) (x : Ctx), (s.at_ t).che.ctx.find? (fun p => p.2.st == .orphan) = some (c, x) →
    ((s.at_ t).bestEngine fun k => (s.at_ t).engOpen k && (k == c / 16 || ((s.at_ t).freeSlot k).isSome) &&
      decide (((((s.at_ t).ctxFig x).map ChainFig.load4).getD 0 * 115 : Nat) ≤ (s.at_ t).engSpare k)) = some e → e ≠ c / 16 →
    (s.at_ t).freeSlot e = some k → w = ((s.at_ t).setCtx c { x with st := .running, starting := true }).renumber c (16 * e + k) →
    (s.at_ t).fitOf w = .fits → 16 * e + k ≠ c → exec (.orphanReadmit t) s = .next w)

/-- Slices (from R133, R136, R137): an idle engine that runs takes the ready slice of its only running context, whose frame begins with it if none is
in progress; a slice that ends frees the engine and its lines are written; of an abandoned frame nothing is; a slice whose deadline has passed counts
in the context's and the engine's miss counters and sets DEADLINE_MISS, and the rest of its frame is absent. Clauses on points the specification
leaves open follow the model's own reading (log entries 147, 148, 169). Each of these commands is shown to complete, under conditions on the state and
its operands alone: sliceStart, sliceEnd, sliceDeadlineMiss. -/
def Obligations.Slices : Prop :=
  (∀ (s w : State) (e : Fin 12) (c t : Nat) (x : Ctx), w = (s.at_ t).endAbandoned e t → w.engCtxs e = [(c, x)] → w.engRuns e = true →
    (w.eng e).run = none → x.st = .running → x.starting = false → x.release = false → (x.abandon = true → x.active = false) → w.sliceReady x t = true →
    (x.active = true → exec (.sliceStart e t) s = .next (w.setEng e { w.eng e with run := some (c, x.slice) })) ∧
    (x.active = false → exec (.sliceStart e t) s =
      .next ((w.beginFrame c t).setEng e { (w.beginFrame c t).eng e with run := some (c, x.slice) }))) ∧
  (∀ (s : State) (e : Fin 12) (t c k : Nat), (s.eng e).run = some (c, k) → s.ctx c = none →
    exec (.sliceEnd e t) s = .next ((s.at_ t).setEng e { s.eng e with run := none })) ∧
  (∀ (s : State) (e : Fin 12) (t c k : Nat) (x : Ctx), (s.eng e).run = some (c, k) → s.ctx c = some x → (x.stale = true ∨ x.abandon = true) →
    exec (.sliceEnd e t) s = .next (((s.at_ t).setEng e { s.eng e with run := none }).setCtx c { x with stale := false })) ∧
  (∀ (s : State) (e : Fin 12) (t c k : Nat) (x : Ctx) (f : Fmt), (s.eng e).run = some (c, k) → s.ctx c = some x → x.stale = false →
    x.abandon = false → x.active = true → x.slice = k → s.fmt? x.outFmt = some f →
    exec (.sliceEnd e t) s = .next ((((s.at_ t).setEng e { s.eng e with run := none }).catchUp x.inRing t).sliceDone c k x f)) ∧
  (∀ (s : State) (c : Fin 192) (t : Nat) (x : Ctx) (f : Fmt), s.ctx c = some x → s.fmt? x.outFmt = some f → x.st = .running → x.starting = false →
    f.deadline x.frameAt x.slice ≤ t → x.abandon = false → x.active = true →
    ∀ u w, u = (((s.at_ t).inc (R.CHE_CTX_MISS (c / 16) (c % 16))).inc (R.CHE_MISS_CNT (c / 16))).raise (Hist.che (c / 16))
      F.CHE_HIST_DEADLINE_MISS → w = u.linesGone c ((f.sliceSpan x.slice).1, f.lines) → w.ctx c = some x → w.engRuns (c / 16) = true →
    exec (.sliceDeadlineMiss c t) s =
      .next ((w.setCtx c { x with absent := ((f.sliceSpan x.slice).1, f.lines) :: x.absent, abandon := true }).endFrame c)) ∧
  (∀ (s : State) (c : Nat) (gone : Nat × Nat) (x : Ctx) (k : Nat) (b : Buf), s.ctx c = some x → x.outBuf = some k → s.buf k = some b →
    (∀ p ∈ s.sou.unit, ∀ l, p.2.sel l ≠ some k) → s.linesGone c gone = s.setBuf k { b with absent := gone :: b.absent }) ∧
  (∀ (s : State) (c : Nat) (gone : Nat × Nat) (x : Ctx), s.ctx c = some x → x.outBuf = none → s.linesGone c gone = s)

/-! ### Scan-out units (05_scan_out_and_rasters.md) -/

/-- SOU_CFG and SOU_COMMIT (from R166 to R175): past the common checks a unit that does not exist is BAD_PARAM at byte 16; FREE of a chain's unit or
of one that feeds a destination, and a change to what a chain owns, are DENIED with reason 6; FREE of any other unit ends its commits ABORTED and
frees it; with no unit to claim the descriptor's parameters are judged first, and if they would do, it ends NO_CAPACITY with code 8; a record that
fails is named; one that passes, with the ledgers met, becomes the unit's pending set, and with COMMIT is committed too. A commit in time flies to its
commit line; a late one sets LATE_COMMIT, counts, and flies to the same line of a later frame, or completes LATE under DROP_IF_LATE; what lies between
acceptance and arming is any instant Table 1-3 allows. Clauses on points the specification leaves open follow the model's own reading (log entries 17,
28, 30, 206). Each of these commands is shown to complete, under conditions on the state and its operands alone: souCfg, souCommit. -/
def Obligations.ScanOutDescriptors : Prop :=
  (∀ (s v : State) (h : Hdr) (r : SouReq), s.admits (souRule r) h v →
    (160 ≤ r.unit → r.unit ≠ 0xFF → ∃ t, exec (.souCfg h r) s = .next t ∧ v.posts t h 4 (badRes 16) ∧ v.hostOnly t) ∧
    (r.unit < 160 → r.free = true → (v.unit r.unit).alloc = true → ((v.chainOf r.unit).isSome = true ∨ v.feeds (352 + r.unit) = true) →
      ∃ t, exec (.souCfg h r) s = .next t ∧ v.posts t h 5 6 ∧ v.hostOnly t) ∧
    (∀ w, r.unit < 160 → r.free = true → (v.unit r.unit).alloc = true → v.chainOf r.unit = none → v.feeds (352 + r.unit) = false →
      w = (((v.commits r.unit).foldl (fun s p => s.finish p.1 { status := 0x06 }) v).freeUnit r.unit).ok h r.unit → w.inflight ≤ 16384 →
      exec (.souCfg h r) s = .next (v.accept w)) ∧
    ((160 ≤ r.unit → r.unit = 0xFF) → r.free = false → v.chainChange r = true →
      ∃ t, exec (.souCfg h r) s = .next t ∧ v.posts t h 5 6 ∧ v.hostOnly t) ∧
    ((160 ≤ r.unit → r.unit = 0xFF) → r.free = false → v.chainChange r = false → 3 < r.quad → r.quad ≠ 0xFF →
      ∃ t, exec (.souCfg h r) s = .next t ∧ v.posts t h 4 (badRes 17) ∧ v.hostOnly t) ∧
    ((160 ≤ r.unit → r.unit = 0xFF) → r.free = false → v.chainChange r = false → (r.quad ≤ 3 ∨ r.quad = 0xFF) → r.reads = true →
      r.addr % 8 ≠ 0 → ∃ t, exec (.souCfg h r) s = .next t ∧ v.posts t h 4 (badRes 24) ∧ v.hostOnly t) ∧
    ((160 ≤ r.unit → r.unit = 0xFF) → r.free = false → v.chainChange r = false → (r.quad ≤ 3 ∨ r.quad = 0xFF) →
      (r.reads = true → r.addr % 8 = 0) →
      (v.souTarget r = none → (∃ u x, u ∈ (if r.unit < 160 then [r.unit] else [0, 40, 80, 120]) ∧ v.souCheck u {} r = .ok x) →
        ∃ t, exec (.souCfg h r) s = .next t ∧ v.posts t h 3 8 ∧ v.hostOnly t) ∧
      (∀ u e, v.souTarget r = some u → v.souCheck u (v.unit u).pending r = .error e →
        ∃ t, exec (.souCfg h r) s = .next t ∧ v.posts t h 4 e ∧ v.hostOnly t) ∧
      (∀ u x, v.souTarget r = some u → v.souCheck u (v.unit u).pending r = .ok x →
        (v.fedCarry u x = false → ∃ t, exec (.souCfg h r) s = .next t ∧ v.posts t h 4 (dataRes (some 2)) ∧ v.hostOnly t) ∧
        (v.fedCarry u x = true → r.commit = true → h.rfn ≠ 0 → v.rfnFar h.rfn = true →
          ∃ t, exec (.souCfg h r) s = .next t ∧ v.posts t h 4 (badRes 8) ∧ v.hostOnly t) ∧
        (v.fedCarry u x = true → v.fitOf (v.setPending u x r) = .fits →
          (r.commit = false → ∃ t, exec (.souCfg h r) s = .next t ∧ v.posts t h 0 u ∧ t.unit u = (v.setPending u x r).unit u) ∧
          (r.commit = true → (h.rfn = 0 ∨ v.rfnFar h.rfn = false) →
            ∃ a c late t, v.now ≤ a ∧ a ≤ v.now + armBound h.signed ∧ (v.setPending u x r).commitPoint u h.rfn a = (c, late) ∧
              exec (.souCfg h r) s = .next t ∧ t.unit u = (v.setPending u x r).unit u ∧
              (late = true → h.rfn ≠ 0 → h.dropIfLate = true → v.posts t h 1 u) ∧
              (late = false ∨ h.rfn = 0 ∨ h.dropIfLate = false →
                v.flies t h (.commit { unit := u, rfn := h.rfn, due := c, late := late, drop := h.dropIfLate }))))))) ∧
  (∀ (s v : State) (h : Hdr) (u : Nat), s.admits { op := 0x41, rfn := 2, pay := [fld 16 1 u], sig := true } h v →
    (h.rfn ≠ 0 → v.rfnFar h.rfn = true → ∃ t, exec (.souCommit h u) s = .next t ∧ v.posts t h 4 (badRes 8) ∧ v.hostOnly t) ∧
    ((h.rfn = 0 ∨ v.rfnFar h.rfn = false) → (160 ≤ u ∨ (v.unit u).alloc = false) →
      ∃ t, exec (.souCommit h u) s = .next t ∧ v.posts t h 4 (badRes 16) ∧ v.hostOnly t) ∧
    ((h.rfn = 0 ∨ v.rfnFar h.rfn = false) → u < 160 → (v.unit u).alloc = true →
      ∃ a c late t, v.now ≤ a ∧ a ≤ v.now + armBound h.signed ∧ v.commitPoint u h.rfn a = (c, late) ∧ exec (.souCommit h u) s = .next t ∧
        v.draw.2.hostOnly t ∧
        (late = false ∨ h.rfn = 0 ∨ h.dropIfLate = false →
          v.flies t h (.commit { unit := u, rfn := h.rfn, due := c, late := late, drop := h.dropIfLate })) ∧
        (late = true → t.get (R.SOU_HIST u) F.SOU_HIST_LATE_COMMIT = 1 ∧
          (t.rd (R.SOU_LATE_COMMIT_CNT u)).toNat = min 0xFFFFFFFF ((v.rd (R.SOU_LATE_COMMIT_CNT u)).toNat + 1) ∧
          (h.rfn ≠ 0 → h.dropIfLate = true → v.posts t h 1 0))))

/-- User formats (from R154, R155): a write of XPT_UFMT_MODE is taken when the values meet every condition of R155 and no block names the index; then
the entry is the format the registers spell. Otherwise the entry in force stays and ERR sets. Each of these commands is shown to complete, under
conditions on the state and its operands alone: ufmtModeWrite. -/
def Obligations.UserFormats : Prop :=
  (∀ u : UFmt, u.ok = true ↔ u.activeWidth % 2 = 0 ∧ 64 ≤ u.activeWidth ∧ u.activeWidth ≤ 7680 ∧ u.activeWidth + 32 ≤ u.totalSamples ∧
    u.totalSamples ≤ 16383 ∧ 16 ≤ u.activeLines ∧ u.activeLines ≤ 4320 ∧ (u.interlaced = true → u.activeLines % 2 = 0) ∧ u.totalLines ≤ 8191 ∧
    (u.interlaced = false → 2 ≤ u.firstF1 ∧ (u.firstF1 + u.activeLines - 1 : Int) ≤ u.totalLines) ∧
    (u.interlaced = true → (u.firstF1 + u.activeLines / 2 - 1 : Int) < u.firstF2 ∧ (u.firstF2 + u.activeLines / 2 - 1 : Int) ≤ u.totalLines) ∧
    1 ≤ u.swLine ∧ u.swLine ≤ (u.firstF1 - 1 : Int) ∧ u.rate ≤ 10 ∧ u.totalSamples * u.totalLines * rateF u.rate ≤ 2376000000 * 1001) ∧
  (∀ (s w : State) (m : Fin 16) (v : Nat), s.upFor (R.XPT_UFMT_MODE m) → w = ((s.set (R.XPT_UFMT_MODE m) F.XPT_UFMT_MODE_INTERLACED (v / 2 ^ 31)).set (R.XPT_UFMT_MODE m)
      F.XPT_UFMT_MODE_RATE (v / 2 ^ 24)).set (R.XPT_UFMT_MODE m) F.XPT_UFMT_MODE_SWLINE (v / 2 ^ 12) →
    ((w.ufmtWritten m).ok = true → w.ufmtInUse (0x40 + m) = false → ∃ t, exec (.ufmtModeWrite m v) s = .next t ∧
      tabFind t.xpt.ufmt m = some (w.ufmtWritten m) ∧ (∀ k, k ≠ m.val → tabFind t.xpt.ufmt k = tabFind s.xpt.ufmt k) ∧
      ∀ a, a ≠ R.XPT_UFMT_MODE m → t.rd a = s.rd a) ∧
    (((w.ufmtWritten m).ok = false ∨ w.ufmtInUse (0x40 + m) = true) → ∃ t, exec (.ufmtModeWrite m v) s = .next t ∧ t.xpt = s.xpt ∧
      t.get (R.XPT_UFMT_STAT m) F.XPT_UFMT_STAT_ERR = 1 ∧ ∀ a, a ∉ [R.XPT_UFMT_MODE m, R.XPT_UFMT_STAT m] → t.rd a = s.rd a))

/-- Commits and frame starts of a unit (from R170, R174 to R178, Tables 5-4 and 5-6): a commit whose window closes latches the pending set, or fails
when a layer has lost its ring, or goes on to the last field's line that a timing change asks for; a latched one executes at its line, and not on a
gated unit; a set without a timing change becomes the active set at once, one that changes the timing of a running unit waits for the end of its frame
and sets TIMING_CHANGE; new timing starts at a frame start of its grid; a frame start selects the layers' buffers, and after the last frame of the old
timing takes a synthesizer that is to retune; a gated unit resumes once its synthesizer is locked, the commits of the gap first. Clauses on a point
the specification leaves open follow the model's own reading (log entry 193). Each of these commands is shown to complete, under conditions on the
state and its operands alone: commitLatch, commitExecute, newTimingStart, souFrameStart, souResume. -/
def Obligations.ScanOutEvents : Prop :=
  (∀ (s : State) (u : Fin 160) (t id : Nat) (c d : CommitOp), (s.at_ t).commits u = [(id, c)] → c.latched = none → (s.at_ t).windowClosed u c = true →
    d = { c with due := (s.at_ t).latchDue u c } →
    ((s.at_ t).windowClosed u d = false → exec (.commitLatch u t) s = .next ((s.at_ t).setOp id (.commit d))) ∧
    ((s.at_ t).windowClosed u d = true → (s.at_ t).ringLost (s.unit u).pending = false →
      exec (.commitLatch u t) s = .next ((s.at_ t).setOp id (.commit { d with latched := some ((s.unit u).pending, (s.unit u).tune) }))) ∧
    ((s.at_ t).windowClosed u d = true → (s.at_ t).ringLost (s.unit u).pending = true →
      exec (.commitLatch u t) s = .next ((s.at_ t).finish id { status := 0x04, lateCmt := c.late, result := some (badRes 16) }))) ∧
  (∀ (s : State) (u : Fin 160) (t id : Nat) (c : CommitOp), (s.at_ t).commits u = [(id, c)] → c.latched.isSome = true →
    (s.at_ t).commitCome u c.due = true →
    exec (.commitExecute u t) s = .next (if (s.unit u).gated then s.at_ t else ((s.at_ t).keepSent u c.due).runCommit u (id, c))) ∧
  (∀ (s : State) (u : Nat) (x : SouSet) (tune : Bool),
    (((s.unit u).run = false ∨ timingDiffers (s.unit u).active x = false) → tune = false → ((s.applyCommit u x tune).unit u).active = x) ∧
    ((s.unit u).run = true → (timingDiffers (s.unit u).active x = true ∨ tune = true) →
      ((s.applyCommit u x tune).unit u).newTiming = some (x, tune) ∧ ((s.applyCommit u x tune).unit u).active = (s.unit u).active ∧
      (s.applyCommit u x tune).get (R.SOU_HIST u) F.SOU_HIST_TIMING_CHANGE = 1) ∧
    ((s.unit u).run = false → tune = true →
      s.applyCommit u x tune = (s.setUnit u { s.unit u with newTiming := some (x, true), frameEnd := s.now }).holdRetune u x)) ∧
  (∀ (s : State) (u : Fin 160) (t : Nat) (x : SouSet), (s.unit u).newTiming = some (x, false) → (s.unit u).frameEnd ≤ t → (s.at_ t).atFrame u x t = true →
    exec (.newTimingStart u t) s = .next (((s.at_ t).setUnit u { s.unit u with newTiming := none, frameEnd := 0, retune := false, sent := [] }).adopt u x)) ∧
  (∀ (s : State) (u : Fin 160) (t : Nat) (x : SouSet), (s.unit u).newTiming = some (x, true) → (s.unit u).frameEnd ≤ t → (s.at_ t).atFrame u x t = true →
    (s.unit u).retune = true → s.synState (u / 40 * 4 + x.syn) = 3 →
    exec (.newTimingStart u t) s = .next (((s.at_ t).setUnit u { s.unit u with newTiming := none, frameEnd := 0, retune := false, sent := [] }).adopt u x)) ∧
  (∀ (s : State) (u : Fin 160) (t : Nat), (s.unit u).run = true → (s.unit u).gated = false → (s.unit u).retune = false →
    ((s.unit u).newTiming = none ∨ t < (s.unit u).frameEnd) → exec (.souFrameStart u t) s = .next ((s.at_ t).selectLayers u)) ∧
  (∀ (s : State) (u : Fin 160) (t : Nat) (x : SouSet), (s.unit u).run = true → (s.unit u).gated = false → (s.unit u).retune = false →
    (s.unit u).newTiming = some (x, true) → (s.unit u).frameEnd ≤ t → exec (.souFrameStart u t) s = .next ((s.at_ t).holdRetune u x)) ∧
  (∀ (s w : State) (u : Fin 160) (t : Nat), (s.unit u).gated = true → s.inReset 8 u = false → s.synState (u / 40 * 4 + (s.unit u).active.syn) = 3 →
    w = (s.at_ t).setUnit u { s.unit u with gated := false } →
    exec (.souResume u t) s =
      .next (((((w.commits u).filter fun p => w.commitCome u p.2.due).foldl (fun s p => s.runCommit u p) w).selectLayers u).refreshSrc (352 + u)))

/-- The line buffer (from R162 to R164): a line of a sending unit whose data is not there shows background from its first missing sample on, and
counts once in SOU_UNDERRUN_LINES and sets UNDERRUN; of its share of the buffer a layer is urgent below LOW_WM and critical below CRIT_WM percent, a
layer that enters a level sets URGENT or CRITICAL, and neither touches any other register. Clauses on a point the specification leaves open follow the
model's own reading (log entry 169). Each of these commands is shown to complete, under conditions on the state and its operands alone: lineUnderrun,
fetchUrgencyChange. -/
def Obligations.LineBuffer : Prop :=
  (∀ (s : State) (u : Fin 160) (line samp : Nat), (s.souGrid u).isSome = true → (∃ l ∈ souLayers (s.unit u).active, l.en = true) →
    ((∀ p ∈ (s.unit u).under, p.1 ≠ line) → ∃ t, exec (.lineUnderrun u line samp) s = .next t ∧
      t.unit u = { s.unit u with under := (line, samp) :: (s.unit u).under } ∧
      (t.rd (R.SOU_UNDERRUN_LINES u)).toNat = min 0xFFFFFFFF ((s.rd (R.SOU_UNDERRUN_LINES u)).toNat + 1) ∧
      t.get (R.SOU_HIST u) F.SOU_HIST_UNDERRUN = 1 ∧ ∀ a, a ∉ [R.SOU_UNDERRUN_LINES u, R.SOU_HIST u] → t.rd a = s.rd a) ∧
    (∀ k, (s.unit u).under.find? (fun p => p.1 == line) = some (line, k) → exec (.lineUnderrun u line samp) s =
      .next (s.setUnit u { s.unit u with under := (line, min samp k) :: (s.unit u).under.filter fun q => q.1 != line }))) ∧
  (∀ (s : State) (u : Nat) (x : SouSet) (l : SouLayer) (fill low crit full : Nat), low = max 1 (min 99 (s.get (R.SOU_CTL u) F.SOU_CTL_LOW_WM)) →
    crit = min (max 1 (min 99 (s.get (R.SOU_CTL u) F.SOU_CTL_CRIT_WM))) (low - 1) → full = 131072 * s.layerPitch l / max 1 (s.pitchSum x) → l.en = true →
    (low * full ≤ 100 * fill → s.urgency u x l fill = 0) ∧ (crit * full ≤ 100 * fill → 100 * fill < low * full → s.urgency u x l fill = 1) ∧
    (100 * fill < crit * full → s.urgency u x l fill = 2)) ∧
  (∀ (s : State) (u : Fin 160) (f1 f2 f3 a b c : Nat), a = s.urgency u (s.unit u).active (s.unit u).active.l1 f1 →
    b = s.urgency u (s.unit u).active (s.unit u).active.l2 f2 → c = s.urgency u (s.unit u).active (s.unit u).active.l3 f3 →
    ∃ t, exec (.fetchUrgencyChange u f1 f2 f3) s = .next t ∧ t.unit u = { s.unit u with urg1 := a, urg2 := b, urg3 := c } ∧
      ((a = 1 ∧ (s.unit u).urg1 ≠ 1) ∨ (b = 1 ∧ (s.unit u).urg2 ≠ 1) ∨ (c = 1 ∧ (s.unit u).urg3 ≠ 1) → t.get (R.SOU_HIST u) F.SOU_HIST_URGENT = 1) ∧
      ((a = 2 ∧ (s.unit u).urg1 ≠ 2) ∨ (b = 2 ∧ (s.unit u).urg2 ≠ 2) ∨ (c = 2 ∧ (s.unit u).urg3 ≠ 2) → t.get (R.SOU_HIST u) F.SOU_HIST_CRITICAL = 1) ∧
      ∀ a, a ≠ R.SOU_HIST u → t.rd a = s.rd a)

/-! ### Audio (06_audio.md) -/

/-- Audio descriptors (from R197 to R200, R209): past the common checks AUD_MAP is refused at its lowest failing byte or with what it lacks, and
otherwise claims its slots and waits for its sample, or completes LATE when late and to be dropped; AUD_FADE in time of mapped channels flies to the
first matrix sample a period away, or at t(RFN), and a late one that is to be dropped completes LATE; SAP_CFG is DENIED with reason 6 when it changes
what a mapped port holds fast, and otherwise stores the port's settings. Clauses on points the specification leaves open follow the model's own
reading (log entries 17, 32, 33, 34, 35, 36). Each of these commands is shown to complete, under conditions on the state and its operands alone:
audMap, audFade, sapCfg. -/
def Obligations.AudioDescriptors : Prop :=
  (∀ (s v : State) (h : Hdr) (a : AudMapReq), s.admits { op := 0x50, rfn := 2, pay := audMapPay a, sig := true, lv := s.lvEndpoint a.dst } h v →
    (∀ k, v.mapBad a h.rfn = some k → ∃ t, exec (.audMap h a) s = .next t ∧ v.posts t h 4 (badRes k) ∧ v.hostOnly t) ∧
    ((2400 < a.gain ∨ (a.gain < -10000 ∧ a.gain ≠ -32768) ∨ 96000 < a.delay ∨ 24000 < a.fade) →
      ∃ t k, exec (.audMap h a) s = .next t ∧ v.posts t h 4 (badRes k) ∧ v.hostOnly t) ∧
    (∀ (p : (List Nat × List Nat) × State) (e : Nat) (late : Bool) (w : State), v.mapBad a h.rfn = none → v.audExec h.rfn = (e, late) →
      p = (if a.unmap then (([], []), v) else v.claimRun a.delay (runOf a.dst a.count) ([], [])) →
      w = (p.2.addOp h ((((runOf a.dst a.count).head?.bind p.2.slotOf).map (·.1)).getD 0) (.map
        { req := a, rfn := h.rfn, exec := e, late := late, drop := h.dropIfLate, slots := p.1.1, srcs := v.mapSources a })).2 →
      (∀ c, (v.mapShort w p.1.2).min? = some c → c ≤ 6 → ∃ t, exec (.audMap h a) s = .next t ∧ v.posts t h 3 c ∧ v.hostOnly t) ∧
      (v.mapShort w p.1.2 = [] → v.fitOf w = .fits → late = true → h.dropIfLate = true →
        ∃ t, exec (.audMap h a) s = .next t ∧ v.hostOnly t ∧ t.host.ops = v.host.ops) ∧
      (v.mapShort w p.1.2 = [] → v.fitOf w = .fits → (late = false ∨ h.dropIfLate = false) → w.trimAudio.inflight ≤ 16384 →
        exec (.audMap h a) s = .next (v.accept w.trimAudio)))) ∧
  (∀ (s v : State) (h : Hdr) (a : AudFadeReq) (e : Nat) (late : Bool), s.admits { op := 0x51, rfn := 2, pay := audFadePay a, sig := true, lv := s.lvEndpoint a.dst } h v →
    v.audExec h.rfn = (e, late) → (h.rfn = 0 ∨ v.rfnFar h.rfn = false) → v.dstRunOk a.dst 1 = true → 1 ≤ a.count → a.count ≤ 64 →
    v.dstRunOk a.dst a.count = true → (∀ c ∈ runOf a.dst a.count, v.mapped c = true) →
    (gainOk a.target = false → ∃ t, exec (.audFade h a) s = .next t ∧ v.posts t h 4 (badRes 20) ∧ v.hostOnly t) ∧
    (gainOk a.target = true → 480000 < a.dur → ∃ t, exec (.audFade h a) s = .next t ∧ v.posts t h 4 (badRes 24) ∧ v.hostOnly t) ∧
    (gainOk a.target = true → a.dur ≤ 480000 → late = true → h.dropIfLate = true →
      ∃ t, exec (.audFade h a) s = .next t ∧ v.posts t h 1 0 ∧ v.hostOnly t) ∧
    (gainOk a.target = true → a.dur ≤ 480000 → (late = false ∨ h.dropIfLate = false) →
      ∃ t, exec (.audFade h a) s = .next t ∧ v.hostOnly t ∧
        v.flies t h (.fade { req := a, rfn := h.rfn, exec := e, late := late, drop := h.dropIfLate, started := false, slots := [] }))) ∧
  (∀ (s v : State) (h : Hdr) (r : SapReq), s.admits { op := 0x52, rfn := 0, pay := sapPay r } h v →
    (r.port ≤ 15 → v.sapHeld r = true → ∃ t, exec (.sapCfg h r) s = .next t ∧ v.posts t h 5 6 ∧ v.hostOnly t) ∧
    (∀ k, (15 < r.port ∨ v.sapHeld r = false) → v.sapBad r = some k → ∃ t, exec (.sapCfg h r) s = .next t ∧ v.posts t h 4 (badRes k) ∧ v.hostOnly t) ∧
    (v.sapHeld r = false → v.sapBad r = none → ∃ t, exec (.sapCfg h r) s = .next t ∧ v.posts t h 0 0 ∧ (v.sapStore r).hostOnly t ∧
      t.flag (R.SAP_CTL r.port) F.SAP_CTL_EN = r.en ∧ t.get (R.SAP_CTL r.port) F.SAP_CTL_MODE = r.mode ∧
      t.get (R.SAP_CTL r.port) F.SAP_CTL_SLOTS_M1 + 1 = r.slots))

/-- The matrix (from R192, R197 to R200, R204, R205): a source's sample at the filter's unit-impulse phase is read as it is; a slot with unity gain,
no crossfade, no ramp, no inversion and no delay passes a 24-bit sample bit-exact to a 24-bit port on the matrix grid; a transparent channel carries
zeros and fades no more while a clock is not LOCKED; a port whose own clock is not steered sends silence; a port that delivers nothing brings silence
at its rate; a ramp that is over stands at its goal; maps that have fallen due execute; a sample period takes the ports' samples in, runs its one slot
and keeps the longest time taken; the latency a chain's first frame shows becomes its path line's length, and one that differs by more than LS_JUMP_MS
afterwards makes the line jump, counts and sets LS_JUMP. Clauses on points the specification leaves open follow the model's own reading (log entries
3, 39, 194, 195). Each of these commands is shown to complete, under conditions on the state and its operands alone: mapExecute, matrixSample,
lipsyncMeasure. -/
def Obligations.AudioMatrix : Prop :=
  (∀ (l : List Int) (i : Nat), filterAt l (i * 100000000) = l.getD i 0 * 2 ^ 24) ∧
  (∀ (s : State) (o t : Nat) (x : Slot) (y : Int), tabFind s.aud.slots o = some x → s.transparent x = false → x.fade = none → x.ramp = none → x.gain = 0 →
    x.invert = false → x.rate96 = false → s.userDelay x = 0 → epClass x.dst ≠ 3 → s.outClk x.dst = none → s.dstBitsOf x.dst = 24 →
    s.readRef x.src 0 = y * 2 ^ 24 → -2 ^ 23 ≤ y → y < 2 ^ 23 →
    ((s.gecko x 0).2 = y * 2 ^ 72 ∧ (tabFind (s.geckoSlot o t).aud.slots o).map (·.sent) = some [y])) ∧
  (∀ (s : State) (o t : Nat) (x : Slot), tabFind s.aud.slots o = some x → s.transparent x = true → x.rate96 = false → s.outClk x.dst = none →
    (s.srcLocked x.src.ep = false ∨ s.dstLocked x.dst = false) →
    ((tabFind (s.geckoSlot o t).aud.slots o).map (·.sent) = some [0] ∧ (s.geckoSlot o t).get R.AUD_HIST F.AUD_HIST_TRANSP_MUTE = 1 ∧
      (tabFind (s.geckoSlot o t).aud.slots o).bind (·.fade) = none)) ∧
  (∀ (s : State) (x : Slot) (z : Int) (c : Clk), s.outClk x.dst = some c → (c.st = .lost ∨ c.st = .acquire) → (s.slotSend x [z]).1.sent = [0]) ∧
  (∀ r : Ramp, r.len ≤ r.pos → rampGain r = r.goal) ∧
  (∀ r : Ramp, r.linDb = true → 0 < r.len → r.from_ ≠ -32768 → r.pos = 0 → rampGain r = r.from_ / (r.den : Int)) ∧
  (∀ (s : State) (t : Nat), exec (.mapExecute t) s =
    .next (((s.at_ t).maps.filter fun p => decide (p.2.exec ≤ t)).foldl State.runMap (s.at_ t))) ∧
  (∀ (s w : State) (n o ns : Nat) (inputs : List (Nat × Int)) (idle : List Nat) (x : Slot), s.fades = [] → s.aud.slots = [(o, x)] → s.aud.paths = [] →
    s.dst96 x.dst = x.rate96 → x.nextSrc = none →
    w = ({ s.at_ (n * audT) with aud := { s.aud with sample := n } } : State).set R.AUD_GECKO F.AUD_GECKO_PEAK_NS
      (max (s.get R.AUD_GECKO F.AUD_GECKO_PEAK_NS) (min ns 65535)) →
    exec (.matrixSample n inputs idle ns) s = .next ((((((((w.playout n).2.intake ((w.playout n).1 ++ inputs.filter fun p => epClass p.1 != 2) idle).geckoSlot o
      (n * audT)).slotEnd o).audioSend n).aesBlocks n).rampStep).trimAudio)) ∧
  (∀ (s : State) (inputs : List (Nat × Int)) (idle : List Nat) (k : Nat), idle.contains k = false →
    (∀ p ∈ inputs, srcKey p.1 ≠ some k) → s.portCount inputs idle k = s.keyRate k) ∧
  (∀ (s : State) (u : Fin 160) (t : Nat) (c : Chain) (p : PathLine) (b : Buf), (s.at_ t).chainOf u = some c → tabFind s.aud.paths u = some p →
    (s.unit u).sel1.bind s.buf = some b → b.done ≠ 0 → p.vHist = [] →
    ∀ d, d = min 96000 ((((s.at_ t).nsNow - b.info.ptpNs - (s.at_ t).audIn c.src) * 48000 + 500000000) / 1000000000) →
      (p.target = none →
        exec (.lipsyncMeasure u t) s = .next ((s.at_ t).pathLen u d { p with vHist := [(s.at_ t).nsNow - b.info.ptpNs], target := some d })) ∧
      (p.target.isSome = true → p.jump = none → (p.delay + s.lsJump < d ∨ d + s.lsJump < p.delay) →
        ∃ w, exec (.lipsyncMeasure u t) s = .next w ∧
          tabFind w.aud.paths u = some { p with vHist := [(s.at_ t).nsNow - b.info.ptpNs], target := some d, jump := some 0 } ∧
          (w.rd R.AUD_LS_JUMP_CNT).toNat = min 0xFFFFFFFF ((s.rd R.AUD_LS_JUMP_CNT).toNat + 1) ∧ w.get R.AUD_HIST F.AUD_HIST_LS_JUMP = 1))

/-- Clocks of tracked ports (from R207, Tables 6-6 and 6-7): LOST to ACQUIRE within ±10,000 ppm when the port is up; ACQUIRE to STEERED within ±200
ppm and 32 ± 8 samples, with the 1 ms ramp in; beyond ±200 ppm to WIDE; back within ±150 ppm; LOCKED within ±0.1 ppm and 32 ± 2 samples, until the
FIFO leaves 32 ± 16; the NCO stays within ±200 ppm and what is beyond it is the resampler's; a slip counts and repeats or drops one sample; a lost
clock ramps out. Clauses on points the specification leaves open follow the model's own reading (log entries 128, 194). That an event whose condition
does not hold changes nothing is the model's choice (log entry 146). Each of these commands is shown to complete, under conditions on the state and
its operands alone: clockAcquire, clockSteered, clockWide, clockWideReturn, clockLocked, clockUnlock, fifoSlip, audioClockLost. -/
def Obligations.PortClocks : Prop :=
  ∀ (s : State) (p : AudPort) (off : Int) (fifo : Nat) (c : Clk), c = s.clk (audKey p) →
    (c.st = .lost → s.audUp p = true → off.natAbs ≤ 1000000 →
      exec (.clockAcquire p off) s = .next (s.setClk (audKey p) { c with st := .acquire, off := off, fifo := 32, pos := 0, rampIn := none, rampOut := none })) ∧
    (c.st = .acquire → off.natAbs ≤ 20000 → 24 ≤ fifo → fifo ≤ 40 →
      exec (.clockSteered p off fifo) s = .next (s.setClk (audKey p) { c with st := .steered, off := off, fifo := fifo, integ := off * 10000, rest := 0, rampIn := some 0 })) ∧
    (c.st = .acquire → 20000 < off.natAbs → ∀ lim : Int, lim = (if off < 0 then -20000 else 20000) →
      ∃ t, exec (.clockWide p off) s = .next t ∧
        t.clk (audKey p) = { c with st := .wide, off := lim, rest := off - lim, integ := off * 10000, rampIn := some 0 }) ∧
    (c.st = .steered → 20000 < off.natAbs → ∀ lim : Int, lim = (if off < 0 then -20000 else 20000) →
      ∃ t, exec (.clockWide p off) s = .next t ∧ t.clk (audKey p) = { c with st := .wide, off := lim, rest := off - lim, integ := off * 10000 } ∧
      (∀ n, p = .sap n → t.get (R.SAP_HIST n) F.SAP_HIST_STEER_LIMIT = 1) ∧ (∀ n, p = .aesi n → t.get (R.AESI_HIST n) F.AESI_HIST_STEER_LIMIT = 1)) ∧
    (c.st = .wide → off.natAbs ≤ 15000 → exec (.clockWideReturn p off) s = .next (s.setClk (audKey p) { c with st := .steered, off := off, integ := off * 10000, rest := 0 })) ∧
    (c.st = .steered → off.natAbs ≤ 10 → 30 ≤ fifo → fifo ≤ 34 →
      exec (.clockLocked p off fifo) s = .next (s.setClk (audKey p) { c with st := .locked, off := off, fifo := fifo, rest := 0 })) ∧
    (c.st = .locked → (fifo < 16 ∨ 48 < fifo) → exec (.clockUnlock p fifo) s = .next (s.setClk (audKey p) { c with st := .steered, fifo := fifo, integ := c.off * 10000 })) ∧
    (c.st = .locked → 16 ≤ fifo → fifo ≤ 48 → exec (.clockUnlock p fifo) s = .next s) ∧
    (∀ full, (c.st = .steered ∨ c.st = .wide) → ∃ t, exec (.fifoSlip p full) s = .next t ∧
      t.clk (audKey p) = { c with slips := min 0xFFFFFFFF (c.slips + 1), fifo := if full then 63 else 1 } ∧
      ∀ n, p = .sap n → (t.rd (R.SAP_SLIP_CNT n)).toNat = min 0xFFFFFFFF ((s.rd (R.SAP_SLIP_CNT n)).toNat + 1) ∧ t.get (R.SAP_HIST n) F.SAP_HIST_FIFO_SLIP = 1) ∧
    (c.st ≠ .lost → c.st ≠ .master → ∃ t, exec (.audioClockLost p) s = .next t ∧
      t.clk (audKey p) = { c with st := .lost, rampIn := none, rampOut := some 0 } ∧
      (∀ n, p = .sap n → t.get (R.SAP_HIST n) F.SAP_HIST_CLOCK_LOST = 1) ∧ (∀ n, p = .aesi n → t.get (R.AESI_HIST n) F.AESI_HIST_CLOCK_LOST = 1))

/-- Serial and AES3 ports (from R210 to R214, R218): new slot masks apply and set MASK_APPLIED; a frame error on an enabled port sets FRAME_ERR; a
channel-status block with a bad CRC keeps the previous bytes, a good one replaces them and reports a change of NONAUDIO; a parity error holds the
subframe's sample and counts; an AES3 output runs from a synthesizer that may clock it, and is refused with CFG_ERR on any other. Clauses on points
the specification leaves open follow the model's own reading (log entries 19, 43). Each of these commands is shown to complete, under conditions on
the state and its operands alone: sapMaskApply, sapFrameErr, aesCsBlock, aesParityError, aesoEnWrite. -/
def Obligations.AudioPorts : Prop :=
  (∀ (s : State) (n : Fin 16), (s.rd (R.SAP_RX_MASK n) ≠ s.rxMask n ∨ s.rd (R.SAP_TX_MASK n) ≠ s.txMask n) → ∃ t, exec (.sapMaskApply n) s = .next t ∧
    t.rxMask n = s.rd (R.SAP_RX_MASK n) ∧ t.txMask n = s.rd (R.SAP_TX_MASK n) ∧ t.get (R.SAP_HIST n) F.SAP_HIST_MASK_APPLIED = 1 ∧
    ∀ a, a ≠ R.SAP_HIST n → t.rd a = s.rd a) ∧
  (∀ (s : State) (n : Fin 16), s.flag (R.SAP_CTL n) F.SAP_CTL_EN = true →
    exec (.sapFrameErr n) s = .next (s.raise (Hist.sap n) F.SAP_HIST_FRAME_ERR)) ∧
  (∀ (s : State) (n : Fin 16) (bytes : List Nat), s.flag (R.AESI_CTL n) F.AESI_CTL_EN = true → (s.clk (16 + n)).st ≠ .lost →
    ((bytes.length ≠ 24 ∨ aesCrc (bytes.take 23) ≠ (bytes[23]?).getD 0) →
      exec (.aesCsBlock n bytes) s = .next (s.raise (Hist.aesi n) F.AESI_HIST_CS_CRC_ERR)) ∧
    (bytes.length = 24 → aesCrc (bytes.take 23) = (bytes[23]?).getD 0 → ∃ t, exec (.aesCsBlock n bytes) s = .next t ∧
      (∀ w < 6, t.rd (R.AESI_CS n w) = BitVec.ofNat 32 (unle (((bytes.drop (4 * w)).take 4).map (BitVec.ofNat 8)))) ∧
      t.get (R.AESI_STAT n) F.AESI_STAT_NONAUDIO = (bytes.head?.getD 0) / 2 % 2 ∧
      (s.get (R.AESI_STAT n) F.AESI_STAT_NONAUDIO ≠ (bytes.head?.getD 0) / 2 % 2 → t.get (R.AESI_HIST n) F.AESI_HIST_NONAUDIO_CHANGE = 1))) ∧
  (∀ (s : State) (n : Fin 16) (b : Bool) (k : Nat), s.flag (R.AESI_CTL n) F.AESI_CTL_EN = true → ∃ t, exec (.aesParityError n b k) s = .next t ∧
    t.aud.hold = (audEp 4 n (if b then 1 else 0), k) :: s.aud.hold ∧
    (t.rd (R.AESI_PARITY_CNT n)).toNat = min 0xFFFFFFFF ((s.rd (R.AESI_PARITY_CNT n)).toNat + 1) ∧ t.get (R.AESI_HIST n) F.AESI_HIST_PARITY_ERR = 1) ∧
  (∀ (s : State) (n : Fin 16) (v : Nat), s.upFor (R.AESO_CTL n) →
    (v % 2 = 0 → ∃ t, exec (.aesoEnWrite n v) s = .next t ∧ t.get (R.AESO_STAT n) F.AESO_STAT_ACTIVE = 0 ∧ s.onlyRegs t [R.AESO_CTL n, R.AESO_STAT n]) ∧
    (v % 2 = 1 → s.synForAudio (n / 4 * 4 + v / 4 % 4) = false → ∃ t, exec (.aesoEnWrite n v) s = .next t ∧
      t.get (R.AESO_STAT n) F.AESO_STAT_ACTIVE = 0 ∧ t.get (R.SYN_TS_HIST (n / 4 * 4 + v / 4 % 4)) F.SYN_TS_HIST_CFG_ERR = 1) ∧
    (v % 2 = 1 → s.synForAudio (n / 4 * 4 + v / 4 % 4) = true → ∃ t, exec (.aesoEnWrite n v) s = .next t ∧
      t.flag (R.AESO_STAT n) F.AESO_STAT_ACTIVE = (s.synState (n / 4 * 4 + v / 4 % 4) == 3) ∧
      s.onlyRegs t [R.AESO_CTL n, R.AESO_STAT n, R.AESO_DIV_INT n, R.AESO_DIV_FRAC n]))

/-! ### References (07_references_and_genlock.md) -/

/-- Reference inputs (from R220 to R225, R229, R230, Table 7-3): enabling an input that is OFF makes it LOST, and disabling one makes it OFF; another
source restarts it; an input with activity qualifies and has qualified after QUAL_TIME within QUAL_PPM, going to WTR after a failure and to AVAILABLE
otherwise; REF_IN_FREQ and REF_IN_PHASE take what is measured; the wait to restore makes it AVAILABLE; a loss sends it to LOST, a frequency beyond
QUAL_PPM for 100 ms back to QUALIFYING, and any break restarts its count; QUAL values are clamped; a change of priority, of REVERT or of force is a
decision of the selector, which in forced mode makes none of its own. Clauses on points the specification leaves open follow the model's own reading
(log entries 40, 41, 171, 196). Each of these commands is shown to complete, under conditions on the state and its operands alone: refInEnWrite,
refInSrcWrite, refActivity, refQualified, wtrExpired, refDeclaredLost, refDisqualified, refQualWrite, refPrioWrite, refForceWrite. -/
def Obligations.ReferenceInputs : Prop :=
  ∀ (s : State) (i : Fin 8) (t : Nat),
    (s.upFor (R.REF_IN_CFG i) → s.inSt i = 0 → ∃ u, exec (.refInEnWrite i true t) s = .next u ∧ u.inSt i = 1 ∧ u.flag (R.REF_IN_CFG i) F.REF_IN_CFG_EN = true ∧
      s.onlyRegs u [R.REF_IN_CFG i, R.REF_IN_STAT i]) ∧
    (s.upFor (R.REF_IN_CFG i) → s.inSt i ≠ 0 → ∃ u, exec (.refInEnWrite i true t) s = .next u ∧ u.flag (R.REF_IN_CFG i) F.REF_IN_CFG_EN = true ∧ s.onlyRegs u [R.REF_IN_CFG i]) ∧
    (s.upFor (R.REF_IN_CFG i) → s.inSt i = 0 → ∃ u, exec (.refInEnWrite i false t) s = .next u ∧ u.flag (R.REF_IN_CFG i) F.REF_IN_CFG_EN = false ∧ s.onlyRegs u [R.REF_IN_CFG i]) ∧
    (s.upFor (R.REF_IN_CFG i) → s.inSt i ≠ 0 → exec (.refInEnWrite i false t) s = .next ((((s.at_ t).setB (R.REF_IN_CFG i) F.REF_IN_CFG_EN false).leaveIn i 0).clearIn i)) ∧
    (∀ src dom term, s.upFor (R.REF_IN_CFG i) → s.inSt i = 0 → ∃ u, exec (.refInSrcWrite i src dom term t) s = .next u ∧ u.get (R.REF_IN_CFG i) F.REF_IN_CFG_SRC = src % 128 ∧
      u.get (R.REF_IN_CFG i) F.REF_IN_CFG_PTP_DOMAIN = dom % 128 ∧ u.flag (R.REF_IN_CFG i) F.REF_IN_CFG_TERM = term ∧ (u.refIn i).failed = false ∧
      ∀ a, a ≠ R.REF_IN_CFG i → u.rd a = s.rd a) ∧
    (∀ src dom term w, s.upFor (R.REF_IN_CFG i) → s.inSt i ≠ 0 → w = (((((((s.at_ t).set (R.REF_IN_CFG i) F.REF_IN_CFG_SRC src).set (R.REF_IN_CFG i) F.REF_IN_CFG_PTP_DOMAIN dom).setB
      (R.REF_IN_CFG i) F.REF_IN_CFG_TERM term).leaveIn i 1).clearIn i).raise (Hist.refIn i) F.REF_IN_HIST_LOST) →
      exec (.refInSrcWrite i src dom term t) s = .next (w.setRefIn i { w.refIn i with failed := false, sec := none })) ∧
    (∀ fmt m, s.inSt i = 1 → s.actOk i fmt = true → ∃ u, exec (.refActivity i fmt m t) s = .next u ∧ u.inSt i = 2 ∧ (u.refIn i).since = t ∧
      u.rd (R.REF_IN_FREQ i) = BitVec.ofInt 32 (s.freqOf m) ∧ (i.val < 2 → u.get (R.REF_IN_STAT i) F.REF_IN_STAT_FORMAT = fmt) ∧
      ∀ a, a ∉ [R.REF_IN_STAT i, R.REF_IN_FREQ i, R.REF_IN_PHASE i] → u.rd a = s.rd a) ∧
    (∀ m sec w, s.inSt i = 2 → (s.freqOf m).natAbs ≤ s.qualPpm → (s.refIn i).since + s.qualTime ≤ t →
      w = (match sec with
        | some (x : Nat) => if i.val = 4 ∨ i.val = 5 then ((s.at_ t).measure i m).setRefIn i
            { ((s.at_ t).measure i m).refIn i with sec := some ((x : Int) - (t / ticksPerSec : Nat)) } else (s.at_ t).measure i m
        | none => (s.at_ t).measure i m) →
      exec (.refQualified i m sec t) s = .next (w.qualify i)) ∧
    (∀ w : State, w.qualify i =
      (if (w.refIn i).failed = true ∧ w.get R.REF_WTR F.REF_WTR_WTR ≠ 0 ∧ (w.selSt = 3 → w.flag R.REF_CTL F.REF_CTL_HOLD_SKIP_WTR = false)
        then ((w.setIn i 3).set (R.REF_IN_STAT i) F.REF_IN_STAT_WTR_LEFT (w.get R.REF_WTR F.REF_WTR_WTR)).setRefIn i { w.refIn i with since := w.now }
        else w.makeAvail i).secCheck) ∧
    (∀ (m : RefMeas) (u : State), (i.val = 4 ∨ i.val = 5) → u = s.measure i m →
      (u.refIn i).sec = m.obs.map (fun x => roundDiv x 1000000000) ∧ (u.refIn i).sync = m.sync) ∧
    (∀ (m : RefMeas) (p : Int), s.phaseOf i m = some p → ∀ u, u = s.measure i m → u.rd (R.REF_IN_PHASE i) = BitVec.ofInt 32 (sat32 p) ∧
      u.rd (R.REF_IN_FREQ i) = BitVec.ofInt 32 (s.freqOf m) ∧ s.onlyRegs { u with ref := s.ref } [R.REF_IN_FREQ i, R.REF_IN_PHASE i] ∧
      (i.val ≠ 4 → i.val ≠ 5 → u.ref = s.ref)) ∧
    (∀ m : RefMeas, s.phaseOf i m = none → (s.measure i m).rd (R.REF_IN_PHASE i) = 0x80000000) ∧
    (∀ m : RefMeas, i.val = 2 → s.phaseOf i m = none) ∧
    (s.inSt i = 3 → s.suspect i = false → (s.at_ t).wtrLeft i = 0 → exec (.wtrExpired i t) s = .next ((s.at_ t).makeAvail i).secCheck) ∧
    (2 ≤ s.inSt i → exec (.refDeclaredLost i t) s = .next ((((s.at_ t).leaveIn i 1).clearIn i).raise (Hist.refIn i) F.REF_IN_HIST_LOST)) ∧
    (∀ m, s.qualPpm < (s.freqOf m).natAbs → 3 ≤ s.inSt i → ∃ u, exec (.refDisqualified i m .steady t) s = .next u ∧
      u = ((((s.at_ t).measure i m).leaveIn i 2).raise (Hist.refIn i) F.REF_IN_HIST_DISQ) ∧ u.get (R.REF_IN_HIST i) F.REF_IN_HIST_DISQ = 1) ∧
    (∀ m brk, (brk = .phase ∧ i.val ≠ 2 ∨ brk ≠ .phase ∧ s.qualPpm < (s.freqOf m).natAbs) → (s.inSt i = 2 ∨ (s.inSt i = 3 ∧ brk ≠ .steady)) →
      exec (.refDisqualified i m brk t) s = .next (((s.at_ t).measure i m).restart i)) ∧
    (∀ m brk, (brk = .phase ∧ i.val ≠ 2 ∨ brk = .freq ∧ s.qualPpm < (s.freqOf m).natAbs) → 4 ≤ s.inSt i →
      exec (.refDisqualified i m brk t) s = .next ((s.at_ t).measure i m)) ∧
    (∀ ppm time u, s.upFor R.REF_QUAL → u = ((s.at_ t).set R.REF_QUAL F.REF_QUAL_QUAL_PPM (max 1 (min 100 (ppm % 256)))).set R.REF_QUAL F.REF_QUAL_QUAL_TIME (max 1 (min 6000 (time % 65536))) →
      u.get R.REF_QUAL F.REF_QUAL_QUAL_PPM = max 1 (min 100 (ppm % 256)) ∧ u.get R.REF_QUAL F.REF_QUAL_QUAL_TIME = max 1 (min 6000 (time % 65536)) ∧
      exec (.refQualWrite ppm time t) s = .next ((List.range 8).foldl State.requalify u)) ∧
    (∀ w : State, (w.inSt i = 2 ∨ w.inSt i = 3) → w.qualPpm < (w.rdInt (R.REF_IN_FREQ i)).natAbs → w.requalify i = w.restart i) ∧
    (∀ w : State, w.inSt i = 2 → (w.rdInt (R.REF_IN_FREQ i)).natAbs ≤ w.qualPpm → (w.refIn i).since + w.qualTime ≤ w.now → w.requalify i = w.qualify i) ∧
    (∀ prio revert w, s.upFor (R.REF_IN_CFG i) → w = ((s.at_ t).set (R.REF_IN_CFG i) F.REF_IN_CFG_PRIO (min 8 (prio % 16))).setB (R.REF_IN_CFG i)
      F.REF_IN_CFG_REVERT revert → exec (.refPrioWrite i prio revert t) s = .next (w.prioDecide s.revertive).secCheck) ∧
    (∀ (w : State) (old : List Nat), (w.forced = true → w.prioDecide old = w) ∧
      ((∀ k ∈ w.revertive, k ∈ old) → w.prioDecide old = w.reselect) ∧
      (w.forced = false → w.lifecycle ≠ 4 → w.selected ≠ 15 → w.reselect.pendingSw = false → (∃ k ∈ w.revertive, k ∉ old) →
        ∃ k, k ∈ w.revertive ∧ (∀ j ∈ w.revertive, w.prio k ≤ w.prio j) ∧ w.prioDecide old = w.swDecide k false)) ∧
    (∀ w : State, w.forced = true → w.reselect = w) ∧
    (∀ mode f w, s.upFor R.REF_CTL → w = ((s.at_ t).setB R.REF_CTL F.REF_CTL_MODE mode).set R.REF_CTL F.REF_CTL_FORCE_IN f →
      exec (.refForceWrite mode f t) s = .next (if mode then w.forceDecide else w.undecide.reselect)) ∧
    (∀ w : State, w.lifecycle ≠ 4 →
      (w.forceIn < 8 → w.selected = w.forceIn → w.forceDecide = w.undecide) ∧
      ((w.forceIn < 8 → w.selected ≠ w.forceIn) → w.pendingSw = true → w.swTarget = w.forceIn → w.forceDecide = w) ∧
      ((w.forceIn < 8 → w.selected ≠ w.forceIn) → (w.pendingSw = true → w.swTarget ≠ w.forceIn) → w.forceDecide = w.swDecide w.forceIn false))

/-- The selector, the loop and holdover (from R222, R226 to R234): a suspect input is marked, and a better one is decided for when it is the selected
one; when it clears, a switch still pending to one that does not rank above it is cancelled; a pending switch executes at its boundary B, or in forced
mode at a boundary from B on; the step of a switch to REF10M is 0, and that to PPS_IN lies within half a second; the loop locks into TRACK and falls
back to ACQUIRE; in HOLDOVER the rate and the error estimate follow their formulas, and crossing REF_HOLD_LIMIT sets HOLD_LIMIT; a day in TRACK adds
one daily value and fits the ageing rate. Clauses on points the specification leaves open follow the model's own reading (log entries 40, 41, 196,
197, 198). That an event whose condition does not hold changes nothing is the model's choice (log entry 146). Each of these commands is shown to
complete, under conditions on the state and its operands alone: refSuspect, refSuspectClear, refSwitchExecute, loopLock, loopUnlock, trackBwApply,
holdoverUpdate, ageingDaily. -/
def Obligations.ReferenceSelector : Prop :=
  (∀ (s : State) (i : Fin 8) (rate temp : Int) (t : Nat), 2 ≤ s.inSt i → s.suspect i = false → s.selected ≠ i.val →
    ∃ u, exec (.refSuspect i rate temp t) s = .next u ∧ u.suspect i = true ∧ s.onlyRegs u [R.REF_IN_STAT i]) ∧
  (∀ (s w : State) (i : Fin 8) (rate temp r : Int) (t : Nat), 2 ≤ s.inSt i → s.suspect i = false → s.selected = i.val →
    r = (if (s.at_ t).trkTime = 0 then s.rdInt R.REF_XO_CAL else rate) →
    w = ((((s.at_ t).set (R.REF_IN_STAT i) F.REF_IN_STAT_SUSPECT 1).set (R.REF_IN_STAT i) F.REF_IN_STAT_WTR_LEFT ((s.at_ t).wtrLeft i)).holdFrom r temp).calibrate r →
    (s.forced = true → exec (.refSuspect i rate temp t) s = .next w) ∧
    (s.forced = false → ∀ b, w.bestIn = some b → exec (.refSuspect i rate temp t) s = .next (w.swDecide b true)) ∧
    (s.forced = false → w.bestIn = none → exec (.refSuspect i rate temp t) s = .next w)) ∧
  (∀ (s : State) (i : Fin 8) (t : Nat), s.suspect i = true → s.selected ≠ i.val →
    ∃ u, exec (.refSuspectClear i t) s = .next u ∧ u.suspect i = false ∧ ∀ a, a ≠ R.REF_IN_STAT i → u.rd a = s.rd a) ∧
  (∀ (s : State) (i : Fin 8) (t : Nat), s.suspect i = true → s.selected = i.val → s.inSt i = 5 → s.pendingSw = true → s.forced = false → s.ranksAbove s.swTarget i = false →
    ∃ u, exec (.refSuspectClear i t) s = .next u ∧ u.suspect i = false ∧ u.pendingSw = false ∧ u.ref.bAt = none ∧ u.ref.frozen = false ∧ u.selected = s.selected ∧
      u.get R.REF_HIST F.REF_HIST_CANCEL = 1) ∧
  (∀ (s : State) (m : RefMeas) (t : Nat), s.pendingSw = true → s.forced = false → s.ref.bAt = some t → s.swTarget < 8 → s.inSt s.swTarget = 4 → s.prio s.swTarget ≠ 0 →
    exec (.refSwitchExecute m t) s = .next ((s.at_ t).doSwitch s.swTarget m).acquirePromote) ∧
  (∀ (s : State) (m : RefMeas) (t b : Nat), s.pendingSw = true → s.forced = true → s.ref.bAt = some b → b ≤ t → firstAt 0 (rateD s.leapRate) t = t → s.swTarget < 8 →
    (s.inSt s.swTarget = 4 ∨ s.inSt s.swTarget = 3) →
    exec (.refSwitchExecute m t) s = .next ((s.at_ t).doSwitch s.swTarget m).acquirePromote) ∧
  (∀ (s : State) (p : Option Int), s.switchStep 2 p = 0) ∧
  (∀ (s : State) (p : Int), (-500000000 ≤ s.switchStep 3 (some p) ∧ s.switchStep 3 (some p) < 500000000) ∧ (s.switchStep 3 (some p) - p) % 1000000000 = 0) ∧
  (∀ (s : State) (p : Int), s.switchStep 4 (some p) = p ∧ s.switchStep 5 (some p) = p) ∧
  (∀ (s : State) (t : Nat), s.selSt = 1 → s.selected ≠ 15 → ∃ u, exec (.loopLock t) s = .next u ∧ u.selSt = 2 ∧ u.get R.REF_HIST F.REF_HIST_LOCK = 1 ∧
    u.ref.trkAt = some t ∧ s.onlyRegs { u with ref := s.ref } [R.REF_STAT, R.REF_HIST]) ∧
  (∀ (s : State) (cal : Int) (t : Nat), s.selSt = 2 → s.suspect s.selected = false → ∃ u, exec (.loopUnlock cal t) s = .next u ∧ u.selSt = 1 ∧
    u.rd R.REF_XO_CAL = BitVec.ofInt 32 cal ∧ u.ref.trkAt = none ∧ u.ref.bw ≤ 100000) ∧
  (∀ (s : State) (t : Nat), firstAt 0 (rateD s.leapRate) t ≠ t → exec (.trackBwApply t) s = .next (s.at_ t)) ∧
  (∀ (s : State) (t n : Nat), s.selSt = 2 → firstAt 0 (rateD s.leapRate) t = t → n = max 1 (min 10000 (s.get R.REF_LOOP F.REF_LOOP_TRACK_BW)) →
    exec (.trackBwApply t) s = .next { s.at_ t with ref := { s.ref with track := n, bw := min s.bwCap n } }) ∧
  (∀ (s w : State) (temp : Int) (t : Nat), s.selSt = 3 → w = (s.at_ t).senseTemp temp → ∃ u, exec (.holdoverUpdate temp t) s = .next u ∧
    u.rd R.REF_RATE = BitVec.ofInt 32 (w.holdRate w.holdTemp) ∧ (u.rd R.REF_HOLD_EST).toNat = w.holdBound ∧
    u.get R.REF_TEMP F.REF_TEMP_TEMP = (w.holdTemp % 65536).toNat ∧
    u.ref = { s.ref with limHit := w.pastLimit } ∧ (s.ref.limHit = false → w.pastLimit = true → u.get R.REF_HIST F.REF_HIST_HOLD_LIMIT = 1) ∧
    w.onlyRegs { u with ref := w.ref } [R.REF_TEMP, R.REF_RATE, R.REF_HOLD_EST, R.REF_HIST]) ∧
  (∀ (s : State) (temp : Int) (t : Nat), s.selSt ≠ 3 → exec (.holdoverUpdate temp t) s = .next ((s.at_ t).senseTemp temp)) ∧
  (∀ (s : State) (rate temp cal : Int) (stored : Bool) (t n : Nat) (l : List (Nat × Int)), s.selSt = 2 → n = max 7 (min 365 (s.get R.REF_AGE_DAYS F.REF_AGE_DAYS_AGE_DAYS)) →
    s.ref.daily.length < n → l = s.ref.daily ++ [(t, rate + roundDiv (s.xoTemp temp) 100000)] →
    exec (.ageingDaily rate temp cal stored t) s = .next ((((((({ s.at_ t with ref := { s.ref with daily := l, newDays := min l.length (s.ref.newDays + 1) } } : State).wrInt R.REF_XO_CAL cal).wrInt R.REF_AGE_LEARNED (ageFit l)).set
      R.REF_AGE_DAYS F.REF_AGE_DAYS_HELD l.length).dirty 14).storeRec 14 stored stored)))

/-- The time of day and the frame pulses (from R236, R237): the seconds written wait for the next second unless a PTP input is qualified; they are
applied on the second, and the first time TIME_VALID and TIME_SET set; an enabled pulse output pulses on its grid, with the width and polarity set
then, and omits a pulse that would follow the last too closely; disabled, and in END, its ball holds the inactive level. That an event whose condition
does not hold changes nothing is the model's choice (log entry 146). Each of these commands is shown to complete, under conditions on the state and
its operands alone: todWrite, todApply, fpPulse. -/
def Obligations.TimeOfDayAndPulses : Prop :=
  (∀ (s : State) (hi t : Nat), s.upFor R.REF_TOD_SEC_HI → s.ptpQualified = false → ∃ u, exec (.todWrite hi t) s = .next u ∧
    u.ref.todPend = some ((s.rd R.REF_TOD_SEC_LO).toNat + hi % 65536 * 2 ^ 32) ∧ ∀ a, a ≠ R.REF_TOD_SEC_HI → u.rd a = s.rd a) ∧
  (∀ (s : State) (hi t : Nat), s.upFor R.REF_TOD_SEC_HI → s.ptpQualified = true → exec (.todWrite hi t) s = .next (s.at_ t)) ∧
  (∀ (s : State) (t v : Nat), s.ref.todPend = some v → t % ticksPerSec = 0 → s.ptpQualified = false → s.timeValid = false →
    ∃ u, exec (.todApply t) s = .next u ∧ u.timeValid = true ∧ u.get R.REF_HIST F.REF_HIST_TIME_SET = 1 ∧ u.now = v * ticksPerSec ∧ u.ref.todPend = none) ∧
  (∀ (s : State) (t v : Nat), s.ref.todPend = some v → t % ticksPerSec = 0 → s.ptpQualified = true →
    exec (.todApply t) s = .next { s.at_ t with ref := { s.ref with todPend := none } }) ∧
  (∀ (s : State) (t v : Nat), s.ref.todPend = some v → t % ticksPerSec = 0 → s.ptpQualified = false → s.timeValid = true →
    exec (.todApply t) s = .next (({ s.at_ t with ref := { s.ref with todPend := none } } : State).applySec ((v : Int) - (t / ticksPerSec : Nat)))) ∧
  (∀ (s : State) (t v : Nat), s.ref.todPend = some v → t % ticksPerSec ≠ 0 → exec (.todApply t) s = .next (s.at_ t)) ∧
  (∀ (s : State) (k : Fin 8) (t : Nat), s.lifecycle ≠ 4 → s.flag (R.REF_FP_CFG k) F.REF_FP_CFG_EN = true →
    ((t : Int) - s.fpOfs k) % (rateD (s.get (R.REF_FP_CFG k) F.REF_FP_CFG_RATE) : Int) = 0 →
    ((∀ p, tabFind s.ref.fpLast k = some p → p.at_ + p.width + s.fpWidth k ≤ t) →
      ∃ u, exec (.fpPulse k t) s = .next u ∧ tabFind u.ref.fpLast k = some ⟨t, s.fpWidth k, s.flag (R.REF_FP_CFG k) F.REF_FP_CFG_POL⟩ ∧
        tabGet 0 u.ref.fpCount k = tabGet 0 s.ref.fpCount k + 1 ∧ u.regs = s.regs ∧
        u.fpBall k = !(s.flag (R.REF_FP_CFG k) F.REF_FP_CFG_POL)) ∧
    (∀ p, tabFind s.ref.fpLast k = some p → t < p.at_ + p.width + s.fpWidth k → exec (.fpPulse k t) s = .next (s.at_ t))) ∧
  (∀ (s : State) (k : Fin 8) (t : Nat), (s.lifecycle = 4 ∨ s.flag (R.REF_FP_CFG k) F.REF_FP_CFG_EN = false) →
    exec (.fpPulse k t) s = .next (s.at_ t)) ∧
  (∀ (s : State) (k : Fin 8), (s.lifecycle = 4 ∨ (s.flag (R.REF_FP_CFG k) F.REF_FP_CFG_EN = false ∧
    ∀ p, tabFind s.ref.fpLast k = some p → p.at_ + p.width ≤ s.now)) → s.fpBall k = s.flag (R.REF_FP_CFG k) F.REF_FP_CFG_POL)

/-! ### Timing synthesizers (08_timing_synthesizers.md) -/

/-- Locking (from R243 to R248, Tables 8-2 and 8-3): a new family or MULT, or EN 0, under users, and ABSORB under audio masters, is kept unused and
sets CFG_ERR; without users EN 0 makes it OFF; a synthesizer enabled from OFF starts toward lock, by a hop when band memory holds a usable entry and
by a search when it holds none; a hop or search that locks runs the output, a search storing its codes and, when it was a preload, going on to its own
family; a search that does not lock is an error; four failing edges, none of them in the 4 after a passed step, or a lost reference gate the output
with LOCK_LOST or REF_LOST, and the relock starts again toward lock and is counted; a retune leaves an OFF or GATED one so; BAND_STORE keeps the codes
in a valid band entry. Clauses on a point the specification leaves open follow the model's own reading (log entry 191). That an event whose condition
does not hold changes nothing is the model's choice (log entry 146). Each of these commands is shown to complete, under conditions on the state and
its operands alone: synCtlWrite, synLock, synSearchTimeout, synLockLoss, synRelockStart, synRefLoss, synRefReturn, bandStore. -/
def Obligations.SynthesizerLock : Prop :=
  ∀ (s : State) (n : Fin 16) (t : Nat),
    (∀ v w, s.upFor (R.SYN_TS_CTL n) → w = (((((s.at_ t).set (R.SYN_TS_CTL n) F.SYN_TS_CTL_MULT (v / 256)).set (R.SYN_TS_CTL n) F.SYN_TS_CTL_FAMILY (v / 16)).set (R.SYN_TS_CTL n)
        F.SYN_TS_CTL_PRELOAD (v / 8)).set (R.SYN_TS_CTL n) F.SYN_TS_CTL_ABSORB (v / 4)).set (R.SYN_TS_CTL n) F.SYN_TS_CTL_EN v → w.inReset 6 n = false →
      (w.synUsers n ≠ 0 → (famCode (v / 16 % 4) ≠ w.synFam n ∨ multCode (v / 256 % 16) ≠ w.synMult n) →
        exec (.synCtlWrite n v t) s = .next (w.raise (Hist.syn n) F.SYN_TS_HIST_CFG_ERR)) ∧
      (v % 2 = 1 → v / 4 % 2 = 0 → w.synUsers n = 0 → w.synState n = 0 →
        ∃ u, exec (.synCtlWrite n v t) s = .next u ∧ (u.synState n = 1 ∨ u.synState n = 2)) ∧
      (w.synUsers n ≠ 0 → v % 2 = 0 → w.synState n ≠ 0 → exec (.synCtlWrite n v t) s = .next (w.raise (Hist.syn n) F.SYN_TS_HIST_CFG_ERR)) ∧
      (v / 4 % 2 = 1 → w.synAudio n ≠ 0 → exec (.synCtlWrite n v t) s = .next (w.raise (Hist.syn n) F.SYN_TS_HIST_CFG_ERR)) ∧
      (v % 2 = 0 → v / 4 % 2 = 0 → w.synUsers n = 0 → ∃ u, exec (.synCtlWrite n v t) s = .next u ∧ u.synState n = 0 ∧ u.synFam n = famCode (v / 16 % 4) ∧
        u.synMult n = multCode (v / 256 % 16))) ∧
    (∀ v w, s.upFor (R.SYN_TS_CTL n) → w = (((((s.at_ t).set (R.SYN_TS_CTL n) F.SYN_TS_CTL_MULT (v / 256)).set (R.SYN_TS_CTL n) F.SYN_TS_CTL_FAMILY (v / 16)).set (R.SYN_TS_CTL n)
        F.SYN_TS_CTL_PRELOAD (v / 8)).set (R.SYN_TS_CTL n) F.SYN_TS_CTL_ABSORB (v / 4)).set (R.SYN_TS_CTL n) F.SYN_TS_CTL_EN v → w.inReset 6 n = true →
      exec (.synCtlWrite n v t) s = .next w) ∧
    (∀ (w : State) e, w.bandUsable n (w.synFam n) (w.synMult n) = some e → (w.synSeek n).synState n = 2 ∧ (w.synSeek n).get (R.SYN_TS_STAT n) F.SYN_TS_STAT_ENTRY = e % 16) ∧
    (∀ w : State, w.bandUsable n (w.synFam n) (w.synMult n) = none → (w.synSeek n).synState n = 1) ∧
    (∀ coarse fine clamp w, w = (if clamp = true ∨ s.clampHolds n coarse fine = true then (s.at_ t).raise (Hist.syn n) F.SYN_TS_HIST_FMAX_CLAMP
        else s.at_ t) →
      (∀ b, s.synState n = 2 → b = R.SYN_TS_BAND n (s.get (R.SYN_TS_STAT n) F.SYN_TS_STAT_ENTRY) →
        exec (.synLock n coarse fine clamp t) s = .next (w.synLocked n (s.get b F.SYN_TS_BAND_COARSE) (s.get b F.SYN_TS_BAND_FINE))) ∧
      (s.synState n = 1 → (s.syn_ n).preload = false →
        exec (.synLock n coarse fine clamp t) s = .next ((w.bandPut n (s.synFam n) (s.synMult n) coarse fine).synLocked n coarse fine)) ∧
      (s.synState n = 1 → (s.syn_ n).preload = true → ∀ x, x = w.bandPut n (1 - s.synFam n) (s.synMult n) coarse fine →
        exec (.synLock n coarse fine clamp t) s = .next (x.setSyn n { x.syn_ n with preload := false }))) ∧
    (∀ (w : State) (c f : Nat), (w.synLocked n c f).synState n = 3 ∧ ((w.synLocked n c f).syn_ n).fromGate = false ∧
      ((w.synLocked n c f).rd (R.SYN_TS_RELOCK_CNT n)).toNat = (if (w.syn_ n).fromGate = true then min 0xFFFFFFFF ((w.rd (R.SYN_TS_RELOCK_CNT n)).toNat + 1)
        else (w.rd (R.SYN_TS_RELOCK_CNT n)).toNat)) ∧
    (∀ (w : State) (fam : Nat), (w.synState n = 0 → (w.synRetune n fam).synState n = 0) ∧ (w.synState n = 4 → (w.synRetune n fam).synState n = 4) ∧
      ((w.synState n = 1 ∨ w.synState n = 2 ∨ w.synState n = 3) → (w.synRetune n fam).synState n = 1 ∨ (w.synRetune n fam).synState n = 2)) ∧
    (s.synState n = 1 → exec (.synSearchTimeout n t) s = .next ((s.at_ t).reportError (0xA0000 + n.val) 0x09)) ∧
    (∀ errs, s.synState n = 3 → (s.at_ t).lockFails n errs = true → ∃ u, exec (.synLockLoss n errs t) s = .next u ∧
      u = ((s.at_ t).synGate n 1).raise (Hist.syn n) F.SYN_TS_HIST_LOCK_LOST ∧ u.synState n = 4 ∧ u.get (R.SYN_TS_HIST n) F.SYN_TS_HIST_LOCK_LOST = 1) ∧
    (∀ errs, (s.synState n ≠ 3 ∨ (s.at_ t).lockFails n errs = false) → exec (.synLockLoss n errs t) s = .next (s.at_ t)) ∧
    (∀ errs cyc per, cyc = (if s.synFam n = 1 then 1001 else 1000) → per = 16 * cyc * 2 ^ s.synMult n →
      ((errs.length ≠ 4 ∨ (∃ e ∈ errs, 4 * e.natAbs ≤ (if s.flag (R.SYN_TS_STAT n) F.SYN_TS_STAT_DLL then 16 * cyc else cyc)) ∨
        (∃ b, (s.syn_ n).passed = some b ∧ s.now ≤ b + 7 * per)) → s.lockFails n errs = false) ∧
      (errs.length = 4 → (∀ e ∈ errs, (if s.flag (R.SYN_TS_STAT n) F.SYN_TS_STAT_DLL then 16 * cyc else cyc) < 4 * e.natAbs) → (s.syn_ n).passed = none →
        s.lockFails n errs = true)) ∧
    (s.synState n = 4 → (s.syn_ n).gatedBy = 1 → ∃ u, exec (.synRelockStart n t) s = .next u ∧ (u.synState n = 1 ∨ u.synState n = 2)) ∧
    ((s.synState n = 1 ∨ s.synState n = 2 ∨ s.synState n = 3) → ∃ u, exec (.synRefLoss n t) s = .next u ∧
      u = ((s.at_ t).synGate n 2).raise (Hist.syn n) F.SYN_TS_HIST_REF_LOST ∧ u.synState n = 4 ∧ u.get (R.SYN_TS_HIST n) F.SYN_TS_HIST_REF_LOST = 1) ∧
    (s.synState n = 4 → (s.syn_ n).gatedBy = 2 → ∃ u, exec (.synRefReturn n t) s = .next u ∧ (u.synState n = 1 ∨ u.synState n = 2)) ∧
    (∀ coarse fine, s.synState n = 3 → ∃ u e, exec (.bandStore n coarse fine) s = .next u ∧ u.get (R.SYN_TS_BAND n e) F.SYN_TS_BAND_VALID = 1 ∧
      u.get (R.SYN_TS_BAND n e) F.SYN_TS_BAND_COARSE = coarse % 2 ^ F.SYN_TS_BAND_COARSE.width ∧
      u.get (R.SYN_TS_BAND n e) F.SYN_TS_BAND_FINE = fine % 2 ^ F.SYN_TS_BAND_FINE.width)

/-- Phase and ramps (from R249, R250, R252): with ABSORB 0 a step is passed at its reference edge, by whole cycles of the counters and one cycle
lengthened; an absorption that is done leaves RESIDUAL 0 and sets RAMP_DONE; a GO is refused while the synthesizer is not LOCKED, under ABSORB, with a
profile running, with audio masters, with a target beyond ±100 ppm or a last target that is not 0, and a refused GO sets RAMP_ERR; an accepted one
starts segment 0; ABORT returns to 0 at the running slope, and where GO is written with it acts first (the model's choice, assumption 161); a segment
that is over starts the next, or ends the profile with RAMP_DONE. Clauses on points the specification leaves open follow the model's own reading (log
entries 27, 161, 192). That an event whose condition does not hold changes nothing is the model's choice (log entry 146). Each of these commands is
shown to complete, under conditions on the state and its operands alone: synStepPass, absorbDone, rampGo, rampAbort, rampSegmentEnd. -/
def Obligations.SynthesizerPhase : Prop :=
  ∀ (s : State) (n : Fin 16) (t : Nat),
    ((s.syn_ n).stepAt = none → exec (.synStepPass n t) s = .next (s.at_ t)) ∧
    (∀ e, (s.syn_ n).stepAt = some e → t < e → exec (.synStepPass n t) s = .next (s.at_ t)) ∧
    (∀ e c, (s.syn_ n).stepAt = some e → e ≤ t → c = (if s.synFam n = 1 then 1001 else 1000) → ∃ u x, exec (.synStepPass n t) s = .next u ∧ u.regs = s.regs ∧
      u.syn_ n = x ∧ x = { s.syn_ n with step := 0, stepAt := none, passed := some e, jump := x.jump, stretch := x.stretch } ∧
      x.jump * (c : Int) - (x.stretch : Int) = (s.syn_ n).step * 2376 ∧ x.stretch < c) ∧
    (∀ v : Word, v.getLsbD 30 = true → v.getLsbD 31 = true → s.wrSyn (R.SYN_TS_RAMP n) v t =
      ((s.plainWrite (R.SYN_TS_RAMP n) v).rampAbort n t).rampGo n (getF F.SYN_TS_RAMP_LAST v) t) ∧
    (∀ (w : State) l, (w.synState n ≠ 3 ∨ (w.syn_ n).absorb = true ∨ w.ramping n = true ∨ w.synAudio n ≠ 0 ∨ (w.segment n l).1 ≠ 0 ∨
      ∃ k, k ≤ l ∧ 100000 < (w.segment n k).1.natAbs) → w.goRefused n l = true) ∧
    (∀ r, r = s.synBase n → (s.at_ t).absorbing n = true → s.absMax n r ≠ 0 →
      absorbLen r (s.syn_ n).absOfs (s.absMax n r) (s.absSlope n) ≤ (t - (s.syn_ n).absAt) / 2376 →
      ∃ u, exec (.absorbDone n t) s = .next u ∧ u.synBase n = 0 ∧ u.get (R.SYN_TS_HIST n) F.SYN_TS_HIST_RAMP_DONE = 1 ∧
        u.syn_ n = { s.syn_ n with absOfs := 0, absAt := t } ∧ ∀ a, a ∉ [R.SYN_TS_RESIDUAL n, R.SYN_TS_HIST n] → u.rd a = s.rd a) ∧
    (∀ last w, s.upFor (R.SYN_TS_RAMP n) → w = (s.at_ t).set (R.SYN_TS_RAMP n) F.SYN_TS_RAMP_LAST (last % 8) →
      (w.goRefused n (last % 8) = true → exec (.rampGo n last t) s = .next (w.raise (Hist.syn n) F.SYN_TS_HIST_RAMP_ERR)) ∧
      (w.goRefused n (last % 8) = false → exec (.rampGo n last t) s = .next (w.startSeg n 0 (w.segment n 0).1 (w.segment n 0).2
        ((List.range (last % 8)).map fun k => w.segment n (k + 1)) (w.synNow n).1 (w.synNow n).2)) ∧
      ((s.syn_ n).absorb = true → w.goRefused n (last % 8) = true)) ∧
    (s.upFor (R.SYN_TS_RAMP n) → (s.syn_ n).seg = none → exec (.rampAbort n t) s = .next (s.at_ t)) ∧
    (s.upFor (R.SYN_TS_RAMP n) → (s.syn_ n).seg.isSome = true → ∃ u, exec (.rampAbort n t) s = .next u ∧ u.regs = s.regs ∧
      u.syn_ n = { s.syn_ n with segAt := t, segOfs := ((s.at_ t).synNow n).2, segRes := ((s.at_ t).synNow n).1, segTgt := 0, todo := [], aborting := true }) ∧
    (∀ k r, (s.syn_ n).seg = some k → segLen (s.syn_ n).segOfs (s.syn_ n).segTgt (s.syn_ n).segSlope ≤ (t - (s.syn_ n).segAt) / 2376 →
      r = (s.syn_ n).segRes - segPhase (s.syn_ n).segOfs (s.syn_ n).segTgt (s.syn_ n).segSlope →
      (∀ b sl l, (s.syn_ n).todo = (b, sl) :: l →
        exec (.rampSegmentEnd n t) s = .next ((s.at_ t).startSeg n (k + 1) b sl l r (s.syn_ n).segTgt)) ∧
      ((s.syn_ n).todo = [] → ∃ u, exec (.rampSegmentEnd n t) s = .next u ∧ (u.syn_ n).seg = none ∧
        u.rd (R.SYN_TS_RESIDUAL n) = BitVec.ofInt 32 r ∧ u.get (R.SYN_TS_HIST n) F.SYN_TS_HIST_RAMP_DONE = 1))

/-! ### Host interface (09_host_rings.md) -/

/-- Host rings (from R260 to R265, Table 9-3): what takes the link away disables every ring, discards the completions, of which those that wait for
the STANDBY keep their entries, and resets the MSI-X table, and PERST_N holds the island's masters and port in reset; EN written 1 starts a disabled
ring with sizes in range, and is refused with CFG_ERR in LV personality or out of range; EN written 0 drains; a drained ring is disabled; a croak sets
the tail, an invalid one stops the ring with CROAK_ERR; a CQ head takes the completions up to it as read, and one beyond what is posted stops the
ring; a descriptor fetched in its ring's turn, of at most 8 while others have work, advances SQ_HEAD, an unknown opcode is refused at byte 0, and a
full completion ring stalls; a completion is written at the CQ tail; an armed ring's timer raises its vector. Clauses on points the specification
leaves open follow the model's own reading (log entries 47, 48, 49, 140, 202, 204). That an event whose condition does not hold changes nothing is the
model's choice (log entry 146). Each of these commands is shown to complete, under conditions on the state and its operands alone: hostLinkReset,
perstAssert, ringEnable, ringDisable, ringAbandon, ringDrained, croak, cqHeadWrite, descriptorFetch, completionPost, coalTimerExpiry. -/
def Obligations.HostRings : Prop :=
  (∀ (s : State) (e : LinkEvent), ∃ t, exec (.hostLinkReset e) s = .next t ∧ (∀ n < 64, t.ringSt n = 0) ∧ t.host.msix = [] ∧
    (∀ c ∈ t.host.cpls, c.ring = noRing ∧ ∃ k, c.await = some k ∧ k ∈ s.mate.await) ∧
    (∀ o ∈ t.host.ops, ∀ k, o.dest ≠ .ring k) ∧ t.host.pci.d3 = (e == .d3hot) ∧ (e ≠ .d3hot → t.hung 6 = false)) ∧
  (∀ s : State, ∃ t, exec .perstAssert s = .next t ∧ (∀ n < 64, t.ringSt n = 0) ∧ (∀ c ∈ t.host.cpls, c.ring = noRing) ∧ t.host.perst = true ∧
    t.host.linkUp = false ∧ t.host.pci.mse = false ∧ 13 ∈ t.mtx.ports ∧ t.masterInReset 5 = true ∧ t.masterInReset 6 = true ∧
    (s.rst.cold = false → t.get (R.HSF_XSTAT 176) F.HSF_XSTAT_STATE = 1)) ∧
  (∀ s : State, s.host.linkUp = true → (s.pciAnswers = true ↔ (s.rst.cold = false ∨ s.flag R.RST_STAT F.RST_STAT_BOOT_FAIL = true))) ∧
  (∀ s : State, s.pciHeader 0 = some 0x72721F2A ∧ s.pciHeader 2 = some 0x048000B0) ∧
  (∀ (s : State) (n : Fin 64), s.hostUp = false → exec (.ringEnable n) s = .next s) ∧
  (∀ (s : State) (n : Fin 64), s.hostUp = true →
    ((s.persona = 1 ∨ s.lifecycle = 4) → exec (.ringEnable n) s = .next (s.raise (Hist.rng n) F.RNG_HIST_CFG_ERR)) ∧
    (s.persona ≠ 1 → s.lifecycle ≠ 4 → s.ringSt n ≠ 0 → exec (.ringEnable n) s = .next (s.set (R.RNG_CTL n) F.RNG_CTL_EN 1)) ∧
    (s.persona ≠ 1 → s.lifecycle ≠ 4 → s.ringSt n = 0 → ∀ a b, a = s.get (R.RNG_SIZE n) F.RNG_SIZE_SQ_LOG2 → b = s.get (R.RNG_SIZE n) F.RNG_SIZE_CQ_LOG2 →
      ((4 ≤ a ∧ a ≤ 16 ∧ 4 ≤ b ∧ b ≤ 16) → exec (.ringEnable n) s = .next ((s.set (R.RNG_CTL n) F.RNG_CTL_EN 1).startRing n)) ∧
      ((4 ≤ a ∧ a ≤ 16 ∧ 4 ≤ b ∧ b ≤ 16) → s.host.dmaOff = false → ∃ t, exec (.ringEnable n) s = .next t ∧ t.ringSt n = 1 ∧ t.flag (R.RNG_CTL n) F.RNG_CTL_EN = true ∧
        t.get (R.RNG_STAT n) F.RNG_STAT_SQ_HEAD = 0 ∧ t.get (R.RNG_CQ_POS n) F.RNG_CQ_POS_PHASE = 1 ∧ t.rst_ n = {} ∧
        ∀ r, r ∉ [R.RNG_CTL n, R.RNG_STAT n, R.RNG_CQ_POS n] → t.rd r = s.rd r) ∧
      (¬ (4 ≤ a ∧ a ≤ 16 ∧ 4 ≤ b ∧ b ≤ 16) → exec (.ringEnable n) s = .next (s.raise (Hist.rng n) F.RNG_HIST_CFG_ERR)))) ∧
  (∀ (s : State) (n : Fin 64), s.upFor (R.RNG_CTL n) → (s.ringSt n = 1 ∨ s.ringSt n = 2) → ∃ t, exec (.ringDisable n) s = .next t ∧ t.ringSt n = 3 ∧
    s.onlyRegs t [R.RNG_CTL n, R.RNG_STAT n]) ∧
  (∀ (s : State) (n : Fin 64), s.upFor (R.RNG_CTL n) → s.ringSt n ≠ 1 → s.ringSt n ≠ 2 → exec (.ringDisable n) s = .next (s.set (R.RNG_CTL n) F.RNG_CTL_EN 0)) ∧
  (∀ (s : State) (n : Fin 64), s.upFor (R.RNG_CTL n) → (2 ≤ s.ringSt n → exec (.ringAbandon n) s = .next (s.abandon n)) ∧
    (s.ringSt n < 2 → exec (.ringAbandon n) s = .next s)) ∧
  (∀ (s : State) (n : Fin 64), s.ringSt n = 3 → s.outstanding n = 0 → ∃ t, exec (.ringDrained n) s = .next t ∧ t.ringSt n = 0 ∧ s.onlyRegs t [R.RNG_STAT n]) ∧
  (∀ (s : State) (n : Fin 64) (v : Nat), s.up → (s.ringSt n ≠ 1 → exec (.croak n v) s = .next (s.raise (Hist.rng n) F.RNG_HIST_CROAK_ERR)) ∧
    (s.ringSt n = 1 → v < s.sqSize n → exec (.croak n v) s = .next (s.setRst n { s.rst_ n with sqTail := v })) ∧
    (s.ringSt n = 1 → s.sqSize n ≤ v → ∃ t, exec (.croak n v) s = .next t ∧ t.ringSt n = 2 ∧ t.get (R.RNG_HIST n) F.RNG_HIST_CROAK_ERR = 1 ∧
      t.get R.RNG_GLB_HIST F.RNG_GLB_HIST_RING_STOPPED = 1)) ∧
  (∀ (s : State) (n : Fin 64) (v adv used : Nat), s.up → adv = (v + s.cqSize n - (s.rst_ n).cqHead) % s.cqSize n →
    used = (if adv = 0 ∧ (s.rst_ n).unread = s.cqSize n then s.cqSize n else adv) →
    (s.ringSt n = 0 → exec (.cqHeadWrite n v) s = .next (s.raise (Hist.rng n) F.RNG_HIST_CROAK_ERR)) ∧
    (s.ringSt n ≠ 0 → v < s.cqSize n → used ≤ (s.rst_ n).unread →
      exec (.cqHeadWrite n v) s = .next ((s.setRst n { s.rst_ n with cqHead := v, unread := (s.rst_ n).unread - used }).domEnter n)) ∧
    (s.ringSt n = 1 → (s.cqSize n ≤ v ∨ (s.rst_ n).unread < used) → ∃ t, exec (.cqHeadWrite n v) s = .next t ∧ t.ringSt n = 2 ∧
      t.get (R.RNG_HIST n) F.RNG_HIST_CROAK_ERR = 1 ∧ t.get R.RNG_GLB_HIST F.RNG_GLB_HIST_RING_STOPPED = 1)) ∧
  (∀ (s : State) (n o v : Nat), (o = n * 0x1000 → s.bar2Write o v = s.croak n v) ∧ (o = n * 0x1000 + 4 → s.bar2Write o v = s.cqHead n v) ∧
    (o % 0x1000 ≠ 0 → o % 0x1000 ≠ 4 → s.bar2Write o v = s)) ∧
  (∀ (s : State) (n : Nat) e q, (s.rst_ n).domQ = e :: q → s.cqSize n ≤ s.outstanding n + (s.rst_ n).unread → s.domEnter n = s) ∧
  (∀ (s : State) (n : Nat), n < 64 → s.host.turn < 64 → n ≠ s.host.turn → s.hasWork n = true → 8 ≤ s.host.took → s.nextFetch ≠ some s.host.turn) ∧
  (∀ (s : State) (n : Fin 64) (r : FetchRes) (t : Nat), s.ringSt n = 1 → s.get (R.RNG_STAT n) F.RNG_STAT_SQ_HEAD ≠ (s.rst_ n).sqTail →
    (s.cqSize n ≤ s.outstanding n + (s.rst_ n).unread → exec (.descriptorFetch n r t) s = .next ((s.at_ t).raise (Hist.rng n) F.RNG_HIST_CQ_STALL)) ∧
    (s.outstanding n + (s.rst_ n).unread < s.cqSize n → s.nextFetch ≠ some n.val → exec (.descriptorFetch n r t) s = .next (s.at_ t)) ∧
    (s.outstanding n + (s.rst_ n).unread < s.cqSize n → s.nextFetch = some n.val →
      (∀ raw, r = .slot raw → bytesAt raw 0 1 ∈ opcodes → (s.rst_ n).domQ = [] → ∃ u, exec (.descriptorFetch n r t) s = .next u ∧
        u.get (R.RNG_STAT n) F.RNG_STAT_SQ_HEAD = (s.get (R.RNG_STAT n) F.RNG_STAT_SQ_HEAD + 1) % s.sqSize n % 65536 ∧ u.host.turn = n.val ∧
        (u.rst_ n).fetched = (s.rst_ n).fetched ++ [{ raw := raw }] ∧ ∀ a, a ≠ R.RNG_STAT n → u.rd a = s.rd a) ∧
      (∀ raw, r = .slot raw → bytesAt raw 0 1 ∉ opcodes → ∃ u c, exec (.descriptorFetch n r t) s = .next u ∧ u.host.cpls = s.host.cpls ++ [c] ∧
        c.ring = n.val ∧ c.tag = bytesAt raw 2 2 ∧ c.status = 4 ∧ c.result = badRes 0 ∧
        u.get (R.RNG_STAT n) F.RNG_STAT_SQ_HEAD = (s.get (R.RNG_STAT n) F.RNG_STAT_SQ_HEAD + 1) % s.sqSize n % 65536) ∧
      (r = .err → ∃ u, exec (.descriptorFetch n r t) s = .next u ∧ u.ringSt n = 2 ∧ u.get (R.RNG_HIST n) F.RNG_HIST_FETCH_ERR = 1))) ∧
  (∀ (s : State) (n : Fin 64) (t : Nat) (c : Cpl), s.ringSt n ≠ 0 → s.nextCpl n = some c →
    (∃ u, exec (.completionPost n true t) s = .next u ∧ u = (s.at_ t).postCpl n c ∧
      u.host.mem = memWrites s.host.mem (s.rd2 (R.RNG_CQ_BASE_LO n) (R.RNG_CQ_BASE_HI n) + 16 * s.get (R.RNG_CQ_POS n) F.RNG_CQ_POS_TAIL) ((s.at_ t).cplBytes n c)) ∧
    exec (.completionPost n false t) s = .next (((s.at_ t).loseCpl n c).domEnter n)) ∧
  (∀ (s : State) (n : Fin 64) (t : Nat), (s.rst_ n).armed = true → (s.rst_ n).armedAt + s.get (R.RNG_CQ_VEC n) F.RNG_CQ_VEC_COAL_US * ticksPerUs ≤ t →
    exec (.coalTimerExpiry n t) s = .next (((s.at_ t).setRst n { s.rst_ n with armed := false, since := 0 }).raiseVec (s.get (R.RNG_CQ_VEC n) F.RNG_CQ_VEC_VEC)))

/-- Descriptors that act on no media unit (from R50 to R54, R281, R384): NOP completes OK; a query or a STATS of a class, range or address that does
not exist is BAD_PARAM, and any other writes its records to host memory and completes with their length, or FAULTED where host memory does not take
them; a flow that runs is not enabled again, a flow is disabled, and one whose record is in range and which its ports and the ledgers take is enabled;
PERSIST_PUT and PERSIST_GET move user slots, and PERSIST_STORE stores every dirty record, and completes FAULTED when one fails. Clauses on points the
specification leaves open follow the model's own reading (log entries 45, 137, 206). Each of these commands is shown to complete, under conditions on
the state and its operands alone: nop, queryStatus, stats, flowRxCfg, flowTxCfg, persistPut, persistGet, persistStore. -/
def Obligations.HostDescriptors : Prop :=
  (∀ (s v : State) (h : Hdr), s.admits (queryRule 0x01 []) h v → ∃ t, exec (.nop h) s = .next t ∧ v.posts t h 0 0 ∧ v.hostOnly t) ∧
  (∀ (s v : State) (h : Hdr) (q : QueryReq), s.admits (queryRule 0x90 (queryPay q)) h v →
    (8 < q.cls → ∃ t, exec (.queryStatus h q) s = .next t ∧ v.posts t h 4 (badRes 16) ∧ v.hostOnly t) ∧
    (q.cls ≤ 8 → queryRange q.cls ≤ q.first → ∃ t, exec (.queryStatus h q) s = .next t ∧ v.posts t h 4 (badRes 18) ∧ v.hostOnly t) ∧
    (∀ k, q.cls ≤ 8 → (q.first < queryRange q.cls ∧ queryRange q.cls < q.first + q.count ∧ k = 20 ∨
      q.first < queryRange q.cls ∧ q.first + q.count ≤ queryRange q.cls ∧ q.host % 8 ≠ 0 ∧ k = 24) →
      ∃ t, exec (.queryStatus h q) s = .next t ∧ v.posts t h 4 (badRes k) ∧ v.hostOnly t) ∧
    (q.cls ≤ 8 → q.first < queryRange q.cls → q.first + q.count ≤ queryRange q.cls → q.host % 8 = 0 →
      (q.writeOk = false → q.count ≠ 0 → ∃ t, exec (.queryStatus h q) s = .next t ∧ v.posts t h 7 2 ∧ v.hostOnly t) ∧
      ((q.writeOk = true ∨ q.count = 0) → ∀ l, l = ((List.range q.count).map fun i => v.statusRec q.cls (q.first + i)).flatten →
        ∃ t, exec (.queryStatus h q) s = .next t ∧ v.posts t h 0 l.length ∧ t.host.mem = memWrites v.host.mem q.host l))) ∧
  (∀ (s v : State) (h : Hdr) (q : QueryReq), s.admits (queryRule 0x91 (queryPay q)) h v →
    ((q.cls = 0 ∨ 6 < q.cls) → ∃ t, exec (.stats h q) s = .next t ∧ v.posts t h 4 (badRes 16) ∧ v.hostOnly t) ∧
    (1 ≤ q.cls → q.cls ≤ 6 → queryRange q.cls ≤ q.first → ∃ t, exec (.stats h q) s = .next t ∧ v.posts t h 4 (badRes 18) ∧ v.hostOnly t) ∧
    (∀ k, 1 ≤ q.cls → q.cls ≤ 6 → (q.first < queryRange q.cls ∧ queryRange q.cls < q.first + q.count ∧ k = 20 ∨
      q.first < queryRange q.cls ∧ q.first + q.count ≤ queryRange q.cls ∧ q.host % 8 ≠ 0 ∧ k = 24) →
      ∃ t, exec (.stats h q) s = .next t ∧ v.posts t h 4 (badRes k) ∧ v.hostOnly t) ∧
    (1 ≤ q.cls → q.cls ≤ 6 → q.first < queryRange q.cls → q.first + q.count ≤ queryRange q.cls → q.host % 8 = 0 →
      (q.writeOk = false → q.count ≠ 0 → ∃ t, exec (.stats h q) s = .next t ∧ v.posts t h 7 2 ∧ v.hostOnly t) ∧
      ((q.writeOk = true ∨ q.count = 0) → ∀ l, l = ((List.range q.count).map fun i => v.statsRec q.cls (q.first + i)).flatten →
        ∃ t, exec (.stats h q) s = .next t ∧ v.posts t h 0 l.length ∧ t.host.mem = memWrites v.host.mem q.host l))) ∧
  (∀ (s v : State) (h : Hdr) (f : FlowReq), s.admits (flowRule 0x10 f) h v →
    (2 < f.kind → ∃ t, exec (.flowRxCfg h f) s = .next t ∧ v.posts t h 4 (badRes 17) ∧ v.hostOnly t) ∧
    (f.kind ≤ 2 → (if f.kind = 1 then 1024 else 256) ≤ f.index → ∃ t, exec (.flowRxCfg h f) s = .next t ∧ v.posts t h 4 (badRes 18) ∧ v.hostOnly t) ∧
    (∀ k, k = 1024 * f.kind + f.index → f.kind ≤ 2 → f.index < (if f.kind = 1 then 1024 else 256) →
      (∀ x, f.en = true → tabFind v.media.rxFlow k = some x → ∃ t, exec (.flowRxCfg h f) s = .next t ∧ v.posts t h 4 (badRes 18) ∧ v.hostOnly t) ∧
      (∀ x, f.en = false → tabFind v.media.rxFlow k = some x → exec (.flowRxCfg h f) s = .next (v.accept ((v.closeFlow true k x).ok h 0))) ∧
      (f.en = false → tabFind v.media.rxFlow k = none → ∃ t, exec (.flowRxCfg h f) s = .next t ∧ v.posts t h 0 0 ∧ v.hostOnly t) ∧
      (f.en = true → tabFind v.media.rxFlow k = none →
        (f.addr % 8 ≠ 0 → ∃ t, exec (.flowRxCfg h f) s = .next t ∧ v.posts t h 4 (badRes 24) ∧ v.hostOnly t) ∧
        (∀ o, f.addr % 8 = 0 → ([v.flowBad true f.kind f.flow, f.zero true].filterMap id).min? = some o →
          ∃ t, exec (.flowRxCfg h f) s = .next t ∧ v.posts t h 4 (dataRes (some o)) ∧ v.hostOnly t) ∧
        (f.addr % 8 = 0 → v.flowBad true f.kind f.flow = none → f.zero true = none → v.wireOk true f.kind f.flow = false →
          ∃ t, exec (.flowRxCfg h f) s = .next t ∧ v.posts t h 3 Config.flowCode.toNat ∧ v.hostOnly t) ∧
        (f.addr % 8 = 0 → v.flowBad true f.kind f.flow = none → f.zero true = none → v.wireOk true f.kind f.flow = true → v.pathNeed f.kind f.flow ≠ 0 →
          v.placeBuf (v.pathNeed f.kind f.flow) v.usedGrans = none → ∃ t, exec (.flowRxCfg h f) s = .next t ∧ v.posts t h 3 5 ∧ v.hostOnly t) ∧
        (∀ p, f.addr % 8 = 0 → v.flowBad true f.kind f.flow = none → f.zero true = none → v.wireOk true f.kind f.flow = true →
          (if v.pathNeed f.kind f.flow = 0 then some [] else v.placeBuf (v.pathNeed f.kind f.flow) v.usedGrans) = some p →
          (v.fitOf (v.openFlow true k f.flow p) = .fits → exec (.flowRxCfg h f) s = .next (v.accept ((v.openFlow true k f.flow p).ok h 0))) ∧
          (∀ c, v.fitOf (v.openFlow true k f.flow p) = .short c → ∃ t, exec (.flowRxCfg h f) s = .next t ∧ v.posts t h 3 c ∧ v.hostOnly t))))) ∧
  (∀ (s v : State) (h : Hdr) (f : FlowReq), s.admits (flowRule 0x11 f) h v →
    (2 < f.kind → ∃ t, exec (.flowTxCfg h f) s = .next t ∧ v.posts t h 4 (badRes 17) ∧ v.hostOnly t) ∧
    (f.kind ≤ 2 → (if f.kind = 1 then 1024 else 256) ≤ f.index → ∃ t, exec (.flowTxCfg h f) s = .next t ∧ v.posts t h 4 (badRes 18) ∧ v.hostOnly t) ∧
    (∀ k, k = 1024 * f.kind + f.index → f.kind ≤ 2 → f.index < (if f.kind = 1 then 1024 else 256) →
      (∀ x, f.en = true → tabFind v.media.txFlow k = some x → ∃ t, exec (.flowTxCfg h f) s = .next t ∧ v.posts t h 4 (badRes 18) ∧ v.hostOnly t) ∧
      (∀ x, f.en = false → tabFind v.media.txFlow k = some x → ∃ t, exec (.flowTxCfg h f) s = .next t ∧ v.posts t h 0 0 ∧ tabFind t.media.txFlow k = none ∧
        tabGet {} t.media.txCnt k = x.cnt) ∧
      (f.en = false → tabFind v.media.txFlow k = none → ∃ t, exec (.flowTxCfg h f) s = .next t ∧ v.posts t h 0 0 ∧ v.hostOnly t) ∧
      (f.en = true → tabFind v.media.txFlow k = none →
        (f.addr % 8 ≠ 0 → ∃ t, exec (.flowTxCfg h f) s = .next t ∧ v.posts t h 4 (badRes 24) ∧ v.hostOnly t) ∧
        (∀ o, f.addr % 8 = 0 → ([v.flowBad false f.kind f.flow, f.zero false].filterMap id).min? = some o →
          ∃ t, exec (.flowTxCfg h f) s = .next t ∧ v.posts t h 4 (dataRes (some o)) ∧ v.hostOnly t) ∧
        (f.addr % 8 = 0 → v.flowBad false f.kind f.flow = none → f.zero false = none → v.wireOk false f.kind f.flow = false →
          ∃ t, exec (.flowTxCfg h f) s = .next t ∧ v.posts t h 3 Config.flowCode.toNat ∧ v.hostOnly t) ∧
        (f.addr % 8 = 0 → v.flowBad false f.kind f.flow = none → f.zero false = none → v.wireOk false f.kind f.flow = true →
          (v.fitOf (v.openFlow false k f.flow []) = .fits → exec (.flowTxCfg h f) s = .next (v.accept ((v.openFlow false k f.flow []).ok h 0))) ∧
          (∀ c, v.fitOf (v.openFlow false k f.flow []) = .short c → ∃ t, exec (.flowTxCfg h f) s = .next t ∧ v.posts t h 3 c ∧ v.hostOnly t))))) ∧
  (∀ (s v : State) (h : Hdr) (first count host : Nat) (data : Option (List Byte)), s.admits { op := 0x60, rfn := 0, pay := slotPay first count host } h v →
    (∀ k, slotsBad first count host = some k → ∃ t, exec (.persistPut h first count host data) s = .next t ∧ v.posts t h 4 (badRes k) ∧ v.hostOnly t) ∧
    (∀ d, slotsBad first count host = none → data = some d → ∃ t, exec (.persistPut h first count host data) s = .next t ∧ v.posts t h 0 0 ∧
      t.axl.user = memWrites v.axl.user (64 * first) (d.take (64 * count))) ∧
    (slotsBad first count host = none → data = none → ∃ t, exec (.persistPut h first count host data) s = .next t ∧ v.posts t h 7 1 ∧ v.hostOnly t)) ∧
  (∀ (s v : State) (h : Hdr) (first count host : Nat), s.admits { op := 0x61, rfn := 0, pay := slotPay first count host, standby := true } h v →
    (∀ k b, slotsBad first count host = some k → ∃ t, exec (.persistGet h first count host b) s = .next t ∧ v.posts t h 4 (badRes k) ∧ v.hostOnly t) ∧
    (slotsBad first count host = none → ∃ t, exec (.persistGet h first count host false) s = .next t ∧ v.posts t h 7 2 ∧ v.hostOnly t) ∧
    (slotsBad first count host = none → ∃ t, exec (.persistGet h first count host true) s = .next t ∧ v.posts t h 0 0 ∧
      t.host.mem = memWrites v.host.mem host (memReads v.axl.user (64 * first) (64 * count)) ∧ v.hostOnly t)) ∧
  (∀ (s v w : State) (h : Hdr) (fail : List Nat), s.admits { op := 0x62, rfn := 0 } h v →
    w = v.dirtyRecs.foldl (fun (x : State) (k : Nat) => x.storeRec k (!fail.contains k) (!fail.contains k)) v →
    ((∀ k, k ∈ v.dirtyRecs → k ∉ fail) → exec (.persistStore h fail) s = .next (v.accept (w.ok h 0))) ∧
    ((∃ k, k ∈ v.dirtyRecs ∧ k ∈ fail) → exec (.persistStore h fail) s = .next (v.accept (w.done h false 7 3))))

/-! ### LV personality (10_lv_personality.md) -/

/-- LV SPI (from R294, R296 to R298, R307): MISO stays at high impedance while the agent does not answer; a read returns the register of the page
selected; a read of IRQ_STAT returns its bits and clears them; ID and VERSION read 0x3232 and 0x0103; PAGE, CONFIG, REF_SEL, SWLINE and IRQ_MASK store
what is written, and a write elsewhere is ignored; a frame of other than 24 cycles counts, sets FRAME_ERR and changes no register of the image; the
status follows the lanes; LV_IRQ_N follows IRQ_STAT and its mask, and keeps its level through a warm reset. The window (from R293): a write of LVP_WIN
outside mixed personality changes nothing; in mixed personality the value written is kept, and when a condition fails WIN_ERR sets and the window in
force stays. When every condition holds the new window is in force. Clauses on a point the specification leaves open follow the model's own reading
(log entry 56). That an event whose condition does not hold changes nothing is the model's choice (log entry 146). Each of these commands is shown to
complete, under conditions on the state and its operands alone: lvSpiRead, irqStatRead, lvRegisterWrite, lvFrameError, lvStatusFollow, lvpWinWrite. -/
def Obligations.LvAgent : Prop :=
  (
  (∀ (s : State) (a : Nat), s.lvAnswers = false → exec (.lvSpiRead a) s = .next { s with lv := { s.lv with miso := none } } ∧
    exec .irqStatRead s = .next { s with lv := { s.lv with miso := none } } ∧ (∀ v, exec (.lvRegisterWrite a v) s = .next s) ∧
    exec (.lvFrameError a) s = .next s ∧ exec .lvStatusFollow s = .next s) ∧
  (∀ s : State, s.lvAnswers = true → exec .irqStatRead s = .next { s with lv := { s.lv with miso := some (BitVec.ofNat 16 s.lv.irq), irq := 0 } } ∧
    (s.lvReg 127 = 0 → exec (.lvSpiRead 8) s = exec .irqStatRead s)) ∧
  (∀ (s : State) (a : Nat), s.lvAnswers = true → (a ≠ 8 ∨ s.lvReg 127 ≠ 0) →
    exec (.lvSpiRead a) s = .next { s with lv := { s.lv with miso := some (s.lvRead a) } } ∧
    (s.lvReg 127 = 0 → s.lvRead 0 = 0x3232 ∧ s.lvRead 1 = 0x0103 ∧ ∀ b, 8 < b → b ≠ 127 → s.lvRead b = 0) ∧
    (s.lvReg 127 = 1 → ∀ o < 32, s.lvRead o = s.lvReg (128 + o)) ∧ s.lvRead 127 = s.lvReg 127) ∧
  (∀ (s : State) (v : Nat), s.lvWrites = true → (∃ t, exec (.lvRegisterWrite 127 v) s = .next t ∧ t.lvReg 127 = BitVec.ofNat 16 (v % 4) ∧ ∀ k, k ≠ 127 → t.lvReg k = s.lvReg k) ∧
    (s.lvReg 127 = 0 → ∀ a < 127, lvMask a ≠ 0 → ∃ t, exec (.lvRegisterWrite a v) s = .next t ∧ t.lvReg a = BitVec.ofNat 16 (v &&& lvMask a) ∧
      ∀ k, k ≠ a → t.lvReg k = s.lvReg k) ∧
    (s.lvReg 127 = 0 → ∀ a < 127, a ∉ [2, 3, 4, 7] → exec (.lvRegisterWrite a v) s = .next s) ∧
    (s.lvReg 127 ≠ 0 → ∀ a < 127, exec (.lvRegisterWrite a v) s = .next s)) ∧
  (∀ (s : State) (a v : Nat), s.lvWrites = false → exec (.lvRegisterWrite a v) s = .next s) ∧
  (∀ (s : State) (n : Nat), s.lvAnswers = true → n ≠ 24 → ∃ t, exec (.lvFrameError n) s = .next t ∧ t.get R.LVP_HIST F.LVP_HIST_FRAME_ERR = 1 ∧
    (t.rd R.LVP_FRAME_ERR_CNT).toNat = min 0xFFFFFFFF ((s.rd R.LVP_FRAME_ERR_CNT).toNat + 1) ∧ t.lv = s.lv) ∧
  (∀ s : State, exec (.lvFrameError 24) s = .next s) ∧
  (∀ s : State, s.lvAnswers = true → exec .lvStatusFollow s = .next s.lvFollow.lvAes_) ∧
  (∀ (s : State) (b : Bool), s.lv.irqHold = some b → s.lvIrqLow = b) ∧
  (∀ s : State, s.lv.irqHold = none → (s.lvIrqLow = true ↔ (s.lvOn = true ∧ s.role ≠ 2 ∧ s.lifecycle ≠ 4 ∧ (s.lvReg 2).getLsbD 0 = true ∧
    s.lv.irq &&& (s.lvReg 7).toNat ≠ 0)))) ∧
  (
  ∀ (s : State) (v t : Nat), s.upFor R.LVP_WIN → (s.persona ≠ 2 → exec (.lvpWinWrite v t) s = .next (s.at_ t)) ∧
    (∀ w, s.persona = 2 → w = (((s.at_ t).set R.LVP_WIN F.LVP_WIN_RX_BASE (v % 128)).set R.LVP_WIN F.LVP_WIN_TX_BASE (v / 256 % 128)).set R.LVP_WIN F.LVP_WIN_AES_Q
        (v / 65536 % 4) →
      ((40 < v % 128 ∨ 40 < v / 256 % 128 ∨ s.lv.takes ≠ [] ∨ s.lv.outs.any (fun p => p.2.en) = true ∨ (∃ i, i < 32 ∧ (s.route (v / 256 % 128 + i)).isSome = true) ∨
        s.winUngrouped (v % 128) (v / 256 % 128) = false) → w.winOk (v % 128) (v / 256 % 128) (v / 65536 % 4) = false) ∧
      (w.winOk (v % 128) (v / 256 % 128) (v / 65536 % 4) = false → ∃ u, u = w.raise Hist.lvp F.LVP_HIST_WIN_ERR ∧ exec (.lvpWinWrite v t) s = .next (u.afterWrite (s.at_ t)) ∧
        u.get R.LVP_WIN F.LVP_WIN_RX_BASE = v % 128 ∧ u.get R.LVP_WIN F.LVP_WIN_TX_BASE = v / 256 % 128 ∧ u.get R.LVP_WIN F.LVP_WIN_AES_Q = v / 65536 % 4 ∧
        u.get R.LVP_HIST F.LVP_HIST_WIN_ERR = 1 ∧ u.lv = s.lv) ∧
      (w.winOk (v % 128) (v / 256 % 128) (v / 65536 % 4) = true →
        exec (.lvpWinWrite v t) s = .next ((w.moveWin (v % 128) (v / 256 % 128) (v / 65536 % 4) t).afterWrite (s.at_ t)))))

/-- Takes and outputs (from R299, R300, R302, R305, R313): TAKE written 1 and a low pulse of 100 ns or more latch a take of every output, TAKE written
0 and a pulse below 50 ns none; OUT_SEL keeps ENABLE and INPUT, and with AUTO_TAKE the output's take latches; OUT_CTL keeps its 16 bits, and is not
taken under signing-required mode; a take ignored sets TAKE_BUSY and leaves no switch behind; a latched take is armed once firmware runs, an output
whose timing does not run switching at once; an armed switch executes at its point and not before; a resumed output starts to send again. Clauses on a
point the specification leaves open follow the model's own reading (log entry 55). That an event whose condition does not hold changes nothing is the
model's choice (log entry 146). Each of these commands is shown to complete, under conditions on the state and its operands alone: lvTakeWrite,
lvTakeNEdge, outSelWrite, outCtlWrite, lvTakeArm, lvOutputSwitch, lvMuteResume. -/
def Obligations.LvTakes : Prop :=
  (∀ (s : State) (v t : Nat), (v % 2 = 1 → exec (.lvTakeWrite v t) s = .next ((s.at_ t).lvLatch (List.range 32))) ∧
    (v % 2 = 0 → exec (.lvTakeWrite v t) s = .next (s.at_ t))) ∧
  (∀ (s : State) (n t : Nat), ((s.lvReg 2).getLsbD 1 = true → s.rst.warmRun = false → 100 ≤ n → exec (.lvTakeNEdge n t) s = .next ((s.at_ t).lvLatch (List.range 32))) ∧
    (((s.lvReg 2).getLsbD 1 = false ∨ s.rst.warmRun = true ∨ n < 50) → exec (.lvTakeNEdge n t) s = .next (s.at_ t)) ∧
    ((s.lvReg 2).getLsbD 1 = true → s.rst.warmRun = false → 50 ≤ n → n < 100 → exec (.lvTakeNEdge n t) s =
      .next (if (Config.fresh 1 s.free).getLsbD 0 then ({ s.at_ t with free := s.free + 1 } : State).lvLatch (List.range 32) else { s.at_ t with free := s.free + 1 }))) ∧
  (∀ (s : State) (l : List Nat), s.lvWrites = true → s.lvSigned = false → (s.lv.ready = false ∨ ∃ o ∈ l, (tabFind s.lv.pend o).isSome = true) →
    s.lvLatch l = { s with lv := { s.lv with irq := s.lv.irq ||| 2 } }) ∧
  (∀ (s : State) (o : Fin 32) (v t : Nat), (s.lvWrites = false → exec (.outSelWrite o v t) s = .next (s.at_ t)) ∧
    (s.lvWrites = true → (s.lvReg 2).getLsbD 2 = false → ∃ u, exec (.outSelWrite o v t) s = .next u ∧ u.lvReg (128 + o) = BitVec.ofNat 16 (v &&& 0x80FF) ∧
      u.lv.pend = s.lv.pend ∧ u.lv.outs = s.lv.outs ∧ ∀ k, k ≠ 128 + o.val → u.lvReg k = s.lvReg k) ∧
    (s.lvWrites = true → (s.lvReg 2).getLsbD 2 = true → ∃ u, u = (s.at_ t).setLvReg (128 + o) (BitVec.ofNat 16 (v &&& 0x80FF)) ∧
      exec (.outSelWrite o v t) s = .next (u.lvLatch [o.val]))) ∧
  (∀ (s : State) (o : Fin 32) (v t : Nat), ((s.lvWrites = false ∨ s.lvSigned = true) → exec (.outCtlWrite o v t) s = .next (s.at_ t)) ∧
    (s.lvWrites = true → s.lvSigned = false → ∃ u, exec (.outCtlWrite o v t) s = .next u ∧ u.lvReg (384 + o) = BitVec.ofNat 16 v ∧ u.lv.pend = s.lv.pend ∧ u.lv.outs = s.lv.outs)) ∧
  (∀ (s : State) (t : Nat), s.lvAnswers = true → exec (.lvTakeArm t) s = .next ((s.at_ t).lvArm t)) ∧
  (∀ (s : State) (t o : Nat) (w : LvSwitch), s.lvAnswers = true → s.forwards = false → s.lv.pend = [(o, w)] → w.due = none →
    (∀ q, (s.at_ t).lvDue o w t = some q →
      exec (.lvTakeArm t) s = .next { s.at_ t with free := s.free + 1, lv := { s.lv with pend := [(o, { w with due := some q })] } }) ∧
    ((s.at_ t).lvDue o w t = none → exec (.lvTakeArm t) s = .next (({ s.at_ t with free := s.free + 1 } : State).lvSwitch o t))) ∧
  (∀ (s : State) (t : Nat), s.lvAnswers = false → exec (.lvTakeArm t) s = .next s) ∧
  (∀ (s : State) (o : Fin 32) (t q : Nat) (w : LvSwitch), tabFind s.lv.pend o.val = some w → w.due = some q → (t < q → exec (.lvOutputSwitch o t) s = .next (s.at_ t)) ∧
    (q ≤ t → ∀ u, u = (s.at_ t).lvCarry o w (if s.role = 2 then 4 else 1) t → (u.lvOut o).en = w.en ∧ (u.lvOut o).input = w.input ∧
      exec (.lvOutputSwitch o t) s = .next ((({ u with lv := { u.lv with pend := tabDel u.lv.pend o } }).lvAes_).lvTakesDone))) ∧
  (∀ (s : State) (o : Fin 32) (t : Nat), (tabFind s.lv.pend o.val).bind (·.due) = none → exec (.lvOutputSwitch o t) s = .next (s.at_ t)) ∧
  (∀ (s : State) (o : Fin 32) (t : Nat), s.lvOn = true → exec (.lvMuteResume o t) s = .next (((s.at_ t).txWake (s.lvDst o) t).lvAes_)) ∧
  (∀ (s : State) (o : Fin 32) (t : Nat), s.lvOn = false → exec (.lvMuteResume o t) s = .next s)

/-- At the latch of a take, an output whose copied ENABLE is 1 and INPUT above 31 is dropped: no switch of it is pending and what is in force on it
stays; TAKE_ERR sets. The rest of the take goes ahead: an output that asks for something else than what is in force is pending in this take, with the
values copied (R301). -/
def Obligations.LvDroppedOutputs : Prop :=
  ∀ (s : State) (v t : Nat), v % 2 = 1 → s.lvWrites = true → s.lvSigned = false → s.lv.ready = true → (∀ o < 32, tabFind s.lv.pend o = none) →
    ∃ u, exec (.lvTakeWrite v t) s = .next u ∧ (∀ o, u.lvOut o = s.lvOut o) ∧ (∀ o < 32, ∀ en input, s.lvAsked o = (en, input) →
      ((en = true ∧ 31 < input) → tabFind u.lv.pend o = none ∧ u.lv.irq.testBit 2 = true ∧ u.get R.LVP_HIST F.LVP_HIST_TAKE_ERR = 1) ∧
      (¬ (en = true ∧ 31 < input) → ((s.lvOut o).en = en ∧ (s.lvOut o).input = input → tabFind u.lv.pend o = none) ∧
        (¬ ((s.lvOut o).en = en ∧ (s.lvOut o).input = input) → tabFind u.lv.pend o = some { en := en, input := input, take := s.lv.nextTk })))

/-! ### Handshake fabric and crossings (12_handshake_fabric_and_crossings.md) -/

/-- The voltage controller (from R322, R324 to R328, R337): a reading stores the five ribbon rates, and every engine's as its quadrant's scaled by its
trim, and what merged or was dropped at a crossing since the last one counts with its flags; a step lowers or raises VDD by VSTEP, in fixed mode
towards VPROG and in adaptive mode between VMIN and 850 mV, in END towards 620 mV, and none is made in ADMIT_RAISE, AVS_FAULT and POWERFAIL, before
firmware's command in P4, while a warm reset holds the regulator, or after a power-fail trip; an admission that waits raises by one step; HSF_VCTL
keeps its fields clamped to their ranges, and a write of it gives up what the controller was about, in fixed mode a raise for an admission too; an
AVSBus fault enters AVS_FAULT with AVS_ERR and the voltage kept, a retry that succeeds confirms the voltage commanded, and one that fails is a fault
again. Ribbons and crossings (from R329, R333, R335, R336): a handshake time-out discards its ribbon's word, with what that does to its traffic,
counts, sets HS_TIMEOUT and reports an error that names the ribbon; the two sides of a crossing group out of reset exchange a token, its state reads
RUNNING, and the words discarded count as drops; a requester's urgency follows Table 12-1, the more urgent one is granted first, and host DMA last.
Clauses on points the specification leaves open follow the model's own reading (log entries 59, 60, 61, 111, 172, 201). That an event whose condition
does not hold changes nothing is the model's choice (log entry 146). Each of these commands is shown to complete, under conditions on the state and
its operands alone: slackMeasure, voltageLowerStep, voltageRaiseStep, admitRaiseStep, vctlWrite, avsFault, avsRetry, handshakeTimeout,
crossingRelease. -/
def Obligations.VoltageAndFabric : Prop :=
  (
  (∀ (s : State) (m : Slack) (t : Nat), ∃ u, exec (.slackMeasure m t) s = .next u ∧ u = ((s.at_ t).readSlack m).afterReading ∧ u.vdd = s.vdd ∧
    (∀ i < 5, u.get (R.HSF_SLACK i) F.HSF_SLACK_RATE = (m.rates[i]?).getD 0 % 2 ^ F.HSF_SLACK_RATE.width) ∧
    ∀ e < 12, u.get (R.CHE_RATE e) F.CHE_RATE_MEASURED = min 0xFFFF (u.get (R.HSF_SLACK (e / 3)) F.HSF_SLACK_RATE * s.cheTrim e / 1000)) ∧
  (∀ (s : State) (m : Slack) (t : Nat) (c : Cross), m.cross = [c] → ∃ u, exec (.slackMeasure m t) s = .next u ∧
    (u.rd (R.HSF_XOVR_CNT c.group)).toNat = min 0xFFFFFFFF ((s.rd (R.HSF_XOVR_CNT c.group)).toNat + c.merged) ∧
    (u.rd (R.HSF_XDROP_CNT c.group)).toNat = min 0xFFFFFFFF ((s.rd (R.HSF_XDROP_CNT c.group)).toNat + c.dropped) ∧
    (c.merged ≠ 0 → u.get (R.HSF_XSTAT c.group) F.HSF_XSTAT_OVERRUN = 1 ∧ u.get R.HSF_HIST F.HSF_HIST_XOVERRUN = 1) ∧
    (c.dropped ≠ 0 → u.get (R.HSF_XSTAT c.group) F.HSF_XSTAT_DROP = 1 ∧ u.get R.HSF_HIST F.HSF_HIST_XDROP = 1)) ∧
  (∀ (s : State) (m : Slack) (t : Nat), (s.vState ∈ [3, 4, 5] ∨ s.vRuns = false) → exec (.voltageLowerStep m t) s = .next (s.at_ t) ∧ exec (.voltageRaiseStep m t) s = .next (s.at_ t)) ∧
  (∀ (s : State) (m : Slack) (t : Nat), s.vRuns = true → s.vState ∉ [3, 4, 5] → s.adaptive = false →
    ((s.at_ t).passed s.hsf.lowered (1000 * ticksPerUs) = true → s.vProg < s.vdd → ∃ u, exec (.voltageLowerStep m t) s = .next u ∧
      u.vdd = max s.vProg (s.vdd - s.vStep) ∧ u.hsf.lowered = some t) ∧
    (s.vdd ≤ s.vProg → exec (.voltageLowerStep m t) s = .next (s.at_ t)) ∧
    ((s.at_ t).passed s.hsf.raised (1000 * ticksPerUs) = true → s.vdd < s.vProg → ∃ u, exec (.voltageRaiseStep m t) s = .next u ∧
      u.vdd = min s.vProg (s.vdd + s.vStep) ∧ u.hsf.raised = some t) ∧
    (s.vProg ≤ s.vdd → exec (.voltageRaiseStep m t) s = .next (s.at_ t))) ∧
  (∀ (s : State) (m : Slack) (t : Nat), s.vRuns = true → s.vState ∉ [3, 4, 5] → s.adaptive = true → s.lifecycle ≠ 4 →
    (∀ a, s.hsf.okSince = some a → a + s.lowerS ≤ t → (s.at_ t).passed s.hsf.lowered s.lowerS = true → (s.at_ t).floorMet 105 = true → s.vMin < s.vdd → s.isReady = true →
      ∃ u, exec (.voltageLowerStep m t) s = .next u ∧ u.vdd = max s.vMin (s.vdd - s.vStep)) ∧
    ((s.hsf.okSince = none ∨ s.vdd ≤ s.vMin ∨ (s.at_ t).floorMet 105 = false) → exec (.voltageLowerStep m t) s = .next (s.at_ t)) ∧
    ((s.at_ t).passed s.hsf.raised (1000 * ticksPerUs) = true → (s.at_ t).floorMet 100 = false → s.vdd < 850 → ∃ u, exec (.voltageRaiseStep m t) s = .next u ∧
      u.vdd = min 850 (s.vdd + s.vStep)) ∧
    (((s.at_ t).floorMet 100 = true ∨ 850 ≤ s.vdd) → exec (.voltageRaiseStep m t) s = .next (s.at_ t))) ∧
  (∀ (s : State) (m : Slack) (t : Nat), s.vRuns = true → s.vState ∉ [3, 4, 5] → s.adaptive = true → s.lifecycle = 4 → (s.at_ t).passed s.hsf.lowered (1000 * ticksPerUs) = true → 620 < s.vdd →
    ∃ u, exec (.voltageLowerStep m t) s = .next u ∧ u.vdd = max 620 (s.vdd - s.vStep) ∧ u.hsf.lowered = some t) ∧
  (∀ (s : State) (m : Slack) (t : Nat), (s.vRuns = true → s.vState = 3 → s.adaptive = true → s.hsf.raising.isSome = true → s.vdd < 850 → ∃ u, exec (.admitRaiseStep m t) s = .next u ∧
      u.vdd = min 850 (s.vdd + s.vStep) ∧ u.hsf = s.hsf) ∧
    ((s.vRuns = false ∨ s.vState ≠ 3 ∨ s.adaptive = false ∨ s.hsf.raising = none ∨ 850 ≤ s.vdd) → exec (.admitRaiseStep m t) s = .next (s.at_ t))) ∧
  (∀ (s : State) (v : Nat), s.upFor R.HSF_VCTL → ∃ u, exec (.vctlWrite v) s = .next u ∧ u.get R.HSF_VCTL F.HSF_VCTL_MODE = v / 2 ^ 31 % 2 ∧
    u.get R.HSF_VCTL F.HSF_VCTL_VSTEP = max 1 (min 20 (v / 2 ^ 20 % 32)) ∧ u.get R.HSF_VCTL F.HSF_VCTL_VMIN = max 620 (min 850 (v / 2 ^ 10 % 1024)) ∧
    u.get R.HSF_VCTL F.HSF_VCTL_VPROG = max 620 (min 850 (v % 1024)) ∧ u.vdd = s.vdd ∧
    ((s.vState = 1 ∨ s.vState = 2 ∨ s.vState = 3 ∧ v / 2 ^ 31 % 2 = 0) → u.vState = 0)) ∧
  (∀ s : State, (s.vState = 5 → exec .avsFault s = .next s) ∧
    (∀ w : State, w = s.raise Hist.hsf F.HSF_HIST_AVS_ERR → s.vState = 4 → exec .avsFault s = .next (w.reportError 0xE0000 0x0A)) ∧
    (s.vState ≠ 4 → s.vState ≠ 5 → ∃ w : State, exec .avsFault s = .next (w.reportError 0xE0000 0x0A) ∧ w.vState = 4 ∧ w.vdd = s.vdd ∧
      w.hsf.failed = s.commanded ∧ w.get R.HSF_HIST F.HSF_HIST_AVS_ERR = 1)) ∧
  (∀ (s : State) (ok : Bool), (s.vState ≠ 4 ∨ s.vRuns = false) → exec (.avsRetry ok) s = .next s) ∧
  (∀ s : State, s.vState = 4 → s.vRuns = true →
    exec (.avsRetry false) s = .next ((s.raise Hist.hsf F.HSF_HIST_AVS_ERR).reportError 0xE0000 0x0A) ∧
    ∃ u, exec (.avsRetry true) s = .next u ∧
      u.vdd = s.hsf.failed % 1024 ∧ u.vState = (if s.lifecycle = 4 then 6 else if s.adaptive && s.hsf.raising.isSome then 3 else 0) ∧ s.onlyRegs u [R.HSF_VSTAT]) ∧
  (∀ s : State, (s.phase ≠ 5 ∨ s.rst.warmDue = true ∨ s.flag R.AXL_STAT F.AXL_STAT_PFAIL = true) → s.vRuns = false) ∧
  (∀ s : State, s.flag R.AXL_STAT F.AXL_STAT_PFAIL = true → s.canRaise = false)) ∧
  (
  (∀ (s x : State) (b : Fin 96) (l : LostWord) (t : Nat), x = (s.at_ t).wordLost l → ∃ w : State, exec (.handshakeTimeout b l t) s = .next (w.reportError (0x80000 + b) 0x05) ∧
    x.onlyRegs w [R.HSF_TO_CNT, R.HSF_HIST] ∧ (w.rd R.HSF_TO_CNT).toNat = min 0xFFFFFFFF ((x.rd R.HSF_TO_CNT).toNat + 1) ∧ w.get R.HSF_HIST F.HSF_HIST_HS_TIMEOUT = 1) ∧
  (∀ s : State, s.wordLost .other = s ∧
    (∀ h off k, s.wordAt h off = some k → s.wordLost (.write h off) = { s with fst := { s.fst with lostW := s.fst.lostW ++ [k] } }) ∧
    (∀ c h off k, s.wordAt h off = some k → s.wordLost (.read c h off) = { s with fst := { s.fst with lostR := s.fst.lostR ++ [(c.map (·.val), k)] } }) ∧
    (∀ (u : Fin 160) line samp, s.wordLost (.fetch u line samp) = s.unitUnderrun u line samp) ∧
    (∀ (d : Fin 512) line samp, (s.route d).isSome = true → s.wordLost (.essence d line samp) = s.cutLine d line samp)) ∧
  (∀ (s : State) (d : Fin 250) (n : Nat), (s.get (R.HSF_XSTAT d) F.HSF_XSTAT_STATE ≠ 3 → exec (.crossingRelease d n) s = .next s) ∧
    (s.get (R.HSF_XSTAT d) F.HSF_XSTAT_STATE = 3 → ∃ u, exec (.crossingRelease d n) s = .next u ∧ u.get (R.HSF_XSTAT d) F.HSF_XSTAT_STATE = 0 ∧
      (n = 0 → u.get (R.HSF_XSTAT d) F.HSF_XSTAT_DROP = s.get (R.HSF_XSTAT d) F.HSF_XSTAT_DROP) ∧
      (n ≠ 0 → u.get (R.HSF_XSTAT d) F.HSF_XSTAT_DROP = 1 ∧ u.get R.HSF_HIST F.HSF_HIST_XDROP = 1 ∧
        (u.rd (R.HSF_XDROP_CNT d)).toNat = min 0xFFFFFFFF ((s.rd (R.HSF_XDROP_CNT d)).toNat + n)) ∧
      s.onlyRegs u [R.HSF_XSTAT d, R.HSF_XDROP_CNT d, R.HSF_HIST])) ∧
  (∀ f n low crit d k t : Nat,
    (100 * f < crit * n → (Requester.layer f n low crit).level = 2) ∧ (crit * n ≤ 100 * f → 100 * f < low * n → (Requester.layer f n low crit).level = 1) ∧
    (7 * n < 8 * f → (Requester.writer f n).level = 2) ∧ (8 * f ≤ 7 * n → n < 2 * f → (Requester.writer f n).level = 1) ∧
    (3 * n < 4 * f → (Requester.receive f n).level = 2) ∧ (4 * f < n → (Requester.transmit f n).level = 2) ∧
    (d < t → (Requester.slice d k t).level = 2) ∧ (t ≤ d → d < t + k → (Requester.slice d k t).level = 1)) ∧
  (∀ a b : Requester, b.level < a.level → a.over_ b = true) ∧ (∀ a : Requester, a ≠ .hostDma → a.over_ .hostDma = true ∧ Requester.hostDma.over_ a = false))

/-! ### Control matrix, registers and interrupts (13_control_matrix_and_access.md, 18_faults_and_self_test.md) -/

/-- Requests at the control matrix (from R16, R338, R340, R342 to R347, R350 to R353): the host's requests are answered by the PCIe island while it
gates them; a request that finds the matrix empty is granted and carried out, refused and logged where the tables or a lock do not allow it, a decode
error where no target or block takes all of it, and waits while its master hangs, its port stops or the target does not answer; one with its ID ahead
of it at another target, a closing cycle of waits, a burst at its port or 16 outstanding hold it back; the oldest that has waited 512 cycles goes
first, then the higher priority, then round-robin; a register write stores at its register; a write of the host's that is a command of its own is
refused in the same way. Clauses on points the specification leaves open follow the model's own reading (log entries 115, 118, 119, 120, 121, 122,
123, 173, 199, 200, 204). Each of these commands is shown to complete, under conditions on the state and its operands alone: matrixRequest,
registerWrite, imaskWrite, snapshotRead, aesoEnWrite, axlCtlWrite, presetCapture, pgCfgWrite, vctlWrite, fltAckWrite, fltUnfenceWrite, ringDisable,
ringAbandon, lvpWinWrite, rateForceWrite, multiWrite, txEnWrite, qeModeWrite, refInEnWrite, refInSrcWrite, refQualWrite, refPrioWrite, refForceWrite,
todWrite, softwareResetRequest, blockResetAssert, blockResetRelease, ufmtModeWrite, lcProvision, lcField, lcRma, lcEnd, vendorDebugSession,
logTailWrite, logSetupWrite, synCtlWrite, rampGo, rampAbort. -/
def Obligations.MatrixRequests : Prop :=
  (∀ (s : State) (r : MtxReq) (w : State), (s.at_ r.t).hostGate r = some w → exec (.matrixRequest r) s = .next w) ∧
  (∀ (s : State) (r : MtxReq), (s.at_ r.t).hostGate r = none →
    (13 ≤ r.master.val → exec (.matrixRequest r) s = .next (s.at_ r.t)) ∧
    (r.master.val < 13 → s.mtx.late.any (reqIs r) = false →
      ((s.mtxOut r.master).any (reqIs r) = true → exec (.matrixRequest r) s = .next ((s.at_ r.t).setMtxOut r.master
        ((s.mtxOut r.master).map fun o => if reqIs r o then o.told r else o)).mtxRest) ∧
      ((s.mtxOut r.master).any (reqIs r) = false →
        exec (.matrixRequest r) s = .next ((s.at_ r.t).setMtxOut r.master (s.mtxOut r.master ++ [(s.at_ r.t).mtxEntry r])).mtxRest))) ∧
  (∀ (s g : State) (r : MtxReq) (e : MtxOut), (s.at_ r.t).hostGate r = none → r.master.val < 13 → s.mtx.out = [] → s.mtx.late = [] → e = (s.at_ r.t).mtxEntry r →
    (s.hung r.master = true → exec (.matrixRequest r) s = .next ((s.at_ r.t).setMtxOut r.master [e])) ∧
    (s.hung r.master = false → reqTarget r = none →
      (answersFor r.master = true → exec (.matrixRequest r) s = .next ((s.at_ r.t).decodeAnswer r)) ∧
      (answersFor r.master = false → exec (.matrixRequest r) s =
        .next ((s.at_ r.t).setMtxOut r.master [{ e with granted := true, gAt := r.t, target := noTarget, left := 0 }]))) ∧
    (∀ k, s.hung r.master = false → reqTarget r = some k → g = { s.at_ r.t with mtx := { s.mtx with granted := tabPut s.mtx.granted k r.master.val } } →
      (s.mayAccess r k = false → exec (.matrixRequest r) s = .next (g.refuseAccess r)) ∧
      (s.mayAccess r k = true → (k = 13 → r.master.val ≠ 5 ∧ r.master.val ≠ 6) → (k = 12 → r.master.val ≠ 8) →
        (s.portStops k = true → exec (.matrixRequest r) s = .next ((s.at_ r.t).setMtxOut r.master [e])) ∧
        (s.portStops k = false → (isBridge k = false ∨ reqInBlocks r = true) →
          (r.answered = false → exec (.matrixRequest r) s = .next (g.setMtxOut r.master [{ e with granted := true, gAt := r.t }])) ∧
          (r.answered = true → exec (.matrixRequest r) s = .next (((g.carry r k).mtxSettle 2).countHolds) ∧
            ((g.carry r k).mtx.out = [] → (g.carry r k).mtx.late = [] → exec (.matrixRequest r) s = .next (g.carry r k)))) ∧
        (s.portStops k = false → isBridge k = true → reqInBlocks r = false →
          (answersFor r.master = true → exec (.matrixRequest r) s = .next (g.decodeAnswer r)) ∧
          (answersFor r.master = false → exec (.matrixRequest r) s =
            .next (g.setMtxOut r.master [{ e with granted := true, gAt := r.t, target := noTarget, left := 0 }])))))) ∧
  (∀ (s : State) (k : Nat), s.portStops k = true ↔ (k ∈ s.mtx.ports ∨ (isBridge k = true ∧ s.rst.cclkFail = true))) ∧
  (∀ (s : State) (m : Nat) (before : List MtxOut) (o b : MtxOut),
    ((o.granted = true ∨ s.hung m = true) → s.inTurn m before o = false) ∧
    (b ∈ before → reqId b.req = reqId o.req → (b.target ≠ o.target ∨ b.granted = false) → s.inTurn m before o = false) ∧
    (o.cyc = false → 16 ≤ ((s.mtxOut m).filter (·.granted)).length → s.inTurn m before o = false) ∧
    (s.needsNoPort o = false → (s.portBusy o.target = true ∨ s.portStops o.target = true ∨ s.closesCycle m o.target = true) → s.portFree m o = false)) ∧
  (∀ (s : State) (a b : Nat × MtxOut), s.grantable = [a, b] → a.2.target = b.2.target → s.nextGrant = some (if s.goesBefore b a then b else a)) ∧
  (∀ (s : State) (a b : Nat × MtxOut), a.2.target = b.2.target →
    (s.aged b.2 = true → (s.aged a.2 = false ∨ b.2.since < a.2.since) → s.goesBefore b a = true) ∧
    (s.aged a.2 = false → s.aged b.2 = false → s.mtxPrio a.2.target a.1 < s.mtxPrio a.2.target b.1 → s.goesBefore b a = true ∧ s.goesBefore a b = false) ∧
    (s.aged a.2 = false → s.aged b.2 = false → s.mtxPrio a.2.target a.1 = s.mtxPrio a.2.target b.1 →
      (s.goesBefore b a = true ↔ s.mtxTurn a.2.target b.1 < s.mtxTurn a.2.target a.1))) ∧
  (∀ (s : State) (m : Nat) (o : MtxOut), s.mtx.out = [(m, [o])] → o.cyc = false → s.inTurn m [] o = true → s.needsNoPort o = false → s.closesCycle m o.target = true →
    (s.countHolds.mtxOut m = [{ o with cyc := true }] ∧ (s.countHolds.rd R.MTX_HOLD_CNT).toNat = min 0xFFFFFFFF ((s.rd R.MTX_HOLD_CNT).toNat + 1))) ∧
  (∀ (s : State) (r : MtxReq), (s.refuseAccess r).get R.MTX_HIST F.MTX_HIST_PERM_ERR = 1 ∧
    ((s.refuseAccess r).rd R.MTX_PERM_CNT).toNat = min 0xFFFFFFFF ((s.rd R.MTX_PERM_CNT).toNat + 1) ∧
    (s.refuseAccess r).mtx.data = (if r.write = true ∨ r.fetch = true then none else some 0) ∧ (s.refuseAccess r).mtx.mem = s.mtx.mem ∧
    ((∀ p, tabFind s.mtx.logged 3 = some p → p.1 / 2970 ≠ s.now / 2970 ∨ r.master.val ≤ p.2) →
      (s.refuseAccess r).rd2 R.MTX_PERM_LOG_LO R.MTX_PERM_LOG_HI = r.addr % 2 ^ 32 + 2 ^ 32 * logHi r (r.fetch && fetches r.master)) ∧
    (∀ p, tabFind s.mtx.logged 3 = some p → p.1 / 2970 = s.now / 2970 → p.2 < r.master.val →
      (s.refuseAccess r).rd2 R.MTX_PERM_LOG_LO R.MTX_PERM_LOG_HI = s.rd2 R.MTX_PERM_LOG_LO R.MTX_PERM_LOG_HI)) ∧
  (∀ (s : State) (m : Fin 16) (a v t : Nat) (f : Found), exec (.registerWrite m a v t f) s = exec (.matrixRequest (writeReq m a v t f)) s) ∧
  (∀ (g : State) (m : Fin 16) (a v t : Nat) (f : Found) (k : Nat), isBridge k = true →
    g.carry (writeReq m a v t f) k = (g.regWrite a (BitVec.ofNat 32 v) g.now f).setData none) ∧
  (∀ (s g : State) (m : Fin 16) (a v t k : Nat) (f : Found), (m.val = 6 → s.up) → s.hung m = false → m.val < 13 → s.mtx.out = [] → s.mtx.late = [] →
    reqTarget (writeReq m a v t f) = some k → isBridge k = true → inExtent a = true → s.rst.cclkFail = false → k ∉ s.mtx.ports →
    s.mayAccess (writeReq m a v t f) k = true → g = { s.at_ t with mtx := { s.mtx with granted := tabPut s.mtx.granted k m.val } } →
    exec (.registerWrite m a v t f) s = .next ((((g.regWrite a (BitVec.ofNat 32 v) t f).setData none).mtxSettle 2).countHolds)) ∧
  (∀ (s g : State) (a v k : Nat), s.up → maskHists a ≠ [] → s.hung 6 = false → s.mtx.out = [] → s.mtx.late = [] → reqTarget (writeReq 6 a v s.now ⟨false, none⟩) = some k →
    isBridge k = true → inExtent a = true → k ∉ s.mtx.ports → s.mayAccess (writeReq 6 a v s.now ⟨false, none⟩) k = true →
    g = { s with mtx := { s.mtx with granted := tabPut s.mtx.granted k 6 } } →
    exec (.imaskWrite a v) s = .next ((((g.regWrite a (BitVec.ofNat 32 v) s.now ⟨false, none⟩).setData none).mtxSettle 2).countHolds)) ∧
  (∀ (s g : State) (a k : Nat), s.up → (wideOf a).map (·.1) = some a → s.hung 6 = false → s.mtx.out = [] → s.mtx.late = [] → reqTarget (readReq a s.now) = some k →
    isBridge k = true → inExtent a = true → k ∉ s.mtx.ports → s.mayAccess (readReq a s.now) k = true →
    g = { s with mtx := { s.mtx with granted := tabPut s.mtx.granted k 6 } } →
    exec (.snapshotRead a) s = .next ((g.regRead 6 a).2.setData (some (g.regRead 6 a).1.toNat))) ∧
  (∀ (s : State) (a : Nat) (v : Word) (x : RegRow), regRow a = some x → ∀ i, i < 32 → x.rw.testBit i = true →
    ((s.storeReg a v (~~~0)).rd a).getLsbD i = (v.getLsbD i && !(x.w1c.testBit i && v.getLsbD i))) ∧
  (∀ (s : State) (a v : Nat), (maskHists a = [] → exec (.imaskWrite a v) s = .next s) ∧
    (maskHists a ≠ [] → exec (.imaskWrite a v) s = exec (.matrixRequest (writeReq 6 a v s.now ⟨false, none⟩)) s)) ∧
  (∀ (s : State) (a : Nat), ((wideOf a).map (·.1) ≠ some a → exec (.snapshotRead a) s = .next s) ∧
    ((wideOf a).map (·.1) = some a → exec (.snapshotRead a) s = exec (.matrixRequest (readReq a s.now)) s)) ∧
  (∀ s : State, s.up → s.hung 6 = false →
    (∀ (n : Fin 16) (v : Nat), s.hostMay (R.AESO_CTL n) = false → exec (.aesoEnWrite n v) s = .next (s.refuseAccess (hostReq (R.AESO_CTL n) s.now))) ∧
    (∀ (v : Nat) (ok : Bool), s.hostMay R.AXL_CTL = false → exec (.axlCtlWrite v ok) s = .next (s.refuseAccess (hostReq R.AXL_CTL s.now))) ∧
    (∀ (v : Nat) (ok : Bool), s.hostMay R.AXL_PRESET = false → exec (.presetCapture v ok) s = .next (s.refuseAccess (hostReq R.AXL_PRESET s.now))) ∧
    (∀ (p : Fin 8) (v : Nat), s.hostMay (R.XPT_PG_CFG p) = false → exec (.pgCfgWrite p v) s = .next (s.refuseAccess (hostReq (R.XPT_PG_CFG p) s.now))) ∧
    (∀ (v : Nat), s.hostMay R.HSF_VCTL = false → exec (.vctlWrite v) s = .next (s.refuseAccess (hostReq R.HSF_VCTL s.now))) ∧
    (∀ (v : Nat), s.hostMay R.FLT_ACK = false → exec (.fltAckWrite v) s = .next (s.refuseAccess (hostReq R.FLT_ACK s.now))) ∧
    (∀ (v : Nat) (t : Nat), s.hostMay R.FLT_UNFENCE = false → exec (.fltUnfenceWrite v t) s = .next (s.refuseAccess (hostReq R.FLT_UNFENCE s.now))) ∧
    (∀ (n : Fin 64), s.hostMay (R.RNG_CTL n) = false → exec (.ringDisable n) s = .next (s.refuseAccess (hostReq (R.RNG_CTL n) s.now))) ∧
    (∀ (n : Fin 64), s.hostMay (R.RNG_CTL n) = false → exec (.ringAbandon n) s = .next (s.refuseAccess (hostReq (R.RNG_CTL n) s.now))) ∧
    (∀ (v : Nat) (t : Nat), s.hostMay R.LVP_WIN = false → exec (.lvpWinWrite v t) s = .next (s.refuseAccess (hostReq R.LVP_WIN s.now))) ∧
    (∀ (n : Fin 72) (v : Nat) (t : Nat), s.hostMay (R.SDI_RX_CTL n) = false → exec (.rateForceWrite n v t) s = .next (s.refuseAccess (hostReq (R.SDI_RX_CTL n) s.now))) ∧
    (∀ (tx : Bool) (n : Fin 72) (v : Nat), s.hostMay (if tx then R.SDI_TX_CTL n else R.SDI_RX_CTL n) = false → exec (.multiWrite tx n v) s = .next (s.refuseAccess (hostReq (if tx then R.SDI_TX_CTL n else R.SDI_RX_CTL n) s.now))) ∧
    (∀ (n : Fin 72) (en pd : Bool) (t : Nat), s.hostMay (R.SDI_TX_CTL n) = false → exec (.txEnWrite n en pd t) s = .next (s.refuseAccess (hostReq (R.SDI_TX_CTL n) s.now))) ∧
    (∀ (q : Fin 4) (mode : Bool), s.hostMay (R.QE_CTL q) = false → exec (.qeModeWrite q mode) s = .next (s.refuseAccess (hostReq (R.QE_CTL q) s.now))) ∧
    (∀ (i : Fin 8) (en : Bool) (t : Nat), s.hostMay (R.REF_IN_CFG i) = false → exec (.refInEnWrite i en t) s = .next (s.refuseAccess (hostReq (R.REF_IN_CFG i) s.now))) ∧
    (∀ (i : Fin 8) (src dom : Nat) (term : Bool) (t : Nat), s.hostMay (R.REF_IN_CFG i) = false → exec (.refInSrcWrite i src dom term t) s = .next (s.refuseAccess (hostReq (R.REF_IN_CFG i) s.now))) ∧
    (∀ (ppm time : Nat) (t : Nat), s.hostMay R.REF_QUAL = false → exec (.refQualWrite ppm time t) s = .next (s.refuseAccess (hostReq R.REF_QUAL s.now))) ∧
    (∀ (i : Fin 8) (prio : Nat) (revert : Bool) (t : Nat), s.hostMay (R.REF_IN_CFG i) = false → exec (.refPrioWrite i prio revert t) s = .next (s.refuseAccess (hostReq (R.REF_IN_CFG i) s.now))) ∧
    (∀ (mode : Bool) (forceIn : Nat) (t : Nat), s.hostMay R.REF_CTL = false → exec (.refForceWrite mode forceIn t) s = .next (s.refuseAccess (hostReq R.REF_CTL s.now))) ∧
    (∀ (hi : Nat) (t : Nat), s.hostMay R.REF_TOD_SEC_HI = false → exec (.todWrite hi t) s = .next (s.refuseAccess (hostReq R.REF_TOD_SEC_HI s.now))) ∧
    (∀ (v : Nat), s.hostMay R.RST_SWREQ = false → exec (.softwareResetRequest v) s = .next (s.refuseAccess (hostReq R.RST_SWREQ s.now))) ∧
    (∀ (v : Nat), s.hostMay R.RST_BLK_CTL = false → exec (.blockResetAssert v) s = .next (s.refuseAccess (hostReq R.RST_BLK_CTL s.now))) ∧
    (∀ (v : Nat) (clk : Bool), s.hostMay R.RST_BLK_CTL = false → exec (.blockResetRelease v clk) s = .next (s.refuseAccess (hostReq R.RST_BLK_CTL s.now))) ∧
    (∀ (m : Fin 16) (v : Nat), s.hostMay (R.XPT_UFMT_MODE m) = false → exec (.ufmtModeWrite m v) s = .next (s.refuseAccess (hostReq (R.XPT_UFMT_MODE m) s.now))) ∧
    (∀ (tok : Option Token), s.hostMay R.SEC_LC_REQ = false → exec (.lcProvision tok) s = .next (s.refuseAccess (hostReq R.SEC_LC_REQ s.now))) ∧
    (s.hostMay R.SEC_LC_REQ = false → exec .lcField s = .next (s.refuseAccess (hostReq R.SEC_LC_REQ s.now))) ∧
    (∀ (tok : Option Token) (cut : Bool), s.hostMay R.SEC_LC_REQ = false → exec (.lcRma tok cut) s = .next (s.refuseAccess (hostReq R.SEC_LC_REQ s.now))) ∧
    (∀ (tok : Option Token), s.hostMay R.SEC_LC_REQ = false → exec (.lcEnd tok) s = .next (s.refuseAccess (hostReq R.SEC_LC_REQ s.now))) ∧
    (∀ (tok : Option Token), s.hostMay R.SEC_LC_REQ = false → exec (.vendorDebugSession tok) s = .next (s.refuseAccess (hostReq R.SEC_LC_REQ s.now))) ∧
    (∀ (v : Nat), s.hostMay R.SEC_LOG_TAIL = false → exec (.logTailWrite v) s = .next (s.refuseAccess (hostReq R.SEC_LOG_TAIL s.now))) ∧
    (∀ (a v : Nat), s.hostMay a = false → exec (.logSetupWrite a v) s = .next (s.refuseAccess (hostReq a s.now))) ∧
    (∀ (n : Fin 16) (v : Nat) (t : Nat), s.hostMay (R.SYN_TS_CTL n) = false → exec (.synCtlWrite n v t) s = .next (s.refuseAccess (hostReq (R.SYN_TS_CTL n) s.now))) ∧
    (∀ (n : Fin 16) (last : Nat) (t : Nat), s.hostMay (R.SYN_TS_RAMP n) = false → exec (.rampGo n last t) s = .next (s.refuseAccess (hostReq (R.SYN_TS_RAMP n) s.now))) ∧
    (∀ (n : Fin 16) (t : Nat), s.hostMay (R.SYN_TS_RAMP n) = false → exec (.rampAbort n t) s = .next (s.refuseAccess (hostReq (R.SYN_TS_RAMP n) s.now))))

/-- Hangs (from R350 to R352): a request granted and unanswered for HANG_TIME is logged, counts and sets HANG, and an error names its master; the
matrix answers it for masters 4, 8 and 9 and every other master hangs. A hung master's reset clears HUNG and discards its requests, of which those
granted complete at their targets and host reads end with Completer Abort; a reset of a management core is a warm reset. Clauses on points the
specification leaves open follow the model's own reading (log entries 119, 126, 199). That an event whose condition does not hold changes nothing is
the model's choice (log entry 146). Each of these commands is shown to complete, under conditions on the state and its operands alone: matrixHang,
hungMasterReset. -/
def Obligations.MatrixHangs : Prop :=
  (∀ (s : State) (m : Nat) (o : MtxOut), s.mtxOut m = [o] → o.granted = true →
    (s.unanswered m = some o ↔ o.gAt + max 10 (s.get R.MTX_CTL F.MTX_CTL_HANG_TIME) * ticksPerUs ≤ s.now)) ∧
  (∀ (s : State) (m : Fin 16) (t : Nat), ((s.at_ t).unanswered m = none ∨ s.hung m = true) → exec (.matrixHang m t) s = .next (s.at_ t)) ∧
  (∀ (s : State) (m : Fin 16) (t : Nat) (o : MtxOut), (s.at_ t).unanswered m = some o → s.hung m = false → ∃ w : State, w.get R.MTX_HIST F.MTX_HIST_HANG = 1 ∧
    (w.rd R.MTX_HANG_CNT).toNat = min 0xFFFFFFFF ((s.rd R.MTX_HANG_CNT).toNat + 1) ∧ w.mtx = { s.mtx with logged := w.mtx.logged } ∧
    (s.at_ t).onlyRegs { w with mtx := s.mtx } [R.MTX_HIST, R.MTX_HANG_CNT, R.MTX_HANG_LOG_LO, R.MTX_HANG_LOG_HI] ∧
    (answersFor m = true → ∃ x, x = w.reportError (0xB0000 + m) 0x08 ∧
      exec (.matrixHang m t) s = .next (((x.setMtxOut m ((x.mtxOut m).erase o)).setData (if o.req.write then none else some 0)).mtxRest)) ∧
    (answersFor m = false → ∃ u, exec (.matrixHang m t) s = .next u ∧ u = (w.reportError (0xB0000 + m) 0x08).set (R.MTX_MST_STAT m) F.MTX_MST_STAT_HUNG 1 ∧ u.hung m = true)) ∧
  (∀ (s : State) (m : Fin 16), (s.hung m = false → exec (.hungMasterReset m) s = .next s) ∧
    (s.hung m = true → (m.val < 4 → exec (.hungMasterReset m) s = .next (s.warmSource 8)) ∧
      (4 ≤ m.val → m.val ∉ [5, 7, 10, 12] → exec (.hungMasterReset m) s = .next (s.resetMaster m).mtxRest) ∧
      (m.val = 5 → exec (.hungMasterReset m) s = .next ((s.resetMaster 5).dropHost).mtxRest) ∧
      (m.val = 7 → exec (.hungMasterReset m) s = .next s.resetLvPort.mtxRest) ∧
      (m.val = 10 → ∀ u : State, u = s.resetMaster 10 → exec (.hungMasterReset m) s = .next ({ u with rst := { u.rst with imgBad := true } } : State).mtxRest) ∧
      (m.val = 12 → (s.resetMaster 12).mtxRest.testing = none → exec (.hungMasterReset m) s = .next (s.resetMaster 12).mtxRest) ∧
      (∀ c, m.val = 12 → (s.resetMaster 12).mtxRest.testing = some c → exec (.hungMasterReset m) s = .next ((s.resetMaster 12).mtxRest.testAbandon c true)))) ∧
  (∀ s : State, ((∃ o ∈ s.mtxOut 7, o.req.write = false) → s.resetLvPort.lv.miso = some 0) ∧ ((∀ o ∈ s.mtxOut 7, o.req.write = true) → s.resetLvPort.lv = s.lv)) ∧
  (∀ (s : State) (m : Nat), (s.resetMaster m).mtxOut m = [] ∧ (s.resetMaster m).hung m = false ∧
    (s.resetMaster m).mtx.late = s.mtx.late ++ (s.mtxOut m).flatMap MtxOut.leave ∧
    (s.resetMaster m).mtx.aborts = s.mtx.aborts + (if m = 6 then ((s.mtxOut m).filter fun o => !o.req.write).length else 0)) ∧
  (∀ o : MtxOut, o.granted = false → o.leave = []) ∧
  (∀ o : MtxOut, o.granted = true → o.target ≠ noTarget → (o.left = 0 ∨ reqBeats o.req ≤ o.left) → o.leave = [{ o with left := 0 }]) ∧
  (∀ o : MtxOut, o.granted = true → o.target ≠ noTarget → 0 < o.left → o.left < reqBeats o.req →
    o.leave = [{ o with left := 0, req := { o.req with bytes := 16 * (reqBeats o.req - o.left) } }])

/-- A status value wider than 32 bits is captured as one snapshot when its lowest-addressed word is read; reads of the higher words return that
snapshot until the lowest-addressed word is read again: a read of any other register leaves it (R19). -/
def Obligations.WideStatusSnapshot : Prop :=
  (∀ (s : State) (m lo n : Nat), wideOf lo = some (lo, n) → (s.regRead m lo).1 = s.regValue m lo ∧
    ∀ k < n, tabFind (s.regRead m lo).2.snap (lo + 4 * k) = some (s.regValue m (lo + 4 * k))) ∧
  (∀ (s : State) (m a lo n : Nat) (v : Word), wideOf a = some (lo, n) → a ≠ lo → tabFind s.snap a = some v →
    s.regRead m a = (v, s) ∧ ∀ m' b, b ≠ lo → tabFind (s.regRead m' b).2.snap a = some v) ∧
  (∀ p ∈ [(R.XPT_RFN_LO, 2), (R.REF_TIME_NS, 3), (R.MTX_DECERR_LOG_LO, 2), (R.MTX_HANG_LOG_LO, 2), (R.MTX_PERM_LOG_LO, 2), (R.SEC_DEVID_LO, 2), (R.SEC_CKPT_NUM_LO, 2), (R.SEC_LC_NONCE 0, 8), (R.FLT_REC 0, 4)],
    ∀ k < p.2, wideOf (p.1 + 4 * k) = some p) ∧
  (∀ n < 512, ∀ k < 2, wideOf (R.XPT_SRC_SIG_LO n + 4 * k) = some (R.XPT_SRC_SIG_LO n, 2) ∧ wideOf (R.XPT_DST_SIG_LO n + 4 * k) = some (R.XPT_DST_SIG_LO n, 2)) ∧
  (∀ r < 2048, ∀ k < 2, wideOf (R.FST_RING_LO r + 4 * k) = some (R.FST_RING_LO r, 2)) ∧
  (∀ n < 8, ∀ k < 2, wideOf (R.SEC_SEQ_LO n + 4 * k) = some (R.SEC_SEQ_LO n, 2)) ∧
  (∀ n < 16, (∀ k < 2, wideOf (R.AESO_DIV_INT n + 4 * k) = some (R.AESO_DIV_INT n, 2)) ∧ ∀ k < 6, wideOf (R.AESI_CS n k) = some (R.AESI_CS n 0, 6))

/-- History bits and vectors (from R458): hardware that sets a history bit that was 0 raises the vector when the mask bit is 1, and nothing when it is
0 or the bit was already set; a write of a mask register raises the vector of every history bit that it enables, and of no other; a raise while the
vector is masked sets its pending bit. Clauses on a point the specification leaves open follow the model's own reading (log entry 110). -/
def Obligations.HistoryBitsAndVectors : Prop :=
  (∀ (s : State) (h : Hist) (b : Nat), b < 32 → (s.flag h.reg (bit b) = true → s.raiseBit h b = s) ∧
    (s.flag h.reg (bit b) = false → ∃ t, t = s.set h.reg (bit b) 1 ∧ t.flag h.reg (bit b) = true ∧ (s.flag h.mask (bit (b - h.lo + h.mlo)) = false → s.raiseBit h b = t) ∧
      (s.flag h.mask (bit (b - h.lo + h.mlo)) = true → s.raiseBit h b = t.raiseVec h.vec))) ∧
  (∀ (s : State) (v : Nat), ((tabGet {} s.host.msix v).ctl.getLsbD 0 = true → tabGet false (s.raiseVec v).host.pba v = true ∧ (s.raiseVec v).host.sent = s.host.sent) ∧
    ((tabGet {} s.host.msix v).ctl.getLsbD 0 = false → tabGet 0 (s.raiseVec v).host.sent v = tabGet 0 s.host.sent v + 1 ∧ (s.raiseVec v).host.pba = s.host.pba)) ∧
  (∀ (s : State) (a : Nat) (v : Word), ∃ t, t = s.storeReg a v (~~~0) ∧ s.plainWrite a v = (t.enabledVecs a (t.rd a &&& ~~~(s.rd a))).foldl State.raiseVec t) ∧
  (∀ (s : State) (a : Nat) (new : Word) (v : Nat), v ∈ s.enabledVecs a new ↔
    ∃ p ∈ maskHists a, p.1.vec = v ∧ ∃ i < p.2, new.getLsbD (p.1.mlo + i) = true ∧ s.flag p.1.reg (bit (p.1.lo + i)) = true)

/-! ### Reset and bring-up (14_reset_and_bring_up.md) -/

/-- Reset sources (from R355 to R358, R361, R362, R373, R406, R361): the first rise of power good begins a cold reset with RST_CAUSE at power-on; a
brown-out and the pin begin one that stays in P0 until power is good and the pin released; a warm source not made cold makes a warm reset due with its
bit alone in RST_CAUSE, the cause of the reset before in RST_LAST_CAUSE; a source made cold by RST_CFG reaches cold; the software, debug and remote
sources fire only as their key, the debug port and the pair allow; with PERST_N released the host's port runs again, and the function is enumerated
where it answers. Clauses on points the specification leaves open follow the model's own reading (log entries 89, 91, 92, 100, 173, 202). That an
event whose condition does not hold changes nothing is the model's choice (log entry 146). Each of these commands is shown to complete, under
conditions on the state and its operands alone: powerOn, brownOut, pinReset, powerGoodReturn, resetNRelease, watchdogExpiry, mcLockup,
clockMonitorFail, cclkRelockTimeout, debugResetRequest, retentionVoltageLoss, perstNRelease, softwareResetRequest, remoteResetReceive. -/
def Obligations.ResetSources : Prop :=
  (∀ s : State, (s.rst.pwrGood = true → exec .powerOn s = .next s) ∧ (s.rst.pwrGood = false → ∃ u, exec .powerOn s = .next u ∧ u.rst.pwrGood = true ∧ u.rst.cold = true ∧
    u.phase = (if s.rst.pinLow then 0 else 1) ∧ u.get R.RST_CAUSE F.RST_CAUSE_SOURCES = 1 ∧ u.get R.RST_CAUSE F.RST_CAUSE_COLD = 1 ∧ u.lv = {} ∧ u.rst.opt = none)) ∧
  (∀ s : State, (s.rst.pwrGood = false → exec .brownOut s = .next s) ∧ (s.rst.pinLow = true → exec .pinReset s = .next s) ∧
    (s.axl.running = false → s.rst.cold = false → s.rst.warmDue = false → s.rst.warmRun = false →
      (s.rst.pwrGood = true → ∃ u, exec .brownOut s = .next u ∧ u.phase = 0 ∧ u.rst.cold = true ∧ u.rst.pwrGood = false ∧ u.get R.RST_CAUSE F.RST_CAUSE_SOURCES = 2 ∧
        u.get R.RST_CAUSE F.RST_CAUSE_COLD = 1 ∧ u.rd R.RST_LAST_CAUSE = s.rd R.RST_CAUSE ∧ u.host.mem = s.host.mem ∧ u.axl.copies = s.axl.copies ∧ u.lifecycle = s.lifecycle) ∧
      (s.rst.pinLow = false → ∃ u, exec .pinReset s = .next u ∧ u.phase = 0 ∧ u.rst.cold = true ∧ u.rst.pinLow = true ∧ u.get R.RST_CAUSE F.RST_CAUSE_SOURCES = 4 ∧
        u.host.rings = [] ∧ u.xpt = {} ∧ u.rd R.RST_LAST_CAUSE = s.rd R.RST_CAUSE))) ∧
  (∀ s : State, s.rst.cold = true → s.phase = 0 →
    (s.rst.on = true → s.rst.pwrGood = false → ∃ u, exec .powerGoodReturn s = .next u ∧ u.rst.pwrGood = true ∧ u.phase = (if s.rst.pinLow then 0 else 1)) ∧
    (∃ u, exec .resetNRelease s = .next u ∧ u.rst.pinLow = false ∧ u.phase = (if s.rst.pwrGood then 1 else 0))) ∧
  (∀ s : State, (s.rst.cold = false ∨ s.phase ≠ 0) → exec .resetNRelease s = .next { s with rst := { s.rst with pinLow := false } }) ∧
  (∀ s : State, (s.rst.cold = false ∨ s.phase ≠ 0) → s.rst.on = true → s.rst.pwrGood = false → exec .powerGoodReturn s = .next { s with rst := { s.rst with pwrGood := true } }) ∧
  (∀ s : State, (s.rst.on = false ∨ s.rst.pwrGood = true) → exec .powerGoodReturn s = .next s) ∧
  (∀ (s : State) (b : Nat), 4 ≤ b → b ≤ 9 → s.rst.cold = false → s.rst.warmRun = false → s.rst.warmDue = false →
    (s.get R.RST_CFG F.RST_CFG_COLD / 2 ^ (b - 4) % 2 = 1 → s.warmSource b = s.coldSource (2 ^ b)) ∧
    (s.get R.RST_CFG F.RST_CFG_COLD / 2 ^ (b - 4) % 2 = 0 → s.get R.RST_STAT F.RST_STAT_WARM_STREAK = 3 → s.warmSource b = s.coldSource (2 ^ b + 2 ^ 10)) ∧
    (s.get R.RST_CFG F.RST_CFG_COLD / 2 ^ (b - 4) % 2 = 0 → s.get R.RST_STAT F.RST_STAT_WARM_STREAK ≠ 3 → ∀ w, w = s.warmSource b →
      w.rst.warmDue = true ∧ w.get R.RST_CAUSE F.RST_CAUSE_SOURCES = 2 ^ b ∧ w.get R.RST_CAUSE F.RST_CAUSE_COLD = 0 ∧ w.rd R.RST_LAST_CAUSE = s.rd R.RST_CAUSE ∧
      w.host = s.host ∧ w.xpt = s.xpt ∧ w.media = s.media)) ∧
  (∀ s : State, exec .watchdogExpiry s = .next (s.warmSource 4) ∧ exec .mcLockup s = .next (s.warmSource 8) ∧
    exec (.clockMonitorFail .xo) s = .next (s.coldSource 8) ∧ exec (.clockMonitorFail .dram) s = .next (s.coldSource 8) ∧
    (∀ w, w = s.warmSource 7 → ((w.rst.warmDue = true ∨ w.rst.warmRun = true) → exec (.clockMonitorFail .control) s = .next { w with rst := { w.rst with cclkFail := true } }) ∧
      (w.rst.warmDue = false → w.rst.warmRun = false → exec (.clockMonitorFail .control) s = .next w)) ∧
    (s.rst.cclkFail = true → exec .cclkRelockTimeout s = .next (s.coldSource 8)) ∧ (s.rst.cclkFail = false → exec .cclkRelockTimeout s = .next s) ∧
    (s.get R.SEC_STAT F.SEC_STAT_DEBUG = 0 → exec .debugResetRequest s = .next s) ∧
    (s.get R.SEC_STAT F.SEC_STAT_DEBUG ≠ 0 → exec .debugResetRequest s = .next (s.warmSource 6)) ∧
    exec .retentionVoltageLoss s = .next { s with rst := { s.rst with retMon := true } } ∧
    (s.host.perst = false → exec .perstNRelease s = .next s)) ∧
  (∀ s a b c : State, s.host.perst = true → a = { s with host := { s.host with perst := false, linkUp := s.host.linkUp || decide (3 ≤ s.phase) } } →
    b = (if a.get (R.HSF_XSTAT 176) F.HSF_XSTAT_STATE = 1 then a.set (R.HSF_XSTAT 176) F.HSF_XSTAT_STATE 3 else a) → c = (if b.pciAnswers then b.enumerate else b) →
    exec .perstNRelease s = .next (c.portReset 13 false).mtxRest) ∧
  (∀ s : State, (s.host.perst = false → s.enumerate.host.pci.mse = true ∧ s.enumerate.regs = s.regs) ∧
    (s.host.perst = true → s.enumerate.host = s.host ∧ s.enumerate.get (R.HSF_XSTAT 176) F.HSF_XSTAT_STATE = 1 ∧ s.onlyRegs s.enumerate [R.HSF_XSTAT 176])) ∧
  (∀ (s : State) (v : Nat), s.upFor R.RST_SWREQ → (v % 2 = 0 → exec (.softwareResetRequest v) s = .next s) ∧
    (v % 2 = 1 → v / 2 ^ 24 % 256 = 0xD7 → exec (.softwareResetRequest v) s = .next (s.warmSource 5)) ∧
    (v % 2 = 1 → v / 2 ^ 24 % 256 ≠ 0xD7 → ∃ u, exec (.softwareResetRequest v) s = .next u ∧ u.get R.RST_HIST F.RST_HIST_SWREQ_ERR = 1 ∧ s.onlyRegs u [R.RST_HIST])) ∧
  (∀ s : State, (s.role ≠ 0 → s.flag R.MATE_STAT F.MATE_STAT_LINK_UP = true → s.flag R.MATE_CTL F.MATE_CTL_RESET_ACCEPT = true →
      ∃ w, exec .remoteResetReceive s = .next (w.warmSource 9) ∧ w.get R.MATE_HIST F.MATE_HIST_REMOTE_RESET = 1 ∧ s.onlyRegs w [R.MATE_HIST]) ∧
    ((s.role = 0 ∨ s.flag R.MATE_STAT F.MATE_STAT_LINK_UP = false ∨ s.flag R.MATE_CTL F.MATE_CTL_RESET_ACCEPT = false) → exec .remoteResetReceive s = .next s))

/-- Bring-up, the warm reset and block-level reset (from R288, R359, R361, R364, R366 to R372, R385): P1 to P5 of a cold reset follow each other, each
phase once the one before has ended; a failed option load restarts P1; P3 boots the preferred image that passes and stays with BOOT_FAIL when none
does; a warm reset returns to P3 with rings disabled and READY clear, and ends with READY and WARM_DONE; the grade fuse, once loaded, stays; an assert
of a block that is not idle, does not exist or belongs to the LV agent is not taken, one of an idle block holds it, and a release waits for the
block's clock; RESET_N is driven low from the trigger of a cold reset until P2 ends and for 1 ms, the boot balls are at high impedance until P3, and a
configurable ball is at its fuse state until firmware configures it. Clauses on points the specification leaves open follow the model's own reading
(log entries 93, 97, 102, 103, 107, 202, 203). That an event whose condition does not hold changes nothing is the model's choice (log entry 146). Each
of these commands is shown to complete, under conditions on the state and its operands alone: optionLoad, recallRecords, bootImageVerify,
controlPlaneUp, dataPlaneStart, warmReset, warmReady, blockResetAssert, blockResetRelease, blockClockQualified. -/
def Obligations.BringUpAndWarmReset : Prop :=
  (∀ (s : State) (r : Option OptSet), ((s.rst.cold = false ∨ s.phase ≠ 1) → exec (.optionLoad r) s = .next s) ∧ (s.rst.cold = true → s.phase = 1 →
    (r = none → ∃ u, exec (.optionLoad r) s = .next u ∧ u.phase = 1 ∧ u.get R.RST_HIST F.RST_HIST_OPTLOAD_RESTART = 1 ∧
      (u.rd R.RST_OPTLOAD_RESTARTS).toNat = min 0xFFFFFFFF ((s.rd R.RST_OPTLOAD_RESTARTS).toNat + 1)) ∧
    (∀ o, r = some o → ∃ u, exec (.optionLoad r) s = .next u ∧ u.phase = 2 ∧ u.persona = personaOf o ∧ u.lv.rxBase = min 40 (o.winFuse % 128) ∧
      u.lv.txBase = min 40 (o.winFuse / 256 % 128) ∧ u.lv.aesQ = o.winFuse / 65536 % 4 ∧ u.rst.opt = some o ∧
      u.get R.GLB_GRADE F.GLB_GRADE_GRADE = (if s.get R.GLB_GRADE F.GLB_GRADE_GRADE = 0x43 ∨ s.get R.GLB_GRADE F.GLB_GRADE_GRADE = 0x45 then s.get R.GLB_GRADE F.GLB_GRADE_GRADE
        else if o.gradeE then 0x45 else 0x43) ∧ u.flag R.REF_CTL F.REF_CTL_XO_20M = o.xo20 ∧ u.rd R.REF_HOLD_UNC = (if o.xo20 then 0x138803E8 else 0x00640014)))) ∧
  (∀ (s : State) (bad : List (Nat × Bool)), ((s.rst.cold = false ∨ s.phase ≠ 2) → exec (.recallRecords bad) s = .next s) ∧
    (s.rst.cold = true → s.phase = 2 → ∃ u, exec (.recallRecords bad) s = .next u ∧ u.phase = 3 ∧ u.host.linkUp = !s.host.perst ∧ u.get R.AXL_STAT F.AXL_STAT_SRAM_VALID = 1)) ∧
  (∀ (s : State) (a b : Img) (img : Nat → Img), img = (fun n => if n = 0 then a else b) →
    ((s.phase ≠ 3 ∨ s.flag R.RST_STAT F.RST_STAT_BOOT_FAIL = true ∨ (s.rst.cold = false ∧ s.rst.warmRun = false)) → exec (.bootImageVerify a b) s = .next s) ∧
    ((s.rst.cold = true ∨ s.rst.warmRun = true) → s.phase = 3 → s.flag R.RST_STAT F.RST_STAT_BOOT_FAIL = false → s.rst.trialRun = false → s.causes / 2 ^ 10 % 2 = 0 →
      ∀ p, p = s.get R.RST_BOOT_REC F.RST_BOOT_REC_PREF →
      (s.imgOk (img p) = true → s.rst.imgBad = false → ∃ u, exec (.bootImageVerify a b) s = .next u ∧ u.phase = 4 ∧ u.get R.RST_STAT F.RST_STAT_IMAGE = p + 1 ∧
        u.get R.RST_STAT F.RST_STAT_FALLBACK = 0 ∧ u.get R.RST_BOOT_REC F.RST_BOOT_REC_LAST = p) ∧
      (s.imgOk (img p) = false → s.imgOk (img (1 - p)) = true → ∃ u, exec (.bootImageVerify a b) s = .next u ∧ u.phase = 4 ∧ u.get R.RST_STAT F.RST_STAT_IMAGE = 2 - p ∧
        u.get R.RST_STAT F.RST_STAT_FALLBACK = 1 ∧ u.get R.RST_HIST F.RST_HIST_BOOT_FALLBACK = 1) ∧
      (s.imgOk (img p) = false → s.imgOk (img (1 - p)) = false → ∃ u, exec (.bootImageVerify a b) s = .next u ∧ u.phase = 3 ∧ u.get R.RST_STAT F.RST_STAT_BOOT_FAIL = 1 ∧
        (s.rst.cold = true → s.host.perst = false → u.host.pci.mse = true)))) ∧
  (∀ (s : State) (t : Nat), (s.phase ≠ 4 → exec (.controlPlaneUp t) s = .next s) ∧ (s.phase = 4 →
    (s.rst.cold = true → ∃ u, exec (.controlPlaneUp t) s = .next u ∧ u = ((s.at_ t).coldUp t).setPhase 5 ∧ u.phase = 5 ∧ u.rst.cold = false ∧ u.rst.pads = true ∧
      (s.host.perst = false → u.host.pci.mse = true)) ∧
    (s.rst.cold = false → s.rst.warmRun = true → exec (.controlPlaneUp t) s = .next ((s.at_ t).setPhase 5).warmUp))) ∧
  (∀ (s : State) (m : Slack) (t : Nat), ((s.rst.plane = false ∨ s.phase ≠ 5 ∨ s.rst.warmDue = true) → exec (.dataPlaneStart m t) s = .next s) ∧ (s.rst.plane = true → s.phase = 5 → s.rst.warmDue = false →
    (((s.at_ t).startPlane m).restoreRoutes = none → ∃ u, exec (.dataPlaneStart m t) s = .next u ∧ u.vState = 3 ∧ u.hsf.raising = some (65, 0)) ∧
    (∀ w, ((s.at_ t).startPlane m).restoreRoutes = some w → ∃ u, exec (.dataPlaneStart m t) s = .next u ∧ u = w.planeUp ∧ u.rst.plane = false ∧
      (w.rst.warmRun = false → u.isReady = true ∧ u.lv.ready = true)))) ∧
  (∀ s : State, (s.rst.warmDue = false → exec .warmReset s = .next s) ∧ (s.rst.warmDue = true → ∃ u, exec .warmReset s = .next u ∧ u.phase = 3 ∧ u.rst.warmRun = true ∧
    u.rst.warmDue = false ∧ u.isReady = false ∧ u.lv.answers = false ∧ u.lv.ready = false ∧ u.lv.irqHold.isSome = true ∧ ∀ n < 64, u.ringSt n = 0)) ∧
  (∀ (s : State) (t : Nat), ((s.rst.warmRun = false ∨ s.rst.warmDue = true ∨ s.rst.plane = true ∨ s.phase ≠ 5) → exec (.warmReady t) s = .next s) ∧
    (s.rst.warmRun = true → s.rst.warmDue = false → s.rst.plane = false → s.phase = 5 → ∃ u, exec (.warmReady t) s = .next u ∧ u.rst.warmRun = false ∧ u.isReady = true ∧ u.lv.irqHold = none ∧
      u.get R.RST_HIST F.RST_HIST_WARM_DONE = 1)) ∧
  (∀ (s : State) (v c i : Nat), s.upFor R.RST_BLK_CTL → c = v / 2 ^ 24 % 16 → i = v % 256 → (v / 2 ^ 30 ≠ 1 → exec (.blockResetAssert v) s = .next s) ∧ (v / 2 ^ 30 = 1 →
    (blockCount c ≤ i → ∃ u, exec (.blockResetAssert v) s = .next u ∧ s.onlyRegs u [R.RST_BLK_RES, R.RST_HIST] ∧ u.get R.RST_BLK_RES F.RST_BLK_RES_RESULT = 3 ∧
      u.get R.RST_HIST F.RST_HIST_BLK_ERR = 1) ∧
    (i < blockCount c → s.blockLv c i = true → ∃ u, exec (.blockResetAssert v) s = .next u ∧ s.onlyRegs u [R.RST_BLK_RES, R.RST_HIST] ∧ u.get R.RST_BLK_RES F.RST_BLK_RES_RESULT = 2) ∧
    (i < blockCount c → s.blockLv c i = false → s.flag (R.RST_BLK_STAT c i) F.RST_BLK_STAT_RELEASE_PENDING_CLOCK = false →
      (s.blockIdle c i = false → ∃ u, exec (.blockResetAssert v) s = .next u ∧ s.onlyRegs u [R.RST_BLK_RES, R.RST_HIST] ∧ u.get R.RST_BLK_RES F.RST_BLK_RES_RESULT = 1) ∧
      (s.blockIdle c i = true → exec (.blockResetAssert v) s = .next ((s.holdBlock c i).sdiInputs.blkRes c i 0))) ∧
    (i < blockCount c → s.blockLv c i = false → s.flag (R.RST_BLK_STAT c i) F.RST_BLK_STAT_RELEASE_PENDING_CLOCK = true →
      exec (.blockResetAssert v) s = .next ((s.set (R.RST_BLK_STAT c i) F.RST_BLK_STAT_RELEASE_PENDING_CLOCK 0).blkRes c i 0)))) ∧
  (∀ (s : State) (v c i : Nat) (clk : Bool), s.upFor R.RST_BLK_CTL → c = v / 2 ^ 24 % 16 → i = v % 256 → (v / 2 ^ 30 ≠ 2 → exec (.blockResetRelease v clk) s = .next s) ∧
    (v / 2 ^ 30 = 2 → blockCount c ≤ i → exec (.blockResetRelease v clk) s = .next (s.blkRes c i 3)) ∧
    (v / 2 ^ 30 = 2 → i < blockCount c → s.blockFenced c i = true → exec (.blockResetRelease v clk) s = .next (s.blkRes c i 1)) ∧
    (v / 2 ^ 30 = 2 → i < blockCount c → s.blockFenced c i = false → s.inReset c i = false → exec (.blockResetRelease v clk) s = .next (s.blkRes c i 0)) ∧
    (v / 2 ^ 30 = 2 → i < blockCount c → s.blockFenced c i = false → s.inReset c i = true → s.flag (R.RST_BLK_STAT c i) F.RST_BLK_STAT_RELEASE_PENDING_CLOCK = true →
      exec (.blockResetRelease v clk) s = .next (s.blkRes c i 4)) ∧
    (v / 2 ^ 30 = 2 → i < blockCount c → s.blockFenced c i = false → s.inReset c i = true → s.flag (R.RST_BLK_STAT c i) F.RST_BLK_STAT_RELEASE_PENDING_CLOCK = false →
      (s.clockOk c i clk = true → exec (.blockResetRelease v clk) s = .next (((s.set (R.RST_BLK_STAT c i) F.RST_BLK_STAT_CLK_OK 1).releaseBlock c i).blkRes c i 0)) ∧
      (s.clockOk c i clk = false → ∃ u, exec (.blockResetRelease v clk) s = .next u ∧ u.flag (R.RST_BLK_STAT c i) F.RST_BLK_STAT_RELEASE_PENDING_CLOCK = true ∧
        u.inReset c i = true ∧ u.get R.RST_BLK_RES F.RST_BLK_RES_RESULT = 4 ∧ s.onlyRegs u [R.RST_BLK_RES, R.RST_BLK_STAT c i]))) ∧
  (∀ (s : State) (c i : Nat), ((blockCount c ≤ i ∨ s.flag (R.RST_BLK_STAT c i) F.RST_BLK_STAT_RELEASE_PENDING_CLOCK = false) → exec (.blockClockQualified c i) s = .next s) ∧
    (i < blockCount c → s.flag (R.RST_BLK_STAT c i) F.RST_BLK_STAT_RELEASE_PENDING_CLOCK = true → ∃ w, w = s.set (R.RST_BLK_STAT c i) F.RST_BLK_STAT_CLK_OK 1 ∧
      exec (.blockClockQualified c i) s = .next (if s.phase = 5 then w.releaseBlock c i else w))) ∧
  (∀ s : State, (s.rst.on = true → s.rst.cold = true → s.phase < 3 → s.resetNLow = true) ∧ (s.rst.on = true → (∃ t, s.rst.trig = some t ∧ s.now < t + 1000 * ticksPerUs) → s.resetNLow = true) ∧
    (s.rst.cold = false → (∀ t, s.rst.trig = some t → t + 1000 * ticksPerUs ≤ s.now) → s.resetNLow = false) ∧ (s.bootHighZ = true ↔ s.rst.pinLow = true ∨ (s.rst.cold = true ∧ s.phase < 3))) ∧
  (∀ (s : State) (k : Nat), (s.rst.pads = false → s.ball k = s.fuseBall k) ∧ (s.rst.opt = none → s.fuseBall k = .highZ) ∧
    (∀ o, s.rst.opt = some o → (o.pinFuse / 4 ^ k % 4 = 0 → s.fuseBall k = .highZ) ∧ (o.pinFuse / 4 ^ k % 4 = 1 → s.fuseBall k = .pullUp) ∧
      (o.pinFuse / 4 ^ k % 4 = 2 → s.fuseBall k = .pullDown) ∧ (o.pinFuse / 4 ^ k % 4 = 3 → s.fuseBall k = .low)))

/-! ### Axolotl store (15_axolotl_store.md) -/

/-- The Axolotl store (from R379, R380, R382, R387 to R389, R392): a store of a record goes to the half that does not hold its newest valid copy, with
the next sequence number, and leaves the other half; one that fails twice sets STORE_ERR, keeps the record dirty and reports an error. A power-failure
trip enters POWERFAIL and, armed, starts the autostore, whose end sets AUTOSTORE and closes the session; a collapse of the hold-up supply ends it with
the session open. Arming follows ARM and VHOLD_OK; a write of AXL_CTL takes effect once its store is confirmed, and disarming is refused under
signing-required mode; a preset captured holds the present routes; a margin read counts the weak copies and stores their records again. Clauses on
points the specification leaves open follow the model's own reading (log entries 20, 104, 177). That an event whose condition does not hold changes
nothing is the model's choice (log entry 146). Each of these commands is shown to complete, under conditions on the state and its operands alone:
recordStore, powerFailTrip, autostoreEnd, vholdCollapse, pfailClear, vholdOkSet, vholdOkClear, axlCtlWrite, presetCapture, marginRead. -/
def Obligations.AxolotlStore : Prop :=
  (∀ (s : State) (k : Nat) (a b : Bool), ((80 < k ∨ s.flag R.AXL_STAT F.AXL_STAT_SRAM_VALID = false ∨ s.lifecycle = 4) → exec (.recordStore k a b) s = .next s) ∧
    (k ≤ 80 → s.flag R.AXL_STAT F.AXL_STAT_SRAM_VALID = true → s.lifecycle ≠ 4 → ∀ h q, (h, q) = (match s.newestCopy k with | some (h, q) => (1 - h, (q + 1) % 2 ^ 32) | none => (0, 1)) →
      ((a = true ∨ b = true) → ∃ u, exec (.recordStore k a b) s = .next u ∧ u.copyAt k h (wearPos k q) = some ⟨q, true, s.recBody k⟩ ∧ u.isDirty k = false ∧
        (∀ j i p, (2 * j + i) * 16 + p ≠ (2 * k + h) * 16 + wearPos k q → u.copyAt j i p = s.copyAt j i p) ∧ (u.rd R.AXL_STORE_CNT).toNat = min 0xFFFFFFFF ((s.rd R.AXL_STORE_CNT).toNat + 1)) ∧
      (a = false → b = false → ∃ w : State, exec (.recordStore k a b) s = .next (w.reportError (0xC0000 + k) 0x0B) ∧ w.copyAt k h (wearPos k q) = some ⟨q, false, s.recBody k⟩ ∧
        w.get R.AXL_HIST F.AXL_HIST_STORE_ERR = 1 ∧ w.isDirty k = true ∧ ∀ j i p, (2 * j + i) * 16 + p ≠ (2 * k + h) * 16 + wearPos k q → w.copyAt j i p = s.copyAt j i p))) ∧
  (∀ (s : State) (t : Nat), (s.flag R.AXL_STAT F.AXL_STAT_PFAIL = true → exec (.powerFailTrip t) s = .next s) ∧ (s.flag R.AXL_STAT F.AXL_STAT_PFAIL = false →
    ∃ u, exec (.powerFailTrip t) s = .next u ∧ u.flag R.AXL_STAT F.AXL_STAT_PFAIL = true ∧ u.vState = 5 ∧
      (s.armed = true → s.flag R.AXL_STAT F.AXL_STAT_SRAM_VALID = true → u.axl.running = true ∧ u.get R.AXL_STAT F.AXL_STAT_STATE = 2 ∧ u.sec.sramHead = s.sec.head) ∧
      ((s.armed = false ∨ s.flag R.AXL_STAT F.AXL_STAT_SRAM_VALID = false) → u.axl = s.axl))) ∧
  (∀ (s : State) (fail : List Nat) (us k : Nat), (s.axl.running = false → exec (.autostoreEnd fail us) s = .next s ∧ exec (.vholdCollapse k) s = .next s) ∧
    (s.axl.running = true → (∃ w : State, exec (.autostoreEnd fail us) s = .next w.autoOver ∧ w.get R.AXL_HIST F.AXL_HIST_AUTOSTORE = 1) ∧
      (s.axl.deferred = none → ∃ u, exec (.autostoreEnd [] us) s = .next u ∧ u.axl.running = false ∧ u.axl.session = false ∧ u.axl.autoUs = min 65535 us ∧
        u.get R.AXL_HIST F.AXL_HIST_AUTOSTORE = 1 ∧ u.get R.AXL_STAT F.AXL_STAT_STATE = 0) ∧
      (s.axl.deferred = none → ∃ u, exec (.vholdCollapse k) s = .next u ∧ u.axl.running = false ∧ u.axl.session = s.axl.session ∧ u.get R.AXL_STAT F.AXL_STAT_STATE = 0))) ∧
  (∀ (w : State) (m : Nat), w.axl.deferred = some m → ∃ x : State, w.autoOver = x.coldSource m ∧ x.axl.running = false ∧ x.axl.deferred = none) ∧
  (∀ s : State, (s.flag R.AXL_STAT F.AXL_STAT_PFAIL = false → exec .pfailClear s = .next s) ∧ (s.flag R.AXL_STAT F.AXL_STAT_PFAIL = true → ∃ u, exec .pfailClear s = .next u ∧
    u.flag R.AXL_STAT F.AXL_STAT_PFAIL = false ∧ u.vdd = s.vdd ∧ u.vState = (if s.vState = 5 then (if s.lifecycle = 4 then 6 else if s.adaptive && s.hsf.raising.isSome then 3 else 0) else s.vState) ∧
    s.onlyRegs u [R.AXL_STAT, R.HSF_VSTAT])) ∧
  (∀ s : State, (∃ u, exec .vholdOkSet s = .next u ∧ u.flag R.AXL_STAT F.AXL_STAT_VHOLD_OK = true ∧ s.onlyRegs u [R.AXL_STAT, R.GLB_MODE_HIST] ∧
      (s.armed = false → s.flag R.AXL_CTL F.AXL_CTL_ARM = true → s.lifecycle ≠ 4 → u.armed = true ∧ u.get R.GLB_MODE_HIST F.GLB_MODE_HIST_AUTOSTORE_CHG = 1)) ∧
    (s.flag R.AXL_STAT F.AXL_STAT_VHOLD_OK = false → exec .vholdOkClear s = .next s) ∧
    (s.flag R.AXL_STAT F.AXL_STAT_VHOLD_OK = true → ∃ u, exec .vholdOkClear s = .next u ∧ u.flag R.AXL_STAT F.AXL_STAT_VHOLD_OK = false ∧ u.armed = false ∧
      (s.flag R.AXL_CTL F.AXL_CTL_ARM = true → s.lifecycle ≠ 4 → u.get R.AXL_HIST F.AXL_HIST_DISARMED = 1 ∧ u.get R.GLB_MODE_HIST F.GLB_MODE_HIST_AUTOSTORE_CHG = 1))) ∧
  (∀ (s : State) (v : Nat), s.upFor R.AXL_CTL → (∃ u, exec (.axlCtlWrite v true) s = .next u ∧ u.get R.AXL_CTL F.AXL_CTL_RESTORE = v / 32 % 8 ∧ u.get R.AXL_CTL F.AXL_CTL_MARGIN_EN = v / 8 % 2 ∧
      ((v % 2 = 1 ∨ s.flag R.AXL_CTL F.AXL_CTL_ARM = false ∨ s.signReq = false) → u.get R.AXL_CTL F.AXL_CTL_ARM = v % 2) ∧
      (v % 2 = 0 → s.flag R.AXL_CTL F.AXL_CTL_ARM = true → s.signReq = true → u.get R.AXL_CTL F.AXL_CTL_ARM = 1)) ∧
    (∃ u, exec (.axlCtlWrite v false) s = .next u ∧ u.get R.AXL_CTL F.AXL_CTL_RESTORE = s.get R.AXL_CTL F.AXL_CTL_RESTORE ∧ u.get R.AXL_CTL F.AXL_CTL_ARM = s.get R.AXL_CTL F.AXL_CTL_ARM)) ∧
  (∀ (s : State) (v : Nat) (ok : Bool), s.upFor R.AXL_PRESET → (v / 2 ^ 31 % 2 = 0 → exec (.presetCapture v ok) s = .next s) ∧
    (v / 2 ^ 31 % 2 = 1 → ok = true → ∃ u, exec (.presetCapture v ok) s = .next u ∧ tabGet [] u.axl.presets (v % 4) = s.saveRoutes ∧ u.get R.AXL_HIST F.AXL_HIST_CAPTURED = 1 ∧
      ∀ p, p ≠ v % 4 → tabGet [] u.axl.presets p = tabGet [] s.axl.presets p) ∧
    (v / 2 ^ 31 % 2 = 1 → ok = false → ∃ u, exec (.presetCapture v ok) s = .next u ∧ u.axl.presets = s.axl.presets)) ∧
  (∀ (s : State) (weak l : List (Nat × Bool)), ((s.flag R.AXL_CTL F.AXL_CTL_MARGIN_EN = false ∨ s.isReady = false ∨ s.axl.running = true ∨ s.lifecycle = 4) → exec (.marginRead weak) s = .next s) ∧
    (s.flag R.AXL_CTL F.AXL_CTL_MARGIN_EN = true → s.isReady = true → s.axl.running = false → s.lifecycle ≠ 4 →
      l = weak.eraseDups.filter (fun w => (s.copy? w.1 (if w.2 then 1 else 0)).isSome) → ∃ u, exec (.marginRead weak) s = .next u ∧
      (u.rd R.AXL_WEAK_CNT).toNat = min 0xFFFFFFFF ((s.rd R.AXL_WEAK_CNT).toNat + l.length) ∧
      (∀ k ≤ 80, (u.flag (R.AXL_REC_STAT k) F.AXL_REC_STAT_WEAK = true ↔ ∃ w ∈ l, w.1 = k)) ∧ ((∃ w ∈ l, w.1 ≤ 80) → u.get R.AXL_HIST F.AXL_HIST_WEAK_FIXED = 1)))

/-! ### Twin operation and the system domain (16_twin_and_system_domain.md) -/

/-- Pairs (from R397 to R400, R405, R406): a pairing that the operation byte, the lifecycle or personality of either device, the link or the partner's
items refuse does not form: FAIL_WHY and PAIR_FAIL set, but for a bad operation byte; one that succeeds makes this device PRIMARY and the answering
one STANDBY with a new epoch; a detach makes it SOLO with a new epoch; a hand-over is in flight until its swap, which exchanges the roles with a new
epoch; an opcode of the pair is DENIED with reason 5 where the role does not allow it. Clauses on points the specification leaves open follow the
model's own reading (log entries 63, 64, 65, 68, 69, 70, 175). That an event whose condition does not hold changes nothing is the model's choice (log
entry 146). Each of these commands is shown to complete, under conditions on the state and its operands alone: matePair, mateDetach, mateHandover,
mateResetPartner, pairingTimeout, pairRequestReceive, detachReceive, handoverSwap. -/
def Obligations.TwinPairs : Prop :=
  (∀ (s v : State) (h : Hdr), s.admits (mateRule (.not [1, 2, 3])) h v →
    (bytesAt (s.headRaw h.ring) 16 1 ≠ 0 → ∀ p, ∃ u, exec (.matePair h p) s = .next u ∧ v.posts u h 4 (badRes 16) ∧ v.hostOnly u) ∧
    (bytesAt (s.headRaw h.ring) 16 1 = 0 →
      (v.role ≠ 0 → ∀ p, ∃ u, exec (.matePair h p) s = .next u ∧ v.posts u h 5 5 ∧ v.hostOnly u) ∧
      (∀ p, v.role = 0 → (noPairing v.persona v.lifecycle = true ∨ ∃ x, p = some x ∧ noPairing x.persona x.lifecycle = true) → ∃ u, exec (.matePair h p) s = .next u ∧ v.posts u h 5 7 ∧
        u.get R.MATE_STAT F.MATE_STAT_FAIL_WHY = 6 ∧ u.get R.MATE_HIST F.MATE_HIST_PAIR_FAIL = 1 ∧ u.get R.GLB_MODE_REFUSE F.GLB_MODE_REFUSE_CODE = 4) ∧
      (v.role = 0 → noPairing v.persona v.lifecycle = false →
        (v.flag R.MATE_STAT F.MATE_STAT_LINK_UP = false → ∀ p, (∀ x, p = some x → noPairing x.persona x.lifecycle = false) → ∃ u, exec (.matePair h p) s = .next u ∧ v.posts u h 5 6 ∧
          u.get R.MATE_STAT F.MATE_STAT_FAIL_WHY = 1 ∧ u.get R.MATE_HIST F.MATE_HIST_PAIR_FAIL = 1) ∧
        (v.flag R.MATE_STAT F.MATE_STAT_LINK_UP = true → (∃ u, exec (.matePair h none) s = .next u ∧ v.flies u h .pair ∧ v.hostOnly u) ∧
          ∀ p why, why = v.pairWhy p (p.solo && p.pairEn) →
            (why ≠ 0 → ∃ u, exec (.matePair h (some p)) s = .next u ∧ v.posts u h 5 (if why = 6 then 7 else 6) ∧ u.get R.MATE_STAT F.MATE_STAT_FAIL_WHY = why ∧ u.role = 0) ∧
            (why = 0 → ∃ u, exec (.matePair h (some p)) s = .next u ∧ v.posts u h 0 0 ∧ u.role = 1 ∧ u.epoch = nextEpoch (max v.epoch p.epoch) ∧ u.sync = 1 ∧
              u.get R.MATE_HIST F.MATE_HIST_PAIR_OK = 1))))) ∧
  (∀ (s v : State) (h : Hdr), s.admits (mateRule (.is 1)) h v →
    (v.role = 0 → ∃ u, exec (.mateDetach h) s = .next u ∧ v.posts u h 5 5 ∧ v.hostOnly u) ∧
    (v.role ≠ 0 → ∃ u, exec (.mateDetach h) s = .next u ∧ u.role = 0 ∧ u.epoch = nextEpoch v.epoch ∧ u.get R.MATE_HIST F.MATE_HIST_DETACHED = 1 ∧
      (∃ c ∈ u.host.cpls, c.ring = h.ring.val ∧ c.tag = h.tag ∧ c.status = 0 ∧ c.result = 0) ∧ ((∀ c ∈ v.host.cpls, c.ring ≠ noRing) → v.posts u h 0 0))) ∧
  (∀ (s v : State) (h : Hdr), s.admits (mateRule (.is 2)) h v →
    (∀ ready bad, (v.role ≠ 1 ∨ v.apart = true ∨ (bad = false ∧ ready = false)) → ∃ u, exec (.mateHandover h ready bad) s = .next u ∧ v.posts u h 5 5 ∧ v.hostOnly u) ∧
    (v.role = 1 → v.apart = false → ∀ ready, (∃ u, exec (.mateHandover h ready true) s = .next u ∧ v.posts u h 5 5 ∧ u.get R.GLB_MODE_REFUSE F.GLB_MODE_REFUSE_CODE = 6) ∧
      ∃ u, exec (.mateHandover h true false) s = .next u ∧ v.flies u h (.handover (v.now + 1000 * ticksPerUs)) ∧ v.hostOnly u)) ∧
  (∀ (s v : State) (h : Hdr), s.admits (mateRule (.is 3)) h v →
    (∀ taken, (v.role = 0 ∨ v.flag R.MATE_STAT F.MATE_STAT_LINK_UP = false ∨ taken = false) → ∃ u, exec (.mateResetPartner h taken) s = .next u ∧ v.posts u h 5 5 ∧ v.hostOnly u) ∧
    (v.role ≠ 0 → v.flag R.MATE_STAT F.MATE_STAT_LINK_UP = true → ∃ u, exec (.mateResetPartner h true) s = .next u ∧ v.posts u h 0 0 ∧ v.hostOnly u)) ∧
  (∀ s : State, (s.host.ops.find? (fun o => o.body == .pair) = none → exec .pairingTimeout s = .next s) ∧
    ∀ o, s.host.ops.find? (fun o => o.body == .pair) = some o → ∃ w : State, exec .pairingTimeout s = .next (w.finish o.id { status := 5, result := some 6 }) ∧
      w.get R.MATE_STAT F.MATE_STAT_FAIL_WHY = 7 ∧ w.get R.MATE_HIST F.MATE_HIST_PAIR_FAIL = 1 ∧ w.host.ops = s.host.ops) ∧
  (∀ (s : State) (p : Partner) (why : Nat), why = s.pairWhy p (s.flag R.MATE_CTL F.MATE_CTL_PAIR_EN) →
    ((s.mateOff = true ∨ s.flag R.MATE_STAT F.MATE_STAT_LINK_UP = false ∨ s.role ≠ 0) → exec (.pairRequestReceive p) s = .next s) ∧
    (s.mateOff = false → s.flag R.MATE_STAT F.MATE_STAT_LINK_UP = true → s.role = 0 →
      (why ≠ 0 → ∃ u, exec (.pairRequestReceive p) s = .next u ∧ u.role = 0 ∧ u.get R.MATE_STAT F.MATE_STAT_FAIL_WHY = why ∧ u.get R.MATE_HIST F.MATE_HIST_PAIR_FAIL = 1) ∧
      (why = 0 → ∃ u, exec (.pairRequestReceive p) s = .next u ∧ u.role = 2 ∧ u.epoch = nextEpoch (max s.epoch p.epoch) ∧ u.get R.MATE_HIST F.MATE_HIST_PAIR_OK = 1))) ∧
  (∀ s : State, (s.role = 0 → exec .detachReceive s = .next s) ∧ (s.role ≠ 0 → ∃ u, exec .detachReceive s = .next u ∧ u.role = 0 ∧ u.epoch = nextEpoch s.epoch ∧
    u.get R.MATE_HIST F.MATE_HIST_DETACHED = 1 ∧ u.mate.await = [])) ∧
  (∀ (s : State) (t : Nat), (∀ o ∈ s.host.ops, ∀ a, o.body ≠ .handover a) → ((s.role ≠ 2 ∨ s.apart = true) → exec (.handoverSwap t) s = .next (s.at_ t)) ∧
    (s.role = 2 → s.apart = false → ∃ u, exec (.handoverSwap t) s = .next u ∧ u.role = 1 ∧ u.epoch = nextEpoch s.epoch)) ∧
  (∀ (s : State) (t id a : Nat), s.host.ops.findSome? (fun o => match o.body with | .handover a => some (o.id, a) | _ => none) = some (id, a) →
    (t < (s.at_ t).swapAt a → exec (.handoverSwap t) s = .next (s.at_ t)) ∧
    ((s.at_ t).swapAt a ≤ t → ((s.role ≠ 1 ∨ s.apart = true) → exec (.handoverSwap t) s = .next ((s.at_ t).finish id { status := 6 })) ∧
      (s.role = 1 → s.apart = false → ∃ u, exec (.handoverSwap t) s = .next u ∧ u.role = 2 ∧ u.epoch = nextEpoch s.epoch ∧ u.mate.await = [])))

/-- Paths, forwarding and the system domain (from R395, R396, R399, R401 to R404, R408 to R411): heartbeats keep the paths; both paths lost is
PARTNER_LOST, and a STANDBY that may then is promoted with a new epoch; the link alone lost is ISOLATED; heartbeats missed before one that arrives
count; a forward number is executed once, by its opcode's own checks and effect, and kept for later during a state transfer; a domain message that
fails a check is refused at its offset, one that passes leaves as a packet and is in flight; a packet received is acknowledged by the first check it
fails, or accepted, its descriptors entering the domain ring in order as there is room; a packet seen before gets the same acknowledgement again, and
any other that is not fresh counts as a replay. Clauses on points the specification leaves open follow the model's own reading (log entries 22, 71,
74, 75, 76). That an event whose condition does not hold changes nothing is the model's choice (log entry 146). Each of these commands is shown to
complete, under conditions on the state and its operands alone: heartbeatSend, heartbeatReceive, pathLost, sidebandLost, partnerRestartTimeout,
mateLinkDown, mateLinkUp, timeExchange, forwardAck, forwardAckTimeout, forwardReceive, stateTransferDone, domainMsg, domainRetransmit,
domainAckReceive, domainPacketReceive. -/
def Obligations.TwinPathsAndDomain : Prop :=
  (∀ s : State, ((s.persona = 1 ∨ s.lifecycle = 4 ∨ s.rst.cold = true ∨ (s.rst.plane = true ∧ s.rst.warmRun = false)) → exec .heartbeatSend s = .next s) ∧
    (s.persona ≠ 1 → s.lifecycle ≠ 4 → s.rst.cold = false → (s.rst.plane = false ∨ s.rst.warmRun = true) →
    exec .heartbeatSend s = .next { s with mate := { s.mate with alive := !s.mate.alive } })) ∧
  (∀ (s : State) (r : Bool) (k t : Nat), ((s.persona = 1 ∨ s.lifecycle = 4) → exec (.heartbeatReceive r r k) s = .next s ∧ exec (.pathLost r t) s = .next (s.at_ t) ∧ exec .sidebandLost s = .next s) ∧
    (s.persona ≠ 1 → s.lifecycle ≠ 4 → (s.flag R.MATE_STAT F.MATE_STAT_LINK_UP = false → exec (.heartbeatReceive true r k) s = .next s) ∧
      (s.flag R.MATE_STAT F.MATE_STAT_LINK_UP = true → (∃ u, exec (.heartbeatReceive true true k) s = .next u ∧ u.flag R.MATE_STAT F.MATE_STAT_PARTNER_RESTARTING = true ∧
          (s.role = 1 → s.flag R.MATE_STAT F.MATE_STAT_PARTNER_RESTARTING = false → u.sync = 1 ∧ u.mate.await = [])) ∧
        ∃ w : State, exec (.heartbeatReceive true false k) s = .next w.mateCond ∧ w.flag R.MATE_STAT F.MATE_STAT_PARTNER_RESTARTING = false ∧ w.mate = { s.mate with restart := false } ∧
          (w.rd R.MATE_HB_MISS_CNT).toNat = min 0xFFFFFFFF ((s.rd R.MATE_HB_MISS_CNT).toNat + k)) ∧
      (∃ w : State, exec (.heartbeatReceive false r k) s = .next w.mateCond ∧ w.flag R.MATE_STAT F.MATE_STAT_SB_ALIVE = true ∧ w.mate = { s.mate with sbLost := false } ∧
        (w.rd R.MATE_HB_MISS_CNT).toNat = min 0xFFFFFFFF ((s.rd R.MATE_HB_MISS_CNT).toNat + k)) ∧
      (s.mate.linkLost = true → exec (.pathLost true t) s = .next (s.at_ t)) ∧ (s.mate.sbLost = true → exec (.pathLost false t) s = .next (s.at_ t) ∧ exec .sidebandLost s = .next s) ∧
      (s.mate.linkLost = false → ∃ w : State, exec (.pathLost true t) s = .next w.mateCond ∧ w.mate = { s.mate with linkLost := true } ∧
        (w.rd R.MATE_HB_MISS_CNT).toNat = min 0xFFFFFFFF ((s.rd R.MATE_HB_MISS_CNT).toNat + 8)) ∧
      (s.mate.sbLost = false → (∃ w : State, exec (.pathLost false t) s = .next w.mateCond ∧ w.mate = { s.mate with sbLost := true } ∧ w.get R.MATE_HIST F.MATE_HIST_SB_LOST = 1) ∧
        ∃ w : State, exec .sidebandLost s = .next w.mateCond ∧ w.mate = { s.mate with sbLost := true } ∧ w.flag R.MATE_STAT F.MATE_STAT_SB_ALIVE = false))) ∧
  (∀ s : State, (s.role = 0 → s.mateCond = s) ∧ (s.role ≠ 0 → s.partnerGone = true → s.flag R.MATE_STAT F.MATE_STAT_PARTNER_LOST = false →
      s.mateCond.flag R.MATE_STAT F.MATE_STAT_PARTNER_LOST = true ∧ s.mateCond.get R.MATE_HIST F.MATE_HIST_PARTNER_LOST = 1 ∧
      (s.role = 2 → s.mayPromote = true → s.mateCond.role = 1 ∧ s.mateCond.epoch = nextEpoch s.epoch ∧ s.mateCond.get R.MATE_HIST F.MATE_HIST_PROMOTED = 1) ∧
      (s.role = 2 → s.mayPromote = false → s.mateCond.role = 2 ∧ s.mateCond.mate.promote = true)) ∧
    (s.role ≠ 0 → s.partnerGone = false → s.mate.linkLost = true → s.flag R.MATE_STAT F.MATE_STAT_ISOLATED = false →
      s.mateCond.flag R.MATE_STAT F.MATE_STAT_ISOLATED = true ∧ s.mateCond.get R.MATE_HIST F.MATE_HIST_ISOLATED = 1 ∧ s.mateCond.role = s.role)) ∧
  (∀ (s : State) (t : Nat), (s.role = 2 → s.flag R.MATE_STAT F.MATE_STAT_PARTNER_RESTARTING = true →
      exec (.partnerRestartTimeout t) s = .next ({ s with now := t, mate := { s.mate with restart := true } } : State).mateCond) ∧
    ((s.role ≠ 2 ∨ s.flag R.MATE_STAT F.MATE_STAT_PARTNER_RESTARTING = false) → exec (.partnerRestartTimeout t) s = .next (s.at_ t)) ∧
    (s.flag R.MATE_STAT F.MATE_STAT_LINK_UP = false → exec .mateLinkDown s = .next s) ∧
    (s.flag R.MATE_STAT F.MATE_STAT_LINK_UP = true → ∃ w : State, exec .mateLinkDown s = .next w.mateCond ∧ w.mate = { s.mate with linkLost := true } ∧
      w.flag R.MATE_STAT F.MATE_STAT_LINK_UP = false)) ∧
  (∀ (s w : State) (p : PeerRole), ((s.mateOff = true ∨ (s.flag R.MATE_STAT F.MATE_STAT_LINK_UP = true ∧ s.mate.linkLost = false)) → exec (.mateLinkUp p) s = .next s) ∧
    (s.mateOff = false → (s.flag R.MATE_STAT F.MATE_STAT_LINK_UP = false ∨ s.mate.linkLost = true) →
      w = (({ s with mate := { s.mate with linkLost := false } } : State).set R.MATE_STAT F.MATE_STAT_LINK_UP 1).mateCond → (w.role = 0 → exec (.mateLinkUp p) s = .next w) ∧
      (w.role ≠ 0 → ∃ u, exec (.mateLinkUp p) s = .next u ∧ u.sync = 1 ∧ (w.outranked p = false → u.role = w.role ∧ u.epoch = w.epoch) ∧
        (w.outranked p = true → u.role = 2 ∧ u.epoch = p.epoch % 2 ^ 32 ∧ u.get R.MATE_HIST F.MATE_HIST_DEMOTED = 1)))) ∧
  (∀ (s : State) (k : Int) (b : Bool), ((s.role ≠ 2 ∨ s.mate.linkLost = true ∨ s.flag R.MATE_STAT F.MATE_STAT_LINK_UP = false) → exec (.timeExchange k b) s = .next s) ∧
    (s.role = 2 → s.mate.linkLost = false → s.flag R.MATE_STAT F.MATE_STAT_LINK_UP = true → -2147483648 ≤ k → k < 2147483648 → ∃ u, exec (.timeExchange k b) s = .next u ∧
      u.rdInt R.MATE_SKEW = k ∧ s.onlyRegs u [R.MATE_SKEW, R.MATE_STAT, R.MATE_HIST] ∧ (u.flag R.MATE_STAT F.MATE_STAT_CHANGEOVER_READY = true ↔
        s.sync = 2 ∧ b = true ∧ s.get R.REF_STAT F.REF_STAT_STATE = 2 ∧ k.natAbs ≤ max 1 (s.get R.MATE_CTL F.MATE_CTL_ALIGN_LIMIT)))) ∧
  (∀ (s : State) (id : Nat), (∃ u, exec (.forwardAck id) s = .next u ∧ u.mate = { s.mate with await := s.mate.await.erase id, fwdRfn := s.mate.fwdRfn.filter fun p => p.1 != id }) ∧
    ((s.role ≠ 1 ∨ id ∉ s.mate.await) → exec (.forwardAckTimeout id) s = .next s) ∧ (s.role = 1 → id ∈ s.mate.await → ∃ u, exec (.forwardAckTimeout id) s = .next u ∧
      u.mate = { s.mate with await := s.mate.await.erase id, fwdRfn := s.mate.fwdRfn.filter fun p => p.1 != id } ∧ u.sync = 1 ∧ u.get R.MATE_HIST F.MATE_HIST_FWD_LATE = 1)) ∧
  (∀ (s w : State) (num : Nat) (h : Hdr) (seq : Option (Nat × Nat)) (op : FwdOp), (s.fwdRefuses num = true → exec (.forwardReceive num h seq op) s = .next s) ∧
    (s.fwdRefuses num = false → w = (s.at_ h.t).fwdSeq seq → (w.sync = 1 → ∃ u, exec (.forwardReceive num h seq op) s = .next u ∧ u.mate.fwdSeen = s.mate.fwdSeen ++ [num] ∧
        u.mate.fwdHold = s.mate.fwdHold ++ [(h, op)]) ∧
      (w.sync ≠ 1 → (w.runFwd h op = none → exec (.forwardReceive num h seq op) s = .next (s.fwdWait num)) ∧
        (∀ x, w.runFwd h op = some (true, x) → exec (.forwardReceive num h seq op) s = .next ((s.accept x).fwdSee num)) ∧
        (∀ x, w.runFwd h op = some (false, x) → ∃ u, exec (.forwardReceive num h seq op) s = .next u ∧ u.sync = 3)) ∧
      (w.sync ≠ 1 → op = .primaryOnly → w.isReady = true → w.inflight ≤ 16384 → w.host.fwdNow = false → exec (.forwardReceive num h seq op) s = .next ((s.accept w).fwdSee num)))) ∧
  (∀ (w : State) (h : Hdr), (∀ d x, fwdAdm h (.routeSet d x) w = routeBody h d x w ∧ fwdAdm h (.takeAt d x) w = routeBody h d x w) ∧
    (∀ l, fwdAdm h (.salvo l) w = salvoBody h l w) ∧ (∀ c, fwdAdm h (.routeSync c) w = chainBody h c none w) ∧ (∀ a, fwdAdm h (.audMap a) w = audMapBody h a w) ∧
    (∀ u, fwdAdm h (.souCommit u) w = souCommitBody h u w) ∧ (∀ f, fwdAdm h (.flowRxCfg f) w = flowBody true h f w)) ∧
  (∀ (s : State) (items : List (Hdr × FwdOp)) (t : Nat), ((s.sync ≠ 1 ∨ s.apart = true ∨ s.role = 0) → exec (.stateTransferDone items t) s = .next s) ∧ (s.sync = 1 → s.apart = false →
    (s.role = 1 → ∃ u, exec (.stateTransferDone items t) s = .next u ∧ u.sync = 2 ∧ s.onlyRegs u [R.MATE_STAT]) ∧
    (s.role = 2 → s.fwdFree 0 = false → exec (.stateTransferDone items t) s = .next s) ∧
    (s.role = 2 → s.fwdFree 0 = true → ((s.at_ t).runFwds (items ++ s.mate.fwdHold) = none → exec (.stateTransferDone items t) s = .next (s.fwdWait 0)) ∧
      (∀ x, (s.at_ t).runFwds (items ++ s.mate.fwdHold) = some (true, x) → ∃ u, exec (.stateTransferDone items t) s = .next u ∧ u.sync = 2 ∧ u.mate.fwdHold = []) ∧
      (∀ x, (s.at_ t).runFwds (items ++ s.mate.fwdHold) = some (false, x) → ∃ u, exec (.stateTransferDone items t) s = .next u ∧ u.sync = 3 ∧ u.mate.fwdHold = [])))) ∧
  (∀ (s v : State) (h : Hdr) (tg un len ad : Nat) (ok : Bool) (ds l : List DomDesc) (e : Nat),
    s.admits { op := 0x80, rfn := 0, pay := [fld 16 2 tg, fld 18 2 un, fld 20 2 len, fld 24 8 ad] } h v → l = ds.take (len / 64) →
    e = ((l.head?).map fun d => domField d 4 4).getD 0 →
    ((v.timeValid = false ∨ v.inDomain = false) → ∃ u, exec (.domainMsg h tg un len ad ok ds) s = .next u ∧ v.posts u h 8 0 ∧ v.hostOnly u) ∧
    (v.timeValid = true → v.inDomain = true → ((len = 0 ∨ 1024 < len ∨ len % 64 ≠ 0) → ∃ u, exec (.domainMsg h tg un len ad ok ds) s = .next u ∧ v.posts u h 4 (badRes 20) ∧ v.hostOnly u) ∧
      (len ≠ 0 → len ≤ 1024 → len % 64 = 0 → ad % 8 ≠ 0 → ∃ u, exec (.domainMsg h tg un len ad ok ds) s = .next u ∧ v.posts u h 4 (badRes 24) ∧ v.hostOnly u) ∧
      (len ≠ 0 → len ≤ 1024 → len % 64 = 0 → ad % 8 = 0 → ok = false → ∃ u, exec (.domainMsg h tg un len ad ok ds) s = .next u ∧ v.posts u h 7 1 ∧ v.hostOnly u) ∧
      (len ≠ 0 → len ≤ 1024 → len % 64 = 0 → ad % 8 = 0 → ok = true → (∀ k, domBad e l 0 = some k → ∃ u, exec (.domainMsg h tg un len ad ok ds) s = .next u ∧ v.posts u h 4 (dataRes (some k)) ∧
          v.hostOnly u) ∧
        (domBad e l 0 = none → ∀ p, p = v.domPacket 1 tg un e l.length ((v.mate.msgId + 1) % 2 ^ 16) v.sendTime ((l.map (·.raw)).flatten) → ∃ u,
          exec (.domainMsg h tg un len ad ok ds) s = .next u ∧ v.flies u h (.dom { seq := (v.mate.msgId + 1) % 2 ^ 16, packet := p }) ∧
          u.media.net = v.media.net ++ [.domain (v.get R.MATE_DOM_CFG F.MATE_DOM_CFG_PORT) (v.get R.MATE_DOM_CFG F.MATE_DOM_CFG_SUB) p])))) ∧
  (∀ (s : State) (id : Nat), (s.domOp id = none → exec (.domainRetransmit id) s = .next s) ∧ ∀ o d, s.domOp id = some (o, d) →
    (d.tries < s.get R.MATE_DOM_TO F.MATE_DOM_TO_RETRY → ∃ u, exec (.domainRetransmit id) s = .next u ∧
      u.media.net = s.media.net ++ [.domain (s.get R.MATE_DOM_CFG F.MATE_DOM_CFG_PORT) (s.get R.MATE_DOM_CFG F.MATE_DOM_CFG_SUB) d.packet] ∧ u.host.ops.length = s.host.ops.length) ∧
    (s.get R.MATE_DOM_TO F.MATE_DOM_TO_RETRY ≤ d.tries → exec (.domainRetransmit id) s = .next (s.finish o { status := 6 }))) ∧
  (∀ (s : State) (id st ep : Nat) (ok : Bool), ((s.inDomain = false ∨ (ok = true ∧ s.domOp id = none)) → exec (.domainAckReceive ok id st ep) s = .next s) ∧
    (s.inDomain = true → ok = false → ∃ u, exec (.domainAckReceive ok id st ep) s = .next u ∧ u = s.authFail ∧ u.get R.MATE_DOM_HIST F.MATE_DOM_HIST_AUTH_FAIL = 1) ∧
    ∀ o d, s.inDomain = true → ok = true → s.domOp id = some (o, d) → exec (.domainAckReceive ok id st ep) s = .next (s.finish o { status := st, result := some (ackResult st ep) })) ∧
  (∀ (s : State) (p : DomPkt) (t : Nat) (own unit : Bool), own = (p.tdev == s.get R.MATE_DOM_CFG F.MATE_DOM_CFG_DEVNUM) →
    unit = (p.tdev == 0xFFFF && p.tunit == s.get R.MATE_DOM_UNIT F.MATE_DOM_UNIT_UNIT && s.role != 2) →
    ((s.inDomain = false ∨ (p.tagOk = true ∧ own = false ∧ unit = false)) → exec (.domainPacketReceive p t) s = .next (s.at_ t)) ∧
    (s.inDomain = true → (p.tagOk = false → exec (.domainPacketReceive p t) s = .next (s.at_ t).authFail) ∧
      (p.tagOk = true → (own = true ∨ unit = true) → (s.role = 2 → exec (.domainPacketReceive p t) s = .next ((s.at_ t).domAck p 5)) ∧
        (s.role ≠ 2 → (s.at_ t).domFresh p = false →
          (∀ q, (s.domSrc p.src).ids.find? (fun q => q.1 == p.id && q.2.1 == p.time) = some q → exec (.domainPacketReceive p t) s = .next ((s.at_ t).domSend q.2.2)) ∧
          ((s.domSrc p.src).ids.find? (fun q => q.1 == p.id && q.2.1 == p.time) = none →
            exec (.domainPacketReceive p t) s = .next ((s.at_ t).raise Hist.mateDom F.MATE_DOM_HIST_REPLAY))) ∧
        (s.role ≠ 2 → (s.at_ t).domFresh p = true → (p.rate ≠ s.leapRate → exec (.domainPacketReceive p t) s = .next ((s.at_ t).domAck p 4)) ∧
          (p.rate = s.leapRate → p.epoch ≠ s.epoch → ∃ w : State, exec (.domainPacketReceive p t) s = .next (w.domAck p 2) ∧ w.get R.MATE_DOM_HIST F.MATE_DOM_HIST_STALE = 1 ∧
            (w.rd R.MATE_DOM_STALE_CNT).toNat = min 0xFFFFFFFF ((s.rd R.MATE_DOM_STALE_CNT).toNat + 1)) ∧
          (p.rate = s.leapRate → p.epoch = s.epoch → ((s.ringSt (s.get R.MATE_DOM_UDP F.MATE_DOM_UDP_DOM_RING) ≠ 1 ∨ s.timeValid = false) →
              exec (.domainPacketReceive p t) s = .next ((s.at_ t).domAck p 8)) ∧
            (s.ringSt (s.get R.MATE_DOM_UDP F.MATE_DOM_UDP_DOM_RING) = 1 → s.timeValid = true → ∃ u, exec (.domainPacketReceive p t) s = .next u ∧ u = (s.at_ t).domAccept p ∧
              (u.rd R.MATE_DOM_RX_CNT).toNat = min 0xFFFFFFFF ((s.rd R.MATE_DOM_RX_CNT).toNat + 1) ∧
              ∀ n q, n = s.get R.MATE_DOM_UDP F.MATE_DOM_UDP_DOM_RING → q = s.rst_ n →
                (u.rst_ n).fetched.length + (u.rst_ n).domQ.length = q.fetched.length + q.domQ.length + p.descs.length ∧
                (q.domQ = [] → s.get (R.RNG_STAT n) F.RNG_STAT_SQ_HEAD = q.sqTail → s.outstanding n + q.unread + p.descs.length ≤ s.cqSize n →
                  (u.rst_ n).fetched = q.fetched ++ p.descs.map fun d => { raw := d.raw, dom := true })))))))

/-! ### Security and lifecycle (17_security_and_lifecycle.md) -/

/-- Security descriptors (from R421, R422, R424 to R426): an attestation writes the report signed with the next leaf of the identity key, and without
a ready key answers its shortfall; a checkpoint takes the next number, or waits in flight for a route-log key; a key is pinned whole, an operation
that is not listed refused, and the last one stays pinned under signing-required mode; the mode is entered only while autostore is armed and in
PROVISIONED or FIELD; the domain key is installed and erased; a command's blob is refused for its form, key or digest, then its target, then its
sequence number, which an accepted one records. Clauses on points the specification leaves open follow the model's own reading (log entries 23, 78,
79, 80, 83, 205). Each of these commands is shown to complete, under conditions on the state and its operands alone: attest, logCheckpoint, keyPin,
keyUnpin, signingEnter, signingLeave, domainKeyInstall, domainKeyErase. -/
def Obligations.SecurityDescriptors : Prop :=
  (∀ (s v : State) (h : Hdr) (nonce : List Nat) (a : Nat), s.admits (attestRule nonce a) h v →
    (a % 8 ≠ 0 → ∀ ok, ∃ u, exec (.attest h nonce a ok) s = .next u ∧ v.posts u h 4 (badRes 48) ∧ v.hostOnly u) ∧
    (a % 8 = 0 → v.keySt 0 ≠ 1 → ∀ ok, ∃ u, exec (.attest h nonce a ok) s = .next u ∧ v.posts u h 3 0x0D ∧ v.hostOnly u) ∧
    (a % 8 = 0 → v.keySt 0 = 1 → (∃ u, exec (.attest h nonce a false) s = .next u ∧ v.posts u h 7 2) ∧ ∀ leaf w, v.takeLeaf 0 = (some leaf, w) →
      ∃ u, exec (.attest h nonce a true) s = .next u ∧ v.posts u h 0 3076 ∧ u.host.mem = memWrites v.host.mem a (v.report nonce leaf))) ∧
  (∀ (s v : State) (h : Hdr) (a : Nat) (ok : Bool), s.admits { op := 0x71, rfn := 0, pay := [fld 16 8 a] } h v →
    (a % 8 ≠ 0 → ∃ u, exec (.logCheckpoint h a ok) s = .next u ∧ v.posts u h 4 (badRes 16) ∧ v.hostOnly u) ∧
    (a % 8 = 0 → v.lifecycle = 0 → ∃ u, exec (.logCheckpoint h a ok) s = .next u ∧ v.posts u h 5 7 ∧ v.hostOnly u) ∧
    (a % 8 = 0 → v.lifecycle ≠ 0 → (v.keySt 1 ≠ 1 → ∃ u, exec (.logCheckpoint h a ok) s = .next u ∧ v.flies u h (.ckpt a ok) ∧ v.hostOnly u) ∧
      (v.keySt 1 = 1 → ((ok = true ∨ a = 0) → ∃ u, exec (.logCheckpoint h a ok) s = .next u ∧ v.posts u h 0 u.ckNum ∧ u.ckNum = (v.ckNum + 1) % 2 ^ 48) ∧
        (ok = false → a ≠ 0 → ∃ u, exec (.logCheckpoint h a ok) s = .next u ∧ v.posts u h 7 2)))) ∧
  (∀ (s v : State) (h : Hdr) (slot a : Nat) (k : Option (List Nat)), s.admits (pinRule s slot a k) h v →
    (7 < slot → ∃ u, exec (.keyPin h slot a k) s = .next u ∧ v.posts u h 4 (badRes 16) ∧ v.hostOnly u) ∧
    (slot ≤ 7 → bytesAt (s.headRaw h.ring) 17 1 ≠ 0 → ∃ u, exec (.keyPin h slot a k) s = .next u ∧ v.posts u h 4 (badRes 17) ∧ v.hostOnly u) ∧
    (slot ≤ 7 → bytesAt (s.headRaw h.ring) 17 1 = 0 → (a % 8 ≠ 0 → ∃ u, exec (.keyPin h slot a k) s = .next u ∧ v.posts u h 4 (badRes 24) ∧ v.hostOnly u) ∧
      (a % 8 = 0 → (k = none → ∃ u, exec (.keyPin h slot a k) s = .next u ∧ v.posts u h 7 1 ∧ v.hostOnly u) ∧
        (∀ b oid j, k = some b → keyObj b = (oid, some j) → ∃ u, exec (.keyPin h slot a k) s = .next u ∧ v.posts u h 4 (dataRes (some j)) ∧ v.hostOnly u) ∧
        (∀ b oid, k = some b → keyObj b = (oid, none) → ∃ u, exec (.keyPin h slot a k) s = .next u ∧ v.posts u h 0 0 ∧ tabFind u.sec.keys slot = some ⟨oid, b⟩ ∧
          ∀ j, j ≠ slot → tabFind u.sec.keys j = tabFind v.sec.keys j)))) ∧
  (∀ (s v : State) (h : Hdr) (slot : Nat), s.admits { op := 0x72, rfn := 0, need := true, pay := keyPay 1 [fld 16 1 slot] .any } h v →
    (7 < slot → ∃ u, exec (.keyUnpin h slot) s = .next u ∧ v.posts u h 4 (badRes 16) ∧ v.hostOnly u) ∧
    (slot ≤ 7 → (tabFind v.sec.keys slot = none → ∃ u, exec (.keyUnpin h slot) s = .next u ∧ v.posts u h 0 0 ∧ v.hostOnly u) ∧
      (∀ k, tabFind v.sec.keys slot = some k → (v.signReq = true → v.sec.keys.length = 1 → ∃ u, exec (.keyUnpin h slot) s = .next u ∧ v.posts u h 5 6 ∧ v.hostOnly u) ∧
        ((v.signReq = false ∨ v.sec.keys.length ≠ 1) → ∃ u, exec (.keyUnpin h slot) s = .next u ∧ v.posts u h 0 0 ∧ tabFind u.sec.keys slot = none)))) ∧
  (∀ (s v : State) (h : Hdr), s.admits { op := 0x72, rfn := 0, need := true, pay := keyPay 2 [] .any } h v →
    (v.armed = false → ∃ u, exec (.signingEnter h) s = .next u ∧ v.posts u h 5 6 ∧ u.get R.GLB_MODE_REFUSE F.GLB_MODE_REFUSE_CODE = 1) ∧
    (v.armed = true → (v.lifecycle ≠ 1 ∧ v.lifecycle ≠ 2 → ∃ u, exec (.signingEnter h) s = .next u ∧ v.posts u h 5 7 ∧ u.get R.GLB_MODE_REFUSE F.GLB_MODE_REFUSE_CODE = 3) ∧
      (v.lifecycle = 1 ∨ v.lifecycle = 2 → ∃ u, exec (.signingEnter h) s = .next u ∧ v.posts u h 0 0 ∧ u.signReq = true ∧
        (v.signReq = false → u.get R.GLB_MODE_HIST F.GLB_MODE_HIST_SIGN_CHG = 1)))) ∧
  (∀ (s v : State) (h : Hdr), s.admits { op := 0x72, rfn := 0, need := true, pay := keyPay 3 [] .any } h v →
    (∃ u, exec (.signingLeave h) s = .next u ∧ v.posts u h 0 0 ∧ u.signReq = false)) ∧
  (∀ (s v : State) (h : Hdr) (a : Nat) (k : Option (List Nat)), s.admits (domKeyRule s 4 (.is a) (keyHost a k)) h v →
    (a % 8 ≠ 0 → ∃ u, exec (.domainKeyInstall h a k) s = .next u ∧ v.posts u h 4 (badRes 24) ∧ v.hostOnly u) ∧
    (a % 8 = 0 → (k = none → ∃ u, exec (.domainKeyInstall h a k) s = .next u ∧ v.posts u h 7 1 ∧ v.hostOnly u) ∧
      ∀ b, k = some b → ∃ u, exec (.domainKeyInstall h a k) s = .next u ∧ v.posts u h 0 0 ∧ u.sec.domKey = some (b.take 32) ∧ u.flag R.SEC_STAT F.SEC_STAT_DOMAIN_KEY = true)) ∧
  (∀ (s v : State) (h : Hdr), s.admits (domKeyRule s 5 .any []) h v →
    ∃ u, exec (.domainKeyErase h) s = .next u ∧ v.posts u h 0 0 ∧ u.sec.domKey = none ∧ u.flag R.SEC_STAT F.SEC_STAT_DOMAIN_KEY = false) ∧
  (∀ (s : State) (b : Blob) (msg : List Byte) (k : PinKey), tabFind s.sec.keys b.slot = some k → b.slot < 8 →
    ((b.version ≠ 1 ∨ b.zero = false ∨ k.oid ≠ b.oid ∨ sigLenOf b.oid ≠ some b.sigLen ∨ k.key ≠ b.key ∨ b.digest ≠ Config.shake 512 (nums msg)) →
      (s.checkBlob b msg).1 = 2 ∧ (s.checkBlob b msg).2 = s.sigFail) ∧
    (b.version = 1 → b.zero = true → k.oid = b.oid → sigLenOf b.oid = some b.sigLen → k.key = b.key → b.digest = Config.shake 512 (nums msg) →
      (b.target ≠ 0xFFFF → b.target ≠ s.get R.MATE_DOM_CFG F.MATE_DOM_CFG_DEVNUM → (s.checkBlob b msg).1 = 3) ∧
      ((b.target = 0xFFFF ∨ b.target = s.get R.MATE_DOM_CFG F.MATE_DOM_CFG_DEVNUM) → (b.seq ≤ s.lastSeq b.slot → (s.checkBlob b msg).1 = 3 ∧
          (s.checkBlob b msg).2.get R.SEC_HIST F.SEC_HIST_REPLAY = 1) ∧
        (s.lastSeq b.slot < b.seq → (s.checkBlob b msg).1 = 0 ∧ (s.checkBlob b msg).2.lastSeq b.slot = b.seq % 2 ^ 64))))

/-- Lifecycle, keys and the route-log set-up (from R413 to R416, R418, R420, R421, R423, R424, R427): a request that Table 17-1 does not allow, or
from a device that is not SOLO, sets LC_REFUSED with result 2; one with a bad token, for another device or with another nonce, sets TOKEN_ERR with
result 4; one that is taken moves the lifecycle, and RMA erases the secrets and retires the route-log key; generated keys are ready; a failed entropy
source ends a generation with result 6; the log set-up is taken only while its ring is empty. Clauses on points the specification leaves open follow
the model's own reading (log entries 81, 82, 85, 105, 176, 205). That an event whose condition does not hold changes nothing is the model's choice
(log entry 146). Each of these commands is shown to complete, under conditions on the state and its operands alone: lcProvision, lcField, lcRma,
lcEnd, vendorDebugSession, identityKeyGenerated, routeLogKeyGenerated, entropyFail, entropyHealthPass, checkpointPeriod, logTailWrite, logSetupWrite. -/
def Obligations.LifecycleAndRouteLog : Prop :=
  (∀ (s : State) (tok : Option Token) (cut : Bool), s.upFor R.SEC_LC_REQ → (s.sec.genId = true → exec (.lcProvision tok) s = .next s ∧ exec .lcField s = .next s ∧ exec (.lcRma tok cut) s = .next s ∧
      exec (.lcEnd tok) s = .next s ∧ exec (.vendorDebugSession tok) s = .next s) ∧
    (s.sec.genId = false → ∀ c, (s.role = 0 ∧ (c = .lcProvision tok ∧ s.lifecycle ≠ 0 ∨ c = .lcField ∧ s.lifecycle ≠ 1 ∨ c = .lcRma tok cut ∧ s.lifecycle ≠ 1 ∧ s.lifecycle ≠ 2) ∨
        c = .vendorDebugSession tok ∧ s.lifecycle ≠ 3) → ∃ u, exec c s = .next u ∧ u.get R.SEC_HIST F.SEC_HIST_LC_REFUSED = 1 ∧ u.get R.SEC_LC_RES F.SEC_LC_RES_RESULT = 2 ∧
          u.lifecycle = s.lifecycle) ∧
    (s.sec.genId = false → s.role ≠ 0 → ∀ c, (c = .lcProvision tok ∨ c = .lcField ∨ c = .lcRma tok cut ∨ c = .lcEnd tok) →
      ∃ u, exec c s = .next u ∧ u.get R.SEC_HIST F.SEC_HIST_LC_REFUSED = 1 ∧ u.get R.SEC_LC_RES F.SEC_LC_RES_RESULT = 2 ∧
      u.get R.GLB_MODE_REFUSE F.GLB_MODE_REFUSE_CODE = 5 ∧ u.lifecycle = s.lifecycle) ∧
    (s.sec.genId = false → s.role = 0 →
      (∀ c, (c = .lcRma tok cut ∧ (s.lifecycle = 1 ∨ s.lifecycle = 2) ∧ (s.tokenOk tok 3 = false ∨ (s.consent tok).1 = false) ∨
          c = .lcEnd tok ∧ (s.tokenOk tok 4 = false ∨ (s.consent tok).1 = false) ∨ c = .vendorDebugSession tok ∧ s.lifecycle = 3 ∧ s.tokenOk tok 7 = false) →
        ∃ u, exec c s = .next u ∧ u.get R.SEC_HIST F.SEC_HIST_TOKEN_ERR = 1 ∧ u.get R.SEC_LC_RES F.SEC_LC_RES_RESULT = 4 ∧ u.lifecycle = s.lifecycle) ∧
      (s.lifecycle = 0 → (tok = none → (s.entropyOk = true → ∃ u, exec (.lcProvision tok) s = .next u ∧ u.sec.genId = true ∧ u.get R.SEC_LC_RES F.SEC_LC_RES_RESULT = 1) ∧
          (s.entropyOk = false → ∃ u, exec (.lcProvision tok) s = .next u ∧ u.sec.genId = false ∧ u.get R.SEC_LC_RES F.SEC_LC_RES_RESULT = 6)) ∧
        (∀ k, tok = some k → (s.tokenOk tok 1 = false → ∃ u, exec (.lcProvision tok) s = .next u ∧ u.get R.SEC_HIST F.SEC_HIST_TOKEN_ERR = 1 ∧ u.get R.SEC_LC_RES F.SEC_LC_RES_RESULT = 4) ∧
          (s.tokenOk tok 1 = true → (s.keySt 0 ≠ 1 → ∃ u, exec (.lcProvision tok) s = .next u ∧ u.lifecycle = 0 ∧ u.get R.SEC_LC_RES F.SEC_LC_RES_RESULT = 3) ∧
            (s.keySt 0 = 1 → (k.certOk = false ∨ 4096 < k.cert.length) → ∃ u, exec (.lcProvision tok) s = .next u ∧ u.lifecycle = 0 ∧ u.get R.SEC_HIST F.SEC_HIST_TOKEN_ERR = 1 ∧
              u.get R.SEC_LC_RES F.SEC_LC_RES_RESULT = 4) ∧
            (s.keySt 0 = 1 → k.certOk = true → k.cert.length ≤ 4096 → s.entropyOk = false → ∃ u, exec (.lcProvision tok) s = .next u ∧ u.lifecycle = 0 ∧
              u.get R.SEC_LC_RES F.SEC_LC_RES_RESULT = 6) ∧
            (s.keySt 0 = 1 → k.certOk = true → k.cert.length ≤ 4096 → s.entropyOk = true → ∃ u, exec (.lcProvision tok) s = .next u ∧ u.lifecycle = 1 ∧ u.sec.cert = k.cert ∧
              u.keySt 1 = 1 ∧ u.get R.SEC_LC_RES F.SEC_LC_RES_RESULT = 0)))) ∧
      (s.lifecycle = 1 → (s.keySt 0 = 0 → ∃ u, exec .lcField s = .next u ∧ u.lifecycle = 1 ∧ u.get R.SEC_LC_RES F.SEC_LC_RES_RESULT = 3) ∧
        (s.keySt 0 ≠ 0 → ∃ u, exec .lcField s = .next u ∧ u.lifecycle = 2 ∧ u.get R.SEC_LC_RES F.SEC_LC_RES_RESULT = 0 ∧ u.get R.GLB_MODE_HIST F.GLB_MODE_HIST_LIFECYCLE_CHG = 1)) ∧
      ((s.lifecycle = 1 ∨ s.lifecycle = 2) → s.tokenOk tok 3 = true → (s.consent tok).1 = true → 
        (∃ u, exec (.lcRma tok false) s = .next u ∧ u.lifecycle = 3 ∧ u.sec.rmaPend = false ∧ u.sec.keys = [] ∧ u.sec.domKey = none ∧
          u.axl.user = [] ∧ u.signReq = false ∧ u.keySt 1 = 2 ∧ u.get R.SEC_LC_RES F.SEC_LC_RES_RESULT = 0) ∧
        (∃ u, exec (.lcRma tok true) s = .next u ∧ u.lifecycle = s.lifecycle ∧ u.sec.rmaPend = true ∧ u.sec.keys = [] ∧ u.sec.domKey = none ∧ u.axl.user = [] ∧ u.signReq = false)) ∧
      (s.tokenOk tok 4 = true → (s.consent tok).1 = true → ∃ u, exec (.lcEnd tok) s = .next u ∧ u.lifecycle = 4 ∧ u.armed = false ∧ u.signReq = false ∧
        u.get R.SEC_LC_RES F.SEC_LC_RES_RESULT = 0) ∧
      (s.lifecycle = 3 → s.tokenOk tok 7 = true → ∃ u, exec (.vendorDebugSession tok) s = .next u ∧ u.get R.SEC_STAT F.SEC_STAT_DEBUG = 2 ∧ u.get R.SEC_HIST F.SEC_HIST_DEBUG_UNLOCK = 1 ∧
        u.get R.SEC_LC_RES F.SEC_LC_RES_RESULT = 0 ∧ u.lifecycle = 3))) ∧
  (∀ (s : State) (k : Token) (n : Nat), (k.head.length ≠ 64 ∨ bytesAt k.head 8 8 ≠ s.devId ∨ (∃ w < 8, bytesAt k.head (24 + 4 * w) 4 ≠ (s.rd (R.SEC_LC_NONCE w)).toNat) ∨
    k.vendor = false ∨ k.digest ≠ Config.shake 512 (nums k.head) ∨ bytesAt k.head 16 1 ≠ n) → s.tokenOk (some k) n = false) ∧
  (∀ s : State, (s.sec.genId = false → exec .identityKeyGenerated s = .next s) ∧ (s.sec.genId = true → ∃ u, exec .identityKeyGenerated s = .next u ∧ u.keySt 0 = 1 ∧ u.sec.genId = false ∧
      u.get R.SEC_LC_RES F.SEC_LC_RES_RESULT = 5) ∧
    ((s.keySt 1 ≠ 2 ∨ s.entropyOk = false ∨ s.lifecycle = 4) → exec .routeLogKeyGenerated s = .next s) ∧
    (s.keySt 1 = 2 → s.entropyOk = true → s.lifecycle ≠ 4 → exec .routeLogKeyGenerated s = .next s.newLogKey.waitingCks ∧ s.newLogKey.keySt 1 = 1 ∧
      ((∀ o ∈ s.host.ops, ∀ a ok, o.body ≠ .ckpt a ok) → s.newLogKey.waitingCks = s.newLogKey)) ∧
    (∃ u, exec .entropyFail s = .next u ∧ u.entropyOk = false ∧ u.get R.SEC_HIST F.SEC_HIST_ENTROPY_FAIL = 1 ∧ u.sec.genId = false ∧
      (s.sec.genId = true → u.get R.SEC_LC_RES F.SEC_LC_RES_RESULT = 6)) ∧
    (∃ u, exec .entropyHealthPass s = .next u ∧ u.entropyOk = true ∧ s.onlyRegs u [R.SEC_STAT] ∧ u.lifecycle = s.lifecycle)) ∧
  (∀ (s : State) (t : Nat), ((s.sec.lastCk + s.ckPeriod ≤ t ∧ s.keySt 1 = 1 ∧ s.lifecycle ≠ 4) → ∃ u, exec (.checkpointPeriod t) s = .next u ∧ u = (s.at_ t).checkpoint 0 (0, 0xFF) ∧
      u.ckNum = (s.ckNum + 1) % 2 ^ 48 ∧ u.sec.lastCk = t) ∧
    (¬ (s.sec.lastCk + s.ckPeriod ≤ t ∧ s.keySt 1 = 1 ∧ s.lifecycle ≠ 4) → exec (.checkpointPeriod t) s = .next (s.at_ t))) ∧
  (∀ (s : State) (v : Nat), s.upFor R.SEC_LOG_TAIL → (∃ u, exec (.logTailWrite v) s = .next u ∧ u = (s.set R.SEC_LOG_TAIL F.SEC_LOG_TAIL_TAIL v).deliverHeld ∧
      u.get R.SEC_LOG_TAIL F.SEC_LOG_TAIL_TAIL = v % 2 ^ 24 ∧ (s.sec.hold = [] → s.onlyRegs u [R.SEC_LOG_TAIL]))) ∧
  (∀ (s : State) (a v : Nat), s.upFor a →
    ((logSetupReg a = false ∨ s.get R.SEC_LOG_HEAD F.SEC_LOG_HEAD_HEAD ≠ s.get R.SEC_LOG_TAIL F.SEC_LOG_TAIL_TAIL) → exec (.logSetupWrite a v) s = .next s) ∧
    (logSetupReg a = true → s.get R.SEC_LOG_HEAD F.SEC_LOG_HEAD_HEAD = s.get R.SEC_LOG_TAIL F.SEC_LOG_TAIL_TAIL → ∃ u, exec (.logSetupWrite a v) s = .next u ∧
      u.rd a = BitVec.ofNat 32 (if a = R.SEC_LOG_CFG then v % 2 ^ 16 else v) ∧
      (a = R.SEC_LOG_BASE_HI → u.sec.logUp = true ∧ u.inForce R.SEC_LOG_BASE_LO = s.rd R.SEC_LOG_BASE_LO ∧ u.inForce R.SEC_LOG_BASE_HI = BitVec.ofNat 32 v) ∧
      (a = R.SEC_CKPT_BASE_HI → u.sec.ckUp = true ∧ u.inForce R.SEC_CKPT_BASE_LO = s.rd R.SEC_CKPT_BASE_LO ∧ u.inForce R.SEC_CKPT_BASE_HI = BitVec.ofNat 32 v) ∧
      ((a = R.SEC_LOG_BASE_LO ∨ a = R.SEC_CKPT_BASE_LO) → u.taken = s.taken)))

/-! ### Faults and self-test (18_faults_and_self_test.md) -/

/-- Faults (from R431 to R433, R435 to R437): an error of a unit that is not fenced and has no open record makes a record with the next number, one
that has a PENDING record adds to its count, and one whose test runs makes its record LASTING; every error counts for its unit; one test runs at a
time, its end classifies the record; a classified record whose SEQ matches is freed by its acknowledgement; a fenced unit that may be retested is
queued, any other sets UNFENCE_ERR. Clauses on points the specification leaves open follow the model's own reading (log entries 87, 88). That an event
whose condition does not hold changes nothing is the model's choice (log entry 146). Each of these commands is shown to complete, under conditions on
the state and its operands alone: errorDetected, selfTestStart, selfTestEnd, fltAckWrite, fltUnfenceWrite. -/
def Obligations.FaultHandling : Prop :=
  (∀ (s : State) (u src t : Nat), ((u < 65536 ∨ 1048576 ≤ u) → exec (.errorDetected u src t) s = .next s) ∧
    (65536 ≤ u → u < 1048576 → exec (.errorDetected u src t) s = .next ((s.at_ t).reportError u (src % 256)))) ∧
  (∀ (s w : State) (u src : Nat), w = s.reportError u src →
    ((s.fltUnit u).fenced = true → w.flt.recs = s.flt.recs ∧ (w.fltUnit u).errors = min 4095 ((s.fltUnit u).errors + 1)) ∧
    ((s.fltUnit u).fenced = false → (∀ r, s.recOf u 0 = some r → (w.fltUnit u).errors = min 4095 ((s.fltUnit u).errors + 1) ∧
        w.flt.recs = s.flt.recs.map fun x => if x.slot = r.slot then { r with rep := min 255 (r.rep + 1) } else x) ∧
      (s.recOf u 0 = none → (∀ r, s.recOf u 1 = some r → w = (s.setFltUnit u { s.fltUnit u with errors := min 4095 ((s.fltUnit u).errors + 1) }).lasting r 16 5) ∧
        (s.recOf u 1 = none → (s.flt.recs.length < 64 → (∃ r, w.flt.recs = s.flt.recs ++ [r] ∧ r.unit = u ∧ r.source = src ∧ r.st = (if testable u then 0 else 4) ∧ r.seq = s.flt.seq ∧ r.rep = 0) ∧
            (w.fltUnit u).errors = min 4095 ((s.fltUnit u).errors + 1) ∧ w.get R.FLT_HIST F.FLT_HIST_NEW = 1 ∧ w.flt.seq = (s.flt.seq + 1) % 65536) ∧
          (64 ≤ s.flt.recs.length → s.oldestRec 2 = none → s.oldestRec 4 = none → w.flt.recs = s.flt.recs ∧ w.get R.FLT_HIST F.FLT_HIST_FLT_QUEUE_OVF = 1 ∧
            (w.fltUnit u).retest = testable u))))) ∧
  (∀ (s : State) (t : Nat), ((s.testing.isSome = true ∨ s.isReady = false) → exec (.selfTestStart t) s = .next (s.at_ t)) ∧ (s.testing = none → s.isReady = true →
    ((s.at_ t).nextTest = none → exec (.selfTestStart t) s = .next (s.at_ t)) ∧ (∀ r, s.oldestRec 0 = some r → ∃ w : State, exec (.selfTestStart t) s = .next (w.testBegin r.unit).sdiInputs ∧
      w.flt.since = t ∧ w.flt.recs = s.flt.recs.map (fun x => if x.slot = r.slot then { r with st := 1 } else x)))) ∧
  (∀ (s : State) (r : TestRes) (t : Nat) (c : FltRec), (s.testing = none → exec (.selfTestEnd r t) s = .next (s.at_ t)) ∧ (s.testing = some c →
    exec (.selfTestEnd .pass t) s = .next ((s.at_ t).testPass c) ∧ (∀ rows, exec (.selfTestEnd (.fail rows) t) s = .next ((s.at_ t).testFail c rows)) ∧
    exec (.selfTestEnd .abandoned t) s = .next ((s.at_ t).testAbandon c true))) ∧
  (∀ (s : State) (c : FltRec), (s.fltUnit c.unit).fenced = false → (∃ w : State, s.testPass c = w.testOver c.unit ∧ w.get R.FLT_HIST F.FLT_HIST_TRANSIENT = 1 ∧
      (w.rd R.FLT_TRANSIENT_CNT).toNat = min 0xFFFFFFFF ((s.rd R.FLT_TRANSIENT_CNT).toNat + 1) ∧ (w.fltUnit c.unit).trans = min 4095 ((s.fltUnit c.unit).trans + 1) ∧
      ∀ x ∈ w.flt.recs, x.slot = c.slot → x.st = 2) ∧
    (∀ rows, ∃ w : State, s.testFail c rows = w.testOver c.unit ∧ w = s.lasting c 0 rows ∧ w.get R.FLT_HIST F.FLT_HIST_LASTING = 1) ∧
    (c.detail / 32 % 2 = 0 → ∃ w : State, s.testAbandon c true = w.testOver c.unit ∧ ∀ x ∈ w.flt.recs, x.slot = c.slot → x.st = 0 ∧ x.detail = c.detail + 32)) ∧
  (∀ (s : State) (v : Nat), s.upFor R.FLT_ACK → ∃ l, exec (.fltAckWrite v) s = .next { s with flt := { s.flt with recs := l } } ∧
    l = s.flt.recs.filter (fun r => !decide (r.slot = v % 64 ∧ r.seq = v / 65536 % 65536 ∧ 2 ≤ r.st))) ∧
  (∀ (s : State) (v t u : Nat), s.upFor R.FLT_UNFENCE → u = v % 2 ^ 20 → (v / 2 ^ 31 % 2 = 0 → exec (.fltUnfenceWrite v t) s = .next (s.at_ t)) ∧ (v / 2 ^ 31 % 2 = 1 →
    (s.mayUnfence u = true → s.recOf u 0 = none → s.recOf u 1 = none → ∃ src, exec (.fltUnfenceWrite v t) s = .next (({ s with now := t, free := s.free + 1 } : State).queueRec u src)) ∧
    ((s.mayUnfence u = false ∨ (s.recOf u 0).isSome = true ∨ (s.recOf u 1).isSome = true) → ∃ w, exec (.fltUnfenceWrite v t) s = .next w ∧
      w.get R.FLT_HIST F.FLT_HIST_UNFENCE_ERR = 1 ∧ s.onlyRegs w [R.FLT_HIST])))

/-! ### Package (19_package_power_electrical.md) -/

/-- Board management and test (from R454, R455): telemetry answers from the end of P1, TLM_HIST alone takes a write and its bits clear by ones; an
external temperature stands for 10 s after its last reading; boundary scan works in every lifecycle state and a debug instruction only while debug is
open; over-temperature sets OT and OT_SEEN. Clauses on points the specification leaves open follow the model's own reading (log entries 99, 100, 178).
That an event whose condition does not hold changes nothing is the model's choice (log entry 146). Each of these commands is shown to complete, under
conditions on the state and its operands alone: i2cRead, i2cWrite, extTempRead, boundaryScanInstruction, overTemperature. -/
def Obligations.BoardManagement : Prop :=
  (∀ (s : State) (cmd : Nat), (s.i2cUp = true → exec (.i2cRead cmd) s = .next { s with pkg := { s.pkg with last := some (s.tlm cmd) } }) ∧
    (s.i2cUp = false → exec (.i2cRead cmd) s = .next { s with pkg := { s.pkg with last := none } })) ∧
  (∀ s : State, s.tlm 0 = 0x7272 ∧ s.tlm 1 = BitVec.ofInt 16 s.pkg.temp ∧ s.tlm 2 = BitVec.ofNat 16 s.vdd ∧ s.tlm 4 = BitVec.ofNat 16 s.pkg.hist ∧ ∀ c, 4 < c → s.tlm c = 0) ∧
  (∀ (s : State) (cmd v : Nat), ((s.i2cUp = false ∨ cmd ≠ 4) → exec (.i2cWrite cmd v) s = .next s) ∧ (s.i2cUp = true → cmd = 4 → ∃ u, exec (.i2cWrite cmd v) s = .next u ∧
    u = { s with pkg := { s.pkg with hist := u.pkg.hist } } ∧ ∀ b < 2, u.pkg.hist.testBit b = (s.pkg.hist.testBit b && !v.testBit b))) ∧
  (∀ (s : State) (v : Option Int) (t : Nat), (s.flag R.REF_CTL F.REF_CTL_TEMP_SRC = false → exec (.extTempRead v t) s = .next (s.at_ t)) ∧ (s.flag R.REF_CTL F.REF_CTL_TEMP_SRC = true →
    (∀ x, v = some x → exec (.extTempRead v t) s = .next { s with now := t, pkg := { s.pkg with ext := some x, extAt := t } }) ∧
    (v = none → (s.pkg.extAt + 10 * ticksPerSec < t → exec (.extTempRead v t) s = .next { s with now := t, pkg := { s.pkg with ext := none } }) ∧
      (t ≤ s.pkg.extAt + 10 * ticksPerSec → exec (.extTempRead v t) s = .next (s.at_ t))))) ∧
  (∀ (s : State) (op : Jtag), (op = .debug → s.get R.SEC_STAT F.SEC_STAT_DEBUG = 0 → exec (.boundaryScanInstruction op) s = .next s) ∧
    ((op ≠ .debug ∨ s.get R.SEC_STAT F.SEC_STAT_DEBUG ≠ 0) → ∃ u, exec (.boundaryScanInstruction op) s = .next u ∧ u.pkg.jtag = op ∧
      u.pkg.tdo = (if op = .idcode then some 0xB72720F3 else none) ∧ u = { s with pkg := u.pkg })) ∧
  (∀ s : State, (s.get R.GLB_GRADE F.GLB_GRADE_GRADE = 0x45 → s.tempMax = 11000) ∧ (s.get R.GLB_GRADE F.GLB_GRADE_GRADE ≠ 0x45 → s.tempMax = 10000)) ∧
  (∀ (s : State) (k : Int), ∃ u, exec (.overTemperature k) s = .next u ∧ u = { s with pkg := { s.pkg with temp := k, ot := decide (s.tempMax < k), hist := u.pkg.hist } } ∧
    u.pkg.hist.testBit 1 = (s.pkg.hist.testBit 1 || decide (s.tempMax < k)) ∧ u.pkg.hist.testBit 0 = s.pkg.hist.testBit 0)
end

