-- ==== Sys2Proof/Laws/State.lean ====
section
/-! SUPPORT. Each named update of the state leaves the other components alone: one lemma per component and update. -/
set_option Elab.async false
namespace Sys2Proof.Machine

/-! `State.wr` -/

@[simp] theorem State.wr_taken (s : State) (a : Nat) (v : Word) : (s.wr a v).taken = s.taken := by simp only [State.wr]
@[simp] theorem State.wr_snap (s : State) (a : Nat) (v : Word) : (s.wr a v).snap = s.snap := by simp only [State.wr]
@[simp] theorem State.wr_now (s : State) (a : Nat) (v : Word) : (s.wr a v).now = s.now := by simp only [State.wr]
@[simp] theorem State.wr_free (s : State) (a : Nat) (v : Word) : (s.wr a v).free = s.free := by simp only [State.wr]
@[simp] theorem State.wr_media (s : State) (a : Nat) (v : Word) : (s.wr a v).media = s.media := by simp only [State.wr]
@[simp] theorem State.wr_xpt (s : State) (a : Nat) (v : Word) : (s.wr a v).xpt = s.xpt := by simp only [State.wr]
@[simp] theorem State.wr_fst (s : State) (a : Nat) (v : Word) : (s.wr a v).fst = s.fst := by simp only [State.wr]
@[simp] theorem State.wr_che (s : State) (a : Nat) (v : Word) : (s.wr a v).che = s.che := by simp only [State.wr]
@[simp] theorem State.wr_sou (s : State) (a : Nat) (v : Word) : (s.wr a v).sou = s.sou := by simp only [State.wr]
@[simp] theorem State.wr_aud (s : State) (a : Nat) (v : Word) : (s.wr a v).aud = s.aud := by simp only [State.wr]
@[simp] theorem State.wr_host (s : State) (a : Nat) (v : Word) : (s.wr a v).host = s.host := by simp only [State.wr]
@[simp] theorem State.wr_lv (s : State) (a : Nat) (v : Word) : (s.wr a v).lv = s.lv := by simp only [State.wr]
@[simp] theorem State.wr_ref (s : State) (a : Nat) (v : Word) : (s.wr a v).ref = s.ref := by simp only [State.wr]
@[simp] theorem State.wr_syn (s : State) (a : Nat) (v : Word) : (s.wr a v).syn = s.syn := by simp only [State.wr]
@[simp] theorem State.wr_sec (s : State) (a : Nat) (v : Word) : (s.wr a v).sec = s.sec := by simp only [State.wr]
@[simp] theorem State.wr_flt (s : State) (a : Nat) (v : Word) : (s.wr a v).flt = s.flt := by simp only [State.wr]
@[simp] theorem State.wr_axl (s : State) (a : Nat) (v : Word) : (s.wr a v).axl = s.axl := by simp only [State.wr]
@[simp] theorem State.wr_rst (s : State) (a : Nat) (v : Word) : (s.wr a v).rst = s.rst := by simp only [State.wr]
@[simp] theorem State.wr_hsf (s : State) (a : Nat) (v : Word) : (s.wr a v).hsf = s.hsf := by simp only [State.wr]
@[simp] theorem State.wr_mtx (s : State) (a : Nat) (v : Word) : (s.wr a v).mtx = s.mtx := by simp only [State.wr]
@[simp] theorem State.wr_mate (s : State) (a : Nat) (v : Word) : (s.wr a v).mate = s.mate := by simp only [State.wr]
@[simp] theorem State.wr_pkg (s : State) (a : Nat) (v : Word) : (s.wr a v).pkg = s.pkg := by simp only [State.wr]
@[simp] theorem State.wr_pending (s : State) (a : Nat) (v : Word) : (s.wr a v).pending = s.pending := by simp only [State.wr]

/-! `State.set` -/

@[simp] theorem State.set_taken (s : State) (a : Nat) (f : Bits) (v : Nat) : (s.set a f v).taken = s.taken := by simp only [State.set, State.wr_taken]
@[simp] theorem State.set_snap (s : State) (a : Nat) (f : Bits) (v : Nat) : (s.set a f v).snap = s.snap := by simp only [State.set, State.wr_snap]
@[simp] theorem State.set_now (s : State) (a : Nat) (f : Bits) (v : Nat) : (s.set a f v).now = s.now := by simp only [State.set, State.wr_now]
@[simp] theorem State.set_free (s : State) (a : Nat) (f : Bits) (v : Nat) : (s.set a f v).free = s.free := by simp only [State.set, State.wr_free]
@[simp] theorem State.set_media (s : State) (a : Nat) (f : Bits) (v : Nat) : (s.set a f v).media = s.media := by simp only [State.set, State.wr_media]
@[simp] theorem State.set_xpt (s : State) (a : Nat) (f : Bits) (v : Nat) : (s.set a f v).xpt = s.xpt := by simp only [State.set, State.wr_xpt]
@[simp] theorem State.set_fst (s : State) (a : Nat) (f : Bits) (v : Nat) : (s.set a f v).fst = s.fst := by simp only [State.set, State.wr_fst]
@[simp] theorem State.set_che (s : State) (a : Nat) (f : Bits) (v : Nat) : (s.set a f v).che = s.che := by simp only [State.set, State.wr_che]
@[simp] theorem State.set_sou (s : State) (a : Nat) (f : Bits) (v : Nat) : (s.set a f v).sou = s.sou := by simp only [State.set, State.wr_sou]
@[simp] theorem State.set_aud (s : State) (a : Nat) (f : Bits) (v : Nat) : (s.set a f v).aud = s.aud := by simp only [State.set, State.wr_aud]
@[simp] theorem State.set_host (s : State) (a : Nat) (f : Bits) (v : Nat) : (s.set a f v).host = s.host := by simp only [State.set, State.wr_host]
@[simp] theorem State.set_lv (s : State) (a : Nat) (f : Bits) (v : Nat) : (s.set a f v).lv = s.lv := by simp only [State.set, State.wr_lv]
@[simp] theorem State.set_ref (s : State) (a : Nat) (f : Bits) (v : Nat) : (s.set a f v).ref = s.ref := by simp only [State.set, State.wr_ref]
@[simp] theorem State.set_syn (s : State) (a : Nat) (f : Bits) (v : Nat) : (s.set a f v).syn = s.syn := by simp only [State.set, State.wr_syn]
@[simp] theorem State.set_sec (s : State) (a : Nat) (f : Bits) (v : Nat) : (s.set a f v).sec = s.sec := by simp only [State.set, State.wr_sec]
@[simp] theorem State.set_flt (s : State) (a : Nat) (f : Bits) (v : Nat) : (s.set a f v).flt = s.flt := by simp only [State.set, State.wr_flt]
@[simp] theorem State.set_axl (s : State) (a : Nat) (f : Bits) (v : Nat) : (s.set a f v).axl = s.axl := by simp only [State.set, State.wr_axl]
@[simp] theorem State.set_rst (s : State) (a : Nat) (f : Bits) (v : Nat) : (s.set a f v).rst = s.rst := by simp only [State.set, State.wr_rst]
@[simp] theorem State.set_hsf (s : State) (a : Nat) (f : Bits) (v : Nat) : (s.set a f v).hsf = s.hsf := by simp only [State.set, State.wr_hsf]
@[simp] theorem State.set_mtx (s : State) (a : Nat) (f : Bits) (v : Nat) : (s.set a f v).mtx = s.mtx := by simp only [State.set, State.wr_mtx]
@[simp] theorem State.set_mate (s : State) (a : Nat) (f : Bits) (v : Nat) : (s.set a f v).mate = s.mate := by simp only [State.set, State.wr_mate]
@[simp] theorem State.set_pkg (s : State) (a : Nat) (f : Bits) (v : Nat) : (s.set a f v).pkg = s.pkg := by simp only [State.set, State.wr_pkg]
@[simp] theorem State.set_pending (s : State) (a : Nat) (f : Bits) (v : Nat) : (s.set a f v).pending = s.pending := by simp only [State.set, State.wr_pending]

/-! `State.setB` -/

@[simp] theorem State.setB_taken (s : State) (a : Nat) (f : Bits) (b : Bool) : (s.setB a f b).taken = s.taken := by simp only [State.setB, State.set_taken]
@[simp] theorem State.setB_snap (s : State) (a : Nat) (f : Bits) (b : Bool) : (s.setB a f b).snap = s.snap := by simp only [State.setB, State.set_snap]
@[simp] theorem State.setB_now (s : State) (a : Nat) (f : Bits) (b : Bool) : (s.setB a f b).now = s.now := by simp only [State.setB, State.set_now]
@[simp] theorem State.setB_free (s : State) (a : Nat) (f : Bits) (b : Bool) : (s.setB a f b).free = s.free := by simp only [State.setB, State.set_free]
@[simp] theorem State.setB_media (s : State) (a : Nat) (f : Bits) (b : Bool) : (s.setB a f b).media = s.media := by simp only [State.setB, State.set_media]
@[simp] theorem State.setB_xpt (s : State) (a : Nat) (f : Bits) (b : Bool) : (s.setB a f b).xpt = s.xpt := by simp only [State.setB, State.set_xpt]
@[simp] theorem State.setB_fst (s : State) (a : Nat) (f : Bits) (b : Bool) : (s.setB a f b).fst = s.fst := by simp only [State.setB, State.set_fst]
@[simp] theorem State.setB_che (s : State) (a : Nat) (f : Bits) (b : Bool) : (s.setB a f b).che = s.che := by simp only [State.setB, State.set_che]
@[simp] theorem State.setB_sou (s : State) (a : Nat) (f : Bits) (b : Bool) : (s.setB a f b).sou = s.sou := by simp only [State.setB, State.set_sou]
@[simp] theorem State.setB_aud (s : State) (a : Nat) (f : Bits) (b : Bool) : (s.setB a f b).aud = s.aud := by simp only [State.setB, State.set_aud]
@[simp] theorem State.setB_host (s : State) (a : Nat) (f : Bits) (b : Bool) : (s.setB a f b).host = s.host := by simp only [State.setB, State.set_host]
@[simp] theorem State.setB_lv (s : State) (a : Nat) (f : Bits) (b : Bool) : (s.setB a f b).lv = s.lv := by simp only [State.setB, State.set_lv]
@[simp] theorem State.setB_ref (s : State) (a : Nat) (f : Bits) (b : Bool) : (s.setB a f b).ref = s.ref := by simp only [State.setB, State.set_ref]
@[simp] theorem State.setB_syn (s : State) (a : Nat) (f : Bits) (b : Bool) : (s.setB a f b).syn = s.syn := by simp only [State.setB, State.set_syn]
@[simp] theorem State.setB_sec (s : State) (a : Nat) (f : Bits) (b : Bool) : (s.setB a f b).sec = s.sec := by simp only [State.setB, State.set_sec]
@[simp] theorem State.setB_flt (s : State) (a : Nat) (f : Bits) (b : Bool) : (s.setB a f b).flt = s.flt := by simp only [State.setB, State.set_flt]
@[simp] theorem State.setB_axl (s : State) (a : Nat) (f : Bits) (b : Bool) : (s.setB a f b).axl = s.axl := by simp only [State.setB, State.set_axl]
@[simp] theorem State.setB_rst (s : State) (a : Nat) (f : Bits) (b : Bool) : (s.setB a f b).rst = s.rst := by simp only [State.setB, State.set_rst]
@[simp] theorem State.setB_hsf (s : State) (a : Nat) (f : Bits) (b : Bool) : (s.setB a f b).hsf = s.hsf := by simp only [State.setB, State.set_hsf]
@[simp] theorem State.setB_mtx (s : State) (a : Nat) (f : Bits) (b : Bool) : (s.setB a f b).mtx = s.mtx := by simp only [State.setB, State.set_mtx]
@[simp] theorem State.setB_mate (s : State) (a : Nat) (f : Bits) (b : Bool) : (s.setB a f b).mate = s.mate := by simp only [State.setB, State.set_mate]
@[simp] theorem State.setB_pkg (s : State) (a : Nat) (f : Bits) (b : Bool) : (s.setB a f b).pkg = s.pkg := by simp only [State.setB, State.set_pkg]
@[simp] theorem State.setB_pending (s : State) (a : Nat) (f : Bits) (b : Bool) : (s.setB a f b).pending = s.pending := by simp only [State.setB, State.set_pending]

/-! `State.wrInt` -/

@[simp] theorem State.wrInt_taken (s : State) (a : Nat) (v : Int) : (s.wrInt a v).taken = s.taken := by simp only [State.wrInt, State.wr_taken]
@[simp] theorem State.wrInt_snap (s : State) (a : Nat) (v : Int) : (s.wrInt a v).snap = s.snap := by simp only [State.wrInt, State.wr_snap]
@[simp] theorem State.wrInt_now (s : State) (a : Nat) (v : Int) : (s.wrInt a v).now = s.now := by simp only [State.wrInt, State.wr_now]
@[simp] theorem State.wrInt_free (s : State) (a : Nat) (v : Int) : (s.wrInt a v).free = s.free := by simp only [State.wrInt, State.wr_free]
@[simp] theorem State.wrInt_media (s : State) (a : Nat) (v : Int) : (s.wrInt a v).media = s.media := by simp only [State.wrInt, State.wr_media]
@[simp] theorem State.wrInt_xpt (s : State) (a : Nat) (v : Int) : (s.wrInt a v).xpt = s.xpt := by simp only [State.wrInt, State.wr_xpt]
@[simp] theorem State.wrInt_fst (s : State) (a : Nat) (v : Int) : (s.wrInt a v).fst = s.fst := by simp only [State.wrInt, State.wr_fst]
@[simp] theorem State.wrInt_che (s : State) (a : Nat) (v : Int) : (s.wrInt a v).che = s.che := by simp only [State.wrInt, State.wr_che]
@[simp] theorem State.wrInt_sou (s : State) (a : Nat) (v : Int) : (s.wrInt a v).sou = s.sou := by simp only [State.wrInt, State.wr_sou]
@[simp] theorem State.wrInt_aud (s : State) (a : Nat) (v : Int) : (s.wrInt a v).aud = s.aud := by simp only [State.wrInt, State.wr_aud]
@[simp] theorem State.wrInt_host (s : State) (a : Nat) (v : Int) : (s.wrInt a v).host = s.host := by simp only [State.wrInt, State.wr_host]
@[simp] theorem State.wrInt_lv (s : State) (a : Nat) (v : Int) : (s.wrInt a v).lv = s.lv := by simp only [State.wrInt, State.wr_lv]
@[simp] theorem State.wrInt_ref (s : State) (a : Nat) (v : Int) : (s.wrInt a v).ref = s.ref := by simp only [State.wrInt, State.wr_ref]
@[simp] theorem State.wrInt_syn (s : State) (a : Nat) (v : Int) : (s.wrInt a v).syn = s.syn := by simp only [State.wrInt, State.wr_syn]
@[simp] theorem State.wrInt_sec (s : State) (a : Nat) (v : Int) : (s.wrInt a v).sec = s.sec := by simp only [State.wrInt, State.wr_sec]
@[simp] theorem State.wrInt_flt (s : State) (a : Nat) (v : Int) : (s.wrInt a v).flt = s.flt := by simp only [State.wrInt, State.wr_flt]
@[simp] theorem State.wrInt_axl (s : State) (a : Nat) (v : Int) : (s.wrInt a v).axl = s.axl := by simp only [State.wrInt, State.wr_axl]
@[simp] theorem State.wrInt_rst (s : State) (a : Nat) (v : Int) : (s.wrInt a v).rst = s.rst := by simp only [State.wrInt, State.wr_rst]
@[simp] theorem State.wrInt_hsf (s : State) (a : Nat) (v : Int) : (s.wrInt a v).hsf = s.hsf := by simp only [State.wrInt, State.wr_hsf]
@[simp] theorem State.wrInt_mtx (s : State) (a : Nat) (v : Int) : (s.wrInt a v).mtx = s.mtx := by simp only [State.wrInt, State.wr_mtx]
@[simp] theorem State.wrInt_mate (s : State) (a : Nat) (v : Int) : (s.wrInt a v).mate = s.mate := by simp only [State.wrInt, State.wr_mate]
@[simp] theorem State.wrInt_pkg (s : State) (a : Nat) (v : Int) : (s.wrInt a v).pkg = s.pkg := by simp only [State.wrInt, State.wr_pkg]
@[simp] theorem State.wrInt_pending (s : State) (a : Nat) (v : Int) : (s.wrInt a v).pending = s.pending := by simp only [State.wrInt, State.wr_pending]

/-! `State.count` -/

@[simp] theorem State.count_taken (s : State) (a n : Nat) : (s.count a n).taken = s.taken := by simp only [State.count, State.wr_taken]
@[simp] theorem State.count_snap (s : State) (a n : Nat) : (s.count a n).snap = s.snap := by simp only [State.count, State.wr_snap]
@[simp] theorem State.count_now (s : State) (a n : Nat) : (s.count a n).now = s.now := by simp only [State.count, State.wr_now]
@[simp] theorem State.count_free (s : State) (a n : Nat) : (s.count a n).free = s.free := by simp only [State.count, State.wr_free]
@[simp] theorem State.count_media (s : State) (a n : Nat) : (s.count a n).media = s.media := by simp only [State.count, State.wr_media]
@[simp] theorem State.count_xpt (s : State) (a n : Nat) : (s.count a n).xpt = s.xpt := by simp only [State.count, State.wr_xpt]
@[simp] theorem State.count_fst (s : State) (a n : Nat) : (s.count a n).fst = s.fst := by simp only [State.count, State.wr_fst]
@[simp] theorem State.count_che (s : State) (a n : Nat) : (s.count a n).che = s.che := by simp only [State.count, State.wr_che]
@[simp] theorem State.count_sou (s : State) (a n : Nat) : (s.count a n).sou = s.sou := by simp only [State.count, State.wr_sou]
@[simp] theorem State.count_aud (s : State) (a n : Nat) : (s.count a n).aud = s.aud := by simp only [State.count, State.wr_aud]
@[simp] theorem State.count_host (s : State) (a n : Nat) : (s.count a n).host = s.host := by simp only [State.count, State.wr_host]
@[simp] theorem State.count_lv (s : State) (a n : Nat) : (s.count a n).lv = s.lv := by simp only [State.count, State.wr_lv]
@[simp] theorem State.count_ref (s : State) (a n : Nat) : (s.count a n).ref = s.ref := by simp only [State.count, State.wr_ref]
@[simp] theorem State.count_syn (s : State) (a n : Nat) : (s.count a n).syn = s.syn := by simp only [State.count, State.wr_syn]
@[simp] theorem State.count_sec (s : State) (a n : Nat) : (s.count a n).sec = s.sec := by simp only [State.count, State.wr_sec]
@[simp] theorem State.count_flt (s : State) (a n : Nat) : (s.count a n).flt = s.flt := by simp only [State.count, State.wr_flt]
@[simp] theorem State.count_axl (s : State) (a n : Nat) : (s.count a n).axl = s.axl := by simp only [State.count, State.wr_axl]
@[simp] theorem State.count_rst (s : State) (a n : Nat) : (s.count a n).rst = s.rst := by simp only [State.count, State.wr_rst]
@[simp] theorem State.count_hsf (s : State) (a n : Nat) : (s.count a n).hsf = s.hsf := by simp only [State.count, State.wr_hsf]
@[simp] theorem State.count_mtx (s : State) (a n : Nat) : (s.count a n).mtx = s.mtx := by simp only [State.count, State.wr_mtx]
@[simp] theorem State.count_mate (s : State) (a n : Nat) : (s.count a n).mate = s.mate := by simp only [State.count, State.wr_mate]
@[simp] theorem State.count_pkg (s : State) (a n : Nat) : (s.count a n).pkg = s.pkg := by simp only [State.count, State.wr_pkg]
@[simp] theorem State.count_pending (s : State) (a n : Nat) : (s.count a n).pending = s.pending := by simp only [State.count, State.wr_pending]

/-! `State.inc` -/

@[simp] theorem State.inc_taken (s : State) (a : Nat) : (s.inc a).taken = s.taken := by simp only [State.inc, State.count_taken]
@[simp] theorem State.inc_snap (s : State) (a : Nat) : (s.inc a).snap = s.snap := by simp only [State.inc, State.count_snap]
@[simp] theorem State.inc_now (s : State) (a : Nat) : (s.inc a).now = s.now := by simp only [State.inc, State.count_now]
@[simp] theorem State.inc_free (s : State) (a : Nat) : (s.inc a).free = s.free := by simp only [State.inc, State.count_free]
@[simp] theorem State.inc_media (s : State) (a : Nat) : (s.inc a).media = s.media := by simp only [State.inc, State.count_media]
@[simp] theorem State.inc_xpt (s : State) (a : Nat) : (s.inc a).xpt = s.xpt := by simp only [State.inc, State.count_xpt]
@[simp] theorem State.inc_fst (s : State) (a : Nat) : (s.inc a).fst = s.fst := by simp only [State.inc, State.count_fst]
@[simp] theorem State.inc_che (s : State) (a : Nat) : (s.inc a).che = s.che := by simp only [State.inc, State.count_che]
@[simp] theorem State.inc_sou (s : State) (a : Nat) : (s.inc a).sou = s.sou := by simp only [State.inc, State.count_sou]
@[simp] theorem State.inc_aud (s : State) (a : Nat) : (s.inc a).aud = s.aud := by simp only [State.inc, State.count_aud]
@[simp] theorem State.inc_host (s : State) (a : Nat) : (s.inc a).host = s.host := by simp only [State.inc, State.count_host]
@[simp] theorem State.inc_lv (s : State) (a : Nat) : (s.inc a).lv = s.lv := by simp only [State.inc, State.count_lv]
@[simp] theorem State.inc_ref (s : State) (a : Nat) : (s.inc a).ref = s.ref := by simp only [State.inc, State.count_ref]
@[simp] theorem State.inc_syn (s : State) (a : Nat) : (s.inc a).syn = s.syn := by simp only [State.inc, State.count_syn]
@[simp] theorem State.inc_sec (s : State) (a : Nat) : (s.inc a).sec = s.sec := by simp only [State.inc, State.count_sec]
@[simp] theorem State.inc_flt (s : State) (a : Nat) : (s.inc a).flt = s.flt := by simp only [State.inc, State.count_flt]
@[simp] theorem State.inc_axl (s : State) (a : Nat) : (s.inc a).axl = s.axl := by simp only [State.inc, State.count_axl]
@[simp] theorem State.inc_rst (s : State) (a : Nat) : (s.inc a).rst = s.rst := by simp only [State.inc, State.count_rst]
@[simp] theorem State.inc_hsf (s : State) (a : Nat) : (s.inc a).hsf = s.hsf := by simp only [State.inc, State.count_hsf]
@[simp] theorem State.inc_mtx (s : State) (a : Nat) : (s.inc a).mtx = s.mtx := by simp only [State.inc, State.count_mtx]
@[simp] theorem State.inc_mate (s : State) (a : Nat) : (s.inc a).mate = s.mate := by simp only [State.inc, State.count_mate]
@[simp] theorem State.inc_pkg (s : State) (a : Nat) : (s.inc a).pkg = s.pkg := by simp only [State.inc, State.count_pkg]
@[simp] theorem State.inc_pending (s : State) (a : Nat) : (s.inc a).pending = s.pending := by simp only [State.inc, State.count_pending]

/-! `State.wr2` -/

@[simp] theorem State.wr2_taken (s : State) (lo hi v : Nat) : (s.wr2 lo hi v).taken = s.taken := by simp only [State.wr2, State.wr_taken]
@[simp] theorem State.wr2_snap (s : State) (lo hi v : Nat) : (s.wr2 lo hi v).snap = s.snap := by simp only [State.wr2, State.wr_snap]
@[simp] theorem State.wr2_now (s : State) (lo hi v : Nat) : (s.wr2 lo hi v).now = s.now := by simp only [State.wr2, State.wr_now]
@[simp] theorem State.wr2_free (s : State) (lo hi v : Nat) : (s.wr2 lo hi v).free = s.free := by simp only [State.wr2, State.wr_free]
@[simp] theorem State.wr2_media (s : State) (lo hi v : Nat) : (s.wr2 lo hi v).media = s.media := by simp only [State.wr2, State.wr_media]
@[simp] theorem State.wr2_xpt (s : State) (lo hi v : Nat) : (s.wr2 lo hi v).xpt = s.xpt := by simp only [State.wr2, State.wr_xpt]
@[simp] theorem State.wr2_fst (s : State) (lo hi v : Nat) : (s.wr2 lo hi v).fst = s.fst := by simp only [State.wr2, State.wr_fst]
@[simp] theorem State.wr2_che (s : State) (lo hi v : Nat) : (s.wr2 lo hi v).che = s.che := by simp only [State.wr2, State.wr_che]
@[simp] theorem State.wr2_sou (s : State) (lo hi v : Nat) : (s.wr2 lo hi v).sou = s.sou := by simp only [State.wr2, State.wr_sou]
@[simp] theorem State.wr2_aud (s : State) (lo hi v : Nat) : (s.wr2 lo hi v).aud = s.aud := by simp only [State.wr2, State.wr_aud]
@[simp] theorem State.wr2_host (s : State) (lo hi v : Nat) : (s.wr2 lo hi v).host = s.host := by simp only [State.wr2, State.wr_host]
@[simp] theorem State.wr2_lv (s : State) (lo hi v : Nat) : (s.wr2 lo hi v).lv = s.lv := by simp only [State.wr2, State.wr_lv]
@[simp] theorem State.wr2_ref (s : State) (lo hi v : Nat) : (s.wr2 lo hi v).ref = s.ref := by simp only [State.wr2, State.wr_ref]
@[simp] theorem State.wr2_syn (s : State) (lo hi v : Nat) : (s.wr2 lo hi v).syn = s.syn := by simp only [State.wr2, State.wr_syn]
@[simp] theorem State.wr2_sec (s : State) (lo hi v : Nat) : (s.wr2 lo hi v).sec = s.sec := by simp only [State.wr2, State.wr_sec]
@[simp] theorem State.wr2_flt (s : State) (lo hi v : Nat) : (s.wr2 lo hi v).flt = s.flt := by simp only [State.wr2, State.wr_flt]
@[simp] theorem State.wr2_axl (s : State) (lo hi v : Nat) : (s.wr2 lo hi v).axl = s.axl := by simp only [State.wr2, State.wr_axl]
@[simp] theorem State.wr2_rst (s : State) (lo hi v : Nat) : (s.wr2 lo hi v).rst = s.rst := by simp only [State.wr2, State.wr_rst]
@[simp] theorem State.wr2_hsf (s : State) (lo hi v : Nat) : (s.wr2 lo hi v).hsf = s.hsf := by simp only [State.wr2, State.wr_hsf]
@[simp] theorem State.wr2_mtx (s : State) (lo hi v : Nat) : (s.wr2 lo hi v).mtx = s.mtx := by simp only [State.wr2, State.wr_mtx]
@[simp] theorem State.wr2_mate (s : State) (lo hi v : Nat) : (s.wr2 lo hi v).mate = s.mate := by simp only [State.wr2, State.wr_mate]
@[simp] theorem State.wr2_pkg (s : State) (lo hi v : Nat) : (s.wr2 lo hi v).pkg = s.pkg := by simp only [State.wr2, State.wr_pkg]
@[simp] theorem State.wr2_pending (s : State) (lo hi v : Nat) : (s.wr2 lo hi v).pending = s.pending := by simp only [State.wr2, State.wr_pending]

/-! `State.dirty` -/

@[simp] theorem State.dirty_taken (s : State) (k : Nat) : (s.dirty k).taken = s.taken := by simp only [State.dirty, State.set_taken]
@[simp] theorem State.dirty_snap (s : State) (k : Nat) : (s.dirty k).snap = s.snap := by simp only [State.dirty, State.set_snap]
@[simp] theorem State.dirty_now (s : State) (k : Nat) : (s.dirty k).now = s.now := by simp only [State.dirty, State.set_now]
@[simp] theorem State.dirty_free (s : State) (k : Nat) : (s.dirty k).free = s.free := by simp only [State.dirty, State.set_free]
@[simp] theorem State.dirty_media (s : State) (k : Nat) : (s.dirty k).media = s.media := by simp only [State.dirty, State.set_media]
@[simp] theorem State.dirty_xpt (s : State) (k : Nat) : (s.dirty k).xpt = s.xpt := by simp only [State.dirty, State.set_xpt]
@[simp] theorem State.dirty_fst (s : State) (k : Nat) : (s.dirty k).fst = s.fst := by simp only [State.dirty, State.set_fst]
@[simp] theorem State.dirty_che (s : State) (k : Nat) : (s.dirty k).che = s.che := by simp only [State.dirty, State.set_che]
@[simp] theorem State.dirty_sou (s : State) (k : Nat) : (s.dirty k).sou = s.sou := by simp only [State.dirty, State.set_sou]
@[simp] theorem State.dirty_aud (s : State) (k : Nat) : (s.dirty k).aud = s.aud := by simp only [State.dirty, State.set_aud]
@[simp] theorem State.dirty_host (s : State) (k : Nat) : (s.dirty k).host = s.host := by simp only [State.dirty, State.set_host]
@[simp] theorem State.dirty_lv (s : State) (k : Nat) : (s.dirty k).lv = s.lv := by simp only [State.dirty, State.set_lv]
@[simp] theorem State.dirty_ref (s : State) (k : Nat) : (s.dirty k).ref = s.ref := by simp only [State.dirty, State.set_ref]
@[simp] theorem State.dirty_syn (s : State) (k : Nat) : (s.dirty k).syn = s.syn := by simp only [State.dirty, State.set_syn]
@[simp] theorem State.dirty_sec (s : State) (k : Nat) : (s.dirty k).sec = s.sec := by simp only [State.dirty, State.set_sec]
@[simp] theorem State.dirty_flt (s : State) (k : Nat) : (s.dirty k).flt = s.flt := by simp only [State.dirty, State.set_flt]
@[simp] theorem State.dirty_axl (s : State) (k : Nat) : (s.dirty k).axl = s.axl := by simp only [State.dirty, State.set_axl]
@[simp] theorem State.dirty_rst (s : State) (k : Nat) : (s.dirty k).rst = s.rst := by simp only [State.dirty, State.set_rst]
@[simp] theorem State.dirty_hsf (s : State) (k : Nat) : (s.dirty k).hsf = s.hsf := by simp only [State.dirty, State.set_hsf]
@[simp] theorem State.dirty_mtx (s : State) (k : Nat) : (s.dirty k).mtx = s.mtx := by simp only [State.dirty, State.set_mtx]
@[simp] theorem State.dirty_mate (s : State) (k : Nat) : (s.dirty k).mate = s.mate := by simp only [State.dirty, State.set_mate]
@[simp] theorem State.dirty_pkg (s : State) (k : Nat) : (s.dirty k).pkg = s.pkg := by simp only [State.dirty, State.set_pkg]
@[simp] theorem State.dirty_pending (s : State) (k : Nat) : (s.dirty k).pending = s.pending := by simp only [State.dirty, State.set_pending]

/-! `State.takeSetting` -/

@[simp] theorem State.takeSetting_regs (s : State) (l : List Nat) : (s.takeSetting l).regs = s.regs := by simp only [State.takeSetting]
@[simp] theorem State.takeSetting_snap (s : State) (l : List Nat) : (s.takeSetting l).snap = s.snap := by simp only [State.takeSetting]
@[simp] theorem State.takeSetting_now (s : State) (l : List Nat) : (s.takeSetting l).now = s.now := by simp only [State.takeSetting]
@[simp] theorem State.takeSetting_free (s : State) (l : List Nat) : (s.takeSetting l).free = s.free := by simp only [State.takeSetting]
@[simp] theorem State.takeSetting_media (s : State) (l : List Nat) : (s.takeSetting l).media = s.media := by simp only [State.takeSetting]
@[simp] theorem State.takeSetting_xpt (s : State) (l : List Nat) : (s.takeSetting l).xpt = s.xpt := by simp only [State.takeSetting]
@[simp] theorem State.takeSetting_fst (s : State) (l : List Nat) : (s.takeSetting l).fst = s.fst := by simp only [State.takeSetting]
@[simp] theorem State.takeSetting_che (s : State) (l : List Nat) : (s.takeSetting l).che = s.che := by simp only [State.takeSetting]
@[simp] theorem State.takeSetting_sou (s : State) (l : List Nat) : (s.takeSetting l).sou = s.sou := by simp only [State.takeSetting]
@[simp] theorem State.takeSetting_aud (s : State) (l : List Nat) : (s.takeSetting l).aud = s.aud := by simp only [State.takeSetting]
@[simp] theorem State.takeSetting_host (s : State) (l : List Nat) : (s.takeSetting l).host = s.host := by simp only [State.takeSetting]
@[simp] theorem State.takeSetting_lv (s : State) (l : List Nat) : (s.takeSetting l).lv = s.lv := by simp only [State.takeSetting]
@[simp] theorem State.takeSetting_ref (s : State) (l : List Nat) : (s.takeSetting l).ref = s.ref := by simp only [State.takeSetting]
@[simp] theorem State.takeSetting_syn (s : State) (l : List Nat) : (s.takeSetting l).syn = s.syn := by simp only [State.takeSetting]
@[simp] theorem State.takeSetting_sec (s : State) (l : List Nat) : (s.takeSetting l).sec = s.sec := by simp only [State.takeSetting]
@[simp] theorem State.takeSetting_flt (s : State) (l : List Nat) : (s.takeSetting l).flt = s.flt := by simp only [State.takeSetting]
@[simp] theorem State.takeSetting_axl (s : State) (l : List Nat) : (s.takeSetting l).axl = s.axl := by simp only [State.takeSetting]
@[simp] theorem State.takeSetting_rst (s : State) (l : List Nat) : (s.takeSetting l).rst = s.rst := by simp only [State.takeSetting]
@[simp] theorem State.takeSetting_hsf (s : State) (l : List Nat) : (s.takeSetting l).hsf = s.hsf := by simp only [State.takeSetting]
@[simp] theorem State.takeSetting_mtx (s : State) (l : List Nat) : (s.takeSetting l).mtx = s.mtx := by simp only [State.takeSetting]
@[simp] theorem State.takeSetting_mate (s : State) (l : List Nat) : (s.takeSetting l).mate = s.mate := by simp only [State.takeSetting]
@[simp] theorem State.takeSetting_pkg (s : State) (l : List Nat) : (s.takeSetting l).pkg = s.pkg := by simp only [State.takeSetting]
@[simp] theorem State.takeSetting_pending (s : State) (l : List Nat) : (s.takeSetting l).pending = s.pending := by simp only [State.takeSetting]

/-! `State.at_` -/

@[simp] theorem State.at_regs (s : State) (t : Nat) : (s.at_ t).regs = s.regs := by simp only [State.at_]
@[simp] theorem State.at_taken (s : State) (t : Nat) : (s.at_ t).taken = s.taken := by simp only [State.at_]
@[simp] theorem State.at_snap (s : State) (t : Nat) : (s.at_ t).snap = s.snap := by simp only [State.at_]
@[simp] theorem State.at_free (s : State) (t : Nat) : (s.at_ t).free = s.free := by simp only [State.at_]
@[simp] theorem State.at_media (s : State) (t : Nat) : (s.at_ t).media = s.media := by simp only [State.at_]
@[simp] theorem State.at_xpt (s : State) (t : Nat) : (s.at_ t).xpt = s.xpt := by simp only [State.at_]
@[simp] theorem State.at_fst (s : State) (t : Nat) : (s.at_ t).fst = s.fst := by simp only [State.at_]
@[simp] theorem State.at_che (s : State) (t : Nat) : (s.at_ t).che = s.che := by simp only [State.at_]
@[simp] theorem State.at_sou (s : State) (t : Nat) : (s.at_ t).sou = s.sou := by simp only [State.at_]
@[simp] theorem State.at_aud (s : State) (t : Nat) : (s.at_ t).aud = s.aud := by simp only [State.at_]
@[simp] theorem State.at_host (s : State) (t : Nat) : (s.at_ t).host = s.host := by simp only [State.at_]
@[simp] theorem State.at_lv (s : State) (t : Nat) : (s.at_ t).lv = s.lv := by simp only [State.at_]
@[simp] theorem State.at_ref (s : State) (t : Nat) : (s.at_ t).ref = s.ref := by simp only [State.at_]
@[simp] theorem State.at_syn (s : State) (t : Nat) : (s.at_ t).syn = s.syn := by simp only [State.at_]
@[simp] theorem State.at_sec (s : State) (t : Nat) : (s.at_ t).sec = s.sec := by simp only [State.at_]
@[simp] theorem State.at_flt (s : State) (t : Nat) : (s.at_ t).flt = s.flt := by simp only [State.at_]
@[simp] theorem State.at_axl (s : State) (t : Nat) : (s.at_ t).axl = s.axl := by simp only [State.at_]
@[simp] theorem State.at_rst (s : State) (t : Nat) : (s.at_ t).rst = s.rst := by simp only [State.at_]
@[simp] theorem State.at_hsf (s : State) (t : Nat) : (s.at_ t).hsf = s.hsf := by simp only [State.at_]
@[simp] theorem State.at_mtx (s : State) (t : Nat) : (s.at_ t).mtx = s.mtx := by simp only [State.at_]
@[simp] theorem State.at_mate (s : State) (t : Nat) : (s.at_ t).mate = s.mate := by simp only [State.at_]
@[simp] theorem State.at_pkg (s : State) (t : Nat) : (s.at_ t).pkg = s.pkg := by simp only [State.at_]
@[simp] theorem State.at_pending (s : State) (t : Nat) : (s.at_ t).pending = s.pending := by simp only [State.at_]

/-! `State.hostWrite` -/

@[simp] theorem State.hostWrite_regs (s : State) (a : Nat) (l : List Byte) : (s.hostWrite a l).regs = s.regs := by simp only [State.hostWrite]
@[simp] theorem State.hostWrite_taken (s : State) (a : Nat) (l : List Byte) : (s.hostWrite a l).taken = s.taken := by simp only [State.hostWrite]
@[simp] theorem State.hostWrite_snap (s : State) (a : Nat) (l : List Byte) : (s.hostWrite a l).snap = s.snap := by simp only [State.hostWrite]
@[simp] theorem State.hostWrite_now (s : State) (a : Nat) (l : List Byte) : (s.hostWrite a l).now = s.now := by simp only [State.hostWrite]
@[simp] theorem State.hostWrite_free (s : State) (a : Nat) (l : List Byte) : (s.hostWrite a l).free = s.free := by simp only [State.hostWrite]
@[simp] theorem State.hostWrite_media (s : State) (a : Nat) (l : List Byte) : (s.hostWrite a l).media = s.media := by simp only [State.hostWrite]
@[simp] theorem State.hostWrite_xpt (s : State) (a : Nat) (l : List Byte) : (s.hostWrite a l).xpt = s.xpt := by simp only [State.hostWrite]
@[simp] theorem State.hostWrite_fst (s : State) (a : Nat) (l : List Byte) : (s.hostWrite a l).fst = s.fst := by simp only [State.hostWrite]
@[simp] theorem State.hostWrite_che (s : State) (a : Nat) (l : List Byte) : (s.hostWrite a l).che = s.che := by simp only [State.hostWrite]
@[simp] theorem State.hostWrite_sou (s : State) (a : Nat) (l : List Byte) : (s.hostWrite a l).sou = s.sou := by simp only [State.hostWrite]
@[simp] theorem State.hostWrite_aud (s : State) (a : Nat) (l : List Byte) : (s.hostWrite a l).aud = s.aud := by simp only [State.hostWrite]
@[simp] theorem State.hostWrite_lv (s : State) (a : Nat) (l : List Byte) : (s.hostWrite a l).lv = s.lv := by simp only [State.hostWrite]
@[simp] theorem State.hostWrite_ref (s : State) (a : Nat) (l : List Byte) : (s.hostWrite a l).ref = s.ref := by simp only [State.hostWrite]
@[simp] theorem State.hostWrite_syn (s : State) (a : Nat) (l : List Byte) : (s.hostWrite a l).syn = s.syn := by simp only [State.hostWrite]
@[simp] theorem State.hostWrite_sec (s : State) (a : Nat) (l : List Byte) : (s.hostWrite a l).sec = s.sec := by simp only [State.hostWrite]
@[simp] theorem State.hostWrite_flt (s : State) (a : Nat) (l : List Byte) : (s.hostWrite a l).flt = s.flt := by simp only [State.hostWrite]
@[simp] theorem State.hostWrite_axl (s : State) (a : Nat) (l : List Byte) : (s.hostWrite a l).axl = s.axl := by simp only [State.hostWrite]
@[simp] theorem State.hostWrite_rst (s : State) (a : Nat) (l : List Byte) : (s.hostWrite a l).rst = s.rst := by simp only [State.hostWrite]
@[simp] theorem State.hostWrite_hsf (s : State) (a : Nat) (l : List Byte) : (s.hostWrite a l).hsf = s.hsf := by simp only [State.hostWrite]
@[simp] theorem State.hostWrite_mtx (s : State) (a : Nat) (l : List Byte) : (s.hostWrite a l).mtx = s.mtx := by simp only [State.hostWrite]
@[simp] theorem State.hostWrite_mate (s : State) (a : Nat) (l : List Byte) : (s.hostWrite a l).mate = s.mate := by simp only [State.hostWrite]
@[simp] theorem State.hostWrite_pkg (s : State) (a : Nat) (l : List Byte) : (s.hostWrite a l).pkg = s.pkg := by simp only [State.hostWrite]
@[simp] theorem State.hostWrite_pending (s : State) (a : Nat) (l : List Byte) : (s.hostWrite a l).pending = s.pending := by simp only [State.hostWrite]

/-! `State.setRx` -/

@[simp] theorem State.setRx_regs (s : State) (n : Nat) (l : RxLane) : (s.setRx n l).regs = s.regs := by simp only [State.setRx]
@[simp] theorem State.setRx_taken (s : State) (n : Nat) (l : RxLane) : (s.setRx n l).taken = s.taken := by simp only [State.setRx]
@[simp] theorem State.setRx_snap (s : State) (n : Nat) (l : RxLane) : (s.setRx n l).snap = s.snap := by simp only [State.setRx]
@[simp] theorem State.setRx_now (s : State) (n : Nat) (l : RxLane) : (s.setRx n l).now = s.now := by simp only [State.setRx]
@[simp] theorem State.setRx_free (s : State) (n : Nat) (l : RxLane) : (s.setRx n l).free = s.free := by simp only [State.setRx]
@[simp] theorem State.setRx_xpt (s : State) (n : Nat) (l : RxLane) : (s.setRx n l).xpt = s.xpt := by simp only [State.setRx]
@[simp] theorem State.setRx_fst (s : State) (n : Nat) (l : RxLane) : (s.setRx n l).fst = s.fst := by simp only [State.setRx]
@[simp] theorem State.setRx_che (s : State) (n : Nat) (l : RxLane) : (s.setRx n l).che = s.che := by simp only [State.setRx]
@[simp] theorem State.setRx_sou (s : State) (n : Nat) (l : RxLane) : (s.setRx n l).sou = s.sou := by simp only [State.setRx]
@[simp] theorem State.setRx_aud (s : State) (n : Nat) (l : RxLane) : (s.setRx n l).aud = s.aud := by simp only [State.setRx]
@[simp] theorem State.setRx_host (s : State) (n : Nat) (l : RxLane) : (s.setRx n l).host = s.host := by simp only [State.setRx]
@[simp] theorem State.setRx_lv (s : State) (n : Nat) (l : RxLane) : (s.setRx n l).lv = s.lv := by simp only [State.setRx]
@[simp] theorem State.setRx_ref (s : State) (n : Nat) (l : RxLane) : (s.setRx n l).ref = s.ref := by simp only [State.setRx]
@[simp] theorem State.setRx_syn (s : State) (n : Nat) (l : RxLane) : (s.setRx n l).syn = s.syn := by simp only [State.setRx]
@[simp] theorem State.setRx_sec (s : State) (n : Nat) (l : RxLane) : (s.setRx n l).sec = s.sec := by simp only [State.setRx]
@[simp] theorem State.setRx_flt (s : State) (n : Nat) (l : RxLane) : (s.setRx n l).flt = s.flt := by simp only [State.setRx]
@[simp] theorem State.setRx_axl (s : State) (n : Nat) (l : RxLane) : (s.setRx n l).axl = s.axl := by simp only [State.setRx]
@[simp] theorem State.setRx_rst (s : State) (n : Nat) (l : RxLane) : (s.setRx n l).rst = s.rst := by simp only [State.setRx]
@[simp] theorem State.setRx_hsf (s : State) (n : Nat) (l : RxLane) : (s.setRx n l).hsf = s.hsf := by simp only [State.setRx]
@[simp] theorem State.setRx_mtx (s : State) (n : Nat) (l : RxLane) : (s.setRx n l).mtx = s.mtx := by simp only [State.setRx]
@[simp] theorem State.setRx_mate (s : State) (n : Nat) (l : RxLane) : (s.setRx n l).mate = s.mate := by simp only [State.setRx]
@[simp] theorem State.setRx_pkg (s : State) (n : Nat) (l : RxLane) : (s.setRx n l).pkg = s.pkg := by simp only [State.setRx]
@[simp] theorem State.setRx_pending (s : State) (n : Nat) (l : RxLane) : (s.setRx n l).pending = s.pending := by simp only [State.setRx]

/-! `State.setTx` -/

@[simp] theorem State.setTx_regs (s : State) (n : Nat) (l : TxLane) : (s.setTx n l).regs = s.regs := by simp only [State.setTx]
@[simp] theorem State.setTx_taken (s : State) (n : Nat) (l : TxLane) : (s.setTx n l).taken = s.taken := by simp only [State.setTx]
@[simp] theorem State.setTx_snap (s : State) (n : Nat) (l : TxLane) : (s.setTx n l).snap = s.snap := by simp only [State.setTx]
@[simp] theorem State.setTx_now (s : State) (n : Nat) (l : TxLane) : (s.setTx n l).now = s.now := by simp only [State.setTx]
@[simp] theorem State.setTx_free (s : State) (n : Nat) (l : TxLane) : (s.setTx n l).free = s.free := by simp only [State.setTx]
@[simp] theorem State.setTx_xpt (s : State) (n : Nat) (l : TxLane) : (s.setTx n l).xpt = s.xpt := by simp only [State.setTx]
@[simp] theorem State.setTx_fst (s : State) (n : Nat) (l : TxLane) : (s.setTx n l).fst = s.fst := by simp only [State.setTx]
@[simp] theorem State.setTx_che (s : State) (n : Nat) (l : TxLane) : (s.setTx n l).che = s.che := by simp only [State.setTx]
@[simp] theorem State.setTx_sou (s : State) (n : Nat) (l : TxLane) : (s.setTx n l).sou = s.sou := by simp only [State.setTx]
@[simp] theorem State.setTx_aud (s : State) (n : Nat) (l : TxLane) : (s.setTx n l).aud = s.aud := by simp only [State.setTx]
@[simp] theorem State.setTx_host (s : State) (n : Nat) (l : TxLane) : (s.setTx n l).host = s.host := by simp only [State.setTx]
@[simp] theorem State.setTx_lv (s : State) (n : Nat) (l : TxLane) : (s.setTx n l).lv = s.lv := by simp only [State.setTx]
@[simp] theorem State.setTx_ref (s : State) (n : Nat) (l : TxLane) : (s.setTx n l).ref = s.ref := by simp only [State.setTx]
@[simp] theorem State.setTx_syn (s : State) (n : Nat) (l : TxLane) : (s.setTx n l).syn = s.syn := by simp only [State.setTx]
@[simp] theorem State.setTx_sec (s : State) (n : Nat) (l : TxLane) : (s.setTx n l).sec = s.sec := by simp only [State.setTx]
@[simp] theorem State.setTx_flt (s : State) (n : Nat) (l : TxLane) : (s.setTx n l).flt = s.flt := by simp only [State.setTx]
@[simp] theorem State.setTx_axl (s : State) (n : Nat) (l : TxLane) : (s.setTx n l).axl = s.axl := by simp only [State.setTx]
@[simp] theorem State.setTx_rst (s : State) (n : Nat) (l : TxLane) : (s.setTx n l).rst = s.rst := by simp only [State.setTx]
@[simp] theorem State.setTx_hsf (s : State) (n : Nat) (l : TxLane) : (s.setTx n l).hsf = s.hsf := by simp only [State.setTx]
@[simp] theorem State.setTx_mtx (s : State) (n : Nat) (l : TxLane) : (s.setTx n l).mtx = s.mtx := by simp only [State.setTx]
@[simp] theorem State.setTx_mate (s : State) (n : Nat) (l : TxLane) : (s.setTx n l).mate = s.mate := by simp only [State.setTx]
@[simp] theorem State.setTx_pkg (s : State) (n : Nat) (l : TxLane) : (s.setTx n l).pkg = s.pkg := by simp only [State.setTx]
@[simp] theorem State.setTx_pending (s : State) (n : Nat) (l : TxLane) : (s.setTx n l).pending = s.pending := by simp only [State.setTx]

/-! `State.setRoute` -/

@[simp] theorem State.setRoute_taken (s : State) (d : Nat) (r : Option Route) : (s.setRoute d r).taken = s.taken := by simp only [State.setRoute, State.dirty_taken]
@[simp] theorem State.setRoute_snap (s : State) (d : Nat) (r : Option Route) : (s.setRoute d r).snap = s.snap := by simp only [State.setRoute, State.dirty_snap]
@[simp] theorem State.setRoute_now (s : State) (d : Nat) (r : Option Route) : (s.setRoute d r).now = s.now := by simp only [State.setRoute, State.dirty_now]
@[simp] theorem State.setRoute_free (s : State) (d : Nat) (r : Option Route) : (s.setRoute d r).free = s.free := by simp only [State.setRoute, State.dirty_free]
@[simp] theorem State.setRoute_media (s : State) (d : Nat) (r : Option Route) : (s.setRoute d r).media = s.media := by simp only [State.setRoute, State.dirty_media]
@[simp] theorem State.setRoute_fst (s : State) (d : Nat) (r : Option Route) : (s.setRoute d r).fst = s.fst := by simp only [State.setRoute, State.dirty_fst]
@[simp] theorem State.setRoute_che (s : State) (d : Nat) (r : Option Route) : (s.setRoute d r).che = s.che := by simp only [State.setRoute, State.dirty_che]
@[simp] theorem State.setRoute_sou (s : State) (d : Nat) (r : Option Route) : (s.setRoute d r).sou = s.sou := by simp only [State.setRoute, State.dirty_sou]
@[simp] theorem State.setRoute_aud (s : State) (d : Nat) (r : Option Route) : (s.setRoute d r).aud = s.aud := by simp only [State.setRoute, State.dirty_aud]
@[simp] theorem State.setRoute_host (s : State) (d : Nat) (r : Option Route) : (s.setRoute d r).host = s.host := by simp only [State.setRoute, State.dirty_host]
@[simp] theorem State.setRoute_lv (s : State) (d : Nat) (r : Option Route) : (s.setRoute d r).lv = s.lv := by simp only [State.setRoute, State.dirty_lv]
@[simp] theorem State.setRoute_ref (s : State) (d : Nat) (r : Option Route) : (s.setRoute d r).ref = s.ref := by simp only [State.setRoute, State.dirty_ref]
@[simp] theorem State.setRoute_syn (s : State) (d : Nat) (r : Option Route) : (s.setRoute d r).syn = s.syn := by simp only [State.setRoute, State.dirty_syn]
@[simp] theorem State.setRoute_sec (s : State) (d : Nat) (r : Option Route) : (s.setRoute d r).sec = s.sec := by simp only [State.setRoute, State.dirty_sec]
@[simp] theorem State.setRoute_flt (s : State) (d : Nat) (r : Option Route) : (s.setRoute d r).flt = s.flt := by simp only [State.setRoute, State.dirty_flt]
@[simp] theorem State.setRoute_axl (s : State) (d : Nat) (r : Option Route) : (s.setRoute d r).axl = s.axl := by simp only [State.setRoute, State.dirty_axl]
@[simp] theorem State.setRoute_rst (s : State) (d : Nat) (r : Option Route) : (s.setRoute d r).rst = s.rst := by simp only [State.setRoute, State.dirty_rst]
@[simp] theorem State.setRoute_hsf (s : State) (d : Nat) (r : Option Route) : (s.setRoute d r).hsf = s.hsf := by simp only [State.setRoute, State.dirty_hsf]
@[simp] theorem State.setRoute_mtx (s : State) (d : Nat) (r : Option Route) : (s.setRoute d r).mtx = s.mtx := by simp only [State.setRoute, State.dirty_mtx]
@[simp] theorem State.setRoute_mate (s : State) (d : Nat) (r : Option Route) : (s.setRoute d r).mate = s.mate := by simp only [State.setRoute, State.dirty_mate]
@[simp] theorem State.setRoute_pkg (s : State) (d : Nat) (r : Option Route) : (s.setRoute d r).pkg = s.pkg := by simp only [State.setRoute, State.dirty_pkg]
@[simp] theorem State.setRoute_pending (s : State) (d : Nat) (r : Option Route) : (s.setRoute d r).pending = s.pending := by simp only [State.setRoute, State.dirty_pending]

/-! `State.setPg` -/

@[simp] theorem State.setPg_regs (s : State) (p : Nat) (g : PgSt) : (s.setPg p g).regs = s.regs := by simp only [State.setPg]
@[simp] theorem State.setPg_taken (s : State) (p : Nat) (g : PgSt) : (s.setPg p g).taken = s.taken := by simp only [State.setPg]
@[simp] theorem State.setPg_snap (s : State) (p : Nat) (g : PgSt) : (s.setPg p g).snap = s.snap := by simp only [State.setPg]
@[simp] theorem State.setPg_now (s : State) (p : Nat) (g : PgSt) : (s.setPg p g).now = s.now := by simp only [State.setPg]
@[simp] theorem State.setPg_free (s : State) (p : Nat) (g : PgSt) : (s.setPg p g).free = s.free := by simp only [State.setPg]
@[simp] theorem State.setPg_media (s : State) (p : Nat) (g : PgSt) : (s.setPg p g).media = s.media := by simp only [State.setPg]
@[simp] theorem State.setPg_fst (s : State) (p : Nat) (g : PgSt) : (s.setPg p g).fst = s.fst := by simp only [State.setPg]
@[simp] theorem State.setPg_che (s : State) (p : Nat) (g : PgSt) : (s.setPg p g).che = s.che := by simp only [State.setPg]
@[simp] theorem State.setPg_sou (s : State) (p : Nat) (g : PgSt) : (s.setPg p g).sou = s.sou := by simp only [State.setPg]
@[simp] theorem State.setPg_aud (s : State) (p : Nat) (g : PgSt) : (s.setPg p g).aud = s.aud := by simp only [State.setPg]
@[simp] theorem State.setPg_host (s : State) (p : Nat) (g : PgSt) : (s.setPg p g).host = s.host := by simp only [State.setPg]
@[simp] theorem State.setPg_lv (s : State) (p : Nat) (g : PgSt) : (s.setPg p g).lv = s.lv := by simp only [State.setPg]
@[simp] theorem State.setPg_ref (s : State) (p : Nat) (g : PgSt) : (s.setPg p g).ref = s.ref := by simp only [State.setPg]
@[simp] theorem State.setPg_syn (s : State) (p : Nat) (g : PgSt) : (s.setPg p g).syn = s.syn := by simp only [State.setPg]
@[simp] theorem State.setPg_sec (s : State) (p : Nat) (g : PgSt) : (s.setPg p g).sec = s.sec := by simp only [State.setPg]
@[simp] theorem State.setPg_flt (s : State) (p : Nat) (g : PgSt) : (s.setPg p g).flt = s.flt := by simp only [State.setPg]
@[simp] theorem State.setPg_axl (s : State) (p : Nat) (g : PgSt) : (s.setPg p g).axl = s.axl := by simp only [State.setPg]
@[simp] theorem State.setPg_rst (s : State) (p : Nat) (g : PgSt) : (s.setPg p g).rst = s.rst := by simp only [State.setPg]
@[simp] theorem State.setPg_hsf (s : State) (p : Nat) (g : PgSt) : (s.setPg p g).hsf = s.hsf := by simp only [State.setPg]
@[simp] theorem State.setPg_mtx (s : State) (p : Nat) (g : PgSt) : (s.setPg p g).mtx = s.mtx := by simp only [State.setPg]
@[simp] theorem State.setPg_mate (s : State) (p : Nat) (g : PgSt) : (s.setPg p g).mate = s.mate := by simp only [State.setPg]
@[simp] theorem State.setPg_pkg (s : State) (p : Nat) (g : PgSt) : (s.setPg p g).pkg = s.pkg := by simp only [State.setPg]
@[simp] theorem State.setPg_pending (s : State) (p : Nat) (g : PgSt) : (s.setPg p g).pending = s.pending := by simp only [State.setPg]

/-! `State.setRing` -/

@[simp] theorem State.setRing_regs (s : State) (r : Nat) (g : Ring) : (s.setRing r g).regs = s.regs := by simp only [State.setRing]
@[simp] theorem State.setRing_taken (s : State) (r : Nat) (g : Ring) : (s.setRing r g).taken = s.taken := by simp only [State.setRing]
@[simp] theorem State.setRing_snap (s : State) (r : Nat) (g : Ring) : (s.setRing r g).snap = s.snap := by simp only [State.setRing]
@[simp] theorem State.setRing_now (s : State) (r : Nat) (g : Ring) : (s.setRing r g).now = s.now := by simp only [State.setRing]
@[simp] theorem State.setRing_free (s : State) (r : Nat) (g : Ring) : (s.setRing r g).free = s.free := by simp only [State.setRing]
@[simp] theorem State.setRing_media (s : State) (r : Nat) (g : Ring) : (s.setRing r g).media = s.media := by simp only [State.setRing]
@[simp] theorem State.setRing_xpt (s : State) (r : Nat) (g : Ring) : (s.setRing r g).xpt = s.xpt := by simp only [State.setRing]
@[simp] theorem State.setRing_che (s : State) (r : Nat) (g : Ring) : (s.setRing r g).che = s.che := by simp only [State.setRing]
@[simp] theorem State.setRing_sou (s : State) (r : Nat) (g : Ring) : (s.setRing r g).sou = s.sou := by simp only [State.setRing]
@[simp] theorem State.setRing_aud (s : State) (r : Nat) (g : Ring) : (s.setRing r g).aud = s.aud := by simp only [State.setRing]
@[simp] theorem State.setRing_host (s : State) (r : Nat) (g : Ring) : (s.setRing r g).host = s.host := by simp only [State.setRing]
@[simp] theorem State.setRing_lv (s : State) (r : Nat) (g : Ring) : (s.setRing r g).lv = s.lv := by simp only [State.setRing]
@[simp] theorem State.setRing_ref (s : State) (r : Nat) (g : Ring) : (s.setRing r g).ref = s.ref := by simp only [State.setRing]
@[simp] theorem State.setRing_syn (s : State) (r : Nat) (g : Ring) : (s.setRing r g).syn = s.syn := by simp only [State.setRing]
@[simp] theorem State.setRing_sec (s : State) (r : Nat) (g : Ring) : (s.setRing r g).sec = s.sec := by simp only [State.setRing]
@[simp] theorem State.setRing_flt (s : State) (r : Nat) (g : Ring) : (s.setRing r g).flt = s.flt := by simp only [State.setRing]
@[simp] theorem State.setRing_axl (s : State) (r : Nat) (g : Ring) : (s.setRing r g).axl = s.axl := by simp only [State.setRing]
@[simp] theorem State.setRing_rst (s : State) (r : Nat) (g : Ring) : (s.setRing r g).rst = s.rst := by simp only [State.setRing]
@[simp] theorem State.setRing_hsf (s : State) (r : Nat) (g : Ring) : (s.setRing r g).hsf = s.hsf := by simp only [State.setRing]
@[simp] theorem State.setRing_mtx (s : State) (r : Nat) (g : Ring) : (s.setRing r g).mtx = s.mtx := by simp only [State.setRing]
@[simp] theorem State.setRing_mate (s : State) (r : Nat) (g : Ring) : (s.setRing r g).mate = s.mate := by simp only [State.setRing]
@[simp] theorem State.setRing_pkg (s : State) (r : Nat) (g : Ring) : (s.setRing r g).pkg = s.pkg := by simp only [State.setRing]
@[simp] theorem State.setRing_pending (s : State) (r : Nat) (g : Ring) : (s.setRing r g).pending = s.pending := by simp only [State.setRing]

/-! `State.setBuf` -/

@[simp] theorem State.setBuf_regs (s : State) (h : Nat) (b : Buf) : (s.setBuf h b).regs = s.regs := by simp only [State.setBuf]
@[simp] theorem State.setBuf_taken (s : State) (h : Nat) (b : Buf) : (s.setBuf h b).taken = s.taken := by simp only [State.setBuf]
@[simp] theorem State.setBuf_snap (s : State) (h : Nat) (b : Buf) : (s.setBuf h b).snap = s.snap := by simp only [State.setBuf]
@[simp] theorem State.setBuf_now (s : State) (h : Nat) (b : Buf) : (s.setBuf h b).now = s.now := by simp only [State.setBuf]
@[simp] theorem State.setBuf_free (s : State) (h : Nat) (b : Buf) : (s.setBuf h b).free = s.free := by simp only [State.setBuf]
@[simp] theorem State.setBuf_media (s : State) (h : Nat) (b : Buf) : (s.setBuf h b).media = s.media := by simp only [State.setBuf]
@[simp] theorem State.setBuf_xpt (s : State) (h : Nat) (b : Buf) : (s.setBuf h b).xpt = s.xpt := by simp only [State.setBuf]
@[simp] theorem State.setBuf_che (s : State) (h : Nat) (b : Buf) : (s.setBuf h b).che = s.che := by simp only [State.setBuf]
@[simp] theorem State.setBuf_sou (s : State) (h : Nat) (b : Buf) : (s.setBuf h b).sou = s.sou := by simp only [State.setBuf]
@[simp] theorem State.setBuf_aud (s : State) (h : Nat) (b : Buf) : (s.setBuf h b).aud = s.aud := by simp only [State.setBuf]
@[simp] theorem State.setBuf_host (s : State) (h : Nat) (b : Buf) : (s.setBuf h b).host = s.host := by simp only [State.setBuf]
@[simp] theorem State.setBuf_lv (s : State) (h : Nat) (b : Buf) : (s.setBuf h b).lv = s.lv := by simp only [State.setBuf]
@[simp] theorem State.setBuf_ref (s : State) (h : Nat) (b : Buf) : (s.setBuf h b).ref = s.ref := by simp only [State.setBuf]
@[simp] theorem State.setBuf_syn (s : State) (h : Nat) (b : Buf) : (s.setBuf h b).syn = s.syn := by simp only [State.setBuf]
@[simp] theorem State.setBuf_sec (s : State) (h : Nat) (b : Buf) : (s.setBuf h b).sec = s.sec := by simp only [State.setBuf]
@[simp] theorem State.setBuf_flt (s : State) (h : Nat) (b : Buf) : (s.setBuf h b).flt = s.flt := by simp only [State.setBuf]
@[simp] theorem State.setBuf_axl (s : State) (h : Nat) (b : Buf) : (s.setBuf h b).axl = s.axl := by simp only [State.setBuf]
@[simp] theorem State.setBuf_rst (s : State) (h : Nat) (b : Buf) : (s.setBuf h b).rst = s.rst := by simp only [State.setBuf]
@[simp] theorem State.setBuf_hsf (s : State) (h : Nat) (b : Buf) : (s.setBuf h b).hsf = s.hsf := by simp only [State.setBuf]
@[simp] theorem State.setBuf_mtx (s : State) (h : Nat) (b : Buf) : (s.setBuf h b).mtx = s.mtx := by simp only [State.setBuf]
@[simp] theorem State.setBuf_mate (s : State) (h : Nat) (b : Buf) : (s.setBuf h b).mate = s.mate := by simp only [State.setBuf]
@[simp] theorem State.setBuf_pkg (s : State) (h : Nat) (b : Buf) : (s.setBuf h b).pkg = s.pkg := by simp only [State.setBuf]
@[simp] theorem State.setBuf_pending (s : State) (h : Nat) (b : Buf) : (s.setBuf h b).pending = s.pending := by simp only [State.setBuf]

/-! `State.setCw` -/

@[simp] theorem State.setCw_regs (s : State) (k : Nat) (c : Cw) : (s.setCw k c).regs = s.regs := by simp only [State.setCw]
@[simp] theorem State.setCw_taken (s : State) (k : Nat) (c : Cw) : (s.setCw k c).taken = s.taken := by simp only [State.setCw]
@[simp] theorem State.setCw_snap (s : State) (k : Nat) (c : Cw) : (s.setCw k c).snap = s.snap := by simp only [State.setCw]
@[simp] theorem State.setCw_now (s : State) (k : Nat) (c : Cw) : (s.setCw k c).now = s.now := by simp only [State.setCw]
@[simp] theorem State.setCw_free (s : State) (k : Nat) (c : Cw) : (s.setCw k c).free = s.free := by simp only [State.setCw]
@[simp] theorem State.setCw_media (s : State) (k : Nat) (c : Cw) : (s.setCw k c).media = s.media := by simp only [State.setCw]
@[simp] theorem State.setCw_xpt (s : State) (k : Nat) (c : Cw) : (s.setCw k c).xpt = s.xpt := by simp only [State.setCw]
@[simp] theorem State.setCw_che (s : State) (k : Nat) (c : Cw) : (s.setCw k c).che = s.che := by simp only [State.setCw]
@[simp] theorem State.setCw_sou (s : State) (k : Nat) (c : Cw) : (s.setCw k c).sou = s.sou := by simp only [State.setCw]
@[simp] theorem State.setCw_aud (s : State) (k : Nat) (c : Cw) : (s.setCw k c).aud = s.aud := by simp only [State.setCw]
@[simp] theorem State.setCw_host (s : State) (k : Nat) (c : Cw) : (s.setCw k c).host = s.host := by simp only [State.setCw]
@[simp] theorem State.setCw_lv (s : State) (k : Nat) (c : Cw) : (s.setCw k c).lv = s.lv := by simp only [State.setCw]
@[simp] theorem State.setCw_ref (s : State) (k : Nat) (c : Cw) : (s.setCw k c).ref = s.ref := by simp only [State.setCw]
@[simp] theorem State.setCw_syn (s : State) (k : Nat) (c : Cw) : (s.setCw k c).syn = s.syn := by simp only [State.setCw]
@[simp] theorem State.setCw_sec (s : State) (k : Nat) (c : Cw) : (s.setCw k c).sec = s.sec := by simp only [State.setCw]
@[simp] theorem State.setCw_flt (s : State) (k : Nat) (c : Cw) : (s.setCw k c).flt = s.flt := by simp only [State.setCw]
@[simp] theorem State.setCw_axl (s : State) (k : Nat) (c : Cw) : (s.setCw k c).axl = s.axl := by simp only [State.setCw]
@[simp] theorem State.setCw_rst (s : State) (k : Nat) (c : Cw) : (s.setCw k c).rst = s.rst := by simp only [State.setCw]
@[simp] theorem State.setCw_hsf (s : State) (k : Nat) (c : Cw) : (s.setCw k c).hsf = s.hsf := by simp only [State.setCw]
@[simp] theorem State.setCw_mtx (s : State) (k : Nat) (c : Cw) : (s.setCw k c).mtx = s.mtx := by simp only [State.setCw]
@[simp] theorem State.setCw_mate (s : State) (k : Nat) (c : Cw) : (s.setCw k c).mate = s.mate := by simp only [State.setCw]
@[simp] theorem State.setCw_pkg (s : State) (k : Nat) (c : Cw) : (s.setCw k c).pkg = s.pkg := by simp only [State.setCw]
@[simp] theorem State.setCw_pending (s : State) (k : Nat) (c : Cw) : (s.setCw k c).pending = s.pending := by simp only [State.setCw]

/-! `State.setChain` -/

@[simp] theorem State.setChain_regs (s : State) (u : Nat) (c : Chain) : (s.setChain u c).regs = s.regs := by simp only [State.setChain]
@[simp] theorem State.setChain_taken (s : State) (u : Nat) (c : Chain) : (s.setChain u c).taken = s.taken := by simp only [State.setChain]
@[simp] theorem State.setChain_snap (s : State) (u : Nat) (c : Chain) : (s.setChain u c).snap = s.snap := by simp only [State.setChain]
@[simp] theorem State.setChain_now (s : State) (u : Nat) (c : Chain) : (s.setChain u c).now = s.now := by simp only [State.setChain]
@[simp] theorem State.setChain_free (s : State) (u : Nat) (c : Chain) : (s.setChain u c).free = s.free := by simp only [State.setChain]
@[simp] theorem State.setChain_media (s : State) (u : Nat) (c : Chain) : (s.setChain u c).media = s.media := by simp only [State.setChain]
@[simp] theorem State.setChain_xpt (s : State) (u : Nat) (c : Chain) : (s.setChain u c).xpt = s.xpt := by simp only [State.setChain]
@[simp] theorem State.setChain_che (s : State) (u : Nat) (c : Chain) : (s.setChain u c).che = s.che := by simp only [State.setChain]
@[simp] theorem State.setChain_sou (s : State) (u : Nat) (c : Chain) : (s.setChain u c).sou = s.sou := by simp only [State.setChain]
@[simp] theorem State.setChain_aud (s : State) (u : Nat) (c : Chain) : (s.setChain u c).aud = s.aud := by simp only [State.setChain]
@[simp] theorem State.setChain_host (s : State) (u : Nat) (c : Chain) : (s.setChain u c).host = s.host := by simp only [State.setChain]
@[simp] theorem State.setChain_lv (s : State) (u : Nat) (c : Chain) : (s.setChain u c).lv = s.lv := by simp only [State.setChain]
@[simp] theorem State.setChain_ref (s : State) (u : Nat) (c : Chain) : (s.setChain u c).ref = s.ref := by simp only [State.setChain]
@[simp] theorem State.setChain_syn (s : State) (u : Nat) (c : Chain) : (s.setChain u c).syn = s.syn := by simp only [State.setChain]
@[simp] theorem State.setChain_sec (s : State) (u : Nat) (c : Chain) : (s.setChain u c).sec = s.sec := by simp only [State.setChain]
@[simp] theorem State.setChain_flt (s : State) (u : Nat) (c : Chain) : (s.setChain u c).flt = s.flt := by simp only [State.setChain]
@[simp] theorem State.setChain_axl (s : State) (u : Nat) (c : Chain) : (s.setChain u c).axl = s.axl := by simp only [State.setChain]
@[simp] theorem State.setChain_rst (s : State) (u : Nat) (c : Chain) : (s.setChain u c).rst = s.rst := by simp only [State.setChain]
@[simp] theorem State.setChain_hsf (s : State) (u : Nat) (c : Chain) : (s.setChain u c).hsf = s.hsf := by simp only [State.setChain]
@[simp] theorem State.setChain_mtx (s : State) (u : Nat) (c : Chain) : (s.setChain u c).mtx = s.mtx := by simp only [State.setChain]
@[simp] theorem State.setChain_mate (s : State) (u : Nat) (c : Chain) : (s.setChain u c).mate = s.mate := by simp only [State.setChain]
@[simp] theorem State.setChain_pkg (s : State) (u : Nat) (c : Chain) : (s.setChain u c).pkg = s.pkg := by simp only [State.setChain]
@[simp] theorem State.setChain_pending (s : State) (u : Nat) (c : Chain) : (s.setChain u c).pending = s.pending := by simp only [State.setChain]

/-! `State.setCtx` -/

@[simp] theorem State.setCtx_regs (s : State) (c : Nat) (x : Ctx) : (s.setCtx c x).regs = s.regs := by simp only [State.setCtx]
@[simp] theorem State.setCtx_taken (s : State) (c : Nat) (x : Ctx) : (s.setCtx c x).taken = s.taken := by simp only [State.setCtx]
@[simp] theorem State.setCtx_snap (s : State) (c : Nat) (x : Ctx) : (s.setCtx c x).snap = s.snap := by simp only [State.setCtx]
@[simp] theorem State.setCtx_now (s : State) (c : Nat) (x : Ctx) : (s.setCtx c x).now = s.now := by simp only [State.setCtx]
@[simp] theorem State.setCtx_free (s : State) (c : Nat) (x : Ctx) : (s.setCtx c x).free = s.free := by simp only [State.setCtx]
@[simp] theorem State.setCtx_media (s : State) (c : Nat) (x : Ctx) : (s.setCtx c x).media = s.media := by simp only [State.setCtx]
@[simp] theorem State.setCtx_xpt (s : State) (c : Nat) (x : Ctx) : (s.setCtx c x).xpt = s.xpt := by simp only [State.setCtx]
@[simp] theorem State.setCtx_fst (s : State) (c : Nat) (x : Ctx) : (s.setCtx c x).fst = s.fst := by simp only [State.setCtx]
@[simp] theorem State.setCtx_sou (s : State) (c : Nat) (x : Ctx) : (s.setCtx c x).sou = s.sou := by simp only [State.setCtx]
@[simp] theorem State.setCtx_aud (s : State) (c : Nat) (x : Ctx) : (s.setCtx c x).aud = s.aud := by simp only [State.setCtx]
@[simp] theorem State.setCtx_host (s : State) (c : Nat) (x : Ctx) : (s.setCtx c x).host = s.host := by simp only [State.setCtx]
@[simp] theorem State.setCtx_lv (s : State) (c : Nat) (x : Ctx) : (s.setCtx c x).lv = s.lv := by simp only [State.setCtx]
@[simp] theorem State.setCtx_ref (s : State) (c : Nat) (x : Ctx) : (s.setCtx c x).ref = s.ref := by simp only [State.setCtx]
@[simp] theorem State.setCtx_syn (s : State) (c : Nat) (x : Ctx) : (s.setCtx c x).syn = s.syn := by simp only [State.setCtx]
@[simp] theorem State.setCtx_sec (s : State) (c : Nat) (x : Ctx) : (s.setCtx c x).sec = s.sec := by simp only [State.setCtx]
@[simp] theorem State.setCtx_flt (s : State) (c : Nat) (x : Ctx) : (s.setCtx c x).flt = s.flt := by simp only [State.setCtx]
@[simp] theorem State.setCtx_axl (s : State) (c : Nat) (x : Ctx) : (s.setCtx c x).axl = s.axl := by simp only [State.setCtx]
@[simp] theorem State.setCtx_rst (s : State) (c : Nat) (x : Ctx) : (s.setCtx c x).rst = s.rst := by simp only [State.setCtx]
@[simp] theorem State.setCtx_hsf (s : State) (c : Nat) (x : Ctx) : (s.setCtx c x).hsf = s.hsf := by simp only [State.setCtx]
@[simp] theorem State.setCtx_mtx (s : State) (c : Nat) (x : Ctx) : (s.setCtx c x).mtx = s.mtx := by simp only [State.setCtx]
@[simp] theorem State.setCtx_mate (s : State) (c : Nat) (x : Ctx) : (s.setCtx c x).mate = s.mate := by simp only [State.setCtx]
@[simp] theorem State.setCtx_pkg (s : State) (c : Nat) (x : Ctx) : (s.setCtx c x).pkg = s.pkg := by simp only [State.setCtx]
@[simp] theorem State.setCtx_pending (s : State) (c : Nat) (x : Ctx) : (s.setCtx c x).pending = s.pending := by simp only [State.setCtx]

/-! `State.setEng` -/

@[simp] theorem State.setEng_regs (s : State) (e : Nat) (g : Engine) : (s.setEng e g).regs = s.regs := by simp only [State.setEng]
@[simp] theorem State.setEng_taken (s : State) (e : Nat) (g : Engine) : (s.setEng e g).taken = s.taken := by simp only [State.setEng]
@[simp] theorem State.setEng_snap (s : State) (e : Nat) (g : Engine) : (s.setEng e g).snap = s.snap := by simp only [State.setEng]
@[simp] theorem State.setEng_now (s : State) (e : Nat) (g : Engine) : (s.setEng e g).now = s.now := by simp only [State.setEng]
@[simp] theorem State.setEng_free (s : State) (e : Nat) (g : Engine) : (s.setEng e g).free = s.free := by simp only [State.setEng]
@[simp] theorem State.setEng_media (s : State) (e : Nat) (g : Engine) : (s.setEng e g).media = s.media := by simp only [State.setEng]
@[simp] theorem State.setEng_xpt (s : State) (e : Nat) (g : Engine) : (s.setEng e g).xpt = s.xpt := by simp only [State.setEng]
@[simp] theorem State.setEng_fst (s : State) (e : Nat) (g : Engine) : (s.setEng e g).fst = s.fst := by simp only [State.setEng]
@[simp] theorem State.setEng_sou (s : State) (e : Nat) (g : Engine) : (s.setEng e g).sou = s.sou := by simp only [State.setEng]
@[simp] theorem State.setEng_aud (s : State) (e : Nat) (g : Engine) : (s.setEng e g).aud = s.aud := by simp only [State.setEng]
@[simp] theorem State.setEng_host (s : State) (e : Nat) (g : Engine) : (s.setEng e g).host = s.host := by simp only [State.setEng]
@[simp] theorem State.setEng_lv (s : State) (e : Nat) (g : Engine) : (s.setEng e g).lv = s.lv := by simp only [State.setEng]
@[simp] theorem State.setEng_ref (s : State) (e : Nat) (g : Engine) : (s.setEng e g).ref = s.ref := by simp only [State.setEng]
@[simp] theorem State.setEng_syn (s : State) (e : Nat) (g : Engine) : (s.setEng e g).syn = s.syn := by simp only [State.setEng]
@[simp] theorem State.setEng_sec (s : State) (e : Nat) (g : Engine) : (s.setEng e g).sec = s.sec := by simp only [State.setEng]
@[simp] theorem State.setEng_flt (s : State) (e : Nat) (g : Engine) : (s.setEng e g).flt = s.flt := by simp only [State.setEng]
@[simp] theorem State.setEng_axl (s : State) (e : Nat) (g : Engine) : (s.setEng e g).axl = s.axl := by simp only [State.setEng]
@[simp] theorem State.setEng_rst (s : State) (e : Nat) (g : Engine) : (s.setEng e g).rst = s.rst := by simp only [State.setEng]
@[simp] theorem State.setEng_hsf (s : State) (e : Nat) (g : Engine) : (s.setEng e g).hsf = s.hsf := by simp only [State.setEng]
@[simp] theorem State.setEng_mtx (s : State) (e : Nat) (g : Engine) : (s.setEng e g).mtx = s.mtx := by simp only [State.setEng]
@[simp] theorem State.setEng_mate (s : State) (e : Nat) (g : Engine) : (s.setEng e g).mate = s.mate := by simp only [State.setEng]
@[simp] theorem State.setEng_pkg (s : State) (e : Nat) (g : Engine) : (s.setEng e g).pkg = s.pkg := by simp only [State.setEng]
@[simp] theorem State.setEng_pending (s : State) (e : Nat) (g : Engine) : (s.setEng e g).pending = s.pending := by simp only [State.setEng]

/-! `State.setUnit` -/

@[simp] theorem State.setUnit_regs (s : State) (u : Nat) (x : Unit) : (s.setUnit u x).regs = s.regs := by simp only [State.setUnit]
@[simp] theorem State.setUnit_taken (s : State) (u : Nat) (x : Unit) : (s.setUnit u x).taken = s.taken := by simp only [State.setUnit]
@[simp] theorem State.setUnit_snap (s : State) (u : Nat) (x : Unit) : (s.setUnit u x).snap = s.snap := by simp only [State.setUnit]
@[simp] theorem State.setUnit_now (s : State) (u : Nat) (x : Unit) : (s.setUnit u x).now = s.now := by simp only [State.setUnit]
@[simp] theorem State.setUnit_free (s : State) (u : Nat) (x : Unit) : (s.setUnit u x).free = s.free := by simp only [State.setUnit]
@[simp] theorem State.setUnit_media (s : State) (u : Nat) (x : Unit) : (s.setUnit u x).media = s.media := by simp only [State.setUnit]
@[simp] theorem State.setUnit_xpt (s : State) (u : Nat) (x : Unit) : (s.setUnit u x).xpt = s.xpt := by simp only [State.setUnit]
@[simp] theorem State.setUnit_fst (s : State) (u : Nat) (x : Unit) : (s.setUnit u x).fst = s.fst := by simp only [State.setUnit]
@[simp] theorem State.setUnit_che (s : State) (u : Nat) (x : Unit) : (s.setUnit u x).che = s.che := by simp only [State.setUnit]
@[simp] theorem State.setUnit_aud (s : State) (u : Nat) (x : Unit) : (s.setUnit u x).aud = s.aud := by simp only [State.setUnit]
@[simp] theorem State.setUnit_host (s : State) (u : Nat) (x : Unit) : (s.setUnit u x).host = s.host := by simp only [State.setUnit]
@[simp] theorem State.setUnit_lv (s : State) (u : Nat) (x : Unit) : (s.setUnit u x).lv = s.lv := by simp only [State.setUnit]
@[simp] theorem State.setUnit_ref (s : State) (u : Nat) (x : Unit) : (s.setUnit u x).ref = s.ref := by simp only [State.setUnit]
@[simp] theorem State.setUnit_syn (s : State) (u : Nat) (x : Unit) : (s.setUnit u x).syn = s.syn := by simp only [State.setUnit]
@[simp] theorem State.setUnit_sec (s : State) (u : Nat) (x : Unit) : (s.setUnit u x).sec = s.sec := by simp only [State.setUnit]
@[simp] theorem State.setUnit_flt (s : State) (u : Nat) (x : Unit) : (s.setUnit u x).flt = s.flt := by simp only [State.setUnit]
@[simp] theorem State.setUnit_axl (s : State) (u : Nat) (x : Unit) : (s.setUnit u x).axl = s.axl := by simp only [State.setUnit]
@[simp] theorem State.setUnit_rst (s : State) (u : Nat) (x : Unit) : (s.setUnit u x).rst = s.rst := by simp only [State.setUnit]
@[simp] theorem State.setUnit_hsf (s : State) (u : Nat) (x : Unit) : (s.setUnit u x).hsf = s.hsf := by simp only [State.setUnit]
@[simp] theorem State.setUnit_mtx (s : State) (u : Nat) (x : Unit) : (s.setUnit u x).mtx = s.mtx := by simp only [State.setUnit]
@[simp] theorem State.setUnit_mate (s : State) (u : Nat) (x : Unit) : (s.setUnit u x).mate = s.mate := by simp only [State.setUnit]
@[simp] theorem State.setUnit_pkg (s : State) (u : Nat) (x : Unit) : (s.setUnit u x).pkg = s.pkg := by simp only [State.setUnit]
@[simp] theorem State.setUnit_pending (s : State) (u : Nat) (x : Unit) : (s.setUnit u x).pending = s.pending := by simp only [State.setUnit]

/-! `State.setSyn` -/

@[simp] theorem State.setSyn_regs (s : State) (t : Nat) (x : Syn) : (s.setSyn t x).regs = s.regs := by simp only [State.setSyn]
@[simp] theorem State.setSyn_taken (s : State) (t : Nat) (x : Syn) : (s.setSyn t x).taken = s.taken := by simp only [State.setSyn]
@[simp] theorem State.setSyn_snap (s : State) (t : Nat) (x : Syn) : (s.setSyn t x).snap = s.snap := by simp only [State.setSyn]
@[simp] theorem State.setSyn_now (s : State) (t : Nat) (x : Syn) : (s.setSyn t x).now = s.now := by simp only [State.setSyn]
@[simp] theorem State.setSyn_free (s : State) (t : Nat) (x : Syn) : (s.setSyn t x).free = s.free := by simp only [State.setSyn]
@[simp] theorem State.setSyn_media (s : State) (t : Nat) (x : Syn) : (s.setSyn t x).media = s.media := by simp only [State.setSyn]
@[simp] theorem State.setSyn_xpt (s : State) (t : Nat) (x : Syn) : (s.setSyn t x).xpt = s.xpt := by simp only [State.setSyn]
@[simp] theorem State.setSyn_fst (s : State) (t : Nat) (x : Syn) : (s.setSyn t x).fst = s.fst := by simp only [State.setSyn]
@[simp] theorem State.setSyn_che (s : State) (t : Nat) (x : Syn) : (s.setSyn t x).che = s.che := by simp only [State.setSyn]
@[simp] theorem State.setSyn_sou (s : State) (t : Nat) (x : Syn) : (s.setSyn t x).sou = s.sou := by simp only [State.setSyn]
@[simp] theorem State.setSyn_aud (s : State) (t : Nat) (x : Syn) : (s.setSyn t x).aud = s.aud := by simp only [State.setSyn]
@[simp] theorem State.setSyn_host (s : State) (t : Nat) (x : Syn) : (s.setSyn t x).host = s.host := by simp only [State.setSyn]
@[simp] theorem State.setSyn_lv (s : State) (t : Nat) (x : Syn) : (s.setSyn t x).lv = s.lv := by simp only [State.setSyn]
@[simp] theorem State.setSyn_ref (s : State) (t : Nat) (x : Syn) : (s.setSyn t x).ref = s.ref := by simp only [State.setSyn]
@[simp] theorem State.setSyn_sec (s : State) (t : Nat) (x : Syn) : (s.setSyn t x).sec = s.sec := by simp only [State.setSyn]
@[simp] theorem State.setSyn_flt (s : State) (t : Nat) (x : Syn) : (s.setSyn t x).flt = s.flt := by simp only [State.setSyn]
@[simp] theorem State.setSyn_axl (s : State) (t : Nat) (x : Syn) : (s.setSyn t x).axl = s.axl := by simp only [State.setSyn]
@[simp] theorem State.setSyn_rst (s : State) (t : Nat) (x : Syn) : (s.setSyn t x).rst = s.rst := by simp only [State.setSyn]
@[simp] theorem State.setSyn_hsf (s : State) (t : Nat) (x : Syn) : (s.setSyn t x).hsf = s.hsf := by simp only [State.setSyn]
@[simp] theorem State.setSyn_mtx (s : State) (t : Nat) (x : Syn) : (s.setSyn t x).mtx = s.mtx := by simp only [State.setSyn]
@[simp] theorem State.setSyn_mate (s : State) (t : Nat) (x : Syn) : (s.setSyn t x).mate = s.mate := by simp only [State.setSyn]
@[simp] theorem State.setSyn_pkg (s : State) (t : Nat) (x : Syn) : (s.setSyn t x).pkg = s.pkg := by simp only [State.setSyn]
@[simp] theorem State.setSyn_pending (s : State) (t : Nat) (x : Syn) : (s.setSyn t x).pending = s.pending := by simp only [State.setSyn]

/-! `State.setRefIn` -/

@[simp] theorem State.setRefIn_regs (s : State) (i : Nat) (x : RefIn) : (s.setRefIn i x).regs = s.regs := by simp only [State.setRefIn]
@[simp] theorem State.setRefIn_taken (s : State) (i : Nat) (x : RefIn) : (s.setRefIn i x).taken = s.taken := by simp only [State.setRefIn]
@[simp] theorem State.setRefIn_snap (s : State) (i : Nat) (x : RefIn) : (s.setRefIn i x).snap = s.snap := by simp only [State.setRefIn]
@[simp] theorem State.setRefIn_now (s : State) (i : Nat) (x : RefIn) : (s.setRefIn i x).now = s.now := by simp only [State.setRefIn]
@[simp] theorem State.setRefIn_free (s : State) (i : Nat) (x : RefIn) : (s.setRefIn i x).free = s.free := by simp only [State.setRefIn]
@[simp] theorem State.setRefIn_media (s : State) (i : Nat) (x : RefIn) : (s.setRefIn i x).media = s.media := by simp only [State.setRefIn]
@[simp] theorem State.setRefIn_xpt (s : State) (i : Nat) (x : RefIn) : (s.setRefIn i x).xpt = s.xpt := by simp only [State.setRefIn]
@[simp] theorem State.setRefIn_fst (s : State) (i : Nat) (x : RefIn) : (s.setRefIn i x).fst = s.fst := by simp only [State.setRefIn]
@[simp] theorem State.setRefIn_che (s : State) (i : Nat) (x : RefIn) : (s.setRefIn i x).che = s.che := by simp only [State.setRefIn]
@[simp] theorem State.setRefIn_sou (s : State) (i : Nat) (x : RefIn) : (s.setRefIn i x).sou = s.sou := by simp only [State.setRefIn]
@[simp] theorem State.setRefIn_aud (s : State) (i : Nat) (x : RefIn) : (s.setRefIn i x).aud = s.aud := by simp only [State.setRefIn]
@[simp] theorem State.setRefIn_host (s : State) (i : Nat) (x : RefIn) : (s.setRefIn i x).host = s.host := by simp only [State.setRefIn]
@[simp] theorem State.setRefIn_lv (s : State) (i : Nat) (x : RefIn) : (s.setRefIn i x).lv = s.lv := by simp only [State.setRefIn]
@[simp] theorem State.setRefIn_syn (s : State) (i : Nat) (x : RefIn) : (s.setRefIn i x).syn = s.syn := by simp only [State.setRefIn]
@[simp] theorem State.setRefIn_sec (s : State) (i : Nat) (x : RefIn) : (s.setRefIn i x).sec = s.sec := by simp only [State.setRefIn]
@[simp] theorem State.setRefIn_flt (s : State) (i : Nat) (x : RefIn) : (s.setRefIn i x).flt = s.flt := by simp only [State.setRefIn]
@[simp] theorem State.setRefIn_axl (s : State) (i : Nat) (x : RefIn) : (s.setRefIn i x).axl = s.axl := by simp only [State.setRefIn]
@[simp] theorem State.setRefIn_rst (s : State) (i : Nat) (x : RefIn) : (s.setRefIn i x).rst = s.rst := by simp only [State.setRefIn]
@[simp] theorem State.setRefIn_hsf (s : State) (i : Nat) (x : RefIn) : (s.setRefIn i x).hsf = s.hsf := by simp only [State.setRefIn]
@[simp] theorem State.setRefIn_mtx (s : State) (i : Nat) (x : RefIn) : (s.setRefIn i x).mtx = s.mtx := by simp only [State.setRefIn]
@[simp] theorem State.setRefIn_mate (s : State) (i : Nat) (x : RefIn) : (s.setRefIn i x).mate = s.mate := by simp only [State.setRefIn]
@[simp] theorem State.setRefIn_pkg (s : State) (i : Nat) (x : RefIn) : (s.setRefIn i x).pkg = s.pkg := by simp only [State.setRefIn]
@[simp] theorem State.setRefIn_pending (s : State) (i : Nat) (x : RefIn) : (s.setRefIn i x).pending = s.pending := by simp only [State.setRefIn]

/-! `State.setRst` -/

@[simp] theorem State.setRst_regs (s : State) (n : Nat) (x : RingSt) : (s.setRst n x).regs = s.regs := by simp only [State.setRst]
@[simp] theorem State.setRst_taken (s : State) (n : Nat) (x : RingSt) : (s.setRst n x).taken = s.taken := by simp only [State.setRst]
@[simp] theorem State.setRst_snap (s : State) (n : Nat) (x : RingSt) : (s.setRst n x).snap = s.snap := by simp only [State.setRst]
@[simp] theorem State.setRst_now (s : State) (n : Nat) (x : RingSt) : (s.setRst n x).now = s.now := by simp only [State.setRst]
@[simp] theorem State.setRst_free (s : State) (n : Nat) (x : RingSt) : (s.setRst n x).free = s.free := by simp only [State.setRst]
@[simp] theorem State.setRst_media (s : State) (n : Nat) (x : RingSt) : (s.setRst n x).media = s.media := by simp only [State.setRst]
@[simp] theorem State.setRst_xpt (s : State) (n : Nat) (x : RingSt) : (s.setRst n x).xpt = s.xpt := by simp only [State.setRst]
@[simp] theorem State.setRst_fst (s : State) (n : Nat) (x : RingSt) : (s.setRst n x).fst = s.fst := by simp only [State.setRst]
@[simp] theorem State.setRst_che (s : State) (n : Nat) (x : RingSt) : (s.setRst n x).che = s.che := by simp only [State.setRst]
@[simp] theorem State.setRst_sou (s : State) (n : Nat) (x : RingSt) : (s.setRst n x).sou = s.sou := by simp only [State.setRst]
@[simp] theorem State.setRst_aud (s : State) (n : Nat) (x : RingSt) : (s.setRst n x).aud = s.aud := by simp only [State.setRst]
@[simp] theorem State.setRst_lv (s : State) (n : Nat) (x : RingSt) : (s.setRst n x).lv = s.lv := by simp only [State.setRst]
@[simp] theorem State.setRst_ref (s : State) (n : Nat) (x : RingSt) : (s.setRst n x).ref = s.ref := by simp only [State.setRst]
@[simp] theorem State.setRst_syn (s : State) (n : Nat) (x : RingSt) : (s.setRst n x).syn = s.syn := by simp only [State.setRst]
@[simp] theorem State.setRst_sec (s : State) (n : Nat) (x : RingSt) : (s.setRst n x).sec = s.sec := by simp only [State.setRst]
@[simp] theorem State.setRst_flt (s : State) (n : Nat) (x : RingSt) : (s.setRst n x).flt = s.flt := by simp only [State.setRst]
@[simp] theorem State.setRst_axl (s : State) (n : Nat) (x : RingSt) : (s.setRst n x).axl = s.axl := by simp only [State.setRst]
@[simp] theorem State.setRst_rst (s : State) (n : Nat) (x : RingSt) : (s.setRst n x).rst = s.rst := by simp only [State.setRst]
@[simp] theorem State.setRst_hsf (s : State) (n : Nat) (x : RingSt) : (s.setRst n x).hsf = s.hsf := by simp only [State.setRst]
@[simp] theorem State.setRst_mtx (s : State) (n : Nat) (x : RingSt) : (s.setRst n x).mtx = s.mtx := by simp only [State.setRst]
@[simp] theorem State.setRst_mate (s : State) (n : Nat) (x : RingSt) : (s.setRst n x).mate = s.mate := by simp only [State.setRst]
@[simp] theorem State.setRst_pkg (s : State) (n : Nat) (x : RingSt) : (s.setRst n x).pkg = s.pkg := by simp only [State.setRst]
@[simp] theorem State.setRst_pending (s : State) (n : Nat) (x : RingSt) : (s.setRst n x).pending = s.pending := by simp only [State.setRst]

/-! `State.setLvReg` -/

@[simp] theorem State.setLvReg_regs (s : State) (k : Nat) (v : BitVec 16) : (s.setLvReg k v).regs = s.regs := by simp only [State.setLvReg]
@[simp] theorem State.setLvReg_taken (s : State) (k : Nat) (v : BitVec 16) : (s.setLvReg k v).taken = s.taken := by simp only [State.setLvReg]
@[simp] theorem State.setLvReg_snap (s : State) (k : Nat) (v : BitVec 16) : (s.setLvReg k v).snap = s.snap := by simp only [State.setLvReg]
@[simp] theorem State.setLvReg_now (s : State) (k : Nat) (v : BitVec 16) : (s.setLvReg k v).now = s.now := by simp only [State.setLvReg]
@[simp] theorem State.setLvReg_free (s : State) (k : Nat) (v : BitVec 16) : (s.setLvReg k v).free = s.free := by simp only [State.setLvReg]
@[simp] theorem State.setLvReg_media (s : State) (k : Nat) (v : BitVec 16) : (s.setLvReg k v).media = s.media := by simp only [State.setLvReg]
@[simp] theorem State.setLvReg_xpt (s : State) (k : Nat) (v : BitVec 16) : (s.setLvReg k v).xpt = s.xpt := by simp only [State.setLvReg]
@[simp] theorem State.setLvReg_fst (s : State) (k : Nat) (v : BitVec 16) : (s.setLvReg k v).fst = s.fst := by simp only [State.setLvReg]
@[simp] theorem State.setLvReg_che (s : State) (k : Nat) (v : BitVec 16) : (s.setLvReg k v).che = s.che := by simp only [State.setLvReg]
@[simp] theorem State.setLvReg_sou (s : State) (k : Nat) (v : BitVec 16) : (s.setLvReg k v).sou = s.sou := by simp only [State.setLvReg]
@[simp] theorem State.setLvReg_aud (s : State) (k : Nat) (v : BitVec 16) : (s.setLvReg k v).aud = s.aud := by simp only [State.setLvReg]
@[simp] theorem State.setLvReg_host (s : State) (k : Nat) (v : BitVec 16) : (s.setLvReg k v).host = s.host := by simp only [State.setLvReg]
@[simp] theorem State.setLvReg_ref (s : State) (k : Nat) (v : BitVec 16) : (s.setLvReg k v).ref = s.ref := by simp only [State.setLvReg]
@[simp] theorem State.setLvReg_syn (s : State) (k : Nat) (v : BitVec 16) : (s.setLvReg k v).syn = s.syn := by simp only [State.setLvReg]
@[simp] theorem State.setLvReg_sec (s : State) (k : Nat) (v : BitVec 16) : (s.setLvReg k v).sec = s.sec := by simp only [State.setLvReg]
@[simp] theorem State.setLvReg_flt (s : State) (k : Nat) (v : BitVec 16) : (s.setLvReg k v).flt = s.flt := by simp only [State.setLvReg]
@[simp] theorem State.setLvReg_axl (s : State) (k : Nat) (v : BitVec 16) : (s.setLvReg k v).axl = s.axl := by simp only [State.setLvReg]
@[simp] theorem State.setLvReg_rst (s : State) (k : Nat) (v : BitVec 16) : (s.setLvReg k v).rst = s.rst := by simp only [State.setLvReg]
@[simp] theorem State.setLvReg_hsf (s : State) (k : Nat) (v : BitVec 16) : (s.setLvReg k v).hsf = s.hsf := by simp only [State.setLvReg]
@[simp] theorem State.setLvReg_mtx (s : State) (k : Nat) (v : BitVec 16) : (s.setLvReg k v).mtx = s.mtx := by simp only [State.setLvReg]
@[simp] theorem State.setLvReg_mate (s : State) (k : Nat) (v : BitVec 16) : (s.setLvReg k v).mate = s.mate := by simp only [State.setLvReg]
@[simp] theorem State.setLvReg_pkg (s : State) (k : Nat) (v : BitVec 16) : (s.setLvReg k v).pkg = s.pkg := by simp only [State.setLvReg]
@[simp] theorem State.setLvReg_pending (s : State) (k : Nat) (v : BitVec 16) : (s.setLvReg k v).pending = s.pending := by simp only [State.setLvReg]

/-! `State.pushCpl` -/

@[simp] theorem State.pushCpl_regs (s : State) (c : Cpl) : (s.pushCpl c).regs = s.regs := by simp only [State.pushCpl]
@[simp] theorem State.pushCpl_taken (s : State) (c : Cpl) : (s.pushCpl c).taken = s.taken := by simp only [State.pushCpl]
@[simp] theorem State.pushCpl_snap (s : State) (c : Cpl) : (s.pushCpl c).snap = s.snap := by simp only [State.pushCpl]
@[simp] theorem State.pushCpl_now (s : State) (c : Cpl) : (s.pushCpl c).now = s.now := by simp only [State.pushCpl]
@[simp] theorem State.pushCpl_free (s : State) (c : Cpl) : (s.pushCpl c).free = s.free := by simp only [State.pushCpl]
@[simp] theorem State.pushCpl_media (s : State) (c : Cpl) : (s.pushCpl c).media = s.media := by simp only [State.pushCpl]
@[simp] theorem State.pushCpl_xpt (s : State) (c : Cpl) : (s.pushCpl c).xpt = s.xpt := by simp only [State.pushCpl]
@[simp] theorem State.pushCpl_fst (s : State) (c : Cpl) : (s.pushCpl c).fst = s.fst := by simp only [State.pushCpl]
@[simp] theorem State.pushCpl_che (s : State) (c : Cpl) : (s.pushCpl c).che = s.che := by simp only [State.pushCpl]
@[simp] theorem State.pushCpl_sou (s : State) (c : Cpl) : (s.pushCpl c).sou = s.sou := by simp only [State.pushCpl]
@[simp] theorem State.pushCpl_aud (s : State) (c : Cpl) : (s.pushCpl c).aud = s.aud := by simp only [State.pushCpl]
@[simp] theorem State.pushCpl_lv (s : State) (c : Cpl) : (s.pushCpl c).lv = s.lv := by simp only [State.pushCpl]
@[simp] theorem State.pushCpl_ref (s : State) (c : Cpl) : (s.pushCpl c).ref = s.ref := by simp only [State.pushCpl]
@[simp] theorem State.pushCpl_syn (s : State) (c : Cpl) : (s.pushCpl c).syn = s.syn := by simp only [State.pushCpl]
@[simp] theorem State.pushCpl_sec (s : State) (c : Cpl) : (s.pushCpl c).sec = s.sec := by simp only [State.pushCpl]
@[simp] theorem State.pushCpl_flt (s : State) (c : Cpl) : (s.pushCpl c).flt = s.flt := by simp only [State.pushCpl]
@[simp] theorem State.pushCpl_axl (s : State) (c : Cpl) : (s.pushCpl c).axl = s.axl := by simp only [State.pushCpl]
@[simp] theorem State.pushCpl_rst (s : State) (c : Cpl) : (s.pushCpl c).rst = s.rst := by simp only [State.pushCpl]
@[simp] theorem State.pushCpl_hsf (s : State) (c : Cpl) : (s.pushCpl c).hsf = s.hsf := by simp only [State.pushCpl]
@[simp] theorem State.pushCpl_mtx (s : State) (c : Cpl) : (s.pushCpl c).mtx = s.mtx := by simp only [State.pushCpl]
@[simp] theorem State.pushCpl_mate (s : State) (c : Cpl) : (s.pushCpl c).mate = s.mate := by simp only [State.pushCpl]
@[simp] theorem State.pushCpl_pkg (s : State) (c : Cpl) : (s.pushCpl c).pkg = s.pkg := by simp only [State.pushCpl]
@[simp] theorem State.pushCpl_pending (s : State) (c : Cpl) : (s.pushCpl c).pending = s.pending := by simp only [State.pushCpl]

/-! `State.setOp` -/

@[simp] theorem State.setOp_regs (s : State) (id : Nat) (b : OpBody) : (s.setOp id b).regs = s.regs := by simp only [State.setOp]
@[simp] theorem State.setOp_taken (s : State) (id : Nat) (b : OpBody) : (s.setOp id b).taken = s.taken := by simp only [State.setOp]
@[simp] theorem State.setOp_snap (s : State) (id : Nat) (b : OpBody) : (s.setOp id b).snap = s.snap := by simp only [State.setOp]
@[simp] theorem State.setOp_now (s : State) (id : Nat) (b : OpBody) : (s.setOp id b).now = s.now := by simp only [State.setOp]
@[simp] theorem State.setOp_free (s : State) (id : Nat) (b : OpBody) : (s.setOp id b).free = s.free := by simp only [State.setOp]
@[simp] theorem State.setOp_media (s : State) (id : Nat) (b : OpBody) : (s.setOp id b).media = s.media := by simp only [State.setOp]
@[simp] theorem State.setOp_xpt (s : State) (id : Nat) (b : OpBody) : (s.setOp id b).xpt = s.xpt := by simp only [State.setOp]
@[simp] theorem State.setOp_fst (s : State) (id : Nat) (b : OpBody) : (s.setOp id b).fst = s.fst := by simp only [State.setOp]
@[simp] theorem State.setOp_che (s : State) (id : Nat) (b : OpBody) : (s.setOp id b).che = s.che := by simp only [State.setOp]
@[simp] theorem State.setOp_sou (s : State) (id : Nat) (b : OpBody) : (s.setOp id b).sou = s.sou := by simp only [State.setOp]
@[simp] theorem State.setOp_aud (s : State) (id : Nat) (b : OpBody) : (s.setOp id b).aud = s.aud := by simp only [State.setOp]
@[simp] theorem State.setOp_lv (s : State) (id : Nat) (b : OpBody) : (s.setOp id b).lv = s.lv := by simp only [State.setOp]
@[simp] theorem State.setOp_ref (s : State) (id : Nat) (b : OpBody) : (s.setOp id b).ref = s.ref := by simp only [State.setOp]
@[simp] theorem State.setOp_syn (s : State) (id : Nat) (b : OpBody) : (s.setOp id b).syn = s.syn := by simp only [State.setOp]
@[simp] theorem State.setOp_sec (s : State) (id : Nat) (b : OpBody) : (s.setOp id b).sec = s.sec := by simp only [State.setOp]
@[simp] theorem State.setOp_flt (s : State) (id : Nat) (b : OpBody) : (s.setOp id b).flt = s.flt := by simp only [State.setOp]
@[simp] theorem State.setOp_axl (s : State) (id : Nat) (b : OpBody) : (s.setOp id b).axl = s.axl := by simp only [State.setOp]
@[simp] theorem State.setOp_rst (s : State) (id : Nat) (b : OpBody) : (s.setOp id b).rst = s.rst := by simp only [State.setOp]
@[simp] theorem State.setOp_hsf (s : State) (id : Nat) (b : OpBody) : (s.setOp id b).hsf = s.hsf := by simp only [State.setOp]
@[simp] theorem State.setOp_mtx (s : State) (id : Nat) (b : OpBody) : (s.setOp id b).mtx = s.mtx := by simp only [State.setOp]
@[simp] theorem State.setOp_mate (s : State) (id : Nat) (b : OpBody) : (s.setOp id b).mate = s.mate := by simp only [State.setOp]
@[simp] theorem State.setOp_pkg (s : State) (id : Nat) (b : OpBody) : (s.setOp id b).pkg = s.pkg := by simp only [State.setOp]
@[simp] theorem State.setOp_pending (s : State) (id : Nat) (b : OpBody) : (s.setOp id b).pending = s.pending := by simp only [State.setOp]

/-! `State.dropOp` -/

@[simp] theorem State.dropOp_regs (s : State) (id : Nat) : (s.dropOp id).regs = s.regs := by simp only [State.dropOp]
@[simp] theorem State.dropOp_taken (s : State) (id : Nat) : (s.dropOp id).taken = s.taken := by simp only [State.dropOp]
@[simp] theorem State.dropOp_snap (s : State) (id : Nat) : (s.dropOp id).snap = s.snap := by simp only [State.dropOp]
@[simp] theorem State.dropOp_now (s : State) (id : Nat) : (s.dropOp id).now = s.now := by simp only [State.dropOp]
@[simp] theorem State.dropOp_free (s : State) (id : Nat) : (s.dropOp id).free = s.free := by simp only [State.dropOp]
@[simp] theorem State.dropOp_media (s : State) (id : Nat) : (s.dropOp id).media = s.media := by simp only [State.dropOp]
@[simp] theorem State.dropOp_xpt (s : State) (id : Nat) : (s.dropOp id).xpt = s.xpt := by simp only [State.dropOp]
@[simp] theorem State.dropOp_fst (s : State) (id : Nat) : (s.dropOp id).fst = s.fst := by simp only [State.dropOp]
@[simp] theorem State.dropOp_che (s : State) (id : Nat) : (s.dropOp id).che = s.che := by simp only [State.dropOp]
@[simp] theorem State.dropOp_sou (s : State) (id : Nat) : (s.dropOp id).sou = s.sou := by simp only [State.dropOp]
@[simp] theorem State.dropOp_aud (s : State) (id : Nat) : (s.dropOp id).aud = s.aud := by simp only [State.dropOp]
@[simp] theorem State.dropOp_lv (s : State) (id : Nat) : (s.dropOp id).lv = s.lv := by simp only [State.dropOp]
@[simp] theorem State.dropOp_ref (s : State) (id : Nat) : (s.dropOp id).ref = s.ref := by simp only [State.dropOp]
@[simp] theorem State.dropOp_syn (s : State) (id : Nat) : (s.dropOp id).syn = s.syn := by simp only [State.dropOp]
@[simp] theorem State.dropOp_sec (s : State) (id : Nat) : (s.dropOp id).sec = s.sec := by simp only [State.dropOp]
@[simp] theorem State.dropOp_flt (s : State) (id : Nat) : (s.dropOp id).flt = s.flt := by simp only [State.dropOp]
@[simp] theorem State.dropOp_axl (s : State) (id : Nat) : (s.dropOp id).axl = s.axl := by simp only [State.dropOp]
@[simp] theorem State.dropOp_rst (s : State) (id : Nat) : (s.dropOp id).rst = s.rst := by simp only [State.dropOp]
@[simp] theorem State.dropOp_hsf (s : State) (id : Nat) : (s.dropOp id).hsf = s.hsf := by simp only [State.dropOp]
@[simp] theorem State.dropOp_mtx (s : State) (id : Nat) : (s.dropOp id).mtx = s.mtx := by simp only [State.dropOp]
@[simp] theorem State.dropOp_mate (s : State) (id : Nat) : (s.dropOp id).mate = s.mate := by simp only [State.dropOp]
@[simp] theorem State.dropOp_pkg (s : State) (id : Nat) : (s.dropOp id).pkg = s.pkg := by simp only [State.dropOp]
@[simp] theorem State.dropOp_pending (s : State) (id : Nat) : (s.dropOp id).pending = s.pending := by simp only [State.dropOp]

end Sys2Proof.Machine
end

