-- ==== Sys2Proof/Laws/Tab.lean ====
section
/-! SUPPORT. Tables: reading after a write, and the canonical form that every write keeps. -/
set_option Elab.async false
namespace Sys2Proof.Machine

variable {α : Type}

theorem tabFind_del_self (t : Tab α) (k : Nat) : tabFind (tabDel t k) k = none := by
  induction t with
  | nil => rfl
  | cons p t ih =>
    obtain ⟨k', v⟩ := p
    by_cases h : k' = k
    · simpa [tabDel, h] using ih
    · simp only [tabDel] at ih
      simp [tabDel, h, tabFind, ih]

theorem tabFind_del_ne (t : Tab α) {k j : Nat} (h : j ≠ k) : tabFind (tabDel t k) j = tabFind t j := by
  induction t with
  | nil => rfl
  | cons p t ih =>
    obtain ⟨k', v⟩ := p
    simp only [tabDel] at ih
    by_cases h' : k' = k
    · subst h'; simp [tabDel, tabFind, ih, Ne.symm h]
    · simp [tabDel, h', tabFind, ih]

theorem tabFind_ins_self (t : Tab α) (k : Nat) (v : α) (h : tabFind t k = none) : tabFind (tabIns t k v) k = some v := by
  induction t with
  | nil => simp [tabIns, tabFind]
  | cons p t ih =>
    obtain ⟨k', v'⟩ := p
    by_cases e : k' = k
    · simp [tabFind, e] at h
    · simp only [tabFind, e, if_false] at h
      simp only [tabIns]
      split
      · simp [tabFind]
      · simp [tabFind, e, ih h]

theorem tabFind_ins_ne (t : Tab α) {k j : Nat} (v : α) (h : j ≠ k) : tabFind (tabIns t k v) j = tabFind t j := by
  induction t with
  | nil => simp [tabIns, tabFind, Ne.symm h]
  | cons p t ih =>
    obtain ⟨k', v'⟩ := p
    simp only [tabIns]
    split
    · simp [tabFind, Ne.symm h]
    · simp [tabFind, ih]

@[simp] theorem tabFind_put_self (t : Tab α) (k : Nat) (v : α) : tabFind (tabPut t k v) k = some v :=
  tabFind_ins_self _ _ _ (tabFind_del_self _ _)

theorem tabFind_put_ne (t : Tab α) {k j : Nat} (v : α) (h : j ≠ k) : tabFind (tabPut t k v) j = tabFind t j := by
  rw [tabPut, tabFind_ins_ne _ _ h, tabFind_del_ne _ h]

section default
variable [DecidableEq α]

@[simp] theorem tabGet_set_self (d : α) (t : Tab α) (k : Nat) (v : α) : tabGet d (tabSet d t k v) k = v := by
  unfold tabSet tabGet
  split
  · simp [tabFind_del_self, *]
  · simp

theorem tabGet_set_ne (d e : α) (t : Tab α) {k j : Nat} (v : α) (h : j ≠ k) : tabGet d (tabSet e t k v) j = tabGet d t j := by
  unfold tabSet tabGet
  split
  · rw [tabFind_del_ne _ h]
  · rw [tabFind_put_ne _ _ h]

@[simp] theorem tabGet_nil (d : α) (k : Nat) : tabGet d ([] : Tab α) k = d := rfl

end default

/-! ### Sorted tables -/

/-- Every key listed is above `k`. -/
theorem tabSorted_cons_iff (k : Nat) (v : α) (t : Tab α) :
    tabSorted ((k, v) :: t) = true ↔ (∀ p ∈ t, k < p.1) ∧ tabSorted t = true := by
  induction t generalizing k v with
  | nil => simp [tabSorted]
  | cons p t ih =>
    obtain ⟨k', v'⟩ := p
    simp only [tabSorted, Bool.and_eq_true, decide_eq_true_eq]
    constructor
    · rintro ⟨h, hs⟩
      refine ⟨?_, hs⟩
      intro q hq
      rcases List.mem_cons.mp hq with rfl | hq
      · exact h
      · exact lt_trans h (((ih k' v').mp hs).1 q hq)
    · rintro ⟨h, hs⟩
      exact ⟨h _ (List.mem_cons_self ..), hs⟩

theorem tabSorted_del (t : Tab α) (k : Nat) (h : tabSorted t = true) : tabSorted (tabDel t k) = true := by
  induction t with
  | nil => rfl
  | cons p t ih =>
    obtain ⟨k', v⟩ := p
    obtain ⟨h1, h2⟩ := (tabSorted_cons_iff _ _ _).mp h
    by_cases e : k' = k
    · simpa [tabDel, e] using ih h2
    · have : tabDel ((k', v) :: t) k = (k', v) :: tabDel t k := by simp [tabDel, e]
      rw [this, tabSorted_cons_iff]
      exact ⟨fun q hq => h1 q (List.mem_of_mem_filter hq), ih h2⟩

theorem mem_tabIns {t : Tab α} {k : Nat} {v : α} {p : Nat × α} (h : p ∈ tabIns t k v) : p = (k, v) ∨ p ∈ t := by
  induction t with
  | nil => simpa [tabIns] using h
  | cons q t ih =>
    obtain ⟨k', v'⟩ := q
    simp only [tabIns] at h
    split at h
    · simpa using h
    · rcases List.mem_cons.mp h with rfl | h
      · simp
      · rcases ih h with h | h <;> simp [h]

theorem tabSorted_ins (t : Tab α) (k : Nat) (v : α) (h : tabSorted t = true) (hk : ∀ p ∈ t, p.1 ≠ k) :
    tabSorted (tabIns t k v) = true := by
  induction t with
  | nil => rfl
  | cons p t ih =>
    obtain ⟨k', v'⟩ := p
    obtain ⟨h1, h2⟩ := (tabSorted_cons_iff _ _ _).mp h
    simp only [tabIns]
    split
    · rename_i hlt
      rw [tabSorted_cons_iff]
      refine ⟨fun q hq => ?_, h⟩
      rcases List.mem_cons.mp hq with rfl | hq
      · exact hlt
      · exact lt_trans hlt (h1 q hq)
    · rename_i hge
      have hne : k' ≠ k := hk _ (List.mem_cons_self ..)
      rw [tabSorted_cons_iff]
      refine ⟨fun q hq => ?_, ih h2 fun q hq => hk q (List.mem_cons_of_mem _ hq)⟩
      rcases mem_tabIns hq with rfl | hq
      · simp only; omega
      · exact h1 q hq

theorem tabDel_ne {t : Tab α} {k : Nat} {p : Nat × α} (h : p ∈ tabDel t k) : p.1 ≠ k := by
  simpa using (List.mem_filter.mp h).2

theorem tabSorted_put (t : Tab α) (k : Nat) (v : α) (h : tabSorted t = true) : tabSorted (tabPut t k v) = true :=
  tabSorted_ins _ _ _ (tabSorted_del _ _ h) fun _ hp => tabDel_ne hp

/-- A write keeps the canonical form. -/
theorem tabWf_set [DecidableEq α] (d : Nat → α) (t : Tab α) (k : Nat) (v : α) (h : tabWf d t = true) :
    tabWf d (tabSet (d k) t k v) = true := by
  simp only [tabWf, Bool.and_eq_true, List.all_eq_true, decide_eq_true_eq] at h ⊢
  obtain ⟨hs, hd⟩ := h
  unfold tabSet
  split
  · exact ⟨tabSorted_del _ _ hs, fun p hp => hd p (List.mem_of_mem_filter hp)⟩
  · rename_i hv
    refine ⟨tabSorted_put _ _ _ hs, fun p hp => ?_⟩
    rcases mem_tabIns hp with rfl | hp
    · exact hv
    · exact hd p (List.mem_of_mem_filter hp)

end Sys2Proof.Machine
end

