-- ==== Sys2Proof/Laws/Regs.lean ====
section
/-! SUPPORT. Registers and fields: what a read returns after a write, and which fields a write of one field leaves alone. -/
set_option Elab.async false
namespace Sys2Proof.Machine

/-- Two fields share no bit. -/
abbrev Bits.apart (f g : Bits) : Prop := f.lo + f.width ≤ g.lo ∨ g.lo + g.width ≤ f.lo

theorem setF_lt (f : Bits) (v : Nat) (w : Word) (h : f.lo + f.width ≤ 32) :
    w.toNat % 2 ^ f.lo + v % 2 ^ f.width * 2 ^ f.lo + w.toNat / 2 ^ (f.lo + f.width) * 2 ^ (f.lo + f.width) < 2 ^ 32 := by
  have hw := w.isLt
  have h1 : w.toNat % 2 ^ f.lo < 2 ^ f.lo := Nat.mod_lt _ (by positivity)
  have h2 : v % 2 ^ f.width < 2 ^ f.width := Nat.mod_lt _ (by positivity)
  have h3 : w.toNat / 2 ^ (f.lo + f.width) < 2 ^ (32 - (f.lo + f.width)) := by
    rw [Nat.div_lt_iff_lt_mul (by positivity), ← pow_add, Nat.sub_add_cancel h]; exact hw
  have e : (2 : Nat) ^ 32 = 2 ^ (32 - (f.lo + f.width)) * 2 ^ (f.lo + f.width) := by rw [← pow_add, Nat.sub_add_cancel h]
  have e2 : (2 : Nat) ^ (f.lo + f.width) = 2 ^ f.width * 2 ^ f.lo := by rw [pow_add, mul_comm]
  rw [e]
  calc _ < (w.toNat / 2 ^ (f.lo + f.width) + 1) * 2 ^ (f.lo + f.width) := by
        rw [add_mul, one_mul, e2]
        have : v % 2 ^ f.width * 2 ^ f.lo + 2 ^ f.lo ≤ 2 ^ f.width * 2 ^ f.lo := by
          rw [← Nat.succ_mul]; exact Nat.mul_le_mul_right _ h2
        omega
    _ ≤ _ := Nat.mul_le_mul_right _ h3

theorem setF_toNat (f : Bits) (v : Nat) (w : Word) (h : f.lo + f.width ≤ 32) :
    (setF f v w).toNat = w.toNat % 2 ^ f.lo + v % 2 ^ f.width * 2 ^ f.lo + w.toNat / 2 ^ (f.lo + f.width) * 2 ^ (f.lo + f.width) := by
  rw [setF, BitVec.toNat_ofNat, Nat.mod_eq_of_lt (setF_lt f v w h)]

/-- A field reads as it was written, cut to its width. -/
theorem getF_setF (f : Bits) (v : Nat) (w : Word) (h : f.lo + f.width ≤ 32) : getF f (setF f v w) = v % 2 ^ f.width := by
  have h1 : w.toNat % 2 ^ f.lo < 2 ^ f.lo := Nat.mod_lt _ (by positivity)
  rw [getF, setF_toNat f v w h, pow_add]
  have : w.toNat % 2 ^ f.lo + v % 2 ^ f.width * 2 ^ f.lo + w.toNat / (2 ^ f.lo * 2 ^ f.width) * (2 ^ f.lo * 2 ^ f.width)
      = w.toNat % 2 ^ f.lo + 2 ^ f.lo * (v % 2 ^ f.width + 2 ^ f.width * (w.toNat / (2 ^ f.lo * 2 ^ f.width))) := by ring
  rw [this, Nat.add_mul_div_left _ _ (by positivity), Nat.div_eq_of_lt h1, zero_add, Nat.add_mul_mod_self_left, Nat.mod_mod]

/-- A write of one field leaves the fields apart from it. -/
theorem getF_setF_apart (f g : Bits) (v : Nat) (w : Word) (hf : f.lo + f.width ≤ 32) (h : f.apart g) :
    getF g (setF f v w) = getF g w := by
  have key : ∀ i, (i < f.lo ∨ f.lo + f.width ≤ i) → (setF f v w).toNat.testBit i = w.toNat.testBit i := by
    intro i hi
    have h1 : w.toNat % 2 ^ f.lo < 2 ^ f.lo := Nat.mod_lt _ (by positivity)
    have h2 : v % 2 ^ f.width < 2 ^ f.width := Nat.mod_lt _ (by positivity)
    rw [setF_toNat f v w hf]
    rcases hi with hi | hi
    · have e : w.toNat % 2 ^ f.lo + v % 2 ^ f.width * 2 ^ f.lo + w.toNat / 2 ^ (f.lo + f.width) * 2 ^ (f.lo + f.width)
          = 2 ^ f.lo * (v % 2 ^ f.width + 2 ^ f.width * (w.toNat / 2 ^ (f.lo + f.width))) + w.toNat % 2 ^ f.lo := by
        rw [pow_add]; ring
      rw [e, Nat.testBit_two_pow_mul_add _ h1, if_pos hi, Nat.testBit_mod_two_pow]
      simp [hi]
    · have h3 : w.toNat % 2 ^ f.lo + v % 2 ^ f.width * 2 ^ f.lo < 2 ^ (f.lo + f.width) := by
        rw [pow_add, mul_comm (2 ^ f.lo)]
        calc _ < (v % 2 ^ f.width + 1) * 2 ^ f.lo := by rw [add_mul, one_mul]; omega
          _ ≤ _ := Nat.mul_le_mul_right _ h2
      have e : w.toNat % 2 ^ f.lo + v % 2 ^ f.width * 2 ^ f.lo + w.toNat / 2 ^ (f.lo + f.width) * 2 ^ (f.lo + f.width)
          = 2 ^ (f.lo + f.width) * (w.toNat / 2 ^ (f.lo + f.width)) + (w.toNat % 2 ^ f.lo + v % 2 ^ f.width * 2 ^ f.lo) := by ring
      rw [e, Nat.testBit_two_pow_mul_add _ h3, if_neg (by omega), Nat.testBit_div_two_pow, Nat.sub_add_cancel hi]
  apply Nat.eq_of_testBit_eq
  intro i
  simp only [getF, Nat.testBit_mod_two_pow, Nat.testBit_div_two_pow]
  by_cases hi : i < g.width
  · rw [key _ (by rcases h with h | h <;> omega)]
  · simp [hi]

/-! ### Registers -/

/-- A register holds what was last written to it. -/
@[simp] theorem State.rd_wr_self (s : State) (a : Nat) (v : Word) : (s.wr a v).rd a = v := tabGet_set_self ..

theorem State.rd_wr_ne (s : State) {a b : Nat} (v : Word) (h : b ≠ a) : (s.wr a v).rd b = s.rd b := tabGet_set_ne _ _ _ _ h

/-- Reading a register after a write of one register. -/
theorem State.rd_wr (s : State) (a b : Nat) (v : Word) : (s.wr a v).rd b = if b = a then v else s.rd b := by
  split
  · subst b; simp
  · exact s.rd_wr_ne v ‹_›

@[simp] theorem State.rd_set_self (s : State) (a : Nat) (f : Bits) (v : Nat) : (s.set a f v).rd a = setF f v (s.rd a) := by
  simp [State.set]

theorem State.rd_set_ne (s : State) {a b : Nat} (f : Bits) (v : Nat) (h : b ≠ a) : (s.set a f v).rd b = s.rd b :=
  s.rd_wr_ne _ h

theorem State.get_wr_ne (s : State) {a b : Nat} (v : Word) (g : Bits) (h : b ≠ a) : (s.wr a v).get b g = s.get b g := by
  simp [State.get, s.rd_wr_ne v h]

theorem State.get_set_self (s : State) (a : Nat) (f : Bits) (v : Nat) (h : f.lo + f.width ≤ 32) :
    (s.set a f v).get a f = v % 2 ^ f.width := by
  simp [State.get, getF_setF f v _ h]

theorem State.get_set_apart (s : State) (a : Nat) (f g : Bits) (v : Nat) (h : f.lo + f.width ≤ 32) (hg : f.apart g) :
    (s.set a f v).get a g = s.get a g := by
  simp [State.get, getF_setF_apart f g v _ h hg]

theorem State.get_set_ne (s : State) {a b : Nat} (f g : Bits) (v : Nat) (h : b ≠ a) : (s.set a f v).get b g = s.get b g :=
  s.get_wr_ne _ g h

theorem State.flag_set_ne (s : State) {a b : Nat} (f g : Bits) (v : Nat) (h : b ≠ a) : (s.set a f v).flag b g = s.flag b g := by
  simp [State.flag, s.get_set_ne f g v h]

/-- What a read sees depends on the register values alone. -/
theorem State.rd_congr {s t : State} (h : t.regs = s.regs) (a : Nat) : t.rd a = s.rd a := by simp [State.rd, h]

theorem State.get_congr {s t : State} (h : t.regs = s.regs) (a : Nat) (f : Bits) : t.get a f = s.get a f := by
  simp [State.get, State.rd_congr h]

/-! ### Vectors and history bits -/

/-- Raising a vector changes nothing but the pending bits and the messages sent. -/
theorem State.raiseVec_eq (s : State) (v : Nat) :
    s.raiseVec v = { s with host := { s.host with pba := (s.raiseVec v).host.pba, sent := (s.raiseVec v).host.sent } } := by
  unfold State.raiseVec; split <;> rfl

@[simp] theorem State.raiseVec_regs (s : State) (v : Nat) : (s.raiseVec v).regs = s.regs := by
  unfold State.raiseVec; split <;> rfl

/-- Setting a history bit changes nothing but its register and, through the vector, pending bits and messages. -/
theorem State.raiseBit_eq (s : State) (h : Hist) (b : Nat) :
    s.raiseBit h b = { s with regs := (s.raiseBit h b).regs, host := { s.host with pba := (s.raiseBit h b).host.pba, sent := (s.raiseBit h b).host.sent } } := by
  unfold State.raiseBit
  split
  · rfl
  · simp only
    split
    · rw [State.raiseVec_eq]; rfl
    · rfl

/-- A history bit that was set stays; one that was clear is set; nothing else in its register changes. -/
theorem State.rd_raiseBit_self (s : State) (h : Hist) (b : Nat) (hb : b < 32) :
    (s.raiseBit h b).get h.reg (bit b) = 1 := by
  unfold State.raiseBit
  split
  · rename_i hf
    simp only [State.flag, bne_iff_ne, ne_eq] at hf
    have : s.get h.reg (bit b) < 2 := by simp only [State.get, getF, bit]; exact Nat.mod_lt _ (by norm_num)
    omega
  · simp only
    split
    · rw [State.get_congr (State.raiseVec_regs ..), State.get_set_self _ _ _ _ (by simp only [bit]; omega)]; rfl
    · rw [State.get_set_self _ _ _ _ (by simp only [bit]; omega)]; rfl

theorem State.rd_raiseBit_ne (s : State) (h : Hist) (b : Nat) {a : Nat} (ha : a ≠ h.reg) : (s.raiseBit h b).rd a = s.rd a := by
  unfold State.raiseBit
  split
  · rfl
  · simp only
    split
    · rw [State.rd_congr (State.raiseVec_regs ..), State.rd_set_ne _ _ _ ha]
    · rw [State.rd_set_ne _ _ _ ha]

end Sys2Proof.Machine
end

