-- ==== Sys2Proof/Laws/Frame.lean ====
section
/-! SUPPORT. What the basic operations leave alone, as `onlyRegs`; and how a history bit reads after it is raised. -/
set_option Elab.async false
namespace Sys2Proof.Machine

theorem State.onlyRegs.refl (s : State) (l : List Nat) : s.onlyRegs s l := ⟨rfl, fun _ _ => rfl⟩

theorem State.onlyRegs.trans {s t u : State} {l : List Nat} (h : s.onlyRegs t l) (k : t.onlyRegs u l) : s.onlyRegs u l :=
  ⟨by rw [k.1, h.1], fun a ha => (k.2 a ha).trans (h.2 a ha)⟩

theorem State.onlyRegs.mono {s t : State} {l m : List Nat} (h : s.onlyRegs t l) (hl : ∀ a ∈ l, a ∈ m) : s.onlyRegs t m :=
  ⟨h.1, fun a ha => h.2 a fun x => ha (hl a x)⟩

theorem State.wr_onlyRegs (s : State) {a : Nat} (v : Word) {l : List Nat} (ha : a ∈ l) : s.onlyRegs (s.wr a v) l :=
  ⟨rfl, fun _ hb => s.rd_wr_ne v fun e => hb (e ▸ ha)⟩

theorem State.set_onlyRegs (s : State) {a : Nat} (f : Bits) (v : Nat) {l : List Nat} (ha : a ∈ l) : s.onlyRegs (s.set a f v) l :=
  s.wr_onlyRegs _ ha

theorem State.inc_onlyRegs (s : State) {a : Nat} {l : List Nat} (ha : a ∈ l) : s.onlyRegs (s.inc a) l :=
  s.wr_onlyRegs _ ha

theorem State.at_onlyRegs (s : State) (t : Nat) (l : List Nat) : s.onlyRegs (s.at_ t) l := ⟨rfl, fun _ _ => rfl⟩

theorem State.raiseVec_onlyRegs (s : State) (v : Nat) (l : List Nat) : s.onlyRegs (s.raiseVec v) l :=
  ⟨by rw [State.raiseVec_eq], fun a _ => State.rd_congr (State.raiseVec_regs ..) a⟩

theorem State.raiseBit_onlyRegs (s : State) (h : Hist) (b : Nat) {l : List Nat} (ha : h.reg ∈ l) : s.onlyRegs (s.raiseBit h b) l := by
  unfold State.raiseBit
  split
  · exact .refl ..
  · dsimp only
    split
    · exact (s.set_onlyRegs _ _ ha).trans (State.raiseVec_onlyRegs ..)
    · exact s.set_onlyRegs _ _ ha

theorem State.raise_onlyRegs (s : State) (h : Hist) (f : Bits) {l : List Nat} (ha : h.reg ∈ l) : s.onlyRegs (s.raise h f) l :=
  s.raiseBit_onlyRegs h _ ha

/-- A raised history bit reads 1. -/
theorem State.get_raise (s : State) (h : Hist) (f : Bits) (hf : f.width = 1) (hb : f.lo < 32) : (s.raise h f).get h.reg f = 1 := by
  obtain ⟨lo, w⟩ := f
  subst hf
  exact s.rd_raiseBit_self h lo hb

/-- A raise leaves every other register. -/
theorem State.rd_raise_ne (s : State) (h : Hist) (f : Bits) {a : Nat} (ha : a ≠ h.reg) : (s.raise h f).rd a = s.rd a :=
  s.rd_raiseBit_ne h _ ha

/-- A counter that is not full counts one up (R36). -/
theorem State.rd_inc (s : State) (a : Nat) : ((s.inc a).rd a).toNat = min 0xFFFFFFFF ((s.rd a).toNat + 1) := by
  rw [State.inc, State.count, State.rd_wr_self, BitVec.toNat_ofNat, Nat.mod_eq_of_lt]
  exact lt_of_le_of_lt (Nat.min_le_left _ _) (by norm_num)

/-- A one-bit field that reads 1 is set. -/
theorem State.flag_of_get {s : State} {a : Nat} {f : Bits} (h : s.get a f = 1) : s.flag a f = true := by simp [State.flag, h]

/-- A field that reads 0 is clear. -/
theorem State.flag_of_get0 {s : State} {a : Nat} {f : Bits} (h : s.get a f = 0) : s.flag a f = false := by simp [State.flag, h]

theorem State.setB_onlyRegs (s : State) {a : Nat} (f : Bits) (b : Bool) {l : List Nat} (ha : a ∈ l) : s.onlyRegs (s.setB a f b) l :=
  s.wr_onlyRegs _ ha

/-- A fold of operations that touch registers of the list alone. -/
theorem State.onlyRegs.foldl {α : Type} {f : State → α → State} {s : State} {l : List Nat} (xs : List α)
    (h : ∀ x ∈ xs, ∀ s : State, s.onlyRegs (f s x) l) : s.onlyRegs (xs.foldl f s) l := by
  induction xs generalizing s with
  | nil => exact .refl ..
  | cons x xs ih => exact (h x (by simp) s).trans (ih fun y hy => h y (by simp [hy]))

theorem State.onlyRegs.ite {s t u : State} {l : List Nat} {p : Prop} [Decidable p] (h : p → s.onlyRegs t l) (k : ¬p → s.onlyRegs u l) :
    s.onlyRegs (if p then t else u) l := by
  split
  · exact h ‹_›
  · exact k ‹_›

theorem State.onlyRegs.taken {s t : State} {l : List Nat} (h : s.onlyRegs t l) : t.taken = s.taken := by rw [h.1]
theorem State.onlyRegs.snap {s t : State} {l : List Nat} (h : s.onlyRegs t l) : t.snap = s.snap := by rw [h.1]
theorem State.onlyRegs.free {s t : State} {l : List Nat} (h : s.onlyRegs t l) : t.free = s.free := by rw [h.1]
theorem State.onlyRegs.media {s t : State} {l : List Nat} (h : s.onlyRegs t l) : t.media = s.media := by rw [h.1]
theorem State.onlyRegs.xpt {s t : State} {l : List Nat} (h : s.onlyRegs t l) : t.xpt = s.xpt := by rw [h.1]
theorem State.onlyRegs.fst {s t : State} {l : List Nat} (h : s.onlyRegs t l) : t.fst = s.fst := by rw [h.1]
theorem State.onlyRegs.che {s t : State} {l : List Nat} (h : s.onlyRegs t l) : t.che = s.che := by rw [h.1]
theorem State.onlyRegs.sou {s t : State} {l : List Nat} (h : s.onlyRegs t l) : t.sou = s.sou := by rw [h.1]
theorem State.onlyRegs.aud {s t : State} {l : List Nat} (h : s.onlyRegs t l) : t.aud = s.aud := by rw [h.1]
theorem State.onlyRegs.lv {s t : State} {l : List Nat} (h : s.onlyRegs t l) : t.lv = s.lv := by rw [h.1]
theorem State.onlyRegs.ref {s t : State} {l : List Nat} (h : s.onlyRegs t l) : t.ref = s.ref := by rw [h.1]
theorem State.onlyRegs.syn {s t : State} {l : List Nat} (h : s.onlyRegs t l) : t.syn = s.syn := by rw [h.1]
theorem State.onlyRegs.sec {s t : State} {l : List Nat} (h : s.onlyRegs t l) : t.sec = s.sec := by rw [h.1]
theorem State.onlyRegs.flt {s t : State} {l : List Nat} (h : s.onlyRegs t l) : t.flt = s.flt := by rw [h.1]
theorem State.onlyRegs.axl {s t : State} {l : List Nat} (h : s.onlyRegs t l) : t.axl = s.axl := by rw [h.1]
theorem State.onlyRegs.rst {s t : State} {l : List Nat} (h : s.onlyRegs t l) : t.rst = s.rst := by rw [h.1]
theorem State.onlyRegs.hsf {s t : State} {l : List Nat} (h : s.onlyRegs t l) : t.hsf = s.hsf := by rw [h.1]
theorem State.onlyRegs.mtx {s t : State} {l : List Nat} (h : s.onlyRegs t l) : t.mtx = s.mtx := by rw [h.1]
theorem State.onlyRegs.mate {s t : State} {l : List Nat} (h : s.onlyRegs t l) : t.mate = s.mate := by rw [h.1]
theorem State.onlyRegs.pkg {s t : State} {l : List Nat} (h : s.onlyRegs t l) : t.pkg = s.pkg := by rw [h.1]
theorem State.onlyRegs.pending {s t : State} {l : List Nat} (h : s.onlyRegs t l) : t.pending = s.pending := by rw [h.1]
theorem State.onlyRegs.rd {s t : State} {l : List Nat} (h : s.onlyRegs t l) {a : Nat} (ha : a ∉ l) : t.rd a = s.rd a := h.2 a ha
theorem State.onlyRegs.get {s t : State} {l : List Nat} (h : s.onlyRegs t l) {a : Nat} (ha : a ∉ l) (f : Bits) : t.get a f = s.get a f := by
  rw [State.get, h.2 a ha]; rfl

/-- A register write that software makes is carried out from the end of bring-up on, and not in END. -/
theorem State.ifUp_up {s : State} (h : s.up) (k : State → State) : s.ifUp k = k s :=
  if_pos (by simp [h.1, h.2])

/-- A register write of the host's own path that the tables and locks let through is carried out. -/
theorem State.byHost_upFor {s : State} {a : Nat} (h : s.upFor a) (k : State → State) : s.byHost a k = k s := by
  rw [State.byHost, State.ifUp_up h.1, h.2.1, h.2.2]; rfl

/-- A register write of the host's own path that a table or lock refuses is only recorded as refused. -/
theorem State.byHost_refused {s : State} {a : Nat} (h : s.up) (h6 : s.hung 6 = false) (h2 : s.hostMay a = false) (k : State → State) :
    s.byHost a k = s.refuseAccess (hostReq a s.now) := by
  rw [State.byHost, State.ifUp_up h, h6, h2]; rfl

theorem State.get_wr_self (s : State) (a : Nat) (v : Word) (f : Bits) : (s.wr a v).get a f = getF f v := by simp [State.get]
theorem State.rd_setB_ne (s : State) {a b : Nat} (f : Bits) (v : Bool) (h : b ≠ a) : (s.setB a f v).rd b = s.rd b := s.rd_set_ne _ _ h
theorem State.get_setB_ne (s : State) {a b : Nat} (f g : Bits) (v : Bool) (h : b ≠ a) : (s.setB a f v).get b g = s.get b g :=
  s.get_set_ne _ _ _ h
theorem State.get_setB_apart (s : State) {a : Nat} (f g : Bits) (v : Bool) (h : f.lo + f.width ≤ 32) (h2 : f.apart g) :
    (s.setB a f v).get a g = s.get a g :=
  s.get_set_apart _ _ _ _ h h2
/-- A one-bit field reads as the truth value it was set to. -/
theorem State.get_setB_self (s : State) {a : Nat} (f : Bits) (v : Bool) (h : f.lo + f.width ≤ 32) (h2 : f.width = 1) :
    (s.setB a f v).get a f = (if v then 1 else 0) := by
  rw [State.setB, s.get_set_self _ _ _ h, h2]; cases v <;> rfl
theorem State.get_raise_ne (s : State) (h : Hist) (f g : Bits) {a : Nat} (ha : a ≠ h.reg) : (s.raise h f).get a g = s.get a g := by
  rw [State.get, s.rd_raise_ne _ _ ha]; rfl

/-! ### Reading a register after an update that writes none -/

theorem State.rd_takeSetting (s : State) (l : List Nat) (j : Nat) : (s.takeSetting l).rd j = s.rd j := rfl
theorem State.get_takeSetting (s : State) (l : List Nat) (j : Nat) (q : Bits) : (s.takeSetting l).get j q = s.get j q := rfl
theorem State.flag_takeSetting (s : State) (l : List Nat) (j : Nat) (q : Bits) : (s.takeSetting l).flag j q = s.flag j q := rfl
theorem State.rd_at (s : State) (t : Nat) (j : Nat) : (s.at_ t).rd j = s.rd j := rfl
theorem State.get_at (s : State) (t : Nat) (j : Nat) (q : Bits) : (s.at_ t).get j q = s.get j q := rfl
theorem State.flag_at (s : State) (t : Nat) (j : Nat) (q : Bits) : (s.at_ t).flag j q = s.flag j q := rfl
theorem State.rd_hostWrite (s : State) (a : Nat) (l : List Byte) (j : Nat) : (s.hostWrite a l).rd j = s.rd j := rfl
theorem State.get_hostWrite (s : State) (a : Nat) (l : List Byte) (j : Nat) (q : Bits) : (s.hostWrite a l).get j q = s.get j q := rfl
theorem State.flag_hostWrite (s : State) (a : Nat) (l : List Byte) (j : Nat) (q : Bits) : (s.hostWrite a l).flag j q = s.flag j q := rfl
theorem State.rd_setRx (s : State) (n : Nat) (l : RxLane) (j : Nat) : (s.setRx n l).rd j = s.rd j := rfl
theorem State.get_setRx (s : State) (n : Nat) (l : RxLane) (j : Nat) (q : Bits) : (s.setRx n l).get j q = s.get j q := rfl
theorem State.flag_setRx (s : State) (n : Nat) (l : RxLane) (j : Nat) (q : Bits) : (s.setRx n l).flag j q = s.flag j q := rfl
theorem State.rd_setTx (s : State) (n : Nat) (l : TxLane) (j : Nat) : (s.setTx n l).rd j = s.rd j := rfl
theorem State.get_setTx (s : State) (n : Nat) (l : TxLane) (j : Nat) (q : Bits) : (s.setTx n l).get j q = s.get j q := rfl
theorem State.flag_setTx (s : State) (n : Nat) (l : TxLane) (j : Nat) (q : Bits) : (s.setTx n l).flag j q = s.flag j q := rfl
theorem State.rd_setPg (s : State) (p : Nat) (g : PgSt) (j : Nat) : (s.setPg p g).rd j = s.rd j := rfl
theorem State.get_setPg (s : State) (p : Nat) (g : PgSt) (j : Nat) (q : Bits) : (s.setPg p g).get j q = s.get j q := rfl
theorem State.flag_setPg (s : State) (p : Nat) (g : PgSt) (j : Nat) (q : Bits) : (s.setPg p g).flag j q = s.flag j q := rfl
theorem State.rd_setRing (s : State) (r : Nat) (g : Ring) (j : Nat) : (s.setRing r g).rd j = s.rd j := rfl
theorem State.get_setRing (s : State) (r : Nat) (g : Ring) (j : Nat) (q : Bits) : (s.setRing r g).get j q = s.get j q := rfl
theorem State.flag_setRing (s : State) (r : Nat) (g : Ring) (j : Nat) (q : Bits) : (s.setRing r g).flag j q = s.flag j q := rfl
theorem State.rd_setBuf (s : State) (h : Nat) (b : Buf) (j : Nat) : (s.setBuf h b).rd j = s.rd j := rfl
theorem State.get_setBuf (s : State) (h : Nat) (b : Buf) (j : Nat) (q : Bits) : (s.setBuf h b).get j q = s.get j q := rfl
theorem State.flag_setBuf (s : State) (h : Nat) (b : Buf) (j : Nat) (q : Bits) : (s.setBuf h b).flag j q = s.flag j q := rfl
theorem State.rd_setCw (s : State) (k : Nat) (c : Cw) (j : Nat) : (s.setCw k c).rd j = s.rd j := rfl
theorem State.get_setCw (s : State) (k : Nat) (c : Cw) (j : Nat) (q : Bits) : (s.setCw k c).get j q = s.get j q := rfl
theorem State.flag_setCw (s : State) (k : Nat) (c : Cw) (j : Nat) (q : Bits) : (s.setCw k c).flag j q = s.flag j q := rfl
theorem State.rd_setChain (s : State) (u : Nat) (c : Chain) (j : Nat) : (s.setChain u c).rd j = s.rd j := rfl
theorem State.get_setChain (s : State) (u : Nat) (c : Chain) (j : Nat) (q : Bits) : (s.setChain u c).get j q = s.get j q := rfl
theorem State.flag_setChain (s : State) (u : Nat) (c : Chain) (j : Nat) (q : Bits) : (s.setChain u c).flag j q = s.flag j q := rfl
theorem State.rd_setCtx (s : State) (c : Nat) (x : Ctx) (j : Nat) : (s.setCtx c x).rd j = s.rd j := rfl
theorem State.get_setCtx (s : State) (c : Nat) (x : Ctx) (j : Nat) (q : Bits) : (s.setCtx c x).get j q = s.get j q := rfl
theorem State.flag_setCtx (s : State) (c : Nat) (x : Ctx) (j : Nat) (q : Bits) : (s.setCtx c x).flag j q = s.flag j q := rfl
theorem State.rd_setEng (s : State) (e : Nat) (g : Engine) (j : Nat) : (s.setEng e g).rd j = s.rd j := rfl
theorem State.get_setEng (s : State) (e : Nat) (g : Engine) (j : Nat) (q : Bits) : (s.setEng e g).get j q = s.get j q := rfl
theorem State.flag_setEng (s : State) (e : Nat) (g : Engine) (j : Nat) (q : Bits) : (s.setEng e g).flag j q = s.flag j q := rfl
theorem State.rd_setUnit (s : State) (u : Nat) (x : Unit) (j : Nat) : (s.setUnit u x).rd j = s.rd j := rfl
theorem State.get_setUnit (s : State) (u : Nat) (x : Unit) (j : Nat) (q : Bits) : (s.setUnit u x).get j q = s.get j q := rfl
theorem State.flag_setUnit (s : State) (u : Nat) (x : Unit) (j : Nat) (q : Bits) : (s.setUnit u x).flag j q = s.flag j q := rfl
theorem State.rd_setSyn (s : State) (t : Nat) (x : Syn) (j : Nat) : (s.setSyn t x).rd j = s.rd j := rfl
theorem State.get_setSyn (s : State) (t : Nat) (x : Syn) (j : Nat) (q : Bits) : (s.setSyn t x).get j q = s.get j q := rfl
theorem State.flag_setSyn (s : State) (t : Nat) (x : Syn) (j : Nat) (q : Bits) : (s.setSyn t x).flag j q = s.flag j q := rfl
theorem State.rd_setRefIn (s : State) (i : Nat) (x : RefIn) (j : Nat) : (s.setRefIn i x).rd j = s.rd j := rfl
theorem State.get_setRefIn (s : State) (i : Nat) (x : RefIn) (j : Nat) (q : Bits) : (s.setRefIn i x).get j q = s.get j q := rfl
theorem State.flag_setRefIn (s : State) (i : Nat) (x : RefIn) (j : Nat) (q : Bits) : (s.setRefIn i x).flag j q = s.flag j q := rfl
theorem State.rd_setRst (s : State) (n : Nat) (x : RingSt) (j : Nat) : (s.setRst n x).rd j = s.rd j := rfl
theorem State.get_setRst (s : State) (n : Nat) (x : RingSt) (j : Nat) (q : Bits) : (s.setRst n x).get j q = s.get j q := rfl
theorem State.flag_setRst (s : State) (n : Nat) (x : RingSt) (j : Nat) (q : Bits) : (s.setRst n x).flag j q = s.flag j q := rfl
theorem State.rd_setLvReg (s : State) (k : Nat) (v : BitVec 16) (j : Nat) : (s.setLvReg k v).rd j = s.rd j := rfl
theorem State.get_setLvReg (s : State) (k : Nat) (v : BitVec 16) (j : Nat) (q : Bits) : (s.setLvReg k v).get j q = s.get j q := rfl
theorem State.flag_setLvReg (s : State) (k : Nat) (v : BitVec 16) (j : Nat) (q : Bits) : (s.setLvReg k v).flag j q = s.flag j q := rfl
theorem State.rd_pushCpl (s : State) (c : Cpl) (j : Nat) : (s.pushCpl c).rd j = s.rd j := rfl
theorem State.get_pushCpl (s : State) (c : Cpl) (j : Nat) (q : Bits) : (s.pushCpl c).get j q = s.get j q := rfl
theorem State.flag_pushCpl (s : State) (c : Cpl) (j : Nat) (q : Bits) : (s.pushCpl c).flag j q = s.flag j q := rfl
theorem State.rd_addEntry (s : State) (h : Hdr) (body : OpBody) (j : Nat) : (s.addEntry h body).rd j = s.rd j := rfl
theorem State.get_addEntry (s : State) (h : Hdr) (body : OpBody) (j : Nat) (q : Bits) : (s.addEntry h body).get j q = s.get j q := rfl
theorem State.flag_addEntry (s : State) (h : Hdr) (body : OpBody) (j : Nat) (q : Bits) : (s.addEntry h body).flag j q = s.flag j q := rfl
theorem State.rd_setOp (s : State) (id : Nat) (body : OpBody) (j : Nat) : (s.setOp id body).rd j = s.rd j := rfl
theorem State.get_setOp (s : State) (id : Nat) (body : OpBody) (j : Nat) (q : Bits) : (s.setOp id body).get j q = s.get j q := rfl
theorem State.flag_setOp (s : State) (id : Nat) (body : OpBody) (j : Nat) (q : Bits) : (s.setOp id body).flag j q = s.flag j q := rfl
theorem State.rd_dropOp (s : State) (id : Nat) (j : Nat) : (s.dropOp id).rd j = s.rd j := rfl
theorem State.get_dropOp (s : State) (id : Nat) (j : Nat) (q : Bits) : (s.dropOp id).get j q = s.get j q := rfl
theorem State.flag_dropOp (s : State) (id : Nat) (j : Nat) (q : Bits) : (s.dropOp id).flag j q = s.flag j q := rfl

/-! ### Accessors depend on their component alone -/

theorem State.rx_congr {s t : State} (h : t.media = s.media) (n : Nat) : t.rx n = s.rx n := by simp only [State.rx, h]
theorem State.tx_congr {s t : State} (h : t.media = s.media) (n : Nat) : t.tx n = s.tx n := by simp only [State.tx, h]
theorem State.route_congr {s t : State} (h : t.xpt = s.xpt) (n : Nat) : t.route n = s.route n := by simp only [State.route, h]
theorem State.pg_congr {s t : State} (h : t.xpt = s.xpt) (n : Nat) : t.pg n = s.pg n := by simp only [State.pg, h]
theorem State.ring_congr {s t : State} (h : t.fst = s.fst) (n : Nat) : t.ring n = s.ring n := by simp only [State.ring, h]
theorem State.buf_congr {s t : State} (h : t.fst = s.fst) (n : Nat) : t.buf n = s.buf n := by simp only [State.buf, h]
theorem State.cw_congr {s t : State} (h : t.fst = s.fst) (n : Nat) : t.cw n = s.cw n := by simp only [State.cw, h]
theorem State.chainOf_congr {s t : State} (h : t.fst = s.fst) (n : Nat) : t.chainOf n = s.chainOf n := by simp only [State.chainOf, h]
theorem State.ctx_congr {s t : State} (h : t.che = s.che) (n : Nat) : t.ctx n = s.ctx n := by simp only [State.ctx, h]
theorem State.eng_congr {s t : State} (h : t.che = s.che) (n : Nat) : t.eng n = s.eng n := by simp only [State.eng, h]
theorem State.unit_congr {s t : State} (h : t.sou = s.sou) (n : Nat) : t.unit n = s.unit n := by simp only [State.unit, h]
theorem State.syn__congr {s t : State} (h : t.syn = s.syn) (n : Nat) : t.syn_ n = s.syn_ n := by simp only [State.syn_, h]
theorem State.refIn_congr {s t : State} (h : t.ref = s.ref) (n : Nat) : t.refIn n = s.refIn n := by simp only [State.refIn, h]
theorem State.rst__congr {s t : State} (h : t.host = s.host) (n : Nat) : t.rst_ n = s.rst_ n := by simp only [State.rst_, h]
theorem State.lvReg_congr {s t : State} (h : t.lv = s.lv) (n : Nat) : t.lvReg n = s.lvReg n := by simp only [State.lvReg, h]

/-! ### A raise leaves every component but the registers and what vectors leave -/

@[simp] theorem State.raise_taken (s : State) (h : Hist) (f : Bits) : (s.raise h f).taken = s.taken :=
  (s.raise_onlyRegs h f (List.mem_singleton.mpr rfl)).taken
@[simp] theorem State.raise_snap (s : State) (h : Hist) (f : Bits) : (s.raise h f).snap = s.snap :=
  (s.raise_onlyRegs h f (List.mem_singleton.mpr rfl)).snap
@[simp] theorem State.raise_free (s : State) (h : Hist) (f : Bits) : (s.raise h f).free = s.free :=
  (s.raise_onlyRegs h f (List.mem_singleton.mpr rfl)).free
@[simp] theorem State.raise_media (s : State) (h : Hist) (f : Bits) : (s.raise h f).media = s.media :=
  (s.raise_onlyRegs h f (List.mem_singleton.mpr rfl)).media
@[simp] theorem State.raise_xpt (s : State) (h : Hist) (f : Bits) : (s.raise h f).xpt = s.xpt :=
  (s.raise_onlyRegs h f (List.mem_singleton.mpr rfl)).xpt
@[simp] theorem State.raise_fst (s : State) (h : Hist) (f : Bits) : (s.raise h f).fst = s.fst :=
  (s.raise_onlyRegs h f (List.mem_singleton.mpr rfl)).fst
@[simp] theorem State.raise_che (s : State) (h : Hist) (f : Bits) : (s.raise h f).che = s.che :=
  (s.raise_onlyRegs h f (List.mem_singleton.mpr rfl)).che
@[simp] theorem State.raise_sou (s : State) (h : Hist) (f : Bits) : (s.raise h f).sou = s.sou :=
  (s.raise_onlyRegs h f (List.mem_singleton.mpr rfl)).sou
@[simp] theorem State.raise_aud (s : State) (h : Hist) (f : Bits) : (s.raise h f).aud = s.aud :=
  (s.raise_onlyRegs h f (List.mem_singleton.mpr rfl)).aud
@[simp] theorem State.raise_lv (s : State) (h : Hist) (f : Bits) : (s.raise h f).lv = s.lv :=
  (s.raise_onlyRegs h f (List.mem_singleton.mpr rfl)).lv
@[simp] theorem State.raise_ref (s : State) (h : Hist) (f : Bits) : (s.raise h f).ref = s.ref :=
  (s.raise_onlyRegs h f (List.mem_singleton.mpr rfl)).ref
@[simp] theorem State.raise_syn (s : State) (h : Hist) (f : Bits) : (s.raise h f).syn = s.syn :=
  (s.raise_onlyRegs h f (List.mem_singleton.mpr rfl)).syn
@[simp] theorem State.raise_sec (s : State) (h : Hist) (f : Bits) : (s.raise h f).sec = s.sec :=
  (s.raise_onlyRegs h f (List.mem_singleton.mpr rfl)).sec
@[simp] theorem State.raise_flt (s : State) (h : Hist) (f : Bits) : (s.raise h f).flt = s.flt :=
  (s.raise_onlyRegs h f (List.mem_singleton.mpr rfl)).flt
@[simp] theorem State.raise_axl (s : State) (h : Hist) (f : Bits) : (s.raise h f).axl = s.axl :=
  (s.raise_onlyRegs h f (List.mem_singleton.mpr rfl)).axl
@[simp] theorem State.raise_rst (s : State) (h : Hist) (f : Bits) : (s.raise h f).rst = s.rst :=
  (s.raise_onlyRegs h f (List.mem_singleton.mpr rfl)).rst
@[simp] theorem State.raise_hsf (s : State) (h : Hist) (f : Bits) : (s.raise h f).hsf = s.hsf :=
  (s.raise_onlyRegs h f (List.mem_singleton.mpr rfl)).hsf
@[simp] theorem State.raise_mtx (s : State) (h : Hist) (f : Bits) : (s.raise h f).mtx = s.mtx :=
  (s.raise_onlyRegs h f (List.mem_singleton.mpr rfl)).mtx
@[simp] theorem State.raise_mate (s : State) (h : Hist) (f : Bits) : (s.raise h f).mate = s.mate :=
  (s.raise_onlyRegs h f (List.mem_singleton.mpr rfl)).mate
@[simp] theorem State.raise_pkg (s : State) (h : Hist) (f : Bits) : (s.raise h f).pkg = s.pkg :=
  (s.raise_onlyRegs h f (List.mem_singleton.mpr rfl)).pkg
@[simp] theorem State.raise_pending (s : State) (h : Hist) (f : Bits) : (s.raise h f).pending = s.pending :=
  (s.raise_onlyRegs h f (List.mem_singleton.mpr rfl)).pending
@[simp] theorem State.raiseBit_taken (s : State) (h : Hist) (b : Nat) : (s.raiseBit h b).taken = s.taken :=
  (s.raiseBit_onlyRegs h b (List.mem_singleton.mpr rfl)).taken

@[simp] theorem State.raiseBit_snap (s : State) (h : Hist) (b : Nat) : (s.raiseBit h b).snap = s.snap :=
  (s.raiseBit_onlyRegs h b (List.mem_singleton.mpr rfl)).snap

@[simp] theorem State.raiseBit_free (s : State) (h : Hist) (b : Nat) : (s.raiseBit h b).free = s.free :=
  (s.raiseBit_onlyRegs h b (List.mem_singleton.mpr rfl)).free

@[simp] theorem State.raiseBit_media (s : State) (h : Hist) (b : Nat) : (s.raiseBit h b).media = s.media :=
  (s.raiseBit_onlyRegs h b (List.mem_singleton.mpr rfl)).media

@[simp] theorem State.raiseBit_xpt (s : State) (h : Hist) (b : Nat) : (s.raiseBit h b).xpt = s.xpt :=
  (s.raiseBit_onlyRegs h b (List.mem_singleton.mpr rfl)).xpt

@[simp] theorem State.raiseBit_fst (s : State) (h : Hist) (b : Nat) : (s.raiseBit h b).fst = s.fst :=
  (s.raiseBit_onlyRegs h b (List.mem_singleton.mpr rfl)).fst

@[simp] theorem State.raiseBit_che (s : State) (h : Hist) (b : Nat) : (s.raiseBit h b).che = s.che :=
  (s.raiseBit_onlyRegs h b (List.mem_singleton.mpr rfl)).che

@[simp] theorem State.raiseBit_sou (s : State) (h : Hist) (b : Nat) : (s.raiseBit h b).sou = s.sou :=
  (s.raiseBit_onlyRegs h b (List.mem_singleton.mpr rfl)).sou

@[simp] theorem State.raiseBit_aud (s : State) (h : Hist) (b : Nat) : (s.raiseBit h b).aud = s.aud :=
  (s.raiseBit_onlyRegs h b (List.mem_singleton.mpr rfl)).aud

@[simp] theorem State.raiseBit_lv (s : State) (h : Hist) (b : Nat) : (s.raiseBit h b).lv = s.lv :=
  (s.raiseBit_onlyRegs h b (List.mem_singleton.mpr rfl)).lv

@[simp] theorem State.raiseBit_ref (s : State) (h : Hist) (b : Nat) : (s.raiseBit h b).ref = s.ref :=
  (s.raiseBit_onlyRegs h b (List.mem_singleton.mpr rfl)).ref

@[simp] theorem State.raiseBit_syn (s : State) (h : Hist) (b : Nat) : (s.raiseBit h b).syn = s.syn :=
  (s.raiseBit_onlyRegs h b (List.mem_singleton.mpr rfl)).syn

@[simp] theorem State.raiseBit_sec (s : State) (h : Hist) (b : Nat) : (s.raiseBit h b).sec = s.sec :=
  (s.raiseBit_onlyRegs h b (List.mem_singleton.mpr rfl)).sec

@[simp] theorem State.raiseBit_flt (s : State) (h : Hist) (b : Nat) : (s.raiseBit h b).flt = s.flt :=
  (s.raiseBit_onlyRegs h b (List.mem_singleton.mpr rfl)).flt

@[simp] theorem State.raiseBit_axl (s : State) (h : Hist) (b : Nat) : (s.raiseBit h b).axl = s.axl :=
  (s.raiseBit_onlyRegs h b (List.mem_singleton.mpr rfl)).axl

@[simp] theorem State.raiseBit_rst (s : State) (h : Hist) (b : Nat) : (s.raiseBit h b).rst = s.rst :=
  (s.raiseBit_onlyRegs h b (List.mem_singleton.mpr rfl)).rst

@[simp] theorem State.raiseBit_hsf (s : State) (h : Hist) (b : Nat) : (s.raiseBit h b).hsf = s.hsf :=
  (s.raiseBit_onlyRegs h b (List.mem_singleton.mpr rfl)).hsf

@[simp] theorem State.raiseBit_mtx (s : State) (h : Hist) (b : Nat) : (s.raiseBit h b).mtx = s.mtx :=
  (s.raiseBit_onlyRegs h b (List.mem_singleton.mpr rfl)).mtx

@[simp] theorem State.raiseBit_mate (s : State) (h : Hist) (b : Nat) : (s.raiseBit h b).mate = s.mate :=
  (s.raiseBit_onlyRegs h b (List.mem_singleton.mpr rfl)).mate

@[simp] theorem State.raiseBit_pkg (s : State) (h : Hist) (b : Nat) : (s.raiseBit h b).pkg = s.pkg :=
  (s.raiseBit_onlyRegs h b (List.mem_singleton.mpr rfl)).pkg

@[simp] theorem State.raiseBit_pending (s : State) (h : Hist) (b : Nat) : (s.raiseBit h b).pending = s.pending :=
  (s.raiseBit_onlyRegs h b (List.mem_singleton.mpr rfl)).pending

theorem State.rd_ite {p : Prop} [Decidable p] (s t : State) (a : Nat) : (if p then s else t).rd a = if p then s.rd a else t.rd a := by
  split <;> rfl
theorem State.get_ite {p : Prop} [Decidable p] (s t : State) (a : Nat) (f : Bits) :
    (if p then s else t).get a f = if p then s.get a f else t.get a f := by
  split <;> rfl
theorem State.inc_onlyRegs' (s : State) (a : Nat) : s.onlyRegs (s.inc a) [a] := s.inc_onlyRegs (List.mem_singleton.mpr rfl)
theorem State.rd_inc_ne (s : State) {a b : Nat} (h : b ≠ a) : (s.inc a).rd b = s.rd b := s.rd_wr_ne _ h
theorem State.get_inc_ne (s : State) {a b : Nat} (f : Bits) (h : b ≠ a) : (s.inc a).get b f = s.get b f := s.get_wr_ne _ _ h
/-- A history bit that is set stays set when another is raised. -/
theorem State.get_raise_mono (s : State) (h : Hist) (f : Bits) {a b : Nat} (hb : b < 32) (hf : f.lo < 32) (k : s.get a (bit b) = 1) :
    (s.raise h f).get a (bit b) = 1 := by
  by_cases e : a = h.reg
  · subst e
    by_cases eb : b = f.lo
    · subst eb; exact s.rd_raiseBit_self h _ hb
    · unfold State.raise State.raiseBit
      split
      · exact k
      · have : (s.set h.reg (bit f.lo) 1).get h.reg (bit b) = 1 := by
          rw [State.get_set_apart _ _ _ _ _ (by simp only [bit]; omega), k]
          rcases Nat.lt_or_gt_of_ne eb with q | q
          · exact .inr (by simp only [bit]; omega)
          · exact .inl (by simp only [bit]; omega)
        dsimp only
        split
        · rw [State.get_congr (State.raiseVec_regs ..)]; exact this
        · exact this
  · rw [s.get_raise_ne _ _ _ e]; exact k

end Sys2Proof.Machine
end

