-- ==== Sys2Proof/Laws/Desc.lean ====
section
/-! SUPPORT. Descriptors: what completing one does and leaves alone, and how a descriptor that passes the common checks ends. -/
set_option Elab.async false
namespace Sys2Proof.Machine

theorem State.hostOnly.refl (s : State) : s.hostOnly s := rfl

theorem State.hostOnly.trans {s t u : State} (h : s.hostOnly t) (k : t.hostOnly u) : s.hostOnly u := by
  unfold State.hostOnly at *; rw [k, h]

/-- What touches registers and vectors alone touches the host side at most. -/
theorem State.onlyRegs.hostOnly {s t : State} {l : List Nat} (h : s.onlyRegs t l) : s.hostOnly t := by
  unfold State.hostOnly; rw [h.1]

theorem State.hostOnly.taken {s t : State} (h : s.hostOnly t) : t.taken = s.taken := by rw [h]
theorem State.hostOnly.snap {s t : State} (h : s.hostOnly t) : t.snap = s.snap := by rw [h]
theorem State.hostOnly.free {s t : State} (h : s.hostOnly t) : t.free = s.free := by rw [h]
theorem State.hostOnly.media {s t : State} (h : s.hostOnly t) : t.media = s.media := by rw [h]
theorem State.hostOnly.xpt {s t : State} (h : s.hostOnly t) : t.xpt = s.xpt := by rw [h]
theorem State.hostOnly.fst {s t : State} (h : s.hostOnly t) : t.fst = s.fst := by rw [h]
theorem State.hostOnly.che {s t : State} (h : s.hostOnly t) : t.che = s.che := by rw [h]
theorem State.hostOnly.sou {s t : State} (h : s.hostOnly t) : t.sou = s.sou := by rw [h]
theorem State.hostOnly.aud {s t : State} (h : s.hostOnly t) : t.aud = s.aud := by rw [h]
theorem State.hostOnly.lv {s t : State} (h : s.hostOnly t) : t.lv = s.lv := by rw [h]
theorem State.hostOnly.ref {s t : State} (h : s.hostOnly t) : t.ref = s.ref := by rw [h]
theorem State.hostOnly.syn {s t : State} (h : s.hostOnly t) : t.syn = s.syn := by rw [h]
theorem State.hostOnly.sec {s t : State} (h : s.hostOnly t) : t.sec = s.sec := by rw [h]
theorem State.hostOnly.flt {s t : State} (h : s.hostOnly t) : t.flt = s.flt := by rw [h]
theorem State.hostOnly.axl {s t : State} (h : s.hostOnly t) : t.axl = s.axl := by rw [h]
theorem State.hostOnly.rst {s t : State} (h : s.hostOnly t) : t.rst = s.rst := by rw [h]
theorem State.hostOnly.mtx {s t : State} (h : s.hostOnly t) : t.mtx = s.mtx := by rw [h]
theorem State.hostOnly.pkg {s t : State} (h : s.hostOnly t) : t.pkg = s.pkg := by rw [h]
theorem State.hostOnly.pending {s t : State} (h : s.hostOnly t) : t.pending = s.pending := by rw [h]

/-! ### The end of a descriptor -/

theorem State.raiseOver_hostOnly (s : State) : s.hostOnly s.raiseOver := by
  unfold State.raiseOver
  extract_lets src s2
  have h : s.hostOnly s2 := rfl
  split
  · exact .refl _
  · split
    · exact h.trans (s2.set_onlyRegs _ _ (List.mem_singleton.mpr rfl)).hostOnly
    · exact h

@[simp] theorem State.raiseOver_host (s : State) : s.raiseOver.host = s.host := by
  unfold State.raiseOver
  extract_lets src s2
  have h : s2.host = s.host := rfl
  split
  · rfl
  · split
    · rw [State.set_host, h]
    · exact h

theorem State.raiseOver_rd (s : State) {a : Nat} (h : a ≠ R.HSF_VSTAT) : s.raiseOver.rd a = s.rd a := by
  unfold State.raiseOver
  split
  · rfl
  · dsimp only
    split
    · exact State.rd_set_ne _ _ _ h
    · rfl

/-- Stopping a lowering touches the host side at most. -/
theorem State.lowerStop_hostOnly (s : State) : s.hostOnly s.lowerStop := by
  unfold State.lowerStop
  split
  · exact State.hostOnly.trans (t := { s with hsf := { s.hsf with okSince := none } }) rfl
      (State.set_onlyRegs _ _ _ (List.mem_singleton.mpr rfl)).hostOnly
  · exact .refl _

@[simp] theorem State.lowerStop_host (s : State) : s.lowerStop.host = s.host := by
  unfold State.lowerStop
  split
  · exact State.set_host ..
  · rfl

theorem State.lowerStop_rd (s : State) {a : Nat} (h : a ≠ R.HSF_VSTAT) : s.lowerStop.rd a = s.rd a := by
  unfold State.lowerStop
  split
  · exact State.rd_set_ne _ _ _ h
  · rfl

/-- Accepting a request's state touches the host side at most. -/
theorem State.accept_hostOnly (s w : State) : w.hostOnly (s.accept w) := by
  unfold State.accept
  split
  · exact w.lowerStop_hostOnly.trans (State.raiseOver_hostOnly _)
  · exact State.raiseOver_hostOnly _

@[simp] theorem State.accept_host (s w : State) : (s.accept w).host = w.host := by
  unfold State.accept
  split
  · exact (State.raiseOver_host _).trans (State.lowerStop_host _)
  · exact State.raiseOver_host _

theorem State.accept_rd (s w : State) {a : Nat} (h : a ≠ R.HSF_VSTAT) : (s.accept w).rd a = w.rd a := by
  unfold State.accept
  split
  · exact (State.raiseOver_rd _ h).trans (State.lowerStop_rd _ h)
  · exact State.raiseOver_rd _ h

theorem State.newId_hostOnly (s : State) : s.hostOnly s.newId.2 := by
  unfold State.newId
  dsimp only
  split
  · exact State.hostOnly.trans (by rfl) (State.inc_onlyRegs _ (List.mem_singleton.mpr rfl)).hostOnly
  · rfl

theorem State.newId_ops (s : State) : s.newId.2.host.ops = s.host.ops ∧ s.newId.2.host.cpls = s.host.cpls ∧
    s.newId.2.host.fwdNow = s.host.fwdNow ∧ s.newId.2.host.restoring = s.host.restoring := by
  unfold State.newId; dsimp only; split <;> exact ⟨rfl, rfl, rfl, rfl⟩

theorem State.newId_rd (s : State) {a : Nat} (h : a ≠ R.MATE_FWD_CNT) : s.newId.2.rd a = s.rd a := by
  unfold State.newId
  dsimp only
  split
  · exact State.rd_inc_ne _ h
  · rfl

/-- Completing a descriptor of a ring adds one completion. -/
theorem State.done_eq {s : State} (hf : s.host.fwdNow = false) (h : Hdr) (e : Bool) (st res : Nat) : ∃ c : Cpl,
    s.done h e st res = s.newId.2.pushCpl c ∧ c.ring = h.ring.val ∧ c.tag = h.tag ∧ c.status = st ∧ c.result = res ∧ c.held = 1 := by
  unfold State.done
  have : s.newId.2.host.fwdNow = false := by rw [s.newId_ops.2.2.1, hf]
  dsimp only
  rw [this]
  exact ⟨_, rfl, rfl, rfl, rfl, rfl, rfl⟩

theorem State.done_hostOnly {s : State} (hf : s.host.fwdNow = false) (h : Hdr) (e : Bool) (st res : Nat) : s.hostOnly (s.done h e st res) := by
  obtain ⟨c, hc, -⟩ := State.done_eq hf h e st res
  rw [hc]
  exact s.newId_hostOnly.trans rfl

theorem State.done_rd {s : State} (hf : s.host.fwdNow = false) (h : Hdr) (e : Bool) (st res : Nat) {a : Nat} (ha : a ≠ R.MATE_FWD_CNT) :
    (s.done h e st res).rd a = s.rd a := by
  obtain ⟨c, hc, -⟩ := State.done_eq hf h e st res
  rw [hc]
  exact s.newId_rd ha

theorem State.done_posts {s : State} (hf : s.host.fwdNow = false) (h : Hdr) (e : Bool) (st res : Nat) : s.posts (s.done h e st res) h st res := by
  obtain ⟨c, hc, h1, h2, h3, h4, -⟩ := State.done_eq hf h e st res
  exact ⟨c, by rw [hc]; simp only [State.pushCpl, s.newId_ops.2.1], h1, h2, h3, h4⟩

theorem State.done_inflight {s : State} (hf : s.host.fwdNow = false) (h : Hdr) (e : Bool) (st res : Nat) :
    (s.done h e st res).inflight = s.inflight + 1 := by
  obtain ⟨c, hc, -, -, -, -, h5⟩ := State.done_eq hf h e st res
  rw [hc]
  simp only [State.inflight, State.pushCpl, s.newId_ops.1, s.newId_ops.2.1, List.map_append, List.sum_append, List.map_cons, List.map_nil,
    List.sum_cons, List.sum_nil, h5]
  omega

/-- A refusal posts one completion, and touches nothing else. -/
theorem State.refuse_posts (s : State) (h : Hdr) (st res : Nat) : s.posts (s.refuse h st res) h st res ∧ s.hostOnly (s.refuse h st res) :=
  ⟨⟨_, rfl, rfl, rfl, rfl, rfl⟩, rfl⟩

/-- An operation that enters the in-flight table. -/
theorem State.addOp_flies {s : State} (hf : s.host.fwdNow = false) (hr : s.host.restoring = false) (h : Hdr) (res : Nat) (body : OpBody) :
    s.flies (s.addOp h res body).2 h body ∧ s.hostOnly (s.addOp h res body).2 ∧ (s.addOp h res body).2.host.cpls = s.host.cpls := by
  obtain ⟨o1, o2, o3, o4⟩ := s.newId_ops
  have hh := s.newId_hostOnly
  unfold State.addOp
  generalize s.newId = p at *
  obtain ⟨id, w⟩ := p
  dsimp only at *
  exact ⟨⟨⟨id, if w.host.restoring then .gone 3 0xFF else if w.host.fwdNow then .fwd h.ring.val else .ring h.ring.val, h.tag, h.irq, res,
    w.host.fwdNow, body⟩, by rw [o1], by simp [o4, o3, hf, hr], rfl, rfl⟩, hh.trans rfl, o2⟩

/-! ### From the common checks on -/

theorem State.desc_pass {s v : State} {r : DescRule} {h : Hdr} (hv : s.vet r h = .pass v) (body : State → Adm) :
    s.desc r h body = settle h s v (body v) := by rw [State.desc, hv]; rfl

/-- A descriptor whose opcode accepts it leads to the accepted state. -/
theorem State.desc_yes {s v w : State} {r : DescRule} {h : Hdr} {body : State → Adm} (hv : s.vet r h = .pass v) (hb : body v = .yes w)
    (hi : w.inflight ≤ 16384) : s.desc r h body = v.accept w := by
  rw [State.desc_pass hv, hb]; exact if_pos hi

/-- A descriptor that its opcode refuses. -/
theorem State.desc_no {s v : State} {r : DescRule} {h : Hdr} {body : State → Adm} {st res : Nat} (hv : s.vet r h = .pass v)
    (hb : body v = .no st res) (hst : st ≠ 3) : s.desc r h body = (v.raiseOver).refuse h st res := by
  rw [State.desc_pass hv, hb]
  simp only [settle, hst, false_and, if_false]

/-- A descriptor that completes at once from state `w`: one completion, and nothing else from `w` on but the twin's forwarding count. -/
theorem State.desc_done {s v w : State} {r : DescRule} {h : Hdr} {body : State → Adm} {e : Bool} {st res : Nat} (hv : s.admits r h v)
    (hb : body v = .yes (w.done h e st res)) (ho : w.host.ops = v.host.ops) (hc : w.host.cpls = v.host.cpls)
    (hf : w.host.fwdNow = v.host.fwdNow) : ∃ t, s.desc r h body = t ∧ v.posts t h st res ∧ w.hostOnly t ∧
      ∀ a, a ≠ R.MATE_FWD_CNT → a ≠ R.HSF_VSTAT → t.rd a = w.rd a := by
  have hw : w.host.fwdNow = false := by rw [hf, hv.2.1]
  have hi : (w.done h e st res).inflight ≤ 16384 := by
    rw [State.done_inflight hw]
    have : w.inflight = v.inflight := by simp only [State.inflight, ho, hc]
    rw [this]
    simpa [State.entriesFree] using hv.2.2.2
  refine ⟨_, State.desc_yes hv.1 hb hi, ?_, (State.done_hostOnly hw ..).trans (State.accept_hostOnly ..), fun a h1 h2 => ?_⟩
  · obtain ⟨c, h1, h2⟩ := State.done_posts hw h e st res
    exact ⟨c, by rw [State.accept_host, h1, hc], h2⟩
  · rw [State.accept_rd _ _ h2, State.done_rd hw _ _ _ _ h1]

end Sys2Proof.Machine
end

