-- ==== Sys2Proof/Laws/Kept.lean ====
section
/-! SUPPORT. What an operation keeps: the queue, the canonical forms, and every part of the state outside a list. Its general rules and the basic
operations. -/
set_option Elab.async false
namespace Sys2Proof.Machine

/-- From `u` to `s` the queue stays, the canonical forms are kept, and only parts of `P` change. -/
def Kept (P : List Part) (u s : State) : Prop := s.pending = u.pending ∧ (u.wf → s.wf) ∧ ∀ p, p ∉ P → p.same u s

/-- Every part of `l` is in `P`. -/
def Sub (l P : List Part) : Prop := ∀ p ∈ l, p ∈ P

theorem Sub.of {l l' P : List Part} (h : Sub l P) (k : (l'.all fun p => l.contains p) = true) : Sub l' P := fun p hp =>
  h p (by simpa using List.all_eq_true.mp k p hp)

theorem Sub.mem {l P : List Part} {p : Part} (h : Sub l P) (k : l.contains p = true) : p ∈ P := h p (by simpa using k)

theorem Sub.self (l : List Part) : Sub l l := fun _ h => h

theorem Part.same_refl (p : Part) (s : State) : p.same s s := by
  cases p <;> first | rfl | exact ⟨rfl, rfl⟩

theorem Part.same_trans {p : Part} {s t u : State} (h : p.same s t) (k : p.same t u) : p.same s u := by
  cases p
  · exact Eq.trans k h
  · exact Eq.trans k h
  · exact Eq.trans k h
  · exact Eq.trans k h
  · exact Eq.trans k h
  · exact Eq.trans k h
  · rw [Part.same, ← k] at h; exact h
  · exact Eq.trans k h
  · exact Eq.trans k h
  · exact Eq.trans k h
  · exact Eq.trans k h
  · rw [Part.same, ← k] at h; exact h
  · exact ⟨k.1.trans h.1, k.2.trans h.2⟩
  · exact Eq.trans k h
  · exact Eq.trans k h
  · exact Eq.trans k h
  · exact Eq.trans k h
  · exact Eq.trans k h
  · exact Eq.trans k h
  · exact Eq.trans k h
  · exact Eq.trans k h
  · exact Eq.trans k h
  · exact Eq.trans k h
  · exact Eq.trans k h
  · exact Eq.trans k h

theorem Kept.refl (P : List Part) (s : State) : Kept P s s := ⟨rfl, id, fun p _ => p.same_refl s⟩

theorem Kept.trans {P : List Part} {s t u : State} (h : Kept P s t) (k : Kept P t u) : Kept P s u :=
  ⟨k.1.trans h.1, fun w => k.2.1 (h.2.1 w), fun p hp => Part.same_trans (h.2.2 p hp) (k.2.2 p hp)⟩

theorem Kept.mono {P Q : List Part} {s t : State} (h : Kept P s t) (hq : Sub P Q) : Kept Q s t :=
  ⟨h.1, h.2.1, fun p hp => h.2.2 p fun x => hp (hq p x)⟩

theorem Kept.within {P : List Part} {s t : State} (h : Kept P s t) : s.within t P := ⟨h.1, h.2.2⟩

/-- `Kept` of a state written out. -/
def KeptC (P : List Part) (u : State) (r : Tab Word) (tk : Tab Word) (sn : Tab Word) (n : Nat) (me : MediaSt) (x : XptSt) (fs : FstSt) (ch : CheSt) (so : SouSt) (au : AudSt) (ho : HostSt) (lv : LvSt) (rf : RefSt) (sy : SynSt) (se : SecSt) (fl : FltSt) (ax : AxlSt) (rs : RstSt) (hs : HsfSt) (mt : MtxSt) (ma : MateSt) (pk : PkgSt) (p : List Instr) : Prop :=
  ∀ nw, Kept P u ⟨r, tk, sn, nw, n, me, x, fs, ch, so, au, ho, lv, rf, sy, se, fl, ax, rs, hs, mt, ma, pk, p⟩

theorem Kept.mk_iff {P : List Part} {u : State} {r tk sn nw n me x fs ch so au ho lv rf sy se fl ax rs hs mt ma pk p} :
    Kept P u (State.mk r tk sn nw n me x fs ch so au ho lv rf sy se fl ax rs hs mt ma pk p) ↔ KeptC P u r tk sn n me x fs ch so au ho lv rf sy se fl ax rs hs mt ma pk p :=
  ⟨fun h _ => ⟨h.1, h.2.1, fun q hq => by have := h.2.2 q hq; cases q <;> exact this⟩, fun h => h _⟩

/-- A record update that touches neither registers, memories nor the queue, and other parts only where `P` has them. -/
theorem KeptC.of {P : List Part} {u e : State} {sn n me x fs ch so au ho lv rf sy se fl ax rs hs mt ma pk} (h : Kept P u e)
    (h1 : ho.mem = e.host.mem) (h2 : fs.mem = e.fst.mem) (h3 : ax.user = e.axl.user) (h4 : mt.mem = e.mtx.mem)
    (hsnap : .snap ∈ P ∨ sn = e.snap)
    (hfree : .free ∈ P ∨ n = e.free)
    (hmedia : .media ∈ P ∨ me = e.media)
    (hxpt : .xpt ∈ P ∨ x = e.xpt)
    (hfst : .fst ∈ P ∨ { fs with mem := e.fst.mem } = e.fst)
    (hche : .che ∈ P ∨ ch = e.che)
    (hsou : .sou ∈ P ∨ so = e.sou)
    (haud : .aud ∈ P ∨ au = e.aud)
    (hhost : .host ∈ P ∨ { ho with mem := e.host.mem, pba := e.host.pba, sent := e.host.sent } = e.host)
    (hvec : .vec ∈ P ∨ ho.pba = e.host.pba ∧ ho.sent = e.host.sent)
    (hlv : .lv ∈ P ∨ lv = e.lv)
    (href : .ref ∈ P ∨ rf = e.ref)
    (hsyn : .syn ∈ P ∨ sy = e.syn)
    (hsec : .sec ∈ P ∨ se = e.sec)
    (hflt : .flt ∈ P ∨ fl = e.flt)
    (haxl : .axl ∈ P ∨ ax = e.axl)
    (hrst : .rst ∈ P ∨ rs = e.rst)
    (hhsf : .hsf ∈ P ∨ hs = e.hsf)
    (hmtx : .mtx ∈ P ∨ mt = e.mtx)
    (hmate : .mate ∈ P ∨ ma = e.mate)
    (hpkg : .pkg ∈ P ∨ pk = e.pkg) :
    KeptC P u e.regs e.taken sn n me x fs ch so au ho lv rf sy se fl ax rs hs mt ma pk e.pending := by
  refine fun nw => ⟨h.1, fun w => ?_, fun p hp => ?_⟩
  · obtain ⟨r, m1, m2, m3, m4⟩ := h.2.1 w
    exact ⟨r, h1 ▸ m1, h2 ▸ m2, h3 ▸ m3, h4 ▸ m4⟩
  cases p
  · exact h.2.2 _ hp
  · exact h.2.2 _ hp
  · exact (hsnap.resolve_left hp).trans (h.2.2 _ hp)
  · exact (hfree.resolve_left hp).trans (h.2.2 _ hp)
  · exact (hmedia.resolve_left hp).trans (h.2.2 _ hp)
  · exact (hxpt.resolve_left hp).trans (h.2.2 _ hp)
  · have q := h.2.2 _ hp
    rw [Part.same, ← hfst.resolve_left hp] at q
    exact q
  · exact h2.trans (h.2.2 _ hp)
  · exact (hche.resolve_left hp).trans (h.2.2 _ hp)
  · exact (hsou.resolve_left hp).trans (h.2.2 _ hp)
  · exact (haud.resolve_left hp).trans (h.2.2 _ hp)
  · have q := h.2.2 _ hp
    rw [Part.same, ← hhost.resolve_left hp] at q
    exact q
  · have q := hvec.resolve_left hp
    have q2 := h.2.2 _ hp
    exact ⟨q.1.trans q2.1, q.2.trans q2.2⟩
  · exact h1.trans (h.2.2 _ hp)
  · exact (hlv.resolve_left hp).trans (h.2.2 _ hp)
  · exact (href.resolve_left hp).trans (h.2.2 _ hp)
  · exact (hsyn.resolve_left hp).trans (h.2.2 _ hp)
  · exact (hsec.resolve_left hp).trans (h.2.2 _ hp)
  · exact (hflt.resolve_left hp).trans (h.2.2 _ hp)
  · exact (haxl.resolve_left hp).trans (h.2.2 _ hp)
  · exact (hrst.resolve_left hp).trans (h.2.2 _ hp)
  · exact (hhsf.resolve_left hp).trans (h.2.2 _ hp)
  · exact (hmtx.resolve_left hp).trans (h.2.2 _ hp)
  · exact (hmate.resolve_left hp).trans (h.2.2 _ hp)
  · exact (hpkg.resolve_left hp).trans (h.2.2 _ hp)

/-- A record update that writes memories, which stay in canonical form. -/
theorem KeptC.of_mem {P : List Part} {u e : State} {sn n me x fs ch so au ho lv rf sy se fl ax rs hs mt ma pk} (h : Kept P u e)
    (h1 : Memory.wf e.host.mem = true → Memory.wf ho.mem = true) (h2 : Memory.wf e.fst.mem = true → Memory.wf fs.mem = true)
    (h3 : Memory.wf e.axl.user = true → Memory.wf ax.user = true) (h4 : Memory.wf e.mtx.mem = true → Memory.wf mt.mem = true)
    (hsnap : .snap ∈ P ∨ sn = e.snap)
    (hfree : .free ∈ P ∨ n = e.free)
    (hmedia : .media ∈ P ∨ me = e.media)
    (hxpt : .xpt ∈ P ∨ x = e.xpt)
    (hfst : .fst ∈ P ∨ { fs with mem := e.fst.mem } = e.fst)
    (hfstMem : .fstMem ∈ P ∨ fs.mem = e.fst.mem)
    (hche : .che ∈ P ∨ ch = e.che)
    (hsou : .sou ∈ P ∨ so = e.sou)
    (haud : .aud ∈ P ∨ au = e.aud)
    (hhost : .host ∈ P ∨ { ho with mem := e.host.mem, pba := e.host.pba, sent := e.host.sent } = e.host)
    (hvec : .vec ∈ P ∨ ho.pba = e.host.pba ∧ ho.sent = e.host.sent)
    (hhostMem : .hostMem ∈ P ∨ ho.mem = e.host.mem)
    (hlv : .lv ∈ P ∨ lv = e.lv)
    (href : .ref ∈ P ∨ rf = e.ref)
    (hsyn : .syn ∈ P ∨ sy = e.syn)
    (hsec : .sec ∈ P ∨ se = e.sec)
    (hflt : .flt ∈ P ∨ fl = e.flt)
    (haxl : .axl ∈ P ∨ ax = e.axl)
    (hrst : .rst ∈ P ∨ rs = e.rst)
    (hhsf : .hsf ∈ P ∨ hs = e.hsf)
    (hmtx : .mtx ∈ P ∨ mt = e.mtx)
    (hmate : .mate ∈ P ∨ ma = e.mate)
    (hpkg : .pkg ∈ P ∨ pk = e.pkg) :
    KeptC P u e.regs e.taken sn n me x fs ch so au ho lv rf sy se fl ax rs hs mt ma pk e.pending := by
  refine fun nw => ⟨h.1, fun w => ?_, fun p hp => ?_⟩
  · obtain ⟨r, m1, m2, m3, m4⟩ := h.2.1 w
    exact ⟨r, h1 m1, h2 m2, h3 m3, h4 m4⟩
  cases p
  · exact h.2.2 _ hp
  · exact h.2.2 _ hp
  · exact (hsnap.resolve_left hp).trans (h.2.2 _ hp)
  · exact (hfree.resolve_left hp).trans (h.2.2 _ hp)
  · exact (hmedia.resolve_left hp).trans (h.2.2 _ hp)
  · exact (hxpt.resolve_left hp).trans (h.2.2 _ hp)
  · have q := h.2.2 _ hp
    rw [Part.same, ← hfst.resolve_left hp] at q
    exact q
  · exact (hfstMem.resolve_left hp).trans (h.2.2 _ hp)
  · exact (hche.resolve_left hp).trans (h.2.2 _ hp)
  · exact (hsou.resolve_left hp).trans (h.2.2 _ hp)
  · exact (haud.resolve_left hp).trans (h.2.2 _ hp)
  · have q := h.2.2 _ hp
    rw [Part.same, ← hhost.resolve_left hp] at q
    exact q
  · have q := hvec.resolve_left hp
    have q2 := h.2.2 _ hp
    exact ⟨q.1.trans q2.1, q.2.trans q2.2⟩
  · exact (hhostMem.resolve_left hp).trans (h.2.2 _ hp)
  · exact (hlv.resolve_left hp).trans (h.2.2 _ hp)
  · exact (href.resolve_left hp).trans (h.2.2 _ hp)
  · exact (hsyn.resolve_left hp).trans (h.2.2 _ hp)
  · exact (hsec.resolve_left hp).trans (h.2.2 _ hp)
  · exact (hflt.resolve_left hp).trans (h.2.2 _ hp)
  · exact (haxl.resolve_left hp).trans (h.2.2 _ hp)
  · exact (hrst.resolve_left hp).trans (h.2.2 _ hp)
  · exact (hhsf.resolve_left hp).trans (h.2.2 _ hp)
  · exact (hmtx.resolve_left hp).trans (h.2.2 _ hp)
  · exact (hmate.resolve_left hp).trans (h.2.2 _ hp)
  · exact (hpkg.resolve_left hp).trans (h.2.2 _ hp)

theorem Kept.upd_snap {P : List Part} {u s : State} (h : Kept P u s) (x : Tab Word) (hP : Sub [.snap] P := by exact Sub.of ‹_› (by rfl)) :
    Kept P u { s with snap := x } :=
  ⟨h.1, h.2.1, fun p hp => by
    have q := h.2.2 p hp
    cases p <;> first | exact q | exact absurd (hP _ (List.mem_singleton.mpr rfl)) hp⟩

theorem Kept.upd_free {P : List Part} {u s : State} (h : Kept P u s) (x : Nat) (hP : Sub [.free] P := by exact Sub.of ‹_› (by rfl)) :
    Kept P u { s with free := x } :=
  ⟨h.1, h.2.1, fun p hp => by
    have q := h.2.2 p hp
    cases p <;> first | exact q | exact absurd (hP _ (List.mem_singleton.mpr rfl)) hp⟩

theorem Kept.upd_media {P : List Part} {u s : State} (h : Kept P u s) (x : MediaSt) (hP : Sub [.media] P := by exact Sub.of ‹_› (by rfl)) :
    Kept P u { s with media := x } :=
  ⟨h.1, h.2.1, fun p hp => by
    have q := h.2.2 p hp
    cases p <;> first | exact q | exact absurd (hP _ (List.mem_singleton.mpr rfl)) hp⟩

theorem Kept.upd_xpt {P : List Part} {u s : State} (h : Kept P u s) (x : XptSt) (hP : Sub [.xpt] P := by exact Sub.of ‹_› (by rfl)) :
    Kept P u { s with xpt := x } :=
  ⟨h.1, h.2.1, fun p hp => by
    have q := h.2.2 p hp
    cases p <;> first | exact q | exact absurd (hP _ (List.mem_singleton.mpr rfl)) hp⟩

theorem Kept.upd_che {P : List Part} {u s : State} (h : Kept P u s) (x : CheSt) (hP : Sub [.che] P := by exact Sub.of ‹_› (by rfl)) :
    Kept P u { s with che := x } :=
  ⟨h.1, h.2.1, fun p hp => by
    have q := h.2.2 p hp
    cases p <;> first | exact q | exact absurd (hP _ (List.mem_singleton.mpr rfl)) hp⟩

theorem Kept.upd_sou {P : List Part} {u s : State} (h : Kept P u s) (x : SouSt) (hP : Sub [.sou] P := by exact Sub.of ‹_› (by rfl)) :
    Kept P u { s with sou := x } :=
  ⟨h.1, h.2.1, fun p hp => by
    have q := h.2.2 p hp
    cases p <;> first | exact q | exact absurd (hP _ (List.mem_singleton.mpr rfl)) hp⟩

theorem Kept.upd_lv {P : List Part} {u s : State} (h : Kept P u s) (x : LvSt) (hP : Sub [.lv] P := by exact Sub.of ‹_› (by rfl)) :
    Kept P u { s with lv := x } :=
  ⟨h.1, h.2.1, fun p hp => by
    have q := h.2.2 p hp
    cases p <;> first | exact q | exact absurd (hP _ (List.mem_singleton.mpr rfl)) hp⟩

theorem Kept.upd_ref {P : List Part} {u s : State} (h : Kept P u s) (x : RefSt) (hP : Sub [.ref] P := by exact Sub.of ‹_› (by rfl)) :
    Kept P u { s with ref := x } :=
  ⟨h.1, h.2.1, fun p hp => by
    have q := h.2.2 p hp
    cases p <;> first | exact q | exact absurd (hP _ (List.mem_singleton.mpr rfl)) hp⟩

theorem Kept.upd_syn {P : List Part} {u s : State} (h : Kept P u s) (x : SynSt) (hP : Sub [.syn] P := by exact Sub.of ‹_› (by rfl)) :
    Kept P u { s with syn := x } :=
  ⟨h.1, h.2.1, fun p hp => by
    have q := h.2.2 p hp
    cases p <;> first | exact q | exact absurd (hP _ (List.mem_singleton.mpr rfl)) hp⟩

theorem Kept.upd_sec {P : List Part} {u s : State} (h : Kept P u s) (x : SecSt) (hP : Sub [.sec] P := by exact Sub.of ‹_› (by rfl)) :
    Kept P u { s with sec := x } :=
  ⟨h.1, h.2.1, fun p hp => by
    have q := h.2.2 p hp
    cases p <;> first | exact q | exact absurd (hP _ (List.mem_singleton.mpr rfl)) hp⟩

theorem Kept.upd_flt {P : List Part} {u s : State} (h : Kept P u s) (x : FltSt) (hP : Sub [.flt] P := by exact Sub.of ‹_› (by rfl)) :
    Kept P u { s with flt := x } :=
  ⟨h.1, h.2.1, fun p hp => by
    have q := h.2.2 p hp
    cases p <;> first | exact q | exact absurd (hP _ (List.mem_singleton.mpr rfl)) hp⟩

theorem Kept.upd_rst {P : List Part} {u s : State} (h : Kept P u s) (x : RstSt) (hP : Sub [.rst] P := by exact Sub.of ‹_› (by rfl)) :
    Kept P u { s with rst := x } :=
  ⟨h.1, h.2.1, fun p hp => by
    have q := h.2.2 p hp
    cases p <;> first | exact q | exact absurd (hP _ (List.mem_singleton.mpr rfl)) hp⟩

theorem Kept.upd_hsf {P : List Part} {u s : State} (h : Kept P u s) (x : HsfSt) (hP : Sub [.hsf] P := by exact Sub.of ‹_› (by rfl)) :
    Kept P u { s with hsf := x } :=
  ⟨h.1, h.2.1, fun p hp => by
    have q := h.2.2 p hp
    cases p <;> first | exact q | exact absurd (hP _ (List.mem_singleton.mpr rfl)) hp⟩

theorem Kept.upd_mate {P : List Part} {u s : State} (h : Kept P u s) (x : MateSt) (hP : Sub [.mate] P := by exact Sub.of ‹_› (by rfl)) :
    Kept P u { s with mate := x } :=
  ⟨h.1, h.2.1, fun p hp => by
    have q := h.2.2 p hp
    cases p <;> first | exact q | exact absurd (hP _ (List.mem_singleton.mpr rfl)) hp⟩

theorem Kept.upd_pkg {P : List Part} {u s : State} (h : Kept P u s) (x : PkgSt) (hP : Sub [.pkg] P := by exact Sub.of ‹_› (by rfl)) :
    Kept P u { s with pkg := x } :=
  ⟨h.1, h.2.1, fun p hp => by
    have q := h.2.2 p hp
    cases p <;> first | exact q | exact absurd (hP _ (List.mem_singleton.mpr rfl)) hp⟩

theorem Kept.upd_aud {P : List Part} {u s : State} (h : Kept P u s) (x : AudSt) (hP : Sub [.aud] P := by exact Sub.of ‹_› (by rfl)) :
    Kept P u { s with aud := x } :=
  ⟨h.1, h.2.1, fun p hp => by
    have q := h.2.2 p hp
    cases p <;> first | exact q | exact absurd (hP _ (List.mem_singleton.mpr rfl)) hp⟩

theorem Kept.upd_host {P : List Part} {u s : State} (h : Kept P u s) (x : HostSt) (e : x.mem = s.host.mem)
    (e2 : x.pba = s.host.pba ∧ x.sent = s.host.sent) (hP : Sub [.host] P := by exact Sub.of ‹_› (by rfl)) : Kept P u { s with host := x } := by
  refine ⟨h.1, fun w => ⟨(h.2.1 w).1, e ▸ (h.2.1 w).2.1, (h.2.1 w).2.2⟩, fun p hp => ?_⟩
  have q := h.2.2 p hp
  cases p <;> first
    | exact q
    | exact absurd (hP _ (List.mem_singleton.mpr rfl)) hp
    | exact e.trans q
    | exact ⟨e2.1.trans q.1, e2.2.trans q.2⟩

theorem Kept.upd_mtx {P : List Part} {u s : State} (h : Kept P u s) (x : MtxSt) (e : x.mem = s.mtx.mem)
    (hP : Sub [.mtx] P := by exact Sub.of ‹_› (by rfl)) : Kept P u { s with mtx := x } := by
  refine ⟨h.1, fun w => ⟨(h.2.1 w).1, (h.2.1 w).2.1, (h.2.1 w).2.2.1, (h.2.1 w).2.2.2.1, ?_⟩, fun p hp => ?_⟩
  · exact e ▸ (h.2.1 w).2.2.2.2
  have q := h.2.2 p hp
  cases p <;> first
    | exact q
    | exact absurd (hP _ (List.mem_singleton.mpr rfl)) hp

theorem Kept.foldl {P : List Part} {α : Type} {u s : State} {f : State → α → State} {l : List α} (h : Kept P u s)
    (hf : ∀ v x, Kept P u v → Kept P u (f v x)) : Kept P u (l.foldl f s) := by
  induction l generalizing s with
  | nil => exact h
  | cons x l ih => exact ih (hf s x h)

/-- A fold that carries a further value along. -/
theorem Kept.foldl_snd {P : List Part} {α β : Type} {u : State} {f : β × State → α → β × State} {l : List α} {a : β × State} (h : Kept P u a.2)
    (hf : ∀ v x, Kept P u v.2 → Kept P u (f v x).2) : Kept P u (l.foldl f a).2 := by
  induction l generalizing a with
  | nil => exact h
  | cons x l ih => exact ih (hf a x h)

/-- The state, or another when there is none. -/
theorem Kept.getD {P : List Part} {u s : State} {o : Option State} (h : ∀ t, o = some t → Kept P u t) (hk : Kept P u s) : Kept P u (o.getD s) := by
  cases o with
  | none => exact hk
  | some t => exact h t rfl

theorem Kept.ite_snd {P : List Part} {α : Type} {u : State} {p : Prop} [Decidable p] {a b : α × State} (h : p → Kept P u a.2) (k : ¬p → Kept P u b.2) :
    Kept P u (if p then a else b).2 := by
  split
  · exact h ‹_›
  · exact k ‹_›

theorem Kept.ite {P : List Part} {u s t : State} {p : Prop} [Decidable p] (h : p → Kept P u s) (k : ¬p → Kept P u t) : Kept P u (if p then s else t) := by
  split
  · exact h ‹_›
  · exact k ‹_›

/-! ### Memories -/

/-- A write of one byte keeps the canonical form of a memory. -/
theorem memWrite_wf (m : List Host.Cell) (a : Nat) (b : Byte) (h : Memory.wf m = true) : Memory.wf (memWrite m a b) = true :=
  tabWf_set (fun _ => (0 : Byte)) m a b h

/-- Writes of several bytes keep the canonical form of a memory. -/
theorem memWrites_wf (m : List Host.Cell) (a : Nat) (l : List Byte) (h : Memory.wf m = true) : Memory.wf (memWrites m a l) = true := by
  induction l generalizing m a with
  | nil => exact h
  | cons b l ih => exact ih _ _ (memWrite_wf _ _ _ h)

/-- A fold of byte writes keeps the canonical form of a memory. -/
theorem foldWrite_wf {α : Type} (g : α → Nat) (v : α → Byte) (l : List α) (m : List Host.Cell) (h : Memory.wf m = true) :
    Memory.wf (l.foldl (fun m p => memWrite m (g p) (v p)) m) = true := by
  induction l generalizing m with
  | nil => exact h
  | cons b l ih => exact ih _ (memWrite_wf _ _ _ h)

/-- A fold of byte writes that skips some keeps the canonical form of a memory. -/
theorem foldSkip_wf {α : Type} (p : α → Bool) (g : α → Nat) (v : α → Byte) (l : List α) (m : List Host.Cell) (h : Memory.wf m = true) :
    Memory.wf (l.foldl (fun m x => if p x = true then m else memWrite m (g x) (v x)) m) = true := by
  induction l generalizing m with
  | nil => exact h
  | cons b l ih =>
    refine ih _ ?_
    dsimp only
    split
    · exact h
    · exact memWrite_wf _ _ _ h

/-- A memory without some of its bytes is in canonical form. -/
theorem tabWf_filter {α : Type} [DecidableEq α] (d : Nat → α) (t : Tab α) (p : Nat × α → Bool) (h : tabWf d t = true) :
    tabWf d (t.filter p) = true := by
  induction t with
  | nil => exact h
  | cons q t ih =>
    obtain ⟨k, v⟩ := q
    simp only [tabWf, Bool.and_eq_true, List.all_eq_true, decide_eq_true_eq] at h ih ⊢
    obtain ⟨hs, hd⟩ := h
    obtain ⟨h1, h2⟩ := (tabSorted_cons_iff _ _ _).mp hs
    have ih' := ih ⟨h2, fun x hx => hd x (List.mem_cons_of_mem _ hx)⟩
    refine ⟨?_, fun x hx => hd x (List.mem_of_mem_filter hx)⟩
    rw [List.filter_cons]
    split
    · rw [tabSorted_cons_iff]
      exact ⟨fun x hx => h1 x (List.mem_of_mem_filter hx), ih'.1⟩
    · exact ih'.1

/-- A byte written reads back. -/
@[simp] theorem memRead_write_self (m : List Host.Cell) (a : Nat) (b : Byte) : memRead (memWrite m a b) a = b := tabGet_set_self ..

/-- A write of one byte leaves every other byte. -/
theorem memRead_write_ne (m : List Host.Cell) {a c : Nat} (b : Byte) (h : c ≠ a) : memRead (memWrite m a b) c = memRead m c :=
  tabGet_set_ne _ _ _ _ h

/-- Writes of several bytes leave the bytes outside them. -/
theorem memRead_writes_out (m : List Host.Cell) (a : Nat) (l : List Byte) {c : Nat} (h : c < a ∨ a + l.length ≤ c) :
    memRead (memWrites m a l) c = memRead m c := by
  induction l generalizing m a with
  | nil => rfl
  | cons b l ih =>
    simp only [List.length_cons] at h
    rw [memWrites, ih _ _ (by omega), memRead_write_ne _ _ (by omega)]

/-- Writes of several bytes read back. -/
theorem memRead_writes_in (m : List Host.Cell) (a : Nat) (l : List Byte) (k : Nat) (h : k < l.length) :
    memRead (memWrites m a l) (a + k) = l[k] := by
  induction l generalizing m a k with
  | nil => simp at h
  | cons b l ih =>
    cases k with
    | zero => rw [memWrites, memRead_writes_out _ _ _ (by omega)]; simp
    | succ k =>
      have := ih (memWrite m a b) (a + 1) k (by simpa using h)
      rw [memWrites, show a + (k + 1) = a + 1 + k by omega, this]; rfl

/-! ### Basic operations -/

theorem State.wr_kept {P : List Part} {u s : State} (h : Kept P u s) (a : Nat) (v : Word) (hP : Sub [.regs] P := by exact Sub.of ‹_› (by rfl)) :
    Kept P u (s.wr a v) :=
  ⟨h.1, fun w => ⟨⟨tabWf_set resetVal s.regs a v (h.2.1 w).1.1, (h.2.1 w).1.2⟩, (h.2.1 w).2⟩, fun p hp => by
    have q := h.2.2 p hp
    cases p <;> first | exact q | exact absurd (hP _ (List.mem_singleton.mpr rfl)) hp⟩

theorem State.takeSetting_kept {P : List Part} {u s : State} (h : Kept P u s) (l : List Nat)
    (hP : Sub [.taken] P := by exact Sub.of ‹_› (by rfl)) : Kept P u (s.takeSetting l) := by
  refine ⟨h.1, fun w => ⟨⟨(h.2.1 w).1.1, ?_⟩, (h.2.1 w).2⟩, fun p hp => ?_⟩
  · have h2 := (h.2.1 w).1.2
    simp only [State.takeSetting]
    generalize s.taken = t at h2
    induction l generalizing t with
    | nil => exact h2
    | cons a l ih => exact ih _ (tabWf_set resetVal t a _ h2)
  · have q := h.2.2 p hp
    cases p <;> first | exact q | exact absurd (hP _ (List.mem_singleton.mpr rfl)) hp

theorem State.hostWrite_kept {P : List Part} {u s : State} (h : Kept P u s) (a : Nat) (l : List Byte)
    (hP : Sub [.hostMem] P := by exact Sub.of ‹_› (by rfl)) : Kept P u (s.hostWrite a l) := by
  refine ⟨h.1, fun w => ⟨(h.2.1 w).1, memWrites_wf _ a l (h.2.1 w).2.1, (h.2.1 w).2.2⟩, fun p hp => ?_⟩
  have q := h.2.2 p hp
  cases p <;> first | exact q | exact absurd (hP _ (List.mem_singleton.mpr rfl)) hp

end Sys2Proof.Machine
end

