-- ==== Sys2Proof/Laws/KeptOps.lean ====
section
/-! SUPPORT. The operations of Machine/Ops.lean keep the queue and the canonical forms, and which parts of the state they may change. -/
set_option Elab.async false
namespace Sys2Proof.Machine

theorem State.set_kept {P : List Part} {u s : State} (hk : Kept P u s) (a : Nat) (f : Bits) (v : Nat) (hP : Sub [.regs] P := by exact Sub.of ‹_› (by rfl)) : Kept P u (State.set s a f v) := by
  unfold State.set
  repeat' first
    | (with_reducible assumption)
    | (with_reducible apply State.wr_kept)
    | (exact Sub.of ‹_› (by rfl))
    | (dsimp only)

theorem State.setB_kept {P : List Part} {u s : State} (hk : Kept P u s) (a : Nat) (f : Bits) (b : Bool) (hP : Sub [.regs] P := by exact Sub.of ‹_› (by rfl)) : Kept P u (State.setB s a f b) := by
  unfold State.setB
  repeat' first
    | (with_reducible assumption)
    | (with_reducible apply State.set_kept)
    | (exact Sub.of ‹_› (by rfl))
    | split
    | (dsimp only)

theorem State.wrInt_kept {P : List Part} {u s : State} (hk : Kept P u s) (a : Nat) (v : Int) (hP : Sub [.regs] P := by exact Sub.of ‹_› (by rfl)) : Kept P u (State.wrInt s a v) := by
  unfold State.wrInt
  repeat' first
    | (with_reducible assumption)
    | (with_reducible apply State.wr_kept)
    | (exact Sub.of ‹_› (by rfl))
    | (dsimp only)

theorem State.count_kept {P : List Part} {u s : State} (hk : Kept P u s) (a : Nat) (n : Nat) (hP : Sub [.regs] P := by exact Sub.of ‹_› (by rfl)) : Kept P u (State.count s a n) := by
  unfold State.count
  repeat' first
    | (with_reducible assumption)
    | (with_reducible apply State.wr_kept)
    | (exact Sub.of ‹_› (by rfl))
    | (dsimp only)

theorem State.inc_kept {P : List Part} {u s : State} (hk : Kept P u s) (a : Nat) (hP : Sub [.regs] P := by exact Sub.of ‹_› (by rfl)) : Kept P u (State.inc s a) := by
  unfold State.inc
  repeat' first
    | (with_reducible assumption)
    | (with_reducible apply State.count_kept)
    | (exact Sub.of ‹_› (by rfl))
    | (dsimp only)

theorem State.wr2_kept {P : List Part} {u s : State} (hk : Kept P u s) (lo : Nat) (hi : Nat) (v : Nat) (hP : Sub [.regs] P := by exact Sub.of ‹_› (by rfl)) : Kept P u (State.wr2 s lo hi v) := by
  unfold State.wr2
  repeat' first
    | (with_reducible assumption)
    | (with_reducible apply State.wr_kept)
    | (exact Sub.of ‹_› (by rfl))
    | (dsimp only)

theorem State.at__kept {P : List Part} {u s : State} (hk : Kept P u s) (t₁ : Nat) (hP : Sub [] P := by exact Sub.of ‹_› (by rfl)) : Kept P u (State.at_ s t₁) := by
  unfold State.at_
  repeat' first
    | (with_reducible assumption)
    | (exact Sub.of ‹_› (by rfl))
    | (simp only [Kept.mk_iff]; with_reducible apply KeptC.of)
    | (with_reducible exact Or.inr rfl)
    | (with_reducible exact Or.inr ⟨rfl, rfl⟩)
    | (exact Or.inl (Sub.mem ‹_› (by rfl)))
    | (with_reducible rfl)
    | (dsimp only)

theorem State.draw_kept {P : List Part} {u s : State} (hk : Kept P u s)  (hP : Sub [.free] P := by exact Sub.of ‹_› (by rfl)) : Kept P u (State.draw s).2 := by
  unfold State.draw
  repeat' first
    | (with_reducible assumption)
    | (exact Sub.of ‹_› (by rfl))
    | (simp only [Kept.mk_iff]; with_reducible apply KeptC.of)
    | (with_reducible exact Or.inr rfl)
    | (with_reducible exact Or.inr ⟨rfl, rfl⟩)
    | (exact Or.inl (Sub.mem ‹_› (by rfl)))
    | (with_reducible rfl)
    | (dsimp only)

theorem State.draw_kept' {P : List Part} {u s t : State} {r₀ : Nat}  (hk : Kept P u s) (he₀ : (State.draw s) = (r₀, t)) (hP : Sub [.free] P := by exact Sub.of ‹_› (by rfl)) : Kept P u t := by
  have := State.draw_kept hk 
  rw [he₀] at this; exact this

theorem State.raiseVec_kept {P : List Part} {u s : State} (hk : Kept P u s) (v : Nat) (hP : Sub [.vec] P := by exact Sub.of ‹_› (by rfl)) : Kept P u (State.raiseVec s v) := by
  unfold State.raiseVec
  repeat' first
    | (with_reducible assumption)
    | (exact Sub.of ‹_› (by rfl))
    | (simp only [Kept.mk_iff]; with_reducible apply KeptC.of)
    | (with_reducible exact Or.inr rfl)
    | (with_reducible exact Or.inr ⟨rfl, rfl⟩)
    | (exact Or.inl (Sub.mem ‹_› (by rfl)))
    | (with_reducible rfl)
    | split
    | (dsimp only)

theorem State.raiseBit_kept {P : List Part} {u s : State} (hk : Kept P u s) (h : Hist) (b : Nat) (hP : Sub [.regs, .vec] P := by exact Sub.of ‹_› (by rfl)) : Kept P u (State.raiseBit s h b) := by
  unfold State.raiseBit
  repeat' first
    | (with_reducible assumption)
    | (with_reducible apply State.set_kept)
    | (with_reducible apply State.raiseVec_kept)
    | (exact Sub.of ‹_› (by rfl))
    | split
    | (dsimp only)

theorem State.raise_kept {P : List Part} {u s : State} (hk : Kept P u s) (h : Hist) (f : Bits) (hP : Sub [.regs, .vec] P := by exact Sub.of ‹_› (by rfl)) : Kept P u (State.raise s h f) := by
  unfold State.raise
  repeat' first
    | (with_reducible assumption)
    | (with_reducible apply State.raiseBit_kept)
    | (exact Sub.of ‹_› (by rfl))
    | (dsimp only)

theorem State.raiseMode_kept {P : List Part} {u s : State} (hk : Kept P u s) (f : Bits) (hP : Sub [.regs, .vec] P := by exact Sub.of ‹_› (by rfl)) : Kept P u (State.raiseMode s f) := by
  unfold State.raiseMode
  repeat' first
    | (with_reducible assumption)
    | (with_reducible apply State.raiseBit_kept)
    | (exact Sub.of ‹_› (by rfl))
    | (dsimp only)

theorem State.setRx_kept {P : List Part} {u s : State} (hk : Kept P u s) (n : Nat) (l : RxLane) (hP : Sub [.media] P := by exact Sub.of ‹_› (by rfl)) : Kept P u (State.setRx s n l) := by
  unfold State.setRx
  repeat' first
    | (with_reducible assumption)
    | (exact Sub.of ‹_› (by rfl))
    | (simp only [Kept.mk_iff]; with_reducible apply KeptC.of)
    | (with_reducible exact Or.inr rfl)
    | (with_reducible exact Or.inr ⟨rfl, rfl⟩)
    | (exact Or.inl (Sub.mem ‹_› (by rfl)))
    | (with_reducible rfl)
    | (dsimp only)

theorem State.setTx_kept {P : List Part} {u s : State} (hk : Kept P u s) (n : Nat) (l : TxLane) (hP : Sub [.media] P := by exact Sub.of ‹_› (by rfl)) : Kept P u (State.setTx s n l) := by
  unfold State.setTx
  repeat' first
    | (with_reducible assumption)
    | (exact Sub.of ‹_› (by rfl))
    | (simp only [Kept.mk_iff]; with_reducible apply KeptC.of)
    | (with_reducible exact Or.inr rfl)
    | (with_reducible exact Or.inr ⟨rfl, rfl⟩)
    | (exact Or.inl (Sub.mem ‹_› (by rfl)))
    | (with_reducible rfl)
    | (dsimp only)

theorem State.dirty_kept {P : List Part} {u s : State} (hk : Kept P u s) (k : Nat) (hP : Sub [.regs] P := by exact Sub.of ‹_› (by rfl)) : Kept P u (State.dirty s k) := by
  unfold State.dirty
  repeat' first
    | (with_reducible assumption)
    | (with_reducible apply State.set_kept)
    | (exact Sub.of ‹_› (by rfl))
    | (dsimp only)

theorem State.setRoute_kept {P : List Part} {u s : State} (hk : Kept P u s) (d : Nat) (r : Option Route) (hP : Sub [.regs, .xpt] P := by exact Sub.of ‹_› (by rfl)) : Kept P u (State.setRoute s d r) := by
  unfold State.setRoute
  repeat' first
    | (with_reducible assumption)
    | (with_reducible apply State.dirty_kept)
    | (exact Sub.of ‹_› (by rfl))
    | (simp only [Kept.mk_iff]; with_reducible apply KeptC.of)
    | (with_reducible exact Or.inr rfl)
    | (with_reducible exact Or.inr ⟨rfl, rfl⟩)
    | (exact Or.inl (Sub.mem ‹_› (by rfl)))
    | (with_reducible rfl)
    | split
    | (dsimp only)

theorem State.setPg_kept {P : List Part} {u s : State} (hk : Kept P u s) (p : Nat) (g : PgSt) (hP : Sub [.xpt] P := by exact Sub.of ‹_› (by rfl)) : Kept P u (State.setPg s p g) := by
  unfold State.setPg
  repeat' first
    | (with_reducible assumption)
    | (exact Sub.of ‹_› (by rfl))
    | (simp only [Kept.mk_iff]; with_reducible apply KeptC.of)
    | (with_reducible exact Or.inr rfl)
    | (with_reducible exact Or.inr ⟨rfl, rfl⟩)
    | (exact Or.inl (Sub.mem ‹_› (by rfl)))
    | (with_reducible rfl)
    | (dsimp only)

theorem State.setRing_kept {P : List Part} {u s : State} (hk : Kept P u s) (r : Nat) (g : Ring) (hP : Sub [.fst] P := by exact Sub.of ‹_› (by rfl)) : Kept P u (State.setRing s r g) := by
  unfold State.setRing
  repeat' first
    | (with_reducible assumption)
    | (exact Sub.of ‹_› (by rfl))
    | (simp only [Kept.mk_iff]; with_reducible apply KeptC.of)
    | (with_reducible exact Or.inr rfl)
    | (with_reducible exact Or.inr ⟨rfl, rfl⟩)
    | (exact Or.inl (Sub.mem ‹_› (by rfl)))
    | (with_reducible rfl)
    | (dsimp only)

theorem State.setBuf_kept {P : List Part} {u s : State} (hk : Kept P u s) (h : Nat) (b : Buf) (hP : Sub [.fst] P := by exact Sub.of ‹_› (by rfl)) : Kept P u (State.setBuf s h b) := by
  unfold State.setBuf
  repeat' first
    | (with_reducible assumption)
    | (exact Sub.of ‹_› (by rfl))
    | (simp only [Kept.mk_iff]; with_reducible apply KeptC.of)
    | (with_reducible exact Or.inr rfl)
    | (with_reducible exact Or.inr ⟨rfl, rfl⟩)
    | (exact Or.inl (Sub.mem ‹_› (by rfl)))
    | (with_reducible rfl)
    | (dsimp only)

theorem State.setCw_kept {P : List Part} {u s : State} (hk : Kept P u s) (k : Nat) (c : Cw) (hP : Sub [.fst] P := by exact Sub.of ‹_› (by rfl)) : Kept P u (State.setCw s k c) := by
  unfold State.setCw
  repeat' first
    | (with_reducible assumption)
    | (exact Sub.of ‹_› (by rfl))
    | (simp only [Kept.mk_iff]; with_reducible apply KeptC.of)
    | (with_reducible exact Or.inr rfl)
    | (with_reducible exact Or.inr ⟨rfl, rfl⟩)
    | (exact Or.inl (Sub.mem ‹_› (by rfl)))
    | (with_reducible rfl)
    | (dsimp only)

theorem State.setChain_kept {P : List Part} {u s : State} (hk : Kept P u s) (u₁ : Nat) (c : Chain) (hP : Sub [.fst] P := by exact Sub.of ‹_› (by rfl)) : Kept P u (State.setChain s u₁ c) := by
  unfold State.setChain
  repeat' first
    | (with_reducible assumption)
    | (exact Sub.of ‹_› (by rfl))
    | (simp only [Kept.mk_iff]; with_reducible apply KeptC.of)
    | (with_reducible exact Or.inr rfl)
    | (with_reducible exact Or.inr ⟨rfl, rfl⟩)
    | (exact Or.inl (Sub.mem ‹_› (by rfl)))
    | (with_reducible rfl)
    | (dsimp only)

theorem State.setCtx_kept {P : List Part} {u s : State} (hk : Kept P u s) (c : Nat) (x : Ctx) (hP : Sub [.che] P := by exact Sub.of ‹_› (by rfl)) : Kept P u (State.setCtx s c x) := by
  unfold State.setCtx
  repeat' first
    | (with_reducible assumption)
    | (exact Sub.of ‹_› (by rfl))
    | (simp only [Kept.mk_iff]; with_reducible apply KeptC.of)
    | (with_reducible exact Or.inr rfl)
    | (with_reducible exact Or.inr ⟨rfl, rfl⟩)
    | (exact Or.inl (Sub.mem ‹_› (by rfl)))
    | (with_reducible rfl)
    | (dsimp only)

theorem State.setEng_kept {P : List Part} {u s : State} (hk : Kept P u s) (e : Nat) (g : Engine) (hP : Sub [.che] P := by exact Sub.of ‹_› (by rfl)) : Kept P u (State.setEng s e g) := by
  unfold State.setEng
  repeat' first
    | (with_reducible assumption)
    | (exact Sub.of ‹_› (by rfl))
    | (simp only [Kept.mk_iff]; with_reducible apply KeptC.of)
    | (with_reducible exact Or.inr rfl)
    | (with_reducible exact Or.inr ⟨rfl, rfl⟩)
    | (exact Or.inl (Sub.mem ‹_› (by rfl)))
    | (with_reducible rfl)
    | (dsimp only)

theorem State.setUnit_kept {P : List Part} {u s : State} (hk : Kept P u s) (u₁ : Nat) (x : Unit) (hP : Sub [.sou] P := by exact Sub.of ‹_› (by rfl)) : Kept P u (State.setUnit s u₁ x) := by
  unfold State.setUnit
  repeat' first
    | (with_reducible assumption)
    | (exact Sub.of ‹_› (by rfl))
    | (simp only [Kept.mk_iff]; with_reducible apply KeptC.of)
    | (with_reducible exact Or.inr rfl)
    | (with_reducible exact Or.inr ⟨rfl, rfl⟩)
    | (exact Or.inl (Sub.mem ‹_› (by rfl)))
    | (with_reducible rfl)
    | (dsimp only)

theorem State.setSyn_kept {P : List Part} {u s : State} (hk : Kept P u s) (t₁ : Nat) (x : Syn) (hP : Sub [.syn] P := by exact Sub.of ‹_› (by rfl)) : Kept P u (State.setSyn s t₁ x) := by
  unfold State.setSyn
  repeat' first
    | (with_reducible assumption)
    | (exact Sub.of ‹_› (by rfl))
    | (simp only [Kept.mk_iff]; with_reducible apply KeptC.of)
    | (with_reducible exact Or.inr rfl)
    | (with_reducible exact Or.inr ⟨rfl, rfl⟩)
    | (exact Or.inl (Sub.mem ‹_› (by rfl)))
    | (with_reducible rfl)
    | (dsimp only)

theorem State.setRefIn_kept {P : List Part} {u s : State} (hk : Kept P u s) (i : Nat) (x : RefIn) (hP : Sub [.ref] P := by exact Sub.of ‹_› (by rfl)) : Kept P u (State.setRefIn s i x) := by
  unfold State.setRefIn
  repeat' first
    | (with_reducible assumption)
    | (exact Sub.of ‹_› (by rfl))
    | (simp only [Kept.mk_iff]; with_reducible apply KeptC.of)
    | (with_reducible exact Or.inr rfl)
    | (with_reducible exact Or.inr ⟨rfl, rfl⟩)
    | (exact Or.inl (Sub.mem ‹_› (by rfl)))
    | (with_reducible rfl)
    | (dsimp only)

theorem State.setRst_kept {P : List Part} {u s : State} (hk : Kept P u s) (n : Nat) (x : RingSt) (hP : Sub [.host] P := by exact Sub.of ‹_› (by rfl)) : Kept P u (State.setRst s n x) := by
  unfold State.setRst
  repeat' first
    | (with_reducible assumption)
    | (exact Sub.of ‹_› (by rfl))
    | (simp only [Kept.mk_iff]; with_reducible apply KeptC.of)
    | (with_reducible exact Or.inr rfl)
    | (with_reducible exact Or.inr ⟨rfl, rfl⟩)
    | (exact Or.inl (Sub.mem ‹_› (by rfl)))
    | (with_reducible rfl)
    | (dsimp only)

theorem State.ifUp_kept {P : List Part} {u s : State} {k : State → State} (hk : Kept P u s) (hf : ∀ v, Kept P u v → Kept P u (k v)) (hP : Sub [] P := by exact Sub.of ‹_› (by rfl)) :
    Kept P u (State.ifUp s k) := by
  unfold State.ifUp
  split
  · exact hf _ hk
  · exact hk

theorem State.setLvReg_kept {P : List Part} {u s : State} (hk : Kept P u s) (k : Nat) (v : BitVec 16) (hP : Sub [.lv] P := by exact Sub.of ‹_› (by rfl)) : Kept P u (State.setLvReg s k v) := by
  unfold State.setLvReg
  repeat' first
    | (with_reducible assumption)
    | (exact Sub.of ‹_› (by rfl))
    | (simp only [Kept.mk_iff]; with_reducible apply KeptC.of)
    | (with_reducible exact Or.inr rfl)
    | (with_reducible exact Or.inr ⟨rfl, rfl⟩)
    | (exact Or.inl (Sub.mem ‹_› (by rfl)))
    | (with_reducible rfl)
    | (dsimp only)

theorem State.freshId_kept {P : List Part} {u s : State} (hk : Kept P u s)  (hP : Sub [.host] P := by exact Sub.of ‹_› (by rfl)) : Kept P u (State.freshId s).2 := by
  unfold State.freshId
  repeat' first
    | (with_reducible assumption)
    | (exact Sub.of ‹_› (by rfl))
    | (simp only [Kept.mk_iff]; with_reducible apply KeptC.of)
    | (with_reducible exact Or.inr rfl)
    | (with_reducible exact Or.inr ⟨rfl, rfl⟩)
    | (exact Or.inl (Sub.mem ‹_› (by rfl)))
    | (with_reducible rfl)
    | (dsimp only)

theorem State.freshId_kept' {P : List Part} {u s t : State} {r₀ : Nat}  (hk : Kept P u s) (he₀ : (State.freshId s) = (r₀, t)) (hP : Sub [.host] P := by exact Sub.of ‹_› (by rfl)) : Kept P u t := by
  have := State.freshId_kept hk 
  rw [he₀] at this; exact this

theorem State.newId_kept {P : List Part} {u s : State} (hk : Kept P u s)  (hP : Sub [.regs, .host, .mate] P := by exact Sub.of ‹_› (by rfl)) : Kept P u (State.newId s).2 := by
  unfold State.newId
  repeat' first
    | (with_reducible assumption)
    | (with_reducible apply State.inc_kept)
    | (with_reducible apply State.freshId_kept)
    | (refine State.freshId_kept' ?_ (by with_reducible assumption))
    | (exact Sub.of ‹_› (by rfl))
    | (simp only [Kept.mk_iff]; with_reducible apply KeptC.of)
    | (with_reducible exact Or.inr rfl)
    | (with_reducible exact Or.inr ⟨rfl, rfl⟩)
    | (exact Or.inl (Sub.mem ‹_› (by rfl)))
    | (with_reducible rfl)
    | split
    | (dsimp only)

theorem State.newId_kept' {P : List Part} {u s t : State} {r₀ : Nat}  (hk : Kept P u s) (he₀ : (State.newId s) = (r₀, t)) (hP : Sub [.regs, .host, .mate] P := by exact Sub.of ‹_› (by rfl)) : Kept P u t := by
  have := State.newId_kept hk 
  rw [he₀] at this; exact this

theorem State.fwdNote_kept {P : List Part} {u s : State} (hk : Kept P u s) (id : Nat) (rfn : Nat) (hP : Sub [.mate] P := by exact Sub.of ‹_› (by rfl)) : Kept P u (State.fwdNote s id rfn) := by
  unfold State.fwdNote
  repeat' first
    | (with_reducible assumption)
    | (exact Sub.of ‹_› (by rfl))
    | (simp only [Kept.mk_iff]; with_reducible apply KeptC.of)
    | (with_reducible exact Or.inr rfl)
    | (with_reducible exact Or.inr ⟨rfl, rfl⟩)
    | (exact Or.inl (Sub.mem ‹_› (by rfl)))
    | (with_reducible rfl)
    | split
    | (dsimp only)

theorem State.pushCpl_kept {P : List Part} {u s : State} (hk : Kept P u s) (c : Cpl) (hP : Sub [.host] P := by exact Sub.of ‹_› (by rfl)) : Kept P u (State.pushCpl s c) := by
  unfold State.pushCpl
  repeat' first
    | (with_reducible assumption)
    | (exact Sub.of ‹_› (by rfl))
    | (simp only [Kept.mk_iff]; with_reducible apply KeptC.of)
    | (with_reducible exact Or.inr rfl)
    | (with_reducible exact Or.inr ⟨rfl, rfl⟩)
    | (exact Or.inl (Sub.mem ‹_› (by rfl)))
    | (with_reducible rfl)
    | (dsimp only)

theorem State.refuse_kept {P : List Part} {u s : State} (hk : Kept P u s) (h : Hdr) (status : Nat) (result : Nat) (hP : Sub [.host] P := by exact Sub.of ‹_› (by rfl)) : Kept P u (State.refuse s h status result) := by
  unfold State.refuse
  repeat' first
    | (with_reducible assumption)
    | (with_reducible apply State.pushCpl_kept)
    | (exact Sub.of ‹_› (by rfl))
    | split
    | (dsimp only)

theorem State.refuseLate_kept {P : List Part} {u s : State} (hk : Kept P u s) (h : Hdr) (lateCmt : Bool) (result : Nat) (hP : Sub [.host] P := by exact Sub.of ‹_› (by rfl)) : Kept P u (State.refuseLate s h lateCmt result) := by
  unfold State.refuseLate
  repeat' first
    | (with_reducible assumption)
    | (with_reducible apply State.pushCpl_kept)
    | (exact Sub.of ‹_› (by rfl))
    | split
    | (dsimp only)

theorem State.done_kept {P : List Part} {u s : State} (hk : Kept P u s) (h : Hdr) (early : Bool) (status : Nat) (result : Nat) (hP : Sub [.regs, .host, .mate] P := by exact Sub.of ‹_› (by rfl)) : Kept P u (State.done s h early status result) := by
  unfold State.done
  repeat' first
    | (with_reducible assumption)
    | (with_reducible apply State.newId_kept)
    | (refine State.newId_kept' ?_ (by with_reducible assumption))
    | (with_reducible apply State.pushCpl_kept)
    | (exact Sub.of ‹_› (by rfl))
    | split
    | (dsimp only)

theorem State.ok_kept {P : List Part} {u s : State} (hk : Kept P u s) (h : Hdr) (result : Nat) (hP : Sub [.regs, .host, .mate] P := by exact Sub.of ‹_› (by rfl)) : Kept P u (State.ok s h result) := by
  unfold State.ok
  repeat' first
    | (with_reducible assumption)
    | (with_reducible apply State.done_kept)
    | (exact Sub.of ‹_› (by rfl))
    | (dsimp only)

theorem State.addOp_kept {P : List Part} {u s : State} (hk : Kept P u s) (h : Hdr) (result : Nat) (body : OpBody) (hP : Sub [.regs, .host, .mate] P := by exact Sub.of ‹_› (by rfl)) : Kept P u (State.addOp s h result body).2 := by
  unfold State.addOp
  repeat' first
    | (with_reducible assumption)
    | (with_reducible apply State.newId_kept)
    | (refine State.newId_kept' ?_ (by with_reducible assumption))
    | (exact Sub.of ‹_› (by rfl))
    | (simp only [Kept.mk_iff]; with_reducible apply KeptC.of)
    | (with_reducible exact Or.inr rfl)
    | (with_reducible exact Or.inr ⟨rfl, rfl⟩)
    | (exact Or.inl (Sub.mem ‹_› (by rfl)))
    | (with_reducible rfl)
    | split
    | (dsimp only)

theorem State.addOp_kept' {P : List Part} {u s t : State} {r₀ : Nat} {h : Hdr} {result : Nat} {body : OpBody} (hk : Kept P u s) (he₀ : (State.addOp s h result body) = (r₀, t)) (hP : Sub [.regs, .host, .mate] P := by exact Sub.of ‹_› (by rfl)) : Kept P u t := by
  have := State.addOp_kept hk h result body
  rw [he₀] at this; exact this

theorem State.addEntry_kept {P : List Part} {u s : State} (hk : Kept P u s) (h : Hdr) (body : OpBody) (hP : Sub [.host] P := by exact Sub.of ‹_› (by rfl)) : Kept P u (State.addEntry s h body) := by
  unfold State.addEntry
  repeat' first
    | (with_reducible assumption)
    | (with_reducible apply State.freshId_kept)
    | (refine State.freshId_kept' ?_ (by with_reducible assumption))
    | (exact Sub.of ‹_› (by rfl))
    | (simp only [Kept.mk_iff]; with_reducible apply KeptC.of)
    | (with_reducible exact Or.inr rfl)
    | (with_reducible exact Or.inr ⟨rfl, rfl⟩)
    | (exact Or.inl (Sub.mem ‹_› (by rfl)))
    | (with_reducible rfl)
    | split
    | (dsimp only)

theorem State.setOp_kept {P : List Part} {u s : State} (hk : Kept P u s) (id : Nat) (body : OpBody) (hP : Sub [.host] P := by exact Sub.of ‹_› (by rfl)) : Kept P u (State.setOp s id body) := by
  unfold State.setOp
  repeat' first
    | (with_reducible assumption)
    | (exact Sub.of ‹_› (by rfl))
    | (simp only [Kept.mk_iff]; with_reducible apply KeptC.of)
    | (with_reducible exact Or.inr rfl)
    | (with_reducible exact Or.inr ⟨rfl, rfl⟩)
    | (exact Or.inl (Sub.mem ‹_› (by rfl)))
    | (with_reducible rfl)
    | (intro _)
    | split
    | (dsimp only)

theorem State.dropOp_kept {P : List Part} {u s : State} (hk : Kept P u s) (id : Nat) (hP : Sub [.host] P := by exact Sub.of ‹_› (by rfl)) : Kept P u (State.dropOp s id) := by
  unfold State.dropOp
  repeat' first
    | (with_reducible assumption)
    | (exact Sub.of ‹_› (by rfl))
    | (simp only [Kept.mk_iff]; with_reducible apply KeptC.of)
    | (with_reducible exact Or.inr rfl)
    | (with_reducible exact Or.inr ⟨rfl, rfl⟩)
    | (exact Or.inl (Sub.mem ‹_› (by rfl)))
    | (with_reducible rfl)
    | (intro _)
    | (dsimp only)

theorem State.finish_kept {P : List Part} {u s : State} (hk : Kept P u s) (id : Nat) (c : CplInfo) (hP : Sub [.regs, .host, .vec] P := by exact Sub.of ‹_› (by rfl)) : Kept P u (State.finish s id c) := by
  unfold State.finish
  repeat' first
    | (with_reducible assumption)
    | (with_reducible apply State.inc_kept)
    | (with_reducible apply State.raise_kept)
    | (with_reducible apply State.pushCpl_kept)
    | (with_reducible apply State.dropOp_kept)
    | (exact Sub.of ‹_› (by rfl))
    | split
    | (dsimp only)

end Sys2Proof.Machine
end

