-- ==== Sys2Proof/Laws/KeptMtxOps.lean ====
section
/-! SUPPORT. The operations of Machine/MtxOps.lean keep the queue and the canonical forms, and which parts of the state they may change. -/
set_option Elab.async false
namespace Sys2Proof.Machine

theorem State.setMtxOut_kept {P : List Part} {u s : State} (hk : Kept P u s) (m : Nat) (l : List MtxOut) (hP : Sub [.mtx] P := by exact Sub.of ‹_› (by rfl)) : Kept P u (State.setMtxOut s m l) := by
  unfold State.setMtxOut
  repeat' first
    | (with_reducible assumption)
    | (exact Sub.of ‹_› (by rfl))
    | (simp only [Kept.mk_iff]; with_reducible apply KeptC.of)
    | (with_reducible exact Or.inr rfl)
    | (with_reducible exact Or.inr ⟨rfl, rfl⟩)
    | (exact Or.inl (Sub.mem ‹_› (by rfl)))
    | (with_reducible rfl)
    | (dsimp only)

theorem State.portReset_kept {P : List Part} {u s : State} (hk : Kept P u s) (t₁ : Nat) (on : Bool) (hP : Sub [.mtx] P := by exact Sub.of ‹_› (by rfl)) : Kept P u (State.portReset s t₁ on) := by
  unfold State.portReset
  repeat' first
    | (with_reducible assumption)
    | (exact Sub.of ‹_› (by rfl))
    | (simp only [Kept.mk_iff]; with_reducible apply KeptC.of)
    | (with_reducible exact Or.inr rfl)
    | (with_reducible exact Or.inr ⟨rfl, rfl⟩)
    | (exact Or.inl (Sub.mem ‹_› (by rfl)))
    | (with_reducible rfl)
    | split
    | (dsimp only)

theorem State.logMtx_kept {P : List Part} {u s : State} {write : State → State} (hk : Kept P u s) (k m : Nat) (hf : ∀ v, Kept P u v → Kept P u (write v)) (hP : Sub [.mtx] P := by exact Sub.of ‹_› (by rfl)) :
    Kept P u (State.logMtx s k m write) := by
  unfold State.logMtx
  dsimp only
  have h := hf _ (Kept.upd_mtx hk { s.mtx with logged := tabPut s.mtx.logged k (s.now, m) } rfl)
  repeat' split
  all_goals first | exact hk | exact h

theorem State.abortBurst_kept {P : List Part} {u s : State} (hk : Kept P u s) (m : Nat) (o : MtxOut) (hP : Sub [.regs, .vec, .mtx] P := by exact Sub.of ‹_› (by rfl)) : Kept P u (State.abortBurst s m o) := by
  unfold State.abortBurst
  repeat' first
    | (with_reducible assumption)
    | (with_reducible apply State.set_kept)
    | (with_reducible apply State.inc_kept)
    | (with_reducible apply State.raise_kept)
    | (with_reducible apply State.logMtx_kept)
    | (exact Sub.of ‹_› (by rfl))
    | (intro _)
    | split
    | (dsimp only)

theorem State.resetMaster_kept {P : List Part} {u s : State} (hk : Kept P u s) (m : Nat) (hP : Sub [.regs, .vec, .mtx] P := by exact Sub.of ‹_› (by rfl)) : Kept P u (State.resetMaster s m) := by
  unfold State.resetMaster
  repeat' first
    | (with_reducible assumption)
    | (with_reducible apply State.set_kept)
    | (with_reducible apply State.setMtxOut_kept)
    | (with_reducible apply State.abortBurst_kept)
    | (with_reducible refine Kept.foldl ?_ ?_)
    | (exact Sub.of ‹_› (by rfl))
    | (simp only [Kept.mk_iff]; with_reducible apply KeptC.of)
    | (with_reducible exact Or.inr rfl)
    | (with_reducible exact Or.inr ⟨rfl, rfl⟩)
    | (exact Or.inl (Sub.mem ‹_› (by rfl)))
    | (with_reducible rfl)
    | (intro _)
    | split
    | (dsimp only)

theorem State.setData_kept {P : List Part} {u s : State} (hk : Kept P u s) (d : Option Nat) (hP : Sub [.mtx] P := by exact Sub.of ‹_› (by rfl)) : Kept P u (State.setData s d) := by
  unfold State.setData
  repeat' first
    | (with_reducible assumption)
    | (exact Sub.of ‹_› (by rfl))
    | (simp only [Kept.mk_iff]; with_reducible apply KeptC.of)
    | (with_reducible exact Or.inr rfl)
    | (with_reducible exact Or.inr ⟨rfl, rfl⟩)
    | (exact Or.inl (Sub.mem ‹_› (by rfl)))
    | (with_reducible rfl)
    | (dsimp only)

theorem State.refuseAccess_kept {P : List Part} {u s : State} (hk : Kept P u s) (r : MtxReq) (hP : Sub [.regs, .vec, .mtx] P := by exact Sub.of ‹_› (by rfl)) : Kept P u (State.refuseAccess s r) := by
  unfold State.refuseAccess
  repeat' first
    | (with_reducible assumption)
    | (with_reducible apply State.inc_kept)
    | (with_reducible apply State.wr2_kept)
    | (with_reducible apply State.raise_kept)
    | (with_reducible apply State.logMtx_kept)
    | (with_reducible apply State.setData_kept)
    | (exact Sub.of ‹_› (by rfl))
    | (intro _)
    | split
    | (dsimp only)

theorem State.decodeAnswer_kept {P : List Part} {u s : State} (hk : Kept P u s) (r : MtxReq) (hP : Sub [.regs, .vec, .mtx] P := by exact Sub.of ‹_› (by rfl)) : Kept P u (State.decodeAnswer s r) := by
  unfold State.decodeAnswer
  repeat' first
    | (with_reducible assumption)
    | (with_reducible apply State.inc_kept)
    | (with_reducible apply State.wr2_kept)
    | (with_reducible apply State.raise_kept)
    | (with_reducible apply State.logMtx_kept)
    | (with_reducible apply State.setData_kept)
    | (exact Sub.of ‹_› (by rfl))
    | (intro _)
    | split
    | (dsimp only)

theorem State.byHost_kept {P : List Part} {u s : State} {k : State → State} (hk : Kept P u s) (a : Nat) (hf : ∀ v, Kept P u v → Kept P u (k v)) (hP : Sub [.regs, .vec, .mtx] P := by exact Sub.of ‹_› (by rfl)) :
    Kept P u (State.byHost s a k) := by
  unfold State.byHost
  refine State.ifUp_kept hk fun v hv => ?_
  repeat' split
  · exact hv
  · exact hf _ hv
  · exact State.refuseAccess_kept hv _

end Sys2Proof.Machine
end

