-- ==== Sys2Proof/Laws/KeptSynMath.lean ====
section
/-! SUPPORT. The operations of Machine/SynMath.lean keep the queue and the canonical forms, and which parts of the state they may change. -/
set_option Elab.async false
namespace Sys2Proof.Machine

theorem State.synEnd_kept {P : List Part} {u s : State} (hk : Kept P u s) (t₁ : Nat) (hP : Sub [.regs, .vec, .syn] P := by exact Sub.of ‹_› (by rfl)) : Kept P u (State.synEnd s t₁) := by
  unfold State.synEnd
  repeat' first
    | (with_reducible assumption)
    | (with_reducible apply State.wrInt_kept)
    | (with_reducible apply State.raise_kept)
    | (with_reducible apply State.setSyn_kept)
    | (exact Sub.of ‹_› (by rfl))
    | split
    | (dsimp only)

end Sys2Proof.Machine
end

