-- ==== Sys2Proof/Laws/KeptStoreOps.lean ====
section
/-! SUPPORT. The operations of Machine/StoreOps.lean keep the queue and the canonical forms, and which parts of the state they may change. -/
set_option Elab.async false
namespace Sys2Proof.Machine

theorem State.setCopy_kept {P : List Part} {u s : State} (hk : Kept P u s) (k : Nat) (h : Nat) (c : Copy) (hP : Sub [.axl] P := by exact Sub.of ‹_› (by rfl)) : Kept P u (State.setCopy s k h c) := by
  unfold State.setCopy
  repeat' first
    | (with_reducible assumption)
    | (exact Sub.of ‹_› (by rfl))
    | (simp only [Kept.mk_iff]; with_reducible apply KeptC.of)
    | (with_reducible exact Or.inr rfl)
    | (with_reducible exact Or.inr ⟨rfl, rfl⟩)
    | (exact Or.inl (Sub.mem ‹_› (by rfl)))
    | (with_reducible rfl)
    | (dsimp only)

theorem State.spoil_kept {P : List Part} {u s : State} (hk : Kept P u s) (k : Nat) (h : Nat) (hP : Sub [.axl] P := by exact Sub.of ‹_› (by rfl)) : Kept P u (State.spoil s k h) := by
  unfold State.spoil
  repeat' first
    | (with_reducible assumption)
    | (with_reducible apply State.setCopy_kept)
    | (exact Sub.of ‹_› (by rfl))
    | split
    | (dsimp only)

theorem State.writeRec_kept {P : List Part} {u s : State} (hk : Kept P u s) (k : Nat) (b : RecBody) (ok : Bool) (hP : Sub [.regs, .axl] P := by exact Sub.of ‹_› (by rfl)) : Kept P u (State.writeRec s k b ok) := by
  unfold State.writeRec
  repeat' first
    | (with_reducible assumption)
    | (with_reducible apply State.wr_kept)
    | (with_reducible apply State.set_kept)
    | (with_reducible apply State.inc_kept)
    | (with_reducible apply State.setCopy_kept)
    | (exact Sub.of ‹_› (by rfl))
    | (simp only [Kept.mk_iff]; with_reducible apply KeptC.of)
    | (with_reducible exact Or.inr rfl)
    | (with_reducible exact Or.inr ⟨rfl, rfl⟩)
    | (exact Or.inl (Sub.mem ‹_› (by rfl)))
    | (with_reducible rfl)
    | split
    | (dsimp only)

theorem State.change_kept {P : List Part} {u s : State} (hk : Kept P u s) (k : Nat) (hP : Sub [.regs, .axl] P := by exact Sub.of ‹_› (by rfl)) : Kept P u (State.change s k) := by
  unfold State.change
  repeat' first
    | (with_reducible assumption)
    | (with_reducible apply State.dirty_kept)
    | (with_reducible apply State.writeRec_kept)
    | (exact Sub.of ‹_› (by rfl))
    | split
    | (dsimp only)

end Sys2Proof.Machine
end

