-- ==== Sys2Proof/Laws/KeptFstOps.lean ====
section
/-! SUPPORT. The operations of Machine/FstOps.lean keep the queue and the canonical forms, and which parts of the state they may change. -/
set_option Elab.async false
namespace Sys2Proof.Machine

theorem State.allocRing_kept' {P : List Part} {u s t : State} {r : Nat} {q : RingReq} (hk : Kept P u s) (he₀ : s.allocRing q = .ok (r, t)) (hP : Sub [.fst] P := by exact Sub.of ‹_› (by rfl)) : Kept P u t := by
  unfold State.allocRing at he₀
  split at he₀
  · exact absurd he₀ (by simp)
  · split at he₀
    · exact absurd he₀ (by simp)
    · dsimp only at he₀
      split at he₀
      · exact absurd he₀ (by simp)
      · split at he₀
        · exact absurd he₀ (by simp)
        · simp only [Except.ok.injEq, Prod.mk.injEq] at he₀
          rw [← he₀.2]
          exact Kept.foldl (State.setRing_kept hk _ _) fun v x hv => State.setBuf_kept hv _ _

theorem State.allocStore_kept' {P : List Part} {u s t : State} {w : List Nat} {k r : Nat} (hk : Kept P u s) (he₀ : s.allocStore k r = .ok (w, t)) (hP : Sub [.fst] P := by exact Sub.of ‹_› (by rfl)) : Kept P u t := by
  unfold State.allocStore at he₀
  split at he₀
  · simp only [Except.ok.injEq, Prod.mk.injEq] at he₀; exact he₀.2 ▸ hk
  · split at he₀
    · exact absurd he₀ (by simp)
    · exact absurd he₀ (by simp)
    · dsimp only at he₀
      split at he₀
      · exact absurd he₀ (by simp)
      · split at he₀
        · exact absurd he₀ (by simp)
        · simp only [Except.ok.injEq, Prod.mk.injEq] at he₀
          rw [← he₀.2]
          exact Kept.foldl hk fun v x hv => State.setBuf_kept hv _ _

theorem State.dropBuf_kept {P : List Part} {u s : State} (hk : Kept P u s) (h : Nat) (hP : Sub [.fst] P := by exact Sub.of ‹_› (by rfl)) : Kept P u (State.dropBuf s h) := by
  unfold State.dropBuf
  repeat' first
    | (with_reducible assumption)
    | (exact Sub.of ‹_› (by rfl))
    | (simp only [Kept.mk_iff]; with_reducible apply KeptC.of)
    | (with_reducible exact Or.inr rfl)
    | (with_reducible exact Or.inr ⟨rfl, rfl⟩)
    | (exact Or.inl (Sub.mem ‹_› (by rfl)))
    | (with_reducible rfl)
    | (intro _)
    | split
    | (dsimp only)

theorem State.freeBuf_kept {P : List Part} {u s : State} (hk : Kept P u s) (h : Nat) (hP : Sub [.fst] P := by exact Sub.of ‹_› (by rfl)) : Kept P u (State.freeBuf s h) := by
  unfold State.freeBuf
  repeat' first
    | (with_reducible assumption)
    | (with_reducible apply State.setBuf_kept)
    | (with_reducible apply State.dropBuf_kept)
    | (exact Sub.of ‹_› (by rfl))
    | split
    | (dsimp only)

theorem State.freeRing_kept {P : List Part} {u s : State} (hk : Kept P u s) (r : Nat) (hP : Sub [.fst] P := by exact Sub.of ‹_› (by rfl)) : Kept P u (State.freeRing s r).2 := by
  unfold State.freeRing
  repeat' first
    | (with_reducible assumption)
    | (with_reducible apply State.setRing_kept)
    | (with_reducible apply State.setCw_kept)
    | (with_reducible apply State.freeBuf_kept)
    | (with_reducible refine Kept.foldl ?_ ?_)
    | (exact Sub.of ‹_› (by rfl))
    | (intro _)
    | split
    | (dsimp only)

theorem State.freeRing_kept' {P : List Part} {u s t : State} {r₀ : Bool} {r : Nat} (hk : Kept P u s) (he₀ : (State.freeRing s r) = (r₀, t)) (hP : Sub [.fst] P := by exact Sub.of ‹_› (by rfl)) : Kept P u t := by
  have := State.freeRing_kept hk r
  rw [he₀] at this; exact this

theorem State.addReader_kept {P : List Part} {u s : State} (hk : Kept P u s) (h : Nat) (r : Reader) (hP : Sub [.fst] P := by exact Sub.of ‹_› (by rfl)) : Kept P u (State.addReader s h r) := by
  unfold State.addReader
  repeat' first
    | (with_reducible assumption)
    | (with_reducible apply State.setBuf_kept)
    | (exact Sub.of ‹_› (by rfl))
    | split
    | (dsimp only)

theorem State.dropReader_kept {P : List Part} {u s : State} (hk : Kept P u s) (h : Nat) (r : Reader) (hP : Sub [.fst] P := by exact Sub.of ‹_› (by rfl)) : Kept P u (State.dropReader s h r) := by
  unfold State.dropReader
  repeat' first
    | (with_reducible assumption)
    | (with_reducible apply State.setBuf_kept)
    | (with_reducible apply State.dropBuf_kept)
    | (exact Sub.of ‹_› (by rfl))
    | (intro _)
    | split
    | (dsimp only)

theorem State.dropReaderAll_kept {P : List Part} {u s : State} (hk : Kept P u s) (r : Reader) (hP : Sub [.fst] P := by exact Sub.of ‹_› (by rfl)) : Kept P u (State.dropReaderAll s r) := by
  unfold State.dropReaderAll
  repeat' first
    | (with_reducible assumption)
    | (with_reducible apply State.dropReader_kept)
    | (with_reducible refine Kept.foldl ?_ ?_)
    | (exact Sub.of ‹_› (by rfl))
    | (intro _)
    | (dsimp only)

theorem State.completeBuf_kept {P : List Part} {u s : State} (hk : Kept P u s) (h : Nat) (m : Meta) (absent : List (Nat × Nat)) (hP : Sub [.fst, .sou] P := by exact Sub.of ‹_› (by rfl)) : Kept P u (State.completeBuf s h m absent) := by
  unfold State.completeBuf
  repeat' first
    | (with_reducible assumption)
    | (with_reducible apply State.setRing_kept)
    | (with_reducible apply State.setBuf_kept)
    | (exact Sub.of ‹_› (by rfl))
    | (simp only [Kept.mk_iff]; with_reducible apply KeptC.of)
    | (with_reducible exact Or.inr rfl)
    | (with_reducible exact Or.inr ⟨rfl, rfl⟩)
    | (exact Or.inl (Sub.mem ‹_› (by rfl)))
    | (with_reducible rfl)
    | (intro _)
    | split
    | (dsimp only)

theorem State.beginWrite_kept {P : List Part} {u s : State} (hk : Kept P u s) (r : Nat) (h : Nat) (hP : Sub [.regs, .fst] P := by exact Sub.of ‹_› (by rfl)) : Kept P u (State.beginWrite s r h) := by
  unfold State.beginWrite
  repeat' first
    | (with_reducible assumption)
    | (with_reducible apply State.inc_kept)
    | (with_reducible apply State.setRing_kept)
    | (with_reducible apply State.setBuf_kept)
    | (with_reducible refine Kept.foldl ?_ ?_)
    | (exact Sub.of ‹_› (by rfl))
    | (intro _)
    | split
    | (dsimp only)

theorem State.bufStore_kept {P : List Part} {u s : State} (hk : Kept P u s) (h : Nat) (off : Nat) (l : List Byte) (hP : Sub [.fst, .fstMem] P := by exact Sub.of ‹_› (by rfl)) : Kept P u (State.bufStore s h off l) := by
  unfold State.bufStore
  repeat' first
    | (with_reducible assumption)
    | (with_reducible refine Kept.foldl ?_ ?_)
    | (exact Sub.of ‹_› (by rfl))
    | (simp only [Kept.mk_iff]; with_reducible apply KeptC.of_mem)
    | (with_reducible exact Or.inr rfl)
    | (with_reducible exact Or.inr ⟨rfl, rfl⟩)
    | (exact Or.inl (Sub.mem ‹_› (by rfl)))
    | (with_reducible rfl)
    | (with_reducible exact id)
    | (with_reducible exact memWrites_wf _ _ _)
    | (with_reducible exact memWrite_wf _ _ _)
    | (exact foldWrite_wf _ _ _ _)
    | (exact foldSkip_wf _ _ _ _ _ ‹_›)
    | (exact foldWrite_wf _ _ _ _ (tabWf_filter _ _ _ ‹_›))
    | (intro _)
    | split
    | (dsimp only)

theorem State.asReader_kept {P : List Part} {u s : State} (hk : Kept P u s) (c : Option Nat) (hP : Sub [.fst] P := by exact Sub.of ‹_› (by rfl)) : Kept P u (State.asReader s c) := by
  unfold State.asReader
  repeat' first
    | (with_reducible assumption)
    | (exact Sub.of ‹_› (by rfl))
    | (simp only [Kept.mk_iff]; with_reducible apply KeptC.of)
    | (with_reducible exact Or.inr rfl)
    | (with_reducible exact Or.inr ⟨rfl, rfl⟩)
    | (exact Or.inl (Sub.mem ‹_› (by rfl)))
    | (with_reducible rfl)
    | (intro _)
    | (dsimp only)

theorem State.readDone_kept {P : List Part} {u s : State} (hk : Kept P u s) (c : Option Nat) (hP : Sub [.fst] P := by exact Sub.of ‹_› (by rfl)) : Kept P u (State.readDone s c) := by
  unfold State.readDone
  repeat' first
    | (with_reducible assumption)
    | (exact Sub.of ‹_› (by rfl))
    | (simp only [Kept.mk_iff]; with_reducible apply KeptC.of)
    | (with_reducible exact Or.inr rfl)
    | (with_reducible exact Or.inr ⟨rfl, rfl⟩)
    | (exact Or.inl (Sub.mem ‹_› (by rfl)))
    | (with_reducible rfl)
    | (intro _)
    | (dsimp only)

theorem State.asUnit_kept {P : List Part} {u s : State} (hk : Kept P u s)  (hP : Sub [.fst] P := by exact Sub.of ‹_› (by rfl)) : Kept P u (State.asUnit s) := by
  unfold State.asUnit
  repeat' first
    | (with_reducible assumption)
    | (exact Sub.of ‹_› (by rfl))
    | (simp only [Kept.mk_iff]; with_reducible apply KeptC.of)
    | (with_reducible exact Or.inr rfl)
    | (with_reducible exact Or.inr ⟨rfl, rfl⟩)
    | (exact Or.inl (Sub.mem ‹_› (by rfl)))
    | (with_reducible rfl)
    | (dsimp only)

theorem State.dmaEnd_kept {P : List Part} {u s : State} (hk : Kept P u s) (k : Nat) (hP : Sub [.fst] P := by exact Sub.of ‹_› (by rfl)) : Kept P u (State.dmaEnd s k) := by
  unfold State.dmaEnd
  repeat' first
    | (with_reducible assumption)
    | (with_reducible apply State.dropReaderAll_kept)
    | (exact Sub.of ‹_› (by rfl))
    | (simp only [Kept.mk_iff]; with_reducible apply KeptC.of)
    | (with_reducible exact Or.inr rfl)
    | (with_reducible exact Or.inr ⟨rfl, rfl⟩)
    | (exact Or.inl (Sub.mem ‹_› (by rfl)))
    | (with_reducible rfl)
    | (intro _)
    | (dsimp only)

theorem State.dmaBreak_kept {P : List Part} {u s : State} (hk : Kept P u s) (d : DmaWr) (hP : Sub [.free, .fst, .fstMem] P := by exact Sub.of ‹_› (by rfl)) : Kept P u (State.dmaBreak s d) := by
  unfold State.dmaBreak
  repeat' first
    | (with_reducible assumption)
    | (with_reducible apply State.draw_kept)
    | (refine State.draw_kept' ?_ (by with_reducible assumption))
    | (with_reducible apply State.setRing_kept)
    | (with_reducible apply State.setBuf_kept)
    | (with_reducible apply State.bufStore_kept)
    | (with_reducible refine Kept.foldl ?_ ?_)
    | (exact Sub.of ‹_› (by rfl))
    | (intro _)
    | split
    | (dsimp only)

theorem State.dmaAbandon_kept {P : List Part} {u s : State} (hk : Kept P u s) (k : Nat) (hP : Sub [.free, .fst, .fstMem] P := by exact Sub.of ‹_› (by rfl)) : Kept P u (State.dmaAbandon s k) := by
  unfold State.dmaAbandon
  repeat' first
    | (with_reducible assumption)
    | (with_reducible apply State.dmaEnd_kept)
    | (with_reducible apply State.dmaBreak_kept)
    | (with_reducible refine Kept.foldl ?_ ?_)
    | (exact Sub.of ‹_› (by rfl))
    | (intro _)
    | (dsimp only)

theorem State.storeFrom_kept {P : List Part} {u s : State} (hk : Kept P u s) (h : Nat) (pix : Nat) (w : Nat) (d : Nat) (at_ : Nat) (p : Pic) (hP : Sub [.fst, .fstMem] P := by exact Sub.of ‹_› (by rfl)) : Kept P u (State.storeFrom s h pix w d at_ p) := by
  unfold State.storeFrom
  repeat' first
    | (with_reducible assumption)
    | (with_reducible apply State.bufStore_kept)
    | (with_reducible refine Kept.foldl ?_ ?_)
    | (exact Sub.of ‹_› (by rfl))
    | (intro _)
    | (dsimp only)

theorem State.storeLines_kept {P : List Part} {u s : State} (hk : Kept P u s) (h : Nat) (pix : Nat) (w : Nat) (d : Nat) (p : Pic) (hP : Sub [.fst, .fstMem] P := by exact Sub.of ‹_› (by rfl)) : Kept P u (State.storeLines s h pix w d p) := by
  unfold State.storeLines
  repeat' first
    | (with_reducible assumption)
    | (with_reducible apply State.storeFrom_kept)
    | (exact Sub.of ‹_› (by rfl))
    | (dsimp only)

theorem State.catchUp_kept {P : List Part} {u s : State} (hk : Kept P u s) (r : Nat) (t₁ : Nat) (hP : Sub [.fst, .fstMem] P := by exact Sub.of ‹_› (by rfl)) : Kept P u (State.catchUp s r t₁) := by
  unfold State.catchUp
  repeat' first
    | (with_reducible assumption)
    | (with_reducible apply State.setCw_kept)
    | (with_reducible apply State.storeFrom_kept)
    | (exact Sub.of ‹_› (by rfl))
    | (intro _)
    | split
    | (dsimp only)

end Sys2Proof.Machine
end

