-- ==== Sys2Proof/Laws/KeptMediaOps.lean ====
section
/-! SUPPORT. The operations of Machine/MediaOps.lean keep the queue and the canonical forms, and which parts of the state they may change. -/
set_option Elab.async false
namespace Sys2Proof.Machine

theorem State.deliver_kept {P : List Part} {u s : State} (hk : Kept P u s) (e : LogEntry) (hP : Sub [.regs, .hostMem] P := by exact Sub.of ‹_› (by rfl)) : Kept P u (State.deliver s e) := by
  unfold State.deliver
  repeat' first
    | (with_reducible assumption)
    | (with_reducible apply State.hostWrite_kept)
    | (with_reducible apply State.set_kept)
    | (exact Sub.of ‹_› (by rfl))
    | (dsimp only)

theorem State.deliverHeld_kept {P : List Part} {u s : State} (hk : Kept P u s)  (hP : Sub [.regs, .hostMem, .sec] P := by exact Sub.of ‹_› (by rfl)) : Kept P u (State.deliverHeld s) := by
  unfold State.deliverHeld
  repeat' first
    | (with_reducible assumption)
    | (with_reducible apply State.deliver_kept)
    | (with_reducible refine Kept.foldl ?_ ?_)
    | (exact Sub.of ‹_› (by rfl))
    | (simp only [Kept.mk_iff]; with_reducible apply KeptC.of)
    | (with_reducible exact Or.inr rfl)
    | (with_reducible exact Or.inr ⟨rfl, rfl⟩)
    | (exact Or.inl (Sub.mem ‹_› (by rfl)))
    | (with_reducible rfl)
    | (intro _)
    | split
    | (dsimp only)

theorem State.logNow_kept {P : List Part} {u s : State} (hk : Kept P u s) (time : Nat) (typ : Nat) (origin : Nat) (status : Nat) (kind : Nat) (dst : Nat) (src : Nat) (rfn : Nat) (ring : Nat) (hP : Sub [.regs, .vec, .hostMem, .sec] P := by exact Sub.of ‹_› (by rfl)) : Kept P u (State.logNow s time typ origin status kind dst src rfn ring) := by
  unfold State.logNow
  repeat' first
    | (with_reducible assumption)
    | (with_reducible apply State.inc_kept)
    | (with_reducible apply State.raise_kept)
    | (with_reducible apply State.deliver_kept)
    | (exact Sub.of ‹_› (by rfl))
    | (simp only [Kept.mk_iff]; with_reducible apply KeptC.of)
    | (with_reducible exact Or.inr rfl)
    | (with_reducible exact Or.inr ⟨rfl, rfl⟩)
    | (exact Or.inl (Sub.mem ‹_› (by rfl)))
    | (with_reducible rfl)
    | split
    | (dsimp only)

theorem State.logWith_kept {P : List Part} {u s : State} (hk : Kept P u s) (time : Nat) (typ : Nat) (origin : Nat) (status : Nat) (kind : Nat) (dst : Nat) (src : Nat) (rfn : Nat) (ring : Nat) (hP : Sub [.regs, .vec, .hostMem, .sec] P := by exact Sub.of ‹_› (by rfl)) : Kept P u (State.logWith s time typ origin status kind dst src rfn ring) := by
  unfold State.logWith
  repeat' first
    | (with_reducible assumption)
    | (with_reducible apply State.logNow_kept)
    | (exact Sub.of ‹_› (by rfl))
    | (simp only [Kept.mk_iff]; with_reducible apply KeptC.of)
    | (with_reducible exact Or.inr rfl)
    | (with_reducible exact Or.inr ⟨rfl, rfl⟩)
    | (exact Or.inl (Sub.mem ‹_› (by rfl)))
    | (with_reducible rfl)
    | split
    | (dsimp only)

theorem State.log_kept {P : List Part} {u s : State} (hk : Kept P u s) (typ : Nat) (origin : Nat) (status : Nat) (kind : Nat) (dst : Nat) (src : Nat) (rfn : Nat) (ring : Nat) (hP : Sub [.regs, .vec, .hostMem, .sec] P := by exact Sub.of ‹_› (by rfl)) : Kept P u (State.log s typ origin status kind dst src rfn ring) := by
  unfold State.log
  repeat' first
    | (with_reducible assumption)
    | (with_reducible apply State.logWith_kept)
    | (exact Sub.of ‹_› (by rfl))
    | (dsimp only)

theorem State.logSec_kept {P : List Part} {u s : State} (hk : Kept P u s) (k : Nat) (by_ : Nat × Nat) (hP : Sub [.regs, .vec, .hostMem, .sec] P := by exact Sub.of ‹_› (by rfl)) : Kept P u (State.logSec s k by_) := by
  unfold State.logSec
  repeat' first
    | (with_reducible assumption)
    | (with_reducible apply State.log_kept)
    | (exact Sub.of ‹_› (by rfl))
    | (dsimp only)

theorem State.txRefresh_kept {P : List Part} {u s : State} (hk : Kept P u s) (n : Nat) (hP : Sub [.regs] P := by exact Sub.of ‹_› (by rfl)) : Kept P u (State.txRefresh s n) := by
  unfold State.txRefresh
  repeat' first
    | (with_reducible assumption)
    | (with_reducible apply State.set_kept)
    | (exact Sub.of ‹_› (by rfl))
    | split
    | (dsimp only)

theorem State.sendsAfresh_kept {P : List Part} {u s : State} (hk : Kept P u s) (d : Nat) (hP : Sub [.regs, .xpt] P := by exact Sub.of ‹_› (by rfl)) : Kept P u (State.sendsAfresh s d) := by
  unfold State.sendsAfresh
  repeat' first
    | (with_reducible assumption)
    | (with_reducible apply State.set_kept)
    | (exact Sub.of ‹_› (by rfl))
    | (simp only [Kept.mk_iff]; with_reducible apply KeptC.of)
    | (with_reducible exact Or.inr rfl)
    | (with_reducible exact Or.inr ⟨rfl, rfl⟩)
    | (exact Or.inl (Sub.mem ‹_› (by rfl)))
    | (with_reducible rfl)
    | (dsimp only)

theorem State.freezeReset_kept {P : List Part} {u s : State} (hk : Kept P u s) (src : Nat) (hP : Sub [.regs, .xpt] P := by exact Sub.of ‹_› (by rfl)) : Kept P u (State.freezeReset s src) := by
  unfold State.freezeReset
  repeat' first
    | (with_reducible assumption)
    | (with_reducible apply State.sendsAfresh_kept)
    | (with_reducible refine Kept.foldl ?_ ?_)
    | (exact Sub.of ‹_› (by rfl))
    | (intro _)
    | split
    | (dsimp only)

theorem State.flowStop_kept {P : List Part} {u s : State} (hk : Kept P u s) (src : Nat) (hP : Sub [.media] P := by exact Sub.of ‹_› (by rfl)) : Kept P u (State.flowStop s src) := by
  unfold State.flowStop
  repeat' first
    | (with_reducible assumption)
    | (with_reducible refine Kept.foldl ?_ ?_)
    | (exact Sub.of ‹_› (by rfl))
    | (simp only [Kept.mk_iff]; with_reducible apply KeptC.of)
    | (with_reducible exact Or.inr rfl)
    | (with_reducible exact Or.inr ⟨rfl, rfl⟩)
    | (exact Or.inl (Sub.mem ‹_› (by rfl)))
    | (with_reducible rfl)
    | (intro _)
    | split
    | (dsimp only)

theorem State.refreshSrc_kept {P : List Part} {u s : State} (hk : Kept P u s) (src : Nat) (hP : Sub [.regs, .media, .xpt] P := by exact Sub.of ‹_› (by rfl)) : Kept P u (State.refreshSrc s src) := by
  unfold State.refreshSrc
  repeat' first
    | (with_reducible assumption)
    | (with_reducible apply State.txRefresh_kept)
    | (with_reducible apply State.freezeReset_kept)
    | (with_reducible apply State.flowStop_kept)
    | (with_reducible refine Kept.foldl ?_ ?_)
    | (exact Sub.of ‹_› (by rfl))
    | (intro _)
    | (dsimp only)

theorem State.cwLoss_kept {P : List Part} {u s : State} (hk : Kept P u s) (black : Bool) (k : Nat) (hP : Sub [.fst] P := by exact Sub.of ‹_› (by rfl)) : Kept P u (State.cwLoss s black k) := by
  unfold State.cwLoss
  repeat' first
    | (with_reducible assumption)
    | (with_reducible apply State.setRing_kept)
    | (with_reducible apply State.setCw_kept)
    | (exact Sub.of ‹_› (by rfl))
    | split
    | (dsimp only)

theorem State.setClk_kept {P : List Part} {u s : State} (hk : Kept P u s) (k : Nat) (c : Clk) (hP : Sub [.aud] P := by exact Sub.of ‹_› (by rfl)) : Kept P u (State.setClk s k c) := by
  unfold State.setClk
  repeat' first
    | (with_reducible assumption)
    | (exact Sub.of ‹_› (by rfl))
    | (simp only [Kept.mk_iff]; with_reducible apply KeptC.of)
    | (with_reducible exact Or.inr rfl)
    | (with_reducible exact Or.inr ⟨rfl, rfl⟩)
    | (exact Or.inl (Sub.mem ‹_› (by rfl)))
    | (with_reducible rfl)
    | (dsimp only)

theorem State.clkLost_kept {P : List Part} {u s : State} (hk : Kept P u s) (k : Nat) (hP : Sub [.aud] P := by exact Sub.of ‹_› (by rfl)) : Kept P u (State.clkLost s k) := by
  unfold State.clkLost
  repeat' first
    | (with_reducible assumption)
    | (with_reducible apply State.setClk_kept)
    | (exact Sub.of ‹_› (by rfl))
    | split
    | (dsimp only)

theorem State.sourceLost_kept {P : List Part} {u s : State} (hk : Kept P u s) (src : Nat) (hP : Sub [.regs, .media, .xpt, .fst, .aud] P := by exact Sub.of ‹_› (by rfl)) : Kept P u (State.sourceLost s src) := by
  unfold State.sourceLost
  repeat' first
    | (with_reducible assumption)
    | (with_reducible apply State.refreshSrc_kept)
    | (with_reducible apply State.cwLoss_kept)
    | (with_reducible apply State.clkLost_kept)
    | (with_reducible refine Kept.foldl ?_ ?_)
    | (exact Sub.of ‹_› (by rfl))
    | (intro _)
    | (dsimp only)

theorem State.groupShow_kept {P : List Part} {u s : State} (hk : Kept P u s) (n : Nat) (hP : Sub [.regs] P := by exact Sub.of ‹_› (by rfl)) : Kept P u (State.groupShow s n) := by
  unfold State.groupShow
  repeat' first
    | (with_reducible assumption)
    | (with_reducible apply State.setB_kept)
    | (exact Sub.of ‹_› (by rfl))
    | split
    | (dsimp only)

theorem State.rxClear_kept {P : List Part} {u s : State} (hk : Kept P u s) (n : Nat) (loss : Bool) (hP : Sub [.regs, .media, .aud] P := by exact Sub.of ‹_› (by rfl)) : Kept P u (State.rxClear s n loss) := by
  unfold State.rxClear
  repeat' first
    | (with_reducible assumption)
    | (with_reducible apply State.wr_kept)
    | (with_reducible apply State.setRx_kept)
    | (exact Sub.of ‹_› (by rfl))
    | (simp only [Kept.mk_iff]; with_reducible apply KeptC.of)
    | (with_reducible exact Or.inr rfl)
    | (with_reducible exact Or.inr ⟨rfl, rfl⟩)
    | (exact Or.inl (Sub.mem ‹_› (by rfl)))
    | (with_reducible rfl)
    | split
    | (dsimp only)

theorem State.rxDown_kept {P : List Part} {u s : State} (hk : Kept P u s) (n : Nat) (loss : Bool) (hP : Sub [.regs, .media, .xpt, .fst, .aud] P := by exact Sub.of ‹_› (by rfl)) : Kept P u (State.rxDown s n loss) := by
  unfold State.rxDown
  repeat' first
    | (with_reducible assumption)
    | (with_reducible apply State.clkLost_kept)
    | (with_reducible apply State.sourceLost_kept)
    | (with_reducible apply State.groupShow_kept)
    | (with_reducible apply State.rxClear_kept)
    | (exact Sub.of ‹_› (by rfl))
    | (dsimp only)

theorem State.groupRelock_kept {P : List Part} {u s : State} (hk : Kept P u s) (m : Nat) (hP : Sub [.regs, .media, .xpt, .fst, .aud] P := by exact Sub.of ‹_› (by rfl)) : Kept P u (State.groupRelock s m) := by
  unfold State.groupRelock
  repeat' first
    | (with_reducible assumption)
    | (with_reducible apply State.set_kept)
    | (with_reducible apply State.rxDown_kept)
    | (exact Sub.of ‹_› (by rfl))
    | (dsimp only)

theorem State.rxLoss_kept {P : List Part} {u s : State} (hk : Kept P u s) (n : Nat) (hP : Sub [.regs, .media, .xpt, .fst, .aud, .vec] P := by exact Sub.of ‹_› (by rfl)) : Kept P u (State.rxLoss s n) := by
  unfold State.rxLoss
  repeat' first
    | (with_reducible assumption)
    | (with_reducible apply State.inc_kept)
    | (with_reducible apply State.raise_kept)
    | (with_reducible apply State.rxDown_kept)
    | (exact Sub.of ‹_› (by rfl))
    | split
    | (dsimp only)

theorem State.qeDown_kept {P : List Part} {u s : State} (hk : Kept P u s) (q : Nat) (sub : Nat) (hP : Sub [.regs, .vec] P := by exact Sub.of ‹_› (by rfl)) : Kept P u (State.qeDown s q sub) := by
  unfold State.qeDown
  repeat' first
    | (with_reducible assumption)
    | (with_reducible apply State.set_kept)
    | (with_reducible apply State.raiseBit_kept)
    | (exact Sub.of ‹_› (by rfl))
    | split
    | (dsimp only)

end Sys2Proof.Machine
end

