-- ==== Sys2Proof/Laws/KeptAudOps.lean ====
section
/-! SUPPORT. The operations of Machine/AudOps.lean keep the queue and the canonical forms, and which parts of the state they may change. -/
set_option Elab.async false
namespace Sys2Proof.Machine

theorem State.setSlot_kept {P : List Part} {u s : State} (hk : Kept P u s) (o : Nat) (x : Slot) (hP : Sub [.aud] P := by exact Sub.of ‹_› (by rfl)) : Kept P u (State.setSlot s o x) := by
  unfold State.setSlot
  repeat' first
    | (with_reducible assumption)
    | (exact Sub.of ‹_› (by rfl))
    | (simp only [Kept.mk_iff]; with_reducible apply KeptC.of)
    | (with_reducible exact Or.inr rfl)
    | (with_reducible exact Or.inr ⟨rfl, rfl⟩)
    | (exact Or.inl (Sub.mem ‹_› (by rfl)))
    | (with_reducible rfl)
    | (dsimp only)

theorem State.dropSlot_kept {P : List Part} {u s : State} (hk : Kept P u s) (o : Nat) (hP : Sub [.aud] P := by exact Sub.of ‹_› (by rfl)) : Kept P u (State.dropSlot s o) := by
  unfold State.dropSlot
  repeat' first
    | (with_reducible assumption)
    | (exact Sub.of ‹_› (by rfl))
    | (simp only [Kept.mk_iff]; with_reducible apply KeptC.of)
    | (with_reducible exact Or.inr rfl)
    | (with_reducible exact Or.inr ⟨rfl, rfl⟩)
    | (exact Or.inl (Sub.mem ‹_› (by rfl)))
    | (with_reducible rfl)
    | (dsimp only)

theorem State.growAudio_kept' {P : List Part} {u : State} {n : Nat} {s t : State} (hk : Kept P u s) (he₀ : s.growAudio n = some t) (hP : Sub [.fst] P := by exact Sub.of ‹_› (by rfl)) : Kept P u t := by
  induction n generalizing s with
  | zero => simp only [State.growAudio, Option.some.injEq] at he₀; exact he₀ ▸ hk
  | succ n ih =>
    simp only [State.growAudio] at he₀
    split at he₀
    · exact absurd he₀ (by simp)
    · split at he₀
      · exact absurd he₀ (by simp)
      · refine ih ?_ he₀
        simp only [Kept.mk_iff]; (with_reducible apply KeptC.of hk) <;> first | rfl | exact Or.inr rfl | exact Or.inr ⟨rfl, rfl⟩ | exact Or.inl (Sub.mem ‹_› (by rfl))

theorem State.fixAudio_kept' {P : List Part} {u s t : State} (hk : Kept P u s) (he₀ : s.fixAudio = some t) (hP : Sub [.fst] P := by exact Sub.of ‹_› (by rfl)) : Kept P u t := by
  unfold State.fixAudio at he₀
  dsimp only at he₀
  split at he₀
  · rw [← Option.some.inj he₀]
    simp only [Kept.mk_iff]; (with_reducible apply KeptC.of hk) <;> first | rfl | exact Or.inr rfl | exact Or.inr ⟨rfl, rfl⟩ | exact Or.inl (Sub.mem ‹_› (by rfl))
  · exact State.growAudio_kept' hk he₀

theorem State.trimAudio_kept {P : List Part} {u s : State} (hk : Kept P u s) (hP : Sub [.fst] P := by exact Sub.of ‹_› (by rfl)) : Kept P u (State.trimAudio s) :=
  Kept.getD (fun _ e => State.fixAudio_kept' hk e) hk

theorem State.afvSwitch_kept {P : List Part} {u s : State} (hk : Kept P u s) (d : Nat) (old : Option Nat) (src : Nat) (t₁ : Nat) (hP : Sub [.aud] P := by exact Sub.of ‹_› (by rfl)) : Kept P u (State.afvSwitch s d old src t₁) := by
  unfold State.afvSwitch
  repeat' first
    | (with_reducible assumption)
    | (exact Sub.of ‹_› (by rfl))
    | (simp only [Kept.mk_iff]; with_reducible apply KeptC.of)
    | (with_reducible exact Or.inr rfl)
    | (with_reducible exact Or.inr ⟨rfl, rfl⟩)
    | (exact Or.inl (Sub.mem ‹_› (by rfl)))
    | (with_reducible rfl)
    | (intro _)
    | split
    | (dsimp only)

theorem State.fadeCut_kept {P : List Part} {u s : State} (hk : Kept P u s)  (hP : Sub [.regs, .vec] P := by exact Sub.of ‹_› (by rfl)) : Kept P u (State.fadeCut s) := by
  unfold State.fadeCut
  repeat' first
    | (with_reducible assumption)
    | (with_reducible apply State.inc_kept)
    | (with_reducible apply State.raise_kept)
    | (exact Sub.of ‹_› (by rfl))
    | (dsimp only)

theorem State.fadeTo_kept {P : List Part} {u s : State} (hk : Kept P u s) (o : Nat) (r : SrcRef) (len : Nat) (law : Bool) (hP : Sub [.regs, .aud, .vec] P := by exact Sub.of ‹_› (by rfl)) : Kept P u (State.fadeTo s o r len law) := by
  unfold State.fadeTo
  repeat' first
    | (with_reducible assumption)
    | (with_reducible apply State.setSlot_kept)
    | (with_reducible apply State.fadeCut_kept)
    | (exact Sub.of ‹_› (by rfl))
    | split
    | (dsimp only)

theorem State.afvShort_kept {P : List Part} {u s : State} (hk : Kept P u s)  (hP : Sub [.regs, .vec] P := by exact Sub.of ‹_› (by rfl)) : Kept P u (State.afvShort s) := by
  unfold State.afvShort
  repeat' first
    | (with_reducible assumption)
    | (with_reducible apply State.inc_kept)
    | (with_reducible apply State.raise_kept)
    | (exact Sub.of ‹_› (by rfl))
    | (dsimp only)

theorem State.followTo_kept {P : List Part} {u s : State} (hk : Kept P u s) (o : Nat) (k : Nat) (src : Nat) (len : Nat) (law : Bool) (direct : Bool) (hP : Sub [.regs, .aud, .vec] P := by exact Sub.of ‹_› (by rfl)) : Kept P u (State.followTo s o k src len law direct) := by
  unfold State.followTo
  repeat' first
    | (with_reducible assumption)
    | (with_reducible apply State.fadeTo_kept)
    | (with_reducible apply State.afvShort_kept)
    | (exact Sub.of ‹_› (by rfl))
    | split
    | (dsimp only)

theorem State.addPath_kept {P : List Part} {u s : State} (hk : Kept P u s) (u₁ : Nat) (e : Nat) (hP : Sub [.regs, .aud, .vec] P := by exact Sub.of ‹_› (by rfl)) : Kept P u (State.addPath s u₁ e) := by
  unfold State.addPath
  repeat' first
    | (with_reducible assumption)
    | (with_reducible apply State.raise_kept)
    | (exact Sub.of ‹_› (by rfl))
    | (simp only [Kept.mk_iff]; with_reducible apply KeptC.of)
    | (with_reducible exact Or.inr rfl)
    | (with_reducible exact Or.inr ⟨rfl, rfl⟩)
    | (exact Or.inl (Sub.mem ‹_› (by rfl)))
    | (with_reducible rfl)
    | split
    | (dsimp only)

theorem State.openPath_kept {P : List Part} {u s : State} (hk : Kept P u s) (u₁ : Nat) (src : Nat) (hP : Sub [.regs, .aud, .vec] P := by exact Sub.of ‹_› (by rfl)) : Kept P u (State.openPath s u₁ src) := by
  unfold State.openPath
  repeat' first
    | (with_reducible assumption)
    | (with_reducible apply State.addPath_kept)
    | (with_reducible refine Kept.foldl ?_ ?_)
    | (exact Sub.of ‹_› (by rfl))
    | (simp only [Kept.mk_iff]; with_reducible apply KeptC.of)
    | (with_reducible exact Or.inr rfl)
    | (with_reducible exact Or.inr ⟨rfl, rfl⟩)
    | (exact Or.inl (Sub.mem ‹_› (by rfl)))
    | (with_reducible rfl)
    | (intro _)
    | (dsimp only)

theorem State.closePath_kept {P : List Part} {u s : State} (hk : Kept P u s) (u₁ : Nat) (hP : Sub [.fst, .aud] P := by exact Sub.of ‹_› (by rfl)) : Kept P u (State.closePath s u₁) := by
  unfold State.closePath
  repeat' first
    | (with_reducible assumption)
    | (with_reducible apply State.trimAudio_kept)
    | (exact Sub.of ‹_› (by rfl))
    | (simp only [Kept.mk_iff]; with_reducible apply KeptC.of)
    | (with_reducible exact Or.inr rfl)
    | (with_reducible exact Or.inr ⟨rfl, rfl⟩)
    | (exact Or.inl (Sub.mem ‹_› (by rfl)))
    | (with_reducible rfl)
    | (intro _)
    | split
    | (dsimp only)

end Sys2Proof.Machine
end

