-- ==== Sys2Proof/Laws/KeptTakeOps.lean ====
section
/-! SUPPORT. The operations of Machine/TakeOps.lean keep the queue and the canonical forms, and which parts of the state they may change. -/
set_option Elab.async false
namespace Sys2Proof.Machine

theorem State.freeCtx_kept {P : List Part} {u s : State} (hk : Kept P u s) (c : Nat) (hP : Sub [.fst, .che] P := by exact Sub.of ‹_› (by rfl)) : Kept P u (State.freeCtx s c) := by
  unfold State.freeCtx
  repeat' first
    | (with_reducible assumption)
    | (with_reducible apply State.setEng_kept)
    | (with_reducible apply State.freeBuf_kept)
    | (with_reducible apply State.freeRing_kept)
    | (refine State.freeRing_kept' ?_ (by with_reducible assumption))
    | (with_reducible apply State.dropReaderAll_kept)
    | (with_reducible refine Kept.foldl ?_ ?_)
    | (exact Sub.of ‹_› (by rfl))
    | (simp only [Kept.mk_iff]; with_reducible apply KeptC.of)
    | (with_reducible exact Or.inr rfl)
    | (with_reducible exact Or.inr ⟨rfl, rfl⟩)
    | (exact Or.inl (Sub.mem ‹_› (by rfl)))
    | (with_reducible rfl)
    | (intro _)
    | split
    | (dsimp only)

theorem State.releaseCtx_kept {P : List Part} {u s : State} (hk : Kept P u s) (c : Nat) (hP : Sub [.fst, .che] P := by exact Sub.of ‹_› (by rfl)) : Kept P u (State.releaseCtx s c) := by
  unfold State.releaseCtx
  repeat' first
    | (with_reducible assumption)
    | (with_reducible apply State.setCtx_kept)
    | (with_reducible apply State.freeCtx_kept)
    | (exact Sub.of ‹_› (by rfl))
    | split
    | (dsimp only)

theorem State.freeUnit_kept {P : List Part} {u s : State} (hk : Kept P u s) (u₁ : Nat) (hP : Sub [.fst, .sou] P := by exact Sub.of ‹_› (by rfl)) : Kept P u (State.freeUnit s u₁) := by
  unfold State.freeUnit
  repeat' first
    | (with_reducible assumption)
    | (with_reducible apply State.dropReaderAll_kept)
    | (with_reducible refine Kept.foldl ?_ ?_)
    | (exact Sub.of ‹_› (by rfl))
    | (simp only [Kept.mk_iff]; with_reducible apply KeptC.of)
    | (with_reducible exact Or.inr rfl)
    | (with_reducible exact Or.inr ⟨rfl, rfl⟩)
    | (exact Or.inl (Sub.mem ‹_› (by rfl)))
    | (with_reducible rfl)
    | (intro _)
    | (dsimp only)

theorem State.releaseChain_kept {P : List Part} {u s : State} (hk : Kept P u s) (u₁ : Nat) (hP : Sub [.regs, .xpt, .fst, .che, .sou, .aud] P := by exact Sub.of ‹_› (by rfl)) : Kept P u (State.releaseChain s u₁) := by
  unfold State.releaseChain
  repeat' first
    | (with_reducible assumption)
    | (with_reducible apply State.setRoute_kept)
    | (with_reducible apply State.setCw_kept)
    | (with_reducible apply State.setCtx_kept)
    | (with_reducible apply State.freeRing_kept)
    | (refine State.freeRing_kept' ?_ (by with_reducible assumption))
    | (with_reducible apply State.closePath_kept)
    | (with_reducible apply State.releaseCtx_kept)
    | (with_reducible apply State.freeUnit_kept)
    | (exact Sub.of ‹_› (by rfl))
    | (simp only [Kept.mk_iff]; with_reducible apply KeptC.of)
    | (with_reducible exact Or.inr rfl)
    | (with_reducible exact Or.inr ⟨rfl, rfl⟩)
    | (exact Or.inl (Sub.mem ‹_› (by rfl)))
    | (with_reducible rfl)
    | split
    | (dsimp only)

theorem State.reapChain_kept {P : List Part} {u s : State} (hk : Kept P u s) (u₁ : Nat) (hP : Sub [.regs, .xpt, .fst, .che, .sou, .aud] P := by exact Sub.of ‹_› (by rfl)) : Kept P u (State.reapChain s u₁) := by
  unfold State.reapChain
  repeat' first
    | (with_reducible assumption)
    | (with_reducible apply State.releaseChain_kept)
    | (exact Sub.of ‹_› (by rfl))
    | split
    | (dsimp only)

theorem State.chainLost_kept {P : List Part} {u s : State} (hk : Kept P u s) (u₁ : Option Nat) (hP : Sub [.regs, .xpt, .fst, .che, .sou, .aud] P := by exact Sub.of ‹_› (by rfl)) : Kept P u (State.chainLost s u₁) := by
  unfold State.chainLost
  repeat' first
    | (with_reducible assumption)
    | (with_reducible apply State.setChain_kept)
    | (with_reducible apply State.reapChain_kept)
    | (exact Sub.of ‹_› (by rfl))
    | split
    | (dsimp only)

theorem State.changeover_kept {P : List Part} {u s : State} (hk : Kept P u s) (d : Nat) (src : Nat) (kind : Nat) (t₁ : Nat) (hP : Sub [.regs, .media, .xpt, .fst, .che, .sou, .aud] P := by exact Sub.of ‹_› (by rfl)) : Kept P u (State.changeover s d src kind t₁) := by
  unfold State.changeover
  repeat' first
    | (with_reducible assumption)
    | (with_reducible apply State.set_kept)
    | (with_reducible apply State.setTx_kept)
    | (with_reducible apply State.setRoute_kept)
    | (with_reducible apply State.setCw_kept)
    | (with_reducible apply State.setChain_kept)
    | (with_reducible apply State.txRefresh_kept)
    | (with_reducible apply State.afvSwitch_kept)
    | (with_reducible apply State.reapChain_kept)
    | (exact Sub.of ‹_› (by rfl))
    | (simp only [Kept.mk_iff]; with_reducible apply KeptC.of)
    | (with_reducible exact Or.inr rfl)
    | (with_reducible exact Or.inr ⟨rfl, rfl⟩)
    | (exact Or.inl (Sub.mem ‹_› (by rfl)))
    | (with_reducible rfl)
    | split
    | (dsimp only)

theorem State.leapRateCheck_kept {P : List Part} {u s : State} (hk : Kept P u s)  (hP : Sub [.regs] P := by exact Sub.of ‹_› (by rfl)) : Kept P u (State.leapRateCheck s) := by
  unfold State.leapRateCheck
  repeat' first
    | (with_reducible assumption)
    | (with_reducible apply State.set_kept)
    | (exact Sub.of ‹_› (by rfl))
    | split
    | (dsimp only)

theorem State.salvoDone_kept {P : List Part} {u s : State} (hk : Kept P u s) (sid : Nat) (hP : Sub [.regs, .host, .vec] P := by exact Sub.of ‹_› (by rfl)) : Kept P u (State.salvoDone s sid) := by
  unfold State.salvoDone
  repeat' first
    | (with_reducible assumption)
    | (with_reducible apply State.finish_kept)
    | (exact Sub.of ‹_› (by rfl))
    | split
    | (dsimp only)

theorem State.endTake_kept {P : List Part} {u s : State} (hk : Kept P u s) (id : Nat) (t₁ : Take) (e : TakeEnd) (at_ : Nat) (hP : Sub [.regs, .host, .vec, .hostMem, .sec] P := by exact Sub.of ‹_› (by rfl)) : Kept P u (State.endTake s id t₁ e at_) := by
  unfold State.endTake
  repeat' first
    | (with_reducible assumption)
    | (with_reducible apply State.setOp_kept)
    | (with_reducible apply State.dropOp_kept)
    | (with_reducible apply State.finish_kept)
    | (with_reducible apply State.log_kept)
    | (with_reducible apply State.leapRateCheck_kept)
    | (with_reducible apply State.salvoDone_kept)
    | (exact Sub.of ‹_› (by rfl))
    | split
    | (dsimp only)

theorem State.supersede_kept {P : List Part} {u s : State} (hk : Kept P u s) (d : Nat) (except : Nat) (at_ : Nat) (hP : Sub [.regs, .xpt, .fst, .che, .sou, .aud, .host, .vec, .hostMem, .sec] P := by exact Sub.of ‹_› (by rfl)) : Kept P u (State.supersede s d except at_) := by
  unfold State.supersede
  repeat' first
    | (with_reducible assumption)
    | (with_reducible apply State.chainLost_kept)
    | (with_reducible apply State.endTake_kept)
    | (with_reducible refine Kept.foldl ?_ ?_)
    | (exact Sub.of ‹_› (by rfl))
    | (intro _)
    | split
    | (dsimp only)

theorem State.runIdle_kept {P : List Part} {u s : State} (hk : Kept P u s) (id : Nat) (t₁ : Take) (rfn : Nat) (at_ : Nat) (hP : Sub [.regs, .media, .xpt, .fst, .che, .sou, .aud, .host, .vec, .hostMem, .sec] P := by exact Sub.of ‹_› (by rfl)) : Kept P u (State.runIdle s id t₁ rfn at_) := by
  unfold State.runIdle
  repeat' first
    | (with_reducible assumption)
    | (with_reducible apply State.raise_kept)
    | (with_reducible apply State.changeover_kept)
    | (with_reducible apply State.endTake_kept)
    | (with_reducible apply State.supersede_kept)
    | (exact Sub.of ‹_› (by rfl))
    | split
    | (dsimp only)

theorem State.runTake_kept {P : List Part} {u s : State} (hk : Kept P u s) (id : Nat) (t₁ : Take) (p : Nat) (hP : Sub [.regs, .media, .xpt, .fst, .che, .sou, .aud, .host, .vec, .hostMem, .sec] P := by exact Sub.of ‹_› (by rfl)) : Kept P u (State.runTake s id t₁ p) := by
  unfold State.runTake
  repeat' first
    | (with_reducible assumption)
    | (with_reducible apply State.raise_kept)
    | (with_reducible apply State.setOp_kept)
    | (with_reducible apply State.chainLost_kept)
    | (with_reducible apply State.changeover_kept)
    | (with_reducible apply State.endTake_kept)
    | (with_reducible apply State.supersede_kept)
    | (exact Sub.of ‹_› (by rfl))
    | split
    | (dsimp only)

theorem State.runUntimed_kept {P : List Part} {u s : State} (hk : Kept P u s) (id : Nat) (t₁ : Take) (at_ : Nat) (hP : Sub [.regs, .media, .xpt, .fst, .che, .sou, .aud, .host, .vec, .hostMem, .sec] P := by exact Sub.of ‹_› (by rfl)) : Kept P u (State.runUntimed s id t₁ at_) := by
  unfold State.runUntimed
  repeat' first
    | (with_reducible assumption)
    | (with_reducible apply State.raise_kept)
    | (with_reducible apply State.setTx_kept)
    | (with_reducible apply State.txRefresh_kept)
    | (with_reducible apply State.changeover_kept)
    | (with_reducible apply State.endTake_kept)
    | (exact Sub.of ‹_› (by rfl))
    | split
    | (dsimp only)

end Sys2Proof.Machine
end

