-- ==== Sys2Proof/Laws/KeptDesc.lean ====
section
/-! SUPPORT. The operations of Machine/Desc.lean keep the queue and the canonical forms, and which parts of the state they may change. -/
set_option Elab.async false
namespace Sys2Proof.Machine

theorem State.popFetched_kept {P : List Part} {u s : State} (hk : Kept P u s) (n : Nat) (hP : Sub [.host] P := by exact Sub.of ‹_› (by rfl)) : Kept P u (State.popFetched s n) := by
  unfold State.popFetched
  repeat' first
    | (with_reducible assumption)
    | (with_reducible apply State.setRst_kept)
    | (exact Sub.of ‹_› (by rfl))
    | (simp only [Kept.mk_iff]; with_reducible apply KeptC.of)
    | (with_reducible exact Or.inr rfl)
    | (with_reducible exact Or.inr ⟨rfl, rfl⟩)
    | (exact Or.inl (Sub.mem ‹_› (by rfl)))
    | (with_reducible rfl)
    | (intro _)
    | split
    | (dsimp only)

theorem State.recordSeq_kept {P : List Part} {u s : State} (hk : Kept P u s) (k : Nat) (v : Nat) (hP : Sub [.regs, .axl] P := by exact Sub.of ‹_› (by rfl)) : Kept P u (State.recordSeq s k v) := by
  unfold State.recordSeq
  repeat' first
    | (with_reducible assumption)
    | (with_reducible apply State.wr2_kept)
    | (with_reducible apply State.change_kept)
    | (exact Sub.of ‹_› (by rfl))
    | (dsimp only)

theorem State.sigFail_kept {P : List Part} {u s : State} (hk : Kept P u s)  (hP : Sub [.regs, .vec] P := by exact Sub.of ‹_› (by rfl)) : Kept P u (State.sigFail s) := by
  unfold State.sigFail
  repeat' first
    | (with_reducible assumption)
    | (with_reducible apply State.inc_kept)
    | (with_reducible apply State.raise_kept)
    | (exact Sub.of ‹_› (by rfl))
    | (dsimp only)

theorem State.checkBlob_kept {P : List Part} {u s : State} (hk : Kept P u s) (b : Blob) (msg : List Byte) (hP : Sub [.regs, .vec, .axl] P := by exact Sub.of ‹_› (by rfl)) : Kept P u (State.checkBlob s b msg).2 := by
  unfold State.checkBlob
  repeat' first
    | (with_reducible assumption)
    | (with_reducible apply State.raise_kept)
    | (with_reducible apply State.recordSeq_kept)
    | (with_reducible apply State.sigFail_kept)
    | (exact Sub.of ‹_› (by rfl))
    | split
    | (dsimp only)

theorem State.checkBlob_kept' {P : List Part} {u s t : State} {r₀ : Nat} {b : Blob} {msg : List Byte} (hk : Kept P u s) (he₀ : (State.checkBlob s b msg) = (r₀, t)) (hP : Sub [.regs, .vec, .axl] P := by exact Sub.of ‹_› (by rfl)) : Kept P u t := by
  have := State.checkBlob_kept hk b msg
  rw [he₀] at this; exact this

theorem State.raiseOver_kept {P : List Part} {u s : State} (hk : Kept P u s)  (hP : Sub [.regs, .hsf] P := by exact Sub.of ‹_› (by rfl)) : Kept P u (State.raiseOver s) := by
  unfold State.raiseOver
  repeat' first
    | (with_reducible assumption)
    | (with_reducible apply State.set_kept)
    | (exact Sub.of ‹_› (by rfl))
    | (simp only [Kept.mk_iff]; with_reducible apply KeptC.of)
    | (with_reducible exact Or.inr rfl)
    | (with_reducible exact Or.inr ⟨rfl, rfl⟩)
    | (exact Or.inl (Sub.mem ‹_› (by rfl)))
    | (with_reducible rfl)
    | split
    | (dsimp only)

theorem State.lowerStop_kept {P : List Part} {u s : State} (hk : Kept P u s)  (hP : Sub [.regs, .hsf] P := by exact Sub.of ‹_› (by rfl)) : Kept P u (State.lowerStop s) := by
  unfold State.lowerStop
  repeat' first
    | (with_reducible assumption)
    | (with_reducible apply State.set_kept)
    | (exact Sub.of ‹_› (by rfl))
    | (simp only [Kept.mk_iff]; with_reducible apply KeptC.of)
    | (with_reducible exact Or.inr rfl)
    | (with_reducible exact Or.inr ⟨rfl, rfl⟩)
    | (exact Or.inl (Sub.mem ‹_› (by rfl)))
    | (with_reducible rfl)
    | split
    | (dsimp only)

theorem State.accept_kept {P : List Part} {u s' : State} (hk : Kept P u s')  (s : State) (hP : Sub [.regs, .hsf] P := by exact Sub.of ‹_› (by rfl)) : Kept P u (State.accept s s') := by
  unfold State.accept
  repeat' first
    | (with_reducible assumption)
    | (with_reducible apply State.raiseOver_kept)
    | (with_reducible apply State.lowerStop_kept)
    | (exact Sub.of ‹_› (by rfl))
    | split
    | (dsimp only)

/-- `Kept` of the state that an outcome of an opcode's own checks carries. -/
def Adm.Kept (P : List Part) (u : State) : Adm → Prop
  | .no _ _ => True
  | .late _ _ s => Machine.Kept P u s
  | .wait => True
  | .deny _ s => Machine.Kept P u s
  | .yes s => Machine.Kept P u s

theorem Adm.kept_no {P : List Part} (u : State) (a b : Nat) : Adm.Kept P u (.no a b) := trivial

theorem Adm.kept_bad {P : List Part} (u : State) (k : Nat) : Adm.Kept P u (bad k) := trivial

theorem Adm.kept_badData {P : List Part} (u : State) (k : Option Nat) : Adm.Kept P u (badData k) := trivial

theorem Adm.kept_short {P : List Part} (u : State) (k : Nat) : Adm.Kept P u (short k) := trivial

theorem Adm.kept_denied {P : List Part} (u : State) (k : Nat) : Adm.Kept P u (denied k) := trivial

theorem Adm.kept_wait {P : List Part} (u : State) : Adm.Kept P u .wait := trivial

theorem Adm.kept_yes {P : List Part} {u s : State} (h : Machine.Kept P u s) : Adm.Kept P u (.yes s) := h

theorem Adm.kept_late {P : List Part} {u s : State} (h : Machine.Kept P u s) (c : Bool) (r : Nat) : Adm.Kept P u (.late c r s) := h

theorem Adm.kept_deny {P : List Part} {u s : State} (h : Machine.Kept P u s) (w : Nat) : Adm.Kept P u (.deny w s) := h

theorem Kept.iteP {P : List Part} {u : State} {p : Prop} [Decidable p] {a b : Nat × Nat × State} (h : p → Kept P u a.2.2) (k : ¬p → Kept P u b.2.2) :
    Kept P u (if p then a else b).2.2 := by
  split
  · exact h ‹_›
  · exact k ‹_›

/-- A let over a pair of numbers and a state. -/
theorem Kept.sg {P : List Part} {u : State} {g : Nat × Nat × State} {f : Nat × Nat × State → State} (h : Kept P u g.2.2)
    (k : ∀ x : Nat × Nat × State, Kept P u x.2.2 → Kept P u (f x)) : Kept P u (let sg := g; f sg) := k g h

theorem settle_kept {P : List Part} {u s0 s : State} (h : Hdr) {a : Adm} (h0 : Kept P u s0) (hs : Kept P u s) (ha : a.Kept P u) (hP : Sub [.regs, .host, .hsf] P := by exact Sub.of ‹_› (by rfl)) :
    Kept P u (settle h s0 s a) := by
  cases a <;> unfold settle <;> dsimp only
  · exact State.refuse_kept (State.raiseOver_kept (Kept.ite (fun _ => State.lowerStop_kept hs) fun _ => hs)) ..
  · exact State.refuseLate_kept (State.raiseOver_kept ha) ..
  · refine State.set_kept ?_ _ _ _
    simp only [Kept.mk_iff]
    (with_reducible apply KeptC.of h0) <;> first | rfl | exact Or.inr rfl | exact Or.inr ⟨rfl, rfl⟩ | exact Or.inl (Sub.mem ‹_› (by rfl))
  · exact State.refuse_kept (State.raiseOver_kept ha) ..
  · split
    · exact State.accept_kept ha _
    · exact State.refuse_kept (State.raiseOver_kept hs) ..

theorem State.signCheck_kept {P : List Part} {u s : State} (hk : Kept P u s) (r : DescRule) (h : Hdr) (raw : List Byte) (hP : Sub [.regs, .vec, .axl] P := by exact Sub.of ‹_› (by rfl)) : Kept P u (State.signCheck s r h raw).2.2 := by
  unfold State.signCheck
  refine Kept.iteP (fun _ => hk) fun _ => Kept.iteP (fun _ => Kept.iteP (fun _ => hk) fun _ => ?_) fun _ => Kept.iteP (fun _ => hk) fun _ => hk
  generalize r.blobBad h = bb
  generalize h.blob = bl
  cases bb with
  | some k => exact hk
  | none =>
    cases bl with
    | none => exact hk
    | some b =>
      have h3 := State.checkBlob_kept hk b (signedMsg b raw r.host)
      dsimp only
      generalize State.checkBlob s b (signedMsg b raw r.host) = p at h3 ⊢
      obtain ⟨w, q⟩ := p
      exact Kept.iteP (fun _ => h3) fun _ => h3

/-- `Kept` of the state that the common checks carry. -/
def Vet.Kept (P : List Part) (u : State) : Vet → Prop
  | .left => True
  | .out s => Machine.Kept P u s
  | .pass s => Machine.Kept P u s

theorem Vet.ite_kept {P : List Part} {u : State} {p : Prop} [Decidable p] {a b : Vet} (h : p → a.Kept P u) (k : ¬p → b.Kept P u) : (if p then a else b).Kept P u := by
  split
  · exact h ‹_›
  · exact k ‹_›

theorem State.vetRest_kept {P : List Part} {u s : State} (hk : Kept P u s) (r : DescRule) (h : Hdr) (raw : List Byte) (hP : Sub [.regs, .host, .vec, .axl] P := by exact Sub.of ‹_› (by rfl)) : (s.vetRest r h raw).Kept P u := by
  unfold State.vetRest
  extract_lets sg
  refine Vet.ite_kept (fun _ => State.refuse_kept hk ..) fun _ => Vet.ite_kept (fun _ => State.refuse_kept hk ..) fun _ => ?_
  generalize r.fault = fl
  cases fl with
  | some k => exact State.refuse_kept hk ..
  | none =>
    have hg : Machine.Kept P u sg.2.2 := State.signCheck_kept hk r h raw
    exact Vet.ite_kept (fun _ => State.refuse_kept hg ..) fun _ => Vet.ite_kept (fun _ => State.refuse_kept hg ..) fun _ =>
      Vet.ite_kept (fun _ => State.refuse_kept hg ..) fun _ => Vet.ite_kept (fun _ => State.refuse_kept hg ..) fun _ => hg

theorem State.vet_kept {P : List Part} {u s : State} (hk : Kept P u s) (r : DescRule) (h : Hdr) (hP : Sub [.regs, .host, .vec, .axl] P := by exact Sub.of ‹_› (by rfl)) : (s.vet r h).Kept P u := by
  unfold State.vet
  refine Vet.ite_kept (fun _ => trivial) fun _ => ?_
  have h1 : Kept P u ((s.at_ h.t).popFetched h.ring.val) := State.popFetched_kept (State.at__kept hk _) _
  generalize (s.at_ h.t).popFetched h.ring.val = v at h1 ⊢
  extract_lets raw v'
  generalize v'.formBad r h raw = fb
  cases fb with
  | some k => exact State.refuse_kept h1 ..
  | none => exact State.vetRest_kept h1 r h raw

theorem State.desc_kept {P : List Part} {u s : State} (r : DescRule) (h : Hdr) {body : State → Adm} (hk : Kept P u s)
    (hb : ∀ v, Kept P u v → (body v).Kept P u) (hP : Sub [.regs, .host, .vec, .axl, .hsf] P := by exact Sub.of ‹_› (by rfl)) : Kept P u (State.desc s r h body) := by
  unfold State.desc
  have hv := State.vet_kept hk r h
  generalize s.vet r h = v at hv ⊢
  cases v with
  | left => exact hk
  | out t => exact State.raiseOver_kept hv
  | pass t => exact settle_kept h hk hv (hb _ hv)

theorem Fit.adm_kept {P : List Part} {u : State} {a : Adm} (h : a.Kept P u) (f : Fit) : (f.adm a).Kept P u := by
  cases f with
  | fits => exact h
  | short c => exact Adm.kept_no u 3 c
  | raise _ => exact Adm.kept_wait u

theorem admitFit_kept {P : List Part} {u s s' : State} {k : State → Adm} (hk : (k s').Kept P u) (hP : Sub [] P := by exact Sub.of ‹_› (by rfl)) : (admitFit s s' k).Kept P u := Fit.adm_kept hk _

end Sys2Proof.Machine
end

