-- ==== Sys2Proof/Laws/KeptCheOps.lean ====
section
/-! SUPPORT. The operations of Machine/CheOps.lean keep the queue and the canonical forms, and which parts of the state they may change. -/
set_option Elab.async false
namespace Sys2Proof.Machine

theorem Build.ring_kept {P : List Part} {u : State} {b : Build} (hk : Kept P u b.s) (q : RingReq) (hP : Sub [.fst] P := by exact Sub.of ‹_› (by rfl)) : Kept P u (b.ring q).2.s := by
  unfold Build.ring
  split
  · exact State.allocRing_kept' hk ‹_›
  · exact hk

theorem State.loadLuts_kept {P : List Part} {u s : State} (hk : Kept P u s) (e : Nat) (l : List (Nat × List Nat)) (hP : Sub [.che] P := by exact Sub.of ‹_› (by rfl)) : Kept P u (State.loadLuts s e l) := by
  unfold State.loadLuts
  repeat' first
    | (with_reducible assumption)
    | (with_reducible apply State.setEng_kept)
    | (with_reducible refine Kept.foldl ?_ ?_)
    | (exact Sub.of ‹_› (by rfl))
    | (intro _)
    | (dsimp only)

theorem Build.ctx_kept {P : List Part} {u : State} {b : Build} (hk : Kept P u b.s) (q : CtxReq) (hP : Sub [.fst, .che] P := by exact Sub.of ‹_› (by rfl)) : Kept P u (b.ctx q).2.2.s := by
  unfold Build.ctx
  extract_lets x s load e slot b1 c k
  have hb : Kept P u b1.s := by simp only [b1]; split <;> exact hk
  clear_value b1
  have hr := Build.ring_kept hb ⟨q.spec.depth, q.spec.outFmt, q.spec.outPix, 0, q.chain⟩
  generalize b1.ring ⟨q.spec.depth, q.spec.outFmt, q.spec.outPix, 0, q.chain⟩ = p at hr ⊢
  obtain ⟨r, b2⟩ := p
  dsimp only at hr ⊢
  split
  · exact hr
  · rename_i w s' he
    have hs := State.allocStore_kept' hr he
    exact State.loadLuts_kept (State.setCtx_kept (Kept.foldl hs fun v y hv => State.addReader_kept hv _ _) _ _) _ _

theorem Adm.ite {P : List Part} {u : State} {p : Prop} [Decidable p] {a b : Adm} (h : p → a.Kept P u) (k : ¬p → b.Kept P u) : (if p then a else b).Kept P u := by
  split
  · exact h ‹_›
  · exact k ‹_›

theorem Build.settle_kept {P : List Part} {u s : State} {b : Build} {k : State → Adm} (hk : (k b.s).Kept P u) (hP : Sub [] P := by exact Sub.of ‹_› (by rfl)) : (Build.settle s b k).Kept P u := by
  unfold Build.settle
  generalize b.codes.min? = m
  cases m with
  | none => exact admitFit_kept hk
  | some c =>
    exact Adm.ite (fun _ => Adm.kept_short u _) fun _ => Adm.ite (fun _ => Adm.kept_short u _) fun _ => Adm.kept_short u _

theorem State.setDesc_kept {P : List Part} {u s : State} (hk : Kept P u s) (r : Nat) (d : Nat) (hP : Sub [.fst] P := by exact Sub.of ‹_› (by rfl)) : Kept P u (State.setDesc s r d) := by
  unfold State.setDesc
  repeat' first
    | (with_reducible assumption)
    | (with_reducible apply State.setRing_kept)
    | (exact Sub.of ‹_› (by rfl))
    | split
    | (dsimp only)

theorem Build.chain_kept {P : List Part} {u : State} {b : Build} (hk : Kept P u b.s) (q : ChainSpec) (hP : Sub [.regs, .xpt, .fst, .che, .sou, .aud, .vec] P := by exact Sub.of ‹_› (by rfl)) : Kept P u (b.chain q).2.s := by
  have fin : ∀ (w : State) (set : SouSet) (un k cap : Nat) (c out : Option Nat), Kept P u w →
      Kept P u (((((w.setCw k { ring := some cap, st := 0, filling := none, start := 0 }).setRoute (344 + k) (some ⟨1, q.src⟩)).setUnit un
        { alloc := true, run := true, active := set, pending := set, committed := true }).setChain un
          ⟨q.src, k, c, cap, out, q.persist, false, false⟩).openPath un q.src) := fun w set un k cap c out hw =>
    State.openPath_kept (State.setChain_kept (State.setUnit_kept (State.setRoute_kept (State.setCw_kept hw _ _) _ _) _ _) _ _) _ _
  unfold Build.chain
  have hr := Build.ring_kept hk ⟨q.depth, b.s.srcFmt q.src, q.pix, b.s.srcDesc q.src, true⟩
  cases q.conv with
  | none => exact fin _ _ _ _ _ _ _ hr
  | some v => exact fin _ _ _ _ _ _ _ (State.setDesc_kept (Build.ctx_kept hr _) _ _)

theorem State.letGo_kept {P : List Part} {u s : State} (hk : Kept P u s) (c : Nat) (hP : Sub [.fst] P := by exact Sub.of ‹_› (by rfl)) : Kept P u (State.letGo s c) := by
  unfold State.letGo
  repeat' first
    | (with_reducible assumption)
    | (with_reducible apply State.dropReader_kept)
    | (exact Sub.of ‹_› (by rfl))
    | split
    | (dsimp only)

theorem State.evict_kept {P : List Part} {u s : State} (hk : Kept P u s) (c : Nat) (hP : Sub [.regs, .fst, .che, .vec] P := by exact Sub.of ‹_› (by rfl)) : Kept P u (State.evict s c).2 := by
  unfold State.evict
  repeat' first
    | (with_reducible assumption)
    | (with_reducible apply State.raise_kept)
    | (with_reducible apply State.setCtx_kept)
    | (with_reducible apply State.letGo_kept)
    | (exact Sub.of ‹_› (by rfl))
    | (intro _)
    | split
    | (dsimp only)

theorem State.evict_kept' {P : List Part} {u s t : State} {r₀ : Bool} {c : Nat} (hk : Kept P u s) (he₀ : (State.evict s c) = (r₀, t)) (hP : Sub [.regs, .fst, .che, .vec] P := by exact Sub.of ‹_› (by rfl)) : Kept P u t := by
  have := State.evict_kept hk c
  rw [he₀] at this; exact this

theorem State.evictAll_kept {P : List Part} {u s : State} (hk : Kept P u s) (n : Nat) (hP : Sub [.regs, .fst, .che, .vec] P := by exact Sub.of ‹_› (by rfl)) : Kept P u (State.evictAll s n).2 := by
  unfold State.evictAll
  exact Kept.foldl_snd (State.setEng_kept hk _ _) fun v x hv => State.evict_kept hv _

theorem State.evictAll_kept' {P : List Part} {u s t : State} {r₀ : Bool} {e : Nat} (hk : Kept P u s) (he₀ : (State.evictAll s e) = (r₀, t)) (hP : Sub [.regs, .fst, .che, .vec] P := by exact Sub.of ‹_› (by rfl)) : Kept P u t := by
  have := State.evictAll_kept hk e
  rw [he₀] at this; exact this

theorem State.renumber_kept {P : List Part} {u s : State} (hk : Kept P u s) (c : Nat) (c' : Nat) (hP : Sub [.fst, .che] P := by exact Sub.of ‹_› (by rfl)) : Kept P u (State.renumber s c c') := by
  unfold State.renumber
  repeat' first
    | (with_reducible assumption)
    | (exact Sub.of ‹_› (by rfl))
    | (simp only [Kept.mk_iff]; with_reducible apply KeptC.of)
    | (with_reducible exact Or.inr rfl)
    | (with_reducible exact Or.inr ⟨rfl, rfl⟩)
    | (exact Or.inl (Sub.mem ‹_› (by rfl)))
    | (with_reducible rfl)
    | (intro _)
    | split
    | (dsimp only)

end Sys2Proof.Machine
end

