-- ==== Sys2Proof/Laws/KeptFaultOps.lean ====
section
/-! SUPPORT. The operations of Machine/FaultOps.lean keep the queue and the canonical forms, and which parts of the state they may change. -/
set_option Elab.async false
namespace Sys2Proof.Machine

theorem State.gateUnit_kept {P : List Part} {u s : State} (hk : Kept P u s) (u₁ : Nat) (hP : Sub [.regs, .media, .xpt, .sou, .vec] P := by exact Sub.of ‹_› (by rfl)) : Kept P u (State.gateUnit s u₁) := by
  unfold State.gateUnit
  repeat' first
    | (with_reducible assumption)
    | (with_reducible apply State.raise_kept)
    | (with_reducible apply State.setUnit_kept)
    | (with_reducible apply State.refreshSrc_kept)
    | (exact Sub.of ‹_› (by rfl))
    | split
    | (dsimp only)

theorem State.audStop_kept {P : List Part} {u s : State} (hk : Kept P u s) (t₁ : Nat) (hP : Sub [.regs, .aud, .vec] P := by exact Sub.of ‹_› (by rfl)) : Kept P u (State.audStop s t₁) := by
  unfold State.audStop
  repeat' first
    | (with_reducible assumption)
    | (with_reducible apply State.set_kept)
    | (with_reducible apply State.raise_kept)
    | (with_reducible apply State.setClk_kept)
    | (with_reducible refine Kept.foldl ?_ ?_)
    | (exact Sub.of ‹_› (by rfl))
    | (intro _)
    | split
    | (dsimp only)

theorem State.audStart_kept {P : List Part} {u s : State} (hk : Kept P u s) (t₁ : Nat) (hP : Sub [.regs, .aud] P := by exact Sub.of ‹_› (by rfl)) : Kept P u (State.audStart s t₁) := by
  unfold State.audStart
  repeat' first
    | (with_reducible assumption)
    | (with_reducible apply State.set_kept)
    | (with_reducible apply State.setClk_kept)
    | (with_reducible refine Kept.foldl ?_ ?_)
    | (exact Sub.of ‹_› (by rfl))
    | (intro _)
    | split
    | (dsimp only)

theorem State.synLanes_kept {P : List Part} {u s : State} (hk : Kept P u s) (t₁ : Nat) (hP : Sub [.regs] P := by exact Sub.of ‹_› (by rfl)) : Kept P u (State.synLanes s t₁) := by
  unfold State.synLanes
  repeat' first
    | (with_reducible assumption)
    | (with_reducible apply State.txRefresh_kept)
    | (with_reducible refine Kept.foldl ?_ ?_)
    | (exact Sub.of ‹_› (by rfl))
    | (intro _)
    | (dsimp only)

theorem State.synStop_kept {P : List Part} {u s : State} (hk : Kept P u s) (t₁ : Nat) (st : Nat) (hP : Sub [.regs, .media, .xpt, .sou, .aud, .vec] P := by exact Sub.of ‹_› (by rfl)) : Kept P u (State.synStop s t₁ st) := by
  unfold State.synStop
  repeat' first
    | (with_reducible assumption)
    | (with_reducible apply State.set_kept)
    | (with_reducible apply State.gateUnit_kept)
    | (with_reducible apply State.audStop_kept)
    | (with_reducible apply State.synLanes_kept)
    | (with_reducible refine Kept.foldl ?_ ?_)
    | (exact Sub.of ‹_› (by rfl))
    | (intro _)
    | (dsimp only)

theorem State.setVState_kept {P : List Part} {u s : State} (hk : Kept P u s) (v : Nat) (hP : Sub [.regs] P := by exact Sub.of ‹_› (by rfl)) : Kept P u (State.setVState s v) := by
  unfold State.setVState
  repeat' first
    | (with_reducible assumption)
    | (with_reducible apply State.set_kept)
    | (exact Sub.of ‹_› (by rfl))
    | (dsimp only)

theorem State.holdBlock_kept {P : List Part} {u s : State} (hk : Kept P u s) (c : Nat) (i : Nat) (hP : Sub [.regs, .media, .xpt, .fst, .sou, .aud, .vec, .syn] P := by exact Sub.of ‹_› (by rfl)) : Kept P u (State.holdBlock s c i) := by
  unfold State.holdBlock
  repeat' first
    | (with_reducible assumption)
    | (with_reducible apply State.wr_kept)
    | (with_reducible apply State.set_kept)
    | (with_reducible apply State.setCw_kept)
    | (with_reducible apply State.setSyn_kept)
    | (with_reducible apply State.synEnd_kept)
    | (with_reducible apply State.txRefresh_kept)
    | (with_reducible apply State.setClk_kept)
    | (with_reducible apply State.rxDown_kept)
    | (with_reducible apply State.qeDown_kept)
    | (with_reducible apply State.gateUnit_kept)
    | (with_reducible apply State.synStop_kept)
    | (with_reducible refine Kept.foldl ?_ ?_)
    | (exact Sub.of ‹_› (by rfl))
    | (intro _)
    | split
    | (dsimp only)

theorem State.copyGran_kept {P : List Part} {u s : State} (hk : Kept P u s) (g : Nat) (k : Nat) (hP : Sub [.fst, .fstMem] P := by exact Sub.of ‹_› (by rfl)) : Kept P u (State.copyGran s g k) := by
  unfold State.copyGran
  repeat' first
    | (with_reducible assumption)
    | (with_reducible refine Kept.foldl ?_ ?_)
    | (exact Sub.of ‹_› (by rfl))
    | (simp only [Kept.mk_iff]; with_reducible apply KeptC.of_mem)
    | (with_reducible exact Or.inr rfl)
    | (with_reducible exact Or.inr ⟨rfl, rfl⟩)
    | (exact Or.inl (Sub.mem ‹_› (by rfl)))
    | (with_reducible rfl)
    | (with_reducible exact id)
    | (with_reducible exact memWrites_wf _ _ _)
    | (with_reducible exact memWrite_wf _ _ _)
    | (exact foldWrite_wf _ _ _ _)
    | (exact foldSkip_wf _ _ _ _ _ ‹_›)
    | (exact foldWrite_wf _ _ _ _ (tabWf_filter _ _ _ ‹_›))
    | (intro _)
    | (dsimp only)

theorem State.moveGran_kept {P : List Part} {u s : State} (hk : Kept P u s) (g : Nat) (hP : Sub [.regs, .fst, .fstMem, .vec] P := by exact Sub.of ‹_› (by rfl)) : Kept P u (State.moveGran s g).2 := by
  unfold State.moveGran
  repeat' first
    | (with_reducible assumption)
    | (with_reducible apply State.set_kept)
    | (with_reducible apply State.raise_kept)
    | (with_reducible apply State.setBuf_kept)
    | (with_reducible apply State.copyGran_kept)
    | (exact Sub.of ‹_› (by rfl))
    | (simp only [Kept.mk_iff]; with_reducible apply KeptC.of)
    | (with_reducible exact Or.inr rfl)
    | (with_reducible exact Or.inr ⟨rfl, rfl⟩)
    | (exact Or.inl (Sub.mem ‹_› (by rfl)))
    | (with_reducible rfl)
    | (intro _)
    | split
    | (dsimp only)

theorem State.moveGran_kept' {P : List Part} {u s t : State} {r₀ : Nat} {g : Nat} (hk : Kept P u s) (he₀ : (State.moveGran s g) = (r₀, t)) (hP : Sub [.regs, .fst, .fstMem, .vec] P := by exact Sub.of ‹_› (by rfl)) : Kept P u t := by
  have := State.moveGran_kept hk g
  rw [he₀] at this; exact this

theorem State.fenceGran_kept {P : List Part} {u s : State} (hk : Kept P u s) (g : Nat) (hP : Sub [.regs, .fst, .fstMem, .vec] P := by exact Sub.of ‹_› (by rfl)) : Kept P u (State.fenceGran s g).2 := by
  unfold State.fenceGran
  repeat' first
    | (with_reducible assumption)
    | (with_reducible apply State.raise_kept)
    | (with_reducible apply State.moveGran_kept)
    | (refine State.moveGran_kept' ?_ (by with_reducible assumption))
    | (exact Sub.of ‹_› (by rfl))
    | (simp only [Kept.mk_iff]; with_reducible apply KeptC.of)
    | (with_reducible exact Or.inr rfl)
    | (with_reducible exact Or.inr ⟨rfl, rfl⟩)
    | (exact Or.inl (Sub.mem ‹_› (by rfl)))
    | (with_reducible rfl)
    | split
    | (dsimp only)

theorem State.fenceGran_kept' {P : List Part} {u s t : State} {r₀ : Nat} {g : Nat} (hk : Kept P u s) (he₀ : (State.fenceGran s g) = (r₀, t)) (hP : Sub [.regs, .fst, .fstMem, .vec] P := by exact Sub.of ‹_› (by rfl)) : Kept P u t := by
  have := State.fenceGran_kept hk g
  rw [he₀] at this; exact this

theorem State.fencePc_kept {P : List Part} {u s : State} (hk : Kept P u s) (n : Nat) (hP : Sub [.regs, .fst, .fstMem, .vec] P := by exact Sub.of ‹_› (by rfl)) : Kept P u (State.fencePc s n).2 := by
  have h1 : Kept P u { s with fst := { s.fst with fencedP := s.fst.fencedP ++ [n] } } := by
    simp only [Kept.mk_iff]; (with_reducible apply KeptC.of hk) <;> first | rfl | exact Or.inr rfl | exact Or.inr ⟨rfl, rfl⟩ | exact Or.inl (Sub.mem ‹_› (by rfl))
  unfold State.fencePc
  extract_lets src v gs
  have h3 : Kept P u v := h1
  clear_value v
  have h2 : Kept P u (gs.foldl (fun (a : Nat × State) g => match a.2.moveGran g with
      | (d, s) => (max a.1 d, s)) (0, v)).2 := Kept.foldl_snd (f := fun (a : Nat × State) g => match a.2.moveGran g with
      | (d, s) => (max a.1 d, s)) h3 fun a x ha => State.moveGran_kept ha x
  generalize List.foldl _ _ gs = z at h2 ⊢
  obtain ⟨d, w⟩ := z
  exact State.raise_kept h2 _ _

theorem State.spareFor_kept {P : List Part} {u s : State} (hk : Kept P u s) (k : Nat) (b : Nat) (hP : Sub [.hsf] P := by exact Sub.of ‹_› (by rfl)) : Kept P u (State.spareFor s k b) := by
  unfold State.spareFor
  repeat' first
    | (with_reducible assumption)
    | (exact Sub.of ‹_› (by rfl))
    | (simp only [Kept.mk_iff]; with_reducible apply KeptC.of)
    | (with_reducible exact Or.inr rfl)
    | (with_reducible exact Or.inr ⟨rfl, rfl⟩)
    | (exact Or.inl (Sub.mem ‹_› (by rfl)))
    | (with_reducible rfl)
    | (dsimp only)

theorem State.lessSpare_kept {P : List Part} {u s : State} (hk : Kept P u s) (q : Nat) (hP : Sub [.regs] P := by exact Sub.of ‹_› (by rfl)) : Kept P u (State.lessSpare s q) := by
  unfold State.lessSpare
  repeat' first
    | (with_reducible assumption)
    | (with_reducible apply State.set_kept)
    | (exact Sub.of ‹_› (by rfl))
    | split
    | (dsimp only)

theorem State.useSpare_kept {P : List Part} {u s : State} (hk : Kept P u s) (b : Nat) (hP : Sub [.regs, .hsf] P := by exact Sub.of ‹_› (by rfl)) : Kept P u (State.useSpare s b).2 := by
  unfold State.useSpare
  repeat' first
    | (with_reducible assumption)
    | (with_reducible apply State.set_kept)
    | (with_reducible apply State.spareFor_kept)
    | (with_reducible apply State.lessSpare_kept)
    | (exact Sub.of ‹_› (by rfl))
    | split
    | (dsimp only)

theorem State.useSpare_kept' {P : List Part} {u s t : State} {r₀ : Bool} {b : Nat} (hk : Kept P u s) (he₀ : (State.useSpare s b) = (r₀, t)) (hP : Sub [.regs, .hsf] P := by exact Sub.of ‹_› (by rfl)) : Kept P u t := by
  have := State.useSpare_kept hk b
  rw [he₀] at this; exact this

theorem State.returnSpare_kept {P : List Part} {u s : State} (hk : Kept P u s) (b : Nat) (hP : Sub [.regs, .hsf] P := by exact Sub.of ‹_› (by rfl)) : Kept P u (State.returnSpare s b) := by
  unfold State.returnSpare
  repeat' first
    | (with_reducible assumption)
    | (with_reducible apply State.set_kept)
    | (exact Sub.of ‹_› (by rfl))
    | (simp only [Kept.mk_iff]; with_reducible apply KeptC.of)
    | (with_reducible exact Or.inr rfl)
    | (with_reducible exact Or.inr ⟨rfl, rfl⟩)
    | (exact Or.inl (Sub.mem ‹_› (by rfl)))
    | (with_reducible rfl)
    | split
    | (dsimp only)

theorem State.moveRib_kept {P : List Part} {u s : State} (hk : Kept P u s) (b : Nat) (hP : Sub [.regs, .vec, .hsf] P := by exact Sub.of ‹_› (by rfl)) : Kept P u (State.moveRib s b).2 := by
  unfold State.moveRib
  repeat' first
    | (with_reducible assumption)
    | (with_reducible apply State.raise_kept)
    | (with_reducible apply State.useSpare_kept)
    | (refine State.useSpare_kept' ?_ (by with_reducible assumption))
    | (exact Sub.of ‹_› (by rfl))
    | split
    | (dsimp only)

theorem State.moveRib_kept' {P : List Part} {u s t : State} {r₀ : Nat} {b : Nat} (hk : Kept P u s) (he₀ : (State.moveRib s b) = (r₀, t)) (hP : Sub [.regs, .vec, .hsf] P := by exact Sub.of ‹_› (by rfl)) : Kept P u t := by
  have := State.moveRib_kept hk b
  rw [he₀] at this; exact this

theorem State.fenceRib_kept {P : List Part} {u s : State} (hk : Kept P u s) (b : Nat) (hP : Sub [.regs, .vec, .hsf] P := by exact Sub.of ‹_› (by rfl)) : Kept P u (State.fenceRib s b).2 := by
  unfold State.fenceRib
  repeat' first
    | (with_reducible assumption)
    | (with_reducible apply State.set_kept)
    | (with_reducible apply State.raise_kept)
    | (with_reducible apply State.spareFor_kept)
    | (with_reducible apply State.lessSpare_kept)
    | (with_reducible apply State.moveRib_kept)
    | (refine State.moveRib_kept' ?_ (by with_reducible assumption))
    | (exact Sub.of ‹_› (by rfl))
    | split
    | (dsimp only)

theorem State.fenceRib_kept' {P : List Part} {u s t : State} {r₀ : Nat} {b : Nat} (hk : Kept P u s) (he₀ : (State.fenceRib s b) = (r₀, t)) (hP : Sub [.regs, .vec, .hsf] P := by exact Sub.of ‹_› (by rfl)) : Kept P u t := by
  have := State.fenceRib_kept hk b
  rw [he₀] at this; exact this

theorem State.setFltUnit_kept {P : List Part} {u s : State} (hk : Kept P u s) (u₁ : Nat) (x : FltUnit) (hP : Sub [.flt] P := by exact Sub.of ‹_› (by rfl)) : Kept P u (State.setFltUnit s u₁ x) := by
  unfold State.setFltUnit
  repeat' first
    | (with_reducible assumption)
    | (exact Sub.of ‹_› (by rfl))
    | (simp only [Kept.mk_iff]; with_reducible apply KeptC.of)
    | (with_reducible exact Or.inr rfl)
    | (with_reducible exact Or.inr ⟨rfl, rfl⟩)
    | (exact Or.inl (Sub.mem ‹_› (by rfl)))
    | (with_reducible rfl)
    | (dsimp only)

theorem State.fenceEng_kept {P : List Part} {u s : State} (hk : Kept P u s) (e : Nat) (hP : Sub [.regs, .fst, .che, .vec] P := by exact Sub.of ‹_› (by rfl)) : Kept P u (State.fenceEng s e).2 := by
  unfold State.fenceEng
  repeat' first
    | (with_reducible assumption)
    | (with_reducible apply State.evictAll_kept)
    | (refine State.evictAll_kept' ?_ (by with_reducible assumption))
    | (exact Sub.of ‹_› (by rfl))
    | split
    | (dsimp only)

theorem State.fenceEng_kept' {P : List Part} {u s t : State} {r₀ : Nat} {e : Nat} (hk : Kept P u s) (he₀ : (State.fenceEng s e) = (r₀, t)) (hP : Sub [.regs, .fst, .che, .vec] P := by exact Sub.of ‹_› (by rfl)) : Kept P u t := by
  have := State.fenceEng_kept hk e
  rw [he₀] at this; exact this

theorem State.fence_kept {P : List Part} {u s : State} (hk : Kept P u s) (u₁ : Nat) (rows : Nat) (hP : Sub [.regs, .media, .xpt, .fst, .fstMem, .che, .sou, .aud, .vec, .syn, .flt, .hsf] P := by exact Sub.of ‹_› (by rfl)) : Kept P u (State.fence s u₁ rows).2 := by
  unfold State.fence
  repeat' first
    | (with_reducible assumption)
    | (with_reducible apply State.holdBlock_kept)
    | (with_reducible apply State.fenceGran_kept)
    | (refine State.fenceGran_kept' ?_ (by with_reducible assumption))
    | (with_reducible apply State.fencePc_kept)
    | (with_reducible apply State.fenceRib_kept)
    | (refine State.fenceRib_kept' ?_ (by with_reducible assumption))
    | (with_reducible apply State.setFltUnit_kept)
    | (with_reducible apply State.fenceEng_kept)
    | (refine State.fenceEng_kept' ?_ (by with_reducible assumption))
    | (exact Sub.of ‹_› (by rfl))
    | (intro _)
    | split
    | (dsimp only)

theorem State.fence_kept' {P : List Part} {u s t : State} {r₀ : Nat} {u₁ : Nat} {rows : Nat} (hk : Kept P u s) (he₀ : (State.fence s u₁ rows) = (r₀, t)) (hP : Sub [.regs, .media, .xpt, .fst, .fstMem, .che, .sou, .aud, .vec, .syn, .flt, .hsf] P := by exact Sub.of ‹_› (by rfl)) : Kept P u t := by
  have := State.fence_kept hk u₁ rows
  rw [he₀] at this; exact this

theorem State.setRec_kept {P : List Part} {u s : State} (hk : Kept P u s) (r : FltRec) (hP : Sub [.flt] P := by exact Sub.of ‹_› (by rfl)) : Kept P u (State.setRec s r) := by
  unfold State.setRec
  repeat' first
    | (with_reducible assumption)
    | (exact Sub.of ‹_› (by rfl))
    | (simp only [Kept.mk_iff]; with_reducible apply KeptC.of)
    | (with_reducible exact Or.inr rfl)
    | (with_reducible exact Or.inr ⟨rfl, rfl⟩)
    | (exact Or.inl (Sub.mem ‹_› (by rfl)))
    | (with_reducible rfl)
    | (intro _)
    | split
    | (dsimp only)

theorem State.logFenced_kept {P : List Part} {u s : State} (hk : Kept P u s) (u₁ : Nat) (hP : Sub [.flt] P := by exact Sub.of ‹_› (by rfl)) : Kept P u (State.logFenced s u₁) := by
  unfold State.logFenced
  repeat' first
    | (with_reducible assumption)
    | (exact Sub.of ‹_› (by rfl))
    | (simp only [Kept.mk_iff]; with_reducible apply KeptC.of)
    | (with_reducible exact Or.inr rfl)
    | (with_reducible exact Or.inr ⟨rfl, rfl⟩)
    | (exact Or.inl (Sub.mem ‹_› (by rfl)))
    | (with_reducible rfl)
    | split
    | (dsimp only)

theorem State.lasting_kept {P : List Part} {u s : State} (hk : Kept P u s) (r : FltRec) (bits : Nat) (rows : Nat) (hP : Sub [.regs, .media, .xpt, .fst, .fstMem, .che, .sou, .aud, .vec, .syn, .flt, .hsf] P := by exact Sub.of ‹_› (by rfl)) : Kept P u (State.lasting s r bits rows) := by
  unfold State.lasting
  repeat' first
    | (with_reducible assumption)
    | (with_reducible apply State.inc_kept)
    | (with_reducible apply State.raise_kept)
    | (with_reducible apply State.dirty_kept)
    | (with_reducible apply State.fence_kept)
    | (refine State.fence_kept' ?_ (by with_reducible assumption))
    | (with_reducible apply State.setRec_kept)
    | (with_reducible apply State.logFenced_kept)
    | (exact Sub.of ‹_› (by rfl))
    | split
    | (dsimp only)

theorem State.roomRec_kept' {P : List Part} {u s t : State} (hk : Kept P u s) (he₀ : s.roomRec = some t) (hP : Sub [.regs, .vec, .flt] P := by exact Sub.of ‹_› (by rfl)) : Kept P u t := by
  unfold State.roomRec at he₀
  split at he₀
  · exact Option.some.inj he₀ ▸ hk
  · dsimp only at he₀
    split at he₀
    · rw [← Option.some.inj he₀]
      refine State.inc_kept ?_ _
      have h1 := State.raise_kept hk Hist.flt F.FLT_HIST_FLT_QUEUE_OVF
      simp only [Kept.mk_iff]; (with_reducible apply KeptC.of h1) <;> first | rfl | exact Or.inr rfl | exact Or.inr ⟨rfl, rfl⟩ | exact Or.inl (Sub.mem ‹_› (by rfl))
    · exact absurd he₀ (by simp)

theorem State.makeRec_kept {P : List Part} {u s : State} (hk : Kept P u s) (u₁ : Nat) (src : Nat) (st : Nat) (hP : Sub [.regs, .vec, .flt] P := by exact Sub.of ‹_› (by rfl)) : Kept P u (State.makeRec s u₁ src st) := by
  unfold State.makeRec
  repeat' first
    | (with_reducible assumption)
    | (with_reducible apply State.raise_kept)
    | (with_reducible apply State.setFltUnit_kept)
    | (exact Sub.of ‹_› (by rfl))
    | (simp only [Kept.mk_iff]; with_reducible apply KeptC.of)
    | (with_reducible exact Or.inr rfl)
    | (with_reducible exact Or.inr ⟨rfl, rfl⟩)
    | (exact Or.inl (Sub.mem ‹_› (by rfl)))
    | (with_reducible rfl)
    | (intro _)
    | (dsimp only)

theorem State.queueRec_kept {P : List Part} {u s : State} (hk : Kept P u s) (u₁ : Nat) (src : Nat) (hP : Sub [.regs, .vec, .flt] P := by exact Sub.of ‹_› (by rfl)) : Kept P u (State.queueRec s u₁ src) := by
  unfold State.queueRec
  repeat' first
    | (with_reducible assumption)
    | (with_reducible apply State.raise_kept)
    | (with_reducible apply State.setFltUnit_kept)
    | (refine State.roomRec_kept' ?_ (by with_reducible assumption))
    | (with_reducible apply State.makeRec_kept)
    | (exact Sub.of ‹_› (by rfl))
    | split
    | (dsimp only)

theorem State.reportError_kept {P : List Part} {u s : State} (hk : Kept P u s) (u₁ : Nat) (src : Nat) (hP : Sub [.regs, .media, .xpt, .fst, .fstMem, .che, .sou, .aud, .vec, .syn, .flt, .hsf] P := by exact Sub.of ‹_› (by rfl)) : Kept P u (State.reportError s u₁ src) := by
  unfold State.reportError
  repeat' first
    | (with_reducible assumption)
    | (with_reducible apply State.setFltUnit_kept)
    | (with_reducible apply State.setRec_kept)
    | (with_reducible apply State.lasting_kept)
    | (with_reducible apply State.queueRec_kept)
    | (exact Sub.of ‹_› (by rfl))
    | split
    | (dsimp only)

end Sys2Proof.Machine
end

