-- ==== Sys2Proof/Laws/KeptRouteOps.lean ====
section
/-! SUPPORT. The operations of Machine/RouteOps.lean keep the queue and the canonical forms, and which parts of the state they may change. -/
set_option Elab.async false
namespace Sys2Proof.Machine

theorem State.abortTake_kept {P : List Part} {u s : State} (hk : Kept P u s) (id : Nat) (t₁ : Take) (hP : Sub [.regs, .xpt, .fst, .che, .sou, .aud, .host, .vec, .hostMem, .sec] P := by exact Sub.of ‹_› (by rfl)) : Kept P u (State.abortTake s id t₁) := by
  unfold State.abortTake
  repeat' first
    | (with_reducible assumption)
    | (with_reducible apply State.chainLost_kept)
    | (with_reducible apply State.endTake_kept)
    | (exact Sub.of ‹_› (by rfl))
    | split
    | (dsimp only)

theorem State.abortOp_kept {P : List Part} {u s : State} (hk : Kept P u s) (id : Nat) (hP : Sub [.regs, .xpt, .fst, .che, .sou, .aud, .host, .vec, .hostMem, .sec] P := by exact Sub.of ‹_› (by rfl)) : Kept P u (State.abortOp s id) := by
  unfold State.abortOp
  repeat' first
    | (with_reducible assumption)
    | (with_reducible apply State.dropOp_kept)
    | (with_reducible apply State.finish_kept)
    | (with_reducible apply State.log_kept)
    | (with_reducible apply State.chainLost_kept)
    | (with_reducible apply State.leapRateCheck_kept)
    | (with_reducible apply State.abortTake_kept)
    | (with_reducible refine Kept.foldl ?_ ?_)
    | (exact Sub.of ‹_› (by rfl))
    | (intro _)
    | split
    | (dsimp only)

theorem State.abortImmediate_kept {P : List Part} {u s : State} (hk : Kept P u s) (d : Nat) (hP : Sub [.regs, .xpt, .fst, .che, .sou, .aud, .host, .vec, .hostMem, .sec] P := by exact Sub.of ‹_› (by rfl)) : Kept P u (State.abortImmediate s d) := by
  unfold State.abortImmediate
  repeat' first
    | (with_reducible assumption)
    | (with_reducible apply State.abortTake_kept)
    | (with_reducible refine Kept.foldl ?_ ?_)
    | (exact Sub.of ‹_› (by rfl))
    | (intro _)
    | (dsimp only)

theorem State.startImmediate_kept {P : List Part} {u s : State} (hk : Kept P u s) (h : Hdr) (d : Nat) (src : Nat) (unit : Option Nat) (result : Nat) (hP : Sub [.regs, .media, .xpt, .fst, .che, .sou, .aud, .host, .vec, .hostMem, .sec, .mate] P := by exact Sub.of ‹_› (by rfl)) : Kept P u (State.startImmediate s h d src unit result) := by
  unfold State.startImmediate
  repeat' first
    | (with_reducible assumption)
    | (with_reducible apply State.fwdNote_kept)
    | (with_reducible apply State.addOp_kept)
    | (refine State.addOp_kept' ?_ (by with_reducible assumption))
    | (with_reducible apply State.runIdle_kept)
    | (with_reducible apply State.abortImmediate_kept)
    | (exact Sub.of ‹_› (by rfl))
    | split
    | (dsimp only)

theorem State.raiseLate_kept {P : List Part} {u s : State} (hk : Kept P u s) (d : Nat) (late : Bool) (hP : Sub [.regs, .vec] P := by exact Sub.of ‹_› (by rfl)) : Kept P u (State.raiseLate s d late) := by
  unfold State.raiseLate
  repeat' first
    | (with_reducible assumption)
    | (with_reducible apply State.raise_kept)
    | (exact Sub.of ‹_› (by rfl))
    | split
    | (dsimp only)

theorem State.startLeap_kept {P : List Part} {u s : State} (hk : Kept P u s) (h : Hdr) (d : Nat) (src : Nat) (rfn : Nat) (unit : Option Nat) (result : Nat) (hP : Sub [.regs, .host, .vec, .mate] P := by exact Sub.of ‹_› (by rfl)) : Kept P u (State.startLeap s h d src rfn unit result) := by
  unfold State.startLeap
  repeat' first
    | (with_reducible assumption)
    | (with_reducible apply State.addOp_kept)
    | (refine State.addOp_kept' ?_ (by with_reducible assumption))
    | (with_reducible apply State.raiseLate_kept)
    | (exact Sub.of ‹_› (by rfl))
    | (dsimp only)

theorem State.startTake_kept {P : List Part} {u s : State} (hk : Kept P u s) (h : Hdr) (d : Nat) (src : Nat) (unit : Option Nat) (result : Nat) (hP : Sub [.regs, .media, .xpt, .fst, .che, .sou, .aud, .host, .vec, .hostMem, .sec, .mate] P := by exact Sub.of ‹_› (by rfl)) : Kept P u (State.startTake s h d src unit result) := by
  unfold State.startTake
  repeat' first
    | (with_reducible assumption)
    | (with_reducible apply State.startImmediate_kept)
    | (with_reducible apply State.startLeap_kept)
    | (exact Sub.of ‹_› (by rfl))
    | split
    | (dsimp only)

theorem routeBody_kept {P : List Part} {u s : State} (hk : Kept P u s) (h : Hdr) (d : Nat) (src : Nat) (hP : Sub [.regs, .media, .xpt, .fst, .che, .sou, .aud, .host, .vec, .hostMem, .sec, .mate] P := by exact Sub.of ‹_› (by rfl)) : (routeBody h d src s).Kept P u := by
  unfold routeBody
  repeat' first
    | (with_reducible assumption)
    | (with_reducible exact True.intro)
    | (with_reducible exact Adm.kept_bad ..)
    | (with_reducible exact Adm.kept_badData ..)
    | (with_reducible exact Adm.kept_short ..)
    | (with_reducible exact Adm.kept_denied ..)
    | (with_reducible exact Adm.kept_no ..)
    | (with_reducible exact Adm.kept_wait ..)
    | (with_reducible apply Adm.kept_late)
    | (with_reducible apply Adm.kept_deny)
    | (with_reducible apply Adm.kept_yes)
    | (with_reducible apply State.addOp_kept)
    | (refine State.addOp_kept' ?_ (by with_reducible assumption))
    | (with_reducible apply admitFit_kept)
    | (with_reducible apply State.abortImmediate_kept)
    | (with_reducible apply State.raiseLate_kept)
    | (with_reducible apply State.startTake_kept)
    | (with_reducible refine Adm.ite (fun _ => ?_) fun _ => ?_)
    | (exact Sub.of ‹_› (by rfl))
    | (intro _)
    | split
    | (dsimp only)

theorem chainStart_kept {P : List Part} {u s : State} (hk : Kept P u s) (h : Hdr) (q : ChainSpec) (o : ChainOut) (hP : Sub [.regs, .media, .xpt, .fst, .che, .sou, .aud, .host, .vec, .hostMem, .sec, .mate] P := by exact Sub.of ‹_› (by rfl)) : (chainStart h q o s).Kept P u := by
  unfold chainStart
  extract_lets s'
  have hl : Kept P u s' := State.log_kept hk ..
  clear_value s'
  generalize q.dst = dd
  cases dd with
  | none => exact Adm.kept_yes (State.ok_kept hl _ _)
  | some d => exact Adm.kept_yes (State.startTake_kept hl ..)

theorem chainSettle_kept {P : List Part} {u s : State} {b : Build} (hk : Kept P u s) (hb : Kept P u b.s) (h : Hdr) (q : ChainSpec) (o : ChainOut) (hP : Sub [.regs, .media, .xpt, .fst, .che, .sou, .aud, .host, .vec, .hostMem, .sec, .mate] P := by exact Sub.of ‹_› (by rfl)) :
    (chainSettle h q s o b).Kept P u := by
  unfold chainSettle
  extract_lets inUse drop
  clear_value inUse drop
  exact Adm.ite (fun _ => Adm.kept_denied u _) fun _ =>
    Build.settle_kept (Adm.ite (fun _ => Adm.kept_late (State.raiseLate_kept hk _ _) _ _) fun _ => chainStart_kept hb h q o)

theorem chainAdmit_kept {P : List Part} {u s : State} (hk : Kept P u s) (h : Hdr) (q : ChainSpec) (hP : Sub [.regs, .media, .xpt, .fst, .che, .sou, .aud, .host, .vec, .hostMem, .sec, .mate] P := by exact Sub.of ‹_› (by rfl)) : (chainAdmit h q s).Kept P u := by
  unfold chainAdmit
  extract_lets unclean p
  clear_value unclean
  exact Adm.ite (fun _ => Adm.kept_no u _ _) fun _ => chainSettle_kept hk (Build.chain_kept hk q) h q _

theorem chainBody_kept {P : List Part} {u s : State} (hk : Kept P u s) (h : Hdr) (c : ChainReq) (v : Option ConvSet) (hP : Sub [.regs, .media, .xpt, .fst, .che, .sou, .aud, .host, .vec, .hostMem, .sec, .mate] P := by exact Sub.of ‹_› (by rfl)) : (chainBody h c v s).Kept P u := by
  unfold chainBody
  repeat' first
    | (with_reducible assumption)
    | (with_reducible exact True.intro)
    | (with_reducible exact Adm.kept_bad ..)
    | (with_reducible exact Adm.kept_badData ..)
    | (with_reducible exact Adm.kept_short ..)
    | (with_reducible exact Adm.kept_denied ..)
    | (with_reducible exact Adm.kept_no ..)
    | (with_reducible exact Adm.kept_wait ..)
    | (with_reducible apply Adm.kept_late)
    | (with_reducible apply Adm.kept_deny)
    | (with_reducible apply Adm.kept_yes)
    | (with_reducible apply chainAdmit_kept)
    | (with_reducible refine Adm.ite (fun _ => ?_) fun _ => ?_)
    | (exact Sub.of ‹_› (by rfl))
    | split
    | (dsimp only)

theorem buildSalvo_kept {P : List Part} {u : State} (h : Hdr) (l : List SalvoEntry) {b : Build} (hk : Kept P u b.s) (hP : Sub [.regs, .xpt, .fst, .che, .sou, .aud, .vec] P := by exact Sub.of ‹_› (by rfl)) : Kept P u (buildSalvo h l b).2.s := by
  induction l generalizing b with
  | nil => exact hk
  | cons e l ih =>
    unfold buildSalvo
    split
    · exact ih (Build.chain_kept hk _)
    · exact ih hk

theorem State.startSalvo_kept {P : List Part} {u s : State} (hk : Kept P u s) (h : Hdr) (l : List (Nat × Nat × Option ChainOut)) (s0 : State) (hP : Sub [.regs, .host, .vec, .mate] P := by exact Sub.of ‹_› (by rfl)) : Kept P u (State.startSalvo s s0 h l) := by
  unfold State.startSalvo
  repeat' first
    | (with_reducible assumption)
    | (with_reducible apply State.addOp_kept)
    | (refine State.addOp_kept' ?_ (by with_reducible assumption))
    | (with_reducible apply State.addEntry_kept)
    | (with_reducible apply State.raiseLate_kept)
    | (with_reducible refine Kept.foldl ?_ ?_)
    | (exact Sub.of ‹_› (by rfl))
    | (intro _)
    | split
    | (dsimp only)

theorem State.logChains_kept {P : List Part} {u s : State} (hk : Kept P u s) (h : Hdr) (l : List (Nat × Nat × Option ChainOut)) (s0 : State) (hP : Sub [.regs, .vec, .hostMem, .sec] P := by exact Sub.of ‹_› (by rfl)) : Kept P u (State.logChains s s0 h l) := by
  unfold State.logChains
  repeat' first
    | (with_reducible assumption)
    | (with_reducible apply State.log_kept)
    | (with_reducible refine Kept.foldl ?_ ?_)
    | (exact Sub.of ‹_› (by rfl))
    | (intro _)
    | split
    | (dsimp only)

theorem salvoSettle_kept {P : List Part} {u s : State} {b : Build} (hk : Kept P u s) (hb : Kept P u b.s) (h : Hdr) (v : List SalvoEntry)
    (l : List (Nat × Nat × Option ChainOut)) (hP : Sub [.regs, .host, .vec, .hostMem, .sec, .mate] P := by exact Sub.of ‹_› (by rfl)) : (salvoSettle h v s l b).Kept P u := by
  unfold salvoSettle
  refine Build.settle_kept ?_
  extract_lets lates
  exact Adm.ite (fun _ => Adm.kept_late (Kept.foldl hk fun v x hv => State.raiseLate_kept hv _ _) _ _) fun _ =>
    Adm.kept_yes (State.startSalvo_kept (State.logChains_kept hb _ _ _) _ _ _)

theorem salvoBody_kept {P : List Part} {u s : State} (hk : Kept P u s) (h : Hdr) (v : SalvoList) (hP : Sub [.regs, .xpt, .fst, .che, .sou, .aud, .host, .vec, .hostMem, .sec, .mate] P := by exact Sub.of ‹_› (by rfl)) : (salvoBody h v s).Kept P u := by
  unfold salvoBody
  extract_lets l
  generalize listBad v h = lb
  cases lb with
  | some k => exact Adm.kept_no u _ _
  | none =>
    refine Adm.ite (fun _ => Adm.kept_denied u _) fun _ => ?_
    generalize s.firstBad h l 0 [] = fb
    cases fb with
    | some i => exact Adm.kept_badData u _
    | none => exact Adm.ite (fun _ => Adm.kept_no u _ _) fun _ => salvoSettle_kept hk (buildSalvo_kept h _ hk) h l _

theorem cancelBody_kept {P : List Part} {u s : State} (hk : Kept P u s) (h : Hdr) (ring : Nat) (tag : Nat) (hP : Sub [.regs, .xpt, .fst, .che, .sou, .aud, .host, .vec, .hostMem, .sec, .mate] P := by exact Sub.of ‹_› (by rfl)) : (cancelBody h ring tag s).Kept P u := by
  unfold cancelBody
  repeat' first
    | (with_reducible assumption)
    | (with_reducible exact True.intro)
    | (with_reducible exact Adm.kept_bad ..)
    | (with_reducible exact Adm.kept_badData ..)
    | (with_reducible exact Adm.kept_short ..)
    | (with_reducible exact Adm.kept_denied ..)
    | (with_reducible exact Adm.kept_no ..)
    | (with_reducible exact Adm.kept_wait ..)
    | (with_reducible apply Adm.kept_late)
    | (with_reducible apply Adm.kept_deny)
    | (with_reducible apply Adm.kept_yes)
    | (with_reducible apply State.done_kept)
    | (with_reducible apply State.ok_kept)
    | (with_reducible apply State.abortOp_kept)
    | (with_reducible refine Adm.ite (fun _ => ?_) fun _ => ?_)
    | (exact Sub.of ‹_› (by rfl))
    | (intro _)
    | split
    | (dsimp only)

end Sys2Proof.Machine
end

