-- ==== Sys2Proof/Laws/KeptSynOps.lean ====
section
/-! SUPPORT. The operations of Machine/SynOps.lean keep the queue and the canonical forms, and which parts of the state they may change. -/
set_option Elab.async false
namespace Sys2Proof.Machine

theorem State.bandTouch_kept {P : List Part} {u s : State} (hk : Kept P u s) (t₁ : Nat) (e : Nat) (hP : Sub [.regs, .syn] P := by exact Sub.of ‹_› (by rfl)) : Kept P u (State.bandTouch s t₁ e) := by
  unfold State.bandTouch
  repeat' first
    | (with_reducible assumption)
    | (with_reducible apply State.set_kept)
    | (with_reducible apply State.setSyn_kept)
    | (exact Sub.of ‹_› (by rfl))
    | (dsimp only)

theorem State.bandPut_kept {P : List Part} {u s : State} (hk : Kept P u s) (t₁ : Nat) (fam : Nat) (mult : Nat) (coarse : Nat) (fine : Nat) (hP : Sub [.regs, .syn] P := by exact Sub.of ‹_› (by rfl)) : Kept P u (State.bandPut s t₁ fam mult coarse fine) := by
  unfold State.bandPut
  repeat' first
    | (with_reducible assumption)
    | (with_reducible apply State.set_kept)
    | (with_reducible apply State.bandTouch_kept)
    | (exact Sub.of ‹_› (by rfl))
    | (intro _)
    | (dsimp only)

theorem State.synFreeze_kept {P : List Part} {u s : State} (hk : Kept P u s) (t₁ : Nat) (hP : Sub [.regs, .syn] P := by exact Sub.of ‹_› (by rfl)) : Kept P u (State.synFreeze s t₁) := by
  unfold State.synFreeze
  repeat' first
    | (with_reducible assumption)
    | (with_reducible apply State.wrInt_kept)
    | (with_reducible apply State.setSyn_kept)
    | (exact Sub.of ‹_› (by rfl))
    | split
    | (dsimp only)

theorem State.synSeek_kept {P : List Part} {u s : State} (hk : Kept P u s) (t₁ : Nat) (hP : Sub [.regs, .syn] P := by exact Sub.of ‹_› (by rfl)) : Kept P u (State.synSeek s t₁) := by
  unfold State.synSeek
  repeat' first
    | (with_reducible assumption)
    | (with_reducible apply State.set_kept)
    | (with_reducible apply State.setSyn_kept)
    | (with_reducible apply State.bandTouch_kept)
    | (exact Sub.of ‹_› (by rfl))
    | split
    | (dsimp only)

theorem State.synTarget_kept {P : List Part} {u s : State} (hk : Kept P u s) (t₁ : Nat) (fam : Nat) (mult : Nat) (hP : Sub [.regs] P := by exact Sub.of ‹_› (by rfl)) : Kept P u (State.synTarget s t₁ fam mult) := by
  unfold State.synTarget
  repeat' first
    | (with_reducible assumption)
    | (with_reducible apply State.set_kept)
    | (with_reducible apply State.setB_kept)
    | (exact Sub.of ‹_› (by rfl))
    | (dsimp only)

theorem State.synGate_kept {P : List Part} {u s : State} (hk : Kept P u s) (t₁ : Nat) (why : Nat) (hP : Sub [.regs, .media, .xpt, .sou, .aud, .vec, .syn] P := by exact Sub.of ‹_› (by rfl)) : Kept P u (State.synGate s t₁ why) := by
  unfold State.synGate
  repeat' first
    | (with_reducible assumption)
    | (with_reducible apply State.setSyn_kept)
    | (with_reducible apply State.synEnd_kept)
    | (with_reducible apply State.synStop_kept)
    | (exact Sub.of ‹_› (by rfl))
    | split
    | (dsimp only)

theorem State.synLocked_kept {P : List Part} {u s : State} (hk : Kept P u s) (t₁ : Nat) (coarse : Nat) (fine : Nat) (hP : Sub [.regs, .aud, .syn] P := by exact Sub.of ‹_› (by rfl)) : Kept P u (State.synLocked s t₁ coarse fine) := by
  unfold State.synLocked
  repeat' first
    | (with_reducible assumption)
    | (with_reducible apply State.set_kept)
    | (with_reducible apply State.inc_kept)
    | (with_reducible apply State.setSyn_kept)
    | (with_reducible apply State.audStart_kept)
    | (with_reducible apply State.synLanes_kept)
    | (exact Sub.of ‹_› (by rfl))
    | split
    | (dsimp only)

theorem State.synOff_kept {P : List Part} {u s : State} (hk : Kept P u s) (t₁ : Nat) (hP : Sub [.regs, .media, .xpt, .sou, .aud, .vec, .syn] P := by exact Sub.of ‹_› (by rfl)) : Kept P u (State.synOff s t₁) := by
  unfold State.synOff
  repeat' first
    | (with_reducible assumption)
    | (with_reducible apply State.setSyn_kept)
    | (with_reducible apply State.synEnd_kept)
    | (with_reducible apply State.synStop_kept)
    | (exact Sub.of ‹_› (by rfl))
    | split
    | (dsimp only)

theorem State.synRetune_kept {P : List Part} {u s : State} (hk : Kept P u s) (t₁ : Nat) (fam : Nat) (hP : Sub [.regs, .media, .xpt, .sou, .aud, .vec, .syn] P := by exact Sub.of ‹_› (by rfl)) : Kept P u (State.synRetune s t₁ fam) := by
  unfold State.synRetune
  repeat' first
    | (with_reducible assumption)
    | (with_reducible apply State.set_kept)
    | (with_reducible apply State.synEnd_kept)
    | (with_reducible apply State.synStop_kept)
    | (with_reducible apply State.synSeek_kept)
    | (with_reducible apply State.synTarget_kept)
    | (exact Sub.of ‹_› (by rfl))
    | split
    | (dsimp only)

theorem State.synStart_kept {P : List Part} {u s : State} (hk : Kept P u s) (t₁ : Nat) (preload : Bool) (hP : Sub [.regs, .syn] P := by exact Sub.of ‹_› (by rfl)) : Kept P u (State.synStart s t₁ preload) := by
  unfold State.synStart
  repeat' first
    | (with_reducible assumption)
    | (with_reducible apply State.set_kept)
    | (with_reducible apply State.setSyn_kept)
    | (with_reducible apply State.synSeek_kept)
    | (with_reducible apply State.synTarget_kept)
    | (exact Sub.of ‹_› (by rfl))
    | split
    | (dsimp only)

end Sys2Proof.Machine
end

