-- ==== Sys2Proof/Laws/KeptAudio.lean ====
section
/-! SUPPORT. The operations of Machine/Audio.lean keep the queue and the canonical forms, and which parts of the state they may change. -/
set_option Elab.async false
namespace Sys2Proof.Machine

theorem State.claimSlot_kept {P : List Part} {u s : State} (hk : Kept P u s) (e : Nat) (delay : Nat) (acc : List Nat × List Nat) (hP : Sub [.aud] P := by exact Sub.of ‹_› (by rfl)) : Kept P u (State.claimSlot s e delay acc).2 := by
  unfold State.claimSlot
  repeat' first
    | (with_reducible assumption)
    | (with_reducible apply State.setSlot_kept)
    | (exact Sub.of ‹_› (by rfl))
    | split
    | (dsimp only)

theorem State.claimSlot_kept' {P : List Part} {u s t : State} {r₀ : (List Nat × List Nat)} {e : Nat} {delay : Nat} {acc : List Nat × List Nat} (hk : Kept P u s) (he₀ : (State.claimSlot s e delay acc) = (r₀, t)) (hP : Sub [.aud] P := by exact Sub.of ‹_› (by rfl)) : Kept P u t := by
  have := State.claimSlot_kept hk e delay acc
  rw [he₀] at this; exact this

theorem State.claimRun_kept {P : List Part} {u : State} {s : State} (hk : Kept P u s) (delay : Nat) (l : List Nat) (acc : List Nat × List Nat) (hP : Sub [.aud] P := by exact Sub.of ‹_› (by rfl)) :
    Kept P u (s.claimRun delay l acc).2 := by
  induction l generalizing s acc with
  | nil => exact hk
  | cons e l ih => exact ih (State.claimSlot_kept hk e delay acc) _

theorem State.reapSlots_kept {P : List Part} {u s : State} (hk : Kept P u s)  (hP : Sub [.fst, .aud] P := by exact Sub.of ‹_› (by rfl)) : Kept P u (State.reapSlots s) := by
  unfold State.reapSlots
  repeat' first
    | (with_reducible assumption)
    | (with_reducible apply State.trimAudio_kept)
    | (exact Sub.of ‹_› (by rfl))
    | (simp only [Kept.mk_iff]; with_reducible apply KeptC.of)
    | (with_reducible exact Or.inr rfl)
    | (with_reducible exact Or.inr ⟨rfl, rfl⟩)
    | (exact Or.inl (Sub.mem ‹_› (by rfl)))
    | (with_reducible rfl)
    | (intro _)
    | (dsimp only)

theorem mapSettle_kept {P : List Part} {u s s1 : State} (hk : Kept P u s) (hc : Kept P u s1) (h : Hdr) (a : AudMapReq) (exec : Nat × Bool) (new codes : List Nat) (hP : Sub [.regs, .fst, .host, .mate] P := by exact Sub.of ‹_› (by rfl)) :
    (mapSettle h a s exec new codes s1).Kept P u := by
  unfold mapSettle
  extract_lets first s'
  have hs : Kept P u s' := State.addOp_kept hc _ _ _
  clear_value s' first
  generalize (s.mapShort s' codes).min? = m
  cases m with
  | some c => exact Adm.ite (fun _ => Adm.kept_short u _) fun _ => Adm.kept_short u _
  | none => exact admitFit_kept (Adm.ite (fun _ => Adm.kept_late hk _ _) fun _ => Adm.kept_yes (State.trimAudio_kept hs))

theorem audMapBody_kept {P : List Part} {u s : State} (hk : Kept P u s) (h : Hdr) (a : AudMapReq) (hP : Sub [.regs, .fst, .aud, .host, .mate] P := by exact Sub.of ‹_› (by rfl)) : (audMapBody h a s).Kept P u := by
  unfold audMapBody
  generalize s.mapBad a h.rfn = mb
  cases mb with
  | some k => exact Adm.kept_bad u k
  | none => exact mapSettle_kept hk (Kept.ite_snd (fun _ => hk) fun _ => State.claimRun_kept hk _ _ _) h a _ _ _

theorem State.fadeTaken_kept {P : List Part} {u s : State} (hk : Kept P u s) (o : Nat) (hP : Sub [.regs, .host, .vec] P := by exact Sub.of ‹_› (by rfl)) : Kept P u (State.fadeTaken s o) := by
  unfold State.fadeTaken
  repeat' first
    | (with_reducible assumption)
    | (with_reducible apply State.finish_kept)
    | (exact Sub.of ‹_› (by rfl))
    | split
    | (dsimp only)

theorem State.fadeDone_kept {P : List Part} {u s : State} (hk : Kept P u s) (id : Nat) (o : Nat) (hP : Sub [.regs, .host, .vec] P := by exact Sub.of ‹_› (by rfl)) : Kept P u (State.fadeDone s id o) := by
  unfold State.fadeDone
  repeat' first
    | (with_reducible assumption)
    | (with_reducible apply State.setOp_kept)
    | (with_reducible apply State.finish_kept)
    | (exact Sub.of ‹_› (by rfl))
    | split
    | (dsimp only)

theorem State.endSlot_kept {P : List Part} {u s : State} (hk : Kept P u s) (o : Nat) (hP : Sub [.regs, .fst, .aud, .host, .vec] P := by exact Sub.of ‹_› (by rfl)) : Kept P u (State.endSlot s o) := by
  unfold State.endSlot
  repeat' first
    | (with_reducible assumption)
    | (with_reducible apply State.setSlot_kept)
    | (with_reducible apply State.dropSlot_kept)
    | (with_reducible apply State.trimAudio_kept)
    | (with_reducible apply State.fadeDone_kept)
    | (exact Sub.of ‹_› (by rfl))
    | split
    | (dsimp only)

theorem State.mapChannel_kept {P : List Part} {u s : State} (hk : Kept P u s) (a : AudMapReq) (k : Nat) (t₁ : Nat) (hP : Sub [.regs, .fst, .aud, .host, .vec] P := by exact Sub.of ‹_› (by rfl)) : Kept P u (State.mapChannel s a k t₁) := by
  unfold State.mapChannel
  repeat' first
    | (with_reducible assumption)
    | (with_reducible apply State.setSlot_kept)
    | (with_reducible apply State.fadeTo_kept)
    | (with_reducible apply State.followTo_kept)
    | (with_reducible apply State.fadeDone_kept)
    | (with_reducible apply State.endSlot_kept)
    | (exact Sub.of ‹_› (by rfl))
    | split
    | (dsimp only)

theorem State.runMap_kept {P : List Part} {u s : State} (hk : Kept P u s) (p : Nat × MapOp) (hP : Sub [.regs, .fst, .aud, .host, .vec, .hostMem, .sec] P := by exact Sub.of ‹_› (by rfl)) : Kept P u (State.runMap s p) := by
  unfold State.runMap
  repeat' first
    | (with_reducible assumption)
    | (with_reducible apply State.finish_kept)
    | (with_reducible apply State.log_kept)
    | (with_reducible apply State.trimAudio_kept)
    | (with_reducible apply State.mapChannel_kept)
    | (with_reducible refine Kept.foldl ?_ ?_)
    | (exact Sub.of ‹_› (by rfl))
    | (intro _)
    | split
    | (dsimp only)

theorem audFadeBody_kept {P : List Part} {u s : State} (hk : Kept P u s) (h : Hdr) (a : AudFadeReq) (hP : Sub [.regs, .host, .mate] P := by exact Sub.of ‹_› (by rfl)) : (audFadeBody h a s).Kept P u := by
  unfold audFadeBody
  repeat' first
    | (with_reducible assumption)
    | (with_reducible exact True.intro)
    | (with_reducible exact Adm.kept_bad ..)
    | (with_reducible exact Adm.kept_badData ..)
    | (with_reducible exact Adm.kept_short ..)
    | (with_reducible exact Adm.kept_denied ..)
    | (with_reducible exact Adm.kept_no ..)
    | (with_reducible exact Adm.kept_wait ..)
    | (with_reducible apply Adm.kept_late)
    | (with_reducible apply Adm.kept_deny)
    | (with_reducible apply Adm.kept_yes)
    | (with_reducible apply State.addOp_kept)
    | (refine State.addOp_kept' ?_ (by with_reducible assumption))
    | (with_reducible refine Adm.ite (fun _ => ?_) fun _ => ?_)
    | (exact Sub.of ‹_› (by rfl))
    | (intro _)
    | split
    | (dsimp only)

theorem State.startFade_kept {P : List Part} {u s : State} (hk : Kept P u s) (p : Nat × FadeOp) (hP : Sub [.regs, .aud, .host, .vec] P := by exact Sub.of ‹_› (by rfl)) : Kept P u (State.startFade s p) := by
  unfold State.startFade
  repeat' first
    | (with_reducible assumption)
    | (with_reducible apply State.setOp_kept)
    | (with_reducible apply State.finish_kept)
    | (with_reducible apply State.setSlot_kept)
    | (with_reducible apply State.fadeTaken_kept)
    | (with_reducible refine Kept.foldl ?_ ?_)
    | (exact Sub.of ‹_› (by rfl))
    | (intro _)
    | split
    | (dsimp only)

theorem State.abortAudio_kept {P : List Part} {u s : State} (hk : Kept P u s) (id : Nat) (hP : Sub [.regs, .fst, .aud, .host, .vec] P := by exact Sub.of ‹_› (by rfl)) : Kept P u (State.abortAudio s id) := by
  unfold State.abortAudio
  repeat' first
    | (with_reducible assumption)
    | (with_reducible apply State.finish_kept)
    | (with_reducible apply State.reapSlots_kept)
    | (exact Sub.of ‹_› (by rfl))
    | split
    | (dsimp only)

theorem State.sapStore_kept {P : List Part} {u s : State} (hk : Kept P u s) (r : SapReq) (hP : Sub [.regs, .taken, .aud] P := by exact Sub.of ‹_› (by rfl)) : Kept P u (State.sapStore s r) := by
  unfold State.sapStore
  repeat' first
    | (with_reducible assumption)
    | (with_reducible apply State.takeSetting_kept)
    | (with_reducible apply State.set_kept)
    | (with_reducible apply State.setB_kept)
    | (with_reducible apply State.setClk_kept)
    | (exact Sub.of ‹_› (by rfl))
    | split
    | (dsimp only)

theorem sapCfgBody_kept {P : List Part} {u s : State} (hk : Kept P u s) (h : Hdr) (r : SapReq) (hP : Sub [.regs, .taken, .aud, .host, .mate] P := by exact Sub.of ‹_› (by rfl)) : (sapCfgBody h r s).Kept P u := by
  unfold sapCfgBody
  repeat' first
    | (with_reducible assumption)
    | (with_reducible exact True.intro)
    | (with_reducible exact Adm.kept_bad ..)
    | (with_reducible exact Adm.kept_badData ..)
    | (with_reducible exact Adm.kept_short ..)
    | (with_reducible exact Adm.kept_denied ..)
    | (with_reducible exact Adm.kept_no ..)
    | (with_reducible exact Adm.kept_wait ..)
    | (with_reducible apply Adm.kept_late)
    | (with_reducible apply Adm.kept_deny)
    | (with_reducible apply Adm.kept_yes)
    | (with_reducible apply State.ok_kept)
    | (with_reducible apply State.sapStore_kept)
    | (with_reducible refine Adm.ite (fun _ => ?_) fun _ => ?_)
    | (exact Sub.of ‹_› (by rfl))
    | split
    | (dsimp only)

theorem State.audRaise_kept {P : List Part} {u s : State} (hk : Kept P u s) (p : AudPort) (sap : Bits) (aesi : Bits) (hP : Sub [.regs, .vec] P := by exact Sub.of ‹_› (by rfl)) : Kept P u (State.audRaise s p sap aesi) := by
  unfold State.audRaise
  repeat' first
    | (with_reducible assumption)
    | (with_reducible apply State.raise_kept)
    | (exact Sub.of ‹_› (by rfl))
    | split
    | (dsimp only)

theorem State.aesoWrite_kept {P : List Part} {u s : State} (hk : Kept P u s) (n : Nat) (v : Nat) (hP : Sub [.regs, .vec] P := by exact Sub.of ‹_› (by rfl)) : Kept P u (State.aesoWrite s n v) := by
  unfold State.aesoWrite
  repeat' first
    | (with_reducible assumption)
    | (with_reducible apply State.set_kept)
    | (with_reducible apply State.setB_kept)
    | (with_reducible apply State.raise_kept)
    | (exact Sub.of ‹_› (by rfl))
    | split
    | (dsimp only)

theorem State.pathLen_kept {P : List Part} {u s : State} (hk : Kept P u s) (u₁ : Nat) (d : Nat) (p : PathLine) (hP : Sub [.regs, .fst, .aud, .vec] P := by exact Sub.of ‹_› (by rfl)) : Kept P u (State.pathLen s u₁ d p) := by
  unfold State.pathLen
  repeat' first
    | (with_reducible assumption)
    | (with_reducible apply State.raise_kept)
    | (refine State.fixAudio_kept' ?_ (by with_reducible assumption))
    | (exact Sub.of ‹_› (by rfl))
    | (simp only [Kept.mk_iff]; with_reducible apply KeptC.of)
    | (with_reducible exact Or.inr rfl)
    | (with_reducible exact Or.inr ⟨rfl, rfl⟩)
    | (exact Or.inl (Sub.mem ‹_› (by rfl)))
    | (with_reducible rfl)
    | split
    | (dsimp only)

theorem State.playout_kept {P : List Part} {u s : State} (hk : Kept P u s) (n : Nat) (hP : Sub [.media] P := by exact Sub.of ‹_› (by rfl)) : Kept P u (State.playout s n).2 := by
  unfold State.playout
  repeat' first
    | (with_reducible assumption)
    | (exact Sub.of ‹_› (by rfl))
    | (simp only [Kept.mk_iff]; with_reducible apply KeptC.of)
    | (with_reducible exact Or.inr rfl)
    | (with_reducible exact Or.inr ⟨rfl, rfl⟩)
    | (exact Or.inl (Sub.mem ‹_› (by rfl)))
    | (with_reducible rfl)
    | (intro _)
    | split
    | (dsimp only)

theorem State.playout_kept' {P : List Part} {u s t : State} {r₀ : List (Nat × Int)} {n : Nat} (hk : Kept P u s) (he₀ : (State.playout s n) = (r₀, t)) (hP : Sub [.media] P := by exact Sub.of ‹_› (by rfl)) : Kept P u t := by
  have := State.playout_kept hk n
  rw [he₀] at this; exact this

theorem State.intake_kept {P : List Part} {u s : State} (hk : Kept P u s) (inputs : List (Nat × Int)) (idle : List Nat) (hP : Sub [.aud] P := by exact Sub.of ‹_› (by rfl)) : Kept P u (State.intake s inputs idle) := by
  unfold State.intake
  repeat' first
    | (with_reducible assumption)
    | (with_reducible refine Kept.foldl ?_ ?_)
    | (exact Sub.of ‹_› (by rfl))
    | (simp only [Kept.mk_iff]; with_reducible apply KeptC.of)
    | (with_reducible exact Or.inr rfl)
    | (with_reducible exact Or.inr ⟨rfl, rfl⟩)
    | (exact Or.inl (Sub.mem ‹_› (by rfl)))
    | (with_reducible rfl)
    | (intro _)
    | split
    | (dsimp only)

theorem State.slotFollow_kept {P : List Part} {u s : State} (hk : Kept P u s) (o : Nat) (t₁ : Nat) (hP : Sub [.regs, .aud, .vec] P := by exact Sub.of ‹_› (by rfl)) : Kept P u (State.slotFollow s o t₁) := by
  unfold State.slotFollow
  repeat' first
    | (with_reducible assumption)
    | (with_reducible apply State.setSlot_kept)
    | (with_reducible apply State.followTo_kept)
    | (exact Sub.of ‹_› (by rfl))
    | split
    | (dsimp only)

theorem State.slotHalf_kept {P : List Part} {u s : State} (hk : Kept P u s) (o : Nat) (t₁ : Nat) (hP : Sub [.regs, .aud, .vec] P := by exact Sub.of ‹_› (by rfl)) : Kept P u (State.slotHalf s o t₁) := by
  unfold State.slotHalf
  repeat' first
    | (with_reducible assumption)
    | (with_reducible apply State.setSlot_kept)
    | (with_reducible apply State.slotFollow_kept)
    | (exact Sub.of ‹_› (by rfl))
    | (intro _)
    | split
    | (dsimp only)

theorem State.geckoHalf_kept {P : List Part} {u s : State} (hk : Kept P u s) (o : Nat) (zs : List Int) (sub : Nat) (hP : Sub [.aud] P := by exact Sub.of ‹_› (by rfl)) : Kept P u (State.geckoHalf s o zs sub).2 := by
  unfold State.geckoHalf
  repeat' first
    | (with_reducible assumption)
    | (with_reducible apply State.setSlot_kept)
    | (exact Sub.of ‹_› (by rfl))
    | split
    | (dsimp only)

theorem State.geckoHalf_kept' {P : List Part} {u s t : State} {r₀ : List Int} {o : Nat} {zs : List Int} {sub : Nat} (hk : Kept P u s) (he₀ : (State.geckoHalf s o zs sub) = (r₀, t)) (hP : Sub [.aud] P := by exact Sub.of ‹_› (by rfl)) : Kept P u t := by
  have := State.geckoHalf_kept hk o zs sub
  rw [he₀] at this; exact this

theorem State.geckoSlot_kept {P : List Part} {u s : State} (hk : Kept P u s) (o : Nat) (t₁ : Nat) (hP : Sub [.regs, .aud, .vec] P := by exact Sub.of ‹_› (by rfl)) : Kept P u (State.geckoSlot s o t₁) := by
  unfold State.geckoSlot
  repeat' first
    | (with_reducible assumption)
    | (with_reducible apply State.inc_kept)
    | (with_reducible apply State.raise_kept)
    | (with_reducible apply State.setSlot_kept)
    | (with_reducible apply State.slotHalf_kept)
    | (with_reducible apply State.geckoHalf_kept)
    | (refine State.geckoHalf_kept' ?_ (by with_reducible assumption))
    | (with_reducible refine Kept.foldl ?_ ?_)
    | (exact Sub.of ‹_› (by rfl))
    | (intro _)
    | split
    | (dsimp only)

theorem State.slotEnd_kept {P : List Part} {u s : State} (hk : Kept P u s) (o : Nat) (hP : Sub [.regs, .fst, .aud, .host, .vec] P := by exact Sub.of ‹_› (by rfl)) : Kept P u (State.slotEnd s o) := by
  unfold State.slotEnd
  repeat' first
    | (with_reducible assumption)
    | (with_reducible apply State.setSlot_kept)
    | (with_reducible apply State.fadeDone_kept)
    | (with_reducible apply State.endSlot_kept)
    | (exact Sub.of ‹_› (by rfl))
    | (intro _)
    | split
    | (dsimp only)

theorem State.pathStep_kept {P : List Part} {u s : State} (hk : Kept P u s) (u₁ : Nat) (hP : Sub [.regs, .fst, .aud, .vec] P := by exact Sub.of ‹_› (by rfl)) : Kept P u (State.pathStep s u₁) := by
  unfold State.pathStep
  repeat' first
    | (with_reducible assumption)
    | (with_reducible apply State.pathLen_kept)
    | (exact Sub.of ‹_› (by rfl))
    | (simp only [Kept.mk_iff]; with_reducible apply KeptC.of)
    | (with_reducible exact Or.inr rfl)
    | (with_reducible exact Or.inr ⟨rfl, rfl⟩)
    | (exact Or.inl (Sub.mem ‹_› (by rfl)))
    | (with_reducible rfl)
    | (intro _)
    | split
    | (dsimp only)

theorem State.renameSlot_kept {P : List Part} {u s : State} (hk : Kept P u s) (o : Nat) (p : Nat) (hP : Sub [.host] P := by exact Sub.of ‹_› (by rfl)) : Kept P u (State.renameSlot s o p) := by
  unfold State.renameSlot
  repeat' first
    | (with_reducible assumption)
    | (with_reducible apply State.setOp_kept)
    | (with_reducible refine Kept.foldl ?_ ?_)
    | (exact Sub.of ‹_› (by rfl))
    | (intro _)
    | split
    | (dsimp only)

theorem State.slotRate_kept {P : List Part} {u s : State} (hk : Kept P u s) (o : Nat) (hP : Sub [.fst, .aud, .host] P := by exact Sub.of ‹_› (by rfl)) : Kept P u (State.slotRate s o) := by
  unfold State.slotRate
  repeat' first
    | (with_reducible assumption)
    | (with_reducible apply State.setSlot_kept)
    | (with_reducible apply State.dropSlot_kept)
    | (with_reducible apply State.trimAudio_kept)
    | (with_reducible apply State.renameSlot_kept)
    | (exact Sub.of ‹_› (by rfl))
    | split
    | (dsimp only)

theorem State.rampStep_kept {P : List Part} {u s : State} (hk : Kept P u s)  (hP : Sub [.aud] P := by exact Sub.of ‹_› (by rfl)) : Kept P u (State.rampStep s) := by
  unfold State.rampStep
  repeat' first
    | (with_reducible assumption)
    | (exact Sub.of ‹_› (by rfl))
    | (simp only [Kept.mk_iff]; with_reducible apply KeptC.of)
    | (with_reducible exact Or.inr rfl)
    | (with_reducible exact Or.inr ⟨rfl, rfl⟩)
    | (exact Or.inl (Sub.mem ‹_› (by rfl)))
    | (with_reducible rfl)
    | (intro _)
    | split
    | (dsimp only)

theorem State.audioSend_kept {P : List Part} {u s : State} (hk : Kept P u s) (n : Nat) (hP : Sub [.media] P := by exact Sub.of ‹_› (by rfl)) : Kept P u (State.audioSend s n) := by
  unfold State.audioSend
  repeat' first
    | (with_reducible assumption)
    | (exact Sub.of ‹_› (by rfl))
    | (simp only [Kept.mk_iff]; with_reducible apply KeptC.of)
    | (with_reducible exact Or.inr rfl)
    | (with_reducible exact Or.inr ⟨rfl, rfl⟩)
    | (exact Or.inl (Sub.mem ‹_› (by rfl)))
    | (with_reducible rfl)
    | (intro _)
    | split
    | (dsimp only)

theorem State.aesBlocks_kept {P : List Part} {u s : State} (hk : Kept P u s) (n : Nat) (hP : Sub [.aud] P := by exact Sub.of ‹_› (by rfl)) : Kept P u (State.aesBlocks s n) := by
  unfold State.aesBlocks
  repeat' first
    | (with_reducible assumption)
    | (with_reducible refine Kept.foldl ?_ ?_)
    | (exact Sub.of ‹_› (by rfl))
    | (simp only [Kept.mk_iff]; with_reducible apply KeptC.of)
    | (with_reducible exact Or.inr rfl)
    | (with_reducible exact Or.inr ⟨rfl, rfl⟩)
    | (exact Or.inl (Sub.mem ‹_› (by rfl)))
    | (with_reducible rfl)
    | (intro _)
    | split
    | (dsimp only)

end Sys2Proof.Machine
end

