-- ==== Sys2Proof/Laws/KeptAxlOps.lean ====
section
/-! SUPPORT. The operations of Machine/AxlOps.lean keep the queue and the canonical forms, and which parts of the state they may change. -/
set_option Elab.async false
namespace Sys2Proof.Machine

theorem State.storeBody_kept {P : List Part} {u s : State} (hk : Kept P u s) (k : Nat) (b : RecBody) (first : Bool) (second : Bool) (hP : Sub [.regs, .media, .xpt, .fst, .fstMem, .che, .sou, .aud, .vec, .syn, .flt, .axl, .hsf] P := by exact Sub.of ‹_› (by rfl)) : Kept P u (State.storeBody s k b first second) := by
  unfold State.storeBody
  repeat' first
    | (with_reducible assumption)
    | (with_reducible apply State.raise_kept)
    | (with_reducible apply State.dirty_kept)
    | (with_reducible apply State.writeRec_kept)
    | (with_reducible apply State.reportError_kept)
    | (exact Sub.of ‹_› (by rfl))
    | split
    | (dsimp only)

theorem State.storeRec_kept {P : List Part} {u s : State} (hk : Kept P u s) (k : Nat) (first : Bool) (second : Bool) (hP : Sub [.regs, .media, .xpt, .fst, .fstMem, .che, .sou, .aud, .vec, .syn, .flt, .axl, .hsf] P := by exact Sub.of ‹_› (by rfl)) : Kept P u (State.storeRec s k first second) := by
  unfold State.storeRec
  repeat' first
    | (with_reducible assumption)
    | (with_reducible apply State.storeBody_kept)
    | (exact Sub.of ‹_› (by rfl))
    | (dsimp only)

theorem State.storeFrozen_kept {P : List Part} {u s : State} (hk : Kept P u s) (p : Nat × RecBody) (ok : Bool) (hP : Sub [.regs, .media, .xpt, .fst, .fstMem, .che, .sou, .aud, .vec, .syn, .flt, .axl, .hsf] P := by exact Sub.of ‹_› (by rfl)) : Kept P u (State.storeFrozen s p ok) := by
  unfold State.storeFrozen
  repeat' first
    | (with_reducible assumption)
    | (with_reducible apply State.dirty_kept)
    | (with_reducible apply State.storeBody_kept)
    | (exact Sub.of ‹_› (by rfl))
    | split
    | (dsimp only)

end Sys2Proof.Machine
end

