-- ==== Sys2Proof/Laws/KeptHostOps.lean ====
section
/-! SUPPORT. The operations of Machine/HostOps.lean keep the queue and the canonical forms, and which parts of the state they may change. -/
set_option Elab.async false
namespace Sys2Proof.Machine

theorem State.setRingSt_kept {P : List Part} {u s : State} (hk : Kept P u s) (n : Nat) (st : Nat) (hP : Sub [.regs] P := by exact Sub.of ‹_› (by rfl)) : Kept P u (State.setRingSt s n st) := by
  unfold State.setRingSt
  repeat' first
    | (with_reducible assumption)
    | (with_reducible apply State.set_kept)
    | (exact Sub.of ‹_› (by rfl))
    | (dsimp only)

theorem State.stopRing_kept {P : List Part} {u s : State} (hk : Kept P u s) (n : Nat) (hP : Sub [.regs, .vec] P := by exact Sub.of ‹_› (by rfl)) : Kept P u (State.stopRing s n) := by
  unfold State.stopRing
  repeat' first
    | (with_reducible assumption)
    | (with_reducible apply State.raise_kept)
    | (with_reducible apply State.setRingSt_kept)
    | (exact Sub.of ‹_› (by rfl))
    | (dsimp only)

theorem State.croakErr_kept {P : List Part} {u s : State} (hk : Kept P u s) (n : Nat) (hP : Sub [.regs, .vec] P := by exact Sub.of ‹_› (by rfl)) : Kept P u (State.croakErr s n) := by
  unfold State.croakErr
  repeat' first
    | (with_reducible assumption)
    | (with_reducible apply State.raise_kept)
    | (exact Sub.of ‹_› (by rfl))
    | (dsimp only)

theorem State.cfgErr_kept {P : List Part} {u s : State} (hk : Kept P u s) (n : Nat) (hP : Sub [.regs, .vec] P := by exact Sub.of ‹_› (by rfl)) : Kept P u (State.cfgErr s n) := by
  unfold State.cfgErr
  repeat' first
    | (with_reducible assumption)
    | (with_reducible apply State.raise_kept)
    | (exact Sub.of ‹_› (by rfl))
    | (dsimp only)

theorem State.startRing_kept {P : List Part} {u s : State} (hk : Kept P u s) (n : Nat) (hP : Sub [.regs, .host, .hostMem, .sec] P := by exact Sub.of ‹_› (by rfl)) : Kept P u (State.startRing s n) := by
  unfold State.startRing
  repeat' first
    | (with_reducible assumption)
    | (with_reducible apply State.wr_kept)
    | (with_reducible apply State.set_kept)
    | (with_reducible apply State.setRst_kept)
    | (with_reducible apply State.deliverHeld_kept)
    | (with_reducible apply State.setRingSt_kept)
    | (exact Sub.of ‹_› (by rfl))
    | (simp only [Kept.mk_iff]; with_reducible apply KeptC.of)
    | (with_reducible exact Or.inr rfl)
    | (with_reducible exact Or.inr ⟨rfl, rfl⟩)
    | (exact Or.inl (Sub.mem ‹_› (by rfl)))
    | (with_reducible rfl)
    | split
    | (dsimp only)

theorem State.domEnter_kept {P : List Part} {u s : State} (hk : Kept P u s) (n : Nat) (hP : Sub [.host] P := by exact Sub.of ‹_› (by rfl)) : Kept P u (State.domEnter s n) := by
  unfold State.domEnter
  repeat' first
    | (with_reducible assumption)
    | (with_reducible apply State.setRst_kept)
    | (with_reducible refine Kept.foldl ?_ ?_)
    | (exact Sub.of ‹_› (by rfl))
    | (intro _)
    | split
    | (dsimp only)

theorem State.croak_kept {P : List Part} {u s : State} (hk : Kept P u s) (n : Nat) (v : Nat) (hP : Sub [.regs, .host, .vec] P := by exact Sub.of ‹_› (by rfl)) : Kept P u (State.croak s n v) := by
  unfold State.croak
  repeat' first
    | (with_reducible assumption)
    | (with_reducible apply State.setRst_kept)
    | (with_reducible apply State.stopRing_kept)
    | (with_reducible apply State.croakErr_kept)
    | (exact Sub.of ‹_› (by rfl))
    | split
    | (dsimp only)

theorem State.cqHead_kept {P : List Part} {u s : State} (hk : Kept P u s) (n : Nat) (v : Nat) (hP : Sub [.regs, .host, .vec] P := by exact Sub.of ‹_› (by rfl)) : Kept P u (State.cqHead s n v) := by
  unfold State.cqHead
  repeat' first
    | (with_reducible assumption)
    | (with_reducible apply State.setRst_kept)
    | (with_reducible apply State.stopRing_kept)
    | (with_reducible apply State.croakErr_kept)
    | (with_reducible apply State.domEnter_kept)
    | (exact Sub.of ‹_› (by rfl))
    | split
    | (dsimp only)

theorem State.bar2Write_kept {P : List Part} {u s : State} (hk : Kept P u s) (o : Nat) (v : Nat) (hP : Sub [.regs, .host, .vec] P := by exact Sub.of ‹_› (by rfl)) : Kept P u (State.bar2Write s o v) := by
  unfold State.bar2Write
  repeat' first
    | (with_reducible assumption)
    | (with_reducible apply State.croak_kept)
    | (with_reducible apply State.cqHead_kept)
    | (exact Sub.of ‹_› (by rfl))
    | split
    | (dsimp only)

theorem State.dropHost_kept {P : List Part} {u s : State} (hk : Kept P u s)  (hP : Sub [.regs, .fst, .host, .vec, .hsf] P := by exact Sub.of ‹_› (by rfl)) : Kept P u (State.dropHost s) := by
  unfold State.dropHost
  repeat' first
    | (with_reducible assumption)
    | (with_reducible apply State.count_kept)
    | (with_reducible apply State.raise_kept)
    | (with_reducible apply State.setRst_kept)
    | (with_reducible apply State.dmaEnd_kept)
    | (with_reducible apply State.leapRateCheck_kept)
    | (with_reducible apply State.raiseOver_kept)
    | (with_reducible apply State.setRingSt_kept)
    | (with_reducible refine Kept.foldl ?_ ?_)
    | (exact Sub.of ‹_› (by rfl))
    | (simp only [Kept.mk_iff]; with_reducible apply KeptC.of)
    | (with_reducible exact Or.inr rfl)
    | (with_reducible exact Or.inr ⟨rfl, rfl⟩)
    | (exact Or.inl (Sub.mem ‹_› (by rfl)))
    | (with_reducible rfl)
    | (intro _)
    | split
    | (dsimp only)

theorem State.coalesce_kept {P : List Part} {u s : State} (hk : Kept P u s) (n : Nat) (irq : Bool) (hP : Sub [.host, .vec] P := by exact Sub.of ‹_› (by rfl)) : Kept P u (State.coalesce s n irq) := by
  unfold State.coalesce
  repeat' first
    | (with_reducible assumption)
    | (with_reducible apply State.raiseVec_kept)
    | (with_reducible apply State.setRst_kept)
    | (exact Sub.of ‹_› (by rfl))
    | split
    | (dsimp only)

theorem State.dropCpl_kept {P : List Part} {u s : State} (hk : Kept P u s) (c : Cpl) (hP : Sub [.regs, .fst, .host] P := by exact Sub.of ‹_› (by rfl)) : Kept P u (State.dropCpl s c) := by
  unfold State.dropCpl
  repeat' first
    | (with_reducible assumption)
    | (with_reducible apply State.dmaEnd_kept)
    | (with_reducible apply State.leapRateCheck_kept)
    | (exact Sub.of ‹_› (by rfl))
    | (simp only [Kept.mk_iff]; with_reducible apply KeptC.of)
    | (with_reducible exact Or.inr rfl)
    | (with_reducible exact Or.inr ⟨rfl, rfl⟩)
    | (exact Or.inl (Sub.mem ‹_› (by rfl)))
    | (with_reducible rfl)
    | (dsimp only)

theorem State.postCpl_kept {P : List Part} {u s : State} (hk : Kept P u s) (n : Nat) (c : Cpl) (hP : Sub [.regs, .fst, .host, .vec, .hostMem] P := by exact Sub.of ‹_› (by rfl)) : Kept P u (State.postCpl s n c) := by
  unfold State.postCpl
  repeat' first
    | (with_reducible assumption)
    | (with_reducible apply State.hostWrite_kept)
    | (with_reducible apply State.set_kept)
    | (with_reducible apply State.inc_kept)
    | (with_reducible apply State.setRst_kept)
    | (with_reducible apply State.coalesce_kept)
    | (with_reducible apply State.dropCpl_kept)
    | (exact Sub.of ‹_› (by rfl))
    | split
    | (dsimp only)

theorem State.loseCpl_kept {P : List Part} {u s : State} (hk : Kept P u s) (n : Nat) (c : Cpl) (hP : Sub [.regs, .fst, .host, .vec] P := by exact Sub.of ‹_› (by rfl)) : Kept P u (State.loseCpl s n c) := by
  unfold State.loseCpl
  repeat' first
    | (with_reducible assumption)
    | (with_reducible apply State.raise_kept)
    | (with_reducible apply State.stopRing_kept)
    | (with_reducible apply State.dropCpl_kept)
    | (exact Sub.of ‹_› (by rfl))
    | split
    | (dsimp only)

theorem State.takeTurn_kept {P : List Part} {u s : State} (hk : Kept P u s) (n : Nat) (hP : Sub [.host] P := by exact Sub.of ‹_› (by rfl)) : Kept P u (State.takeTurn s n) := by
  unfold State.takeTurn
  repeat' first
    | (with_reducible assumption)
    | (exact Sub.of ‹_› (by rfl))
    | (simp only [Kept.mk_iff]; with_reducible apply KeptC.of)
    | (with_reducible exact Or.inr rfl)
    | (with_reducible exact Or.inr ⟨rfl, rfl⟩)
    | (exact Or.inl (Sub.mem ‹_› (by rfl)))
    | (with_reducible rfl)
    | split
    | (dsimp only)

theorem State.abortCommit_kept {P : List Part} {u s : State} (hk : Kept P u s) (id : Nat) (hP : Sub [.regs, .host, .vec] P := by exact Sub.of ‹_› (by rfl)) : Kept P u (State.abortCommit s id) := by
  unfold State.abortCommit
  repeat' first
    | (with_reducible assumption)
    | (with_reducible apply State.finish_kept)
    | (exact Sub.of ‹_› (by rfl))
    | (dsimp only)

theorem State.abandon_kept {P : List Part} {u s : State} (hk : Kept P u s) (n : Nat) (hP : Sub [.regs, .xpt, .fst, .che, .sou, .aud, .host, .vec, .hostMem, .sec] P := by exact Sub.of ‹_› (by rfl)) : Kept P u (State.abandon s n) := by
  unfold State.abandon
  repeat' first
    | (with_reducible assumption)
    | (with_reducible apply State.abortOp_kept)
    | (with_reducible apply State.abortAudio_kept)
    | (with_reducible apply State.abortCommit_kept)
    | (with_reducible refine Kept.foldl ?_ ?_)
    | (exact Sub.of ‹_› (by rfl))
    | (intro _)
    | split
    | (dsimp only)

end Sys2Proof.Machine
end

