-- ==== Sys2Proof/Laws/KeptMedia.lean ====
section
/-! SUPPORT. The operations of Machine/Media.lean keep the queue and the canonical forms, and which parts of the state they may change. -/
set_option Elab.async false
namespace Sys2Proof.Machine

theorem State.carrierDetect_kept {P : List Part} {u s : State} (hk : Kept P u s) (n : Nat) (hP : Sub [.regs] P := by exact Sub.of ‹_› (by rfl)) : Kept P u (State.carrierDetect s n) := by
  unfold State.carrierDetect
  repeat' first
    | (with_reducible assumption)
    | (with_reducible apply State.set_kept)
    | (exact Sub.of ‹_› (by rfl))
    | split
    | (dsimp only)

theorem State.cdrLocked_kept {P : List Part} {u s : State} (hk : Kept P u s) (n : Nat) (rate : Nat) (hP : Sub [.regs] P := by exact Sub.of ‹_› (by rfl)) : Kept P u (State.cdrLocked s n rate) := by
  unfold State.cdrLocked
  repeat' first
    | (with_reducible assumption)
    | (with_reducible apply State.set_kept)
    | (exact Sub.of ‹_› (by rfl))
    | split
    | (dsimp only)

theorem State.cwFormat_kept {P : List Part} {u s : State} (hk : Kept P u s) (src : Nat) (fmt : Nat) (hP : Sub [.fst] P := by exact Sub.of ‹_› (by rfl)) : Kept P u (State.cwFormat s src fmt) := by
  unfold State.cwFormat
  repeat' first
    | (with_reducible assumption)
    | (with_reducible apply State.setCw_kept)
    | (with_reducible refine Kept.foldl ?_ ?_)
    | (exact Sub.of ‹_› (by rfl))
    | (intro _)
    | split
    | (dsimp only)

theorem State.rxShow_kept {P : List Part} {u s : State} (hk : Kept P u s) (n : Nat) (m : LaneMeas) (hP : Sub [.regs] P := by exact Sub.of ‹_› (by rfl)) : Kept P u (State.rxShow s n m) := by
  unfold State.rxShow
  repeat' first
    | (with_reducible assumption)
    | (with_reducible apply State.set_kept)
    | (with_reducible apply State.setB_kept)
    | (exact Sub.of ‹_› (by rfl))
    | (dsimp only)

theorem State.rxPid_kept {P : List Part} {u s : State} (hk : Kept P u s) (n : Nat) (pid : Option Word) (hP : Sub [.regs, .vec] P := by exact Sub.of ‹_› (by rfl)) : Kept P u (State.rxPid s n pid) := by
  unfold State.rxPid
  repeat' first
    | (with_reducible assumption)
    | (with_reducible apply State.wr_kept)
    | (with_reducible apply State.raise_kept)
    | (exact Sub.of ‹_› (by rfl))
    | split
    | (dsimp only)

theorem State.rxAtc_kept {P : List Part} {u s : State} (hk : Kept P u s) (n : Nat) (atc : Option Word) (hP : Sub [.regs] P := by exact Sub.of ‹_› (by rfl)) : Kept P u (State.rxAtc s n atc) := by
  unfold State.rxAtc
  repeat' first
    | (with_reducible assumption)
    | (with_reducible apply State.wr_kept)
    | (exact Sub.of ‹_› (by rfl))
    | split
    | (dsimp only)

theorem State.rxRegained_kept {P : List Part} {u s : State} (hk : Kept P u s) (n : Nat) (fmt : Nat) (hP : Sub [.regs, .vec] P := by exact Sub.of ‹_› (by rfl)) : Kept P u (State.rxRegained s n fmt) := by
  unfold State.rxRegained
  repeat' first
    | (with_reducible assumption)
    | (with_reducible apply State.raise_kept)
    | (exact Sub.of ‹_› (by rfl))
    | split
    | (dsimp only)

theorem State.startAt_kept {P : List Part} {u s : State} (hk : Kept P u s) (n : Nat) (m : LaneMeas) (hP : Sub [.regs, .media, .xpt, .fst, .vec] P := by exact Sub.of ‹_› (by rfl)) : Kept P u (State.startAt s n m) := by
  unfold State.startAt
  repeat' first
    | (with_reducible assumption)
    | (with_reducible apply State.raise_kept)
    | (with_reducible apply State.setRx_kept)
    | (with_reducible apply State.refreshSrc_kept)
    | (with_reducible apply State.groupShow_kept)
    | (with_reducible apply State.cwFormat_kept)
    | (with_reducible apply State.rxShow_kept)
    | (with_reducible apply State.rxPid_kept)
    | (with_reducible apply State.rxAtc_kept)
    | (with_reducible apply State.rxRegained_kept)
    | (exact Sub.of ‹_› (by rfl))
    | split
    | (dsimp only)

theorem State.rateForceWrite_kept {P : List Part} {u s : State} (hk : Kept P u s) (n : Fin 72) (v : Nat) (t₁ : Nat) (hP : Sub [.regs, .media, .xpt, .fst, .aud] P := by exact Sub.of ‹_› (by rfl)) : Kept P u (State.rateForceWrite s n v t₁) := by
  unfold State.rateForceWrite
  repeat' first
    | (with_reducible assumption)
    | (with_reducible apply State.set_kept)
    | (with_reducible apply State.at__kept)
    | (with_reducible apply State.rxDown_kept)
    | (with_reducible apply State.groupRelock_kept)
    | (exact Sub.of ‹_› (by rfl))
    | split
    | (dsimp only)

theorem State.txLanes_kept {P : List Part} {u s : State} (hk : Kept P u s) (n : Nat) (k : Nat) (hP : Sub [.regs] P := by exact Sub.of ‹_› (by rfl)) : Kept P u (State.txLanes s n k) := by
  unfold State.txLanes
  repeat' first
    | (with_reducible assumption)
    | (with_reducible apply State.txRefresh_kept)
    | (with_reducible refine Kept.foldl ?_ ?_)
    | (exact Sub.of ‹_› (by rfl))
    | (intro _)
    | (dsimp only)

theorem State.multiTx_kept {P : List Part} {u s : State} (hk : Kept P u s) (n : Nat) (v : Nat) (hP : Sub [.regs, .media] P := by exact Sub.of ‹_› (by rfl)) : Kept P u (State.multiTx s n v) := by
  unfold State.multiTx
  repeat' first
    | (with_reducible assumption)
    | (with_reducible apply State.set_kept)
    | (with_reducible apply State.setTx_kept)
    | (with_reducible apply State.txLanes_kept)
    | (exact Sub.of ‹_› (by rfl))
    | split
    | (dsimp only)

theorem State.multiRx_kept {P : List Part} {u s : State} (hk : Kept P u s) (n : Nat) (v : Nat) (hP : Sub [.regs, .media, .vec] P := by exact Sub.of ‹_› (by rfl)) : Kept P u (State.multiRx s n v) := by
  unfold State.multiRx
  repeat' first
    | (with_reducible assumption)
    | (with_reducible apply State.set_kept)
    | (with_reducible apply State.raise_kept)
    | (with_reducible apply State.setRx_kept)
    | (exact Sub.of ‹_› (by rfl))
    | split
    | (dsimp only)

theorem State.multiWrite_kept {P : List Part} {u s : State} (hk : Kept P u s) (tx : Bool) (n : Fin 72) (v : Nat) (hP : Sub [.regs, .media, .vec] P := by exact Sub.of ‹_› (by rfl)) : Kept P u (State.multiWrite s tx n v) := by
  unfold State.multiWrite
  repeat' first
    | (with_reducible assumption)
    | (with_reducible apply State.multiTx_kept)
    | (with_reducible apply State.multiRx_kept)
    | (exact Sub.of ‹_› (by rfl))
    | split
    | (dsimp only)

theorem State.groupRx_kept {P : List Part} {u s : State} (hk : Kept P u s) (n : Nat) (fmt : Nat) (hP : Sub [.regs, .media, .vec] P := by exact Sub.of ‹_› (by rfl)) : Kept P u (State.groupRx s n fmt) := by
  unfold State.groupRx
  repeat' first
    | (with_reducible assumption)
    | (with_reducible apply State.set_kept)
    | (with_reducible apply State.raise_kept)
    | (with_reducible apply State.setRx_kept)
    | (with_reducible apply State.groupShow_kept)
    | (exact Sub.of ‹_› (by rfl))
    | (intro _)
    | split
    | (dsimp only)

theorem State.groupTx_kept {P : List Part} {u s : State} (hk : Kept P u s) (n : Nat) (hP : Sub [.regs, .media] P := by exact Sub.of ‹_› (by rfl)) : Kept P u (State.groupTx s n) := by
  unfold State.groupTx
  repeat' first
    | (with_reducible assumption)
    | (with_reducible apply State.setTx_kept)
    | (with_reducible apply State.txLanes_kept)
    | (exact Sub.of ‹_› (by rfl))
    | split
    | (dsimp only)

theorem State.txPower_kept {P : List Part} {u s : State} (hk : Kept P u s) (n : Nat) (en : Bool) (pd : Bool) (t₁ : Nat) (hP : Sub [.regs, .media] P := by exact Sub.of ‹_› (by rfl)) : Kept P u (State.txPower s n en pd t₁) := by
  unfold State.txPower
  repeat' first
    | (with_reducible assumption)
    | (with_reducible apply State.setB_kept)
    | (with_reducible apply State.setTx_kept)
    | (with_reducible apply State.txRefresh_kept)
    | (exact Sub.of ‹_› (by rfl))
    | split
    | (dsimp only)

theorem State.txWake_kept {P : List Part} {u s : State} (hk : Kept P u s) (n : Nat) (t₁ : Nat) (hP : Sub [.regs, .media, .xpt] P := by exact Sub.of ‹_› (by rfl)) : Kept P u (State.txWake s n t₁) := by
  unfold State.txWake
  repeat' first
    | (with_reducible assumption)
    | (with_reducible apply State.set_kept)
    | (with_reducible apply State.setTx_kept)
    | (with_reducible apply State.sendsAfresh_kept)
    | (exact Sub.of ‹_› (by rfl))
    | split
    | (dsimp only)

theorem State.qeModeWrite_kept {P : List Part} {u s : State} (hk : Kept P u s) (q : Fin 4) (mode : Bool) (hP : Sub [.regs, .vec] P := by exact Sub.of ‹_› (by rfl)) : Kept P u (State.qeModeWrite s q mode) := by
  unfold State.qeModeWrite
  repeat' first
    | (with_reducible assumption)
    | (with_reducible apply State.setB_kept)
    | (with_reducible apply State.raise_kept)
    | (with_reducible apply State.qeDown_kept)
    | (with_reducible refine Kept.foldl ?_ ?_)
    | (exact Sub.of ‹_› (by rfl))
    | (intro _)
    | split
    | (dsimp only)

theorem State.flowPacket_kept {P : List Part} {u s : State} (hk : Kept P u s) (key : Nat) (legB : Bool) (p : RtpPkt) (t₁ : Nat) (hP : Sub [.regs, .media, .xpt] P := by exact Sub.of ‹_› (by rfl)) : Kept P u (State.flowPacket s key legB p t₁) := by
  unfold State.flowPacket
  repeat' first
    | (with_reducible assumption)
    | (with_reducible apply State.refreshSrc_kept)
    | (exact Sub.of ‹_› (by rfl))
    | (simp only [Kept.mk_iff]; with_reducible apply KeptC.of)
    | (with_reducible exact Or.inr rfl)
    | (with_reducible exact Or.inr ⟨rfl, rfl⟩)
    | (exact Or.inl (Sub.mem ‹_› (by rfl)))
    | (with_reducible rfl)
    | split
    | (dsimp only)

theorem State.askedFor_kept {P : List Part} {u s : State} (hk : Kept P u s) (q : Nat) (sub : Nat) (own : Nat) (addr : Nat) (m : NetMsg) (hP : Sub [.regs, .media] P := by exact Sub.of ‹_› (by rfl)) : Kept P u (State.askedFor s q sub own addr m) := by
  unfold State.askedFor
  repeat' first
    | (with_reducible assumption)
    | (with_reducible apply State.inc_kept)
    | (exact Sub.of ‹_› (by rfl))
    | (simp only [Kept.mk_iff]; with_reducible apply KeptC.of)
    | (with_reducible exact Or.inr rfl)
    | (with_reducible exact Or.inr ⟨rfl, rfl⟩)
    | (exact Or.inl (Sub.mem ‹_› (by rfl)))
    | (with_reducible rfl)
    | split
    | (dsimp only)

end Sys2Proof.Machine
end

