-- ==== Sys2Proof/Laws/KeptLvOps.lean ====
section
/-! SUPPORT. The operations of Machine/LvOps.lean keep the queue and the canonical forms, and which parts of the state they may change. -/
set_option Elab.async false
namespace Sys2Proof.Machine

theorem State.lvIrq_kept {P : List Part} {u s : State} (hk : Kept P u s) (b : Nat) (hP : Sub [.lv] P := by exact Sub.of ‹_› (by rfl)) : Kept P u (State.lvIrq s b) := by
  unfold State.lvIrq
  repeat' first
    | (with_reducible assumption)
    | (exact Sub.of ‹_› (by rfl))
    | (simp only [Kept.mk_iff]; with_reducible apply KeptC.of)
    | (with_reducible exact Or.inr rfl)
    | (with_reducible exact Or.inr ⟨rfl, rfl⟩)
    | (exact Or.inl (Sub.mem ‹_› (by rfl)))
    | (with_reducible rfl)
    | (dsimp only)

theorem State.setLvOut_kept {P : List Part} {u s : State} (hk : Kept P u s) (o : Nat) (x : LvOut) (hP : Sub [.lv] P := by exact Sub.of ‹_› (by rfl)) : Kept P u (State.setLvOut s o x) := by
  unfold State.setLvOut
  repeat' first
    | (with_reducible assumption)
    | (exact Sub.of ‹_› (by rfl))
    | (simp only [Kept.mk_iff]; with_reducible apply KeptC.of)
    | (with_reducible exact Or.inr rfl)
    | (with_reducible exact Or.inr ⟨rfl, rfl⟩)
    | (exact Or.inl (Sub.mem ‹_› (by rfl)))
    | (with_reducible rfl)
    | (dsimp only)

theorem State.lvAesChan_kept {P : List Part} {u s : State} (hk : Kept P u s) (n : Nat) (c : Nat) (src : Option Nat) (hP : Sub [.aud] P := by exact Sub.of ‹_› (by rfl)) : Kept P u (State.lvAesChan s n c src) := by
  unfold State.lvAesChan
  repeat' first
    | (with_reducible assumption)
    | (with_reducible apply State.setSlot_kept)
    | (with_reducible apply State.dropSlot_kept)
    | (exact Sub.of ‹_› (by rfl))
    | split
    | (dsimp only)

theorem State.lvAesOn_kept {P : List Part} {u s : State} (hk : Kept P u s) (n : Nat) (hP : Sub [.regs, .vec] P := by exact Sub.of ‹_› (by rfl)) : Kept P u (State.lvAesOn s n) := by
  unfold State.lvAesOn
  repeat' first
    | (with_reducible assumption)
    | (with_reducible apply State.aesoWrite_kept)
    | (exact Sub.of ‹_› (by rfl))
    | (intro _)
    | split
    | (dsimp only)

theorem State.lvAes__kept {P : List Part} {u s : State} (hk : Kept P u s)  (hP : Sub [.regs, .aud, .vec] P := by exact Sub.of ‹_› (by rfl)) : Kept P u (State.lvAes_ s) := by
  unfold State.lvAes_
  repeat' first
    | (with_reducible assumption)
    | (with_reducible apply State.lvAesChan_kept)
    | (with_reducible apply State.lvAesOn_kept)
    | (with_reducible refine Kept.foldl ?_ ?_)
    | (exact Sub.of ‹_› (by rfl))
    | (intro _)
    | split
    | (dsimp only)

theorem State.lvHoldRx_kept {P : List Part} {u s : State} (hk : Kept P u s) (n : Nat) (hP : Sub [.regs, .media] P := by exact Sub.of ‹_› (by rfl)) : Kept P u (State.lvHoldRx s n) := by
  unfold State.lvHoldRx
  repeat' first
    | (with_reducible assumption)
    | (with_reducible apply State.set_kept)
    | (with_reducible apply State.setRx_kept)
    | (exact Sub.of ‹_› (by rfl))
    | (dsimp only)

theorem State.lvHoldTx_kept {P : List Part} {u s : State} (hk : Kept P u s) (o : Nat) (t₁ : Nat) (hP : Sub [.regs, .media] P := by exact Sub.of ‹_› (by rfl)) : Kept P u (State.lvHoldTx s o t₁) := by
  unfold State.lvHoldTx
  repeat' first
    | (with_reducible assumption)
    | (with_reducible apply State.set_kept)
    | (with_reducible apply State.setTx_kept)
    | (with_reducible apply State.txPower_kept)
    | (exact Sub.of ‹_› (by rfl))
    | (dsimp only)

theorem State.lvHold_kept {P : List Part} {u s : State} (hk : Kept P u s) (t₁ : Nat) (hP : Sub [.regs, .media, .aud, .vec] P := by exact Sub.of ‹_› (by rfl)) : Kept P u (State.lvHold s t₁) := by
  unfold State.lvHold
  repeat' first
    | (with_reducible assumption)
    | (with_reducible apply State.lvAes__kept)
    | (with_reducible apply State.lvHoldRx_kept)
    | (with_reducible apply State.lvHoldTx_kept)
    | (with_reducible refine Kept.foldl ?_ ?_)
    | (exact Sub.of ‹_› (by rfl))
    | (intro _)
    | split
    | (dsimp only)

theorem State.lvFollow_kept {P : List Part} {u s : State} (hk : Kept P u s)  (hP : Sub [.lv] P := by exact Sub.of ‹_› (by rfl)) : Kept P u (State.lvFollow s) := by
  unfold State.lvFollow
  repeat' first
    | (with_reducible assumption)
    | (with_reducible apply State.lvIrq_kept)
    | (with_reducible refine Kept.foldl ?_ ?_)
    | (exact Sub.of ‹_› (by rfl))
    | (simp only [Kept.mk_iff]; with_reducible apply KeptC.of)
    | (with_reducible exact Or.inr rfl)
    | (with_reducible exact Or.inr ⟨rfl, rfl⟩)
    | (exact Or.inl (Sub.mem ‹_› (by rfl)))
    | (with_reducible rfl)
    | (intro _)
    | split
    | (dsimp only)

theorem State.lvTakesDone_kept {P : List Part} {u s : State} (hk : Kept P u s)  (hP : Sub [.regs, .vec, .lv] P := by exact Sub.of ‹_› (by rfl)) : Kept P u (State.lvTakesDone s) := by
  unfold State.lvTakesDone
  repeat' first
    | (with_reducible assumption)
    | (with_reducible apply State.count_kept)
    | (with_reducible apply State.raise_kept)
    | (with_reducible apply State.lvIrq_kept)
    | (exact Sub.of ‹_› (by rfl))
    | (simp only [Kept.mk_iff]; with_reducible apply KeptC.of)
    | (with_reducible exact Or.inr rfl)
    | (with_reducible exact Or.inr ⟨rfl, rfl⟩)
    | (exact Or.inl (Sub.mem ‹_› (by rfl)))
    | (with_reducible rfl)
    | (intro _)
    | split
    | (dsimp only)

theorem State.lvBusy_kept {P : List Part} {u s : State} (hk : Kept P u s)  (hP : Sub [.lv] P := by exact Sub.of ‹_› (by rfl)) : Kept P u (State.lvBusy s) := by
  unfold State.lvBusy
  repeat' first
    | (with_reducible assumption)
    | (with_reducible apply State.lvIrq_kept)
    | (exact Sub.of ‹_› (by rfl))
    | (dsimp only)

theorem State.lvLatchOut_kept {P : List Part} {u s : State} (hk : Kept P u s) (k : Nat) (o : Nat) (hP : Sub [.regs, .vec, .lv] P := by exact Sub.of ‹_› (by rfl)) : Kept P u (State.lvLatchOut s k o) := by
  unfold State.lvLatchOut
  repeat' first
    | (with_reducible assumption)
    | (with_reducible apply State.raise_kept)
    | (with_reducible apply State.lvIrq_kept)
    | (exact Sub.of ‹_› (by rfl))
    | (simp only [Kept.mk_iff]; with_reducible apply KeptC.of)
    | (with_reducible exact Or.inr rfl)
    | (with_reducible exact Or.inr ⟨rfl, rfl⟩)
    | (exact Or.inl (Sub.mem ‹_› (by rfl)))
    | (with_reducible rfl)
    | split
    | (dsimp only)

theorem State.lvLatch_kept {P : List Part} {u s : State} (hk : Kept P u s) (l : List Nat) (hP : Sub [.regs, .vec, .hostMem, .lv, .sec] P := by exact Sub.of ‹_› (by rfl)) : Kept P u (State.lvLatch s l) := by
  unfold State.lvLatch
  repeat' first
    | (with_reducible assumption)
    | (with_reducible apply State.log_kept)
    | (with_reducible apply State.lvTakesDone_kept)
    | (with_reducible apply State.lvBusy_kept)
    | (with_reducible apply State.lvLatchOut_kept)
    | (with_reducible refine Kept.foldl ?_ ?_)
    | (exact Sub.of ‹_› (by rfl))
    | (simp only [Kept.mk_iff]; with_reducible apply KeptC.of)
    | (with_reducible exact Or.inr rfl)
    | (with_reducible exact Or.inr ⟨rfl, rfl⟩)
    | (exact Or.inl (Sub.mem ‹_› (by rfl)))
    | (with_reducible rfl)
    | (intro _)
    | split
    | (dsimp only)

theorem State.lvCarry_kept {P : List Part} {u s : State} (hk : Kept P u s) (o : Nat) (w : LvSwitch) (org : Nat) (t₁ : Nat) (hP : Sub [.regs, .media, .xpt, .fst, .che, .sou, .aud, .vec, .hostMem, .lv, .sec] P := by exact Sub.of ‹_› (by rfl)) : Kept P u (State.lvCarry s o w org t₁) := by
  unfold State.lvCarry
  repeat' first
    | (with_reducible assumption)
    | (with_reducible apply State.raise_kept)
    | (with_reducible apply State.setRoute_kept)
    | (with_reducible apply State.log_kept)
    | (with_reducible apply State.txRefresh_kept)
    | (with_reducible apply State.changeover_kept)
    | (with_reducible apply State.setLvOut_kept)
    | (exact Sub.of ‹_› (by rfl))
    | split
    | (dsimp only)

theorem State.lvSwitch_kept {P : List Part} {u s : State} (hk : Kept P u s) (o : Nat) (t₁ : Nat) (hP : Sub [.regs, .media, .xpt, .fst, .che, .sou, .aud, .vec, .hostMem, .lv, .sec] P := by exact Sub.of ‹_› (by rfl)) : Kept P u (State.lvSwitch s o t₁) := by
  unfold State.lvSwitch
  repeat' first
    | (with_reducible assumption)
    | (with_reducible apply State.lvAes__kept)
    | (with_reducible apply State.lvTakesDone_kept)
    | (with_reducible apply State.lvCarry_kept)
    | (exact Sub.of ‹_› (by rfl))
    | (simp only [Kept.mk_iff]; with_reducible apply KeptC.of)
    | (with_reducible exact Or.inr rfl)
    | (with_reducible exact Or.inr ⟨rfl, rfl⟩)
    | (exact Or.inl (Sub.mem ‹_› (by rfl)))
    | (with_reducible rfl)
    | split
    | (dsimp only)

theorem State.lvSetDue_kept {P : List Part} {u s : State} (hk : Kept P u s) (o : Nat) (q : Option Nat) (hP : Sub [.lv] P := by exact Sub.of ‹_› (by rfl)) : Kept P u (State.lvSetDue s o q) := by
  unfold State.lvSetDue
  repeat' first
    | (with_reducible assumption)
    | (exact Sub.of ‹_› (by rfl))
    | (simp only [Kept.mk_iff]; with_reducible apply KeptC.of)
    | (with_reducible exact Or.inr rfl)
    | (with_reducible exact Or.inr ⟨rfl, rfl⟩)
    | (exact Or.inl (Sub.mem ‹_› (by rfl)))
    | (with_reducible rfl)
    | split
    | (dsimp only)

theorem State.lvArm_kept {P : List Part} {u s : State} (hk : Kept P u s) (t₁ : Nat) (hP : Sub [.regs, .free, .media, .xpt, .fst, .che, .sou, .aud, .host, .vec, .hostMem, .lv, .sec, .mate] P := by exact Sub.of ‹_› (by rfl)) : Kept P u (State.lvArm s t₁) := by
  unfold State.lvArm
  repeat' first
    | (with_reducible assumption)
    | (with_reducible apply State.newId_kept)
    | (refine State.newId_kept' ?_ (by with_reducible assumption))
    | (with_reducible apply State.lvSwitch_kept)
    | (with_reducible refine Kept.foldl ?_ ?_)
    | (exact Sub.of ‹_› (by rfl))
    | (simp only [Kept.mk_iff]; with_reducible apply KeptC.of)
    | (with_reducible exact Or.inr rfl)
    | (with_reducible exact Or.inr ⟨rfl, rfl⟩)
    | (exact Or.inl (Sub.mem ‹_› (by rfl)))
    | (with_reducible rfl)
    | (intro _)
    | split
    | (dsimp only)

end Sys2Proof.Machine
end

