-- ==== Sys2Proof/Laws/KeptMateOps.lean ====
section
/-! SUPPORT. The operations of Machine/MateOps.lean keep the queue and the canonical forms, and which parts of the state they may change. -/
set_option Elab.async false
namespace Sys2Proof.Machine

theorem State.setEpoch_kept {P : List Part} {u s : State} (hk : Kept P u s) (e : Nat) (hP : Sub [.regs, .axl] P := by exact Sub.of ‹_› (by rfl)) : Kept P u (State.setEpoch s e) := by
  unfold State.setEpoch
  repeat' first
    | (with_reducible assumption)
    | (with_reducible apply State.wr_kept)
    | (with_reducible apply State.change_kept)
    | (exact Sub.of ‹_› (by rfl))
    | (dsimp only)

theorem State.setRole_kept {P : List Part} {u s : State} (hk : Kept P u s) (r : Nat) (hP : Sub [.regs, .vec] P := by exact Sub.of ‹_› (by rfl)) : Kept P u (State.setRole s r) := by
  unfold State.setRole
  repeat' first
    | (with_reducible assumption)
    | (with_reducible apply State.set_kept)
    | (with_reducible apply State.raiseMode_kept)
    | (exact Sub.of ‹_› (by rfl))
    | split
    | (dsimp only)

theorem State.modeRefused_kept {P : List Part} {u s : State} (hk : Kept P u s) (code : Nat) (hP : Sub [.regs, .vec] P := by exact Sub.of ‹_› (by rfl)) : Kept P u (State.modeRefused s code) := by
  unfold State.modeRefused
  repeat' first
    | (with_reducible assumption)
    | (with_reducible apply State.set_kept)
    | (with_reducible apply State.raiseMode_kept)
    | (exact Sub.of ‹_› (by rfl))
    | (dsimp only)

theorem State.readyFall_kept {P : List Part} {u s : State} (hk : Kept P u s)  (hP : Sub [.regs, .vec] P := by exact Sub.of ‹_› (by rfl)) : Kept P u (State.readyFall s) := by
  unfold State.readyFall
  repeat' first
    | (with_reducible assumption)
    | (with_reducible apply State.set_kept)
    | (with_reducible apply State.raise_kept)
    | (exact Sub.of ‹_› (by rfl))
    | split
    | (dsimp only)

theorem State.setSync_kept {P : List Part} {u s : State} (hk : Kept P u s) (v : Nat) (hP : Sub [.regs, .vec] P := by exact Sub.of ‹_› (by rfl)) : Kept P u (State.setSync s v) := by
  unfold State.setSync
  repeat' first
    | (with_reducible assumption)
    | (with_reducible apply State.set_kept)
    | (with_reducible apply State.readyFall_kept)
    | (exact Sub.of ‹_› (by rfl))
    | split
    | (dsimp only)

theorem State.syncFail_kept {P : List Part} {u s : State} (hk : Kept P u s)  (hP : Sub [.regs, .vec] P := by exact Sub.of ‹_› (by rfl)) : Kept P u (State.syncFail s) := by
  unfold State.syncFail
  repeat' first
    | (with_reducible assumption)
    | (with_reducible apply State.raiseVec_kept)
    | (with_reducible apply State.setSync_kept)
    | (exact Sub.of ‹_› (by rfl))
    | (dsimp only)

theorem State.dropDiscarded_kept {P : List Part} {u s : State} (hk : Kept P u s)  (hP : Sub [.regs, .host] P := by exact Sub.of ‹_› (by rfl)) : Kept P u (State.dropDiscarded s) := by
  unfold State.dropDiscarded
  repeat' first
    | (with_reducible assumption)
    | (with_reducible apply State.leapRateCheck_kept)
    | (exact Sub.of ‹_› (by rfl))
    | (simp only [Kept.mk_iff]; with_reducible apply KeptC.of)
    | (with_reducible exact Or.inr rfl)
    | (with_reducible exact Or.inr ⟨rfl, rfl⟩)
    | (exact Or.inl (Sub.mem ‹_› (by rfl)))
    | (with_reducible rfl)
    | (intro _)
    | split
    | (dsimp only)

theorem State.clearAwait_kept {P : List Part} {u s : State} (hk : Kept P u s)  (hP : Sub [.regs, .host, .vec, .lv, .mate] P := by exact Sub.of ‹_› (by rfl)) : Kept P u (State.clearAwait s) := by
  unfold State.clearAwait
  repeat' first
    | (with_reducible assumption)
    | (with_reducible apply State.lvTakesDone_kept)
    | (with_reducible apply State.dropDiscarded_kept)
    | (exact Sub.of ‹_› (by rfl))
    | (simp only [Kept.mk_iff]; with_reducible apply KeptC.of)
    | (with_reducible exact Or.inr rfl)
    | (with_reducible exact Or.inr ⟨rfl, rfl⟩)
    | (exact Or.inl (Sub.mem ‹_› (by rfl)))
    | (with_reducible rfl)
    | (dsimp only)

theorem State.promote_kept {P : List Part} {u s : State} (hk : Kept P u s)  (hP : Sub [.regs, .vec, .axl, .mate] P := by exact Sub.of ‹_› (by rfl)) : Kept P u (State.promote s) := by
  unfold State.promote
  repeat' first
    | (with_reducible assumption)
    | (with_reducible apply State.raise_kept)
    | (with_reducible apply State.setEpoch_kept)
    | (with_reducible apply State.setRole_kept)
    | (with_reducible apply State.setSync_kept)
    | (exact Sub.of ‹_› (by rfl))
    | (simp only [Kept.mk_iff]; with_reducible apply KeptC.of)
    | (with_reducible exact Or.inr rfl)
    | (with_reducible exact Or.inr ⟨rfl, rfl⟩)
    | (exact Or.inl (Sub.mem ‹_› (by rfl)))
    | (with_reducible rfl)
    | (dsimp only)

theorem State.acquirePromote_kept {P : List Part} {u s : State} (hk : Kept P u s)  (hP : Sub [.regs, .vec, .axl, .mate] P := by exact Sub.of ‹_› (by rfl)) : Kept P u (State.acquirePromote s) := by
  unfold State.acquirePromote
  repeat' first
    | (with_reducible assumption)
    | (with_reducible apply State.promote_kept)
    | (exact Sub.of ‹_› (by rfl))
    | split
    | (dsimp only)

theorem State.losePartner_kept {P : List Part} {u s : State} (hk : Kept P u s) (hP : Sub [.regs, .host, .vec, .lv, .axl, .mate] P := by exact Sub.of ‹_› (by rfl)) : Kept P u (State.losePartner s) := by
  unfold State.losePartner
  extract_lets s1 s2 src
  have h2 : Kept P u s2 := State.clearAwait_kept (State.raise_kept (State.set_kept hk _ _ _) _ _)
  clear_value s2
  refine Kept.ite (fun _ => Kept.ite (fun _ => State.promote_kept h2) fun _ => ?_) fun _ => h2
  exact Kept.upd_mate h2 _

theorem State.isolate_kept {P : List Part} {u s : State} (hk : Kept P u s) (hP : Sub [.regs, .free, .host, .vec, .lv, .mate] P := by exact Sub.of ‹_› (by rfl)) : Kept P u (State.isolate s) := by
  unfold State.isolate
  extract_lets a b
  have h1 : Kept P u b := State.clearAwait_kept (State.raise_kept (State.set_kept hk _ _ _) _ _)
  clear_value b
  exact Kept.ite (fun _ => State.setSync_kept (State.draw_kept h1) _) fun _ => h1

theorem State.mateCond_kept {P : List Part} {u s : State} (hk : Kept P u s)  (hP : Sub [.regs, .free, .host, .vec, .lv, .axl, .mate] P := by exact Sub.of ‹_› (by rfl)) : Kept P u (State.mateCond s) := by
  unfold State.mateCond
  repeat' first
    | (with_reducible assumption)
    | (with_reducible apply State.set_kept)
    | (with_reducible apply State.losePartner_kept)
    | (with_reducible apply State.isolate_kept)
    | (exact Sub.of ‹_› (by rfl))
    | (simp only [Kept.mk_iff]; with_reducible apply KeptC.of)
    | (with_reducible exact Or.inr rfl)
    | (with_reducible exact Or.inr ⟨rfl, rfl⟩)
    | (exact Or.inl (Sub.mem ‹_› (by rfl)))
    | (with_reducible rfl)
    | split
    | (dsimp only)

theorem State.mateDown_kept {P : List Part} {u s : State} (hk : Kept P u s)  (hP : Sub [.regs, .free, .host, .vec, .lv, .axl, .mate] P := by exact Sub.of ‹_› (by rfl)) : Kept P u (State.mateDown s) := by
  unfold State.mateDown
  repeat' first
    | (with_reducible assumption)
    | (with_reducible apply State.set_kept)
    | (with_reducible apply State.mateCond_kept)
    | (exact Sub.of ‹_› (by rfl))
    | (simp only [Kept.mk_iff]; with_reducible apply KeptC.of)
    | (with_reducible exact Or.inr rfl)
    | (with_reducible exact Or.inr ⟨rfl, rfl⟩)
    | (exact Or.inl (Sub.mem ‹_› (by rfl)))
    | (with_reducible rfl)
    | (dsimp only)

theorem State.detach_kept {P : List Part} {u s : State} (hk : Kept P u s) (hP : Sub [.regs, .host, .vec, .lv, .axl, .mate] P := by exact Sub.of ‹_› (by rfl)) : Kept P u (State.detach s) := by
  unfold State.detach
  refine Kept.ite (fun _ => hk) fun _ => ?_
  extract_lets s1 s2 src s3
  have h1 : Kept P u s1 := State.setRole_kept (State.setEpoch_kept hk _) _
  clear_value s1
  have h2 : Kept P u s2 := State.setSync_kept (State.set_kept (State.set_kept h1 _ _ _) _ _ _) _
  clear_value s2
  have h3 : Kept P u s3 := Kept.upd_mate h2 _
  clear_value s3
  exact State.raise_kept (State.clearAwait_kept h3) _ _

theorem State.afterWrite_kept {P : List Part} {u s : State} (hk : Kept P u s)  (s0 : State) (hP : Sub [.regs, .host, .vec, .lv, .axl, .mate] P := by exact Sub.of ‹_› (by rfl)) : Kept P u (State.afterWrite s s0) := by
  unfold State.afterWrite
  repeat' first
    | (with_reducible assumption)
    | (with_reducible apply State.detach_kept)
    | (exact Sub.of ‹_› (by rfl))
    | split
    | (dsimp only)

theorem State.calibrate_kept {P : List Part} {u s : State} (hk : Kept P u s) (rate : Int) (hP : Sub [.regs, .axl] P := by exact Sub.of ‹_› (by rfl)) : Kept P u (State.calibrate s rate) := by
  unfold State.calibrate
  repeat' first
    | (with_reducible assumption)
    | (with_reducible apply State.wrInt_kept)
    | (with_reducible apply State.change_kept)
    | (exact Sub.of ‹_› (by rfl))
    | (dsimp only)

theorem State.trkMean_kept {P : List Part} {u s : State} (hk : Kept P u s)  (hP : Sub [.regs, .free, .ref, .axl] P := by exact Sub.of ‹_› (by rfl)) : Kept P u (State.trkMean s) := by
  unfold State.trkMean
  repeat' first
    | (with_reducible assumption)
    | (with_reducible apply State.draw_kept)
    | (refine State.draw_kept' ?_ (by with_reducible assumption))
    | (with_reducible apply State.calibrate_kept)
    | (exact Sub.of ‹_› (by rfl))
    | (simp only [Kept.mk_iff]; with_reducible apply KeptC.of)
    | (with_reducible exact Or.inr rfl)
    | (with_reducible exact Or.inr ⟨rfl, rfl⟩)
    | (exact Or.inl (Sub.mem ‹_› (by rfl)))
    | (with_reducible rfl)
    | split
    | (dsimp only)

end Sys2Proof.Machine
end

