-- ==== Sys2Proof/Laws/KeptSouOps.lean ====
section
/-! SUPPORT. The operations of Machine/SouOps.lean keep the queue and the canonical forms, and which parts of the state they may change. -/
set_option Elab.async false
namespace Sys2Proof.Machine

theorem State.setPending_kept {P : List Part} {u s : State} (hk : Kept P u s) (u₁ : Nat) (x : SouSet) (r : SouReq) (hP : Sub [.sou] P := by exact Sub.of ‹_› (by rfl)) : Kept P u (State.setPending s u₁ x r) := by
  unfold State.setPending
  repeat' first
    | (with_reducible assumption)
    | (with_reducible apply State.setUnit_kept)
    | (exact Sub.of ‹_› (by rfl))
    | split
    | (dsimp only)

theorem commitAdm_kept {P : List Part} {u s : State} (hk : Kept P u s) (h : Hdr) (u₁ : Nat) (result : Nat) (hP : Sub [.regs, .free, .host, .vec, .mate] P := by exact Sub.of ‹_› (by rfl)) : (commitAdm h u₁ result s).Kept P u := by
  unfold commitAdm
  repeat' first
    | (with_reducible assumption)
    | (with_reducible exact True.intro)
    | (with_reducible exact Adm.kept_bad ..)
    | (with_reducible exact Adm.kept_badData ..)
    | (with_reducible exact Adm.kept_short ..)
    | (with_reducible exact Adm.kept_denied ..)
    | (with_reducible exact Adm.kept_no ..)
    | (with_reducible exact Adm.kept_wait ..)
    | (with_reducible apply Adm.kept_late)
    | (with_reducible apply Adm.kept_deny)
    | (with_reducible apply Adm.kept_yes)
    | (with_reducible apply State.inc_kept)
    | (with_reducible apply State.draw_kept)
    | (refine State.draw_kept' ?_ (by with_reducible assumption))
    | (with_reducible apply State.raise_kept)
    | (with_reducible apply State.addOp_kept)
    | (refine State.addOp_kept' ?_ (by with_reducible assumption))
    | (with_reducible refine Adm.ite (fun _ => ?_) fun _ => ?_)
    | (exact Sub.of ‹_› (by rfl))
    | split
    | (dsimp only)

theorem State.showBuf_kept {P : List Part} {u s : State} (hk : Kept P u s) (u₁ : Nat) (l : Nat) (h : Option Nat) (hP : Sub [.fst, .sou] P := by exact Sub.of ‹_› (by rfl)) : Kept P u (State.showBuf s u₁ l h) := by
  unfold State.showBuf
  repeat' first
    | (with_reducible assumption)
    | (with_reducible apply State.setUnit_kept)
    | (with_reducible apply State.addReader_kept)
    | (with_reducible apply State.dropReader_kept)
    | (exact Sub.of ‹_› (by rfl))
    | split
    | (dsimp only)

theorem State.layerLeave_kept {P : List Part} {u s : State} (hk : Kept P u s) (u₁ : Nat) (l : Nat) (a : SouLayer) (b : SouLayer) (hP : Sub [.fst, .sou] P := by exact Sub.of ‹_› (by rfl)) : Kept P u (State.layerLeave s u₁ l a b) := by
  unfold State.layerLeave
  repeat' first
    | (with_reducible assumption)
    | (with_reducible apply State.showBuf_kept)
    | (exact Sub.of ‹_› (by rfl))
    | split
    | (dsimp only)

theorem State.activate_kept {P : List Part} {u s : State} (hk : Kept P u s) (u₁ : Nat) (x : SouSet) (hP : Sub [.regs, .fst, .sou] P := by exact Sub.of ‹_› (by rfl)) : Kept P u (State.activate s u₁ x) := by
  unfold State.activate
  repeat' first
    | (with_reducible assumption)
    | (with_reducible apply State.dirty_kept)
    | (with_reducible apply State.setUnit_kept)
    | (with_reducible apply State.layerLeave_kept)
    | (with_reducible refine Kept.foldl ?_ ?_)
    | (exact Sub.of ‹_› (by rfl))
    | (intro _)
    | split
    | (dsimp only)

theorem State.underrun_kept {P : List Part} {u s : State} (hk : Kept P u s) (u₁ : Nat) (line : Nat) (samp : Nat) (hP : Sub [.regs, .sou, .vec] P := by exact Sub.of ‹_› (by rfl)) : Kept P u (State.underrun s u₁ line samp) := by
  unfold State.underrun
  repeat' first
    | (with_reducible assumption)
    | (with_reducible apply State.inc_kept)
    | (with_reducible apply State.raise_kept)
    | (with_reducible apply State.setUnit_kept)
    | (exact Sub.of ‹_› (by rfl))
    | (intro _)
    | split
    | (dsimp only)

theorem State.unitUnderrun_kept {P : List Part} {u s : State} (hk : Kept P u s) (u₁ : Nat) (line : Nat) (samp : Nat) (hP : Sub [.regs, .sou, .vec] P := by exact Sub.of ‹_› (by rfl)) : Kept P u (State.unitUnderrun s u₁ line samp) := by
  unfold State.unitUnderrun
  repeat' first
    | (with_reducible assumption)
    | (with_reducible apply State.underrun_kept)
    | (exact Sub.of ‹_› (by rfl))
    | split
    | (dsimp only)

theorem State.cutLine_kept {P : List Part} {u s : State} (hk : Kept P u s) (d : Nat) (line : Nat) (samp : Nat) (hP : Sub [.xpt] P := by exact Sub.of ‹_› (by rfl)) : Kept P u (State.cutLine s d line samp) := by
  unfold State.cutLine
  repeat' first
    | (with_reducible assumption)
    | (exact Sub.of ‹_› (by rfl))
    | (simp only [Kept.mk_iff]; with_reducible apply KeptC.of)
    | (with_reducible exact Or.inr rfl)
    | (with_reducible exact Or.inr ⟨rfl, rfl⟩)
    | (exact Or.inl (Sub.mem ‹_› (by rfl)))
    | (with_reducible rfl)
    | (intro _)
    | (dsimp only)

theorem State.wordLost_kept {P : List Part} {u s : State} (hk : Kept P u s) (w : LostWord) (hP : Sub [.regs, .xpt, .fst, .sou, .vec] P := by exact Sub.of ‹_› (by rfl)) : Kept P u (State.wordLost s w) := by
  unfold State.wordLost
  repeat' first
    | (with_reducible assumption)
    | (with_reducible apply State.unitUnderrun_kept)
    | (with_reducible apply State.cutLine_kept)
    | (exact Sub.of ‹_› (by rfl))
    | (simp only [Kept.mk_iff]; with_reducible apply KeptC.of)
    | (with_reducible exact Or.inr rfl)
    | (with_reducible exact Or.inr ⟨rfl, rfl⟩)
    | (exact Or.inl (Sub.mem ‹_› (by rfl)))
    | (with_reducible rfl)
    | split
    | (dsimp only)

theorem State.frameLines_kept {P : List Part} {u s : State} (hk : Kept P u s) (u₁ : Nat) (hP : Sub [.regs, .sou, .vec] P := by exact Sub.of ‹_› (by rfl)) : Kept P u (State.frameLines s u₁) := by
  unfold State.frameLines
  repeat' first
    | (with_reducible assumption)
    | (with_reducible apply State.setUnit_kept)
    | (with_reducible apply State.underrun_kept)
    | (with_reducible refine Kept.foldl ?_ ?_)
    | (exact Sub.of ‹_› (by rfl))
    | (intro _)
    | split
    | (dsimp only)

end Sys2Proof.Machine
end

