-- ==== Sys2Proof/Laws/KeptRef.lean ====
section
/-! SUPPORT. The operations of Machine/Ref.lean keep the queue and the canonical forms, and which parts of the state they may change. -/
set_option Elab.async false
namespace Sys2Proof.Machine

theorem State.setIn_kept {P : List Part} {u s : State} (hk : Kept P u s) (i : Nat) (st : Nat) (hP : Sub [.regs] P := by exact Sub.of ‹_› (by rfl)) : Kept P u (State.setIn s i st) := by
  unfold State.setIn
  repeat' first
    | (with_reducible assumption)
    | (with_reducible apply State.set_kept)
    | (exact Sub.of ‹_› (by rfl))
    | (dsimp only)

theorem State.swDecide_kept {P : List Part} {u s : State} (hk : Kept P u s) (tgt : Nat) (freeze : Bool) (hP : Sub [.regs, .ref] P := by exact Sub.of ‹_› (by rfl)) : Kept P u (State.swDecide s tgt freeze) := by
  unfold State.swDecide
  repeat' first
    | (with_reducible assumption)
    | (with_reducible apply State.set_kept)
    | (exact Sub.of ‹_› (by rfl))
    | (simp only [Kept.mk_iff]; with_reducible apply KeptC.of)
    | (with_reducible exact Or.inr rfl)
    | (with_reducible exact Or.inr ⟨rfl, rfl⟩)
    | (exact Or.inl (Sub.mem ‹_› (by rfl)))
    | (with_reducible rfl)
    | split
    | (dsimp only)

theorem State.undecide_kept {P : List Part} {u s : State} (hk : Kept P u s)  (hP : Sub [.regs, .ref] P := by exact Sub.of ‹_› (by rfl)) : Kept P u (State.undecide s) := by
  unfold State.undecide
  repeat' first
    | (with_reducible assumption)
    | (with_reducible apply State.set_kept)
    | (exact Sub.of ‹_› (by rfl))
    | (simp only [Kept.mk_iff]; with_reducible apply KeptC.of)
    | (with_reducible exact Or.inr rfl)
    | (with_reducible exact Or.inr ⟨rfl, rfl⟩)
    | (exact Or.inl (Sub.mem ‹_› (by rfl)))
    | (with_reducible rfl)
    | (dsimp only)

theorem State.trkStop_kept {P : List Part} {u s : State} (hk : Kept P u s)  (hP : Sub [.ref] P := by exact Sub.of ‹_› (by rfl)) : Kept P u (State.trkStop s) := by
  unfold State.trkStop
  repeat' first
    | (with_reducible assumption)
    | (exact Sub.of ‹_› (by rfl))
    | (simp only [Kept.mk_iff]; with_reducible apply KeptC.of)
    | (with_reducible exact Or.inr rfl)
    | (with_reducible exact Or.inr ⟨rfl, rfl⟩)
    | (exact Or.inl (Sub.mem ‹_› (by rfl)))
    | (with_reducible rfl)
    | (dsimp only)

theorem State.holdFrom_kept {P : List Part} {u s : State} (hk : Kept P u s) (rate : Int) (temp : Int) (hP : Sub [.ref] P := by exact Sub.of ‹_› (by rfl)) : Kept P u (State.holdFrom s rate temp) := by
  unfold State.holdFrom
  repeat' first
    | (with_reducible assumption)
    | (exact Sub.of ‹_› (by rfl))
    | (simp only [Kept.mk_iff]; with_reducible apply KeptC.of)
    | (with_reducible exact Or.inr rfl)
    | (with_reducible exact Or.inr ⟨rfl, rfl⟩)
    | (exact Or.inl (Sub.mem ‹_› (by rfl)))
    | (with_reducible rfl)
    | (dsimp only)

theorem State.publishBound_kept {P : List Part} {u s : State} (hk : Kept P u s)  (hP : Sub [.regs, .vec, .ref] P := by exact Sub.of ‹_› (by rfl)) : Kept P u (State.publishBound s) := by
  unfold State.publishBound
  repeat' first
    | (with_reducible assumption)
    | (with_reducible apply State.wr_kept)
    | (with_reducible apply State.raise_kept)
    | (exact Sub.of ‹_› (by rfl))
    | (simp only [Kept.mk_iff]; with_reducible apply KeptC.of)
    | (with_reducible exact Or.inr rfl)
    | (with_reducible exact Or.inr ⟨rfl, rfl⟩)
    | (exact Or.inl (Sub.mem ‹_› (by rfl)))
    | (with_reducible rfl)
    | split
    | (dsimp only)

theorem State.holdStart_kept {P : List Part} {u s : State} (hk : Kept P u s)  (hP : Sub [.regs, .free, .ref, .axl] P := by exact Sub.of ‹_› (by rfl)) : Kept P u (State.holdStart s) := by
  unfold State.holdStart
  repeat' first
    | (with_reducible assumption)
    | (with_reducible apply State.trkMean_kept)
    | (with_reducible apply State.holdFrom_kept)
    | (exact Sub.of ‹_› (by rfl))
    | split
    | (dsimp only)

theorem State.enterHoldover_kept {P : List Part} {u s : State} (hk : Kept P u s) (hP : Sub [.regs, .free, .vec, .ref, .axl] P := by exact Sub.of ‹_› (by rfl)) : Kept P u (State.enterHoldover s) := by
  unfold State.enterHoldover
  extract_lets s1 s2 s3 _ s4
  have h1 : Kept P u s1 := State.trkStop_kept (State.holdStart_kept hk)
  clear_value s1
  have h2 : Kept P u s2 := State.set_kept (State.set_kept (State.readyFall_kept h1) _ _ _) _ _ _
  clear_value s2
  have h3 : Kept P u s3 := Kept.ite (fun _ => h2) fun _ => State.undecide_kept h2
  clear_value s3
  have h4 : Kept P u s4 := Kept.upd_ref h3 _
  clear_value s4
  exact State.raise_kept (State.publishBound_kept (State.wrInt_kept h4 _ _)) _ _

theorem State.selFail_kept {P : List Part} {u s : State} (hk : Kept P u s)  (hP : Sub [.regs, .free, .vec, .ref, .axl] P := by exact Sub.of ‹_› (by rfl)) : Kept P u (State.selFail s) := by
  unfold State.selFail
  repeat' first
    | (with_reducible assumption)
    | (with_reducible apply State.swDecide_kept)
    | (with_reducible apply State.enterHoldover_kept)
    | (exact Sub.of ‹_› (by rfl))
    | split
    | (dsimp only)

theorem State.targetFail_kept {P : List Part} {u s : State} (hk : Kept P u s)  (hP : Sub [.regs, .free, .vec, .ref, .axl] P := by exact Sub.of ‹_› (by rfl)) : Kept P u (State.targetFail s) := by
  unfold State.targetFail
  repeat' first
    | (with_reducible assumption)
    | (with_reducible apply State.swDecide_kept)
    | (with_reducible apply State.undecide_kept)
    | (with_reducible apply State.enterHoldover_kept)
    | (exact Sub.of ‹_› (by rfl))
    | split
    | (dsimp only)

theorem State.forceDecide_kept {P : List Part} {u s : State} (hk : Kept P u s)  (hP : Sub [.regs, .ref] P := by exact Sub.of ‹_› (by rfl)) : Kept P u (State.forceDecide s) := by
  unfold State.forceDecide
  repeat' first
    | (with_reducible assumption)
    | (with_reducible apply State.swDecide_kept)
    | (with_reducible apply State.undecide_kept)
    | (exact Sub.of ‹_› (by rfl))
    | split
    | (dsimp only)

theorem State.reselect_kept {P : List Part} {u s : State} (hk : Kept P u s)  (hP : Sub [.regs, .free, .vec, .ref, .axl] P := by exact Sub.of ‹_› (by rfl)) : Kept P u (State.reselect s) := by
  unfold State.reselect
  repeat' first
    | (with_reducible assumption)
    | (with_reducible apply State.swDecide_kept)
    | (with_reducible apply State.targetFail_kept)
    | (exact Sub.of ‹_› (by rfl))
    | split
    | (dsimp only)

theorem State.synStep_kept {P : List Part} {u s : State} (hk : Kept P u s) (ns : Int) (t₁ : Nat) (hP : Sub [.regs, .syn] P := by exact Sub.of ‹_› (by rfl)) : Kept P u (State.synStep s ns t₁) := by
  unfold State.synStep
  repeat' first
    | (with_reducible assumption)
    | (with_reducible apply State.wrInt_kept)
    | (with_reducible apply State.setSyn_kept)
    | (with_reducible apply State.synFreeze_kept)
    | (exact Sub.of ‹_› (by rfl))
    | split
    | (dsimp only)

theorem State.retimeTake_kept {P : List Part} {u s : State} (hk : Kept P u s) (old : Nat) (p : Nat × Take) (hP : Sub [.regs, .xpt, .fst, .che, .sou, .aud, .host, .vec, .hostMem, .sec] P := by exact Sub.of ‹_› (by rfl)) : Kept P u (State.retimeTake s old p) := by
  unfold State.retimeTake
  repeat' first
    | (with_reducible assumption)
    | (with_reducible apply State.setOp_kept)
    | (with_reducible apply State.chainLost_kept)
    | (with_reducible apply State.endTake_kept)
    | (with_reducible apply State.raiseLate_kept)
    | (exact Sub.of ‹_› (by rfl))
    | split
    | (dsimp only)

theorem State.retimeCommit_kept {P : List Part} {u s : State} (hk : Kept P u s) (p : Nat × CommitOp) (hP : Sub [.regs, .host, .vec] P := by exact Sub.of ‹_› (by rfl)) : Kept P u (State.retimeCommit s p) := by
  unfold State.retimeCommit
  repeat' first
    | (with_reducible assumption)
    | (with_reducible apply State.inc_kept)
    | (with_reducible apply State.raise_kept)
    | (with_reducible apply State.setOp_kept)
    | (with_reducible apply State.finish_kept)
    | (exact Sub.of ‹_› (by rfl))
    | split
    | (dsimp only)

theorem State.retimeAudio_kept {P : List Part} {u s : State} (hk : Kept P u s)  (hP : Sub [.regs, .fst, .aud, .host, .vec] P := by exact Sub.of ‹_› (by rfl)) : Kept P u (State.retimeAudio s) := by
  unfold State.retimeAudio
  repeat' first
    | (with_reducible assumption)
    | (with_reducible apply State.setOp_kept)
    | (with_reducible apply State.finish_kept)
    | (with_reducible apply State.reapSlots_kept)
    | (with_reducible refine Kept.foldl ?_ ?_)
    | (exact Sub.of ‹_› (by rfl))
    | (intro _)
    | split
    | (dsimp only)

theorem State.moveBase_kept {P : List Part} {u s : State} (hk : Kept P u s) (d : Int) (hP : Sub [.media, .ref, .syn] P := by exact Sub.of ‹_› (by rfl)) : Kept P u (State.moveBase s d) := by
  unfold State.moveBase
  repeat' first
    | (with_reducible assumption)
    | (with_reducible apply State.at__kept)
    | (exact Sub.of ‹_› (by rfl))
    | (simp only [Kept.mk_iff]; with_reducible apply KeptC.of)
    | (with_reducible exact Or.inr rfl)
    | (with_reducible exact Or.inr ⟨rfl, rfl⟩)
    | (exact Or.inl (Sub.mem ‹_› (by rfl)))
    | (with_reducible rfl)
    | (intro _)
    | split
    | (dsimp only)

theorem State.timeStep_kept {P : List Part} {u s : State} (hk : Kept P u s) (ns : Int) (hP : Sub [.regs, .media, .xpt, .fst, .che, .sou, .aud, .host, .vec, .hostMem, .ref, .syn, .sec] P := by exact Sub.of ‹_› (by rfl)) : Kept P u (State.timeStep s ns) := by
  unfold State.timeStep
  repeat' first
    | (with_reducible assumption)
    | (with_reducible apply State.wrInt_kept)
    | (with_reducible apply State.synStep_kept)
    | (with_reducible apply State.retimeTake_kept)
    | (with_reducible apply State.retimeCommit_kept)
    | (with_reducible apply State.retimeAudio_kept)
    | (with_reducible apply State.moveBase_kept)
    | (with_reducible refine Kept.foldl ?_ ?_)
    | (exact Sub.of ‹_› (by rfl))
    | (intro _)
    | split
    | (dsimp only)

theorem State.shiftSec_kept {P : List Part} {u s : State} (hk : Kept P u s) (d : Int) (hP : Sub [.ref] P := by exact Sub.of ‹_› (by rfl)) : Kept P u (State.shiftSec s d) := by
  unfold State.shiftSec
  repeat' first
    | (with_reducible assumption)
    | (exact Sub.of ‹_› (by rfl))
    | (simp only [Kept.mk_iff]; with_reducible apply KeptC.of)
    | (with_reducible exact Or.inr rfl)
    | (with_reducible exact Or.inr ⟨rfl, rfl⟩)
    | (exact Or.inl (Sub.mem ‹_› (by rfl)))
    | (with_reducible rfl)
    | (intro _)
    | split
    | (dsimp only)

theorem State.applySec_kept {P : List Part} {u s : State} (hk : Kept P u s) (d : Int) (hP : Sub [.regs, .media, .xpt, .fst, .che, .sou, .aud, .host, .vec, .hostMem, .ref, .syn, .sec] P := by exact Sub.of ‹_› (by rfl)) : Kept P u (State.applySec s d) := by
  unfold State.applySec
  repeat' first
    | (with_reducible assumption)
    | (with_reducible apply State.set_kept)
    | (with_reducible apply State.raise_kept)
    | (with_reducible apply State.moveBase_kept)
    | (with_reducible apply State.timeStep_kept)
    | (with_reducible apply State.shiftSec_kept)
    | (exact Sub.of ‹_› (by rfl))
    | split
    | (dsimp only)

theorem State.secCheck_kept {P : List Part} {u s : State} (hk : Kept P u s)  (hP : Sub [.regs, .media, .xpt, .fst, .che, .sou, .aud, .host, .vec, .hostMem, .ref, .syn, .sec] P := by exact Sub.of ‹_› (by rfl)) : Kept P u (State.secCheck s) := by
  unfold State.secCheck
  repeat' first
    | (with_reducible assumption)
    | (with_reducible apply State.applySec_kept)
    | (exact Sub.of ‹_› (by rfl))
    | split
    | (dsimp only)

theorem State.leaveIn_kept {P : List Part} {u s : State} (hk : Kept P u s) (i : Nat) (st : Nat) (hP : Sub [.regs, .free, .media, .xpt, .fst, .che, .sou, .aud, .host, .vec, .hostMem, .ref, .syn, .sec, .axl] P := by exact Sub.of ‹_› (by rfl)) : Kept P u (State.leaveIn s i st) := by
  unfold State.leaveIn
  repeat' first
    | (with_reducible assumption)
    | (with_reducible apply State.set_kept)
    | (with_reducible apply State.setRefIn_kept)
    | (with_reducible apply State.setIn_kept)
    | (with_reducible apply State.selFail_kept)
    | (with_reducible apply State.targetFail_kept)
    | (with_reducible apply State.secCheck_kept)
    | (exact Sub.of ‹_› (by rfl))
    | split
    | (dsimp only)

theorem State.clearIn_kept {P : List Part} {u s : State} (hk : Kept P u s) (i : Nat) (hP : Sub [.regs] P := by exact Sub.of ‹_› (by rfl)) : Kept P u (State.clearIn s i) := by
  unfold State.clearIn
  repeat' first
    | (with_reducible assumption)
    | (with_reducible apply State.wr_kept)
    | (with_reducible apply State.set_kept)
    | (exact Sub.of ‹_› (by rfl))
    | (dsimp only)

theorem State.refInEnWrite_kept {P : List Part} {u s : State} (hk : Kept P u s) (i : Fin 8) (en : Bool) (t₁ : Nat) (hP : Sub [.regs, .free, .media, .xpt, .fst, .che, .sou, .aud, .host, .vec, .hostMem, .ref, .syn, .sec, .axl] P := by exact Sub.of ‹_› (by rfl)) : Kept P u (State.refInEnWrite s i en t₁) := by
  unfold State.refInEnWrite
  repeat' first
    | (with_reducible assumption)
    | (with_reducible apply State.setB_kept)
    | (with_reducible apply State.at__kept)
    | (with_reducible apply State.setIn_kept)
    | (with_reducible apply State.leaveIn_kept)
    | (with_reducible apply State.clearIn_kept)
    | (exact Sub.of ‹_› (by rfl))
    | split
    | (dsimp only)

theorem State.refInSrcWrite_kept {P : List Part} {u s : State} (hk : Kept P u s) (i : Fin 8) (src : Nat) (dom : Nat) (term : Bool) (t₁ : Nat) (hP : Sub [.regs, .free, .media, .xpt, .fst, .che, .sou, .aud, .host, .vec, .hostMem, .ref, .syn, .sec, .axl] P := by exact Sub.of ‹_› (by rfl)) : Kept P u (State.refInSrcWrite s i src dom term t₁) := by
  unfold State.refInSrcWrite
  repeat' first
    | (with_reducible assumption)
    | (with_reducible apply State.set_kept)
    | (with_reducible apply State.setB_kept)
    | (with_reducible apply State.at__kept)
    | (with_reducible apply State.raise_kept)
    | (with_reducible apply State.setRefIn_kept)
    | (with_reducible apply State.leaveIn_kept)
    | (with_reducible apply State.clearIn_kept)
    | (exact Sub.of ‹_› (by rfl))
    | split
    | (dsimp only)

theorem State.measure_kept {P : List Part} {u s : State} (hk : Kept P u s) (i : Nat) (m : RefMeas) (hP : Sub [.regs, .ref] P := by exact Sub.of ‹_› (by rfl)) : Kept P u (State.measure s i m) := by
  unfold State.measure
  repeat' first
    | (with_reducible assumption)
    | (with_reducible apply State.wr_kept)
    | (with_reducible apply State.wrInt_kept)
    | (with_reducible apply State.setRefIn_kept)
    | (exact Sub.of ‹_› (by rfl))
    | (intro _)
    | split
    | (dsimp only)

theorem State.makeAvail_kept {P : List Part} {u s : State} (hk : Kept P u s) (i : Nat) (hP : Sub [.regs, .free, .vec, .ref, .axl] P := by exact Sub.of ‹_› (by rfl)) : Kept P u (State.makeAvail s i) := by
  unfold State.makeAvail
  repeat' first
    | (with_reducible assumption)
    | (with_reducible apply State.set_kept)
    | (with_reducible apply State.raise_kept)
    | (with_reducible apply State.setIn_kept)
    | (with_reducible apply State.reselect_kept)
    | (exact Sub.of ‹_› (by rfl))
    | (dsimp only)

theorem State.qualify_kept {P : List Part} {u s : State} (hk : Kept P u s) (i : Nat) (hP : Sub [.regs, .free, .media, .xpt, .fst, .che, .sou, .aud, .host, .vec, .hostMem, .ref, .syn, .sec, .axl] P := by exact Sub.of ‹_› (by rfl)) : Kept P u (State.qualify s i) := by
  unfold State.qualify
  repeat' first
    | (with_reducible assumption)
    | (with_reducible apply State.set_kept)
    | (with_reducible apply State.setRefIn_kept)
    | (with_reducible apply State.setIn_kept)
    | (with_reducible apply State.secCheck_kept)
    | (with_reducible apply State.makeAvail_kept)
    | (exact Sub.of ‹_› (by rfl))
    | split
    | (dsimp only)

theorem State.lostIn_kept {P : List Part} {u s : State} (hk : Kept P u s) (i : Nat) (hP : Sub [.regs, .free, .media, .xpt, .fst, .che, .sou, .aud, .host, .vec, .hostMem, .ref, .syn, .sec, .axl] P := by exact Sub.of ‹_› (by rfl)) : Kept P u (State.lostIn s i) := by
  unfold State.lostIn
  repeat' first
    | (with_reducible assumption)
    | (with_reducible apply State.raise_kept)
    | (with_reducible apply State.leaveIn_kept)
    | (with_reducible apply State.clearIn_kept)
    | (exact Sub.of ‹_› (by rfl))
    | split
    | (dsimp only)

theorem State.sdiInputs_kept {P : List Part} {u s : State} (hk : Kept P u s)  (hP : Sub [.regs, .free, .media, .xpt, .fst, .che, .sou, .aud, .host, .vec, .hostMem, .ref, .syn, .sec, .axl] P := by exact Sub.of ‹_› (by rfl)) : Kept P u (State.sdiInputs s) := by
  unfold State.sdiInputs
  repeat' first
    | (with_reducible assumption)
    | (with_reducible apply State.lostIn_kept)
    | (with_reducible refine Kept.foldl ?_ ?_)
    | (exact Sub.of ‹_› (by rfl))
    | (intro _)
    | split
    | (dsimp only)

theorem State.restart_kept {P : List Part} {u s : State} (hk : Kept P u s) (i : Nat) (hP : Sub [.regs, .media, .xpt, .fst, .che, .sou, .aud, .host, .vec, .hostMem, .ref, .syn, .sec] P := by exact Sub.of ‹_› (by rfl)) : Kept P u (State.restart s i) := by
  unfold State.restart
  repeat' first
    | (with_reducible assumption)
    | (with_reducible apply State.set_kept)
    | (with_reducible apply State.setRefIn_kept)
    | (with_reducible apply State.setIn_kept)
    | (with_reducible apply State.secCheck_kept)
    | (exact Sub.of ‹_› (by rfl))
    | split
    | (dsimp only)

theorem State.requalify_kept {P : List Part} {u s : State} (hk : Kept P u s) (i : Nat) (hP : Sub [.regs, .free, .media, .xpt, .fst, .che, .sou, .aud, .host, .vec, .hostMem, .ref, .syn, .sec, .axl] P := by exact Sub.of ‹_› (by rfl)) : Kept P u (State.requalify s i) := by
  unfold State.requalify
  repeat' first
    | (with_reducible assumption)
    | (with_reducible apply State.qualify_kept)
    | (with_reducible apply State.restart_kept)
    | (exact Sub.of ‹_› (by rfl))
    | split
    | (dsimp only)

theorem State.refQualWrite_kept {P : List Part} {u s : State} (hk : Kept P u s) (ppm : Nat) (time : Nat) (t₁ : Nat) (hP : Sub [.regs, .free, .media, .xpt, .fst, .che, .sou, .aud, .host, .vec, .hostMem, .ref, .syn, .sec, .axl] P := by exact Sub.of ‹_› (by rfl)) : Kept P u (State.refQualWrite s ppm time t₁) := by
  unfold State.refQualWrite
  repeat' first
    | (with_reducible assumption)
    | (with_reducible apply State.set_kept)
    | (with_reducible apply State.at__kept)
    | (with_reducible apply State.requalify_kept)
    | (with_reducible refine Kept.foldl ?_ ?_)
    | (exact Sub.of ‹_› (by rfl))
    | (intro _)
    | (dsimp only)

theorem State.prioDecide_kept {P : List Part} {u s : State} (hk : Kept P u s) (old : List Nat) (hP : Sub [.regs, .free, .vec, .ref, .axl] P := by exact Sub.of ‹_› (by rfl)) : Kept P u (State.prioDecide s old) := by
  unfold State.prioDecide
  repeat' first
    | (with_reducible assumption)
    | (with_reducible apply State.swDecide_kept)
    | (with_reducible apply State.reselect_kept)
    | (with_reducible refine Kept.foldl ?_ ?_)
    | (exact Sub.of ‹_› (by rfl))
    | (intro _)
    | split
    | (dsimp only)

theorem State.refPrioWrite_kept {P : List Part} {u s : State} (hk : Kept P u s) (i : Fin 8) (prio : Nat) (revert : Bool) (t₁ : Nat) (hP : Sub [.regs, .free, .media, .xpt, .fst, .che, .sou, .aud, .host, .vec, .hostMem, .ref, .syn, .sec, .axl] P := by exact Sub.of ‹_› (by rfl)) : Kept P u (State.refPrioWrite s i prio revert t₁) := by
  unfold State.refPrioWrite
  repeat' first
    | (with_reducible assumption)
    | (with_reducible apply State.set_kept)
    | (with_reducible apply State.setB_kept)
    | (with_reducible apply State.at__kept)
    | (with_reducible apply State.secCheck_kept)
    | (with_reducible apply State.prioDecide_kept)
    | (exact Sub.of ‹_› (by rfl))
    | (dsimp only)

theorem State.refForceWrite_kept {P : List Part} {u s : State} (hk : Kept P u s) (mode : Bool) (forceIn : Nat) (t₁ : Nat) (hP : Sub [.regs, .free, .vec, .ref, .axl] P := by exact Sub.of ‹_› (by rfl)) : Kept P u (State.refForceWrite s mode forceIn t₁) := by
  unfold State.refForceWrite
  repeat' first
    | (with_reducible assumption)
    | (with_reducible apply State.set_kept)
    | (with_reducible apply State.setB_kept)
    | (with_reducible apply State.at__kept)
    | (with_reducible apply State.undecide_kept)
    | (with_reducible apply State.forceDecide_kept)
    | (with_reducible apply State.reselect_kept)
    | (exact Sub.of ‹_› (by rfl))
    | split
    | (dsimp only)

theorem State.leaveInput_kept {P : List Part} {u s : State} (hk : Kept P u s) (c : Nat) (hP : Sub [.regs, .vec, .ref] P := by exact Sub.of ‹_› (by rfl)) : Kept P u (State.leaveInput s c) := by
  unfold State.leaveInput
  repeat' first
    | (with_reducible assumption)
    | (with_reducible apply State.set_kept)
    | (with_reducible apply State.raise_kept)
    | (with_reducible apply State.setRefIn_kept)
    | (with_reducible apply State.setIn_kept)
    | (exact Sub.of ‹_› (by rfl))
    | split
    | (dsimp only)

theorem State.ptpTime_kept {P : List Part} {u s : State} (hk : Kept P u s) (tgt : Nat) (step : Int) (hP : Sub [.regs, .vec, .ref] P := by exact Sub.of ‹_› (by rfl)) : Kept P u (State.ptpTime s tgt step) := by
  unfold State.ptpTime
  repeat' first
    | (with_reducible assumption)
    | (with_reducible apply State.set_kept)
    | (with_reducible apply State.raise_kept)
    | (with_reducible apply State.setRefIn_kept)
    | (with_reducible apply State.shiftSec_kept)
    | (exact Sub.of ‹_› (by rfl))
    | split
    | (dsimp only)

theorem State.doSwitch_kept {P : List Part} {u s : State} (hk : Kept P u s) (tgt : Nat) (m : RefMeas) (hP : Sub [.regs, .free, .media, .xpt, .fst, .che, .sou, .aud, .host, .vec, .hostMem, .ref, .syn, .sec, .axl] P := by exact Sub.of ‹_› (by rfl)) : Kept P u (State.doSwitch s tgt m) := by
  unfold State.doSwitch
  repeat' first
    | (with_reducible assumption)
    | (with_reducible apply State.wr_kept)
    | (with_reducible apply State.set_kept)
    | (with_reducible apply State.raise_kept)
    | (with_reducible apply State.readyFall_kept)
    | (with_reducible apply State.trkMean_kept)
    | (with_reducible apply State.setIn_kept)
    | (with_reducible apply State.undecide_kept)
    | (with_reducible apply State.trkStop_kept)
    | (with_reducible apply State.timeStep_kept)
    | (with_reducible apply State.measure_kept)
    | (with_reducible apply State.leaveInput_kept)
    | (with_reducible apply State.ptpTime_kept)
    | (exact Sub.of ‹_› (by rfl))
    | (simp only [Kept.mk_iff]; with_reducible apply KeptC.of)
    | (with_reducible exact Or.inr rfl)
    | (with_reducible exact Or.inr ⟨rfl, rfl⟩)
    | (exact Or.inl (Sub.mem ‹_› (by rfl)))
    | (with_reducible rfl)
    | split
    | (dsimp only)

theorem State.senseTemp_kept {P : List Part} {u s : State} (hk : Kept P u s) (temp : Int) (hP : Sub [.pkg] P := by exact Sub.of ‹_› (by rfl)) : Kept P u (State.senseTemp s temp) := by
  unfold State.senseTemp
  repeat' first
    | (with_reducible assumption)
    | (exact Sub.of ‹_› (by rfl))
    | (simp only [Kept.mk_iff]; with_reducible apply KeptC.of)
    | (with_reducible exact Or.inr rfl)
    | (with_reducible exact Or.inr ⟨rfl, rfl⟩)
    | (exact Or.inl (Sub.mem ‹_› (by rfl)))
    | (with_reducible rfl)
    | split
    | (dsimp only)

theorem State.todWrite_kept {P : List Part} {u s : State} (hk : Kept P u s) (hi : Nat) (t₁ : Nat) (hP : Sub [.regs, .taken, .ref] P := by exact Sub.of ‹_› (by rfl)) : Kept P u (State.todWrite s hi t₁) := by
  unfold State.todWrite
  repeat' first
    | (with_reducible assumption)
    | (with_reducible apply State.takeSetting_kept)
    | (with_reducible apply State.set_kept)
    | (with_reducible apply State.at__kept)
    | (exact Sub.of ‹_› (by rfl))
    | (simp only [Kept.mk_iff]; with_reducible apply KeptC.of)
    | (with_reducible exact Or.inr rfl)
    | (with_reducible exact Or.inr ⟨rfl, rfl⟩)
    | (exact Or.inl (Sub.mem ‹_› (by rfl)))
    | (with_reducible rfl)
    | split
    | (dsimp only)

end Sys2Proof.Machine
end

