-- ==== Sys2Proof/Laws/KeptSecOps.lean ====
section
/-! SUPPORT. The operations of Machine/SecOps.lean keep the queue and the canonical forms, and which parts of the state they may change. -/
set_option Elab.async false
namespace Sys2Proof.Machine

theorem State.setLeaves_kept {P : List Part} {u s : State} (hk : Kept P u s) (k : Nat) (l : Leaves) (hP : Sub [.regs, .sec] P := by exact Sub.of ‹_› (by rfl)) : Kept P u (State.setLeaves s k l) := by
  unfold State.setLeaves
  repeat' first
    | (with_reducible assumption)
    | (with_reducible apply State.set_kept)
    | (exact Sub.of ‹_› (by rfl))
    | (simp only [Kept.mk_iff]; with_reducible apply KeptC.of)
    | (with_reducible exact Or.inr rfl)
    | (with_reducible exact Or.inr ⟨rfl, rfl⟩)
    | (exact Or.inl (Sub.mem ‹_› (by rfl)))
    | (with_reducible rfl)
    | split
    | (dsimp only)

theorem State.retireKey_kept {P : List Part} {u s : State} (hk : Kept P u s) (k : Nat) (hP : Sub [.regs, .vec] P := by exact Sub.of ‹_› (by rfl)) : Kept P u (State.retireKey s k) := by
  unfold State.retireKey
  repeat' first
    | (with_reducible assumption)
    | (with_reducible apply State.set_kept)
    | (with_reducible apply State.raise_kept)
    | (with_reducible apply State.dirty_kept)
    | (exact Sub.of ‹_› (by rfl))
    | (dsimp only)

theorem State.reserve_kept {P : List Part} {u s : State} (hk : Kept P u s) (k : Nat) (hP : Sub [.regs, .sec, .axl] P := by exact Sub.of ‹_› (by rfl)) : Kept P u (State.reserve s k) := by
  unfold State.reserve
  repeat' first
    | (with_reducible assumption)
    | (with_reducible apply State.change_kept)
    | (with_reducible apply State.setLeaves_kept)
    | (exact Sub.of ‹_› (by rfl))
    | split
    | (dsimp only)

theorem State.takeLeaf_kept {P : List Part} {u s : State} (hk : Kept P u s) (k : Nat) (hP : Sub [.regs, .vec, .sec, .axl] P := by exact Sub.of ‹_› (by rfl)) : Kept P u (State.takeLeaf s k).2 := by
  unfold State.takeLeaf
  repeat' first
    | (with_reducible assumption)
    | (with_reducible apply State.dirty_kept)
    | (with_reducible apply State.setLeaves_kept)
    | (with_reducible apply State.retireKey_kept)
    | (with_reducible apply State.reserve_kept)
    | (exact Sub.of ‹_› (by rfl))
    | split
    | (dsimp only)

theorem State.takeLeaf_kept' {P : List Part} {u s t : State} {r₀ : Option Nat} {k : Nat} (hk : Kept P u s) (he₀ : (State.takeLeaf s k) = (r₀, t)) (hP : Sub [.regs, .vec, .sec, .axl] P := by exact Sub.of ‹_› (by rfl)) : Kept P u t := by
  have := State.takeLeaf_kept hk k
  rw [he₀] at this; exact this

theorem State.newKey_kept {P : List Part} {u s : State} (hk : Kept P u s) (k : Nat) (hP : Sub [.regs, .sec, .axl] P := by exact Sub.of ‹_› (by rfl)) : Kept P u (State.newKey s k) := by
  unfold State.newKey
  repeat' first
    | (with_reducible assumption)
    | (with_reducible apply State.set_kept)
    | (with_reducible apply State.change_kept)
    | (with_reducible apply State.setLeaves_kept)
    | (exact Sub.of ‹_› (by rfl))
    | (dsimp only)

theorem State.checkpoint_kept {P : List Part} {u s : State} (hk : Kept P u s) (addr : Nat) (by_ : Nat × Nat) (hP : Sub [.regs, .vec, .hostMem, .sec, .axl] P := by exact Sub.of ‹_› (by rfl)) : Kept P u (State.checkpoint s addr by_) := by
  have h0 := State.takeLeaf_kept hk 1
  unfold State.checkpoint
  generalize s.takeLeaf 1 = p at h0 ⊢
  obtain ⟨o, v⟩ := p
  cases o with
  | none => exact h0
  | some leaf =>
    dsimp -zeta only
    extract_lets num b s1 s2 q s3 s4 src s5
    have h1 : Kept P u s1 := State.wr2_kept h0 _ _ _
    clear_value s1 b num
    have h2 : Kept P u s2 := State.hostWrite_kept h1 _ _
    clear_value s2
    have h3 : Kept P u s3 := Kept.ite (fun _ => Kept.upd_sec h2 _) fun _ => h1
    clear_value s3
    have h4 : Kept P u s4 := Kept.ite (fun _ => h3) fun _ => State.hostWrite_kept h3 _ _
    clear_value s4
    have h5 : Kept P u s5 := Kept.upd_sec h4 _
    clear_value s5
    exact State.log_kept (State.change_kept h5 _) _ _ _ _ _ _ _ _

theorem State.showKeys_kept {P : List Part} {u s : State} (hk : Kept P u s)  (hP : Sub [.regs] P := by exact Sub.of ‹_› (by rfl)) : Kept P u (State.showKeys s) := by
  unfold State.showKeys
  repeat' first
    | (with_reducible assumption)
    | (with_reducible apply State.set_kept)
    | (with_reducible apply State.setB_kept)
    | (with_reducible refine Kept.foldl ?_ ?_)
    | (exact Sub.of ‹_› (by rfl))
    | (intro _)
    | split
    | (dsimp only)

theorem State.keysChanged_kept {P : List Part} {u s : State} (hk : Kept P u s) (k : Nat) (by_ : Nat × Nat) (hP : Sub [.regs, .vec, .hostMem, .sec, .axl] P := by exact Sub.of ‹_› (by rfl)) : Kept P u (State.keysChanged s k by_) := by
  unfold State.keysChanged
  repeat' first
    | (with_reducible assumption)
    | (with_reducible apply State.change_kept)
    | (with_reducible apply State.logSec_kept)
    | (with_reducible apply State.showKeys_kept)
    | (exact Sub.of ‹_› (by rfl))
    | (dsimp only)

theorem State.setSigning_kept {P : List Part} {u s : State} (hk : Kept P u s) (on : Bool) (by_ : Nat × Nat) (hP : Sub [.regs, .vec, .hostMem, .sec, .axl] P := by exact Sub.of ‹_› (by rfl)) : Kept P u (State.setSigning s on by_) := by
  unfold State.setSigning
  repeat' first
    | (with_reducible assumption)
    | (with_reducible apply State.setB_kept)
    | (with_reducible apply State.raiseMode_kept)
    | (with_reducible apply State.change_kept)
    | (with_reducible apply State.logSec_kept)
    | (exact Sub.of ‹_› (by rfl))
    | split
    | (dsimp only)

theorem State.newNonce_kept {P : List Part} {u s : State} (hk : Kept P u s)  (hP : Sub [.regs, .free] P := by exact Sub.of ‹_› (by rfl)) : Kept P u (State.newNonce s) := by
  unfold State.newNonce
  repeat' first
    | (with_reducible assumption)
    | (with_reducible apply State.wr_kept)
    | (with_reducible apply State.draw_kept)
    | (refine State.draw_kept' ?_ (by with_reducible assumption))
    | (with_reducible refine Kept.foldl ?_ ?_)
    | (exact Sub.of ‹_› (by rfl))
    | (intro _)
    | split
    | (dsimp only)

theorem State.lcDone_kept {P : List Part} {u s : State} (hk : Kept P u s) (r : Nat) (hP : Sub [.regs, .free] P := by exact Sub.of ‹_› (by rfl)) : Kept P u (State.lcDone s r) := by
  unfold State.lcDone
  repeat' first
    | (with_reducible assumption)
    | (with_reducible apply State.set_kept)
    | (with_reducible apply State.newNonce_kept)
    | (exact Sub.of ‹_› (by rfl))
    | (dsimp only)

theorem State.lcRefused_kept {P : List Part} {u s : State} (hk : Kept P u s)  (hP : Sub [.regs, .free, .vec] P := by exact Sub.of ‹_› (by rfl)) : Kept P u (State.lcRefused s) := by
  unfold State.lcRefused
  repeat' first
    | (with_reducible assumption)
    | (with_reducible apply State.raise_kept)
    | (with_reducible apply State.lcDone_kept)
    | (exact Sub.of ‹_› (by rfl))
    | (dsimp only)

theorem State.lcBadToken_kept {P : List Part} {u s : State} (hk : Kept P u s)  (hP : Sub [.regs, .free, .vec] P := by exact Sub.of ‹_› (by rfl)) : Kept P u (State.lcBadToken s) := by
  unfold State.lcBadToken
  repeat' first
    | (with_reducible assumption)
    | (with_reducible apply State.raise_kept)
    | (with_reducible apply State.lcDone_kept)
    | (exact Sub.of ‹_› (by rfl))
    | (dsimp only)

theorem State.consent_kept {P : List Part} {u s : State} (hk : Kept P u s) (tok : Option Token) (hP : Sub [.regs, .vec, .axl] P := by exact Sub.of ‹_› (by rfl)) : Kept P u (State.consent s tok).2 := by
  unfold State.consent
  repeat' first
    | (with_reducible assumption)
    | (with_reducible apply State.checkBlob_kept)
    | (refine State.checkBlob_kept' ?_ (by with_reducible assumption))
    | (exact Sub.of ‹_› (by rfl))
    | (intro _)
    | split
    | (dsimp only)

theorem State.consent_kept' {P : List Part} {u s t : State} {r₀ : Bool} {tok : Option Token} (hk : Kept P u s) (he₀ : (State.consent s tok) = (r₀, t)) (hP : Sub [.regs, .vec, .axl] P := by exact Sub.of ‹_› (by rfl)) : Kept P u t := by
  have := State.consent_kept hk tok
  rw [he₀] at this; exact this

theorem State.setLifecycle_kept {P : List Part} {u s : State} (hk : Kept P u s) (l : Nat) (hP : Sub [.regs, .vec, .hostMem, .sec] P := by exact Sub.of ‹_› (by rfl)) : Kept P u (State.setLifecycle s l) := by
  unfold State.setLifecycle
  repeat' first
    | (with_reducible assumption)
    | (with_reducible apply State.set_kept)
    | (with_reducible apply State.raiseMode_kept)
    | (with_reducible apply State.logSec_kept)
    | (exact Sub.of ‹_› (by rfl))
    | split
    | (dsimp only)

theorem State.eraseSecrets_kept {P : List Part} {u s : State} (hk : Kept P u s) (hP : Sub [.regs, .vec, .hostMem, .sec, .axl] P := by exact Sub.of ‹_› (by rfl)) : Kept P u (State.eraseSecrets s) := by
  unfold State.eraseSecrets
  extract_lets on pins dom r1 r2 s1 s2 s3 s4 s5 s6 s7
  have h1 : Kept P u s1 := by
    simp only [s1, r1, r2, Kept.mk_iff]
    (with_reducible apply KeptC.of_mem hk) <;> first | exact id | exact fun _ => rfl | exact Or.inr rfl | exact Or.inr ⟨rfl, rfl⟩ | exact Or.inl (Sub.mem ‹_› (by rfl))
  clear_value s1
  have h2 : Kept P u s2 := Kept.foldl (State.showKeys_kept h1) fun v x hv => State.wr2_kept hv _ _ _
  clear_value s2
  have h3 : Kept P u s3 := State.raiseMode_kept (State.setB_kept h2 _ _ _) _
  clear_value s3
  have h4 : Kept P u s4 := Kept.foldl h3 fun v x hv => State.writeRec_kept hv _ _ _
  clear_value s4
  have h5 : Kept P u s5 := State.writeRec_kept h4 _ _ _
  clear_value s5
  have h6 : Kept P u s6 := Kept.ite (fun _ => State.logSec_kept h5 _ _) fun _ => h5
  clear_value s6
  have h7 : Kept P u s7 := Kept.ite (fun _ => State.logSec_kept h6 _ _) fun _ => h6
  clear_value s7
  exact Kept.ite (fun _ => State.logSec_kept h7 _ _) fun _ => h7

theorem State.beginRma_kept {P : List Part} {u s : State} (hk : Kept P u s)  (hP : Sub [.regs, .sec, .axl] P := by exact Sub.of ‹_› (by rfl)) : Kept P u (State.beginRma s) := by
  unfold State.beginRma
  repeat' first
    | (with_reducible assumption)
    | (with_reducible apply State.change_kept)
    | (exact Sub.of ‹_› (by rfl))
    | (simp only [Kept.mk_iff]; with_reducible apply KeptC.of)
    | (with_reducible exact Or.inr rfl)
    | (with_reducible exact Or.inr ⟨rfl, rfl⟩)
    | (exact Or.inl (Sub.mem ‹_› (by rfl)))
    | (with_reducible rfl)
    | (dsimp only)

theorem State.endRma_kept {P : List Part} {u s : State} (hk : Kept P u s)  (hP : Sub [.regs, .vec, .hostMem, .sec, .axl] P := by exact Sub.of ‹_› (by rfl)) : Kept P u (State.endRma s) := by
  unfold State.endRma
  repeat' first
    | (with_reducible assumption)
    | (with_reducible apply State.change_kept)
    | (with_reducible apply State.retireKey_kept)
    | (with_reducible apply State.setLifecycle_kept)
    | (exact Sub.of ‹_› (by rfl))
    | (simp only [Kept.mk_iff]; with_reducible apply KeptC.of)
    | (with_reducible exact Or.inr rfl)
    | (with_reducible exact Or.inr ⟨rfl, rfl⟩)
    | (exact Or.inl (Sub.mem ‹_› (by rfl)))
    | (with_reducible rfl)
    | split
    | (dsimp only)

theorem State.refsOff_kept {P : List Part} {u s : State} (hk : Kept P u s)  (hP : Sub [.regs, .free, .ref, .axl] P := by exact Sub.of ‹_› (by rfl)) : Kept P u (State.refsOff s) := by
  unfold State.refsOff
  repeat' first
    | (with_reducible assumption)
    | (with_reducible apply State.wr_kept)
    | (with_reducible apply State.set_kept)
    | (with_reducible apply State.trkMean_kept)
    | (with_reducible refine Kept.foldl ?_ ?_)
    | (exact Sub.of ‹_› (by rfl))
    | (simp only [Kept.mk_iff]; with_reducible apply KeptC.of)
    | (with_reducible exact Or.inr rfl)
    | (with_reducible exact Or.inr ⟨rfl, rfl⟩)
    | (exact Or.inl (Sub.mem ‹_› (by rfl)))
    | (with_reducible rfl)
    | (intro _)
    | split
    | (dsimp only)

theorem State.enterEnd_kept {P : List Part} {u s : State} (hk : Kept P u s)  (hP : Sub [.regs, .free, .media, .xpt, .fst, .aud, .vec, .ref, .axl] P := by exact Sub.of ‹_› (by rfl)) : Kept P u (State.enterEnd s) := by
  unfold State.enterEnd
  repeat' first
    | (with_reducible assumption)
    | (with_reducible apply State.set_kept)
    | (with_reducible apply State.txRefresh_kept)
    | (with_reducible apply State.rxDown_kept)
    | (with_reducible apply State.qeDown_kept)
    | (with_reducible apply State.setVState_kept)
    | (with_reducible apply State.refsOff_kept)
    | (with_reducible refine Kept.foldl ?_ ?_)
    | (exact Sub.of ‹_› (by rfl))
    | (intro _)
    | split
    | (dsimp only)

end Sys2Proof.Machine
end

