-- ==== Sys2Proof/Laws/KeptRstOps.lean ====
section
/-! SUPPORT. The operations of Machine/RstOps.lean keep the queue and the canonical forms, and which parts of the state they may change. -/
set_option Elab.async false
namespace Sys2Proof.Machine

theorem State.releaseBlock_kept {P : List Part} {u s : State} (hk : Kept P u s) (c : Nat) (i : Nat) (hP : Sub [.regs, .syn] P := by exact Sub.of ‹_› (by rfl)) : Kept P u (State.releaseBlock s c i) := by
  unfold State.releaseBlock
  repeat' first
    | (with_reducible assumption)
    | (with_reducible apply State.set_kept)
    | (with_reducible apply State.txRefresh_kept)
    | (with_reducible apply State.synStart_kept)
    | (with_reducible refine Kept.foldl ?_ ?_)
    | (exact Sub.of ‹_› (by rfl))
    | (intro _)
    | split
    | (dsimp only)

theorem State.testBegin_kept {P : List Part} {u s : State} (hk : Kept P u s) (u₁ : Nat) (hP : Sub [.regs, .free, .media, .xpt, .fst, .che, .aud, .host, .vec, .lv, .axl, .hsf, .mate] P := by exact Sub.of ‹_› (by rfl)) : Kept P u (State.testBegin s u₁) := by
  unfold State.testBegin
  repeat' first
    | (with_reducible assumption)
    | (with_reducible apply State.set_kept)
    | (with_reducible apply State.setEng_kept)
    | (with_reducible apply State.txRefresh_kept)
    | (with_reducible apply State.rxDown_kept)
    | (with_reducible apply State.rxLoss_kept)
    | (with_reducible apply State.qeDown_kept)
    | (with_reducible apply State.useSpare_kept)
    | (refine State.useSpare_kept' ?_ (by with_reducible assumption))
    | (with_reducible apply State.mateDown_kept)
    | (exact Sub.of ‹_› (by rfl))
    | split
    | (dsimp only)

theorem State.testOver_kept {P : List Part} {u s : State} (hk : Kept P u s) (u₁ : Nat) (hP : Sub [.regs, .hsf] P := by exact Sub.of ‹_› (by rfl)) : Kept P u (State.testOver s u₁) := by
  unfold State.testOver
  repeat' first
    | (with_reducible assumption)
    | (with_reducible apply State.set_kept)
    | (with_reducible apply State.txRefresh_kept)
    | (with_reducible apply State.returnSpare_kept)
    | (exact Sub.of ‹_› (by rfl))
    | split
    | (dsimp only)

theorem State.unfence_kept {P : List Part} {u s : State} (hk : Kept P u s) (u₁ : Nat) (hP : Sub [.regs, .fst, .syn, .flt, .hsf] P := by exact Sub.of ‹_› (by rfl)) : Kept P u (State.unfence s u₁) := by
  unfold State.unfence
  repeat' first
    | (with_reducible assumption)
    | (with_reducible apply State.set_kept)
    | (with_reducible apply State.dirty_kept)
    | (with_reducible apply State.returnSpare_kept)
    | (with_reducible apply State.setFltUnit_kept)
    | (with_reducible apply State.releaseBlock_kept)
    | (exact Sub.of ‹_› (by rfl))
    | (simp only [Kept.mk_iff]; with_reducible apply KeptC.of)
    | (with_reducible exact Or.inr rfl)
    | (with_reducible exact Or.inr ⟨rfl, rfl⟩)
    | (exact Or.inl (Sub.mem ‹_› (by rfl)))
    | (with_reducible rfl)
    | split
    | (dsimp only)

theorem State.testPass_kept {P : List Part} {u s : State} (hk : Kept P u s) (r : FltRec) (hP : Sub [.regs, .fst, .vec, .syn, .flt, .hsf] P := by exact Sub.of ‹_› (by rfl)) : Kept P u (State.testPass s r) := by
  unfold State.testPass
  repeat' first
    | (with_reducible assumption)
    | (with_reducible apply State.inc_kept)
    | (with_reducible apply State.raise_kept)
    | (with_reducible apply State.setFltUnit_kept)
    | (with_reducible apply State.setRec_kept)
    | (with_reducible apply State.testOver_kept)
    | (with_reducible apply State.unfence_kept)
    | (exact Sub.of ‹_› (by rfl))
    | split
    | (dsimp only)

theorem State.testFail_kept {P : List Part} {u s : State} (hk : Kept P u s) (r : FltRec) (rows : Nat) (hP : Sub [.regs, .media, .xpt, .fst, .fstMem, .che, .sou, .aud, .vec, .syn, .flt, .hsf] P := by exact Sub.of ‹_› (by rfl)) : Kept P u (State.testFail s r rows) := by
  unfold State.testFail
  repeat' first
    | (with_reducible assumption)
    | (with_reducible apply State.inc_kept)
    | (with_reducible apply State.raise_kept)
    | (with_reducible apply State.dirty_kept)
    | (with_reducible apply State.setRec_kept)
    | (with_reducible apply State.lasting_kept)
    | (with_reducible apply State.testOver_kept)
    | (exact Sub.of ‹_› (by rfl))
    | split
    | (dsimp only)

theorem State.testAbandon_kept {P : List Part} {u s : State} (hk : Kept P u s) (r : FltRec) (hung : Bool) (hP : Sub [.regs, .media, .xpt, .fst, .fstMem, .che, .sou, .aud, .vec, .syn, .flt, .hsf] P := by exact Sub.of ‹_› (by rfl)) : Kept P u (State.testAbandon s r hung) := by
  unfold State.testAbandon
  repeat' first
    | (with_reducible assumption)
    | (with_reducible apply State.setRec_kept)
    | (with_reducible apply State.testOver_kept)
    | (with_reducible apply State.testFail_kept)
    | (exact Sub.of ‹_› (by rfl))
    | split
    | (dsimp only)

end Sys2Proof.Machine
end

