-- ==== Sys2Proof/Laws/KeptResetOps.lean ====
section
/-! SUPPORT. The operations of Machine/ResetOps.lean keep the queue and the canonical forms, and which parts of the state they may change. -/
set_option Elab.async false
namespace Sys2Proof.Machine

theorem State.setPhase_kept {P : List Part} {u s : State} (hk : Kept P u s) (p : Nat) (hP : Sub [.regs] P := by exact Sub.of ‹_› (by rfl)) : Kept P u (State.setPhase s p) := by
  unfold State.setPhase
  repeat' first
    | (with_reducible assumption)
    | (with_reducible apply State.set_kept)
    | (exact Sub.of ‹_› (by rfl))
    | (dsimp only)

theorem State.addCause_kept {P : List Part} {u s : State} (hk : Kept P u s) (m : Nat) (hP : Sub [.regs] P := by exact Sub.of ‹_› (by rfl)) : Kept P u (State.addCause s m) := by
  unfold State.addCause
  repeat' first
    | (with_reducible assumption)
    | (with_reducible apply State.set_kept)
    | (exact Sub.of ‹_› (by rfl))
    | (dsimp only)

theorem State.newCause_kept {P : List Part} {u s : State} (hk : Kept P u s) (cold : Bool) (m : Nat) (hP : Sub [.regs] P := by exact Sub.of ‹_› (by rfl)) : Kept P u (State.newCause s cold m) := by
  unfold State.newCause
  repeat' first
    | (with_reducible assumption)
    | (with_reducible apply State.wr_kept)
    | (with_reducible apply State.set_kept)
    | (with_reducible apply State.setB_kept)
    | (exact Sub.of ‹_› (by rfl))
    | (dsimp only)

theorem State.coldState_kept {P : List Part} {u s : State} (hk : Kept P u s) (hP : Sub [.regs, .taken, .snap, .media, .xpt, .fst, .fstMem, .che, .sou, .aud, .host, .vec, .lv, .ref, .syn, .sec, .flt, .axl, .rst, .hsf, .mtx, .mate, .pkg] P := by exact Sub.of ‹_› (by rfl)) : Kept P u (State.coldState s) := by
  unfold State.coldState
  extract_lets r r1 r2 r3 r4 r5
  have h0 : Kept P u r := ⟨hk.1, fun w => by
    obtain ⟨_, m1, m2, m3, m4⟩ := hk.2.1 w
    exact ⟨⟨rfl, rfl⟩, m1, rfl, rfl, tabWf_filter _ _ _ m4⟩, fun p hp => by
      cases p <;> first | exact absurd (hP _ (by decide)) hp | exact hk.2.2 _ hp⟩
  clear_value r
  have h1 : Kept P u r1 := Kept.foldl h0 fun v x hv => State.wr_kept hv _ _
  clear_value r1
  have h2 : Kept P u r2 := State.set_kept (State.set_kept h1 _ _ _) _ _ _
  clear_value r2
  have h3 : Kept P u r3 := State.set_kept (State.set_kept h2 _ _ _) _ _ _
  clear_value r3
  have h4 : Kept P u r4 := State.set_kept h3 _ _ _
  clear_value r4
  have h5 : Kept P u r5 := State.set_kept h4 _ _ _
  clear_value r5
  exact State.set_kept h5 _ _ _

theorem State.restartP1_kept {P : List Part} {u s : State} (hk : Kept P u s)  (hP : Sub [.regs, .vec] P := by exact Sub.of ‹_› (by rfl)) : Kept P u (State.restartP1 s) := by
  unfold State.restartP1
  repeat' first
    | (with_reducible assumption)
    | (with_reducible apply State.inc_kept)
    | (with_reducible apply State.raise_kept)
    | (exact Sub.of ‹_› (by rfl))
    | (dsimp only)

theorem State.leaveP0_kept {P : List Part} {u s : State} (hk : Kept P u s)  (hP : Sub [.regs, .vec, .axl, .rst] P := by exact Sub.of ‹_› (by rfl)) : Kept P u (State.leaveP0 s) := by
  unfold State.leaveP0
  repeat' first
    | (with_reducible assumption)
    | (with_reducible apply State.writeRec_kept)
    | (with_reducible apply State.setPhase_kept)
    | (with_reducible apply State.restartP1_kept)
    | (with_reducible refine Kept.foldl ?_ ?_)
    | (exact Sub.of ‹_› (by rfl))
    | (simp only [Kept.mk_iff]; with_reducible apply KeptC.of)
    | (with_reducible exact Or.inr rfl)
    | (with_reducible exact Or.inr ⟨rfl, rfl⟩)
    | (exact Or.inl (Sub.mem ‹_› (by rfl)))
    | (with_reducible rfl)
    | (intro _)
    | split
    | (dsimp only)

theorem State.coldBegin_kept {P : List Part} {u s : State} (hk : Kept P u s) (m : Nat) (hP : Sub [.regs, .taken, .snap, .media, .xpt, .fst, .fstMem, .che, .sou, .aud, .host, .vec, .lv, .ref, .syn, .sec, .flt, .axl, .rst, .hsf, .mtx, .mate, .pkg] P := by exact Sub.of ‹_› (by rfl)) : Kept P u (State.coldBegin s m) := by
  unfold State.coldBegin
  repeat' first
    | (with_reducible assumption)
    | (with_reducible apply State.newCause_kept)
    | (with_reducible apply State.coldState_kept)
    | (with_reducible apply State.leaveP0_kept)
    | (exact Sub.of ‹_› (by rfl))
    | split
    | (dsimp only)

theorem State.coldSource_kept {P : List Part} {u s : State} (hk : Kept P u s) (m : Nat) (hP : Sub [.regs, .taken, .snap, .media, .xpt, .fst, .fstMem, .che, .sou, .aud, .host, .vec, .lv, .ref, .syn, .sec, .flt, .axl, .rst, .hsf, .mtx, .mate, .pkg] P := by exact Sub.of ‹_› (by rfl)) : Kept P u (State.coldSource s m) := by
  unfold State.coldSource
  repeat' first
    | (with_reducible assumption)
    | (with_reducible apply State.setPhase_kept)
    | (with_reducible apply State.addCause_kept)
    | (with_reducible apply State.restartP1_kept)
    | (with_reducible apply State.leaveP0_kept)
    | (with_reducible apply State.coldBegin_kept)
    | (exact Sub.of ‹_› (by rfl))
    | (simp only [Kept.mk_iff]; with_reducible apply KeptC.of)
    | (with_reducible exact Or.inr rfl)
    | (with_reducible exact Or.inr ⟨rfl, rfl⟩)
    | (exact Or.inl (Sub.mem ‹_› (by rfl)))
    | (with_reducible rfl)
    | split
    | (dsimp only)

theorem State.warmSource_kept {P : List Part} {u s : State} (hk : Kept P u s) (b : Nat) (hP : Sub [.regs, .taken, .snap, .media, .xpt, .fst, .fstMem, .che, .sou, .aud, .host, .vec, .lv, .ref, .syn, .sec, .flt, .axl, .rst, .hsf, .mtx, .mate, .pkg] P := by exact Sub.of ‹_› (by rfl)) : Kept P u (State.warmSource s b) := by
  unfold State.warmSource
  refine Kept.ite (fun _ => State.coldSource_kept hk _) fun _ => Kept.ite (fun _ => State.restartP1_kept (State.addCause_kept hk _)) fun _ =>
    Kept.ite (fun _ => State.addCause_kept hk _) fun _ => Kept.ite (fun _ => State.coldSource_kept hk _) fun _ => ?_
  extract_lets s1 s2
  have h1 : Kept P u s1 := State.newCause_kept hk _ _
  clear_value s1
  have h2 : Kept P u s2 := Kept.ite (fun _ => h1) fun _ => State.set_kept h1 _ _ _
  clear_value s2
  exact Kept.upd_rst h2 _

theorem tabSorted_map {α β : Type} (g : Nat × α → β) (t : Tab α) : tabSorted (t.map fun p => (p.1, g p)) = tabSorted t := by
  induction t with
  | nil => rfl
  | cons p t ih =>
    cases t with
    | nil => rfl
    | cons q t => simp only [List.map_cons, tabSorted] at ih ⊢; rw [ih]

/-- A warm reset leaves registers in canonical form. -/
theorem warmTab_wf (t : Tab Word) (h : tabWf resetVal t = true) : tabWf resetVal (warmTab t) = true := by
  have hs : tabSorted t = true := by simp only [tabWf, Bool.and_eq_true] at h; exact h.1
  have hm : tabSorted (t.map fun p => (p.1, warmVal p.1 p.2)) = true := by rw [tabSorted_map (fun p => warmVal p.1 p.2)]; exact hs
  have hf : ∀ l : Tab Word, tabSorted l = true → tabSorted (l.filter fun p => p.2 != resetVal p.1) = true := by
    intro l hl
    induction l with
    | nil => rfl
    | cons q l ih =>
      obtain ⟨k, v⟩ := q
      obtain ⟨h1, h2⟩ := (tabSorted_cons_iff _ _ _).mp hl
      rw [List.filter_cons]
      split
      · rw [tabSorted_cons_iff]
        exact ⟨fun x hx => h1 x (List.mem_of_mem_filter hx), ih h2⟩
      · exact ih h2
  simp only [tabWf, warmTab, Bool.and_eq_true, List.all_eq_true]
  exact ⟨hf _ hm, fun p hp => by simpa using (List.mem_filter.mp hp).2⟩

theorem State.loseOp_kept {P : List Part} {u s : State} (hk : Kept P u s) (o : Op) (hP : Sub [.fst, .aud, .host] P := by exact Sub.of ‹_› (by rfl)) : Kept P u (State.loseOp s o) := by
  unfold State.loseOp
  repeat' first
    | (with_reducible assumption)
    | (with_reducible apply State.setChain_kept)
    | (with_reducible apply State.setOp_kept)
    | (with_reducible apply State.dropOp_kept)
    | (with_reducible apply State.reapSlots_kept)
    | (exact Sub.of ‹_› (by rfl))
    | (intro _)
    | split
    | (dsimp only)

theorem State.clearOps_kept {P : List Part} {u s : State} (hk : Kept P u s)  (hP : Sub [.regs, .fst, .aud, .host, .mate] P := by exact Sub.of ‹_› (by rfl)) : Kept P u (State.clearOps s) := by
  unfold State.clearOps
  repeat' first
    | (with_reducible assumption)
    | (with_reducible apply State.leapRateCheck_kept)
    | (with_reducible apply State.loseOp_kept)
    | (with_reducible refine Kept.foldl ?_ ?_)
    | (exact Sub.of ‹_› (by rfl))
    | (simp only [Kept.mk_iff]; with_reducible apply KeptC.of)
    | (with_reducible exact Or.inr rfl)
    | (with_reducible exact Or.inr ⟨rfl, rfl⟩)
    | (exact Or.inl (Sub.mem ‹_› (by rfl)))
    | (with_reducible rfl)
    | (intro _)
    | split
    | (dsimp only)

theorem State.recoverOps_kept {P : List Part} {u s : State} (hk : Kept P u s)  (hP : Sub [.fst, .aud, .host, .mate] P := by exact Sub.of ‹_› (by rfl)) : Kept P u (State.recoverOps s) := by
  unfold State.recoverOps
  repeat' first
    | (with_reducible assumption)
    | (with_reducible apply State.loseOp_kept)
    | (with_reducible refine Kept.foldl ?_ ?_)
    | (exact Sub.of ‹_› (by rfl))
    | (simp only [Kept.mk_iff]; with_reducible apply KeptC.of)
    | (with_reducible exact Or.inr rfl)
    | (with_reducible exact Or.inr ⟨rfl, rfl⟩)
    | (exact Or.inl (Sub.mem ‹_› (by rfl)))
    | (with_reducible rfl)
    | (intro _)
    | split
    | (dsimp only)

theorem State.reapAll_kept {P : List Part} {u s : State} (hk : Kept P u s)  (hP : Sub [.regs, .xpt, .fst, .che, .sou, .aud] P := by exact Sub.of ‹_› (by rfl)) : Kept P u (State.reapAll s) := by
  unfold State.reapAll
  repeat' first
    | (with_reducible assumption)
    | (with_reducible apply State.reapChain_kept)
    | (with_reducible refine Kept.foldl ?_ ?_)
    | (exact Sub.of ‹_› (by rfl))
    | (intro _)
    | split
    | (dsimp only)

theorem State.warmE1_kept {P : List Part} {u s : State} (hk : Kept P u s) (hP : Sub [.regs, .taken, .free, .media, .xpt, .fst, .fstMem, .che, .sou, .aud, .host, .vec, .lv, .syn, .sec, .flt, .rst, .hsf, .mtx, .mate, .pkg] P := by exact Sub.of ‹_› (by rfl)) : Kept P u (State.warmE1 s) := by
  unfold State.warmE1
  extract_lets s1 s2 dma s3 s4 r1 r2 r3 r4 r5 s5 s5' s6 s7 s8 s9
  have h1 : Kept P u s1 := by
    simp only [s1]
    split
    · exact State.testAbandon_kept hk _ _
    · exact hk
  clear_value s1
  have h2 : Kept P u s2 := State.clearOps_kept (State.raiseOver_kept h1)
  clear_value s2
  have h3 : Kept P u s3 := Kept.foldl h2 fun v x hv => State.dmaAbandon_kept hv _
  clear_value s3
  have h4 : Kept P u s4 := Kept.ite (fun _ => State.set_kept (State.draw_kept h3) _ _ _) fun _ => h3
  clear_value s4
  have h5 : Kept P u s5 := ⟨h4.1, fun w => ⟨⟨warmTab_wf _ (h4.2.1 w).1.1, warmTab_wf _ (h4.2.1 w).1.2⟩, (h4.2.1 w).2⟩, fun p hp => by
    cases p <;> first | exact absurd (hP _ (by decide)) hp | exact h4.2.2 _ hp⟩
  clear_value s5
  have h5' : Kept P u s5' := State.leapRateCheck_kept h5
  clear_value s5'
  have h6 : Kept P u s6 := Kept.foldl h5' fun v x hv => State.setRingSt_kept hv _ _
  clear_value s6
  have h7 : Kept P u s7 := Kept.foldl h6 fun v x hv => State.resetMaster_kept hv _
  clear_value s7
  have h8 : Kept P u s8 := Kept.foldl h7 fun v x hv => Kept.ite (fun _ => hv) fun _ => State.set_kept hv _ _ _
  clear_value s8
  exact State.setPhase_kept (State.clearAwait_kept (State.set_kept (State.inc_kept h8 _) _ _ _)) _

theorem State.loadBody_kept {P : List Part} {u s : State} (hk : Kept P u s) (k : Nat) (b : RecBody) (hP : Sub [.regs, .vec, .ref, .sec, .flt, .axl] P := by exact Sub.of ‹_› (by rfl)) : Kept P u (State.loadBody s k b) := by
  unfold State.loadBody
  repeat' first
    | (with_reducible assumption)
    | (with_reducible apply State.wr_kept)
    | (with_reducible apply State.set_kept)
    | (with_reducible apply State.setB_kept)
    | (with_reducible apply State.wr2_kept)
    | (with_reducible apply State.raise_kept)
    | (with_reducible apply State.setLeaves_kept)
    | (with_reducible apply State.showKeys_kept)
    | (with_reducible refine Kept.foldl ?_ ?_)
    | (exact Sub.of ‹_› (by rfl))
    | (simp only [Kept.mk_iff]; with_reducible apply KeptC.of_mem)
    | (with_reducible exact Or.inr rfl)
    | (with_reducible exact Or.inr ⟨rfl, rfl⟩)
    | (exact Or.inl (Sub.mem ‹_› (by rfl)))
    | (with_reducible rfl)
    | (with_reducible exact id)
    | (with_reducible exact memWrites_wf _ _ _)
    | (with_reducible exact memWrite_wf _ _ _)
    | (exact foldWrite_wf _ _ _ _)
    | (exact foldSkip_wf _ _ _ _ _ ‹_›)
    | (exact foldWrite_wf _ _ _ _ (tabWf_filter _ _ _ ‹_›))
    | (intro _)
    | split
    | (dsimp only)

theorem State.tieRewrite_kept {P : List Part} {u s : State} (hk : Kept P u s) (k : Nat) (c : Copy) (hP : Sub [.regs, .vec, .axl] P := by exact Sub.of ‹_› (by rfl)) : Kept P u (State.tieRewrite s k c) := by
  unfold State.tieRewrite
  repeat' first
    | (with_reducible assumption)
    | (with_reducible apply State.inc_kept)
    | (with_reducible apply State.raise_kept)
    | (with_reducible apply State.setCopy_kept)
    | (exact Sub.of ‹_› (by rfl))
    | split
    | (dsimp only)

theorem State.showRec_kept {P : List Part} {u s : State} (hk : Kept P u s) (k : Nat) (h : Nat) (q : Nat) (hP : Sub [.regs] P := by exact Sub.of ‹_› (by rfl)) : Kept P u (State.showRec s k h q) := by
  unfold State.showRec
  repeat' first
    | (with_reducible assumption)
    | (with_reducible apply State.wr_kept)
    | (with_reducible apply State.set_kept)
    | (exact Sub.of ‹_› (by rfl))
    | split
    | (dsimp only)

theorem State.recallRec_kept {P : List Part} {u s : State} (hk : Kept P u s) (k : Nat) (hP : Sub [.regs, .vec, .ref, .sec, .flt, .axl] P := by exact Sub.of ‹_› (by rfl)) : Kept P u (State.recallRec s k) := by
  unfold State.recallRec
  extract_lets a win
  clear_value win
  split
  · exact State.raise_kept (State.set_kept hk _ _ _) _ _
  · exact State.loadBody_kept (State.showRec_kept (Kept.ite (fun _ => State.tieRewrite_kept hk _ _) fun _ => hk) _ _ _) _ _

theorem State.recallKey_kept {P : List Part} {u s : State} (hk : Kept P u s) (k : Nat) (hP : Sub [.regs, .vec] P := by exact Sub.of ‹_› (by rfl)) : Kept P u (State.recallKey s k) := by
  unfold State.recallKey
  repeat' first
    | (with_reducible assumption)
    | (with_reducible apply State.set_kept)
    | (with_reducible apply State.retireKey_kept)
    | (exact Sub.of ‹_› (by rfl))
    | (intro _)
    | split
    | (dsimp only)

theorem State.retention_kept {P : List Part} {u s : State} (hk : Kept P u s) (hP : Sub [.regs, .rst, .mtx] P := by exact Sub.of ‹_› (by rfl)) : Kept P u (State.retention s) := by
  unfold State.retention
  refine Kept.ite (fun _ => ?_) fun _ => hk
  extract_lets s1 r1 r2 s2
  have h1 : Kept P u s1 := Kept.foldl hk fun v x hv => State.wr_kept hv _ _
  clear_value s1
  have h2 : Kept P u s2 := by
    simp only [s2, r1, r2, Kept.mk_iff]
    (with_reducible apply KeptC.of_mem h1) <;> first | exact id | exact fun _ => rfl | exact Or.inr rfl | exact Or.inr ⟨rfl, rfl⟩ | exact Or.inl (Sub.mem ‹_› (by rfl))
  exact State.set_kept h2 _ _ _

theorem State.restoreOne_kept {P : List Part} {u s : State} (hk : Kept P u s) (units : Tab Nat) (r : SavedRoute) (hP : Sub [.regs, .media, .xpt, .fst, .che, .sou, .aud, .host, .vec, .hostMem, .sec, .mate] P := by exact Sub.of ‹_› (by rfl)) : (State.restoreOne s units r).Kept P u := by
  unfold State.restoreOne
  repeat' first
    | (with_reducible assumption)
    | (with_reducible exact True.intro)
    | (with_reducible exact Adm.kept_bad ..)
    | (with_reducible exact Adm.kept_badData ..)
    | (with_reducible exact Adm.kept_short ..)
    | (with_reducible exact Adm.kept_denied ..)
    | (with_reducible exact Adm.kept_no ..)
    | (with_reducible exact Adm.kept_wait ..)
    | (with_reducible apply Adm.kept_late)
    | (with_reducible apply Adm.kept_deny)
    | (with_reducible apply Adm.kept_yes)
    | (with_reducible apply routeBody_kept)
    | (with_reducible apply chainAdmit_kept)
    | (with_reducible refine Adm.ite (fun _ => ?_) fun _ => ?_)
    | (exact Sub.of ‹_› (by rfl))
    | split
    | (dsimp only)

theorem State.restoreAll_kept {P : List Part} {u : State} (l : List SavedRoute) {s t : State} {un : Tab Nat} {a b x y : Nat} (hk : Kept P u s)
    (he : s.restoreAll l un a b = some (t, x, y)) (hP : Sub [.regs, .media, .xpt, .fst, .che, .sou, .aud, .host, .vec, .hostMem, .sec, .mate] P := by exact Sub.of ‹_› (by rfl)) : Kept P u t := by
  induction l generalizing s un a b with
  | nil => simp only [State.restoreAll, Option.some.injEq, Prod.mk.injEq] at he; exact he.1 ▸ hk
  | cons r l ih =>
    simp only [State.restoreAll] at he
    have h1 := State.restoreOne_kept hk un r
    split at he
    · rename_i s' e
      rw [e] at h1
      exact ih h1 he
    · exact absurd he (by simp)
    · exact ih hk he

theorem State.restoreRoutes_kept' {P : List Part} {u s t : State} (hk : Kept P u s) (he₀ : s.restoreRoutes = some t) (hP : Sub [.regs, .media, .xpt, .fst, .che, .sou, .aud, .host, .vec, .hostMem, .sec, .mate] P := by exact Sub.of ‹_› (by rfl)) : Kept P u t := by
  unfold State.restoreRoutes at he₀
  extract_lets s1 r1 s2 at he₀
  have h1 : Kept P u s1 := Kept.ite (fun _ => Kept.foldl hk fun v x hv => Kept.ite (fun _ => hv) fun _ => State.wr_kept hv _ _) fun _ => hk
  clear_value s1
  have h2 : Kept P u s2 := Kept.upd_host h1 _ rfl ⟨rfl, rfl⟩
  clear_value s2
  generalize he : s2.restoreAll s2.restoreList [] 0 0 = o at he₀
  cases o with
  | none => exact absurd he₀ (by simp)
  | some q =>
    obtain ⟨v, x, y⟩ := q
    rw [← Option.some.inj he₀]
    exact State.set_kept (State.set_kept (Kept.upd_host (State.restoreAll_kept _ h2 he) { v.host with restoring := false } rfl ⟨rfl, rfl⟩) _ _ _) _ _ _

end Sys2Proof.Machine
end

