-- ==== Sys2Proof/Laws/KeptAxolotl.lean ====
section
/-! SUPPORT. The operations of Machine/Axolotl.lean keep the queue and the canonical forms, and which parts of the state they may change. -/
set_option Elab.async false
namespace Sys2Proof.Machine

theorem State.autoOver_kept {P : List Part} {u s : State} (hk : Kept P u s)  (hP : Sub [.regs, .taken, .snap, .media, .xpt, .fst, .fstMem, .che, .sou, .aud, .host, .vec, .lv, .ref, .syn, .sec, .flt, .axl, .rst, .hsf, .mtx, .mate, .pkg] P := by exact Sub.of ‹_› (by rfl)) : Kept P u (State.autoOver s) := by
  unfold State.autoOver
  repeat' first
    | (with_reducible assumption)
    | (with_reducible apply State.set_kept)
    | (with_reducible apply State.coldSource_kept)
    | (exact Sub.of ‹_› (by rfl))
    | (simp only [Kept.mk_iff]; with_reducible apply KeptC.of)
    | (with_reducible exact Or.inr rfl)
    | (with_reducible exact Or.inr ⟨rfl, rfl⟩)
    | (exact Or.inl (Sub.mem ‹_› (by rfl)))
    | (with_reducible rfl)
    | split
    | (dsimp only)

theorem State.armChange_kept {P : List Part} {u s : State} (hk : Kept P u s)  (s0 : State) (hP : Sub [.regs, .vec] P := by exact Sub.of ‹_› (by rfl)) : Kept P u (State.armChange s s0) := by
  unfold State.armChange
  repeat' first
    | (with_reducible assumption)
    | (with_reducible apply State.raiseMode_kept)
    | (exact Sub.of ‹_› (by rfl))
    | split
    | (dsimp only)

theorem State.storeSafety_kept {P : List Part} {u s : State} (hk : Kept P u s)  (hP : Sub [.regs, .media, .xpt, .fst, .fstMem, .che, .sou, .aud, .vec, .syn, .flt, .axl, .hsf] P := by exact Sub.of ‹_› (by rfl)) : Kept P u (State.storeSafety s) := by
  unfold State.storeSafety
  repeat' first
    | (with_reducible assumption)
    | (with_reducible apply State.storeRec_kept)
    | (with_reducible refine Kept.foldl ?_ ?_)
    | (exact Sub.of ‹_› (by rfl))
    | (intro _)
    | split
    | (dsimp only)

theorem State.axlCtl_kept {P : List Part} {u s : State} (hk : Kept P u s) (v : Nat) (ok : Bool) (hP : Sub [.regs, .media, .xpt, .fst, .fstMem, .che, .sou, .aud, .vec, .syn, .flt, .axl, .hsf] P := by exact Sub.of ‹_› (by rfl)) : Kept P u (State.axlCtl s v ok) := by
  unfold State.axlCtl
  repeat' first
    | (with_reducible assumption)
    | (with_reducible apply State.set_kept)
    | (with_reducible apply State.storeRec_kept)
    | (with_reducible apply State.modeRefused_kept)
    | (with_reducible apply State.armChange_kept)
    | (with_reducible apply State.storeSafety_kept)
    | (exact Sub.of ‹_› (by rfl))
    | split
    | (dsimp only)

theorem State.presetCapture_kept {P : List Part} {u s : State} (hk : Kept P u s) (v : Nat) (ok : Bool) (hP : Sub [.regs, .media, .xpt, .fst, .fstMem, .che, .sou, .aud, .vec, .syn, .flt, .axl, .hsf] P := by exact Sub.of ‹_› (by rfl)) : Kept P u (State.presetCapture s v ok) := by
  unfold State.presetCapture
  repeat' first
    | (with_reducible assumption)
    | (with_reducible apply State.raise_kept)
    | (with_reducible apply State.dirty_kept)
    | (with_reducible apply State.storeRec_kept)
    | (exact Sub.of ‹_› (by rfl))
    | (simp only [Kept.mk_iff]; with_reducible apply KeptC.of)
    | (with_reducible exact Or.inr rfl)
    | (with_reducible exact Or.inr ⟨rfl, rfl⟩)
    | (exact Or.inl (Sub.mem ‹_› (by rfl)))
    | (with_reducible rfl)
    | split
    | (dsimp only)

end Sys2Proof.Machine
end

