-- ==== Sys2Proof/Laws/KeptCrosspoint.lean ====
section
/-! SUPPORT. The operations of Machine/Crosspoint.lean keep the queue and the canonical forms, and which parts of the state they may change. -/
set_option Elab.async false
namespace Sys2Proof.Machine

theorem State.takeExecute_kept {P : List Part} {u s : State} (hk : Kept P u s) (d : Nat) (t₁ : Nat) (hP : Sub [.regs, .media, .xpt, .fst, .che, .sou, .aud, .host, .vec, .hostMem, .sec] P := by exact Sub.of ‹_› (by rfl)) : Kept P u (State.takeExecute s d t₁) := by
  unfold State.takeExecute
  repeat' first
    | (with_reducible assumption)
    | (with_reducible apply State.runIdle_kept)
    | (with_reducible apply State.runTake_kept)
    | (with_reducible apply State.abortTake_kept)
    | (exact Sub.of ‹_› (by rfl))
    | split
    | (dsimp only)

theorem State.pgWrite_kept {P : List Part} {u s : State} (hk : Kept P u s) (p : Nat) (v : Nat) (hP : Sub [.regs, .xpt, .vec] P := by exact Sub.of ‹_› (by rfl)) : Kept P u (State.pgWrite s p v) := by
  unfold State.pgWrite
  repeat' first
    | (with_reducible assumption)
    | (with_reducible apply State.set_kept)
    | (with_reducible apply State.raise_kept)
    | (with_reducible apply State.setPg_kept)
    | (exact Sub.of ‹_› (by rfl))
    | split
    | (dsimp only)

theorem State.hostFrame_kept {P : List Part} {u s : State} (hk : Kept P u s) (h : Nat) (f : SrcFrame) (hP : Sub [.regs, .media, .xpt, .fst, .aud] P := by exact Sub.of ‹_› (by rfl)) : Kept P u (State.hostFrame s h f) := by
  unfold State.hostFrame
  repeat' first
    | (with_reducible assumption)
    | (with_reducible apply State.refreshSrc_kept)
    | (with_reducible apply State.sourceLost_kept)
    | (with_reducible apply State.cwFormat_kept)
    | (exact Sub.of ‹_› (by rfl))
    | (simp only [Kept.mk_iff]; with_reducible apply KeptC.of)
    | (with_reducible exact Or.inr rfl)
    | (with_reducible exact Or.inr ⟨rfl, rfl⟩)
    | (exact Or.inl (Sub.mem ‹_› (by rfl)))
    | (with_reducible rfl)
    | split
    | (dsimp only)

theorem State.rxFrame_kept {P : List Part} {u s : State} (hk : Kept P u s) (n : Nat) (f : SrcFrame) (hP : Sub [.regs, .media, .aud, .vec] P := by exact Sub.of ‹_› (by rfl)) : Kept P u (State.rxFrame s n f) := by
  unfold State.rxFrame
  repeat' first
    | (with_reducible assumption)
    | (with_reducible apply State.setRx_kept)
    | (with_reducible apply State.groupShow_kept)
    | (with_reducible apply State.rxShow_kept)
    | (with_reducible apply State.rxPid_kept)
    | (with_reducible apply State.rxAtc_kept)
    | (exact Sub.of ‹_› (by rfl))
    | (simp only [Kept.mk_iff]; with_reducible apply KeptC.of)
    | (with_reducible exact Or.inr rfl)
    | (with_reducible exact Or.inr ⟨rfl, rfl⟩)
    | (exact Or.inl (Sub.mem ‹_› (by rfl)))
    | (with_reducible rfl)
    | split
    | (dsimp only)

theorem State.pathProof_kept {P : List Part} {u s : State} (hk : Kept P u s) (d : Nat) (sig : Nat) (underrun : Bool) (hP : Sub [.regs, .media, .xpt, .fst, .fstMem, .che, .sou, .aud, .vec, .syn, .flt, .hsf] P := by exact Sub.of ‹_› (by rfl)) : Kept P u (State.pathProof s d sig underrun) := by
  unfold State.pathProof
  repeat' first
    | (with_reducible assumption)
    | (with_reducible apply State.inc_kept)
    | (with_reducible apply State.raise_kept)
    | (with_reducible apply State.reportError_kept)
    | (exact Sub.of ‹_› (by rfl))
    | (simp only [Kept.mk_iff]; with_reducible apply KeptC.of)
    | (with_reducible exact Or.inr rfl)
    | (with_reducible exact Or.inr ⟨rfl, rfl⟩)
    | (exact Or.inl (Sub.mem ‹_› (by rfl)))
    | (with_reducible rfl)
    | split
    | (dsimp only)

theorem State.freezeCheck_kept {P : List Part} {u s : State} (hk : Kept P u s) (d : Nat) (same : Bool) (hP : Sub [.regs, .vec] P := by exact Sub.of ‹_› (by rfl)) : Kept P u (State.freezeCheck s d same) := by
  unfold State.freezeCheck
  repeat' first
    | (with_reducible assumption)
    | (with_reducible apply State.set_kept)
    | (with_reducible apply State.raise_kept)
    | (exact Sub.of ‹_› (by rfl))
    | split
    | (dsimp only)

theorem State.sendAnc_kept {P : List Part} {u s : State} (hk : Kept P u s) (k : Nat) (l : List AncPkt) (t₁ : Nat) (hP : Sub [.media] P := by exact Sub.of ‹_› (by rfl)) : Kept P u (State.sendAnc s k l t₁) := by
  unfold State.sendAnc
  repeat' first
    | (with_reducible assumption)
    | (exact Sub.of ‹_› (by rfl))
    | (simp only [Kept.mk_iff]; with_reducible apply KeptC.of)
    | (with_reducible exact Or.inr rfl)
    | (with_reducible exact Or.inr ⟨rfl, rfl⟩)
    | (exact Or.inl (Sub.mem ‹_› (by rfl)))
    | (with_reducible rfl)
    | (intro _)
    | split
    | (dsimp only)

theorem State.sendFrame_kept {P : List Part} {u s : State} (hk : Kept P u s) (d : Nat) (r : Route) (t₁ : Nat) (hP : Sub [.media] P := by exact Sub.of ‹_› (by rfl)) : Kept P u (State.sendFrame s d r t₁) := by
  unfold State.sendFrame
  repeat' first
    | (with_reducible assumption)
    | (with_reducible apply State.setTx_kept)
    | (with_reducible apply State.sendAnc_kept)
    | (exact Sub.of ‹_› (by rfl))
    | (simp only [Kept.mk_iff]; with_reducible apply KeptC.of)
    | (with_reducible exact Or.inr rfl)
    | (with_reducible exact Or.inr ⟨rfl, rfl⟩)
    | (exact Or.inl (Sub.mem ‹_› (by rfl)))
    | (with_reducible rfl)
    | (intro _)
    | split
    | (dsimp only)

theorem State.hostDest_kept {P : List Part} {u s : State} (hk : Kept P u s) (d : Nat) (host : Option HostFmt) (hP : Sub [.media] P := by exact Sub.of ‹_› (by rfl)) : Kept P u (State.hostDest s d host) := by
  unfold State.hostDest
  repeat' first
    | (with_reducible assumption)
    | (exact Sub.of ‹_› (by rfl))
    | (simp only [Kept.mk_iff]; with_reducible apply KeptC.of)
    | (with_reducible exact Or.inr rfl)
    | (with_reducible exact Or.inr ⟨rfl, rfl⟩)
    | (exact Or.inl (Sub.mem ‹_› (by rfl)))
    | (with_reducible rfl)
    | split
    | (dsimp only)

end Sys2Proof.Machine
end

