-- ==== Sys2Proof/Laws/KeptFaults.lean ====
section
/-! SUPPORT. The operations of Machine/Faults.lean keep the queue and the canonical forms, and which parts of the state they may change. -/
set_option Elab.async false
namespace Sys2Proof.Machine

theorem State.nextTest_kept' {P : List Part} {u s t : State} {r₀ : FltRec} (hk : Kept P u s) (he₀ : s.nextTest = some (r₀, t)) (hP : Sub [.regs, .vec, .flt] P := by exact Sub.of ‹_› (by rfl)) : Kept P u t := by
  unfold State.nextTest at he₀
  split at he₀
  · simp only [Option.some.injEq, Prod.mk.injEq] at he₀; exact he₀.2 ▸ hk
  · split at he₀
    · exact absurd he₀ (by simp)
    · split at he₀
      · exact absurd he₀ (by simp)
      · rename_i n x _ _
        have h1 := State.makeRec_kept hk n x.src 1
        extract_lets v at he₀
        have h2 : Kept P u v := h1
        clear_value v
        cases hr : v.recOf n 1 with
        | none => rw [hr] at he₀; exact absurd he₀ (by simp)
        | some q => rw [hr] at he₀; simp only [Option.map_some, Option.some.injEq, Prod.mk.injEq] at he₀; exact he₀.2 ▸ h2

theorem State.fltAckWrite_kept {P : List Part} {u s : State} (hk : Kept P u s) (v : Nat) (hP : Sub [.flt] P := by exact Sub.of ‹_› (by rfl)) : Kept P u (State.fltAckWrite s v) := by
  unfold State.fltAckWrite
  repeat' first
    | (with_reducible assumption)
    | (exact Sub.of ‹_› (by rfl))
    | (simp only [Kept.mk_iff]; with_reducible apply KeptC.of)
    | (with_reducible exact Or.inr rfl)
    | (with_reducible exact Or.inr ⟨rfl, rfl⟩)
    | (exact Or.inl (Sub.mem ‹_› (by rfl)))
    | (with_reducible rfl)
    | (intro _)
    | split
    | (dsimp only)

theorem State.fltUnfenceWrite_kept {P : List Part} {u s : State} (hk : Kept P u s) (v : Nat) (t₁ : Nat) (hP : Sub [.regs, .free, .vec, .flt] P := by exact Sub.of ‹_› (by rfl)) : Kept P u (State.fltUnfenceWrite s v t₁) := by
  unfold State.fltUnfenceWrite
  repeat' first
    | (with_reducible assumption)
    | (with_reducible apply State.at__kept)
    | (with_reducible apply State.draw_kept)
    | (refine State.draw_kept' ?_ (by with_reducible assumption))
    | (with_reducible apply State.raise_kept)
    | (with_reducible apply State.queueRec_kept)
    | (exact Sub.of ‹_› (by rfl))
    | split
    | (dsimp only)

end Sys2Proof.Machine
end

