-- ==== Sys2Proof/Laws/KeptLv.lean ====
section
/-! SUPPORT. The operations of Machine/Lv.lean keep the queue and the canonical forms, and which parts of the state they may change. -/
set_option Elab.async false
namespace Sys2Proof.Machine

theorem State.lvReadIrq_kept {P : List Part} {u s : State} (hk : Kept P u s)  (hP : Sub [.lv] P := by exact Sub.of ‹_› (by rfl)) : Kept P u (State.lvReadIrq s) := by
  unfold State.lvReadIrq
  repeat' first
    | (with_reducible assumption)
    | (exact Sub.of ‹_› (by rfl))
    | (simp only [Kept.mk_iff]; with_reducible apply KeptC.of)
    | (with_reducible exact Or.inr rfl)
    | (with_reducible exact Or.inr ⟨rfl, rfl⟩)
    | (exact Or.inl (Sub.mem ‹_› (by rfl)))
    | (with_reducible rfl)
    | (dsimp only)

theorem State.moveWin_kept {P : List Part} {u s : State} (hk : Kept P u s) (rx : Nat) (tx : Nat) (q : Nat) (t₁ : Nat) (hP : Sub [.regs, .media, .aud, .vec, .lv] P := by exact Sub.of ‹_› (by rfl)) : Kept P u (State.moveWin s rx tx q t₁) := by
  unfold State.moveWin
  repeat' first
    | (with_reducible assumption)
    | (with_reducible apply State.lvHold_kept)
    | (with_reducible apply State.lvFollow_kept)
    | (exact Sub.of ‹_› (by rfl))
    | (simp only [Kept.mk_iff]; with_reducible apply KeptC.of)
    | (with_reducible exact Or.inr rfl)
    | (with_reducible exact Or.inr ⟨rfl, rfl⟩)
    | (exact Or.inl (Sub.mem ‹_› (by rfl)))
    | (with_reducible rfl)
    | (dsimp only)

theorem State.lvpWinWrite_kept {P : List Part} {u s : State} (hk : Kept P u s) (v : Nat) (t₁ : Nat) (hP : Sub [.regs, .media, .aud, .host, .vec, .lv, .axl, .mate] P := by exact Sub.of ‹_› (by rfl)) : Kept P u (State.lvpWinWrite s v t₁) := by
  unfold State.lvpWinWrite
  repeat' first
    | (with_reducible assumption)
    | (with_reducible apply State.set_kept)
    | (with_reducible apply State.at__kept)
    | (with_reducible apply State.raise_kept)
    | (with_reducible apply State.afterWrite_kept)
    | (with_reducible apply State.moveWin_kept)
    | (exact Sub.of ‹_› (by rfl))
    | split
    | (dsimp only)

end Sys2Proof.Machine
end

