-- ==== Sys2Proof/Laws/KeptCtxOps.lean ====
section
/-! SUPPORT. The operations of Machine/CtxOps.lean keep the queue and the canonical forms, and which parts of the state they may change. -/
set_option Elab.async false
namespace Sys2Proof.Machine

theorem State.copyHist_kept {P : List Part} {u s : State} (hk : Kept P u s) (c : Nat) (h : Nat) (hP : Sub [.fst, .fstMem, .che] P := by exact Sub.of ‹_› (by rfl)) : Kept P u (State.copyHist s c h) := by
  unfold State.copyHist
  repeat' first
    | (with_reducible assumption)
    | (with_reducible apply State.setCtx_kept)
    | (with_reducible apply State.asReader_kept)
    | (with_reducible apply State.storeLines_kept)
    | (exact Sub.of ‹_› (by rfl))
    | (intro _)
    | split
    | (dsimp only)

theorem State.estimate_kept {P : List Part} {u s : State} (hk : Kept P u s) (c : Nat) (hP : Sub [.regs, .fst, .che, .vec] P := by exact Sub.of ‹_› (by rfl)) : Kept P u (State.estimate s c) := by
  unfold State.estimate
  repeat' first
    | (with_reducible assumption)
    | (with_reducible apply State.raise_kept)
    | (with_reducible apply State.setCtx_kept)
    | (with_reducible apply State.asReader_kept)
    | (exact Sub.of ‹_› (by rfl))
    | split
    | (dsimp only)

theorem State.cadence_kept {P : List Part} {u s : State} (hk : Kept P u s) (c : Nat) (h : Nat) (hP : Sub [.fst, .che] P := by exact Sub.of ‹_› (by rfl)) : Kept P u (State.cadence s c h) := by
  unfold State.cadence
  repeat' first
    | (with_reducible assumption)
    | (with_reducible apply State.setCtx_kept)
    | (with_reducible apply State.asReader_kept)
    | (exact Sub.of ‹_› (by rfl))
    | (intro _)
    | split
    | (dsimp only)

theorem State.keepHist_kept {P : List Part} {u s : State} (hk : Kept P u s) (c : Nat) (hP : Sub [.fst, .fstMem, .che] P := by exact Sub.of ‹_› (by rfl)) : Kept P u (State.keepHist s c) := by
  unfold State.keepHist
  repeat' first
    | (with_reducible assumption)
    | (with_reducible apply State.copyHist_kept)
    | (with_reducible apply State.cadence_kept)
    | (with_reducible refine Kept.foldl ?_ ?_)
    | (exact Sub.of ‹_› (by rfl))
    | (intro _)
    | split
    | (dsimp only)

end Sys2Proof.Machine
end

