-- ==== Sys2Proof/Laws/KeptFrameStore.lean ====
section
/-! SUPPORT. The operations of Machine/FrameStore.lean keep the queue and the canonical forms, and which parts of the state they may change. -/
set_option Elab.async false
namespace Sys2Proof.Machine

theorem bufAllocBody_kept {P : List Part} {u s : State} (hk : Kept P u s) (h : Hdr) (depth : Nat) (fmt : Nat) (pix : Nat) (cdesc : Nat) (cw : Nat) (hP : Sub [.regs, .fst, .host, .mate] P := by exact Sub.of ‹_› (by rfl)) : (bufAllocBody h depth fmt pix cdesc cw s).Kept P u := by
  unfold bufAllocBody
  repeat' first
    | (with_reducible assumption)
    | (with_reducible exact True.intro)
    | (with_reducible exact Adm.kept_bad ..)
    | (with_reducible exact Adm.kept_badData ..)
    | (with_reducible exact Adm.kept_short ..)
    | (with_reducible exact Adm.kept_denied ..)
    | (with_reducible exact Adm.kept_no ..)
    | (with_reducible exact Adm.kept_wait ..)
    | (with_reducible apply Adm.kept_late)
    | (with_reducible apply Adm.kept_deny)
    | (with_reducible apply Adm.kept_yes)
    | (with_reducible apply State.setCw_kept)
    | (with_reducible apply State.ok_kept)
    | (refine State.allocRing_kept' ?_ (by with_reducible assumption))
    | (with_reducible refine Adm.ite (fun _ => ?_) fun _ => ?_)
    | (exact Sub.of ‹_› (by rfl))
    | split
    | (dsimp only)

theorem bufFreeBody_kept {P : List Part} {u s : State} (hk : Kept P u s) (h : Hdr) (ring : Nat) (hP : Sub [.regs, .fst, .host, .mate] P := by exact Sub.of ‹_› (by rfl)) : (bufFreeBody h ring s).Kept P u := by
  unfold bufFreeBody
  repeat' first
    | (with_reducible assumption)
    | (with_reducible exact True.intro)
    | (with_reducible exact Adm.kept_bad ..)
    | (with_reducible exact Adm.kept_badData ..)
    | (with_reducible exact Adm.kept_short ..)
    | (with_reducible exact Adm.kept_denied ..)
    | (with_reducible exact Adm.kept_no ..)
    | (with_reducible exact Adm.kept_wait ..)
    | (with_reducible apply Adm.kept_late)
    | (with_reducible apply Adm.kept_deny)
    | (with_reducible apply Adm.kept_yes)
    | (with_reducible apply State.done_kept)
    | (with_reducible apply State.freeRing_kept)
    | (refine State.freeRing_kept' ?_ (by with_reducible assumption))
    | (with_reducible refine Adm.ite (fun _ => ?_) fun _ => ?_)
    | (exact Sub.of ‹_› (by rfl))
    | (intro _)
    | split
    | (dsimp only)

theorem State.dmaWrite_kept {P : List Part} {u s : State} (hk : Kept P u s) (h : Hdr) (b : BufReq) (r : Nat) (g : Ring) (f : Fmt) (d : List Byte) (hP : Sub [.regs, .fst, .fstMem, .sou] P := by exact Sub.of ‹_› (by rfl)) : Kept P u (State.dmaWrite s h b r g f d) := by
  unfold State.dmaWrite
  repeat' first
    | (with_reducible assumption)
    | (with_reducible apply State.completeBuf_kept)
    | (with_reducible apply State.beginWrite_kept)
    | (with_reducible apply State.bufStore_kept)
    | (with_reducible refine Kept.foldl ?_ ?_)
    | (exact Sub.of ‹_› (by rfl))
    | (simp only [Kept.mk_iff]; with_reducible apply KeptC.of)
    | (with_reducible exact Or.inr rfl)
    | (with_reducible exact Or.inr ⟨rfl, rfl⟩)
    | (exact Or.inl (Sub.mem ‹_› (by rfl)))
    | (with_reducible rfl)
    | (intro _)
    | split
    | (dsimp only)

theorem bufWriteBody_kept {P : List Part} {u s : State} (hk : Kept P u s) (h : Hdr) (b : BufReq) (data : Option (List Byte)) (hP : Sub [.regs, .fst, .fstMem, .sou, .host, .mate] P := by exact Sub.of ‹_› (by rfl)) : (bufWriteBody h b data s).Kept P u := by
  unfold bufWriteBody
  repeat' first
    | (with_reducible assumption)
    | (with_reducible exact True.intro)
    | (with_reducible exact Adm.kept_bad ..)
    | (with_reducible exact Adm.kept_badData ..)
    | (with_reducible exact Adm.kept_short ..)
    | (with_reducible exact Adm.kept_denied ..)
    | (with_reducible exact Adm.kept_no ..)
    | (with_reducible exact Adm.kept_wait ..)
    | (with_reducible apply Adm.kept_late)
    | (with_reducible apply Adm.kept_deny)
    | (with_reducible apply Adm.kept_yes)
    | (with_reducible apply State.done_kept)
    | (with_reducible apply State.ok_kept)
    | (with_reducible apply State.dmaWrite_kept)
    | (with_reducible refine Adm.ite (fun _ => ?_) fun _ => ?_)
    | (exact Sub.of ‹_› (by rfl))
    | split
    | (dsimp only)

theorem bufReadBody_kept {P : List Part} {u s : State} (hk : Kept P u s) (h : Hdr) (b : BufReq) (newest : Bool) (info : Bool) (writeOk : Bool) (hP : Sub [.regs, .fst, .host, .hostMem, .mate] P := by exact Sub.of ‹_› (by rfl)) : (bufReadBody h b newest info writeOk s).Kept P u := by
  unfold bufReadBody
  repeat' first
    | (with_reducible assumption)
    | (with_reducible exact True.intro)
    | (with_reducible exact Adm.kept_bad ..)
    | (with_reducible exact Adm.kept_badData ..)
    | (with_reducible exact Adm.kept_short ..)
    | (with_reducible exact Adm.kept_denied ..)
    | (with_reducible exact Adm.kept_no ..)
    | (with_reducible exact Adm.kept_wait ..)
    | (with_reducible apply Adm.kept_late)
    | (with_reducible apply Adm.kept_deny)
    | (with_reducible apply Adm.kept_yes)
    | (with_reducible apply State.hostWrite_kept)
    | (with_reducible apply State.done_kept)
    | (with_reducible apply State.ok_kept)
    | (with_reducible apply State.addReader_kept)
    | (with_reducible apply State.asReader_kept)
    | (with_reducible apply State.readDone_kept)
    | (with_reducible refine Kept.foldl ?_ ?_)
    | (with_reducible refine Adm.ite (fun _ => ?_) fun _ => ?_)
    | (exact Sub.of ‹_› (by rfl))
    | (intro _)
    | split
    | (dsimp only)

theorem State.cwBegin_kept {P : List Part} {u s : State} (hk : Kept P u s) (k : Nat) (coming : Pic) (t₁ : Nat) (hP : Sub [.regs, .fst] P := by exact Sub.of ‹_› (by rfl)) : Kept P u (State.cwBegin s k coming t₁) := by
  unfold State.cwBegin
  repeat' first
    | (with_reducible assumption)
    | (with_reducible apply State.inc_kept)
    | (with_reducible apply State.setCw_kept)
    | (with_reducible apply State.beginWrite_kept)
    | (exact Sub.of ‹_› (by rfl))
    | split
    | (dsimp only)

theorem State.corrected_kept {P : List Part} {u s : State} (hk : Kept P u s) (g : Nat) (t₁ : Nat) (hP : Sub [.regs, .media, .xpt, .fst, .fstMem, .che, .sou, .aud, .vec, .syn, .flt, .hsf] P := by exact Sub.of ‹_› (by rfl)) : Kept P u (State.corrected s g t₁) := by
  unfold State.corrected
  repeat' first
    | (with_reducible assumption)
    | (with_reducible apply State.inc_kept)
    | (with_reducible apply State.raise_kept)
    | (with_reducible apply State.reportError_kept)
    | (exact Sub.of ‹_› (by rfl))
    | (simp only [Kept.mk_iff]; with_reducible apply KeptC.of)
    | (with_reducible exact Or.inr rfl)
    | (with_reducible exact Or.inr ⟨rfl, rfl⟩)
    | (exact Or.inl (Sub.mem ‹_› (by rfl)))
    | (with_reducible rfl)
    | (intro _)
    | split
    | (dsimp only)

end Sys2Proof.Machine
end

