-- ==== Sys2Proof/Laws/KeptChameleon.lean ====
section
/-! SUPPORT. The operations of Machine/Chameleon.lean keep the queue and the canonical forms, and which parts of the state they may change. -/
set_option Elab.async false
namespace Sys2Proof.Machine

theorem ctxSettle_kept {P : List Part} {u s : State} {b : Build} (hb : Kept P u b.s) (h : Hdr) (spec : CtxSpec) (cd c r : Nat) (hP : Sub [.regs, .fst, .host, .mate] P := by exact Sub.of ‹_› (by rfl)) :
    (ctxSettle h spec cd s c r b).Kept P u := by
  unfold ctxSettle
  exact Adm.ite (fun _ => Adm.kept_denied u _) fun _ =>
    Build.settle_kept (Adm.kept_yes (State.ok_kept (State.setDesc_kept hb _ _) _ _))

theorem ctxAdmitBody_kept {P : List Part} {u s : State} (hk : Kept P u s) (h : Hdr) (ring engine offset : Nat) (v : ConvSet) (hP : Sub [.regs, .fst, .che, .host, .mate] P := by exact Sub.of ‹_› (by rfl)) :
    (ctxAdmitBody h ring engine offset v s).Kept P u := by
  unfold ctxAdmitBody
  generalize s.ring ring = g
  cases g with
  | none => exact Adm.kept_bad u _
  | some g =>
  refine Adm.ite (fun _ => Adm.kept_bad u _) fun _ => Adm.ite (fun _ => Adm.kept_bad u _) fun _ => ?_
  generalize s.convSpec g.fmt g.pix g.cdesc v offset = c
  cases c with
  | error e => exact Adm.kept_no u _ _
  | ok spec =>
    exact ctxSettle_kept (Build.ctx_kept hk _) h spec _ _ _

theorem State.paramBuild_kept {P : List Part} {u s : State} (hk : Kept P u s) (c : Nat) (x : Ctx) (p : CtxPar) (luts : List (Nat × List Nat)) (run park : Bool) (hP : Sub [.fst, .che] P := by exact Sub.of ‹_› (by rfl)) : Kept P u (s.paramBuild c x p luts run park).s := by
  unfold State.paramBuild
  dsimp only
  split
  · exact hk
  · next he => exact State.loadLuts_kept (State.setCtx_kept (Kept.foldl (State.allocStore_kept' hk he) fun v y hv => State.addReader_kept hv _ _) _ _) _ _

theorem Build.settleMore_kept {P : List Part} {u s : State} {b : Build} {k : State → Adm} (hk : (k b.s).Kept P u) (hP : Sub [] P := by exact Sub.of ‹_› (by rfl)) :
    (Build.settleMore s b k).Kept P u := by
  unfold Build.settleMore
  exact Adm.ite (fun _ => hk) fun _ => Build.settle_kept hk

theorem ctxParamBody_kept {P : List Part} {u s : State} (hk : Kept P u s) (h : Hdr) (c : Nat) (mask : Nat) (offset : Nat) (v : ConvSet) (hP : Sub [.regs, .fst, .che, .host, .mate] P := by exact Sub.of ‹_› (by rfl)) : (ctxParamBody h c mask offset v s).Kept P u := by
  unfold ctxParamBody
  repeat' first
    | (with_reducible assumption)
    | (with_reducible exact True.intro)
    | (with_reducible exact Adm.kept_bad ..)
    | (with_reducible exact Adm.kept_badData ..)
    | (with_reducible exact Adm.kept_short ..)
    | (with_reducible exact Adm.kept_denied ..)
    | (with_reducible exact Adm.kept_no ..)
    | (with_reducible exact Adm.kept_wait ..)
    | (with_reducible apply Adm.kept_late)
    | (with_reducible apply Adm.kept_deny)
    | (with_reducible apply Adm.kept_yes)
    | (with_reducible apply State.ok_kept)
    | (with_reducible apply State.paramBuild_kept)
    | (with_reducible apply Build.settleMore_kept)
    | (with_reducible refine Adm.ite (fun _ => ?_) fun _ => ?_)
    | (exact Sub.of ‹_› (by rfl))
    | (intro _)
    | split
    | (dsimp only)

theorem ctxReleaseBody_kept {P : List Part} {u s : State} (hk : Kept P u s) (h : Hdr) (unit : Bool) (n : Nat) (hP : Sub [.regs, .xpt, .fst, .che, .sou, .aud, .host, .mate] P := by exact Sub.of ‹_› (by rfl)) : (ctxReleaseBody h unit n s).Kept P u := by
  unfold ctxReleaseBody
  repeat' first
    | (with_reducible assumption)
    | (with_reducible exact True.intro)
    | (with_reducible exact Adm.kept_bad ..)
    | (with_reducible exact Adm.kept_badData ..)
    | (with_reducible exact Adm.kept_short ..)
    | (with_reducible exact Adm.kept_denied ..)
    | (with_reducible exact Adm.kept_no ..)
    | (with_reducible exact Adm.kept_wait ..)
    | (with_reducible apply Adm.kept_late)
    | (with_reducible apply Adm.kept_deny)
    | (with_reducible apply Adm.kept_yes)
    | (with_reducible apply State.ok_kept)
    | (with_reducible apply State.releaseCtx_kept)
    | (with_reducible apply State.releaseChain_kept)
    | (with_reducible refine Adm.ite (fun _ => ?_) fun _ => ?_)
    | (exact Sub.of ‹_› (by rfl))
    | split
    | (dsimp only)

theorem State.applyParam_kept {P : List Part} {u s : State} (hk : Kept P u s) (c : Nat) (hP : Sub [.fst, .che] P := by exact Sub.of ‹_› (by rfl)) : Kept P u (State.applyParam s c) := by
  unfold State.applyParam
  repeat' first
    | (with_reducible assumption)
    | (with_reducible apply State.setCtx_kept)
    | (with_reducible apply State.freeBuf_kept)
    | (with_reducible apply State.dropReader_kept)
    | (with_reducible refine Kept.foldl ?_ ?_)
    | (exact Sub.of ‹_› (by rfl))
    | (intro _)
    | split
    | (dsimp only)

theorem State.endFrame_kept {P : List Part} {u s : State} (hk : Kept P u s) (c : Nat) (hP : Sub [.fst, .fstMem, .che, .sou] P := by exact Sub.of ‹_› (by rfl)) : Kept P u (State.endFrame s c) := by
  unfold State.endFrame
  repeat' first
    | (with_reducible assumption)
    | (with_reducible apply State.setCtx_kept)
    | (with_reducible apply State.completeBuf_kept)
    | (with_reducible apply State.readDone_kept)
    | (with_reducible apply State.letGo_kept)
    | (with_reducible apply State.keepHist_kept)
    | (exact Sub.of ‹_› (by rfl))
    | split
    | (dsimp only)

theorem State.beginFrame_kept {P : List Part} {u s : State} (hk : Kept P u s) (c : Nat) (t₁ : Nat) (hP : Sub [.regs, .fst, .che, .vec] P := by exact Sub.of ‹_› (by rfl)) : Kept P u (State.beginFrame s c t₁) := by
  unfold State.beginFrame
  repeat' first
    | (with_reducible assumption)
    | (with_reducible apply State.setCtx_kept)
    | (with_reducible apply State.addReader_kept)
    | (with_reducible apply State.beginWrite_kept)
    | (with_reducible apply State.estimate_kept)
    | (exact Sub.of ‹_› (by rfl))
    | split
    | (dsimp only)

theorem State.endAbandoned_kept {P : List Part} {u s : State} (hk : Kept P u s) (e : Nat) (t₁ : Nat) (hP : Sub [.fst, .fstMem, .che, .sou] P := by exact Sub.of ‹_› (by rfl)) : Kept P u (State.endAbandoned s e t₁) := by
  unfold State.endAbandoned
  repeat' first
    | (with_reducible assumption)
    | (with_reducible apply State.endFrame_kept)
    | (with_reducible refine Kept.foldl ?_ ?_)
    | (exact Sub.of ‹_› (by rfl))
    | (intro _)
    | split
    | (dsimp only)

theorem State.sliceDone_kept {P : List Part} {u s : State} (hk : Kept P u s) (c : Nat) (k : Nat) (x : Ctx) (f : Fmt) (hP : Sub [.fst, .fstMem, .che, .sou] P := by exact Sub.of ‹_› (by rfl)) : Kept P u (State.sliceDone s c k x f) := by
  unfold State.sliceDone
  repeat' first
    | (with_reducible assumption)
    | (with_reducible apply State.setCtx_kept)
    | (with_reducible apply State.bufStore_kept)
    | (with_reducible apply State.asReader_kept)
    | (with_reducible apply State.endFrame_kept)
    | (with_reducible refine Kept.foldl ?_ ?_)
    | (exact Sub.of ‹_› (by rfl))
    | (intro _)
    | split
    | (dsimp only)

theorem State.linesGone_kept {P : List Part} {u s : State} (hk : Kept P u s) (c : Nat) (gone : Nat × Nat) (hP : Sub [.regs, .fst, .sou, .vec] P := by exact Sub.of ‹_› (by rfl)) : Kept P u (State.linesGone s c gone) := by
  unfold State.linesGone
  repeat' first
    | (with_reducible assumption)
    | (with_reducible apply State.setBuf_kept)
    | (with_reducible apply State.unitUnderrun_kept)
    | (with_reducible refine Kept.foldl ?_ ?_)
    | (exact Sub.of ‹_› (by rfl))
    | (intro _)
    | split
    | (dsimp only)

end Sys2Proof.Machine
end

