-- ==== Sys2Proof/Laws/KeptHost.lean ====
section
/-! SUPPORT. The operations of Machine/Host.lean keep the queue and the canonical forms, and which parts of the state they may change. -/
set_option Elab.async false
namespace Sys2Proof.Machine

theorem State.ringEnable_kept {P : List Part} {u s : State} (hk : Kept P u s) (n : Fin 64) (hP : Sub [.regs, .host, .vec, .hostMem, .sec] P := by exact Sub.of ‹_› (by rfl)) : Kept P u (State.ringEnable s n) := by
  unfold State.ringEnable
  repeat' first
    | (with_reducible assumption)
    | (with_reducible apply State.set_kept)
    | (with_reducible apply State.cfgErr_kept)
    | (with_reducible apply State.startRing_kept)
    | (exact Sub.of ‹_› (by rfl))
    | (intro _)
    | split
    | (dsimp only)

theorem State.ringDisable_kept {P : List Part} {u s : State} (hk : Kept P u s) (n : Fin 64) (hP : Sub [.regs] P := by exact Sub.of ‹_› (by rfl)) : Kept P u (State.ringDisable s n) := by
  unfold State.ringDisable
  repeat' first
    | (with_reducible assumption)
    | (with_reducible apply State.set_kept)
    | (with_reducible apply State.setRingSt_kept)
    | (exact Sub.of ‹_› (by rfl))
    | split
    | (dsimp only)

theorem State.ringAbandon_kept {P : List Part} {u s : State} (hk : Kept P u s) (n : Fin 64) (hP : Sub [.regs, .xpt, .fst, .che, .sou, .aud, .host, .vec, .hostMem, .sec] P := by exact Sub.of ‹_› (by rfl)) : Kept P u (State.ringAbandon s n) := by
  unfold State.ringAbandon
  repeat' first
    | (with_reducible assumption)
    | (with_reducible apply State.abandon_kept)
    | (exact Sub.of ‹_› (by rfl))
    | split
    | (dsimp only)

theorem queryBody_kept {P : List Part} {u s : State} (hk : Kept P u s) (h : Hdr) (q : QueryReq) (lo : Nat) (hi : Nat) (rcd : State → Nat → Nat → List Byte) (hP : Sub [.regs, .host, .hostMem, .mate] P := by exact Sub.of ‹_› (by rfl)) : (queryBody h q lo hi rcd s).Kept P u := by
  unfold queryBody
  repeat' first
    | (with_reducible assumption)
    | (with_reducible exact True.intro)
    | (with_reducible exact Adm.kept_bad ..)
    | (with_reducible exact Adm.kept_badData ..)
    | (with_reducible exact Adm.kept_short ..)
    | (with_reducible exact Adm.kept_denied ..)
    | (with_reducible exact Adm.kept_no ..)
    | (with_reducible exact Adm.kept_wait ..)
    | (with_reducible apply Adm.kept_late)
    | (with_reducible apply Adm.kept_deny)
    | (with_reducible apply Adm.kept_yes)
    | (with_reducible apply State.hostWrite_kept)
    | (with_reducible apply State.done_kept)
    | (with_reducible apply State.ok_kept)
    | (with_reducible refine Adm.ite (fun _ => ?_) fun _ => ?_)
    | (exact Sub.of ‹_› (by rfl))
    | (intro _)
    | split
    | (dsimp only)

theorem State.openFlow_kept {P : List Part} {u s : State} (hk : Kept P u s) (rx : Bool) (key : Nat) (r : FlowRec) (path : List Nat) (hP : Sub [.media, .fst] P := by exact Sub.of ‹_› (by rfl)) : Kept P u (State.openFlow s rx key r path) := by
  unfold State.openFlow
  repeat' first
    | (with_reducible assumption)
    | (exact Sub.of ‹_› (by rfl))
    | (simp only [Kept.mk_iff]; with_reducible apply KeptC.of)
    | (with_reducible exact Or.inr rfl)
    | (with_reducible exact Or.inr ⟨rfl, rfl⟩)
    | (exact Or.inl (Sub.mem ‹_› (by rfl)))
    | (with_reducible rfl)
    | (intro _)
    | split
    | (dsimp only)

theorem State.closeFlow_kept {P : List Part} {u s : State} (hk : Kept P u s) (rx : Bool) (key : Nat) (f : Flow) (hP : Sub [.regs, .media, .xpt, .fst, .aud] P := by exact Sub.of ‹_› (by rfl)) : Kept P u (State.closeFlow s rx key f) := by
  unfold State.closeFlow
  repeat' first
    | (with_reducible assumption)
    | (with_reducible apply State.clkLost_kept)
    | (with_reducible apply State.sourceLost_kept)
    | (exact Sub.of ‹_› (by rfl))
    | (simp only [Kept.mk_iff]; with_reducible apply KeptC.of)
    | (with_reducible exact Or.inr rfl)
    | (with_reducible exact Or.inr ⟨rfl, rfl⟩)
    | (exact Or.inl (Sub.mem ‹_› (by rfl)))
    | (with_reducible rfl)
    | (intro _)
    | split
    | (dsimp only)

theorem flowBody_kept {P : List Part} {u s : State} (hk : Kept P u s) (rx : Bool) (h : Hdr) (r : FlowReq) (hP : Sub [.regs, .media, .xpt, .fst, .aud, .host, .mate] P := by exact Sub.of ‹_› (by rfl)) : (flowBody rx h r s).Kept P u := by
  unfold flowBody
  repeat' first
    | (with_reducible assumption)
    | (with_reducible exact True.intro)
    | (with_reducible exact Adm.kept_bad ..)
    | (with_reducible exact Adm.kept_badData ..)
    | (with_reducible exact Adm.kept_short ..)
    | (with_reducible exact Adm.kept_denied ..)
    | (with_reducible exact Adm.kept_no ..)
    | (with_reducible exact Adm.kept_wait ..)
    | (with_reducible apply Adm.kept_late)
    | (with_reducible apply Adm.kept_deny)
    | (with_reducible apply Adm.kept_yes)
    | (with_reducible apply State.ok_kept)
    | (with_reducible apply admitFit_kept)
    | (with_reducible apply State.openFlow_kept)
    | (with_reducible apply State.closeFlow_kept)
    | (with_reducible refine Adm.ite (fun _ => ?_) fun _ => ?_)
    | (exact Sub.of ‹_› (by rfl))
    | (intro _)
    | split
    | (dsimp only)

theorem State.putSlots_kept {P : List Part} {u s : State} (hk : Kept P u s) (first : Nat) (count : Nat) (data : List Byte) (hP : Sub [.regs, .axl] P := by exact Sub.of ‹_› (by rfl)) : Kept P u (State.putSlots s first count data) := by
  unfold State.putSlots
  repeat' first
    | (with_reducible assumption)
    | (with_reducible apply State.dirty_kept)
    | (with_reducible refine Kept.foldl ?_ ?_)
    | (exact Sub.of ‹_› (by rfl))
    | (simp only [Kept.mk_iff]; with_reducible apply KeptC.of_mem)
    | (with_reducible exact Or.inr rfl)
    | (with_reducible exact Or.inr ⟨rfl, rfl⟩)
    | (exact Or.inl (Sub.mem ‹_› (by rfl)))
    | (with_reducible rfl)
    | (with_reducible exact id)
    | (with_reducible exact memWrites_wf _ _ _)
    | (with_reducible exact memWrite_wf _ _ _)
    | (exact foldWrite_wf _ _ _ _)
    | (exact foldSkip_wf _ _ _ _ _ ‹_›)
    | (exact foldWrite_wf _ _ _ _ (tabWf_filter _ _ _ ‹_›))
    | (intro _)
    | (dsimp only)

theorem persistPutBody_kept {P : List Part} {u s : State} (hk : Kept P u s) (h : Hdr) (first : Nat) (count : Nat) (host : Nat) (data : Option (List Byte)) (hP : Sub [.regs, .host, .axl, .mate] P := by exact Sub.of ‹_› (by rfl)) : (persistPutBody h first count host data s).Kept P u := by
  unfold persistPutBody
  repeat' first
    | (with_reducible assumption)
    | (with_reducible exact True.intro)
    | (with_reducible exact Adm.kept_bad ..)
    | (with_reducible exact Adm.kept_badData ..)
    | (with_reducible exact Adm.kept_short ..)
    | (with_reducible exact Adm.kept_denied ..)
    | (with_reducible exact Adm.kept_no ..)
    | (with_reducible exact Adm.kept_wait ..)
    | (with_reducible apply Adm.kept_late)
    | (with_reducible apply Adm.kept_deny)
    | (with_reducible apply Adm.kept_yes)
    | (with_reducible apply State.done_kept)
    | (with_reducible apply State.ok_kept)
    | (with_reducible apply State.putSlots_kept)
    | (with_reducible refine Adm.ite (fun _ => ?_) fun _ => ?_)
    | (exact Sub.of ‹_› (by rfl))
    | split
    | (dsimp only)

theorem persistStoreBody_kept {P : List Part} {u s : State} (hk : Kept P u s) (h : Hdr) (fail : List Nat) (hP : Sub [.regs, .media, .xpt, .fst, .fstMem, .che, .sou, .aud, .host, .vec, .syn, .flt, .axl, .hsf, .mate] P := by exact Sub.of ‹_› (by rfl)) : (persistStoreBody h fail s).Kept P u := by
  unfold persistStoreBody
  repeat' first
    | (with_reducible assumption)
    | (with_reducible exact True.intro)
    | (with_reducible exact Adm.kept_bad ..)
    | (with_reducible exact Adm.kept_badData ..)
    | (with_reducible exact Adm.kept_short ..)
    | (with_reducible exact Adm.kept_denied ..)
    | (with_reducible exact Adm.kept_no ..)
    | (with_reducible exact Adm.kept_wait ..)
    | (with_reducible apply Adm.kept_late)
    | (with_reducible apply Adm.kept_deny)
    | (with_reducible apply Adm.kept_yes)
    | (with_reducible apply State.done_kept)
    | (with_reducible apply State.ok_kept)
    | (with_reducible apply State.storeRec_kept)
    | (with_reducible refine Kept.foldl ?_ ?_)
    | (with_reducible refine Adm.ite (fun _ => ?_) fun _ => ?_)
    | (exact Sub.of ‹_› (by rfl))
    | (intro _)
    | split
    | (dsimp only)

end Sys2Proof.Machine
end

