-- ==== Sys2Proof/Laws/KeptScanOut.lean ====
section
/-! SUPPORT. The operations of Machine/ScanOut.lean keep the queue and the canonical forms, and which parts of the state they may change. -/
set_option Elab.async false
namespace Sys2Proof.Machine

theorem freeUnitBody_kept {P : List Part} {u s : State} (hk : Kept P u s) (h : Hdr) (u₁ : Nat) (hP : Sub [.regs, .fst, .sou, .host, .vec, .mate] P := by exact Sub.of ‹_› (by rfl)) : (freeUnitBody h u₁ s).Kept P u := by
  unfold freeUnitBody
  repeat' first
    | (with_reducible assumption)
    | (with_reducible exact True.intro)
    | (with_reducible exact Adm.kept_bad ..)
    | (with_reducible exact Adm.kept_badData ..)
    | (with_reducible exact Adm.kept_short ..)
    | (with_reducible exact Adm.kept_denied ..)
    | (with_reducible exact Adm.kept_no ..)
    | (with_reducible exact Adm.kept_wait ..)
    | (with_reducible apply Adm.kept_late)
    | (with_reducible apply Adm.kept_deny)
    | (with_reducible apply Adm.kept_yes)
    | (with_reducible apply State.ok_kept)
    | (with_reducible apply State.finish_kept)
    | (with_reducible apply State.freeUnit_kept)
    | (with_reducible refine Kept.foldl ?_ ?_)
    | (with_reducible refine Adm.ite (fun _ => ?_) fun _ => ?_)
    | (exact Sub.of ‹_› (by rfl))
    | (intro _)
    | split
    | (dsimp only)

theorem State.souNone_kept {P : List Part} {u s : State} (hk : Kept P u s) (r : SouReq) (hP : Sub [] P := by exact Sub.of ‹_› (by rfl)) : (State.souNone s r).Kept P u := by
  unfold State.souNone
  repeat' first
    | (with_reducible assumption)
    | (with_reducible exact True.intro)
    | (with_reducible exact Adm.kept_bad ..)
    | (with_reducible exact Adm.kept_badData ..)
    | (with_reducible exact Adm.kept_short ..)
    | (with_reducible exact Adm.kept_denied ..)
    | (with_reducible exact Adm.kept_no ..)
    | (with_reducible exact Adm.kept_wait ..)
    | (with_reducible apply Adm.kept_late)
    | (with_reducible apply Adm.kept_deny)
    | (with_reducible apply Adm.kept_yes)
    | (with_reducible refine Adm.ite (fun _ => ?_) fun _ => ?_)
    | (exact Sub.of ‹_› (by rfl))
    | (intro _)
    | split
    | (dsimp only)

theorem souSetBody_kept {P : List Part} {u s : State} (hk : Kept P u s) (h : Hdr) (u₁ : Nat) (r : SouReq) (hP : Sub [.regs, .free, .sou, .host, .vec, .mate] P := by exact Sub.of ‹_› (by rfl)) : (souSetBody h u₁ r s).Kept P u := by
  unfold souSetBody
  repeat' first
    | (with_reducible assumption)
    | (with_reducible exact True.intro)
    | (with_reducible exact Adm.kept_bad ..)
    | (with_reducible exact Adm.kept_badData ..)
    | (with_reducible exact Adm.kept_short ..)
    | (with_reducible exact Adm.kept_denied ..)
    | (with_reducible exact Adm.kept_no ..)
    | (with_reducible exact Adm.kept_wait ..)
    | (with_reducible apply Adm.kept_late)
    | (with_reducible apply Adm.kept_deny)
    | (with_reducible apply Adm.kept_yes)
    | (with_reducible apply State.ok_kept)
    | (with_reducible apply admitFit_kept)
    | (with_reducible apply State.setPending_kept)
    | (with_reducible apply commitAdm_kept)
    | (with_reducible refine Adm.ite (fun _ => ?_) fun _ => ?_)
    | (exact Sub.of ‹_› (by rfl))
    | (intro _)
    | split
    | (dsimp only)

theorem souCfgBody_kept {P : List Part} {u s : State} (hk : Kept P u s) (h : Hdr) (r : SouReq) (hP : Sub [.regs, .free, .fst, .sou, .host, .vec, .mate] P := by exact Sub.of ‹_› (by rfl)) : (souCfgBody h r s).Kept P u := by
  unfold souCfgBody
  repeat' first
    | (with_reducible assumption)
    | (with_reducible exact True.intro)
    | (with_reducible exact Adm.kept_bad ..)
    | (with_reducible exact Adm.kept_badData ..)
    | (with_reducible exact Adm.kept_short ..)
    | (with_reducible exact Adm.kept_denied ..)
    | (with_reducible exact Adm.kept_no ..)
    | (with_reducible exact Adm.kept_wait ..)
    | (with_reducible apply Adm.kept_late)
    | (with_reducible apply Adm.kept_deny)
    | (with_reducible apply Adm.kept_yes)
    | (with_reducible apply freeUnitBody_kept)
    | (with_reducible apply State.souNone_kept)
    | (with_reducible apply souSetBody_kept)
    | (with_reducible refine Adm.ite (fun _ => ?_) fun _ => ?_)
    | (exact Sub.of ‹_› (by rfl))
    | split
    | (dsimp only)

theorem souCommitBody_kept {P : List Part} {u s : State} (hk : Kept P u s) (h : Hdr) (u₁ : Nat) (hP : Sub [.regs, .free, .host, .vec, .mate] P := by exact Sub.of ‹_› (by rfl)) : (souCommitBody h u₁ s).Kept P u := by
  unfold souCommitBody
  repeat' first
    | (with_reducible assumption)
    | (with_reducible exact True.intro)
    | (with_reducible exact Adm.kept_bad ..)
    | (with_reducible exact Adm.kept_badData ..)
    | (with_reducible exact Adm.kept_short ..)
    | (with_reducible exact Adm.kept_denied ..)
    | (with_reducible exact Adm.kept_no ..)
    | (with_reducible exact Adm.kept_wait ..)
    | (with_reducible apply Adm.kept_late)
    | (with_reducible apply Adm.kept_deny)
    | (with_reducible apply Adm.kept_yes)
    | (with_reducible apply commitAdm_kept)
    | (with_reducible refine Adm.ite (fun _ => ?_) fun _ => ?_)
    | (exact Sub.of ‹_› (by rfl))
    | split
    | (dsimp only)

theorem State.ufmtWrite_kept {P : List Part} {u s : State} (hk : Kept P u s) (m : Nat) (v : Nat) (hP : Sub [.regs, .xpt] P := by exact Sub.of ‹_› (by rfl)) : Kept P u (State.ufmtWrite s m v) := by
  unfold State.ufmtWrite
  repeat' first
    | (with_reducible assumption)
    | (with_reducible apply State.set_kept)
    | (exact Sub.of ‹_› (by rfl))
    | (simp only [Kept.mk_iff]; with_reducible apply KeptC.of)
    | (with_reducible exact Or.inr rfl)
    | (with_reducible exact Or.inr ⟨rfl, rfl⟩)
    | (exact Or.inl (Sub.mem ‹_› (by rfl)))
    | (with_reducible rfl)
    | split
    | (dsimp only)

theorem State.adopt_kept {P : List Part} {u s : State} (hk : Kept P u s) (u₁ : Nat) (x : SouSet) (hP : Sub [.regs, .media, .xpt, .fst, .che, .sou] P := by exact Sub.of ‹_› (by rfl)) : Kept P u (State.adopt s u₁ x) := by
  unfold State.adopt
  repeat' first
    | (with_reducible assumption)
    | (with_reducible apply State.setCtx_kept)
    | (with_reducible apply State.refreshSrc_kept)
    | (with_reducible apply State.cwFormat_kept)
    | (with_reducible apply State.activate_kept)
    | (exact Sub.of ‹_› (by rfl))
    | split
    | (dsimp only)

theorem State.holdRetune_kept {P : List Part} {u s : State} (hk : Kept P u s) (u₁ : Nat) (x : SouSet) (hP : Sub [.regs, .media, .xpt, .sou, .aud, .vec, .syn] P := by exact Sub.of ‹_› (by rfl)) : Kept P u (State.holdRetune s u₁ x) := by
  unfold State.holdRetune
  repeat' first
    | (with_reducible assumption)
    | (with_reducible apply State.setUnit_kept)
    | (with_reducible apply State.refreshSrc_kept)
    | (with_reducible apply State.synRetune_kept)
    | (exact Sub.of ‹_› (by rfl))
    | (intro _)
    | split
    | (dsimp only)

theorem State.applyCommit_kept {P : List Part} {u s : State} (hk : Kept P u s) (u₁ : Nat) (x : SouSet) (tune : Bool) (hP : Sub [.regs, .media, .xpt, .fst, .che, .sou, .aud, .vec, .syn] P := by exact Sub.of ‹_› (by rfl)) : Kept P u (State.applyCommit s u₁ x tune) := by
  unfold State.applyCommit
  repeat' first
    | (with_reducible assumption)
    | (with_reducible apply State.raise_kept)
    | (with_reducible apply State.setUnit_kept)
    | (with_reducible apply State.adopt_kept)
    | (with_reducible apply State.holdRetune_kept)
    | (exact Sub.of ‹_› (by rfl))
    | split
    | (dsimp only)

theorem State.runCommit_kept {P : List Part} {u s : State} (hk : Kept P u s) (u₁ : Nat) (p : Nat × CommitOp) (hP : Sub [.regs, .media, .xpt, .fst, .che, .sou, .aud, .host, .vec, .hostMem, .syn, .sec] P := by exact Sub.of ‹_› (by rfl)) : Kept P u (State.runCommit s u₁ p) := by
  unfold State.runCommit
  repeat' first
    | (with_reducible assumption)
    | (with_reducible apply State.inc_kept)
    | (with_reducible apply State.setUnit_kept)
    | (with_reducible apply State.finish_kept)
    | (with_reducible apply State.log_kept)
    | (with_reducible apply State.applyCommit_kept)
    | (exact Sub.of ‹_› (by rfl))
    | split
    | (dsimp only)

theorem State.keepSent_kept {P : List Part} {u s : State} (hk : Kept P u s) (u₁ : Nat) (c : Nat) (hP : Sub [.sou] P := by exact Sub.of ‹_› (by rfl)) : Kept P u (State.keepSent s u₁ c) := by
  unfold State.keepSent
  repeat' first
    | (with_reducible assumption)
    | (with_reducible apply State.setUnit_kept)
    | (exact Sub.of ‹_› (by rfl))
    | (intro _)
    | split
    | (dsimp only)

theorem State.selectLayers_kept {P : List Part} {u s : State} (hk : Kept P u s) (u₁ : Nat) (hP : Sub [.regs, .fst, .sou, .vec] P := by exact Sub.of ‹_› (by rfl)) : Kept P u (State.selectLayers s u₁) := by
  unfold State.selectLayers
  repeat' first
    | (with_reducible assumption)
    | (with_reducible apply State.inc_kept)
    | (with_reducible apply State.setUnit_kept)
    | (with_reducible apply State.showBuf_kept)
    | (with_reducible apply State.frameLines_kept)
    | (with_reducible refine Kept.foldl ?_ ?_)
    | (exact Sub.of ‹_› (by rfl))
    | (intro _)
    | split
    | (dsimp only)

end Sys2Proof.Machine
end

