-- ==== Sys2Proof/Laws/KeptSecurity.lean ====
section
/-! SUPPORT. The operations of Machine/Security.lean keep the queue and the canonical forms, and which parts of the state they may change. -/
set_option Elab.async false
namespace Sys2Proof.Machine

theorem checkpointBody_kept {P : List Part} {u s : State} (hk : Kept P u s) (h : Hdr) (addr : Nat) (writeOk : Bool) (hP : Sub [.regs, .host, .vec, .hostMem, .sec, .axl, .mate] P := by exact Sub.of ‹_› (by rfl)) : (checkpointBody h addr writeOk s).Kept P u := by
  unfold checkpointBody
  repeat' first
    | (with_reducible assumption)
    | (with_reducible exact True.intro)
    | (with_reducible exact Adm.kept_bad ..)
    | (with_reducible exact Adm.kept_badData ..)
    | (with_reducible exact Adm.kept_short ..)
    | (with_reducible exact Adm.kept_denied ..)
    | (with_reducible exact Adm.kept_no ..)
    | (with_reducible exact Adm.kept_wait ..)
    | (with_reducible apply Adm.kept_late)
    | (with_reducible apply Adm.kept_deny)
    | (with_reducible apply Adm.kept_yes)
    | (with_reducible apply State.done_kept)
    | (with_reducible apply State.ok_kept)
    | (with_reducible apply State.addOp_kept)
    | (refine State.addOp_kept' ?_ (by with_reducible assumption))
    | (with_reducible apply State.checkpoint_kept)
    | (with_reducible refine Adm.ite (fun _ => ?_) fun _ => ?_)
    | (exact Sub.of ‹_› (by rfl))
    | split
    | (dsimp only)

theorem keyPinBody_kept {P : List Part} {u s : State} (hk : Kept P u s) (h : Hdr) (slot : Nat) (addr : Nat) (key : Option (List Nat)) (op : Nat) (hP : Sub [.regs, .host, .vec, .hostMem, .sec, .axl, .mate] P := by exact Sub.of ‹_› (by rfl)) : (keyPinBody h slot addr key op s).Kept P u := by
  unfold keyPinBody
  repeat' first
    | (with_reducible assumption)
    | (with_reducible exact True.intro)
    | (with_reducible exact Adm.kept_bad ..)
    | (with_reducible exact Adm.kept_badData ..)
    | (with_reducible exact Adm.kept_short ..)
    | (with_reducible exact Adm.kept_denied ..)
    | (with_reducible exact Adm.kept_no ..)
    | (with_reducible exact Adm.kept_wait ..)
    | (with_reducible apply Adm.kept_late)
    | (with_reducible apply Adm.kept_deny)
    | (with_reducible apply Adm.kept_yes)
    | (with_reducible apply State.done_kept)
    | (with_reducible apply State.ok_kept)
    | (with_reducible apply State.keysChanged_kept)
    | (with_reducible refine Adm.ite (fun _ => ?_) fun _ => ?_)
    | (exact Sub.of ‹_› (by rfl))
    | (simp only [Kept.mk_iff]; with_reducible apply KeptC.of)
    | (with_reducible exact Or.inr rfl)
    | (with_reducible exact Or.inr ⟨rfl, rfl⟩)
    | (exact Or.inl (Sub.mem ‹_› (by rfl)))
    | (with_reducible rfl)
    | split
    | (dsimp only)

theorem keyUnpinBody_kept {P : List Part} {u s : State} (hk : Kept P u s) (h : Hdr) (slot : Nat) (hP : Sub [.regs, .host, .vec, .hostMem, .sec, .axl, .mate] P := by exact Sub.of ‹_› (by rfl)) : (keyUnpinBody h slot s).Kept P u := by
  unfold keyUnpinBody
  repeat' first
    | (with_reducible assumption)
    | (with_reducible exact True.intro)
    | (with_reducible exact Adm.kept_bad ..)
    | (with_reducible exact Adm.kept_badData ..)
    | (with_reducible exact Adm.kept_short ..)
    | (with_reducible exact Adm.kept_denied ..)
    | (with_reducible exact Adm.kept_no ..)
    | (with_reducible exact Adm.kept_wait ..)
    | (with_reducible apply Adm.kept_late)
    | (with_reducible apply Adm.kept_deny)
    | (with_reducible apply Adm.kept_yes)
    | (with_reducible apply State.ok_kept)
    | (with_reducible apply State.keysChanged_kept)
    | (with_reducible refine Adm.ite (fun _ => ?_) fun _ => ?_)
    | (exact Sub.of ‹_› (by rfl))
    | (simp only [Kept.mk_iff]; with_reducible apply KeptC.of)
    | (with_reducible exact Or.inr rfl)
    | (with_reducible exact Or.inr ⟨rfl, rfl⟩)
    | (exact Or.inl (Sub.mem ‹_› (by rfl)))
    | (with_reducible rfl)
    | split
    | (dsimp only)

theorem signingBody_kept {P : List Part} {u s : State} (hk : Kept P u s) (h : Hdr) (on : Bool) (hP : Sub [.regs, .host, .vec, .hostMem, .sec, .axl, .mate] P := by exact Sub.of ‹_› (by rfl)) : (signingBody h on s).Kept P u := by
  unfold signingBody
  repeat' first
    | (with_reducible assumption)
    | (with_reducible exact True.intro)
    | (with_reducible exact Adm.kept_bad ..)
    | (with_reducible exact Adm.kept_badData ..)
    | (with_reducible exact Adm.kept_short ..)
    | (with_reducible exact Adm.kept_denied ..)
    | (with_reducible exact Adm.kept_no ..)
    | (with_reducible exact Adm.kept_wait ..)
    | (with_reducible apply Adm.kept_late)
    | (with_reducible apply Adm.kept_deny)
    | (with_reducible apply Adm.kept_yes)
    | (with_reducible apply State.ok_kept)
    | (with_reducible apply State.modeRefused_kept)
    | (with_reducible apply State.setSigning_kept)
    | (with_reducible refine Adm.ite (fun _ => ?_) fun _ => ?_)
    | (exact Sub.of ‹_› (by rfl))
    | split
    | (dsimp only)

theorem domKeyBody_kept {P : List Part} {u s : State} (hk : Kept P u s) (h : Hdr) (install : Bool) (addr : Nat) (key : Option (List Nat)) (hP : Sub [.regs, .host, .vec, .hostMem, .sec, .axl, .mate] P := by exact Sub.of ‹_› (by rfl)) : (domKeyBody h install addr key s).Kept P u := by
  unfold domKeyBody
  repeat' first
    | (with_reducible assumption)
    | (with_reducible exact True.intro)
    | (with_reducible exact Adm.kept_bad ..)
    | (with_reducible exact Adm.kept_badData ..)
    | (with_reducible exact Adm.kept_short ..)
    | (with_reducible exact Adm.kept_denied ..)
    | (with_reducible exact Adm.kept_no ..)
    | (with_reducible exact Adm.kept_wait ..)
    | (with_reducible apply Adm.kept_late)
    | (with_reducible apply Adm.kept_deny)
    | (with_reducible apply Adm.kept_yes)
    | (with_reducible apply State.done_kept)
    | (with_reducible apply State.ok_kept)
    | (with_reducible apply State.keysChanged_kept)
    | (with_reducible refine Adm.ite (fun _ => ?_) fun _ => ?_)
    | (exact Sub.of ‹_› (by rfl))
    | (simp only [Kept.mk_iff]; with_reducible apply KeptC.of)
    | (with_reducible exact Or.inr rfl)
    | (with_reducible exact Or.inr ⟨rfl, rfl⟩)
    | (exact Or.inl (Sub.mem ‹_› (by rfl)))
    | (with_reducible rfl)
    | split
    | (dsimp only)

theorem State.lcTry_kept {P : List Part} {u s : State} {k : State → State} (hk : Kept P u s) (a : Bool) (hf : ∀ v, Kept P u v → Kept P u (k v)) (hP : Sub [.regs, .free, .vec] P := by exact Sub.of ‹_› (by rfl)) :
    Kept P u (State.lcTry s a k) := by
  unfold State.lcTry
  exact Kept.ite (fun _ => hk) fun _ => Kept.ite (fun _ => State.lcRefused_kept (State.modeRefused_kept hk _)) fun _ =>
    Kept.ite (fun _ => State.lcRefused_kept hk) fun _ => hf _ hk

theorem State.newLogKey_kept {P : List Part} {u s : State} (hk : Kept P u s)  (hP : Sub [.regs, .vec, .hostMem, .sec, .axl] P := by exact Sub.of ‹_› (by rfl)) : Kept P u (State.newLogKey s) := by
  unfold State.newLogKey
  repeat' first
    | (with_reducible assumption)
    | (with_reducible apply State.logWith_kept)
    | (with_reducible apply State.newKey_kept)
    | (exact Sub.of ‹_› (by rfl))
    | (simp only [Kept.mk_iff]; with_reducible apply KeptC.of)
    | (with_reducible exact Or.inr rfl)
    | (with_reducible exact Or.inr ⟨rfl, rfl⟩)
    | (exact Or.inl (Sub.mem ‹_› (by rfl)))
    | (with_reducible rfl)
    | (dsimp only)

theorem State.lcProvision_kept {P : List Part} {u s : State} (hk : Kept P u s) (tok : Option Token) (hP : Sub [.regs, .free, .vec, .hostMem, .sec, .axl] P := by exact Sub.of ‹_› (by rfl)) : Kept P u (State.lcProvision s tok) := by
  unfold State.lcProvision
  repeat' first
    | (with_reducible assumption)
    | (with_reducible apply State.set_kept)
    | (with_reducible apply State.writeRec_kept)
    | (with_reducible apply State.lcDone_kept)
    | (with_reducible apply State.lcBadToken_kept)
    | (with_reducible apply State.setLifecycle_kept)
    | (with_reducible apply State.lcTry_kept)
    | (with_reducible apply State.newLogKey_kept)
    | (exact Sub.of ‹_› (by rfl))
    | (simp only [Kept.mk_iff]; with_reducible apply KeptC.of)
    | (with_reducible exact Or.inr rfl)
    | (with_reducible exact Or.inr ⟨rfl, rfl⟩)
    | (exact Or.inl (Sub.mem ‹_› (by rfl)))
    | (with_reducible rfl)
    | (intro _)
    | split
    | (dsimp only)

theorem State.lcField_kept {P : List Part} {u s : State} (hk : Kept P u s)  (hP : Sub [.regs, .free, .vec, .hostMem, .sec, .axl] P := by exact Sub.of ‹_› (by rfl)) : Kept P u (State.lcField s) := by
  unfold State.lcField
  repeat' first
    | (with_reducible assumption)
    | (with_reducible apply State.checkpoint_kept)
    | (with_reducible apply State.lcDone_kept)
    | (with_reducible apply State.setLifecycle_kept)
    | (with_reducible apply State.lcTry_kept)
    | (exact Sub.of ‹_› (by rfl))
    | (intro _)
    | split
    | (dsimp only)

theorem State.lcRma_kept {P : List Part} {u s : State} (hk : Kept P u s) (tok : Option Token) (cut : Bool) (hP : Sub [.regs, .free, .vec, .hostMem, .sec, .axl] P := by exact Sub.of ‹_› (by rfl)) : Kept P u (State.lcRma s tok cut) := by
  unfold State.lcRma
  repeat' first
    | (with_reducible assumption)
    | (with_reducible apply State.checkpoint_kept)
    | (with_reducible apply State.lcDone_kept)
    | (with_reducible apply State.lcBadToken_kept)
    | (with_reducible apply State.consent_kept)
    | (refine State.consent_kept' ?_ (by with_reducible assumption))
    | (with_reducible apply State.eraseSecrets_kept)
    | (with_reducible apply State.beginRma_kept)
    | (with_reducible apply State.endRma_kept)
    | (with_reducible apply State.lcTry_kept)
    | (exact Sub.of ‹_› (by rfl))
    | (intro _)
    | split
    | (dsimp only)

theorem State.lcEnd_kept {P : List Part} {u s : State} (hk : Kept P u s) (tok : Option Token) (hP : Sub [.regs, .free, .media, .xpt, .fst, .aud, .vec, .hostMem, .ref, .sec, .axl] P := by exact Sub.of ‹_› (by rfl)) : Kept P u (State.lcEnd s tok) := by
  unfold State.lcEnd
  repeat' first
    | (with_reducible assumption)
    | (with_reducible apply State.set_kept)
    | (with_reducible apply State.raiseMode_kept)
    | (with_reducible apply State.change_kept)
    | (with_reducible apply State.checkpoint_kept)
    | (with_reducible apply State.setSigning_kept)
    | (with_reducible apply State.lcDone_kept)
    | (with_reducible apply State.lcBadToken_kept)
    | (with_reducible apply State.consent_kept)
    | (refine State.consent_kept' ?_ (by with_reducible assumption))
    | (with_reducible apply State.setLifecycle_kept)
    | (with_reducible apply State.enterEnd_kept)
    | (with_reducible apply State.lcTry_kept)
    | (exact Sub.of ‹_› (by rfl))
    | (intro _)
    | split
    | (dsimp only)

theorem State.vendorDebugSession_kept {P : List Part} {u s : State} (hk : Kept P u s) (tok : Option Token) (hP : Sub [.regs, .free, .vec] P := by exact Sub.of ‹_› (by rfl)) : Kept P u (State.vendorDebugSession s tok) := by
  unfold State.vendorDebugSession
  repeat' first
    | (with_reducible assumption)
    | (with_reducible apply State.set_kept)
    | (with_reducible apply State.raise_kept)
    | (with_reducible apply State.lcDone_kept)
    | (with_reducible apply State.lcRefused_kept)
    | (with_reducible apply State.lcBadToken_kept)
    | (exact Sub.of ‹_› (by rfl))
    | split
    | (dsimp only)

theorem State.waitingCks_kept {P : List Part} {u s : State} (hk : Kept P u s)  (hP : Sub [.regs, .host, .vec, .hostMem, .sec, .axl] P := by exact Sub.of ‹_› (by rfl)) : Kept P u (State.waitingCks s) := by
  unfold State.waitingCks
  repeat' first
    | (with_reducible assumption)
    | (with_reducible apply State.finish_kept)
    | (with_reducible apply State.checkpoint_kept)
    | (with_reducible refine Kept.foldl ?_ ?_)
    | (exact Sub.of ‹_› (by rfl))
    | (intro _)
    | split
    | (dsimp only)

theorem State.logTailWrite_kept {P : List Part} {u s : State} (hk : Kept P u s) (v : Nat) (hP : Sub [.regs, .hostMem, .sec] P := by exact Sub.of ‹_› (by rfl)) : Kept P u (State.logTailWrite s v) := by
  unfold State.logTailWrite
  repeat' first
    | (with_reducible assumption)
    | (with_reducible apply State.set_kept)
    | (with_reducible apply State.deliverHeld_kept)
    | (exact Sub.of ‹_› (by rfl))
    | split
    | (dsimp only)

theorem State.logSetup_kept {P : List Part} {u s : State} (hk : Kept P u s) (a : Nat) (v : Nat) (hP : Sub [.regs, .taken, .hostMem, .sec] P := by exact Sub.of ‹_› (by rfl)) : Kept P u (State.logSetup s a v) := by
  unfold State.logSetup
  repeat' first
    | (with_reducible assumption)
    | (with_reducible apply State.wr_kept)
    | (with_reducible apply State.takeSetting_kept)
    | (with_reducible apply State.deliverHeld_kept)
    | (exact Sub.of ‹_› (by rfl))
    | (simp only [Kept.mk_iff]; with_reducible apply KeptC.of)
    | (with_reducible exact Or.inr rfl)
    | (with_reducible exact Or.inr ⟨rfl, rfl⟩)
    | (exact Or.inl (Sub.mem ‹_› (by rfl)))
    | (with_reducible rfl)
    | split
    | (dsimp only)

end Sys2Proof.Machine
end

