-- ==== Sys2Proof/Laws/KeptMate.lean ====
section
/-! SUPPORT. The operations of Machine/Mate.lean keep the queue and the canonical forms, and which parts of the state they may change. -/
set_option Elab.async false
namespace Sys2Proof.Machine

theorem State.pairFail_kept {P : List Part} {u s : State} (hk : Kept P u s) (why : Nat) (hP : Sub [.regs, .vec] P := by exact Sub.of ‹_› (by rfl)) : Kept P u (State.pairFail s why) := by
  unfold State.pairFail
  repeat' first
    | (with_reducible assumption)
    | (with_reducible apply State.set_kept)
    | (with_reducible apply State.raise_kept)
    | (exact Sub.of ‹_› (by rfl))
    | (dsimp only)

theorem State.pairRefused_kept {P : List Part} {u s : State} (hk : Kept P u s) (why : Nat) (hP : Sub [.regs, .vec] P := by exact Sub.of ‹_› (by rfl)) : Kept P u (State.pairRefused s why) := by
  unfold State.pairRefused
  repeat' first
    | (with_reducible assumption)
    | (with_reducible apply State.modeRefused_kept)
    | (with_reducible apply State.pairFail_kept)
    | (exact Sub.of ‹_› (by rfl))
    | split
    | (dsimp only)

theorem State.pairUp_kept {P : List Part} {u s : State} (hk : Kept P u s) (p : Partner) (role : Nat) (hP : Sub [.regs, .vec, .axl, .mate] P := by exact Sub.of ‹_› (by rfl)) : Kept P u (State.pairUp s p role) := by
  unfold State.pairUp
  extract_lets s1 s2 q s3
  have h1 : Kept P u s1 := State.setRole_kept (State.setEpoch_kept hk _) _
  clear_value s1
  have h2 : Kept P u s2 := State.setSync_kept (State.set_kept h1 _ _ _) _
  clear_value s2
  have h3 : Kept P u s3 := Kept.upd_mate h2 _
  clear_value s3
  exact State.raise_kept h3 _ _

theorem pairBody_kept {P : List Part} {u s : State} (hk : Kept P u s) (h : Hdr) (p : Option Partner) (hP : Sub [.regs, .host, .vec, .axl, .mate] P := by exact Sub.of ‹_› (by rfl)) : (pairBody h p s).Kept P u := by
  unfold pairBody
  repeat' first
    | (with_reducible assumption)
    | (with_reducible exact True.intro)
    | (with_reducible exact Adm.kept_bad ..)
    | (with_reducible exact Adm.kept_badData ..)
    | (with_reducible exact Adm.kept_short ..)
    | (with_reducible exact Adm.kept_denied ..)
    | (with_reducible exact Adm.kept_no ..)
    | (with_reducible exact Adm.kept_wait ..)
    | (with_reducible apply Adm.kept_late)
    | (with_reducible apply Adm.kept_deny)
    | (with_reducible apply Adm.kept_yes)
    | (with_reducible apply State.ok_kept)
    | (with_reducible apply State.addOp_kept)
    | (refine State.addOp_kept' ?_ (by with_reducible assumption))
    | (with_reducible apply State.pairRefused_kept)
    | (with_reducible apply State.pairUp_kept)
    | (with_reducible refine Adm.ite (fun _ => ?_) fun _ => ?_)
    | (exact Sub.of ‹_› (by rfl))
    | (intro _)
    | split
    | (dsimp only)

theorem State.sbDown_kept {P : List Part} {u s : State} (hk : Kept P u s)  (hP : Sub [.regs, .free, .host, .vec, .lv, .axl, .mate] P := by exact Sub.of ‹_› (by rfl)) : Kept P u (State.sbDown s) := by
  unfold State.sbDown
  repeat' first
    | (with_reducible assumption)
    | (with_reducible apply State.set_kept)
    | (with_reducible apply State.count_kept)
    | (with_reducible apply State.raise_kept)
    | (with_reducible apply State.mateCond_kept)
    | (exact Sub.of ‹_› (by rfl))
    | (simp only [Kept.mk_iff]; with_reducible apply KeptC.of)
    | (with_reducible exact Or.inr rfl)
    | (with_reducible exact Or.inr ⟨rfl, rfl⟩)
    | (exact Or.inl (Sub.mem ‹_› (by rfl)))
    | (with_reducible rfl)
    | (dsimp only)

theorem State.lvMirror_kept {P : List Part} {u s : State} (hk : Kept P u s) (outs : List (Nat × Option Nat)) (sel : List Nat) (ctl : List Nat) (t₁ : Nat) (hP : Sub [.regs, .media, .xpt, .fst, .che, .sou, .aud, .vec, .hostMem, .lv, .sec] P := by exact Sub.of ‹_› (by rfl)) : Kept P u (State.lvMirror s outs sel ctl t₁) := by
  unfold State.lvMirror
  repeat' first
    | (with_reducible assumption)
    | (with_reducible apply State.setLvReg_kept)
    | (with_reducible apply State.txPower_kept)
    | (with_reducible apply State.lvTakesDone_kept)
    | (with_reducible apply State.lvLatchOut_kept)
    | (with_reducible apply State.lvSwitch_kept)
    | (with_reducible apply State.lvSetDue_kept)
    | (with_reducible refine Kept.foldl ?_ ?_)
    | (exact Sub.of ‹_› (by rfl))
    | (simp only [Kept.mk_iff]; with_reducible apply KeptC.of)
    | (with_reducible exact Or.inr rfl)
    | (with_reducible exact Or.inr ⟨rfl, rfl⟩)
    | (exact Or.inl (Sub.mem ‹_› (by rfl)))
    | (with_reducible rfl)
    | (intro _)
    | split
    | (dsimp only)

theorem fwdAdm_kept {P : List Part} {u s : State} (hk : Kept P u s) (h : Hdr) (op : FwdOp) (hP : Sub [.regs, .taken, .free, .media, .xpt, .fst, .fstMem, .che, .sou, .aud, .host, .vec, .hostMem, .lv, .syn, .sec, .flt, .axl, .hsf, .mate] P := by exact Sub.of ‹_› (by rfl)) : (fwdAdm h op s).Kept P u := by
  unfold fwdAdm
  repeat' first
    | (with_reducible assumption)
    | (with_reducible exact True.intro)
    | (with_reducible exact Adm.kept_bad ..)
    | (with_reducible exact Adm.kept_badData ..)
    | (with_reducible exact Adm.kept_short ..)
    | (with_reducible exact Adm.kept_denied ..)
    | (with_reducible exact Adm.kept_no ..)
    | (with_reducible exact Adm.kept_wait ..)
    | (with_reducible apply Adm.kept_late)
    | (with_reducible apply Adm.kept_deny)
    | (with_reducible apply Adm.kept_yes)
    | (with_reducible apply routeBody_kept)
    | (with_reducible apply chainBody_kept)
    | (with_reducible apply salvoBody_kept)
    | (with_reducible apply cancelBody_kept)
    | (with_reducible apply audMapBody_kept)
    | (with_reducible apply audFadeBody_kept)
    | (with_reducible apply sapCfgBody_kept)
    | (with_reducible apply bufAllocBody_kept)
    | (with_reducible apply bufFreeBody_kept)
    | (with_reducible apply bufWriteBody_kept)
    | (with_reducible apply ctxAdmitBody_kept)
    | (with_reducible apply ctxParamBody_kept)
    | (with_reducible apply ctxReleaseBody_kept)
    | (with_reducible apply flowBody_kept)
    | (with_reducible apply persistPutBody_kept)
    | (with_reducible apply persistStoreBody_kept)
    | (with_reducible apply souCfgBody_kept)
    | (with_reducible apply souCommitBody_kept)
    | (with_reducible apply checkpointBody_kept)
    | (with_reducible apply keyPinBody_kept)
    | (with_reducible apply keyUnpinBody_kept)
    | (with_reducible apply signingBody_kept)
    | (with_reducible apply domKeyBody_kept)
    | (with_reducible apply State.lvMirror_kept)
    | (with_reducible refine Adm.ite (fun _ => ?_) fun _ => ?_)
    | (exact Sub.of ‹_› (by rfl))
    | split
    | (dsimp only)

theorem State.runFwd_kept' {P : List Part} {u s t : State} {r₀ : Bool} {h : Hdr} {op : FwdOp} (hk : Kept P u s) (he₀ : s.runFwd h op = some (r₀, t)) (hP : Sub [.regs, .taken, .free, .media, .xpt, .fst, .fstMem, .che, .sou, .aud, .host, .vec, .hostMem, .lv, .syn, .sec, .flt, .axl, .hsf, .mate] P := by exact Sub.of ‹_› (by rfl)) :
    Kept P u t := by
  unfold State.runFwd at he₀
  extract_lets r1 back at he₀
  have h1 := fwdAdm_kept (Kept.upd_host hk { s.host with fwdNow := true } rfl ⟨rfl, rfl⟩) h op
  generalize fwdAdm h op _ = a at h1 he₀
  cases a with
  | yes s' =>
    dsimp only at he₀
    split at he₀
    · simp only [Option.some.injEq, Prod.mk.injEq] at he₀; rw [← he₀.2]; exact Kept.upd_host h1 _ rfl ⟨rfl, rfl⟩
    · simp only [Option.some.injEq, Prod.mk.injEq] at he₀; exact he₀.2 ▸ hk
  | wait => exact absurd he₀ (by simp)
  | no a b => simp only [Option.some.injEq, Prod.mk.injEq] at he₀; exact he₀.2 ▸ hk
  | late a b c => simp only [Option.some.injEq, Prod.mk.injEq] at he₀; exact he₀.2 ▸ hk
  | deny a b => simp only [Option.some.injEq, Prod.mk.injEq] at he₀; exact he₀.2 ▸ hk

theorem State.fwdWait_kept {P : List Part} {u s : State} (hk : Kept P u s) (num : Nat) (hP : Sub [.regs, .hsf] P := by exact Sub.of ‹_› (by rfl)) : Kept P u (State.fwdWait s num) := by
  unfold State.fwdWait
  repeat' first
    | (with_reducible assumption)
    | (with_reducible apply State.set_kept)
    | (exact Sub.of ‹_› (by rfl))
    | (simp only [Kept.mk_iff]; with_reducible apply KeptC.of)
    | (with_reducible exact Or.inr rfl)
    | (with_reducible exact Or.inr ⟨rfl, rfl⟩)
    | (exact Or.inl (Sub.mem ‹_› (by rfl)))
    | (with_reducible rfl)
    | (dsimp only)

theorem State.fwdSee_kept {P : List Part} {u s : State} (hk : Kept P u s) (num : Nat) (hP : Sub [.mate] P := by exact Sub.of ‹_› (by rfl)) : Kept P u (State.fwdSee s num) := by
  unfold State.fwdSee
  repeat' first
    | (with_reducible assumption)
    | (exact Sub.of ‹_› (by rfl))
    | (simp only [Kept.mk_iff]; with_reducible apply KeptC.of)
    | (with_reducible exact Or.inr rfl)
    | (with_reducible exact Or.inr ⟨rfl, rfl⟩)
    | (exact Or.inl (Sub.mem ‹_› (by rfl)))
    | (with_reducible rfl)
    | (dsimp only)

theorem State.fwdKeep_kept {P : List Part} {u s : State} (hk : Kept P u s) (h : Hdr) (op : FwdOp) (hP : Sub [.mate] P := by exact Sub.of ‹_› (by rfl)) : Kept P u (State.fwdKeep s h op) := by
  unfold State.fwdKeep
  repeat' first
    | (with_reducible assumption)
    | (exact Sub.of ‹_› (by rfl))
    | (simp only [Kept.mk_iff]; with_reducible apply KeptC.of)
    | (with_reducible exact Or.inr rfl)
    | (with_reducible exact Or.inr ⟨rfl, rfl⟩)
    | (exact Or.inl (Sub.mem ‹_› (by rfl)))
    | (with_reducible rfl)
    | (dsimp only)

theorem State.fwdSeq_kept {P : List Part} {u s : State} (hk : Kept P u s) (seq : Option (Nat × Nat)) (hP : Sub [.regs, .axl] P := by exact Sub.of ‹_› (by rfl)) : Kept P u (State.fwdSeq s seq) := by
  unfold State.fwdSeq
  repeat' first
    | (with_reducible assumption)
    | (with_reducible apply State.recordSeq_kept)
    | (exact Sub.of ‹_› (by rfl))
    | split
    | (dsimp only)

theorem State.fwdEnd_kept {P : List Part} {u s : State} (hk : Kept P u s) (num : Nat) {o : Option (Bool × State)} (ho : ∀ b t, o = some (b, t) → Kept P u t) (hP : Sub [.regs, .vec, .hsf, .mate] P := by exact Sub.of ‹_› (by rfl)) :
    Kept P u (State.fwdEnd s num o) := by
  cases o with
  | none => exact State.fwdWait_kept hk num
  | some p =>
    obtain ⟨ok, v⟩ := p
    have h1 := ho ok v rfl
    exact Kept.ite (fun _ => State.fwdSee_kept (State.accept_kept h1 _) _) fun _ =>
      State.fwdSee_kept (State.syncFail_kept (State.raiseOver_kept h1)) _

theorem State.runFwds_kept {P : List Part} {u : State} (l : List (Hdr × FwdOp)) {s t : State} {b : Bool} (hk : Kept P u s) (he : s.runFwds l = some (b, t)) (hP : Sub [.regs, .taken, .free, .media, .xpt, .fst, .fstMem, .che, .sou, .aud, .host, .vec, .hostMem, .lv, .syn, .sec, .flt, .axl, .hsf, .mate] P := by exact Sub.of ‹_› (by rfl)) :
    Kept P u t := by
  induction l generalizing s b with
  | nil => simp only [State.runFwds, Option.some.injEq, Prod.mk.injEq] at he; exact he.2 ▸ hk
  | cons p l ih =>
    obtain ⟨h, op⟩ := p
    simp only [State.runFwds] at he
    split at he
    · exact absurd he (by simp)
    · rename_i ok v e
      have h1 := State.runFwd_kept' hk e
      cases hr : v.runFwds l with
      | none => rw [hr] at he; exact absurd he (by simp)
      | some q =>
        obtain ⟨b', w⟩ := q
        rw [hr] at he
        simp only [Option.map_some, Option.some.injEq, Prod.mk.injEq] at he
        obtain ⟨_, e2⟩ := he
        subst e2
        exact ih h1 hr

theorem State.fwdAnswered_kept {P : List Part} {u s : State} (hk : Kept P u s) (id : Nat) (hP : Sub [.regs, .host, .mate] P := by exact Sub.of ‹_› (by rfl)) : Kept P u (State.fwdAnswered s id) := by
  unfold State.fwdAnswered
  repeat' first
    | (with_reducible assumption)
    | (with_reducible apply State.dropDiscarded_kept)
    | (exact Sub.of ‹_› (by rfl))
    | (simp only [Kept.mk_iff]; with_reducible apply KeptC.of)
    | (with_reducible exact Or.inr rfl)
    | (with_reducible exact Or.inr ⟨rfl, rfl⟩)
    | (exact Or.inl (Sub.mem ‹_› (by rfl)))
    | (with_reducible rfl)
    | (intro _)
    | (dsimp only)

theorem State.domSend_kept {P : List Part} {u s : State} (hk : Kept P u s) (b : List Byte) (hP : Sub [.media] P := by exact Sub.of ‹_› (by rfl)) : Kept P u (State.domSend s b) := by
  unfold State.domSend
  repeat' first
    | (with_reducible assumption)
    | (exact Sub.of ‹_› (by rfl))
    | (simp only [Kept.mk_iff]; with_reducible apply KeptC.of)
    | (with_reducible exact Or.inr rfl)
    | (with_reducible exact Or.inr ⟨rfl, rfl⟩)
    | (exact Or.inl (Sub.mem ‹_› (by rfl)))
    | (with_reducible rfl)
    | (dsimp only)

theorem domMsgBody_kept {P : List Part} {u s : State} (hk : Kept P u s) (h : Hdr) (target : Nat) (unit : Nat) (len : Nat) (addr : Nat) (readOk : Bool) (descs : List DomDesc) (hP : Sub [.regs, .media, .host, .mate] P := by exact Sub.of ‹_› (by rfl)) : (domMsgBody h target unit len addr readOk descs s).Kept P u := by
  unfold domMsgBody
  repeat' first
    | (with_reducible assumption)
    | (with_reducible exact True.intro)
    | (with_reducible exact Adm.kept_bad ..)
    | (with_reducible exact Adm.kept_badData ..)
    | (with_reducible exact Adm.kept_short ..)
    | (with_reducible exact Adm.kept_denied ..)
    | (with_reducible exact Adm.kept_no ..)
    | (with_reducible exact Adm.kept_wait ..)
    | (with_reducible apply Adm.kept_late)
    | (with_reducible apply Adm.kept_deny)
    | (with_reducible apply Adm.kept_yes)
    | (with_reducible apply State.addOp_kept)
    | (refine State.addOp_kept' ?_ (by with_reducible assumption))
    | (with_reducible apply State.domSend_kept)
    | (with_reducible refine Adm.ite (fun _ => ?_) fun _ => ?_)
    | (exact Sub.of ‹_› (by rfl))
    | (simp only [Kept.mk_iff]; with_reducible apply KeptC.of)
    | (with_reducible exact Or.inr rfl)
    | (with_reducible exact Or.inr ⟨rfl, rfl⟩)
    | (exact Or.inl (Sub.mem ‹_› (by rfl)))
    | (with_reducible rfl)
    | (intro _)
    | split
    | (dsimp only)

theorem State.authFail_kept {P : List Part} {u s : State} (hk : Kept P u s)  (hP : Sub [.regs, .vec] P := by exact Sub.of ‹_› (by rfl)) : Kept P u (State.authFail s) := by
  unfold State.authFail
  repeat' first
    | (with_reducible assumption)
    | (with_reducible apply State.inc_kept)
    | (with_reducible apply State.raise_kept)
    | (exact Sub.of ‹_› (by rfl))
    | (dsimp only)

theorem State.domAck_kept {P : List Part} {u s : State} (hk : Kept P u s) (p : DomPkt) (status : Nat) (hP : Sub [.media, .mate] P := by exact Sub.of ‹_› (by rfl)) : Kept P u (State.domAck s p status) := by
  unfold State.domAck
  repeat' first
    | (with_reducible assumption)
    | (with_reducible apply State.domSend_kept)
    | (exact Sub.of ‹_› (by rfl))
    | (simp only [Kept.mk_iff]; with_reducible apply KeptC.of)
    | (with_reducible exact Or.inr rfl)
    | (with_reducible exact Or.inr ⟨rfl, rfl⟩)
    | (exact Or.inl (Sub.mem ‹_› (by rfl)))
    | (with_reducible rfl)
    | (dsimp only)

theorem State.domAccept_kept {P : List Part} {u s : State} (hk : Kept P u s) (p : DomPkt) (hP : Sub [.regs, .media, .host, .mate] P := by exact Sub.of ‹_› (by rfl)) : Kept P u (State.domAccept s p) := by
  unfold State.domAccept
  repeat' first
    | (with_reducible assumption)
    | (with_reducible apply State.inc_kept)
    | (with_reducible apply State.setRst_kept)
    | (with_reducible apply State.domEnter_kept)
    | (with_reducible apply State.domAck_kept)
    | (exact Sub.of ‹_› (by rfl))
    | (simp only [Kept.mk_iff]; with_reducible apply KeptC.of)
    | (with_reducible exact Or.inr rfl)
    | (with_reducible exact Or.inr ⟨rfl, rfl⟩)
    | (exact Or.inl (Sub.mem ‹_› (by rfl)))
    | (with_reducible rfl)
    | (intro _)
    | split
    | (dsimp only)

end Sys2Proof.Machine
end

