-- ==== Sys2Proof/Laws/KeptFabric.lean ====
section
/-! SUPPORT. The operations of Machine/Fabric.lean keep the queue and the canonical forms, and which parts of the state they may change. -/
set_option Elab.async false
namespace Sys2Proof.Machine

theorem State.xMerge_kept {P : List Part} {u s : State} (hk : Kept P u s) (d : Nat) (n : Nat) (hP : Sub [.regs, .vec] P := by exact Sub.of ‹_› (by rfl)) : Kept P u (State.xMerge s d n) := by
  unfold State.xMerge
  repeat' first
    | (with_reducible assumption)
    | (with_reducible apply State.set_kept)
    | (with_reducible apply State.count_kept)
    | (with_reducible apply State.raise_kept)
    | (exact Sub.of ‹_› (by rfl))
    | split
    | (dsimp only)

theorem State.xDrop_kept {P : List Part} {u s : State} (hk : Kept P u s) (d : Nat) (n : Nat) (hP : Sub [.regs, .vec] P := by exact Sub.of ‹_› (by rfl)) : Kept P u (State.xDrop s d n) := by
  unfold State.xDrop
  repeat' first
    | (with_reducible assumption)
    | (with_reducible apply State.set_kept)
    | (with_reducible apply State.count_kept)
    | (with_reducible apply State.raise_kept)
    | (exact Sub.of ‹_› (by rfl))
    | split
    | (dsimp only)

theorem State.readSlack_kept {P : List Part} {u s : State} (hk : Kept P u s) (m : Slack) (hP : Sub [.regs, .vec] P := by exact Sub.of ‹_› (by rfl)) : Kept P u (State.readSlack s m) := by
  unfold State.readSlack
  repeat' first
    | (with_reducible assumption)
    | (with_reducible apply State.set_kept)
    | (with_reducible apply State.xMerge_kept)
    | (with_reducible apply State.xDrop_kept)
    | (with_reducible refine Kept.foldl ?_ ?_)
    | (exact Sub.of ‹_› (by rfl))
    | (intro _)
    | split
    | (dsimp only)

theorem State.marginLow_kept {P : List Part} {u s : State} (hk : Kept P u s) (bad : Nat → Bool) (hP : Sub [.regs, .vec] P := by exact Sub.of ‹_› (by rfl)) : Kept P u (State.marginLow s bad) := by
  unfold State.marginLow
  repeat' first
    | (with_reducible assumption)
    | (with_reducible apply State.raise_kept)
    | (with_reducible refine Kept.foldl ?_ ?_)
    | (exact Sub.of ‹_› (by rfl))
    | (intro _)
    | split
    | (dsimp only)

theorem State.afterReading_kept {P : List Part} {u s : State} (hk : Kept P u s)  (hP : Sub [.regs, .vec, .hsf] P := by exact Sub.of ‹_› (by rfl)) : Kept P u (State.afterReading s) := by
  unfold State.afterReading
  repeat' first
    | (with_reducible assumption)
    | (with_reducible apply State.setVState_kept)
    | (with_reducible apply State.marginLow_kept)
    | (exact Sub.of ‹_› (by rfl))
    | (simp only [Kept.mk_iff]; with_reducible apply KeptC.of)
    | (with_reducible exact Or.inr rfl)
    | (with_reducible exact Or.inr ⟨rfl, rfl⟩)
    | (exact Or.inl (Sub.mem ‹_› (by rfl)))
    | (with_reducible rfl)
    | (intro _)
    | split
    | (dsimp only)

theorem State.vTo_kept {P : List Part} {u s : State} (hk : Kept P u s) (v : Nat) (m : Slack) (hP : Sub [.regs, .vec] P := by exact Sub.of ‹_› (by rfl)) : Kept P u (State.vTo s v m) := by
  unfold State.vTo
  repeat' first
    | (with_reducible assumption)
    | (with_reducible apply State.set_kept)
    | (with_reducible apply State.readSlack_kept)
    | (exact Sub.of ‹_› (by rfl))
    | (dsimp only)

theorem State.vctlStore_kept {P : List Part} {u s : State} (hk : Kept P u s) (v : Nat) (hP : Sub [.regs] P := by exact Sub.of ‹_› (by rfl)) : Kept P u (State.vctlStore s v) := by
  unfold State.vctlStore
  repeat' first
    | (with_reducible assumption)
    | (with_reducible apply State.set_kept)
    | (exact Sub.of ‹_› (by rfl))
    | (dsimp only)

theorem State.modeFresh_kept {P : List Part} {u s : State} (hk : Kept P u s) (was : Bool) (hP : Sub [.hsf] P := by exact Sub.of ‹_› (by rfl)) : Kept P u (State.modeFresh s was) := by
  unfold State.modeFresh
  repeat' first
    | (with_reducible assumption)
    | (exact Sub.of ‹_› (by rfl))
    | (simp only [Kept.mk_iff]; with_reducible apply KeptC.of)
    | (with_reducible exact Or.inr rfl)
    | (with_reducible exact Or.inr ⟨rfl, rfl⟩)
    | (exact Or.inl (Sub.mem ‹_› (by rfl)))
    | (with_reducible rfl)
    | split
    | (dsimp only)

theorem State.stepStop_kept {P : List Part} {u s : State} (hk : Kept P u s)  (hP : Sub [.regs] P := by exact Sub.of ‹_› (by rfl)) : Kept P u (State.stepStop s) := by
  unfold State.stepStop
  repeat' first
    | (with_reducible assumption)
    | (with_reducible apply State.setVState_kept)
    | (exact Sub.of ‹_› (by rfl))
    | split
    | (dsimp only)

theorem State.limitCheck_kept {P : List Part} {u s : State} (hk : Kept P u s)  (hP : Sub [.regs, .vec] P := by exact Sub.of ‹_› (by rfl)) : Kept P u (State.limitCheck s) := by
  unfold State.limitCheck
  repeat' first
    | (with_reducible assumption)
    | (with_reducible apply State.marginLow_kept)
    | (exact Sub.of ‹_› (by rfl))
    | (intro _)
    | split
    | (dsimp only)

theorem State.vctlWrite_kept {P : List Part} {u s : State} (hk : Kept P u s) (v : Nat) (hP : Sub [.regs, .vec, .hsf] P := by exact Sub.of ‹_› (by rfl)) : Kept P u (State.vctlWrite s v) := by
  unfold State.vctlWrite
  repeat' first
    | (with_reducible assumption)
    | (with_reducible apply State.vctlStore_kept)
    | (with_reducible apply State.modeFresh_kept)
    | (with_reducible apply State.stepStop_kept)
    | (with_reducible apply State.limitCheck_kept)
    | (exact Sub.of ‹_› (by rfl))
    | (dsimp only)

theorem State.avsErr_kept {P : List Part} {u s : State} (hk : Kept P u s)  (hP : Sub [.regs, .media, .xpt, .fst, .fstMem, .che, .sou, .aud, .vec, .syn, .flt, .hsf] P := by exact Sub.of ‹_› (by rfl)) : Kept P u (State.avsErr s) := by
  unfold State.avsErr
  repeat' first
    | (with_reducible assumption)
    | (with_reducible apply State.raise_kept)
    | (with_reducible apply State.reportError_kept)
    | (exact Sub.of ‹_› (by rfl))
    | (dsimp only)

end Sys2Proof.Machine
end

