-- ==== Sys2Proof/Laws/KeptReset.lean ====
section
/-! SUPPORT. The operations of Machine/Reset.lean keep the queue and the canonical forms, and which parts of the state they may change. -/
set_option Elab.async false
namespace Sys2Proof.Machine

theorem State.softwareResetRequest_kept {P : List Part} {u s : State} (hk : Kept P u s) (v : Nat) (hP : Sub [.regs, .taken, .snap, .media, .xpt, .fst, .fstMem, .che, .sou, .aud, .host, .vec, .lv, .ref, .syn, .sec, .flt, .axl, .rst, .hsf, .mtx, .mate, .pkg] P := by exact Sub.of ‹_› (by rfl)) : Kept P u (State.softwareResetRequest s v) := by
  unfold State.softwareResetRequest
  repeat' first
    | (with_reducible assumption)
    | (with_reducible apply State.raise_kept)
    | (with_reducible apply State.warmSource_kept)
    | (exact Sub.of ‹_› (by rfl))
    | split
    | (dsimp only)

theorem State.enumerate_kept {P : List Part} {u s : State} (hk : Kept P u s)  (hP : Sub [.regs, .host] P := by exact Sub.of ‹_› (by rfl)) : Kept P u (State.enumerate s) := by
  unfold State.enumerate
  repeat' first
    | (with_reducible assumption)
    | (with_reducible apply State.set_kept)
    | (exact Sub.of ‹_› (by rfl))
    | (simp only [Kept.mk_iff]; with_reducible apply KeptC.of)
    | (with_reducible exact Or.inr rfl)
    | (with_reducible exact Or.inr ⟨rfl, rfl⟩)
    | (exact Or.inl (Sub.mem ‹_› (by rfl)))
    | (with_reducible rfl)
    | split
    | (dsimp only)

theorem State.rollback_kept {P : List Part} {u s : State} (hk : Kept P u s) (i : Img) (hP : Sub [.regs, .vec] P := by exact Sub.of ‹_› (by rfl)) : Kept P u (State.rollback s i) := by
  unfold State.rollback
  repeat' first
    | (with_reducible assumption)
    | (with_reducible apply State.raise_kept)
    | (exact Sub.of ‹_› (by rfl))
    | split
    | (dsimp only)

theorem State.bootImg_kept {P : List Part} {u s : State} (hk : Kept P u s) (n : Nat) (i : Img) (fallback : Bool) (hP : Sub [.regs, .vec, .rst] P := by exact Sub.of ‹_› (by rfl)) : Kept P u (State.bootImg s n i fallback) := by
  unfold State.bootImg
  repeat' first
    | (with_reducible assumption)
    | (with_reducible apply State.wr_kept)
    | (with_reducible apply State.set_kept)
    | (with_reducible apply State.setB_kept)
    | (with_reducible apply State.raise_kept)
    | (with_reducible apply State.setPhase_kept)
    | (exact Sub.of ‹_› (by rfl))
    | (simp only [Kept.mk_iff]; with_reducible apply KeptC.of)
    | (with_reducible exact Or.inr rfl)
    | (with_reducible exact Or.inr ⟨rfl, rfl⟩)
    | (exact Or.inl (Sub.mem ‹_› (by rfl)))
    | (with_reducible rfl)
    | split
    | (dsimp only)

theorem State.setRegion_kept {P : List Part} {u s : State} (hk : Kept P u s) (t₁ : Nat) (r : Nat) (base : Nat) (limit : Nat) (lo : Nat) (hi : Nat) (hP : Sub [.regs] P := by exact Sub.of ‹_› (by rfl)) : Kept P u (State.setRegion s t₁ r base limit lo hi) := by
  unfold State.setRegion
  repeat' first
    | (with_reducible assumption)
    | (with_reducible apply State.set_kept)
    | (exact Sub.of ‹_› (by rfl))
    | (dsimp only)

theorem State.narrow_kept {P : List Part} {u s : State} (hk : Kept P u s)  (hP : Sub [.regs] P := by exact Sub.of ‹_› (by rfl)) : Kept P u (State.narrow s) := by
  unfold State.narrow
  repeat' first
    | (with_reducible assumption)
    | (with_reducible apply State.set_kept)
    | (with_reducible apply State.setRegion_kept)
    | (with_reducible refine Kept.foldl ?_ ?_)
    | (exact Sub.of ‹_› (by rfl))
    | (intro _)
    | split
    | (dsimp only)

theorem State.p4Voltage_kept {P : List Part} {u s : State} (hk : Kept P u s)  (hP : Sub [.regs] P := by exact Sub.of ‹_› (by rfl)) : Kept P u (State.p4Voltage s) := by
  unfold State.p4Voltage
  repeat' first
    | (with_reducible assumption)
    | (with_reducible apply State.set_kept)
    | (with_reducible apply State.setVState_kept)
    | (exact Sub.of ‹_› (by rfl))
    | split
    | (dsimp only)

theorem State.coldUp_kept {P : List Part} {u s : State} (hk : Kept P u s) (t₁ : Nat) (hP : Sub [.regs, .media, .aud, .host, .vec, .hostMem, .lv, .sec, .axl, .rst] P := by exact Sub.of ‹_› (by rfl)) : Kept P u (State.coldUp s t₁) := by
  unfold State.coldUp
  repeat' first
    | (with_reducible assumption)
    | (with_reducible apply State.logWith_kept)
    | (with_reducible apply State.lvHold_kept)
    | (with_reducible apply State.endRma_kept)
    | (with_reducible apply State.enumerate_kept)
    | (with_reducible apply State.narrow_kept)
    | (with_reducible apply State.p4Voltage_kept)
    | (exact Sub.of ‹_› (by rfl))
    | (simp only [Kept.mk_iff]; with_reducible apply KeptC.of)
    | (with_reducible exact Or.inr rfl)
    | (with_reducible exact Or.inr ⟨rfl, rfl⟩)
    | (exact Or.inl (Sub.mem ‹_› (by rfl)))
    | (with_reducible rfl)
    | split
    | (dsimp only)

theorem State.flushLog_kept {P : List Part} {u s : State} (hk : Kept P u s)  (hP : Sub [.regs, .vec, .hostMem, .sec] P := by exact Sub.of ‹_› (by rfl)) : Kept P u (State.flushLog s) := by
  unfold State.flushLog
  repeat' first
    | (with_reducible assumption)
    | (with_reducible apply State.logNow_kept)
    | (with_reducible refine Kept.foldl ?_ ?_)
    | (exact Sub.of ‹_› (by rfl))
    | (simp only [Kept.mk_iff]; with_reducible apply KeptC.of)
    | (with_reducible exact Or.inr rfl)
    | (with_reducible exact Or.inr ⟨rfl, rfl⟩)
    | (exact Or.inl (Sub.mem ‹_› (by rfl)))
    | (with_reducible rfl)
    | (intro _)
    | split
    | (dsimp only)

theorem State.lateReleases_kept {P : List Part} {u s : State} (hk : Kept P u s)  (hP : Sub [.regs, .syn] P := by exact Sub.of ‹_› (by rfl)) : Kept P u (State.lateReleases s) := by
  unfold State.lateReleases
  repeat' first
    | (with_reducible assumption)
    | (with_reducible apply State.releaseBlock_kept)
    | (with_reducible refine Kept.foldl ?_ ?_)
    | (exact Sub.of ‹_› (by rfl))
    | (intro _)
    | split
    | (dsimp only)

theorem State.warmUp_kept {P : List Part} {u s : State} (hk : Kept P u s)  (hP : Sub [.regs, .xpt, .fst, .che, .sou, .aud, .vec, .hostMem, .lv, .syn, .sec, .rst] P := by exact Sub.of ‹_› (by rfl)) : Kept P u (State.warmUp s) := by
  unfold State.warmUp
  repeat' first
    | (with_reducible assumption)
    | (with_reducible apply State.set_kept)
    | (with_reducible apply State.reapAll_kept)
    | (with_reducible apply State.flushLog_kept)
    | (with_reducible apply State.lateReleases_kept)
    | (with_reducible refine Kept.foldl ?_ ?_)
    | (exact Sub.of ‹_› (by rfl))
    | (simp only [Kept.mk_iff]; with_reducible apply KeptC.of)
    | (with_reducible exact Or.inr rfl)
    | (with_reducible exact Or.inr ⟨rfl, rfl⟩)
    | (exact Or.inl (Sub.mem ‹_› (by rfl)))
    | (with_reducible rfl)
    | (intro _)
    | split
    | (dsimp only)

theorem State.startRefs_kept {P : List Part} {u s : State} (hk : Kept P u s)  (hP : Sub [.regs] P := by exact Sub.of ‹_› (by rfl)) : Kept P u (State.startRefs s) := by
  unfold State.startRefs
  repeat' first
    | (with_reducible assumption)
    | (with_reducible apply State.setIn_kept)
    | (with_reducible refine Kept.foldl ?_ ?_)
    | (exact Sub.of ‹_› (by rfl))
    | (intro _)
    | split
    | (dsimp only)

theorem State.startSyns_kept {P : List Part} {u s : State} (hk : Kept P u s)  (hP : Sub [.regs, .syn] P := by exact Sub.of ‹_› (by rfl)) : Kept P u (State.startSyns s) := by
  unfold State.startSyns
  repeat' first
    | (with_reducible assumption)
    | (with_reducible apply State.synStart_kept)
    | (with_reducible refine Kept.foldl ?_ ?_)
    | (exact Sub.of ‹_› (by rfl))
    | (intro _)
    | split
    | (dsimp only)

theorem State.openSession_kept {P : List Part} {u s : State} (hk : Kept P u s)  (hP : Sub [.regs, .axl] P := by exact Sub.of ‹_› (by rfl)) : Kept P u (State.openSession s) := by
  unfold State.openSession
  repeat' first
    | (with_reducible assumption)
    | (with_reducible apply State.writeRec_kept)
    | (exact Sub.of ‹_› (by rfl))
    | (simp only [Kept.mk_iff]; with_reducible apply KeptC.of)
    | (with_reducible exact Or.inr rfl)
    | (with_reducible exact Or.inr ⟨rfl, rfl⟩)
    | (exact Or.inl (Sub.mem ‹_› (by rfl)))
    | (with_reducible rfl)
    | (dsimp only)

theorem State.setReady_kept {P : List Part} {u s : State} (hk : Kept P u s) (hP : Sub [.regs, .lv, .sec, .rst] P := by exact Sub.of ‹_› (by rfl)) : Kept P u (State.setReady s) := by
  unfold State.setReady
  extract_lets s1 q s2 firm n r s4 q4
  have h1 : Kept P u s1 := State.set_kept (State.set_kept hk _ _ _) _ _ _
  clear_value s1
  have h2 : Kept P u s2 := Kept.upd_lv h1 _
  clear_value s2
  have h4 : Kept P u s4 := Kept.ite (fun _ => State.set_kept (Kept.upd_sec h2 _) _ _ _) fun _ => h2
  clear_value s4
  exact Kept.upd_rst h4 _

theorem State.startPlane_kept {P : List Part} {u s : State} (hk : Kept P u s) (m : Slack) (hP : Sub [.regs, .free, .media, .xpt, .fst, .fstMem, .che, .sou, .aud, .vec, .ref, .syn, .flt, .axl, .hsf] P := by exact Sub.of ‹_› (by rfl)) : Kept P u (State.startPlane s m) := by
  unfold State.startPlane
  repeat' first
    | (with_reducible assumption)
    | (with_reducible apply State.txRefresh_kept)
    | (with_reducible apply State.fence_kept)
    | (refine State.fence_kept' ?_ (by with_reducible assumption))
    | (with_reducible apply State.setEpoch_kept)
    | (with_reducible apply State.setRole_kept)
    | (with_reducible apply State.enterEnd_kept)
    | (with_reducible apply State.readSlack_kept)
    | (with_reducible apply State.startRefs_kept)
    | (with_reducible apply State.startSyns_kept)
    | (with_reducible apply State.openSession_kept)
    | (with_reducible refine Kept.foldl ?_ ?_)
    | (exact Sub.of ‹_› (by rfl))
    | (intro _)
    | split
    | (dsimp only)

theorem State.planeUp_kept {P : List Part} {u s : State} (hk : Kept P u s)  (hP : Sub [.regs, .vec, .lv, .sec, .flt, .rst, .hsf] P := by exact Sub.of ‹_› (by rfl)) : Kept P u (State.planeUp s) := by
  unfold State.planeUp
  repeat' first
    | (with_reducible assumption)
    | (with_reducible apply State.raiseOver_kept)
    | (with_reducible apply State.queueRec_kept)
    | (with_reducible apply State.setReady_kept)
    | (with_reducible refine Kept.foldl ?_ ?_)
    | (exact Sub.of ‹_› (by rfl))
    | (simp only [Kept.mk_iff]; with_reducible apply KeptC.of)
    | (with_reducible exact Or.inr rfl)
    | (with_reducible exact Or.inr ⟨rfl, rfl⟩)
    | (exact Or.inl (Sub.mem ‹_› (by rfl)))
    | (with_reducible rfl)
    | (intro _)
    | split
    | (dsimp only)

theorem State.planeEnd_kept {P : List Part} {u s : State} {o : Option State} (hk : Kept P u s) (ho : ∀ t, o = some t → Kept P u t) (hP : Sub [.regs, .vec, .lv, .sec, .flt, .rst, .hsf] P := by exact Sub.of ‹_› (by rfl)) : Kept P u (State.planeEnd s o) := by
  cases o with
  | none => exact State.setVState_kept (Kept.upd_hsf hk _) _
  | some v => exact State.planeUp_kept (ho v rfl)

theorem State.warmOver_kept {P : List Part} {u s : State} (hk : Kept P u s)  (hP : Sub [.regs, .vec, .lv, .rst] P := by exact Sub.of ‹_› (by rfl)) : Kept P u (State.warmOver s) := by
  unfold State.warmOver
  repeat' first
    | (with_reducible assumption)
    | (with_reducible apply State.raise_kept)
    | (exact Sub.of ‹_› (by rfl))
    | (simp only [Kept.mk_iff]; with_reducible apply KeptC.of)
    | (with_reducible exact Or.inr rfl)
    | (with_reducible exact Or.inr ⟨rfl, rfl⟩)
    | (exact Or.inl (Sub.mem ‹_› (by rfl)))
    | (with_reducible rfl)
    | (dsimp only)

theorem State.blkRes_kept {P : List Part} {u s : State} (hk : Kept P u s) (c : Nat) (i : Nat) (res : Nat) (hP : Sub [.regs] P := by exact Sub.of ‹_› (by rfl)) : Kept P u (State.blkRes s c i res) := by
  unfold State.blkRes
  repeat' first
    | (with_reducible assumption)
    | (with_reducible apply State.set_kept)
    | (exact Sub.of ‹_› (by rfl))
    | (dsimp only)

theorem State.blkErr_kept {P : List Part} {u s : State} (hk : Kept P u s) (c : Nat) (i : Nat) (res : Nat) (hP : Sub [.regs, .vec] P := by exact Sub.of ‹_› (by rfl)) : Kept P u (State.blkErr s c i res) := by
  unfold State.blkErr
  repeat' first
    | (with_reducible assumption)
    | (with_reducible apply State.raise_kept)
    | (with_reducible apply State.blkRes_kept)
    | (exact Sub.of ‹_› (by rfl))
    | (dsimp only)

theorem State.blockResetAssert_kept {P : List Part} {u s : State} (hk : Kept P u s) (v : Nat) (hP : Sub [.regs, .free, .media, .xpt, .fst, .che, .sou, .aud, .host, .vec, .hostMem, .ref, .syn, .sec, .axl] P := by exact Sub.of ‹_› (by rfl)) : Kept P u (State.blockResetAssert s v) := by
  unfold State.blockResetAssert
  repeat' first
    | (with_reducible assumption)
    | (with_reducible apply State.set_kept)
    | (with_reducible apply State.holdBlock_kept)
    | (with_reducible apply State.sdiInputs_kept)
    | (with_reducible apply State.blkRes_kept)
    | (with_reducible apply State.blkErr_kept)
    | (exact Sub.of ‹_› (by rfl))
    | split
    | (dsimp only)

theorem State.blockResetRelease_kept {P : List Part} {u s : State} (hk : Kept P u s) (v : Nat) (clk : Bool) (hP : Sub [.regs, .syn] P := by exact Sub.of ‹_› (by rfl)) : Kept P u (State.blockResetRelease s v clk) := by
  unfold State.blockResetRelease
  repeat' first
    | (with_reducible assumption)
    | (with_reducible apply State.set_kept)
    | (with_reducible apply State.releaseBlock_kept)
    | (with_reducible apply State.blkRes_kept)
    | (exact Sub.of ‹_› (by rfl))
    | split
    | (dsimp only)

end Sys2Proof.Machine
end

