-- ==== Sys2Proof/Laws/KeptRegRead.lean ====
section
/-! SUPPORT. The operations of Machine/RegRead.lean keep the queue and the canonical forms, and which parts of the state they may change. -/
set_option Elab.async false
namespace Sys2Proof.Machine

theorem State.regRead_kept {P : List Part} {u s : State} (hk : Kept P u s) (m : Nat) (a : Nat) (hP : Sub [.snap] P := by exact Sub.of ‹_› (by rfl)) : Kept P u (State.regRead s m a).2 := by
  unfold State.regRead
  repeat' first
    | (with_reducible assumption)
    | (with_reducible refine Kept.foldl ?_ ?_)
    | (exact Sub.of ‹_› (by rfl))
    | (simp only [Kept.mk_iff]; with_reducible apply KeptC.of)
    | (with_reducible exact Or.inr rfl)
    | (with_reducible exact Or.inr ⟨rfl, rfl⟩)
    | (exact Or.inl (Sub.mem ‹_› (by rfl)))
    | (with_reducible rfl)
    | (intro _)
    | split
    | (dsimp only)

theorem State.regRead_kept' {P : List Part} {u s t : State} {r₀ : Word} {m : Nat} {a : Nat} (hk : Kept P u s) (he₀ : (State.regRead s m a) = (r₀, t)) (hP : Sub [.snap] P := by exact Sub.of ‹_› (by rfl)) : Kept P u t := by
  have := State.regRead_kept hk m a
  rw [he₀] at this; exact this

theorem State.regReads_kept {P : List Part} {u : State} {s : State} (hk : Kept P u s) (m a n : Nat) (hP : Sub [.snap] P := by exact Sub.of ‹_› (by rfl)) : Kept P u (s.regReads m a n).2 := by
  induction n generalizing s a with
  | zero => exact hk
  | succ n ih => exact ih (State.regRead_kept hk m a) _

end Sys2Proof.Machine
end

