-- ==== Sys2Proof/Laws/KeptSynth.lean ====
section
/-! SUPPORT. The operations of Machine/Synth.lean keep the queue and the canonical forms, and which parts of the state they may change. -/
set_option Elab.async false
namespace Sys2Proof.Machine

theorem State.synWrite_kept {P : List Part} {u s : State} (hk : Kept P u s) (n : Nat) (v : Nat) (t₁ : Nat) (hP : Sub [.regs, .media, .xpt, .sou, .aud, .vec, .syn] P := by exact Sub.of ‹_› (by rfl)) : Kept P u (State.synWrite s n v t₁) := by
  unfold State.synWrite
  repeat' first
    | (with_reducible assumption)
    | (with_reducible apply State.set_kept)
    | (with_reducible apply State.at__kept)
    | (with_reducible apply State.raise_kept)
    | (with_reducible apply State.setSyn_kept)
    | (with_reducible apply State.synEnd_kept)
    | (with_reducible apply State.synStop_kept)
    | (with_reducible apply State.synFreeze_kept)
    | (with_reducible apply State.synSeek_kept)
    | (with_reducible apply State.synTarget_kept)
    | (with_reducible apply State.synOff_kept)
    | (with_reducible apply State.synStart_kept)
    | (exact Sub.of ‹_› (by rfl))
    | (with_reducible refine Kept.ite (fun _ => ?_) fun _ => ?_)
    | split
    | (dsimp only)

theorem State.startSeg_kept {P : List Part} {u s : State} (hk : Kept P u s) (n : Nat) (k : Nat) (b : Int) (sl : Nat) (l : List (Int × Nat)) (r : Int) (o : Int) (hP : Sub [.syn] P := by exact Sub.of ‹_› (by rfl)) : Kept P u (State.startSeg s n k b sl l r o) := by
  unfold State.startSeg
  repeat' first
    | (with_reducible assumption)
    | (with_reducible apply State.setSyn_kept)
    | (exact Sub.of ‹_› (by rfl))
    | (dsimp only)

theorem State.rampGo_kept {P : List Part} {u s : State} (hk : Kept P u s) (n : Fin 16) (last : Nat) (t₁ : Nat) (hP : Sub [.regs, .vec, .syn] P := by exact Sub.of ‹_› (by rfl)) : Kept P u (State.rampGo s n last t₁) := by
  unfold State.rampGo
  repeat' first
    | (with_reducible assumption)
    | (with_reducible apply State.set_kept)
    | (with_reducible apply State.at__kept)
    | (with_reducible apply State.raise_kept)
    | (with_reducible apply State.startSeg_kept)
    | (exact Sub.of ‹_› (by rfl))
    | (intro _)
    | split
    | (dsimp only)

theorem State.rampAbort_kept {P : List Part} {u s : State} (hk : Kept P u s) (n : Fin 16) (t₁ : Nat) (hP : Sub [.syn] P := by exact Sub.of ‹_› (by rfl)) : Kept P u (State.rampAbort s n t₁) := by
  unfold State.rampAbort
  repeat' first
    | (with_reducible assumption)
    | (with_reducible apply State.at__kept)
    | (with_reducible apply State.setSyn_kept)
    | (exact Sub.of ‹_› (by rfl))
    | split
    | (dsimp only)

end Sys2Proof.Machine
end

