-- ==== Sys2Proof/Laws/KeptRegWrite.lean ====
section
/-! SUPPORT. The operations of Machine/RegWrite.lean keep the queue and the canonical forms, and which parts of the state they may change. -/
set_option Elab.async false
namespace Sys2Proof.Machine

theorem State.storeReg_kept {P : List Part} {u s : State} (hk : Kept P u s) (a : Nat) (v : Word) (mask : Word) (hP : Sub [.regs] P := by exact Sub.of ‹_› (by rfl)) : Kept P u (State.storeReg s a v mask) := by
  unfold State.storeReg
  repeat' first
    | (with_reducible assumption)
    | (with_reducible apply State.wr_kept)
    | (exact Sub.of ‹_› (by rfl))
    | split
    | (dsimp only)

theorem State.maskRaise_kept {P : List Part} {u s : State} (hk : Kept P u s) (a : Nat) (old : Word) (hP : Sub [.vec] P := by exact Sub.of ‹_› (by rfl)) : Kept P u (State.maskRaise s a old) := by
  unfold State.maskRaise
  repeat' first
    | (with_reducible assumption)
    | (with_reducible apply State.raiseVec_kept)
    | (with_reducible refine Kept.foldl ?_ ?_)
    | (exact Sub.of ‹_› (by rfl))
    | (intro _)
    | (dsimp only)

theorem State.plainWrite_kept {P : List Part} {u s : State} (hk : Kept P u s) (a : Nat) (v : Word) (hP : Sub [.regs, .vec] P := by exact Sub.of ‹_› (by rfl)) : Kept P u (State.plainWrite s a v) := by
  unfold State.plainWrite
  repeat' first
    | (with_reducible assumption)
    | (with_reducible apply State.storeReg_kept)
    | (with_reducible apply State.maskRaise_kept)
    | (exact Sub.of ‹_› (by rfl))
    | (dsimp only)

theorem State.wrRst_kept {P : List Part} {u s : State} (hk : Kept P u s) (a : Nat) (v : Word) (f : Found) (hP : Sub [.regs, .taken, .snap, .free, .media, .xpt, .fst, .fstMem, .che, .sou, .aud, .host, .vec, .hostMem, .lv, .ref, .syn, .sec, .flt, .axl, .rst, .hsf, .mtx, .mate, .pkg] P := by exact Sub.of ‹_› (by rfl)) : Kept P u (State.wrRst s a v f) := by
  unfold State.wrRst
  repeat' first
    | (with_reducible assumption)
    | (with_reducible apply State.softwareResetRequest_kept)
    | (with_reducible apply State.blockResetAssert_kept)
    | (with_reducible apply State.blockResetRelease_kept)
    | (with_reducible apply State.plainWrite_kept)
    | (exact Sub.of ‹_› (by rfl))
    | split
    | (dsimp only)

theorem State.wrFlt_kept {P : List Part} {u s : State} (hk : Kept P u s) (a : Nat) (v : Word) (t₁ : Nat) (hP : Sub [.regs, .free, .vec, .flt] P := by exact Sub.of ‹_› (by rfl)) : Kept P u (State.wrFlt s a v t₁) := by
  unfold State.wrFlt
  repeat' first
    | (with_reducible assumption)
    | (with_reducible apply State.fltAckWrite_kept)
    | (with_reducible apply State.fltUnfenceWrite_kept)
    | (with_reducible apply State.plainWrite_kept)
    | (exact Sub.of ‹_› (by rfl))
    | split
    | (dsimp only)

theorem State.wrRefIn_kept {P : List Part} {u s : State} (hk : Kept P u s) (i : Nat) (v : Word) (t₁ : Nat) (hP : Sub [.regs, .free, .media, .xpt, .fst, .che, .sou, .aud, .host, .vec, .hostMem, .ref, .syn, .sec, .axl] P := by exact Sub.of ‹_› (by rfl)) : Kept P u (State.wrRefIn s i v t₁) := by
  unfold State.wrRefIn
  repeat' first
    | (with_reducible assumption)
    | (with_reducible apply State.refInEnWrite_kept)
    | (with_reducible apply State.refInSrcWrite_kept)
    | (with_reducible apply State.refPrioWrite_kept)
    | (exact Sub.of ‹_› (by rfl))
    | (intro _)
    | split
    | (dsimp only)

theorem State.wrRef_kept {P : List Part} {u s : State} (hk : Kept P u s) (a : Nat) (v : Word) (t : Nat) (hP : Sub [.regs, .taken, .free, .media, .xpt, .fst, .che, .sou, .aud, .host, .vec, .hostMem, .ref, .syn, .sec, .axl] P := by exact Sub.of ‹_› (by rfl)) : Kept P u (State.wrRef s a v t) := by
  unfold State.wrRef
  extract_lets s' i k
  have h1 : Kept P u s' := State.storeReg_kept hk _ _ _
  clear_value s'
  have p : ∀ w, Kept P u (s.plainWrite a w) := fun w => State.plainWrite_kept hk a w
  refine Kept.ite (fun _ => Kept.ite (fun _ => h1) fun _ => State.refForceWrite_kept h1 _ _ _) fun _ => ?_
  refine Kept.ite (fun _ => State.refQualWrite_kept hk _ _ _) fun _ => ?_
  refine Kept.ite (fun _ => Kept.ite (fun _ => hk) fun _ => State.wr_kept hk _ _) fun _ => ?_
  refine Kept.ite (fun _ => State.todWrite_kept hk _ _) fun _ => ?_
  refine Kept.ite (fun _ => p _) fun _ => ?_
  refine Kept.ite (fun _ => p _) fun _ => ?_
  refine Kept.ite (fun _ => p _) fun _ => ?_
  refine Kept.ite (fun _ => p _) fun _ => ?_
  refine Kept.ite (fun _ => ?_) fun _ => Kept.ite (fun _ => ?_) fun _ => p _
  · exact Kept.ite (fun _ => State.wrRefIn_kept hk _ _ _) fun _ => Kept.ite (fun _ => p _) fun _ => p _
  · exact Kept.ite (fun _ => p _) fun _ => p _

theorem State.wrSyn_kept {P : List Part} {u s : State} (hk : Kept P u s) (a : Nat) (v : Word) (t₁ : Nat) (hP : Sub [.regs, .media, .xpt, .sou, .aud, .vec, .syn] P := by exact Sub.of ‹_› (by rfl)) : Kept P u (State.wrSyn s a v t₁) := by
  unfold State.wrSyn
  repeat' first
    | (with_reducible assumption)
    | (with_reducible apply State.at__kept)
    | (with_reducible apply State.synFreeze_kept)
    | (with_reducible apply State.synWrite_kept)
    | (with_reducible apply State.rampGo_kept)
    | (with_reducible apply State.rampAbort_kept)
    | (with_reducible apply State.plainWrite_kept)
    | (exact Sub.of ‹_› (by rfl))
    | split
    | (dsimp only)

theorem State.lcRequest_kept {P : List Part} {u s : State} (hk : Kept P u s) (v : Word) (tok : Option Token) (hP : Sub [.regs, .free, .media, .xpt, .fst, .aud, .vec, .hostMem, .ref, .sec, .axl] P := by exact Sub.of ‹_› (by rfl)) : Kept P u (State.lcRequest s v tok) := by
  unfold State.lcRequest
  repeat' first
    | (with_reducible assumption)
    | (with_reducible apply State.lcTry_kept)
    | (with_reducible apply State.lcProvision_kept)
    | (with_reducible apply State.lcField_kept)
    | (with_reducible apply State.lcRma_kept)
    | (with_reducible apply State.lcEnd_kept)
    | (with_reducible apply State.vendorDebugSession_kept)
    | (exact Sub.of ‹_› (by rfl))
    | (intro _)
    | split
    | (dsimp only)

theorem State.wrSec_kept {P : List Part} {u s : State} (hk : Kept P u s) (a : Nat) (v : Word) (f : Found) (hP : Sub [.regs, .taken, .free, .media, .xpt, .fst, .aud, .vec, .hostMem, .ref, .sec, .axl] P := by exact Sub.of ‹_› (by rfl)) : Kept P u (State.wrSec s a v f) := by
  unfold State.wrSec
  repeat' first
    | (with_reducible assumption)
    | (with_reducible apply State.logTailWrite_kept)
    | (with_reducible apply State.logSetup_kept)
    | (with_reducible apply State.plainWrite_kept)
    | (with_reducible apply State.lcRequest_kept)
    | (exact Sub.of ‹_› (by rfl))
    | split
    | (dsimp only)

theorem State.wrAxl_kept {P : List Part} {u s : State} (hk : Kept P u s) (a : Nat) (v : Word) (f : Found) (hP : Sub [.regs, .media, .xpt, .fst, .fstMem, .che, .sou, .aud, .vec, .syn, .flt, .axl, .hsf] P := by exact Sub.of ‹_› (by rfl)) : Kept P u (State.wrAxl s a v f) := by
  unfold State.wrAxl
  repeat' first
    | (with_reducible assumption)
    | (with_reducible apply State.axlCtl_kept)
    | (with_reducible apply State.presetCapture_kept)
    | (with_reducible apply State.plainWrite_kept)
    | (exact Sub.of ‹_› (by rfl))
    | split
    | (dsimp only)

theorem State.domMoved_kept {P : List Part} {u s : State} (hk : Kept P u s)  (s0 : State) (hP : Sub [.media] P := by exact Sub.of ‹_› (by rfl)) : Kept P u (State.domMoved s s0) := by
  unfold State.domMoved
  repeat' first
    | (with_reducible assumption)
    | (exact Sub.of ‹_› (by rfl))
    | (simp only [Kept.mk_iff]; with_reducible apply KeptC.of)
    | (with_reducible exact Or.inr rfl)
    | (with_reducible exact Or.inr ⟨rfl, rfl⟩)
    | (exact Or.inl (Sub.mem ‹_› (by rfl)))
    | (with_reducible rfl)
    | split
    | (dsimp only)

theorem State.wrMate_kept {P : List Part} {u s : State} (hk : Kept P u s) (a : Nat) (v : Word) (hP : Sub [.regs, .taken, .media, .vec] P := by exact Sub.of ‹_› (by rfl)) : Kept P u (State.wrMate s a v) := by
  unfold State.wrMate
  repeat' first
    | (with_reducible assumption)
    | (with_reducible apply State.takeSetting_kept)
    | (with_reducible apply State.plainWrite_kept)
    | (with_reducible apply State.domMoved_kept)
    | (exact Sub.of ‹_› (by rfl))
    | split
    | (dsimp only)

theorem State.wrHsf_kept {P : List Part} {u s : State} (hk : Kept P u s) (a : Nat) (v : Word) (hP : Sub [.regs, .vec, .hsf] P := by exact Sub.of ‹_› (by rfl)) : Kept P u (State.wrHsf s a v) := by
  unfold State.wrHsf
  repeat' first
    | (with_reducible assumption)
    | (with_reducible apply State.vctlWrite_kept)
    | (with_reducible apply State.plainWrite_kept)
    | (exact Sub.of ‹_› (by rfl))
    | split
    | (dsimp only)

theorem State.wrLvp_kept {P : List Part} {u s : State} (hk : Kept P u s) (a : Nat) (v : Word) (t₁ : Nat) (hP : Sub [.regs, .media, .aud, .host, .vec, .lv, .axl, .mate] P := by exact Sub.of ‹_› (by rfl)) : Kept P u (State.wrLvp s a v t₁) := by
  unfold State.wrLvp
  repeat' first
    | (with_reducible assumption)
    | (with_reducible apply State.lvpWinWrite_kept)
    | (with_reducible apply State.plainWrite_kept)
    | (exact Sub.of ‹_› (by rfl))
    | split
    | (dsimp only)

theorem State.wrRxCtl_kept {P : List Part} {u s : State} (hk : Kept P u s) (n : Nat) (v : Word) (t₁ : Nat) (hP : Sub [.regs, .free, .media, .xpt, .fst, .che, .sou, .aud, .host, .vec, .hostMem, .ref, .syn, .sec, .axl] P := by exact Sub.of ‹_› (by rfl)) : Kept P u (State.wrRxCtl s n v t₁) := by
  unfold State.wrRxCtl
  repeat' first
    | (with_reducible assumption)
    | (with_reducible apply State.set_kept)
    | (with_reducible apply State.rxLoss_kept)
    | (with_reducible apply State.rateForceWrite_kept)
    | (with_reducible apply State.multiWrite_kept)
    | (with_reducible apply State.sdiInputs_kept)
    | (with_reducible apply State.storeReg_kept)
    | (exact Sub.of ‹_› (by rfl))
    | split
    | (dsimp only)

theorem State.wrTxCtl_kept {P : List Part} {u s : State} (hk : Kept P u s) (n : Nat) (v : Word) (t₁ : Nat) (hP : Sub [.regs, .media, .vec] P := by exact Sub.of ‹_› (by rfl)) : Kept P u (State.wrTxCtl s n v t₁) := by
  unfold State.wrTxCtl
  repeat' first
    | (with_reducible assumption)
    | (with_reducible apply State.at__kept)
    | (with_reducible apply State.multiWrite_kept)
    | (with_reducible apply State.txPower_kept)
    | (with_reducible apply State.storeReg_kept)
    | (exact Sub.of ‹_› (by rfl))
    | split
    | (dsimp only)

theorem State.wrQe_kept {P : List Part} {u s : State} (hk : Kept P u s) (q : Nat) (o : Nat) (v : Word) (hP : Sub [.regs, .taken, .vec] P := by exact Sub.of ‹_› (by rfl)) : Kept P u (State.wrQe s q o v) := by
  unfold State.wrQe
  repeat' first
    | (with_reducible assumption)
    | (with_reducible apply State.takeSetting_kept)
    | (with_reducible apply State.qeDown_kept)
    | (with_reducible apply State.qeModeWrite_kept)
    | (with_reducible apply State.storeReg_kept)
    | (with_reducible apply State.plainWrite_kept)
    | (with_reducible refine Kept.foldl ?_ ?_)
    | (exact Sub.of ‹_› (by rfl))
    | (intro _)
    | split
    | (dsimp only)

theorem State.wrQuad_kept {P : List Part} {u s : State} (hk : Kept P u s) (q : Nat) (w : Nat) (v : Word) (t₁ : Nat) (hP : Sub [.regs, .taken, .free, .media, .xpt, .fst, .che, .sou, .aud, .host, .vec, .hostMem, .ref, .syn, .sec, .axl] P := by exact Sub.of ‹_› (by rfl)) : Kept P u (State.wrQuad s q w v t₁) := by
  unfold State.wrQuad
  repeat' first
    | (with_reducible assumption)
    | (with_reducible apply State.takeSetting_kept)
    | (with_reducible apply State.setUnit_kept)
    | (with_reducible apply State.clkLost_kept)
    | (with_reducible apply State.aesoWrite_kept)
    | (with_reducible apply State.plainWrite_kept)
    | (with_reducible apply State.wrRxCtl_kept)
    | (with_reducible apply State.wrTxCtl_kept)
    | (with_reducible apply State.wrQe_kept)
    | (exact Sub.of ‹_› (by rfl))
    | split
    | (dsimp only)

theorem State.stillOk_kept {P : List Part} {u s : State} (hk : Kept P u s) (n : Nat) (hP : Sub [.regs] P := by exact Sub.of ‹_› (by rfl)) : Kept P u (State.stillOk s n) := by
  unfold State.stillOk
  repeat' first
    | (with_reducible assumption)
    | (with_reducible apply State.set_kept)
    | (with_reducible refine Kept.foldl ?_ ?_)
    | (exact Sub.of ‹_› (by rfl))
    | (intro _)
    | split
    | (dsimp only)

theorem State.windowCfg_kept {P : List Part} {u s : State} (hk : Kept P u s) (a : Nat) (v : Word) (hP : Sub [.regs, .vec] P := by exact Sub.of ‹_› (by rfl)) : Kept P u (State.windowCfg s a v) := by
  unfold State.windowCfg
  repeat' first
    | (with_reducible assumption)
    | (with_reducible apply State.dirty_kept)
    | (with_reducible apply State.plainWrite_kept)
    | (with_reducible refine Kept.foldl ?_ ?_)
    | (exact Sub.of ‹_› (by rfl))
    | (intro _)
    | split
    | (dsimp only)

theorem State.wrXpt_kept {P : List Part} {u s : State} (hk : Kept P u s) (a : Nat) (o : Nat) (v : Word) (hP : Sub [.regs, .xpt, .vec] P := by exact Sub.of ‹_› (by rfl)) : Kept P u (State.wrXpt s a o v) := by
  unfold State.wrXpt
  repeat' first
    | (with_reducible assumption)
    | (with_reducible apply State.dirty_kept)
    | (with_reducible apply State.setRoute_kept)
    | (with_reducible apply State.leapRateCheck_kept)
    | (with_reducible apply State.pgWrite_kept)
    | (with_reducible apply State.ufmtWrite_kept)
    | (with_reducible apply State.plainWrite_kept)
    | (with_reducible apply State.stillOk_kept)
    | (with_reducible apply State.windowCfg_kept)
    | (exact Sub.of ‹_› (by rfl))
    | (simp only [Kept.mk_iff]; with_reducible apply KeptC.of)
    | (with_reducible exact Or.inr rfl)
    | (with_reducible exact Or.inr ⟨rfl, rfl⟩)
    | (exact Or.inl (Sub.mem ‹_› (by rfl)))
    | (with_reducible rfl)
    | split
    | (dsimp only)

theorem State.wrAud_kept {P : List Part} {u s : State} (hk : Kept P u s) (a : Nat) (o : Nat) (v : Word) (hP : Sub [.regs, .vec] P := by exact Sub.of ‹_› (by rfl)) : Kept P u (State.wrAud s a o v) := by
  unfold State.wrAud
  repeat' first
    | (with_reducible assumption)
    | (with_reducible apply State.plainWrite_kept)
    | (exact Sub.of ‹_› (by rfl))
    | split
    | (dsimp only)

theorem State.wrRng_kept {P : List Part} {u s : State} (hk : Kept P u s) (a : Nat) (v : Word) (hP : Sub [.regs, .xpt, .fst, .che, .sou, .aud, .host, .vec, .hostMem, .sec] P := by exact Sub.of ‹_› (by rfl)) : Kept P u (State.wrRng s a v) := by
  unfold State.wrRng
  repeat' first
    | (with_reducible assumption)
    | (with_reducible apply State.cfgErr_kept)
    | (with_reducible apply State.ringEnable_kept)
    | (with_reducible apply State.ringDisable_kept)
    | (with_reducible apply State.ringAbandon_kept)
    | (with_reducible apply State.plainWrite_kept)
    | (exact Sub.of ‹_› (by rfl))
    | split
    | (dsimp only)

theorem State.wrMsix_kept {P : List Part} {u s : State} (hk : Kept P u s) (o : Nat) (v : Word) (hP : Sub [.host, .vec] P := by exact Sub.of ‹_› (by rfl)) : Kept P u (State.wrMsix s o v) := by
  unfold State.wrMsix
  repeat' first
    | (with_reducible assumption)
    | (with_reducible apply State.raiseVec_kept)
    | (exact Sub.of ‹_› (by rfl))
    | (simp only [Kept.mk_iff]; with_reducible apply KeptC.of)
    | (with_reducible exact Or.inr rfl)
    | (with_reducible exact Or.inr ⟨rfl, rfl⟩)
    | (exact Or.inl (Sub.mem ‹_› (by rfl)))
    | (with_reducible rfl)
    | split
    | (dsimp only)

theorem State.regWrite_kept {P : List Part} {u s : State} (hk : Kept P u s) (a : Nat) (v : Word) (t : Nat) (f : Found) (hP : Sub [.regs, .taken, .snap, .free, .media, .xpt, .fst, .fstMem, .che, .sou, .aud, .host, .vec, .hostMem, .lv, .ref, .syn, .sec, .flt, .axl, .rst, .hsf, .mtx, .mate, .pkg] P := by exact Sub.of ‹_› (by rfl)) : Kept P u (State.regWrite s a v t f) := by
  unfold State.regWrite
  refine State.afterWrite_kept ?_ s
  have p : Kept P u (s.plainWrite a v) := State.plainWrite_kept hk a v
  refine Kept.ite (fun _ => State.wrMsix_kept hk _ _) fun _ => ?_
  refine Kept.ite (fun _ => hk) fun _ => ?_
  refine Kept.ite (fun _ => p) fun _ => ?_
  refine Kept.ite (fun _ => State.wrRst_kept hk _ _ _) fun _ => ?_
  refine Kept.ite (fun _ => p) fun _ => ?_
  refine Kept.ite (fun _ => State.wrFlt_kept hk _ _ _) fun _ => ?_
  refine Kept.ite (fun _ => State.wrRef_kept hk _ _ _) fun _ => ?_
  refine Kept.ite (fun _ => State.wrSyn_kept hk _ _ _) fun _ => ?_
  refine Kept.ite (fun _ => State.wrSec_kept hk _ _ _) fun _ => ?_
  refine Kept.ite (fun _ => State.wrAxl_kept hk _ _ _) fun _ => ?_
  refine Kept.ite (fun _ => State.wrMate_kept hk _ _) fun _ => ?_
  refine Kept.ite (fun _ => State.wrHsf_kept hk _ _) fun _ => ?_
  refine Kept.ite (fun _ => State.wrLvp_kept hk _ _ _) fun _ => ?_
  refine Kept.ite (fun _ => State.wrQuad_kept hk _ _ _ _) fun _ => ?_
  refine Kept.ite (fun _ => State.wrXpt_kept hk _ _ _) fun _ => ?_
  refine Kept.ite (fun _ => State.wrAud_kept hk _ _ _) fun _ => ?_
  refine Kept.ite (fun _ => p) fun _ => ?_
  exact State.wrRng_kept hk _ _

theorem State.regWrites_kept {P : List Part} {u : State} {s : State} (hk : Kept P u s) (a d t : Nat) (f : Found) (n : Nat) (hP : Sub [.regs, .taken, .snap, .free, .media, .xpt, .fst, .fstMem, .che, .sou, .aud, .host, .vec, .hostMem, .lv, .ref, .syn, .sec, .flt, .axl, .rst, .hsf, .mtx, .mate, .pkg] P := by exact Sub.of ‹_› (by rfl)) : Kept P u (s.regWrites a d t f n) := by
  induction n generalizing s a d with
  | zero => exact hk
  | succ n ih => exact ih (State.regWrite_kept hk _ _ _ _) _ _

end Sys2Proof.Machine
end

