-- ==== Sys2Proof/Laws/KeptAccess.lean ====
section
/-! SUPPORT. The operations of Machine/Access.lean keep the queue and the canonical forms, and which parts of the state they may change. -/
set_option Elab.async false
namespace Sys2Proof.Machine

theorem State.memPut_kept {P : List Part} {u s : State} (hk : Kept P u s) (t₁ : Nat) (a : Nat) (b : Byte) (hP : Sub [.regs, .hostMem, .axl, .mtx] P := by exact Sub.of ‹_› (by rfl)) : Kept P u (State.memPut s t₁ a b) := by
  unfold State.memPut
  repeat' first
    | (with_reducible assumption)
    | (with_reducible apply State.set_kept)
    | (with_reducible apply State.dirty_kept)
    | (exact Sub.of ‹_› (by rfl))
    | (simp only [Kept.mk_iff]; with_reducible apply KeptC.of_mem)
    | (with_reducible exact Or.inr rfl)
    | (with_reducible exact Or.inr ⟨rfl, rfl⟩)
    | (exact Or.inl (Sub.mem ‹_› (by rfl)))
    | (with_reducible rfl)
    | (with_reducible exact id)
    | (with_reducible exact memWrites_wf _ _ _)
    | (with_reducible exact memWrite_wf _ _ _)
    | (exact foldWrite_wf _ _ _ _)
    | (exact foldSkip_wf _ _ _ _ _ ‹_›)
    | (exact foldWrite_wf _ _ _ _ (tabWf_filter _ _ _ ‹_›))
    | split
    | (dsimp only)

theorem State.memRd_kept {P : List Part} {u s : State} (hk : Kept P u s) (t₁ : Nat) (a : Nat) (n : Nat) (hP : Sub [.free, .mtx] P := by exact Sub.of ‹_› (by rfl)) : Kept P u (State.memRd s t₁ a n) := by
  unfold State.memRd
  repeat' first
    | (with_reducible assumption)
    | (with_reducible apply State.draw_kept)
    | (refine State.draw_kept' ?_ (by with_reducible assumption))
    | (with_reducible apply State.setData_kept)
    | (with_reducible refine Kept.foldl ?_ ?_)
    | (exact Sub.of ‹_› (by rfl))
    | (intro _)
    | split
    | (dsimp only)

theorem State.carry_kept {P : List Part} {u s : State} (hk : Kept P u s) (r : MtxReq) (t : Nat) (hP : Sub [.regs, .taken, .snap, .free, .media, .xpt, .fst, .fstMem, .che, .sou, .aud, .host, .vec, .hostMem, .lv, .ref, .syn, .sec, .flt, .axl, .rst, .hsf, .mtx, .mate, .pkg] P := by exact Sub.of ‹_› (by rfl)) : Kept P u (State.carry s r t) := by
  unfold State.carry
  extract_lets o
  refine Kept.ite (fun _ => Kept.ite (fun _ => ?_) fun _ => ?_) fun _ => Kept.ite (fun _ => ?_) fun _ => ?_
  · exact State.setData_kept (State.regWrites_kept hk _ _ _ _ _) _
  · have h1 := State.regReads_kept hk r.master o (wordsOf r.bytes)
    generalize s.regReads r.master o (wordsOf r.bytes) = p at h1 ⊢
    obtain ⟨d, v⟩ := p
    exact State.setData_kept h1 _
  · exact State.setData_kept (Kept.foldl hk fun v x hv => State.memPut_kept hv _ _ _) _
  · exact State.memRd_kept hk _ _ _

theorem State.editMtx_kept {P : List Part} {u s : State} (hk : Kept P u s) (m : Nat) (o : MtxOut) (f : MtxOut → List MtxOut) (hP : Sub [.mtx] P := by exact Sub.of ‹_› (by rfl)) : Kept P u (State.editMtx s m o f) := by
  unfold State.editMtx
  repeat' first
    | (with_reducible assumption)
    | (with_reducible apply State.setMtxOut_kept)
    | (exact Sub.of ‹_› (by rfl))
    | (dsimp only)

theorem State.grant_kept {P : List Part} {u s : State} (hk : Kept P u s) (m : Nat) (o : MtxOut) (hP : Sub [.regs, .vec, .mtx] P := by exact Sub.of ‹_› (by rfl)) : Kept P u (State.grant s m o) := by
  unfold State.grant
  repeat' first
    | (with_reducible assumption)
    | (with_reducible apply State.refuseAccess_kept)
    | (with_reducible apply State.decodeAnswer_kept)
    | (with_reducible apply State.editMtx_kept)
    | (exact Sub.of ‹_› (by rfl))
    | (simp only [Kept.mk_iff]; with_reducible apply KeptC.of)
    | (with_reducible exact Or.inr rfl)
    | (with_reducible exact Or.inr ⟨rfl, rfl⟩)
    | (exact Or.inl (Sub.mem ‹_› (by rfl)))
    | (with_reducible rfl)
    | (intro _)
    | split
    | (dsimp only)

theorem State.mtxMove_kept {P : List Part} {u s s' : State} (hk : Kept P u s) (h : s.mtxMove = some s') (hP : Sub [.regs, .taken, .snap, .free, .media, .xpt, .fst, .fstMem, .che, .sou, .aud, .host, .vec, .hostMem, .lv, .ref, .syn, .sec, .flt, .axl, .rst, .hsf, .mtx, .mate, .pkg] P := by exact Sub.of ‹_› (by rfl)) :
    Kept P u s' := by
  unfold State.mtxMove at h
  split at h
  · rw [← Option.some.inj h]
    refine State.setData_kept (State.carry_kept ?_ _ _) _
    exact Kept.upd_mtx hk _ rfl
  · split at h
    · exact Option.some.inj h ▸ State.carry_kept (State.editMtx_kept hk _ _ _) _ _
    · obtain ⟨p, _, rfl⟩ := Option.map_eq_some_iff.mp h
      exact State.grant_kept hk _ _

theorem State.mtxSettle_kept {P : List Part} {u : State} (hP : Sub [.regs, .taken, .snap, .free, .media, .xpt, .fst, .fstMem, .che, .sou, .aud, .host, .vec, .hostMem, .lv, .ref, .syn, .sec, .flt, .axl, .rst, .hsf, .mtx, .mate, .pkg] P := by exact Sub.of ‹_› (by rfl)) :
    (k : Nat) → {s : State} → Kept P u s → Kept P u (s.mtxSettle k)
  | 0, _, hk => hk
  | k + 1, s, hk => by
    unfold State.mtxSettle
    split
    · next h => exact State.mtxSettle_kept hP k (State.mtxMove_kept hk h)
    · exact hk

theorem State.countHolds_kept {P : List Part} {u s : State} (hk : Kept P u s)  (hP : Sub [.regs, .mtx] P := by exact Sub.of ‹_› (by rfl)) : Kept P u (State.countHolds s) := by
  unfold State.countHolds
  repeat' first
    | (with_reducible assumption)
    | (with_reducible apply State.inc_kept)
    | (with_reducible apply State.editMtx_kept)
    | (with_reducible refine Kept.foldl ?_ ?_)
    | (exact Sub.of ‹_› (by rfl))
    | (intro _)
    | split
    | (dsimp only)

theorem State.mtxRest_kept {P : List Part} {u s : State} (hk : Kept P u s)  (hP : Sub [.regs, .taken, .snap, .free, .media, .xpt, .fst, .fstMem, .che, .sou, .aud, .host, .vec, .hostMem, .lv, .ref, .syn, .sec, .flt, .axl, .rst, .hsf, .mtx, .mate, .pkg] P := by exact Sub.of ‹_› (by rfl)) : Kept P u (State.mtxRest s) := by
  unfold State.mtxRest
  repeat' first
    | (with_reducible assumption)
    | (with_reducible apply State.mtxSettle_kept)
    | (with_reducible apply State.countHolds_kept)
    | (exact Sub.of ‹_› (by rfl))
    | (dsimp only)

theorem State.mtxRequest_kept {P : List Part} {u s : State} (hk : Kept P u s) (r : MtxReq) (hP : Sub [.regs, .taken, .snap, .free, .media, .xpt, .fst, .fstMem, .che, .sou, .aud, .host, .vec, .hostMem, .lv, .ref, .syn, .sec, .flt, .axl, .rst, .hsf, .mtx, .mate, .pkg] P := by exact Sub.of ‹_› (by rfl)) : Kept P u (State.mtxRequest s r) := by
  unfold State.mtxRequest
  repeat' first
    | (with_reducible assumption)
    | (with_reducible apply State.setMtxOut_kept)
    | (with_reducible apply State.mtxRest_kept)
    | (exact Sub.of ‹_› (by rfl))
    | (simp only [Kept.mk_iff]; with_reducible apply KeptC.of)
    | (with_reducible exact Or.inr rfl)
    | (with_reducible exact Or.inr ⟨rfl, rfl⟩)
    | (exact Or.inl (Sub.mem ‹_› (by rfl)))
    | (with_reducible rfl)
    | (intro _)
    | split
    | (dsimp only)

theorem State.hostGate_kept' {P : List Part} {u s t : State} {r : MtxReq} (hk : Kept P u s) (he₀ : s.hostGate r = some t) (hP : Sub [.regs, .host, .vec, .mtx] P := by exact Sub.of ‹_› (by rfl)) : Kept P u t := by
  unfold State.hostGate at he₀
  extract_lets o at he₀
  split at he₀
  · exact absurd he₀ (by simp)
  · split at he₀
    · rw [← Option.some.inj he₀]
      exact Kept.ite (fun _ => hk) fun _ => State.setData_kept hk _
    · split at he₀
      · rw [← Option.some.inj he₀]
        exact Kept.ite (fun _ => State.setData_kept hk _) fun _ => Kept.ite
          (fun _ => State.ifUp_kept hk fun v hv => State.bar2Write_kept hv _ _) fun _ => hk
      · split at he₀
        · rw [← Option.some.inj he₀]
          exact Kept.ite (fun _ => hk) fun _ => State.setData_kept hk _
        · split at he₀
          · rw [← Option.some.inj he₀]
            exact Kept.ite (fun _ => Kept.ite (fun _ => State.cfgErr_kept hk _) fun _ => hk) fun _ => State.setData_kept hk _
          · exact absurd he₀ (by simp)

theorem State.request_kept {P : List Part} {u s : State} (hk : Kept P u s) (r : MtxReq) (hP : Sub [.regs, .taken, .snap, .free, .media, .xpt, .fst, .fstMem, .che, .sou, .aud, .host, .vec, .hostMem, .lv, .ref, .syn, .sec, .flt, .axl, .rst, .hsf, .mtx, .mate, .pkg] P := by exact Sub.of ‹_› (by rfl)) : Kept P u (State.request s r) := by
  unfold State.request
  split
  · exact State.hostGate_kept' hk ‹_›
  · exact State.mtxRequest_kept hk _

end Sys2Proof.Machine
end

