-- ==== Sys2Proof/Laws/KeptMatrix.lean ====
section
/-! SUPPORT. The operations of Machine/Matrix.lean keep the queue and the canonical forms, and which parts of the state they may change. -/
set_option Elab.async false
namespace Sys2Proof.Machine

theorem State.resetLvPort_kept {P : List Part} {u s : State} (hk : Kept P u s)  (hP : Sub [.regs, .vec, .lv, .mtx] P := by exact Sub.of ‹_› (by rfl)) : Kept P u (State.resetLvPort s) := by
  unfold State.resetLvPort
  repeat' first
    | (with_reducible assumption)
    | (with_reducible apply State.resetMaster_kept)
    | (exact Sub.of ‹_› (by rfl))
    | (simp only [Kept.mk_iff]; with_reducible apply KeptC.of)
    | (with_reducible exact Or.inr rfl)
    | (with_reducible exact Or.inr ⟨rfl, rfl⟩)
    | (exact Or.inl (Sub.mem ‹_› (by rfl)))
    | (with_reducible rfl)
    | (intro _)
    | split
    | (dsimp only)

end Sys2Proof.Machine
end

