-- ==== Sys2Proof/Laws/ExecAudio.lean ====
section
/-! SUPPORT. Each command of Machine/Audio.lean answers a next state, keeps the queue and the canonical forms, and changes only the parts named. -/
set_option Elab.async false
namespace Sys2Proof.Machine

theorem execAudMap_kept (h : Hdr) (a : AudMapReq) (s : State) :
    ∃ t₁, execAudMap h a s = .next t₁ ∧ Kept [.regs, .fst, .aud, .host, .vec, .axl, .hsf, .mate] s t₁ := by
  unfold execAudMap
  refine ⟨_, rfl, ?_⟩
  have hk := Kept.refl [.regs, .fst, .aud, .host, .vec, .axl, .hsf, .mate] s
  have hP := Sub.self [.regs, .fst, .aud, .host, .vec, .axl, .hsf, .mate]
  repeat' first
    | (with_reducible assumption)
    | (with_reducible apply State.desc_kept)
    | (with_reducible apply audMapBody_kept)
    | (with_reducible exact Kept.refl _ _)
    | (exact Sub.of ‹_› (by rfl))
    | (intro _)
    | (with_reducible exact Adm.kept_bad ..)
    | (with_reducible exact Adm.kept_badData ..)
    | (with_reducible exact Adm.kept_short ..)
    | (with_reducible exact Adm.kept_denied ..)
    | (with_reducible exact Adm.kept_no ..)
    | (with_reducible exact Adm.kept_wait ..)
    | (with_reducible apply Adm.kept_late)
    | (with_reducible apply Adm.kept_deny)
    | (with_reducible apply Adm.kept_yes)
    | (with_reducible refine Adm.ite (fun _ => ?_) fun _ => ?_)
    | (exact Sub.of ‹_› (by rfl))
    | (dsimp only)

theorem execMapExecute_kept (t : Nat) (s : State) :
    ∃ t₁, execMapExecute t s = .next t₁ ∧ Kept [.regs, .fst, .aud, .host, .vec, .hostMem, .sec] s t₁ := by
  unfold execMapExecute
  refine ⟨_, rfl, ?_⟩
  have hk := Kept.refl [.regs, .fst, .aud, .host, .vec, .hostMem, .sec] s
  have hP := Sub.self [.regs, .fst, .aud, .host, .vec, .hostMem, .sec]
  repeat' first
    | (with_reducible assumption)
    | (with_reducible apply State.at__kept)
    | (with_reducible apply State.runMap_kept)
    | (with_reducible refine Kept.foldl ?_ ?_)
    | (with_reducible exact Kept.refl _ _)
    | (exact Sub.of ‹_› (by rfl))
    | (intro _)
    | (dsimp only)

theorem execAudFade_kept (h : Hdr) (a : AudFadeReq) (s : State) :
    ∃ t₁, execAudFade h a s = .next t₁ ∧ Kept [.regs, .host, .vec, .axl, .hsf, .mate] s t₁ := by
  unfold execAudFade
  refine ⟨_, rfl, ?_⟩
  have hk := Kept.refl [.regs, .host, .vec, .axl, .hsf, .mate] s
  have hP := Sub.self [.regs, .host, .vec, .axl, .hsf, .mate]
  repeat' first
    | (with_reducible assumption)
    | (with_reducible apply State.desc_kept)
    | (with_reducible apply audFadeBody_kept)
    | (with_reducible exact Kept.refl _ _)
    | (exact Sub.of ‹_› (by rfl))
    | (intro _)
    | (with_reducible exact Adm.kept_bad ..)
    | (with_reducible exact Adm.kept_badData ..)
    | (with_reducible exact Adm.kept_short ..)
    | (with_reducible exact Adm.kept_denied ..)
    | (with_reducible exact Adm.kept_no ..)
    | (with_reducible exact Adm.kept_wait ..)
    | (with_reducible apply Adm.kept_late)
    | (with_reducible apply Adm.kept_deny)
    | (with_reducible apply Adm.kept_yes)
    | (with_reducible refine Adm.ite (fun _ => ?_) fun _ => ?_)
    | (exact Sub.of ‹_› (by rfl))
    | (dsimp only)

theorem execSapCfg_kept (h : Hdr) (r : SapReq) (s : State) :
    ∃ t₁, execSapCfg h r s = .next t₁ ∧ Kept [.regs, .taken, .aud, .host, .vec, .axl, .hsf, .mate] s t₁ := by
  unfold execSapCfg
  refine ⟨_, rfl, ?_⟩
  have hk := Kept.refl [.regs, .taken, .aud, .host, .vec, .axl, .hsf, .mate] s
  have hP := Sub.self [.regs, .taken, .aud, .host, .vec, .axl, .hsf, .mate]
  repeat' first
    | (with_reducible assumption)
    | (with_reducible apply State.desc_kept)
    | (with_reducible apply sapCfgBody_kept)
    | (with_reducible exact Kept.refl _ _)
    | (exact Sub.of ‹_› (by rfl))
    | (intro _)
    | (with_reducible exact Adm.kept_bad ..)
    | (with_reducible exact Adm.kept_badData ..)
    | (with_reducible exact Adm.kept_short ..)
    | (with_reducible exact Adm.kept_denied ..)
    | (with_reducible exact Adm.kept_no ..)
    | (with_reducible exact Adm.kept_wait ..)
    | (with_reducible apply Adm.kept_late)
    | (with_reducible apply Adm.kept_deny)
    | (with_reducible apply Adm.kept_yes)
    | (with_reducible refine Adm.ite (fun _ => ?_) fun _ => ?_)
    | (exact Sub.of ‹_› (by rfl))
    | (dsimp only)

theorem execClockAcquire_kept (p : AudPort) (off : Int) (s : State) :
    ∃ t₁, execClockAcquire p off s = .next t₁ ∧ Kept [.aud] s t₁ := by
  unfold execClockAcquire
  refine ⟨_, rfl, ?_⟩
  have hk := Kept.refl [.aud] s
  have hP := Sub.self [.aud]
  repeat' first
    | (with_reducible assumption)
    | (with_reducible apply State.setClk_kept)
    | (with_reducible exact Kept.refl _ _)
    | (exact Sub.of ‹_› (by rfl))
    | split
    | (dsimp only)

theorem execClockSteered_kept (p : AudPort) (off : Int) (fifo : Nat) (s : State) :
    ∃ t₁, execClockSteered p off fifo s = .next t₁ ∧ Kept [.aud] s t₁ := by
  unfold execClockSteered
  refine ⟨_, rfl, ?_⟩
  have hk := Kept.refl [.aud] s
  have hP := Sub.self [.aud]
  repeat' first
    | (with_reducible assumption)
    | (with_reducible apply State.setClk_kept)
    | (with_reducible exact Kept.refl _ _)
    | (exact Sub.of ‹_› (by rfl))
    | split
    | (dsimp only)

theorem execClockWide_kept (p : AudPort) (off : Int) (s : State) :
    ∃ t₁, execClockWide p off s = .next t₁ ∧ Kept [.regs, .aud, .vec] s t₁ := by
  unfold execClockWide
  refine ⟨_, rfl, ?_⟩
  have hk := Kept.refl [.regs, .aud, .vec] s
  have hP := Sub.self [.regs, .aud, .vec]
  repeat' first
    | (with_reducible assumption)
    | (with_reducible apply State.setClk_kept)
    | (with_reducible apply State.audRaise_kept)
    | (with_reducible exact Kept.refl _ _)
    | (exact Sub.of ‹_› (by rfl))
    | split
    | (dsimp only)

theorem execClockWideReturn_kept (p : AudPort) (off : Int) (s : State) :
    ∃ t₁, execClockWideReturn p off s = .next t₁ ∧ Kept [.aud] s t₁ := by
  unfold execClockWideReturn
  refine ⟨_, rfl, ?_⟩
  have hk := Kept.refl [.aud] s
  have hP := Sub.self [.aud]
  repeat' first
    | (with_reducible assumption)
    | (with_reducible apply State.setClk_kept)
    | (with_reducible exact Kept.refl _ _)
    | (exact Sub.of ‹_› (by rfl))
    | split
    | (dsimp only)

theorem execClockLocked_kept (p : AudPort) (off : Int) (fifo : Nat) (s : State) :
    ∃ t₁, execClockLocked p off fifo s = .next t₁ ∧ Kept [.aud] s t₁ := by
  unfold execClockLocked
  refine ⟨_, rfl, ?_⟩
  have hk := Kept.refl [.aud] s
  have hP := Sub.self [.aud]
  repeat' first
    | (with_reducible assumption)
    | (with_reducible apply State.setClk_kept)
    | (with_reducible exact Kept.refl _ _)
    | (exact Sub.of ‹_› (by rfl))
    | split
    | (dsimp only)

theorem execClockUnlock_kept (p : AudPort) (fifo : Nat) (s : State) :
    ∃ t₁, execClockUnlock p fifo s = .next t₁ ∧ Kept [.aud] s t₁ := by
  unfold execClockUnlock
  refine ⟨_, rfl, ?_⟩
  have hk := Kept.refl [.aud] s
  have hP := Sub.self [.aud]
  repeat' first
    | (with_reducible assumption)
    | (with_reducible apply State.setClk_kept)
    | (with_reducible exact Kept.refl _ _)
    | (exact Sub.of ‹_› (by rfl))
    | split
    | (dsimp only)

theorem execFifoSlip_kept (p : AudPort) (full : Bool) (s : State) :
    ∃ t₁, execFifoSlip p full s = .next t₁ ∧ Kept [.regs, .aud, .vec] s t₁ := by
  unfold execFifoSlip
  refine ⟨_, rfl, ?_⟩
  have hk := Kept.refl [.regs, .aud, .vec] s
  have hP := Sub.self [.regs, .aud, .vec]
  repeat' first
    | (with_reducible assumption)
    | (with_reducible apply State.inc_kept)
    | (with_reducible apply State.raise_kept)
    | (with_reducible apply State.setClk_kept)
    | (with_reducible exact Kept.refl _ _)
    | (exact Sub.of ‹_› (by rfl))
    | split
    | (dsimp only)

theorem execAudioClockLost_kept (p : AudPort) (s : State) :
    ∃ t₁, execAudioClockLost p s = .next t₁ ∧ Kept [.regs, .aud, .vec] s t₁ := by
  unfold execAudioClockLost
  refine ⟨_, rfl, ?_⟩
  have hk := Kept.refl [.regs, .aud, .vec] s
  have hP := Sub.self [.regs, .aud, .vec]
  repeat' first
    | (with_reducible assumption)
    | (with_reducible apply State.clkLost_kept)
    | (with_reducible apply State.audRaise_kept)
    | (with_reducible exact Kept.refl _ _)
    | (exact Sub.of ‹_› (by rfl))
    | split
    | (dsimp only)

theorem execSapMaskApply_kept (n : Fin 16) (s : State) :
    ∃ t₁, execSapMaskApply n s = .next t₁ ∧ Kept [.regs, .aud, .vec] s t₁ := by
  unfold execSapMaskApply
  refine ⟨_, rfl, ?_⟩
  have hk := Kept.refl [.regs, .aud, .vec] s
  have hP := Sub.self [.regs, .aud, .vec]
  repeat' first
    | (with_reducible assumption)
    | (with_reducible apply State.raise_kept)
    | (with_reducible refine Kept.foldl ?_ ?_)
    | (with_reducible exact Kept.refl _ _)
    | (exact Sub.of ‹_› (by rfl))
    | (simp only [Kept.mk_iff]; with_reducible apply KeptC.of)
    | (with_reducible exact Or.inr rfl)
    | (with_reducible exact Or.inr ⟨rfl, rfl⟩)
    | (exact Or.inl (Sub.mem ‹_› (by rfl)))
    | (with_reducible rfl)
    | (intro _)
    | split
    | (dsimp only)

theorem execSapFrameErr_kept (n : Fin 16) (s : State) :
    ∃ t₁, execSapFrameErr n s = .next t₁ ∧ Kept [.regs, .vec] s t₁ := by
  unfold execSapFrameErr
  refine ⟨_, rfl, ?_⟩
  have hk := Kept.refl [.regs, .vec] s
  have hP := Sub.self [.regs, .vec]
  repeat' first
    | (with_reducible assumption)
    | (with_reducible apply State.raise_kept)
    | (with_reducible exact Kept.refl _ _)
    | (exact Sub.of ‹_› (by rfl))
    | split
    | (dsimp only)

theorem execAesCsBlock_kept (n : Fin 16) (bytes : List Nat) (s : State) :
    ∃ t₁, execAesCsBlock n bytes s = .next t₁ ∧ Kept [.regs, .vec] s t₁ := by
  unfold execAesCsBlock
  refine ⟨_, rfl, ?_⟩
  have hk := Kept.refl [.regs, .vec] s
  have hP := Sub.self [.regs, .vec]
  repeat' first
    | (with_reducible assumption)
    | (with_reducible apply State.wr_kept)
    | (with_reducible apply State.set_kept)
    | (with_reducible apply State.raise_kept)
    | (with_reducible refine Kept.foldl ?_ ?_)
    | (with_reducible exact Kept.refl _ _)
    | (exact Sub.of ‹_› (by rfl))
    | (intro _)
    | split
    | (dsimp only)

theorem execAesParityError_kept (n : Fin 16) (subB : Bool) (k : Nat) (s : State) :
    ∃ t₁, execAesParityError n subB k s = .next t₁ ∧ Kept [.regs, .aud, .vec] s t₁ := by
  unfold execAesParityError
  refine ⟨_, rfl, ?_⟩
  have hk := Kept.refl [.regs, .aud, .vec] s
  have hP := Sub.self [.regs, .aud, .vec]
  repeat' first
    | (with_reducible assumption)
    | (with_reducible apply State.inc_kept)
    | (with_reducible apply State.raise_kept)
    | (with_reducible exact Kept.refl _ _)
    | (exact Sub.of ‹_› (by rfl))
    | (simp only [Kept.mk_iff]; with_reducible apply KeptC.of)
    | (with_reducible exact Or.inr rfl)
    | (with_reducible exact Or.inr ⟨rfl, rfl⟩)
    | (exact Or.inl (Sub.mem ‹_› (by rfl)))
    | (with_reducible rfl)
    | split
    | (dsimp only)

theorem execAesoEnWrite_kept (n : Fin 16) (v : Nat) (s : State) :
    ∃ t₁, execAesoEnWrite n v s = .next t₁ ∧ Kept [.regs, .vec, .mtx] s t₁ := by
  unfold execAesoEnWrite
  refine ⟨_, rfl, ?_⟩
  have hk := Kept.refl [.regs, .vec, .mtx] s
  have hP := Sub.self [.regs, .vec, .mtx]
  repeat' first
    | (with_reducible assumption)
    | (with_reducible apply State.byHost_kept)
    | (with_reducible apply State.aesoWrite_kept)
    | (with_reducible exact Kept.refl _ _)
    | (exact Sub.of ‹_› (by rfl))
    | (intro _)
    | (dsimp only)

theorem execLipsyncMeasure_kept (u : Fin 160) (t : Nat) (s : State) :
    ∃ t₁, execLipsyncMeasure u t s = .next t₁ ∧ Kept [.regs, .fst, .aud, .vec] s t₁ := by
  unfold execLipsyncMeasure
  refine ⟨_, rfl, ?_⟩
  have hk := Kept.refl [.regs, .fst, .aud, .vec] s
  have hP := Sub.self [.regs, .fst, .aud, .vec]
  repeat' first
    | (with_reducible assumption)
    | (with_reducible apply State.inc_kept)
    | (with_reducible apply State.at__kept)
    | (with_reducible apply State.raise_kept)
    | (with_reducible apply State.pathLen_kept)
    | (with_reducible exact Kept.refl _ _)
    | (exact Sub.of ‹_› (by rfl))
    | (simp only [Kept.mk_iff]; with_reducible apply KeptC.of)
    | (with_reducible exact Or.inr rfl)
    | (with_reducible exact Or.inr ⟨rfl, rfl⟩)
    | (exact Or.inl (Sub.mem ‹_› (by rfl)))
    | (with_reducible rfl)
    | split
    | (dsimp only)

theorem execMatrixSample_kept (n : Nat) (inputs : List (Nat × Int)) (idle : List Nat) (ns : Nat) (s : State) :
    ∃ t₁, execMatrixSample n inputs idle ns s = .next t₁ ∧ Kept [.regs, .media, .fst, .aud, .host, .vec] s t₁ := by
  unfold execMatrixSample
  refine ⟨_, rfl, ?_⟩
  have hk := Kept.refl [.regs, .media, .fst, .aud, .host, .vec] s
  have hP := Sub.self [.regs, .media, .fst, .aud, .host, .vec]
  repeat' first
    | (with_reducible assumption)
    | (with_reducible apply State.set_kept)
    | (with_reducible apply State.at__kept)
    | (with_reducible apply State.trimAudio_kept)
    | (with_reducible apply State.startFade_kept)
    | (with_reducible apply State.playout_kept)
    | (refine State.playout_kept' ?_ (by with_reducible assumption))
    | (with_reducible apply State.intake_kept)
    | (with_reducible apply State.slotFollow_kept)
    | (with_reducible apply State.geckoSlot_kept)
    | (with_reducible apply State.slotEnd_kept)
    | (with_reducible apply State.pathStep_kept)
    | (with_reducible apply State.slotRate_kept)
    | (with_reducible apply State.rampStep_kept)
    | (with_reducible apply State.audioSend_kept)
    | (with_reducible apply State.aesBlocks_kept)
    | (with_reducible refine Kept.foldl ?_ ?_)
    | (with_reducible exact Kept.refl _ _)
    | (exact Sub.of ‹_› (by rfl))
    | (simp only [Kept.mk_iff]; with_reducible apply KeptC.of)
    | (with_reducible exact Or.inr rfl)
    | (with_reducible exact Or.inr ⟨rfl, rfl⟩)
    | (exact Or.inl (Sub.mem ‹_› (by rfl)))
    | (with_reducible rfl)
    | (intro _)
    | split
    | (dsimp only)

end Sys2Proof.Machine
end

