-- ==== Sys2Proof/Laws/ExecAxolotl.lean ====
section
/-! SUPPORT. Each command of Machine/Axolotl.lean answers a next state, keeps the queue and the canonical forms, and changes only the parts named. -/
set_option Elab.async false
namespace Sys2Proof.Machine

theorem execRecordStore_kept (k : Nat) (first : Bool) (second : Bool) (s : State) :
    ∃ t₁, execRecordStore k first second s = .next t₁ ∧ Kept [.regs, .media, .xpt, .fst, .fstMem, .che, .sou, .aud, .vec, .syn, .flt, .axl, .hsf] s t₁ := by
  unfold execRecordStore
  refine ⟨_, rfl, ?_⟩
  have hk := Kept.refl [.regs, .media, .xpt, .fst, .fstMem, .che, .sou, .aud, .vec, .syn, .flt, .axl, .hsf] s
  have hP := Sub.self [.regs, .media, .xpt, .fst, .fstMem, .che, .sou, .aud, .vec, .syn, .flt, .axl, .hsf]
  repeat' first
    | (with_reducible assumption)
    | (with_reducible apply State.storeRec_kept)
    | (with_reducible exact Kept.refl _ _)
    | (exact Sub.of ‹_› (by rfl))
    | split
    | (dsimp only)

theorem execPowerFailTrip_kept (t : Nat) (s : State) :
    ∃ t₁, execPowerFailTrip t s = .next t₁ ∧ Kept [.regs, .sec, .axl] s t₁ := by
  unfold execPowerFailTrip
  refine ⟨_, rfl, ?_⟩
  have hk := Kept.refl [.regs, .sec, .axl] s
  have hP := Sub.self [.regs, .sec, .axl]
  repeat' first
    | (with_reducible assumption)
    | (with_reducible apply State.set_kept)
    | (with_reducible apply State.at__kept)
    | (with_reducible apply State.dirty_kept)
    | (with_reducible apply State.setVState_kept)
    | (with_reducible exact Kept.refl _ _)
    | (exact Sub.of ‹_› (by rfl))
    | (simp only [Kept.mk_iff]; with_reducible apply KeptC.of)
    | (with_reducible exact Or.inr rfl)
    | (with_reducible exact Or.inr ⟨rfl, rfl⟩)
    | (exact Or.inl (Sub.mem ‹_› (by rfl)))
    | (with_reducible rfl)
    | (intro _)
    | split
    | (dsimp only)

theorem execAutostoreEnd_kept (fail : List Nat) (us : Nat) (s : State) :
    ∃ t₁, execAutostoreEnd fail us s = .next t₁ ∧ Kept [.regs, .taken, .snap, .media, .xpt, .fst, .fstMem, .che, .sou, .aud, .host, .vec, .lv, .ref, .syn, .sec, .flt, .axl, .rst, .hsf, .mtx, .mate, .pkg] s t₁ := by
  unfold execAutostoreEnd
  refine ⟨_, rfl, ?_⟩
  have hk := Kept.refl [.regs, .taken, .snap, .media, .xpt, .fst, .fstMem, .che, .sou, .aud, .host, .vec, .lv, .ref, .syn, .sec, .flt, .axl, .rst, .hsf, .mtx, .mate, .pkg] s
  have hP := Sub.self [.regs, .taken, .snap, .media, .xpt, .fst, .fstMem, .che, .sou, .aud, .host, .vec, .lv, .ref, .syn, .sec, .flt, .axl, .rst, .hsf, .mtx, .mate, .pkg]
  repeat' first
    | (with_reducible assumption)
    | (with_reducible apply State.set_kept)
    | (with_reducible apply State.raise_kept)
    | (with_reducible apply State.storeRec_kept)
    | (with_reducible apply State.storeFrozen_kept)
    | (with_reducible apply State.autoOver_kept)
    | (with_reducible refine Kept.foldl ?_ ?_)
    | (with_reducible exact Kept.refl _ _)
    | (exact Sub.of ‹_› (by rfl))
    | (simp only [Kept.mk_iff]; with_reducible apply KeptC.of)
    | (with_reducible exact Or.inr rfl)
    | (with_reducible exact Or.inr ⟨rfl, rfl⟩)
    | (exact Or.inl (Sub.mem ‹_› (by rfl)))
    | (with_reducible rfl)
    | (intro _)
    | split
    | (dsimp only)

theorem execVholdCollapse_kept (k : Nat) (s : State) :
    ∃ t₁, execVholdCollapse k s = .next t₁ ∧ Kept [.regs, .taken, .snap, .media, .xpt, .fst, .fstMem, .che, .sou, .aud, .host, .vec, .lv, .ref, .syn, .sec, .flt, .axl, .rst, .hsf, .mtx, .mate, .pkg] s t₁ := by
  unfold execVholdCollapse
  refine ⟨_, rfl, ?_⟩
  have hk := Kept.refl [.regs, .taken, .snap, .media, .xpt, .fst, .fstMem, .che, .sou, .aud, .host, .vec, .lv, .ref, .syn, .sec, .flt, .axl, .rst, .hsf, .mtx, .mate, .pkg] s
  have hP := Sub.self [.regs, .taken, .snap, .media, .xpt, .fst, .fstMem, .che, .sou, .aud, .host, .vec, .lv, .ref, .syn, .sec, .flt, .axl, .rst, .hsf, .mtx, .mate, .pkg]
  repeat' first
    | (with_reducible assumption)
    | (with_reducible apply State.writeRec_kept)
    | (with_reducible apply State.storeFrozen_kept)
    | (with_reducible apply State.autoOver_kept)
    | (with_reducible refine Kept.foldl ?_ ?_)
    | (with_reducible exact Kept.refl _ _)
    | (exact Sub.of ‹_› (by rfl))
    | (intro _)
    | split
    | (dsimp only)

theorem execPfailClear_kept (s : State) :
    ∃ t₁, execPfailClear s = .next t₁ ∧ Kept [.regs] s t₁ := by
  unfold execPfailClear
  refine ⟨_, rfl, ?_⟩
  have hk := Kept.refl [.regs] s
  have hP := Sub.self [.regs]
  repeat' first
    | (with_reducible assumption)
    | (with_reducible apply State.set_kept)
    | (with_reducible apply State.setVState_kept)
    | (with_reducible exact Kept.refl _ _)
    | (exact Sub.of ‹_› (by rfl))
    | split
    | (dsimp only)

theorem execVholdOkSet_kept (s : State) :
    ∃ t₁, execVholdOkSet s = .next t₁ ∧ Kept [.regs, .vec] s t₁ := by
  unfold execVholdOkSet
  refine ⟨_, rfl, ?_⟩
  have hk := Kept.refl [.regs, .vec] s
  have hP := Sub.self [.regs, .vec]
  repeat' first
    | (with_reducible assumption)
    | (with_reducible apply State.set_kept)
    | (with_reducible apply State.armChange_kept)
    | (with_reducible exact Kept.refl _ _)
    | (exact Sub.of ‹_› (by rfl))
    | (dsimp only)

theorem execVholdOkClear_kept (s : State) :
    ∃ t₁, execVholdOkClear s = .next t₁ ∧ Kept [.regs, .media, .xpt, .fst, .fstMem, .che, .sou, .aud, .vec, .syn, .flt, .axl, .hsf] s t₁ := by
  unfold execVholdOkClear
  refine ⟨_, rfl, ?_⟩
  have hk := Kept.refl [.regs, .media, .xpt, .fst, .fstMem, .che, .sou, .aud, .vec, .syn, .flt, .axl, .hsf] s
  have hP := Sub.self [.regs, .media, .xpt, .fst, .fstMem, .che, .sou, .aud, .vec, .syn, .flt, .axl, .hsf]
  repeat' first
    | (with_reducible assumption)
    | (with_reducible apply State.set_kept)
    | (with_reducible apply State.raise_kept)
    | (with_reducible apply State.armChange_kept)
    | (with_reducible apply State.storeSafety_kept)
    | (with_reducible exact Kept.refl _ _)
    | (exact Sub.of ‹_› (by rfl))
    | split
    | (dsimp only)

theorem execAxlCtlWrite_kept (v : Nat) (ok : Bool) (s : State) :
    ∃ t₁, execAxlCtlWrite v ok s = .next t₁ ∧ Kept [.regs, .media, .xpt, .fst, .fstMem, .che, .sou, .aud, .host, .vec, .lv, .syn, .flt, .axl, .hsf, .mtx, .mate] s t₁ := by
  unfold execAxlCtlWrite
  refine ⟨_, rfl, ?_⟩
  have hk := Kept.refl [.regs, .media, .xpt, .fst, .fstMem, .che, .sou, .aud, .host, .vec, .lv, .syn, .flt, .axl, .hsf, .mtx, .mate] s
  have hP := Sub.self [.regs, .media, .xpt, .fst, .fstMem, .che, .sou, .aud, .host, .vec, .lv, .syn, .flt, .axl, .hsf, .mtx, .mate]
  repeat' first
    | (with_reducible assumption)
    | (with_reducible apply State.byHost_kept)
    | (with_reducible apply State.afterWrite_kept)
    | (with_reducible apply State.axlCtl_kept)
    | (with_reducible exact Kept.refl _ _)
    | (exact Sub.of ‹_› (by rfl))
    | (intro _)
    | (dsimp only)

theorem execPresetCapture_kept (v : Nat) (ok : Bool) (s : State) :
    ∃ t₁, execPresetCapture v ok s = .next t₁ ∧ Kept [.regs, .media, .xpt, .fst, .fstMem, .che, .sou, .aud, .vec, .syn, .flt, .axl, .hsf, .mtx] s t₁ := by
  unfold execPresetCapture
  refine ⟨_, rfl, ?_⟩
  have hk := Kept.refl [.regs, .media, .xpt, .fst, .fstMem, .che, .sou, .aud, .vec, .syn, .flt, .axl, .hsf, .mtx] s
  have hP := Sub.self [.regs, .media, .xpt, .fst, .fstMem, .che, .sou, .aud, .vec, .syn, .flt, .axl, .hsf, .mtx]
  repeat' first
    | (with_reducible assumption)
    | (with_reducible apply State.byHost_kept)
    | (with_reducible apply State.presetCapture_kept)
    | (with_reducible exact Kept.refl _ _)
    | (exact Sub.of ‹_› (by rfl))
    | (intro _)
    | (dsimp only)

theorem execMarginRead_kept (weak : List (Nat × Bool)) (s : State) :
    ∃ t₁, execMarginRead weak s = .next t₁ ∧ Kept [.regs, .media, .xpt, .fst, .fstMem, .che, .sou, .aud, .vec, .syn, .flt, .axl, .hsf] s t₁ := by
  unfold execMarginRead
  refine ⟨_, rfl, ?_⟩
  have hk := Kept.refl [.regs, .media, .xpt, .fst, .fstMem, .che, .sou, .aud, .vec, .syn, .flt, .axl, .hsf] s
  have hP := Sub.self [.regs, .media, .xpt, .fst, .fstMem, .che, .sou, .aud, .vec, .syn, .flt, .axl, .hsf]
  repeat' first
    | (with_reducible assumption)
    | (with_reducible apply State.setB_kept)
    | (with_reducible apply State.count_kept)
    | (with_reducible apply State.raise_kept)
    | (with_reducible apply State.storeRec_kept)
    | (with_reducible refine Kept.foldl ?_ ?_)
    | (with_reducible exact Kept.refl _ _)
    | (exact Sub.of ‹_› (by rfl))
    | (intro _)
    | split
    | (dsimp only)

end Sys2Proof.Machine
end

