-- ==== Sys2Proof/Laws/ExecChameleon.lean ====
section
/-! SUPPORT. Each command of Machine/Chameleon.lean answers a next state, keeps the queue and the canonical forms, and changes only the parts named. -/
set_option Elab.async false
namespace Sys2Proof.Machine

theorem execCtxAdmit_kept (h : Hdr) (ring : Nat) (engine : Nat) (offset : Nat) (v : ConvSet) (s : State) :
    ∃ t₁, execCtxAdmit h ring engine offset v s = .next t₁ ∧ Kept [.regs, .fst, .che, .host, .vec, .axl, .hsf, .mate] s t₁ := by
  unfold execCtxAdmit
  refine ⟨_, rfl, ?_⟩
  have hk := Kept.refl [.regs, .fst, .che, .host, .vec, .axl, .hsf, .mate] s
  have hP := Sub.self [.regs, .fst, .che, .host, .vec, .axl, .hsf, .mate]
  repeat' first
    | (with_reducible assumption)
    | (with_reducible apply State.desc_kept)
    | (with_reducible apply ctxAdmitBody_kept)
    | (with_reducible exact Kept.refl _ _)
    | (exact Sub.of ‹_› (by rfl))
    | (intro _)
    | (with_reducible exact Adm.kept_bad ..)
    | (with_reducible exact Adm.kept_badData ..)
    | (with_reducible exact Adm.kept_short ..)
    | (with_reducible exact Adm.kept_denied ..)
    | (with_reducible exact Adm.kept_no ..)
    | (with_reducible exact Adm.kept_wait ..)
    | (with_reducible apply Adm.kept_late)
    | (with_reducible apply Adm.kept_deny)
    | (with_reducible apply Adm.kept_yes)
    | (with_reducible refine Adm.ite (fun _ => ?_) fun _ => ?_)
    | (exact Sub.of ‹_› (by rfl))
    | (dsimp only)

theorem execCtxParam_kept (h : Hdr) (c : Nat) (mask : Nat) (offset : Nat) (v : ConvSet) (s : State) :
    ∃ t₁, execCtxParam h c mask offset v s = .next t₁ ∧ Kept [.regs, .fst, .che, .host, .vec, .axl, .hsf, .mate] s t₁ := by
  unfold execCtxParam
  refine ⟨_, rfl, ?_⟩
  have hk := Kept.refl [.regs, .fst, .che, .host, .vec, .axl, .hsf, .mate] s
  have hP := Sub.self [.regs, .fst, .che, .host, .vec, .axl, .hsf, .mate]
  repeat' first
    | (with_reducible assumption)
    | (with_reducible apply State.desc_kept)
    | (with_reducible apply ctxParamBody_kept)
    | (with_reducible exact Kept.refl _ _)
    | (exact Sub.of ‹_› (by rfl))
    | (intro _)
    | (with_reducible exact Adm.kept_bad ..)
    | (with_reducible exact Adm.kept_badData ..)
    | (with_reducible exact Adm.kept_short ..)
    | (with_reducible exact Adm.kept_denied ..)
    | (with_reducible exact Adm.kept_no ..)
    | (with_reducible exact Adm.kept_wait ..)
    | (with_reducible apply Adm.kept_late)
    | (with_reducible apply Adm.kept_deny)
    | (with_reducible apply Adm.kept_yes)
    | (with_reducible refine Adm.ite (fun _ => ?_) fun _ => ?_)
    | (exact Sub.of ‹_› (by rfl))
    | (dsimp only)

theorem execCtxRelease_kept (h : Hdr) (unit : Bool) (n : Nat) (s : State) :
    ∃ t₁, execCtxRelease h unit n s = .next t₁ ∧ Kept [.regs, .xpt, .fst, .che, .sou, .aud, .host, .vec, .axl, .hsf, .mate] s t₁ := by
  unfold execCtxRelease
  refine ⟨_, rfl, ?_⟩
  have hk := Kept.refl [.regs, .xpt, .fst, .che, .sou, .aud, .host, .vec, .axl, .hsf, .mate] s
  have hP := Sub.self [.regs, .xpt, .fst, .che, .sou, .aud, .host, .vec, .axl, .hsf, .mate]
  repeat' first
    | (with_reducible assumption)
    | (with_reducible apply State.desc_kept)
    | (with_reducible apply ctxReleaseBody_kept)
    | (with_reducible exact Kept.refl _ _)
    | (exact Sub.of ‹_› (by rfl))
    | (intro _)
    | (with_reducible exact Adm.kept_bad ..)
    | (with_reducible exact Adm.kept_badData ..)
    | (with_reducible exact Adm.kept_short ..)
    | (with_reducible exact Adm.kept_denied ..)
    | (with_reducible exact Adm.kept_no ..)
    | (with_reducible exact Adm.kept_wait ..)
    | (with_reducible apply Adm.kept_late)
    | (with_reducible apply Adm.kept_deny)
    | (with_reducible apply Adm.kept_yes)
    | (with_reducible refine Adm.ite (fun _ => ?_) fun _ => ?_)
    | (exact Sub.of ‹_› (by rfl))
    | (dsimp only)

theorem execCtxParamApply_kept (c : Fin 192) (t : Nat) (s : State) :
    ∃ t₁, execCtxParamApply c t s = .next t₁ ∧ Kept [.fst, .che] s t₁ := by
  unfold execCtxParamApply
  refine ⟨_, rfl, ?_⟩
  have hk := Kept.refl [.fst, .che] s
  have hP := Sub.self [.fst, .che]
  repeat' first
    | (with_reducible assumption)
    | (with_reducible apply State.at__kept)
    | (with_reducible apply State.applyParam_kept)
    | (with_reducible exact Kept.refl _ _)
    | (exact Sub.of ‹_› (by rfl))
    | split
    | (dsimp only)

theorem execCtxRunStart_kept (c : Fin 192) (t : Nat) (s : State) :
    ∃ t₁, execCtxRunStart c t s = .next t₁ ∧ Kept [.fst, .che] s t₁ := by
  unfold execCtxRunStart
  refine ⟨_, rfl, ?_⟩
  have hk := Kept.refl [.fst, .che] s
  have hP := Sub.self [.fst, .che]
  repeat' first
    | (with_reducible assumption)
    | (with_reducible apply State.at__kept)
    | (with_reducible apply State.setCtx_kept)
    | (with_reducible apply State.letGo_kept)
    | (with_reducible apply State.applyParam_kept)
    | (with_reducible exact Kept.refl _ _)
    | (exact Sub.of ‹_› (by rfl))
    | split
    | (dsimp only)

theorem execCtxParkStop_kept (c : Fin 192) (t : Nat) (s : State) :
    ∃ t₁, execCtxParkStop c t s = .next t₁ ∧ Kept [.che] s t₁ := by
  unfold execCtxParkStop
  refine ⟨_, rfl, ?_⟩
  have hk := Kept.refl [.che] s
  have hP := Sub.self [.che]
  repeat' first
    | (with_reducible assumption)
    | (with_reducible apply State.at__kept)
    | (with_reducible apply State.setCtx_kept)
    | (with_reducible exact Kept.refl _ _)
    | (exact Sub.of ‹_› (by rfl))
    | split
    | (dsimp only)

theorem execCtxReleaseStop_kept (c : Fin 192) (t : Nat) (s : State) :
    ∃ t₁, execCtxReleaseStop c t s = .next t₁ ∧ Kept [.fst, .che] s t₁ := by
  unfold execCtxReleaseStop
  refine ⟨_, rfl, ?_⟩
  have hk := Kept.refl [.fst, .che] s
  have hP := Sub.self [.fst, .che]
  repeat' first
    | (with_reducible assumption)
    | (with_reducible apply State.at__kept)
    | (with_reducible apply State.freeCtx_kept)
    | (with_reducible exact Kept.refl _ _)
    | (exact Sub.of ‹_› (by rfl))
    | split
    | (dsimp only)

theorem execCtxMoveComplete_kept (c : Fin 192) (t : Nat) (s : State) :
    ∃ t₁, execCtxMoveComplete c t s = .next t₁ ∧ Kept [.fst, .che] s t₁ := by
  unfold execCtxMoveComplete
  refine ⟨_, rfl, ?_⟩
  have hk := Kept.refl [.fst, .che] s
  have hP := Sub.self [.fst, .che]
  repeat' first
    | (with_reducible assumption)
    | (with_reducible apply State.at__kept)
    | (with_reducible apply State.setCtx_kept)
    | (with_reducible apply State.letGo_kept)
    | (with_reducible apply State.renumber_kept)
    | (with_reducible exact Kept.refl _ _)
    | (exact Sub.of ‹_› (by rfl))
    | split
    | (dsimp only)

theorem execOrphanReadmit_kept (t : Nat) (s : State) :
    ∃ t₁, execOrphanReadmit t s = .next t₁ ∧ Kept [.fst, .che] s t₁ := by
  unfold execOrphanReadmit
  refine ⟨_, rfl, ?_⟩
  have hk := Kept.refl [.fst, .che] s
  have hP := Sub.self [.fst, .che]
  repeat' first
    | (with_reducible assumption)
    | (with_reducible apply State.at__kept)
    | (with_reducible apply State.setCtx_kept)
    | (with_reducible apply State.renumber_kept)
    | (with_reducible exact Kept.refl _ _)
    | (exact Sub.of ‹_› (by rfl))
    | (intro _)
    | split
    | (dsimp only)

theorem execSliceStart_kept (e : Fin 12) (t : Nat) (s : State) :
    ∃ t₁, execSliceStart e t s = .next t₁ ∧ Kept [.regs, .fst, .fstMem, .che, .sou, .vec] s t₁ := by
  unfold execSliceStart
  refine ⟨_, rfl, ?_⟩
  have hk := Kept.refl [.regs, .fst, .fstMem, .che, .sou, .vec] s
  have hP := Sub.self [.regs, .fst, .fstMem, .che, .sou, .vec]
  repeat' first
    | (with_reducible assumption)
    | (with_reducible apply State.at__kept)
    | (with_reducible apply State.setEng_kept)
    | (with_reducible apply State.beginFrame_kept)
    | (with_reducible apply State.endAbandoned_kept)
    | (with_reducible refine Kept.foldl ?_ ?_)
    | (with_reducible exact Kept.refl _ _)
    | (exact Sub.of ‹_› (by rfl))
    | (intro _)
    | split
    | (dsimp only)

theorem execSliceEnd_kept (e : Fin 12) (t : Nat) (s : State) :
    ∃ t₁, execSliceEnd e t s = .next t₁ ∧ Kept [.fst, .fstMem, .che, .sou] s t₁ := by
  unfold execSliceEnd
  refine ⟨_, rfl, ?_⟩
  have hk := Kept.refl [.fst, .fstMem, .che, .sou] s
  have hP := Sub.self [.fst, .fstMem, .che, .sou]
  repeat' first
    | (with_reducible assumption)
    | (with_reducible apply State.at__kept)
    | (with_reducible apply State.setCtx_kept)
    | (with_reducible apply State.setEng_kept)
    | (with_reducible apply State.catchUp_kept)
    | (with_reducible apply State.sliceDone_kept)
    | (with_reducible exact Kept.refl _ _)
    | (exact Sub.of ‹_› (by rfl))
    | split
    | (dsimp only)

theorem execSliceDeadlineMiss_kept (c : Fin 192) (t : Nat) (s : State) :
    ∃ t₁, execSliceDeadlineMiss c t s = .next t₁ ∧ Kept [.regs, .fst, .fstMem, .che, .sou, .vec] s t₁ := by
  unfold execSliceDeadlineMiss
  refine ⟨_, rfl, ?_⟩
  have hk := Kept.refl [.regs, .fst, .fstMem, .che, .sou, .vec] s
  have hP := Sub.self [.regs, .fst, .fstMem, .che, .sou, .vec]
  repeat' first
    | (with_reducible assumption)
    | (with_reducible apply State.inc_kept)
    | (with_reducible apply State.at__kept)
    | (with_reducible apply State.raise_kept)
    | (with_reducible apply State.setCtx_kept)
    | (with_reducible apply State.endFrame_kept)
    | (with_reducible apply State.beginFrame_kept)
    | (with_reducible apply State.linesGone_kept)
    | (with_reducible exact Kept.refl _ _)
    | (exact Sub.of ‹_› (by rfl))
    | split
    | (dsimp only)

end Sys2Proof.Machine
end

