-- ==== Sys2Proof/Laws/ExecCrosspoint.lean ====
section
/-! SUPPORT. Each command of Machine/Crosspoint.lean answers a next state, keeps the queue and the canonical forms, and changes only the parts named. -/
set_option Elab.async false
namespace Sys2Proof.Machine

theorem execRouteSet_kept (h : Hdr) (dst : Nat) (src : Nat) (s : State) :
    ∃ t₁, execRouteSet h dst src s = .next t₁ ∧ Kept [.regs, .media, .xpt, .fst, .che, .sou, .aud, .host, .vec, .hostMem, .sec, .axl, .hsf, .mate] s t₁ := by
  unfold execRouteSet
  refine ⟨_, rfl, ?_⟩
  have hk := Kept.refl [.regs, .media, .xpt, .fst, .che, .sou, .aud, .host, .vec, .hostMem, .sec, .axl, .hsf, .mate] s
  have hP := Sub.self [.regs, .media, .xpt, .fst, .che, .sou, .aud, .host, .vec, .hostMem, .sec, .axl, .hsf, .mate]
  repeat' first
    | (with_reducible assumption)
    | (with_reducible apply State.desc_kept)
    | (with_reducible apply routeBody_kept)
    | (with_reducible exact Kept.refl _ _)
    | (exact Sub.of ‹_› (by rfl))
    | (intro _)
    | (with_reducible exact Adm.kept_bad ..)
    | (with_reducible exact Adm.kept_badData ..)
    | (with_reducible exact Adm.kept_short ..)
    | (with_reducible exact Adm.kept_denied ..)
    | (with_reducible exact Adm.kept_no ..)
    | (with_reducible exact Adm.kept_wait ..)
    | (with_reducible apply Adm.kept_late)
    | (with_reducible apply Adm.kept_deny)
    | (with_reducible apply Adm.kept_yes)
    | (with_reducible refine Adm.ite (fun _ => ?_) fun _ => ?_)
    | (exact Sub.of ‹_› (by rfl))
    | (dsimp only)

theorem execTakeAt_kept (h : Hdr) (dst : Nat) (src : Nat) (s : State) :
    ∃ t₁, execTakeAt h dst src s = .next t₁ ∧ Kept [.regs, .media, .xpt, .fst, .che, .sou, .aud, .host, .vec, .hostMem, .sec, .axl, .hsf, .mate] s t₁ := by
  unfold execTakeAt
  refine ⟨_, rfl, ?_⟩
  have hk := Kept.refl [.regs, .media, .xpt, .fst, .che, .sou, .aud, .host, .vec, .hostMem, .sec, .axl, .hsf, .mate] s
  have hP := Sub.self [.regs, .media, .xpt, .fst, .che, .sou, .aud, .host, .vec, .hostMem, .sec, .axl, .hsf, .mate]
  repeat' first
    | (with_reducible assumption)
    | (with_reducible apply State.desc_kept)
    | (with_reducible apply routeBody_kept)
    | (with_reducible exact Kept.refl _ _)
    | (exact Sub.of ‹_› (by rfl))
    | (intro _)
    | (with_reducible exact Adm.kept_bad ..)
    | (with_reducible exact Adm.kept_badData ..)
    | (with_reducible exact Adm.kept_short ..)
    | (with_reducible exact Adm.kept_denied ..)
    | (with_reducible exact Adm.kept_no ..)
    | (with_reducible exact Adm.kept_wait ..)
    | (with_reducible apply Adm.kept_late)
    | (with_reducible apply Adm.kept_deny)
    | (with_reducible apply Adm.kept_yes)
    | (with_reducible refine Adm.ite (fun _ => ?_) fun _ => ?_)
    | (exact Sub.of ‹_› (by rfl))
    | (dsimp only)

theorem execSalvo_kept (h : Hdr) (l : SalvoList) (s : State) :
    ∃ t₁, execSalvo h l s = .next t₁ ∧ Kept [.regs, .xpt, .fst, .che, .sou, .aud, .host, .vec, .hostMem, .sec, .axl, .hsf, .mate] s t₁ := by
  unfold execSalvo
  refine ⟨_, rfl, ?_⟩
  have hk := Kept.refl [.regs, .xpt, .fst, .che, .sou, .aud, .host, .vec, .hostMem, .sec, .axl, .hsf, .mate] s
  have hP := Sub.self [.regs, .xpt, .fst, .che, .sou, .aud, .host, .vec, .hostMem, .sec, .axl, .hsf, .mate]
  repeat' first
    | (with_reducible assumption)
    | (with_reducible apply State.desc_kept)
    | (with_reducible apply salvoBody_kept)
    | (with_reducible exact Kept.refl _ _)
    | (exact Sub.of ‹_› (by rfl))
    | (intro _)
    | (with_reducible exact Adm.kept_bad ..)
    | (with_reducible exact Adm.kept_badData ..)
    | (with_reducible exact Adm.kept_short ..)
    | (with_reducible exact Adm.kept_denied ..)
    | (with_reducible exact Adm.kept_no ..)
    | (with_reducible exact Adm.kept_wait ..)
    | (with_reducible apply Adm.kept_late)
    | (with_reducible apply Adm.kept_deny)
    | (with_reducible apply Adm.kept_yes)
    | (with_reducible refine Adm.ite (fun _ => ?_) fun _ => ?_)
    | (exact Sub.of ‹_› (by rfl))
    | (dsimp only)

theorem execSalvoCancel_kept (h : Hdr) (ring : Nat) (tag : Nat) (s : State) :
    ∃ t₁, execSalvoCancel h ring tag s = .next t₁ ∧ Kept [.regs, .xpt, .fst, .che, .sou, .aud, .host, .vec, .hostMem, .sec, .axl, .hsf, .mate] s t₁ := by
  unfold execSalvoCancel
  refine ⟨_, rfl, ?_⟩
  have hk := Kept.refl [.regs, .xpt, .fst, .che, .sou, .aud, .host, .vec, .hostMem, .sec, .axl, .hsf, .mate] s
  have hP := Sub.self [.regs, .xpt, .fst, .che, .sou, .aud, .host, .vec, .hostMem, .sec, .axl, .hsf, .mate]
  repeat' first
    | (with_reducible assumption)
    | (with_reducible apply State.desc_kept)
    | (with_reducible apply cancelBody_kept)
    | (with_reducible exact Kept.refl _ _)
    | (exact Sub.of ‹_› (by rfl))
    | (intro _)
    | (with_reducible exact Adm.kept_bad ..)
    | (with_reducible exact Adm.kept_badData ..)
    | (with_reducible exact Adm.kept_short ..)
    | (with_reducible exact Adm.kept_denied ..)
    | (with_reducible exact Adm.kept_no ..)
    | (with_reducible exact Adm.kept_wait ..)
    | (with_reducible apply Adm.kept_late)
    | (with_reducible apply Adm.kept_deny)
    | (with_reducible apply Adm.kept_yes)
    | (with_reducible refine Adm.ite (fun _ => ?_) fun _ => ?_)
    | (exact Sub.of ‹_› (by rfl))
    | (dsimp only)

theorem execRouteSync_kept (h : Hdr) (c : ChainReq) (s : State) :
    ∃ t₁, execRouteSync h c s = .next t₁ ∧ Kept [.regs, .media, .xpt, .fst, .che, .sou, .aud, .host, .vec, .hostMem, .sec, .axl, .hsf, .mate] s t₁ := by
  unfold execRouteSync
  refine ⟨_, rfl, ?_⟩
  have hk := Kept.refl [.regs, .media, .xpt, .fst, .che, .sou, .aud, .host, .vec, .hostMem, .sec, .axl, .hsf, .mate] s
  have hP := Sub.self [.regs, .media, .xpt, .fst, .che, .sou, .aud, .host, .vec, .hostMem, .sec, .axl, .hsf, .mate]
  repeat' first
    | (with_reducible assumption)
    | (with_reducible apply State.desc_kept)
    | (with_reducible apply chainBody_kept)
    | (with_reducible exact Kept.refl _ _)
    | (exact Sub.of ‹_› (by rfl))
    | (intro _)
    | (with_reducible exact Adm.kept_bad ..)
    | (with_reducible exact Adm.kept_badData ..)
    | (with_reducible exact Adm.kept_short ..)
    | (with_reducible exact Adm.kept_denied ..)
    | (with_reducible exact Adm.kept_no ..)
    | (with_reducible exact Adm.kept_wait ..)
    | (with_reducible apply Adm.kept_late)
    | (with_reducible apply Adm.kept_deny)
    | (with_reducible apply Adm.kept_yes)
    | (with_reducible refine Adm.ite (fun _ => ?_) fun _ => ?_)
    | (exact Sub.of ‹_› (by rfl))
    | (dsimp only)

theorem execRouteConvert_kept (h : Hdr) (c : ChainReq) (v : ConvSet) (s : State) :
    ∃ t₁, execRouteConvert h c v s = .next t₁ ∧ Kept [.regs, .media, .xpt, .fst, .che, .sou, .aud, .host, .vec, .hostMem, .sec, .axl, .hsf, .mate] s t₁ := by
  unfold execRouteConvert
  refine ⟨_, rfl, ?_⟩
  have hk := Kept.refl [.regs, .media, .xpt, .fst, .che, .sou, .aud, .host, .vec, .hostMem, .sec, .axl, .hsf, .mate] s
  have hP := Sub.self [.regs, .media, .xpt, .fst, .che, .sou, .aud, .host, .vec, .hostMem, .sec, .axl, .hsf, .mate]
  repeat' first
    | (with_reducible assumption)
    | (with_reducible apply State.desc_kept)
    | (with_reducible apply chainBody_kept)
    | (with_reducible exact Kept.refl _ _)
    | (exact Sub.of ‹_› (by rfl))
    | (intro _)
    | (with_reducible exact Adm.kept_bad ..)
    | (with_reducible exact Adm.kept_badData ..)
    | (with_reducible exact Adm.kept_short ..)
    | (with_reducible exact Adm.kept_denied ..)
    | (with_reducible exact Adm.kept_no ..)
    | (with_reducible exact Adm.kept_wait ..)
    | (with_reducible apply Adm.kept_late)
    | (with_reducible apply Adm.kept_deny)
    | (with_reducible apply Adm.kept_yes)
    | (with_reducible refine Adm.ite (fun _ => ?_) fun _ => ?_)
    | (exact Sub.of ‹_› (by rfl))
    | (dsimp only)

theorem execTakeExecute_kept (d : Fin 512) (t : Nat) (s : State) :
    ∃ t₁, execTakeExecute d t s = .next t₁ ∧ Kept [.regs, .media, .xpt, .fst, .che, .sou, .aud, .host, .vec, .hostMem, .sec] s t₁ := by
  unfold execTakeExecute
  refine ⟨_, rfl, ?_⟩
  have hk := Kept.refl [.regs, .media, .xpt, .fst, .che, .sou, .aud, .host, .vec, .hostMem, .sec] s
  have hP := Sub.self [.regs, .media, .xpt, .fst, .che, .sou, .aud, .host, .vec, .hostMem, .sec]
  repeat' first
    | (with_reducible assumption)
    | (with_reducible apply State.at__kept)
    | (with_reducible apply State.takeExecute_kept)
    | (with_reducible exact Kept.refl _ _)
    | (exact Sub.of ‹_› (by rfl))
    | (dsimp only)

theorem execUntimedChangeover_kept (d : Fin 512) (t : Nat) (s : State) :
    ∃ t₁, execUntimedChangeover d t s = .next t₁ ∧ Kept [.regs, .media, .xpt, .fst, .che, .sou, .aud, .host, .vec, .hostMem, .sec] s t₁ := by
  unfold execUntimedChangeover
  refine ⟨_, rfl, ?_⟩
  have hk := Kept.refl [.regs, .media, .xpt, .fst, .che, .sou, .aud, .host, .vec, .hostMem, .sec] s
  have hP := Sub.self [.regs, .media, .xpt, .fst, .che, .sou, .aud, .host, .vec, .hostMem, .sec]
  repeat' first
    | (with_reducible assumption)
    | (with_reducible apply State.at__kept)
    | (with_reducible apply State.runUntimed_kept)
    | (with_reducible exact Kept.refl _ _)
    | (exact Sub.of ‹_› (by rfl))
    | split
    | (dsimp only)

theorem execFollowLoopRetuneEnd_kept (n : Fin 72) (t : Nat) (s : State) :
    ∃ t₁, execFollowLoopRetuneEnd n t s = .next t₁ ∧ Kept [.regs, .media, .xpt] s t₁ := by
  unfold execFollowLoopRetuneEnd
  refine ⟨_, rfl, ?_⟩
  have hk := Kept.refl [.regs, .media, .xpt] s
  have hP := Sub.self [.regs, .media, .xpt]
  repeat' first
    | (with_reducible assumption)
    | (with_reducible apply State.at__kept)
    | (with_reducible apply State.setTx_kept)
    | (with_reducible apply State.txWake_kept)
    | (with_reducible exact Kept.refl _ _)
    | (exact Sub.of ‹_› (by rfl))
    | split
    | (dsimp only)

theorem execLeapArm_kept (d : Fin 512) (rfn : Nat) (t : Nat) (s : State) :
    ∃ t₁, execLeapArm d rfn t s = .next t₁ ∧ Kept [.host] s t₁ := by
  unfold execLeapArm
  refine ⟨_, rfl, ?_⟩
  have hk := Kept.refl [.host] s
  have hP := Sub.self [.host]
  repeat' first
    | (with_reducible assumption)
    | (with_reducible apply State.at__kept)
    | (with_reducible apply State.setOp_kept)
    | (with_reducible exact Kept.refl _ _)
    | (exact Sub.of ‹_› (by rfl))
    | split
    | (dsimp only)

theorem execLeapExecute_kept (d : Fin 512) (rfn : Nat) (t : Nat) (s : State) :
    ∃ t₁, execLeapExecute d rfn t s = .next t₁ ∧ Kept [.regs, .media, .xpt, .fst, .che, .sou, .aud, .host, .vec, .hostMem, .sec] s t₁ := by
  unfold execLeapExecute
  refine ⟨_, rfl, ?_⟩
  have hk := Kept.refl [.regs, .media, .xpt, .fst, .che, .sou, .aud, .host, .vec, .hostMem, .sec] s
  have hP := Sub.self [.regs, .media, .xpt, .fst, .che, .sou, .aud, .host, .vec, .hostMem, .sec]
  repeat' first
    | (with_reducible assumption)
    | (with_reducible apply State.at__kept)
    | (with_reducible apply State.runTake_kept)
    | (with_reducible apply State.abortTake_kept)
    | (with_reducible exact Kept.refl _ _)
    | (exact Sub.of ‹_› (by rfl))
    | (intro _)
    | split
    | (dsimp only)

theorem execLeapNoTimingExecute_kept (d : Fin 512) (rfn : Nat) (t : Nat) (s : State) :
    ∃ t₁, execLeapNoTimingExecute d rfn t s = .next t₁ ∧ Kept [.regs, .media, .xpt, .fst, .che, .sou, .aud, .host, .vec, .hostMem, .sec] s t₁ := by
  unfold execLeapNoTimingExecute
  refine ⟨_, rfl, ?_⟩
  have hk := Kept.refl [.regs, .media, .xpt, .fst, .che, .sou, .aud, .host, .vec, .hostMem, .sec] s
  have hP := Sub.self [.regs, .media, .xpt, .fst, .che, .sou, .aud, .host, .vec, .hostMem, .sec]
  repeat' first
    | (with_reducible assumption)
    | (with_reducible apply State.at__kept)
    | (with_reducible apply State.runIdle_kept)
    | (with_reducible exact Kept.refl _ _)
    | (exact Sub.of ‹_› (by rfl))
    | split
    | (dsimp only)

theorem execPgCfgWrite_kept (p : Fin 8) (v : Nat) (s : State) :
    ∃ t₁, execPgCfgWrite p v s = .next t₁ ∧ Kept [.regs, .xpt, .vec, .mtx] s t₁ := by
  unfold execPgCfgWrite
  refine ⟨_, rfl, ?_⟩
  have hk := Kept.refl [.regs, .xpt, .vec, .mtx] s
  have hP := Sub.self [.regs, .xpt, .vec, .mtx]
  repeat' first
    | (with_reducible assumption)
    | (with_reducible apply State.byHost_kept)
    | (with_reducible apply State.pgWrite_kept)
    | (with_reducible exact Kept.refl _ _)
    | (exact Sub.of ‹_› (by rfl))
    | (intro _)
    | (dsimp only)

theorem execPgFrameBoundary_kept (p : Fin 8) (t : Nat) (s : State) :
    ∃ t₁, execPgFrameBoundary p t s = .next t₁ ∧ Kept [.regs, .media, .xpt, .fst] s t₁ := by
  unfold execPgFrameBoundary
  refine ⟨_, rfl, ?_⟩
  have hk := Kept.refl [.regs, .media, .xpt, .fst] s
  have hP := Sub.self [.regs, .media, .xpt, .fst]
  repeat' first
    | (with_reducible assumption)
    | (with_reducible apply State.at__kept)
    | (with_reducible apply State.setPg_kept)
    | (with_reducible apply State.refreshSrc_kept)
    | (with_reducible apply State.cwFormat_kept)
    | (with_reducible exact Kept.refl _ _)
    | (exact Sub.of ‹_› (by rfl))
    | split
    | (dsimp only)

theorem execSourceFrameSigned_kept (src : Fin 512) (f : SrcFrame) (t : Nat) (s : State) :
    ∃ t₁, execSourceFrameSigned src f t s = .next t₁ ∧ Kept [.regs, .media, .xpt, .fst, .fstMem, .aud, .vec] s t₁ := by
  unfold execSourceFrameSigned
  refine ⟨_, rfl, ?_⟩
  have hk := Kept.refl [.regs, .media, .xpt, .fst, .fstMem, .aud, .vec] s
  have hP := Sub.self [.regs, .media, .xpt, .fst, .fstMem, .aud, .vec]
  repeat' first
    | (with_reducible assumption)
    | (with_reducible apply State.wr2_kept)
    | (with_reducible apply State.at__kept)
    | (with_reducible apply State.catchUp_kept)
    | (with_reducible apply State.hostFrame_kept)
    | (with_reducible apply State.rxFrame_kept)
    | (with_reducible refine Kept.foldl ?_ ?_)
    | (with_reducible exact Kept.refl _ _)
    | (exact Sub.of ‹_› (by rfl))
    | (simp only [Kept.mk_iff]; with_reducible apply KeptC.of)
    | (with_reducible exact Or.inr rfl)
    | (with_reducible exact Or.inr ⟨rfl, rfl⟩)
    | (exact Or.inl (Sub.mem ‹_› (by rfl)))
    | (with_reducible rfl)
    | (intro _)
    | split
    | (dsimp only)

theorem execDestFrameSent_kept (d : Fin 512) (seen : Option Pic) (host : Option HostFmt) (t : Nat) (s : State) :
    ∃ t₁, execDestFrameSent d seen host t s = .next t₁ ∧ Kept [.regs, .media, .xpt, .fst, .fstMem, .che, .sou, .aud, .vec, .syn, .flt, .hsf] s t₁ := by
  unfold execDestFrameSent
  refine ⟨_, rfl, ?_⟩
  have hk := Kept.refl [.regs, .media, .xpt, .fst, .fstMem, .che, .sou, .aud, .vec, .syn, .flt, .hsf] s
  have hP := Sub.self [.regs, .media, .xpt, .fst, .fstMem, .che, .sou, .aud, .vec, .syn, .flt, .hsf]
  repeat' first
    | (with_reducible assumption)
    | (with_reducible apply State.wr2_kept)
    | (with_reducible apply State.at__kept)
    | (with_reducible apply State.pathProof_kept)
    | (with_reducible apply State.freezeCheck_kept)
    | (with_reducible apply State.sendFrame_kept)
    | (with_reducible apply State.hostDest_kept)
    | (with_reducible exact Kept.refl _ _)
    | (exact Sub.of ‹_› (by rfl))
    | (simp only [Kept.mk_iff]; with_reducible apply KeptC.of)
    | (with_reducible exact Or.inr rfl)
    | (with_reducible exact Or.inr ⟨rfl, rfl⟩)
    | (exact Or.inl (Sub.mem ‹_› (by rfl)))
    | (with_reducible rfl)
    | split
    | (dsimp only)

end Sys2Proof.Machine
end

