-- ==== Sys2Proof/Laws/ExecFabric.lean ====
section
/-! SUPPORT. Each command of Machine/Fabric.lean answers a next state, keeps the queue and the canonical forms, and changes only the parts named. -/
set_option Elab.async false
namespace Sys2Proof.Machine

theorem execSlackMeasure_kept (m : Slack) (t : Nat) (s : State) :
    ∃ t₁, execSlackMeasure m t s = .next t₁ ∧ Kept [.regs, .vec, .hsf] s t₁ := by
  unfold execSlackMeasure
  refine ⟨_, rfl, ?_⟩
  have hk := Kept.refl [.regs, .vec, .hsf] s
  have hP := Sub.self [.regs, .vec, .hsf]
  repeat' first
    | (with_reducible assumption)
    | (with_reducible apply State.at__kept)
    | (with_reducible apply State.readSlack_kept)
    | (with_reducible apply State.afterReading_kept)
    | (with_reducible exact Kept.refl _ _)
    | (exact Sub.of ‹_› (by rfl))
    | (dsimp only)

theorem execVoltageLowerStep_kept (m : Slack) (t : Nat) (s : State) :
    ∃ t₁, execVoltageLowerStep m t s = .next t₁ ∧ Kept [.regs, .vec, .hsf] s t₁ := by
  unfold execVoltageLowerStep
  refine ⟨_, rfl, ?_⟩
  have hk := Kept.refl [.regs, .vec, .hsf] s
  have hP := Sub.self [.regs, .vec, .hsf]
  repeat' first
    | (with_reducible assumption)
    | (with_reducible apply State.at__kept)
    | (with_reducible apply State.setVState_kept)
    | (with_reducible apply State.afterReading_kept)
    | (with_reducible apply State.vTo_kept)
    | (with_reducible exact Kept.refl _ _)
    | (exact Sub.of ‹_› (by rfl))
    | (simp only [Kept.mk_iff]; with_reducible apply KeptC.of)
    | (with_reducible exact Or.inr rfl)
    | (with_reducible exact Or.inr ⟨rfl, rfl⟩)
    | (exact Or.inl (Sub.mem ‹_› (by rfl)))
    | (with_reducible rfl)
    | split
    | (dsimp only)

theorem execVoltageRaiseStep_kept (m : Slack) (t : Nat) (s : State) :
    ∃ t₁, execVoltageRaiseStep m t s = .next t₁ ∧ Kept [.regs, .vec, .hsf] s t₁ := by
  unfold execVoltageRaiseStep
  refine ⟨_, rfl, ?_⟩
  have hk := Kept.refl [.regs, .vec, .hsf] s
  have hP := Sub.self [.regs, .vec, .hsf]
  repeat' first
    | (with_reducible assumption)
    | (with_reducible apply State.at__kept)
    | (with_reducible apply State.afterReading_kept)
    | (with_reducible apply State.vTo_kept)
    | (with_reducible exact Kept.refl _ _)
    | (exact Sub.of ‹_› (by rfl))
    | (simp only [Kept.mk_iff]; with_reducible apply KeptC.of)
    | (with_reducible exact Or.inr rfl)
    | (with_reducible exact Or.inr ⟨rfl, rfl⟩)
    | (exact Or.inl (Sub.mem ‹_› (by rfl)))
    | (with_reducible rfl)
    | split
    | (dsimp only)

theorem execAdmitRaiseStep_kept (m : Slack) (t : Nat) (s : State) :
    ∃ t₁, execAdmitRaiseStep m t s = .next t₁ ∧ Kept [.regs, .vec] s t₁ := by
  unfold execAdmitRaiseStep
  refine ⟨_, rfl, ?_⟩
  have hk := Kept.refl [.regs, .vec] s
  have hP := Sub.self [.regs, .vec]
  repeat' first
    | (with_reducible assumption)
    | (with_reducible apply State.at__kept)
    | (with_reducible apply State.vTo_kept)
    | (with_reducible exact Kept.refl _ _)
    | (exact Sub.of ‹_› (by rfl))
    | split
    | (dsimp only)

theorem execVctlWrite_kept (v : Nat) (s : State) :
    ∃ t₁, execVctlWrite v s = .next t₁ ∧ Kept [.regs, .host, .vec, .lv, .axl, .hsf, .mtx, .mate] s t₁ := by
  unfold execVctlWrite
  refine ⟨_, rfl, ?_⟩
  have hk := Kept.refl [.regs, .host, .vec, .lv, .axl, .hsf, .mtx, .mate] s
  have hP := Sub.self [.regs, .host, .vec, .lv, .axl, .hsf, .mtx, .mate]
  repeat' first
    | (with_reducible assumption)
    | (with_reducible apply State.byHost_kept)
    | (with_reducible apply State.afterWrite_kept)
    | (with_reducible apply State.vctlWrite_kept)
    | (with_reducible exact Kept.refl _ _)
    | (exact Sub.of ‹_› (by rfl))
    | (intro _)
    | (dsimp only)

theorem execAvsFault_kept (s : State) :
    ∃ t₁, execAvsFault s = .next t₁ ∧ Kept [.regs, .media, .xpt, .fst, .fstMem, .che, .sou, .aud, .vec, .syn, .flt, .hsf] s t₁ := by
  unfold execAvsFault
  refine ⟨_, rfl, ?_⟩
  have hk := Kept.refl [.regs, .media, .xpt, .fst, .fstMem, .che, .sou, .aud, .vec, .syn, .flt, .hsf] s
  have hP := Sub.self [.regs, .media, .xpt, .fst, .fstMem, .che, .sou, .aud, .vec, .syn, .flt, .hsf]
  repeat' first
    | (with_reducible assumption)
    | (with_reducible apply State.setVState_kept)
    | (with_reducible apply State.avsErr_kept)
    | (with_reducible exact Kept.refl _ _)
    | (exact Sub.of ‹_› (by rfl))
    | (simp only [Kept.mk_iff]; with_reducible apply KeptC.of)
    | (with_reducible exact Or.inr rfl)
    | (with_reducible exact Or.inr ⟨rfl, rfl⟩)
    | (exact Or.inl (Sub.mem ‹_› (by rfl)))
    | (with_reducible rfl)
    | split
    | (dsimp only)

theorem execAvsRetry_kept (ok : Bool) (s : State) :
    ∃ t₁, execAvsRetry ok s = .next t₁ ∧ Kept [.regs, .media, .xpt, .fst, .fstMem, .che, .sou, .aud, .vec, .syn, .flt, .hsf] s t₁ := by
  unfold execAvsRetry
  refine ⟨_, rfl, ?_⟩
  have hk := Kept.refl [.regs, .media, .xpt, .fst, .fstMem, .che, .sou, .aud, .vec, .syn, .flt, .hsf] s
  have hP := Sub.self [.regs, .media, .xpt, .fst, .fstMem, .che, .sou, .aud, .vec, .syn, .flt, .hsf]
  repeat' first
    | (with_reducible assumption)
    | (with_reducible apply State.set_kept)
    | (with_reducible apply State.setVState_kept)
    | (with_reducible apply State.avsErr_kept)
    | (with_reducible exact Kept.refl _ _)
    | (exact Sub.of ‹_› (by rfl))
    | split
    | (dsimp only)

theorem execHandshakeTimeout_kept (b : Fin 96) (w : LostWord) (t : Nat) (s : State) :
    ∃ t₁, execHandshakeTimeout b w t s = .next t₁ ∧ Kept [.regs, .media, .xpt, .fst, .fstMem, .che, .sou, .aud, .vec, .syn, .flt, .hsf] s t₁ := by
  unfold execHandshakeTimeout
  refine ⟨_, rfl, ?_⟩
  have hk := Kept.refl [.regs, .media, .xpt, .fst, .fstMem, .che, .sou, .aud, .vec, .syn, .flt, .hsf] s
  have hP := Sub.self [.regs, .media, .xpt, .fst, .fstMem, .che, .sou, .aud, .vec, .syn, .flt, .hsf]
  repeat' first
    | (with_reducible assumption)
    | (with_reducible apply State.inc_kept)
    | (with_reducible apply State.at__kept)
    | (with_reducible apply State.raise_kept)
    | (with_reducible apply State.reportError_kept)
    | (with_reducible apply State.wordLost_kept)
    | (with_reducible exact Kept.refl _ _)
    | (exact Sub.of ‹_› (by rfl))
    | (dsimp only)

theorem execCrossingRelease_kept (d : Fin 250) (dropped : Nat) (s : State) :
    ∃ t₁, execCrossingRelease d dropped s = .next t₁ ∧ Kept [.regs, .vec] s t₁ := by
  unfold execCrossingRelease
  refine ⟨_, rfl, ?_⟩
  have hk := Kept.refl [.regs, .vec] s
  have hP := Sub.self [.regs, .vec]
  repeat' first
    | (with_reducible assumption)
    | (with_reducible apply State.set_kept)
    | (with_reducible apply State.xDrop_kept)
    | (with_reducible exact Kept.refl _ _)
    | (exact Sub.of ‹_› (by rfl))
    | split
    | (dsimp only)

end Sys2Proof.Machine
end

