-- ==== Sys2Proof/Laws/ExecFaults.lean ====
section
/-! SUPPORT. Each command of Machine/Faults.lean answers a next state, keeps the queue and the canonical forms, and changes only the parts named. -/
set_option Elab.async false
namespace Sys2Proof.Machine

theorem execErrorDetected_kept (u : Nat) (src : Nat) (t : Nat) (s : State) :
    ∃ t₁, execErrorDetected u src t s = .next t₁ ∧ Kept [.regs, .media, .xpt, .fst, .fstMem, .che, .sou, .aud, .vec, .syn, .flt, .hsf] s t₁ := by
  unfold execErrorDetected
  refine ⟨_, rfl, ?_⟩
  have hk := Kept.refl [.regs, .media, .xpt, .fst, .fstMem, .che, .sou, .aud, .vec, .syn, .flt, .hsf] s
  have hP := Sub.self [.regs, .media, .xpt, .fst, .fstMem, .che, .sou, .aud, .vec, .syn, .flt, .hsf]
  repeat' first
    | (with_reducible assumption)
    | (with_reducible apply State.at__kept)
    | (with_reducible apply State.reportError_kept)
    | (with_reducible exact Kept.refl _ _)
    | (exact Sub.of ‹_› (by rfl))
    | split
    | (dsimp only)

theorem execSelfTestStart_kept (t : Nat) (s : State) :
    ∃ t₁, execSelfTestStart t s = .next t₁ ∧ Kept [.regs, .free, .media, .xpt, .fst, .che, .sou, .aud, .host, .vec, .hostMem, .lv, .ref, .syn, .sec, .flt, .axl, .hsf, .mate] s t₁ := by
  unfold execSelfTestStart
  refine ⟨_, rfl, ?_⟩
  have hk := Kept.refl [.regs, .free, .media, .xpt, .fst, .che, .sou, .aud, .host, .vec, .hostMem, .lv, .ref, .syn, .sec, .flt, .axl, .hsf, .mate] s
  have hP := Sub.self [.regs, .free, .media, .xpt, .fst, .che, .sou, .aud, .host, .vec, .hostMem, .lv, .ref, .syn, .sec, .flt, .axl, .hsf, .mate]
  repeat' first
    | (with_reducible assumption)
    | (with_reducible apply State.at__kept)
    | (with_reducible apply State.setRec_kept)
    | (with_reducible apply State.sdiInputs_kept)
    | (with_reducible apply State.testBegin_kept)
    | (refine State.nextTest_kept' ?_ (by with_reducible assumption))
    | (with_reducible exact Kept.refl _ _)
    | (exact Sub.of ‹_› (by rfl))
    | (simp only [Kept.mk_iff]; with_reducible apply KeptC.of)
    | (with_reducible exact Or.inr rfl)
    | (with_reducible exact Or.inr ⟨rfl, rfl⟩)
    | (exact Or.inl (Sub.mem ‹_› (by rfl)))
    | (with_reducible rfl)
    | split
    | (dsimp only)

theorem execSelfTestEnd_kept (r : TestRes) (t : Nat) (s : State) :
    ∃ t₁, execSelfTestEnd r t s = .next t₁ ∧ Kept [.regs, .media, .xpt, .fst, .fstMem, .che, .sou, .aud, .vec, .syn, .flt, .hsf] s t₁ := by
  unfold execSelfTestEnd
  refine ⟨_, rfl, ?_⟩
  have hk := Kept.refl [.regs, .media, .xpt, .fst, .fstMem, .che, .sou, .aud, .vec, .syn, .flt, .hsf] s
  have hP := Sub.self [.regs, .media, .xpt, .fst, .fstMem, .che, .sou, .aud, .vec, .syn, .flt, .hsf]
  repeat' first
    | (with_reducible assumption)
    | (with_reducible apply State.at__kept)
    | (with_reducible apply State.testPass_kept)
    | (with_reducible apply State.testFail_kept)
    | (with_reducible apply State.testAbandon_kept)
    | (with_reducible exact Kept.refl _ _)
    | (exact Sub.of ‹_› (by rfl))
    | split
    | (dsimp only)

theorem execFltAckWrite_kept (v : Nat) (s : State) :
    ∃ t₁, execFltAckWrite v s = .next t₁ ∧ Kept [.regs, .vec, .flt, .mtx] s t₁ := by
  unfold execFltAckWrite
  refine ⟨_, rfl, ?_⟩
  have hk := Kept.refl [.regs, .vec, .flt, .mtx] s
  have hP := Sub.self [.regs, .vec, .flt, .mtx]
  repeat' first
    | (with_reducible assumption)
    | (with_reducible apply State.byHost_kept)
    | (with_reducible apply State.fltAckWrite_kept)
    | (with_reducible exact Kept.refl _ _)
    | (exact Sub.of ‹_› (by rfl))
    | (intro _)
    | (dsimp only)

theorem execFltUnfenceWrite_kept (v : Nat) (t : Nat) (s : State) :
    ∃ t₁, execFltUnfenceWrite v t s = .next t₁ ∧ Kept [.regs, .free, .vec, .flt, .mtx] s t₁ := by
  unfold execFltUnfenceWrite
  refine ⟨_, rfl, ?_⟩
  have hk := Kept.refl [.regs, .free, .vec, .flt, .mtx] s
  have hP := Sub.self [.regs, .free, .vec, .flt, .mtx]
  repeat' first
    | (with_reducible assumption)
    | (with_reducible apply State.byHost_kept)
    | (with_reducible apply State.fltUnfenceWrite_kept)
    | (with_reducible exact Kept.refl _ _)
    | (exact Sub.of ‹_› (by rfl))
    | (intro _)
    | (dsimp only)

end Sys2Proof.Machine
end

