-- ==== Sys2Proof/Laws/ExecFrameStore.lean ====
section
/-! SUPPORT. Each command of Machine/FrameStore.lean answers a next state, keeps the queue and the canonical forms, and changes only the parts named. -/
set_option Elab.async false
namespace Sys2Proof.Machine

theorem execBufAlloc_kept (h : Hdr) (depth : Nat) (fmt : Nat) (pix : Nat) (cdesc : Nat) (cw : Nat) (s : State) :
    ∃ t₁, execBufAlloc h depth fmt pix cdesc cw s = .next t₁ ∧ Kept [.regs, .fst, .host, .vec, .axl, .hsf, .mate] s t₁ := by
  unfold execBufAlloc
  refine ⟨_, rfl, ?_⟩
  have hk := Kept.refl [.regs, .fst, .host, .vec, .axl, .hsf, .mate] s
  have hP := Sub.self [.regs, .fst, .host, .vec, .axl, .hsf, .mate]
  repeat' first
    | (with_reducible assumption)
    | (with_reducible apply State.desc_kept)
    | (with_reducible apply bufAllocBody_kept)
    | (with_reducible exact Kept.refl _ _)
    | (exact Sub.of ‹_› (by rfl))
    | (intro _)
    | (with_reducible exact Adm.kept_bad ..)
    | (with_reducible exact Adm.kept_badData ..)
    | (with_reducible exact Adm.kept_short ..)
    | (with_reducible exact Adm.kept_denied ..)
    | (with_reducible exact Adm.kept_no ..)
    | (with_reducible exact Adm.kept_wait ..)
    | (with_reducible apply Adm.kept_late)
    | (with_reducible apply Adm.kept_deny)
    | (with_reducible apply Adm.kept_yes)
    | (with_reducible refine Adm.ite (fun _ => ?_) fun _ => ?_)
    | (exact Sub.of ‹_› (by rfl))
    | (dsimp only)

theorem execBufFree_kept (h : Hdr) (ring : Nat) (s : State) :
    ∃ t₁, execBufFree h ring s = .next t₁ ∧ Kept [.regs, .fst, .host, .vec, .axl, .hsf, .mate] s t₁ := by
  unfold execBufFree
  refine ⟨_, rfl, ?_⟩
  have hk := Kept.refl [.regs, .fst, .host, .vec, .axl, .hsf, .mate] s
  have hP := Sub.self [.regs, .fst, .host, .vec, .axl, .hsf, .mate]
  repeat' first
    | (with_reducible assumption)
    | (with_reducible apply State.desc_kept)
    | (with_reducible apply bufFreeBody_kept)
    | (with_reducible exact Kept.refl _ _)
    | (exact Sub.of ‹_› (by rfl))
    | (intro _)
    | (with_reducible exact Adm.kept_bad ..)
    | (with_reducible exact Adm.kept_badData ..)
    | (with_reducible exact Adm.kept_short ..)
    | (with_reducible exact Adm.kept_denied ..)
    | (with_reducible exact Adm.kept_no ..)
    | (with_reducible exact Adm.kept_wait ..)
    | (with_reducible apply Adm.kept_late)
    | (with_reducible apply Adm.kept_deny)
    | (with_reducible apply Adm.kept_yes)
    | (with_reducible refine Adm.ite (fun _ => ?_) fun _ => ?_)
    | (exact Sub.of ‹_› (by rfl))
    | (dsimp only)

theorem execBufWrite_kept (h : Hdr) (b : BufReq) (data : Option (List Byte)) (s : State) :
    ∃ t₁, execBufWrite h b data s = .next t₁ ∧ Kept [.regs, .fst, .fstMem, .sou, .host, .vec, .axl, .hsf, .mate] s t₁ := by
  unfold execBufWrite
  refine ⟨_, rfl, ?_⟩
  have hk := Kept.refl [.regs, .fst, .fstMem, .sou, .host, .vec, .axl, .hsf, .mate] s
  have hP := Sub.self [.regs, .fst, .fstMem, .sou, .host, .vec, .axl, .hsf, .mate]
  repeat' first
    | (with_reducible assumption)
    | (with_reducible apply State.desc_kept)
    | (with_reducible apply bufWriteBody_kept)
    | (with_reducible exact Kept.refl _ _)
    | (exact Sub.of ‹_› (by rfl))
    | (intro _)
    | (with_reducible exact Adm.kept_bad ..)
    | (with_reducible exact Adm.kept_badData ..)
    | (with_reducible exact Adm.kept_short ..)
    | (with_reducible exact Adm.kept_denied ..)
    | (with_reducible exact Adm.kept_no ..)
    | (with_reducible exact Adm.kept_wait ..)
    | (with_reducible apply Adm.kept_late)
    | (with_reducible apply Adm.kept_deny)
    | (with_reducible apply Adm.kept_yes)
    | (with_reducible refine Adm.ite (fun _ => ?_) fun _ => ?_)
    | (exact Sub.of ‹_› (by rfl))
    | (dsimp only)

theorem execBufRead_kept (h : Hdr) (b : BufReq) (newest : Bool) (info : Bool) (writeOk : Bool) (s : State) :
    ∃ t₁, execBufRead h b newest info writeOk s = .next t₁ ∧ Kept [.regs, .fst, .host, .vec, .hostMem, .axl, .hsf, .mate] s t₁ := by
  unfold execBufRead
  refine ⟨_, rfl, ?_⟩
  have hk := Kept.refl [.regs, .fst, .host, .vec, .hostMem, .axl, .hsf, .mate] s
  have hP := Sub.self [.regs, .fst, .host, .vec, .hostMem, .axl, .hsf, .mate]
  repeat' first
    | (with_reducible assumption)
    | (with_reducible apply State.desc_kept)
    | (with_reducible apply bufReadBody_kept)
    | (with_reducible exact Kept.refl _ _)
    | (exact Sub.of ‹_› (by rfl))
    | (intro _)
    | (with_reducible exact Adm.kept_bad ..)
    | (with_reducible exact Adm.kept_badData ..)
    | (with_reducible exact Adm.kept_short ..)
    | (with_reducible exact Adm.kept_denied ..)
    | (with_reducible exact Adm.kept_no ..)
    | (with_reducible exact Adm.kept_wait ..)
    | (with_reducible apply Adm.kept_late)
    | (with_reducible apply Adm.kept_deny)
    | (with_reducible apply Adm.kept_yes)
    | (with_reducible refine Adm.ite (fun _ => ?_) fun _ => ?_)
    | (exact Sub.of ‹_› (by rfl))
    | (dsimp only)

theorem execBufferRefRelease_kept (hnd : Nat) (s : State) :
    ∃ t₁, execBufferRefRelease hnd s = .next t₁ ∧ Kept [.fst] s t₁ := by
  unfold execBufferRefRelease
  refine ⟨_, rfl, ?_⟩
  have hk := Kept.refl [.fst] s
  have hP := Sub.self [.fst]
  repeat' first
    | (with_reducible assumption)
    | (with_reducible apply State.setBuf_kept)
    | (with_reducible apply State.dropBuf_kept)
    | (with_reducible exact Kept.refl _ _)
    | (exact Sub.of ‹_› (by rfl))
    | (intro _)
    | split
    | (dsimp only)

theorem execCwFrameStart_kept (k : Fin 168) (coming : Pic) (t : Nat) (s : State) :
    ∃ t₁, execCwFrameStart k coming t s = .next t₁ ∧ Kept [.regs, .fst] s t₁ := by
  unfold execCwFrameStart
  refine ⟨_, rfl, ?_⟩
  have hk := Kept.refl [.regs, .fst] s
  have hP := Sub.self [.regs, .fst]
  repeat' first
    | (with_reducible assumption)
    | (with_reducible apply State.at__kept)
    | (with_reducible apply State.cwBegin_kept)
    | (with_reducible exact Kept.refl _ _)
    | (exact Sub.of ‹_› (by rfl))
    | split
    | (dsimp only)

theorem execCwFrameComplete_kept (k : Fin 168) (seen : Option Pic) (t : Nat) (s : State) :
    ∃ t₁, execCwFrameComplete k seen t s = .next t₁ ∧ Kept [.regs, .fst, .fstMem, .sou] s t₁ := by
  unfold execCwFrameComplete
  refine ⟨_, rfl, ?_⟩
  have hk := Kept.refl [.regs, .fst, .fstMem, .sou] s
  have hP := Sub.self [.regs, .fst, .fstMem, .sou]
  repeat' first
    | (with_reducible assumption)
    | (with_reducible apply State.inc_kept)
    | (with_reducible apply State.at__kept)
    | (with_reducible apply State.setCw_kept)
    | (with_reducible apply State.completeBuf_kept)
    | (with_reducible apply State.storeLines_kept)
    | (with_reducible exact Kept.refl _ _)
    | (exact Sub.of ‹_› (by rfl))
    | split
    | (dsimp only)

theorem execCwResume_kept (k : Fin 168) (coming : Pic) (t : Nat) (s : State) :
    ∃ t₁, execCwResume k coming t s = .next t₁ ∧ Kept [.regs, .fst] s t₁ := by
  unfold execCwResume
  refine ⟨_, rfl, ?_⟩
  have hk := Kept.refl [.regs, .fst] s
  have hP := Sub.self [.regs, .fst]
  repeat' first
    | (with_reducible assumption)
    | (with_reducible apply State.at__kept)
    | (with_reducible apply State.cwBegin_kept)
    | (with_reducible exact Kept.refl _ _)
    | (exact Sub.of ‹_› (by rfl))
    | split
    | (dsimp only)

theorem execEccCorrected_kept (g : Fin 16384) (t : Nat) (s : State) :
    ∃ t₁, execEccCorrected g t s = .next t₁ ∧ Kept [.regs, .media, .xpt, .fst, .fstMem, .che, .sou, .aud, .vec, .syn, .flt, .hsf] s t₁ := by
  unfold execEccCorrected
  refine ⟨_, rfl, ?_⟩
  have hk := Kept.refl [.regs, .media, .xpt, .fst, .fstMem, .che, .sou, .aud, .vec, .syn, .flt, .hsf] s
  have hP := Sub.self [.regs, .media, .xpt, .fst, .fstMem, .che, .sou, .aud, .vec, .syn, .flt, .hsf]
  repeat' first
    | (with_reducible assumption)
    | (with_reducible apply State.at__kept)
    | (with_reducible apply State.corrected_kept)
    | (with_reducible exact Kept.refl _ _)
    | (exact Sub.of ‹_› (by rfl))
    | (dsimp only)

theorem execEccUncorrectable_kept (g : Fin 16384) (off : Nat) (t : Nat) (s : State) :
    ∃ t₁, execEccUncorrectable g off t s = .next t₁ ∧ Kept [.regs, .media, .xpt, .fst, .fstMem, .che, .sou, .aud, .vec, .syn, .flt, .hsf] s t₁ := by
  unfold execEccUncorrectable
  refine ⟨_, rfl, ?_⟩
  have hk := Kept.refl [.regs, .media, .xpt, .fst, .fstMem, .che, .sou, .aud, .vec, .syn, .flt, .hsf] s
  have hP := Sub.self [.regs, .media, .xpt, .fst, .fstMem, .che, .sou, .aud, .vec, .syn, .flt, .hsf]
  repeat' first
    | (with_reducible assumption)
    | (with_reducible apply State.inc_kept)
    | (with_reducible apply State.at__kept)
    | (with_reducible apply State.raise_kept)
    | (with_reducible apply State.reportError_kept)
    | (with_reducible exact Kept.refl _ _)
    | (exact Sub.of ‹_› (by rfl))
    | (simp only [Kept.mk_iff]; with_reducible apply KeptC.of)
    | (with_reducible exact Or.inr rfl)
    | (with_reducible exact Or.inr ⟨rfl, rfl⟩)
    | (exact Or.inl (Sub.mem ‹_› (by rfl)))
    | (with_reducible rfl)
    | split
    | (dsimp only)

theorem execPatrolScrub_kept (corrected : List Nat) (t : Nat) (s : State) :
    ∃ t₁, execPatrolScrub corrected t s = .next t₁ ∧ Kept [.regs, .media, .xpt, .fst, .fstMem, .che, .sou, .aud, .vec, .syn, .flt, .hsf] s t₁ := by
  unfold execPatrolScrub
  refine ⟨_, rfl, ?_⟩
  have hk := Kept.refl [.regs, .media, .xpt, .fst, .fstMem, .che, .sou, .aud, .vec, .syn, .flt, .hsf] s
  have hP := Sub.self [.regs, .media, .xpt, .fst, .fstMem, .che, .sou, .aud, .vec, .syn, .flt, .hsf]
  repeat' first
    | (with_reducible assumption)
    | (with_reducible apply State.at__kept)
    | (with_reducible apply State.corrected_kept)
    | (with_reducible refine Kept.foldl ?_ ?_)
    | (with_reducible exact Kept.refl _ _)
    | (exact Sub.of ‹_› (by rfl))
    | (intro _)
    | split
    | (dsimp only)

theorem execGranuleListSwitch_kept (hnd : Nat) (s : State) :
    ∃ t₁, execGranuleListSwitch hnd s = .next t₁ ∧ Kept [.fst, .fstMem] s t₁ := by
  unfold execGranuleListSwitch
  refine ⟨_, rfl, ?_⟩
  have hk := Kept.refl [.fst, .fstMem] s
  have hP := Sub.self [.fst, .fstMem]
  repeat' first
    | (with_reducible assumption)
    | (with_reducible apply State.setBuf_kept)
    | (with_reducible apply State.copyGran_kept)
    | (with_reducible refine Kept.foldl ?_ ?_)
    | (with_reducible exact Kept.refl _ _)
    | (exact Sub.of ‹_› (by rfl))
    | (intro _)
    | split
    | (dsimp only)

end Sys2Proof.Machine
end

