-- ==== Sys2Proof/Laws/ExecHost.lean ====
section
/-! SUPPORT. Each command of Machine/Host.lean answers a next state, keeps the queue and the canonical forms, and changes only the parts named. -/
set_option Elab.async false
namespace Sys2Proof.Machine

theorem execHostLinkReset_kept (e : LinkEvent) (s : State) :
    ∃ t₁, execHostLinkReset e s = .next t₁ ∧ Kept [.regs, .fst, .host, .vec, .hsf, .mtx] s t₁ := by
  unfold execHostLinkReset
  refine ⟨_, rfl, ?_⟩
  extract_lets s1 h2' p2 s2
  have hP := Sub.self [.regs, .fst, .host, .vec, .hsf, .mtx]
  have h1 : Kept [.regs, .fst, .host, .vec, .hsf, .mtx] s s1 := State.dropHost_kept (Kept.refl _ s)
  have h2 : Kept [.regs, .fst, .host, .vec, .hsf, .mtx] s s2 := Kept.upd_host h1 _ rfl ⟨rfl, rfl⟩
  exact Kept.ite (fun _ => State.resetMaster_kept h2 _) fun _ => h2

theorem execPerstAssert_kept (s : State) :
    ∃ t₁, execPerstAssert s = .next t₁ ∧ Kept [.regs, .fst, .host, .vec, .hsf, .mtx] s t₁ := by
  unfold execPerstAssert
  refine ⟨_, rfl, ?_⟩
  extract_lets s1 h0 s2
  have hP := Sub.self [.regs, .fst, .host, .vec, .hsf, .mtx]
  have h1 : Kept [.regs, .fst, .host, .vec, .hsf, .mtx] s s1 := State.portReset_kept
    (State.resetMaster_kept (State.resetMaster_kept (State.dropHost_kept (Kept.refl _ s)) _) _) _ _
  clear_value s1
  have h2 : Kept [.regs, .fst, .host, .vec, .hsf, .mtx] s s2 := Kept.upd_host h1 _ rfl ⟨rfl, rfl⟩
  clear_value s2
  exact Kept.ite (fun _ => h2) fun _ => State.set_kept h2 _ _ _

theorem execRingEnable_kept (n : Fin 64) (s : State) :
    ∃ t₁, execRingEnable n s = .next t₁ ∧ Kept [.regs, .host, .vec, .hostMem, .sec] s t₁ := by
  unfold execRingEnable
  refine ⟨_, rfl, ?_⟩
  have hk := Kept.refl [.regs, .host, .vec, .hostMem, .sec] s
  have hP := Sub.self [.regs, .host, .vec, .hostMem, .sec]
  repeat' first
    | (with_reducible assumption)
    | (with_reducible apply State.ringEnable_kept)
    | (with_reducible exact Kept.refl _ _)
    | (exact Sub.of ‹_› (by rfl))
    | split
    | (dsimp only)

theorem execRingDisable_kept (n : Fin 64) (s : State) :
    ∃ t₁, execRingDisable n s = .next t₁ ∧ Kept [.regs, .vec, .mtx] s t₁ := by
  unfold execRingDisable
  refine ⟨_, rfl, ?_⟩
  have hk := Kept.refl [.regs, .vec, .mtx] s
  have hP := Sub.self [.regs, .vec, .mtx]
  repeat' first
    | (with_reducible assumption)
    | (with_reducible apply State.byHost_kept)
    | (with_reducible apply State.ringDisable_kept)
    | (with_reducible exact Kept.refl _ _)
    | (exact Sub.of ‹_› (by rfl))
    | (intro _)
    | (dsimp only)

theorem execRingAbandon_kept (n : Fin 64) (s : State) :
    ∃ t₁, execRingAbandon n s = .next t₁ ∧ Kept [.regs, .xpt, .fst, .che, .sou, .aud, .host, .vec, .hostMem, .sec, .mtx] s t₁ := by
  unfold execRingAbandon
  refine ⟨_, rfl, ?_⟩
  have hk := Kept.refl [.regs, .xpt, .fst, .che, .sou, .aud, .host, .vec, .hostMem, .sec, .mtx] s
  have hP := Sub.self [.regs, .xpt, .fst, .che, .sou, .aud, .host, .vec, .hostMem, .sec, .mtx]
  repeat' first
    | (with_reducible assumption)
    | (with_reducible apply State.byHost_kept)
    | (with_reducible apply State.ringAbandon_kept)
    | (with_reducible exact Kept.refl _ _)
    | (exact Sub.of ‹_› (by rfl))
    | (intro _)
    | (dsimp only)

theorem execRingDrained_kept (n : Fin 64) (s : State) :
    ∃ t₁, execRingDrained n s = .next t₁ ∧ Kept [.regs] s t₁ := by
  unfold execRingDrained
  refine ⟨_, rfl, ?_⟩
  have hk := Kept.refl [.regs] s
  have hP := Sub.self [.regs]
  repeat' first
    | (with_reducible assumption)
    | (with_reducible apply State.setRingSt_kept)
    | (with_reducible exact Kept.refl _ _)
    | (exact Sub.of ‹_› (by rfl))
    | split
    | (dsimp only)

theorem execCroak_kept (n : Fin 64) (v : Nat) (s : State) :
    ∃ t₁, execCroak n v s = .next t₁ ∧ Kept [.regs, .host, .vec] s t₁ := by
  unfold execCroak
  refine ⟨_, rfl, ?_⟩
  have hk := Kept.refl [.regs, .host, .vec] s
  have hP := Sub.self [.regs, .host, .vec]
  repeat' first
    | (with_reducible assumption)
    | (with_reducible apply State.ifUp_kept)
    | (with_reducible apply State.croak_kept)
    | (with_reducible exact Kept.refl _ _)
    | (exact Sub.of ‹_› (by rfl))
    | (intro _)
    | (dsimp only)

theorem execCqHeadWrite_kept (n : Fin 64) (v : Nat) (s : State) :
    ∃ t₁, execCqHeadWrite n v s = .next t₁ ∧ Kept [.regs, .host, .vec] s t₁ := by
  unfold execCqHeadWrite
  refine ⟨_, rfl, ?_⟩
  have hk := Kept.refl [.regs, .host, .vec] s
  have hP := Sub.self [.regs, .host, .vec]
  repeat' first
    | (with_reducible assumption)
    | (with_reducible apply State.ifUp_kept)
    | (with_reducible apply State.cqHead_kept)
    | (with_reducible exact Kept.refl _ _)
    | (exact Sub.of ‹_› (by rfl))
    | (intro _)
    | (dsimp only)

theorem execDescriptorFetch_kept (n : Fin 64) (r : FetchRes) (t : Nat) (s : State) :
    ∃ t₁, execDescriptorFetch n r t s = .next t₁ ∧ Kept [.regs, .host, .vec] s t₁ := by
  unfold execDescriptorFetch
  refine ⟨_, rfl, ?_⟩
  have hk := Kept.refl [.regs, .host, .vec] s
  have hP := Sub.self [.regs, .host, .vec]
  repeat' first
    | (with_reducible assumption)
    | (with_reducible apply State.set_kept)
    | (with_reducible apply State.at__kept)
    | (with_reducible apply State.raise_kept)
    | (with_reducible apply State.setRst_kept)
    | (with_reducible apply State.pushCpl_kept)
    | (with_reducible apply State.stopRing_kept)
    | (with_reducible apply State.domEnter_kept)
    | (with_reducible apply State.takeTurn_kept)
    | (with_reducible exact Kept.refl _ _)
    | (exact Sub.of ‹_› (by rfl))
    | split
    | (dsimp only)

theorem execCompletionPost_kept (n : Fin 64) (ok : Bool) (t : Nat) (s : State) :
    ∃ t₁, execCompletionPost n ok t s = .next t₁ ∧ Kept [.regs, .fst, .host, .vec, .hostMem] s t₁ := by
  unfold execCompletionPost
  refine ⟨_, rfl, ?_⟩
  have hk := Kept.refl [.regs, .fst, .host, .vec, .hostMem] s
  have hP := Sub.self [.regs, .fst, .host, .vec, .hostMem]
  repeat' first
    | (with_reducible assumption)
    | (with_reducible apply State.at__kept)
    | (with_reducible apply State.domEnter_kept)
    | (with_reducible apply State.postCpl_kept)
    | (with_reducible apply State.loseCpl_kept)
    | (with_reducible exact Kept.refl _ _)
    | (exact Sub.of ‹_› (by rfl))
    | split
    | (dsimp only)

theorem execCoalTimerExpiry_kept (n : Fin 64) (t : Nat) (s : State) :
    ∃ t₁, execCoalTimerExpiry n t s = .next t₁ ∧ Kept [.host, .vec] s t₁ := by
  unfold execCoalTimerExpiry
  refine ⟨_, rfl, ?_⟩
  have hk := Kept.refl [.host, .vec] s
  have hP := Sub.self [.host, .vec]
  repeat' first
    | (with_reducible assumption)
    | (with_reducible apply State.at__kept)
    | (with_reducible apply State.raiseVec_kept)
    | (with_reducible apply State.setRst_kept)
    | (with_reducible exact Kept.refl _ _)
    | (exact Sub.of ‹_› (by rfl))
    | split
    | (dsimp only)

theorem execNop_kept (h : Hdr) (s : State) :
    ∃ t₁, execNop h s = .next t₁ ∧ Kept [.regs, .host, .vec, .axl, .hsf, .mate] s t₁ := by
  unfold execNop
  refine ⟨_, rfl, ?_⟩
  have hk := Kept.refl [.regs, .host, .vec, .axl, .hsf, .mate] s
  have hP := Sub.self [.regs, .host, .vec, .axl, .hsf, .mate]
  repeat' first
    | (with_reducible assumption)
    | (with_reducible apply State.ok_kept)
    | (with_reducible apply State.desc_kept)
    | (with_reducible exact Kept.refl _ _)
    | (exact Sub.of ‹_› (by rfl))
    | (intro _)
    | (with_reducible exact Adm.kept_bad ..)
    | (with_reducible exact Adm.kept_badData ..)
    | (with_reducible exact Adm.kept_short ..)
    | (with_reducible exact Adm.kept_denied ..)
    | (with_reducible exact Adm.kept_no ..)
    | (with_reducible exact Adm.kept_wait ..)
    | (with_reducible apply Adm.kept_late)
    | (with_reducible apply Adm.kept_deny)
    | (with_reducible apply Adm.kept_yes)
    | (with_reducible refine Adm.ite (fun _ => ?_) fun _ => ?_)
    | (exact Sub.of ‹_› (by rfl))
    | (intro _)
    | split
    | (dsimp only)

theorem execQueryStatus_kept (h : Hdr) (q : QueryReq) (s : State) :
    ∃ t₁, execQueryStatus h q s = .next t₁ ∧ Kept [.regs, .host, .vec, .hostMem, .axl, .hsf, .mate] s t₁ := by
  unfold execQueryStatus
  refine ⟨_, rfl, ?_⟩
  have hk := Kept.refl [.regs, .host, .vec, .hostMem, .axl, .hsf, .mate] s
  have hP := Sub.self [.regs, .host, .vec, .hostMem, .axl, .hsf, .mate]
  repeat' first
    | (with_reducible assumption)
    | (with_reducible apply State.desc_kept)
    | (with_reducible apply queryBody_kept)
    | (with_reducible exact Kept.refl _ _)
    | (exact Sub.of ‹_› (by rfl))
    | (intro _)
    | (with_reducible exact Adm.kept_bad ..)
    | (with_reducible exact Adm.kept_badData ..)
    | (with_reducible exact Adm.kept_short ..)
    | (with_reducible exact Adm.kept_denied ..)
    | (with_reducible exact Adm.kept_no ..)
    | (with_reducible exact Adm.kept_wait ..)
    | (with_reducible apply Adm.kept_late)
    | (with_reducible apply Adm.kept_deny)
    | (with_reducible apply Adm.kept_yes)
    | (with_reducible refine Adm.ite (fun _ => ?_) fun _ => ?_)
    | (exact Sub.of ‹_› (by rfl))
    | (dsimp only)

theorem execStats_kept (h : Hdr) (q : QueryReq) (s : State) :
    ∃ t₁, execStats h q s = .next t₁ ∧ Kept [.regs, .host, .vec, .hostMem, .axl, .hsf, .mate] s t₁ := by
  unfold execStats
  refine ⟨_, rfl, ?_⟩
  have hk := Kept.refl [.regs, .host, .vec, .hostMem, .axl, .hsf, .mate] s
  have hP := Sub.self [.regs, .host, .vec, .hostMem, .axl, .hsf, .mate]
  repeat' first
    | (with_reducible assumption)
    | (with_reducible apply State.desc_kept)
    | (with_reducible apply queryBody_kept)
    | (with_reducible exact Kept.refl _ _)
    | (exact Sub.of ‹_› (by rfl))
    | (intro _)
    | (with_reducible exact Adm.kept_bad ..)
    | (with_reducible exact Adm.kept_badData ..)
    | (with_reducible exact Adm.kept_short ..)
    | (with_reducible exact Adm.kept_denied ..)
    | (with_reducible exact Adm.kept_no ..)
    | (with_reducible exact Adm.kept_wait ..)
    | (with_reducible apply Adm.kept_late)
    | (with_reducible apply Adm.kept_deny)
    | (with_reducible apply Adm.kept_yes)
    | (with_reducible refine Adm.ite (fun _ => ?_) fun _ => ?_)
    | (exact Sub.of ‹_› (by rfl))
    | (dsimp only)

theorem execFlowRxCfg_kept (h : Hdr) (f : FlowReq) (s : State) :
    ∃ t₁, execFlowRxCfg h f s = .next t₁ ∧ Kept [.regs, .media, .xpt, .fst, .aud, .host, .vec, .axl, .hsf, .mate] s t₁ := by
  unfold execFlowRxCfg
  refine ⟨_, rfl, ?_⟩
  have hk := Kept.refl [.regs, .media, .xpt, .fst, .aud, .host, .vec, .axl, .hsf, .mate] s
  have hP := Sub.self [.regs, .media, .xpt, .fst, .aud, .host, .vec, .axl, .hsf, .mate]
  repeat' first
    | (with_reducible assumption)
    | (with_reducible apply State.desc_kept)
    | (with_reducible apply flowBody_kept)
    | (with_reducible exact Kept.refl _ _)
    | (exact Sub.of ‹_› (by rfl))
    | (intro _)
    | (with_reducible exact Adm.kept_bad ..)
    | (with_reducible exact Adm.kept_badData ..)
    | (with_reducible exact Adm.kept_short ..)
    | (with_reducible exact Adm.kept_denied ..)
    | (with_reducible exact Adm.kept_no ..)
    | (with_reducible exact Adm.kept_wait ..)
    | (with_reducible apply Adm.kept_late)
    | (with_reducible apply Adm.kept_deny)
    | (with_reducible apply Adm.kept_yes)
    | (with_reducible refine Adm.ite (fun _ => ?_) fun _ => ?_)
    | (exact Sub.of ‹_› (by rfl))
    | (dsimp only)

theorem execFlowTxCfg_kept (h : Hdr) (f : FlowReq) (s : State) :
    ∃ t₁, execFlowTxCfg h f s = .next t₁ ∧ Kept [.regs, .media, .xpt, .fst, .aud, .host, .vec, .axl, .hsf, .mate] s t₁ := by
  unfold execFlowTxCfg
  refine ⟨_, rfl, ?_⟩
  have hk := Kept.refl [.regs, .media, .xpt, .fst, .aud, .host, .vec, .axl, .hsf, .mate] s
  have hP := Sub.self [.regs, .media, .xpt, .fst, .aud, .host, .vec, .axl, .hsf, .mate]
  repeat' first
    | (with_reducible assumption)
    | (with_reducible apply State.desc_kept)
    | (with_reducible apply flowBody_kept)
    | (with_reducible exact Kept.refl _ _)
    | (exact Sub.of ‹_› (by rfl))
    | (intro _)
    | (with_reducible exact Adm.kept_bad ..)
    | (with_reducible exact Adm.kept_badData ..)
    | (with_reducible exact Adm.kept_short ..)
    | (with_reducible exact Adm.kept_denied ..)
    | (with_reducible exact Adm.kept_no ..)
    | (with_reducible exact Adm.kept_wait ..)
    | (with_reducible apply Adm.kept_late)
    | (with_reducible apply Adm.kept_deny)
    | (with_reducible apply Adm.kept_yes)
    | (with_reducible refine Adm.ite (fun _ => ?_) fun _ => ?_)
    | (exact Sub.of ‹_› (by rfl))
    | (dsimp only)

theorem execPersistPut_kept (h : Hdr) (first : Nat) (count : Nat) (host : Nat) (data : Option (List Byte)) (s : State) :
    ∃ t₁, execPersistPut h first count host data s = .next t₁ ∧ Kept [.regs, .host, .vec, .axl, .hsf, .mate] s t₁ := by
  unfold execPersistPut
  refine ⟨_, rfl, ?_⟩
  have hk := Kept.refl [.regs, .host, .vec, .axl, .hsf, .mate] s
  have hP := Sub.self [.regs, .host, .vec, .axl, .hsf, .mate]
  repeat' first
    | (with_reducible assumption)
    | (with_reducible apply State.desc_kept)
    | (with_reducible apply persistPutBody_kept)
    | (with_reducible exact Kept.refl _ _)
    | (exact Sub.of ‹_› (by rfl))
    | (intro _)
    | (with_reducible exact Adm.kept_bad ..)
    | (with_reducible exact Adm.kept_badData ..)
    | (with_reducible exact Adm.kept_short ..)
    | (with_reducible exact Adm.kept_denied ..)
    | (with_reducible exact Adm.kept_no ..)
    | (with_reducible exact Adm.kept_wait ..)
    | (with_reducible apply Adm.kept_late)
    | (with_reducible apply Adm.kept_deny)
    | (with_reducible apply Adm.kept_yes)
    | (with_reducible refine Adm.ite (fun _ => ?_) fun _ => ?_)
    | (exact Sub.of ‹_› (by rfl))
    | (dsimp only)

theorem execPersistGet_kept (h : Hdr) (first : Nat) (count : Nat) (host : Nat) (writeOk : Bool) (s : State) :
    ∃ t₁, execPersistGet h first count host writeOk s = .next t₁ ∧ Kept [.regs, .host, .vec, .hostMem, .axl, .hsf, .mate] s t₁ := by
  unfold execPersistGet
  refine ⟨_, rfl, ?_⟩
  have hk := Kept.refl [.regs, .host, .vec, .hostMem, .axl, .hsf, .mate] s
  have hP := Sub.self [.regs, .host, .vec, .hostMem, .axl, .hsf, .mate]
  repeat' first
    | (with_reducible assumption)
    | (with_reducible apply State.hostWrite_kept)
    | (with_reducible apply State.done_kept)
    | (with_reducible apply State.ok_kept)
    | (with_reducible apply State.desc_kept)
    | (with_reducible exact Kept.refl _ _)
    | (exact Sub.of ‹_› (by rfl))
    | (intro _)
    | (with_reducible exact Adm.kept_bad ..)
    | (with_reducible exact Adm.kept_badData ..)
    | (with_reducible exact Adm.kept_short ..)
    | (with_reducible exact Adm.kept_denied ..)
    | (with_reducible exact Adm.kept_no ..)
    | (with_reducible exact Adm.kept_wait ..)
    | (with_reducible apply Adm.kept_late)
    | (with_reducible apply Adm.kept_deny)
    | (with_reducible apply Adm.kept_yes)
    | (with_reducible refine Adm.ite (fun _ => ?_) fun _ => ?_)
    | (exact Sub.of ‹_› (by rfl))
    | (intro _)
    | split
    | (dsimp only)

theorem execPersistStore_kept (h : Hdr) (fail : List Nat) (s : State) :
    ∃ t₁, execPersistStore h fail s = .next t₁ ∧ Kept [.regs, .media, .xpt, .fst, .fstMem, .che, .sou, .aud, .host, .vec, .syn, .flt, .axl, .hsf, .mate] s t₁ := by
  unfold execPersistStore
  refine ⟨_, rfl, ?_⟩
  have hk := Kept.refl [.regs, .media, .xpt, .fst, .fstMem, .che, .sou, .aud, .host, .vec, .syn, .flt, .axl, .hsf, .mate] s
  have hP := Sub.self [.regs, .media, .xpt, .fst, .fstMem, .che, .sou, .aud, .host, .vec, .syn, .flt, .axl, .hsf, .mate]
  repeat' first
    | (with_reducible assumption)
    | (with_reducible apply State.desc_kept)
    | (with_reducible apply persistStoreBody_kept)
    | (with_reducible exact Kept.refl _ _)
    | (exact Sub.of ‹_› (by rfl))
    | (intro _)
    | (with_reducible exact Adm.kept_bad ..)
    | (with_reducible exact Adm.kept_badData ..)
    | (with_reducible exact Adm.kept_short ..)
    | (with_reducible exact Adm.kept_denied ..)
    | (with_reducible exact Adm.kept_no ..)
    | (with_reducible exact Adm.kept_wait ..)
    | (with_reducible apply Adm.kept_late)
    | (with_reducible apply Adm.kept_deny)
    | (with_reducible apply Adm.kept_yes)
    | (with_reducible refine Adm.ite (fun _ => ?_) fun _ => ?_)
    | (exact Sub.of ‹_› (by rfl))
    | (dsimp only)

end Sys2Proof.Machine
end

