-- ==== Sys2Proof/Laws/ExecLanes.lean ====
section
/-! SUPPORT. Each command of Machine/Lanes.lean answers a next state, keeps the queue and the canonical forms, and changes only the parts named. -/
set_option Elab.async false
namespace Sys2Proof.Machine

theorem execGroupSkew_kept (n : Fin 72) (skewNs : Nat) (t : Nat) (s : State) :
    ∃ t₁, execGroupSkew n skewNs t s = .next t₁ ∧ Kept [.regs, .free, .media, .xpt, .fst, .che, .sou, .aud, .host, .vec, .hostMem, .ref, .syn, .sec, .axl] s t₁ := by
  unfold execGroupSkew
  refine ⟨_, rfl, ?_⟩
  have hk := Kept.refl [.regs, .free, .media, .xpt, .fst, .che, .sou, .aud, .host, .vec, .hostMem, .ref, .syn, .sec, .axl] s
  have hP := Sub.self [.regs, .free, .media, .xpt, .fst, .che, .sou, .aud, .host, .vec, .hostMem, .ref, .syn, .sec, .axl]
  repeat' first
    | (with_reducible assumption)
    | (with_reducible apply State.at__kept)
    | (with_reducible apply State.raise_kept)
    | (with_reducible apply State.rxLoss_kept)
    | (with_reducible apply State.sdiInputs_kept)
    | (with_reducible exact Kept.refl _ _)
    | (exact Sub.of ‹_› (by rfl))
    | split
    | (dsimp only)

theorem execSdiLoss_kept (n : Fin 72) (t : Nat) (s : State) :
    ∃ t₁, execSdiLoss n t s = .next t₁ ∧ Kept [.regs, .free, .media, .xpt, .fst, .che, .sou, .aud, .host, .vec, .hostMem, .ref, .syn, .sec, .axl] s t₁ := by
  unfold execSdiLoss
  refine ⟨_, rfl, ?_⟩
  have hk := Kept.refl [.regs, .free, .media, .xpt, .fst, .che, .sou, .aud, .host, .vec, .hostMem, .ref, .syn, .sec, .axl] s
  have hP := Sub.self [.regs, .free, .media, .xpt, .fst, .che, .sou, .aud, .host, .vec, .hostMem, .ref, .syn, .sec, .axl]
  repeat' first
    | (with_reducible assumption)
    | (with_reducible apply State.at__kept)
    | (with_reducible apply State.rxLoss_kept)
    | (with_reducible apply State.sdiInputs_kept)
    | (with_reducible exact Kept.refl _ _)
    | (exact Sub.of ‹_› (by rfl))
    | split
    | (dsimp only)

theorem execTxLeaveIdle_kept (n : Fin 72) (t : Nat) (s : State) :
    ∃ t₁, execTxLeaveIdle n t s = .next t₁ ∧ Kept [.regs, .media, .xpt, .aud, .vec] s t₁ := by
  unfold execTxLeaveIdle
  refine ⟨_, rfl, ?_⟩
  have hk := Kept.refl [.regs, .media, .xpt, .aud, .vec] s
  have hP := Sub.self [.regs, .media, .xpt, .aud, .vec]
  repeat' first
    | (with_reducible assumption)
    | (with_reducible apply State.at__kept)
    | (with_reducible apply State.txWake_kept)
    | (with_reducible apply State.lvAes__kept)
    | (with_reducible exact Kept.refl _ _)
    | (exact Sub.of ‹_› (by rfl))
    | (dsimp only)

theorem execFollowRangeIdle_kept (n : Fin 72) (mppm : Int) (s : State) :
    ∃ t₁, execFollowRangeIdle n mppm s = .next t₁ ∧ Kept [.regs, .media, .aud, .vec] s t₁ := by
  unfold execFollowRangeIdle
  refine ⟨_, rfl, ?_⟩
  have hk := Kept.refl [.regs, .media, .aud, .vec] s
  have hP := Sub.self [.regs, .media, .aud, .vec]
  repeat' first
    | (with_reducible assumption)
    | (with_reducible apply State.setTx_kept)
    | (with_reducible apply State.txRefresh_kept)
    | (with_reducible apply State.lvAes__kept)
    | (with_reducible exact Kept.refl _ _)
    | (exact Sub.of ‹_› (by rfl))
    | split
    | (dsimp only)

end Sys2Proof.Machine
end

