-- ==== Sys2Proof/Laws/ExecLv.lean ====
section
/-! SUPPORT. Each command of Machine/Lv.lean answers a next state, keeps the queue and the canonical forms, and changes only the parts named. -/
set_option Elab.async false
namespace Sys2Proof.Machine

theorem execLvSpiRead_kept (addr : Nat) (s : State) :
    ∃ t₁, execLvSpiRead addr s = .next t₁ ∧ Kept [.lv] s t₁ := by
  unfold execLvSpiRead
  refine ⟨_, rfl, ?_⟩
  have hk := Kept.refl [.lv] s
  have hP := Sub.self [.lv]
  repeat' first
    | (with_reducible assumption)
    | (with_reducible apply State.lvReadIrq_kept)
    | (with_reducible exact Kept.refl _ _)
    | (exact Sub.of ‹_› (by rfl))
    | (simp only [Kept.mk_iff]; with_reducible apply KeptC.of)
    | (with_reducible exact Or.inr rfl)
    | (with_reducible exact Or.inr ⟨rfl, rfl⟩)
    | (exact Or.inl (Sub.mem ‹_› (by rfl)))
    | (with_reducible rfl)
    | split
    | (dsimp only)

theorem execIrqStatRead_kept (s : State) :
    ∃ t₁, execIrqStatRead s = .next t₁ ∧ Kept [.lv] s t₁ := by
  unfold execIrqStatRead
  refine ⟨_, rfl, ?_⟩
  have hk := Kept.refl [.lv] s
  have hP := Sub.self [.lv]
  repeat' first
    | (with_reducible assumption)
    | (with_reducible apply State.lvReadIrq_kept)
    | (with_reducible exact Kept.refl _ _)
    | (exact Sub.of ‹_› (by rfl))
    | (simp only [Kept.mk_iff]; with_reducible apply KeptC.of)
    | (with_reducible exact Or.inr rfl)
    | (with_reducible exact Or.inr ⟨rfl, rfl⟩)
    | (exact Or.inl (Sub.mem ‹_› (by rfl)))
    | (with_reducible rfl)
    | split
    | (dsimp only)

theorem execLvRegisterWrite_kept (addr : Nat) (v : Nat) (s : State) :
    ∃ t₁, execLvRegisterWrite addr v s = .next t₁ ∧ Kept [.lv] s t₁ := by
  unfold execLvRegisterWrite
  refine ⟨_, rfl, ?_⟩
  have hk := Kept.refl [.lv] s
  have hP := Sub.self [.lv]
  repeat' first
    | (with_reducible assumption)
    | (with_reducible apply State.setLvReg_kept)
    | (with_reducible exact Kept.refl _ _)
    | (exact Sub.of ‹_› (by rfl))
    | split
    | (dsimp only)

theorem execLvFrameError_kept (cycles : Nat) (s : State) :
    ∃ t₁, execLvFrameError cycles s = .next t₁ ∧ Kept [.regs, .vec] s t₁ := by
  unfold execLvFrameError
  refine ⟨_, rfl, ?_⟩
  have hk := Kept.refl [.regs, .vec] s
  have hP := Sub.self [.regs, .vec]
  repeat' first
    | (with_reducible assumption)
    | (with_reducible apply State.inc_kept)
    | (with_reducible apply State.raise_kept)
    | (with_reducible exact Kept.refl _ _)
    | (exact Sub.of ‹_› (by rfl))
    | split
    | (dsimp only)

theorem execLvStatusFollow_kept (s : State) :
    ∃ t₁, execLvStatusFollow s = .next t₁ ∧ Kept [.regs, .aud, .vec, .lv] s t₁ := by
  unfold execLvStatusFollow
  refine ⟨_, rfl, ?_⟩
  have hk := Kept.refl [.regs, .aud, .vec, .lv] s
  have hP := Sub.self [.regs, .aud, .vec, .lv]
  repeat' first
    | (with_reducible assumption)
    | (with_reducible apply State.lvAes__kept)
    | (with_reducible apply State.lvFollow_kept)
    | (with_reducible exact Kept.refl _ _)
    | (exact Sub.of ‹_› (by rfl))
    | split
    | (dsimp only)

theorem execLvTakeWrite_kept (v : Nat) (t : Nat) (s : State) :
    ∃ t₁, execLvTakeWrite v t s = .next t₁ ∧ Kept [.regs, .vec, .hostMem, .lv, .sec] s t₁ := by
  unfold execLvTakeWrite
  refine ⟨_, rfl, ?_⟩
  have hk := Kept.refl [.regs, .vec, .hostMem, .lv, .sec] s
  have hP := Sub.self [.regs, .vec, .hostMem, .lv, .sec]
  repeat' first
    | (with_reducible assumption)
    | (with_reducible apply State.at__kept)
    | (with_reducible apply State.lvLatch_kept)
    | (with_reducible exact Kept.refl _ _)
    | (exact Sub.of ‹_› (by rfl))
    | split
    | (dsimp only)

theorem execOutSelWrite_kept (o : Fin 32) (v : Nat) (t : Nat) (s : State) :
    ∃ t₁, execOutSelWrite o v t s = .next t₁ ∧ Kept [.regs, .vec, .hostMem, .lv, .sec] s t₁ := by
  unfold execOutSelWrite
  refine ⟨_, rfl, ?_⟩
  have hk := Kept.refl [.regs, .vec, .hostMem, .lv, .sec] s
  have hP := Sub.self [.regs, .vec, .hostMem, .lv, .sec]
  repeat' first
    | (with_reducible assumption)
    | (with_reducible apply State.at__kept)
    | (with_reducible apply State.setLvReg_kept)
    | (with_reducible apply State.lvLatch_kept)
    | (with_reducible exact Kept.refl _ _)
    | (exact Sub.of ‹_› (by rfl))
    | split
    | (dsimp only)

theorem execOutCtlWrite_kept (o : Fin 32) (v : Nat) (t : Nat) (s : State) :
    ∃ t₁, execOutCtlWrite o v t s = .next t₁ ∧ Kept [.regs, .media, .aud, .vec, .lv] s t₁ := by
  unfold execOutCtlWrite
  refine ⟨_, rfl, ?_⟩
  have hk := Kept.refl [.regs, .media, .aud, .vec, .lv] s
  have hP := Sub.self [.regs, .media, .aud, .vec, .lv]
  repeat' first
    | (with_reducible assumption)
    | (with_reducible apply State.at__kept)
    | (with_reducible apply State.setLvReg_kept)
    | (with_reducible apply State.txPower_kept)
    | (with_reducible apply State.lvAes__kept)
    | (with_reducible exact Kept.refl _ _)
    | (exact Sub.of ‹_› (by rfl))
    | split
    | (dsimp only)

theorem execLvTakeNEdge_kept (lowNs : Nat) (t : Nat) (s : State) :
    ∃ t₁, execLvTakeNEdge lowNs t s = .next t₁ ∧ Kept [.regs, .free, .vec, .hostMem, .lv, .sec] s t₁ := by
  unfold execLvTakeNEdge
  refine ⟨_, rfl, ?_⟩
  have hk := Kept.refl [.regs, .free, .vec, .hostMem, .lv, .sec] s
  have hP := Sub.self [.regs, .free, .vec, .hostMem, .lv, .sec]
  repeat' first
    | (with_reducible assumption)
    | (with_reducible apply State.at__kept)
    | (with_reducible apply State.draw_kept)
    | (refine State.draw_kept' ?_ (by with_reducible assumption))
    | (with_reducible apply State.lvLatch_kept)
    | (with_reducible exact Kept.refl _ _)
    | (exact Sub.of ‹_› (by rfl))
    | split
    | (dsimp only)

theorem execLvTakeArm_kept (t : Nat) (s : State) :
    ∃ t₁, execLvTakeArm t s = .next t₁ ∧ Kept [.regs, .free, .media, .xpt, .fst, .che, .sou, .aud, .host, .vec, .hostMem, .lv, .sec, .mate] s t₁ := by
  unfold execLvTakeArm
  refine ⟨_, rfl, ?_⟩
  have hk := Kept.refl [.regs, .free, .media, .xpt, .fst, .che, .sou, .aud, .host, .vec, .hostMem, .lv, .sec, .mate] s
  have hP := Sub.self [.regs, .free, .media, .xpt, .fst, .che, .sou, .aud, .host, .vec, .hostMem, .lv, .sec, .mate]
  repeat' first
    | (with_reducible assumption)
    | (with_reducible apply State.at__kept)
    | (with_reducible apply State.lvArm_kept)
    | (with_reducible exact Kept.refl _ _)
    | (exact Sub.of ‹_› (by rfl))
    | split
    | (dsimp only)

theorem execLvOutputSwitch_kept (o : Fin 32) (t : Nat) (s : State) :
    ∃ t₁, execLvOutputSwitch o t s = .next t₁ ∧ Kept [.regs, .media, .xpt, .fst, .che, .sou, .aud, .vec, .hostMem, .lv, .sec] s t₁ := by
  unfold execLvOutputSwitch
  refine ⟨_, rfl, ?_⟩
  have hk := Kept.refl [.regs, .media, .xpt, .fst, .che, .sou, .aud, .vec, .hostMem, .lv, .sec] s
  have hP := Sub.self [.regs, .media, .xpt, .fst, .che, .sou, .aud, .vec, .hostMem, .lv, .sec]
  repeat' first
    | (with_reducible assumption)
    | (with_reducible apply State.at__kept)
    | (with_reducible apply State.lvSwitch_kept)
    | (with_reducible exact Kept.refl _ _)
    | (exact Sub.of ‹_› (by rfl))
    | split
    | (dsimp only)

theorem execLvMuteResume_kept (o : Fin 32) (t : Nat) (s : State) :
    ∃ t₁, execLvMuteResume o t s = .next t₁ ∧ Kept [.regs, .media, .xpt, .aud, .vec] s t₁ := by
  unfold execLvMuteResume
  refine ⟨_, rfl, ?_⟩
  have hk := Kept.refl [.regs, .media, .xpt, .aud, .vec] s
  have hP := Sub.self [.regs, .media, .xpt, .aud, .vec]
  repeat' first
    | (with_reducible assumption)
    | (with_reducible apply State.at__kept)
    | (with_reducible apply State.txWake_kept)
    | (with_reducible apply State.lvAes__kept)
    | (with_reducible exact Kept.refl _ _)
    | (exact Sub.of ‹_› (by rfl))
    | split
    | (dsimp only)

theorem execLvpWinWrite_kept (v : Nat) (t : Nat) (s : State) :
    ∃ t₁, execLvpWinWrite v t s = .next t₁ ∧ Kept [.regs, .media, .aud, .host, .vec, .lv, .axl, .mtx, .mate] s t₁ := by
  unfold execLvpWinWrite
  refine ⟨_, rfl, ?_⟩
  have hk := Kept.refl [.regs, .media, .aud, .host, .vec, .lv, .axl, .mtx, .mate] s
  have hP := Sub.self [.regs, .media, .aud, .host, .vec, .lv, .axl, .mtx, .mate]
  repeat' first
    | (with_reducible assumption)
    | (with_reducible apply State.byHost_kept)
    | (with_reducible apply State.lvpWinWrite_kept)
    | (with_reducible exact Kept.refl _ _)
    | (exact Sub.of ‹_› (by rfl))
    | (intro _)
    | (dsimp only)

end Sys2Proof.Machine
end

