-- ==== Sys2Proof/Laws/ExecMate.lean ====
section
/-! SUPPORT. Each command of Machine/Mate.lean answers a next state, keeps the queue and the canonical forms, and changes only the parts named. -/
set_option Elab.async false
namespace Sys2Proof.Machine

theorem execMatePair_kept (h : Hdr) (p : Option Partner) (s : State) :
    ∃ t₁, execMatePair h p s = .next t₁ ∧ Kept [.regs, .host, .vec, .axl, .hsf, .mate] s t₁ := by
  unfold execMatePair
  refine ⟨_, rfl, ?_⟩
  have hk := Kept.refl [.regs, .host, .vec, .axl, .hsf, .mate] s
  have hP := Sub.self [.regs, .host, .vec, .axl, .hsf, .mate]
  repeat' first
    | (with_reducible assumption)
    | (with_reducible apply State.desc_kept)
    | (with_reducible apply pairBody_kept)
    | (with_reducible exact Kept.refl _ _)
    | (exact Sub.of ‹_› (by rfl))
    | (intro _)
    | (with_reducible exact Adm.kept_bad ..)
    | (with_reducible exact Adm.kept_badData ..)
    | (with_reducible exact Adm.kept_short ..)
    | (with_reducible exact Adm.kept_denied ..)
    | (with_reducible exact Adm.kept_no ..)
    | (with_reducible exact Adm.kept_wait ..)
    | (with_reducible apply Adm.kept_late)
    | (with_reducible apply Adm.kept_deny)
    | (with_reducible apply Adm.kept_yes)
    | (with_reducible refine Adm.ite (fun _ => ?_) fun _ => ?_)
    | (exact Sub.of ‹_› (by rfl))
    | (intro _)
    | split
    | (dsimp only)

theorem execPairingTimeout_kept (s : State) :
    ∃ t₁, execPairingTimeout s = .next t₁ ∧ Kept [.regs, .host, .vec] s t₁ := by
  unfold execPairingTimeout
  refine ⟨_, rfl, ?_⟩
  have hk := Kept.refl [.regs, .host, .vec] s
  have hP := Sub.self [.regs, .host, .vec]
  repeat' first
    | (with_reducible assumption)
    | (with_reducible apply State.finish_kept)
    | (with_reducible apply State.pairRefused_kept)
    | (with_reducible exact Kept.refl _ _)
    | (exact Sub.of ‹_› (by rfl))
    | (intro _)
    | split
    | (dsimp only)

theorem execPairRequestReceive_kept (p : Partner) (s : State) :
    ∃ t₁, execPairRequestReceive p s = .next t₁ ∧ Kept [.regs, .vec, .axl, .mate] s t₁ := by
  unfold execPairRequestReceive
  refine ⟨_, rfl, ?_⟩
  have hk := Kept.refl [.regs, .vec, .axl, .mate] s
  have hP := Sub.self [.regs, .vec, .axl, .mate]
  repeat' first
    | (with_reducible assumption)
    | (with_reducible apply State.pairRefused_kept)
    | (with_reducible apply State.pairUp_kept)
    | (with_reducible exact Kept.refl _ _)
    | (exact Sub.of ‹_› (by rfl))
    | split
    | (dsimp only)

theorem execMateDetach_kept (h : Hdr) (s : State) :
    ∃ t₁, execMateDetach h s = .next t₁ ∧ Kept [.regs, .host, .vec, .lv, .axl, .hsf, .mate] s t₁ := by
  unfold execMateDetach
  refine ⟨_, rfl, ?_⟩
  have hk := Kept.refl [.regs, .host, .vec, .lv, .axl, .hsf, .mate] s
  have hP := Sub.self [.regs, .host, .vec, .lv, .axl, .hsf, .mate]
  repeat' first
    | (with_reducible assumption)
    | (with_reducible apply State.ok_kept)
    | (with_reducible apply State.desc_kept)
    | (with_reducible apply State.detach_kept)
    | (with_reducible exact Kept.refl _ _)
    | (exact Sub.of ‹_› (by rfl))
    | (intro _)
    | (with_reducible exact Adm.kept_bad ..)
    | (with_reducible exact Adm.kept_badData ..)
    | (with_reducible exact Adm.kept_short ..)
    | (with_reducible exact Adm.kept_denied ..)
    | (with_reducible exact Adm.kept_no ..)
    | (with_reducible exact Adm.kept_wait ..)
    | (with_reducible apply Adm.kept_late)
    | (with_reducible apply Adm.kept_deny)
    | (with_reducible apply Adm.kept_yes)
    | (with_reducible refine Adm.ite (fun _ => ?_) fun _ => ?_)
    | (exact Sub.of ‹_› (by rfl))
    | (intro _)
    | split
    | (dsimp only)

theorem execDetachReceive_kept (s : State) :
    ∃ t₁, execDetachReceive s = .next t₁ ∧ Kept [.regs, .host, .vec, .lv, .axl, .mate] s t₁ := by
  unfold execDetachReceive
  refine ⟨_, rfl, ?_⟩
  have hk := Kept.refl [.regs, .host, .vec, .lv, .axl, .mate] s
  have hP := Sub.self [.regs, .host, .vec, .lv, .axl, .mate]
  repeat' first
    | (with_reducible assumption)
    | (with_reducible apply State.detach_kept)
    | (with_reducible exact Kept.refl _ _)
    | (exact Sub.of ‹_› (by rfl))
    | (dsimp only)

theorem execMateHandover_kept (h : Hdr) (ready : Bool) (refBad : Bool) (s : State) :
    ∃ t₁, execMateHandover h ready refBad s = .next t₁ ∧ Kept [.regs, .host, .vec, .axl, .hsf, .mate] s t₁ := by
  unfold execMateHandover
  refine ⟨_, rfl, ?_⟩
  have hk := Kept.refl [.regs, .host, .vec, .axl, .hsf, .mate] s
  have hP := Sub.self [.regs, .host, .vec, .axl, .hsf, .mate]
  repeat' first
    | (with_reducible assumption)
    | (with_reducible apply State.addOp_kept)
    | (refine State.addOp_kept' ?_ (by with_reducible assumption))
    | (with_reducible apply State.desc_kept)
    | (with_reducible apply State.modeRefused_kept)
    | (with_reducible exact Kept.refl _ _)
    | (exact Sub.of ‹_› (by rfl))
    | (intro _)
    | (with_reducible exact Adm.kept_bad ..)
    | (with_reducible exact Adm.kept_badData ..)
    | (with_reducible exact Adm.kept_short ..)
    | (with_reducible exact Adm.kept_denied ..)
    | (with_reducible exact Adm.kept_no ..)
    | (with_reducible exact Adm.kept_wait ..)
    | (with_reducible apply Adm.kept_late)
    | (with_reducible apply Adm.kept_deny)
    | (with_reducible apply Adm.kept_yes)
    | (with_reducible refine Adm.ite (fun _ => ?_) fun _ => ?_)
    | (exact Sub.of ‹_› (by rfl))
    | (intro _)
    | split
    | (dsimp only)

theorem execHandoverSwap_kept (t : Nat) (s : State) :
    ∃ t₁, execHandoverSwap t s = .next t₁ ∧ Kept [.regs, .host, .vec, .lv, .axl, .mate] s t₁ := by
  unfold execHandoverSwap
  refine ⟨_, rfl, ?_⟩
  have hk := Kept.refl [.regs, .host, .vec, .lv, .axl, .mate] s
  have hP := Sub.self [.regs, .host, .vec, .lv, .axl, .mate]
  repeat' first
    | (with_reducible assumption)
    | (with_reducible apply State.at__kept)
    | (with_reducible apply State.finish_kept)
    | (with_reducible apply State.setEpoch_kept)
    | (with_reducible apply State.setRole_kept)
    | (with_reducible apply State.readyFall_kept)
    | (with_reducible apply State.clearAwait_kept)
    | (with_reducible exact Kept.refl _ _)
    | (exact Sub.of ‹_› (by rfl))
    | (intro _)
    | split
    | (dsimp only)

theorem execMateResetPartner_kept (h : Hdr) (taken : Bool) (s : State) :
    ∃ t₁, execMateResetPartner h taken s = .next t₁ ∧ Kept [.regs, .host, .vec, .axl, .hsf, .mate] s t₁ := by
  unfold execMateResetPartner
  refine ⟨_, rfl, ?_⟩
  have hk := Kept.refl [.regs, .host, .vec, .axl, .hsf, .mate] s
  have hP := Sub.self [.regs, .host, .vec, .axl, .hsf, .mate]
  repeat' first
    | (with_reducible assumption)
    | (with_reducible apply State.ok_kept)
    | (with_reducible apply State.desc_kept)
    | (with_reducible exact Kept.refl _ _)
    | (exact Sub.of ‹_› (by rfl))
    | (intro _)
    | (with_reducible exact Adm.kept_bad ..)
    | (with_reducible exact Adm.kept_badData ..)
    | (with_reducible exact Adm.kept_short ..)
    | (with_reducible exact Adm.kept_denied ..)
    | (with_reducible exact Adm.kept_no ..)
    | (with_reducible exact Adm.kept_wait ..)
    | (with_reducible apply Adm.kept_late)
    | (with_reducible apply Adm.kept_deny)
    | (with_reducible apply Adm.kept_yes)
    | (with_reducible refine Adm.ite (fun _ => ?_) fun _ => ?_)
    | (exact Sub.of ‹_› (by rfl))
    | (intro _)
    | split
    | (dsimp only)

theorem execHeartbeatSend_kept (s : State) :
    ∃ t₁, execHeartbeatSend s = .next t₁ ∧ Kept [.mate] s t₁ := by
  unfold execHeartbeatSend
  refine ⟨_, rfl, ?_⟩
  have hk := Kept.refl [.mate] s
  have hP := Sub.self [.mate]
  repeat' first
    | (with_reducible assumption)
    | (with_reducible exact Kept.refl _ _)
    | (exact Sub.of ‹_› (by rfl))
    | (simp only [Kept.mk_iff]; with_reducible apply KeptC.of)
    | (with_reducible exact Or.inr rfl)
    | (with_reducible exact Or.inr ⟨rfl, rfl⟩)
    | (exact Or.inl (Sub.mem ‹_› (by rfl)))
    | (with_reducible rfl)
    | split
    | (dsimp only)

theorem execHeartbeatReceive_kept (link : Bool) (restarting : Bool) (missed : Nat) (s : State) :
    ∃ t₁, execHeartbeatReceive link restarting missed s = .next t₁ ∧ Kept [.regs, .free, .host, .vec, .lv, .axl, .mate] s t₁ := by
  unfold execHeartbeatReceive
  refine ⟨_, rfl, ?_⟩
  have hk := Kept.refl [.regs, .free, .host, .vec, .lv, .axl, .mate] s
  have hP := Sub.self [.regs, .free, .host, .vec, .lv, .axl, .mate]
  repeat' first
    | (with_reducible assumption)
    | (with_reducible apply State.set_kept)
    | (with_reducible apply State.setB_kept)
    | (with_reducible apply State.count_kept)
    | (with_reducible apply State.setSync_kept)
    | (with_reducible apply State.clearAwait_kept)
    | (with_reducible apply State.mateCond_kept)
    | (with_reducible exact Kept.refl _ _)
    | (exact Sub.of ‹_› (by rfl))
    | (simp only [Kept.mk_iff]; with_reducible apply KeptC.of)
    | (with_reducible exact Or.inr rfl)
    | (with_reducible exact Or.inr ⟨rfl, rfl⟩)
    | (exact Or.inl (Sub.mem ‹_› (by rfl)))
    | (with_reducible rfl)
    | split
    | (dsimp only)

theorem execPathLost_kept (link : Bool) (t : Nat) (s : State) :
    ∃ t₁, execPathLost link t s = .next t₁ ∧ Kept [.regs, .free, .host, .vec, .lv, .axl, .mate] s t₁ := by
  unfold execPathLost
  refine ⟨_, rfl, ?_⟩
  have hk := Kept.refl [.regs, .free, .host, .vec, .lv, .axl, .mate] s
  have hP := Sub.self [.regs, .free, .host, .vec, .lv, .axl, .mate]
  repeat' first
    | (with_reducible assumption)
    | (with_reducible apply State.count_kept)
    | (with_reducible apply State.at__kept)
    | (with_reducible apply State.mateCond_kept)
    | (with_reducible apply State.sbDown_kept)
    | (with_reducible exact Kept.refl _ _)
    | (exact Sub.of ‹_› (by rfl))
    | (simp only [Kept.mk_iff]; with_reducible apply KeptC.of)
    | (with_reducible exact Or.inr rfl)
    | (with_reducible exact Or.inr ⟨rfl, rfl⟩)
    | (exact Or.inl (Sub.mem ‹_› (by rfl)))
    | (with_reducible rfl)
    | split
    | (dsimp only)

theorem execPartnerRestartTimeout_kept (t : Nat) (s : State) :
    ∃ t₁, execPartnerRestartTimeout t s = .next t₁ ∧ Kept [.regs, .free, .host, .vec, .lv, .axl, .mate] s t₁ := by
  unfold execPartnerRestartTimeout
  refine ⟨_, rfl, ?_⟩
  have hk := Kept.refl [.regs, .free, .host, .vec, .lv, .axl, .mate] s
  have hP := Sub.self [.regs, .free, .host, .vec, .lv, .axl, .mate]
  repeat' first
    | (with_reducible assumption)
    | (with_reducible apply State.at__kept)
    | (with_reducible apply State.mateCond_kept)
    | (with_reducible exact Kept.refl _ _)
    | (exact Sub.of ‹_› (by rfl))
    | (simp only [Kept.mk_iff]; with_reducible apply KeptC.of)
    | (with_reducible exact Or.inr rfl)
    | (with_reducible exact Or.inr ⟨rfl, rfl⟩)
    | (exact Or.inl (Sub.mem ‹_› (by rfl)))
    | (with_reducible rfl)
    | split
    | (dsimp only)

theorem execMateLinkDown_kept (s : State) :
    ∃ t₁, execMateLinkDown s = .next t₁ ∧ Kept [.regs, .free, .host, .vec, .lv, .axl, .mate] s t₁ := by
  unfold execMateLinkDown
  refine ⟨_, rfl, ?_⟩
  have hk := Kept.refl [.regs, .free, .host, .vec, .lv, .axl, .mate] s
  have hP := Sub.self [.regs, .free, .host, .vec, .lv, .axl, .mate]
  repeat' first
    | (with_reducible assumption)
    | (with_reducible apply State.mateDown_kept)
    | (with_reducible exact Kept.refl _ _)
    | (exact Sub.of ‹_› (by rfl))
    | split
    | (dsimp only)

theorem execMateLinkUp_kept (p : PeerRole) (s : State) :
    ∃ t₁, execMateLinkUp p s = .next t₁ ∧ Kept [.regs, .free, .host, .vec, .lv, .axl, .mate] s t₁ := by
  unfold execMateLinkUp
  refine ⟨_, rfl, ?_⟩
  have hk := Kept.refl [.regs, .free, .host, .vec, .lv, .axl, .mate] s
  have hP := Sub.self [.regs, .free, .host, .vec, .lv, .axl, .mate]
  repeat' first
    | (with_reducible assumption)
    | (with_reducible apply State.set_kept)
    | (with_reducible apply State.raise_kept)
    | (with_reducible apply State.setEpoch_kept)
    | (with_reducible apply State.setRole_kept)
    | (with_reducible apply State.setSync_kept)
    | (with_reducible apply State.mateCond_kept)
    | (with_reducible exact Kept.refl _ _)
    | (exact Sub.of ‹_› (by rfl))
    | (simp only [Kept.mk_iff]; with_reducible apply KeptC.of)
    | (with_reducible exact Or.inr rfl)
    | (with_reducible exact Or.inr ⟨rfl, rfl⟩)
    | (exact Or.inl (Sub.mem ‹_› (by rfl)))
    | (with_reducible rfl)
    | split
    | (dsimp only)

theorem execSidebandLost_kept (s : State) :
    ∃ t₁, execSidebandLost s = .next t₁ ∧ Kept [.regs, .free, .host, .vec, .lv, .axl, .mate] s t₁ := by
  unfold execSidebandLost
  refine ⟨_, rfl, ?_⟩
  have hk := Kept.refl [.regs, .free, .host, .vec, .lv, .axl, .mate] s
  have hP := Sub.self [.regs, .free, .host, .vec, .lv, .axl, .mate]
  repeat' first
    | (with_reducible assumption)
    | (with_reducible apply State.sbDown_kept)
    | (with_reducible exact Kept.refl _ _)
    | (exact Sub.of ‹_› (by rfl))
    | split
    | (dsimp only)

theorem execTimeExchange_kept (skew : Int) (bothTrack : Bool) (s : State) :
    ∃ t₁, execTimeExchange skew bothTrack s = .next t₁ ∧ Kept [.regs, .vec] s t₁ := by
  unfold execTimeExchange
  refine ⟨_, rfl, ?_⟩
  have hk := Kept.refl [.regs, .vec] s
  have hP := Sub.self [.regs, .vec]
  repeat' first
    | (with_reducible assumption)
    | (with_reducible apply State.set_kept)
    | (with_reducible apply State.wrInt_kept)
    | (with_reducible apply State.readyFall_kept)
    | (with_reducible exact Kept.refl _ _)
    | (exact Sub.of ‹_› (by rfl))
    | split
    | (dsimp only)

theorem execForwardReceive_kept (num : Nat) (h : Hdr) (seq : Option (Nat × Nat)) (op : FwdOp) (s : State) :
    ∃ t₁, execForwardReceive num h seq op s = .next t₁ ∧ Kept [.regs, .taken, .free, .media, .xpt, .fst, .fstMem, .che, .sou, .aud, .host, .vec, .hostMem, .lv, .syn, .sec, .flt, .axl, .hsf, .mate] s t₁ := by
  unfold execForwardReceive
  refine ⟨_, rfl, ?_⟩
  have hk := Kept.refl [.regs, .taken, .free, .media, .xpt, .fst, .fstMem, .che, .sou, .aud, .host, .vec, .hostMem, .lv, .syn, .sec, .flt, .axl, .hsf, .mate] s
  have hP := Sub.self [.regs, .taken, .free, .media, .xpt, .fst, .fstMem, .che, .sou, .aud, .host, .vec, .hostMem, .lv, .syn, .sec, .flt, .axl, .hsf, .mate]
  repeat' first
    | (with_reducible assumption)
    | (with_reducible apply State.at__kept)
    | (refine State.runFwd_kept' ?_ (by with_reducible assumption))
    | (with_reducible apply State.fwdSee_kept)
    | (with_reducible apply State.fwdKeep_kept)
    | (with_reducible apply State.fwdSeq_kept)
    | (refine State.fwdEnd_kept ?_ _ fun _ _ e => State.runFwd_kept' ?_ e)
    | (with_reducible exact Kept.refl _ _)
    | (exact Sub.of ‹_› (by rfl))
    | split
    | (dsimp only)

theorem execStateTransferDone_kept (items : List (Hdr × FwdOp)) (t : Nat) (s : State) :
    ∃ t₁, execStateTransferDone items t s = .next t₁ ∧ Kept [.regs, .taken, .free, .media, .xpt, .fst, .fstMem, .che, .sou, .aud, .host, .vec, .hostMem, .lv, .syn, .sec, .flt, .axl, .hsf, .mate] s t₁ := by
  unfold execStateTransferDone
  refine ⟨_, rfl, ?_⟩
  have hk := Kept.refl [.regs, .taken, .free, .media, .xpt, .fst, .fstMem, .che, .sou, .aud, .host, .vec, .hostMem, .lv, .syn, .sec, .flt, .axl, .hsf, .mate] s
  have hP := Sub.self [.regs, .taken, .free, .media, .xpt, .fst, .fstMem, .che, .sou, .aud, .host, .vec, .hostMem, .lv, .syn, .sec, .flt, .axl, .hsf, .mate]
  refine Kept.ite (fun _ => hk) fun _ => Kept.ite (fun _ => State.setSync_kept hk _) fun _ => Kept.ite (fun _ => hk) fun _ => ?_
  split
  · exact State.fwdWait_kept hk _
  · rename_i ok s' he
    have h1 := State.runFwds_kept _ (State.at__kept hk t) he
    have h2 := Kept.upd_mate (State.accept_kept h1 s) { s'.mate with fwdHold := [] }
    exact Kept.ite (fun _ => State.setSync_kept h2 _) fun _ => State.syncFail_kept h2

theorem execForwardAck_kept (id : Nat) (s : State) :
    ∃ t₁, execForwardAck id s = .next t₁ ∧ Kept [.regs, .host, .vec, .lv, .mate] s t₁ := by
  unfold execForwardAck
  refine ⟨_, rfl, ?_⟩
  have hk := Kept.refl [.regs, .host, .vec, .lv, .mate] s
  have hP := Sub.self [.regs, .host, .vec, .lv, .mate]
  repeat' first
    | (with_reducible assumption)
    | (with_reducible apply State.lvTakesDone_kept)
    | (with_reducible apply State.fwdAnswered_kept)
    | (with_reducible exact Kept.refl _ _)
    | (exact Sub.of ‹_› (by rfl))
    | (dsimp only)

theorem execForwardAckTimeout_kept (id : Nat) (s : State) :
    ∃ t₁, execForwardAckTimeout id s = .next t₁ ∧ Kept [.regs, .host, .vec, .lv, .mate] s t₁ := by
  unfold execForwardAckTimeout
  refine ⟨_, rfl, ?_⟩
  have hk := Kept.refl [.regs, .host, .vec, .lv, .mate] s
  have hP := Sub.self [.regs, .host, .vec, .lv, .mate]
  repeat' first
    | (with_reducible assumption)
    | (with_reducible apply State.raise_kept)
    | (with_reducible apply State.lvTakesDone_kept)
    | (with_reducible apply State.setSync_kept)
    | (with_reducible apply State.fwdAnswered_kept)
    | (with_reducible exact Kept.refl _ _)
    | (exact Sub.of ‹_› (by rfl))
    | split
    | (dsimp only)

theorem execDomainMsg_kept (h : Hdr) (target : Nat) (unit : Nat) (len : Nat) (addr : Nat) (readOk : Bool) (descs : List DomDesc) (s : State) :
    ∃ t₁, execDomainMsg h target unit len addr readOk descs s = .next t₁ ∧ Kept [.regs, .media, .host, .vec, .axl, .hsf, .mate] s t₁ := by
  unfold execDomainMsg
  refine ⟨_, rfl, ?_⟩
  have hk := Kept.refl [.regs, .media, .host, .vec, .axl, .hsf, .mate] s
  have hP := Sub.self [.regs, .media, .host, .vec, .axl, .hsf, .mate]
  repeat' first
    | (with_reducible assumption)
    | (with_reducible apply State.desc_kept)
    | (with_reducible apply domMsgBody_kept)
    | (with_reducible exact Kept.refl _ _)
    | (exact Sub.of ‹_› (by rfl))
    | (intro _)
    | (with_reducible exact Adm.kept_bad ..)
    | (with_reducible exact Adm.kept_badData ..)
    | (with_reducible exact Adm.kept_short ..)
    | (with_reducible exact Adm.kept_denied ..)
    | (with_reducible exact Adm.kept_no ..)
    | (with_reducible exact Adm.kept_wait ..)
    | (with_reducible apply Adm.kept_late)
    | (with_reducible apply Adm.kept_deny)
    | (with_reducible apply Adm.kept_yes)
    | (with_reducible refine Adm.ite (fun _ => ?_) fun _ => ?_)
    | (exact Sub.of ‹_› (by rfl))
    | (dsimp only)

theorem execDomainRetransmit_kept (id : Nat) (s : State) :
    ∃ t₁, execDomainRetransmit id s = .next t₁ ∧ Kept [.regs, .media, .host, .vec] s t₁ := by
  unfold execDomainRetransmit
  refine ⟨_, rfl, ?_⟩
  have hk := Kept.refl [.regs, .media, .host, .vec] s
  have hP := Sub.self [.regs, .media, .host, .vec]
  repeat' first
    | (with_reducible assumption)
    | (with_reducible apply State.setOp_kept)
    | (with_reducible apply State.finish_kept)
    | (with_reducible apply State.domSend_kept)
    | (with_reducible exact Kept.refl _ _)
    | (exact Sub.of ‹_› (by rfl))
    | split
    | (dsimp only)

theorem execDomainAckReceive_kept (tagOk : Bool) (id : Nat) (status : Nat) (epoch : Nat) (s : State) :
    ∃ t₁, execDomainAckReceive tagOk id status epoch s = .next t₁ ∧ Kept [.regs, .host, .vec] s t₁ := by
  unfold execDomainAckReceive
  refine ⟨_, rfl, ?_⟩
  have hk := Kept.refl [.regs, .host, .vec] s
  have hP := Sub.self [.regs, .host, .vec]
  repeat' first
    | (with_reducible assumption)
    | (with_reducible apply State.finish_kept)
    | (with_reducible apply State.authFail_kept)
    | (with_reducible exact Kept.refl _ _)
    | (exact Sub.of ‹_› (by rfl))
    | split
    | (dsimp only)

theorem execDomainPacketReceive_kept (p : DomPkt) (t : Nat) (s : State) :
    ∃ t₁, execDomainPacketReceive p t s = .next t₁ ∧ Kept [.regs, .media, .host, .vec, .mate] s t₁ := by
  unfold execDomainPacketReceive
  refine ⟨_, rfl, ?_⟩
  have hk := Kept.refl [.regs, .media, .host, .vec, .mate] s
  have hP := Sub.self [.regs, .media, .host, .vec, .mate]
  repeat' first
    | (with_reducible assumption)
    | (with_reducible apply State.inc_kept)
    | (with_reducible apply State.at__kept)
    | (with_reducible apply State.raise_kept)
    | (with_reducible apply State.domSend_kept)
    | (with_reducible apply State.authFail_kept)
    | (with_reducible apply State.domAck_kept)
    | (with_reducible apply State.domAccept_kept)
    | (with_reducible exact Kept.refl _ _)
    | (exact Sub.of ‹_› (by rfl))
    | (intro _)
    | split
    | (dsimp only)

end Sys2Proof.Machine
end

