-- ==== Sys2Proof/Laws/ExecMatrix.lean ====
section
/-! SUPPORT. Each command of Machine/Matrix.lean answers a next state, keeps the queue and the canonical forms, and changes only the parts named. -/
set_option Elab.async false
namespace Sys2Proof.Machine

theorem execMatrixRequest_kept (r : MtxReq) (s : State) :
    ∃ t₁, execMatrixRequest r s = .next t₁ ∧ Kept [.regs, .taken, .snap, .free, .media, .xpt, .fst, .fstMem, .che, .sou, .aud, .host, .vec, .hostMem, .lv, .ref, .syn, .sec, .flt, .axl, .rst, .hsf, .mtx, .mate, .pkg] s t₁ := by
  unfold execMatrixRequest
  refine ⟨_, rfl, ?_⟩
  have hk := Kept.refl [.regs, .taken, .snap, .free, .media, .xpt, .fst, .fstMem, .che, .sou, .aud, .host, .vec, .hostMem, .lv, .ref, .syn, .sec, .flt, .axl, .rst, .hsf, .mtx, .mate, .pkg] s
  have hP := Sub.self [.regs, .taken, .snap, .free, .media, .xpt, .fst, .fstMem, .che, .sou, .aud, .host, .vec, .hostMem, .lv, .ref, .syn, .sec, .flt, .axl, .rst, .hsf, .mtx, .mate, .pkg]
  repeat' first
    | (with_reducible assumption)
    | (with_reducible apply State.at__kept)
    | (with_reducible apply State.request_kept)
    | (with_reducible exact Kept.refl _ _)
    | (exact Sub.of ‹_› (by rfl))
    | (dsimp only)

theorem execMatrixHang_kept (m : Fin 16) (t : Nat) (s : State) :
    ∃ t₁, execMatrixHang m t s = .next t₁ ∧ Kept [.regs, .taken, .snap, .free, .media, .xpt, .fst, .fstMem, .che, .sou, .aud, .host, .vec, .hostMem, .lv, .ref, .syn, .sec, .flt, .axl, .rst, .hsf, .mtx, .mate, .pkg] s t₁ := by
  unfold execMatrixHang
  refine ⟨_, rfl, ?_⟩
  have hk := Kept.refl [.regs, .taken, .snap, .free, .media, .xpt, .fst, .fstMem, .che, .sou, .aud, .host, .vec, .hostMem, .lv, .ref, .syn, .sec, .flt, .axl, .rst, .hsf, .mtx, .mate, .pkg] s
  have hP := Sub.self [.regs, .taken, .snap, .free, .media, .xpt, .fst, .fstMem, .che, .sou, .aud, .host, .vec, .hostMem, .lv, .ref, .syn, .sec, .flt, .axl, .rst, .hsf, .mtx, .mate, .pkg]
  repeat' first
    | (with_reducible assumption)
    | (with_reducible apply State.set_kept)
    | (with_reducible apply State.inc_kept)
    | (with_reducible apply State.wr2_kept)
    | (with_reducible apply State.at__kept)
    | (with_reducible apply State.raise_kept)
    | (with_reducible apply State.setMtxOut_kept)
    | (with_reducible apply State.logMtx_kept)
    | (with_reducible apply State.setData_kept)
    | (with_reducible apply State.reportError_kept)
    | (with_reducible apply State.mtxRest_kept)
    | (with_reducible exact Kept.refl _ _)
    | (exact Sub.of ‹_› (by rfl))
    | (intro _)
    | split
    | (dsimp only)

theorem execHungMasterReset_kept (m : Fin 16) (s : State) :
    ∃ t₁, execHungMasterReset m s = .next t₁ ∧ Kept [.regs, .taken, .snap, .free, .media, .xpt, .fst, .fstMem, .che, .sou, .aud, .host, .vec, .hostMem, .lv, .ref, .syn, .sec, .flt, .axl, .rst, .hsf, .mtx, .mate, .pkg] s t₁ := by
  unfold execHungMasterReset
  refine ⟨_, rfl, ?_⟩
  have hk := Kept.refl [.regs, .taken, .snap, .free, .media, .xpt, .fst, .fstMem, .che, .sou, .aud, .host, .vec, .hostMem, .lv, .ref, .syn, .sec, .flt, .axl, .rst, .hsf, .mtx, .mate, .pkg] s
  have hP := Sub.self [.regs, .taken, .snap, .free, .media, .xpt, .fst, .fstMem, .che, .sou, .aud, .host, .vec, .hostMem, .lv, .ref, .syn, .sec, .flt, .axl, .rst, .hsf, .mtx, .mate, .pkg]
  repeat' first
    | (with_reducible assumption)
    | (with_reducible apply State.resetMaster_kept)
    | (with_reducible apply State.dropHost_kept)
    | (with_reducible apply State.testAbandon_kept)
    | (with_reducible apply State.warmSource_kept)
    | (with_reducible apply State.mtxRest_kept)
    | (with_reducible apply State.resetLvPort_kept)
    | (with_reducible exact Kept.refl _ _)
    | (exact Sub.of ‹_› (by rfl))
    | (simp only [Kept.mk_iff]; with_reducible apply KeptC.of)
    | (with_reducible exact Or.inr rfl)
    | (with_reducible exact Or.inr ⟨rfl, rfl⟩)
    | (exact Or.inl (Sub.mem ‹_› (by rfl)))
    | (with_reducible rfl)
    | split
    | (dsimp only)

theorem execPerstNRelease_kept (s : State) :
    ∃ t₁, execPerstNRelease s = .next t₁ ∧ Kept [.regs, .taken, .snap, .free, .media, .xpt, .fst, .fstMem, .che, .sou, .aud, .host, .vec, .hostMem, .lv, .ref, .syn, .sec, .flt, .axl, .rst, .hsf, .mtx, .mate, .pkg] s t₁ := by
  unfold execPerstNRelease
  refine ⟨_, rfl, ?_⟩
  have hk := Kept.refl [.regs, .taken, .snap, .free, .media, .xpt, .fst, .fstMem, .che, .sou, .aud, .host, .vec, .hostMem, .lv, .ref, .syn, .sec, .flt, .axl, .rst, .hsf, .mtx, .mate, .pkg] s
  have hP := Sub.self [.regs, .taken, .snap, .free, .media, .xpt, .fst, .fstMem, .che, .sou, .aud, .host, .vec, .hostMem, .lv, .ref, .syn, .sec, .flt, .axl, .rst, .hsf, .mtx, .mate, .pkg]
  repeat' first
    | (with_reducible assumption)
    | (with_reducible apply State.set_kept)
    | (with_reducible apply State.portReset_kept)
    | (with_reducible apply State.enumerate_kept)
    | (with_reducible apply State.mtxRest_kept)
    | (with_reducible exact Kept.refl _ _)
    | (exact Sub.of ‹_› (by rfl))
    | (simp only [Kept.mk_iff]; with_reducible apply KeptC.of)
    | (with_reducible exact Or.inr rfl)
    | (with_reducible exact Or.inr ⟨rfl, rfl⟩)
    | (exact Or.inl (Sub.mem ‹_› (by rfl)))
    | (with_reducible rfl)
    | split
    | (dsimp only)

end Sys2Proof.Machine
end

