-- ==== Sys2Proof/Laws/ExecMedia.lean ====
section
/-! SUPPORT. Each command of Machine/Media.lean answers a next state, keeps the queue and the canonical forms, and changes only the parts named. -/
set_option Elab.async false
namespace Sys2Proof.Machine

theorem execSdiCarrierDetect_kept (n : Fin 72) (s : State) :
    ∃ t₁, execSdiCarrierDetect n s = .next t₁ ∧ Kept [.regs] s t₁ := by
  unfold execSdiCarrierDetect
  refine ⟨_, rfl, ?_⟩
  have hk := Kept.refl [.regs] s
  have hP := Sub.self [.regs]
  repeat' first
    | (with_reducible assumption)
    | (with_reducible apply State.carrierDetect_kept)
    | (with_reducible exact Kept.refl _ _)
    | (exact Sub.of ‹_› (by rfl))
    | (dsimp only)

theorem execCdrLock_kept (n : Fin 72) (rate : Nat) (s : State) :
    ∃ t₁, execCdrLock n rate s = .next t₁ ∧ Kept [.regs] s t₁ := by
  unfold execCdrLock
  refine ⟨_, rfl, ?_⟩
  have hk := Kept.refl [.regs] s
  have hP := Sub.self [.regs]
  repeat' first
    | (with_reducible assumption)
    | (with_reducible apply State.cdrLocked_kept)
    | (with_reducible exact Kept.refl _ _)
    | (exact Sub.of ‹_› (by rfl))
    | (dsimp only)

theorem execTrsLock_kept (n : Fin 72) (s : State) :
    ∃ t₁, execTrsLock n s = .next t₁ ∧ Kept [.regs] s t₁ := by
  unfold execTrsLock
  refine ⟨_, rfl, ?_⟩
  have hk := Kept.refl [.regs] s
  have hP := Sub.self [.regs]
  repeat' first
    | (with_reducible assumption)
    | (with_reducible apply State.set_kept)
    | (with_reducible apply State.groupShow_kept)
    | (with_reducible exact Kept.refl _ _)
    | (exact Sub.of ‹_› (by rfl))
    | split
    | (dsimp only)

theorem execStartBoundary_kept (n : Fin 72) (m : LaneMeas) (t : Nat) (s : State) :
    ∃ t₁, execStartBoundary n m t s = .next t₁ ∧ Kept [.regs, .media, .xpt, .fst, .vec] s t₁ := by
  unfold execStartBoundary
  refine ⟨_, rfl, ?_⟩
  have hk := Kept.refl [.regs, .media, .xpt, .fst, .vec] s
  have hP := Sub.self [.regs, .media, .xpt, .fst, .vec]
  repeat' first
    | (with_reducible assumption)
    | (with_reducible apply State.at__kept)
    | (with_reducible apply State.startAt_kept)
    | (with_reducible exact Kept.refl _ _)
    | (exact Sub.of ‹_› (by rfl))
    | (dsimp only)

theorem execRateForceWrite_kept (n : Fin 72) (v : Nat) (t : Nat) (s : State) :
    ∃ t₁, execRateForceWrite n v t s = .next t₁ ∧ Kept [.regs, .media, .xpt, .fst, .aud, .vec, .mtx] s t₁ := by
  unfold execRateForceWrite
  refine ⟨_, rfl, ?_⟩
  have hk := Kept.refl [.regs, .media, .xpt, .fst, .aud, .vec, .mtx] s
  have hP := Sub.self [.regs, .media, .xpt, .fst, .aud, .vec, .mtx]
  repeat' first
    | (with_reducible assumption)
    | (with_reducible apply State.byHost_kept)
    | (with_reducible apply State.rateForceWrite_kept)
    | (with_reducible exact Kept.refl _ _)
    | (exact Sub.of ‹_› (by rfl))
    | (intro _)
    | (dsimp only)

theorem execLineCrcError_kept (n : Fin 72) (s : State) :
    ∃ t₁, execLineCrcError n s = .next t₁ ∧ Kept [.regs, .vec] s t₁ := by
  unfold execLineCrcError
  refine ⟨_, rfl, ?_⟩
  have hk := Kept.refl [.regs, .vec] s
  have hP := Sub.self [.regs, .vec]
  repeat' first
    | (with_reducible assumption)
    | (with_reducible apply State.inc_kept)
    | (with_reducible apply State.raise_kept)
    | (with_reducible exact Kept.refl _ _)
    | (exact Sub.of ‹_› (by rfl))
    | split
    | (dsimp only)

theorem execAncChecksumError_kept (n : Fin 72) (did : Nat) (s : State) :
    ∃ t₁, execAncChecksumError n did s = .next t₁ ∧ Kept [.regs, .aud, .vec] s t₁ := by
  unfold execAncChecksumError
  refine ⟨_, rfl, ?_⟩
  have hk := Kept.refl [.regs, .aud, .vec] s
  have hP := Sub.self [.regs, .aud, .vec]
  repeat' first
    | (with_reducible assumption)
    | (with_reducible apply State.inc_kept)
    | (with_reducible apply State.raise_kept)
    | (with_reducible exact Kept.refl _ _)
    | (exact Sub.of ‹_› (by rfl))
    | (simp only [Kept.mk_iff]; with_reducible apply KeptC.of)
    | (with_reducible exact Or.inr rfl)
    | (with_reducible exact Or.inr ⟨rfl, rfl⟩)
    | (exact Or.inl (Sub.mem ‹_› (by rfl)))
    | (with_reducible rfl)
    | (intro _)
    | split
    | (dsimp only)

theorem execMultiWrite_kept (tx : Bool) (n : Fin 72) (v : Nat) (s : State) :
    ∃ t₁, execMultiWrite tx n v s = .next t₁ ∧ Kept [.regs, .media, .vec, .mtx] s t₁ := by
  unfold execMultiWrite
  refine ⟨_, rfl, ?_⟩
  have hk := Kept.refl [.regs, .media, .vec, .mtx] s
  have hP := Sub.self [.regs, .media, .vec, .mtx]
  repeat' first
    | (with_reducible assumption)
    | (with_reducible apply State.byHost_kept)
    | (with_reducible apply State.multiWrite_kept)
    | (with_reducible exact Kept.refl _ _)
    | (exact Sub.of ‹_› (by rfl))
    | (intro _)
    | split
    | (dsimp only)

theorem execGroupForm_kept (tx : Bool) (n : Fin 72) (fmt : Nat) (t : Nat) (s : State) :
    ∃ t₁, execGroupForm tx n fmt t s = .next t₁ ∧ Kept [.regs, .media, .vec] s t₁ := by
  unfold execGroupForm
  refine ⟨_, rfl, ?_⟩
  have hk := Kept.refl [.regs, .media, .vec] s
  have hP := Sub.self [.regs, .media, .vec]
  repeat' first
    | (with_reducible assumption)
    | (with_reducible apply State.at__kept)
    | (with_reducible apply State.groupRx_kept)
    | (with_reducible apply State.groupTx_kept)
    | (with_reducible exact Kept.refl _ _)
    | (exact Sub.of ‹_› (by rfl))
    | split
    | (dsimp only)

theorem execAcquisitionAbort_kept (n : Fin 72) (s : State) :
    ∃ t₁, execAcquisitionAbort n s = .next t₁ ∧ Kept [.regs] s t₁ := by
  unfold execAcquisitionAbort
  refine ⟨_, rfl, ?_⟩
  have hk := Kept.refl [.regs] s
  have hP := Sub.self [.regs]
  repeat' first
    | (with_reducible assumption)
    | (with_reducible apply State.set_kept)
    | (with_reducible exact Kept.refl _ _)
    | (exact Sub.of ‹_› (by rfl))
    | split
    | (dsimp only)

theorem execTxEnWrite_kept (n : Fin 72) (en : Bool) (pd : Bool) (t : Nat) (s : State) :
    ∃ t₁, execTxEnWrite n en pd t s = .next t₁ ∧ Kept [.regs, .media, .vec, .mtx] s t₁ := by
  unfold execTxEnWrite
  refine ⟨_, rfl, ?_⟩
  have hk := Kept.refl [.regs, .media, .vec, .mtx] s
  have hP := Sub.self [.regs, .media, .vec, .mtx]
  repeat' first
    | (with_reducible assumption)
    | (with_reducible apply State.at__kept)
    | (with_reducible apply State.byHost_kept)
    | (with_reducible apply State.txPower_kept)
    | (with_reducible exact Kept.refl _ _)
    | (exact Sub.of ‹_› (by rfl))
    | (intro _)
    | split
    | (dsimp only)

theorem execQeModeWrite_kept (q : Fin 4) (mode : Bool) (s : State) :
    ∃ t₁, execQeModeWrite q mode s = .next t₁ ∧ Kept [.regs, .vec, .mtx] s t₁ := by
  unfold execQeModeWrite
  refine ⟨_, rfl, ?_⟩
  have hk := Kept.refl [.regs, .vec, .mtx] s
  have hP := Sub.self [.regs, .vec, .mtx]
  repeat' first
    | (with_reducible assumption)
    | (with_reducible apply State.byHost_kept)
    | (with_reducible apply State.qeModeWrite_kept)
    | (with_reducible exact Kept.refl _ _)
    | (exact Sub.of ‹_› (by rfl))
    | (intro _)
    | (dsimp only)

theorem execQeRxFrame_kept (q : Fin 4) (sub : Fin 4) (f : EthFrame) (len : Nat) (corr : Nat) (t : Nat) (s : State) :
    ∃ t₁, execQeRxFrame q sub f len corr t s = .next t₁ ∧ Kept [.regs, .media, .xpt] s t₁ := by
  unfold execQeRxFrame
  refine ⟨_, rfl, ?_⟩
  have hk := Kept.refl [.regs, .media, .xpt] s
  have hP := Sub.self [.regs, .media, .xpt]
  repeat' first
    | (with_reducible assumption)
    | (with_reducible apply State.count_kept)
    | (with_reducible apply State.inc_kept)
    | (with_reducible apply State.at__kept)
    | (with_reducible apply State.flowPacket_kept)
    | (with_reducible apply State.askedFor_kept)
    | (with_reducible exact Kept.refl _ _)
    | (exact Sub.of ‹_› (by rfl))
    | split
    | (dsimp only)

theorem execQeLinkUp_kept (q : Fin 4) (sub : Fin 4) (s : State) :
    ∃ t₁, execQeLinkUp q sub s = .next t₁ ∧ Kept [.regs, .media] s t₁ := by
  unfold execQeLinkUp
  refine ⟨_, rfl, ?_⟩
  have hk := Kept.refl [.regs, .media] s
  have hP := Sub.self [.regs, .media]
  repeat' first
    | (with_reducible assumption)
    | (with_reducible apply State.set_kept)
    | (with_reducible exact Kept.refl _ _)
    | (exact Sub.of ‹_› (by rfl))
    | (simp only [Kept.mk_iff]; with_reducible apply KeptC.of)
    | (with_reducible exact Or.inr rfl)
    | (with_reducible exact Or.inr ⟨rfl, rfl⟩)
    | (exact Or.inl (Sub.mem ‹_› (by rfl)))
    | (with_reducible rfl)
    | split
    | (dsimp only)

theorem execQeLinkDown_kept (q : Fin 4) (sub : Fin 4) (s : State) :
    ∃ t₁, execQeLinkDown q sub s = .next t₁ ∧ Kept [.regs, .vec] s t₁ := by
  unfold execQeLinkDown
  refine ⟨_, rfl, ?_⟩
  have hk := Kept.refl [.regs, .vec] s
  have hP := Sub.self [.regs, .vec]
  repeat' first
    | (with_reducible assumption)
    | (with_reducible apply State.qeDown_kept)
    | (with_reducible exact Kept.refl _ _)
    | (exact Sub.of ‹_› (by rfl))
    | (dsimp only)

theorem execFecUncorrectable_kept (q : Fin 4) (sub : Fin 4) (s : State) :
    ∃ t₁, execFecUncorrectable q sub s = .next t₁ ∧ Kept [.regs, .vec] s t₁ := by
  unfold execFecUncorrectable
  refine ⟨_, rfl, ?_⟩
  have hk := Kept.refl [.regs, .vec] s
  have hP := Sub.self [.regs, .vec]
  repeat' first
    | (with_reducible assumption)
    | (with_reducible apply State.inc_kept)
    | (with_reducible apply State.raise_kept)
    | (with_reducible exact Kept.refl _ _)
    | (exact Sub.of ‹_› (by rfl))
    | split
    | (dsimp only)

theorem execIgmpQuery_kept (q : Fin 4) (sub : Fin 4) (v6 : Bool) (s : State) :
    ∃ t₁, execIgmpQuery q sub v6 s = .next t₁ ∧ Kept [.media] s t₁ := by
  unfold execIgmpQuery
  refine ⟨_, rfl, ?_⟩
  have hk := Kept.refl [.media] s
  have hP := Sub.self [.media]
  repeat' first
    | (with_reducible assumption)
    | (with_reducible exact Kept.refl _ _)
    | (exact Sub.of ‹_› (by rfl))
    | (simp only [Kept.mk_iff]; with_reducible apply KeptC.of)
    | (with_reducible exact Or.inr rfl)
    | (with_reducible exact Or.inr ⟨rfl, rfl⟩)
    | (exact Or.inl (Sub.mem ‹_› (by rfl)))
    | (with_reducible rfl)
    | (intro _)
    | split
    | (dsimp only)

theorem execFlowLoss_kept (k : FlowKind) (f : Fin 1024) (t : Nat) (s : State) :
    ∃ t₁, execFlowLoss k f t s = .next t₁ ∧ Kept [.regs, .media, .xpt, .fst, .aud] s t₁ := by
  unfold execFlowLoss
  refine ⟨_, rfl, ?_⟩
  have hk := Kept.refl [.regs, .media, .xpt, .fst, .aud] s
  have hP := Sub.self [.regs, .media, .xpt, .fst, .aud]
  repeat' first
    | (with_reducible assumption)
    | (with_reducible apply State.at__kept)
    | (with_reducible apply State.clkLost_kept)
    | (with_reducible apply State.sourceLost_kept)
    | (with_reducible exact Kept.refl _ _)
    | (exact Sub.of ‹_› (by rfl))
    | (simp only [Kept.mk_iff]; with_reducible apply KeptC.of)
    | (with_reducible exact Or.inr rfl)
    | (with_reducible exact Or.inr ⟨rfl, rfl⟩)
    | (exact Or.inl (Sub.mem ‹_› (by rfl)))
    | (with_reducible rfl)
    | split
    | (dsimp only)

theorem execLegLost_kept (k : FlowKind) (f : Fin 1024) (legB : Bool) (s : State) :
    ∃ t₁, execLegLost k f legB s = .next t₁ ∧ Kept [.media] s t₁ := by
  unfold execLegLost
  refine ⟨_, rfl, ?_⟩
  have hk := Kept.refl [.media] s
  have hP := Sub.self [.media]
  repeat' first
    | (with_reducible assumption)
    | (with_reducible exact Kept.refl _ _)
    | (exact Sub.of ‹_› (by rfl))
    | (simp only [Kept.mk_iff]; with_reducible apply KeptC.of)
    | (with_reducible exact Or.inr rfl)
    | (with_reducible exact Or.inr ⟨rfl, rfl⟩)
    | (exact Or.inl (Sub.mem ‹_› (by rfl)))
    | (with_reducible rfl)
    | split
    | (dsimp only)

theorem execPtpTimestamp_kept (q : Fin 4) (sub : Fin 4) (ns : Nat) (taken : Nat) (s : State) :
    ∃ t₁, execPtpTimestamp q sub ns taken s = .next t₁ ∧ Kept [.regs, .media, .vec] s t₁ := by
  unfold execPtpTimestamp
  refine ⟨_, rfl, ?_⟩
  have hk := Kept.refl [.regs, .media, .vec] s
  have hP := Sub.self [.regs, .media, .vec]
  repeat' first
    | (with_reducible assumption)
    | (with_reducible apply State.raise_kept)
    | (with_reducible exact Kept.refl _ _)
    | (exact Sub.of ‹_› (by rfl))
    | (simp only [Kept.mk_iff]; with_reducible apply KeptC.of)
    | (with_reducible exact Or.inr rfl)
    | (with_reducible exact Or.inr ⟨rfl, rfl⟩)
    | (exact Or.inl (Sub.mem ‹_› (by rfl)))
    | (with_reducible rfl)
    | split
    | (dsimp only)

end Sys2Proof.Machine
end

