-- ==== Sys2Proof/Laws/ExecPackage.lean ====
section
/-! SUPPORT. Each command of Machine/Package.lean answers a next state, keeps the queue and the canonical forms, and changes only the parts named. -/
set_option Elab.async false
namespace Sys2Proof.Machine

theorem execI2cRead_kept (cmd : Nat) (s : State) :
    ∃ t₁, execI2cRead cmd s = .next t₁ ∧ Kept [.pkg] s t₁ := by
  unfold execI2cRead
  refine ⟨_, rfl, ?_⟩
  have hk := Kept.refl [.pkg] s
  have hP := Sub.self [.pkg]
  repeat' first
    | (with_reducible assumption)
    | (with_reducible exact Kept.refl _ _)
    | (exact Sub.of ‹_› (by rfl))
    | (simp only [Kept.mk_iff]; with_reducible apply KeptC.of)
    | (with_reducible exact Or.inr rfl)
    | (with_reducible exact Or.inr ⟨rfl, rfl⟩)
    | (exact Or.inl (Sub.mem ‹_› (by rfl)))
    | (with_reducible rfl)
    | split
    | (dsimp only)

theorem execI2cWrite_kept (cmd : Nat) (v : Nat) (s : State) :
    ∃ t₁, execI2cWrite cmd v s = .next t₁ ∧ Kept [.pkg] s t₁ := by
  unfold execI2cWrite
  refine ⟨_, rfl, ?_⟩
  have hk := Kept.refl [.pkg] s
  have hP := Sub.self [.pkg]
  repeat' first
    | (with_reducible assumption)
    | (with_reducible exact Kept.refl _ _)
    | (exact Sub.of ‹_› (by rfl))
    | (simp only [Kept.mk_iff]; with_reducible apply KeptC.of)
    | (with_reducible exact Or.inr rfl)
    | (with_reducible exact Or.inr ⟨rfl, rfl⟩)
    | (exact Or.inl (Sub.mem ‹_› (by rfl)))
    | (with_reducible rfl)
    | split
    | (dsimp only)

theorem execExtTempRead_kept (v : Option Int) (t : Nat) (s : State) :
    ∃ t₁, execExtTempRead v t s = .next t₁ ∧ Kept [.pkg] s t₁ := by
  unfold execExtTempRead
  refine ⟨_, rfl, ?_⟩
  have hk := Kept.refl [.pkg] s
  have hP := Sub.self [.pkg]
  repeat' first
    | (with_reducible assumption)
    | (with_reducible apply State.at__kept)
    | (with_reducible exact Kept.refl _ _)
    | (exact Sub.of ‹_› (by rfl))
    | (simp only [Kept.mk_iff]; with_reducible apply KeptC.of)
    | (with_reducible exact Or.inr rfl)
    | (with_reducible exact Or.inr ⟨rfl, rfl⟩)
    | (exact Or.inl (Sub.mem ‹_› (by rfl)))
    | (with_reducible rfl)
    | split
    | (dsimp only)

theorem execBoundaryScanInstruction_kept (op : Jtag) (s : State) :
    ∃ t₁, execBoundaryScanInstruction op s = .next t₁ ∧ Kept [.pkg] s t₁ := by
  unfold execBoundaryScanInstruction
  refine ⟨_, rfl, ?_⟩
  have hk := Kept.refl [.pkg] s
  have hP := Sub.self [.pkg]
  repeat' first
    | (with_reducible assumption)
    | (with_reducible exact Kept.refl _ _)
    | (exact Sub.of ‹_› (by rfl))
    | (simp only [Kept.mk_iff]; with_reducible apply KeptC.of)
    | (with_reducible exact Or.inr rfl)
    | (with_reducible exact Or.inr ⟨rfl, rfl⟩)
    | (exact Or.inl (Sub.mem ‹_› (by rfl)))
    | (with_reducible rfl)
    | split
    | (dsimp only)

theorem execOverTemperature_kept (temp : Int) (s : State) :
    ∃ t₁, execOverTemperature temp s = .next t₁ ∧ Kept [.pkg] s t₁ := by
  unfold execOverTemperature
  refine ⟨_, rfl, ?_⟩
  have hk := Kept.refl [.pkg] s
  have hP := Sub.self [.pkg]
  repeat' first
    | (with_reducible assumption)
    | (with_reducible apply State.senseTemp_kept)
    | (with_reducible exact Kept.refl _ _)
    | (exact Sub.of ‹_› (by rfl))
    | (dsimp only)

end Sys2Proof.Machine
end

