-- ==== Sys2Proof/Laws/ExecRef.lean ====
section
/-! SUPPORT. Each command of Machine/Ref.lean answers a next state, keeps the queue and the canonical forms, and changes only the parts named. -/
set_option Elab.async false
namespace Sys2Proof.Machine

theorem execRefInEnWrite_kept (i : Fin 8) (en : Bool) (t : Nat) (s : State) :
    ∃ t₁, execRefInEnWrite i en t s = .next t₁ ∧ Kept [.regs, .free, .media, .xpt, .fst, .che, .sou, .aud, .host, .vec, .hostMem, .ref, .syn, .sec, .axl, .mtx] s t₁ := by
  unfold execRefInEnWrite
  refine ⟨_, rfl, ?_⟩
  have hk := Kept.refl [.regs, .free, .media, .xpt, .fst, .che, .sou, .aud, .host, .vec, .hostMem, .ref, .syn, .sec, .axl, .mtx] s
  have hP := Sub.self [.regs, .free, .media, .xpt, .fst, .che, .sou, .aud, .host, .vec, .hostMem, .ref, .syn, .sec, .axl, .mtx]
  repeat' first
    | (with_reducible assumption)
    | (with_reducible apply State.byHost_kept)
    | (with_reducible apply State.refInEnWrite_kept)
    | (with_reducible exact Kept.refl _ _)
    | (exact Sub.of ‹_› (by rfl))
    | (intro _)
    | (dsimp only)

theorem execRefInSrcWrite_kept (i : Fin 8) (src : Nat) (dom : Nat) (term : Bool) (t : Nat) (s : State) :
    ∃ t₁, execRefInSrcWrite i src dom term t s = .next t₁ ∧ Kept [.regs, .free, .media, .xpt, .fst, .che, .sou, .aud, .host, .vec, .hostMem, .ref, .syn, .sec, .axl, .mtx] s t₁ := by
  unfold execRefInSrcWrite
  refine ⟨_, rfl, ?_⟩
  have hk := Kept.refl [.regs, .free, .media, .xpt, .fst, .che, .sou, .aud, .host, .vec, .hostMem, .ref, .syn, .sec, .axl, .mtx] s
  have hP := Sub.self [.regs, .free, .media, .xpt, .fst, .che, .sou, .aud, .host, .vec, .hostMem, .ref, .syn, .sec, .axl, .mtx]
  repeat' first
    | (with_reducible assumption)
    | (with_reducible apply State.byHost_kept)
    | (with_reducible apply State.refInSrcWrite_kept)
    | (with_reducible exact Kept.refl _ _)
    | (exact Sub.of ‹_› (by rfl))
    | (intro _)
    | (dsimp only)

theorem execRefActivity_kept (i : Fin 8) (fmt : Nat) (m : RefMeas) (t : Nat) (s : State) :
    ∃ t₁, execRefActivity i fmt m t s = .next t₁ ∧ Kept [.regs, .ref] s t₁ := by
  unfold execRefActivity
  refine ⟨_, rfl, ?_⟩
  have hk := Kept.refl [.regs, .ref] s
  have hP := Sub.self [.regs, .ref]
  repeat' first
    | (with_reducible assumption)
    | (with_reducible apply State.set_kept)
    | (with_reducible apply State.at__kept)
    | (with_reducible apply State.setRefIn_kept)
    | (with_reducible apply State.setIn_kept)
    | (with_reducible apply State.measure_kept)
    | (with_reducible exact Kept.refl _ _)
    | (exact Sub.of ‹_› (by rfl))
    | split
    | (dsimp only)

theorem execRefQualified_kept (i : Fin 8) (m : RefMeas) (sec : Option Nat) (t : Nat) (s : State) :
    ∃ t₁, execRefQualified i m sec t s = .next t₁ ∧ Kept [.regs, .free, .media, .xpt, .fst, .che, .sou, .aud, .host, .vec, .hostMem, .ref, .syn, .sec, .axl] s t₁ := by
  unfold execRefQualified
  refine ⟨_, rfl, ?_⟩
  have hk := Kept.refl [.regs, .free, .media, .xpt, .fst, .che, .sou, .aud, .host, .vec, .hostMem, .ref, .syn, .sec, .axl] s
  have hP := Sub.self [.regs, .free, .media, .xpt, .fst, .che, .sou, .aud, .host, .vec, .hostMem, .ref, .syn, .sec, .axl]
  repeat' first
    | (with_reducible assumption)
    | (with_reducible apply State.at__kept)
    | (with_reducible apply State.setRefIn_kept)
    | (with_reducible apply State.measure_kept)
    | (with_reducible apply State.qualify_kept)
    | (with_reducible exact Kept.refl _ _)
    | (exact Sub.of ‹_› (by rfl))
    | split
    | (dsimp only)

theorem execWtrExpired_kept (i : Fin 8) (t : Nat) (s : State) :
    ∃ t₁, execWtrExpired i t s = .next t₁ ∧ Kept [.regs, .free, .media, .xpt, .fst, .che, .sou, .aud, .host, .vec, .hostMem, .ref, .syn, .sec, .axl] s t₁ := by
  unfold execWtrExpired
  refine ⟨_, rfl, ?_⟩
  have hk := Kept.refl [.regs, .free, .media, .xpt, .fst, .che, .sou, .aud, .host, .vec, .hostMem, .ref, .syn, .sec, .axl] s
  have hP := Sub.self [.regs, .free, .media, .xpt, .fst, .che, .sou, .aud, .host, .vec, .hostMem, .ref, .syn, .sec, .axl]
  repeat' first
    | (with_reducible assumption)
    | (with_reducible apply State.at__kept)
    | (with_reducible apply State.secCheck_kept)
    | (with_reducible apply State.makeAvail_kept)
    | (with_reducible exact Kept.refl _ _)
    | (exact Sub.of ‹_› (by rfl))
    | split
    | (dsimp only)

theorem execRefSuspect_kept (i : Fin 8) (rate : Int) (temp : Int) (t : Nat) (s : State) :
    ∃ t₁, execRefSuspect i rate temp t s = .next t₁ ∧ Kept [.regs, .ref, .axl] s t₁ := by
  unfold execRefSuspect
  refine ⟨_, rfl, ?_⟩
  have hk := Kept.refl [.regs, .ref, .axl] s
  have hP := Sub.self [.regs, .ref, .axl]
  repeat' first
    | (with_reducible assumption)
    | (with_reducible apply State.set_kept)
    | (with_reducible apply State.at__kept)
    | (with_reducible apply State.calibrate_kept)
    | (with_reducible apply State.swDecide_kept)
    | (with_reducible apply State.holdFrom_kept)
    | (with_reducible exact Kept.refl _ _)
    | (exact Sub.of ‹_› (by rfl))
    | split
    | (dsimp only)

theorem execRefSuspectClear_kept (i : Fin 8) (t : Nat) (s : State) :
    ∃ t₁, execRefSuspectClear i t s = .next t₁ ∧ Kept [.regs, .vec, .ref] s t₁ := by
  unfold execRefSuspectClear
  refine ⟨_, rfl, ?_⟩
  have hk := Kept.refl [.regs, .vec, .ref] s
  have hP := Sub.self [.regs, .vec, .ref]
  repeat' first
    | (with_reducible assumption)
    | (with_reducible apply State.set_kept)
    | (with_reducible apply State.at__kept)
    | (with_reducible apply State.raise_kept)
    | (with_reducible apply State.setRefIn_kept)
    | (with_reducible apply State.undecide_kept)
    | (with_reducible exact Kept.refl _ _)
    | (exact Sub.of ‹_› (by rfl))
    | (simp only [Kept.mk_iff]; with_reducible apply KeptC.of)
    | (with_reducible exact Or.inr rfl)
    | (with_reducible exact Or.inr ⟨rfl, rfl⟩)
    | (exact Or.inl (Sub.mem ‹_› (by rfl)))
    | (with_reducible rfl)
    | split
    | (dsimp only)

theorem execRefDeclaredLost_kept (i : Fin 8) (t : Nat) (s : State) :
    ∃ t₁, execRefDeclaredLost i t s = .next t₁ ∧ Kept [.regs, .free, .media, .xpt, .fst, .che, .sou, .aud, .host, .vec, .hostMem, .ref, .syn, .sec, .axl] s t₁ := by
  unfold execRefDeclaredLost
  refine ⟨_, rfl, ?_⟩
  have hk := Kept.refl [.regs, .free, .media, .xpt, .fst, .che, .sou, .aud, .host, .vec, .hostMem, .ref, .syn, .sec, .axl] s
  have hP := Sub.self [.regs, .free, .media, .xpt, .fst, .che, .sou, .aud, .host, .vec, .hostMem, .ref, .syn, .sec, .axl]
  repeat' first
    | (with_reducible assumption)
    | (with_reducible apply State.at__kept)
    | (with_reducible apply State.lostIn_kept)
    | (with_reducible exact Kept.refl _ _)
    | (exact Sub.of ‹_› (by rfl))
    | (dsimp only)

theorem execRefDisqualified_kept (i : Fin 8) (m : RefMeas) (brk : RefBreak) (t : Nat) (s : State) :
    ∃ t₁, execRefDisqualified i m brk t s = .next t₁ ∧ Kept [.regs, .free, .media, .xpt, .fst, .che, .sou, .aud, .host, .vec, .hostMem, .ref, .syn, .sec, .axl] s t₁ := by
  unfold execRefDisqualified
  refine ⟨_, rfl, ?_⟩
  have hk := Kept.refl [.regs, .free, .media, .xpt, .fst, .che, .sou, .aud, .host, .vec, .hostMem, .ref, .syn, .sec, .axl] s
  have hP := Sub.self [.regs, .free, .media, .xpt, .fst, .che, .sou, .aud, .host, .vec, .hostMem, .ref, .syn, .sec, .axl]
  repeat' first
    | (with_reducible assumption)
    | (with_reducible apply State.at__kept)
    | (with_reducible apply State.raise_kept)
    | (with_reducible apply State.leaveIn_kept)
    | (with_reducible apply State.measure_kept)
    | (with_reducible apply State.restart_kept)
    | (with_reducible exact Kept.refl _ _)
    | (exact Sub.of ‹_› (by rfl))
    | split
    | (dsimp only)

theorem execRefQualWrite_kept (ppm : Nat) (time : Nat) (t : Nat) (s : State) :
    ∃ t₁, execRefQualWrite ppm time t s = .next t₁ ∧ Kept [.regs, .free, .media, .xpt, .fst, .che, .sou, .aud, .host, .vec, .hostMem, .ref, .syn, .sec, .axl, .mtx] s t₁ := by
  unfold execRefQualWrite
  refine ⟨_, rfl, ?_⟩
  have hk := Kept.refl [.regs, .free, .media, .xpt, .fst, .che, .sou, .aud, .host, .vec, .hostMem, .ref, .syn, .sec, .axl, .mtx] s
  have hP := Sub.self [.regs, .free, .media, .xpt, .fst, .che, .sou, .aud, .host, .vec, .hostMem, .ref, .syn, .sec, .axl, .mtx]
  repeat' first
    | (with_reducible assumption)
    | (with_reducible apply State.byHost_kept)
    | (with_reducible apply State.refQualWrite_kept)
    | (with_reducible exact Kept.refl _ _)
    | (exact Sub.of ‹_› (by rfl))
    | (intro _)
    | (dsimp only)

theorem execRefPrioWrite_kept (i : Fin 8) (prio : Nat) (revert : Bool) (t : Nat) (s : State) :
    ∃ t₁, execRefPrioWrite i prio revert t s = .next t₁ ∧ Kept [.regs, .free, .media, .xpt, .fst, .che, .sou, .aud, .host, .vec, .hostMem, .ref, .syn, .sec, .axl, .mtx] s t₁ := by
  unfold execRefPrioWrite
  refine ⟨_, rfl, ?_⟩
  have hk := Kept.refl [.regs, .free, .media, .xpt, .fst, .che, .sou, .aud, .host, .vec, .hostMem, .ref, .syn, .sec, .axl, .mtx] s
  have hP := Sub.self [.regs, .free, .media, .xpt, .fst, .che, .sou, .aud, .host, .vec, .hostMem, .ref, .syn, .sec, .axl, .mtx]
  repeat' first
    | (with_reducible assumption)
    | (with_reducible apply State.byHost_kept)
    | (with_reducible apply State.refPrioWrite_kept)
    | (with_reducible exact Kept.refl _ _)
    | (exact Sub.of ‹_› (by rfl))
    | (intro _)
    | (dsimp only)

theorem execRefForceWrite_kept (mode : Bool) (forceIn : Nat) (t : Nat) (s : State) :
    ∃ t₁, execRefForceWrite mode forceIn t s = .next t₁ ∧ Kept [.regs, .free, .vec, .ref, .axl, .mtx] s t₁ := by
  unfold execRefForceWrite
  refine ⟨_, rfl, ?_⟩
  have hk := Kept.refl [.regs, .free, .vec, .ref, .axl, .mtx] s
  have hP := Sub.self [.regs, .free, .vec, .ref, .axl, .mtx]
  repeat' first
    | (with_reducible assumption)
    | (with_reducible apply State.byHost_kept)
    | (with_reducible apply State.refForceWrite_kept)
    | (with_reducible exact Kept.refl _ _)
    | (exact Sub.of ‹_› (by rfl))
    | (intro _)
    | (dsimp only)

theorem execRefSwitchExecute_kept (m : RefMeas) (t : Nat) (s : State) :
    ∃ t₁, execRefSwitchExecute m t s = .next t₁ ∧ Kept [.regs, .free, .media, .xpt, .fst, .che, .sou, .aud, .host, .vec, .hostMem, .ref, .syn, .sec, .axl, .mate] s t₁ := by
  unfold execRefSwitchExecute
  refine ⟨_, rfl, ?_⟩
  have hk := Kept.refl [.regs, .free, .media, .xpt, .fst, .che, .sou, .aud, .host, .vec, .hostMem, .ref, .syn, .sec, .axl, .mate] s
  have hP := Sub.self [.regs, .free, .media, .xpt, .fst, .che, .sou, .aud, .host, .vec, .hostMem, .ref, .syn, .sec, .axl, .mate]
  repeat' first
    | (with_reducible assumption)
    | (with_reducible apply State.at__kept)
    | (with_reducible apply State.acquirePromote_kept)
    | (with_reducible apply State.doSwitch_kept)
    | (with_reducible exact Kept.refl _ _)
    | (exact Sub.of ‹_› (by rfl))
    | split
    | (dsimp only)

theorem execLoopLock_kept (t : Nat) (s : State) :
    ∃ t₁, execLoopLock t s = .next t₁ ∧ Kept [.regs, .vec, .ref] s t₁ := by
  unfold execLoopLock
  refine ⟨_, rfl, ?_⟩
  have hk := Kept.refl [.regs, .vec, .ref] s
  have hP := Sub.self [.regs, .vec, .ref]
  extract_lets s1 s2 q
  have h1 : Kept [.regs, .vec, .ref] s s1 := State.at__kept hk _
  clear_value s1
  have h2 : Kept [.regs, .vec, .ref] s s2 := State.raise_kept (State.set_kept h1 _ _ _) _ _
  clear_value s2
  exact Kept.ite (fun _ => Kept.upd_ref h2 _) fun _ => h1

theorem execLoopUnlock_kept (cal : Int) (t : Nat) (s : State) :
    ∃ t₁, execLoopUnlock cal t s = .next t₁ ∧ Kept [.regs, .free, .vec, .ref, .axl] s t₁ := by
  unfold execLoopUnlock
  refine ⟨_, rfl, ?_⟩
  extract_lets s1
  have hP := Sub.self [.regs, .free, .vec, .ref, .axl]
  have h1 : Kept [.regs, .free, .vec, .ref, .axl] s s1 := State.at__kept (Kept.refl _ s) _
  clear_value s1
  refine Kept.ite (fun _ => ?_) fun _ => h1
  have h2 := State.draw_kept h1
  generalize s1.draw = q at h2
  obtain ⟨n, s2⟩ := q
  exact Kept.upd_ref (State.calibrate_kept (State.set_kept (State.readyFall_kept (State.trkStop_kept h2)) _ _ _) _) _

theorem execTrackBwApply_kept (t : Nat) (s : State) :
    ∃ t₁, execTrackBwApply t s = .next t₁ ∧ Kept [.ref] s t₁ := by
  unfold execTrackBwApply
  refine ⟨_, rfl, ?_⟩
  have hk := Kept.refl [.ref] s
  have hP := Sub.self [.ref]
  repeat' first
    | (with_reducible assumption)
    | (with_reducible apply State.at__kept)
    | (with_reducible exact Kept.refl _ _)
    | (exact Sub.of ‹_› (by rfl))
    | (simp only [Kept.mk_iff]; with_reducible apply KeptC.of)
    | (with_reducible exact Or.inr rfl)
    | (with_reducible exact Or.inr ⟨rfl, rfl⟩)
    | (exact Or.inl (Sub.mem ‹_› (by rfl)))
    | (with_reducible rfl)
    | split
    | (dsimp only)

theorem execHoldoverUpdate_kept (temp : Int) (t : Nat) (s : State) :
    ∃ t₁, execHoldoverUpdate temp t s = .next t₁ ∧ Kept [.regs, .vec, .ref, .pkg] s t₁ := by
  unfold execHoldoverUpdate
  refine ⟨_, rfl, ?_⟩
  have hk := Kept.refl [.regs, .vec, .ref, .pkg] s
  have hP := Sub.self [.regs, .vec, .ref, .pkg]
  repeat' first
    | (with_reducible assumption)
    | (with_reducible apply State.set_kept)
    | (with_reducible apply State.wrInt_kept)
    | (with_reducible apply State.at__kept)
    | (with_reducible apply State.publishBound_kept)
    | (with_reducible apply State.senseTemp_kept)
    | (with_reducible exact Kept.refl _ _)
    | (exact Sub.of ‹_› (by rfl))
    | split
    | (dsimp only)

theorem execAgeingDaily_kept (rate : Int) (temp : Int) (cal : Int) (stored : Bool) (t : Nat) (s : State) :
    ∃ t₁, execAgeingDaily rate temp cal stored t s = .next t₁ ∧ Kept [.regs, .media, .xpt, .fst, .fstMem, .che, .sou, .aud, .vec, .ref, .syn, .flt, .axl, .hsf] s t₁ := by
  unfold execAgeingDaily
  refine ⟨_, rfl, ?_⟩
  have hk := Kept.refl [.regs, .media, .xpt, .fst, .fstMem, .che, .sou, .aud, .vec, .ref, .syn, .flt, .axl, .hsf] s
  have hP := Sub.self [.regs, .media, .xpt, .fst, .fstMem, .che, .sou, .aud, .vec, .ref, .syn, .flt, .axl, .hsf]
  repeat' first
    | (with_reducible assumption)
    | (with_reducible apply State.set_kept)
    | (with_reducible apply State.wrInt_kept)
    | (with_reducible apply State.at__kept)
    | (with_reducible apply State.dirty_kept)
    | (with_reducible apply State.storeRec_kept)
    | (with_reducible exact Kept.refl _ _)
    | (exact Sub.of ‹_› (by rfl))
    | (simp only [Kept.mk_iff]; with_reducible apply KeptC.of)
    | (with_reducible exact Or.inr rfl)
    | (with_reducible exact Or.inr ⟨rfl, rfl⟩)
    | (exact Or.inl (Sub.mem ‹_› (by rfl)))
    | (with_reducible rfl)
    | split
    | (dsimp only)

theorem execTodWrite_kept (hi : Nat) (t : Nat) (s : State) :
    ∃ t₁, execTodWrite hi t s = .next t₁ ∧ Kept [.regs, .taken, .vec, .ref, .mtx] s t₁ := by
  unfold execTodWrite
  refine ⟨_, rfl, ?_⟩
  have hk := Kept.refl [.regs, .taken, .vec, .ref, .mtx] s
  have hP := Sub.self [.regs, .taken, .vec, .ref, .mtx]
  repeat' first
    | (with_reducible assumption)
    | (with_reducible apply State.byHost_kept)
    | (with_reducible apply State.todWrite_kept)
    | (with_reducible exact Kept.refl _ _)
    | (exact Sub.of ‹_› (by rfl))
    | (intro _)
    | (dsimp only)

theorem execTodApply_kept (t : Nat) (s : State) :
    ∃ t₁, execTodApply t s = .next t₁ ∧ Kept [.regs, .media, .xpt, .fst, .che, .sou, .aud, .host, .vec, .hostMem, .ref, .syn, .sec] s t₁ := by
  unfold execTodApply
  refine ⟨_, rfl, ?_⟩
  have hk := Kept.refl [.regs, .media, .xpt, .fst, .che, .sou, .aud, .host, .vec, .hostMem, .ref, .syn, .sec] s
  have hP := Sub.self [.regs, .media, .xpt, .fst, .che, .sou, .aud, .host, .vec, .hostMem, .ref, .syn, .sec]
  repeat' first
    | (with_reducible assumption)
    | (with_reducible apply State.at__kept)
    | (with_reducible apply State.applySec_kept)
    | (with_reducible exact Kept.refl _ _)
    | (exact Sub.of ‹_› (by rfl))
    | (simp only [Kept.mk_iff]; with_reducible apply KeptC.of)
    | (with_reducible exact Or.inr rfl)
    | (with_reducible exact Or.inr ⟨rfl, rfl⟩)
    | (exact Or.inl (Sub.mem ‹_› (by rfl)))
    | (with_reducible rfl)
    | split
    | (dsimp only)

theorem execFpPulse_kept (k : Fin 8) (t : Nat) (s : State) :
    ∃ t₁, execFpPulse k t s = .next t₁ ∧ Kept [.ref] s t₁ := by
  unfold execFpPulse
  refine ⟨_, rfl, ?_⟩
  have hk := Kept.refl [.ref] s
  have hP := Sub.self [.ref]
  repeat' first
    | (with_reducible assumption)
    | (with_reducible apply State.at__kept)
    | (with_reducible exact Kept.refl _ _)
    | (exact Sub.of ‹_› (by rfl))
    | (simp only [Kept.mk_iff]; with_reducible apply KeptC.of)
    | (with_reducible exact Or.inr rfl)
    | (with_reducible exact Or.inr ⟨rfl, rfl⟩)
    | (exact Or.inl (Sub.mem ‹_› (by rfl)))
    | (with_reducible rfl)
    | split
    | (dsimp only)

end Sys2Proof.Machine
end

