-- ==== Sys2Proof/Laws/ExecRegisters.lean ====
section
/-! SUPPORT. Each command of Machine/Registers.lean answers a next state, keeps the queue and the canonical forms, and changes only the parts named. -/
set_option Elab.async false
namespace Sys2Proof.Machine

theorem execRegisterWrite_kept (m : Fin 16) (a : Nat) (v : Nat) (t : Nat) (f : Found) (s : State) :
    ∃ t₁, execRegisterWrite m a v t f s = .next t₁ ∧ Kept [.regs, .taken, .snap, .free, .media, .xpt, .fst, .fstMem, .che, .sou, .aud, .host, .vec, .hostMem, .lv, .ref, .syn, .sec, .flt, .axl, .rst, .hsf, .mtx, .mate, .pkg] s t₁ := by
  unfold execRegisterWrite
  refine ⟨_, rfl, ?_⟩
  have hk := Kept.refl [.regs, .taken, .snap, .free, .media, .xpt, .fst, .fstMem, .che, .sou, .aud, .host, .vec, .hostMem, .lv, .ref, .syn, .sec, .flt, .axl, .rst, .hsf, .mtx, .mate, .pkg] s
  have hP := Sub.self [.regs, .taken, .snap, .free, .media, .xpt, .fst, .fstMem, .che, .sou, .aud, .host, .vec, .hostMem, .lv, .ref, .syn, .sec, .flt, .axl, .rst, .hsf, .mtx, .mate, .pkg]
  repeat' first
    | (with_reducible assumption)
    | (with_reducible apply State.at__kept)
    | (with_reducible apply State.request_kept)
    | (with_reducible exact Kept.refl _ _)
    | (exact Sub.of ‹_› (by rfl))
    | (dsimp only)

theorem execImaskWrite_kept (a : Nat) (v : Nat) (s : State) :
    ∃ t₁, execImaskWrite a v s = .next t₁ ∧ Kept [.regs, .taken, .snap, .free, .media, .xpt, .fst, .fstMem, .che, .sou, .aud, .host, .vec, .hostMem, .lv, .ref, .syn, .sec, .flt, .axl, .rst, .hsf, .mtx, .mate, .pkg] s t₁ := by
  unfold execImaskWrite
  refine ⟨_, rfl, ?_⟩
  have hk := Kept.refl [.regs, .taken, .snap, .free, .media, .xpt, .fst, .fstMem, .che, .sou, .aud, .host, .vec, .hostMem, .lv, .ref, .syn, .sec, .flt, .axl, .rst, .hsf, .mtx, .mate, .pkg] s
  have hP := Sub.self [.regs, .taken, .snap, .free, .media, .xpt, .fst, .fstMem, .che, .sou, .aud, .host, .vec, .hostMem, .lv, .ref, .syn, .sec, .flt, .axl, .rst, .hsf, .mtx, .mate, .pkg]
  repeat' first
    | (with_reducible assumption)
    | (with_reducible apply State.request_kept)
    | (with_reducible exact Kept.refl _ _)
    | (exact Sub.of ‹_› (by rfl))
    | split
    | (dsimp only)

theorem execSnapshotRead_kept (a : Nat) (s : State) :
    ∃ t₁, execSnapshotRead a s = .next t₁ ∧ Kept [.regs, .taken, .snap, .free, .media, .xpt, .fst, .fstMem, .che, .sou, .aud, .host, .vec, .hostMem, .lv, .ref, .syn, .sec, .flt, .axl, .rst, .hsf, .mtx, .mate, .pkg] s t₁ := by
  unfold execSnapshotRead
  refine ⟨_, rfl, ?_⟩
  have hk := Kept.refl [.regs, .taken, .snap, .free, .media, .xpt, .fst, .fstMem, .che, .sou, .aud, .host, .vec, .hostMem, .lv, .ref, .syn, .sec, .flt, .axl, .rst, .hsf, .mtx, .mate, .pkg] s
  have hP := Sub.self [.regs, .taken, .snap, .free, .media, .xpt, .fst, .fstMem, .che, .sou, .aud, .host, .vec, .hostMem, .lv, .ref, .syn, .sec, .flt, .axl, .rst, .hsf, .mtx, .mate, .pkg]
  repeat' first
    | (with_reducible assumption)
    | (with_reducible apply State.request_kept)
    | (with_reducible exact Kept.refl _ _)
    | (exact Sub.of ‹_› (by rfl))
    | split
    | (dsimp only)

end Sys2Proof.Machine
end

