-- ==== Sys2Proof/Laws/ExecReset.lean ====
section
/-! SUPPORT. Each command of Machine/Reset.lean answers a next state, keeps the queue and the canonical forms, and changes only the parts named. -/
set_option Elab.async false
namespace Sys2Proof.Machine

theorem execPowerOn_kept (s : State) :
    ∃ t₁, execPowerOn s = .next t₁ ∧ Kept [.regs, .taken, .snap, .media, .xpt, .fst, .fstMem, .che, .sou, .aud, .host, .vec, .lv, .ref, .syn, .sec, .flt, .axl, .rst, .hsf, .mtx, .mate, .pkg] s t₁ := by
  unfold execPowerOn
  refine ⟨_, rfl, ?_⟩
  have hk := Kept.refl [.regs, .taken, .snap, .media, .xpt, .fst, .fstMem, .che, .sou, .aud, .host, .vec, .lv, .ref, .syn, .sec, .flt, .axl, .rst, .hsf, .mtx, .mate, .pkg] s
  have hP := Sub.self [.regs, .taken, .snap, .media, .xpt, .fst, .fstMem, .che, .sou, .aud, .host, .vec, .lv, .ref, .syn, .sec, .flt, .axl, .rst, .hsf, .mtx, .mate, .pkg]
  repeat' first
    | (with_reducible assumption)
    | (with_reducible apply State.wr_kept)
    | (with_reducible apply State.set_kept)
    | (with_reducible apply State.newCause_kept)
    | (with_reducible apply State.coldState_kept)
    | (with_reducible apply State.leaveP0_kept)
    | (with_reducible refine Kept.foldl ?_ ?_)
    | (with_reducible exact Kept.refl _ _)
    | (exact Sub.of ‹_› (by rfl))
    | (simp only [Kept.mk_iff]; with_reducible apply KeptC.of)
    | (with_reducible exact Or.inr rfl)
    | (with_reducible exact Or.inr ⟨rfl, rfl⟩)
    | (exact Or.inl (Sub.mem ‹_› (by rfl)))
    | (with_reducible rfl)
    | (intro _)
    | split
    | (dsimp only)

theorem execBrownOut_kept (s : State) :
    ∃ t₁, execBrownOut s = .next t₁ ∧ Kept [.regs, .taken, .snap, .media, .xpt, .fst, .fstMem, .che, .sou, .aud, .host, .vec, .lv, .ref, .syn, .sec, .flt, .axl, .rst, .hsf, .mtx, .mate, .pkg] s t₁ := by
  unfold execBrownOut
  refine ⟨_, rfl, ?_⟩
  have hk := Kept.refl [.regs, .taken, .snap, .media, .xpt, .fst, .fstMem, .che, .sou, .aud, .host, .vec, .lv, .ref, .syn, .sec, .flt, .axl, .rst, .hsf, .mtx, .mate, .pkg] s
  have hP := Sub.self [.regs, .taken, .snap, .media, .xpt, .fst, .fstMem, .che, .sou, .aud, .host, .vec, .lv, .ref, .syn, .sec, .flt, .axl, .rst, .hsf, .mtx, .mate, .pkg]
  repeat' first
    | (with_reducible assumption)
    | (with_reducible apply State.coldSource_kept)
    | (with_reducible exact Kept.refl _ _)
    | (exact Sub.of ‹_› (by rfl))
    | (simp only [Kept.mk_iff]; with_reducible apply KeptC.of)
    | (with_reducible exact Or.inr rfl)
    | (with_reducible exact Or.inr ⟨rfl, rfl⟩)
    | (exact Or.inl (Sub.mem ‹_› (by rfl)))
    | (with_reducible rfl)
    | split
    | (dsimp only)

theorem execPowerGoodReturn_kept (s : State) :
    ∃ t₁, execPowerGoodReturn s = .next t₁ ∧ Kept [.regs, .vec, .axl, .rst] s t₁ := by
  unfold execPowerGoodReturn
  refine ⟨_, rfl, ?_⟩
  have hk := Kept.refl [.regs, .vec, .axl, .rst] s
  have hP := Sub.self [.regs, .vec, .axl, .rst]
  repeat' first
    | (with_reducible assumption)
    | (with_reducible apply State.leaveP0_kept)
    | (with_reducible exact Kept.refl _ _)
    | (exact Sub.of ‹_› (by rfl))
    | (simp only [Kept.mk_iff]; with_reducible apply KeptC.of)
    | (with_reducible exact Or.inr rfl)
    | (with_reducible exact Or.inr ⟨rfl, rfl⟩)
    | (exact Or.inl (Sub.mem ‹_› (by rfl)))
    | (with_reducible rfl)
    | split
    | (dsimp only)

theorem execPinReset_kept (s : State) :
    ∃ t₁, execPinReset s = .next t₁ ∧ Kept [.regs, .taken, .snap, .media, .xpt, .fst, .fstMem, .che, .sou, .aud, .host, .vec, .lv, .ref, .syn, .sec, .flt, .axl, .rst, .hsf, .mtx, .mate, .pkg] s t₁ := by
  unfold execPinReset
  refine ⟨_, rfl, ?_⟩
  have hk := Kept.refl [.regs, .taken, .snap, .media, .xpt, .fst, .fstMem, .che, .sou, .aud, .host, .vec, .lv, .ref, .syn, .sec, .flt, .axl, .rst, .hsf, .mtx, .mate, .pkg] s
  have hP := Sub.self [.regs, .taken, .snap, .media, .xpt, .fst, .fstMem, .che, .sou, .aud, .host, .vec, .lv, .ref, .syn, .sec, .flt, .axl, .rst, .hsf, .mtx, .mate, .pkg]
  repeat' first
    | (with_reducible assumption)
    | (with_reducible apply State.coldSource_kept)
    | (with_reducible exact Kept.refl _ _)
    | (exact Sub.of ‹_› (by rfl))
    | (simp only [Kept.mk_iff]; with_reducible apply KeptC.of)
    | (with_reducible exact Or.inr rfl)
    | (with_reducible exact Or.inr ⟨rfl, rfl⟩)
    | (exact Or.inl (Sub.mem ‹_› (by rfl)))
    | (with_reducible rfl)
    | split
    | (dsimp only)

theorem execResetNRelease_kept (s : State) :
    ∃ t₁, execResetNRelease s = .next t₁ ∧ Kept [.regs, .vec, .axl, .rst] s t₁ := by
  unfold execResetNRelease
  refine ⟨_, rfl, ?_⟩
  have hk := Kept.refl [.regs, .vec, .axl, .rst] s
  have hP := Sub.self [.regs, .vec, .axl, .rst]
  repeat' first
    | (with_reducible assumption)
    | (with_reducible apply State.leaveP0_kept)
    | (with_reducible exact Kept.refl _ _)
    | (exact Sub.of ‹_› (by rfl))
    | (simp only [Kept.mk_iff]; with_reducible apply KeptC.of)
    | (with_reducible exact Or.inr rfl)
    | (with_reducible exact Or.inr ⟨rfl, rfl⟩)
    | (exact Or.inl (Sub.mem ‹_› (by rfl)))
    | (with_reducible rfl)
    | (dsimp only)

theorem execClockMonitorFail_kept (c : ClkMon) (s : State) :
    ∃ t₁, execClockMonitorFail c s = .next t₁ ∧ Kept [.regs, .taken, .snap, .media, .xpt, .fst, .fstMem, .che, .sou, .aud, .host, .vec, .lv, .ref, .syn, .sec, .flt, .axl, .rst, .hsf, .mtx, .mate, .pkg] s t₁ := by
  unfold execClockMonitorFail
  refine ⟨_, rfl, ?_⟩
  have hk := Kept.refl [.regs, .taken, .snap, .media, .xpt, .fst, .fstMem, .che, .sou, .aud, .host, .vec, .lv, .ref, .syn, .sec, .flt, .axl, .rst, .hsf, .mtx, .mate, .pkg] s
  have hP := Sub.self [.regs, .taken, .snap, .media, .xpt, .fst, .fstMem, .che, .sou, .aud, .host, .vec, .lv, .ref, .syn, .sec, .flt, .axl, .rst, .hsf, .mtx, .mate, .pkg]
  repeat' first
    | (with_reducible assumption)
    | (with_reducible apply State.coldSource_kept)
    | (with_reducible apply State.warmSource_kept)
    | (with_reducible exact Kept.refl _ _)
    | (exact Sub.of ‹_› (by rfl))
    | (simp only [Kept.mk_iff]; with_reducible apply KeptC.of)
    | (with_reducible exact Or.inr rfl)
    | (with_reducible exact Or.inr ⟨rfl, rfl⟩)
    | (exact Or.inl (Sub.mem ‹_› (by rfl)))
    | (with_reducible rfl)
    | split
    | (dsimp only)

theorem execCclkRelockTimeout_kept (s : State) :
    ∃ t₁, execCclkRelockTimeout s = .next t₁ ∧ Kept [.regs, .taken, .snap, .media, .xpt, .fst, .fstMem, .che, .sou, .aud, .host, .vec, .lv, .ref, .syn, .sec, .flt, .axl, .rst, .hsf, .mtx, .mate, .pkg] s t₁ := by
  unfold execCclkRelockTimeout
  refine ⟨_, rfl, ?_⟩
  have hk := Kept.refl [.regs, .taken, .snap, .media, .xpt, .fst, .fstMem, .che, .sou, .aud, .host, .vec, .lv, .ref, .syn, .sec, .flt, .axl, .rst, .hsf, .mtx, .mate, .pkg] s
  have hP := Sub.self [.regs, .taken, .snap, .media, .xpt, .fst, .fstMem, .che, .sou, .aud, .host, .vec, .lv, .ref, .syn, .sec, .flt, .axl, .rst, .hsf, .mtx, .mate, .pkg]
  repeat' first
    | (with_reducible assumption)
    | (with_reducible apply State.coldSource_kept)
    | (with_reducible exact Kept.refl _ _)
    | (exact Sub.of ‹_› (by rfl))
    | split
    | (dsimp only)

theorem execWatchdogExpiry_kept (s : State) :
    ∃ t₁, execWatchdogExpiry s = .next t₁ ∧ Kept [.regs, .taken, .snap, .media, .xpt, .fst, .fstMem, .che, .sou, .aud, .host, .vec, .lv, .ref, .syn, .sec, .flt, .axl, .rst, .hsf, .mtx, .mate, .pkg] s t₁ := by
  unfold execWatchdogExpiry
  refine ⟨_, rfl, ?_⟩
  have hk := Kept.refl [.regs, .taken, .snap, .media, .xpt, .fst, .fstMem, .che, .sou, .aud, .host, .vec, .lv, .ref, .syn, .sec, .flt, .axl, .rst, .hsf, .mtx, .mate, .pkg] s
  have hP := Sub.self [.regs, .taken, .snap, .media, .xpt, .fst, .fstMem, .che, .sou, .aud, .host, .vec, .lv, .ref, .syn, .sec, .flt, .axl, .rst, .hsf, .mtx, .mate, .pkg]
  repeat' first
    | (with_reducible assumption)
    | (with_reducible apply State.warmSource_kept)
    | (with_reducible exact Kept.refl _ _)
    | (exact Sub.of ‹_› (by rfl))
    | (dsimp only)

theorem execSoftwareResetRequest_kept (v : Nat) (s : State) :
    ∃ t₁, execSoftwareResetRequest v s = .next t₁ ∧ Kept [.regs, .taken, .snap, .media, .xpt, .fst, .fstMem, .che, .sou, .aud, .host, .vec, .lv, .ref, .syn, .sec, .flt, .axl, .rst, .hsf, .mtx, .mate, .pkg] s t₁ := by
  unfold execSoftwareResetRequest
  refine ⟨_, rfl, ?_⟩
  have hk := Kept.refl [.regs, .taken, .snap, .media, .xpt, .fst, .fstMem, .che, .sou, .aud, .host, .vec, .lv, .ref, .syn, .sec, .flt, .axl, .rst, .hsf, .mtx, .mate, .pkg] s
  have hP := Sub.self [.regs, .taken, .snap, .media, .xpt, .fst, .fstMem, .che, .sou, .aud, .host, .vec, .lv, .ref, .syn, .sec, .flt, .axl, .rst, .hsf, .mtx, .mate, .pkg]
  repeat' first
    | (with_reducible assumption)
    | (with_reducible apply State.byHost_kept)
    | (with_reducible apply State.softwareResetRequest_kept)
    | (with_reducible exact Kept.refl _ _)
    | (exact Sub.of ‹_› (by rfl))
    | (intro _)
    | (dsimp only)

theorem execDebugResetRequest_kept (s : State) :
    ∃ t₁, execDebugResetRequest s = .next t₁ ∧ Kept [.regs, .taken, .snap, .media, .xpt, .fst, .fstMem, .che, .sou, .aud, .host, .vec, .lv, .ref, .syn, .sec, .flt, .axl, .rst, .hsf, .mtx, .mate, .pkg] s t₁ := by
  unfold execDebugResetRequest
  refine ⟨_, rfl, ?_⟩
  have hk := Kept.refl [.regs, .taken, .snap, .media, .xpt, .fst, .fstMem, .che, .sou, .aud, .host, .vec, .lv, .ref, .syn, .sec, .flt, .axl, .rst, .hsf, .mtx, .mate, .pkg] s
  have hP := Sub.self [.regs, .taken, .snap, .media, .xpt, .fst, .fstMem, .che, .sou, .aud, .host, .vec, .lv, .ref, .syn, .sec, .flt, .axl, .rst, .hsf, .mtx, .mate, .pkg]
  repeat' first
    | (with_reducible assumption)
    | (with_reducible apply State.warmSource_kept)
    | (with_reducible exact Kept.refl _ _)
    | (exact Sub.of ‹_› (by rfl))
    | split
    | (dsimp only)

theorem execMcLockup_kept (s : State) :
    ∃ t₁, execMcLockup s = .next t₁ ∧ Kept [.regs, .taken, .snap, .media, .xpt, .fst, .fstMem, .che, .sou, .aud, .host, .vec, .lv, .ref, .syn, .sec, .flt, .axl, .rst, .hsf, .mtx, .mate, .pkg] s t₁ := by
  unfold execMcLockup
  refine ⟨_, rfl, ?_⟩
  have hk := Kept.refl [.regs, .taken, .snap, .media, .xpt, .fst, .fstMem, .che, .sou, .aud, .host, .vec, .lv, .ref, .syn, .sec, .flt, .axl, .rst, .hsf, .mtx, .mate, .pkg] s
  have hP := Sub.self [.regs, .taken, .snap, .media, .xpt, .fst, .fstMem, .che, .sou, .aud, .host, .vec, .lv, .ref, .syn, .sec, .flt, .axl, .rst, .hsf, .mtx, .mate, .pkg]
  repeat' first
    | (with_reducible assumption)
    | (with_reducible apply State.warmSource_kept)
    | (with_reducible exact Kept.refl _ _)
    | (exact Sub.of ‹_› (by rfl))
    | (dsimp only)

theorem execRemoteResetReceive_kept (s : State) :
    ∃ t₁, execRemoteResetReceive s = .next t₁ ∧ Kept [.regs, .taken, .snap, .media, .xpt, .fst, .fstMem, .che, .sou, .aud, .host, .vec, .lv, .ref, .syn, .sec, .flt, .axl, .rst, .hsf, .mtx, .mate, .pkg] s t₁ := by
  unfold execRemoteResetReceive
  refine ⟨_, rfl, ?_⟩
  have hk := Kept.refl [.regs, .taken, .snap, .media, .xpt, .fst, .fstMem, .che, .sou, .aud, .host, .vec, .lv, .ref, .syn, .sec, .flt, .axl, .rst, .hsf, .mtx, .mate, .pkg] s
  have hP := Sub.self [.regs, .taken, .snap, .media, .xpt, .fst, .fstMem, .che, .sou, .aud, .host, .vec, .lv, .ref, .syn, .sec, .flt, .axl, .rst, .hsf, .mtx, .mate, .pkg]
  repeat' first
    | (with_reducible assumption)
    | (with_reducible apply State.raise_kept)
    | (with_reducible apply State.warmSource_kept)
    | (with_reducible exact Kept.refl _ _)
    | (exact Sub.of ‹_› (by rfl))
    | split
    | (dsimp only)

theorem execRetentionVoltageLoss_kept (s : State) :
    ∃ t₁, execRetentionVoltageLoss s = .next t₁ ∧ Kept [.rst] s t₁ := by
  unfold execRetentionVoltageLoss
  refine ⟨_, rfl, ?_⟩
  have hk := Kept.refl [.rst] s
  have hP := Sub.self [.rst]
  repeat' first
    | (with_reducible assumption)
    | (with_reducible exact Kept.refl _ _)
    | (exact Sub.of ‹_› (by rfl))
    | (simp only [Kept.mk_iff]; with_reducible apply KeptC.of)
    | (with_reducible exact Or.inr rfl)
    | (with_reducible exact Or.inr ⟨rfl, rfl⟩)
    | (exact Or.inl (Sub.mem ‹_› (by rfl)))
    | (with_reducible rfl)
    | (dsimp only)

theorem execOptionLoad_kept (r : Option OptSet) (s : State) :
    ∃ t₁, execOptionLoad r s = .next t₁ ∧ Kept [.regs, .vec, .lv, .rst] s t₁ := by
  unfold execOptionLoad
  refine ⟨_, rfl, ?_⟩
  have hk := Kept.refl [.regs, .vec, .lv, .rst] s
  have hP := Sub.self [.regs, .vec, .lv, .rst]
  repeat' first
    | (with_reducible assumption)
    | (with_reducible apply State.wr_kept)
    | (with_reducible apply State.set_kept)
    | (with_reducible apply State.setB_kept)
    | (with_reducible apply State.wr2_kept)
    | (with_reducible apply State.setPhase_kept)
    | (with_reducible apply State.restartP1_kept)
    | (with_reducible exact Kept.refl _ _)
    | (exact Sub.of ‹_› (by rfl))
    | (simp only [Kept.mk_iff]; with_reducible apply KeptC.of)
    | (with_reducible exact Or.inr rfl)
    | (with_reducible exact Or.inr ⟨rfl, rfl⟩)
    | (exact Or.inl (Sub.mem ‹_› (by rfl)))
    | (with_reducible rfl)
    | split
    | (dsimp only)

theorem execRecallRecords_kept (bad : List (Nat × Bool)) (s : State) :
    ∃ t₁, execRecallRecords bad s = .next t₁ ∧ Kept [.regs, .free, .host, .vec, .ref, .sec, .flt, .axl, .rst, .mtx] s t₁ := by
  unfold execRecallRecords
  refine ⟨_, rfl, ?_⟩
  have hk := Kept.refl [.regs, .free, .host, .vec, .ref, .sec, .flt, .axl, .rst, .mtx] s
  have hP := Sub.self [.regs, .free, .host, .vec, .ref, .sec, .flt, .axl, .rst, .mtx]
  repeat' first
    | (with_reducible assumption)
    | (with_reducible apply State.set_kept)
    | (with_reducible apply State.inc_kept)
    | (with_reducible apply State.spoil_kept)
    | (with_reducible apply State.newNonce_kept)
    | (with_reducible apply State.setPhase_kept)
    | (with_reducible apply State.recallRec_kept)
    | (with_reducible apply State.recallKey_kept)
    | (with_reducible apply State.retention_kept)
    | (with_reducible refine Kept.foldl ?_ ?_)
    | (with_reducible exact Kept.refl _ _)
    | (exact Sub.of ‹_› (by rfl))
    | (simp only [Kept.mk_iff]; with_reducible apply KeptC.of)
    | (with_reducible exact Or.inr rfl)
    | (with_reducible exact Or.inr ⟨rfl, rfl⟩)
    | (exact Or.inl (Sub.mem ‹_› (by rfl)))
    | (with_reducible rfl)
    | (intro _)
    | split
    | (dsimp only)

theorem execBootImageVerify_kept (a : Img) (b : Img) (s : State) :
    ∃ t₁, execBootImageVerify a b s = .next t₁ ∧ Kept [.regs, .host, .vec, .rst] s t₁ := by
  unfold execBootImageVerify
  refine ⟨_, rfl, ?_⟩
  have hk := Kept.refl [.regs, .host, .vec, .rst] s
  have hP := Sub.self [.regs, .host, .vec, .rst]
  repeat' first
    | (with_reducible assumption)
    | (with_reducible apply State.set_kept)
    | (with_reducible apply State.enumerate_kept)
    | (with_reducible apply State.rollback_kept)
    | (with_reducible apply State.bootImg_kept)
    | (with_reducible exact Kept.refl _ _)
    | (exact Sub.of ‹_› (by rfl))
    | (simp only [Kept.mk_iff]; with_reducible apply KeptC.of)
    | (with_reducible exact Or.inr rfl)
    | (with_reducible exact Or.inr ⟨rfl, rfl⟩)
    | (exact Or.inl (Sub.mem ‹_› (by rfl)))
    | (with_reducible rfl)
    | (intro _)
    | split
    | (dsimp only)

theorem execControlPlaneUp_kept (t : Nat) (s : State) :
    ∃ t₁, execControlPlaneUp t s = .next t₁ ∧ Kept [.regs, .media, .xpt, .fst, .che, .sou, .aud, .host, .vec, .hostMem, .lv, .syn, .sec, .axl, .rst] s t₁ := by
  unfold execControlPlaneUp
  refine ⟨_, rfl, ?_⟩
  have hk := Kept.refl [.regs, .media, .xpt, .fst, .che, .sou, .aud, .host, .vec, .hostMem, .lv, .syn, .sec, .axl, .rst] s
  have hP := Sub.self [.regs, .media, .xpt, .fst, .che, .sou, .aud, .host, .vec, .hostMem, .lv, .syn, .sec, .axl, .rst]
  repeat' first
    | (with_reducible assumption)
    | (with_reducible apply State.at__kept)
    | (with_reducible apply State.setPhase_kept)
    | (with_reducible apply State.coldUp_kept)
    | (with_reducible apply State.warmUp_kept)
    | (with_reducible exact Kept.refl _ _)
    | (exact Sub.of ‹_› (by rfl))
    | split
    | (dsimp only)

theorem execDataPlaneStart_kept (m : Slack) (t : Nat) (s : State) :
    ∃ t₁, execDataPlaneStart m t s = .next t₁ ∧ Kept [.regs, .free, .media, .xpt, .fst, .fstMem, .che, .sou, .aud, .host, .vec, .hostMem, .lv, .ref, .syn, .sec, .flt, .axl, .rst, .hsf, .mate] s t₁ := by
  unfold execDataPlaneStart
  refine ⟨_, rfl, ?_⟩
  have hk := Kept.refl [.regs, .free, .media, .xpt, .fst, .fstMem, .che, .sou, .aud, .host, .vec, .hostMem, .lv, .ref, .syn, .sec, .flt, .axl, .rst, .hsf, .mate] s
  have hP := Sub.self [.regs, .free, .media, .xpt, .fst, .fstMem, .che, .sou, .aud, .host, .vec, .hostMem, .lv, .ref, .syn, .sec, .flt, .axl, .rst, .hsf, .mate]
  refine Kept.ite (fun _ => hk) fun _ => ?_
  exact State.planeEnd_kept hk fun v e => State.restoreRoutes_kept' (State.startPlane_kept (State.at__kept hk t) m) e

theorem execWarmReset_kept (s : State) :
    ∃ t₁, execWarmReset s = .next t₁ ∧ Kept [.regs, .taken, .free, .media, .xpt, .fst, .fstMem, .che, .sou, .aud, .host, .vec, .lv, .syn, .sec, .flt, .rst, .hsf, .mtx, .mate, .pkg] s t₁ := by
  unfold execWarmReset
  refine ⟨_, rfl, ?_⟩
  have hk := Kept.refl [.regs, .taken, .free, .media, .xpt, .fst, .fstMem, .che, .sou, .aud, .host, .vec, .lv, .syn, .sec, .flt, .rst, .hsf, .mtx, .mate, .pkg] s
  have hP := Sub.self [.regs, .taken, .free, .media, .xpt, .fst, .fstMem, .che, .sou, .aud, .host, .vec, .lv, .syn, .sec, .flt, .rst, .hsf, .mtx, .mate, .pkg]
  repeat' first
    | (with_reducible assumption)
    | (with_reducible apply State.warmE1_kept)
    | (with_reducible exact Kept.refl _ _)
    | (exact Sub.of ‹_› (by rfl))
    | split
    | (dsimp only)

theorem execWarmReady_kept (t : Nat) (s : State) :
    ∃ t₁, execWarmReady t s = .next t₁ ∧ Kept [.regs, .xpt, .fst, .che, .sou, .aud, .host, .vec, .lv, .sec, .rst, .mate] s t₁ := by
  unfold execWarmReady
  refine ⟨_, rfl, ?_⟩
  have hk := Kept.refl [.regs, .xpt, .fst, .che, .sou, .aud, .host, .vec, .lv, .sec, .rst, .mate] s
  have hP := Sub.self [.regs, .xpt, .fst, .che, .sou, .aud, .host, .vec, .lv, .sec, .rst, .mate]
  refine Kept.ite (fun _ => hk) fun _ => ?_
  extract_lets s1
  have h1 : Kept [.regs, .xpt, .fst, .che, .sou, .aud, .host, .vec, .lv, .sec, .rst, .mate] s s1 := State.warmOver_kept (State.setReady_kept (State.reapAll_kept (State.recoverOps_kept (State.at__kept hk _))))
  clear_value s1
  exact Kept.ite (fun _ => State.setSync_kept h1 _) fun _ => h1

theorem execBlockResetAssert_kept (v : Nat) (s : State) :
    ∃ t₁, execBlockResetAssert v s = .next t₁ ∧ Kept [.regs, .free, .media, .xpt, .fst, .che, .sou, .aud, .host, .vec, .hostMem, .ref, .syn, .sec, .axl, .mtx] s t₁ := by
  unfold execBlockResetAssert
  refine ⟨_, rfl, ?_⟩
  have hk := Kept.refl [.regs, .free, .media, .xpt, .fst, .che, .sou, .aud, .host, .vec, .hostMem, .ref, .syn, .sec, .axl, .mtx] s
  have hP := Sub.self [.regs, .free, .media, .xpt, .fst, .che, .sou, .aud, .host, .vec, .hostMem, .ref, .syn, .sec, .axl, .mtx]
  repeat' first
    | (with_reducible assumption)
    | (with_reducible apply State.byHost_kept)
    | (with_reducible apply State.blockResetAssert_kept)
    | (with_reducible exact Kept.refl _ _)
    | (exact Sub.of ‹_› (by rfl))
    | (intro _)
    | (dsimp only)

theorem execBlockResetRelease_kept (v : Nat) (clk : Bool) (s : State) :
    ∃ t₁, execBlockResetRelease v clk s = .next t₁ ∧ Kept [.regs, .vec, .syn, .mtx] s t₁ := by
  unfold execBlockResetRelease
  refine ⟨_, rfl, ?_⟩
  have hk := Kept.refl [.regs, .vec, .syn, .mtx] s
  have hP := Sub.self [.regs, .vec, .syn, .mtx]
  repeat' first
    | (with_reducible assumption)
    | (with_reducible apply State.byHost_kept)
    | (with_reducible apply State.blockResetRelease_kept)
    | (with_reducible exact Kept.refl _ _)
    | (exact Sub.of ‹_› (by rfl))
    | (intro _)
    | (dsimp only)

theorem execBlockClockQualified_kept (c : Nat) (i : Nat) (s : State) :
    ∃ t₁, execBlockClockQualified c i s = .next t₁ ∧ Kept [.regs, .syn] s t₁ := by
  unfold execBlockClockQualified
  refine ⟨_, rfl, ?_⟩
  have hk := Kept.refl [.regs, .syn] s
  have hP := Sub.self [.regs, .syn]
  repeat' first
    | (with_reducible assumption)
    | (with_reducible apply State.set_kept)
    | (with_reducible apply State.releaseBlock_kept)
    | (with_reducible exact Kept.refl _ _)
    | (exact Sub.of ‹_› (by rfl))
    | split
    | (dsimp only)

end Sys2Proof.Machine
end

