-- ==== Sys2Proof/Laws/ExecScanOut.lean ====
section
/-! SUPPORT. Each command of Machine/ScanOut.lean answers a next state, keeps the queue and the canonical forms, and changes only the parts named. -/
set_option Elab.async false
namespace Sys2Proof.Machine

theorem execSouCfg_kept (h : Hdr) (r : SouReq) (s : State) :
    ∃ t₁, execSouCfg h r s = .next t₁ ∧ Kept [.regs, .free, .fst, .sou, .host, .vec, .axl, .hsf, .mate] s t₁ := by
  unfold execSouCfg
  refine ⟨_, rfl, ?_⟩
  have hk := Kept.refl [.regs, .free, .fst, .sou, .host, .vec, .axl, .hsf, .mate] s
  have hP := Sub.self [.regs, .free, .fst, .sou, .host, .vec, .axl, .hsf, .mate]
  repeat' first
    | (with_reducible assumption)
    | (with_reducible apply State.desc_kept)
    | (with_reducible apply souCfgBody_kept)
    | (with_reducible exact Kept.refl _ _)
    | (exact Sub.of ‹_› (by rfl))
    | (intro _)
    | (with_reducible exact Adm.kept_bad ..)
    | (with_reducible exact Adm.kept_badData ..)
    | (with_reducible exact Adm.kept_short ..)
    | (with_reducible exact Adm.kept_denied ..)
    | (with_reducible exact Adm.kept_no ..)
    | (with_reducible exact Adm.kept_wait ..)
    | (with_reducible apply Adm.kept_late)
    | (with_reducible apply Adm.kept_deny)
    | (with_reducible apply Adm.kept_yes)
    | (with_reducible refine Adm.ite (fun _ => ?_) fun _ => ?_)
    | (exact Sub.of ‹_› (by rfl))
    | (dsimp only)

theorem execSouCommit_kept (h : Hdr) (u : Nat) (s : State) :
    ∃ t₁, execSouCommit h u s = .next t₁ ∧ Kept [.regs, .free, .host, .vec, .axl, .hsf, .mate] s t₁ := by
  unfold execSouCommit
  refine ⟨_, rfl, ?_⟩
  have hk := Kept.refl [.regs, .free, .host, .vec, .axl, .hsf, .mate] s
  have hP := Sub.self [.regs, .free, .host, .vec, .axl, .hsf, .mate]
  repeat' first
    | (with_reducible assumption)
    | (with_reducible apply State.desc_kept)
    | (with_reducible apply souCommitBody_kept)
    | (with_reducible exact Kept.refl _ _)
    | (exact Sub.of ‹_› (by rfl))
    | (intro _)
    | (with_reducible exact Adm.kept_bad ..)
    | (with_reducible exact Adm.kept_badData ..)
    | (with_reducible exact Adm.kept_short ..)
    | (with_reducible exact Adm.kept_denied ..)
    | (with_reducible exact Adm.kept_no ..)
    | (with_reducible exact Adm.kept_wait ..)
    | (with_reducible apply Adm.kept_late)
    | (with_reducible apply Adm.kept_deny)
    | (with_reducible apply Adm.kept_yes)
    | (with_reducible refine Adm.ite (fun _ => ?_) fun _ => ?_)
    | (exact Sub.of ‹_› (by rfl))
    | (dsimp only)

theorem execUfmtModeWrite_kept (m : Fin 16) (v : Nat) (s : State) :
    ∃ t₁, execUfmtModeWrite m v s = .next t₁ ∧ Kept [.regs, .xpt, .vec, .mtx] s t₁ := by
  unfold execUfmtModeWrite
  refine ⟨_, rfl, ?_⟩
  have hk := Kept.refl [.regs, .xpt, .vec, .mtx] s
  have hP := Sub.self [.regs, .xpt, .vec, .mtx]
  repeat' first
    | (with_reducible assumption)
    | (with_reducible apply State.byHost_kept)
    | (with_reducible apply State.ufmtWrite_kept)
    | (with_reducible exact Kept.refl _ _)
    | (exact Sub.of ‹_› (by rfl))
    | (intro _)
    | (dsimp only)

theorem execCommitLatch_kept (u : Fin 160) (t : Nat) (s : State) :
    ∃ t₁, execCommitLatch u t s = .next t₁ ∧ Kept [.regs, .host, .vec] s t₁ := by
  unfold execCommitLatch
  refine ⟨_, rfl, ?_⟩
  have hk := Kept.refl [.regs, .host, .vec] s
  have hP := Sub.self [.regs, .host, .vec]
  repeat' first
    | (with_reducible assumption)
    | (with_reducible apply State.at__kept)
    | (with_reducible apply State.setOp_kept)
    | (with_reducible apply State.finish_kept)
    | (with_reducible refine Kept.foldl ?_ ?_)
    | (with_reducible exact Kept.refl _ _)
    | (exact Sub.of ‹_› (by rfl))
    | (intro _)
    | split
    | (dsimp only)

theorem execCommitExecute_kept (u : Fin 160) (t : Nat) (s : State) :
    ∃ t₁, execCommitExecute u t s = .next t₁ ∧ Kept [.regs, .media, .xpt, .fst, .che, .sou, .aud, .host, .vec, .hostMem, .syn, .sec] s t₁ := by
  unfold execCommitExecute
  refine ⟨_, rfl, ?_⟩
  have hk := Kept.refl [.regs, .media, .xpt, .fst, .che, .sou, .aud, .host, .vec, .hostMem, .syn, .sec] s
  have hP := Sub.self [.regs, .media, .xpt, .fst, .che, .sou, .aud, .host, .vec, .hostMem, .syn, .sec]
  repeat' first
    | (with_reducible assumption)
    | (with_reducible apply State.at__kept)
    | (with_reducible apply State.runCommit_kept)
    | (with_reducible apply State.keepSent_kept)
    | (with_reducible refine Kept.foldl ?_ ?_)
    | (with_reducible exact Kept.refl _ _)
    | (exact Sub.of ‹_› (by rfl))
    | (intro _)
    | split
    | (dsimp only)

theorem execNewTimingStart_kept (u : Fin 160) (t : Nat) (s : State) :
    ∃ t₁, execNewTimingStart u t s = .next t₁ ∧ Kept [.regs, .media, .xpt, .fst, .che, .sou] s t₁ := by
  unfold execNewTimingStart
  refine ⟨_, rfl, ?_⟩
  have hk := Kept.refl [.regs, .media, .xpt, .fst, .che, .sou] s
  have hP := Sub.self [.regs, .media, .xpt, .fst, .che, .sou]
  repeat' first
    | (with_reducible assumption)
    | (with_reducible apply State.at__kept)
    | (with_reducible apply State.setUnit_kept)
    | (with_reducible apply State.adopt_kept)
    | (with_reducible exact Kept.refl _ _)
    | (exact Sub.of ‹_› (by rfl))
    | split
    | (dsimp only)

theorem execSouFrameStart_kept (u : Fin 160) (t : Nat) (s : State) :
    ∃ t₁, execSouFrameStart u t s = .next t₁ ∧ Kept [.regs, .media, .xpt, .fst, .sou, .aud, .vec, .syn] s t₁ := by
  unfold execSouFrameStart
  refine ⟨_, rfl, ?_⟩
  have hk := Kept.refl [.regs, .media, .xpt, .fst, .sou, .aud, .vec, .syn] s
  have hP := Sub.self [.regs, .media, .xpt, .fst, .sou, .aud, .vec, .syn]
  repeat' first
    | (with_reducible assumption)
    | (with_reducible apply State.at__kept)
    | (with_reducible apply State.holdRetune_kept)
    | (with_reducible apply State.selectLayers_kept)
    | (with_reducible exact Kept.refl _ _)
    | (exact Sub.of ‹_› (by rfl))
    | split
    | (dsimp only)

theorem execLineUnderrun_kept (u : Fin 160) (line : Nat) (samp : Nat) (s : State) :
    ∃ t₁, execLineUnderrun u line samp s = .next t₁ ∧ Kept [.regs, .sou, .vec] s t₁ := by
  unfold execLineUnderrun
  refine ⟨_, rfl, ?_⟩
  have hk := Kept.refl [.regs, .sou, .vec] s
  have hP := Sub.self [.regs, .sou, .vec]
  repeat' first
    | (with_reducible assumption)
    | (with_reducible apply State.unitUnderrun_kept)
    | (with_reducible exact Kept.refl _ _)
    | (exact Sub.of ‹_› (by rfl))
    | (dsimp only)

theorem execFetchUrgencyChange_kept (u : Fin 160) (fill1 : Nat) (fill2 : Nat) (fill3 : Nat) (s : State) :
    ∃ t₁, execFetchUrgencyChange u fill1 fill2 fill3 s = .next t₁ ∧ Kept [.regs, .sou, .vec] s t₁ := by
  unfold execFetchUrgencyChange
  refine ⟨_, rfl, ?_⟩
  have hk := Kept.refl [.regs, .sou, .vec] s
  have hP := Sub.self [.regs, .sou, .vec]
  repeat' first
    | (with_reducible assumption)
    | (with_reducible apply State.raise_kept)
    | (with_reducible apply State.setUnit_kept)
    | (with_reducible exact Kept.refl _ _)
    | (exact Sub.of ‹_› (by rfl))
    | (intro _)
    | split
    | (dsimp only)

theorem execSouResume_kept (u : Fin 160) (t : Nat) (s : State) :
    ∃ t₁, execSouResume u t s = .next t₁ ∧ Kept [.regs, .media, .xpt, .fst, .che, .sou, .aud, .host, .vec, .hostMem, .syn, .sec] s t₁ := by
  unfold execSouResume
  refine ⟨_, rfl, ?_⟩
  have hk := Kept.refl [.regs, .media, .xpt, .fst, .che, .sou, .aud, .host, .vec, .hostMem, .syn, .sec] s
  have hP := Sub.self [.regs, .media, .xpt, .fst, .che, .sou, .aud, .host, .vec, .hostMem, .syn, .sec]
  repeat' first
    | (with_reducible assumption)
    | (with_reducible apply State.at__kept)
    | (with_reducible apply State.setUnit_kept)
    | (with_reducible apply State.refreshSrc_kept)
    | (with_reducible apply State.runCommit_kept)
    | (with_reducible apply State.selectLayers_kept)
    | (with_reducible refine Kept.foldl ?_ ?_)
    | (with_reducible exact Kept.refl _ _)
    | (exact Sub.of ‹_› (by rfl))
    | (intro _)
    | split
    | (dsimp only)

end Sys2Proof.Machine
end

