-- ==== Sys2Proof/Laws/ExecSecurity.lean ====
section
/-! SUPPORT. Each command of Machine/Security.lean answers a next state, keeps the queue and the canonical forms, and changes only the parts named. -/
set_option Elab.async false
namespace Sys2Proof.Machine

theorem execAttest_kept (h : Hdr) (nonce : List Nat) (addr : Nat) (writeOk : Bool) (s : State) :
    ∃ t₁, execAttest h nonce addr writeOk s = .next t₁ ∧ Kept [.regs, .host, .vec, .hostMem, .sec, .axl, .hsf, .mate] s t₁ := by
  unfold execAttest
  refine ⟨_, rfl, ?_⟩
  have hk := Kept.refl [.regs, .host, .vec, .hostMem, .sec, .axl, .hsf, .mate] s
  have hP := Sub.self [.regs, .host, .vec, .hostMem, .sec, .axl, .hsf, .mate]
  repeat' first
    | (with_reducible assumption)
    | (with_reducible apply State.hostWrite_kept)
    | (with_reducible apply State.done_kept)
    | (with_reducible apply State.ok_kept)
    | (with_reducible apply State.desc_kept)
    | (with_reducible apply State.takeLeaf_kept)
    | (refine State.takeLeaf_kept' ?_ (by with_reducible assumption))
    | (with_reducible exact Kept.refl _ _)
    | (exact Sub.of ‹_› (by rfl))
    | (intro _)
    | (with_reducible exact Adm.kept_bad ..)
    | (with_reducible exact Adm.kept_badData ..)
    | (with_reducible exact Adm.kept_short ..)
    | (with_reducible exact Adm.kept_denied ..)
    | (with_reducible exact Adm.kept_no ..)
    | (with_reducible exact Adm.kept_wait ..)
    | (with_reducible apply Adm.kept_late)
    | (with_reducible apply Adm.kept_deny)
    | (with_reducible apply Adm.kept_yes)
    | (with_reducible refine Adm.ite (fun _ => ?_) fun _ => ?_)
    | (exact Sub.of ‹_› (by rfl))
    | (intro _)
    | split
    | (dsimp only)

theorem execLogCheckpoint_kept (h : Hdr) (addr : Nat) (writeOk : Bool) (s : State) :
    ∃ t₁, execLogCheckpoint h addr writeOk s = .next t₁ ∧ Kept [.regs, .host, .vec, .hostMem, .sec, .axl, .hsf, .mate] s t₁ := by
  unfold execLogCheckpoint
  refine ⟨_, rfl, ?_⟩
  have hk := Kept.refl [.regs, .host, .vec, .hostMem, .sec, .axl, .hsf, .mate] s
  have hP := Sub.self [.regs, .host, .vec, .hostMem, .sec, .axl, .hsf, .mate]
  repeat' first
    | (with_reducible assumption)
    | (with_reducible apply State.desc_kept)
    | (with_reducible apply checkpointBody_kept)
    | (with_reducible exact Kept.refl _ _)
    | (exact Sub.of ‹_› (by rfl))
    | (intro _)
    | (with_reducible exact Adm.kept_bad ..)
    | (with_reducible exact Adm.kept_badData ..)
    | (with_reducible exact Adm.kept_short ..)
    | (with_reducible exact Adm.kept_denied ..)
    | (with_reducible exact Adm.kept_no ..)
    | (with_reducible exact Adm.kept_wait ..)
    | (with_reducible apply Adm.kept_late)
    | (with_reducible apply Adm.kept_deny)
    | (with_reducible apply Adm.kept_yes)
    | (with_reducible refine Adm.ite (fun _ => ?_) fun _ => ?_)
    | (exact Sub.of ‹_› (by rfl))
    | (dsimp only)

theorem execCheckpointPeriod_kept (t : Nat) (s : State) :
    ∃ t₁, execCheckpointPeriod t s = .next t₁ ∧ Kept [.regs, .vec, .hostMem, .sec, .axl] s t₁ := by
  unfold execCheckpointPeriod
  refine ⟨_, rfl, ?_⟩
  have hk := Kept.refl [.regs, .vec, .hostMem, .sec, .axl] s
  have hP := Sub.self [.regs, .vec, .hostMem, .sec, .axl]
  repeat' first
    | (with_reducible assumption)
    | (with_reducible apply State.at__kept)
    | (with_reducible apply State.checkpoint_kept)
    | (with_reducible exact Kept.refl _ _)
    | (exact Sub.of ‹_› (by rfl))
    | split
    | (dsimp only)

theorem execKeyPin_kept (h : Hdr) (slot : Nat) (addr : Nat) (key : Option (List Nat)) (s : State) :
    ∃ t₁, execKeyPin h slot addr key s = .next t₁ ∧ Kept [.regs, .host, .vec, .hostMem, .sec, .axl, .hsf, .mate] s t₁ := by
  unfold execKeyPin
  refine ⟨_, rfl, ?_⟩
  have hk := Kept.refl [.regs, .host, .vec, .hostMem, .sec, .axl, .hsf, .mate] s
  have hP := Sub.self [.regs, .host, .vec, .hostMem, .sec, .axl, .hsf, .mate]
  repeat' first
    | (with_reducible assumption)
    | (with_reducible apply State.desc_kept)
    | (with_reducible apply keyPinBody_kept)
    | (with_reducible exact Kept.refl _ _)
    | (exact Sub.of ‹_› (by rfl))
    | (intro _)
    | (with_reducible exact Adm.kept_bad ..)
    | (with_reducible exact Adm.kept_badData ..)
    | (with_reducible exact Adm.kept_short ..)
    | (with_reducible exact Adm.kept_denied ..)
    | (with_reducible exact Adm.kept_no ..)
    | (with_reducible exact Adm.kept_wait ..)
    | (with_reducible apply Adm.kept_late)
    | (with_reducible apply Adm.kept_deny)
    | (with_reducible apply Adm.kept_yes)
    | (with_reducible refine Adm.ite (fun _ => ?_) fun _ => ?_)
    | (exact Sub.of ‹_› (by rfl))
    | (dsimp only)

theorem execKeyUnpin_kept (h : Hdr) (slot : Nat) (s : State) :
    ∃ t₁, execKeyUnpin h slot s = .next t₁ ∧ Kept [.regs, .host, .vec, .hostMem, .sec, .axl, .hsf, .mate] s t₁ := by
  unfold execKeyUnpin
  refine ⟨_, rfl, ?_⟩
  have hk := Kept.refl [.regs, .host, .vec, .hostMem, .sec, .axl, .hsf, .mate] s
  have hP := Sub.self [.regs, .host, .vec, .hostMem, .sec, .axl, .hsf, .mate]
  repeat' first
    | (with_reducible assumption)
    | (with_reducible apply State.desc_kept)
    | (with_reducible apply keyUnpinBody_kept)
    | (with_reducible exact Kept.refl _ _)
    | (exact Sub.of ‹_› (by rfl))
    | (intro _)
    | (with_reducible exact Adm.kept_bad ..)
    | (with_reducible exact Adm.kept_badData ..)
    | (with_reducible exact Adm.kept_short ..)
    | (with_reducible exact Adm.kept_denied ..)
    | (with_reducible exact Adm.kept_no ..)
    | (with_reducible exact Adm.kept_wait ..)
    | (with_reducible apply Adm.kept_late)
    | (with_reducible apply Adm.kept_deny)
    | (with_reducible apply Adm.kept_yes)
    | (with_reducible refine Adm.ite (fun _ => ?_) fun _ => ?_)
    | (exact Sub.of ‹_› (by rfl))
    | (dsimp only)

theorem execSigningEnter_kept (h : Hdr) (s : State) :
    ∃ t₁, execSigningEnter h s = .next t₁ ∧ Kept [.regs, .host, .vec, .hostMem, .sec, .axl, .hsf, .mate] s t₁ := by
  unfold execSigningEnter
  refine ⟨_, rfl, ?_⟩
  have hk := Kept.refl [.regs, .host, .vec, .hostMem, .sec, .axl, .hsf, .mate] s
  have hP := Sub.self [.regs, .host, .vec, .hostMem, .sec, .axl, .hsf, .mate]
  repeat' first
    | (with_reducible assumption)
    | (with_reducible apply State.desc_kept)
    | (with_reducible apply signingBody_kept)
    | (with_reducible exact Kept.refl _ _)
    | (exact Sub.of ‹_› (by rfl))
    | (intro _)
    | (with_reducible exact Adm.kept_bad ..)
    | (with_reducible exact Adm.kept_badData ..)
    | (with_reducible exact Adm.kept_short ..)
    | (with_reducible exact Adm.kept_denied ..)
    | (with_reducible exact Adm.kept_no ..)
    | (with_reducible exact Adm.kept_wait ..)
    | (with_reducible apply Adm.kept_late)
    | (with_reducible apply Adm.kept_deny)
    | (with_reducible apply Adm.kept_yes)
    | (with_reducible refine Adm.ite (fun _ => ?_) fun _ => ?_)
    | (exact Sub.of ‹_› (by rfl))
    | (dsimp only)

theorem execSigningLeave_kept (h : Hdr) (s : State) :
    ∃ t₁, execSigningLeave h s = .next t₁ ∧ Kept [.regs, .host, .vec, .hostMem, .sec, .axl, .hsf, .mate] s t₁ := by
  unfold execSigningLeave
  refine ⟨_, rfl, ?_⟩
  have hk := Kept.refl [.regs, .host, .vec, .hostMem, .sec, .axl, .hsf, .mate] s
  have hP := Sub.self [.regs, .host, .vec, .hostMem, .sec, .axl, .hsf, .mate]
  repeat' first
    | (with_reducible assumption)
    | (with_reducible apply State.desc_kept)
    | (with_reducible apply signingBody_kept)
    | (with_reducible exact Kept.refl _ _)
    | (exact Sub.of ‹_› (by rfl))
    | (intro _)
    | (with_reducible exact Adm.kept_bad ..)
    | (with_reducible exact Adm.kept_badData ..)
    | (with_reducible exact Adm.kept_short ..)
    | (with_reducible exact Adm.kept_denied ..)
    | (with_reducible exact Adm.kept_no ..)
    | (with_reducible exact Adm.kept_wait ..)
    | (with_reducible apply Adm.kept_late)
    | (with_reducible apply Adm.kept_deny)
    | (with_reducible apply Adm.kept_yes)
    | (with_reducible refine Adm.ite (fun _ => ?_) fun _ => ?_)
    | (exact Sub.of ‹_› (by rfl))
    | (dsimp only)

theorem execDomainKeyInstall_kept (h : Hdr) (addr : Nat) (key : Option (List Nat)) (s : State) :
    ∃ t₁, execDomainKeyInstall h addr key s = .next t₁ ∧ Kept [.regs, .host, .vec, .hostMem, .sec, .axl, .hsf, .mate] s t₁ := by
  unfold execDomainKeyInstall
  refine ⟨_, rfl, ?_⟩
  have hk := Kept.refl [.regs, .host, .vec, .hostMem, .sec, .axl, .hsf, .mate] s
  have hP := Sub.self [.regs, .host, .vec, .hostMem, .sec, .axl, .hsf, .mate]
  repeat' first
    | (with_reducible assumption)
    | (with_reducible apply State.desc_kept)
    | (with_reducible apply domKeyBody_kept)
    | (with_reducible exact Kept.refl _ _)
    | (exact Sub.of ‹_› (by rfl))
    | (intro _)
    | (with_reducible exact Adm.kept_bad ..)
    | (with_reducible exact Adm.kept_badData ..)
    | (with_reducible exact Adm.kept_short ..)
    | (with_reducible exact Adm.kept_denied ..)
    | (with_reducible exact Adm.kept_no ..)
    | (with_reducible exact Adm.kept_wait ..)
    | (with_reducible apply Adm.kept_late)
    | (with_reducible apply Adm.kept_deny)
    | (with_reducible apply Adm.kept_yes)
    | (with_reducible refine Adm.ite (fun _ => ?_) fun _ => ?_)
    | (exact Sub.of ‹_› (by rfl))
    | (dsimp only)

theorem execDomainKeyErase_kept (h : Hdr) (s : State) :
    ∃ t₁, execDomainKeyErase h s = .next t₁ ∧ Kept [.regs, .host, .vec, .hostMem, .sec, .axl, .hsf, .mate] s t₁ := by
  unfold execDomainKeyErase
  refine ⟨_, rfl, ?_⟩
  have hk := Kept.refl [.regs, .host, .vec, .hostMem, .sec, .axl, .hsf, .mate] s
  have hP := Sub.self [.regs, .host, .vec, .hostMem, .sec, .axl, .hsf, .mate]
  repeat' first
    | (with_reducible assumption)
    | (with_reducible apply State.desc_kept)
    | (with_reducible apply domKeyBody_kept)
    | (with_reducible exact Kept.refl _ _)
    | (exact Sub.of ‹_› (by rfl))
    | (intro _)
    | (with_reducible exact Adm.kept_bad ..)
    | (with_reducible exact Adm.kept_badData ..)
    | (with_reducible exact Adm.kept_short ..)
    | (with_reducible exact Adm.kept_denied ..)
    | (with_reducible exact Adm.kept_no ..)
    | (with_reducible exact Adm.kept_wait ..)
    | (with_reducible apply Adm.kept_late)
    | (with_reducible apply Adm.kept_deny)
    | (with_reducible apply Adm.kept_yes)
    | (with_reducible refine Adm.ite (fun _ => ?_) fun _ => ?_)
    | (exact Sub.of ‹_› (by rfl))
    | (dsimp only)

theorem execLcProvision_kept (tok : Option Token) (s : State) :
    ∃ t₁, execLcProvision tok s = .next t₁ ∧ Kept [.regs, .free, .vec, .hostMem, .sec, .axl, .mtx] s t₁ := by
  unfold execLcProvision
  refine ⟨_, rfl, ?_⟩
  have hk := Kept.refl [.regs, .free, .vec, .hostMem, .sec, .axl, .mtx] s
  have hP := Sub.self [.regs, .free, .vec, .hostMem, .sec, .axl, .mtx]
  repeat' first
    | (with_reducible assumption)
    | (with_reducible apply State.byHost_kept)
    | (with_reducible apply State.lcProvision_kept)
    | (with_reducible exact Kept.refl _ _)
    | (exact Sub.of ‹_› (by rfl))
    | (intro _)
    | (dsimp only)

theorem execLcField_kept (s : State) :
    ∃ t₁, execLcField s = .next t₁ ∧ Kept [.regs, .free, .vec, .hostMem, .sec, .axl, .mtx] s t₁ := by
  unfold execLcField
  refine ⟨_, rfl, ?_⟩
  have hk := Kept.refl [.regs, .free, .vec, .hostMem, .sec, .axl, .mtx] s
  have hP := Sub.self [.regs, .free, .vec, .hostMem, .sec, .axl, .mtx]
  repeat' first
    | (with_reducible assumption)
    | (with_reducible apply State.byHost_kept)
    | (with_reducible apply State.lcField_kept)
    | (with_reducible exact Kept.refl _ _)
    | (exact Sub.of ‹_› (by rfl))
    | (intro _)
    | (dsimp only)

theorem execLcRma_kept (tok : Option Token) (cut : Bool) (s : State) :
    ∃ t₁, execLcRma tok cut s = .next t₁ ∧ Kept [.regs, .free, .vec, .hostMem, .sec, .axl, .mtx] s t₁ := by
  unfold execLcRma
  refine ⟨_, rfl, ?_⟩
  have hk := Kept.refl [.regs, .free, .vec, .hostMem, .sec, .axl, .mtx] s
  have hP := Sub.self [.regs, .free, .vec, .hostMem, .sec, .axl, .mtx]
  repeat' first
    | (with_reducible assumption)
    | (with_reducible apply State.byHost_kept)
    | (with_reducible apply State.lcRma_kept)
    | (with_reducible exact Kept.refl _ _)
    | (exact Sub.of ‹_› (by rfl))
    | (intro _)
    | (dsimp only)

theorem execLcEnd_kept (tok : Option Token) (s : State) :
    ∃ t₁, execLcEnd tok s = .next t₁ ∧ Kept [.regs, .free, .media, .xpt, .fst, .aud, .vec, .hostMem, .ref, .sec, .axl, .mtx] s t₁ := by
  unfold execLcEnd
  refine ⟨_, rfl, ?_⟩
  have hk := Kept.refl [.regs, .free, .media, .xpt, .fst, .aud, .vec, .hostMem, .ref, .sec, .axl, .mtx] s
  have hP := Sub.self [.regs, .free, .media, .xpt, .fst, .aud, .vec, .hostMem, .ref, .sec, .axl, .mtx]
  repeat' first
    | (with_reducible assumption)
    | (with_reducible apply State.byHost_kept)
    | (with_reducible apply State.lcEnd_kept)
    | (with_reducible exact Kept.refl _ _)
    | (exact Sub.of ‹_› (by rfl))
    | (intro _)
    | (dsimp only)

theorem execVendorDebugSession_kept (tok : Option Token) (s : State) :
    ∃ t₁, execVendorDebugSession tok s = .next t₁ ∧ Kept [.regs, .free, .vec, .mtx] s t₁ := by
  unfold execVendorDebugSession
  refine ⟨_, rfl, ?_⟩
  have hk := Kept.refl [.regs, .free, .vec, .mtx] s
  have hP := Sub.self [.regs, .free, .vec, .mtx]
  repeat' first
    | (with_reducible assumption)
    | (with_reducible apply State.byHost_kept)
    | (with_reducible apply State.vendorDebugSession_kept)
    | (with_reducible exact Kept.refl _ _)
    | (exact Sub.of ‹_› (by rfl))
    | (intro _)
    | (dsimp only)

theorem execIdentityKeyGenerated_kept (s : State) :
    ∃ t₁, execIdentityKeyGenerated s = .next t₁ ∧ Kept [.regs, .free, .sec, .axl] s t₁ := by
  unfold execIdentityKeyGenerated
  refine ⟨_, rfl, ?_⟩
  have hk := Kept.refl [.regs, .free, .sec, .axl] s
  have hP := Sub.self [.regs, .free, .sec, .axl]
  repeat' first
    | (with_reducible assumption)
    | (with_reducible apply State.draw_kept)
    | (refine State.draw_kept' ?_ (by with_reducible assumption))
    | (with_reducible apply State.newKey_kept)
    | (with_reducible apply State.lcDone_kept)
    | (with_reducible exact Kept.refl _ _)
    | (exact Sub.of ‹_› (by rfl))
    | (simp only [Kept.mk_iff]; with_reducible apply KeptC.of)
    | (with_reducible exact Or.inr rfl)
    | (with_reducible exact Or.inr ⟨rfl, rfl⟩)
    | (exact Or.inl (Sub.mem ‹_› (by rfl)))
    | (with_reducible rfl)
    | split
    | (dsimp only)

theorem execRouteLogKeyGenerated_kept (s : State) :
    ∃ t₁, execRouteLogKeyGenerated s = .next t₁ ∧ Kept [.regs, .host, .vec, .hostMem, .sec, .axl] s t₁ := by
  unfold execRouteLogKeyGenerated
  refine ⟨_, rfl, ?_⟩
  have hk := Kept.refl [.regs, .host, .vec, .hostMem, .sec, .axl] s
  have hP := Sub.self [.regs, .host, .vec, .hostMem, .sec, .axl]
  repeat' first
    | (with_reducible assumption)
    | (with_reducible apply State.newLogKey_kept)
    | (with_reducible apply State.waitingCks_kept)
    | (with_reducible exact Kept.refl _ _)
    | (exact Sub.of ‹_› (by rfl))
    | split
    | (dsimp only)

theorem execEntropyFail_kept (s : State) :
    ∃ t₁, execEntropyFail s = .next t₁ ∧ Kept [.regs, .free, .vec, .sec] s t₁ := by
  unfold execEntropyFail
  refine ⟨_, rfl, ?_⟩
  have hk := Kept.refl [.regs, .free, .vec, .sec] s
  have hP := Sub.self [.regs, .free, .vec, .sec]
  extract_lets s1 q
  have h1 : Kept [.regs, .free, .vec, .sec] s s1 := State.raise_kept (State.set_kept hk _ _ _) _ _
  clear_value s1
  exact Kept.ite (fun _ => State.lcDone_kept (Kept.upd_sec h1 _) _) fun _ => h1

theorem execEntropyHealthPass_kept (s : State) :
    ∃ t₁, execEntropyHealthPass s = .next t₁ ∧ Kept [.regs] s t₁ := by
  unfold execEntropyHealthPass
  refine ⟨_, rfl, ?_⟩
  have hk := Kept.refl [.regs] s
  have hP := Sub.self [.regs]
  repeat' first
    | (with_reducible assumption)
    | (with_reducible apply State.set_kept)
    | (with_reducible exact Kept.refl _ _)
    | (exact Sub.of ‹_› (by rfl))
    | (dsimp only)

theorem execLogTailWrite_kept (v : Nat) (s : State) :
    ∃ t₁, execLogTailWrite v s = .next t₁ ∧ Kept [.regs, .vec, .hostMem, .sec, .mtx] s t₁ := by
  unfold execLogTailWrite
  refine ⟨_, rfl, ?_⟩
  have hk := Kept.refl [.regs, .vec, .hostMem, .sec, .mtx] s
  have hP := Sub.self [.regs, .vec, .hostMem, .sec, .mtx]
  repeat' first
    | (with_reducible assumption)
    | (with_reducible apply State.byHost_kept)
    | (with_reducible apply State.logTailWrite_kept)
    | (with_reducible exact Kept.refl _ _)
    | (exact Sub.of ‹_› (by rfl))
    | (intro _)
    | (dsimp only)

theorem execLogSetupWrite_kept (a : Nat) (v : Nat) (s : State) :
    ∃ t₁, execLogSetupWrite a v s = .next t₁ ∧ Kept [.regs, .taken, .vec, .hostMem, .sec, .mtx] s t₁ := by
  unfold execLogSetupWrite
  refine ⟨_, rfl, ?_⟩
  have hk := Kept.refl [.regs, .taken, .vec, .hostMem, .sec, .mtx] s
  have hP := Sub.self [.regs, .taken, .vec, .hostMem, .sec, .mtx]
  repeat' first
    | (with_reducible assumption)
    | (with_reducible apply State.byHost_kept)
    | (with_reducible apply State.logSetup_kept)
    | (with_reducible exact Kept.refl _ _)
    | (exact Sub.of ‹_› (by rfl))
    | (intro _)
    | (dsimp only)

end Sys2Proof.Machine
end

