-- ==== Sys2Proof/Laws/ExecSynth.lean ====
section
/-! SUPPORT. Each command of Machine/Synth.lean answers a next state, keeps the queue and the canonical forms, and changes only the parts named. -/
set_option Elab.async false
namespace Sys2Proof.Machine

theorem execSynCtlWrite_kept (n : Fin 16) (v : Nat) (t : Nat) (s : State) :
    ∃ t₁, execSynCtlWrite n v t s = .next t₁ ∧ Kept [.regs, .media, .xpt, .sou, .aud, .vec, .syn, .mtx] s t₁ := by
  unfold execSynCtlWrite
  refine ⟨_, rfl, ?_⟩
  have hk := Kept.refl [.regs, .media, .xpt, .sou, .aud, .vec, .syn, .mtx] s
  have hP := Sub.self [.regs, .media, .xpt, .sou, .aud, .vec, .syn, .mtx]
  repeat' first
    | (with_reducible assumption)
    | (with_reducible apply State.byHost_kept)
    | (with_reducible apply State.synWrite_kept)
    | (with_reducible exact Kept.refl _ _)
    | (exact Sub.of ‹_› (by rfl))
    | (intro _)
    | (dsimp only)

theorem execSynLock_kept (n : Fin 16) (coarse : Nat) (fine : Nat) (clamp : Bool) (t : Nat) (s : State) :
    ∃ t₁, execSynLock n coarse fine clamp t s = .next t₁ ∧ Kept [.regs, .aud, .vec, .syn] s t₁ := by
  unfold execSynLock
  refine ⟨_, rfl, ?_⟩
  have hk := Kept.refl [.regs, .aud, .vec, .syn] s
  have hP := Sub.self [.regs, .aud, .vec, .syn]
  repeat' first
    | (with_reducible assumption)
    | (with_reducible apply State.at__kept)
    | (with_reducible apply State.raise_kept)
    | (with_reducible apply State.setSyn_kept)
    | (with_reducible apply State.bandPut_kept)
    | (with_reducible apply State.synLocked_kept)
    | (with_reducible exact Kept.refl _ _)
    | (exact Sub.of ‹_› (by rfl))
    | split
    | (dsimp only)

theorem execSynSearchTimeout_kept (n : Fin 16) (t : Nat) (s : State) :
    ∃ t₁, execSynSearchTimeout n t s = .next t₁ ∧ Kept [.regs, .media, .xpt, .fst, .fstMem, .che, .sou, .aud, .vec, .syn, .flt, .hsf] s t₁ := by
  unfold execSynSearchTimeout
  refine ⟨_, rfl, ?_⟩
  have hk := Kept.refl [.regs, .media, .xpt, .fst, .fstMem, .che, .sou, .aud, .vec, .syn, .flt, .hsf] s
  have hP := Sub.self [.regs, .media, .xpt, .fst, .fstMem, .che, .sou, .aud, .vec, .syn, .flt, .hsf]
  repeat' first
    | (with_reducible assumption)
    | (with_reducible apply State.at__kept)
    | (with_reducible apply State.reportError_kept)
    | (with_reducible exact Kept.refl _ _)
    | (exact Sub.of ‹_› (by rfl))
    | split
    | (dsimp only)

theorem execSynLockLoss_kept (n : Fin 16) (errs : List Int) (t : Nat) (s : State) :
    ∃ t₁, execSynLockLoss n errs t s = .next t₁ ∧ Kept [.regs, .media, .xpt, .sou, .aud, .vec, .syn] s t₁ := by
  unfold execSynLockLoss
  refine ⟨_, rfl, ?_⟩
  have hk := Kept.refl [.regs, .media, .xpt, .sou, .aud, .vec, .syn] s
  have hP := Sub.self [.regs, .media, .xpt, .sou, .aud, .vec, .syn]
  repeat' first
    | (with_reducible assumption)
    | (with_reducible apply State.at__kept)
    | (with_reducible apply State.raise_kept)
    | (with_reducible apply State.synGate_kept)
    | (with_reducible exact Kept.refl _ _)
    | (exact Sub.of ‹_› (by rfl))
    | split
    | (dsimp only)

theorem execSynRelockStart_kept (n : Fin 16) (t : Nat) (s : State) :
    ∃ t₁, execSynRelockStart n t s = .next t₁ ∧ Kept [.regs, .syn] s t₁ := by
  unfold execSynRelockStart
  refine ⟨_, rfl, ?_⟩
  have hk := Kept.refl [.regs, .syn] s
  have hP := Sub.self [.regs, .syn]
  repeat' first
    | (with_reducible assumption)
    | (with_reducible apply State.at__kept)
    | (with_reducible apply State.synSeek_kept)
    | (with_reducible exact Kept.refl _ _)
    | (exact Sub.of ‹_› (by rfl))
    | split
    | (dsimp only)

theorem execSynRefLoss_kept (n : Fin 16) (t : Nat) (s : State) :
    ∃ t₁, execSynRefLoss n t s = .next t₁ ∧ Kept [.regs, .media, .xpt, .sou, .aud, .vec, .syn] s t₁ := by
  unfold execSynRefLoss
  refine ⟨_, rfl, ?_⟩
  have hk := Kept.refl [.regs, .media, .xpt, .sou, .aud, .vec, .syn] s
  have hP := Sub.self [.regs, .media, .xpt, .sou, .aud, .vec, .syn]
  repeat' first
    | (with_reducible assumption)
    | (with_reducible apply State.at__kept)
    | (with_reducible apply State.raise_kept)
    | (with_reducible apply State.synGate_kept)
    | (with_reducible exact Kept.refl _ _)
    | (exact Sub.of ‹_› (by rfl))
    | split
    | (dsimp only)

theorem execSynRefReturn_kept (n : Fin 16) (t : Nat) (s : State) :
    ∃ t₁, execSynRefReturn n t s = .next t₁ ∧ Kept [.regs, .syn] s t₁ := by
  unfold execSynRefReturn
  refine ⟨_, rfl, ?_⟩
  have hk := Kept.refl [.regs, .syn] s
  have hP := Sub.self [.regs, .syn]
  repeat' first
    | (with_reducible assumption)
    | (with_reducible apply State.at__kept)
    | (with_reducible apply State.synSeek_kept)
    | (with_reducible exact Kept.refl _ _)
    | (exact Sub.of ‹_› (by rfl))
    | split
    | (dsimp only)

theorem execBandStore_kept (n : Fin 16) (coarse : Nat) (fine : Nat) (s : State) :
    ∃ t₁, execBandStore n coarse fine s = .next t₁ ∧ Kept [.regs, .vec, .syn] s t₁ := by
  unfold execBandStore
  refine ⟨_, rfl, ?_⟩
  have hk := Kept.refl [.regs, .vec, .syn] s
  have hP := Sub.self [.regs, .vec, .syn]
  repeat' first
    | (with_reducible assumption)
    | (with_reducible apply State.raise_kept)
    | (with_reducible apply State.bandPut_kept)
    | (with_reducible exact Kept.refl _ _)
    | (exact Sub.of ‹_› (by rfl))
    | split
    | (dsimp only)

theorem execSynStepPass_kept (n : Fin 16) (t : Nat) (s : State) :
    ∃ t₁, execSynStepPass n t s = .next t₁ ∧ Kept [.syn] s t₁ := by
  unfold execSynStepPass
  refine ⟨_, rfl, ?_⟩
  have hk := Kept.refl [.syn] s
  have hP := Sub.self [.syn]
  repeat' first
    | (with_reducible assumption)
    | (with_reducible apply State.at__kept)
    | (with_reducible apply State.setSyn_kept)
    | (with_reducible exact Kept.refl _ _)
    | (exact Sub.of ‹_› (by rfl))
    | split
    | (dsimp only)

theorem execAbsorbDone_kept (n : Fin 16) (t : Nat) (s : State) :
    ∃ t₁, execAbsorbDone n t s = .next t₁ ∧ Kept [.regs, .vec, .syn] s t₁ := by
  unfold execAbsorbDone
  refine ⟨_, rfl, ?_⟩
  have hk := Kept.refl [.regs, .vec, .syn] s
  have hP := Sub.self [.regs, .vec, .syn]
  repeat' first
    | (with_reducible assumption)
    | (with_reducible apply State.wrInt_kept)
    | (with_reducible apply State.at__kept)
    | (with_reducible apply State.raise_kept)
    | (with_reducible apply State.setSyn_kept)
    | (with_reducible exact Kept.refl _ _)
    | (exact Sub.of ‹_› (by rfl))
    | split
    | (dsimp only)

theorem execRampGo_kept (n : Fin 16) (last : Nat) (t : Nat) (s : State) :
    ∃ t₁, execRampGo n last t s = .next t₁ ∧ Kept [.regs, .vec, .syn, .mtx] s t₁ := by
  unfold execRampGo
  refine ⟨_, rfl, ?_⟩
  have hk := Kept.refl [.regs, .vec, .syn, .mtx] s
  have hP := Sub.self [.regs, .vec, .syn, .mtx]
  repeat' first
    | (with_reducible assumption)
    | (with_reducible apply State.byHost_kept)
    | (with_reducible apply State.rampGo_kept)
    | (with_reducible exact Kept.refl _ _)
    | (exact Sub.of ‹_› (by rfl))
    | (intro _)
    | (dsimp only)

theorem execRampAbort_kept (n : Fin 16) (t : Nat) (s : State) :
    ∃ t₁, execRampAbort n t s = .next t₁ ∧ Kept [.regs, .vec, .syn, .mtx] s t₁ := by
  unfold execRampAbort
  refine ⟨_, rfl, ?_⟩
  have hk := Kept.refl [.regs, .vec, .syn, .mtx] s
  have hP := Sub.self [.regs, .vec, .syn, .mtx]
  repeat' first
    | (with_reducible assumption)
    | (with_reducible apply State.byHost_kept)
    | (with_reducible apply State.rampAbort_kept)
    | (with_reducible exact Kept.refl _ _)
    | (exact Sub.of ‹_› (by rfl))
    | (intro _)
    | (dsimp only)

theorem execRampSegmentEnd_kept (n : Fin 16) (t : Nat) (s : State) :
    ∃ t₁, execRampSegmentEnd n t s = .next t₁ ∧ Kept [.regs, .vec, .syn] s t₁ := by
  unfold execRampSegmentEnd
  refine ⟨_, rfl, ?_⟩
  have hk := Kept.refl [.regs, .vec, .syn] s
  have hP := Sub.self [.regs, .vec, .syn]
  repeat' first
    | (with_reducible assumption)
    | (with_reducible apply State.wrInt_kept)
    | (with_reducible apply State.at__kept)
    | (with_reducible apply State.raise_kept)
    | (with_reducible apply State.setSyn_kept)
    | (with_reducible apply State.startSeg_kept)
    | (with_reducible exact Kept.refl _ _)
    | (exact Sub.of ‹_› (by rfl))
    | split
    | (dsimp only)

end Sys2Proof.Machine
end

