-- ==== Sys2Proof/Laws/Media.lean ====
section
/-! SUPPORT. What the shared operations of the media ports do and leave alone. -/
set_option Elab.async false
namespace Sys2Proof.Machine

/-- Bringing a transmit lane up to date writes its SDI_TX_STAT alone. -/
theorem State.txRefresh_onlyRegs (s : State) (n : Nat) {l : List Nat} (ha : R.SDI_TX_STAT n ∈ l) : s.onlyRegs (s.txRefresh n) l := by
  unfold State.txRefresh
  extract_lets a why
  refine .ite (fun _ => .ite (fun _ => s.set_onlyRegs _ _ ha) fun _ => .refl ..) fun _ => ?_
  exact ((s.set_onlyRegs _ _ ha).trans (State.set_onlyRegs _ _ _ ha)).trans (State.set_onlyRegs _ _ _ ha)

/-- A destination that sends nothing any more: its freeze count and its pass of the path proof alone change. -/
theorem State.sendsAfresh_media (s : State) (d : Nat) : (s.sendsAfresh d).media = s.media := by
  unfold State.sendsAfresh
  extract_lets s1
  have h : s1.media = s.media := State.set_media ..
  exact h

theorem State.sendsAfresh_rd (s : State) (d a : Nat) (h : a ≠ R.XPT_FRZ_STAT d) : (s.sendsAfresh d).rd a = s.rd a :=
  State.rd_set_ne _ _ _ h

theorem State.foldl_sendsAfresh (s : State) (l : List Nat) : (l.foldl State.sendsAfresh s).media = s.media ∧
    ∀ a, (∀ d, a ≠ R.XPT_FRZ_STAT d) → (l.foldl State.sendsAfresh s).rd a = s.rd a := by
  induction l generalizing s with
  | nil => exact ⟨rfl, fun _ _ => rfl⟩
  | cons d l ih => exact ⟨(ih _).1.trans (s.sendsAfresh_media d), fun a h => ((ih _).2 a h).trans (s.sendsAfresh_rd d a (h d))⟩

/-- Destinations of a source without timing: XPT_FRZ_STAT alone changes among the registers, and nothing of the media ports. -/
theorem State.freezeReset_media (s : State) (src : Nat) : (s.freezeReset src).media = s.media := by
  unfold State.freezeReset
  split
  · rfl
  · exact (s.foldl_sendsAfresh _).1

theorem State.freezeReset_rd (s : State) (src a : Nat) (h : ∀ d, a ≠ R.XPT_FRZ_STAT d) : (s.freezeReset src).rd a = s.rd a := by
  unfold State.freezeReset
  split
  · rfl
  · exact (s.foldl_sendsAfresh _).2 a h

/-- The transmit flows that stop leave registers and receive lanes alone. -/
theorem State.flowStop_eq (s : State) (src : Nat) : s.flowStop src = { s with media := { s.media with txFlow := (s.flowStop src).media.txFlow } } := by
  unfold State.flowStop
  split
  · rfl
  · rename_i hc
    clear hc
    generalize List.filter _ _ = l
    induction l generalizing s with
    | nil => rfl
    | cons d l ih =>
      rw [List.foldl_cons, ih]
      split <;> rfl

theorem State.txRefresh_rd (s : State) (n a : Nat) (h : a ≠ R.SDI_TX_STAT n) : (s.txRefresh n).rd a = s.rd a :=
  (s.txRefresh_onlyRegs n (l := [R.SDI_TX_STAT n]) (List.mem_singleton.mpr rfl)).2 a (by simpa using h)

theorem State.txRefresh_media (s : State) (n : Nat) : (s.txRefresh n).media = s.media :=
  (s.txRefresh_onlyRegs n (l := [R.SDI_TX_STAT n]) (List.mem_singleton.mpr rfl)).media

theorem State.foldl_txRefresh (s : State) (l : List Nat) (h : ∀ n ∈ l, n < 72) :
    (∀ a, (∀ n < 72, a ≠ R.SDI_TX_STAT n) → (l.foldl State.txRefresh s).rd a = s.rd a) ∧ (l.foldl State.txRefresh s).media = s.media := by
  induction l generalizing s with
  | nil => exact ⟨fun _ _ => rfl, rfl⟩
  | cons n l ih =>
    obtain ⟨h1, h2⟩ := ih (s.txRefresh n) fun m hm => h m (List.mem_cons_of_mem _ hm)
    refine ⟨fun a ha => (h1 a ha).trans (s.txRefresh_rd n a (ha n (h n (List.mem_cons_self ..)))), h2.trans (s.txRefresh_media n)⟩

/-- Bringing up to date what a source feeds: registers other than SDI_TX_STAT and XPT_FRZ_STAT, and the receive lanes, stay. -/
theorem State.refreshSrc_rd (s : State) (src a : Nat) (h : ∀ n < 72, a ≠ R.SDI_TX_STAT n) (h' : ∀ d, a ≠ R.XPT_FRZ_STAT d) :
    (s.refreshSrc src).rd a = s.rd a := by
  unfold State.refreshSrc
  rw [State.flowStop_eq]
  exact (State.freezeReset_rd _ _ _ h').trans
    ((State.foldl_txRefresh _ _ fun n hn => by simpa using (List.mem_filter.mp hn).2).1 a h)

theorem State.refreshSrc_rx (s : State) (src : Nat) : (s.refreshSrc src).media.rx = s.media.rx := by
  unfold State.refreshSrc
  rw [State.flowStop_eq]
  show ((((s.dstsOf src).filter (· < 72)).foldl State.txRefresh s).freezeReset src).media.rx = _
  rw [State.freezeReset_media, (State.foldl_txRefresh _ _ fun n hn => by simpa using (List.mem_filter.mp hn).2).2]

/-- A loss at a capture writer touches the frame store alone. -/
theorem State.cwLoss_eq (s : State) (b : Bool) (k : Nat) : s.cwLoss b k = { s with fst := (s.cwLoss b k).fst } := by
  unfold State.cwLoss
  dsimp only
  repeat' split
  all_goals rfl

theorem State.foldl_cwLoss_eq (s : State) (b : Bool) (l : List Nat) (g : Nat → Nat) :
    l.foldl (fun s d => s.cwLoss b (g d)) s = { s with fst := (l.foldl (fun s d => s.cwLoss b (g d)) s).fst } := by
  induction l generalizing s with
  | nil => rfl
  | cons x l ih => rw [List.foldl_cons, ih, State.cwLoss_eq]

/-- A port that loses its clock touches the audio state alone. -/
theorem State.clkLost_eq (s : State) (k : Nat) : s.clkLost k = { s with aud := (s.clkLost k).aud } := by
  unfold State.clkLost; split <;> rfl

/-- Registers do not lie in the audio state. -/
theorem State.rd_upd_aud (s : State) (x : AudSt) (a : Nat) : State.rd { s with aud := x } a = s.rd a := rfl

theorem State.clkLost_rd (s : State) (k a : Nat) : (s.clkLost k).rd a = s.rd a := by
  unfold State.clkLost; split <;> rfl

theorem State.foldl_clkLost_eq (s : State) (l : List Nat) (g : Nat → Nat) :
    l.foldl (fun s d => s.clkLost (g d)) s = { s with aud := (l.foldl (fun s d => s.clkLost (g d)) s).aud } := by
  induction l generalizing s with
  | nil => rfl
  | cons x l ih => rw [List.foldl_cons, ih, State.clkLost_eq]

theorem State.sourceLost_rd (s : State) (src a : Nat) (h : ∀ n < 72, a ≠ R.SDI_TX_STAT n) (h' : ∀ d, a ≠ R.XPT_FRZ_STAT d) :
    (s.sourceLost src).rd a = s.rd a := by
  unfold State.sourceLost
  dsimp only
  rw [State.refreshSrc_rd _ _ _ h h', State.foldl_clkLost_eq, State.foldl_cwLoss_eq]; rfl

theorem State.sourceLost_rx (s : State) (src : Nat) : (s.sourceLost src).media.rx = s.media.rx := by
  unfold State.sourceLost
  dsimp only
  rw [State.refreshSrc_rx, State.foldl_clkLost_eq, State.foldl_cwLoss_eq]

/-- GROUP_OK of a lane's group: SDI_RX_STAT of its leader alone changes. -/
theorem State.groupShow_eq (s : State) (n : Nat) : s.groupShow n = s ∨
    ∃ m b, s.rxLeader n = some m ∧ s.groupShow n = s.setB (R.SDI_RX_STAT m) F.SDI_RX_STAT_GROUP_OK b := by
  unfold State.groupShow
  split
  · exact .inr ⟨_, _, ‹_›, rfl⟩
  · exact .inl rfl

theorem State.groupShow_none {s : State} {n : Nat} (h : s.rxLeader n = none) : s.groupShow n = s := by
  rw [State.groupShow, h]

theorem State.groupShow_media (s : State) (n : Nat) : (s.groupShow n).media = s.media := by
  obtain h | ⟨m, b, -, h⟩ := s.groupShow_eq n
  · rw [h]
  · rw [h]; exact State.set_media ..

theorem State.groupShow_aud (s : State) (n : Nat) : (s.groupShow n).aud = s.aud := by
  obtain h | ⟨m, b, -, h⟩ := s.groupShow_eq n
  · rw [h]
  · rw [h]; exact State.set_aud ..

theorem State.groupShow_rd (s : State) (n a : Nat) (h : ∀ m, s.rxLeader n = some m → a ≠ R.SDI_RX_STAT m) :
    (s.groupShow n).rd a = s.rd a := by
  obtain e | ⟨m, b, hm, e⟩ := s.groupShow_eq n
  · rw [e]
  · rw [e]; exact s.rd_setB_ne _ _ (h m hm)

/-- The leader of a lane's group depends on the lanes' groups alone. -/
theorem State.rxLeader_congr {s t : State} (h : ∀ k, (t.rx k).group = (s.rx k).group) (n : Nat) : t.rxLeader n = s.rxLeader n := by
  simp only [State.rxLeader, h]

/-- A receive lane whose signal is gone: its status register returns to its reset value, and its group stays. -/
theorem State.rxClear_rd (s : State) (n : Nat) (l : Bool) (a : Nat) :
    (s.rxClear n l).rd a = if a = R.SDI_RX_STAT n then resetVal (R.SDI_RX_STAT n) else s.rd a := by
  have h : (s.rxClear n l).regs = (s.wr (R.SDI_RX_STAT n) (resetVal (R.SDI_RX_STAT n))).regs := by
    unfold State.rxClear State.setRx; rfl
  rw [← s.rd_wr (R.SDI_RX_STAT n) a (resetVal (R.SDI_RX_STAT n)), State.rd, h]; rfl

theorem State.rxClear_lane (s : State) (n : Nat) (l : Bool) : ∃ o, (s.rxClear n l).media.rx = tabSet {} s.media.rx n
    { s.rx n with meas := none, relock := l || (s.rx n).relock, lastFmt := o } := by
  unfold State.rxClear
  extract_lets a r last s1
  have h : s1.media = { s.media with rx := tabSet {} s.media.rx n { r with meas := none, relock := l || r.relock, lastFmt := last } } := by
    unfold s1 State.setRx State.wr; rfl
  clear_value last
  exact ⟨last, congrArg MediaSt.rx h⟩

theorem State.rxClear_rx (s : State) (n : Nat) (l : Bool) : ((s.rxClear n l).rx n).meas = none ∧
    ((s.rxClear n l).rx n).relock = (l || (s.rx n).relock) ∧ ((s.rxClear n l).rx n).group = (s.rx n).group := by
  obtain ⟨o, h⟩ := s.rxClear_lane n l
  rw [State.rx, h, tabGet_set_self]
  exact ⟨rfl, rfl, rfl⟩

theorem State.rxClear_group (s : State) (n : Nat) (l : Bool) (k : Nat) : ((s.rxClear n l).rx k).group = (s.rx k).group := by
  by_cases hk : k = n
  · rw [hk]; exact (s.rxClear_rx n l).2.2
  · obtain ⟨o, h⟩ := s.rxClear_lane n l
    rw [State.rx, h, tabGet_set_ne _ _ _ _ hk]; rfl

/-- A receive lane that goes down: its status register returns to its reset value, GROUP_OK of its group's leader apart. -/
theorem State.rxDown_rd (s : State) (n : Nat) (l : Bool) (a : Nat) (hg : ∀ m, s.rxLeader n = some m → a ≠ R.SDI_RX_STAT m)
    (h : ∀ n < 72, a ≠ R.SDI_TX_STAT n) (h' : ∀ d, a ≠ R.XPT_FRZ_STAT d) :
    (s.rxDown n l).rd a = if a = R.SDI_RX_STAT n then resetVal (R.SDI_RX_STAT n) else s.rd a := by
  rw [← s.rxClear_rd n l, State.rxDown, State.sourceLost_rd _ _ _ h h', State.clkLost_rd, State.groupShow_rd]
  intro m hm
  exact hg m (State.rxLeader_congr (s.rxClear_group n l) n ▸ hm)

/-- A receive lane that goes down has no signal, and waits to lock again after a loss. -/
theorem State.rxDown_rx (s : State) (n : Nat) (l : Bool) : ((s.rxDown n l).rx n).meas = none ∧
    ((s.rxDown n l).rx n).relock = (l || (s.rx n).relock) ∧ ((s.rxDown n l).rx n).group = (s.rx n).group := by
  have h : (s.rxDown n l).rx n = (s.rxClear n l).rx n := by
    rw [State.rxDown, State.rx, State.sourceLost_rx, State.clkLost_eq]
    exact congrArg (fun m : MediaSt => tabGet {} m.rx n) (State.groupShow_media _ n)
  rw [h]; exact s.rxClear_rx n l

/-- The reset value of SDI_RX_STAT: no bit set, FORMAT 0xFF. -/
theorem resetVal_SDI_RX_STAT (n : Fin 72) : resetVal (R.SDI_RX_STAT n) = 0x00FF0000 := by
  revert n; decide

theorem State.cwFormat_rd (s : State) (a b x : Nat) : (s.cwFormat a b).rd x = s.rd x := by
  unfold State.cwFormat
  generalize List.filter _ _ = l
  induction l generalizing s with
  | nil => rfl
  | cons d l ih =>
    rw [List.foldl_cons, ih]
    dsimp only
    split
    · split <;> rfl
    · rfl

theorem State.cwFormat_xpt (s : State) (a b : Nat) : (s.cwFormat a b).xpt = s.xpt := by
  unfold State.cwFormat
  generalize List.filter _ _ = l
  induction l generalizing s with
  | nil => rfl
  | cons d l ih =>
    rw [List.foldl_cons, ih]
    dsimp only
    split
    · split <;> rfl
    · rfl

theorem State.rxShow_onlyRegs (s : State) (n : Nat) (m : LaneMeas) {l : List Nat} (h : R.SDI_RX_STAT n ∈ l) : s.onlyRegs (s.rxShow n m) l :=
  (((s.set_onlyRegs _ _ h).trans (State.setB_onlyRegs _ _ _ h)).trans (State.setB_onlyRegs _ _ _ h)).trans (State.setB_onlyRegs _ _ _ h)

theorem State.rxPid_onlyRegs (s : State) (n : Nat) (m : Option Word) {l : List Nat} (h : R.SDI_RX_PID n ∈ l) (h' : R.SDI_RX_HIST n ∈ l) : s.onlyRegs (s.rxPid n m) l := by
  cases m with
  | none => exact .refl ..
  | some p => exact .ite (fun _ => (s.wr_onlyRegs _ h).trans (State.raise_onlyRegs _ (Hist.srx n) _ h')) fun _ => s.wr_onlyRegs _ h

theorem State.rxAtc_onlyRegs (s : State) (n : Nat) (m : Option Word) {l : List Nat} (h : R.SDI_RX_ATC n ∈ l) : s.onlyRegs (s.rxAtc n m) l := by
  cases m with
  | none => exact .refl ..
  | some p => exact s.wr_onlyRegs _ h

theorem State.rxRegained_onlyRegs (s : State) (n m : Nat) {l : List Nat} (h : R.SDI_RX_HIST n ∈ l) : s.onlyRegs (s.rxRegained n m) l := by
  unfold State.rxRegained
  extract_lets x s1
  have h1 : s.onlyRegs s1 l := .ite (fun _ => State.raise_onlyRegs _ (Hist.srx n) _ h) fun _ => .refl ..
  exact .ite (fun _ => h1.trans (State.raise_onlyRegs _ (Hist.srx n) _ h)) fun _ => h1

end Sys2Proof.Machine
end

