-- ==== Sys2Proof/Tests/Slice0.lean ====
section
/-! SUPPORT. Tests: the well-formedness checks, steps on small states, and witnesses of the statements' hypotheses, chapter by chapter. -/
set_option Elab.async false
namespace Sys2Proof.Tests
open Sys2Proof.Machine

/-! ### Small states -/

/-- The state after an outcome; reset where there is none. -/
def after (o : Host.Outcome State Fault Refusal) : State :=
  match o with
  | .next t => t
  | _ => State.reset

/-- After bring-up: register writes are taken, once the host has enumerated the function. -/
def up0 : State :=
  let s := State.reset.set R.RST_STAT F.RST_STAT_PHASE 5
  { s with host := { s.host with pci := { s.host.pci with mse := true } }, rst := { s.rst with plane := false, cold := false } }

theorem test_up0 : up0.up := by unfold State.up; decide

/-- A header of ring 0 with tag 7 at time `t`. -/
def hdr0 (t : Nat) : Hdr :=
  { ring := 0, tag := 7, ordered := false, dropIfLate := false, signed := false, chain := false, irq := false, epoch := 0, rfn := 0,
    blobAddr := 0, blob := none, t := t }

/-- A reading of the slack monitors; what a block finds. -/
def slack0 : Slack := { rates := [500, 500, 500, 500, 500] }
def found0 : Found := { ok := true, tok := none }

/-! ### Ill-formed commands are refused, one for each check of WellFormed -/

theorem test_bar_offset : wellFormed (.imaskWrite 2 0) = false ∧ wellFormed (.imaskWrite (2 ^ 26 + 2 ^ 18) 0) = false ∧ wellFormed (.imaskWrite (2 ^ 26) 0) = true ∧ wellFormed (.imaskWrite 4 (2 ^ 32)) = false ∧ wellFormed (.imaskWrite 4 0) = true := by decide
theorem test_hdr : wellFormed (.nop { hdr0 0 with tag := 2 ^ 16 }) = false ∧ wellFormed (.nop { hdr0 0 with rfn := 2 ^ 48 }) = false ∧ wellFormed (.nop (hdr0 0)) = true := by decide

/-- The 64 bytes of a descriptor (Tables 9-4, 9-8); a field that may hold several values holds 0. -/
def spell (r : DescRule) (h : Hdr) : List Byte :=
  le 64 ((r.fields h).foldl (fun d f => match f.spell with
    | .is v => d + v % 2 ^ f.width * 2 ^ f.lo
    | _ => d) 0)

/-- `s` with a descriptor at the head of its ring. -/
def load (s : State) (r : DescRule) (h : Hdr) : State :=
  s.setRst h.ring { s.rst_ h.ring with fetched := [{ raw := spell r h }] }

/-- The descriptor at the head of its ring is passed by the common checks and finds an entry free. -/
def canAdmit (s : State) (r : DescRule) (h : Hdr) : Bool :=
  match (load s r h).vet r h with
  | .pass v => !v.host.fwdNow && !v.host.restoring && v.entriesFree 1
  | _ => false

/-- The state in which the common checks pass that descriptor on. -/
def vetted (s : State) (r : DescRule) (h : Hdr) : State :=
  match (load s r h).vet r h with
  | .pass v => v
  | _ => s

theorem admits_vetted {s : State} {r : DescRule} {h : Hdr} (hc : canAdmit s r h = true) : (load s r h).admits r h (vetted s r h) := by
  unfold canAdmit at hc
  unfold State.admits vetted
  cases hv : (load s r h).vet r h with
  | pass v => rw [hv] at hc; simpa [and_assoc] using hc
  | left => rw [hv] at hc; cases hc
  | out v => rw [hv] at hc; cases hc

/-- `s` with READY. -/
def withDesc (s : State) : State := s.set R.RNG_GLB_STAT F.RNG_GLB_STAT_READY 1

/-- READY, and a reading of 500 M transfers/s on every slack monitor. -/
def desc0 : State := withDesc (up0.readSlack slack0)

/-! ### SDI lanes and 400 GbE ports -/

/-- A lane that runs. -/
def rxUp (n : Nat) : State := up0.set (R.SDI_RX_CTL n) F.SDI_RX_CTL_EN 1
/-- A lane locked at rate code `rate`. -/
def rxLocked (n rate : Nat) : State :=
  ((((rxUp n).set (R.SDI_RX_STAT n) F.SDI_RX_STAT_CARRIER 1).set (R.SDI_RX_STAT n) F.SDI_RX_STAT_CDR_LOCK 1).set (R.SDI_RX_STAT n)
    F.SDI_RX_STAT_RATE rate).set (R.SDI_RX_STAT n) F.SDI_RX_STAT_TRS_LOCK 1
/-- A picture of format 0 without a payload. -/
def meas0 : LaneMeas := { fmt := 0, levelB := false, pid := some 0x85, pidFmt := 1, atc := some 3, period := 1000, lines := 10, phase := 0, mppm := 0 }
/-- A flow record with nothing set. -/
def flow0 : FlowRec :=
  { ipv6 := false, srcFilter := false, prot := false, st31 := false, lossBlack := false, port := 0, sub := 0, pt := 96, dscp := 0, vlan := 0, pcp := 0,
    sampling := 0, tenBit := true, block := false, sender := 0, fmt := 0, space := 0, tcs := 0, channels := 2, l24 := true, us125 := false, pathDiff := 0,
    udpPort := 5000, ssrc := 0, mac := 0, dstAddr := 1, srcAddr := 2 }
/-- A packet of that flow. -/
def pkt0 : RtpPkt :=
  { ipv6 := false, dstAddr := 1, srcAddr := 2, udpPort := 5000, vlan := 0, pt := 96, ssrc := 9, seq := 1, media := 0, frameStart := false, period := 0, phase := 0 }
/-- Port 0 runs, with its sub-port 0. -/
def qeUp : State := (up0.set (R.QE_CTL 0) F.QE_CTL_EN 1).set (R.QE_CTL 0) (bit 4) 1
/-- A receive flow is enabled under key `k`. -/
def withFlow (k : Nat) (x : FlowRec) (s : State) : State := { s with media := { s.media with rxFlow := [(k, { rcd := x })] } }

/-- Two lanes locked at 3 Gb/s whose leader, lane 4, asks for a group of two. -/
def pairReq : State :=
  let s := ((rxLocked 4 4).set (R.SDI_RX_STAT 5) F.SDI_RX_STAT_TRS_LOCK 1).setRx 4 { groupReq := 2, meas := some meas0 }
  ((s.set (R.SDI_RX_STAT 5) F.SDI_RX_STAT_CDR_LOCK 1).set (R.SDI_RX_STAT 5) F.SDI_RX_STAT_RATE 4).setRx 5 { meas := some meas0 }
/-- Those lanes as a group, the leader's picture starting `d` ticks after the member's. -/
def pairSt (d : Nat) (first : Bool) : State :=
  (pairReq.setRx 4 { group := 2, meas := if first then none else some { meas0 with period := 10 ^ 12 } }).setRx 5 { meas := some { meas0 with period := 10 ^ 12, phase := d } }
theorem witness_sdiCarrierDetect : (rxUp 71).rxOn 71 = true := by decide
theorem test_sdiCarrierDetect : (after (exec (.sdiCarrierDetect 71) (rxUp 71))).rd (R.SDI_RX_STAT 71) = 0x00FF0001 := by decide
theorem witness_cdrLock : (let s := (rxUp 0).set (R.SDI_RX_STAT 0) F.SDI_RX_STAT_CARRIER 1
    s.flag (R.SDI_RX_STAT 0) F.SDI_RX_STAT_CARRIER = true ∧ s.flag (R.SDI_RX_STAT 0) F.SDI_RX_STAT_CDR_LOCK = false ∧ s.rateForce 0 = 0) ∧
    (let s := (rxUp 0).set (R.SDI_RX_CTL 0) F.SDI_RX_CTL_RATE_FORCE 3
    s.rateForce 0 ≠ 0 ∧ s.rateForce 0 ≠ 9) := by decide
theorem witness_trsLock : (rxLocked 3 1).flag (R.SDI_RX_STAT 3) F.SDI_RX_STAT_CDR_LOCK = true ∧
    (rxUp 3).flag (R.SDI_RX_STAT 3) F.SDI_RX_STAT_TRS_LOCK = false := by decide
theorem witness_trsLock_group : (pairSt 0 false).flag (R.SDI_RX_STAT 5) F.SDI_RX_STAT_CDR_LOCK = true ∧ (pairSt 0 false).rxLeader 5 = some 4 ∧
    (rxLocked 3 1).rxLeader 3 = none := by decide
theorem witness_startBoundary_group : (let m : LaneMeas := { meas0 with period := 10 ^ 12 }
    ∀ d ∈ [0, 10 ^ 11], (pairSt d true).flag (R.SDI_RX_STAT 4) F.SDI_RX_STAT_TRS_LOCK = true ∧ ((pairSt d true).rx 4).meas = none ∧ ((pairSt d true).rx 4).group = 2 ∧
    (pairSt d true).groupLocks 4 2 = true ∧ (pairSt d true).rxLeader 4 = some 4 ∧
    ((pairSt d true).setRx 4 { (pairSt d true).rx 4 with meas := some m, relock := false, lastFmt := some 0 }).groupNear 4 2 = decide (d = 0)) := by decide
theorem witness_startBoundary : (rxLocked 71 3).flag (R.SDI_RX_STAT 71) F.SDI_RX_STAT_TRS_LOCK = true ∧ ((rxLocked 71 3).rx 71).meas = none ∧
    meas0.fmt < 256 ∧ ((rxLocked 71 3).setRx 71 { relock := true, lastFmt := some 5 }).flag (R.SDI_RX_STAT 71) F.SDI_RX_STAT_TRS_LOCK = true := by decide
theorem test_startBoundary : (let t := after (exec (.startBoundary 71 meas0 9) (rxLocked 71 3))
    t.get (R.SDI_RX_STAT 71) F.SDI_RX_STAT_FORMAT = 0 ∧ t.flag (R.SDI_RX_STAT 71) F.SDI_RX_STAT_PID_MISMATCH = true ∧
    t.rd (R.SDI_RX_PID 71) = 0x85 ∧ t.rd (R.SDI_RX_ATC 71) = 3) := by decide
theorem witness_lineCrcError : (rxLocked 0 2).flag (R.SDI_RX_STAT 0) F.SDI_RX_STAT_TRS_LOCK = true ∧
    2 ≤ (rxLocked 0 2).get (R.SDI_RX_STAT 0) F.SDI_RX_STAT_RATE ∧ (rxLocked 0 1).get (R.SDI_RX_STAT 0) F.SDI_RX_STAT_RATE = 1 := by decide
theorem test_lineCrcError : (after (exec (.lineCrcError 0) (rxLocked 0 2))).rd (R.SDI_RX_CRC_CNT 0) = 1 := by decide
theorem witness_sdiLoss : (rxLocked 5 9).flag (R.SDI_RX_STAT 5) F.SDI_RX_STAT_TRS_LOCK = true ∧ (rxLocked 5 9).rxLeader 5 = none ∧
    (rxUp 5).flag (R.SDI_RX_STAT 5) F.SDI_RX_STAT_TRS_LOCK = false ∧ (rxLocked 5 9).inSt 6 < 2 ∧ (rxLocked 5 9).inSt 7 < 2 ∧
    dataGroup 0x2E7 = some 0 ∧ (rxLocked 5 9).groupChans 5 = 4 ∧ (rxLocked 5 9).rxMember 5 = false ∧ dataGroup 0x161 = none := by decide
theorem test_sdiLoss : (after (exec (.sdiLoss 5 9) (rxLocked 5 9))).rd (R.SDI_RX_STAT 5) = 0x00FF0000 := by decide
theorem witness_rateForceWrite : (rxLocked 5 9).upFor (R.SDI_RX_CTL 5) ∧ (pairSt 0 false).upFor (R.SDI_RX_CTL 5) ∧ (pairSt 0 false).rxLeader 5 = some 4 ∧
    (rxLocked 5 9).rxLeader 5 = none ∧ (pairSt 0 false).flag (R.SDI_RX_STAT 5) F.SDI_RX_STAT_CDR_LOCK = true ∧ (pairSt 0 false).lvRx 5 = false ∧
    (pairSt 0 false).get (R.SDI_RX_CTL 5) F.SDI_RX_CTL_RATE_FORCE ≠ rateCode 3 ∧ (rxLocked 5 9).lvRx 5 = false ∧ (rxLocked 5 9).get (R.SDI_RX_CTL 5) F.SDI_RX_CTL_RATE_FORCE ≠ rateCode 3 ∧ (rxUp 5).flag (R.SDI_RX_STAT 5) F.SDI_RX_STAT_CDR_LOCK = false ∧
    (rxLocked 5 9).flag (R.SDI_RX_STAT 5) F.SDI_RX_STAT_CDR_LOCK = true ∧ (rxLocked 5 9).get (R.SDI_RX_CTL 5) F.SDI_RX_CTL_RATE_FORCE = rateCode 10 := by
  unfold State.upFor State.up; decide +kernel
theorem witness_multiWrite : (rxUp 4).upFor (R.SDI_RX_CTL 4) ∧ (rxUp 17).upFor (R.SDI_RX_CTL 17) ∧ (rxUp 4).lvRx 4 = false ∧ (rxUp 4).rxMember 4 = false ∧ multiLinks 2 ≠ 1 ∧ groupValid 4 (multiLinks 2) = true ∧
    (rxUp 4).rxGroupBusy 4 (multiLinks 2) = false ∧ groupValid 17 (multiLinks 1) = false ∧ (rxUp 17).lvRx 17 = false ∧ (rxUp 17).rxMember 17 = false := by
  unfold State.upFor State.up; decide +kernel
theorem witness_groupBusy : (let s := (rxUp 4).setRx 4 { group := 2 }
    s.rxGroupBusy 4 (s.rxLinks 4) = false ∧ multiLinks 0 = 1 ∧ s.upFor (R.SDI_RX_CTL 4) ∧ s.lvRx 4 = false ∧ s.rxMember 4 = false) ∧
    (let s := (rxUp 4).setRx 6 { group := 2 }; groupValid 4 4 = true ∧ s.rxGroupBusy 4 (multiLinks 2) = true ∧ multiLinks 2 ≠ 1) ∧
    (let s : State := { rxUp 4 with xpt := { up0.xpt with routes := [(0, ⟨1, 4⟩)] } }
    s.rxGroupBusy 4 (s.rxLinks 4) = true ∧ s.upFor (R.SDI_RX_CTL 4) ∧ s.lvRx 4 = false ∧ s.rxMember 4 = false ∧ multiLinks 0 = 1) ∧ up0.upFor (R.SDI_TX_CTL 68) ∧
    (((rxUp 4).setRx 4 { group := 2, meas := some meas0 }).rx 4).meas ≠ none ∧
    up0.lvTx 68 = false ∧ up0.txMember 68 = false ∧ up0.txGroupBusy 68 (multiLinks 2) = false ∧ groupValid 70 (multiLinks 2) = false ∧
    up0.txGroupBusy 68 (up0.txLinks 68) = false ∧ (up0.setTx 70 { group := 2 }).txGroupBusy 68 (multiLinks 2) = true := by
  unfold State.upFor State.up; decide +kernel
theorem witness_groupForm : (pairReq.rx 4).groupReq = 2 ∧ pairReq.flag (R.SDI_RX_STAT 4) F.SDI_RX_STAT_TRS_LOCK = true ∧ groupValid 4 2 = true ∧
    pairReq.rxGroupBusy 4 2 = false ∧ groupRate (pairReq.get (R.SDI_RX_STAT 4) F.SDI_RX_STAT_RATE) 2 (((pairReq.fmt? 0x30).map (·.lines)).getD 0) = true ∧
    (∀ i < 2, pairReq.flag (R.SDI_RX_STAT (4 + i)) F.SDI_RX_STAT_TRS_LOCK = true ∧ pairReq.get (R.SDI_RX_STAT (4 + i)) F.SDI_RX_STAT_RATE = 4) ∧ nearPhase meas0.period meas0.phase meas0.phase = true ∧
    (let s := pairReq.set (R.SDI_RX_STAT 4) F.SDI_RX_STAT_RATE 3
     groupRate (s.get (R.SDI_RX_STAT 4) F.SDI_RX_STAT_RATE) 2 (((s.fmt? 0x30).map (·.lines)).getD 0) = false) ∧
    (let s := up0.setTx 4 { groupReq := 2 }; (s.tx 4).groupReq = 2 ∧ s.txGroupBusy 4 2 = false) ∧
    (let s := pairReq.set (R.SDI_RX_STAT 5) F.SDI_RX_STAT_RATE 3
     s.flag (R.SDI_RX_STAT 5) F.SDI_RX_STAT_CDR_LOCK = true ∧ s.get (R.SDI_RX_STAT 5) F.SDI_RX_STAT_RATE ≠ s.get (R.SDI_RX_STAT 4) F.SDI_RX_STAT_RATE) := by decide
theorem test_groupForm : (let t := after (exec (.groupForm false 4 0x30 9) pairReq)
    (t.rx 4).group = 2 ∧ t.get (R.SDI_RX_STAT 4) F.SDI_RX_STAT_GROUP_OK = 1) := by decide
theorem witness_groupSkew : (let s := (rxUp 4).setRx 4 { group := 2 }
    (s.rx 4).group ≠ 0 ∧ s.rxLeader 4 = some 4 ∧ s.inSt 6 < 2 ∧ s.inSt 7 < 2) := by decide
theorem witness_txEnWrite : up0.upFor (R.SDI_TX_CTL 71) ∧ up0.lvTx 71 = false := by unfold State.upFor State.up; decide +kernel
/-- Lane 0 is enabled and routed from pattern generator 0. -/
def txRouted (src kind : Nat) : State :=
  let s := up0.set (R.SDI_TX_CTL 0) F.SDI_TX_CTL_EN 1
  { s with xpt := { s.xpt with routes := [(0, ⟨kind, src⟩)] } }
theorem witness_txLeaveIdle : (let s := (rxLocked 7 3).setRx 7 { meas := some meas0 }
    let s : State := (s.set (R.SDI_TX_CTL 0) F.SDI_TX_CTL_EN 1)
    let s : State := { s with xpt := { s.xpt with routes := [(0, ⟨1, 7⟩)] } }
    (s.at_ 9).idleWhy 0 = 0 ∧ s.flag (R.SDI_TX_STAT 0) F.SDI_TX_STAT_ACTIVE = false ∧ (s.tx 0).wakeAt = none) := by decide
theorem witness_followRangeIdle : ((txRouted 7 1).route 0).map (·.kind) = some 1 := by decide
theorem witness_txTurn : (let s := up0.set (R.SDI_TX_CTL 71) F.SDI_TX_CTL_PD 1
    (s.flag (R.SDI_TX_CTL 71) F.SDI_TX_CTL_EN && !s.flag (R.SDI_TX_CTL 71) F.SDI_TX_CTL_PD) = false ∧ s.lvTx 71 = false) := by decide
theorem test_txEnWrite : ((after (exec (.txEnWrite 71 true false 9) (up0.set (R.SDI_TX_CTL 71) F.SDI_TX_CTL_PD 1))).tx 71).wakeAt = some (9 + 100 * ticksPerUs) := by decide
theorem witness_qeModeWrite : up0.upFor (R.QE_CTL 3) ∧ up0.qeFlows 3 = false ∧ (withFlow 0 flow0 up0).qeFlows 0 = true ∧ (withFlow 0 flow0 up0).upFor (R.QE_CTL 0) ∧
    up0.flag (R.QE_STAT 3) F.QE_STAT_MODE = false ∧ (up0.set (R.QE_STAT 3) F.QE_STAT_MODE 1).flag (R.QE_STAT 3) F.QE_STAT_MODE = true ∧
    (up0.set (R.QE_STAT 3) F.QE_STAT_MODE 1).qeFlows 3 = false := by
  unfold State.upFor State.up; decide +kernel
theorem witness_qeLinks : qeUp.subOn 0 0 = true ∧ qeUp.qeTesting 0 0 = false ∧ qeUp.flag (R.QE_STAT 0) (bit 0) = false ∧
    (qeUp.set (R.QE_STAT 0) (bit 0) 1).flag (R.QE_STAT 0) (bit 0) = true ∧ (qeUp.set (R.QE_STAT 0) (bit 0) 1).subOn 0 0 = true := by decide
theorem witness_qeRxFrame : qeUp.matchFlow 0 0 pkt0 = none ∧ (withFlow 1024 flow0 qeUp).matchFlow 0 0 pkt0 = some (1024, false) ∧
    (withFlow 1024 flow0 qeUp).subOn 0 0 = true ∧ tabFind (withFlow 1024 flow0 qeUp).media.rxFlow 1024 = some { rcd := flow0 } ∧ flow0.prot = false ∧
    qeUp.maxFrame 0 = 1522 ∧ qeUp.maxFrame 0 < 1523 := by decide
theorem witness_qeRxFrame_arp : ((qeUp.wr (R.QE_IP4 0 0) 7).rd (R.QE_IP4 0 0)).toNat = 7 ∧ ((qeUp.wr (R.QE_IP6 0 0 0) 9).takeSetting [R.QE_IP6 0 0 0]).qeIp6 0 0 = 9 ∧ (qeUp.rd (R.QE_IP4 0 0)).toNat = 0 := by decide
theorem test_qeRxFrame : (after (exec (.qeRxFrame 0 0 .ptp 1523 5 9) qeUp)).rd (R.QE_RX_NOMATCH 0 0) = 1 ∧
    (after (exec (.qeRxFrame 0 0 .ptp 1523 5 9) qeUp)).rd (R.QE_FEC_CORR 0 0) = 5 := by decide
theorem witness_flowLoss : tabFind (withFlow (2048 + 5) flow0 up0).media.rxFlow (2048 + 5) = some { rcd := flow0 } ∧
    tabFind (withFlow (1024 + 5) flow0 up0).media.rxFlow (1024 + 5) = some { rcd := flow0 } ∧
    tabFind (withFlow 1023 flow0 up0).media.rxFlow 1023 = some { rcd := flow0 } := by decide
theorem witness_legLost : tabFind (withFlow (1024 * kindNum .anc + 1) { flow0 with prot := true } up0).media.rxFlow (1024 * kindNum .anc + 1) =
    some { rcd := { flow0 with prot := true } } := by decide
/-- `n` timestamps wait in the queue of a port that runs. -/
def ptpWait (n : Nat) : State := { qeUp with media := { qeUp.media with ptpQ := List.replicate n (0, 0) } }
theorem witness_ptpTimestamp : qeUp.subOn 0 0 = true ∧ ((ptpWait 64).media.ptpQ.drop 1).length < 64 ∧ 64 ≤ ((ptpWait 64).media.ptpQ.drop 0).length := by decide
theorem test_ptpTimestamp : (after (exec (.ptpTimestamp 0 0 100 0) (qeUp.wr (R.QE_PTP_ASYM 0 0) (-40)))).media.ptpQ = [(0, 60)] := by decide
theorem witness_legPlain : tabFind (withFlow 1 flow0 up0).media.rxFlow (1024 * kindNum .video + 1) = some { rcd := flow0 } ∧ flow0.prot = false := by decide

/-! ### Crosspoint, routes and takes -/

/-- `yes` with room in the in-flight table. -/
def fitsYes (a : Adm) : Bool :=
  match a with
  | .yes w => decide (w.inflight ≤ 16384)
  | _ => false

/-- Destination `d` is routed from pattern generator 0; host stream 0 is set up as a destination, no. 328. -/
def withRoute (d : Nat) (s : State) : State :=
  { s with xpt := { s.xpt with routes := [(d, ⟨5, 344⟩)] }, media := { s.media with hostOut := [(0, { fmt := 0, sampling := 0, tenBit := true, grid := none })] } }
/-- A chain whose capture writer is destination 344. -/
def withChain (s : State) : State :=
  { s with fst := { s.fst with chains := [(3, { src := 0, cw := 0, ctx := none, capRing := 5, outRing := none, persist := false })] } }
/-- One take in flight. -/
def withTake (k : Take) (s : State) : State :=
  { s with host := { s.host with ops := [{ id := 1, dest := .ring 0, tag := 9, irq := false, result := 0, fwd := false, body := .take k }] } }
/-- TIME_VALID holds. -/
def timed (s : State) : State := s.set R.REF_STAT F.REF_STAT_TIME_VALID 1
/-- Destination 328 refuses untimed takes. -/
def refusing (s : State) : State := s.set (R.XPT_DST_CFG 328) F.XPT_DST_CFG_REFUSE_UNTIMED 1
def hdrAt (rfn t : Nat) : Hdr := { hdr0 t with rfn := rfn }

theorem witness_routeSet_chain : canAdmit (withChain desc0) (routeRule (withChain desc0) 0x02 0 344 (routePay 344 345)) (hdr0 5) = true ∧
    (vetted (withChain desc0) (routeRule (withChain desc0) 0x02 0 344 (routePay 344 345)) (hdr0 5)).chainCw 344 = true := by decide +kernel
theorem witness_routeSet_bad : canAdmit desc0 (routeRule desc0 0x02 0 0 (routePay 0 600)) (hdr0 5) = true ∧ (let v := vetted desc0 (routeRule desc0 0x02 0 0 (routePay 0 600)) (hdr0 5)
    v.chainCw 0 = false ∧ v.routeBad 0 600 0 = some 18) := by decide +kernel
theorem witness_routeSet_untimed : (let s := refusing (withRoute 328 desc0)
    canAdmit s (routeRule s 0x02 0 328 (routePay 328 345)) (hdr0 5) = true ∧ (let v := vetted s (routeRule s 0x02 0 328 (routePay 328 345)) (hdr0 5)
    v.chainCw 328 = false ∧ v.routeBad 328 345 0 = none ∧ v.refuses 328 = true ∧ v.clean 328 345 = true) ∧
    (let s := s.wr (R.XPT_PG_CFG 1) 0
     let v := vetted (s.setPg 1 { s.pg 1 with fmt := 1 }) (routeRule s 0x02 0 328 (routePay 328 345)) (hdr0 5)
     v.routeBad 328 345 0 = none ∧ v.clean 328 345 = false)) := by decide +kernel
theorem witness_routeSet_flies : (let s := withRoute 328 desc0
    canAdmit s (routeRule s 0x02 0 328 (routePay 328 345)) (hdr0 5) = true ∧ (let v := vetted s (routeRule s 0x02 0 328 (routePay 328 345)) (hdr0 5)
    v.chainCw 328 = false ∧ v.routeBad 328 345 0 = none ∧ v.refuses 328 = false ∧ (v.dstGrid 328).isSome = true ∧ v.takes = [] ∧
    v.fitOf (v.addOp (hdr0 5) 0 (.take (v.leapTake 328 345 0 false none none))).2 = .fits)) := by decide +kernel
theorem witness_routeSet_starts : (let s := withTake { dst := 328, src := 344, rfn := 0, after := 10 ^ 14 } (withRoute 328 desc0)
    canAdmit s (routeRule s 0x02 0 328 (routePay 328 345)) (hdr0 5) = true ∧ (let v := vetted s (routeRule s 0x02 0 328 (routePay 328 345)) (hdr0 5)
    v.chainCw 328 = false ∧ v.routeBad 328 345 0 = none ∧ v.refuses 328 = false ∧
    v.fitOf ((v.abortImmediate 328).addOp (hdr0 5) 0 (.take (v.leapTake 328 345 0 false none none))).2 = .fits ∧
    (v.startImmediate (hdr0 5) 328 345 none 0).inflight ≤ 16384)) := by decide +kernel
theorem witness_takeAt_pending : (let s := withTake { dst := 328, src := 344, rfn := 1, after := 10 ^ 14 } (timed (withRoute 328 desc0))
    canAdmit s (routeRule s 0x03 1 328 (routePay 328 345)) (hdrAt 1 5) = true ∧ (vetted s (routeRule s 0x03 1 328 (routePay 328 345)) (hdrAt 1 5)).leapPending 328 1 = true) := by decide +kernel
theorem witness_takeAt_drop : (let s := timed (withRoute 328 desc0)
    let h := { hdrAt 1 (10 ^ 14) with dropIfLate := true }
    canAdmit s (routeRule s 0x03 1 328 (routePay 328 345)) h = true ∧ (let v := vetted s (routeRule s 0x03 1 328 (routePay 328 345)) h
    v.routeBad 328 345 1 = none ∧ v.refuses 328 = false ∧ v.leapLate 328 1 = true ∧
    v.fitOf (v.addOp h 0 (.take (v.leapTake 328 345 1 true none none))).2 = .fits)) := by decide +kernel
theorem witness_takeAt : (let s := timed (withRoute 328 desc0)
    canAdmit s (routeRule s 0x03 1 328 (routePay 328 345)) (hdrAt 1 5) = true ∧ (let v := vetted s (routeRule s 0x03 1 328 (routePay 328 345)) (hdrAt 1 5)
    v.chainCw 328 = false ∧ v.routeBad 328 345 1 = none ∧ v.refuses 328 = false ∧ v.leapLate 328 1 = false ∧
    v.fitOf (v.addOp (hdrAt 1 5) 0 (.take (v.leapTake 328 345 1 false none none))).2 = .fits) ∧
    (let v := vetted s (routeRule s 0x03 1 328 (routePay 328 345)) (hdrAt (2 ^ 24 + 1) 5)
    v.rfnFar (2 ^ 24 + 1) = true)) := by decide +kernel
theorem witness_takeAt_late : (let s := timed (withRoute 328 desc0)
    let h := hdrAt 1 (10 ^ 14)
    canAdmit s (routeRule s 0x03 1 328 (routePay 328 345)) h = true ∧ (let v := vetted s (routeRule s 0x03 1 328 (routePay 328 345)) h
    v.chainCw 328 = false ∧ v.routeBad 328 345 1 = none ∧ v.refuses 328 = false ∧ v.leapLate 328 1 = true ∧
    v.fitOf (v.addOp h 0 (.take (v.leapTake 328 345 1 false none none))).2 = .fits)) := by decide +kernel
/-- A salvo of one entry. -/
def salvo1 (dst : Nat) : SalvoList :=
  { count := 1, pointer := 64, data := some (le 16 (dst + 345 * 2 ^ 16)) }
theorem witness_salvo : (let s := timed (withRoute 328 desc0)
    let h := hdrAt 1 5
    canAdmit s (salvoRule s h (salvo1 328)) h = true ∧ fitsYes (salvoBody h (salvo1 328) (vetted s (salvoRule s h (salvo1 328)) h)) = true ∧
    (let v := vetted s (salvoRule s h (salvo1 512)) h
    v.chainCw 512 = false ∧ canAdmit s (salvoRule s h (salvo1 512)) h = true ∧ v.firstBad h ((salvo1 512).entries false) 0 [] = some 0) ∧
    canAdmit (withChain s) (salvoRule (withChain s) h (salvo1 344)) h = true ∧ (vetted (withChain s) (salvoRule (withChain s) h (salvo1 344)) h).chainCw 344 = true) := by
  decide +kernel
theorem witness_salvo_taken : (let s := timed (withRoute 328 desc0)
    let h := hdrAt 1 5
    let v := vetted s (salvoRule s h (salvo1 328)) h
    let b := buildSalvo h ((salvo1 328).entries false) { s := v }
    v.firstBad h ((salvo1 328).entries false) 0 [] = none ∧ (∀ e ∈ ((salvo1 328).entries false), v.chainCw e.dst = false ∧ v.entryClean e = true) ∧ v.entriesFree 2 = true ∧
    b.2.codes = [] ∧ v.fitOf (b.2.s.startSalvo v h b.1) = .fits ∧ h.dropIfLate = false ∧ ((b.2.s.logChains v h b.1).startSalvo v h b.1).inflight ≤ 16384) := by
  decide +kernel
/-- SALVO_CANCEL. -/
def cancel (ring tag : Nat) : DescRule := { op := 0x05, rfn := 0, pay := [fld 16 1 ring, fld 18 2 tag], sig := true }
/-- SALVO_CANCEL of tag 9 on ring 0. -/
def cancel0 : DescRule := cancel 0 9
theorem witness_salvo_list : (let s := timed (withRoute 328 desc0)
    let h := hdrAt 1 5
    let bad : SalvoList := { salvo1 328 with count := 0 }
    let c := { h with chain := true }
    canAdmit s (salvoRule s h bad) h = true ∧ listBad bad h = some (badRes 16) ∧ listBad (salvo1 328) h = none ∧
    canAdmit s (salvoRule s c (salvo1 328)) c = true ∧ listBad (salvo1 328) c = some (badRes 56)) := by decide +kernel
theorem witness_salvo_untimed : (let s := (refusing (timed (withRoute 328 desc0))).wr (R.XPT_PG_CFG 1) 0
    let s := s.setPg 1 { s.pg 1 with fmt := 1 }
    let h := hdrAt 1 5
    let v := vetted s (salvoRule s h (salvo1 328)) h
    canAdmit s (salvoRule s h (salvo1 328)) h = true ∧ v.chainCw 328 = false ∧ v.firstBad h ((salvo1 328).entries false) 0 [] = none ∧
    ((salvo1 328).entries false).any (fun e => !v.entryClean e) = true) := by decide +kernel
/-- A salvo in flight with one entry. -/
def withSalvo (s : State) : State :=
  { s with host := { s.host with ops := [
    { id := 1, dest := .ring 0, tag := 9, irq := false, result := 0, fwd := false, body := .salvo { size := 1, left := 1 } },
    { id := 2, dest := .none, tag := 0, irq := false, result := 0, fwd := false, body := .take { dst := 344, src := 345, rfn := 1, after := 10 ^ 14, salvo := some 1 } }] } }
theorem witness_salvoCancel_salvo : (let v := vetted (withSalvo desc0) cancel0 (hdr0 5)
    canAdmit (withSalvo desc0) cancel0 (hdr0 5) = true ∧ (v.cancelTarget 0 9).map (·.body) = some (.salvo { size := 1, left := 1 }) ∧ v.salvoEntries 1 ≠ [] ∧
    (∀ p ∈ v.salvoEntries 1, v.cancelOk p.2 = true) ∧ ((v.abortOp 1).ok (hdr0 5) 0).inflight ≤ 16384) := by decide +kernel
theorem witness_salvoCancel_late : (let s := withTake { dst := 344, src := 345, rfn := 1, after := 0 } desc0
    let v := vetted s cancel0 (hdr0 5)
    canAdmit s cancel0 (hdr0 5) = true ∧ (v.cancelTarget 0 9).map (·.body) = some (.take { dst := 344, src := 345, rfn := 1, after := 0 }) ∧
    v.cancelOk { dst := 344, src := 345, rfn := 1, after := 0 } = false ∧ v.cancelTarget 0 8 = none) := by decide +kernel
theorem witness_salvoCancel : (let s := withTake { dst := 344, src := 345, rfn := 1, after := 10 ^ 14 } desc0
    canAdmit s cancel0 (hdr0 5) = true ∧ canAdmit s (cancel 64 9) (hdr0 5) = true ∧ canAdmit s (cancel 63 9) (hdr0 5) = true ∧ (vetted s (cancel 63 9) (hdr0 5)).cancelTarget 63 9 = none ∧
    (let v := vetted s cancel0 (hdr0 5)
    (v.cancelTarget 0 9).map (·.body) = some (.take { dst := 344, src := 345, rfn := 1, after := 10 ^ 14 }) ∧
    v.cancelOk { dst := 344, src := 345, rfn := 1, after := 10 ^ 14 } = true ∧ ((v.abortOp 1).ok (hdr0 5) 0).inflight ≤ 16384)) := by decide +kernel
/-- A SYNC request from host stream 328, which runs format 0, to a capture-free destination. -/
def chain1 (src dst : Nat) : ChainReq := { src := src, dst := dst, depth := 0, pix := 0, quad := 0xFF, persist := false, offset := 0 }
/-- Lane 0 carries format 0; synthesizer 0 is locked and engine 0 enabled. -/
def chainSt : State :=
  (((withRoute 328 desc0).set (R.SDI_RX_STAT 0) F.SDI_RX_STAT_FORMAT 0).set (R.SYN_TS_STAT 0) F.SYN_TS_STAT_STATE 3).set (R.CHE_CTL 0) F.CHE_CTL_EN 1
/-- What a chain request meets at admission: it resolves, its chain is built without a shortfall, the ledgers are met, and the take starts. -/
def chainMeets (v : State) (h : Hdr) (c : ChainReq) (x : Option ConvSet) : Bool :=
  match v.chainSpec h c x with
  | .error _ => false
  | .ok q =>
    let r := Build.chain { s := v } q
    r.2.codes.isEmpty && (v.fitOf (chainHyp h q r.1 v r.2.s) == .fits) && fitsYes (chainStart h q r.1 r.2.s) && (q.dst == some c.dst)
      && !v.refuses c.dst && !v.dropsLate h c.dst
      && (match r.1.ctx, q.conv with
        | some k, some cv => cv.luts.all fun b => !v.bankInUse (k / 16) b.1
        | _, _ => true)
theorem witness_routeSync_taken : chainMeets (vetted chainSt (routeRule chainSt 0x06 2 328 (chainPay (chain1 0 328))) (hdr0 5)) (hdr0 5) (chain1 0 328) none = true ∧
    (vetted chainSt (routeRule chainSt 0x06 2 328 (chainPay (chain1 0 328))) (hdr0 5)).chainCw 328 = false := by decide +kernel
theorem witness_routeSync : canAdmit chainSt (routeRule chainSt 0x06 2 328 (chainPay (chain1 0 328))) (hdr0 5) = true ∧
    (match (vetted chainSt (routeRule chainSt 0x06 2 328 (chainPay (chain1 0 328))) (hdr0 5)).chainSpec (hdr0 5) (chain1 0 328) none with
      | .error _ => false
      | .ok q => fitsYes (chainAdmit (hdr0 5) q (vetted chainSt (routeRule chainSt 0x06 2 328 (chainPay (chain1 0 328))) (hdr0 5)))) = true := by decide +kernel
theorem witness_routeSync_no : canAdmit desc0 (routeRule desc0 0x06 2 344 (chainPay (chain1 344 344))) (hdr0 5) = true ∧
    canAdmit (withChain desc0) (routeRule (withChain desc0) 0x06 2 344 (chainPay (chain1 344 344))) (hdr0 5) = true ∧
    (match (vetted desc0 (routeRule desc0 0x06 2 344 (chainPay (chain1 344 344))) (hdr0 5)).chainSpec (hdr0 5) (chain1 344 344) none with
      | .error e => decide (e = badRes 16)
      | .ok _ => false) = true := by decide +kernel
/-- A conversion set without a block. -/
def conv0 : ConvSet :=
  { outFmt := 0xFF, outPix := 0, outDepth := 3, deint := 0, cadOff := false, frc := 0, park := false, kernel := 0, preset := 0, bank := 0,
    block := { addr := 0, data := none } }
theorem witness_routeConvert : canAdmit chainSt (convertRule chainSt (chain1 0 328) conv0) (hdr0 5) = true ∧
    (match (vetted chainSt (convertRule chainSt (chain1 0 328) conv0) (hdr0 5)).chainSpec (hdr0 5) (chain1 0 328) (some conv0) with
      | .error _ => false
      | .ok q => fitsYes (chainAdmit (hdr0 5) q (vetted chainSt (convertRule chainSt (chain1 0 328) conv0) (hdr0 5)))) = true := by decide +kernel
theorem witness_routeConvert_taken :
    chainMeets (vetted chainSt (convertRule chainSt (chain1 0 328) conv0) (hdr0 5)) (hdr0 5) (chain1 0 328) (some conv0) = true := by decide +kernel
theorem witness_routeConvert_no :
    (match (vetted desc0 (convertRule desc0 (chain1 344 344) conv0) (hdr0 5)).chainSpec (hdr0 5) (chain1 344 344) (some conv0) with
      | .error e => decide (e = badRes 16)
      | .ok _ => false) = true ∧
    (vetted (withChain desc0) (convertRule (withChain desc0) (chain1 344 344) conv0) (hdr0 5)).chainCw 344 = true := by decide +kernel
/-- An operation in flight. -/
def op0 : Op := { id := 1, dest := .ring 0, tag := 9, irq := false, result := 0, fwd := false, body := .take { dst := 0, src := 0, rfn := 0, after := 0 } }
/-- A take at hand on destination 328. -/
def take1 (rfn after : Nat) : Take := { dst := 328, src := 345, rfn := rfn, after := after }
theorem witness_takeExecute : (let s := (withTake (take1 0 0) (withRoute 328 up0)).at_ 5
    s.findTake 328 Take.isImmediate = some (1, take1 0 0) ∧ (s.takePoint (take1 0 0)).isSome = true) ∧
    (let s := (withTake (take1 0 0) up0).at_ 5
    s.findTake 328 Take.isImmediate = some (1, take1 0 0) ∧ s.takePoint (take1 0 0) = none) := by decide +kernel
theorem witness_takeExecute_due : (let s := (withTake (take1 0 0) (withRoute 328 up0)).at_ (10 ^ 12)
    ∀ p, s.takePoint (take1 0 0) = some p → s.dstActual 328 p ≤ 10 ^ 12) := by
  intro s p h
  have : s.takePoint (take1 0 0) = some ((s.takePoint (take1 0 0)).getD 0) ∧ s.dstActual 328 ((s.takePoint (take1 0 0)).getD 0) ≤ 10 ^ 12 := by decide +kernel
  rw [this.1] at h; cases h; exact this.2
theorem witness_leapArm : (let s := (withTake (take1 7 0) (withRoute 328 up0)).at_ 5
    s.findLeap 328 7 = some (1, take1 7 0) ∧ (s.dstGrid 328).any (fun g => decide (g.actual (s.switchAt 328 g 0) ≤ 5 + g.period) &&
      decide (5 + s.marginTicks g ≤ g.actual (s.switchAt 328 g 0))) = true) := by decide +kernel
theorem witness_leapExecute : (let s := (withTake (take1 7 0) (withRoute 328 up0)).at_ (10 ^ 12)
    s.findLeap 328 7 = some (1, take1 7 0) ∧ (s.takePoint (take1 7 0)).any (fun p => decide (s.dstActual 328 p ≤ 10 ^ 12)) = true ∧ s.takes.length = 1 ∧
    s.findTake 328 Take.isImmediate = none) := by decide +kernel
theorem witness_leapExecute_both : (let s := withTake (take1 7 0) (withRoute 328 up0)
    let s : State := { s with host := { s.host with ops := s.host.ops ++ [{ (s.host.ops.headD op0) with id := 2, body := .take (take1 0 0) }] } }
    let s := s.at_ (10 ^ 12)
    s.findTake 328 Take.isImmediate = some (2, take1 0 0) ∧ s.takePoint (take1 0 0) = s.takePoint (take1 7 0) ∧ s.leapAt 328 ((s.takePoint (take1 0 0)).getD 0) = true ∧
    (s.takePoint (take1 0 0)).isSome = true) := by decide +kernel
theorem witness_leapNoTiming : (let s := (withTake (take1 7 3) up0).at_ 5
    s.findLeap 328 7 = some (1, take1 7 3) ∧ s.dstGrid 328 = none ∧ (take1 7 3).after ≤ 5) := by decide +kernel
theorem witness_untimedChangeover : (let k : Take := { take1 0 3 with waiting := true }
    let s := (withTake k (withRoute 328 up0)).at_ (10 ^ 12)
    s.findTake 328 (·.waiting) = some (1, k) ∧ (s.waitPoint k).any (fun p => decide (p ≤ 10 ^ 12)) = true) := by decide +kernel
theorem witness_retuneEnd : ((up0.setTx 71 { retune := some 0 }).tx 71).retune.isSome = true := by decide
theorem witness_takeChangesRoute : (let s := withTake (take1 0 0) (withRoute 328 up0)
    s.takes.all (fun p => !p.2.waiting) = true ∧ s.route 328 = some ⟨5, 344⟩ ∧ srcPort 344 = .pg 0 ∧ s.clean 328 345 = true) := by decide +kernel
theorem test_takeExecute : (after (exec (.takeExecute 328 (10 ^ 12)) (withTake (take1 0 0) (withRoute 328 up0)))).route 328 = some ⟨5, 345⟩ := by decide +kernel
theorem witness_pgCfgWrite : up0.upFor (R.XPT_PG_CFG 7) ∧ (withRoute 72 up0).upFor (R.XPT_PG_CFG 0) ∧ up0.pgFeedsIp 7 = false ∧ (withRoute 72 up0).pgFeedsIp 0 = true ∧ 0x10000 / 65536 % 256 ≠ ((withRoute 72 up0).pg 0).fmt ∧
    (up0.pg 7).refused = false := by
  unfold State.upFor State.up; decide +kernel
/-- A frame of one black pair. -/
def frame0 : SrcFrame :=
  { pic := [], links := [], pid := some 0x85, pidFmt := 0, levelB := false, atc := some 3, anc := [], phase := 0, host := none }
/-- Lane 71 runs with a measured frame. -/
def measLane : State := (rxLocked 71 3).setRx 71 { meas := some meas0 }
/-- Lane 0 is active and routed from pattern generator 0. -/
def sentLane : State := { up0.set (R.SDI_TX_STAT 0) F.SDI_TX_STAT_ACTIVE 1 with xpt := { up0.xpt with routes := [(0, ⟨5, 344⟩)] } }
theorem witness_sourceFrameSigned : ((up0.at_ 5).srcGrid 344).isSome = true ∧ srcPort 344 = .pg 0 ∧ (measLane.rx 71).meas.isSome = true ∧
    (((measLane.at_ 5).rxFrame 71 frame0).srcGrid 71).isSome = true ∧ srcPort 71 = .sdi 71 := by decide +kernel
/-- A frame of host stream 5 in format 0. -/
def hostFrame0 : SrcFrame := { frame0 with host := some { fmt := 0, sampling := 0, tenBit := true } }
theorem witness_sourceFrameSigned_host : srcPort 333 = .host 5 ∧ (((up0.at_ 5).hostFrame 5 hostFrame0).srcGrid 333).isSome = true := by decide +kernel
theorem test_sourceFrameSigned : (after (exec (.sourceFrameSigned 71 frame0 5) measLane)).rd (R.SDI_RX_ATC 71) = 3 := by decide +kernel
theorem witness_destFrameSent : ((sentLane.at_ 5).dstGrid 0).isSome = true ∧ sentLane.route 0 = some ⟨5, 344⟩ ∧ dstPort 0 = .sdi 0 := by decide
/-- A direct route of lane 0 to destination 328, with the proof enabled. -/
def proofSt : State := { up0.set R.XPT_CTL F.XPT_CTL_PROOF_EN 1 with xpt := { up0.xpt with routes := [(328, ⟨1, 0⟩)] } }
theorem witness_pathProof : proofSt.flag R.XPT_CTL F.XPT_CTL_PROOF_EN = true ∧ tabGet false proofSt.xpt.skip 328 = false ∧ proofSt.proofSig 328 = some 0 ∧ 0 ≠ 5 := by
  decide

/-! ### Frame store and Chameleon engines -/

/-- Ring 0 of three buffers of format 0, handles 0 to 2. -/
def ringSt : State :=
  match desc0.allocRing ⟨3, 0, 0, 1, false⟩ with
  | .ok p => p.2
  | .error _ => desc0
/-- Ring 0, owned by a chain or attached to capture writer 0, which is routed. -/
def chainRing : State := { ringSt with fst := { ringSt.fst with rings := ringSt.fst.rings.map fun p => (p.1, { p.2 with chain := true }) } }
def routedRing : State := { ringSt.setCw 0 { ring := some 0 } with xpt := { ringSt.xpt with routes := [(344, ⟨5, 344⟩)] } }
def bufReq0 (h : Nat) : BufReq := { handle := h, firstLine := 0, count := 1, pitch := 0, host := 64 }
/-- BUF_ALLOC, BUF_FREE, BUF_WRITE, BUF_READ, CTX_RELEASE. -/
def allocRule (depth fmt pix cdesc cw : Nat) : DescRule :=
  { op := 0x30, rfn := 0, pay := [fld 16 1 depth, fld 17 1 fmt, fld 18 1 pix, fld 19 1 cdesc, fld 20 1 cw] }
def freeRule (r : Nat) : DescRule := { op := 0x31, rfn := 0, pay := [fld 16 2 r] }
def writeRule (b : BufReq) : DescRule := { op := 0x32, rfn := 0, pay := bufPay b }
def readRule (b : BufReq) (newest info : Bool) : DescRule := { op := 0x33, rfn := 0, pay := bufPay b ++ [fldBit 22 0 newest, fldBit 22 1 info] }
def releaseRule (unit : Bool) (n : Nat) : DescRule := { op := 0x21, rfn := 0, pay := [fldBit 16 0 unit, fld 18 2 n], sig := true }

theorem witness_bufAlloc : canAdmit desc0 (allocRule 3 0 0 1 167) (hdr0 5) = true ∧ canAdmit routedRing (allocRule 3 0 0 1 0) (hdr0 5) = true ∧
    ((vetted routedRing (allocRule 3 0 0 1 0) (hdr0 5)).cw 0).ring.isSome = true ∧ (let v := vetted desc0 (allocRule 3 0 0 1 167) (hdr0 5)
    v.fstOver = false ∧ v.inReset 9 167 = false ∧ (v.cw 167).ring = none ∧ (v.fmt? 0).isSome = true ∧ cdescOk 1 = true ∧ 1 / 64 % 2 = 0 ∧ (match v.allocRing ⟨3, 0, 0, 1, false⟩ with
      | .ok p => decide ((p.2.ok (hdr0 5) 0).inflight ≤ 16384)
      | .error _ => false) = true) := by decide +kernel
theorem witness_bufFree : canAdmit ringSt (freeRule 2047) (hdr0 5) = true ∧ (vetted ringSt (freeRule 2047) (hdr0 5)).ring 2047 = none ∧
    ((vetted chainRing (freeRule 0) (hdr0 5)).ring 0).map (·.chain) = some true ∧ canAdmit chainRing (freeRule 0) (hdr0 5) = true ∧ canAdmit routedRing (freeRule 0) (hdr0 5) = true ∧
    (let v := vetted routedRing (freeRule 0) (hdr0 5)
    (v.ring 0).map (·.chain) = some false ∧ (v.fst.cw.any fun p => p.2.ring == some 0 && (v.route (344 + p.1)).isSome) = true) ∧
    canAdmit ringSt (freeRule 0) (hdr0 5) = true ∧ (let v := vetted ringSt (freeRule 0) (hdr0 5)
    (v.ring 0).map (·.freeing) = some false ∧ v.fst.cw = [] ∧ ((v.freeRing 0).2.done (hdr0 5) (v.freeRing 0).1 0 0).inflight ≤ 16384) := by decide +kernel
theorem witness_bufFree_again : (let s : State := { ringSt with fst := { ringSt.fst with rings := ringSt.fst.rings.map fun p => (p.1, { p.2 with freeing := true }) } }
    let v := vetted s (freeRule 0) (hdr0 5)
    canAdmit s (freeRule 0) (hdr0 5) = true ∧ (v.ring 0).map (fun g => (g.chain, g.freeing)) = some (false, true) ∧ v.fst.cw = []) := by decide +kernel
theorem witness_bufWrite_data : (let b := { bufReq0 2 with count := 526 }
    let v := vetted ringSt (writeRule b) (hdr0 5)
    canAdmit ringSt (writeRule b) (hdr0 5) = true ∧ (v.bufRing 2).map (·.1) = some 0 ∧ ((v.bufRing 2).bind fun p => v.fmt? p.2.fmt).isSome = true ∧ dmaBad b 525 ≠ none ∧
    (((v.bufRing 2).bind fun p => (v.fmt? p.2.fmt).map fun f => (v.dmaWrite (hdr0 5) (bufReq0 2) p.1 p.2 f []).ok (hdr0 5) 0).map State.inflight).any (decide <| · ≤ 16384)) := by
  decide +kernel
theorem witness_bufWrite : canAdmit ringSt (writeRule (bufReq0 2)) (hdr0 5) = true ∧ canAdmit chainRing (writeRule (bufReq0 0)) (hdr0 5) = true ∧
    canAdmit ringSt (writeRule (bufReq0 8191)) (hdr0 5) = true ∧ (vetted ringSt (writeRule (bufReq0 8191)) (hdr0 5)).buf 8191 = none ∧
    (let v := vetted ringSt (writeRule (bufReq0 2)) (hdr0 5)
    (v.buf 2).isSome = true ∧ v.writeDenied 2 = false ∧ (v.bufRing 2).isSome = true ∧ dmaBad (bufReq0 2) 525 = none ∧
    fitsYes (bufWriteBody (hdr0 5) (bufReq0 2) (some []) v) = true) ∧
    (let v := vetted chainRing (writeRule (bufReq0 0)) (hdr0 5)
    (v.buf 0).isSome = true ∧ v.writeDenied 0 = true) := by decide +kernel
theorem witness_bufRead : canAdmit ringSt (readRule (bufReq0 8191) false false) (hdr0 5) = true ∧ canAdmit ringSt (readRule (bufReq0 0) true false) (hdr0 5) = true ∧
    canAdmit ringSt (readRule (bufReq0 2) false false) (hdr0 5) = true ∧ (vetted ringSt (readRule (bufReq0 8191) false false) (hdr0 5)).readTarget 8191 false = none ∧
    (vetted ringSt (readRule (bufReq0 0) true false) (hdr0 5)).readTarget 0 true = none ∧ (let v := vetted ringSt (readRule (bufReq0 2) false false) (hdr0 5)
    fitsYes (bufReadBody (hdr0 5) (bufReq0 2) false false true v) = true) := by decide +kernel
/-- Writer 0 is attached to ring 0 and its source shows the ring's format. -/
def cwSt (c : Cw) : State := { ringSt.setCw 0 { c with ring := some 0 } with xpt := { ringSt.xpt with routes := [(344, ⟨5, 344⟩)] } }
theorem witness_cwFrameStart : ((cwSt {}).at_ 5).cwReady 0 = true ∧ ((cwSt {}).cw 0).st ≤ 1 ∧ ((cwSt {}).cw 0).ring = some 0 ∧
    ((cwSt {}).at_ 5).writeTarget 0 = some (0, false) := by decide +kernel
theorem witness_cwFrameStart_skip : (let s : State := { cwSt {} with fst := { (cwSt {}).fst with bufs := (cwSt {}).fst.bufs.map fun p => (p.1, { p.2 with readers := [.dma 0] }) } }
    (s.at_ 5).cwReady 0 = true ∧ (s.cw 0).ring = some 0 ∧ (s.at_ 5).writeTarget 0 = none) := by decide +kernel
theorem witness_cwResume : ((cwSt { st := 3 }).at_ 5).cwReady 0 = true ∧ ((cwSt { st := 3 }).cw 0).st = 3 := by decide +kernel
theorem witness_cwFrameComplete : (let s := cwSt { st := 1, filling := some 1 }
    (s.cw 0).filling = some 1 ∧ (((s.cw 0).ring.bind s.ring).bind fun g => s.fmt? g.fmt).isSome = true) := by decide +kernel
theorem witness_cwFrameComplete_route : (let s := cwSt { st := 1, filling := some 1 }
    s.route (344 + 0) = some ⟨5, 344⟩ ∧ (s.at_ 5).timeValid = false) := by decide +kernel
theorem witness_completeBuf : (let s := ringSt
    (s.buf 2).bind (·.ring) = some 0 ∧ (s.ring 0).isSome = true) := by decide +kernel
theorem test_cwFrameStart : (((after (exec (.cwFrameStart 0 [] 5) (cwSt {}))).cw 0).filling) = some 0 := by decide +kernel
/-- One buffer, in no ring. -/
def bufSt (b : Buf) : State := up0.setBuf 8191 b
theorem witness_bufferRefRelease : (bufSt { ring := none, grans := [1], freeing := true, readers := [.dma 4] }).buf 8191 =
    some { ring := none, grans := [1], freeing := true, readers := [.dma 4] } ∧ up0.stillHolds 8191 (.dma 4) = false := by decide
theorem witness_granuleListSwitch : (bufSt { ring := none, grans := [1], moved := some [2] }).buf 8191 = some { ring := none, grans := [1], moved := some [2] } := by decide
theorem witness_eccCorrected : ((tabGet [] up0.fst.corr 16383).filter (fun x => decide (5 < x + hour))).length + 1 < max 1 (up0.get R.FST_CTL F.FST_CTL_CORR_THRESH) := by decide
theorem witness_eccThreshold : (let s := { up0.set R.FST_CTL F.FST_CTL_CORR_THRESH 2 with fst := { up0.fst with corr := [(16383, [4])] } }
    max 1 (s.get R.FST_CTL F.FST_CTL_CORR_THRESH) ≤ ((tabGet [] s.fst.corr 16383).filter (fun x => decide (5 < x + hour))).length + 1) := by decide
theorem test_eccUncorrectable : (after (exec (.eccUncorrectable 16383 9 5) up0)).fst.badW = [(16383 * granBytes + 9) / 8] := by decide +kernel
theorem witness_patrolScrub : (up0.set R.FST_CTL F.FST_CTL_SCRUB_PERIOD 0).get R.FST_CTL F.FST_CTL_SCRUB_PERIOD = 0 ∧
    (bufSt { ring := none, grans := [1] }).get R.FST_CTL F.FST_CTL_SCRUB_PERIOD ≠ 0 ∧ 1 ∈ (bufSt { ring := none, grans := [1] }).usedGrans := by decide

/-- A context of ring 0. -/
def ctx0 : Ctx := { st := .running, inRing := 0, outRing := 1, outFmt := 0, outPix := 0, chain := false, work := [], par := {} }
def ctxSt (c : Nat) (x : Ctx) : State := (ringSt.set (R.CHE_CTL 0) F.CHE_CTL_EN 1).setCtx c x
/-- The conversion set of a CTX_PARAM. -/
def par0 : ConvSet := { conv0 with outFmt := 0, outDepth := 0 }
theorem witness_ctxAdmit : canAdmit (ctxSt 0 ctx0) (admitRule 0 0 0 conv0) (hdr0 5) = true ∧
    (let v := vetted (ctxSt 0 ctx0) (admitRule 0 0 0 conv0) (hdr0 5)
    (v.ring 0).any (fun g => decide (2 ≤ g.depth) && !g.freeing) = true ∧
    fitsYes (ctxAdmitBody (hdr0 5) 0 0 0 conv0 v) = true) := by decide +kernel
theorem witness_ctxAdmit_none : canAdmit (ctxSt 0 ctx0) (admitRule 2047 0 0 conv0) (hdr0 5) = true ∧ (vetted (ctxSt 0 ctx0) (admitRule 2047 0 0 conv0) (hdr0 5)).ring 2047 = none := by decide +kernel
theorem witness_ctxParam : canAdmit (ctxSt 0 ctx0) (paramRule 0 0 0 par0) (hdr0 5) = true ∧ canAdmit (ctxSt 0 ctx0) (paramRule 191 0 0 par0) (hdr0 5) = true ∧
    (vetted (ctxSt 0 ctx0) (paramRule 191 0 0 par0) (hdr0 5)).ctx 191 = none ∧ (let v := vetted (ctxSt 0 ctx0) (paramRule 0 0 0 par0) (hdr0 5)
    fitsYes (ctxParamBody (hdr0 5) 0 0 0 par0 v) = true) := by decide +kernel
theorem witness_ctxRelease : (∀ q ∈ [(false, 0), (false, 191), (true, 0)], canAdmit (ctxSt 0 ctx0) (releaseRule q.1 q.2) (hdr0 5) = true) ∧
    (vetted (ctxSt 0 ctx0) (releaseRule false 191) (hdr0 5)).ctx 191 = none ∧ (vetted (ctxSt 0 ctx0) (releaseRule true 0) (hdr0 5)).chainOf 0 = none ∧
    (let v := vetted (ctxSt 0 ctx0) (releaseRule false 0) (hdr0 5)
    v.ctx 0 = some ctx0 ∧ ((v.releaseCtx 0).ok (hdr0 5) 0).inflight ≤ 16384) ∧
    (vetted (ctxSt 0 { ctx0 with chain := true }) (releaseRule false 0) (hdr0 5)).ctx 0 = some { ctx0 with chain := true } ∧
    canAdmit (ctxSt 0 { ctx0 with chain := true }) (releaseRule false 0) (hdr0 5) = true := by decide +kernel
theorem witness_ctxAdmit_taken : (let v := vetted (ctxSt 0 ctx0) (admitRule 0 0 0 conv0) (hdr0 5)
    (match v.ring 0 with
      | none => false
      | some g => match v.convSpec g.fmt g.pix g.cdesc conv0 0 with
        | .error _ => false
        | .ok spec =>
          let r := Build.ctx { s := v } ⟨0, spec, false, none, none⟩
          let w := r.2.2.s.setDesc r.2.1 (presetDesc spec.par.preset g.cdesc spec.outPix)
          r.2.2.codes.isEmpty && (spec.luts.all fun l => !v.bankInUse (r.1 / 16) l.1) && (v.fitOf w == .fits)
            && decide ((w.ok (hdr0 5) (ctxResult w r.1 r.2.1)).inflight ≤ 16384)) = true) := by decide +kernel
theorem witness_ctxParam_taken : (let v := vetted (ctxSt 0 ctx0) (paramRule 0 0 0 par0) (hdr0 5)
    (match v.paramSpec ctx0 0 0 par0 with
      | .error _ => false
      | .ok q =>
        let b := v.paramBuild 0 ctx0 q.1 q.2 (maskBit 0 5) conv0.park
        b.codes.isEmpty && (q.2.all fun l => !v.bankInUse 0 l.1) && (v.fitOf b.s == .fits) && decide ((b.s.ok (hdr0 5) 0).inflight ≤ 16384)) = true) := by
  decide +kernel
/-- Unit 3 heads a chain; destination 328 is fed by it or not. -/
def headSt (fed : Bool) : State :=
  let s : State := { desc0 with fst := { desc0.fst with chains := [(3, { src := 344, cw := 0, ctx := none, capRing := 5, outRing := none, persist := false })] } }
  if fed then { s with xpt := { s.xpt with routes := [(328, ⟨2, 355⟩)] } } else s
theorem witness_chainRelease : canAdmit (headSt false) (releaseRule true 3) (hdr0 5) = true ∧ canAdmit (headSt true) (releaseRule true 3) (hdr0 5) = true ∧
    (let v := vetted (headSt true) (releaseRule true 3) (hdr0 5); (v.chainOf 3).isSome = true ∧ v.feeds (352 + 3) = true) ∧
    (let v := vetted (headSt false) (releaseRule true 3) (hdr0 5)
    (v.chainOf 3).isSome = true ∧ v.feeds (352 + 3) = false ∧ ((v.releaseChain 3).ok (hdr0 5) 0).inflight ≤ 16384) := by decide +kernel
theorem witness_orphanElsewhere : (let x : Ctx := { ctx0 with st := .orphan }
    let s := ((ctxSt 0 x).set (R.CHE_CTL 0) F.CHE_CTL_EN 0).set (R.CHE_CTL 1) F.CHE_CTL_EN 1 |>.at_ 5
    s.che.ctx.find? (fun p => p.2.st == .orphan) = some (0, x) ∧
    (s.bestEngine fun k => s.engOpen k && (k == 0 / 16 || (s.freeSlot k).isSome) &&
      decide ((((s.ctxFig x).map ChainFig.load4).getD 0 * 115 : Nat) ≤ s.engSpare k)) = some 1 ∧ s.freeSlot 1 = some 0 ∧
    s.fitOf ((s.setCtx 0 { x with st := .running, starting := true }).renumber 0 16) = .fits) := by decide +kernel
theorem witness_sliceStart_ready : (let x : Ctx := { ctx0 with active := true, inBuf := some 0 }
    let s := (ctxSt 0 x).at_ (10 ^ 13)
    let w := s.endAbandoned 0 (10 ^ 13)
    w.engCtxs 0 = [(0, x)] ∧ w.engRuns 0 = true ∧ (w.eng 0).run = none ∧ w.sliceReady x (10 ^ 13) = true) := by decide +kernel
theorem witness_sliceStart_begin : (let s := (ctxSt 0 ctx0).at_ (10 ^ 13)
    let s : State := { s with fst := { s.fst with rings := s.fst.rings.map fun p => (p.1, { p.2 with newest := some 0 }) } }
    let w := s.endAbandoned 0 (10 ^ 13)
    w.engCtxs 0 = [(0, ctx0)] ∧ w.engRuns 0 = true ∧ (w.eng 0).run = none ∧ w.sliceReady ctx0 (10 ^ 13) = true) := by decide +kernel
theorem witness_sliceEnd_abandon : ∀ x ∈ [{ ctx0 with active := true, abandon := true }, { ctx0 with active := true, stale := true }], (let s := (ctxSt 0 x).setEng 0 { up0.eng 0 with run := some (0, 0) }
    (s.eng 0).run = some (0, 0) ∧ s.ctx 0 = some x) := by decide +kernel
theorem witness_ctxBoundaries : (ctxSt 191 ctx0).ctx 191 = some ctx0 ∧ (ctxSt 191 ctx0).inSlice 191 = false ∧
    (ctxSt 191 { ctx0 with starting := true }).ctx 191 = some { ctx0 with starting := true } ∧
    (ctxSt 191 { ctx0 with nextSt := some .parked }).ctx 191 = some { ctx0 with nextSt := some .parked } ∧
    (ctxSt 191 { ctx0 with release := true }).ctx 191 = some { ctx0 with release := true } ∧
    (ctxSt 191 { ctx0 with st := .moving, moveTo := some 0 }).ctx 191 = some { ctx0 with st := .moving, moveTo := some 0 } := by decide +kernel
theorem witness_orphanReadmit : up0.che.ctx = [] ∧ (let x : Ctx := { ctx0 with st := .orphan }
    let s := (ctxSt 0 x).at_ 5
    s.che.ctx.find? (fun p => p.2.st == .orphan) = some (0, x) ∧
    (s.bestEngine fun k => s.engOpen k && (k == 0 / 16 || (s.freeSlot k).isSome) &&
      decide ((((s.ctxFig x).map ChainFig.load4).getD 0 * 115 : Nat) ≤ s.engSpare k)) = some (0 / 16) ∧
    s.fitOf (s.setCtx 0 { x with st := .running, starting := true }) = .fits) := by decide +kernel
theorem witness_sliceStart : (let x : Ctx := { ctx0 with active := true }
    let s := (ctxSt 0 x).at_ 5
    s.engCtxs 0 = [(0, x)] ∧ s.engRuns 0 = true ∧ (s.eng 0).run = none) := by decide +kernel
theorem witness_ctxParam_over : (let v := vetted (ctxSt 0 ctx0) (paramRule 0 0 0 par0) (hdr0 5)
    (match v.paramSpec ctx0 0 0 par0 with
      | .error _ => false
      | .ok q =>
        let b := v.paramBuild 0 ctx0 q.1 q.2 (maskBit 0 5) conv0.park
        ((List.range 12).all fun e => decide (b.s.engLoad4 e ≤ v.engLoad4 e)) && decide (b.s.fstBits ≤ v.fstBits) && decide (b.s.hsfBits ≤ v.hsfBits)
          && b.s.fst.bufs.length == v.fst.bufs.length) = true) := by decide +kernel
theorem witness_linesGone : (let s := ctxSt 0 { ctx0 with outBuf := some 1 }
    (s.ctx 0).bind (·.outBuf) = some 1 ∧ (s.buf 1).isSome = true ∧ (∀ p ∈ s.sou.unit, p.2.sel 1 ≠ some 1 ∧ p.2.sel 2 ≠ some 1 ∧ p.2.sel 3 ≠ some 1) ∧
    ((ctxSt 0 ctx0).ctx 0).map (·.outBuf) = some none) := by decide +kernel
theorem witness_sliceEnd : ((up0.setEng 11 { up0.eng 11 with run := some (191, 2) }).eng 11).run = some (191, 2) ∧
    (up0.setEng 11 { up0.eng 11 with run := some (191, 2) }).ctx 191 = none ∧ (let x : Ctx := { ctx0 with active := true, slice := 2 }
    let s := (ctxSt 0 x).setEng 0 { up0.eng 0 with run := some (0, 2) }
    (s.eng 0).run = some (0, 2) ∧ s.ctx 0 = some x ∧ (s.fmt? x.outFmt).isSome = true) := by decide +kernel
theorem witness_sliceDeadlineMiss : (let x : Ctx := { ctx0 with active := true }
    let s := ctxSt 0 x
    s.ctx 0 = some x ∧ (s.fmt? x.outFmt).any (fun f => decide (f.deadline x.frameAt x.slice ≤ 10 ^ 14)) = true ∧
    (let u := (((s.at_ (10 ^ 14)).inc (R.CHE_CTX_MISS (0 / 16) (0 % 16))).inc (R.CHE_MISS_CNT (0 / 16))).raise (Hist.che (0 / 16)) F.CHE_HIST_DEADLINE_MISS
    (u.linesGone 0 (0, 1)).ctx 0 = some x ∧ (u.linesGone 0 (0, 1)).engRuns (0 / 16) = true)) := by
  decide +kernel

/-! ### Scan-out units -/

def souSet0 : SouSet := { fmt := 0, cl1 := 10, cl2 := 20 }
/-- A record that gives the format alone. -/
def souData (fmt : Nat) : Option (List Byte) := some (le 80 (fmt * 2 ^ F.SOU_FMT_FORMAT.lo))
def souReq0 : SouReq :=
  { unit := 0, quad := 0xFF, free := false, commit := false, retune := false, synAuto := false, gTiming := true, gOutput := false, gL1 := false,
    gL2 := false, gL3 := false, addr := 64, data := souData 0 }
def unit0 : Machine.Unit := { alloc := true, run := true, active := souSet0, pending := souSet0, committed := true }
def souSt (u : Nat) (x : Machine.Unit) : State := timed ((desc0.setUnit u x).set (R.SYN_TS_STAT 0) F.SYN_TS_STAT_STATE 3)
/-- SOU_COMMIT of a unit. -/
def commitRule (u : Nat) : DescRule := { op := 0x41, rfn := 2, pay := [fld 16 1 u], sig := true }
def chainUnit (u : Nat) (s : State) : State :=
  { s with fst := { s.fst with chains := [(u, { src := 0, cw := 0, ctx := none, capRing := 5, outRing := none, persist := false })] } }

theorem witness_souCfg : canAdmit (souSt 0 unit0) (souRule souReq0) (hdr0 5) = true ∧ (let v := vetted (souSt 0 unit0) (souRule souReq0) (hdr0 5)
    (v.unit 0).alloc = true ∧ v.chainChange souReq0 = false ∧ fitsYes (souCfgBody (hdr0 5) souReq0 v) = true) := by decide +kernel
theorem witness_souCfg_free : (let r := { souReq0 with free := true }
    canAdmit (souSt 0 unit0) (souRule r) (hdr0 5) = true ∧ (let v := vetted (souSt 0 unit0) (souRule r) (hdr0 5)
    (v.unit 0).alloc = true ∧ v.chainOf 0 = none ∧ v.feeds (352 + 0) = false ∧ v.commits 0 = [] ∧ ((v.freeUnit 0).ok (hdr0 5) 0).inflight ≤ 16384)) := by
  decide +kernel
theorem witness_souCfg_bad : ∀ r ∈ [{ souReq0 with unit := 160 }, { souReq0 with quad := 4 }, { souReq0 with addr := 4 }, { souReq0 with addr := 4, gTiming := false }],
    canAdmit (souSt 0 unit0) (souRule r) (hdr0 5) = true ∧ (vetted (souSt 0 unit0) (souRule r) (hdr0 5)).chainChange r = false ∧
    r.reads = r.gTiming := by decide +kernel
theorem witness_souCfg_chain : (let r := { souReq0 with data := souData 1 }
    let v := vetted (chainUnit 0 (souSt 0 unit0)) (souRule r) (hdr0 5)
    canAdmit (chainUnit 0 (souSt 0 unit0)) (souRule r) (hdr0 5) = true ∧ (v.unit 0).alloc = true ∧ (v.chainOf 0).isSome = true ∧
    v.chainChange r = true) := by decide +kernel
/-- Every unit is allocated. -/
def souFull : State := { souSt 0 unit0 with sou := { unit := (List.range 160).map fun u => (u, unit0) } }
theorem witness_souCfg_full : (let r := { souReq0 with unit := 0xFF, gTiming := false }
    canAdmit souFull (souRule r) (hdr0 5) = true ∧
    (vetted souFull (souRule r) (hdr0 5)).souTarget r = none ∧ souFull.chainChange r = false) := by decide +kernel
theorem witness_souCfg_taken : (let v := vetted (souSt 0 unit0) (souRule souReq0) (hdr0 5)
    v.souTarget souReq0 = some 0 ∧ (match v.souCheck 0 (v.unit 0).pending souReq0 with
      | .ok x => v.fedCarry 0 x && (v.fitOf (v.setPending 0 x souReq0) == .fits)
      | .error _ => false) = true ∧ v.rfnFar (2 ^ 24 + 1) = true) ∧
    (let r := { souReq0 with data := souData 0x50 }
    let v := vetted (souSt 0 unit0) (souRule r) (hdr0 5)
    v.souTarget r = some 0 ∧ (match v.souCheck 0 (v.unit 0).pending r with
      | .ok _ => false
      | .error _ => true) = true) := by decide +kernel
/-- Unit 0 feeds SDI destination 0. -/
def souFed (u : Nat) (s : State) : State := { s with xpt := { s.xpt with routes := [(0, ⟨4, 352 + u⟩)] } }
theorem witness_souCfg_fed : (let v := vetted (souFed 0 (souSt 0 unit0)) (souRule souReq0) (hdr0 5)
    canAdmit (souFed 0 (souSt 0 unit0)) (souRule souReq0) (hdr0 5) = true ∧ v.feeds (352 + 0) = true ∧ v.fedCarry 0 { souSet0 with fmt := 34 } = false) := by decide +kernel
theorem witness_souCommit : canAdmit (souSt 159 unit0) (commitRule 159) (hdr0 5) = true ∧ (let v := vetted (souSt 159 unit0) (commitRule 159) (hdr0 5)
    (v.unit 159).alloc = true ∧ canAdmit (souSt 159 unit0) (commitRule 158) (hdr0 5) = true ∧ ((vetted (souSt 159 unit0) (commitRule 158) (hdr0 5)).unit 158).alloc = false ∧ (v.commitPoint 159 0 v.now).2 = false) ∧ (let v := vetted (souSt 159 unit0) (commitRule 159) (hdrAt (2 ^ 24 + 1) 5)
    canAdmit (souSt 159 unit0) (commitRule 159) (hdrAt (2 ^ 24 + 1) 5) = true ∧ v.rfnFar (2 ^ 24 + 1) = true) := by decide +kernel
theorem witness_souCommit_late : (let v := vetted (souSt 0 unit0) (commitRule 0) (hdrAt 1 (10 ^ 15))
    canAdmit (souSt 0 unit0) (commitRule 0) (hdrAt 1 (10 ^ 15)) = true ∧ v.rfnFar 1 = false ∧ (v.unit 0).alloc = true ∧ (v.commitPoint 0 1 v.now).2 = true) := by decide +kernel
/-- The size registers of user format 15 spell a legal raster. -/
def ufmtSt (m : Nat) : State :=
  (((((((up0.set (R.XPT_UFMT_SIZE m) F.XPT_UFMT_SIZE_TOTAL_SAMPLES 2200).set (R.XPT_UFMT_SIZE m) F.XPT_UFMT_SIZE_ACTIVE_WIDTH 1920).set
    (R.XPT_UFMT_LINES m) F.XPT_UFMT_LINES_TOTAL_LINES 1125).set (R.XPT_UFMT_LINES m) F.XPT_UFMT_LINES_ACTIVE_LINES 1080).set
    (R.XPT_UFMT_FIRST m) F.XPT_UFMT_FIRST_FIRST_F1 42).set (R.XPT_UFMT_MODE m) F.XPT_UFMT_MODE_RATE 0).set (R.XPT_UFMT_MODE m) F.XPT_UFMT_MODE_INTERLACED 0).set
    (R.XPT_UFMT_MODE m) F.XPT_UFMT_MODE_SWLINE 7
theorem witness_ufmtModeWrite : (ufmtSt 15).upFor (R.XPT_UFMT_MODE 15) ∧ ((ufmtSt 15).ufmtWritten 15).ok = true ∧ (ufmtSt 15).ufmtInUse (0x40 + 15) = false ∧
    (((ufmtSt 15).set (R.XPT_UFMT_MODE 15) F.XPT_UFMT_MODE_SWLINE 0).ufmtWritten 15).ok = false := by unfold State.upFor State.up; decide +kernel
theorem test_ufmtModeWrite : (tabFind (after (exec (.ufmtModeWrite 15 (7 * 4096)) (ufmtSt 15))).xpt.ufmt 15).map (·.activeWidth) = some 1920 := by decide +kernel
/-- A commit in flight for unit `u`. -/
def withCommit (c : CommitOp) (s : State) : State :=
  { s with host := { s.host with ops := [{ id := 1, dest := .ring 0, tag := 9, irq := false, result := 0, fwd := false, body := .commit c }] } }
def commit0 : CommitOp := { unit := 0, rfn := 0, due := 3, late := false, drop := false }
theorem witness_commitLatch : (let s := (withCommit commit0 (souSt 0 unit0)).at_ 5
    s.commits 0 = [(1, commit0)] ∧ s.windowClosed 0 commit0 = true ∧ s.ringLost (s.unit 0).pending = false) ∧
    (let s := (withCommit commit0 (souSt 0 { unit0 with pending := { souSet0 with l1 := { en := true, ring := 7 } } })).at_ 5
    s.ringLost (s.unit 0).pending = true) := by decide +kernel
theorem witness_commitLatch_moves : (let x : Machine.Unit := { unit0 with pending := { souSet0 with fmt := 1 } }
    let c := { commit0 with due := 10 ^ 14 }
    let s := (withCommit c (souSt 0 x)).at_ (10 ^ 14 - 1)
    let d := { c with due := s.latchDue 0 c }
    s.commits 0 = [(1, c)] ∧ s.windowClosed 0 c = true ∧ s.windowClosed 0 d = false) := by decide +kernel
theorem witness_commitExecute : (let c := { commit0 with latched := some (souSet0, false) }
    ((withCommit c (souSt 0 unit0)).at_ 5).commits 0 = [(1, c)] ∧ ((withCommit c (souSt 0 unit0)).at_ (10 ^ 13)).commitCome 0 c.due = true) := by decide +kernel
theorem witness_applyCommit : timingDiffers ((souSt 0 unit0).unit 0).active souSet0 = false ∧ (up0.unit 0).run = false := by decide +kernel
theorem witness_newTimingStart : (let x := { unit0 with newTiming := some (souSet0, false), frameEnd := 4 }
    ((souSt 159 x).unit 159).newTiming = some (souSet0, false) ∧ ((souSt 159 x).unit 159).frameEnd ≤ 5 ∧
    ((souSt 159 x).at_ 5).atFrame 159 souSet0 5 = true) := by decide +kernel
theorem witness_newTimingRetune : (let x := { unit0 with newTiming := some (souSet0, true), frameEnd := 4, retune := true }
    let s := souSt 0 x
    (s.unit 0).newTiming = some (souSet0, true) ∧ (s.unit 0).retune = true ∧ s.synState (0 / 40 * 4 + souSet0.syn) = 3 ∧
    (let y := { x with retune := false }; ((souSt 0 y).unit 0).run = true ∧ ((souSt 0 y).unit 0).gated = false ∧ ((souSt 0 y).unit 0).retune = false)) := by
  decide +kernel
theorem witness_souFrameStart : (let x := (souSt 159 unit0).unit 159
    x.run = true ∧ x.gated = false ∧ x.retune = false ∧ x.newTiming = none) := by decide +kernel
theorem witness_souResume : (let s := souSt 0 { unit0 with gated := true }
    (s.unit 0).gated = true ∧ s.inReset 8 0 = false ∧ s.synState (0 / 40 * 4 + (s.unit 0).active.syn) = 3 ∧ s.commits 0 = []) := by decide +kernel
theorem witness_sourceFrameSigned_unit : srcPort 352 = .sou 0 ∧
    (((souLayers ((souSt 0 unit0).unit 0).active).foldl (fun (v : State) (l : SouLayer) => v.catchUp l.ring 5) ((souSt 0 unit0).at_ 5)).srcGrid 352).isSome = true := by
  decide +kernel
/-- Unit 159 sends layer 1, ring 0, from a running synthesizer; `l` are its lines already short. -/
def lineSt (l : List (Nat × Nat)) : State :=
  (ringSt.setUnit 159 { unit0 with active := { souSet0 with l1 := { en := true, ring := 0 } }, under := l }).set (R.SYN_TS_STAT 12) F.SYN_TS_STAT_STATE 3
theorem witness_lineBuffer : ((lineSt []).souGrid 159).isSome = true ∧ (∃ l ∈ souLayers ((lineSt []).unit 159).active, l.en = true) ∧
    ((lineSt []).unit 159).under = [] ∧ ((lineSt [(3, 9)]).unit 159).under.find? (fun p => p.1 == 3) = some (3, 9) := by decide +kernel
theorem witness_urgency : (let s := lineSt []
    let full := 131072 * s.layerPitch (s.unit 159).active.l1 / max 1 (s.pitchSum (s.unit 159).active)
    let low := max 1 (min 99 (s.get (R.SOU_CTL 159) F.SOU_CTL_LOW_WM))
    let crit := min (max 1 (min 99 (s.get (R.SOU_CTL 159) F.SOU_CTL_CRIT_WM))) (low - 1)
    low * full ≤ 100 * full ∧ 100 * 0 < crit * full ∧ (crit * full ≤ 100 * (crit * full / 100 + 1) ∧ 100 * (crit * full / 100 + 1) < low * full)) := by decide +kernel
theorem test_lineUnderrun : ((after (exec (.lineUnderrun 159 3 5) (lineSt [(3, 9)]))).unit 159).under = [(3, 5)] := by decide +kernel
theorem test_fetchUrgency : (let t := after (exec (.fetchUrgencyChange 159 0 99 99) (lineSt []))
    (t.unit 159).urg1 = 2 ∧ t.get (R.SOU_HIST 159) F.SOU_HIST_CRITICAL = 1) := by decide +kernel

/-! ### Audio -/

/-- Host stream 0 is set up, and channel 0 of it has output slot 3, when `m` says so. -/
def audSt (m : Bool) : State :=
  let s := withRoute 328 desc0
  timed (if m then s.setSlot 3 { dst := audEp 5 0 0, live := true } else s)
def audMap0 : AudMapReq :=
  { dst := audEp 5 0 0, count := 1, src := 0, unmap := false, invert := false, lsOff := false, transp := false, law := false, gain := 0, delay := 0, fade := 0 }
def mapOp0 : MapOp := { req := audMap0, rfn := 0, exec := 4, late := false, drop := false, slots := [3] }
def audFade0 : AudFadeReq := { dst := audEp 5 0 0, count := 1, target := -600, linDb := true, dur := 480000 }
def audRule (a : AudMapReq) : DescRule := { op := 0x50, rfn := 2, pay := audMapPay a, sig := true, lv := (audSt true).lvEndpoint a.dst }
def fadeRule (a : AudFadeReq) : DescRule := { op := 0x51, rfn := 2, pay := audFadePay a, sig := true, lv := (audSt true).lvEndpoint a.dst }
def sapRule (r : SapReq) : DescRule := { op := 0x52, rfn := 0, pay := sapPay r }

theorem witness_audMap : canAdmit (audSt true) (audRule audMap0) (hdr0 5) = true ∧ (let v := vetted (audSt true) (audRule audMap0) (hdr0 5)
    fitsYes (audMapBody (hdr0 5) audMap0 v) = true) := by decide +kernel
theorem witness_audMap_bad : ∀ q ∈ [({ audMap0 with gain := 2401 }, 24), ({ audMap0 with count := 65 }, 19)],
    canAdmit (audSt true) (audRule q.1) (hdr0 5) = true ∧ (vetted (audSt true) (audRule q.1) (hdr0 5)).mapBad q.1 0 = some q.2 := by decide +kernel
theorem witness_audMap_taken : (let v := vetted (audSt true) (audRule audMap0) (hdr0 5)
    let p := v.claimRun 0 (runOf (audEp 5 0 0) 1) ([], [])
    let w := (p.2.addOp (hdr0 5) 0 (.map { mapOp0 with exec := (v.audExec 0).1, late := (v.audExec 0).2, slots := p.1.1, srcs := v.mapSources audMap0 })).2
    v.mapBad audMap0 0 = none ∧ audMap0.unmap = false ∧ v.mapShort w p.1.2 = [] ∧ v.fitOf w = .fits ∧ (v.audExec 0).2 = false ∧ w.trimAudio.inflight ≤ 16384) := by
  decide +kernel
theorem witness_audMap_short : (let s := audSt true
    let s : State := { s with fst := { s.fst with fencedP := List.range 64 } }
    let v := vetted s (audRule { audMap0 with delay := 96000 }) (hdr0 5)
    let p := v.claimRun 96000 (runOf (audEp 5 0 0) 1) ([], [])
    v.mapBad { audMap0 with delay := 96000 } 0 = none ∧ (v.mapShort p.2 p.1.2).min?.any (fun c => decide (c ≤ 6)) = true) := by decide +kernel
theorem witness_audFade : (let v := vetted (audSt true) (fadeRule audFade0) (hdr0 5)
    (v.audExec 0).2 = false ∧ v.dstRunOk (audEp 5 0 0) 1 = true ∧ v.mapped (audEp 5 0 0) = true ∧ runOf (audEp 5 0 0) 1 = [audEp 5 0 0] ∧
    gainOk (-600) = true ∧ gainOk 2401 = false) ∧ (let v := vetted (audSt true) (fadeRule audFade0) (hdrAt 1 (10 ^ 15))
    canAdmit (audSt true) (fadeRule audFade0) (hdrAt 1 (10 ^ 15)) = true ∧ (v.audExec 1).2 = true ∧ v.rfnFar 1 = false) := by decide +kernel
def sapReq0 : SapReq :=
  { port := 15, en := true, master := false, rate96 := false, mode := 2, slots := 32, slotBits := 32, dataBits := 24, bitDelay := true, fsWidth := 0,
    bclkEdge := false, syn := 0 }
theorem witness_sapCfg : canAdmit desc0 (sapRule sapReq0) (hdr0 5) = true ∧ canAdmit desc0 (sapRule { sapReq0 with port := 16 }) (hdr0 5) = true ∧ (let v := vetted desc0 (sapRule sapReq0) (hdr0 5)
    v.sapHeld sapReq0 = false ∧ v.sapBad sapReq0 = none ∧ v.sapBad { sapReq0 with port := 16 } = some 16) ∧ (let v := vetted (desc0.setSlot 3 { dst := audEp 3 15 0 }) (sapRule sapReq0) (hdr0 5)
    v.sapHeld sapReq0 = true ∧ canAdmit (desc0.setSlot 3 { dst := audEp 3 15 0 }) (sapRule sapReq0) (hdr0 5) = true) := by decide +kernel
theorem test_sapCfg : (after (exec (.sapCfg (hdr0 5) sapReq0) (load desc0 (sapRule sapReq0) (hdr0 5)))).get (R.SAP_CTL 15) F.SAP_CTL_SLOTS_M1 = 31 := by decide +kernel
theorem witness_gecko : (let s := audSt true
    let s : State := { s with aud := { s.aud with hist := [(audEp 5 0 1, [-2 ^ 23])], slots := [(3, { dst := audEp 5 0 0, src := { ep := audEp 5 0 1 } })] } }
    let x : Slot := { dst := audEp 5 0 0, src := { ep := audEp 5 0 1 } }
    tabFind s.aud.slots 3 = some x ∧ x.rate96 = false ∧ s.outClk x.dst = none ∧ s.transparent x = false ∧ x.fade = none ∧ x.ramp = none ∧ x.gain = 0 ∧ x.invert = false ∧ s.userDelay x = 0 ∧ epClass x.dst ≠ 3 ∧ s.dstBitsOf x.dst = 24 ∧
    s.readRef x.src 0 = -2 ^ 23 * 2 ^ 24) := by decide +kernel
theorem witness_gecko_transparent : (let s := audSt true
    let x : Slot := { dst := audEp 5 0 0, src := { ep := audEp 3 15 0 }, transp := true }
    s.transparent x = true ∧ s.srcLocked x.src.ep = false ∧ s.outClk x.dst = none ∧ x.rate96 = false ∧ tabFind (s.setSlot 3 x).aud.slots 3 = some x) ∧
    (∀ st ∈ [ClkState.lost, .acquire], ((up0.setClk 15 { st := st }).outClk (audEp 3 15 0)).map (·.st) = some st) := by decide +kernel
theorem test_filterAt : filterAt [5, 7] 100000000 = 7 * 2 ^ 24 := by decide +kernel
theorem witness_rampGain : ({ from_ := -600, goal := 0, pos := 0, len := 9, linDb := true, op := none } : Ramp).pos = 0 := by decide
/-- One operation in flight. -/
def withOp (b : OpBody) (s : State) : State :=
  { s with host := { s.host with ops := [{ id := 1, dest := .ring 0, tag := 9, irq := false, result := 0, fwd := false, body := b }] } }
theorem witness_mapExecute : ((withOp (.map mapOp0) (audSt true)).at_ 5).maps = [(1, mapOp0)] := by decide +kernel
theorem witness_matrixSample : (audSt true).fades = [] ∧ (audSt true).aud.slots = [(3, { dst := audEp 5 0 0, live := true })] ∧ (audSt true).aud.paths = [] ∧ (audSt true).dst96 (audEp 5 0 0) = false ∧ srcKey (audEp 5 0 0) = none ∧ [3].contains 4 = false := by decide +kernel
theorem witness_lipsync : (let s := chainUnit 159 (ringSt.setUnit 159 { unit0 with sel1 := some 1 })
    let s : State := { s with aud := { s.aud with paths := [(159, { eps := [], short := false })] } }
    let s := s.setBuf 1 { ring := some 0, grans := [], done := 1 }
    ((s.at_ 5).chainOf 159).isSome = true ∧ tabFind s.aud.paths 159 = some { eps := [], short := false } ∧ ((s.unit 159).sel1.bind s.buf).map (·.done) = some 1 ∧
    (let d := min 96000 ((((s.at_ (10 ^ 12)).nsNow - 0 - (s.at_ (10 ^ 12)).audIn 0) * 48000 + 500000000) / 1000000000)
     0 + s.lsJump < d)) := by decide +kernel
theorem witness_clocks : (up0.setClk (audKey (.sap 15)) {}).clk (audKey (.sap 15)) = {} ∧
    ((up0.set (R.SAP_CTL 15) F.SAP_CTL_EN 1).set (R.SAP_CTL 15) F.SAP_CTL_MASTER 0).audUp (.sap 15) = true ∧
    (up0.setClk (audKey (.ip 1023)) { st := .acquire }).clk (audKey (.ip 1023)) = { st := .acquire } ∧
    (up0.setClk (audKey (.sdi 71)) { st := .steered }).clk (audKey (.sdi 71)) = { st := .steered } ∧
    (up0.setClk (audKey (.aesi 15)) { st := .wide }).clk (audKey (.aesi 15)) = { st := .wide } ∧
    (up0.setClk (audKey (.aesi 0)) { st := .locked }).clk (audKey (.aesi 0)) = { st := .locked } := by decide
theorem witness_clockLost : ({ st := .steered } : Clk).st ≠ .lost ∧ ({ st := .steered } : Clk).st ≠ .master ∧ (200000 : Int).natAbs ≤ 1000000 := by decide
theorem test_fifoSlip : (after (exec (.fifoSlip (.sap 15) true) (up0.setClk 15 { st := .wide }))).rd (R.SAP_SLIP_CNT 15) = 1 := by decide +kernel
theorem test_clocks : (after (exec (.clockWide (.sap 15) 20001) (up0.setClk 15 { st := .steered }))).get (R.SAP_HIST 15) F.SAP_HIST_STEER_LIMIT = 1 := by decide
theorem witness_sapMask : (up0.wr (R.SAP_RX_MASK 15) 5).rd (R.SAP_RX_MASK 15) ≠ (up0.wr (R.SAP_RX_MASK 15) 5).rxMask 15 := by decide
theorem witness_sapFrameErr : (up0.set (R.SAP_CTL 15) F.SAP_CTL_EN 1).flag (R.SAP_CTL 15) F.SAP_CTL_EN = true := by decide
/-- A channel-status block with its CRC. -/
def csBlock : List Nat := 2 :: List.replicate 22 0
theorem witness_aesCsBlock : (let s := (up0.set (R.AESI_CTL 15) F.AESI_CTL_EN 1).setClk (16 + 15) { st := .locked }
    s.flag (R.AESI_CTL 15) F.AESI_CTL_EN = true ∧ (s.clk (16 + 15)).st ≠ .lost) ∧ (csBlock ++ [aesCrc csBlock]).length = 24 ∧
    aesCrc ((csBlock ++ [aesCrc csBlock]).take 23) = ((csBlock ++ [aesCrc csBlock])[23]?).getD 0 ∧ csBlock.length ≠ 24 := by decide +kernel
theorem test_aesCsBlock : ((after (exec (.aesCsBlock 15 (csBlock ++ [aesCrc csBlock])) ((up0.set (R.AESI_CTL 15) F.AESI_CTL_EN 1).setClk (16 + 15) { st := .locked }))).get
    (R.AESI_STAT 15) F.AESI_STAT_NONAUDIO) = 1 := by decide +kernel
theorem witness_aesoEnWrite : up0.upFor (R.AESO_CTL 15) ∧ up0.synForAudio (15 / 4 * 4 + 1 / 4 % 4) = true ∧
    (up0.set (R.SYN_TS_CTL 12) F.SYN_TS_CTL_ABSORB 1).synForAudio (15 / 4 * 4 + 1 / 4 % 4) = false := by unfold State.upFor State.up; decide +kernel
theorem witness_aesParity : (up0.set (R.AESI_CTL 15) F.AESI_CTL_EN 1).flag (R.AESI_CTL 15) F.AESI_CTL_EN = true := by decide

/-! ### References -/

/-- Input `i` is enabled and in state `st`. -/
def inSt (i st : Nat) : State := (up0.set (R.REF_IN_CFG i) F.REF_IN_CFG_EN 1).set (R.REF_IN_STAT i) F.REF_IN_STAT_STATE st
theorem witness_refIns : (inSt 7 0).upFor (R.REF_IN_CFG 7) ∧ (inSt 1 1).upFor (R.REF_IN_CFG 1) ∧ (inSt 7 0).upFor R.REF_QUAL ∧ (inSt 7 0).upFor R.REF_CTL ∧ (inSt 7 0).inSt 7 = 0 ∧ (inSt 7 3).inSt 7 = 3 ∧ (inSt 1 1).inSt 1 = 1 ∧ (inSt 1 1).actOk 1 0x12 = true ∧
    (∀ k < 8, (inSt 7 0).inSt k ≠ 2) := by unfold State.upFor State.up; decide +kernel
theorem witness_refQualified : (inSt 7 2).inSt 7 = 2 ∧ (0 : Int).natAbs ≤ (inSt 7 2).qualPpm ∧ ((inSt 7 2).refIn 7).since + (inSt 7 2).qualTime ≤ 10 ^ 16 ∧
    (inSt 7 2).qualPpm < (200000 : Int).natAbs := by decide
/-- A measurement of an input: `f` thousandths of a ppb and the time base's reading at its frame start or second. -/
def meas (f : Int) : RefMeas := { freq := f, obs := some 0 }
theorem witness_refMeasured : ((inSt 7 2).freqOf (meas 0)).natAbs ≤ (inSt 7 2).qualPpm ∧ (inSt 7 2).qualPpm < ((inSt 7 2).freqOf (meas 200000001)).natAbs ∧
    (inSt 2 2).phaseOf 2 (meas 0) = none ∧ (inSt 3 2).phaseOf 3 (meas 0) = some 0 ∧ (inSt 4 2).phaseOf 4 (meas 0) = some 0 ∧
    (inSt 3 2).phaseOf 3 { freq := 0, obs := none } = none := by decide +kernel
theorem test_refQualified : (after (exec (.refQualified 3 (meas 0) none (10 ^ 16)) (inSt 3 2))).inSt 3 = 4 := by decide +kernel
theorem test_refPhase : (after (exec (.refQualified 3 { freq := 0, obs := some (-5 * ticksPerNs) } none (10 ^ 16)) (inSt 3 2))).rd (R.REF_IN_PHASE 3) = 5 := by decide +kernel
theorem witness_refDisqualified : (inSt 7 3).inSt 7 = 3 ∧ (inSt 7 4).inSt 7 = 4 ∧ 3 ≤ (inSt 7 3).inSt 7 ∧ (inSt 7 2).inSt 7 = 2 := by decide
theorem witness_requalify : (let w := (inSt 7 2).wr (R.REF_IN_FREQ 7) 200001
    w.inSt 7 = 2 ∧ w.qualPpm < (w.rdInt (R.REF_IN_FREQ 7)).natAbs) ∧ (let w := (inSt 7 2).at_ (10 ^ 16)
    w.inSt 7 = 2 ∧ (w.rdInt (R.REF_IN_FREQ 7)).natAbs ≤ w.qualPpm ∧ (w.refIn 7).since + w.qualTime ≤ w.now) := by decide +kernel
theorem witness_wtrExpired : (inSt 7 3).inSt 7 = 3 ∧ (inSt 7 3).suspect 7 = false ∧ ((inSt 7 3).at_ 5).wtrLeft 7 = 0 := by decide
theorem test_refQualWrite : (let t := after (exec (.refQualWrite 0 7000 5) up0)
    t.get R.REF_QUAL F.REF_QUAL_QUAL_PPM = 1 ∧ t.get R.REF_QUAL F.REF_QUAL_QUAL_TIME = 6000) := by decide
theorem witness_refSuspect : 2 ≤ (inSt 7 4).inSt 7 ∧ (inSt 7 4).suspect 7 = false ∧ (inSt 7 4).selected ≠ 7 ∧
    ((inSt 7 4).set (R.REF_IN_STAT 7) F.REF_IN_STAT_SUSPECT 1).suspect 7 = true := by decide
/-- Input 7 is the selected one, of priority 1, suspect if `sus`. -/
def selIn (sus : Nat) : State :=
  ((((inSt 7 5).set R.REF_STAT F.REF_STAT_STATE 2).set R.REF_STAT F.REF_STAT_SELECTED 7).set (R.REF_IN_CFG 7) F.REF_IN_CFG_PRIO 1).set
    (R.REF_IN_STAT 7) F.REF_IN_STAT_SUSPECT sus
/-- With input 6 available at priority `p`. -/
def other6 (p : Nat) (s : State) : State := (s.set (R.REF_IN_STAT 6) F.REF_IN_STAT_STATE 4).set (R.REF_IN_CFG 6) F.REF_IN_CFG_PRIO p
theorem witness_refSuspect_selected : (selIn 0).inSt 7 = 5 ∧ (selIn 0).suspect 7 = false ∧ (selIn 0).selected = 7 ∧ (selIn 0).forced = false ∧
    ((selIn 0).set R.REF_CTL F.REF_CTL_MODE 1).forced = true ∧ ((selIn 0).at_ 5).trkTime = 0 ∧ (selIn 0).bestIn = none ∧ (other6 2 (selIn 0)).bestIn = some 6 := by decide +kernel
theorem test_refSuspect : (after (exec (.refSuspect 7 0 2500 5) (other6 2 (selIn 0)))).swTarget = 6 := by decide +kernel
theorem witness_refSuspectClear : (let s := ((other6 2 (selIn 1)).set R.REF_STAT F.REF_STAT_PENDING 1).set R.REF_STAT F.REF_STAT_TARGET 6
    s.suspect 7 = true ∧ s.selected = 7 ∧ s.inSt 7 = 5 ∧ s.pendingSw = true ∧ s.forced = false ∧ s.ranksAbove s.swTarget 7 = false) := by decide +kernel
theorem witness_prioDecide : (let w := (other6 1 (selIn 0)).set (R.REF_IN_CFG 7) F.REF_IN_CFG_PRIO 3
    let w := w.set (R.REF_IN_CFG 6) F.REF_IN_CFG_REVERT 1
    w.forced = false ∧ w.lifecycle ≠ 4 ∧ w.selected ≠ 15 ∧ w.revertive = [6] ∧ (w.set R.SEC_STAT F.SEC_STAT_LIFECYCLE 4).lifecycle = 4 ∧
    (let x := ((w.set (R.REF_IN_STAT 5) F.REF_IN_STAT_STATE 4).set (R.REF_IN_CFG 5) F.REF_IN_CFG_PRIO 1).set (R.REF_IN_CFG 5) F.REF_IN_CFG_REVERT 0
     let x := x.set (R.REF_IN_CFG 6) F.REF_IN_CFG_PRIO 2
     x.reselect.pendingSw = false ∧ x.revertive = [6] ∧ 6 ∉ ([] : List Nat))) := by decide +kernel
theorem witness_forceDecide : (let w := ((selIn 0).set R.REF_CTL F.REF_CTL_MODE 1).set R.REF_CTL F.REF_CTL_FORCE_IN 7
    w.lifecycle ≠ 4 ∧ w.forced = true ∧ w.forceIn < 8 ∧ w.selected = w.forceIn ∧ (let x := w.set R.REF_CTL F.REF_CTL_FORCE_IN 6
    x.selected ≠ x.forceIn ∧ x.pendingSw = false ∧ (let y := (x.set R.REF_STAT F.REF_STAT_PENDING 1).set R.REF_STAT F.REF_STAT_TARGET 6
    y.pendingSw = true ∧ y.swTarget = y.forceIn ∧ y.selected ≠ y.forceIn))) := by decide +kernel
theorem witness_refQualified_sec : ((inSt 4 2).freqOf (meas 0)).natAbs ≤ (inSt 4 2).qualPpm ∧ ((inSt 4 2).refIn 4).since + (inSt 4 2).qualTime ≤ 10 ^ 16 ∧
    (inSt 4 2).inSt 4 = 2 ∧ (let w := (inSt 4 2).setRefIn 4 { failed := true }
    (w.refIn 4).failed = true ∧ w.get R.REF_WTR F.REF_WTR_WTR ≠ 0 ∧ w.selSt ≠ 3) := by decide +kernel
theorem witness_trackBw : firstAt 0 (rateD up0.leapRate) 1 ≠ 1 ∧ firstAt 0 (rateD (selIn 0).leapRate) 0 = 0 ∧ (selIn 0).selSt = 2 := by decide +kernel
theorem witness_refSwitch : (let s := (((inSt 7 4).set R.REF_STAT F.REF_STAT_PENDING 1).set R.REF_STAT F.REF_STAT_TARGET 7)
    let s : State := { s with ref := { s.ref with bAt := some 3 } }
    s.pendingSw = true ∧ s.ref.bAt = some 3 ∧ s.swTarget = 7 ∧ s.inSt s.swTarget = 4 ∧ s.forced = false ∧
    (s.set (R.REF_IN_CFG 7) F.REF_IN_CFG_PRIO 1).prio (s.set (R.REF_IN_CFG 7) F.REF_IN_CFG_PRIO 1).swTarget ≠ 0 ∧
    (s.set R.REF_CTL F.REF_CTL_MODE 1).forced = true ∧ firstAt 0 (rateD s.leapRate) (3 * rateD s.leapRate) = 3 * rateD s.leapRate) := by decide +kernel
/-- The selector is in state `st`. -/
def selSt (st : Nat) : State := ((inSt 7 4).set R.REF_STAT F.REF_STAT_STATE st).set R.REF_STAT F.REF_STAT_SELECTED 7
theorem witness_selector : (selSt 1).selSt = 1 ∧ (selSt 1).selected ≠ 15 ∧ (selSt 2).selSt = 2 ∧ (selSt 2).suspect (selSt 2).selected = false ∧ (selSt 3).selSt = 3 := by decide
theorem witness_holdLimit : (let s := (selSt 3).wr R.REF_HOLD_LIMIT 5
    s.ref.limHit = false ∧ ((s.at_ 5).senseTemp 2500).pastLimit = true) := by decide +kernel
theorem test_holdoverUpdate : (after (exec (.holdoverUpdate 2500 5) (selSt 3))).get R.REF_TEMP F.REF_TEMP_TEMP = 2500 := by decide +kernel
theorem witness_ageingDaily : (selSt 2).ref.daily.length < max 7 (min 365 ((selSt 2).get R.REF_AGE_DAYS F.REF_AGE_DAYS_AGE_DAYS)) := by decide
theorem witness_todWrite : up0.ptpQualified = false ∧ (inSt 4 4).ptpQualified = true ∧ (inSt 4 4).upFor R.REF_TOD_SEC_HI ∧ up0.upFor R.REF_TOD_SEC_HI := by unfold State.upFor State.up; decide +kernel
theorem witness_todApply : (let s : State := { up0 with ref := { up0.ref with todPend := some 9 } }
    s.ref.todPend = some 9 ∧ 2 * ticksPerSec % ticksPerSec = 0 ∧ 7 % ticksPerSec ≠ 0 ∧ s.ptpQualified = false ∧ s.timeValid = false ∧
    (timed s).timeValid = true ∧ { inSt 4 4 with ref := s.ref }.ptpQualified = true) := by decide
theorem witness_fpPulse : (let s := up0.set (R.REF_FP_CFG 7) F.REF_FP_CFG_EN 1
    s.flag (R.REF_FP_CFG 7) F.REF_FP_CFG_EN = true ∧ ((0 : Nat) - s.fpOfs 7 : Int) % (rateD (s.get (R.REF_FP_CFG 7) F.REF_FP_CFG_RATE) : Int) = 0 ∧
    s.lifecycle ≠ 4 ∧ s.ref.fpLast = [] ∧ 0 < (3 : Nat) + 9 + s.fpWidth 7 ∧
    tabFind ({ s with ref := { s.ref with fpLast := [(7, ⟨3, 9, true⟩)] } } : State).ref.fpLast 7 = some ⟨3, 9, true⟩) ∧
    up0.flag (R.REF_FP_CFG 7) F.REF_FP_CFG_EN = false ∧ up0.ref.fpLast = [] := by decide +kernel

/-! ### Timing synthesizers -/

/-- Synthesizer 15 in state `st`, with the rest of its state as given. -/
def synSt (st : Nat) (x : Syn) : State := (up0.set (R.SYN_TS_STAT 15) F.SYN_TS_STAT_STATE st).setSyn 15 x
theorem witness_synStates : (synSt 1 {}).synState 15 = 1 ∧ ((synSt 1 {}).syn_ 15).preload = false ∧ (synSt 2 {}).synState 15 = 2 ∧ (synSt 3 {}).synState 15 = 3 ∧
    (synSt 4 { gatedBy := 1 }).synState 15 = 4 ∧ ((synSt 4 { gatedBy := 1 }).syn_ 15).gatedBy = 1 ∧ ((synSt 4 { gatedBy := 2 }).syn_ 15).gatedBy = 2 := by decide
/-- The control register of synthesizer `n` as a write of `v` leaves it. -/
def synCtlSt (s : State) (n v t : Nat) : State :=
  ((((((s.at_ t).set (R.SYN_TS_CTL n) F.SYN_TS_CTL_MULT (v / 256)).set (R.SYN_TS_CTL n) F.SYN_TS_CTL_FAMILY (v / 16)).set (R.SYN_TS_CTL n)
    F.SYN_TS_CTL_PRELOAD (v / 8)).set (R.SYN_TS_CTL n) F.SYN_TS_CTL_ABSORB (v / 4)).set (R.SYN_TS_CTL n) F.SYN_TS_CTL_EN v)
theorem witness_synCtlWrite : up0.upFor (R.SYN_TS_CTL 15) ∧ (souSt 0 unit0).upFor (R.SYN_TS_CTL 0) ∧ (synCtlSt up0 15 1 5).inReset 6 15 = false ∧ (synCtlSt up0 15 1 5).synUsers 15 = 0 ∧ (synCtlSt up0 15 1 5).synState 15 = 0 ∧
    1 % 2 = 1 ∧ 1 / 4 % 2 = 0 := by unfold State.upFor State.up; decide +kernel
theorem witness_synCtlWrite_users : (let w := synCtlSt (souSt 0 unit0) 0 (16 + 1) 5
    w.synUsers 0 ≠ 0 ∧ famCode ((16 + 1) / 16 % 4) ≠ w.synFam 0 ∧ w.inReset 6 0 = false) := by decide +kernel
theorem witness_synCtlWrite_more : (let w := synCtlSt (souSt 0 unit0) 0 0 5
    w.synUsers 0 ≠ 0 ∧ 0 % 2 = 0 ∧ w.synState 0 ≠ 0) ∧ (let w := synCtlSt up0 15 0 5
    w.synUsers 15 = 0 ∧ 0 / 4 % 2 = 0 ∧ w.inReset 6 15 = false) ∧ (let w := synCtlSt (up0.set (R.RST_BLK_STAT 6 15) F.RST_BLK_STAT_IN_RESET 1) 15 0 5
    w.inReset 6 15 = true) ∧ (let w := synCtlSt (up0.set (R.SAP_CTL 15) F.SAP_CTL_EN 1 |>.set (R.SAP_CTL 15) F.SAP_CTL_MASTER 1) 12 4 5
    4 / 4 % 2 = 1 ∧ w.synAudio 12 ≠ 0) := by decide +kernel
theorem witness_synPreload : ((synSt 1 { preload := true }).syn_ 15).preload = true ∧ (synSt 1 {}).bandUsable 15 0 0 = none ∧
    ((((synSt 1 {}).bandPut 15 0 0 5 6)).bandUsable 15 0 0).isSome = true := by decide +kernel
theorem witness_synStep : ((synSt 3 {}).syn_ 15).stepAt = none ∧ ((synSt 3 { stepAt := some 4, step := 7 }).syn_ 15).stepAt = some 4 ∧ 3 < 4 ∧
    ((synSt 3 { absorb := true }).syn_ 15).absorb = true ∧ ((synSt 3 { seg := some 1 }).syn_ 15).seg.isSome = true := by decide
theorem witness_lockFails : (let s := (synSt 3 {}).at_ (10 ^ 9)
    s.lockFails 15 [-9999, 9999, 9999, 9999] = true ∧ s.lockFails 15 [] = false ∧ 1000 < 4 * (9999 : Int).natAbs ∧ s.synFam 15 = 0 ∧
    s.flag (R.SYN_TS_STAT 15) F.SYN_TS_STAT_DLL = false ∧ ((synSt 3 { passed := some 5 }).syn_ 15).passed = some 5) := by decide +kernel
theorem witness_synLocked : ((synSt 2 { fromGate := true }).syn_ 15).fromGate = true ∧ ((synSt 2 {}).syn_ 15).fromGate = false ∧
    (synSt 0 {}).synState 15 = 0 ∧ (synSt 1 { clamp := some 5 }).clampHolds 15 0 5 = true ∧ (synSt 1 {}).clampHolds 15 0 5 = false := by decide +kernel
theorem witness_rampBoth : (0xC0000000 : Word).getLsbD 30 = true ∧ (0xC0000000 : Word).getLsbD 31 = true := by decide
theorem witness_absorbDone : (let s := (synSt 3 { absorb := true }).wr (R.SYN_TS_RESIDUAL 15) 1000
    s.absMax 15 1000 ≠ 0 ∧ (s.at_ (10 ^ 18)).absorbing 15 = true ∧ s.synBase 15 = 1000 ∧
    absorbLen 1000 (s.syn_ 15).absOfs (s.absMax 15 1000) (s.absSlope 15) ≤ (10 ^ 18 - (s.syn_ 15).absAt) / 2376) := by decide +kernel
theorem witness_rampGo : (let w := ((synSt 3 {}).at_ 5).set (R.SYN_TS_RAMP 15) F.SYN_TS_RAMP_LAST (0 % 8)
    w.goRefused 15 (0 % 8) = false) ∧ (let w := ((synSt 2 {}).at_ 5).set (R.SYN_TS_RAMP 15) F.SYN_TS_RAMP_LAST (7 % 8)
    w.goRefused 15 (7 % 8) = true) := by decide +kernel
theorem witness_rampEnd : (let x : Syn := { seg := some 2, segSlope := 1 }
    (((synSt 3 x).syn_ 15).seg = some 2 ∧ segLen x.segOfs x.segTgt x.segSlope ≤ (5 - x.segAt) / 2376 ∧
    ((synSt 3 { x with todo := [(0, 5)] }).syn_ 15).todo = [(0, 5)] ∧ x.todo = [])) ∧ up0.upFor (R.SYN_TS_RAMP 15) := by
  unfold State.upFor State.up; decide +kernel
theorem test_synLockLoss : (after (exec (.synLockLoss 15 [9999, 9999, -9999, 9999] (10 ^ 9)) (synSt 3 {}))).get (R.SYN_TS_HIST 15) F.SYN_TS_HIST_LOCK_LOST = 1 := by decide +kernel

/-! ### Host rings -/

/-- Ring 63 in state `st`, with 16 entries each way. -/
def ringSt' (st : Nat) : State :=
  ((up0.set (R.RNG_STAT 63) F.RNG_STAT_STATE st).set (R.RNG_SIZE 63) F.RNG_SIZE_SQ_LOG2 4).set (R.RNG_SIZE 63) F.RNG_SIZE_CQ_LOG2 4
theorem witness_ringEnable : (ringSt' 0).hostUp = true ∧ State.reset.hostUp = false ∧ (ringSt' 0).host.dmaOff = false ∧ (ringSt' 0).persona ≠ 1 ∧ (ringSt' 0).lifecycle ≠ 4 ∧ (ringSt' 0).ringSt 63 = 0 ∧
    (ringSt' 0).get (R.RNG_SIZE 63) F.RNG_SIZE_SQ_LOG2 = 4 ∧ (ringSt' 0).get (R.RNG_SIZE 63) F.RNG_SIZE_CQ_LOG2 = 4 ∧
    ((ringSt' 0).set R.LVP_STAT F.LVP_STAT_PERSONA 1).persona = 1 ∧ ((ringSt' 0).set (R.RNG_SIZE 63) F.RNG_SIZE_CQ_LOG2 17).get (R.RNG_SIZE 63) F.RNG_SIZE_CQ_LOG2 = 17 := by decide
theorem witness_rings : (ringSt' 1).upFor (R.RNG_CTL 63) ∧ (ringSt' 3).upFor (R.RNG_CTL 63) ∧ (ringSt' 1).ringSt 63 = 1 ∧ (ringSt' 3).ringSt 63 = 3 ∧ (ringSt' 3).outstanding 63 = 0 ∧ (ringSt' 1).sqSize 63 = 16 := by
  unfold State.upFor State.up; decide +kernel
theorem witness_cqHeadWrite : (let s := (ringSt' 1).setRst 63 { cqHead := 14, unread := 3 }
    s.ringSt 63 ≠ 0 ∧ 1 < s.cqSize 63 ∧ 1 ≠ (s.rst_ 63).cqHead ∧ (s.rst_ 63).cqHead < s.cqSize 63 ∧ (1 + s.cqSize 63 - (s.rst_ 63).cqHead) % s.cqSize 63 ≤ (s.rst_ 63).unread) := by decide
theorem witness_cqHeadWrite_far : (let s := (ringSt' 1).setRst 63 { cqHead := 14, unread := 3 }
    s.ringSt 63 = 1 ∧ s.cqSize 63 ≤ 16 ∧ (s.rst_ 63).unread < (2 + s.cqSize 63 - (s.rst_ 63).cqHead) % s.cqSize 63 ∧ (ringSt' 0).ringSt 63 = 0 ∧
    s.sqSize 63 ≤ 16 ∧ (ringSt' 2).ringSt 63 = 2) := by decide
theorem witness_descriptorFetch : (let s := (ringSt' 1).setRst 63 { sqTail := 1 }
    s.nextFetch = some 63 ∧ bytesAt [0x01] 0 1 ∈ opcodes ∧ bytesAt [0xFF] 0 1 ∉ opcodes ∧ (s.rst_ 63).domQ = [] ∧
    s.get (R.RNG_STAT 63) F.RNG_STAT_SQ_HEAD ≠ (s.rst_ 63).sqTail ∧ s.outstanding 63 + (s.rst_ 63).unread < s.cqSize 63) ∧
    (let s := (ringSt' 1).setRst 63 { sqTail := 1, unread := 16 }
    s.get (R.RNG_STAT 63) F.RNG_STAT_SQ_HEAD ≠ (s.rst_ 63).sqTail ∧ s.cqSize 63 ≤ s.outstanding 63 + (s.rst_ 63).unread) := by decide
/-- Ring 62 has work too, and its turn has begun or is over. -/
def turnSt (took : Nat) : State :=
  let s := (((((ringSt' 1).setRst 63 { sqTail := 1 }).setRst 62 { sqTail := 1 }).set (R.RNG_STAT 62) F.RNG_STAT_STATE 1).set (R.RNG_SIZE 62)
    F.RNG_SIZE_SQ_LOG2 4).set (R.RNG_SIZE 62) F.RNG_SIZE_CQ_LOG2 4
  { s with host := { s.host with turn := 62, took := took } }
theorem witness_turn : (turnSt 3).nextFetch = some 62 ∧ (turnSt 3).outstanding 63 + ((turnSt 3).rst_ 63).unread < (turnSt 3).cqSize 63 ∧
    (turnSt 8).nextFetch = some 63 ∧ (turnSt 8).hasWork 63 = true ∧ (turnSt 8).host.turn < 64 ∧ 63 ≠ (turnSt 8).host.turn ∧ 8 ≤ (turnSt 8).host.took := by decide +kernel
theorem witness_bar2 : 63 * 0x1000 % 0x1000 = 0 ∧ (63 * 0x1000 + 8) % 0x1000 ≠ 0 ∧ (63 * 0x1000 + 8) % 0x1000 ≠ 4 := by decide
theorem witness_pci : (let s : State := { up0 with host := { up0.host with linkUp := true } }
    s.host.linkUp = true ∧ s.pciAnswers = true ∧ ({ s with rst := { s.rst with cold := true } } : State).pciAnswers = false) := by decide +kernel
theorem test_pci : (let t := after (exec (.hostLinkReset .d3hot) up0)
    t.host.pci.d3 = true ∧ (after (exec .perstAssert up0)).pciAnswers = false) := by decide +kernel
/-- A domain completion waits on ring 63, whose CQ is full. -/
def domFull : State := (ringSt' 1).setRst 63 { unread := 16, domQ := [(0, { raw := [] })] }
theorem witness_domEnter : ((domFull.rst_ 63).domQ = [(0, { raw := [] })]) ∧ domFull.cqSize 63 ≤ domFull.outstanding 63 + (domFull.rst_ 63).unread := by decide
/-- A completion that waits on ring 63. -/
def cpl0 : Cpl := { ring := 63, tag := 7, status := 0, early := false, untimed := false, lateCmt := false, rfn := none, result := 0, irq := false, held := 0, await := none }
theorem witness_completionPost : (let s : State := { ringSt' 1 with host := { (ringSt' 1).host with cpls := [cpl0] } }
    s.ringSt 63 ≠ 0 ∧ s.nextCpl 63 = some cpl0) := by decide
theorem test_completionPost : (let s : State := { ringSt' 1 with host := { (ringSt' 1).host with cpls := [cpl0] } }
    memRead (after (exec (.completionPost 63 true 5) s)).host.mem 0 = 7) := by decide +kernel
theorem witness_coalTimer : (((ringSt' 1).setRst 63 { armed := true }).rst_ 63).armed = true ∧
    0 + (ringSt' 1).get (R.RNG_CQ_VEC 63) F.RNG_CQ_VEC_COAL_US * ticksPerUs ≤ 10 ^ 16 := by decide
def query0 (cls first : Nat) : QueryReq := { cls := cls, first := first, count := 1, host := 64, writeOk := true }
theorem witness_query : canAdmit desc0 (queryRule 0x01 []) (hdr0 5) = true ∧ canAdmit desc0 (queryRule 0x90 (queryPay (query0 8 159))) (hdr0 5) = true ∧
    canAdmit desc0 (queryRule 0x91 (queryPay (query0 6 0))) (hdr0 5) = true ∧ 1 ≤ 6 ∧ 0 + 1 ≤ queryRange 6 ∧ 159 < queryRange 8 ∧ 159 + 1 ≤ queryRange 8 ∧ queryRange 7 ≤ 512 ∧ 8 < 9 := by decide +kernel
theorem test_queryStatus : (after (exec (.queryStatus (hdr0 5) (query0 8 160)) (load desc0 (queryRule 0x90 (queryPay (query0 8 160))) (hdr0 5)))).host.cpls.map (·.result) = [badRes 18] := by decide +kernel
/-- A record of a two-channel audio flow to address 1, port 5000; one with 65 channels; one of a protected video flow. -/
def flowReq1 (en : Bool) (chans : Nat) : FlowReq :=
  { en := en, kind := 1, index := 1023, addr := 64, data := some (le 128 (96 * 2 ^ 16 + chans * 2 ^ 72 + 2 ^ 80 + 5000 * 2 ^ 112 + 2 ^ 256)) }
def flowReq0 (en : Bool) : FlowReq := flowReq1 en 2
def flowReqP : FlowReq :=
  { en := true, kind := 0, index := 255, addr := 64, data := some (le 128 (4 + 96 * 2 ^ 16 + 4 * 2 ^ 48 + 5 * 2 ^ 96 + 5000 * 2 ^ 112 + 2 ^ 256)) }
theorem witness_flowCfg : (let f := (flowReq0 true).flow
    let s := withFlow (1024 * 1 + 1023) f desc0
    let r := flowRule 0x10 (flowReq0 false)
    let v := vetted s r (hdr0 5)
    canAdmit s r (hdr0 5) = true ∧ canAdmit s (flowRule 0x10 (flowReq0 true)) (hdr0 5) = true ∧
    tabFind v.media.rxFlow (1024 * 1 + 1023) = some { rcd := f } ∧ ((v.closeFlow true (1024 * 1 + 1023) { rcd := f }).ok (hdr0 5) 0).inflight ≤ 16384) ∧
    (let f := (flowReq0 true).flow
    let s : State := { desc0 with media := { desc0.media with txFlow := [(2047, { rcd := f })] } }
    canAdmit s (flowRule 0x11 (flowReq0 false)) (hdr0 5) = true ∧ canAdmit s (flowRule 0x11 (flowReq0 true)) (hdr0 5) = true ∧
    tabFind (vetted s (flowRule 0x11 (flowReq0 false)) (hdr0 5)).media.txFlow (1024 * 1 + 1023) = some { rcd := f }) := by decide +kernel
theorem witness_flowTaken : ∀ q ∈ [(0x10, true), (0x11, false)], (let r := flowRule q.1 (flowReq0 true)
    let v := vetted desc0 r (hdr0 5)
    let k := 1024 * 1 + 1023
    let f := (flowReq0 true).flow
    canAdmit desc0 r (hdr0 5) = true ∧ fitsYes (flowBody q.2 (hdr0 5) (flowReq0 true) v) = true ∧ (flowReq0 true).zero q.2 = none ∧
    v.flowBad q.2 1 f = none ∧ v.wireOk q.2 1 f = true ∧ v.pathNeed 1 f = 0 ∧
    v.fitOf (v.openFlow q.2 k f []) = .fits ∧ tabFind v.media.rxFlow k = none ∧ tabFind v.media.txFlow k = none) := by decide +kernel
theorem witness_flowBad : canAdmit desc0 (flowRule 0x10 (flowReq1 true 65)) (hdr0 5) = true ∧
    (vetted desc0 (flowRule 0x10 (flowReq1 true 65)) (hdr0 5)).flowBad true 1 (flowReq1 true 65).flow ≠ none := by decide +kernel
/-- A frame store without a free granule. -/
def flowBuf : State := { desc0 with fst := { desc0.fst with fencedP := List.range 64 } }
theorem witness_flowShort : (let x := flowReqP.flow
    let v := vetted flowBuf (flowRule 0x10 flowReqP) (hdr0 5)
    canAdmit flowBuf (flowRule 0x10 flowReqP) (hdr0 5) = true ∧ flowReqP.zero true = none ∧
    v.flowBad true 0 x = none ∧ v.wireOk true 0 x = true ∧ v.pathNeed 0 x ≠ 0 ∧ v.placeBuf (v.pathNeed 0 x) v.usedGrans = none) := by decide +kernel
/-- PERSIST_PUT, PERSIST_GET and PERSIST_STORE. -/
def putRule (first count host : Nat) : DescRule := { op := 0x60, rfn := 0, pay := slotPay first count host }
def getRule (first count host : Nat) : DescRule := { op := 0x61, rfn := 0, pay := slotPay first count host, standby := true }
def storeRule : DescRule := { op := 0x62, rfn := 0 }
theorem witness_persistStore_fail : (let v := vetted (desc0.dirty 5) storeRule (hdr0 5)
    canAdmit (desc0.dirty 5) storeRule (hdr0 5) = true ∧ 5 ∈ v.dirtyRecs) := by decide +kernel
theorem witness_persist : slotsBad 4095 1 64 = none ∧ slotsBad 4096 1 64 = some 16 ∧ canAdmit desc0 (getRule 4095 1 64) (hdr0 5) = true ∧ canAdmit desc0 (putRule 4095 1 64) (hdr0 5) = true ∧
    canAdmit desc0 (putRule 4096 1 64) (hdr0 5) = true ∧ canAdmit desc0 storeRule (hdr0 5) = true ∧
    fitsYes (persistStoreBody (hdr0 5) [] (vetted desc0 storeRule (hdr0 5))) = true := by decide +kernel
theorem test_persistPut : memRead (after (exec (.persistPut (hdr0 5) 4095 1 64 (some [1, 2])) (load desc0 (putRule 4095 1 64) (hdr0 5)))).axl.user (64 * 4095 + 1) = 2 := by decide +kernel

/-! ### LV personality -/

/-- Personality 1 or 2, the agent answers and takes writes. -/
def lvSt (p : Nat) : State :=
  let s := up0.set R.LVP_STAT F.LVP_STAT_PERSONA p
  { s with lv := { s.lv with answers := true, ready := true } }
theorem witness_lvSpi : up0.lvAnswers = false ∧ (lvSt 1).lvAnswers = true ∧ (lvSt 1).lvReg 127 = 0 ∧ (lvSt 1).lvWrites = true ∧ lvMask 4 ≠ 0 ∧
    ((lvSt 1).setLvReg 127 1).lvReg 127 = 1 := by decide
theorem test_lvRegisterWrite : (after (exec (.lvRegisterWrite 4 0xFFFF) (lvSt 1))).lvReg 4 = 0x87FF := by decide
theorem test_irqStatRead : (let s : State := { lvSt 1 with lv := { (lvSt 1).lv with irq := 6 } }
    (after (exec .irqStatRead s)).lv.miso = some 6 ∧ (after (exec .irqStatRead s)).lv.irq = 0) := by decide
theorem witness_lvpWinWrite : (lvSt 2).upFor R.LVP_WIN ∧ (lvSt 2).persona = 2 ∧ (lvSt 1).persona ≠ 2 ∧ (lvSt 1).upFor R.LVP_WIN ∧ 40 < 41 % 128 := by unfold State.upFor State.up; decide +kernel
theorem witness_lvpWinWrite_ok : (((((lvSt 2).at_ 5).set R.LVP_WIN F.LVP_WIN_RX_BASE (40 % 128)).set R.LVP_WIN F.LVP_WIN_TX_BASE (40 / 256 % 128)).set R.LVP_WIN
    F.LVP_WIN_AES_Q (40 / 65536 % 4)).winOk (40 % 128) (40 / 256 % 128) (40 / 65536 % 4) = true := by decide +kernel
theorem witness_lvTakeNEdge : ((lvSt 1).lvReg 2).getLsbD 1 = true ∧ (lvSt 1).rst.warmRun = false ∧ ((lvSt 1).setLvReg 2 0).lvReg 2 = 0 := by decide
theorem witness_lvLatch : (lvSt 1).lvSigned = false ∧ ({ lvSt 1 with lv := { (lvSt 1).lv with ready := false } } : State).lvWrites = true := by decide
theorem witness_outSelWrite : up0.lvWrites = false ∧ ((lvSt 1).lvReg 2).getLsbD 2 = false ∧ ((lvSt 1).setLvReg 2 7).lvWrites = true ∧
    (((lvSt 1).setLvReg 2 7).lvReg 2).getLsbD 2 = true := by decide
theorem witness_irq : (lvSt 1).lv.irqHold = none ∧ ({ lvSt 1 with lv := { (lvSt 1).lv with irqHold := some true } } : State).lv.irqHold = some true := by decide
theorem test_irq : (let s := ((lvSt 1).setLvReg 7 2).setLvReg 2 3
    ({ s with lv := { s.lv with irq := 6 } } : State).lvIrqLow = true ∧ ({ s with lv := { s.lv with irq := 4 } } : State).lvIrqLow = false) := by decide
/-- Output 31 has a switch that is latched and not armed. -/
def lvPend : State := { lvSt 1 with lv := { (lvSt 1).lv with pend := [(31, { en := true, input := 3, take := 0 })] } }
theorem witness_lvTakeArm : lvPend.lvAnswers = true ∧ lvPend.forwards = false ∧ (lvPend.at_ 5).lvDue 31 { en := true, input := 3, take := 0 } 5 = none := by decide +kernel
theorem witness_lvTakeArm_timed : (let s := ((lvPend.set (R.SDI_TX_STAT 31) F.SDI_TX_STAT_ACTIVE 1).setRx 3 { meas := some meas0 })
    let s : State := { s with xpt := { s.xpt with routes := [(31, ⟨1, 3⟩)] } }
    ((s.at_ 5).dstGrid 31).isSome = true ∧ ((s.at_ 5).lvDue 31 { en := true, input := 3, take := 0 } 5).isSome = true) := by decide +kernel
theorem witness_lvLatch_busy : (let s := lvPend
    s.lvWrites = true ∧ s.lvSigned = false ∧ ∃ o ∈ [30, 31], (tabFind s.lv.pend o).isSome = true) := by decide
theorem witness_lvOutputSwitch : (let w : LvSwitch := { en := true, input := 3, take := 0, due := some 5 }
    let s : State := { lvSt 1 with lv := { (lvSt 1).lv with pend := [(31, w)] } }
    tabFind s.lv.pend 31 = some w ∧ w.due = some 5) := by decide
theorem witness_lvMuteResume : (lvSt 1).lvOn = true ∧ up0.lvOn = false := by decide
/-- Output 31 asks for input 32, output 0 for input 31. -/
def lvDrop : State := ((lvSt 1).setLvReg (128 + 31) 0x8020).setLvReg 128 0x801F
theorem witness_lvDropped : lvDrop.lvWrites = true ∧ lvDrop.lvSigned = false ∧ lvDrop.lv.ready = true ∧ (∀ o < 32, tabFind lvDrop.lv.pend o = none) ∧
    lvDrop.lvAsked 31 = (true, 32) ∧ lvDrop.lvAsked 0 = (true, 31) ∧ lvDrop.lvAsked 1 = (false, 0) := by decide
theorem test_lvDropped : (let t := after (exec (.lvTakeWrite 1 5) lvDrop)
    tabFind t.lv.pend 31 = none ∧ tabFind t.lv.pend 0 = some { en := true, input := 31, take := 0 } ∧ t.get R.LVP_HIST F.LVP_HIST_TAKE_ERR = 1) := by decide +kernel

/-! ### Handshake fabric and crossings -/

/-- The voltage controller: mode, state and VDD. -/
def vSt (adaptive state vdd : Nat) : State :=
  (((desc0.set R.HSF_VCTL F.HSF_VCTL_MODE adaptive).set R.HSF_VSTAT F.HSF_VSTAT_STATE state).set R.HSF_VSTAT F.HSF_VSTAT_VDD vdd).set R.HSF_VCTL F.HSF_VCTL_VPROG 750
theorem witness_voltage_held : (vSt 0 3 700).vState ∈ [3, 4, 5] ∧ (vSt 1 5 700).vState ∈ [3, 4, 5] ∧ (vSt 1 0 700).vRuns = true ∧ (vSt 0 0 700).vRuns = true ∧
    ((vSt 1 0 700).set R.AXL_STAT F.AXL_STAT_PFAIL 1).vRuns = false ∧ ((vSt 1 0 700).set R.AXL_STAT F.AXL_STAT_PFAIL 1).flag R.AXL_STAT F.AXL_STAT_PFAIL = true ∧
    ({ vSt 1 0 700 with rst := { (vSt 1 0 700).rst with warmDue := true } } : State).rst.warmDue = true ∧ State.reset.phase ≠ 5 := by decide +kernel
theorem witness_voltage_fixed : (vSt 0 0 800).vState ∉ [3, 4, 5] ∧ (vSt 0 0 800).adaptive = false ∧
    ((vSt 0 0 800).at_ 5).passed (vSt 0 0 800).hsf.lowered (1000 * ticksPerUs) = true ∧ (vSt 0 0 800).vProg < (vSt 0 0 800).vdd ∧
    (vSt 0 0 700).vdd < (vSt 0 0 700).vProg ∧ ((vSt 0 0 700).at_ 5).passed (vSt 0 0 700).hsf.raised (1000 * ticksPerUs) = true := by decide +kernel
theorem witness_voltage_lower : (let s : State := { (vSt 1 0 800).set R.RNG_GLB_STAT F.RNG_GLB_STAT_READY 1 with hsf := { (vSt 1 0 800).hsf with okSince := some 0 } }
    s.vState ∉ [3, 4, 5] ∧ s.adaptive = true ∧ s.lifecycle ≠ 4 ∧ s.hsf.okSince = some 0 ∧ 0 + s.lowerS ≤ 10 ^ 16 ∧
    (s.at_ (10 ^ 16)).passed s.hsf.lowered s.lowerS = true ∧ (s.at_ (10 ^ 16)).floorMet 105 = true ∧ s.vMin < s.vdd ∧ s.isReady = true) := by decide +kernel
theorem witness_voltage_raise : (let s := (withRoute 328 (vSt 1 0 700)).readSlack { rates := [] }
    s.vState ∉ [3, 4, 5] ∧ s.adaptive = true ∧ (s.at_ 5).passed s.hsf.raised (1000 * ticksPerUs) = true ∧ (s.at_ 5).floorMet 100 = false ∧ s.vdd < 850) := by decide +kernel
theorem witness_admitRaise : (let s : State := { vSt 1 3 849 with hsf := { (vSt 1 3 849).hsf with raising := some (0, 7) } }
    s.vState = 3 ∧ s.hsf.raising.isSome = true ∧ s.vdd < 850) := by decide +kernel
theorem test_vctlWrite : (let t := after (exec (.vctlWrite 0xFFFFFFFF) up0)
    t.get R.HSF_VCTL F.HSF_VCTL_VSTEP = 20 ∧ t.get R.HSF_VCTL F.HSF_VCTL_VPROG = 850 ∧ t.get R.HSF_VCTL F.HSF_VCTL_MODE = 1) := by decide +kernel
theorem witness_voltage_end : (let s := (vSt 1 6 700).set R.SEC_STAT F.SEC_STAT_LIFECYCLE 4
    s.vState ∉ [3, 4, 5] ∧ s.adaptive = true ∧ s.lifecycle = 4 ∧ (s.at_ 5).passed s.hsf.lowered (1000 * ticksPerUs) = true ∧ 620 < s.vdd) := by decide +kernel
theorem witness_vctlWrite : (vSt 1 3 700).upFor R.HSF_VCTL ∧ (vSt 1 3 700).vState = 3 ∧ 750 / 2 ^ 31 % 2 = 0 := by unfold State.upFor State.up; decide +kernel
/-- A reading in which crossing group 249 has merged two events and dropped a word. -/
def slackX : Slack := { slack0 with cross := [⟨249, 2, 1⟩] }
theorem test_slackMeasure_cross : (let t := after (exec (.slackMeasure slackX 5) up0)
    t.rd (R.HSF_XOVR_CNT 249) = 2 ∧ t.rd (R.HSF_XDROP_CNT 249) = 1 ∧ t.get R.HSF_HIST F.HSF_HIST_XOVERRUN = 1) := by decide +kernel
theorem witness_wordLost : ringSt.wordAt 2 0 = (ringSt.buf 2).map (fun b => granAddr b.grans 0 / 32) ∧ (ringSt.wordAt 2 0).isSome = true ∧
    ((withRoute 328 up0).route 328).isSome = true := by decide +kernel
theorem test_wordLost : (after (exec (.handshakeTimeout 0 (.fetch 159 3 5) 5) (lineSt []))).rd (R.SOU_UNDERRUN_LINES 159) = 1 := by decide +kernel
theorem test_crossingRelease : (after (exec (.crossingRelease 249 2) (up0.set (R.HSF_XSTAT 249) F.HSF_XSTAT_STATE 3))).rd (R.HSF_XDROP_CNT 249) = 2 := by decide +kernel
theorem witness_avsRetry : (vSt 0 5 700).vState = 5 ∧ (vSt 0 4 700).vRuns = true ∧ (vSt 0 0 700).vState ≠ 4 := by decide +kernel
theorem test_avsRetry : (after (exec (.avsRetry false) (vSt 0 4 700))).get R.HSF_HIST F.HSF_HIST_AVS_ERR = 1 := by decide +kernel
theorem test_urgency : (Requester.layer 9 100 20 10).level = 2 ∧ (Requester.receive 80 100).level = 2 ∧ (Requester.transmit 24 100).level = 2 ∧
    (Requester.slice 3 2 4).level = 2 ∧ (Requester.slice 5 2 4).level = 1 ∧ Requester.gecko.over_ .hostDma = true := by decide
theorem witness_avs : (vSt 0 0 700).vState < 4 ∧ 4 ≤ (vSt 0 4 700).vState ∧ (vSt 0 4 700).vState = 4 := by decide +kernel
theorem test_avsFault : (after (exec .avsFault (vSt 0 0 700))).get R.HSF_HIST F.HSF_HIST_AVS_ERR = 1 := by decide +kernel
theorem witness_crossing : up0.get (R.HSF_XSTAT 249) F.HSF_XSTAT_STATE ≠ 3 ∧
    (up0.set (R.HSF_XSTAT 249) F.HSF_XSTAT_STATE 3).get (R.HSF_XSTAT 249) F.HSF_XSTAT_STATE = 3 := by decide +kernel
theorem test_handshakeTimeout : (let t := after (exec (.handshakeTimeout 95 .other 5) up0)
    t.rd R.HSF_TO_CNT = 1 ∧ t.get R.HSF_HIST F.HSF_HIST_HS_TIMEOUT = 1) := by decide +kernel

/-! ### Control matrix, registers and interrupts -/

/-- A read by a master. -/
def mtxReq0 (m : Fin 16) (addr : Nat) : MtxReq :=
  { master := m, txid := 3, addr := addr, write := false, fetch := false, data := 0, bytes := 4, left := 0, num := some 1, answered := true, t := 5, found := found0 }
/-- That request of master `m` at target `k`, granted. -/
def mtxOut0 (m : Fin 16) (k : Nat) : MtxOut := { req := mtxReq0 m 0x20000000, target := k, left := 0, granted := true, since := 0 }
/-- Master `m` is hung. -/
def hungSt (m : Nat) : State := up0.set (R.MTX_MST_STAT m) F.MTX_MST_STAT_HUNG 1
theorem witness_hostGate : ((State.reset.at_ 5).hostGate (mtxReq0 6 0x40000000)).isSome = true := by decide +kernel
theorem witness_matrixRequest : (∀ m : Fin 16, m ≠ 6 → ∀ a ∈ [0x20000000, 0x0F000000], (up0.at_ 5).hostGate (mtxReq0 m a) = none) ∧ up0.mtx.out = [] ∧ up0.mtx.late = [] ∧
    up0.hung 12 = false ∧ (hungSt 12).hung 12 = true ∧ (up0.mtxOut 12).any (reqIs (mtxReq0 12 0x20000000)) = false ∧
    ((up0.setMtxOut 12 [mtxOut0 12 5]).mtxOut 12).any (reqIs (mtxReq0 12 0x20000000)) = true := by decide +kernel
theorem witness_grant : reqTarget (mtxReq0 9 0x0F000000) = none ∧ answersFor 9 = true ∧ answersFor 12 = false ∧
    reqTarget (mtxReq0 11 0x20000000) = some 5 ∧ isBridge 5 = false ∧ up0.mayAccess (mtxReq0 11 0x20000000) 5 = true ∧
    reqTarget (mtxReq0 5 0) = some 0 ∧ up0.mayAccess (mtxReq0 5 0) 0 = false ∧ up0.portStops 5 = false ∧
    (((up0.at_ 5).carry (mtxReq0 11 0x20000000) 5).mtx.out = [] ∧ ((up0.at_ 5).carry (mtxReq0 11 0x20000000) 5).mtx.late = []) := by decide +kernel
theorem witness_grant_bridge : ∀ m ∈ [(0 : Fin 16), 4, 5], (let r := mtxReq0 m 0x40000000
    let x := { mtxReq0 m (0x40000000 + 0x3403FC) with bytes := 8 }
    reqTarget r = some 7 ∧ isBridge 7 = true ∧ reqInBlocks r = true ∧ up0.mayAccess r 7 = true ∧
    reqTarget x = some 7 ∧ reqInBlocks x = false ∧ up0.mayAccess x 7 = true) := by decide +kernel
theorem witness_portStops : up0.portStops 13 = false ∧ (up0.portReset 5 true).portStops 5 = true ∧ (up0.portReset 5 true).mtx.out = [] ∧ (up0.portReset 5 true).mtx.late = [] ∧
    ({ up0 with rst := { up0.rst with cclkFail := true } } : State).portStops 7 = true := by decide
/-- An entry that has not been granted. -/
def waitOut (m : Fin 16) (k since : Nat) : MtxOut := { mtxOut0 m k with granted := false, since := since }
theorem witness_inTurn : reqId (mtxOut0 12 5).req = reqId (waitOut 12 6 0).req ∧ (mtxOut0 12 5).target ≠ (waitOut 12 6 0).target ∧
    16 ≤ (((up0.setMtxOut 12 (List.replicate 16 (mtxOut0 12 5))).mtxOut 12).filter (·.granted)).length ∧ up0.needsNoPort (waitOut 11 5 0) = false ∧
    (up0.setMtxOut 11 [{ mtxOut0 11 5 with left := 1, req := { mtxReq0 11 0x20000000 with bytes := 32 } }]).portBusy 5 = true ∧ up0.closesCycle 5 13 = true := by decide +kernel
theorem witness_grantable : (let s := ((up0.setMtxOut 4 [waitOut 4 5 0]).setMtxOut 11 [waitOut 11 5 0])
    s.grantable = [(4, waitOut 4 5 0), (11, waitOut 11 5 0)] ∧ s.aged (waitOut 4 5 0) = false ∧ s.mtxPrio 5 4 < s.mtxPrio 5 11 ∧
    (s.at_ (10 ^ 12)).aged (waitOut 4 5 0) = true ∧ (s.at_ (10 ^ 12)).aged (waitOut 11 5 (10 ^ 12)) = false) ∧ up0.mtxPrio 5 0 = up0.mtxPrio 5 1 := by decide +kernel
theorem witness_countHolds : (let o := { waitOut 5 13 0 with req := mtxReq0 5 0x8000000000 }
    let s := { up0.wr (R.MTX_RGN_PERM_LO 13 7) 0x3FFFFFFF with mtx := { up0.mtx with out := [(5, [o])] } }
    s.mtx.out = [(5, [o])] ∧ o.cyc = false ∧ s.inTurn 5 [] o = true ∧ s.needsNoPort o = false ∧ s.closesCycle 5 o.target = true) := by decide +kernel
theorem witness_leave : (mtxOut0 12 5).leave = [{ mtxOut0 12 5 with left := 0 }] ∧ (waitOut 12 5 0).leave = [] ∧
    (let o := { mtxOut0 12 5 with left := 1, req := { mtxReq0 12 0x20000000 with bytes := 32 } }
    0 < o.left ∧ o.left < reqBeats o.req ∧ o.target ≠ noTarget) := by decide +kernel
theorem witness_permLog : up0.mtx.logged = [] ∧ tabFind ({ up0 with mtx := { up0.mtx with logged := [(3, (0, 4))] } } : State).mtx.logged 3 = some (0, 4) ∧
    0 / 2970 = up0.now / 2970 ∧ 4 < 5 := by decide
/-- No region of a bridge lets anyone through. -/
def noHost : State := [7, 8, 9, 10, 11].foldl (fun s t => (List.range 16).foldl (fun s r => s.set (R.MTX_RGN_BASE t r) F.MTX_RGN_BASE_EN 0) s) up0
theorem witness_noHost : noHost.up ∧ noHost.hung 6 = false ∧
    (∀ a ∈ [R.AESO_CTL 15, R.AXL_CTL, R.AXL_PRESET, R.XPT_PG_CFG 7, R.HSF_VCTL, R.FLT_ACK, R.FLT_UNFENCE, R.RNG_CTL 63, R.LVP_WIN, R.SDI_RX_CTL 71, R.SDI_TX_CTL 71,
      R.QE_CTL 3, R.REF_IN_CFG 7, R.REF_QUAL, R.REF_CTL, R.REF_TOD_SEC_HI, R.RST_SWREQ, R.RST_BLK_CTL, R.XPT_UFMT_MODE 15, R.SEC_LC_REQ, R.SEC_LOG_TAIL, R.SEC_LOG_CFG,
      R.SYN_TS_CTL 15, R.SYN_TS_RAMP 15], noHost.hostMay a = false) := by
  unfold State.up; decide +kernel
theorem test_portReset : ((after (exec (.matrixRequest (mtxReq0 11 0x20000000)) (up0.portReset 5 true))).mtxOut 11).length = 1 := by decide +kernel
theorem witness_registerWrite : up0.up ∧ up0.hung 6 = false ∧ reqTarget (writeReq 6 R.MTX_IMASK 1 up0.now ⟨false, none⟩) = some 7 ∧ isBridge 7 = true ∧
    inExtent R.MTX_IMASK = true ∧ up0.rst.cclkFail = false ∧ 7 ∉ up0.mtx.ports ∧ up0.mayAccess (writeReq 6 R.MTX_IMASK 1 up0.now ⟨false, none⟩) 7 = true ∧
    reqTarget (readReq R.REF_TIME_NS up0.now) = some 7 ∧ inExtent R.REF_TIME_NS = true ∧ up0.mayAccess (readReq R.REF_TIME_NS up0.now) 7 = true := by
  unfold State.up; decide +kernel
theorem test_registerWrite : (after (exec (.registerWrite 6 R.MTX_IMASK 1 5 found0) up0)).rd R.MTX_IMASK = 1 := by decide +kernel
theorem witness_imaskWrite : maskHists R.MTX_IMASK ≠ [] ∧ maskHists 0 = [] ∧ (wideOf R.REF_TIME_NS).map (·.1) = some R.REF_TIME_NS ∧
    (wideOf (R.REF_TIME_NS + 4)).map (·.1) ≠ some (R.REF_TIME_NS + 4) := by decide +kernel
/-- Master `m`'s granted request has waited since reset for 10 ms. -/
def openSt (m : Fin 16) : State := (up0.setMtxOut m [mtxOut0 m 5]).at_ (10 ^ 16)
theorem witness_matrixHang : up0.unanswered 12 = none ∧ ∀ m ∈ [(9 : Fin 16), 12], (openSt m).mtxOut m = [mtxOut0 m 5] ∧ (openSt m).unanswered m = some (mtxOut0 m 5) ∧
    (openSt m).hung m = false := by decide +kernel
theorem witness_hungMasterReset : (∀ m ∈ [3, 4, 5, 7, 10, 12], (hungSt m).hung m = true) ∧ ((hungSt 12).resetMaster 12).mtxRest.testing = none ∧ up0.hung 15 = false ∧
    (∀ o ∈ up0.mtxOut 7, o.req.write = true) ∧ (∃ o ∈ (up0.setMtxOut 7 [mtxOut0 7 5]).mtxOut 7, o.req.write = false) := by decide +kernel
theorem test_matrixHang : (let t := after (exec (.matrixHang 12 (10 ^ 16)) (openSt 12))
    t.hung 12 = true ∧ t.get R.MTX_HIST F.MTX_HIST_HANG = 1) := by decide +kernel
theorem witness_wideStatus : wideOf R.REF_TIME_NS = some (R.REF_TIME_NS, 3) ∧ wideOf (R.REF_TIME_NS + 8) = some (R.REF_TIME_NS, 3) ∧
    tabFind ({ up0 with snap := [(R.REF_TIME_NS + 8, 9)] } : State).snap (R.REF_TIME_NS + 8) = some 9 := by decide +kernel
theorem test_wideStatus : (({ up0 with snap := [(R.REF_TIME_NS + 8, 9)] } : State).regRead 6 (R.REF_TIME_NS + 8)).1 = 9 := by decide +kernel
theorem witness_historyBits : up0.flag Hist.mtx.reg (bit 0) = false ∧ up0.flag Hist.mtx.mask (bit (0 - Hist.mtx.lo + Hist.mtx.mlo)) = false ∧
    (up0.wr Hist.mtx.mask 0xF).flag Hist.mtx.mask (bit (0 - Hist.mtx.lo + Hist.mtx.mlo)) = true ∧ (up0.wr Hist.mtx.reg 1).flag Hist.mtx.reg (bit 0) = true := by decide
theorem witness_vectors : ((tabGet {} up0.host.msix 5).ctl).getLsbD 0 = true ∧
    ((tabGet {} ({ up0 with host := { up0.host with msix := [(5, { ctl := 0 })] } } : State).host.msix 5).ctl).getLsbD 0 = false := by decide

/-! ### Reset and bring-up -/

/-- A device that is not in reset: power good, every phase ended. -/
def live0 : State := { up0 with rst := { up0.rst with on := true, pwrGood := true, cold := false } }
/-- `s` in a running warm reset. -/
def inWarm (s : State) : State := { s with rst := { s.rst with cold := false, warmRun := true } }
/-- An option set of the extended grade with a 20 MHz XO, LVDS windows at 8 and 16. -/
def opt0 : OptSet := { gradeE := true, personaSet := true, personaVal := 2, straps := 0, winFuse := 0x21008, devId := 5, pinFuse := 0, xo20 := true, i2cAddr := 0 }
/-- An image that passes every check, and one that fails its signature. -/
def img0 : Img := { header := true, keyOk := true, verifies := true, bodyOk := true, svn := 0, version := 3, slot := 1, revoke0 := false, digest := 7 }
theorem witness_powerOn : State.reset.rst.pwrGood = false ∧ live0.rst.pwrGood = true := by decide
theorem test_powerOn : (let t := after (exec .powerOn State.reset); t.phase = 1 ∧ t.get R.RST_CAUSE F.RST_CAUSE_SOURCES = 1) := by decide +kernel
theorem witness_brownOut : live0.rst.pwrGood = true ∧ live0.rst.pinLow = false ∧ live0.axl.running = false ∧ live0.rst.cold = false ∧ live0.rst.warmDue = false ∧
    live0.rst.warmRun = false := by decide
theorem witness_pinReset : ({ live0 with rst := { live0.rst with pinLow := true } } : State).rst.pinLow = true := by decide
theorem witness_powerGoodReturn : (let s := after (exec .brownOut live0); s.rst.cold = true ∧ s.phase = 0 ∧ s.rst.on = true ∧ s.rst.pwrGood = false) ∧ State.reset.rst.on = false := by
  decide +kernel
theorem witness_warmSource : live0.rst.cold = false ∧ live0.rst.warmRun = false ∧ live0.rst.warmDue = false ∧ live0.get R.RST_CFG F.RST_CFG_COLD / 2 ^ (4 - 4) % 2 = 0 ∧
    live0.get R.RST_STAT F.RST_STAT_WARM_STREAK ≠ 3 ∧ (live0.set R.RST_STAT F.RST_STAT_WARM_STREAK 3).get R.RST_STAT F.RST_STAT_WARM_STREAK = 3 ∧
    (live0.set R.RST_CFG F.RST_CFG_COLD 0x3F).get R.RST_CFG F.RST_CFG_COLD / 2 ^ (9 - 4) % 2 = 1 := by decide +kernel
theorem witness_resetRequests : ({ live0 with rst := { live0.rst with cclkFail := true } } : State).rst.cclkFail = true ∧ live0.rst.cclkFail = false ∧ (live0.set R.SEC_STAT F.SEC_STAT_DEBUG 2).get R.SEC_STAT F.SEC_STAT_DEBUG ≠ 0 ∧
    (live0.set R.SEC_STAT F.SEC_STAT_DEBUG 0).get R.SEC_STAT F.SEC_STAT_DEBUG = 0 ∧ 0xD7000001 / 2 ^ 24 % 256 = 0xD7 ∧ (live0.warmSource 7).rst.warmDue = true := by decide +kernel
theorem test_softwareReset : (after (exec (.softwareResetRequest 0xD7000001) live0)).rst.warmDue = true ∧ (after (exec (.softwareResetRequest 0xD6000001) live0)).rst.warmDue = false := by
  decide +kernel
theorem witness_remoteReset : (let s := ((live0.setRole 1).set R.MATE_STAT F.MATE_STAT_LINK_UP 1).set R.MATE_CTL F.MATE_CTL_RESET_ACCEPT 1
    s.role ≠ 0 ∧ s.flag R.MATE_STAT F.MATE_STAT_LINK_UP = true ∧ s.flag R.MATE_CTL F.MATE_CTL_RESET_ACCEPT = true) ∧ live0.role = 0 := by decide +kernel
theorem witness_optionLoad : (let s := after (exec .powerOn State.reset); s.rst.cold = true ∧ s.phase = 1) ∧ live0.rst.cold = false := by decide +kernel
theorem test_optionLoad : (let t := after (exec (.optionLoad (some opt0)) (State.reset.setPhase 1)); t.phase = 2 ∧ t.persona = 2 ∧ t.lv.rxBase = 8 ∧ t.lv.txBase = 16 ∧ t.lv.aesQ = 2 ∧
    t.get R.GLB_GRADE F.GLB_GRADE_GRADE = 0x45 ∧ t.rd R.REF_HOLD_UNC = 0x138803E8) := by decide +kernel
theorem test_gradeKept : (after (exec (.optionLoad (some opt0)) ((State.reset.setPhase 1).set R.GLB_GRADE F.GLB_GRADE_GRADE 0x43))).get R.GLB_GRADE F.GLB_GRADE_GRADE = 0x43 := by decide +kernel
theorem witness_recall : (State.reset.setPhase 2).rst.cold = true ∧ (State.reset.setPhase 2).phase = 2 := by decide +kernel
theorem witness_bootImageVerify : (let s := State.reset.setPhase 3
    s.rst.cold = true ∧ s.phase = 3 ∧ s.flag R.RST_STAT F.RST_STAT_BOOT_FAIL = false ∧ s.rst.trialRun = false ∧ s.causes / 2 ^ 10 % 2 = 0 ∧ s.get R.RST_BOOT_REC F.RST_BOOT_REC_PREF = 0 ∧
    s.imgOk img0 = true ∧ s.rst.imgBad = false ∧ s.imgOk { img0 with verifies := false } = false) := by decide +kernel
theorem test_bootImageVerify : (let t := after (exec (.bootImageVerify { img0 with verifies := false } img0) (State.reset.setPhase 3))
    t.phase = 4 ∧ t.get R.RST_STAT F.RST_STAT_IMAGE = 2 ∧ t.get R.RST_HIST F.RST_HIST_BOOT_FALLBACK = 1) := by decide +kernel
theorem witness_controlPlaneUp : (State.reset.setPhase 4).phase = 4 ∧ (State.reset.setPhase 4).rst.cold = true ∧ (inWarm (State.reset.setPhase 4)).rst.cold = false ∧
    (inWarm (State.reset.setPhase 4)).rst.warmRun = true ∧ (inWarm (State.reset.setPhase 4)).phase = 4 := by decide +kernel
theorem witness_dataPlaneStart : (let s : State := { up0 with rst := { up0.rst with plane := true } }
    s.rst.plane = true ∧ s.rst.warmDue = false ∧ s.phase = 5 ∧ ((s.at_ 5).startPlane slack0).restoreRoutes.isSome = true) ∧ up0.rst.plane = false ∧
    (live0.warmSource 5).rst.warmDue = true := by decide +kernel
theorem witness_perst : up0.host.perst = true ∧ ({ up0 with host := { up0.host with perst := false } } : State).host.perst = false ∧ up0.pciAnswers = false ∧
    ({ up0 with host := { up0.host with linkUp := true } } : State).pciAnswers = true ∧ up0.get (R.HSF_XSTAT 176) F.HSF_XSTAT_STATE ≠ 1 := by decide +kernel
theorem witness_resetN : (let s := after (exec .powerOn State.reset)
    s.rst.on = true ∧ s.rst.cold = true ∧ s.phase < 3 ∧ (∃ t, s.rst.trig = some t ∧ s.now < t + 1000 * ticksPerUs)) ∧
    live0.rst.cold = false ∧ live0.rst.trig = none ∧ live0.rst.pads = false ∧ live0.rst.opt = none ∧
    ∀ k < 4, ({ opt0 with pinFuse := k } : OptSet).pinFuse / 4 ^ 0 % 4 = k := by
  refine ⟨⟨by decide +kernel, by decide +kernel, by decide +kernel, (after (exec .powerOn State.reset)).now, by decide +kernel, by decide +kernel⟩, by decide⟩
theorem test_ball : (let t := after (exec (.optionLoad (some { opt0 with pinFuse := 3 * 4 ^ 25 + 1 })) (State.reset.setPhase 1))
    t.ball 0 = .pullUp ∧ t.ball 25 = .low ∧ State.reset.ball 0 = .highZ) := by decide +kernel
theorem witness_warmReset : (live0.warmSource 5).rst.warmDue = true ∧ live0.rst.warmDue = false := by decide +kernel
theorem witness_warmReady : (inWarm live0).rst.warmRun = true ∧ (inWarm live0).rst.warmDue = false ∧ (inWarm live0).rst.plane = false ∧ (inWarm live0).phase = 5 := by decide +kernel
/-- Lane 3 of the receivers held in reset, its release waiting for a clock, and an LV persona. -/
def inRes (p : Nat) : State := (live0.set (R.RST_BLK_STAT 0 3) F.RST_BLK_STAT_IN_RESET 1).set (R.RST_BLK_STAT 0 3) F.RST_BLK_STAT_RELEASE_PENDING_CLOCK p
theorem witness_blockAssert : (2 ^ 30 + 3) / 2 ^ 30 = 1 ∧ blockCount 0 = 72 ∧ blockCount 10 = 0 ∧ live0.blockLv 0 3 = false ∧ live0.blockIdle 0 3 = false ∧
    live0.flag (R.RST_BLK_STAT 0 3) F.RST_BLK_STAT_RELEASE_PENDING_CLOCK = false ∧ (live0.set (R.SDI_RX_CTL 3) F.SDI_RX_CTL_EN 0).blockIdle 0 3 = true ∧
    (live0.set R.LVP_STAT F.LVP_STAT_PERSONA 1).blockLv 0 3 = true := by decide +kernel
theorem witness_blockRelease : 2 ^ 31 / 2 ^ 30 = 2 ∧ live0.blockFenced 0 3 = false ∧ (inRes 0).blockFenced 0 3 = false ∧ (inRes 0).inReset 0 3 = true ∧
    (inRes 0).flag (R.RST_BLK_STAT 0 3) F.RST_BLK_STAT_RELEASE_PENDING_CLOCK = false ∧ (inRes 0).clockOk 0 3 true = true ∧ (inRes 0).clockOk 0 3 false = false ∧
    (inRes 1).flag (R.RST_BLK_STAT 0 3) F.RST_BLK_STAT_RELEASE_PENDING_CLOCK = true ∧ (inRes 1).phase = 5 := by decide +kernel
theorem test_blockRelease : (let t := after (exec (.blockResetRelease (2 ^ 31 + 3) false) (inRes 0))
    t.inReset 0 3 = true ∧ t.get R.RST_BLK_RES F.RST_BLK_RES_RESULT = 4 ∧ (after (exec (.blockClockQualified 0 3) t)).inReset 0 3 = false) := by decide +kernel

/-! ### Axolotl store -/

/-- The records are in the working SRAM; autostore is armed where `a` is 1. -/
def sram0 (a : Nat) : State :=
  ((live0.set R.AXL_STAT F.AXL_STAT_SRAM_VALID 1).set R.AXL_CTL F.AXL_CTL_ARM a).set R.AXL_STAT F.AXL_STAT_VHOLD_OK a
/-- Record 6 was stored in half 0 with sequence number 4. -/
def stored6 : State := (sram0 1).setCopy 6 0 ⟨4, true, .plain⟩
theorem witness_recordStore : stored6.flag R.AXL_STAT F.AXL_STAT_SRAM_VALID = true ∧ stored6.lifecycle ≠ 4 ∧ stored6.newestCopy 6 = some (0, 4) ∧ stored6.newestCopy 80 = none ∧
    State.reset.flag R.AXL_STAT F.AXL_STAT_SRAM_VALID = false := by decide +kernel
theorem test_recordStore : (let t := after (exec (.recordStore 6 false true) stored6)
    (t.copy? 6 1).map (·.seq) = some 5 ∧ (t.copy? 6 0).map (·.seq) = some 4 ∧ t.rd R.AXL_STORE_CNT = 1) := by decide +kernel
theorem test_recordStore_fails : (let t := after (exec (.recordStore 80 false false) stored6)
    (t.copyAt 80 0 (wearPos 80 1)).map (·.valid) = some false ∧ t.isDirty 80 = true ∧ t.get R.AXL_HIST F.AXL_HIST_STORE_ERR = 1) := by decide +kernel
theorem witness_powerFailTrip : (sram0 1).flag R.AXL_STAT F.AXL_STAT_PFAIL = false ∧ (sram0 1).armed = true ∧ (sram0 0).armed = false ∧
    ((sram0 1).set R.AXL_STAT F.AXL_STAT_PFAIL 1).flag R.AXL_STAT F.AXL_STAT_PFAIL = true := by decide +kernel
/-- A power failure has tripped and the autostore runs. -/
def autoRun : State := after (exec (.powerFailTrip 5) (sram0 1))
theorem witness_autostoreEnd : autoRun.axl.running = true ∧ autoRun.axl.deferred = none ∧ live0.axl.running = false ∧
    (after (exec .pinReset autoRun)).axl.deferred = some 4 := by decide +kernel
theorem test_autostoreEnd : (let t := after (exec (.autostoreEnd [] 70000) autoRun)
    t.axl.autoUs = 65535 ∧ t.axl.running = false ∧ (t.copy? 7 0).map (·.valid) = some true) := by decide +kernel
theorem test_vholdCollapse : (let t := after (exec (.vholdCollapse 0) autoRun)
    (t.copyAt 7 0 (wearPos 7 1)).map (·.valid) = some false ∧ t.get R.AXL_STAT F.AXL_STAT_STATE = 0) := by decide +kernel
theorem witness_pfailClear : autoRun.flag R.AXL_STAT F.AXL_STAT_PFAIL = true ∧ autoRun.vState = 5 ∧ live0.flag R.AXL_STAT F.AXL_STAT_PFAIL = false := by decide +kernel
theorem witness_vholdOk : (sram0 0).armed = false ∧ ((sram0 0).set R.AXL_CTL F.AXL_CTL_ARM 1).armed = false ∧
    ((sram0 0).set R.AXL_CTL F.AXL_CTL_ARM 1).flag R.AXL_CTL F.AXL_CTL_ARM = true ∧ (sram0 1).flag R.AXL_STAT F.AXL_STAT_VHOLD_OK = true ∧
    (sram0 1).flag R.AXL_CTL F.AXL_CTL_ARM = true ∧ (sram0 0).flag R.AXL_STAT F.AXL_STAT_VHOLD_OK = false := by decide +kernel
theorem test_vholdOkClear : (let t := after (exec .vholdOkClear (sram0 1))
    t.get R.AXL_HIST F.AXL_HIST_DISARMED = 1 ∧ t.get R.GLB_MODE_HIST F.GLB_MODE_HIST_AUTOSTORE_CHG = 1) := by decide +kernel
theorem witness_axlCtl : up0.upFor R.AXL_CTL ∧ up0.upFor R.AXL_PRESET ∧ up0.flag R.AXL_CTL F.AXL_CTL_ARM = false ∧ up0.signReq = false ∧
    ((sram0 1).set R.SEC_STAT F.SEC_STAT_SIGN_REQ 1).signReq = true := by
  unfold State.upFor State.up; decide +kernel
theorem test_axlCtl : (after (exec (.axlCtlWrite 0xA0 true) (sram0 1))).rd R.AXL_CTL = 0xA0 ∧
    (after (exec (.axlCtlWrite 0xA0 true) ((sram0 1).set R.SEC_STAT F.SEC_STAT_SIGN_REQ 1))).rd R.AXL_CTL = 0xA1 := by decide +kernel
theorem test_presetCapture : (let t := after (exec (.presetCapture (2 ^ 31 + 2) true) (withRoute 328 up0))
    (tabGet [] t.axl.presets 2).length = 1 ∧ tabGet [] t.axl.presets 1 = [] ∧ t.get R.AXL_HIST F.AXL_HIST_CAPTURED = 1) := by decide +kernel
/-- The margin read is on and READY set; record 6 has a valid copy. -/
def margin0 : State := ((stored6.set R.AXL_CTL F.AXL_CTL_MARGIN_EN 1).set R.RNG_GLB_STAT F.RNG_GLB_STAT_READY 1)
theorem witness_marginRead : margin0.flag R.AXL_CTL F.AXL_CTL_MARGIN_EN = true ∧ margin0.isReady = true ∧ margin0.axl.running = false ∧ margin0.lifecycle ≠ 4 ∧
    ((margin0.copy? 6 0).map (·.valid)).getD false = true ∧ live0.isReady = false := by decide +kernel
theorem test_marginRead : (let t := after (exec (.marginRead [(6, false), (6, true)]) margin0)
    t.rd R.AXL_WEAK_CNT = 1 ∧ t.flag (R.AXL_REC_STAT 6) F.AXL_REC_STAT_WEAK = true ∧ t.get R.AXL_HIST F.AXL_HIST_WEAK_FIXED = 1) := by decide +kernel

/-! ### Twin operation and the system domain -/

/-- `desc0` in lifecycle `l` and twin role `r`, the MATE link up. -/
def mateSt (l r : Nat) : State :=
  ((desc0.set R.SEC_STAT F.SEC_STAT_LIFECYCLE l).set R.MATE_STAT F.MATE_STAT_ROLE r).set R.MATE_STAT F.MATE_STAT_LINK_UP 1
/-- MATE_CTL with operation `k`; the pairing; DOMAIN_MSG. -/
def ctl (k : Nat) : DescRule := mateRule (.is k)
def pairRule : DescRule := mateRule (.not [1, 2, 3])
def domRule (tg un len ad : Nat) : DescRule := { op := 0x80, rfn := 0, pay := [fld 16 2 tg, fld 18 2 un, fld 20 2 len, fld 24 8 ad] }
/-- A partner that matches a device at reset but for its device number. -/
def partner0 : Partner := { solo := true, pairEn := true, version := 0, persona := 0, lifecycle := 2, digest := (mateSt 2 0).pairDigest, epoch := 7, devnum := 3 }
theorem witness_matePair : canAdmit (mateSt 2 0) pairRule (hdr0 0) = true ∧ (vetted (mateSt 2 0) pairRule (hdr0 0)).role = 0 ∧
    (let v := vetted (mateSt 2 0) pairRule (hdr0 0); noPairing v.persona v.lifecycle = false) ∧ noPairing partner0.persona partner0.lifecycle = false ∧ noPairing 0 4 = true ∧ (vetted (mateSt 2 0) pairRule (hdr0 0)).flag R.MATE_STAT F.MATE_STAT_LINK_UP = true ∧
    (vetted (mateSt 2 0) pairRule (hdr0 0)).pairWhy partner0 true = 0 ∧ (vetted (mateSt 2 0) pairRule (hdr0 0)).pairWhy { partner0 with persona := 2 } true = 4 ∧
    (vetted (mateSt 2 0) pairRule (hdr0 0)).pairWhy { partner0 with digest := [] } true = 5 := by decide +kernel
theorem witness_matePair_refused : canAdmit (mateSt 2 1) pairRule (hdr0 0) = true ∧ (vetted (mateSt 2 1) pairRule (hdr0 0)).role = 1 ∧
    canAdmit (mateSt 0 0) pairRule (hdr0 0) = true ∧ (let v := vetted (mateSt 0 0) pairRule (hdr0 0); v.role = 0 ∧ noPairing v.persona v.lifecycle = true) ∧
    (let s := (mateSt 1 0).set R.MATE_STAT F.MATE_STAT_LINK_UP 0;
      canAdmit s pairRule (hdr0 0) = true ∧ (let v := vetted s pairRule (hdr0 0); v.role = 0 ∧ noPairing v.persona v.lifecycle = false) ∧ (vetted s pairRule (hdr0 0)).flag R.MATE_STAT F.MATE_STAT_LINK_UP = false) := by
  decide +kernel
theorem witness_matePair_op : (let s := load (mateSt 2 0) (ctl 5) (hdr0 0)
    (match s.vet pairRule (hdr0 0) with
      | .pass v => v.entriesFree 1
      | _ => false) = true ∧ bytesAt (s.headRaw 0) 16 1 = 5) ∧ bytesAt ((load (mateSt 2 0) pairRule (hdr0 0)).headRaw 0) 16 1 = 0 := by decide +kernel
theorem test_matePair : (let t := after (exec (.matePair (hdr0 0) (some partner0)) (load (mateSt 2 0) pairRule (hdr0 0))); t.role = 1 ∧ t.epoch = 8 ∧ t.sync = 1) := by decide +kernel
theorem witness_mateCtl : (∀ k ∈ [1, 2, 3], canAdmit (mateSt 2 1) (ctl k) (hdr0 0) = true ∧ canAdmit (mateSt 2 0) (ctl k) (hdr0 0) = true ∧
    (vetted (mateSt 2 1) (ctl k) (hdr0 0)).role = 1 ∧ (vetted (mateSt 2 0) (ctl k) (hdr0 0)).role = 0) ∧
    (vetted (mateSt 2 1) (ctl 2) (hdr0 0)).apart = false ∧ (vetted (mateSt 2 1) (ctl 3) (hdr0 0)).flag R.MATE_STAT F.MATE_STAT_LINK_UP = true ∧
    (∀ c ∈ (vetted (mateSt 2 1) (ctl 1) (hdr0 0)).host.cpls, c.ring ≠ noRing) ∧
    (vetted ((mateSt 2 1).set R.MATE_STAT F.MATE_STAT_ISOLATED 1) (ctl 2) (hdr0 0)).apart = true := by decide +kernel
/-- A pairing, or a hand-over due at 10 ms, in flight as operation 4. -/
def opSt (l r : Nat) (b : OpBody) : State :=
  { mateSt l r with host := { (mateSt l r).host with ops := [{ id := 4, dest := .ring 0, tag := 7, irq := false, result := 0, fwd := false, body := b }] } }
theorem witness_pairingTimeout : ((opSt 2 0 .pair).host.ops.find? (fun o => o.body == .pair)).map (·.id) = some 4 ∧
    (mateSt 2 0).host.ops.find? (fun o => o.body == .pair) = none := by decide +kernel
theorem witness_pairRequest : (mateSt 2 0).mateOff = false ∧ (mateSt 2 0).flag R.MATE_STAT F.MATE_STAT_LINK_UP = true ∧ (mateSt 2 0).role = 0 ∧
    (mateSt 2 0).pairWhy partner0 ((mateSt 2 0).flag R.MATE_CTL F.MATE_CTL_PAIR_EN) ≠ 0 ∧
    (let s := (mateSt 2 0).set R.MATE_CTL F.MATE_CTL_PAIR_EN 1; s.mateOff = false ∧ s.pairWhy partner0 (s.flag R.MATE_CTL F.MATE_CTL_PAIR_EN) = 0) ∧
    (mateSt 4 0).mateOff = true := by decide +kernel
theorem test_pairRequest : (let t := after (exec (.pairRequestReceive partner0) ((mateSt 2 0).set R.MATE_CTL F.MATE_CTL_PAIR_EN 1)); t.role = 2 ∧ t.epoch = 8) := by decide +kernel
theorem witness_handoverSwap : (mateSt 2 2).host.ops = [] ∧ (mateSt 2 2).role = 2 ∧ (mateSt 2 2).apart = false ∧
    (opSt 2 1 (.handover 5)).host.ops.findSome? (fun o => match o.body with | .handover a => some (o.id, a) | _ => none) = some (4, 5) ∧
    ((opSt 2 1 (.handover 5)).at_ (10 ^ 12)).swapAt 5 ≤ 10 ^ 12 ∧ 1 < ((opSt 2 1 (.handover 5)).at_ 1).swapAt 5 ∧ (opSt 2 1 (.handover 5)).role = 1 ∧
    (opSt 2 1 (.handover 5)).apart = false := by decide +kernel
theorem test_handoverSwap : (let t := after (exec (.handoverSwap (10 ^ 12)) (opSt 2 1 (.handover 5))); t.role = 2 ∧ t.host.ops = []) := by decide +kernel
theorem witness_heartbeats : (mateSt 2 1).persona ≠ 1 ∧ (mateSt 2 1).lifecycle ≠ 4 ∧ live0.rst.cold = false ∧ live0.rst.plane = false ∧ State.reset.rst.plane = true ∧ State.reset.rst.warmRun = false ∧ live0.persona ≠ 1 ∧ live0.lifecycle ≠ 4 ∧ (mateSt 4 1).lifecycle = 4 ∧
    live0.flag R.MATE_STAT F.MATE_STAT_LINK_UP = false ∧ (mateSt 2 1).flag R.MATE_STAT F.MATE_STAT_PARTNER_RESTARTING = false ∧
    ({ mateSt 2 1 with mate := { (mateSt 2 1).mate with linkLost := true, sbLost := true } } : State).mate.linkLost = true ∧ (mateSt 2 1).mate.sbLost = false := by decide +kernel
/-- A STANDBY that both paths have left; TRACK in the selector where `k` is 2. -/
def lonely (k : Nat) : State := { (mateSt 2 2).set R.REF_STAT F.REF_STAT_STATE k with mate := { (mateSt 2 2).mate with linkLost := true, sbLost := true } }
theorem witness_mateCond : (lonely 2).role ≠ 0 ∧ (lonely 2).partnerGone = true ∧ (lonely 2).flag R.MATE_STAT F.MATE_STAT_PARTNER_LOST = false ∧ (lonely 2).mayPromote = true ∧
    (lonely 0).mayPromote = false ∧ (let s : State := { mateSt 2 2 with mate := { (mateSt 2 2).mate with linkLost := true } }
      s.partnerGone = false ∧ s.flag R.MATE_STAT F.MATE_STAT_ISOLATED = false) := by decide +kernel
theorem test_mateCond : (lonely 2).mateCond.role = 1 ∧ (lonely 0).mateCond.role = 2 ∧ (lonely 0).mateCond.mate.promote = true := by decide +kernel
theorem witness_partnerRestart : ((mateSt 2 2).set R.MATE_STAT F.MATE_STAT_PARTNER_RESTARTING 1).flag R.MATE_STAT F.MATE_STAT_PARTNER_RESTARTING = true ∧ (mateSt 2 2).role = 2 ∧
    (mateSt 2 1).role ≠ 2 := by decide +kernel
theorem witness_mateLinkUp : (let s := ((mateSt 2 1).set R.MATE_STAT F.MATE_STAT_LINK_UP 0).wr R.MATE_EPOCH 5
    let w := (({ s with mate := { s.mate with linkLost := false } } : State).set R.MATE_STAT F.MATE_STAT_LINK_UP 1).mateCond
    s.mateOff = false ∧ s.flag R.MATE_STAT F.MATE_STAT_LINK_UP = false ∧ w.role ≠ 0 ∧ w.outranked ⟨1, 6, 0⟩ = true ∧ w.outranked ⟨2, 6, 0⟩ = false) := by decide +kernel
theorem witness_timeExchange : (let s := ((mateSt 2 2).set R.MATE_STAT F.MATE_STAT_SYNC 2).set R.REF_STAT F.REF_STAT_STATE 2
    s.role = 2 ∧ s.mate.linkLost = false ∧ s.flag R.MATE_STAT F.MATE_STAT_LINK_UP = true ∧ s.sync = 2 ∧ s.get R.REF_STAT F.REF_STAT_STATE = 2 ∧
    (1 : Int).natAbs ≤ max 1 (s.get R.MATE_CTL F.MATE_CTL_ALIGN_LIMIT)) := by decide +kernel
theorem test_timeExchange : (let s := ((mateSt 2 2).set R.MATE_STAT F.MATE_STAT_SYNC 2).set R.REF_STAT F.REF_STAT_STATE 2
    (after (exec (.timeExchange (-1) true) s)).flag R.MATE_STAT F.MATE_STAT_CHANGEOVER_READY = true ∧
    (after (exec (.timeExchange (-1) false) s)).flag R.MATE_STAT F.MATE_STAT_CHANGEOVER_READY = false) := by decide +kernel
theorem witness_forwardAckTimeout : (let s : State := { mateSt 2 1 with mate := { (mateSt 2 1).mate with await := [8] } }; s.role = 1 ∧ 8 ∈ s.mate.await ∧ 9 ∉ s.mate.await) := by decide +kernel
/-- A STANDBY in SYNC `v`. -/
def standby0 (v : Nat) : State := (mateSt 2 2).set R.MATE_STAT F.MATE_STAT_SYNC v
theorem witness_forwardReceive : (standby0 2).fwdRefuses 8 = false ∧ (mateSt 2 1).fwdRefuses 8 = true ∧ (((standby0 1).at_ 0).fwdSeq none).sync = 1 ∧
    (((standby0 2).at_ 0).fwdSeq none).sync ≠ 1 ∧ ((((standby0 2).at_ 0).fwdSeq none).runFwd (hdr0 0) .primaryOnly).map (·.1) = some true ∧
    ((((standby0 2).at_ 0).fwdSeq none).runFwd (hdr0 0) (.routeSet 600 0)).map (·.1) = some false := by decide +kernel
theorem test_forwardReceive : (after (exec (.forwardReceive 8 (hdr0 0) none (.routeSet 600 0)) (standby0 2))).sync = 3 ∧
    (after (exec (.forwardReceive 8 (hdr0 0) none .primaryOnly) (standby0 1))).mate.fwdHold.length = 1 := by decide +kernel
theorem witness_stateTransfer : (standby0 1).sync = 1 ∧ (standby0 1).apart = false ∧ (standby0 1).role = 2 ∧ (standby0 1).fwdFree 0 = true ∧
    (((standby0 1).at_ 5).runFwds ([] ++ (standby0 1).mate.fwdHold)).map (·.1) = some true ∧
    (((standby0 1).at_ 5).runFwds ([(hdr0 0, .routeSet 600 0)] ++ (standby0 1).mate.fwdHold)).map (·.1) = some false ∧
    ((mateSt 2 1).set R.MATE_STAT F.MATE_STAT_SYNC 1).role = 1 := by decide +kernel

/-- A device in the domain, as device 4 with the time valid; its ring 63, which domain messages enter, is enabled. -/
def domSt : State :=
  let s := ((desc0.set R.MATE_DOM_CFG F.MATE_DOM_CFG_EN 1).set R.MATE_DOM_CFG F.MATE_DOM_CFG_DEVNUM 4).set R.REF_STAT F.REF_STAT_TIME_VALID 1
  { s.setRingSt 63 1 with sec := { s.sec with domKey := some [1] } }
/-- A NOP of a domain message, and one whose opcode is not allowed. -/
def domDesc (op : Byte) : DomDesc := { raw := op :: List.replicate 63 0 }
/-- A packet from device 9. -/
def domPkt0 (dev : Nat) : DomPkt := { tagOk := true, src := 9, tdev := dev, tunit := 0, epoch := 0, rate := domSt.leapRate, id := 2, time := domSt.nsNow + 1, descs := [domDesc 1] }
theorem witness_domainMsg : canAdmit domSt (domRule 9 0 64 64) (hdr0 0) = true ∧ (vetted domSt (domRule 9 0 64 64) (hdr0 0)).timeValid = true ∧
    (vetted domSt (domRule 9 0 64 64) (hdr0 0)).inDomain = true ∧ domBad 0 ([domDesc 1].take (64 / 64)) 0 = none ∧ (∀ q ∈ [(0, 64), (65, 64), (1088, 64), (64, 4)], canAdmit domSt (domRule 9 0 q.1 q.2) (hdr0 0) = true) ∧ domBad 0 ([domDesc 2, domDesc 9].take (128 / 64)) 0 = some 64 ∧
    canAdmit desc0 (domRule 9 0 64 64) (hdr0 0) = true ∧ (vetted desc0 (domRule 9 0 64 64) (hdr0 0)).inDomain = false := by decide +kernel
theorem witness_domOp : (opSt 2 1 (.dom { seq := 2, packet := [] })).domOp 2 = some (4, { seq := 2, packet := [] }) ∧ (opSt 2 1 (.dom { seq := 2, packet := [] })).domOp 3 = none ∧
    0 < (opSt 2 1 (.dom { seq := 2, packet := [] })).get R.MATE_DOM_TO F.MATE_DOM_TO_RETRY ∧ domSt.inDomain = true ∧ desc0.inDomain = false := by decide +kernel
theorem witness_domainPacket : domSt.role ≠ 2 ∧ (domSt.at_ 0).domFresh (domPkt0 4) = true ∧ (domPkt0 4).rate = domSt.leapRate ∧ (domPkt0 4).epoch = domSt.epoch ∧
    domSt.ringSt (domSt.get R.MATE_DOM_UDP F.MATE_DOM_UDP_DOM_RING) = 1 ∧ domSt.timeValid = true ∧ domSt.get R.MATE_DOM_CFG F.MATE_DOM_CFG_DEVNUM = 4 ∧ (domSt.rst_ 63).domQ = [] ∧
    domSt.get (R.RNG_STAT 63) F.RNG_STAT_SQ_HEAD = (domSt.rst_ 63).sqTail ∧ domSt.outstanding 63 + (domSt.rst_ 63).unread + (domPkt0 4).descs.length ≤ domSt.cqSize 63 := by decide +kernel
theorem test_domainPacket : (let t := after (exec (.domainPacketReceive (domPkt0 4) 0) domSt); (t.rst_ 63).fetched.length = 1 ∧ t.rd R.MATE_DOM_RX_CNT = 1) := by decide +kernel
/-- A STANDBY in adaptive mode whose admitted traffic is above what the present VDD_CORE carries. -/
def standbyLow : State :=
  ((withRoute 328 (((vSt 1 0 700).set R.MATE_STAT F.MATE_STAT_ROLE 2).set R.MATE_STAT F.MATE_STAT_LINK_UP 1)).readSlack { rates := [] }).set R.MATE_STAT F.MATE_STAT_SYNC 2
theorem witness_forward_waits : standbyLow.fwdRefuses 8 = false ∧ ((standbyLow.at_ 0).fwdSeq none).sync ≠ 1 ∧
    (((standbyLow.at_ 0).fwdSeq none).runFwd (hdr0 0) (.routeSet 328 345)).isNone = true := by decide +kernel
/-- The packet of device 9 has been accepted. -/
def domSeen : State := after (exec (.domainPacketReceive (domPkt0 4) 0) domSt)
theorem witness_domainPacket_again : (domSeen.at_ 0).domFresh (domPkt0 4) = false ∧ domSeen.inDomain = true ∧
    ((domSeen.domSrc 9).ids.find? (fun q => q.1 == (domPkt0 4).id && q.2.1 == (domPkt0 4).time)).isSome = true ∧
    ((domSeen.domSrc 9).ids.find? (fun q => q.1 == 77 && q.2.1 == (domPkt0 4).time)).isSome = false := by decide +kernel

/-! ### Security and lifecycle -/

/-- `desc0` in lifecycle `l`; key `k` is ready. -/
def secSt (l k : Nat) : State := (desc0.set R.SEC_STAT F.SEC_STAT_LIFECYCLE l).set R.SEC_STAT (keyField k) 1
/-- The rules of LOG_CHECKPOINT, and of KEY_PIN operations 1, 2 and 3. -/
def ruleCk : DescRule := { op := 0x71, rfn := 0, pay := [fld 16 8 64] }
def ruleKey (op slot : Nat) : DescRule := { op := 0x72, rfn := 0, need := true, pay := keyPay op (if op = 1 then [fld 16 1 slot] else []) .any }
theorem witness_attest : (let r := attestRule [5] 64
    canAdmit (secSt 1 0) r (hdr0 0) = true ∧ (vetted (secSt 1 0) r (hdr0 0)).keySt 0 = 1 ∧
    ((vetted (secSt 1 0) r (hdr0 0)).takeLeaf 0).1 = some 0 ∧ canAdmit desc0 r (hdr0 0) = true ∧ (vetted desc0 r (hdr0 0)).keySt 0 ≠ 1) := by decide +kernel
theorem witness_logCheckpoint : canAdmit (secSt 1 1) ruleCk (hdr0 0) = true ∧ (vetted (secSt 1 1) ruleCk (hdr0 0)).keySt 1 = 1 ∧
    (vetted (secSt 1 1) ruleCk (hdr0 0)).lifecycle ≠ 0 ∧ (vetted (secSt 1 0) ruleCk (hdr0 0)).keySt 1 ≠ 1 ∧ canAdmit (secSt 1 0) ruleCk (hdr0 0) = true ∧
    canAdmit desc0 ruleCk (hdr0 0) = true ∧ (vetted desc0 ruleCk (hdr0 0)).lifecycle = 0 := by decide +kernel
theorem test_logCheckpoint : (let t := after (exec (.logCheckpoint (hdr0 0) 64 true) (load (secSt 1 1) ruleCk (hdr0 0))); t.ckNum = 1 ∧ t.host.cpls.length = 1) := by decide +kernel
/-- A key object of parameter set 10H. -/
def key0 : List Nat := 0x10 :: List.replicate 67 0 ++ [0, 0, 0, 0]
theorem witness_keyPin : (∀ q ∈ [(7, 8, some key0), (8, 8, none), (7, 4, none), (7, 8, none)], canAdmit (secSt 1 0) (pinRule (secSt 1 0) q.1 q.2.1 q.2.2) (hdr0 0) = true ∧
    bytesAt ((load (secSt 1 0) (pinRule (secSt 1 0) q.1 q.2.1 q.2.2) (hdr0 0)).headRaw 0) 17 1 = 0) ∧ keyObj key0 = (0x10, none) ∧ keyObj [0x13] = (0x13, some 0) ∧
    keyObj (0x10 :: List.replicate 67 0 ++ [0, 1, 0, 0]) = (0x10, some 69) := by decide +kernel
theorem witness_keyPin_op : (let s := load (secSt 1 0) { pinRule (secSt 1 0) 7 8 none with pay := keyPay 6 [fld 16 1 7] (.is 8) } (hdr0 0)
    (match s.vet (pinRule (secSt 1 0) 7 8 none) (hdr0 0) with
      | .pass v => v.entriesFree 1
      | _ => false) = true ∧ bytesAt (s.headRaw 0) 17 1 = 6) := by decide +kernel
theorem test_keyPin : (let t := after (exec (.keyPin (hdr0 0) 7 8 (some key0)) (load (secSt 1 0) (pinRule (secSt 1 0) 7 8 (some key0)) (hdr0 0)))
    (tabFind t.sec.keys 7).isSome = true ∧ t.get R.SEC_STAT F.SEC_STAT_KEYS = 128) := by decide +kernel
/-- Key slot 0 is pinned; autostore is armed where `a` is 1. -/
def keySt0 (l a : Nat) (sign : Bool) : State :=
  let s := ((secSt l 0).set R.AXL_CTL F.AXL_CTL_ARM a).set R.AXL_STAT F.AXL_STAT_VHOLD_OK a
  { s.setB R.SEC_STAT F.SEC_STAT_SIGN_REQ sign with sec := { s.sec with keys := [(0, ⟨0x10, key0⟩)] } }
/-- A header that is signed, and the blob whose signature by that key verifies for the descriptor of rule `r`. -/
def hdrN : Hdr := { hdr0 0 with signed := true, blobAddr := 64 }
def blobOf (r : DescRule) : Blob :=
  let b : Blob := { head := le 24 (1 + 2500 * 2 ^ 16 + 0x10 * 2 ^ 32 + 2 ^ 64 + 0xFFFF * 2 ^ 128), key := key0, digest := 0 }
  { b with digest := Config.shake 512 (nums (signedMsg b (spell r hdrN) r.host)) }
def hdrS (r : DescRule) : Hdr := { hdrN with blob := some (blobOf r) }
/-- The state in which the signed descriptor of rule `r` is passed on. -/
def signedIn (s : State) (r : DescRule) : State :=
  ((((load s r hdrN).at_ 0).popFetched 0).recordSeq 0 1)
/-- Every check of that descriptor but the digest passes. -/
def signedOk (s : State) (r : DescRule) : Bool :=
  let l := load s r hdrN
  let p := (l.at_ 0).popFetched 0
  l.atHead r hdrN && !l.heldByRaise hdrN && (p.formBad r hdrN (spell r hdrN)).isNone && p.isReady && decide (hdrN.epoch = p.epoch) && r.fault.isNone && !r.never &&
    r.salvo.isNone && ((tabFind p.sec.keys 0).map fun k => (k.oid, k.key)) == some (0x10, key0) && decide (p.lastSeq 0 = 0) && !r.lv &&
    decide ((signedIn s r).role ≠ 2) && !(signedIn s r).host.fwdNow && !(signedIn s r).host.restoring && (signedIn s r).entriesFree 1 &&
    l.headRaw 0 == spell r hdrN
theorem blobOf_fields (r : DescRule) : (blobOf r).slot = 0 ∧ (blobOf r).version = 1 ∧ (blobOf r).zero = true ∧ (blobOf r).oid = 0x10 ∧ (blobOf r).sigLen = 2500 ∧
    (blobOf r).seq = 1 ∧ (blobOf r).target = 0xFFFF ∧ (blobOf r).key = key0 := by
  refine ⟨?_, ?_, ?_, ?_, ?_, ?_, ?_, rfl⟩ <;> (show _ = _; simp only [blobOf, Blob.slot, Blob.version, Blob.zero, Blob.oid, Blob.sigLen, Blob.seq, Blob.target]; decide +kernel)
theorem admits_signed {s : State} {r : DescRule} (hc : signedOk s r = true) : (load s r (hdrS r)).admits r (hdrS r) (signedIn s r) := by
  obtain ⟨f1, f2, f3, f4, f5, f6, f7, f8⟩ := blobOf_fields r
  simp only [signedOk, Bool.and_eq_true, Bool.not_eq_true', decide_eq_true_eq, Option.isNone_iff_eq_none, beq_iff_eq, Option.map_eq_some_iff] at hc
  obtain ⟨⟨⟨⟨⟨⟨⟨⟨⟨⟨⟨⟨⟨⟨⟨c1, c2⟩, c3⟩, c4⟩, c5⟩, c6⟩, c7⟩, c8⟩, k, c9, ck⟩, c10⟩, c11⟩, c12⟩, c13⟩, c14⟩, c15⟩, c0⟩ := hc
  obtain ⟨ko, kk⟩ := k
  obtain ⟨rfl, rfl⟩ := Prod.mk.inj ck
  refine ⟨?_, c13, c14, c15⟩
  have e1 : (load s r (hdrS r)).atHead r (hdrS r) = true := c1
  have e2 : (load s r (hdrS r)).heldByRaise (hdrS r) = false := c2
  have eh : (load s r (hdrS r)).headRaw (hdrS r).ring = spell r hdrN := c0
  have ep : ((load s r (hdrS r)).at_ (hdrS r).t).popFetched (hdrS r).ring.val = ((load s r hdrN).at_ 0).popFetched 0 := rfl
  have e3 : (((load s r hdrN).at_ 0).popFetched 0).formBad r (hdrS r) (spell r hdrN) = none := c3
  have em : (blobOf r).digest = Config.shake 512 (nums (signedMsg (blobOf r) (spell r hdrN) r.host)) := rfl
  have es : (((load s r hdrN).at_ 0).popFetched 0).signCheck r (hdrS r) (spell r hdrN) = (0, 0, signedIn s r) := by
    have hn : r.noBlob (hdrS r) = false := by simp [DescRule.noBlob, c8]
    have hb : r.blobBad (hdrS r) = none := by simp [DescRule.blobBad, c8]
    have hk : (((load s r hdrN).at_ 0).popFetched 0).checkBlob (blobOf r) (signedMsg (blobOf r) (spell r hdrN) r.host) = (0, signedIn s r) := by
      unfold State.checkBlob
      rw [← em]
      simp only [f1, f2, f3, f4, f5, f6, f7, f8, c9, c10, sigLenOf]
      simp [signedIn]
    have h1 : (hdrS r).signed = true := rfl
    have h2 : (hdrS r).blob = some (blobOf r) := rfl
    unfold State.signCheck
    simp only [c7, h1, h2, hn, hb, hk]
    rfl
  unfold State.vet
  rw [e1, e2, eh, ep]
  dsimp only
  rw [e3]
  simp only [State.vetRest, es, c4, c6, c11]
  have h3 : (hdrS r).epoch = (((load s r hdrN).at_ 0).popFetched 0).epoch := c5
  have h4 : (hdrS r).rfn = 0 := rfl
  simp [h3, h4, c12]
theorem witness_keyUnpin : (∀ q ∈ [(1, 0), (1, 7), (1, 8)], signedOk (keySt0 1 1 false) (ruleKey q.1 q.2) = true) ∧ signedOk (keySt0 1 1 true) (ruleKey 1 0) = true ∧
    (signedIn (keySt0 1 1 true) (ruleKey 1 0)).signReq = true ∧
    (tabFind (signedIn (keySt0 1 1 true) (ruleKey 1 0)).sec.keys 0).map (·.oid) = some 0x10 ∧ (signedIn (keySt0 1 1 true) (ruleKey 1 0)).sec.keys.length = 1 ∧
    (signedIn (keySt0 1 1 false) (ruleKey 1 0)).signReq = false ∧ tabFind (signedIn (keySt0 1 1 false) (ruleKey 1 7)).sec.keys 7 = none := by
  decide +kernel
theorem witness_signing : (∀ op ∈ [2, 3], signedOk (keySt0 1 1 false) (ruleKey op 0) = true ∧ signedOk (keySt0 2 1 true) (ruleKey op 0) = true) ∧
    (signedIn (keySt0 1 1 false) (ruleKey 2 0)).armed = true ∧ (signedIn (keySt0 1 1 false) (ruleKey 2 0)).lifecycle = 1 ∧ signedOk (keySt0 1 0 false) (ruleKey 2 0) = true ∧
    (signedIn (keySt0 1 0 false) (ruleKey 2 0)).armed = false ∧ signedOk (keySt0 3 1 false) (ruleKey 2 0) = true ∧ (signedIn (keySt0 3 1 false) (ruleKey 2 0)).lifecycle = 3 ∧
    (signedIn (keySt0 3 1 false) (ruleKey 2 0)).armed = true := by decide +kernel
theorem witness_signing_admits : (load (keySt0 1 1 false) (ruleKey 2 0) (hdrS (ruleKey 2 0))).admits (ruleKey 2 0) (hdrS (ruleKey 2 0)) (signedIn (keySt0 1 1 false) (ruleKey 2 0)) :=
  admits_signed (by decide +kernel)
theorem test_signing : (after (exec (.signingEnter (hdr0 0)) (load (keySt0 1 1 false) (ruleKey 2 0) (hdr0 0)))).host.cpls.map (fun c => (c.status, c.result)) = [(5, 1)] := by decide +kernel
theorem witness_domainKey : (∀ q ∈ [(8, some [5]), (4, none), (8, none)], canAdmit (secSt 1 0) (domKeyRule (secSt 1 0) 4 (.is q.1) (keyHost q.1 q.2)) (hdr0 0) = true) ∧
    canAdmit (secSt 1 0) (domKeyRule (secSt 1 0) 5 .any []) (hdr0 0) = true ∧ signedOk (keySt0 1 1 false) (domKeyRule (keySt0 1 1 false) 5 .any []) = true := by decide +kernel
theorem test_domainKey : (let t := after (exec (.domainKeyInstall (hdr0 0) 8 (some [5])) (load (secSt 1 0) (domKeyRule (secSt 1 0) 4 (.is 8) (keyHost 8 (some [5]))) (hdr0 0)))
    t.sec.domKey = some [5] ∧ t.flag R.SEC_STAT F.SEC_STAT_DOMAIN_KEY = true) := by decide +kernel
theorem witness_checkBlob : tabFind (keySt0 1 1 false).sec.keys 0 = some ⟨0x10, key0⟩ ∧ sigLenOf 0x10 = some 2500 ∧ (keySt0 1 1 false).lastSeq 0 < 1 ∧
    ((keySt0 1 1 false).recordSeq 0 1).lastSeq 0 = 1 ∧ (keySt0 1 1 false).get R.MATE_DOM_CFG F.MATE_DOM_CFG_DEVNUM ≠ 5 ∧
    ({ head := le 24 (1 + 5 * 2 ^ 128), key := key0, digest := 0 } : Blob).target = 5 ∧ ({ head := [], key := [], digest := 0 } : Blob).version ≠ 1 := by decide +kernel

/-- A state in lifecycle `l` with good entropy, key `k` ready and twin role `r`; a token for target `t`. -/
def lcSt (l k r : Nat) : State :=
  (((up0.set R.SEC_STAT F.SEC_STAT_LIFECYCLE l).set R.SEC_STAT (keyField k) 1).set R.SEC_STAT F.SEC_STAT_ENTROPY_OK 1).set R.MATE_STAT F.MATE_STAT_ROLE r
def tokHead (t len : Nat) : List Byte := le 64 (0x313054434C565844 + t * 2 ^ 128 + len * 2 ^ 448)
def tok0 (t : Nat) : Token := { head := tokHead t (if t = 1 then 2 else 0), digest := Config.shake 512 (nums (tokHead t (if t = 1 then 2 else 0))), vendor := true, certOk := true, cert := [1, 2], consent := none }
theorem tokenOk_of {s : State} {k : Token} {n : Nat} (hd : k.digest = Config.shake 512 (nums k.head))
    (hq : (k.form && bytesAt k.head 8 8 == s.devId && (List.range 8).all (fun w => bytesAt k.head (24 + 4 * w) 4 == (s.rd (R.SEC_LC_NONCE w)).toNat) && k.vendor && k.target == n) = true) :
    s.tokenOk (some k) n = true := by
  have : k.verifies = k.vendor := by simp [Token.verifies, hd]
  simpa [State.tokenOk, this] using hq
theorem witness_lifecycle : (lcSt 0 0 0).upFor R.SEC_LC_REQ ∧ up0.upFor R.SEC_LOG_TAIL ∧ up0.upFor R.SEC_CKPT_BASE_HI ∧ up0.upFor R.SEC_LOG_BASE_LO ∧ (∀ l < 4, (lcSt l 0 0).lifecycle = l ∧ (lcSt l 0 0).sec.genId = false ∧ (lcSt l 0 0).role = 0) ∧
    (lcSt 1 0 1).role ≠ 0 ∧ (lcSt 0 0 0).entropyOk = true ∧ ((lcSt 0 0 0).set R.SEC_STAT F.SEC_STAT_ENTROPY_OK 0).entropyOk = false ∧ (lcSt 0 0 0).keySt 0 = 1 ∧
    (lcSt 0 1 0).keySt 0 = 0 ∧ ((lcSt 1 0 0).consent (some (tok0 3))).1 = true := by
  unfold State.upFor State.up; decide +kernel
theorem witness_tokenOk : ∀ l ∈ [0, 1, 2, 3], ∀ t ∈ [1, 3, 4, 7], (lcSt l 0 0).tokenOk (some (tok0 t)) t = true := by
  intro l hl t ht
  refine tokenOk_of rfl ?_
  revert l t; decide +kernel
theorem witness_tokens : (lcSt 0 0 0).tokenOk none 4 = false ∧ (tok0 1).cert.length ≤ 4096 ∧ (tok0 1).certOk = true ∧ bytesAt (tok0 1).head 16 1 ≠ 3 ∧
    (tok0 1).head.length = 64 ∧ ({ tok0 1 with head := [] } : Token).head.length ≠ 64 ∧
    (({ lcSt 2 0 0 with sec := { (lcSt 2 0 0).sec with keys := [(0, ⟨0x10, key0⟩)] } } : State).consent (some (tok0 3))).1 = false := by decide +kernel
theorem test_lcProvision : (after (exec (.lcProvision none) (lcSt 0 1 0))).sec.genId = true := by decide +kernel
theorem test_setLifecycle : (let t := (lcSt 1 0 0).setLifecycle 2; t.lifecycle = 2 ∧ t.get R.SEC_STAT F.SEC_STAT_DEBUG = 0 ∧
    t.get R.GLB_MODE_HIST F.GLB_MODE_HIST_LIFECYCLE_CHG = 1) := by decide +kernel
theorem witness_keyGenerated : ({ lcSt 0 0 0 with sec := { (lcSt 0 0 0).sec with genId := true } } : State).sec.genId = true ∧
    ((lcSt 1 0 0).set R.SEC_STAT F.SEC_STAT_LOG_KEY 2).keySt 1 = 2 ∧ ((lcSt 1 0 0).set R.SEC_STAT F.SEC_STAT_LOG_KEY 2).entropyOk = true ∧
    (∀ o ∈ (lcSt 1 0 0).host.ops, ∀ a ok, o.body ≠ .ckpt a ok) := ⟨rfl, by decide +kernel, by decide +kernel, fun _ ho => by cases ho⟩
theorem test_keyGenerated : (after (exec .routeLogKeyGenerated ((lcSt 1 0 0).set R.SEC_STAT F.SEC_STAT_LOG_KEY 2))).keySt 1 = 1 := by decide +kernel
theorem witness_checkpointPeriod : (lcSt 1 1 0).sec.lastCk + (lcSt 1 1 0).ckPeriod ≤ 10 ^ 18 ∧ (lcSt 1 1 0).keySt 1 = 1 ∧ ¬ (lcSt 1 1 0).sec.lastCk + (lcSt 1 1 0).ckPeriod ≤ 0 := by
  decide +kernel
theorem witness_logSetup : logSetupReg R.SEC_CKPT_BASE_HI = true ∧ logSetupReg R.SEC_LOG_BASE_LO = true ∧ logSetupReg R.SEC_LOG_TAIL = false ∧
    up0.get R.SEC_LOG_HEAD F.SEC_LOG_HEAD_HEAD = up0.get R.SEC_LOG_TAIL F.SEC_LOG_TAIL_TAIL ∧
    (up0.set R.SEC_LOG_TAIL F.SEC_LOG_TAIL_TAIL 1).get R.SEC_LOG_HEAD F.SEC_LOG_HEAD_HEAD ≠ (up0.set R.SEC_LOG_TAIL F.SEC_LOG_TAIL_TAIL 1).get R.SEC_LOG_TAIL F.SEC_LOG_TAIL_TAIL := by
  decide +kernel
theorem test_logSetup : (let t := after (exec (.logSetupWrite R.SEC_LOG_BASE_HI 5) (up0.wr R.SEC_LOG_BASE_LO 4096))
    t.sec.logUp = true ∧ t.inForce R.SEC_LOG_BASE_HI = 5 ∧ t.inForce R.SEC_LOG_BASE_LO = 4096) := by decide +kernel
theorem witness_lcProvision_cert : 4096 < (List.replicate 4097 0).length ∧
    ((lcSt 0 0 0).set R.SEC_STAT F.SEC_STAT_ENTROPY_OK 0).keySt 0 = 1 := by decide +kernel

/-! ### Faults -/

/-- `s` with an error record of unit `u` in state `st` in slot 3, sequence number 9. -/
def withRec (s : State) (u st : Nat) : State := { s with flt := { s.flt with recs := [{ slot := 3, st := st, source := 5, unit := u, seq := 9 }] } }
/-- READY, no record; and a queue full of LASTING records. -/
def flt0 : State := up0.set R.RNG_GLB_STAT F.RNG_GLB_STAT_READY 1
def fltFull : State := { flt0 with flt := { flt0.flt with recs := (List.range 64).map fun k => { slot := k, st := 3, source := 5, unit := 0x20000, seq := k } } }
/-- The unit is fenced. -/
def fencedSt (u : Nat) : State := flt0.setFltUnit u { fenced := true }
theorem witness_reportError : ((fencedSt 0x20003).fltUnit 0x20003).fenced = true ∧ (flt0.fltUnit 0x20003).fenced = false ∧
    ((withRec flt0 0x20003 0).recOf 0x20003 0).map (·.slot) = some 3 ∧ (withRec flt0 0x20003 1).recOf 0x20003 0 = none ∧
    ((withRec flt0 0x20003 1).recOf 0x20003 1).map (·.slot) = some 3 ∧ flt0.recOf 0x20003 0 = none ∧ flt0.recOf 0x20003 1 = none ∧ flt0.flt.recs.length < 64 := by decide +kernel
theorem witness_reportError_full : 64 ≤ fltFull.flt.recs.length ∧ fltFull.oldestRec 2 = none ∧ fltFull.oldestRec 4 = none ∧ fltFull.recOf 0x20003 0 = none ∧
    fltFull.recOf 0x20003 1 = none ∧ (fltFull.fltUnit 0x20003).fenced = false := by decide +kernel
theorem test_errorDetected : (let t := after (exec (.errorDetected 0x20003 0x105 5) flt0)
    (t.flt.recs.map fun r => (r.slot, r.st, r.source, r.unit)) = [(0, 0, 5, 0x20003)] ∧ t.get R.FLT_HIST F.FLT_HIST_NEW = 1) := by decide +kernel
theorem test_errorDetected_again : (let t := after (exec (.errorDetected 0x20003 5 5) (withRec flt0 0x20003 1))
    (t.flt.recs.map fun r => (r.st, r.detail)) = [(3, 16)] ∧ (t.fltUnit 0x20003).fenced = true) := by decide +kernel
theorem witness_selfTest : (withRec flt0 0x20003 1).testing.isSome = true ∧ (withRec flt0 0x20003 0).testing = none ∧ flt0.isReady = true ∧
    ((withRec flt0 0x20003 0).oldestRec 0).map (·.unit) = some 0x20003 ∧ (flt0.at_ 5).nextTest = none := by decide +kernel
theorem test_selfTestStart : (after (exec (.selfTestStart 5) (withRec flt0 0x20003 0))).testing.isSome = true := by decide +kernel
theorem test_selfTestEnd : ((after (exec (.selfTestEnd .pass 5) (withRec flt0 0x20003 1))).flt.recs.map (·.st)) = [2] ∧
    ((after (exec (.selfTestEnd (.fail 5) 5) (withRec flt0 0x20003 1))).flt.recs.map (·.st)) = [3] ∧
    ((after (exec (.selfTestEnd .abandoned 5) (withRec flt0 0x20003 1))).flt.recs.map fun r => (r.st, r.detail)) = [(0, 32)] := by decide +kernel
theorem test_fltAck : (after (exec (.fltAckWrite 0x00090003) (withRec flt0 0x20003 3))).flt.recs = [] ∧
    (after (exec (.fltAckWrite 0x00090003) (withRec flt0 0x20003 1))).flt.recs.length = 1 := by decide +kernel
theorem witness_fltWrites : flt0.upFor R.FLT_ACK ∧ (fencedSt 0x20003).upFor R.FLT_UNFENCE := by unfold State.upFor State.up; decide +kernel
theorem witness_fltUnfence : (fencedSt 0x20003).mayUnfence 0x20003 = true ∧ flt0.mayUnfence 0x20003 = false ∧ (0x80020003 / 2 ^ 31 % 2 = 1) ∧ 0x80020003 % 2 ^ 20 = 0x20003 ∧
    (fencedSt 0x20003).recOf 0x20003 0 = none ∧ (fencedSt 0x20003).recOf 0x20003 1 = none := by decide +kernel
theorem test_fltUnfence : (after (exec (.fltUnfenceWrite 0x80020003 5) flt0)).get R.FLT_HIST F.FLT_HIST_UNFENCE_ERR = 1 := by decide +kernel

/-! ### Package -/

theorem witness_i2c : up0.i2cUp = true ∧ State.reset.i2cUp = false := by decide +kernel
theorem test_i2cRead : (after (exec (.i2cRead 0) up0)).pkg.last = some 0x7272 ∧ (after (exec (.i2cRead 0) State.reset)).pkg.last = none := by decide +kernel
theorem test_i2cWrite : (after (exec (.i2cWrite 4 1) up0)).pkg.hist = 0 ∧ (after (exec (.i2cWrite 3 1) up0)).pkg.hist = 1 := by decide +kernel
theorem witness_extTemp : (up0.set R.REF_CTL F.REF_CTL_TEMP_SRC 1).flag R.REF_CTL F.REF_CTL_TEMP_SRC = true ∧ (up0.set R.REF_CTL F.REF_CTL_TEMP_SRC 0).flag R.REF_CTL F.REF_CTL_TEMP_SRC = false ∧
    up0.pkg.extAt + 10 * ticksPerSec < 10 ^ 18 := by decide +kernel
theorem test_boundaryScan : (let s := up0.set R.SEC_STAT F.SEC_STAT_DEBUG 0
    (after (exec (.boundaryScanInstruction .idcode) s)).pkg.tdo = some 0xB72720F3 ∧ (after (exec (.boundaryScanInstruction .debug) s)).pkg.jtag = .idcode ∧
    (after (exec (.boundaryScanInstruction .debug) (s.set R.SEC_STAT F.SEC_STAT_DEBUG 1))).pkg.jtag = .debug) := by decide +kernel
theorem witness_tempMax : (up0.set R.GLB_GRADE F.GLB_GRADE_GRADE 0x45).tempMax = 11000 ∧ (up0.set R.GLB_GRADE F.GLB_GRADE_GRADE 0x43).tempMax = 10000 := by decide +kernel
theorem test_overTemperature : (after (exec (.overTemperature 10001) (up0.set R.GLB_GRADE F.GLB_GRADE_GRADE 0x43))).pkg.hist = 3 ∧
    (after (exec (.overTemperature 10001) (up0.set R.GLB_GRADE F.GLB_GRADE_GRADE 0x45))).pkg.hist = 1 := by decide +kernel

/-! ### More ill-formed commands, one for each remaining check of WellFormed -/

theorem test_wf_registerWrite : wellFormed (.registerWrite 6 3 0 0 found0) = false ∧ wellFormed (.registerWrite 6 4 (2 ^ 32) 0 found0) = false ∧
    wellFormed (.registerWrite 6 4 0xFFFFFFFF 0 found0) = true ∧ wellFormed (.snapshotRead (2 ^ 26 + 2 ^ 18)) = false ∧
    wellFormed (.registerWrite 6 4 0 0 { ok := true, tok := some { tok0 1 with head := [] } }) = false ∧ wellFormed (.logSetupWrite 6 0) = false := by decide
theorem test_wf_lanes : wellFormed (.cdrLock 0 16) = false ∧ wellFormed (.cdrLock 0 15) = true ∧ wellFormed (.startBoundary 0 { meas0 with fmt := 256 } 0) = false ∧
    wellFormed (.startBoundary 0 { meas0 with period := 0 } 0) = false ∧ wellFormed (.startBoundary 0 { meas0 with lines := 0 } 0) = false ∧
    wellFormed (.startBoundary 0 meas0 0) = true ∧ wellFormed (.rateForceWrite 0 (2 ^ 32) 0) = false ∧ wellFormed (.multiWrite false 0 (2 ^ 32)) = false := by decide
theorem test_wf_routes : wellFormed (.routeSet (hdr0 0) (2 ^ 16) 0) = false ∧ wellFormed (.takeAt (hdr0 0) 0 (2 ^ 16)) = false ∧
    wellFormed (.salvo (hdr0 0) { salvo1 328 with count := 2 ^ 16 }) = false ∧ wellFormed (.salvo (hdr0 0) { salvo1 328 with data := some [] }) = false ∧
    wellFormed (.salvo (hdr0 0) { salvo1 328 with pointer := 2 ^ 64 }) = false ∧ wellFormed (.salvo (hdr0 0) (salvo1 328)) = true ∧
    wellFormed (.salvoCancel (hdr0 0) 256 0) = false ∧ wellFormed (.routeSync (hdr0 0) (chain1 (2 ^ 16) 0)) = false ∧
    wellFormed (.routeConvert (hdr0 0) (chain1 0 0) { conv0 with kernel := 256 }) = false ∧ wellFormed (.routeConvert (hdr0 0) (chain1 0 0) conv0) = true ∧
    wellFormed (.leapArm 0 (2 ^ 48) 0) = false ∧ wellFormed (.leapExecute 0 (2 ^ 48) 0) = false ∧ wellFormed (.leapNoTimingExecute 0 (2 ^ 48) 0) = false ∧
    wellFormed (.pgCfgWrite 0 (2 ^ 32)) = false := by decide
theorem test_wf_store : wellFormed (.bufAlloc (hdr0 0) 256 0 0 0 0) = false ∧ wellFormed (.bufFree (hdr0 0) (2 ^ 16)) = false ∧
    wellFormed (.bufWrite (hdr0 0) { bufReq0 0 with pitch := 2 ^ 32 } none) = false ∧ wellFormed (.bufWrite (hdr0 0) (bufReq0 0) none) = true ∧
    wellFormed (.bufferRefRelease 8192) = false ∧ wellFormed (.bufferRefRelease 8191) = true ∧ wellFormed (.granuleListSwitch 8192) = false ∧
    wellFormed (.persistPut (hdr0 0) (2 ^ 16) 0 0 none) = false := by decide
theorem test_wf_pictures : wellFormed (.ancChecksumError 0 256) = false ∧ wellFormed (.groupForm true 0 256 0) = false ∧ wellFormed (.sourceFrameSigned 0 frame0 0) = true ∧
    wellFormed (.sourceFrameSigned 0 { frame0 with pic := [[{ c0 := 1024 }]] } 0) = false ∧ wellFormed (.sourceFrameSigned 0 { frame0 with links := [[[{ key := 4 }]]] } 0) = false ∧
    wellFormed (.sourceFrameSigned 0 { frame0 with pidFmt := 256 } 0) = false ∧ wellFormed (.sourceFrameSigned 0 { frame0 with anc := [⟨9, true, 0x41, 1, [1024]⟩] } 0) = false ∧
    wellFormed (.destFrameSent 0 (some [[{ c1 := 1024 }]]) none 0) = false ∧ wellFormed (.cwFrameComplete 0 (some [[{ c2 := 1024 }]]) 0) = false ∧
    wellFormed (.eccUncorrectable 0 (2 ^ 21) 0) = false := by decide
theorem test_wf_contexts : wellFormed (.ctxAdmit (hdr0 0) 0 256 0 conv0) = false ∧ wellFormed (.ctxAdmit (hdr0 0) 0 0 0 conv0) = true ∧
    wellFormed (.ctxParam (hdr0 0) 0 256 0 conv0) = false ∧ wellFormed (.ctxParam (hdr0 0) 0 128 0 conv0) = false ∧ wellFormed (.ctxParam (hdr0 0) 256 0 0 conv0) = false ∧ wellFormed (.ctxRelease (hdr0 0) true (2 ^ 16)) = false := by decide
theorem test_wf_scanOut : wellFormed (.souCfg (hdr0 0) { souReq0 with unit := 256 }) = false ∧ wellFormed (.souCfg (hdr0 0) { souReq0 with data := some [] }) = false ∧
    wellFormed (.souCfg (hdr0 0) { souReq0 with quad := 256 }) = false ∧ wellFormed (.souCfg (hdr0 0) { souReq0 with data := none }) = true ∧ wellFormed (.souCfg (hdr0 0) souReq0) = true ∧
    wellFormed (.souCommit (hdr0 0) 256) = false ∧ wellFormed (.ufmtModeWrite 0 (2 ^ 32)) = false := by decide
theorem test_wf_audio : wellFormed (.audMap (hdr0 0) { audMap0 with gain := 32768 }) = false ∧ wellFormed (.audMap (hdr0 0) audMap0) = true ∧
    wellFormed (.audFade (hdr0 0) { audFade0 with target := -32769 }) = false ∧ wellFormed (.audFade (hdr0 0) audFade0) = true ∧
    wellFormed (.sapCfg (hdr0 0) { sapReq0 with mode := 4 }) = false ∧ wellFormed (.sapCfg (hdr0 0) sapReq0) = true ∧ wellFormed (.aesoEnWrite 0 (2 ^ 32)) = false := by decide
theorem test_wf_references : wellFormed (.refInSrcWrite 0 128 0 true 0) = false ∧ wellFormed (.refActivity 0 256 { freq := 0, obs := none } 0) = false ∧ wellFormed (.refQualWrite 0 (2 ^ 16) 0) = false ∧
    wellFormed (.refPrioWrite 0 16 true 0) = false ∧ wellFormed (.refForceWrite true 16 0) = false ∧ wellFormed (.todWrite (2 ^ 32) 0) = false ∧
    wellFormed (.synCtlWrite 0 (2 ^ 32) 0) = false ∧ wellFormed (.synLock 0 64 0 false 0) = false ∧ wellFormed (.synLock 0 63 1023 false 0) = true ∧
    wellFormed (.bandStore 0 0 1024) = false ∧ wellFormed (.rampGo 0 8 0) = false := by decide
theorem test_wf_host : wellFormed (.croak 0 (2 ^ 32)) = false ∧ wellFormed (.cqHeadWrite 0 (2 ^ 32)) = false ∧ wellFormed (.queryStatus (hdr0 0) (query0 256 0)) = false ∧
    wellFormed (.stats (hdr0 0) (query0 0 (2 ^ 16))) = false ∧ wellFormed (.stats (hdr0 0) (query0 0 0)) = true ∧
    wellFormed (.flowRxCfg (hdr0 0) { flowReq0 true with index := 2 ^ 16 }) = false ∧
    wellFormed (.flowTxCfg (hdr0 0) { flowReq0 true with data := some [] }) = false ∧ wellFormed (.flowTxCfg (hdr0 0) (flowReq0 true)) = true ∧
    wellFormed (.descriptorFetch 0 (.slot []) 0) = false ∧ wellFormed (.descriptorFetch 0 .err 0) = true := by decide +kernel
theorem test_wf_lv : wellFormed (.lvSpiRead 128) = false ∧ wellFormed (.lvSpiRead 127) = true ∧ wellFormed (.lvRegisterWrite 0 (2 ^ 16)) = false ∧ wellFormed (.lvTakeWrite (2 ^ 16) 0) = false ∧
    wellFormed (.outSelWrite 0 (2 ^ 16) 0) = false ∧ wellFormed (.outCtlWrite 0 (2 ^ 16) 0) = false ∧ wellFormed (.lvpWinWrite (2 ^ 32) 0) = false := by decide
theorem test_wf_matrix : wellFormed (.matrixRequest (mtxReq0 12 (2 ^ 40))) = false ∧ wellFormed (.matrixRequest { mtxReq0 12 0 with txid := 16 }) = false ∧
    wellFormed (.matrixRequest { mtxReq0 12 0 with bytes := 0 }) = false ∧ wellFormed (.matrixRequest { mtxReq0 12 4093 with bytes := 4 }) = false ∧
    wellFormed (.matrixRequest { mtxReq0 12 0 with data := 2 ^ 32 }) = false ∧ wellFormed (.matrixRequest (mtxReq0 12 4092)) = true ∧ wellFormed (.vctlWrite (2 ^ 32)) = false := by decide
theorem test_wf_reset : wellFormed (.softwareResetRequest (2 ^ 32)) = false ∧ wellFormed (.blockResetAssert (2 ^ 32)) = false ∧ wellFormed (.blockResetRelease (2 ^ 32) true) = false ∧
    wellFormed (.blockClockQualified 16 0) = false ∧ wellFormed (.recordStore 128 true true) = false ∧ wellFormed (.vholdCollapse 128) = false ∧ wellFormed (.axlCtlWrite (2 ^ 32) true) = false ∧
    wellFormed (.presetCapture (2 ^ 32) true) = false := by decide
theorem test_wf_twin : wellFormed (.forwardReceive (2 ^ 64) (hdr0 0) none .primaryOnly) = false ∧ wellFormed (.forwardAck (2 ^ 64)) = false ∧ wellFormed (.forwardAckTimeout (2 ^ 64)) = false ∧
    wellFormed (.domainMsg (hdr0 0) 0 (2 ^ 16) 64 0 true []) = false ∧ wellFormed (.domainMsg (hdr0 0) 0 256 64 0 true []) = true ∧ wellFormed (.domainRetransmit (2 ^ 64)) = false ∧ wellFormed (.domainAckReceive true 0 0 (2 ^ 32)) = false := by decide
theorem test_wf_security : wellFormed (.attest (hdr0 0) [] (2 ^ 64) true) = false ∧ wellFormed (.logCheckpoint (hdr0 0) (2 ^ 64) true) = false ∧ wellFormed (.keyPin (hdr0 0) 256 0 none) = false ∧
    wellFormed (.keyUnpin (hdr0 0) 256) = false ∧
    wellFormed (.nop { hdr0 0 with blob := some { head := [], key := [], digest := 0 } }) = false ∧ wellFormed (.keyPin (hdr0 0) 0 0 (some [256])) = false ∧
    wellFormed (.lcEnd (some { tok0 1 with head := [] })) = false ∧ wellFormed (.lcEnd (some (tok0 1))) = true ∧ wellFormed (.domainKeyInstall (hdr0 0) (2 ^ 64) none) = false ∧ wellFormed (.logTailWrite (2 ^ 32)) = false := by decide
theorem test_wf_faults : wellFormed (.errorDetected (2 ^ 20) 0 0) = false ∧ wellFormed (.errorDetected 0 256 0) = false ∧ wellFormed (.fltAckWrite (2 ^ 32)) = false ∧
    wellFormed (.fltUnfenceWrite (2 ^ 32) 0) = false ∧ wellFormed (.i2cRead 256) = false ∧ wellFormed (.i2cWrite 4 (2 ^ 16)) = false := by decide

end Sys2Proof.Tests
end

/-! Snapshots of wide status values (R19): which registers are words of one value, and what a read keeps of the words captured before. -/
namespace Sys2Proof.Machine

/-! ### Writing a row of words into a table -/

theorem tabFind_putWords_self {α : Type} (t : Tab α) (lo : Nat) (f : Nat → α) {n k : Nat} (hk : k < n) :
    tabFind ((List.range n).foldl (fun t k => tabPut t (lo + 4 * k) (f k)) t) (lo + 4 * k) = some (f k) := by
  induction n with
  | zero => omega
  | succ n ih =>
    rw [List.range_succ, List.foldl_concat]
    by_cases h : k = n
    · subst h; exact tabFind_put_self ..
    · rw [tabFind_put_ne _ _ (by omega)]
      exact ih (by omega)

theorem tabFind_putWords_ne {α : Type} (t : Tab α) (lo : Nat) (f : Nat → α) {n a : Nat} (ha : ∀ k < n, a ≠ lo + 4 * k) :
    tabFind ((List.range n).foldl (fun t k => tabPut t (lo + 4 * k) (f k)) t) a = tabFind t a := by
  induction n with
  | zero => rfl
  | succ n ih =>
    rw [List.range_succ, List.foldl_concat, tabFind_put_ne _ _ (ha n (by omega))]
    exact ih fun k hk => ha k (by omega)

/-! ### The wide status values -/

/-- The wide status values that stand alone in the register map: lowest word and number of words. -/
def wideSingles : List (Nat × Nat) :=
  [(R.XPT_RFN_LO, 2), (R.REF_TIME_NS, 3), (R.MTX_DECERR_LOG_LO, 2), (R.MTX_HANG_LOG_LO, 2), (R.MTX_PERM_LOG_LO, 2),
    (R.SEC_DEVID_LO, 2), (R.SEC_CKPT_NUM_LO, 2), (R.SEC_LC_NONCE 0, 8), (R.FLT_REC 0, 4)]

/-- The arrays of two-word status values: lowest word of the first, and number of values. -/
def widePairs : List (Nat × Nat) :=
  [(R.XPT_SRC_SIG_LO 0, 512), (R.XPT_DST_SIG_LO 0, 512), (R.FST_RING_LO 0, 2048), (R.SEC_SEQ_LO 0, 16)]

/-- A wide status value: its lowest word `lo` and its number of words `n`. -/
inductive WideValue : (lo n : Nat) → Prop
  | single {lo n : Nat} (h : (lo, n) ∈ wideSingles) : WideValue lo n
  | pair {base count i : Nat} (h : (base, count) ∈ widePairs) (hi : i < count) : WideValue (base + i * 8) 2
  | aesDiv {i : Nat} (hi : i < 16) : WideValue (R.AESO_DIV_INT i) 2
  | aesStatus {i : Nat} (hi : i < 16) : WideValue (R.AESI_CS i 0) 6

theorem wideOf_single : ∀ p ∈ wideSingles, ∀ k < p.2, wideOf (p.1 + 4 * k) = some p := by decide

/-- Every other range that `wideOf` knows lies apart from the array, so that only the array's own one answers. -/
theorem wideOf_pair {base count i k : Nat} (h : (base, count) ∈ widePairs) (hi : i < count) (hk : k < 2) :
    wideOf (base + i * 8 + 4 * k) = some (base + i * 8, 2) := by
  simp only [widePairs, List.mem_cons, List.not_mem_nil, or_false, Prod.mk.injEq] at h
  have hi8 (b : Nat) : b + (b + i * 8 + 4 * k - b) / 8 * 8 = b + i * 8 := by omega
  rcases h with ⟨rfl, rfl⟩ | ⟨rfl, rfl⟩ | ⟨rfl, rfl⟩ | ⟨rfl, rfl⟩ <;>
    simp (disch :=
      simp only [R.XPT_RFN_LO, R.XPT_SRC_SIG_LO, R.XPT_DST_SIG_LO, R.REF_TIME_NS, R.MTX_DECERR_LOG_LO, R.MTX_HANG_LOG_LO,
        R.MTX_PERM_LOG_LO, R.SEC_DEVID_LO, R.SEC_CKPT_NUM_LO, R.SEC_SEQ_LO, R.SEC_LC_NONCE, R.FLT_REC, R.FST_RING_LO]
      omega) only [wideOf, hi8, List.findSome?, id, if_pos, if_neg]

theorem wideOf_aesDiv : ∀ i < 16, ∀ k < 2, wideOf (R.AESO_DIV_INT i + 4 * k) = some (R.AESO_DIV_INT i, 2) := by decide

theorem wideOf_aesStatus : ∀ i < 16, ∀ k < 6, wideOf (R.AESI_CS i 0 + 4 * k) = some (R.AESI_CS i 0, 6) := by decide

theorem WideValue.wideOf_word {lo n k : Nat} (h : WideValue lo n) (hk : k < n) : wideOf (lo + 4 * k) = some (lo, n) := by
  cases h with
  | single h => exact wideOf_single _ h k hk
  | pair h hi => exact wideOf_pair h hi hk
  | aesDiv hi => exact wideOf_aesDiv _ hi k hk
  | aesStatus hi => exact wideOf_aesStatus _ hi k hk

theorem WideValue.of_mem_pair {base count a : Nat} (h : (base, count) ∈ widePairs) (hl : base ≤ a) (hh : a < base + count * 8) :
    WideValue (base + (a - base) / 8 * 8) 2 :=
  .pair h (by omega)

/-- Among the AES blocks of the quadrant windows, the base of the block that holds `a` is that of one of the 16 AES ports. -/
theorem exists_aesPort {a : Nat} (hl : 0x1000000 ≤ a) (hh : a < 0x2000000) (hb : 0x350000 ≤ (a - 0x1000000) % 0x400000)
    (he : (a - 0x1000000) % 0x400000 < 0x350400) :
    ∃ i < 16, a - (a - 0x1000000) % 0x400000 % 0x100 = quadWin (i / 4) + 0x350000 + i % 4 * 0x100 := by
  refine ⟨(a - 0x1000000) / 0x400000 * 4 + ((a - 0x1000000) % 0x400000 - 0x350000) / 0x100, by omega, ?_⟩
  unfold quadWin
  omega

/-- Each range that `wideOf` knows, in its order, is one of the kinds of wide value. -/
theorem wideValue_of_wideOf {a lo n : Nat} (h : wideOf a = some (lo, n)) : WideValue lo n := by
  obtain ⟨o, ho, e⟩ := List.exists_of_findSome?_eq_some h
  obtain rfl : o = some (lo, n) := e
  simp only [List.mem_cons, List.not_mem_nil, or_false, eq_comm (a := some (lo, n)), Option.ite_none_right_eq_some, Option.some.injEq,
    Prod.mk.injEq] at ho
  rcases ho with ⟨-, rfl, rfl⟩ | ⟨⟨hl, hh⟩, rfl, rfl⟩ | ⟨⟨hl, hh⟩, rfl, rfl⟩ | ⟨-, rfl, rfl⟩ | ⟨-, rfl, rfl⟩ | ⟨-, rfl, rfl⟩ |
    ⟨-, rfl, rfl⟩ | ⟨-, rfl, rfl⟩ | ⟨-, rfl, rfl⟩ | ⟨⟨hl, hh⟩, rfl, rfl⟩ | ⟨-, rfl, rfl⟩ | ⟨-, rfl, rfl⟩ | ⟨⟨hl, hh⟩, rfl, rfl⟩ |
    ⟨⟨hl, hh, hb, he, -⟩, rfl, rfl⟩ | ⟨⟨hl, hh, hb, he, -⟩, rfl, rfl⟩
  · exact .single (by decide)
  iterate 2 · exact .of_mem_pair (by decide) hl hh
  iterate 6 · exact .single (by decide)
  · exact .of_mem_pair (by decide) hl hh
  iterate 2 · exact .single (by decide)
  · exact .of_mem_pair (by decide) hl hh
  · obtain ⟨i, hi, e⟩ := exists_aesPort hl hh hb he
    rw [e]
    exact .aesDiv hi
  · obtain ⟨i, hi, e⟩ := exists_aesPort hl hh hb he
    rw [e]
    exact .aesStatus hi

/-- Two wide values share no word. -/
theorem ne_word_of_wideOf {a b lo n j : Nat} (ha : wideOf a = some (lo, n)) (hne : b ≠ lo) (hb : wideOf b = some (b, j)) :
    ∀ k < j, a ≠ b + 4 * k := by
  rintro k hk rfl
  obtain ⟨rfl, -⟩ := Prod.mk.inj (Option.some.inj (((wideValue_of_wideOf hb).wideOf_word hk).symm.trans ha))
  exact hne rfl

/-! ### What a read returns and captures -/

theorem State.regRead_lowest (s : State) (m : Nat) {lo n : Nat} (h : wideOf lo = some (lo, n)) :
    s.regRead m lo = (s.regValue m lo,
      { s with snap := (List.range n).foldl (fun t k => tabPut t (lo + 4 * k) (s.regValue m (lo + 4 * k))) s.snap }) := by
  simp [State.regRead, h]

theorem State.regRead_higher (s : State) (m : Nat) {a lo n : Nat} (h : wideOf a = some (lo, n)) (ha : a ≠ lo) :
    s.regRead m a = ((tabFind s.snap a).getD (s.regValue m a), s) := by
  simp [State.regRead, h, ha]

theorem State.regRead_narrow (s : State) (m : Nat) {a : Nat} (h : wideOf a = none) : s.regRead m a = (s.regValue m a, s) := by
  simp [State.regRead, h]

/-- A captured word stays until the lowest word of its own value is read. -/
theorem State.tabFind_snap_regRead (s : State) (m : Nat) {a b lo n : Nat} (ha : wideOf a = some (lo, n)) (hb : b ≠ lo) :
    tabFind (s.regRead m b).2.snap a = tabFind s.snap a := by
  cases e : wideOf b with
  | none => rw [s.regRead_narrow m e]
  | some p =>
    obtain ⟨l, j⟩ := p
    by_cases hl : b = l
    · subst hl
      rw [s.regRead_lowest m e]
      exact tabFind_putWords_ne _ _ _ (ne_word_of_wideOf ha hb e)
    · rw [s.regRead_higher m e hl]

theorem AESI_CS_eq_word (n k : Nat) : R.AESI_CS n k = R.AESI_CS n 0 + 4 * k := by
  unfold R.AESI_CS
  omega

/-- Settles O50: a read of a lowest word puts the value's own words into the snapshot table, and wide values share no word. That AESI_CS,
SEC_LC_NONCE and FLT_REC count as wide values is deduced (log entry 114); that all masters share one snapshot is the model's choice (log entry 162). -/
theorem wideStatusSnapshot : Obligations.WideStatusSnapshot := by
  refine ⟨fun s m lo n h => ?_, fun s m a lo n v h ha hv => ⟨?_, fun m' b hb => ?_⟩, wideOf_single, fun n hn k hk => ⟨?_, ?_⟩,
    fun r hr k hk => ?_, fun n hn k hk => ?_, fun n hn => ⟨wideOf_aesDiv n hn, fun k hk => ?_⟩⟩
  · rw [s.regRead_lowest m h]
    exact ⟨rfl, fun k hk => tabFind_putWords_self _ _ (fun k => s.regValue m (lo + 4 * k)) hk⟩
  · rw [s.regRead_higher m h ha, hv, Option.getD_some]
  · rw [s.tabFind_snap_regRead m' h hb, hv]
  · exact wideOf_pair (base := R.XPT_SRC_SIG_LO 0) (by decide) hn hk
  · exact wideOf_pair (base := R.XPT_DST_SIG_LO 0) (by decide) hn hk
  · exact wideOf_pair (base := R.FST_RING_LO 0) (by decide) hr hk
  · exact wideOf_pair (base := R.SEC_SEQ_LO 0) (count := 16) (by decide) (by omega) hk
  · rw [AESI_CS_eq_word]
    exact wideOf_aesStatus n hn k hk

end Sys2Proof.Machine

/-! Line CRC errors (R34): what a command does where line CRC is checked, and that it does nothing where it is not. -/
namespace Sys2Proof.Machine

/-- Raising a history bit leaves the fields of its register that do not contain the bit. -/
theorem State.get_raise_apart (s : State) (h : Hist) (f g : Bits) (hw : f.width = 1) (hb : f.lo < 32) (hg : f.apart g) :
    (s.raise h f).get h.reg g = s.get h.reg g := by
  obtain ⟨lo, w⟩ := f
  subst hw
  have hset : (s.set h.reg (bit lo) 1).get h.reg g = s.get h.reg g := s.get_set_apart _ _ _ _ (Nat.succ_le_of_lt hb) hg
  unfold State.raise State.raiseBit
  split
  · rfl
  · dsimp only
    split
    · rw [State.get_congr (State.raiseVec_regs ..), hset]
    · exact hset

theorem SDI_RX_HIST_ne_CRC_CNT (n : Nat) : R.SDI_RX_HIST n ≠ R.SDI_RX_CRC_CNT n := by
  unfold R.SDI_RX_HIST R.SDI_RX_CRC_CNT
  omega

/-- The state after a line CRC error that a lane counts. -/
def State.crcCounted (s : State) (n : Nat) : State :=
  (s.inc (R.SDI_RX_CRC_CNT n)).raise (Hist.srx n) F.SDI_RX_HIST_CRC_ERR

theorem exec_lineCrcError_checked {s : State} {n : Fin 72} (hl : s.flag (R.SDI_RX_STAT n) F.SDI_RX_STAT_TRS_LOCK = true)
    (hr : 2 ≤ s.get (R.SDI_RX_STAT n) F.SDI_RX_STAT_RATE) : exec (.lineCrcError n) s = .next (s.crcCounted n) := by
  have e : exec (.lineCrcError n) s = execLineCrcError n s := rfl
  simp [e, execLineCrcError, State.crcCounted, hl, hr]

/-- No line CRC exists below rate 0x2. -/
theorem exec_lineCrcError_unchecked {s : State} {n : Fin 72} (hr : s.get (R.SDI_RX_STAT n) F.SDI_RX_STAT_RATE < 2) :
    exec (.lineCrcError n) s = .next s := by
  have e : exec (.lineCrcError n) s = execLineCrcError n s := rfl
  simp [e, execLineCrcError, Nat.not_le.mpr hr]

theorem State.rd_crcCounted_count (s : State) (n : Nat) :
    ((s.crcCounted n).rd (R.SDI_RX_CRC_CNT n)).toNat = min 0xFFFFFFFF ((s.rd (R.SDI_RX_CRC_CNT n)).toNat + 1) := by
  rw [State.crcCounted, State.rd_raise_ne _ _ _ (SDI_RX_HIST_ne_CRC_CNT n).symm, State.rd_inc]

theorem State.get_crcCounted_crcErr (s : State) (n : Nat) :
    (s.crcCounted n).get (R.SDI_RX_HIST n) F.SDI_RX_HIST_CRC_ERR = 1 :=
  State.get_raise _ (Hist.srx n) _ rfl (by decide)

/-- The other history bits of the lane keep their values. -/
theorem State.get_crcCounted_apart (s : State) (n : Nat) {g : Bits} (hg : F.SDI_RX_HIST_CRC_ERR.apart g) :
    (s.crcCounted n).get (R.SDI_RX_HIST n) g = s.get (R.SDI_RX_HIST n) g :=
  (State.get_raise_apart _ (Hist.srx n) _ g rfl (by decide) hg).trans (s.get_inc_ne g (SDI_RX_HIST_ne_CRC_CNT n))

theorem State.crcCounted_onlyRegs (s : State) (n : Nat) :
    s.onlyRegs (s.crcCounted n) [R.SDI_RX_CRC_CNT n, R.SDI_RX_HIST n] :=
  (s.inc_onlyRegs (by simp)).trans (State.raise_onlyRegs _ _ _ (by simp [Hist.srx]))

/-- Settles O9: a checked line error is a count and a raise of CRC_ERR, each with its own rule; at rate 0x1 the check is off. -/
theorem sdiLineCrc : Obligations.SdiLineCrc := by
  refine fun s n => ⟨fun hl hr => ?_, fun hr => exec_lineCrcError_unchecked (by omega)⟩
  exact ⟨s.crcCounted n, exec_lineCrcError_checked hl hr, s.rd_crcCounted_count n, s.get_crcCounted_crcErr n,
    fun _ hg => s.get_crcCounted_apart n hg.symm, s.crcCounted_onlyRegs n⟩

end Sys2Proof.Machine

/-! The latch of a take (R299 to R301): what a latch leaves on each output, and that an output it drops sets TAKE_ERR. -/
namespace Sys2Proof.Machine

/-! ### One output at the latch -/

/-- OUT_SEL of output `o` asks for an input above 31 (R301). -/
def State.lvDrops (s : State) (o : Nat) : Bool := (s.lvAsked o).1 && decide (31 < (s.lvAsked o).2)

/-- OUT_SEL of output `o` asks for what is in force on it (R299). -/
def State.lvStands (s : State) (o : Nat) : Bool := (s.lvOut o).en == (s.lvAsked o).1 && (s.lvOut o).input == (s.lvAsked o).2

/-- The switch that a latch into take `k` makes pending on output `o`; none when `o` is dropped or complete at the latch. -/
def State.lvLatched (s : State) (k o : Nat) : Option LvSwitch :=
  if s.lvDrops o || s.lvStands o then none else some { en := (s.lvAsked o).1, input := (s.lvAsked o).2, take := k }

theorem State.lvLatchOut_eq (s : State) (k o : Nat) :
    s.lvLatchOut k o = if s.lvDrops o then (s.lvIrq 2).raise Hist.lvp F.LVP_HIST_TAKE_ERR
      else if s.lvStands o then s
      else { s with lv := { s.lv with pend := tabPut s.lv.pend o { en := (s.lvAsked o).1, input := (s.lvAsked o).2, take := k } } } := rfl

@[simp] theorem State.lvLatchOut_regs (s : State) (k o : Nat) : (s.lvLatchOut k o).lv.regs = s.lv.regs := by
  rw [State.lvLatchOut_eq]
  split
  · rw [State.raise_lv]; rfl
  · split <;> rfl

@[simp] theorem State.lvLatchOut_outs (s : State) (k o : Nat) : (s.lvLatchOut k o).lv.outs = s.lv.outs := by
  rw [State.lvLatchOut_eq]
  split
  · rw [State.raise_lv]; rfl
  · split <;> rfl

/-- A latch of `o` makes its own switch pending, if any, and leaves those of the other outputs. -/
theorem State.lvLatchOut_pend (s : State) (k o j : Nat) :
    tabFind (s.lvLatchOut k o).lv.pend j = if j = o then (s.lvLatched k o).or (tabFind s.lv.pend j) else tabFind s.lv.pend j := by
  rw [State.lvLatchOut_eq, State.lvLatched]
  cases s.lvDrops o with
  | true => simp [State.lvIrq]
  | false =>
    cases s.lvStands o with
    | true => simp
    | false =>
      by_cases h : j = o
      · subst h; simp
      · simp [h, tabFind_put_ne]

theorem State.lvAsked_congr {s u : State} (hr : u.lv.regs = s.lv.regs) (o : Nat) : u.lvAsked o = s.lvAsked o := by
  simp only [State.lvAsked, State.lvReg, hr]

theorem State.lvDrops_congr {s u : State} (hr : u.lv.regs = s.lv.regs) (o : Nat) : u.lvDrops o = s.lvDrops o := by
  rw [State.lvDrops, State.lvAsked_congr hr]
  rfl

/-- What a latch makes pending depends on the register image and the outputs in force alone. -/
theorem State.lvLatched_congr {s u : State} (hr : u.lv.regs = s.lv.regs) (ho : u.lv.outs = s.lv.outs) (k o : Nat) :
    u.lvLatched k o = s.lvLatched k o := by
  rw [State.lvLatched, State.lvDrops_congr hr, State.lvStands, State.lvOut, ho, State.lvAsked_congr hr]
  rfl

/-! ### TAKE_ERR, in IRQ_STAT and in LVP_HIST -/

/-- TAKE_ERR is set where the agent and where the host reads it. -/
def State.lvTakeErr (s : State) : Prop := s.lv.irq.testBit 2 = true ∧ s.get R.LVP_HIST F.LVP_HIST_TAKE_ERR = 1

theorem State.lvTakeErr_lvIrq {s : State} (h : s.lvTakeErr) (b : Nat) : (s.lvIrq b).lvTakeErr :=
  ⟨by simp [State.lvIrq, Nat.testBit_or, h.1], h.2⟩

theorem State.lvTakeErr_raise {s : State} (h : s.lvTakeErr) (f : Bits) (hf : f.lo < 32) : (s.raise Hist.lvp f).lvTakeErr :=
  ⟨by rw [State.raise_lv]; exact h.1, s.get_raise_mono Hist.lvp f (by decide) hf h.2⟩

theorem State.lvTakeErr_count {s : State} (h : s.lvTakeErr) (n : Nat) : (s.count R.LVP_TAKE_CNT n).lvTakeErr :=
  ⟨by rw [State.count_lv]; exact h.1, (s.get_wr_ne _ _ (by decide)).trans h.2⟩

/-- An output that is dropped sets TAKE_ERR. -/
theorem State.lvTakeErr_lvLatchOut_of_drops {s : State} {o : Nat} (h : s.lvDrops o = true) (k : Nat) : (s.lvLatchOut k o).lvTakeErr := by
  rw [State.lvLatchOut_eq, if_pos h]
  refine ⟨?_, State.get_raise _ Hist.lvp _ rfl (by decide)⟩
  rw [State.raise_lv]
  exact (Nat.testBit_or ..).trans (Bool.or_eq_true_iff.mpr (.inr (by decide)))

theorem State.lvTakeErr_lvLatchOut {s : State} (h : s.lvTakeErr) (k o : Nat) : (s.lvLatchOut k o).lvTakeErr := by
  by_cases hd : s.lvDrops o = true
  · exact State.lvTakeErr_lvLatchOut_of_drops hd k
  · rw [State.lvLatchOut_eq, if_neg hd]
    split <;> exact h

/-! ### Every output of a take -/

/-- The outputs `l` latched into take `k`, one after the other. -/
def State.lvLatchOuts (s : State) (k : Nat) (l : List Nat) : State := l.foldl (fun s o => s.lvLatchOut k o) s

@[simp] theorem State.lvLatchOuts_nil (s : State) (k : Nat) : s.lvLatchOuts k [] = s := rfl
@[simp] theorem State.lvLatchOuts_cons (s : State) (k o : Nat) (l : List Nat) :
    s.lvLatchOuts k (o :: l) = (s.lvLatchOut k o).lvLatchOuts k l := rfl

@[simp] theorem State.lvLatchOuts_outs (s : State) (k : Nat) (l : List Nat) : (s.lvLatchOuts k l).lv.outs = s.lv.outs := by
  induction l generalizing s with
  | nil => rfl
  | cons o l ih => rw [State.lvLatchOuts_cons, ih, State.lvLatchOut_outs]

/-- Each output of the take is pending with what its own latch made pending: no output's latch changes what another asks for. -/
theorem State.lvLatchOuts_pend (s : State) (k : Nat) (l : List Nat) (j : Nat) :
    tabFind (s.lvLatchOuts k l).lv.pend j = if j ∈ l then (s.lvLatched k j).or (tabFind s.lv.pend j) else tabFind s.lv.pend j := by
  induction l generalizing s with
  | nil => simp
  | cons o l ih =>
    have hc : (s.lvLatchOut k o).lvLatched k j = s.lvLatched k j :=
      State.lvLatched_congr (s.lvLatchOut_regs k o) (s.lvLatchOut_outs k o) k j
    rw [State.lvLatchOuts_cons, ih, hc, State.lvLatchOut_pend]
    by_cases ho : j = o
    · subst ho
      cases s.lvLatched k j <;> simp
    · simp [ho]

theorem State.lvTakeErr_lvLatchOuts {s : State} (h : s.lvTakeErr) (k : Nat) (l : List Nat) : (s.lvLatchOuts k l).lvTakeErr := by
  induction l generalizing s with
  | nil => exact h
  | cons o l ih => exact ih (State.lvTakeErr_lvLatchOut h k o)

/-- One dropped output among those of the take is enough for TAKE_ERR. -/
theorem State.lvTakeErr_lvLatchOuts_of_drops {s : State} {j : Nat} (h : s.lvDrops j = true) (k : Nat) {l : List Nat} (hj : j ∈ l) :
    (s.lvLatchOuts k l).lvTakeErr := by
  induction l generalizing s with
  | nil => cases hj
  | cons o l ih =>
    rcases List.mem_cons.mp hj with rfl | hl
    · exact State.lvTakeErr_lvLatchOuts (State.lvTakeErr_lvLatchOut_of_drops h k) k l
    · exact ih ((State.lvDrops_congr (s.lvLatchOut_regs k o) j).trans h) hl

/-! ### Completing takes leaves the outputs alone -/

/-- `s` with `n` takes counted as complete, TAKE set, and `takes` and `acks` left. -/
def State.lvCounted (s : State) (takes : List Nat) (acks : Tab Nat) (n : Nat) : State :=
  (({ s with lv := { s.lv with takes := takes, acks := acks } } : State).count R.LVP_TAKE_CNT n).raise Hist.lvp F.LVP_HIST_TAKE

@[simp] theorem State.lvCounted_lv (s : State) (takes : List Nat) (acks : Tab Nat) (n : Nat) :
    (s.lvCounted takes acks n).lv = { s.lv with takes := takes, acks := acks } := by
  simp [State.lvCounted]

theorem State.lvTakeErr_lvCounted {s : State} (h : s.lvTakeErr) (takes : List Nat) (acks : Tab Nat) (n : Nat) :
    (s.lvCounted takes acks n).lvTakeErr :=
  State.lvTakeErr_raise (State.lvTakeErr_count (s := { s with lv := { s.lv with takes := takes, acks := acks } }) h n) _ (by decide)

/-- No take is complete; or some are, and others are left; or none is left and TAKE_DONE sets. -/
theorem State.lvTakesDone_cases (s : State) : s.lvTakesDone = s ∨
    ∃ takes acks n, s.lvTakesDone = s.lvCounted takes acks n ∨ s.lvTakesDone = (s.lvCounted takes acks n).lvIrq 0 := by
  unfold State.lvTakesDone
  extract_lets _ done left
  split
  · exact .inl rfl
  · refine .inr ⟨left, s.lv.acks.filter fun p => left.contains p.1, done.length, ?_⟩
    split
    · exact .inr rfl
    · exact .inl rfl

@[simp] theorem State.lvTakesDone_pend (s : State) : s.lvTakesDone.lv.pend = s.lv.pend := by
  rcases s.lvTakesDone_cases with h | ⟨_, _, _, h | h⟩ <;> simp [h, State.lvIrq]

@[simp] theorem State.lvTakesDone_outs (s : State) : s.lvTakesDone.lv.outs = s.lv.outs := by
  rcases s.lvTakesDone_cases with h | ⟨_, _, _, h | h⟩ <;> simp [h, State.lvIrq]

theorem State.lvTakeErr_lvTakesDone {s : State} (h : s.lvTakeErr) : s.lvTakesDone.lvTakeErr := by
  rcases s.lvTakesDone_cases with e | ⟨takes, acks, n, e | e⟩ <;> rw [e]
  · exact h
  · exact State.lvTakeErr_lvCounted h takes acks n
  · exact State.lvTakeErr_lvIrq (State.lvTakeErr_lvCounted h takes acks n) 0

/-! ### The latch of a take

The rules hold for the outputs of any take: LV_TAKE and LV_TAKE_N take every output, OUT_SEL with AUTO_TAKE takes its own (R299). -/

/-- `s` with a take under way that has no output yet. -/
def State.lvNewTake (s : State) : State := { s with lv := { s.lv with nextTk := s.lv.nextTk + 1, takes := s.lv.takes ++ [s.lv.nextTk] } }

/-- A take that nothing refuses latches every output it covers (R300, R313). -/
theorem State.lvLatch_idle {s : State} {l : List Nat} (hw : s.lvWrites = true) (hs : s.lvSigned = false) (hr : s.lv.ready = true)
    (hl : ∀ o ∈ l, tabFind s.lv.pend o = none) : s.lvLatch l = (s.lvNewTake.lvLatchOuts s.lv.nextTk l).lvTakesDone := by
  have hp : (l.any fun o => (tabFind s.lv.pend o).isSome) = false := by simpa using hl
  simp [State.lvLatch, hw, hs, hr, hp, State.lvNewTake, State.lvLatchOuts]

section latch
variable {s : State} {l : List Nat} (hw : s.lvWrites = true) (hs : s.lvSigned = false) (hr : s.lv.ready = true)
  (hl : ∀ o ∈ l, tabFind s.lv.pend o = none)
include hw hs hr hl

/-- A latch changes nothing in force: an output switches at its switch point. -/
theorem State.lvLatch_lvOut (o : Nat) : (s.lvLatch l).lvOut o = s.lvOut o := by
  simp [State.lvOut, State.lvLatch_idle hw hs hr hl, State.lvNewTake]

theorem State.lvLatch_pend {j : Nat} (hj : j ∈ l) : tabFind (s.lvLatch l).lv.pend j = s.lvLatched s.lv.nextTk j := by
  have hn : tabFind s.lvNewTake.lv.pend j = none := hl j hj
  rw [State.lvLatch_idle hw hs hr hl, State.lvTakesDone_pend, State.lvLatchOuts_pend, if_pos hj, hn, Option.or_none]
  rfl

theorem State.lvTakeErr_lvLatch_of_drops {j : Nat} (hj : j ∈ l) (hd : s.lvDrops j = true) : (s.lvLatch l).lvTakeErr := by
  rw [State.lvLatch_idle hw hs hr hl]
  exact State.lvTakeErr_lvTakesDone (State.lvTakeErr_lvLatchOuts_of_drops (s := s.lvNewTake) hd _ hj)

end latch

/-- LV_TAKE written 1 is a take of every output (R299). -/
theorem exec_lvTakeWrite_one {v : Nat} (h : v % 2 = 1) (t : Nat) (s : State) :
    exec (.lvTakeWrite v t) s = .next ((s.at_ t).lvLatch (List.range 32)) := by
  have e : exec (.lvTakeWrite v t) s = execLvTakeWrite v t s := rfl
  simp [e, execLvTakeWrite, h]

/-- Settles O46: the latch treats each output by what its OUT_SEL asks for and what is in force, which no other output's latch changes. -/
theorem lvDroppedOutputs : Obligations.LvDroppedOutputs := by
  intro s v t hv hw hs hr hp
  have hl : ∀ o ∈ List.range 32, tabFind (s.at_ t).lv.pend o = none := fun o ho => hp o (List.mem_range.mp ho)
  refine ⟨_, exec_lvTakeWrite_one hv t s, State.lvLatch_lvOut (s := s.at_ t) hw hs hr hl, fun o ho en input ha => ?_⟩
  have ho : o ∈ List.range 32 := List.mem_range.mpr ho
  have hpend : tabFind ((s.at_ t).lvLatch (List.range 32)).lv.pend o = s.lvLatched s.lv.nextTk o :=
    State.lvLatch_pend (s := s.at_ t) hw hs hr hl ho
  have hdrops : s.lvDrops o = true ↔ en = true ∧ 31 < input := by simp [State.lvDrops, ha]
  have hstands : s.lvStands o = true ↔ (s.lvOut o).en = en ∧ (s.lvOut o).input = input := by simp [State.lvStands, ha]
  rw [hpend, ← hdrops, ← hstands]
  refine ⟨fun hd => ⟨?_, State.lvTakeErr_lvLatch_of_drops (s := s.at_ t) hw hs hr hl ho hd⟩, fun hd => ⟨fun hsame => ?_, fun hsame => ?_⟩⟩
  · simp [State.lvLatched, hd]
  · simp [State.lvLatched, hsame]
  · simp [State.lvLatched, hd, hsame, ha]

end Sys2Proof.Machine

/-! The block as a whole: what every command keeps, from what each one's own lemma says of it. -/
namespace Sys2Proof.Machine

/-- Every command answers a next state, keeps the queue and the canonical forms, and changes only the parts that `partsOf` lists for it: one line
per row of the table of operations and events. -/
theorem exec_kept : ∀ (c : Instr) (s : State), ∃ t, exec c s = .next t ∧ Kept (partsOf c) s t
  | .registerWrite a b c d e, s => execRegisterWrite_kept a b c d e s
  | .imaskWrite a b, s => execImaskWrite_kept a b s
  | .sdiCarrierDetect a, s => execSdiCarrierDetect_kept a s
  | .cdrLock a b, s => execCdrLock_kept a b s
  | .trsLock a, s => execTrsLock_kept a s
  | .startBoundary a b c, s => execStartBoundary_kept a b c s
  | .rateForceWrite a b c, s => execRateForceWrite_kept a b c s
  | .lineCrcError a, s => execLineCrcError_kept a s
  | .ancChecksumError a b, s => execAncChecksumError_kept a b s
  | .multiWrite a b c, s => execMultiWrite_kept a b c s
  | .groupForm a b c d, s => execGroupForm_kept a b c d s
  | .groupSkew a b c, s => execGroupSkew_kept a b c s
  | .sdiLoss a b, s => execSdiLoss_kept a b s
  | .acquisitionAbort a, s => execAcquisitionAbort_kept a s
  | .txEnWrite a b c d, s => execTxEnWrite_kept a b c d s
  | .txLeaveIdle a b, s => execTxLeaveIdle_kept a b s
  | .followRangeIdle a b, s => execFollowRangeIdle_kept a b s
  | .qeModeWrite a b, s => execQeModeWrite_kept a b s
  | .qeRxFrame a b c d e f, s => execQeRxFrame_kept a b c d e f s
  | .qeLinkUp a b, s => execQeLinkUp_kept a b s
  | .qeLinkDown a b, s => execQeLinkDown_kept a b s
  | .fecUncorrectable a b, s => execFecUncorrectable_kept a b s
  | .igmpQuery a b c, s => execIgmpQuery_kept a b c s
  | .flowLoss a b c, s => execFlowLoss_kept a b c s
  | .legLost a b c, s => execLegLost_kept a b c s
  | .ptpTimestamp a b c d, s => execPtpTimestamp_kept a b c d s
  | .routeSet a b c, s => execRouteSet_kept a b c s
  | .takeAt a b c, s => execTakeAt_kept a b c s
  | .salvo a b, s => execSalvo_kept a b s
  | .salvoCancel a b c, s => execSalvoCancel_kept a b c s
  | .routeSync a b, s => execRouteSync_kept a b s
  | .routeConvert a b c, s => execRouteConvert_kept a b c s
  | .takeExecute a b, s => execTakeExecute_kept a b s
  | .untimedChangeover a b, s => execUntimedChangeover_kept a b s
  | .followLoopRetuneEnd a b, s => execFollowLoopRetuneEnd_kept a b s
  | .leapArm a b c, s => execLeapArm_kept a b c s
  | .leapExecute a b c, s => execLeapExecute_kept a b c s
  | .leapNoTimingExecute a b c, s => execLeapNoTimingExecute_kept a b c s
  | .pgCfgWrite a b, s => execPgCfgWrite_kept a b s
  | .pgFrameBoundary a b, s => execPgFrameBoundary_kept a b s
  | .sourceFrameSigned a b c, s => execSourceFrameSigned_kept a b c s
  | .destFrameSent a b c d, s => execDestFrameSent_kept a b c d s
  | .bufAlloc a b c d e f, s => execBufAlloc_kept a b c d e f s
  | .bufFree a b, s => execBufFree_kept a b s
  | .bufWrite a b c, s => execBufWrite_kept a b c s
  | .bufRead a b c d e, s => execBufRead_kept a b c d e s
  | .bufferRefRelease a, s => execBufferRefRelease_kept a s
  | .cwFrameStart a b c, s => execCwFrameStart_kept a b c s
  | .cwFrameComplete a b c, s => execCwFrameComplete_kept a b c s
  | .cwResume a b c, s => execCwResume_kept a b c s
  | .eccCorrected a b, s => execEccCorrected_kept a b s
  | .eccUncorrectable a b c, s => execEccUncorrectable_kept a b c s
  | .patrolScrub a b, s => execPatrolScrub_kept a b s
  | .granuleListSwitch a, s => execGranuleListSwitch_kept a s
  | .ctxAdmit a b c d e, s => execCtxAdmit_kept a b c d e s
  | .ctxParam a b c d e, s => execCtxParam_kept a b c d e s
  | .ctxRelease a b c, s => execCtxRelease_kept a b c s
  | .ctxParamApply a b, s => execCtxParamApply_kept a b s
  | .ctxRunStart a b, s => execCtxRunStart_kept a b s
  | .ctxParkStop a b, s => execCtxParkStop_kept a b s
  | .ctxReleaseStop a b, s => execCtxReleaseStop_kept a b s
  | .ctxMoveComplete a b, s => execCtxMoveComplete_kept a b s
  | .orphanReadmit a, s => execOrphanReadmit_kept a s
  | .sliceStart a b, s => execSliceStart_kept a b s
  | .sliceEnd a b, s => execSliceEnd_kept a b s
  | .sliceDeadlineMiss a b, s => execSliceDeadlineMiss_kept a b s
  | .souCfg a b, s => execSouCfg_kept a b s
  | .souCommit a b, s => execSouCommit_kept a b s
  | .ufmtModeWrite a b, s => execUfmtModeWrite_kept a b s
  | .commitLatch a b, s => execCommitLatch_kept a b s
  | .commitExecute a b, s => execCommitExecute_kept a b s
  | .newTimingStart a b, s => execNewTimingStart_kept a b s
  | .souFrameStart a b, s => execSouFrameStart_kept a b s
  | .lineUnderrun a b c, s => execLineUnderrun_kept a b c s
  | .fetchUrgencyChange a b c d, s => execFetchUrgencyChange_kept a b c d s
  | .souResume a b, s => execSouResume_kept a b s
  | .audMap a b, s => execAudMap_kept a b s
  | .audFade a b, s => execAudFade_kept a b s
  | .sapCfg a b, s => execSapCfg_kept a b s
  | .mapExecute a, s => execMapExecute_kept a s
  | .matrixSample a b c d, s => execMatrixSample_kept a b c d s
  | .lipsyncMeasure a b, s => execLipsyncMeasure_kept a b s
  | .clockAcquire a b, s => execClockAcquire_kept a b s
  | .clockSteered a b c, s => execClockSteered_kept a b c s
  | .clockWide a b, s => execClockWide_kept a b s
  | .clockWideReturn a b, s => execClockWideReturn_kept a b s
  | .clockLocked a b c, s => execClockLocked_kept a b c s
  | .clockUnlock a b, s => execClockUnlock_kept a b s
  | .fifoSlip a b, s => execFifoSlip_kept a b s
  | .audioClockLost a, s => execAudioClockLost_kept a s
  | .sapMaskApply a, s => execSapMaskApply_kept a s
  | .sapFrameErr a, s => execSapFrameErr_kept a s
  | .aesCsBlock a b, s => execAesCsBlock_kept a b s
  | .aesParityError a b c, s => execAesParityError_kept a b c s
  | .aesoEnWrite a b, s => execAesoEnWrite_kept a b s
  | .refInEnWrite a b c, s => execRefInEnWrite_kept a b c s
  | .refInSrcWrite a b c d e, s => execRefInSrcWrite_kept a b c d e s
  | .refActivity a b c d, s => execRefActivity_kept a b c d s
  | .refQualified a b c d, s => execRefQualified_kept a b c d s
  | .wtrExpired a b, s => execWtrExpired_kept a b s
  | .refSuspect a b c d, s => execRefSuspect_kept a b c d s
  | .refSuspectClear a b, s => execRefSuspectClear_kept a b s
  | .refDeclaredLost a b, s => execRefDeclaredLost_kept a b s
  | .refDisqualified a b c d, s => execRefDisqualified_kept a b c d s
  | .refQualWrite a b c, s => execRefQualWrite_kept a b c s
  | .refPrioWrite a b c d, s => execRefPrioWrite_kept a b c d s
  | .refForceWrite a b c, s => execRefForceWrite_kept a b c s
  | .refSwitchExecute a b, s => execRefSwitchExecute_kept a b s
  | .loopLock a, s => execLoopLock_kept a s
  | .loopUnlock a b, s => execLoopUnlock_kept a b s
  | .trackBwApply a, s => execTrackBwApply_kept a s
  | .holdoverUpdate a b, s => execHoldoverUpdate_kept a b s
  | .ageingDaily a b c d e, s => execAgeingDaily_kept a b c d e s
  | .todWrite a b, s => execTodWrite_kept a b s
  | .todApply a, s => execTodApply_kept a s
  | .fpPulse a b, s => execFpPulse_kept a b s
  | .synCtlWrite a b c, s => execSynCtlWrite_kept a b c s
  | .synLock a b c d e, s => execSynLock_kept a b c d e s
  | .synSearchTimeout a b, s => execSynSearchTimeout_kept a b s
  | .synLockLoss a b c, s => execSynLockLoss_kept a b c s
  | .synRelockStart a b, s => execSynRelockStart_kept a b s
  | .synRefLoss a b, s => execSynRefLoss_kept a b s
  | .synRefReturn a b, s => execSynRefReturn_kept a b s
  | .bandStore a b c, s => execBandStore_kept a b c s
  | .synStepPass a b, s => execSynStepPass_kept a b s
  | .absorbDone a b, s => execAbsorbDone_kept a b s
  | .rampGo a b c, s => execRampGo_kept a b c s
  | .rampAbort a b, s => execRampAbort_kept a b s
  | .rampSegmentEnd a b, s => execRampSegmentEnd_kept a b s
  | .hostLinkReset a, s => execHostLinkReset_kept a s
  | .perstAssert, s => execPerstAssert_kept s
  | .ringEnable a, s => execRingEnable_kept a s
  | .ringDisable a, s => execRingDisable_kept a s
  | .ringAbandon a, s => execRingAbandon_kept a s
  | .ringDrained a, s => execRingDrained_kept a s
  | .croak a b, s => execCroak_kept a b s
  | .cqHeadWrite a b, s => execCqHeadWrite_kept a b s
  | .descriptorFetch a b c, s => execDescriptorFetch_kept a b c s
  | .completionPost a b c, s => execCompletionPost_kept a b c s
  | .coalTimerExpiry a b, s => execCoalTimerExpiry_kept a b s
  | .nop a, s => execNop_kept a s
  | .queryStatus a b, s => execQueryStatus_kept a b s
  | .stats a b, s => execStats_kept a b s
  | .flowRxCfg a b, s => execFlowRxCfg_kept a b s
  | .flowTxCfg a b, s => execFlowTxCfg_kept a b s
  | .persistPut a b c d e, s => execPersistPut_kept a b c d e s
  | .persistGet a b c d e, s => execPersistGet_kept a b c d e s
  | .persistStore a b, s => execPersistStore_kept a b s
  | .attest a b c d, s => execAttest_kept a b c d s
  | .logCheckpoint a b c, s => execLogCheckpoint_kept a b c s
  | .keyPin a b c d, s => execKeyPin_kept a b c d s
  | .keyUnpin a b, s => execKeyUnpin_kept a b s
  | .signingEnter a, s => execSigningEnter_kept a s
  | .signingLeave a, s => execSigningLeave_kept a s
  | .domainKeyInstall a b c, s => execDomainKeyInstall_kept a b c s
  | .domainKeyErase a, s => execDomainKeyErase_kept a s
  | .domainMsg a b c d e f g, s => execDomainMsg_kept a b c d e f g s
  | .matePair a b, s => execMatePair_kept a b s
  | .mateDetach a, s => execMateDetach_kept a s
  | .mateHandover a b c, s => execMateHandover_kept a b c s
  | .mateResetPartner a b, s => execMateResetPartner_kept a b s
  | .lvSpiRead a, s => execLvSpiRead_kept a s
  | .irqStatRead, s => execIrqStatRead_kept s
  | .lvRegisterWrite a b, s => execLvRegisterWrite_kept a b s
  | .lvTakeWrite a b, s => execLvTakeWrite_kept a b s
  | .outSelWrite a b c, s => execOutSelWrite_kept a b c s
  | .outCtlWrite a b c, s => execOutCtlWrite_kept a b c s
  | .lvFrameError a, s => execLvFrameError_kept a s
  | .lvTakeNEdge a b, s => execLvTakeNEdge_kept a b s
  | .lvTakeArm a, s => execLvTakeArm_kept a s
  | .lvOutputSwitch a b, s => execLvOutputSwitch_kept a b s
  | .lvMuteResume a b, s => execLvMuteResume_kept a b s
  | .lvStatusFollow, s => execLvStatusFollow_kept s
  | .lvpWinWrite a b, s => execLvpWinWrite_kept a b s
  | .slackMeasure a b, s => execSlackMeasure_kept a b s
  | .voltageLowerStep a b, s => execVoltageLowerStep_kept a b s
  | .voltageRaiseStep a b, s => execVoltageRaiseStep_kept a b s
  | .admitRaiseStep a b, s => execAdmitRaiseStep_kept a b s
  | .vctlWrite a, s => execVctlWrite_kept a s
  | .avsFault, s => execAvsFault_kept s
  | .avsRetry a, s => execAvsRetry_kept a s
  | .handshakeTimeout a b c, s => execHandshakeTimeout_kept a b c s
  | .crossingRelease a b, s => execCrossingRelease_kept a b s
  | .matrixRequest a, s => execMatrixRequest_kept a s
  | .matrixHang a b, s => execMatrixHang_kept a b s
  | .hungMasterReset a, s => execHungMasterReset_kept a s
  | .powerOn, s => execPowerOn_kept s
  | .brownOut, s => execBrownOut_kept s
  | .pinReset, s => execPinReset_kept s
  | .resetNRelease, s => execResetNRelease_kept s
  | .clockMonitorFail a, s => execClockMonitorFail_kept a s
  | .cclkRelockTimeout, s => execCclkRelockTimeout_kept s
  | .watchdogExpiry, s => execWatchdogExpiry_kept s
  | .softwareResetRequest a, s => execSoftwareResetRequest_kept a s
  | .debugResetRequest, s => execDebugResetRequest_kept s
  | .mcLockup, s => execMcLockup_kept s
  | .remoteResetReceive, s => execRemoteResetReceive_kept s
  | .optionLoad a, s => execOptionLoad_kept a s
  | .recallRecords a, s => execRecallRecords_kept a s
  | .bootImageVerify a b, s => execBootImageVerify_kept a b s
  | .controlPlaneUp a, s => execControlPlaneUp_kept a s
  | .dataPlaneStart a b, s => execDataPlaneStart_kept a b s
  | .warmReset, s => execWarmReset_kept s
  | .warmReady a, s => execWarmReady_kept a s
  | .blockResetAssert a, s => execBlockResetAssert_kept a s
  | .blockResetRelease a b, s => execBlockResetRelease_kept a b s
  | .blockClockQualified a b, s => execBlockClockQualified_kept a b s
  | .recordStore a b c, s => execRecordStore_kept a b c s
  | .powerFailTrip a, s => execPowerFailTrip_kept a s
  | .autostoreEnd a b, s => execAutostoreEnd_kept a b s
  | .vholdCollapse a, s => execVholdCollapse_kept a s
  | .pfailClear, s => execPfailClear_kept s
  | .vholdOkSet, s => execVholdOkSet_kept s
  | .vholdOkClear, s => execVholdOkClear_kept s
  | .axlCtlWrite a b, s => execAxlCtlWrite_kept a b s
  | .presetCapture a b, s => execPresetCapture_kept a b s
  | .marginRead a, s => execMarginRead_kept a s
  | .heartbeatSend, s => execHeartbeatSend_kept s
  | .heartbeatReceive a b c, s => execHeartbeatReceive_kept a b c s
  | .pathLost a b, s => execPathLost_kept a b s
  | .partnerRestartTimeout a, s => execPartnerRestartTimeout_kept a s
  | .stateTransferDone a b, s => execStateTransferDone_kept a b s
  | .forwardReceive a b c d, s => execForwardReceive_kept a b c d s
  | .forwardAck a, s => execForwardAck_kept a s
  | .forwardAckTimeout a, s => execForwardAckTimeout_kept a s
  | .timeExchange a b, s => execTimeExchange_kept a b s
  | .mateLinkDown, s => execMateLinkDown_kept s
  | .mateLinkUp a, s => execMateLinkUp_kept a s
  | .sidebandLost, s => execSidebandLost_kept s
  | .handoverSwap a, s => execHandoverSwap_kept a s
  | .pairingTimeout, s => execPairingTimeout_kept s
  | .domainPacketReceive a b, s => execDomainPacketReceive_kept a b s
  | .domainRetransmit a, s => execDomainRetransmit_kept a s
  | .domainAckReceive a b c d, s => execDomainAckReceive_kept a b c d s
  | .lcProvision a, s => execLcProvision_kept a s
  | .lcField, s => execLcField_kept s
  | .lcRma a b, s => execLcRma_kept a b s
  | .lcEnd a, s => execLcEnd_kept a s
  | .vendorDebugSession a, s => execVendorDebugSession_kept a s
  | .identityKeyGenerated, s => execIdentityKeyGenerated_kept s
  | .routeLogKeyGenerated, s => execRouteLogKeyGenerated_kept s
  | .entropyFail, s => execEntropyFail_kept s
  | .checkpointPeriod a, s => execCheckpointPeriod_kept a s
  | .logTailWrite a, s => execLogTailWrite_kept a s
  | .logSetupWrite a b, s => execLogSetupWrite_kept a b s
  | .errorDetected a b c, s => execErrorDetected_kept a b c s
  | .selfTestStart a, s => execSelfTestStart_kept a s
  | .selfTestEnd a b, s => execSelfTestEnd_kept a b s
  | .fltAckWrite a, s => execFltAckWrite_kept a s
  | .fltUnfenceWrite a b, s => execFltUnfenceWrite_kept a b s
  | .i2cRead a, s => execI2cRead_kept a s
  | .i2cWrite a b, s => execI2cWrite_kept a b s
  | .extTempRead a b, s => execExtTempRead_kept a b s
  | .boundaryScanInstruction a, s => execBoundaryScanInstruction_kept a s
  | .powerGoodReturn, s => execPowerGoodReturn_kept s
  | .perstNRelease, s => execPerstNRelease_kept s
  | .pairRequestReceive a, s => execPairRequestReceive_kept a s
  | .detachReceive, s => execDetachReceive_kept s
  | .snapshotRead a, s => execSnapshotRead_kept a s
  | .retentionVoltageLoss, s => execRetentionVoltageLoss_kept s
  | .entropyHealthPass, s => execEntropyHealthPass_kept s
  | .overTemperature a, s => execOverTemperature_kept a s

/-- Taking the front command off the queue touches no register and no memory. -/
theorem State.wf_pending {s : State} (h : s.wf) (l : List Instr) : { s with pending := l }.wf := h

/-- Settles O5: every command answers a next state that keeps the queue. -/
theorem everyCommandAnswersNext : Obligations.EveryCommandAnswersNext := by
  intro c s
  obtain ⟨t, ht, hpending, -⟩ := exec_kept c s
  exact ⟨t, ht, hpending⟩

/-- Settles O6: the one next state of a command keeps every part outside `partsOf`. -/
theorem frameOfEveryCommand : Obligations.FrameOfEveryCommand := by
  intro c s t h
  obtain ⟨u, hu, hk⟩ := exec_kept c s
  obtain rfl : u = t := Host.Outcome.next.inj (hu.symm.trans h)
  exact hk.within

/-- Settles O3: on an empty queue the block idles; otherwise the front command keeps the canonical forms. -/
theorem stepKeepsCanonicalForm : Obligations.StepKeepsCanonicalForm := by
  intro s t hwf hstep
  unfold step at hstep
  split at hstep
  case h_1 =>
    obtain rfl : s = t := Host.Outcome.next.inj hstep
    exact hwf
  case h_2 c rest hp =>
    obtain ⟨u, hu, -, hkeeps, -⟩ := exec_kept c { s with pending := rest }
    obtain rfl : u = t := Host.Outcome.next.inj (hu.symm.trans hstep)
    exact hkeeps (State.wf_pending hwf rest)

end Sys2Proof.Machine

/-! Acquisition on an SDI receive lane (R32, R37, R40, R41). -/
namespace Sys2Proof.Machine

theorem exec_sdiCarrierDetect_on {s : State} {n : Fin 72} (h : s.rxOn n = true) :
    exec (.sdiCarrierDetect n) s = .next (s.set (R.SDI_RX_STAT n) F.SDI_RX_STAT_CARRIER 1) := by
  have e : exec (.sdiCarrierDetect n) s = .next (s.carrierDetect n) := rfl
  rw [e, State.carrierDetect, if_pos h]

theorem exec_cdrLock (s : State) (n : Fin 72) (rate : Nat) : exec (.cdrLock n rate) s = .next (s.cdrLocked n rate) := rfl

/-- A lane locks at the rate found when it is free to (R32). -/
theorem State.cdrLocked_of_free {s : State} {n rate : Nat} (hc : s.flag (R.SDI_RX_STAT n) F.SDI_RX_STAT_CARRIER = true)
    (hl : s.flag (R.SDI_RX_STAT n) F.SDI_RX_STAT_CDR_LOCK = false) (h1 : 1 ≤ rate) (h9 : rate ≤ 9)
    (hf : s.rateForce n = 0 ∨ s.rateForce n = rate) :
    s.cdrLocked n rate = (s.set (R.SDI_RX_STAT n) F.SDI_RX_STAT_CDR_LOCK 1).set (R.SDI_RX_STAT n) F.SDI_RX_STAT_RATE rate := by
  simp [State.cdrLocked, hc, hl, h1, h9, hf]

/-- A forced rate that does not match never locks (R32). -/
theorem State.cdrLocked_of_forced {s : State} {n rate : Nat} (h0 : s.rateForce n ≠ 0) (hr : s.rateForce n ≠ rate) :
    s.cdrLocked n rate = s := by
  simp [State.cdrLocked, h0, hr]

theorem exec_trsLock_locked {s : State} {n : Fin 72} (h : s.flag (R.SDI_RX_STAT n) F.SDI_RX_STAT_CDR_LOCK = true) :
    exec (.trsLock n) s = .next ((s.set (R.SDI_RX_STAT n) F.SDI_RX_STAT_TRS_LOCK 1).groupShow n) := by
  have e : exec (.trsLock n) s = execTrsLock n s := rfl
  rw [e, execTrsLock, if_pos h]

theorem State.groupShow_some {s : State} {n m : Nat} (h : s.rxLeader n = some m) :
    s.groupShow n = s.setB (R.SDI_RX_STAT m) F.SDI_RX_STAT_GROUP_OK (s.groupLocked m (s.rx m).group) := by
  rw [State.groupShow, h]

/-- What GROUP_OK says reads neither GROUP_OK nor anything that a write of it changes. -/
theorem State.groupLocked_setB_groupOk (s : State) (m n k : Nat) (b : Bool) :
    (s.setB (R.SDI_RX_STAT m) F.SDI_RX_STAT_GROUP_OK b).groupLocked n k = s.groupLocked n k := by
  have hget (a : Nat) (f : Bits) (hf : F.SDI_RX_STAT_GROUP_OK.apart f) :
      (s.setB (R.SDI_RX_STAT m) F.SDI_RX_STAT_GROUP_OK b).get a f = s.get a f := by
    by_cases ha : a = R.SDI_RX_STAT m
    · rw [ha, State.get_setB_apart _ _ _ _ (by decide) hf]
    · rw [State.get_setB_ne _ _ _ _ ha]
  have hrx (j : Nat) : (s.setB (R.SDI_RX_STAT m) F.SDI_RX_STAT_GROUP_OK b).rx j = s.rx j := State.rx_congr (State.setB_media ..) j
  simp only [State.groupLocked, State.groupLocks, State.groupNear, State.flag, hget _ F.SDI_RX_STAT_TRS_LOCK (by decide),
    hget _ F.SDI_RX_STAT_RATE (by decide), hrx]

/-- GROUP_OK of the leader says whether its group is locked and within the skew limit (R40). -/
theorem State.get_groupShow_groupOk {s : State} {n m : Nat} (h : s.rxLeader n = some m) :
    (s.groupShow n).get (R.SDI_RX_STAT m) F.SDI_RX_STAT_GROUP_OK =
      if (s.groupShow n).groupLocked m ((s.groupShow n).rx m).group then 1 else 0 := by
  rw [State.rx_congr (s.groupShow_media n), State.groupShow_some h, State.groupLocked_setB_groupOk,
    State.get_setB_self _ _ _ (by decide) rfl]

theorem State.groupShow_onlyRegs {s : State} {n m : Nat} {l : List Nat} (h : s.rxLeader n = some m) (hm : R.SDI_RX_STAT m ∈ l) :
    s.onlyRegs (s.groupShow n) l := by
  rw [State.groupShow_some h]
  exact s.setB_onlyRegs _ _ hm

theorem State.rxLeader_set (s : State) (a : Nat) (f : Bits) (v n : Nat) : (s.set a f v).rxLeader n = s.rxLeader n :=
  State.rxLeader_congr (fun k => by rw [State.rx_congr (State.set_media ..)]) n

theorem exec_acquisitionAbort_unlocked {s : State} {n : Fin 72} (h : s.flag (R.SDI_RX_STAT n) F.SDI_RX_STAT_TRS_LOCK = false) :
    exec (.acquisitionAbort n) s =
      .next (((s.set (R.SDI_RX_STAT n) F.SDI_RX_STAT_CARRIER 0).set (R.SDI_RX_STAT n) F.SDI_RX_STAT_CDR_LOCK 0).set (R.SDI_RX_STAT n)
        F.SDI_RX_STAT_RATE 0) := by
  have e : exec (.acquisitionAbort n) s = execAcquisitionAbort n s := rfl
  simp [e, execAcquisitionAbort, h]

/-- Settles O7: each event by the case its condition selects; GROUP_OK of a leader by what `groupShow` writes. -/
theorem sdiAcquisition : Obligations.SdiAcquisition := by
  refine ⟨fun s n h => exec_sdiCarrierDetect_on h, fun s n rate hc hl h1 h9 hf => ?_, fun s n rate h0 hr => ?_, fun s n h => ⟨?_, fun hm => ?_, fun m hm => ?_⟩,
    fun s n h => exec_acquisitionAbort_unlocked h⟩
  · rw [exec_cdrLock, State.cdrLocked_of_free hc hl h1 h9 hf]
  · rw [exec_cdrLock, State.cdrLocked_of_forced h0 hr]
  · exact exec_trsLock_locked h
  · rw [exec_trsLock_locked h, State.groupShow_none ((s.rxLeader_set ..).trans hm)]
  · have hm' := (s.rxLeader_set (R.SDI_RX_STAT n) F.SDI_RX_STAT_TRS_LOCK 1 n).trans hm
    exact ⟨_, exec_trsLock_locked h, State.get_groupShow_groupOk hm',
      (s.set_onlyRegs _ _ (by simp)).trans (State.groupShow_onlyRegs hm' (by simp))⟩

end Sys2Proof.Machine

/-! Errors and the loss of an SDI input (R35, R41, R186), and the registers of a receive lane. -/
namespace Sys2Proof.Machine

/-! ### The registers of a lane lie apart -/

section laneRegs
variable (n k d : Nat)

theorem SDI_RX_STAT_ne_TX_STAT : R.SDI_RX_STAT n ≠ R.SDI_TX_STAT k := by
  unfold R.SDI_RX_STAT R.SDI_TX_STAT quadWin; omega

theorem SDI_RX_HIST_ne_TX_STAT : R.SDI_RX_HIST n ≠ R.SDI_TX_STAT k := by
  unfold R.SDI_RX_HIST R.SDI_TX_STAT quadWin; omega

theorem SDI_RX_CTL_ne_TX_STAT : R.SDI_RX_CTL n ≠ R.SDI_TX_STAT k := by
  unfold R.SDI_RX_CTL R.SDI_TX_STAT quadWin; omega

theorem SDI_RX_LOS_CNT_ne_TX_STAT : R.SDI_RX_LOS_CNT n ≠ R.SDI_TX_STAT k := by
  unfold R.SDI_RX_LOS_CNT R.SDI_TX_STAT quadWin; omega

theorem SDI_RX_STAT_ne_FRZ (n : Fin 72) : R.SDI_RX_STAT n ≠ R.XPT_FRZ_STAT d := by
  unfold R.SDI_RX_STAT R.XPT_FRZ_STAT quadWin; omega

theorem SDI_RX_HIST_ne_FRZ (n : Fin 72) : R.SDI_RX_HIST n ≠ R.XPT_FRZ_STAT d := by
  unfold R.SDI_RX_HIST R.XPT_FRZ_STAT quadWin; omega

theorem SDI_RX_CTL_ne_FRZ (n : Fin 72) : R.SDI_RX_CTL n ≠ R.XPT_FRZ_STAT d := by
  unfold R.SDI_RX_CTL R.XPT_FRZ_STAT quadWin; omega

theorem SDI_RX_LOS_CNT_ne_FRZ (n : Fin 72) : R.SDI_RX_LOS_CNT n ≠ R.XPT_FRZ_STAT d := by
  unfold R.SDI_RX_LOS_CNT R.XPT_FRZ_STAT quadWin; omega

theorem SDI_RX_STAT_ne_HIST : R.SDI_RX_STAT n ≠ R.SDI_RX_HIST k := by
  unfold R.SDI_RX_STAT R.SDI_RX_HIST quadWin; omega

theorem SDI_RX_STAT_ne_CTL : R.SDI_RX_STAT n ≠ R.SDI_RX_CTL k := by
  unfold R.SDI_RX_STAT R.SDI_RX_CTL quadWin; omega

theorem SDI_RX_HIST_ne_CTL : R.SDI_RX_HIST n ≠ R.SDI_RX_CTL k := by
  unfold R.SDI_RX_HIST R.SDI_RX_CTL quadWin; omega

theorem SDI_RX_LOS_CNT_ne_STAT : R.SDI_RX_LOS_CNT n ≠ R.SDI_RX_STAT k := by
  unfold R.SDI_RX_LOS_CNT R.SDI_RX_STAT quadWin; omega

theorem SDI_RX_LOS_CNT_ne_HIST : R.SDI_RX_LOS_CNT n ≠ R.SDI_RX_HIST k := by
  unfold R.SDI_RX_LOS_CNT R.SDI_RX_HIST quadWin; omega

theorem SDI_RX_ANC_DROP_ne_HIST : R.SDI_RX_ANC_DROP n ≠ R.SDI_RX_HIST k := by
  unfold R.SDI_RX_ANC_DROP R.SDI_RX_HIST quadWin; omega

end laneRegs

/-! ### Ancillary checksum errors -/

/-- The samples that a bad packet with this DID leaves held on lane `n` (R186). -/
def State.ancHeld (s : State) (n did : Nat) : List (Nat × Nat) :=
  match dataGroup did with
  | some g => if s.rxMember n then [] else
      (List.range (s.groupChans n)).flatMap fun c => (List.range (4 / s.groupChans n)).map fun i => (audEp 1 n (s.groupChans n * g + c), i)
  | none => []

/-- The state with the samples of a bad packet held. -/
def State.ancHold (s : State) (n did : Nat) : State := { s with aud := { s.aud with hold := s.ancHeld n did ++ s.aud.hold } }

/-- The state after a bad ancillary packet on a locked lane. -/
def State.ancDropped (s : State) (n did : Nat) : State :=
  ((s.ancHold n did).inc (R.SDI_RX_ANC_DROP n)).raise (Hist.srx n) F.SDI_RX_HIST_ANC_CS_ERR

theorem exec_ancChecksumError_locked {s : State} {n : Fin 72} (h : s.flag (R.SDI_RX_STAT n) F.SDI_RX_STAT_TRS_LOCK = true) (did : Nat) :
    exec (.ancChecksumError n did) s = .next (s.ancDropped n did) := by
  have e : exec (.ancChecksumError n did) s = execAncChecksumError n did s := rfl
  rw [e, execAncChecksumError, if_pos h]
  rfl

theorem State.rd_ancDropped_count (s : State) (n did : Nat) :
    ((s.ancDropped n did).rd (R.SDI_RX_ANC_DROP n)).toNat = min 0xFFFFFFFF ((s.rd (R.SDI_RX_ANC_DROP n)).toNat + 1) := by
  rw [State.ancDropped, State.rd_raise_ne _ _ _ (SDI_RX_ANC_DROP_ne_HIST n n), State.rd_inc]
  rfl

theorem State.ancDropped_hold (s : State) (n did : Nat) : (s.ancDropped n did).aud.hold = s.ancHeld n did ++ s.aud.hold := by
  rw [State.ancDropped, State.raise_aud, State.inc_aud]
  rfl

theorem State.ancDropped_onlyRegs (s : State) (n did : Nat) :
    (s.ancHold n did).onlyRegs (s.ancDropped n did) [R.SDI_RX_ANC_DROP n, R.SDI_RX_HIST n] :=
  (State.inc_onlyRegs _ (by simp)).trans (State.raise_onlyRegs _ _ _ (by simp [Hist.srx]))

/-! ### Loss -/

theorem State.sdiInputs_unused {s : State} (h6 : s.inSt 6 < 2) (h7 : s.inSt 7 < 2) : s.sdiInputs = s := by
  have e6 : s.lostIn 6 = s := if_pos h6
  have e7 : s.lostIn 7 = s := if_pos h7
  simp [State.sdiInputs, e6, e7]

theorem exec_sdiLoss_locked {s : State} {n : Fin 72} (h : s.flag (R.SDI_RX_STAT n) F.SDI_RX_STAT_TRS_LOCK = true) (t : Nat) :
    exec (.sdiLoss n t) s = .next (((s.at_ t).rxLoss n).sdiInputs) := by
  have e : exec (.sdiLoss n t) s = execSdiLoss n t s := rfl
  rw [e, execSdiLoss]
  exact congrArg _ (if_pos h)

theorem exec_sdiLoss_unlocked {s : State} {n : Fin 72} (h : s.flag (R.SDI_RX_STAT n) F.SDI_RX_STAT_TRS_LOCK = false) (t : Nat) :
    exec (.sdiLoss n t) s = .next (s.at_ t) := by
  have e : exec (.sdiLoss n t) s = execSdiLoss n t s := rfl
  rw [e, execSdiLoss]
  exact congrArg _ (if_neg (by simp [State.flag_at, h]))

/-- The loss of a lane on its own or of a group's leader: the lane alone goes down. -/
theorem State.rxLoss_alone {s : State} {n : Nat} (h : ∀ m, s.rxLeader n = some m → m = n) :
    s.rxLoss n = ((s.rxDown n true).inc (R.SDI_RX_LOS_CNT n)).raise (Hist.srx n) F.SDI_RX_HIST_LOS := by
  unfold State.rxLoss
  cases hl : s.rxLeader n with
  | none => rfl
  | some m => exact if_pos (h m hl)

section loss
variable {s : State} {n : Fin 72} (h : ∀ m, s.rxLeader n = some m → m = n)
include h

theorem State.rd_rxLoss_other {a : Nat} (ha : a ∉ [R.SDI_RX_STAT n, R.SDI_RX_LOS_CNT n, R.SDI_RX_HIST n])
    (ht : ∀ k < 72, a ≠ R.SDI_TX_STAT k) (hf : ∀ d, a ≠ R.XPT_FRZ_STAT d) : (s.rxLoss n).rd a = s.rd a := by
  simp only [List.mem_cons, List.not_mem_nil, or_false, not_or] at ha
  obtain ⟨hstat, hcnt, hhist⟩ := ha
  rw [State.rxLoss_alone h, State.rd_raise_ne _ _ _ hhist, State.rd_inc_ne _ hcnt, State.rxDown_rd _ _ _ _ _ ht hf, if_neg hstat]
  exact fun m hm => h m hm ▸ hstat

theorem State.rd_rxLoss_count :
    ((s.rxLoss n).rd (R.SDI_RX_LOS_CNT n)).toNat = min 0xFFFFFFFF ((s.rd (R.SDI_RX_LOS_CNT n)).toNat + 1) := by
  rw [State.rxLoss_alone h, State.rd_raise_ne _ _ _ (SDI_RX_LOS_CNT_ne_HIST n n), State.rd_inc, State.rxDown_rd _ _ _ _
    (fun m _ => SDI_RX_LOS_CNT_ne_STAT n m) (fun k _ => SDI_RX_LOS_CNT_ne_TX_STAT n k) (fun d => SDI_RX_LOS_CNT_ne_FRZ d n),
    if_neg (SDI_RX_LOS_CNT_ne_STAT n n)]

theorem State.get_rxLoss_los : (s.rxLoss n).get (R.SDI_RX_HIST n) F.SDI_RX_HIST_LOS = 1 := by
  rw [State.rxLoss_alone h]
  exact State.get_raise _ (Hist.srx n) _ rfl (by decide)

theorem State.rxLoss_rx : (s.rxLoss n).rx n = (s.rxDown n true).rx n := by
  rw [State.rxLoss_alone h]
  exact State.rx_congr (by rw [State.raise_media, State.inc_media]) n

theorem State.inSt_rxLoss {i : Nat} (hi : i < 8) : (s.rxLoss n).inSt i = s.inSt i := by
  have e : (s.rxLoss n).rd (R.REF_IN_STAT i) = s.rd (R.REF_IN_STAT i) := by
    refine State.rd_rxLoss_other h ?_ (fun k _ => ?_) fun d => ?_
    · simp only [R.REF_IN_STAT, R.SDI_RX_STAT, R.SDI_RX_LOS_CNT, R.SDI_RX_HIST, quadWin, List.mem_cons, List.not_mem_nil, or_false]
      omega
    · unfold R.REF_IN_STAT R.SDI_TX_STAT quadWin; omega
    · unfold R.REF_IN_STAT R.XPT_FRZ_STAT; omega
  rw [State.inSt, State.get, e]
  rfl

end loss

theorem State.rd_rxLoss_stat {s : State} {n : Fin 72} (h : s.rxLeader n = none) : (s.rxLoss n).rd (R.SDI_RX_STAT n) = 0x00FF0000 := by
  have hl : ∀ m, s.rxLeader n = some m → m = n := by simp [h]
  rw [State.rxLoss_alone hl, State.rd_raise_ne _ _ _ (SDI_RX_STAT_ne_HIST n n), State.rd_inc_ne _ (SDI_RX_LOS_CNT_ne_STAT n n).symm,
    State.rxDown_rd _ _ _ _ (by simp [h]) (fun k _ => SDI_RX_STAT_ne_TX_STAT n k) (fun d => SDI_RX_STAT_ne_FRZ d n), if_pos rfl,
    resetVal_SDI_RX_STAT]

/-- Settles O10: a bad packet is a hold, a count and a raise; a loss on a lane outside groups is a lane that goes down, a count and a raise. Which
audio group a DID belongs to is presumed (log entry 149). -/
theorem sdiErrorsAndLoss : Obligations.SdiErrorsAndLoss := by
  refine ⟨fun s n did h => ⟨_, exec_ancChecksumError_locked h did, s.rd_ancDropped_count n did, ?_, fun g k hg hk hm => ?_, fun hg => ?_, ?_⟩,
    fun s n t h => exec_sdiLoss_locked h t, fun s n t h hl h6 h7 => ?_, fun s n t h => exec_sdiLoss_unlocked h t⟩
  · exact State.get_raise _ (Hist.srx n) _ rfl (by decide)
  · subst hk
    simp [State.ancDropped_hold, State.ancHeld, hg, hm]
  · simp [State.ancDropped_hold, State.ancHeld, hg]
  · rw [State.ancDropped_hold]
    exact s.ancDropped_onlyRegs n did
  · have hl' : (s.at_ t).rxLeader n = none := hl
    have ha : ∀ m, (s.at_ t).rxLeader n = some m → m = n := by simp [hl']
    have hi : ((s.at_ t).rxLoss n).sdiInputs = (s.at_ t).rxLoss n :=
      State.sdiInputs_unused ((State.inSt_rxLoss ha (by decide)).trans_lt h6) ((State.inSt_rxLoss ha (by decide)).trans_lt h7)
    obtain ⟨hmeas, hrelock, -⟩ := (s.at_ t).rxDown_rx n true
    refine ⟨_, (exec_sdiLoss_locked h t).trans (congrArg _ hi), State.rd_rxLoss_stat hl', State.rd_rxLoss_count ha,
      State.get_rxLoss_los ha, ?_, ?_, fun a h1 h2 h3 => State.rd_rxLoss_other ha h1 h2 h3⟩
    · rw [State.rxLoss_rx ha, hmeas]
    · rw [State.rxLoss_rx ha, hrelock, Bool.true_or]

end Sys2Proof.Machine

/-! A forced rate (R37, Table 2-2). -/
namespace Sys2Proof.Machine

/-- A field's value fits its width. -/
theorem State.get_lt (s : State) (a : Nat) (f : Bits) : s.get a f < 2 ^ f.width := Nat.mod_lt _ (by positivity)

/-- A field written with a value that fits reads as that value. -/
theorem State.get_set_fits (s : State) (a : Nat) (f : Bits) {v : Nat} (h : f.lo + f.width ≤ 32) (hv : v < 2 ^ f.width) :
    (s.set a f v).get a f = v := by
  rw [State.get_set_self _ _ _ _ h, Nat.mod_eq_of_lt hv]

/-- A lane that goes down shows the reset value in every field of its status but GROUP_OK, which the leader of its group holds. -/
theorem State.get_rxDown_stat (s : State) (n : Fin 72) (l : Bool) {f : Bits} (hf : F.SDI_RX_STAT_GROUP_OK.apart f) :
    (s.rxDown n l).get (R.SDI_RX_STAT n) f = getF f 0x00FF0000 := by
  have hclear : (s.rxClear n l).get (R.SDI_RX_STAT n) f = getF f 0x00FF0000 := by
    rw [State.get, State.rxClear_rd, if_pos rfl, resetVal_SDI_RX_STAT]
  have hshow : ((s.rxClear n l).groupShow n).get (R.SDI_RX_STAT n) f = (s.rxClear n l).get (R.SDI_RX_STAT n) f := by
    obtain e | ⟨m, b, -, e⟩ := (s.rxClear n l).groupShow_eq n
    · rw [e]
    · rw [e]
      by_cases hm : R.SDI_RX_STAT n = R.SDI_RX_STAT m
      · rw [hm, State.get_setB_apart _ _ _ _ (by decide) hf]
      · rw [State.get_setB_ne _ _ _ _ hm]
  rw [← hclear, ← hshow, State.get, State.rxDown,
    State.sourceLost_rd _ _ _ (fun k _ => SDI_RX_STAT_ne_TX_STAT n k) fun d => SDI_RX_STAT_ne_FRZ d n, State.clkLost_rd]
  rfl

/-- A lane that goes down keeps its control register. -/
theorem State.rd_rxDown_ctl (s : State) (n m : Fin 72) (l : Bool) : (s.rxDown n l).rd (R.SDI_RX_CTL m) = s.rd (R.SDI_RX_CTL m) := by
  rw [State.rxDown_rd _ _ _ _ (fun k _ => (SDI_RX_STAT_ne_CTL k m).symm) (fun k _ => SDI_RX_CTL_ne_TX_STAT m k)
    (fun d => SDI_RX_CTL_ne_FRZ d m), if_neg (SDI_RX_STAT_ne_CTL n m).symm]

theorem rateCode_lt (v : Nat) : rateCode v < 16 := by
  unfold rateCode; split <;> omega

theorem exec_rateForceWrite {s : State} {n : Fin 72} (h : s.upFor (R.SDI_RX_CTL n)) (v t : Nat) :
    exec (.rateForceWrite n v t) s = .next (s.rateForceWrite n v t) := by
  have e : exec (.rateForceWrite n v t) s = execRateForceWrite n v t s := rfl
  rw [e, execRateForceWrite, State.byHost_upFor h]

/-- Lane `n` with another forced rate. -/
def State.forceRate (s : State) (n v t : Nat) : State := (s.at_ t).set (R.SDI_RX_CTL n) F.SDI_RX_CTL_RATE_FORCE (rateCode v)

/-- Lane `n` out of lock under another forced rate, with its carrier. -/
def State.forceDown (s : State) (n v t : Nat) : State :=
  ((s.forceRate n v t).rxDown n true).set (R.SDI_RX_STAT n) F.SDI_RX_STAT_CARRIER (s.get (R.SDI_RX_STAT n) F.SDI_RX_STAT_CARRIER)

theorem State.rateForceWrite_same {s : State} {n : Fin 72} {v : Nat} (h : s.get (R.SDI_RX_CTL n) F.SDI_RX_CTL_RATE_FORCE = rateCode v) (t : Nat) :
    s.rateForceWrite n v t = s.at_ t :=
  if_pos (by simp [State.get_at, h])

section other
variable {s : State} {n : Fin 72} {v : Nat} (hlv : s.lvRx n = false) (hne : s.get (R.SDI_RX_CTL n) F.SDI_RX_CTL_RATE_FORCE ≠ rateCode v)
include hlv hne

theorem State.rateForceWrite_unlocked (hl : s.flag (R.SDI_RX_STAT n) F.SDI_RX_STAT_CDR_LOCK = false) (t : Nat) :
    s.rateForceWrite n v t = s.forceRate n v t := by
  have hlv' : (s.at_ t).lvRx n = false := hlv
  simp [State.rateForceWrite, hlv', State.get_at, State.flag_at, hne, hl, State.forceRate]

theorem State.rateForceWrite_locked (hl : s.flag (R.SDI_RX_STAT n) F.SDI_RX_STAT_CDR_LOCK = true) (t : Nat) :
    s.rateForceWrite n v t = match s.rxLeader n with
      | some m => if m = n then s.forceDown n v t else (s.forceDown n v t).groupRelock m
      | none => s.forceDown n v t := by
  have hlv' : (s.at_ t).lvRx n = false := hlv
  have hlead : (s.at_ t).rxLeader n = s.rxLeader n := rfl
  simp [State.rateForceWrite, hlv', State.get_at, State.flag_at, hne, hl, hlead, State.forceDown, State.forceRate] <;> rfl

end other

section down
variable (s : State) (n : Fin 72) (v t : Nat)

theorem State.get_forceDown_rateForce : (s.forceDown n v t).get (R.SDI_RX_CTL n) F.SDI_RX_CTL_RATE_FORCE = rateCode v := by
  rw [State.forceDown, State.get_set_ne _ _ _ _ (SDI_RX_STAT_ne_CTL n n).symm, State.get, State.rd_rxDown_ctl]
  exact State.get_set_fits _ _ _ (by decide) (rateCode_lt v)

theorem State.get_forceDown_carrier :
    (s.forceDown n v t).get (R.SDI_RX_STAT n) F.SDI_RX_STAT_CARRIER = s.get (R.SDI_RX_STAT n) F.SDI_RX_STAT_CARRIER :=
  State.get_set_fits _ _ _ (by decide) (s.get_lt ..)

theorem State.flag_forceDown_cdrLock : (s.forceDown n v t).flag (R.SDI_RX_STAT n) F.SDI_RX_STAT_CDR_LOCK = false := by
  refine State.flag_of_get0 ?_
  rw [State.forceDown, State.get_set_apart _ _ _ _ _ (by decide) (by decide), State.get_rxDown_stat _ _ _ (by decide)]
  decide

theorem State.flag_forceDown_trsLock : (s.forceDown n v t).flag (R.SDI_RX_STAT n) F.SDI_RX_STAT_TRS_LOCK = false := by
  refine State.flag_of_get0 ?_
  rw [State.forceDown, State.get_set_apart _ _ _ _ _ (by decide) (by decide), State.get_rxDown_stat _ _ _ (by decide)]
  decide

theorem State.forceDown_relock : ((s.forceDown n v t).rx n).relock = true := by
  rw [State.forceDown, State.rx_congr (State.set_media ..), ((s.forceRate n v t).rxDown_rx n true).2.1, Bool.true_or]

end down

theorem State.rxLeader_forceRate (s : State) (n v t : Nat) : (s.forceRate n v t).rxLeader n = s.rxLeader n :=
  (s.at_ t).rxLeader_set _ _ _ _

/-- A lane on its own, or a group's leader, that drops lock leaves the other registers. -/
theorem State.rd_forceDown_other {s : State} {n : Fin 72} (h : ∀ m, s.rxLeader n = some m → m = n) (v t : Nat) {a : Nat}
    (ha : a ∉ [R.SDI_RX_CTL n, R.SDI_RX_STAT n]) (ht : ∀ k < 72, a ≠ R.SDI_TX_STAT k) (hf : ∀ d, a ≠ R.XPT_FRZ_STAT d) :
    (s.forceDown n v t).rd a = s.rd a := by
  simp only [List.mem_cons, List.not_mem_nil, or_false, not_or] at ha
  obtain ⟨hctl, hstat⟩ := ha
  rw [State.forceDown, State.rd_set_ne _ _ _ hstat, State.rxDown_rd _ _ _ _ _ ht hf, if_neg hstat, State.forceRate, State.rd_set_ne _ _ _ hctl,
    State.rd_at]
  exact fun m hm => h m ((s.rxLeader_forceRate n v t).symm.trans hm) ▸ hstat

/-- Settles O11: another rate forced on a locked lane takes it down as a loss does, with its carrier written back and no LOS raised. -/
theorem sdiRateForce : Obligations.SdiRateForce := by
  refine ⟨fun s n v t m hup hlv hne hl hm hmn => ⟨s.forceDown n v t, ?_, s.get_forceDown_rateForce n v t, s.get_forceDown_carrier n v t,
      s.flag_forceDown_cdrLock n v t, s.forceDown_relock n v t⟩,
    fun s n v t hup hlv hne hl hm => ⟨s.forceDown n v t, ?_, s.get_forceDown_rateForce n v t, s.get_forceDown_carrier n v t,
      s.flag_forceDown_cdrLock n v t, s.flag_forceDown_trsLock n v t, s.forceDown_relock n v t, fun a => State.rd_forceDown_other hm v t⟩,
    fun s n v t hup hlv hne hl => ?_, fun s n v t hup h => ?_⟩
  · rw [exec_rateForceWrite hup, State.rateForceWrite_locked hlv hne hl, hm]
    exact congrArg _ (if_neg hmn)
  · rw [exec_rateForceWrite hup, State.rateForceWrite_locked hlv hne hl]
    cases hlead : s.rxLeader n with
    | none => rfl
    | some m => exact congrArg _ (if_pos (hm m hlead))
  · rw [exec_rateForceWrite hup, State.rateForceWrite_unlocked hlv hne hl]
    rfl
  · rw [exec_rateForceWrite hup, State.rateForceWrite_same h]

end Sys2Proof.Machine

/-! Multi-link groups (R38 to R40). -/
namespace Sys2Proof.Machine

@[simp] theorem State.rx_setRx_self (s : State) (n : Nat) (l : RxLane) : (s.setRx n l).rx n = l := tabGet_set_self ..

@[simp] theorem State.tx_setTx_self (s : State) (n : Nat) (x : TxLane) : (s.setTx n x).tx n = x := tabGet_set_self ..

/-! ### What says whether a group may form reads no register -/

theorem State.rxLeader_congr_media {s t : State} (h : t.media = s.media) (n : Nat) : t.rxLeader n = s.rxLeader n :=
  State.rxLeader_congr (fun k => by rw [State.rx_congr h]) n

theorem State.rxGroupBusy_congr {s t : State} (hm : t.media = s.media) (hx : t.xpt = s.xpt) (n k : Nat) :
    t.rxGroupBusy n k = s.rxGroupBusy n k := by
  have hf (j : Nat) : t.feeds j = s.feeds j := by rw [State.feeds, State.feeds, hx]
  simp only [State.rxGroupBusy, hf, State.rxLeader_congr_media hm]

theorem State.txGroupBusy_congr {s t : State} (hm : t.media = s.media) (hx : t.xpt = s.xpt) (n k : Nat) :
    t.txGroupBusy n k = s.txGroupBusy n k := by
  simp only [State.txGroupBusy, State.txLeader, State.tx_congr hm, State.route_congr hx]

/-! ### The transmit lanes of a group -/

/-- SDI_TX_STAT of every lane. -/
def txStats : List Nat := (List.range 72).map R.SDI_TX_STAT

theorem not_mem_txStats {a : Nat} (h : ∀ k < 72, a ≠ R.SDI_TX_STAT k) : a ∉ txStats := by
  intro ha
  obtain ⟨k, hk, rfl⟩ := List.mem_map.mp ha
  exact h k (List.mem_range.mp hk) rfl

theorem State.txLanes_onlyRegs (s : State) (n k : Nat) : s.onlyRegs (s.txLanes n k) txStats := by
  refine State.onlyRegs.foldl _ fun i hi s => s.txRefresh_onlyRegs _ (List.mem_map_of_mem (List.mem_range.mpr ?_))
  simpa using (List.mem_filter.mp hi).2

theorem SDI_TX_CTL_not_mem_txStats (n : Nat) : R.SDI_TX_CTL n ∉ txStats :=
  not_mem_txStats fun k _ => by unfold R.SDI_TX_CTL R.SDI_TX_STAT quadWin; omega

/-! ### A MULTI value on a receive lane -/

theorem exec_multiWrite_rx {s : State} {n : Fin 72} (hup : s.upFor (R.SDI_RX_CTL n)) (hlv : s.lvRx n = false) (hm : s.rxMember n = false) (v : Nat) :
    exec (.multiWrite false n v) s = .next (s.multiRx n v) := by
  have e : exec (.multiWrite false n v) s = .next (s.byHost (R.SDI_RX_CTL n) fun s => s.multiWrite false n v) := rfl
  rw [e, State.byHost_upFor hup]
  simp [State.multiWrite, hlv, hm]

/-- The state with a MULTI value stored. -/
def State.multiStored (s : State) (n v : Nat) : State := s.set (R.SDI_RX_CTL n) F.SDI_RX_CTL_MULTI v

theorem State.get_multiStored (s : State) (n v : Nat) : (s.multiStored n v).get (R.SDI_RX_CTL n) F.SDI_RX_CTL_MULTI = v % 4 :=
  s.get_set_self _ _ _ (by decide)

theorem State.rx_multiStored (s : State) (n v k : Nat) : (s.multiStored n v).rx k = s.rx k := State.rx_congr (State.set_media ..) k

theorem State.rxGroupBusy_multiStored (s : State) (n v m k : Nat) : (s.multiStored n v).rxGroupBusy m k = s.rxGroupBusy m k :=
  State.rxGroupBusy_congr (State.set_media ..) (State.set_xpt ..) m k

/-- The lane with its group request. -/
def State.askGroup (s : State) (n v k : Nat) : State := (s.multiStored n v).setRx n { s.rx n with groupReq := k }

theorem State.multiRx_asks {s : State} {n v : Nat} (h1 : multiLinks v ≠ 1) (hv : groupValid n (multiLinks v) = true)
    (hb : s.rxGroupBusy n (multiLinks v) = false) : s.multiRx n v = s.askGroup n v (multiLinks v) := by
  have hb' := (s.rxGroupBusy_multiStored n v n (multiLinks v)).trans hb
  have hr := s.rx_multiStored n v n
  unfold State.multiStored at hb' hr
  simp [State.multiRx, h1, hv, hb', hr, State.askGroup, State.multiStored]

/-- A value that cannot form a group, and 00 on a leader that is in use, drop the request and set MULTI_ERR. -/
theorem State.multiRx_refused {s : State} {n v : Nat}
    (h : multiLinks v ≠ 1 ∧ (groupValid n (multiLinks v) = false ∨ s.rxGroupBusy n (multiLinks v) = true) ∨
      multiLinks v = 1 ∧ s.rxGroupBusy n (s.rxLinks n) = true) :
    s.multiRx n v = (s.askGroup n v 0).raise (Hist.srx n) F.SDI_RX_HIST_MULTI_ERR := by
  have hb (k : Nat) := s.rxGroupBusy_multiStored n v n k
  have hr := s.rx_multiStored n v n
  unfold State.multiStored at hb hr
  rcases h with ⟨h1, hv | hbusy⟩ | ⟨h1, hbusy⟩
  · simp [State.multiRx, h1, hv, hr, State.askGroup, State.multiStored]
  · simp [State.multiRx, h1, hb, hbusy, hr, State.askGroup, State.multiStored]
  · simp only [State.rxLinks] at hbusy
    simp [State.multiRx, State.rxLinks, h1, hb, hbusy, hr, State.askGroup, State.multiStored]

/-- The lane without a group, and GROUP_OK clear. -/
def State.endGroup (s : State) (n v : Nat) (m : Option LaneMeas) : State :=
  ((s.multiStored n v).setRx n { s.rx n with groupReq := 0, group := 0, meas := m }).set (R.SDI_RX_STAT n) F.SDI_RX_STAT_GROUP_OK 0

/-- The lane without a group whose picture has ended: an unknown format, and a change of it. -/
def State.endPicture (s : State) (n v : Nat) : State :=
  ((s.endGroup n v none).set (R.SDI_RX_STAT n) F.SDI_RX_STAT_FORMAT 0xFF).raise (Hist.srx n) F.SDI_RX_HIST_FMT_CHANGE

theorem State.multiRx_ends {s : State} {n v : Nat} (h1 : multiLinks v = 1) (hb : s.rxGroupBusy n (s.rxLinks n) = false) :
    s.multiRx n v = if (s.rx n).group = 0 ∨ (s.rx n).meas = none then s.endGroup n v (s.rx n).meas else s.endPicture n v := by
  have hb' (k : Nat) := s.rxGroupBusy_multiStored n v n k
  have hr := s.rx_multiStored n v n
  simp only [State.rxLinks] at hb
  unfold State.multiStored at hb' hr
  simp [State.multiRx, State.rxLinks, h1, hb', hb, hr, State.endPicture, State.endGroup, State.multiStored]

section ask
variable (s : State) (n v k : Nat)

theorem State.rx_askGroup : (s.askGroup n v k).rx n = { s.rx n with groupReq := k } := State.rx_setRx_self ..

theorem State.get_askGroup_multi : (s.askGroup n v k).get (R.SDI_RX_CTL n) F.SDI_RX_CTL_MULTI = v % 4 :=
  (State.get_setRx ..).trans (s.get_multiStored n v)

theorem State.rd_askGroup_ne {a : Nat} (h : a ≠ R.SDI_RX_CTL n) : (s.askGroup n v k).rd a = s.rd a :=
  (State.rd_setRx ..).trans (s.rd_set_ne _ _ h)

theorem State.get_endGroup_multi (m : Option LaneMeas) : (s.endGroup n v m).get (R.SDI_RX_CTL n) F.SDI_RX_CTL_MULTI = v % 4 :=
  (State.get_set_ne _ _ _ _ (SDI_RX_STAT_ne_CTL n n).symm).trans (s.get_multiStored n v)

theorem State.rx_endGroup (m : Option LaneMeas) : (s.endGroup n v m).rx n = { s.rx n with groupReq := 0, group := 0, meas := m } :=
  (State.rx_congr (State.set_media ..) n).trans (State.rx_setRx_self ..)

theorem State.rd_endGroup_ne (m : Option LaneMeas) {a : Nat} (h : a ∉ [R.SDI_RX_CTL n, R.SDI_RX_STAT n]) : (s.endGroup n v m).rd a = s.rd a := by
  simp only [List.mem_cons, List.not_mem_nil, or_false, not_or] at h
  exact (State.rd_set_ne _ _ _ h.2).trans (s.rd_set_ne _ _ h.1)

theorem State.get_endPicture_multi : (s.endPicture n v).get (R.SDI_RX_CTL n) F.SDI_RX_CTL_MULTI = v % 4 := by
  rw [State.endPicture, State.get_raise_ne _ _ _ _ (SDI_RX_HIST_ne_CTL n n).symm, State.get_set_ne _ _ _ _ (SDI_RX_STAT_ne_CTL n n).symm,
    State.get_endGroup_multi]

theorem State.rx_endPicture : (s.endPicture n v).rx n = { s.rx n with groupReq := 0, group := 0, meas := none } := by
  rw [State.endPicture, State.rx_congr (State.raise_media ..), State.rx_congr (State.set_media ..), State.rx_endGroup]

theorem State.get_endPicture_groupOk : (s.endPicture n v).get (R.SDI_RX_STAT n) F.SDI_RX_STAT_GROUP_OK = 0 := by
  rw [State.endPicture, State.get_raise_ne _ _ _ _ (SDI_RX_STAT_ne_HIST n n), State.get_set_apart _ _ _ _ _ (by decide) (by decide)]
  exact State.get_set_self _ _ _ _ (by decide)

theorem State.get_endPicture_format : (s.endPicture n v).get (R.SDI_RX_STAT n) F.SDI_RX_STAT_FORMAT = 0xFF := by
  rw [State.endPicture, State.get_raise_ne _ _ _ _ (SDI_RX_STAT_ne_HIST n n)]
  exact State.get_set_self _ _ _ _ (by decide)

theorem State.rd_endPicture_ne {a : Nat} (h : a ∉ [R.SDI_RX_CTL n, R.SDI_RX_STAT n, R.SDI_RX_HIST n]) : (s.endPicture n v).rd a = s.rd a := by
  simp only [List.mem_cons, List.not_mem_nil, or_false, not_or] at h
  obtain ⟨hctl, hstat, hhist⟩ := h
  rw [State.endPicture, State.rd_raise_ne _ _ _ hhist, State.rd_set_ne _ _ _ hstat, State.rd_endGroup_ne _ _ _ _ (by simp [hctl, hstat])]

end ask

/-- What a refused MULTI value leaves (R39). -/
theorem State.multiRefused_spec (s : State) (n v : Nat) :
    ((s.askGroup n v 0).raise (Hist.srx n) F.SDI_RX_HIST_MULTI_ERR).get (R.SDI_RX_CTL n) F.SDI_RX_CTL_MULTI = v % 4 ∧
    ((s.askGroup n v 0).raise (Hist.srx n) F.SDI_RX_HIST_MULTI_ERR).get (R.SDI_RX_HIST n) F.SDI_RX_HIST_MULTI_ERR = 1 ∧
    ((s.askGroup n v 0).raise (Hist.srx n) F.SDI_RX_HIST_MULTI_ERR).rx n = { s.rx n with groupReq := 0 } ∧
    ∀ a, a ∉ [R.SDI_RX_CTL n, R.SDI_RX_HIST n] → ((s.askGroup n v 0).raise (Hist.srx n) F.SDI_RX_HIST_MULTI_ERR).rd a = s.rd a := by
  refine ⟨?_, State.get_raise _ (Hist.srx n) _ rfl (by decide), ?_, fun a ha => ?_⟩
  · rw [State.get_raise_ne _ _ _ _ (SDI_RX_HIST_ne_CTL n n).symm, State.get_askGroup_multi]
  · rw [State.rx_congr (State.raise_media ..), State.rx_askGroup]
  · simp only [List.mem_cons, List.not_mem_nil, or_false, not_or] at ha
    rw [State.rd_raise_ne _ _ _ ha.2, State.rd_askGroup_ne _ _ _ _ ha.1]

/-! ### A MULTI value on a transmit lane -/

theorem exec_multiWrite_tx {s : State} {n : Fin 72} (hup : s.upFor (R.SDI_TX_CTL n)) (hlv : s.lvTx n = false) (hm : s.txMember n = false) (v : Nat) :
    exec (.multiWrite true n v) s = .next (s.multiTx n v) := by
  have e : exec (.multiWrite true n v) s = .next (s.byHost (R.SDI_TX_CTL n) fun s => s.multiWrite true n v) := rfl
  rw [e, State.byHost_upFor hup]
  simp [State.multiWrite, hlv, hm]

/-- What a MULTI value makes of a transmit lane. -/
def State.txAsked (s : State) (n v : Nat) : TxLane :=
  if multiLinks v = 1 then { s.tx n with groupReq := 0, group := if s.txGroupBusy n (s.txLinks n) then (s.tx n).group else 0 }
  else { s.tx n with groupReq := if groupValid n (multiLinks v) && !s.txGroupBusy n (multiLinks v) then multiLinks v else 0 }

theorem State.multiTx_eq (s : State) (n v : Nat) :
    s.multiTx n v = ((s.set (R.SDI_TX_CTL n) F.SDI_TX_CTL_MULTI v).setTx n (s.txAsked n v)).txLanes n 4 := by
  have hb (k : Nat) : (s.set (R.SDI_TX_CTL n) F.SDI_TX_CTL_MULTI v).txGroupBusy n k = s.txGroupBusy n k :=
    State.txGroupBusy_congr (State.set_media ..) (State.set_xpt ..) n k
  have ht : (s.set (R.SDI_TX_CTL n) F.SDI_TX_CTL_MULTI v).tx n = s.tx n := State.tx_congr (State.set_media ..) n
  simp only [State.multiTx, State.txAsked, State.txLinks, hb, ht]
  split <;> rfl

theorem State.tx_multiTx (s : State) (n v : Nat) : (s.multiTx n v).tx n = s.txAsked n v := by
  rw [State.multiTx_eq, State.tx_congr (State.txLanes_onlyRegs ..).media, State.tx_setTx_self]

theorem State.rd_multiTx (s : State) (n v : Nat) {a : Nat} (h : a ∉ txStats) :
    (s.multiTx n v).rd a = (s.set (R.SDI_TX_CTL n) F.SDI_TX_CTL_MULTI v).rd a := by
  rw [State.multiTx_eq, (State.txLanes_onlyRegs ..).rd h, State.rd_setTx]

/-! ### A requested group forms -/

/-- Why a requested receive group cannot form (R39). -/
def State.groupBars (s : State) (n fmt k : Nat) : Prop :=
  groupValid n k = false ∨ s.rxGroupBusy n k = true ∨
    groupRate (s.get (R.SDI_RX_STAT n) F.SDI_RX_STAT_RATE) k (((s.fmt? fmt).map (·.lines)).getD 0) = false ∨
    ∃ i, i < k ∧ s.flag (R.SDI_RX_STAT (n + i)) F.SDI_RX_STAT_CDR_LOCK = true ∧
      s.get (R.SDI_RX_STAT (n + i)) F.SDI_RX_STAT_RATE ≠ s.get (R.SDI_RX_STAT n) F.SDI_RX_STAT_RATE

/-- The state with FMT_CHANGE set where the group's format is another than shown. -/
def State.formChange (s : State) (n i : Nat) : State :=
  if (s.rx n).meas.isSome ∧ s.get (R.SDI_RX_STAT n) F.SDI_RX_STAT_FORMAT ≠ i then s.raise (Hist.srx n) F.SDI_RX_HIST_FMT_CHANGE else s

/-- The leader with its group, before GROUP_OK. -/
def State.formed (s : State) (n i k : Nat) : State :=
  ((s.formChange n i).setRx n { s.rx n with groupReq := 0, group := k, meas := (s.rx n).meas.map fun m => { m with fmt := i } }).set
    (R.SDI_RX_STAT n) F.SDI_RX_STAT_FORMAT i

theorem State.groupRx_bars {s : State} {n fmt : Nat} (hk : (s.rx n).groupReq ≠ 0) (hl : s.flag (R.SDI_RX_STAT n) F.SDI_RX_STAT_TRS_LOCK = true)
    (h : s.groupBars n fmt (s.rx n).groupReq) :
    s.groupRx n fmt = (s.setRx n { s.rx n with groupReq := 0 }).raise (Hist.srx n) F.SDI_RX_HIST_MULTI_ERR := by
  unfold State.groupRx
  dsimp only
  rw [if_neg (by simp [hk, hl]), if_pos]
  simp only [Bool.or_eq_true, Bool.not_eq_true', List.any_eq_true, List.mem_range, Bool.and_eq_true, bne_iff_ne]
  rcases h with h | h | h | h
  · exact .inl (.inl (.inl h))
  · exact .inl (.inl (.inr h))
  · exact .inl (.inr h)
  · exact .inr h

theorem State.groupRx_forms {s : State} {n fmt : Nat} (hk : (s.rx n).groupReq ≠ 0) (hl : s.flag (R.SDI_RX_STAT n) F.SDI_RX_STAT_TRS_LOCK = true)
    (h : ¬ s.groupBars n fmt (s.rx n).groupReq) :
    s.groupRx n fmt = (s.formed n (if (s.fmt? fmt).isSome then fmt else 0xFF) (s.rx n).groupReq).groupShow n := by
  unfold State.groupRx
  dsimp only
  rw [if_neg (by simp [hk, hl]), if_neg]
  · rfl
  · simpa [State.groupBars, not_or, and_assoc] using h

end Sys2Proof.Machine

/-! Multi-link groups, continued: what a group that forms shows, and its loss by skew (R39, R40). -/
namespace Sys2Proof.Machine

/-! ### A receive group that forms -/

/-- GROUP_OK alone changes in the status of a group's leader. -/
theorem State.get_groupShow_apart (s : State) (n a : Nat) {f : Bits} (hf : F.SDI_RX_STAT_GROUP_OK.apart f) :
    (s.groupShow n).get a f = s.get a f := by
  obtain e | ⟨m, b, -, e⟩ := s.groupShow_eq n
  · rw [e]
  · rw [e]
    by_cases hm : a = R.SDI_RX_STAT m
    · rw [hm, State.get_setB_apart _ _ _ _ (by decide) hf]
    · rw [State.get_setB_ne _ _ _ _ hm]

section formed
variable (s : State) (n i k : Nat)

theorem State.formChange_onlyRegs {l : List Nat} (h : R.SDI_RX_HIST n ∈ l) : s.onlyRegs (s.formChange n i) l :=
  .ite (fun _ => s.raise_onlyRegs (Hist.srx n) _ h) fun _ => .refl ..

theorem State.rx_formed : (s.formed n i k).rx n =
    { s.rx n with groupReq := 0, group := k, meas := (s.rx n).meas.map fun m => { m with fmt := i } } :=
  (State.rx_congr (State.set_media ..) n).trans (State.rx_setRx_self ..)

theorem State.get_formed_format (hi : i < 256) : (s.formed n i k).get (R.SDI_RX_STAT n) F.SDI_RX_STAT_FORMAT = i :=
  State.get_set_fits _ _ _ (by decide) hi

theorem State.get_formed_fmtChange (hm : (s.rx n).meas ≠ none) (hf : s.get (R.SDI_RX_STAT n) F.SDI_RX_STAT_FORMAT ≠ i) :
    (s.formed n i k).get (R.SDI_RX_HIST n) F.SDI_RX_HIST_FMT_CHANGE = 1 := by
  have hc : s.formChange n i = s.raise (Hist.srx n) F.SDI_RX_HIST_FMT_CHANGE := if_pos ⟨Option.isSome_iff_ne_none.mpr hm, hf⟩
  rw [State.formed, State.get_set_ne _ _ _ _ (SDI_RX_STAT_ne_HIST n n).symm, State.get_setRx, hc]
  exact State.get_raise _ (Hist.srx n) _ rfl (by decide)

theorem State.rd_formed {a : Nat} (h : a ∉ [R.SDI_RX_STAT n, R.SDI_RX_HIST n]) : (s.formed n i k).rd a = s.rd a := by
  simp only [List.mem_cons, List.not_mem_nil, or_false, not_or] at h
  rw [State.formed, State.rd_set_ne _ _ _ h.1, State.rd_setRx,
    (s.formChange_onlyRegs n i (l := [R.SDI_RX_HIST n]) (by simp)).rd (by simpa using h.2)]

end formed

/-! ### A transmit group that forms -/

theorem exec_groupForm_rx (s : State) (n : Fin 72) (fmt t : Nat) : exec (.groupForm false n fmt t) s = .next ((s.at_ t).groupRx n fmt) := rfl

theorem exec_groupForm_tx (s : State) (n : Fin 72) (fmt t : Nat) : exec (.groupForm true n fmt t) s = .next ((s.at_ t).groupTx n) := rfl

theorem State.groupTx_forms {s : State} {n : Nat} (hk : (s.tx n).groupReq ≠ 0) (hv : groupValid n (s.tx n).groupReq = true)
    (hb : s.txGroupBusy n (s.tx n).groupReq = false) :
    s.groupTx n = (s.setTx n { s.tx n with groupReq := 0, group := (s.tx n).groupReq }).txLanes n (s.tx n).groupReq := by
  simp [State.groupTx, hk, hv, hb]

/-! ### Skew -/

theorem exec_groupSkew_far {s : State} {n : Fin 72} {skew : Nat} (hg : (s.rx n).group ≠ 0) (hs : 10000 < skew) (t : Nat) :
    exec (.groupSkew n skew t) s = .next ((((s.at_ t).raise (Hist.srx n) F.SDI_RX_HIST_GROUP_SKEW).rxLoss n).sdiInputs) := by
  have e : exec (.groupSkew n skew t) s = execGroupSkew n skew t s := rfl
  rw [e, execGroupSkew]
  exact congrArg _ (if_neg (not_or.mpr ⟨hg, Nat.not_le.mpr hs⟩))

theorem exec_groupSkew_near {s : State} {n : Fin 72} {skew : Nat} (hs : skew ≤ 10000) (t : Nat) :
    exec (.groupSkew n skew t) s = .next (s.at_ t) := by
  have e : exec (.groupSkew n skew t) s = execGroupSkew n skew t s := rfl
  rw [e, execGroupSkew]
  exact congrArg _ (if_pos (.inr hs))

/-- A group's leader without lock shows no GROUP_OK. -/
theorem State.groupLocks_leader {s : State} {n k : Nat} (hk : 0 < k) (h : s.flag (R.SDI_RX_STAT n) F.SDI_RX_STAT_TRS_LOCK = false) :
    s.groupLocks n k = false := by
  refine List.all_eq_false.mpr ⟨0, List.mem_range.mpr hk, ?_⟩
  simp [h]

theorem State.rxLeader_self {s : State} {n : Nat} (h : s.rxLeader n = some n) : (s.rx n).group = 4 ∨ (s.rx n).group = 2 := by
  unfold State.rxLeader at h
  split at h
  · rename_i h4
    exact .inl (Option.some.inj h ▸ h4)
  · split at h
    · rename_i h2
      exact .inr (Option.some.inj h ▸ h2)
    · cases h

/-- The leader of a group that goes down shows the reset value: GROUP_OK needs its own lock. -/
theorem State.rd_rxDown_leader {s : State} {n : Fin 72} (h : s.rxLeader n = some n.val) (l : Bool) :
    (s.rxDown n l).rd (R.SDI_RX_STAT n) = 0x00FF0000 := by
  have hlead : (s.rxClear n l).rxLeader n = some n.val := (State.rxLeader_congr (s.rxClear_group n l) n).trans h
  have hclear : (s.rxClear n l).rd (R.SDI_RX_STAT n) = 0x00FF0000 := by
    rw [State.rxClear_rd, if_pos rfl, resetVal_SDI_RX_STAT]
  have hlock : (s.rxClear n l).flag (R.SDI_RX_STAT n) F.SDI_RX_STAT_TRS_LOCK = false := by
    rw [State.flag, State.get, hclear]
    decide
  have hk : 0 < ((s.rxClear n l).rx n).group := by
    rcases State.rxLeader_self hlead with e | e <;> omega
  rw [State.rxDown, State.sourceLost_rd _ _ _ (fun k _ => SDI_RX_STAT_ne_TX_STAT n k) (fun d => SDI_RX_STAT_ne_FRZ d n), State.clkLost_rd,
    State.groupShow_some hlead, State.groupLocked, State.groupLocks_leader hk hlock, Bool.false_and, State.setB, State.rd_set_self, hclear]
  decide

/-- A group's leader whose lane goes down by skew: its lane is lost once, as the loss of a lane on its own. -/
theorem exec_groupSkew_leader {s : State} {n : Fin 72} {skew : Nat} (hg : (s.rx n).group ≠ 0) (hs : 10000 < skew)
    (hlead : s.rxLeader n = some n.val) (h6 : s.inSt 6 < 2) (h7 : s.inSt 7 < 2) (t : Nat) :
    exec (.groupSkew n skew t) s = .next (((s.at_ t).raise (Hist.srx n) F.SDI_RX_HIST_GROUP_SKEW).rxLoss n) ∧
      ∀ m, ((s.at_ t).raise (Hist.srx n) F.SDI_RX_HIST_GROUP_SKEW).rxLeader n = some m → m = n := by
  have hu : ((s.at_ t).raise (Hist.srx n) F.SDI_RX_HIST_GROUP_SKEW).rxLeader n = some n.val :=
    (State.rxLeader_congr_media (State.raise_media ..) n).trans hlead
  have ha : ∀ m, ((s.at_ t).raise (Hist.srx n) F.SDI_RX_HIST_GROUP_SKEW).rxLeader n = some m → m = n :=
    fun m hm => (Option.some.inj (hu.symm.trans hm)).symm
  have hin (i : Nat) (hi : i < 8) : ((s.at_ t).raise (Hist.srx n) F.SDI_RX_HIST_GROUP_SKEW).inSt i = s.inSt i :=
    State.get_raise_ne _ _ _ _ (by simp only [R.REF_IN_STAT, Hist.srx, R.SDI_RX_HIST, quadWin]; omega)
  refine ⟨(exec_groupSkew_far hg hs t).trans (congrArg _ (State.sdiInputs_unused ?_ ?_)), ha⟩
  · rw [State.inSt_rxLoss ha (by decide), hin 6 (by decide)]
    exact h6
  · rw [State.inSt_rxLoss ha (by decide), hin 7 (by decide)]
    exact h7

/-- A history bit of the lane that is set stays set through the lane's loss. -/
theorem State.get_rxLoss_hist {s : State} {n : Fin 72} (ha : ∀ m, s.rxLeader n = some m → m = n) {b : Nat} (hb : b < 32)
    (h : s.get (R.SDI_RX_HIST n) (bit b) = 1) : (s.rxLoss n).get (R.SDI_RX_HIST n) (bit b) = 1 := by
  rw [State.rxLoss_alone ha]
  refine State.get_raise_mono _ _ _ hb (by decide) ?_
  rw [State.get_inc_ne _ _ (SDI_RX_LOS_CNT_ne_HIST n n).symm, State.get, State.rxDown_rd _ _ _ _
    (fun m _ => (SDI_RX_STAT_ne_HIST m n).symm) (fun k _ => SDI_RX_HIST_ne_TX_STAT n k) (fun d => SDI_RX_HIST_ne_FRZ d n),
    if_neg (SDI_RX_STAT_ne_HIST n n).symm]
  exact h

theorem State.rd_rxLoss_leader {s : State} {n : Fin 72} (h : s.rxLeader n = some n.val) : (s.rxLoss n).rd (R.SDI_RX_STAT n) = 0x00FF0000 := by
  rw [State.rxLoss_alone fun m hm => (Option.some.inj (h.symm.trans hm)).symm, State.rd_raise_ne _ _ _ (SDI_RX_STAT_ne_HIST n n),
    State.rd_inc_ne _ (SDI_RX_LOS_CNT_ne_STAT n n).symm, State.rd_rxDown_leader h]

/-! ### The statement, command by command -/

theorem multiWrite_rx_ends {s : State} {n : Fin 72} {v : Nat} (hup : s.upFor (R.SDI_RX_CTL n)) (hlv : s.lvRx n = false)
    (hm : s.rxMember n = false) (h1 : multiLinks v = 1) (hb : s.rxGroupBusy n (s.rxLinks n) = false) :
    (((s.rx n).group = 0 ∨ (s.rx n).meas = none) ∧ exec (.multiWrite false n v) s = .next (s.endGroup n v (s.rx n).meas)) ∨
    (¬ ((s.rx n).group = 0 ∨ (s.rx n).meas = none) ∧ exec (.multiWrite false n v) s = .next (s.endPicture n v)) := by
  rw [exec_multiWrite_rx hup hlv hm, State.multiRx_ends h1 hb]
  by_cases hend : (s.rx n).group = 0 ∨ (s.rx n).meas = none
  · exact .inl ⟨hend, by rw [if_pos hend]⟩
  · exact .inr ⟨hend, by rw [if_neg hend]⟩

theorem State.get_multiTx_multi (s : State) (n v : Nat) : (s.multiTx n v).get (R.SDI_TX_CTL n) F.SDI_TX_CTL_MULTI = v % 4 := by
  rw [State.get, State.rd_multiTx _ _ _ (SDI_TX_CTL_not_mem_txStats n)]
  exact s.get_set_self _ _ _ (by decide)

theorem State.multiTx_xpt (s : State) (n v : Nat) : (s.multiTx n v).xpt = s.xpt := by
  rw [State.multiTx_eq, (State.txLanes_onlyRegs ..).xpt, State.setTx_xpt, State.set_xpt]

theorem State.txAsked_refused {s : State} {n v : Nat} (h1 : multiLinks v ≠ 1)
    (h : groupValid n (multiLinks v) = false ∨ s.txGroupBusy n (multiLinks v) = true) : s.txAsked n v = { s.tx n with groupReq := 0 } := by
  rw [State.txAsked, if_neg h1]
  rcases h with hv | hb
  · simp [hv]
  · simp [hb]

/-- What a receive group that forms shows. -/
theorem exec_groupForm_rx_forms {s : State} {n : Fin 72} {fmt : Nat} (hk : (s.rx n).groupReq ≠ 0)
    (hl : s.flag (R.SDI_RX_STAT n) F.SDI_RX_STAT_TRS_LOCK = true) (h : ¬ s.groupBars n fmt (s.rx n).groupReq) (t : Nat) :
    exec (.groupForm false n fmt t) s =
      .next (((s.at_ t).formed n (if (s.fmt? fmt).isSome then fmt else 0xFF) (s.rx n).groupReq).groupShow n) :=
  (exec_groupForm_rx ..).trans (congrArg _ (State.groupRx_forms (s := s.at_ t) hk hl h))

theorem exec_groupForm_rx_bars {s : State} {n : Fin 72} {fmt : Nat} (hk : (s.rx n).groupReq ≠ 0)
    (hl : s.flag (R.SDI_RX_STAT n) F.SDI_RX_STAT_TRS_LOCK = true) (h : s.groupBars n fmt (s.rx n).groupReq) (t : Nat) :
    exec (.groupForm false n fmt t) s =
      .next (((s.at_ t).setRx n { s.rx n with groupReq := 0 }).raise (Hist.srx n) F.SDI_RX_HIST_MULTI_ERR) :=
  (exec_groupForm_rx ..).trans (congrArg _ (State.groupRx_bars (s := s.at_ t) hk hl h))

theorem State.get_groupForm_groupOk {s : State} {n i k : Nat} (h : ((s.formed n i k).groupShow n).rxLeader n = some n) :
    ((s.formed n i k).groupShow n).get (R.SDI_RX_STAT n) F.SDI_RX_STAT_GROUP_OK =
      if ((s.formed n i k).groupShow n).groupLocked n k then 1 else 0 := by
  rw [State.get_groupShow_groupOk ((State.rxLeader_congr_media (State.groupShow_media ..) _).symm.trans h),
    State.rx_congr (State.groupShow_media ..), State.rx_formed]

theorem State.rd_groupForm {s : State} {n i k a : Nat} (ha : a ∉ [R.SDI_RX_STAT n, R.SDI_RX_HIST n])
    (h : ∀ m, ((s.formed n i k).groupShow n).rxLeader n = some m → a ≠ R.SDI_RX_STAT m) : ((s.formed n i k).groupShow n).rd a = s.rd a := by
  rw [State.groupShow_rd _ _ _ fun m hm => h m ((State.rxLeader_congr_media (State.groupShow_media ..) _).trans hm), State.rd_formed _ _ _ _ ha]

theorem exec_groupForm_tx_forms {s : State} {n : Fin 72} (fmt : Nat) (hk : (s.tx n).groupReq ≠ 0) (hv : groupValid n (s.tx n).groupReq = true)
    (hb : s.txGroupBusy n (s.tx n).groupReq = false) (t : Nat) :
    exec (.groupForm true n fmt t) s =
      .next (((s.at_ t).setTx n { s.tx n with groupReq := 0, group := (s.tx n).groupReq }).txLanes n (s.tx n).groupReq) :=
  (exec_groupForm_tx ..).trans (congrArg _ (State.groupTx_forms (s := s.at_ t) hk hv hb))

/-- Settles O12: a MULTI value, a group that forms and a group's skew, each by the case its conditions select. -/
theorem sdiGroups : Obligations.SdiGroups := by
  refine ⟨fun s n v hup hlv hm h1 hv hb => ⟨s.askGroup n v (multiLinks v), ?_, s.get_askGroup_multi n v _, s.rx_askGroup n v _,
      fun a ha => s.rd_askGroup_ne n v _ ha⟩,
    fun s n v hup hlv hm h1 hr => ⟨_, ?_, s.multiRefused_spec n v⟩, fun s n v hup hlv hm h1 hb => ?_,
    fun s n v hup hlv hm h1 hb => ⟨_, ?_, s.multiRefused_spec n v⟩,
    fun s n v hup hlv hm => ⟨_, exec_multiWrite_tx hup hlv hm v, s.get_multiTx_multi n v, fun h1 hv hb => ?_, fun h1 hr => ?_, fun h1 hb => ?_,
      s.multiTx_xpt n v, fun a ha ht => ?_⟩,
    fun s n fmt t k hk hk0 hf hl hv hb hr hs => ?_, fun s n fmt t k hk hk0 hl hbars => ?_,
    fun s n fmt t k hk hk0 hv hb => ?_, fun s n skew t hg hs => exec_groupSkew_far hg hs t, fun s n skew t hg hs hlead h6 h7 => ?_,
    fun s n skew t hs => exec_groupSkew_near hs t⟩
  case refine_1 => rw [exec_multiWrite_rx hup hlv hm, State.multiRx_asks h1 hv hb]
  case refine_2 => rw [exec_multiWrite_rx hup hlv hm, State.multiRx_refused (.inl ⟨h1, hr⟩)]
  case refine_3 =>
    rcases multiWrite_rx_ends hup hlv hm h1 hb with ⟨hend, e⟩ | ⟨hend, e⟩
    · refine ⟨_, e, s.get_endGroup_multi n v _, State.get_set_self _ _ _ _ (by decide),
        fun _ => ⟨s.rx_endGroup n v _, fun a ha => s.rd_endGroup_ne n v _ ha⟩, fun hg hm => absurd hend (not_or.mpr ⟨hg, hm⟩),
        fun a ha => s.rd_endGroup_ne n v _ fun h => ha ?_⟩
      simp only [List.mem_cons, List.not_mem_nil, or_false] at h ⊢
      tauto
    · exact ⟨_, e, s.get_endPicture_multi n v, s.get_endPicture_groupOk n v, fun h => absurd h hend,
        fun _ _ => ⟨s.rx_endPicture n v, s.get_endPicture_format n v, State.get_raise _ (Hist.srx n) _ rfl (by decide)⟩,
        fun a ha => s.rd_endPicture_ne n v ha⟩
  case refine_4 => rw [exec_multiWrite_rx hup hlv hm, State.multiRx_refused (.inr ⟨h1, hb⟩)]
  case refine_5 => simp [State.tx_multiTx, State.txAsked, h1, hv, hb]
  case refine_6 => rw [State.tx_multiTx, State.txAsked_refused h1 hr]
  case refine_7 => rw [State.tx_multiTx, State.txAsked, if_pos h1, hb]; rfl
  case refine_8 => rw [State.rd_multiTx _ _ _ (not_mem_txStats ht), State.rd_set_ne _ _ _ ha]
  case refine_9 =>
    subst hk
    have hbars : ¬ s.groupBars n fmt (s.rx n).groupReq := by
      rintro (h | h | h | ⟨i, hi, h, h'⟩)
      · exact Bool.false_ne_true (h.symm.trans hv)
      · exact Bool.false_ne_true (hb.symm.trans h)
      · exact Bool.false_ne_true (h.symm.trans hr)
      · exact h' (hs i hi h)
    have hi : (if (s.fmt? fmt).isSome = true then fmt else 0xFF) < 256 := by split <;> omega
    refine ⟨_, exec_groupForm_rx_forms hk0 hl hbars t, ?_, State.get_groupForm_groupOk, fun a => State.rd_groupForm⟩
    rintro i rfl
    refine ⟨?_, ?_, fun hm hne => ?_⟩
    · rw [State.rx_congr (State.groupShow_media ..), State.rx_formed]
      rfl
    · rw [State.get_groupShow_apart _ _ _ (by decide), State.get_formed_format _ _ _ _ hi]
    · rw [State.get_groupShow_apart _ _ _ (by decide)]
      exact State.get_formed_fmtChange (s.at_ t) n _ _ hm hne
  case refine_10 =>
    subst hk
    refine ⟨_, exec_groupForm_rx_bars hk0 hl hbars t, ?_, State.get_raise _ (Hist.srx n) _ rfl (by decide), fun a ha => ?_⟩
    · rw [State.rx_congr (State.raise_media ..), State.rx_setRx_self]
    · rw [State.rd_raise_ne _ _ _ ha, State.rd_setRx, State.rd_at]
  case refine_11 =>
    subst hk
    refine ⟨_, exec_groupForm_tx_forms fmt hk0 hv hb t, ?_, ?_, fun a ha => ?_⟩
    · rw [State.tx_congr (State.txLanes_onlyRegs ..).media, State.tx_setTx_self]
    · rw [(State.txLanes_onlyRegs ..).xpt, State.setTx_xpt, State.at_xpt]
    · rw [(State.txLanes_onlyRegs ..).rd (not_mem_txStats ha), State.rd_setTx, State.rd_at]
  case refine_12 =>
    obtain ⟨e, ha⟩ := exec_groupSkew_leader hg hs hlead h6 h7 t
    have hu : ((s.at_ t).raise (Hist.srx n) F.SDI_RX_HIST_GROUP_SKEW).rxLeader n = some n.val :=
      (State.rxLeader_congr_media (State.raise_media ..) n).trans hlead
    obtain ⟨hmeas, -, hgroup⟩ := ((s.at_ t).raise (Hist.srx n) F.SDI_RX_HIST_GROUP_SKEW).rxDown_rx n true
    refine ⟨_, e, ?_, State.get_rxLoss_los ha, State.rd_rxLoss_leader hu, ?_, ?_⟩
    · exact State.get_rxLoss_hist ha (b := F.SDI_RX_HIST_GROUP_SKEW.lo) (by decide)
        (State.get_raise (s.at_ t) (Hist.srx n) F.SDI_RX_HIST_GROUP_SKEW rfl (by decide))
    · rw [State.rxLoss_rx ha, hmeas]
    · rw [State.rxLoss_rx ha, hgroup, State.rx_congr (State.raise_media ..)]
      rfl

end Sys2Proof.Machine

/-! Transmit lanes: power, leaving idle, and a DIRECT source out of range (R42, R44, R46). -/
namespace Sys2Proof.Machine

theorem SDI_TX_STAT_ne_CTL (n k : Nat) : R.SDI_TX_STAT n ≠ R.SDI_TX_CTL k := by
  unfold R.SDI_TX_STAT R.SDI_TX_CTL quadWin; omega

theorem SDI_TX_STAT_ne_FRZ (n : Fin 72) (d : Nat) : R.SDI_TX_STAT n ≠ R.XPT_FRZ_STAT d := by
  unfold R.SDI_TX_STAT R.XPT_FRZ_STAT quadWin; omega

theorem State.flag_setB_self (s : State) (a : Nat) (f : Bits) (b : Bool) (h : f.lo + f.width ≤ 32) (h1 : f.width = 1) :
    (s.setB a f b).flag a f = b := by
  rw [State.flag, State.get_setB_self _ _ _ h h1]
  cases b <;> rfl

theorem State.flag_setB_apart (s : State) (a : Nat) (f g : Bits) (b : Bool) (h : f.lo + f.width ≤ 32) (hg : f.apart g) :
    (s.setB a f b).flag a g = s.flag a g := by
  rw [State.flag, State.get_setB_apart _ _ _ _ h hg]
  rfl

/-! ### A lane for which an idle condition holds -/

/-- The lane idle for reason `why`. -/
def State.txIdle (s : State) (n why : Nat) : State :=
  ((s.set (R.SDI_TX_STAT n) F.SDI_TX_STAT_ACTIVE 0).set (R.SDI_TX_STAT n) F.SDI_TX_STAT_RATE 0).set (R.SDI_TX_STAT n) F.SDI_TX_STAT_IDLE_WHY why

theorem State.txRefresh_idle {s : State} {n : Nat} (h : s.idleWhy n ≠ 0) : s.txRefresh n = s.txIdle n (s.idleWhy n) := if_neg h

section txIdle
variable (s : State) (n why : Nat)

theorem State.get_txIdle_active : (s.txIdle n why).get (R.SDI_TX_STAT n) F.SDI_TX_STAT_ACTIVE = 0 := by
  rw [State.txIdle, State.get_set_apart _ _ _ _ _ (by decide) (by decide), State.get_set_apart _ _ _ _ _ (by decide) (by decide)]
  exact State.get_set_self _ _ _ _ (by decide)

theorem State.get_txIdle_rate : (s.txIdle n why).get (R.SDI_TX_STAT n) F.SDI_TX_STAT_RATE = 0 := by
  rw [State.txIdle, State.get_set_apart _ _ _ _ _ (by decide) (by decide)]
  exact State.get_set_self _ _ _ _ (by decide)

theorem State.get_txIdle_why (h : why < 16) : (s.txIdle n why).get (R.SDI_TX_STAT n) F.SDI_TX_STAT_IDLE_WHY = why :=
  State.get_set_fits _ _ _ (by decide) h

end txIdle

/-! ### EN and PD -/

theorem exec_txEnWrite {s : State} {n : Fin 72} (hup : s.upFor (R.SDI_TX_CTL n)) (hlv : s.lvTx n = false) (en pd : Bool) (t : Nat) :
    exec (.txEnWrite n en pd t) s = .next ((s.at_ t).txPower n en pd t) := by
  have e : exec (.txEnWrite n en pd t) s = execTxEnWrite n en pd t s := rfl
  rw [e, execTxEnWrite, State.byHost_upFor hup, hlv]
  rfl

/-- The state with EN and PD of a lane stored. -/
def State.txPowered (s : State) (n : Nat) (en pd : Bool) : State :=
  (s.setB (R.SDI_TX_CTL n) F.SDI_TX_CTL_EN en).setB (R.SDI_TX_CTL n) F.SDI_TX_CTL_PD pd

/-- Lane `n` is enabled and powered. -/
def State.txRuns (s : State) (n : Nat) : Bool :=
  s.flag (R.SDI_TX_CTL n) F.SDI_TX_CTL_EN && !s.flag (R.SDI_TX_CTL n) F.SDI_TX_CTL_PD

section power
variable (s : State) (n : Nat) (en pd : Bool)

theorem State.flag_txPowered_en : (s.txPowered n en pd).flag (R.SDI_TX_CTL n) F.SDI_TX_CTL_EN = en := by
  rw [State.txPowered, State.flag_setB_apart _ _ _ _ _ (by decide) (by decide), State.flag_setB_self _ _ _ _ (by decide) rfl]

theorem State.flag_txPowered_pd : (s.txPowered n en pd).flag (R.SDI_TX_CTL n) F.SDI_TX_CTL_PD = pd :=
  State.flag_setB_self _ _ _ _ (by decide) rfl

theorem State.txPowered_onlyRegs {l : List Nat} (h : R.SDI_TX_CTL n ∈ l) : s.onlyRegs (s.txPowered n en pd) l :=
  (s.setB_onlyRegs _ _ h).trans (State.setB_onlyRegs _ _ _ h)

/-- A lane turned off sends nothing for reason 1. -/
theorem State.txPower_off (t : Nat) (h : en = false ∨ pd = true) : s.txPower n en pd t = (s.txPowered n en pd).txIdle n 1 := by
  have hrun : (en && !pd) = false := by rcases h with rfl | rfl <;> simp
  have hwhy : (s.txPowered n en pd).idleWhy n = 1 := by
    refine if_pos ?_
    rw [s.flag_txPowered_en, s.flag_txPowered_pd]
    rcases h with rfl | rfl <;> simp
  rw [← hwhy, ← State.txRefresh_idle (by rw [hwhy]; decide)]
  simp [State.txPower, hrun, State.txPowered]

/-- A lane turned on waits 100 µs (R46). -/
theorem State.txPower_on (t : Nat) (h : s.txRuns n = false) :
    s.txPower n true false t = ((s.txPowered n true false).setTx n { s.tx n with wakeAt := some (t + 100 * ticksPerUs) }).txRefresh n := by
  have htx : (s.txPowered n true false).tx n = s.tx n := State.tx_congr (State.txPowered_onlyRegs _ _ _ _ (List.mem_singleton.mpr rfl)).media n
  unfold State.txRuns at h
  unfold State.txPowered at htx
  simp [State.txPower, State.txPowered, h, htx]

end power

/-! ### Leaving idle -/

/-- What a lane sends for a source depends on the status of the receive lanes, the formats, and the units and flows it names. -/
theorem State.txCode_congr {s t : State} {n src : Nat} (hr : ∀ l, t.rd (R.SDI_RX_STAT l) = s.rd (R.SDI_RX_STAT l)) (hx : t.xpt = s.xpt)
    (hf : t.media.rxFlow = s.media.rxFlow) (hh : t.media.hostIn = s.media.hostIn) (hs : t.sou = s.sou)
    (hg : (t.tx n).group = (s.tx n).group) : t.txCode n src = s.txCode n src := by
  have hget (l : Nat) (f : Bits) : t.get (R.SDI_RX_STAT l) f = s.get (R.SDI_RX_STAT l) f := by rw [State.get, hr]; rfl
  have hfmt (i : Nat) : t.fmt? i = s.fmt? i := by simp only [State.fmt?, hx]
  have hsrc : t.srcFmt src = s.srcFmt src := by
    simp only [State.srcFmt, hget, hf, hh, State.pg_congr hx, State.unit_congr hs]
  simp only [State.txCode, hget, hsrc, hfmt, State.txLinks, hg]

/-- The lane ACTIVE, before its RATE. -/
def State.txAwake (s : State) (n : Nat) : State :=
  ((s.setTx n { s.tx n with wakeAt := none }).set (R.SDI_TX_STAT n) F.SDI_TX_STAT_ACTIVE 1).set (R.SDI_TX_STAT n) F.SDI_TX_STAT_IDLE_WHY 0

/-- The source a lane's route names, 0 without one. -/
def State.routedSrc (s : State) (n : Nat) : Nat := ((s.route n).map (·.src)).getD 0

/-- The lane that leaves idle. -/
def State.txWoken (s : State) (n : Nat) : State :=
  ((s.txAwake n).set (R.SDI_TX_STAT n) F.SDI_TX_STAT_RATE ((s.txAwake n).txCode n (s.routedSrc n))).sendsAfresh n

theorem State.txAwake_xpt (s : State) (n : Nat) : (s.txAwake n).xpt = s.xpt := by
  rw [State.txAwake, State.set_xpt, State.set_xpt, State.setTx_xpt]

theorem State.txCode_txAwake (s : State) (n src : Nat) : (s.txAwake n).txCode n src = s.txCode n src := by
  have hm : (s.txAwake n).media = (s.setTx n { s.tx n with wakeAt := none }).media := by
    rw [State.txAwake, State.set_media, State.set_media]
  refine State.txCode_congr (fun l => ?_) (s.txAwake_xpt n) (by rw [hm]; rfl) (by rw [hm]; rfl) ?_ ?_
  · rw [State.txAwake, State.rd_set_ne _ _ _ (SDI_RX_STAT_ne_TX_STAT l n), State.rd_set_ne _ _ _ (SDI_RX_STAT_ne_TX_STAT l n), State.rd_setTx]
  · rw [State.txAwake, State.set_sou, State.set_sou, State.setTx_sou]
  · rw [State.tx_congr hm, State.tx_setTx_self]

theorem State.txWake_due {s : State} {n t : Nat} (hw : s.idleWhy n = 0) (ha : s.flag (R.SDI_TX_STAT n) F.SDI_TX_STAT_ACTIVE = false)
    (hd : ∀ w, (s.tx n).wakeAt = some w → w ≤ t) : s.txWake n t = s.txWoken n := by
  have hroute : (s.txAwake n).route n = s.route n := State.route_congr (s.txAwake_xpt n) n
  have hdue : (match (s.tx n).wakeAt with
      | some w => decide (w ≤ t)
      | none => true) = true := by
    cases h : (s.tx n).wakeAt with
    | none => rfl
    | some w => exact decide_eq_true (hd w h)
  have hc : (decide (s.idleWhy n = 0) && !s.flag (R.SDI_TX_STAT n) F.SDI_TX_STAT_ACTIVE && (match (s.tx n).wakeAt with
      | some w => decide (w ≤ t)
      | none => true)) = true := by simp [hw, ha, hdue]
  refine (if_pos hc).trans ?_
  rw [State.txWoken, State.routedSrc, ← hroute]
  rfl

theorem State.sendsAfresh_xpt (s : State) (d : Nat) : (s.sendsAfresh d).xpt = { s.xpt with skip := tabSet false s.xpt.skip d false } := by
  simp [State.sendsAfresh]

section woken
variable (s : State) (n : Fin 72)

theorem State.get_txWoken (f : Bits) : (s.txWoken n).get (R.SDI_TX_STAT n) f =
    ((s.txAwake n).set (R.SDI_TX_STAT n) F.SDI_TX_STAT_RATE ((s.txAwake n).txCode n (s.routedSrc n))).get (R.SDI_TX_STAT n) f := by
  rw [State.txWoken, State.get, State.sendsAfresh_rd _ _ _ (SDI_TX_STAT_ne_FRZ n n)]
  rfl

theorem State.get_txWoken_active : (s.txWoken n).get (R.SDI_TX_STAT n) F.SDI_TX_STAT_ACTIVE = 1 := by
  rw [State.get_txWoken, State.get_set_apart _ _ _ _ _ (by decide) (by decide), State.txAwake,
    State.get_set_apart _ _ _ _ _ (by decide) (by decide)]
  exact State.get_set_self _ _ _ _ (by decide)

theorem State.get_txWoken_why : (s.txWoken n).get (R.SDI_TX_STAT n) F.SDI_TX_STAT_IDLE_WHY = 0 := by
  rw [State.get_txWoken, State.get_set_apart _ _ _ _ _ (by decide) (by decide), State.txAwake]
  exact State.get_set_self _ _ _ _ (by decide)

theorem State.get_txWoken_rate (h : s.txCode n (s.routedSrc n) < 16) :
    (s.txWoken n).get (R.SDI_TX_STAT n) F.SDI_TX_STAT_RATE = s.txCode n (s.routedSrc n) := by
  rw [State.get_txWoken, State.txCode_txAwake]
  exact State.get_set_fits _ _ _ (by decide) h

theorem State.tx_txWoken : (s.txWoken n).tx n = { s.tx n with wakeAt := none } := by
  rw [State.txWoken, State.tx_congr (State.sendsAfresh_media ..), State.tx_congr (State.set_media ..), State.txAwake,
    State.tx_congr (State.set_media ..), State.tx_congr (State.set_media ..), State.tx_setTx_self]

theorem State.txWoken_xpt : (s.txWoken n).xpt = { s.xpt with skip := tabSet false s.xpt.skip n false } := by
  rw [State.txWoken, State.sendsAfresh_xpt, State.set_xpt, State.txAwake_xpt]

theorem State.rd_txWoken {a : Nat} (h : a ∉ [R.SDI_TX_STAT n, R.XPT_FRZ_STAT n]) : (s.txWoken n).rd a = s.rd a := by
  simp only [List.mem_cons, List.not_mem_nil, or_false, not_or] at h
  rw [State.txWoken, State.sendsAfresh_rd _ _ _ h.2, State.rd_set_ne _ _ _ h.1, State.txAwake, State.rd_set_ne _ _ _ h.1,
    State.rd_set_ne _ _ _ h.1, State.rd_setTx]

end woken

theorem exec_txLeaveIdle (s : State) (n : Fin 72) (t : Nat) : exec (.txLeaveIdle n t) s = .next ((s.at_ t).txWake n t).lvAes_ := rfl

/-- Without an LV window no AES output follows. -/
theorem State.lvAes_off {s : State} (h : s.lvOn = false) : s.lvAes_ = s := if_pos (by simp [h])

/-! ### A source out of range -/

/-- The lane with what its DIRECT source's rate says. -/
def State.ranged (s : State) (n : Nat) (mppm : Int) : State := s.setTx n { s.tx n with outRange := decide (100000 < mppm.natAbs) }

theorem exec_followRangeIdle_direct {s : State} {n : Fin 72} (h : (s.route n).map (·.kind) = some 1) (mppm : Int) :
    exec (.followRangeIdle n mppm) s = .next ((s.ranged n mppm).txRefresh n).lvAes_ := by
  have e : exec (.followRangeIdle n mppm) s = execFollowRangeIdle n mppm s := rfl
  rw [e, execFollowRangeIdle, if_pos h]
  rfl

/-- A routed lane out of range is idle for reason 7 or a lower one (R44). -/
theorem State.idleWhy_outRange {s : State} {n : Nat} (hr : s.route n ≠ none) (h : (s.tx n).outRange = true) :
    1 ≤ s.idleWhy n ∧ s.idleWhy n ≤ 7 := by
  obtain ⟨r, hr⟩ := Option.ne_none_iff_exists'.mp hr
  unfold State.idleWhy
  dsimp only
  rw [hr, h, Bool.true_or, if_pos rfl]
  split
  · omega
  · split
    · omega
    · dsimp only
      split_ifs <;> omega

/-- Settles O13: EN and PD, the leaving of idle and the range of a DIRECT source, each by what it makes of SDI_TX_STAT. -/
theorem sdiTransmit : Obligations.SdiTransmit := by
  refine ⟨fun s n en pd t hup hlv hoff => ?_, fun s n t hup hlv hrun => ?_, fun s n t hw ha hd => ?_, fun s n mppm hr => ?_⟩
  case refine_1 =>
    have honly : s.onlyRegs (((s.at_ t).txPowered n en pd).txIdle n 1) [R.SDI_TX_CTL n, R.SDI_TX_STAT n] := by
      refine ((s.at_onlyRegs t _).trans (State.txPowered_onlyRegs _ n en pd (by simp))).trans ?_
      exact ((State.set_onlyRegs _ _ _ (by simp)).trans (State.set_onlyRegs _ _ _ (by simp))).trans (State.set_onlyRegs _ _ _ (by simp))
    have hctl (f : Bits) : (((s.at_ t).txPowered n en pd).txIdle n 1).flag (R.SDI_TX_CTL n) f = ((s.at_ t).txPowered n en pd).flag (R.SDI_TX_CTL n) f := by
      rw [State.txIdle, State.flag_set_ne _ _ _ _ (SDI_TX_STAT_ne_CTL n n).symm, State.flag_set_ne _ _ _ _ (SDI_TX_STAT_ne_CTL n n).symm,
        State.flag_set_ne _ _ _ _ (SDI_TX_STAT_ne_CTL n n).symm]
    exact ⟨_, (exec_txEnWrite hup hlv en pd t).trans (congrArg _ (State.txPower_off _ _ _ _ _ hoff)), State.get_txIdle_active ..,
      State.get_txIdle_why _ _ _ (by decide), State.get_txIdle_rate .., by rw [hctl, State.flag_txPowered_en], by rw [hctl, State.flag_txPowered_pd],
      honly.xpt, honly⟩
  case refine_2 =>
    have hctl (s : State) (f : Bits) : (s.txRefresh n).flag (R.SDI_TX_CTL n) f = s.flag (R.SDI_TX_CTL n) f := by
      rw [State.flag, State.get, State.txRefresh_rd _ _ _ (SDI_TX_STAT_ne_CTL n n).symm]
      rfl
    refine ⟨_, (exec_txEnWrite hup hlv true false t).trans (congrArg _ (State.txPower_on (s.at_ t) n t hrun)), ?_, ?_, ?_, ?_, fun a h => ?_⟩
    · rw [hctl, State.flag_setTx, State.flag_txPowered_en]
    · rw [hctl, State.flag_setTx, State.flag_txPowered_pd]
    · rw [State.tx_congr (State.txRefresh_media ..), State.tx_setTx_self]
    · rw [(State.txRefresh_onlyRegs _ n (List.mem_singleton.mpr rfl)).xpt, State.setTx_xpt,
        (State.txPowered_onlyRegs _ n _ _ (List.mem_singleton.mpr rfl)).xpt, State.at_xpt]
    · simp only [List.mem_cons, List.not_mem_nil, or_false, not_or] at h
      rw [State.txRefresh_rd _ _ _ h.2, State.rd_setTx, (State.txPowered_onlyRegs _ n _ _ (List.mem_singleton.mpr rfl)).rd (by simpa using h.1),
        State.rd_at]
  case refine_3 =>
    refine ⟨(s.at_ t).txWoken n, (exec_txLeaveIdle ..).trans (congrArg _ ?_), State.lvAes_off, State.get_txWoken_active _ n,
      State.get_txWoken_why _ n, ?_, State.txWoken_xpt _ n, fun r hr hc => ?_, fun a h => State.rd_txWoken _ n h⟩
    · rw [State.txWake_due (s := s.at_ t) hw ha hd]
    · rw [State.tx_txWoken]
    · have hsrc : (s.at_ t).routedSrc n = r.src := congrArg (fun o => (Option.map Route.src o).getD 0) hr
      have hcode : (s.at_ t).txCode n r.src = s.txCode n r.src := rfl
      rw [State.get_txWoken_rate _ n (by rw [hsrc]; exact hc), hsrc, hcode]
  case refine_4 =>
    have htx : (s.ranged n mppm).tx n = { s.tx n with outRange := decide (100000 < mppm.natAbs) } := State.tx_setTx_self ..
    refine ⟨(s.ranged n mppm).txRefresh n, exec_followRangeIdle_direct hr mppm, State.lvAes_off, ?_, fun hout => ?_, fun a ha => ?_⟩
    · rw [State.tx_congr (State.txRefresh_media ..), htx]
    · have hroute : (s.ranged n mppm).route n ≠ none := by
        rintro h
        rw [show s.route n = none from h] at hr
        cases hr
      obtain ⟨h1, h7⟩ := State.idleWhy_outRange hroute (by rw [htx]; exact decide_eq_true hout)
      rw [State.txRefresh_idle (by omega), State.get_txIdle_why _ _ _ (by omega)]
      exact ⟨State.get_txIdle_active .., State.get_txIdle_rate .., h1, h7⟩
    · rw [State.txRefresh_rd _ _ _ ha, State.ranged, State.rd_setTx]

end Sys2Proof.Machine

/-! The start boundary of a receive lane (R32, R33, R40, R41). -/
namespace Sys2Proof.Machine

/-- The format a lane shows for one that its timing found: 0xFF for one it does not recognise. -/
def State.startFmt (s : State) (fmt : Nat) : Nat := if s.rxKnown fmt then fmt else 0xFF

/-- What was measured at the start boundary, with the format shown. -/
def State.startMeas (s : State) (m : LaneMeas) : LaneMeas := { m with fmt := s.startFmt m.fmt }

/-- The lane after its start boundary. -/
def State.startLane (s : State) (n : Nat) (m : LaneMeas) : RxLane :=
  { s.rx n with meas := some (s.startMeas m), relock := false, lastFmt := some (s.startFmt m.fmt) }

/-- The lane's registers after its start boundary. -/
def State.startShown (s : State) (n : Nat) (m : LaneMeas) : State :=
  (((s.rxShow n (s.startMeas m)).rxPid n m.pid).rxAtc n m.atc).rxRegained n (s.startFmt m.fmt)

/-- The state after the start boundary of a lane that starts. -/
def State.started (s : State) (n : Nat) (m : LaneMeas) : State :=
  ((((s.startShown n m).setRx n (s.startLane n m)).groupShow n).cwFormat n (s.startFmt m.fmt)).refreshSrc n

section start
variable {s : State} {n : Nat} {m : LaneMeas} (ht : s.flag (R.SDI_RX_STAT n) F.SDI_RX_STAT_TRS_LOCK = true) (hm : (s.rx n).meas = none)
include ht hm

theorem State.startAt_starts
    (hg : (s.rx n).group = 0 ∨ s.groupLocks n (s.rx n).group = true ∧ (s.setRx n (s.startLane n m)).groupNear n (s.rx n).group = true) :
    s.startAt n m = s.started n m := by
  refine (if_neg ?_).trans (if_neg ?_)
  · rcases hg with hg | ⟨hg, -⟩ <;> simp [ht, hm, hg]
  · rcases hg with hg | ⟨-, hg⟩
    · simp [hg]
    · simpa [State.startLane, State.startMeas, State.startFmt] using fun _ => hg

/-- A group's leader whose members are too far apart does not start (R40). -/
theorem State.startAt_skewed (hg : (s.rx n).group ≠ 0) (hl : s.groupLocks n (s.rx n).group = true)
    (hn : (s.setRx n (s.startLane n m)).groupNear n (s.rx n).group = false) :
    s.startAt n m = s.raise (Hist.srx n) F.SDI_RX_HIST_GROUP_SKEW := by
  refine (if_neg ?_).trans (if_pos ?_)
  · simp [ht, hm, hl]
  · simp only [State.startLane, State.startMeas, State.startFmt] at hn
    simp [hg, hn]

end start

theorem exec_startBoundary (s : State) (n : Fin 72) (m : LaneMeas) (t : Nat) :
    exec (.startBoundary n m t) s = .next ((s.at_ t).startAt n m) := rfl

/-! ### What the lane's registers show -/

theorem SDI_RX_PID_ne_STAT (n k : Nat) : R.SDI_RX_PID n ≠ R.SDI_RX_STAT k := by
  unfold R.SDI_RX_PID R.SDI_RX_STAT quadWin; omega

theorem SDI_RX_PID_ne_HIST (n k : Nat) : R.SDI_RX_PID n ≠ R.SDI_RX_HIST k := by
  unfold R.SDI_RX_PID R.SDI_RX_HIST quadWin; omega

theorem SDI_RX_PID_ne_ATC (n k : Nat) : R.SDI_RX_PID n ≠ R.SDI_RX_ATC k := by
  unfold R.SDI_RX_PID R.SDI_RX_ATC quadWin; omega

theorem SDI_RX_ATC_ne_STAT (n k : Nat) : R.SDI_RX_ATC n ≠ R.SDI_RX_STAT k := by
  unfold R.SDI_RX_ATC R.SDI_RX_STAT quadWin; omega

theorem SDI_RX_ATC_ne_HIST (n k : Nat) : R.SDI_RX_ATC n ≠ R.SDI_RX_HIST k := by
  unfold R.SDI_RX_ATC R.SDI_RX_HIST quadWin; omega

theorem SDI_RX_PID_ne_TX_STAT (n k : Nat) : R.SDI_RX_PID n ≠ R.SDI_TX_STAT k := by
  unfold R.SDI_RX_PID R.SDI_TX_STAT quadWin; omega

theorem SDI_RX_ATC_ne_TX_STAT (n k : Nat) : R.SDI_RX_ATC n ≠ R.SDI_TX_STAT k := by
  unfold R.SDI_RX_ATC R.SDI_TX_STAT quadWin; omega

theorem SDI_RX_PID_ne_FRZ (n : Fin 72) (d : Nat) : R.SDI_RX_PID n ≠ R.XPT_FRZ_STAT d := by
  unfold R.SDI_RX_PID R.XPT_FRZ_STAT quadWin; omega

theorem SDI_RX_ATC_ne_FRZ (n : Fin 72) (d : Nat) : R.SDI_RX_ATC n ≠ R.XPT_FRZ_STAT d := by
  unfold R.SDI_RX_ATC R.XPT_FRZ_STAT quadWin; omega

section show_
variable (s : State) (n : Nat) (m : LaneMeas)

theorem State.get_rxShow_format (h : m.fmt < 256) : (s.rxShow n m).get (R.SDI_RX_STAT n) F.SDI_RX_STAT_FORMAT = m.fmt := by
  rw [State.rxShow, State.get_setB_apart _ _ _ _ (by decide) (by decide), State.get_setB_apart _ _ _ _ (by decide) (by decide),
    State.get_setB_apart _ _ _ _ (by decide) (by decide)]
  exact State.get_set_fits _ _ _ (by decide) h

theorem State.flag_rxShow_levelB : (s.rxShow n m).flag (R.SDI_RX_STAT n) F.SDI_RX_STAT_LEVEL_B = m.levelB := by
  rw [State.rxShow, State.flag_setB_apart _ _ _ _ _ (by decide) (by decide), State.flag_setB_apart _ _ _ _ _ (by decide) (by decide)]
  exact State.flag_setB_self _ _ _ _ (by decide) rfl

theorem State.flag_rxShow_pidValid : (s.rxShow n m).flag (R.SDI_RX_STAT n) F.SDI_RX_STAT_PID_VALID = m.pid.isSome := by
  rw [State.rxShow, State.flag_setB_apart _ _ _ _ _ (by decide) (by decide)]
  exact State.flag_setB_self _ _ _ _ (by decide) rfl

theorem State.flag_rxShow_pidMismatch :
    (s.rxShow n m).flag (R.SDI_RX_STAT n) F.SDI_RX_STAT_PID_MISMATCH = (m.pid.isSome && m.pidFmt != m.fmt) :=
  State.flag_setB_self _ _ _ _ (by decide) rfl

end show_

section shown
variable (s : State) (n : Nat) (m : LaneMeas)

theorem State.startShown_onlyRegs :
    s.onlyRegs (s.startShown n m) [R.SDI_RX_STAT n, R.SDI_RX_PID n, R.SDI_RX_ATC n, R.SDI_RX_HIST n] :=
  (((s.rxShow_onlyRegs n _ (by simp)).trans (State.rxPid_onlyRegs _ n _ (by simp) (by simp))).trans
    (State.rxAtc_onlyRegs _ n _ (by simp))).trans (State.rxRegained_onlyRegs _ n _ (by simp))

theorem State.rd_startShown_stat : (s.startShown n m).rd (R.SDI_RX_STAT n) = (s.rxShow n (s.startMeas m)).rd (R.SDI_RX_STAT n) := by
  have hh := SDI_RX_STAT_ne_HIST n n
  have hp := (SDI_RX_PID_ne_STAT n n).symm
  have ha := (SDI_RX_ATC_ne_STAT n n).symm
  rw [State.startShown, (State.rxRegained_onlyRegs _ n _ (List.mem_singleton.mpr rfl)).rd (by simpa using hh),
    (State.rxAtc_onlyRegs _ n _ (List.mem_singleton.mpr rfl)).rd (by simpa using ha),
    (State.rxPid_onlyRegs _ n _ (l := [R.SDI_RX_PID n, R.SDI_RX_HIST n]) (by simp) (by simp)).rd (by simp [hh, hp])]

theorem State.rd_rxPid_some (p : Word) : (s.rxPid n (some p)).rd (R.SDI_RX_PID n) = p := by
  unfold State.rxPid
  dsimp only
  split
  · rw [State.rd_raise_ne _ _ _ (SDI_RX_PID_ne_HIST n n), State.rd_wr_self]
  · exact State.rd_wr_self ..

theorem State.rd_startShown_pid {p : Word} (h : m.pid = some p) : (s.startShown n m).rd (R.SDI_RX_PID n) = p := by
  have hh := SDI_RX_PID_ne_HIST n n
  have ha := SDI_RX_PID_ne_ATC n n
  rw [State.startShown, (State.rxRegained_onlyRegs _ n _ (List.mem_singleton.mpr rfl)).rd (by simpa using hh),
    (State.rxAtc_onlyRegs _ n _ (List.mem_singleton.mpr rfl)).rd (by simpa using ha), h, State.rd_rxPid_some]

theorem State.rd_startShown_atc {a : Word} (h : m.atc = some a) : (s.startShown n m).rd (R.SDI_RX_ATC n) = a := by
  have hh := SDI_RX_ATC_ne_HIST n n
  rw [State.startShown, (State.rxRegained_onlyRegs _ n _ (List.mem_singleton.mpr rfl)).rd (by simpa using hh), h]
  exact State.rd_wr_self ..

/-- Lock regained after a loss sets RELOCK. -/
theorem State.get_rxRegained_relock (fmt : Nat) (h : (s.rx n).relock = true) :
    (s.rxRegained n fmt).get (R.SDI_RX_HIST n) F.SDI_RX_HIST_RELOCK = 1 := by
  unfold State.rxRegained
  dsimp only
  rw [if_pos h]
  exact State.get_raise _ (Hist.srx n) _ rfl (by decide)

/-- Lock regained with another format than before the loss sets FMT_CHANGE. -/
theorem State.get_rxRegained_fmtChange (fmt : Nat) (h : (s.rx n).relock = true) (hf : ∃ g, (s.rx n).lastFmt = some g ∧ g ≠ fmt) :
    (s.rxRegained n fmt).get (R.SDI_RX_HIST n) F.SDI_RX_HIST_FMT_CHANGE = 1 := by
  obtain ⟨g, hg, hne⟩ := hf
  have hc : ((s.rx n).relock && (s.rx n).lastFmt.any (· != fmt)) = true := by simp [h, hg, hne]
  unfold State.rxRegained
  dsimp only
  rw [if_pos h, if_pos hc]
  exact State.get_raise_mono _ _ _ (b := F.SDI_RX_HIST_FMT_CHANGE.lo) (by decide) (by decide)
    (State.get_raise s (Hist.srx n) F.SDI_RX_HIST_FMT_CHANGE rfl (by decide))

theorem State.rx_beforeRegained : (((s.rxShow n (s.startMeas m)).rxPid n m.pid).rxAtc n m.atc).rx n = s.rx n :=
  State.rx_congr (((s.rxShow_onlyRegs n _ (l := [R.SDI_RX_STAT n, R.SDI_RX_PID n, R.SDI_RX_ATC n, R.SDI_RX_HIST n]) (by simp)).trans
    (State.rxPid_onlyRegs _ n _ (by simp) (by simp))).trans (State.rxAtc_onlyRegs _ n _ (by simp))).media n

end shown

/-! ### What the start leaves -/

theorem State.cwFormat_media (s : State) (a b : Nat) : (s.cwFormat a b).media = s.media := by
  unfold State.cwFormat
  generalize List.filter _ _ = l
  induction l generalizing s with
  | nil => rfl
  | cons d l ih =>
    rw [List.foldl_cons, ih]
    dsimp only
    split
    · split <;> rfl
    · rfl

/-- The lane and its group as GROUP_OK is shown. -/
def State.startGrouped (s : State) (n : Nat) (m : LaneMeas) : State := ((s.startShown n m).setRx n (s.startLane n m)).groupShow n

section started
variable (s : State) (n : Nat) (m : LaneMeas)

/-- What follows GROUP_OK touches SDI_TX_STAT and XPT_FRZ_STAT alone among the registers. -/
theorem State.rd_started {a : Nat} (ht : ∀ k < 72, a ≠ R.SDI_TX_STAT k) (hf : ∀ d, a ≠ R.XPT_FRZ_STAT d) :
    (s.started n m).rd a = (s.startGrouped n m).rd a := by
  rw [State.started, State.refreshSrc_rd _ _ _ ht hf, State.cwFormat_rd]
  rfl

theorem State.rd_startGrouped {a : Nat} (h : ∀ k, s.rxLeader n = some k → a ≠ R.SDI_RX_STAT k) :
    (s.startGrouped n m).rd a = (s.startShown n m).rd a := by
  refine (State.groupShow_rd _ _ _ fun k hk => h k ?_).trans (State.rd_setRx ..)
  rw [← hk]
  refine (State.rxLeader_congr (fun j => ?_) n).symm
  by_cases hj : j = n
  · rw [hj, State.rx_setRx_self]
    rfl
  · rw [State.rx, State.setRx, tabGet_set_ne _ _ _ _ hj, (s.startShown_onlyRegs n m).media]
    rfl

theorem State.get_startGrouped_stat {f : Bits} (hf : F.SDI_RX_STAT_GROUP_OK.apart f) :
    (s.startGrouped n m).get (R.SDI_RX_STAT n) f = (s.rxShow n (s.startMeas m)).get (R.SDI_RX_STAT n) f := by
  rw [State.startGrouped, State.get_groupShow_apart _ _ _ hf, State.get_setRx, State.get, State.rd_startShown_stat]
  rfl

theorem State.rx_started : (s.started n m).rx n = s.startLane n m := by
  rw [State.started, State.rx, State.refreshSrc_rx, State.cwFormat_media, State.groupShow_media]
  exact State.rx_setRx_self ..

end started

theorem State.startMeas_fmt_lt {s : State} {m : LaneMeas} (h : m.fmt < 256) : (s.startMeas m).fmt < 256 := by
  simp only [State.startMeas, State.startFmt]
  split <;> omega

section startedRegs
variable (s : State) (n : Fin 72) (m : LaneMeas)

theorem State.get_started_stat {f : Bits} (hf : F.SDI_RX_STAT_GROUP_OK.apart f) :
    (s.started n m).get (R.SDI_RX_STAT n) f = (s.rxShow n (s.startMeas m)).get (R.SDI_RX_STAT n) f := by
  rw [← s.get_startGrouped_stat n m hf, State.get, s.rd_started n m (fun k _ => SDI_RX_STAT_ne_TX_STAT n k) fun d => SDI_RX_STAT_ne_FRZ d n]
  rfl

theorem State.flag_started_stat {f : Bits} (hf : F.SDI_RX_STAT_GROUP_OK.apart f) :
    (s.started n m).flag (R.SDI_RX_STAT n) f = (s.rxShow n (s.startMeas m)).flag (R.SDI_RX_STAT n) f := by
  rw [State.flag, s.get_started_stat n m hf]
  rfl

theorem State.get_started_hist (f : Bits) : (s.started n m).get (R.SDI_RX_HIST n) f = (s.startShown n m).get (R.SDI_RX_HIST n) f := by
  rw [State.get, s.rd_started n m (fun k _ => SDI_RX_HIST_ne_TX_STAT n k) fun d => SDI_RX_HIST_ne_FRZ d n,
    s.rd_startGrouped n m fun k _ => (SDI_RX_STAT_ne_HIST k n).symm]
  rfl

theorem State.rd_started_pid {p : Word} (h : m.pid = some p) : (s.started n m).rd (R.SDI_RX_PID n) = p := by
  rw [s.rd_started n m (fun k _ => SDI_RX_PID_ne_TX_STAT n k) fun d => SDI_RX_PID_ne_FRZ n d,
    s.rd_startGrouped n m fun k _ => SDI_RX_PID_ne_STAT n k, s.rd_startShown_pid n m h]

theorem State.rd_started_atc {a : Word} (h : m.atc = some a) : (s.started n m).rd (R.SDI_RX_ATC n) = a := by
  rw [s.rd_started n m (fun k _ => SDI_RX_ATC_ne_TX_STAT n k) fun d => SDI_RX_ATC_ne_FRZ n d,
    s.rd_startGrouped n m fun k _ => SDI_RX_ATC_ne_STAT n k, s.rd_startShown_atc n m h]

theorem State.get_started_relock (h : (s.rx n).relock = true) : (s.started n m).get (R.SDI_RX_HIST n) F.SDI_RX_HIST_RELOCK = 1 := by
  rw [State.get_started_hist]
  exact State.get_rxRegained_relock _ n _ (by rw [s.rx_beforeRegained n m]; exact h)

theorem State.get_started_fmtChange (h : (s.rx n).relock = true) (hf : ∃ g, (s.rx n).lastFmt = some g ∧ g ≠ s.startFmt m.fmt) :
    (s.started n m).get (R.SDI_RX_HIST n) F.SDI_RX_HIST_FMT_CHANGE = 1 := by
  rw [State.get_started_hist]
  exact State.get_rxRegained_fmtChange _ n _ (by rw [s.rx_beforeRegained n m]; exact h) (by rw [s.rx_beforeRegained n m]; exact hf)

/-- The registers of lane `n` and of its group's leader, SDI_TX_STAT and XPT_FRZ_STAT apart, no register changes. -/
theorem State.rd_started_other {a : Nat} (ha : a ∉ [R.SDI_RX_STAT n, R.SDI_RX_PID n, R.SDI_RX_ATC n, R.SDI_RX_HIST n])
    (hl : ∀ k, s.rxLeader n = some k → a ≠ R.SDI_RX_STAT k) (ht : ∀ k < 72, a ≠ R.SDI_TX_STAT k) (hf : ∀ d, a ≠ R.XPT_FRZ_STAT d) :
    (s.started n m).rd a = s.rd a := by
  rw [s.rd_started n m ht hf, s.rd_startGrouped n m hl, (s.startShown_onlyRegs n m).rd ha]

end startedRegs

/-- A lane with an own start boundary is in the group it was in. -/
theorem State.rxLeader_startLane (s : State) (n : Nat) (m : LaneMeas) (j : Nat) :
    ((s.startShown n m).setRx n (s.startLane n m)).rxLeader j = s.rxLeader j := by
  refine State.rxLeader_congr (fun k => ?_) j
  by_cases hk : k = n
  · rw [hk, State.rx_setRx_self]
    rfl
  · rw [State.rx, State.setRx, tabGet_set_ne _ _ _ _ hk, (s.startShown_onlyRegs n m).media]
    rfl

/-- The start boundary changes neither lock nor rate of any lane. -/
theorem State.groupLocks_started (s : State) (n : Nat) (m : LaneMeas) (j k : Nat) :
    ((s.startShown n m).setRx n (s.startLane n m)).groupLocks j k = s.groupLocks j k := by
  have hget (i : Nat) {f : Bits} (h : f = F.SDI_RX_STAT_TRS_LOCK ∨ f = F.SDI_RX_STAT_RATE) :
      ((s.startShown n m).setRx n (s.startLane n m)).get (R.SDI_RX_STAT i) f = s.get (R.SDI_RX_STAT i) f := by
    rw [State.get_setRx]
    by_cases hi : R.SDI_RX_STAT i = R.SDI_RX_STAT n
    · rw [hi, State.get, State.rd_startShown_stat, ← State.get, State.rxShow]
      rcases h with rfl | rfl <;>
        rw [State.get_setB_apart _ _ _ _ (by decide) (by decide), State.get_setB_apart _ _ _ _ (by decide) (by decide),
          State.get_setB_apart _ _ _ _ (by decide) (by decide), State.get_set_apart _ _ _ _ _ (by decide) (by decide)]
    · exact (s.startShown_onlyRegs n m).get (by
        simp [hi, (SDI_RX_PID_ne_STAT n i).symm, (SDI_RX_ATC_ne_STAT n i).symm, SDI_RX_STAT_ne_HIST i n]) f
  simp only [State.groupLocks, State.flag, hget _ (.inl rfl), hget _ (.inr rfl)]

theorem State.groupNear_startLane (s : State) (n : Nat) (m : LaneMeas) (j k : Nat) :
    ((s.startShown n m).setRx n (s.startLane n m)).groupNear j k = (s.setRx n (s.startLane n m)).groupNear j k := by
  have hrx (i : Nat) : ((s.startShown n m).setRx n (s.startLane n m)).rx i = (s.setRx n (s.startLane n m)).rx i := by
    simp only [State.rx, State.setRx, (s.startShown_onlyRegs n m).media]
  simp only [State.groupNear, hrx]

/-- The leader of a group that starts shows GROUP_OK. -/
theorem State.get_started_groupOk {s : State} {n : Fin 72} {m : LaneMeas} (hlead : s.rxLeader n = some n.val)
    (hl : s.groupLocks n (s.rx n).group = true) (hn : (s.setRx n (s.startLane n m)).groupNear n (s.rx n).group = true) :
    (s.started n m).get (R.SDI_RX_STAT n) F.SDI_RX_STAT_GROUP_OK = 1 := by
  have hg : (((s.startShown n m).setRx n (s.startLane n m)).rx n).group = (s.rx n).group := by
    rw [State.rx_setRx_self]
    rfl
  rw [State.get, s.rd_started n m (fun k _ => SDI_RX_STAT_ne_TX_STAT n k) fun d => SDI_RX_STAT_ne_FRZ d n, State.startGrouped,
    State.groupShow_some ((s.rxLeader_startLane n m n).trans hlead), hg, State.groupLocked, State.groupLocks_started, State.groupNear_startLane,
    hl, hn]
  exact State.get_setB_self _ _ _ (by decide) rfl

/-- Settles O8: a lane that starts by what `started` leaves, a leader whose members are too far apart by the raise alone. -/
theorem sdiStartBoundary : Obligations.SdiStartBoundary := by
  refine ⟨fun s n m t g l hg ht hm hg0 hl hlane hn => ?_, fun s n m t g l hg ht hm hlane hstart hf => ?_⟩
  · subst hg
    obtain rfl : l = s.startLane n m := hlane _ rfl
    exact (exec_startBoundary ..).trans (congrArg _ (State.startAt_skewed (s := s.at_ t) ht hm hg0 hl hn))
  · subst hg
    obtain rfl : l = s.startLane n m := hlane _ rfl
    refine ⟨(s.at_ t).started n m, (exec_startBoundary ..).trans (congrArg _ (State.startAt_starts (s := s.at_ t) ht hm hstart)), fun hg0 hlead => ?_,
      ?_, ?_, ?_, fun p hp => State.rd_started_pid _ n m hp, fun a ha => State.rd_started_atc _ n m ha, fun hr => State.get_started_relock _ n m hr,
      fun a h1 h2 h3 h4 => State.rd_started_other _ n m h1 h2 h3 h4⟩
    · obtain ⟨hl, hn⟩ := hstart.resolve_left hg0
      exact State.get_started_groupOk (s := s.at_ t) hlead hl hn
    · rintro f rfl
      refine ⟨?_, ?_, ?_, fun hr hc => State.get_started_fmtChange (s.at_ t) n m hr hc⟩
      · rw [State.get_started_stat _ _ _ (by decide), State.get_rxShow_format _ _ _ (State.startMeas_fmt_lt hf)]
        rfl
      · rw [State.flag_started_stat _ _ _ (by decide), State.flag_rxShow_pidMismatch]
        rfl
      · rw [State.rx_started]
        rfl
    · rw [State.flag_started_stat _ _ _ (by decide), State.flag_rxShow_pidValid]
      rfl
    · rw [State.flag_started_stat _ _ _ (by decide), State.flag_rxShow_levelB]
      rfl

end Sys2Proof.Machine

/-! Frames, flows and timestamps of a 400 GbE port (R49, R53 to R55). -/
namespace Sys2Proof.Machine

/-! ### An arriving frame -/

/-- The state in which a frame is looked at: its corrected codewords are counted. -/
def State.qeSeen (s : State) (q sub : Fin 4) (corr t : Nat) : State := (s.at_ t).count (R.QE_FEC_CORR q sub) corr

/-- What a frame that is not too long does (R49). -/
def State.qeTakes (w : State) (q sub : Fin 4) (t : Nat) : EthFrame → State
  | .badFcs => w.inc (R.QE_RX_BADFCS q sub)
  | .rtp p => match w.matchFlow q sub p with
    | some m => w.flowPacket m.1 m.2 p t
    | none => w.inc (R.QE_RX_NOMATCH q sub)
  | .ptp => w
  | .igmp => w
  | .mld => w
  | .arp a => w.askedFor q sub (w.rd (R.QE_IP4 q sub)).toNat a (.arpReply q sub)
  | .nd a => w.askedFor q sub (w.qeIp6 q sub) a (.ndReply q sub)
  | .other => w.inc (R.QE_RX_NOMATCH q sub)

theorem exec_qeRxFrame_on {s : State} {q sub : Fin 4} (h : s.subOn q sub = true) (f : EthFrame) (len corr t : Nat) :
    exec (.qeRxFrame q sub f len corr t) s =
      .next (if f != .badFcs && decide ((s.qeSeen q sub corr t).maxFrame q < len) then (s.qeSeen q sub corr t).inc (R.QE_RX_NOMATCH q sub)
        else (s.qeSeen q sub corr t).qeTakes q sub t f) := by
  have h' : (s.at_ t).subOn q sub = true := h
  have e : exec (.qeRxFrame q sub f len corr t) s = execQeRxFrame q sub f len corr t s := rfl
  rw [e, execQeRxFrame]
  refine congrArg _ ((if_neg (by rw [h']; decide)).trans (if_congr Iff.rfl rfl ?_))
  cases f <;> rfl

section seen
variable (s : State) (q sub : Fin 4) (corr t : Nat)

theorem State.rd_qeSeen {a : Nat} (h : a ≠ R.QE_FEC_CORR q sub) : (s.qeSeen q sub corr t).rd a = s.rd a := State.rd_wr_ne _ _ h

theorem State.maxFrame_qeSeen : (s.qeSeen q sub corr t).maxFrame q = s.maxFrame q := by
  have h : R.QE_CTL q ≠ R.QE_FEC_CORR q sub := by unfold R.QE_CTL R.QE_FEC_CORR; omega
  rw [State.maxFrame, State.flag, State.get, s.rd_qeSeen q sub corr t h]
  rfl

theorem State.rd_qeSeen_ip4 : (s.qeSeen q sub corr t).rd (R.QE_IP4 q sub) = s.rd (R.QE_IP4 q sub) :=
  s.rd_qeSeen q sub corr t (by unfold R.QE_IP4 R.QE_FEC_CORR; omega)

theorem State.qeIp6_qeSeen : (s.qeSeen q sub corr t).qeIp6 q sub = s.qeIp6 q sub := by
  simp only [State.qeIp6, State.inForce, State.qeSeen, State.count_taken, State.at_taken]

theorem State.matchFlow_qeSeen (p : RtpPkt) : (s.qeSeen q sub corr t).matchFlow q sub p = s.matchFlow q sub p := by
  simp only [State.matchFlow, State.qeSeen, State.count_media, State.at_media]

theorem State.qeSeen_media : (s.qeSeen q sub corr t).media = s.media := by
  rw [State.qeSeen, State.count_media, State.at_media]

end seen

theorem exec_qeRxFrame_fits {s : State} {q sub : Fin 4} (h : s.subOn q sub = true) {f : EthFrame} {len : Nat} (hl : f = .badFcs ∨ len ≤ s.maxFrame q)
    (corr t : Nat) : exec (.qeRxFrame q sub f len corr t) s = .next ((s.qeSeen q sub corr t).qeTakes q sub t f) := by
  rw [exec_qeRxFrame_on h, if_neg]
  rw [State.maxFrame_qeSeen]
  rcases hl with rfl | hl
  · simp
  · simp [Nat.not_lt.mpr hl]

theorem exec_qeRxFrame_long {s : State} {q sub : Fin 4} (h : s.subOn q sub = true) {f : EthFrame} {len : Nat} (hf : f ≠ .badFcs)
    (hl : s.maxFrame q < len) (corr t : Nat) :
    exec (.qeRxFrame q sub f len corr t) s = .next ((s.qeSeen q sub corr t).inc (R.QE_RX_NOMATCH q sub)) := by
  rw [exec_qeRxFrame_on h, if_pos]
  simp [State.maxFrame_qeSeen, hf, hl]

/-! ### A packet of a flow -/

/-- A packet of an unprotected audio or ancillary flow is counted, and the flow is no longer lost. -/
theorem State.flowTakes_unprotected (s : State) {key : Nat} (hk : 1024 ≤ key) (b : Bool) (p : RtpPkt) (t : Nat) {x : Flow} (hx : x.rcd.prot = false) :
    (s.flowTakes key b p t x).packets = min 0xFFFFFFFF (x.packets + 1) ∧ (s.flowTakes key b p t x).lost = false := by
  have h0 : key / 1024 ≠ 0 := by omega
  unfold State.flowTakes
  extract_lets f1 ofs taken f2 f3
  have hp1 : f1.packets = min 0xFFFFFFFF (x.packets + 1) := by
    simp only [f1, hx]
    rfl
  have hp2 : f2.packets = f1.packets := by
    simp only [f2]
    split_ifs <;> rfl
  have hp3 : f3.packets = f2.packets := by
    simp only [f3]
    split_ifs <;> rfl
  rw [if_neg h0]
  exact ⟨hp3.trans (hp2.trans hp1), rfl⟩

theorem State.flowPacket_unprotected (s : State) {key : Nat} (hk : 1024 ≤ key) (b : Bool) (p : RtpPkt) (t : Nat) {x : Flow}
    (hf : tabFind s.media.rxFlow key = some x) (hx : x.rcd.prot = false) :
    (tabFind (s.flowPacket key b p t).media.rxFlow key).map (·.packets) = some (min 0xFFFFFFFF (x.packets + 1)) ∧
    (tabFind (s.flowPacket key b p t).media.rxFlow key).map (·.lost) = some false ∧ (s.flowPacket key b p t).regs = s.regs := by
  obtain ⟨hp, hl⟩ := s.flowTakes_unprotected hk b p t hx
  have h0 : ¬ (key / 1024 = 0 ∧ p.frameStart = true) := fun h => by omega
  have e : s.flowPacket key b p t = { s with media := { s.media with rxFlow := tabPut s.media.rxFlow key (s.flowTakes key b p t x) } } := by
    unfold State.flowPacket
    rw [hf]
    exact if_neg h0
  rw [e]
  simp [hp, hl]

/-! ### Loss of a flow -/

theorem State.refreshSrc_rxFlow (s : State) (src : Nat) : (s.refreshSrc src).media.rxFlow = s.media.rxFlow := by
  unfold State.refreshSrc
  rw [State.flowStop_eq]
  show ((((s.dstsOf src).filter (· < 72)).foldl State.txRefresh s).freezeReset src).media.rxFlow = _
  rw [State.freezeReset_media, (State.foldl_txRefresh _ _ fun n hn => by simpa using (List.mem_filter.mp hn).2).2]

theorem State.sourceLost_rxFlow (s : State) (src : Nat) : (s.sourceLost src).media.rxFlow = s.media.rxFlow := by
  unfold State.sourceLost
  dsimp only
  rw [State.refreshSrc_rxFlow, State.foldl_clkLost_eq, State.foldl_cwLoss_eq]

/-- A flow that has declared loss. -/
def Flow.lose (x : Flow) : Flow := { x with lost := true, grid := none, unrec := satAdd x.unrec 1 }

/-- The state with a flow that has declared loss. -/
def State.loseFlow (s : State) (key : Nat) (x : Flow) : State :=
  { s with media := { s.media with rxFlow := tabPut s.media.rxFlow key x.lose } }

theorem State.rxFlow_loseFlow (s : State) (key : Nat) (x : Flow) : tabFind (s.loseFlow key x).media.rxFlow key = some x.lose :=
  tabFind_put_self ..

theorem exec_flowLoss_enabled {s : State} {k : FlowKind} {f : Fin 1024} {x : Flow} (h : tabFind s.media.rxFlow (1024 * kindNum k + f) = some x) (t : Nat) :
    exec (.flowLoss k f t) s = .next (match k with
      | .video => ((s.at_ t).loseFlow (1024 * kindNum k + f) x).sourceLost (72 + f)
      | .audio => ((s.at_ t).loseFlow (1024 * kindNum k + f) x).clkLost (128 + f)
      | .anc => (s.at_ t).loseFlow (1024 * kindNum k + f) x) := by
  have h' : tabFind (s.at_ t).media.rxFlow (1024 * kindNum k + f) = some x := h
  have e : exec (.flowLoss k f t) s = execFlowLoss k f t s := rfl
  rw [e, execFlowLoss]
  dsimp only
  rw [h']
  cases k <;> rfl

/-! ### A leg, and a timestamp -/

theorem exec_legLost_enabled {s : State} {k : FlowKind} {f : Fin 1024} {x : Flow} (h : tabFind s.media.rxFlow (1024 * kindNum k + f) = some x) (b : Bool) :
    exec (.legLost k f b) s = .next (if x.rcd.prot then
      { s with media := { s.media with rxFlow := tabPut s.media.rxFlow (1024 * kindNum k + f) (if b then { x with lostB := true } else { x with lostA := true }) } }
      else s) := by
  have e : exec (.legLost k f b) s = execLegLost k f b s := rfl
  rw [e, execLegLost]
  dsimp only
  rw [h]

/-- The state with the timestamps software has read gone from the queue. -/
def State.ptpRead (s : State) (n : Nat) : State := { s with media := { s.media with ptpQ := s.media.ptpQ.drop n } }

theorem exec_ptpTimestamp_on {s : State} {q sub : Fin 4} (h : s.subOn q sub = true) (ns n : Nat) :
    exec (.ptpTimestamp q sub ns n) s = .next (if 64 ≤ (s.media.ptpQ.drop n).length then (s.ptpRead n).raise (Hist.qe q) F.QE_HIST_PTP_TS_OVF
      else { s with media := { s.media with
        ptpQ := s.media.ptpQ.drop n ++ [(q.val * 4 + sub.val, ((ns : Int) + s.rdInt (R.QE_PTP_ASYM q sub)).toNat)] } }) := by
  have h' : (s.ptpRead n).subOn q sub = true := h
  have e : exec (.ptpTimestamp q sub ns n) s = execPtpTimestamp q sub ns n s := rfl
  rw [e, execPtpTimestamp]
  refine congrArg _ ((if_neg ?_).trans rfl)
  rw [Bool.not_eq_true', Bool.not_eq_false]
  exact h'

/-- A request for an address of the sub-port is answered; any other is dropped and counted. -/
theorem State.askedFor_own (s : State) (q sub : Nat) {own : Nat} (h : own ≠ 0) (m : NetMsg) :
    s.askedFor q sub own own m = { s with media := { s.media with net := s.media.net ++ [m] } } := if_pos ⟨h, rfl⟩

theorem State.askedFor_other (s : State) (q sub : Nat) {own a : Nat} (h : a ≠ own ∨ a = 0) (m : NetMsg) :
    s.askedFor q sub own a m = s.inc (R.QE_RX_NOMATCH q sub) := by
  refine if_neg ?_
  rintro ⟨h0, rfl⟩
  exact h.elim (· rfl) h0

/-- Settles O15: each kind of frame by what `qeTakes` says of it; a flow's loss by its kind. -/
theorem qeFramesAndFlows : Obligations.QeFramesAndFlows := by
  refine ⟨fun s w q sub f len corr t hon hw => ?_, fun s f t x hx => ?_, fun s f t x hx => ?_, fun s f t x hx => ?_, fun s k f b x hx hp => ?_,
    fun s k f b x hx hp => ?_, fun s q sub ns n hon hl => ?_, fun s q sub ns n hon hl => ?_⟩
  case refine_1 =>
    obtain rfl : w = s.qeSeen q sub corr t := hw
    refine ⟨?_, fun hf hl => exec_qeRxFrame_long hon hf hl corr t, fun hl => ?_⟩
    · rintro rfl
      exact exec_qeRxFrame_fits hon (.inl rfl) corr t
    have hfit (f : EthFrame) := exec_qeRxFrame_fits hon (f := f) (.inr hl) corr t
    refine ⟨?_, ?_, ?_, ?_, ?_, ?_, ?_, ?_⟩
    · rintro rfl
      exact hfit _
    · rintro (rfl | rfl | rfl) <;> exact hfit _
    · rintro a rfl h0 rfl
      rw [hfit, State.qeTakes, State.rd_qeSeen_ip4, State.askedFor_own _ _ _ h0]
    · rintro a rfl h0 rfl
      rw [hfit, State.qeTakes, State.qeIp6_qeSeen, State.askedFor_own _ _ _ h0]
    · rintro a (⟨rfl, h⟩ | ⟨rfl, h⟩)
      · rw [hfit, State.qeTakes, State.rd_qeSeen_ip4, State.askedFor_other _ _ _ h]
      · rw [hfit, State.qeTakes, State.qeIp6_qeSeen, State.askedFor_other _ _ _ h]
    · rintro p rfl h
      rw [hfit, State.qeTakes, State.matchFlow_qeSeen, h]
    · rintro p k b rfl h
      rw [hfit, State.qeTakes, State.matchFlow_qeSeen, h]
    · rintro p k b x rfl h hx hp hk
      rw [hfit, State.qeTakes, State.matchFlow_qeSeen, h]
      exact ⟨_, rfl, State.flowPacket_unprotected _ hk b p t (by rw [State.qeSeen_media]; exact hx) hp⟩
  case refine_2 => exact ⟨_, exec_flowLoss_enabled (k := .anc) hx t, State.rxFlow_loseFlow .., rfl⟩
  case refine_3 =>
    refine ⟨_, exec_flowLoss_enabled (k := .audio) hx t, ?_, ?_⟩
    · rw [State.clkLost_eq]
      exact State.rxFlow_loseFlow ..
    · rw [State.clkLost_eq]
      rfl
  case refine_4 =>
    have hk : 1024 * kindNum .video + f.val = f := by simp [kindNum]
    refine ⟨_, exec_flowLoss_enabled (k := .video) (by rwa [hk]) t, ?_, fun a h1 h2 => ?_⟩
    · rw [State.sourceLost_rxFlow, hk]
      exact State.rxFlow_loseFlow ..
    · rw [State.sourceLost_rd _ _ _ h1 h2]
      rfl
  case refine_5 =>
    refine ⟨_, (exec_legLost_enabled hx b).trans (congrArg _ (if_pos hp)), ?_, rfl⟩
    exact tabFind_put_self ..
  case refine_6 => exact (exec_legLost_enabled hx b).trans (congrArg _ (if_neg (by simp [hp])))
  case refine_7 => exact (exec_ptpTimestamp_on hon ns n).trans (congrArg _ (if_neg (Nat.not_le.mpr hl)))
  case refine_8 =>
    exact ⟨_, (exec_ptpTimestamp_on hon ns n).trans (congrArg _ (if_pos hl)), State.get_raise _ (Hist.qe q) _ rfl (by decide),
      State.raise_onlyRegs _ _ _ (by simp [Hist.qe])⟩

end Sys2Proof.Machine

/-! The block itself: a step, the empty queue and the reset state (O1, O2, O4); pattern generators (O21). -/
namespace Sys2Proof.Machine

/-! ### The block -/

/-- Settles O1: putting a command at the front of the queue and taking it off again leaves the state as it was. -/
theorem stepRunsFrontCommand : Obligations.StepRunsFrontCommand := fun _ _ => rfl

/-- Settles O2. -/
theorem emptyQueueIdles : Obligations.EmptyQueueIdles := by
  intro s h
  rw [step, h]

/-- Settles O4: the reset state lists no register and no memory word. -/
theorem resetState : Obligations.ResetState :=
  ⟨⟨⟨rfl, rfl⟩, rfl, rfl, rfl, rfl⟩, rfl, fun _ => rfl⟩

/-! ### Pattern generators -/

theorem State.pg_setPg_self (s : State) (p : Nat) (g : PgSt) : (s.setPg p g).pg p = g := tabGet_set_self ..

/-- Both fields of XPT_PG_CFG written. -/
def State.pgAsked (s : State) (p v : Nat) : State :=
  (s.set (R.XPT_PG_CFG p) F.XPT_PG_CFG_FORMAT (v / 65536)).set (R.XPT_PG_CFG p) F.XPT_PG_CFG_PATTERN v

theorem State.pgAsked_onlyRegs (s : State) (p v : Nat) : s.onlyRegs (s.pgAsked p v) [R.XPT_PG_CFG p] :=
  (s.set_onlyRegs _ _ (List.mem_singleton.mpr rfl)).trans (State.set_onlyRegs _ _ _ (List.mem_singleton.mpr rfl))

theorem State.pg_pgAsked (s : State) (p v k : Nat) : (s.pgAsked p v).pg k = s.pg k := State.pg_congr (s.pgAsked_onlyRegs p v).xpt k

theorem State.get_pgAsked_format (s : State) (p v : Nat) :
    (s.pgAsked p v).get (R.XPT_PG_CFG p) F.XPT_PG_CFG_FORMAT = v / 65536 % 256 := by
  rw [State.pgAsked, State.get_set_apart _ _ _ _ _ (by decide) (by decide), State.get_set_self _ _ _ _ (by decide)]
  rfl

theorem State.pgFeedsIp_pgAsked (s : State) (p v : Nat) : (s.pgAsked p v).pgFeedsIp p = s.pgFeedsIp p := by
  rw [State.pgFeedsIp, State.dstsOf, (s.pgAsked_onlyRegs p v).xpt]
  rfl

/-- A write of XPT_PG_CFG that asks for a new format of a generator that feeds an IP flow is refused; any other is taken. -/
theorem State.pgWrite_eq (s : State) (p v : Nat) : s.pgWrite p v =
    if v / 65536 % 256 ≠ (s.pg p).fmt ∧ s.pgFeedsIp p then
      ((s.pgAsked p v).setPg p { s.pg p with refused := true }).raise Hist.pgErr F.XPT_STAT_PG_ERR
    else (s.pgAsked p v).setPg p { s.pg p with refused := false } := by
  rw [← s.pg_pgAsked p v p, ← s.get_pgAsked_format p v, ← s.pgFeedsIp_pgAsked p v]
  rfl

theorem exec_pgCfgWrite {s : State} {p : Fin 8} (hup : s.upFor (R.XPT_PG_CFG p)) (v : Nat) :
    exec (.pgCfgWrite p v) s = .next (s.pgWrite p v) := congrArg _ (State.byHost_upFor hup _)

theorem XPT_STAT_ne_PG_CFG (p : Nat) : R.XPT_PG_CFG p ≠ R.XPT_STAT := by unfold R.XPT_PG_CFG R.XPT_STAT; omega

/-- A refused format: the field keeps it, the generator the format in force, and PG_ERR sets. -/
theorem State.pgWrite_refused {s : State} {p v : Nat} (hf : s.pgFeedsIp p = true) (hv : v / 65536 % 256 ≠ (s.pg p).fmt) :
    (s.pgWrite p v).get (R.XPT_PG_CFG p) F.XPT_PG_CFG_FORMAT = v / 65536 % 256 ∧ (s.pgWrite p v).pg p = { s.pg p with refused := true } ∧
      (s.pgWrite p v).get R.XPT_STAT F.XPT_STAT_PG_ERR = 1 ∧
      ∀ a, a ∉ [R.XPT_PG_CFG p, R.XPT_STAT] → (s.pgWrite p v).rd a = s.rd a := by
  rw [State.pgWrite_eq, if_pos ⟨hv, hf⟩]
  refine ⟨?_, ?_, State.get_raise _ Hist.pgErr _ rfl (by decide), fun a ha => ?_⟩
  · rw [State.get_raise_ne _ _ _ _ (XPT_STAT_ne_PG_CFG p), State.get_setPg, State.get_pgAsked_format]
  · rw [State.pg_congr (State.raise_xpt ..), State.pg_setPg_self]
  · obtain ⟨h1, h2⟩ := not_or.mp (by simpa using ha)
    rw [State.rd_raise_ne _ _ _ h2, State.rd_setPg, (s.pgAsked_onlyRegs p v).2 a (by simpa using h1)]

/-- A generator's settings in force from a frame boundary on, by its registers; the zone plate one step on. -/
def State.pgNext (s : State) (p : Nat) : PgSt :=
  ⟨s.get (R.XPT_PG_CFG p) F.XPT_PG_CFG_FORMAT, s.get (R.XPT_PG_CFG p) F.XPT_PG_CFG_PATTERN, (s.rd (R.XPT_PG_COLOUR p)).toNat, (s.pg p).step + 1, false⟩

theorem exec_pgFrameBoundary_taken {s : State} {p : Fin 8} (h : (s.pg p).refused = false) (t : Nat) :
    exec (.pgFrameBoundary p t) s = .next (if s.get (R.XPT_PG_CFG p) F.XPT_PG_CFG_FORMAT = (s.pg p).fmt then (s.at_ t).setPg p (s.pgNext p)
      else (((s.at_ t).setPg p (s.pgNext p)).cwFormat (344 + p) (s.get (R.XPT_PG_CFG p) F.XPT_PG_CFG_FORMAT)).refreshSrc (344 + p)) := by
  have e : exec (.pgFrameBoundary p t) s = execPgFrameBoundary p t s := rfl
  have h' : ((s.at_ t).pg p).refused = false := h
  rw [e, execPgFrameBoundary, State.pgNext, ← h]
  refine congrArg _ ((if_neg ?_).trans rfl)
  rw [h', Bool.false_eq_true]
  exact id

theorem exec_pgFrameBoundary_refused {s : State} {p : Fin 8} (h : (s.pg p).refused = true) (t : Nat) :
    exec (.pgFrameBoundary p t) s = .next ((s.at_ t).setPg p { s.pg p with colour := (s.rd (R.XPT_PG_COLOUR p)).toNat, step := (s.pg p).step + 1 }) :=
  congrArg _ (if_pos h)

theorem State.foldl_sendsAfresh_xpt (s : State) (l : List Nat) :
    (l.foldl State.sendsAfresh s).xpt = { s.xpt with skip := (l.foldl State.sendsAfresh s).xpt.skip } := by
  induction l generalizing s with
  | nil => rfl
  | cons d l ih => rw [List.foldl_cons, ih, State.sendsAfresh_xpt]

theorem State.foldl_txRefresh_xpt (s : State) (l : List Nat) : (l.foldl State.txRefresh s).xpt = s.xpt := by
  induction l generalizing s with
  | nil => rfl
  | cons n l ih => rw [List.foldl_cons, ih]; exact (s.txRefresh_onlyRegs n (List.mem_singleton.mpr rfl)).xpt

/-- Bringing up to date what a source feeds touches, of the crosspoint, only what the path proof passes over. -/
theorem State.refreshSrc_xpt (s : State) (src : Nat) : (s.refreshSrc src).xpt = { s.xpt with skip := (s.refreshSrc src).xpt.skip } := by
  have h (u : State) : (u.freezeReset src).xpt = { u.xpt with skip := (u.freezeReset src).xpt.skip } := by
    unfold State.freezeReset
    split
    · rfl
    · exact u.foldl_sendsAfresh_xpt _
  unfold State.refreshSrc
  rw [State.flowStop_eq]
  dsimp only
  rw [h, State.foldl_txRefresh_xpt]

/-- The generator's settings are in force after its frame boundary. -/
theorem State.pgTaken (s : State) (p t : Nat) : ∃ u, (if s.get (R.XPT_PG_CFG p) F.XPT_PG_CFG_FORMAT = (s.pg p).fmt then
      (s.at_ t).setPg p (s.pgNext p)
      else (((s.at_ t).setPg p (s.pgNext p)).cwFormat (344 + p) (s.get (R.XPT_PG_CFG p) F.XPT_PG_CFG_FORMAT)).refreshSrc (344 + p)) = u ∧
    u.pg p = s.pgNext p ∧ ∀ a, (∀ k < 72, a ≠ R.SDI_TX_STAT k) → (∀ d, a ≠ R.XPT_FRZ_STAT d) → u.rd a = s.rd a := by
  refine ⟨_, rfl, ?_⟩
  split
  · exact ⟨State.pg_setPg_self .., fun a _ _ => rfl⟩
  · refine ⟨?_, fun a h1 h2 => ?_⟩
    · rw [State.pg, State.refreshSrc_xpt, State.cwFormat_xpt]
      exact State.pg_setPg_self ..
    · rw [State.refreshSrc_rd _ _ _ h1 h2, State.cwFormat_rd]
      rfl

/-- Settles O21: the two outcomes of a write by whether a flow is fed, the two of a boundary by whether a format is refused. -/
theorem patternGenerators : Obligations.PatternGenerators := by
  refine ⟨fun s p v hup hf => ?_, fun s p v hup hf hv => ?_, fun s p t h => ?_, fun s p t h => exec_pgFrameBoundary_refused h t⟩
  · rw [exec_pgCfgWrite hup, State.pgWrite_eq, if_neg (by simp [hf])]
    rfl
  · obtain ⟨hfmt, hpg, herr, hrd⟩ := State.pgWrite_refused hf hv
    exact ⟨_, exec_pgCfgWrite hup v, hfmt, by rw [hpg], by rw [hpg], herr, hrd⟩
  · obtain ⟨u, hu, hpg, hrd⟩ := s.pgTaken p t
    exact ⟨u, (exec_pgFrameBoundary_taken h t).trans (congrArg _ hu), hpg, hrd⟩

end Sys2Proof.Machine

/-! Takes that fall due (O19). -/
namespace Sys2Proof.Machine

section due
variable {s : State} {d : Fin 512} {rfn t id p : Nat} {k : Take}

theorem exec_takeExecute_due (hk : (s.at_ t).findTake d Take.isImmediate = some (id, k)) (hp : (s.at_ t).takePoint k = some p)
    (hd : (s.at_ t).dstActual d p ≤ t) : exec (.takeExecute d t) s =
      .next (if (s.at_ t).leapAt d p then (s.at_ t).abortTake id k else (s.at_ t).runTake id k p) := by
  have e : exec (.takeExecute d t) s = .next ((s.at_ t).takeExecute d t) := rfl
  rw [e, State.takeExecute, hk]
  dsimp only
  rw [hp]
  exact congrArg _ (if_neg (Nat.not_lt.mpr hd))

theorem exec_takeExecute_idle (hk : (s.at_ t).findTake d Take.isImmediate = some (id, k)) (hp : (s.at_ t).takePoint k = none) :
    exec (.takeExecute d t) s = .next ((s.at_ t).runIdle id k (s.at_ t).rfnNow t) := by
  have e : exec (.takeExecute d t) s = .next ((s.at_ t).takeExecute d t) := rfl
  rw [e, State.takeExecute, hk]
  dsimp only
  rw [hp]

theorem exec_leapArm_timed {g : Grid} (hk : (s.at_ t).findLeap d rfn = some (id, k)) (hg : (s.at_ t).dstGrid d = some g)
    (h1 : g.actual ((s.at_ t).switchAt d g k.after) ≤ t + g.period)
    (h2 : t + (s.at_ t).marginTicks g ≤ g.actual ((s.at_ t).switchAt d g k.after)) :
    exec (.leapArm d rfn t) s = .next ((s.at_ t).setOp id (.take { k with armed := true })) := by
  have e : exec (.leapArm d rfn t) s = execLeapArm d rfn t s := rfl
  rw [e, execLeapArm]
  dsimp only
  rw [hk]
  dsimp only
  rw [hg]
  exact congrArg _ (if_pos (by simp [h1, h2]))

theorem exec_leapArm_untimed (hk : (s.at_ t).findLeap d rfn = some (id, k)) (hg : (s.at_ t).dstGrid d = none) :
    exec (.leapArm d rfn t) s = .next ((s.at_ t).setOp id (.take { k with armed := true })) := by
  have e : exec (.leapArm d rfn t) s = execLeapArm d rfn t s := rfl
  rw [e, execLeapArm]
  dsimp only
  rw [hk]
  dsimp only
  rw [hg]
  exact congrArg _ (if_pos rfl)

/-- No leap for an earlier frame falls due on `d` by instant `p`. -/
def State.noneEarlier (s : State) (d rfn p : Nat) : Prop :=
  ∀ q ∈ s.takes, q.2.dst = d → q.2.rfn ≠ 0 → q.2.rfn < rfn → q.2.waiting = false → ∀ p', s.takePoint q.2 = some p' → p < p'

/-- `s` without the immediate take due on `d` at instant `p`, if one is. -/
def State.immediateGone (s : State) (d p : Nat) : State :=
  match s.findTake d Take.isImmediate with
  | some (i, im) => if s.takePoint im = some p then s.abortTake i im else s
  | none => s

theorem exec_leapExecute_due (hk : (s.at_ t).findLeap d rfn = some (id, k)) (hp : (s.at_ t).takePoint k = some p)
    (hd : (s.at_ t).dstActual d p ≤ t) (he : (s.at_ t).noneEarlier d rfn p) :
    exec (.leapExecute d rfn t) s = .next (((s.at_ t).immediateGone d p).runTake id k p) := by
  have e : exec (.leapExecute d rfn t) s = execLeapExecute d rfn t s := rfl
  rw [e, execLeapExecute]
  dsimp only
  rw [hk]
  dsimp only
  rw [hp]
  refine congrArg _ (if_neg ?_)
  rintro (h | h)
  · exact absurd hd (Nat.not_le.mpr h)
  · obtain ⟨q, hq, h⟩ := List.any_eq_true.mp h
    simp only [Bool.and_eq_true, beq_iff_eq, bne_iff_ne, decide_eq_true_eq, Bool.not_eq_true'] at h
    obtain ⟨⟨⟨⟨h1, h2⟩, h3⟩, h4⟩, h5⟩ := h
    split at h5
    · rename_i p' hp'
      exact absurd (of_decide_eq_true h5) (Nat.not_le.mpr (he q hq h1 h2 h3 h4 p' hp'))
    · cases h5

theorem State.immediateGone_none (h : ∀ i im, s.findTake d Take.isImmediate = some (i, im) → s.takePoint im ≠ some p) :
    s.immediateGone d p = s := by
  unfold State.immediateGone
  split
  · exact if_neg (h _ _ ‹_›)
  · rfl

theorem State.immediateGone_some {i : Nat} {im : Take} (h : s.findTake d Take.isImmediate = some (i, im)) (hp : s.takePoint im = some p) :
    s.immediateGone d p = s.abortTake i im := by
  unfold State.immediateGone
  rw [h]
  exact if_pos hp

theorem exec_leapNoTimingExecute_due (hk : (s.at_ t).findLeap d rfn = some (id, k)) (hg : (s.at_ t).dstGrid d = none) (h : k.after ≤ t) :
    exec (.leapNoTimingExecute d rfn t) s = .next ((s.at_ t).runIdle id k rfn t) := by
  have e : exec (.leapNoTimingExecute d rfn t) s = execLeapNoTimingExecute d rfn t s := rfl
  rw [e, execLeapNoTimingExecute]
  dsimp only
  rw [hk]
  dsimp only
  rw [hg]
  exact congrArg _ (if_pos (by simp [h]))

theorem exec_untimedChangeover_due (hk : (s.at_ t).findTake d (·.waiting) = some (id, k)) (hp : (s.at_ t).waitPoint k = some p) (h : p ≤ t) :
    exec (.untimedChangeover d t) s = .next ((s.at_ t).runUntimed id k p) := by
  have e : exec (.untimedChangeover d t) s = execUntimedChangeover d t s := rfl
  rw [e, execUntimedChangeover]
  dsimp only
  rw [hk]
  dsimp only
  rw [hp]
  exact congrArg _ (if_pos h)

end due

/-- Settles O19: each event finds the take it is of, and that take is due. -/
theorem takesExecute : Obligations.TakesExecute := by
  refine ⟨fun s d t id p k hk hp hd => exec_takeExecute_due hk hp hd, fun s d t id k hk hp => exec_takeExecute_idle hk hp,
    fun s d rfn t id k g hk hg h1 h2 => exec_leapArm_timed hk hg h1 h2, fun s d rfn t id k hk hg => exec_leapArm_untimed hk hg,
    fun s d rfn t id p k hk hp hd he => ⟨fun h => ?_, fun i im hi him => ?_⟩,
    fun s d rfn t id k hk hg h => exec_leapNoTimingExecute_due hk hg h,
    fun s d t id p k hk hp h => exec_untimedChangeover_due hk hp h, fun s n t h => congrArg _ (if_pos h)⟩
  · rw [exec_leapExecute_due hk hp hd he, State.immediateGone_none h]
  · rw [exec_leapExecute_due hk hp hd he, State.immediateGone_some hi him]

end Sys2Proof.Machine

/-! What a take does to the routes (O20). -/
namespace Sys2Proof.Machine

theorem State.chainOf_setChain_ne (s : State) {u v : Nat} (c : Chain) (h : v ≠ u) : (s.setChain u c).chainOf v = s.chainOf v :=
  tabFind_put_ne _ _ h

/-- Ending a take leaves the crosspoint alone. -/
theorem State.endTake_xpt (s : State) (id : Nat) (k : Take) (e : TakeEnd) (t : Nat) : (s.endTake id k e t).xpt = s.xpt :=
  (State.endTake_kept (.refl [.regs, .host, .vec, .hostMem, .sec] s) id k e t (Sub.self _)).2.2 .xpt (by decide)

theorem State.afvSwitch_xpt (s : State) (d : Nat) (o : Option Nat) (src t : Nat) : (s.afvSwitch d o src t).xpt = s.xpt :=
  (State.afvSwitch_kept (.refl [.aud] s) d o src t (Sub.self _)).2.2 .xpt (by decide)

theorem State.afvSwitch_chains (s : State) (d : Nat) (o : Option Nat) (src t : Nat) : (s.afvSwitch d o src t).fst.chains = s.fst.chains := by
  have h : { (s.afvSwitch d o src t).fst with mem := s.fst.mem } = s.fst :=
    (State.afvSwitch_kept (.refl [.aud] s) d o src t (Sub.self _)).2.2 .fst (by decide)
  exact (congrArg FstSt.chains h :)

theorem State.txRefresh_xpt (s : State) (n : Nat) : (s.txRefresh n).xpt = s.xpt :=
  (s.txRefresh_onlyRegs n (List.mem_singleton.mpr rfl)).xpt

theorem State.txRefresh_fst (s : State) (n : Nat) : (s.txRefresh n).fst = s.fst :=
  (s.txRefresh_onlyRegs n (List.mem_singleton.mpr rfl)).fst

theorem State.setRoute_routes (s : State) (d : Nat) (r : Route) : (s.setRoute d (some r)).xpt.routes = tabPut s.xpt.routes d r :=
  congrArg XptSt.routes (State.set_xpt ..)

theorem State.reapChain_none {s : State} {u : Nat} (h : s.chainOf u = none) : s.reapChain u = s := by
  rw [State.reapChain, h]

/-- The destination's port takes the new source: a capture writer begins afresh, a lane's idle state is judged again. -/
def State.portTurns (s : State) (d : Nat) (same : Bool) : State :=
  match dstPort d with
  | .cw k => if same && (s.cw k).st != 4 then s else s.setCw k { s.cw k with filling := none, st := 0 }
  | .sdi n => (if same then s else s.setTx n { s.tx n with outRange := false }).txRefresh n
  | _ => s

/-- The chain of a unit that is the source is fed from now on. -/
def State.chainFed (s : State) (src : Nat) : State :=
  match srcPort src with
  | .sou u => match s.chainOf u with
    | some c => s.setChain u { c with fed := true }
    | none => s
  | _ => s

/-- A changeover but for the chain left behind. -/
def State.turned (s : State) (d src kind t : Nat) : State :=
  let same := ((s.route d).map (·.src)) == some src
  let w := (((s.setRoute d (some ⟨kind, src⟩)).chainFed src).portTurns d same).set (R.XPT_FRZ_STAT d) F.XPT_FRZ_STAT_RUN 0
  let w := if same then w else w.set (R.XPT_FRZ_STAT d) F.XPT_FRZ_STAT_FROZEN 0
  let w := { w with xpt := { w.xpt with skip := tabSet false w.xpt.skip d ((s.dstGrid d).isSome && (s.srcGrid src).isSome) } }
  w.afvSwitch d ((s.route d).map (·.src)) src t

theorem State.changeover_eq (s : State) (d src kind t : Nat) : s.changeover d src kind t =
    match s.route d with
    | some r => match srcPort r.src with
      | .sou u => (s.turned d src kind t).reapChain u
      | _ => s.turned d src kind t
    | none => s.turned d src kind t := rfl

theorem State.chainFed_xpt (s : State) (src : Nat) : (s.chainFed src).xpt = s.xpt := by
  unfold State.chainFed
  split
  · split <;> rfl
  · rfl

theorem State.chainFed_chainOf {s : State} {u : Nat} (h : s.chainOf u = none) (src : Nat) : (s.chainFed src).chainOf u = none := by
  unfold State.chainFed
  split
  · split
    · rename_i v c hc
      rw [State.chainOf_setChain_ne _ _ (by rintro rfl; rw [hc] at h; cases h), h]
    · exact h
  · exact h

theorem State.portTurns_xpt (s : State) (d : Nat) (same : Bool) : (s.portTurns d same).xpt = s.xpt := by
  unfold State.portTurns
  split
  · split <;> rfl
  · rw [State.txRefresh_xpt]
    split <;> rfl
  · rfl

theorem State.portTurns_chains (s : State) (d : Nat) (same : Bool) : (s.portTurns d same).fst.chains = s.fst.chains := by
  unfold State.portTurns
  split
  · split <;> rfl
  · rw [State.txRefresh_fst]
    split <;> rfl
  · rfl

/-- The destination is routed from the new source, and no other route changes. -/
theorem State.turned_routes (s : State) (d src kind t : Nat) : (s.turned d src kind t).xpt.routes = tabPut s.xpt.routes d ⟨kind, src⟩ := by
  unfold State.turned
  extract_lets same w1 w2 x w3
  have h2 : w2.xpt = w1.xpt := by
    unfold w2
    split
    · rfl
    · exact State.set_xpt ..
  have h3 : w3.xpt.routes = w2.xpt.routes := rfl
  rw [State.afvSwitch_xpt, h3, h2]
  show (State.set _ _ _ _).xpt.routes = _
  rw [State.set_xpt, State.portTurns_xpt, State.chainFed_xpt, State.setRoute_routes]

theorem State.turned_chainOf {s : State} {u : Nat} (h : s.chainOf u = none) (d src kind t : Nat) :
    (s.turned d src kind t).chainOf u = none := by
  unfold State.turned
  extract_lets same w1 w2 x w3
  have h2 : w2.fst = w1.fst := by
    unfold w2
    split
    · rfl
    · exact State.set_fst ..
  have h3 : w3.fst = w2.fst := rfl
  rw [State.chainOf, State.afvSwitch_chains, h3, h2]
  show tabFind (State.set _ _ _ _).fst.chains u = _
  rw [State.set_fst, State.portTurns_chains]
  exact State.chainFed_chainOf (by rw [State.chainOf, State.setRoute_fst]; exact h) src

section takes
variable {s : State} {id : Nat} {k : Take}
  (hw : ∀ p ∈ s.takes, p.2.dst = k.dst → p.2.waiting = true → p.1 = id)
  (hc : ∀ r u, s.route k.dst = some r → srcPort r.src = .sou u → s.chainOf u = none)

include hc in
/-- With no chain left behind a changeover writes the destination's route alone. -/
theorem State.changeover_routes (src kind t : Nat) :
    (s.changeover k.dst src kind t).xpt.routes = tabPut s.xpt.routes k.dst ⟨kind, src⟩ := by
  rw [State.changeover_eq]
  split
  · split
    · rw [State.reapChain_none (State.turned_chainOf (hc _ _ ‹_› ‹_›) ..), State.turned_routes]
    · exact s.turned_routes ..
  · exact s.turned_routes ..

include hw in
/-- With no other take waiting on the destination none is superseded. -/
theorem State.supersede_alone (t : Nat) : s.supersede k.dst id t = s := by
  have h : (s.takes.filter fun p => p.2.dst == k.dst && p.2.waiting && p.1 != id) = [] := by
    refine List.filter_eq_nil_iff.mpr fun p hp => ?_
    simp only [Bool.and_eq_true, beq_iff_eq, bne_iff_ne]
    exact fun ⟨⟨h1, h2⟩, h3⟩ => h3 (hw p hp h1 h2)
  rw [State.supersede, h]
  rfl

/-- From `s` to `t` the take's destination is routed from its source, and every other destination as before. -/
def State.routedBy (s t : State) (k : Take) : Prop :=
  t.route k.dst = some ⟨s.kindOf k.src, k.src⟩ ∧ ∀ d, d ≠ k.dst → t.route d = s.route d

theorem State.routedBy_of_routes {t : State} (h : t.xpt.routes = tabPut s.xpt.routes k.dst ⟨s.kindOf k.src, k.src⟩) : s.routedBy t k := by
  refine ⟨?_, fun d hd => ?_⟩
  · rw [State.route, h, tabFind_put_self]
  · rw [State.route, h, tabFind_put_ne _ _ hd]; rfl

include hw hc in
theorem State.runTake_routedBy (hcl : s.clean k.dst k.src = true) (p : Nat) : s.routedBy (s.runTake id k p) k := by
  refine State.routedBy_of_routes ?_
  unfold State.runTake
  dsimp only
  rw [if_pos hcl, State.supersede_alone hw, State.endTake_xpt, State.raise_xpt, State.changeover_routes hc]

include hw hc in
theorem State.runIdle_routedBy (rfn t : Nat) : s.routedBy (s.runIdle id k rfn t) k := by
  refine State.routedBy_of_routes ?_
  unfold State.runIdle
  dsimp only
  rw [State.supersede_alone hw, State.endTake_xpt, State.raise_xpt, State.changeover_routes hc]

end takes

/-- Settles O20: no take is superseded and no chain released, so that the changeover alone writes a route. -/
theorem takeChangesRoute : Obligations.TakeChangesRoute := fun _ _ t rfn _ hw hc =>
  ⟨fun hcl => State.runTake_routedBy hw hc hcl t, State.runIdle_routedBy hw hc rfn t⟩

end Sys2Proof.Machine

/-! The path proof of a number beyond Table 3-2 (O22). -/
namespace Sys2Proof.Machine

/-- A state with the path proof enabled and a DIRECT route from source 0 at number 2047, which names no destination. -/
def proofBeyond : State := { State.reset.set R.XPT_CTL F.XPT_CTL_PROOF_EN 1 with xpt := { routes := [(2047, ⟨1, 0⟩)] } }

/-- At number 2047 the offsets of the history register and of the mismatch counter are one. -/
theorem XPT_DST_HIST_eq_MISMATCH : R.XPT_DST_HIST 2047 = R.XPT_DST_MISMATCH 2047 := rfl

/-- The state in which the path proof counts a mismatch at number `d`. -/
def State.mismatched (s : State) (d : Nat) : State :=
  (({ s with xpt := { s.xpt with skip := tabSet false s.xpt.skip d false } } : State).raise (Hist.dst d)
    F.XPT_DST_HIST_PATH_MISMATCH).inc (R.XPT_DST_MISMATCH d)

/-- PATH_MISMATCH and the count share the register: it reads 9 after a first mismatch, bit 3 and one more. -/
theorem proofBeyond_mismatched : ((proofBeyond.mismatched 2047).rd (R.XPT_DST_MISMATCH 2047)).toNat = 9 ∧
    (proofBeyond.rd (R.XPT_DST_MISMATCH 2047)).toNat = 0 := by decide +kernel

/-- Refutes O22: the clause on PATH_MISMATCH is of every number `d`, and at 2047 the history register it names is the register of the
counter, so that the count is not one more than it was. -/
theorem not_signaturesAndProof : ¬ Obligations.SignaturesAndProof := by
  rintro ⟨-, -, -, -, -, hproof, -, -⟩
  obtain ⟨u, rfl, -, -, hcount⟩ := hproof proofBeyond 2047 1 0 (by decide +kernel) (by decide +kernel) (by decide +kernel) (by decide)
  obtain ⟨h1, h0⟩ := proofBeyond_mismatched
  rw [h0] at hcount
  exact absurd (h1.symm.trans hcount) (by decide)

end Sys2Proof.Machine

/-! How a descriptor that the common checks pass on ends: refused, dropped as late, or in flight. -/
namespace Sys2Proof.Machine

section desc
variable {s v w : State} {r : DescRule} {h : Hdr} {body : State → Adm}

/-- A refusal by the opcode's own checks posts its completion and touches the host side alone. -/
theorem State.desc_refused (hv : s.admits r h v) {st res : Nat} (hb : body v = .no st res) (hst : st ≠ 3 := by decide) :
    v.posts (s.desc r h body) h st res ∧ v.hostOnly (s.desc r h body) := by
  rw [State.desc_no hv.1 hb hst]
  obtain ⟨⟨c, hc, hp⟩, hh⟩ := v.raiseOver.refuse_posts h st res
  exact ⟨⟨c, by rw [hc, State.raiseOver_host], hp⟩, v.raiseOver_hostOnly.trans hh⟩

/-- A denial with an effect of its own, `w`. -/
theorem State.desc_denied (hv : s.admits r h v) {why : Nat} (hb : body v = .deny why w) :
    s.desc r h body = w.raiseOver.refuse h 5 why := by rw [State.desc_pass hv.1, hb]; rfl

/-- One dropped as late from state `w` on. -/
theorem State.desc_late (hv : s.admits r h v) {c : Bool} {res : Nat} (hb : body v = .late c res w) :
    s.desc r h body = w.raiseOver.refuseLate h c res := by rw [State.desc_pass hv.1, hb]; rfl

/-- Dropped as late: the host side alone changes from `w` on, a completion joins and no operation does. -/
theorem State.desc_late_spec (hv : s.admits r h v) {c : Bool} {res : Nat} (hb : body v = .late c res w) :
    w.posts (s.desc r h body) h 1 res ∧ w.hostOnly (s.desc r h body) ∧ (s.desc r h body).host.ops = w.host.ops ∧
      ∀ a, a ≠ R.HSF_VSTAT → (s.desc r h body).rd a = w.rd a := by
  rw [State.desc_late hv hb]
  exact ⟨⟨_, congrArg (·.cpls ++ _) w.raiseOver_host, rfl, rfl, rfl, rfl⟩, w.raiseOver_hostOnly.trans rfl, (congrArg HostSt.ops w.raiseOver_host :),
    fun a ha => w.raiseOver_rd ha⟩

/-- One operation of one entry more. -/
theorem State.flies_inflight {b : OpBody} (hf : v.flies w h b) (hc : w.host.cpls = v.host.cpls) (he : b.entries = 1) :
    w.inflight = v.inflight + 1 := by
  obtain ⟨o, ho, hd, -, hb⟩ := hf
  simp only [State.inflight, ho, hc, List.map_append, List.sum_append, List.map_cons, List.map_nil, List.sum_cons, List.sum_nil, hd, hb, he,
    CplDest.held, if_true]
  omega

/-- An accepted descriptor whose operation has joined those in flight in `w`. -/
theorem State.desc_flies (hv : s.admits r h v) (hb : body v = .yes w) {b : OpBody} (hf : v.flies w h b) (hc : w.host.cpls = v.host.cpls)
    (he : b.entries = 1 := by rfl) : v.flies (s.desc r h body) h b ∧ w.hostOnly (s.desc r h body) ∧
      ∀ a, a ≠ R.HSF_VSTAT → (s.desc r h body).rd a = w.rd a := by
  have hi : w.inflight ≤ 16384 := by
    rw [State.flies_inflight hf hc he]
    simpa [State.entriesFree] using hv.2.2.2
  rw [State.desc_yes hv.1 hb hi]
  obtain ⟨o, ho, hp⟩ := hf
  exact ⟨⟨o, by rw [State.accept_host, ho], hp⟩, State.accept_hostOnly .., fun a ha => State.accept_rd _ _ ha⟩

/-- One that completes at once from the state `w` its opcode leads to. -/
theorem State.desc_completes (hv : s.admits r h v) {e : Bool} {st res : Nat} (hb : body v = .yes (w.done h e st res)) (hh : v.hostOnly w)
    (ho : w.host = v.host) : v.posts (s.desc r h body) h st res ∧ v.hostOnly (s.desc r h body) := by
  obtain ⟨t, ht, hp, hw, -⟩ := State.desc_done hv hb (by rw [ho]) (by rw [ho]) (by rw [ho])
  rw [ht]
  exact ⟨hp, hh.trans hw⟩

end desc

/-- Noting the RFN of a forwarded take leaves the host side alone. -/
theorem State.fwdNote_hostOnly (s : State) (id rfn : Nat) : s.hostOnly (s.fwdNote id rfn) ∧ (s.fwdNote id rfn).host = s.host := by
  unfold State.fwdNote
  split <;> exact ⟨rfl, rfl⟩

/-- From `v` to `t` an operation joins those in flight, where `u` has the operations of `v`. -/
theorem State.flies.of_ops {u v t : State} {h : Hdr} {b : OpBody} (hf : u.flies t h b) (ho : u.host.ops = v.host.ops) : v.flies t h b := by
  obtain ⟨o, hops, hp⟩ := hf
  exact ⟨o, by rw [hops, ho], hp⟩

end Sys2Proof.Machine

/-! ROUTE_SET and TAKE_AT (O16, O17). -/
namespace Sys2Proof.Machine

theorem exec_routeSet (h : Hdr) (d src : Nat) (s : State) :
    exec (.routeSet h d src) s = .next (s.desc (routeRule s 0x02 0 d (routePay d src)) h (routeBody h d src)) := rfl

theorem exec_takeAt (h : Hdr) (d src : Nat) (s : State) :
    exec (.takeAt h d src) s = .next (s.desc (routeRule s 0x03 1 d (routePay d src)) h (routeBody h d src)) := rfl

section body
variable {v : State} {h : Hdr} {d src : Nat}

theorem routeBody_chain (hc : v.chainCw d = true) : routeBody h d src v = .no 5 6 := if_pos hc

theorem routeBody_bad {k : Nat} (hc : v.chainCw d = false) (hb : v.routeBad d src h.rfn = some k) : routeBody h d src v = .no 4 (badRes k) := by
  rw [routeBody, hc, hb]
  rfl

theorem routeBody_untimed (hc : v.chainCw d = false) (hb : v.routeBad d src h.rfn = none) (hr : v.refuses d = true)
    (hcl : v.clean d src = false) : routeBody h d src v = .no 9 0 := by
  rw [routeBody, hc, hb, hr, hcl]
  rfl

/-- Past every check of its own, what is left of a route-changing descriptor is its lateness. -/
theorem routeBody_fits (hc : v.chainCw d = false) (hb : v.routeBad d src h.rfn = none) (hr : v.refuses d = true → v.clean d src = true)
    (he : v.entriesFree 1 = true)
    (hf : v.fitOf ((if h.rfn = 0 then v.abortImmediate d else v).addOp h 0 (.take (v.leapTake d src h.rfn h.dropIfLate none none))).2 = .fits) :
    routeBody h d src v = if v.dropsLate h d then .late false 0 (v.raiseLate d true) else .yes (v.startTake h d src none 0) := by
  have hu : (v.refuses d && !v.clean d src) = false := by
    rw [Bool.and_eq_false_iff, Bool.not_eq_false']
    exact (Bool.eq_false_or_eq_true _).symm.imp_right hr
  rw [routeBody, hc, hb]
  dsimp only
  rw [hu, he, admitFit, hf]
  rfl

/-- With no immediate take pending on `d` there is none to replace. -/
theorem State.abortImmediate_none
    (hn : ∀ p ∈ v.takes, p.2.dst = d → p.2.rfn = 0 → p.2.waiting = false → p.2.salvo = none → False) : v.abortImmediate d = v := by
  have hl : (v.takes.filter fun p => p.2.dst == d && p.2.rfn == 0 && !p.2.waiting && p.2.salvo.isNone) = [] := by
    refine List.filter_eq_nil_iff.mpr fun p hp => ?_
    simp only [Bool.and_eq_true, beq_iff_eq, Bool.not_eq_true', Option.isNone_iff_eq_none]
    exact fun ⟨⟨⟨h1, h2⟩, h3⟩, h4⟩ => hn p hp h1 h2 h3 h4
  rw [State.abortImmediate, hl]
  rfl

/-- An immediate take to a running destination waits for its switch point. -/
theorem State.startImmediate_running (hv : v.host.fwdNow = false) (hr : v.host.restoring = false) {g : Grid} (hg : v.dstGrid d = some g)
    (hn : v.abortImmediate d = v) :
    v.flies (v.startImmediate h d src none 0) h
      (.take { dst := d, src := src, rfn := 0, after := g.nominal (v.now + v.marginTicks g), armed := true }) ∧
      v.hostOnly (v.startImmediate h d src none 0) ∧ (v.startImmediate h d src none 0).host.cpls = v.host.cpls := by
  rw [State.startImmediate]
  dsimp only
  rw [hn, hg]
  dsimp only
  obtain ⟨⟨o, ho, hp⟩, hh, hc⟩ := State.addOp_flies hv hr h 0
    (.take { dst := d, src := src, rfn := 0, after := g.nominal (v.now + v.marginTicks g), armed := true })
  obtain ⟨nh, nhost⟩ := State.fwdNote_hostOnly (v.addOp h 0
    (.take { dst := d, src := src, rfn := 0, after := g.nominal (v.now + v.marginTicks g), armed := true })).2
    (v.addOp h 0 (.take { dst := d, src := src, rfn := 0, after := g.nominal (v.now + v.marginTicks g), armed := true })).1 _
  exact ⟨⟨o, by rw [nhost]; exact ho, hp⟩, hh.trans nh, by rw [nhost]; exact hc⟩

/-- A leap's take is late as the leap is, and bound for the first switch point past the margin then, else for its own RFN. -/
theorem State.leapTake_late {rfn : Nat} (hl : v.leapLate d rfn = true) (drop : Bool) : v.leapTake d src rfn drop none none =
    { dst := d, src := src, rfn := rfn, after := ((v.dstGrid d).map fun g => g.nominal (v.now + v.marginTicks g)).getD v.now, late := true,
      drop := drop } := by
  rw [State.leapTake, hl]
  rfl

theorem State.leapTake_inTime {rfn : Nat} (hl : v.leapLate d rfn = false) (drop : Bool) :
    v.leapTake d src rfn drop none none = { dst := d, src := src, rfn := rfn, after := v.rfnTime rfn, drop := drop } := by
  rw [State.leapTake, hl]
  rfl

theorem State.startTake_leap (h0 : h.rfn ≠ 0) : v.startTake h d src none 0 =
    ((v.raiseLate d (v.leapLate d h.rfn)).addOp h 0 (.take (v.leapTake d src h.rfn h.dropIfLate none none))).2 := if_neg h0

/-- A route whose parameters pass is of a destination of Table 3-2. -/
theorem State.dst_lt_of_routeBad {rfn : Nat} (hb : v.routeBad d src rfn = none) : d < 512 := by
  by_contra hd
  have hx : v.dstExists d = false := by
    have hp : dstPort d = .none := by
      unfold dstPort
      rw [if_neg (by omega), if_neg (by omega), if_neg (by omega), if_neg (by omega)]
    rw [State.dstExists, hp]
  rw [State.routeBad, hx] at hb
  split at hb <;> simp at hb

theorem XPT_DST_HIST_ne_HSF_VSTAT (hd : d < 512) : R.XPT_DST_HIST d ≠ R.HSF_VSTAT := by
  unfold R.XPT_DST_HIST R.HSF_VSTAT; omega

theorem XPT_DST_HIST_ne_MATE_FWD_CNT (hd : d < 512) : R.XPT_DST_HIST d ≠ R.MATE_FWD_CNT := by
  unfold R.XPT_DST_HIST R.MATE_FWD_CNT; omega

theorem State.get_raiseLate (v : State) (d : Nat) : (v.raiseLate d true).get (R.XPT_DST_HIST d) F.XPT_DST_HIST_LATE = 1 :=
  State.get_raise v (Hist.dst d) _ rfl (by decide)

end body

theorem State.raiseLate_onlyRegs (s : State) (d : Nat) (b : Bool) : s.onlyRegs (s.raiseLate d b) [R.XPT_DST_HIST d] := by
  unfold State.raiseLate
  split
  · exact s.raise_onlyRegs _ _ (List.mem_singleton.mpr rfl)
  · exact .refl _ _

theorem State.addOp_rd (s : State) (h : Hdr) (res : Nat) (b : OpBody) {a : Nat} (ha : a ≠ R.MATE_FWD_CNT) : (s.addOp h res b).2.rd a = s.rd a :=
  s.newId_rd ha

/-- From `s` to `t` registers and what vectors leave alone change: the host side's tables stay. -/
theorem State.onlyRegs.host_eq {s t : State} {l : List Nat} (h : s.onlyRegs t l) :
    t.host = { s.host with pba := t.host.pba, sent := t.host.sent } := by
  conv_lhs => rw [h.1]

section admitted
variable {s v : State} {h : Hdr} {d src : Nat} {r : DescRule} (hv : s.admits r h v)
include hv

/-- Operations added after a LATE that was set: the tables are those of `v` with the operation. -/
theorem State.addOp_raiseLate_flies (b : Bool) (body : OpBody) :
    v.flies ((v.raiseLate d b).addOp h 0 body).2 h body ∧ v.hostOnly ((v.raiseLate d b).addOp h 0 body).2 ∧
      ((v.raiseLate d b).addOp h 0 body).2.host.cpls = v.host.cpls := by
  have hr := v.raiseLate_onlyRegs d b
  have hh := hr.host_eq
  obtain ⟨-, hf, hres, -⟩ := hv
  obtain ⟨h1, h2, h3⟩ := State.addOp_flies (s := v.raiseLate d b) (by rw [hh]; exact hf) (by rw [hh]; exact hres) h 0 body
  exact ⟨h1.of_ops (by rw [hh]), hr.hostOnly.trans h2, by rw [h3, hh]⟩

/-- A leap that is taken up joins those in flight. -/
theorem State.leap_flies (hb : routeBody h d src v = .yes (v.startTake h d src none 0)) (h0 : h.rfn ≠ 0) :
    v.flies (s.desc r h (routeBody h d src)) h (.take (v.leapTake d src h.rfn h.dropIfLate none none)) ∧
      v.hostOnly (s.desc r h (routeBody h d src)) ∧ (d < 512 → v.leapLate d h.rfn = true →
        (s.desc r h (routeBody h d src)).get (R.XPT_DST_HIST d) F.XPT_DST_HIST_LATE = 1) := by
  rw [State.startTake_leap h0] at hb
  obtain ⟨hf, hh, hc⟩ := State.addOp_raiseLate_flies (d := d) hv (v.leapLate d h.rfn)
    (.take (v.leapTake d src h.rfn h.dropIfLate none none))
  obtain ⟨h1, h2, h3⟩ := State.desc_flies hv hb hf hc
  refine ⟨h1, hh.trans h2, fun hd hl => ?_⟩
  rw [State.get, h3 _ (XPT_DST_HIST_ne_HSF_VSTAT hd), State.addOp_rd _ _ _ _ (XPT_DST_HIST_ne_MATE_FWD_CNT hd), hl]
  exact v.get_raiseLate d

end admitted

/-- Settles O16: the opcode's own checks in their order, then the take of a running destination. -/
theorem routeSetAdmission : Obligations.RouteSetAdmission := by
  intro s v h d src hv
  have hdrop (h0 : h.rfn = 0) : v.dropsLate h d = false := by simp [State.dropsLate, h0]
  refine ⟨fun hc => ⟨_, exec_routeSet .., State.desc_refused hv (routeBody_chain hc)⟩,
    fun k hc hb => ⟨_, exec_routeSet .., State.desc_refused hv (routeBody_bad hc hb)⟩,
    fun hc hb hr hcl => ⟨_, exec_routeSet .., State.desc_refused hv (routeBody_untimed hc hb hr hcl)⟩,
    fun g h0 hc hb hr hg hn hf => ?_, fun h0 hc hb hr hf hi => ?_⟩
  · have habort : v.abortImmediate d = v := State.abortImmediate_none hn
    have hy := routeBody_fits hc (by rw [h0]; exact hb) hr hv.2.2.2 (by rw [if_pos h0, habort, h0]; exact hf)
    rw [hdrop h0, if_neg Bool.false_ne_true, State.startTake, if_pos h0] at hy
    obtain ⟨hfl, hh, hcpl⟩ := State.startImmediate_running (h := h) (src := src) hv.2.1 hv.2.2.1 hg habort
    obtain ⟨h1, h2, -⟩ := State.desc_flies hv hy hfl hcpl
    exact ⟨_, exec_routeSet .., h1, hh.trans h2⟩
  · have hy := routeBody_fits hc (by rw [h0]; exact hb) hr hv.2.2.2 (by rw [if_pos h0, h0]; exact hf)
    rw [hdrop h0, if_neg Bool.false_ne_true, State.startTake, if_pos h0] at hy
    exact (exec_routeSet ..).trans (congrArg _ (State.desc_yes hv.1 hy hi))

/-- Settles O17: a leap is refused at byte 8, in time, late or dropped. -/
theorem takeAtAdmission : Obligations.TakeAtAdmission := by
  intro s v h d src hv hc
  refine ⟨fun hp h0 => ?_, fun h0 hb hr hl hf => ?_, fun h0 hdr hb hr hl hf => ?_, fun h0 hdr hb hr hl hf => ?_⟩
  · exact ⟨_, exec_takeAt .., State.desc_refused hv (routeBody_bad hc (if_pos ⟨h0, hp⟩))⟩
  · have hy := routeBody_fits hc hb hr hv.2.2.2 (by rw [if_neg h0]; exact hf)
    rw [State.dropsLate, hl, Bool.and_false, if_neg Bool.false_ne_true] at hy
    obtain ⟨h1, h2, -⟩ := State.leap_flies hv hy h0
    rw [State.leapTake_inTime hl] at h1
    exact ⟨_, exec_takeAt .., h1, h2⟩
  · have hy := routeBody_fits hc hb hr hv.2.2.2 (by rw [if_neg h0, hdr]; exact hf)
    rw [State.dropsLate, hdr, Bool.and_false, Bool.false_and, if_neg Bool.false_ne_true] at hy
    obtain ⟨h1, h2, h3⟩ := State.leap_flies hv hy h0
    rw [State.leapTake_late hl] at h1
    exact ⟨_, _, exec_takeAt .., h1, rfl, rfl, rfl, rfl, rfl, h3 (State.dst_lt_of_routeBad hb) hl, h2⟩
  · have hd := State.dst_lt_of_routeBad hb
    have hy := routeBody_fits hc hb hr hv.2.2.2 (by rw [if_neg h0, hdr]; exact hf)
    rw [if_pos (by simp [State.dropsLate, h0, hdr, hl])] at hy
    obtain ⟨-, hh, hops, hrd⟩ := State.desc_late_spec hv hy
    have hraise := v.raiseLate_onlyRegs d true
    refine ⟨_, exec_takeAt .., ?_, hraise.hostOnly.trans hh, by rw [hops, hraise.host_eq]⟩
    rw [State.get, hrd _ (XPT_DST_HIST_ne_HSF_VSTAT hd)]
    exact v.get_raiseLate d

end Sys2Proof.Machine

/-! Salvos, their cancelling, and composite routes (O18). -/
namespace Sys2Proof.Machine

theorem exec_salvo (h : Hdr) (l : SalvoList) (s : State) : exec (.salvo h l) s = .next (s.desc (salvoRule s h l) h (salvoBody h l)) := rfl

/-- The rule row of SALVO_CANCEL. -/
def cancelRule (ring tag : Nat) : DescRule := { op := 0x05, rfn := 0, pay := [fld 16 1 ring, fld 18 2 tag], sig := true }

theorem exec_salvoCancel (h : Hdr) (ring tag : Nat) (s : State) :
    exec (.salvoCancel h ring tag) s = .next (s.desc (cancelRule ring tag) h (cancelBody h ring tag)) := rfl

theorem exec_routeSync (h : Hdr) (c : ChainReq) (s : State) :
    exec (.routeSync h c) s = .next (s.desc (routeRule s 0x06 2 c.dst (chainPay c)) h (chainBody h c none)) := rfl

theorem exec_routeConvert (h : Hdr) (c : ChainReq) (x : ConvSet) (s : State) :
    exec (.routeConvert h c x) s = .next (s.desc (convertRule s c x) h (chainBody h c (some x))) := rfl

/-- Parts that were all found, and ledgers that take them. -/
theorem Build.settle_fits {s : State} {b : Build} (hc : b.codes = []) (hf : s.fitOf b.s = .fits) (k : State → Adm) : b.settle s k = k b.s := by
  rw [Build.settle, hc, admitFit, hf]
  rfl

/-! ### Salvos -/

section salvo
variable {h : Hdr} {l : SalvoList} {v : State}

theorem salvoBody_list {k : Nat} (hk : listBad l h = some k) : salvoBody h l v = .no 4 k := by
  rw [salvoBody]
  dsimp only
  rw [hk]

theorem salvoBody_chain (hl : listBad l h = none) (hc : ∃ e ∈ l.entries h.chain, v.chainCw e.dst = true) : salvoBody h l v = .no 5 6 := by
  rw [salvoBody]
  dsimp only
  rw [hl]
  exact if_pos (List.any_eq_true.mpr hc)

/-- Past the checks of its list and of writers of chains, an entry's parameters decide. -/
theorem salvoBody_entries (hl : listBad l h = none) (hc : ∀ e ∈ l.entries h.chain, v.chainCw e.dst = false) : salvoBody h l v =
    match v.firstBad h (l.entries h.chain) 0 [] with
    | some i => badData (some i)
    | none =>
      if !((l.entries h.chain).all v.entryClean) then .no 9 0
      else
        let p := buildSalvo h (l.entries h.chain) { s := v, codes := if v.entriesFree ((l.entries h.chain).length + 1) then [] else [9] }
        salvoSettle h (l.entries h.chain) v p.1 p.2 := by
  rw [salvoBody]
  dsimp only
  rw [hl]
  exact if_neg fun ha => by
    obtain ⟨e, he, hx⟩ := List.any_eq_true.mp ha
    rw [hc e he] at hx
    cases hx

/-- Accepted: the chains are built, the ledgers take the salvo and no lateness drops it. -/
theorem salvoSettle_fits {ls : List SalvoEntry} {es : List (Nat × Nat × Option ChainOut)} {b : Build} (hc : b.codes = [])
    (hf : v.fitOf (b.s.startSalvo v h es) = .fits) (hl : h.dropIfLate = true → ∀ e ∈ ls, v.leapLate e.dst h.rfn = false) :
    salvoSettle h ls v es b = .yes ((b.s.logChains v h es).startSalvo v h es) := by
  rw [salvoSettle, Build.settle_fits (b := { b with s := b.s.startSalvo v h es }) hc hf]
  refine if_neg ?_
  rw [Bool.and_eq_true, Bool.not_eq_true', List.isEmpty_eq_false_iff]
  rintro ⟨hd, hn⟩
  obtain ⟨e, he⟩ := List.exists_mem_of_ne_nil _ hn
  obtain ⟨he, hx⟩ := List.mem_filter.mp he
  rw [hl hd e he] at hx
  cases hx

end salvo

/-! ### Cancelling -/

section cancel
variable {h : Hdr} {ring tag : Nat} {v : State}

theorem cancelBody_ring (hr : 63 < ring) : cancelBody h ring tag v = .no 4 (badRes 16) := if_pos hr

theorem cancelBody_none (hr : ring ≤ 63) (hn : v.cancelTarget ring tag = none) : cancelBody h ring tag v = .no 4 (badRes 18) := by
  rw [cancelBody, if_neg (Nat.not_lt.mpr hr), hn]
  rfl

theorem cancelBody_take {o : Op} {k : Take} (hr : ring ≤ 63) (hn : v.cancelTarget ring tag = some o) (hb : o.body = .take k)
    (he : v.entriesFree 1 = true) :
    cancelBody h ring tag v = if v.cancelOk k then .yes ((v.abortOp o.id).ok h 0) else .yes (v.done h false 0x01 0) := by
  rw [cancelBody, if_neg (Nat.not_lt.mpr hr), hn]
  dsimp only
  rw [hb, he]
  simp only [List.all_cons, List.all_nil, Bool.and_true, Bool.not_true, Bool.false_eq_true, if_false]

theorem cancelBody_salvo {o : Op} {k : SalvoSt} (hr : ring ≤ 63) (hn : v.cancelTarget ring tag = some o) (hb : o.body = .salvo k)
    (he : v.entriesFree 1 = true) (hk : ∀ p ∈ v.salvoEntries o.id, v.cancelOk p.2 = true) :
    cancelBody h ring tag v = .yes ((v.abortOp o.id).ok h 0) := by
  rw [cancelBody, if_neg (Nat.not_lt.mpr hr), hn]
  dsimp only
  rw [hb, he]
  exact if_pos (List.all_eq_true.mpr hk)

end cancel

/-! ### Composite routes -/

/-- What answers past a check that fails with an error. -/
theorem ite_error_ok {p : Prop} [Decidable p] {e : Nat} {a : Except Nat ChainSpec} {q : ChainSpec}
    (h : (if p then .error e else a) = .ok q) : a = .ok q := by
  split at h
  · cases h
  · exact h

/-- The chain asked for converts when the request names a conversion. -/
theorem State.chainSpec_conv {v : State} {h : Hdr} {c : ChainReq} {x : Option ConvSet} {q : ChainSpec} (hq : v.chainSpec h c x = .ok q) :
    q.conv.isSome = x.isSome := by
  unfold State.chainSpec at hq
  extract_lets fmt s444 noDst pix dep conv of op rgb carried at hq
  have hconv : ∀ y, conv = .ok y → y.isSome = x.isSome := by
    intro y hy
    unfold conv at hy
    split at hy
    · cases hy; rfl
    · split at hy <;> cases hy
      rfl
  clear_value conv of op rgb carried
  replace hq := ite_error_ok (ite_error_ok (ite_error_ok hq))
  replace hq := ite_error_ok (ite_error_ok (ite_error_ok (ite_error_ok (ite_error_ok (ite_error_ok hq)))))
  split at hq
  · cases hq
  · cases hq
    exact hconv _ rfl

section chain
variable {h : Hdr} {c : ChainReq} {x : Option ConvSet} {v : State}

theorem chainBody_chain (hd : c.dst ≠ 0xFFFF) (hc : v.chainCw c.dst = true) : chainBody h c x v = .no 5 6 := if_pos ⟨hd, hc⟩

theorem chainBody_error {e : Nat} (hd : c.dst = 0xFFFF ∨ v.chainCw c.dst = false) (he : v.chainSpec h c x = .error e) :
    chainBody h c x v = .no 4 e := by
  rw [chainBody, if_neg (by rintro ⟨h1, h2⟩; simp [h1, h2] at hd), he]

theorem chainBody_ok {q : ChainSpec} (hd : c.dst = 0xFFFF ∨ v.chainCw c.dst = false) (he : v.chainSpec h c x = .ok q) :
    chainBody h c x v = chainAdmit h q v := by
  rw [chainBody, if_neg (by rintro ⟨h1, h2⟩; simp [h1, h2] at hd), he]

/-- A chain that is built, whose banks are free, which the ledgers take and no lateness drops. -/
theorem chainSettle_fits {q : ChainSpec} {o : ChainOut} {b : Build}
    (hb : ∀ k cv, o.ctx = some k → q.conv = some cv → ∀ l ∈ cv.luts, v.bankInUse (k / 16) l.1 = false)
    (hd : ∀ d, q.dst = some d → v.dropsLate h d = false) (hc : b.codes = []) (hf : v.fitOf (chainHyp h q o v b.s) = .fits) :
    chainSettle h q v o b = chainStart h q o b.s := by
  unfold chainSettle
  extract_lets inUse drop
  have hu : inUse = false := by
    unfold inUse
    split
    · rename_i k cv hk hcv
      rw [List.any_eq_false]
      exact fun l hl => by rw [hb k cv hk hcv l hl]; exact Bool.false_ne_true
    · rfl
  have hdrop : drop = false := by
    unfold drop
    split
    · exact hd _ ‹_›
    · rfl
  rw [hu, hdrop]
  exact Build.settle_fits (b := { b with s := chainHyp h q o v b.s }) hc hf _

/-- A resolved chain whose take is not refused as untimed goes on to be judged with its parts. -/
theorem chainAdmit_clean {q : ChainSpec} {o : ChainOut} {b : Build} (hq : q.conv.isSome = x.isSome)
    (hcl : ∀ d, q.dst = some d → v.refuses d = true → v.cleanAs d 0xFFFF (if x.isSome then 3 else 2) none = true)
    (he : v.entriesFree 1 = true) (hb : Build.chain { s := v } q = (o, b)) : chainAdmit h q v = chainSettle h q v o b := by
  unfold chainAdmit
  extract_lets unclean p
  have hu : unclean = false := by
    unfold unclean
    split
    · rename_i d hd
      rw [hq, Bool.and_eq_false_iff, Bool.not_eq_false']
      exact (Bool.eq_false_or_eq_true _).symm.imp_right (hcl d hd)
    · rfl
  have hp : p = (o, b) := by
    unfold p
    rw [he]
    exact hb
  rw [hu, hp]
  rfl

end chain

/-- Settles O18: each body by the first of its checks that fails, else as accepted. -/
theorem salvosAndChains : Obligations.SalvosAndChains := by
  refine ⟨fun s v h l k hv hk => ⟨_, exec_salvo .., State.desc_refused hv (salvoBody_list hk)⟩, ?_, ?_, ?_, ?_⟩
  case refine_1 =>
    rintro s v h l _ hv hl rfl
    refine ⟨fun hc => ⟨_, exec_salvo .., State.desc_refused hv (salvoBody_chain hl hc)⟩, fun i hc hb => ?_, fun hc hb ⟨e, he, hx⟩ => ?_,
      fun es b hc hb hcl he hbs hcodes hf hlate hi => ?_⟩
    · exact ⟨_, exec_salvo .., State.desc_refused hv ((salvoBody_entries hl hc).trans (by rw [hb]; rfl))⟩
    · have ha : (!(l.entries h.chain).all v.entryClean) = true := by
        rw [Bool.not_eq_true', List.all_eq_false]
        exact ⟨e, he, by rw [hx]; exact Bool.false_ne_true⟩
      exact ⟨_, exec_salvo .., State.desc_refused hv ((salvoBody_entries hl hc).trans (by rw [hb]; exact if_pos ha))⟩
    · have ha : (!(l.entries h.chain).all v.entryClean) = false := by
        rw [Bool.not_eq_false', List.all_eq_true]
        exact hcl
      have hy := salvoBody_entries hl hc
      rw [hb] at hy
      dsimp only at hy
      rw [ha, he, if_pos rfl, hbs] at hy
      exact (exec_salvo ..).trans (congrArg _ (State.desc_yes hv.1 (hy.trans (salvoSettle_fits hcodes hf hlate)) hi))
  case refine_2 =>
    intro s v h ring tag hv
    refine ⟨fun hr => ⟨_, exec_salvoCancel .., State.desc_refused hv (cancelBody_ring hr)⟩,
      fun hr hn => ⟨_, exec_salvoCancel .., State.desc_refused hv (cancelBody_none hr hn)⟩, fun o k hr hn hb hk hi => ?_,
      fun o k hr hn hb hk hi => ?_, fun o k hr hn hb hk => ?_⟩
    · have hy := cancelBody_take (h := h) hr hn hb hv.2.2.2
      rw [hk] at hy
      exact (exec_salvoCancel ..).trans (congrArg _ (State.desc_yes hv.1 hy hi))
    · exact (exec_salvoCancel ..).trans (congrArg _ (State.desc_yes hv.1 (cancelBody_salvo hr hn hb hv.2.2.2 hk) hi))
    · have hy := cancelBody_take (h := h) hr hn hb hv.2.2.2
      rw [hk] at hy
      exact ⟨_, exec_salvoCancel .., State.desc_completes hv hy (.refl v) rfl⟩
  case refine_3 =>
    intro s v h c hv
    refine ⟨fun hd hc => ⟨_, exec_routeSync .., State.desc_refused hv (chainBody_chain hd hc)⟩,
      fun e hd he => ⟨_, exec_routeSync .., State.desc_refused hv (chainBody_error hd he)⟩, fun q o b w hd hq hdst hb hc hf hs hi => ?_⟩
    have hconv := State.chainSpec_conv hq
    have hy := (chainBody_ok hd hq).trans (chainAdmit_clean (x := none) hconv (fun d h => (hdst d h).1) hv.2.2.2 hb)
    rw [chainSettle_fits (fun k cv _ hcv => by rw [hcv] at hconv; cases hconv) (fun d h => (hdst d h).2) hc hf, hs] at hy
    exact (exec_routeSync ..).trans (congrArg _ (State.desc_yes hv.1 hy hi))
  case refine_4 =>
    intro s v h c x hv
    refine ⟨fun hd hc => ⟨_, exec_routeConvert .., State.desc_refused hv (chainBody_chain hd hc)⟩,
      fun e hd he => ⟨_, exec_routeConvert .., State.desc_refused hv (chainBody_error hd he)⟩, fun q o b w hd hq hdst hbank hb hc hf hs hi => ?_⟩
    have hy := (chainBody_ok hd hq).trans (chainAdmit_clean (x := some x) (State.chainSpec_conv hq) (fun d h => (hdst d h).1) hv.2.2.2 hb)
    rw [chainSettle_fits hbank (fun d h => (hdst d h).2) hc hf, hs] at hy
    exact (exec_routeConvert ..).trans (congrArg _ (State.desc_yes hv.1 hy hi))

end Sys2Proof.Machine

/-! BUF_ALLOC, BUF_FREE, BUF_WRITE and BUF_READ (O23). -/
namespace Sys2Proof.Machine

/-! ### BUF_ALLOC -/

/-- The rule row of BUF_ALLOC. -/
def allocRule (depth fmt pix cdesc cw : Nat) : DescRule :=
  { op := 0x30, rfn := 0, pay := [fld 16 1 depth, fld 17 1 fmt, fld 18 1 pix, fld 19 1 cdesc, fld 20 1 cw] }

theorem exec_bufAlloc (h : Hdr) (depth fmt pix cdesc cw : Nat) (s : State) : exec (.bufAlloc h depth fmt pix cdesc cw) s =
    .next (s.desc (allocRule depth fmt pix cdesc cw) h (bufAllocBody h depth fmt pix cdesc cw)) := rfl

section alloc
variable {h : Hdr} {depth fmt pix cdesc cw : Nat} {v : State}

theorem bufAllocBody_denied (hc : cw < 168) (hr : (v.cw cw).ring.isSome = true) : bufAllocBody h depth fmt pix cdesc cw v = .no 5 6 :=
  if_pos ⟨hc, hr⟩

/-- A buffer ring asked for with parameters that pass, and no writer or one that can take it. -/
structure AllocOk (v : State) (depth fmt pix cdesc cw p : Nat) : Prop where
  writer : cw = 0xFF ∨ cw < 168 ∧ (v.cw cw).ring = none ∧ v.inReset 9 cw = false
  low : 1 ≤ depth
  high : depth ≤ 16
  format : (v.fmt? fmt).isSome = true
  pixel : pix ≤ 4
  colour : cdescOk cdesc = true
  rgb : cdesc / 64 % 2 = 0 ∨ pix444 p = true

theorem bufAllocBody_ok {p r : Nat} {w : State} (hp : p = if pix = 0 then 1 else pix - 1) (hk : AllocOk v depth fmt pix cdesc cw p)
    (hw : v.allocRing ⟨depth, fmt, p, cdesc, false⟩ = .ok (r, w)) (ho : v.fstOver = false) (he : v.entriesFree 1 = true) :
    bufAllocBody h depth fmt pix cdesc cw v =
      .yes ((if cw = 0xFF then w else w.setCw cw { ring := some r }).ok h (r + ((w.ring r).map (·.first)).getD 0 * 2 ^ 16)) := by
  subst hp
  obtain ⟨hcw, hlow, hhigh, hfmt, hpix, hcol, hrgb⟩ := hk
  unfold bufAllocBody
  dsimp only
  rw [if_neg, if_neg (by omega), if_neg, if_neg, if_neg (by simp [hcol]), if_neg (by omega), hw]
  · dsimp only
    rw [ho, he, if_neg Bool.false_ne_true, if_neg]
    · rfl
    · rintro ⟨h1, h2⟩
      obtain rfl | ⟨-, -, hr⟩ := hcw
      · exact h1 rfl
      · rw [hr] at h2; cases h2
  · rintro (h1 | ⟨h1, h2⟩)
    · omega
    · rcases hrgb with h | h
      · omega
      · simp [h] at h2
  · rw [Option.isNone_iff_eq_none]
    intro h
    rw [h] at hfmt
    cases hfmt
  · rintro ⟨h1, h2⟩
    obtain rfl | ⟨-, hr, -⟩ := hcw
    · omega
    · rw [hr] at h2; cases h2

end alloc

/-! ### BUF_FREE -/

/-- The rule row of BUF_FREE. -/
def freeRule (r : Nat) : DescRule := { op := 0x31, rfn := 0, pay := [fld 16 2 r] }

theorem exec_bufFree (h : Hdr) (r : Nat) (s : State) : exec (.bufFree h r) s = .next (s.desc (freeRule r) h (bufFreeBody h r)) := rfl

section free
variable {h : Hdr} {r : Nat} {v : State} {g : Ring}

theorem bufFreeBody_none (hr : v.ring r = none) : bufFreeBody h r v = .no 4 (badRes 16) := by
  rw [bufFreeBody, hr]
  rfl

theorem bufFreeBody_chain (hr : v.ring r = some g) (hc : g.chain = true) : bufFreeBody h r v = .no 5 6 := by
  rw [bufFreeBody, hr]
  exact if_pos hc

theorem bufFreeBody_routed (hr : v.ring r = some g) (hc : g.chain = false) {p : Nat × Cw} (hp : p ∈ v.fst.cw) (hpr : p.2.ring = some r)
    (hroute : (v.route (344 + p.1)).isSome = true) : bufFreeBody h r v = .no 5 6 := by
  rw [bufFreeBody, hr]
  dsimp only
  rw [hc, if_neg Bool.false_ne_true]
  exact if_pos (List.any_eq_true.mpr ⟨p, hp, by simp [hpr, hroute]⟩)

theorem bufFreeBody_ok (hr : v.ring r = some g) (hc : g.chain = false)
    (hn : ∀ p ∈ v.fst.cw, p.2.ring = some r → v.route (344 + p.1) = none) (he : v.entriesFree 1 = true) :
    bufFreeBody h r v = if g.freeing then .yes (v.done h true 0 0) else .yes ((v.freeRing r).2.done h (v.freeRing r).1 0 0) := by
  rw [bufFreeBody, hr]
  dsimp only
  rw [hc, if_neg Bool.false_ne_true, he]
  refine if_neg ?_
  rw [List.any_eq_true]
  rintro ⟨p, hp, hx⟩
  simp only [Bool.and_eq_true, beq_iff_eq] at hx
  rw [hn p hp hx.1] at hx
  exact absurd hx.2 Bool.false_ne_true

end free

/-! ### BUF_WRITE -/

/-- The rule row of BUF_WRITE. -/
def writeRule (b : BufReq) : DescRule := { op := 0x32, rfn := 0, pay := bufPay b }

theorem exec_bufWrite (h : Hdr) (b : BufReq) (data : Option (List Byte)) (s : State) :
    exec (.bufWrite h b data) s = .next (s.desc (writeRule b) h (bufWriteBody h b data)) := rfl

section write
variable {h : Hdr} {b : BufReq} {data : Option (List Byte)} {v : State}

theorem bufWriteBody_none (hb : v.buf b.handle = none) : bufWriteBody h b data v = .no 4 (badRes 16) := by
  rw [bufWriteBody, hb]
  rfl

theorem bufWriteBody_denied (hb : (v.buf b.handle).isSome = true) (hd : v.writeDenied b.handle = true) : bufWriteBody h b data v = .no 5 6 := by
  obtain ⟨x, hx⟩ := Option.isSome_iff_exists.mp hb
  rw [bufWriteBody, hx]
  exact if_pos hd

/-- Past the checks of its handle, a write's geometry and its data decide. -/
theorem bufWriteBody_open {r : Nat} {g : Ring} {f : Fmt} (hb : (v.buf b.handle).isSome = true) (hd : v.writeDenied b.handle = false)
    (hr : v.bufRing b.handle = some (r, g)) (hf : v.fmt? g.fmt = some f) (he : v.entriesFree 1 = true) : bufWriteBody h b data v =
      match dmaBad b f.lines with
      | some k => bad k
      | none => match data with
        | none => .yes (v.done h false 7 1)
        | some d => .yes ((v.dmaWrite h b r g f d).ok h 0) := by
  obtain ⟨x, hx⟩ := Option.isSome_iff_exists.mp hb
  rw [bufWriteBody, hx]
  dsimp only
  rw [hd, hr]
  dsimp only
  rw [hf]
  dsimp only
  rw [he]
  rfl

end write

/-! ### BUF_READ -/

/-- The rule row of BUF_READ. -/
def readRule (b : BufReq) (newest info : Bool) : DescRule :=
  { op := 0x33, rfn := 0, pay := bufPay b ++ [fldBit 22 0 newest, fldBit 22 1 info] }

theorem exec_bufRead (h : Hdr) (b : BufReq) (newest info writeOk : Bool) (s : State) :
    exec (.bufRead h b newest info writeOk) s = .next (s.desc (readRule b newest info) h (bufReadBody h b newest info writeOk)) := rfl

/-- From `s` to `t` host memory alone changes. -/
def State.hostMemOnly (s t : State) : Prop := t = { s with host := { s.host with mem := t.host.mem } }

theorem State.hostMemOnly.trans {s t u : State} (h : s.hostMemOnly t) (k : t.hostMemOnly u) : s.hostMemOnly u := by
  unfold State.hostMemOnly at *
  rw [k, h]

theorem State.hostMemOnly.refl (s : State) : s.hostMemOnly s := rfl

theorem State.hostWrite_hostMemOnly (s : State) (a : Nat) (l : List Byte) : s.hostMemOnly (s.hostWrite a l) := rfl

theorem State.hostMemOnly_foldl (s : State) (l : List Nat) (a : Nat → Nat) (d : State → Nat → List Byte) :
    s.hostMemOnly (l.foldl (fun s i => s.hostWrite (a i) (d s i)) s) := by
  induction l generalizing s with
  | nil => rfl
  | cons i l ih => exact (s.hostWrite_hostMemOnly (a i) (d s i)).trans (ih _)

/-- The lines a BUF_READ writes to host memory, from `base` on. -/
def State.linesOut (s : State) (b : BufReq) (k : Nat) (g : Ring) (f : Fmt) (base : Nat) : State :=
  (List.range (dmaLines b f.lines)).foldl (fun s i => s.hostWrite (base + i * b.pitch)
    (if g.black then blackLine g.pix g.cdesc f.w
      else (s.asReader none).readLine k g.pix g.rgb f.w ((b.firstLine + i) * pitchOf g.pix f.w))) s

theorem State.linesOut_hostMemOnly (s : State) (b : BufReq) (k : Nat) (g : Ring) (f : Fmt) (base : Nat) :
    s.hostMemOnly (s.linesOut b k g f base) :=
  s.hostMemOnly_foldl _ (fun i => base + i * b.pitch) fun s i => if g.black then blackLine g.pix g.cdesc f.w
      else (s.asReader none).readLine k g.pix g.rgb f.w ((b.firstLine + i) * pitchOf g.pix f.w)

/-- The metadata record a BUF_READ writes before the lines, where it is asked for. -/
def State.infoOut (s : State) (b : BufReq) (x : Buf) (g : Ring) (info : Bool) : State :=
  if info then s.hostWrite b.host (x.info.bytes g.black) else s

theorem State.infoOut_hostMemOnly (s : State) (b : BufReq) (x : Buf) (g : Ring) (info : Bool) : s.hostMemOnly (s.infoOut b x g info) := by
  unfold State.infoOut
  split
  · exact s.hostWrite_hostMemOnly ..
  · exact .refl s

/-- The buffer in whose name a DMA ends has the DMA among its readers. -/
theorem State.buf_addReader {s : State} {k : Nat} {x : Buf} (hx : s.buf k = some x) (r : Reader) :
    ((s.addReader k r).buf k).map (·.readers.contains r) = some true := by
  rw [State.addReader, hx]
  dsimp only
  split
  · rw [hx]
    simpa using ‹x.readers.contains r = true›
  · rw [State.buf, State.setBuf]
    dsimp only
    rw [tabFind_put_self]
    simp

/-- Adding a reader touches the table of buffers alone. -/
theorem State.addReader_eq (s : State) (k : Nat) (r : Reader) :
    s.addReader k r = { s with fst := { s.fst with bufs := (s.addReader k r).fst.bufs } } := by
  unfold State.addReader
  split
  · split <;> rfl
  · rfl

section read
variable {h : Hdr} {b : BufReq} {newest info : Bool} {v : State}

theorem bufReadBody_none (writeOk : Bool) (hk : v.readTarget b.handle newest = none) :
    bufReadBody h b newest info writeOk v = .no 4 (badRes 16) := by
  rw [bufReadBody, hk]
  rfl

section found
variable {k r : Nat} {x : Buf} {g : Ring} {f : Fmt} (hk : v.readTarget b.handle newest = some k) (hx : v.buf k = some x)
  (hr : v.bufRing k = some (r, g)) (hf : v.fmt? g.fmt = some f) (hd : dmaBad b f.lines = none) (he : v.entriesFree 1 = true)
include hk hx hr hf hd he

theorem bufReadBody_faulted : bufReadBody h b newest info false v = .yes (v.done h false 7 2) := by
  rw [bufReadBody, hk]
  dsimp only
  rw [hx, hr]
  dsimp only
  rw [hf]
  dsimp only
  rw [hd]
  dsimp only
  rw [he]
  rfl

/-- A read writes host memory, and holds its buffer until its completion is posted. -/
theorem bufReadBody_read : bufReadBody h b newest info true v =
    .yes (((((v.infoOut b x g info).linesOut b k g f (b.host + if info then 64 else 0)).readDone none).addReader k (.dma (dmaKey h))).ok h k) := by
  rw [bufReadBody, hk]
  dsimp only
  rw [hx, hr]
  dsimp only
  rw [hf]
  dsimp only
  rw [hd]
  dsimp only
  rw [he]
  exact (if_neg Bool.false_ne_true).trans (if_neg Bool.false_ne_true)

end found
end read

section read
variable {s v : State} {h : Hdr} {r : DescRule} {body : State → Adm}

/-- What a read that completes leaves: the buffer with its reader, and the frame store's bytes and the other units as they were. -/
theorem State.read_completes (hv : s.admits r h v) {w : State} (hw : v.hostMemOnly w) {k : Nat} {x : Buf} (hx : v.buf k = some x)
    (hb : body v = .yes (((w.readDone none).addReader k (.dma (dmaKey h))).ok h k)) :
    v.posts (s.desc r h body) h 0 k ∧ ((s.desc r h body).buf k).map (·.readers.contains (.dma (dmaKey h))) = some true ∧
      (s.desc r h body).fst.mem = v.fst.mem ∧ (s.desc r h body).xpt = v.xpt ∧ (s.desc r h body).che = v.che ∧ (s.desc r h body).sou = v.sou := by
  have hbuf := State.buf_addReader (s := w.readDone none) (k := k) (x := x) (by rw [hw]; exact hx) (.dma (dmaKey h))
  have ha := (w.readDone none).addReader_eq k (.dma (dmaKey h))
  generalize (w.readDone none).addReader k (.dma (dmaKey h)) = u at *
  obtain ⟨t, ht, hp, hh, -⟩ := State.desc_done hv hb (by rw [ha, hw]; rfl) (by rw [ha, hw]; rfl) (by rw [ha, hw]; rfl)
  rw [ht]
  refine ⟨hp, by rw [State.buf_congr hh.fst]; exact hbuf, ?_, ?_, ?_, ?_⟩
  · rw [hh.fst, ha, hw]; rfl
  · rw [hh.xpt, ha, hw]; rfl
  · rw [hh.che, ha, hw]; rfl
  · rw [hh.sou, ha, hw]; rfl

end read

/-- Settles O23: each descriptor by its own checks in their order. -/
theorem bufferDescriptors : Obligations.BufferDescriptors := by
  refine ⟨fun s v h depth fmt pix cdesc cw hv => ⟨fun hc hr => ?_, ?_⟩, fun s v h r hv => ?_, fun s v h b data hv => ?_,
    fun s v h b newest info writeOk hv => ?_⟩
  · exact ⟨_, exec_bufAlloc .., State.desc_refused hv (bufAllocBody_denied hc hr)⟩
  · rintro p r w u hp hcw hlow hhigh hfmt hpix hcol hrgb hw ho rfl hi
    have hy := bufAllocBody_ok (h := h) hp ⟨hcw, hlow, hhigh, hfmt, hpix, hcol, hrgb⟩ hw ho hv.2.2.2
    exact (exec_bufAlloc ..).trans (congrArg _ (State.desc_yes hv.1 hy hi))
  · refine ⟨fun hr => ⟨_, exec_bufFree .., State.desc_refused hv (bufFreeBody_none hr)⟩,
      fun g hr hc => ⟨_, exec_bufFree .., State.desc_refused hv (bufFreeBody_chain hr hc)⟩,
      fun g p hr hc hp hpr hroute => ⟨_, exec_bufFree .., State.desc_refused hv (bufFreeBody_routed hr hc hp hpr hroute)⟩,
      fun g hr hc hn => ⟨fun hf => ?_, fun hf hi => ?_⟩⟩
    · have hy := bufFreeBody_ok (h := h) hr hc hn hv.2.2.2
      rw [hf] at hy
      exact ⟨_, exec_bufFree .., State.desc_completes hv hy (.refl v) rfl⟩
    · have hy := bufFreeBody_ok (h := h) hr hc hn hv.2.2.2
      rw [hf] at hy
      exact (exec_bufFree ..).trans (congrArg _ (State.desc_yes hv.1 hy hi))
  · refine ⟨fun hb => ⟨_, exec_bufWrite .., State.desc_refused hv (bufWriteBody_none hb)⟩,
      fun hb hd => ⟨_, exec_bufWrite .., State.desc_refused hv (bufWriteBody_denied hb hd)⟩, fun r g f hb hd hr hf => ?_⟩
    have hy := bufWriteBody_open (h := h) (data := data) hb hd hr hf hv.2.2.2
    refine ⟨fun k hk => ?_, fun hk hn => ?_, fun d hk hn hi => ?_⟩
    · exact ⟨_, exec_bufWrite .., State.desc_refused hv (hy.trans (by rw [hk]; rfl))⟩
    · exact ⟨_, exec_bufWrite .., State.desc_completes hv (hy.trans (by rw [hk, hn])) (.refl v) rfl⟩
    · exact (exec_bufWrite ..).trans (congrArg _ (State.desc_yes hv.1 (hy.trans (by rw [hk, hn])) hi))
  · refine ⟨fun hk => ⟨_, exec_bufRead .., State.desc_refused hv (bufReadBody_none writeOk hk)⟩,
      fun k x r g f hk hx hr hf hd => ⟨?_, ?_⟩⟩
    · rintro rfl
      exact ⟨_, exec_bufRead .., State.desc_completes hv (bufReadBody_faulted hk hx hr hf hd hv.2.2.2) (.refl v) rfl⟩
    · rintro rfl
      have hw := (v.infoOut_hostMemOnly b x g info).trans (State.linesOut_hostMemOnly _ b k g f (b.host + if info then 64 else 0))
      exact ⟨_, exec_bufRead .., State.read_completes hv hw hx (bufReadBody_read hk hx hr hf hd hv.2.2.2)⟩

end Sys2Proof.Machine

/-! Capture writers and the buffers they fill (O24); memory errors (O25). -/
namespace Sys2Proof.Machine

/-! ### A frame begins -/

theorem exec_cwFrameStart {s : State} {k : Fin 168} {t : Nat} (hr : (s.at_ t).cwReady k = true) (hst : (s.cw k).st ≤ 1) (p : Pic) :
    exec (.cwFrameStart k p t) s = .next ((s.at_ t).cwBegin k p t) := by
  have h : ((s.at_ t).cw k).st ≤ 1 := hst
  exact congrArg _ (if_pos (by simp [hr, h]))

theorem exec_cwResume {s : State} {k : Fin 168} {t : Nat} (hr : (s.at_ t).cwReady k = true) (hst : (s.cw k).st = 2 ∨ (s.cw k).st = 3) (p : Pic) :
    exec (.cwResume k p t) s = .next ((s.at_ t).cwBegin k p t) := by
  have h : ((s.at_ t).cw k).st = 2 ∨ ((s.at_ t).cw k).st = 3 := hst
  exact congrArg _ (if_pos (by simpa [hr] using h))

theorem State.cwBegin_skip {s : State} {k r : Nat} (hr : (s.cw k).ring = some r) (hw : s.writeTarget r = none) (p : Pic) (t : Nat) :
    s.cwBegin k p t = (s.inc (R.FST_CW_SKIP k)).setCw k { s.cw k with st := 1, filling := none, start := t, coming := [], got := 0 } := by
  rw [State.cwBegin, hr]
  dsimp only
  rw [hw]

/-- The overwrite of a frame that no reader has seen is counted. -/
def State.overwrites (s : State) (k : Nat) (lost : Bool) : State := if lost then s.inc (R.FST_CW_OVERWRITE k) else s

theorem State.cwBegin_fills {s : State} {k r b : Nat} {lost : Bool} (hr : (s.cw k).ring = some r) (hw : s.writeTarget r = some (b, lost))
    (p : Pic) (t : Nat) : s.cwBegin k p t = ((s.overwrites k lost).beginWrite r b).setCw k
      { (s.overwrites k lost).cw k with st := 1, filling := some b, start := t, coming := p, got := 0 } := by
  rw [State.cwBegin, hr]
  dsimp only
  rw [hw]
  rfl

theorem State.cw_setCw_self (s : State) (k : Nat) (c : Cw) : (s.setCw k c).cw k = c := tabGet_set_self ..

theorem SOU_DROP_CNT_ne_OVERWRITE (u : Nat) (k : Fin 168) : R.SOU_DROP_CNT u ≠ R.FST_CW_OVERWRITE k := by
  unfold R.SOU_DROP_CNT R.FST_CW_OVERWRITE quadWin
  omega

theorem State.rd_foldl_drop (s : State) (l : List (Nat × Unit)) (k : Fin 168) :
    (l.foldl (fun s p => s.inc (R.SOU_DROP_CNT p.1)) s).rd (R.FST_CW_OVERWRITE k) = s.rd (R.FST_CW_OVERWRITE k) := by
  induction l generalizing s with
  | nil => rfl
  | cons p l ih => rw [List.foldl_cons, ih, State.rd_inc_ne _ (SOU_DROP_CNT_ne_OVERWRITE p.1 k).symm]

/-- What begins to write a buffer counts drops of units alone. -/
theorem State.rd_beginWrite (s : State) (r b : Nat) (k : Fin 168) :
    (s.beginWrite r b).rd (R.FST_CW_OVERWRITE k) = s.rd (R.FST_CW_OVERWRITE k) := by
  unfold State.beginWrite
  split
  · rfl
  · extract_lets w1 w2
    have h1 : w1.rd (R.FST_CW_OVERWRITE k) = s.rd (R.FST_CW_OVERWRITE k) := by
      unfold w1
      split
      · rfl
      · exact s.rd_foldl_drop _ k
    have h2 : w2.rd (R.FST_CW_OVERWRITE k) = s.rd (R.FST_CW_OVERWRITE k) := h1
    split
    · split
      · exact h2
      · exact h2
    · exact h2

theorem State.beginWrite_mem (s : State) (r b : Nat) : (s.beginWrite r b).fst.mem = s.fst.mem :=
  (State.beginWrite_kept (.refl [.regs, .fst] s) r b (Sub.self _)).2.2 .fstMem (by decide)

theorem State.overwrites_mem (s : State) (k : Nat) (lost : Bool) : (s.overwrites k lost).fst.mem = s.fst.mem := by
  unfold State.overwrites
  split <;> rfl

theorem State.rd_overwrites (s : State) (k : Nat) (lost : Bool) : ((s.overwrites k lost).rd (R.FST_CW_OVERWRITE k)).toNat =
    min 0xFFFFFFFF ((s.rd (R.FST_CW_OVERWRITE k)).toNat + if lost then 1 else 0) := by
  unfold State.overwrites
  split
  · exact s.rd_inc _
  · have := (s.rd (R.FST_CW_OVERWRITE k)).isLt
    omega

/-! ### A frame is complete -/

theorem exec_cwFrameComplete {s : State} {k : Fin 168} {t b : Nat} {g : Ring} {f : Fmt} {r : Route} (hb : (s.cw k).filling = some b)
    (hg : (s.cw k).ring.bind s.ring = some g) (hr : s.route (344 + k) = some r) (hf : s.fmt? g.fmt = some f) (seen : Option Pic) :
    exec (.cwFrameComplete k seen t) s =
      let w := (s.at_ t).cwFrame r.src seen
      let first := (s.cw k).start + (f.f1 - 1) * f.period / f.totL
      let m : Meta := { ptpNs := first / ticksPerNs, rfn := if (s.at_ t).timeValid then (s.at_ t).rfnAt first else 0, fmt := g.fmt,
                        pix := g.pix, inter := f.inter, sig := w.sig, atc := w.atc }
      .next (((((s.at_ t).storeLines b g.pix f.w w.d w.pic).completeBuf b m []).setCw k
        { s.cw k with filling := none, coming := [], got := 0 }).inc (R.FST_CW_FRAMES k)) := by
  have hcw : (s.at_ t).cw k = s.cw k := rfl
  have hg' : (s.cw k).ring.bind (s.at_ t).ring = some g := hg
  have hr' : (s.at_ t).route (344 + k) = some r := hr
  have hf' : (s.at_ t).fmt? g.fmt = some f := hf
  have e : exec (.cwFrameComplete k seen t) s = execCwFrameComplete k seen t s := rfl
  rw [e, execCwFrameComplete]
  dsimp only
  rw [hcw, hb, hg', hr']
  dsimp only
  rw [hf']

section complete
variable {s : State} {hnd : Nat} {b : Buf} {r : Nat} {g : Ring} (hb : s.buf hnd = some b) (hr : b.ring = some r) (hg : s.ring r = some g)
include hb hr hg

/-- The buffer that is complete is the newest of its ring. -/
theorem State.completeBuf_spec (m : Meta) (l : List (Nat × Nat)) :
    (s.completeBuf hnd m l).buf hnd = some { b with done := s.fst.doneSeq + 1, doneAt := s.now, info := m, absent := l } ∧
      (s.completeBuf hnd m l).ring r = some { g with newest := some hnd, black := false } ∧ (s.completeBuf hnd m l).regs = s.regs := by
  unfold State.completeBuf
  rw [hb]
  dsimp only
  split
  · rename_i heq
    rw [hr, Option.bind_some] at heq
    obtain ⟨g', hg', he⟩ := Option.map_eq_some_iff.mp heq
    obtain rfl : g' = g := Option.some.inj (hg'.symm.trans hg)
    cases he
    exact ⟨tabFind_put_self .., tabFind_put_self .., rfl⟩
  · rename_i heq
    rw [hr, Option.bind_some] at heq
    exact absurd ((Option.map_eq_none_iff.mp heq).symm.trans hg) nofun

end complete

/-! ### The last release, and the switch of a granule list -/

theorem exec_bufferRefRelease_last {s : State} {hnd : Nat} {b : Buf} (hb : s.buf hnd = some b) (hf : b.freeing = true)
    (hr : ∀ r ∈ b.readers, s.stillHolds hnd r = false) :
    exec (.bufferRefRelease hnd) s = .next ((s.setBuf hnd { b with readers := [] }).dropBuf hnd) := by
  have e : exec (.bufferRefRelease hnd) s = execBufferRefRelease hnd s := rfl
  rw [e, execBufferRefRelease, hb]
  refine congrArg _ (if_pos ?_)
  simpa [hf] using hr

theorem State.foldl_copyGran_regs (s : State) (l : List (Nat × Nat)) : (l.foldl (fun s p => s.copyGran p.1 p.2) s).regs = s.regs := by
  induction l generalizing s with
  | nil => rfl
  | cons p l ih => rw [List.foldl_cons, ih]; rfl

theorem exec_granuleListSwitch_moved {s : State} {hnd : Nat} {b : Buf} {l : List Nat} (hb : s.buf hnd = some b) (hm : b.moved = some l) :
    exec (.granuleListSwitch hnd) s = .next ((((b.grans.zip l).filter fun p => p.1 != p.2).foldl (fun s p => s.copyGran p.1 p.2) s).setBuf hnd
      { b with grans := l, moved := none }) := by
  have e : exec (.granuleListSwitch hnd) s = execGranuleListSwitch hnd s := rfl
  rw [e, execGranuleListSwitch, hb]
  dsimp only
  rw [hm]

/-- Settles O24: each event under the condition that makes it the writer's or the buffer's. -/
theorem captureWriters : Obligations.CaptureWriters := by
  refine ⟨fun s k p t hr hst => exec_cwFrameStart hr hst p, fun s k p t r hr hst hring hw => ?_, fun s k p t r b lost hr hst hring hw => ?_,
    fun s k p t hr hst => exec_cwResume hr hst p, ?_, fun s hnd b m l r g hb hr hg => State.completeBuf_spec hb hr hg m l,
    fun s hnd b hb hf hr => exec_bufferRefRelease_last hb hf hr, fun s hnd b l hb hm => ?_⟩
  · exact (exec_cwFrameStart hr hst p).trans (congrArg _ (State.cwBegin_skip (s := s.at_ t) hring hw p t))
  · refine ⟨_, exec_cwFrameStart hr hst p, ?_⟩
    rw [State.cwBegin_fills (s := s.at_ t) hring hw, State.cw_setCw_self, State.rd_setCw, State.rd_beginWrite, State.rd_overwrites]
    refine ⟨rfl, rfl, rfl, rfl, rfl, ?_, rfl⟩
    exact ((State.beginWrite_mem _ r b).trans ((s.at_ t).overwrites_mem k lost) :)
  · rintro s k seen t b first g f r w m hb hg hr hf rfl rfl rfl
    exact exec_cwFrameComplete hb hg hr hf seen
  · refine ⟨_, exec_granuleListSwitch_moved hb hm, tabFind_put_self .., ?_⟩
    exact State.foldl_copyGran_regs ..

end Sys2Proof.Machine

/-! Memory errors (O25). -/
namespace Sys2Proof.Machine

theorem FST_CTL_ne_ECC_CORR : R.FST_CTL ≠ R.FST_ECC_CORR := by decide

/-- The corrections of granule `g` that lie within the hour before `t`, and the one at `t`. -/
def State.recentCorr (s : State) (g t : Nat) : List Nat := (tabGet [] s.fst.corr g).filter (fun x => decide (t < x + hour)) ++ [t]

/-- `s` with a corrected word counted, and the corrections of granule `g` noted. -/
def State.corrNoted (s : State) (g : Nat) (l : List Nat) : State :=
  { s.inc R.FST_ECC_CORR with fst := { s.fst with corr := tabSet [] s.fst.corr g l } }

theorem State.corrected_eq (s : State) (g t : Nat) : s.corrected g t =
    if max 1 (s.get R.FST_CTL F.FST_CTL_CORR_THRESH) ≤ (s.recentCorr g t).length then
      ((s.corrNoted g []).raise Hist.fst F.FST_HIST_ECC_CORR_THRESH).reportError (0x60000 + g) 0x01
    else s.corrNoted g (s.recentCorr g t) := by
  have hg : (s.inc R.FST_ECC_CORR).get R.FST_CTL F.FST_CTL_CORR_THRESH = s.get R.FST_CTL F.FST_CTL_CORR_THRESH :=
    s.get_inc_ne _ FST_CTL_ne_ECC_CORR
  have hl : (tabGet [] (s.inc R.FST_ECC_CORR).fst.corr g).filter (fun x => decide (t < x + hour)) ++ [t] = s.recentCorr g t := rfl
  unfold State.corrected
  dsimp only
  rw [hg, hl]
  by_cases h : max 1 (s.get R.FST_CTL F.FST_CTL_CORR_THRESH) ≤ (s.recentCorr g t).length
  · rw [decide_eq_true h, if_pos h]
    rfl
  · rw [decide_eq_false h, if_neg h]
    rfl

theorem State.recentCorr_length (s : State) (g t : Nat) :
    (s.recentCorr g t).length = ((tabGet [] s.fst.corr g).filter (fun x => decide (t < x + hour))).length + 1 := by
  rw [State.recentCorr, List.length_append, List.length_singleton]

theorem exec_eccUncorrectable (s : State) (g : Fin 16384) (off t w : Nat) (hw : w = (g.val * granBytes + off % granBytes) / 8) :
    exec (.eccUncorrectable g off t) s =
      .next (((({ s.at_ t with fst := { s.fst with badW := if s.fst.badW.contains w then s.fst.badW else s.fst.badW ++ [w] } } : State).inc
        R.FST_ECC_UNCORR).raise Hist.fst F.FST_HIST_ECC_UNCORR).reportError (0x60000 + g.val) 0x02) := by
  subst hw
  have e : exec (.eccUncorrectable g off t) s = execEccUncorrectable g off t s := rfl
  have hf : (s.at_ t).fst = s.fst := rfl
  rw [e, execEccUncorrectable]
  dsimp only
  rw [hf]
  split <;> rfl

/-- Settles O25: a corrected word below the threshold, the one that reaches it, a word that fails, and the two kinds of pass. -/
theorem memoryErrors : Obligations.MemoryErrors := by
  refine ⟨fun s g t hn => ?_, fun s g t hn => ?_, fun s g off t w hw => exec_eccUncorrectable s g off t w hw,
    fun s l t h => congrArg _ (if_pos h), fun s l t h => congrArg _ (if_neg h)⟩
  · have e : exec (.eccCorrected g t) s = .next ((s.at_ t).corrNoted g ((s.at_ t).recentCorr g t)) :=
      congrArg _ (((s.at_ t).corrected_eq g t).trans (if_neg (by rw [State.recentCorr_length]; exact Nat.not_le.mpr hn)))
    exact ⟨_, e, (s.at_ t).rd_inc _, tabGet_set_self .., fun a ha => (s.at_ t).rd_inc_ne ha, rfl⟩
  · exact congrArg _ (((s.at_ t).corrected_eq g t).trans (if_pos (by rw [State.recentCorr_length]; exact hn)))

end Sys2Proof.Machine

/-! CTX_ADMIT, CTX_PARAM and CTX_RELEASE (O26). -/
namespace Sys2Proof.Machine

/-- A flag that no element of a list sets. -/
theorem any_eq_false_of_forall {α : Type} {l : List α} {p : α → Bool} (h : ∀ a ∈ l, p a = false) : l.any p = false := by
  rw [List.any_eq_false]
  exact fun a ha => by rw [h a ha]; exact Bool.false_ne_true

/-! ### CTX_ADMIT -/

theorem exec_ctxAdmit (h : Hdr) (ring engine offset : Nat) (x : ConvSet) (s : State) : exec (.ctxAdmit h ring engine offset x) s =
    .next (s.desc (admitRule ring engine offset x) h (ctxAdmitBody h ring engine offset x)) := rfl

section admission
variable {h : Hdr} {ring engine offset : Nat} {x : ConvSet} {v : State}

theorem ctxAdmitBody_none (hr : v.ring ring = none) : ctxAdmitBody h ring engine offset x v = .no 4 (badRes 16) := by
  rw [ctxAdmitBody, hr]
  rfl

section ring
variable {g : Ring} (hr : v.ring ring = some g) (hd : 2 ≤ g.depth) (hf : g.freeing = false)
include hr hd hf

theorem ctxAdmitBody_engine (h1 : 12 ≤ engine) (h2 : engine ≠ 0xFF) : ctxAdmitBody h ring engine offset x v = .no 4 (badRes 18) := by
  rw [ctxAdmitBody, hr]
  dsimp only
  rw [if_neg (by simp [hf]; omega), if_pos ⟨h1, h2⟩]
  rfl

theorem ctxAdmitBody_built {spec : CtxSpec} {c r : Nat} {b : Build} {w : State} (he : engine < 12 ∨ engine = 0xFF)
    (hs : v.convSpec g.fmt g.pix g.cdesc x offset = .ok spec) (hfree : v.entriesFree 1 = true)
    (hb : Build.ctx { s := v } ⟨ring, spec, false, if engine = 0xFF then none else some engine, none⟩ = (c, r, b)) (hc : b.codes = [])
    (hl : ∀ l ∈ spec.luts, v.bankInUse (c / 16) l.1 = false) (hw : w = b.s.setDesc r (presetDesc spec.par.preset g.cdesc spec.outPix))
    (hfit : v.fitOf w = .fits) : ctxAdmitBody h ring engine offset x v = .yes (w.ok h (ctxResult w c r)) := by
  rw [ctxAdmitBody, hr]
  dsimp only
  rw [if_neg (by simp [hf]; omega), if_neg (by omega), hs]
  dsimp only
  rw [hfree, if_pos rfl, hb, ctxSettle, any_eq_false_of_forall hl, if_neg Bool.false_ne_true]
  subst hw
  exact Build.settle_fits (b := { b with s := b.s.setDesc r (presetDesc spec.par.preset g.cdesc spec.outPix) }) hc hfit _

end ring
end admission

/-! ### CTX_PARAM -/

theorem exec_ctxParam (h : Hdr) (c mask offset : Nat) (x : ConvSet) (s : State) : exec (.ctxParam h c mask offset x) s =
    .next (s.desc (paramRule c mask offset x) h (ctxParamBody h c mask offset x)) := rfl

/-- Nothing more is needed after a change than before it. -/
def State.needsNoMore (v w : State) : Prop :=
  (∀ e < 12, w.engLoad4 e ≤ v.engLoad4 e) ∧ w.fstBits ≤ v.fstBits ∧ w.hsfBits ≤ v.hsfBits ∧ w.fst.bufs.length = v.fst.bufs.length

theorem Build.settleMore_ok {v : State} {b : Build} (hc : b.codes = []) (hf : v.fitOf b.s = .fits ∨ v.needsNoMore b.s) (k : State → Adm) :
    b.settleMore v k = k b.s := by
  unfold Build.settleMore
  extract_lets same
  rcases hf with hf | ⟨h1, h2, h3, h4⟩
  · rw [Build.settle_fits hc hf, ite_self]
  · refine if_pos ?_
    rw [hc, Bool.and_eq_true]
    refine ⟨rfl, ?_⟩
    simp only [same, Bool.and_eq_true, List.all_eq_true, List.mem_range, decide_eq_true_eq, beq_iff_eq]
    exact ⟨⟨⟨h1, h2⟩, h3⟩, h4⟩

theorem State.loadLuts_ctx (s : State) (e : Nat) (l : List (Nat × List Nat)) (c : Nat) : (s.loadLuts e l).ctx c = s.ctx c := by
  unfold State.loadLuts
  induction l generalizing s with
  | nil => rfl
  | cons p l ih => rw [List.foldl_cons, ih]; rfl

theorem State.ctx_setCtx_self (s : State) (c : Nat) (x : Ctx) : (s.setCtx c x).ctx c = some x := tabFind_put_self ..

theorem Ctx.change_next (x : Ctx) (p : CtxPar) (w : List Nat) (run park : Bool) : (x.change p w run park).next = some p := by
  unfold Ctx.change
  dsimp only
  split
  · rfl
  · split
    · split <;> rfl
    · split <;> rfl

theorem Ctx.change_par (x : Ctx) (p : CtxPar) (w : List Nat) (run park : Bool) : (x.change p w run park).par = x.par := by
  unfold Ctx.change
  dsimp only
  split
  · rfl
  · split
    · split <;> rfl
    · split <;> rfl

/-- A change that is built waits in its context, whose parameters in force stay. -/
theorem State.paramBuild_ctx {v : State} {c : Nat} {y : Ctx} {p : CtxPar} {luts : List (Nat × List Nat)} {run park : Bool}
    (hc : (v.paramBuild c y p luts run park).codes = []) :
    ∃ z, (v.paramBuild c y p luts run park).s.ctx c = some z ∧ z.next = some p ∧ z.par = y.par := by
  unfold State.paramBuild at hc ⊢
  dsimp only at hc ⊢
  split at hc
  · simp at hc
  · dsimp only
    rw [State.loadLuts_ctx, State.ctx_setCtx_self]
    exact ⟨_, rfl, Ctx.change_next .., Ctx.change_par ..⟩

section param
variable {h : Hdr} {c mask offset : Nat} {x : ConvSet} {v : State}

theorem ctxParamBody_none (hc : v.ctx c = none) : ctxParamBody h c mask offset x v = .no 4 (badRes 16) := by
  rw [ctxParamBody, hc]
  rfl

theorem ctxParamBody_built {y : Ctx} {p : CtxPar} {luts : List (Nat × List Nat)} {b : Build} (hy : v.ctx c = some y)
    (hs : v.paramSpec y mask offset x = .ok (p, luts)) (hl : ∀ l ∈ luts, v.bankInUse (y.engine c) l.1 = false)
    (hb : b = v.paramBuild c y p luts (maskBit mask 5) x.park) (hc : b.codes = []) (hf : v.fitOf b.s = .fits ∨ v.needsNoMore b.s) :
    ctxParamBody h c mask offset x v = .yes (b.s.ok h 0) := by
  rw [ctxParamBody, hy]
  dsimp only
  rw [hs]
  dsimp only
  rw [any_eq_false_of_forall hl, if_neg Bool.false_ne_true, ← hb]
  exact Build.settleMore_ok hc hf _

end param

/-! ### CTX_RELEASE -/

/-- The rule row of CTX_RELEASE. -/
def releaseRule (unit : Bool) (n : Nat) : DescRule := { op := 0x21, rfn := 0, pay := [fldBit 16 0 unit, fld 18 2 n], sig := true }

theorem exec_ctxRelease (h : Hdr) (unit : Bool) (n : Nat) (s : State) :
    exec (.ctxRelease h unit n) s = .next (s.desc (releaseRule unit n) h (ctxReleaseBody h unit n)) := rfl

section release
variable {h : Hdr} {n : Nat} {v : State}

theorem ctxReleaseBody_none (hn : v.ctx n = none) : ctxReleaseBody h false n v = .no 4 (badRes 18) := by
  rw [ctxReleaseBody, hn]
  rfl

theorem ctxReleaseBody_some {x : Ctx} (hn : v.ctx n = some x) (he : v.entriesFree 1 = true) :
    ctxReleaseBody h false n v = if x.chain then denied 6 else .yes ((v.releaseCtx n).ok h 0) := by
  rw [ctxReleaseBody, hn, he]
  rfl

theorem ctxReleaseBody_noChain (hn : v.chainOf n = none) : ctxReleaseBody h true n v = .no 4 (badRes 18) := by
  rw [ctxReleaseBody, hn]
  rfl

theorem ctxReleaseBody_chain (hn : (v.chainOf n).isSome = true) (he : v.entriesFree 1 = true) :
    ctxReleaseBody h true n v = if v.feeds (352 + n) then denied 6 else .yes ((v.releaseChain n).ok h 0) := by
  obtain ⟨c, hc⟩ := Option.isSome_iff_exists.mp hn
  rw [ctxReleaseBody, hc, he]
  rfl

end release

/-- Settles O26: each descriptor by its own checks in their order. -/
theorem contextDescriptors : Obligations.ContextDescriptors := by
  refine ⟨fun s v h ring engine offset x hv => ?_, fun s v h c mask offset x hv => ?_, fun s v h n hv => ?_, fun s v h n hv => ?_⟩
  · refine ⟨fun hr => ⟨_, exec_ctxAdmit .., State.desc_refused hv (ctxAdmitBody_none hr)⟩,
      fun g hr hd hf h1 h2 => ⟨_, exec_ctxAdmit .., State.desc_refused hv (ctxAdmitBody_engine hr hd hf h1 h2)⟩,
      fun g spec c r b w hr hd hf he hs hb hc hl hw hfit hi => ?_⟩
    exact (exec_ctxAdmit ..).trans (congrArg _ (State.desc_yes hv.1 (ctxAdmitBody_built hr hd hf he hs hv.2.2.2 hb hc hl hw hfit) hi))
  · refine ⟨fun hc => ⟨_, exec_ctxParam .., State.desc_refused hv (ctxParamBody_none hc)⟩, fun y p luts b hy hs hl hb hc hf hi => ⟨?_, ?_⟩⟩
    · exact (exec_ctxParam ..).trans (congrArg _ (State.desc_yes hv.1 (ctxParamBody_built hy hs hl hb hc hf) hi))
    · subst hb
      exact State.paramBuild_ctx hc
  · refine ⟨fun x hn hc => ?_, fun hn => ⟨_, exec_ctxRelease .., State.desc_refused hv (ctxReleaseBody_none hn)⟩, fun x hn hc hi => ?_⟩
    · exact ⟨_, exec_ctxRelease .., State.desc_refused hv ((ctxReleaseBody_some hn hv.2.2.2).trans (by rw [hc]; rfl))⟩
    · have hy := ctxReleaseBody_some (h := h) hn hv.2.2.2
      rw [hc] at hy
      exact (exec_ctxRelease ..).trans (congrArg _ (State.desc_yes hv.1 hy hi))
  · refine ⟨fun hn => ⟨_, exec_ctxRelease .., State.desc_refused hv (ctxReleaseBody_noChain hn)⟩, fun hn hf => ?_, fun hn hf hi => ?_⟩
    · exact ⟨_, exec_ctxRelease .., State.desc_refused hv ((ctxReleaseBody_chain hn hv.2.2.2).trans (by rw [hf]; rfl))⟩
    · have hy := ctxReleaseBody_chain (h := h) hn hv.2.2.2
      rw [hf] at hy
      exact (exec_ctxRelease ..).trans (congrArg _ (State.desc_yes hv.1 hy hi))

end Sys2Proof.Machine

/-! Contexts at their frame boundaries (O27). -/
namespace Sys2Proof.Machine

theorem State.ctx_at (s : State) (t c : Nat) : (s.at_ t).ctx c = s.ctx c := rfl

section boundary
variable {s : State} {c : Fin 192} {x : Ctx} (hx : s.ctx c = some x) (t : Nat)
include hx

theorem exec_ctxParamApply_between (hr : x.st = .running) (hp : x.nextSt ≠ some .parked) (ha : x.active = false) (hs : s.inSlice c = false) :
    exec (.ctxParamApply c t) s = .next ((s.at_ t).applyParam c) := by
  have hs' : (s.at_ t).inSlice c = false := hs
  have e : exec (.ctxParamApply c t) s = execCtxParamApply c t s := rfl
  rw [e, execCtxParamApply]
  dsimp only
  rw [State.ctx_at, hx]
  exact congrArg _ (if_pos ⟨hr, hp, by simp [ha], by simp [hs']⟩)

theorem exec_ctxParkStop_told (hp : x.nextSt = some .parked) (ha : x.active = false) (hs : s.inSlice c = false) :
    exec (.ctxParkStop c t) s = .next ((s.at_ t).setCtx c { x with st := .parked, nextSt := none, starting := false }) := by
  have hs' : (s.at_ t).inSlice c = false := hs
  have e : exec (.ctxParkStop c t) s = execCtxParkStop c t s := rfl
  rw [e, execCtxParkStop]
  dsimp only
  rw [State.ctx_at, hx]
  exact congrArg _ (if_pos ⟨hp, by simp [ha], by simp [hs']⟩)

theorem exec_ctxReleaseStop_released (hr : x.release = true) (hs : s.inSlice c = false) :
    exec (.ctxReleaseStop c t) s = .next ((s.at_ t).freeCtx c) := by
  have hs' : (s.at_ t).inSlice c = false := hs
  have e : exec (.ctxReleaseStop c t) s = execCtxReleaseStop c t s := rfl
  rw [e, execCtxReleaseStop]
  dsimp only
  rw [State.ctx_at, hx]
  exact congrArg _ (if_pos ⟨hr, by simp [hs']⟩)

theorem exec_ctxMoveComplete_moving {c' : Nat} (hm : x.st = .moving) (hc : x.moveTo = some c') : exec (.ctxMoveComplete c t) s =
    .next ((((s.at_ t).letGo c).setCtx c { x.idle with st := .running, frameAt := (s.at_ t).ctxFrameAt c x t }).renumber c c') := by
  have e : exec (.ctxMoveComplete c t) s = execCtxMoveComplete c t s := rfl
  rw [e, execCtxMoveComplete]
  dsimp only
  rw [State.ctx_at, hx]
  dsimp only
  rw [hc]
  exact congrArg _ (if_pos hm)

/-- A context at the boundary it starts from, with the parameters that waited for it. -/
def State.ctxStarted (s : State) (c : Nat) (x : Ctx) : State := ((s.letGo c).setCtx c { x.idle with starting := false }).applyParam c

theorem exec_ctxRunStart_starting (hr : x.st = .running) (hst : x.starting = true) {y : Ctx} (hy : ((s.at_ t).ctxStarted c x).ctx c = some y) :
    exec (.ctxRunStart c t) s =
      .next (((s.at_ t).ctxStarted c x).setCtx c { y with frameAt := ((s.at_ t).ctxStarted c x).ctxFrameAt c y t }) := by
  have e : exec (.ctxRunStart c t) s = execCtxRunStart c t s := rfl
  unfold State.ctxStarted at hy ⊢
  rw [e, execCtxRunStart]
  dsimp only
  rw [State.ctx_at, hx]
  dsimp only
  rw [hy]
  exact congrArg _ (if_pos ⟨hr, hst⟩)

end boundary

/-- The working-store buffers that a context no longer needs are freed: the frame store alone changes. -/
theorem State.foldl_freeWork (s : State) (c : Nat) (l : List Nat) :
    (l.foldl (fun s h => (s.dropReader h (.ctxStore c)).freeBuf h) s).che = s.che ∧
      (l.foldl (fun s h => (s.dropReader h (.ctxStore c)).freeBuf h) s).regs = s.regs := by
  induction l generalizing s with
  | nil => exact ⟨rfl, rfl⟩
  | cons k l ih =>
    have hk := State.freeBuf_kept (State.dropReader_kept (.refl [.fst] s) k (.ctxStore c) (Sub.self _)) k (Sub.self _)
    exact ⟨(ih _).1.trans (hk.2.2 .che (by decide)), (ih _).2.trans (hk.2.2 .regs (by decide))⟩

/-- The parameters in force are those that waited, and none waits any more. -/
theorem State.applyParam_ctx {s : State} {c : Nat} {x : Ctx} (hx : s.ctx c = some x) : ∃ w h, (s.applyParam c).ctx c =
    some { x with par := x.next.getD x.par, next := none, work := w, hist := h } ∧ (s.applyParam c).regs = s.regs := by
  unfold State.applyParam
  rw [hx]
  dsimp only
  cases hn : x.next with
  | none => exact ⟨x.work, x.hist, by rw [hx, Option.getD_none, ← hn], rfl⟩
  | some p =>
    dsimp only
    refine ⟨x.work.take (((s.ctxFigWith x p).map ChainFig.store).getD 0),
      x.hist.filter fun e => (x.work.take (((s.ctxFigWith x p).map ChainFig.store).getD 0)).contains e.buf, ?_, (State.foldl_freeWork _ c _).2⟩
    rw [State.ctx_congr (State.foldl_freeWork _ c _).1, State.ctx_setCtx_self]
    rfl

theorem State.letGo_regs (s : State) (c : Nat) : (s.letGo c).regs = s.regs :=
  (State.letGo_kept (.refl [.fst] s) c (Sub.self _)).2.2 .regs (by decide)

theorem State.ctxStarted_spec (s : State) (c : Nat) (x : Ctx) : ∃ w h, (s.ctxStarted c x).ctx c =
    some { x.idle with starting := false, par := x.next.getD x.par, next := none, work := w, hist := h } ∧ (s.ctxStarted c x).regs = s.regs := by
  obtain ⟨w, h, hc, hr⟩ := State.applyParam_ctx (((s.letGo c).ctx_setCtx_self c { x.idle with starting := false }))
  exact ⟨w, h, hc, hr.trans (s.letGo_regs c)⟩

/-! ### Orphans -/

/-- The engine on which the orphan in slot `c` would run again. -/
def State.orphanEngine (s : State) (c : Nat) (x : Ctx) : Option Nat :=
  s.bestEngine fun k => s.engOpen k && (k == c / 16 || (s.freeSlot k).isSome) &&
    decide ((((s.ctxFig x).map ChainFig.load4).getD 0 * 115 : Nat) ≤ s.engSpare k)

/-- The slot it would run in on engine `e`. -/
def State.orphanSlot (s : State) (c e : Nat) : Nat := if e == c / 16 then c else ((s.freeSlot e).map (16 * e + ·)).getD c

/-- The state in which the orphan runs in slot `k`. -/
def State.orphanRuns (s : State) (c k : Nat) (x : Ctx) : State :=
  if k = c then s.setCtx c { x with st := .running, starting := true }
  else (s.setCtx c { x with st := .running, starting := true }).renumber c k

theorem exec_orphanReadmit_none {s : State} {t : Nat} (h : ∀ p ∈ s.che.ctx, p.2.st ≠ .orphan) :
    exec (.orphanReadmit t) s = .next (s.at_ t) := by
  have hf : (s.at_ t).che.ctx.find? (fun p => p.2.st == .orphan) = none :=
    List.find?_eq_none.mpr fun p hp => by simpa using h p hp
  have e : exec (.orphanReadmit t) s = execOrphanReadmit t s := rfl
  rw [e, execOrphanReadmit]
  dsimp only
  rw [hf]

theorem exec_orphanReadmit_some {s w : State} {t c e : Nat} {x : Ctx} (hw : s.at_ t = w)
    (hf : w.che.ctx.find? (fun p => p.2.st == .orphan) = some (c, x)) (he : w.orphanEngine c x = some e)
    (hfit : w.fitOf (w.orphanRuns c (w.orphanSlot c e) x) = .fits) :
    exec (.orphanReadmit t) s = .next (w.orphanRuns c (w.orphanSlot c e) x) := by
  have e' : exec (.orphanReadmit t) s = execOrphanReadmit t s := rfl
  unfold State.orphanEngine at he
  rw [e', execOrphanReadmit]
  dsimp only
  rw [hw, hf]
  dsimp only
  rw [he]
  exact congrArg _ (if_pos hfit)

/-- Settles O27: each boundary finds its context in the state that makes it due. -/
theorem contextBoundaries : Obligations.ContextBoundaries := by
  refine ⟨fun s c t x hx hr hp ha hs => exec_ctxParamApply_between hx t hr hp ha hs, fun s c t x hx hr hst => ?_,
    fun s c t x hx hp ha hs => ⟨_, exec_ctxParkStop_told hx t hp ha hs, State.ctx_setCtx_self .., rfl⟩,
    fun s c t x hx hr hs => exec_ctxReleaseStop_released hx t hr hs, fun s c t c' x hx hm hc => exec_ctxMoveComplete_moving hx t hm hc,
    fun s t h => exec_orphanReadmit_none h, fun s t c e x hf he hec hfit => ?_, fun s w t c e k x hf he hec hk hw hfit hkc => ?_⟩
  · obtain ⟨w, h, hc, hregs⟩ := (s.at_ t).ctxStarted_spec c x
    refine ⟨_, _, exec_ctxRunStart_starting hx t hr hst hc, State.ctx_setCtx_self .., rfl, hr, rfl, rfl, rfl, rfl, rfl, hregs⟩
  · have hslot : (s.at_ t).orphanSlot c e = c := if_pos (by simp [hec])
    have hruns : (s.at_ t).orphanRuns c ((s.at_ t).orphanSlot c e) x = (s.at_ t).setCtx c { x with st := .running, starting := true } :=
      if_pos hslot
    rw [exec_orphanReadmit_some rfl hf he (by rw [hruns]; exact hfit), hruns]
  · have hslot : (s.at_ t).orphanSlot c e = 16 * e + k := by
      rw [State.orphanSlot, if_neg (by simpa using hec), hk]
      rfl
    have hruns : (s.at_ t).orphanRuns c ((s.at_ t).orphanSlot c e) x = w := by
      rw [hslot, hw]
      exact if_neg hkc
    rw [exec_orphanReadmit_some rfl hf he (by rw [hruns]; exact hfit), hruns]

end Sys2Proof.Machine

/-! Slices (O28). -/
namespace Sys2Proof.Machine

/-! ### A slice starts -/

/-- A slice of context `x` is ready to be taken by its engine. -/
def State.takable (s : State) (x : Ctx) (t : Nat) : Bool :=
  x.st == .running && !x.starting && !x.release && !(x.abandon && x.active) && s.sliceReady x t

/-- The engine takes the slice of its only running context. -/
theorem exec_sliceStart_only {s w : State} {e : Fin 12} {c t : Nat} {x : Ctx} (hw : (s.at_ t).endAbandoned e t = w) (hcs : w.engCtxs e = [(c, x)])
    (hr : w.engRuns e = true) (hi : (w.eng e).run = none) (hx : w.takable x t = true) : exec (.sliceStart e t) s =
      .next ((if x.active then w else w.beginFrame c t).setEng e
        { (if x.active then w else w.beginFrame c t).eng e with run := some (c, x.slice) }) := by
  have e' : exec (.sliceStart e t) s = execSliceStart e t s := rfl
  have hf : [(c, x)].filter (fun p => p.2.st == .running && !p.2.starting && !p.2.release && !(p.2.abandon && p.2.active) && w.sliceReady p.2 t)
      = [(c, x)] := List.filter_eq_self.mpr (by simpa [State.takable] using hx)
  rw [e', execSliceStart]
  dsimp only
  rw [hw, hcs, hf, hr, hi]
  rfl

theorem State.takable_of {s : State} {x : Ctx} {t : Nat} (h1 : x.st = .running) (h2 : x.starting = false) (h3 : x.release = false)
    (h4 : x.abandon = true → x.active = false) (h5 : s.sliceReady x t = true) : s.takable x t = true := by
  have h : (x.abandon && x.active) = false := by
    rw [Bool.and_eq_false_iff]
    exact (Bool.eq_false_or_eq_true _).symm.imp_right h4
  simp [State.takable, h1, h2, h3, h5, h]

/-! ### A slice ends -/

section ends
variable {s : State} {e : Fin 12} {c k : Nat} (hr : (s.eng e).run = some (c, k)) (t : Nat)
include hr

/-- The engine that ran the slice is free. -/
theorem exec_sliceEnd_run : exec (.sliceEnd e t) s = .next (
    let w := (s.at_ t).setEng e { s.eng e with run := none }
    match w.ctx c with
    | none => w
    | some x =>
      if x.stale || x.abandon then w.setCtx c { x with stale := false }
      else match w.fmt? x.outFmt with
        | some f => if x.active && x.slice == k then (w.catchUp x.inRing t).sliceDone c k x f else w
        | none => w) := by
  have hr' : ((s.at_ t).eng e).run = some (c, k) := hr
  have e' : exec (.sliceEnd e t) s = execSliceEnd e t s := rfl
  rw [e', execSliceEnd]
  dsimp only
  rw [hr']
  rfl

theorem exec_sliceEnd_gone (hc : s.ctx c = none) : exec (.sliceEnd e t) s = .next ((s.at_ t).setEng e { s.eng e with run := none }) := by
  have hc' : ((s.at_ t).setEng e { s.eng e with run := none }).ctx c = none := hc
  rw [exec_sliceEnd_run hr]
  dsimp only
  rw [hc']

theorem exec_sliceEnd_abandoned {x : Ctx} (hc : s.ctx c = some x) (hx : x.stale = true ∨ x.abandon = true) : exec (.sliceEnd e t) s =
    .next (((s.at_ t).setEng e { s.eng e with run := none }).setCtx c { x with stale := false }) := by
  have hc' : ((s.at_ t).setEng e { s.eng e with run := none }).ctx c = some x := hc
  rw [exec_sliceEnd_run hr]
  dsimp only
  rw [hc']
  exact congrArg _ (if_pos (by simpa using hx))

theorem exec_sliceEnd_written {x : Ctx} {f : Fmt} (hc : s.ctx c = some x) (h1 : x.stale = false) (h2 : x.abandon = false)
    (h3 : x.active = true) (h4 : x.slice = k) (hf : s.fmt? x.outFmt = some f) : exec (.sliceEnd e t) s =
    .next ((((s.at_ t).setEng e { s.eng e with run := none }).catchUp x.inRing t).sliceDone c k x f) := by
  have hc' : ((s.at_ t).setEng e { s.eng e with run := none }).ctx c = some x := hc
  have hf' : ((s.at_ t).setEng e { s.eng e with run := none }).fmt? x.outFmt = some f := hf
  rw [exec_sliceEnd_run hr]
  dsimp only
  rw [hc']
  dsimp only
  rw [h1, h2, hf']
  exact congrArg _ ((if_neg Bool.false_ne_true).trans (if_pos (by simp [h3, h4])))

end ends

/-! ### A deadline missed -/

/-- The miss counted for the context and its engine. -/
def State.missed (s : State) (c : Nat) : State :=
  ((s.inc (R.CHE_CTX_MISS (c / 16) (c % 16))).inc (R.CHE_MISS_CNT (c / 16))).raise (Hist.che (c / 16)) F.CHE_HIST_DEADLINE_MISS

theorem State.ctx_missed (s : State) (c k : Nat) : (s.missed c).ctx k = s.ctx k :=
  State.ctx_congr ((State.raise_che ..).trans rfl) k

theorem exec_sliceDeadlineMiss_active {s w : State} {c : Fin 192} {t : Nat} {x : Ctx} {f : Fmt} (hc : s.ctx c = some x)
    (hf : s.fmt? x.outFmt = some f) (hst : x.st = .running) (hs : x.starting = false) (hd : f.deadline x.frameAt x.slice ≤ t)
    (hab : x.abandon = false) (hac : x.active = true) (hw : w = ((s.at_ t).missed c).linesGone c ((f.sliceSpan x.slice).1, f.lines))
    (hwc : w.ctx c = some x) (hr : w.engRuns (c / 16) = true) : exec (.sliceDeadlineMiss c t) s =
      .next ((w.setCtx c { x with absent := ((f.sliceSpan x.slice).1, f.lines) :: x.absent, abandon := true }).endFrame c) := by
  have hf' : (s.at_ t).fmt? x.outFmt = some f := hf
  have hmc : ((s.at_ t).missed c).ctx c = some x := (State.ctx_missed ..).trans hc
  have e : exec (.sliceDeadlineMiss c t) s = execSliceDeadlineMiss c t s := rfl
  rw [e, execSliceDeadlineMiss]
  dsimp only
  rw [State.ctx_at, hc]
  dsimp only
  rw [hf']
  refine congrArg _ ((if_neg ?_).trans ?_)
  · simp [hst, hs, hab, hd]
  · have hna : ¬x.abandon = true := by rw [hab]; exact Bool.false_ne_true
    unfold State.missed at hw hmc
    simp only [if_pos hac, hmc, if_neg hna, ← hw, hwc, if_pos hr]

section gone
variable {s : State} {c : Nat} {x : Ctx} (hc : s.ctx c = some x) (gone : Nat × Nat)
include hc

theorem State.linesGone_none (ho : x.outBuf = none) : s.linesGone c gone = s := by
  rw [State.linesGone, hc, Option.bind_some, ho]
  rfl

/-- Lines of a buffer that no unit shows are noted as absent, and no unit underruns. -/
theorem State.linesGone_unshown {k : Nat} {b : Buf} (ho : x.outBuf = some k) (hb : s.buf k = some b)
    (hu : ∀ p ∈ s.sou.unit, ∀ l, p.2.sel l ≠ some k) : s.linesGone c gone = s.setBuf k { b with absent := gone :: b.absent } := by
  have hn : (s.sou.unit.flatMap fun p => ([1, 2, 3].filter fun l => p.2.sel l == some k && (setLayer p.2.active l).en).map fun l => (p.1, l))
      = [] := by
    refine List.flatMap_eq_nil_iff.mpr fun p hp => ?_
    rw [List.map_eq_nil_iff, List.filter_eq_nil_iff]
    intro l _
    rw [Bool.and_eq_true, beq_iff_eq]
    exact fun h => hu p hp l h.1
  have hs (y : Buf) : (s.setBuf k y).sou.unit = s.sou.unit := rfl
  rw [State.linesGone, hc, Option.bind_some, ho, Option.bind_some, hb, Option.map_some]
  dsimp only
  rw [hs, hn]
  rfl

end gone

/-- Settles O28: a slice that starts, the four ways one ends, and one that misses its deadline. -/
theorem slices : Obligations.Slices := by
  refine ⟨fun s w e c t x hw hcs hr hi h1 h2 h3 h4 h5 => ⟨fun ha => ?_, fun ha => ?_⟩, fun s e t c k hr hc => exec_sliceEnd_gone hr t hc,
    fun s e t c k x hr hc hx => exec_sliceEnd_abandoned hr t hc hx,
    fun s e t c k x f hr hc h1 h2 h3 h4 hf => exec_sliceEnd_written hr t hc h1 h2 h3 h4 hf, ?_,
    fun s c gone x k b hc ho hb hu => State.linesGone_unshown hc gone ho hb hu, fun s c gone x hc ho => State.linesGone_none hc gone ho⟩
  · rw [exec_sliceStart_only hw.symm hcs hr hi (State.takable_of h1 h2 h3 h4 h5), ha]
    rfl
  · rw [exec_sliceStart_only hw.symm hcs hr hi (State.takable_of h1 h2 h3 h4 h5), ha]
    rfl
  · rintro s c t x f hc hf hst hs hd hab hac u w rfl hw hwc hr
    exact exec_sliceDeadlineMiss_active hc hf hst hs hd hab hac hw hwc hr

end Sys2Proof.Machine

/-! SOU_CFG and SOU_COMMIT (O29). -/
namespace Sys2Proof.Machine

/-- A shortfall that no other replaces is posted, and touches the host side alone. -/
theorem State.desc_short {s v : State} {r : DescRule} {h : Hdr} {body : State → Adm} (hv : s.admits r h v) {c : Nat} (hb : body v = .no 3 c)
    (hc : c ≤ 9) : v.posts (s.desc r h body) h 3 c ∧ v.hostOnly (s.desc r h body) := by
  have he : s.desc r h body = v.lowerStop.raiseOver.refuse h 3 c := by
    rw [State.desc_pass hv.1, hb]
    simp only [settle, Nat.not_lt.mpr hc, false_and, and_false, if_false, if_true]
  rw [he]
  obtain ⟨⟨x, hx, hp⟩, hh⟩ := v.lowerStop.raiseOver.refuse_posts h 3 c
  exact ⟨⟨x, by rw [hx, State.raiseOver_host, State.lowerStop_host], hp⟩, (v.lowerStop_hostOnly.trans (State.raiseOver_hostOnly _)).trans hh⟩

/-- What the host side alone changes leaves the units. -/
theorem State.hostOnly.unit {s t : State} (h : s.hostOnly t) (u : Nat) : t.unit u = s.unit u := by
  rw [h]
  rfl

theorem exec_souCfg (h : Hdr) (r : SouReq) (s : State) : exec (.souCfg h r) s = .next (s.desc (souRule r) h (souCfgBody h r)) := rfl

/-- The rule row of SOU_COMMIT. -/
def commitRule (u : Nat) : DescRule := { op := 0x41, rfn := 2, pay := [fld 16 1 u], sig := true }

theorem exec_souCommit (h : Hdr) (u : Nat) (s : State) : exec (.souCommit h u) s = .next (s.desc (commitRule u) h (souCommitBody h u)) := rfl

/-! ### Accepting a commit -/

/-- The state in which a commit is accepted: one that is late is counted. -/
def State.lateNoted (s : State) (u : Nat) (late : Bool) : State :=
  if late then (s.raise (Hist.sou u) F.SOU_HIST_LATE_COMMIT).inc (R.SOU_LATE_COMMIT_CNT u) else s

theorem State.lateNoted_onlyRegs (s : State) (u : Nat) (late : Bool) : s.onlyRegs (s.lateNoted u late) [R.SOU_HIST u, R.SOU_LATE_COMMIT_CNT u] := by
  cases late
  · exact .refl ..
  · exact .trans (State.raise_onlyRegs _ (Hist.sou u) _ (.head _)) (State.inc_onlyRegs (ha := .tail _ (.head _)) ..)

/-- The outcome of a commit accepted in `v`, past the computation of its line. -/
def commitOutcome (h : Hdr) (u result : Nat) (v : State) (due : Nat) (late : Bool) : Adm :=
  if late && h.rfn != 0 && h.dropIfLate then .late true result (v.draw.2.lateNoted u late)
  else .yes ((v.draw.2.lateNoted u late).addOp h result
    (.commit { unit := u, rfn := h.rfn, due := due, late := late, drop := h.dropIfLate })).2

/-- A number within a bound of another. -/
theorem le_add_mod_add (n k b : Nat) : n ≤ n + k % (b + 1) ∧ n + k % (b + 1) ≤ n + b :=
  ⟨Nat.le_add_right .., Nat.add_le_add_left (Nat.le_of_lt_succ (Nat.mod_lt _ (Nat.succ_pos b))) n⟩

theorem State.fmt_congr {s t : State} (hx : t.xpt = s.xpt) (i : Nat) : t.fmt? i = s.fmt? i := by
  rw [State.fmt?, hx]
  rfl

/-- The registers of synthesizer `n` read the same in `t` as in `s`. -/
def State.synRegsSame (s t : State) (n : Nat) : Prop := ∀ a, R.SYN_TS_CTL n ≤ a → a < R.SYN_TS_CTL n + 0x100 → t.rd a = s.rd a

theorem State.synRegsSame_of_regs {s t : State} (h : t.regs = s.regs) (n : Nat) : s.synRegsSame t n := fun a _ _ => State.rd_congr h a

theorem State.ramping_congr {s t : State} (hs : t.syn = s.syn) (n : Nat) : t.ramping n = s.ramping n := by
  rw [State.ramping, State.syn__congr hs]
  rfl

section synCongr
variable {s t : State} {n : Nat} (hr : s.synRegsSame t n) (hs : t.syn = s.syn)
include hr

theorem State.synBase_congr : t.synBase n = s.synBase n := by
  rw [State.synBase, State.rdInt, hr _ (by unfold R.SYN_TS_CTL R.SYN_TS_RESIDUAL; omega) (by unfold R.SYN_TS_CTL R.SYN_TS_RESIDUAL; omega)]
  rfl

theorem State.synGet_congr {a : Nat} (f : Bits) (h1 : R.SYN_TS_CTL n ≤ a) (h2 : a < R.SYN_TS_CTL n + 0x100) : t.get a f = s.get a f :=
  congrArg (getF f) (hr a h1 h2)

theorem State.absMax_congr (r : Int) : t.absMax n r = s.absMax n r := by
  rw [State.absMax, State.synGet_congr hr _ (by unfold R.SYN_TS_CTL R.SYN_TS_ABS; omega) (by unfold R.SYN_TS_CTL R.SYN_TS_ABS; omega),
    State.synGet_congr hr _ (by unfold R.SYN_TS_CTL R.SYN_TS_FMAX; omega) (by unfold R.SYN_TS_CTL R.SYN_TS_FMAX; omega)]
  rfl

theorem State.absSlope_congr : t.absSlope n = s.absSlope n := by
  rw [State.absSlope, State.synGet_congr hr _ (by unfold R.SYN_TS_CTL R.SYN_TS_ABS; omega) (by unfold R.SYN_TS_CTL R.SYN_TS_ABS; omega)]
  rfl

theorem State.synState_congr : t.synState n = s.synState n :=
  State.synGet_congr hr _ (by unfold R.SYN_TS_CTL R.SYN_TS_STAT; omega) (by unfold R.SYN_TS_CTL R.SYN_TS_STAT; omega)

theorem State.synFam_congr : t.synFam n = s.synFam n :=
  State.synGet_congr hr _ (by unfold R.SYN_TS_CTL R.SYN_TS_STAT; omega) (by unfold R.SYN_TS_CTL R.SYN_TS_STAT; omega)

include hs

/-- What a synthesizer shows now follows from its registers, the synthesizers and the time. -/
theorem State.synNow_congr (hn : t.now = s.now) : t.synNow n = s.synNow n := by
  have h1 : t.ramping n = s.ramping n := State.ramping_congr hs n
  have h2 : t.absorbing n = s.absorbing n := by rw [State.absorbing, State.syn__congr hs, h1, State.synBase_congr hr]; rfl
  unfold State.synNow
  rw [h1, h2, State.syn__congr hs, State.synBase_congr hr, State.absMax_congr hr, State.absSlope_congr hr, hn]

theorem State.synLag_congr (hn : t.now = s.now) : t.synLag n = s.synLag n := by
  rw [State.synLag, State.synNow_congr hr hs hn, State.syn__congr hs]
  rfl

theorem State.synForAudio_congr (hn : t.now = s.now) : t.synForAudio n = s.synForAudio n := by
  rw [State.synForAudio, State.synForAudio, State.synFam_congr hr, State.ramping_congr hs n, State.synNow_congr hr hs hn, State.flag, State.flag,
    State.synGet_congr hr _ (Nat.le_refl _) (by omega)]

end synCongr

/-- The grid of a set follows from registers, user formats, synthesizers and the time. -/
theorem State.setGrid_congr {s t : State} (hr : t.regs = s.regs) (hs : t.syn = s.syn) (hx : t.xpt = s.xpt) (hn : t.now = s.now) (u : Nat) (x : SouSet) :
    t.setGrid u x = s.setGrid u x := by
  rw [State.setGrid, State.setGrid, State.fmt_congr hx, State.synLag_congr (State.synRegsSame_of_regs hr _) hs hn]

theorem State.commitGrid_draw (s : State) (u : Nat) : s.draw.2.commitGrid u = s.commitGrid u := by
  rw [State.commitGrid, State.commitGrid, State.setGrid_congr (s := s) (t := s.draw.2) rfl rfl rfl rfl]
  rfl

/-- The line of a commit does not follow the number drawn next. -/
theorem State.commitPoint_draw (s : State) (u rfn arm : Nat) : s.draw.2.commitPoint u rfn arm = s.commitPoint u rfn arm := by
  have h1 : s.draw.2.unit u = s.unit u := rfl
  have h2 : s.draw.2.fmt? = s.fmt? := rfl
  have h3 : s.draw.2.rfnTime rfn = s.rfnTime rfn := rfl
  have h4 : s.draw.2.now = s.now := rfl
  rw [State.commitPoint, State.commitPoint, State.commitGrid_draw, h1, h2, h3, h4]

theorem commitAdm_eq (h : Hdr) (u result : Nat) (v : State) {due : Nat} {late : Bool}
    (hp : v.draw.2.commitPoint u h.rfn (v.now + (Config.fresh 64 v.free).toNat % (armBound h.signed + 1)) = (due, late)) :
    commitAdm h u result v = commitOutcome h u result v due late := by
  have hn : v.draw.2.now = v.now := rfl
  have hd : v.draw = (v.free, v.draw.2) := rfl
  unfold commitOutcome State.lateNoted
  rw [commitAdm, hd]
  simp only [hn, hp]

/-- A commit is accepted for a line that its arming write, within Table 1-3 of now, gives. -/
theorem commitAdm_spec (h : Hdr) (u result : Nat) (v : State) : ∃ a c late, v.now ≤ a ∧ a ≤ v.now + armBound h.signed ∧
    v.commitPoint u h.rfn a = (c, late) ∧ commitAdm h u result v = commitOutcome h u result v c late := by
  obtain ⟨h1, h2⟩ := le_add_mod_add v.now (Config.fresh 64 v.free).toNat (armBound h.signed)
  exact ⟨_, _, _, h1, h2, rfl, commitAdm_eq h u result v (State.commitPoint_draw ..)⟩

section outcome
variable {s v w : State} {r : DescRule} {h : Hdr} {body : State → Adm} {u res due : Nat} {late : Bool}

/-- Dropped as late, it completes LATE. -/
theorem State.desc_commitDropped (hv : s.admits r h v) (hb : body v = commitOutcome h u res w due late) (hh : w.host = v.host) (hl : late = true)
    (h0 : h.rfn ≠ 0) (hd : h.dropIfLate = true) :
    v.posts (s.desc r h body) h 1 res ∧ (w.draw.2.lateNoted u late).hostOnly (s.desc r h body) ∧
      ∀ a, a ≠ R.HSF_VSTAT → (s.desc r h body).rd a = (w.draw.2.lateNoted u late).rd a := by
  rw [commitOutcome, if_pos (by simp [hl, h0, hd])] at hb
  obtain ⟨⟨c, hc, hp⟩, ho, -, hr⟩ := State.desc_late_spec hv hb
  rw [(State.lateNoted_onlyRegs ..).host_eq] at hc
  exact ⟨⟨c, by rw [hc, ← hh]; rfl, hp⟩, ho, hr⟩

/-- Otherwise it joins the operations in flight. -/
theorem State.desc_commitFlies (hv : s.admits r h v) (hb : body v = commitOutcome h u res w due late) (hh : w.host = v.host)
    (hl : late = false ∨ h.rfn = 0 ∨ h.dropIfLate = false) :
    v.flies (s.desc r h body) h (.commit { unit := u, rfn := h.rfn, due := due, late := late, drop := h.dropIfLate }) ∧
      (w.draw.2.lateNoted u late).hostOnly (s.desc r h body) ∧
      ∀ a, a ≠ R.HSF_VSTAT → a ≠ R.MATE_FWD_CNT → (s.desc r h body).rd a = (w.draw.2.lateNoted u late).rd a := by
  rw [commitOutcome, if_neg (by rcases hl with hl | hl | hl <;> simp [hl])] at hb
  have hn := (w.draw.2.lateNoted_onlyRegs u late).host_eq
  have hw : w.draw.2.host = v.host := hh
  obtain ⟨hf, ho, hc⟩ := State.addOp_flies (s := w.draw.2.lateNoted u late) (by rw [hn, hw]; exact hv.2.1) (by rw [hn, hw]; exact hv.2.2.1) h res
    (.commit { unit := u, rfn := h.rfn, due := due, late := late, drop := h.dropIfLate })
  obtain ⟨h1, h2, h3⟩ := State.desc_flies hv hb (hf.of_ops (by rw [hn, hw])) (by rw [hc, hn, hw])
  exact ⟨h1, ho.trans h2, fun a ha hm => (h3 a ha).trans (State.addOp_rd _ _ _ _ hm)⟩

/-- Registers of a commit that is accepted, however it goes on. -/
theorem State.desc_commit (hv : s.admits r h v) (hb : body v = commitOutcome h u res w due late) (hh : w.host = v.host) :
    (w.draw.2.lateNoted u late).hostOnly (s.desc r h body) ∧
      ∀ a, a ≠ R.HSF_VSTAT → a ≠ R.MATE_FWD_CNT → (s.desc r h body).rd a = (w.draw.2.lateNoted u late).rd a := by
  by_cases hc : late = true ∧ h.rfn ≠ 0 ∧ h.dropIfLate = true
  · obtain ⟨-, ho, hr⟩ := State.desc_commitDropped hv hb hh hc.1 hc.2.1 hc.2.2
    exact ⟨ho, fun a ha _ => hr a ha⟩
  · obtain ⟨-, ho, hr⟩ := State.desc_commitFlies hv hb hh (by simpa [-not_and, not_and_or] using hc)
    exact ⟨ho, hr⟩

end outcome

/-! ### The checks of SOU_CFG -/

theorem SouReq.reads_of_set {r : SouReq} (hf : r.free = false) :
    r.reads = (r.gTiming || r.gOutput || r.gL1 || r.gL2 || r.gL3) := by
  rw [SouReq.reads, hf, Bool.not_false, Bool.and_true]

section cfg
variable {h : Hdr} {r : SouReq} {v : State}

theorem souCfgBody_unit (h1 : 160 ≤ r.unit) (h2 : r.unit ≠ 0xFF) : souCfgBody h r v = .no 4 (badRes 16) := if_pos ⟨h1, h2⟩

theorem souCfgBody_free (hu : r.unit < 160) (hf : r.free = true) (ha : (v.unit r.unit).alloc = true) (he : v.entriesFree 1 = true) :
    souCfgBody h r v = if (v.chainOf r.unit).isSome ∨ v.feeds (352 + r.unit) then denied 6
      else .yes ((((v.commits r.unit).foldl (fun s p => s.finish p.1 { status := 0x06 }) v).freeUnit r.unit).ok h r.unit) := by
  rw [souCfgBody, if_neg (by omega), if_pos hf, freeUnitBody, if_neg (by simp [ha]; omega), he]
  rfl

section set
variable (hu : 160 ≤ r.unit → r.unit = 0xFF) (hf : r.free = false)
include hu hf

theorem souCfgBody_set : souCfgBody h r v = if v.chainChange r then denied 6
    else if r.quad > 3 ∧ r.quad ≠ 0xFF then bad 17
    else if r.reads ∧ r.addr % 8 ≠ 0 then bad 24
    else match v.souTarget r with
      | none => v.souNone r
      | some u => souSetBody h u r v := by
  rw [SouReq.reads_of_set hf, souCfgBody, if_neg (fun hx => hx.2 (hu hx.1)), hf, if_neg Bool.false_ne_true] <;> rfl

variable (hc : v.chainChange r = false)
include hc

theorem souCfgBody_quad (h1 : 3 < r.quad) (h2 : r.quad ≠ 0xFF) : souCfgBody h r v = .no 4 (badRes 17) := by
  rw [souCfgBody_set hu hf, hc, if_neg Bool.false_ne_true, if_pos ⟨h1, h2⟩]
  rfl

variable (hq : r.quad ≤ 3 ∨ r.quad = 0xFF)
include hq

theorem souCfgBody_addr (hr : r.reads = true) (ha : r.addr % 8 ≠ 0) : souCfgBody h r v = .no 4 (badRes 24) := by
  rw [souCfgBody_set hu hf, hc, if_neg Bool.false_ne_true, if_neg (by omega), if_pos ⟨hr, ha⟩]
  rfl

theorem souCfgBody_target (hr : r.reads = true → r.addr % 8 = 0) : souCfgBody h r v = match v.souTarget r with
    | none => v.souNone r
    | some u => souSetBody h u r v := by
  rw [souCfgBody_set hu hf, hc, if_neg Bool.false_ne_true, if_neg (by omega), if_neg (fun hx => hx.2 (hr hx.1))]

end set

/-- With no unit to claim, a quadrant whose parameters would do leaves only the shortfall. -/
theorem State.souNone_ok {u : Nat} {x : SouSet} (hu : u ∈ (if r.unit < 160 then [r.unit] else [0, 40, 80, 120])) (hx : v.souCheck u {} r = .ok x) :
    v.souNone r = .no 3 8 := by
  have hm : Except.ok x ∈ (if r.unit < 160 then [r.unit] else [0, 40, 80, 120]).map fun u => v.souCheck u {} r :=
    List.mem_map.mpr ⟨u, hu, hx⟩
  rw [State.souNone]
  split
  next e l hl =>
    rw [hl] at hm
    obtain hm : Except.ok x ∈ l := by simpa using hm
    refine if_neg fun ha => ?_
    have := List.all_eq_true.mp ha _ hm
    exact Bool.false_ne_true this
  · rfl

section target
variable {u : Nat}

theorem souSetBody_error {e : Nat} (he : v.souCheck u (v.unit u).pending r = .error e) : souSetBody h u r v = .no 4 e := by
  rw [souSetBody, he]

section ok
variable {x : SouSet} (hx : v.souCheck u (v.unit u).pending r = .ok x)
include hx

theorem souSetBody_carry (hc : v.fedCarry u x = false) : souSetBody h u r v = .no 4 (dataRes (some 2)) := by
  rw [souSetBody, hx]
  dsimp only
  rw [hc]
  rfl

variable (hc : v.fedCarry u x = true)
include hc

theorem souSetBody_rfn (h1 : r.commit = true) (h2 : h.rfn ≠ 0) (h3 : v.rfnFar h.rfn = true) : souSetBody h u r v = .no 4 (badRes 8) := by
  rw [souSetBody, hx]
  dsimp only
  rw [hc, if_neg (by decide), if_pos ⟨h1, h2, h3⟩]
  rfl

theorem souSetBody_fits (hr : r.commit = true → h.rfn = 0 ∨ v.rfnFar h.rfn = false) (he : v.entriesFree 1 = true)
    (hfit : v.fitOf (v.setPending u x r) = .fits) : souSetBody h u r v =
      if r.commit then commitAdm h u u (v.setPending u x r) else .yes ((v.setPending u x r).ok h u) := by
  rw [souSetBody, hx]
  dsimp only
  rw [hc, if_neg (by decide), if_neg ?_, he, if_neg (by decide), admitFit, hfit]
  · rfl
  rintro ⟨h1, h2, h3⟩
  rcases hr h1 with h4 | h4
  · exact h2 h4
  · rw [h4] at h3
    exact Bool.false_ne_true h3

end ok
end target
end cfg

/-- A set that takes its place completes OK with its unit. -/
theorem souCfg_setPending {s v : State} {h : Hdr} {r : SouReq} {u : Nat} {x : SouSet} (hv : s.admits (souRule r) h v)
    (hb : souCfgBody h r v = .yes ((v.setPending u x r).ok h u)) :
    ∃ t, exec (.souCfg h r) s = .next t ∧ v.posts t h 0 u ∧ t.unit u = (v.setPending u x r).unit u := by
  obtain ⟨t, ht, hp, hw, -⟩ := State.desc_done (w := v.setPending u x r) hv hb rfl rfl rfl
  exact ⟨t, congrArg _ ht, hp, hw.unit u⟩

/-- A set that is committed with its SOU_CFG. -/
theorem souCfg_commit {s v : State} {h : Hdr} {r : SouReq} {u : Nat} {x : SouSet} (hv : s.admits (souRule r) h v)
    (hb : souCfgBody h r v = commitAdm h u u (v.setPending u x r)) :
    ∃ a c late t, v.now ≤ a ∧ a ≤ v.now + armBound h.signed ∧ (v.setPending u x r).commitPoint u h.rfn a = (c, late) ∧
      exec (.souCfg h r) s = .next t ∧ t.unit u = (v.setPending u x r).unit u ∧
      (late = true → h.rfn ≠ 0 → h.dropIfLate = true → v.posts t h 1 u) ∧
      (late = false ∨ h.rfn = 0 ∨ h.dropIfLate = false →
        v.flies t h (.commit { unit := u, rfn := h.rfn, due := c, late := late, drop := h.dropIfLate })) := by
  obtain ⟨a, c, late, h1, h2, h3, h4⟩ := commitAdm_spec h u u (v.setPending u x r)
  rw [h4] at hb
  refine ⟨a, c, late, _, h1, h2, h3, exec_souCfg .., ?_, fun hl h0 hd => (State.desc_commitDropped hv hb rfl hl h0 hd).1,
    fun hl => (State.desc_commitFlies hv hb rfl hl).1⟩
  rw [(State.desc_commit hv hb rfl).1.unit, (State.lateNoted_onlyRegs ..).hostOnly.unit]
  rfl

/-! ### SOU_COMMIT -/

section commit
variable {h : Hdr} {u : Nat} {v : State}

theorem souCommitBody_rfn (h1 : h.rfn ≠ 0) (h2 : v.rfnFar h.rfn = true) : souCommitBody h u v = .no 4 (badRes 8) := if_pos ⟨h1, h2⟩

theorem not_far (hr : h.rfn = 0 ∨ v.rfnFar h.rfn = false) : ¬ (h.rfn ≠ 0 ∧ v.rfnFar h.rfn = true) := by
  rintro ⟨h1, h2⟩
  rcases hr with h4 | h4
  · exact h1 h4
  · rw [h4] at h2
    exact Bool.false_ne_true h2

variable (hr : h.rfn = 0 ∨ v.rfnFar h.rfn = false)
include hr

theorem souCommitBody_unit (hu : 160 ≤ u ∨ (v.unit u).alloc = false) : souCommitBody h u v = .no 4 (badRes 16) := by
  rw [souCommitBody, if_neg (not_far hr), if_pos (hu.imp id fun ha => by rw [ha]; rfl)]
  rfl

theorem souCommitBody_ok (hu : u < 160) (ha : (v.unit u).alloc = true) (he : v.entriesFree 1 = true) :
    souCommitBody h u v = commitAdm h u 0 v := by
  rw [souCommitBody, if_neg (not_far hr), if_neg (by simp [ha]; omega), he]
  rfl

end commit

/-- The registers of a unit are apart from the controller's and the pair's. -/
theorem SOU_HIST_apart (u : Nat) : R.SOU_HIST u ≠ R.HSF_VSTAT ∧ R.SOU_HIST u ≠ R.MATE_FWD_CNT ∧
    R.SOU_HIST u ≠ R.SOU_LATE_COMMIT_CNT u := by
  unfold R.SOU_HIST R.SOU_LATE_COMMIT_CNT R.HSF_VSTAT R.MATE_FWD_CNT quadWin
  omega

theorem SOU_LATE_COMMIT_CNT_apart (u : Nat) : R.SOU_LATE_COMMIT_CNT u ≠ R.HSF_VSTAT ∧ R.SOU_LATE_COMMIT_CNT u ≠ R.MATE_FWD_CNT := by
  unfold R.SOU_LATE_COMMIT_CNT R.HSF_VSTAT R.MATE_FWD_CNT quadWin
  omega

/-- A late commit shows in the unit's history and count. -/
theorem State.lateNoted_regs (s : State) (u : Nat) : (s.lateNoted u true).get (R.SOU_HIST u) F.SOU_HIST_LATE_COMMIT = 1 ∧
    ((s.lateNoted u true).rd (R.SOU_LATE_COMMIT_CNT u)).toNat = min 0xFFFFFFFF ((s.rd (R.SOU_LATE_COMMIT_CNT u)).toNat + 1) := by
  obtain ⟨-, -, hn⟩ := SOU_HIST_apart u
  constructor
  · exact (State.get_inc_ne _ _ hn).trans (State.get_raise s (Hist.sou u) _ rfl (by decide))
  · rw [State.lateNoted, if_pos rfl, State.rd_inc, State.rd_raise_ne _ _ _ hn.symm]

/-- A SOU_COMMIT that its checks pass. -/
theorem souCommit_spec {s v : State} {h : Hdr} {u : Nat} (hv : s.admits (commitRule u) h v) (hr : h.rfn = 0 ∨ v.rfnFar h.rfn = false) (hu : u < 160)
    (ha : (v.unit u).alloc = true) :
    ∃ a c late t, v.now ≤ a ∧ a ≤ v.now + armBound h.signed ∧ v.commitPoint u h.rfn a = (c, late) ∧ exec (.souCommit h u) s = .next t ∧
      v.draw.2.hostOnly t ∧
      (late = false ∨ h.rfn = 0 ∨ h.dropIfLate = false →
        v.flies t h (.commit { unit := u, rfn := h.rfn, due := c, late := late, drop := h.dropIfLate })) ∧
      (late = true → t.get (R.SOU_HIST u) F.SOU_HIST_LATE_COMMIT = 1 ∧
        (t.rd (R.SOU_LATE_COMMIT_CNT u)).toNat = min 0xFFFFFFFF ((v.rd (R.SOU_LATE_COMMIT_CNT u)).toNat + 1) ∧
        (h.rfn ≠ 0 → h.dropIfLate = true → v.posts t h 1 0)) := by
  have hb := souCommitBody_ok hr hu ha hv.2.2.2
  obtain ⟨a, c, late, h1, h2, h3, h4⟩ := commitAdm_spec h u 0 v
  rw [h4] at hb
  obtain ⟨ho, hrd⟩ := State.desc_commit hv hb rfl
  refine ⟨a, c, late, _, h1, h2, h3, exec_souCommit .., (State.lateNoted_onlyRegs ..).hostOnly.trans ho,
    fun hl => (State.desc_commitFlies hv hb rfl hl).1, fun hl => ?_⟩
  refine ⟨?_, ?_, fun h0 hd => (State.desc_commitDropped hv hb rfl hl h0 hd).1⟩
  · obtain ⟨a1, a2, -⟩ := SOU_HIST_apart u
    rw [State.get, hrd _ a1 a2, hl]
    exact (v.draw.2.lateNoted_regs u).1
  · obtain ⟨a1, a2⟩ := SOU_LATE_COMMIT_CNT_apart u
    rw [hrd _ a1 a2, hl]
    exact (v.draw.2.lateNoted_regs u).2

/-- Settles O29: each descriptor by its own checks in their order. -/
theorem scanOutDescriptors : Obligations.ScanOutDescriptors := by
  refine ⟨fun s v h r hv => ⟨fun h1 h2 => ⟨_, exec_souCfg .., State.desc_refused hv (souCfgBody_unit h1 h2)⟩, fun hu hf ha hc => ?_,
      fun w hu hf ha hc hd hw hi => ?_, fun hu hf hc => ?_, fun hu hf hc h1 h2 => ⟨_, exec_souCfg .., State.desc_refused hv
      (souCfgBody_quad hu hf hc h1 h2)⟩, fun hu hf hc hq hr ha => ⟨_, exec_souCfg .., State.desc_refused hv (souCfgBody_addr hu hf hc hq hr ha)⟩,
      fun hu hf hc hq hr => ?_⟩, fun s v h u hv => ⟨fun h1 h2 => ⟨_, exec_souCommit .., State.desc_refused hv (souCommitBody_rfn h1 h2)⟩,
      fun hr hu => ⟨_, exec_souCommit .., State.desc_refused hv (souCommitBody_unit hr hu)⟩, fun hr hu ha => souCommit_spec hv hr hu ha⟩⟩
  · exact ⟨_, exec_souCfg .., State.desc_refused hv ((souCfgBody_free hu hf ha hv.2.2.2).trans (if_pos hc))⟩
  · subst hw
    exact (exec_souCfg ..).trans (congrArg _ (State.desc_yes hv.1 ((souCfgBody_free hu hf ha hv.2.2.2).trans (if_neg (by simp [hc, hd]))) hi))
  · exact ⟨_, exec_souCfg .., State.desc_refused hv ((souCfgBody_set hu hf).trans (if_pos hc))⟩
  · have hb := souCfgBody_target (h := h) hu hf hc hq hr
    refine ⟨fun ht ⟨u, x, hm, hx⟩ => ?_, fun u e ht he => ?_, fun u x ht hx => ⟨fun hcar => ?_, fun hcar h1 h2 h3 => ?_, fun hcar hfit => ⟨?_, ?_⟩⟩⟩
    all_goals rw [ht] at hb
    · exact ⟨_, exec_souCfg .., State.desc_short hv (hb.trans (State.souNone_ok hm hx)) (by decide)⟩
    · exact ⟨_, exec_souCfg .., State.desc_refused hv (hb.trans (souSetBody_error he))⟩
    · exact ⟨_, exec_souCfg .., State.desc_refused hv (hb.trans (souSetBody_carry hx hcar))⟩
    · exact ⟨_, exec_souCfg .., State.desc_refused hv (hb.trans (souSetBody_rfn hx hcar h1 h2 h3))⟩
    · intro h1
      exact souCfg_setPending hv ((hb.trans (souSetBody_fits hx hcar (fun h2 => absurd h2 (by simp [h1])) hv.2.2.2 hfit)).trans (by rw [h1]; rfl))
    · intro h1 h2
      exact souCfg_commit hv ((hb.trans (souSetBody_fits hx hcar (fun _ => h2) hv.2.2.2 hfit)).trans (if_pos h1))

end Sys2Proof.Machine

/-! User formats (O30) and the line buffer (O32). -/
namespace Sys2Proof.Machine

/-- The conditions of R155 on the values of a user format. -/
theorem UFmt.ok_iff (u : UFmt) : u.ok = true ↔ u.activeWidth % 2 = 0 ∧ 64 ≤ u.activeWidth ∧ u.activeWidth ≤ 7680 ∧
    u.activeWidth + 32 ≤ u.totalSamples ∧ u.totalSamples ≤ 16383 ∧ 16 ≤ u.activeLines ∧ u.activeLines ≤ 4320 ∧
    (u.interlaced = true → u.activeLines % 2 = 0) ∧ u.totalLines ≤ 8191 ∧
    (u.interlaced = false → 2 ≤ u.firstF1 ∧ (u.firstF1 + u.activeLines - 1 : Int) ≤ u.totalLines) ∧
    (u.interlaced = true → (u.firstF1 + u.activeLines / 2 - 1 : Int) < u.firstF2 ∧ (u.firstF2 + u.activeLines / 2 - 1 : Int) ≤ u.totalLines) ∧
    1 ≤ u.swLine ∧ u.swLine ≤ (u.firstF1 - 1 : Int) ∧ u.rate ≤ 10 ∧ u.totalSamples * u.totalLines * rateF u.rate ≤ 2376000000 * 1001 := by
  unfold UFmt.ok
  generalize u.totalSamples * u.totalLines * rateF u.rate = clock
  cases u.interlaced
  · simp only [Bool.not_false, Bool.true_or, Bool.and_true, Bool.false_eq_true, if_false, Bool.and_eq_true, decide_eq_true_eq, eq_self, false_implies, true_implies, true_and]
    omega
  · simp only [Bool.not_true, Bool.false_or, if_true, Bool.and_eq_true, decide_eq_true_eq, beq_iff_eq, eq_self, reduceCtorEq, false_implies, true_implies, true_and]
    omega

section ufmt
variable {s w : State} {m : Fin 16} {v : Nat}

/-- XPT_UFMT_MODE as written, before the format is judged. -/
def State.ufmtMode (s : State) (m v : Nat) : State :=
  ((s.set (R.XPT_UFMT_MODE m) F.XPT_UFMT_MODE_INTERLACED (v / 2 ^ 31)).set (R.XPT_UFMT_MODE m) F.XPT_UFMT_MODE_RATE (v / 2 ^ 24)).set
    (R.XPT_UFMT_MODE m) F.XPT_UFMT_MODE_SWLINE (v / 2 ^ 12)

theorem State.ufmtMode_rd (s : State) (m v : Nat) {a : Nat} (ha : a ≠ R.XPT_UFMT_MODE m) : (s.ufmtMode m v).rd a = s.rd a := by
  rw [State.ufmtMode, State.rd_set_ne _ _ _ ha, State.rd_set_ne _ _ _ ha, State.rd_set_ne _ _ _ ha]

theorem State.rd_withXpt (s : State) (x : XptSt) (a : Nat) : ({ s with xpt := x } : State).rd a = s.rd a := rfl

theorem State.ufmtMode_xpt (s : State) (m v : Nat) : (s.ufmtMode m v).xpt = s.xpt := by
  simp only [State.ufmtMode, State.set_xpt]

theorem State.ufmtWrite_eq (s : State) (m v : Nat) : s.ufmtWrite m v =
    if ((s.ufmtMode m v).ufmtWritten m).ok && !(s.ufmtMode m v).ufmtInUse (0x40 + m) then
      { s.ufmtMode m v with xpt := { (s.ufmtMode m v).xpt with ufmt := tabPut (s.ufmtMode m v).xpt.ufmt m ((s.ufmtMode m v).ufmtWritten m) } }
    else (s.ufmtMode m v).set (R.XPT_UFMT_STAT m) F.XPT_UFMT_STAT_ERR 1 := by
  unfold State.ufmtWrite State.ufmtMode
  dsimp only

theorem exec_ufmtModeWrite (hu : s.upFor (R.XPT_UFMT_MODE m)) : exec (.ufmtModeWrite m v) s = .next (s.ufmtWrite m v) := by
  have e : exec (.ufmtModeWrite m v) s = execUfmtModeWrite m v s := rfl
  rw [e, execUfmtModeWrite, State.byHost_upFor hu]

end ufmt

/-- A format that is taken is the entry's alone. -/
theorem State.ufmtWrite_taken {s : State} {m v : Nat} (hok : ((s.ufmtMode m v).ufmtWritten m).ok = true)
    (hin : (s.ufmtMode m v).ufmtInUse (0x40 + m) = false) : tabFind (s.ufmtWrite m v).xpt.ufmt m = some ((s.ufmtMode m v).ufmtWritten m) ∧
    (∀ k, k ≠ m → tabFind (s.ufmtWrite m v).xpt.ufmt k = tabFind s.xpt.ufmt k) ∧
    ∀ a, a ≠ R.XPT_UFMT_MODE m → (s.ufmtWrite m v).rd a = s.rd a := by
  rw [s.ufmtWrite_eq, if_pos (by rw [hok, hin]; rfl)]
  exact ⟨tabFind_put_self .., fun k hk => (tabFind_put_ne _ _ hk).trans (by rw [s.ufmtMode_xpt]),
    fun a ha => (State.rd_withXpt ..).trans (s.ufmtMode_rd m v ha)⟩

/-- One that is refused sets ERR. -/
theorem State.ufmtWrite_refused {s : State} {m v : Nat}
    (hbad : ((s.ufmtMode m v).ufmtWritten m).ok = false ∨ (s.ufmtMode m v).ufmtInUse (0x40 + m) = true) : (s.ufmtWrite m v).xpt = s.xpt ∧
    (s.ufmtWrite m v).get (R.XPT_UFMT_STAT m) F.XPT_UFMT_STAT_ERR = 1 ∧
    ∀ a, a ∉ [R.XPT_UFMT_MODE m, R.XPT_UFMT_STAT m] → (s.ufmtWrite m v).rd a = s.rd a := by
  rw [s.ufmtWrite_eq, if_neg (by rcases hbad with h | h <;> simp [h])]
  refine ⟨by rw [State.set_xpt, s.ufmtMode_xpt], State.get_set_fits _ _ _ (by decide) (by decide), fun a ha => ?_⟩
  obtain ⟨h1, h2⟩ : a ≠ R.XPT_UFMT_MODE m ∧ a ≠ R.XPT_UFMT_STAT m := by simpa using ha
  rw [State.rd_set_ne _ _ _ h2, s.ufmtMode_rd m v h1]

/-- Settles O30: the conditions of R155, and the two outcomes of the write. -/
theorem userFormats : Obligations.UserFormats := by
  refine ⟨UFmt.ok_iff, fun s w m v hu hw => ?_⟩
  rw [← State.ufmtMode] at hw
  subst hw
  exact ⟨fun hok hin => ⟨_, exec_ufmtModeWrite hu, State.ufmtWrite_taken hok hin⟩,
    fun hbad => ⟨_, exec_ufmtModeWrite hu, State.ufmtWrite_refused hbad⟩⟩

/-! ### The line buffer -/

theorem exec_lineUnderrun {s : State} {u : Fin 160} (line samp : Nat) (hg : (s.souGrid u).isSome = true)
    (hl : ∃ l ∈ souLayers (s.unit u).active, l.en = true) : exec (.lineUnderrun u line samp) s = .next (s.underrun u line samp) := by
  refine congrArg Host.Outcome.next (if_pos ?_)
  rw [hg, Bool.true_and, List.any_eq_true]
  exact hl

theorem State.underrun_new {s : State} {u line : Nat} (samp : Nat) (h : (s.unit u).under.find? (fun p => p.1 == line) = none) :
    s.underrun u line samp = ((s.setUnit u { s.unit u with under := (line, samp) :: (s.unit u).under }).inc (R.SOU_UNDERRUN_LINES u)).raise
      (Hist.sou u) F.SOU_HIST_UNDERRUN := by
  rw [State.underrun]
  dsimp only
  rw [h]

theorem State.underrun_again {s : State} {u line : Nat} {p : Nat × Nat} (samp : Nat) (h : (s.unit u).under.find? (fun p => p.1 == line) = some p) :
    s.underrun u line samp =
      s.setUnit u { s.unit u with under := (line, min samp p.2) :: (s.unit u).under.filter fun q => q.1 != line } := by
  rw [State.underrun]
  dsimp only
  rw [h]

theorem SOU_HIST_ne_UNDERRUN_LINES (u : Nat) : R.SOU_UNDERRUN_LINES u ≠ R.SOU_HIST u := by
  unfold R.SOU_UNDERRUN_LINES R.SOU_HIST
  omega

/-- The level of a layer in force: LOW_WM and CRIT_WM are per cent of its share. -/
theorem State.urgency_eq (s : State) (u : Nat) (x : SouSet) {l : SouLayer} (fill : Nat) (hl : l.en = true) : s.urgency u x l fill =
    if 100 * fill < (s.watermarks u).2 * s.layerShare x l then 2 else if 100 * fill < (s.watermarks u).1 * s.layerShare x l then 1 else 0 := by
  rw [State.urgency, hl]
  rfl

/-- CRIT_WM in force is below LOW_WM in force. -/
theorem State.watermarks_le (s : State) (u : Nat) : (s.watermarks u).2 ≤ (s.watermarks u).1 := by
  unfold State.watermarks
  dsimp only
  omega

/-- A layer enters level `n`: one of the new levels is `n` where it was another. -/
def entersLevel (n : Nat) (p : List (Nat × Nat)) : Bool := p.any fun q => q.1 == n && q.2 != n

/-- A unit with new levels of its layers, the levels entered shown in its history. -/
def State.setUrgencies (s : State) (u a b c : Nat) : State :=
  let p := [(a, (s.unit u).urg1), (b, (s.unit u).urg2), (c, (s.unit u).urg3)]
  let s := s.setUnit u { s.unit u with urg1 := a, urg2 := b, urg3 := c }
  let s := if entersLevel 1 p then s.raise (Hist.sou u) F.SOU_HIST_URGENT else s
  if entersLevel 2 p then s.raise (Hist.sou u) F.SOU_HIST_CRITICAL else s

theorem entersLevel_three (n a b c x y z : Nat) :
    entersLevel n [(a, x), (b, y), (c, z)] = ((a == n && x != n) || (b == n && y != n) || (c == n && z != n)) := by
  simp only [entersLevel, List.any_cons, List.any_nil, Bool.or_false, Bool.or_assoc]

theorem exec_fetchUrgencyChange (s : State) (u : Fin 160) (f1 f2 f3 : Nat) : exec (.fetchUrgencyChange u f1 f2 f3) s = .next (s.setUrgencies u
    (s.urgency u (s.unit u).active (s.unit u).active.l1 f1) (s.urgency u (s.unit u).active (s.unit u).active.l2 f2)
    (s.urgency u (s.unit u).active (s.unit u).active.l3 f3)) := by
  unfold State.setUrgencies
  simp only [entersLevel_three]
  rfl

theorem entersLevel_of {n a b c x y z : Nat} (h : (a = n ∧ x ≠ n) ∨ (b = n ∧ y ≠ n) ∨ (c = n ∧ z ≠ n)) :
    entersLevel n [(a, x), (b, y), (c, z)] = true := by
  rw [entersLevel_three]
  simpa [or_assoc] using h

/-- A raise of a unit's history where a condition holds. -/
theorem State.raiseIf_onlyRegs (s : State) (u : Nat) (b : Bool) (f : Bits) :
    s.onlyRegs (if b then s.raise (Hist.sou u) f else s) [R.SOU_HIST u] :=
  .ite (fun _ => State.raise_onlyRegs _ (Hist.sou u) _ (.head _)) fun _ => .refl ..

theorem State.setUrgencies_onlyRegs (s : State) (u a b c : Nat) :
    (s.setUnit u { s.unit u with urg1 := a, urg2 := b, urg3 := c }).onlyRegs (s.setUrgencies u a b c) [R.SOU_HIST u] :=
  .trans (State.raiseIf_onlyRegs ..) (State.raiseIf_onlyRegs ..)

theorem State.setUrgencies_urgent {s : State} {u a b c : Nat} (h : entersLevel 1 [(a, (s.unit u).urg1), (b, (s.unit u).urg2), (c, (s.unit u).urg3)]) :
    (s.setUrgencies u a b c).get (R.SOU_HIST u) F.SOU_HIST_URGENT = 1 := by
  unfold State.setUrgencies
  dsimp only
  rw [if_pos h]
  have h1 := fun t : State => t.get_raise (Hist.sou u) F.SOU_HIST_URGENT rfl (by decide)
  split
  · exact State.get_raise_mono _ _ _ (by decide) (by decide) (h1 _)
  · exact h1 _

theorem State.setUrgencies_critical {s : State} {u a b c : Nat} (h : entersLevel 2 [(a, (s.unit u).urg1), (b, (s.unit u).urg2), (c, (s.unit u).urg3)]) :
    (s.setUrgencies u a b c).get (R.SOU_HIST u) F.SOU_HIST_CRITICAL = 1 := by
  unfold State.setUrgencies
  dsimp only
  rw [if_pos h]
  exact State.get_raise _ (Hist.sou u) _ rfl (by decide)

/-- Settles O32: an underrun is counted once per line, and the levels follow the watermarks. -/
theorem lineBuffer : Obligations.LineBuffer := by
  refine ⟨fun s u line samp hg hl => ⟨fun hn => ?_, fun k hk => ?_⟩, fun s u x l fill low crit full hlow hcrit hfull hl => ?_,
    fun s u f1 f2 f3 a b c ha hb hc => ?_⟩
  · have hf : (s.unit u).under.find? (fun p => p.1 == line) = none := by
      rw [List.find?_eq_none]
      exact fun p hp hx => hn p hp (by simpa using hx)
    refine ⟨_, (exec_lineUnderrun line samp hg hl).trans (congrArg _ (State.underrun_new samp hf)), ?_, ?_,
      State.get_raise _ (Hist.sou u) _ rfl (by decide), fun a ha => ?_⟩
    · rw [State.unit_congr (State.raise_sou ..), State.unit_congr (State.inc_sou ..)]
      exact tabGet_set_self ..
    · rw [State.rd_raise_ne _ (Hist.sou u) _ (SOU_HIST_ne_UNDERRUN_LINES u), State.rd_inc]
      rfl
    · obtain ⟨h1, h2⟩ : a ≠ R.SOU_UNDERRUN_LINES u ∧ a ≠ R.SOU_HIST u := by simpa using ha
      rw [State.rd_raise_ne _ (Hist.sou u) _ h2, State.rd_inc_ne _ h1]
      rfl
  · exact (exec_lineUnderrun line samp hg hl).trans (congrArg _ (State.underrun_again samp hk))
  · have hw : s.watermarks u = (low, crit) := by rw [hlow, hcrit, hlow]; rfl
    have hs : s.layerShare x l = full := hfull.symm
    have hle := s.watermarks_le u
    rw [s.urgency_eq u x fill hl, hw, hs]
    rw [hw] at hle
    have hmul := Nat.mul_le_mul_right full hle
    dsimp only at hmul ⊢
    refine ⟨fun h => ?_, fun h1 h2 => ?_, fun h => if_pos h⟩
    · rw [if_neg (by omega), if_neg (by omega)]
    · rw [if_neg (by omega), if_pos h2]
  · subst ha hb hc
    have hr := s.setUrgencies_onlyRegs u (s.urgency u (s.unit u).active (s.unit u).active.l1 f1)
      (s.urgency u (s.unit u).active (s.unit u).active.l2 f2) (s.urgency u (s.unit u).active (s.unit u).active.l3 f3)
    refine ⟨_, exec_fetchUrgencyChange .., ?_, fun h => State.setUrgencies_urgent (entersLevel_of h), fun h => State.setUrgencies_critical (entersLevel_of h),
      fun a ha => ?_⟩
    · rw [hr.hostOnly.unit]
      exact tabGet_set_self ..
    · exact hr.rd (by simpa using ha)

end Sys2Proof.Machine

/-! Commits and frame starts of a scan-out unit (O31). -/
namespace Sys2Proof.Machine

section events
variable {s : State} {u : Fin 160} {t : Nat}

/-! ### Commits that latch and execute -/

section latch
variable {id : Nat} {c d : CommitOp} (hc : (s.at_ t).commits u = [(id, c)]) (hl : c.latched = none) (hw : (s.at_ t).windowClosed u c = true)
  (hd : d = { c with due := (s.at_ t).latchDue u c })
include hc hl hw hd

/-- The one commit whose window closes. -/
theorem exec_commitLatch : exec (.commitLatch u t) s = .next (
    if !(s.at_ t).windowClosed u d then (s.at_ t).setOp id (.commit d)
    else if (s.at_ t).ringLost (s.unit u).pending then (s.at_ t).finish id { status := 0x04, lateCmt := c.late, result := some (badRes 16) }
    else (s.at_ t).setOp id (.commit { d with latched := some ((s.unit u).pending, (s.unit u).tune) })) := by
  have e : exec (.commitLatch u t) s = execCommitLatch u t s := rfl
  subst hd
  rw [e, execCommitLatch]
  dsimp only
  rw [hc, List.filter_cons_of_pos (by rw [hl, hw]; rfl), List.filter_nil]
  rfl

end latch

theorem exec_commitExecute {id : Nat} {c : CommitOp} (hc : (s.at_ t).commits u = [(id, c)]) (hl : c.latched.isSome = true)
    (hw : (s.at_ t).commitCome u c.due = true) :
    exec (.commitExecute u t) s = .next (if (s.unit u).gated then s.at_ t else ((s.at_ t).keepSent u c.due).runCommit u (id, c)) := by
  have e : exec (.commitExecute u t) s = execCommitExecute u t s := rfl
  rw [e, execCommitExecute]
  dsimp only
  rw [hc, List.filter_cons_of_pos (by rw [hl, hw]; rfl), List.filter_nil]
  rfl

/-! ### New timing and frame starts -/

theorem exec_newTimingStart {x : SouSet} {tune : Bool} (hn : (s.unit u).newTiming = some (x, tune)) (he : (s.unit u).frameEnd ≤ t)
    (ha : (s.at_ t).atFrame u x t = true) (hl : tune = true → (s.unit u).retune = true ∧ s.synState (u / 40 * 4 + x.syn) = 3) :
    exec (.newTimingStart u t) s =
      .next (((s.at_ t).setUnit u { s.unit u with newTiming := none, frameEnd := 0, retune := false, sent := [] }).adopt u x) := by
  have e : exec (.newTimingStart u t) s = execNewTimingStart u t s := rfl
  have hn' : ((s.at_ t).unit u).newTiming = some (x, tune) := hn
  have hs : (s.at_ t).synState (u / 40 * 4 + x.syn) = s.synState (u / 40 * 4 + x.syn) := rfl
  have hr : ((s.at_ t).unit u).retune = (s.unit u).retune := rfl
  rw [e, execNewTimingStart]
  dsimp only
  rw [hn']
  dsimp only
  refine congrArg Host.Outcome.next (if_neg ?_)
  have hf : ¬ t < ((s.at_ t).unit u).frameEnd := Nat.not_lt.mpr he
  rw [ha, hs, hr, decide_eq_false hf]
  cases tune with
  | false => exact Bool.false_ne_true
  | true =>
    obtain ⟨h1, h2⟩ := hl rfl
    rw [h1, h2]
    decide

section frame
variable (h1 : (s.unit u).run = true) (h2 : (s.unit u).gated = false) (h3 : (s.unit u).retune = false)
include h1 h2 h3

theorem exec_souFrameStart : exec (.souFrameStart u t) s = .next (match (s.unit u).newTiming with
    | some (x, tune) => if t < (s.unit u).frameEnd then (s.at_ t).selectLayers u else if tune then (s.at_ t).holdRetune u x else s.at_ t
    | none => (s.at_ t).selectLayers u) := by
  have e : exec (.souFrameStart u t) s = execSouFrameStart u t s := rfl
  have h1' : ((s.at_ t).unit u).run = true := h1
  have h2' : ((s.at_ t).unit u).gated = false := h2
  have h3' : ((s.at_ t).unit u).retune = false := h3
  rw [e, execSouFrameStart]
  dsimp only
  rw [h1', h2', h3']
  rfl

/-- With no change of timing due, the layers select their buffers. -/
theorem exec_souFrameStart_select (hn : (s.unit u).newTiming = none ∨ t < (s.unit u).frameEnd) :
    exec (.souFrameStart u t) s = .next ((s.at_ t).selectLayers u) := by
  rw [exec_souFrameStart h1 h2 h3]
  split
  next p x tune hp =>
    rcases hn with hn | hn
    · rw [hn] at hp
      cases hp
    · rw [if_pos hn]
  · rfl

/-- After the last frame of the old timing a retune holds the output. -/
theorem exec_souFrameStart_retune {x : SouSet} (hn : (s.unit u).newTiming = some (x, true)) (he : (s.unit u).frameEnd ≤ t) :
    exec (.souFrameStart u t) s = .next ((s.at_ t).holdRetune u x) := by
  rw [exec_souFrameStart h1 h2 h3, hn]
  dsimp only
  rw [if_neg (Nat.not_lt.mpr he)]
  rfl

end frame

theorem exec_souResume {w : State} (hg : (s.unit u).gated = true) (hr : s.inReset 8 u = false)
    (hl : s.synState (u / 40 * 4 + (s.unit u).active.syn) = 3) (hw : w = (s.at_ t).setUnit u { s.unit u with gated := false }) :
    exec (.souResume u t) s =
      .next (((((w.commits u).filter fun p => w.commitCome u p.2.due).foldl (fun s p => s.runCommit u p) w).selectLayers u).refreshSrc (352 + u)) := by
  have e : exec (.souResume u t) s = execSouResume u t s := rfl
  have hg' : ((s.at_ t).unit u).gated = true := hg
  have hr' : (s.at_ t).inReset 8 u = false := hr
  have hl' : (s.at_ t).synState (u / 40 * 4 + ((s.at_ t).unit u).active.syn) = 3 := hl
  subst hw
  rw [e, execSouResume]
  dsimp only
  exact congrArg Host.Outcome.next (if_neg (by rw [hg', hr', hl']; decide))

end events

/-! ### The set of a commit -/

theorem State.activate_active (s : State) (u : Nat) (x : SouSet) : ((s.activate u x).unit u).active = x :=
  congrArg Unit.active (tabGet_set_self ..)

/-- Past its activation a set leaves the units. -/
theorem State.adopt_kept_activate (s : State) (u : Nat) (x : SouSet) :
    Kept [.regs, .media, .xpt, .fst, .che] (s.activate u x) (s.adopt u x) := by
  unfold State.adopt
  refine State.refreshSrc_kept (Kept.ite (fun _ => ?_) fun _ => State.cwFormat_kept ?_ _ _ (Sub.of (Sub.self _) rfl)) _ (Sub.of (Sub.self _) rfl)
  all_goals
    split
    · split
      · exact State.setCtx_kept (.refl _ _) _ _ (Sub.of (Sub.self _) rfl)
      · exact .refl _ _
    · exact .refl _ _

theorem State.adopt_active (s : State) (u : Nat) (x : SouSet) : ((s.adopt u x).unit u).active = x := by
  rw [State.unit_congr ((s.adopt_kept_activate u x).2.2 .sou (by decide))]
  exact s.activate_active u x

section apply
variable {s : State} {u : Nat} {x : SouSet} {tune : Bool}

theorem State.retimes_eq_false (h : (s.unit u).run = false ∨ timingDiffers (s.unit u).active x = false) (ht : tune = false) :
    s.retimes u x tune = false := by
  rcases h with h | h <;> simp [State.retimes, h, ht]

theorem State.applyCommit_adopt (h : s.retimes u x false = false) : s.applyCommit u x false = s.adopt u x := by
  rw [State.applyCommit]
  dsimp only
  rw [h]
  rfl

/-- A change of the timing that a unit runs waits for the end of its frame. -/
theorem State.applyCommit_retimes (h : s.retimes u x tune = true) : s.applyCommit u x tune =
    (s.setUnit u { s.unit u with newTiming := some (x, tune), frameEnd := s.timingEnd u }).raise (Hist.sou u) F.SOU_HIST_TIMING_CHANGE := by
  rw [State.applyCommit]
  dsimp only
  rw [h]
  rfl

theorem State.applyCommit_idle (h : (s.unit u).run = false) :
    s.applyCommit u x true = (s.setUnit u { s.unit u with newTiming := some (x, true), frameEnd := s.now }).holdRetune u x := by
  have hr : s.retimes u x true = false := by rw [State.retimes, h]; rfl
  rw [State.applyCommit]
  dsimp only
  rw [hr]
  rfl

end apply

/-- Settles O31: each event of a unit under the conditions that let it act. -/
theorem scanOutEvents : Obligations.ScanOutEvents := by
  refine ⟨fun s u t id c d hc hl hw hd => ⟨fun h => ?_, fun h h2 => ?_, fun h h2 => ?_⟩, fun s u t id c hc hl hw => exec_commitExecute hc hl hw,
    fun s u x tune => ⟨fun h ht => ?_, fun hr h => ?_, fun hr ht => ?_⟩,
    fun s u t x hn he ha => exec_newTimingStart hn he ha (fun h => absurd h Bool.false_ne_true),
    fun s u t x hn he ha hr hl => exec_newTimingStart hn he ha fun _ => ⟨hr, hl⟩,
    fun s u t h1 h2 h3 hn => exec_souFrameStart_select h1 h2 h3 hn, fun s u t x h1 h2 h3 hn he => exec_souFrameStart_retune h1 h2 h3 hn he,
    fun s w u t hg hr hl hw => exec_souResume hg hr hl hw⟩
  · rw [exec_commitLatch hc hl hw hd, h]
    rfl
  · rw [exec_commitLatch hc hl hw hd, h, h2, hd]
    rfl
  · rw [exec_commitLatch hc hl hw hd, h, h2]
    rfl
  · have h0 := State.retimes_eq_false h ht
    subst ht
    rw [State.applyCommit_adopt h0]
    exact s.adopt_active u x
  · have h0 : s.retimes u x tune = true := by rw [State.retimes, hr]; simpa using h
    rw [State.applyCommit_retimes h0, State.unit_congr (State.raise_sou ..)]
    refine ⟨?_, ?_, State.get_raise _ (Hist.sou u) _ rfl (by decide)⟩
    all_goals rw [State.unit, State.setUnit, tabGet_set_self]
  · rw [ht, State.applyCommit_idle hr]

end Sys2Proof.Machine

/-! The audio matrix (O34). -/
namespace Sys2Proof.Machine

/-! ### The filter and the rounding at an output -/

/-- At the unit-impulse phase the filter reads the sample as it is. -/
theorem filterAt_whole (l : List Int) (i : Nat) : filterAt l (i * 100000000) = l.getD i 0 * 2 ^ 24 := by
  have hi : (i * 100000000 + 99999999) / 100000000 = i := by omega
  rw [filterAt, hi, Nat.sub_self]
  rfl

/-- Silence stays silence. -/
theorem roundOut_zero (k bits : Nat) : (roundOut k bits 0).1 = 0 := by
  have hu : (0 : Int) < 2 ^ (k + 24 - bits) := by positivity
  have hb : (0 : Int) < 2 ^ (bits - 1) := by positivity
  have hr : (0 + (2 : Int) ^ (k + 24 - bits) / 2) / 2 ^ (k + 24 - bits) = 0 := Int.ediv_eq_zero_of_lt (by omega) (by omega)
  rw [roundOut]
  dsimp only
  rw [hr, if_neg (by omega), if_neg (by omega), zero_mul]

/-- A 24-bit sample passes a 24-bit port as it is. -/
theorem roundOut_exact {y : Int} (h1 : -2 ^ 23 ≤ y) (h2 : y < 2 ^ 23) : (roundOut 72 24 (y * 2 ^ 72)).1 = y := by
  have hr : (y * 2 ^ 72 + (2 : Int) ^ (72 + 24 - 24) / 2) / 2 ^ (72 + 24 - 24) = y := by omega
  rw [roundOut]
  dsimp only
  rw [hr, if_neg (by omega), if_neg (by omega)]
  omega

/-! ### What the audio tables leave alone -/

section timing
variable {s t : State} (hr : t.regs = s.regs) (hm : t.media = s.media) (hx : t.xpt = s.xpt) (hu : t.sou = s.sou) (hs : t.syn = s.syn)
  (hn : t.now = s.now)
include hr hm hx hu hs hn

/-- The timing of a source follows from registers, media ports, the crosspoint, units, synthesizers and the time. -/
theorem State.srcGrid_congr (n : Nat) : t.srcGrid n = s.srcGrid n := by
  have hf : t.fmt? = s.fmt? := funext fun i => State.fmt_congr hx i
  have hg : t.measGrid = s.measGrid := by
    funext a b c d
    rw [State.measGrid, hf]
    rfl
  have hsou (u : Nat) : t.souGrid u = s.souGrid u := by
    rw [State.souGrid, State.souGrid, State.unit_congr hu, State.setGrid_congr hr hs hx hn]
  unfold State.srcGrid
  simp only [hsou, hf, hg, hm, State.rx_congr hm, State.pg_congr hx]

theorem State.dstGrid_congr (d : Nat) : t.dstGrid d = s.dstGrid d := by
  have hf : t.flag = s.flag := by
    funext a f
    rw [State.flag, State.get_congr hr]
    rfl
  have hg : t.srcGrid = s.srcGrid := funext fun n => State.srcGrid_congr hr hm hx hu hs hn n
  unfold State.dstGrid
  rw [State.route_congr hx, hf, hg]

theorem State.embedTracked_congr (n : Nat) : t.embedTracked n = s.embedTracked n := by
  unfold State.embedTracked
  rw [State.route_congr hx, State.dstGrid_congr hr hm hx hu hs hn]

end timing

/-! ### One output slot's sample period -/

section slot
variable {s : State} {o t : Nat} {x : Slot}

theorem gainAmp_zero : gainAmp 0 = 2 ^ 24 := rfl

/-- A slot with unity gain and nothing else carries its source's sample. -/
theorem State.gecko_unity {y : Int} (ht : s.transparent x = false) (hf : x.fade = none) (hr : x.ramp = none) (hg : x.gain = 0) (hi : x.invert = false)
    (h96 : x.rate96 = false) (hd : s.userDelay x = 0) (hc : epClass x.dst ≠ 3) (hs : s.readRef x.src 0 = y * 2 ^ 24) :
    (s.gecko x 0).2 = y * 2 ^ 72 := by
  have hm : s.slotMix x 0 = y * 2 ^ 48 := by
    rw [State.slotMix]
    dsimp only
    rw [hf, hs]
    ring
  have ha : x.amp 0 = 2 ^ 24 := by rw [Slot.amp, hr, hg, gainAmp_zero]
  have h3 : (epClass x.dst == 3) = false := by simpa using hc
  rw [State.gecko]
  dsimp only
  rw [ht, hi, h96, hd, h3, hm, ha]
  simp only [Bool.false_eq_true, if_false, if_true]
  push_cast
  ring

theorem State.gecko_src (s : State) (x : Slot) (sub : Nat) : (s.gecko x sub).1.src = x.src := rfl
theorem State.gecko_dst (s : State) (x : Slot) (sub : Nat) : (s.gecko x sub).1.dst = x.dst := rfl
theorem State.gecko_transp (s : State) (x : Slot) (sub : Nat) : (s.gecko x sub).1.transp = x.transp := rfl
theorem State.gecko_fade (s : State) (x : Slot) (sub : Nat) : (s.gecko x sub).1.fade = x.fade := rfl

theorem State.transparent_gecko (s : State) (x : Slot) (sub : Nat) : s.transparent (s.gecko x sub).1 = s.transparent x := by
  rw [State.transparent, State.transparent, State.gecko_src, State.gecko_transp]

theorem State.transparent_setSlot (s : State) (o : Nat) (y x : Slot) : (s.setSlot o y).transparent x = s.transparent x := rfl

/-- A slot is muted: it is transparent, and one of its clocks is not LOCKED. -/
def State.slotMuted (s : State) (x : Slot) : Bool := s.transparent x && !(s.srcLocked x.src.ep && s.dstLocked x.dst)

/-- The slot after its sample period, and with it the samples it sends. -/
def State.sentSlot (s : State) (x : Slot) : Slot :=
  (s.slotSend (s.gecko x 0).1 (if s.slotMuted x then [0] else [(s.gecko x 0).2])).1

theorem State.embedTracked_setSlot (s : State) (o : Nat) (y : Slot) (n : Nat) : (s.setSlot o y).embedTracked n = s.embedTracked n :=
  State.embedTracked_congr (t := s.setSlot o y) (s := s) rfl rfl rfl rfl rfl rfl n

theorem State.clkNow_setSlot (s : State) (o : Nat) (y : Slot) : (s.setSlot o y).clkNow = s.clkNow := by
  have h1 : (s.setSlot o y).clk = s.clk := rfl
  have h2 : (s.setSlot o y).onPtp = s.onPtp := rfl
  have h3 : (s.setSlot o y).media = s.media := rfl
  funext k
  unfold State.clkNow
  rw [h1, h2, h3]

theorem State.clkSt_setSlot (s : State) (o : Nat) (y : Slot) (k : Nat) : (s.setSlot o y).clkSt k = s.clkSt k := by
  rw [State.clkSt, State.clkNow_setSlot]
  rfl

theorem State.outClk_setSlot (s : State) (o : Nat) (y : Slot) (e : Nat) : (s.setSlot o y).outClk e = s.outClk e := by
  rw [State.outClk, State.outClk, State.embedTracked_setSlot, State.clkNow_setSlot]

theorem State.dstLocked_setSlot (s : State) (o : Nat) (y : Slot) (e : Nat) : (s.setSlot o y).dstLocked e = s.dstLocked e := by
  rw [State.dstLocked, State.dstLocked, State.embedTracked_setSlot, State.clkSt_setSlot, State.clkSt_setSlot]

theorem State.slotSend_setSlot (s : State) (o : Nat) (y x : Slot) (l : List Int) : (s.setSlot o y).slotSend x l = s.slotSend x l := by
  have h1 : (s.setSlot o y).dstBitsOf = s.dstBitsOf := rfl
  rw [State.slotSend, State.slotSend, h1, State.outClk_setSlot]

theorem State.srcLocked_setSlot (s : State) (o : Nat) (y : Slot) (e : Nat) : (s.setSlot o y).srcLocked e = s.srcLocked e := by
  rw [State.srcLocked, State.srcLocked]
  simp only [State.clkSt_setSlot]

theorem State.slotMuted_setSlot (s : State) (o : Nat) (y x : Slot) : (s.setSlot o y).slotMuted x = s.slotMuted x := by
  rw [State.slotMuted, State.slotMuted, State.transparent_setSlot, State.srcLocked_setSlot, State.dstLocked_setSlot]

theorem State.slotMuted_gecko (s : State) (x : Slot) (sub : Nat) : s.slotMuted (s.gecko x sub).1 = s.slotMuted x := by
  rw [State.slotMuted, State.slotMuted, State.transparent_gecko, State.gecko_src, State.gecko_dst]

/-- What a slot's period leaves behind: its history and counters. -/
def State.slotNoted (s : State) (mute : Bool) (z : Slot) (clips : List Bool) : State :=
  let s := clips.foldl (fun (s : State) c => if c then (s.inc R.AUD_CLIP_CNT).raise Hist.aud F.AUD_HIST_CLIP else s) s
  let s := if mute then s.raise Hist.aud F.AUD_HIST_TRANSP_MUTE else s
  if s.userDelay z < z.delay then s.raise Hist.aud F.AUD_HIST_DELAY_CLAMP else s

theorem State.slotNoted_onlyRegs (s : State) (mute : Bool) (z : Slot) (clips : List Bool) :
    s.onlyRegs (s.slotNoted mute z clips) [R.AUD_CLIP_CNT, R.AUD_HIST] := by
  have h1 (s : State) (f : Bits) : s.onlyRegs (s.raise Hist.aud f) [R.AUD_CLIP_CNT, R.AUD_HIST] := State.raise_onlyRegs _ _ _ (.tail _ (.head _))
  have h2 (s : State) : s.onlyRegs (s.inc R.AUD_CLIP_CNT) [R.AUD_CLIP_CNT, R.AUD_HIST] := State.inc_onlyRegs _ (.head _)
  refine .trans (State.onlyRegs.foldl clips fun c _ s => ?_) (.trans (.ite (fun _ => h1 ..) fun _ => .refl ..) (.ite (fun _ => h1 ..) fun _ => .refl ..))
  exact .ite (fun _ => (h2 s).trans (h1 ..)) fun _ => .refl ..

theorem State.slotNoted_mute (s : State) (z : Slot) (clips : List Bool) :
    (s.slotNoted true z clips).get R.AUD_HIST F.AUD_HIST_TRANSP_MUTE = 1 := by
  unfold State.slotNoted
  dsimp only
  rw [if_pos rfl]
  have h1 := fun t : State => t.get_raise Hist.aud F.AUD_HIST_TRANSP_MUTE rfl (by decide)
  split
  · exact State.get_raise_mono _ _ _ (by decide) (by decide) (h1 _)
  · exact h1 _

/-- The state in which a slot's period runs: a channel that has become transparent has its fade cut. -/
def State.cutFade (s : State) (o : Nat) (x : Slot) : State := if s.transparent x && x.fade.isSome then s.setSlot o { x with fade := none } else s

/-- A 48 kHz slot's period: from the state `w` that a cut leads to, and its slot `y` there, it ends as `sentSlot` says. -/
theorem State.geckoSlot_eq {w : State} {y : Slot} (hx : tabFind s.aud.slots o = some x) (h96 : x.rate96 = false) (hw : s.cutFade o x = w)
    (hy : tabFind w.aud.slots o = some y) : ∃ clips, s.geckoSlot o t =
      ((w.setSlot o (w.gecko y 0).1).setSlot o (w.sentSlot y)).slotNoted (w.slotMuted y) (w.sentSlot y) clips := by
  rw [State.cutFade] at hw
  have hg : w.geckoHalf o [] 0 = ([(w.gecko y 0).2], w.setSlot o (w.gecko y 0).1) := by
    rw [State.geckoHalf, hy]
    rfl
  have hf : tabFind (w.setSlot o (w.gecko y 0).1).aud.slots o = some (w.gecko y 0).1 := tabFind_put_self ..
  rw [State.geckoSlot, hx]
  dsimp only
  rw [hw, hg, h96]
  dsimp only
  rw [if_neg Bool.false_ne_true]
  dsimp only
  rw [hf]
  dsimp only
  have hm : ((w.setSlot o (w.gecko y 0).1).transparent (w.gecko y 0).1 && !((w.setSlot o (w.gecko y 0).1).srcLocked (w.gecko y 0).1.src.ep &&
      (w.setSlot o (w.gecko y 0).1).dstLocked (w.gecko y 0).1.dst)) = w.slotMuted y := by
    rw [← State.slotMuted, State.slotMuted_setSlot, State.slotMuted_gecko]
  rw [hm, State.slotSend_setSlot]
  exact ⟨_, rfl⟩

/-- A slot that passes its source's sample bit-exact. -/
theorem State.sentSlot_exact {y : Int} (ht : s.transparent x = false) (ho : s.outClk x.dst = none) (hb : s.dstBitsOf x.dst = 24)
    (hz : (s.gecko x 0).2 = y * 2 ^ 72) (h1 : -2 ^ 23 ≤ y) (h2 : y < 2 ^ 23) : (s.sentSlot x).sent = [y] := by
  have hm : s.slotMuted x = false := by rw [State.slotMuted, ht, Bool.false_and]
  rw [State.sentSlot, hm, if_neg Bool.false_ne_true, State.slotSend, State.gecko_dst, ho, hb, hz]
  exact congrArg (fun z => [z]) (roundOut_exact h1 h2)

/-- A muted slot sends zeros. -/
theorem State.sentSlot_muted (hm : s.slotMuted x = true) (ho : s.outClk x.dst = none) : (s.sentSlot x).sent = [0] := by
  rw [State.sentSlot, hm, if_pos rfl, State.slotSend, State.gecko_dst, ho]
  exact congrArg (fun z => [z]) (roundOut_zero ..)

theorem State.sentSlot_fade (s : State) (x : Slot) : (s.sentSlot x).fade = x.fade := by
  rw [State.sentSlot, State.slotSend]
  split <;> exact s.gecko_fade x 0

/-- The slot that a period leaves in the table. -/
theorem State.geckoSlot_slot {w : State} {y : Slot} (hx : tabFind s.aud.slots o = some x) (h96 : x.rate96 = false) (hw : s.cutFade o x = w)
    (hy : tabFind w.aud.slots o = some y) : tabFind (s.geckoSlot o t).aud.slots o = some (w.sentSlot y) := by
  obtain ⟨clips, h⟩ := State.geckoSlot_eq (t := t) hx h96 hw hy
  rw [h, (State.slotNoted_onlyRegs ..).aud]
  exact tabFind_put_self ..

theorem State.geckoSlot_exact {y : Int} (hx : tabFind s.aud.slots o = some x) (h96 : x.rate96 = false) (ht : s.transparent x = false)
    (ho : s.outClk x.dst = none) (hb : s.dstBitsOf x.dst = 24) (hz : (s.gecko x 0).2 = y * 2 ^ 72) (h1 : -2 ^ 23 ≤ y) (h2 : y < 2 ^ 23) :
    (tabFind (s.geckoSlot o t).aud.slots o).map (·.sent) = some [y] := by
  have hw : s.cutFade o x = s := by rw [State.cutFade, ht]; rfl
  rw [State.geckoSlot_slot hx h96 hw hx, Option.map_some, State.sentSlot_exact ht ho hb hz h1 h2]

/-- After the cut a transparent slot has no fade, and all else it had. -/
theorem State.cutFade_slot (hx : tabFind s.aud.slots o = some x) (ht : s.transparent x = true) :
    tabFind (s.cutFade o x).aud.slots o = some { x with fade := none } := by
  by_cases hf : x.fade.isSome = true
  · rw [State.cutFade, if_pos (by rw [ht, hf]; rfl)]
    exact tabFind_put_self ..
  · rw [State.cutFade, if_neg (by simpa [ht] using hf), hx, ← Option.isNone_iff_eq_none.mp (by simpa using hf)]

theorem State.cutFade_eq (s : State) (o : Nat) (x : Slot) : s.cutFade o x = s ∨ s.cutFade o x = s.setSlot o { x with fade := none } := by
  unfold State.cutFade
  split
  · exact .inr rfl
  · exact .inl rfl

theorem State.cutFade_muted (s : State) (o : Nat) (x : Slot) : (s.cutFade o x).slotMuted { x with fade := none } = s.slotMuted x := by
  rcases s.cutFade_eq o x with h | h <;> rw [h]
  · rfl
  · rw [State.slotMuted_setSlot]
    rfl

theorem State.cutFade_outClk (s : State) (o : Nat) (x : Slot) (e : Nat) : (s.cutFade o x).outClk e = s.outClk e := by
  rcases s.cutFade_eq o x with h | h <;> rw [h]
  rw [State.outClk_setSlot]

/-- A transparent channel carries zeros and fades no more while a clock is not LOCKED. -/
theorem State.geckoSlot_muted (hx : tabFind s.aud.slots o = some x) (h96 : x.rate96 = false) (ht : s.transparent x = true)
    (ho : s.outClk x.dst = none) (hl : s.srcLocked x.src.ep = false ∨ s.dstLocked x.dst = false) :
    (tabFind (s.geckoSlot o t).aud.slots o).map (·.sent) = some [0] ∧ (s.geckoSlot o t).get R.AUD_HIST F.AUD_HIST_TRANSP_MUTE = 1 ∧
      (tabFind (s.geckoSlot o t).aud.slots o).bind (·.fade) = none := by
  have hy := State.cutFade_slot hx ht
  have hm : s.slotMuted x = true := by
    rw [State.slotMuted, ht]
    rcases hl with h | h <;> simp [h]
  have hm' := (s.cutFade_muted o x).trans hm
  rw [State.geckoSlot_slot hx h96 rfl hy]
  refine ⟨?_, ?_, ?_⟩
  · rw [Option.map_some, State.sentSlot_muted hm' (by rw [State.cutFade_outClk]; exact ho)]
  · obtain ⟨clips, h⟩ := State.geckoSlot_eq (t := t) hx h96 rfl hy
    rw [h, hm']
    exact State.slotNoted_mute ..
  · rw [Option.bind_some, State.sentSlot_fade]

end slot

/-- A port whose own clock is not steered sends silence. -/
theorem State.slotSend_silent {s : State} {x : Slot} {z : Int} {c : Clk} (hc : s.outClk x.dst = some c) (hs : c.st = .lost ∨ c.st = .acquire) :
    (s.slotSend x [z]).1.sent = [0] := by
  have hz (l : List Int) : c.sends l 1 = [0] := by
    rw [Clk.sends]
    rcases hs with h | h <;> rw [h] <;> rfl
  rw [State.slotSend, hc]
  dsimp only [List.length_cons, List.length_nil]
  rw [hz, List.map_cons, List.map_nil, List.map_cons, List.map_nil, roundOut_zero]

/-! ### Ramps -/

theorem rampGain_over {r : Ramp} (h : r.len ≤ r.pos) : rampGain r = r.goal := by
  have hr : rampAt r = (r.goal, 1) := if_pos h
  rw [rampGain, hr]
  exact Int.ediv_one _

theorem rampGain_start {r : Ramp} (hl : r.linDb = true) (hn : 0 < r.len) (hf : r.from_ ≠ -32768) (hp : r.pos = 0) :
    rampGain r = r.from_ / (r.den : Int) := by
  rw [rampGain, rampAt, if_neg (by omega), hl, if_pos rfl, if_neg hf, hp]
  dsimp only
  push_cast
  rw [Nat.sub_zero, mul_zero, add_zero, mul_comm, Int.mul_ediv_mul_of_pos _ _ (by omega)]

/-! ### A sample period -/

theorem exec_mapExecute (s : State) (t : Nat) : exec (.mapExecute t) s =
    .next (((s.at_ t).maps.filter fun p => decide (p.2.exec ≤ t)).foldl State.runMap (s.at_ t)) := rfl

/-- A port that no input names brings its rate of silence. -/
theorem State.portCount_silent {s : State} {inputs : List (Nat × Int)} {idle : List Nat} {k : Nat} (hi : idle.contains k = false)
    (hn : ∀ p ∈ inputs, srcKey p.1 ≠ some k) : s.portCount inputs idle k = s.keyRate k := by
  have hf : (inputs.filter fun p => srcKey p.1 == some k) = [] := by
    rw [List.filter_eq_nil_iff]
    exact fun p hp h => hn p hp (by simpa using h)
  rw [State.portCount, hf, List.map_nil, List.foldl_nil, if_neg (by simp), hi]
  rfl

/-- The state in which a sample period begins. -/
def State.sampleStart (s : State) (n ns : Nat) : State :=
  ({ s.at_ (n * audT) with aud := { s.aud with sample := n } } : State).set R.AUD_GECKO F.AUD_GECKO_PEAK_NS
    (max (s.get R.AUD_GECKO F.AUD_GECKO_PEAK_NS) (min ns 65535))

/-- The rest of a sample period: fades that start, slots whose rate changes or whose source does, the samples taken in, and the slots' samples. -/
def State.sampleRun (s : State) (n : Nat) (inputs : List (Nat × Int)) (idle : List Nat) : State :=
  let t := n * audT
  let s := (s.fades.filter fun p => !p.2.started && decide (p.2.exec ≤ t)).foldl State.startFade s
  let s := (tabKeys s.aud.slots).foldl State.slotRate s
  let os := tabKeys s.aud.slots
  let s := os.foldl (fun s o => s.slotFollow o t) s
  let (ip, s) := s.playout n
  let s := (tabKeys s.aud.paths).foldl State.pathStep (s.intake (ip ++ inputs.filter fun p => epClass p.1 != 2) idle)
  let s := os.foldl (fun s o => s.geckoSlot o t) s
  let s := os.foldl State.slotEnd s
  (((s.audioSend n).aesBlocks n).rampStep).trimAudio

theorem exec_matrixSample_eq (s : State) (n ns : Nat) (inputs : List (Nat × Int)) (idle : List Nat) :
    exec (.matrixSample n inputs idle ns) s = .next ((s.sampleStart n ns).sampleRun n inputs idle) := rfl

section sample
variable {w : State} {o t : Nat} {x : Slot}

theorem State.slotRate_same (hx : tabFind w.aud.slots o = some x) (h : w.dst96 x.dst = x.rate96) : w.slotRate o = w := by
  rw [State.slotRate, hx]
  exact if_pos h

theorem State.slotFollow_none (hx : tabFind w.aud.slots o = some x) (h : x.nextSrc = none) : w.slotFollow o t = w := by
  rw [State.slotFollow, hx]
  dsimp only
  rw [h]

theorem State.dst96_sampleStart (s : State) (n ns e : Nat) : (s.sampleStart n ns).dst96 e = s.dst96 e := by
  have h1 (n : Nat) : R.SAP_CTL n ≠ R.AUD_GECKO := by unfold R.SAP_CTL R.AUD_GECKO quadWin; omega
  have h2 (n : Nat) : R.AESO_STAT n ≠ R.AUD_GECKO := by unfold R.AESO_STAT R.AUD_GECKO quadWin; omega
  have h3 : (s.sampleStart n ns).embed96 = s.embed96 := rfl
  have h4 (k : Nat) (f : Bits) : (s.sampleStart n ns).flag (R.SAP_CTL k) f = s.flag (R.SAP_CTL k) f := State.flag_set_ne _ _ _ _ (h1 k)
  have h5 (k : Nat) (f : Bits) : (s.sampleStart n ns).flag (R.AESO_STAT k) f = s.flag (R.AESO_STAT k) f := State.flag_set_ne _ _ _ _ (h2 k)
  rw [State.dst96, State.dst96, h3, h4, h5]

/-- A period with one slot, no fade in flight and no path line. -/
theorem State.sampleRun_one {n : Nat} {inputs : List (Nat × Int)} {idle : List Nat} (hf : w.fades = []) (hs : w.aud.slots = [(o, x)])
    (hp : w.aud.paths = []) (h96 : w.dst96 x.dst = x.rate96) (hn : x.nextSrc = none) : w.sampleRun n inputs idle =
    (((((((w.playout n).2.intake ((w.playout n).1 ++ inputs.filter fun p => epClass p.1 != 2) idle).geckoSlot o (n * audT)).slotEnd o).audioSend
      n).aesBlocks n).rampStep).trimAudio := by
  have hx : tabFind w.aud.slots o = some x := by rw [hs]; exact if_pos rfl
  have hk : tabKeys w.aud.slots = [o] := by rw [hs]; rfl
  have hpk : tabKeys (w.playout n).2.aud.paths = [] := congrArg tabKeys hp
  have h1 : (w.fades.filter fun p => !p.2.started && decide (p.2.exec ≤ n * audT)).foldl State.startFade w = w := by rw [hf]; rfl
  have h2 : (tabKeys w.aud.slots).foldl State.slotRate w = w := by rw [hk]; exact State.slotRate_same hx h96
  have h3 : (tabKeys w.aud.slots).foldl (fun s o => s.slotFollow o (n * audT)) w = w := by rw [hk]; exact State.slotFollow_none hx hn
  rw [State.sampleRun]
  dsimp only
  rw [h1, h2, h3, hk, hpk]
  rfl

end sample

/-! ### Lip-sync -/

section lipsync
variable {s : State} {u : Fin 160} {t d : Nat} {c : Chain} {p : PathLine} {b : Buf} (hc : (s.at_ t).chainOf u = some c)
  (hp : tabFind s.aud.paths u = some p) (hb : (s.unit u).sel1.bind s.buf = some b) (hd : b.done ≠ 0) (hv : p.vHist = [])
  (hm : d = min 96000 ((((s.at_ t).nsNow - b.info.ptpNs - (s.at_ t).audIn c.src) * 48000 + 500000000) / 1000000000))
include hc hp hb hd hv hm

/-- The first latency measured sets the target of a path line, a later one moves it or makes it jump. -/
theorem exec_lipsyncMeasure : exec (.lipsyncMeasure u t) s = .next (
    let q := { p with vHist := [(s.at_ t).nsNow - b.info.ptpNs], target := some d }
    if p.target = none then (s.at_ t).pathLen u d q
    else if s.lsJump < (if d < p.delay then p.delay - d else d - p.delay) ∧ p.jump.isNone then
      (({ s.at_ t with aud := { s.aud with paths := tabPut s.aud.paths u { q with jump := some 0 } } } : State).inc R.AUD_LS_JUMP_CNT).raise Hist.aud
        F.AUD_HIST_LS_JUMP
    else { s.at_ t with aud := { s.aud with paths := tabPut s.aud.paths u q } }) := by
  have e : exec (.lipsyncMeasure u t) s = execLipsyncMeasure u t s := rfl
  have hp' : tabFind (s.at_ t).aud.paths u = some p := hp
  have hb' : ((s.at_ t).unit u).sel1.bind (s.at_ t).buf = some b := hb
  have hj : (s.at_ t).lsJump = s.lsJump := rfl
  have ha : (s.at_ t).aud = s.aud := rfl
  have hl : (((s.at_ t).nsNow - b.info.ptpNs) :: p.vHist).take (s.at_ t).lsAvg = [(s.at_ t).nsNow - b.info.ptpNs] := by
    rw [hv]
    exact List.take_of_length_le (Nat.le_max_left 1 _)
  rw [e, execLipsyncMeasure]
  dsimp only
  rw [hc, hp', hb']
  dsimp only
  rw [if_neg hd, hl, hj, ha]
  simp only [List.sum_cons, List.sum_nil, List.length_cons, List.length_nil, Nat.add_zero, Nat.zero_add, Nat.div_one, Option.bind_some, ← hm]

end lipsync

/-- Settles O34: each clause by the lemma that states it. -/
theorem audioMatrix : Obligations.AudioMatrix := by
  refine ⟨filterAt_whole, fun s o t x y hx ht hf hr hg hi h96 hd hc ho hb hs h1 h2 => ?_,
    fun s o t x hx ht h96 ho hl => State.geckoSlot_muted hx h96 ht ho hl, fun s x z c hc hs => State.slotSend_silent hc hs,
    fun r h => rampGain_over h, fun r hl hn hf hp => rampGain_start hl hn hf hp, exec_mapExecute,
    fun s w n o ns inputs idle x hf hs hp h96 hn hw => ?_, fun s inputs idle k hi hn => State.portCount_silent hi hn,
    fun s u t c p b hc hp hb hd hv d hm => ⟨fun ht => ?_, fun ht hj hdiff => ?_⟩⟩
  · have hz := State.gecko_unity ht hf hr hg hi h96 hd hc hs
    exact ⟨hz, State.geckoSlot_exact hx h96 ht ho hb hz h1 h2⟩
  · rw [← State.sampleStart] at hw
    subst hw
    have hfw : (s.sampleStart n ns).fades = [] := hf
    have hsw : (s.sampleStart n ns).aud.slots = [(o, x)] := hs
    have hpw : (s.sampleStart n ns).aud.paths = [] := hp
    rw [exec_matrixSample_eq, State.sampleRun_one hfw hsw hpw ((State.dst96_sampleStart ..).trans h96) hn]
  · rw [exec_lipsyncMeasure hc hp hb hd hv hm]
    exact congrArg _ (if_pos ht)
  · have hn : p.target ≠ none := fun h => by rw [h] at ht; cases ht
    have hlt : s.lsJump < (if d < p.delay then p.delay - d else d - p.delay) := by split <;> omega
    refine ⟨_, (exec_lipsyncMeasure hc hp hb hd hv hm).trans (congrArg _ ((if_neg hn).trans (if_pos ⟨hlt, by rw [hj]; rfl⟩))), ?_, ?_,
      State.get_raise _ Hist.aud _ rfl (by decide)⟩
    · rw [State.raise_aud, State.inc_aud]
      exact tabFind_put_self ..
    · rw [State.rd_raise_ne _ Hist.aud _ (by decide), State.rd_inc]
      rfl

end Sys2Proof.Machine

/-! Clocks of tracked audio ports (O35), serial audio and AES3 ports (O36). -/
namespace Sys2Proof.Machine

/-! ### Port clocks -/

theorem State.clk_setClk_self (s : State) (k : Nat) (c : Clk) : (s.setClk k c).clk k = c := tabGet_set_self ..

/-- A clock follows from the audio tables. -/
theorem State.clk_congr {s t : State} (h : t.aud = s.aud) (k : Nat) : t.clk k = s.clk k := by rw [State.clk, h]; rfl

section clocks
variable {s : State} {p : AudPort} {off : Int} {fifo : Nat}

theorem State.audRaise_onlyRegs (s : State) (p : AudPort) (f g : Bits) :
    ∃ l, s.onlyRegs (s.audRaise p f g) l := by
  cases p with
  | sap n => exact ⟨[_], State.raise_onlyRegs _ (Hist.sap n) _ (.head _)⟩
  | aesi n => exact ⟨[_], State.raise_onlyRegs _ (Hist.aesi n) _ (.head _)⟩
  | _ => exact ⟨[], .refl ..⟩

theorem State.clk_audRaise (s : State) (p : AudPort) (f g : Bits) (k : Nat) : (s.audRaise p f g).clk k = s.clk k := by
  obtain ⟨l, h⟩ := s.audRaise_onlyRegs p f g
  exact State.clk_congr h.aud k

theorem State.get_audRaise_sap (s : State) (n : Fin 16) (f g : Bits) (hf : f.width = 1) (hb : f.lo < 32) :
    (s.audRaise (.sap n) f g).get (R.SAP_HIST n) f = 1 := State.get_raise s (Hist.sap n) f hf hb

theorem State.get_audRaise_aesi (s : State) (n : Fin 16) (f g : Bits) (hg : g.width = 1) (hb : g.lo < 32) :
    (s.audRaise (.aesi n) f g).get (R.AESI_HIST n) g = 1 := State.get_raise s (Hist.aesi n) g hg hb

theorem exec_clockAcquire (hc : (s.clk (audKey p)).st = .lost) (hu : s.audUp p = true) (ho : off.natAbs ≤ 1000000) : exec (.clockAcquire p off) s =
    .next (s.setClk (audKey p) { s.clk (audKey p) with st := .acquire, off := off, fifo := 32, pos := 0, rampIn := none, rampOut := none }) :=
  congrArg Host.Outcome.next (if_pos (by simp [hc, hu, ho]))

theorem exec_clockSteered (hc : (s.clk (audKey p)).st = .acquire) (ho : off.natAbs ≤ 20000) (h1 : 24 ≤ fifo) (h2 : fifo ≤ 40) :
    exec (.clockSteered p off fifo) s =
      .next (s.setClk (audKey p) { s.clk (audKey p) with st := .steered, off := off, fifo := fifo, integ := off * 10000, rest := 0, rampIn := some 0 }) :=
  congrArg Host.Outcome.next (if_pos (by simp [hc, ho, h1, h2]))

/-- Beyond ±200 ppm the NCO is held at its limit, and the resampler takes up the rest. -/
theorem exec_clockWide (hc : (s.clk (audKey p)).st = .acquire ∨ (s.clk (audKey p)).st = .steered) (ho : 20000 < off.natAbs) {lim : Int}
    (hl : lim = if off < 0 then -20000 else 20000) : exec (.clockWide p off) s =
      .next ((s.setClk (audKey p) { s.clk (audKey p) with
        st := .wide, off := lim, rest := off - lim, integ := off * 10000
        rampIn := if (s.clk (audKey p)).st == .acquire then some 0 else (s.clk (audKey p)).rampIn }).audRaise p F.SAP_HIST_STEER_LIMIT
          F.AESI_HIST_STEER_LIMIT) := by
  subst hl
  exact congrArg Host.Outcome.next (if_pos (by rcases hc with h | h <;> simp [h, ho]))

theorem exec_clockWideReturn (hc : (s.clk (audKey p)).st = .wide) (ho : off.natAbs ≤ 15000) : exec (.clockWideReturn p off) s =
    .next (s.setClk (audKey p) { s.clk (audKey p) with st := .steered, off := off, integ := off * 10000, rest := 0 }) :=
  congrArg Host.Outcome.next (if_pos (by simp [hc, ho]))

theorem exec_clockLocked (hc : (s.clk (audKey p)).st = .steered) (ho : off.natAbs ≤ 10) (h1 : 30 ≤ fifo) (h2 : fifo ≤ 34) :
    exec (.clockLocked p off fifo) s =
      .next (s.setClk (audKey p) { s.clk (audKey p) with st := .locked, off := off, fifo := fifo, rest := 0 }) :=
  congrArg Host.Outcome.next (if_pos (by simp [hc, ho, h1, h2]))

theorem exec_clockUnlock_out (hc : (s.clk (audKey p)).st = .locked) (hf : fifo < 16 ∨ 48 < fifo) : exec (.clockUnlock p fifo) s =
    .next (s.setClk (audKey p) { s.clk (audKey p) with st := .steered, fifo := fifo, integ := (s.clk (audKey p)).off * 10000 }) :=
  congrArg Host.Outcome.next (if_pos (by simp [hc, hf]))

theorem exec_clockUnlock_within (h1 : 16 ≤ fifo) (h2 : fifo ≤ 48) : exec (.clockUnlock p fifo) s = .next s :=
  congrArg Host.Outcome.next (if_neg (by simp; omega))

/-- A slip of a port: its clock's count and FIFO, and the registers of a serial port. -/
def State.slipped (s : State) (p : AudPort) (full : Bool) : State :=
  let k := audKey p
  let s := s.setClk k { s.clk k with slips := min 0xFFFFFFFF ((s.clk k).slips + 1), fifo := if full then 63 else 1 }
  match p with
  | .sap n => (s.inc (R.SAP_SLIP_CNT n)).raise (Hist.sap n) F.SAP_HIST_FIFO_SLIP
  | _ => s

theorem exec_fifoSlip {full : Bool} (hc : (s.clk (audKey p)).st = .steered ∨ (s.clk (audKey p)).st = .wide) :
    exec (.fifoSlip p full) s = .next (s.slipped p full) :=
  congrArg Host.Outcome.next (if_pos (by rcases hc with h | h <;> simp [h]))

theorem State.clk_slipped (s : State) (p : AudPort) (full : Bool) : (s.slipped p full).clk (audKey p) =
    { s.clk (audKey p) with slips := min 0xFFFFFFFF ((s.clk (audKey p)).slips + 1), fifo := if full then 63 else 1 } := by
  cases p with
  | sap n =>
    rw [State.slipped]
    dsimp only
    rw [State.clk_congr (State.raise_aud ..), State.clk_congr (State.inc_aud ..), State.clk_setClk_self]
  | _ => exact State.clk_setClk_self ..

theorem SAP_SLIP_CNT_ne_HIST (n : Nat) : R.SAP_SLIP_CNT n ≠ R.SAP_HIST n := by
  unfold R.SAP_SLIP_CNT R.SAP_HIST
  omega

theorem State.slipped_sap (s : State) (n : Fin 16) (full : Bool) :
    ((s.slipped (.sap n) full).rd (R.SAP_SLIP_CNT n)).toNat = min 0xFFFFFFFF ((s.rd (R.SAP_SLIP_CNT n)).toNat + 1) ∧
      (s.slipped (.sap n) full).get (R.SAP_HIST n) F.SAP_HIST_FIFO_SLIP = 1 := by
  refine ⟨?_, State.get_raise _ (Hist.sap n) _ rfl (by decide)⟩
  rw [State.slipped, State.rd_raise_ne _ (Hist.sap n) _ (SAP_SLIP_CNT_ne_HIST n), State.rd_inc]
  rfl

theorem exec_audioClockLost (h1 : (s.clk (audKey p)).st ≠ .lost) (h2 : (s.clk (audKey p)).st ≠ .master) : exec (.audioClockLost p) s =
    .next ((s.setClk (audKey p) { s.clk (audKey p) with st := .lost, rampIn := none, rampOut := some 0 }).audRaise p F.SAP_HIST_CLOCK_LOST
      F.AESI_HIST_CLOCK_LOST) := by
  have hn : ¬ ((s.clk (audKey p)).st == .lost || (s.clk (audKey p)).st == .master) = true := by simp [h1, h2]
  have hl : s.clkLost (audKey p) = s.setClk (audKey p) { s.clk (audKey p) with st := .lost, rampIn := none, rampOut := some 0 } := if_neg hn
  rw [← hl]
  exact congrArg Host.Outcome.next (if_neg hn)

end clocks

/-- Settles O35: each event of a port's clock under the conditions that let it act. -/
theorem portClocks : Obligations.PortClocks := by
  intro s p off fifo c hc
  subst hc
  refine ⟨fun hl hu ho => exec_clockAcquire hl hu ho, fun ha ho h1 h2 => exec_clockSteered ha ho h1 h2,
    fun ha ho lim hl => ⟨_, exec_clockWide (.inl ha) ho hl, ?_⟩, fun hs ho lim hl => ⟨_, exec_clockWide (.inr hs) ho hl, ?_, ?_, ?_⟩,
    fun hw ho => exec_clockWideReturn hw ho, fun hs ho h1 h2 => exec_clockLocked hs ho h1 h2, fun hl hf => exec_clockUnlock_out hl hf,
    fun _ h1 h2 => exec_clockUnlock_within h1 h2, fun full hs => ⟨_, exec_fifoSlip hs, s.clk_slipped p full, ?_⟩,
    fun h1 h2 => ⟨_, exec_audioClockLost h1 h2, ?_, ?_, ?_⟩⟩
  · rw [State.clk_audRaise, State.clk_setClk_self, ha]
    rfl
  · rw [State.clk_audRaise, State.clk_setClk_self, hs]
    rfl
  · rintro n rfl
    exact State.get_audRaise_sap _ n _ _ rfl (by decide)
  · rintro n rfl
    exact State.get_audRaise_aesi _ n _ _ rfl (by decide)
  · rintro n rfl
    exact s.slipped_sap n full
  · rw [State.clk_audRaise, State.clk_setClk_self]
  · rintro n rfl
    exact State.get_audRaise_sap _ n _ _ rfl (by decide)
  · rintro n rfl
    exact State.get_audRaise_aesi _ n _ _ rfl (by decide)

/-! ### Serial ports -/

section sap
variable {s : State} {n : Fin 16}

/-- The audio tables after the slot masks apply. -/
def State.maskAud (s : State) (n : Nat) : AudSt :=
  let w := s.rd (R.SAP_RX_MASK n)
  let v := s.rd (R.SAP_TX_MASK n)
  let new := fun (t : Tab Nat) (k : Nat) (bits : Word) => (List.range 32).foldl (fun t i => if bits.getLsbD i then tabPut t (32 * k + i) 0 else t) t
  let a := s.aud
  { a with rxMask := tabSet 0xFFFFFFFF a.rxMask n w, txMask := tabSet 0xFFFFFFFF a.txMask n v
           maskRamp := new (new a.maskRamp n (w &&& ~~~(s.rxMask n))) (16 + n) (v &&& ~~~(s.txMask n)) }

theorem exec_sapMaskApply (h : s.rd (R.SAP_RX_MASK n) ≠ s.rxMask n ∨ s.rd (R.SAP_TX_MASK n) ≠ s.txMask n) :
    exec (.sapMaskApply n) s = .next (({ s with aud := s.maskAud n } : State).raise (Hist.sap n) F.SAP_HIST_MASK_APPLIED) :=
  congrArg Host.Outcome.next (if_neg fun hx => by
    rcases h with h | h
    · exact h hx.1
    · exact h hx.2)

theorem State.rxMask_congr {s t : State} (h : t.aud = s.aud) (k : Nat) : t.rxMask k = s.rxMask k := by rw [State.rxMask, h]; rfl
theorem State.txMask_congr {s t : State} (h : t.aud = s.aud) (k : Nat) : t.txMask k = s.txMask k := by rw [State.txMask, h]; rfl

theorem exec_sapFrameErr (h : s.flag (R.SAP_CTL n) F.SAP_CTL_EN = true) :
    exec (.sapFrameErr n) s = .next (s.raise (Hist.sap n) F.SAP_HIST_FRAME_ERR) := congrArg Host.Outcome.next (if_pos h)

end sap

/-! ### AES3 inputs -/

section aesi
variable {s : State} {n : Fin 16} {bytes : List Nat}

/-- The word of channel status that bytes `4 w` on make. -/
def csWord (bytes : List Nat) (w : Nat) : Word := BitVec.ofNat 32 (unle (((bytes.drop (4 * w)).take 4).map (BitVec.ofNat 8)))

/-- The channel status of an input becomes that of a block. -/
def State.csStored (s : State) (n : Nat) (bytes : List Nat) : State := (List.range 6).foldl (fun s w => s.wr (R.AESI_CS n w) (csWord bytes w)) s

theorem AESI_CS_inj {n v w : Nat} (h : R.AESI_CS n v = R.AESI_CS n w) : v = w := by
  unfold R.AESI_CS at h
  omega

/-- Writes of distinct registers each stand. -/
theorem State.rd_foldl_wr {a : Nat → Nat} {f : Nat → Word} (ha : ∀ v w, a v = a w → v = w) (s : State) (l : List Nat) (w : Nat) :
    (l.foldl (fun s v => s.wr (a v) (f v)) s).rd (a w) = if w ∈ l then f w else s.rd (a w) := by
  induction l generalizing s with
  | nil => rfl
  | cons v l ih =>
    rw [List.foldl_cons, ih, State.rd_wr]
    by_cases h : w = v
    · subst h
      simp
    · have hne : a w ≠ a v := fun e => h (ha _ _ e)
      simp [h, hne]

theorem State.rd_csStored (s : State) {n w : Nat} (hw : w < 6) (bytes : List Nat) : (s.csStored n bytes).rd (R.AESI_CS n w) = csWord bytes w := by
  rw [State.csStored, State.rd_foldl_wr (fun _ _ => AESI_CS_inj), if_pos (List.mem_range.mpr hw)]

theorem State.csStored_onlyRegs (s : State) (n : Nat) (bytes : List Nat) :
    s.onlyRegs (s.csStored n bytes) ((List.range 6).map (R.AESI_CS n)) :=
  .foldl _ fun _ hw _ => State.wr_onlyRegs _ _ (List.mem_map_of_mem hw)

/-- The channel status stored, and a change of NONAUDIO reported. -/
def State.csTaken (s : State) (n : Nat) (bytes : List Nat) : State :=
  let na := (bytes.head?.getD 0) / 2 % 2
  if (s.csStored n bytes).get (R.AESI_STAT n) F.AESI_STAT_NONAUDIO = na then s.csStored n bytes
  else ((s.csStored n bytes).set (R.AESI_STAT n) F.AESI_STAT_NONAUDIO na).raise (Hist.aesi n) F.AESI_HIST_NONAUDIO_CHANGE

theorem exec_aesCsBlock (he : s.flag (R.AESI_CTL n) F.AESI_CTL_EN = true) (hc : (s.clk (16 + n)).st ≠ .lost) : exec (.aesCsBlock n bytes) s = .next (
    if bytes.length ≠ 24 ∨ aesCrc (bytes.take 23) ≠ (bytes[23]?).getD 0 then s.raise (Hist.aesi n) F.AESI_HIST_CS_CRC_ERR
    else s.csTaken n bytes) :=
  congrArg Host.Outcome.next (if_neg (by simp [he, hc]))

theorem AESI_STAT_not_mem_CS (n : Nat) : R.AESI_STAT n ∉ (List.range 6).map (R.AESI_CS n) := by
  simp only [List.mem_map, not_exists, not_and]
  intro w _
  unfold R.AESI_STAT R.AESI_CS
  omega

theorem AESI_HIST_ne {n w : Nat} (hw : w < 6) : R.AESI_CS n w ≠ R.AESI_HIST n ∧ R.AESI_CS n w ≠ R.AESI_STAT n ∧ R.AESI_STAT n ≠ R.AESI_HIST n := by
  unfold R.AESI_HIST R.AESI_CS R.AESI_STAT
  omega

theorem State.csTaken_regs (s : State) (n : Nat) (bytes : List Nat) :
    (∀ w < 6, (s.csTaken n bytes).rd (R.AESI_CS n w) = csWord bytes w) ∧
    (s.csTaken n bytes).get (R.AESI_STAT n) F.AESI_STAT_NONAUDIO = (bytes.head?.getD 0) / 2 % 2 ∧
    (s.get (R.AESI_STAT n) F.AESI_STAT_NONAUDIO ≠ (bytes.head?.getD 0) / 2 % 2 →
      (s.csTaken n bytes).get (R.AESI_HIST n) F.AESI_HIST_NONAUDIO_CHANGE = 1) := by
  have hg := (s.csStored_onlyRegs n bytes).get (AESI_STAT_not_mem_CS n) F.AESI_STAT_NONAUDIO
  unfold State.csTaken
  extract_lets na
  split
  next h => exact ⟨fun w hw => s.rd_csStored hw bytes, h, fun hn => absurd (hg.symm.trans h) hn⟩
  next h =>
    refine ⟨fun w hw => ?_, ?_, fun _ => State.get_raise _ (Hist.aesi n) _ rfl (by decide)⟩
    · obtain ⟨h1, h2, -⟩ := AESI_HIST_ne (n := n) hw
      rw [State.rd_raise_ne _ (Hist.aesi n) _ h1, State.rd_set_ne _ _ _ h2, s.rd_csStored hw]
    · obtain ⟨-, -, h3⟩ := AESI_HIST_ne (n := n) (w := 0) (by decide)
      rw [State.get_raise_ne _ (Hist.aesi n) _ _ h3]
      exact State.get_set_fits _ _ _ (by decide) (Nat.mod_lt _ (by decide))

/-- A parity error of a subframe: its sample is held, and the error counts. -/
theorem exec_aesParityError (b : Bool) (k : Nat) (he : s.flag (R.AESI_CTL n) F.AESI_CTL_EN = true) : exec (.aesParityError n b k) s =
    .next ((({ s with aud := { s.aud with hold := (audEp 4 n (if b then 1 else 0), k) :: s.aud.hold } } : State).inc (R.AESI_PARITY_CNT n)).raise
      (Hist.aesi n) F.AESI_HIST_PARITY_ERR) := congrArg Host.Outcome.next (if_pos he)

theorem AESI_PARITY_CNT_ne_HIST (n : Nat) : R.AESI_PARITY_CNT n ≠ R.AESI_HIST n := by
  unfold R.AESI_PARITY_CNT R.AESI_HIST
  omega

end aesi

/-! ### AES3 outputs -/

section aeso
variable {s : State} {n : Fin 16} {v : Nat}

/-- AESO_CTL as written. -/
def State.aesoCtl (s : State) (n v : Nat) : State :=
  (((s.set (R.AESO_CTL n) F.AESO_CTL_RATE96 (v / 16)).set (R.AESO_CTL n) F.AESO_CTL_SYN (v / 4)).set (R.AESO_CTL n) F.AESO_CTL_CS_PASS (v / 2)).set
    (R.AESO_CTL n) F.AESO_CTL_EN v

/-- The synthesizer that a write of AESO_CTL names. -/
def aesoSyn (n v : Nat) : Nat := n / 4 * 4 + v / 4 % 4

theorem State.aesoCtl_onlyRegs (s : State) (n v : Nat) : s.onlyRegs (s.aesoCtl n v) [R.AESO_CTL n] :=
  .trans (.trans (.trans (State.set_onlyRegs _ _ _ (.head _)) (State.set_onlyRegs _ _ _ (.head _))) (State.set_onlyRegs _ _ _ (.head _)))
    (State.set_onlyRegs _ _ _ (.head _))

theorem aesoSyn_lt (n : Fin 16) (v : Nat) : aesoSyn n v < 16 := by unfold aesoSyn; omega

/-- Writes of a quadrant's registers leave those of the synthesizers. -/
theorem State.onlyRegs.synRegsSame {s t : State} {l : List Nat} (h : s.onlyRegs t l) (hl : ∀ a ∈ l, 0x1000000 ≤ a) {k : Nat} (hk : k < 16) :
    s.synRegsSame t k := by
  intro a _ h2
  refine h.rd fun hm => ?_
  have := hl a hm
  unfold R.SYN_TS_CTL at h2
  omega

/-- The registers of AES3 output `n`. -/
def aesoRegs (n : Nat) : List Nat := [R.AESO_CTL n, R.AESO_STAT n, R.AESO_DIV_INT n, R.AESO_DIV_FRAC n]

theorem aesoRegs_quad {n a : Nat} (h : a ∈ aesoRegs n) : 0x1000000 ≤ a := by
  simp only [aesoRegs, List.mem_cons, List.not_mem_nil, or_false] at h
  unfold R.AESO_CTL R.AESO_STAT R.AESO_DIV_INT R.AESO_DIV_FRAC quadWin at h
  omega

theorem exec_aesoEnWrite (hu : s.upFor (R.AESO_CTL n)) : exec (.aesoEnWrite n v) s = .next (s.aesoWrite n v) := by
  have e : exec (.aesoEnWrite n v) s = execAesoEnWrite n v s := rfl
  rw [e, execAesoEnWrite, State.byHost_upFor hu]

/-- The dividers and the rate of an output that runs. -/
def State.aesoDivided (s : State) (n v : Nat) : State :=
  let d := divider (128 * (if v / 16 % 2 = 1 then 96000 else 48000))
  (((s.aesoCtl n v).set (R.AESO_STAT n) F.AESO_STAT_RATE96 (v / 16 % 2)).set (R.AESO_DIV_INT n) F.AESO_DIV_INT_INT (d / 2 ^ 24)).set
    (R.AESO_DIV_FRAC n) F.AESO_DIV_FRAC_FRAC d

theorem State.aesoDivided_onlyRegs (s : State) (n v : Nat) : s.onlyRegs (s.aesoDivided n v) (aesoRegs n) :=
  .trans (.trans (.trans ((s.aesoCtl_onlyRegs n v).mono fun a ha => by simp_all [aesoRegs]) (State.set_onlyRegs _ _ _ (.tail _ (.head _))))
    (State.set_onlyRegs _ _ _ (.tail _ (.tail _ (.head _))))) (State.set_onlyRegs _ _ _ (.tail _ (.tail _ (.tail _ (.head _)))))

theorem State.aesoCtl_synForAudio (s : State) (n : Fin 16) (v : Nat) : (s.aesoCtl n v).synForAudio (aesoSyn n v) = s.synForAudio (aesoSyn n v) := by
  have h := s.aesoCtl_onlyRegs n v
  refine State.synForAudio_congr (h.synRegsSame (fun a ha => ?_) (aesoSyn_lt n v)) h.syn rfl
  exact aesoRegs_quad (n := n) (by simp_all [aesoRegs])

theorem State.aesoWrite_eq (s : State) (n : Fin 16) (v : Nat) : s.aesoWrite n v =
    if v % 2 = 0 then (s.aesoCtl n v).set (R.AESO_STAT n) F.AESO_STAT_ACTIVE 0
    else if !s.synForAudio (aesoSyn n v) then
      ((s.aesoCtl n v).set (R.AESO_STAT n) F.AESO_STAT_ACTIVE 0).raise (Hist.syn (aesoSyn n v)) F.SYN_TS_HIST_CFG_ERR
    else (s.aesoDivided n v).setB (R.AESO_STAT n) F.AESO_STAT_ACTIVE (s.synState (aesoSyn n v) == 3) := by
  have h1 := s.aesoCtl_synForAudio n v
  have h2 : (s.aesoDivided n v).synState (aesoSyn n v) = s.synState (aesoSyn n v) :=
    State.synState_congr ((s.aesoDivided_onlyRegs n v).synRegsSame (fun _ => aesoRegs_quad) (aesoSyn_lt n v))
  rw [← h1, ← h2]
  rfl

theorem AESO_STAT_ne_SYN_HIST (n : Nat) {k : Nat} (_ : k < 16) : R.AESO_STAT n ≠ R.SYN_TS_HIST k := by
  unfold R.AESO_STAT R.SYN_TS_HIST quadWin
  omega

theorem State.aesoWrite_off (hv : v % 2 = 0) : (s.aesoWrite n v).get (R.AESO_STAT n) F.AESO_STAT_ACTIVE = 0 ∧
    s.onlyRegs (s.aesoWrite n v) [R.AESO_CTL n, R.AESO_STAT n] := by
  rw [State.aesoWrite_eq, if_pos hv]
  refine ⟨State.get_set_fits _ _ _ (by decide) (by decide), .trans ((s.aesoCtl_onlyRegs n v).mono fun a ha => ?_)
    (State.set_onlyRegs _ _ _ (.tail _ (.head _)))⟩
  rw [List.mem_singleton.mp ha]
  exact .head _

theorem State.aesoWrite_refused (hv : v % 2 = 1) (hs : s.synForAudio (aesoSyn n v) = false) :
    (s.aesoWrite n v).get (R.AESO_STAT n) F.AESO_STAT_ACTIVE = 0 ∧
    (s.aesoWrite n v).get (R.SYN_TS_HIST (aesoSyn n v)) F.SYN_TS_HIST_CFG_ERR = 1 := by
  rw [State.aesoWrite_eq, if_neg (by omega), hs, Bool.not_false, if_pos rfl]
  refine ⟨?_, State.get_raise _ (Hist.syn (aesoSyn n v)) _ rfl (by decide)⟩
  exact (State.get_raise_ne _ (Hist.syn (aesoSyn n v)) _ _ (AESO_STAT_ne_SYN_HIST n (aesoSyn_lt n v))).trans
    (State.get_set_fits _ _ _ (by decide) (by decide))

theorem State.aesoWrite_on (hv : v % 2 = 1) (hs : s.synForAudio (aesoSyn n v) = true) :
    (s.aesoWrite n v).flag (R.AESO_STAT n) F.AESO_STAT_ACTIVE = (s.synState (aesoSyn n v) == 3) ∧
    s.onlyRegs (s.aesoWrite n v) (aesoRegs n) := by
  rw [State.aesoWrite_eq, if_neg (by omega), hs, Bool.not_true, if_neg Bool.false_ne_true]
  exact ⟨State.flag_setB_self _ _ _ _ (by decide) rfl, (s.aesoDivided_onlyRegs n v).trans (State.set_onlyRegs _ _ _ (.tail _ (.head _)))⟩

end aeso

/-- Settles O36: each event and write under the conditions that let it act. -/
theorem audioPorts : Obligations.AudioPorts := by
  refine ⟨fun s n h => ⟨_, exec_sapMaskApply h, ?_, ?_, State.get_raise _ (Hist.sap n) _ rfl (by decide), fun a ha =>
      State.rd_raise_ne _ (Hist.sap n) _ ha⟩, fun s n h => exec_sapFrameErr h, fun s n bytes he hc => ⟨fun hb => ?_, fun h1 h2 => ?_⟩,
    fun s n b k he => ⟨_, exec_aesParityError b k he, ?_, ?_, State.get_raise _ (Hist.aesi n) _ rfl (by decide)⟩,
    fun s n v hu => ⟨fun hv => ?_, fun hv hs => ?_, fun hv hs => ?_⟩⟩
  · rw [State.rxMask_congr (State.raise_aud ..)]
    exact tabGet_set_self ..
  · rw [State.txMask_congr (State.raise_aud ..)]
    exact tabGet_set_self ..
  · exact (exec_aesCsBlock he hc).trans (congrArg _ (if_pos hb))
  · exact ⟨_, (exec_aesCsBlock he hc).trans (congrArg _ (if_neg (by simp [h1, h2]))), s.csTaken_regs n bytes⟩
  · rw [State.raise_aud, State.inc_aud]
  · rw [State.rd_raise_ne _ (Hist.aesi n) _ (AESI_PARITY_CNT_ne_HIST n), State.rd_inc]
    rfl
  · exact ⟨_, exec_aesoEnWrite hu, State.aesoWrite_off hv⟩
  · exact ⟨_, exec_aesoEnWrite hu, State.aesoWrite_refused hv hs⟩
  · exact ⟨_, exec_aesoEnWrite hu, State.aesoWrite_on hv hs⟩

end Sys2Proof.Machine

/-! Reference inputs (O37). -/
namespace Sys2Proof.Machine

/-! ### Addresses of an input -/

theorem REF_IN_CFG_ne (i : Nat) : R.REF_IN_STAT i ≠ R.REF_IN_CFG i := by unfold R.REF_IN_STAT R.REF_IN_CFG; omega
theorem REF_IN_FREQ_ne (i : Nat) : R.REF_IN_FREQ i ≠ R.REF_IN_PHASE i := by unfold R.REF_IN_FREQ R.REF_IN_PHASE; omega
theorem REF_IN_STAT_ne (i : Nat) : R.REF_IN_STAT i ≠ R.REF_IN_FREQ i ∧ R.REF_IN_STAT i ≠ R.REF_IN_PHASE i := by
  unfold R.REF_IN_STAT R.REF_IN_FREQ R.REF_IN_PHASE
  omega

theorem REF_XO_CAL_ne (i : Nat) : R.REF_XO_CAL ≠ R.REF_IN_STAT i ∧ R.REF_XO_CAL ≠ R.REF_IN_FREQ i := by
  unfold R.REF_XO_CAL R.REF_IN_STAT R.REF_IN_FREQ
  omega

theorem REF_IN_OFS_ne (i : Nat) : R.REF_IN_OFS i ≠ R.REF_IN_FREQ i ∧ R.REF_IN_OFS i ≠ R.REF_IN_STAT i := by
  unfold R.REF_IN_OFS R.REF_IN_FREQ R.REF_IN_STAT
  omega

/-! ### Enabling an input and its source -/

section cfg
variable {s : State} {i : Fin 8} {t : Nat}

theorem exec_refInEnWrite (h : s.upFor (R.REF_IN_CFG i)) (en : Bool) : exec (.refInEnWrite i en t) s = .next (s.refInEnWrite i en t) := by
  have e : exec (.refInEnWrite i en t) s = execRefInEnWrite i en t s := rfl
  rw [e, execRefInEnWrite, State.byHost_upFor h]

/-- REF_IN_CFG with EN as written. -/
theorem State.inSt_setEn (s : State) (i : Fin 8) (en : Bool) (t : Nat) : ((s.at_ t).setB (R.REF_IN_CFG i) F.REF_IN_CFG_EN en).inSt i = s.inSt i :=
  State.get_set_ne _ _ _ _ (REF_IN_CFG_ne i)

theorem lifecycle_setCfg (s : State) (i : Fin 8) (f : Bits) (v t : Nat) : ((s.at_ t).set (R.REF_IN_CFG i) f v).lifecycle = s.lifecycle :=
  State.get_set_ne _ _ _ _ (by unfold R.SEC_STAT R.REF_IN_CFG; omega)

/-- Enabling an input that is OFF makes it LOST. -/
theorem State.refInEnWrite_on (h : s.inSt i = 0) (hl : s.lifecycle ≠ 4) :
    s.refInEnWrite i true t = ((s.at_ t).setB (R.REF_IN_CFG i) F.REF_IN_CFG_EN true).setIn i 1 := by
  rw [State.refInEnWrite, State.inSt_setEn, if_pos rfl]
  exact if_pos ⟨h, by rw [State.setB, lifecycle_setCfg]; exact hl⟩

theorem State.refInEnWrite_still (h : s.inSt i ≠ 0) :
    s.refInEnWrite i true t = (s.at_ t).setB (R.REF_IN_CFG i) F.REF_IN_CFG_EN true := by
  rw [State.refInEnWrite, State.inSt_setEn, if_pos rfl]
  exact if_neg fun hx => h hx.1

theorem State.refInEnWrite_off (h : s.inSt i = 0) :
    s.refInEnWrite i false t = (s.at_ t).setB (R.REF_IN_CFG i) F.REF_IN_CFG_EN false := by
  rw [State.refInEnWrite, State.inSt_setEn, if_neg Bool.false_ne_true]
  exact if_pos h

/-- Disabling an input makes it leave for OFF. -/
theorem State.refInEnWrite_leave (h : s.inSt i ≠ 0) :
    s.refInEnWrite i false t = ((((s.at_ t).setB (R.REF_IN_CFG i) F.REF_IN_CFG_EN false).leaveIn i 0).clearIn i) := by
  rw [State.refInEnWrite, State.inSt_setEn, if_neg Bool.false_ne_true]
  exact if_neg h

theorem State.setEn_spec (s : State) (i : Fin 8) (en : Bool) (t : Nat) :
    ((s.at_ t).setB (R.REF_IN_CFG i) F.REF_IN_CFG_EN en).flag (R.REF_IN_CFG i) F.REF_IN_CFG_EN = en ∧
      s.onlyRegs ((s.at_ t).setB (R.REF_IN_CFG i) F.REF_IN_CFG_EN en) [R.REF_IN_CFG i] :=
  ⟨State.flag_setB_self _ _ _ _ (by decide) rfl, (s.at_onlyRegs t _).trans (State.set_onlyRegs _ _ _ (.head _))⟩

/-- An input that was OFF is LOST once enabled. -/
theorem refInEnWrite_lost (hu : s.upFor (R.REF_IN_CFG i)) (h : s.inSt i = 0) : ∃ u, exec (.refInEnWrite i true t) s = .next u ∧ u.inSt i = 1 ∧
    u.flag (R.REF_IN_CFG i) F.REF_IN_CFG_EN = true ∧ s.onlyRegs u [R.REF_IN_CFG i, R.REF_IN_STAT i] := by
  obtain ⟨h1, h2⟩ := s.setEn_spec i true t
  refine ⟨_, (exec_refInEnWrite hu true).trans (congrArg _ (State.refInEnWrite_on h hu.1.2)), State.get_set_fits _ _ _ (by decide) (by decide), ?_,
    (h2.mono fun a ha => by rw [List.mem_singleton.mp ha]; exact .head _).trans (State.set_onlyRegs _ _ _ (.tail _ (.head _)))⟩
  exact (State.flag_set_ne _ _ _ _ (REF_IN_CFG_ne i).symm).trans h1

/-- REF_IN_CFG with the source as written. -/
def State.setSource (s : State) (i src dom : Nat) (term : Bool) (t : Nat) : State :=
  (((s.at_ t).set (R.REF_IN_CFG i) F.REF_IN_CFG_SRC src).set (R.REF_IN_CFG i) F.REF_IN_CFG_PTP_DOMAIN dom).setB (R.REF_IN_CFG i) F.REF_IN_CFG_TERM term

theorem State.setSource_onlyRegs (s : State) (i src dom : Nat) (term : Bool) (t : Nat) :
    s.onlyRegs (s.setSource i src dom term t) [R.REF_IN_CFG i] :=
  .trans (.trans (.trans (s.at_onlyRegs t _) (State.set_onlyRegs _ _ _ (.head _))) (State.set_onlyRegs _ _ _ (.head _)))
    (State.set_onlyRegs _ _ _ (.head _))

theorem State.setSource_fields (s : State) (i src dom : Nat) (term : Bool) (t : Nat) :
    (s.setSource i src dom term t).get (R.REF_IN_CFG i) F.REF_IN_CFG_SRC = src % 128 ∧
    (s.setSource i src dom term t).get (R.REF_IN_CFG i) F.REF_IN_CFG_PTP_DOMAIN = dom % 128 ∧
    (s.setSource i src dom term t).flag (R.REF_IN_CFG i) F.REF_IN_CFG_TERM = term := by
  refine ⟨?_, ?_, State.flag_setB_self _ _ _ _ (by decide) rfl⟩
  · rw [State.setSource, State.setB, State.get_set_apart _ _ _ _ _ (by decide) (by decide), State.get_set_apart _ _ _ _ _ (by decide) (by decide)]
    exact State.get_set_self _ _ _ _ (by decide)
  · rw [State.setSource, State.setB, State.get_set_apart _ _ _ _ _ (by decide) (by decide)]
    exact State.get_set_self _ _ _ _ (by decide)

theorem exec_refInSrcWrite (h : s.upFor (R.REF_IN_CFG i)) (src dom : Nat) (term : Bool) : exec (.refInSrcWrite i src dom term t) s =
    .next (s.refInSrcWrite i src dom term t) := by
  have e : exec (.refInSrcWrite i src dom term t) s = execRefInSrcWrite i src dom term t s := rfl
  rw [e, execRefInSrcWrite, State.byHost_upFor h]

theorem State.inSt_setSource (s : State) (i src dom : Nat) (term : Bool) (t : Nat) : (s.setSource i src dom term t).inSt i = s.inSt i :=
  (s.setSource_onlyRegs i src dom term t).get (by simpa using REF_IN_CFG_ne i) _

/-- A write of a source, with the input as it starts afresh. -/
theorem State.refInSrcWrite_eq (s : State) (i : Fin 8) (src dom : Nat) (term : Bool) (t : Nat) {w : State}
    (hw : w = if s.inSt i = 0 then s.setSource i src dom term t
      else (((s.setSource i src dom term t).leaveIn i 1).clearIn i).raise (Hist.refIn i) F.REF_IN_HIST_LOST) :
    s.refInSrcWrite i src dom term t = w.setRefIn i { w.refIn i with failed := false, sec := none } := by
  subst hw
  rw [← s.inSt_setSource i src dom term t]
  rfl

theorem refInSrcWrite_off (hu : s.upFor (R.REF_IN_CFG i)) (h : s.inSt i = 0) (src dom : Nat) (term : Bool) :
    ∃ u, exec (.refInSrcWrite i src dom term t) s = .next u ∧ u.get (R.REF_IN_CFG i) F.REF_IN_CFG_SRC = src % 128 ∧
      u.get (R.REF_IN_CFG i) F.REF_IN_CFG_PTP_DOMAIN = dom % 128 ∧ u.flag (R.REF_IN_CFG i) F.REF_IN_CFG_TERM = term ∧ (u.refIn i).failed = false ∧
      ∀ a, a ≠ R.REF_IN_CFG i → u.rd a = s.rd a := by
  obtain ⟨h1, h2, h3⟩ := s.setSource_fields i src dom term t
  refine ⟨_, (exec_refInSrcWrite hu src dom term).trans (congrArg _ (s.refInSrcWrite_eq i src dom term t (if_pos h).symm)),
    (State.get_setRefIn ..).trans h1, (State.get_setRefIn ..).trans h2, (State.flag_setRefIn ..).trans h3,
    congrArg RefIn.failed (tabGet_set_self ..), fun a ha => (State.rd_setRefIn ..).trans ((s.setSource_onlyRegs i src dom term t).rd (by simpa using ha))⟩

end cfg

/-! ### Measurements -/

section measure
variable {s : State} {i : Nat} {m : RefMeas}

/-- The state in which the phase of a measurement is looked at. -/
def State.freqTaken (s : State) (i : Nat) (m : RefMeas) : State :=
  let s := s.wrInt (R.REF_IN_FREQ i) (s.freqOf m)
  if i = 4 ∨ i = 5 then s.setRefIn i { s.refIn i with sec := m.obs.map fun x => roundDiv x 1000000000, sync := m.sync } else s

theorem State.freqTaken_rd (s : State) (i : Nat) (m : RefMeas) (a : Nat) :
    (s.freqTaken i m).rd a = if a = R.REF_IN_FREQ i then BitVec.ofInt 32 (s.freqOf m) else s.rd a := by
  unfold State.freqTaken
  split
  · exact s.rd_wr _ _ _
  · exact s.rd_wr _ _ _

theorem State.freqTaken_xpt (s : State) (i : Nat) (m : RefMeas) : (s.freqTaken i m).xpt = s.xpt := by
  unfold State.freqTaken
  split <;> rfl

/-- The phase of a measurement follows from registers that taking its frequency leaves. -/
theorem State.phaseOf_freqTaken (s : State) (i : Nat) (m : RefMeas) : (s.freqTaken i m).phaseOf i m = s.phaseOf i m := by
  have h1 : (s.freqTaken i m).rdInt (R.REF_IN_OFS i) = s.rdInt (R.REF_IN_OFS i) := by
    rw [State.rdInt, State.freqTaken_rd, if_neg (REF_IN_OFS_ne i).1]
    rfl
  have h2 : (s.freqTaken i m).get (R.REF_IN_STAT i) F.REF_IN_STAT_FORMAT = s.get (R.REF_IN_STAT i) F.REF_IN_STAT_FORMAT := by
    rw [State.get, State.freqTaken_rd, if_neg (REF_IN_STAT_ne i).1]
    rfl
  rw [State.phaseOf, State.phaseOf, h1, h2, State.fmt_congr (s.freqTaken_xpt i m)]

/-- What REF_IN_PHASE shows of a measurement. -/
def State.phaseWord (s : State) (i : Nat) (m : RefMeas) : Word :=
  match s.phaseOf i m with
  | some p => BitVec.ofInt 32 (sat32 p)
  | none => 0x80000000

theorem State.measure_eq (s : State) (i : Nat) (m : RefMeas) : s.measure i m = (s.freqTaken i m).wr (R.REF_IN_PHASE i) (s.phaseWord i m) := by
  have h : s.measure i m = match (s.freqTaken i m).phaseOf i m with
    | some p => (s.freqTaken i m).wrInt (R.REF_IN_PHASE i) (sat32 p)
    | none => (s.freqTaken i m).wr (R.REF_IN_PHASE i) 0x80000000 := rfl
  rw [h, State.phaseOf_freqTaken, State.phaseWord]
  cases s.phaseOf i m <;> rfl

theorem State.measure_rd (s : State) (i : Nat) (m : RefMeas) (a : Nat) : (s.measure i m).rd a =
    if a = R.REF_IN_PHASE i then s.phaseWord i m else if a = R.REF_IN_FREQ i then BitVec.ofInt 32 (s.freqOf m) else s.rd a := by
  rw [State.measure_eq, State.rd_wr, State.freqTaken_rd]

theorem State.measure_get_stat (s : State) (i : Nat) (m : RefMeas) (f : Bits) : (s.measure i m).get (R.REF_IN_STAT i) f = s.get (R.REF_IN_STAT i) f := by
  obtain ⟨h1, h2⟩ := REF_IN_STAT_ne i
  rw [State.get, State.measure_rd, if_neg h2, if_neg h1]
  rfl

theorem State.measure_inSt (s : State) (i : Nat) (m : RefMeas) : (s.measure i m).inSt i = s.inSt i := s.measure_get_stat i m _

theorem State.measure_ref (s : State) (i : Nat) (m : RefMeas) : (s.measure i m).ref = (s.freqTaken i m).ref := by
  rw [State.measure_eq]
  rfl

theorem State.freqTaken_refIn (h : i = 4 ∨ i = 5) :
    (s.freqTaken i m).refIn i = { s.refIn i with sec := m.obs.map fun x => roundDiv x 1000000000, sync := m.sync } := by
  rw [State.freqTaken]
  dsimp only
  rw [if_pos h]
  exact tabGet_set_self ..

theorem State.freqTaken_ref (h4 : i ≠ 4) (h5 : i ≠ 5) : (s.freqTaken i m).ref = s.ref := by
  rw [State.freqTaken]
  dsimp only
  rw [if_neg (by omega)]
  rfl

theorem State.measure_refIn_ptp (h : i = 4 ∨ i = 5) :
    (s.measure i m).refIn i = { s.refIn i with sec := m.obs.map fun x => roundDiv x 1000000000, sync := m.sync } := by
  rw [State.refIn_congr (s.measure_ref i m), State.freqTaken_refIn h]

theorem State.measure_since (s : State) (i : Nat) (m : RefMeas) : ((s.measure i m).refIn i).since = (s.refIn i).since := by
  by_cases h : i = 4 ∨ i = 5
  · rw [State.measure_refIn_ptp h]
  · rw [State.refIn_congr (s.measure_ref i m), State.refIn_congr (State.freqTaken_ref (by omega) (by omega))]

/-- A measurement touches two registers, and the input's own record. -/
theorem State.measure_onlyRegs (s : State) (i : Nat) (m : RefMeas) :
    s.onlyRegs { s.measure i m with ref := s.ref } [R.REF_IN_FREQ i, R.REF_IN_PHASE i] := by
  refine ⟨?_, fun a ha => ?_⟩
  · rw [State.measure_eq, State.freqTaken]
    dsimp only
    split <;> rfl
  · obtain ⟨h1, h2⟩ : a ≠ R.REF_IN_FREQ i ∧ a ≠ R.REF_IN_PHASE i := by simpa using ha
    have h := s.measure_rd i m a
    rw [if_neg h2, if_neg h1] at h
    exact h

end measure

/-! ### Activity, qualification and loss -/

section events
variable {s : State} {i : Fin 8} {t : Nat} {m : RefMeas}

/-- The format an input with activity shows. -/
def State.actFmt (s : State) (i fmt : Nat) : Nat :=
  if 6 ≤ i then s.get (R.SDI_RX_STAT (s.get (R.REF_IN_CFG i) F.REF_IN_CFG_SRC)) F.SDI_RX_STAT_FORMAT else if i < 2 then fmt else 0xFF

/-- An input that starts to qualify, before it is measured. -/
def State.active (s : State) (i f t : Nat) : State :=
  (((s.at_ t).setIn i 2).set (R.REF_IN_STAT i) F.REF_IN_STAT_FORMAT f).setRefIn i { s.refIn i with since := t }

theorem exec_refActivity {fmt : Nat} (h : s.inSt i = 1) (ha : s.actOk i fmt = true) :
    exec (.refActivity i fmt m t) s = .next ((s.active i (s.actFmt i fmt) t).measure i m) :=
  congrArg Host.Outcome.next (if_pos ⟨h, ha⟩)

theorem State.active_rd (s : State) (i f t : Nat) {a : Nat} (ha : a ≠ R.REF_IN_STAT i) : (s.active i f t).rd a = s.rd a := by
  rw [State.active, State.rd_setRefIn, State.rd_set_ne _ _ _ ha, State.setIn, State.rd_set_ne _ _ _ ha]
  rfl

theorem State.active_inSt (s : State) (i f t : Nat) : (s.active i f t).inSt i = 2 := by
  rw [State.active, State.inSt, State.get_setRefIn, State.get_set_apart _ _ _ _ _ (by decide) (by decide)]
  exact State.get_set_fits _ _ _ (by decide) (by decide)

theorem State.active_fmt (s : State) {i f t : Nat} (hf : f < 2 ^ 8) : (s.active i f t).get (R.REF_IN_STAT i) F.REF_IN_STAT_FORMAT = f := by
  rw [State.active, State.get_setRefIn]
  exact State.get_set_fits _ _ _ (by decide) hf

theorem State.active_since (s : State) (i f t : Nat) : ((s.active i f t).refIn i).since = t := congrArg RefIn.since (tabGet_set_self ..)

/-- An input with activity qualifies, and shows what is measured. -/
theorem State.active_measure (s : State) (i : Fin 8) (f t : Nat) (m : RefMeas) :
    ((s.active i f t).measure i m).inSt i = 2 ∧ (((s.active i f t).measure i m).refIn i).since = t ∧
    ((s.active i f t).measure i m).rd (R.REF_IN_FREQ i) = BitVec.ofInt 32 (s.freqOf m) ∧
    ((s.active i f t).measure i m).get (R.REF_IN_STAT i) F.REF_IN_STAT_FORMAT = (s.active i f t).get (R.REF_IN_STAT i) F.REF_IN_STAT_FORMAT ∧
    ∀ a, a ∉ [R.REF_IN_STAT i, R.REF_IN_FREQ i, R.REF_IN_PHASE i] → ((s.active i f t).measure i m).rd a = s.rd a := by
  have hfreq : (s.active i f t).freqOf m = s.freqOf m := by
    rw [State.freqOf, State.freqOf, State.rdInt, State.rdInt, State.active_rd _ _ _ _ (REF_XO_CAL_ne i).1]
  refine ⟨by rw [State.measure_inSt, State.active_inSt], by rw [State.measure_since, State.active_since], ?_, State.measure_get_stat .., fun a ha => ?_⟩
  · rw [State.measure_rd, if_neg (REF_IN_FREQ_ne i), if_pos rfl, hfreq]
  · obtain ⟨h1, h2, h3⟩ : a ≠ R.REF_IN_STAT i ∧ a ≠ R.REF_IN_FREQ i ∧ a ≠ R.REF_IN_PHASE i := by simpa using ha
    rw [State.measure_rd, if_neg h3, if_neg h2, State.active_rd _ _ _ _ h1]

/-- REFA and REFB show the format of their activity. -/
theorem State.actFmt_lt {fmt : Nat} (ha : s.actOk i fmt = true) (hi : i.val < 2) : s.actFmt i fmt = fmt ∧ fmt < 2 ^ 8 := by
  rw [State.actOk, if_pos hi] at ha
  have := of_decide_eq_true ha
  refine ⟨?_, by omega⟩
  rw [State.actFmt, if_neg (by omega), if_pos hi]

/-- The whole seconds that a PTP master gives with the qualification of its input. -/
def State.secTaken (s : State) (i : Nat) (sec : Option Nat) (t : Nat) : State :=
  match sec with
  | some x => if i = 4 ∨ i = 5 then s.setRefIn i { s.refIn i with sec := some ((x : Int) - (t / ticksPerSec : Nat)) } else s
  | none => s

theorem exec_refQualified (sec : Option Nat) (h : s.inSt i = 2) (hf : (s.freqOf m).natAbs ≤ s.qualPpm)
    (ht : (s.refIn i).since + s.qualTime ≤ t) : exec (.refQualified i m sec t) s = .next ((((s.at_ t).measure i m).secTaken i sec t).qualify i) := by
  refine (congrArg Host.Outcome.next (if_pos ⟨h, hf, ht⟩)).trans ?_
  cases sec <;> rfl

/-- After a failure an input waits to restore, unless holdover skips the wait. -/
theorem State.qualify_eq (w : State) (i : Nat) : w.qualify i =
    (if (w.refIn i).failed = true ∧ w.get R.REF_WTR F.REF_WTR_WTR ≠ 0 ∧ (w.selSt = 3 → w.flag R.REF_CTL F.REF_CTL_HOLD_SKIP_WTR = false)
      then ((w.setIn i 3).set (R.REF_IN_STAT i) F.REF_IN_STAT_WTR_LEFT (w.get R.REF_WTR F.REF_WTR_WTR)).setRefIn i { w.refIn i with since := w.now }
      else w.makeAvail i).secCheck := by
  have hiff : ((w.refIn i).failed && !(w.selSt == 3 && w.flag R.REF_CTL F.REF_CTL_HOLD_SKIP_WTR) && w.get R.REF_WTR F.REF_WTR_WTR != 0) = true ↔
      (w.refIn i).failed = true ∧ w.get R.REF_WTR F.REF_WTR_WTR ≠ 0 ∧ (w.selSt = 3 → w.flag R.REF_CTL F.REF_CTL_HOLD_SKIP_WTR = false) := by
    simp only [Bool.and_eq_true, Bool.not_eq_true', Bool.and_eq_false_iff, beq_eq_false_iff_ne, bne_iff_ne, ne_eq]
    tauto
  rw [State.qualify]
  dsimp only
  rw [if_congr hiff rfl rfl]

theorem exec_wtrExpired (h : s.inSt i = 3) (hs : s.suspect i = false) (hw : (s.at_ t).wtrLeft i = 0) :
    exec (.wtrExpired i t) s = .next ((s.at_ t).makeAvail i).secCheck :=
  congrArg Host.Outcome.next (if_pos ⟨h, congrArg (!·) hs, hw⟩)

theorem exec_refDeclaredLost (h : 2 ≤ s.inSt i) :
    exec (.refDeclaredLost i t) s = .next ((((s.at_ t).leaveIn i 1).clearIn i).raise (Hist.refIn i) F.REF_IN_HIST_LOST) :=
  congrArg Host.Outcome.next (if_neg (Nat.not_lt.mpr h))

/-- A break of an input: past its check it is measured, and leaves, starts again or stays. -/
theorem exec_refDisqualified {brk : RefBreak} (h : 2 ≤ s.inSt i) (hb : ¬ (if brk = .phase then i.val = 2 else (s.freqOf m).natAbs ≤ s.qualPpm)) :
    exec (.refDisqualified i m brk t) s = .next (
      if 3 ≤ s.inSt i ∧ brk = .steady then ((((s.at_ t).measure i m).leaveIn i 2).raise (Hist.refIn i) F.REF_IN_HIST_DISQ)
      else if s.inSt i ≤ 3 then ((s.at_ t).measure i m).restart i
      else (s.at_ t).measure i m) := by
  have hm : ((s.at_ t).measure i m).inSt i = s.inSt i := State.measure_inSt ..
  rw [← hm]
  exact congrArg Host.Outcome.next (if_neg fun hx => hx.elim (fun hx => absurd h (Nat.not_le.mpr hx)) hb)

/-- The two kinds of break that Table 7-3 names. -/
theorem break_holds {brk : RefBreak} (h : brk = .phase ∧ i.val ≠ 2 ∨ brk ≠ .phase ∧ s.qualPpm < (s.freqOf m).natAbs) :
    ¬ (if brk = .phase then i.val = 2 else (s.freqOf m).natAbs ≤ s.qualPpm) := by
  rcases h with ⟨hb, hi⟩ | ⟨hb, hf⟩
  · rw [if_pos hb]
    exact hi
  · rw [if_neg hb]
    exact Nat.not_le.mpr hf

end events

/-! ### QUAL -/

section qual
variable {s w : State} {i ppm time t : Nat}

/-- REF_QUAL as a write clamps it. -/
def State.setQual (s : State) (ppm time t : Nat) : State :=
  ((s.at_ t).set R.REF_QUAL F.REF_QUAL_QUAL_PPM (max 1 (min 100 (ppm % 256)))).set R.REF_QUAL F.REF_QUAL_QUAL_TIME (max 1 (min 6000 (time % 65536)))

theorem State.setQual_fields (s : State) (ppm time t : Nat) :
    (s.setQual ppm time t).get R.REF_QUAL F.REF_QUAL_QUAL_PPM = max 1 (min 100 (ppm % 256)) ∧
    (s.setQual ppm time t).get R.REF_QUAL F.REF_QUAL_QUAL_TIME = max 1 (min 6000 (time % 65536)) := by
  have h1 : max 1 (min 100 (ppm % 256)) < 2 ^ 8 := by omega
  have h2 : max 1 (min 6000 (time % 65536)) < 2 ^ 16 := by omega
  refine ⟨?_, State.get_set_fits _ _ _ (by decide) h2⟩
  rw [State.setQual, State.get_set_apart _ _ _ _ _ (by decide) (by decide)]
  exact State.get_set_fits _ _ _ (by decide) h1

theorem exec_refQualWrite (h : s.upFor R.REF_QUAL) : exec (.refQualWrite ppm time t) s = .next ((List.range 8).foldl State.requalify (s.setQual ppm time t)) := by
  have e : exec (.refQualWrite ppm time t) s = execRefQualWrite ppm time t s := rfl
  rw [e, execRefQualWrite, State.byHost_upFor h]
  rfl

theorem State.requalify_restart (h : w.inSt i = 2 ∨ w.inSt i = 3) (hf : w.qualPpm < (w.rdInt (R.REF_IN_FREQ i)).natAbs) : w.requalify i = w.restart i := by
  rw [State.requalify, if_neg (by omega), if_pos hf]

theorem State.requalify_qualify (h : w.inSt i = 2) (hf : (w.rdInt (R.REF_IN_FREQ i)).natAbs ≤ w.qualPpm)
    (ht : (w.refIn i).since + w.qualTime ≤ w.now) : w.requalify i = w.qualify i := by
  rw [State.requalify, if_neg (by omega), if_neg (Nat.not_lt.mpr hf), if_pos ⟨h, ht⟩]

end qual

/-! ### Decisions of a write -/

/-- A fold that keeps the first least element finds one. -/
theorem foldl_least {p : Nat → Nat} {f : Option Nat → Nat → Option Nat} (h0 : ∀ i, f none i = some i)
    (h1 : ∀ k i, f (some k) i = if p i < p k then some i else some k) {l : List Nat} (hl : l ≠ []) :
    ∃ k ∈ l, (∀ j ∈ l, p k ≤ p j) ∧ l.foldl f none = some k := by
  have key : ∀ (l : List Nat) (k : Nat), ∃ m ∈ k :: l, (∀ j ∈ k :: l, p m ≤ p j) ∧ l.foldl f (some k) = some m := by
    intro l
    induction l with
    | nil => exact fun k => ⟨k, .head _, by simp, rfl⟩
    | cons a l ih =>
      intro k
      obtain ⟨m, hm, hle, he⟩ := ih (if p a < p k then a else k)
      refine ⟨m, ?_, fun j hj => ?_, ?_⟩
      · split at hm <;> simp only [List.mem_cons] at hm ⊢ <;> tauto
      · have hk := hle _ (.head _)
        have hs : p (if p a < p k then a else k) ≤ p a ∧ p (if p a < p k then a else k) ≤ p k := by split <;> omega
        simp only [List.mem_cons] at hj
        rcases hj with rfl | rfl | hj
        · exact hk.trans hs.2
        · exact hk.trans hs.1
        · exact hle j (.tail _ hj)
      · rw [List.foldl_cons, h1, ← he]
        split <;> rfl
  obtain ⟨a, l, rfl⟩ := List.exists_cons_of_ne_nil hl
  obtain ⟨m, hm, hle, he⟩ := key l a
  exact ⟨m, hm, hle, by rw [List.foldl_cons, h0, he]⟩

section decide
variable {s w : State}

theorem State.reselect_forced (h : w.forced = true) : w.reselect = w := if_pos (.inr h)

theorem State.prioDecide_forced (h : w.forced = true) (old : List Nat) : w.prioDecide old = w := by
  rw [State.prioDecide, h, Bool.true_or, Bool.true_or, Bool.true_or, Bool.true_or, if_pos rfl, State.reselect_forced h]

theorem State.prioDecide_old {old : List Nat} (h : ∀ k ∈ w.revertive, k ∈ old) : w.prioDecide old = w.reselect := by
  have ha : w.revertive.all old.contains = true := List.all_eq_true.mpr fun k hk => by simpa using h k hk
  rw [State.prioDecide, ha, Bool.or_true, if_pos rfl]

/-- An input that the write made rank above the selected one is decided for: the best of them. -/
theorem State.prioDecide_new {old : List Nat} (hf : w.forced = false) (hl : w.lifecycle ≠ 4) (hs : w.selected ≠ 15)
    (hp : w.reselect.pendingSw = false) (hn : ∃ k ∈ w.revertive, k ∉ old) :
    ∃ k, k ∈ w.revertive ∧ (∀ j ∈ w.revertive, w.prio k ≤ w.prio j) ∧ w.prioDecide old = w.swDecide k false := by
  obtain ⟨n, hn, hno⟩ := hn
  have ha : w.revertive.all old.contains = false := List.all_eq_false.mpr ⟨n, hn, by simpa using hno⟩
  have hl' : (w.lifecycle == 4) = false := by simpa using hl
  have hs' : (w.selected == 15) = false := by simpa using hs
  rw [State.prioDecide, hf, hl', hs', hp, ha, if_neg (by decide)]
  obtain ⟨k, hk, hle, he⟩ := foldl_least (p := w.prio) (f := fun b i => match b with
    | none => some i
    | some k => if w.prio i < w.prio k then some i else some k) (fun _ => rfl) (fun _ _ => rfl) (List.ne_nil_of_mem hn)
  refine ⟨k, hk, hle, ?_⟩
  erw [he]

theorem exec_refPrioWrite {i : Fin 8} {prio t : Nat} {revert : Bool} (h : s.upFor (R.REF_IN_CFG i))
    (hw : w = ((s.at_ t).set (R.REF_IN_CFG i) F.REF_IN_CFG_PRIO (min 8 (prio % 16))).setB (R.REF_IN_CFG i) F.REF_IN_CFG_REVERT revert) :
    exec (.refPrioWrite i prio revert t) s = .next (w.prioDecide s.revertive).secCheck := by
  have e : exec (.refPrioWrite i prio revert t) s = execRefPrioWrite i prio revert t s := rfl
  subst hw
  rw [e, execRefPrioWrite, State.byHost_upFor h]
  rfl

theorem exec_refForceWrite {mode : Bool} {f t : Nat} (h : s.upFor R.REF_CTL)
    (hw : w = ((s.at_ t).setB R.REF_CTL F.REF_CTL_MODE mode).set R.REF_CTL F.REF_CTL_FORCE_IN f) :
    exec (.refForceWrite mode f t) s = .next (if mode then w.forceDecide else w.undecide.reselect) := by
  have e : exec (.refForceWrite mode f t) s = execRefForceWrite mode f t s := rfl
  subst hw
  rw [e, execRefForceWrite, State.byHost_upFor h]
  rfl

/-- The decision of forced mode: nothing when the input is selected or decided for already, else a switch to it. -/
theorem State.forceDecide_eq (hl : w.lifecycle ≠ 4) : w.forceDecide =
    if w.forceIn < 8 ∧ w.selected = w.forceIn then w.undecide
    else if w.pendingSw = true ∧ w.swTarget = w.forceIn then w
    else w.swDecide w.forceIn false := by
  rw [State.forceDecide, if_neg hl]
  simp only [Bool.and_eq_true, beq_iff_eq]

end decide

/-- Settles O37: each write, event and shared operation by the lemma that states it. -/
theorem referenceInputs : Obligations.ReferenceInputs := by
  intro s i t
  refine ⟨fun hu h => refInEnWrite_lost hu h, fun hu h => ⟨_, (exec_refInEnWrite hu true).trans (congrArg _ (State.refInEnWrite_still h)), s.setEn_spec i true t⟩,
    fun hu h => ⟨_, (exec_refInEnWrite hu false).trans (congrArg _ (State.refInEnWrite_off h)), s.setEn_spec i false t⟩,
    fun hu h => (exec_refInEnWrite hu false).trans (congrArg _ (State.refInEnWrite_leave h)),
    fun src dom term hu h => refInSrcWrite_off hu h src dom term, fun src dom term w hu h hw => ?_, fun fmt m h ha => ?_,
    fun m sec w h hf ht hw => (exec_refQualified sec h hf ht).trans (congrArg (fun w => Host.Outcome.next (State.qualify w i)) ?_), fun w => w.qualify_eq i, fun m u hi hu => ?_, fun m p hp u hu => ?_, fun m hp => ?_,
    fun m hi => ?_, fun h hs hw => exec_wtrExpired h hs hw, fun h => exec_refDeclaredLost h, fun m hf h => ?_, fun m brk hb h => ?_, fun m brk hb h => ?_,
    fun ppm time u hu hq => ?_, fun w h hf => State.requalify_restart h hf, fun w h hf ht => State.requalify_qualify h hf ht,
    fun prio revert w hu hw => exec_refPrioWrite hu hw, fun w old => ⟨fun hf => State.prioDecide_forced hf old, State.prioDecide_old,
      State.prioDecide_new⟩, fun w h => State.reselect_forced h, fun mode f w hu hw => exec_refForceWrite hu hw, fun w hl => ?_⟩
  · rw [← State.setSource] at hw
    exact (exec_refInSrcWrite hu src dom term).trans (congrArg _ (s.refInSrcWrite_eq i src dom term t (hw.trans (if_neg h).symm)))
  · obtain ⟨h1, h2, h3, h4, h5⟩ := s.active_measure i (s.actFmt i fmt) t m
    refine ⟨_, exec_refActivity h ha, h1, h2, h3, fun hi => ?_, h5⟩
    obtain ⟨he, hl⟩ := State.actFmt_lt ha hi
    rw [h4, he, State.active_fmt _ hl]
  · rw [hw]
    cases sec <;> rfl
  · rw [hu, State.measure_refIn_ptp hi]
    exact ⟨rfl, rfl⟩
  · subst hu
    refine ⟨?_, ?_, s.measure_onlyRegs i m, fun h4 h5 => (s.measure_ref i m).trans (State.freqTaken_ref h4 h5)⟩
    · rw [State.measure_rd, if_pos rfl, State.phaseWord, hp]
    · rw [State.measure_rd, if_neg (REF_IN_FREQ_ne i), if_pos rfl]
  · rw [State.measure_rd, if_pos rfl, State.phaseWord, hp]
  · rw [State.phaseOf]
    dsimp only
    split
    · rfl
    · exact if_pos hi
  · have hb := break_holds (s := s) (i := i) (m := m) (brk := .steady) (.inr ⟨by decide, hf⟩)
    exact ⟨_, (exec_refDisqualified (by omega) hb).trans (congrArg _ (if_pos ⟨h, rfl⟩)), rfl, State.get_raise _ (Hist.refIn i) _ rfl (by decide)⟩
  · refine (exec_refDisqualified (by omega) (break_holds hb)).trans (congrArg _ ((if_neg ?_).trans (if_pos (by omega))))
    rintro ⟨h3, hs⟩
    rcases h with h | h
    · omega
    · exact h.2 hs
  · have hb' : brk = .phase ∧ i.val ≠ 2 ∨ brk ≠ .phase ∧ s.qualPpm < (s.freqOf m).natAbs := hb.imp id fun h => ⟨by rw [h.1]; decide, h.2⟩
    refine (exec_refDisqualified (by omega) (break_holds hb')).trans (congrArg _ ((if_neg ?_).trans (if_neg (by omega))))
    rintro ⟨-, hs⟩
    rcases hb with hb | hb <;> rw [hb.1] at hs <;> cases hs
  · rw [← State.setQual] at hq
    subst hq
    exact ⟨(s.setQual_fields ppm time t).1, (s.setQual_fields ppm time t).2, exec_refQualWrite hu⟩
  · rw [State.forceDecide_eq hl]
    refine ⟨fun h1 h2 => if_pos ⟨h1, h2⟩, fun h1 h2 h3 => ?_, fun h1 h2 => ?_⟩
    · rw [if_neg fun hx => h1 hx.1 hx.2, if_pos ⟨h2, h3⟩]
    · rw [if_neg fun hx => h1 hx.1 hx.2, if_neg fun hx => h2 hx.1 hx.2]

end Sys2Proof.Machine

/-! The reference selector, the loop and holdover (O38). -/
namespace Sys2Proof.Machine

/-! ### Registers that a change of a record leaves -/

/-- The registers of the store that a store of record `k` touches. -/
def recRegs (k : Nat) : List Nat := [R.AXL_STORE_CNT, R.AXL_REC_STAT k, R.AXL_REC_SEQ k]

theorem State.writeRec_rd (s : State) (k : Nat) (b : RecBody) (ok : Bool) {a : Nat} (ha : a ∉ recRegs k) : (s.writeRec k b ok).rd a = s.rd a := by
  obtain ⟨h1, h2, h3⟩ : a ≠ R.AXL_STORE_CNT ∧ a ≠ R.AXL_REC_STAT k ∧ a ≠ R.AXL_REC_SEQ k := by simpa [recRegs] using ha
  have hc (s : State) (h : Nat) (c : Copy) : (s.setCopy k h c).rd a = s.rd a := rfl
  have hx (s : State) (x : AxlSt) : ({ s with axl := x } : State).rd a = s.rd a := rfl
  unfold State.writeRec
  repeat' split
  all_goals simp only [State.rd_wr_ne _ _ h3, State.rd_set_ne _ _ _ h2, State.rd_inc_ne _ h1, hc, hx]

theorem State.change_rd (s : State) (k : Nat) {a : Nat} (ha : a ∉ recRegs k) : (s.change k).rd a = s.rd a := by
  have hd : (s.dirty k).rd a = s.rd a := State.rd_set_ne _ _ _ fun h => ha (by simp [recRegs, h])
  rw [State.change]
  split
  · rw [State.writeRec_rd _ _ _ _ ha, hd]
  · exact hd

/-- The registers of the references lie apart from those of the store. -/
theorem not_mem_recRegs {a : Nat} (k : Nat) (ha : a < 0x70000) : a ∉ recRegs k := by
  simp only [recRegs, List.mem_cons, List.not_mem_nil, or_false]
  unfold R.AXL_STORE_CNT R.AXL_REC_STAT R.AXL_REC_SEQ
  omega

theorem State.calibrate_rd (s : State) (r : Int) {a : Nat} (ha : a < 0x70000) :
    (s.calibrate r).rd a = if a = R.REF_XO_CAL then BitVec.ofInt 32 r else s.rd a := by
  rw [State.calibrate, State.change_rd _ _ (not_mem_recRegs 14 ha)]
  exact s.rd_wr _ _ _

theorem State.calibrate_ref (s : State) (r : Int) : (s.calibrate r).ref = s.ref :=
  (State.calibrate_kept (.refl [.regs, .axl] s) r (Sub.self _)).2.2 .ref (by decide)

/-! ### Suspicion -/

theorem REF_STAT_ne (i : Nat) : R.REF_STAT ≠ R.REF_IN_STAT i ∧ R.REF_CTL ≠ R.REF_IN_STAT i ∧ ∀ k, R.REF_IN_CFG k ≠ R.REF_IN_STAT i := by
  unfold R.REF_STAT R.REF_CTL R.REF_IN_STAT R.REF_IN_CFG
  exact ⟨by omega, by omega, fun k => by omega⟩

section suspect
variable {s w : State} {i : Fin 8} {t : Nat}

/-- An input marked suspect, its wait to restore as it stands. -/
def State.markSuspect (s : State) (i t : Nat) : State :=
  ((s.at_ t).set (R.REF_IN_STAT i) F.REF_IN_STAT_SUSPECT 1).set (R.REF_IN_STAT i) F.REF_IN_STAT_WTR_LEFT ((s.at_ t).wtrLeft i)

theorem State.markSuspect_onlyRegs (s : State) (i t : Nat) : s.onlyRegs (s.markSuspect i t) [R.REF_IN_STAT i] :=
  .trans (.trans (s.at_onlyRegs t _) (State.set_onlyRegs _ _ _ (.head _))) (State.set_onlyRegs _ _ _ (.head _))

theorem State.markSuspect_now (s : State) (i t : Nat) : (s.markSuspect i t).now = t := by
  rw [State.markSuspect, State.set_now, State.set_now]
  rfl

theorem State.markSuspect_get (s : State) (i t : Nat) : (s.markSuspect i t).get (R.REF_IN_STAT i) F.REF_IN_STAT_SUSPECT = 1 := by
  rw [State.markSuspect, State.get_set_apart _ _ _ _ _ (by decide) (by decide)]
  exact State.get_set_fits _ _ _ (by decide) (by decide)

theorem State.markSuspect_suspect (s : State) (i t : Nat) : (s.markSuspect i t).suspect i = true := State.flag_of_get (s.markSuspect_get i t)

theorem State.markSuspect_selected (s : State) (i t : Nat) : (s.markSuspect i t).selected = s.selected := by
  have h : R.REF_STAT ∉ [R.REF_IN_STAT i] := by simpa using (REF_STAT_ne i).1
  exact (s.markSuspect_onlyRegs i t).get h _

theorem State.holdFrom_rd (s : State) (r temp : Int) (a : Nat) : (s.holdFrom r temp).rd a = s.rd a := rfl

theorem State.trkTime_congr {s t : State} (hr : t.ref = s.ref) (hn : t.now = s.now) : t.trkTime = s.trkTime := by
  rw [State.trkTime, State.trkTime, hr, hn]

theorem not_suspect_at (h : 2 ≤ s.inSt i) (hs : s.suspect i = false) : ¬ ((s.at_ t).inSt i < 2 ∨ (s.at_ t).suspect i = true) := by
  have h1 : (s.at_ t).inSt i = s.inSt i := State.get_at ..
  have h2 : (s.at_ t).suspect i = s.suspect i := State.flag_at ..
  rw [h1, h2, hs]
  exact fun hx => hx.elim (Nat.not_lt.mpr h) Bool.false_ne_true

theorem exec_refSuspect_other {rate temp : Int} (h : 2 ≤ s.inSt i) (hs : s.suspect i = false) (hsel : s.selected ≠ i.val) :
    exec (.refSuspect i rate temp t) s = .next (s.markSuspect i t) := by
  have e : exec (.refSuspect i rate temp t) s = execRefSuspect i rate temp t s := rfl
  have hm := s.markSuspect_selected i t
  unfold State.markSuspect at hm ⊢
  rw [e, execRefSuspect]
  dsimp only
  rw [if_neg (not_suspect_at h hs), hm, if_pos hsel]

theorem State.forced_holdCal (s : State) (i t : Nat) (r temp : Int) : (((s.markSuspect i t).holdFrom r temp).calibrate r).forced = s.forced := by
  have h := (s.markSuspect_onlyRegs i t).rd (a := R.REF_CTL) (by simpa using (REF_STAT_ne i).2.1)
  rw [State.forced, State.forced, State.flag, State.flag, State.get, State.get, State.calibrate_rd _ _ (by decide), if_neg (by decide), State.holdFrom_rd, h]

/-- Suspicion of the selected input takes the averages, and decides for a better one. -/
theorem exec_refSuspect_selected {rate temp r : Int} (h : 2 ≤ s.inSt i) (hs : s.suspect i = false) (hsel : s.selected = i.val)
    (hr : r = if (s.at_ t).trkTime = 0 then s.rdInt R.REF_XO_CAL else rate) (hw : w = ((s.markSuspect i t).holdFrom r temp).calibrate r) :
    (s.forced = true → exec (.refSuspect i rate temp t) s = .next w) ∧
    (s.forced = false → ∀ b, w.bestIn = some b → exec (.refSuspect i rate temp t) s = .next (w.swDecide b true)) ∧
    (s.forced = false → w.bestIn = none → exec (.refSuspect i rate temp t) s = .next w) := by
  have e : exec (.refSuspect i rate temp t) s = execRefSuspect i rate temp t s := rfl
  have hm : ¬ (s.markSuspect i t).selected ≠ i.val := by rw [State.markSuspect_selected, hsel]; exact fun hx => hx rfl
  have hx : (s.markSuspect i t).rdInt R.REF_XO_CAL = s.rdInt R.REF_XO_CAL := by
    rw [State.rdInt, State.rdInt, (s.markSuspect_onlyRegs i t).rd (by simpa using (REF_XO_CAL_ne i).1)]
  have ht : (s.markSuspect i t).trkTime = (s.at_ t).trkTime := State.trkTime_congr (s.markSuspect_onlyRegs i t).ref (s.markSuspect_now i t)
  have hf : w.forced = s.forced := hw ▸ s.forced_holdCal i t r temp
  have hw' : exec (.refSuspect i rate temp t) s = .next (if w.forced then w else match w.bestIn with
      | some b => w.swDecide b true
      | none => w) := by
    unfold State.markSuspect at hm hx ht hw
    rw [e, execRefSuspect]
    dsimp only
    rw [if_neg (not_suspect_at h hs), if_neg hm, hx, ht, ← hr, ← hw] <;> cases w.bestIn <;> rfl
  rw [hw', hf]
  exact ⟨fun h => if_pos h ▸ rfl, fun h b hb => by rw [h, hb]; rfl, fun h hb => by rw [h, hb]; rfl⟩

end suspect

/-! ### Suspicion clears -/

section clear
variable {s : State} {i : Fin 8} {t : Nat}

/-- An input that is suspect no more. -/
def State.clearSuspect (s : State) (i t : Nat) : State :=
  let w := s.at_ t
  (w.set (R.REF_IN_STAT i) F.REF_IN_STAT_SUSPECT 0).setRefIn i { w.refIn i with since := if w.inSt i = 3 then t else (w.refIn i).since }

theorem State.clearSuspect_rd (s : State) (i t : Nat) {a : Nat} (ha : a ≠ R.REF_IN_STAT i) : (s.clearSuspect i t).rd a = s.rd a := by
  rw [State.clearSuspect, State.rd_setRefIn, State.rd_set_ne _ _ _ ha, State.rd_at]

theorem State.clearSuspect_suspect (s : State) (i t : Nat) : (s.clearSuspect i t).suspect i = false := by
  rw [State.clearSuspect, State.suspect, State.flag_setRefIn]
  exact State.flag_of_get0 (State.get_set_fits _ _ _ (by decide) (by decide))

theorem State.clearSuspect_inSt (s : State) (i t : Nat) : (s.clearSuspect i t).inSt i = s.inSt i := by
  rw [State.clearSuspect, State.inSt, State.get_setRefIn, State.get_set_apart _ _ _ _ _ (by decide) (by decide), State.get_at]
  rfl

/-- The selected input is suspect no more: the loop runs on. -/
def State.unfreeze (s : State) : State := { s with ref := { s.ref with ts := none, frozen := false } }

theorem State.unfreeze_rd (s : State) (a : Nat) : s.unfreeze.rd a = s.rd a := rfl

theorem exec_refSuspectClear (hs : s.suspect i = true) : exec (.refSuspectClear i t) s = .next (
    if (s.clearSuspect i t).selected ≠ i.val then s.clearSuspect i t
    else if (s.clearSuspect i t).unfreeze.pendingSw && !(s.clearSuspect i t).unfreeze.forced && (s.clearSuspect i t).unfreeze.inSt i == 5 &&
        !(s.clearSuspect i t).unfreeze.ranksAbove (s.clearSuspect i t).unfreeze.swTarget i then
      (s.clearSuspect i t).unfreeze.undecide.raise Hist.ref F.REF_HIST_CANCEL
    else (s.clearSuspect i t).unfreeze) := by
  have e : exec (.refSuspectClear i t) s = execRefSuspectClear i t s := rfl
  have h : ¬ (!(s.at_ t).suspect i) = true := by
    have h2 : (s.at_ t).suspect i = s.suspect i := State.flag_at ..
    rw [h2, hs]
    decide
  unfold State.unfreeze State.clearSuspect
  rw [e, execRefSuspectClear]
  dsimp only
  rw [if_neg h]

/-- Reading only registers that a clear leaves, the selector stands as before. -/
theorem State.clearSuspect_unfreeze (s : State) (i t : Nat) (a : Nat) (ha : a ≠ R.REF_IN_STAT i) (f : Bits) :
    (s.clearSuspect i t).unfreeze.get a f = s.get a f := by
  rw [State.get, State.unfreeze_rd, s.clearSuspect_rd i t ha, State.get]

theorem State.clearSuspect_selected (s : State) (i t : Nat) : (s.clearSuspect i t).selected = s.selected := by
  rw [State.selected, State.get, s.clearSuspect_rd i t (REF_STAT_ne i).1, State.selected, State.get]

theorem exec_refSuspectClear_other (hs : s.suspect i = true) (h : s.selected ≠ i.val) :
    exec (.refSuspectClear i t) s = .next (s.clearSuspect i t) := by
  rw [exec_refSuspectClear hs, State.clearSuspect_selected, if_pos h]

/-- The condition under which a pending switch is cancelled, on the state before. -/
theorem State.clearSuspect_cancels (s : State) (i t : Nat) (w : State) (hw : w = (s.clearSuspect i t).unfreeze) :
    w.pendingSw = s.pendingSw ∧ w.forced = s.forced ∧ w.inSt i = s.inSt i ∧ (∀ j, w.ranksAbove j i = s.ranksAbove j i) ∧ w.swTarget = s.swTarget ∧
      w.selected = s.selected := by
  subst hw
  obtain ⟨h1, h2, h3⟩ := REF_STAT_ne i
  have hst : ∀ f, (s.clearSuspect i t).unfreeze.get R.REF_STAT f = s.get R.REF_STAT f := s.clearSuspect_unfreeze i t _ h1
  have hct : ∀ f, (s.clearSuspect i t).unfreeze.get R.REF_CTL f = s.get R.REF_CTL f := s.clearSuspect_unfreeze i t _ h2
  have hcf : ∀ j f, (s.clearSuspect i t).unfreeze.get (R.REF_IN_CFG j) f = s.get (R.REF_IN_CFG j) f := fun j => s.clearSuspect_unfreeze i t _ (h3 j)
  have hin : (s.clearSuspect i t).unfreeze.inSt i = (s.clearSuspect i t).inSt i := by
    rw [State.inSt, State.get, State.unfreeze_rd, State.inSt, State.get]
  refine ⟨?_, ?_, hin.trans (s.clearSuspect_inSt i t), fun j => ?_, hst _, hst _⟩
  · rw [State.pendingSw, State.flag, hst, State.pendingSw, State.flag]
  · rw [State.forced, State.flag, hct, State.forced, State.flag]
  · rw [State.ranksAbove, State.prio, State.prio, State.flag, hcf, hcf, hcf, State.ranksAbove, State.prio, State.prio, State.flag]

theorem State.undecide_spec (w : State) : w.undecide.pendingSw = false ∧ w.undecide.selected = w.selected ∧ (∀ a, a ≠ R.REF_STAT → w.undecide.rd a = w.rd a) ∧
    w.undecide.ref = { w.ref with bAt := none, frozen := false } := by
  have hr (w : State) (x : RefSt) (a : Nat) : ({ w with ref := x } : State).rd a = w.rd a := rfl
  rw [State.undecide]
  refine ⟨?_, ?_, fun a ha => ?_, by simp⟩
  · rw [State.pendingSw]
    refine State.flag_of_get0 ?_
    rw [State.get_set_apart _ _ _ _ _ (by decide) (by decide)]
    exact State.get_set_fits _ _ _ (by decide) (by decide)
  · rw [State.selected, State.get_set_apart _ _ _ _ _ (by decide) (by decide), State.get_set_apart _ _ _ _ _ (by decide) (by decide), State.get, hr, State.selected,
      State.get]
  · rw [State.rd_set_ne _ _ _ ha, State.rd_set_ne _ _ _ ha, hr]

/-- A switch still pending to an input that does not rank above the selected one is cancelled. -/
theorem refSuspectClear_cancel (hs : s.suspect i = true) (hsel : s.selected = i.val) (hin : s.inSt i = 5) (hp : s.pendingSw = true) (hf : s.forced = false)
    (hr : s.ranksAbove s.swTarget i = false) : ∃ u, exec (.refSuspectClear i t) s = .next u ∧ u.suspect i = false ∧ u.pendingSw = false ∧
      u.ref.bAt = none ∧ u.ref.frozen = false ∧ u.selected = s.selected ∧ u.get R.REF_HIST F.REF_HIST_CANCEL = 1 := by
  obtain ⟨w, hw⟩ : ∃ w, w = (s.clearSuspect i t).unfreeze := ⟨_, rfl⟩
  obtain ⟨h1, h2, h3, h4, h5, h6⟩ := s.clearSuspect_cancels i t w hw
  have he : exec (.refSuspectClear i t) s = .next (w.undecide.raise Hist.ref F.REF_HIST_CANCEL) := by
    rw [exec_refSuspectClear hs, ← hw, if_neg (by rw [State.clearSuspect_selected, hsel]; exact fun hx => hx rfl), h1, h2, h3, h4, h5, hp, hf, hin, hr,
      if_pos (by decide)]
  obtain ⟨u1, u2, u3, u4⟩ := w.undecide_spec
  have hn : R.REF_IN_STAT i ≠ Hist.ref.reg ∧ R.REF_STAT ≠ Hist.ref.reg := by
    refine ⟨?_, by decide⟩
    change R.REF_IN_STAT i ≠ R.REF_HIST
    unfold R.REF_IN_STAT R.REF_HIST
    omega
  have hsus : w.suspect i = false := by
    have := s.clearSuspect_suspect i t
    rw [State.suspect, State.flag, State.get] at this ⊢
    rw [hw, State.unfreeze_rd]
    exact this
  refine ⟨_, he, ?_, ?_, ?_, ?_, ?_, State.get_raise _ Hist.ref _ rfl (by decide)⟩
  · rw [State.suspect, State.flag, State.get, State.rd_raise_ne _ _ _ hn.1, u3 _ (REF_STAT_ne i).1.symm]
    exact hsus
  · rw [State.pendingSw, State.flag, State.get, State.rd_raise_ne _ _ _ hn.2]
    exact u1
  · rw [State.raise_ref, u4]
  · rw [State.raise_ref, u4]
  · rw [State.selected, State.get, State.rd_raise_ne _ _ _ hn.2, ← h6]
    exact u2

end clear

/-! ### The switch -/

section switch
variable {s : State} {m : RefMeas} {t b : Nat}

theorem State.at_switch (s : State) (t : Nat) : (s.at_ t).pendingSw = s.pendingSw ∧ (s.at_ t).forced = s.forced ∧ (s.at_ t).swTarget = s.swTarget ∧
    (∀ i, (s.at_ t).inSt i = s.inSt i) ∧ (∀ i, (s.at_ t).prio i = s.prio i) ∧ (s.at_ t).ref = s.ref :=
  ⟨State.flag_at .., State.flag_at .., State.get_at .., fun _ => State.get_at .., fun i => by rw [State.prio, State.get_at, State.prio], rfl⟩

theorem State.leapRate_at (s : State) (t : Nat) : (s.at_ t).leapRate = s.leapRate := by
  rw [State.leapRate, State.get_at, State.leapRate]

theorem exec_refSwitchExecute (hp : s.pendingSw = true) (hb : s.ref.bAt = some b) (ht : s.swTarget < 8)
    (hd : (if s.forced then decide (b ≤ t) && firstAt 0 (rateD s.leapRate) t == t else b == t) = true)
    (hi : ((s.inSt s.swTarget == 4 && (s.forced || s.prio s.swTarget != 0)) || (s.forced && s.inSt s.swTarget == 3)) = true) :
    exec (.refSwitchExecute m t) s = .next ((s.at_ t).doSwitch s.swTarget m).acquirePromote := by
  have e : exec (.refSwitchExecute m t) s = execRefSwitchExecute m t s := rfl
  obtain ⟨h1, h2, h3, h4, h5, h6⟩ := s.at_switch t
  rw [e, execRefSwitchExecute]
  dsimp only
  rw [h1, h2, h3, h4, h5, h6, hb, s.leapRate_at, hp]
  refine congrArg _ (if_pos ?_)
  rw [hi, decide_eq_true ht, Bool.and_true, Bool.and_true, Bool.true_and]
  exact hd

theorem reduceStep_spec (x : Int) {p : Int} (hp : 0 < p) (he : p % 2 = 0) :
    (-(p / 2) ≤ reduceStep x p ∧ reduceStep x p < p / 2) ∧ (reduceStep x p - x) % p = 0 := by
  have h1 := Int.emod_nonneg (x + p / 2) hp.ne'
  have h2 := Int.emod_lt_of_pos (x + p / 2) hp
  have h3 := Int.mul_ediv_add_emod (x + p / 2) p
  unfold reduceStep
  refine ⟨by omega, ?_⟩
  have h4 : (x + p / 2) % p - p / 2 - x = p * -((x + p / 2) / p) := by linarith
  rw [h4, Int.mul_emod_right]

theorem State.switchStep_second (s : State) (p : Int) :
    (-500000000 ≤ s.switchStep 3 (some p) ∧ s.switchStep 3 (some p) < 500000000) ∧ (s.switchStep 3 (some p) - p) % 1000000000 = 0 :=
  reduceStep_spec p (p := 1000000000) (by decide) (by decide)

end switch

/-! ### The loop -/

section loop
variable {s : State} {t : Nat}

/-- A change of the reference state alone is none of the registers. -/
theorem State.onlyRegs.refBack {s u : State} {l : List Nat} (h : s.onlyRegs u l) (x : RefSt) :
    s.onlyRegs { ({ u with ref := x } : State) with ref := s.ref } l := by
  rw [← h.ref]
  exact h

theorem State.onlyRegs.rdRef {s u : State} {x : RefSt} {l : List Nat} (h : s.onlyRegs { u with ref := x } l) {a : Nat} (ha : a ∉ l) : u.rd a = s.rd a :=
  h.rd ha

theorem State.onlyRegs.refRest {s u w : State} {l : List Nat} (h : s.onlyRegs { u with ref := s.ref } l) (k : u.onlyRegs w l) :
    s.onlyRegs { w with ref := s.ref } l :=
  ⟨congrArg (fun z : State => ({ z with regs := w.regs, now := w.now, host := { z.host with pba := w.host.pba, sent := w.host.sent } } : State)) h.1 |>
      (congrArg (fun z : State => ({ z with ref := s.ref } : State)) k.1).trans,
    fun _ ha => (k.rd ha).trans (h.rd ha)⟩

/-- A loop that has locked. -/
def State.locked (s : State) (t : Nat) : State := ((s.at_ t).set R.REF_STAT F.REF_STAT_STATE 2).raise Hist.ref F.REF_HIST_LOCK

theorem State.locked_onlyRegs (s : State) (t : Nat) : s.onlyRegs (s.locked t) [R.REF_STAT, R.REF_HIST] :=
  .trans (.trans (s.at_onlyRegs t _) (State.set_onlyRegs _ _ _ (.head _))) (State.raise_onlyRegs _ Hist.ref _ (.tail _ (.head _)))

theorem loopLock_spec (h : s.selSt = 1) (hs : s.selected ≠ 15) : ∃ u, exec (.loopLock t) s = .next u ∧ u.selSt = 2 ∧ u.get R.REF_HIST F.REF_HIST_LOCK = 1 ∧
    u.ref.trkAt = some t ∧ s.onlyRegs { u with ref := s.ref } [R.REF_STAT, R.REF_HIST] := by
  have e : exec (.loopLock t) s = execLoopLock t s := rfl
  have hc : (s.at_ t).selSt = 1 ∧ (s.at_ t).selected ≠ 15 := by
    rw [State.selSt, State.get_at, State.selected, State.get_at]
    exact ⟨h, hs⟩
  have hr (w : State) (x : RefSt) (a : Nat) : ({ w with ref := x } : State).rd a = w.rd a := rfl
  refine ⟨{ s.locked t with ref := { (s.locked t).ref with bw := (s.locked t).trackBw, trkAt := some t } }, ?_, ?_, ?_, rfl, ?_⟩
  · unfold State.locked
    rw [e, execLoopLock]
    dsimp only
    rw [if_pos hc]
  · rw [State.selSt, State.get, hr, State.locked, State.rd_raise_ne _ _ _ (by decide)]
    exact State.get_set_fits _ _ _ (by decide) (by decide)
  · rw [State.get, hr]
    exact State.get_raise _ Hist.ref _ rfl (by decide)
  · exact (s.locked_onlyRegs t).refBack _

/-- A loop out of lock, before it is calibrated. -/
def State.loopFree (s : State) (t : Nat) : State := ((s.at_ t).draw.2.trkStop.readyFall).set R.REF_STAT F.REF_STAT_STATE 1

theorem State.readyFall_ref (s : State) : s.readyFall.ref = s.ref :=
  (State.readyFall_kept (.refl [.regs, .vec] s) (Sub.self _)).2.2 .ref (by decide)

theorem loopUnlock_spec (cal : Int) (h : s.selSt = 2) (hs : s.suspect s.selected = false) : ∃ u, exec (.loopUnlock cal t) s = .next u ∧ u.selSt = 1 ∧
    u.rd R.REF_XO_CAL = BitVec.ofInt 32 cal ∧ u.ref.trkAt = none ∧ u.ref.bw ≤ 100000 := by
  have e : exec (.loopUnlock cal t) s = execLoopUnlock cal t s := rfl
  have hc : (s.at_ t).selSt = 2 ∧ (!(s.at_ t).suspect (s.at_ t).selected) = true := by
    rw [State.selSt, State.get_at, State.selected, State.get_at, State.suspect, State.flag_at]
    exact ⟨h, congrArg (!·) hs⟩
  have hr (w : State) (x : RefSt) (a : Nat) : ({ w with ref := x } : State).rd a = w.rd a := rfl
  have hu : ∃ x : Int, exec (.loopUnlock cal t) s = .next { (s.loopFree t).calibrate cal with
      ref := { ((s.loopFree t).calibrate cal).ref with bw := min ((s.loopFree t).calibrate cal).bwCap 100000, tAvg := x } } := by
    refine ⟨(Config.fresh 16 (s.at_ t).draw.1).toInt, ?_⟩
    unfold State.loopFree
    rw [e, execLoopUnlock]
    dsimp only
    rw [if_pos hc]
  obtain ⟨x, hu⟩ := hu
  refine ⟨_, hu, ?_, ?_, ?_, Nat.min_le_right _ _⟩
  · rw [State.selSt, State.get, hr, State.calibrate_rd _ _ (by decide), if_neg (by decide)]
    exact State.get_set_fits _ _ _ (by decide) (by decide)
  · rw [hr, State.calibrate_rd _ _ (by decide), if_pos rfl]
  · have hk : ((s.loopFree t).calibrate cal).ref = (s.at_ t).draw.2.trkStop.ref := by
      rw [State.calibrate_ref, State.loopFree, State.set_ref, State.readyFall_ref]
    rw [hk]
    rfl

theorem State.bwCap_congr {s t : State} (h : t.regs = s.regs) (hx : t.xpt = s.xpt) (hi : t.ref.ins = s.ref.ins) : t.bwCap = s.bwCap := by
  have hr : ∀ i, t.refIn i = s.refIn i := fun i => by rw [State.refIn, State.refIn, hi]
  rw [State.bwCap, State.bwCap, State.selected, State.selected, State.get_congr h, hr, State.get_congr h, State.fmt_congr hx]

theorem trackBwApply_off (h : firstAt 0 (rateD s.leapRate) t ≠ t) : exec (.trackBwApply t) s = .next (s.at_ t) := by
  have e : exec (.trackBwApply t) s = execTrackBwApply t s := rfl
  rw [e, execTrackBwApply]
  dsimp only
  rw [s.leapRate_at, if_pos h]

theorem trackBwApply_on {n : Nat} (h : s.selSt = 2) (hb : firstAt 0 (rateD s.leapRate) t = t) (hn : n = max 1 (min 10000 (s.get R.REF_LOOP F.REF_LOOP_TRACK_BW))) :
    exec (.trackBwApply t) s = .next { s.at_ t with ref := { s.ref with track := n, bw := min s.bwCap n } } := by
  have e : exec (.trackBwApply t) s = execTrackBwApply t s := rfl
  have hw : ({ s.at_ t with ref := { s.ref with track := n } } : State).selSt = s.selSt := State.get_congr rfl ..
  have hc : ({ s.at_ t with ref := { s.ref with track := n } } : State).bwCap = s.bwCap := State.bwCap_congr rfl rfl rfl
  have ha : (s.at_ t).ref = s.ref := rfl
  rw [e, execTrackBwApply]
  dsimp only
  rw [s.leapRate_at, if_neg (fun hx => hx hb), State.get_at, ← hn, ha, hw, if_pos h, State.trackBw, hc]

end loop

/-! ### Holdover -/

section hold
variable {s w : State} {t : Nat}

theorem State.senseTemp_selSt (s : State) (t : Nat) (temp : Int) : ((s.at_ t).senseTemp temp).selSt = s.selSt := State.get_congr rfl ..

theorem holdoverUpdate_off {temp : Int} (h : s.selSt ≠ 3) : exec (.holdoverUpdate temp t) s = .next ((s.at_ t).senseTemp temp) := by
  have e : exec (.holdoverUpdate temp t) s = execHoldoverUpdate temp t s := rfl
  rw [e, execHoldoverUpdate]
  dsimp only
  rw [State.senseTemp_selSt, if_pos h]

/-- The rate of holdover and the temperature it follows from. -/
def State.heldRate (w : State) : State := (w.set R.REF_TEMP F.REF_TEMP_TEMP (w.holdTemp % 65536).toNat).wrInt R.REF_RATE (w.holdRate w.holdTemp)

theorem holdoverUpdate_on {temp : Int} (h : s.selSt = 3) (hw : w = (s.at_ t).senseTemp temp) : exec (.holdoverUpdate temp t) s = .next w.heldRate.publishBound := by
  have e : exec (.holdoverUpdate temp t) s = execHoldoverUpdate temp t s := rfl
  unfold State.heldRate
  rw [e, execHoldoverUpdate]
  dsimp only
  rw [State.senseTemp_selSt, if_neg (fun hx => hx h), ← hw]

theorem State.heldRate_onlyRegs (w : State) : w.onlyRegs w.heldRate [R.REF_TEMP, R.REF_RATE] :=
  .trans (State.set_onlyRegs _ _ _ (.head _)) (State.wr_onlyRegs _ _ (.tail _ (.head _)))

theorem State.heldRate_bound (w : State) : w.heldRate.holdBound = w.holdBound ∧ w.heldRate.pastLimit = w.pastLimit := by
  have h := w.heldRate_onlyRegs
  have hn : w.heldRate.now = w.now := by rw [State.heldRate, State.wrInt, State.wr_now, State.set_now]
  have hx : w.heldRate.holdExact = w.holdExact := by
    rw [State.holdExact, State.holdExact, h.ref, hn, h.get (by decide), h.get (by decide)]
  rw [State.holdBound, State.holdBound, State.pastLimit, State.pastLimit, hx, h.rd (by decide)]
  exact ⟨rfl, rfl⟩

/-- The bound shows in REF_HOLD_EST, and the limit it passes in the history. -/
theorem State.publishBound_spec (v : State) : (v.publishBound.rd R.REF_HOLD_EST).toNat = v.holdBound ∧ v.publishBound.ref = { v.ref with limHit := v.pastLimit } ∧
    (v.ref.limHit = false → v.pastLimit = true → v.publishBound.get R.REF_HIST F.REF_HIST_HOLD_LIMIT = 1) ∧
    v.onlyRegs { v.publishBound with ref := v.ref } [R.REF_HOLD_EST, R.REF_HIST] := by
  obtain ⟨k, hk⟩ : ∃ k, k = v.wr R.REF_HOLD_EST (BitVec.ofNat 32 v.holdBound) := ⟨_, rfl⟩
  have hko : v.onlyRegs k [R.REF_HOLD_EST, R.REF_HIST] := hk ▸ State.wr_onlyRegs _ _ (.head _)
  have hr (w : State) (x : RefSt) (a : Nat) : ({ w with ref := x } : State).rd a = w.rd a := rfl
  have he : (k.rd R.REF_HOLD_EST).toNat = v.holdBound := by
    have hlt : v.holdBound < 2 ^ 32 := by unfold State.holdBound; omega
    rw [hk, State.rd_wr_self, BitVec.toNat_ofNat, Nat.mod_eq_of_lt hlt]
  have hp : v.publishBound = if v.pastLimit && !v.ref.limHit then
      ({ k with ref := { v.ref with limHit := v.pastLimit } } : State).raise Hist.ref F.REF_HIST_HOLD_LIMIT
      else { k with ref := { v.ref with limHit := v.pastLimit } } := by
    rw [State.publishBound, ← hko.ref, hk]
  rw [hp]
  by_cases hc : (v.pastLimit && !v.ref.limHit) = true
  · rw [if_pos hc]
    refine ⟨?_, by rw [State.raise_ref], fun _ _ => State.get_raise _ Hist.ref _ rfl (by decide), ?_⟩
    · rw [State.rd_raise_ne _ _ _ (by decide), hr, he]
    · exact State.onlyRegs.refRest (hko.refBack _) (State.raise_onlyRegs _ Hist.ref _ (.tail _ (.head _)))
  · rw [if_neg hc]
    refine ⟨by rw [hr, he], rfl, fun h1 h2 => ?_, hko.refBack _⟩
    rw [h1, h2] at hc
    exact absurd rfl hc

theorem holdoverUpdate_spec {temp : Int} (h : s.selSt = 3) (hw : w = (s.at_ t).senseTemp temp) : ∃ u, exec (.holdoverUpdate temp t) s = .next u ∧
    u.rd R.REF_RATE = BitVec.ofInt 32 (w.holdRate w.holdTemp) ∧ (u.rd R.REF_HOLD_EST).toNat = w.holdBound ∧
    u.get R.REF_TEMP F.REF_TEMP_TEMP = (w.holdTemp % 65536).toNat ∧
    u.ref = { s.ref with limHit := w.pastLimit } ∧ (s.ref.limHit = false → w.pastLimit = true → u.get R.REF_HIST F.REF_HIST_HOLD_LIMIT = 1) ∧
    w.onlyRegs { u with ref := w.ref } [R.REF_TEMP, R.REF_RATE, R.REF_HOLD_EST, R.REF_HIST] := by
  obtain ⟨h1, h2, h3, h4⟩ := w.heldRate.publishBound_spec
  obtain ⟨hb, hl⟩ := w.heldRate_bound
  have ho := w.heldRate_onlyRegs
  have hws : w.ref = s.ref := hw ▸ rfl
  have hrd : ∀ a, a ∉ [R.REF_HOLD_EST, R.REF_HIST] → w.heldRate.publishBound.rd a = w.heldRate.rd a := fun a ha => h4.rdRef ha
  have hT : (w.holdTemp % 65536).toNat < 2 ^ 16 := by omega
  refine ⟨_, holdoverUpdate_on h hw, ?_, h1.trans hb, ?_, ?_, fun hf hp => h3 (by rw [ho.ref, hws, hf]) (by rw [hl, hp]), ?_⟩
  · rw [hrd _ (by decide), State.heldRate, State.wrInt, State.rd_wr_self]
  · rw [State.get, hrd _ (by decide), State.heldRate, State.wrInt, State.rd_wr_ne _ _ (by decide)]
    exact State.get_set_fits _ _ _ (by decide) hT
  · rw [h2, hl, ho.ref, hws]
  · have hs : w.onlyRegs w.heldRate [R.REF_TEMP, R.REF_RATE, R.REF_HOLD_EST, R.REF_HIST] :=
      ho.mono fun a ha => by simp only [List.mem_cons, List.not_mem_nil, or_false] at ha ⊢; tauto
    rw [ho.ref] at h4
    exact hs.trans (h4.mono fun a ha => by simp only [List.mem_cons, List.not_mem_nil, or_false] at ha ⊢; tauto)

/-- A day in TRACK, with fewer daily values than the fit covers. -/
theorem ageingDaily_spec {rate temp cal : Int} {stored : Bool} {n : Nat} {l : List (Nat × Int)} (h : s.selSt = 2)
    (hn : n = max 7 (min 365 (s.get R.REF_AGE_DAYS F.REF_AGE_DAYS_AGE_DAYS))) (hd : s.ref.daily.length < n)
    (hl : l = s.ref.daily ++ [(t, rate + roundDiv (s.xoTemp temp) 100000)]) :
    exec (.ageingDaily rate temp cal stored t) s = .next ((((((({ s.at_ t with ref := { s.ref with daily := l, newDays := min l.length (s.ref.newDays + 1) } } : State).wrInt R.REF_XO_CAL cal).wrInt R.REF_AGE_LEARNED (ageFit l)).set
      R.REF_AGE_DAYS F.REF_AGE_DAYS_HELD l.length).dirty 14).storeRec 14 stored stored)) := by
  have e : exec (.ageingDaily rate temp cal stored t) s = execAgeingDaily rate temp cal stored t s := rfl
  have hc : (s.at_ t).selSt = s.selSt := State.get_at ..
  have hx : (s.at_ t).xoTemp temp = s.xoTemp temp := by rw [State.xoTemp, State.rdInt, State.rdInt, State.rd_at, State.rd_at, State.xoTemp, State.rdInt, State.rdInt]
  have hr : (s.at_ t).ref = s.ref := rfl
  have hlen : l.length - n = 0 := by rw [hl, List.length_append, List.length_singleton]; omega
  rw [e, execAgeingDaily]
  dsimp only
  rw [hc, if_neg (fun hx => hx h), hx, hr, State.get_at, ← hn, ← hl, hlen, List.drop_zero]

end hold

/-- Settles O38: the selector, the loop and holdover, each event by the lemma that states it. -/
theorem referenceSelector : Obligations.ReferenceSelector := by
  refine ⟨fun s i rate temp t h hs hsel => ⟨_, exec_refSuspect_other h hs hsel, s.markSuspect_suspect i t, s.markSuspect_onlyRegs i t⟩,
    fun s w i rate temp r t h hs hsel hr hw => exec_refSuspect_selected h hs hsel hr hw,
    fun s i t hs hsel => ⟨_, exec_refSuspectClear_other hs hsel, s.clearSuspect_suspect i t, fun a ha => s.clearSuspect_rd i t ha⟩,
    fun s i t hs hsel hi hp hf hr => refSuspectClear_cancel hs hsel hi hp hf hr,
    fun s m t hp hf hb ht hi hpr => exec_refSwitchExecute hp hb ht ?_ ?_, fun s m t b hp hf hb hbt hB ht hi => exec_refSwitchExecute hp hb ht ?_ ?_,
    fun s p => ?_, fun s p => s.switchStep_second p, fun s p => ⟨rfl, rfl⟩, fun s t h hs => loopLock_spec h hs, fun s cal t h hs => loopUnlock_spec cal h hs,
    fun s t h => trackBwApply_off h, fun s t n h hb hn => trackBwApply_on h hb hn, fun s w temp t h hw => holdoverUpdate_spec h hw,
    fun s temp t h => holdoverUpdate_off h, fun s rate temp cal stored t n l h hn hd hl => ageingDaily_spec h hn hd hl⟩
  · rw [if_neg (by rw [hf]; decide)]
    exact beq_self_eq_true t
  · simp [hi, hpr]
  · rw [if_pos hf, decide_eq_true hbt, hB]
    exact beq_self_eq_true t
  · rcases hi with hi | hi <;> simp [hi, hf]
  · cases p <;> rfl

end Sys2Proof.Machine

/-! The time of day and the frame pulses (O39). -/
namespace Sys2Proof.Machine

/-! ### The whole seconds -/

section tod
variable {s w : State} {hi t v : Nat}

theorem State.giver_congr {s t : State} (h : t.regs = s.regs) : t.giver = s.giver := by
  have hi : t.inSt = s.inSt := funext fun i => State.get_congr h ..
  have hp : t.prio = s.prio := funext fun i => by rw [State.prio, State.get_congr h, State.prio]
  have hs : t.selected = s.selected := State.get_congr h ..
  unfold State.giver
  rw [hi, hp, hs]

theorem State.ptpQualified_congr {s t : State} (h : t.regs = s.regs) : t.ptpQualified = s.ptpQualified := by
  rw [State.ptpQualified, State.giver_congr h, State.ptpQualified]

theorem exec_todWrite (h : s.upFor R.REF_TOD_SEC_HI) : exec (.todWrite hi t) s = .next (s.todWrite hi t) := by
  have e : exec (.todWrite hi t) s = execTodWrite hi t s := rfl
  rw [e, execTodWrite, State.byHost_upFor h]

/-- The seconds written, as they wait for the next second. -/
def State.todTaken (s : State) (hi t : Nat) : State :=
  ((s.at_ t).set R.REF_TOD_SEC_HI F.REF_TOD_SEC_HI_SEC hi).takeSetting [R.REF_TOD_SEC_LO, R.REF_TOD_SEC_HI]

theorem State.todTaken_rd (s : State) (hi t : Nat) {a : Nat} (ha : a ≠ R.REF_TOD_SEC_HI) : (s.todTaken hi t).rd a = s.rd a := by
  rw [State.todTaken, State.rd_takeSetting, State.rd_set_ne _ _ _ ha, State.rd_at]

theorem todWrite_waits (hu : s.upFor R.REF_TOD_SEC_HI) (hq : s.ptpQualified = false) : ∃ u, exec (.todWrite hi t) s = .next u ∧
    u.ref.todPend = some ((s.rd R.REF_TOD_SEC_LO).toNat + hi % 65536 * 2 ^ 32) ∧ ∀ a, a ≠ R.REF_TOD_SEC_HI → u.rd a = s.rd a := by
  have hr (w : State) (x : RefSt) (a : Nat) : ({ w with ref := x } : State).rd a = w.rd a := rfl
  refine ⟨{ s.todTaken hi t with ref := { (s.todTaken hi t).ref with todPend := some (((s.todTaken hi t).rd R.REF_TOD_SEC_LO).toNat + hi % 65536 * 2 ^ 32) } }, ?_, ?_,
    fun a ha => (hr ..).trans (s.todTaken_rd hi t ha)⟩
  · unfold State.todTaken
    rw [exec_todWrite hu, State.todWrite]
    dsimp only
    rw [State.ptpQualified_congr (s := s) (t := s.at_ t) rfl, hq, if_neg Bool.false_ne_true]
  · rw [s.todTaken_rd hi t (by decide)]

theorem todWrite_ignored (hu : s.upFor R.REF_TOD_SEC_HI) (hq : s.ptpQualified = true) : exec (.todWrite hi t) s = .next (s.at_ t) := by
  rw [exec_todWrite hu, State.todWrite]
  dsimp only
  rw [State.ptpQualified_congr (s := s) (t := s.at_ t) rfl, hq, if_pos rfl]

/-- Seconds wait no more. -/
def State.todDone (s : State) (t : Nat) : State := { s.at_ t with ref := { s.ref with todPend := none } }

theorem exec_todApply (h : s.ref.todPend = some v) : exec (.todApply t) s = .next (
    if t % ticksPerSec ≠ 0 then s.at_ t
    else if s.ptpQualified then s.todDone t else (s.todDone t).applySec ((v : Int) - (t / ticksPerSec : Nat))) := by
  have e : exec (.todApply t) s = execTodApply t s := rfl
  have hr : (s.at_ t).ref = s.ref := rfl
  have hq := State.ptpQualified_congr (s := s) (t := s.todDone t) rfl
  unfold State.todDone at hq ⊢
  rw [e, execTodApply]
  dsimp only
  rw [hr, h]
  dsimp only
  rw [hq]

/-- The time base after it has moved, whatever a pending switch waits for. -/
theorem State.moveBase_spec (s : State) (d : Int) : (s.moveBase d).now = movedBy d s.now ∧ (s.moveBase d).ref.todPend = s.ref.todPend := by
  unfold State.moveBase
  dsimp only
  split <;> exact ⟨rfl, rfl⟩

theorem State.raise_now (s : State) (h : Hist) (f : Bits) : (s.raise h f).now = s.now := by
  have hv (s : State) (v : Nat) : (s.raiseVec v).now = s.now := by
    unfold State.raiseVec
    split <;> rfl
  unfold State.raise State.raiseBit
  split
  · rfl
  · dsimp only
    split
    · rw [hv, State.set_now]
    · rw [State.set_now]

/-- The first time the seconds are applied the time base moves onto them, and the time is valid. -/
theorem State.applySec_first (hv : w.timeValid = false) (d : Int) : w.applySec d =
    (((w.shiftSec d).moveBase (d * ticksPerSec)).set R.REF_STAT F.REF_STAT_TIME_VALID 1).raise Hist.ref F.REF_HIST_TIME_SET := by
  rw [State.applySec]
  dsimp only
  rw [hv, if_neg Bool.false_ne_true]

theorem movedBy_second (h : t % ticksPerSec = 0) : movedBy (((v : Int) - (t / ticksPerSec : Nat)) * ticksPerSec) t = v * ticksPerSec := by
  have hk : ((t / ticksPerSec : Nat) : Int) * ticksPerSec = t := by exact_mod_cast Nat.div_mul_cancel (Nat.dvd_of_mod_eq_zero h)
  have : (t : Int) + ((v : Int) - (t / ticksPerSec : Nat)) * ticksPerSec = ((v * ticksPerSec : Nat) : Int) := by
    push_cast at hk ⊢
    linarith
  rw [movedBy, this, Int.toNat_natCast]

theorem todApply_first (hp : s.ref.todPend = some v) (ht : t % ticksPerSec = 0) (hq : s.ptpQualified = false) (hv : s.timeValid = false) :
    ∃ u, exec (.todApply t) s = .next u ∧ u.timeValid = true ∧ u.get R.REF_HIST F.REF_HIST_TIME_SET = 1 ∧ u.now = v * ticksPerSec ∧ u.ref.todPend = none := by
  have hv' : (s.todDone t).timeValid = false := by rw [State.timeValid, State.flag, State.get_congr (s := s) (t := s.todDone t) rfl]; exact hv
  obtain ⟨h1, h2⟩ := ((s.todDone t).shiftSec ((v : Int) - (t / ticksPerSec : Nat))).moveBase_spec (((v : Int) - (t / ticksPerSec : Nat)) * ticksPerSec)
  refine ⟨_, by rw [exec_todApply hp, if_neg (fun hx => hx ht), hq, if_neg Bool.false_ne_true, State.applySec_first hv'], ?_,
    State.get_raise _ Hist.ref _ rfl (by decide), ?_, ?_⟩
  · rw [State.timeValid]
    refine State.flag_of_get ?_
    rw [State.get_raise_ne _ _ _ _ (by decide)]
    exact State.get_set_fits _ _ _ (by decide) (by decide)
  · rw [State.raise_now, State.set_now, h1]
    exact movedBy_second ht
  · rw [State.raise_ref, State.set_ref, h2]
    rfl

end tod

/-! ### Frame pulses -/

section pulse
variable {s : State} {k : Fin 8} {t : Nat}

theorem State.fpWidth_pos (s : State) (k : Nat) : 0 < s.fpWidth k := by
  unfold State.fpWidth
  omega

theorem State.fp_at (s : State) (k t : Nat) : (s.at_ t).lifecycle = s.lifecycle ∧ (s.at_ t).fpOfs k = s.fpOfs k ∧ (s.at_ t).fpWidth k = s.fpWidth k := by
  rw [State.lifecycle, State.lifecycle, State.fpOfs, State.fpOfs, State.fpWidth, State.fpWidth, State.rdInt, State.rdInt, State.get_at, State.get_at,
    State.get_at, State.rd_at]
  exact ⟨rfl, rfl, rfl⟩

/-- A pulse begun. -/
def State.pulsed (s : State) (k t : Nat) : State :=
  { s.at_ t with ref := { s.ref with
    fpLast := tabPut s.ref.fpLast k ⟨t, s.fpWidth k, s.flag (R.REF_FP_CFG k) F.REF_FP_CFG_POL⟩
    fpCount := tabSet 0 s.ref.fpCount k (tabGet 0 s.ref.fpCount k + 1) } }

/-- A pulse would follow the last too closely. -/
def State.fpNear (s : State) (k t : Nat) : Bool :=
  match tabFind s.ref.fpLast k with
  | some p => decide (t < p.at_ + p.width + s.fpWidth k)
  | none => false

theorem exec_fpPulse : exec (.fpPulse k t) s = .next (
    if s.lifecycle ≠ 4 ∧ s.flag (R.REF_FP_CFG k) F.REF_FP_CFG_EN &&
        ((t : Int) - s.fpOfs k) % (rateD (s.get (R.REF_FP_CFG k) F.REF_FP_CFG_RATE) : Int) == 0 && !s.fpNear k t then s.pulsed k t
    else s.at_ t) := by
  have e : exec (.fpPulse k t) s = execFpPulse k t s := rfl
  obtain ⟨h1, h2, h3⟩ := s.fp_at k t
  have hr : (s.at_ t).ref = s.ref := rfl
  unfold State.pulsed State.fpNear
  rw [e, execFpPulse]
  dsimp only
  rw [h1, h2, h3, hr, State.flag_at, State.flag_at, State.get_at] <;> cases tabFind s.ref.fpLast k <;> rfl

theorem fpPulse_off (h : s.lifecycle = 4 ∨ s.flag (R.REF_FP_CFG k) F.REF_FP_CFG_EN = false) : exec (.fpPulse k t) s = .next (s.at_ t) := by
  rw [exec_fpPulse, if_neg]
  rcases h with h | h <;> simp [h]

theorem fpPulse_near {p : Pulse} (hp : tabFind s.ref.fpLast k = some p) (h : t < p.at_ + p.width + s.fpWidth k) : exec (.fpPulse k t) s = .next (s.at_ t) := by
  have hn : s.fpNear k t = true := by rw [State.fpNear, hp]; exact decide_eq_true h
  rw [exec_fpPulse, hn, if_neg (by simp)]

theorem State.pulsed_ball (hl : s.lifecycle ≠ 4) : (s.pulsed k t).fpBall k = !(s.flag (R.REF_FP_CFG k) F.REF_FP_CFG_POL) := by
  have hf : tabFind (s.pulsed k t).ref.fpLast k = some ⟨t, s.fpWidth k, s.flag (R.REF_FP_CFG k) F.REF_FP_CFG_POL⟩ := tabFind_put_self ..
  have hc : (s.pulsed k t).lifecycle = s.lifecycle := State.get_congr rfl ..
  have hn : (s.pulsed k t).now = t := rfl
  have hw := s.fpWidth_pos k
  rw [State.fpBall, hf]
  dsimp only
  rw [hc, if_neg hl, hn, if_pos (by omega)]

theorem fpPulse_on (hl : s.lifecycle ≠ 4) (he : s.flag (R.REF_FP_CFG k) F.REF_FP_CFG_EN = true)
    (hg : ((t : Int) - s.fpOfs k) % (rateD (s.get (R.REF_FP_CFG k) F.REF_FP_CFG_RATE) : Int) = 0)
    (hp : ∀ p, tabFind s.ref.fpLast k = some p → p.at_ + p.width + s.fpWidth k ≤ t) :
    ∃ u, exec (.fpPulse k t) s = .next u ∧ tabFind u.ref.fpLast k = some ⟨t, s.fpWidth k, s.flag (R.REF_FP_CFG k) F.REF_FP_CFG_POL⟩ ∧
      tabGet 0 u.ref.fpCount k = tabGet 0 s.ref.fpCount k + 1 ∧ u.regs = s.regs ∧ u.fpBall k = !(s.flag (R.REF_FP_CFG k) F.REF_FP_CFG_POL) := by
  have hn : s.fpNear k t = false := by
    rw [State.fpNear]
    cases hk : tabFind s.ref.fpLast k with
    | none => rfl
    | some p => exact decide_eq_false (Nat.not_lt.mpr (hp p hk))
  refine ⟨s.pulsed k t, ?_, tabFind_put_self .., ?_, rfl, State.pulsed_ball hl⟩
  · rw [exec_fpPulse, hn, hg, he, if_pos (by simp [hl])]
  · exact tabGet_set_self (0 : Nat) s.ref.fpCount k.val (tabGet 0 s.ref.fpCount k.val + 1)

theorem State.fpBall_idle (h : s.lifecycle = 4 ∨ (s.flag (R.REF_FP_CFG k) F.REF_FP_CFG_EN = false ∧
    ∀ p, tabFind s.ref.fpLast k = some p → p.at_ + p.width ≤ s.now)) : s.fpBall k = s.flag (R.REF_FP_CFG k) F.REF_FP_CFG_POL := by
  rw [State.fpBall]
  cases hk : tabFind s.ref.fpLast k with
  | none => rfl
  | some p =>
    dsimp only
    by_cases hl : s.lifecycle = 4
    · rw [if_pos hl]
    · obtain ⟨he, hp⟩ := h.resolve_left hl
      rw [if_neg hl, if_neg (Nat.not_lt.mpr (hp p hk)), if_neg (by rw [he]; decide)]

end pulse

/-- Settles O39: seconds written and applied, and the pulses on their grid. -/
theorem timeOfDayAndPulses : Obligations.TimeOfDayAndPulses := by
  refine ⟨fun s hi t hu hq => todWrite_waits hu hq, fun s hi t hu hq => todWrite_ignored hu hq, fun s t v hp ht hq hv => todApply_first hp ht hq hv,
    fun s t v hp ht hq => ?_, fun s t v hp ht hq hv => ?_, fun s t v hp ht => ?_, fun s k t hl he hg => ⟨fpPulse_on hl he hg, fun p hp h => fpPulse_near hp h⟩,
    fun s k t h => fpPulse_off h, fun s k h => State.fpBall_idle h⟩
  · rw [exec_todApply hp, if_neg (fun hx => hx ht), if_pos hq, State.todDone]
  · rw [exec_todApply hp, if_neg (fun hx => hx ht), if_neg (by rw [hq]; decide), State.todDone]
  · rw [exec_todApply hp, if_pos ht]

end Sys2Proof.Machine

/-! Timing synthesizers: locking (O40). -/
namespace Sys2Proof.Machine

/-! ### Media operations leave the control plane's registers -/

/-- No register below the quadrants differs. -/
def State.lowSame (s t : State) : Prop := ∀ a < 0x1000000, t.rd a = s.rd a

theorem State.lowSame.refl (s : State) : s.lowSame s := fun _ _ => rfl

theorem State.lowSame.trans {s t u : State} (h : s.lowSame t) (k : t.lowSame u) : s.lowSame u := fun a ha => (k a ha).trans (h a ha)

theorem State.lowSame.foldl {α : Type} {f : State → α → State} (h : ∀ (s : State) x, s.lowSame (f s x)) (l : List α) (s : State) : s.lowSame (l.foldl f s) := by
  induction l generalizing s with
  | nil => exact .refl s
  | cons x l ih => exact (h s x).trans (ih _)

theorem State.onlyRegs.lowSame {s t : State} {l : List Nat} (h : s.onlyRegs t l) (hl : ∀ a ∈ l, 0x1000000 ≤ a) : s.lowSame t :=
  fun _ ha => h.rd fun hm => absurd (hl _ hm) (Nat.not_le.mpr ha)

theorem State.txRefresh_lowSame (s : State) (n : Nat) : s.lowSame (s.txRefresh n) :=
  (s.txRefresh_onlyRegs n (l := [R.SDI_TX_STAT n]) (.head _)).lowSame fun a ha => by
    rw [List.mem_singleton.mp ha]
    unfold R.SDI_TX_STAT quadWin
    omega

theorem State.refreshSrc_lowSame (s : State) (src : Nat) : s.lowSame (s.refreshSrc src) := fun a ha =>
  s.refreshSrc_rd src a (fun n _ => by unfold R.SDI_TX_STAT quadWin; omega) (fun d => by unfold R.XPT_FRZ_STAT; omega)

theorem State.gateUnit_lowSame (s : State) (u : Nat) : s.lowSame (s.gateUnit u) := by
  rw [State.gateUnit]
  split
  · have hr (w : State) : w.lowSame (w.raise (Hist.sou u) F.SOU_HIST_SYN_GATED) :=
      (State.raise_onlyRegs w (Hist.sou u) _ (.head [])).lowSame fun a ha => by
        rw [List.mem_singleton.mp ha]
        change 0x1000000 ≤ R.SOU_HIST u
        unfold R.SOU_HIST quadWin
        omega
    exact .trans (.trans (fun a _ => State.rd_setUnit s u _ a) (hr _)) (State.refreshSrc_lowSame _ _)
  · exact .refl s

theorem State.setAeso_lowSame (s : State) (n v : Nat) : s.lowSame (s.set (R.AESO_STAT n) F.AESO_STAT_ACTIVE v) :=
  (State.set_onlyRegs s _ _ (.head [])).lowSame fun a ha => by
    rw [List.mem_singleton.mp ha]
    unfold R.AESO_STAT quadWin
    omega

theorem State.sapRaise_lowSame (s : State) (n : Nat) (f : Bits) : s.lowSame (s.raise (Hist.sap n) f) :=
  (State.raise_onlyRegs s (Hist.sap n) _ (.head [])).lowSame fun a ha => by
    rw [List.mem_singleton.mp ha]
    change 0x1000000 ≤ R.SAP_HIST n
    unfold R.SAP_HIST quadWin
    omega

theorem State.lowSame.ite {s t u : State} {p : Prop} [Decidable p] (h : s.lowSame t) (k : s.lowSame u) : s.lowSame (if p then t else u) := by
  split
  · exact h
  · exact k

theorem State.setClk_lowSame (s : State) (n : Nat) (x : Clk) : s.lowSame (s.setClk n x) := fun _ _ => rfl

theorem State.audStop_lowSame (s : State) (t : Nat) : s.lowSame (s.audStop t) := by
  refine State.lowSame.foldl (fun w n => ?_) _ s
  dsimp only
  exact .trans (.ite (.trans (State.setClk_lowSame w n _) (State.sapRaise_lowSame _ n _)) (.refl w)) (.ite (State.setAeso_lowSame _ n 0) (.refl _))

theorem State.audStart_lowSame (s : State) (t : Nat) : s.lowSame (s.audStart t) := by
  refine State.lowSame.foldl (fun w n => ?_) _ s
  dsimp only
  exact .trans (.ite (State.setClk_lowSame w n _) (.refl w)) (.ite (State.setAeso_lowSame _ n 1) (.refl _))

theorem State.synLanes_lowSame (s : State) (t : Nat) : s.lowSame (s.synLanes t) := .foldl State.txRefresh_lowSame _ s

/-! ### What the shared operations of a synthesizer leave it in -/

section ops
variable {w : State} {n : Nat}

theorem State.synStop_low (w : State) (n st : Nat) : (w.set (R.SYN_TS_STAT n) F.SYN_TS_STAT_STATE st).lowSame (w.synStop n st) :=
  ((State.lowSame.foldl State.gateUnit_lowSame _ _).trans (State.audStop_lowSame _ _)).trans (State.synLanes_lowSame _ _)

theorem SYN_TS_STAT_lt {n : Nat} (hn : n < 16) : R.SYN_TS_STAT n < 0x1000000 := by unfold R.SYN_TS_STAT; omega

/-- The registers apart from STAT that the operations of a synthesizer touch. -/
theorem SYN_TS_STAT_ne (n e : Nat) : R.SYN_TS_STAT n ≠ R.SYN_TS_RESIDUAL n ∧ R.SYN_TS_STAT n ≠ R.SYN_TS_HIST n ∧ R.SYN_TS_STAT n ≠ R.SYN_TS_CTL n ∧
    R.SYN_TS_STAT n ≠ R.SYN_TS_RELOCK_CNT n ∧ R.SYN_TS_STAT n ≠ R.SYN_TS_BAND n e ∧ R.SYN_TS_HIST n ≠ R.SYN_TS_BAND n e := by
  unfold R.SYN_TS_STAT R.SYN_TS_RESIDUAL R.SYN_TS_HIST R.SYN_TS_CTL R.SYN_TS_RELOCK_CNT R.SYN_TS_BAND
  omega

theorem State.synStop_state (hn : n < 16) (w : State) {st : Nat} (h : st < 8) : (w.synStop n st).synState n = st := by
  rw [State.synState, State.get, w.synStop_low n st _ (SYN_TS_STAT_lt hn)]
  exact State.get_set_fits _ _ _ (by decide) h

theorem State.synFreeze_stat (w : State) (n : Nat) (f : Bits) : (w.synFreeze n).get (R.SYN_TS_STAT n) f = w.get (R.SYN_TS_STAT n) f := by
  have h : w.synFreeze n = (w.wrInt (R.SYN_TS_RESIDUAL n) (w.synNow n).1).setSyn n { w.syn_ n with absAt := w.now, absOfs := (w.synNow n).2 } := rfl
  rw [h, State.get_setSyn, State.wrInt, State.get_wr_ne _ _ _ (SYN_TS_STAT_ne n 0).1]

/-- A synthesizer that seeks lock hops or searches. -/
theorem State.synSeek_hop {e : Nat} (h : w.bandUsable n (w.synFam n) (w.synMult n) = some e) :
    (w.synSeek n).synState n = 2 ∧ (w.synSeek n).get (R.SYN_TS_STAT n) F.SYN_TS_STAT_ENTRY = e % 16 := by
  obtain ⟨x, hx⟩ : ∃ x, x = ({ w.syn_ n with preload := false, gatedBy := 0 } : Syn) := ⟨_, rfl⟩
  have hb : (w.setSyn n x).bandUsable n ((w.setSyn n x).synFam n) ((w.setSyn n x).synMult n) = some e := h
  have hs : w.synSeek n = ((w.setSyn n x).bandTouch n e).set (R.SYN_TS_STAT n) F.SYN_TS_STAT_STATE 2 := by
    rw [State.synSeek, ← hx]
    rw [hb]
  rw [hs]
  refine ⟨State.get_set_fits _ _ _ (by decide) (by decide), ?_⟩
  rw [State.get_set_apart _ _ _ _ _ (by decide) (by decide)]
  exact State.get_set_self _ _ _ _ (by decide)

theorem State.synSeek_search (h : w.bandUsable n (w.synFam n) (w.synMult n) = none) : (w.synSeek n).synState n = 1 := by
  obtain ⟨x, hx⟩ : ∃ x, x = ({ w.syn_ n with preload := false, gatedBy := 0 } : Syn) := ⟨_, rfl⟩
  have hb : (w.setSyn n x).bandUsable n ((w.setSyn n x).synFam n) ((w.setSyn n x).synMult n) = none := h
  have hs : w.synSeek n = (w.setSyn n x).set (R.SYN_TS_STAT n) F.SYN_TS_STAT_STATE 1 := by
    rw [State.synSeek, ← hx]
    rw [hb]
  rw [hs]
  exact State.get_set_fits _ _ _ (by decide) (by decide)

theorem State.synSeek_state (w : State) (n : Nat) : (w.synSeek n).synState n = 1 ∨ (w.synSeek n).synState n = 2 := by
  cases h : w.bandUsable n (w.synFam n) (w.synMult n) with
  | none => exact .inl (State.synSeek_search h)
  | some e => exact .inr (State.synSeek_hop h).1

theorem State.synGate_state (hn : n < 16) (w : State) (why : Nat) : (w.synGate n why).synState n = 4 := by
  rw [State.synGate]
  rw [State.synState, State.get_setSyn]
  exact State.synStop_state hn _ (by decide)

/-- A target in force: its family, MULT and DLL mode. -/
theorem State.synTarget_fields (w : State) (n : Nat) {fam mult : Nat} (hf : fam < 4) (hm : mult < 16) :
    (w.synTarget n fam mult).synFam n = fam ∧ (w.synTarget n fam mult).synMult n = mult ∧ (w.synTarget n fam mult).synState n = w.synState n := by
  rw [State.synTarget]
  refine ⟨?_, ?_, ?_⟩
  · rw [State.synFam, State.setB, State.get_set_apart _ _ _ _ _ (by decide) (by decide), State.get_set_apart _ _ _ _ _ (by decide) (by decide)]
    exact State.get_set_fits _ _ _ (by decide) hf
  · rw [State.synMult, State.setB, State.get_set_apart _ _ _ _ _ (by decide) (by decide)]
    exact State.get_set_fits _ _ _ (by decide) hm
  · rw [State.synState, State.setB, State.get_set_apart _ _ _ _ _ (by decide) (by decide), State.get_set_apart _ _ _ _ _ (by decide) (by decide),
      State.get_set_apart _ _ _ _ _ (by decide) (by decide), State.synState]

/-- A retune leaves a synthesizer that is OFF or GATED so; any other seeks the new target. -/
theorem State.synRetune_state (w : State) (n fam : Nat) :
    (w.synState n = 0 → (w.synRetune n fam).synState n = 0) ∧ (w.synState n = 4 → (w.synRetune n fam).synState n = 4) ∧
      ((w.synState n = 1 ∨ w.synState n = 2 ∨ w.synState n = 3) → (w.synRetune n fam).synState n = 1 ∨ (w.synRetune n fam).synState n = 2) := by
  have hk : ∀ (v : State) m, ((v.synTarget n fam m).set (R.SYN_TS_CTL n) F.SYN_TS_CTL_FAMILY fam).synState n = v.synState n := fun v m => by
    rw [State.synState, State.get_set_ne _ _ _ _ (SYN_TS_STAT_ne n 0).2.2.1, State.synTarget]
    rw [State.setB, State.get_set_apart _ _ _ _ _ (by decide) (by decide), State.get_set_apart _ _ _ _ _ (by decide) (by decide),
      State.get_set_apart _ _ _ _ _ (by decide) (by decide), State.synState]
  rw [State.synRetune]
  refine ⟨fun h => ?_, fun h => ?_, fun h => ?_⟩
  · rw [if_pos (.inl h), if_neg (by omega), hk, h]
  · rw [if_pos (.inr h), if_neg (by omega), hk, h]
  · rw [if_neg (by omega)]
    exact State.synSeek_state ..

theorem State.synOff_state (hn : n < 16) (w : State) : (w.synOff n).synState n = 0 := by
  rw [State.synOff, State.synState, State.get_setSyn]
  exact State.synStop_state hn _ (by decide)

theorem State.synStart_state (w : State) (n : Nat) : (w.synStart n false).synState n = 1 ∨ (w.synStart n false).synState n = 2 := by
  have hp : ∀ (v : State) (x : Syn), (v.setSyn n x).syn_ n = x := fun v x => tabGet_set_self ..
  rw [State.synStart, hp, Bool.false_and, if_neg Bool.false_ne_true]
  exact State.synSeek_state ..

/-- A synthesizer whose output runs, before its audio masters and lanes look for it. -/
def State.synRuns (w : State) (n : Nat) (lim : Nat) : State :=
  (if (w.syn_ n).fromGate then (w.set (R.SYN_TS_STAT n) F.SYN_TS_STAT_STATE 3).inc (R.SYN_TS_RELOCK_CNT n)
    else w.set (R.SYN_TS_STAT n) F.SYN_TS_STAT_STATE 3).setSyn n { w.syn_ n with gatedBy := 0, fromGate := false, clamp := some lim }

theorem State.synLocked_eq (w : State) (n c f : Nat) : ∃ lim, w.synLocked n c f = ((w.synRuns n lim).audStart n).synLanes n := ⟨_, rfl⟩

theorem State.synRuns_spec (w : State) (n lim : Nat) : (w.synRuns n lim).synState n = 3 ∧
    ((w.synRuns n lim).rd (R.SYN_TS_RELOCK_CNT n)).toNat = (if (w.syn_ n).fromGate = true then min 0xFFFFFFFF ((w.rd (R.SYN_TS_RELOCK_CNT n)).toNat + 1)
        else (w.rd (R.SYN_TS_RELOCK_CNT n)).toNat) := by
  have hne : R.SYN_TS_STAT n ≠ R.SYN_TS_RELOCK_CNT n := (SYN_TS_STAT_ne n 0).2.2.2.1
  have h3 : (w.set (R.SYN_TS_STAT n) F.SYN_TS_STAT_STATE 3).get (R.SYN_TS_STAT n) F.SYN_TS_STAT_STATE = 3 := State.get_set_fits _ _ _ (by decide) (by decide)
  have hr : (w.set (R.SYN_TS_STAT n) F.SYN_TS_STAT_STATE 3).rd (R.SYN_TS_RELOCK_CNT n) = w.rd (R.SYN_TS_RELOCK_CNT n) := State.rd_set_ne _ _ _ hne.symm
  rw [State.synRuns, State.synState, State.get_setSyn, State.rd_setSyn]
  split
  · rw [State.get_inc_ne _ _ hne, State.rd_inc, hr]
    exact ⟨h3, rfl⟩
  · rw [hr]
    exact ⟨h3, rfl⟩

/-- A synthesizer that has locked runs its output, and counts a relock. -/
theorem State.synLocked_spec (hn : n < 16) (w : State) (c f : Nat) : (w.synLocked n c f).synState n = 3 ∧ ((w.synLocked n c f).syn_ n).fromGate = false ∧
    ((w.synLocked n c f).rd (R.SYN_TS_RELOCK_CNT n)).toNat = (if (w.syn_ n).fromGate = true then min 0xFFFFFFFF ((w.rd (R.SYN_TS_RELOCK_CNT n)).toNat + 1)
        else (w.rd (R.SYN_TS_RELOCK_CNT n)).toNat) := by
  obtain ⟨lim, hl⟩ := w.synLocked_eq n c f
  have hlow := (State.audStart_lowSame (w.synRuns n lim) n).trans (State.synLanes_lowSame _ n)
  have hsyn : (((w.synRuns n lim).audStart n).synLanes n).syn = (w.synRuns n lim).syn :=
    (State.synLanes_kept (State.audStart_kept (.refl [.regs, .aud] (w.synRuns n lim)) n (Sub.of (Sub.self _) rfl)) n (Sub.of (Sub.self _) rfl)).2.2 .syn (by decide)
  obtain ⟨h1, h2⟩ := w.synRuns_spec n lim
  rw [hl]
  refine ⟨?_, ?_, ?_⟩
  · rw [State.synState, State.get, hlow _ (SYN_TS_STAT_lt hn)]
    exact h1
  · rw [State.syn__congr hsyn]
    exact congrArg Syn.fromGate (tabGet_set_self ..)
  · rw [hlow _ (by unfold R.SYN_TS_RELOCK_CNT; omega)]
    exact h2

end ops

/-! ### Writes of SYN_TS_CTL -/

section ctl
variable {s w : State} {n : Fin 16} {v t : Nat}

/-- SYN_TS_CTL as written. -/
def State.synCtl (s : State) (n v t : Nat) : State :=
  (((((s.at_ t).set (R.SYN_TS_CTL n) F.SYN_TS_CTL_MULT (v / 256)).set (R.SYN_TS_CTL n) F.SYN_TS_CTL_FAMILY (v / 16)).set (R.SYN_TS_CTL n)
    F.SYN_TS_CTL_PRELOAD (v / 8)).set (R.SYN_TS_CTL n) F.SYN_TS_CTL_ABSORB (v / 4)).set (R.SYN_TS_CTL n) F.SYN_TS_CTL_EN v

/-- A write of SYN_TS_CTL is not taken. -/
def State.synHeld (w : State) (n v : Nat) : Bool :=
  w.synUsers n != 0 && ((famCode (v / 16 % 4) != w.synFam n || multCode (v / 256 % 16) != w.synMult n) || (!(v % 2 == 1) && !(w.synState n == 0)))
    || (v / 4 % 2 == 1 && w.synAudio n != 0)

/-- What a write of SYN_TS_CTL starts from: absorption as it asks for it. -/
def State.synBegin (w : State) (n v : Nat) : State :=
  let x := if w.ramping n then w else w.synFreeze n
  x.setSyn n { x.syn_ n with absorb := v / 4 % 2 == 1, absOfs := if v / 4 % 2 == 1 then (x.syn_ n).absOfs else 0 }

theorem State.synBegin_state (w : State) (n v : Nat) : (w.synBegin n v).synState n = w.synState n := by
  rw [State.synBegin, State.synState, State.get_setSyn]
  split
  · rfl
  · exact w.synFreeze_stat n _

theorem exec_synCtlWrite (hu : s.upFor (R.SYN_TS_CTL n)) : exec (.synCtlWrite n v t) s = .next (s.synWrite n v t) := by
  have e : exec (.synCtlWrite n v t) s = execSynCtlWrite n v t s := rfl
  rw [e, execSynCtlWrite, State.byHost_upFor hu]

theorem State.synWrite_held (hw : w = s.synCtl n v t) (hr : w.inReset 6 n = false) (h : w.synHeld n v = true) :
    s.synWrite n v t = w.raise (Hist.syn n) F.SYN_TS_HIST_CFG_ERR := by
  unfold State.synCtl at hw
  unfold State.synHeld at h
  rw [State.synWrite]
  dsimp only
  rw [← hw, hr, if_neg Bool.false_ne_true, if_pos h]

theorem State.synWrite_off (hw : w = s.synCtl n v t) (hr : w.inReset 6 n = false) (h : w.synHeld n v = false) (he : v % 2 = 0) :
    s.synWrite n v t = (if w.synState n = 0 then w.synBegin n v else (w.synBegin n v).synOff n).synTarget n (famCode (v / 16 % 4)) (multCode (v / 256 % 16)) := by
  unfold State.synCtl at hw
  unfold State.synHeld at h
  unfold State.synBegin
  rw [State.synWrite]
  dsimp only
  rw [← hw, hr, if_neg Bool.false_ne_true, h, if_neg Bool.false_ne_true, if_pos (show (!(v % 2 == 1)) = true by rw [he]; rfl)]
  by_cases h0 : w.synState n = 0
  · rw [if_pos (beq_iff_eq.mpr h0), if_pos h0]
  · rw [if_neg (fun hx => h0 (beq_iff_eq.mp hx)), if_neg h0]

theorem State.synWrite_start (hw : w = s.synCtl n v t) (hr : w.inReset 6 n = false) (h : w.synHeld n v = false) (he : v % 2 = 1) (h0 : w.synState n = 0) :
    s.synWrite n v t = (w.synBegin n v).synStart n false := by
  unfold State.synCtl at hw
  unfold State.synHeld at h
  unfold State.synBegin
  rw [State.synWrite]
  dsimp only
  rw [← hw, hr, if_neg Bool.false_ne_true, h, if_neg Bool.false_ne_true, if_neg (show ¬ (!(v % 2 == 1)) = true by rw [he]; decide), if_pos (beq_iff_eq.mpr h0)]

theorem State.synWrite_reset (hw : w = s.synCtl n v t) (hr : w.inReset 6 n = true) : s.synWrite n v t = w := by
  unfold State.synCtl at hw
  rw [State.synWrite]
  dsimp only
  rw [← hw, hr, if_pos rfl]

theorem famCode_lt (v : Nat) : famCode v < 4 := by unfold famCode; split <;> omega
theorem multCode_lt {v : Nat} : multCode v < 16 := by unfold multCode; split <;> omega

/-- A synthesizer turned off: OFF at its new target. -/
theorem State.synWrite_off_spec (hw : w = s.synCtl n v t) (hr : w.inReset 6 n = false) (h : w.synHeld n v = false) (he : v % 2 = 0) :
    (s.synWrite n v t).synState n = 0 ∧ (s.synWrite n v t).synFam n = famCode (v / 16 % 4) ∧ (s.synWrite n v t).synMult n = multCode (v / 256 % 16) := by
  rw [State.synWrite_off hw hr h he]
  obtain ⟨h1, h2, h3⟩ := (if w.synState n = 0 then w.synBegin n v else (w.synBegin n v).synOff n).synTarget_fields n (famCode_lt (v / 16 % 4))
    (multCode_lt (v := v / 256 % 16))
  refine ⟨h3.trans ?_, h1, h2⟩
  split
  next h0 => rw [State.synBegin_state, h0]
  next => exact State.synOff_state n.2 _

end ctl

/-! ### Lock -/

section lock
variable {s w : State} {n : Fin 16} {t coarse fine : Nat} {clamp : Bool}

/-- A loop that reaches lock, with the clamp that held it shown. -/
def State.synClamped (s : State) (n coarse fine : Nat) (clamp : Bool) (t : Nat) : State :=
  if clamp || s.clampHolds n coarse fine then (s.at_ t).raise (Hist.syn n) F.SYN_TS_HIST_FMAX_CLAMP else s.at_ t

theorem State.synClamped_onlyRegs (s : State) (n coarse fine : Nat) (clamp : Bool) (t : Nat) :
    s.onlyRegs (s.synClamped n coarse fine clamp t) [R.SYN_TS_HIST n] :=
  .ite (fun _ => (s.at_onlyRegs t _).trans (State.raise_onlyRegs _ (Hist.syn n) _ (.head _))) fun _ => s.at_onlyRegs t _

theorem State.synClamped_stat (s : State) (n coarse fine : Nat) (clamp : Bool) (t : Nat) (f : Bits) :
    (s.synClamped n coarse fine clamp t).get (R.SYN_TS_STAT n) f = s.get (R.SYN_TS_STAT n) f :=
  (s.synClamped_onlyRegs n coarse fine clamp t).get (by simpa using (SYN_TS_STAT_ne n 0).2.1) f

theorem State.synClamped_band (s : State) (n coarse fine : Nat) (clamp : Bool) (t e : Nat) (f : Bits) :
    (s.synClamped n coarse fine clamp t).get (R.SYN_TS_BAND n e) f = s.get (R.SYN_TS_BAND n e) f :=
  (s.synClamped_onlyRegs n coarse fine clamp t).get (by simpa using (SYN_TS_STAT_ne n e).2.2.2.2.2.symm) f

theorem exec_synLock (h : s.synState n = 1 ∨ s.synState n = 2) (hw : w = s.synClamped n coarse fine clamp t) :
    exec (.synLock n coarse fine clamp t) s = .next (
      if s.synState n = 1 ∧ (w.syn_ n).preload = true then
        let x := w.bandPut n (1 - w.synFam n) (w.synMult n) coarse fine
        x.setSyn n { x.syn_ n with preload := false }
      else if s.synState n = 1 then (w.bandPut n (w.synFam n) (w.synMult n) coarse fine).synLocked n coarse fine
      else
        let b := R.SYN_TS_BAND n (w.get (R.SYN_TS_STAT n) F.SYN_TS_STAT_ENTRY)
        w.synLocked n (w.get b F.SYN_TS_BAND_COARSE) (w.get b F.SYN_TS_BAND_FINE)) := by
  have e : exec (.synLock n coarse fine clamp t) s = execSynLock n coarse fine clamp t s := rfl
  have hs : (s.at_ t).synState n = s.synState n := State.get_at ..
  have hc : (s.at_ t).clampHolds n coarse fine = s.clampHolds n coarse fine := rfl
  unfold State.synClamped at hw
  rw [e, execSynLock]
  dsimp only
  rw [hs, if_neg (by omega), hc, ← hw]

theorem synLock_spec (hw : w = s.synClamped n coarse fine clamp t) :
    (∀ b, s.synState n = 2 → b = R.SYN_TS_BAND n (s.get (R.SYN_TS_STAT n) F.SYN_TS_STAT_ENTRY) →
      exec (.synLock n coarse fine clamp t) s = .next (w.synLocked n (s.get b F.SYN_TS_BAND_COARSE) (s.get b F.SYN_TS_BAND_FINE))) ∧
    (s.synState n = 1 → (s.syn_ n).preload = false →
      exec (.synLock n coarse fine clamp t) s = .next ((w.bandPut n (s.synFam n) (s.synMult n) coarse fine).synLocked n coarse fine)) ∧
    (s.synState n = 1 → (s.syn_ n).preload = true → ∀ x, x = w.bandPut n (1 - s.synFam n) (s.synMult n) coarse fine →
      exec (.synLock n coarse fine clamp t) s = .next (x.setSyn n { x.syn_ n with preload := false })) := by
  have ho := s.synClamped_onlyRegs n coarse fine clamp t
  have hst := s.synClamped_stat n coarse fine clamp t
  have hb := s.synClamped_band n coarse fine clamp t
  have hx : (w.syn_ n) = s.syn_ n := by rw [hw]; exact State.syn__congr ho.syn n
  have hf : w.synFam n = s.synFam n := by rw [hw]; exact hst _
  have hm : w.synMult n = s.synMult n := by rw [hw]; exact hst _
  rw [← hw] at hst hb
  refine ⟨fun b h he => ?_, fun h hp => ?_, fun h hp x hq => ?_⟩
  · rw [exec_synLock (.inr h) hw, if_neg (by omega), if_neg (by omega)]
    dsimp only
    rw [hst, ← he, he, hb, hb]
  · rw [exec_synLock (.inl h) hw, hx, hp, if_neg (fun hx => Bool.false_ne_true hx.2), if_pos h, hf, hm]
  · rw [exec_synLock (.inl h) hw, hx, hp, if_pos ⟨h, rfl⟩, hf, hm, ← hq]

/-- A loss gates the output, and shows why. -/
theorem State.synGate_raise (w : State) (n : Fin 16) (why : Nat) {f : Bits} (hw : f.width = 1) (hl : f.lo < 32) :
    ((w.synGate n why).raise (Hist.syn n) f).synState n = 4 ∧ ((w.synGate n why).raise (Hist.syn n) f).get (R.SYN_TS_HIST n) f = 1 := by
  refine ⟨?_, State.get_raise _ (Hist.syn n) _ hw hl⟩
  rw [State.synState, State.get_raise_ne _ (Hist.syn n) _ _ (SYN_TS_STAT_ne n 0).2.1]
  exact State.synGate_state n.2 w why

theorem exec_synLockLoss {errs : List Int} : exec (.synLockLoss n errs t) s = .next (
    if s.synState n = 3 ∧ (s.at_ t).lockFails n errs = true then ((s.at_ t).synGate n 1).raise (Hist.syn n) F.SYN_TS_HIST_LOCK_LOST else s.at_ t) := by
  have e : exec (.synLockLoss n errs t) s = execSynLockLoss n errs t s := rfl
  have hs : (s.at_ t).synState n = s.synState n := State.get_at ..
  rw [e, execSynLockLoss]
  dsimp only
  rw [hs]

theorem exec_synRefLoss (h : s.synState n = 1 ∨ s.synState n = 2 ∨ s.synState n = 3) :
    exec (.synRefLoss n t) s = .next (((s.at_ t).synGate n 2).raise (Hist.syn n) F.SYN_TS_HIST_REF_LOST) := by
  have e : exec (.synRefLoss n t) s = execSynRefLoss n t s := rfl
  have hs : (s.at_ t).synState n = s.synState n := State.get_at ..
  rw [e, execSynRefLoss]
  dsimp only
  rw [hs, if_pos h]

theorem exec_synRelockStart (h : s.synState n = 4) (hg : (s.syn_ n).gatedBy = 1) : exec (.synRelockStart n t) s = .next ((s.at_ t).synSeek n) := by
  have e : exec (.synRelockStart n t) s = execSynRelockStart n t s := rfl
  have hs : (s.at_ t).synState n = s.synState n := State.get_at ..
  rw [e, execSynRelockStart]
  dsimp only
  rw [hs, if_pos ⟨h, hg⟩]

theorem exec_synRefReturn (h : s.synState n = 4) (hg : (s.syn_ n).gatedBy = 2) : exec (.synRefReturn n t) s = .next ((s.at_ t).synSeek n) := by
  have e : exec (.synRefReturn n t) s = execSynRefReturn n t s := rfl
  have hs : (s.at_ t).synState n = s.synState n := State.get_at ..
  rw [e, execSynRefReturn]
  dsimp only
  rw [hs, if_pos ⟨h, hg⟩]

/-- A quarter of a CLK_HI cycle, or of an f_TS period in DLL mode, four times over. -/
def State.lockLim (s : State) (n : Nat) : Nat :=
  if s.flag (R.SYN_TS_STAT n) F.SYN_TS_STAT_DLL then 16 * cycleTicks (s.synFam n) else cycleTicks (s.synFam n)

theorem State.lockFails_iff (s : State) (n : Nat) (errs : List Int) : s.lockFails n errs = true ↔
    (errs.length = 4 ∧ ∀ e ∈ errs, s.lockLim n < 4 * e.natAbs) ∧
      ∀ b, (s.syn_ n).passed = some b → 2 * b + 15 * edgeTicks (s.synFam n) (s.synMult n) < 2 * s.now := by
  unfold State.lockFails State.lockLim
  dsimp only
  rw [Bool.and_eq_true, Bool.and_eq_true, beq_iff_eq, List.all_eq_true]
  refine and_congr (and_congr_right fun _ => forall₂_congr fun e _ => decide_eq_true_iff) ?_
  cases (s.syn_ n).passed with
  | none => exact iff_of_true rfl fun b hb => nomatch hb
  | some b => exact ⟨fun h c hc => Option.some.inj hc ▸ of_decide_eq_true h, fun h => decide_eq_true (h b rfl)⟩

theorem State.lockFails_spec (s : State) (n : Nat) (errs : List Int) (cyc per : Nat) (hc : cyc = if s.synFam n = 1 then 1001 else 1000)
    (hp : per = 16 * cyc * 2 ^ s.synMult n) :
    ((errs.length ≠ 4 ∨ (∃ e ∈ errs, 4 * e.natAbs ≤ (if s.flag (R.SYN_TS_STAT n) F.SYN_TS_STAT_DLL then 16 * cyc else cyc)) ∨
      (∃ b, (s.syn_ n).passed = some b ∧ s.now ≤ b + 7 * per)) → s.lockFails n errs = false) ∧
    (errs.length = 4 → (∀ e ∈ errs, (if s.flag (R.SYN_TS_STAT n) F.SYN_TS_STAT_DLL then 16 * cyc else cyc) < 4 * e.natAbs) → (s.syn_ n).passed = none →
      s.lockFails n errs = true) := by
  have hl : (if s.flag (R.SYN_TS_STAT n) F.SYN_TS_STAT_DLL then 16 * cyc else cyc) = s.lockLim n := by rw [hc]; rfl
  have hper : edgeTicks (s.synFam n) (s.synMult n) = per := by rw [hp, hc]; rfl
  rw [hl]
  refine ⟨fun h => Bool.eq_false_iff.mpr fun ht => ?_, fun h1 h2 h3 => (s.lockFails_iff n errs).mpr ⟨⟨h1, h2⟩, fun b hb => by rw [h3] at hb; cases hb⟩⟩
  obtain ⟨⟨h1, h2⟩, h3⟩ := (s.lockFails_iff n errs).mp ht
  rcases h with h | ⟨e, he, hle⟩ | ⟨b, hb, hle⟩
  · exact h h1
  · exact absurd (h2 e he) (Nat.not_lt.mpr hle)
  · have := h3 b hb
    rw [hper] at this
    omega

/-- The entry of band memory that a store of codes takes. -/
def State.bandEntry (s : State) (n fam mult : Nat) : Nat :=
  (((List.range 16).find? fun e => s.bandFor n e fam mult && decide (s.bandDist n e ≤ 1000)).or
    ((List.range 16).find? fun e => !s.flag (R.SYN_TS_BAND n e) F.SYN_TS_BAND_VALID)).getD (((s.syn_ n).lru.getLast?).getD 0)

theorem State.bandPut_fields (w : State) (n fam mult coarse fine : Nat) {e : Nat} (he : e = w.bandEntry n fam mult) :
    (w.bandPut n fam mult coarse fine).get (R.SYN_TS_BAND n e) F.SYN_TS_BAND_VALID = 1 ∧
    (w.bandPut n fam mult coarse fine).get (R.SYN_TS_BAND n e) F.SYN_TS_BAND_COARSE = coarse % 2 ^ F.SYN_TS_BAND_COARSE.width ∧
    (w.bandPut n fam mult coarse fine).get (R.SYN_TS_BAND n e) F.SYN_TS_BAND_FINE = fine % 2 ^ F.SYN_TS_BAND_FINE.width := by
  have ht : ∀ (v : State) (f : Bits), (v.bandTouch n e).get (R.SYN_TS_BAND n e) f = v.get (R.SYN_TS_BAND n e) f := fun v f => by
    rw [State.bandTouch, State.get_set_ne _ _ _ _ (SYN_TS_STAT_ne n e).2.2.2.2.1.symm, State.get_setSyn]
  unfold State.bandEntry at he
  rw [State.bandPut, ← he]
  refine ⟨?_, ?_, ?_⟩
  · rw [ht, State.get_set_apart _ _ _ _ _ (by decide) (by decide), State.get_set_apart _ _ _ _ _ (by decide) (by decide),
      State.get_set_apart _ _ _ _ _ (by decide) (by decide), State.get_set_apart _ _ _ _ _ (by decide) (by decide),
      State.get_set_apart _ _ _ _ _ (by decide) (by decide)]
    exact State.get_set_fits _ _ _ (by decide) (by decide)
  · rw [ht, State.get_set_apart _ _ _ _ _ (by decide) (by decide), State.get_set_apart _ _ _ _ _ (by decide) (by decide)]
    exact State.get_set_self _ _ _ _ (by decide)
  · rw [ht, State.get_set_apart _ _ _ _ _ (by decide) (by decide)]
    exact State.get_set_self _ _ _ _ (by decide)

theorem exec_bandStore (h : s.synState n = 3) : ∃ w fam mult, exec (.bandStore n coarse fine) s = .next (State.bandPut w n fam mult coarse fine) :=
  ⟨_, _, _, congrArg Host.Outcome.next (if_pos h)⟩

end lock

/-- Settles O40: each write, event and shared operation of a synthesizer by the lemma that states it. -/
theorem synthesizerLock : Obligations.SynthesizerLock := by
  intro s n t
  refine ⟨fun v w hu hw hr => ?_, fun v w hu hw hr => ?_, fun w e h => State.synSeek_hop h, fun w h => State.synSeek_search h,
    fun coarse fine clamp w hw => synLock_spec ?_, fun w c f => State.synLocked_spec n.2 w c f, fun w fam => w.synRetune_state n fam, fun h => ?_,
    fun errs h hf => ?_, fun errs h => ?_, fun errs cyc per hc hp => s.lockFails_spec n errs cyc per hc hp,
    fun h hg => ⟨_, exec_synRelockStart h hg, State.synSeek_state ..⟩, fun h => ?_, fun h hg => ⟨_, exec_synRefReturn h hg, State.synSeek_state ..⟩,
    fun coarse fine h => ?_⟩
  · rw [← State.synCtl] at hw
    rw [exec_synCtlWrite hu]
    refine ⟨fun hs hc => ?_, fun he ha hs h0 => ?_, fun hs he h0 => ?_, fun ha hs => ?_, fun he ha hs => ?_⟩
    · exact congrArg _ (State.synWrite_held hw hr (by rcases hc with hc | hc <;> simp [State.synHeld, hs, hc]))
    · exact ⟨_, congrArg _ (State.synWrite_start hw hr (by simp [State.synHeld, hs, ha]) he h0), State.synStart_state ..⟩
    · exact congrArg _ (State.synWrite_held hw hr (by simp [State.synHeld, hs, he, h0]))
    · exact congrArg _ (State.synWrite_held hw hr (by simp [State.synHeld, hs, ha]))
    · exact ⟨_, rfl, State.synWrite_off_spec hw hr (by simp [State.synHeld, hs, ha]) he⟩
  · rw [← State.synCtl] at hw
    rw [exec_synCtlWrite hu, State.synWrite_reset hw hr]
  · rw [hw, State.synClamped]
    simp only [Bool.or_eq_true]
  · exact congrArg Host.Outcome.next (if_pos h)
  · exact ⟨_, exec_synLockLoss.trans (congrArg _ (if_pos ⟨h, hf⟩)), rfl, State.synGate_raise _ n 1 rfl (by decide)⟩
  · rw [exec_synLockLoss, if_neg]
    rintro ⟨h1, h2⟩
    rcases h with h | h
    · exact h h1
    · rw [h] at h2
      cases h2
  · exact ⟨_, exec_synRefLoss h, rfl, State.synGate_raise _ n 2 rfl (by decide)⟩
  · obtain ⟨w, fam, mult, he⟩ := exec_bandStore (n := n) (coarse := coarse) (fine := fine) h
    exact ⟨_, _, he, w.bandPut_fields n fam mult coarse fine rfl⟩

end Sys2Proof.Machine

/-! Timing synthesizers: phase and ramps (O41). -/
namespace Sys2Proof.Machine

section phase
variable {s w : State} {n : Fin 16} {t : Nat}

/-! ### Steps -/

/-- A step that is passed moves the phase by it, by whole cycles and a lengthening of less than one. -/
theorem stepCycles_spec (d : Int) {c : Nat} (hc : 0 < c) : (stepCycles d c).1 * (c : Int) - ((stepCycles d c).2 : Int) = d ∧ (stepCycles d c).2 < c := by
  have h0 : (0 : Int) < c := by exact_mod_cast hc
  have h1 := Int.emod_nonneg (-d) h0.ne'
  have h2 := Int.emod_lt_of_pos (-d) h0
  have h3 := Int.mul_ediv_add_emod (-d) c
  have h4 : ((stepCycles d c).2 : Int) = -d % c := Int.toNat_of_nonneg h1
  have h5 : (stepCycles d c).1 * (c : Int) = -((c : Int) * (-d / c)) := by
    rw [stepCycles]
    ring
  exact ⟨by rw [h4, h5]; linarith, by omega⟩

theorem synStepPass_spec {e : Nat} {c : Int} (h : (s.syn_ n).stepAt = some e) (ht : e ≤ t) (hc : c = if s.synFam n = 1 then 1001 else 1000) :
    ∃ u x, exec (.synStepPass n t) s = .next u ∧ u.regs = s.regs ∧
      u.syn_ n = x ∧ x = { s.syn_ n with step := 0, stepAt := none, passed := some e, jump := x.jump, stretch := x.stretch } ∧
      x.jump * c - (x.stretch : Int) = (s.syn_ n).step * 2376 ∧ (x.stretch : Int) < c := by
  have e' : exec (.synStepPass n t) s = execSynStepPass n t s := rfl
  have hs : (s.at_ t).syn_ n = s.syn_ n := rfl
  have hf : (s.at_ t).synFam n = s.synFam n := State.get_at ..
  have hct : ((cycleTicks (s.synFam n) : Nat) : Int) = c := by rw [hc, cycleTicks]; split <;> rfl
  have hpos : 0 < cycleTicks (s.synFam n) := by unfold cycleTicks; split <;> decide
  obtain ⟨h1, h2⟩ := stepCycles_spec ((s.syn_ n).step * 2376) hpos
  obtain ⟨m, hm⟩ : ∃ m, m = stepCycles ((s.syn_ n).step * 2376) (cycleTicks (s.synFam n)) := ⟨_, rfl⟩
  have h2 : ((stepCycles ((s.syn_ n).step * 2376) (cycleTicks (s.synFam n))).2 : Int) < cycleTicks (s.synFam n) := by exact_mod_cast h2
  rw [← hm, hct] at h1 h2
  refine ⟨(s.at_ t).setSyn n { s.syn_ n with step := 0, stepAt := none, passed := some e, jump := m.1, stretch := m.2 }, _, ?_, rfl, tabGet_set_self .., rfl, h1, h2⟩
  rw [e', execSynStepPass]
  dsimp only
  rw [hs, h]
  dsimp only
  rw [if_neg (Nat.not_lt.mpr ht), hf, ← hm]

theorem synStepPass_none (h : (s.syn_ n).stepAt = none) : exec (.synStepPass n t) s = .next (s.at_ t) := by
  have e' : exec (.synStepPass n t) s = execSynStepPass n t s := rfl
  have hs : (s.at_ t).syn_ n = s.syn_ n := rfl
  rw [e', execSynStepPass]
  dsimp only
  rw [hs, h]

theorem synStepPass_early {e : Nat} (h : (s.syn_ n).stepAt = some e) (ht : t < e) : exec (.synStepPass n t) s = .next (s.at_ t) := by
  have e' : exec (.synStepPass n t) s = execSynStepPass n t s := rfl
  have hs : (s.at_ t).syn_ n = s.syn_ n := rfl
  rw [e', execSynStepPass]
  dsimp only
  rw [hs, h]
  dsimp only
  rw [if_pos ht]

/-! ### GO and ABORT -/

/-- GO is refused for what a synthesizer is in, or for a target it cannot take. -/
theorem State.goRefused_of {l : Nat} (h : w.synState n ≠ 3 ∨ (w.syn_ n).absorb = true ∨ w.ramping n = true ∨ w.synAudio n ≠ 0 ∨ (w.segment n l).1 ≠ 0 ∨
    ∃ k, k ≤ l ∧ 100000 < (w.segment n k).1.natAbs) : w.goRefused n l = true := by
  have hl : ((List.range (l + 1)).map fun k => (w.segment n k).1).getLast? = some (w.segment n l).1 := by
    rw [List.range_succ, List.map_append, List.map_singleton, List.getLast?_concat]
  rw [State.goRefused]
  dsimp only
  rw [hl]
  rcases h with h | h | h | h | h | ⟨k, hk, h⟩
  · simp [h]
  · simp [h]
  · simp [h]
  · simp [h]
  · simp [h]
  · have ha : ((List.range (l + 1)).map fun k => (w.segment n k).1).any
        (fun b => decide (100000 < b.natAbs) || decide (100 * ((w.get (R.SYN_TS_FMAX n) F.SYN_TS_FMAX_TS_FMAX : Nat) : Int) - 500 < b)) = true :=
      List.any_eq_true.mpr ⟨_, List.mem_map_of_mem (List.mem_range.mpr (Nat.lt_succ_of_le hk)), by rw [decide_eq_true h]; rfl⟩
    simp only [ha, Bool.or_true, Bool.true_or]

theorem exec_rampGo (hu : s.upFor (R.SYN_TS_RAMP n)) (last : Nat) : exec (.rampGo n last t) s = .next (s.rampGo n last t) := by
  have e : exec (.rampGo n last t) s = execRampGo n last t s := rfl
  rw [e, execRampGo, State.byHost_upFor hu]

theorem exec_rampAbort (hu : s.upFor (R.SYN_TS_RAMP n)) : exec (.rampAbort n t) s = .next (s.rampAbort n t) := by
  have e : exec (.rampAbort n t) s = execRampAbort n t s := rfl
  rw [e, execRampAbort, State.byHost_upFor hu]

theorem State.rampGo_eq {last : Nat} (hw : w = (s.at_ t).set (R.SYN_TS_RAMP n) F.SYN_TS_RAMP_LAST (last % 8)) : s.rampGo n last t =
    if w.goRefused n (last % 8) then w.raise (Hist.syn n) F.SYN_TS_HIST_RAMP_ERR
    else w.startSeg n 0 (w.segment n 0).1 (w.segment n 0).2 ((List.range (last % 8)).map fun k => w.segment n (k + 1)) (w.synNow n).1 (w.synNow n).2 := by
  rw [State.rampGo]
  dsimp only
  rw [← hw]

theorem State.rampAbort_none (h : (s.syn_ n).seg = none) : s.rampAbort n t = s.at_ t := by
  have hr : (s.at_ t).ramping n = false := by
    have : (s.at_ t).ramping n = (s.syn_ n).seg.isSome := rfl
    rw [this, h]
    rfl
  rw [State.rampAbort]
  dsimp only
  rw [hr, if_neg Bool.false_ne_true]

theorem State.rampAbort_some (h : (s.syn_ n).seg.isSome = true) : (s.rampAbort n t).regs = s.regs ∧
    (s.rampAbort n t).syn_ n = { s.syn_ n with segAt := t, segOfs := ((s.at_ t).synNow n).2, segRes := ((s.at_ t).synNow n).1, segTgt := 0, todo := [], aborting := true } := by
  have hr : (s.at_ t).ramping n = true := h
  have he : s.rampAbort n t = (s.at_ t).setSyn n { s.syn_ n with segAt := t, segOfs := ((s.at_ t).synNow n).2, segRes := ((s.at_ t).synNow n).1, segTgt := 0, todo := [], aborting := true } := by
    rw [State.rampAbort]
    dsimp only
    rw [hr, if_pos rfl]
    rfl
  rw [he]
  exact ⟨rfl, tabGet_set_self ..⟩

/-- A write of SYN_TS_RAMP with GO and ABORT: ABORT acts first. -/
theorem State.wrSyn_ramp (n : Fin 16) {v : Word} (h30 : v.getLsbD 30 = true) (h31 : v.getLsbD 31 = true) : s.wrSyn (R.SYN_TS_RAMP n) v t =
    ((s.plainWrite (R.SYN_TS_RAMP n) v).rampAbort n t).rampGo n (getF F.SYN_TS_RAMP_LAST v) t := by
  have hn : (R.SYN_TS_RAMP n - R.SYN_TS_CTL 0) / 0x100 = n := by unfold R.SYN_TS_RAMP R.SYN_TS_CTL; omega
  have hk : Fin.ofNat 16 n.val = n := Fin.ext (Nat.mod_eq_of_lt n.2)
  have hr : R.SYN_TS_CTL 0 ≤ R.SYN_TS_RAMP n ∧ R.SYN_TS_RAMP n < R.SYN_TS_CTL 16 := by unfold R.SYN_TS_RAMP R.SYN_TS_CTL; omega
  have h1 : R.SYN_TS_RAMP n ≠ R.SYN_TS_CTL n ∧ R.SYN_TS_RAMP n ≠ R.SYN_TS_FMAX n ∧ R.SYN_TS_RAMP n ≠ R.SYN_TS_ABS n := by
    unfold R.SYN_TS_RAMP R.SYN_TS_CTL R.SYN_TS_FMAX R.SYN_TS_ABS
    omega
  rw [State.wrSyn, if_pos hr]
  dsimp only
  rw [hn, hk, if_neg h1.1, if_neg h1.2.1, if_neg h1.2.2, if_pos rfl, h30, h31, if_pos rfl, if_pos rfl]

/-! ### Ends -/

theorem rampSegmentEnd_next {k : Nat} {r b : Int} {sl : Nat} {l : List (Int × Nat)} (hk : (s.syn_ n).seg = some k)
    (hl : segLen (s.syn_ n).segOfs (s.syn_ n).segTgt (s.syn_ n).segSlope ≤ (t - (s.syn_ n).segAt) / 2376)
    (hr : r = (s.syn_ n).segRes - segPhase (s.syn_ n).segOfs (s.syn_ n).segTgt (s.syn_ n).segSlope) (ht : (s.syn_ n).todo = (b, sl) :: l) :
    exec (.rampSegmentEnd n t) s = .next ((s.at_ t).startSeg n (k + 1) b sl l r (s.syn_ n).segTgt) := by
  have e : exec (.rampSegmentEnd n t) s = execRampSegmentEnd n t s := rfl
  have hs : (s.at_ t).syn_ n = s.syn_ n := rfl
  have hn : (s.at_ t).now = t := rfl
  rw [e, execRampSegmentEnd]
  dsimp only
  rw [hs, hk]
  dsimp only
  rw [hn, if_neg (Nat.not_lt.mpr hl), ← hr, ht]

theorem rampSegmentEnd_last {k : Nat} {r : Int} (hk : (s.syn_ n).seg = some k)
    (hl : segLen (s.syn_ n).segOfs (s.syn_ n).segTgt (s.syn_ n).segSlope ≤ (t - (s.syn_ n).segAt) / 2376)
    (hr : r = (s.syn_ n).segRes - segPhase (s.syn_ n).segOfs (s.syn_ n).segTgt (s.syn_ n).segSlope) (ht : (s.syn_ n).todo = []) :
    ∃ u, exec (.rampSegmentEnd n t) s = .next u ∧ (u.syn_ n).seg = none ∧
      u.rd (R.SYN_TS_RESIDUAL n) = BitVec.ofInt 32 r ∧ u.get (R.SYN_TS_HIST n) F.SYN_TS_HIST_RAMP_DONE = 1 := by
  have e : exec (.rampSegmentEnd n t) s = execRampSegmentEnd n t s := rfl
  have hs : (s.at_ t).syn_ n = s.syn_ n := rfl
  have hn : (s.at_ t).now = t := rfl
  have hne : R.SYN_TS_RESIDUAL n ≠ (Hist.syn n).reg := by
    change R.SYN_TS_RESIDUAL n ≠ R.SYN_TS_HIST n
    unfold R.SYN_TS_RESIDUAL R.SYN_TS_HIST
    omega
  refine ⟨(((s.at_ t).wrInt (R.SYN_TS_RESIDUAL n) r).setSyn n { s.syn_ n with seg := none, aborting := false, absAt := t, absOfs := 0 }).raise (Hist.syn n)
    F.SYN_TS_HIST_RAMP_DONE, ?_, ?_, ?_, State.get_raise _ (Hist.syn n) _ rfl (by decide)⟩
  · rw [e, execRampSegmentEnd]
    dsimp only
    rw [hs, hk]
    dsimp only
    rw [hn, if_neg (Nat.not_lt.mpr hl), ← hr, ht]
  · rw [State.syn__congr (State.raise_syn _ _ _)]
    exact congrArg Syn.seg (tabGet_set_self ..)
  · rw [State.rd_raise_ne _ _ _ hne, State.rd_setSyn, State.wrInt, State.rd_wr_self]

theorem absorbDone_spec {r : Int} (hr : r = s.synBase n) (ha : (s.at_ t).absorbing n = true) (hm : s.absMax n r ≠ 0)
    (hl : absorbLen r (s.syn_ n).absOfs (s.absMax n r) (s.absSlope n) ≤ (t - (s.syn_ n).absAt) / 2376) :
    ∃ u, exec (.absorbDone n t) s = .next u ∧ u.synBase n = 0 ∧ u.get (R.SYN_TS_HIST n) F.SYN_TS_HIST_RAMP_DONE = 1 ∧
      u.syn_ n = { s.syn_ n with absOfs := 0, absAt := t } ∧ ∀ a, a ∉ [R.SYN_TS_RESIDUAL n, R.SYN_TS_HIST n] → u.rd a = s.rd a := by
  have e : exec (.absorbDone n t) s = execAbsorbDone n t s := rfl
  have hs : (s.at_ t).syn_ n = s.syn_ n := rfl
  have hn : (s.at_ t).now = t := rfl
  have hrs : s.synRegsSame (s.at_ t) n := State.synRegsSame_of_regs rfl n
  have hne : R.SYN_TS_RESIDUAL n ≠ (Hist.syn n).reg := by
    change R.SYN_TS_RESIDUAL n ≠ R.SYN_TS_HIST n
    unfold R.SYN_TS_RESIDUAL R.SYN_TS_HIST
    omega
  refine ⟨(((s.at_ t).wrInt (R.SYN_TS_RESIDUAL n) 0).setSyn n { s.syn_ n with absOfs := 0, absAt := t }).raise (Hist.syn n) F.SYN_TS_HIST_RAMP_DONE,
    ?_, ?_, State.get_raise _ (Hist.syn n) _ rfl (by decide), ?_, fun a h => ?_⟩
  · rw [e, execAbsorbDone]
    dsimp only
    rw [State.synBase_congr hrs, State.absMax_congr hrs, State.absSlope_congr hrs, ← hr, hs, hn, if_pos]
    rw [ha, decide_eq_true hl, Bool.and_true, Bool.true_and]
    exact bne_iff_ne.mpr hm
  · rw [State.synBase, State.rdInt, State.rd_raise_ne _ _ _ hne, State.rd_setSyn, State.wrInt, State.rd_wr_self]
    rfl
  · rw [State.syn__congr (State.raise_syn _ _ _)]
    exact tabGet_set_self ..
  · obtain ⟨h1, h2⟩ : a ≠ R.SYN_TS_RESIDUAL n ∧ a ≠ R.SYN_TS_HIST n := by simpa using h
    rw [State.rd_raise_ne _ (Hist.syn n) _ h2, State.rd_setSyn, State.wrInt, State.rd_wr_ne _ _ h1, State.rd_at]

end phase

/-- Settles O41: steps, absorption, GO, ABORT and the ends of segments, each by the lemma that states it. -/
theorem synthesizerPhase : Obligations.SynthesizerPhase := by
  intro s n t
  refine ⟨fun h => synStepPass_none h, fun e h ht => synStepPass_early h ht, fun e c h ht hc => synStepPass_spec h ht hc, fun v h1 h2 => State.wrSyn_ramp n h1 h2,
    fun w l h => State.goRefused_of h, fun r hr ha hm hl => absorbDone_spec hr ha hm hl, fun last w hu hw => ⟨fun h => ?_, fun h => ?_, fun h => ?_⟩,
    fun hu h => (exec_rampAbort hu).trans (congrArg _ (State.rampAbort_none h)), fun hu h => ⟨_, exec_rampAbort hu, State.rampAbort_some h⟩,
    fun k r hk hl hr => ⟨fun b sl l ht => rampSegmentEnd_next hk hl hr ht, fun ht => rampSegmentEnd_last hk hl hr ht⟩⟩
  · rw [exec_rampGo hu, State.rampGo_eq hw, if_pos h]
  · rw [exec_rampGo hu, State.rampGo_eq hw, if_neg (by rw [h]; decide)]
  · refine State.goRefused_of (.inr (.inl ?_))
    rw [hw, State.syn__congr (State.set_syn _ _ _ _)]
    exact h

end Sys2Proof.Machine

/-! Host rings (O42). -/
namespace Sys2Proof.Machine

/-! ### What a change outside the host part leaves of it -/

/-- The descriptors, completions and link of the host side, which a change of other parts leaves. -/
structure State.hostSame (s t : State) : Prop where
  cpls : t.host.cpls = s.host.cpls
  ops : t.host.ops = s.host.ops
  msix : t.host.msix = s.host.msix
  pci : t.host.pci = s.host.pci
  fwdNow : t.host.fwdNow = s.host.fwdNow

theorem Kept.hostSame {P : List Part} {s t : State} (h : Kept P s t) (hP : .host ∉ P) : s.hostSame t := by
  have hs : { t.host with mem := s.host.mem, pba := s.host.pba, sent := s.host.sent } = s.host := h.2.2 .host hP
  exact ⟨by have := congrArg HostSt.cpls hs; exact this, by have := congrArg HostSt.ops hs; exact this, by have := congrArg HostSt.msix hs; exact this,
    by have := congrArg HostSt.pci hs; exact this, by have := congrArg HostSt.fwdNow hs; exact this⟩

/-! ### A reset master -/

theorem State.abortBurst_rd (s : State) (m : Nat) (o : MtxOut) {a : Nat} (ha : 0x21000 ≤ a) : (s.abortBurst m o).rd a = s.rd a := by
  have h1 : a ≠ R.MTX_ABORT_LOG := by unfold R.MTX_ABORT_LOG; omega
  have h2 : a ≠ R.MTX_ABORT_CNT := by unfold R.MTX_ABORT_CNT; omega
  have h3 : a ≠ Hist.mtx.reg := by
    change a ≠ R.MTX_HIST
    unfold R.MTX_HIST
    omega
  have hl (w : State) (x : MtxSt) : ({ w with mtx := x } : State).rd a = w.rd a := rfl
  rw [State.abortBurst]
  split
  · dsimp only
    rw [State.rd_raise_ne _ _ _ h3, State.rd_inc_ne _ h2, State.logMtx]
    have hw (w : State) (x y z : Nat) : (((w.set R.MTX_ABORT_LOG F.MTX_ABORT_LOG_BEATS x).set R.MTX_ABORT_LOG F.MTX_ABORT_LOG_TARGET y).set R.MTX_ABORT_LOG
        F.MTX_ABORT_LOG_MASTER z).rd a = w.rd a := by
      rw [State.rd_set_ne _ _ _ h1, State.rd_set_ne _ _ _ h1, State.rd_set_ne _ _ _ h1]
    split
    · split
      · rfl
      · rw [hw, hl]
    · rw [hw, hl]
  · rfl

theorem State.resetMaster_rd (s : State) (m : Nat) (hm : m < 16) {a : Nat} (ha : 0x21000 ≤ a) : (s.resetMaster m).rd a = s.rd a := by
  have h1 : a ≠ R.MTX_MST_STAT m := by unfold R.MTX_MST_STAT; omega
  have hl (w : State) (x : MtxSt) : ({ w with mtx := x } : State).rd a = w.rd a := rfl
  have hf : ∀ (l : List MtxOut) (w : State), (l.foldl (fun (s : State) o => s.abortBurst m o) w).rd a = w.rd a := by
    intro l
    induction l with
    | nil => exact fun _ => rfl
    | cons o l ih => exact fun w => (ih _).trans (w.abortBurst_rd m o ha)
  rw [State.resetMaster]
  dsimp only
  rw [State.rd_set_ne _ _ _ h1, State.setMtxOut, hl, hl, hf]

theorem State.resetMaster_hung (s : State) (m : Nat) : (s.resetMaster m).hung m = false := by
  rw [State.resetMaster, State.hung]
  exact State.flag_of_get0 (State.get_set_fits _ _ _ (by decide) (by decide))

theorem State.resetMaster_hostSame (s : State) (m : Nat) : s.hostSame (s.resetMaster m) :=
  (State.resetMaster_kept (.refl [.regs, .vec, .mtx] s) m (Sub.self _)).hostSame (by decide)

/-! ### What takes the link away -/

section drop
variable {s : State}

/-- Every ring DISABLED, its descriptors discarded. -/
def State.dropRings (s : State) (l : List Nat) : State :=
  l.foldl (fun (s : State) n => (s.setRingSt n 0).setRst n { s.rst_ n with fetched := [], domQ := [] }) s

/-- The host side once the link has gone. -/
def State.dropSide (w : State) : State :=
  let ops := w.host.ops.map fun o => match o.dest with
    | .ring _ => { o with dest := .discard }
    | _ => o
  let kept := (w.host.cpls.filter fun c => match c.await with
    | some id => w.mate.await.contains id
    | none => false).map fun c => { c with ring := noRing }
  { w with host := { w.host with ops := ops, cpls := kept, msix := [], pba := [], dom := [] } }

theorem RNG_STAT_ne {n m : Nat} (h : n ≠ m) : R.RNG_STAT n ≠ R.RNG_STAT m := by unfold R.RNG_STAT; omega

theorem State.dropRings_ringSt (l : List Nat) : ∀ (s : State) (n : Nat), n ∈ l ∨ s.ringSt n = 0 → (s.dropRings l).ringSt n = 0 := by
  induction l with
  | nil => exact fun s n h => h.resolve_left (List.not_mem_nil)
  | cons m l ih =>
    refine fun s n h => ih _ n (or_iff_not_imp_left.mpr fun hn => ?_)
    rw [State.ringSt, State.get_setRst, State.setRingSt]
    by_cases hm : n = m
    · rw [hm]
      exact State.get_set_fits _ _ _ (by decide) (by decide)
    · rw [State.get_set_ne _ _ _ _ (RNG_STAT_ne hm)]
      exact h.resolve_left fun hx => (List.mem_cons.mp hx).elim hm hn

theorem State.dropSide_spec (w : State) : w.dropSide.host.msix = [] ∧ (∀ o ∈ w.dropSide.host.ops, ∀ k, o.dest ≠ .ring k) ∧
    (∀ c ∈ w.dropSide.host.cpls, c.ring = noRing ∧ ∃ k, c.await = some k ∧ k ∈ w.mate.await) := by
  refine ⟨rfl, fun o ho k hk => ?_, fun c hc => ?_⟩
  · obtain ⟨p, -, rfl⟩ := List.mem_map.mp ho
    cases h : p.dest with
    | ring j => rw [h] at hk; cases hk
    | _ => rw [h] at hk; rw [h] at hk; cases hk
  · obtain ⟨p, hp, rfl⟩ := List.mem_map.mp hc
    refine ⟨rfl, ?_⟩
    have := (List.mem_filter.mp hp).2
    cases h : p.await with
    | none => rw [h] at this; cases this
    | some k =>
      rw [h] at this
      exact ⟨k, rfl, by simpa using this⟩

theorem State.foldl_dmaEnd (keys : List Nat) (w : State) : Kept [.fst] w (keys.foldl State.dmaEnd w) :=
  Kept.foldl (.refl _ w) fun _ _ hk => State.dmaEnd_kept hk _ (Sub.self _)

theorem State.leapRateCheck_onlyRegs (s : State) : s.onlyRegs s.leapRateCheck [R.XPT_STAT] := by
  rw [State.leapRateCheck]
  split
  · exact .refl s _
  · exact State.set_onlyRegs _ _ _ (.head _)

/-- The registers that a lost link touches once the rings are DISABLED. -/
def dropRegs : List Nat := [R.XPT_STAT, R.RNG_GLB_DISCARD_CNT, R.RNG_GLB_HIST]

theorem State.dropHost_eq (s : State) : ∃ (keys : List Nat) (n : Nat), ∀ w, w = (keys.foldl State.dmaEnd (s.raiseOver.dropRings (List.range 64))).dropSide →
    s.dropHost = if n = 0 then w.leapRateCheck
      else (w.leapRateCheck.count R.RNG_GLB_DISCARD_CNT n).raise Hist.rngGlb F.RNG_GLB_HIST_FLR_DISCARD :=
  ⟨(s.raiseOver.dropRings (List.range 64)).host.cpls.map fun c => c.ring * 65536 + c.tag,
    ((s.raiseOver.dropRings (List.range 64)).host.cpls.filter fun c => c.held != 0 && c.ring != noRing).length, fun _ hw => by subst hw; rfl⟩

theorem State.dropHost_onlyRegs (s : State) : ∃ keys : List Nat,
    (keys.foldl State.dmaEnd (s.raiseOver.dropRings (List.range 64))).dropSide.onlyRegs s.dropHost dropRegs := by
  obtain ⟨keys, n, h⟩ := s.dropHost_eq
  refine ⟨keys, ?_⟩
  obtain ⟨w, hw⟩ : ∃ w, w = (keys.foldl State.dmaEnd (s.raiseOver.dropRings (List.range 64))).dropSide := ⟨_, rfl⟩
  rw [h w hw, ← hw]
  have hl : w.onlyRegs w.leapRateCheck dropRegs := w.leapRateCheck_onlyRegs.mono fun a ha => List.mem_singleton.mp ha ▸ .head _
  refine hl.trans (State.onlyRegs.ite (fun _ => .refl _ _) fun _ => ?_)
  exact (State.wr_onlyRegs w.leapRateCheck _ (.tail _ (.head _))).trans (State.raise_onlyRegs _ Hist.rngGlb _ (.tail _ (.tail _ (.head _))))

theorem RNG_STAT_notMem {n : Nat} (h : n < 64) : R.RNG_STAT n ∉ dropRegs := by
  unfold dropRegs R.RNG_STAT R.XPT_STAT R.RNG_GLB_DISCARD_CNT R.RNG_GLB_HIST
  simp only [List.mem_cons, List.not_mem_nil, or_false]
  omega

/-- An event that takes the link away: every ring DISABLED, and the host side as `dropSide` leaves it. -/
theorem State.dropHost_spec (s : State) : (∀ n < 64, s.dropHost.ringSt n = 0) ∧ s.dropHost.host.msix = [] ∧
    (∀ c ∈ s.dropHost.host.cpls, c.ring = noRing ∧ ∃ k, c.await = some k ∧ k ∈ s.mate.await) ∧ (∀ o ∈ s.dropHost.host.ops, ∀ k, o.dest ≠ .ring k) := by
  obtain ⟨keys, h⟩ := s.dropHost_onlyRegs
  obtain ⟨w, hw⟩ : ∃ w, w = keys.foldl State.dmaEnd (s.raiseOver.dropRings (List.range 64)) := ⟨_, rfl⟩
  rw [← hw] at h
  have hk : Kept [.fst] (s.raiseOver.dropRings (List.range 64)) w := hw ▸ State.foldl_dmaEnd keys _
  have hm : w.mate = s.mate := by
    have h1 : Kept [.regs, .host, .hsf] s (s.raiseOver.dropRings (List.range 64)) :=
      Kept.foldl (State.raiseOver_kept (.refl _ s) (Sub.of (Sub.self _) rfl)) fun _ _ hv =>
        State.setRst_kept (State.setRingSt_kept hv _ _ (Sub.of (Sub.self _) rfl)) _ _ (Sub.of (Sub.self _) rfl)
    exact (hk.2.2 .mate (by decide)).trans (h1.2.2 .mate (by decide))
  have hr : ∀ n < 64, w.dropSide.ringSt n = 0 := fun n hn => by
    have h0 : w.dropSide.ringSt n = (s.raiseOver.dropRings (List.range 64)).ringSt n := State.get_congr (hk.2.2 .regs (by decide)) ..
    rw [h0]
    exact State.dropRings_ringSt _ _ n (.inl (List.mem_range.mpr hn))
  obtain ⟨h1, h2, h3⟩ := w.dropSide_spec
  have hh := h.host_eq
  rw [hm] at h3
  refine ⟨fun n hn => ?_, by rw [hh]; exact h1, by rw [hh]; exact h3, by rw [hh]; exact h2⟩
  rw [State.ringSt, h.get (RNG_STAT_notMem hn)]
  exact hr n hn

end drop

/-! ### Link events -/

section link
variable {s : State}

/-- The rings and the host side after an event that has taken the link away. -/
structure State.linkGone (s t : State) : Prop where
  rings : ∀ n < 64, t.ringSt n = 0
  msix : t.host.msix = []
  cpls : ∀ c ∈ t.host.cpls, c.ring = noRing ∧ ∃ k, c.await = some k ∧ k ∈ s.mate.await
  ops : ∀ o ∈ t.host.ops, ∀ k, o.dest ≠ .ring k

theorem State.dropHost_linkGone (s : State) : s.linkGone s.dropHost :=
  have ⟨h1, h2, h3, h4⟩ := s.dropHost_spec
  ⟨h1, h2, h3, h4⟩

theorem State.linkGone.next {s t u : State} (h : s.linkGone t) (k : t.hostSame u) (hr : ∀ n < 64, u.rd (R.RNG_STAT n) = t.rd (R.RNG_STAT n)) : s.linkGone u where
  rings n hn := (congrArg (getF F.RNG_STAT_STATE) (hr n hn)).trans (h.rings n hn)
  msix := k.msix.trans h.msix
  cpls := k.cpls ▸ h.cpls
  ops := k.ops ▸ h.ops

theorem RNG_STAT_ge (n : Nat) : 0x21000 ≤ R.RNG_STAT n := by unfold R.RNG_STAT; omega

theorem State.linkGone.resetMaster {s t : State} (h : s.linkGone t) {m : Nat} (hm : m < 16) : s.linkGone (t.resetMaster m) :=
  h.next (t.resetMaster_hostSame m) fun n _ => t.resetMaster_rd m hm (RNG_STAT_ge n)

/-- The function as a link event leaves it. -/
def State.setD3 (s : State) (b : Bool) : State := { s with host := { s.host with pci := { s.host.pci with d3 := b } } }

theorem State.linkGone.setD3 {s t : State} (h : s.linkGone t) (b : Bool) : s.linkGone (t.setD3 b) := ⟨h.rings, h.msix, h.cpls, h.ops⟩

theorem exec_hostLinkReset (e : LinkEvent) : exec (.hostLinkReset e) s = .next (
    if e ≠ .d3hot ∧ (s.dropHost.setD3 (e == .d3hot)).hung 6 then (s.dropHost.setD3 (e == .d3hot)).resetMaster 6 else s.dropHost.setD3 (e == .d3hot)) := rfl

theorem hostLinkReset_spec (s : State) (e : LinkEvent) : ∃ t, exec (.hostLinkReset e) s = .next t ∧ s.linkGone t ∧ t.host.pci.d3 = (e == .d3hot) ∧
    (e ≠ .d3hot → t.hung 6 = false) := by
  have hd := s.dropHost_linkGone
  obtain ⟨d, hdd⟩ : ∃ d, d = s.dropHost := ⟨_, rfl⟩
  rw [← hdd] at hd
  have hv := hd.setD3 (e == .d3hot)
  refine ⟨_, exec_hostLinkReset e, ?_⟩
  rw [← hdd]
  by_cases hc : e ≠ .d3hot ∧ (d.setD3 (e == .d3hot)).hung 6
  · rw [if_pos hc]
    refine ⟨hv.resetMaster (by decide), ?_, fun _ => State.resetMaster_hung _ 6⟩
    rw [((d.setD3 (e == .d3hot)).resetMaster_hostSame 6).pci]
    rfl
  · rw [if_neg hc]
    exact ⟨hv, rfl, fun he => Bool.eq_false_iff.mpr fun h => hc ⟨he, h⟩⟩

/-- The PCIe island's port in reset, before its crossing is. -/
def State.portHeld (x : State) : State :=
  { x.portReset 13 true with host := { (x.portReset 13 true).host with perst := true, linkUp := false, pci := {} } }

theorem State.linkGone.portHeld {s t : State} (h : s.linkGone t) : s.linkGone t.portHeld := ⟨h.rings, h.msix, h.cpls, h.ops⟩

theorem State.portHeld_spec (x : State) : x.portHeld.host.perst = true ∧ x.portHeld.host.linkUp = false ∧ x.portHeld.host.pci.mse = false ∧
    13 ∈ x.portHeld.mtx.ports ∧ x.portHeld.rst = x.rst :=
  ⟨rfl, rfl, rfl, List.mem_append_right _ (.head _), rfl⟩

/-- The PCIe island's masters in reset. -/
def State.mastersHeld (s : State) : State := (s.dropHost.resetMaster 5).resetMaster 6

theorem State.mastersHeld_linkGone (s : State) : s.linkGone s.mastersHeld :=
  (s.dropHost_linkGone.resetMaster (m := 5) (by decide)).resetMaster (m := 6) (by decide)

theorem State.mastersHeld_rst (s : State) : s.mastersHeld.rst = s.rst := by
  have hd := (State.dropHost_kept (.refl [.regs, .fst, .host, .vec, .hsf] s) (Sub.self _)).2.2 .rst (by decide)
  have h5 (w : State) (m : Nat) : (w.resetMaster m).rst = w.rst := (State.resetMaster_kept (.refl [.regs, .vec, .mtx] w) m (Sub.self _)).2.2 .rst (by decide)
  rw [State.mastersHeld, h5, h5, hd]

theorem exec_perstAssert : exec .perstAssert s = .next (if s.mastersHeld.portHeld.rst.cold then s.mastersHeld.portHeld
    else s.mastersHeld.portHeld.set (R.HSF_XSTAT 176) F.HSF_XSTAT_STATE 1) := by
  have e : exec .perstAssert s = execPerstAssert s := rfl
  unfold State.mastersHeld State.portHeld
  rw [e, execPerstAssert]

theorem State.linkGone.set {s t : State} (h : s.linkGone t) (f : Bits) (v : Nat) : s.linkGone (t.set (R.HSF_XSTAT 176) f v) := by
  have hh : (t.set (R.HSF_XSTAT 176) f v).host = t.host := State.set_host ..
  exact h.next ⟨by rw [hh], by rw [hh], by rw [hh], by rw [hh], by rw [hh]⟩ fun n _ => State.rd_set_ne _ _ _ (by unfold R.RNG_STAT R.HSF_XSTAT; omega)

theorem perstAssert_spec (s : State) : ∃ t, exec .perstAssert s = .next t ∧ s.linkGone t ∧ t.host.perst = true ∧ t.host.linkUp = false ∧ t.host.pci.mse = false ∧
    13 ∈ t.mtx.ports ∧ (s.rst.cold = false → t.get (R.HSF_XSTAT 176) F.HSF_XSTAT_STATE = 1) := by
  obtain ⟨v, hv⟩ : ∃ v, v = s.mastersHeld := ⟨_, rfl⟩
  have hr : v.rst = s.rst := hv ▸ s.mastersHeld_rst
  have hg : s.linkGone v := hv ▸ s.mastersHeld_linkGone
  have hl := hg.portHeld
  obtain ⟨h1, h2, h3, hp, h4⟩ := v.portHeld_spec
  refine ⟨_, exec_perstAssert, ?_⟩
  rw [← hv, h4, hr]
  by_cases hc : s.rst.cold = true
  · rw [if_pos hc]
    exact ⟨hl, h1, h2, h3, hp, fun h => by rw [h] at hc; cases hc⟩
  · rw [if_neg hc, State.set_host, State.set_mtx]
    exact ⟨hl.set _ _, h1, h2, h3, hp, fun _ => State.get_set_fits _ _ _ (by decide) (by decide)⟩

end link

/-! ### Ring control -/

section control
variable {s : State} {n : Fin 64}

theorem exec_ringEnable (h : s.hostUp = true) : exec (.ringEnable n) s = .next (s.ringEnable n) := congrArg Host.Outcome.next (if_pos h)

theorem State.ringEnable_open (h1 : s.persona ≠ 1) (h4 : s.lifecycle ≠ 4) : s.ringEnable n =
    if s.ringSt n ≠ 0 then s.set (R.RNG_CTL n) F.RNG_CTL_EN 1
    else if (4 ≤ s.get (R.RNG_SIZE n) F.RNG_SIZE_SQ_LOG2 ∧ s.get (R.RNG_SIZE n) F.RNG_SIZE_SQ_LOG2 ≤ 16) ∧
        4 ≤ s.get (R.RNG_SIZE n) F.RNG_SIZE_CQ_LOG2 ∧ s.get (R.RNG_SIZE n) F.RNG_SIZE_CQ_LOG2 ≤ 16 then (s.set (R.RNG_CTL n) F.RNG_CTL_EN 1).startRing n
    else s.raise (Hist.rng n) F.RNG_HIST_CFG_ERR := by
  rw [State.ringEnable]
  dsimp only
  rw [if_neg (fun h => h.elim h1 h4), State.cfgErr]
  refine if_congr Iff.rfl rfl (if_congr ?_ rfl rfl)
  rw [Bool.and_eq_true, decide_eq_true_iff, decide_eq_true_iff]

theorem State.ringRec_setRst (s : State) (n : Nat) (x : RingSt) : (s.setRst n x).rst_ n = x := tabGet_set_self ..

/-- Ring `n` as R262 starts it, when host memory is written already. -/
def State.ringStarted (s : State) (n : Nat) : State :=
  ((((s.wr (R.RNG_STAT n) 0).setRingSt n 1).wr (R.RNG_CQ_POS n) 0).set (R.RNG_CQ_POS n) F.RNG_CQ_POS_PHASE 1).setRst n {}

theorem State.startRing_eq (s : State) (n : Nat) (h : s.host.dmaOff = false) : s.startRing n = s.ringStarted n := by
  have hd : (s.ringStarted n).host.dmaOff = s.host.dmaOff := by
    have (w : State) (x : RingSt) : (w.setRst n x).host.dmaOff = w.host.dmaOff := rfl
    rw [State.ringStarted, this, State.set_host, State.wr_host, State.setRingSt, State.set_host, State.wr_host]
  unfold State.ringStarted at hd ⊢
  rw [State.startRing]
  dsimp only
  rw [hd, h, if_neg Bool.false_ne_true]

theorem RNG_ne (n : Nat) : R.RNG_STAT n ≠ R.RNG_CQ_POS n ∧ R.RNG_CTL n ≠ R.RNG_CQ_POS n ∧ R.RNG_CTL n ≠ R.RNG_STAT n ∧ R.RNG_STAT n ≠ R.RNG_HIST n := by
  unfold R.RNG_STAT R.RNG_CQ_POS R.RNG_CTL R.RNG_HIST
  omega

theorem State.ringStarted_rd (s : State) (n : Nat) {a : Nat} (h1 : a ≠ R.RNG_STAT n) (h2 : a ≠ R.RNG_CQ_POS n) : (s.ringStarted n).rd a = s.rd a := by
  rw [State.ringStarted, State.rd_setRst, State.rd_set_ne _ _ _ h2, State.rd_wr_ne _ _ h2, State.setRingSt, State.rd_set_ne _ _ _ h1, State.rd_wr_ne _ _ h1]

theorem State.ringStarted_stat (s : State) (n : Nat) (f : Bits) :
    (s.ringStarted n).get (R.RNG_STAT n) f = ((s.wr (R.RNG_STAT n) 0).set (R.RNG_STAT n) F.RNG_STAT_STATE 1).get (R.RNG_STAT n) f := by
  rw [State.ringStarted, State.get_setRst, State.get_set_ne _ _ _ _ (RNG_ne n).1, State.get_wr_ne _ _ _ (RNG_ne n).1, State.setRingSt]

/-- A ring that has started: RUNNING from the first slot on. -/
theorem State.ringStarted_spec (s : State) (n : Nat) : (s.ringStarted n).ringSt n = 1 ∧ (s.ringStarted n).get (R.RNG_STAT n) F.RNG_STAT_SQ_HEAD = 0 ∧
    (s.ringStarted n).get (R.RNG_CQ_POS n) F.RNG_CQ_POS_PHASE = 1 ∧ (s.ringStarted n).rst_ n = {} := by
  refine ⟨?_, ?_, ?_, State.ringRec_setRst ..⟩
  · rw [State.ringSt, s.ringStarted_stat]
    exact State.get_set_fits _ _ _ (by decide) (by decide)
  · rw [s.ringStarted_stat, State.get_set_apart _ _ _ _ _ (by decide) (by decide), State.get_wr_self]
    rfl
  · rw [State.ringStarted, State.get_setRst]
    exact State.get_set_fits _ _ _ (by decide) (by decide)

theorem ringEnable_starts (hu : s.hostUp = true) (h1 : s.persona ≠ 1) (h4 : s.lifecycle ≠ 4) (h0 : s.ringSt n = 0)
    (hz : (4 ≤ s.get (R.RNG_SIZE n) F.RNG_SIZE_SQ_LOG2 ∧ s.get (R.RNG_SIZE n) F.RNG_SIZE_SQ_LOG2 ≤ 16) ∧
        4 ≤ s.get (R.RNG_SIZE n) F.RNG_SIZE_CQ_LOG2 ∧ s.get (R.RNG_SIZE n) F.RNG_SIZE_CQ_LOG2 ≤ 16) :
    exec (.ringEnable n) s = .next ((s.set (R.RNG_CTL n) F.RNG_CTL_EN 1).startRing n) := by
  rw [exec_ringEnable hu, State.ringEnable_open h1 h4, if_neg (fun h => h h0), if_pos hz]

theorem ringEnable_started (hu : s.hostUp = true) (h1 : s.persona ≠ 1) (h4 : s.lifecycle ≠ 4) (h0 : s.ringSt n = 0)
    (hz : (4 ≤ s.get (R.RNG_SIZE n) F.RNG_SIZE_SQ_LOG2 ∧ s.get (R.RNG_SIZE n) F.RNG_SIZE_SQ_LOG2 ≤ 16) ∧
        4 ≤ s.get (R.RNG_SIZE n) F.RNG_SIZE_CQ_LOG2 ∧ s.get (R.RNG_SIZE n) F.RNG_SIZE_CQ_LOG2 ≤ 16) (hd : s.host.dmaOff = false) :
    ∃ t, exec (.ringEnable n) s = .next t ∧ t.ringSt n = 1 ∧ t.flag (R.RNG_CTL n) F.RNG_CTL_EN = true ∧
      t.get (R.RNG_STAT n) F.RNG_STAT_SQ_HEAD = 0 ∧ t.get (R.RNG_CQ_POS n) F.RNG_CQ_POS_PHASE = 1 ∧ t.rst_ n = {} ∧
      ∀ r, r ∉ [R.RNG_CTL n, R.RNG_STAT n, R.RNG_CQ_POS n] → t.rd r = s.rd r := by
  obtain ⟨w, hw⟩ : ∃ w, w = s.set (R.RNG_CTL n) F.RNG_CTL_EN 1 := ⟨_, rfl⟩
  have hwd : w.host.dmaOff = false := by rw [hw, State.set_host, hd]
  have hen : w.flag (R.RNG_CTL n) F.RNG_CTL_EN = true := by
    rw [hw]
    exact State.flag_of_get (State.get_set_fits _ _ _ (by decide) (by decide))
  obtain ⟨g1, g2, g3, g4⟩ := w.ringStarted_spec n
  refine ⟨w.ringStarted n, ?_, g1, ?_, g2, g3, g4, fun r hr => ?_⟩
  · rw [ringEnable_starts hu h1 h4 h0 hz, ← hw, w.startRing_eq n hwd]
  · rw [State.flag, State.get, w.ringStarted_rd n (RNG_ne n).2.2.1 (RNG_ne n).2.1]
    exact hen
  · obtain ⟨r1, r2, r3⟩ : r ≠ R.RNG_CTL n ∧ r ≠ R.RNG_STAT n ∧ r ≠ R.RNG_CQ_POS n := by simpa using hr
    rw [w.ringStarted_rd n r2 r3, hw, State.rd_set_ne _ _ _ r1]

theorem exec_ringDisable (hu : s.upFor (R.RNG_CTL n)) : exec (.ringDisable n) s = .next (
    if s.ringSt n = 1 ∨ s.ringSt n = 2 then (s.set (R.RNG_CTL n) F.RNG_CTL_EN 0).setRingSt n 3 else s.set (R.RNG_CTL n) F.RNG_CTL_EN 0) := by
  have e : exec (.ringDisable n) s = execRingDisable n s := rfl
  have hs : (s.set (R.RNG_CTL n) F.RNG_CTL_EN 0).ringSt n = s.ringSt n := State.get_set_ne _ _ _ _ (RNG_ne n).2.2.1.symm
  rw [e, execRingDisable, State.byHost_upFor hu, State.ringDisable]
  rw [hs]

theorem ringDisable_drains (hu : s.upFor (R.RNG_CTL n)) (h : s.ringSt n = 1 ∨ s.ringSt n = 2) : ∃ t, exec (.ringDisable n) s = .next t ∧ t.ringSt n = 3 ∧
    s.onlyRegs t [R.RNG_CTL n, R.RNG_STAT n] :=
  ⟨_, (exec_ringDisable hu).trans (congrArg _ (if_pos h)), State.get_set_fits _ _ _ (by decide) (by decide),
    (State.set_onlyRegs _ _ _ (.head _)).trans (State.set_onlyRegs _ _ _ (.tail _ (.head _)))⟩

theorem exec_ringAbandon (hu : s.upFor (R.RNG_CTL n)) : exec (.ringAbandon n) s = .next (s.ringAbandon n) := by
  have e : exec (.ringAbandon n) s = execRingAbandon n s := rfl
  rw [e, execRingAbandon, State.byHost_upFor hu]

theorem ringDrained_spec (h : s.ringSt n = 3) (ho : s.outstanding n = 0) : ∃ t, exec (.ringDrained n) s = .next t ∧ t.ringSt n = 0 ∧ s.onlyRegs t [R.RNG_STAT n] :=
  ⟨_, congrArg Host.Outcome.next (if_pos ⟨h, ho⟩), State.get_set_fits _ _ _ (by decide) (by decide), State.set_onlyRegs _ _ _ (.head _)⟩

/-! ### Croak pages -/

theorem exec_croak (h : s.up) (v : Nat) : exec (.croak n v) s = .next (s.croak n v) := by
  have e : exec (.croak n v) s = execCroak n v s := rfl
  rw [e, execCroak, State.ifUp_up h]

theorem exec_cqHeadWrite (h : s.up) (v : Nat) : exec (.cqHeadWrite n v) s = .next (s.cqHead n v) := by
  have e : exec (.cqHeadWrite n v) s = execCqHeadWrite n v s := rfl
  rw [e, execCqHeadWrite, State.ifUp_up h]

/-- A ring that a history bit has just named stops. -/
theorem State.stopRing_raise (w : State) (n : Fin 64) {f : Bits} (hw : f.width = 1) (hl : f.lo < 32) :
    ((w.raise (Hist.rng n) f).stopRing n).ringSt n = 2 ∧ ((w.raise (Hist.rng n) f).stopRing n).get (R.RNG_HIST n) f = 1 ∧
      ((w.raise (Hist.rng n) f).stopRing n).get R.RNG_GLB_HIST F.RNG_GLB_HIST_RING_STOPPED = 1 := by
  have h1 : R.RNG_STAT n ≠ Hist.rngGlb.reg := by
    change R.RNG_STAT n ≠ R.RNG_GLB_HIST
    unfold R.RNG_STAT R.RNG_GLB_HIST
    omega
  have h2 : R.RNG_HIST n ≠ Hist.rngGlb.reg := by
    change R.RNG_HIST n ≠ R.RNG_GLB_HIST
    unfold R.RNG_HIST R.RNG_GLB_HIST
    omega
  refine ⟨?_, ?_, State.get_raise _ Hist.rngGlb _ rfl (by decide)⟩
  · rw [State.ringSt, State.stopRing, State.get_raise_ne _ _ _ _ h1]
    exact State.get_set_fits _ _ _ (by decide) (by decide)
  · rw [State.stopRing, State.get_raise_ne _ _ _ _ h2, State.setRingSt, State.get_set_ne _ _ _ _ (RNG_ne n).2.2.2.symm]
    exact State.get_raise _ (Hist.rng n) _ hw hl

theorem croak_spec (h : s.up) (v : Nat) : (s.ringSt n ≠ 1 → exec (.croak n v) s = .next (s.raise (Hist.rng n) F.RNG_HIST_CROAK_ERR)) ∧
    (s.ringSt n = 1 → v < s.sqSize n → exec (.croak n v) s = .next (s.setRst n { s.rst_ n with sqTail := v })) ∧
    (s.ringSt n = 1 → s.sqSize n ≤ v → ∃ t, exec (.croak n v) s = .next t ∧ t.ringSt n = 2 ∧ t.get (R.RNG_HIST n) F.RNG_HIST_CROAK_ERR = 1 ∧
      t.get R.RNG_GLB_HIST F.RNG_GLB_HIST_RING_STOPPED = 1) := by
  rw [exec_croak h, State.croak]
  refine ⟨fun h1 => congrArg _ (if_pos h1), fun h1 hv => congrArg _ ?_, fun h1 hv => ⟨_, congrArg _ ?_, s.stopRing_raise n (f := F.RNG_HIST_CROAK_ERR) rfl (by decide)⟩⟩
  · rw [if_neg (fun hx => hx h1), if_neg (Nat.not_le.mpr hv)]
  · rw [if_neg (fun hx => hx h1), if_pos hv, State.croakErr]

/-- The completions a new CQ head reads. -/
theorem State.cqHead_eq {v adv used : Nat} (ha : adv = (v + s.cqSize n - (s.rst_ n).cqHead) % s.cqSize n)
    (hu : used = if adv = 0 ∧ (s.rst_ n).unread = s.cqSize n then s.cqSize n else adv) : s.cqHead n v =
      if s.ringSt n = 0 then s.raise (Hist.rng n) F.RNG_HIST_CROAK_ERR
      else if s.cqSize n ≤ v ∨ (s.rst_ n).unread < used then
        if s.ringSt n = 1 then (s.raise (Hist.rng n) F.RNG_HIST_CROAK_ERR).stopRing n else s.raise (Hist.rng n) F.RNG_HIST_CROAK_ERR
      else (s.setRst n { s.rst_ n with cqHead := v, unread := (s.rst_ n).unread - used }).domEnter n := by
  have hu' : (if adv = 0 ∧ (s.rst_ n).unread = s.cqSize n then (s.rst_ n).unread else adv) = used := by
    rw [hu]
    split
    next h => exact h.2
    next => rfl
  have hr : (s.raise (Hist.rng n) F.RNG_HIST_CROAK_ERR).ringSt n = s.ringSt n := State.get_raise_ne _ (Hist.rng n) _ _ (RNG_ne n).2.2.2
  rw [State.cqHead]
  dsimp only
  rw [← ha, hu', State.croakErr, hr]

end control

/-! ### Fetch -/

section fetch
variable {s : State} {n : Fin 64} {t : Nat}

/-- With no room in the completion ring no descriptor of a domain message enters. -/
theorem State.domEnter_full (n : Nat) (h : s.cqSize n ≤ s.outstanding n + (s.rst_ n).unread) : s.domEnter n = s := by
  have hr : s.cqRoom n = false := decide_eq_false (Nat.not_lt.mpr h)
  have hl : ∀ l : List (Nat × Fetched), l.foldl (fun (s : State) e =>
      let x := s.rst_ n
      if s.ringSt n = 1 ∧ e.1 = s.get (R.RNG_STAT n) F.RNG_STAT_SQ_HEAD ∧ s.cqRoom n ∧ x.domQ.head? = some e then
        s.setRst n { x with fetched := x.fetched ++ [e.2], domQ := x.domQ.tail }
      else s) s = s := fun l => by
    induction l with
    | nil => rfl
    | cons e l ih =>
      rw [List.foldl_cons]
      dsimp only
      rw [if_neg fun hx => by rw [hr] at hx; exact Bool.false_ne_true hx.2.2.1]
      exact ih
  exact hl _

/-- A ring served for 8 descriptors gives its turn to another that has work. -/
theorem State.nextFetch_turn {k : Nat} (hk : k < 64) (ht : s.host.turn < 64) (hne : k ≠ s.host.turn) (hw : s.hasWork k = true) (h8 : 8 ≤ s.host.took) :
    s.nextFetch ≠ some s.host.turn := by
  rw [State.nextFetch, if_neg (fun h => absurd h.2 (Nat.not_lt.mpr h8))]
  intro hf
  obtain ⟨-, as, bs, hl, has⟩ := List.find?_eq_some_iff_append.mp hf
  have hlen : as.length = 63 := by
    have h1 : ((List.range 64).map fun i => (s.host.turn + 1 + i) % 64)[as.length]? = some s.host.turn := by
      rw [hl, List.getElem?_append_right (Nat.le_refl _), Nat.sub_self]
      rfl
    have h2 : as.length < 64 := by
      have := congrArg List.length hl
      simp only [List.length_map, List.length_range, List.length_append, List.length_cons] at this
      omega
    rw [List.getElem?_map, List.getElem?_range h2] at h1
    have h3 : (s.host.turn + 1 + as.length) % 64 = s.host.turn := Option.some.inj h1
    omega
  obtain ⟨i, hi, hik⟩ : ∃ i < 63, (s.host.turn + 1 + i) % 64 = k := ⟨(k + 63 - s.host.turn) % 64, by omega, by omega⟩
  have hm : k ∈ as := by
    have h1 : ((List.range 64).map fun i => (s.host.turn + 1 + i) % 64)[i]? = some k := by
      rw [List.getElem?_map, List.getElem?_range (by omega), Option.map_some, hik]
    rw [hl, List.getElem?_append_left (by omega)] at h1
    exact List.mem_of_getElem? h1
  have := has k hm
  rw [hw] at this
  cases this

/-- A descriptor fetched in its ring's turn. -/
def State.fetchOne (s : State) (n : Nat) (t : Nat) : State :=
  ((s.at_ t).takeTurn n).set (R.RNG_STAT n) F.RNG_STAT_SQ_HEAD ((s.get (R.RNG_STAT n) F.RNG_STAT_SQ_HEAD + 1) % s.sqSize n)

theorem State.takeTurn_rd (s : State) (n a : Nat) : (s.takeTurn n).rd a = s.rd a := rfl

theorem State.fetchOne_spec (s : State) (n t : Nat) : (s.fetchOne n t).get (R.RNG_STAT n) F.RNG_STAT_SQ_HEAD =
      (s.get (R.RNG_STAT n) F.RNG_STAT_SQ_HEAD + 1) % s.sqSize n % 65536 ∧ (s.fetchOne n t).host.turn = n ∧ (s.fetchOne n t).host.cpls = s.host.cpls ∧
    ∀ a, a ≠ R.RNG_STAT n → (s.fetchOne n t).rd a = s.rd a := by
  refine ⟨State.get_set_self _ _ _ _ (by decide), by rw [State.fetchOne, State.set_host]; rfl, by rw [State.fetchOne, State.set_host]; rfl, fun a ha => ?_⟩
  rw [State.fetchOne, State.rd_set_ne _ _ _ ha, State.takeTurn_rd, State.rd_at]

/-- What ring `n` does with the answer to its fetch. -/
def State.fetchTaken (s : State) (n t : Nat) : FetchRes → State
  | .err => (((s.at_ t).takeTurn n).raise (Hist.rng n) F.RNG_HIST_FETCH_ERR).stopRing n
  | .slot raw =>
    if opcodes.contains (bytesAt raw 0 1) then ((s.fetchOne n t).setRst n { s.rst_ n with fetched := (s.rst_ n).fetched ++ [{ raw := raw }] }).domEnter n
    else ((s.fetchOne n t).pushCpl ⟨n, bytesAt raw 2 2, 4, false, false, false, none, badRes 0, bitAt raw 1 4, 0, none, false⟩).domEnter n

/-- A fetch in RUNNING with a croaked slot: the completion ring's room and the ring's turn decide. -/
theorem exec_descriptorFetch (r : FetchRes) (h1 : s.ringSt n = 1) (hh : s.get (R.RNG_STAT n) F.RNG_STAT_SQ_HEAD ≠ (s.rst_ n).sqTail) :
    exec (.descriptorFetch n r t) s = .next (
      if s.cqRoom n = false then (s.at_ t).raise (Hist.rng n) F.RNG_HIST_CQ_STALL
      else if s.nextFetch ≠ some n.val then s.at_ t
      else s.fetchTaken n t r) := by
  have e : exec (.descriptorFetch n r t) s = execDescriptorFetch n r t s := rfl
  have ha : (s.at_ t).ringSt n = s.ringSt n := State.get_at ..
  have hx : (s.at_ t).rst_ n = s.rst_ n := rfl
  have hq : ((s.at_ t).takeTurn n).sqSize n = s.sqSize n := rfl
  have hc : (s.at_ t).cqRoom n = s.cqRoom n := rfl
  have hf : (s.at_ t).nextFetch = s.nextFetch := rfl
  unfold State.fetchTaken State.fetchOne
  rw [e, execDescriptorFetch]
  dsimp only
  rw [ha, hx, hq, hc, hf, State.get_at, if_neg (by rw [h1]; exact fun h => h.elim (fun h => h rfl) hh)]
  cases s.cqRoom n <;> cases r <;> rfl

theorem State.domEnter_nil {w : State} {n : Nat} (h : (w.rst_ n).domQ = []) : w.domEnter n = w := by
  rw [State.domEnter, h]
  rfl

/-- Descriptors of domain messages that enter a ring change its own record alone. -/
theorem State.domEnter_keeps (w : State) (n : Nat) : (w.domEnter n).regs = w.regs ∧ (w.domEnter n).host.cpls = w.host.cpls := by
  have hl : ∀ (l : List (Nat × Fetched)) (w v : State), v.regs = w.regs ∧ v.host.cpls = w.host.cpls →
      (l.foldl (fun (s : State) e =>
        let x := s.rst_ n
        if s.ringSt n = 1 ∧ e.1 = s.get (R.RNG_STAT n) F.RNG_STAT_SQ_HEAD ∧ s.cqRoom n ∧ x.domQ.head? = some e then
          s.setRst n { x with fetched := x.fetched ++ [e.2], domQ := x.domQ.tail }
        else s) v).regs = w.regs ∧
      (l.foldl (fun (s : State) e =>
        let x := s.rst_ n
        if s.ringSt n = 1 ∧ e.1 = s.get (R.RNG_STAT n) F.RNG_STAT_SQ_HEAD ∧ s.cqRoom n ∧ x.domQ.head? = some e then
          s.setRst n { x with fetched := x.fetched ++ [e.2], domQ := x.domQ.tail }
        else s) v).host.cpls = w.host.cpls := fun l => by
    induction l with
    | nil => exact fun _ _ h => h
    | cons e l ih =>
      refine fun w v h => ih w _ ?_
      dsimp only
      split
      · exact h
      · exact h
  exact hl _ w w ⟨rfl, rfl⟩

section turn
variable (h1 : s.ringSt n = 1) (hh : s.get (R.RNG_STAT n) F.RNG_STAT_SQ_HEAD ≠ (s.rst_ n).sqTail)
include h1 hh

theorem descriptorFetch_stall (r : FetchRes) (hc : s.cqSize n ≤ s.outstanding n + (s.rst_ n).unread) :
    exec (.descriptorFetch n r t) s = .next ((s.at_ t).raise (Hist.rng n) F.RNG_HIST_CQ_STALL) :=
  (exec_descriptorFetch r h1 hh).trans (congrArg _ (if_pos (decide_eq_false (Nat.not_lt.mpr hc))))

theorem descriptorFetch_room (r : FetchRes) (hc : s.outstanding n + (s.rst_ n).unread < s.cqSize n) : exec (.descriptorFetch n r t) s = .next (
      if s.nextFetch ≠ some n.val then s.at_ t
      else s.fetchTaken n t r) := by
  have hr : s.cqRoom n = true := decide_eq_true hc
  rw [exec_descriptorFetch r h1 hh, hr, if_neg (by decide)]

theorem descriptorFetch_slot (hc : s.outstanding n + (s.rst_ n).unread < s.cqSize n) (hf : s.nextFetch = some n.val) {raw : List Byte}
    (ho : bytesAt raw 0 1 ∈ opcodes) (hq : (s.rst_ n).domQ = []) : ∃ u, exec (.descriptorFetch n (.slot raw) t) s = .next u ∧
      u.get (R.RNG_STAT n) F.RNG_STAT_SQ_HEAD = (s.get (R.RNG_STAT n) F.RNG_STAT_SQ_HEAD + 1) % s.sqSize n % 65536 ∧ u.host.turn = n.val ∧
      (u.rst_ n).fetched = (s.rst_ n).fetched ++ [{ raw := raw }] ∧ ∀ a, a ≠ R.RNG_STAT n → u.rd a = s.rd a := by
  obtain ⟨x, hx⟩ : ∃ x, x = ({ s.rst_ n with fetched := (s.rst_ n).fetched ++ [{ raw := raw }] } : RingSt) := ⟨_, rfl⟩
  have hd : (((s.fetchOne n t).setRst n x).rst_ n).domQ = [] := by rw [State.ringRec_setRst, hx, hq]
  obtain ⟨f1, f2, -, f4⟩ := s.fetchOne_spec n t
  refine ⟨(s.fetchOne n t).setRst n x, ?_, (State.get_setRst ..).trans f1, f2, by rw [State.ringRec_setRst, hx], fun a ha => (State.rd_setRst ..).trans (f4 a ha)⟩
  rw [descriptorFetch_room h1 hh _ hc, if_neg (fun h => h hf), State.fetchTaken, if_pos (by simpa using ho), ← hx, State.domEnter_nil hd]

theorem descriptorFetch_unknown (hc : s.outstanding n + (s.rst_ n).unread < s.cqSize n) (hf : s.nextFetch = some n.val) {raw : List Byte}
    (ho : bytesAt raw 0 1 ∉ opcodes) : ∃ u c, exec (.descriptorFetch n (.slot raw) t) s = .next u ∧ u.host.cpls = s.host.cpls ++ [c] ∧
      c.ring = n.val ∧ c.tag = bytesAt raw 2 2 ∧ c.status = 4 ∧ c.result = badRes 0 ∧
      u.get (R.RNG_STAT n) F.RNG_STAT_SQ_HEAD = (s.get (R.RNG_STAT n) F.RNG_STAT_SQ_HEAD + 1) % s.sqSize n % 65536 := by
  obtain ⟨c, hcp⟩ : ∃ c, c = (⟨n, bytesAt raw 2 2, 4, false, false, false, none, badRes 0, bitAt raw 1 4, 0, none, false⟩ : Cpl) := ⟨_, rfl⟩
  obtain ⟨f1, -, f3, -⟩ := s.fetchOne_spec n t
  obtain ⟨k1, k2⟩ := ((s.fetchOne n t).pushCpl c).domEnter_keeps n
  refine ⟨((s.fetchOne n t).pushCpl c).domEnter n, c, ?_, ?_, by rw [hcp], by rw [hcp], by rw [hcp], by rw [hcp], ?_⟩
  · rw [descriptorFetch_room h1 hh _ hc, if_neg (fun h => h hf), State.fetchTaken, if_neg (by simpa using ho), ← hcp]
  · rw [k2, ← f3]
    rfl
  · rw [State.get_congr k1, State.get_pushCpl]
    exact f1

theorem descriptorFetch_err (hc : s.outstanding n + (s.rst_ n).unread < s.cqSize n) (hf : s.nextFetch = some n.val) :
    ∃ u, exec (.descriptorFetch n .err t) s = .next u ∧ u.ringSt n = 2 ∧ u.get (R.RNG_HIST n) F.RNG_HIST_FETCH_ERR = 1 := by
  obtain ⟨g1, g2, -⟩ := ((s.at_ t).takeTurn n).stopRing_raise n (f := F.RNG_HIST_FETCH_ERR) rfl (by decide)
  exact ⟨_, (descriptorFetch_room h1 hh _ hc).trans (congrArg _ (if_neg fun h => h hf)), g1, g2⟩

end turn

/-! ### Completions -/

theorem State.postCpl_mem (w : State) (n : Nat) (c : Cpl) : (w.postCpl n c).host.mem =
    memWrites w.host.mem (w.rd2 (R.RNG_CQ_BASE_LO n) (R.RNG_CQ_BASE_HI n) + 16 * w.get (R.RNG_CQ_POS n) F.RNG_CQ_POS_TAIL) (w.cplBytes n c) := by
  obtain ⟨v, hv⟩ : ∃ v, v = w.hostWrite (w.rd2 (R.RNG_CQ_BASE_LO n) (R.RNG_CQ_BASE_HI n) + 16 * w.get (R.RNG_CQ_POS n) F.RNG_CQ_POS_TAIL) (w.cplBytes n c) := ⟨_, rfl⟩
  have hk : Kept [.regs, .fst, .host, .vec] v (w.postCpl n c) := by
    rw [State.postCpl, ← hv]
    refine State.coalesce_kept (State.dropCpl_kept (State.inc_kept (State.setRst_kept ?_ _ _ (Sub.of (Sub.self _) rfl)) _ (Sub.of (Sub.self _) rfl)) _
      (Sub.of (Sub.self _) rfl)) _ _ (Sub.of (Sub.self _) rfl)
    exact Kept.ite (fun _ => State.set_kept (State.set_kept (.refl _ v) _ _ _ (Sub.of (Sub.self _) rfl)) _ _ _ (Sub.of (Sub.self _) rfl))
      fun _ => State.set_kept (.refl _ v) _ _ _ (Sub.of (Sub.self _) rfl)
  have hm : (w.postCpl n c).host.mem = v.host.mem := hk.2.2 .hostMem (by decide)
  rw [hm, hv]
  rfl

theorem exec_completionPost {c : Cpl} (h0 : s.ringSt n ≠ 0) (hc : s.nextCpl n = some c) (ok : Bool) :
    exec (.completionPost n ok t) s = .next (if ok then (s.at_ t).postCpl n c else ((s.at_ t).loseCpl n c).domEnter n) := by
  have e : exec (.completionPost n ok t) s = execCompletionPost n ok t s := rfl
  have ha : (s.at_ t).ringSt n = s.ringSt n := State.get_at ..
  have hn : (s.at_ t).nextCpl n = s.nextCpl n := rfl
  rw [e, execCompletionPost]
  dsimp only
  rw [ha, if_neg h0, hn, hc]

theorem coalTimerExpiry_spec (ha : (s.rst_ n).armed = true)
    (hd : (s.rst_ n).armedAt + s.get (R.RNG_CQ_VEC n) F.RNG_CQ_VEC_COAL_US * ticksPerUs ≤ t) : exec (.coalTimerExpiry n t) s =
      .next (((s.at_ t).setRst n { s.rst_ n with armed := false, since := 0 }).raiseVec (s.get (R.RNG_CQ_VEC n) F.RNG_CQ_VEC_VEC)) := by
  have e : exec (.coalTimerExpiry n t) s = execCoalTimerExpiry n t s := rfl
  have hx : (s.at_ t).rst_ n = s.rst_ n := rfl
  rw [e, execCoalTimerExpiry]
  dsimp only
  rw [hx, State.get_at, State.get_at, ha, decide_eq_true hd, if_pos (by decide)]

theorem State.bar2Write_spec (s : State) (n o v : Nat) : (o = n * 0x1000 → s.bar2Write o v = s.croak n v) ∧
    (o = n * 0x1000 + 4 → s.bar2Write o v = s.cqHead n v) ∧ (o % 0x1000 ≠ 0 → o % 0x1000 ≠ 4 → s.bar2Write o v = s) := by
  refine ⟨fun h => ?_, fun h => ?_, fun h0 h4 => ?_⟩
  · have h1 : o % 0x1000 = 0 := by omega
    have h2 : o / 0x1000 = n := by omega
    rw [State.bar2Write, if_pos h1, h2]
  · have h1 : o % 0x1000 = 4 := by omega
    have h2 : o / 0x1000 = n := by omega
    rw [State.bar2Write, if_neg (by omega), if_pos h1, h2]
  · rw [State.bar2Write, if_neg h0, if_neg h4]

end fetch

/-- Settles O42: link events, ring control, croak pages, fetch and completion, each by the lemma that states it. -/
theorem hostRings : Obligations.HostRings := by
  refine ⟨fun s e => ?_, fun s => ?_, fun s hl => ?_, fun s => ⟨rfl, rfl⟩, fun s n hu => congrArg Host.Outcome.next (if_neg (by rw [hu]; decide)),
    fun s n hu => ⟨fun h => ?_, fun h1 h4 h0 => ?_, fun h1 h4 h0 a b ha hb => ⟨fun hz => ?_, fun hz hd => ?_, fun hz => ?_⟩⟩,
    fun s n hu h => ringDisable_drains hu h, fun s n hu h1 h2 => (exec_ringDisable hu).trans (congrArg _ (if_neg fun h => h.elim h1 h2)),
    fun s n hu => ⟨fun h => (exec_ringAbandon hu).trans (congrArg _ (if_pos h)), fun h => (exec_ringAbandon hu).trans (congrArg _ (if_neg (by omega)))⟩,
    fun s n h ho => ringDrained_spec h ho, fun s n v hu => croak_spec hu v, fun s n v adv used hu ha hus => ⟨fun h => ?_, fun h0 hv hun => ?_, fun h1 h => ?_⟩,
    fun s n o v => s.bar2Write_spec n o v, fun s n e q _ h => s.domEnter_full n h, fun s n hn ht hne hw h8 => State.nextFetch_turn hn ht hne hw h8,
    fun s n r t h1 hh => ⟨descriptorFetch_stall h1 hh r, fun hc hf => ?_, fun hc hf => ⟨fun raw hr ho hq => ?_, fun raw hr ho => ?_, fun hr => ?_⟩⟩,
    fun s n t c h0 hc => ⟨⟨_, exec_completionPost h0 hc true, rfl, State.postCpl_mem _ n c⟩, exec_completionPost h0 hc false⟩,
    fun s n t ha hd => coalTimerExpiry_spec ha hd⟩
  · obtain ⟨t, he, hl, h3, hh⟩ := hostLinkReset_spec s e
    exact ⟨t, he, hl.rings, hl.msix, hl.cpls, hl.ops, h3, hh⟩
  · obtain ⟨t, he, hl, hp, hu, hm, h13, hx⟩ := perstAssert_spec s
    have hr (m : Nat) (h : m = 5 ∨ m = 6) : t.masterInReset m = true := by
      rw [State.masterInReset, hp]
      rcases h with rfl | rfl <;> rfl
    exact ⟨t, he, hl.rings, fun c hc => (hl.cpls c hc).1, hp, hu, hm, h13, hr 5 (.inl rfl), hr 6 (.inr rfl), hx⟩
  · rw [State.pciAnswers, hl, Bool.true_and, Bool.or_eq_true, Bool.not_eq_true']
  · rw [exec_ringEnable hu, State.ringEnable, if_pos h, State.cfgErr]
  · rw [exec_ringEnable hu, State.ringEnable_open h1 h4, if_pos h0]
  · subst ha hb
    exact ringEnable_starts hu h1 h4 h0 ⟨⟨hz.1, hz.2.1⟩, hz.2.2⟩
  · subst ha hb
    exact ringEnable_started hu h1 h4 h0 ⟨⟨hz.1, hz.2.1⟩, hz.2.2⟩ hd
  · subst ha hb
    rw [exec_ringEnable hu, State.ringEnable_open h1 h4, if_neg (fun h => h h0), if_neg fun h => hz ⟨h.1.1, h.1.2, h.2⟩]
  · rw [exec_cqHeadWrite hu, State.cqHead_eq ha hus, if_pos h]
  · rw [exec_cqHeadWrite hu, State.cqHead_eq ha hus, if_neg h0, if_neg (by omega)]
  · obtain ⟨g1, g2, g3⟩ := s.stopRing_raise n (f := F.RNG_HIST_CROAK_ERR) rfl (by decide)
    refine ⟨_, (exec_cqHeadWrite hu v).trans (congrArg _ (State.cqHead_eq ha hus)), ?_⟩
    rw [if_neg (by omega), if_pos h, if_pos h1]
    exact ⟨g1, g2, g3⟩
  · rw [descriptorFetch_room h1 hh r hc, if_pos hf]
  · subst hr
    exact descriptorFetch_slot h1 hh hc hf ho hq
  · subst hr
    exact descriptorFetch_unknown h1 hh hc hf ho
  · subst hr
    exact descriptorFetch_err h1 hh hc hf

end Sys2Proof.Machine

/-! Descriptors of queries, flows and user records (O43). -/
namespace Sys2Proof.Machine

section desc
variable {s v w : State} {r : DescRule} {h : Hdr} {body : State → Adm}

theorem State.hostSame.refl (s : State) : s.hostSame s := ⟨rfl, rfl, rfl, rfl, rfl⟩

/-- A shortfall with an in-flight entry free is posted as it is. -/
theorem State.desc_shortfall (hv : s.admits r h v) {c : Nat} (hb : body v = .no 3 c) : v.posts (s.desc r h body) h 3 c ∧ v.hostOnly (s.desc r h body) := by
  have he : s.desc r h body = v.lowerStop.raiseOver.refuse h 3 c := by
    rw [State.desc_pass hv.1, hb]
    simp only [settle, hv.2.2.2, Bool.not_true, Bool.false_eq_true, and_false, if_false, if_true]
  rw [he]
  obtain ⟨⟨x, hx, hp⟩, hh⟩ := v.lowerStop.raiseOver.refuse_posts h 3 c
  exact ⟨⟨x, by rw [hx, State.raiseOver_host, State.lowerStop_host], hp⟩, (v.lowerStop_hostOnly.trans (State.raiseOver_hostOnly _)).trans hh⟩

/-- A descriptor that completes from state `w`, which has what was in flight before: the state it is accepted in. -/
theorem State.desc_accepts (hv : s.admits r h v) {e : Bool} {st res : Nat} (hb : body v = .yes (w.done h e st res)) (hh : v.hostSame w) :
    s.desc r h body = v.accept (w.done h e st res) := by
  refine State.desc_yes hv.1 hb ?_
  have hw : w.host.fwdNow = false := by rw [hh.fwdNow, hv.2.1]
  have hi : w.inflight = v.inflight := by simp only [State.inflight, hh.ops, hh.cpls]
  rw [State.done_inflight hw, hi]
  simpa [State.entriesFree] using hv.2.2.2

/-- … and it posts its completion, with host memory as `w` has it. -/
theorem State.desc_answers (hv : s.admits r h v) {e : Bool} {st res : Nat} (hb : body v = .yes (w.done h e st res)) (hh : v.hostSame w) :
    v.posts (s.desc r h body) h st res ∧ w.hostOnly (s.desc r h body) ∧ (s.desc r h body).host.mem = w.host.mem := by
  have hw : w.host.fwdNow = false := by rw [hh.fwdNow, hv.2.1]
  rw [State.desc_accepts hv hb hh]
  refine ⟨?_, (State.done_hostOnly hw ..).trans (State.accept_hostOnly ..), ?_⟩
  · obtain ⟨c, h1, h2⟩ := State.done_posts hw h e st res
    exact ⟨c, by rw [State.accept_host, h1, hh.cpls], h2⟩
  · rw [State.accept_host]
    exact (State.done_kept (.refl [.regs, .host, .mate] w) h e st res (Sub.self _)).2.2 .hostMem (by decide)

/-- One that changes nothing but the host side. -/
theorem State.desc_posts (hv : s.admits r h v) {e : Bool} {st res : Nat} (hb : body v = .yes (v.done h e st res)) :
    v.posts (s.desc r h body) h st res ∧ v.hostOnly (s.desc r h body) :=
  have ⟨h1, h2, _⟩ := State.desc_answers hv hb (.refl v)
  ⟨h1, h2⟩

end desc

/-! ### Queries -/

section query
variable {s v : State} {h : Hdr} {q : QueryReq} {lo hi op : Nat} {rcd : State → Nat → Nat → List Byte} {r : DescRule} (hv : s.admits r h v)

theorem State.hostWrite_hostSame (v : State) (a : Nat) (l : List Byte) : v.hostSame (v.hostWrite a l) := ⟨rfl, rfl, rfl, rfl, rfl⟩

theorem State.hostWrite_hostOnly (v : State) (a : Nat) (l : List Byte) : v.hostOnly (v.hostWrite a l) := rfl

include hv

theorem query_class (hc : q.cls < lo ∨ hi < q.cls) : v.posts (s.desc r h (queryBody h q lo hi rcd)) h 4 (badRes 16) ∧ v.hostOnly (s.desc r h (queryBody h q lo hi rcd)) :=
  State.desc_refused hv (if_pos hc)

variable (h1 : lo ≤ q.cls) (h2 : q.cls ≤ hi)
include h1 h2

theorem query_first (hf : queryRange q.cls ≤ q.first) :
    v.posts (s.desc r h (queryBody h q lo hi rcd)) h 4 (badRes 18) ∧ v.hostOnly (s.desc r h (queryBody h q lo hi rcd)) :=
  State.desc_refused hv ((if_neg (by omega)).trans (if_pos hf))

theorem query_param {k : Nat} (hk : q.first < queryRange q.cls ∧ queryRange q.cls < q.first + q.count ∧ k = 20 ∨
      q.first < queryRange q.cls ∧ q.first + q.count ≤ queryRange q.cls ∧ q.host % 8 ≠ 0 ∧ k = 24) :
    v.posts (s.desc r h (queryBody h q lo hi rcd)) h 4 (badRes k) ∧ v.hostOnly (s.desc r h (queryBody h q lo hi rcd)) := by
  refine State.desc_refused hv ((if_neg (by omega)).trans ((if_neg ?_).trans ?_))
  · rcases hk with ⟨hf, -⟩ | ⟨hf, -⟩ <;> exact Nat.not_le.mpr hf
  · rcases hk with ⟨-, hc, rfl⟩ | ⟨-, hc, ha, rfl⟩
    · exact if_pos hc
    · exact (if_neg (Nat.not_lt.mpr hc)).trans (if_pos ha)

variable (hf : q.first < queryRange q.cls) (hc : q.first + q.count ≤ queryRange q.cls) (ha : q.host % 8 = 0)
include hf hc ha

theorem queryBody_records : queryBody h q lo hi rcd v =
    if !q.writeOk && q.count != 0 then .yes (v.done h false 7 2)
    else .yes ((v.hostWrite q.host ((List.range q.count).map fun i => rcd v q.cls (q.first + i)).flatten).ok h
      ((List.range q.count).map fun i => rcd v q.cls (q.first + i)).flatten.length) := by
  rw [queryBody, if_neg (by omega), if_neg (Nat.not_le.mpr hf), if_neg (Nat.not_lt.mpr hc), if_neg (fun hx => hx ha), hv.2.2.2,
    if_neg (by decide)]

theorem query_fault (hw : q.writeOk = false) (h0 : q.count ≠ 0) :
    v.posts (s.desc r h (queryBody h q lo hi rcd)) h 7 2 ∧ v.hostOnly (s.desc r h (queryBody h q lo hi rcd)) :=
  State.desc_posts hv ((queryBody_records hv h1 h2 hf hc ha).trans (if_pos (by simp [hw, h0])))

theorem query_written (hw : q.writeOk = true ∨ q.count = 0) {l : List Byte} (hl : l = ((List.range q.count).map fun i => rcd v q.cls (q.first + i)).flatten) :
    v.posts (s.desc r h (queryBody h q lo hi rcd)) h 0 l.length ∧ (s.desc r h (queryBody h q lo hi rcd)).host.mem = memWrites v.host.mem q.host l := by
  have hb : queryBody h q lo hi rcd v = .yes ((v.hostWrite q.host l).done h false 0 l.length) := by
    rw [queryBody_records hv h1 h2 hf hc ha, ← hl, if_neg (by rcases hw with hw | hw <;> simp [hw])]
    rfl
  obtain ⟨g1, -, g3⟩ := State.desc_answers hv hb (v.hostWrite_hostSame _ _)
  exact ⟨g1, g3⟩

end query

/-! ### Flows -/

section flow
variable {s v : State} {h : Hdr} {f : FlowReq} {r : DescRule} {rx : Bool} (hv : s.admits r h v)
include hv

theorem flow_kind (hk : 2 < f.kind) : v.posts (s.desc r h (flowBody rx h f)) h 4 (badRes 17) ∧ v.hostOnly (s.desc r h (flowBody rx h f)) :=
  State.desc_refused hv (if_pos hk)

variable (hk : f.kind ≤ 2)
include hk

theorem flow_index (hi : (if f.kind = 1 then 1024 else 256) ≤ f.index) :
    v.posts (s.desc r h (flowBody rx h f)) h 4 (badRes 18) ∧ v.hostOnly (s.desc r h (flowBody rx h f)) :=
  State.desc_refused hv ((if_neg (Nat.not_lt.mpr hk)).trans (if_pos hi))

variable (hi : f.index < if f.kind = 1 then 1024 else 256) {k : Nat} (hkey : k = 1024 * f.kind + f.index)
include hi hkey

/-- A flow that is disabled. -/
theorem flowBody_off (he : f.en = false) : flowBody rx h f v = match tabFind (if rx then v.media.rxFlow else v.media.txFlow) k with
    | some x => .yes ((v.closeFlow rx k x).ok h 0)
    | none => .yes (v.ok h 0) := by
  rw [flowBody, if_neg (Nat.not_lt.mpr hk), if_neg (Nat.not_le.mpr hi), he, ← hkey, hv.2.2.2]
  cases tabFind (if rx then v.media.rxFlow else v.media.txFlow) k <;> rfl

theorem flow_runs (he : f.en = true) {x : Flow} (hx : tabFind (if rx then v.media.rxFlow else v.media.txFlow) k = some x) :
    v.posts (s.desc r h (flowBody rx h f)) h 4 (badRes 18) ∧ v.hostOnly (s.desc r h (flowBody rx h f)) := by
  refine State.desc_refused hv ?_
  rw [flowBody, if_neg (Nat.not_lt.mpr hk), if_neg (Nat.not_le.mpr hi), he, ← hkey, hx]
  rfl

theorem flow_closed (he : f.en = false) {x : Flow} (hx : tabFind (if rx then v.media.rxFlow else v.media.txFlow) k = some x) :
    s.desc r h (flowBody rx h f) = v.accept ((v.closeFlow rx k x).ok h 0) ∧ v.posts (s.desc r h (flowBody rx h f)) h 0 0 ∧
      (v.closeFlow rx k x).hostOnly (s.desc r h (flowBody rx h f)) := by
  have hb : flowBody rx h f v = .yes ((v.closeFlow rx k x).done h false 0 0) := by
    rw [flowBody_off hv hk hi hkey he, hx]
    rfl
  have hs := (State.closeFlow_kept (.refl [.regs, .media, .xpt, .fst, .aud] v) rx k x (Sub.self _)).hostSame (by decide)
  obtain ⟨g1, g2, -⟩ := State.desc_answers hv hb hs
  exact ⟨State.desc_accepts hv hb hs, g1, g2⟩

theorem flow_none (he : f.en = false) (hx : tabFind (if rx then v.media.rxFlow else v.media.txFlow) k = none) :
    v.posts (s.desc r h (flowBody rx h f)) h 0 0 ∧ v.hostOnly (s.desc r h (flowBody rx h f)) := by
  refine State.desc_posts hv (e := false) ?_
  rw [flowBody_off hv hk hi hkey he, hx]
  rfl

variable (he : f.en = true) (hx : tabFind (if rx then v.media.rxFlow else v.media.txFlow) k = none)
include he hx

theorem flow_addr (ha : f.addr % 8 ≠ 0) : v.posts (s.desc r h (flowBody rx h f)) h 4 (badRes 24) ∧ v.hostOnly (s.desc r h (flowBody rx h f)) := by
  refine State.desc_refused hv ?_
  rw [flowBody, if_neg (Nat.not_lt.mpr hk), if_neg (Nat.not_le.mpr hi), he, ← hkey, hx]
  exact (if_neg (by decide)).trans ((if_neg (by decide)).trans (if_pos ha))

variable (ha : f.addr % 8 = 0)
include ha

theorem flow_data {o : Nat} (ho : ([v.flowBad rx f.kind f.flow, f.zero rx].filterMap id).min? = some o) :
    v.posts (s.desc r h (flowBody rx h f)) h 4 (dataRes (some o)) ∧ v.hostOnly (s.desc r h (flowBody rx h f)) := by
  refine State.desc_refused hv ?_
  rw [flowBody, if_neg (Nat.not_lt.mpr hk), if_neg (Nat.not_le.mpr hi), he, ← hkey, hx, if_neg (by decide), if_neg (by decide), if_neg (fun hx => hx ha), ho]
  rfl

variable (hb : v.flowBad rx f.kind f.flow = none) (hz : f.zero rx = none)
include hb hz

/-- A flow whose record is in range: the port's wire rate, the path buffer and the ledgers. -/
theorem flowBody_admit {p : Option (List Nat)} (hp : p = if (if rx then v.pathNeed f.kind f.flow else 0) = 0 then some []
      else v.placeBuf (if rx then v.pathNeed f.kind f.flow else 0) v.usedGrans) : flowBody rx h f v =
    if v.wireOk rx f.kind f.flow = false then .no 3 Config.flowCode.toNat
    else if p.isNone then .no 3 5
    else admitFit v (v.openFlow rx k f.flow (p.getD [])) fun s' => .yes (s'.ok h 0) := by
  rw [flowBody, if_neg (Nat.not_lt.mpr hk), if_neg (Nat.not_le.mpr hi), he, ← hkey, hx, if_neg (by decide), if_neg (by decide), if_neg (fun hx => hx ha), hb, hz]
  dsimp only [List.filterMap, id, List.min?]
  rw [← hp, hv.2.2.2, if_neg (show ¬ (!true) = true by decide)]
  cases v.wireOk rx f.kind f.flow <;> rfl

theorem flow_wire (hw : v.wireOk rx f.kind f.flow = false) :
    v.posts (s.desc r h (flowBody rx h f)) h 3 Config.flowCode.toNat ∧ v.hostOnly (s.desc r h (flowBody rx h f)) :=
  State.desc_shortfall hv ((flowBody_admit hv hk hi hkey he hx ha hb hz rfl).trans (if_pos hw))

variable (hw : v.wireOk rx f.kind f.flow = true)
include hw

theorem flow_path (hp : (if (if rx then v.pathNeed f.kind f.flow else 0) = 0 then some []
      else v.placeBuf (if rx then v.pathNeed f.kind f.flow else 0) v.usedGrans) = none) :
    v.posts (s.desc r h (flowBody rx h f)) h 3 5 ∧ v.hostOnly (s.desc r h (flowBody rx h f)) := by
  refine State.desc_shortfall hv ((flowBody_admit hv hk hi hkey he hx ha hb hz hp.symm).trans ?_)
  rw [hw]
  rfl

variable {p : List Nat} (hp : (if (if rx then v.pathNeed f.kind f.flow else 0) = 0 then some []
      else v.placeBuf (if rx then v.pathNeed f.kind f.flow else 0) v.usedGrans) = some p)
include hp

theorem flowBody_fit : flowBody rx h f v = (v.fitOf (v.openFlow rx k f.flow p)).adm (.yes ((v.openFlow rx k f.flow p).ok h 0)) := by
  rw [flowBody_admit hv hk hi hkey he hx ha hb hz hp.symm, hw, if_neg (by decide), Option.isNone_some, if_neg (by decide), Option.getD_some, admitFit]

theorem flow_opened (hf : v.fitOf (v.openFlow rx k f.flow p) = .fits) :
    s.desc r h (flowBody rx h f) = v.accept ((v.openFlow rx k f.flow p).ok h 0) := by
  have hb' : flowBody rx h f v = .yes ((v.openFlow rx k f.flow p).done h false 0 0) := by
    rw [flowBody_fit hv hk hi hkey he hx ha hb hz hw hp, hf]
    rfl
  exact State.desc_accepts hv hb' ((State.openFlow_kept (.refl [.media, .fst] v) rx k f.flow p (Sub.self _)).hostSame (by decide))

theorem flow_short {c : Nat} (hf : v.fitOf (v.openFlow rx k f.flow p) = .short c) :
    v.posts (s.desc r h (flowBody rx h f)) h 3 c ∧ v.hostOnly (s.desc r h (flowBody rx h f)) := by
  refine State.desc_shortfall hv ?_
  rw [flowBody_fit hv hk hi hkey he hx ha hb hz hw hp, hf]
  rfl

end flow

/-! ### User slots -/

section slots
variable {s v : State} {h : Hdr} {first count host : Nat} {r : DescRule} (hv : s.admits r h v)
include hv

theorem persistPut_spec (data : Option (List Byte)) :
    (∀ k, slotsBad first count host = some k → v.posts (s.desc r h (persistPutBody h first count host data)) h 4 (badRes k) ∧
      v.hostOnly (s.desc r h (persistPutBody h first count host data))) ∧
    (∀ d, slotsBad first count host = none → data = some d → v.posts (s.desc r h (persistPutBody h first count host data)) h 0 0 ∧
      (s.desc r h (persistPutBody h first count host data)).axl.user = memWrites v.axl.user (64 * first) (d.take (64 * count))) ∧
    (slotsBad first count host = none → data = none → v.posts (s.desc r h (persistPutBody h first count host data)) h 7 1 ∧
      v.hostOnly (s.desc r h (persistPutBody h first count host data))) := by
  refine ⟨fun k hk => State.desc_refused hv (by unfold persistPutBody; rw [hk]; rfl), fun d hb hd => ?_, fun hb hd => State.desc_posts hv (e := false) ?_⟩
  · have hb' : persistPutBody h first count host data v = .yes ((v.putSlots first count d).done h false 0 0) := by
      unfold persistPutBody
      rw [hb, hd]
      dsimp only
      rw [hv.2.2.2]
      rfl
    have hs := (State.putSlots_kept (.refl [.regs, .axl] v) first count d (Sub.self _)).hostSame (by decide)
    obtain ⟨g1, g2, -⟩ := State.desc_answers hv hb' hs
    refine ⟨g1, ?_⟩
    rw [State.hostOnly.axl g2, State.putSlots]
    obtain ⟨w, hw⟩ : ∃ w : State, w = { v with axl := { v.axl with user := memWrites v.axl.user (64 * first) (d.take (64 * count)) } } := ⟨_, rfl⟩
    have hd : ∀ l : List Nat, (l.foldl State.dirty w).axl = w.axl := fun l =>
      (Kept.foldl (.refl [.regs] w) fun _ k hk => State.dirty_kept hk k (Sub.self _)).2.2 .axl (by decide)
    rw [← hw]
    rw [hd, hw]
  · unfold persistPutBody
    rw [hb, hd]
    dsimp only
    rw [hv.2.2.2]
    rfl

/-- PERSIST_GET after the checks common to all. -/
def persistGetBody (h : Hdr) (first count host : Nat) (writeOk : Bool) (s : State) : Adm :=
  match slotsBad first count host with
  | some k => bad k
  | none =>
    if !s.entriesFree 1 then short 9
    else if !writeOk then .yes (s.done h false 7 2)
    else .yes ((s.hostWrite host (memReads s.axl.user (64 * first) (64 * count))).ok h 0)

theorem persistGet_spec :
    (∀ k b, slotsBad first count host = some k → v.posts (s.desc r h (persistGetBody h first count host b)) h 4 (badRes k) ∧
      v.hostOnly (s.desc r h (persistGetBody h first count host b))) ∧
    (slotsBad first count host = none → v.posts (s.desc r h (persistGetBody h first count host false)) h 7 2 ∧
      v.hostOnly (s.desc r h (persistGetBody h first count host false))) ∧
    (slotsBad first count host = none → v.posts (s.desc r h (persistGetBody h first count host true)) h 0 0 ∧
      (s.desc r h (persistGetBody h first count host true)).host.mem = memWrites v.host.mem host (memReads v.axl.user (64 * first) (64 * count)) ∧
      v.hostOnly (s.desc r h (persistGetBody h first count host true))) := by
  refine ⟨fun k b hk => State.desc_refused hv (by rw [persistGetBody, hk]; rfl), fun hb => State.desc_posts hv (e := false) ?_, fun hb => ?_⟩
  · rw [persistGetBody, hb]
    dsimp only
    rw [hv.2.2.2]
    rfl
  · have hb' : persistGetBody h first count host true v =
        .yes ((v.hostWrite host (memReads v.axl.user (64 * first) (64 * count))).done h false 0 0) := by
      rw [persistGetBody, hb]
      dsimp only
      rw [hv.2.2.2]
      rfl
    obtain ⟨g1, g2, g3⟩ := State.desc_answers hv hb' (v.hostWrite_hostSame _ _)
    exact ⟨g1, g3, (v.hostWrite_hostOnly _ _).trans g2⟩

theorem persistStore_spec {fail : List Nat} {w : State}
    (hw : w = v.dirtyRecs.foldl (fun (x : State) (k : Nat) => x.storeRec k (!fail.contains k) (!fail.contains k)) v) :
    ((∀ k, k ∈ v.dirtyRecs → k ∉ fail) → s.desc r h (persistStoreBody h fail) = v.accept (w.ok h 0)) ∧
    ((∃ k, k ∈ v.dirtyRecs ∧ k ∈ fail) → s.desc r h (persistStoreBody h fail) = v.accept (w.done h false 7 3)) := by
  have hs : v.hostSame w := by
    rw [hw]
    exact Kept.hostSame (P := [.regs, .media, .xpt, .fst, .fstMem, .che, .sou, .aud, .vec, .syn, .flt, .axl, .hsf])
      (Kept.foldl (.refl _ v) fun _ k hk => State.storeRec_kept hk k _ _ (Sub.self _)) (by decide)
  have hb : persistStoreBody h fail v = if v.dirtyRecs.any fail.contains then .yes (w.done h false 7 3) else .yes (w.done h false 0 0) := by
    rw [persistStoreBody, hv.2.2.2, if_neg (by decide)]
    dsimp only
    rw [← hw]
    rfl
  refine ⟨fun hn => State.desc_accepts hv (hb.trans (if_neg ?_)) hs, fun ⟨k, h1, h2⟩ => State.desc_accepts hv (hb.trans (if_pos ?_)) hs⟩
  · rw [any_eq_false_of_forall fun k hk => by simpa using hn k hk]
    exact Bool.false_ne_true
  · exact List.any_eq_true.mpr ⟨k, h1, by simpa using h2⟩

end slots

/-- A descriptor command's run, from what its descriptor does. -/
theorem desc_run {s : State} {r : DescRule} {h : Hdr} {body : State → Adm} {o : Host.Outcome State Fault Refusal} {P : State → Prop}
    (e : o = .next (s.desc r h body)) (hp : P (s.desc r h body)) : ∃ t, o = .next t ∧ P t := ⟨_, e, hp⟩

theorem nop_run {s v : State} {h : Hdr} (hv : s.admits (queryRule 0x01 []) h v) :
    ∃ t, exec (.nop h) s = .next t ∧ v.posts t h 0 0 ∧ v.hostOnly t :=
  desc_run rfl (State.desc_posts hv (e := false) (if_pos hv.2.2.2))

theorem persistGet_exec {s : State} {h : Hdr} {first count host : Nat} {b : Bool} : exec (.persistGet h first count host b) s =
    .next (s.desc { op := 0x61, rfn := 0, pay := slotPay first count host, standby := true } h (persistGetBody h first count host b)) := by
  have e : exec (.persistGet h first count host b) s = execPersistGet h first count host b s := rfl
  rw [e, execPersistGet]
  refine congrArg (fun b => Host.Outcome.next (s.desc _ h b)) (funext fun v => ?_)
  unfold persistGetBody
  cases slotsBad first count host <;> rfl

/-- A transmit flow that is disabled leaves the table, and its counters stay. -/
theorem flowTx_closed {s v : State} {h : Hdr} {f : FlowReq} (hv : s.admits (flowRule 0x11 f) h v) {k : Nat} (hkey : k = 1024 * f.kind + f.index)
    (hk : f.kind ≤ 2) (hi : f.index < if f.kind = 1 then 1024 else 256) {x : Flow} (he : f.en = false) (hx : tabFind v.media.txFlow k = some x) :
    ∃ t, exec (.flowTxCfg h f) s = .next t ∧ v.posts t h 0 0 ∧ tabFind t.media.txFlow k = none ∧ tabGet {} t.media.txCnt k = x.cnt := by
  obtain ⟨-, h1, h2⟩ := flow_closed (rx := false) hv hk hi hkey he hx
  refine desc_run rfl ⟨h1, ?_, ?_⟩
  · rw [State.hostOnly.media h2]
    exact tabFind_del_self v.media.txFlow k
  · rw [State.hostOnly.media h2]
    exact tabGet_set_self {} v.media.txCnt k x.cnt

/-- Settles O43: every descriptor by the outcome its body answers once the common checks have passed. -/
theorem hostDescriptors : Obligations.HostDescriptors := by
  unfold Obligations.HostDescriptors
  refine ⟨fun s v h hv => nop_run hv, fun s v h q hv => ⟨?_, ?_, ?_, ?_⟩, fun s v h q hv => ⟨?_, ?_, ?_, ?_⟩, fun s v h f hv => ⟨?_, ?_, ?_⟩,
    fun s v h f hv => ⟨?_, ?_, ?_⟩, fun s v h first count host data hv => ?_, fun s v h first count host hv => ?_, fun s v w h fail hv hw => ?_⟩
  · exact fun hc => desc_run rfl (query_class hv (.inr hc))
  · exact fun hc hf => desc_run rfl (query_first hv (Nat.zero_le _) hc hf)
  · exact fun k hc hk => desc_run rfl (query_param hv (Nat.zero_le _) hc hk)
  · exact fun hc hf hn ha => ⟨fun hw h0 => desc_run rfl (query_fault hv (Nat.zero_le _) hc hf hn ha hw h0),
      fun hw l hl => desc_run rfl (query_written hv (Nat.zero_le _) hc hf hn ha hw hl)⟩
  · exact fun hc => desc_run rfl (query_class hv (hc.imp Nat.lt_one_iff.mpr id))
  · exact fun h1 hc hf => desc_run rfl (query_first hv h1 hc hf)
  · exact fun k h1 hc hk => desc_run rfl (query_param hv h1 hc hk)
  · exact fun h1 hc hf hn ha => ⟨fun hw h0 => desc_run rfl (query_fault hv h1 hc hf hn ha hw h0),
      fun hw l hl => desc_run rfl (query_written hv h1 hc hf hn ha hw hl)⟩
  · exact fun hk => desc_run rfl (flow_kind hv hk)
  · exact fun hk hi => desc_run rfl (flow_index hv hk hi)
  · refine fun k hkey hk hi => ⟨fun x he hx => desc_run rfl (flow_runs (rx := true) hv hk hi hkey he hx),
      fun x he hx => congrArg Host.Outcome.next (flow_closed (rx := true) hv hk hi hkey he hx).1,
      fun he hx => desc_run rfl (flow_none (rx := true) hv hk hi hkey he hx), fun he hx => ⟨?_, ?_, ?_, ?_, ?_⟩⟩
    · exact fun ha => desc_run rfl (flow_addr (rx := true) hv hk hi hkey he hx ha)
    · exact fun o ha ho => desc_run rfl (flow_data (rx := true) hv hk hi hkey he hx ha ho)
    · exact fun ha hb hz hw => desc_run rfl (flow_wire (rx := true) hv hk hi hkey he hx ha hb hz hw)
    · exact fun ha hb hz hw hn hp => desc_run rfl (flow_path (rx := true) hv hk hi hkey he hx ha hb hz hw (by rw [if_pos rfl, if_neg hn, hp]))
    · refine fun p ha hb hz hw hp => ?_
      rw [← (if_pos rfl : (if true = true then v.pathNeed f.kind f.flow else 0) = _)] at hp
      exact ⟨fun hf => congrArg Host.Outcome.next (flow_opened (rx := true) hv hk hi hkey he hx ha hb hz hw hp hf),
        fun c hf => desc_run rfl (flow_short (rx := true) hv hk hi hkey he hx ha hb hz hw hp hf)⟩
  · exact fun hk => desc_run rfl (flow_kind hv hk)
  · exact fun hk hi => desc_run rfl (flow_index hv hk hi)
  · refine fun k hkey hk hi => ⟨fun x he hx => desc_run rfl (flow_runs (rx := false) hv hk hi hkey he hx),
      fun x he hx => flowTx_closed hv hkey hk hi he hx,
      fun he hx => desc_run rfl (flow_none (rx := false) hv hk hi hkey he hx), fun he hx => ⟨?_, ?_, ?_, ?_⟩⟩
    · exact fun ha => desc_run rfl (flow_addr (rx := false) hv hk hi hkey he hx ha)
    · exact fun o ha ho => desc_run rfl (flow_data (rx := false) hv hk hi hkey he hx ha ho)
    · exact fun ha hb hz hw => desc_run rfl (flow_wire (rx := false) hv hk hi hkey he hx ha hb hz hw)
    · exact fun ha hb hz hw => ⟨fun hf => congrArg Host.Outcome.next (flow_opened (rx := false) (p := []) hv hk hi hkey he hx ha hb hz hw (if_pos (if_neg Bool.false_ne_true)) hf),
        fun c hf => desc_run rfl (flow_short (rx := false) (p := []) hv hk hi hkey he hx ha hb hz hw (if_pos (if_neg Bool.false_ne_true)) hf)⟩
  · obtain ⟨h1, h2, h3⟩ := persistPut_spec (first := first) (count := count) (host := host) hv data
    exact ⟨fun k hk => desc_run rfl (h1 k hk), fun d hb hd => desc_run rfl (h2 d hb hd), fun hb hd => desc_run rfl (h3 hb hd)⟩
  · obtain ⟨h1, h2, h3⟩ := persistGet_spec (first := first) (count := count) (host := host) hv
    exact ⟨fun k b hk => desc_run persistGet_exec (h1 k b hk), fun hb => desc_run persistGet_exec (h2 hb), fun hb => desc_run persistGet_exec (h3 hb)⟩
  · obtain ⟨h1, h2⟩ := persistStore_spec (fail := fail) hv hw
    exact ⟨fun hn => congrArg Host.Outcome.next (h1 hn), fun hk => congrArg Host.Outcome.next (h2 hk)⟩

end Sys2Proof.Machine

/-! LV SPI and the window of the LV agent (O44). -/
namespace Sys2Proof.Machine

/-! ### Frames -/

section spi
variable {s : State}

theorem State.lvWrites_of_silent (h : s.lvAnswers = false) : s.lvWrites = false := by
  rw [State.lvWrites, h, Bool.false_and]

theorem exec_lvSpiRead_silent (a : Nat) (h : s.lvAnswers = false) : exec (.lvSpiRead a) s = .next { s with lv := { s.lv with miso := none } } := by
  have e : exec (.lvSpiRead a) s = execLvSpiRead a s := rfl
  rw [e, execLvSpiRead, h, Bool.not_false, if_pos rfl]

theorem exec_irqStatRead (s : State) :
    exec .irqStatRead s = .next (if s.lvAnswers then s.lvReadIrq else { s with lv := { s.lv with miso := none } }) := rfl

theorem exec_lvSpiRead_irq (h : s.lvAnswers = true) (hp : s.lvReg 127 = 0) : exec (.lvSpiRead 8) s = .next s.lvReadIrq := by
  have e : exec (.lvSpiRead 8) s = execLvSpiRead 8 s := rfl
  rw [e, execLvSpiRead, h, if_neg (by decide), if_pos ⟨rfl, hp⟩]

theorem exec_lvSpiRead (a : Nat) (h : s.lvAnswers = true) (ha : a ≠ 8 ∨ s.lvReg 127 ≠ 0) :
    exec (.lvSpiRead a) s = .next { s with lv := { s.lv with miso := some (s.lvRead a) } } := by
  have e : exec (.lvSpiRead a) s = execLvSpiRead a s := rfl
  rw [e, execLvSpiRead, h, if_neg (by decide), if_neg (fun ⟨h1, h2⟩ => ha.elim (· h1) (· h2))]

/-- Page 0 of the image. -/
theorem State.lvRead_page0 (hp : s.lvReg 127 = 0) :
    s.lvRead 0 = 0x3232 ∧ s.lvRead 1 = 0x0103 ∧ ∀ b, 8 < b → b ≠ 127 → s.lvRead b = 0 := by
  refine ⟨by simp [State.lvRead, hp], by simp [State.lvRead, hp], fun b h8 hb => ?_⟩
  have : b ≠ 0 ∧ b ≠ 1 ∧ b ≠ 2 ∧ b ≠ 3 ∧ b ≠ 4 ∧ b ≠ 7 ∧ b ≠ 5 ∧ b ≠ 6 ∧ b ≠ 8 := by omega
  simp [State.lvRead, hp, hb, this]

/-- Page 1 shows OUT_SEL. -/
theorem State.lvRead_page1 (hp : s.lvReg 127 = 1) {o : Nat} (ho : o < 32) : s.lvRead o = s.lvReg (128 + o) := by
  have : o ≠ 127 ∧ ¬ 32 ≤ o := by omega
  simp [State.lvRead, hp, this]

theorem State.lvReg_setLvReg_self (s : State) (k : Nat) (v : BitVec 16) : (s.setLvReg k v).lvReg k = v := tabGet_set_self _ _ _ _

theorem State.lvReg_setLvReg_ne (s : State) {k j : Nat} (v : BitVec 16) (h : j ≠ k) : (s.setLvReg k v).lvReg j = s.lvReg j :=
  tabGet_set_ne _ _ _ _ h

theorem lvMask_eq_zero {k : Nat} (h : k ∉ [2, 3, 4, 7, 127]) : lvMask k = 0 := by
  simp only [List.mem_cons, List.not_mem_nil, or_false, not_or] at h
  simp [lvMask, h]

theorem exec_lvRegisterWrite_taken {a v k : Nat} (hw : s.lvWrites = true) (hk : k = if a = 0x7F then 127 else 128 * (s.lvReg 127).toNat + a)
    (hm : lvMask k ≠ 0) : exec (.lvRegisterWrite a v) s = .next (s.setLvReg k (BitVec.ofNat 16 (v &&& lvMask k))) := by
  have e : exec (.lvRegisterWrite a v) s = execLvRegisterWrite a v s := rfl
  rw [e, execLvRegisterWrite, ← hk, hw]
  exact congrArg _ (if_pos (by simpa using hm))

theorem exec_lvRegisterWrite_ignored {a v : Nat}
    (h : s.lvWrites = false ∨ lvMask (if a = 0x7F then 127 else 128 * (s.lvReg 127).toNat + a) = 0) : exec (.lvRegisterWrite a v) s = .next s := by
  have e : exec (.lvRegisterWrite a v) s = execLvRegisterWrite a v s := rfl
  rw [e, execLvRegisterWrite]
  exact congrArg _ (if_neg (by rcases h with h | h <;> simp [h]))

/-- The writes an agent that takes writes stores. -/
theorem lvRegisterWrite_spec (v : Nat) (hw : s.lvWrites = true) :
    (∃ t, exec (.lvRegisterWrite 127 v) s = .next t ∧ t.lvReg 127 = BitVec.ofNat 16 (v % 4) ∧ ∀ k, k ≠ 127 → t.lvReg k = s.lvReg k) ∧
    (s.lvReg 127 = 0 → ∀ a < 127, lvMask a ≠ 0 → ∃ t, exec (.lvRegisterWrite a v) s = .next t ∧ t.lvReg a = BitVec.ofNat 16 (v &&& lvMask a) ∧
      ∀ k, k ≠ a → t.lvReg k = s.lvReg k) ∧
    (s.lvReg 127 = 0 → ∀ a < 127, a ∉ [2, 3, 4, 7] → exec (.lvRegisterWrite a v) s = .next s) ∧
    (s.lvReg 127 ≠ 0 → ∀ a < 127, exec (.lvRegisterWrite a v) s = .next s) := by
  have page0 {a : Nat} (hp : s.lvReg 127 = 0) (ha : a < 127) : a = if a = 0x7F then 127 else 128 * (s.lvReg 127).toNat + a := by
    rw [if_neg (by omega), hp]
    exact (Nat.zero_add a).symm
  refine ⟨⟨_, exec_lvRegisterWrite_taken (k := 127) hw rfl (by decide), ?_, fun k hk => s.lvReg_setLvReg_ne _ hk⟩,
    fun hp a ha hm => ⟨_, exec_lvRegisterWrite_taken hw (page0 hp ha) hm, s.lvReg_setLvReg_self _ _, fun k hk => s.lvReg_setLvReg_ne _ hk⟩,
    fun hp a ha hn => exec_lvRegisterWrite_ignored (.inr ?_), fun hp a ha => exec_lvRegisterWrite_ignored (.inr (lvMask_eq_zero ?_))⟩
  · rw [State.lvReg_setLvReg_self]
    exact congrArg _ (Nat.and_two_pow_sub_one_eq_mod v 2)
  · rw [← page0 hp ha]
    refine lvMask_eq_zero fun hm => ?_
    simp only [List.mem_cons, List.not_mem_nil, or_false, not_or] at hm hn
    omega
  · have hpos : 0 < (s.lvReg 127).toNat := Nat.pos_of_ne_zero fun h0 => hp (BitVec.eq_of_toNat_eq h0)
    rw [if_neg (by omega)]
    simp only [List.mem_cons, List.not_mem_nil, or_false, not_or]
    omega

theorem lvFrameError_spec {n : Nat} (h : s.lvAnswers = true) (hn : n ≠ 24) :
    ∃ t, exec (.lvFrameError n) s = .next t ∧ t.get R.LVP_HIST F.LVP_HIST_FRAME_ERR = 1 ∧
      (t.rd R.LVP_FRAME_ERR_CNT).toNat = min 0xFFFFFFFF ((s.rd R.LVP_FRAME_ERR_CNT).toNat + 1) ∧ t.lv = s.lv := by
  have e : exec (.lvFrameError n) s = execLvFrameError n s := rfl
  have hc : (s.lvAnswers && n != 24) = true := by simpa [h] using hn
  refine ⟨_, e.trans (congrArg Host.Outcome.next (if_pos hc)), State.get_raise _ Hist.lvp F.LVP_HIST_FRAME_ERR rfl (by decide), ?_, ?_⟩
  · rw [State.rd_raise_ne _ _ _ (by decide), State.rd_inc]
  · rw [State.raise_lv, State.inc_lv]

theorem exec_lvFrameError_ignored {n : Nat} (h : s.lvAnswers = false ∨ n = 24) : exec (.lvFrameError n) s = .next s := by
  have e : exec (.lvFrameError n) s = execLvFrameError n s := rfl
  rw [e, execLvFrameError]
  exact congrArg _ (if_neg (by rcases h with h | h <;> simp [h]))

theorem State.lvIrqLow_of_held {b : Bool} (h : s.lv.irqHold = some b) : s.lvIrqLow = b := by
  rw [State.lvIrqLow, h]

theorem State.lvIrqLow_iff (h : s.lv.irqHold = none) : s.lvIrqLow = true ↔ (s.lvOn = true ∧ s.role ≠ 2 ∧ s.lifecycle ≠ 4 ∧
    (s.lvReg 2).getLsbD 0 = true ∧ s.lv.irq &&& (s.lvReg 7).toNat ≠ 0) := by
  rw [State.lvIrqLow, h]
  simp only [Bool.and_eq_true, bne_iff_ne, and_assoc]

end spi

/-! ### The window -/

section window
variable {s w : State} {v t : Nat}

/-- The window registers as written. -/
def State.winKept (s : State) (v : Nat) : State :=
  ((s.set R.LVP_WIN F.LVP_WIN_RX_BASE (v % 128)).set R.LVP_WIN F.LVP_WIN_TX_BASE (v / 256 % 128)).set R.LVP_WIN F.LVP_WIN_AES_Q (v / 65536 % 4)

theorem State.winKept_onlyRegs (s : State) (v : Nat) : s.onlyRegs (s.winKept v) [R.LVP_WIN] :=
  ((s.set_onlyRegs _ _ (.head _)).trans (State.set_onlyRegs _ _ _ (.head _))).trans (State.set_onlyRegs _ _ _ (.head _))

/-- The window registers read back what was written. -/
theorem State.winKept_get (s : State) (v : Nat) : (s.winKept v).get R.LVP_WIN F.LVP_WIN_RX_BASE = v % 128 ∧
    (s.winKept v).get R.LVP_WIN F.LVP_WIN_TX_BASE = v / 256 % 128 ∧ (s.winKept v).get R.LVP_WIN F.LVP_WIN_AES_Q = v / 65536 % 4 := by
  unfold State.winKept
  refine ⟨?_, ?_, ?_⟩
  · rw [State.get_set_apart _ _ _ _ _ (by decide) (by decide), State.get_set_apart _ _ _ _ _ (by decide) (by decide)]
    exact State.get_set_fits _ _ _ (by decide) (Nat.mod_lt _ (by decide))
  · rw [State.get_set_apart _ _ _ _ _ (by decide) (by decide)]
    exact State.get_set_fits _ _ _ (by decide) (Nat.mod_lt _ (by decide))
  · exact State.get_set_fits _ _ _ (by decide) (Nat.mod_lt _ (by decide))

/-- A window that is not in range, or whose lanes, takes or outputs are in use, is not taken. -/
theorem State.winOk_false {rx tx q : Nat} (hm : w.media = s.media) (hl : w.lv = s.lv) (hx : w.xpt = s.xpt)
    (h : 40 < rx ∨ 40 < tx ∨ s.lv.takes ≠ [] ∨ s.lv.outs.any (fun p => p.2.en) = true ∨ (∃ i, i < 32 ∧ (s.route (tx + i)).isSome = true) ∨
      s.winUngrouped rx tx = false) : w.winOk rx tx q = false := by
  have hu : w.winUngrouped rx tx = s.winUngrouped rx tx := by
    simp only [State.winUngrouped, State.rx, State.tx, State.rxMember, State.txMember, hm]
  have hr : ∀ i, w.route i = s.route i := fun i => by rw [State.route, State.route, hx]
  refine Bool.eq_false_iff.mpr fun ho => ?_
  simp only [State.winOk, hu, hr, hl, Bool.and_eq_true, decide_eq_true_eq, List.isEmpty_iff, Bool.not_eq_true', List.all_eq_true, List.mem_range] at ho
  obtain ⟨⟨⟨⟨⟨⟨hrx, htx⟩, ht⟩, hout⟩, hg⟩, hroute⟩, -⟩ := ho
  rcases h with h | h | h | h | ⟨i, hi, h⟩ | h
  · omega
  · omega
  · exact h ht
  · rw [hout] at h
    exact Bool.false_ne_true h
  · have := hroute i hi
    rw [Option.isNone_iff_eq_none.mp this] at h
    exact Bool.false_ne_true h
  · rw [hg] at h
    exact Bool.false_ne_true h.symm

theorem exec_lvpWinWrite (h : s.upFor R.LVP_WIN) : exec (.lvpWinWrite v t) s = .next (s.lvpWinWrite v t) := by
  have e : exec (.lvpWinWrite v t) s = execLvpWinWrite v t s := rfl
  rw [e, execLvpWinWrite, State.byHost_upFor h]

theorem State.lvpWinWrite_unmixed (h : s.persona ≠ 2) : s.lvpWinWrite v t = s.at_ t := if_pos (.inl h)

theorem State.lvpWinWrite_mixed (h : s.persona = 2) (hl : s.lifecycle ≠ 4) (hw : w = (s.at_ t).winKept v) : s.lvpWinWrite v t =
    (if w.winOk (v % 128) (v / 256 % 128) (v / 65536 % 4) then w.moveWin (v % 128) (v / 256 % 128) (v / 65536 % 4) t
      else w.raise Hist.lvp F.LVP_HIST_WIN_ERR).afterWrite (s.at_ t) := by
  subst hw
  have hn : ¬ ((s.at_ t).persona ≠ 2 ∨ (s.at_ t).lifecycle = 4) := fun hx => hx.elim (· h) hl
  exact if_neg hn

theorem lvpWinWrite_spec (hu : s.upFor R.LVP_WIN) : (s.persona ≠ 2 → exec (.lvpWinWrite v t) s = .next (s.at_ t)) ∧
    (∀ w, s.persona = 2 → w = (s.at_ t).winKept v →
      ((40 < v % 128 ∨ 40 < v / 256 % 128 ∨ s.lv.takes ≠ [] ∨ s.lv.outs.any (fun p => p.2.en) = true ∨
        (∃ i, i < 32 ∧ (s.route (v / 256 % 128 + i)).isSome = true) ∨
        s.winUngrouped (v % 128) (v / 256 % 128) = false) → w.winOk (v % 128) (v / 256 % 128) (v / 65536 % 4) = false) ∧
      (w.winOk (v % 128) (v / 256 % 128) (v / 65536 % 4) = false → ∃ u, u = w.raise Hist.lvp F.LVP_HIST_WIN_ERR ∧
        exec (.lvpWinWrite v t) s = .next (u.afterWrite (s.at_ t)) ∧
        u.get R.LVP_WIN F.LVP_WIN_RX_BASE = v % 128 ∧ u.get R.LVP_WIN F.LVP_WIN_TX_BASE = v / 256 % 128 ∧ u.get R.LVP_WIN F.LVP_WIN_AES_Q = v / 65536 % 4 ∧
        u.get R.LVP_HIST F.LVP_HIST_WIN_ERR = 1 ∧ u.lv = s.lv) ∧
      (w.winOk (v % 128) (v / 256 % 128) (v / 65536 % 4) = true →
        exec (.lvpWinWrite v t) s = .next ((w.moveWin (v % 128) (v / 256 % 128) (v / 65536 % 4) t).afterWrite (s.at_ t)))) := by
  refine ⟨fun h => (exec_lvpWinWrite hu).trans (congrArg _ (State.lvpWinWrite_unmixed h)), fun w h hw => ⟨?_, fun hf => ⟨_, rfl, ?_, ?_, ?_, ?_, ?_, ?_⟩, fun hf => ?_⟩⟩
  all_goals have ho : (s.at_ t).onlyRegs w [R.LVP_WIN] := hw ▸ State.winKept_onlyRegs _ v
  · exact State.winOk_false ho.media ho.lv ho.xpt
  · rw [exec_lvpWinWrite hu, State.lvpWinWrite_mixed h hu.1.2 hw, hf, if_neg Bool.false_ne_true]
  · rw [State.get_raise_ne _ _ _ _ (by decide), hw, (State.winKept_get _ v).1]
  · rw [State.get_raise_ne _ _ _ _ (by decide), hw, (State.winKept_get _ v).2.1]
  · rw [State.get_raise_ne _ _ _ _ (by decide), hw, (State.winKept_get _ v).2.2]
  · exact State.get_raise _ _ _ rfl (by decide)
  · rw [State.raise_lv, ho.lv, State.at_lv]
  · rw [exec_lvpWinWrite hu, State.lvpWinWrite_mixed h hu.1.2 hw, hf, if_pos rfl]

end window

/-- Settles O44: the frames by whether the agent answers and takes writes, the window by the conditions on it. -/
theorem lvAgent : Obligations.LvAgent := by
  unfold Obligations.LvAgent
  refine ⟨⟨fun s a h => ⟨exec_lvSpiRead_silent a h, ?_, fun v => exec_lvRegisterWrite_ignored (.inl (State.lvWrites_of_silent h)),
    exec_lvFrameError_ignored (.inl h), ?_⟩, fun s h => ⟨?_, fun hp => ?_⟩, fun s a h ha => ⟨exec_lvSpiRead a h ha, State.lvRead_page0,
    fun hp o ho => State.lvRead_page1 hp ho, by simp [State.lvRead]⟩, fun s v hw => lvRegisterWrite_spec v hw,
    fun s a v hw => exec_lvRegisterWrite_ignored (.inl hw), fun s n h hn => lvFrameError_spec h hn, fun s => exec_lvFrameError_ignored (.inr rfl),
    fun s h => ?_, fun s b h => State.lvIrqLow_of_held h, fun s h => State.lvIrqLow_iff h⟩, fun s v t hu => lvpWinWrite_spec hu⟩
  · rw [exec_irqStatRead, h, if_neg Bool.false_ne_true]
  · exact congrArg Host.Outcome.next (if_neg (by rw [h]; exact Bool.false_ne_true))
  · rw [exec_irqStatRead, h, if_pos rfl]
    rfl
  · rw [exec_irqStatRead, h, if_pos rfl, exec_lvSpiRead_irq h hp]
  · exact congrArg Host.Outcome.next (if_pos h)

end Sys2Proof.Machine

/-! LV takes: their latch, their arming and their switches (O45). -/
namespace Sys2Proof.Machine

variable {s : State} {t : Nat}

/-! ### The latch -/

/-- A take is ignored when firmware does not run yet or a switch of an output it asks for is pending. -/
theorem State.lvLatch_busy {l : List Nat} (hw : s.lvWrites = true) (hs : s.lvSigned = false)
    (hb : s.lv.ready = false ∨ ∃ o ∈ l, (tabFind s.lv.pend o).isSome = true) :
    s.lvLatch l = { s with lv := { s.lv with irq := s.lv.irq ||| 2 } } := by
  have hc : (!s.lv.ready || l.any fun o => (tabFind s.lv.pend o).isSome) = true := by
    rw [Bool.or_eq_true, Bool.not_eq_true', List.any_eq_true]
    exact hb
  unfold State.lvLatch
  rw [hw, hs, hc, Bool.not_true, if_neg Bool.false_ne_true, if_neg Bool.false_ne_true, if_pos rfl]
  rfl

theorem lvTakeWrite_spec (v : Nat) : (v % 2 = 1 → exec (.lvTakeWrite v t) s = .next ((s.at_ t).lvLatch (List.range 32))) ∧
    (v % 2 = 0 → exec (.lvTakeWrite v t) s = .next (s.at_ t)) := by
  have e : exec (.lvTakeWrite v t) s = execLvTakeWrite v t s := rfl
  rw [e]
  exact ⟨fun h => congrArg Host.Outcome.next (if_pos h), fun h => congrArg Host.Outcome.next (if_neg (by omega))⟩

/-- An edge of LV_TAKE_N by its length. -/
theorem exec_lvTakeNEdge (n : Nat) : exec (.lvTakeNEdge n t) s = .next
    (if !(s.lvReg 2).getLsbD 1 || s.rst.warmRun then s.at_ t
    else if n < 50 then s.at_ t
    else if 100 ≤ n then (s.at_ t).lvLatch (List.range 32)
    else if (Config.fresh 1 s.free).getLsbD 0 then ({ s.at_ t with free := s.free + 1 } : State).lvLatch (List.range 32)
      else { s.at_ t with free := s.free + 1 }) := rfl

theorem lvTakeNEdge_spec (n : Nat) :
    ((s.lvReg 2).getLsbD 1 = true → s.rst.warmRun = false → 100 ≤ n → exec (.lvTakeNEdge n t) s = .next ((s.at_ t).lvLatch (List.range 32))) ∧
    (((s.lvReg 2).getLsbD 1 = false ∨ s.rst.warmRun = true ∨ n < 50) → exec (.lvTakeNEdge n t) s = .next (s.at_ t)) ∧
    ((s.lvReg 2).getLsbD 1 = true → s.rst.warmRun = false → 50 ≤ n → n < 100 → exec (.lvTakeNEdge n t) s =
      .next (if (Config.fresh 1 s.free).getLsbD 0 then ({ s.at_ t with free := s.free + 1 } : State).lvLatch (List.range 32)
        else { s.at_ t with free := s.free + 1 })) := by
  rw [exec_lvTakeNEdge]
  refine ⟨fun he hw hn => ?_, fun h => ?_, fun he hw hl hn => ?_⟩
  · rw [he, hw, if_neg (by decide), if_neg (by omega), if_pos hn]
  · by_cases hc : (!(s.lvReg 2).getLsbD 1 || s.rst.warmRun) = true
    · rw [if_pos hc]
    · rw [if_neg hc, if_pos]
      rcases h with h | h | h
      · exact absurd (by rw [h]; rfl) hc
      · exact absurd (by rw [h, Bool.or_true]) hc
      · exact h
  · rw [he, hw, if_neg (by decide), if_neg (by omega), if_neg (by omega)]

/-! ### OUT_SEL and OUT_CTL -/

/-- A write of OUT_SEL, with what AUTO_TAKE says of it. -/
theorem exec_outSelWrite (o : Fin 32) (v : Nat) (hw : s.lvWrites = true) : exec (.outSelWrite o v t) s =
    .next (if (s.lvReg 2).getLsbD 2 then ((s.at_ t).setLvReg (128 + o) (BitVec.ofNat 16 (v &&& 0x80FF))).lvLatch [o.val]
      else (s.at_ t).setLvReg (128 + o) (BitVec.ofNat 16 (v &&& 0x80FF))) := by
  have e : exec (.outSelWrite o v t) s = execOutSelWrite o v t s := rfl
  have hw' : (s.at_ t).lvWrites = true := hw
  have hr : ((s.at_ t).setLvReg (128 + o) (BitVec.ofNat 16 (v &&& 0x80FF))).lvReg 2 = s.lvReg 2 := State.lvReg_setLvReg_ne _ _ (by omega)
  rw [e, execOutSelWrite]
  dsimp only
  rw [hw', hr, Bool.not_true, if_neg Bool.false_ne_true]

theorem outSelWrite_spec (o : Fin 32) (v : Nat) : (s.lvWrites = false → exec (.outSelWrite o v t) s = .next (s.at_ t)) ∧
    (s.lvWrites = true → (s.lvReg 2).getLsbD 2 = false → ∃ u, exec (.outSelWrite o v t) s = .next u ∧ u.lvReg (128 + o) = BitVec.ofNat 16 (v &&& 0x80FF) ∧
      u.lv.pend = s.lv.pend ∧ u.lv.outs = s.lv.outs ∧ ∀ k, k ≠ 128 + o.val → u.lvReg k = s.lvReg k) ∧
    (s.lvWrites = true → (s.lvReg 2).getLsbD 2 = true → ∃ u, u = (s.at_ t).setLvReg (128 + o) (BitVec.ofNat 16 (v &&& 0x80FF)) ∧
      exec (.outSelWrite o v t) s = .next (u.lvLatch [o.val])) := by
  refine ⟨fun hw => ?_, fun hw ha => ⟨(s.at_ t).setLvReg (128 + o) (BitVec.ofNat 16 (v &&& 0x80FF)), ?_, State.lvReg_setLvReg_self _ _ _, rfl, rfl, fun k hk => State.lvReg_setLvReg_ne _ _ hk⟩,
    fun hw ha => ⟨_, rfl, ?_⟩⟩
  · have hw' : (s.at_ t).lvWrites = false := hw
    exact congrArg Host.Outcome.next (if_pos (by rw [hw']; rfl))
  · rw [exec_outSelWrite o v hw, ha, if_neg Bool.false_ne_true]
  · rw [exec_outSelWrite o v hw, ha, if_pos rfl]

theorem outCtlWrite_spec (o : Fin 32) (v : Nat) : ((s.lvWrites = false ∨ s.lvSigned = true) → exec (.outCtlWrite o v t) s = .next (s.at_ t)) ∧
    (s.lvWrites = true → s.lvSigned = false → ∃ u, exec (.outCtlWrite o v t) s = .next u ∧ u.lvReg (384 + o) = BitVec.ofNat 16 v ∧
      u.lv.pend = s.lv.pend ∧ u.lv.outs = s.lv.outs) := by
  have e : exec (.outCtlWrite o v t) s = execOutCtlWrite o v t s := rfl
  have hw : (s.at_ t).lvWrites = s.lvWrites := rfl
  have hs : (s.at_ t).lvSigned = s.lvSigned := rfl
  rw [e, execOutCtlWrite]
  dsimp only
  rw [hw, hs]
  refine ⟨fun h => congrArg _ (if_pos (by rcases h with h | h <;> simp [h])), fun h1 h2 => ⟨_, congrArg _ (if_neg (by simp [h1, h2])), ?_⟩⟩
  obtain ⟨w, hw⟩ : ∃ w, w = (s.at_ t).setLvReg (384 + o) (BitVec.ofNat 16 v) := ⟨_, rfl⟩
  have hk : ((w.txPower (w.lvDst o) (decide (w.outCtl o < 32768)) false t).lvAes_).lv = w.lv :=
    (State.lvAes__kept (State.txPower_kept (.refl [.regs, .media, .aud, .vec] w) _ _ _ _ (Sub.of (Sub.self _) rfl)) (Sub.of (Sub.self _) rfl)).2.2
      .lv (by decide)
  rw [← hw]
  refine ⟨?_, ?_, ?_⟩
  · rw [State.lvReg, hk, hw]
    exact State.lvReg_setLvReg_self _ _ _
  · rw [hk, hw]
    rfl
  · rw [hk, hw]
    rfl

/-! ### Arming and switching -/

theorem lvTakeArm_spec : (s.lvAnswers = true → exec (.lvTakeArm t) s = .next ((s.at_ t).lvArm t)) ∧
    (s.lvAnswers = false → exec (.lvTakeArm t) s = .next s) := by
  have e : exec (.lvTakeArm t) s = execLvTakeArm t s := rfl
  rw [e]
  exact ⟨fun h => congrArg Host.Outcome.next (if_pos h), fun h => congrArg Host.Outcome.next (if_neg (by rw [h]; exact Bool.false_ne_true))⟩

/-- A pending switch arms: it takes its point, or switches at once where its timing does not run. -/
theorem State.lvArm_single {o : Nat} {w : LvSwitch} (hf : s.forwards = false) (hp : s.lv.pend = [(o, w)]) (hd : w.due = none) :
    (∀ q, s.lvDue o w t = some q → s.lvArm t = { s with free := s.free + 1, lv := { s.lv with pend := [(o, { w with due := some q })] } }) ∧
    (s.lvDue o w t = none → s.lvArm t = ({ s with free := s.free + 1 } : State).lvSwitch o t) := by
  have hput (x : LvSwitch) : tabPut [(o, w)] o x = [(o, x)] := by simp [tabPut, tabDel, tabIns]
  have hl : (s.lv.pend.filter fun p => p.2.due.isNone) = [(o, w)] := by simp [hp, hd]
  constructor
  · intro q hq
    have hf' : ({ s with lv := { s.lv with pend := tabPut s.lv.pend o { w with due := some q } } } : State).forwards = false := hf
    unfold State.lvArm
    rw [hl]
    dsimp only [List.foldl_cons, List.foldl_nil]
    simp only [hq]
    rw [hf', if_neg Bool.false_ne_true]
    dsimp only
    rw [hp, hput]
    rfl
  · intro hq
    unfold State.lvArm
    rw [hl]
    dsimp only [List.foldl_cons, List.foldl_nil]
    simp only [hq]
    rw [hf, if_neg Bool.false_ne_true]
    rw [hl]
    rfl

theorem lvTakeArm_single {o : Nat} {w : LvSwitch} (ha : s.lvAnswers = true) (hf : s.forwards = false) (hp : s.lv.pend = [(o, w)]) (hd : w.due = none) :
    (∀ q, (s.at_ t).lvDue o w t = some q →
      exec (.lvTakeArm t) s = .next { s.at_ t with free := s.free + 1, lv := { s.lv with pend := [(o, { w with due := some q })] } }) ∧
    ((s.at_ t).lvDue o w t = none → exec (.lvTakeArm t) s = .next (({ s.at_ t with free := s.free + 1 } : State).lvSwitch o t)) := by
  obtain ⟨h1, h2⟩ := State.lvArm_single (s := s.at_ t) (t := t) hf hp hd
  rw [lvTakeArm_spec.1 ha]
  exact ⟨fun q hq => congrArg _ (h1 q hq), fun hq => congrArg _ (h2 hq)⟩

/-- What is in force on an output once its switch has been carried out. -/
theorem State.lvOut_lvCarry (s : State) (o : Nat) (w : LvSwitch) (org t : Nat) :
    ((s.lvCarry o w org t).lvOut o).en = w.en ∧ ((s.lvCarry o w org t).lvOut o).input = w.input := by
  have key (v : State) (x : LvOut) (a b c d e f g : Nat) (i : Nat) : ((v.setLvOut o x).log a b c d e f g i).lvOut o = x := by
    have hl : ((v.setLvOut o x).log a b c d e f g i).lv = (v.setLvOut o x).lv :=
      (State.log_kept (.refl [.regs, .vec, .hostMem, .sec] _) _ _ _ _ _ _ _ _ (Sub.self _)).2.2 .lv (by decide)
    rw [State.lvOut, hl]
    exact tabGet_set_self _ _ _ _
  unfold State.lvCarry
  dsimp only
  split
  · rename_i h
    rw [key, (Bool.and_eq_true_iff.mp h).1]
    exact ⟨rfl, rfl⟩
  · rw [key]
    exact ⟨rfl, rfl⟩

theorem exec_lvOutputSwitch_armed (o : Fin 32) {q : Nat} (hx : (tabFind s.lv.pend o.val).bind (·.due) = some q) :
    exec (.lvOutputSwitch o t) s = .next (if q ≤ t then (s.at_ t).lvSwitch o t else s.at_ t) := by
  have e : exec (.lvOutputSwitch o t) s = execLvOutputSwitch o t s := rfl
  rw [e, execLvOutputSwitch]
  dsimp only
  rw [State.at_lv, hx]

theorem exec_lvOutputSwitch_unarmed (o : Fin 32) (hx : (tabFind s.lv.pend o.val).bind (·.due) = none) :
    exec (.lvOutputSwitch o t) s = .next (s.at_ t) := by
  have e : exec (.lvOutputSwitch o t) s = execLvOutputSwitch o t s := rfl
  rw [e, execLvOutputSwitch]
  dsimp only
  rw [State.at_lv, hx]

/-- An armed switch executes at its point. -/
theorem lvOutputSwitch_spec (o : Fin 32) {q : Nat} {w : LvSwitch} (hp : tabFind s.lv.pend o.val = some w) (hd : w.due = some q) :
    (t < q → exec (.lvOutputSwitch o t) s = .next (s.at_ t)) ∧
    (q ≤ t → ∀ u, u = (s.at_ t).lvCarry o w (if s.role = 2 then 4 else 1) t → (u.lvOut o).en = w.en ∧ (u.lvOut o).input = w.input ∧
      exec (.lvOutputSwitch o t) s = .next ((({ u with lv := { u.lv with pend := tabDel u.lv.pend o } }).lvAes_).lvTakesDone)) := by
  have hx : (tabFind s.lv.pend o.val).bind (·.due) = some q := by rw [hp]; exact hd
  rw [exec_lvOutputSwitch_armed o hx]
  refine ⟨fun h => congrArg _ (if_neg (Nat.not_le.mpr h)), fun h u hu => ?_⟩
  obtain ⟨h1, h2⟩ := (s.at_ t).lvOut_lvCarry o w (if s.role = 2 then 4 else 1) t
  rw [← hu] at h1 h2
  refine ⟨h1, h2, congrArg _ ((if_pos h).trans ?_)⟩
  have hr : (s.at_ t).role = s.role := rfl
  rw [State.lvSwitch, State.at_lv, hp]
  dsimp only
  rw [hr, ← hu]

theorem lvMuteResume_spec (o : Fin 32) : (s.lvOn = true → exec (.lvMuteResume o t) s = .next (((s.at_ t).txWake (s.lvDst o) t).lvAes_)) ∧
    (s.lvOn = false → exec (.lvMuteResume o t) s = .next s) := by
  have e : exec (.lvMuteResume o t) s = execLvMuteResume o t s := rfl
  rw [e]
  exact ⟨fun h => congrArg Host.Outcome.next (if_pos h), fun h => congrArg Host.Outcome.next (if_neg (by rw [h]; exact Bool.false_ne_true))⟩

/-- Settles O45: the latch, the arming and the switch of an output, each by the branch its conditions select. -/
theorem lvTakes : Obligations.LvTakes := by
  unfold Obligations.LvTakes
  exact ⟨fun s v t => lvTakeWrite_spec v, fun s n t => lvTakeNEdge_spec n, fun s l => State.lvLatch_busy, fun s o v t => outSelWrite_spec o v,
    fun s o v t => outCtlWrite_spec o v, fun s t => lvTakeArm_spec.1, fun s t o w => lvTakeArm_single, fun s t => lvTakeArm_spec.2,
    fun s o t q w => lvOutputSwitch_spec o, fun s o t h => exec_lvOutputSwitch_unarmed o h, fun s o t => (lvMuteResume_spec o).1,
    fun s o t => (lvMuteResume_spec o).2⟩

end Sys2Proof.Machine

/-! Registers that a change of the twin role, a reading of the slack monitors and a write of HSF_VCTL touch. -/
namespace Sys2Proof.Machine

/-! ### A pair that a write detaches -/

/-- The registers a detach may change. -/
def detachRegs : List Nat := recRegs 0 ++ [R.MATE_EPOCH, R.MATE_STAT, R.GLB_MODE_HIST, R.MATE_HIST, R.LVP_TAKE_CNT, R.LVP_HIST, R.XPT_STAT]

section detach
variable {a : Nat}

theorem State.lvTakesDone_rd (s : State) (h1 : a ≠ R.LVP_TAKE_CNT) (h2 : a ≠ R.LVP_HIST) : s.lvTakesDone.rd a = s.rd a := by
  have hc : ∀ takes acks n, (s.lvCounted takes acks n).rd a = s.rd a := fun takes acks n => by
    rw [State.lvCounted, State.rd_raise_ne _ _ _ h2, State.count, State.rd_wr_ne _ _ h1]
    rfl
  rcases s.lvTakesDone_cases with h | ⟨takes, acks, n, h | h⟩
  · rw [h]
  · rw [h, hc]
  · rw [h]
    exact hc ..

theorem State.clearAwait_rd (s : State) (h1 : a ≠ R.LVP_TAKE_CNT) (h2 : a ≠ R.LVP_HIST) (h3 : a ≠ R.XPT_STAT) : s.clearAwait.rd a = s.rd a := by
  rw [State.clearAwait, State.lvTakesDone_rd _ h1 h2, State.dropDiscarded]
  split
  · rw [(State.leapRateCheck_onlyRegs _).2 a (by simpa using h3)]
    rfl
  · rfl

theorem State.setRole_rd (s : State) (r : Nat) (h1 : a ≠ R.MATE_STAT) (h2 : a ≠ R.GLB_MODE_HIST) : (s.setRole r).rd a = s.rd a := by
  rw [State.setRole]
  split
  · rfl
  · rw [State.raiseMode, State.rd_raiseBit_ne _ _ _ h2, State.rd_set_ne _ _ _ h1]

theorem State.setEpoch_rd (s : State) (e : Nat) (h : a ∉ recRegs 0) (h1 : a ≠ R.MATE_EPOCH) : (s.setEpoch e).rd a = s.rd a := by
  rw [State.setEpoch, State.change_rd _ _ h, State.rd_wr_ne _ _ h1]

theorem State.readyFall_rd (s : State) (h1 : a ≠ R.MATE_STAT) (h2 : a ≠ R.MATE_HIST) : s.readyFall.rd a = s.rd a := by
  rw [State.readyFall]
  split
  · rw [State.rd_raise_ne _ _ _ h2, State.rd_set_ne _ _ _ h1]
  · rfl

theorem State.setSync_rd (s : State) (v : Nat) (h1 : a ≠ R.MATE_STAT) (h2 : a ≠ R.MATE_HIST) : (s.setSync v).rd a = s.rd a := by
  rw [State.setSync]
  split
  · exact State.rd_set_ne _ _ _ h1
  · rw [State.readyFall_rd _ h1 h2, State.rd_set_ne _ _ _ h1]

theorem State.detach_rd (s : State) (ha : a ∉ detachRegs) : s.detach.rd a = s.rd a := by
  simp only [detachRegs, List.mem_append, List.mem_cons, List.not_mem_nil, or_false, not_or] at ha
  obtain ⟨h0, h1, h2, h3, h4, h5, h6, h7⟩ := ha
  rw [State.detach]
  split
  · rfl
  · dsimp only
    obtain ⟨w, hw⟩ : ∃ w, w = (((((s.setEpoch (nextEpoch s.epoch)).setRole 0).set R.MATE_STAT F.MATE_STAT_ISOLATED 0).set R.MATE_STAT
      F.MATE_STAT_PARTNER_LOST 0).setSync 0) := ⟨_, rfl⟩
    have hm (x : MateSt) : ({ w with mate := x } : State).rd a = w.rd a := rfl
    rw [← hw, State.rd_raise_ne _ _ _ h4, State.clearAwait_rd _ h5 h6 h7, hm, hw, State.setSync_rd _ _ h2 h4, State.rd_set_ne _ _ _ h2,
      State.rd_set_ne _ _ _ h2, State.setRole_rd _ _ h2 h3, State.setEpoch_rd _ _ h0 h1]

theorem State.afterWrite_rd (s s0 : State) (ha : a ∉ detachRegs) : (s.afterWrite s0).rd a = s.rd a := by
  rw [State.afterWrite]
  split
  · rfl
  · exact s.detach_rd ha

end detach

/-! ### Writing one field in a row of registers -/

/-- Writing a field of the registers `A i` one after the other leaves in each what it was given, where no write bears on another's value. -/
theorem State.get_foldl_set {A : Nat → Nat} {f : Bits} {val : State → Nat → Nat} (hf : f.lo + f.width ≤ 32) {l : List Nat} (hn : l.Nodup)
    (hA : ∀ i ∈ l, ∀ j ∈ l, i ≠ j → A i ≠ A j) (hv : ∀ s : State, ∀ i ∈ l, ∀ j ∈ l, ∀ x, val (s.set (A j) f x) i = val s i) (s : State) {i : Nat} (hi : i ∈ l) :
    (l.foldl (fun (s : State) i => s.set (A i) f (val s i)) s).get (A i) f = val s i % 2 ^ f.width := by
  induction l generalizing s with
  | nil => cases hi
  | cons j l ih =>
    obtain ⟨hj, hn⟩ := List.nodup_cons.mp hn
    rw [List.foldl_cons]
    have hrest (u : State) : u.onlyRegs (l.foldl (fun (s : State) i => s.set (A i) f (val s i)) u) (l.map A) :=
      State.onlyRegs.foldl l fun k hk v => v.set_onlyRegs _ _ (List.mem_map_of_mem hk)
    by_cases e : i = j
    · subst e
      have hni : A i ∉ l.map A := fun hm => by
        obtain ⟨k, hk, he⟩ := List.mem_map.mp hm
        exact hA i (.head _) k (.tail _ hk) (fun h => hj (h ▸ hk)) he.symm
      rw [State.get, (hrest _).2 _ hni]
      exact State.get_set_self _ _ _ _ hf
    · have hi' : i ∈ l := (List.mem_cons.mp hi).resolve_left e
      rw [ih hn (fun a ha b hb => hA a (.tail _ ha) b (.tail _ hb)) (fun v a ha b hb x => hv v a (.tail _ ha) b (.tail _ hb) x) _ hi',
        hv s i hi j (.head _)]

end Sys2Proof.Machine

/-! The voltage controller, handshake ribbons and crossings (O47). -/
namespace Sys2Proof.Machine

/-! ### A reading of the slack monitors -/

/-- The registers a reading writes. -/
def slackRegs : List Nat :=
  (R.HSF_HIST :: (List.range 250).flatMap fun d => [R.HSF_XSTAT d, R.HSF_XOVR_CNT d, R.HSF_XDROP_CNT d]) ++ (List.range 5).map R.HSF_SLACK ++
    (List.range 12).map R.CHE_RATE

theorem not_mem_slackRegs {a : Nat} (ha : a < 0x90010) : a ∉ slackRegs := by
  simp only [slackRegs, List.mem_append, List.mem_cons, List.mem_flatMap, List.mem_map, List.not_mem_nil, or_false, not_or, not_exists, not_and]
  unfold R.HSF_HIST R.HSF_XSTAT R.HSF_XOVR_CNT R.HSF_XDROP_CNT R.HSF_SLACK R.CHE_RATE quadWin
  exact ⟨⟨⟨by omega, fun d _ => by omega⟩, fun d _ => by omega⟩, fun d _ => by omega⟩

section cross
variable (s : State) (d n : Nat)

theorem State.xMerge_onlyRegs : s.onlyRegs (s.xMerge d n) [R.HSF_XSTAT d, R.HSF_XOVR_CNT d, R.HSF_HIST] := by
  rw [State.xMerge]
  split
  · exact .refl ..
  · exact ((s.set_onlyRegs _ _ (.head _)).trans (State.wr_onlyRegs _ _ (.tail _ (.head _)))).trans
      (State.raise_onlyRegs _ Hist.hsf _ (.tail _ (.tail _ (.head _))))

theorem State.xDrop_onlyRegs : s.onlyRegs (s.xDrop d n) [R.HSF_XSTAT d, R.HSF_XDROP_CNT d, R.HSF_HIST] := by
  rw [State.xDrop]
  split
  · exact .refl ..
  · exact ((s.set_onlyRegs _ _ (.head _)).trans (State.wr_onlyRegs _ _ (.tail _ (.head _)))).trans
      (State.raise_onlyRegs _ Hist.hsf _ (.tail _ (.tail _ (.head _))))

variable {s d n}

theorem XSTAT_ne (d e : Nat) (h : d < 250) : R.HSF_XSTAT d ≠ R.HSF_HIST ∧ R.HSF_XSTAT d ≠ R.HSF_XOVR_CNT e ∧ R.HSF_XSTAT d ≠ R.HSF_XDROP_CNT e ∧
    R.HSF_XOVR_CNT d ≠ R.HSF_HIST ∧ R.HSF_XDROP_CNT d ≠ R.HSF_HIST ∧ R.HSF_XOVR_CNT d ≠ R.HSF_XDROP_CNT e := by
  unfold R.HSF_XSTAT R.HSF_HIST R.HSF_XOVR_CNT R.HSF_XDROP_CNT
  omega

/-- What merged at a crossing counts, with its flags. -/
theorem State.xMerge_spec (hd : d < 250) :
    ((s.xMerge d n).rd (R.HSF_XOVR_CNT d)).toNat = min 0xFFFFFFFF ((s.rd (R.HSF_XOVR_CNT d)).toNat + n) ∧
    (n ≠ 0 → (s.xMerge d n).get (R.HSF_XSTAT d) F.HSF_XSTAT_OVERRUN = 1 ∧ (s.xMerge d n).get R.HSF_HIST F.HSF_HIST_XOVERRUN = 1) := by
  obtain ⟨h1, h2, h3, h4, h5, h6⟩ := XSTAT_ne d d hd
  rw [State.xMerge]
  by_cases h0 : n = 0
  · rw [if_pos h0, h0]
    have := (s.rd (R.HSF_XOVR_CNT d)).isLt
    exact ⟨by omega, fun h => absurd rfl h⟩
  · rw [if_neg h0]
    refine ⟨?_, fun _ => ⟨?_, State.get_raise _ Hist.hsf F.HSF_HIST_XOVERRUN rfl (by decide)⟩⟩
    · rw [State.rd_raise_ne _ _ _ h4, State.count, State.rd_wr_self, State.rd_set_ne _ _ _ h2.symm, BitVec.toNat_ofNat]
      omega
    · rw [State.get_raise_ne _ _ _ _ h1, State.count, State.get_wr_ne _ _ _ h2]
      exact State.get_set_self _ _ _ _ (by decide)

/-- What was dropped at a crossing counts, with its flags. -/
theorem State.xDrop_spec (hd : d < 250) :
    ((s.xDrop d n).rd (R.HSF_XDROP_CNT d)).toNat = min 0xFFFFFFFF ((s.rd (R.HSF_XDROP_CNT d)).toNat + n) ∧
    (n ≠ 0 → (s.xDrop d n).get (R.HSF_XSTAT d) F.HSF_XSTAT_DROP = 1 ∧ (s.xDrop d n).get R.HSF_HIST F.HSF_HIST_XDROP = 1) := by
  obtain ⟨h1, h2, h3, h4, h5, h6⟩ := XSTAT_ne d d hd
  rw [State.xDrop]
  by_cases h0 : n = 0
  · rw [if_pos h0, h0]
    have := (s.rd (R.HSF_XDROP_CNT d)).isLt
    exact ⟨by omega, fun h => absurd rfl h⟩
  · rw [if_neg h0]
    refine ⟨?_, fun _ => ⟨?_, State.get_raise _ Hist.hsf F.HSF_HIST_XDROP rfl (by decide)⟩⟩
    · rw [State.rd_raise_ne _ _ _ h5, State.count, State.rd_wr_self, State.rd_set_ne _ _ _ h3.symm, BitVec.toNat_ofNat]
      omega
    · rw [State.get_raise_ne _ _ _ _ h1, State.count, State.get_wr_ne _ _ _ h3]
      exact State.get_set_self _ _ _ _ (by decide)

/-- A drop leaves the other bits of the crossing's state and the other history bits that are set. -/
theorem State.xDrop_keeps (hd : d < 250) {f : Bits} (hf : F.HSF_XSTAT_DROP.apart f) :
    (s.xDrop d n).get (R.HSF_XSTAT d) f = s.get (R.HSF_XSTAT d) f ∧
    (s.get R.HSF_HIST F.HSF_HIST_XOVERRUN = 1 → (s.xDrop d n).get R.HSF_HIST F.HSF_HIST_XOVERRUN = 1) := by
  obtain ⟨h1, h2, h3, h4, h5, h6⟩ := XSTAT_ne d d hd
  rw [State.xDrop]
  split
  · exact ⟨rfl, id⟩
  · refine ⟨?_, fun h => State.get_raise_mono _ Hist.hsf F.HSF_HIST_XDROP (b := 0) (by decide) (by decide) ?_⟩
    · rw [State.get_raise_ne _ _ _ _ h1, State.count, State.get_wr_ne _ _ _ h3, State.get_set_apart _ _ _ _ _ (by decide) hf]
    · rw [State.count, State.get_wr_ne _ _ _ h5.symm, State.get_set_ne _ _ _ _ h1.symm]
      exact h

end cross

/-- What the crossings bring with a reading. -/
def State.slackCross (s : State) (m : Slack) : State :=
  m.cross.foldl (fun (s : State) (c : Cross) => (s.xMerge c.group c.merged).xDrop c.group c.dropped) s

/-- The five ribbon rates of a reading. -/
def State.slackRates (s : State) (m : Slack) : State :=
  (List.range 5).foldl (fun (s : State) i => s.set (R.HSF_SLACK i) F.HSF_SLACK_RATE ((m.rates[i]?).getD 0)) s

/-- An engine's rate: its quadrant's as trimmed. -/
def State.engRate (s : State) (e : Nat) : Nat := min 0xFFFF (s.get (R.HSF_SLACK (e / 3)) F.HSF_SLACK_RATE * s.cheTrim e / 1000)

/-- The engines' rates of a reading. -/
def State.slackEngines (s : State) : State := (List.range 12).foldl (fun (s : State) e => s.set (R.CHE_RATE e) F.CHE_RATE_MEASURED (s.engRate e)) s

theorem State.readSlack_eq (s : State) (m : Slack) : s.readSlack m = ((s.slackCross m).slackRates m).slackEngines := rfl

section slack
variable (s : State) (m : Slack)

theorem mem_crossRegs {d a : Nat} (hd : d < 250) (h : a ∈ [R.HSF_XSTAT d, R.HSF_XOVR_CNT d, R.HSF_XDROP_CNT d]) : a ∈ slackRegs :=
  List.mem_append_left _ (List.mem_append_left _ (.tail _ (List.mem_flatMap.mpr ⟨d, List.mem_range.mpr hd, h⟩)))

theorem HSF_HIST_mem_slackRegs : R.HSF_HIST ∈ slackRegs := List.mem_append_left _ (List.mem_append_left _ (.head _))

theorem State.slackCross_onlyRegs : s.onlyRegs (s.slackCross m) slackRegs := by
  refine State.onlyRegs.foldl _ fun c _ s => ?_
  refine ((s.xMerge_onlyRegs _ _).mono fun a ha => ?_).trans ((State.xDrop_onlyRegs _ _ _).mono fun a ha => ?_)
  all_goals
    simp only [List.mem_cons, List.not_mem_nil, or_false] at ha
    rcases ha with rfl | rfl | rfl
  · exact mem_crossRegs c.group.isLt (.head _)
  · exact mem_crossRegs c.group.isLt (.tail _ (.head _))
  · exact HSF_HIST_mem_slackRegs
  · exact mem_crossRegs c.group.isLt (.head _)
  · exact mem_crossRegs c.group.isLt (.tail _ (.tail _ (.head _)))
  · exact HSF_HIST_mem_slackRegs

theorem State.slackRates_onlyRegs : s.onlyRegs (s.slackRates m) ((List.range 5).map R.HSF_SLACK) :=
  State.onlyRegs.foldl _ fun i hi s => s.set_onlyRegs _ _ (List.mem_map_of_mem hi)

theorem State.slackEngines_onlyRegs : s.onlyRegs s.slackEngines ((List.range 12).map R.CHE_RATE) :=
  State.onlyRegs.foldl _ fun i hi s => s.set_onlyRegs _ _ (List.mem_map_of_mem hi)

theorem State.readSlack_onlyRegs : s.onlyRegs (s.readSlack m) slackRegs :=
  ((s.slackCross_onlyRegs m).trans ((State.slackRates_onlyRegs _ m).mono fun _ ha => List.mem_append_left _ (List.mem_append_right _ ha))).trans
    ((State.slackEngines_onlyRegs _).mono fun _ ha => List.mem_append_right _ ha)

variable {s m}

theorem CHE_RATE_ne : ∀ i < 12, R.CHE_RATE i ≠ R.HSF_HIST ∧ (∀ j < 12, i ≠ j → R.CHE_RATE i ≠ R.CHE_RATE j) ∧ (∀ j < 5, R.CHE_RATE i ≠ R.HSF_SLACK j) ∧
    ∀ j < 12, R.CHE_RATE i ≠ R.CHE_HIST j := by decide

theorem HSF_SLACK_ne {i j : Nat} (h : i ≠ j) : R.HSF_SLACK i ≠ R.HSF_SLACK j := by
  unfold R.HSF_SLACK
  omega

theorem State.slackRates_rate {i : Nat} (hi : i < 5) :
    (s.slackRates m).get (R.HSF_SLACK i) F.HSF_SLACK_RATE = (m.rates[i]?).getD 0 % 2 ^ F.HSF_SLACK_RATE.width :=
  State.get_foldl_set (A := R.HSF_SLACK) (val := fun _ i => (m.rates[i]?).getD 0) (by decide) List.nodup_range (fun _ _ _ _ h => HSF_SLACK_ne h)
    (fun _ _ _ _ _ _ => rfl) s (List.mem_range.mpr hi)

theorem State.engRate_set (s : State) {i j : Nat} (hi : i < 12) (hj : j < 12) (x : Nat) :
    (s.set (R.CHE_RATE j) F.CHE_RATE_MEASURED x).engRate i = s.engRate i := by
  have hc : (s.set (R.CHE_RATE j) F.CHE_RATE_MEASURED x).cheTrim i = s.cheTrim i := by rw [State.cheTrim, State.cheTrim, State.set_rst]
  rw [State.engRate, State.engRate, hc, State.get_set_ne _ _ _ _ ((CHE_RATE_ne j hj).2.2.1 _ (by omega)).symm]

theorem State.slackEngines_rate {e : Nat} (he : e < 12) : s.slackEngines.get (R.CHE_RATE e) F.CHE_RATE_MEASURED = s.engRate e := by
  have h := State.get_foldl_set (A := R.CHE_RATE) (f := F.CHE_RATE_MEASURED) (val := State.engRate) (by decide) (l := List.range 12) List.nodup_range
    (fun i hi j hj hn => (CHE_RATE_ne i (List.mem_range.mp hi)).2.1 j (List.mem_range.mp hj) hn)
    (fun s i hi j hj x => s.engRate_set (List.mem_range.mp hi) (List.mem_range.mp hj) x) s (List.mem_range.mpr he)
  refine h.trans (Nat.mod_eq_of_lt ?_)
  exact Nat.lt_of_le_of_lt (Nat.min_le_left _ _) (by decide)

/-- The registers of the monitors after a reading. -/
theorem State.readSlack_rates : (∀ i < 5, (s.readSlack m).get (R.HSF_SLACK i) F.HSF_SLACK_RATE = (m.rates[i]?).getD 0 % 2 ^ F.HSF_SLACK_RATE.width) ∧
    ∀ e < 12, (s.readSlack m).get (R.CHE_RATE e) F.CHE_RATE_MEASURED =
      min 0xFFFF ((s.readSlack m).get (R.HSF_SLACK (e / 3)) F.HSF_SLACK_RATE * s.cheTrim e / 1000) := by
  have hs : ∀ i < 5, (s.readSlack m).get (R.HSF_SLACK i) F.HSF_SLACK_RATE = ((s.slackCross m).slackRates m).get (R.HSF_SLACK i) F.HSF_SLACK_RATE := fun i hi => by
    rw [State.readSlack_eq, State.get, (State.slackEngines_onlyRegs _).2 _ ?_]
    · rfl
    · intro hm
      obtain ⟨j, hj, he⟩ := List.mem_map.mp hm
      exact (CHE_RATE_ne j (List.mem_range.mp hj)).2.2.1 i hi he
  refine ⟨fun i hi => (hs i hi).trans (State.slackRates_rate hi), fun e he => ?_⟩
  have ht : ((s.slackCross m).slackRates m).cheTrim e = s.cheTrim e := by
    rw [State.cheTrim, State.cheTrim, (State.slackRates_onlyRegs _ m).rst, (s.slackCross_onlyRegs m).rst]
  rw [hs (e / 3) (by omega), State.readSlack_eq, State.slackEngines_rate he, State.engRate, ht]

end slack

end Sys2Proof.Machine

/-! The voltage controller: what a reading leads to, its steps and its faults (O47). -/
namespace Sys2Proof.Machine

/-! ### What a reading leads to -/

/-- The registers the judgement of a reading may change. -/
def judgeRegs : List Nat := R.HSF_VSTAT :: R.HSF_HIST :: (List.range 12).map R.CHE_HIST

section judge
variable (s : State)

theorem State.marginLow_onlyRegs (bad : Nat → Bool) : s.onlyRegs (s.marginLow bad) (R.HSF_HIST :: (List.range 12).map R.CHE_HIST) := by
  rw [State.marginLow]
  refine (s.raise_onlyRegs Hist.hsf _ (.head _)).trans (State.onlyRegs.foldl _ fun e he s => State.onlyRegs.ite (fun _ => ?_) fun _ => .refl ..)
  exact s.raise_onlyRegs (Hist.che e) _ (.tail _ (List.mem_map_of_mem (f := R.CHE_HIST) he))

theorem State.setVState_onlyRegs (v : Nat) : s.onlyRegs (s.setVState v) [R.HSF_VSTAT] := s.set_onlyRegs _ _ (.head _)

/-- The time the floor has been met with 5 % to spare is `x`. -/
def State.setOkSince (s : State) (x : Option Nat) : State := { s with hsf := { s.hsf with okSince := x } }

theorem State.setOkSince_regs (s : State) (x : Option Nat) : (s.setOkSince x).regs = s.regs := rfl

/-- The time the floor has been met with 5 % to spare, after a reading. -/
def State.spared (s : State) : State := s.setOkSince (if s.floorMet 105 then s.hsf.okSince.or (some s.now) else none)

/-- What the controller does about a reading. -/
def State.judged (s : State) : State :=
  if !s.byMonitor || decide (2 < s.vState) then s
  else if s.floorMet 100 then (if s.vState = 2 then s.setVState 0 else s)
  else if s.vdd < 850 then s.setVState 2
  else (s.setVState 0).marginLow fun e => !s.engFloor 100 e

theorem State.spared_regs (s : State) : s.spared.regs = s.regs := s.setOkSince_regs _

theorem State.spared_rd (s : State) (a : Nat) : s.spared.rd a = s.rd a := State.rd_congr s.spared_regs a

theorem State.spared_get (s : State) (a : Nat) (f : Bits) : s.spared.get a f = s.get a f := State.get_congr s.spared_regs a f

theorem State.afterReading_eq : s.afterReading = s.spared.judged := rfl

variable {s}

theorem State.vdd_setVState (v : Nat) : (s.setVState v).vdd = s.vdd := s.get_set_apart R.HSF_VSTAT F.HSF_VSTAT_STATE F.HSF_VSTAT_VDD v (by decide) (by decide)

theorem State.vState_setVState {v : Nat} (hv : v < 8) : (s.setVState v).vState = v := State.get_set_fits s R.HSF_VSTAT F.HSF_VSTAT_STATE (by decide) hv

theorem CHE_HIST_ne : ∀ e < 12, R.CHE_HIST e ≠ R.HSF_VSTAT ∧ R.CHE_HIST e ≠ R.HSF_HIST ∧ R.CHE_HIST e ≠ R.HSF_VCTL ∧ R.CHE_HIST e ≥ 0x1000000 := by decide

theorem State.judged_onlyRegs (s : State) : s.onlyRegs s.judged judgeRegs := by
  have hv (v : Nat) : s.onlyRegs (s.setVState v) judgeRegs := (s.setVState_onlyRegs v).mono fun a ha => List.mem_singleton.mp ha ▸ .head _
  exact .ite (fun _ => .refl ..) fun _ => .ite (fun _ => .ite (fun _ => hv 0) fun _ => .refl ..) fun _ =>
    .ite (fun _ => hv 2) fun _ => (hv 0).trans ((State.marginLow_onlyRegs _ _).mono fun a ha => .tail _ ha)

theorem State.judged_vdd (s : State) : s.judged.vdd = s.vdd := by
  have hn : R.HSF_VSTAT ∉ R.HSF_HIST :: (List.range 12).map R.CHE_HIST := by decide
  unfold State.judged
  repeat' split
  · rfl
  · exact State.vdd_setVState 0
  · rfl
  · exact State.vdd_setVState 2
  · rw [State.vdd, (State.marginLow_onlyRegs _ _).get hn]
    exact State.vdd_setVState 0

/-- A history bit of HSF_HIST that is set stays set. -/
theorem State.judged_hist (s : State) {b : Nat} (hb : b < 32) (h : s.get R.HSF_HIST (bit b) = 1) : s.judged.get R.HSF_HIST (bit b) = 1 := by
  have hv (v : Nat) : (s.setVState v).get R.HSF_HIST (bit b) = 1 := (State.get_set_ne _ _ _ _ (by decide)).trans h
  have hf (bad : Nat → Bool) (l : List Nat) : ∀ u : State, u.get R.HSF_HIST (bit b) = 1 →
      (l.foldl (fun (s : State) e => if bad e then s.raise (Hist.che e) F.CHE_HIST_MARGIN_LOW else s) u).get R.HSF_HIST (bit b) = 1 := by
    induction l with
    | nil => exact fun u hu => hu
    | cons e l ih =>
      intro u hu
      refine ih _ ?_
      dsimp only
      split
      · exact State.get_raise_mono _ _ _ hb (by decide) hu
      · exact hu
  unfold State.judged
  repeat' split
  · exact h
  · exact hv 0
  · exact h
  · exact hv 2
  · exact hf _ _ _ (State.get_raise_mono _ _ _ hb (by decide) (hv 0))

end judge

/-! ### Readings -/

section measure
variable {s : State} {m : Slack} {t : Nat}

theorem exec_slackMeasure (s : State) (m : Slack) (t : Nat) : exec (.slackMeasure m t) s = .next ((s.at_ t).readSlack m).spared.judged := rfl

/-- Registers outside the controller's read in the end as the reading left them. -/
theorem State.judged_get (s : State) {a : Nat} (f : Bits) (ha : a ∉ judgeRegs) : s.spared.judged.get a f = s.get a f :=
  ((State.judged_onlyRegs _).get ha f).trans (s.spared_get a f)

theorem HSF_SLACK_not_mem {i : Nat} (hi : i < 5) : R.HSF_SLACK i ∉ judgeRegs := by
  intro h
  simp only [judgeRegs, List.mem_cons, List.mem_map, List.mem_range] at h
  rcases h with h | h | ⟨e, he, h⟩
  · unfold R.HSF_SLACK R.HSF_VSTAT at h
    omega
  · unfold R.HSF_SLACK R.HSF_HIST at h
    omega
  · have := (CHE_HIST_ne e he).2.2.2
    unfold R.HSF_SLACK at h
    omega

theorem CHE_RATE_not_mem {e : Nat} (he : e < 12) : R.CHE_RATE e ∉ judgeRegs := by
  have : ∀ e < 12, R.CHE_RATE e ∉ judgeRegs := by decide
  exact this e he

theorem slackMeasure_spec (s : State) (m : Slack) (t : Nat) : ∃ u, exec (.slackMeasure m t) s = .next u ∧ u = ((s.at_ t).readSlack m).afterReading ∧
    u.vdd = s.vdd ∧ (∀ i < 5, u.get (R.HSF_SLACK i) F.HSF_SLACK_RATE = (m.rates[i]?).getD 0 % 2 ^ F.HSF_SLACK_RATE.width) ∧
    ∀ e < 12, u.get (R.CHE_RATE e) F.CHE_RATE_MEASURED = min 0xFFFF (u.get (R.HSF_SLACK (e / 3)) F.HSF_SLACK_RATE * s.cheTrim e / 1000) := by
  obtain ⟨hr, he⟩ := State.readSlack_rates (s := s.at_ t) (m := m)
  refine ⟨_, exec_slackMeasure s m t, rfl, ?_, fun i hi => ?_, fun e hlt => ?_⟩
  · rw [State.judged_vdd, State.vdd, State.spared_get, ((s.at_ t).readSlack_onlyRegs m).get (not_mem_slackRegs (by decide)), State.get_at]
    rfl
  · rw [State.judged_get _ _ (HSF_SLACK_not_mem hi), hr i hi]
  · rw [State.judged_get _ _ (CHE_RATE_not_mem hlt), State.judged_get _ _ (HSF_SLACK_not_mem (by omega)), he e hlt]
    rfl

/-- A crossing's registers lie apart from those of the rates and of the controller. -/
theorem cross_not_mem {d a : Nat} (hd : d < 250) (ha : a ∈ [R.HSF_XSTAT d, R.HSF_XOVR_CNT d, R.HSF_XDROP_CNT d]) :
    a ∉ (List.range 5).map R.HSF_SLACK ∧ a ∉ (List.range 12).map R.CHE_RATE ∧ a ∉ judgeRegs := by
  have hl : 0x91000 ≤ a ∧ a < 0x1000000 := by
    simp only [List.mem_cons, List.not_mem_nil, or_false] at ha
    unfold R.HSF_XSTAT R.HSF_XOVR_CNT R.HSF_XDROP_CNT at ha
    omega
  refine ⟨?_, ?_, ?_⟩
  · simp only [List.mem_map, List.mem_range, not_exists, not_and]
    unfold R.HSF_SLACK
    omega
  · simp only [List.mem_map, List.mem_range, not_exists, not_and]
    unfold R.CHE_RATE quadWin
    omega
  · simp only [judgeRegs, List.mem_cons, List.mem_map, List.mem_range, not_or, not_exists, not_and]
    unfold R.CHE_HIST quadWin R.HSF_VSTAT R.HSF_HIST
    exact ⟨by omega, by omega, fun e _ => by omega⟩

theorem HSF_HIST_not_mem : R.HSF_HIST ∉ (List.range 5).map R.HSF_SLACK ∧ R.HSF_HIST ∉ (List.range 12).map R.CHE_RATE := by decide

/-- The count registers after a reading with one crossing. -/
theorem slackMeasure_cross {c : Cross} (hc : m.cross = [c]) : ∃ u, exec (.slackMeasure m t) s = .next u ∧
    (u.rd (R.HSF_XOVR_CNT c.group)).toNat = min 0xFFFFFFFF ((s.rd (R.HSF_XOVR_CNT c.group)).toNat + c.merged) ∧
    (u.rd (R.HSF_XDROP_CNT c.group)).toNat = min 0xFFFFFFFF ((s.rd (R.HSF_XDROP_CNT c.group)).toNat + c.dropped) ∧
    (c.merged ≠ 0 → u.get (R.HSF_XSTAT c.group) F.HSF_XSTAT_OVERRUN = 1 ∧ u.get R.HSF_HIST F.HSF_HIST_XOVERRUN = 1) ∧
    (c.dropped ≠ 0 → u.get (R.HSF_XSTAT c.group) F.HSF_XSTAT_DROP = 1 ∧ u.get R.HSF_HIST F.HSF_HIST_XDROP = 1) := by
  have hd := c.group.isLt
  obtain ⟨h1, h2, h3, h4, h5, h6⟩ := XSTAT_ne c.group c.group hd
  obtain ⟨x, hx⟩ : ∃ x, x = (s.at_ t).xMerge c.group c.merged := ⟨_, rfl⟩
  obtain ⟨y, hy⟩ : ∃ y, y = x.xDrop c.group c.dropped := ⟨_, rfl⟩
  have hy' : (s.at_ t).slackCross m = y := by rw [State.slackCross, hc, hy, hx]; rfl
  obtain ⟨m1, m2⟩ := State.xMerge_spec (s := s.at_ t) (n := c.merged) hd
  obtain ⟨d1, d2⟩ := State.xDrop_spec (s := x) (n := c.dropped) hd
  obtain ⟨k1, k2⟩ := State.xDrop_keeps (s := x) (n := c.dropped) hd (f := F.HSF_XSTAT_OVERRUN) (by decide)
  rw [← hx] at m1 m2
  rw [← hy] at d1 d2 k1 k2
  have hmo : (x.rd (R.HSF_XDROP_CNT c.group)) = s.rd (R.HSF_XDROP_CNT c.group) := by
    rw [hx, (State.xMerge_onlyRegs _ _ _).2 _ (by simpa using ⟨h3.symm, h6.symm, h5⟩), State.rd_at]
  have hov : (y.rd (R.HSF_XOVR_CNT c.group)) = x.rd (R.HSF_XOVR_CNT c.group) := by
    rw [hy, (State.xDrop_onlyRegs _ _ _).2 _ (by simpa using ⟨h2.symm, h6, h4⟩)]
  obtain ⟨z, hz⟩ : ∃ z, z = (y.slackRates m).slackEngines := ⟨_, rfl⟩
  have hrd : ∀ a, a ∈ [R.HSF_XSTAT c.group, R.HSF_XOVR_CNT c.group, R.HSF_XDROP_CNT c.group] → z.spared.judged.rd a = y.rd a := fun a ha => by
    obtain ⟨n1, n2, n3⟩ := cross_not_mem hd ha
    rw [(State.judged_onlyRegs _).2 a n3]
    rw [State.spared_rd, hz, (State.slackEngines_onlyRegs _).2 a n2, (State.slackRates_onlyRegs _ m).2 a n1]
  have hhist : ∀ b < 32, y.get R.HSF_HIST (bit b) = 1 → z.spared.judged.get R.HSF_HIST (bit b) = 1 := fun b hb h => by
    refine State.judged_hist _ hb ?_
    rw [State.spared_get, hz, (State.slackEngines_onlyRegs _).get HSF_HIST_not_mem.2, (State.slackRates_onlyRegs _ m).get HSF_HIST_not_mem.1, h]
  refine ⟨z.spared.judged, by rw [exec_slackMeasure, State.readSlack_eq, hy', hz], ?_, ?_, fun h0 => ⟨?_, ?_⟩, fun h0 => ⟨?_, ?_⟩⟩
  · rw [hrd _ (.tail _ (.head _)), hov, m1, State.rd_at]
  · rw [hrd _ (.tail _ (.tail _ (.head _))), d1, hmo]
  · rw [State.get, hrd _ (.head _)]
    exact k1.trans (m2 h0).1
  · exact hhist 0 (by decide) (k2 (m2 h0).2)
  · rw [State.get, hrd _ (.head _)]
    exact (d2 h0).1
  · exact hhist 1 (by decide) (d2 h0).2

end measure

end Sys2Proof.Machine

/-! Steps of the voltage controller, AVSBus faults, ribbons and crossings (O47). -/
namespace Sys2Proof.Machine

/-! ### Steps -/

section steps
variable {s : State} {m : Slack} {t : Nat}

/-- No step of the controller's own is made. -/
def State.vIdle (s : State) : Bool := !s.vRuns || s.vState == 4 || s.vState == 5 || s.vState == 3

theorem State.vIdle_of (h : s.vState ∈ [3, 4, 5] ∨ s.vRuns = false) : s.vIdle = true := by
  rw [State.vIdle]
  rcases h with h | h
  · simp only [List.mem_cons, List.not_mem_nil, or_false] at h
    rcases h with h | h | h <;> simp [h]
  · simp [h]

theorem State.vIdle_false (hr : s.vRuns = true) (hv : s.vState ∉ [3, 4, 5]) : s.vIdle = false := by
  simp only [List.mem_cons, List.not_mem_nil, or_false, not_or] at hv
  simp [State.vIdle, hr, hv]

theorem State.vTo_onlyRegs (s : State) (v : Nat) (m : Slack) : s.onlyRegs (s.vTo v m) (R.HSF_VSTAT :: slackRegs) :=
  (s.set_onlyRegs _ _ (.head _)).trans ((State.readSlack_onlyRegs _ m).mono fun _ h => .tail _ h)

theorem State.vdd_vTo (s : State) {v : Nat} (m : Slack) (hv : v < 1024) : (s.vTo v m).vdd = v := by
  rw [State.vTo, State.vdd, (State.readSlack_onlyRegs _ m).get (not_mem_slackRegs (by decide))]
  exact State.get_set_fits _ _ F.HSF_VSTAT_VDD (by decide) hv

theorem State.vdd_congr {s u : State} (h : u.regs = s.regs) : u.vdd = s.vdd := State.get_congr h _ _

theorem State.vdd_lt (s : State) : s.vdd < 1024 := s.get_lt _ F.HSF_VSTAT_VDD

/-- The instants of the last steps. -/
def State.setLowered (s : State) (t : Nat) : State := { s with hsf := { s.hsf with lowered := some t } }
def State.setRaised (s : State) (t : Nat) : State := { s with hsf := { s.hsf with raised := some t } }
theorem State.setLowered_regs (s : State) (t : Nat) : (s.setLowered t).regs = s.regs := rfl
theorem State.setRaised_regs (s : State) (t : Nat) : (s.setRaised t).regs = s.regs := rfl
theorem State.setLowered_hsf (s : State) (t : Nat) : (s.setLowered t).hsf.lowered = some t := rfl
theorem State.setRaised_hsf (s : State) (t : Nat) : (s.setRaised t).hsf.raised = some t := rfl

theorem State.vdd_stepped (s : State) {v : Nat} (m : Slack) (t : Nat) (hv : v < 1024) :
    ((s.vTo v m).setLowered t).vdd = v ∧ ((s.vTo v m).setRaised t).vdd = v :=
  ⟨(State.vdd_congr (State.setLowered_regs _ _)).trans (s.vdd_vTo m hv), (State.vdd_congr (State.setRaised_regs _ _)).trans (s.vdd_vTo m hv)⟩

theorem State.vdd_afterReading (s : State) : s.afterReading.vdd = s.vdd := by
  rw [State.afterReading_eq, State.judged_vdd]
  exact State.vdd_congr s.spared_regs

/-- What a step down waits for in adaptive mode. -/
def State.spareLong (s : State) (t : Nat) : Bool :=
  match s.hsf.okSince with
  | some a => decide (a + s.lowerS ≤ t)
  | none => false

/-- A step down, with the controller running: in fixed mode and in END towards a goal, in adaptive mode after LOWER_S. -/
def State.stepDown (s : State) (m : Slack) (t : Nat) : State :=
  if !s.adaptive || s.lifecycle == 4 then
    if (if s.adaptive then 620 else s.vProg) < s.vdd ∧ s.passed s.hsf.lowered (1000 * ticksPerUs) then
      (s.vTo (max (if s.adaptive then 620 else s.vProg) (s.vdd - s.vStep)) m).setLowered t
    else s
  else if s.spareLong t && s.passed s.hsf.lowered s.lowerS && s.floorMet 105 && decide (s.vMin < s.vdd) && s.isReady then
    let w := ((s.vTo (max s.vMin (s.vdd - s.vStep)) m).setLowered t).afterReading
    if w.vState = 2 then w else w.setVState (if w.floorMet 105 ∧ w.vMin < w.vdd then 1 else 0)
  else s

/-- A step up, with the controller running. -/
def State.stepUp (s : State) (m : Slack) (t : Nat) : State :=
  if !s.adaptive then
    if s.vdd < s.vProg then (s.vTo (min s.vProg (s.vdd + s.vStep)) m).setRaised t else s
  else if s.lifecycle ≠ 4 ∧ !s.floorMet 100 ∧ s.vdd < 850 then ((s.vTo (min 850 (s.vdd + s.vStep)) m).setRaised t).afterReading
  else s

theorem exec_voltageLowerStep (s : State) (m : Slack) (t : Nat) :
    exec (.voltageLowerStep m t) s = .next (if (s.at_ t).vIdle then s.at_ t else (s.at_ t).stepDown m t) := by
  have e : exec (.voltageLowerStep m t) s = execVoltageLowerStep m t s := rfl
  rw [e, execVoltageLowerStep, State.vIdle, State.stepDown, State.spareLong]
  dsimp only
  cases (s.at_ t).hsf.okSince <;> rfl

theorem exec_voltageRaiseStep (s : State) (m : Slack) (t : Nat) : exec (.voltageRaiseStep m t) s =
    .next (if (s.at_ t).vIdle || !(s.at_ t).passed (s.at_ t).hsf.raised (1000 * ticksPerUs) then s.at_ t else (s.at_ t).stepUp m t) := rfl

/-- With the controller running a lower step is that of its mode. -/
theorem exec_voltageLowerStep_runs (hr : s.vRuns = true) (hv : s.vState ∉ [3, 4, 5]) :
    exec (.voltageLowerStep m t) s = .next ((s.at_ t).stepDown m t) := by
  have h : (s.at_ t).vIdle = false := State.vIdle_false hr hv
  rw [exec_voltageLowerStep, h, if_neg Bool.false_ne_true]

theorem exec_voltageRaiseStep_runs (hr : s.vRuns = true) (hv : s.vState ∉ [3, 4, 5]) : exec (.voltageRaiseStep m t) s =
    .next (if (s.at_ t).passed s.hsf.raised (1000 * ticksPerUs) then (s.at_ t).stepUp m t else s.at_ t) := by
  have h : (s.at_ t).vIdle = false := State.vIdle_false hr hv
  rw [exec_voltageRaiseStep, h, Bool.false_or, State.at_hsf]
  cases (s.at_ t).passed s.hsf.raised (1000 * ticksPerUs) <;> rfl

/-- A raise that changes nothing whether or not its millisecond has passed. -/
theorem exec_voltageRaiseStep_none (hr : s.vRuns = true) (hv : s.vState ∉ [3, 4, 5]) (h : (s.at_ t).stepUp m t = s.at_ t) :
    exec (.voltageRaiseStep m t) s = .next (s.at_ t) := by
  rw [exec_voltageRaiseStep_runs hr hv, h, ite_self]

theorem State.vProg_le (s : State) : 620 ≤ s.vProg ∧ s.vProg ≤ 850 := by
  unfold State.vProg
  omega

theorem State.vMin_le (s : State) : 620 ≤ s.vMin ∧ s.vMin ≤ 850 := by
  unfold State.vMin
  omega

/-- Steps in fixed mode. -/
theorem steps_fixed (hr : s.vRuns = true) (hv : s.vState ∉ [3, 4, 5]) (ha : s.adaptive = false) :
    ((s.at_ t).passed s.hsf.lowered (1000 * ticksPerUs) = true → s.vProg < s.vdd → ∃ u, exec (.voltageLowerStep m t) s = .next u ∧
      u.vdd = max s.vProg (s.vdd - s.vStep) ∧ u.hsf.lowered = some t) ∧
    (s.vdd ≤ s.vProg → exec (.voltageLowerStep m t) s = .next (s.at_ t)) ∧
    ((s.at_ t).passed s.hsf.raised (1000 * ticksPerUs) = true → s.vdd < s.vProg → ∃ u, exec (.voltageRaiseStep m t) s = .next u ∧
      u.vdd = min s.vProg (s.vdd + s.vStep) ∧ u.hsf.raised = some t) ∧
    (s.vProg ≤ s.vdd → exec (.voltageRaiseStep m t) s = .next (s.at_ t)) := by
  have ha' : (s.at_ t).adaptive = false := ha
  have hp : (s.at_ t).vProg = s.vProg := rfl
  have hd : (s.at_ t).vdd = s.vdd := rfl
  have hs : (s.at_ t).vStep = s.vStep := rfl
  have hl := s.vdd_lt
  have hb := s.vProg_le.2
  have down : (s.at_ t).stepDown m t = if s.vProg < s.vdd ∧ (s.at_ t).passed s.hsf.lowered (1000 * ticksPerUs) then
      ((s.at_ t).vTo (max s.vProg (s.vdd - s.vStep)) m).setLowered t else s.at_ t := by
    rw [State.stepDown, ha', hp, hd, hs, State.at_hsf, Bool.not_false, Bool.true_or, if_pos rfl, if_neg Bool.false_ne_true]
  have up : (s.at_ t).stepUp m t = if s.vdd < s.vProg then ((s.at_ t).vTo (min s.vProg (s.vdd + s.vStep)) m).setRaised t else s.at_ t := by
    rw [State.stepUp, ha', hp, hd, hs, Bool.not_false, if_pos rfl]
  refine ⟨fun h1 h2 => ⟨_, ?_, ((s.at_ t).vdd_stepped m t (v := max s.vProg (s.vdd - s.vStep)) (by omega)).1, State.setLowered_hsf _ _⟩, fun h => ?_,
    fun h1 h2 => ⟨_, ?_, ((s.at_ t).vdd_stepped m t (v := min s.vProg (s.vdd + s.vStep)) (by omega)).2, State.setRaised_hsf _ _⟩, fun h => ?_⟩
  · rw [exec_voltageLowerStep_runs hr hv, down, if_pos ⟨h2, h1⟩]
  · rw [exec_voltageLowerStep_runs hr hv, down, if_neg fun hx => Nat.not_lt.mpr h hx.1]
  · rw [exec_voltageRaiseStep_runs hr hv, h1, if_pos rfl, up, if_pos h2]
  · exact exec_voltageRaiseStep_none hr hv (up.trans (if_neg (Nat.not_lt.mpr h)))

/-- Steps in adaptive mode. -/
theorem steps_adaptive (hr : s.vRuns = true) (hv : s.vState ∉ [3, 4, 5]) (ha : s.adaptive = true) (hl : s.lifecycle ≠ 4) :
    (∀ a, s.hsf.okSince = some a → a + s.lowerS ≤ t → (s.at_ t).passed s.hsf.lowered s.lowerS = true → (s.at_ t).floorMet 105 = true → s.vMin < s.vdd →
      s.isReady = true → ∃ u, exec (.voltageLowerStep m t) s = .next u ∧ u.vdd = max s.vMin (s.vdd - s.vStep)) ∧
    ((s.hsf.okSince = none ∨ s.vdd ≤ s.vMin ∨ (s.at_ t).floorMet 105 = false) → exec (.voltageLowerStep m t) s = .next (s.at_ t)) ∧
    ((s.at_ t).passed s.hsf.raised (1000 * ticksPerUs) = true → (s.at_ t).floorMet 100 = false → s.vdd < 850 → ∃ u, exec (.voltageRaiseStep m t) s = .next u ∧
      u.vdd = min 850 (s.vdd + s.vStep)) ∧
    (((s.at_ t).floorMet 100 = true ∨ 850 ≤ s.vdd) → exec (.voltageRaiseStep m t) s = .next (s.at_ t)) := by
  have ha' : (s.at_ t).adaptive = true := ha
  have hl' : (s.at_ t).lifecycle ≠ 4 := hl
  have hm : (s.at_ t).vMin = s.vMin := rfl
  have hd : (s.at_ t).vdd = s.vdd := rfl
  have hs : (s.at_ t).vStep = s.vStep := rfl
  have hS : (s.at_ t).lowerS = s.lowerS := rfl
  have hR : (s.at_ t).isReady = s.isReady := rfl
  have hlt := s.vdd_lt
  have hb := s.vMin_le.2
  obtain ⟨w, hw⟩ : ∃ w, w = (((s.at_ t).vTo (max s.vMin (s.vdd - s.vStep)) m).setLowered t).afterReading := ⟨_, rfl⟩
  have hwv : w.vdd = max s.vMin (s.vdd - s.vStep) := by
    rw [hw, State.vdd_afterReading]
    exact ((s.at_ t).vdd_stepped m t (by omega)).1
  have down : (s.at_ t).stepDown m t =
      if (s.at_ t).spareLong t && (s.at_ t).passed s.hsf.lowered s.lowerS && (s.at_ t).floorMet 105 && decide (s.vMin < s.vdd) && s.isReady then
        if w.vState = 2 then w else w.setVState (if w.floorMet 105 ∧ w.vMin < w.vdd then 1 else 0)
      else s.at_ t := by
    rw [State.stepDown, ha', hm, hd, hs, hS, hR, State.at_hsf, Bool.not_true, Bool.false_or, if_neg (by simpa using hl'), ← hw]
  have up : (s.at_ t).stepUp m t = if (s.at_ t).floorMet 100 = false ∧ s.vdd < 850 then
      (((s.at_ t).vTo (min 850 (s.vdd + s.vStep)) m).setRaised t).afterReading else s.at_ t := by
    rw [State.stepUp, ha', hd, hs, Bool.not_true, if_neg Bool.false_ne_true]
    exact if_congr ⟨fun h => ⟨by simpa using h.2.1, h.2.2⟩, fun h => ⟨hl', by simpa using h.1, h.2⟩⟩ rfl rfl
  refine ⟨fun a h1 h2 h3 h4 h5 h6 => ?_, fun h => ?_, fun h1 h2 h3 => ⟨(((s.at_ t).vTo (min 850 (s.vdd + s.vStep)) m).setRaised t).afterReading, ?_, ?_⟩,
    fun h => exec_voltageRaiseStep_none hr hv (up.trans (if_neg ?_))⟩
  · have hlong : (s.at_ t).spareLong t = true := by
      rw [State.spareLong, State.at_hsf, h1]
      exact decide_eq_true h2
    rw [exec_voltageLowerStep_runs hr hv, down, hlong, h3, h4, h6, decide_eq_true h5, if_pos (by decide)]
    refine ⟨_, rfl, ?_⟩
    split
    · exact hwv
    · rw [State.vdd_setVState, hwv]
  · rw [exec_voltageLowerStep_runs hr hv, down, if_neg]
    rcases h with h | h | h
    · have hlong : (s.at_ t).spareLong t = false := by rw [State.spareLong, State.at_hsf, h]
      simp [hlong]
    · simp [Nat.not_lt.mpr h]
    · simp [h]
  · rw [exec_voltageRaiseStep_runs hr hv, h1, if_pos rfl, up, if_pos ⟨h2, h3⟩]
  · rw [State.vdd_afterReading]
    exact ((s.at_ t).vdd_stepped m t (by omega)).2
  · rintro ⟨h1, h2⟩
    rcases h with h | h
    · rw [h1] at h
      exact Bool.false_ne_true h
    · omega

/-- In END the controller lowers to 620 mV. -/
theorem lowerStep_end (hr : s.vRuns = true) (hv : s.vState ∉ [3, 4, 5]) (ha : s.adaptive = true) (hl : s.lifecycle = 4)
    (hp : (s.at_ t).passed s.hsf.lowered (1000 * ticksPerUs) = true) (hd : 620 < s.vdd) :
    ∃ u, exec (.voltageLowerStep m t) s = .next u ∧ u.vdd = max 620 (s.vdd - s.vStep) ∧ u.hsf.lowered = some t := by
  have ha' : (s.at_ t).adaptive = true := ha
  have hl' : (s.at_ t).lifecycle = 4 := hl
  have hd' : (s.at_ t).vdd = s.vdd := rfl
  have hs : (s.at_ t).vStep = s.vStep := rfl
  have hlt := s.vdd_lt
  refine ⟨_, ?_, ((s.at_ t).vdd_stepped m t (v := max 620 (s.vdd - s.vStep)) (by omega)).1, State.setLowered_hsf _ _⟩
  rw [exec_voltageLowerStep_runs hr hv, State.stepDown, ha', hl', hd', hs, State.at_hsf, if_pos (by decide), if_pos rfl, if_pos ⟨hd, hp⟩]

theorem admitRaiseStep_spec (s : State) (m : Slack) (t : Nat) :
    (s.vRuns = true → s.vState = 3 → s.adaptive = true → s.hsf.raising.isSome = true → s.vdd < 850 → ∃ u, exec (.admitRaiseStep m t) s = .next u ∧
      u.vdd = min 850 (s.vdd + s.vStep) ∧ u.hsf = s.hsf) ∧
    ((s.vRuns = false ∨ s.vState ≠ 3 ∨ s.adaptive = false ∨ s.hsf.raising = none ∨ 850 ≤ s.vdd) → exec (.admitRaiseStep m t) s = .next (s.at_ t)) := by
  have e : exec (.admitRaiseStep m t) s = execAdmitRaiseStep m t s := rfl
  have h1 : (s.at_ t).vRuns = s.vRuns := rfl
  have h2 : (s.at_ t).vState = s.vState := rfl
  have h3 : (s.at_ t).adaptive = s.adaptive := rfl
  have h4 : (s.at_ t).vdd = s.vdd := rfl
  have h5 : (s.at_ t).vStep = s.vStep := rfl
  rw [e, execAdmitRaiseStep]
  dsimp only
  rw [h1, h2, h3, h4, h5, State.at_hsf]
  refine ⟨fun g1 g2 g3 g4 g5 => ⟨_, congrArg _ (if_pos ⟨g1, g2, g3, g4, g5⟩), State.vdd_vTo _ _ (by omega), ?_⟩, fun h => congrArg _ (if_neg ?_)⟩
  · rw [((s.at_ t).vTo_onlyRegs _ m).hsf, State.at_hsf]
  · rintro ⟨g1, g2, g3, g4, g5⟩
    rcases h with h | h | h | h | h
    · rw [h] at g1
      exact Bool.false_ne_true g1
    · exact h g2
    · rw [h] at g3
      exact Bool.false_ne_true g3
    · rw [h] at g4
      exact Bool.false_ne_true g4
    · omega

end steps

/-! ### HSF_VCTL -/

section vctl
variable {s : State} {v : Nat}

theorem State.vctlStore_onlyRegs (s : State) (v : Nat) : s.onlyRegs (s.vctlStore v) [R.HSF_VCTL] :=
  (((s.set_onlyRegs _ _ (.head _)).trans (State.set_onlyRegs _ _ _ (.head _))).trans (State.set_onlyRegs _ _ _ (.head _))).trans
    (State.set_onlyRegs _ _ _ (.head _))

/-- HSF_VCTL as written. -/
theorem State.vctlStore_get (s : State) (v : Nat) : (s.vctlStore v).get R.HSF_VCTL F.HSF_VCTL_MODE = v / 2 ^ 31 % 2 ∧
    (s.vctlStore v).get R.HSF_VCTL F.HSF_VCTL_VSTEP = max 1 (min 20 (v / 2 ^ 20 % 32)) ∧
    (s.vctlStore v).get R.HSF_VCTL F.HSF_VCTL_VMIN = max 620 (min 850 (v / 2 ^ 10 % 1024)) ∧
    (s.vctlStore v).get R.HSF_VCTL F.HSF_VCTL_VPROG = max 620 (min 850 (v % 1024)) := by
  have fit (k : Nat) : max 620 (min 850 k) < 2 ^ 10 := by omega
  unfold State.vctlStore
  refine ⟨?_, ?_, ?_, State.get_set_fits _ _ F.HSF_VCTL_VPROG (by decide) (fit _)⟩
  · rw [State.get_set_apart _ _ _ _ _ (by decide) (by decide), State.get_set_apart _ _ _ _ _ (by decide) (by decide),
      State.get_set_apart _ _ _ _ _ (by decide) (by decide)]
    exact State.get_set_self _ _ F.HSF_VCTL_MODE _ (by decide)
  · rw [State.get_set_apart _ _ _ _ _ (by decide) (by decide), State.get_set_apart _ _ _ _ _ (by decide) (by decide)]
    exact State.get_set_fits _ _ F.HSF_VCTL_VSTEP (by decide) (show _ < 2 ^ 5 by omega)
  · rw [State.get_set_apart _ _ _ _ _ (by decide) (by decide)]
    exact State.get_set_fits _ _ F.HSF_VCTL_VMIN (by decide) (fit _)

theorem State.modeFresh_rd (s : State) (b : Bool) (a : Nat) : (s.modeFresh b).rd a = s.rd a := by
  obtain ⟨x, hx⟩ : ∃ x, s.modeFresh b = s.setOkSince x := ⟨_, rfl⟩
  rw [hx]
  exact State.rd_congr (s.setOkSince_regs x) a

theorem State.stepStop_onlyRegs (s : State) : s.onlyRegs s.stepStop [R.HSF_VSTAT] := .ite (fun _ => s.setVState_onlyRegs 0) fun _ => .refl ..

theorem State.limitCheck_onlyRegs (s : State) : s.onlyRegs s.limitCheck (R.HSF_HIST :: (List.range 12).map R.CHE_HIST) :=
  .ite (fun _ => s.marginLow_onlyRegs _) fun _ => .refl ..

theorem HSF_V_not_mem : R.HSF_VCTL ∉ R.HSF_HIST :: (List.range 12).map R.CHE_HIST ∧ R.HSF_VSTAT ∉ R.HSF_HIST :: (List.range 12).map R.CHE_HIST := by decide

theorem HSF_V_not_detach : R.HSF_VCTL ∉ detachRegs ∧ R.HSF_VSTAT ∉ detachRegs := by decide

/-- HSF_VCTL after a write that the host makes is what the write stored. -/
theorem State.vctlWrite_vctl (s s0 : State) (f : Bits) : ((s.vctlWrite v).afterWrite s0).get R.HSF_VCTL f = (s.vctlStore v).get R.HSF_VCTL f := by
  rw [State.get, State.afterWrite_rd _ _ HSF_V_not_detach.1, State.vctlWrite, (State.limitCheck_onlyRegs _).2 _ HSF_V_not_mem.1,
    (State.stepStop_onlyRegs _).2 _ (by decide), State.modeFresh_rd]
  rfl

/-- HSF_VSTAT after such a write. -/
theorem State.vctlWrite_vstat (s s0 : State) (f : Bits) : ((s.vctlWrite v).afterWrite s0).get R.HSF_VSTAT f =
    ((s.vctlStore v).modeFresh s.adaptive).stepStop.get R.HSF_VSTAT f := by
  rw [State.get, State.afterWrite_rd _ _ HSF_V_not_detach.2, State.vctlWrite, (State.limitCheck_onlyRegs _).2 _ HSF_V_not_mem.2]
  rfl

theorem State.stepStop_spec (s : State) : s.stepStop.vdd = s.vdd ∧
    ((s.vState = 1 ∨ s.vState = 2 ∨ s.vState = 3 ∧ s.adaptive = false) → s.stepStop.vState = 0) := by
  rw [State.stepStop]
  by_cases h : s.vState = 1 ∨ s.vState = 2 ∨ (s.vState = 3 ∧ !s.adaptive)
  · rw [if_pos h]
    exact ⟨State.vdd_setVState 0, fun _ => State.vState_setVState (by decide)⟩
  · rw [if_neg h]
    exact ⟨rfl, fun hx => absurd (hx.imp id (Or.imp id (And.imp id fun e => by rw [e]; rfl))) h⟩

theorem vctlWrite_spec (hu : s.upFor R.HSF_VCTL) : ∃ u, exec (.vctlWrite v) s = .next u ∧ u.get R.HSF_VCTL F.HSF_VCTL_MODE = v / 2 ^ 31 % 2 ∧
    u.get R.HSF_VCTL F.HSF_VCTL_VSTEP = max 1 (min 20 (v / 2 ^ 20 % 32)) ∧ u.get R.HSF_VCTL F.HSF_VCTL_VMIN = max 620 (min 850 (v / 2 ^ 10 % 1024)) ∧
    u.get R.HSF_VCTL F.HSF_VCTL_VPROG = max 620 (min 850 (v % 1024)) ∧ u.vdd = s.vdd ∧
    ((s.vState = 1 ∨ s.vState = 2 ∨ s.vState = 3 ∧ v / 2 ^ 31 % 2 = 0) → u.vState = 0) := by
  have e : exec (.vctlWrite v) s = execVctlWrite v s := rfl
  obtain ⟨g1, g2, g3, g4⟩ := s.vctlStore_get v
  obtain ⟨w, hw⟩ : ∃ w, w = (s.vctlStore v).modeFresh s.adaptive := ⟨_, rfl⟩
  have hg (f : Bits) : w.get R.HSF_VSTAT f = s.get R.HSF_VSTAT f := by
    rw [hw, State.get, State.modeFresh_rd, (s.vctlStore_onlyRegs v).2 _ (by decide)]
    rfl
  have hm : w.get R.HSF_VCTL F.HSF_VCTL_MODE = v / 2 ^ 31 % 2 := by
    rw [← g1, hw, State.get, State.modeFresh_rd]
    rfl
  obtain ⟨h1, h2⟩ := w.stepStop_spec
  refine ⟨(s.vctlWrite v).afterWrite s, by rw [e, execVctlWrite, State.byHost_upFor hu], ?_, ?_, ?_, ?_, ?_, fun h => ?_⟩
  · rw [State.vctlWrite_vctl, g1]
  · rw [State.vctlWrite_vctl, g2]
  · rw [State.vctlWrite_vctl, g3]
  · rw [State.vctlWrite_vctl, g4]
  · rw [State.vdd, State.vctlWrite_vstat, ← hw]
    exact h1.trans (hg _)
  · rw [State.vState, State.vctlWrite_vstat, ← hw]
    have hv : w.vState = s.vState := hg _
    refine h2 ?_
    rw [hv]
    exact h.imp id (Or.imp id (And.imp id fun h0 => State.flag_of_get0 (hm.trans h0)))

end vctl

/-! ### AVSBus faults -/

theorem State.get_avs_raise (s : State) (f : Bits) : (s.raise Hist.hsf F.HSF_HIST_AVS_ERR).get R.HSF_VSTAT f = s.get R.HSF_VSTAT f :=
  State.get_raise_ne _ _ _ _ (by decide)

/-- The voltage commanded last is kept as the one that failed. -/
def State.setFailed (s : State) (v : Nat) : State := { s with hsf := { s.hsf with failed := v } }
theorem State.setFailed_regs (s : State) (v : Nat) : (s.setFailed v).regs = s.regs := rfl
theorem State.setFailed_hsf (s : State) (v : Nat) : (s.setFailed v).hsf.failed = v := rfl

theorem avsFault_spec (s : State) : (s.vState = 5 → exec .avsFault s = .next s) ∧
    (∀ w : State, w = s.raise Hist.hsf F.HSF_HIST_AVS_ERR → s.vState = 4 → exec .avsFault s = .next (w.reportError 0xE0000 0x0A)) ∧
    (s.vState ≠ 4 → s.vState ≠ 5 → ∃ w : State, exec .avsFault s = .next (w.reportError 0xE0000 0x0A) ∧ w.vState = 4 ∧ w.vdd = s.vdd ∧
      w.hsf.failed = s.commanded ∧ w.get R.HSF_HIST F.HSF_HIST_AVS_ERR = 1) := by
  have e : exec .avsFault s = .next (if s.vState = 5 then s else if s.vState = 4 then s.avsErr else ((s.setFailed s.commanded).setVState 4).avsErr) := rfl
  refine ⟨fun h => e.trans (congrArg _ (if_pos h)), fun w hw h => e.trans (congrArg _ ?_), fun h4 h5 => ⟨((s.setFailed s.commanded).setVState 4).raise Hist.hsf F.HSF_HIST_AVS_ERR,
    e.trans (congrArg _ ?_), ?_, ?_, ?_, State.get_raise _ Hist.hsf _ rfl (by decide)⟩⟩
  · rw [if_neg (by omega), if_pos h, State.avsErr, hw]
  · rw [if_neg h5, if_neg h4, State.avsErr]
  · rw [State.vState, State.get_avs_raise]
    exact State.vState_setVState (by decide)
  · rw [State.vdd, State.get_avs_raise]
    exact (State.vdd_setVState 4).trans (State.vdd_congr (s.setFailed_regs _))
  · rw [(State.raise_onlyRegs _ Hist.hsf _ (.head [])).hsf, (State.setVState_onlyRegs _ 4).hsf, State.setFailed_hsf]

theorem avsRetry_spec (s : State) (h4 : s.vState = 4) (hr : s.vRuns = true) :
    exec (.avsRetry false) s = .next ((s.raise Hist.hsf F.HSF_HIST_AVS_ERR).reportError 0xE0000 0x0A) ∧
    ∃ u, exec (.avsRetry true) s = .next u ∧ u.vdd = s.hsf.failed % 1024 ∧
      u.vState = (if s.lifecycle = 4 then 6 else if s.adaptive && s.hsf.raising.isSome then 3 else 0) ∧ s.onlyRegs u [R.HSF_VSTAT] := by
  have e (ok : Bool) : exec (.avsRetry ok) s = execAvsRetry ok s := rfl
  have hn : ¬ (s.vState ≠ 4 ∨ (!s.vRuns) = true) := by simp [h4, hr]
  rw [e, e, execAvsRetry, execAvsRetry]
  refine ⟨congrArg _ ((if_neg hn).trans (if_neg Bool.false_ne_true)), _, congrArg _ ((if_neg hn).trans (if_pos rfl)), ?_, State.vState_setVState ?_,
    (s.set_onlyRegs _ _ (.head _)).trans (State.setVState_onlyRegs _ _)⟩
  · rw [State.vdd_setVState]
    exact State.get_set_self _ _ F.HSF_VSTAT_VDD _ (by decide)
  · split
    · decide
    · split <;> decide

theorem avsRetry_none {s : State} (ok : Bool) (h : s.vState ≠ 4 ∨ s.vRuns = false) : exec (.avsRetry ok) s = .next s := by
  have e : exec (.avsRetry ok) s = execAvsRetry ok s := rfl
  rw [e, execAvsRetry]
  exact congrArg _ (if_pos (h.imp id fun h => by rw [h]; rfl))

theorem State.vRuns_false {s : State} (h : s.phase ≠ 5 ∨ s.rst.warmDue = true ∨ s.flag R.AXL_STAT F.AXL_STAT_PFAIL = true) : s.vRuns = false := by
  rw [State.vRuns]
  rcases h with h | h | h <;> simp [h]

theorem State.canRaise_false {s : State} (h : s.flag R.AXL_STAT F.AXL_STAT_PFAIL = true) : s.canRaise = false := by
  simp [State.canRaise, h]

/-! ### Ribbons and crossings -/

theorem handshakeTimeout_spec {s x : State} (b : Fin 96) (l : LostWord) (t : Nat) (hx : x = (s.at_ t).wordLost l) :
    ∃ w : State, exec (.handshakeTimeout b l t) s = .next (w.reportError (0x80000 + b) 0x05) ∧ x.onlyRegs w [R.HSF_TO_CNT, R.HSF_HIST] ∧
      (w.rd R.HSF_TO_CNT).toNat = min 0xFFFFFFFF ((x.rd R.HSF_TO_CNT).toNat + 1) ∧ w.get R.HSF_HIST F.HSF_HIST_HS_TIMEOUT = 1 := by
  refine ⟨(x.inc R.HSF_TO_CNT).raise Hist.hsf F.HSF_HIST_HS_TIMEOUT, by rw [hx]; rfl, ?_, ?_, State.get_raise _ Hist.hsf _ rfl (by decide)⟩
  · exact (x.inc_onlyRegs (.head _)).trans (State.raise_onlyRegs _ Hist.hsf _ (.tail _ (.head _)))
  · rw [State.rd_raise_ne _ _ _ (by decide), State.rd_inc]

theorem wordLost_spec (s : State) : s.wordLost .other = s ∧
    (∀ h off k, s.wordAt h off = some k → s.wordLost (.write h off) = { s with fst := { s.fst with lostW := s.fst.lostW ++ [k] } }) ∧
    (∀ c h off k, s.wordAt h off = some k → s.wordLost (.read c h off) = { s with fst := { s.fst with lostR := s.fst.lostR ++ [(c.map (·.val), k)] } }) ∧
    (∀ (u : Fin 160) line samp, s.wordLost (.fetch u line samp) = s.unitUnderrun u line samp) ∧
    (∀ (d : Fin 512) line samp, (s.route d).isSome = true → s.wordLost (.essence d line samp) = s.cutLine d line samp) := by
  refine ⟨rfl, fun h off k hk => ?_, fun c h off k hk => ?_, fun u line samp => rfl, fun d line samp hr => if_pos hr⟩
  · simp only [State.wordLost, hk]
  · simp only [State.wordLost, hk]

theorem crossingRelease_spec (s : State) (d : Fin 250) (n : Nat) :
    (s.get (R.HSF_XSTAT d) F.HSF_XSTAT_STATE ≠ 3 → exec (.crossingRelease d n) s = .next s) ∧
    (s.get (R.HSF_XSTAT d) F.HSF_XSTAT_STATE = 3 → ∃ u, exec (.crossingRelease d n) s = .next u ∧ u.get (R.HSF_XSTAT d) F.HSF_XSTAT_STATE = 0 ∧
      (n = 0 → u.get (R.HSF_XSTAT d) F.HSF_XSTAT_DROP = s.get (R.HSF_XSTAT d) F.HSF_XSTAT_DROP) ∧
      (n ≠ 0 → u.get (R.HSF_XSTAT d) F.HSF_XSTAT_DROP = 1 ∧ u.get R.HSF_HIST F.HSF_HIST_XDROP = 1 ∧
        (u.rd (R.HSF_XDROP_CNT d)).toNat = min 0xFFFFFFFF ((s.rd (R.HSF_XDROP_CNT d)).toNat + n)) ∧
      s.onlyRegs u [R.HSF_XSTAT d, R.HSF_XDROP_CNT d, R.HSF_HIST]) := by
  have e : exec (.crossingRelease d n) s = execCrossingRelease d n s := rfl
  have hd := d.isLt
  obtain ⟨x, hx⟩ : ∃ x, x = s.set (R.HSF_XSTAT d) F.HSF_XSTAT_STATE 0 := ⟨_, rfl⟩
  obtain ⟨d1, d2⟩ := State.xDrop_spec (s := x) (n := n) hd
  have hk := (State.xDrop_keeps (s := x) (n := n) hd (f := F.HSF_XSTAT_STATE) (by decide)).1
  rw [e, execCrossingRelease]
  refine ⟨fun h => congrArg _ (if_neg h), fun h => ⟨x.xDrop d n, congrArg _ ((if_pos h).trans (by rw [hx])), ?_, fun h0 => ?_, fun h0 => ⟨(d2 h0).1, (d2 h0).2, ?_⟩, ?_⟩⟩
  · rw [hk, hx]
    exact State.get_set_fits _ _ F.HSF_XSTAT_STATE (by decide) (by decide)
  · rw [h0, State.xDrop, if_pos rfl, hx]
    exact State.get_set_apart _ _ _ _ _ (by decide) (by decide)
  · rw [d1, hx, State.rd_set_ne _ _ _ (XSTAT_ne d d hd).2.2.1.symm]
  · rw [hx]
    exact (s.set_onlyRegs _ _ (.head _)).trans (State.xDrop_onlyRegs _ _ _)

theorem requester_levels (f n low crit d k t : Nat) :
    (100 * f < crit * n → (Requester.layer f n low crit).level = 2) ∧ (crit * n ≤ 100 * f → 100 * f < low * n → (Requester.layer f n low crit).level = 1) ∧
    (7 * n < 8 * f → (Requester.writer f n).level = 2) ∧ (8 * f ≤ 7 * n → n < 2 * f → (Requester.writer f n).level = 1) ∧
    (3 * n < 4 * f → (Requester.receive f n).level = 2) ∧ (4 * f < n → (Requester.transmit f n).level = 2) ∧
    (d < t → (Requester.slice d k t).level = 2) ∧ (t ≤ d → d < t + k → (Requester.slice d k t).level = 1) :=
  ⟨fun h => if_pos h, fun h1 h2 => (if_neg (Nat.not_lt.mpr h1)).trans (if_pos h2), fun h => if_pos h,
    fun h1 h2 => (if_neg (Nat.not_lt.mpr h1)).trans (if_pos h2), fun h => if_pos h, fun h => if_pos h, fun h => if_pos h,
    fun h1 h2 => (if_neg (Nat.not_lt.mpr h1)).trans (if_pos h2)⟩

theorem over_hostDma {a : Requester} (h : a ≠ .hostDma) : a.over_ .hostDma = true ∧ Requester.hostDma.over_ a = false := by
  have h0 : Requester.hostDma.level = 0 := rfl
  have hb : (a == Requester.hostDma) = false := by simpa using h
  have hx : (a != Requester.hostDma) = true := by simpa using h
  constructor
  · rw [Requester.over_, h0, hx]
    rcases Nat.eq_zero_or_pos a.level with hl | hl
    · simp [hl]
    · simp [hl]
  · rw [Requester.over_, h0, hb]
    simp

/-- Settles O47: readings, steps, faults and crossings by the registers each writes. -/
theorem voltageAndFabric : Obligations.VoltageAndFabric := by
  unfold Obligations.VoltageAndFabric
  refine ⟨⟨slackMeasure_spec, fun s m t c => slackMeasure_cross, fun s m t h => ?_, fun s m t => steps_fixed, fun s m t => steps_adaptive,
    fun s m t => lowerStep_end, admitRaiseStep_spec, fun s v => vctlWrite_spec, avsFault_spec, fun s ok => avsRetry_none ok, avsRetry_spec,
    fun s => State.vRuns_false, fun s => State.canRaise_false⟩, fun s x b l t => handshakeTimeout_spec b l t, wordLost_spec, crossingRelease_spec,
    requester_levels, fun a b h => ?_, fun a => over_hostDma⟩
  · have hi : (s.at_ t).vIdle = true := State.vIdle_of h
    rw [exec_voltageLowerStep, exec_voltageRaiseStep, hi, if_pos rfl, Bool.true_or, if_pos rfl]
    exact ⟨rfl, rfl⟩
  · rw [Requester.over_, decide_eq_true h, Bool.true_or]

end Sys2Proof.Machine

/-! History bits and vectors (O51). -/
namespace Sys2Proof.Machine

theorem State.raiseBit_spec (s : State) (h : Hist) (b : Nat) (hb : b < 32) : (s.flag h.reg (bit b) = true → s.raiseBit h b = s) ∧
    (s.flag h.reg (bit b) = false → ∃ t, t = s.set h.reg (bit b) 1 ∧ t.flag h.reg (bit b) = true ∧
      (s.flag h.mask (bit (b - h.lo + h.mlo)) = false → s.raiseBit h b = t) ∧
      (s.flag h.mask (bit (b - h.lo + h.mlo)) = true → s.raiseBit h b = t.raiseVec h.vec)) := by
  refine ⟨fun h1 => if_pos h1, fun h0 => ⟨_, rfl, State.flag_of_get ?_, fun hm => ?_, fun hm => ?_⟩⟩
  · exact State.get_set_self s h.reg (bit b) 1 (show b + 1 ≤ 32 by omega)
  · rw [State.raiseBit, h0, hm]
    exact (if_neg Bool.false_ne_true).trans (if_neg Bool.false_ne_true)
  · rw [State.raiseBit, h0, hm]
    exact (if_neg Bool.false_ne_true).trans (if_pos rfl)

theorem State.raiseVec_spec (s : State) (v : Nat) :
    ((tabGet {} s.host.msix v).ctl.getLsbD 0 = true → tabGet false (s.raiseVec v).host.pba v = true ∧ (s.raiseVec v).host.sent = s.host.sent) ∧
    ((tabGet {} s.host.msix v).ctl.getLsbD 0 = false → tabGet 0 (s.raiseVec v).host.sent v = tabGet 0 s.host.sent v + 1 ∧
      (s.raiseVec v).host.pba = s.host.pba) := by
  rw [State.raiseVec]
  refine ⟨fun h => ?_, fun h => ?_⟩
  · rw [if_pos h]
    exact ⟨tabGet_set_self false s.host.pba v true, rfl⟩
  · rw [if_neg (by rw [h]; exact Bool.false_ne_true)]
    exact ⟨tabGet_set_self 0 s.host.sent v (tabGet 0 s.host.sent v + 1), rfl⟩

/-- The vectors that the bits a mask write newly enables raise. -/
theorem State.mem_enabledVecs (s : State) (a : Nat) (new : Word) (v : Nat) : v ∈ s.enabledVecs a new ↔
    ∃ p ∈ maskHists a, p.1.vec = v ∧ ∃ i < p.2, new.getLsbD (p.1.mlo + i) = true ∧ s.flag p.1.reg (bit (p.1.lo + i)) = true := by
  have hany (p : Hist × Nat) : ((List.range p.2).any fun i => new.getLsbD (p.1.mlo + i) && s.flag p.1.reg (bit (p.1.lo + i))) = true ↔
      ∃ i < p.2, new.getLsbD (p.1.mlo + i) = true ∧ s.flag p.1.reg (bit (p.1.lo + i)) = true := by
    simp only [List.any_eq_true, List.mem_range, Bool.and_eq_true]
  rw [State.enabledVecs, List.mem_eraseDups, List.mem_filterMap]
  refine ⟨fun ⟨p, hp, hv⟩ => ?_, fun ⟨p, hp, hv, hi⟩ => ⟨p, hp, by rw [if_pos ((hany p).mpr hi), hv]⟩⟩
  split at hv
  · rename_i h
    exact ⟨p, hp, Option.some.inj hv, (hany p).mp h⟩
  · cases hv

/-- Settles O51: by the branches of a raise, and by what a mask register enables. -/
theorem historyBitsAndVectors : Obligations.HistoryBitsAndVectors := by
  unfold Obligations.HistoryBitsAndVectors
  exact ⟨State.raiseBit_spec, State.raiseVec_spec, fun s a v => ⟨_, rfl, rfl⟩, State.mem_enabledVecs⟩

end Sys2Proof.Machine

/-! Board management and test (O60). -/
namespace Sys2Proof.Machine

variable {s : State}

theorem exec_i2cRead (s : State) (cmd : Nat) :
    exec (.i2cRead cmd) s = .next { s with pkg := { s.pkg with last := if s.i2cUp then some (s.tlm cmd) else none } } := rfl

/-- TLM_HIST after a write: the bits written 1 are clear. -/
theorem testBit_tlmClear (h v : Nat) {b : Nat} (hb : b < 2) : (h &&& (3 - v % 4)).testBit b = (h.testBit b && !v.testBit b) := by
  have hm : ∀ m < 4, ∀ b < 2, (3 - m).testBit b = !m.testBit b := by decide
  have hv : (v % 4).testBit b = v.testBit b := by
    rw [show (4 : Nat) = 2 ^ 2 from rfl, Nat.testBit_mod_two_pow, decide_eq_true hb, Bool.true_and]
  rw [Nat.testBit_and, hm _ (Nat.mod_lt _ (by decide)) b hb, hv]

theorem i2cWrite_spec (s : State) (cmd v : Nat) : ((s.i2cUp = false ∨ cmd ≠ 4) → exec (.i2cWrite cmd v) s = .next s) ∧
    (s.i2cUp = true → cmd = 4 → ∃ u, exec (.i2cWrite cmd v) s = .next u ∧
      u = { s with pkg := { s.pkg with hist := u.pkg.hist } } ∧ ∀ b < 2, u.pkg.hist.testBit b = (s.pkg.hist.testBit b && !v.testBit b)) := by
  have e : exec (.i2cWrite cmd v) s = execI2cWrite cmd v s := rfl
  rw [e, execI2cWrite]
  refine ⟨fun h => congrArg _ (if_neg fun ⟨h1, h2⟩ => ?_), fun h1 h2 => ⟨_, congrArg _ (if_pos ⟨h1, h2⟩), rfl, fun b hb => testBit_tlmClear _ _ hb⟩⟩
  rcases h with h | h
  · rw [h] at h1
    exact Bool.false_ne_true h1
  · exact h h2

theorem exec_extTempRead (s : State) (t : Nat) :
    (s.flag R.REF_CTL F.REF_CTL_TEMP_SRC = false → ∀ v, exec (.extTempRead v t) s = .next (s.at_ t)) ∧
    (s.flag R.REF_CTL F.REF_CTL_TEMP_SRC = true →
      (∀ x, exec (.extTempRead (some x) t) s = .next { s with now := t, pkg := { s.pkg with ext := some x, extAt := t } }) ∧
      exec (.extTempRead none t) s = .next (if s.pkg.extAt + 10 * ticksPerSec < t then { s with now := t, pkg := { s.pkg with ext := none } } else s.at_ t)) := by
  have e (v : Option Int) : exec (.extTempRead v t) s = execExtTempRead v t s := rfl
  have off : ∀ v, s.flag R.REF_CTL F.REF_CTL_TEMP_SRC = false → execExtTempRead v t s = .next (s.at_ t) := fun v h =>
    congrArg Host.Outcome.next (if_pos (by rw [State.flag_at, h]; rfl))
  have on : s.flag R.REF_CTL F.REF_CTL_TEMP_SRC = true → ¬ (!(s.at_ t).flag R.REF_CTL F.REF_CTL_TEMP_SRC) = true := fun h => by
    rw [State.flag_at, h]
    exact Bool.false_ne_true
  refine ⟨fun h v => (e v).trans (off v h), fun h => ⟨fun x => ?_, ?_⟩⟩
  · rw [e]
    exact congrArg Host.Outcome.next (if_neg (on h))
  · rw [e]
    exact congrArg Host.Outcome.next (if_neg (on h))

theorem extTempRead_spec (s : State) (v : Option Int) (t : Nat) : (s.flag R.REF_CTL F.REF_CTL_TEMP_SRC = false → exec (.extTempRead v t) s = .next (s.at_ t)) ∧
    (s.flag R.REF_CTL F.REF_CTL_TEMP_SRC = true →
      (∀ x, v = some x → exec (.extTempRead v t) s = .next { s with now := t, pkg := { s.pkg with ext := some x, extAt := t } }) ∧
      (v = none → (s.pkg.extAt + 10 * ticksPerSec < t → exec (.extTempRead v t) s = .next { s with now := t, pkg := { s.pkg with ext := none } }) ∧
        (t ≤ s.pkg.extAt + 10 * ticksPerSec → exec (.extTempRead v t) s = .next (s.at_ t)))) := by
  obtain ⟨off, on⟩ := exec_extTempRead s t
  refine ⟨fun h => off h v, fun h => ⟨fun x hx => hx ▸ (on h).1 x, fun hv => ?_⟩⟩
  subst hv
  refine ⟨fun ht => ?_, fun ht => ?_⟩
  · rw [(on h).2, if_pos ht]
  · rw [(on h).2, if_neg (Nat.not_lt.mpr ht)]

theorem boundaryScan_spec (s : State) (op : Jtag) :
    (op = .debug → s.get R.SEC_STAT F.SEC_STAT_DEBUG = 0 → exec (.boundaryScanInstruction op) s = .next s) ∧
    ((op ≠ .debug ∨ s.get R.SEC_STAT F.SEC_STAT_DEBUG ≠ 0) → ∃ u, exec (.boundaryScanInstruction op) s = .next u ∧ u.pkg.jtag = op ∧
      u.pkg.tdo = (if op = .idcode then some 0xB72720F3 else none) ∧ u = { s with pkg := u.pkg }) := by
  have e : exec (.boundaryScanInstruction op) s = execBoundaryScanInstruction op s := rfl
  rw [e, execBoundaryScanInstruction]
  exact ⟨fun h1 h2 => congrArg _ (if_pos ⟨h1, h2⟩),
    fun h => ⟨_, congrArg _ (if_neg fun ⟨h1, h2⟩ => h.elim (· h1) (· h2)), rfl, rfl, rfl⟩⟩

theorem overTemperature_spec (s : State) (k : Int) : ∃ u, exec (.overTemperature k) s = .next u ∧
    u = { s with pkg := { s.pkg with temp := k, ot := decide (s.tempMax < k), hist := u.pkg.hist } } ∧
    u.pkg.hist.testBit 1 = (s.pkg.hist.testBit 1 || decide (s.tempMax < k)) ∧ u.pkg.hist.testBit 0 = s.pkg.hist.testBit 0 := by
  have e : exec (.overTemperature k) s = .next (s.senseTemp k) := rfl
  refine ⟨_, e, rfl, ?_, ?_⟩
  all_goals
    rw [State.senseTemp]
    dsimp only
    cases decide (s.tempMax < k)
  · rw [Bool.or_false, if_neg Bool.false_ne_true]
  · rw [if_pos rfl, Nat.testBit_or, show (2 : Nat).testBit 1 = true by decide]
  · rw [if_neg Bool.false_ne_true]
  · rw [if_pos rfl, Nat.testBit_or, show (2 : Nat).testBit 0 = false by decide, Bool.or_false]

theorem State.tlm_spec (s : State) : s.tlm 0 = 0x7272 ∧ s.tlm 1 = BitVec.ofInt 16 s.pkg.temp ∧ s.tlm 2 = BitVec.ofNat 16 s.vdd ∧
    s.tlm 4 = BitVec.ofNat 16 s.pkg.hist ∧ ∀ c, 4 < c → s.tlm c = 0 := by
  refine ⟨rfl, rfl, rfl, rfl, fun c hc => ?_⟩
  match c, hc with
  | c + 5, _ => rfl

/-- Settles O60: each command by the condition it acts under. -/
theorem boardManagement : Obligations.BoardManagement := by
  unfold Obligations.BoardManagement
  refine ⟨fun s cmd => ⟨fun h => ?_, fun h => ?_⟩, State.tlm_spec, i2cWrite_spec, extTempRead_spec, boundaryScan_spec,
    fun s => ⟨fun h => if_pos h, fun h => if_neg h⟩, overTemperature_spec⟩
  · rw [exec_i2cRead, h, if_pos rfl]
  · rw [exec_i2cRead, h, if_neg Bool.false_ne_true]

end Sys2Proof.Machine

/-! Error records, targeted self-tests, acknowledgement and unfencing (O59). -/
namespace Sys2Proof.Machine

section report
variable {s w : State} {u src : Nat}

theorem errorDetected_spec (s : State) (u src t : Nat) : ((u < 65536 ∨ 1048576 ≤ u) → exec (.errorDetected u src t) s = .next s) ∧
    (65536 ≤ u → u < 1048576 → exec (.errorDetected u src t) s = .next ((s.at_ t).reportError u (src % 256))) := by
  have e : exec (.errorDetected u src t) s = execErrorDetected u src t s := rfl
  rw [e, execErrorDetected]
  exact ⟨fun h => congrArg _ (if_neg (by omega)), fun h1 h2 => congrArg _ (if_pos ⟨h1, h2⟩)⟩

/-- Unit `u` has seen one error more. -/
def State.erred (s : State) (u : Nat) : State := s.setFltUnit u { s.fltUnit u with errors := min 4095 ((s.fltUnit u).errors + 1) }

theorem State.fltUnit_setFltUnit (s : State) (u : Nat) (x : FltUnit) : (s.setFltUnit u x).fltUnit u = x := tabGet_set_self ({} : FltUnit) s.flt.units u x

theorem State.fltUnit_congr {s t : State} (h : t.flt.units = s.flt.units) (u : Nat) : t.fltUnit u = s.fltUnit u := by
  rw [State.fltUnit, State.fltUnit, h]

theorem State.erred_fltUnit (s : State) (u : Nat) : (s.erred u).fltUnit u = { s.fltUnit u with errors := min 4095 ((s.fltUnit u).errors + 1) } :=
  s.fltUnit_setFltUnit u _

theorem State.oldestRec_congr {s t : State} (h : t.flt.recs = s.flt.recs) (st : Nat) : t.oldestRec st = s.oldestRec st := by
  rw [State.oldestRec, State.oldestRec, h]

/-- What an error does to the records, its unit's count apart. -/
def State.recordError (s : State) (u src : Nat) : State :=
  match s.recOf u 0 with
  | some r => s.setRec { r with rep := min 255 (r.rep + 1) }
  | none => match s.recOf u 1 with
    | some r => s.lasting r 16 5
    | none => s.queueRec u src

theorem State.reportError_eq (s : State) (u src : Nat) :
    s.reportError u src = if (s.fltUnit u).fenced then s.erred u else (s.erred u).recordError u src := by
  unfold State.reportError
  dsimp only
  change (if _ then _ else _) = if _ then _ else (s.setFltUnit u { s.fltUnit u with errors := min 4095 ((s.fltUnit u).errors + 1) }).recordError u src
  unfold State.recordError
  cases (s.setFltUnit u { s.fltUnit u with errors := min 4095 ((s.fltUnit u).errors + 1) }).recOf u 0 with
  | some r => rfl
  | none =>
    cases (s.setFltUnit u { s.fltUnit u with errors := min 4095 ((s.fltUnit u).errors + 1) }).recOf u 1 <;> rfl

/-- An error by what records its unit has. -/
theorem State.reportError_fenced (hf : (s.fltUnit u).fenced = true) : s.reportError u src = s.erred u := (s.reportError_eq u src).trans (if_pos hf)

theorem State.reportError_open (hf : (s.fltUnit u).fenced = false) : s.reportError u src = (s.erred u).recordError u src :=
  (s.reportError_eq u src).trans (if_neg (by rw [hf]; exact Bool.false_ne_true))

theorem State.reportError_pending (hf : (s.fltUnit u).fenced = false) {r : FltRec} (hr : s.recOf u 0 = some r) :
    s.reportError u src = (s.erred u).setRec { r with rep := min 255 (r.rep + 1) } := by
  have h : (s.erred u).recOf u 0 = some r := hr
  rw [State.reportError_open hf, State.recordError, h]

theorem State.reportError_testing (hf : (s.fltUnit u).fenced = false) (h0 : s.recOf u 0 = none) {r : FltRec} (hr : s.recOf u 1 = some r) :
    s.reportError u src = (s.erred u).lasting r 16 5 := by
  have h : (s.erred u).recOf u 0 = none := h0
  have h1 : (s.erred u).recOf u 1 = some r := hr
  rw [State.reportError_open hf, State.recordError, h]
  dsimp only
  rw [h1]

theorem State.reportError_new (hf : (s.fltUnit u).fenced = false) (h0 : s.recOf u 0 = none) (h1 : s.recOf u 1 = none) :
    s.reportError u src = (s.erred u).queueRec u src := by
  have h : (s.erred u).recOf u 0 = none := h0
  have h1 : (s.erred u).recOf u 1 = none := h1
  rw [State.reportError_open hf, State.recordError, h]
  dsimp only
  rw [h1]

/-- A record that the queue has room for. -/
theorem State.makeRec_spec (s : State) (u src st : Nat) : (∃ r, (s.makeRec u src st).flt.recs = s.flt.recs ++ [r] ∧ r.unit = u ∧ r.source = src ∧ r.st = st ∧
      r.seq = s.flt.seq ∧ r.rep = 0) ∧ ((s.makeRec u src st).fltUnit u).errors = (s.fltUnit u).errors ∧
    (s.makeRec u src st).get R.FLT_HIST F.FLT_HIST_NEW = 1 ∧ (s.makeRec u src st).flt.seq = (s.flt.seq + 1) % 65536 := by
  obtain ⟨k, hk⟩ : ∃ k, k = (lowest 64 fun k => !s.flt.recs.any fun r => r.slot == k).getD 0 := ⟨_, rfl⟩
  obtain ⟨r, hr⟩ : ∃ r : FltRec, r = { slot := k, st := st, source := src, unit := u, seq := s.flt.seq, time := s.nsNow } := ⟨_, rfl⟩
  obtain ⟨x, hx⟩ : ∃ x : State, x = { s with flt := { s.flt with recs := s.flt.recs ++ [r], seq := (s.flt.seq + 1) % 65536 } } := ⟨_, rfl⟩
  have hm : s.makeRec u src st = (x.setFltUnit u { x.fltUnit u with retest := false }).raise Hist.flt F.FLT_HIST_NEW := by rw [hx, hr, hk]; rfl
  rw [hm, State.raise_flt]
  refine ⟨⟨r, by rw [hx]; rfl, by rw [hr], by rw [hr], by rw [hr], by rw [hr], by rw [hr]⟩, ?_, State.get_raise _ Hist.flt _ rfl (by decide), by rw [hx]; rfl⟩
  rw [State.fltUnit_congr (congrArg FltSt.units (State.raise_flt ..)), State.fltUnit_setFltUnit, hx]
  rfl

theorem State.queueRec_room (hl : s.flt.recs.length < 64) : s.queueRec u src = s.makeRec u src (if testable u then 0 else 4) := by
  rw [State.queueRec, State.roomRec, if_pos hl]

theorem State.queueRec_full (hl : 64 ≤ s.flt.recs.length) (h2 : s.oldestRec 2 = none) (h4 : s.oldestRec 4 = none) : s.queueRec u src =
    (s.raise Hist.flt F.FLT_HIST_FLT_QUEUE_OVF).setFltUnit u
      { (s.raise Hist.flt F.FLT_HIST_FLT_QUEUE_OVF).fltUnit u with retest := testable u, src := src } := by
  have hr : (s.raise Hist.flt F.FLT_HIST_FLT_QUEUE_OVF).flt.recs = s.flt.recs := congrArg FltSt.recs (s.raise_flt ..)
  rw [State.queueRec, State.roomRec, if_neg (Nat.not_lt.mpr hl)]
  dsimp only
  rw [State.oldestRec_congr hr, State.oldestRec_congr hr, h2, h4]
  rfl

/-- An error that finds the queue full of records that stay. -/
theorem State.queueRec_full_spec (hl : 64 ≤ s.flt.recs.length) (h2 : s.oldestRec 2 = none) (h4 : s.oldestRec 4 = none) :
    (s.queueRec u src).flt.recs = s.flt.recs ∧ (s.queueRec u src).get R.FLT_HIST F.FLT_HIST_FLT_QUEUE_OVF = 1 ∧
    ((s.queueRec u src).fltUnit u).retest = testable u := by
  rw [State.queueRec_full hl h2 h4]
  obtain ⟨x, hx⟩ : ∃ x, x = s.raise Hist.flt F.FLT_HIST_FLT_QUEUE_OVF := ⟨_, rfl⟩
  have hg : x.get R.FLT_HIST F.FLT_HIST_FLT_QUEUE_OVF = 1 := hx ▸ State.get_raise _ Hist.flt _ rfl (by decide)
  have hr : x.flt = s.flt := hx ▸ s.raise_flt ..
  rw [← hx]
  have hq (y : FltUnit) : (x.setFltUnit u y).regs = x.regs := rfl
  have hrecs (y : FltUnit) : (x.setFltUnit u y).flt.recs = x.flt.recs := rfl
  refine ⟨(hrecs _).trans (congrArg FltSt.recs hr), (State.get_congr (hq _) _ _).trans hg, ?_⟩
  rw [State.fltUnit_setFltUnit]

theorem reportError_spec (hw : w = s.reportError u src) :
    ((s.fltUnit u).fenced = true → w.flt.recs = s.flt.recs ∧ (w.fltUnit u).errors = min 4095 ((s.fltUnit u).errors + 1)) ∧
    ((s.fltUnit u).fenced = false → (∀ r, s.recOf u 0 = some r → (w.fltUnit u).errors = min 4095 ((s.fltUnit u).errors + 1) ∧
        w.flt.recs = s.flt.recs.map fun x => if x.slot = r.slot then { r with rep := min 255 (r.rep + 1) } else x) ∧
      (s.recOf u 0 = none → (∀ r, s.recOf u 1 = some r →
          w = (s.setFltUnit u { s.fltUnit u with errors := min 4095 ((s.fltUnit u).errors + 1) }).lasting r 16 5) ∧
        (s.recOf u 1 = none → (s.flt.recs.length < 64 → (∃ r, w.flt.recs = s.flt.recs ++ [r] ∧ r.unit = u ∧ r.source = src ∧
              r.st = (if testable u then 0 else 4) ∧ r.seq = s.flt.seq ∧ r.rep = 0) ∧
            (w.fltUnit u).errors = min 4095 ((s.fltUnit u).errors + 1) ∧ w.get R.FLT_HIST F.FLT_HIST_NEW = 1 ∧ w.flt.seq = (s.flt.seq + 1) % 65536) ∧
          (64 ≤ s.flt.recs.length → s.oldestRec 2 = none → s.oldestRec 4 = none → w.flt.recs = s.flt.recs ∧
            w.get R.FLT_HIST F.FLT_HIST_FLT_QUEUE_OVF = 1 ∧ (w.fltUnit u).retest = testable u)))) := by
  subst hw
  refine ⟨fun hf => ?_, fun hf => ⟨fun r hr => ?_, fun h0 => ⟨fun r hr => State.reportError_testing hf h0 hr, fun h1 => ⟨fun hl => ?_, fun hl h2 h4 => ?_⟩⟩⟩⟩
  · rw [State.reportError_fenced hf, State.erred_fltUnit]
    exact ⟨rfl, rfl⟩
  · rw [State.reportError_pending hf hr]
    refine ⟨?_, rfl⟩
    have hu : ((s.erred u).setRec { r with rep := min 255 (r.rep + 1) }).fltUnit u = (s.erred u).fltUnit u := rfl
    rw [hu, State.erred_fltUnit]
  · obtain ⟨h1', h2', h3', h4'⟩ := (s.erred u).makeRec_spec u src (if testable u then 0 else 4)
    rw [State.reportError_new hf h0 h1, State.queueRec_room (s := s.erred u) hl]
    rw [State.erred_fltUnit] at h2'
    exact ⟨h1', h2', h3', h4'⟩
  · rw [State.reportError_new hf h0 h1]
    exact State.queueRec_full_spec (s := s.erred u) hl h2 h4

end report

/-! ### Self-tests -/

section tests
variable {s : State} {t : Nat}

theorem exec_selfTestStart_none (h : s.testing.isSome = true ∨ s.isReady = false) : exec (.selfTestStart t) s = .next (s.at_ t) := by
  have hc : ((s.at_ t).testing.isSome || !(s.at_ t).isReady) = true := by
    have h1 : (s.at_ t).testing = s.testing := rfl
    have h2 : (s.at_ t).isReady = s.isReady := rfl
    rw [h1, h2]
    rcases h with h | h <;> simp [h]
  exact congrArg Host.Outcome.next (if_pos hc)

/-- The record whose test begins becomes TESTING. -/
def State.testRec (s : State) (t : Nat) (r : FltRec) : State := ({ s with flt := { s.flt with since := t } } : State).setRec { r with st := 1 }

theorem selfTestStart_spec (h1 : s.testing = none) (h2 : s.isReady = true) :
    ((s.at_ t).nextTest = none → exec (.selfTestStart t) s = .next (s.at_ t)) ∧
    (∀ r, s.oldestRec 0 = some r → ∃ w : State, exec (.selfTestStart t) s = .next (w.testBegin r.unit).sdiInputs ∧
      w.flt.since = t ∧ w.flt.recs = s.flt.recs.map (fun x => if x.slot = r.slot then { r with st := 1 } else x)) := by
  have e : exec (.selfTestStart t) s = execSelfTestStart t s := rfl
  have hn : ¬ ((s.at_ t).testing.isSome || !(s.at_ t).isReady) = true := by
    have g1 : (s.at_ t).testing = none := h1
    have g2 : (s.at_ t).isReady = true := h2
    rw [g1, g2]
    decide
  rw [e, execSelfTestStart]
  dsimp only
  rw [if_neg hn]
  refine ⟨fun h => by rw [h], fun r hr => ⟨(s.at_ t).testRec t r, ?_, rfl, rfl⟩⟩
  have ho : (s.at_ t).nextTest = some (r, s.at_ t) := by
    have g : (s.at_ t).oldestRec 0 = some r := hr
    rw [State.nextTest, g]
  rw [ho]
  rfl

theorem selfTestEnd_spec (s : State) (r : TestRes) (t : Nat) (c : FltRec) : (s.testing = none → exec (.selfTestEnd r t) s = .next (s.at_ t)) ∧
    (s.testing = some c → exec (.selfTestEnd .pass t) s = .next ((s.at_ t).testPass c) ∧
      (∀ rows, exec (.selfTestEnd (.fail rows) t) s = .next ((s.at_ t).testFail c rows)) ∧
      exec (.selfTestEnd .abandoned t) s = .next ((s.at_ t).testAbandon c true)) := by
  have e (r : TestRes) : exec (.selfTestEnd r t) s = execSelfTestEnd r t s := rfl
  refine ⟨fun h => ?_, fun h => ⟨?_, fun rows => ?_, ?_⟩⟩
  · have h' : (s.at_ t).testing = none := h
    rw [e, execSelfTestEnd]
    dsimp only
    rw [h']
  all_goals
    have h' : (s.at_ t).testing = some c := h
    rw [e, execSelfTestEnd]
    dsimp only
    rw [h']

/-- The record in a slot after it was replaced. -/
theorem State.mem_setRec {s : State} {r x : FltRec} (hx : x ∈ (s.setRec r).flt.recs) (hs : x.slot = r.slot) : x = r := by
  obtain ⟨y, -, rfl⟩ := List.mem_map.mp hx
  by_cases h : y.slot = r.slot
  · exact if_pos h
  · rw [if_neg h] at hs
    exact absurd hs h

variable {c : FltRec}

/-- A test passed: the record is TRANSIENT, and its unit counts one more. -/
def State.passed_ (s : State) (c : FltRec) : State :=
  (((s.setRec { c with st := 2, tus := min 65535 ((s.now - s.flt.since) / ticksPerUs) }).setFltUnit c.unit
    { s.fltUnit c.unit with trans := min 4095 ((s.fltUnit c.unit).trans + 1) }).inc R.FLT_TRANSIENT_CNT).raise Hist.flt F.FLT_HIST_TRANSIENT

theorem testPass_spec (hf : (s.fltUnit c.unit).fenced = false) : ∃ w : State, s.testPass c = w.testOver c.unit ∧ w.get R.FLT_HIST F.FLT_HIST_TRANSIENT = 1 ∧
    (w.rd R.FLT_TRANSIENT_CNT).toNat = min 0xFFFFFFFF ((s.rd R.FLT_TRANSIENT_CNT).toNat + 1) ∧
    (w.fltUnit c.unit).trans = min 4095 ((s.fltUnit c.unit).trans + 1) ∧ ∀ x ∈ w.flt.recs, x.slot = c.slot → x.st = 2 := by
  obtain ⟨r, hr⟩ : ∃ r : FltRec, r = { c with st := 2, tus := min 65535 ((s.now - s.flt.since) / ticksPerUs) } := ⟨_, rfl⟩
  obtain ⟨y, hy⟩ : ∃ y : FltUnit, y = { s.fltUnit c.unit with trans := min 4095 ((s.fltUnit c.unit).trans + 1) } := ⟨_, rfl⟩
  have hp : s.passed_ c = (((s.setRec r).setFltUnit c.unit y).inc R.FLT_TRANSIENT_CNT).raise Hist.flt F.FLT_HIST_TRANSIENT := by rw [hr, hy]; rfl
  have hflt : (s.passed_ c).flt = ((s.setRec r).setFltUnit c.unit y).flt := by
    rw [hp, State.raise_flt, (State.inc_onlyRegs' _ _).flt]
  have hregs : ((s.setRec r).setFltUnit c.unit y).regs = s.regs := rfl
  refine ⟨s.passed_ c, ?_, State.get_raise _ Hist.flt _ rfl (by decide), ?_, ?_, fun x hx hs => ?_⟩
  · have hn : ¬ (s.fltUnit c.unit).fenced = true := by rw [hf]; exact Bool.false_ne_true
    exact congrArg (fun x => State.testOver x c.unit) (if_neg hn)
  · rw [hp, State.rd_raise_ne _ _ _ (by decide), State.rd_inc, State.rd_congr hregs]
  · rw [State.fltUnit_congr (congrArg FltSt.units hflt), State.fltUnit_setFltUnit, hy]
  · rw [hflt] at hx
    have hxr : x = r := State.mem_setRec (s := s) hx (by rw [hs, hr])
    rw [hxr, hr]

theorem testFail_spec (hf : (s.fltUnit c.unit).fenced = false) (rows : Nat) : ∃ w : State, s.testFail c rows = w.testOver c.unit ∧
    w = s.lasting c 0 rows ∧ w.get R.FLT_HIST F.FLT_HIST_LASTING = 1 := by
  refine ⟨_, if_neg (by rw [hf]; exact Bool.false_ne_true), rfl, ?_⟩
  have hlog (v : State) (u : Nat) : (v.logFenced u).regs = v.regs := by
    rw [State.logFenced]
    split <;> rfl
  have key (v : State) (u : Nat) : (((v.inc R.FLT_LASTING_CNT).raise Hist.flt F.FLT_HIST_LASTING).logFenced u |>.dirty 13).get R.FLT_HIST
      F.FLT_HIST_LASTING = 1 := by
    rw [State.dirty, State.get_set_ne _ _ _ _ (by decide), State.get_congr (hlog _ _)]
    exact State.get_raise _ Hist.flt _ rfl (by decide)
  exact key ..

theorem testAbandon_spec (hd : c.detail / 32 % 2 = 0) : ∃ w : State, s.testAbandon c true = w.testOver c.unit ∧
    ∀ x ∈ w.flt.recs, x.slot = c.slot → x.st = 0 ∧ x.detail = c.detail + 32 := by
  refine ⟨s.setRec { c with st := 0, detail := c.detail + 32, tus := 0 }, if_neg (by omega), fun x hx hs => ?_⟩
  rw [State.mem_setRec hx hs]
  exact ⟨rfl, rfl⟩

end tests

/-! ### Acknowledgement and unfencing -/

theorem fltAckWrite_spec {s : State} (v : Nat) (hu : s.upFor R.FLT_ACK) : ∃ l, exec (.fltAckWrite v) s = .next { s with flt := { s.flt with recs := l } } ∧
    l = s.flt.recs.filter (fun r => !decide (r.slot = v % 64 ∧ r.seq = v / 65536 % 65536 ∧ 2 ≤ r.st)) := by
  have e : exec (.fltAckWrite v) s = execFltAckWrite v s := rfl
  refine ⟨_, by rw [e, execFltAckWrite, State.byHost_upFor hu]; rfl, ?_⟩
  refine List.filter_congr fun r _ => congrArg _ ?_
  rw [Bool.eq_iff_iff]
  simp only [Bool.and_eq_true, beq_iff_eq, decide_eq_true_eq, and_assoc]

theorem fltUnfenceWrite_spec {s : State} {u : Nat} (v t : Nat) (hup : s.upFor R.FLT_UNFENCE) (hu : u = v % 2 ^ 20) :
    (v / 2 ^ 31 % 2 = 0 → exec (.fltUnfenceWrite v t) s = .next (s.at_ t)) ∧ (v / 2 ^ 31 % 2 = 1 →
      (s.mayUnfence u = true → s.recOf u 0 = none → s.recOf u 1 = none →
        ∃ src, exec (.fltUnfenceWrite v t) s = .next (({ s with now := t, free := s.free + 1 } : State).queueRec u src)) ∧
      ((s.mayUnfence u = false ∨ (s.recOf u 0).isSome = true ∨ (s.recOf u 1).isSome = true) → ∃ w, exec (.fltUnfenceWrite v t) s = .next w ∧
        w.get R.FLT_HIST F.FLT_HIST_UNFENCE_ERR = 1 ∧ s.onlyRegs w [R.FLT_HIST])) := by
  have e : exec (.fltUnfenceWrite v t) s = .next (s.fltUnfenceWrite v t) := by
    have e' : exec (.fltUnfenceWrite v t) s = execFltUnfenceWrite v t s := rfl
    rw [e', execFltUnfenceWrite, State.byHost_upFor hup]
  have hm : (s.at_ t).mayUnfence u = s.mayUnfence u := rfl
  have h0 : (s.at_ t).recOf u 0 = s.recOf u 0 := rfl
  have h1 : (s.at_ t).recOf u 1 = s.recOf u 1 := rfl
  subst hu
  rw [e]
  refine ⟨fun h => congrArg _ (if_pos h), fun h => ⟨fun g1 g2 g3 => ⟨_, congrArg _ ((if_neg (by omega)).trans (if_pos ?_))⟩,
    fun g => ⟨_, congrArg _ ((if_neg (by omega)).trans (if_neg ?_)), State.get_raise _ Hist.flt _ rfl (by decide), ?_⟩⟩⟩
  · rw [hm, h0, h1, g1, g2, g3]
    rfl
  · rw [hm, h0, h1]
    simp only [Bool.and_eq_true, Option.isNone_iff_eq_none]
    rintro ⟨⟨k1, k2⟩, k3⟩
    rcases g with g | g | g
    · rw [g] at k1
      exact Bool.false_ne_true k1
    · rw [k2] at g
      exact Bool.false_ne_true g
    · rw [k3] at g
      exact Bool.false_ne_true g
  · exact (s.at_onlyRegs t _).trans (State.raise_onlyRegs _ Hist.flt _ (.head _))

/-- Settles O59: an error by the records its unit has, a test by its record. -/
theorem faultHandling : Obligations.FaultHandling := by
  unfold Obligations.FaultHandling
  exact ⟨errorDetected_spec, fun s w u src => reportError_spec, fun s t => ⟨exec_selfTestStart_none, selfTestStart_spec⟩, selfTestEnd_spec,
    fun s c hf => ⟨testPass_spec hf, testFail_spec hf, testAbandon_spec⟩, fun s v => fltAckWrite_spec v, fun s v t u => fltUnfenceWrite_spec v t⟩

end Sys2Proof.Machine

/-! Hangs at the control matrix, and the reset of a hung master (O49). -/
namespace Sys2Proof.Machine

/-! ### Logs of the matrix -/

/-- When each log was last written, and for which master. -/
def State.setLogged (s : State) (l : Tab (Nat × Nat)) : State := { s with mtx := { s.mtx with logged := l } }

/-- Of two events in one control cycle the lower master's is logged. -/
def State.logKept (s : State) (k m : Nat) : Prop := ∃ p, tabFind s.mtx.logged k = some p ∧ p.1 / 2970 = s.now / 2970 ∧ p.2 < m

theorem State.logMtx_of_kept {s : State} {k m : Nat} (h : s.logKept k m) (write : State → State) : s.logMtx k m write = s := by
  obtain ⟨p, hp, hc⟩ := h
  rw [State.logMtx]
  dsimp only
  rw [hp]
  exact if_pos hc

theorem State.logMtx_of_not_kept {s : State} {k m : Nat} (h : ¬ s.logKept k m) (write : State → State) :
    s.logMtx k m write = write (s.setLogged (tabPut s.mtx.logged k (s.now, m))) := by
  rw [State.logMtx]
  dsimp only
  cases hp : tabFind s.mtx.logged k with
  | none => rfl
  | some p => exact if_neg fun hc => h ⟨p, hp, hc⟩

theorem State.logMtx_cases (s : State) (k m : Nat) (write : State → State) :
    s.logMtx k m write = s ∨ s.logMtx k m write = write (s.setLogged (tabPut s.mtx.logged k (s.now, m))) :=
  (Classical.em (s.logKept k m)).imp (fun h => State.logMtx_of_kept h write) fun h => State.logMtx_of_not_kept h write

section logs
variable {s t : State} {l : List Nat}

/-- A state that differs in the given registers and in what the logs remember alone. -/
def State.onlyLogs (s t : State) (l : List Nat) : Prop := t.mtx = { s.mtx with logged := t.mtx.logged } ∧ s.onlyRegs { t with mtx := s.mtx } l

theorem State.onlyLogs.refl (s : State) (l : List Nat) : s.onlyLogs s l := ⟨rfl, .refl ..⟩

theorem State.onlyLogs.rd (h : s.onlyLogs t l) {a : Nat} (ha : a ∉ l) : t.rd a = s.rd a := h.2.2 a ha

theorem State.setLogged_onlyLogs (s : State) (x : Tab (Nat × Nat)) : s.onlyLogs (s.setLogged x) l := ⟨rfl, rfl, fun _ _ => rfl⟩

/-- The same step on states whose matrix is set aside. -/
theorem State.onlyRegs.withMtx (h : s.onlyRegs t l) (x : MtxSt) : ({ s with mtx := x } : State).onlyRegs { t with mtx := x } l :=
  ⟨congrArg (fun v : State => { v with mtx := x }) h.1, fun a ha => h.2 a ha⟩

/-- A register write after it. -/
theorem State.onlyLogs.next (h : s.onlyLogs t l) {u : State} (k : t.onlyRegs u l) : s.onlyLogs u l :=
  ⟨by rw [k.mtx]; exact h.1, h.2.trans (k.withMtx s.mtx)⟩

theorem State.logMtx_wr2_onlyLogs (s : State) (k m lo hi v : Nat) (h1 : lo ∈ l) (h2 : hi ∈ l) : s.onlyLogs (s.logMtx k m fun s => s.wr2 lo hi v) l := by
  rcases s.logMtx_cases k m fun s => s.wr2 lo hi v with h | h
  · rw [h]
    exact .refl ..
  · rw [h]
    exact (s.setLogged_onlyLogs _).next ((State.wr_onlyRegs _ _ h1).trans (State.wr_onlyRegs _ _ h2))

end logs

/-! ### Hangs -/

section hang
variable {s : State} {m : Fin 16} {t : Nat} {o : MtxOut}

theorem State.unanswered_single {m : Nat} (h : s.mtxOut m = [o]) (hg : o.granted = true) :
    s.unanswered m = some o ↔ o.gAt + max 10 (s.get R.MTX_CTL F.MTX_CTL_HANG_TIME) * ticksPerUs ≤ s.now := by
  have ho : s.openSince o = some o.gAt := if_pos hg
  rw [State.unanswered, h, List.find?_singleton, ho]
  dsimp only
  rw [State.hangTime]
  by_cases hc : o.gAt + max 10 (s.get R.MTX_CTL F.MTX_CTL_HANG_TIME) * ticksPerUs ≤ s.now
  · simp [hc]
  · simp [hc]

/-- The registers a hang writes. -/
def hangRegs : List Nat := [R.MTX_HIST, R.MTX_HANG_CNT, R.MTX_HANG_LOG_LO, R.MTX_HANG_LOG_HI]

/-- A hang of master `m` on request `o` logged, counted and shown. -/
def State.hangLogged (s : State) (m : Nat) (o : MtxOut) : State :=
  ((s.logMtx 1 m fun s => s.wr2 R.MTX_HANG_LOG_LO R.MTX_HANG_LOG_HI (o.req.addr % 2 ^ 32 +
    2 ^ 32 * (o.req.addr / 2 ^ 32 % 256 + m * 2 ^ 8 + one o.req.write * 2 ^ 12 + one (answersFor m) * 2 ^ 13))).inc R.MTX_HANG_CNT).raise Hist.mtx F.MTX_HIST_HANG

theorem State.hangLogged_onlyLogs (s : State) (m : Nat) (o : MtxOut) : s.onlyLogs (s.hangLogged m o) hangRegs :=
  ((s.logMtx_wr2_onlyLogs _ _ _ _ _ (.tail _ (.tail _ (.head _))) (.tail _ (.tail _ (.tail _ (.head _))))).next
    (State.inc_onlyRegs _ (.tail _ (.head _)))).next (State.raise_onlyRegs _ Hist.mtx _ (.head _))

theorem State.hangLogged_count (s : State) (m : Nat) (o : MtxOut) :
    ((s.hangLogged m o).rd R.MTX_HANG_CNT).toNat = min 0xFFFFFFFF ((s.rd R.MTX_HANG_CNT).toNat + 1) := by
  rw [State.hangLogged, State.rd_raise_ne _ _ _ (by decide), State.rd_inc,
    (s.logMtx_wr2_onlyLogs (l := [R.MTX_HANG_LOG_LO, R.MTX_HANG_LOG_HI]) _ _ _ _ _ (.head _) (.tail _ (.head _))).rd (by decide)]

/-- What the matrix does with a request that hangs. -/
def State.hangDone (s : State) (m : Nat) (o : MtxOut) : State :=
  if answersFor m then ((s.setMtxOut m ((s.mtxOut m).erase o)).setData (if o.req.write then none else some 0)).mtxRest
  else s.set (R.MTX_MST_STAT m) F.MTX_MST_STAT_HUNG 1

theorem exec_matrixHang_none (h : (s.at_ t).unanswered m = none ∨ s.hung m = true) : exec (.matrixHang m t) s = .next (s.at_ t) := by
  have e : exec (.matrixHang m t) s = execMatrixHang m t s := rfl
  rw [e, execMatrixHang]
  dsimp only
  cases hu : (s.at_ t).unanswered m with
  | none => rfl
  | some o =>
    have hh : (s.at_ t).hung m = true := h.resolve_left fun h0 => Option.some_ne_none o (hu.symm.trans h0)
    exact congrArg _ (if_pos hh)

theorem exec_matrixHang (hu : (s.at_ t).unanswered m = some o) (hn : s.hung m = false) :
    exec (.matrixHang m t) s = .next ((((s.at_ t).hangLogged m o).reportError (0xB0000 + m) 0x08).hangDone m o) := by
  have e : exec (.matrixHang m t) s = execMatrixHang m t s := rfl
  have hh : (s.at_ t).hung m = false := hn
  rw [e, execMatrixHang]
  dsimp only
  rw [hu]
  dsimp only
  rw [hh, if_neg Bool.false_ne_true]
  rfl

theorem matrixHang_spec (hu : (s.at_ t).unanswered m = some o) (hn : s.hung m = false) : ∃ w : State, w.get R.MTX_HIST F.MTX_HIST_HANG = 1 ∧
    (w.rd R.MTX_HANG_CNT).toNat = min 0xFFFFFFFF ((s.rd R.MTX_HANG_CNT).toNat + 1) ∧ w.mtx = { s.mtx with logged := w.mtx.logged } ∧
    (s.at_ t).onlyRegs { w with mtx := s.mtx } [R.MTX_HIST, R.MTX_HANG_CNT, R.MTX_HANG_LOG_LO, R.MTX_HANG_LOG_HI] ∧
    (answersFor m = true → ∃ x, x = w.reportError (0xB0000 + m) 0x08 ∧
      exec (.matrixHang m t) s = .next (((x.setMtxOut m ((x.mtxOut m).erase o)).setData (if o.req.write then none else some 0)).mtxRest)) ∧
    (answersFor m = false → ∃ u, exec (.matrixHang m t) s = .next u ∧ u = (w.reportError (0xB0000 + m) 0x08).set (R.MTX_MST_STAT m) F.MTX_MST_STAT_HUNG 1 ∧
      u.hung m = true) := by
  obtain ⟨w, hw⟩ : ∃ w, w = (s.at_ t).hangLogged m o := ⟨_, rfl⟩
  obtain ⟨h1, h2⟩ := (s.at_ t).hangLogged_onlyLogs m o
  have e := exec_matrixHang hu hn
  rw [← hw] at h1 h2 e
  refine ⟨w, ?_, ?_, h1, h2, fun ha => ⟨_, rfl, ?_⟩, fun ha => ⟨_, ?_, rfl, ?_⟩⟩
  · rw [hw]
    exact State.get_raise _ Hist.mtx _ rfl (by decide)
  · rw [hw, State.hangLogged_count, State.rd_at]
  · rw [e, State.hangDone, ha, if_pos rfl]
  · rw [e, State.hangDone, ha, if_neg Bool.false_ne_true]
  · exact State.flag_of_get (State.get_set_self _ _ F.MTX_MST_STAT_HUNG _ (by decide))

/-- The reset of a hung master. -/
theorem hungMasterReset_spec (s : State) (m : Fin 16) : (s.hung m = false → exec (.hungMasterReset m) s = .next s) ∧
    (s.hung m = true → (m.val < 4 → exec (.hungMasterReset m) s = .next (s.warmSource 8)) ∧
      (4 ≤ m.val → m.val ∉ [5, 7, 10, 12] → exec (.hungMasterReset m) s = .next (s.resetMaster m).mtxRest) ∧
      (m.val = 5 → exec (.hungMasterReset m) s = .next ((s.resetMaster 5).dropHost).mtxRest) ∧
      (m.val = 7 → exec (.hungMasterReset m) s = .next s.resetLvPort.mtxRest) ∧
      (m.val = 10 → ∀ u : State, u = s.resetMaster 10 → exec (.hungMasterReset m) s = .next ({ u with rst := { u.rst with imgBad := true } } : State).mtxRest) ∧
      (m.val = 12 → (s.resetMaster 12).mtxRest.testing = none → exec (.hungMasterReset m) s = .next (s.resetMaster 12).mtxRest) ∧
      (∀ c, m.val = 12 → (s.resetMaster 12).mtxRest.testing = some c →
        exec (.hungMasterReset m) s = .next ((s.resetMaster 12).mtxRest.testAbandon c true))) := by
  have e : exec (.hungMasterReset m) s = execHungMasterReset m s := rfl
  rw [e, execHungMasterReset]
  refine ⟨fun h => by rw [h]; rfl, fun h => ?_⟩
  rw [h, Bool.not_true, if_neg Bool.false_ne_true]
  refine ⟨fun hm => ?_, fun h4 hm => ?_, fun hm => ?_, fun hm => ?_, fun hm u hu => ?_, fun hm ht => ?_, fun c hm ht => ?_⟩
  · split
    iterate 4 omega
    exact congrArg _ (if_pos hm)
  · simp only [List.mem_cons, List.not_mem_nil, or_false, not_or] at hm
    split
    iterate 4 omega
    exact congrArg _ (if_neg (by omega))
  · split
    · rfl
    iterate 3 omega
    · contradiction
  · split
    · omega
    · rfl
    iterate 2 omega
    · contradiction
  · split
    iterate 2 omega
    · rw [hu]
    · omega
    · contradiction
  · split
    iterate 3 omega
    · dsimp only
      rw [ht]
    · contradiction
  · split
    iterate 3 omega
    · dsimp only
      rw [ht]
    · contradiction

end hang

/-! ### The reset of a master -/

section reset
variable (s : State) (m : Nat)

/-- What is written to the log of aborted bursts. -/
def State.abortLog (s : State) (m : Nat) (o : MtxOut) : State :=
  ((s.set R.MTX_ABORT_LOG F.MTX_ABORT_LOG_BEATS o.left).set R.MTX_ABORT_LOG F.MTX_ABORT_LOG_TARGET o.target).set R.MTX_ABORT_LOG F.MTX_ABORT_LOG_MASTER m

theorem State.abortBurst_onlyLogs (o : MtxOut) : s.onlyLogs (s.abortBurst m o) [R.MTX_ABORT_LOG, R.MTX_ABORT_CNT, R.MTX_HIST] := by
  have hw (v : State) : v.onlyRegs (v.abortLog m o) [R.MTX_ABORT_LOG, R.MTX_ABORT_CNT, R.MTX_HIST] :=
    ((v.set_onlyRegs _ _ (.head _)).trans (State.set_onlyRegs _ _ _ (.head _))).trans (State.set_onlyRegs _ _ _ (.head _))
  have hl : s.onlyLogs (s.logMtx 2 m fun s => s.abortLog m o) [R.MTX_ABORT_LOG, R.MTX_ABORT_CNT, R.MTX_HIST] := by
    rcases s.logMtx_cases 2 m fun s => s.abortLog m o with h | h
    · rw [h]
      exact .refl ..
    · rw [h]
      exact (s.setLogged_onlyLogs _).next (hw _)
  rw [State.abortBurst]
  split
  · exact (hl.next (State.inc_onlyRegs _ (.tail _ (.head _)))).next (State.raise_onlyRegs _ Hist.mtx _ (.tail _ (.tail _ (.head _))))
  · exact .refl ..

/-- Aborting bursts leaves what waits at the matrix. -/
theorem State.abortBursts_mtx (l : List MtxOut) : (l.foldl (fun (s : State) o => s.abortBurst m o) s).mtx.out = s.mtx.out ∧
    (l.foldl (fun (s : State) o => s.abortBurst m o) s).mtx.late = s.mtx.late ∧
    (l.foldl (fun (s : State) o => s.abortBurst m o) s).mtx.aborts = s.mtx.aborts := by
  induction l generalizing s with
  | nil => exact ⟨rfl, rfl, rfl⟩
  | cons o l ih =>
    obtain ⟨h1, h2, h3⟩ := ih (s.abortBurst m o)
    have h := (s.abortBurst_onlyLogs m o).1
    rw [List.foldl_cons, h1, h2, h3, h]
    exact ⟨rfl, rfl, rfl⟩

/-- A reset master leaves nothing at the matrix but what was granted there. -/
theorem resetMaster_spec : (s.resetMaster m).mtxOut m = [] ∧ (s.resetMaster m).hung m = false ∧
    (s.resetMaster m).mtx.late = s.mtx.late ++ (s.mtxOut m).flatMap MtxOut.leave ∧
    (s.resetMaster m).mtx.aborts = s.mtx.aborts + (if m = 6 then ((s.mtxOut m).filter fun o => !o.req.write).length else 0) := by
  obtain ⟨w, hw⟩ : ∃ w, w = (s.mtxOut m).foldl (fun (s : State) (o : MtxOut) => s.abortBurst m o) s := ⟨_, rfl⟩
  obtain ⟨n, hn⟩ : ∃ n, n = if m = 6 then ((s.mtxOut m).filter fun o => !o.req.write).length else 0 := ⟨_, rfl⟩
  obtain ⟨-, h2, h3⟩ := s.abortBursts_mtx m (s.mtxOut m)
  rw [← hw] at h2 h3
  have hm : (s.resetMaster m).mtx = (({ w with mtx := { w.mtx with late := w.mtx.late ++ (s.mtxOut m).flatMap MtxOut.leave, aborts := w.mtx.aborts + n } } : State).setMtxOut m []).mtx := by
    rw [State.resetMaster]
    dsimp only
    rw [State.set_mtx, ← hw, ← hn]
  refine ⟨?_, s.resetMaster_hung m, ?_, ?_⟩
  · rw [State.mtxOut, hm]
    exact tabGet_set_self [] w.mtx.out m []
  · rw [hm, ← h2]
    rfl
  · rw [hm, ← h3, ← hn]
    rfl

theorem resetLvPort_spec : ((∃ o ∈ s.mtxOut 7, o.req.write = false) → s.resetLvPort.lv.miso = some 0) ∧
    ((∀ o ∈ s.mtxOut 7, o.req.write = true) → s.resetLvPort.lv = s.lv) := by
  have hl : (s.resetMaster 7).lv = s.lv := (State.resetMaster_kept (.refl [.regs, .vec, .mtx] s) 7 (Sub.self _)).2.2 .lv (by decide)
  rw [State.resetLvPort]
  refine ⟨fun ⟨o, ho, hw⟩ => ?_, fun h => ?_⟩
  · have : ((s.mtxOut 7).any fun o => !o.req.write) = true := List.any_eq_true.mpr ⟨o, ho, by rw [hw]; rfl⟩
    rw [this]
    rfl
  · have : ((s.mtxOut 7).any fun o => !o.req.write) = false := any_eq_false_of_forall fun o ho => by rw [h o ho]; rfl
    rw [this]
    exact hl

end reset

/-- Settles O49: a hang by the request that is unanswered, a reset by its master's number. -/
theorem matrixHangs : Obligations.MatrixHangs := by
  unfold Obligations.MatrixHangs
  refine ⟨fun s m o => State.unanswered_single (m := m), fun s m t => exec_matrixHang_none, fun s m t o => matrixHang_spec, hungMasterReset_spec,
    resetLvPort_spec, resetMaster_spec, fun o hg => if_pos ?_, fun o hg ht hl => (if_neg ?_).trans (if_neg ?_), fun o hg ht h1 h2 => (if_neg ?_).trans (if_pos ⟨h1, h2⟩)⟩
  · rw [hg]
    rfl
  · simp [hg, ht]
  · omega
  · simp [hg, ht]

end Sys2Proof.Machine

/-! The control matrix at rest, and with one request at it (O48). -/
namespace Sys2Proof.Machine

/-! ### A matrix that is empty -/

section idle
variable {s t : State}

theorem State.mtxSettle_stuck (h : s.mtxMove = none) (k : Nat) : State.mtxSettle k s = s := by
  cases k with
  | zero => rfl
  | succ k => rw [State.mtxSettle, h]

theorem State.mtxSettle_move (h : s.mtxMove = some t) (k : Nat) : State.mtxSettle (k + 1) s = State.mtxSettle k t := by
  rw [State.mtxSettle, h]

variable (ho : s.mtx.out = []) (hl : s.mtx.late = [])
include ho

theorem State.countHolds_empty : s.countHolds = s := by
  rw [State.countHolds, ho]
  rfl

include hl

theorem State.mtxMove_empty : s.mtxMove = none := by
  have hd : s.nextDone = none := by
    rw [State.nextDone, ho]
    rfl
  have hg : s.nextGrant = none := by
    rw [State.nextGrant, State.grantable, ho]
    rfl
  rw [State.mtxMove, hl, List.find?_nil]
  dsimp only
  rw [hd]
  dsimp only
  rw [hg]
  rfl

theorem State.mtxSettle_empty (k : Nat) : (State.mtxSettle k s).countHolds = s := by
  rw [State.mtxSettle_stuck (State.mtxMove_empty ho hl), State.countHolds_empty ho]

end idle

/-! ### Parts of the matrix that an access does not look at -/

/-- The requests at the matrix. -/
def State.setOut (s : State) (l : Tab (List MtxOut)) : State := { s with mtx := { s.mtx with out := l } }

/-- The master last granted per target. -/
def State.setGranted (s : State) (l : Tab Nat) : State := { s with mtx := { s.mtx with granted := l } }

theorem State.mayAccess_mtx (s : State) (x : MtxSt) (r : MtxReq) (k : Nat) : ({ s with mtx := x } : State).mayAccess r k = s.mayAccess r k := rfl

theorem State.portStops_setOut (s : State) (l : Tab (List MtxOut)) (k : Nat) : (s.setOut l).portStops k = s.portStops k := rfl

theorem State.needsNoPort_setOut (s : State) (l : Tab (List MtxOut)) (o : MtxOut) : (s.setOut l).needsNoPort o = s.needsNoPort o := by
  rw [State.needsNoPort, State.needsNoPort, State.setOut, State.mayAccess_mtx]

theorem State.setMtxOut_empty {s : State} (ho : s.mtx.out = []) (m : Nat) (e : MtxOut) (l : List MtxOut) : s.setMtxOut m (e :: l) = s.setOut [(m, e :: l)] := by
  rw [State.setMtxOut, ho]
  rfl

theorem State.mtxOut_setOut_single (s : State) (m : Nat) (l : List MtxOut) : (s.setOut [(m, l)]).mtxOut m = l := by
  simp [State.mtxOut, State.setOut, tabGet, tabFind]

theorem State.mtxOut_setOut_other (s : State) {m j : Nat} (l : List MtxOut) (h : j ≠ m) : (s.setOut [(m, l)]).mtxOut j = [] := by
  simp [State.mtxOut, State.setOut, tabGet, tabFind, h.symm]

theorem State.setOut_self {s : State} (ho : s.mtx.out = []) : s.setOut [] = s := by
  rw [State.setOut, ← ho]

/-- Editing the one request at the matrix. -/
theorem State.editMtx_single (s : State) (m : Nat) (o : MtxOut) (f : MtxOut → List MtxOut) :
    (s.setOut [(m, [o])]).editMtx m o f = s.setOut (if f o = [] then [] else [(m, f o)]) := by
  have hd : tabDel [(m, [o])] m = [] := by simp [tabDel]
  have he : editOut o f [o] = f o := by
    exact (if_pos rfl).trans (List.append_nil _)
  rw [State.editMtx, State.mtxOut_setOut_single, he, State.setMtxOut, tabSet]
  have hm : (s.setOut [(m, [o])]).mtx.out = [(m, [o])] := rfl
  rw [hm, tabPut, hd]
  rfl

/-! ### One request at the matrix -/

section single
variable {s : State} {m : Nat} {e : MtxOut}

/-- Nothing stands before the one request at the matrix. -/
theorem State.inTurn_single (hh : s.hung m = false) (hg : e.granted = false) : (s.setOut [(m, [e])]).inTurn m [] e = true := by
  have h : (s.setOut [(m, [e])]).hung m = false := hh
  rw [State.inTurn, State.mtxOut_setOut_single, h, hg]
  simp [hg, countOut]

theorem State.inTurn_hung (hh : s.hung m = true) (l : Tab (List MtxOut)) (o : MtxOut) (before : List MtxOut) : (s.setOut l).inTurn m before o = false := by
  have h : (s.setOut l).hung m = true := hh
  rw [State.inTurn, h, Bool.not_true, Bool.and_false, Bool.false_and, Bool.false_and]

theorem State.inTurn_granted {w : State} {before : List MtxOut} {o : MtxOut} (hg : o.granted = true) : w.inTurn m before o = false := by
  rw [State.inTurn, hg, Bool.not_true, Bool.false_and, Bool.false_and, Bool.false_and]

theorem State.nextDone_single (s : State) (m : Nat) (e : MtxOut) : (s.setOut [(m, [e])]).nextDone =
    if e.granted && e.req.answered && e.target != noTarget then some (m, e) else none := by
  have ho : (s.setOut [(m, [e])]).mtx.out = [(m, [e])] := rfl
  rw [State.nextDone, ho]
  simp only [List.flatMap_cons, List.flatMap_nil, List.append_nil, withBefore, List.filter_cons, List.filter_nil, List.any_nil, Bool.not_false, Bool.and_true]
  split <;> rfl

theorem State.nextGrant_single (s : State) (m : Nat) (e : MtxOut) : (s.setOut [(m, [e])]).nextGrant =
    if (s.setOut [(m, [e])]).inTurn m [] e && (s.setOut [(m, [e])]).portFree m e then some (m, e) else none := by
  have ho : (s.setOut [(m, [e])]).mtx.out = [(m, [e])] := rfl
  rw [State.nextGrant, State.grantable, ho]
  simp only [List.flatMap_cons, List.flatMap_nil, List.append_nil, withBefore, List.filter_cons, List.filter_nil]
  split <;> rfl

theorem State.countHolds_single (h : ((s.setOut [(m, [e])]).inTurn m [] e && !(s.setOut [(m, [e])]).needsNoPort e &&
    (s.setOut [(m, [e])]).closesCycle m e.target) = false) : (s.setOut [(m, [e])]).countHolds = s.setOut [(m, [e])] := by
  have ho : (s.setOut [(m, [e])]).mtx.out = [(m, [e])] := rfl
  have hc : (!e.cyc && (s.setOut [(m, [e])]).inTurn m [] e && !(s.setOut [(m, [e])]).needsNoPort e && (s.setOut [(m, [e])]).closesCycle m e.target) = false := by
    rw [Bool.and_assoc, Bool.and_assoc, ← Bool.and_assoc ((s.setOut [(m, [e])]).inTurn m [] e), h, Bool.and_false]
  rw [State.countHolds, ho]
  simp only [List.flatMap_cons, List.flatMap_nil, List.append_nil, withBefore, List.filter_cons, List.filter_nil, hc]
  rfl

variable (hl : s.mtx.late = [])
include hl

theorem State.mtxMove_single : (s.setOut [(m, [e])]).mtxMove =
    if e.granted && e.req.answered && e.target != noTarget then some (((s.setOut [(m, [e])]).editMtx m e fun _ => []).carry e.req e.target)
    else if (s.setOut [(m, [e])]).inTurn m [] e && (s.setOut [(m, [e])]).portFree m e then some ((s.setOut [(m, [e])]).grant m e) else none := by
  have h : (s.setOut [(m, [e])]).mtx.late = [] := hl
  rw [State.mtxMove, h, List.find?_nil]
  dsimp only
  rw [State.nextDone_single, State.nextGrant_single]
  by_cases hd : (e.granted && e.req.answered && e.target != noTarget) = true
  · rw [if_pos hd, if_pos hd]
  · rw [if_neg hd, if_neg hd]
    dsimp only
    split <;> rfl

/-- The one request waits. -/
theorem State.mtxRest_waits (hg : e.granted = false) (h : (s.setOut [(m, [e])]).inTurn m [] e = false ∨ ((s.setOut [(m, [e])]).portFree m e = false ∧
    (s.setOut [(m, [e])]).closesCycle m e.target = false)) (k : Nat) : (State.mtxSettle k (s.setOut [(m, [e])])).countHolds = s.setOut [(m, [e])] := by
  have hm : (s.setOut [(m, [e])]).mtxMove = none := by
    rw [State.mtxMove_single hl, hg, if_neg (by simp), if_neg (by rcases h with h | ⟨h, -⟩ <;> simp [h])]
  rw [State.mtxSettle_stuck hm, State.countHolds_single]
  rcases h with h | ⟨-, h⟩ <;> simp [h]

/-- The one request has been granted and stays at its target. -/
theorem State.mtxRest_granted (hg : e.granted = true) (h : e.req.answered = false ∨ e.target = noTarget) (k : Nat) :
    (State.mtxSettle k (s.setOut [(m, [e])])).countHolds = s.setOut [(m, [e])] := by
  have hm : (s.setOut [(m, [e])]).mtxMove = none := by
    rw [State.mtxMove_single hl, State.inTurn_granted hg, if_neg (by rcases h with h | h <;> simp [h]), if_neg (by simp)]
  rw [State.mtxSettle_stuck hm, State.countHolds_single]
  rw [State.inTurn_granted hg]
  rfl

/-- The one request is granted. -/
theorem State.mtxSettle_grant (hg : e.granted = false) (hh : s.hung m = false) (hp : (s.setOut [(m, [e])]).portFree m e = true) (k : Nat) :
    State.mtxSettle (k + 1) (s.setOut [(m, [e])]) = State.mtxSettle k ((s.setOut [(m, [e])]).grant m e) :=
  State.mtxSettle_move (by rw [State.mtxMove_single hl, hg, State.inTurn_single hh hg, hp, if_neg (by simp), if_pos (by decide)]) k

/-- The one request is answered. -/
theorem State.mtxSettle_answer (hg : e.granted = true) (ha : e.req.answered = true) (ht : e.target ≠ noTarget) (k : Nat) :
    State.mtxSettle (k + 1) (s.setOut [(m, [e])]) = State.mtxSettle k ((s.setOut []).carry e.req e.target) := by
  refine State.mtxSettle_move ?_ k
  rw [State.mtxMove_single hl, hg, ha, if_pos (by simpa using ht), State.editMtx_single, if_pos rfl]

end single

/-! ### Cycles of waits -/

theorem State.waitsReach_nil (s : State) (goal k : Nat) : s.waitsReach goal k [] = false := by
  induction k with
  | zero => rfl
  | succ k ih => exact ih

/-- One request that is not granted closes no cycle but with an island of its own master. -/
theorem State.closesCycle_single {s : State} {m : Nat} {e : MtxOut} (hg : e.granted = false) (hm : m < 13) (h13 : e.target = 13 → m ≠ 5 ∧ m ≠ 6)
    (h12 : e.target = 12 → m ≠ 8) : (s.setOut [(m, [e])]).closesCycle m e.target = false := by
  obtain ⟨w, hw⟩ : ∃ w, w = s.setOut [(m, [e])] := ⟨_, rfl⟩
  have hout : w.mtx.out = [(m, [e])] := by rw [hw]; rfl
  have hmaster {j : Nat} (hj : j < 16) (hne : j ≠ m) : w.waitsOn j = [] := by
    rw [State.waitsOn, if_pos hj, hw, State.mtxOut_setOut_other _ _ hne]
    rfl
  have hfirst : w.waitsOn (16 + e.target) = if e.target = 13 then [5, 6] else if e.target = 12 then [8] else [] := by
    have hgo : e.going = false := by rw [MtxOut.going, hg, Bool.false_and]
    rw [State.waitsOn, if_neg (by omega), hout, Nat.add_sub_cancel_left]
    simp [hgo]
  have hne : (16 + e.target == m) = false := by simp; omega
  have hc : ([16 + e.target] : List Nat).contains m = false := by simp; omega
  have step (k : Nat) (l : List Nat) (hl : ∀ j ∈ l, j < 16 ∧ j ≠ m) : w.waitsReach m (k + 1) l = false := by
    have h1 : l.contains m = false := by
      rw [List.contains_eq_any_beq]
      exact any_eq_false_of_forall fun j hj => by simpa using (hl j hj).2.symm
    have h2 : l.flatMap w.waitsOn = [] := List.flatMap_eq_nil_iff.mpr fun j hj => hmaster (hl j hj).1 (hl j hj).2
    rw [State.waitsReach, h1, h2, Bool.false_or]
    exact w.waitsReach_nil m k
  rw [← hw, State.closesCycle, State.waitsReach, hc, Bool.false_or, List.flatMap_singleton, hfirst]
  split
  · rename_i h
    refine step 28 [5, 6] fun j hj => ?_
    simp only [List.mem_cons, List.not_mem_nil, or_false] at hj
    have := h13 h
    omega
  · split
    · rename_i h
      refine step 28 [8] fun j hj => ?_
      simp only [List.mem_cons, List.not_mem_nil, or_false] at hj
      have := h12 h
      omega
    · exact w.waitsReach_nil m 29

end Sys2Proof.Machine

/-! A request that finds the control matrix empty (O48). -/
namespace Sys2Proof.Machine

/-! ### One request comes -/

theorem State.mtxSettle_refused {w : State} {r : MtxReq} (ho : w.mtx.out = []) (hl : w.mtx.late = []) (k : Nat) :
    (State.mtxSettle k (w.refuseAccess r)).countHolds = w.refuseAccess r := by
  have h := (w.logMtx_wr2_onlyLogs (l := [R.MTX_PERM_LOG_LO, R.MTX_PERM_LOG_HI]) 3 r.master R.MTX_PERM_LOG_LO R.MTX_PERM_LOG_HI
    (r.addr % 2 ^ 32 + 2 ^ 32 * logHi r (r.fetch && fetches r.master)) (.head _) (.tail _ (.head _))).1
  refine State.mtxSettle_empty ?_ ?_ k
  · rw [State.refuseAccess, State.setData]
    dsimp only
    rw [State.raise_mtx, State.inc_mtx, h]
    exact ho
  · rw [State.refuseAccess, State.setData]
    dsimp only
    rw [State.raise_mtx, State.inc_mtx, h]
    exact hl

theorem State.mtxSettle_decoded {w : State} {r : MtxReq} (ho : w.mtx.out = []) (hl : w.mtx.late = []) (k : Nat) :
    (State.mtxSettle k (w.decodeAnswer r)).countHolds = w.decodeAnswer r := by
  have h := (w.logMtx_wr2_onlyLogs (l := [R.MTX_DECERR_LOG_LO, R.MTX_DECERR_LOG_HI]) 0 r.master R.MTX_DECERR_LOG_LO R.MTX_DECERR_LOG_HI
    (r.addr % 2 ^ 32 + 2 ^ 32 * logHi r false) (.head _) (.tail _ (.head _))).1
  refine State.mtxSettle_empty ?_ ?_ k
  · rw [State.decodeAnswer, State.setData]
    dsimp only
    rw [State.raise_mtx, State.inc_mtx, h]
    exact ho
  · rw [State.decodeAnswer, State.setData]
    dsimp only
    rw [State.raise_mtx, State.inc_mtx, h]
    exact hl

theorem ite_some_le {c : Prop} [Decidable c] {x y : Option Nat} {k n : Nat} (hx : c → x = some k → k ≤ n) (hy : y = some k → k ≤ n)
    (h : (if c then x else y) = some k) : k ≤ n := by
  by_cases hc : c
  · exact hx hc ((if_pos hc).symm.trans h)
  · exact hy ((if_neg hc).symm.trans h)

/-- Table 13-1 numbers its targets 0 to 13. -/
theorem mtxTarget_le {a k : Nat} : mtxTarget a = some k → k ≤ 13 := by
  unfold mtxTarget
  repeat refine ite_some_le (fun _ h => by injection h; omega) ?_
  exact nofun

theorem reqTarget_le {r : MtxReq} {k : Nat} (h : reqTarget r = some k) : k ≤ 13 := by
  rw [reqTarget] at h
  by_cases hc : mtxTarget (r.addr + r.bytes - 1) = mtxTarget r.addr
  · exact mtxTarget_le ((if_pos hc).symm.trans h)
  · exact nomatch (if_neg hc).symm.trans h

/-- The one request at the matrix leaves it. -/
theorem State.editMtx_drop (s : State) (m : Nat) (o : MtxOut) : (s.setOut [(m, [o])]).editMtx m o (fun _ => []) = s.setOut [] := by
  rw [State.editMtx_single, if_pos rfl]

/-- The one request at the matrix changes. -/
theorem State.editMtx_change (s : State) (m : Nat) (o : MtxOut) (f : MtxOut → MtxOut) :
    (s.setOut [(m, [o])]).editMtx m o (fun x => [f x]) = s.setOut [(m, [f o])] := by
  rw [State.editMtx_single, if_neg (List.cons_ne_nil _ _)]

/-- Target `k` was last granted to master `m`. -/
def State.grantTo (s : State) (k m : Nat) : State := s.setGranted (tabPut s.mtx.granted k m)

/-- A request that has been granted, on its way to target `k`. -/
def MtxOut.sent (o : MtxOut) (k at_ : Nat) : MtxOut := { o with granted := true, gAt := at_, target := k }

/-- A request that has been granted and that no target answers. -/
def MtxOut.dead (o : MtxOut) (at_ : Nat) : MtxOut := { o with granted := true, gAt := at_, target := noTarget, left := 0 }

section empty
variable {w : State} {r : MtxReq} {m k : Nat} {e : MtxOut}

theorem State.grant_noTarget (ht : e.target = noTarget) (ho : w.mtx.out = []) : (w.setOut [(m, [e])]).grant m e =
    if answersFor m then w.decodeAnswer e.req else w.setOut [(m, [e.dead w.now])] := by
  rw [State.grant, if_pos ht]
  dsimp only
  rw [State.editMtx_drop, State.editMtx_change, State.setOut_self ho]
  rfl

theorem State.grant_refused (ht : e.target = k) (hk : k ≠ noTarget) (ho : w.mtx.out = []) (hm : w.mayAccess e.req k = false) :
    (w.setOut [(m, [e])]).grant m e = (w.grantTo k m).refuseAccess e.req := by
  subst ht
  have hd : (w.grantTo e.target m).mtx.out = [] := ho
  have ha : ((w.grantTo e.target m).setOut [(m, [e])]).mayAccess e.req e.target = false := hm
  rw [State.grant, if_neg hk]
  change (if !((w.grantTo e.target m).setOut [(m, [e])]).mayAccess e.req e.target then
    (((w.grantTo e.target m).setOut [(m, [e])]).editMtx m e fun _ => []).refuseAccess e.req else _) = _
  rw [ha, if_pos (by decide), State.editMtx_drop, State.setOut_self hd]

theorem State.grant_blocks (ht : e.target = k) (hk : k ≠ noTarget) (ho : w.mtx.out = []) (hm : w.mayAccess e.req k = true)
    (hb : isBridge k = true) (hi : reqInBlocks e.req = false) :
    (w.setOut [(m, [e])]).grant m e =
      if answersFor m then (w.grantTo k m).decodeAnswer e.req else (w.grantTo k m).setOut [(m, [e.dead w.now])] := by
  subst ht
  have hd : (w.grantTo e.target m).mtx.out = [] := ho
  have ha : ((w.grantTo e.target m).setOut [(m, [e])]).mayAccess e.req e.target = true := hm
  rw [State.grant, if_neg hk]
  dsimp only
  change (if !((w.grantTo e.target m).setOut [(m, [e])]).mayAccess e.req e.target then _ else
    if isBridge e.target && !reqInBlocks e.req then
      if answersFor m then (((w.grantTo e.target m).setOut [(m, [e])]).editMtx m e fun _ => []).decodeAnswer e.req
      else ((w.grantTo e.target m).setOut [(m, [e])]).editMtx m e fun o => [o.dead w.now]
    else _) = _
  rw [ha, hb, hi, if_neg (by decide), if_pos (by decide), State.editMtx_drop, State.editMtx_change, State.setOut_self hd]

theorem State.grant_sent (ht : e.target = k) (hk : k ≠ noTarget) (hm : w.mayAccess e.req k = true)
    (hi : isBridge k = false ∨ reqInBlocks e.req = true) :
    (w.setOut [(m, [e])]).grant m e = (w.grantTo k m).setOut [(m, [e.sent k w.now])] := by
  subst ht
  have ha : ((w.grantTo e.target m).setOut [(m, [e])]).mayAccess e.req e.target = true := hm
  have hn : ¬ (isBridge e.target && !reqInBlocks e.req) = true := by rcases hi with h | h <;> simp [h]
  rw [State.grant, if_neg hk]
  dsimp only
  change (if !((w.grantTo e.target m).setOut [(m, [e])]).mayAccess e.req e.target then _ else
    if isBridge e.target && !reqInBlocks e.req then _
    else ((w.grantTo e.target m).setOut [(m, [e])]).editMtx m e fun o => [o.sent o.target w.now]) = _
  rw [ha, if_neg (by decide), if_neg hn, State.editMtx_change]

variable (ho : w.mtx.out = []) (hl : w.mtx.late = [])
include ho hl

/-- A request comes to an empty matrix. -/
theorem State.mtxRequest_empty (hm : r.master.val < 13) :
    w.mtxRequest r = (State.mtxSettle 4 (w.setOut [(r.master.val, [w.mtxEntry r])])).countHolds := by
  have h0 : w.mtxOut r.master.val = [] := by
    rw [State.mtxOut, ho]
    rfl
  have hload : (w.setOut [(r.master.val, [w.mtxEntry r])]).mtxLoad = 1 := by
    have h : (w.setOut [(r.master.val, [w.mtxEntry r])]).mtx.late = [] := hl
    rw [State.mtxLoad, h]
    rfl
  rw [State.mtxRequest]
  dsimp only
  rw [if_neg (by omega), hl, h0, List.any_nil, if_neg (by decide), if_neg (by decide), List.nil_append, State.setMtxOut_empty ho,
    State.mtxRest, hload]

theorem State.mtxRequest_hung (hm : r.master.val < 13) (hh : w.hung r.master = true) : w.mtxRequest r = w.setOut [(r.master.val, [w.mtxEntry r])] := by
  rw [State.mtxRequest_empty ho hl hm]
  exact State.mtxRest_waits hl rfl (.inl (State.inTurn_hung hh _ _ _)) 4

variable (hm : r.master.val < 13) (hh : w.hung r.master = false)
include hm hh

/-- The one request is granted. -/
theorem State.mtxRequest_grants (hp : (w.setOut [(r.master.val, [w.mtxEntry r])]).portFree r.master (w.mtxEntry r) = true) :
    w.mtxRequest r = (State.mtxSettle 3 ((w.setOut [(r.master.val, [w.mtxEntry r])]).grant r.master (w.mtxEntry r))).countHolds := by
  rw [State.mtxRequest_empty ho hl hm, State.mtxSettle_grant hl rfl hh hp]

theorem State.mtxRequest_noTarget (ht : reqTarget r = none) : w.mtxRequest r =
    if answersFor r.master then w.decodeAnswer r else w.setOut [(r.master.val, [(w.mtxEntry r).dead w.now])] := by
  have hn : (w.mtxEntry r).target = noTarget := by
    rw [State.mtxEntry, ht]
    rfl
  rw [State.mtxRequest_grants ho hl hm hh (by rw [State.portFree, State.needsNoPort, hn]; rfl), State.grant_noTarget hn ho]
  split
  · exact State.mtxSettle_decoded (r := r) ho hl 3
  · exact State.mtxRest_granted hl rfl (.inr rfl) 3

variable (hk : reqTarget r = some k)
include hk

omit ho hl hm hh in
theorem State.mtxEntry_target : (w.mtxEntry r).target = k := by
  rw [State.mtxEntry, hk]
  rfl

omit ho hl hm hh in
theorem reqTarget_ne_noTarget : k ≠ noTarget := by
  have := reqTarget_le hk
  rw [noTarget]
  omega

theorem State.mtxRequest_refused (ha : w.mayAccess r k = false) : w.mtxRequest r = (w.grantTo k r.master).refuseAccess r := by
  have hp : (w.setOut [(r.master.val, [w.mtxEntry r])]).portFree r.master (w.mtxEntry r) = true := by
    rw [State.portFree, State.needsNoPort_setOut, State.needsNoPort, State.mtxEntry_target hk]
    have : w.mayAccess (w.mtxEntry r).req k = false := ha
    rw [this]
    simp
  rw [State.mtxRequest_grants ho hl hm hh hp, State.grant_refused (State.mtxEntry_target hk) (reqTarget_ne_noTarget hk) ho ha]
  exact State.mtxSettle_refused (w := w.grantTo k r.master) (r := r) ho hl 3

variable (ha : w.mayAccess r k = true) (h13 : k = 13 → r.master.val ≠ 5 ∧ r.master.val ≠ 6) (h12 : k = 12 → r.master.val ≠ 8)
include ha h13 h12

omit ho hl hh in
/-- The port of the one request: nothing but a stop of it stands in the way. -/
theorem State.portFree_entry : (w.setOut [(r.master.val, [w.mtxEntry r])]).portFree r.master (w.mtxEntry r) = !w.portStops k ∧
    (w.setOut [(r.master.val, [w.mtxEntry r])]).closesCycle r.master (w.mtxEntry r).target = false := by
  have ht := State.mtxEntry_target (w := w) hk
  have hc : (w.setOut [(r.master.val, [w.mtxEntry r])]).closesCycle r.master (w.mtxEntry r).target = false :=
    State.closesCycle_single rfl hm (by rw [ht]; exact h13) (by rw [ht]; exact h12)
  have hb : (w.setOut [(r.master.val, [w.mtxEntry r])]).portBusy (w.mtxEntry r).target = false := by
    have hg : (w.mtxEntry r).going = false := rfl
    have hout : (w.setOut [(r.master.val, [w.mtxEntry r])]).mtx.out = [(r.master.val, [w.mtxEntry r])] := rfl
    rw [State.portBusy, hout]
    simp [hg]
  have hn : w.needsNoPort (w.mtxEntry r) = false := by
    have hm' : w.mayAccess (w.mtxEntry r).req k = true := ha
    rw [State.needsNoPort, ht, hm']
    simpa using reqTarget_ne_noTarget hk
  refine ⟨?_, hc⟩
  rw [State.portFree, State.needsNoPort_setOut, hn, hb, State.portStops_setOut, hc, ht]
  simp

omit hh in
theorem State.mtxRequest_stopped (hs : w.portStops k = true) : w.mtxRequest r = w.setOut [(r.master.val, [w.mtxEntry r])] := by
  obtain ⟨hp, hc⟩ := State.portFree_entry hm hk ha h13 h12
  rw [State.mtxRequest_empty ho hl hm]
  exact State.mtxRest_waits hl rfl (.inr ⟨by rw [hp, hs]; rfl, hc⟩) 4

variable (hs : w.portStops k = false)
include hs

theorem State.mtxRequest_outside (hb : isBridge k = true) (hi : reqInBlocks r = false) : w.mtxRequest r =
    if answersFor r.master then (w.grantTo k r.master).decodeAnswer r
    else (w.grantTo k r.master).setOut [(r.master.val, [(w.mtxEntry r).dead w.now])] := by
  obtain ⟨hp, -⟩ := State.portFree_entry hm hk ha h13 h12
  rw [State.mtxRequest_grants ho hl hm hh (by rw [hp, hs]; rfl),
    State.grant_blocks (State.mtxEntry_target hk) (reqTarget_ne_noTarget hk) ho ha hb hi]
  split
  · exact State.mtxSettle_decoded (w := w.grantTo k r.master) (r := r) ho hl 3
  · exact State.mtxRest_granted (s := w.grantTo k r.master) hl rfl (.inr rfl) 3

variable (hi : isBridge k = false ∨ reqInBlocks r = true)
include hi

theorem State.mtxRequest_unanswered (hn : r.answered = false) :
    w.mtxRequest r = (w.grantTo k r.master).setOut [(r.master.val, [(w.mtxEntry r).sent k w.now])] := by
  obtain ⟨hp, -⟩ := State.portFree_entry hm hk ha h13 h12
  rw [State.mtxRequest_grants ho hl hm hh (by rw [hp, hs]; rfl), State.grant_sent (State.mtxEntry_target hk) (reqTarget_ne_noTarget hk) ha hi]
  exact State.mtxRest_granted (s := w.grantTo k r.master) hl rfl (.inl hn) 3

theorem State.mtxRequest_answered (hy : r.answered = true) : w.mtxRequest r = (State.mtxSettle 2 ((w.grantTo k r.master).carry r k)).countHolds := by
  obtain ⟨hp, -⟩ := State.portFree_entry hm hk ha h13 h12
  have hl' : (w.grantTo k r.master).mtx.late = [] := hl
  have hg : ((w.grantTo k r.master).setOut []) = w.grantTo k r.master := State.setOut_self ho
  rw [State.mtxRequest_grants ho hl hm hh (by rw [hp, hs]; rfl), State.grant_sent (State.mtxEntry_target hk) (reqTarget_ne_noTarget hk) ha hi,
    State.mtxSettle_answer hl' rfl hy (reqTarget_ne_noTarget hk), hg]
  rfl

end empty

end Sys2Proof.Machine

/-! Requests at the control matrix: the arbiter, refusals, register accesses, and what the host writes by commands of its own (O48). -/
namespace Sys2Proof.Machine

/-! ### A request of any master -/

theorem exec_matrixRequest (r : MtxReq) (s : State) : exec (.matrixRequest r) s = .next ((s.at_ r.t).request r) := rfl

theorem State.request_gated {s w : State} {r : MtxReq} (h : s.hostGate r = some w) : s.request r = w := by
  rw [State.request, h]

theorem State.request_reaches {s : State} {r : MtxReq} (h : s.hostGate r = none) : s.request r = s.mtxRequest r := by
  rw [State.request, h]

theorem State.mtxRequest_cases (s : State) (r : MtxReq) :
    (13 ≤ r.master.val → s.mtxRequest r = s) ∧
    (r.master.val < 13 → s.mtx.late.any (reqIs r) = false →
      ((s.mtxOut r.master).any (reqIs r) = true → s.mtxRequest r = (s.setMtxOut r.master ((s.mtxOut r.master).map fun o => if reqIs r o then o.told r else o)).mtxRest) ∧
      ((s.mtxOut r.master).any (reqIs r) = false → s.mtxRequest r = (s.setMtxOut r.master (s.mtxOut r.master ++ [s.mtxEntry r])).mtxRest)) := by
  refine ⟨fun h => ?_, fun h hl => ⟨fun ho => ?_, fun ho => ?_⟩⟩
  all_goals rw [State.mtxRequest]; dsimp only
  · exact if_pos h
  · rw [if_neg (by omega), hl, if_neg (by decide), ho, if_pos rfl]
  · rw [if_neg (by omega), hl, if_neg (by decide), ho, if_neg (by decide)]

theorem requestToMatrix (s : State) (r : MtxReq) (hg : (s.at_ r.t).hostGate r = none) :
    (13 ≤ r.master.val → exec (.matrixRequest r) s = .next (s.at_ r.t)) ∧
    (r.master.val < 13 → s.mtx.late.any (reqIs r) = false →
      ((s.mtxOut r.master).any (reqIs r) = true → exec (.matrixRequest r) s = .next ((s.at_ r.t).setMtxOut r.master
        ((s.mtxOut r.master).map fun o => if reqIs r o then o.told r else o)).mtxRest) ∧
      ((s.mtxOut r.master).any (reqIs r) = false →
        exec (.matrixRequest r) s = .next ((s.at_ r.t).setMtxOut r.master (s.mtxOut r.master ++ [(s.at_ r.t).mtxEntry r])).mtxRest)) := by
  obtain ⟨h13, hq⟩ := (s.at_ r.t).mtxRequest_cases r
  rw [exec_matrixRequest, State.request_reaches hg]
  exact ⟨fun h => congrArg _ (h13 h), fun h hl => ⟨fun ho => congrArg _ ((hq h hl).1 ho), fun ho => congrArg _ ((hq h hl).2 ho)⟩⟩

section empty
variable {s g : State} {r : MtxReq} {e : MtxOut} (hg : (s.at_ r.t).hostGate r = none) (hm : r.master.val < 13) (ho : s.mtx.out = []) (hl : s.mtx.late = [])
  (he : e = (s.at_ r.t).mtxEntry r)
include hg

theorem exec_matrixRequest_reaches : exec (.matrixRequest r) s = .next ((s.at_ r.t).mtxRequest r) := by
  rw [exec_matrixRequest, State.request_reaches hg]

include hm ho hl he

theorem requestHung (h : s.hung r.master = true) : exec (.matrixRequest r) s = .next ((s.at_ r.t).setMtxOut r.master [e]) := by
  rw [exec_matrixRequest_reaches hg, State.mtxRequest_hung (w := s.at_ r.t) ho hl hm h, State.setMtxOut_empty (s := s.at_ r.t) ho, he]

theorem requestNoTarget (hh : s.hung r.master = false) (ht : reqTarget r = none) :
    (answersFor r.master = true → exec (.matrixRequest r) s = .next ((s.at_ r.t).decodeAnswer r)) ∧
    (answersFor r.master = false → exec (.matrixRequest r) s =
      .next ((s.at_ r.t).setMtxOut r.master [{ e with granted := true, gAt := r.t, target := noTarget, left := 0 }])) := by
  rw [exec_matrixRequest_reaches hg, State.mtxRequest_noTarget (w := s.at_ r.t) ho hl hm hh ht, State.setMtxOut_empty (s := s.at_ r.t) ho, he]
  exact ⟨fun h => by rw [if_pos h], fun h => by rw [if_neg (by simp [h])]; rfl⟩

variable {k : Nat} (hh : s.hung r.master = false) (hk : reqTarget r = some k)
  (hgr : g = { s.at_ r.t with mtx := { s.mtx with granted := tabPut s.mtx.granted k r.master.val } })
include hh hk hgr

omit he in
theorem requestRefused (ha : s.mayAccess r k = false) : exec (.matrixRequest r) s = .next (g.refuseAccess r) := by
  rw [exec_matrixRequest_reaches hg, State.mtxRequest_refused (w := s.at_ r.t) ho hl hm hh hk ha, hgr]
  rfl

theorem requestGranted (ha : s.mayAccess r k = true) (h13 : k = 13 → r.master.val ≠ 5 ∧ r.master.val ≠ 6) (h12 : k = 12 → r.master.val ≠ 8) :
    (s.portStops k = true → exec (.matrixRequest r) s = .next ((s.at_ r.t).setMtxOut r.master [e])) ∧
    (s.portStops k = false → (isBridge k = false ∨ reqInBlocks r = true) →
      (r.answered = false → exec (.matrixRequest r) s = .next (g.setMtxOut r.master [{ e with granted := true, gAt := r.t }])) ∧
      (r.answered = true → exec (.matrixRequest r) s = .next (((g.carry r k).mtxSettle 2).countHolds) ∧
        ((g.carry r k).mtx.out = [] → (g.carry r k).mtx.late = [] → exec (.matrixRequest r) s = .next (g.carry r k)))) ∧
    (s.portStops k = false → isBridge k = true → reqInBlocks r = false →
      (answersFor r.master = true → exec (.matrixRequest r) s = .next (g.decodeAnswer r)) ∧
      (answersFor r.master = false → exec (.matrixRequest r) s =
        .next (g.setMtxOut r.master [{ e with granted := true, gAt := r.t, target := noTarget, left := 0 }]))) := by
  have hgo : g.mtx.out = [] := by rw [hgr]; exact ho
  have hg' : (s.at_ r.t).grantTo k r.master = g := hgr.symm
  have ht : e.target = k := by rw [he]; exact State.mtxEntry_target hk
  rw [exec_matrixRequest_reaches hg]
  refine ⟨fun hs => ?_, fun hs hi => ⟨fun hn => ?_, fun hy => ?_⟩, fun hs hb hi => ?_⟩
  · rw [State.mtxRequest_stopped (w := s.at_ r.t) ho hl hm hk ha h13 h12 hs, State.setMtxOut_empty (s := s.at_ r.t) ho, he]
  · rw [State.mtxRequest_unanswered (w := s.at_ r.t) ho hl hm hh hk ha h13 h12 hs hi hn, hg', State.setMtxOut_empty hgo, ← he, MtxOut.sent, ht]
    rfl
  · rw [State.mtxRequest_answered (w := s.at_ r.t) ho hl hm hh hk ha h13 h12 hs hi hy, hg']
    exact ⟨rfl, fun h1 h2 => by rw [State.mtxSettle_empty h1 h2]⟩
  · rw [State.mtxRequest_outside (w := s.at_ r.t) ho hl hm hh hk ha h13 h12 hs hb hi, hg', State.setMtxOut_empty hgo, ← he]
    exact ⟨fun h => by rw [if_pos h], fun h => by rw [if_neg (by simp [h])]; rfl⟩

end empty

/-! ### The arbiter -/

theorem State.portStops_iff (s : State) (k : Nat) : s.portStops k = true ↔ (k ∈ s.mtx.ports ∨ (isBridge k = true ∧ s.rst.cclkFail = true)) := by
  rw [State.portStops]
  simp

theorem State.held_back (s : State) (m : Nat) (before : List MtxOut) (o b : MtxOut) :
    ((o.granted = true ∨ s.hung m = true) → s.inTurn m before o = false) ∧
    (b ∈ before → reqId b.req = reqId o.req → (b.target ≠ o.target ∨ b.granted = false) → s.inTurn m before o = false) ∧
    (o.cyc = false → 16 ≤ ((s.mtxOut m).filter (·.granted)).length → s.inTurn m before o = false) ∧
    (s.needsNoPort o = false → (s.portBusy o.target = true ∨ s.portStops o.target = true ∨ s.closesCycle m o.target = true) → s.portFree m o = false) := by
  refine ⟨fun h => ?_, fun hb hid h => ?_, fun hc h => ?_, fun hn h => ?_⟩
  · rw [State.inTurn]
    rcases h with h | h <;> simp [h]
  · have ha : before.any (fun b => reqId b.req == reqId o.req && (b.target != o.target || !b.granted)) = true :=
      List.any_eq_true.mpr ⟨b, hb, by rcases h with h | h <;> simp [hid, h]⟩
    rw [State.inTurn, ha]
    simp
  · have hd : ¬ ((s.mtxOut m).filter (·.granted)).length + countOut [] (before.filter fun b => !b.granted) < 16 := by omega
    rw [State.inTurn, hc, decide_eq_false hd]
    simp
  · rw [State.portFree, hn]
    rcases h with h | h | h <;> simp [h]

theorem State.nextGrant_pair {s : State} {a b : Nat × MtxOut} (h : s.grantable = [a, b]) (ht : a.2.target = b.2.target) :
    s.nextGrant = some (if s.goesBefore b a then b else a) := by
  rw [State.nextGrant, h]
  change (if a.2.target = b.2.target ∧ s.goesBefore b a then some b else some a) = _
  by_cases hb : s.goesBefore b a = true
  · rw [if_pos ⟨ht, hb⟩, if_pos hb]
  · rw [if_neg fun hc => hb hc.2, if_neg hb]

section order
variable {s : State} {a b : Nat × MtxOut}

theorem State.goesBefore_aged (h : (s.aged a.2 || s.aged b.2) = true) : s.goesBefore b a = (s.aged b.2 && (!s.aged a.2 || decide (b.2.since < a.2.since))) :=
  if_pos h

theorem State.goesBefore_fresh (h : (s.aged a.2 || s.aged b.2) = false) : s.goesBefore b a =
    (decide (s.mtxPrio a.2.target a.1 < s.mtxPrio a.2.target b.1) || (s.mtxPrio a.2.target a.1 == s.mtxPrio a.2.target b.1 &&
      decide (s.mtxTurn a.2.target b.1 < s.mtxTurn a.2.target a.1))) :=
  if_neg (by rw [h]; decide)

theorem State.goesBefore_order (ht : a.2.target = b.2.target) :
    (s.aged b.2 = true → (s.aged a.2 = false ∨ b.2.since < a.2.since) → s.goesBefore b a = true) ∧
    (s.aged a.2 = false → s.aged b.2 = false → s.mtxPrio a.2.target a.1 < s.mtxPrio a.2.target b.1 → s.goesBefore b a = true ∧ s.goesBefore a b = false) ∧
    (s.aged a.2 = false → s.aged b.2 = false → s.mtxPrio a.2.target a.1 = s.mtxPrio a.2.target b.1 →
      (s.goesBefore b a = true ↔ s.mtxTurn a.2.target b.1 < s.mtxTurn a.2.target a.1)) := by
  refine ⟨fun hb h => ?_, fun ha hb hp => ⟨?_, ?_⟩, fun ha hb hp => ?_⟩
  · rw [State.goesBefore_aged (by simp [hb]), hb]
    rcases h with h | h <;> simp [h]
  · rw [State.goesBefore_fresh (by simp [ha, hb])]
    simp [hp]
  · rw [State.goesBefore_fresh (by simp [ha, hb]), ← ht]
    simp
    omega
  · rw [State.goesBefore_fresh (by simp [ha, hb])]
    simp [hp]

end order

/-- A request held back for the first time because its grant would close a cycle of waits is counted. -/
theorem State.countHolds_cycle {s : State} {m : Nat} {o : MtxOut} (hout : s.mtx.out = [(m, [o])]) (hc : o.cyc = false) (hi : s.inTurn m [] o = true)
    (hn : s.needsNoPort o = false) (hy : s.closesCycle m o.target = true) :
    s.countHolds.mtxOut m = [{ o with cyc := true }] ∧ (s.countHolds.rd R.MTX_HOLD_CNT).toNat = min 0xFFFFFFFF ((s.rd R.MTX_HOLD_CNT).toNat + 1) := by
  have hq : (!o.cyc && s.inTurn m [] o && !s.needsNoPort o && s.closesCycle m o.target) = true := by simp [hc, hi, hn, hy]
  have hs : s.countHolds = (s.inc R.MTX_HOLD_CNT).editMtx m o fun o => [{ o with cyc := true }] := by
    rw [State.countHolds, hout]
    simp only [List.flatMap_cons, List.flatMap_nil, List.append_nil, withBefore, List.filter_cons, List.filter_nil, hq]
    rfl
  have hx : s.inc R.MTX_HOLD_CNT = (s.inc R.MTX_HOLD_CNT).setOut [(m, [o])] := by
    rw [State.setOut, ← hout]
    rfl
  rw [hs, hx, State.editMtx_change]
  exact ⟨State.mtxOut_setOut_single .., State.rd_inc ..⟩

/-! ### Refusals -/

section refusal
variable (s : State) (r : MtxReq)

/-- A refused request in its log. -/
def State.refusalLogged : State := s.logMtx 3 r.master fun s =>
  s.wr2 R.MTX_PERM_LOG_LO R.MTX_PERM_LOG_HI (r.addr % 2 ^ 32 + 2 ^ 32 * logHi r (r.fetch && fetches r.master))

theorem State.refuseAccess_eq : s.refuseAccess r =
    (((s.refusalLogged r).inc R.MTX_PERM_CNT).raise Hist.mtx F.MTX_HIST_PERM_ERR).setData (if r.write || r.fetch then none else some 0) := rfl

theorem State.refusalLogged_onlyLogs : s.onlyLogs (s.refusalLogged r) [R.MTX_PERM_LOG_LO, R.MTX_PERM_LOG_HI] :=
  s.logMtx_wr2_onlyLogs _ _ _ _ _ (.head _) (.tail _ (.head _))

omit s r in
theorem State.rd2_wr2 (s : State) {lo hi v : Nat} (h : lo ≠ hi) (hv : v < 2 ^ 64) : (s.wr2 lo hi v).rd2 lo hi = v := by
  rw [State.wr2, State.rd2, State.rd_wr_ne _ _ h, State.rd_wr_self, State.rd_wr_self, BitVec.toNat_ofNat, BitVec.toNat_ofNat]
  omega

omit s in
theorem logHi_lt (b : Bool) : logHi r b < 2 ^ 32 := by
  have hm := r.master.isLt
  have h1 : ∀ b : Bool, one b ≤ 1 := by decide
  have hw := h1 r.write
  have hb := h1 b
  rw [logHi]
  omega

theorem State.rd2_refuseAccess : (s.refuseAccess r).rd2 R.MTX_PERM_LOG_LO R.MTX_PERM_LOG_HI =
    (s.refusalLogged r).rd2 R.MTX_PERM_LOG_LO R.MTX_PERM_LOG_HI := by
  have h {a : Nat} (h1 : a ≠ R.MTX_HIST) (h2 : a ≠ R.MTX_PERM_CNT) : (s.refuseAccess r).rd a = (s.refusalLogged r).rd a := by
    rw [State.refuseAccess_eq]
    exact ((State.rd_raise_ne _ Hist.mtx _ h1).trans (State.rd_inc_ne _ h2))
  rw [State.rd2, State.rd2, h (by decide) (by decide), h (by decide) (by decide)]

theorem State.refuseAccess_spec : (s.refuseAccess r).get R.MTX_HIST F.MTX_HIST_PERM_ERR = 1 ∧
    ((s.refuseAccess r).rd R.MTX_PERM_CNT).toNat = min 0xFFFFFFFF ((s.rd R.MTX_PERM_CNT).toNat + 1) ∧
    (s.refuseAccess r).mtx.data = (if r.write = true ∨ r.fetch = true then none else some 0) ∧ (s.refuseAccess r).mtx.mem = s.mtx.mem ∧
    ((∀ p, tabFind s.mtx.logged 3 = some p → p.1 / 2970 ≠ s.now / 2970 ∨ r.master.val ≤ p.2) →
      (s.refuseAccess r).rd2 R.MTX_PERM_LOG_LO R.MTX_PERM_LOG_HI = r.addr % 2 ^ 32 + 2 ^ 32 * logHi r (r.fetch && fetches r.master)) ∧
    (∀ p, tabFind s.mtx.logged 3 = some p → p.1 / 2970 = s.now / 2970 → p.2 < r.master.val →
      (s.refuseAccess r).rd2 R.MTX_PERM_LOG_LO R.MTX_PERM_LOG_HI = s.rd2 R.MTX_PERM_LOG_LO R.MTX_PERM_LOG_HI) := by
  have hlogs := s.refusalLogged_onlyLogs r
  refine ⟨?_, ?_, ?_, ?_, fun h => ?_, fun p hp hc hlt => ?_⟩
  · rw [State.refuseAccess_eq]
    exact State.get_raise _ Hist.mtx _ rfl (by decide)
  · rw [← hlogs.rd (a := R.MTX_PERM_CNT) (by decide), ← State.rd_inc, State.refuseAccess_eq]
    exact congrArg BitVec.toNat (State.rd_raise_ne _ Hist.mtx _ (by decide))
  · rw [State.refuseAccess_eq]
    simp [State.setData]
  · rw [State.refuseAccess_eq]
    change (((s.refusalLogged r).inc R.MTX_PERM_CNT).raise Hist.mtx F.MTX_HIST_PERM_ERR).mtx.mem = _
    rw [State.raise_mtx, State.inc_mtx, hlogs.1]
  · have hk : ¬ s.logKept 3 r.master.val := by
      rintro ⟨p, hp, hc, hlt⟩
      rcases h p hp with h | h
      · exact h hc
      · omega
    rw [State.rd2_refuseAccess, State.refusalLogged, State.logMtx_of_not_kept hk]
    have hv := logHi_lt r (r.fetch && fetches r.master)
    exact State.rd2_wr2 _ (by decide) (by omega)
  · have hk : s.logKept 3 r.master.val := ⟨p, hp, hc, hlt⟩
    rw [State.rd2_refuseAccess, State.refusalLogged, State.logMtx_of_kept hk]

end refusal

/-! ### Register accesses -/

section access
variable {s g : State} {m : Fin 16} {a v t k : Nat} {f : Found}

theorem writeReq_offset : (writeReq m a v t f).addr - 0x40000000 = a := Nat.add_sub_cancel_left ..

theorem readReq_offset : (readReq a t).addr - 0x40000000 = a := Nat.add_sub_cancel_left ..

/-- A register that lies in a block's extent lies below BAR2's window. -/
theorem below_of_inExtent (h : inExtent a = true) : ¬ (0x4000000 ≤ a ∧ a < 0x4040000) := by
  rw [inExtent] at h
  simp only [Bool.or_eq_true, Bool.and_eq_true, decide_eq_true_eq] at h
  omega

theorem one_word_in_extent {r : MtxReq} (h4 : r.bytes = 4) (ho : r.addr - 0x40000000 = a) (h : inExtent a = true) : reqInBlocks r = true := by
  rw [reqInBlocks, h4, ho]
  simpa [wordsOf] using h

theorem State.hostGate_up {r : MtxReq} (hm : r.master.val = 6 → s.up) (ho : r.addr - 0x40000000 = a) (h : inExtent a = true) : s.hostGate r = none := by
  rw [State.hostGate, ho]
  by_cases h6 : r.master.val = 6
  · obtain ⟨hup, hlc⟩ := hm h6
    rw [State.hostUp, Bool.and_eq_true, Bool.and_eq_true, beq_iff_eq] at hup
    obtain ⟨⟨hp, hmse⟩, -⟩ := hup
    rw [if_neg (by simpa using h6), hmse, if_neg (by decide), if_neg (below_of_inExtent h), if_neg (by simpa using hp), if_neg hlc]
  · exact if_pos h6

theorem wordsOf_four : wordsOf 4 = 1 := by decide

theorem State.carry_write (g : State) (m : Fin 16) (a v t : Nat) (f : Found) {k : Nat} (hb : isBridge k = true) :
    g.carry (writeReq m a v t f) k = (g.regWrite a (BitVec.ofNat 32 v) g.now f).setData none := by
  have hw : wordsOf (writeReq m a v t f).bytes = 1 := wordsOf_four
  rw [State.carry, hb, writeReq_offset, if_pos rfl, hw]
  rfl

theorem State.regReads_one (g : State) (m a : Nat) : g.regReads m a 1 = ((g.regRead m a).1.toNat, (g.regRead m a).2) := by
  rw [State.regReads.eq_def]
  rfl

theorem State.carry_read (g : State) (a t : Nat) {k : Nat} (hb : isBridge k = true) :
    g.carry (readReq a t) k = (g.regRead 6 a).2.setData (some (g.regRead 6 a).1.toNat) := by
  have hw : wordsOf (readReq a t).bytes = 1 := wordsOf_four
  rw [State.carry, hb, readReq_offset, if_pos rfl, hw, State.regReads_one]
  rfl

theorem bridge_le (hb : isBridge k = true) : k ≤ 11 := by
  rw [isBridge, decide_eq_true_eq] at hb
  exact hb.2

theorem State.portStops_false (hc : s.rst.cclkFail = false) (hp : k ∉ s.mtx.ports) : s.portStops k = false := by
  rw [Bool.eq_false_iff]
  intro h
  rcases s.portStops_iff k |>.mp h with h | ⟨-, h⟩
  · exact hp h
  · exact nomatch hc.symm.trans h

/-- A register access of four bytes that nothing stands in the way of. -/
theorem State.access_answered {r : MtxReq} (hm6 : r.master.val = 6 → s.up) (hh : s.hung r.master = false) (hm : r.master.val < 13) (ho : s.mtx.out = [])
    (hl : s.mtx.late = []) (hk : reqTarget r = some k) (hb : isBridge k = true) (hoff : r.addr - 0x40000000 = a) (h4 : r.bytes = 4) (hx : inExtent a = true)
    (hc : s.rst.cclkFail = false) (hp : k ∉ s.mtx.ports) (ha : s.mayAccess r k = true) (hy : r.answered = true) :
    s.request r = (State.mtxSettle 2 ((s.grantTo k r.master).carry r k)).countHolds := by
  have h11 := bridge_le hb
  rw [State.request_reaches (s.hostGate_up hm6 hoff hx)]
  exact State.mtxRequest_answered ho hl hm hh hk ha (by omega) (by omega) (s.portStops_false hc hp) (.inr (one_word_in_extent h4 hoff hx)) hy

theorem registerWrite_stores (hm6 : m.val = 6 → s.up) (hh : s.hung m = false) (hm : m.val < 13) (ho : s.mtx.out = []) (hl : s.mtx.late = [])
    (hk : reqTarget (writeReq m a v t f) = some k) (hb : isBridge k = true) (hx : inExtent a = true) (hc : s.rst.cclkFail = false) (hp : k ∉ s.mtx.ports)
    (ha : s.mayAccess (writeReq m a v t f) k = true) (hg : g = { s.at_ t with mtx := { s.mtx with granted := tabPut s.mtx.granted k m.val } }) :
    exec (.registerWrite m a v t f) s = .next ((((g.regWrite a (BitVec.ofNat 32 v) t f).setData none).mtxSettle 2).countHolds) := by
  have e : exec (.registerWrite m a v t f) s = .next ((s.at_ t).request (writeReq m a v t f)) := rfl
  have hr := State.access_answered (s := s.at_ t) (r := writeReq m a v t f) (a := a) hm6 hh hm ho hl hk hb writeReq_offset rfl hx hc hp ha rfl
  have hg' : (s.at_ t).grantTo k (writeReq m a v t f).master = g := hg.symm
  have ht : g.now = t := by rw [hg]; rfl
  rw [e, hr, hg', State.carry_write _ _ _ _ _ _ hb, ht]

theorem State.up_cclk (h : s.up) : s.rst.cclkFail = false := by
  obtain ⟨h, -⟩ := h
  rw [State.hostUp, Bool.and_eq_true] at h
  simpa using h.2

theorem imaskWrite_isRequest (s : State) (a v : Nat) : (maskHists a = [] → exec (.imaskWrite a v) s = .next s) ∧
    (maskHists a ≠ [] → exec (.imaskWrite a v) s = exec (.matrixRequest (writeReq 6 a v s.now ⟨false, none⟩)) s) := by
  have e : exec (.imaskWrite a v) s = execImaskWrite a v s := rfl
  rw [e, execImaskWrite]
  exact ⟨fun h => congrArg _ (if_pos (by rw [h]; rfl)), fun h => congrArg _ (if_neg (by simpa using h))⟩

theorem snapshotRead_isRequest (s : State) (a : Nat) : ((wideOf a).map (·.1) ≠ some a → exec (.snapshotRead a) s = .next s) ∧
    ((wideOf a).map (·.1) = some a → exec (.snapshotRead a) s = exec (.matrixRequest (readReq a s.now)) s) := by
  have e : exec (.snapshotRead a) s = execSnapshotRead a s := rfl
  rw [e, execSnapshotRead]
  exact ⟨fun h => congrArg _ (if_neg h), fun h => congrArg _ (if_pos h)⟩

theorem imaskWrite_stores (hu : s.up) (hn : maskHists a ≠ []) (hh : s.hung 6 = false) (ho : s.mtx.out = []) (hl : s.mtx.late = [])
    (hk : reqTarget (writeReq 6 a v s.now ⟨false, none⟩) = some k) (hb : isBridge k = true) (hx : inExtent a = true) (hp : k ∉ s.mtx.ports)
    (ha : s.mayAccess (writeReq 6 a v s.now ⟨false, none⟩) k = true)
    (hg : g = { s with mtx := { s.mtx with granted := tabPut s.mtx.granted k 6 } }) :
    exec (.imaskWrite a v) s = .next ((((g.regWrite a (BitVec.ofNat 32 v) s.now ⟨false, none⟩).setData none).mtxSettle 2).countHolds) := by
  rw [(imaskWrite_isRequest s a v).2 hn]
  exact registerWrite_stores (m := 6) (fun _ => hu) hh (by decide) ho hl hk hb hx (s.up_cclk hu) hp ha hg

theorem snapshotRead_reads (hu : s.up) (hn : (wideOf a).map (·.1) = some a) (hh : s.hung 6 = false) (ho : s.mtx.out = []) (hl : s.mtx.late = [])
    (hk : reqTarget (readReq a s.now) = some k) (hb : isBridge k = true) (hx : inExtent a = true) (hp : k ∉ s.mtx.ports)
    (ha : s.mayAccess (readReq a s.now) k = true) (hg : g = { s with mtx := { s.mtx with granted := tabPut s.mtx.granted k 6 } }) :
    exec (.snapshotRead a) s = .next ((g.regRead 6 a).2.setData (some (g.regRead 6 a).1.toNat)) := by
  have e : exec (.matrixRequest (readReq a s.now)) s = .next (s.request (readReq a s.now)) := rfl
  have hr := State.access_answered (s := s) (r := readReq a s.now) (a := a) (fun _ => hu) hh (by decide : (6 : Nat) < 13) ho hl hk hb readReq_offset rfl hx
    (s.up_cclk hu) hp ha rfl
  have hg' : s.grantTo k (readReq a s.now).master = g := hg.symm
  have hm : (g.regRead 6 a).2.mtx = g.mtx := (State.regRead_kept (.refl [.snap] g) 6 a (Sub.self _)).2.2 .mtx (by decide)
  have hout : ((g.regRead 6 a).2.setData (some (g.regRead 6 a).1.toNat)).mtx.out = [] :=
    (congrArg MtxSt.out hm).trans (by rw [hg]; exact ho)
  have hlate : ((g.regRead 6 a).2.setData (some (g.regRead 6 a).1.toNat)).mtx.late = [] :=
    (congrArg MtxSt.late hm).trans (by rw [hg]; exact hl)
  rw [(snapshotRead_isRequest s a).2 hn, e, hr, hg', State.carry_read _ _ _ hb, State.mtxSettle_empty hout hlate]

theorem State.storeReg_bit (s : State) (a : Nat) (v : Word) (x : RegRow) (hx : regRow a = some x) (i : Nat) (hi : i < 32) (hw : x.rw.testBit i = true) :
    ((s.storeReg a v (~~~0)).rd a).getLsbD i = (v.getLsbD i && !(x.w1c.testBit i && v.getLsbD i)) := by
  rw [State.storeReg, hx]
  dsimp only
  have h1 : ((~~~0 : Word)).getLsbD i = true := by
    rw [BitVec.getLsbD_not, decide_eq_true hi]
    simp
  rw [State.rd_wr_self]
  simp only [BitVec.getLsbD_and, BitVec.getLsbD_or, BitVec.getLsbD_not, BitVec.getLsbD_ofNat, Nat.testBit_or, decide_eq_true hi, hw, h1]
  simp

end access

end Sys2Proof.Machine

/-! Requests at the control matrix are held, refused, logged or carried (O48). -/
namespace Sys2Proof.Machine

/-- A register write of the host's that a table or lock refuses, as a command's answer. -/
theorem byHost_refusal {s : State} (h : s.up) (h6 : s.hung 6 = false) {a : Nat} {k : State → State} (h2 : s.hostMay a = false) :
    (.next (s.byHost a k) : Host.Outcome State Fault Refusal) = .next (s.refuseAccess (hostReq a s.now)) :=
  congrArg _ (State.byHost_refused h h6 h2 k)

/-- Settles O48: a request that the PCIe island lets through is settled move by move; one request at an empty matrix moves at most twice. -/
theorem matrixRequests : Obligations.MatrixRequests := by
  unfold Obligations.MatrixRequests
  refine ⟨fun s r w h => by rw [exec_matrixRequest, State.request_gated h], requestToMatrix, fun s g r e hg hm ho hl he => ⟨?_, ?_, ?_⟩, State.portStops_iff,
    State.held_back, fun s a b h ht => State.nextGrant_pair h ht, fun s a b => State.goesBefore_order, fun s m o h => State.countHolds_cycle h,
    State.refuseAccess_spec, fun _ _ _ _ _ _ => rfl, fun g m a v t f k hb => g.carry_write m a v t f hb, ?_, ?_, ?_, State.storeReg_bit,
    imaskWrite_isRequest, snapshotRead_isRequest, fun s h h6 => ?_⟩
  · exact requestHung hg hm ho hl he
  · exact requestNoTarget hg hm ho hl he
  · exact fun k hh hk hgr => ⟨requestRefused hg hm ho hl hh hk hgr, requestGranted hg hm ho hl he hh hk hgr⟩
  · exact fun s g m a v t k f h6 hh hm ho hl hk hb hx hc hp ha hg => registerWrite_stores h6 hh hm ho hl hk hb hx hc hp ha hg
  · exact fun s g a v k hu hn hh ho hl hk hb hx hp ha hg => imaskWrite_stores hu hn hh ho hl hk hb hx hp ha hg
  · exact fun s g a k hu hn hh ho hl hk hb hx hp ha hg => snapshotRead_reads hu hn hh ho hl hk hb hx hp ha hg
  · and_intros <;> intros
    all_goals exact byHost_refusal h h6 ‹_›

end Sys2Proof.Machine

/-! Sources of a cold and of a warm reset (O52). -/
namespace Sys2Proof.Machine

/-! ### What a cold reset leaves -/

/-- The registers a cold reset gives a value of its own. -/
def coldSet : List Nat := [R.SEC_STAT, R.SEC_FW, R.LVP_STAT, R.AXL_STAT]

section cold
variable (s : State)

/-- The registers a cold reset leaves, copied into `r`. -/
def State.coldCopy (r : State) : State := coldKept.foldl (fun (r : State) a => r.wr a (s.rd a)) r

theorem State.coldCopy_onlyRegs (r : State) : r.onlyRegs (s.coldCopy r) coldKept := .foldl _ fun _ ha _ => State.wr_onlyRegs _ _ ha

theorem State.coldCopy_rd (r : State) (a : Nat) : (s.coldCopy r).rd a = if a ∈ coldKept then s.rd a else r.rd a :=
  State.rd_foldl_wr (a := fun x => x) (fun _ _ hvw => hvw) r coldKept a

/-- The parts of the state that a cold reset leaves, before its registers. -/
theorem State.coldState_parts : ∃ r : State, r.regs = [] ∧ r.host = { mem := s.host.mem, sent := s.host.sent, perst := s.host.perst } ∧
    r.axl = { copies := s.axl.copies, inP0 := s.p0Stores } ∧
    r.rst = { on := s.rst.on, pwrGood := s.rst.pwrGood, pinLow := s.rst.pinLow, cold := true, trig := some s.now, loaded := s.rst.loaded, retMon := s.rst.retMon
              trialRun := s.rst.trialRun, opt := s.rst.opt } ∧
    r.xpt = {} ∧ (s.coldCopy r).onlyRegs s.coldState coldSet := by
  have hset {r t : State} (k : r.onlyRegs t coldSet) {a : Nat} (ha : a ∈ coldSet) (f : Bits) (v : Nat) : r.onlyRegs (t.set a f v) coldSet :=
    k.trans (State.set_onlyRegs _ _ _ ha)
  have hsec : R.SEC_STAT ∈ coldSet := by decide
  have hfw : R.SEC_FW ∈ coldSet := by decide
  have hlvp : R.LVP_STAT ∈ coldSet := by decide
  have haxl : R.AXL_STAT ∈ coldSet := by decide
  exact ⟨_, rfl, rfl, rfl, rfl, rfl, hset (hset (hset (hset (hset (hset (hset (.refl _ _) hsec _ _) hsec _ _) hfw _ _) hlvp _ _) hlvp _ _) haxl _ _) haxl _ _⟩

theorem State.coldState_rd {a : Nat} (ha : a ∉ coldSet) : s.coldState.rd a = if a ∈ coldKept then s.rd a else resetVal a := by
  obtain ⟨r, hr, -, -, -, -, h⟩ := s.coldState_parts
  have h0 : r.rd a = resetVal a := by
    rw [State.rd, hr]
    rfl
  rw [h.rd ha, State.coldCopy_rd, h0]

theorem State.coldState_rst : s.coldState.rst = { on := s.rst.on, pwrGood := s.rst.pwrGood, pinLow := s.rst.pinLow, cold := true, trig := some s.now
                                                  loaded := s.rst.loaded, retMon := s.rst.retMon, trialRun := s.rst.trialRun, opt := s.rst.opt } := by
  obtain ⟨r, -, -, -, hr, -, h⟩ := s.coldState_parts
  rw [h.rst, (s.coldCopy_onlyRegs r).rst, hr]

theorem State.coldState_axl : s.coldState.axl = { copies := s.axl.copies, inP0 := s.p0Stores } := by
  obtain ⟨r, -, -, hr, -, -, h⟩ := s.coldState_parts
  rw [h.axl, (s.coldCopy_onlyRegs r).axl, hr]

theorem State.coldState_xpt : s.coldState.xpt = {} := by
  obtain ⟨r, -, -, -, -, hr, h⟩ := s.coldState_parts
  rw [h.xpt, (s.coldCopy_onlyRegs r).xpt, hr]

theorem State.coldState_host : s.coldState.host.rings = [] ∧ s.coldState.host.mem = s.host.mem := by
  obtain ⟨r, -, hr, -, -, -, h⟩ := s.coldState_parts
  rw [h.host_eq, (s.coldCopy_onlyRegs r).host_eq, hr]
  exact ⟨rfl, rfl⟩

theorem State.coldState_phase : s.coldState.phase = 0 := by
  have h : s.coldState.rd R.RST_STAT = resetVal R.RST_STAT := (s.coldState_rd (by decide)).trans (if_neg (by decide))
  have h0 : getF F.RST_STAT_PHASE (resetVal R.RST_STAT) = 0 := by decide
  exact (congrArg (getF F.RST_STAT_PHASE) h).trans h0

theorem State.coldState_lifecycle : s.coldState.lifecycle = s.lifecycle := by
  rw [State.lifecycle, State.coldState]
  rw [State.get_set_ne _ _ _ _ (by decide), State.get_set_ne _ _ _ _ (by decide), State.get_set_ne _ _ _ _ (by decide),
    State.get_set_ne _ _ _ _ (by decide), State.get_set_ne _ _ _ _ (by decide), State.get_set_apart _ _ _ _ _ (by decide) (by decide)]
  exact State.get_set_fits _ _ _ (by decide) (State.get_lt _ _ _)

end cold

/-! ### Causes -/

section cause
variable (s : State) (cold : Bool) (m : Nat)

theorem State.newCause_onlyRegs : s.onlyRegs (s.newCause cold m) [R.RST_LAST_CAUSE, R.RST_CAUSE] :=
  .trans (.trans (State.wr_onlyRegs _ _ (.head _)) (State.setB_onlyRegs _ _ _ (.tail _ (.head _)))) (State.set_onlyRegs _ _ _ (.tail _ (.head _)))

theorem State.newCause_sources (h : m < 2 ^ 11) : (s.newCause cold m).get R.RST_CAUSE F.RST_CAUSE_SOURCES = m :=
  State.get_set_fits _ _ _ (by decide) h

theorem State.newCause_cold : (s.newCause cold m).get R.RST_CAUSE F.RST_CAUSE_COLD = if cold then 1 else 0 := by
  rw [State.newCause, State.get_set_apart _ _ _ _ _ (by decide) (by decide)]
  exact State.get_setB_self _ _ _ (by decide) rfl

theorem State.newCause_last : (s.newCause cold m).rd R.RST_LAST_CAUSE = s.rd R.RST_CAUSE := by
  rw [State.newCause, State.rd_set_ne _ _ _ (by decide), State.rd_setB_ne _ _ _ (by decide), State.rd_wr_self]

end cause

/-! ### The end of P0 -/

section leaveP0
variable {s : State}

/-- The end of P0 restarts P1 where a source fired meanwhile. -/
def State.beginP1 (s : State) (again : Bool) : State := if again then (s.setPhase 1).restartP1 else s.setPhase 1

/-- The registers the start of P1 writes. -/
def p1Regs : List Nat := [R.RST_STAT, R.RST_OPTLOAD_RESTARTS, R.RST_HIST]

theorem State.beginP1_onlyRegs (s : State) (again : Bool) : s.onlyRegs (s.beginP1 again) p1Regs :=
  have h : s.onlyRegs (s.setPhase 1) p1Regs := State.set_onlyRegs _ _ _ (.head _)
  .ite (fun _ => .trans (.trans h (State.inc_onlyRegs _ (.tail _ (.head _)))) (State.raise_onlyRegs _ Hist.rst _ (.tail _ (.tail _ (.head _))))) fun _ => h

theorem State.phase_setPhase (s : State) {p : Nat} (h : p < 8) : (s.setPhase p).phase = p := State.get_set_fits _ _ _ (by decide) h

theorem State.beginP1_phase (s : State) (again : Bool) : (s.beginP1 again).phase = 1 := by
  rw [State.beginP1]
  split
  · rw [State.phase, State.restartP1, State.get_raise_ne _ Hist.rst _ _ (by decide), State.get, State.rd_inc_ne _ (by decide)]
    exact s.phase_setPhase (by decide)
  · exact s.phase_setPhase (by decide)

/-- P0 is over: the registers and records it leaves, with nothing more to store. -/
def State.p0Over (s : State) : State :=
  let w := s.axl.inP0.foldl (fun (s : State) p => s.writeRec p.1 p.2 true) s
  { w with axl := { w.axl with inP0 := [] }, rst := { w.rst with p1Again := false } }

theorem State.p0Over_kept (s : State) : Kept [.regs, .axl] s (s.axl.inP0.foldl (fun (s : State) p => s.writeRec p.1 p.2 true) s) :=
  Kept.foldl (.refl _ s) fun _ _ hk => State.writeRec_kept hk _ _ _ (Sub.self _)

theorem State.p0Over_rst (s : State) : s.p0Over.rst = { s.rst with p1Again := false } :=
  congrArg (fun r : RstSt => { r with p1Again := false }) (s.p0Over_kept.2.2 .rst (by decide))

theorem State.p0Over_rd (s : State) {a : Nat} (ha : a < 0x70000) : s.p0Over.rd a = s.rd a := by
  have h (l : List (Nat × RecBody)) (s : State) : (l.foldl (fun (s : State) p => s.writeRec p.1 p.2 true) s).rd a = s.rd a := by
    induction l generalizing s with
    | nil => rfl
    | cons p l ih => rw [List.foldl_cons, ih, State.writeRec_rd _ _ _ _ (not_mem_recRegs _ ha)]
  exact h s.axl.inP0 s

theorem State.leaveP0_stays (h : s.rst.cold = false ∨ s.phase ≠ 0 ∨ s.rst.pwrGood = false ∨ s.rst.pinLow = true) : s.leaveP0 = s := by
  rw [State.leaveP0]
  exact if_neg (by rcases h with h | h | h | h <;> simp [h])

theorem State.leaveP0_leaves (hc : s.rst.cold = true) (hp : s.phase = 0) (hg : s.rst.pwrGood = true) (hl : s.rst.pinLow = false) :
    s.leaveP0 = s.p0Over.beginP1 s.rst.p1Again := by
  have hr : (s.axl.inP0.foldl (fun (s : State) p => s.writeRec p.1 p.2 true) s).rst.p1Again = s.rst.p1Again :=
    congrArg RstSt.p1Again (s.p0Over_kept.2.2 .rst (by decide))
  rw [State.leaveP0, if_pos (by simp [hc, hp, hg, hl])]
  dsimp only
  rw [hr]
  rfl

/-- What the end of P0 leaves as it was. -/
theorem State.leaveP0_rst (s : State) : s.leaveP0.rst = { s.rst with p1Again := s.leaveP0.rst.p1Again } := by
  by_cases h : s.rst.cold = true ∧ s.phase = 0 ∧ s.rst.pwrGood = true ∧ s.rst.pinLow = false
  · obtain ⟨hc, hp, hg, hl⟩ := h
    rw [State.leaveP0_leaves hc hp hg hl, (State.beginP1_onlyRegs _ _).rst, State.p0Over_rst]
  · rw [State.leaveP0_stays (by grind)]

theorem State.leaveP0_lv (s : State) : s.leaveP0.lv = s.lv := (State.leaveP0_kept (.refl [.regs, .vec, .axl, .rst] s) (Sub.self _)).2.2 .lv (by decide)

theorem State.leaveP0_rd (s : State) {a : Nat} (ha : a < 0x70000) (hp : a ∉ p1Regs) : s.leaveP0.rd a = s.rd a := by
  by_cases h : s.rst.cold = true ∧ s.phase = 0 ∧ s.rst.pwrGood = true ∧ s.rst.pinLow = false
  · obtain ⟨hc, h0, hg, hl⟩ := h
    rw [State.leaveP0_leaves hc h0 hg hl, (State.beginP1_onlyRegs _ _).rd hp, s.p0Over_rd ha]
  · rw [State.leaveP0_stays (by grind)]

theorem State.leaveP0_phase (hc : s.rst.cold = true) (hp : s.phase = 0) :
    s.leaveP0.phase = if s.rst.pwrGood = true ∧ s.rst.pinLow = false then 1 else 0 := by
  by_cases h : s.rst.pwrGood = true ∧ s.rst.pinLow = false
  · rw [if_pos h, State.leaveP0_leaves hc hp h.1 h.2, State.beginP1_phase]
  · rw [if_neg h, State.leaveP0_stays (by grind), hp]

end leaveP0

end Sys2Proof.Machine

/-! Reset sources begin cold and warm resets (O52). -/
namespace Sys2Proof.Machine

/-! ### A cold reset begins -/

/-- The block in P0 of a new cold reset with the given causes. -/
def State.coldStruck (s : State) (m : Nat) : State := (s.newCause true m).coldState

section struck
variable (s : State) (m : Nat)

theorem State.coldStruck_kept {a : Nat} (ha : a ∈ coldKept) (hs : a ∉ coldSet) : (s.coldStruck m).rd a = (s.newCause true m).rd a :=
  ((s.newCause true m).coldState_rd hs).trans (if_pos ha)

theorem State.coldStruck_rst : (s.coldStruck m).rst =
    { on := s.rst.on, pwrGood := s.rst.pwrGood, pinLow := s.rst.pinLow, cold := true, trig := some s.now, loaded := s.rst.loaded,
      retMon := s.rst.retMon, trialRun := s.rst.trialRun, opt := s.rst.opt } := by
  have h := s.newCause_onlyRegs true m
  have hn : (s.newCause true m).now = s.now := by
    rw [State.newCause, State.set_now, State.setB, State.set_now, State.wr_now]
  rw [State.coldStruck, State.coldState_rst, h.rst, hn]

theorem State.coldStruck_phase : (s.coldStruck m).phase = 0 := State.coldState_phase _

theorem State.coldStruck_sources (h : m < 2 ^ 11) : (s.coldStruck m).get R.RST_CAUSE F.RST_CAUSE_SOURCES = m := by
  rw [State.get, s.coldStruck_kept m (by decide) (by decide)]
  exact s.newCause_sources true m h

theorem State.coldStruck_cold : (s.coldStruck m).get R.RST_CAUSE F.RST_CAUSE_COLD = 1 := by
  rw [State.get, s.coldStruck_kept m (by decide) (by decide)]
  exact s.newCause_cold true m

theorem State.coldStruck_last : (s.coldStruck m).rd R.RST_LAST_CAUSE = s.rd R.RST_CAUSE := by
  rw [s.coldStruck_kept m (by decide) (by decide)]
  exact s.newCause_last true m

end struck

section sources
variable {s : State} {m : Nat}

theorem State.coldSource_begins (hr : s.axl.running = false) (hc : s.rst.cold = false) (hd : s.rst.warmDue = false) (hw : s.rst.warmRun = false) :
    s.coldSource m = (s.coldStruck m).leaveP0 := by
  rw [State.coldSource, hr, hc, if_neg (by decide), Bool.false_and, Bool.false_and, if_neg (by decide), if_neg (by decide), State.coldBegin, hd, hw]
  rfl

/-! ### Power good, brown-outs and the pin -/

/-- The block in P0 when power has been applied. -/
def State.powered (r : State) (t : Nat) : State :=
  { r with axl := { r.axl with inP0 := [] }, rst := { r.rst with on := true, pwrGood := true, trig := some t, loaded := false, opt := none } }

theorem State.powered_rst (r : State) (t : Nat) : (r.powered t).rst = { r.rst with on := true, pwrGood := true, trig := some t, loaded := false, opt := none } := rfl

theorem State.powered_get (r : State) (t a : Nat) (f : Bits) : (r.powered t).get a f = r.get a f := rfl

/-- The lanes of the LV agent start afresh. -/
def State.clearLv (r : State) : State := { r with lv := {} }

theorem State.clearLv_rst (r : State) : r.clearLv.rst = r.rst := rfl

theorem State.clearLv_get (r : State) (a : Nat) (f : Bits) : r.clearLv.get a f = r.get a f := rfl

/-- The registers that no power cycle keeps, back at reset. -/
def State.powerRegs (r : State) : State :=
  let r := [R.LVP_WIN, R.SEC_DEVID_LO, R.SEC_DEVID_HI, R.LVP_STAT].foldl (fun (r : State) a => r.wr a (resetVal a)) r
  (r.set R.AXL_STAT F.AXL_STAT_VHOLD_OK 0).set R.AXL_STAT F.AXL_STAT_PFAIL 0

/-- The registers power on writes. -/
def powerSet : List Nat := [R.LVP_WIN, R.SEC_DEVID_LO, R.SEC_DEVID_HI, R.LVP_STAT, R.AXL_STAT]

theorem State.powerRegs_onlyRegs (r : State) : r.onlyRegs r.powerRegs powerSet :=
  have h : R.AXL_STAT ∈ powerSet := by decide
  .trans (.trans (.foldl _ fun _ ha _ => State.wr_onlyRegs _ _ (List.mem_append_left [R.AXL_STAT] ha)) (State.set_onlyRegs _ _ _ h)) (State.set_onlyRegs _ _ _ h)

theorem exec_powerOn (h : s.rst.pwrGood = false) : exec .powerOn s = .next (((s.coldStruck 1).powered s.now).powerRegs.clearLv).leaveP0 := by
  have e : exec .powerOn s = execPowerOn s := rfl
  rw [e, execPowerOn, h]
  exact congrArg _ (if_neg (by decide))

theorem powerOn_spec (h : s.rst.pwrGood = false) : ∃ u, exec .powerOn s = .next u ∧ u.rst.pwrGood = true ∧ u.rst.cold = true ∧
    u.phase = (if s.rst.pinLow then 0 else 1) ∧ u.get R.RST_CAUSE F.RST_CAUSE_SOURCES = 1 ∧ u.get R.RST_CAUSE F.RST_CAUSE_COLD = 1 ∧ u.lv = {} ∧ u.rst.opt = none := by
  obtain ⟨v, hv⟩ : ∃ v, v = s.coldStruck 1 := ⟨_, rfl⟩
  obtain ⟨w, hw⟩ : ∃ w, w = (v.powered s.now).powerRegs := ⟨_, rfl⟩
  have hk : (v.powered s.now).onlyRegs w powerSet := hw ▸ State.powerRegs_onlyRegs _
  have hrst : w.clearLv.rst = { v.rst with on := true, pwrGood := true, trig := some s.now, loaded := false, opt := none } := by
    rw [State.clearLv_rst, hk.rst, State.powered_rst]
  have hrd {a : Nat} (ha : a ∉ powerSet) (f : Bits) : w.clearLv.get a f = v.get a f := by
    rw [State.clearLv_get, hk.get ha f, State.powered_get]
  have hcold : w.clearLv.rst.cold = true := by rw [hrst, hv, State.coldStruck_rst]
  have hgood : w.clearLv.rst.pwrGood = true := by rw [hrst]
  have hpin : w.clearLv.rst.pinLow = s.rst.pinLow := by rw [hrst, hv, State.coldStruck_rst]
  have hopt : w.clearLv.rst.opt = none := by rw [hrst]
  have hphase : w.clearLv.phase = 0 := (hrd (by decide) _).trans (by rw [hv]; exact s.coldStruck_phase 1)
  have hget (f : Bits) : w.clearLv.leaveP0.get R.RST_CAUSE f = v.get R.RST_CAUSE f :=
    (congrArg (getF f) (State.leaveP0_rd _ (by decide) (by decide))).trans (hrd (by decide) f)
  refine ⟨w.clearLv.leaveP0, by rw [exec_powerOn h, ← hv, ← hw], ?_⟩
  rw [State.leaveP0_rst, State.leaveP0_phase hcold hphase, State.leaveP0_lv, hget, hget, hgood, hpin, hv]
  refine ⟨rfl, hcold, ?_, s.coldStruck_sources 1 (by decide), s.coldStruck_cold 1, rfl, hopt⟩
  cases s.rst.pinLow <;> rfl

section struckNow
variable (hr : s.axl.running = false) (hc : s.rst.cold = false) (hd : s.rst.warmDue = false) (hw : s.rst.warmRun = false)
include hr hc hd hw

theorem brownOut_spec (h : s.rst.pwrGood = true) : ∃ u, exec .brownOut s = .next u ∧ u.phase = 0 ∧ u.rst.cold = true ∧ u.rst.pwrGood = false ∧
    u.get R.RST_CAUSE F.RST_CAUSE_SOURCES = 2 ∧ u.get R.RST_CAUSE F.RST_CAUSE_COLD = 1 ∧ u.rd R.RST_LAST_CAUSE = s.rd R.RST_CAUSE ∧
    u.host.mem = s.host.mem ∧ u.axl.copies = s.axl.copies ∧ u.lifecycle = s.lifecycle := by
  have e : exec .brownOut s = execBrownOut s := rfl
  obtain ⟨v, hv⟩ : ∃ v, v = ({ s with rst := { s.rst with pwrGood := false } } : State) := ⟨_, rfl⟩
  have hb : v.coldSource 2 = v.coldStruck 2 := by
    rw [State.coldSource_begins (by rw [hv]; exact hr) (by rw [hv]; exact hc) (by rw [hv]; exact hd) (by rw [hv]; exact hw)]
    exact State.leaveP0_stays (.inr (.inr (.inl (by rw [State.coldStruck_rst, hv]))))
  have hk := v.newCause_onlyRegs true 2
  refine ⟨v.coldStruck 2, ?_, v.coldStruck_phase 2, by rw [State.coldStruck_rst], by rw [State.coldStruck_rst, hv], v.coldStruck_sources 2 (by decide),
    v.coldStruck_cold 2, (v.coldStruck_last 2).trans (by rw [hv]; rfl), ?_, ?_, ?_⟩
  · rw [e, execBrownOut, if_pos h, ← hv, hb]
  · rw [State.coldStruck, (State.coldState_host _).2, hk.host_eq, hv]
  · rw [State.coldStruck, State.coldState_axl, hk.axl, hv]
  · rw [State.coldStruck, State.coldState_lifecycle, State.lifecycle, hk.get (by decide), hv]
    rfl

theorem pinReset_spec (h : s.rst.pinLow = false) : ∃ u, exec .pinReset s = .next u ∧ u.phase = 0 ∧ u.rst.cold = true ∧ u.rst.pinLow = true ∧
    u.get R.RST_CAUSE F.RST_CAUSE_SOURCES = 4 ∧ u.host.rings = [] ∧ u.xpt = {} ∧ u.rd R.RST_LAST_CAUSE = s.rd R.RST_CAUSE := by
  have e : exec .pinReset s = execPinReset s := rfl
  obtain ⟨v, hv⟩ : ∃ v, v = ({ s with rst := { s.rst with pinLow := true } } : State) := ⟨_, rfl⟩
  have hb : v.coldSource 4 = v.coldStruck 4 := by
    rw [State.coldSource_begins (by rw [hv]; exact hr) (by rw [hv]; exact hc) (by rw [hv]; exact hd) (by rw [hv]; exact hw)]
    exact State.leaveP0_stays (.inr (.inr (.inr (by rw [State.coldStruck_rst, hv]))))
  refine ⟨v.coldStruck 4, ?_, v.coldStruck_phase 4, by rw [State.coldStruck_rst], by rw [State.coldStruck_rst, hv], v.coldStruck_sources 4 (by decide),
    (State.coldState_host _).1, State.coldState_xpt _, (v.coldStruck_last 4).trans (by rw [hv]; rfl)⟩
  rw [e, execPinReset, h, if_neg (by decide), ← hv, hb]

end struckNow

theorem exec_powerGoodReturn (ho : s.rst.on = true) (hg : s.rst.pwrGood = false) :
    exec .powerGoodReturn s = .next ({ s with rst := { s.rst with pwrGood := true } } : State).leaveP0 := by
  have e : exec .powerGoodReturn s = execPowerGoodReturn s := rfl
  rw [e, execPowerGoodReturn, ho, hg]
  rfl

theorem powerGoodReturn_none (h : s.rst.on = false ∨ s.rst.pwrGood = true) : exec .powerGoodReturn s = .next s := by
  have e : exec .powerGoodReturn s = execPowerGoodReturn s := rfl
  rw [e, execPowerGoodReturn, if_neg (by rcases h with h | h <;> simp [h])]

theorem exec_resetNRelease (s : State) : exec .resetNRelease s = .next ({ s with rst := { s.rst with pinLow := false } } : State).leaveP0 := rfl

theorem p0_ends (hc : s.rst.cold = true) (hp : s.phase = 0) :
    (s.rst.on = true → s.rst.pwrGood = false → ∃ u, exec .powerGoodReturn s = .next u ∧ u.rst.pwrGood = true ∧ u.phase = (if s.rst.pinLow then 0 else 1)) ∧
    (∃ u, exec .resetNRelease s = .next u ∧ u.rst.pinLow = false ∧ u.phase = (if s.rst.pwrGood then 1 else 0)) := by
  refine ⟨fun ho hg => ⟨_, exec_powerGoodReturn ho hg, by rw [State.leaveP0_rst], ?_⟩, ⟨_, exec_resetNRelease s, by rw [State.leaveP0_rst], ?_⟩⟩
  · refine (State.leaveP0_phase (s := { s with rst := { s.rst with pwrGood := true } }) hc hp).trans ?_
    cases s.rst.pinLow <;> rfl
  · refine (State.leaveP0_phase (s := { s with rst := { s.rst with pinLow := false } }) hc hp).trans ?_
    cases s.rst.pwrGood <;> rfl

theorem notInP0 (h : s.rst.cold = false ∨ s.phase ≠ 0) (x : RstSt) (hx : x.cold = s.rst.cold) : ({ s with rst := x } : State).leaveP0 = { s with rst := x } :=
  State.leaveP0_stays (h.imp (fun h => hx.trans h) .inl)

/-! ### Warm sources -/

theorem warmSource_spec {b : Nat} (h4 : 4 ≤ b) (h9 : b ≤ 9) (hc : s.rst.cold = false) (hw : s.rst.warmRun = false) (hd : s.rst.warmDue = false) :
    (s.get R.RST_CFG F.RST_CFG_COLD / 2 ^ (b - 4) % 2 = 1 → s.warmSource b = s.coldSource (2 ^ b)) ∧
    (s.get R.RST_CFG F.RST_CFG_COLD / 2 ^ (b - 4) % 2 = 0 → s.get R.RST_STAT F.RST_STAT_WARM_STREAK = 3 → s.warmSource b = s.coldSource (2 ^ b + 2 ^ 10)) ∧
    (s.get R.RST_CFG F.RST_CFG_COLD / 2 ^ (b - 4) % 2 = 0 → s.get R.RST_STAT F.RST_STAT_WARM_STREAK ≠ 3 → ∀ w, w = s.warmSource b →
      w.rst.warmDue = true ∧ w.get R.RST_CAUSE F.RST_CAUSE_SOURCES = 2 ^ b ∧ w.get R.RST_CAUSE F.RST_CAUSE_COLD = 0 ∧ w.rd R.RST_LAST_CAUSE = s.rd R.RST_CAUSE ∧
      w.host = s.host ∧ w.xpt = s.xpt ∧ w.media = s.media) := by
  refine ⟨fun h => if_pos h, fun h hs => ?_, fun h hs w hw' => ?_⟩
  · rw [State.warmSource, if_neg (by omega), hc, hd, hw, if_neg (by simp), if_neg (by simp), if_pos hs]
  · have hb : 2 ^ b < 2 ^ 11 := Nat.pow_lt_pow_right (by decide) (by omega)
    obtain ⟨v, hv⟩ : ∃ v, v = s.newCause false (2 ^ b) := ⟨_, rfl⟩
    have hvk := s.newCause_onlyRegs false (2 ^ b)
    rw [← hv] at hvk
    obtain ⟨x, hx, hxk, hxh⟩ : ∃ x : State, s.warmSource b = { x with rst := { x.rst with warmDue := true } } ∧ v.onlyRegs x [R.RST_STAT] ∧ x.host = v.host := by
      refine ⟨if v.isReady then v else v.set R.RST_STAT F.RST_STAT_WARM_STREAK (v.get R.RST_STAT F.RST_STAT_WARM_STREAK + 1), ?_,
        .ite (fun _ => .refl _ _) fun _ => State.set_onlyRegs _ _ _ (.head _), ?_⟩
      · rw [State.warmSource, if_neg (by omega), hc, hd, hw, if_neg (by simp), if_neg (by simp), if_neg hs, hv]
      · split
        · rfl
        · exact State.set_host ..
    have hvh : v.host = s.host := by rw [hv, State.newCause, State.set_host, State.setB, State.set_host, State.wr_host]
    have hg (f : Bits) : w.get R.RST_CAUSE f = v.get R.RST_CAUSE f := by rw [hw', hx]; exact hxk.get (by decide) f
    refine ⟨by rw [hw', hx], ?_, ?_, ?_, ?_, ?_, ?_⟩
    · rw [hg, hv]
      exact s.newCause_sources false _ hb
    · rw [hg, hv]
      exact s.newCause_cold false _
    · have hl : w.rd R.RST_LAST_CAUSE = v.rd R.RST_LAST_CAUSE := by rw [hw', hx]; exact hxk.rd (by decide)
      rw [hl, hv]
      exact s.newCause_last false _
    · rw [hw', hx]
      exact hxh.trans hvh
    · rw [hw', hx]
      exact hxk.xpt.trans hvk.xpt
    · rw [hw', hx]
      exact hxk.media.trans hvk.media

end sources

end Sys2Proof.Machine

/-! Reset sources, the monitors, the host's pin and the twin's request (O52). -/
namespace Sys2Proof.Machine

section sources
variable {s : State}

/-- A relock of the control PLL is awaited. -/
def State.awaitRelock (s : State) : State := { s with rst := { s.rst with cclkFail := true } }

theorem exec_clockMonitorFail_control (s : State) : exec (.clockMonitorFail .control) s =
    .next (if (s.warmSource 7).rst.warmDue || (s.warmSource 7).rst.warmRun then (s.warmSource 7).awaitRelock else s.warmSource 7) := rfl

theorem clockMonitorFail_control {w : State} (hw : w = s.warmSource 7) :
    ((w.rst.warmDue = true ∨ w.rst.warmRun = true) → exec (.clockMonitorFail .control) s = .next { w with rst := { w.rst with cclkFail := true } }) ∧
    (w.rst.warmDue = false → w.rst.warmRun = false → exec (.clockMonitorFail .control) s = .next w) := by
  rw [exec_clockMonitorFail_control, ← hw]
  exact ⟨fun h => congrArg Host.Outcome.next (if_pos (by simpa using h)), fun h1 h2 => congrArg _ (if_neg (by simp [h1, h2]))⟩

theorem exec_cclkRelockTimeout (s : State) : exec .cclkRelockTimeout s = .next (if s.rst.cclkFail then s.coldSource 8 else s) := rfl

theorem exec_debugResetRequest (s : State) : exec .debugResetRequest s = .next (if s.get R.SEC_STAT F.SEC_STAT_DEBUG = 0 then s else s.warmSource 6) := rfl

theorem perstNRelease_none (h : s.host.perst = false) : exec .perstNRelease s = .next s := by
  have e : exec .perstNRelease s = execPerstNRelease s := rfl
  rw [e, execPerstNRelease, h]
  rfl

theorem monitorsAndRequests (s : State) : exec .watchdogExpiry s = .next (s.warmSource 4) ∧ exec .mcLockup s = .next (s.warmSource 8) ∧
    exec (.clockMonitorFail .xo) s = .next (s.coldSource 8) ∧ exec (.clockMonitorFail .dram) s = .next (s.coldSource 8) ∧
    (∀ w, w = s.warmSource 7 → ((w.rst.warmDue = true ∨ w.rst.warmRun = true) → exec (.clockMonitorFail .control) s = .next { w with rst := { w.rst with cclkFail := true } }) ∧
      (w.rst.warmDue = false → w.rst.warmRun = false → exec (.clockMonitorFail .control) s = .next w)) ∧
    (s.rst.cclkFail = true → exec .cclkRelockTimeout s = .next (s.coldSource 8)) ∧ (s.rst.cclkFail = false → exec .cclkRelockTimeout s = .next s) ∧
    (s.get R.SEC_STAT F.SEC_STAT_DEBUG = 0 → exec .debugResetRequest s = .next s) ∧
    (s.get R.SEC_STAT F.SEC_STAT_DEBUG ≠ 0 → exec .debugResetRequest s = .next (s.warmSource 6)) ∧
    exec .retentionVoltageLoss s = .next { s with rst := { s.rst with retMon := true } } ∧
    (s.host.perst = false → exec .perstNRelease s = .next s) := by
  rw [exec_cclkRelockTimeout, exec_debugResetRequest]
  exact ⟨rfl, rfl, rfl, rfl, fun w hw => clockMonitorFail_control hw, fun h => congrArg _ (if_pos h), fun h => congrArg _ (if_neg (by simp [h])),
    fun h => congrArg _ (if_pos h), fun h => congrArg _ (if_neg h), rfl, perstNRelease_none⟩

/-- The host's port runs again. -/
theorem perstNRelease_spec {a b c : State} (h : s.host.perst = true)
    (ha : a = { s with host := { s.host with perst := false, linkUp := s.host.linkUp || decide (3 ≤ s.phase) } })
    (hb : b = (if a.get (R.HSF_XSTAT 176) F.HSF_XSTAT_STATE = 1 then a.set (R.HSF_XSTAT 176) F.HSF_XSTAT_STATE 3 else a))
    (hc : c = (if b.pciAnswers then b.enumerate else b)) : exec .perstNRelease s = .next (c.portReset 13 false).mtxRest := by
  have e : exec .perstNRelease s = execPerstNRelease s := rfl
  rw [e, execPerstNRelease, h, if_neg (by decide)]
  dsimp only
  rw [← ha, ← hb, ← hc]

theorem State.enumerate_spec (s : State) : (s.host.perst = false → s.enumerate.host.pci.mse = true ∧ s.enumerate.regs = s.regs) ∧
    (s.host.perst = true → s.enumerate.host = s.host ∧ s.enumerate.get (R.HSF_XSTAT 176) F.HSF_XSTAT_STATE = 1 ∧ s.onlyRegs s.enumerate [R.HSF_XSTAT 176]) := by
  refine ⟨fun h => ?_, fun h => ?_⟩
  · rw [State.enumerate, h, if_neg (by decide)]
    exact ⟨rfl, rfl⟩
  · rw [State.enumerate, if_pos h]
    exact ⟨State.set_host .., State.get_set_fits _ _ _ (by decide) (by decide), State.set_onlyRegs _ _ _ (.head _)⟩

theorem softwareResetRequest_spec (s : State) (v : Nat) (hu : s.upFor R.RST_SWREQ) : (v % 2 = 0 → exec (.softwareResetRequest v) s = .next s) ∧
    (v % 2 = 1 → v / 2 ^ 24 % 256 = 0xD7 → exec (.softwareResetRequest v) s = .next (s.warmSource 5)) ∧
    (v % 2 = 1 → v / 2 ^ 24 % 256 ≠ 0xD7 → ∃ u, exec (.softwareResetRequest v) s = .next u ∧ u.get R.RST_HIST F.RST_HIST_SWREQ_ERR = 1 ∧ s.onlyRegs u [R.RST_HIST]) := by
  have e : exec (.softwareResetRequest v) s = .next (s.softwareResetRequest v) := congrArg _ (State.byHost_upFor hu _)
  rw [e, State.softwareResetRequest]
  refine ⟨fun h => congrArg _ (if_pos h), fun h k => ?_, fun h k => ⟨s.raise Hist.rst F.RST_HIST_SWREQ_ERR, ?_, State.get_raise _ Hist.rst _ rfl (by decide),
    State.raise_onlyRegs _ Hist.rst _ (.head _)⟩⟩
  · rw [if_neg (by omega), if_pos k]
  · rw [if_neg (by omega), if_neg k]

theorem remoteResetReceive_spec (s : State) : (s.role ≠ 0 → s.flag R.MATE_STAT F.MATE_STAT_LINK_UP = true → s.flag R.MATE_CTL F.MATE_CTL_RESET_ACCEPT = true →
      ∃ w, exec .remoteResetReceive s = .next (w.warmSource 9) ∧ w.get R.MATE_HIST F.MATE_HIST_REMOTE_RESET = 1 ∧ s.onlyRegs w [R.MATE_HIST]) ∧
    ((s.role = 0 ∨ s.flag R.MATE_STAT F.MATE_STAT_LINK_UP = false ∨ s.flag R.MATE_CTL F.MATE_CTL_RESET_ACCEPT = false) → exec .remoteResetReceive s = .next s) := by
  have e : exec .remoteResetReceive s = execRemoteResetReceive s := rfl
  rw [e, execRemoteResetReceive]
  refine ⟨fun h1 h2 h3 => ⟨s.raise Hist.mate F.MATE_HIST_REMOTE_RESET, congrArg _ (if_pos ⟨h1, h2, h3⟩), State.get_raise _ Hist.mate _ rfl (by decide),
    State.raise_onlyRegs _ Hist.mate _ (.head _)⟩, fun h => congrArg _ (if_neg ?_)⟩
  rintro ⟨h1, h2, h3⟩
  rcases h with h | h | h
  · exact h1 h
  · exact nomatch h2.symm.trans h
  · exact nomatch h3.symm.trans h

end sources

/-- Settles O52: what a cold reset keeps and the end of P0 are said once, and each source begins one or the other reset. -/
theorem resetSources : Obligations.ResetSources := by
  unfold Obligations.ResetSources
  refine ⟨fun s => ⟨fun h => congrArg _ (if_pos h), powerOn_spec⟩, fun s => ⟨fun h => ?_, fun h => congrArg _ (if_pos h),
    fun hr hc hd hw => ⟨brownOut_spec hr hc hd hw, pinReset_spec hr hc hd hw⟩⟩, fun s => p0_ends, fun s h => congrArg Host.Outcome.next (notInP0 h { s.rst with pinLow := false } rfl), fun s h ho hg => ?_,
    fun s => powerGoodReturn_none, fun s b h4 h9 hc hw hd => warmSource_spec h4 h9 hc hw hd, monitorsAndRequests,
    fun s a b c => perstNRelease_spec, State.enumerate_spec, softwareResetRequest_spec, remoteResetReceive_spec⟩
  · have e : exec .brownOut s = execBrownOut s := rfl
    rw [e, execBrownOut, if_neg (by simp [h])]
  · rw [exec_powerGoodReturn ho hg]
    exact congrArg _ (notInP0 h _ rfl)

end Sys2Proof.Machine

/-! Bring-up: the option load, recall and the boot images (O53). -/
namespace Sys2Proof.Machine

/-- The host's link in a state that keeps the host side. -/
theorem Kept.link {P : List Part} {s t : State} (h : Kept P s t) (hP : .host ∉ P) : t.host.perst = s.host.perst ∧ t.host.linkUp = s.host.linkUp := by
  have hs : { t.host with mem := s.host.mem, pba := s.host.pba, sent := s.host.sent } = s.host := h.2.2 .host hP
  exact ⟨by have := congrArg HostSt.perst hs; exact this, by have := congrArg HostSt.linkUp hs; exact this⟩

theorem State.setPhase_rd (s : State) (p : Nat) {a : Nat} (h : a ≠ R.RST_STAT) : (s.setPhase p).rd a = s.rd a := State.rd_set_ne _ _ _ h

theorem State.setPhase_get (s : State) (p : Nat) {a : Nat} (f : Bits) (h : a ≠ R.RST_STAT) : (s.setPhase p).get a f = s.get a f := State.get_set_ne _ _ _ _ h

theorem State.setPhase_apart (s : State) (p : Nat) (f : Bits) (h : F.RST_STAT_PHASE.apart f) : (s.setPhase p).get R.RST_STAT f = s.get R.RST_STAT f :=
  State.get_set_apart _ _ _ _ _ (by decide) h

theorem State.setPhase_onlyRegs (s : State) (p : Nat) : s.onlyRegs (s.setPhase p) [R.RST_STAT] := State.set_onlyRegs _ _ _ (.head _)

/-! ### P1 -/

section options
variable (s : State) (o : OptSet)

/-- Personality and LV window as the option set gives them. -/
def State.optWindow : State :=
  let s := (s.set R.LVP_STAT F.LVP_STAT_PERSONA (personaOf o)).setB R.LVP_STAT F.LVP_STAT_FUSED o.personaSet
  ((s.set R.LVP_WIN F.LVP_WIN_RX_BASE (min 40 (o.winFuse % 128))).set R.LVP_WIN F.LVP_WIN_TX_BASE (min 40 (o.winFuse / 256 % 128))).set
    R.LVP_WIN F.LVP_WIN_AES_Q (o.winFuse / 65536 % 4)

/-- Grade, device identity and reference settings as the option set gives them. -/
def State.optDevice (g : Nat) : State :=
  let s := (s.set R.GLB_GRADE F.GLB_GRADE_GRADE g).wr2 R.SEC_DEVID_LO R.SEC_DEVID_HI o.devId
  (s.setB R.REF_CTL F.REF_CTL_XO_20M o.xo20).wr R.REF_HOLD_UNC (if o.xo20 then 0x138803E8 else 0x00640014)

/-- The window in force and the option set loaded. -/
def State.optLoaded : State :=
  { s with
    lv := { s.lv with rxBase := min 40 (o.winFuse % 128), txBase := min 40 (o.winFuse / 256 % 128), aesQ := o.winFuse / 65536 % 4 }
    rst := { s.rst with opt := some o, loaded := true } }

theorem State.optLoaded_get (a : Nat) (f : Bits) : (s.optLoaded o).get a f = s.get a f := rfl

theorem State.optLoaded_rd (a : Nat) : (s.optLoaded o).rd a = s.rd a := rfl

theorem State.optWindow_onlyRegs : s.onlyRegs (s.optWindow o) [R.LVP_STAT, R.LVP_WIN] :=
  have h1 {r t : State} (f : Bits) (v : Nat) (h : r.onlyRegs t [R.LVP_STAT, R.LVP_WIN]) : r.onlyRegs (t.set R.LVP_STAT f v) [R.LVP_STAT, R.LVP_WIN] :=
    h.trans (State.set_onlyRegs _ _ _ (.head _))
  have h2 {r t : State} (f : Bits) (v : Nat) (h : r.onlyRegs t [R.LVP_STAT, R.LVP_WIN]) : r.onlyRegs (t.set R.LVP_WIN f v) [R.LVP_STAT, R.LVP_WIN] :=
    h.trans (State.set_onlyRegs _ _ _ (.tail _ (.head _)))
  h2 _ _ (h2 _ _ (h2 _ _ (h1 _ _ (h1 _ _ (.refl _ _)))))

theorem personaOf_lt : personaOf o < 4 := by
  rw [personaOf]
  have h (v : Nat) : (if v % 4 = 3 then 0 else v % 4) < 4 := by split <;> omega
  exact h _

theorem State.optWindow_persona : (s.optWindow o).persona = personaOf o := by
  rw [State.persona, State.optWindow]
  rw [State.get_set_ne _ _ _ _ (by decide), State.get_set_ne _ _ _ _ (by decide), State.get_set_ne _ _ _ _ (by decide),
    State.get_setB_apart _ _ _ _ (by decide) (by decide)]
  exact State.get_set_fits _ _ _ (by decide) (personaOf_lt o)

/-- The registers `optDevice` writes. -/
def deviceRegs : List Nat := [R.GLB_GRADE, R.SEC_DEVID_LO, R.SEC_DEVID_HI, R.REF_CTL, R.REF_HOLD_UNC]

variable (g : Nat)

theorem State.optDevice_onlyRegs : s.onlyRegs (s.optDevice o g) deviceRegs :=
  have h1 : R.GLB_GRADE ∈ deviceRegs := by decide
  have h2 : R.SEC_DEVID_LO ∈ deviceRegs := by decide
  have h3 : R.SEC_DEVID_HI ∈ deviceRegs := by decide
  have h4 : R.REF_CTL ∈ deviceRegs := by decide
  have h5 : R.REF_HOLD_UNC ∈ deviceRegs := by decide
  .trans (.trans (.trans (.trans (State.set_onlyRegs _ _ _ h1) (State.wr_onlyRegs _ _ h2)) (State.wr_onlyRegs _ _ h3)) (State.setB_onlyRegs _ _ _ h4))
    (State.wr_onlyRegs _ _ h5)

theorem State.optDevice_grade (hg : g < 256) : (s.optDevice o g).get R.GLB_GRADE F.GLB_GRADE_GRADE = g := by
  rw [State.optDevice]
  rw [State.get, State.rd_wr_ne _ _ (by decide), State.rd_setB_ne _ _ _ (by decide), State.wr2, State.rd_wr_ne _ _ (by decide), State.rd_wr_ne _ _ (by decide)]
  exact State.get_set_fits _ _ _ (by decide) hg

theorem State.optDevice_xo : (s.optDevice o g).flag R.REF_CTL F.REF_CTL_XO_20M = o.xo20 := by
  have h (t : State) (v : Word) : (t.wr R.REF_HOLD_UNC v).flag R.REF_CTL F.REF_CTL_XO_20M = t.flag R.REF_CTL F.REF_CTL_XO_20M := by
    rw [State.flag, State.get, State.rd_wr_ne _ _ (by decide)]
    rfl
  rw [State.optDevice]
  rw [h]
  exact State.flag_setB_self _ _ _ _ (by decide) rfl

theorem State.optDevice_unc : (s.optDevice o g).rd R.REF_HOLD_UNC = if o.xo20 then 0x138803E8 else 0x00640014 := State.rd_wr_self ..

theorem State.gradeFuse_lt : s.gradeFuse o < 256 := by
  rw [State.gradeFuse]
  split
  · omega
  · split <;> omega

end options

section phases
variable {s : State}

theorem optionLoad_none (r : Option OptSet) (h : s.rst.cold = false ∨ s.phase ≠ 1) : exec (.optionLoad r) s = .next s :=
  congrArg Host.Outcome.next (if_pos (by rcases h with h | h <;> simp [h]))

theorem exec_optionLoad_fails (hc : s.rst.cold = true) (hp : s.phase = 1) : exec (.optionLoad none) s = .next s.restartP1 :=
  congrArg Host.Outcome.next (if_neg (by simp [hc, hp]))

theorem exec_optionLoad_loads (o : OptSet) (hc : s.rst.cold = true) (hp : s.phase = 1) : exec (.optionLoad (some o)) s =
    .next ((((s.optWindow o).optDevice o ((s.optWindow o).gradeFuse o)).optLoaded o).setPhase 2) :=
  congrArg Host.Outcome.next (if_neg (by simp [hc, hp]))

theorem optionLoad_fails (hc : s.rst.cold = true) (hp : s.phase = 1) : ∃ u, exec (.optionLoad none) s = .next u ∧ u.phase = 1 ∧
    u.get R.RST_HIST F.RST_HIST_OPTLOAD_RESTART = 1 ∧
    (u.rd R.RST_OPTLOAD_RESTARTS).toNat = min 0xFFFFFFFF ((s.rd R.RST_OPTLOAD_RESTARTS).toNat + 1) := by
  refine ⟨s.restartP1, exec_optionLoad_fails hc hp, ?_, State.get_raise _ Hist.rst _ rfl (by decide), ?_⟩
  · rw [State.phase, State.restartP1, State.get_raise_ne _ Hist.rst _ _ (by decide), State.get, State.rd_inc_ne _ (by decide)]
    exact hp
  · rw [State.restartP1, State.rd_raise_ne _ Hist.rst _ (by decide), State.rd_inc]

theorem optionLoad_loads (o : OptSet) (hc : s.rst.cold = true) (hp : s.phase = 1) : ∃ u, exec (.optionLoad (some o)) s = .next u ∧ u.phase = 2 ∧
    u.persona = personaOf o ∧ u.lv.rxBase = min 40 (o.winFuse % 128) ∧
    u.lv.txBase = min 40 (o.winFuse / 256 % 128) ∧ u.lv.aesQ = o.winFuse / 65536 % 4 ∧ u.rst.opt = some o ∧
    u.get R.GLB_GRADE F.GLB_GRADE_GRADE = (if s.get R.GLB_GRADE F.GLB_GRADE_GRADE = 0x43 ∨ s.get R.GLB_GRADE F.GLB_GRADE_GRADE = 0x45 then s.get R.GLB_GRADE F.GLB_GRADE_GRADE
      else if o.gradeE then 0x45 else 0x43) ∧ u.flag R.REF_CTL F.REF_CTL_XO_20M = o.xo20 ∧ u.rd R.REF_HOLD_UNC = (if o.xo20 then 0x138803E8 else 0x00640014) := by
  obtain ⟨w, hw⟩ : ∃ w, w = s.optWindow o := ⟨_, rfl⟩
  have hgrade : w.get R.GLB_GRADE F.GLB_GRADE_GRADE = s.get R.GLB_GRADE F.GLB_GRADE_GRADE := by
    rw [hw]
    exact (s.optWindow_onlyRegs o).get (by decide) _
  have hpersona : w.persona = personaOf o := by rw [hw, State.optWindow_persona]
  obtain ⟨d, hd⟩ : ∃ d, d = w.optDevice o (w.gradeFuse o) := ⟨_, rfl⟩
  obtain ⟨x, hx⟩ : ∃ x, x = d.optLoaded o := ⟨_, rfl⟩
  have hget {a : Nat} (ha : a ≠ R.RST_STAT) (f : Bits) : (x.setPhase 2).get a f = d.get a f := by rw [State.setPhase_get _ _ _ ha, hx, State.optLoaded_get]
  have hlv : (x.setPhase 2).lv = x.lv := (x.setPhase_onlyRegs 2).lv
  have hrst : (x.setPhase 2).rst = x.rst := (x.setPhase_onlyRegs 2).rst
  have hflag : (x.setPhase 2).flag R.REF_CTL F.REF_CTL_XO_20M = d.flag R.REF_CTL F.REF_CTL_XO_20M := by rw [State.flag, State.flag, hget (by decide)]
  refine ⟨x.setPhase 2, by rw [exec_optionLoad_loads _ hc hp, ← hw, ← hd, ← hx], x.phase_setPhase (by decide), ?_, by rw [hlv, hx]; rfl, by rw [hlv, hx]; rfl,
    by rw [hlv, hx]; rfl, by rw [hrst, hx]; rfl, ?_, by rw [hflag, hd, State.optDevice_xo], ?_⟩
  · rw [State.persona, hget (by decide), hd, (w.optDevice_onlyRegs o _).get (by decide)]
    exact hpersona
  · rw [hget (by decide), hd, State.optDevice_grade _ _ _ (w.gradeFuse_lt o), State.gradeFuse, hgrade]
  · rw [State.setPhase_rd _ _ (by decide), hx, State.optLoaded_rd, hd, State.optDevice_unc]

/-! ### P2 -/

theorem recallRecords_none (bad : List (Nat × Bool)) (h : s.rst.cold = false ∨ s.phase ≠ 2) : exec (.recallRecords bad) s = .next s := by
  have e : exec (.recallRecords bad) s = execRecallRecords bad s := rfl
  rw [e, execRecallRecords]
  exact congrArg _ (if_pos (by rcases h with h | h <;> simp [h]))

/-- The records recalled, before the working SRAM is valid. -/
def State.recalled (s : State) (bad : List (Nat × Bool)) : State :=
  let s := bad.foldl (fun (s : State) b => s.spoil b.1 (if b.2 then 1 else 0)) (s.retention.inc R.RST_COLD_CNT)
  (((List.range 81).foldl State.recallRec s).recallKey 0).recallKey 1

theorem State.recalled_host (s : State) (bad : List (Nat × Bool)) : (s.recalled bad).host.perst = s.host.perst := by
  have h : Kept [.regs, .vec, .ref, .sec, .flt, .axl, .rst, .mtx] s (s.recalled bad) := by
    rw [State.recalled]
    refine State.recallKey_kept (State.recallKey_kept (Kept.foldl (Kept.foldl (State.count_kept (State.retention_kept (.refl _ s)
      (Sub.of (Sub.self _) rfl)) _ _ (Sub.of (Sub.self _) rfl)) fun _ _ hk => ?_) fun _ _ hk => ?_) _ (Sub.of (Sub.self _) rfl)) _ (Sub.of (Sub.self _) rfl)
    · exact State.spoil_kept hk _ _ (Sub.of (Sub.self _) rfl)
    · exact State.recallRec_kept hk _ (Sub.of (Sub.self _) rfl)
  exact (h.link (by decide)).1

/-- The link trains unless the island is in reset. -/
def State.linkTrains (s : State) : State := { s with host := { s.host with linkUp := !s.host.perst } }

theorem State.newNonce_get (s : State) {a : Nat} (ha : a ∉ (List.range 8).map R.SEC_LC_NONCE) (f : Bits) : s.newNonce.get a f = s.get a f := by
  have h (t : State) (g : Nat → Word) : t.onlyRegs ((List.range 8).foldl (fun (s : State) w => s.wr (R.SEC_LC_NONCE w) (g w)) t) ((List.range 8).map R.SEC_LC_NONCE) :=
    .foldl _ fun _ hw _ => State.wr_onlyRegs _ _ (List.mem_map_of_mem hw)
  rw [State.newNonce]
  exact (h _ _).get ha f

theorem recallRecords_recalls (bad : List (Nat × Bool)) (hc : s.rst.cold = true) (hp : s.phase = 2) : ∃ u, exec (.recallRecords bad) s = .next u ∧
    u.phase = 3 ∧ u.host.linkUp = !s.host.perst ∧ u.get R.AXL_STAT F.AXL_STAT_SRAM_VALID = 1 := by
  have e : exec (.recallRecords bad) s = execRecallRecords bad s := rfl
  obtain ⟨w, hw⟩ : ∃ w, w = s.recalled bad := ⟨_, rfl⟩
  obtain ⟨v, hv⟩ : ∃ v, v = (w.set R.AXL_STAT F.AXL_STAT_SRAM_VALID 1).set R.AXL_STAT F.AXL_STAT_STATE
    (if w.lifecycle = 4 then 5 else 0) := ⟨_, rfl⟩
  have hx : exec (.recallRecords bad) s = .next (v.linkTrains.newNonce.setPhase 3) := by
    rw [e, execRecallRecords]
    refine congrArg _ ((if_neg (by simp [hc, hp])).trans ?_)
    rw [hv, hw, State.recalled, State.linkTrains]
  have hnk : Kept [.regs, .free] v.linkTrains v.linkTrains.newNonce := State.newNonce_kept (.refl _ _) (Sub.self _)
  refine ⟨v.linkTrains.newNonce.setPhase 3, hx, State.phase_setPhase _ (by decide), ?_, ?_⟩
  · rw [State.setPhase, State.set_host]
    have h1 : v.linkTrains.newNonce.host.linkUp = v.linkTrains.host.linkUp := (hnk.link (by decide)).2
    have h2 : v.host.perst = w.host.perst := by rw [hv, State.set_host, State.set_host]
    have h3 : v.linkTrains.host.linkUp = !v.host.perst := rfl
    rw [h1, h3, h2, hw, State.recalled_host]
  · have hd : v.linkTrains.newNonce.get R.AXL_STAT F.AXL_STAT_SRAM_VALID = v.get R.AXL_STAT F.AXL_STAT_SRAM_VALID := State.newNonce_get _ (by decide) _
    rw [State.setPhase_get _ _ _ (by decide), hd, hv, State.get_set_apart _ _ _ _ _ (by decide) (by decide)]
    exact State.get_set_fits _ _ _ (by decide) (by decide)

end phases

end Sys2Proof.Machine

/-! Bring-up: the boot images and the control plane (O53). -/
namespace Sys2Proof.Machine

/-! ### P3 -/

section boot
variable (s : State) (n : Nat) (i : Img) (fb : Bool)

/-- The status of a boot of image `n`. -/
def State.bootStat : State :=
  let s := (s.set R.RST_STAT F.RST_STAT_IMAGE (n + 1)).setB R.RST_STAT F.RST_STAT_FALLBACK fb
  if fb then s.raise Hist.rst F.RST_HIST_BOOT_FALLBACK else s

/-- The boot record and the firmware registers after a boot of image `n`. -/
def State.bootRec : State :=
  ((s.set R.RST_BOOT_REC F.RST_BOOT_REC_LAST n).set R.SEC_FW F.SEC_FW_SVN i.svn).wr R.SEC_FW_VER (BitVec.ofNat 32 i.version)

/-- Image `i` runs. -/
def State.bootRst (trial : Bool) : State :=
  { s with rst := { s.rst with trialRun := trial, revoke0 := i.revoke0 && i.slot == 1, imgBad := false, image := some i } }

theorem State.bootRst_get (trial : Bool) (a : Nat) (f : Bits) : (s.bootRst i trial).get a f = s.get a f := rfl

theorem State.bootImg_eq : ∃ trial, s.bootImg n i fb = (((s.bootStat n fb).bootRec n i).bootRst i trial).setPhase 4 := ⟨_, rfl⟩

theorem State.bootRec_onlyRegs : s.onlyRegs (s.bootRec n i) [R.RST_BOOT_REC, R.SEC_FW, R.SEC_FW_VER] :=
  .trans (.trans (State.set_onlyRegs _ _ _ (.head _)) (State.set_onlyRegs _ _ _ (.tail _ (.head _)))) (State.wr_onlyRegs _ _ (.tail _ (.tail _ (.head _))))

theorem State.bootStat_image (h : n < 3) : (s.bootStat n fb).get R.RST_STAT F.RST_STAT_IMAGE = n + 1 := by
  have hi : ((s.set R.RST_STAT F.RST_STAT_IMAGE (n + 1)).setB R.RST_STAT F.RST_STAT_FALLBACK fb).get R.RST_STAT F.RST_STAT_IMAGE = n + 1 := by
    rw [State.get_setB_apart _ _ _ _ (by decide) (by decide)]
    exact State.get_set_fits _ _ _ (by decide) (show n + 1 < 4 by omega)
  rw [State.bootStat]
  split
  · rw [State.get_raise_ne _ Hist.rst _ _ (by decide), hi]
  · exact hi

theorem State.bootStat_fallback : (s.bootStat n fb).get R.RST_STAT F.RST_STAT_FALLBACK = if fb then 1 else 0 := by
  rw [State.bootStat]
  split
  · rw [State.get_raise_ne _ Hist.rst _ _ (by decide), State.get_setB_self _ _ _ (by decide) rfl]
    simp_all
  · rw [State.get_setB_self _ _ _ (by decide) rfl]
    simp_all

theorem State.bootImg_spec (h : n < 2) : (s.bootImg n i fb).phase = 4 ∧ (s.bootImg n i fb).get R.RST_STAT F.RST_STAT_IMAGE = n + 1 ∧
    (s.bootImg n i fb).get R.RST_STAT F.RST_STAT_FALLBACK = (if fb then 1 else 0) ∧ (s.bootImg n i fb).get R.RST_BOOT_REC F.RST_BOOT_REC_LAST = n ∧
    (fb = true → (s.bootImg n i fb).get R.RST_HIST F.RST_HIST_BOOT_FALLBACK = 1) := by
  obtain ⟨trial, he⟩ := s.bootImg_eq n i fb
  have hk := (s.bootStat n fb).bootRec_onlyRegs n i
  rw [he]
  refine ⟨State.phase_setPhase _ (by decide), ?_, ?_, ?_, fun hf => ?_⟩
  · rw [State.setPhase_apart _ _ _ (by decide), State.bootRst_get, hk.get (by decide), State.bootStat_image _ _ _ (by omega)]
  · rw [State.setPhase_apart _ _ _ (by decide), State.bootRst_get, hk.get (by decide), State.bootStat_fallback]
  · rw [State.setPhase_get _ _ _ (by decide), State.bootRst_get, State.bootRec, State.get, State.rd_wr_ne _ _ (by decide), State.rd_set_ne _ _ _ (by decide)]
    exact State.get_set_fits _ _ _ (by decide) h
  · rw [State.setPhase_get _ _ _ (by decide), State.bootRst_get, hk.get (by decide), State.bootStat, if_pos hf]
    exact State.get_raise _ Hist.rst _ rfl (by decide)

end boot

section verify
variable {s : State} {a b : Img}

/-- The image that number `n` names. -/
def imgOf (a b : Img) (n : Nat) : Img := if n = 0 then a else b

theorem bootImageVerify_none (h : s.phase ≠ 3 ∨ s.flag R.RST_STAT F.RST_STAT_BOOT_FAIL = true ∨ (s.rst.cold = false ∧ s.rst.warmRun = false)) :
    exec (.bootImageVerify a b) s = .next s :=
  congrArg Host.Outcome.next (if_pos (by rcases h with h | h | h <;> simp [h]))

/-- No image passed: P3 stays, and after a cold reset the island alone enumerates. -/
def State.bootFailed (s : State) : State :=
  let s := s.set R.RST_STAT F.RST_STAT_BOOT_FAIL 1
  if s.rst.cold then s.enumerate else s

/-- The second image is tried. -/
def State.tryOther (s : State) (a b : Img) (p : Nat) : State :=
  let s := s.rollback (imgOf a b (1 - p))
  if s.imgOk (imgOf a b (1 - p)) then s.bootImg (1 - p) (imgOf a b (1 - p)) true else s.bootFailed

theorem State.rollback_onlyRegs (s : State) (i : Img) : s.onlyRegs (s.rollback i) [R.SEC_HIST] :=
  .ite (fun _ => State.raise_onlyRegs _ Hist.sec _ (.head _)) fun _ => .refl _ _

theorem State.imgOk_rollback (s : State) (i j : Img) : (s.rollback i).imgOk j = s.imgOk j := by
  have h := s.rollback_onlyRegs i
  rw [State.imgOk, State.imgOk, State.imgKey, State.imgKey, State.imgSvn, State.imgSvn, h.sec, h.get (by decide)]

variable (h : s.rst.cold = true ∨ s.rst.warmRun = true) (hp : s.phase = 3) (hf : s.flag R.RST_STAT F.RST_STAT_BOOT_FAIL = false)
  (ht : s.rst.trialRun = false) (hc : s.causes / 2 ^ 10 % 2 = 0)
include h hp hf ht hc

theorem exec_bootImageVerify {p : Nat} (hpref : p = s.get R.RST_BOOT_REC F.RST_BOOT_REC_PREF) : exec (.bootImageVerify a b) s = .next
    (if (s.rollback (imgOf a b p)).imgOk (imgOf a b p) && !(s.rollback (imgOf a b p)).rst.imgBad then (s.rollback (imgOf a b p)).bootImg p (imgOf a b p) false
      else (s.rollback (imgOf a b p)).tryOther a b p) := by
  have e : exec (.bootImageVerify a b) s = execBootImageVerify a b s := rfl
  rw [e, execBootImageVerify]
  refine congrArg _ ((if_neg (by rcases h with h | h <;> simp [h, hp, hf])).trans ?_)
  dsimp only
  rw [ht, if_neg Bool.false_ne_true, hc, if_neg (show ¬ 0 = 1 by decide), ← hpref]
  rfl

theorem bootImageVerify_preferred {p : Nat} (hpref : p = s.get R.RST_BOOT_REC F.RST_BOOT_REC_PREF) (hok : s.imgOk (imgOf a b p) = true)
    (hbad : s.rst.imgBad = false) : ∃ u, exec (.bootImageVerify a b) s = .next u ∧ u.phase = 4 ∧ u.get R.RST_STAT F.RST_STAT_IMAGE = p + 1 ∧
        u.get R.RST_STAT F.RST_STAT_FALLBACK = 0 ∧ u.get R.RST_BOOT_REC F.RST_BOOT_REC_LAST = p := by
  have hp2 : p < 2 := hpref ▸ State.get_lt s _ _
  obtain ⟨h1, h2, h3, h4, -⟩ := (s.rollback (imgOf a b p)).bootImg_spec p (imgOf a b p) false hp2
  refine ⟨_, ?_, h1, h2, h3, h4⟩
  rw [exec_bootImageVerify h hp hf ht hc hpref, State.imgOk_rollback, hok, (s.rollback_onlyRegs _).rst, hbad]
  exact congrArg _ (if_pos (by decide))

theorem exec_bootImageVerify_other {p : Nat} (hpref : p = s.get R.RST_BOOT_REC F.RST_BOOT_REC_PREF) (hok : s.imgOk (imgOf a b p) = false) :
    exec (.bootImageVerify a b) s = .next ((s.rollback (imgOf a b p)).tryOther a b p) := by
  rw [exec_bootImageVerify h hp hf ht hc hpref, State.imgOk_rollback, hok]
  exact congrArg _ (if_neg (by rw [Bool.false_and]; decide))

theorem bootImageVerify_other {p : Nat} (hpref : p = s.get R.RST_BOOT_REC F.RST_BOOT_REC_PREF) (hok : s.imgOk (imgOf a b p) = false)
    (hok2 : s.imgOk (imgOf a b (1 - p)) = true) : ∃ u, exec (.bootImageVerify a b) s = .next u ∧ u.phase = 4 ∧ u.get R.RST_STAT F.RST_STAT_IMAGE = 2 - p ∧
        u.get R.RST_STAT F.RST_STAT_FALLBACK = 1 ∧ u.get R.RST_HIST F.RST_HIST_BOOT_FALLBACK = 1 := by
  have hp2 : p < 2 := hpref ▸ State.get_lt s _ _
  obtain ⟨w, hw⟩ : ∃ w, w = (s.rollback (imgOf a b p)).rollback (imgOf a b (1 - p)) := ⟨_, rfl⟩
  obtain ⟨h1, h2, h3, -, h5⟩ := w.bootImg_spec (1 - p) (imgOf a b (1 - p)) true (by omega)
  refine ⟨_, ?_, h1, h2.trans (by omega), h3, h5 rfl⟩
  rw [exec_bootImageVerify_other h hp hf ht hc hpref hok, State.tryOther, hw]
  exact congrArg Host.Outcome.next (if_pos (by rw [State.imgOk_rollback, State.imgOk_rollback, hok2]))

theorem bootImageVerify_fails {p : Nat} (hpref : p = s.get R.RST_BOOT_REC F.RST_BOOT_REC_PREF) (hok : s.imgOk (imgOf a b p) = false)
    (hok2 : s.imgOk (imgOf a b (1 - p)) = false) : ∃ u, exec (.bootImageVerify a b) s = .next u ∧ u.phase = 3 ∧ u.get R.RST_STAT F.RST_STAT_BOOT_FAIL = 1 ∧
        (s.rst.cold = true → s.host.perst = false → u.host.pci.mse = true) := by
  obtain ⟨w, hw⟩ : ∃ w, w = (s.rollback (imgOf a b p)).rollback (imgOf a b (1 - p)) := ⟨_, rfl⟩
  have hwk : s.onlyRegs w [R.SEC_HIST] := hw ▸ (s.rollback_onlyRegs _).trans (State.rollback_onlyRegs _ _)
  obtain ⟨v, hv⟩ : ∃ v, v = w.set R.RST_STAT F.RST_STAT_BOOT_FAIL 1 := ⟨_, rfl⟩
  have hvk : w.onlyRegs v [R.RST_STAT] := hv ▸ State.set_onlyRegs _ _ _ (.head _)
  have hphase : v.phase = 3 := by
    rw [State.phase, hv, State.get_set_apart _ _ _ _ _ (by decide) (by decide), hwk.get (by decide)]
    exact hp
  have hfail : v.get R.RST_STAT F.RST_STAT_BOOT_FAIL = 1 := by
    rw [hv]
    exact State.get_set_fits _ _ _ (by decide) (by decide)
  have hperst : v.host.perst = s.host.perst := by rw [hvk.host_eq, hwk.host_eq]
  have hx : exec (.bootImageVerify a b) s = .next (if v.rst.cold then v.enumerate else v) := by
    rw [exec_bootImageVerify_other h hp hf ht hc hpref hok, State.tryOther, hv, hw]
    exact congrArg Host.Outcome.next (if_neg (by rw [State.imgOk_rollback, State.imgOk_rollback, hok2]; decide))
  have he (a : Nat) (ha : a ≠ R.HSF_XSTAT 176) (f : Bits) : v.enumerate.get a f = v.get a f := by
    rw [State.enumerate]
    split
    · exact State.get_set_ne _ _ _ _ ha
    · rfl
  refine ⟨_, hx, ?_, ?_, fun hcold hno => ?_⟩
  · split
    · exact (he _ (by decide) _).trans hphase
    · exact hphase
  · split
    · exact (he _ (by decide) _).trans hfail
    · exact hfail
  · rw [if_pos (by rw [hvk.rst, hwk.rst]; exact hcold)]
    exact (v.enumerate_spec.1 (hperst.trans hno)).1

end verify

/-! ### P4 -/

section control
variable {s : State} {t : Nat}

theorem controlPlaneUp_none (h : s.phase ≠ 4) : exec (.controlPlaneUp t) s = .next s := congrArg Host.Outcome.next (if_pos (by simpa using h))

theorem controlPlaneUp_warm (h : s.phase = 4) (hc : s.rst.cold = false) (hw : s.rst.warmRun = true) :
    exec (.controlPlaneUp t) s = .next ((s.at_ t).setPhase 5).warmUp := by
  have e : exec (.controlPlaneUp t) s = execControlPlaneUp t s := rfl
  rw [e, execControlPlaneUp, if_neg (by simp [h])]
  have hc' : (s.at_ t).rst.cold = false := hc
  have hw' : (s.at_ t).rst.warmRun = true := hw
  dsimp only
  rw [hc', hw']
  rfl

theorem controlPlaneUp_cold (h : s.phase = 4) (hc : s.rst.cold = true) : exec (.controlPlaneUp t) s = .next (((s.at_ t).coldUp t).setPhase 5) := by
  have e : exec (.controlPlaneUp t) s = execControlPlaneUp t s := rfl
  rw [e, execControlPlaneUp, if_neg (by simp [h])]
  exact congrArg Host.Outcome.next (if_pos hc)

/-- A cold reset is over, and firmware has configured the balls. -/
def State.coldOver (s : State) : State := { s with rst := { s.rst with cold := false, pads := true } }

/-- The state with LV agent `x`. -/
def State.putLv (s : State) (x : LvSt) : State := { s with lv := x }

/-- A state that keeps reset control and the host side. -/
theorem Kept.rstHost {P : List Part} {s t : State} (h : Kept P s t) (hr : .rst ∉ P) (hh : .host ∉ P) :
    t.rst = s.rst ∧ t.host.pci = s.host.pci ∧ t.host.perst = s.host.perst :=
  ⟨h.2.2 .rst hr, (h.hostSame hh).pci, (h.link hh).1⟩

theorem State.coldUp_spec (s : State) (t : Nat) : (s.coldUp t).rst.cold = false ∧ (s.coldUp t).rst.pads = true ∧
    (s.host.perst = false → (s.coldUp t).host.pci.mse = true) := by
  obtain ⟨n, hn⟩ : ∃ n, n = s.p4Voltage.narrow := ⟨_, rfl⟩
  have hnk : Kept [.regs] s n := hn ▸ State.narrow_kept (State.p4Voltage_kept (.refl _ s) (Sub.self _)) (Sub.self _)
  obtain ⟨c, hc⟩ : ∃ c, c = n.enumerate.coldOver := ⟨_, rfl⟩
  have hcr : c.rst.cold = false ∧ c.rst.pads = true := by rw [hc]; exact ⟨rfl, rfl⟩
  have hcm (h : s.host.perst = false) : c.host.pci.mse = true := by
    rw [hc]
    exact (n.enumerate_spec.1 ((hnk.link (by decide)).1.trans h)).1
  obtain ⟨l, hl⟩ : ∃ l, l = c.logWith (c.rd R.RST_CAUSE).toNat 8 0 0 (if c.sec.logGap then (Config.secCode 5).toNat else 0) 0 0 c.rfnNow 0xFF := ⟨_, rfl⟩
  have hlk : Kept [.regs, .vec, .hostMem, .sec, .axl] c l.endRma :=
    State.endRma_kept (hl ▸ State.logWith_kept (.refl _ c) _ _ _ _ _ _ _ _ _ (Sub.of (Sub.self _) rfl)) (Sub.self _)
  obtain ⟨hr, hpci, -⟩ := hlk.rstHost (by decide) (by decide)
  obtain ⟨x, hx⟩ : ∃ x, x = l.endRma.putLv { l.lv with answers := l.lvOn } := ⟨_, rfl⟩
  have hb : s.coldUp t = if x.lifecycle = 4 then x else x.lvHold t := by
    rw [State.coldUp, hx, hl, hc, hn, State.coldOver, State.putLv]
  have hxr : x.rst = c.rst ∧ x.host.pci = c.host.pci := by rw [hx]; exact ⟨hr, hpci⟩
  have hk : (s.coldUp t).rst = x.rst ∧ (s.coldUp t).host.pci = x.host.pci := by
    rw [hb]
    split
    · exact ⟨rfl, rfl⟩
    · obtain ⟨h1, h2, -⟩ := (State.lvHold_kept (.refl [.regs, .media, .aud, .vec] x) t (Sub.self _)).rstHost (by decide) (by decide)
      exact ⟨h1, h2⟩
  rw [hk.1, hk.2, hxr.1, hxr.2]
  exact ⟨hcr.1, hcr.2, hcm⟩

theorem controlPlaneUp_spec (h : s.phase = 4) (hc : s.rst.cold = true) : ∃ u, exec (.controlPlaneUp t) s = .next u ∧
    u = ((s.at_ t).coldUp t).setPhase 5 ∧ u.phase = 5 ∧ u.rst.cold = false ∧ u.rst.pads = true ∧ (s.host.perst = false → u.host.pci.mse = true) := by
  obtain ⟨h1, h2, h3⟩ := (s.at_ t).coldUp_spec t
  have hk := ((s.at_ t).coldUp t).setPhase_onlyRegs 5
  refine ⟨_, controlPlaneUp_cold h hc, rfl, State.phase_setPhase _ (by decide), by rw [hk.rst]; exact h1, by rw [hk.rst]; exact h2, fun hp => ?_⟩
  rw [State.setPhase, State.set_host]
  exact h3 hp

end control

end Sys2Proof.Machine

/-! The start of the data plane, and the warm reset (O53). -/
namespace Sys2Proof.Machine

/-! ### P5 -/

theorem State.roomRec_rd {s w : State} (h : s.roomRec = some w) {a : Nat} (h1 : a ≠ R.FLT_HIST) (h2 : a ≠ R.FLT_MERGED_CNT) : w.rd a = s.rd a := by
  rw [State.roomRec] at h
  by_cases hl : s.flt.recs.length < 64
  · rw [if_pos hl] at h
    rw [← Option.some.inj h]
  · rw [if_neg hl] at h
    dsimp only at h
    cases hr : ((s.raise Hist.flt F.FLT_HIST_FLT_QUEUE_OVF).oldestRec 2).or ((s.raise Hist.flt F.FLT_HIST_FLT_QUEUE_OVF).oldestRec 4) with
    | none => rw [hr] at h; exact nomatch h
    | some r =>
      rw [hr] at h
      rw [← Option.some.inj h, State.rd_inc_ne _ h2]
      exact State.rd_raise_ne _ Hist.flt _ h1

theorem State.makeRec_rd (s : State) (u src st : Nat) {a : Nat} (h1 : a ≠ R.FLT_HIST) : (s.makeRec u src st).rd a = s.rd a := by
  rw [State.makeRec]
  exact State.rd_raise_ne _ Hist.flt _ h1

theorem State.queueRec_rd (s : State) (u src : Nat) {a : Nat} (h1 : a ≠ R.FLT_HIST) (h2 : a ≠ R.FLT_MERGED_CNT) : (s.queueRec u src).rd a = s.rd a := by
  rw [State.queueRec]
  cases h : s.roomRec with
  | some w =>
    dsimp only
    rw [State.makeRec_rd _ _ _ _ h1, State.roomRec_rd h h1 h2]
  | none => exact State.rd_raise_ne _ Hist.flt _ h1

/-- What bring-up found is queued as fault records. -/
def State.queueFound (s : State) : State := s.flt.logged.foldl (fun (s : State) u => s.queueRec u 0x0E) s

theorem State.queueFound_kept (s : State) : Kept [.regs, .vec, .flt] s s.queueFound :=
  Kept.foldl (.refl _ s) fun _ _ hk => State.queueRec_kept hk _ _ (Sub.self _)

theorem State.queueFound_rd (s : State) {a : Nat} (h1 : a ≠ R.FLT_HIST) (h2 : a ≠ R.FLT_MERGED_CNT) : s.queueFound.rd a = s.rd a := by
  have h (l : List Nat) (s : State) : (l.foldl (fun (s : State) u => s.queueRec u 0x0E) s).rd a = s.rd a := by
    induction l generalizing s with
    | nil => rfl
    | cons u l ih => rw [List.foldl_cons, ih, State.queueRec_rd _ _ _ h1 h2]
  exact h s.flt.logged s

/-- The data plane has started. -/
def State.planeDone (s : State) : State := { s with rst := { s.rst with plane := false } }

theorem State.planeUp_eq (s : State) : s.planeUp = (if s.rst.warmRun then s.raiseOver else s.raiseOver.setReady).planeDone.queueFound := rfl

theorem State.planeUp_plane (s : State) : s.planeUp.rst.plane = false := by
  rw [State.planeUp_eq]
  exact congrArg RstSt.plane ((State.queueFound_kept _).2.2 .rst (by decide))

section ready
variable (s : State)

/-- READY shown, before the anti-rollback count takes effect. -/
def State.showReady : State :=
  let s := (s.set R.RNG_GLB_STAT F.RNG_GLB_STAT_READY 1).set R.RST_STAT F.RST_STAT_WARM_STREAK 0
  { s with lv := { s.lv with ready := true } }

/-- The image's anti-rollback count and revocation take effect. -/
def State.takeSvn : State :=
  let n := max (s.get R.SEC_FW F.SEC_FW_SVN_FUSE) (s.get R.SEC_FW F.SEC_FW_SVN)
  { s with sec := { s.sec with vk0Gone := s.sec.vk0Gone || s.rst.revoke0 } }.set R.SEC_FW F.SEC_FW_SVN_FUSE n

/-- The boot is no trial any more. -/
def State.noTrial : State := { s with rst := { s.rst with trialRun := false } }

theorem State.setReady_eq : ∃ firm : Bool, s.setReady = (if firm then s.showReady.takeSvn else s.showReady).noTrial := by
  unfold State.setReady State.noTrial State.takeSvn
  exact ⟨!s.showReady.flag R.RST_BOOT_REC F.RST_BOOT_REC_TRIAL && !s.showReady.flag R.RST_STAT F.RST_STAT_FALLBACK, rfl⟩

theorem State.showReady_spec : s.showReady.isReady = true ∧ s.showReady.lv.ready = true := by
  have hx (w : State) (l : LvSt) : ({ w with lv := l } : State).isReady = w.isReady := rfl
  refine ⟨?_, rfl⟩
  rw [State.showReady, hx, State.isReady, State.flag, State.get_set_ne _ _ _ _ (by decide)]
  exact State.flag_of_get (State.get_set_fits _ _ _ (by decide) (by decide))

theorem State.takeSvn_spec : s.takeSvn.isReady = s.isReady ∧ s.takeSvn.lv = s.lv := by
  have hx (x : SecSt) : ({ s with sec := x } : State).isReady = s.isReady := rfl
  refine ⟨?_, ?_⟩
  · rw [State.takeSvn, State.isReady, State.flag, State.get_set_ne _ _ _ _ (by decide)]
    exact hx _
  · rw [State.takeSvn, State.set_lv]

theorem State.noTrial_spec : s.noTrial.isReady = s.isReady ∧ s.noTrial.lv = s.lv := ⟨rfl, rfl⟩

theorem State.setReady_ready : s.setReady.isReady = true ∧ s.setReady.lv.ready = true := by
  obtain ⟨firm, he⟩ := s.setReady_eq
  obtain ⟨h1, h2⟩ := s.showReady_spec
  obtain ⟨h3, h4⟩ := s.showReady.takeSvn_spec
  rw [he, (State.noTrial_spec _).1, (State.noTrial_spec _).2]
  cases firm
  · rw [if_neg Bool.false_ne_true]
    exact ⟨h1, h2⟩
  · rw [if_pos rfl, h3, h4]
    exact ⟨h1, h2⟩

theorem State.planeDone_ready : s.planeDone.queueFound.isReady = s.isReady ∧ s.planeDone.queueFound.lv = s.lv := by
  have hl : s.planeDone.queueFound.lv = s.planeDone.lv := s.planeDone.queueFound_kept.2.2 .lv (by decide)
  refine ⟨?_, hl⟩
  rw [State.isReady, State.flag, State.get, State.queueFound_rd _ (by decide) (by decide)]
  rfl

theorem State.planeUp_ready (hw : s.rst.warmRun = false) : s.planeUp.isReady = true ∧ s.planeUp.lv.ready = true := by
  rw [State.planeUp_eq, hw, if_neg Bool.false_ne_true, (State.planeDone_ready _).1, (State.planeDone_ready _).2]
  exact s.raiseOver.setReady_ready

end ready

section plane
variable {s : State} {m : Slack} {t : Nat}

theorem dataPlaneStart_none (h : s.rst.plane = false ∨ s.phase ≠ 5 ∨ s.rst.warmDue = true) : exec (.dataPlaneStart m t) s = .next s :=
  congrArg Host.Outcome.next (if_pos (by rcases h with h | h | h <;> simp [h]))

theorem exec_dataPlaneStart (hp : s.rst.plane = true) (h5 : s.phase = 5) (hd : s.rst.warmDue = false) :
    exec (.dataPlaneStart m t) s = .next (s.planeEnd ((s.at_ t).startPlane m).restoreRoutes) :=
  congrArg Host.Outcome.next (if_neg (by simp [hp, h5, hd]))

/-- A raise of VDD_CORE is awaited for the data plane. -/
def State.awaitRaise (s : State) : State := { s with hsf := { s.hsf with raising := some (65, 0) } }

theorem dataPlaneStart_waits (hp : s.rst.plane = true) (h5 : s.phase = 5) (hd : s.rst.warmDue = false) (h : ((s.at_ t).startPlane m).restoreRoutes = none) :
    ∃ u, exec (.dataPlaneStart m t) s = .next u ∧ u.vState = 3 ∧ u.hsf.raising = some (65, 0) := by
  refine ⟨s.awaitRaise.setVState 3, ?_, State.get_set_fits _ _ _ (by decide) (by decide), ?_⟩
  · rw [exec_dataPlaneStart hp h5 hd, h]
    rfl
  · rw [State.setVState, State.set_hsf]
    rfl

theorem dataPlaneStart_stands (hp : s.rst.plane = true) (h5 : s.phase = 5) (hd : s.rst.warmDue = false) {w : State}
    (h : ((s.at_ t).startPlane m).restoreRoutes = some w) : ∃ u, exec (.dataPlaneStart m t) s = .next u ∧ u = w.planeUp ∧ u.rst.plane = false ∧
      (w.rst.warmRun = false → u.isReady = true ∧ u.lv.ready = true) := by
  refine ⟨w.planeUp, ?_, rfl, w.planeUp_plane, w.planeUp_ready⟩
  rw [exec_dataPlaneStart hp h5 hd, h]
  rfl

end plane

/-! ### The warm reset -/

section warm
variable (s : State)

/-- What a warm reset clears at once. -/
def State.warmCut : State :=
  { s with
    regs := warmTab s.regs
    taken := warmTab s.taken
    host := { s.host with rings := [], cpls := [], dom := [], dmaOff := true }
    sec := { s.sec with genId := false, logUp := false, ckUp := false }
    lv := { s.lv with answers := false, ready := false, irqHold := some s.lvIrqLow }
    rst := { s.rst with warmDue := false, warmRun := true, imgBad := false }
    pkg := { s.pkg with hist := 0 } }

/-- Rings, masters and crossings in a warm reset. -/
def State.warmUnits : State :=
  let s := (List.range 64).foldl (fun (s : State) n => s.setRingSt n 0) s.leapRateCheck
  let s := (List.range 13).foldl (fun (s : State) m => s.resetMaster m) s
  (List.range 250).foldl (fun (s : State) d =>
    if s.get (R.HSF_XSTAT d) F.HSF_XSTAT_STATE = 1 then s else s.set (R.HSF_XSTAT d) F.HSF_XSTAT_STATE 2) s

theorem State.warmE1_eq : ∃ w : State, s.warmE1 = (((w.warmCut.warmUnits.inc R.RNG_GLB_WARM).set R.RNG_GLB_STAT F.RNG_GLB_STAT_READY 0).clearAwait).setPhase 3 := by
  unfold State.warmE1 State.warmUnits State.warmCut
  extract_lets tested cleared dma stopped w
  exact ⟨w, rfl⟩

theorem State.warmUnits_kept : Kept [.regs, .vec, .mtx] s s.warmUnits := by
  refine Kept.foldl (Kept.foldl (Kept.foldl (State.leapRateCheck_kept (.refl _ s) (Sub.of (Sub.self _) rfl)) fun _ _ hk => ?_) fun _ _ hk => ?_) fun _ _ hk => ?_
  · exact State.set_kept hk _ _ _ (Sub.of (Sub.self _) rfl)
  · exact State.resetMaster_kept hk _ (Sub.self _)
  · split
    · exact hk
    · exact State.set_kept hk _ _ _ (Sub.of (Sub.self _) rfl)

theorem State.rd_foldl {α : Type} {f : State → α → State} {a : Nat} {l : List α} (h : ∀ s, ∀ x ∈ l, (f s x).rd a = s.rd a) (s : State) :
    (l.foldl f s).rd a = s.rd a := by
  induction l generalizing s with
  | nil => rfl
  | cons x l ih => rw [List.foldl_cons, ih fun s y hy => h s y (.tail _ hy), h s x (.head _)]

theorem State.warmUnits_ring {n : Nat} (hn : n < 64) : s.warmUnits.ringSt n = 0 := by
  obtain ⟨w, hw⟩ : ∃ w, w = (List.range 64).foldl (fun (s : State) n => s.setRingSt n 0) s.leapRateCheck := ⟨_, rfl⟩
  have hring : w.get (R.RNG_STAT n) F.RNG_STAT_STATE = 0 := by
    rw [hw]
    exact State.get_foldl_set (val := fun _ _ => 0) (by decide) List.nodup_range (fun i _ j _ hij => by unfold R.RNG_STAT; omega) (fun _ _ _ _ _ _ => rfl) _
      (List.mem_range.mpr hn)
  have hm (t : State) : ((List.range 13).foldl (fun (s : State) m => s.resetMaster m) t).rd (R.RNG_STAT n) = t.rd (R.RNG_STAT n) :=
    State.rd_foldl (fun s m hm => s.resetMaster_rd m (by have := List.mem_range.mp hm; omega) (by unfold R.RNG_STAT; omega)) t
  have hx (t : State) : ((List.range 250).foldl (fun (s : State) d =>
      if s.get (R.HSF_XSTAT d) F.HSF_XSTAT_STATE = 1 then s else s.set (R.HSF_XSTAT d) F.HSF_XSTAT_STATE 2) t).rd (R.RNG_STAT n) = t.rd (R.RNG_STAT n) := by
    refine State.rd_foldl (fun s d hd => ?_) t
    split
    · rfl
    · exact State.rd_set_ne _ _ _ (by have := List.mem_range.mp hd; unfold R.RNG_STAT R.HSF_XSTAT; omega)
  rw [State.ringSt, State.get, State.warmUnits, hx, hm, ← hw]
  exact hring

theorem State.clearAwait_lv : s.clearAwait.lv.answers = s.lv.answers ∧ s.clearAwait.lv.ready = s.lv.ready ∧ s.clearAwait.lv.irqHold = s.lv.irqHold := by
  have hd (x : MateSt) : ({ s with mate := x } : State).dropDiscarded.lv = s.lv := by
    rw [State.dropDiscarded]
    split
    · rw [(State.leapRateCheck_onlyRegs _).lv]
    · rfl
  rw [State.clearAwait]
  rcases State.lvTakesDone_cases ({ s with mate := { s.mate with await := [], fwdRfn := [], fwdHold := [] } } : State).dropDiscarded with h | ⟨takes, acks, n, h | h⟩
  · rw [h, hd]
    exact ⟨rfl, rfl, rfl⟩
  · rw [h, State.lvCounted_lv, hd]
    exact ⟨rfl, rfl, rfl⟩
  · rw [h, State.lvIrq, State.lvCounted_lv, hd]
    exact ⟨rfl, rfl, rfl⟩

theorem State.warmE1_spec : s.warmE1.phase = 3 ∧ s.warmE1.rst.warmRun = true ∧ s.warmE1.rst.warmDue = false ∧ s.warmE1.isReady = false ∧
    s.warmE1.lv.answers = false ∧ s.warmE1.lv.ready = false ∧ s.warmE1.lv.irqHold.isSome = true ∧ ∀ n < 64, s.warmE1.ringSt n = 0 := by
  obtain ⟨w, hw⟩ := s.warmE1_eq
  obtain ⟨c, hc⟩ : ∃ c, c = w.warmCut := ⟨_, rfl⟩
  have hcr : c.rst.warmRun = true ∧ c.rst.warmDue = false := by rw [hc]; exact ⟨rfl, rfl⟩
  have hcl : c.lv.answers = false ∧ c.lv.ready = false ∧ c.lv.irqHold.isSome = true := by rw [hc]; exact ⟨rfl, rfl, rfl⟩
  obtain ⟨v, hv⟩ : ∃ v, v = (c.warmUnits.inc R.RNG_GLB_WARM).set R.RNG_GLB_STAT F.RNG_GLB_STAT_READY 0 := ⟨_, rfl⟩
  have hvk : c.warmUnits.onlyRegs v [R.RNG_GLB_WARM, R.RNG_GLB_STAT] :=
    hv ▸ .trans (State.inc_onlyRegs _ (.head _)) (State.set_onlyRegs _ _ _ (.tail _ (.head _)))
  have hvl : v.lv = c.lv := hvk.lv.trans (c.warmUnits_kept.2.2 .lv (by decide))
  have hvr : v.rst = c.rst := hvk.rst.trans (c.warmUnits_kept.2.2 .rst (by decide))
  have hready : v.get R.RNG_GLB_STAT F.RNG_GLB_STAT_READY = 0 := by
    rw [hv]
    exact State.get_set_fits _ _ _ (by decide) (by decide)
  have har : v.clearAwait.rst = v.rst := (State.clearAwait_kept (.refl [.regs, .host, .vec, .lv, .mate] v) (Sub.self _)).2.2 .rst (by decide)
  obtain ⟨ha1, ha2, ha3⟩ := v.clearAwait_lv
  have hp := v.clearAwait.setPhase_onlyRegs 3
  rw [hw, ← hc, ← hv, hp.rst, hp.lv, har, hvr, ha1, ha2, ha3, hvl]
  refine ⟨State.phase_setPhase _ (by decide), hcr.1, hcr.2, ?_, hcl.1, hcl.2.1, hcl.2.2, fun n hn => ?_⟩
  · rw [State.isReady, State.flag, State.setPhase_get _ _ _ (by decide), State.get, State.clearAwait_rd _ (by decide) (by decide) (by decide)]
    exact State.flag_of_get0 hready
  · have h1 : R.RNG_STAT n ≠ R.RST_STAT ∧ R.RNG_STAT n ≠ R.LVP_TAKE_CNT ∧ R.RNG_STAT n ≠ R.LVP_HIST ∧ R.RNG_STAT n ≠ R.XPT_STAT ∧
        R.RNG_STAT n ≠ R.RNG_GLB_WARM ∧ R.RNG_STAT n ≠ R.RNG_GLB_STAT := by
      unfold R.RNG_STAT R.RST_STAT R.LVP_TAKE_CNT R.LVP_HIST R.XPT_STAT R.RNG_GLB_WARM R.RNG_GLB_STAT
      omega
    obtain ⟨h1, h2, h3, h4, h5, h6⟩ := h1
    rw [State.ringSt, State.setPhase_get _ _ _ h1, State.get, State.clearAwait_rd _ h2 h3 h4, hvk.rd (by simp [h5, h6])]
    exact c.warmUnits_ring hn

end warm

section warmReady
variable {s : State} {t : Nat}

theorem warmReset_spec (h : s.rst.warmDue = true) : ∃ u, exec .warmReset s = .next u ∧ u.phase = 3 ∧ u.rst.warmRun = true ∧
    u.rst.warmDue = false ∧ u.isReady = false ∧ u.lv.answers = false ∧ u.lv.ready = false ∧ u.lv.irqHold.isSome = true ∧ ∀ n < 64, u.ringSt n = 0 :=
  ⟨s.warmE1, congrArg Host.Outcome.next (if_pos h), s.warmE1_spec⟩

theorem warmReset_none (h : s.rst.warmDue = false) : exec .warmReset s = .next s := congrArg Host.Outcome.next (if_neg (by simp [h]))

theorem warmReady_none (h : s.rst.warmRun = false ∨ s.rst.warmDue = true ∨ s.rst.plane = true ∨ s.phase ≠ 5) : exec (.warmReady t) s = .next s :=
  congrArg Host.Outcome.next (if_pos (by rcases h with h | h | h | h <;> simp [h]))

/-- No warm reset runs, and LV_IRQ_N follows its sources again. -/
def State.warmEnd (s : State) : State := { s with rst := { s.rst with warmRun := false }, lv := { s.lv with irqHold := none } }

theorem State.warmOver_eq (s : State) : s.warmOver = s.warmEnd.raise Hist.rst F.RST_HIST_WARM_DONE := rfl

theorem State.warmOver_spec (s : State) : s.warmOver.rst.warmRun = false ∧ s.warmOver.isReady = s.isReady ∧ s.warmOver.lv.irqHold = none ∧
    s.warmOver.get R.RST_HIST F.RST_HIST_WARM_DONE = 1 := by
  rw [State.warmOver_eq, State.raise_rst, State.raise_lv]
  refine ⟨rfl, ?_, rfl, State.get_raise _ Hist.rst _ rfl (by decide)⟩
  rw [State.isReady, State.flag, State.get_raise_ne _ Hist.rst _ _ (by decide)]
  rfl

theorem warmReady_spec (hw : s.rst.warmRun = true) (hd : s.rst.warmDue = false) (hp : s.rst.plane = false) (h5 : s.phase = 5) :
    ∃ u, exec (.warmReady t) s = .next u ∧ u.rst.warmRun = false ∧ u.isReady = true ∧ u.lv.irqHold = none ∧ u.get R.RST_HIST F.RST_HIST_WARM_DONE = 1 := by
  obtain ⟨w, hw'⟩ : ∃ w, w = (s.at_ t).recoverOps.reapAll.setReady := ⟨_, rfl⟩
  have hready : w.isReady = true := hw' ▸ (State.setReady_ready _).1
  obtain ⟨h1, h2, h3, h4⟩ := w.warmOver_spec
  have hx : exec (.warmReady t) s = .next (if w.warmOver.role = 2 then w.warmOver.setSync 1 else w.warmOver) := by
    rw [hw']
    exact congrArg Host.Outcome.next (if_neg (by simp [hw, hd, hp, h5]))
  refine ⟨_, hx, ?_⟩
  split
  · have hk := State.setSync_kept (.refl [.regs, .vec] w.warmOver) 1 (Sub.self _)
    have hr : (w.warmOver.setSync 1).rst = w.warmOver.rst := hk.2.2 .rst (by decide)
    have hl : (w.warmOver.setSync 1).lv = w.warmOver.lv := hk.2.2 .lv (by decide)
    rw [hr, hl, State.isReady, State.flag, State.get, State.get, State.setSync_rd _ _ (by decide) (by decide), State.setSync_rd _ _ (by decide) (by decide)]
    exact ⟨h1, h2.trans hready, h3, h4⟩
  · exact ⟨h1, h2.trans hready, h3, h4⟩

end warmReady

end Sys2Proof.Machine

/-! Block-level reset, the balls of reset and boot, and the whole of bring-up (O53). -/
namespace Sys2Proof.Machine

/-! ### Block-level reset -/

section result
variable (s : State) (c i res : Nat)

theorem State.blkRes_onlyRegs : s.onlyRegs (s.blkRes c i res) [R.RST_BLK_RES] :=
  .trans (.trans (State.set_onlyRegs _ _ _ (.head _)) (State.set_onlyRegs _ _ _ (.head _))) (State.set_onlyRegs _ _ _ (.head _))

theorem State.blkRes_result (h : res < 8) : (s.blkRes c i res).get R.RST_BLK_RES F.RST_BLK_RES_RESULT = res := by
  rw [State.blkRes, State.get_set_apart _ _ _ _ _ (by decide) (by decide), State.get_set_apart _ _ _ _ _ (by decide) (by decide)]
  exact State.get_set_fits _ _ _ (by decide) h

/-- An assert that is not taken is answered with its result alone. -/
theorem State.blkErr_spec (h : res < 8) : s.onlyRegs (s.blkErr c i res) [R.RST_BLK_RES, R.RST_HIST] ∧
    (s.blkErr c i res).get R.RST_BLK_RES F.RST_BLK_RES_RESULT = res ∧ (s.blkErr c i res).get R.RST_HIST F.RST_HIST_BLK_ERR = 1 := by
  refine ⟨.trans ((s.blkRes_onlyRegs c i res).mono fun _ ha => List.mem_append_left [R.RST_HIST] ha) (State.raise_onlyRegs _ Hist.rst _ (.tail _ (.head _))), ?_,
    State.get_raise _ Hist.rst _ rfl (by decide)⟩
  rw [State.blkErr, State.get_raise_ne _ Hist.rst _ _ (by decide)]
  exact s.blkRes_result c i res h

end result

section block
variable {s : State} {v c i : Nat} {clk : Bool} (hu : s.upFor R.RST_BLK_CTL) (hc : c = v / 2 ^ 24 % 16) (hi : i = v % 256)
include hu hc hi

theorem exec_blockResetAssert : exec (.blockResetAssert v) s = .next (
    if v / 2 ^ 30 ≠ 1 then s
    else if blockCount c ≤ i then s.blkErr c i 3
    else if s.blockLv c i then s.blkErr c i 2
    else if s.flag (R.RST_BLK_STAT c i) F.RST_BLK_STAT_RELEASE_PENDING_CLOCK then
      (s.set (R.RST_BLK_STAT c i) F.RST_BLK_STAT_RELEASE_PENDING_CLOCK 0).blkRes c i 0
    else if !s.blockIdle c i then s.blkErr c i 1
    else (s.holdBlock c i).sdiInputs.blkRes c i 0) := by
  have e : exec (.blockResetAssert v) s = .next (s.blockResetAssert v) := congrArg _ (State.byHost_upFor hu _)
  rw [e, State.blockResetAssert, ← hc, ← hi]

theorem blockResetAssert_spec : (v / 2 ^ 30 ≠ 1 → exec (.blockResetAssert v) s = .next s) ∧ (v / 2 ^ 30 = 1 →
    (blockCount c ≤ i → ∃ u, exec (.blockResetAssert v) s = .next u ∧ s.onlyRegs u [R.RST_BLK_RES, R.RST_HIST] ∧ u.get R.RST_BLK_RES F.RST_BLK_RES_RESULT = 3 ∧
      u.get R.RST_HIST F.RST_HIST_BLK_ERR = 1) ∧
    (i < blockCount c → s.blockLv c i = true → ∃ u, exec (.blockResetAssert v) s = .next u ∧ s.onlyRegs u [R.RST_BLK_RES, R.RST_HIST] ∧ u.get R.RST_BLK_RES F.RST_BLK_RES_RESULT = 2) ∧
    (i < blockCount c → s.blockLv c i = false → s.flag (R.RST_BLK_STAT c i) F.RST_BLK_STAT_RELEASE_PENDING_CLOCK = false →
      (s.blockIdle c i = false → ∃ u, exec (.blockResetAssert v) s = .next u ∧ s.onlyRegs u [R.RST_BLK_RES, R.RST_HIST] ∧ u.get R.RST_BLK_RES F.RST_BLK_RES_RESULT = 1) ∧
      (s.blockIdle c i = true → exec (.blockResetAssert v) s = .next ((s.holdBlock c i).sdiInputs.blkRes c i 0))) ∧
    (i < blockCount c → s.blockLv c i = false → s.flag (R.RST_BLK_STAT c i) F.RST_BLK_STAT_RELEASE_PENDING_CLOCK = true →
      exec (.blockResetAssert v) s = .next ((s.set (R.RST_BLK_STAT c i) F.RST_BLK_STAT_RELEASE_PENDING_CLOCK 0).blkRes c i 0))) := by
  rw [exec_blockResetAssert hu hc hi]
  refine ⟨fun h => by rw [if_pos h], fun h => ?_⟩
  rw [if_neg (not_not_intro h)]
  refine ⟨fun hn => ?_, fun hn hl => ?_, fun hn hl hp => ⟨fun hx => ?_, fun hx => ?_⟩, fun hn hl hp => ?_⟩
  · obtain ⟨h1, h2, h3⟩ := s.blkErr_spec c i 3 (by decide)
    exact ⟨_, by rw [if_pos hn], h1, h2, h3⟩
  · obtain ⟨h1, h2, -⟩ := s.blkErr_spec c i 2 (by decide)
    exact ⟨_, by rw [if_neg (by omega), if_pos hl], h1, h2⟩
  · obtain ⟨h1, h2, -⟩ := s.blkErr_spec c i 1 (by decide)
    exact ⟨_, by rw [if_neg (by omega), hl, hp, hx, if_neg Bool.false_ne_true, if_neg Bool.false_ne_true, if_pos (by decide)], h1, h2⟩
  · rw [if_neg (by omega), hl, hp, hx, if_neg Bool.false_ne_true, if_neg Bool.false_ne_true, if_neg (by decide)]
  · rw [if_neg (by omega), hl, if_neg Bool.false_ne_true, if_pos hp]

theorem exec_blockResetRelease : exec (.blockResetRelease v clk) s = .next (
    if v / 2 ^ 30 ≠ 2 then s
    else if blockCount c ≤ i then s.blkRes c i 3
    else if s.blockFenced c i then s.blkRes c i 1
    else if !s.inReset c i then s.blkRes c i 0
    else if s.flag (R.RST_BLK_STAT c i) F.RST_BLK_STAT_RELEASE_PENDING_CLOCK then s.blkRes c i 4
    else if s.clockOk c i clk then ((s.set (R.RST_BLK_STAT c i) F.RST_BLK_STAT_CLK_OK 1).releaseBlock c i).blkRes c i 0
    else ((s.set (R.RST_BLK_STAT c i) F.RST_BLK_STAT_CLK_OK 0).set (R.RST_BLK_STAT c i) F.RST_BLK_STAT_RELEASE_PENDING_CLOCK 1).blkRes c i 4) := by
  have e : exec (.blockResetRelease v clk) s = .next (s.blockResetRelease v clk) := congrArg _ (State.byHost_upFor hu _)
  rw [e, State.blockResetRelease, ← hc, ← hi]

omit hu hc hi in
/-- A deferred release: the block stays in reset, and the release waits for its clock. -/
theorem State.deferred_spec (s : State) (c i : Nat) (hr : s.inReset c i = true) :
    ∃ u : State, u = ((s.set (R.RST_BLK_STAT c i) F.RST_BLK_STAT_CLK_OK 0).set (R.RST_BLK_STAT c i) F.RST_BLK_STAT_RELEASE_PENDING_CLOCK 1).blkRes c i 4 ∧
      u.flag (R.RST_BLK_STAT c i) F.RST_BLK_STAT_RELEASE_PENDING_CLOCK = true ∧ u.inReset c i = true ∧ u.get R.RST_BLK_RES F.RST_BLK_RES_RESULT = 4 ∧
      s.onlyRegs u [R.RST_BLK_RES, R.RST_BLK_STAT c i] := by
  have hne : R.RST_BLK_STAT c i ≠ R.RST_BLK_RES := by
    unfold R.RST_BLK_STAT R.RST_BLK_RES
    omega
  obtain ⟨w, hw⟩ : ∃ w, w = (s.set (R.RST_BLK_STAT c i) F.RST_BLK_STAT_CLK_OK 0).set (R.RST_BLK_STAT c i) F.RST_BLK_STAT_RELEASE_PENDING_CLOCK 1 := ⟨_, rfl⟩
  have hwk : s.onlyRegs w [R.RST_BLK_STAT c i] := hw ▸ .trans (State.set_onlyRegs _ _ _ (.head _)) (State.set_onlyRegs _ _ _ (.head _))
  have hk := w.blkRes_onlyRegs c i 4
  have hg (f : Bits) : (w.blkRes c i 4).get (R.RST_BLK_STAT c i) f = w.get (R.RST_BLK_STAT c i) f := hk.get (by simpa using hne) f
  refine ⟨w.blkRes c i 4, by rw [hw], ?_, ?_, w.blkRes_result c i 4 (by decide),
    (hwk.mono fun _ ha => .tail _ ha).trans (hk.mono fun _ ha => List.mem_singleton.mp ha ▸ .head _)⟩
  · rw [State.flag, hg, hw]
    exact State.flag_of_get (State.get_set_fits _ _ _ (by decide) (by decide))
  · rw [State.inReset, State.flag, hg, hw, State.get_set_apart _ _ _ _ _ (by decide) (by decide), State.get_set_apart _ _ _ _ _ (by decide) (by decide)]
    exact hr

theorem blockResetRelease_spec : (v / 2 ^ 30 ≠ 2 → exec (.blockResetRelease v clk) s = .next s) ∧
    (v / 2 ^ 30 = 2 → blockCount c ≤ i → exec (.blockResetRelease v clk) s = .next (s.blkRes c i 3)) ∧
    (v / 2 ^ 30 = 2 → i < blockCount c → s.blockFenced c i = true → exec (.blockResetRelease v clk) s = .next (s.blkRes c i 1)) ∧
    (v / 2 ^ 30 = 2 → i < blockCount c → s.blockFenced c i = false → s.inReset c i = false → exec (.blockResetRelease v clk) s = .next (s.blkRes c i 0)) ∧
    (v / 2 ^ 30 = 2 → i < blockCount c → s.blockFenced c i = false → s.inReset c i = true → s.flag (R.RST_BLK_STAT c i) F.RST_BLK_STAT_RELEASE_PENDING_CLOCK = true →
      exec (.blockResetRelease v clk) s = .next (s.blkRes c i 4)) ∧
    (v / 2 ^ 30 = 2 → i < blockCount c → s.blockFenced c i = false → s.inReset c i = true → s.flag (R.RST_BLK_STAT c i) F.RST_BLK_STAT_RELEASE_PENDING_CLOCK = false →
      (s.clockOk c i clk = true → exec (.blockResetRelease v clk) s = .next (((s.set (R.RST_BLK_STAT c i) F.RST_BLK_STAT_CLK_OK 1).releaseBlock c i).blkRes c i 0)) ∧
      (s.clockOk c i clk = false → ∃ u, exec (.blockResetRelease v clk) s = .next u ∧ u.flag (R.RST_BLK_STAT c i) F.RST_BLK_STAT_RELEASE_PENDING_CLOCK = true ∧
        u.inReset c i = true ∧ u.get R.RST_BLK_RES F.RST_BLK_RES_RESULT = 4 ∧ s.onlyRegs u [R.RST_BLK_RES, R.RST_BLK_STAT c i])) := by
  rw [exec_blockResetRelease hu hc hi]
  refine ⟨fun h => by rw [if_pos h], fun h hn => ?_, fun h hn hf => ?_, fun h hn hf hr => ?_, fun h hn hf hr hp => ?_, fun h hn hf hr hp => ⟨fun hk => ?_, fun hk => ?_⟩⟩
  all_goals rw [if_neg (not_not_intro h)]
  · rw [if_pos hn]
  · rw [if_neg (by omega), if_pos hf]
  · rw [if_neg (by omega), hf, hr, if_neg Bool.false_ne_true, if_pos (by decide)]
  · rw [if_neg (by omega), hf, hr, if_neg Bool.false_ne_true, if_neg (by decide), if_pos hp]
  · rw [if_neg (by omega), hf, hr, if_neg Bool.false_ne_true, if_neg (by decide), hp, if_neg Bool.false_ne_true, if_pos hk]
  · obtain ⟨u, he, hu'⟩ := s.deferred_spec c i hr
    refine ⟨u, ?_, hu'⟩
    rw [if_neg (by omega), hf, hr, if_neg Bool.false_ne_true, if_neg (by decide), hp, if_neg Bool.false_ne_true, hk, if_neg Bool.false_ne_true, he]

end block

theorem blockClockQualified_spec (s : State) (c i : Nat) :
    ((blockCount c ≤ i ∨ s.flag (R.RST_BLK_STAT c i) F.RST_BLK_STAT_RELEASE_PENDING_CLOCK = false) → exec (.blockClockQualified c i) s = .next s) ∧
    (i < blockCount c → s.flag (R.RST_BLK_STAT c i) F.RST_BLK_STAT_RELEASE_PENDING_CLOCK = true → ∃ w, w = s.set (R.RST_BLK_STAT c i) F.RST_BLK_STAT_CLK_OK 1 ∧
      exec (.blockClockQualified c i) s = .next (if s.phase = 5 then w.releaseBlock c i else w)) := by
  refine ⟨fun h => congrArg Host.Outcome.next (if_pos (by simpa using h)), fun hn hp => ⟨_, rfl, ?_⟩⟩
  have hphase : (s.set (R.RST_BLK_STAT c i) F.RST_BLK_STAT_CLK_OK 1).phase = s.phase :=
    State.get_set_ne _ _ _ _ (by unfold R.RST_BLK_STAT R.RST_STAT; omega)
  rw [← hphase]
  exact congrArg Host.Outcome.next (if_neg (by simp [hp]; omega))

/-! ### Balls -/

theorem State.resetNLow_spec (s : State) : (s.rst.on = true → s.rst.cold = true → s.phase < 3 → s.resetNLow = true) ∧
    (s.rst.on = true → (∃ t, s.rst.trig = some t ∧ s.now < t + 1000 * ticksPerUs) → s.resetNLow = true) ∧
    (s.rst.cold = false → (∀ t, s.rst.trig = some t → t + 1000 * ticksPerUs ≤ s.now) → s.resetNLow = false) ∧
    (s.bootHighZ = true ↔ s.rst.pinLow = true ∨ (s.rst.cold = true ∧ s.phase < 3)) := by
  refine ⟨fun ho hc hp => ?_, fun ho ⟨t, ht, hn⟩ => ?_, fun hc h => ?_, ?_⟩
  · rw [State.resetNLow, ho, hc, decide_eq_true hp]
    rfl
  · rw [State.resetNLow, ho, ht]
    simp [hn]
  · rw [State.resetNLow, hc]
    cases ht : s.rst.trig with
    | none => simp
    | some t => simp [Nat.not_lt.mpr (h t ht)]
  · rw [State.bootHighZ]
    simp [or_comm]

theorem State.ball_spec (s : State) (k : Nat) : (s.rst.pads = false → s.ball k = s.fuseBall k) ∧ (s.rst.opt = none → s.fuseBall k = .highZ) ∧
    (∀ o, s.rst.opt = some o → (o.pinFuse / 4 ^ k % 4 = 0 → s.fuseBall k = .highZ) ∧ (o.pinFuse / 4 ^ k % 4 = 1 → s.fuseBall k = .pullUp) ∧
      (o.pinFuse / 4 ^ k % 4 = 2 → s.fuseBall k = .pullDown) ∧ (o.pinFuse / 4 ^ k % 4 = 3 → s.fuseBall k = .low)) := by
  refine ⟨fun h => if_pos (by simp [h]), fun h => by rw [State.fuseBall, h], fun o ho => ⟨fun h => ?_, fun h => ?_, fun h => ?_, fun h => ?_⟩⟩
  all_goals rw [State.fuseBall, ho]; dsimp only; rw [h]
  all_goals rfl

/-- Settles O53: each phase of bring-up is followed to the registers it shows, and what comes between leaves them. -/
theorem bringUpAndWarmReset : Obligations.BringUpAndWarmReset := by
  unfold Obligations.BringUpAndWarmReset
  refine ⟨fun s r => ⟨optionLoad_none r, fun hc hp => ⟨fun h => h ▸ optionLoad_fails hc hp, fun o h => h ▸ optionLoad_loads o hc hp⟩⟩,
    fun s bad => ⟨recallRecords_none bad, recallRecords_recalls bad⟩, fun s a b img himg => ⟨bootImageVerify_none, fun h hp hf ht hc p hpref => ?_⟩,
    fun s t => ⟨controlPlaneUp_none, fun h => ⟨controlPlaneUp_spec h, controlPlaneUp_warm h⟩⟩,
    fun s m t => ⟨dataPlaneStart_none, fun hp h5 hd => ⟨dataPlaneStart_waits hp h5 hd, fun w => dataPlaneStart_stands hp h5 hd⟩⟩,
    fun s => ⟨warmReset_none, warmReset_spec⟩, fun s t => ⟨warmReady_none, warmReady_spec⟩, fun s v c i hu hc hi => blockResetAssert_spec hu hc hi,
    fun s v c i clk hu hc hi => blockResetRelease_spec hu hc hi, blockClockQualified_spec, State.resetNLow_spec, State.ball_spec⟩
  have hi : img = imgOf a b := himg
  rw [hi]
  exact ⟨bootImageVerify_preferred h hp hf ht hc hpref, bootImageVerify_other h hp hf ht hc hpref, bootImageVerify_fails h hp hf ht hc hpref⟩

end Sys2Proof.Machine

/-! Stores of a record, the autostore and its end (O54). -/
namespace Sys2Proof.Machine

/-! ### A store of a record (R380) -/

/-- The half and the sequence number of the next store of record `k`. -/
def State.nextCopy (s : State) (k : Nat) : Nat × Nat :=
  match s.newestCopy k with
  | some (h, q) => (1 - h, (q + 1) % 2 ^ 32)
  | none => (0, 1)

/-- Record 8 once stored is what the routes were. -/
def State.keepRoutes (s : State) (k : Nat) (b : RecBody) : State :=
  match b with
  | .routes r c => if k = 8 then { s with axl := { s.axl with routes := r, cfgs := c } } else s
  | _ => s

/-- A copy of record `k` is written to half `h` with sequence number `q`. -/
def State.putCopy (s : State) (k h q : Nat) (ok : Bool) (b : RecBody) : State := (s.setCopy k h ⟨q, ok, b⟩).inc R.AXL_STORE_CNT

/-- A store is confirmed. -/
def State.confirm (s : State) (k h q : Nat) (b : RecBody) : State :=
  let a := R.AXL_REC_STAT k
  let s := (((s.set a F.AXL_REC_STAT_VALID 1).set a F.AXL_REC_STAT_DIRTY 0).set a F.AXL_REC_STAT_HALF h).keepRoutes k b
  (if wearLevelled k then s.set a F.AXL_REC_STAT_POS (wearPos k q) else s).wr (R.AXL_REC_SEQ k) (BitVec.ofNat 32 q)

theorem State.writeRec_eq (s : State) (k : Nat) (b : RecBody) (ok : Bool) (h : s.lifecycle ≠ 4) : s.writeRec k b ok =
    if ok then (s.putCopy k (s.nextCopy k).1 (s.nextCopy k).2 true b).confirm k (s.nextCopy k).1 (s.nextCopy k).2 b
    else s.putCopy k (s.nextCopy k).1 (s.nextCopy k).2 false b := by
  rw [State.writeRec, if_neg h]
  unfold State.nextCopy
  cases s.newestCopy k with
  | none => cases ok <;> rfl
  | some p => cases ok <;> rfl

theorem State.writeRec_end (s : State) (k : Nat) (b : RecBody) (ok : Bool) (h : s.lifecycle = 4) : s.writeRec k b ok = s := if_pos h

section keep
variable (s : State) (k : Nat) (b : RecBody)

theorem State.keepRoutes_cases : s.keepRoutes k b = s ∨ ∃ r c, s.keepRoutes k b = { s with axl := { s.axl with routes := r, cfgs := c } } := by
  cases b with
  | routes r c =>
    rw [State.keepRoutes]
    split
    · exact .inr ⟨r, c, rfl⟩
    · exact .inl rfl
  | _ => exact .inl rfl

theorem State.keepRoutes_rd (a : Nat) : (s.keepRoutes k b).rd a = s.rd a := by
  rcases s.keepRoutes_cases k b with h | ⟨r, c, h⟩ <;> rw [h]
  rfl

theorem State.keepRoutes_get (a : Nat) (f : Bits) : (s.keepRoutes k b).get a f = s.get a f := congrArg (getF f) (s.keepRoutes_rd k b a)

end keep

/-! ### What a store leaves of the store's own state -/

/-- The store's own state stays, but for the copies and what record 8 was stored with. -/
def State.axlSame (s t : State) : Prop := ∃ l r c, t.axl = { s.axl with copies := l, routes := r, cfgs := c }

section same
variable {s t u : State}

theorem State.axlSame.of_eq (h : t.axl = s.axl) : s.axlSame t := ⟨_, _, _, h⟩

theorem State.axlSame.trans (h : s.axlSame t) (k : t.axlSame u) : s.axlSame u := by
  obtain ⟨l, r, c, h⟩ := h
  obtain ⟨l', r', c', k⟩ := k
  exact ⟨l', r', c', by rw [k, h]⟩

theorem State.axlSame.foldl {α : Type} {f : State → α → State} (hf : ∀ (s : State) (x : α), s.axlSame (f s x)) (l : List α) (s : State) : s.axlSame (l.foldl f s) := by
  induction l generalizing s with
  | nil => exact .of_eq rfl
  | cons x l ih => exact (hf s x).trans (ih _)

theorem State.onlyRegs.axlSame {l : List Nat} (h : s.onlyRegs t l) : s.axlSame t := .of_eq h.axl

/-- The settings of the store that a store of a record leaves. -/
theorem State.axlSame.fields (h : s.axlSame t) : t.axl.running = s.axl.running ∧ t.axl.session = s.axl.session ∧ t.axl.autoUs = s.axl.autoUs ∧
    t.axl.presets = s.axl.presets ∧ t.axl.deferred = s.axl.deferred := by
  obtain ⟨l, r, c, h⟩ := h
  rw [h]
  exact ⟨rfl, rfl, rfl, rfl, rfl⟩

theorem State.putCopy_axl (s : State) (k h q : Nat) (ok : Bool) (b : RecBody) : (s.putCopy k h q ok b).axl =
    { s.axl with copies := tabPut s.axl.copies ((2 * k + h) * 16 + wearPos k q) ⟨q, ok, b⟩ } := by
  rw [State.putCopy, (State.inc_onlyRegs _ (.head [])).axl]
  rfl

theorem State.keepRoutes_copies (s : State) (k : Nat) (b : RecBody) : s.axlSame (s.keepRoutes k b) ∧ (s.keepRoutes k b).axl.copies = s.axl.copies := by
  rcases s.keepRoutes_cases k b with h | ⟨r, c, h⟩ <;> rw [h]
  · exact ⟨.of_eq rfl, rfl⟩
  · exact ⟨⟨_, r, c, rfl⟩, rfl⟩

theorem State.confirm_axl (s : State) (k h q : Nat) (b : RecBody) : s.axlSame (s.confirm k h q b) ∧ (s.confirm k h q b).axl.copies = s.axl.copies := by
  obtain ⟨w, hw⟩ : ∃ w, w = ((s.set (R.AXL_REC_STAT k) F.AXL_REC_STAT_VALID 1).set (R.AXL_REC_STAT k) F.AXL_REC_STAT_DIRTY 0).set
    (R.AXL_REC_STAT k) F.AXL_REC_STAT_HALF h := ⟨_, rfl⟩
  have hwk : s.onlyRegs w [R.AXL_REC_STAT k] :=
    hw ▸ .trans (.trans (State.set_onlyRegs _ _ _ (.head _)) (State.set_onlyRegs _ _ _ (.head _))) (State.set_onlyRegs _ _ _ (.head _))
  obtain ⟨h1, h2⟩ := w.keepRoutes_copies k b
  obtain ⟨v, hv, hvk⟩ : ∃ v : State, s.confirm k h q b = v ∧ (w.keepRoutes k b).onlyRegs v [R.AXL_REC_STAT k, R.AXL_REC_SEQ k] := by
    refine ⟨_, rfl, ?_⟩
    rw [State.confirm, ← hw]
    exact .trans (.ite (fun _ => State.set_onlyRegs _ _ _ (.head _)) fun _ => .refl _ _) (State.wr_onlyRegs _ _ (.tail _ (.head _)))
  rw [hv]
  exact ⟨(hwk.axlSame.trans h1).trans hvk.axlSame, by rw [hvk.axl, h2, hwk.axl]⟩

theorem State.writeRec_axlSame (s : State) (k : Nat) (b : RecBody) (ok : Bool) : s.axlSame (s.writeRec k b ok) := by
  have hp (h q : Nat) (ok : Bool) : s.axlSame (s.putCopy k h q ok b) := ⟨_, _, _, s.putCopy_axl k h q ok b⟩
  by_cases h : s.lifecycle = 4
  · rw [State.writeRec_end _ _ _ _ h]
    exact .of_eq rfl
  · rw [State.writeRec_eq _ _ _ _ h]
    split
    · exact (hp _ _ _).trans (State.confirm_axl _ _ _ _ _).1
    · exact hp _ _ _

/-- A store writes the one copy whose turn it is. -/
theorem State.writeRec_copies (s : State) (k : Nat) (b : RecBody) (ok : Bool) (h : s.lifecycle ≠ 4) : (s.writeRec k b ok).axl.copies =
    tabPut s.axl.copies ((2 * k + (s.nextCopy k).1) * 16 + wearPos k (s.nextCopy k).2) ⟨(s.nextCopy k).2, ok, b⟩ := by
  rw [State.writeRec_eq _ _ _ _ h]
  cases ok with
  | true => rw [if_pos rfl, (State.confirm_axl _ _ _ _ _).2, State.putCopy_axl]
  | false => rw [if_neg Bool.false_ne_true, State.putCopy_axl]

theorem State.writeRec_copyAt (s : State) (k : Nat) (b : RecBody) (ok : Bool) (hl : s.lifecycle ≠ 4) {h q : Nat} (hn : (h, q) = s.nextCopy k) :
    (s.writeRec k b ok).copyAt k h (wearPos k q) = some ⟨q, ok, b⟩ ∧
    ∀ j i p, (2 * j + i) * 16 + p ≠ (2 * k + h) * 16 + wearPos k q → (s.writeRec k b ok).copyAt j i p = s.copyAt j i p := by
  refine ⟨?_, fun j i p hne => ?_⟩
  · rw [State.copyAt, State.writeRec_copies _ _ _ _ hl, ← hn]
    exact tabFind_put_self ..
  · rw [State.copyAt, State.writeRec_copies _ _ _ _ hl, ← hn]
    exact tabFind_put_ne _ _ hne

end same

/-! ### What a store leaves of the registers -/

theorem AXL_REC_ne (j k : Nat) : R.AXL_REC_STAT j ≠ R.AXL_REC_SEQ k ∧ R.AXL_REC_STAT j ≠ R.AXL_STORE_CNT ∧ R.AXL_REC_SEQ k ≠ R.AXL_STORE_CNT := by
  unfold R.AXL_REC_STAT R.AXL_REC_SEQ R.AXL_STORE_CNT
  omega

theorem AXL_REC_STAT_inj {j k : Nat} (h : R.AXL_REC_STAT j = R.AXL_REC_STAT k) : j = k := by
  unfold R.AXL_REC_STAT at h
  omega

section regs
variable (s : State) (k : Nat) (b : RecBody)

theorem State.putCopy_rd (h q : Nat) (ok : Bool) {a : Nat} (ha : a ≠ R.AXL_STORE_CNT) : (s.putCopy k h q ok b).rd a = s.rd a := by
  rw [State.putCopy, State.rd_inc_ne _ ha]
  rfl

theorem State.putCopy_count (h q : Nat) (ok : Bool) : ((s.putCopy k h q ok b).rd R.AXL_STORE_CNT).toNat =
    min 0xFFFFFFFF ((s.rd R.AXL_STORE_CNT).toNat + 1) := by
  have hx : (s.setCopy k h ⟨q, ok, b⟩).rd R.AXL_STORE_CNT = s.rd R.AXL_STORE_CNT := rfl
  rw [State.putCopy, State.rd_inc, hx]

theorem State.confirm_rd (h q : Nat) {a : Nat} (h1 : a ≠ R.AXL_REC_STAT k) (h2 : a ≠ R.AXL_REC_SEQ k) : (s.confirm k h q b).rd a = s.rd a := by
  have hx (w : State) : (if wearLevelled k then w.set (R.AXL_REC_STAT k) F.AXL_REC_STAT_POS (wearPos k q) else w).rd a = w.rd a := by
    split
    · exact State.rd_set_ne _ _ _ h1
    · rfl
  rw [State.confirm, State.rd_wr_ne _ _ h2, hx, State.keepRoutes_rd, State.rd_set_ne _ _ _ h1, State.rd_set_ne _ _ _ h1, State.rd_set_ne _ _ _ h1]

/-- A field of the record's status that a confirmed store does not write. -/
theorem State.confirm_apart (h q : Nat) {f : Bits} (h1 : F.AXL_REC_STAT_VALID.apart f) (h2 : F.AXL_REC_STAT_DIRTY.apart f) (h3 : F.AXL_REC_STAT_HALF.apart f)
    (h4 : F.AXL_REC_STAT_POS.apart f) : (s.confirm k h q b).get (R.AXL_REC_STAT k) f = s.get (R.AXL_REC_STAT k) f := by
  have hx (w : State) : (if wearLevelled k then w.set (R.AXL_REC_STAT k) F.AXL_REC_STAT_POS (wearPos k q) else w).get (R.AXL_REC_STAT k) f =
      w.get (R.AXL_REC_STAT k) f := by
    split
    · exact State.get_set_apart _ _ _ _ _ (by decide) h4
    · rfl
  rw [State.confirm, State.get, State.rd_wr_ne _ _ (AXL_REC_ne k k).1]
  refine (hx _).trans ?_
  rw [State.keepRoutes_get, State.get_set_apart _ _ _ _ _ (by decide) h3, State.get_set_apart _ _ _ _ _ (by decide) h2, State.get_set_apart _ _ _ _ _ (by decide) h1]

theorem State.confirm_clean (h q : Nat) : (s.confirm k h q b).isDirty k = false := by
  have hx (w : State) : (if wearLevelled k then w.set (R.AXL_REC_STAT k) F.AXL_REC_STAT_POS (wearPos k q) else w).get (R.AXL_REC_STAT k) F.AXL_REC_STAT_DIRTY =
      w.get (R.AXL_REC_STAT k) F.AXL_REC_STAT_DIRTY := by
    split
    · exact State.get_set_apart _ _ _ _ _ (by decide) (by decide)
    · rfl
  refine State.flag_of_get0 ?_
  rw [State.confirm, State.get, State.rd_wr_ne _ _ (AXL_REC_ne k k).1]
  refine (hx _).trans ?_
  rw [State.keepRoutes_get, State.get_set_apart _ _ _ _ _ (by decide) (by decide)]
  exact State.get_set_fits _ _ _ (by decide) (by decide)

theorem State.writeRec_clean (h : s.lifecycle ≠ 4) : (s.writeRec k b true).isDirty k = false := by
  rw [State.writeRec_eq _ _ _ _ h, if_pos rfl]
  exact State.confirm_clean ..

theorem State.writeRec_count (ok : Bool) (h : s.lifecycle ≠ 4) : ((s.writeRec k b ok).rd R.AXL_STORE_CNT).toNat =
    min 0xFFFFFFFF ((s.rd R.AXL_STORE_CNT).toNat + 1) := by
  rw [State.writeRec_eq _ _ _ _ h]
  split
  · rw [State.confirm_rd _ _ _ _ _ (AXL_REC_ne k k).2.1.symm (AXL_REC_ne k k).2.2.symm, State.putCopy_count]
  · exact State.putCopy_count ..

theorem State.writeRec_weak (ok : Bool) (j : Nat) : (s.writeRec k b ok).get (R.AXL_REC_STAT j) F.AXL_REC_STAT_WEAK = s.get (R.AXL_REC_STAT j) F.AXL_REC_STAT_WEAK := by
  by_cases hj : j = k
  · subst hj
    by_cases h : s.lifecycle = 4
    · rw [State.writeRec_end _ _ _ _ h]
    · rw [State.writeRec_eq _ _ _ _ h]
      split
      · rw [State.confirm_apart _ _ _ _ _ (by decide) (by decide) (by decide) (by decide), State.get, State.putCopy_rd _ _ _ _ _ _ (AXL_REC_ne j j).2.1]
        rfl
      · rw [State.get, State.putCopy_rd _ _ _ _ _ _ (AXL_REC_ne j j).2.1]
        rfl
  · have hm : R.AXL_REC_STAT j ∉ recRegs k := by
      simp only [recRegs, List.mem_cons, List.not_mem_nil, or_false, not_or]
      exact ⟨(AXL_REC_ne j k).2.1, fun h => hj (AXL_REC_STAT_inj h), (AXL_REC_ne j k).1⟩
    rw [State.get, State.writeRec_rd _ _ _ _ hm]
    rfl

end regs

/-! ### Stores that may fail (R382) -/

section store
variable (s : State) (k : Nat) (b : RecBody)

theorem State.storeBody_ok {first second : Bool} (h : first = true ∨ second = true) : s.storeBody k b first second = s.writeRec k b true := by
  have hor : (first || second) = true := by rcases h with h | h <;> simp [h]
  rw [State.storeBody]
  rw [hor, Bool.true_or, if_pos rfl]

theorem State.storeBody_end (first second : Bool) (h : s.lifecycle = 4) : s.storeBody k b first second = s := by
  have hw : s.writeRec k b (first || second) = s := State.writeRec_end _ _ _ _ h
  have h4 : (s.lifecycle == 4) = true := by simp [h]
  rw [State.storeBody]
  rw [hw, h4, Bool.or_true, if_pos rfl]

/-- The record whose store failed twice, before the error is reported. -/
def State.storeFailed (s : State) (k : Nat) (b : RecBody) : State := ((s.writeRec k b false).raise Hist.axl F.AXL_HIST_STORE_ERR).dirty k

theorem State.writeRec_lifecycle (ok : Bool) : (s.writeRec k b ok).lifecycle = s.lifecycle :=
  congrArg (getF F.SEC_STAT_LIFECYCLE) (State.writeRec_rd s k b ok (not_mem_recRegs k (by decide)))

theorem State.storeBody_fails (h : s.lifecycle ≠ 4) : s.storeBody k b false false = (s.storeFailed k b).reportError (0xC0000 + k) 0x0B := by
  have h4 : ((s.writeRec k b (false || false)).lifecycle == 4) = false := by
    rw [State.writeRec_lifecycle]
    simpa using h
  rw [State.storeBody]
  rw [h4]
  exact if_neg (by decide)

end store

section recordStore
variable {s : State} {k : Nat} {a b : Bool}

theorem recordStore_none (h : 80 < k ∨ s.flag R.AXL_STAT F.AXL_STAT_SRAM_VALID = false ∨ s.lifecycle = 4) : exec (.recordStore k a b) s = .next s := by
  have e : exec (.recordStore k a b) s = execRecordStore k a b s := rfl
  rw [e, execRecordStore]
  rcases h with h | h | h
  · rw [if_neg (by omega)]
  · rw [if_neg (by simp [h])]
  · rw [State.storeRec, State.storeBody_end _ _ _ _ _ h, ite_self]

variable (hk : k ≤ 80) (hv : s.flag R.AXL_STAT F.AXL_STAT_SRAM_VALID = true) (hl : s.lifecycle ≠ 4) {h q : Nat} (hn : (h, q) = s.nextCopy k)
include hk hv

theorem exec_recordStore : exec (.recordStore k a b) s = .next (s.storeBody k (s.recBody k) a b) := congrArg Host.Outcome.next (if_pos ⟨hk, hv⟩)

include hl hn

theorem recordStore_stores (hok : a = true ∨ b = true) : ∃ u, exec (.recordStore k a b) s = .next u ∧ u.copyAt k h (wearPos k q) = some ⟨q, true, s.recBody k⟩ ∧
    u.isDirty k = false ∧ (∀ j i p, (2 * j + i) * 16 + p ≠ (2 * k + h) * 16 + wearPos k q → u.copyAt j i p = s.copyAt j i p) ∧
    (u.rd R.AXL_STORE_CNT).toNat = min 0xFFFFFFFF ((s.rd R.AXL_STORE_CNT).toNat + 1) := by
  obtain ⟨h1, h2⟩ := s.writeRec_copyAt k (s.recBody k) true hl hn
  exact ⟨_, by rw [exec_recordStore hk hv, State.storeBody_ok _ _ _ hok], h1, s.writeRec_clean k _ hl, h2, s.writeRec_count k _ true hl⟩

theorem recordStore_fails (ha : a = false) (hb : b = false) : ∃ w : State, exec (.recordStore k a b) s = .next (w.reportError (0xC0000 + k) 0x0B) ∧
    w.copyAt k h (wearPos k q) = some ⟨q, false, s.recBody k⟩ ∧ w.get R.AXL_HIST F.AXL_HIST_STORE_ERR = 1 ∧ w.isDirty k = true ∧
    ∀ j i p, (2 * j + i) * 16 + p ≠ (2 * k + h) * 16 + wearPos k q → w.copyAt j i p = s.copyAt j i p := by
  obtain ⟨h1, h2⟩ := s.writeRec_copyAt k (s.recBody k) false hl hn
  have hx : (s.storeFailed k (s.recBody k)).axl = (s.writeRec k (s.recBody k) false).axl := by
    rw [State.storeFailed, State.dirty, State.set_axl, State.raise_axl]
  have hc (j i p : Nat) : (s.storeFailed k (s.recBody k)).copyAt j i p = (s.writeRec k (s.recBody k) false).copyAt j i p := by
    rw [State.copyAt, hx, State.copyAt]
  refine ⟨s.storeFailed k (s.recBody k), ?_, (hc _ _ _).trans h1, ?_, State.flag_of_get (State.get_set_fits _ _ _ (by decide) (by decide)),
    fun j i p hne => (hc _ _ _).trans (h2 j i p hne)⟩
  · rw [exec_recordStore hk hv, ha, hb, State.storeBody_fails _ _ _ hl]
  · rw [State.storeFailed, State.dirty, State.get_set_ne _ _ _ _ (by unfold R.AXL_REC_STAT R.AXL_HIST; omega)]
    exact State.get_raise _ Hist.axl _ rfl (by decide)

end recordStore

end Sys2Proof.Machine

/-! The autostore, arming, the control register, presets and the margin read (O54). -/
namespace Sys2Proof.Machine

/-! ### Power fails -/

section trip
variable {s : State} {t : Nat}

/-- Power has failed: the voltage controller commands nothing more. -/
def State.tripped (s : State) : State := (s.set R.AXL_STAT F.AXL_STAT_PFAIL 1).setVState 5

/-- The head of the route log is what record 7 takes. -/
def State.keepHead (s : State) : State := { s with sec := { s.sec with sramHead := s.sec.head, sramEnt := s.sec.entries } }

/-- An autostore begins. -/
def State.startAuto (s : State) : State :=
  { s with axl := { s.axl with running := true, frozen := s.autoOrder.dropLast.map fun k => (k, s.recBody k) } }

theorem State.tripped_onlyRegs (s : State) : s.onlyRegs s.tripped [R.AXL_STAT, R.HSF_VSTAT] :=
  .trans (State.set_onlyRegs _ _ _ (.head _)) (State.set_onlyRegs _ _ _ (.tail _ (.head _)))

theorem State.tripped_get (s : State) : s.tripped.get R.AXL_STAT F.AXL_STAT_PFAIL = 1 ∧ s.tripped.vState = 5 := by
  refine ⟨?_, State.get_set_fits _ _ _ (by decide) (by decide)⟩
  rw [State.tripped, State.setVState, State.get_set_ne _ _ _ _ (by decide)]
  exact State.get_set_fits _ _ _ (by decide) (by decide)

theorem State.tripped_apart (s : State) {f : Bits} (h : F.AXL_STAT_PFAIL.apart f) : s.tripped.get R.AXL_STAT f = s.get R.AXL_STAT f := by
  rw [State.tripped, State.setVState, State.get_set_ne _ _ _ _ (by decide), State.get_set_apart _ _ _ _ _ (by decide) h]

theorem State.tripped_armed (s : State) : s.tripped.armed = s.armed := by
  rw [State.armed, State.armed, State.flag, State.flag, State.flag, State.flag, s.tripped_apart (by decide), s.tripped_onlyRegs.get (by decide), State.lifecycle,
    State.lifecycle, s.tripped_onlyRegs.get (by decide)]

theorem exec_powerFailTrip (h : s.flag R.AXL_STAT F.AXL_STAT_PFAIL = false) : exec (.powerFailTrip t) s = .next (
    if (s.at_ t).tripped.armed && (s.at_ t).tripped.flag R.AXL_STAT F.AXL_STAT_SRAM_VALID then
      ((s.at_ t).tripped.keepHead.dirty 7).startAuto.set R.AXL_STAT F.AXL_STAT_STATE 2
    else (s.at_ t).tripped) := congrArg Host.Outcome.next (if_neg (by simp [h]))

theorem State.startAuto_get (s : State) (a : Nat) (f : Bits) : s.startAuto.get a f = s.get a f := rfl

theorem State.keepHead_get (s : State) (a : Nat) (f : Bits) : s.keepHead.get a f = s.get a f := rfl

theorem powerFailTrip_spec (h : s.flag R.AXL_STAT F.AXL_STAT_PFAIL = false) : ∃ u, exec (.powerFailTrip t) s = .next u ∧
    u.flag R.AXL_STAT F.AXL_STAT_PFAIL = true ∧ u.vState = 5 ∧
    (s.armed = true → s.flag R.AXL_STAT F.AXL_STAT_SRAM_VALID = true → u.axl.running = true ∧ u.get R.AXL_STAT F.AXL_STAT_STATE = 2 ∧ u.sec.sramHead = s.sec.head) ∧
    ((s.armed = false ∨ s.flag R.AXL_STAT F.AXL_STAT_SRAM_VALID = false) → u.axl = s.axl) := by
  obtain ⟨w, hw⟩ : ∃ w, w = (s.at_ t).tripped := ⟨_, rfl⟩
  obtain ⟨hp, h5⟩ : w.get R.AXL_STAT F.AXL_STAT_PFAIL = 1 ∧ w.vState = 5 := hw ▸ (s.at_ t).tripped_get
  have ha : w.armed = s.armed := hw ▸ (s.at_ t).tripped_armed
  have hv : w.flag R.AXL_STAT F.AXL_STAT_SRAM_VALID = s.flag R.AXL_STAT F.AXL_STAT_SRAM_VALID := by
    rw [State.flag, hw, (s.at_ t).tripped_apart (by decide)]
    rfl
  have hk : (s.at_ t).onlyRegs w [R.AXL_STAT, R.HSF_VSTAT] := hw ▸ State.tripped_onlyRegs _
  have he := exec_powerFailTrip (t := t) h
  rw [← hw, ha, hv] at he
  by_cases hc : (s.armed && s.flag R.AXL_STAT F.AXL_STAT_SRAM_VALID) = true
  · rw [if_pos hc] at he
    obtain ⟨v, hv'⟩ : ∃ v, v = (w.keepHead.dirty 7).startAuto := ⟨_, rfl⟩
    have hget (a : Nat) (f : Bits) (h7 : a ≠ R.AXL_REC_STAT 7) : v.get a f = w.get a f := by
      rw [hv', State.startAuto_get, State.dirty, State.get_set_ne _ _ _ _ h7, State.keepHead_get]
    have hsec : v.sec.sramHead = s.sec.head := by
      have h1 : (w.keepHead.dirty 7).sec = w.keepHead.sec := by rw [State.dirty, State.set_sec]
      have h2 : w.sec = s.sec := hk.sec
      have h3 : v.sec = (w.keepHead.dirty 7).sec := by rw [hv']; rfl
      have h4 : w.keepHead.sec.sramHead = w.sec.head := rfl
      rw [h3, h1, h4, h2]
    refine ⟨_, by rw [he, ← hv'], ?_, ?_, fun _ _ => ⟨?_, State.get_set_fits _ _ _ (by decide) (by decide), ?_⟩, fun hn => ?_⟩
    · refine State.flag_of_get ?_
      rw [State.get_set_apart _ _ _ _ _ (by decide) (by decide), hget _ _ (by decide)]
      exact hp
    · rw [State.vState, State.get_set_ne _ _ _ _ (by decide), hget _ _ (by decide)]
      exact h5
    · rw [State.set_axl, hv']
      rfl
    · rw [State.set_sec]
      exact hsec
    · rcases hn with hn | hn <;> simp [hn] at hc
  · rw [if_neg hc] at he
    exact ⟨w, he, State.flag_of_get hp, h5, fun h1 h2 => absurd (by rw [h1, h2]; rfl) hc, fun _ => hk.axl⟩

end trip

/-! ### The autostore ends -/

section autoEnd
variable {s : State}

/-- No autostore runs. -/
def State.stopAuto (s : State) : State := { s with axl := { s.axl with running := false, deferred := none, frozen := [] } }

theorem State.autoOver_none (h : s.axl.deferred = none) : s.autoOver = s.stopAuto.set R.AXL_STAT F.AXL_STAT_STATE 0 := by
  rw [State.autoOver, h]
  rfl

theorem State.autoOver_some {m : Nat} (h : s.axl.deferred = some m) :
    ∃ x : State, s.autoOver = x.coldSource m ∧ x.axl.running = false ∧ x.axl.deferred = none := by
  refine ⟨s.stopAuto.set R.AXL_STAT F.AXL_STAT_STATE 0, ?_, ?_, ?_⟩
  · rw [State.autoOver, h]
    rfl
  · rw [State.set_axl]
    rfl
  · rw [State.set_axl]
    rfl

theorem State.stopAuto_get (s : State) (a : Nat) (f : Bits) : s.stopAuto.get a f = s.get a f := rfl

theorem State.autoOver_spec (h : s.axl.deferred = none) : s.autoOver.axl.running = false ∧ s.autoOver.axl.session = s.axl.session ∧
    s.autoOver.axl.autoUs = s.axl.autoUs ∧ s.autoOver.get R.AXL_STAT F.AXL_STAT_STATE = 0 ∧
    s.autoOver.get R.AXL_HIST F.AXL_HIST_AUTOSTORE = s.get R.AXL_HIST F.AXL_HIST_AUTOSTORE := by
  rw [State.autoOver_none h, State.set_axl]
  refine ⟨rfl, rfl, rfl, State.get_set_fits _ _ _ (by decide) (by decide), ?_⟩
  rw [State.get_set_ne _ _ _ _ (by decide), State.stopAuto_get]

theorem State.storeFrozen_axlSame (s : State) (p : Nat × RecBody) : s.axlSame (s.storeFrozen p true) := by
  have hd (w : State) (k : Nat) : w.axlSame (w.dirty k) := .of_eq (by rw [State.dirty, State.set_axl])
  rw [State.storeFrozen]
  split
  · exact .of_eq rfl
  · rw [State.storeBody_ok _ _ _ (.inl rfl)]
    dsimp only
    split
    · exact s.writeRec_axlSame _ _ _
    · exact (s.writeRec_axlSame _ _ _).trans (hd _ _)

/-- The session is closed, with the duration of the autostore. -/
def State.closeAuto (s : State) (us : Nat) : State := { s with axl := { s.axl with session := false, autoUs := min 65535 us } }

/-- The state in which an autostore is over. -/
def State.autoStored (s : State) (fail : List Nat) (us : Nat) : State :=
  let w := (s.axl.frozen.foldl (fun (s : State) p => s.storeFrozen p (!fail.contains p.1)) s).closeAuto us
  ((w.set R.AXL_AUTO_TIME F.AXL_AUTO_TIME_TIME w.axl.autoUs).storeRec 15 (!fail.contains 15) (!fail.contains 15)).raise Hist.axl F.AXL_HIST_AUTOSTORE

variable {fail : List Nat} {us k : Nat}

theorem exec_autostoreEnd (h : s.axl.running = true) : exec (.autostoreEnd fail us) s = .next (s.autoStored fail us).autoOver :=
  congrArg Host.Outcome.next (if_neg (by simp [h]))

theorem autostoreEnd_ends (h : s.axl.running = true) : ∃ w : State, exec (.autostoreEnd fail us) s = .next w.autoOver ∧ w.get R.AXL_HIST F.AXL_HIST_AUTOSTORE = 1 :=
  ⟨_, exec_autostoreEnd h, State.get_raise _ Hist.axl _ rfl (by decide)⟩

theorem State.autoStored_axl (s : State) (us : Nat) : (s.autoStored [] us).axl.deferred = s.axl.deferred ∧ (s.autoStored [] us).axl.session = false ∧
    (s.autoStored [] us).axl.autoUs = min 65535 us := by
  obtain ⟨w, hw⟩ : ∃ w, w = s.axl.frozen.foldl (fun (s : State) p => s.storeFrozen p true) s := ⟨_, rfl⟩
  have hwk : s.axlSame w := hw ▸ State.axlSame.foldl State.storeFrozen_axlSame _ _
  obtain ⟨v, hv⟩ : ∃ v, v = (w.closeAuto us).set R.AXL_AUTO_TIME F.AXL_AUTO_TIME_TIME (w.closeAuto us).axl.autoUs := ⟨_, rfl⟩
  have hva : v.axl = { w.axl with session := false, autoUs := min 65535 us } := by
    rw [hv, State.set_axl]
    rfl
  have hx : s.autoStored [] us = (v.writeRec 15 (v.recBody 15) true).raise Hist.axl F.AXL_HIST_AUTOSTORE := by
    rw [← State.storeBody_ok v 15 (v.recBody 15) (first := true) (second := true) (.inl rfl), hv, hw]
    rfl
  obtain ⟨-, h2, h3, -, h5⟩ := (v.writeRec_axlSame 15 (v.recBody 15) true).fields
  obtain ⟨-, -, -, -, hd⟩ := hwk.fields
  rw [hx, State.raise_axl, h2, h3, h5, hva]
  exact ⟨hd, rfl, rfl⟩

theorem autostoreEnd_all (h : s.axl.running = true) (hd : s.axl.deferred = none) : ∃ u, exec (.autostoreEnd [] us) s = .next u ∧ u.axl.running = false ∧
    u.axl.session = false ∧ u.axl.autoUs = min 65535 us ∧ u.get R.AXL_HIST F.AXL_HIST_AUTOSTORE = 1 ∧ u.get R.AXL_STAT F.AXL_STAT_STATE = 0 := by
  obtain ⟨hk1, hk2, hk3⟩ := s.autoStored_axl us
  obtain ⟨h1, h2, h3, h4, h5⟩ := State.autoOver_spec (hk1.trans hd)
  exact ⟨_, exec_autostoreEnd h, h1, h2.trans hk2, h3.trans hk3, h5.trans (State.get_raise _ Hist.axl _ rfl (by decide)), h4⟩

/-- The hold-up supply collapsed after `k` records: the next one is cut short. -/
def State.cutAuto (s : State) (l : List (Nat × RecBody)) (k : Nat) : State :=
  match l[k]? with
  | some p => s.writeRec p.1 p.2 false
  | none => s

theorem State.cutAuto_axlSame (s : State) (l : List (Nat × RecBody)) (k : Nat) : s.axlSame (s.cutAuto l k) := by
  rw [State.cutAuto]
  cases l[k]? with
  | some p => exact s.writeRec_axlSame _ _ _
  | none => exact .of_eq rfl

theorem exec_vholdCollapse (h : s.axl.running = true) : exec (.vholdCollapse k) s =
    .next ((((s.axl.frozen.take k).foldl (fun (s : State) p => s.storeFrozen p true) s).cutAuto s.axl.frozen k).autoOver) := by
  refine congrArg Host.Outcome.next ((if_neg (by simp [h])).trans ?_)
  unfold State.cutAuto
  dsimp only <;> cases s.axl.frozen[k]? <;> rfl

theorem vholdCollapse_spec (h : s.axl.running = true) (hd : s.axl.deferred = none) : ∃ u, exec (.vholdCollapse k) s = .next u ∧ u.axl.running = false ∧
    u.axl.session = s.axl.session ∧ u.get R.AXL_STAT F.AXL_STAT_STATE = 0 := by
  obtain ⟨-, hs, -, -, hk⟩ := ((State.axlSame.foldl State.storeFrozen_axlSame (s.axl.frozen.take k) s).trans (State.cutAuto_axlSame _ s.axl.frozen k)).fields
  obtain ⟨h1, h2, -, h4, -⟩ := State.autoOver_spec (hk.trans hd)
  exact ⟨_, exec_vholdCollapse h, h1, h2.trans hs, h4⟩

theorem autostore_idle (h : s.axl.running = false) : exec (.autostoreEnd fail us) s = .next s ∧ exec (.vholdCollapse k) s = .next s :=
  ⟨congrArg Host.Outcome.next (if_pos (by simp [h])), congrArg Host.Outcome.next (if_pos (by simp [h]))⟩

end autoEnd

/-! ### Power returns -/

theorem pfailClear_spec (s : State) : (s.flag R.AXL_STAT F.AXL_STAT_PFAIL = false → exec .pfailClear s = .next s) ∧
    (s.flag R.AXL_STAT F.AXL_STAT_PFAIL = true → ∃ u, exec .pfailClear s = .next u ∧ u.flag R.AXL_STAT F.AXL_STAT_PFAIL = false ∧ u.vdd = s.vdd ∧
      u.vState = (if s.vState = 5 then (if s.lifecycle = 4 then 6 else if s.adaptive && s.hsf.raising.isSome then 3 else 0) else s.vState) ∧
      s.onlyRegs u [R.AXL_STAT, R.HSF_VSTAT]) := by
  refine ⟨fun h => congrArg Host.Outcome.next (if_neg (by simp [h])), fun h => ?_⟩
  obtain ⟨w, hw⟩ : ∃ w, w = s.set R.AXL_STAT F.AXL_STAT_PFAIL 0 := ⟨_, rfl⟩
  have hwk : s.onlyRegs w [R.AXL_STAT, R.HSF_VSTAT] := hw ▸ State.set_onlyRegs _ _ _ (.head _)
  have hv : w.vState = s.vState := by rw [hw, State.vState, State.get_set_ne _ _ _ _ (by decide)]; rfl
  have hvdd : w.vdd = s.vdd := by rw [hw, State.vdd, State.get_set_ne _ _ _ _ (by decide)]; rfl
  have hlc : w.lifecycle = s.lifecycle := hwk.get (by decide) _
  have had : w.adaptive = s.adaptive := by rw [State.adaptive, State.adaptive, State.flag, State.flag, hwk.get (by decide)]
  have hpf : w.get R.AXL_STAT F.AXL_STAT_PFAIL = 0 := by rw [hw]; exact State.get_set_fits _ _ _ (by decide) (by decide)
  have e : exec .pfailClear s = .next (if s.vState = 5 then w.setVState (if s.lifecycle = 4 then 6 else if s.adaptive && s.hsf.raising.isSome then 3 else 0) else w) := by
    rw [← hv, ← hlc, ← had, ← hwk.hsf, hw]
    exact congrArg Host.Outcome.next (if_pos h)
  by_cases h5 : s.vState = 5
  · rw [if_pos h5] at e
    refine ⟨_, e, ?_, (w.vdd_setVState _).trans hvdd, ?_, hwk.trans (State.set_onlyRegs _ _ _ (.tail _ (.head _)))⟩
    · exact State.flag_of_get0 ((State.get_set_ne _ _ _ _ (by decide)).trans hpf)
    · rw [if_pos h5]
      refine State.get_set_fits _ _ _ (by decide) ?_
      split
      · decide
      · split <;> decide
  · rw [if_neg h5] at e
    exact ⟨_, e, State.flag_of_get0 hpf, hvdd, by rw [if_neg h5, hv], hwk⟩

end Sys2Proof.Machine

/-! Arming, the control register, presets and the margin read (O54). -/
namespace Sys2Proof.Machine

/-! ### Arming (R388) -/

section arming
variable {s : State}

theorem State.armChange_onlyRegs (s s0 : State) : s.onlyRegs (s.armChange s0) [R.GLB_MODE_HIST] :=
  .ite (fun _ => .refl _ _) fun _ => State.raiseBit_onlyRegs _ _ _ (.head _)

theorem State.armChange_shows {s s0 : State} (h : s.armed ≠ s0.armed) : (s.armChange s0).get R.GLB_MODE_HIST F.GLB_MODE_HIST_AUTOSTORE_CHG = 1 := by
  rw [State.armChange, if_neg (by simpa using h)]
  exact State.get_raise _ (Hist.glbMode 1) F.GLB_MODE_HIST_AUTOSTORE_CHG rfl (by decide)

theorem State.armed_congr {s t : State} (h1 : t.get R.AXL_CTL F.AXL_CTL_ARM = s.get R.AXL_CTL F.AXL_CTL_ARM)
    (h2 : t.get R.AXL_STAT F.AXL_STAT_VHOLD_OK = s.get R.AXL_STAT F.AXL_STAT_VHOLD_OK) (h3 : t.lifecycle = s.lifecycle) : t.armed = s.armed := by
  rw [State.armed, State.armed, State.flag, State.flag, State.flag, State.flag, h1, h2, h3]

/-- The hold-up supply is good or not. -/
def State.setVhold (s : State) (v : Nat) : State := s.set R.AXL_STAT F.AXL_STAT_VHOLD_OK v

theorem State.setVhold_onlyRegs (s : State) (v : Nat) : s.onlyRegs (s.setVhold v) [R.AXL_STAT] := State.set_onlyRegs _ _ _ (.head _)

theorem State.setVhold_flag (s : State) {v : Nat} (h : v < 2) : (s.setVhold v).get R.AXL_STAT F.AXL_STAT_VHOLD_OK = v := State.get_set_fits _ _ _ (by decide) h

theorem State.setVhold_armed (s : State) {v : Nat} (h : v < 2) : (s.setVhold v).armed = (s.flag R.AXL_CTL F.AXL_CTL_ARM && decide (v = 1) && s.lifecycle != 4) := by
  have hk := s.setVhold_onlyRegs v
  have hv : (s.setVhold v).flag R.AXL_STAT F.AXL_STAT_VHOLD_OK = decide (v = 1) := by
    rw [State.flag, s.setVhold_flag h]
    rcases (by omega : v = 0 ∨ v = 1) with rfl | rfl <;> rfl
  rw [State.armed, hv, State.flag, State.flag, State.lifecycle, State.lifecycle, hk.get (by decide), hk.get (by decide)]

theorem vholdOkSet_spec (s : State) : ∃ u, exec .vholdOkSet s = .next u ∧ u.flag R.AXL_STAT F.AXL_STAT_VHOLD_OK = true ∧
    s.onlyRegs u [R.AXL_STAT, R.GLB_MODE_HIST] ∧
    (s.armed = false → s.flag R.AXL_CTL F.AXL_CTL_ARM = true → s.lifecycle ≠ 4 → u.armed = true ∧ u.get R.GLB_MODE_HIST F.GLB_MODE_HIST_AUTOSTORE_CHG = 1) := by
  obtain ⟨w, hw⟩ : ∃ w, w = s.setVhold 1 := ⟨_, rfl⟩
  have hk := w.armChange_onlyRegs s
  have hf : w.get R.AXL_STAT F.AXL_STAT_VHOLD_OK = 1 := hw ▸ s.setVhold_flag (by decide)
  refine ⟨w.armChange s, hw ▸ rfl, State.flag_of_get ((hk.get (by decide) _).trans hf), ?_, fun h0 ha hl => ?_⟩
  · rw [hw]
    exact .trans ((s.setVhold_onlyRegs 1).mono fun _ h => List.mem_append_left [R.GLB_MODE_HIST] h) ((State.armChange_onlyRegs _ s).mono fun _ h => .tail _ h)
  · have h1 : w.armed = true := by
      rw [hw, s.setVhold_armed (by decide), ha]
      simpa using hl
    refine ⟨?_, State.armChange_shows (by rw [h1, h0]; decide)⟩
    rw [State.armed_congr (hk.get (by decide) _) (hk.get (by decide) _) (hk.get (by decide) _), h1]

/-- The registers that stores of the safety records leave. -/
theorem State.storeSafety_rd (s : State) {a : Nat} (h6 : a ∉ recRegs 6) (h7 : a ∉ recRegs 7) : s.storeSafety.rd a = s.rd a := by
  have h (w : State) (k : Nat) (hk : a ∉ recRegs k) : (if w.isDirty k then w.storeRec k true true else w).rd a = w.rd a := by
    split
    · rw [State.storeRec, State.storeBody_ok _ _ _ (.inl rfl), State.writeRec_rd _ _ _ _ hk]
    · rfl
  rw [State.storeSafety]
  split
  · rfl
  · rw [List.foldl_cons, List.foldl_cons, List.foldl_nil, h _ _ h7, h _ _ h6]

/-- DISARMED shows a loss of the armed state. -/
def State.disarmShown (w s : State) : State := if s.flag R.AXL_CTL F.AXL_CTL_ARM && s.lifecycle != 4 then w.raise Hist.axl F.AXL_HIST_DISARMED else w

theorem State.disarmShown_onlyRegs (w s : State) : w.onlyRegs (w.disarmShown s) [R.AXL_HIST] :=
  .ite (fun _ => State.raise_onlyRegs _ Hist.axl _ (.head _)) fun _ => .refl _ _

theorem exec_vholdOkClear (h : s.flag R.AXL_STAT F.AXL_STAT_VHOLD_OK = true) : exec .vholdOkClear s = .next (
    if (((s.setVhold 0).armChange s).disarmShown s).flag R.AXL_STAT F.AXL_STAT_SRAM_VALID then (((s.setVhold 0).armChange s).disarmShown s).storeSafety
    else ((s.setVhold 0).armChange s).disarmShown s) := congrArg Host.Outcome.next (if_neg (by simp [h]))

theorem vholdOkClear_spec (h : s.flag R.AXL_STAT F.AXL_STAT_VHOLD_OK = true) : ∃ u, exec .vholdOkClear s = .next u ∧
    u.flag R.AXL_STAT F.AXL_STAT_VHOLD_OK = false ∧ u.armed = false ∧
    (s.flag R.AXL_CTL F.AXL_CTL_ARM = true → s.lifecycle ≠ 4 → u.get R.AXL_HIST F.AXL_HIST_DISARMED = 1 ∧ u.get R.GLB_MODE_HIST F.GLB_MODE_HIST_AUTOSTORE_CHG = 1) := by
  obtain ⟨w, hw⟩ : ∃ w, w = s.setVhold 0 := ⟨_, rfl⟩
  obtain ⟨v, hv⟩ : ∃ v, v = (w.armChange s).disarmShown s := ⟨_, rfl⟩
  have hk := w.armChange_onlyRegs s
  have hd : (w.armChange s).onlyRegs v [R.AXL_HIST] := hv ▸ State.disarmShown_onlyRegs _ s
  have hf : w.get R.AXL_STAT F.AXL_STAT_VHOLD_OK = 0 := hw ▸ s.setVhold_flag (by decide)
  have hx := exec_vholdOkClear h
  rw [← hw, ← hv] at hx
  have hu {a : Nat} (h6 : a ∉ recRegs 6) (h7 : a ∉ recRegs 7) (f : Bits) :
      (if v.flag R.AXL_STAT F.AXL_STAT_SRAM_VALID then v.storeSafety else v).get a f = v.get a f := by
    split
    · exact congrArg (getF f) (v.storeSafety_rd h6 h7)
    · rfl
  have hf' : (if v.flag R.AXL_STAT F.AXL_STAT_SRAM_VALID then v.storeSafety else v).get R.AXL_STAT F.AXL_STAT_VHOLD_OK = 0 := by
    rw [hu (by decide) (by decide), hd.get (by decide), hk.get (by decide), hf]
  refine ⟨_, hx, State.flag_of_get0 hf', ?_, fun ha hl => ⟨?_, ?_⟩⟩
  · rw [State.armed, State.flag_of_get0 hf', Bool.and_false, Bool.false_and]
  · rw [hu (by decide) (by decide), hv, State.disarmShown, if_pos (by simp [ha, hl])]
    exact State.get_raise _ Hist.axl _ rfl (by decide)
  · have hw0 : w.armed = false := by
      rw [hw, s.setVhold_armed (by decide)]
      simp
    have hs1 : s.armed = true := by
      rw [State.armed, ha, h]
      simpa using hl
    rw [hu (by decide) (by decide), hd.get (by decide)]
    exact State.armChange_shows (by rw [hw0, hs1]; decide)

end arming

/-! ### AXL_CTL (R379) -/

section control
variable {s : State} {v : Nat}

/-- ARM written 0 while signing-required mode is in force. -/
def State.disarmRefused (s : State) (v : Nat) : Bool := v % 2 == 0 && s.flag R.AXL_CTL F.AXL_CTL_ARM && s.signReq

/-- The value asked for in AXL_CTL. -/
def State.axlWant (s : State) (v : Nat) : State :=
  let want := s.set R.AXL_CTL F.AXL_CTL_RESTORE (v / 32 % 8)
  if s.disarmRefused v then want.modeRefused 2 else want.set R.AXL_CTL F.AXL_CTL_ARM (v % 2)

/-- The margin read enabled or not. -/
def State.setMargin (s : State) (v : Nat) : State := s.set R.AXL_CTL F.AXL_CTL_MARGIN_EN (v / 8 % 2)

theorem State.axlCtl_true (s : State) (v : Nat) : s.axlCtl v true = ((((s.setMargin v).axlWant v).storeRec 0 true true).armChange (s.setMargin v)).storeSafety := rfl

theorem State.axlCtl_false (s : State) (v : Nat) : s.axlCtl v false = (((((s.setMargin v).axlWant v).storeRec 0 false false).set R.AXL_CTL F.AXL_CTL_RESTORE
    ((s.setMargin v).get R.AXL_CTL F.AXL_CTL_RESTORE)).set R.AXL_CTL F.AXL_CTL_ARM ((s.setMargin v).get R.AXL_CTL F.AXL_CTL_ARM)) := rfl

theorem State.modeRefused_get (s : State) (c : Nat) {a : Nat} (f : Bits) (h1 : a ≠ R.GLB_MODE_REFUSE) (h2 : a ≠ R.GLB_MODE_HIST) :
    (s.modeRefused c).get a f = s.get a f := by
  rw [State.modeRefused, State.raiseMode, State.get, State.rd_raiseBit_ne _ _ _ h2, State.rd_set_ne _ _ _ h1]
  rfl

theorem State.axlWant_get (s : State) (v : Nat) : (s.axlWant v).get R.AXL_CTL F.AXL_CTL_RESTORE = v / 32 % 8 ∧
    (s.axlWant v).get R.AXL_CTL F.AXL_CTL_MARGIN_EN = s.get R.AXL_CTL F.AXL_CTL_MARGIN_EN ∧
    (s.axlWant v).get R.AXL_CTL F.AXL_CTL_ARM = if s.disarmRefused v then s.get R.AXL_CTL F.AXL_CTL_ARM else v % 2 := by
  have hr : (s.set R.AXL_CTL F.AXL_CTL_RESTORE (v / 32 % 8)).get R.AXL_CTL F.AXL_CTL_RESTORE = v / 32 % 8 :=
    State.get_set_fits _ _ _ (by decide) (show v / 32 % 8 < 8 by omega)
  rw [State.axlWant]
  split
  · rw [State.modeRefused_get _ _ _ (by decide) (by decide), State.modeRefused_get _ _ _ (by decide) (by decide), State.modeRefused_get _ _ _ (by decide) (by decide)]
    exact ⟨hr, State.get_set_apart _ _ _ _ _ (by decide) (by decide), State.get_set_apart _ _ _ _ _ (by decide) (by decide)⟩
  · exact ⟨(State.get_set_apart _ _ _ _ _ (by decide) (by decide)).trans hr,
      (State.get_set_apart _ _ _ _ _ (by decide) (by decide)).trans (State.get_set_apart _ _ _ _ _ (by decide) (by decide)),
      State.get_set_fits _ _ _ (by decide) (show v % 2 < 2 by omega)⟩

theorem exec_axlCtlWrite (hu : s.upFor R.AXL_CTL) (ok : Bool) : exec (.axlCtlWrite v ok) s = .next ((s.axlCtl v ok).afterWrite s) :=
  congrArg _ (State.byHost_upFor hu _)

/-- AXL_CTL after a write whose store is confirmed. -/
theorem State.axlCtl_true_get (s : State) (v : Nat) (f : Bits) : ((s.axlCtl v true).afterWrite s).get R.AXL_CTL f = ((s.setMargin v).axlWant v).get R.AXL_CTL f := by
  have h : ((s.axlCtl v true).afterWrite s).rd R.AXL_CTL = ((s.setMargin v).axlWant v).rd R.AXL_CTL := by
    rw [State.afterWrite_rd _ _ (by decide), State.axlCtl_true, State.storeSafety_rd _ (by decide) (by decide), (State.armChange_onlyRegs _ _).rd (by decide),
      State.storeRec, State.storeBody_ok _ _ _ (.inl rfl), State.writeRec_rd _ _ _ _ (by decide)]
  exact congrArg (getF f) h

theorem axlCtlWrite_confirmed (hu : s.upFor R.AXL_CTL) : ∃ u, exec (.axlCtlWrite v true) s = .next u ∧ u.get R.AXL_CTL F.AXL_CTL_RESTORE = v / 32 % 8 ∧
    u.get R.AXL_CTL F.AXL_CTL_MARGIN_EN = v / 8 % 2 ∧
      ((v % 2 = 1 ∨ s.flag R.AXL_CTL F.AXL_CTL_ARM = false ∨ s.signReq = false) → u.get R.AXL_CTL F.AXL_CTL_ARM = v % 2) ∧
      (v % 2 = 0 → s.flag R.AXL_CTL F.AXL_CTL_ARM = true → s.signReq = true → u.get R.AXL_CTL F.AXL_CTL_ARM = 1) := by
  obtain ⟨w, hw⟩ : ∃ w, w = s.setMargin v := ⟨_, rfl⟩
  have hwk : s.onlyRegs w [R.AXL_CTL] := hw ▸ State.set_onlyRegs _ _ _ (.head _)
  have harm : w.get R.AXL_CTL F.AXL_CTL_ARM = s.get R.AXL_CTL F.AXL_CTL_ARM := by
    rw [hw]
    exact State.get_set_apart _ _ _ _ _ (by decide) (by decide)
  have hmargin : w.get R.AXL_CTL F.AXL_CTL_MARGIN_EN = v / 8 % 2 := by
    rw [hw]
    exact State.get_set_fits _ _ _ (by decide) (show v / 8 % 2 < 2 by omega)
  have href : w.disarmRefused v = (v % 2 == 0 && s.flag R.AXL_CTL F.AXL_CTL_ARM && s.signReq) := by
    rw [State.disarmRefused, State.flag, State.flag, harm, State.signReq, State.signReq, State.flag, State.flag, hwk.get (by decide)]
  obtain ⟨h1, h2, h3⟩ := w.axlWant_get v
  rw [href, harm] at h3
  have hg (f : Bits) : ((s.axlCtl v true).afterWrite s).get R.AXL_CTL f = (w.axlWant v).get R.AXL_CTL f := by rw [hw, s.axlCtl_true_get]
  refine ⟨_, exec_axlCtlWrite hu true, (hg _).trans h1, (hg _).trans (h2.trans hmargin), fun h => (hg _).trans (h3.trans (if_neg ?_)),
    fun h0 ha hs => (hg _).trans (h3.trans ((if_pos ?_).trans ?_))⟩
  · rcases h with h | h | h <;> simp [h]
  · rw [h0, ha, hs]
    rfl
  · have h2 : s.get R.AXL_CTL F.AXL_CTL_ARM < 2 := State.get_lt s _ _
    have h0 : s.get R.AXL_CTL F.AXL_CTL_ARM ≠ 0 := by simpa [State.flag] using ha
    omega

theorem axlCtlWrite_unconfirmed (hu : s.upFor R.AXL_CTL) : ∃ u, exec (.axlCtlWrite v false) s = .next u ∧
    u.get R.AXL_CTL F.AXL_CTL_RESTORE = s.get R.AXL_CTL F.AXL_CTL_RESTORE ∧ u.get R.AXL_CTL F.AXL_CTL_ARM = s.get R.AXL_CTL F.AXL_CTL_ARM := by
  have hr : (s.setMargin v).get R.AXL_CTL F.AXL_CTL_RESTORE = s.get R.AXL_CTL F.AXL_CTL_RESTORE := State.get_set_apart _ _ _ _ _ (by decide) (by decide)
  have ha : (s.setMargin v).get R.AXL_CTL F.AXL_CTL_ARM = s.get R.AXL_CTL F.AXL_CTL_ARM := State.get_set_apart _ _ _ _ _ (by decide) (by decide)
  have hg (f : Bits) : ((s.axlCtl v false).afterWrite s).get R.AXL_CTL f = (s.axlCtl v false).get R.AXL_CTL f := congrArg (getF f) (State.afterWrite_rd _ _ (by decide))
  refine ⟨_, exec_axlCtlWrite hu false, ?_, ?_⟩
  · rw [hg, State.axlCtl_false, hr, ha, State.get_set_apart _ _ _ _ _ (by decide) (by decide)]
    exact State.get_set_fits _ _ _ (by decide) (State.get_lt _ _ _)
  · rw [hg, State.axlCtl_false, hr, ha]
    exact State.get_set_fits _ _ _ (by decide) (State.get_lt _ _ _)

end control

/-! ### Presets (R392) -/

section preset
variable {s : State} {v : Nat} {ok : Bool}

/-- The presets of the store. -/
def State.setPresets (s : State) (l : Tab (List SavedRoute)) : State := { s with axl := { s.axl with presets := l } }

theorem State.setPresets_presets (s : State) (l : Tab (List SavedRoute)) : (s.setPresets l).axl.presets = l := rfl

theorem exec_presetCapture (hu : s.upFor R.AXL_PRESET) : exec (.presetCapture v ok) s = .next (s.presetCapture v ok) := congrArg _ (State.byHost_upFor hu _)

theorem State.presetCapture_eq (s : State) (h : v / 2 ^ 31 % 2 = 1) : s.presetCapture v ok =
    if ok then (((s.setPresets (tabSet [] s.axl.presets (v % 4) s.saveRoutes)).dirty (9 + v % 4)).storeRec (9 + v % 4) ok ok).raise Hist.axl F.AXL_HIST_CAPTURED
    else (((s.setPresets (tabSet [] s.axl.presets (v % 4) s.saveRoutes)).dirty (9 + v % 4)).storeRec (9 + v % 4) ok ok).setPresets s.axl.presets :=
  if_neg (by omega)

theorem presetCapture_captured (hu : s.upFor R.AXL_PRESET) (h : v / 2 ^ 31 % 2 = 1) (hok : ok = true) : ∃ u, exec (.presetCapture v ok) s = .next u ∧
    tabGet [] u.axl.presets (v % 4) = s.saveRoutes ∧ u.get R.AXL_HIST F.AXL_HIST_CAPTURED = 1 ∧
    ∀ p, p ≠ v % 4 → tabGet [] u.axl.presets p = tabGet [] s.axl.presets p := by
  subst hok
  obtain ⟨w, hw⟩ : ∃ w, w = (s.setPresets (tabSet [] s.axl.presets (v % 4) s.saveRoutes)).dirty (9 + v % 4) := ⟨_, rfl⟩
  have hwp : w.axl.presets = tabSet [] s.axl.presets (v % 4) s.saveRoutes := by
    rw [hw, State.dirty, State.set_axl]
    rfl
  obtain ⟨-, -, -, hp, -⟩ := (w.writeRec_axlSame (9 + v % 4) (w.recBody (9 + v % 4)) true).fields
  have he : s.presetCapture v true = (w.writeRec (9 + v % 4) (w.recBody (9 + v % 4)) true).raise Hist.axl F.AXL_HIST_CAPTURED := by
    rw [State.presetCapture_eq s h, if_pos rfl, ← hw, State.storeRec, State.storeBody_ok _ _ _ (.inl rfl)]
  refine ⟨_, exec_presetCapture hu, ?_, ?_, fun p hne => ?_⟩
  · rw [he, State.raise_axl, hp, hwp]
    exact tabGet_set_self [] s.axl.presets (v % 4) s.saveRoutes
  · rw [he]
    exact State.get_raise _ Hist.axl _ rfl (by decide)
  · rw [he, State.raise_axl, hp, hwp]
    exact tabGet_set_ne [] [] s.axl.presets s.saveRoutes hne

theorem presetCapture_kept (hu : s.upFor R.AXL_PRESET) (h : v / 2 ^ 31 % 2 = 1) (hok : ok = false) :
    ∃ u, exec (.presetCapture v ok) s = .next u ∧ u.axl.presets = s.axl.presets := by
  subst hok
  refine ⟨_, exec_presetCapture hu, ?_⟩
  rw [State.presetCapture_eq s h, if_neg Bool.false_ne_true, State.setPresets_presets]

theorem presetCapture_none (hu : s.upFor R.AXL_PRESET) (h : v / 2 ^ 31 % 2 = 0) : exec (.presetCapture v ok) s = .next s :=
  (exec_presetCapture hu).trans (congrArg _ (if_pos h))

end preset

/-! ### The margin read (R387) -/

section margin
variable {s : State} {weak l : List (Nat × Bool)}

theorem marginRead_none (h : s.flag R.AXL_CTL F.AXL_CTL_MARGIN_EN = false ∨ s.isReady = false ∨ s.axl.running = true ∨ s.lifecycle = 4) :
    exec (.marginRead weak) s = .next s := congrArg Host.Outcome.next (if_pos (by rcases h with h | h | h | h <;> simp [h]))

/-- A weak copy of record `k` was found. -/
def hasWeak (l : List (Nat × Bool)) (k : Nat) : Bool := l.any fun w => w.1 == k

theorem hasWeak_iff (l : List (Nat × Bool)) (k : Nat) : hasWeak l k = true ↔ ∃ w ∈ l, w.1 = k := by
  simp [hasWeak, List.any_eq_true]

/-- The weak copies marked. -/
def State.markWeak (s : State) (l : List (Nat × Bool)) : State :=
  (List.range 81).foldl (fun (s : State) k => s.setB (R.AXL_REC_STAT k) F.AXL_REC_STAT_WEAK (hasWeak l k)) s

/-- A record with a weak copy is stored once. -/
def State.fixWeak (s : State) (l : List (Nat × Bool)) (k : Nat) : State :=
  if hasWeak l k then (s.storeRec k true true).raise Hist.axl F.AXL_HIST_WEAK_FIXED else s

theorem exec_marginRead (hm : s.flag R.AXL_CTL F.AXL_CTL_MARGIN_EN = true) (hr : s.isReady = true) (ha : s.axl.running = false) (hl : s.lifecycle ≠ 4)
    (h : l = weak.eraseDups.filter (fun w => (s.copy? w.1 (if w.2 then 1 else 0)).isSome)) :
    exec (.marginRead weak) s = .next ((List.range 81).foldl (fun (s : State) k => s.fixWeak l k) ((s.markWeak l).count R.AXL_WEAK_CNT l.length)) := by
  subst h
  exact congrArg Host.Outcome.next (if_neg (by simp [hm, hr, ha, hl]))

theorem State.markWeak_rd (s : State) (l : List (Nat × Bool)) {a : Nat} (h : ∀ k, a ≠ R.AXL_REC_STAT k) : (s.markWeak l).rd a = s.rd a :=
  State.rd_foldl (fun _ _ _ => State.rd_setB_ne _ _ _ (h _)) s

theorem State.markWeak_get (s : State) (l : List (Nat × Bool)) {k : Nat} (hk : k ≤ 80) :
    (s.markWeak l).get (R.AXL_REC_STAT k) F.AXL_REC_STAT_WEAK = if hasWeak l k then 1 else 0 := by
  rw [State.markWeak]
  refine (State.get_foldl_set (val := fun _ k => if hasWeak l k then 1 else 0) (by decide) List.nodup_range
    (fun i _ j _ hij h => hij (AXL_REC_STAT_inj h)) (fun _ _ _ _ _ _ => rfl) s (List.mem_range.mpr (by omega))).trans ?_
  split <;> rfl

theorem State.fixWeak_rd (s : State) (l : List (Nat × Bool)) (k : Nat) {a : Nat} (h : a ∉ recRegs k) (h2 : a ≠ R.AXL_HIST) : (s.fixWeak l k).rd a = s.rd a := by
  rw [State.fixWeak]
  split
  · rw [State.rd_raise_ne _ Hist.axl _ h2, State.storeRec, State.storeBody_ok _ _ _ (.inl rfl), State.writeRec_rd _ _ _ _ h]
  · rfl

theorem State.fixWeak_weak (s : State) (l : List (Nat × Bool)) (k j : Nat) :
    (s.fixWeak l k).get (R.AXL_REC_STAT j) F.AXL_REC_STAT_WEAK = s.get (R.AXL_REC_STAT j) F.AXL_REC_STAT_WEAK := by
  rw [State.fixWeak]
  split
  · rw [State.get_raise_ne _ Hist.axl _ _ (by change R.AXL_REC_STAT j ≠ R.AXL_HIST; unfold R.AXL_REC_STAT R.AXL_HIST; omega), State.storeRec,
      State.storeBody_ok _ _ _ (.inl rfl), State.writeRec_weak]
  · rfl

theorem State.fixWeak_fixed (s : State) (l : List (Nat × Bool)) (k : Nat) (h : hasWeak l k = true ∨ s.get R.AXL_HIST F.AXL_HIST_WEAK_FIXED = 1) :
    (s.fixWeak l k).get R.AXL_HIST F.AXL_HIST_WEAK_FIXED = 1 := by
  rw [State.fixWeak]
  by_cases hk : hasWeak l k = true
  · rw [if_pos hk]
    exact State.get_raise _ Hist.axl _ rfl (by decide)
  · rw [if_neg hk]
    exact h.resolve_left hk

/-- WEAK_FIXED sets with the first record stored and stays. -/
theorem State.fixAll_fixed (l : List (Nat × Bool)) (xs : List Nat) (s : State) (h : (∃ k ∈ xs, hasWeak l k = true) ∨ s.get R.AXL_HIST F.AXL_HIST_WEAK_FIXED = 1) :
    (xs.foldl (fun (s : State) k => s.fixWeak l k) s).get R.AXL_HIST F.AXL_HIST_WEAK_FIXED = 1 := by
  induction xs generalizing s with
  | nil => simpa using h
  | cons x xs ih =>
    refine ih (s.fixWeak l x) ?_
    rcases h with ⟨k, hk, hw⟩ | h
    · rcases List.mem_cons.mp hk with rfl | hk
      · exact .inr (s.fixWeak_fixed l k (.inl hw))
      · exact .inl ⟨k, hk, hw⟩
    · exact .inr (s.fixWeak_fixed l x (.inr h))

theorem marginRead_spec (hm : s.flag R.AXL_CTL F.AXL_CTL_MARGIN_EN = true) (hr : s.isReady = true) (ha : s.axl.running = false) (hl : s.lifecycle ≠ 4)
    (h : l = weak.eraseDups.filter (fun w => (s.copy? w.1 (if w.2 then 1 else 0)).isSome)) : ∃ u, exec (.marginRead weak) s = .next u ∧
      (u.rd R.AXL_WEAK_CNT).toNat = min 0xFFFFFFFF ((s.rd R.AXL_WEAK_CNT).toNat + l.length) ∧
      (∀ k ≤ 80, (u.flag (R.AXL_REC_STAT k) F.AXL_REC_STAT_WEAK = true ↔ ∃ w ∈ l, w.1 = k)) ∧ ((∃ w ∈ l, w.1 ≤ 80) → u.get R.AXL_HIST F.AXL_HIST_WEAK_FIXED = 1) := by
  have hstat (k : Nat) : R.AXL_WEAK_CNT ≠ R.AXL_REC_STAT k := by unfold R.AXL_WEAK_CNT R.AXL_REC_STAT; omega
  have hrec (k : Nat) : R.AXL_WEAK_CNT ∉ recRegs k := by
    simp only [recRegs, List.mem_cons, List.not_mem_nil, or_false]
    unfold R.AXL_WEAK_CNT R.AXL_STORE_CNT R.AXL_REC_STAT R.AXL_REC_SEQ
    omega
  refine ⟨_, exec_marginRead hm hr ha hl h, ?_, fun k hk => ?_, fun ⟨w, hw, hk⟩ => State.fixAll_fixed _ _ _ (.inl ⟨w.1, List.mem_range.mpr (by omega), (hasWeak_iff _ _).mpr ⟨w, hw, rfl⟩⟩)⟩
  · rw [State.rd_foldl (fun _ _ _ => State.fixWeak_rd _ _ _ (hrec _) (by decide)), State.count, State.rd_wr_self, s.markWeak_rd l hstat, BitVec.toNat_ofNat]
    omega
  · have hx (xs : List Nat) (t : State) : (xs.foldl (fun (s : State) k => s.fixWeak l k) t).get (R.AXL_REC_STAT k) F.AXL_REC_STAT_WEAK =
        t.get (R.AXL_REC_STAT k) F.AXL_REC_STAT_WEAK := by
      induction xs generalizing t with
      | nil => rfl
      | cons x xs ih => rw [List.foldl_cons, ih, State.fixWeak_weak]
    have hc : ((s.markWeak l).count R.AXL_WEAK_CNT l.length).get (R.AXL_REC_STAT k) F.AXL_REC_STAT_WEAK = if hasWeak l k then 1 else 0 := by
      rw [State.get, State.count, State.rd_wr_ne _ _ (hstat k).symm]
      exact s.markWeak_get l hk
    rw [State.flag, hx, hc, ← hasWeak_iff]
    split <;> simp_all

end margin

/-- Settles O54: what a store of a record writes is said once, and every command of the store is followed through it. -/
theorem axolotlStore : Obligations.AxolotlStore := by
  unfold Obligations.AxolotlStore
  refine ⟨fun s k a b => ⟨recordStore_none, fun hk hv hl h q hq => ?_⟩, fun s t => ⟨fun h => congrArg Host.Outcome.next (if_pos h), powerFailTrip_spec⟩,
    fun s fail us k => ⟨autostore_idle, fun h => ⟨autostoreEnd_ends h, autostoreEnd_all h, vholdCollapse_spec h⟩⟩, fun w m => State.autoOver_some, pfailClear_spec,
    fun s => ⟨vholdOkSet_spec s, fun h => congrArg Host.Outcome.next (if_pos (by simp [h])), vholdOkClear_spec⟩,
    fun s v hu => ⟨axlCtlWrite_confirmed hu, axlCtlWrite_unconfirmed hu⟩,
    fun s v ok hu => ⟨presetCapture_none hu, presetCapture_captured hu, presetCapture_kept hu⟩,
    fun s weak l => ⟨marginRead_none, marginRead_spec⟩⟩
  have hn : (h, q) = s.nextCopy k := hq.trans (by unfold State.nextCopy; cases s.newestCopy k <;> rfl)
  exact ⟨recordStore_stores hk hv hl hn, recordStore_fails hk hv hl hn⟩

end Sys2Proof.Machine

/-! The twin's role, epoch and SYNC: what each change of them sets, and what it leaves. -/
namespace Sys2Proof.Machine

theorem nextEpoch_lt (e : Nat) : nextEpoch e < 2 ^ 32 := by
  rw [nextEpoch]
  split <;> omega

section twin
variable (s : State)

/-! ### The role -/

theorem State.raiseMode_get (f g : Bits) {a : Nat} (ha : a ≠ R.GLB_MODE_HIST) : (s.raiseMode f).get a g = s.get a g :=
  (State.raiseBit_onlyRegs s _ _ (l := [R.GLB_MODE_HIST]) (.head _)).get (by simpa using ha) g

theorem State.setRole_get (r : Nat) {g : Bits} (hg : F.MATE_STAT_ROLE.apart g) : (s.setRole r).get R.MATE_STAT g = s.get R.MATE_STAT g := by
  rw [State.setRole]
  split
  · rfl
  · rw [State.raiseMode_get _ _ _ (by decide), State.get_set_apart _ _ _ _ _ (by decide) hg]

theorem State.setRole_role {r : Nat} (hr : r < 4) : (s.setRole r).role = r := by
  unfold State.setRole
  split
  case isTrue h => exact h
  case isFalse =>
    rw [State.role, State.raiseMode_get _ _ _ (by decide)]
    exact State.get_set_fits _ _ _ (by decide) hr

/-! ### The epoch -/

theorem State.setEpoch_epoch {e : Nat} (he : e < 2 ^ 32) : (s.setEpoch e).epoch = e := by
  rw [State.epoch, State.setEpoch, State.change_rd _ _ (by decide), State.rd_wr_self]
  exact Nat.mod_eq_of_lt he

theorem State.setEpoch_get (e : Nat) {a : Nat} (f : Bits) (h : a ∉ recRegs 0) (h1 : a ≠ R.MATE_EPOCH) : (s.setEpoch e).get a f = s.get a f := by
  rw [State.get, State.setEpoch_rd _ _ h h1]
  rfl

theorem State.setEpoch_stat (e : Nat) (f : Bits) : (s.setEpoch e).get R.MATE_STAT f = s.get R.MATE_STAT f :=
  s.setEpoch_get e f (by decide) (by decide)

/-! ### SYNC and CHANGEOVER_READY -/

theorem State.readyFall_onlyRegs : s.onlyRegs s.readyFall [R.MATE_STAT, R.MATE_HIST] :=
  .ite (fun _ => (s.set_onlyRegs _ _ (.head _)).trans (State.raise_onlyRegs _ Hist.mate _ (.tail _ (.head _)))) fun _ => .refl ..

theorem State.readyFall_get {g : Bits} (hg : F.MATE_STAT_CHANGEOVER_READY.apart g) : s.readyFall.get R.MATE_STAT g = s.get R.MATE_STAT g := by
  rw [State.readyFall]
  split
  · rw [State.get_raise_ne _ Hist.mate _ _ (by decide), State.get_set_apart _ _ _ _ _ (by decide) hg]
  · rfl

theorem State.readyFall_ready : s.readyFall.flag R.MATE_STAT F.MATE_STAT_CHANGEOVER_READY = false := by
  rw [State.readyFall]
  split
  case isTrue =>
    refine State.flag_of_get0 ?_
    rw [State.get_raise_ne _ Hist.mate _ _ (by decide)]
    exact State.get_set_fits _ _ _ (by decide) (by decide)
  case isFalse h => simpa using h

theorem State.setSync_onlyRegs (v : Nat) : s.onlyRegs (s.setSync v) [R.MATE_STAT, R.MATE_HIST] :=
  .ite (fun _ => s.set_onlyRegs _ _ (.head _)) fun _ => (s.set_onlyRegs _ _ (.head _)).trans (State.readyFall_onlyRegs _)

theorem State.setSync_get (v : Nat) {g : Bits} (h1 : F.MATE_STAT_SYNC.apart g) (h2 : F.MATE_STAT_CHANGEOVER_READY.apart g) :
    (s.setSync v).get R.MATE_STAT g = s.get R.MATE_STAT g := by
  rw [State.setSync]
  split
  · exact State.get_set_apart _ _ _ _ _ (by decide) h1
  · rw [State.readyFall_get _ h2, State.get_set_apart _ _ _ _ _ (by decide) h1]

theorem State.setSync_sync {v : Nat} (hv : v < 4) : (s.setSync v).sync = v := by
  have h : (s.set R.MATE_STAT F.MATE_STAT_SYNC v).sync = v := State.get_set_fits _ _ _ (by decide) hv
  rw [State.setSync]
  split
  · exact h
  · rw [State.sync, State.readyFall_get _ (by decide)]
    exact h

/-! ### A role that comes with a new epoch -/

theorem State.roleEpoch_spec {e r : Nat} (he : e < 2 ^ 32) (hr : r < 4) :
    ((s.setEpoch e).setRole r).role = r ∧ ((s.setEpoch e).setRole r).epoch = e := by
  refine ⟨State.setRole_role _ hr, ?_⟩
  rw [State.epoch, State.setRole_rd _ _ (by decide) (by decide)]
  exact s.setEpoch_epoch he

/-! ### Acknowledgements that nobody waits for any more -/

theorem State.clearAwait_get {a : Nat} (f : Bits) (h1 : a ≠ R.LVP_TAKE_CNT) (h2 : a ≠ R.LVP_HIST) (h3 : a ≠ R.XPT_STAT) :
    s.clearAwait.get a f = s.get a f := by
  rw [State.get, State.clearAwait_rd _ h1 h2 h3]
  rfl

theorem State.dropDiscarded_mate : s.dropDiscarded.mate = s.mate :=
  (State.dropDiscarded_kept (.refl [.regs, .host] s) (Sub.self _)).2.2 .mate (by decide)

theorem State.lvTakesDone_mate : s.lvTakesDone.mate = s.mate :=
  (State.lvTakesDone_kept (.refl [.regs, .vec, .lv] s) (Sub.self _)).2.2 .mate (by decide)

theorem State.clearAwait_mate : s.clearAwait.mate = { s.mate with await := [], fwdRfn := [], fwdHold := [] } := by
  rw [State.clearAwait, State.lvTakesDone_mate, State.dropDiscarded_mate]

/-- Only discarded completions go. -/
theorem State.dropDiscarded_cpls : (∃ p : Cpl → Bool, s.dropDiscarded.host.cpls = s.host.cpls.filter p ∧ ∀ c, c.ring ≠ noRing → p c = true) ∧
    s.dropDiscarded.host.ops = s.host.ops := by
  unfold State.dropDiscarded
  split
  · rw [(State.leapRateCheck_onlyRegs _).host_eq]
    exact ⟨⟨_, rfl, fun c hc => by simp [hc]⟩, rfl⟩
  · exact ⟨⟨fun _ => true, by simp, fun _ _ => rfl⟩, rfl⟩

theorem State.clearAwait_cpls : (∃ p : Cpl → Bool, s.clearAwait.host.cpls = s.host.cpls.filter p ∧ ∀ c, c.ring ≠ noRing → p c = true) ∧
    s.clearAwait.host.ops = s.host.ops := by
  obtain ⟨w, hw⟩ : ∃ w : State, w = { s with mate := { s.mate with await := [], fwdRfn := [], fwdHold := [] } } := ⟨_, rfl⟩
  have hl := (State.lvTakesDone_kept (.refl [.regs, .vec, .lv] w.dropDiscarded) (Sub.self _)).hostSame (by decide)
  obtain ⟨h1, h2, -⟩ := hl
  obtain ⟨⟨p, hp, hk⟩, ho⟩ := w.dropDiscarded_cpls
  rw [State.clearAwait, ← hw, h1, h2, hp, ho, hw]
  exact ⟨⟨p, rfl, hk⟩, rfl⟩

end twin

end Sys2Proof.Machine

/-! Pairing, detaching and hand-over (R397 to R400, R405, R406). -/
namespace Sys2Proof.Machine

/-! ### A refused pairing, a pair that forms, a pair that ends -/

section ops
variable (s : State)

theorem State.pairFail_fields {why : Nat} (hw : why < 256) : (s.pairFail why).get R.MATE_STAT F.MATE_STAT_FAIL_WHY = why ∧
    (s.pairFail why).get R.MATE_HIST F.MATE_HIST_PAIR_FAIL = 1 ∧ (s.pairFail why).role = s.role := by
  refine ⟨?_, State.get_raise _ Hist.mate _ rfl (by decide), ?_⟩
  · rw [State.pairFail, State.get_raise_ne _ Hist.mate _ _ (by decide)]
    exact State.get_set_fits _ _ _ (by decide) hw
  · rw [State.role, State.pairFail, State.get_raise_ne _ Hist.mate _ _ (by decide), State.get_set_apart _ _ _ _ _ (by decide) (by decide)]
    rfl

theorem State.modeRefused_code {c : Nat} (hc : c < 256) : (s.modeRefused c).get R.GLB_MODE_REFUSE F.GLB_MODE_REFUSE_CODE = c := by
  rw [State.modeRefused, State.raiseMode_get _ _ _ (by decide)]
  exact State.get_set_fits _ _ _ (by decide) hc

theorem State.pairRefused_fields {why : Nat} (hw : why < 256) : (s.pairRefused why).get R.MATE_STAT F.MATE_STAT_FAIL_WHY = why ∧
    (s.pairRefused why).get R.MATE_HIST F.MATE_HIST_PAIR_FAIL = 1 ∧ (s.pairRefused why).role = s.role ∧
    (why = 6 → (s.pairRefused why).get R.GLB_MODE_REFUSE F.GLB_MODE_REFUSE_CODE = 4) := by
  obtain ⟨h1, h2, h3⟩ := (if why = 6 then s.modeRefused 4 else s).pairFail_fields hw
  refine ⟨h1, h2, h3.trans ?_, fun h => ?_⟩
  · split
    · exact s.modeRefused_get 4 _ (by decide) (by decide)
    · rfl
  · rw [State.pairRefused, if_pos h, State.pairFail, State.get_raise_ne _ Hist.mate _ _ (by decide), State.get_set_ne _ _ _ _ (by decide)]
    exact s.modeRefused_code (by decide)

theorem State.pairWhy_lt (p : Partner) (o : Bool) : s.pairWhy p o < 256 := by
  unfold State.pairWhy
  split
  · decide
  · repeat' (first | decide | split)

/-- What the twin keeps, afresh with a new pair. -/
def State.pairMate (s : State) : State :=
  { s with mate := { s.mate with
    linkLost := false, restart := false, promote := false, fwdSeen := [], fwdHold := []
    sbLost := !s.flag R.MATE_STAT F.MATE_STAT_SB_ALIVE } }

theorem State.pairMate_rd (a : Nat) : s.pairMate.rd a = s.rd a := rfl

theorem State.pairMate_get (a : Nat) (f : Bits) : s.pairMate.get a f = s.get a f := rfl

theorem State.pairUp_eq (p : Partner) (r : Nat) : s.pairUp p r = (((((s.setEpoch (nextEpoch (max s.epoch p.epoch))).setRole r).set R.MATE_PARTNER
    F.MATE_PARTNER_DEVNUM p.devnum).setSync 1).pairMate).raise Hist.mate F.MATE_HIST_PAIR_OK := rfl

theorem State.pairUp_spec (p : Partner) {r : Nat} (hr : r < 4) : (s.pairUp p r).role = r ∧ (s.pairUp p r).epoch = nextEpoch (max s.epoch p.epoch) ∧
    (s.pairUp p r).sync = 1 ∧ (s.pairUp p r).get R.MATE_HIST F.MATE_HIST_PAIR_OK = 1 := by
  obtain ⟨h1, h2⟩ := s.roleEpoch_spec (nextEpoch_lt (max s.epoch p.epoch)) hr
  rw [State.pairUp_eq]
  generalize (s.setEpoch (nextEpoch (max s.epoch p.epoch))).setRole r = w at h1 h2 ⊢
  refine ⟨?_, ?_, ?_, State.get_raise _ Hist.mate _ rfl (by decide)⟩
  · rw [State.role, State.get_raise_ne _ Hist.mate _ _ (by decide), State.pairMate_get, State.setSync_get _ _ (by decide) (by decide),
      State.get_set_ne _ _ _ _ (by decide)]
    exact h1
  · rw [State.epoch, State.rd_raise_ne _ Hist.mate _ (by decide), State.pairMate_rd, State.setSync_rd _ _ (by decide) (by decide),
      State.rd_set_ne _ _ _ (by decide)]
    exact h2
  · rw [State.sync, State.get_raise_ne _ Hist.mate _ _ (by decide), State.pairMate_get]
    exact State.setSync_sync _ (by decide)

/-- What the twin keeps, without what a pair alone has. -/
def State.soloMate (s : State) : State := { s with mate := { s.mate with promote := false, restart := false } }

theorem State.soloMate_rd (a : Nat) : s.soloMate.rd a = s.rd a := rfl

theorem State.soloMate_get (a : Nat) (f : Bits) : s.soloMate.get a f = s.get a f := rfl

theorem State.soloMate_host : s.soloMate.host = s.host := rfl

/-- SOLO, with no condition of a pair. -/
def State.solo (s : State) : State := ((s.set R.MATE_STAT F.MATE_STAT_ISOLATED 0).set R.MATE_STAT F.MATE_STAT_PARTNER_LOST 0).setSync 0

theorem State.solo_spec : s.solo.role = s.role ∧ s.solo.epoch = s.epoch ∧ s.onlyRegs s.solo [R.MATE_STAT, R.MATE_HIST] := by
  refine ⟨?_, ?_, ((s.set_onlyRegs _ _ (.head _)).trans (State.set_onlyRegs _ _ _ (.head _))).trans (State.setSync_onlyRegs _ _)⟩
  · rw [State.role, State.solo, State.setSync_get _ _ (by decide) (by decide), State.get_set_apart _ _ _ _ _ (by decide) (by decide),
      State.get_set_apart _ _ _ _ _ (by decide) (by decide)]
    rfl
  · rw [State.epoch, State.solo, State.setSync_rd _ _ (by decide) (by decide), State.rd_set_ne _ _ _ (by decide), State.rd_set_ne _ _ _ (by decide)]
    rfl

theorem State.detach_eq (h : s.role ≠ 0) :
    s.detach = (((s.setEpoch (nextEpoch s.epoch)).setRole 0).solo.soloMate.clearAwait).raise Hist.mate F.MATE_HIST_DETACHED := if_neg h

/-- The end of a detach, from the state in which the role and the epoch are the new ones. -/
theorem State.detachEnd_spec (w : State) : ((w.soloMate.clearAwait).raise Hist.mate F.MATE_HIST_DETACHED).role = w.role ∧
    ((w.soloMate.clearAwait).raise Hist.mate F.MATE_HIST_DETACHED).epoch = w.epoch ∧
    ((w.soloMate.clearAwait).raise Hist.mate F.MATE_HIST_DETACHED).mate.await = [] ∧
    ((w.soloMate.clearAwait).raise Hist.mate F.MATE_HIST_DETACHED).host.ops = w.host.ops ∧
    ∃ p : Cpl → Bool, ((w.soloMate.clearAwait).raise Hist.mate F.MATE_HIST_DETACHED).host.cpls = w.host.cpls.filter p ∧
      ∀ c, c.ring ≠ noRing → p c = true := by
  obtain ⟨⟨p, hp, hq⟩, ho⟩ := w.soloMate.clearAwait_cpls
  have hx : (w.soloMate.clearAwait.raise Hist.mate F.MATE_HIST_DETACHED).host.cpls = w.soloMate.clearAwait.host.cpls ∧
      (w.soloMate.clearAwait.raise Hist.mate F.MATE_HIST_DETACHED).host.ops = w.soloMate.clearAwait.host.ops := by
    rw [(State.raise_onlyRegs w.soloMate.clearAwait Hist.mate F.MATE_HIST_DETACHED (.head [])).host_eq]
    exact ⟨rfl, rfl⟩
  refine ⟨?_, ?_, ?_, ?_, p, ?_, hq⟩
  · rw [State.role, State.get_raise_ne _ Hist.mate _ _ (by decide), State.clearAwait_get _ _ (by decide) (by decide) (by decide), State.soloMate_get]
    rfl
  · rw [State.epoch, State.rd_raise_ne _ Hist.mate _ (by decide), State.clearAwait_rd _ (by decide) (by decide) (by decide), State.soloMate_rd]
    rfl
  · rw [State.raise_mate, State.clearAwait_mate]
  · rw [hx.2, ho, State.soloMate_host]
  · rw [hx.1, hp, State.soloMate_host]

theorem State.detach_spec (h : s.role ≠ 0) : s.detach.role = 0 ∧ s.detach.epoch = nextEpoch s.epoch ∧
    s.detach.get R.MATE_HIST F.MATE_HIST_DETACHED = 1 ∧ s.detach.mate.await = [] ∧ s.detach.host.ops = s.host.ops ∧
    ∃ p : Cpl → Bool, s.detach.host.cpls = s.host.cpls.filter p ∧ ∀ c, c.ring ≠ noRing → p c = true := by
  obtain ⟨w, hw⟩ : ∃ w, w = (s.setEpoch (nextEpoch s.epoch)).setRole 0 := ⟨_, rfl⟩
  obtain ⟨h1, h2⟩ := s.roleEpoch_spec (nextEpoch_lt s.epoch) (r := 0) (by decide)
  obtain ⟨k1, k2, -⟩ := (State.setRole_kept (State.setEpoch_kept (.refl [.regs, .vec, .axl] s) (nextEpoch s.epoch) (Sub.of (Sub.self _) rfl)) 0
    (Sub.of (Sub.self _) rfl)).hostSame (by decide)
  have he := s.detach_eq h
  rw [← hw] at h1 h2 k1 k2 he
  obtain ⟨g1, g2, g3⟩ := w.solo_spec
  have hh : w.solo.host.ops = w.host.ops ∧ w.solo.host.cpls = w.host.cpls := by rw [g3.host_eq]; exact ⟨rfl, rfl⟩
  obtain ⟨e1, e2, e3, e4, p, e5, e6⟩ := State.detachEnd_spec w.solo
  rw [← he] at e1 e2 e3 e4 e5
  refine ⟨e1.trans (g1.trans h1), e2.trans (g2.trans h2), ?_, e3, e4.trans (hh.1.trans k2), p, ?_, e6⟩
  · rw [he]
    exact State.get_raise _ Hist.mate _ rfl (by decide)
  · rw [e5, hh.2, k1]

end ops

end Sys2Proof.Machine

/-! The commands of a pair: MATE_PAIR, MATE_DETACH, MATE_HANDOVER, MATE_RESET_PARTNER and what the partner sends. -/
namespace Sys2Proof.Machine

section desc
variable {s v w : State} {r : DescRule} {h : Hdr} {body : State → Adm}

/-- A denial with an effect `w` of its own that posts nothing: the denial's completion joins, and registers read as in `w`. -/
theorem State.desc_denied_spec (hv : s.admits r h v) {why : Nat} (hb : body v = .deny why w) (hw : v.hostSame w) :
    v.posts (s.desc r h body) h 5 why ∧ ∀ a, a ≠ R.HSF_VSTAT → (s.desc r h body).rd a = w.rd a := by
  rw [State.desc_denied hv hb]
  obtain ⟨⟨c, hc, hp⟩, hh⟩ := w.raiseOver.refuse_posts h 5 why
  exact ⟨⟨c, by rw [hc, State.raiseOver_host, hw.cpls], hp⟩, fun a ha => State.raiseOver_rd w ha⟩

/-- An operation that joins those in flight and nothing else. -/
theorem State.desc_added (hv : s.admits r h v) {b : OpBody} (hb : body v = .yes (v.addOp h 0 b).2) (he : b.entries = 1 := by rfl) :
    v.flies (s.desc r h body) h b ∧ v.hostOnly (s.desc r h body) := by
  obtain ⟨h1, h2, h3⟩ := State.addOp_flies hv.2.1 hv.2.2.1 h 0 b
  obtain ⟨g1, g2, -⟩ := State.desc_flies hv hb h1 h3 he
  exact ⟨g1, h2.trans g2⟩

end desc

/-! ### MATE_PAIR -/

section pair
variable {s v : State} {h : Hdr} (hv : s.admits (mateRule (.not [1, 2, 3])) h v)

theorem State.get_of_rd {s t : State} {a : Nat} (h : s.rd a = t.rd a) (f : Bits) : s.get a f = t.get a f := by
  rw [State.get, h]
  rfl

/-- The opcode's own checks, the operation byte first. -/
def pairChecks (op : Nat) (h : Hdr) (p : Option Partner) (x : State) : Adm := if op = 0 then pairBody h p x else bad 16

theorem exec_matePair {p : Option Partner} :
    exec (.matePair h p) s = .next (s.desc (mateRule (.not [1, 2, 3])) h (pairChecks (bytesAt (s.headRaw h.ring) 16 1) h p)) := rfl

include hv

theorem matePair_bad (hb : bytesAt (s.headRaw h.ring) 16 1 ≠ 0) (p : Option Partner) :
    ∃ u, exec (.matePair h p) s = .next u ∧ v.posts u h 4 (badRes 16) ∧ v.hostOnly u :=
  desc_run exec_matePair (State.desc_refused hv (if_neg hb))

variable (hb : bytesAt (s.headRaw h.ring) 16 1 = 0)
include hb

theorem matePair_paired (hr : v.role ≠ 0) (p : Option Partner) : ∃ u, exec (.matePair h p) s = .next u ∧ v.posts u h 5 5 ∧ v.hostOnly u :=
  desc_run exec_matePair (State.desc_refused hv ((if_pos hb).trans (if_pos hr)))

/-- A pairing that is refused with code `why`. -/
theorem matePair_refused {p : Option Partner} {k why : Nat} (hw : why < 256) (hp : pairBody h p v = .deny k (v.pairRefused why)) :
    ∃ u, exec (.matePair h p) s = .next u ∧ v.posts u h 5 k ∧ u.get R.MATE_STAT F.MATE_STAT_FAIL_WHY = why ∧
      u.get R.MATE_HIST F.MATE_HIST_PAIR_FAIL = 1 ∧ u.role = v.role ∧ (why = 6 → u.get R.GLB_MODE_REFUSE F.GLB_MODE_REFUSE_CODE = 4) := by
  obtain ⟨h1, h2, h3, h4⟩ := v.pairRefused_fields hw
  obtain ⟨g1, g2⟩ := State.desc_denied_spec (body := pairChecks _ h p) hv ((if_pos hb).trans hp) ((State.pairRefused_kept (.refl [.regs, .vec] v) why (Sub.self _)).hostSame (by decide))
  refine ⟨_, exec_matePair, g1, ?_, ?_, ?_, fun e => ?_⟩
  · rw [State.get_of_rd (g2 _ (by decide)), h1]
  · rw [State.get_of_rd (g2 _ (by decide)), h2]
  · exact (State.get_of_rd (g2 _ (by decide)) _).trans h3
  · rw [State.get_of_rd (g2 _ (by decide)), h4 e]

variable (h0 : v.role = 0)
include h0

theorem matePair_noPairing {p : Option Partner} (hp : noPairing v.persona v.lifecycle = true ∨ ∃ x, p = some x ∧ noPairing x.persona x.lifecycle = true) :
    ∃ u, exec (.matePair h p) s = .next u ∧ v.posts u h 5 7 ∧ u.get R.MATE_STAT F.MATE_STAT_FAIL_WHY = 6 ∧ u.get R.MATE_HIST F.MATE_HIST_PAIR_FAIL = 1 ∧
      u.get R.GLB_MODE_REFUSE F.GLB_MODE_REFUSE_CODE = 4 := by
  have hd : pairBody h p v = .deny 7 (v.pairRefused 6) := by
    refine (if_neg (not_not_intro h0)).trans (if_pos ?_)
    rcases hp with hp | ⟨x, rfl, hp⟩ <;> simp [hp]
  obtain ⟨u, h1, h2, h3, h4, -, h6⟩ := matePair_refused hv hb (by decide) hd
  exact ⟨u, h1, h2, h3, h4, h6 rfl⟩

variable (hn : noPairing v.persona v.lifecycle = false)
include hn

theorem matePair_linkDown (hl : v.flag R.MATE_STAT F.MATE_STAT_LINK_UP = false) {p : Option Partner}
    (hp : ∀ x, p = some x → noPairing x.persona x.lifecycle = false) : ∃ u, exec (.matePair h p) s = .next u ∧ v.posts u h 5 6 ∧
      u.get R.MATE_STAT F.MATE_STAT_FAIL_WHY = 1 ∧ u.get R.MATE_HIST F.MATE_HIST_PAIR_FAIL = 1 := by
  have hd : pairBody h p v = .deny 6 (v.pairRefused 1) := by
    refine (if_neg (not_not_intro h0)).trans ((if_neg ?_).trans (if_pos (by simp [hl])))
    cases p with
    | none => simp [hn]
    | some x => simp [hn, hp x rfl]
  obtain ⟨u, h1, h2, h3, h4, -⟩ := matePair_refused hv hb (by decide) hd
  exact ⟨u, h1, h2, h3, h4⟩

variable (hl : v.flag R.MATE_STAT F.MATE_STAT_LINK_UP = true)
include hl

/-- With no answer yet the pairing is in flight. -/
theorem matePair_waits : ∃ u, exec (.matePair h none) s = .next u ∧ v.flies u h .pair ∧ v.hostOnly u := by
  refine desc_run exec_matePair (State.desc_added hv ((if_pos hb).trans ?_))
  exact (if_neg (not_not_intro h0)).trans ((if_neg (by simp [hn])).trans ((if_neg (by simp [hl])).trans (if_pos hv.2.2.2)))

omit hb in
/-- With the partner's answer its items decide. -/
theorem pairBody_answered (p : Partner) {why : Nat} (hw : why = v.pairWhy p (p.solo && p.pairEn)) : pairBody h (some p) v =
    if why ≠ 0 then .deny (if why = 6 then 7 else 6) (v.pairRefused why) else .yes ((v.ok h 0).pairUp p 1) := by
  by_cases hp : noPairing p.persona p.lifecycle = true
  · have h6 : why = 6 := by rw [hw, State.pairWhy, if_pos (by simp [hp])]
    rw [h6]
    exact (if_neg (not_not_intro h0)).trans (if_pos (by simp [hp]))
  · refine (if_neg (not_not_intro h0)).trans ((if_neg (by simp [hn, hp])).trans ((if_neg (by simp [hl])).trans ?_))
    rw [hw, hv.2.2.2]
    rfl

theorem matePair_items (p : Partner) {why : Nat} (hw : why = v.pairWhy p (p.solo && p.pairEn)) (h1 : why ≠ 0) :
    ∃ u, exec (.matePair h (some p)) s = .next u ∧ v.posts u h 5 (if why = 6 then 7 else 6) ∧ u.get R.MATE_STAT F.MATE_STAT_FAIL_WHY = why ∧ u.role = 0 := by
  obtain ⟨u, g1, g2, g3, -, g5, -⟩ := matePair_refused hv hb (hw ▸ v.pairWhy_lt p _) ((pairBody_answered hv h0 hn hl p hw).trans (if_pos h1))
  exact ⟨u, g1, g2, g3, g5.trans h0⟩

theorem matePair_forms (p : Partner) (hw : 0 = v.pairWhy p (p.solo && p.pairEn)) : ∃ u, exec (.matePair h (some p)) s = .next u ∧ v.posts u h 0 0 ∧
    u.role = 1 ∧ u.epoch = nextEpoch (max v.epoch p.epoch) ∧ u.sync = 1 ∧ u.get R.MATE_HIST F.MATE_HIST_PAIR_OK = 1 := by
  have hbody : pairChecks (bytesAt (s.headRaw h.ring) 16 1) h (some p) v = .yes ((v.ok h 0).pairUp p 1) :=
    (if_pos hb).trans ((pairBody_answered hv h0 hn hl p hw).trans (if_neg (not_not_intro rfl)))
  have hk := (State.pairUp_kept (.refl [.regs, .vec, .axl, .mate] (v.ok h 0)) p 1 (Sub.self _)).hostSame (by decide)
  have hi : ((v.ok h 0).pairUp p 1).inflight ≤ 16384 := by
    have he : ((v.ok h 0).pairUp p 1).inflight = (v.ok h 0).inflight := by simp only [State.inflight, hk.cpls, hk.ops]
    rw [he, State.ok, State.done_inflight hv.2.1]
    simpa [State.entriesFree] using hv.2.2.2
  obtain ⟨c, hc, hp⟩ := State.done_posts hv.2.1 h false 0 0
  obtain ⟨g1, g2, g3, g4⟩ := (v.ok h 0).pairUp_spec p (r := 1) (by decide)
  have he : (v.ok h 0).epoch = v.epoch := by rw [State.epoch, State.ok, State.done_rd hv.2.1 _ _ _ _ (by decide)]; rfl
  refine ⟨_, exec_matePair, ?_⟩
  rw [State.desc_yes hv.1 hbody hi]
  generalize (v.ok h 0).pairUp p 1 = w at g1 g2 g3 g4 hk ⊢
  have hr {a : Nat} (f : Bits) (ha : a ≠ R.HSF_VSTAT) : (v.accept w).get a f = w.get a f := State.get_of_rd (State.accept_rd _ _ ha) f
  refine ⟨⟨c, by rw [State.accept_host, hk.cpls]; exact hc, hp⟩, (hr _ (by decide)).trans g1, ?_, (hr _ (by decide)).trans g3, (hr _ (by decide)).trans g4⟩
  rw [State.epoch, State.accept_rd _ _ (by decide), ← he]
  exact g2

end pair

end Sys2Proof.Machine

/-! What ends or changes a pair, and the settlement of O55. -/
namespace Sys2Proof.Machine

/-! ### MATE_DETACH -/

section detach
variable {s v : State} {h : Hdr} (hv : s.admits (mateRule (.is 1)) h v)

/-- The opcode's own checks. -/
def detachChecks (h : Hdr) (s : State) : Adm := if s.role = 0 then denied 5 else if s.entriesFree 1 then .yes ((s.ok h 0).detach) else short 9

theorem exec_mateDetach : exec (.mateDetach h) s = .next (s.desc (mateRule (.is 1)) h (detachChecks h)) := rfl

include hv

theorem mateDetach_solo (h0 : v.role = 0) : ∃ u, exec (.mateDetach h) s = .next u ∧ v.posts u h 5 5 ∧ v.hostOnly u :=
  desc_run exec_mateDetach (State.desc_refused hv (if_pos h0))

theorem mateDetach_pair (h0 : v.role ≠ 0) : ∃ u, exec (.mateDetach h) s = .next u ∧ u.role = 0 ∧ u.epoch = nextEpoch v.epoch ∧
    u.get R.MATE_HIST F.MATE_HIST_DETACHED = 1 ∧ (∃ c ∈ u.host.cpls, c.ring = h.ring.val ∧ c.tag = h.tag ∧ c.status = 0 ∧ c.result = 0) ∧
    ((∀ c ∈ v.host.cpls, c.ring ≠ noRing) → v.posts u h 0 0) := by
  have hb : detachChecks h v = .yes ((v.ok h 0).detach) := (if_neg h0).trans (if_pos hv.2.2.2)
  have hd (a : Nat) (ha : a ≠ R.MATE_FWD_CNT) : (v.ok h 0).rd a = v.rd a := State.done_rd hv.2.1 _ _ _ _ ha
  have hr : (v.ok h 0).role ≠ 0 := by rw [State.role, State.get_of_rd (hd _ (by decide))]; exact h0
  obtain ⟨g1, g2, g3, -, g5, p, g6, g7⟩ := (v.ok h 0).detach_spec hr
  obtain ⟨c, hc, hp⟩ := State.done_posts hv.2.1 h false 0 0
  have hring : c.ring ≠ noRing := by
    rw [hp.1]
    exact Nat.ne_of_lt h.ring.isLt
  have hcpls : (v.ok h 0).detach.host.cpls = v.host.cpls.filter p ++ [c] := by
    rw [g6, State.ok, hc, List.filter_append]
    simp [g7 c hring]
  have hi : (v.ok h 0).detach.inflight ≤ 16384 := by
    have hle : (v.ok h 0).detach.inflight ≤ (v.ok h 0).inflight := by
      rw [State.inflight, State.inflight, g5, g6]
      exact Nat.add_le_add_left (((List.filter_sublist (p := p)).map _).sum_le_sum fun _ _ => Nat.zero_le _) _
    rw [State.ok, State.done_inflight hv.2.1] at hle
    have : v.inflight + 1 ≤ 16384 := by simpa [State.entriesFree] using hv.2.2.2
    exact hle.trans this
  have hep : (v.ok h 0).epoch = v.epoch := by rw [State.epoch, hd _ (by decide)]; rfl
  refine ⟨_, exec_mateDetach, ?_⟩
  rw [State.desc_yes hv.1 hb hi]
  generalize (v.ok h 0).detach = w at g1 g2 g3 hcpls ⊢
  have hg {a : Nat} (f : Bits) (ha : a ≠ R.HSF_VSTAT) : (v.accept w).get a f = w.get a f := State.get_of_rd (State.accept_rd _ _ ha) f
  have hcp : (v.accept w).host.cpls = v.host.cpls.filter p ++ [c] := by rw [State.accept_host, hcpls]
  refine ⟨(hg _ (by decide)).trans g1, ?_, (hg _ (by decide)).trans g3, ⟨c, by rw [hcp]; exact List.mem_append_right _ (.head _), hp⟩, fun hall => ⟨c, ?_, hp⟩⟩
  · rw [State.epoch, State.accept_rd _ _ (by decide), ← hep]
    exact g2
  · rw [hcp, List.filter_eq_self.mpr fun x hx => g7 x (hall x hx)]

end detach

/-! ### MATE_HANDOVER and MATE_RESET_PARTNER -/

section handover
variable {s v : State} {h : Hdr} (hv : s.admits (mateRule (.is 2)) h v)

/-- The opcode's own checks. -/
def handoverChecks (h : Hdr) (ready refBad : Bool) (s : State) : Adm :=
  if s.role != 1 || s.apart then denied 5
  else if refBad then .deny 5 (s.modeRefused 6)
  else if !ready then denied 5
  else if !s.entriesFree 1 then short 9
  else .yes (s.addOp h 0 (.handover (s.now + 1000 * ticksPerUs))).2

theorem exec_mateHandover {ready bad : Bool} : exec (.mateHandover h ready bad) s = .next (s.desc (mateRule (.is 2)) h (handoverChecks h ready bad)) := rfl

include hv

theorem mateHandover_refused {ready bad : Bool} (hc : v.role ≠ 1 ∨ v.apart = true ∨ (bad = false ∧ ready = false)) :
    ∃ u, exec (.mateHandover h ready bad) s = .next u ∧ v.posts u h 5 5 ∧ v.hostOnly u := by
  refine desc_run exec_mateHandover (State.desc_refused hv ?_)
  unfold handoverChecks
  by_cases h1 : (v.role != 1 || v.apart) = true
  · exact if_pos h1
  · have h2 : bad = false ∧ ready = false := by
      rcases hc with hc | hc | hc
      · exact absurd (by simp [hc]) h1
      · exact absurd (by simp [hc]) h1
      · exact hc
    rw [if_neg h1, h2.1, if_neg Bool.false_ne_true, h2.2]
    rfl

variable (h1 : v.role = 1) (h2 : v.apart = false)
include h1 h2

theorem mateHandover_refBad (ready : Bool) : ∃ u, exec (.mateHandover h ready true) s = .next u ∧ v.posts u h 5 5 ∧
    u.get R.GLB_MODE_REFUSE F.GLB_MODE_REFUSE_CODE = 6 := by
  have hb : handoverChecks h ready true v = .deny 5 (v.modeRefused 6) := (if_neg (by simp [h1, h2])).trans (if_pos rfl)
  obtain ⟨g1, g2⟩ := State.desc_denied_spec hv hb ((State.modeRefused_kept (.refl [.regs, .vec] v) 6 (Sub.self _)).hostSame (by decide))
  exact ⟨_, exec_mateHandover, g1, (State.get_of_rd (g2 _ (by decide)) _).trans (v.modeRefused_code (by decide))⟩

theorem mateHandover_flies : ∃ u, exec (.mateHandover h true false) s = .next u ∧ v.flies u h (.handover (v.now + 1000 * ticksPerUs)) ∧ v.hostOnly u := by
  refine desc_run exec_mateHandover (State.desc_added hv ?_)
  exact (if_neg (by simp [h1, h2])).trans ((if_neg Bool.false_ne_true).trans ((if_neg (by decide)).trans (if_neg (by simp [hv.2.2.2]))))

end handover

section reset
variable {s v : State} {h : Hdr} (hv : s.admits (mateRule (.is 3)) h v)

/-- The opcode's own checks. -/
def resetChecks (h : Hdr) (taken : Bool) (s : State) : Adm :=
  if s.role == 0 || !s.flag R.MATE_STAT F.MATE_STAT_LINK_UP || !taken then denied 5
  else if s.entriesFree 1 then .yes (s.ok h 0) else short 9

theorem exec_mateResetPartner {taken : Bool} : exec (.mateResetPartner h taken) s = .next (s.desc (mateRule (.is 3)) h (resetChecks h taken)) := rfl

include hv

theorem mateResetPartner_refused {taken : Bool} (hc : v.role = 0 ∨ v.flag R.MATE_STAT F.MATE_STAT_LINK_UP = false ∨ taken = false) :
    ∃ u, exec (.mateResetPartner h taken) s = .next u ∧ v.posts u h 5 5 ∧ v.hostOnly u := by
  refine desc_run exec_mateResetPartner (State.desc_refused hv (if_pos ?_))
  rcases hc with hc | hc | hc <;> simp [hc]

theorem mateResetPartner_ok (h0 : v.role ≠ 0) (hl : v.flag R.MATE_STAT F.MATE_STAT_LINK_UP = true) :
    ∃ u, exec (.mateResetPartner h true) s = .next u ∧ v.posts u h 0 0 ∧ v.hostOnly u :=
  desc_run exec_mateResetPartner (State.desc_posts hv ((if_neg (by simp [h0, hl])).trans (if_pos hv.2.2.2)))

end reset

end Sys2Proof.Machine

/-! What the partner sends a pair, the swap of a hand-over, and the settlement of O55. -/
namespace Sys2Proof.Machine

section events
variable (s : State)

/-! ### The end of an operation leaves the twin alone -/

theorem State.finish_rd (id : Nat) (c : CplInfo) {a : Nat} (h1 : a ≠ R.RNG_GLB_DISCARD_CNT) (h2 : a ≠ R.RNG_GLB_HIST) : (s.finish id c).rd a = s.rd a := by
  unfold State.finish
  split
  · rfl
  · dsimp only
    split
    · rfl
    · rw [State.rd_raise_ne _ Hist.rngGlb _ h2, State.rd_inc_ne _ h1]
      split <;> rfl
    · rfl
    · rfl
    · rfl

theorem State.finish_get (id : Nat) (c : CplInfo) {a : Nat} (f : Bits) (h1 : a ≠ R.RNG_GLB_DISCARD_CNT) (h2 : a ≠ R.RNG_GLB_HIST) :
    (s.finish id c).get a f = s.get a f := State.get_of_rd (s.finish_rd id c h1 h2) f

theorem State.finish_mate (id : Nat) (c : CplInfo) : (s.finish id c).mate = s.mate :=
  (State.finish_kept (.refl [.regs, .host, .vec] s) id c (Sub.self _)).2.2 .mate (by decide)

/-! ### What the partner sends -/

theorem pairingTimeout_idle (h : s.host.ops.find? (fun o => o.body == .pair) = none) : exec .pairingTimeout s = .next s := by
  show execPairingTimeout s = _
  unfold execPairingTimeout
  simp only [h]

theorem pairingTimeout_ends {o : Op} (h : s.host.ops.find? (fun o => o.body == .pair) = some o) :
    ∃ w : State, exec .pairingTimeout s = .next (w.finish o.id { status := 5, result := some 6 }) ∧
      w.get R.MATE_STAT F.MATE_STAT_FAIL_WHY = 7 ∧ w.get R.MATE_HIST F.MATE_HIST_PAIR_FAIL = 1 ∧ w.host.ops = s.host.ops := by
  obtain ⟨h1, h2, -⟩ := s.pairRefused_fields (why := 7) (by decide)
  refine ⟨s.pairRefused 7, ?_, h1, h2, ((State.pairRefused_kept (.refl [.regs, .vec] s) 7 (Sub.self _)).hostSame (by decide)).ops⟩
  show execPairingTimeout s = _
  unfold execPairingTimeout
  simp only [h]

theorem pairRequestReceive_spec (p : Partner) {why : Nat} (hw : why = s.pairWhy p (s.flag R.MATE_CTL F.MATE_CTL_PAIR_EN)) :
    ((s.mateOff = true ∨ s.flag R.MATE_STAT F.MATE_STAT_LINK_UP = false ∨ s.role ≠ 0) → exec (.pairRequestReceive p) s = .next s) ∧
    (s.mateOff = false → s.flag R.MATE_STAT F.MATE_STAT_LINK_UP = true → s.role = 0 →
      (why ≠ 0 → ∃ u, exec (.pairRequestReceive p) s = .next u ∧ u.role = 0 ∧ u.get R.MATE_STAT F.MATE_STAT_FAIL_WHY = why ∧ u.get R.MATE_HIST F.MATE_HIST_PAIR_FAIL = 1) ∧
      (why = 0 → ∃ u, exec (.pairRequestReceive p) s = .next u ∧ u.role = 2 ∧ u.epoch = nextEpoch (max s.epoch p.epoch) ∧ u.get R.MATE_HIST F.MATE_HIST_PAIR_OK = 1)) := by
  refine ⟨fun h => congrArg Host.Outcome.next (if_pos ?_), fun h1 h2 h3 => ?_⟩
  · rcases h with h | h | h <;> simp [h]
  · have he : exec (.pairRequestReceive p) s = .next (if why ≠ 0 then s.pairRefused why else s.pairUp p 2) := by
      rw [hw]
      exact congrArg Host.Outcome.next (if_neg (by simp [h1, h2, h3]))
    refine ⟨fun hn => ?_, fun h0 => ?_⟩
    · obtain ⟨g1, g2, g3, -⟩ := s.pairRefused_fields (why := why) (hw ▸ s.pairWhy_lt p _)
      exact ⟨_, he.trans (congrArg _ (if_pos hn)), g3.trans h3, g1, g2⟩
    · obtain ⟨g1, g2, -, g4⟩ := s.pairUp_spec p (r := 2) (by decide)
      exact ⟨_, he.trans (congrArg _ (if_neg (not_not_intro h0))), g1, g2, g4⟩

theorem detachReceive_spec : (s.role = 0 → exec .detachReceive s = .next s) ∧
    (s.role ≠ 0 → ∃ u, exec .detachReceive s = .next u ∧ u.role = 0 ∧ u.epoch = nextEpoch s.epoch ∧ u.get R.MATE_HIST F.MATE_HIST_DETACHED = 1 ∧ u.mate.await = []) := by
  refine ⟨fun h => congrArg Host.Outcome.next (if_pos h), fun h => ?_⟩
  obtain ⟨h1, h2, h3, h4, -⟩ := s.detach_spec h
  exact ⟨_, rfl, h1, h2, h3, h4⟩

/-! ### The swap -/

/-- The hand-over an operation is, with the instant from which its swap may happen. -/
def handoverOf (o : Op) : Option (Nat × Nat) :=
  match o.body with
  | .handover a => some (o.id, a)
  | _ => none

/-- HANDOVER_SWAP with the hand-over in flight, if there is one. -/
def State.swapRun (s : State) (t : Nat) : Option (Nat × Nat) → State
  | some (id, a) =>
    if t < s.swapAt a then s
    else if s.role != 1 || s.apart then s.finish id { status := 6 }
    else (((s.setEpoch (nextEpoch s.epoch)).setRole 2).clearAwait).finish id { status := 0 }
  | none =>
    if s.role != 2 || s.apart then s
    else ((s.setEpoch (nextEpoch s.epoch)).setRole 1).readyFall

theorem exec_handoverSwap (t : Nat) : exec (.handoverSwap t) s = .next ((s.at_ t).swapRun t (s.host.ops.findSome? handoverOf)) := by
  show execHandoverSwap t s = _
  unfold execHandoverSwap
  extract_lets w op
  have hop : s.host.ops.findSome? handoverOf = op := rfl
  rw [hop]
  clear_value op
  rcases op with _ | ⟨id, a⟩ <;> rfl

theorem handoverOf_none (h : ∀ o ∈ s.host.ops, ∀ a, o.body ≠ .handover a) : s.host.ops.findSome? handoverOf = none := by
  refine List.findSome?_eq_none_iff.mpr fun o ho => ?_
  unfold handoverOf
  split
  case h_1 a ha => exact absurd ha (h o ho a)
  case h_2 => rfl

theorem State.swapRun_standby (t : Nat) (h2 : s.role = 2) (ha : s.apart = false) :
    (s.swapRun t none).role = 1 ∧ (s.swapRun t none).epoch = nextEpoch s.epoch := by
  obtain ⟨g1, g2⟩ := s.roleEpoch_spec (nextEpoch_lt s.epoch) (r := 1) (by decide)
  have he : s.swapRun t none = ((s.setEpoch (nextEpoch s.epoch)).setRole 1).readyFall := if_neg (by simp [h2, ha])
  rw [he]
  exact ⟨(State.readyFall_get _ (by decide)).trans g1, (congrArg BitVec.toNat (State.readyFall_rd _ (by decide) (by decide))).trans g2⟩

theorem State.swapRun_primary {t id a : Nat} (ht : s.swapAt a ≤ t) (h1 : s.role = 1) (ha : s.apart = false) :
    (s.swapRun t (some (id, a))).role = 2 ∧ (s.swapRun t (some (id, a))).epoch = nextEpoch s.epoch ∧ (s.swapRun t (some (id, a))).mate.await = [] := by
  obtain ⟨g1, g2⟩ := s.roleEpoch_spec (nextEpoch_lt s.epoch) (r := 2) (by decide)
  have he : s.swapRun t (some (id, a)) = (((s.setEpoch (nextEpoch s.epoch)).setRole 2).clearAwait).finish id { status := 0 } :=
    (if_neg (Nat.not_lt.mpr ht)).trans (if_neg (by simp [h1, ha]))
  rw [he]
  generalize (s.setEpoch (nextEpoch s.epoch)).setRole 2 = w at g1 g2 ⊢
  refine ⟨?_, ?_, by rw [State.finish_mate, State.clearAwait_mate]⟩
  · rw [State.role, State.finish_get _ _ _ _ (by decide) (by decide), State.clearAwait_get _ _ (by decide) (by decide) (by decide)]
    exact g1
  · rw [State.epoch, State.finish_rd _ _ _ (by decide) (by decide), State.clearAwait_rd _ (by decide) (by decide) (by decide)]
    exact g2

theorem handoverSwap_standby (t : Nat) (h : ∀ o ∈ s.host.ops, ∀ a, o.body ≠ .handover a) :
    ((s.role ≠ 2 ∨ s.apart = true) → exec (.handoverSwap t) s = .next (s.at_ t)) ∧
    (s.role = 2 → s.apart = false → ∃ u, exec (.handoverSwap t) s = .next u ∧ u.role = 1 ∧ u.epoch = nextEpoch s.epoch) := by
  rw [exec_handoverSwap, handoverOf_none s h]
  refine ⟨fun hc => congrArg Host.Outcome.next (if_pos ?_), fun h2 ha => ⟨_, rfl, (s.at_ t).swapRun_standby t h2 ha⟩⟩
  rcases hc with hc | hc
  · simp [show (s.at_ t).role ≠ 2 from hc]
  · simp [show (s.at_ t).apart = true from hc]

theorem handoverSwap_primary {t id a : Nat} (h : s.host.ops.findSome? handoverOf = some (id, a)) :
    (t < (s.at_ t).swapAt a → exec (.handoverSwap t) s = .next (s.at_ t)) ∧
    ((s.at_ t).swapAt a ≤ t → ((s.role ≠ 1 ∨ s.apart = true) → exec (.handoverSwap t) s = .next ((s.at_ t).finish id { status := 6 })) ∧
      (s.role = 1 → s.apart = false → ∃ u, exec (.handoverSwap t) s = .next u ∧ u.role = 2 ∧ u.epoch = nextEpoch s.epoch ∧ u.mate.await = [])) := by
  rw [exec_handoverSwap, h]
  refine ⟨fun ht => congrArg Host.Outcome.next (if_pos ht), fun ht => ⟨fun hc => ?_, fun h1 ha => ⟨_, rfl, (s.at_ t).swapRun_primary ht h1 ha⟩⟩⟩
  refine congrArg Host.Outcome.next ((if_neg (Nat.not_lt.mpr ht)).trans (if_pos ?_))
  rcases hc with hc | hc
  · simp [show (s.at_ t).role ≠ 1 from hc]
  · simp [show (s.at_ t).apart = true from hc]

end events

/-! ### The obligation -/

/-- Settles O55: each command of a pair is refused by the first check that fails, and changes role and epoch together where it is taken. -/
theorem twinPairs : Obligations.TwinPairs := by
  unfold Obligations.TwinPairs
  refine ⟨fun s v h hv => ⟨matePair_bad hv, fun hb => ⟨matePair_paired hv hb, fun p h0 hp => matePair_noPairing hv hb h0 hp, fun h0 hn =>
      ⟨fun hl p hp => matePair_linkDown hv hb h0 hn hl hp, fun hl => ⟨matePair_waits hv hb h0 hn hl, fun p why hw =>
        ⟨matePair_items hv hb h0 hn hl p hw, fun h => matePair_forms hv hb h0 hn hl p (h ▸ hw)⟩⟩⟩⟩⟩,
    fun s v h hv => ⟨mateDetach_solo hv, mateDetach_pair hv⟩,
    fun s v h hv => ⟨fun _ _ => mateHandover_refused hv, fun h1 h2 ready => ⟨mateHandover_refBad hv h1 h2 ready, mateHandover_flies hv h1 h2⟩⟩,
    fun s v h hv => ⟨fun _ => mateResetPartner_refused hv, mateResetPartner_ok hv⟩,
    fun s => ⟨pairingTimeout_idle s, fun _ => pairingTimeout_ends s⟩,
    fun s p _ hw => pairRequestReceive_spec s p hw,
    detachReceive_spec,
    fun s t h => handoverSwap_standby s t h,
    fun s _ _ _ h => handoverSwap_primary s h⟩

end Sys2Proof.Machine

/-! The paths of a pair (R395, R396, R403): heartbeats, a path that is lost, and the conditions that follow (Table 16-3). -/
namespace Sys2Proof.Machine

section cond
variable (s : State)

theorem State.rd_count (a n : Nat) : ((s.count a n).rd a).toNat = min 0xFFFFFFFF ((s.rd a).toNat + n) := by
  rw [State.count, State.rd_wr_self, BitVec.toNat_ofNat, Nat.mod_eq_of_lt]
  exact lt_of_le_of_lt (Nat.min_le_left _ _) (by norm_num)

/-! ### History bits of the twin stay set -/

theorem State.readyFall_hist {b : Nat} (hb : b < 32) (k : s.get R.MATE_HIST (bit b) = 1) : s.readyFall.get R.MATE_HIST (bit b) = 1 := by
  rw [State.readyFall]
  split
  · exact State.get_raise_mono _ _ _ hb (by decide) ((State.get_set_ne _ _ _ _ (by decide)).trans k)
  · exact k

theorem State.setSync_hist (v : Nat) {b : Nat} (hb : b < 32) (k : s.get R.MATE_HIST (bit b) = 1) : (s.setSync v).get R.MATE_HIST (bit b) = 1 := by
  have h : (s.set R.MATE_STAT F.MATE_STAT_SYNC v).get R.MATE_HIST (bit b) = 1 := (State.get_set_ne _ _ _ _ (by decide)).trans k
  rw [State.setSync]
  split
  · exact h
  · exact State.readyFall_hist _ hb h

/-! ### Promotion -/

/-- No promotion is due any more. -/
def State.unpromote (s : State) : State := { s with mate := { s.mate with promote := false } }

theorem State.unpromote_get (a : Nat) (f : Bits) : s.unpromote.get a f = s.get a f := rfl

theorem State.promote_eq :
    s.promote = (((s.unpromote.setEpoch (nextEpoch s.unpromote.epoch)).setRole 1).setSync 0).raise Hist.mate F.MATE_HIST_PROMOTED := rfl

theorem State.promote_spec : s.promote.role = 1 ∧ s.promote.epoch = nextEpoch s.epoch ∧ s.promote.get R.MATE_HIST F.MATE_HIST_PROMOTED = 1 ∧
    (∀ {g : Bits}, F.MATE_STAT_ROLE.apart g → F.MATE_STAT_SYNC.apart g → F.MATE_STAT_CHANGEOVER_READY.apart g →
      s.promote.get R.MATE_STAT g = s.get R.MATE_STAT g) ∧
    ∀ {b : Nat}, b < 32 → s.get R.MATE_HIST (bit b) = 1 → s.promote.get R.MATE_HIST (bit b) = 1 := by
  obtain ⟨h1, h2⟩ := s.unpromote.roleEpoch_spec (nextEpoch_lt s.unpromote.epoch) (r := 1) (by decide)
  have h3 {g : Bits} (hg : F.MATE_STAT_ROLE.apart g) :
      ((s.unpromote.setEpoch (nextEpoch s.unpromote.epoch)).setRole 1).get R.MATE_STAT g = s.get R.MATE_STAT g := by
    rw [State.setRole_get _ _ hg, State.setEpoch_stat]
    exact s.unpromote_get _ _
  have h4 (f : Bits) : ((s.unpromote.setEpoch (nextEpoch s.unpromote.epoch)).setRole 1).get R.MATE_HIST f = s.get R.MATE_HIST f := by
    rw [State.get_of_rd (State.setRole_rd _ _ (by decide) (by decide)), State.setEpoch_get _ _ _ (by decide) (by decide)]
    exact s.unpromote_get _ _
  rw [State.promote_eq]
  generalize (s.unpromote.setEpoch (nextEpoch s.unpromote.epoch)).setRole 1 = w at h1 h2 h3 h4 ⊢
  refine ⟨?_, ?_, State.get_raise _ Hist.mate _ rfl (by decide), fun hg k1 k2 => ?_, fun hb k => ?_⟩
  · rw [State.role, State.get_raise_ne _ Hist.mate _ _ (by decide), State.setSync_get _ _ (by decide) (by decide)]
    exact h1
  · rw [State.epoch, State.rd_raise_ne _ Hist.mate _ (by decide), State.setSync_rd _ _ (by decide) (by decide)]
    exact h2
  · rw [State.get_raise_ne _ Hist.mate _ _ (by decide), State.setSync_get _ _ k1 k2, h3 hg]
  · exact State.get_raise_mono _ _ _ hb (by decide) (State.setSync_hist _ _ hb ((h4 _).trans k))

/-! ### Both paths lost -/

/-- PARTNER_LOST is found. -/
def State.partnerLost (s : State) : State := (((s.set R.MATE_STAT F.MATE_STAT_PARTNER_LOST 1).raise Hist.mate F.MATE_HIST_PARTNER_LOST)).clearAwait

/-- A promotion waits for the selector. -/
def State.promoteLater (s : State) : State := { s with mate := { s.mate with promote := true } }

/-- A STANDBY is promoted, now or once its selector allows it. -/
def State.promoteStandby (s : State) : State := if s.role = 2 then (if s.mayPromote then s.promote else s.promoteLater) else s

theorem State.losePartner_eq : s.losePartner = s.partnerLost.promoteStandby := rfl

theorem State.partnerLost_get {a : Nat} (f : Bits) (h1 : a ≠ R.LVP_TAKE_CNT) (h2 : a ≠ R.LVP_HIST) (h3 : a ≠ R.XPT_STAT) (h4 : a ≠ R.MATE_HIST)
    (h5 : a ≠ R.MATE_STAT) : s.partnerLost.get a f = s.get a f := by
  rw [State.partnerLost, State.clearAwait_get _ _ h1 h2 h3, State.get_raise_ne _ Hist.mate _ _ h4, State.get_set_ne _ _ _ _ h5]

theorem State.partnerLost_spec : s.partnerLost.flag R.MATE_STAT F.MATE_STAT_PARTNER_LOST = true ∧ s.partnerLost.get R.MATE_HIST F.MATE_HIST_PARTNER_LOST = 1 ∧
    s.partnerLost.role = s.role ∧ s.partnerLost.epoch = s.epoch ∧ s.partnerLost.mayPromote = s.mayPromote := by
  refine ⟨State.flag_of_get ?_, ?_, ?_, ?_, ?_⟩
  · rw [State.partnerLost, State.clearAwait_get _ _ (by decide) (by decide) (by decide), State.get_raise_ne _ Hist.mate _ _ (by decide)]
    exact State.get_set_fits _ _ _ (by decide) (by decide)
  · rw [State.partnerLost, State.clearAwait_get _ _ (by decide) (by decide) (by decide)]
    exact State.get_raise _ Hist.mate _ rfl (by decide)
  · rw [State.role, State.partnerLost, State.clearAwait_get _ _ (by decide) (by decide) (by decide), State.get_raise_ne _ Hist.mate _ _ (by decide),
      State.get_set_apart _ _ _ _ _ (by decide) (by decide)]
    rfl
  · rw [State.epoch, State.partnerLost, State.clearAwait_rd _ (by decide) (by decide) (by decide), State.rd_raise_ne _ Hist.mate _ (by decide),
      State.rd_set_ne _ _ _ (by decide)]
    rfl
  · rw [State.mayPromote, s.partnerLost_get _ (by decide) (by decide) (by decide) (by decide) (by decide)]
    rfl

theorem State.promoteStandby_spec (h1 : s.flag R.MATE_STAT F.MATE_STAT_PARTNER_LOST = true) (h2 : s.get R.MATE_HIST F.MATE_HIST_PARTNER_LOST = 1) :
    s.promoteStandby.flag R.MATE_STAT F.MATE_STAT_PARTNER_LOST = true ∧ s.promoteStandby.get R.MATE_HIST F.MATE_HIST_PARTNER_LOST = 1 ∧
    (s.role = 2 → s.mayPromote = true → s.promoteStandby.role = 1 ∧ s.promoteStandby.epoch = nextEpoch s.epoch ∧
      s.promoteStandby.get R.MATE_HIST F.MATE_HIST_PROMOTED = 1) ∧
    (s.role = 2 → s.mayPromote = false → s.promoteStandby.role = 2 ∧ s.promoteStandby.mate.promote = true) := by
  obtain ⟨p1, p2, p3, p4, p5⟩ := s.promote_spec
  by_cases hr : s.role = 2
  · cases hm : s.mayPromote
    case true =>
      have he : s.promoteStandby = s.promote := (if_pos hr).trans (if_pos hm)
      rw [he]
      refine ⟨?_, p5 (by decide) h2, fun _ _ => ⟨p1, p2, p3⟩, fun _ h => absurd h (by decide)⟩
      rw [State.flag, p4 (by decide) (by decide) (by decide)]
      exact h1
    case false =>
      have he : s.promoteStandby = s.promoteLater := (if_pos hr).trans (if_neg (by simp [hm]))
      rw [he]
      exact ⟨h1, h2, fun _ h => absurd h (by decide), fun _ _ => ⟨hr, rfl⟩⟩
  · have he : s.promoteStandby = s := if_neg hr
    rw [he]
    exact ⟨h1, h2, fun h => absurd h hr, fun h => absurd h hr⟩

theorem State.losePartner_spec : s.losePartner.flag R.MATE_STAT F.MATE_STAT_PARTNER_LOST = true ∧
    s.losePartner.get R.MATE_HIST F.MATE_HIST_PARTNER_LOST = 1 ∧
    (s.role = 2 → s.mayPromote = true → s.losePartner.role = 1 ∧ s.losePartner.epoch = nextEpoch s.epoch ∧
      s.losePartner.get R.MATE_HIST F.MATE_HIST_PROMOTED = 1) ∧
    (s.role = 2 → s.mayPromote = false → s.losePartner.role = 2 ∧ s.losePartner.mate.promote = true) := by
  obtain ⟨h1, h2, h3, h4, h5⟩ := s.partnerLost_spec
  obtain ⟨g1, g2, g3, g4⟩ := s.partnerLost.promoteStandby_spec h1 h2
  rw [← State.losePartner_eq] at g1 g2 g3 g4
  rw [h3, h4, h5] at g3
  rw [h3, h5] at g4
  exact ⟨g1, g2, g3, g4⟩

/-! ### The link alone lost -/

/-- The device has become ISOLATED. -/
def State.isolated (s : State) : State := ((s.set R.MATE_STAT F.MATE_STAT_ISOLATED 1).raise Hist.mate F.MATE_HIST_ISOLATED).clearAwait

/-- What SYNC reads from there on, a free value where a STANDBY leaves SYNCED. -/
def State.unsync (s : State) : State :=
  if s.role = 2 ∧ s.sync = 2 then
    let (n, s) := s.draw
    s.setSync (notSynced n)
  else s

theorem State.unsync_eq : s.unsync = if s.role = 2 ∧ s.sync = 2 then s.draw.2.setSync (notSynced s.draw.1) else s := rfl

theorem State.isolate_eq : s.isolate = s.isolated.unsync := rfl

theorem State.isolated_spec : s.isolated.flag R.MATE_STAT F.MATE_STAT_ISOLATED = true ∧ s.isolated.get R.MATE_HIST F.MATE_HIST_ISOLATED = 1 ∧
    s.isolated.role = s.role := by
  refine ⟨State.flag_of_get ?_, ?_, ?_⟩
  · rw [State.isolated, State.clearAwait_get _ _ (by decide) (by decide) (by decide), State.get_raise_ne _ Hist.mate _ _ (by decide)]
    exact State.get_set_fits _ _ _ (by decide) (by decide)
  · rw [State.isolated, State.clearAwait_get _ _ (by decide) (by decide) (by decide)]
    exact State.get_raise _ Hist.mate _ rfl (by decide)
  · rw [State.role, State.isolated, State.clearAwait_get _ _ (by decide) (by decide) (by decide), State.get_raise_ne _ Hist.mate _ _ (by decide),
      State.get_set_apart _ _ _ _ _ (by decide) (by decide)]
    rfl

theorem State.draw_get (a : Nat) (f : Bits) : s.draw.2.get a f = s.get a f := rfl

theorem State.isolate_spec : s.isolate.flag R.MATE_STAT F.MATE_STAT_ISOLATED = true ∧ s.isolate.get R.MATE_HIST F.MATE_HIST_ISOLATED = 1 ∧
    s.isolate.role = s.role := by
  obtain ⟨h1, h2, h3⟩ := s.isolated_spec
  rw [State.isolate_eq, ← h3]
  generalize s.isolated = w at h1 h2 ⊢
  rw [State.unsync_eq]
  split
  · refine ⟨?_, ?_, ?_⟩
    · rw [State.flag, State.setSync_get _ _ (by decide) (by decide), State.draw_get]
      exact h1
    · exact State.setSync_hist _ _ (b := 6) (by decide) ((w.draw_get _ _).trans h2)
    · rw [State.role, State.setSync_get _ _ (by decide) (by decide), State.draw_get]
      rfl
  · exact ⟨h1, h2, rfl⟩

/-! ### The conditions follow the paths -/

theorem State.mateCond_solo (h : s.role = 0) : s.mateCond = s := if_pos h

/-- ISOLATED follows. -/
def State.condIso (s : State) (iso : Bool) : State :=
  if !iso then s.set R.MATE_STAT F.MATE_STAT_ISOLATED 0
  else if s.flag R.MATE_STAT F.MATE_STAT_ISOLATED then s else s.isolate

/-- PARTNER_LOST follows. -/
def State.condLost (s : State) (lost : Bool) : State :=
  if lost then (if s.flag R.MATE_STAT F.MATE_STAT_PARTNER_LOST then s else s.losePartner)
  else s.unpromote.set R.MATE_STAT F.MATE_STAT_PARTNER_LOST 0

theorem State.mateCond_eq (h0 : s.role ≠ 0) : s.mateCond = (s.condIso (s.mate.linkLost && !s.partnerGone)).condLost s.partnerGone := if_neg h0

theorem State.condLost_lose (h : s.flag R.MATE_STAT F.MATE_STAT_PARTNER_LOST = false) : s.condLost true = s.losePartner :=
  (if_pos rfl).trans (if_neg (by simp [h]))

theorem State.mateCond_lost (h0 : s.role ≠ 0) (hg : s.partnerGone = true) (hl : s.flag R.MATE_STAT F.MATE_STAT_PARTNER_LOST = false) :
    s.mateCond = (s.set R.MATE_STAT F.MATE_STAT_ISOLATED 0).losePartner := by
  have hi : s.condIso false = s.set R.MATE_STAT F.MATE_STAT_ISOLATED 0 := if_pos rfl
  rw [s.mateCond_eq h0, hg, Bool.not_true, Bool.and_false, hi]
  refine State.condLost_lose _ ?_
  rw [State.flag, State.get_set_apart _ _ _ _ _ (by decide) (by decide)]
  exact hl

theorem State.mateCond_isolated (h0 : s.role ≠ 0) (hg : s.partnerGone = false) (hk : s.mate.linkLost = true)
    (hi : s.flag R.MATE_STAT F.MATE_STAT_ISOLATED = false) :
    s.mateCond = s.isolate.unpromote.set R.MATE_STAT F.MATE_STAT_PARTNER_LOST 0 := by
  have hc : s.condIso true = s.isolate := (if_neg Bool.false_ne_true).trans (if_neg (by simp [hi]))
  rw [s.mateCond_eq h0, hg, hk, Bool.not_false, Bool.and_true, hc]
  exact if_neg Bool.false_ne_true

theorem mateCond_spec : (s.role = 0 → s.mateCond = s) ∧ (s.role ≠ 0 → s.partnerGone = true → s.flag R.MATE_STAT F.MATE_STAT_PARTNER_LOST = false →
      s.mateCond.flag R.MATE_STAT F.MATE_STAT_PARTNER_LOST = true ∧ s.mateCond.get R.MATE_HIST F.MATE_HIST_PARTNER_LOST = 1 ∧
      (s.role = 2 → s.mayPromote = true → s.mateCond.role = 1 ∧ s.mateCond.epoch = nextEpoch s.epoch ∧ s.mateCond.get R.MATE_HIST F.MATE_HIST_PROMOTED = 1) ∧
      (s.role = 2 → s.mayPromote = false → s.mateCond.role = 2 ∧ s.mateCond.mate.promote = true)) ∧
    (s.role ≠ 0 → s.partnerGone = false → s.mate.linkLost = true → s.flag R.MATE_STAT F.MATE_STAT_ISOLATED = false →
      s.mateCond.flag R.MATE_STAT F.MATE_STAT_ISOLATED = true ∧ s.mateCond.get R.MATE_HIST F.MATE_HIST_ISOLATED = 1 ∧ s.mateCond.role = s.role) := by
  refine ⟨s.mateCond_solo, fun h0 hg hl => ?_, fun h0 hg hk hi => ?_⟩
  · obtain ⟨w, hw⟩ : ∃ w, w = s.set R.MATE_STAT F.MATE_STAT_ISOLATED 0 := ⟨_, rfl⟩
    have hrole : w.role = s.role := by rw [State.role, hw, State.get_set_apart _ _ _ _ _ (by decide) (by decide)]; rfl
    have hep : w.epoch = s.epoch := by rw [State.epoch, hw, State.rd_set_ne _ _ _ (by decide)]; rfl
    have hm : w.mayPromote = s.mayPromote := by rw [State.mayPromote, hw, State.get_set_ne _ _ _ _ (by decide)]; rfl
    have he := s.mateCond_lost h0 hg hl
    obtain ⟨g1, g2, g3, g4⟩ := w.losePartner_spec
    rw [← hw] at he
    rw [← he] at g1 g2 g3 g4
    rw [hrole, hm, hep] at g3
    rw [hrole, hm] at g4
    exact ⟨g1, g2, g3, g4⟩
  · obtain ⟨h1, h2, h3⟩ := s.isolate_spec
    rw [s.mateCond_isolated h0 hg hk hi]
    refine ⟨?_, ?_, ?_⟩
    · rw [State.flag, State.get_set_apart _ _ _ _ _ (by decide) (by decide), State.unpromote_get]
      exact h1
    · rw [State.get_set_ne _ _ _ _ (by decide), State.unpromote_get]
      exact h2
    · rw [State.role, State.get_set_apart _ _ _ _ _ (by decide) (by decide), State.unpromote_get]
      exact h3

end cond

end Sys2Proof.Machine

/-! Heartbeats, paths, the link and the time exchange of a pair. -/
namespace Sys2Proof.Machine

section paths
variable (s : State)

/-! ### What the twin keeps of its paths -/

def State.restartOver (s : State) : State := { s with mate := { s.mate with restart := false } }
def State.sbBack (s : State) : State := { s with mate := { s.mate with sbLost := false } }
def State.sbGone (s : State) : State := { s with mate := { s.mate with sbLost := true } }
def State.linkDropped (s : State) : State := { s with mate := { s.mate with linkLost := true } }
def State.linkBack (s : State) : State := { s with mate := { s.mate with linkLost := false } }

theorem State.restartOver_get (a : Nat) (f : Bits) : s.restartOver.get a f = s.get a f := rfl
theorem State.restartOver_rd (a : Nat) : s.restartOver.rd a = s.rd a := rfl
theorem State.restartOver_mate : s.restartOver.mate = { s.mate with restart := false } := rfl
theorem State.sbGone_mate : s.sbGone.mate = { s.mate with sbLost := true } := rfl
theorem State.linkDropped_rd (a : Nat) : s.linkDropped.rd a = s.rd a := rfl
theorem State.linkDropped_mate : s.linkDropped.mate = { s.mate with linkLost := true } := rfl

/-! ### Heartbeats -/

theorem heartbeatSend_spec : ((s.persona = 1 ∨ s.lifecycle = 4 ∨ s.rst.cold = true ∨ (s.rst.plane = true ∧ s.rst.warmRun = false)) → exec .heartbeatSend s = .next s) ∧
    (s.persona ≠ 1 → s.lifecycle ≠ 4 → s.rst.cold = false → (s.rst.plane = false ∨ s.rst.warmRun = true) →
    exec .heartbeatSend s = .next { s with mate := { s.mate with alive := !s.mate.alive } }) := by
  refine ⟨fun h => congrArg Host.Outcome.next (if_pos ?_), fun h1 h2 h3 h4 => congrArg Host.Outcome.next (if_neg ?_)⟩
  · rcases h with h | h | h | h <;> simp [h]
  · rcases h4 with h4 | h4 <;> simp [h1, h2, h3, h4]

theorem paths_off (r : Bool) (k t : Nat) (h : s.persona = 1 ∨ s.lifecycle = 4) : exec (.heartbeatReceive r r k) s = .next s ∧
    exec (.pathLost r t) s = .next (s.at_ t) ∧ exec .sidebandLost s = .next s := by
  refine ⟨congrArg Host.Outcome.next (if_pos h), congrArg Host.Outcome.next (if_pos ?_), congrArg Host.Outcome.next (if_pos ?_)⟩
  · exact h.elim .inl fun h => .inr (.inl h)
  · exact h.elim .inl fun h => .inr (.inl h)

/-- A heartbeat on the link, with the count of those missed before it. -/
def State.beat (s : State) (k : Nat) (restarting : Bool) : State :=
  (s.count R.MATE_HB_MISS_CNT k).setB R.MATE_STAT F.MATE_STAT_PARTNER_RESTARTING restarting

theorem State.beat_flag (k : Nat) (b : Bool) : (s.beat k b).flag R.MATE_STAT F.MATE_STAT_PARTNER_RESTARTING = b :=
  State.flag_setB_self _ _ _ _ (by decide) rfl

theorem State.beat_role (k : Nat) (b : Bool) : (s.beat k b).role = s.role := by
  rw [State.role, State.beat, State.get_setB_apart _ _ _ _ (by decide) (by decide), State.count, State.get_wr_ne _ _ _ (by decide)]
  rfl

theorem State.beat_mate (k : Nat) (b : Bool) : (s.beat k b).mate = s.mate := by rw [State.beat, State.setB_mate, State.count_mate]

theorem State.beat_count (k : Nat) (b : Bool) : ((s.beat k b).rd R.MATE_HB_MISS_CNT).toNat = min 0xFFFFFFFF ((s.rd R.MATE_HB_MISS_CNT).toNat + k) := by
  rw [State.beat, State.rd_setB_ne _ _ _ (by decide), State.rd_count]

/-- The PRIMARY of a partner that restarts waits for no acknowledgement, and resynchronises. -/
def State.resync (s : State) : State := s.clearAwait.setSync 1

variable {s} (hp : s.persona ≠ 1) (he : s.lifecycle ≠ 4)
include hp he

theorem beat_noLink (r : Bool) (k : Nat) (hl : s.flag R.MATE_STAT F.MATE_STAT_LINK_UP = false) : exec (.heartbeatReceive true r k) s = .next s :=
  congrArg Host.Outcome.next ((if_neg (by simp [hp, he])).trans ((if_pos rfl).trans (if_pos (by simp [hl]))))

theorem beat_link (r : Bool) (k : Nat) (hl : s.flag R.MATE_STAT F.MATE_STAT_LINK_UP = true) : exec (.heartbeatReceive true r k) s = .next
    (if r then (if !s.flag R.MATE_STAT F.MATE_STAT_PARTNER_RESTARTING && (s.beat k r).role == 1 then (s.beat k r).resync else s.beat k r)
      else (s.beat k r).restartOver.mateCond) :=
  congrArg Host.Outcome.next ((if_neg (by simp [hp, he])).trans ((if_pos rfl).trans (if_neg (by simp [hl]))))

omit hp he in
theorem State.resync_spec (w : State) : w.resync.sync = 1 ∧ w.resync.mate.await = [] ∧
    w.resync.flag R.MATE_STAT F.MATE_STAT_PARTNER_RESTARTING = w.flag R.MATE_STAT F.MATE_STAT_PARTNER_RESTARTING := by
  refine ⟨State.setSync_sync _ (by decide), ?_, ?_⟩
  · rw [State.resync, (State.setSync_onlyRegs _ _).mate, State.clearAwait_mate]
  · rw [State.flag, State.resync, State.setSync_get _ _ (by decide) (by decide), State.clearAwait_get _ _ (by decide) (by decide) (by decide)]
    rfl

theorem beat_restarting (k : Nat) (hl : s.flag R.MATE_STAT F.MATE_STAT_LINK_UP = true) : ∃ u, exec (.heartbeatReceive true true k) s = .next u ∧
    u.flag R.MATE_STAT F.MATE_STAT_PARTNER_RESTARTING = true ∧
    (s.role = 1 → s.flag R.MATE_STAT F.MATE_STAT_PARTNER_RESTARTING = false → u.sync = 1 ∧ u.mate.await = []) := by
  have hx := beat_link hp he true k hl
  rw [if_pos rfl, s.beat_role] at hx
  obtain ⟨h1, h2, h3⟩ := (s.beat k true).resync_spec
  by_cases hc : (!s.flag R.MATE_STAT F.MATE_STAT_PARTNER_RESTARTING && s.role == 1) = true
  · exact ⟨_, hx.trans (congrArg _ (if_pos hc)), h3.trans (s.beat_flag _ _), fun _ _ => ⟨h1, h2⟩⟩
  · exact ⟨_, hx.trans (congrArg _ (if_neg hc)), s.beat_flag _ _, fun h1 h2 => absurd (by simp [h1, h2]) hc⟩

theorem beat_running (k : Nat) (hl : s.flag R.MATE_STAT F.MATE_STAT_LINK_UP = true) : ∃ w : State, exec (.heartbeatReceive true false k) s = .next w.mateCond ∧
    w.flag R.MATE_STAT F.MATE_STAT_PARTNER_RESTARTING = false ∧ w.mate = { s.mate with restart := false } ∧
    (w.rd R.MATE_HB_MISS_CNT).toNat = min 0xFFFFFFFF ((s.rd R.MATE_HB_MISS_CNT).toNat + k) := by
  refine ⟨(s.beat k false).restartOver, (beat_link hp he false k hl).trans (congrArg _ (if_neg Bool.false_ne_true)), ?_, ?_, ?_⟩
  · rw [State.flag, State.restartOver_get]
    exact s.beat_flag _ _
  · rw [State.restartOver_mate, s.beat_mate]
  · rw [State.restartOver_rd, s.beat_count]

theorem beat_sideband (r : Bool) (k : Nat) : ∃ w : State, exec (.heartbeatReceive false r k) s = .next w.mateCond ∧
    w.flag R.MATE_STAT F.MATE_STAT_SB_ALIVE = true ∧ w.mate = { s.mate with sbLost := false } ∧
    (w.rd R.MATE_HB_MISS_CNT).toNat = min 0xFFFFFFFF ((s.rd R.MATE_HB_MISS_CNT).toNat + k) := by
  refine ⟨(s.sbBack.count R.MATE_HB_MISS_CNT k).set R.MATE_STAT F.MATE_STAT_SB_ALIVE 1,
    congrArg Host.Outcome.next ((if_neg (by simp [hp, he])).trans (if_neg Bool.false_ne_true)), State.flag_of_get (State.get_set_fits _ _ _ (by decide) (by decide)), ?_, ?_⟩
  · rw [State.set_mate, State.count_mate]
    rfl
  · rw [State.rd_set_ne _ _ _ (by decide), State.rd_count]
    rfl

/-! ### Paths lost -/

omit hp he in
theorem pathLost_again (link : Bool) (t : Nat) (h : (if link then s.mate.linkLost else s.mate.sbLost) = true) : exec (.pathLost link t) s = .next (s.at_ t) :=
  congrArg Host.Outcome.next (if_pos (.inr (.inr h)))

omit hp he in
/-- The sideband is down: its count, its record and its history bit. -/
theorem State.sbDown_spec (s : State) : ∃ w : State, s.sbDown = w.mateCond ∧ w.mate = { s.mate with sbLost := true } ∧
    w.get R.MATE_HIST F.MATE_HIST_SB_LOST = 1 ∧ w.flag R.MATE_STAT F.MATE_STAT_SB_ALIVE = false := by
  refine ⟨(((s.count R.MATE_HB_MISS_CNT 8).sbGone.set R.MATE_STAT F.MATE_STAT_SB_ALIVE 0).raise Hist.mate F.MATE_HIST_SB_LOST), rfl, ?_,
    State.get_raise _ Hist.mate _ rfl (by decide), State.flag_of_get0 ?_⟩
  · rw [State.raise_mate, State.set_mate, State.sbGone_mate, State.count_mate]
  · rw [State.get_raise_ne _ Hist.mate _ _ (by decide)]
    exact State.get_set_fits _ _ _ (by decide) (by decide)

theorem pathLost_link (t : Nat) (h : s.mate.linkLost = false) : ∃ w : State, exec (.pathLost true t) s = .next w.mateCond ∧
    w.mate = { s.mate with linkLost := true } ∧ (w.rd R.MATE_HB_MISS_CNT).toNat = min 0xFFFFFFFF ((s.rd R.MATE_HB_MISS_CNT).toNat + 8) := by
  refine ⟨((s.at_ t).count R.MATE_HB_MISS_CNT 8).linkDropped, congrArg Host.Outcome.next ((if_neg ?_).trans (if_pos rfl)), ?_, ?_⟩
  · exact fun hc => hc.elim hp fun hc => hc.elim he fun hc => absurd (h.symm.trans hc) Bool.false_ne_true
  · rw [State.linkDropped_mate, State.count_mate]
    rfl
  · rw [State.linkDropped_rd, State.rd_count]
    rfl

theorem pathLost_sideband (t : Nat) (h : s.mate.sbLost = false) : exec (.pathLost false t) s = .next (s.at_ t).sbDown := by
  refine congrArg Host.Outcome.next ((if_neg ?_).trans (if_neg Bool.false_ne_true))
  exact fun hc => hc.elim hp fun hc => hc.elim he fun hc => absurd (h.symm.trans hc) Bool.false_ne_true

theorem sidebandLost_down (h : s.mate.sbLost = false) : exec .sidebandLost s = .next s.sbDown :=
  congrArg Host.Outcome.next (if_neg fun hc => hc.elim hp fun hc => hc.elim he fun hc => absurd (h.symm.trans hc) Bool.false_ne_true)

omit hp he in
theorem paths_spec (s : State) (r : Bool) (k t : Nat) : ((s.persona = 1 ∨ s.lifecycle = 4) → exec (.heartbeatReceive r r k) s = .next s ∧
      exec (.pathLost r t) s = .next (s.at_ t) ∧ exec .sidebandLost s = .next s) ∧
    (s.persona ≠ 1 → s.lifecycle ≠ 4 → (s.flag R.MATE_STAT F.MATE_STAT_LINK_UP = false → exec (.heartbeatReceive true r k) s = .next s) ∧
      (s.flag R.MATE_STAT F.MATE_STAT_LINK_UP = true → (∃ u, exec (.heartbeatReceive true true k) s = .next u ∧ u.flag R.MATE_STAT F.MATE_STAT_PARTNER_RESTARTING = true ∧
          (s.role = 1 → s.flag R.MATE_STAT F.MATE_STAT_PARTNER_RESTARTING = false → u.sync = 1 ∧ u.mate.await = [])) ∧
        ∃ w : State, exec (.heartbeatReceive true false k) s = .next w.mateCond ∧ w.flag R.MATE_STAT F.MATE_STAT_PARTNER_RESTARTING = false ∧ w.mate = { s.mate with restart := false } ∧
          (w.rd R.MATE_HB_MISS_CNT).toNat = min 0xFFFFFFFF ((s.rd R.MATE_HB_MISS_CNT).toNat + k)) ∧
      (∃ w : State, exec (.heartbeatReceive false r k) s = .next w.mateCond ∧ w.flag R.MATE_STAT F.MATE_STAT_SB_ALIVE = true ∧ w.mate = { s.mate with sbLost := false } ∧
        (w.rd R.MATE_HB_MISS_CNT).toNat = min 0xFFFFFFFF ((s.rd R.MATE_HB_MISS_CNT).toNat + k)) ∧
      (s.mate.linkLost = true → exec (.pathLost true t) s = .next (s.at_ t)) ∧ (s.mate.sbLost = true → exec (.pathLost false t) s = .next (s.at_ t) ∧ exec .sidebandLost s = .next s) ∧
      (s.mate.linkLost = false → ∃ w : State, exec (.pathLost true t) s = .next w.mateCond ∧ w.mate = { s.mate with linkLost := true } ∧
        (w.rd R.MATE_HB_MISS_CNT).toNat = min 0xFFFFFFFF ((s.rd R.MATE_HB_MISS_CNT).toNat + 8)) ∧
      (s.mate.sbLost = false → (∃ w : State, exec (.pathLost false t) s = .next w.mateCond ∧ w.mate = { s.mate with sbLost := true } ∧ w.get R.MATE_HIST F.MATE_HIST_SB_LOST = 1) ∧
        ∃ w : State, exec .sidebandLost s = .next w.mateCond ∧ w.mate = { s.mate with sbLost := true } ∧ w.flag R.MATE_STAT F.MATE_STAT_SB_ALIVE = false)) := by
  refine ⟨paths_off s r k t, fun hp he => ⟨beat_noLink hp he r k, fun hl => ⟨beat_restarting hp he k hl, beat_running hp he k hl⟩, beat_sideband hp he r k,
    pathLost_again true t, fun h => ⟨pathLost_again false t h, congrArg Host.Outcome.next (if_pos (.inr (.inr h)))⟩, pathLost_link hp he t, fun h => ⟨?_, ?_⟩⟩⟩
  · obtain ⟨w, h1, h2, h3, -⟩ := (s.at_ t).sbDown_spec
    exact ⟨w, (pathLost_sideband hp he t h).trans (congrArg _ h1), h2, h3⟩
  · obtain ⟨w, h1, h2, -, h4⟩ := s.sbDown_spec
    exact ⟨w, (sidebandLost_down hp he h).trans (congrArg _ h1), h2, h4⟩

end paths

end Sys2Proof.Machine

/-! The link of a pair going down and coming up, the time exchange, and acknowledgements of forwarded operations (R401 to R403). -/
namespace Sys2Proof.Machine

section link
variable (s : State)

/-! ### The link -/

theorem restartTimeout_spec (t : Nat) : (s.role = 2 → s.flag R.MATE_STAT F.MATE_STAT_PARTNER_RESTARTING = true →
      exec (.partnerRestartTimeout t) s = .next ({ s with now := t, mate := { s.mate with restart := true } } : State).mateCond) ∧
    ((s.role ≠ 2 ∨ s.flag R.MATE_STAT F.MATE_STAT_PARTNER_RESTARTING = false) → exec (.partnerRestartTimeout t) s = .next (s.at_ t)) ∧
    (s.flag R.MATE_STAT F.MATE_STAT_LINK_UP = false → exec .mateLinkDown s = .next s) ∧
    (s.flag R.MATE_STAT F.MATE_STAT_LINK_UP = true → ∃ w : State, exec .mateLinkDown s = .next w.mateCond ∧ w.mate = { s.mate with linkLost := true } ∧
      w.flag R.MATE_STAT F.MATE_STAT_LINK_UP = false) := by
  refine ⟨fun h1 h2 => congrArg Host.Outcome.next (if_pos ⟨h1, h2⟩), fun h => congrArg Host.Outcome.next (if_neg fun hc => ?_),
    fun h => congrArg Host.Outcome.next (if_neg (by simp [h])), fun h =>
      ⟨s.linkDropped.set R.MATE_STAT F.MATE_STAT_LINK_UP 0, congrArg Host.Outcome.next (if_pos h), ?_, State.flag_of_get0 (State.get_set_fits _ _ _ (by decide) (by decide))⟩⟩
  · exact h.elim (fun h => h hc.1) fun h => absurd (h.symm.trans hc.2) Bool.false_ne_true
  · rw [State.set_mate, State.linkDropped_mate]

/-- The roles as a link that comes up finds them. -/
def State.reconciled (s : State) (p : PeerRole) : State :=
  if s.outranked p then ((s.setEpoch p.epoch).setRole 2).raise Hist.mate F.MATE_HIST_DEMOTED else s

theorem mateLinkUp_run (p : PeerRole) (h1 : s.mateOff = false) (h2 : s.flag R.MATE_STAT F.MATE_STAT_LINK_UP = false ∨ s.mate.linkLost = true) :
    exec (.mateLinkUp p) s = .next (if ((s.linkBack.set R.MATE_STAT F.MATE_STAT_LINK_UP 1).mateCond).role = 0 then
        (s.linkBack.set R.MATE_STAT F.MATE_STAT_LINK_UP 1).mateCond
      else (((((s.linkBack.set R.MATE_STAT F.MATE_STAT_LINK_UP 1).mateCond).set R.MATE_PARTNER F.MATE_PARTNER_DEVNUM p.devnum)).reconciled p).setSync 1) := by
  refine congrArg Host.Outcome.next (if_neg ?_)
  rcases h2 with h2 | h2 <;> simp [h1, h2]

theorem State.setEpoch_mod (e : Nat) : (s.setEpoch e).epoch = e % 2 ^ 32 := by
  rw [State.epoch, State.setEpoch, State.change_rd _ _ (by decide), State.rd_wr_self]
  rfl

theorem State.reconciled_spec (p : PeerRole) : (s.outranked p = false → s.reconciled p = s) ∧ (s.outranked p = true → (s.reconciled p).role = 2 ∧
    (s.reconciled p).epoch = p.epoch % 2 ^ 32 ∧ (s.reconciled p).get R.MATE_HIST F.MATE_HIST_DEMOTED = 1) := by
  refine ⟨fun h => if_neg (by simp [h]), fun h => ?_⟩
  have he : s.reconciled p = ((s.setEpoch p.epoch).setRole 2).raise Hist.mate F.MATE_HIST_DEMOTED := if_pos h
  rw [he]
  refine ⟨?_, ?_, State.get_raise _ Hist.mate _ rfl (by decide)⟩
  · rw [State.role, State.get_raise_ne _ Hist.mate _ _ (by decide)]
    exact State.setRole_role _ (by decide)
  · rw [State.epoch, State.rd_raise_ne _ Hist.mate _ (by decide), State.setRole_rd _ _ (by decide) (by decide)]
    exact s.setEpoch_mod _

/-- From the state `w` in which the conditions follow the link that is up. -/
theorem State.linkUpEnd_spec (w : State) (p : PeerRole) : ∀ u, u = ((w.set R.MATE_PARTNER F.MATE_PARTNER_DEVNUM p.devnum).reconciled p).setSync 1 →
    u.sync = 1 ∧ (w.outranked p = false → u.role = w.role ∧ u.epoch = w.epoch) ∧
    (w.outranked p = true → u.role = 2 ∧ u.epoch = p.epoch % 2 ^ 32 ∧ u.get R.MATE_HIST F.MATE_HIST_DEMOTED = 1) := by
  intro u hu
  obtain ⟨x, hx⟩ : ∃ x, x = w.set R.MATE_PARTNER F.MATE_PARTNER_DEVNUM p.devnum := ⟨_, rfl⟩
  have hrole : x.role = w.role := by rw [State.role, hx, State.get_set_ne _ _ _ _ (by decide)]; rfl
  have hep : x.epoch = w.epoch := by rw [State.epoch, hx, State.rd_set_ne _ _ _ (by decide)]; rfl
  have hout : x.outranked p = w.outranked p := by rw [State.outranked, State.outranked, hrole, hep, hx, State.get_set_ne _ _ _ _ (by decide)]
  obtain ⟨g1, g2⟩ := x.reconciled_spec p
  rw [hout] at g1 g2
  rw [← hx] at hu
  have hr : u.role = (x.reconciled p).role := by rw [hu, State.role, State.setSync_get _ _ (by decide) (by decide)]; rfl
  have he : u.epoch = (x.reconciled p).epoch := by rw [hu, State.epoch, State.setSync_rd _ _ (by decide) (by decide)]; rfl
  refine ⟨by rw [hu]; exact State.setSync_sync _ (by decide), fun h => ?_, fun h => ?_⟩
  · rw [hr, he, g1 h]
    exact ⟨hrole, hep⟩
  · obtain ⟨k1, k2, k3⟩ := g2 h
    refine ⟨hr.trans k1, he.trans k2, ?_⟩
    rw [hu]
    exact State.setSync_hist _ _ (b := 4) (by decide) k3

theorem mateLinkUp_spec (w : State) (p : PeerRole) : ((s.mateOff = true ∨ (s.flag R.MATE_STAT F.MATE_STAT_LINK_UP = true ∧ s.mate.linkLost = false)) → exec (.mateLinkUp p) s = .next s) ∧
    (s.mateOff = false → (s.flag R.MATE_STAT F.MATE_STAT_LINK_UP = false ∨ s.mate.linkLost = true) →
      w = (({ s with mate := { s.mate with linkLost := false } } : State).set R.MATE_STAT F.MATE_STAT_LINK_UP 1).mateCond → (w.role = 0 → exec (.mateLinkUp p) s = .next w) ∧
      (w.role ≠ 0 → ∃ u, exec (.mateLinkUp p) s = .next u ∧ u.sync = 1 ∧ (w.outranked p = false → u.role = w.role ∧ u.epoch = w.epoch) ∧
        (w.outranked p = true → u.role = 2 ∧ u.epoch = p.epoch % 2 ^ 32 ∧ u.get R.MATE_HIST F.MATE_HIST_DEMOTED = 1))) := by
  refine ⟨fun h => congrArg Host.Outcome.next (if_pos ?_), fun h1 h2 hw => ?_⟩
  · rcases h with h | ⟨h, h'⟩
    · simp [h]
    · simp [h, h']
  · have hx := mateLinkUp_run s p h1 h2
    rw [show (s.linkBack.set R.MATE_STAT F.MATE_STAT_LINK_UP 1).mateCond = w from hw.symm] at hx
    exact ⟨fun h => hx.trans (congrArg _ (if_pos h)), fun h => ⟨_, hx.trans (congrArg _ (if_neg h)), w.linkUpEnd_spec p _ rfl⟩⟩

/-! ### The time exchange -/

/-- The STANDBY is ready for a changeover, or not. -/
def State.readyIf (s : State) (b : Prop) [Decidable b] : State :=
  if b then s.set R.MATE_STAT F.MATE_STAT_CHANGEOVER_READY 1 else s.readyFall

theorem State.readyIf_spec (b : Prop) [Decidable b] : s.onlyRegs (s.readyIf b) [R.MATE_SKEW, R.MATE_STAT, R.MATE_HIST] ∧
    (s.readyIf b).rdInt R.MATE_SKEW = s.rdInt R.MATE_SKEW ∧ ((s.readyIf b).flag R.MATE_STAT F.MATE_STAT_CHANGEOVER_READY = true ↔ b) := by
  by_cases h : b
  · have he : s.readyIf b = s.set R.MATE_STAT F.MATE_STAT_CHANGEOVER_READY 1 := if_pos h
    rw [he]
    refine ⟨s.set_onlyRegs _ _ (by decide), ?_, fun _ => h, fun _ => State.flag_of_get (State.get_set_fits _ _ _ (by decide) (by decide))⟩
    rw [State.rdInt, State.rd_set_ne _ _ _ (by decide)]
    rfl
  · have he : s.readyIf b = s.readyFall := if_neg h
    rw [he]
    refine ⟨s.readyFall_onlyRegs.mono (by decide), ?_, fun hf => absurd (s.readyFall_ready.symm.trans hf) Bool.false_ne_true, fun hb => absurd hb h⟩
    rw [State.rdInt, s.readyFall_rd (by decide) (by decide)]
    rfl

theorem State.rdInt_wrInt (a : Nat) {k : Int} (h1 : -2147483648 ≤ k) (h2 : k < 2147483648) : (s.wrInt a k).rdInt a = k := by
  rw [State.rdInt, State.wrInt, State.rd_wr_self, BitVec.toInt_ofInt]
  exact Int.bmod_eq_of_le (by simpa using h1) (by simpa using h2)

theorem timeExchange_spec (k : Int) (b : Bool) :
    ((s.role ≠ 2 ∨ s.mate.linkLost = true ∨ s.flag R.MATE_STAT F.MATE_STAT_LINK_UP = false) → exec (.timeExchange k b) s = .next s) ∧
    (s.role = 2 → s.mate.linkLost = false → s.flag R.MATE_STAT F.MATE_STAT_LINK_UP = true → -2147483648 ≤ k → k < 2147483648 → ∃ u, exec (.timeExchange k b) s = .next u ∧
      u.rdInt R.MATE_SKEW = k ∧ s.onlyRegs u [R.MATE_SKEW, R.MATE_STAT, R.MATE_HIST] ∧ (u.flag R.MATE_STAT F.MATE_STAT_CHANGEOVER_READY = true ↔
        s.sync = 2 ∧ b = true ∧ s.get R.REF_STAT F.REF_STAT_STATE = 2 ∧ k.natAbs ≤ max 1 (s.get R.MATE_CTL F.MATE_CTL_ALIGN_LIMIT))) := by
  refine ⟨fun h => congrArg Host.Outcome.next (if_pos ?_), fun h1 h2 h3 hk1 hk2 => ?_⟩
  · rcases h with h | h | h <;> simp [h]
  · obtain ⟨w, hw⟩ : ∃ w, w = s.wrInt R.MATE_SKEW k := ⟨_, rfl⟩
    have hg {a : Nat} (f : Bits) (ha : a ≠ R.MATE_SKEW) : w.get a f = s.get a f := by rw [hw, State.wrInt, State.get_wr_ne _ _ _ ha]
    have hx : exec (.timeExchange k b) s = .next (w.readyIf (w.sync = 2 ∧ b = true ∧ w.get R.REF_STAT F.REF_STAT_STATE = 2 ∧
        k.natAbs ≤ max 1 (w.get R.MATE_CTL F.MATE_CTL_ALIGN_LIMIT))) := by
      rw [hw]
      exact congrArg Host.Outcome.next (if_neg (by simp [h1, h2, h3]))
    obtain ⟨g1, g2, g3⟩ := w.readyIf_spec (w.sync = 2 ∧ b = true ∧ w.get R.REF_STAT F.REF_STAT_STATE = 2 ∧
        k.natAbs ≤ max 1 (w.get R.MATE_CTL F.MATE_CTL_ALIGN_LIMIT))
    refine ⟨_, hx, g2.trans (by rw [hw]; exact s.rdInt_wrInt _ hk1 hk2), State.onlyRegs.trans (by rw [hw]; exact s.wr_onlyRegs _ (by decide)) g1, ?_⟩
    rw [g3, State.sync, hg _ (by decide), hg _ (by decide), hg _ (by decide)]
    rfl

/-! ### Acknowledgements of forwarded operations -/

theorem State.fwdAnswered_mate (id : Nat) : (s.fwdAnswered id).lvTakesDone.mate =
    { s.mate with await := s.mate.await.erase id, fwdRfn := s.mate.fwdRfn.filter fun p => p.1 != id } := by
  rw [State.lvTakesDone_mate, State.fwdAnswered, State.dropDiscarded_mate]

theorem forwardAck_spec (id : Nat) : (∃ u, exec (.forwardAck id) s = .next u ∧
      u.mate = { s.mate with await := s.mate.await.erase id, fwdRfn := s.mate.fwdRfn.filter fun p => p.1 != id }) ∧
    ((s.role ≠ 1 ∨ id ∉ s.mate.await) → exec (.forwardAckTimeout id) s = .next s) ∧ (s.role = 1 → id ∈ s.mate.await → ∃ u, exec (.forwardAckTimeout id) s = .next u ∧
      u.mate = { s.mate with await := s.mate.await.erase id, fwdRfn := s.mate.fwdRfn.filter fun p => p.1 != id } ∧ u.sync = 1 ∧ u.get R.MATE_HIST F.MATE_HIST_FWD_LATE = 1) := by
  refine ⟨⟨_, rfl, s.fwdAnswered_mate id⟩, fun h => congrArg Host.Outcome.next (if_neg fun hc => ?_), fun h1 h2 =>
    ⟨((s.fwdAnswered id).lvTakesDone.raise Hist.mate F.MATE_HIST_FWD_LATE).setSync 1, congrArg Host.Outcome.next (if_pos ⟨h1, by simpa using h2⟩), ?_,
      State.setSync_sync _ (by decide), State.setSync_hist _ _ (b := 9) (by decide) (State.get_raise _ Hist.mate _ rfl (by decide))⟩⟩
  · exact h.elim (fun h => h hc.1) fun h => h (by simpa using hc.2)
  · rw [(State.setSync_onlyRegs _ _).mate, State.raise_mate, s.fwdAnswered_mate]

end link

end Sys2Proof.Machine

/-! Forwarded operations on the STANDBY, and the end of a state transfer (R399, R401). -/
namespace Sys2Proof.Machine

section forward
variable (s : State)

theorem State.fwdSeq_mate (seq : Option (Nat × Nat)) : (s.fwdSeq seq).mate = s.mate :=
  (State.fwdSeq_kept (.refl [.regs, .axl] s) seq (Sub.self _)).2.2 .mate (by decide)

theorem State.syncFail_sync : s.syncFail.sync = 3 := by
  rw [State.sync, State.syncFail, State.get_congr (State.raiseVec_regs ..)]
  exact State.setSync_sync _ (by decide)

theorem State.setSync_synced : s.setSync 2 = s.set R.MATE_STAT F.MATE_STAT_SYNC 2 := rfl

theorem State.fwdSee_get (num a : Nat) (f : Bits) : (s.fwdSee num).get a f = s.get a f := rfl

theorem forwardReceive_run {num : Nat} {h : Hdr} {seq : Option (Nat × Nat)} {op : FwdOp} {w : State} (hr : s.fwdRefuses num = false) (hw : w = (s.at_ h.t).fwdSeq seq)
    (hs : w.sync ≠ 1) : exec (.forwardReceive num h seq op) s = .next (s.fwdEnd num (w.runFwd h op)) := by
  subst hw
  exact congrArg Host.Outcome.next ((if_neg (by simp [hr])).trans (if_neg hs))

/-- An operation that has no effect on the STANDBY changes nothing there but its number. -/
theorem State.runFwd_primaryOnly {w : State} (h : Hdr) (hr : w.isReady = true) (hi : w.inflight ≤ 16384) (hf : w.host.fwdNow = false) :
    w.runFwd h .primaryOnly = some (true, w) := by
  have hb : ({ w with host := { w.host with fwdNow := false } } : State) = w := by rw [← hf]
  refine (if_pos ⟨hr, hi⟩).trans ?_
  exact congrArg (fun x => some (true, x)) hb

theorem forwardReceive_spec (w : State) (num : Nat) (h : Hdr) (seq : Option (Nat × Nat)) (op : FwdOp) : (s.fwdRefuses num = true → exec (.forwardReceive num h seq op) s = .next s) ∧
    (s.fwdRefuses num = false → w = (s.at_ h.t).fwdSeq seq → (w.sync = 1 → ∃ u, exec (.forwardReceive num h seq op) s = .next u ∧ u.mate.fwdSeen = s.mate.fwdSeen ++ [num] ∧
        u.mate.fwdHold = s.mate.fwdHold ++ [(h, op)]) ∧
      (w.sync ≠ 1 → (w.runFwd h op = none → exec (.forwardReceive num h seq op) s = .next (s.fwdWait num)) ∧
        (∀ x, w.runFwd h op = some (true, x) → exec (.forwardReceive num h seq op) s = .next ((s.accept x).fwdSee num)) ∧
        (∀ x, w.runFwd h op = some (false, x) → ∃ u, exec (.forwardReceive num h seq op) s = .next u ∧ u.sync = 3)) ∧
      (w.sync ≠ 1 → op = .primaryOnly → w.isReady = true → w.inflight ≤ 16384 → w.host.fwdNow = false →
        exec (.forwardReceive num h seq op) s = .next ((s.accept w).fwdSee num))) := by
  refine ⟨fun hr => congrArg Host.Outcome.next (if_pos hr), fun hr hw => ⟨fun hs => ?_, fun hs => ⟨fun hx => ?_, fun x hx => ?_, fun x hx => ?_⟩, fun hs ho h1 h2 h3 => ?_⟩⟩
  · have hm : w.mate = s.mate := by rw [hw, State.fwdSeq_mate]; rfl
    refine ⟨(w.fwdSee num).fwdKeep h op, ?_, congrArg (fun x : MateSt => x.fwdSeen ++ [num]) hm, (congrArg (fun x : MateSt => x.fwdHold ++ [(h, op)]) hm :)⟩
    rw [hw] at hs ⊢
    exact congrArg Host.Outcome.next ((if_neg (by simp [hr])).trans (if_pos hs))
  · rw [forwardReceive_run s hr hw hs, hx]
    rfl
  · rw [forwardReceive_run s hr hw hs, hx]
    rfl
  · rw [forwardReceive_run s hr hw hs, hx]
    exact ⟨x.raiseOver.syncFail.fwdSee num, rfl, (State.fwdSee_get _ _ _ _).trans (State.syncFail_sync _)⟩
  · rw [forwardReceive_run s hr hw hs, ho, State.runFwd_primaryOnly h h1 h2 h3]
    rfl

/-! ### The end of a state transfer -/

/-- The items of a state transfer are in, and nothing is kept for later. -/
def State.transferred (s x : State) : State := { s.accept x with mate := { x.mate with fwdHold := [] } }

theorem State.transferred_hold (x : State) : (s.transferred x).mate.fwdHold = [] := rfl

/-- What the STANDBY makes of the items of a state transfer. -/
def State.transferEnd (s : State) : Option (Bool × State) → State
  | none => s.fwdWait 0
  | some (ok, x) =>
    if ok then (s.transferred x).setSync 2 else (s.transferred x).syncFail

theorem State.transferEnd_in (x : State) : s.transferEnd (some (true, x)) = (s.transferred x).setSync 2 := by
  simp only [State.transferEnd, if_true]

theorem State.transferEnd_out (x : State) : s.transferEnd (some (false, x)) = (s.transferred x).syncFail := by
  simp only [State.transferEnd, Bool.false_eq_true, if_false]

theorem stateTransfer_run {items : List (Hdr × FwdOp)} {t : Nat} (h1 : s.sync = 1) (ha : s.apart = false) (h2 : s.role = 2) (hf : s.fwdFree 0 = true) :
    exec (.stateTransferDone items t) s = .next (s.transferEnd ((s.at_ t).runFwds (items ++ s.mate.fwdHold))) := by
  refine congrArg Host.Outcome.next ((if_neg (by simp [h1, ha])).trans ((if_neg (by simp [h2])).trans ((if_neg (by simp [h2, hf])).trans ?_)))
  obtain ⟨x, hx⟩ : ∃ x, x = (s.at_ t).runFwds (items ++ s.mate.fwdHold) := ⟨_, rfl⟩
  rw [← hx]
  rcases x with _ | ⟨ok, x⟩ <;> rfl

theorem stateTransferDone_spec (items : List (Hdr × FwdOp)) (t : Nat) : ((s.sync ≠ 1 ∨ s.apart = true ∨ s.role = 0) → exec (.stateTransferDone items t) s = .next s) ∧
    (s.sync = 1 → s.apart = false →
    (s.role = 1 → ∃ u, exec (.stateTransferDone items t) s = .next u ∧ u.sync = 2 ∧ s.onlyRegs u [R.MATE_STAT]) ∧
    (s.role = 2 → s.fwdFree 0 = false → exec (.stateTransferDone items t) s = .next s) ∧
    (s.role = 2 → s.fwdFree 0 = true → ((s.at_ t).runFwds (items ++ s.mate.fwdHold) = none → exec (.stateTransferDone items t) s = .next (s.fwdWait 0)) ∧
      (∀ x, (s.at_ t).runFwds (items ++ s.mate.fwdHold) = some (true, x) → ∃ u, exec (.stateTransferDone items t) s = .next u ∧ u.sync = 2 ∧ u.mate.fwdHold = []) ∧
      (∀ x, (s.at_ t).runFwds (items ++ s.mate.fwdHold) = some (false, x) → ∃ u, exec (.stateTransferDone items t) s = .next u ∧ u.sync = 3 ∧ u.mate.fwdHold = []))) := by
  refine ⟨fun h => ?_, fun h1 ha => ⟨fun hr => ?_, fun hr hf => ?_, fun hr hf => ⟨fun hx => ?_, fun x hx => ?_, fun x hx => ?_⟩⟩⟩
  · by_cases hc : s.sync ≠ 1 ∨ s.apart = true
    · exact congrArg Host.Outcome.next (if_pos hc)
    · have h0 : s.role = 0 := by
        rcases h with h | h | h
        · exact absurd (.inl h) hc
        · exact absurd (.inr h) hc
        · exact h
      exact congrArg Host.Outcome.next ((if_neg hc).trans ((if_neg (by simp [h0])).trans (if_pos (by simp [h0]))))
  · refine ⟨s.setSync 2, congrArg Host.Outcome.next ((if_neg (by simp [h1, ha])).trans (if_pos hr)), State.setSync_sync _ (by decide), ?_⟩
    rw [s.setSync_synced]
    exact s.set_onlyRegs _ _ (.head _)
  · exact congrArg Host.Outcome.next ((if_neg (by simp [h1, ha])).trans ((if_neg (by simp [hr])).trans (if_pos (by simp [hf]))))
  · rw [stateTransfer_run s h1 ha hr hf, hx]
    rfl
  · rw [stateTransfer_run s h1 ha hr hf, hx]
    refine ⟨(s.transferred x).setSync 2, congrArg _ (s.transferEnd_in x), State.setSync_sync _ (by decide), ?_⟩
    rw [(State.setSync_onlyRegs _ _).mate, State.transferred_hold]
  · rw [stateTransfer_run s h1 ha hr hf, hx]
    refine ⟨(s.transferred x).syncFail, congrArg _ (s.transferEnd_out x), State.syncFail_sync _, ?_⟩
    have hm (w : State) : w.syncFail.mate = w.mate := (State.syncFail_kept (.refl [.regs, .vec] w) (Sub.self _)).2.2 .mate (by decide)
    rw [hm, State.transferred_hold]

end forward

end Sys2Proof.Machine

/-! Messages of the system domain (R408 to R411): what DOMAIN_MSG sends, its acknowledgement, and a packet that arrives. -/
namespace Sys2Proof.Machine

/-! ### DOMAIN_MSG -/

/-- The number and the time of the last message sent. -/
def State.domStamp (s : State) (id time : Nat) : State := { s with mate := { s.mate with msgId := id, lastSend := time } }

/-- The effect of a message `p` that leaves as number `id`. -/
def State.domSent (s : State) (h : Hdr) (id : Nat) (p : List Byte) : State :=
  (((s.domStamp id s.sendTime).domSend p).addOp h 0 (.dom { seq := id, packet := p })).2

/-- What the check of the message's descriptors makes of it. -/
def State.domOut (s : State) (h : Hdr) (tg un e : Nat) (l : List DomDesc) : Option Nat → Adm
  | some k => badData (some k)
  | none => if !s.entriesFree 1 then short 9
    else .yes (s.domSent h ((s.mate.msgId + 1) % 2 ^ 16)
      (s.domPacket 1 tg un e l.length ((s.mate.msgId + 1) % 2 ^ 16) s.sendTime ((l.map (·.raw)).flatten)))

section message
variable {s v : State} {h : Hdr} {tg un len ad : Nat} {ok : Bool} {ds : List DomDesc}

theorem domMsgBody_out (ht : v.timeValid = true) (hd : v.inDomain = true) (h0 : len ≠ 0) (h1 : len ≤ 1024) (h2 : len % 64 = 0) (ha : ad % 8 = 0)
    {l : List DomDesc} {e : Nat} (hl : l = ds.take (len / 64)) (he : e = ((l.head?).map fun d => domField d 4 4).getD 0) :
    domMsgBody h tg un len ad true ds v = v.domOut h tg un e l (domBad e l 0) := by
  subst hl he
  refine (if_neg (by simp [ht, hd])).trans ((if_neg (by omega)).trans ((if_neg (by omega)).trans ((if_neg (by decide)).trans ?_)))
  dsimp only
  generalize domBad _ _ 0 = x
  cases x <;> rfl

theorem State.domSent_spec (hf : v.host.fwdNow = false) (hr : v.host.restoring = false) (id : Nat) (p : List Byte) :
    v.flies (v.domSent h id p) h (.dom { seq := id, packet := p }) ∧ (v.domSent h id p).host.cpls = v.host.cpls ∧ (v.domSent h id p).media.net =
      v.media.net ++ [.domain (v.get R.MATE_DOM_CFG F.MATE_DOM_CFG_PORT) (v.get R.MATE_DOM_CFG F.MATE_DOM_CFG_SUB) p] := by
  obtain ⟨h1, h2, h3⟩ := State.addOp_flies (s := (v.domStamp id v.sendTime).domSend p) hf hr h 0 (.dom { seq := id, packet := p })
  exact ⟨State.flies.of_ops h1 rfl, h3, (congrArg MediaSt.net h2.media :)⟩

variable (hv : s.admits { op := 0x80, rfn := 0, pay := [fld 16 2 tg, fld 18 2 un, fld 20 2 len, fld 24 8 ad] } h v)
include hv

theorem domainMsg_noDomain (hc : v.timeValid = false ∨ v.inDomain = false) :
    ∃ u, exec (.domainMsg h tg un len ad ok ds) s = .next u ∧ v.posts u h 8 0 ∧ v.hostOnly u :=
  desc_run rfl (State.desc_refused hv (if_pos (by rcases hc with hc | hc <;> simp [hc])))

variable (ht : v.timeValid = true) (hd : v.inDomain = true)
include ht hd

theorem domainMsg_length (hc : len = 0 ∨ 1024 < len ∨ len % 64 ≠ 0) :
    ∃ u, exec (.domainMsg h tg un len ad ok ds) s = .next u ∧ v.posts u h 4 (badRes 20) ∧ v.hostOnly u :=
  desc_run rfl (State.desc_refused hv ((if_neg (by simp [ht, hd])).trans (if_pos hc)))

variable (h0 : len ≠ 0) (h1 : len ≤ 1024) (h2 : len % 64 = 0)
include h0 h1 h2

theorem domainMsg_addr (ha : ad % 8 ≠ 0) : ∃ u, exec (.domainMsg h tg un len ad ok ds) s = .next u ∧ v.posts u h 4 (badRes 24) ∧ v.hostOnly u :=
  desc_run rfl (State.desc_refused hv ((if_neg (by simp [ht, hd])).trans ((if_neg (by omega)).trans (if_pos ha))))

variable (ha : ad % 8 = 0)
include ha

theorem domainMsg_unread (hk : ok = false) : ∃ u, exec (.domainMsg h tg un len ad ok ds) s = .next u ∧ v.posts u h 7 1 ∧ v.hostOnly u :=
  desc_run rfl (State.desc_refused hv ((if_neg (by simp [ht, hd])).trans ((if_neg (by omega)).trans ((if_neg (by omega)).trans (if_pos (by simp [hk]))))))

variable {l : List DomDesc} {e : Nat} (hl : l = ds.take (len / 64)) (he : e = ((l.head?).map fun d => domField d 4 4).getD 0)
include hl he

theorem domainMsg_bad {k : Nat} (hb : domBad e l 0 = some k) :
    ∃ u, exec (.domainMsg h tg un len ad true ds) s = .next u ∧ v.posts u h 4 (dataRes (some k)) ∧ v.hostOnly u :=
  desc_run rfl (State.desc_refused hv ((domMsgBody_out ht hd h0 h1 h2 ha hl he).trans (congrArg (v.domOut h tg un e l) hb)))

theorem domainMsg_sends (hb : domBad e l 0 = none) {p : List Byte}
    (hp : p = v.domPacket 1 tg un e l.length ((v.mate.msgId + 1) % 2 ^ 16) v.sendTime ((l.map (·.raw)).flatten)) :
    ∃ u, exec (.domainMsg h tg un len ad true ds) s = .next u ∧ v.flies u h (.dom { seq := (v.mate.msgId + 1) % 2 ^ 16, packet := p }) ∧
      u.media.net = v.media.net ++ [.domain (v.get R.MATE_DOM_CFG F.MATE_DOM_CFG_PORT) (v.get R.MATE_DOM_CFG F.MATE_DOM_CFG_SUB) p] := by
  have hbody : domMsgBody h tg un len ad true ds v = .yes (v.domSent h ((v.mate.msgId + 1) % 2 ^ 16) p) := by
    rw [domMsgBody_out ht hd h0 h1 h2 ha hl he, hb, hp]
    exact if_neg (by simp [hv.2.2.2])
  obtain ⟨g1, g2, g3⟩ := State.domSent_spec (h := h) hv.2.1 hv.2.2.1 ((v.mate.msgId + 1) % 2 ^ 16) p
  obtain ⟨k1, k2, -⟩ := State.desc_flies hv hbody g1 g2
  exact ⟨_, rfl, k1, (congrArg MediaSt.net k2.media).trans g3⟩

end message

/-! ### Its acknowledgement -/

section ack
variable (s : State)

theorem domainRetransmit_spec (id : Nat) : (s.domOp id = none → exec (.domainRetransmit id) s = .next s) ∧ ∀ o d, s.domOp id = some (o, d) →
    (d.tries < s.get R.MATE_DOM_TO F.MATE_DOM_TO_RETRY → ∃ u, exec (.domainRetransmit id) s = .next u ∧
      u.media.net = s.media.net ++ [.domain (s.get R.MATE_DOM_CFG F.MATE_DOM_CFG_PORT) (s.get R.MATE_DOM_CFG F.MATE_DOM_CFG_SUB) d.packet] ∧ u.host.ops.length = s.host.ops.length) ∧
    (s.get R.MATE_DOM_TO F.MATE_DOM_TO_RETRY ≤ d.tries → exec (.domainRetransmit id) s = .next (s.finish o { status := 6 })) := by
  refine ⟨fun h => ?_, fun o d h => ?_⟩
  · show execDomainRetransmit id s = _
    unfold execDomainRetransmit
    simp only [h]
  · have hx : exec (.domainRetransmit id) s = .next (if d.tries < s.get R.MATE_DOM_TO F.MATE_DOM_TO_RETRY then
        (s.domSend d.packet).setOp o (.dom { d with tries := d.tries + 1 }) else s.finish o { status := 6 }) := by
      show execDomainRetransmit id s = _
      unfold execDomainRetransmit
      simp only [h]
    exact ⟨fun ht => ⟨_, hx.trans (congrArg _ (if_pos ht)), rfl, List.length_map ..⟩, fun ht => hx.trans (congrArg _ (if_neg (Nat.not_lt.mpr ht)))⟩

theorem domainAck_spec (id st ep : Nat) (ok : Bool) : ((s.inDomain = false ∨ (ok = true ∧ s.domOp id = none)) → exec (.domainAckReceive ok id st ep) s = .next s) ∧
    (s.inDomain = true → ok = false → ∃ u, exec (.domainAckReceive ok id st ep) s = .next u ∧ u = s.authFail ∧ u.get R.MATE_DOM_HIST F.MATE_DOM_HIST_AUTH_FAIL = 1) ∧
    ∀ o d, s.inDomain = true → ok = true → s.domOp id = some (o, d) → exec (.domainAckReceive ok id st ep) s = .next (s.finish o { status := st, result := some (ackResult st ep) }) := by
  have ho (hd : s.inDomain = false) : exec (.domainAckReceive ok id st ep) s = .next s := congrArg Host.Outcome.next (if_pos (by simp [hd]))
  refine ⟨fun h => ?_, fun hd hk => ⟨_, congrArg Host.Outcome.next ((if_neg (by simp [hd])).trans (if_pos (by simp [hk]))), rfl,
    State.get_raise _ Hist.mateDom _ rfl (by decide)⟩, fun o d hd hk hs => ?_⟩
  · cases hd : s.inDomain
    case false => exact ho hd
    case true =>
      obtain ⟨hk, hs⟩ := h.resolve_left (by simp [hd])
      refine congrArg Host.Outcome.next ((if_neg (by simp [hd])).trans ((if_neg (by simp [hk])).trans ?_))
      simp only [hs]
  · refine congrArg Host.Outcome.next ((if_neg (by simp [hd])).trans ((if_neg (by simp [hk])).trans ?_))
    simp only [hs]

end ack

end Sys2Proof.Machine

/-! A packet of the system domain that arrives (R411), and the settlement of O56. -/
namespace Sys2Proof.Machine

/-! ### A domain ring that takes what waits for it -/

section enter
variable {n : Nat}

/-- The next waiting descriptor enters the ring where its turn has come and there is room. -/
def enterOne (n : Nat) (s : State) (e : Nat × Fetched) : State :=
  if s.ringSt n = 1 ∧ e.1 = s.get (R.RNG_STAT n) F.RNG_STAT_SQ_HEAD ∧ s.cqRoom n ∧ (s.rst_ n).domQ.head? = some e then
    s.setRst n { s.rst_ n with fetched := (s.rst_ n).fetched ++ [e.2], domQ := (s.rst_ n).domQ.tail }
  else s

theorem State.domEnter_eq (s : State) (n : Nat) : s.domEnter n = (s.rst_ n).domQ.foldl (enterOne n) s := rfl

theorem State.rst_setRst (s : State) (n : Nat) (x : RingSt) : (s.setRst n x).rst_ n = x := tabGet_set_self ..

theorem enterOne_total (s : State) (e : Nat × Fetched) : ((enterOne n s e).rst_ n).fetched.length + ((enterOne n s e).rst_ n).domQ.length =
    (s.rst_ n).fetched.length + (s.rst_ n).domQ.length := by
  unfold enterOne
  split
  case isTrue h =>
    obtain ⟨-, -, -, hh⟩ := h
    rw [State.rst_setRst]
    cases hq : (s.rst_ n).domQ with
    | nil => simp [hq] at hh
    | cons a l => simp; omega
  case isFalse => rfl

theorem enterAll_total (l : List (Nat × Fetched)) (s : State) : ((l.foldl (enterOne n) s).rst_ n).fetched.length + ((l.foldl (enterOne n) s).rst_ n).domQ.length =
    (s.rst_ n).fetched.length + (s.rst_ n).domQ.length := by
  induction l generalizing s with
  | nil => rfl
  | cons e l ih => rw [List.foldl_cons, ih, enterOne_total]

/-- The front of the queue enters a running ring with room. -/
theorem enterOne_enters (s : State) {e : Nat × Fetched} {l : List (Nat × Fetched)} (hq : (s.rst_ n).domQ = e :: l) (hr : s.ringSt n = 1)
    (he : e.1 = s.get (R.RNG_STAT n) F.RNG_STAT_SQ_HEAD) (hroom : s.outstanding n + (s.rst_ n).unread < s.cqSize n) :
    enterOne n s e = s.setRst n { s.rst_ n with fetched := (s.rst_ n).fetched ++ [e.2], domQ := l } := by
  refine (if_pos ⟨hr, he, by simpa [State.cqRoom] using hroom, by rw [hq]; rfl⟩).trans ?_
  rw [hq]
  rfl

theorem State.outstanding_fetched (s : State) (x : RingSt) : (s.setRst n x).outstanding n + (s.rst_ n).fetched.length = s.outstanding n + x.fetched.length := by
  have h : (s.setRst n x).outstanding n = x.fetched.length + (s.host.ops.filter fun o => o.dest == .ring n).length
      + (s.host.cpls.filter fun c => c.ring == n).length := by
    rw [State.outstanding, State.rst_setRst]
    rfl
  rw [h, State.outstanding]
  omega

/-- A running ring with room for all takes the whole queue in order. -/
theorem enterAll_fetched (l : List (Nat × Fetched)) : ∀ s : State, (s.rst_ n).domQ = l → s.ringSt n = 1 →
    (∀ e ∈ l, e.1 = s.get (R.RNG_STAT n) F.RNG_STAT_SQ_HEAD) → s.outstanding n + (s.rst_ n).unread + l.length ≤ s.cqSize n →
    ((l.foldl (enterOne n) s).rst_ n).fetched = (s.rst_ n).fetched ++ l.map (·.2) := by
  induction l with
  | nil => intro s _ _ _ _; simp
  | cons e l ih =>
    intro s hq hr he hroom
    have hlen : s.outstanding n + (s.rst_ n).unread + (l.length + 1) ≤ s.cqSize n := hroom
    obtain ⟨x, hx⟩ : ∃ x : RingSt, x = { s.rst_ n with fetched := (s.rst_ n).fetched ++ [e.2], domQ := l } := ⟨_, rfl⟩
    have hf : x.fetched = (s.rst_ n).fetched ++ [e.2] := by rw [hx]
    have hd : x.domQ = l := by rw [hx]
    have hu : x.unread = (s.rst_ n).unread := by rw [hx]
    have hstep : enterOne n s e = s.setRst n x := by
      rw [hx]
      exact enterOne_enters s hq hr (he e (.head _)) (by omega)
    have ho : (s.setRst n x).outstanding n = s.outstanding n + 1 := by
      have := s.outstanding_fetched x (n := n)
      rw [hf, List.length_append] at this
      simp at this
      omega
    rw [List.foldl_cons, hstep, ih (s.setRst n x) (by rw [State.rst_setRst, hd]) hr (fun a ha => he a (.tail _ ha)) ?_, State.rst_setRst, hf]
    · simp
    · rw [ho, State.rst_setRst, hu]
      have : (s.setRst n x).cqSize n = s.cqSize n := rfl
      omega

end enter

/-! ### A packet that is accepted -/

section accept
variable (s : State)

/-- The descriptors of a packet as they wait for a ring. -/
def queued (tail : Nat) (p : DomPkt) : List (Nat × Fetched) := p.descs.map fun d => (tail, (⟨d.raw, true⟩ : Fetched))

/-- The packet's descriptors enter the domain ring, or wait for it. -/
def State.domQueue (n : Nat) (p : DomPkt) : State :=
  (s.setRst n { s.rst_ n with domQ := (s.rst_ n).domQ ++ queued (s.rst_ n).sqTail p }).domEnter n

/-- A source is remembered with its last message. -/
def State.setDomSrc (k : Nat) (x : DomSrc) : State := { s with mate := { s.mate with domSrc := tabPut s.mate.domSrc k x } }

theorem State.domAccept_eq (p : DomPkt) : ∃ x, s.domAccept p = (((s.domQueue (s.get R.MATE_DOM_UDP F.MATE_DOM_UDP_DOM_RING) p).inc R.MATE_DOM_RX_CNT).setDomSrc
    p.src x).domAck p 0 := by
  unfold State.domAccept
  extract_lets n x f src w ids
  exact ⟨⟨p.time, ids⟩, rfl⟩

theorem State.domAck_rd (p : DomPkt) (st a : Nat) : (s.domAck p st).rd a = s.rd a := rfl
theorem State.domAck_host (p : DomPkt) (st : Nat) : (s.domAck p st).host = s.host := rfl
theorem State.setDomSrc_rd (k : Nat) (x : DomSrc) (a : Nat) : (s.setDomSrc k x).rd a = s.rd a := rfl
theorem State.setDomSrc_host (k : Nat) (x : DomSrc) : (s.setDomSrc k x).host = s.host := rfl

theorem State.domQueue_rd (n : Nat) (p : DomPkt) (a : Nat) : (s.domQueue n p).rd a = s.rd a := by
  have h := (State.domEnter_kept (.refl [.host] (s.setRst n { s.rst_ n with domQ := (s.rst_ n).domQ ++ queued (s.rst_ n).sqTail p })) n (Sub.self _)).2.2 .regs (by decide)
  rw [State.domQueue, State.rd_congr h]
  rfl

theorem State.rst_congr {s t : State} (h : t.host = s.host) (n : Nat) : t.rst_ n = s.rst_ n := by
  rw [State.rst_, h]
  rfl

theorem State.domQueue_total (n : Nat) (p : DomPkt) : ((s.domQueue n p).rst_ n).fetched.length + ((s.domQueue n p).rst_ n).domQ.length =
    (s.rst_ n).fetched.length + (s.rst_ n).domQ.length + p.descs.length := by
  rw [State.domQueue, State.domEnter_eq, enterAll_total, State.rst_setRst]
  simp [queued]
  omega

theorem State.domQueue_enters {n : Nat} {p : DomPkt} (hr : s.ringSt n = 1) (hq : (s.rst_ n).domQ = [])
    (hs : s.get (R.RNG_STAT n) F.RNG_STAT_SQ_HEAD = (s.rst_ n).sqTail) (hroom : s.outstanding n + (s.rst_ n).unread + p.descs.length ≤ s.cqSize n) :
    ((s.domQueue n p).rst_ n).fetched = (s.rst_ n).fetched ++ p.descs.map fun d => { raw := d.raw, dom := true } := by
  obtain ⟨x, hx⟩ : ∃ x : RingSt, x = { s.rst_ n with domQ := (s.rst_ n).domQ ++ queued (s.rst_ n).sqTail p } := ⟨_, rfl⟩
  have hf : x.fetched = (s.rst_ n).fetched := by rw [hx]
  have hd : x.domQ = queued (s.rst_ n).sqTail p := by rw [hx, hq]; rfl
  have hu : x.unread = (s.rst_ n).unread := by rw [hx]
  have ho : (s.setRst n x).outstanding n = s.outstanding n := by
    have := s.outstanding_fetched x (n := n)
    rw [hf] at this
    omega
  have hlen : (queued (s.rst_ n).sqTail p).length = p.descs.length := by simp [queued]
  have he : ∀ e ∈ queued (s.rst_ n).sqTail p, e.1 = (s.setRst n x).get (R.RNG_STAT n) F.RNG_STAT_SQ_HEAD := by
    intro e he
    obtain ⟨d, -, rfl⟩ := List.mem_map.mp he
    exact hs.symm
  rw [State.domQueue, ← hx, State.domEnter_eq, State.rst_setRst, hd, enterAll_fetched _ (s.setRst n x) (by rw [State.rst_setRst, hd]) hr he
    (by rw [ho, State.rst_setRst, hu, hlen]; exact hroom), State.rst_setRst, hf]
  simp [queued]

theorem State.domAccept_spec (p : DomPkt) : ((s.domAccept p).rd R.MATE_DOM_RX_CNT).toNat = min 0xFFFFFFFF ((s.rd R.MATE_DOM_RX_CNT).toNat + 1) ∧
    (s.domAccept p).rst_ (s.get R.MATE_DOM_UDP F.MATE_DOM_UDP_DOM_RING) =
      (s.domQueue (s.get R.MATE_DOM_UDP F.MATE_DOM_UDP_DOM_RING) p).rst_ (s.get R.MATE_DOM_UDP F.MATE_DOM_UDP_DOM_RING) := by
  obtain ⟨x, hx⟩ := s.domAccept_eq p
  rw [hx]
  refine ⟨?_, State.rst_congr ?_ _⟩
  · rw [State.domAck_rd, State.setDomSrc_rd, State.rd_inc, State.domQueue_rd]
  · rw [State.domAck_host, State.setDomSrc_host, State.inc_host]

end accept

end Sys2Proof.Machine

/-! The checks of a domain packet in their order (R411), and the settlement of O56. -/
namespace Sys2Proof.Machine

section packet
variable (s : State) (p : DomPkt)

/-- What becomes of a packet of a source's that is not fresh. -/
def State.domStale (s : State) : Option (Nat × Nat × List Byte) → State
  | some q => s.domSend q.2.2
  | none => s.raise Hist.mateDom F.MATE_DOM_HIST_REPLAY

/-- What becomes of a packet for this device or its unit, with a good tag. -/
def State.domJudge : State :=
  if s.role = 2 then s.domAck p 5
  else if !s.domFresh p then s.domStale ((s.domSrc p.src).ids.find? fun q => q.1 == p.id && q.2.1 == p.time)
  else if p.rate ≠ s.leapRate then s.domAck p 4
  else if p.epoch ≠ s.epoch then ((s.inc R.MATE_DOM_STALE_CNT).raise Hist.mateDom F.MATE_DOM_HIST_STALE).domAck p 2
  else if s.ringSt (s.get R.MATE_DOM_UDP F.MATE_DOM_UDP_DOM_RING) ≠ 1 ∨ !s.timeValid then s.domAck p 8
  else s.domAccept p

variable {s p} {t : Nat} {own unit : Bool} (ho : own = (p.tdev == s.get R.MATE_DOM_CFG F.MATE_DOM_CFG_DEVNUM))
  (hu : unit = (p.tdev == 0xFFFF && p.tunit == s.get R.MATE_DOM_UNIT F.MATE_DOM_UNIT_UNIT && s.role != 2))

theorem packet_outside (hd : s.inDomain = false) : exec (.domainPacketReceive p t) s = .next (s.at_ t) :=
  congrArg Host.Outcome.next (if_pos (show (!s.inDomain) = true by simp [hd]))

theorem packet_badTag (hd : s.inDomain = true) (ht : p.tagOk = false) : exec (.domainPacketReceive p t) s = .next (s.at_ t).authFail :=
  congrArg Host.Outcome.next ((if_neg (show ¬ (!s.inDomain) = true by simp [hd])).trans (if_pos (by simp [ht])))

include ho hu

theorem packet_other (ht : p.tagOk = true) (h1 : own = false) (h2 : unit = false) : exec (.domainPacketReceive p t) s = .next (s.at_ t) := by
  cases hd : s.inDomain
  case false => exact packet_outside hd
  case true =>
    subst ho hu
    refine congrArg Host.Outcome.next ((if_neg (show ¬ (!s.inDomain) = true by simp [hd])).trans ((if_neg (by simp [ht])).trans (if_pos ?_)))
    exact Bool.and_eq_true_iff.mpr ⟨(congrArg _ h1 : _ = !false), (congrArg _ h2 : _ = !false)⟩

theorem packet_judged (hd : s.inDomain = true) (ht : p.tagOk = true) (hx : own = true ∨ unit = true) :
    exec (.domainPacketReceive p t) s = .next ((s.at_ t).domJudge p) := by
  subst ho hu
  refine congrArg Host.Outcome.next ((if_neg (show ¬ (!s.inDomain) = true by simp [hd])).trans ((if_neg (by simp [ht])).trans ((if_neg ?_).trans ?_)))
  · intro hc
    obtain ⟨h1, h2⟩ := Bool.and_eq_true_iff.mp hc
    rcases hx with hx | hx
    · exact absurd (hx.symm.trans ((Bool.not_eq_true' _).mp h1)) (by decide)
    · exact absurd (hx.symm.trans ((Bool.not_eq_true' _).mp h2)) (by decide)
  · unfold State.domJudge
    obtain ⟨x, hx⟩ : ∃ x, x = ((s.at_ t).domSrc p.src).ids.find? fun q => q.1 == p.id && q.2.1 == p.time := ⟨_, rfl⟩
    rw [← hx]
    rcases x with _ | q <;> rfl

end packet

section judge
variable {s : State} {p : DomPkt}

theorem domJudge_standby (h : s.role = 2) : s.domJudge p = s.domAck p 5 := if_pos h

variable (hr : s.role ≠ 2)
include hr

theorem domJudge_stale (hf : s.domFresh p = false) : s.domJudge p = s.domStale ((s.domSrc p.src).ids.find? fun q => q.1 == p.id && q.2.1 == p.time) :=
  (if_neg hr).trans (if_pos (by simp [hf]))

variable (hf : s.domFresh p = true)
include hf

theorem domJudge_rate (h1 : p.rate ≠ s.leapRate) : s.domJudge p = s.domAck p 4 :=
  (if_neg hr).trans ((if_neg (by simp [hf])).trans (if_pos h1))

variable (h1 : p.rate = s.leapRate)
include h1

theorem domJudge_epoch (h2 : p.epoch ≠ s.epoch) : s.domJudge p = ((s.inc R.MATE_DOM_STALE_CNT).raise Hist.mateDom F.MATE_DOM_HIST_STALE).domAck p 2 :=
  (if_neg hr).trans ((if_neg (by simp [hf])).trans ((if_neg (not_not_intro h1)).trans (if_pos h2)))

variable (h2 : p.epoch = s.epoch)
include h2

theorem domJudge_ring (h3 : s.ringSt (s.get R.MATE_DOM_UDP F.MATE_DOM_UDP_DOM_RING) ≠ 1 ∨ s.timeValid = false) : s.domJudge p = s.domAck p 8 :=
  (if_neg hr).trans ((if_neg (by simp [hf])).trans ((if_neg (not_not_intro h1)).trans ((if_neg (not_not_intro h2)).trans
    (if_pos (h3.imp_right fun h => by simp [h])))))

theorem domJudge_accept (h3 : s.ringSt (s.get R.MATE_DOM_UDP F.MATE_DOM_UDP_DOM_RING) = 1) (h4 : s.timeValid = true) : s.domJudge p = s.domAccept p :=
  (if_neg hr).trans ((if_neg (by simp [hf])).trans ((if_neg (not_not_intro h1)).trans ((if_neg (not_not_intro h2)).trans
    (if_neg (by simp [h3, h4])))))

end judge

/-! ### The obligation -/

/-- A packet that passes every check: what the counter and the ring then hold. -/
theorem domAccept_clause (s : State) (p : DomPkt) (t : Nat) (hr : s.ringSt (s.get R.MATE_DOM_UDP F.MATE_DOM_UDP_DOM_RING) = 1) :
    (((s.at_ t).domAccept p).rd R.MATE_DOM_RX_CNT).toNat = min 0xFFFFFFFF ((s.rd R.MATE_DOM_RX_CNT).toNat + 1) ∧
    ∀ n q, n = s.get R.MATE_DOM_UDP F.MATE_DOM_UDP_DOM_RING → q = s.rst_ n →
      (((s.at_ t).domAccept p).rst_ n).fetched.length + (((s.at_ t).domAccept p).rst_ n).domQ.length = q.fetched.length + q.domQ.length + p.descs.length ∧
      (q.domQ = [] → s.get (R.RNG_STAT n) F.RNG_STAT_SQ_HEAD = q.sqTail → s.outstanding n + q.unread + p.descs.length ≤ s.cqSize n →
        (((s.at_ t).domAccept p).rst_ n).fetched = q.fetched ++ p.descs.map fun d => { raw := d.raw, dom := true }) := by
  obtain ⟨h1, h2⟩ := (s.at_ t).domAccept_spec p
  refine ⟨h1, fun n q hn hq => ?_⟩
  subst hn hq
  rw [show ((s.at_ t).domAccept p).rst_ (s.get R.MATE_DOM_UDP F.MATE_DOM_UDP_DOM_RING) = _ from h2]
  exact ⟨(s.at_ t).domQueue_total _ p, fun k1 k2 k3 => (s.at_ t).domQueue_enters hr k1 k2 k3⟩

/-- Settles O56: heartbeats and the conditions of Table 16-3, forwarding, the state transfer and the checks of a domain message, each in order. -/
theorem twinPathsAndDomain : Obligations.TwinPathsAndDomain := by
  unfold Obligations.TwinPathsAndDomain
  refine ⟨heartbeatSend_spec, paths_spec, mateCond_spec, restartTimeout_spec, mateLinkUp_spec, timeExchange_spec, forwardAck_spec, forwardReceive_spec,
    fun w h => ⟨fun d x => ⟨rfl, rfl⟩, fun _ => rfl, fun _ => rfl, fun _ => rfl, fun _ => rfl, fun _ => rfl⟩, stateTransferDone_spec,
    fun s v h tg un len ad ok ds l e hv hl he => ⟨domainMsg_noDomain hv, fun ht hd => ⟨domainMsg_length hv ht hd,
      fun h0 h1 h2 ha => domainMsg_addr hv ht hd h0 h1 h2 ha, fun h0 h1 h2 ha hk => domainMsg_unread hv ht hd h0 h1 h2 ha hk, fun h0 h1 h2 ha hk => ?_⟩⟩,
    domainRetransmit_spec, domainAck_spec,
    fun s p t own unit ho hu => ⟨fun hc => ?_, fun hd => ⟨packet_badTag hd, fun ht hx => ⟨fun hr => ?_, fun hr hf => ?_, fun hr hf => ?_⟩⟩⟩⟩
  · subst hk
    exact ⟨fun k hb => domainMsg_bad hv ht hd h0 h1 h2 ha hl he hb, fun hb p hp => domainMsg_sends hv ht hd h0 h1 h2 ha hl he hb hp⟩
  · rcases hc with hd | ⟨ht, h1, h2⟩
    · exact packet_outside hd
    · exact packet_other ho hu ht h1 h2
  · exact (packet_judged ho hu hd ht hx).trans (congrArg _ (domJudge_standby hr))
  · have hj : exec (.domainPacketReceive p t) s = .next ((s.at_ t).domStale ((s.domSrc p.src).ids.find? fun q => q.1 == p.id && q.2.1 == p.time)) :=
      (packet_judged ho hu hd ht hx).trans (congrArg _ (domJudge_stale hr hf))
    exact ⟨fun q hq => hj.trans (congrArg (fun x => Host.Outcome.next ((s.at_ t).domStale x)) hq),
      fun hq => hj.trans (congrArg (fun x => Host.Outcome.next ((s.at_ t).domStale x)) hq)⟩
  · have hj := packet_judged ho hu hd ht hx (t := t)
    refine ⟨fun h1 => hj.trans (congrArg _ (domJudge_rate hr hf h1)), fun h1 h2 => ⟨_, hj.trans (congrArg _ (domJudge_epoch hr hf h1 h2)),
      State.get_raise _ Hist.mateDom _ rfl (by decide), ?_⟩, fun h1 h2 => ⟨fun h3 => hj.trans (congrArg _ (domJudge_ring hr hf h1 h2 h3)), fun h3 h4 =>
        ⟨_, hj.trans (congrArg _ (domJudge_accept hr hf h1 h2 h3 h4)), rfl, domAccept_clause s p t h3⟩⟩⟩
    rw [State.rd_raise_ne _ Hist.mateDom _ (by decide), State.rd_inc]
    rfl

end Sys2Proof.Machine

/-! The route log, the signing keys and checkpoints: what each leaves unchanged (R418 to R424). -/
namespace Sys2Proof.Machine

/-! ### The route log -/

/-- From `s` to `t` the security core's part changes in the log's own fields at most. -/
def State.logSame (s t : State) : Prop :=
  t.sec = { s.sec with entries := t.sec.entries, head := t.sec.head, hold := t.sec.hold, later := t.sec.later }

theorem State.logSame.of_eq {s t : State} (h : t.sec = s.sec) : s.logSame t := by
  rw [State.logSame, h]

theorem State.logSame.trans {s t u : State} (h : s.logSame t) (k : t.logSame u) : s.logSame u := by
  rw [State.logSame, k, h]

section log
variable (s : State)

/-- The registers an entry of the route log may change. -/
def logRegs : List Nat := [R.SEC_LOG_HEAD, R.SEC_LOG_DROP_CNT, R.SEC_HIST]

theorem State.hostWrite_rd (a : Nat) (l : List Byte) (b : Nat) : (s.hostWrite a l).rd b = s.rd b := rfl

theorem State.deliver_rd (e : LogEntry) {a : Nat} (ha : a ≠ R.SEC_LOG_HEAD) : (s.deliver e).rd a = s.rd a := by
  rw [State.deliver, State.rd_set_ne _ _ _ ha, State.hostWrite_rd]

theorem State.deliver_sec (e : LogEntry) : (s.deliver e).sec = s.sec := by
  rw [State.deliver, State.set_sec, State.hostWrite_sec]

/-- The chain takes one more entry. -/
def State.chained (e : LogEntry) : State :=
  { s with sec := { s.sec with
    entries := s.sec.entries + 1
    head := Config.shake 256 (s.sec.head.toNat :: e.bytes.map BitVec.toNat) } }

theorem State.chained_rd (e : LogEntry) (a : Nat) : (s.chained e).rd a = s.rd a := rfl
theorem State.chained_logSame (e : LogEntry) : s.logSame (s.chained e) := rfl

/-- An entry waits for room in the host ring. -/
def State.held (e : LogEntry) : State := { s with sec := { s.sec with hold := s.sec.hold ++ [e] } }

theorem State.held_rd (e : LogEntry) (a : Nat) : (s.held e).rd a = s.rd a := rfl
theorem State.held_logSame (e : LogEntry) : s.logSame (s.held e) := rfl

/-- An entry is lost for want of room. -/
def State.logDropped : State := (s.inc R.SEC_LOG_DROP_CNT).raise Hist.sec F.SEC_HIST_LOG_DROP

theorem State.logNow_cases (time typ origin status kind dst src rfn ring : Nat) : s.logNow time typ origin status kind dst src rfn ring = s ∨
    ∃ e, s.logNow time typ origin status kind dst src rfn ring = (s.chained e).deliver e ∨ s.logNow time typ origin status kind dst src rfn ring = (s.chained e).held e ∨
      s.logNow time typ origin status kind dst src rfn ring = (s.chained e).logDropped := by
  unfold State.logNow
  split
  · exact .inl rfl
  · extract_lets e w
    refine .inr ⟨e, ?_⟩
    split
    · exact .inl rfl
    · split
      · exact .inr (.inl rfl)
      · exact .inr (.inr rfl)

/-- An entry for the end of a warm reset. -/
def State.logLater (e : LogEntry) : State := { s with sec := { s.sec with later := s.sec.later ++ [e] } }

theorem State.logLater_rd (e : LogEntry) (a : Nat) : (s.logLater e).rd a = s.rd a := rfl
theorem State.logLater_logSame (e : LogEntry) : s.logSame (s.logLater e) := rfl

theorem State.logWith_cases (time typ origin status kind dst src rfn ring : Nat) : (∃ e, s.logWith time typ origin status kind dst src rfn ring = s.logLater e) ∨
    s.logWith time typ origin status kind dst src rfn ring = s.logNow time typ origin status kind dst src rfn ring := by
  unfold State.logWith
  split
  · exact .inl ⟨_, rfl⟩
  · exact .inr rfl

section entry
variable (time typ origin status kind dst src rfn ring : Nat)

theorem State.logWith_rd {a : Nat} (ha : a ∉ logRegs) : (s.logWith time typ origin status kind dst src rfn ring).rd a = s.rd a := by
  simp only [logRegs, List.mem_cons, List.not_mem_nil, or_false, not_or] at ha
  obtain ⟨h1, h2, h3⟩ := ha
  rcases s.logWith_cases time typ origin status kind dst src rfn ring with ⟨e, h⟩ | h <;> rw [h]
  · rw [State.logLater_rd]
  · rcases s.logNow_cases time typ origin status kind dst src rfn ring with h | ⟨e, h | h | h⟩ <;> rw [h]
    · rw [State.deliver_rd _ _ h1, State.chained_rd]
    · rw [State.held_rd, State.chained_rd]
    · rw [State.logDropped, State.rd_raise_ne _ Hist.sec _ h3, State.rd_inc_ne _ h2, State.chained_rd]

theorem State.logWith_logSame : s.logSame (s.logWith time typ origin status kind dst src rfn ring) := by
  rcases s.logWith_cases time typ origin status kind dst src rfn ring with ⟨e, h⟩ | h <;> rw [h]
  · exact s.logLater_logSame e
  · rcases s.logNow_cases time typ origin status kind dst src rfn ring with h | ⟨e, h | h | h⟩ <;> rw [h]
    · exact .of_eq rfl
    · exact (s.chained_logSame e).trans (.of_eq (State.deliver_sec _ _))
    · exact (s.chained_logSame e).trans (State.held_logSame _ _)
    · exact (s.chained_logSame e).trans (.of_eq (by rw [State.logDropped, State.raise_sec, State.inc_sec]))

theorem State.logWith_hist {b : Nat} (hb : b < 32) (k : s.get R.SEC_HIST (bit b) = 1) :
    (s.logWith time typ origin status kind dst src rfn ring).get R.SEC_HIST (bit b) = 1 := by
  rcases s.logWith_cases time typ origin status kind dst src rfn ring with ⟨e, h⟩ | h <;> rw [h]
  · rwa [State.get_of_rd (State.logLater_rd ..)]
  · rcases s.logNow_cases time typ origin status kind dst src rfn ring with h | ⟨e, h | h | h⟩ <;> rw [h]
    · exact k
    · rwa [State.get_of_rd (State.deliver_rd _ _ (by decide)), State.get_of_rd (State.chained_rd ..)]
    · rwa [State.get_of_rd (State.held_rd ..), State.get_of_rd (State.chained_rd ..)]
    · refine State.get_raise_mono _ _ _ hb (by decide) ?_
      rwa [State.get_inc_ne _ _ (by decide), State.get_of_rd (State.chained_rd ..)]

end entry

theorem State.logSec_rd (k : Nat) (p : Nat × Nat) {a : Nat} (ha : a ∉ logRegs) : (s.logSec k p).rd a = s.rd a := s.logWith_rd _ _ _ _ _ _ _ _ _ ha

theorem State.logSec_logSame (k : Nat) (p : Nat × Nat) : s.logSame (s.logSec k p) := s.logWith_logSame ..

end log

/-! ### Records -/

theorem State.change_rd_low (s : State) (k : Nat) {a : Nat} (ha : a < 0x70000) : (s.change k).rd a = s.rd a := s.change_rd k (not_mem_recRegs k ha)

theorem State.change_get_low (s : State) (k : Nat) {a : Nat} (f : Bits) (ha : a < 0x70000) : (s.change k).get a f = s.get a f :=
  State.get_of_rd (s.change_rd_low k ha) f

theorem State.change_sec (s : State) (k : Nat) : (s.change k).sec = s.sec :=
  (State.change_kept (.refl [.regs, .axl] s) k (Sub.self _)).2.2 .sec (by decide)

theorem State.dirty_rd_low (s : State) (k : Nat) {a : Nat} (ha : a < 0x70000) : (s.dirty k).rd a = s.rd a := by
  refine State.rd_set_ne _ _ _ ?_
  unfold R.AXL_REC_STAT
  omega

end Sys2Proof.Machine

/-! Signing keys, leaves and checkpoints: the frame they share, and the number a checkpoint takes (R418 to R424). -/
namespace Sys2Proof.Machine

/-! ### The frame -/

/-- From `s` to `t` the security core signs or logs: of the registers below the store's only those of `L` change, of SEC_STAT only field `f`, no
history bit falls, and of its part only leaves, log and checkpoint fields change. -/
structure State.signFrame (L : List Nat) (f : Bits) (s t : State) : Prop where
  rd : ∀ {a : Nat}, a < 0x70000 → a ∉ L → t.rd a = s.rd a
  stat : ∀ {g : Bits}, f.apart g → t.get R.SEC_STAT g = s.get R.SEC_STAT g
  hist : ∀ {b : Nat}, b < 32 → s.get R.SEC_HIST (bit b) = 1 → t.get R.SEC_HIST (bit b) = 1
  sec : t.sec = { s.sec with entries := t.sec.entries, head := t.sec.head, hold := t.sec.hold, later := t.sec.later, idLeaf := t.sec.idLeaf
                             logLeaf := t.sec.logLeaf, ckSlot := t.sec.ckSlot, lastCk := t.sec.lastCk, sramHead := t.sec.sramHead, sramEnt := t.sec.sramEnt }

namespace State.signFrame
variable {L M : List Nat} {f : Bits} {s t u : State}

theorem refl (s : State) : s.signFrame L f s := ⟨fun _ _ => rfl, fun _ => rfl, fun _ h => h, rfl⟩

theorem trans (h : s.signFrame L f t) (k : t.signFrame L f u) : s.signFrame L f u :=
  ⟨fun h1 h2 => (k.rd h1 h2).trans (h.rd h1 h2), fun hg => (k.stat hg).trans (h.stat hg), fun hb hx => k.hist hb (h.hist hb hx), by
    have hs := h.sec
    have ks := k.sec
    rw [hs] at ks
    exact ks⟩

theorem mono (h : s.signFrame L f t) (hl : ∀ a ∈ L, a ∈ M) : s.signFrame M f t := ⟨fun h1 h2 => h.rd h1 fun x => h2 (hl _ x), h.stat, h.hist, h.sec⟩

theorem ite {p : Prop} [Decidable p] (h : s.signFrame L f t) (k : s.signFrame L f u) : s.signFrame L f (if p then t else u) := by
  split
  · exact h
  · exact k

/-- What changes no register below the store's and nothing of the security core. -/
theorem of_low (h : ∀ {a : Nat}, a < 0x70000 → t.rd a = s.rd a) (hs : t.sec = s.sec) : s.signFrame L f t :=
  ⟨fun ha _ => h ha, fun _ => State.get_of_rd (h (by decide)) _, fun _ hx => (State.get_of_rd (h (by decide)) _).trans hx, by rw [hs]⟩

/-- What changes one register of the list that is none of SEC_STAT and SEC_HIST. -/
theorem of_reg {r : Nat} (hr : r ∈ L) (h1 : R.SEC_STAT ≠ r) (h2 : R.SEC_HIST ≠ r) (h : ∀ {a : Nat}, a ≠ r → t.rd a = s.rd a) (hs : t.sec = s.sec) : s.signFrame L f t :=
  ⟨fun _ ha => h fun e => ha (e ▸ hr), fun _ => State.get_of_rd (h h1) _, fun _ hx => (State.get_of_rd (h h2) _).trans hx, by rw [hs]⟩

end State.signFrame

section frame
variable {L : List Nat} {f : Bits} (s : State)

theorem State.logWith_frame (time typ origin status kind dst src rfn ring : Nat) (hL : ∀ a ∈ logRegs, a ∈ L) :
    s.signFrame L f (s.logWith time typ origin status kind dst src rfn ring) :=
  ⟨fun _ ha => s.logWith_rd _ _ _ _ _ _ _ _ _ fun h => ha (hL _ h), fun _ => State.get_of_rd (s.logWith_rd _ _ _ _ _ _ _ _ _ (by decide)) _,
    fun hb hx => s.logWith_hist _ _ _ _ _ _ _ _ _ hb hx, by
      have h := s.logWith_logSame time typ origin status kind dst src rfn ring
      rw [State.logSame] at h
      rw [h]⟩

theorem State.change_frame (k : Nat) : s.signFrame L f (s.change k) := .of_low (fun ha => s.change_rd_low k ha) (s.change_sec k)

theorem State.dirty_frame (k : Nat) : s.signFrame L f (s.dirty k) := .of_low (fun ha => s.dirty_rd_low k ha) (State.set_sec ..)

theorem State.hostWrite_frame (a : Nat) (l : List Byte) : s.signFrame L f (s.hostWrite a l) := .of_low (fun _ => rfl) rfl

/-! ### Leaves -/

/-- The registers that taking a leaf may change. -/
def leafRegs : List Nat := [R.SEC_STAT, R.SEC_HIST, R.SEC_ID_LEFT]

/-- Leaves of a key stand elsewhere. -/
def State.putLeaves (s : State) (k : Nat) (l : Leaves) : State :=
  if k = 0 then { s with sec := { s.sec with idLeaf := l } } else { s with sec := { s.sec with logLeaf := l } }

theorem State.putLeaves_frame (k : Nat) (l : Leaves) : s.signFrame L f (s.putLeaves k l) :=
  .ite ⟨fun _ _ => rfl, fun _ => rfl, fun _ h => h, rfl⟩ ⟨fun _ _ => rfl, fun _ => rfl, fun _ h => h, rfl⟩

theorem State.setLeaves_eq (k : Nat) (l : Leaves) :
    s.setLeaves k l = if k = 0 then (s.putLeaves k l).set R.SEC_ID_LEFT F.SEC_ID_LEFT_LEFT (2 ^ 20 - l.stop) else s.putLeaves k l := by
  unfold State.setLeaves State.putLeaves
  split <;> rfl

theorem State.setLeaves_frame (k : Nat) (l : Leaves) : s.signFrame leafRegs f (s.setLeaves k l) := by
  rw [State.setLeaves_eq]
  refine .ite ((s.putLeaves_frame k l).trans (.of_reg (r := R.SEC_ID_LEFT) (by decide) (by decide) (by decide) (fun ha => State.rd_set_ne _ _ _ ha) (State.set_sec ..)))
    (s.putLeaves_frame k l)

theorem keyField_fits (k : Nat) : (keyField k).lo + (keyField k).width ≤ 32 := by
  unfold keyField
  split <;> decide

theorem State.retireKey_frame (k : Nat) : s.signFrame leafRegs (keyField k) (s.retireKey k) := by
  refine .trans ⟨fun {a} _ ha => ?_, fun hg => ?_, fun hb hx => ?_, ?_⟩ (State.dirty_frame _ _)
  · simp only [leafRegs, List.mem_cons, List.not_mem_nil, or_false, not_or] at ha
    rw [State.rd_raise_ne _ Hist.sec _ ha.2.1, State.rd_set_ne _ _ _ ha.1]
  · rw [State.get_raise_ne _ Hist.sec _ _ (by decide), State.get_set_apart _ _ _ _ _ (keyField_fits k) hg]
  · exact State.get_raise_mono _ _ _ hb (by decide) ((State.get_set_ne _ _ _ _ (by decide)).trans hx)
  · rw [State.raise_sec, State.set_sec]

theorem State.reserve_frame (k : Nat) : s.signFrame leafRegs f (s.reserve k) := (s.setLeaves_frame ..).trans (State.change_frame ..)

theorem State.takeLeaf_none {k : Nat} (h : s.keySt k ≠ 1) : s.takeLeaf k = (none, s) := if_pos h

theorem State.takeLeaf_some {k : Nat} (h : s.keySt k = 1) : ∃ leaf w, s.takeLeaf k = (some leaf, w) ∧ s.signFrame leafRegs (keyField k) w := by
  unfold State.takeLeaf
  rw [if_neg (not_not_intro h)]
  extract_lets a l b
  have ha : s.signFrame leafRegs (keyField k) a := .ite (s.reserve_frame k) (.refl s)
  have hb : s.signFrame leafRegs (keyField k) b := ha.trans ((a.setLeaves_frame k _).trans (State.dirty_frame ..))
  exact ⟨_, _, rfl, .ite (hb.trans (b.retireKey_frame k)) hb⟩

/-! ### Checkpoints -/

/-- The registers that a checkpoint may change. -/
def ckRegs : List Nat := leafRegs ++ logRegs ++ [R.SEC_CKPT_NUM_LO, R.SEC_CKPT_NUM_HI]

/-- The slot after the one in use. -/
def State.nextSlot (s : State) : State := { s with sec := { s.sec with ckSlot := (s.sec.ckSlot + 1) % s.ckSlots } }

/-- A checkpoint goes to the host's ring. -/
def State.ckHost (s : State) (b : List Byte) : State :=
  if s.sec.ckUp && !s.host.dmaOff then
    (s.hostWrite ((s.inForce R.SEC_CKPT_BASE_LO).toNat + (s.inForce R.SEC_CKPT_BASE_HI).toNat * 2 ^ 32 + 10240 * s.sec.ckSlot) b).nextSlot
  else s

/-- The head a checkpoint has signed, with its instant. -/
def State.ckNoted (s : State) : State := { s with sec := { s.sec with lastCk := s.now, sramHead := s.sec.head, sramEnt := s.sec.entries } }

/-- A checkpoint's bytes go where they are wanted, and it is noted. -/
def State.ckPut (s : State) (b : List Byte) (addr : Nat) : State := (if addr = 0 then s.ckHost b else (s.ckHost b).hostWrite addr b).ckNoted

/-- A checkpoint that leaf `leaf` signs takes the next number. -/
def State.ckMade (s : State) (leaf addr : Nat) : State :=
  (s.wr2 R.SEC_CKPT_NUM_LO R.SEC_CKPT_NUM_HI ((s.ckNum + 1) % 2 ^ 48)).ckPut (s.ckBytes ((s.ckNum + 1) % 2 ^ 48) leaf) addr

/-- The record and the log's entry of a checkpoint. -/
def State.ckLogged (s : State) (p : Nat × Nat) : State := (s.change 7).log 7 p.1 0 0 0 0 s.rfnNow p.2

theorem State.checkpoint_some {leaf : Nat} {w : State} (h : s.takeLeaf 1 = (some leaf, w)) (addr : Nat) (p : Nat × Nat) :
    s.checkpoint addr p = (w.ckMade leaf addr).ckLogged p := by
  unfold State.checkpoint
  rw [h]
  rfl

theorem State.checkpoint_none (h : s.keySt 1 ≠ 1) (addr : Nat) (p : Nat × Nat) : s.checkpoint addr p = s := by
  unfold State.checkpoint
  rw [s.takeLeaf_none h]

theorem State.ckHost_low (b : List Byte) (a : Nat) : (s.ckHost b).rd a = s.rd a := by
  unfold State.ckHost
  split <;> rfl

theorem State.ckNoted_frame : s.signFrame L f s.ckNoted := ⟨fun _ _ => rfl, fun _ => rfl, fun _ h => h, rfl⟩

theorem State.ckHost_frame (b : List Byte) : s.signFrame L f (s.ckHost b) :=
  .ite ((s.hostWrite_frame _ b).trans ⟨fun _ _ => rfl, fun _ => rfl, fun _ h => h, rfl⟩) (.refl s)

theorem State.wr2_frame {lo hi : Nat} (v : Nat) (h1 : lo ∈ L) (h2 : hi ∈ L) (k1 : lo ≠ R.SEC_STAT ∧ lo ≠ R.SEC_HIST) (k2 : hi ≠ R.SEC_STAT ∧ hi ≠ R.SEC_HIST) :
    s.signFrame L f (s.wr2 lo hi v) :=
  .trans (.of_reg h1 k1.1.symm k1.2.symm (fun ha => State.rd_wr_ne _ _ ha) (State.wr_sec ..))
    (.of_reg h2 k2.1.symm k2.2.symm (fun ha => State.rd_wr_ne _ _ ha) (State.wr_sec ..))

theorem State.ckPut_frame (b : List Byte) (addr : Nat) : s.signFrame L f (s.ckPut b addr) :=
  .trans (.ite (s.ckHost_frame b) ((s.ckHost_frame b).trans (State.hostWrite_frame _ _ _))) (State.ckNoted_frame _)

theorem State.ckMade_frame (leaf addr : Nat) : s.signFrame ckRegs f (s.ckMade leaf addr) :=
  .trans (s.wr2_frame (lo := R.SEC_CKPT_NUM_LO) (hi := R.SEC_CKPT_NUM_HI) _ (by decide) (by decide) (by decide) (by decide)) (State.ckPut_frame _ _ _)

theorem State.ckLogged_frame (p : Nat × Nat) : s.signFrame ckRegs f (s.ckLogged p) :=
  (s.change_frame 7).trans (State.logWith_frame _ _ _ _ _ _ _ _ _ _ (by decide))

theorem State.checkpoint_frame (addr : Nat) (p : Nat × Nat) : s.signFrame ckRegs F.SEC_STAT_LOG_KEY (s.checkpoint addr p) := by
  by_cases h : s.keySt 1 = 1
  · obtain ⟨leaf, w, hw, hf⟩ := s.takeLeaf_some h
    rw [s.checkpoint_some hw]
    exact (State.signFrame.mono hf (by decide)).trans ((w.ckMade_frame ..).trans (State.ckLogged_frame ..))
  · rw [s.checkpoint_none h]
    exact .refl s

/-! ### The checkpoint number -/

theorem State.rd2_congr {s t : State} {lo hi : Nat} (h1 : t.rd lo = s.rd lo) (h2 : t.rd hi = s.rd hi) : t.rd2 lo hi = s.rd2 lo hi := by
  rw [State.rd2, h1, h2]
  rfl

theorem State.ckNoted_rd (a : Nat) : s.ckNoted.rd a = s.rd a := rfl

theorem State.ckPut_rd (b : List Byte) (addr a : Nat) : (s.ckPut b addr).rd a = s.rd a := by
  rw [State.ckPut, State.ckNoted_rd]
  split
  · exact s.ckHost_low b a
  · rw [State.hostWrite_rd]
    exact s.ckHost_low b a

theorem State.ckMade_ckNum (leaf addr : Nat) : (s.ckMade leaf addr).ckNum = (s.ckNum + 1) % 2 ^ 48 := by
  rw [State.ckNum, State.ckMade, State.rd2_congr (State.ckPut_rd ..) (State.ckPut_rd ..)]
  exact State.rd2_wr2 _ (by decide) (by omega)

theorem State.ckLogged_rd (p : Nat × Nat) {a : Nat} (ha : a < 0x70000) (h : a ∉ logRegs) : (s.ckLogged p).rd a = s.rd a := by
  rw [State.ckLogged, State.log, State.logWith_rd _ _ _ _ _ _ _ _ _ _ h, State.change_rd_low _ _ ha]

theorem State.checkpoint_ckNum (h : s.keySt 1 = 1) (addr : Nat) (p : Nat × Nat) : (s.checkpoint addr p).ckNum = (s.ckNum + 1) % 2 ^ 48 := by
  obtain ⟨leaf, w, hw, hf⟩ := s.takeLeaf_some h
  rw [s.checkpoint_some hw, State.ckNum, State.rd2_congr (State.ckLogged_rd _ _ (by decide) (by decide)) (State.ckLogged_rd _ _ (by decide) (by decide))]
  refine (w.ckMade_ckNum leaf addr).trans ?_
  rw [State.ckNum, State.rd2_congr (hf.rd (by decide) (by decide)) (hf.rd (by decide) (by decide))]
  rfl

end frame

end Sys2Proof.Machine

/-! Attestations and checkpoints on request (R422, R424). -/
namespace Sys2Proof.Machine

/-! ### ATTEST -/

/-- The opcode's own checks. -/
def attestBody (h : Hdr) (nonce : List Nat) (addr : Nat) (writeOk : Bool) (s : State) : Adm :=
  if addr % 8 ≠ 0 then bad 48
  else if !s.entriesFree 1 then short 9
  else match s.takeLeaf 0 with
    | (none, _) => short 0x0D
    | (some leaf, s') =>
      if writeOk then .yes ((s'.hostWrite addr (s.report nonce leaf)).ok h 3076) else .yes (s'.done h false 7 2)

theorem State.hostSame.hostWrite {v w : State} (h : v.hostSame w) (a : Nat) (l : List Byte) : v.hostSame (w.hostWrite a l) :=
  ⟨h.cpls, h.ops, h.msix, h.pci, h.fwdNow⟩

theorem State.hostWrite_mem (s : State) (a : Nat) (l : List Byte) : (s.hostWrite a l).host.mem = memWrites s.host.mem a l := rfl

section attest
variable {s v : State} {h : Hdr} {nonce : List Nat} {a : Nat} (hv : s.admits (attestRule nonce a) h v)

theorem exec_attest {ok : Bool} : exec (.attest h nonce a ok) s = .next (s.desc (attestRule nonce a) h (attestBody h nonce a ok)) := by
  refine congrArg (fun b => Host.Outcome.next (s.desc (attestRule nonce a) h b)) (funext fun x => ?_)
  unfold attestBody
  generalize x.takeLeaf 0 = p
  rcases p with ⟨_ | leaf, w⟩ <;> rfl

include hv

theorem attest_addr (ha : a % 8 ≠ 0) (ok : Bool) : ∃ u, exec (.attest h nonce a ok) s = .next u ∧ v.posts u h 4 (badRes 48) ∧ v.hostOnly u :=
  desc_run exec_attest (State.desc_refused hv (if_pos ha))

variable (ha : a % 8 = 0)
include ha

theorem attest_noKey (hk : v.keySt 0 ≠ 1) (ok : Bool) : ∃ u, exec (.attest h nonce a ok) s = .next u ∧ v.posts u h 3 0x0D ∧ v.hostOnly u := by
  refine desc_run exec_attest (State.desc_shortfall hv ?_)
  unfold attestBody
  rw [if_neg (not_not_intro ha), hv.2.2.2, v.takeLeaf_none hk]
  rfl

theorem attestBody_leaf {leaf : Nat} {w : State} (hl : v.takeLeaf 0 = (some leaf, w)) (ok : Bool) :
    attestBody h nonce a ok v = if ok then .yes ((w.hostWrite a (v.report nonce leaf)).ok h 3076) else .yes (w.done h false 7 2) := by
  unfold attestBody
  rw [if_neg (not_not_intro ha), hv.2.2.2, hl]
  rfl

theorem attest_fault (hk : v.keySt 0 = 1) : ∃ u, exec (.attest h nonce a false) s = .next u ∧ v.posts u h 7 2 := by
  obtain ⟨leaf, w, hl, -⟩ := v.takeLeaf_some hk
  have hs : v.hostSame w := (State.takeLeaf_kept' (.refl [.regs, .vec, .sec, .axl] v) hl (Sub.self _)).hostSame (by decide)
  exact ⟨_, exec_attest, (State.desc_answers hv ((attestBody_leaf hv ha hl false).trans (if_neg Bool.false_ne_true)) hs).1⟩

theorem attest_report {leaf : Nat} {w : State} (hl : v.takeLeaf 0 = (some leaf, w)) :
    ∃ u, exec (.attest h nonce a true) s = .next u ∧ v.posts u h 0 3076 ∧ u.host.mem = memWrites v.host.mem a (v.report nonce leaf) := by
  have hk := State.takeLeaf_kept' (.refl [.regs, .vec, .sec, .axl] v) hl (Sub.self _)
  have hm : w.host.mem = v.host.mem := hk.2.2 .hostMem (by decide)
  have hb : attestBody h nonce a true v = .yes ((w.hostWrite a (v.report nonce leaf)).done h false 0 3076) := (attestBody_leaf hv ha hl true).trans (if_pos rfl)
  obtain ⟨g1, -, g3⟩ := State.desc_answers hv hb ((hk.hostSame (by decide)).hostWrite _ _)
  rw [State.hostWrite_mem, hm] at g3
  exact ⟨_, exec_attest, g1, g3⟩

end attest

/-! ### LOG_CHECKPOINT -/

section checkpoint
variable {s v : State} {h : Hdr} {a : Nat} {ok : Bool} (hv : s.admits { op := 0x71, rfn := 0, pay := [fld 16 8 a] } h v)
include hv

theorem logCheckpoint_addr (ha : a % 8 ≠ 0) : ∃ u, exec (.logCheckpoint h a ok) s = .next u ∧ v.posts u h 4 (badRes 16) ∧ v.hostOnly u :=
  desc_run rfl (State.desc_refused hv (if_pos ha))

variable (ha : a % 8 = 0)
include ha

theorem logCheckpoint_blank (hl : v.lifecycle = 0) : ∃ u, exec (.logCheckpoint h a ok) s = .next u ∧ v.posts u h 5 7 ∧ v.hostOnly u :=
  desc_run rfl (State.desc_refused hv ((if_neg (not_not_intro ha)).trans (if_pos hl)))

variable (hl : v.lifecycle ≠ 0)
include hl

theorem logCheckpoint_waits (hk : v.keySt 1 ≠ 1) : ∃ u, exec (.logCheckpoint h a ok) s = .next u ∧ v.flies u h (.ckpt a ok) ∧ v.hostOnly u :=
  desc_run rfl (State.desc_added hv ((if_neg (not_not_intro ha)).trans ((if_neg hl).trans ((if_neg (by simp [hv.2.2.2])).trans (if_pos hk)))))

variable (hk : v.keySt 1 = 1)
include hk

theorem checkpointBody_made : checkpointBody h a ok v = if !ok && a != 0 then .yes ((v.checkpoint (if ok then a else 0) (v.hdrOrigin h)).done h false 7 2)
    else .yes ((v.checkpoint (if ok then a else 0) (v.hdrOrigin h)).done h false 0 (v.checkpoint (if ok then a else 0) (v.hdrOrigin h)).ckNum) :=
  (if_neg (not_not_intro ha)).trans ((if_neg hl).trans ((if_neg (by simp [hv.2.2.2])).trans (if_neg (not_not_intro hk))))

omit hv ha hl hk in
theorem State.checkpoint_hostSame (v : State) (addr : Nat) (p : Nat × Nat) : v.hostSame (v.checkpoint addr p) :=
  (State.checkpoint_kept (.refl [.regs, .vec, .hostMem, .sec, .axl] v) addr p (Sub.self _)).hostSame (by decide)

theorem logCheckpoint_made (hc : ok = true ∨ a = 0) :
    ∃ u, exec (.logCheckpoint h a ok) s = .next u ∧ v.posts u h 0 u.ckNum ∧ u.ckNum = (v.ckNum + 1) % 2 ^ 48 := by
  have hb := (checkpointBody_made hv ha hl hk (ok := ok)).trans (if_neg (by rcases hc with hc | hc <;> simp [hc]))
  obtain ⟨c, hcc⟩ : ∃ c, c = v.checkpoint (if ok then a else 0) (v.hdrOrigin h) := ⟨_, rfl⟩
  have hs : v.hostSame c := by
    rw [hcc]
    exact State.checkpoint_hostSame ..
  have hn : c.ckNum = (v.ckNum + 1) % 2 ^ 48 := by
    rw [hcc]
    exact v.checkpoint_ckNum hk _ _
  rw [← hcc] at hb
  obtain ⟨g1, -, -⟩ := State.desc_answers hv hb hs
  have hu : (v.accept (c.done h false 0 c.ckNum)).ckNum = c.ckNum := by
    have hf : c.host.fwdNow = false := hs.fwdNow.trans hv.2.1
    refine State.rd2_congr ?_ ?_
    · rw [State.accept_rd _ _ (by decide), State.done_rd hf _ _ _ _ (by decide)]
    · rw [State.accept_rd _ _ (by decide), State.done_rd hf _ _ _ _ (by decide)]
  rw [State.desc_accepts hv hb hs] at g1
  refine ⟨_, congrArg Host.Outcome.next (State.desc_accepts hv hb hs), ?_, hu.trans hn⟩
  rw [hu]
  exact g1

theorem logCheckpoint_fault (h1 : ok = false) (h2 : a ≠ 0) : ∃ u, exec (.logCheckpoint h a ok) s = .next u ∧ v.posts u h 7 2 := by
  have hb := (checkpointBody_made hv ha hl hk (ok := ok)).trans (if_pos (by simp [h1, h2]))
  exact ⟨_, rfl, (State.desc_answers hv hb (State.checkpoint_hostSame ..)).1⟩

end checkpoint

end Sys2Proof.Machine

/-! Pinned keys, signing-required mode, the domain key and signature blobs (R282, R425, R426); the settlement of O57. -/
namespace Sys2Proof.Machine

/-! ### The shared operations -/

section ops
variable (s : State)

/-- The slots that hold a key, as a mask. -/
def State.keyMask (s : State) : Nat := (List.range 8).foldl (fun n k => n + (if (tabFind s.sec.keys k).isSome then 2 ^ k else 0)) 0

theorem State.showKeys_eq :
    s.showKeys = (s.set R.SEC_STAT F.SEC_STAT_KEYS s.keyMask).setB R.SEC_STAT F.SEC_STAT_DOMAIN_KEY s.sec.domKey.isSome := rfl

theorem State.showKeys_sec : s.showKeys.sec = s.sec := by rw [State.showKeys_eq, State.setB_sec, State.set_sec]

theorem State.showKeys_get {g : Bits} (h1 : F.SEC_STAT_KEYS.apart g) (h2 : F.SEC_STAT_DOMAIN_KEY.apart g) :
    s.showKeys.get R.SEC_STAT g = s.get R.SEC_STAT g := by
  rw [State.showKeys_eq, State.get_setB_apart _ _ _ _ (by decide) h2, State.get_set_apart _ _ _ _ _ (by decide) h1]

theorem State.showKeys_domain : s.showKeys.flag R.SEC_STAT F.SEC_STAT_DOMAIN_KEY = s.sec.domKey.isSome := by
  rw [State.showKeys_eq]
  exact State.flag_setB_self _ _ _ _ (by decide) rfl

theorem State.keysChanged_spec (k : Nat) (p : Nat × Nat) : s.logSame (s.keysChanged k p) ∧
    (s.keysChanged k p).flag R.SEC_STAT F.SEC_STAT_DOMAIN_KEY = s.sec.domKey.isSome := by
  refine ⟨(State.logSame.of_eq ((State.change_sec _ _).trans s.showKeys_sec)).trans (State.logSec_logSame _ _ _), ?_⟩
  rw [State.flag, State.keysChanged, State.get_of_rd (State.logSec_rd _ _ _ (by decide)), State.change_get_low _ _ _ (by decide)]
  exact s.showKeys_domain

theorem State.keysChanged_hostSame (k : Nat) (p : Nat × Nat) : s.hostSame (s.keysChanged k p) :=
  (State.keysChanged_kept (.refl [.regs, .vec, .hostMem, .sec, .axl] s) k p (Sub.self _)).hostSame (by decide)

theorem State.logSame.keys {s t : State} (h : s.logSame t) : t.sec.keys = s.sec.keys ∧ t.sec.domKey = s.sec.domKey := by
  rw [h]
  exact ⟨rfl, rfl⟩

/-- The mode bit changes, with its history bit. -/
def State.signBit (s : State) (on : Bool) : State := (s.setB R.SEC_STAT F.SEC_STAT_SIGN_REQ on).raiseMode F.GLB_MODE_HIST_SIGN_CHG

theorem State.setSigning_eq (on : Bool) (p : Nat × Nat) : s.setSigning on p = if s.signReq == on then s else ((s.signBit on).change 5).logSec 2 p := rfl

theorem State.signBit_spec (on : Bool) : (s.signBit on).signReq = on ∧ (s.signBit on).get R.GLB_MODE_HIST F.GLB_MODE_HIST_SIGN_CHG = 1 ∧
    (s.signBit on).sec = s.sec := by
  refine ⟨?_, State.rd_raiseBit_self _ (Hist.glbMode F.GLB_MODE_HIST_SIGN_CHG.lo) _ (by decide), ?_⟩
  · rw [State.signReq, State.flag, State.signBit, State.raiseMode_get _ _ _ (by decide)]
    exact State.flag_setB_self _ _ _ _ (by decide) rfl
  · exact ((State.raiseBit_onlyRegs _ _ _ (List.mem_singleton.mpr rfl)).sec).trans (State.setB_sec ..)

theorem State.setSigning_spec (on : Bool) (p : Nat × Nat) : (s.setSigning on p).signReq = on ∧ s.logSame (s.setSigning on p) ∧
    (s.signReq ≠ on → (s.setSigning on p).get R.GLB_MODE_HIST F.GLB_MODE_HIST_SIGN_CHG = 1) := by
  obtain ⟨h1, h2, h3⟩ := s.signBit_spec on
  rw [State.setSigning_eq]
  generalize s.signBit on = w at h1 h2 h3 ⊢
  split
  case isTrue h => exact ⟨by simpa using h, .of_eq rfl, fun hn => absurd (by simpa using h) hn⟩
  case isFalse =>
    refine ⟨?_, (State.logSame.of_eq ((State.change_sec _ _).trans h3)).trans (State.logSec_logSame _ _ _), fun _ => ?_⟩
    · rw [State.signReq, State.flag, State.get_of_rd (State.logSec_rd _ _ _ (by decide)), State.change_get_low _ _ _ (by decide)]
      exact h1
    · rw [State.get_of_rd (State.logSec_rd _ _ _ (by decide)), State.change_get_low _ _ _ (by decide)]
      exact h2

theorem State.setSigning_hostSame (on : Bool) (p : Nat × Nat) : s.hostSame (s.setSigning on p) :=
  (State.setSigning_kept (.refl [.regs, .vec, .hostMem, .sec, .axl] s) on p (Sub.self _)).hostSame (by decide)

end ops

/-! ### What an accepted descriptor leads to -/

theorem State.hostSame.trans {s t u : State} (h : s.hostSame t) (k : t.hostSame u) : s.hostSame u :=
  ⟨k.cpls.trans h.cpls, k.ops.trans h.ops, k.msix.trans h.msix, k.pci.trans h.pci, k.fwdNow.trans h.fwdNow⟩

theorem State.hostSame.of_host {s t : State} (h : t.host = s.host) : s.hostSame t := by
  constructor <;> rw [h]

section accepted
variable {s v w : State} {r : DescRule} {h : Hdr} {body : State → Adm}

/-- An accepted descriptor completes, and registers and the security core read as in the state `w` its opcode leads to. -/
theorem State.desc_leads (hv : s.admits r h v) {e : Bool} {st res : Nat} (hb : body v = .yes (w.done h e st res)) (hh : v.hostSame w) :
    v.posts (s.desc r h body) h st res ∧ (s.desc r h body).sec = w.sec ∧
      ∀ {a : Nat}, a ≠ R.MATE_FWD_CNT → a ≠ R.HSF_VSTAT → (s.desc r h body).rd a = w.rd a := by
  obtain ⟨g1, g2, -⟩ := State.desc_answers hv hb hh
  refine ⟨g1, g2.sec, fun h1 h2 => ?_⟩
  rw [State.desc_accepts hv hb hh, State.accept_rd _ _ h2, State.done_rd (hh.fwdNow.trans hv.2.1) _ _ _ _ h1]

end accepted

/-! ### KEY_PIN and KEY_UNPIN -/

section pin
variable {s v : State} {h : Hdr} {slot a : Nat} {k : Option (List Nat)} (hv : s.admits (pinRule s slot a k) h v)
include hv

theorem keyPin_slot (hs : 7 < slot) : ∃ u, exec (.keyPin h slot a k) s = .next u ∧ v.posts u h 4 (badRes 16) ∧ v.hostOnly u :=
  desc_run rfl (State.desc_refused hv (if_pos hs))

variable (hs : slot ≤ 7)
include hs

theorem keyPin_op (ho : bytesAt (s.headRaw h.ring) 17 1 ≠ 0) : ∃ u, exec (.keyPin h slot a k) s = .next u ∧ v.posts u h 4 (badRes 17) ∧ v.hostOnly u :=
  desc_run rfl (State.desc_refused hv ((if_neg (Nat.not_lt.mpr hs)).trans (if_pos ho)))

variable (ho : bytesAt (s.headRaw h.ring) 17 1 = 0)
include ho

theorem keyPin_addr (ha : a % 8 ≠ 0) : ∃ u, exec (.keyPin h slot a k) s = .next u ∧ v.posts u h 4 (badRes 24) ∧ v.hostOnly u :=
  desc_run rfl (State.desc_refused hv ((if_neg (Nat.not_lt.mpr hs)).trans ((if_neg (not_not_intro ho)).trans (if_pos ha))))

/-- A key of the store is another. -/
def State.pinned (s : State) (slot : Nat) (x : PinKey) : State := { s with sec := { s.sec with keys := tabPut s.sec.keys slot x } }

/-- What KEY_PIN makes of the key object it has read. -/
def State.pinObj (s : State) (h : Hdr) (slot : Nat) (b : List Nat) : Nat × Option Nat → Adm
  | (_, some k) => badData (some k)
  | (oid, none) => .yes (((s.pinned slot ⟨oid, b⟩).keysChanged 3 ((s.pinned slot ⟨oid, b⟩).hdrOrigin h)).ok h 0)

variable (ha : a % 8 = 0)
include ha

theorem keyPin_unread (hk : k = none) : ∃ u, exec (.keyPin h slot a k) s = .next u ∧ v.posts u h 7 1 ∧ v.hostOnly u := by
  subst hk
  exact desc_run rfl (State.desc_posts hv ((if_neg (Nat.not_lt.mpr hs)).trans ((if_neg (not_not_intro ho)).trans ((if_neg (not_not_intro ha)).trans
    (if_neg (by simp [hv.2.2.2]))))))

omit hv in
theorem keyPinBody_read (he : v.entriesFree 1 = true) (b : List Nat) : keyPinBody h slot a (some b) (bytesAt (s.headRaw h.ring) 17 1) v = v.pinObj h slot b (keyObj b) := by
  refine (if_neg (Nat.not_lt.mpr hs)).trans ((if_neg (not_not_intro ho)).trans ((if_neg (not_not_intro ha)).trans ((if_neg (by simp [he])).trans ?_)))
  dsimp only
  generalize keyObj b = x
  rcases x with ⟨oid, _ | j⟩ <;> rfl

theorem keyPin_bad {b : List Nat} {oid j : Nat} (hk : k = some b) (hb : keyObj b = (oid, some j)) :
    ∃ u, exec (.keyPin h slot a k) s = .next u ∧ v.posts u h 4 (dataRes (some j)) ∧ v.hostOnly u := by
  subst hk
  exact desc_run rfl (State.desc_refused hv ((keyPinBody_read hs ho ha hv.2.2.2 b).trans (congrArg (v.pinObj h slot b) hb)))

theorem keyPin_pins {b : List Nat} {oid : Nat} (hk : k = some b) (hb : keyObj b = (oid, none)) :
    ∃ u, exec (.keyPin h slot a k) s = .next u ∧ v.posts u h 0 0 ∧ tabFind u.sec.keys slot = some ⟨oid, b⟩ ∧
      ∀ j, j ≠ slot → tabFind u.sec.keys j = tabFind v.sec.keys j := by
  subst hk
  obtain ⟨w, hw⟩ : ∃ w, w = v.pinned slot ⟨oid, b⟩ := ⟨_, rfl⟩
  have hkeys : w.sec.keys = tabPut v.sec.keys slot ⟨oid, b⟩ := by rw [hw]; rfl
  have hs' : v.hostSame w := by rw [hw]; exact .of_host rfl
  have hbody : keyPinBody h slot a (some b) (bytesAt (s.headRaw h.ring) 17 1) v = .yes ((w.keysChanged 3 (w.hdrOrigin h)).done h false 0 0) := by
    rw [hw]
    exact (keyPinBody_read hs ho ha hv.2.2.2 b).trans (congrArg (v.pinObj h slot b) hb)
  have hsame := w.keysChanged_hostSame 3 (w.hdrOrigin h)
  obtain ⟨g1, g2, -⟩ := State.desc_leads hv hbody (hs'.trans hsame)
  have hf := ((w.keysChanged_spec 3 (w.hdrOrigin h)).1.keys.1).trans hkeys
  refine ⟨_, rfl, g1, ?_, fun j hj => ?_⟩
  · refine (congrArg (fun x : SecSt => tabFind x.keys slot) g2).trans ?_
    rw [hf]
    exact tabFind_put_self ..
  · refine (congrArg (fun x : SecSt => tabFind x.keys j) g2).trans ?_
    rw [hf]
    exact tabFind_put_ne _ _ hj

end pin

end Sys2Proof.Machine

/-! KEY_UNPIN, signing-required mode, the domain key and signature blobs (R282, R425, R426); the settlement of O57. -/
namespace Sys2Proof.Machine

/-! ### KEY_UNPIN -/

section unpin
variable {s v : State} {h : Hdr} {slot : Nat} (hv : s.admits { op := 0x72, rfn := 0, need := true, pay := keyPay 1 [fld 16 1 slot] .any } h v)
include hv

theorem keyUnpin_slot (hs : 7 < slot) : ∃ u, exec (.keyUnpin h slot) s = .next u ∧ v.posts u h 4 (badRes 16) ∧ v.hostOnly u :=
  desc_run rfl (State.desc_refused hv (if_pos hs))

variable (hs : slot ≤ 7)
include hs

theorem keyUnpin_none (hk : tabFind v.sec.keys slot = none) : ∃ u, exec (.keyUnpin h slot) s = .next u ∧ v.posts u h 0 0 ∧ v.hostOnly u :=
  desc_run rfl (State.desc_posts hv ((if_neg (Nat.not_lt.mpr hs)).trans ((if_neg (by simp [hk])).trans ((if_neg (by simp [hv.2.2.2])).trans (if_pos (by simp [hk]))))))

variable {k : PinKey} (hk : tabFind v.sec.keys slot = some k)
include hk

theorem keyUnpin_last (h1 : v.signReq = true) (h2 : v.sec.keys.length = 1) : ∃ u, exec (.keyUnpin h slot) s = .next u ∧ v.posts u h 5 6 ∧ v.hostOnly u :=
  desc_run rfl (State.desc_refused hv ((if_neg (Nat.not_lt.mpr hs)).trans (if_pos (by simp [hk, h1, h2]))))

/-- A slot of the key store is empty. -/
def State.unpinned (s : State) (slot : Nat) : State := { s with sec := { s.sec with keys := tabDel s.sec.keys slot } }

theorem keyUnpin_done (hc : v.signReq = false ∨ v.sec.keys.length ≠ 1) : ∃ u, exec (.keyUnpin h slot) s = .next u ∧ v.posts u h 0 0 ∧ tabFind u.sec.keys slot = none := by
  obtain ⟨w, hw⟩ : ∃ w, w = v.unpinned slot := ⟨_, rfl⟩
  have hkeys : w.sec.keys = tabDel v.sec.keys slot := by rw [hw]; rfl
  have hs' : v.hostSame w := by rw [hw]; exact .of_host rfl
  have hbody : keyUnpinBody h slot v = .yes ((w.keysChanged 3 (w.hdrOrigin h)).done h false 0 0) := by
    rw [hw]
    exact (if_neg (Nat.not_lt.mpr hs)).trans ((if_neg (by rcases hc with hc | hc <;> simp [hc])).trans ((if_neg (by simp [hv.2.2.2])).trans (if_neg (by simp [hk]))))
  obtain ⟨g1, g2, -⟩ := State.desc_leads hv hbody (hs'.trans (w.keysChanged_hostSame 3 (w.hdrOrigin h)))
  refine ⟨_, rfl, g1, (congrArg (fun x : SecSt => tabFind x.keys slot) g2).trans ?_⟩
  rw [(w.keysChanged_spec 3 (w.hdrOrigin h)).1.keys.1, hkeys]
  exact tabFind_del_self ..

end unpin

/-! ### Signing-required mode -/

section signing
variable {s v : State} {h : Hdr} {r : DescRule} {on : Bool} (hv : s.admits r h v)
include hv

theorem signing_denied {why code : Nat} (hc : code < 256) (hb : signingBody h on v = .deny why (v.modeRefused code)) :
    v.posts (s.desc r h (signingBody h on)) h 5 why ∧ (s.desc r h (signingBody h on)).get R.GLB_MODE_REFUSE F.GLB_MODE_REFUSE_CODE = code := by
  obtain ⟨g1, g2⟩ := State.desc_denied_spec hv hb ((State.modeRefused_kept (.refl [.regs, .vec] v) code (Sub.self _)).hostSame (by decide))
  exact ⟨g1, (State.get_of_rd (g2 _ (by decide)) _).trans (v.modeRefused_code hc)⟩

theorem signing_set (h1 : on = true → v.armed = true) (h2 : on = true → v.lifecycle = 1 ∨ v.lifecycle = 2) :
    v.posts (s.desc r h (signingBody h on)) h 0 0 ∧ (s.desc r h (signingBody h on)).signReq = on ∧
      (v.signReq ≠ on → (s.desc r h (signingBody h on)).get R.GLB_MODE_HIST F.GLB_MODE_HIST_SIGN_CHG = 1) := by
  have hb : signingBody h on v = .yes ((v.setSigning on (v.hdrOrigin h)).done h false 0 0) := by
    refine (if_neg ?_).trans ((if_neg ?_).trans (if_neg (by simp [hv.2.2.2])))
    · cases on <;> simp [h1]
    · cases on
      · simp
      · rcases h2 rfl with hl | hl <;> simp [hl]
  obtain ⟨g1, -, g3⟩ := State.desc_leads hv hb (v.setSigning_hostSame on (v.hdrOrigin h))
  obtain ⟨k1, -, k3⟩ := v.setSigning_spec on (v.hdrOrigin h)
  refine ⟨g1, ?_, fun hn => (State.get_of_rd (g3 (by decide) (by decide)) _).trans (k3 hn)⟩
  rw [State.signReq, State.flag, State.get_of_rd (g3 (by decide) (by decide))]
  exact k1

end signing

theorem signingEnter_spec (s v : State) (h : Hdr) (hv : s.admits { op := 0x72, rfn := 0, need := true, pay := keyPay 2 [] .any } h v) :
    (v.armed = false → ∃ u, exec (.signingEnter h) s = .next u ∧ v.posts u h 5 6 ∧ u.get R.GLB_MODE_REFUSE F.GLB_MODE_REFUSE_CODE = 1) ∧
    (v.armed = true → (v.lifecycle ≠ 1 ∧ v.lifecycle ≠ 2 → ∃ u, exec (.signingEnter h) s = .next u ∧ v.posts u h 5 7 ∧ u.get R.GLB_MODE_REFUSE F.GLB_MODE_REFUSE_CODE = 3) ∧
      (v.lifecycle = 1 ∨ v.lifecycle = 2 → ∃ u, exec (.signingEnter h) s = .next u ∧ v.posts u h 0 0 ∧ u.signReq = true ∧
        (v.signReq = false → u.get R.GLB_MODE_HIST F.GLB_MODE_HIST_SIGN_CHG = 1))) := by
  refine ⟨fun ha => desc_run rfl (signing_denied hv (by decide) (if_pos (by simp [ha]))), fun ha => ⟨fun hl => ?_, fun hl => ?_⟩⟩
  · exact desc_run rfl (signing_denied hv (by decide) ((if_neg (by simp [ha])).trans (if_pos (by simp [hl.1, hl.2]))))
  · obtain ⟨g1, g2, g3⟩ := signing_set (on := true) hv (fun _ => ha) (fun _ => hl)
    exact ⟨_, rfl, g1, g2, fun hn => g3 (by simp [hn])⟩

theorem signingLeave_spec (s v : State) (h : Hdr) (hv : s.admits { op := 0x72, rfn := 0, need := true, pay := keyPay 3 [] .any } h v) :
    ∃ u, exec (.signingLeave h) s = .next u ∧ v.posts u h 0 0 ∧ u.signReq = false := by
  obtain ⟨g1, g2, -⟩ := signing_set (on := false) hv (fun hx => absurd hx (by decide)) (fun hx => absurd hx (by decide))
  exact ⟨_, rfl, g1, g2⟩

/-! ### The domain key -/

section domain
variable {s v : State} {h : Hdr} {r : DescRule} (hv : s.admits r h v)
include hv

/-- The domain key is another, or none. -/
def State.domainKey (s : State) (k : Option (List Nat)) : State := { s with sec := { s.sec with domKey := k } }

theorem domKey_set {install : Bool} {a : Nat} {key k : Option (List Nat)} (h1 : (install && a % 8 != 0) = false) (h2 : (install && key.isNone) = false)
    (hk : k = if install then key.map (·.take 32) else none) : v.posts (s.desc r h (domKeyBody h install a key)) h 0 0 ∧
      (s.desc r h (domKeyBody h install a key)).sec.domKey = k ∧ (s.desc r h (domKeyBody h install a key)).flag R.SEC_STAT F.SEC_STAT_DOMAIN_KEY = k.isSome := by
  obtain ⟨w, hw⟩ : ∃ w, w = v.domainKey k := ⟨_, rfl⟩
  have hdom : w.sec.domKey = k := by rw [hw]; rfl
  have hs : v.hostSame w := by rw [hw]; exact .of_host rfl
  have hb : domKeyBody h install a key v = .yes ((w.keysChanged 4 (w.hdrOrigin h)).done h false 0 0) := by
    rw [hw, hk]
    exact (if_neg (by simp [h1])).trans ((if_neg (by simp [hv.2.2.2])).trans (if_neg (by simp [h2])))
  obtain ⟨g1, g2, g3⟩ := State.desc_leads hv hb (hs.trans (w.keysChanged_hostSame 4 (w.hdrOrigin h)))
  obtain ⟨k1, k2⟩ := w.keysChanged_spec 4 (w.hdrOrigin h)
  refine ⟨g1, (congrArg SecSt.domKey g2).trans (k1.keys.2.trans hdom), ?_⟩
  rw [State.flag, State.get_of_rd (g3 (by decide) (by decide))]
  rw [hdom] at k2
  exact k2

end domain

theorem domainKeyInstall_spec (s v : State) (h : Hdr) (a : Nat) (k : Option (List Nat)) (hv : s.admits (domKeyRule s 4 (.is a) (keyHost a k)) h v) :
    (a % 8 ≠ 0 → ∃ u, exec (.domainKeyInstall h a k) s = .next u ∧ v.posts u h 4 (badRes 24) ∧ v.hostOnly u) ∧
    (a % 8 = 0 → (k = none → ∃ u, exec (.domainKeyInstall h a k) s = .next u ∧ v.posts u h 7 1 ∧ v.hostOnly u) ∧
      ∀ b, k = some b → ∃ u, exec (.domainKeyInstall h a k) s = .next u ∧ v.posts u h 0 0 ∧ u.sec.domKey = some (b.take 32) ∧
        u.flag R.SEC_STAT F.SEC_STAT_DOMAIN_KEY = true) := by
  refine ⟨fun ha => desc_run rfl (State.desc_refused hv (if_pos (by simp [ha]))), fun ha => ⟨fun hk => ?_, fun b hk => ?_⟩⟩
  · exact desc_run rfl (State.desc_posts hv ((if_neg (by simp [ha])).trans ((if_neg (by simp [hv.2.2.2])).trans (if_pos (by simp [hk])))))
  · exact desc_run rfl (domKey_set (install := true) (k := some (b.take 32)) hv (by simp [ha]) (by simp [hk]) (by simp [hk]))

theorem domainKeyErase_spec (s v : State) (h : Hdr) (hv : s.admits (domKeyRule s 5 .any []) h v) :
    ∃ u, exec (.domainKeyErase h) s = .next u ∧ v.posts u h 0 0 ∧ u.sec.domKey = none ∧ u.flag R.SEC_STAT F.SEC_STAT_DOMAIN_KEY = false :=
  desc_run rfl (domKey_set (install := false) (k := none) hv rfl rfl rfl)

/-! ### Signature blobs -/

section blob
variable (s : State) {b : Blob} {msg : List Byte} {k : PinKey}

/-- The form, the key and the digest of a blob are right. -/
def blobOk (b : Blob) (msg : List Byte) (k : PinKey) : Bool :=
  b.version == 1 && b.zero && (decide (b.slot < 8) && k.oid == b.oid && sigLenOf b.oid == some b.sigLen && k.key == b.key)
    && b.digest == Config.shake 512 (nums msg)

theorem State.checkBlob_key (hk : tabFind s.sec.keys b.slot = some k) : s.checkBlob b msg =
    if !blobOk b msg k then (0x02, s.sigFail)
    else if b.target ≠ 0xFFFF ∧ b.target ≠ s.get R.MATE_DOM_CFG F.MATE_DOM_CFG_DEVNUM then (0x03, s.sigFail)
    else if b.seq ≤ s.lastSeq b.slot then (0x03, s.sigFail.raise Hist.sec F.SEC_HIST_REPLAY)
    else (0, s.recordSeq b.slot b.seq) := by
  unfold State.checkBlob
  rw [hk]
  rfl

theorem blobOk_iff (hs : b.slot < 8) : blobOk b msg k = true ↔ b.version = 1 ∧ b.zero = true ∧ k.oid = b.oid ∧ sigLenOf b.oid = some b.sigLen ∧ k.key = b.key ∧
    b.digest = Config.shake 512 (nums msg) := by
  simp only [blobOk, Bool.and_eq_true, beq_iff_eq, decide_eq_true_eq, hs, true_and, and_assoc]

theorem State.rd2_wr2_mod {lo hi v : Nat} (h : lo ≠ hi) : (s.wr2 lo hi v).rd2 lo hi = v % 2 ^ 64 := by
  rw [State.wr2, State.rd2, State.rd_wr_ne _ _ h, State.rd_wr_self, State.rd_wr_self, BitVec.toNat_ofNat, BitVec.toNat_ofNat]
  omega

theorem State.recordSeq_lastSeq {n v : Nat} (hn : n < 8) : (s.recordSeq n v).lastSeq n = v % 2 ^ 64 := by
  have hlo : R.SEC_SEQ_LO n < 0x70000 := by unfold R.SEC_SEQ_LO; omega
  have hhi : R.SEC_SEQ_HI n < 0x70000 := by unfold R.SEC_SEQ_HI; omega
  rw [State.lastSeq, State.recordSeq, State.rd2_congr (State.change_rd_low _ _ hlo) (State.change_rd_low _ _ hhi)]
  exact s.rd2_wr2_mod (by unfold R.SEC_SEQ_LO R.SEC_SEQ_HI; omega)

theorem checkBlob_spec (hk : tabFind s.sec.keys b.slot = some k) (hs : b.slot < 8) :
    ((b.version ≠ 1 ∨ b.zero = false ∨ k.oid ≠ b.oid ∨ sigLenOf b.oid ≠ some b.sigLen ∨ k.key ≠ b.key ∨ b.digest ≠ Config.shake 512 (nums msg)) →
      (s.checkBlob b msg).1 = 2 ∧ (s.checkBlob b msg).2 = s.sigFail) ∧
    (b.version = 1 → b.zero = true → k.oid = b.oid → sigLenOf b.oid = some b.sigLen → k.key = b.key → b.digest = Config.shake 512 (nums msg) →
      (b.target ≠ 0xFFFF → b.target ≠ s.get R.MATE_DOM_CFG F.MATE_DOM_CFG_DEVNUM → (s.checkBlob b msg).1 = 3) ∧
      ((b.target = 0xFFFF ∨ b.target = s.get R.MATE_DOM_CFG F.MATE_DOM_CFG_DEVNUM) → (b.seq ≤ s.lastSeq b.slot → (s.checkBlob b msg).1 = 3 ∧
          (s.checkBlob b msg).2.get R.SEC_HIST F.SEC_HIST_REPLAY = 1) ∧
        (s.lastSeq b.slot < b.seq → (s.checkBlob b msg).1 = 0 ∧ (s.checkBlob b msg).2.lastSeq b.slot = b.seq % 2 ^ 64))) := by
  have hx := s.checkBlob_key hk (msg := msg)
  refine ⟨fun hc => ?_, fun h1 h2 h3 h4 h5 h6 => ?_⟩
  · have hb : blobOk b msg k = false := by
      rw [Bool.eq_false_iff]
      intro ht
      obtain ⟨h1, h2, h3, h4, h5, h6⟩ := (blobOk_iff hs).mp ht
      rcases hc with hc | hc | hc | hc | hc | hc
      · exact hc h1
      · exact absurd (hc.symm.trans h2) (by decide)
      · exact hc h3
      · exact hc h4
      · exact hc h5
      · exact hc h6
    rw [hx, if_pos (by simp [hb])]
    exact ⟨rfl, rfl⟩
  · have hb : blobOk b msg k = true := (blobOk_iff hs).mpr ⟨h1, h2, h3, h4, h5, h6⟩
    rw [if_neg (by simp [hb])] at hx
    refine ⟨fun t1 t2 => ?_, fun ht => ⟨fun hq => ?_, fun hq => ?_⟩⟩
    · rw [hx, if_pos ⟨t1, t2⟩]
    · rw [hx, if_neg (fun hc => ht.elim hc.1 hc.2), if_pos hq]
      exact ⟨rfl, State.get_raise _ Hist.sec _ rfl (by decide)⟩
    · rw [hx, if_neg (fun hc => ht.elim hc.1 hc.2), if_neg (Nat.not_le.mpr hq)]
      exact ⟨rfl, s.recordSeq_lastSeq hs⟩

end blob

/-! ### The obligation -/

/-- Settles O57: each security descriptor is refused by the first check that fails, and otherwise answers with what it signed, stored or erased. -/
theorem securityDescriptors : Obligations.SecurityDescriptors := by
  unfold Obligations.SecurityDescriptors
  refine ⟨fun s v h nonce a hv => ⟨attest_addr hv, attest_noKey hv, fun ha hk => ⟨attest_fault hv ha hk, fun leaf w hl => attest_report hv ha hl⟩⟩,
    fun s v h a ok hv => ⟨logCheckpoint_addr hv, logCheckpoint_blank hv, fun ha hl => ⟨logCheckpoint_waits hv ha hl, fun hk =>
      ⟨logCheckpoint_made hv ha hl hk, logCheckpoint_fault hv ha hl hk⟩⟩⟩,
    fun s v h slot a k hv => ⟨keyPin_slot hv, keyPin_op hv, fun hs ho => ⟨keyPin_addr hv hs ho, fun ha => ⟨keyPin_unread hv hs ho ha,
      fun b oid j hk hb => keyPin_bad hv hs ho ha hk hb, fun b oid hk hb => keyPin_pins hv hs ho ha hk hb⟩⟩⟩,
    fun s v h slot hv => ⟨keyUnpin_slot hv, fun hs => ⟨keyUnpin_none hv hs, fun k hk => ⟨keyUnpin_last hv hs hk, keyUnpin_done hv hs hk⟩⟩⟩,
    signingEnter_spec, signingLeave_spec, domainKeyInstall_spec, domainKeyErase_spec, fun s b msg k hk hs => checkBlob_spec s hk hs⟩

end Sys2Proof.Machine

/-! How a lifecycle request completes or is turned away (R413, R414). -/
namespace Sys2Proof.Machine

section done
variable (s : State)

/-! ### Completion -/

/-- The registers of the token nonce. -/
def nonceRegs : List Nat := (List.range 8).map R.SEC_LC_NONCE

theorem State.newNonce_rd {a : Nat} (ha : a ∉ nonceRegs) : s.newNonce.rd a = s.rd a := by
  have h (t : State) (g : Nat → Word) : t.onlyRegs ((List.range 8).foldl (fun (s : State) w => s.wr (R.SEC_LC_NONCE w) (g w)) t) nonceRegs :=
    .foldl _ fun _ hw _ => State.wr_onlyRegs _ _ (List.mem_map_of_mem hw)
  rw [State.newNonce]
  exact (h _ _).rd ha

theorem State.newNonce_parts : s.newNonce.sec = s.sec ∧ s.newNonce.axl = s.axl := by
  have h := (State.newNonce_kept (.refl [.regs, .free] s) (Sub.self _)).2.2
  exact ⟨h .sec (by decide), h .axl (by decide)⟩

theorem State.lcDone_rd (r : Nat) {a : Nat} (h1 : a ≠ R.SEC_LC_RES) (h2 : a ∉ nonceRegs) : (s.lcDone r).rd a = s.rd a := by
  rw [State.lcDone, State.newNonce_rd _ h2, State.rd_set_ne _ _ _ h1]

theorem State.lcDone_stat (r : Nat) (f : Bits) : (s.lcDone r).get R.SEC_STAT f = s.get R.SEC_STAT f :=
  State.get_of_rd (s.lcDone_rd r (by decide) (by decide)) f

theorem State.lcDone_result {r : Nat} (hr : r < 8) : (s.lcDone r).get R.SEC_LC_RES F.SEC_LC_RES_RESULT = r := by
  rw [State.lcDone, State.get_of_rd (State.newNonce_rd _ (by decide))]
  exact State.get_set_fits _ _ _ (by decide) hr

theorem State.lcDone_parts (r : Nat) : (s.lcDone r).sec = s.sec ∧ (s.lcDone r).axl = s.axl := by
  rw [State.lcDone, (State.newNonce_parts _).1, (State.newNonce_parts _).2, State.set_sec, State.set_axl]
  exact ⟨rfl, rfl⟩

/-! ### Turned away -/

theorem State.lcRefused_spec : s.lcRefused.get R.SEC_HIST F.SEC_HIST_LC_REFUSED = 1 ∧ s.lcRefused.get R.SEC_LC_RES F.SEC_LC_RES_RESULT = 2 ∧
    s.lcRefused.lifecycle = s.lifecycle ∧ s.lcRefused.get R.GLB_MODE_REFUSE F.GLB_MODE_REFUSE_CODE = s.get R.GLB_MODE_REFUSE F.GLB_MODE_REFUSE_CODE := by
  refine ⟨?_, State.lcDone_result _ (by decide), ?_, ?_⟩
  · rw [State.lcRefused, State.get_of_rd (State.lcDone_rd _ _ (by decide) (by decide))]
    exact State.get_raise _ Hist.sec _ rfl (by decide)
  · rw [State.lifecycle, State.lcRefused, State.lcDone_stat, State.get_raise_ne _ Hist.sec _ _ (by decide)]
    rfl
  · rw [State.lcRefused, State.get_of_rd (State.lcDone_rd _ _ (by decide) (by decide)), State.get_raise_ne _ Hist.sec _ _ (by decide)]

theorem State.lcBadToken_spec : s.lcBadToken.get R.SEC_HIST F.SEC_HIST_TOKEN_ERR = 1 ∧ s.lcBadToken.get R.SEC_LC_RES F.SEC_LC_RES_RESULT = 4 ∧
    s.lcBadToken.lifecycle = s.lifecycle := by
  refine ⟨?_, State.lcDone_result _ (by decide), ?_⟩
  · rw [State.lcBadToken, State.get_of_rd (State.lcDone_rd _ _ (by decide) (by decide))]
    exact State.get_raise _ Hist.sec _ rfl (by decide)
  · rw [State.lifecycle, State.lcBadToken, State.lcDone_stat, State.get_raise_ne _ Hist.sec _ _ (by decide)]
    rfl

/-! ### Trying a request -/

section try_
variable {s} {b : Bool} {k : State → State}

theorem State.lcTry_generating (hg : s.sec.genId = true) : s.lcTry b k = s := if_pos (by simp [hg])

variable (hl : s.lifecycle ≠ 4) (hg : s.sec.genId = false)
include hl hg

theorem State.lcTry_role (hr : s.role ≠ 0) : s.lcTry b k = (s.modeRefused 5).lcRefused := (if_neg (by simp [hl, hg])).trans (if_pos hr)

theorem State.lcTry_solo (hr : s.role = 0) : s.lcTry b k = if !b then s.lcRefused else k s := (if_neg (by simp [hl, hg])).trans (if_neg (not_not_intro hr))

theorem State.lcTry_barred (hr : s.role = 0) (hb : b = false) : s.lcTry b k = s.lcRefused := (State.lcTry_solo hl hg hr).trans (if_pos (by simp [hb]))

theorem State.lcTry_taken (hr : s.role = 0) (hb : b = true) : s.lcTry b k = k s := (State.lcTry_solo hl hg hr).trans (if_neg (by simp [hb]))

end try_
end done

/-! ### The commands as writes of the host -/

/-- What a refused request shows. -/
theorem lc_refused {s : State} {c : Instr} (h : exec c s = .next s.lcRefused) : ∃ u, exec c s = .next u ∧ u.get R.SEC_HIST F.SEC_HIST_LC_REFUSED = 1 ∧
    u.get R.SEC_LC_RES F.SEC_LC_RES_RESULT = 2 ∧ u.lifecycle = s.lifecycle := by
  obtain ⟨h1, h2, h3, -⟩ := s.lcRefused_spec
  exact ⟨_, h, h1, h2, h3⟩

section host
variable {s : State} (hu : s.upFor R.SEC_LC_REQ)
include hu

theorem exec_lcProvision (tok : Option Token) : exec (.lcProvision tok) s = .next (s.lcProvision tok) := congrArg _ (State.byHost_upFor hu _)
theorem exec_lcField : exec .lcField s = .next s.lcField := congrArg _ (State.byHost_upFor hu _)
theorem exec_lcRma (tok : Option Token) (cut : Bool) : exec (.lcRma tok cut) s = .next (s.lcRma tok cut) := congrArg _ (State.byHost_upFor hu _)
theorem exec_lcEnd (tok : Option Token) : exec (.lcEnd tok) s = .next (s.lcEnd tok) := congrArg _ (State.byHost_upFor hu _)
theorem exec_vendorDebugSession (tok : Option Token) : exec (.vendorDebugSession tok) s = .next (s.vendorDebugSession tok) := congrArg _ (State.byHost_upFor hu _)

/-- While an identity key is made no request is taken. -/
theorem lc_generating (tok : Option Token) (cut : Bool) (hg : s.sec.genId = true) : exec (.lcProvision tok) s = .next s ∧ exec .lcField s = .next s ∧
    exec (.lcRma tok cut) s = .next s ∧ exec (.lcEnd tok) s = .next s ∧ exec (.vendorDebugSession tok) s = .next s :=
  ⟨(exec_lcProvision hu tok).trans (congrArg _ (State.lcTry_generating hg)), (exec_lcField hu).trans (congrArg _ (State.lcTry_generating hg)),
    (exec_lcRma hu tok cut).trans (congrArg _ (State.lcTry_generating hg)), (exec_lcEnd hu tok).trans (congrArg _ (State.lcTry_generating hg)),
    (exec_vendorDebugSession hu tok).trans (congrArg _ (if_pos (by simp [hg])))⟩

variable (hg : s.sec.genId = false)
include hg

/-- Table 17-1 does not allow the request. -/
theorem lc_barred (tok : Option Token) (cut : Bool) (c : Instr) (h : (s.role = 0 ∧ (c = .lcProvision tok ∧ s.lifecycle ≠ 0 ∨ c = .lcField ∧ s.lifecycle ≠ 1 ∨
      c = .lcRma tok cut ∧ s.lifecycle ≠ 1 ∧ s.lifecycle ≠ 2) ∨ c = .vendorDebugSession tok ∧ s.lifecycle ≠ 3)) :
    ∃ u, exec c s = .next u ∧ u.get R.SEC_HIST F.SEC_HIST_LC_REFUSED = 1 ∧ u.get R.SEC_LC_RES F.SEC_LC_RES_RESULT = 2 ∧ u.lifecycle = s.lifecycle := by
  have hl := hu.1.2
  obtain ⟨hr, ⟨rfl, k⟩ | ⟨rfl, k⟩ | ⟨rfl, k, k'⟩⟩ | ⟨rfl, k⟩ := h
  · exact lc_refused ((exec_lcProvision hu tok).trans (congrArg _ (State.lcTry_barred hl hg hr (by simp [k]))))
  · exact lc_refused ((exec_lcField hu).trans (congrArg _ (State.lcTry_barred hl hg hr (by simp [k]))))
  · exact lc_refused ((exec_lcRma hu tok cut).trans (congrArg _ (State.lcTry_barred hl hg hr (by simp [k, k']))))
  · exact lc_refused ((exec_vendorDebugSession hu tok).trans (congrArg _ ((if_neg (by simp [hl, hg])).trans (if_pos k))))

/-- A device of a pair refuses the requests. -/
theorem lc_paired (hr : s.role ≠ 0) (tok : Option Token) (cut : Bool) (c : Instr) (h : c = .lcProvision tok ∨ c = .lcField ∨ c = .lcRma tok cut ∨ c = .lcEnd tok) :
    ∃ u, exec c s = .next u ∧ u.get R.SEC_HIST F.SEC_HIST_LC_REFUSED = 1 ∧ u.get R.SEC_LC_RES F.SEC_LC_RES_RESULT = 2 ∧
      u.get R.GLB_MODE_REFUSE F.GLB_MODE_REFUSE_CODE = 5 ∧ u.lifecycle = s.lifecycle := by
  have hl := hu.1.2
  have hx : exec c s = .next (s.modeRefused 5).lcRefused := by
    obtain rfl | rfl | rfl | rfl := h
    · exact (exec_lcProvision hu tok).trans (congrArg _ (State.lcTry_role hl hg hr))
    · exact (exec_lcField hu).trans (congrArg _ (State.lcTry_role hl hg hr))
    · exact (exec_lcRma hu tok cut).trans (congrArg _ (State.lcTry_role hl hg hr))
    · exact (exec_lcEnd hu tok).trans (congrArg _ (State.lcTry_role hl hg hr))
  obtain ⟨h1, h2, h3, h4⟩ := (s.modeRefused 5).lcRefused_spec
  exact ⟨_, hx, h1, h2, h4.trans (s.modeRefused_code (by decide)), h3.trans (s.modeRefused_get 5 _ (by decide) (by decide))⟩

end host

end Sys2Proof.Machine

/-! Fuses, keys and consent, and the requests that provision a device and put it into the field (R413 to R415, R418, R420). -/
namespace Sys2Proof.Machine

section ops
variable (s : State)

/-! ### Fuses -/

/-- The lifecycle's fuse is blown, and debug follows it. -/
def State.fuseBlown (s : State) (l : Nat) : State := (s.set R.SEC_STAT F.SEC_STAT_LIFECYCLE l).set R.SEC_STAT F.SEC_STAT_DEBUG (if l ≤ 1 then 1 else 0)

theorem State.setLifecycle_eq (l : Nat) : s.setLifecycle l = ((s.fuseBlown l).raiseMode F.GLB_MODE_HIST_LIFECYCLE_CHG).logSec 1 (0, 0xFF) := rfl

theorem State.fuseBlown_lifecycle {l : Nat} (hl : l < 8) : (s.fuseBlown l).lifecycle = l := by
  rw [State.lifecycle, State.fuseBlown, State.get_set_apart _ _ _ _ _ (by decide) (by decide)]
  exact State.get_set_fits _ _ _ (by decide) hl

theorem State.fuseBlown_get (l : Nat) {g : Bits} (h1 : F.SEC_STAT_LIFECYCLE.apart g) (h2 : F.SEC_STAT_DEBUG.apart g) :
    (s.fuseBlown l).get R.SEC_STAT g = s.get R.SEC_STAT g := by
  rw [State.fuseBlown, State.get_set_apart _ _ _ _ _ (by decide) h2, State.get_set_apart _ _ _ _ _ (by decide) h1]

theorem State.setLifecycle_stat (l : Nat) (g : Bits) : (s.setLifecycle l).get R.SEC_STAT g = (s.fuseBlown l).get R.SEC_STAT g := by
  rw [State.setLifecycle_eq, State.get_of_rd (State.logSec_rd _ _ _ (by decide)), State.raiseMode_get _ _ _ (by decide)]

theorem State.setLifecycle_lifecycle {l : Nat} (hl : l < 8) : (s.setLifecycle l).lifecycle = l :=
  (s.setLifecycle_stat l _).trans (s.fuseBlown_lifecycle hl)

theorem State.setLifecycle_changed (l : Nat) : (s.setLifecycle l).get R.GLB_MODE_HIST F.GLB_MODE_HIST_LIFECYCLE_CHG = 1 := by
  rw [State.setLifecycle_eq, State.get_of_rd (State.logSec_rd _ _ _ (by decide))]
  exact State.rd_raiseBit_self _ (Hist.glbMode F.GLB_MODE_HIST_LIFECYCLE_CHG.lo) _ (by decide)

theorem State.setLifecycle_logSame (l : Nat) : s.logSame (s.setLifecycle l) := by
  refine (State.logSame.of_eq ?_).trans (State.logSec_logSame _ _ _)
  exact (State.raiseBit_onlyRegs _ _ _ (.head [])).sec.trans ((State.set_sec ..).trans (State.set_sec ..))

theorem State.setLifecycle_axl (l : Nat) : (s.setLifecycle l).axl = s.axl :=
  (State.setLifecycle_kept (.refl [.regs, .vec, .hostMem, .sec] s) l (Sub.self _)).2.2 .axl (by decide)

/-! ### New keys -/

/-- Key `k` is ready. -/
def State.keyReady (s : State) (k : Nat) : State := s.set R.SEC_STAT (keyField k) 1

theorem State.keyReady_frame (k : Nat) : s.signFrame leafRegs (keyField k) (s.keyReady k) := by
  refine ⟨fun {a} _ ha => ?_, fun hg => State.get_set_apart _ _ _ _ _ (keyField_fits k) hg, fun _ hx => (State.get_set_ne _ _ _ _ (by decide)).trans hx, ?_⟩
  · simp only [leafRegs, List.mem_cons, List.not_mem_nil, or_false, not_or] at ha
    exact State.rd_set_ne _ _ _ ha.1
  · rw [State.keyReady, State.set_sec]

theorem State.newKey_eq (k : Nat) : s.newKey k = (((s.keyReady k).setLeaves k {}).change (1 + k)).change (3 + k) := rfl

theorem State.newKey_frame (k : Nat) : s.signFrame leafRegs (keyField k) (s.newKey k) :=
  (s.keyReady_frame k).trans ((State.setLeaves_frame _ _ _).trans ((State.change_frame _ _).trans (State.change_frame _ _)))

theorem State.setLeaves_stat (k : Nat) (l : Leaves) (g : Bits) : (s.setLeaves k l).get R.SEC_STAT g = s.get R.SEC_STAT g := by
  unfold State.setLeaves
  split
  · exact State.get_set_ne _ _ _ _ (by decide)
  · rfl

theorem State.newKey_keySt (k : Nat) : (s.newKey k).keySt k = 1 := by
  rw [State.keySt, State.newKey_eq, State.change_get_low _ _ _ (by decide), State.change_get_low _ _ _ (by decide), State.setLeaves_stat]
  refine State.get_set_fits _ _ _ (keyField_fits k) ?_
  unfold keyField
  split <;> decide

/-- One more route-log key is made. -/
def State.nextLogGen (s : State) : State := { s with sec := { s.sec with logGen := s.sec.logGen + 1 } }

theorem State.nextLogGen_rd (a : Nat) : s.nextLogGen.rd a = s.rd a := rfl

theorem State.newLogKey_eq : s.newLogKey = (s.nextLogGen.newKey 1).logWith ((Config.measure 3 [s.nextLogGen.sec.logGen]).toNat % 2 ^ 64) 10 0 0 0 0 0 s.nextLogGen.rfnNow 0xFF := rfl

theorem State.newLogKey_frame : s.nextLogGen.signFrame ckRegs F.SEC_STAT_LOG_KEY s.newLogKey := by
  rw [State.newLogKey_eq]
  exact ((s.nextLogGen.newKey_frame 1).mono (by decide)).trans (State.logWith_frame _ _ _ _ _ _ _ _ _ _ (by decide))

theorem State.newLogKey_keySt : s.newLogKey.keySt 1 = 1 := by
  rw [State.keySt, State.newLogKey_eq, State.get_of_rd (State.logWith_rd _ _ _ _ _ _ _ _ _ _ (by decide))]
  exact s.nextLogGen.newKey_keySt 1

theorem State.newLogKey_stat {g : Bits} (hg : F.SEC_STAT_LOG_KEY.apart g) : s.newLogKey.get R.SEC_STAT g = s.get R.SEC_STAT g :=
  (s.newLogKey_frame.stat hg).trans (State.get_of_rd (s.nextLogGen_rd _) g)

theorem State.newLogKey_cert : s.newLogKey.sec.cert = s.sec.cert := by
  rw [s.newLogKey_frame.sec]
  rfl

/-! ### Consent -/

theorem State.sigFail_stat : s.sigFail.rd R.SEC_STAT = s.rd R.SEC_STAT := by
  rw [State.sigFail, State.rd_raise_ne _ Hist.sec _ (by decide), State.rd_inc_ne _ (by decide)]

theorem State.recordSeq_stat (k v : Nat) : (s.recordSeq k v).rd R.SEC_STAT = s.rd R.SEC_STAT := by
  have h1 : R.SEC_STAT ≠ R.SEC_SEQ_LO k := by unfold R.SEC_STAT R.SEC_SEQ_LO; omega
  have h2 : R.SEC_STAT ≠ R.SEC_SEQ_HI k := by unfold R.SEC_STAT R.SEC_SEQ_HI; omega
  rw [State.recordSeq, State.change_rd_low _ _ (by decide), State.wr2, State.rd_wr_ne _ _ h2, State.rd_wr_ne _ _ h1]

theorem State.checkBlob_stat (b : Blob) (msg : List Byte) : (s.checkBlob b msg).2.rd R.SEC_STAT = s.rd R.SEC_STAT := by
  unfold State.checkBlob
  extract_lets keyOk
  generalize keyOk = x
  split
  · exact s.sigFail_stat
  · split
    · exact s.sigFail_stat
    · split
      · exact (State.rd_raise_ne _ Hist.sec _ (by decide)).trans s.sigFail_stat
      · exact s.recordSeq_stat _ _

theorem State.consent_stat (tok : Option Token) (g : Bits) : (s.consent tok).2.get R.SEC_STAT g = s.get R.SEC_STAT g := by
  unfold State.consent
  split
  · rfl
  · split
    · exact State.get_of_rd (s.checkBlob_stat _ _) g
    · rfl

end ops

/-! ### Bad tokens -/

section bad
variable {s : State} {tok : Option Token} {cut : Bool}

theorem bad_token {c : Instr} {t : State} (h : exec c s = .next t.lcBadToken) (ht : t.lifecycle = s.lifecycle) : ∃ u, exec c s = .next u ∧
    u.get R.SEC_HIST F.SEC_HIST_TOKEN_ERR = 1 ∧ u.get R.SEC_LC_RES F.SEC_LC_RES_RESULT = 4 ∧ u.lifecycle = s.lifecycle := by
  obtain ⟨h1, h2, h3⟩ := t.lcBadToken_spec
  exact ⟨_, h, h1, h2, h3.trans ht⟩

variable (hl : s.lifecycle ≠ 4) (hg : s.sec.genId = false) (hr : s.role = 0)
include hl hg hr

/-- LC_RMA once its token and consent stand. -/
def State.rmaTaken (s : State) (cut : Bool) : State :=
  if cut then (s.checkpoint 0 (0, 0xFF)).beginRma.eraseSecrets else (s.checkpoint 0 (0, 0xFF)).beginRma.eraseSecrets.endRma.lcDone 0

theorem State.lcRma_eq (hx : s.lifecycle = 1 ∨ s.lifecycle = 2) : s.lcRma tok cut = if !s.tokenOk tok 3 then s.lcBadToken
    else if !(s.consent tok).1 then (s.consent tok).2.lcBadToken else (s.consent tok).2.rmaTaken cut :=
  State.lcTry_taken hl hg hr (by simpa using hx)

/-- The checkpoint that a transition to END makes, and autostore disarmed. -/
def State.endCheckpoint (s : State) : State := s.checkpoint 0 (0, 0xFF)
/-- Autostore is disarmed for good. -/
def State.disarmed (s : State) : State := ((if s.armed then s.raiseMode F.GLB_MODE_HIST_AUTOSTORE_CHG else s).set R.AXL_CTL F.AXL_CTL_ARM 0).change 0
/-- LC_END once its token and consent stand. -/
def State.endTaken (s : State) : State := ((s.endCheckpoint.disarmed.setSigning false (0, 0xFF)).setLifecycle 4).enterEnd.lcDone 0

theorem State.lcEnd_eq : s.lcEnd tok = if !s.tokenOk tok 4 then s.lcBadToken
    else if !(s.consent tok).1 then (s.consent tok).2.lcBadToken else (s.consent tok).2.endTaken :=
  State.lcTry_taken hl hg hr rfl

omit hr in
theorem State.vendorDebugSession_eq (hx : s.lifecycle = 3) : s.vendorDebugSession tok = if s.tokenOk tok 7 then
    ((s.set R.SEC_STAT F.SEC_STAT_DEBUG 2).raise Hist.sec F.SEC_HIST_DEBUG_UNLOCK).lcDone 0 else s.lcBadToken :=
  (if_neg (by simp [hl, hg])).trans (if_neg (not_not_intro hx))

theorem lc_badToken (hu : s.upFor R.SEC_LC_REQ) (c : Instr) (h : c = .lcRma tok cut ∧ (s.lifecycle = 1 ∨ s.lifecycle = 2) ∧ (s.tokenOk tok 3 = false ∨ (s.consent tok).1 = false) ∨
      c = .lcEnd tok ∧ (s.tokenOk tok 4 = false ∨ (s.consent tok).1 = false) ∨ c = .vendorDebugSession tok ∧ s.lifecycle = 3 ∧ s.tokenOk tok 7 = false) :
    ∃ u, exec c s = .next u ∧ u.get R.SEC_HIST F.SEC_HIST_TOKEN_ERR = 1 ∧ u.get R.SEC_LC_RES F.SEC_LC_RES_RESULT = 4 ∧ u.lifecycle = s.lifecycle := by
  obtain ⟨rfl, hx, k⟩ | ⟨rfl, k⟩ | ⟨rfl, hx, k⟩ := h
  · have e := (exec_lcRma hu tok cut).trans (congrArg Host.Outcome.next (State.lcRma_eq hl hg hr hx))
    cases ht : s.tokenOk tok 3 with
    | false => exact bad_token (e.trans (congrArg _ (if_pos (by simp [ht])))) rfl
    | true =>
      have hc : (s.consent tok).1 = false := k.resolve_left (by simp [ht])
      exact bad_token (e.trans (congrArg _ ((if_neg (by simp [ht])).trans (if_pos (by simp [hc]))))) (s.consent_stat tok _)
  · have e := (exec_lcEnd hu tok).trans (congrArg Host.Outcome.next (State.lcEnd_eq hl hg hr))
    cases ht : s.tokenOk tok 4 with
    | false => exact bad_token (e.trans (congrArg _ (if_pos (by simp [ht])))) rfl
    | true =>
      have hc : (s.consent tok).1 = false := k.resolve_left (by simp [ht])
      exact bad_token (e.trans (congrArg _ ((if_neg (by simp [ht])).trans (if_pos (by simp [hc]))))) (s.consent_stat tok _)
  · have e := (exec_vendorDebugSession hu tok).trans (congrArg Host.Outcome.next (State.vendorDebugSession_eq hl hg hx))
    exact bad_token (e.trans (congrArg _ (if_neg (by simp [k])))) rfl

end bad

/-! ### LC_PROVISION and LC_FIELD -/

section provision
variable {s : State} (hu : s.upFor R.SEC_LC_REQ) (hg : s.sec.genId = false) (hr : s.role = 0)

/-- What a request that completes with a result alone shows. -/
theorem lc_result {c : Instr} {r : Nat} (h : exec c s = .next (s.lcDone r)) (h8 : r < 8) :
    ∃ u, exec c s = .next u ∧ u.lifecycle = s.lifecycle ∧ u.sec.genId = s.sec.genId ∧ u.get R.SEC_LC_RES F.SEC_LC_RES_RESULT = r :=
  ⟨_, h, s.lcDone_stat r _, congrArg SecSt.genId (s.lcDone_parts r).1, s.lcDone_result h8⟩

/-- An identity key is being made. -/
def State.generating (s : State) : State := { s with sec := { s.sec with genId := true } }

/-- The certificate a token brought is kept. -/
def State.certified (s : State) (c : List Nat) : State := { s with sec := { s.sec with cert := c, csr := none } }

/-- LC_PROVISION with a token that stands. -/
def State.provisioned (s : State) (c : List Nat) : State := ((s.certified c).writeRec 16 ((s.certified c).recBody 16) true).setLifecycle 1 |>.newLogKey

theorem State.provisioned_spec (c : List Nat) : (s.provisioned c).lifecycle = 1 ∧ (s.provisioned c).sec.cert = c ∧ (s.provisioned c).keySt 1 = 1 := by
  obtain ⟨w, hw⟩ : ∃ w, w = (s.certified c).writeRec 16 ((s.certified c).recBody 16) true := ⟨_, rfl⟩
  have hc : w.sec.cert = c := by
    rw [hw, (State.writeRec_kept (.refl [.regs, .axl] (s.certified c)) 16 _ true (Sub.self _)).2.2 .sec (by decide)]
    rfl
  rw [State.provisioned, ← hw]
  refine ⟨(State.newLogKey_stat _ (by decide)).trans (w.setLifecycle_lifecycle (by decide)), ?_, State.newLogKey_keySt _⟩
  rw [State.newLogKey_cert, w.setLifecycle_logSame 1]
  exact hc

include hu hg hr

theorem lcProvision_step1 (h0 : s.lifecycle = 0) :
    (s.entropyOk = true → ∃ u, exec (.lcProvision none) s = .next u ∧ u.sec.genId = true ∧ u.get R.SEC_LC_RES F.SEC_LC_RES_RESULT = 1) ∧
    (s.entropyOk = false → ∃ u, exec (.lcProvision none) s = .next u ∧ u.sec.genId = false ∧ u.get R.SEC_LC_RES F.SEC_LC_RES_RESULT = 6) := by
  have e : exec (.lcProvision none) s = .next (if s.entropyOk then s.generating.set R.SEC_LC_RES F.SEC_LC_RES_RESULT 1 else s.lcDone 6) :=
    (exec_lcProvision hu none).trans (congrArg _ (State.lcTry_taken hu.1.2 hg hr (by simp [h0])))
  refine ⟨fun he => ⟨_, e.trans (congrArg _ (if_pos he)), ?_, State.get_set_fits _ _ _ (by decide) (by decide)⟩, fun he => ?_⟩
  · rw [State.set_sec]
    rfl
  · obtain ⟨u, h1, -, h3, h4⟩ := lc_result (e.trans (congrArg _ (if_neg (by simp [he])))) (by decide)
    exact ⟨u, h1, h3.trans hg, h4⟩

/-- LC_PROVISION with a token: the checks in their order. -/
theorem lcProvision_eq (k : Token) (h0 : s.lifecycle = 0) : exec (.lcProvision (some k)) s = .next (if !s.tokenOk (some k) 1 then s.lcBadToken else
    if s.keySt 0 ≠ 1 then s.lcDone 3 else if !k.certOk || decide (4096 < k.cert.length) then s.lcBadToken else if !s.entropyOk then s.lcDone 6
    else (s.provisioned k.cert).lcDone 0) :=
  (exec_lcProvision hu (some k)).trans (congrArg _ (State.lcTry_taken hu.1.2 hg hr (by simp [h0])))

theorem lcProvision_step2 (k : Token) (h0 : s.lifecycle = 0) :
    (s.tokenOk (some k) 1 = false → ∃ u, exec (.lcProvision (some k)) s = .next u ∧ u.get R.SEC_HIST F.SEC_HIST_TOKEN_ERR = 1 ∧ u.get R.SEC_LC_RES F.SEC_LC_RES_RESULT = 4) ∧
    (s.tokenOk (some k) 1 = true → (s.keySt 0 ≠ 1 → ∃ u, exec (.lcProvision (some k)) s = .next u ∧ u.lifecycle = 0 ∧ u.get R.SEC_LC_RES F.SEC_LC_RES_RESULT = 3) ∧
      (s.keySt 0 = 1 → (k.certOk = false ∨ 4096 < k.cert.length) → ∃ u, exec (.lcProvision (some k)) s = .next u ∧ u.lifecycle = 0 ∧ u.get R.SEC_HIST F.SEC_HIST_TOKEN_ERR = 1 ∧
        u.get R.SEC_LC_RES F.SEC_LC_RES_RESULT = 4) ∧
      (s.keySt 0 = 1 → k.certOk = true → k.cert.length ≤ 4096 → s.entropyOk = false → ∃ u, exec (.lcProvision (some k)) s = .next u ∧ u.lifecycle = 0 ∧
        u.get R.SEC_LC_RES F.SEC_LC_RES_RESULT = 6) ∧
      (s.keySt 0 = 1 → k.certOk = true → k.cert.length ≤ 4096 → s.entropyOk = true → ∃ u, exec (.lcProvision (some k)) s = .next u ∧ u.lifecycle = 1 ∧ u.sec.cert = k.cert ∧
        u.keySt 1 = 1 ∧ u.get R.SEC_LC_RES F.SEC_LC_RES_RESULT = 0)) := by
  have e := lcProvision_eq hu hg hr k h0
  refine ⟨fun ht => ?_, fun ht => ⟨fun hk => ?_, fun hk hc => ?_, fun hk h1 h2 he => ?_, fun hk h1 h2 he => ?_⟩⟩
  · obtain ⟨u, h1, h2, h3, -⟩ := bad_token (e.trans (congrArg _ (if_pos (by simp [ht])))) rfl
    exact ⟨u, h1, h2, h3⟩
  all_goals replace e := e.trans (congrArg _ (if_neg (by simp [ht])))
  · obtain ⟨u, h1, h2, -, h4⟩ := lc_result (e.trans (congrArg _ (if_pos hk))) (by decide)
    exact ⟨u, h1, h2.trans h0, h4⟩
  all_goals replace e := e.trans (congrArg _ (if_neg (not_not_intro hk)))
  · obtain ⟨u, h1, h2, h3, h4⟩ := bad_token (e.trans (congrArg _ (if_pos (by simpa using hc)))) rfl
    exact ⟨u, h1, h4.trans h0, h2, h3⟩
  all_goals replace e := e.trans (congrArg _ (if_neg (by simp [h1, h2])))
  · obtain ⟨u, h1, h2, -, h4⟩ := lc_result (e.trans (congrArg _ (if_pos (by simp [he])))) (by decide)
    exact ⟨u, h1, h2.trans h0, h4⟩
  · obtain ⟨p1, p2, p3⟩ := State.provisioned_spec (s := s) k.cert
    exact ⟨_, e.trans (congrArg _ (if_neg (by simp [he]))), (State.lcDone_stat _ _ _).trans p1, (congrArg SecSt.cert (State.lcDone_parts _ 0).1).trans p2,
      (State.lcDone_stat _ _ _).trans p3, State.lcDone_result _ (by decide)⟩

theorem lcField_spec (h1 : s.lifecycle = 1) : (s.keySt 0 = 0 → ∃ u, exec .lcField s = .next u ∧ u.lifecycle = 1 ∧ u.get R.SEC_LC_RES F.SEC_LC_RES_RESULT = 3) ∧
    (s.keySt 0 ≠ 0 → ∃ u, exec .lcField s = .next u ∧ u.lifecycle = 2 ∧ u.get R.SEC_LC_RES F.SEC_LC_RES_RESULT = 0 ∧ u.get R.GLB_MODE_HIST F.GLB_MODE_HIST_LIFECYCLE_CHG = 1) := by
  have e : exec .lcField s = .next (if s.keySt 0 = 0 then s.lcDone 3 else ((s.checkpoint 0 (0, 0xFF)).setLifecycle 2).lcDone 0) :=
    (exec_lcField hu).trans (congrArg _ (State.lcTry_taken hu.1.2 hg hr (by simp [h1])))
  refine ⟨fun hk => ?_, fun hk => ?_⟩
  · obtain ⟨u, k1, k2, -, k4⟩ := lc_result (e.trans (congrArg _ (if_pos hk))) (by decide)
    exact ⟨u, k1, k2.trans h1, k4⟩
  · exact ⟨_, e.trans (congrArg _ (if_neg hk)), (State.lcDone_stat _ _ _).trans (State.setLifecycle_lifecycle _ (by decide)), State.lcDone_result _ (by decide),
      (State.get_of_rd (State.lcDone_rd _ _ (by decide) (by decide)) _).trans (State.setLifecycle_changed _ _)⟩

end provision

end Sys2Proof.Machine

/-! Entry to RMA and a vendor's debug session (R413 to R416). -/
namespace Sys2Proof.Machine

/-! ### What stores and log entries leave -/

/-- From `s` to `t` the security core's status, its part but for the route log, and the user's records stay. -/
structure State.secKept (s t : State) : Prop where
  stat : t.rd R.SEC_STAT = s.rd R.SEC_STAT
  sec : s.logSame t
  user : t.axl.user = s.axl.user

namespace State.secKept
variable {s t u : State}

theorem refl (s : State) : s.secKept s := ⟨rfl, .of_eq rfl, rfl⟩
theorem trans (h : s.secKept t) (k : t.secKept u) : s.secKept u := ⟨k.stat.trans h.stat, h.sec.trans k.sec, k.user.trans h.user⟩

theorem ite {p : Prop} [Decidable p] (h : s.secKept t) (k : s.secKept u) : s.secKept (if p then t else u) := by
  split
  · exact h
  · exact k

theorem onlyRegs {l : List Nat} (h : s.onlyRegs t l) (hl : R.SEC_STAT ∉ l) : s.secKept t := ⟨h.rd hl, .of_eq h.sec, congrArg AxlSt.user h.axl⟩

theorem foldl {α : Type} {f : State → α → State} (hf : ∀ (s : State) (x : α), s.secKept (f s x)) (l : List α) (s : State) : s.secKept (l.foldl f s) := by
  induction l generalizing s with
  | nil => exact .refl s
  | cons x l ih => exact (hf s x).trans (ih _)

theorem get (h : s.secKept t) (f : Bits) : t.get R.SEC_STAT f = s.get R.SEC_STAT f := State.get_of_rd h.stat f

theorem fields (h : s.secKept t) : t.sec.keys = s.sec.keys ∧ t.sec.domKey = s.sec.domKey ∧ t.sec.rmaPend = s.sec.rmaPend := by
  rw [h.sec]
  exact ⟨rfl, rfl, rfl⟩

end State.secKept

section keep
variable (s : State)

theorem State.axlSame.user {s t : State} (h : s.axlSame t) : t.axl.user = s.axl.user := by
  obtain ⟨l, r, c, h⟩ := h
  rw [h]

theorem State.writeRec_secKept (k : Nat) (b : RecBody) (ok : Bool) : s.secKept (s.writeRec k b ok) :=
  ⟨s.writeRec_rd k b ok (not_mem_recRegs k (by decide)), .of_eq ((State.writeRec_kept (.refl [.regs, .axl] s) k b ok (Sub.self _)).2.2 .sec (by decide)),
    (s.writeRec_axlSame k b ok).user⟩

theorem State.change_secKept (k : Nat) : s.secKept (s.change k) := by
  refine ⟨s.change_rd_low k (by decide), .of_eq (s.change_sec k), ?_⟩
  have h : s.secKept (s.dirty k) :=
    ⟨s.dirty_rd_low k (by decide), .of_eq (State.set_sec ..), congrArg AxlSt.user (State.set_axl ..)⟩
  exact (h.trans (.ite (State.writeRec_secKept _ k _ true) (.refl _))).user

theorem State.logSec_secKept (k : Nat) (p : Nat × Nat) : s.secKept (s.logSec k p) :=
  ⟨s.logSec_rd k p (by decide), s.logSec_logSame k p,
    congrArg AxlSt.user ((State.logSec_kept (.refl [.regs, .vec, .hostMem, .sec] s) k p (Sub.self _)).2.2 .axl (by decide))⟩

theorem State.lcDone_secKept (r : Nat) : s.secKept (s.lcDone r) :=
  ⟨s.lcDone_rd r (by decide) (by decide), .of_eq (s.lcDone_parts r).1, congrArg AxlSt.user (s.lcDone_parts r).2⟩

end keep

/-! ### The secrets are erased -/

section erase
variable (s : State)

/-- No key is pinned, and the store holds nothing of the user's. -/
def State.secretsGone (s : State) : State := { s with
  sec := { s.sec with keys := [], domKey := none }
  axl := { s.axl with user := [], presets := [], routes := [], cfgs := [] } }

theorem State.secretsGone_rd (a : Nat) : s.secretsGone.rd a = s.rd a := rfl
theorem State.secretsGone_parts : s.secretsGone.sec.keys = [] ∧ s.secretsGone.sec.domKey = none ∧ s.secretsGone.sec.rmaPend = s.sec.rmaPend ∧
    s.secretsGone.axl.user = [] := ⟨rfl, rfl, rfl, rfl⟩

/-- The sequence numbers of every slot start again. -/
def State.seqsCleared (s : State) : State := (List.range 8).foldl (fun (s : State) k => s.wr2 (R.SEC_SEQ_LO k) (R.SEC_SEQ_HI k) 0) s

theorem State.seqsCleared_secKept : s.secKept s.seqsCleared := by
  refine .foldl (fun t k => ?_) _ s
  have h : t.onlyRegs (t.wr2 (R.SEC_SEQ_LO k) (R.SEC_SEQ_HI k) 0) [R.SEC_SEQ_LO k, R.SEC_SEQ_HI k] :=
    .trans (State.wr_onlyRegs _ _ (.head _)) (State.wr_onlyRegs _ _ (.tail _ (.head _)))
  refine .onlyRegs h fun hm => ?_
  simp only [List.mem_cons, List.not_mem_nil, or_false, R.SEC_STAT, R.SEC_SEQ_LO, R.SEC_SEQ_HI] at hm
  omega

/-- The records named are stored as they are. -/
def State.eraseRecs (s : State) : State :=
  (([5, 6] ++ [9, 10, 11, 12] ++ (List.range 64).map (17 + ·)).foldl (fun (s : State) k => s.writeRec k (s.recBody k) true) s).writeRec 8 (.routes [] []) true

theorem State.eraseRecs_secKept : s.secKept s.eraseRecs := (State.secKept.foldl (fun t k => t.writeRec_secKept k _ true) _ s).trans (State.writeRec_secKept _ _ _ _)

/-- The entries of an erasure. -/
def State.eraseLogged (s : State) (on pins dom : Bool) : State :=
  let s := if on then s.logSec 2 (0, 0xFF) else s
  let s := if pins then s.logSec 3 (0, 0xFF) else s
  if dom then s.logSec 4 (0, 0xFF) else s

theorem State.eraseLogged_secKept (on pins dom : Bool) : s.secKept (s.eraseLogged on pins dom) := by
  have h (t : State) (b : Bool) (k : Nat) : t.secKept (if b then t.logSec k (0, 0xFF) else t) := .ite (t.logSec_secKept k _) (.refl t)
  exact (h s on 2).trans ((h _ pins 3).trans (h _ dom 4))

theorem State.eraseSecrets_eq : s.eraseSecrets =
    ((s.secretsGone.showKeys.seqsCleared.signBit false).eraseRecs).eraseLogged s.signReq (!s.sec.keys.isEmpty) s.sec.domKey.isSome := rfl

theorem State.signBit_get (on : Bool) {g : Bits} (hg : F.SEC_STAT_SIGN_REQ.apart g) : (s.signBit on).get R.SEC_STAT g = s.get R.SEC_STAT g := by
  rw [State.signBit, State.raiseMode_get _ _ _ (by decide), State.get_setB_apart _ _ _ _ (by decide) hg]

theorem State.signBit_axl (on : Bool) : (s.signBit on).axl = s.axl := by
  rw [State.signBit, State.raiseMode, (State.raiseBit_onlyRegs _ _ _ (.head [])).axl, State.setB_axl]

theorem State.eraseSecrets_spec : s.eraseSecrets.lifecycle = s.lifecycle ∧ s.eraseSecrets.signReq = false ∧ s.eraseSecrets.sec.keys = [] ∧
    s.eraseSecrets.sec.domKey = none ∧ s.eraseSecrets.sec.rmaPend = s.sec.rmaPend ∧ s.eraseSecrets.axl.user = [] := by
  obtain ⟨g, hg⟩ : ∃ g, g = s.secretsGone := ⟨_, rfl⟩
  obtain ⟨g1, g2, g3, g4⟩ := s.secretsGone_parts
  have gl : g.lifecycle = s.lifecycle := hg ▸ State.get_of_rd (s.secretsGone_rd _) _
  rw [← hg] at g1 g2 g3 g4
  obtain ⟨v, hv⟩ : ∃ v, v = g.showKeys.seqsCleared := ⟨_, rfl⟩
  have kv : g.showKeys.secKept v := hv ▸ g.showKeys.seqsCleared_secKept
  obtain ⟨vk, vd, vr⟩ := kv.fields
  have hk := (v.signBit false).eraseRecs_secKept.trans (State.eraseLogged_secKept _ s.signReq (!s.sec.keys.isEmpty) s.sec.domKey.isSome)
  have e := s.eraseSecrets_eq
  rw [← hg, ← hv] at e
  rw [← e] at hk
  obtain ⟨k1, k2, k3⟩ := hk.fields
  obtain ⟨b1, -, b3⟩ := v.signBit_spec false
  rw [b3] at k1 k2 k3
  rw [g.showKeys_sec] at vk vd vr
  refine ⟨?_, ?_, k1.trans (vk.trans g1), k2.trans (vd.trans g2), k3.trans (vr.trans g3), ?_⟩
  · exact (hk.get _).trans ((v.signBit_get false (by decide)).trans ((kv.get _).trans ((g.showKeys_get (by decide) (by decide)).trans gl)))
  · exact (congrArg (· != 0) (hk.get _)).trans b1
  · rw [hk.user, v.signBit_axl, kv.user, (State.showKeys_kept (.refl [.regs] g) (Sub.self _)).2.2 .axl (by decide)]
    exact g4

end erase

/-! ### Entry to RMA -/

section rma
variable (s : State)

/-- An entry to RMA is pending, or is no more. -/
def State.rmaPending (s : State) (b : Bool) : State := { s with sec := { s.sec with rmaPend := b } }

theorem State.rmaPending_spec (b : Bool) : (∀ a, (s.rmaPending b).rd a = s.rd a) ∧ (s.rmaPending b).sec.rmaPend = b ∧ (s.rmaPending b).sec.keys = s.sec.keys ∧
    (s.rmaPending b).sec.domKey = s.sec.domKey ∧ (s.rmaPending b).axl.user = s.axl.user := ⟨fun _ => rfl, rfl, rfl, rfl, rfl⟩

theorem State.beginRma_spec : s.beginRma.lifecycle = s.lifecycle ∧ s.beginRma.sec.rmaPend = true := by
  have k := (s.rmaPending true).change_secKept 0
  exact ⟨(k.get _).trans (State.get_of_rd ((s.rmaPending_spec true).1 _) _), k.fields.2.2.trans (s.rmaPending_spec true).2.1⟩

/-- Key 1 is retired, for good. -/
theorem State.retireKey_keySt : (s.retireKey 1).keySt 1 = 2 := by
  rw [State.keySt, State.retireKey, State.get_of_rd (State.dirty_rd_low _ _ (by decide)), State.get_raise_ne _ Hist.sec _ _ (by decide)]
  exact State.get_set_fits _ _ _ (by decide) (by decide)

theorem State.retireKey_parts (k : Nat) : (s.retireKey k).sec = s.sec ∧ (s.retireKey k).axl = s.axl := by
  have h := (State.retireKey_kept (.refl [.regs, .vec] s) k (Sub.self _)).2.2
  exact ⟨h .sec (by decide), h .axl (by decide)⟩

theorem State.endRma_eq (h : s.sec.rmaPend = true) : s.endRma = (((s.rmaPending false).retireKey 1).setLifecycle 3).change 0 := if_pos h

theorem State.endRma_spec (h : s.sec.rmaPend = true) : s.endRma.lifecycle = 3 ∧ s.endRma.signReq = s.signReq ∧ s.endRma.keySt 1 = 2 ∧ s.endRma.sec.rmaPend = false ∧
    s.endRma.sec.keys = s.sec.keys ∧ s.endRma.sec.domKey = s.sec.domKey ∧ s.endRma.axl.user = s.axl.user := by
  obtain ⟨p, hp⟩ : ∃ p, p = s.rmaPending false := ⟨_, rfl⟩
  obtain ⟨p1, p2, p3, p4, p5⟩ := s.rmaPending_spec false
  obtain ⟨w, hw⟩ : ∃ w, w = p.retireKey 1 := ⟨_, rfl⟩
  have e := s.endRma_eq h
  rw [← hp] at p1 p2 p3 p4 p5
  rw [← hp, ← hw] at e
  have k := (w.setLifecycle 3).change_secKept 0
  rw [← e] at k
  obtain ⟨k1, k2, k3⟩ := k.fields
  have hl := (w.setLifecycle_logSame 3)
  have w1 := p.retireKey_keySt
  obtain ⟨w2, w3⟩ := p.retireKey_parts 1
  have w4 : (p.retireKey 1).get R.SEC_STAT F.SEC_STAT_SIGN_REQ = s.get R.SEC_STAT F.SEC_STAT_SIGN_REQ :=
    ((p.retireKey_frame 1).stat (by decide)).trans (State.get_of_rd (p1 _) _)
  rw [← hw] at w1 w2 w3 w4
  refine ⟨(k.get _).trans (w.setLifecycle_lifecycle (by decide)), congrArg (· != 0) ?_, ?_, ?_, ?_, ?_, ?_⟩
  · exact (k.get _).trans ((w.setLifecycle_stat 3 _).trans ((w.fuseBlown_get 3 (by decide) (by decide)).trans w4))
  · exact (k.get _).trans ((w.setLifecycle_stat 3 _).trans ((w.fuseBlown_get 3 (by decide) (by decide)).trans w1))
  · exact k3.trans ((congrArg SecSt.rmaPend hl).trans ((congrArg SecSt.rmaPend w2).trans p2))
  · exact k1.trans ((congrArg SecSt.keys hl).trans ((congrArg SecSt.keys w2).trans p3))
  · exact k2.trans ((congrArg SecSt.domKey hl).trans ((congrArg SecSt.domKey w2).trans p4))
  · exact k.user.trans ((congrArg AxlSt.user ((w.setLifecycle_axl 3).trans w3)).trans p5)

/-- The secrets gone, with an entry to RMA pending. -/
def State.rmaErased (s : State) : State := (s.checkpoint 0 (0, 0xFF)).beginRma.eraseSecrets

theorem State.rmaErased_spec : s.rmaErased.lifecycle = s.lifecycle ∧ s.rmaErased.signReq = false ∧ s.rmaErased.sec.keys = [] ∧ s.rmaErased.sec.domKey = none ∧
    s.rmaErased.sec.rmaPend = true ∧ s.rmaErased.axl.user = [] := by
  obtain ⟨h1, h2, h3, h4, h5, h6⟩ := (s.checkpoint 0 (0, 0xFF)).beginRma.eraseSecrets_spec
  obtain ⟨b1, b2⟩ := (s.checkpoint 0 (0, 0xFF)).beginRma_spec
  exact ⟨h1.trans (b1.trans ((s.checkpoint_frame 0 (0, 0xFF)).stat (by decide))), h2, h3, h4, h5.trans b2, h6⟩

end rma

section commands
variable {s : State} {tok : Option Token} (hu : s.upFor R.SEC_LC_REQ) (hg : s.sec.genId = false)
include hu hg

theorem lcRma_taken (hr : s.role = 0) (cut : Bool) (hx : s.lifecycle = 1 ∨ s.lifecycle = 2) (ht : s.tokenOk tok 3 = true) (hc : (s.consent tok).1 = true) :
    exec (.lcRma tok cut) s = .next (if cut then (s.consent tok).2.rmaErased else (s.consent tok).2.rmaErased.endRma.lcDone 0) :=
  (exec_lcRma hu tok cut).trans (congrArg _ ((State.lcRma_eq hu.1.2 hg hr hx).trans ((if_neg (by simp [ht])).trans (if_neg (by simp [hc])))))

theorem lcRma_spec (hr : s.role = 0) (hx : s.lifecycle = 1 ∨ s.lifecycle = 2) (ht : s.tokenOk tok 3 = true) (hc : (s.consent tok).1 = true) :
    (∃ u, exec (.lcRma tok false) s = .next u ∧ u.lifecycle = 3 ∧ u.sec.rmaPend = false ∧ u.sec.keys = [] ∧ u.sec.domKey = none ∧
      u.axl.user = [] ∧ u.signReq = false ∧ u.keySt 1 = 2 ∧ u.get R.SEC_LC_RES F.SEC_LC_RES_RESULT = 0) ∧
    (∃ u, exec (.lcRma tok true) s = .next u ∧ u.lifecycle = s.lifecycle ∧ u.sec.rmaPend = true ∧ u.sec.keys = [] ∧ u.sec.domKey = none ∧ u.axl.user = [] ∧
      u.signReq = false) := by
  have e (cut : Bool) := lcRma_taken hu hg hr cut hx ht hc
  have cl : (s.consent tok).2.lifecycle = s.lifecycle := s.consent_stat tok _
  obtain ⟨w, hw⟩ : ∃ w, w = (s.consent tok).2.rmaErased := ⟨_, rfl⟩
  obtain ⟨r1, r2, r3, r4, r5, r6⟩ := (s.consent tok).2.rmaErased_spec
  rw [← hw] at r1 r2 r3 r4 r5 r6 e
  refine ⟨?_, w, (e true).trans (congrArg _ (if_pos rfl)), r1.trans cl, r5, r3, r4, r6, r2⟩
  obtain ⟨d1, d2, d3, d4, d5, d6, d7⟩ := w.endRma_spec r5
  have k := w.endRma.lcDone_secKept 0
  obtain ⟨k1, k2, k3⟩ := k.fields
  exact ⟨_, (e false).trans (congrArg _ (if_neg Bool.false_ne_true)), (k.get _).trans d1, k3.trans d4, k1.trans (d5.trans r3), k2.trans (d6.trans r4),
    k.user.trans (d7.trans r6), (congrArg (· != 0) (k.get _)).trans (d2.trans r2), (k.get _).trans d3, State.lcDone_result _ (by decide)⟩

/-- Debug opens. -/
def State.debugOpened (s : State) : State := (s.set R.SEC_STAT F.SEC_STAT_DEBUG 2).raise Hist.sec F.SEC_HIST_DEBUG_UNLOCK

omit hu hg in
theorem State.debugOpened_get (f : Bits) : s.debugOpened.get R.SEC_STAT f = (s.set R.SEC_STAT F.SEC_STAT_DEBUG 2).get R.SEC_STAT f :=
  State.get_raise_ne _ Hist.sec _ _ (by decide)

theorem vendorDebug_spec (hx : s.lifecycle = 3) (ht : s.tokenOk tok 7 = true) : ∃ u, exec (.vendorDebugSession tok) s = .next u ∧ u.get R.SEC_STAT F.SEC_STAT_DEBUG = 2 ∧
    u.get R.SEC_HIST F.SEC_HIST_DEBUG_UNLOCK = 1 ∧ u.get R.SEC_LC_RES F.SEC_LC_RES_RESULT = 0 ∧ u.lifecycle = 3 := by
  have k := s.debugOpened.lcDone_secKept 0
  refine ⟨s.debugOpened.lcDone 0, (exec_vendorDebugSession hu tok).trans (congrArg _ ((State.vendorDebugSession_eq hu.1.2 hg hx).trans (if_pos ht))), ?_, ?_,
    State.lcDone_result _ (by decide), ?_⟩
  · exact (k.get _).trans ((s.debugOpened_get _).trans (State.get_set_fits _ _ _ (by decide) (by decide)))
  · exact (State.get_of_rd (State.lcDone_rd _ _ (by decide) (by decide)) _).trans (State.get_raise _ Hist.sec _ rfl (by decide))
  · exact (k.get _).trans ((s.debugOpened_get _).trans ((State.get_set_apart _ _ _ _ _ (by decide) (by decide)).trans hx))

end commands

end Sys2Proof.Machine

/-! Entry to END (R413, R415, Table 11-3): the security core's status through what it powers down. -/
namespace Sys2Proof.Machine

section down
variable (s : State)

theorem State.rxDown_lowSame (n : Nat) (l : Bool) : s.lowSame (s.rxDown n l) := fun a ha => by
  have hx (m : Nat) : a ≠ R.SDI_RX_STAT m := by
    unfold R.SDI_RX_STAT quadWin
    omega
  rw [s.rxDown_rd n l a (fun m _ => hx m) (fun _ _ => by unfold R.SDI_TX_STAT quadWin; omega) (fun _ => by unfold R.XPT_FRZ_STAT; omega), if_neg (hx n)]

theorem State.qeDown_lowSame (q k : Nat) : s.lowSame (s.qeDown q k) := by
  have h : s.onlyRegs (s.qeDown q k) [R.QE_STAT q, R.QE_HIST q] := .ite
    (fun _ => .trans (.trans (State.set_onlyRegs _ _ _ (.head _)) (State.set_onlyRegs _ _ _ (.head _))) (State.raiseBit_onlyRegs _ _ _ (.tail _ (.head _))))
    fun _ => .refl _ _
  refine h.lowSame fun a ha => ?_
  simp only [List.mem_cons, List.not_mem_nil, or_false, R.QE_STAT, R.QE_HIST, quadWin] at ha
  omega

/-- Every lane and port is down. -/
def State.portsDown (s : State) : State :=
  (List.range 4).foldl (fun (s : State) q => (List.range 4).foldl (fun (s : State) k => s.qeDown q k) s)
    ((List.range 72).foldl (fun (s : State) n => (s.rxDown n true).txRefresh n) s)

theorem State.portsDown_lowSame : s.lowSame s.portsDown :=
  (State.lowSame.foldl (fun t n => (t.rxDown_lowSame n true).trans (State.txRefresh_lowSame _ n)) _ s).trans
    (.foldl (fun _ q => .foldl (fun t k => t.qeDown_lowSame q k) _ _) _ _)

/-- The partner's link and the sideband are gone. -/
def State.mateQuiet (s : State) : State := (s.set R.MATE_STAT F.MATE_STAT_LINK_UP 0).set R.MATE_STAT F.MATE_STAT_SB_ALIVE 0
/-- The voltage is held, but where power fails. -/
def State.vHeld (s : State) : State := if s.vState = 4 ∨ s.vState = 5 then s else s.setVState 6

theorem State.mateQuiet_stat : s.mateQuiet.rd R.SEC_STAT = s.rd R.SEC_STAT := by
  rw [State.mateQuiet, State.rd_set_ne _ _ _ (by decide), State.rd_set_ne _ _ _ (by decide)]

theorem State.vHeld_stat : s.vHeld.rd R.SEC_STAT = s.rd R.SEC_STAT := by
  unfold State.vHeld
  split
  · rfl
  · exact (s.setVState_onlyRegs 6).rd (by decide)

/-- The mean of the tracking loop stands elsewhere. -/
def State.meanDrawn (s : State) : State := { s with free := s.free + 1, ref := { s.ref with tAvg := (Config.fresh 16 s.free).toInt } }

theorem State.meanDrawn_rd (a : Nat) : s.meanDrawn.rd a = s.rd a := rfl

theorem State.trkMean_eq : s.trkMean = if s.selSt ≠ 2 ∨ s.ref.ts.isSome then s else s.meanDrawn.calibrate (Config.fresh 32 s.free).toInt := rfl

theorem State.trkMean_stat : s.trkMean.rd R.SEC_STAT = s.rd R.SEC_STAT := by
  rw [State.trkMean_eq]
  split
  · rfl
  · rw [State.calibrate_rd _ _ (by decide), if_neg (by decide), State.meanDrawn_rd]

/-- The reference part is another. -/
def State.withRef (s : State) (x : RefSt) : State := { s with ref := x }

theorem State.withRef_rd (x : RefSt) (a : Nat) : (s.withRef x).rd a = s.rd a := rfl

/-- The selector has nothing to switch to, and its loop runs. -/
def State.selIdle (s : State) : State := (s.set R.REF_STAT F.REF_STAT_TARGET 15).withRef { s.ref with bAt := none, frozen := false }

theorem State.selIdle_rd {a : Nat} (ha : a ≠ R.REF_STAT) : s.selIdle.rd a = s.rd a := by
  rw [State.selIdle, State.withRef_rd, State.rd_set_ne _ _ _ ha]

theorem State.refsOff_stat : s.refsOff.rd R.SEC_STAT = s.rd R.SEC_STAT := by
  unfold State.refsOff
  extract_lets held off free
  have h1 : held.rd R.SEC_STAT = s.rd R.SEC_STAT := (State.rd_wr_ne _ _ (by decide)).trans s.trkMean_stat
  have h2 : off.rd R.SEC_STAT = held.rd R.SEC_STAT := State.rd_foldl (fun t i hi => State.rd_set_ne _ _ _ (by
    have := List.mem_range.mp hi
    unfold R.SEC_STAT R.REF_IN_STAT
    omega)) held
  have h3 : free.rd R.SEC_STAT = off.rd R.SEC_STAT :=
    (State.rd_set_ne _ _ _ (by decide)).trans ((State.rd_set_ne _ _ _ (by decide)).trans (State.rd_set_ne _ _ _ (by decide)))
  clear_value free off held
  exact (free.selIdle_rd (by decide)).trans (h3.trans (h2.trans h1))

theorem State.enterEnd_eq : s.enterEnd = s.portsDown.mateQuiet.vHeld.refsOff.set R.AXL_STAT F.AXL_STAT_STATE 5 := rfl

theorem State.enterEnd_stat : s.enterEnd.rd R.SEC_STAT = s.rd R.SEC_STAT := by
  rw [State.enterEnd_eq, State.rd_set_ne _ _ _ (by decide), State.refsOff_stat, State.vHeld_stat, State.mateQuiet_stat, s.portsDown_lowSame _ (by decide)]

theorem State.enterEnd_get (f : Bits) : s.enterEnd.get R.SEC_STAT f = s.get R.SEC_STAT f := State.get_of_rd s.enterEnd_stat f

end down

/-! ### LC_END -/

theorem State.endTaken_spec (s : State) : s.endTaken.lifecycle = 4 ∧ s.endTaken.armed = false ∧ s.endTaken.signReq = false ∧
    s.endTaken.get R.SEC_LC_RES F.SEC_LC_RES_RESULT = 0 := by
  obtain ⟨w, hw⟩ : ∃ w, w = s.endCheckpoint.disarmed.setSigning false (0, 0xFF) := ⟨_, rfl⟩
  have w1 := (s.endCheckpoint.disarmed.setSigning_spec false (0, 0xFF)).1
  rw [← hw] at w1
  have e : s.endTaken = (w.setLifecycle 4).enterEnd.lcDone 0 := by rw [State.endTaken, ← hw]
  have k (f : Bits) : s.endTaken.get R.SEC_STAT f = (w.setLifecycle 4).get R.SEC_STAT f :=
    (congrArg (fun t => State.get t R.SEC_STAT f) e).trans (((State.lcDone_secKept _ 0).get f).trans (State.enterEnd_get _ f))
  have hl : s.endTaken.lifecycle = 4 := (k _).trans (w.setLifecycle_lifecycle (by decide))
  refine ⟨hl, by simp [State.armed, hl], (congrArg (· != 0) ((k _).trans ((w.setLifecycle_stat 4 _).trans (w.fuseBlown_get 4 (by decide) (by decide))))).trans w1, ?_⟩
  rw [e]
  exact State.lcDone_result _ (by decide)

theorem lcEnd_spec {s : State} {tok : Option Token} (hu : s.upFor R.SEC_LC_REQ) (hg : s.sec.genId = false) (hr : s.role = 0) (ht : s.tokenOk tok 4 = true)
    (hc : (s.consent tok).1 = true) : ∃ u, exec (.lcEnd tok) s = .next u ∧ u.lifecycle = 4 ∧ u.armed = false ∧ u.signReq = false ∧
      u.get R.SEC_LC_RES F.SEC_LC_RES_RESULT = 0 :=
  ⟨_, (exec_lcEnd hu tok).trans (congrArg _ ((State.lcEnd_eq hu.1.2 hg hr).trans ((if_neg (by simp [ht])).trans (if_neg (by simp [hc]))))),
    (s.consent tok).2.endTaken_spec⟩

end Sys2Proof.Machine

/-! Tokens, generated keys, entropy and the periodic checkpoint (R414, R418, R420, R421, R424). -/
namespace Sys2Proof.Machine

/-! ### Tokens -/

/-- A token is refused for its length, its device, its nonce, its signature or its target. -/
theorem tokenOk_false (s : State) (k : Token) (n : Nat) (h : k.head.length ≠ 64 ∨ bytesAt k.head 8 8 ≠ s.devId ∨
    (∃ w < 8, bytesAt k.head (24 + 4 * w) 4 ≠ (s.rd (R.SEC_LC_NONCE w)).toNat) ∨ k.vendor = false ∨ k.digest ≠ Config.shake 512 (nums k.head) ∨
    bytesAt k.head 16 1 ≠ n) : s.tokenOk (some k) n = false := by
  by_contra hx
  have ht : s.tokenOk (some k) n = true := by simpa using hx
  simp only [State.tokenOk, Token.form, Token.verifies, Token.target, Bool.and_eq_true, beq_iff_eq, List.all_eq_true, List.mem_range] at ht
  obtain ⟨⟨⟨⟨hform, hdev⟩, hnonce⟩, hvendor, hdigest⟩, htarget⟩ := ht
  rcases h with h | h | ⟨w, hw, h⟩ | h | h | h
  · exact h hform.1.1.1
  · exact h hdev
  · exact h (hnonce w hw)
  · simp [hvendor] at h
  · exact h hdigest
  · exact h htarget

/-! ### Generated keys -/

section generated
variable (s : State)

/-- The identity key is made, and SEC_CERT shows its request. -/
def State.csrShown (s : State) : State := { s with free := s.free + 1, sec := { s.sec with genId := false, csr := some s.free } }

theorem State.csrShown_genId : s.csrShown.sec.genId = false := rfl

theorem identityKey_spec : (s.sec.genId = false → exec .identityKeyGenerated s = .next s) ∧ (s.sec.genId = true → ∃ u, exec .identityKeyGenerated s = .next u ∧
    u.keySt 0 = 1 ∧ u.sec.genId = false ∧ u.get R.SEC_LC_RES F.SEC_LC_RES_RESULT = 5) := by
  have e : exec .identityKeyGenerated s = .next (if !s.sec.genId then s else (s.csrShown.newKey 0).lcDone 5) := rfl
  refine ⟨fun h => e.trans (congrArg _ (if_pos (by simp [h]))), fun h => ?_⟩
  refine ⟨_, e.trans (congrArg _ (if_neg (by simp [h]))), (State.lcDone_stat _ _ _).trans (State.newKey_keySt _ 0), ?_, State.lcDone_result _ (by decide)⟩
  rw [(State.lcDone_parts _ _).1, (s.csrShown.newKey_frame 0).sec]
  exact s.csrShown_genId

/-- The checkpoint that operation `o` waits for, if it waits for one. -/
def State.ckDue (s : State) (o : Op) : State :=
  match o.body with
  | .ckpt addr writeOk =>
    let s := s.checkpoint (if writeOk then addr else 0) (s.opOrigin o.id)
    if !writeOk && addr != 0 then s.finish o.id { status := 7, result := some 2 }
    else s.finish o.id { status := 0, result := some s.ckNum }
  | _ => s

theorem State.waitingCks_eq : s.waitingCks = s.host.ops.foldl State.ckDue s := rfl

theorem State.ckDue_other (o : Op) (h : ∀ a ok, o.body ≠ .ckpt a ok) : s.ckDue o = s := by
  unfold State.ckDue
  split
  · exact absurd ‹_› (h _ _)
  · rfl

theorem State.foldl_ckDue {l : List Op} (h : ∀ o ∈ l, ∀ a ok, o.body ≠ .ckpt a ok) : l.foldl State.ckDue s = s := by
  induction l with
  | nil => rfl
  | cons o l ih => rw [List.foldl_cons, s.ckDue_other o (h o (.head _)), ih fun x hx => h x (.tail _ hx)]

theorem State.waitingCks_none (h : ∀ o ∈ s.host.ops, ∀ a ok, o.body ≠ .ckpt a ok) : s.newLogKey.waitingCks = s.newLogKey := by
  rw [State.waitingCks_eq, ((State.newLogKey_kept (.refl [.regs, .vec, .hostMem, .sec, .axl] s) (Sub.self _)).hostSame (by decide)).ops]
  exact State.foldl_ckDue _ h

theorem routeLogKey_spec : ((s.keySt 1 ≠ 2 ∨ s.entropyOk = false ∨ s.lifecycle = 4) → exec .routeLogKeyGenerated s = .next s) ∧
    (s.keySt 1 = 2 → s.entropyOk = true → s.lifecycle ≠ 4 → exec .routeLogKeyGenerated s = .next s.newLogKey.waitingCks ∧ s.newLogKey.keySt 1 = 1 ∧
      ((∀ o ∈ s.host.ops, ∀ a ok, o.body ≠ .ckpt a ok) → s.newLogKey.waitingCks = s.newLogKey)) := by
  refine ⟨fun h => congrArg Host.Outcome.next (if_neg ?_), fun h1 h2 h3 => ⟨congrArg Host.Outcome.next (if_pos ⟨h1, h2, h3⟩), s.newLogKey_keySt, s.waitingCks_none⟩⟩
  rintro ⟨h1, h2, h3⟩
  rcases h with h | h | h
  · exact h h1
  · simp [h2] at h
  · exact h3 h

/-! ### Entropy -/

/-- Entropy fails its health tests. -/
def State.entropyBad (s : State) : State := (s.set R.SEC_STAT F.SEC_STAT_ENTROPY_OK 0).raise Hist.sec F.SEC_HIST_ENTROPY_FAIL
/-- No identity key is being made. -/
def State.genStopped (s : State) : State := { s with sec := { s.sec with genId := false } }

theorem State.genStopped_spec : (∀ a, s.genStopped.rd a = s.rd a) ∧ s.genStopped.sec.genId = false := ⟨fun _ => rfl, rfl⟩

theorem State.entropyBad_spec : s.entropyBad.entropyOk = false ∧ s.entropyBad.get R.SEC_HIST F.SEC_HIST_ENTROPY_FAIL = 1 ∧ s.entropyBad.sec = s.sec := by
  refine ⟨State.flag_of_get0 ?_, State.get_raise _ Hist.sec _ rfl (by decide), by rw [State.entropyBad, State.raise_sec, State.set_sec]⟩
  rw [State.entropyBad, State.get_raise_ne _ Hist.sec _ _ (by decide)]
  exact State.get_set_fits _ _ _ (by decide) (by decide)

theorem entropyFail_spec : ∃ u, exec .entropyFail s = .next u ∧ u.entropyOk = false ∧ u.get R.SEC_HIST F.SEC_HIST_ENTROPY_FAIL = 1 ∧ u.sec.genId = false ∧
    (s.sec.genId = true → u.get R.SEC_LC_RES F.SEC_LC_RES_RESULT = 6) := by
  have e : exec .entropyFail s = .next (if s.entropyBad.sec.genId then s.entropyBad.genStopped.lcDone 6 else s.entropyBad) := rfl
  obtain ⟨h1, h2, h3⟩ := s.entropyBad_spec
  generalize s.entropyBad = w at e h1 h2 h3
  cases hg : s.sec.genId with
  | false =>
    have hw : w.sec.genId = false := by rw [h3, hg]
    exact ⟨w, e.trans (congrArg _ (if_neg (by simp [hw]))), h1, h2, hw, fun h => Bool.noConfusion h⟩
  | true =>
    obtain ⟨g1, g2⟩ := w.genStopped_spec
    refine ⟨_, e.trans (congrArg _ (if_pos (by rw [h3, hg]))), ?_, ?_, ?_, fun _ => State.lcDone_result _ (by decide)⟩
    · exact (congrArg (· != 0) ((State.lcDone_stat _ _ _).trans (State.get_of_rd (g1 _) _))).trans h1
    · exact ((State.get_of_rd (State.lcDone_rd _ _ (by decide) (by decide)) _).trans (State.get_of_rd (g1 _) _)).trans h2
    · rw [(State.lcDone_parts _ _).1]
      exact g2

theorem entropyHealthPass_spec : ∃ u, exec .entropyHealthPass s = .next u ∧ u.entropyOk = true ∧ s.onlyRegs u [R.SEC_STAT] ∧ u.lifecycle = s.lifecycle :=
  ⟨_, rfl, State.flag_of_get (State.get_set_fits _ _ _ (by decide) (by decide)), State.set_onlyRegs _ _ _ (.head _),
    State.get_set_apart _ _ _ _ _ (by decide) (by decide)⟩

end generated

end Sys2Proof.Machine

/-! The instant of a checkpoint, the tail of the route log and its set-up (R18, R423, R424, R427). -/
namespace Sys2Proof.Machine

section now
variable (s : State)

/-! ### The clock stands still -/

theorem State.keepRoutes_now (k : Nat) (b : RecBody) : (s.keepRoutes k b).now = s.now := by
  rcases s.keepRoutes_cases k b with h | ⟨r, c, h⟩ <;> rw [h]

theorem State.putCopy_now (k h q : Nat) (ok : Bool) (b : RecBody) : (s.putCopy k h q ok b).now = s.now := State.inc_now _ _

theorem State.confirm_now (k h q : Nat) (b : RecBody) : (s.confirm k h q b).now = s.now := by
  unfold State.confirm
  dsimp only
  rw [State.wr_now]
  split <;> simp only [State.set_now, State.keepRoutes_now]

theorem State.writeRec_now (k : Nat) (b : RecBody) (ok : Bool) : (s.writeRec k b ok).now = s.now := by
  by_cases h : s.lifecycle = 4
  · rw [State.writeRec_end _ _ _ _ h]
  · rw [State.writeRec_eq _ _ _ _ h]
    split
    · rw [State.confirm_now, State.putCopy_now]
    · exact s.putCopy_now ..

theorem State.change_now (k : Nat) : (s.change k).now = s.now := by
  unfold State.change
  dsimp only
  split
  · rw [State.writeRec_now, State.dirty_now]
  · exact s.dirty_now k

theorem State.setLeaves_now (k : Nat) (l : Leaves) : (s.setLeaves k l).now = s.now := by
  unfold State.setLeaves
  split
  · exact State.set_now ..
  · rfl

theorem State.reserve_now (k : Nat) : (s.reserve k).now = s.now := (State.change_now _ _).trans (s.setLeaves_now _ _)

theorem State.retireKey_now (k : Nat) : (s.retireKey k).now = s.now := by rw [State.retireKey, State.dirty_now, State.raise_now, State.set_now]

theorem State.takeLeaf_now (k : Nat) : (s.takeLeaf k).2.now = s.now := by
  unfold State.takeLeaf
  split
  · rfl
  · extract_lets a l b
    have ha : a.now = s.now := by
      unfold a
      split
      · exact s.reserve_now k
      · rfl
    have hb : b.now = s.now := (State.dirty_now _ _).trans ((a.setLeaves_now _ _).trans ha)
    dsimp only
    split
    · exact (b.retireKey_now k).trans hb
    · exact hb

theorem State.nextSlot_now : s.nextSlot.now = s.now := rfl

theorem State.ckHost_now (b : List Byte) : (s.ckHost b).now = s.now := by
  unfold State.ckHost
  split
  · rw [State.nextSlot_now, State.hostWrite_now]
  · rfl

/-! ### The instant of a checkpoint -/

theorem State.ckNoted_lastCk : s.ckNoted.sec.lastCk = s.now := rfl

theorem State.ckPut_lastCk (b : List Byte) (addr : Nat) : (s.ckPut b addr).sec.lastCk = s.now := by
  rw [State.ckPut, State.ckNoted_lastCk]
  split
  · exact s.ckHost_now b
  · rw [State.hostWrite_now, s.ckHost_now b]

theorem State.ckMade_lastCk (leaf addr : Nat) : (s.ckMade leaf addr).sec.lastCk = s.now := by
  rw [State.ckMade, State.ckPut_lastCk, State.wr2, State.wr_now, State.wr_now]

theorem State.ckLogged_logSame (p : Nat × Nat) : s.logSame (s.ckLogged p) := (State.logSame.of_eq (s.change_sec 7)).trans (State.logWith_logSame ..)

theorem State.checkpoint_lastCk (h : s.keySt 1 = 1) (addr : Nat) (p : Nat × Nat) : (s.checkpoint addr p).sec.lastCk = s.now := by
  obtain ⟨leaf, w, hw, -⟩ := s.takeLeaf_some h
  have hn : w.now = s.now := by
    have := s.takeLeaf_now 1
    rwa [hw] at this
  rw [s.checkpoint_some hw, State.ckLogged_logSame (w.ckMade leaf addr) p]
  exact (w.ckMade_lastCk leaf addr).trans hn

/-- Time advances, and the registers with the security core stay. -/
theorem State.at_spec (t : Nat) : (∀ a, (s.at_ t).rd a = s.rd a) ∧ (s.at_ t).now = t ∧ (s.at_ t).keySt 1 = s.keySt 1 ∧ (s.at_ t).ckNum = s.ckNum :=
  ⟨fun _ => rfl, rfl, rfl, rfl⟩

theorem checkpointPeriod_spec (t : Nat) : ((s.sec.lastCk + s.ckPeriod ≤ t ∧ s.keySt 1 = 1 ∧ s.lifecycle ≠ 4) → ∃ u, exec (.checkpointPeriod t) s = .next u ∧
      u = (s.at_ t).checkpoint 0 (0, 0xFF) ∧ u.ckNum = (s.ckNum + 1) % 2 ^ 48 ∧ u.sec.lastCk = t) ∧
    (¬ (s.sec.lastCk + s.ckPeriod ≤ t ∧ s.keySt 1 = 1 ∧ s.lifecycle ≠ 4) → exec (.checkpointPeriod t) s = .next (s.at_ t)) := by
  have e : exec (.checkpointPeriod t) s = .next (if s.sec.lastCk + s.ckPeriod ≤ t ∧ s.keySt 1 = 1 ∧ s.lifecycle ≠ 4 then
    (s.at_ t).checkpoint 0 (0, 0xFF) else s.at_ t) := rfl
  obtain ⟨-, hn, hk, hc⟩ := s.at_spec t
  refine ⟨fun h => ⟨_, e.trans (congrArg _ (if_pos h)), rfl, ?_, ?_⟩, fun h => e.trans (congrArg _ (if_neg h))⟩
  · rw [State.checkpoint_ckNum _ (hk.trans h.2.1), hc]
  · rw [State.checkpoint_lastCk _ (hk.trans h.2.1), hn]

end now

end Sys2Proof.Machine

/-! The tail of the route log and its set-up (R18, R423, R427). -/
namespace Sys2Proof.Machine

/-! ### Held entries -/

section held
variable (s : State)

/-- The first held entry waits no more. -/
def State.holdTail (s : State) : State := { s with sec := { s.sec with hold := s.sec.hold.tail } }

theorem State.holdTail_rd (a : Nat) : s.holdTail.rd a = s.rd a := rfl
theorem State.holdTail_logSame : s.logSame s.holdTail := rfl

/-- A held entry is delivered if there is room. -/
def State.deliverOne (s : State) (e : LogEntry) : State := if s.logRoom then (s.deliver e).holdTail else s

theorem State.deliverHeld_eq : s.deliverHeld = s.sec.hold.foldl State.deliverOne s := rfl

theorem State.deliverHeld_none (h : s.sec.hold = []) : s.deliverHeld = s := by rw [State.deliverHeld_eq, h, List.foldl_nil]

theorem State.deliverHeld_rd {a : Nat} (ha : a ≠ R.SEC_LOG_HEAD) : s.deliverHeld.rd a = s.rd a := by
  refine State.rd_foldl (f := State.deliverOne) (fun t e _ => ?_) s
  unfold State.deliverOne
  split
  · rw [State.holdTail_rd, t.deliver_rd e ha]
  · rfl

theorem State.foldl_deliver_logSame (l : List LogEntry) : s.logSame (l.foldl State.deliverOne s) := by
  induction l generalizing s with
  | nil => exact .of_eq rfl
  | cons e l ih =>
    refine State.logSame.trans ?_ (ih _)
    unfold State.deliverOne
    split
    · exact (State.logSame.of_eq (s.deliver_sec e)).trans (State.holdTail_logSame _)
    · exact .of_eq rfl

theorem State.deliverHeld_logSame : s.logSame s.deliverHeld := s.foldl_deliver_logSame s.sec.hold

theorem State.deliverHeld_taken : s.deliverHeld.taken = s.taken :=
  (State.deliverHeld_kept (.refl [.regs, .hostMem, .sec] s) (Sub.self _)).2.2 .taken (by decide)

theorem State.deliverHeld_inForce (a : Nat) : s.deliverHeld.inForce a = s.inForce a := congrArg (tabGet (resetVal a) · a) s.deliverHeld_taken

end held

/-! ### SEC_LOG_TAIL -/

theorem logTailWrite_spec (s : State) (v : Nat) (hu : s.upFor R.SEC_LOG_TAIL) : ∃ u, exec (.logTailWrite v) s = .next u ∧
    u = (s.set R.SEC_LOG_TAIL F.SEC_LOG_TAIL_TAIL v).deliverHeld ∧ u.get R.SEC_LOG_TAIL F.SEC_LOG_TAIL_TAIL = v % 2 ^ 24 ∧
      (s.sec.hold = [] → s.onlyRegs u [R.SEC_LOG_TAIL]) := by
  refine ⟨_, congrArg Host.Outcome.next ((State.byHost_upFor hu _).trans (if_neg hu.1.2)), rfl, ?_, fun h => ?_⟩
  · rw [State.get_of_rd (State.deliverHeld_rd _ (by decide))]
    exact State.get_set_self _ _ _ _ (by decide)
  · rw [State.deliverHeld_none _ (by rw [State.set_sec, h])]
    exact State.set_onlyRegs _ _ _ (.head _)

/-! ### The set-up -/

section setup
variable (s : State)

/-- A set-up word as it is stored. -/
def setupWord (a v : Nat) : Word := BitVec.ofNat 32 (if a = R.SEC_LOG_CFG then v % 2 ^ 16 else v)

/-- The log's ring is taken. -/
def State.logRingUp (s : State) : State := { s with sec := { s.sec with logUp := true } }
/-- The checkpoint ring is taken. -/
def State.ckRingUp (s : State) : State := { s with sec := { s.sec with ckUp := true } }

theorem State.logRingUp_spec : (∀ a, s.logRingUp.rd a = s.rd a) ∧ s.logRingUp.sec.logUp = true := ⟨fun _ => rfl, rfl⟩
theorem State.ckRingUp_spec : (∀ a, s.ckRingUp.rd a = s.rd a) ∧ s.ckRingUp.sec.ckUp = true := ⟨fun _ => rfl, rfl⟩

/-- A base comes into force with its higher word. -/
def State.setupTaken (s : State) (a : Nat) : State :=
  if a = R.SEC_LOG_BASE_HI then s.logRingUp.takeSetting [R.SEC_LOG_BASE_LO, R.SEC_LOG_BASE_HI]
  else if a = R.SEC_CKPT_BASE_HI then s.ckRingUp.takeSetting [R.SEC_CKPT_BASE_LO, R.SEC_CKPT_BASE_HI]
  else s

theorem State.logSetup_eq (a v : Nat) : s.logSetup a v = if !logSetupReg a || s.lifecycle == 4 ||
    s.get R.SEC_LOG_HEAD F.SEC_LOG_HEAD_HEAD != s.get R.SEC_LOG_TAIL F.SEC_LOG_TAIL_TAIL then s else ((s.wr a (setupWord a v)).setupTaken a).deliverHeld := rfl

theorem State.takeSetting_rd (l : List Nat) (a : Nat) : (s.takeSetting l).rd a = s.rd a := rfl

theorem State.setupTaken_rd (a b : Nat) : (s.setupTaken a).rd b = s.rd b := by
  unfold State.setupTaken
  split
  · rw [State.takeSetting_rd, s.logRingUp_spec.1]
  · split
    · rw [State.takeSetting_rd, s.ckRingUp_spec.1]
    · rfl

/-- Both words of a setting come into force as they stand. -/
theorem State.takeSetting_pair {lo hi : Nat} (h : lo ≠ hi) : (s.takeSetting [lo, hi]).inForce lo = s.rd lo ∧ (s.takeSetting [lo, hi]).inForce hi = s.rd hi :=
  ⟨(tabGet_set_ne _ _ _ _ h).trans (tabGet_set_self ..), tabGet_set_self ..⟩

theorem State.setupTaken_log : (s.setupTaken R.SEC_LOG_BASE_HI).sec.logUp = true ∧ (s.setupTaken R.SEC_LOG_BASE_HI).inForce R.SEC_LOG_BASE_LO = s.rd R.SEC_LOG_BASE_LO ∧
    (s.setupTaken R.SEC_LOG_BASE_HI).inForce R.SEC_LOG_BASE_HI = s.rd R.SEC_LOG_BASE_HI := by
  rw [State.setupTaken, if_pos rfl]
  obtain ⟨h1, h2⟩ := s.logRingUp.takeSetting_pair (lo := R.SEC_LOG_BASE_LO) (hi := R.SEC_LOG_BASE_HI) (by decide)
  exact ⟨(congrArg SecSt.logUp (State.takeSetting_sec ..)).trans s.logRingUp_spec.2, h1.trans (s.logRingUp_spec.1 _), h2.trans (s.logRingUp_spec.1 _)⟩

theorem State.setupTaken_ck : (s.setupTaken R.SEC_CKPT_BASE_HI).sec.ckUp = true ∧ (s.setupTaken R.SEC_CKPT_BASE_HI).inForce R.SEC_CKPT_BASE_LO = s.rd R.SEC_CKPT_BASE_LO ∧
    (s.setupTaken R.SEC_CKPT_BASE_HI).inForce R.SEC_CKPT_BASE_HI = s.rd R.SEC_CKPT_BASE_HI := by
  rw [State.setupTaken, if_neg (by decide), if_pos rfl]
  obtain ⟨h1, h2⟩ := s.ckRingUp.takeSetting_pair (lo := R.SEC_CKPT_BASE_LO) (hi := R.SEC_CKPT_BASE_HI) (by decide)
  exact ⟨(congrArg SecSt.ckUp (State.takeSetting_sec ..)).trans s.ckRingUp_spec.2, h1.trans (s.ckRingUp_spec.1 _), h2.trans (s.ckRingUp_spec.1 _)⟩

end setup

section write
variable {s : State} {a : Nat} (v : Nat) (hu : s.upFor a)
include hu

theorem exec_logSetupWrite : exec (.logSetupWrite a v) s = .next (s.logSetup a v) := congrArg _ (State.byHost_upFor hu _)

theorem logSetupWrite_barred (h : logSetupReg a = false ∨ s.get R.SEC_LOG_HEAD F.SEC_LOG_HEAD_HEAD ≠ s.get R.SEC_LOG_TAIL F.SEC_LOG_TAIL_TAIL) :
    exec (.logSetupWrite a v) s = .next s := by
  refine (exec_logSetupWrite v hu).trans (congrArg _ ((s.logSetup_eq a v).trans (if_pos ?_)))
  rcases h with h | h <;> simp [h]

theorem logSetupWrite_spec (hs : logSetupReg a = true) (he : s.get R.SEC_LOG_HEAD F.SEC_LOG_HEAD_HEAD = s.get R.SEC_LOG_TAIL F.SEC_LOG_TAIL_TAIL) :
    ∃ u, exec (.logSetupWrite a v) s = .next u ∧ u.rd a = BitVec.ofNat 32 (if a = R.SEC_LOG_CFG then v % 2 ^ 16 else v) ∧
      (a = R.SEC_LOG_BASE_HI → u.sec.logUp = true ∧ u.inForce R.SEC_LOG_BASE_LO = s.rd R.SEC_LOG_BASE_LO ∧ u.inForce R.SEC_LOG_BASE_HI = BitVec.ofNat 32 v) ∧
      (a = R.SEC_CKPT_BASE_HI → u.sec.ckUp = true ∧ u.inForce R.SEC_CKPT_BASE_LO = s.rd R.SEC_CKPT_BASE_LO ∧ u.inForce R.SEC_CKPT_BASE_HI = BitVec.ofNat 32 v) ∧
      ((a = R.SEC_LOG_BASE_LO ∨ a = R.SEC_CKPT_BASE_LO) → u.taken = s.taken) := by
  have hl := hu.1.2
  have hh : a ≠ R.SEC_LOG_HEAD := by
    rintro rfl
    exact absurd hs (by decide)
  have hx := (exec_logSetupWrite v hu).trans (congrArg Host.Outcome.next ((s.logSetup_eq a v).trans (if_neg (by simp [hs, hl, he]))))
  refine ⟨_, hx, ?_, ?_, ?_, ?_⟩
  · rw [State.deliverHeld_rd _ hh, State.setupTaken_rd, State.rd_wr_self]
    rfl
  · rintro rfl
    obtain ⟨h1, h2, h3⟩ := (s.wr R.SEC_LOG_BASE_HI (setupWord R.SEC_LOG_BASE_HI v)).setupTaken_log
    rw [State.deliverHeld_inForce, State.deliverHeld_inForce, State.deliverHeld_logSame ((s.wr R.SEC_LOG_BASE_HI _).setupTaken _), h2, h3,
      State.rd_wr_ne _ _ (by decide), State.rd_wr_self]
    exact ⟨h1, rfl, rfl⟩
  · rintro rfl
    obtain ⟨h1, h2, h3⟩ := (s.wr R.SEC_CKPT_BASE_HI (setupWord R.SEC_CKPT_BASE_HI v)).setupTaken_ck
    rw [State.deliverHeld_inForce, State.deliverHeld_inForce, State.deliverHeld_logSame ((s.wr R.SEC_CKPT_BASE_HI _).setupTaken _), h2, h3,
      State.rd_wr_ne _ _ (by decide), State.rd_wr_self]
    exact ⟨h1, rfl, rfl⟩
  · rintro (rfl | rfl)
    all_goals rw [State.deliverHeld_taken, State.setupTaken, if_neg (by decide), if_neg (by decide), State.wr_taken]

end write

/-- Settles O58: each request by the checks that decide it, in their order; the secrets, the keys and the lifecycle by what each of its steps leaves. -/
theorem lifecycleAndRouteLog : Obligations.LifecycleAndRouteLog := by
  unfold Obligations.LifecycleAndRouteLog
  refine ⟨fun s tok cut hu => ⟨lc_generating hu tok cut, fun hg => lc_barred hu hg tok cut, fun hg hr => lc_paired hu hg hr tok cut, fun hg hr => ?_⟩, tokenOk_false,
    fun s => ?_, checkpointPeriod_spec, logTailWrite_spec, fun s a v hu => ⟨logSetupWrite_barred v hu, logSetupWrite_spec v hu⟩⟩
  · exact ⟨lc_badToken hu.1.2 hg hr hu, fun h0 => ⟨fun ht => ht ▸ lcProvision_step1 hu hg hr h0, fun k ht => ht ▸ lcProvision_step2 hu hg hr k h0⟩, lcField_spec hu hg hr,
      lcRma_spec hu hg hr, lcEnd_spec hu hg hr, vendorDebug_spec hu hg⟩
  · exact ⟨(identityKey_spec s).1, (identityKey_spec s).2, (routeLogKey_spec s).1, (routeLogKey_spec s).2, entropyFail_spec s, entropyHealthPass_spec s⟩

end Sys2Proof.Machine
